-- ==== Sys2Proof/Word.lean ====
section
/-! DEFINITION. The word types of the WX64 and the plainest arithmetic on naturals read as bit strings. -/

namespace Sys2Proof

/-- A byte of memory. -/
abbrev Byte := BitVec 8
/-- A 32-bit register or word-store word. -/
abbrev W32 := BitVec 32
/-- A 64-bit queue or register word. -/
abbrev W64 := BitVec 64

/-- Bits `[lo+w-1 : lo]` of a natural read as a bit string. -/
def bitsAt (v lo w : Nat) : Nat := (v >>> lo) % 2 ^ w

/-- `v` with its bits `[lo+w-1 : lo]` replaced by the low `w` bits of `x`. -/
def setBitsAt (v lo w x : Nat) : Nat :=
  (v >>> (lo + w)) <<< (lo + w) ||| ((x % 2 ^ w) <<< lo) ||| v % 2 ^ lo

/-- A counter of `w` bits that saturates (R402, R434 and many others). -/
def satAdd (w v n : Nat) : Nat := Nat.min (v + n) (2 ^ w - 1)

/-- Two's complement reading of the low `w` bits. -/
def toSigned (w v : Nat) : Int :=
  let u := v % 2 ^ w
  if 2 * u < 2 ^ w then (u : Int) else (u : Int) - (2 ^ w : Nat)

end Sys2Proof
end

