-- ==== Sys2Proof/Syntax.lean ====
section
/-! DEFINITION. The commands the WX64 takes: one constructor for each row of spec/opcode_table.json, with the operands that
the row's rule names. Unit numbers are those of R6. -/

namespace Sys2Proof

/-- The function on whose behalf a host access arrives: the PF, or VF p+1 (R166). -/
inductive Fn
  | pf
  | vf (p : Fin 16)
deriving DecidableEq, Repr

/-- A function's number: 0 the PF, p + 1 a VF (R166). -/
def Fn.index : Fn → Nat
  | .pf => 0
  | .vf p => p.val + 1

/-- A flit on a router link (R259, R267): its kind sent three times, its 256 bits, and a data flit's check bits. -/
structure Flit where
  kind : BitVec 6
  data : BitVec 256
  chk  : BitVec 10
deriving DecidableEq, Repr

/-- The header fields of a packet that decide its handling (R259); `data` is its payload as bytes, `checks` the check bits that arrive beside
its data flits (R267): flits beyond that list carry the bits their source computed. -/
structure Packet where
  vc     : Fin 4
  src    : Fin 256
  dst    : Fin 256
  op     : Fin 64
  len    : Fin 16
  tag    : Fin 4096
  part   : Fin 16
  devlvl : Bool
  fence  : Bool
  status : Fin 256
  addr   : BitVec 64
  remoteDev : Fin 512
  remoteDst : Fin 256
  data   : List Byte
  checks : List (BitVec 10)
deriving DecidableEq, Repr

/-- Where a register read falls: its byte offset in BAR0, and whether it is of 64 bits or of 32 (R9, R10). -/
structure ReadAt where
  off  : Nat
  wide : Bool
deriving DecidableEq, Repr

/-- A step frame with slots (R229): its bits, and how many of its fields are slots. -/
structure SlotBits where
  frame : BitVec 432
  n     : Fin 14
deriving DecidableEq, Repr

/-- What marks a String frame besides its fields (R395): SEQ and CRC-32C. -/
structure RingMark where
  seq : Byte
  crc : W32
deriving DecidableEq, Repr

/-- A String FREEZE frame's payload, the freeze's origin and number, with its CRC-32C (R179, R395). -/
structure FreezeTail where
  origin : Fin 512
  num    : Byte
  crc    : W32
deriving DecidableEq, Repr

/-- A service command's payload words (R163). -/
abbrev Words := List W64

/-- What moves a word of an error report: the kind of word, as SCR.LAST.KIND codes it (R222). -/
inductive WordLoc
  | bp (t : Fin 32) (b : Fin 64) (s : Fin 256)
  | walu (t : Fin 32) (w : Fin 2) (s : Fin 256)
  | port (t : Fin 32) (j : Fin 16) (s : Fin 256)
  | mesh (j : Fin 8) (s : Fin 256)
  | dmem (m : Fin 8) (row : Fin 8192)
  | far (f : Fin 4) (addr : Nat)
deriving DecidableEq, Repr

/-- The commands. -/
inductive Instr
  -- registers (R7 to R11, R275)
  | registerWrite (fn : Fn) (off : Nat) (v : Nat) (wide : Bool)
  | pairLowRead (fn : Fn) (place : ReadAt)
  | pairLowWrite (fn : Fn) (off : Nat) (v : Nat)
  | pairHighWrite (fn : Fn) (off : Nat) (v : Nat)
  | misalignedAccess (fn : Fn) (off : Nat) (size : Nat) (write : Bool)
  | fenceRead (fn : Fn) (off : Nat)
  -- the step and the sequencer (R24 to R126)
  | executeStep (p : Fin 16)
  | correctedWordWriteBack (n : Fin 64) (walu : Bool) (t : Fin 32) (unit : Fin 64) (s : Fin 256)
  | cascadeLimit (p : Fin 16)
  | runLimitReached (p : Fin 16)
  | stepCyclesCountReached (p : Fin 16)
  | stepStepsCountReached (p : Fin 16)
  | stallRelease (p : Fin 16)
  | start (p : Fin 16)
  | resume (p : Fin 16)
  | freeze (p : Fin 16)
  | hardFreeze (p : Fin 16)
  | stepCycles (p : Fin 16)
  | stepSteps (p : Fin 16)
  | stop (p : Fin 16)
  | seqCmdInvalid (p : Fin 16) (code : Fin 16)
  | freezeSettled (p : Fin 16)
  | freezeTimeout (p : Fin 16)
  | seqTableWrite (p : Fin 16) (off : Nat) (v : W32)
  -- cluster pages, design memories and far ports (R127 to R143)
  | bpiClrCounts (n : Fin 64)
  | wliClrCounts (n : Fin 64)
  | fabClrCount (n : Fin 64)
  | dmemClrCounts (n : Fin 64)
  | dmemRowWriteBack (n : Fin 64) (m : Fin 8) (row : Fin 8192)
  | dmemCfgWrite (n : Fin 64) (off : Nat) (v : W32)
  | fmpConfigWrite (n : Fin 64) (off : Nat) (v : W32)
  | txpConfigWrite (n : Fin 64) (off : Nat) (v : W32)
  | farReadArrival (n : Fin 64) (f : Fin 4)
  | farWriteAck (n : Fin 64) (f : Fin 4)
  -- windows, snapshots and strobes (R144 to R158)
  | windowRead (fn : Fn) (n : Fin 64) (w : Fin 16) (off : Nat)
  | windowWrite (fn : Fn) (n : Fin 64) (w : Fin 16) (off : Nat) (v : W32)
  | windowReadTimeout (fn : Fn) (n : Fin 64) (w : Fin 16) (off : Nat)
  | snapSave (p : Fin 16)
  | snapSaveComplete (p : Fin 16)
  | snapRestore (p : Fin 16)
  | snapCheckComplete (p : Fin 16)
  | snapRestoreComplete (p : Fin 16)
  | snapAbort (p : Fin 16)
  | strobe
  | strobeLatch
  -- partitions and service commands (R160 to R171, R432)
  | ptnCreate (tag : Byte) (p : Fin 16) (bindVf : Bool) (mask : W64) (shape : W64) (quotaMiB : W32)
  | ptnDestroy (tag : Byte) (p : Fin 16)
  | ptnCloseComplete (p : Fin 16)
  | ptnResize (tag : Byte) (p : Fin 16) (retarget : Bool) (mask : W64) (shape : W64)
  | ptnResizeComplete (p : Fin 16)
  | ptnQuery (tag : Byte) (p : Fin 16)
  | ping (tag : Byte) (arg : W32)
  | serviceBadCommand (hdr : W64)
  -- linked partitions, system freeze, lockstep and time (R171 to R193)
  | linkedCommand (g : Fin 16) (p : Fin 16) (cmd : Fin 16) (count : W32) (dist : Nat) (intact : Bool)
  | linkedCommandEffect (p : Fin 16)
  | hold (g : Fin 16) (p : Fin 16) (e : Nat) (intact : Bool)
  | ready (g : Fin 16) (p : Fin 16) (e : Nat) (intact : Bool)
  | go (g : Fin 16) (p : Fin 16) (e : Nat) (intact : Bool)
  | systemHoldRelease (p : Fin 16)
  | steps (g : Fin 16) (p : Fin 16) (cycle : BitVec 48) (count : Nat) (intact : Bool)
  | sysFreeze
  | freezeMsg (g : Fin 16) (origin : Fin 512) (seq : Byte) (intact : Bool)
  | lockstepRecord (r : BitVec 128)
  | partnerTimeout
  | beaconSend
  | beacon (g : Fin 16) (ns : W64) (frac : BitVec 16) (hops : Nat) (master : Fin 512) (intact : Bool)
  | beaconTimeout
  | tsbHoldEnd
  | tsbSet (v : W64)
  -- boot, fuses, loader and scrubber (R194 to R223)
  | bootGo
  | bootAbort
  | bundleFetchComplete (data : Option (List Byte))
  | bundleVerifyComplete
  | stageReady
  | confirm
  | burnComplete (fault : Bool)
  | ownerProvision (tag : Byte) (hash : Words)
  | loadGo (p : Fin 16)
  | loadAbort (p : Fin 16)
  | loadReplay (p : Fin 16)
  | frame (p : Fin 16) (data : Option (List Byte))
  | scrubWalkRead (n : Fin 64) (w : WordLoc)
  | scrubPassRequest (p : Fin 16)
  | scrubPassStart
  | scrubPassComplete
  | upset (n : Fin 64) (w : WordLoc) (fetch : Bool)
  | upsetRewrite (n : Fin 64) (w : WordLoc)
  -- lanes and links (R224 to R254)
  | laneGroupEnable (g : Fin 16)
  | laneGroupDisable (g : Fin 16)
  | laneTestRequest (g : Fin 16)
  | markerSend (g : Fin 16)
  | marker (g : Fin 16) (l : Fin 8) (bits : BitVec 320) (ui : Nat)
  | acqTimeout (g : Fin 16)
  | laneLoss (g : Fin 16) (l : Fin 8)
  | codeword (g : Fin 16) (l : Fin 8) (data check : List (Fin 1024))
  | slotFrame (g : Fin 16) (k : Nat) (fields : SlotBits)
  | linkFlit (g : Fin 16) (bits : BitVec 320) (bad : Bool)
  | credit (g : Fin 16) (vc : Fin 4) (count : Nat) (intact : Bool)
  | injGo (g : Fin 16)
  | lgrpClrCounts (g : Fin 16)
  | clrSlack (g : Fin 16)
  | bridgeLaneEnable (g : Fin 16) (l : Fin 8) (tx rx : Bool)
  | bridgeWordReceive (g : Fin 16) (l : Fin 8) (w : W64)
  | bridgeWordTransmit (g : Fin 16) (l : Fin 8)
  -- packet network (R255 to R280)
  | packetHop (x : Fin 8) (y : Fin 10) (ins : List (Fin 9 × Fin 4 × Flit))
  | rd (k : Packet)
  | wr (k : Packet)
  | qwr (k : Packet)
  | qrd (k : Packet)
  | capWr (k : Packet)
  | trcWr (k : Packet)
  | rspData (k : Packet)
  | rspAck (k : Packet)
  | rspTimeout (src : Fin 256) (tag : Fin 4096)
  | tagQuarantineEnd (src : Fin 256) (tag : Fin 4096)
  | routeTableWrite (port : Fin 256) (idx : Fin 256) (entry : W64)
  | drain (n : Fin 64)
  | drainComplete (n : Fin 64)
  | drainTimeout (n : Fin 64)
  | unfence (n : Fin 64)
  | nocClrCounts
  -- queues, dispatcher and couriers (R281 to R310)
  | txpCopyFill (n : Fin 64) (x : Fin 8)
  | txpCreditRenew (n : Fin 64) (x : Fin 8)
  | doorbellAppend (fn : Fn) (slot : Fin 8192) (fin fence : Bool) (w : W64)
  | doorbellAppendMulti (fn : Fn) (slot : Fin 8192) (ws : Words)
  | pop (fn : Fn) (slot : Fin 8192)
  | popWaitExpire (fn : Fn) (slot : Fin 8192)
  | bar4AccessError (fn : Fn) (off : Nat) (write : Bool)
  | qwrHoldExpire (q : Fin 8192)
  | qrdHoldExpire (q : Fin 8192)
  | flush (fn : Fn) (q : Fin 8192)
  | dropHead (fn : Fn) (q : Fin 8192)
  | clrHwm (fn : Fn) (q : Fin 8192)
  | queueEnable (fn : Fn) (q : Fin 8192)
  | queueDisable (fn : Fn) (q : Fin 8192)
  | submit (fn : Fn)
  | submitHoldExpire (list : Fin 17)
  | courierDispatch (c : Fin 32) (data : List Byte)
  | workItemComplete (c : Fin 32)
  | courierWaitLimit (c : Fin 32)
  | dspClr
  -- trigger, capture and trace (R311 to R354)
  | triggerLevelTimeout
  | arm
  | disarm
  | trigPinEdge (j : Fin 8) (rising : Bool)
  | pinPulseEnd (j : Fin 8)
  | captureArm (c : Fin 17)
  | captureDisarm (c : Fin 17)
  | captureBlockWrite (ch : Fin 64) (addr : Nat)
  | postLimitExpire (ch : Fin 64)
  | rearmExpire (c : Fin 17)
  | channelOwnerWrite (ch : Fin 64) (owner : Fin 32)
  | zeroingComplete (ch : Fin 64)
  | pinwheelConfigWrite (size : Bool) (v : W64)
  | traceStreamEnable (s : Fin 17)
  | traceCounterLimit (s : Fin 17)
  | mark (s : Fin 17) (v : BitVec 16)
  | traceBlockTimeout (s : Fin 17)
  | traceSyncTimer (s : Fin 17)
  | tokenChallenge (tag : Byte)
  | tokenPresent (tag : Byte) (token : Words)
  | tokenRevoke (tag : Byte)
  | tokenExpire
  | authDisable
  -- memory encryption (R355 to R376)
  | roll
  | keyRollStart
  | keyRollSector
  | imeClrCounts
  -- power, clocks and reset (R377 to R393)
  | vauxUp
  | vauxLoss
  | vin48Up
  | vin48Loss
  | perstAssert
  | perstDeassert
  | startup (refclk : Bool) (healthOk : Bool)
  | device
  | flrPf
  | flrVf (p : Fin 16)
  | functionResetComplete (fn : Fn)
  | ptnReset (mask : BitVec 16)
  | partitionResetComplete (p : Fin 16)
  | vfEnableClear
  | clusterWake (ns : List (Fin 64))
  | clusterIdleDelay (p : Fin 16)
  | clusterOffDelay (n : Fin 64)
  | clusterPowerOn (n : Fin 64)
  | corePllLockLost
  | wakeSource (src : Fin 10)
  | heartbeat (v : W32)
  | heartbeatTimeout
  | graceTimeout
  | overTemperature (q : Fin 5) (celsius : Byte)
  | railFault
  | wardenStop
  | stopDrainTimeout
  | stopComplete
  -- String ring (R394 to R400)
  | stringJoin
  | stringOpen
  | stringLeave
  | discover
  | collect (src : Fin 512) (ttl : Nat) (map : BitVec 512) (mark : RingMark)
  | assign (src : Fin 512) (ttl : Nat) (map : BitVec 512) (mark : RingMark)
  | stringBeacon (src : Fin 512) (ttl : Nat) (ns : W64) (frac : BitVec 16) (mark : RingMark)
  | stringFreeze (src : Fin 512) (seq : Byte) (ttl : Nat) (tail : FreezeTail)
  | stringStrobe (src : Fin 512) (seq : Byte) (ttl : Nat) (crc : W32)
  | resetReq (src : Fin 512) (seq : Byte) (dest : Fin 512) (ttl : Nat) (crc : W32)
  | msg (src dest : Fin 512) (ttl : Nat) (cfg : List (Fin 16 × W32)) (mark : RingMark)
  | resetReqSend
  | stringBroken
  -- log, maintenance, counters, interrupts, host windows (R401 to R434)
  | logClear
  | lastGaspClear
  | mntRelease (code : Fin 8) (owner : Fin 17) (inst : Fin 64)
  | mbistGo (n : Fin 64)
  | mbistComplete (n : Fin 64) (failed : Option (BitVec 64))
  | clearAll
  | counterSaturate (base : Nat) (k : Fin 64)
  | irqStatClear (base : Nat) (v : W32)
  | irqForce (base : Nat) (v : W32)
  | msixUnmask (fn : Fn) (v : Fin 32)
  | bar2Read (fn : Fn) (off : Nat) (len : Nat)
  | bar2Write (fn : Fn) (off : Nat) (bytes : List Byte)
  | captureWindowRead (p : Fin 16) (off : Nat) (len : Nat)
  | boundaryScanExtest (on : Bool)
  | ownerBurnComplete (fault : Bool)
  | prbsCheck (g : Fin 16) (l : Fin 8) (bits : List Bool)
  | laneClockRecovered (g : Fin 16) (l : Fin 8)
  | vfEnableSet (num : Fin 17)
  | stringFrameRepeat
  | stringBeaconSend
deriving DecidableEq, Repr

end Sys2Proof
end

