-- ==== Sys2Proof/Machine/Bits.lean ====
section
/-! DEFINITION. The check codes of the manual: extended Hamming SECDED (R46, R77, R266), parity (R122), the cyclic redundancy codes
(R185, R207, R230, R242), Reed-Solomon decoding (R227), and byte lists. -/

namespace Sys2Proof.Machine

/-- XOR of the low `n` bits of `v`. -/
def xorBits (v : Nat) : Nat → Bool
  | 0 => false
  | n + 1 => xor (v.testBit n) (xorBits v n)

/-- Whether `n` is a power of two. -/
def isPow2 (n : Nat) : Bool := n ≠ 0 && n &&& (n - 1) == 0

/-- Codeword positions of the data bits, in increasing order, from `pos` on (R46). -/
def dataPositions : Nat → Nat → List Nat
  | 0, _ => []
  | fuel + 1, pos => if isPow2 pos then dataPositions fuel (pos + 1) else pos :: dataPositions fuel (pos + 1)

/-- XOR of the positions of the data bits that are 1: check bits c0 upwards as a number (R46). -/
def hammingSum (v : Nat) : List Nat → Nat → Nat
  | [], _ => 0
  | p :: ps, i => (if v.testBit i then p else 0) ^^^ hammingSum v ps (i + 1)

/-- The check byte over `w` data bits: c0 to c6 and, in bit 7, the overall parity (R46, R77, R133). -/
def secdedByte (w v : Nat) : Nat :=
  let c := hammingSum v (dataPositions (w + 7) 3) 0
  c ||| (if xor (xorBits v w) (xorBits c 7) then 128 else 0)

/-- What a SECDED check finds (R47). -/
inductive Checked
  | ok
  | ce (data : Nat) (syndrome : Nat)
  | ue (syndrome : Nat)
deriving DecidableEq, Repr

/-- Index in `ps` of position `p`. -/
def posIndex (p : Nat) : List Nat → Nat → Option Nat
  | [], _ => none
  | q :: ps, i => if q = p then some i else posIndex p ps (i + 1)

/-- The check of R47 on a stored word; `last` is the highest codeword position (87 or 103). -/
def secdedCheck (w last v chk : Nat) : Checked :=
  let ps := dataPositions (w + 7) 3
  let syn := (chk % 128) ^^^ hammingSum v ps 0
  let bad := xor (xorBits v w) (xorBits chk 8)
  let s8 := syn ||| (if bad then 128 else 0)
  if syn = 0 then (if bad then .ce v s8 else .ok)
  else if bad && syn ≤ last then
    match posIndex syn ps 0 with
    | some i => .ce (v ^^^ (1 <<< i)) s8
    | none => .ce v s8
  else .ue s8

/-- The nine header check bits over header bits [246:0] (R266). -/
def headerCheck (v : Nat) : Nat :=
  let c := hammingSum v (dataPositions 253 3) 0
  c ||| (if xor (xorBits v 247) (xorBits c 8) then 256 else 0)

/-- The header check of R266. -/
def headerSecded (hdr : Nat) : Checked :=
  let v := hdr % 2 ^ 247
  let chk := hdr >>> 247
  let ps := dataPositions 253 3
  let syn := (chk % 256) ^^^ hammingSum v ps 0
  let bad := xor (xorBits v 247) (xorBits chk 9)
  if syn = 0 then (if bad then .ce v 0 else .ok)
  else if bad then
    match posIndex syn ps 0 with
    | some i => .ce (v ^^^ (1 <<< i)) syn
    | none => .ce v syn
  else .ue syn

/-- The ten check bits over the 256 data bits of a flit (R267). -/
def flitCheck (v : Nat) : Nat :=
  let c := hammingSum v (dataPositions 263 3) 0
  c ||| (if xor (xorBits v 256) (xorBits c 9) then 512 else 0)

/-- The check of a data flit: codeword positions 1 to 265 (R267). -/
def flitSecded (v chk : Nat) : Checked :=
  let ps := dataPositions 263 3
  let syn := (chk % 512) ^^^ hammingSum v ps 0
  let bad := xor (xorBits v 256) (xorBits chk 10)
  if syn = 0 then (if bad then .ce v 0 else .ok)
  else if bad && syn ≤ 265 then
    match posIndex syn ps 0 with
    | some i => .ce (v ^^^ (1 <<< i)) syn
    | none => .ce v syn
  else .ue syn

/-- One bit of a CRC taken most significant bit first, of width `w` and polynomial `poly`. -/
def crcBit (w poly crc : Nat) (b : Bool) : Nat :=
  let top := xor (crc.testBit (w - 1)) b
  ((crc * 2) % 2 ^ w) ^^^ (if top then poly else 0)

/-- A CRC over a list of bits, first bit first. -/
def crcBits (w poly : Nat) : Nat → List Bool → Nat
  | crc, [] => crc
  | crc, b :: bs => crcBits w poly (crcBit w poly crc b) bs

/-- Bits `n - 1` down to 0 of `v`. -/
def bitsMsb (v : Nat) : Nat → List Bool
  | 0 => []
  | n + 1 => v.testBit n :: bitsMsb v n

/-- Bits 0 up to `n - 1` of `v`. -/
def bitsLsb (v n : Nat) : List Bool := (List.range n).map v.testBit

/-- One byte of a reflected CRC-32. -/
def crc32cByte (crc : Nat) (b : Nat) : Nat :=
  let step (c : Nat) : Nat := if c % 2 = 1 then (c / 2) ^^^ 0x82F63B78 else c / 2
  step (step (step (step (step (step (step (step (crc ^^^ b))))))))

/-- CRC-32C over bytes (R207). -/
def crc32c (bs : List Byte) : Nat := bs.foldl (fun c b => crc32cByte c b.toNat) 0xFFFFFFFF ^^^ 0xFFFFFFFF

/-- CRC-16 of an alignment marker over its bits [303:0], sent from bit 0 (R230). -/
def markerCrc (bits : Nat) : Nat := crcBits 16 0x1021 0xFFFF (bitsLsb bits 304)

/-- CRC-8 of a control message over bits [95:0] (R242). -/
def controlCrc (bits : Nat) : Nat := crcBits 8 0x07 0 (bitsLsb bits 96)

/-- One bit of the lockstep signature (R185). -/
def sigBit (crc : Nat) (b : Bool) : Nat := crcBit 64 0x42F0E1EBA9EA3693 crc b

/-- Product in GF(2^10) with polynomial x^10 + x^3 + 1 (R227). -/
def gfMulAux : Nat → Nat → Nat → Nat
  | 0, _, _ => 0
  | n + 1, a, b =>
    let a2 := if (a * 2).testBit 10 then (a * 2) ^^^ 0x409 else a * 2
    (if b % 2 = 1 then a else 0) ^^^ gfMulAux n a2 (b / 2)

/-- Product of two field elements. -/
def gfMul (a b : Nat) : Nat := gfMulAux 10 a b

/-- α to the power `n`. -/
def gfPow : Nat → Nat
  | 0 => 1
  | n + 1 => gfMul (gfPow n) 2

/-- Syndrome `k` of a received codeword whose first symbol is that of the highest power (Horner). -/
def rsSyndrome (k : Nat) (cw : List Nat) : Nat :=
  let x := gfPow k
  cw.foldl (fun acc s => gfMul acc x ^^^ s) 0

/-- `x` times itself `n` times over, by squaring: the inverse of an element is its power 1022. -/
def gfInv (a : Nat) : Nat := (List.range 9).foldl (fun (acc : Nat × Nat) _ => let sq := gfMul acc.2 acc.2; (gfMul acc.1 sq, sq)) (1, a) |>.1

/-- A polynomial, highest coefficient first, times (x + r). -/
def gfTimesRoot (poly : List Nat) (r : Nat) : List Nat := List.zipWith (· ^^^ ·) (poly ++ [0]) (0 :: poly.map (gfMul r))

/-- The coefficients of the generator polynomial below x^4, highest first: its roots are α^0 to α^3 (R227). -/
def rsGenerator : List Nat := ((List.range 4).foldl (fun g i => gfTimesRoot g (gfPow i)) [1]).drop 1

/-- The four parity symbols of a codeword's data: what is left of data times x^4 by the generator (R227). -/
def rsParity (data : List Nat) : List Nat :=
  data.foldl (fun reg s => List.zipWith (· ^^^ ·) (reg.drop 1 ++ [0]) (rsGenerator.map (gfMul (s ^^^ reg.headD 0)))) [0, 0, 0, 0]

/-- A codeword: data symbols, then parity (R227). -/
def rsEncode (data : List Nat) : List Nat := data ++ rsParity data

/-- What decoding a codeword gives: the number of symbols corrected, or none where it cannot be corrected. -/
inductive RsResult
  | clean
  | corrected (symbols : Nat)
  | bad
deriving DecidableEq, Repr

/-- Whether one error of value S0 at position `i` explains all four syndromes. -/
def rsSingle (s0 s1 s2 s3 : Nat) (i : Nat) : Bool :=
  let x := gfPow i
  let a := gfMul s0 x
  let b := gfMul a x
  a == s1 && b == s2 && gfMul b x == s3

/-- Whether errors at exactly positions `i` and `j` explain the syndromes: the locator (x + Xi)(x + Xj) must annihilate them. -/
def rsDouble (s0 s1 s2 s3 : Nat) (i j : Nat) : Bool :=
  let xi := gfPow i
  let xj := gfPow j
  let t := xi ^^^ xj
  let p := gfMul xi xj
  s2 == gfMul t s1 ^^^ gfMul p s0 && s3 == gfMul t s2 ^^^ gfMul p s1

/-- Decoding of RS(136,132): up to 2 wrong symbols are corrected (R227). Two errors of values e and f at X and Y have
S0 S2 + S1² = e f (X + Y)², which is not 0. -/
def rsDecode (cw : List Nat) : RsResult :=
  let s0 := rsSyndrome 0 cw
  let s1 := rsSyndrome 1 cw
  let s2 := rsSyndrome 2 cw
  let s3 := rsSyndrome 3 cw
  if s0 = 0 ∧ s1 = 0 ∧ s2 = 0 ∧ s3 = 0 then .clean
  else if (List.range 136).any (rsSingle s0 s1 s2 s3) then .corrected 1
  else if gfMul s0 s2 == gfMul s1 s1 then .bad
  else if (List.range 136).any (fun j => (List.range j).any (fun i => rsDouble s0 s1 s2 s3 i j)) then .corrected 2
  else .bad

/-- The codeword with value `e` added to its symbol of power `i`. -/
def rsFix (cw : List Nat) (i e : Nat) : List Nat := cw.modify (cw.length - 1 - i) (· ^^^ e)

/-- The codeword as decoding corrects it (R227); as it came where it is clean or cannot be corrected. Errors at X and Y have the values
(S1 + Y S0) / (X + Y) and S0 + that. -/
def rsCorrect (cw : List Nat) : List Nat :=
  let s0 := rsSyndrome 0 cw
  let s1 := rsSyndrome 1 cw
  let s2 := rsSyndrome 2 cw
  let s3 := rsSyndrome 3 cw
  match rsDecode cw with
  | .corrected 1 => match (List.range 136).find? (rsSingle s0 s1 s2 s3) with | some i => rsFix cw i s0 | none => cw
  | .corrected _ =>
    match ((List.range 136).flatMap fun j => (List.range j).map fun i => (i, j)).find? fun p => rsDouble s0 s1 s2 s3 p.1 p.2 with
    | some (i, j) =>
      let e := gfMul (s1 ^^^ gfMul (gfPow j) s0) (gfInv (gfPow i ^^^ gfPow j))
      rsFix (rsFix cw i e) j (s0 ^^^ e)
    | none => cw
  | _ => cw

/-- `n` bytes of `v`, least significant first (R5). -/
def leBytes (n v : Nat) : List Byte := (List.range n).map (fun i => BitVec.ofNat 8 (v >>> (8 * i)))

/-- The number whose bytes, least significant first, are `bs` (R5). -/
def leNat : List Byte → Nat
  | [] => 0
  | b :: bs => b.toNat + 256 * leNat bs

/-- The number whose bytes, most significant first, are `bs`. -/
def beNat (bs : List Byte) : Nat := bs.foldl (fun a b => a * 256 + b.toNat) 0

/-- Bytes `off` to `off + n - 1` of `bs`, zero beyond its end, read little-endian. -/
def leAt (bs : List Byte) (off n : Nat) : Nat := leNat ((bs.drop off).take n)

end Sys2Proof.Machine
end

