-- ==== Sys2Proof/Machine/Crypto.lean ====
section
/-! DEFINITION. SHA-384 and the check of an ECDSA signature over P-384, as FIPS 180-4 and FIPS 186-5 define them (R198, R350, R351). -/

namespace Sys2Proof.Machine

/-- The integer part of the `k`-th root of `x`, found from bit `n - 1` down: `acc` holds the bits found so far. -/
def rootBits (k x : Nat) : Nat → Nat → Nat
  | 0, acc => acc
  | n + 1, acc => rootBits k x n (if (acc + 2 ^ n) ^ k ≤ x then acc + 2 ^ n else acc)

/-- The primes below 410, of which there are 80. -/
def smallPrimes : List Nat := (List.range 410).filter fun n => 2 ≤ n && (List.range 21).all fun m => m < 2 || n ≤ m || n % m ≠ 0

/-- The first 64 bits of the fraction of the `k`-th root of `p`, which is below 32. -/
def rootFraction (k p : Nat) : W64 := BitVec.ofNat 64 (rootBits k (p * 2 ^ (64 * k)) 69 0)

/-- The round constants: from the cube roots of the first 80 primes. -/
def shaRounds : List W64 := smallPrimes.map (rootFraction 3)
/-- The initial hash of SHA-384: from the square roots of the 9th to 16th primes. -/
def shaStart : List W64 := ((smallPrimes.drop 8).take 8).map (rootFraction 2)

/-- The XOR of a word's rotations to the right by each of some amounts. -/
def rotations (amounts : List Nat) (x : W64) : W64 := amounts.foldl (fun acc k => acc ^^^ x.rotateRight k) 0

/-- A block's 16 message words extended to `16 + count`: `w` is what stands so far, last word first. -/
def shaExtend : Nat → List W64 → List W64
  | 0, w => w
  | count + 1, w =>
    let back (k : Nat) : W64 := w.getD (k - 1) 0
    let low := rotations [1, 8] (back 15) ^^^ back 15 >>> 7
    let high := rotations [19, 61] (back 2) ^^^ back 2 >>> 6
    shaExtend count ((back 16 + low + back 7 + high) :: w)

/-- One round over the eight working words. -/
def shaTurn (v : List W64) (add : W64) : List W64 :=
  match v with
  | [a, b, c, d, e, f, g, h] =>
    let choice := g ^^^ (e &&& (f ^^^ g))
    let most := (a &&& (b ||| c)) ||| (b &&& c)
    let front := rotations [14, 18, 41] e + choice + h + add
    [front + rotations [28, 34, 39] a + most, a, b, c, front + d, e, f, g]
  | other => other

/-- The hash so far with one block of 128 bytes taken in. -/
def shaBlock (h : List W64) (block : List Byte) : List W64 :=
  let words := (List.range 16).map fun i => BitVec.ofNat 64 (beNat ((block.drop (8 * i)).take 8))
  let schedule := (shaExtend 64 words.reverse).reverse
  List.zipWith (· + ·) h ((List.zipWith (· + ·) shaRounds schedule).foldl shaTurn h)

/-- The hash over `blocks` blocks of padded bytes. -/
def shaBlocks : Nat → List W64 → List Byte → List W64
  | 0, h, _ => h
  | blocks + 1, h, bs => shaBlocks blocks (shaBlock h (bs.take 128)) (bs.drop 128)

/-- A message with its padding: a 1 bit, zeros, and its length in bits in 16 bytes. -/
def shaPad (m : List Byte) : List Byte :=
  m ++ [0x80] ++ List.replicate ((239 - m.length % 128) % 128) 0 ++ (leBytes 16 (8 * m.length)).reverse

/-- SHA-384: 48 bytes. -/
def sha384 (m : List Byte) : List Byte :=
  let p := shaPad m
  ((shaBlocks (p.length / 128) shaStart p).take 6).flatMap fun w => (leBytes 8 w.toNat).reverse

/-- The prime field of P-384. -/
def p384 : Nat := 0xfffffffffffffffffffffffffffffffffffffffffffffffffffffffffffffffeffffffff0000000000000000ffffffff
/-- The order of the base point of P-384. -/
def n384 : Nat := 0xffffffffffffffffffffffffffffffffffffffffffffffffc7634d81f4372ddf581a0db248b0a77aecec196accc52973
/-- The coefficient b of P-384. -/
def b384 : Nat := 0xb3312fa7e23ee7e4988e056be3f82d19181d9c6efe8141120314088f5013875ac656398d8a2ed19d2a85c8edd3ec2aef
/-- The base point of P-384. -/
def gx384 : Nat := 0xaa87ca22be8b05378eb1c71ef320ad746e1d3b628ba79b9859f741e082542a385502f25dbf55296c3a545e3872760ab7
def gy384 : Nat := 0x3617de4a96262c6f5d9e98bf9292dc29f8f41dbd289a147ce9da3113b5f0b8c00a60b1ce1d7e819d7a431d7c90ea0e5f

/-- `x` to the power of the low `fuel` bits of `e`, modulo `m`. -/
def powMod (m : Nat) : Nat → Nat → Nat → Nat
  | 0, _, _ => 1
  | fuel + 1, x, e => (if e % 2 = 1 then x else 1) * powMod m fuel (x * x % m) (e / 2) % m

/-- The inverse modulo a prime. -/
def invMod (m x : Nat) : Nat := powMod m 384 (x % m) (m - 2)

/-- The sum of two points of the curve; none is the point at infinity. -/
def pointAdd (p q : Option (Nat × Nat)) : Option (Nat × Nat) :=
  match p, q with
  | none, q => q
  | p, none => p
  | some (x1, y1), some (x2, y2) =>
    let slope := if x1 = x2 then (3 * x1 * x1 + (p384 - 3)) * invMod p384 (2 * y1) else (y2 + p384 - y1) * invMod p384 (x2 + p384 - x1)
    if x1 = x2 ∧ (y1 + y2) % p384 = 0 then none
    else
      let s := slope % p384
      let x := (s * s + 2 * p384 - x1 - x2) % p384
      some (x, (s * (x1 + p384 - x) + p384 - y1) % p384)

/-- A multiple of a point, over the low `fuel` bits of `k`. -/
def pointMul : Nat → Nat → Option (Nat × Nat) → Option (Nat × Nat)
  | 0, _, _ => none
  | fuel + 1, k, q => pointAdd (if k % 2 = 1 then q else none) (pointMul fuel (k / 2) (pointAdd q q))

/-- Whether a signature verifies: `key` X then Y, `sig` r then s, 48 bytes each, most significant first, over SHA-384 of `m`. -/
def ecdsaVerify (key sig m : List Byte) : Bool :=
  let x := beNat (key.take 48)
  let y := beNat (key.drop 48)
  let r := beNat (sig.take 48)
  let s := beNat (sig.drop 48)
  let onCurve := x < p384 && y < p384 && y * y % p384 == (x * x % p384 * x + (p384 - 3) * x + b384) % p384
  if onCurve && 1 ≤ r && r < n384 && 1 ≤ s && s < n384 then
    let w := invMod n384 s
    let u1 := beNat (sha384 m) * w % n384
    let u2 := r * w % n384
    match pointAdd (pointMul 384 u1 (some (gx384, gy384))) (pointMul 384 u2 (some (x, y))) with
    | none => false
    | some q => q.1 % n384 == r
  else false

end Sys2Proof.Machine
end

