-- ==== Sys2Proof/Config.lean ====
section
/-! DEFINITION. What an implementation or Stage firmware fixes and the spec leaves open: opaque constants, so that no proof can
see their values. -/

namespace Sys2Proof.Config

/-- A bit the spec calls undefined (R35, R36, R117, R152): the `k`-th bit of generation `gen`. Free. -/
opaque freeBit : Nat → Nat → Bool
/-- A word the spec calls undefined (R64, R117, R152): the `k`-th word of generation `gen`. Free. -/
opaque freeWord : Nat → Nat → BitVec 32
/-- A number from the on-die true random generator (R351, R365). Free. -/
opaque random : Nat → BitVec 256
/-- What a running Puppeteer core does in a step that trace records (R337): nothing, a branch (0), an exception (1) or a return (2). Free: the
firmware is no part of the manual. -/
opaque pupFlow : Nat → Nat → Option (Fin 3)
/-- The metadata line a full cache gives up (R364 names no rule). Free. -/
opaque cacheVictim : Nat → Nat
/-- Where Stage places a quota of the given size in MiB when several free ranges exist (R164): a MiB index. Free. -/
opaque quotaPlace : Nat → Nat → Nat
/-- What one link of the partition tables gives (R173, R174): lane group, budget and slot entries by step index. -/
structure LinkTable where
  group  : Nat
  budget : Nat
  slots  : List (Nat × BitVec 32)
deriving DecidableEq, Repr, Inhabited

/-- One listed compare tap (R185): cluster, tile, unit (BP 0 to 63, WALU 64 and 65), step. -/
structure CompareTap where
  cluster : Nat
  tile    : Nat
  unit    : Nat
  step    : Nat
deriving DecidableEq, Repr, Inhabited

/-- What the partition tables carry (R208). Offsets are from the quota base; `cfg` holds the cluster page values that Stage writes
from them, as (cluster index, page offset, value). -/
structure Tables where
  clusters : Nat
  fused    : Nat
  regions  : List (Nat × Nat)
  snapOff  : Nat
  snapSize : Nat
  imgOff   : Nat
  imgSize  : Nat
  linked   : Bool
  horizon  : Nat
  lead     : Bool
  links    : List LinkTable
  compare  : List CompareTap
  cfg      : List (Nat × Nat × Nat)
deriving DecidableEq, Repr, Inhabited

/-- What Stage's reading of a table stream gives (R208, R213); an incomplete stream may already say where the image area lies. -/
inductive TableCheck
  | incomplete (imgOff imgSize : Nat)
  | bad
  | good (t : Tables)
deriving DecidableEq, Repr, Inhabited

/-- Stage's check of the table stream, whose byte layout is a compiler format (R208). Free. -/
opaque checkTables : List (Nat × Byte) → TableCheck
/-- The route entries of the hub block tables of a bundle (R262, R257), by port and destination. Free. -/
opaque hubRoute : Nat → Nat → Nat → BitVec 64
/-- Column, row parity and local port of a hub endpoint in rows 8 and 9, which the hub block tables fix (R257). Free. -/
opaque hubAt : Nat → Nat × Nat × Nat
/-- How many 32-byte flits a read request asks for: R259 names no field that says it. Free. -/
opaque readFlits : Nat → Nat
/-- Which of queues 4 to 15 Stage enables and at what DEPTH (R298). Free. -/
opaque stageQueue : Nat → Option (Fin 11)
/-- UID of the module (R434, from the fuses). -/
opaque uid : BitVec 64
/-- Hash of the vendor's root key, burned at manufacture (R205). -/
opaque rootHash : BitVec 384
/-- Age of a time beacon that came over the String ring, in units of 2^-16 ns, by its remaining TTL: R191 gives the ring no measured
latency. Free. -/
opaque ringDelay : Nat → Nat

/-- What a sensor of the device shows at a time: VIN (0) and the stack temperatures, by page base (R398, R434). Free. -/
opaque reading : Nat → Nat → Nat
/-- What the endpoint and its link partner agree on when the link trains (R418). Free; see `Dev.trainPcie`. -/
opaque pcieTraining : Nat → Nat
/-- How many correctable errors the PCIe link has had when it has trained (R434), and the host's choice of a BAR2 size (R420, R422). Free. -/
opaque linkErrors : Nat → Nat
opaque barChoice : Nat → Nat
/-- The instruction that bits shifted into the scan port's instruction register select, the length of that register, and what its capture gives; the
levels the boundary cells find at the pins (R440). The manual prints none of them. Free. -/
opaque tapDecode : List Bool → Nat
opaque irCapture : List Bool
opaque pinLevels : Nat → List Bool
/-- The vendor's number at the PCI-SIG, its JEDEC code, and the silicon revision (R419, R440), which the manual does not print. -/
opaque vendorId : BitVec 16
opaque jedecCode : BitVec 11
opaque revisionId : BitVec 8

/-- How many data bits of a lane come before the first frame after deskew: R229 relates frames to nothing the receiver sees. Free. -/
opaque frameStart : Nat → Nat
/-- How many fields of the slot frame sent at an executed step its slots take: the receiver's tables give the receive entry only (R173). Free. -/
opaque slotFields : Nat → Nat → Nat
/-- Whether a slot carries a word, by image, lane group, step index and receive plane: the mark does not travel in the slot's field (R173), and
the personalities fix it. Free. -/
opaque slotIsWord : Nat → Nat → Nat → Nat → Bool
/-- What a slot field carries whose plane is idle or undefined, by image, executed step and plane. Free. -/
opaque slotFill : Nat → Nat → Nat → BitVec 32
/-- What the lead of a linked partition learns of the checks of START on the other devices: the CMD_ERR code of the first that fails, else any
other number. R175 gives no message for it. Free. -/
opaque farChecks : Nat → Nat
/-- The master a BEACON message names: R242's body has no place for its number. Free. -/
opaque beaconMaster : Nat → Nat
/-- The credits a link gives for a virtual channel when it comes UP (R180, R242). Free. -/
opaque linkBuffers : Nat → Nat → Nat
/-- The outstanding-request limit N that Stage declares for the peer connection with a device (R180). Free; it acts as 1 to 256. -/
opaque peerLimit : Nat → Nat
/-- The data bits of a lane that runs AL1, whose framing the manual does not give (R244). Free. -/
opaque al1Bit : Nat → Nat → Bool

end Sys2Proof.Config
end

