-- ==== Sys2Proof/Machine/Map.lean ====
section
/-! DEFINITION. Sparse stores: a list of (index, value) pairs with strictly rising indexes in which no entry equals what an
unlisted index reads as, so that equal stores are equal lists. -/

namespace Sys2Proof.Machine

/-- A sparse store. -/
abbrev SMap (α : Type) := List (Nat × α)

namespace SMap
variable {α : Type}

/-- The entry listed at `k`, if one is. -/
def get? : SMap α → Nat → Option α
  | [], _ => none
  | e :: m, k => if e.1 = k then some e.2 else get? m k

/-- The entry at `k`, where an unlisted index reads as `dflt`. -/
def get (dflt : α) (m : SMap α) (k : Nat) : α := (get? m k).getD dflt

/-- `m` with the entry at `k` listed as `v`. -/
def put : SMap α → Nat → α → SMap α
  | [], k, v => [(k, v)]
  | e :: m, k, v => if e.1 = k then (k, v) :: m else if k < e.1 then (k, v) :: e :: m else e :: put m k v

/-- `m` without an entry at `k`. -/
def del (m : SMap α) (k : Nat) : SMap α := m.filter (fun e => e.1 != k)

/-- `m` with `k` reading as `v`, where an unlisted index reads as `dflt`. -/
def set [DecidableEq α] (dflt : α) (m : SMap α) (k : Nat) (v : α) : SMap α :=
  if v = dflt then del m k else put m k v

/-- `m` with every index from `lo` up to, not including, `hi` unlisted. -/
def delRange (m : SMap α) (lo hi : Nat) : SMap α := m.filter (fun e => e.1 < lo || hi ≤ e.1)

/-- The listed part of `m` from `lo` up to, not including, `hi`. -/
def range (m : SMap α) (lo hi : Nat) : SMap α := m.filter (fun e => lo ≤ e.1 && e.1 < hi)

/-- Every listed index lies above `k`, and the indexes rise strictly. -/
def risingFrom : SMap α → Nat → Bool
  | [], _ => true
  | e :: m, k => k ≤ e.1 && risingFrom m (e.1 + 1)

/-- The canonical form of a store whose unlisted indexes read as `dflt`. -/
def wf [DecidableEq α] (dflt : α) (m : SMap α) : Bool := risingFrom m 0 && m.all (fun e => e.2 != dflt)

end SMap
end Sys2Proof.Machine
end

