-- ==== Sys2Proof/Machine/Fld.lean ====
section
/-! DEFINITION. One field of a register page: its place, its access type and its Reset column (R7, R8). -/

namespace Sys2Proof.Machine

/-- The access types of R7. -/
inductive Acc | ro | rw | rw1c | wo
deriving DecidableEq, Repr

/-- A field of a page: byte offset of its register, first bit, width in bits, access and Reset value. A register wider than 32
bits (a pair under R9) is one field. -/
structure Fld where
  off : Nat
  lo  : Nat
  w   : Nat
  acc : Acc
  rst : Nat
deriving DecidableEq, Repr

/-- The bit address of a field within its page: the key under which the register file holds it. -/
def Fld.bit (f : Fld) : Nat := 8 * f.off + f.lo

end Sys2Proof.Machine
end

