-- ==== Sys2Proof/Machine/Regs.lean ====
section
/-! DEFINITION. The register fields of every page, each under the manual's own names (PAGE, REGISTER, FIELD), transcribed from
the register tables of spec/. Offsets are within the 4 KiB page; the last number is the Reset column. A field wider than 32 bits is a register pair
under R9 and stands here as ONE field. -/

namespace Sys2Proof.Machine

/-- R50. -/
def CLU_BPI_CE_COUNT_COUNT : Fld := ⟨0x200, 0, 32, .ro, 0⟩
/-- R51. -/
def CLU_BPI_UE_COUNT_COUNT : Fld := ⟨0x204, 0, 32, .ro, 0⟩
/-- R52. -/
def CLU_BPI_ERR_LAST_ADDR : Fld := ⟨0x208, 0, 8, .ro, 0⟩
/-- R52. -/
def CLU_BPI_ERR_LAST_BP : Fld := ⟨0x208, 8, 6, .ro, 0⟩
/-- R52. -/
def CLU_BPI_ERR_LAST_TILE : Fld := ⟨0x208, 14, 5, .ro, 0⟩
/-- R52. -/
def CLU_BPI_ERR_LAST_UE : Fld := ⟨0x208, 19, 1, .ro, 0⟩
/-- R52. -/
def CLU_BPI_ERR_LAST_SYNDROME : Fld := ⟨0x208, 20, 8, .ro, 0⟩
/-- R52. -/
def CLU_BPI_ERR_LAST_OVERFLOW : Fld := ⟨0x208, 30, 1, .rw1c, 0⟩
/-- R52. -/
def CLU_BPI_ERR_LAST_VALID : Fld := ⟨0x208, 31, 1, .rw1c, 0⟩
/-- R53. -/
def CLU_BPI_ECC_CTRL_CLR_COUNTS : Fld := ⟨0x20c, 0, 1, .wo, 0⟩
/-- R79. -/
def CLU_WLI_CE_COUNT_COUNT : Fld := ⟨0x210, 0, 32, .ro, 0⟩
/-- R80. -/
def CLU_WLI_UE_COUNT_COUNT : Fld := ⟨0x214, 0, 32, .ro, 0⟩
/-- R81. -/
def CLU_WLI_ERR_LAST_ADDR : Fld := ⟨0x218, 0, 8, .ro, 0⟩
/-- R81. -/
def CLU_WLI_ERR_LAST_WALU : Fld := ⟨0x218, 8, 1, .ro, 0⟩
/-- R81. -/
def CLU_WLI_ERR_LAST_TILE : Fld := ⟨0x218, 9, 5, .ro, 0⟩
/-- R81. -/
def CLU_WLI_ERR_LAST_UE : Fld := ⟨0x218, 14, 1, .ro, 0⟩
/-- R81. -/
def CLU_WLI_ERR_LAST_SYNDROME : Fld := ⟨0x218, 15, 8, .ro, 0⟩
/-- R81. -/
def CLU_WLI_ERR_LAST_OVERFLOW : Fld := ⟨0x218, 30, 1, .rw1c, 0⟩
/-- R81. -/
def CLU_WLI_ERR_LAST_VALID : Fld := ⟨0x218, 31, 1, .rw1c, 0⟩
/-- R82. -/
def CLU_WLI_ECC_CTRL_CLR_COUNTS : Fld := ⟨0x21c, 0, 1, .wo, 0⟩
/-- R104. -/
def PTN_SEQ_CMD_CMD : Fld := ⟨0x100, 0, 4, .wo, 0⟩
/-- R105. -/
def PTN_SEQ_STATUS_STATE : Fld := ⟨0x104, 0, 3, .ro, 0⟩
/-- R105. -/
def PTN_SEQ_STATUS_STALLED : Fld := ⟨0x104, 3, 1, .ro, 0⟩
/-- R105. -/
def PTN_SEQ_STATUS_STALL_SRC : Fld := ⟨0x104, 4, 4, .ro, 0⟩
/-- R105. -/
def PTN_SEQ_STATUS_FREEZE_PENDING : Fld := ⟨0x104, 8, 1, .ro, 0⟩
/-- R105. -/
def PTN_SEQ_STATUS_LOADED : Fld := ⟨0x104, 9, 1, .ro, 0⟩
/-- R105. -/
def PTN_SEQ_STATUS_HOST_MODIFIED : Fld := ⟨0x104, 10, 1, .rw1c, 0⟩
/-- R105. -/
def PTN_SEQ_STATUS_CASCADE_LIMIT : Fld := ⟨0x104, 11, 1, .rw1c, 0⟩
/-- R105. -/
def PTN_SEQ_STATUS_ESCALATED : Fld := ⟨0x104, 12, 1, .rw1c, 0⟩
/-- R105. -/
def PTN_SEQ_STATUS_CMD_ERR : Fld := ⟨0x104, 16, 4, .ro, 0⟩
/-- R105. -/
def PTN_SEQ_STATUS_FREEZE_CAUSE : Fld := ⟨0x104, 20, 4, .ro, 0⟩
/-- R106. -/
def PTN_STEP_COUNT_COUNT : Fld := ⟨0x108, 0, 32, .rw, 1⟩
/-- R106. -/
def PTN_FREEZE_CFG_TRG_EN : Fld := ⟨0x10c, 0, 1, .rw, 1⟩
/-- R106. -/
def PTN_FREEZE_CFG_SYS_EN : Fld := ⟨0x10c, 1, 1, .rw, 1⟩
/-- R106. -/
def PTN_FREEZE_CFG_TIMEOUT : Fld := ⟨0x10c, 16, 16, .rw, 0⟩
/-- R106. -/
def PTN_SEQ_CFG_LINKED : Fld := ⟨0x110, 0, 1, .ro, 0⟩
/-- R106. -/
def PTN_SEQ_CFG_EXTENDED : Fld := ⟨0x110, 1, 1, .ro, 0⟩
/-- R106. -/
def PTN_POSITION_STEP : Fld := ⟨0x138, 0, 9, .ro, 0⟩
/-- R106. -/
def PTN_POSITION_EDGE_SET : Fld := ⟨0x138, 9, 5, .ro, 0⟩
/-- R106. -/
def PTN_POSITION_PASS : Fld := ⟨0x138, 14, 3, .ro, 0⟩
/-- R106. -/
def PTN_POSITION_IN_CYCLE : Fld := ⟨0x138, 17, 1, .ro, 0⟩
/-- R107. -/
def PTN_CYCLE_COUNT : Fld := ⟨0x118, 0, 64, .ro, 0⟩
/-- R107. -/
def PTN_ETIME_PS : Fld := ⟨0x120, 0, 64, .ro, 0⟩
/-- R107. -/
def PTN_RUN_LIMIT_LIMIT : Fld := ⟨0x128, 0, 64, .rw, 0⟩
/-- R107. -/
def PTN_STALL_STEPS_COUNT : Fld := ⟨0x130, 0, 64, .ro, 0⟩
/-- R109. -/
def PTN_SEG_START (i : Nat) : Fld := ⟨0x200 + 4 * i, 0, 9, .rw, 0⟩
/-- R109. -/
def PTN_SEG_LEN_M1 (i : Nat) : Fld := ⟨0x200 + 4 * i, 9, 9, .rw, 0⟩
/-- R109. -/
def PTN_SEG_EDGE_SET (i : Nat) : Fld := ⟨0x200 + 4 * i, 18, 5, .rw, 0⟩
/-- R109. -/
def PTN_SEG_VALID (i : Nat) : Fld := ⟨0x200 + 4 * i, 31, 1, .rw, 0⟩
/-- R110. -/
def PTN_ES_RISE (e : Nat) : Fld := ⟨0x300 + 8 * e, 0, 32, .rw, 0⟩
/-- R110. -/
def PTN_ES_FALL (e : Nat) : Fld := ⟨0x304 + 8 * e, 0, 32, .rw, 0⟩
/-- R111. -/
def PTN_CLK_PERIOD (i : Nat) : Fld := ⟨0x400 + 16 * i, 0, 32, .rw, 0⟩
/-- R111. -/
def PTN_CLK_PHASE (i : Nat) : Fld := ⟨0x404 + 16 * i, 0, 32, .rw, 0⟩
/-- R111. -/
def PTN_CLK_HIGH (i : Nat) : Fld := ⟨0x408 + 16 * i, 0, 32, .rw, 0⟩
/-- R111. -/
def PTN_CLK_TYPE (i : Nat) : Fld := ⟨0x40c + 16 * i, 0, 2, .rw, 0⟩
/-- R111. -/
def PTN_CLK_CLUSTER (i : Nat) : Fld := ⟨0x40c + 16 * i, 2, 6, .rw, 0⟩
/-- R111. -/
def PTN_CLK_TILE (i : Nat) : Fld := ⟨0x40c + 16 * i, 8, 5, .rw, 0⟩
/-- R111. -/
def PTN_CLK_ENTRY (i : Nat) : Fld := ⟨0x40c + 16 * i, 13, 10, .rw, 0⟩
/-- R121. -/
def CLU_MESH_TRANSIT_ROUTE (j : Nat) : Fld := ⟨0x230 + 4 * (j / 4), 8 * (j % 4) + 0, 4, .rw, 0⟩
/-- R121. -/
def CLU_MESH_TRANSIT_OWNER (j : Nat) : Fld := ⟨0x230 + 4 * (j / 4), 8 * (j % 4) + 4, 4, .rw, 0⟩
/-- R123. -/
def CLU_FAB_PAR_COUNT_COUNT : Fld := ⟨0x220, 0, 32, .ro, 0⟩
/-- R124. -/
def CLU_FAB_ERR_LAST_ADDR : Fld := ⟨0x224, 0, 8, .ro, 0⟩
/-- R124. -/
def CLU_FAB_ERR_LAST_TILE : Fld := ⟨0x224, 8, 5, .ro, 0⟩
/-- R124. -/
def CLU_FAB_ERR_LAST_PORT : Fld := ⟨0x224, 13, 4, .ro, 0⟩
/-- R124. -/
def CLU_FAB_ERR_LAST_MESH : Fld := ⟨0x224, 17, 1, .ro, 0⟩
/-- R124. -/
def CLU_FAB_ERR_LAST_VALID : Fld := ⟨0x224, 31, 1, .rw1c, 0⟩
/-- R134. -/
def CLU_DMEM_CFG_WIDTH (m : Nat) : Fld := ⟨0x300 + 4 * m, 0, 7, .rw, 0⟩
/-- R134. -/
def CLU_DMEM_CFG_EN (m : Nat) : Fld := ⟨0x300 + 4 * m, 31, 1, .rw, 0⟩
/-- R135. -/
def CLU_DMEM_EV_STEP (m e : Nat) : Fld := ⟨0x400 + 0x80 * m + 8 * e, 0, 9, .rw, 0⟩
/-- R135. -/
def CLU_DMEM_EV_PORT (m e : Nat) : Fld := ⟨0x400 + 0x80 * m + 8 * e, 9, 2, .rw, 3⟩
/-- R135. -/
def CLU_DMEM_EV_MODE (m e : Nat) : Fld := ⟨0x400 + 0x80 * m + 8 * e, 11, 1, .rw, 0⟩
/-- R135. -/
def CLU_DMEM_EV_TILE (m e : Nat) : Fld := ⟨0x400 + 0x80 * m + 8 * e, 12, 5, .rw, 0⟩
/-- R135. -/
def CLU_DMEM_EV_ADDR (m e : Nat) : Fld := ⟨0x400 + 0x80 * m + 8 * e, 17, 8, .rw, 0⟩
/-- R135. -/
def CLU_DMEM_EV_V (m e : Nat) : Fld := ⟨0x400 + 0x80 * m + 8 * e, 31, 1, .rw, 0⟩
/-- R135. -/
def CLU_DMEM_EV_DATA (m e : Nat) : Fld := ⟨0x404 + 0x80 * m + 8 * e, 0, 12, .rw, 0⟩
/-- R135. -/
def CLU_DMEM_EV_CEN (m e : Nat) : Fld := ⟨0x404 + 0x80 * m + 8 * e, 12, 1, .rw, 0⟩
/-- R135. -/
def CLU_DMEM_EV_COND (m e : Nat) : Fld := ⟨0x404 + 0x80 * m + 8 * e, 13, 12, .rw, 0⟩
/-- R136. -/
def CLU_DMEM_CE_COUNT_COUNT : Fld := ⟨0x320, 0, 32, .ro, 0⟩
/-- R136. -/
def CLU_DMEM_UE_COUNT_COUNT : Fld := ⟨0x324, 0, 32, .ro, 0⟩
/-- R136. -/
def CLU_DMEM_ERR_LAST_ROW : Fld := ⟨0x328, 0, 13, .ro, 0⟩
/-- R136. -/
def CLU_DMEM_ERR_LAST_BLOCK : Fld := ⟨0x328, 13, 3, .ro, 0⟩
/-- R136. -/
def CLU_DMEM_ERR_LAST_UE : Fld := ⟨0x328, 16, 1, .ro, 0⟩
/-- R136. -/
def CLU_DMEM_ERR_LAST_VALID : Fld := ⟨0x328, 31, 1, .rw1c, 0⟩
/-- R136. -/
def CLU_DMEM_ECC_CTRL_CLR_COUNTS : Fld := ⟨0x32c, 0, 1, .wo, 0⟩
/-- R141. -/
def CLU_FMP_V (f : Nat) : Fld := ⟨0x240 + 16 * f, 0, 1, .rw, 0⟩
/-- R141. -/
def CLU_FMP_DIR (f : Nat) : Fld := ⟨0x240 + 16 * f, 1, 1, .rw, 0⟩
/-- R141. -/
def CLU_FMP_SIZE (f : Nat) : Fld := ⟨0x240 + 16 * f, 2, 2, .rw, 0⟩
/-- R141. -/
def CLU_FMP_REGION (f : Nat) : Fld := ⟨0x240 + 16 * f, 4, 4, .rw, 0⟩
/-- R141. -/
def CLU_FMP_TILE (f : Nat) : Fld := ⟨0x240 + 16 * f, 8, 5, .rw, 0⟩
/-- R141. -/
def CLU_FMP_ISSUE (f : Nat) : Fld := ⟨0x244 + 16 * f, 0, 9, .rw, 0⟩
/-- R141. -/
def CLU_FMP_USE (f : Nat) : Fld := ⟨0x244 + 16 * f, 9, 9, .rw, 0⟩
/-- R141. -/
def CLU_FMP_ADDR (f : Nat) : Fld := ⟨0x248 + 16 * f, 0, 8, .rw, 0⟩
/-- R141. -/
def CLU_FMP_DATA (f : Nat) : Fld := ⟨0x248 + 16 * f, 8, 8, .rw, 0⟩
/-- R141. -/
def CLU_FMP_CEN (f : Nat) : Fld := ⟨0x248 + 16 * f, 16, 1, .rw, 0⟩
/-- R141. -/
def CLU_FMP_COND (f : Nat) : Fld := ⟨0x248 + 16 * f, 17, 12, .rw, 0⟩
/-- R141. -/
def CLU_FMP_PENDING (f : Nat) : Fld := ⟨0x24c + 16 * f, 0, 5, .ro, 0⟩
/-- R142. -/
def PTN_FREGION_BASE (r : Nat) : Fld := ⟨0x600 + 16 * r, 0, 64, .ro, 0⟩
/-- R142. -/
def PTN_FREGION_LOG2SIZE (r : Nat) : Fld := ⟨0x608 + 16 * r, 0, 6, .ro, 0⟩
/-- R144. -/
def WIN_WIN_SEL_CLASS : Fld := ⟨0x100, 0, 4, .rw, 0⟩
/-- R144. -/
def WIN_WIN_SEL_TILE : Fld := ⟨0x100, 4, 5, .rw, 0⟩
/-- R144. -/
def WIN_WIN_SEL_BLOCK : Fld := ⟨0x100, 9, 3, .rw, 0⟩
/-- R144. -/
def WIN_WIN_BASE_OFFSET : Fld := ⟨0x104, 0, 32, .rw, 0⟩
/-- R144. -/
def WIN_WIN_STATUS_DENIED : Fld := ⟨0x108, 0, 1, .rw1c, 0⟩
/-- R144. -/
def WIN_WIN_STATUS_BUSY : Fld := ⟨0x108, 1, 1, .rw1c, 0⟩
/-- R144. -/
def WIN_WIN_STATUS_RANGE : Fld := ⟨0x108, 2, 1, .rw1c, 0⟩
/-- R154. -/
def PTN_SNAP_CMD_CMD : Fld := ⟨0x700, 0, 2, .wo, 0⟩
/-- R154. -/
def PTN_SNAP_STATUS_STATE : Fld := ⟨0x704, 0, 2, .ro, 0⟩
/-- R154. -/
def PTN_SNAP_STATUS_RESULT : Fld := ⟨0x704, 4, 4, .ro, 0⟩
/-- R154. -/
def PTN_SNAP_STATUS_DONE : Fld := ⟨0x704, 8, 1, .rw1c, 0⟩
/-- R154. -/
def PTN_SNAP_STATUS_PROGRESS : Fld := ⟨0x704, 16, 7, .ro, 0⟩
/-- R154. -/
def PTN_SNAP_CFG_FAR : Fld := ⟨0x708, 0, 1, .rw, 0⟩
/-- R154. -/
def PTN_SNAP_CFG_AUTO : Fld := ⟨0x708, 8, 8, .rw, 0x40⟩
/-- R154. -/
def PTN_SNAP_BASE_ADDR : Fld := ⟨0x710, 0, 64, .ro, 0⟩
/-- R154. -/
def PTN_SNAP_SIZE_BYTES : Fld := ⟨0x718, 0, 64, .ro, 0⟩
/-- R154. -/
def PTN_SNAP_CYCLE_COUNT : Fld := ⟨0x720, 0, 64, .ro, 0⟩
/-- R157. -/
def PG_SNAP_CTRL_EN : Fld := ⟨0x020, 0, 1, .rw, 1⟩
/-- R157. -/
def PG_SNAP_CTRL_KEEP : Fld := ⟨0x020, 1, 1, .rw, 0⟩
/-- R157. -/
def PG_SNAP_CTRL_VALID : Fld := ⟨0x020, 8, 1, .rw1c, 0⟩
/-- R157. -/
def PG_SNAP_CTRL_MISSED : Fld := ⟨0x020, 9, 1, .rw1c, 0⟩
/-- R157. -/
def PG_SNAP_CTRL_SEQ : Fld := ⟨0x020, 16, 16, .ro, 0⟩
/-- R158. -/
def SNP_STROBE_GO : Fld := ⟨0x100, 0, 1, .wo, 0⟩
/-- R158. -/
def SNP_SRC_EN_TRG : Fld := ⟨0x104, 0, 1, .rw, 1⟩
/-- R158. -/
def SNP_SRC_EN_REG : Fld := ⟨0x104, 1, 1, .rw, 1⟩
/-- R158. -/
def SNP_SRC_EN_STRING : Fld := ⟨0x104, 2, 1, .rw, 1⟩
/-- R158. -/
def SNP_SRC_EN_TX_STRING : Fld := ⟨0x104, 3, 1, .rw, 0⟩
/-- R158. -/
def SNP_STATUS_SEQ : Fld := ⟨0x108, 0, 16, .ro, 0⟩
/-- R158. -/
def SNP_STATUS_LAST_SRC : Fld := ⟨0x108, 16, 2, .ro, 0⟩
/-- R158. -/
def SNP_STATUS_MERGED : Fld := ⟨0x108, 24, 1, .rw1c, 0⟩
/-- R158. -/
def SNP_STAMP_NS : Fld := ⟨0x110, 0, 64, .ro, 0⟩
/-- R160. -/
def DEV_DIR_STATE (p : Nat) : Fld := ⟨0x200 + 16 * p, 0, 3, .ro, 0⟩
/-- R160. -/
def DEV_DIR_RESTORE_DUE (p : Nat) : Fld := ⟨0x200 + 16 * p, 3, 1, .ro, 0⟩
/-- R160. -/
def DEV_DIR_VF (p : Nat) : Fld := ⟨0x200 + 16 * p, 4, 1, .ro, 0⟩
/-- R160. -/
def DEV_DIR_LINKED (p : Nat) : Fld := ⟨0x200 + 16 * p, 5, 1, .ro, 0⟩
/-- R160. -/
def DEV_DIR_CLUSTERS (p : Nat) : Fld := ⟨0x200 + 16 * p, 8, 7, .ro, 0⟩
/-- R160. -/
def DEV_DIR_MASK (p : Nat) : Fld := ⟨0x204 + 16 * p, 0, 64, .ro, 0⟩
/-- R160. -/
def DEV_DIR_QBASE (p : Nat) : Fld := ⟨0x20c + 16 * p, 0, 13, .ro, 0⟩
/-- R160. -/
def DEV_DIR_QCOUNT (p : Nat) : Fld := ⟨0x20c + 16 * p, 16, 13, .ro, 0⟩
/-- R174. -/
def LNK_BUDGET_BUDGET (g : Nat) : Fld := ⟨0x200 + 4 * g, 0, 8, .ro, 0⟩
/-- R174. -/
def LNK_BUDGET_MEASURED (g : Nat) : Fld := ⟨0x200 + 4 * g, 8, 8, .ro, 0⟩
/-- R174. -/
def LNK_BUDGET_OWNER (g : Nat) : Fld := ⟨0x200 + 4 * g, 16, 4, .ro, 0⟩
/-- R174. -/
def LNK_BUDGET_SLOTS (g : Nat) : Fld := ⟨0x200 + 4 * g, 20, 1, .ro, 0⟩
/-- R174. -/
def LNK_BUDGET_OVER (g : Nat) : Fld := ⟨0x200 + 4 * g, 21, 1, .ro, 0⟩
/-- R175. -/
def PTN_LINK_CFG_HORIZON : Fld := ⟨0x140, 0, 16, .ro, 0⟩
/-- R175. -/
def PTN_LINK_CFG_LEAD : Fld := ⟨0x140, 16, 1, .ro, 0⟩
/-- R179. -/
def LNK_SYS_CTRL_FREEZE : Fld := ⟨0x280, 0, 1, .wo, 0⟩
/-- R179. -/
def LNK_SYS_CTRL_TRG_FWD : Fld := ⟨0x280, 1, 1, .rw, 1⟩
/-- R179. -/
def LNK_SYS_STATUS_FREQ_LOCK : Fld := ⟨0x284, 0, 1, .ro, 0⟩
/-- R179. -/
def LNK_SYS_STATUS_SEEN : Fld := ⟨0x284, 1, 1, .rw1c, 0⟩
/-- R179. -/
def LNK_SYS_STATUS_STEP_SKEW : Fld := ⟨0x284, 2, 1, .rw1c, 0⟩
/-- R179. -/
def LNK_SYS_STATUS_LATE_HOLD : Fld := ⟨0x284, 3, 1, .rw1c, 0⟩
/-- R179. -/
def LNK_SYS_STATUS_SLOT_ERR : Fld := ⟨0x284, 4, 1, .rw1c, 0⟩
/-- R179. -/
def LNK_SYS_STATUS_UNALIGNED : Fld := ⟨0x284, 5, 1, .rw1c, 0⟩
/-- R179. -/
def LNK_SYS_STATUS_ORIGIN : Fld := ⟨0x284, 16, 9, .ro, 0⟩
/-- R189. -/
def LSC_CFG_EN : Fld := ⟨0x100, 0, 1, .rw, 0⟩
/-- R189. -/
def LSC_CFG_PARTITION : Fld := ⟨0x100, 1, 4, .rw, 0⟩
/-- R189. -/
def LSC_CFG_MODE : Fld := ⟨0x100, 5, 1, .rw, 0⟩
/-- R189. -/
def LSC_CFG_LOST_MODE : Fld := ⟨0x100, 6, 1, .rw, 0⟩
/-- R189. -/
def LSC_CFG_SCRUB : Fld := ⟨0x100, 7, 1, .rw, 1⟩
/-- R189. -/
def LSC_CFG_WINDOW : Fld := ⟨0x100, 8, 7, .rw, 0x10⟩
/-- R189. -/
def LSC_TIMEOUT_US : Fld := ⟨0x104, 0, 16, .rw, 0x64⟩
/-- R189. -/
def LSC_STATUS_LAG_HOLD : Fld := ⟨0x108, 0, 1, .ro, 0⟩
/-- R189. -/
def LSC_STATUS_MISMATCH : Fld := ⟨0x108, 1, 1, .rw1c, 0⟩
/-- R189. -/
def LSC_STATUS_REMOTE_MISMATCH : Fld := ⟨0x108, 2, 1, .rw1c, 0⟩
/-- R189. -/
def LSC_STATUS_PARTNER_LOST : Fld := ⟨0x108, 3, 1, .rw1c, 0⟩
/-- R189. -/
def LSC_STATUS_DIAG : Fld := ⟨0x108, 4, 2, .ro, 0⟩
/-- R189. -/
def LSC_MISMATCH_CYCLE_COUNT : Fld := ⟨0x110, 0, 64, .ro, 0⟩
/-- R189. -/
def LSC_LOCAL_SIG_SIG : Fld := ⟨0x118, 0, 64, .ro, 0⟩
/-- R189. -/
def LSC_REMOTE_SIG_SIG : Fld := ⟨0x120, 0, 64, .ro, 0⟩
/-- R189. -/
def LSC_MISMATCH_COUNT_COUNT : Fld := ⟨0x128, 0, 32, .ro, 0⟩
/-- R193. -/
def TSB_CFG_ROLE : Fld := ⟨0x100, 0, 2, .rw, 0⟩
/-- R193. -/
def TSB_CFG_STRING_FB : Fld := ⟨0x100, 2, 1, .rw, 1⟩
/-- R193. -/
def TSB_STATUS_LOCKED : Fld := ⟨0x104, 0, 1, .ro, 0⟩
/-- R193. -/
def TSB_STATUS_HOLDING : Fld := ⟨0x104, 1, 1, .ro, 0⟩
/-- R193. -/
def TSB_STATUS_BACKSTEP : Fld := ⟨0x104, 2, 1, .rw1c, 0⟩
/-- R193. -/
def TSB_STATUS_EPOCH_INC : Fld := ⟨0x104, 3, 1, .rw1c, 0⟩
/-- R193. -/
def TSB_STATUS_FWD_STEP : Fld := ⟨0x104, 4, 1, .rw1c, 0⟩
/-- R193. -/
def TSB_STATUS_ON_STRING : Fld := ⟨0x104, 5, 1, .ro, 0⟩
/-- R193. -/
def TSB_STATUS_MULTI_MASTER : Fld := ⟨0x104, 6, 1, .rw1c, 0⟩
/-- R193. -/
def TSB_STATUS_UPSTREAM : Fld := ⟨0x104, 8, 4, .ro, 0⟩
/-- R193. -/
def TSB_EPOCH_COUNT : Fld := ⟨0x108, 0, 16, .ro, 0⟩
/-- R193. -/
def TSB_TIME_NS : Fld := ⟨0x110, 0, 64, .ro, 0⟩
/-- R193. -/
def TSB_FRAC_FRAC : Fld := ⟨0x118, 0, 16, .ro, 0⟩
/-- R193. -/
def TSB_SET_NS : Fld := ⟨0x120, 0, 64, .wo, 0⟩
/-- R193. -/
def TSB_OFFSET_NS : Fld := ⟨0x128, 0, 64, .ro, 0⟩
/-- R205. -/
def FUS_ROOT_HASH_WORD (i : Nat) : Fld := ⟨0x100 + 4 * i, 0, 32, .ro, 0⟩
/-- R205. -/
def FUS_OWNER_HASH_WORD (i : Nat) : Fld := ⟨0x140 + 4 * i, 0, 32, .ro, 0⟩
/-- R205. -/
def FUS_STATUS_OWNER_PROV : Fld := ⟨0x180, 0, 1, .ro, 0⟩
/-- R205. -/
def FUS_STATUS_OWNER_FAULT : Fld := ⟨0x180, 1, 1, .ro, 0⟩
/-- R205. -/
def FUS_SVN_COUNT : Fld := ⟨0x184, 0, 7, .ro, 0⟩
/-- R205. -/
def FUS_SVN_PM_TARGET : Fld := ⟨0x184, 8, 7, .ro, 0⟩
/-- R205. -/
def FUS_SVN_COMPLETED_AT_START : Fld := ⟨0x184, 16, 1, .ro, 0⟩
/-- R205. -/
def FUS_SVN_REBURNED : Fld := ⟨0x184, 17, 1, .ro, 0⟩
/-- R205. -/
def FUS_PM_MAP_BITS : Fld := ⟨0x1a0, 0, 64, .ro, 0⟩
/-- R205. -/
def FUS_DONE_MAP_BITS : Fld := ⟨0x1a8, 0, 64, .ro, 0⟩
/-- R206. -/
def LDR_BOOT_STATUS_STATE : Fld := ⟨0x100, 0, 3, .ro, 0⟩
/-- R206. -/
def LDR_BOOT_STATUS_UNCONFIRMED : Fld := ⟨0x100, 3, 1, .ro, 0⟩
/-- R206. -/
def LDR_BOOT_STATUS_LAST_REFUSAL : Fld := ⟨0x100, 4, 4, .ro, 0⟩
/-- R206. -/
def LDR_BOOT_STATUS_CONFIRM_RESULT : Fld := ⟨0x100, 8, 3, .ro, 0⟩
/-- R206. -/
def LDR_BOOT_STATUS_RUNNING_SVN : Fld := ⟨0x100, 16, 7, .ro, 0⟩
/-- R206. -/
def LDR_BUNDLE_VERSION_VERSION : Fld := ⟨0x104, 0, 32, .ro, 0⟩
/-- R206. -/
def LDR_BOOT_ADDR_ADDR : Fld := ⟨0x108, 0, 64, .rw, 0⟩
/-- R206. -/
def LDR_BOOT_LEN_BYTES : Fld := ⟨0x110, 0, 32, .rw, 0⟩
/-- R206. -/
def LDR_BOOT_CMD_CMD : Fld := ⟨0x114, 0, 2, .wo, 0⟩
/-- R206. -/
def LDR_CONFIRM_GO : Fld := ⟨0x118, 0, 1, .wo, 0⟩
/-- R206. -/
def LDR_BUNDLE_ATTEMPTS_COUNT : Fld := ⟨0x120, 0, 32, .ro, 0⟩
/-- R206. -/
def LDR_BUNDLE_REFUSED_COUNT : Fld := ⟨0x124, 0, 32, .ro, 0⟩
/-- R215. -/
def PTN_LOAD_ADDR_ADDR : Fld := ⟨0x180, 0, 64, .rw, 0⟩
/-- R215. -/
def PTN_LOAD_COUNT_COUNT : Fld := ⟨0x188, 0, 16, .rw, 0⟩
/-- R215. -/
def PTN_LOAD_CMD_CMD : Fld := ⟨0x18c, 0, 2, .wo, 0⟩
/-- R215. -/
def PTN_LOAD_STATUS_BUSY : Fld := ⟨0x190, 0, 1, .ro, 0⟩
/-- R215. -/
def PTN_LOAD_STATUS_REASON : Fld := ⟨0x190, 1, 4, .ro, 0⟩
/-- R215. -/
def PTN_LOAD_STATUS_DONE : Fld := ⟨0x190, 5, 1, .rw1c, 0⟩
/-- R215. -/
def PTN_LOAD_STATUS_TABLES_MISSING : Fld := ⟨0x190, 6, 1, .ro, 0⟩
/-- R215. -/
def PTN_LOAD_STATUS_INDEX : Fld := ⟨0x190, 16, 16, .ro, 0⟩
/-- R215. -/
def PTN_LOAD_SEQ_SEQ : Fld := ⟨0x194, 0, 32, .ro, 0⟩
/-- R215. -/
def PTN_FRAMES_OK_COUNT : Fld := ⟨0x198, 0, 32, .ro, 0⟩
/-- R215. -/
def PTN_FRAMES_REFUSED_COUNT : Fld := ⟨0x19c, 0, 32, .ro, 0⟩
/-- R215. -/
def PTN_RECEIVED_COUNT : Fld := ⟨0x1a0, 0, 19, .ro, 0⟩
/-- R215. -/
def PTN_EXPECTED_FRAMES : Fld := ⟨0x1a4, 0, 19, .ro, 0⟩
/-- R215. -/
def PTN_IMAGE_ID_ID : Fld := ⟨0x1a8, 0, 64, .ro, 0⟩
/-- R215. -/
def PTN_ORIGIN_ID : Fld := ⟨0x1b0, 0, 64, .ro, 0⟩
/-- R221. -/
def PTN_UPSET_POLICY : Fld := ⟨0x1b8, 0, 2, .rw, 0⟩
/-- R221. -/
def PTN_UPSET_MARK : Fld := ⟨0x1b8, 8, 1, .rw1c, 0⟩
/-- R221. -/
def PTN_UPSET_COUNT : Fld := ⟨0x1b8, 16, 16, .ro, 0⟩
/-- R222. -/
def SCR_CFG_RATE : Fld := ⟨0x100, 0, 8, .rw, 8⟩
/-- R222. -/
def SCR_CFG_DMEM : Fld := ⟨0x100, 8, 1, .rw, 1⟩
/-- R222. -/
def SCR_PASS_PARTITION : Fld := ⟨0x108, 0, 4, .rw, 0⟩
/-- R222. -/
def SCR_PASS_GO : Fld := ⟨0x108, 4, 1, .wo, 0⟩
/-- R222. -/
def SCR_PASS_STATUS_PASS_STATE : Fld := ⟨0x10c, 0, 2, .ro, 0⟩
/-- R222. -/
def SCR_PASS_STATUS_UPSET_FOUND : Fld := ⟨0x10c, 2, 1, .rw1c, 0⟩
/-- R222. -/
def SCR_WALK_COUNT_COUNT : Fld := ⟨0x110, 0, 32, .ro, 0⟩
/-- R222. -/
def SCR_UE_ESSENTIAL_COUNT : Fld := ⟨0x114, 0, 32, .ro, 0⟩
/-- R222. -/
def SCR_UE_NONESSENTIAL_COUNT : Fld := ⟨0x118, 0, 32, .ro, 0⟩
/-- R222. -/
def SCR_RELOADS_COUNT : Fld := ⟨0x11c, 0, 32, .ro, 0⟩
/-- R222. -/
def SCR_LAST_CLUSTER : Fld := ⟨0x120, 0, 6, .ro, 0⟩
/-- R222. -/
def SCR_LAST_TILE : Fld := ⟨0x120, 6, 5, .ro, 0⟩
/-- R222. -/
def SCR_LAST_KIND : Fld := ⟨0x120, 11, 3, .ro, 0⟩
/-- R222. -/
def SCR_LAST_ESSENTIAL : Fld := ⟨0x120, 14, 1, .ro, 0⟩
/-- R222. -/
def SCR_LAST_FETCH : Fld := ⟨0x120, 15, 1, .ro, 0⟩
/-- R222. -/
def SCR_LAST_VALID : Fld := ⟨0x120, 31, 1, .rw1c, 0⟩
/-- R252. -/
def LGRP_CFG_EN : Fld := ⟨0x100, 0, 1, .rw, 0⟩
/-- R252. -/
def LGRP_CFG_MODE : Fld := ⟨0x100, 1, 2, .rw, 0⟩
/-- R252. -/
def LGRP_CFG_RATE : Fld := ⟨0x100, 3, 2, .rw, 0⟩
/-- R252. -/
def LGRP_CFG_MAX_VER : Fld := ⟨0x100, 5, 2, .rw, 2⟩
/-- R252. -/
def LGRP_CFG_TX_PRESET : Fld := ⟨0x100, 7, 3, .rw, 0⟩
/-- R252. -/
def LGRP_CFG_LANE_EN : Fld := ⟨0x100, 10, 8, .rw, 0xff⟩
/-- R252. -/
def LGRP_STATUS_STATE : Fld := ⟨0x104, 0, 3, .ro, 0⟩
/-- R252. -/
def LGRP_STATUS_VER : Fld := ⟨0x104, 3, 2, .ro, 0⟩
/-- R252. -/
def LGRP_STATUS_LANE_LOCK : Fld := ⟨0x104, 5, 8, .ro, 0⟩
/-- R252. -/
def LGRP_STATUS_FAR_ALIGNED : Fld := ⟨0x104, 13, 1, .ro, 0⟩
/-- R252. -/
def LGRP_STATUS_ACQ_TIMEOUT : Fld := ⟨0x104, 14, 1, .rw1c, 0⟩
/-- R252. -/
def LGRP_STATUS_SKEW_ERR : Fld := ⟨0x104, 15, 1, .rw1c, 0⟩
/-- R252. -/
def LGRP_STATUS_DOWN : Fld := ⟨0x104, 16, 1, .rw1c, 0⟩
/-- R252. -/
def LGRP_STATUS_DOWN_CAUSE : Fld := ⟨0x104, 17, 3, .ro, 0⟩
/-- R252. -/
def LGRP_STATUS_TEST_RESULT : Fld := ⟨0x104, 20, 3, .ro, 0⟩
/-- R252. -/
def LGRP_FAR_DEVICE : Fld := ⟨0x108, 0, 9, .ro, 0⟩
/-- R252. -/
def LGRP_FAR_GROUP : Fld := ⟨0x108, 9, 4, .ro, 0⟩
/-- R252. -/
def LGRP_FAR_VERSION : Fld := ⟨0x108, 16, 4, .ro, 0⟩
/-- R252. -/
def LGRP_SKEW_LANE (l : Nat) : Fld := ⟨0x10c + 4 * (l / 4), 8 * (l % 4), 7, .ro, 0⟩
/-- R252. -/
def LGRP_RTT_STEPS : Fld := ⟨0x114, 0, 16, .ro, 0⟩
/-- R252. -/
def LGRP_SLACK_MIN : Fld := ⟨0x118, 0, 8, .ro, 0xff⟩
/-- R252. -/
def LGRP_CW_TOTAL_COUNT : Fld := ⟨0x120, 0, 64, .ro, 0⟩
/-- R252. -/
def LGRP_CW_CORR_COUNT : Fld := ⟨0x128, 0, 64, .ro, 0⟩
/-- R252. -/
def LGRP_SYM_CORR_COUNT : Fld := ⟨0x130, 0, 64, .ro, 0⟩
/-- R252. -/
def LGRP_CW_UNCORR_COUNT : Fld := ⟨0x138, 0, 64, .ro, 0⟩
/-- R252. -/
def LGRP_FLIT_CRC_ERR_COUNT : Fld := ⟨0x140, 0, 32, .ro, 0⟩
/-- R252. -/
def LGRP_RETRIES_COUNT : Fld := ⟨0x144, 0, 32, .ro, 0⟩
/-- R252. -/
def LGRP_DOWN_COUNT_COUNT : Fld := ⟨0x148, 0, 32, .ro, 0⟩
/-- R252. -/
def LGRP_CTL_ERR_COUNT : Fld := ⟨0x14c, 0, 32, .ro, 0⟩
/-- R252. -/
def LGRP_SLOT_LATE_COUNT : Fld := ⟨0x150, 0, 32, .ro, 0⟩
/-- R252. -/
def LGRP_LANE_UNCORR_COUNT (l : Nat) : Fld := ⟨0x158 + 4 * l, 0, 32, .ro, 0⟩
/-- R252. -/
def LGRP_CNT_CTRL_CLR_COUNTS : Fld := ⟨0x17c, 0, 1, .wo, 0⟩
/-- R252. -/
def LGRP_CNT_CTRL_CLR_SLACK : Fld := ⟨0x17c, 1, 1, .wo, 0⟩
/-- R252. -/
def LGRP_PRBS_CFG_POLY : Fld := ⟨0x180, 0, 2, .rw, 3⟩
/-- R252. -/
def LGRP_PRBS_CFG_GEN : Fld := ⟨0x180, 2, 1, .rw, 0⟩
/-- R252. -/
def LGRP_PRBS_CFG_CHK : Fld := ⟨0x180, 3, 1, .rw, 0⟩
/-- R252. -/
def LGRP_PRBS_CFG_INV : Fld := ⟨0x180, 4, 1, .rw, 0⟩
/-- R252. -/
def LGRP_PRBS_STATUS_LOCK : Fld := ⟨0x184, 0, 8, .ro, 0⟩
/-- R252. -/
def LGRP_PRBS_STATUS_LOST : Fld := ⟨0x184, 8, 8, .rw1c, 0⟩
/-- R252. -/
def LGRP_PRBS_BITS_COUNT : Fld := ⟨0x188, 0, 64, .ro, 0⟩
/-- R252. -/
def LGRP_INJ_KIND : Fld := ⟨0x190, 0, 2, .rw, 0⟩
/-- R252. -/
def LGRP_INJ_TARGET : Fld := ⟨0x190, 2, 1, .rw, 0⟩
/-- R252. -/
def LGRP_INJ_LANES : Fld := ⟨0x190, 3, 8, .rw, 0⟩
/-- R252. -/
def LGRP_INJ_BURST_M1 : Fld := ⟨0x190, 11, 6, .rw, 0⟩
/-- R252. -/
def LGRP_INJ_RATE_EXP : Fld := ⟨0x190, 17, 6, .rw, 0x14⟩
/-- R252. -/
def LGRP_INJ_REFUSED : Fld := ⟨0x190, 23, 1, .rw1c, 0⟩
/-- R252. -/
def LGRP_INJ_GO : Fld := ⟨0x190, 31, 1, .wo, 0⟩
/-- R252. -/
def LGRP_LOOP_MODE : Fld := ⟨0x194, 0, 2, .rw, 0⟩
/-- R252. -/
def LGRP_PRBS_ERR_COUNT (l : Nat) : Fld := ⟨0x1c0 + 8 * l, 0, 64, .ro, 0⟩
/-- R252. -/
def LGRP_BRIDGE_Q_TXQ (l : Nat) : Fld := ⟨0x200 + 4 * l, 0, 13, .rw, 0⟩
/-- R252. -/
def LGRP_BRIDGE_Q_RXQ (l : Nat) : Fld := ⟨0x200 + 4 * l, 16, 13, .rw, 0⟩
/-- R252. -/
def LGRP_BRIDGE_Q_TX_EN (l : Nat) : Fld := ⟨0x200 + 4 * l, 30, 1, .rw, 0⟩
/-- R252. -/
def LGRP_BRIDGE_Q_RX_EN (l : Nat) : Fld := ⟨0x200 + 4 * l, 31, 1, .rw, 0⟩
/-- R252. -/
def LGRP_FILL_WORD : Fld := ⟨0x220, 0, 64, .rw, 0⟩
/-- R252. -/
def LGRP_ALIGN_WORD : Fld := ⟨0x228, 0, 64, .rw, 0⟩
/-- R252. -/
def LGRP_ALIGN_MASK_MASK : Fld := ⟨0x230, 0, 64, .rw, 0⟩
/-- R252. -/
def LGRP_BRIDGE_CFG_DROP_FILL : Fld := ⟨0x238, 0, 1, .rw, 0⟩
/-- R252. -/
def LGRP_BRIDGE_CFG_ALIGN_EN : Fld := ⟨0x238, 1, 1, .rw, 0⟩
/-- R252. -/
def LGRP_BRIDGE_CFG_OWNER : Fld := ⟨0x238, 2, 4, .rw, 0⟩
/-- R252. -/
def LGRP_BRIDGE_DROP_COUNT (l : Nat) : Fld := ⟨0x240 + 4 * l, 0, 32, .ro, 0⟩
/-- R252. -/
def LGRP_BRIDGE_STATUS_ALIGNED : Fld := ⟨0x260, 0, 8, .ro, 0⟩
/-- R252. -/
def LGRP_BRIDGE_STATUS_Q_REFUSED : Fld := ⟨0x260, 8, 8, .rw1c, 0⟩
/-- R278. -/
def NOC_CFG_RSP_TIMEOUT : Fld := ⟨0x100, 0, 16, .rw, 0x3e8⟩
/-- R278. -/
def NOC_CFG_DRAIN_TIMEOUT : Fld := ⟨0x100, 16, 16, .rw, 0x64⟩
/-- R278. -/
def NOC_RT_SEL_PORT_ID : Fld := ⟨0x108, 0, 8, .rw, 0⟩
/-- R278. -/
def NOC_RT_SEL_INDEX : Fld := ⟨0x108, 8, 8, .rw, 0⟩
/-- R278. -/
def NOC_RT_CTRL_RT_ERR : Fld := ⟨0x10c, 0, 1, .rw1c, 0⟩
/-- R278. -/
def NOC_RT_DATA_ENTRY : Fld := ⟨0x110, 0, 64, .ro, 0⟩
/-- R278. -/
def NOC_NI_STATE_CLU (n : Nat) : Fld := ⟨0x120 + 4 * (n / 16), 2 * (n % 16), 2, .ro, 2⟩
/-- R278. -/
def NOC_HDR_CE_COUNT : Fld := ⟨0x140, 0, 32, .ro, 0⟩
/-- R278. -/
def NOC_HDR_UE_COUNT : Fld := ⟨0x144, 0, 32, .ro, 0⟩
/-- R278. -/
def NOC_PAY_CE_COUNT : Fld := ⟨0x148, 0, 32, .ro, 0⟩
/-- R278. -/
def NOC_PAY_UE_COUNT : Fld := ⟨0x14c, 0, 32, .ro, 0⟩
/-- R278. -/
def NOC_UNREACH_COUNT : Fld := ⟨0x150, 0, 32, .ro, 0⟩
/-- R278. -/
def NOC_NO_ROUTE_COUNT : Fld := ⟨0x154, 0, 32, .ro, 0⟩
/-- R278. -/
def NOC_TIMEOUTS_COUNT : Fld := ⟨0x158, 0, 32, .ro, 0⟩
/-- R278. -/
def NOC_LATE_RSP_COUNT : Fld := ⟨0x15c, 0, 32, .ro, 0⟩
/-- R278. -/
def NOC_DRAIN_FORCED_COUNT : Fld := ⟨0x160, 0, 32, .ro, 0⟩
/-- R278. -/
def NOC_ERR_LAST_SRC : Fld := ⟨0x168, 0, 8, .ro, 0⟩
/-- R278. -/
def NOC_ERR_LAST_DST : Fld := ⟨0x168, 8, 8, .ro, 0⟩
/-- R278. -/
def NOC_ERR_LAST_VC : Fld := ⟨0x168, 16, 2, .ro, 0⟩
/-- R278. -/
def NOC_ERR_LAST_KIND : Fld := ⟨0x168, 18, 3, .ro, 0⟩
/-- R278. -/
def NOC_ERR_LAST_X : Fld := ⟨0x168, 21, 3, .ro, 0⟩
/-- R278. -/
def NOC_ERR_LAST_Y : Fld := ⟨0x168, 24, 4, .ro, 0⟩
/-- R278. -/
def NOC_ERR_LAST_VALID : Fld := ⟨0x168, 31, 1, .rw1c, 0⟩
/-- R278. -/
def NOC_ERR_CTRL_CLR_COUNTS : Fld := ⟨0x16c, 0, 1, .wo, 0⟩
/-- R279. -/
def NOC_PCTL_X (k : Nat) : Fld := ⟨0x200 + 0x20 * k, 0, 3, .rw, 0⟩
/-- R279. -/
def NOC_PCTL_Y (k : Nat) : Fld := ⟨0x200 + 0x20 * k, 3, 4, .rw, 0⟩
/-- R279. -/
def NOC_PCTL_PORT (k : Nat) : Fld := ⟨0x200 + 0x20 * k, 7, 4, .rw, 0⟩
/-- R279. -/
def NOC_PCTL_EN (k : Nat) : Fld := ⟨0x200 + 0x20 * k, 11, 1, .rw, 0⟩
/-- R279. -/
def NOC_PCTL_TRACE (k : Nat) : Fld := ⟨0x200 + 0x20 * k, 12, 1, .rw, 0⟩
/-- R279. -/
def NOC_PFILT_VC_MASK (k : Nat) : Fld := ⟨0x204 + 0x20 * k, 0, 4, .rw, 0xf⟩
/-- R279. -/
def NOC_PFILT_M_SRC (k : Nat) : Fld := ⟨0x204 + 0x20 * k, 4, 1, .rw, 0⟩
/-- R279. -/
def NOC_PFILT_M_DST (k : Nat) : Fld := ⟨0x204 + 0x20 * k, 5, 1, .rw, 0⟩
/-- R279. -/
def NOC_PFILT_M_PART (k : Nat) : Fld := ⟨0x204 + 0x20 * k, 6, 1, .rw, 0⟩
/-- R279. -/
def NOC_PFILT_M_OP (k : Nat) : Fld := ⟨0x204 + 0x20 * k, 7, 1, .rw, 0⟩
/-- R279. -/
def NOC_PFILT_SRC (k : Nat) : Fld := ⟨0x204 + 0x20 * k, 8, 8, .rw, 0⟩
/-- R279. -/
def NOC_PFILT_DST (k : Nat) : Fld := ⟨0x204 + 0x20 * k, 16, 8, .rw, 0⟩
/-- R279. -/
def NOC_PFILT_PART (k : Nat) : Fld := ⟨0x204 + 0x20 * k, 24, 4, .rw, 0⟩
/-- R279. -/
def NOC_POP_OP (k : Nat) : Fld := ⟨0x208 + 0x20 * k, 0, 6, .rw, 0⟩
/-- R279. -/
def NOC_POP_OP_MASK (k : Nat) : Fld := ⟨0x208 + 0x20 * k, 6, 6, .rw, 0x3f⟩
/-- R279. -/
def NOC_PKTS_COUNT (k : Nat) : Fld := ⟨0x210 + 0x20 * k, 0, 32, .ro, 0⟩
/-- R279. -/
def NOC_FLITS_COUNT (k : Nat) : Fld := ⟨0x214 + 0x20 * k, 0, 32, .ro, 0⟩
/-- R279. -/
def NOC_DROPPED_COUNT (k : Nat) : Fld := ⟨0x218 + 0x20 * k, 0, 32, .ro, 0⟩
/-- R289. -/
def CLU_TXP_V (x : Nat) : Fld := ⟨0x280 + 16 * x, 0, 1, .rw, 0⟩
/-- R289. -/
def CLU_TXP_DIR (x : Nat) : Fld := ⟨0x280 + 16 * x, 1, 1, .rw, 0⟩
/-- R289. -/
def CLU_TXP_FENCE (x : Nat) : Fld := ⟨0x280 + 16 * x, 2, 1, .rw, 0⟩
/-- R289. -/
def CLU_TXP_QUEUE (x : Nat) : Fld := ⟨0x280 + 16 * x, 4, 13, .rw, 0⟩
/-- R289. -/
def CLU_TXP_TILE (x : Nat) : Fld := ⟨0x280 + 16 * x, 17, 5, .rw, 0⟩
/-- R289. -/
def CLU_TXP_STEP (x : Nat) : Fld := ⟨0x284 + 16 * x, 0, 9, .rw, 0⟩
/-- R289. -/
def CLU_TXP_DATA (x : Nat) : Fld := ⟨0x288 + 16 * x, 0, 8, .rw, 0⟩
/-- R289. -/
def CLU_TXP_MARK (x : Nat) : Fld := ⟨0x288 + 16 * x, 8, 12, .rw, 0⟩
/-- R289. -/
def CLU_TXP_COND (x : Nat) : Fld := ⟨0x28c + 16 * x, 0, 12, .rw, 0⟩
/-- R289. -/
def CLU_TXP_CEN (x : Nat) : Fld := ⟨0x28c + 16 * x, 12, 1, .rw, 0⟩
/-- R289. -/
def CLU_TXP_HELD (x : Nat) : Fld := ⟨0x28c + 16 * x, 16, 3, .ro, 0⟩
/-- R307. -/
def DSP_WI_WORD (i : Nat) : Fld := ⟨0x100 + 8 * i, 0, 64, .rw, 0⟩
/-- R307. -/
def DSP_SUBMIT_OUTCOME : Fld := ⟨0x120, 0, 32, .ro, 0⟩
/-- R307. -/
def DSP_CFG_COMPAT : Fld := ⟨0x124, 0, 17, .rw, 0⟩
/-- R307. -/
def DSP_WAIT_LIMIT_US : Fld := ⟨0x128, 0, 16, .rw, 0x64⟩
/-- R307. -/
def DSP_LIST_DEPTH (l : Nat) : Fld := ⟨0x140 + 4 * l, 0, 9, .ro, 0⟩
/-- R307. -/
def DSP_LIST_HWM (l : Nat) : Fld := ⟨0x140 + 4 * l, 9, 9, .ro, 0⟩
/-- R307. -/
def DSP_REFUSED_COUNT (l : Nat) : Fld := ⟨0x1c0 + 4 * l, 0, 32, .ro, 0⟩
/-- R307. -/
def DSP_HIST_SEL_LIST : Fld := ⟨0x240, 0, 5, .rw, 0⟩
/-- R307. -/
def DSP_HIST_COUNT (b : Nat) : Fld := ⟨0x244 + 4 * b, 0, 32, .ro, 0⟩
/-- R307. -/
def DSP_CPL_LOST_COUNT : Fld := ⟨0x264, 0, 32, .ro, 0⟩
/-- R307. -/
def DSP_DISCARDED_COUNT : Fld := ⟨0x268, 0, 32, .ro, 0⟩
/-- R307. -/
def DSP_CTRL_CLR : Fld := ⟨0x26c, 0, 1, .wo, 0⟩
/-- R308. -/
def CRR_CSTATE_STATE (c : Nat) : Fld := ⟨0x100 + 16 * c, 0, 2, .ro, 0⟩
/-- R308. -/
def CRR_CSTATE_LIST (c : Nat) : Fld := ⟨0x100 + 16 * c, 2, 5, .ro, 0⟩
/-- R308. -/
def CRR_CSTATE_SLOT_FULL (c : Nat) : Fld := ⟨0x100 + 16 * c, 7, 1, .ro, 0⟩
/-- R308. -/
def CRR_ITEMS_COUNT (c : Nat) : Fld := ⟨0x104 + 16 * c, 0, 32, .ro, 0⟩
/-- R308. -/
def CRR_BUSY_US_COUNT (c : Nat) : Fld := ⟨0x108 + 16 * c, 0, 32, .ro, 0⟩
/-- R308. -/
def CRR_WAIT_US_COUNT (c : Nat) : Fld := ⟨0x10c + 16 * c, 0, 32, .ro, 0⟩
/-- R319. -/
def TRG_SEQ_CTRL_OWNER : Fld := ⟨0x100, 0, 5, .rw, 0x10⟩
/-- R319. -/
def TRG_SEQ_CTRL_ARM : Fld := ⟨0x100, 8, 1, .wo, 0⟩
/-- R319. -/
def TRG_SEQ_CTRL_DISARM : Fld := ⟨0x100, 9, 1, .wo, 0⟩
/-- R319. -/
def TRG_SEQ_STATUS_LEVEL : Fld := ⟨0x104, 0, 3, .ro, 0⟩
/-- R319. -/
def TRG_SEQ_STATUS_ARMED : Fld := ⟨0x104, 3, 1, .ro, 0⟩
/-- R319. -/
def TRG_SEQ_STATUS_FIRED : Fld := ⟨0x104, 4, 1, .rw1c, 0⟩
/-- R319. -/
def TRG_SEQ_STATUS_COUNT : Fld := ⟨0x104, 16, 16, .ro, 0⟩
/-- R319. -/
def TRG_STATUS_SRC_DENIED : Fld := ⟨0x108, 0, 1, .rw1c, 0⟩
/-- R319. -/
def TRG_STATUS_PIN_IN : Fld := ⟨0x108, 16, 8, .ro, 0⟩
/-- R319. -/
def TRG_CCFG_KIND (k : Nat) : Fld := ⟨0x200 + 32 * k, 0, 3, .rw, 0⟩
/-- R319. -/
def TRG_CCFG_OWNER (k : Nat) : Fld := ⟨0x200 + 32 * k, 3, 5, .rw, 0x10⟩
/-- R319. -/
def TRG_CCFG_EN (k : Nat) : Fld := ⟨0x200 + 32 * k, 8, 1, .rw, 0⟩
/-- R319. -/
def TRG_CCFG_OP (k : Nat) : Fld := ⟨0x200 + 32 * k, 9, 3, .rw, 0⟩
/-- R319. -/
def TRG_CCFG_ACT (k : Nat) : Fld := ⟨0x200 + 32 * k, 12, 4, .rw, 0⟩
/-- R319. -/
def TRG_CSRC_SRC (k : Nat) : Fld := ⟨0x204 + 32 * k, 0, 32, .rw, 0⟩
/-- R319. -/
def TRG_CVALUE_VALUE (k : Nat) : Fld := ⟨0x208 + 32 * k, 0, 64, .rw, 0⟩
/-- R319. -/
def TRG_CMASK_MASK (k : Nat) : Fld := ⟨0x210 + 32 * k, 0, 64, .rw, 0xffffffffffffffff⟩
/-- R319. -/
def TRG_CCOUNT_COUNT (k : Nat) : Fld := ⟨0x218 + 32 * k, 0, 32, .ro, 0⟩
/-- R319. -/
def TRG_LCFG_NEXT (i : Nat) : Fld := ⟨0x600 + 16 * i, 0, 3, .rw, 0⟩
/-- R319. -/
def TRG_LCFG_ALL (i : Nat) : Fld := ⟨0x600 + 16 * i, 3, 1, .rw, 0⟩
/-- R319. -/
def TRG_LCFG_STOP (i : Nat) : Fld := ⟨0x600 + 16 * i, 4, 1, .rw, 0⟩
/-- R319. -/
def TRG_LCFG_ACT (i : Nat) : Fld := ⟨0x600 + 16 * i, 5, 4, .rw, 0⟩
/-- R319. -/
def TRG_LCFG_COUNT_M1 (i : Nat) : Fld := ⟨0x600 + 16 * i, 16, 16, .rw, 0⟩
/-- R319. -/
def TRG_HIT_MASK_MASK (i : Nat) : Fld := ⟨0x604 + 16 * i, 0, 32, .rw, 0⟩
/-- R319. -/
def TRG_RESTART_MASK_MASK (i : Nat) : Fld := ⟨0x608 + 16 * i, 0, 32, .rw, 0⟩
/-- R319. -/
def TRG_LTIMEOUT_US (i : Nat) : Fld := ⟨0x60c + 16 * i, 0, 16, .rw, 0⟩
/-- R319. -/
def TRG_PIN_OUT (j : Nat) : Fld := ⟨0x680 + 4 * j, 0, 1, .rw, 0⟩
/-- R319. -/
def TRG_PIN_OWNER (j : Nat) : Fld := ⟨0x680 + 4 * j, 1, 5, .rw, 0x10⟩
/-- R319. -/
def TRG_PIN_INVERT (j : Nat) : Fld := ⟨0x680 + 4 * j, 6, 1, .rw, 0⟩
/-- R319. -/
def TRG_PIN_LEVEL_MODE (j : Nat) : Fld := ⟨0x680 + 4 * j, 7, 1, .rw, 0⟩
/-- R319. -/
def TRG_PIN_PULSE (j : Nat) : Fld := ⟨0x680 + 4 * j, 8, 16, .rw, 0x64⟩
/-- R334. -/
def CAP_PW_BASE_ADDR : Fld := ⟨0x100, 0, 64, .rw, 0⟩
/-- R334. -/
def CAP_PW_SIZE_PAGES : Fld := ⟨0x108, 0, 25, .rw, 0⟩
/-- R334. -/
def CAP_SLICE_USED_MBS : Fld := ⟨0x10c, 0, 21, .ro, 0⟩
/-- R334. -/
def CAP_CH_SEL_CH : Fld := ⟨0x110, 0, 6, .rw, 0⟩
/-- R334. -/
def CAP_CH_BLOCKS_COUNT : Fld := ⟨0x114, 0, 32, .ro, 0⟩
/-- R334. -/
def CAP_CH_LOST_COUNT : Fld := ⟨0x118, 0, 32, .ro, 0⟩
/-- R334. -/
def CAP_CH_STATE_PHASE : Fld := ⟨0x11c, 0, 2, .ro, 0⟩
/-- R334. -/
def CAP_CH_STATE_ZEROING : Fld := ⟨0x11c, 2, 1, .ro, 0⟩
/-- R334. -/
def CAP_DATA_ERR_COUNT : Fld := ⟨0x120, 0, 32, .ro, 0⟩
/-- R334. -/
def CAP_STATUS_SRC_DENIED : Fld := ⟨0x124, 0, 1, .rw1c, 0⟩
/-- R334. -/
def CAP_STATUS_PW_REFUSED : Fld := ⟨0x124, 1, 1, .rw1c, 0⟩
/-- R334. -/
def CAP_ARM_POST_COUNT (c : Nat) : Fld := ⟨0x140 + 16 * c, 0, 9, .rw, 0x80⟩
/-- R334. -/
def CAP_ARM_SEGMENTS_M1 (c : Nat) : Fld := ⟨0x140 + 16 * c, 9, 4, .rw, 0⟩
/-- R334. -/
def CAP_ARM_REARM (c : Nat) : Fld := ⟨0x140 + 16 * c, 13, 2, .rw, 0⟩
/-- R334. -/
def CAP_ARM_POST_LIMIT (c : Nat) : Fld := ⟨0x140 + 16 * c, 16, 14, .rw, 0⟩
/-- R334. -/
def CAP_ARM_GO (c : Nat) : Fld := ⟨0x140 + 16 * c, 30, 1, .wo, 0⟩
/-- R334. -/
def CAP_ARM_DISARM (c : Nat) : Fld := ⟨0x140 + 16 * c, 31, 1, .wo, 0⟩
/-- R334. -/
def CAP_CSTATUS_STATE (c : Nat) : Fld := ⟨0x144 + 16 * c, 0, 2, .ro, 0⟩
/-- R334. -/
def CAP_CSTATUS_DONE (c : Nat) : Fld := ⟨0x144 + 16 * c, 2, 1, .rw1c, 0⟩
/-- R334. -/
def CAP_CSTATUS_REASON (c : Nat) : Fld := ⟨0x144 + 16 * c, 3, 4, .ro, 0⟩
/-- R334. -/
def CAP_CSTATUS_SEGMENT (c : Nat) : Fld := ⟨0x144 + 16 * c, 12, 4, .ro, 0⟩
/-- R334. -/
def CAP_CSTATUS_CAPTURES (c : Nat) : Fld := ⟨0x144 + 16 * c, 16, 16, .ro, 0⟩
/-- R334. -/
def CAP_CHARGE_MBS (c : Nat) : Fld := ⟨0x148 + 16 * c, 0, 21, .ro, 0⟩
/-- R334. -/
def CAP_CHARGE_ALLOW (c : Nat) : Fld := ⟨0x148 + 16 * c, 21, 11, .rw, 0⟩
/-- R334. -/
def CAP_MISSED_POST (c : Nat) : Fld := ⟨0x14c + 16 * c, 0, 16, .ro, 0⟩
/-- R334. -/
def CAP_MISSED_REARM (c : Nat) : Fld := ⟨0x14c + 16 * c, 16, 16, .ro, 0⟩
/-- R334. -/
def CAP_CH_CFG_EN (ch : Nat) : Fld := ⟨0x300 + 16 * ch, 0, 1, .rw, 0⟩
/-- R334. -/
def CAP_CH_CFG_TYPE (ch : Nat) : Fld := ⟨0x300 + 16 * ch, 1, 3, .rw, 0⟩
/-- R334. -/
def CAP_CH_CFG_OWNER (ch : Nat) : Fld := ⟨0x300 + 16 * ch, 4, 5, .rw, 0x10⟩
/-- R334. -/
def CAP_CH_CFG_SRC (ch : Nat) : Fld := ⟨0x300 + 16 * ch, 9, 23, .rw, 0⟩
/-- R334. -/
def CAP_CH_OFFSET_PAGES (ch : Nat) : Fld := ⟨0x304 + 16 * ch, 0, 25, .rw, 0⟩
/-- R334. -/
def CAP_CH_PAGES_PAGES (ch : Nat) : Fld := ⟨0x308 + 16 * ch, 0, 25, .rw, 0⟩
/-- R334. -/
def CAP_CH_PAGES_EV_RATE (ch : Nat) : Fld := ⟨0x308 + 16 * ch, 25, 7, .rw, 0⟩
/-- R334. -/
def CAP_CH_PARAM_PARAM (ch : Nat) : Fld := ⟨0x30c + 16 * ch, 0, 32, .rw, 0⟩
/-- R353. -/
def TRC_AUTH_RIGHTS : Fld := ⟨0x100, 0, 5, .ro, 0⟩
/-- R353. -/
def TRC_AUTH_MODE : Fld := ⟨0x100, 8, 1, .ro, 0⟩
/-- R353. -/
def TRC_AUTH_DISABLED : Fld := ⟨0x100, 9, 1, .ro, 0⟩
/-- R353. -/
def TRC_AUTH_PARTITIONS : Fld := ⟨0x100, 16, 16, .ro, 0⟩
/-- R353. -/
def TRC_AUTH_CTRL_DISABLE : Fld := ⟨0x104, 0, 1, .wo, 0⟩
/-- R353. -/
def TRC_EXPIRES_NS : Fld := ⟨0x108, 0, 64, .ro, 0⟩
/-- R353. -/
def TRC_TOKENS_OK_COUNT : Fld := ⟨0x110, 0, 32, .ro, 0⟩
/-- R353. -/
def TRC_TOKENS_REFUSED_COUNT : Fld := ⟨0x114, 0, 32, .ro, 0⟩
/-- R353. -/
def TRC_LAST_REFUSAL_STATUS : Fld := ⟨0x118, 0, 8, .ro, 0⟩
/-- R354. -/
def TRC_S_CFG_EN (s : Nat) : Fld := ⟨0x180 + 0x60 * s, 0, 1, .rw, 0⟩
/-- R354. -/
def TRC_S_CFG_SOURCES (s : Nat) : Fld := ⟨0x180 + 0x60 * s, 1, 5, .rw, 0⟩
/-- R354. -/
def TRC_S_CFG_SINK (s : Nat) : Fld := ⟨0x180 + 0x60 * s, 6, 1, .rw, 0⟩
/-- R354. -/
def TRC_S_CFG_WRAP (s : Nat) : Fld := ⟨0x180 + 0x60 * s, 7, 1, .rw, 1⟩
/-- R354. -/
def TRC_S_CFG_START_ON (s : Nat) : Fld := ⟨0x180 + 0x60 * s, 8, 1, .rw, 1⟩
/-- R354. -/
def TRC_S_CFG_CNT_UNIT (s : Nat) : Fld := ⟨0x180 + 0x60 * s, 9, 2, .rw, 0⟩
/-- R354. -/
def TRC_S_CFG_REPEAT (s : Nat) : Fld := ⟨0x180 + 0x60 * s, 11, 1, .rw, 1⟩
/-- R354. -/
def TRC_S_CFG_SYNC_EXP (s : Nat) : Fld := ⟨0x180 + 0x60 * s, 12, 4, .rw, 0xa⟩
/-- R354. -/
def TRC_S_STATUS_STATE (s : Nat) : Fld := ⟨0x184 + 0x60 * s, 0, 2, .ro, 0⟩
/-- R354. -/
def TRC_S_STATUS_ON (s : Nat) : Fld := ⟨0x184 + 0x60 * s, 2, 1, .ro, 0⟩
/-- R354. -/
def TRC_S_STATUS_FULL (s : Nat) : Fld := ⟨0x184 + 0x60 * s, 3, 1, .rw1c, 0⟩
/-- R354. -/
def TRC_S_STATUS_SRC_DENIED (s : Nat) : Fld := ⟨0x184 + 0x60 * s, 4, 1, .rw1c, 0⟩
/-- R354. -/
def TRC_S_STATUS_REVOKED (s : Nat) : Fld := ⟨0x184 + 0x60 * s, 5, 1, .rw1c, 0⟩
/-- R354. -/
def TRC_S_STATUS_SINK_REFUSED (s : Nat) : Fld := ⟨0x184 + 0x60 * s, 6, 1, .rw1c, 0⟩
/-- R354. -/
def TRC_S_BASE_ADDR (s : Nat) : Fld := ⟨0x188 + 0x60 * s, 0, 64, .rw, 0⟩
/-- R354. -/
def TRC_S_SIZE_PAGES (s : Nat) : Fld := ⟨0x190 + 0x60 * s, 0, 24, .rw, 0⟩
/-- R354. -/
def TRC_S_WR_PTR_BLOCK (s : Nat) : Fld := ⟨0x194 + 0x60 * s, 0, 28, .ro, 0⟩
/-- R354. -/
def TRC_S_RD_PTR_BLOCK (s : Nat) : Fld := ⟨0x198 + 0x60 * s, 0, 28, .rw, 0⟩
/-- R354. -/
def TRC_S_LOST_COUNT (s : Nat) : Fld := ⟨0x19c + 0x60 * s, 0, 32, .ro, 0⟩
/-- R354. -/
def TRC_S_DSEL_CLUSTER (s i : Nat) : Fld := ⟨0x1a0 + 0x60 * s, 8 * i, 6, .rw, 0⟩
/-- R354. -/
def TRC_S_DSEL_V (s i : Nat) : Fld := ⟨0x1a0 + 0x60 * s, 8 * i + 7, 1, .rw, 0⟩
/-- R354. -/
def TRC_S_CNT_LIMIT_LIMIT (s : Nat) : Fld := ⟨0x1a4 + 0x60 * s, 0, 32, .rw, 0⟩
/-- R354. -/
def TRC_S_CNT_MASK_MASK (s : Nat) : Fld := ⟨0x1a8 + 0x60 * s, 0, 32, .rw, 0⟩
/-- R354. -/
def TRC_S_MARK_VALUE (s : Nat) : Fld := ⟨0x1ac + 0x60 * s, 0, 16, .wo, 0⟩
/-- R354. -/
def TRC_S_TRANS_COMP (s j t : Nat) : Fld := ⟨0x1b0 + 0x60 * s + 8 * j + 4 * t, 0, 5, .rw, 0⟩
/-- R354. -/
def TRC_S_TRANS_COND (s j t : Nat) : Fld := ⟨0x1b0 + 0x60 * s + 8 * j + 4 * t, 5, 1, .rw, 0⟩
/-- R354. -/
def TRC_S_TRANS_NEXT (s j t : Nat) : Fld := ⟨0x1b0 + 0x60 * s + 8 * j + 4 * t, 6, 2, .rw, 0⟩
/-- R354. -/
def TRC_S_TRANS_ACT (s j t : Nat) : Fld := ⟨0x1b0 + 0x60 * s + 8 * j + 4 * t, 8, 2, .rw, 0⟩
/-- R354. -/
def TRC_S_TRANS_V (s j t : Nat) : Fld := ⟨0x1b0 + 0x60 * s + 8 * j + 4 * t, 10, 1, .rw, 0⟩
/-- R354. -/
def TRC_S_COUNT_COUNT (s : Nat) : Fld := ⟨0x1d0 + 0x60 * s, 0, 32, .ro, 0⟩
/-- R354. -/
def TRC_S_BLOCKS_COUNT (s : Nat) : Fld := ⟨0x1d4 + 0x60 * s, 0, 32, .ro, 0⟩
/-- R374. -/
def IME_KEYSTATE_KEY_VALID : Fld := ⟨0x100, 0, 1, .ro, 0⟩
/-- R374. -/
def IME_KEYSTATE_ROLLING : Fld := ⟨0x100, 1, 1, .ro, 0⟩
/-- R374. -/
def IME_GEN_NEWEST : Fld := ⟨0x104, 0, 32, .ro, 0⟩
/-- R374. -/
def IME_INTEG_ERR_COUNT : Fld := ⟨0x110, 0, 32, .ro, 0⟩
/-- R374. -/
def IME_ERR_ADDR_ADDR : Fld := ⟨0x118, 0, 64, .ro, 0⟩
/-- R374. -/
def IME_ERR_INFO_LEVEL : Fld := ⟨0x120, 0, 2, .ro, 0⟩
/-- R374. -/
def IME_ERR_INFO_WRITE : Fld := ⟨0x120, 2, 1, .ro, 0⟩
/-- R374. -/
def IME_ERR_INFO_PART : Fld := ⟨0x120, 3, 4, .ro, 0⟩
/-- R374. -/
def IME_ERR_INFO_DEVLVL : Fld := ⟨0x120, 7, 1, .ro, 0⟩
/-- R374. -/
def IME_ERR_INFO_VALID : Fld := ⟨0x120, 31, 1, .rw1c, 0⟩
/-- R374. -/
def IME_CTRL_CLR_COUNTS : Fld := ⟨0x124, 0, 1, .wo, 0⟩
/-- R374. -/
def IME_LOOKUPS_COUNT (q : Nat) : Fld := ⟨0x140 + 32 * q, 0, 64, .ro, 0⟩
/-- R374. -/
def IME_MISSES_COUNT (q : Nat) : Fld := ⟨0x148 + 32 * q, 0, 64, .ro, 0⟩
/-- R374. -/
def IME_WRITEBACKS_COUNT (q : Nat) : Fld := ⟨0x150 + 32 * q, 0, 64, .ro, 0⟩
/-- R374. -/
def IME_META_BYTES_COUNT (q : Nat) : Fld := ⟨0x158 + 32 * q, 0, 64, .ro, 0⟩
/-- R375. -/
def KRE_CFG_RATE : Fld := ⟨0x100, 0, 8, .rw, 0x40⟩
/-- R375. -/
def KRE_CFG_THRESH_EXP : Fld := ⟨0x100, 8, 6, .rw, 0x2e⟩
/-- R375. -/
def KRE_CFG_AUTO : Fld := ⟨0x100, 14, 1, .rw, 1⟩
/-- R375. -/
def KRE_CMD_ROLL : Fld := ⟨0x104, 0, 1, .wo, 0⟩
/-- R375. -/
def KRE_STATUS_STATE : Fld := ⟨0x108, 0, 2, .ro, 0⟩
/-- R375. -/
def KRE_STATUS_PENDING : Fld := ⟨0x108, 2, 1, .ro, 0⟩
/-- R375. -/
def KRE_STATUS_PAUSED_SNAP : Fld := ⟨0x108, 3, 1, .ro, 0⟩
/-- R375. -/
def KRE_STATUS_LAST_CAUSE : Fld := ⟨0x108, 4, 2, .ro, 0⟩
/-- R375. -/
def KRE_BOUNDARY_SECTOR : Fld := ⟨0x10c, 0, 25, .ro, 0⟩
/-- R375. -/
def KRE_ROLLS_COUNT : Fld := ⟨0x110, 0, 32, .ro, 0⟩
/-- R375. -/
def KRE_LAST_US_US : Fld := ⟨0x114, 0, 32, .ro, 0⟩
/-- R375. -/
def KRE_BLOCKS_COUNT : Fld := ⟨0x118, 0, 64, .ro, 0⟩
/-- R398. -/
def PMU_QSTATE_Q (q : Nat) : Fld := ⟨0x100, 2 * q, 2, .ro, 2⟩
/-- R398. -/
def PMU_CSTATE_CLU (n : Nat) : Fld := ⟨0x104 + 4 * (n / 16), 2 * (n % 16), 2, .ro, 2⟩
/-- R398. -/
def PMU_POLICY_IDLE_DELAY : Fld := ⟨0x120, 0, 16, .rw, 0x64⟩
/-- R398. -/
def PMU_POLICY_OFF_DELAY : Fld := ⟨0x120, 16, 16, .rw, 0x3e8⟩
/-- R398. -/
def PMU_VIN_MV : Fld := ⟨0x130, 0, 16, .ro, 0⟩
/-- R398. -/
def PMU_VIN_DW : Fld := ⟨0x130, 16, 16, .ro, 0⟩
/-- R398. -/
def PMU_TEMP_Q (q : Nat) : Fld := ⟨0x134, 8 * q, 8, .ro, 0⟩
/-- R398. -/
def PMU_TEMP_HUB_HUB : Fld := ⟨0x138, 0, 8, .ro, 0⟩
/-- R398. -/
def CKG_STATUS_OSC_OK : Fld := ⟨0x100, 0, 1, .ro, 0⟩
/-- R398. -/
def CKG_STATUS_CORE_LOCK : Fld := ⟨0x100, 1, 1, .ro, 0⟩
/-- R398. -/
def CKG_STATUS_HBM_LOCK : Fld := ⟨0x100, 2, 4, .ro, 0⟩
/-- R398. -/
def CKG_STATUS_REFCLK : Fld := ⟨0x100, 6, 1, .ro, 0⟩
/-- R398. -/
def CKG_STATUS_HOLDOVER : Fld := ⟨0x100, 7, 1, .ro, 0⟩
/-- R398. -/
def CKG_STATUS_LANE_LOCK : Fld := ⟨0x100, 16, 16, .ro, 0⟩
/-- R398. -/
def CKG_HOLDOVERS_COUNT : Fld := ⟨0x104, 0, 32, .ro, 0⟩
/-- R399. -/
def AON_WAKE_CFG_TRIG : Fld := ⟨0x100, 0, 8, .rw, 0⟩
/-- R399. -/
def AON_WAKE_CFG_STRING : Fld := ⟨0x100, 8, 1, .rw, 0⟩
/-- R399. -/
def AON_WAKE_CFG_ON_STOP : Fld := ⟨0x100, 9, 1, .rw, 1⟩
/-- R399. -/
def AON_WAKE_CAUSE_TRIG : Fld := ⟨0x104, 0, 8, .rw1c, 0⟩
/-- R399. -/
def AON_WAKE_CAUSE_STRING : Fld := ⟨0x104, 8, 1, .rw1c, 0⟩
/-- R399. -/
def AON_WAKE_CAUSE_STOP : Fld := ⟨0x104, 9, 1, .rw1c, 0⟩
/-- R399. -/
def AON_WAKE_CAUSE_VIN48 : Fld := ⟨0x104, 10, 1, .rw1c, 0⟩
/-- R399. -/
def AON_WAKE_CAUSE_ASSERTED : Fld := ⟨0x104, 31, 1, .ro, 0⟩
/-- R399. -/
def RST_CAUSE_LAST : Fld := ⟨0x100, 0, 3, .ro, 0⟩
/-- R399. -/
def RST_PERST_COUNT_COUNT : Fld := ⟨0x104, 0, 32, .ro, 0⟩
/-- R399. -/
def RST_CTRL_DEVICE : Fld := ⟨0x108, 0, 1, .wo, 0⟩
/-- R399. -/
def RST_PTN_RESET_MASK : Fld := ⟨0x10c, 0, 16, .wo, 0⟩
/-- R399. -/
def RST_PTN_STATUS_BUSY : Fld := ⟨0x110, 0, 16, .ro, 0⟩
/-- R399. -/
def WDN_CFG_TIMEOUT_MS : Fld := ⟨0x100, 0, 16, .rw, 0x64⟩
/-- R399. -/
def WDN_CFG_GRACE_MS : Fld := ⟨0x100, 16, 8, .rw, 0xa⟩
/-- R399. -/
def WDN_STATUS_STATE : Fld := ⟨0x104, 0, 3, .ro, 0⟩
/-- R399. -/
def WDN_STATUS_STOP_CAUSE : Fld := ⟨0x104, 4, 3, .ro, 0⟩
/-- R399. -/
def WDN_STATUS_GRACE_COUNT : Fld := ⟨0x104, 8, 8, .ro, 0⟩
/-- R399. -/
def WDN_HEARTBEAT_COUNT : Fld := ⟨0x108, 0, 32, .ro, 0⟩
/-- R399. -/
def WDN_CTRL_STOP : Fld := ⟨0x10c, 0, 1, .wo, 0⟩
/-- R399. -/
def WDN_STOP_TIME_NS : Fld := ⟨0x110, 0, 64, .ro, 0⟩
/-- R400. -/
def STR_CFG_EN : Fld := ⟨0x100, 0, 1, .rw, 0⟩
/-- R400. -/
def STR_CFG_ROOT : Fld := ⟨0x100, 1, 1, .rw, 0⟩
/-- R400. -/
def STR_CFG_RESET_EN : Fld := ⟨0x100, 2, 1, .rw, 1⟩
/-- R400. -/
def STR_CFG_DISCOVER : Fld := ⟨0x100, 3, 1, .wo, 0⟩
/-- R400. -/
def STR_STATUS_STATE : Fld := ⟨0x104, 0, 2, .ro, 0⟩
/-- R400. -/
def STR_STATUS_DEVICE : Fld := ⟨0x104, 2, 9, .ro, 0x1ff⟩
/-- R400. -/
def STR_STATUS_OVERFLOW : Fld := ⟨0x104, 11, 1, .rw1c, 0⟩
/-- R400. -/
def STR_STATUS_MEMBERS : Fld := ⟨0x104, 16, 10, .ro, 0⟩
/-- R400. -/
def STR_RX_FRAMES_COUNT : Fld := ⟨0x108, 0, 32, .ro, 0⟩
/-- R400. -/
def STR_CRC_ERR_COUNT : Fld := ⟨0x10c, 0, 32, .ro, 0⟩
/-- R400. -/
def STR_RESET_REQ_TARGET : Fld := ⟨0x110, 0, 9, .rw, 0⟩
/-- R400. -/
def STR_RESET_REQ_GO : Fld := ⟨0x110, 31, 1, .wo, 0⟩
/-- R415. -/
def LOG_CFG_LOG_CE : Fld := ⟨0x100, 0, 1, .rw, 0⟩
/-- R415. -/
def LOG_CFG_TO_QUEUE : Fld := ⟨0x100, 1, 1, .rw, 1⟩
/-- R415. -/
def LOG_STATUS_AON_ONLY : Fld := ⟨0x104, 0, 1, .ro, 0⟩
/-- R415. -/
def LOG_STATUS_WRAPPED : Fld := ⟨0x104, 1, 1, .rw1c, 0⟩
/-- R415. -/
def LOG_STATUS_HEAD : Fld := ⟨0x104, 16, 11, .ro, 0⟩
/-- R415. -/
def LOG_ENTRIES_COUNT : Fld := ⟨0x108, 0, 32, .ro, 0⟩
/-- R415. -/
def LOG_SRAM_CE_COUNT : Fld := ⟨0x10c, 0, 32, .ro, 0⟩
/-- R415. -/
def LOG_WIN_BASE : Fld := ⟨0x110, 0, 6, .rw, 0⟩
/-- R415. -/
def LOG_CTRL_CLEAR : Fld := ⟨0x114, 0, 1, .wo, 0⟩
/-- R416. -/
def AON_LG_STATUS_USED : Fld := ⟨0x108, 0, 4, .ro, 0⟩
/-- R416. -/
def AON_LG_STATUS_LOST : Fld := ⟨0x108, 8, 8, .ro, 0⟩
/-- R416. -/
def AON_LG_CTRL_CLEAR : Fld := ⟨0x10c, 0, 1, .wo, 0⟩
/-- R417. -/
def MNT_HELD_KINDS : Fld := ⟨0x100, 0, 7, .ro, 0⟩
/-- R417. -/
def MNT_LAST_CONFLICT_REQUESTER : Fld := ⟨0x104, 0, 16, .ro, 0⟩
/-- R417. -/
def MNT_LAST_CONFLICT_HOLDER : Fld := ⟨0x104, 16, 16, .ro, 0⟩
/-- R417. -/
def MNT_GRANTS_COUNT : Fld := ⟨0x108, 0, 32, .ro, 0⟩
/-- R417. -/
def MNT_CONFLICTS_COUNT : Fld := ⟨0x10c, 0, 32, .ro, 0⟩
/-- R417. -/
def MNT_MBIST_CLUSTER : Fld := ⟨0x110, 0, 6, .rw, 0⟩
/-- R417. -/
def MNT_MBIST_GO : Fld := ⟨0x110, 6, 1, .wo, 0⟩
/-- R417. -/
def MNT_MBIST_STATUS_STATE : Fld := ⟨0x114, 0, 2, .ro, 0⟩
/-- R417. -/
def MNT_MBIST_STATUS_REFUSED : Fld := ⟨0x114, 2, 1, .rw1c, 0⟩
/-- R417. -/
def MNT_HOLDER_ID (i : Nat) : Fld := ⟨0x200 + 4 * i, 0, 16, .ro, 0⟩
/-- R417. -/
def MNT_HOLDER_VALID (i : Nat) : Fld := ⟨0x200 + 4 * i, 31, 1, .ro, 0⟩
/-- R417. -/
def EVC_CTRL_RUN : Fld := ⟨0x400, 0, 1, .rw, 1⟩
/-- R417. -/
def EVC_CTRL_CLEAR_ALL : Fld := ⟨0x400, 1, 1, .wo, 0⟩
/-- R417. -/
def EVC_OVF_BITS : Fld := ⟨0x408, 0, 64, .rw1c, 0⟩
/-- R423. -/
def SLC_CAPWIN_CH : Fld := ⟨0x7f0, 0, 6, .rw, 0⟩
/-- R423. -/
def SLC_CAPWIN_DIR : Fld := ⟨0x7f0, 6, 1, .rw, 0⟩
/-- R423. -/
def SLC_CAPWIN_OFF_PAGES : Fld := ⟨0x7f4, 0, 25, .rw, 0⟩
/-- R434. -/
def DEV_UID_ID : Fld := ⟨0x100, 0, 64, .ro, 0⟩
/-- R434. -/
def DEV_STATE_BOOT : Fld := ⟨0x108, 0, 1, .ro, 1⟩
/-- R434. -/
def DEV_STATE_FULL : Fld := ⟨0x108, 1, 1, .ro, 0⟩
/-- R434. -/
def DEV_VEC_MAP_MAP (i : Nat) : Fld := ⟨0x400 + 4 * (i / 4), 8 * (i % 4), 8, .rw, 0x80⟩
/-- R434. -/
def PCI_LINK_SPEED : Fld := ⟨0x100, 0, 4, .ro, 0⟩
/-- R434. -/
def PCI_LINK_WIDTH : Fld := ⟨0x100, 4, 5, .ro, 0⟩
/-- R434. -/
def PCI_LINK_FLIT : Fld := ⟨0x100, 9, 1, .ro, 0⟩
/-- R434. -/
def PCI_BAR2_BASE_ADDR : Fld := ⟨0x108, 0, 64, .rw, 0⟩
/-- R434. -/
def PCI_CORR_ERR_COUNT : Fld := ⟨0x110, 0, 32, .ro, 0⟩
/-- R434. -/
def PCI_UNCORR_ERR_COUNT : Fld := ⟨0x114, 0, 32, .ro, 0⟩
/-- R434. -/
def PUP_CORE_STATE_STATE (c : Nat) : Fld := ⟨0x100 + 4 * c, 0, 2, .ro, 0⟩
/-- R434. -/
def HMC_STATUS_UP : Fld := ⟨0x100, 0, 1, .ro, 0⟩
/-- R434. -/
def HMC_STATUS_TEMP : Fld := ⟨0x100, 8, 8, .ro, 0⟩
/-- R434. -/
def HMC_ECC_CE_COUNT : Fld := ⟨0x104, 0, 32, .ro, 0⟩
/-- R434. -/
def HMC_ECC_UE_COUNT : Fld := ⟨0x108, 0, 32, .ro, 0⟩
/-- R434. -/
def HMC_QUOTA_ERR_COUNT : Fld := ⟨0x10c, 0, 32, .ro, 0⟩
/-- R124. -/
def CLU_FAB_PAR_CTRL_CLR_COUNT : Fld := ⟨0x228, 0, 1, .wo, 0⟩
/-- R298. -/
def PTN_QSEL_INDEX : Fld := ⟨0x780, 0, 13, .rw, 0⟩
/-- R298. -/
def PTN_QNOTIFY_QUEUE : Fld := ⟨0x794, 0, 13, .rw, 0⟩
/-- R298. -/
def PTN_QNOTIFY_EN : Fld := ⟨0x794, 13, 1, .rw, 0⟩
/-- R298. -/
def MQE_QSEL_INDEX : Fld := ⟨0x100, 0, 13, .rw, 0⟩
/-- R298. -/
def MQE_CFG_HOLD_LIMIT : Fld := ⟨0x120, 0, 16, .rw, 0x64⟩
/-- R298. -/
def MQE_CFG_POP_WAIT : Fld := ⟨0x120, 16, 6, .rw, 0⟩
/-- R298. -/
def MQE_POOL_FREE_BLOCKS : Fld := ⟨0x124, 0, 18, .ro, 0x20000⟩
/-- R307. -/
def PTN_WI_WORD (i : Nat) : Fld := ⟨0x740 + 8 * i, 0, 64, .rw, 0⟩
/-- R307. -/
def PTN_SUBMIT_OUTCOME : Fld := ⟨0x760, 0, 32, .ro, 0⟩
/-- R307. -/
def PTN_LIST_DEPTH : Fld := ⟨0x764, 0, 9, .ro, 0⟩
/-- R307. -/
def PTN_LIST_HWM : Fld := ⟨0x764, 9, 9, .ro, 0⟩
/-- R426. -/
def PG_IRQ_RAW : Fld := ⟨0x010, 0, 32, .ro, 0⟩
/-- R426. -/
def PG_IRQ_EN : Fld := ⟨0x014, 0, 32, .rw, 0⟩
/-- R426. -/
def PG_IRQ_STAT : Fld := ⟨0x018, 0, 32, .rw1c, 0⟩
/-- R426. -/
def PG_IRQ_FORCE : Fld := ⟨0x01c, 0, 32, .wo, 0⟩
/-- R275. -/
def PG_FENCE_ZERO : Fld := ⟨0x024, 0, 32, .ro, 0⟩
/-- R426. -/
def PG_ID_TYPE : Fld := ⟨0x000, 0, 8, .ro, 0⟩
/-- R426. -/
def PG_ID_INSTANCE : Fld := ⟨0x000, 8, 8, .ro, 0⟩
/-- R426. -/
def PG_ID_SUBPAGE : Fld := ⟨0x000, 16, 4, .ro, 0⟩
/-- R426. -/
def PG_ID_MARK : Fld := ⟨0x000, 20, 12, .ro, 0x5a6⟩
/-- R426. -/
def PG_VERSION_MINOR : Fld := ⟨0x004, 0, 8, .ro, 0⟩
/-- R426. -/
def PG_VERSION_MAJOR : Fld := ⟨0x004, 8, 8, .ro, 1⟩
/-- R413. -/
def PG_SEL_EVENT (i : Nat) : Fld := ⟨0x040 + 4 * i, 0, 10, .rw, 0x3ff⟩
/-- R413. -/
def PG_SEL_EN (i : Nat) : Fld := ⟨0x040 + 4 * i, 10, 1, .rw, 0⟩
/-- R413. -/
def PG_SEL_OVF (i : Nat) : Fld := ⟨0x040 + 4 * i, 31, 1, .rw1c, 0⟩
/-- R413. -/
def PG_CNT_COUNT (i : Nat) : Fld := ⟨0x050 + 8 * i, 0, 48, .ro, 0⟩
/-- R413. -/
def EVC_SEL_EVENT (k : Nat) : Fld := ⟨0x100 + 4 * k, 0, 10, .rw, 0x3ff⟩
/-- R413. -/
def EVC_SEL_EN (k : Nat) : Fld := ⟨0x100 + 4 * k, 10, 1, .rw, 0⟩
/-- R413. -/
def EVC_SEL_OVF (k : Nat) : Fld := ⟨0x100 + 4 * k, 31, 1, .rw1c, 0⟩
/-- R413. -/
def EVC_CNT_COUNT (k : Nat) : Fld := ⟨0x200 + 8 * k, 0, 48, .ro, 0⟩

/-- The fields of the CLU page tables (PG: the common registers every page carries; WIN: CLU pages 1 to 15; SLC: the two registers a capture slice adds). -/
def fldsCLU : List Fld :=
  [CLU_BPI_CE_COUNT_COUNT, CLU_BPI_UE_COUNT_COUNT, CLU_BPI_ERR_LAST_ADDR, CLU_BPI_ERR_LAST_BP, CLU_BPI_ERR_LAST_TILE, CLU_BPI_ERR_LAST_UE] ++
  [CLU_BPI_ERR_LAST_SYNDROME, CLU_BPI_ERR_LAST_OVERFLOW, CLU_BPI_ERR_LAST_VALID, CLU_BPI_ECC_CTRL_CLR_COUNTS, CLU_WLI_CE_COUNT_COUNT, CLU_WLI_UE_COUNT_COUNT] ++
  [CLU_WLI_ERR_LAST_ADDR, CLU_WLI_ERR_LAST_WALU, CLU_WLI_ERR_LAST_TILE, CLU_WLI_ERR_LAST_UE, CLU_WLI_ERR_LAST_SYNDROME, CLU_WLI_ERR_LAST_OVERFLOW] ++
  [CLU_WLI_ERR_LAST_VALID, CLU_WLI_ECC_CTRL_CLR_COUNTS, CLU_FAB_PAR_COUNT_COUNT, CLU_FAB_ERR_LAST_ADDR, CLU_FAB_ERR_LAST_TILE, CLU_FAB_ERR_LAST_PORT] ++
  [CLU_FAB_ERR_LAST_MESH, CLU_FAB_ERR_LAST_VALID, CLU_DMEM_CE_COUNT_COUNT, CLU_DMEM_UE_COUNT_COUNT, CLU_DMEM_ERR_LAST_ROW, CLU_DMEM_ERR_LAST_BLOCK] ++
  [CLU_DMEM_ERR_LAST_UE, CLU_DMEM_ERR_LAST_VALID, CLU_DMEM_ECC_CTRL_CLR_COUNTS, CLU_FAB_PAR_CTRL_CLR_COUNT] ++
  ((List.range 8).flatMap (fun j => [CLU_MESH_TRANSIT_ROUTE j, CLU_MESH_TRANSIT_OWNER j])) ++
  ((List.range 8).flatMap (fun m => [CLU_DMEM_CFG_WIDTH m, CLU_DMEM_CFG_EN m])) ++
  ((List.range 8).flatMap (fun m => (List.range 16).flatMap (fun e => [CLU_DMEM_EV_STEP m e, CLU_DMEM_EV_PORT m e, CLU_DMEM_EV_MODE m e, CLU_DMEM_EV_TILE m e, CLU_DMEM_EV_ADDR m e, CLU_DMEM_EV_V m e]))) ++
  ((List.range 8).flatMap (fun m => (List.range 16).flatMap (fun e => [CLU_DMEM_EV_DATA m e, CLU_DMEM_EV_CEN m e, CLU_DMEM_EV_COND m e]))) ++
  ((List.range 4).flatMap (fun f => [CLU_FMP_V f, CLU_FMP_DIR f, CLU_FMP_SIZE f, CLU_FMP_REGION f, CLU_FMP_TILE f, CLU_FMP_ISSUE f])) ++
  ((List.range 4).flatMap (fun f => [CLU_FMP_USE f, CLU_FMP_ADDR f, CLU_FMP_DATA f, CLU_FMP_CEN f, CLU_FMP_COND f, CLU_FMP_PENDING f])) ++
  ((List.range 8).flatMap (fun x => [CLU_TXP_V x, CLU_TXP_DIR x, CLU_TXP_FENCE x, CLU_TXP_QUEUE x, CLU_TXP_TILE x, CLU_TXP_STEP x])) ++
  ((List.range 8).flatMap (fun x => [CLU_TXP_DATA x, CLU_TXP_MARK x, CLU_TXP_COND x, CLU_TXP_CEN x, CLU_TXP_HELD x]))

/-- The fields of the PTN page tables (PG: the common registers every page carries; WIN: CLU pages 1 to 15; SLC: the two registers a capture slice adds). -/
def fldsPTN : List Fld :=
  [PTN_SEQ_CMD_CMD, PTN_SEQ_STATUS_STATE, PTN_SEQ_STATUS_STALLED, PTN_SEQ_STATUS_STALL_SRC, PTN_SEQ_STATUS_FREEZE_PENDING, PTN_SEQ_STATUS_LOADED] ++
  [PTN_SEQ_STATUS_HOST_MODIFIED, PTN_SEQ_STATUS_CASCADE_LIMIT, PTN_SEQ_STATUS_ESCALATED, PTN_SEQ_STATUS_CMD_ERR, PTN_SEQ_STATUS_FREEZE_CAUSE, PTN_STEP_COUNT_COUNT] ++
  [PTN_FREEZE_CFG_TRG_EN, PTN_FREEZE_CFG_SYS_EN, PTN_FREEZE_CFG_TIMEOUT, PTN_SEQ_CFG_LINKED, PTN_SEQ_CFG_EXTENDED, PTN_POSITION_STEP] ++
  [PTN_POSITION_EDGE_SET, PTN_POSITION_PASS, PTN_POSITION_IN_CYCLE, PTN_CYCLE_COUNT, PTN_ETIME_PS, PTN_RUN_LIMIT_LIMIT] ++
  [PTN_STALL_STEPS_COUNT, PTN_SNAP_CMD_CMD, PTN_SNAP_STATUS_STATE, PTN_SNAP_STATUS_RESULT, PTN_SNAP_STATUS_DONE, PTN_SNAP_STATUS_PROGRESS] ++
  [PTN_SNAP_CFG_FAR, PTN_SNAP_CFG_AUTO, PTN_SNAP_BASE_ADDR, PTN_SNAP_SIZE_BYTES, PTN_SNAP_CYCLE_COUNT, PTN_LINK_CFG_HORIZON] ++
  [PTN_LINK_CFG_LEAD, PTN_LOAD_ADDR_ADDR, PTN_LOAD_COUNT_COUNT, PTN_LOAD_CMD_CMD, PTN_LOAD_STATUS_BUSY, PTN_LOAD_STATUS_REASON] ++
  [PTN_LOAD_STATUS_DONE, PTN_LOAD_STATUS_TABLES_MISSING, PTN_LOAD_STATUS_INDEX, PTN_LOAD_SEQ_SEQ, PTN_FRAMES_OK_COUNT, PTN_FRAMES_REFUSED_COUNT] ++
  [PTN_RECEIVED_COUNT, PTN_EXPECTED_FRAMES, PTN_IMAGE_ID_ID, PTN_ORIGIN_ID, PTN_UPSET_POLICY, PTN_UPSET_MARK] ++
  [PTN_UPSET_COUNT, PTN_QSEL_INDEX, PTN_QNOTIFY_QUEUE, PTN_QNOTIFY_EN, PTN_SUBMIT_OUTCOME, PTN_LIST_DEPTH] ++
  [PTN_LIST_HWM] ++
  ((List.range 64).flatMap (fun i => [PTN_SEG_START i, PTN_SEG_LEN_M1 i, PTN_SEG_EDGE_SET i, PTN_SEG_VALID i])) ++
  ((List.range 32).flatMap (fun e => [PTN_ES_RISE e, PTN_ES_FALL e])) ++
  ((List.range 32).flatMap (fun i => [PTN_CLK_PERIOD i, PTN_CLK_PHASE i, PTN_CLK_HIGH i, PTN_CLK_TYPE i, PTN_CLK_CLUSTER i, PTN_CLK_TILE i])) ++
  ((List.range 32).flatMap (fun i => [PTN_CLK_ENTRY i])) ++
  ((List.range 16).flatMap (fun r => [PTN_FREGION_BASE r, PTN_FREGION_LOG2SIZE r])) ++
  ((List.range 4).flatMap (fun i => [PTN_WI_WORD i]))

/-- The fields of the WIN page tables (PG: the common registers every page carries; WIN: CLU pages 1 to 15; SLC: the two registers a capture slice adds). -/
def fldsWIN : List Fld :=
  [WIN_WIN_SEL_CLASS, WIN_WIN_SEL_TILE, WIN_WIN_SEL_BLOCK, WIN_WIN_BASE_OFFSET, WIN_WIN_STATUS_DENIED, WIN_WIN_STATUS_BUSY] ++
  [WIN_WIN_STATUS_RANGE]

/-- The fields of the PG page tables (PG: the common registers every page carries; WIN: CLU pages 1 to 15; SLC: the two registers a capture slice adds). -/
def fldsPG : List Fld :=
  [PG_SNAP_CTRL_EN, PG_SNAP_CTRL_KEEP, PG_SNAP_CTRL_VALID, PG_SNAP_CTRL_MISSED, PG_SNAP_CTRL_SEQ, PG_IRQ_RAW] ++
  [PG_IRQ_EN, PG_IRQ_STAT, PG_IRQ_FORCE, PG_FENCE_ZERO, PG_ID_TYPE, PG_ID_INSTANCE] ++
  [PG_ID_SUBPAGE, PG_ID_MARK, PG_VERSION_MINOR, PG_VERSION_MAJOR] ++
  ((List.range 4).flatMap (fun i => [PG_SEL_EVENT i, PG_SEL_EN i, PG_SEL_OVF i, PG_CNT_COUNT i]))

/-- The fields of the SNP page tables (PG: the common registers every page carries; WIN: CLU pages 1 to 15; SLC: the two registers a capture slice adds). -/
def fldsSNP : List Fld :=
  [SNP_STROBE_GO, SNP_SRC_EN_TRG, SNP_SRC_EN_REG, SNP_SRC_EN_STRING, SNP_SRC_EN_TX_STRING, SNP_STATUS_SEQ] ++
  [SNP_STATUS_LAST_SRC, SNP_STATUS_MERGED, SNP_STAMP_NS]

/-- The fields of the DEV page tables (PG: the common registers every page carries; WIN: CLU pages 1 to 15; SLC: the two registers a capture slice adds). -/
def fldsDEV : List Fld :=
  [DEV_UID_ID, DEV_STATE_BOOT, DEV_STATE_FULL] ++
  ((List.range 16).flatMap (fun p => [DEV_DIR_STATE p, DEV_DIR_RESTORE_DUE p, DEV_DIR_VF p, DEV_DIR_LINKED p, DEV_DIR_CLUSTERS p, DEV_DIR_MASK p])) ++
  ((List.range 16).flatMap (fun p => [DEV_DIR_QBASE p, DEV_DIR_QCOUNT p])) ++
  ((List.range 128).flatMap (fun i => [DEV_VEC_MAP_MAP i]))

/-- The fields of the LNK page tables (PG: the common registers every page carries; WIN: CLU pages 1 to 15; SLC: the two registers a capture slice adds). -/
def fldsLNK : List Fld :=
  [LNK_SYS_CTRL_FREEZE, LNK_SYS_CTRL_TRG_FWD, LNK_SYS_STATUS_FREQ_LOCK, LNK_SYS_STATUS_SEEN, LNK_SYS_STATUS_STEP_SKEW, LNK_SYS_STATUS_LATE_HOLD] ++
  [LNK_SYS_STATUS_SLOT_ERR, LNK_SYS_STATUS_UNALIGNED, LNK_SYS_STATUS_ORIGIN] ++
  ((List.range 16).flatMap (fun g => [LNK_BUDGET_BUDGET g, LNK_BUDGET_MEASURED g, LNK_BUDGET_OWNER g, LNK_BUDGET_SLOTS g, LNK_BUDGET_OVER g]))

/-- The fields of the LSC page tables (PG: the common registers every page carries; WIN: CLU pages 1 to 15; SLC: the two registers a capture slice adds). -/
def fldsLSC : List Fld :=
  [LSC_CFG_EN, LSC_CFG_PARTITION, LSC_CFG_MODE, LSC_CFG_LOST_MODE, LSC_CFG_SCRUB, LSC_CFG_WINDOW] ++
  [LSC_TIMEOUT_US, LSC_STATUS_LAG_HOLD, LSC_STATUS_MISMATCH, LSC_STATUS_REMOTE_MISMATCH, LSC_STATUS_PARTNER_LOST, LSC_STATUS_DIAG] ++
  [LSC_MISMATCH_CYCLE_COUNT, LSC_LOCAL_SIG_SIG, LSC_REMOTE_SIG_SIG, LSC_MISMATCH_COUNT_COUNT]

/-- The fields of the TSB page tables (PG: the common registers every page carries; WIN: CLU pages 1 to 15; SLC: the two registers a capture slice adds). -/
def fldsTSB : List Fld :=
  [TSB_CFG_ROLE, TSB_CFG_STRING_FB, TSB_STATUS_LOCKED, TSB_STATUS_HOLDING, TSB_STATUS_BACKSTEP, TSB_STATUS_EPOCH_INC] ++
  [TSB_STATUS_FWD_STEP, TSB_STATUS_ON_STRING, TSB_STATUS_MULTI_MASTER, TSB_STATUS_UPSTREAM, TSB_EPOCH_COUNT, TSB_TIME_NS] ++
  [TSB_FRAC_FRAC, TSB_SET_NS, TSB_OFFSET_NS]

/-- The fields of the FUS page tables (PG: the common registers every page carries; WIN: CLU pages 1 to 15; SLC: the two registers a capture slice adds). -/
def fldsFUS : List Fld :=
  [FUS_STATUS_OWNER_PROV, FUS_STATUS_OWNER_FAULT, FUS_SVN_COUNT, FUS_SVN_PM_TARGET, FUS_SVN_COMPLETED_AT_START, FUS_SVN_REBURNED] ++
  [FUS_PM_MAP_BITS, FUS_DONE_MAP_BITS] ++
  ((List.range 12).flatMap (fun i => [FUS_ROOT_HASH_WORD i, FUS_OWNER_HASH_WORD i]))

/-- The fields of the LDR page tables (PG: the common registers every page carries; WIN: CLU pages 1 to 15; SLC: the two registers a capture slice adds). -/
def fldsLDR : List Fld :=
  [LDR_BOOT_STATUS_STATE, LDR_BOOT_STATUS_UNCONFIRMED, LDR_BOOT_STATUS_LAST_REFUSAL, LDR_BOOT_STATUS_CONFIRM_RESULT, LDR_BOOT_STATUS_RUNNING_SVN, LDR_BUNDLE_VERSION_VERSION] ++
  [LDR_BOOT_ADDR_ADDR, LDR_BOOT_LEN_BYTES, LDR_BOOT_CMD_CMD, LDR_CONFIRM_GO, LDR_BUNDLE_ATTEMPTS_COUNT, LDR_BUNDLE_REFUSED_COUNT]

/-- The fields of the SCR page tables (PG: the common registers every page carries; WIN: CLU pages 1 to 15; SLC: the two registers a capture slice adds). -/
def fldsSCR : List Fld :=
  [SCR_CFG_RATE, SCR_CFG_DMEM, SCR_PASS_PARTITION, SCR_PASS_GO, SCR_PASS_STATUS_PASS_STATE, SCR_PASS_STATUS_UPSET_FOUND] ++
  [SCR_WALK_COUNT_COUNT, SCR_UE_ESSENTIAL_COUNT, SCR_UE_NONESSENTIAL_COUNT, SCR_RELOADS_COUNT, SCR_LAST_CLUSTER, SCR_LAST_TILE] ++
  [SCR_LAST_KIND, SCR_LAST_ESSENTIAL, SCR_LAST_FETCH, SCR_LAST_VALID]

/-- The fields of the LGRP page tables (PG: the common registers every page carries; WIN: CLU pages 1 to 15; SLC: the two registers a capture slice adds). -/
def fldsLGRP : List Fld :=
  [LGRP_CFG_EN, LGRP_CFG_MODE, LGRP_CFG_RATE, LGRP_CFG_MAX_VER, LGRP_CFG_TX_PRESET, LGRP_CFG_LANE_EN] ++
  [LGRP_STATUS_STATE, LGRP_STATUS_VER, LGRP_STATUS_LANE_LOCK, LGRP_STATUS_FAR_ALIGNED, LGRP_STATUS_ACQ_TIMEOUT, LGRP_STATUS_SKEW_ERR] ++
  [LGRP_STATUS_DOWN, LGRP_STATUS_DOWN_CAUSE, LGRP_STATUS_TEST_RESULT, LGRP_FAR_DEVICE, LGRP_FAR_GROUP, LGRP_FAR_VERSION] ++
  [LGRP_RTT_STEPS, LGRP_SLACK_MIN, LGRP_CW_TOTAL_COUNT, LGRP_CW_CORR_COUNT, LGRP_SYM_CORR_COUNT, LGRP_CW_UNCORR_COUNT] ++
  [LGRP_FLIT_CRC_ERR_COUNT, LGRP_RETRIES_COUNT, LGRP_DOWN_COUNT_COUNT, LGRP_CTL_ERR_COUNT, LGRP_SLOT_LATE_COUNT, LGRP_CNT_CTRL_CLR_COUNTS] ++
  [LGRP_CNT_CTRL_CLR_SLACK, LGRP_PRBS_CFG_POLY, LGRP_PRBS_CFG_GEN, LGRP_PRBS_CFG_CHK, LGRP_PRBS_CFG_INV, LGRP_PRBS_STATUS_LOCK] ++
  [LGRP_PRBS_STATUS_LOST, LGRP_PRBS_BITS_COUNT, LGRP_INJ_KIND, LGRP_INJ_TARGET, LGRP_INJ_LANES, LGRP_INJ_BURST_M1] ++
  [LGRP_INJ_RATE_EXP, LGRP_INJ_REFUSED, LGRP_INJ_GO, LGRP_LOOP_MODE, LGRP_FILL_WORD, LGRP_ALIGN_WORD] ++
  [LGRP_ALIGN_MASK_MASK, LGRP_BRIDGE_CFG_DROP_FILL, LGRP_BRIDGE_CFG_ALIGN_EN, LGRP_BRIDGE_CFG_OWNER, LGRP_BRIDGE_STATUS_ALIGNED, LGRP_BRIDGE_STATUS_Q_REFUSED] ++
  ((List.range 8).flatMap (fun l => [LGRP_SKEW_LANE l, LGRP_LANE_UNCORR_COUNT l, LGRP_PRBS_ERR_COUNT l, LGRP_BRIDGE_Q_TXQ l, LGRP_BRIDGE_Q_RXQ l, LGRP_BRIDGE_Q_TX_EN l])) ++
  ((List.range 8).flatMap (fun l => [LGRP_BRIDGE_Q_RX_EN l, LGRP_BRIDGE_DROP_COUNT l]))

/-- The fields of the NOC page tables (PG: the common registers every page carries; WIN: CLU pages 1 to 15; SLC: the two registers a capture slice adds). -/
def fldsNOC : List Fld :=
  [NOC_CFG_RSP_TIMEOUT, NOC_CFG_DRAIN_TIMEOUT, NOC_RT_SEL_PORT_ID, NOC_RT_SEL_INDEX, NOC_RT_CTRL_RT_ERR, NOC_RT_DATA_ENTRY] ++
  [NOC_HDR_CE_COUNT, NOC_HDR_UE_COUNT, NOC_PAY_CE_COUNT, NOC_PAY_UE_COUNT, NOC_UNREACH_COUNT, NOC_NO_ROUTE_COUNT] ++
  [NOC_TIMEOUTS_COUNT, NOC_LATE_RSP_COUNT, NOC_DRAIN_FORCED_COUNT, NOC_ERR_LAST_SRC, NOC_ERR_LAST_DST, NOC_ERR_LAST_VC] ++
  [NOC_ERR_LAST_KIND, NOC_ERR_LAST_X, NOC_ERR_LAST_Y, NOC_ERR_LAST_VALID, NOC_ERR_CTRL_CLR_COUNTS] ++
  ((List.range 64).flatMap (fun n => [NOC_NI_STATE_CLU n])) ++
  ((List.range 8).flatMap (fun k => [NOC_PCTL_X k, NOC_PCTL_Y k, NOC_PCTL_PORT k, NOC_PCTL_EN k, NOC_PCTL_TRACE k, NOC_PFILT_VC_MASK k])) ++
  ((List.range 8).flatMap (fun k => [NOC_PFILT_M_SRC k, NOC_PFILT_M_DST k, NOC_PFILT_M_PART k, NOC_PFILT_M_OP k, NOC_PFILT_SRC k, NOC_PFILT_DST k])) ++
  ((List.range 8).flatMap (fun k => [NOC_PFILT_PART k, NOC_POP_OP k, NOC_POP_OP_MASK k, NOC_PKTS_COUNT k, NOC_FLITS_COUNT k, NOC_DROPPED_COUNT k]))

/-- The fields of the DSP page tables (PG: the common registers every page carries; WIN: CLU pages 1 to 15; SLC: the two registers a capture slice adds). -/
def fldsDSP : List Fld :=
  [DSP_SUBMIT_OUTCOME, DSP_CFG_COMPAT, DSP_WAIT_LIMIT_US, DSP_HIST_SEL_LIST, DSP_CPL_LOST_COUNT, DSP_DISCARDED_COUNT] ++
  [DSP_CTRL_CLR] ++
  ((List.range 4).flatMap (fun i => [DSP_WI_WORD i])) ++
  ((List.range 17).flatMap (fun l => [DSP_LIST_DEPTH l, DSP_LIST_HWM l, DSP_REFUSED_COUNT l])) ++
  ((List.range 8).flatMap (fun b => [DSP_HIST_COUNT b]))

/-- The fields of the CRR page tables (PG: the common registers every page carries; WIN: CLU pages 1 to 15; SLC: the two registers a capture slice adds). -/
def fldsCRR : List Fld :=
  ((List.range 32).flatMap (fun c => [CRR_CSTATE_STATE c, CRR_CSTATE_LIST c, CRR_CSTATE_SLOT_FULL c, CRR_ITEMS_COUNT c, CRR_BUSY_US_COUNT c, CRR_WAIT_US_COUNT c]))

/-- The fields of the TRG page tables (PG: the common registers every page carries; WIN: CLU pages 1 to 15; SLC: the two registers a capture slice adds). -/
def fldsTRG : List Fld :=
  [TRG_SEQ_CTRL_OWNER, TRG_SEQ_CTRL_ARM, TRG_SEQ_CTRL_DISARM, TRG_SEQ_STATUS_LEVEL, TRG_SEQ_STATUS_ARMED, TRG_SEQ_STATUS_FIRED] ++
  [TRG_SEQ_STATUS_COUNT, TRG_STATUS_SRC_DENIED, TRG_STATUS_PIN_IN] ++
  ((List.range 32).flatMap (fun k => [TRG_CCFG_KIND k, TRG_CCFG_OWNER k, TRG_CCFG_EN k, TRG_CCFG_OP k, TRG_CCFG_ACT k, TRG_CSRC_SRC k])) ++
  ((List.range 32).flatMap (fun k => [TRG_CVALUE_VALUE k, TRG_CMASK_MASK k, TRG_CCOUNT_COUNT k])) ++
  ((List.range 8).flatMap (fun i => [TRG_LCFG_NEXT i, TRG_LCFG_ALL i, TRG_LCFG_STOP i, TRG_LCFG_ACT i, TRG_LCFG_COUNT_M1 i, TRG_HIT_MASK_MASK i])) ++
  ((List.range 8).flatMap (fun i => [TRG_RESTART_MASK_MASK i, TRG_LTIMEOUT_US i])) ++
  ((List.range 8).flatMap (fun j => [TRG_PIN_OUT j, TRG_PIN_OWNER j, TRG_PIN_INVERT j, TRG_PIN_LEVEL_MODE j, TRG_PIN_PULSE j]))

/-- The fields of the CAP page tables (PG: the common registers every page carries; WIN: CLU pages 1 to 15; SLC: the two registers a capture slice adds). -/
def fldsCAP : List Fld :=
  [CAP_PW_BASE_ADDR, CAP_PW_SIZE_PAGES, CAP_SLICE_USED_MBS, CAP_CH_SEL_CH, CAP_CH_BLOCKS_COUNT, CAP_CH_LOST_COUNT] ++
  [CAP_CH_STATE_PHASE, CAP_CH_STATE_ZEROING, CAP_DATA_ERR_COUNT, CAP_STATUS_SRC_DENIED, CAP_STATUS_PW_REFUSED] ++
  ((List.range 17).flatMap (fun c => [CAP_ARM_POST_COUNT c, CAP_ARM_SEGMENTS_M1 c, CAP_ARM_REARM c, CAP_ARM_POST_LIMIT c, CAP_ARM_GO c, CAP_ARM_DISARM c])) ++
  ((List.range 17).flatMap (fun c => [CAP_CSTATUS_STATE c, CAP_CSTATUS_DONE c, CAP_CSTATUS_REASON c, CAP_CSTATUS_SEGMENT c, CAP_CSTATUS_CAPTURES c, CAP_CHARGE_MBS c])) ++
  ((List.range 17).flatMap (fun c => [CAP_CHARGE_ALLOW c, CAP_MISSED_POST c, CAP_MISSED_REARM c])) ++
  ((List.range 64).flatMap (fun ch => [CAP_CH_CFG_EN ch, CAP_CH_CFG_TYPE ch, CAP_CH_CFG_OWNER ch, CAP_CH_CFG_SRC ch, CAP_CH_OFFSET_PAGES ch, CAP_CH_PAGES_PAGES ch])) ++
  ((List.range 64).flatMap (fun ch => [CAP_CH_PAGES_EV_RATE ch, CAP_CH_PARAM_PARAM ch]))

/-- The fields of the TRC page tables (PG: the common registers every page carries; WIN: CLU pages 1 to 15; SLC: the two registers a capture slice adds). -/
def fldsTRC : List Fld :=
  [TRC_AUTH_RIGHTS, TRC_AUTH_MODE, TRC_AUTH_DISABLED, TRC_AUTH_PARTITIONS, TRC_AUTH_CTRL_DISABLE, TRC_EXPIRES_NS] ++
  [TRC_TOKENS_OK_COUNT, TRC_TOKENS_REFUSED_COUNT, TRC_LAST_REFUSAL_STATUS] ++
  ((List.range 17).flatMap (fun s => [TRC_S_CFG_EN s, TRC_S_CFG_SOURCES s, TRC_S_CFG_SINK s, TRC_S_CFG_WRAP s, TRC_S_CFG_START_ON s, TRC_S_CFG_CNT_UNIT s])) ++
  ((List.range 17).flatMap (fun s => [TRC_S_CFG_REPEAT s, TRC_S_CFG_SYNC_EXP s, TRC_S_STATUS_STATE s, TRC_S_STATUS_ON s, TRC_S_STATUS_FULL s, TRC_S_STATUS_SRC_DENIED s])) ++
  ((List.range 17).flatMap (fun s => [TRC_S_STATUS_REVOKED s, TRC_S_STATUS_SINK_REFUSED s, TRC_S_BASE_ADDR s, TRC_S_SIZE_PAGES s, TRC_S_WR_PTR_BLOCK s, TRC_S_RD_PTR_BLOCK s])) ++
  ((List.range 17).flatMap (fun s => [TRC_S_LOST_COUNT s, TRC_S_CNT_LIMIT_LIMIT s, TRC_S_CNT_MASK_MASK s, TRC_S_MARK_VALUE s, TRC_S_COUNT_COUNT s, TRC_S_BLOCKS_COUNT s])) ++
  ((List.range 17).flatMap (fun s => (List.range 4).flatMap (fun i => [TRC_S_DSEL_CLUSTER s i, TRC_S_DSEL_V s i]))) ++
  ((List.range 17).flatMap (fun s => (List.range 4).flatMap (fun j => (List.range 2).flatMap (fun t => [TRC_S_TRANS_COMP s j t, TRC_S_TRANS_COND s j t, TRC_S_TRANS_NEXT s j t, TRC_S_TRANS_ACT s j t, TRC_S_TRANS_V s j t]))))

/-- The fields of the IME page tables (PG: the common registers every page carries; WIN: CLU pages 1 to 15; SLC: the two registers a capture slice adds). -/
def fldsIME : List Fld :=
  [IME_KEYSTATE_KEY_VALID, IME_KEYSTATE_ROLLING, IME_GEN_NEWEST, IME_INTEG_ERR_COUNT, IME_ERR_ADDR_ADDR, IME_ERR_INFO_LEVEL] ++
  [IME_ERR_INFO_WRITE, IME_ERR_INFO_PART, IME_ERR_INFO_DEVLVL, IME_ERR_INFO_VALID, IME_CTRL_CLR_COUNTS] ++
  ((List.range 4).flatMap (fun q => [IME_LOOKUPS_COUNT q, IME_MISSES_COUNT q, IME_WRITEBACKS_COUNT q, IME_META_BYTES_COUNT q]))

/-- The fields of the KRE page tables (PG: the common registers every page carries; WIN: CLU pages 1 to 15; SLC: the two registers a capture slice adds). -/
def fldsKRE : List Fld :=
  [KRE_CFG_RATE, KRE_CFG_THRESH_EXP, KRE_CFG_AUTO, KRE_CMD_ROLL, KRE_STATUS_STATE, KRE_STATUS_PENDING] ++
  [KRE_STATUS_PAUSED_SNAP, KRE_STATUS_LAST_CAUSE, KRE_BOUNDARY_SECTOR, KRE_ROLLS_COUNT, KRE_LAST_US_US, KRE_BLOCKS_COUNT]

/-- The fields of the PMU page tables (PG: the common registers every page carries; WIN: CLU pages 1 to 15; SLC: the two registers a capture slice adds). -/
def fldsPMU : List Fld :=
  [PMU_POLICY_IDLE_DELAY, PMU_POLICY_OFF_DELAY, PMU_VIN_MV, PMU_VIN_DW, PMU_TEMP_HUB_HUB] ++
  ((List.range 4).flatMap (fun q => [PMU_QSTATE_Q q, PMU_TEMP_Q q])) ++
  ((List.range 64).flatMap (fun n => [PMU_CSTATE_CLU n]))

/-- The fields of the CKG page tables (PG: the common registers every page carries; WIN: CLU pages 1 to 15; SLC: the two registers a capture slice adds). -/
def fldsCKG : List Fld :=
  [CKG_STATUS_OSC_OK, CKG_STATUS_CORE_LOCK, CKG_STATUS_HBM_LOCK, CKG_STATUS_REFCLK, CKG_STATUS_HOLDOVER, CKG_STATUS_LANE_LOCK] ++
  [CKG_HOLDOVERS_COUNT]

/-- The fields of the AON page tables (PG: the common registers every page carries; WIN: CLU pages 1 to 15; SLC: the two registers a capture slice adds). -/
def fldsAON : List Fld :=
  [AON_WAKE_CFG_TRIG, AON_WAKE_CFG_STRING, AON_WAKE_CFG_ON_STOP, AON_WAKE_CAUSE_TRIG, AON_WAKE_CAUSE_STRING, AON_WAKE_CAUSE_STOP] ++
  [AON_WAKE_CAUSE_VIN48, AON_WAKE_CAUSE_ASSERTED, AON_LG_STATUS_USED, AON_LG_STATUS_LOST, AON_LG_CTRL_CLEAR]

/-- The fields of the RST page tables (PG: the common registers every page carries; WIN: CLU pages 1 to 15; SLC: the two registers a capture slice adds). -/
def fldsRST : List Fld :=
  [RST_CAUSE_LAST, RST_PERST_COUNT_COUNT, RST_CTRL_DEVICE, RST_PTN_RESET_MASK, RST_PTN_STATUS_BUSY]

/-- The fields of the WDN page tables (PG: the common registers every page carries; WIN: CLU pages 1 to 15; SLC: the two registers a capture slice adds). -/
def fldsWDN : List Fld :=
  [WDN_CFG_TIMEOUT_MS, WDN_CFG_GRACE_MS, WDN_STATUS_STATE, WDN_STATUS_STOP_CAUSE, WDN_STATUS_GRACE_COUNT, WDN_HEARTBEAT_COUNT] ++
  [WDN_CTRL_STOP, WDN_STOP_TIME_NS]

/-- The fields of the STR page tables (PG: the common registers every page carries; WIN: CLU pages 1 to 15; SLC: the two registers a capture slice adds). -/
def fldsSTR : List Fld :=
  [STR_CFG_EN, STR_CFG_ROOT, STR_CFG_RESET_EN, STR_CFG_DISCOVER, STR_STATUS_STATE, STR_STATUS_DEVICE] ++
  [STR_STATUS_OVERFLOW, STR_STATUS_MEMBERS, STR_RX_FRAMES_COUNT, STR_CRC_ERR_COUNT, STR_RESET_REQ_TARGET, STR_RESET_REQ_GO]

/-- The fields of the LOG page tables (PG: the common registers every page carries; WIN: CLU pages 1 to 15; SLC: the two registers a capture slice adds). -/
def fldsLOG : List Fld :=
  [LOG_CFG_LOG_CE, LOG_CFG_TO_QUEUE, LOG_STATUS_AON_ONLY, LOG_STATUS_WRAPPED, LOG_STATUS_HEAD, LOG_ENTRIES_COUNT] ++
  [LOG_SRAM_CE_COUNT, LOG_WIN_BASE, LOG_CTRL_CLEAR]

/-- The fields of the MNT page tables (PG: the common registers every page carries; WIN: CLU pages 1 to 15; SLC: the two registers a capture slice adds). -/
def fldsMNT : List Fld :=
  [MNT_HELD_KINDS, MNT_LAST_CONFLICT_REQUESTER, MNT_LAST_CONFLICT_HOLDER, MNT_GRANTS_COUNT, MNT_CONFLICTS_COUNT, MNT_MBIST_CLUSTER] ++
  [MNT_MBIST_GO, MNT_MBIST_STATUS_STATE, MNT_MBIST_STATUS_REFUSED] ++
  ((List.range 64).flatMap (fun i => [MNT_HOLDER_ID i, MNT_HOLDER_VALID i]))

/-- The fields of the EVC page tables (PG: the common registers every page carries; WIN: CLU pages 1 to 15; SLC: the two registers a capture slice adds). -/
def fldsEVC : List Fld :=
  [EVC_CTRL_RUN, EVC_CTRL_CLEAR_ALL, EVC_OVF_BITS] ++
  ((List.range 64).flatMap (fun k => [EVC_SEL_EVENT k, EVC_SEL_EN k, EVC_SEL_OVF k, EVC_CNT_COUNT k]))

/-- The fields of the SLC page tables (PG: the common registers every page carries; WIN: CLU pages 1 to 15; SLC: the two registers a capture slice adds). -/
def fldsSLC : List Fld :=
  [SLC_CAPWIN_CH, SLC_CAPWIN_DIR, SLC_CAPWIN_OFF_PAGES]

/-- The fields of the PCI page tables (PG: the common registers every page carries; WIN: CLU pages 1 to 15; SLC: the two registers a capture slice adds). -/
def fldsPCI : List Fld :=
  [PCI_LINK_SPEED, PCI_LINK_WIDTH, PCI_LINK_FLIT, PCI_BAR2_BASE_ADDR, PCI_CORR_ERR_COUNT, PCI_UNCORR_ERR_COUNT]

/-- The fields of the PUP page tables (PG: the common registers every page carries; WIN: CLU pages 1 to 15; SLC: the two registers a capture slice adds). -/
def fldsPUP : List Fld :=
  ((List.range 8).flatMap (fun c => [PUP_CORE_STATE_STATE c]))

/-- The fields of the HMC page tables (PG: the common registers every page carries; WIN: CLU pages 1 to 15; SLC: the two registers a capture slice adds). -/
def fldsHMC : List Fld :=
  [HMC_STATUS_UP, HMC_STATUS_TEMP, HMC_ECC_CE_COUNT, HMC_ECC_UE_COUNT, HMC_QUOTA_ERR_COUNT]

/-- The fields of the MQE page tables (PG: the common registers every page carries; WIN: CLU pages 1 to 15; SLC: the two registers a capture slice adds). -/
def fldsMQE : List Fld :=
  [MQE_QSEL_INDEX, MQE_CFG_HOLD_LIMIT, MQE_CFG_POP_WAIT, MQE_POOL_FREE_BLOCKS]

end Sys2Proof.Machine
end

