-- ==== Sys2Proof/Machine/State.lean ====
section
/-! DEFINITION. The state of the WX64: everything the spec gives the device, as plain data, and the queue of waiting commands. -/

namespace Sys2Proof.Machine

/-- A stored word with its SECDED byte (R46, R77, R133). -/
structure Ecc (w : Nat) where
  data : BitVec w
  chk  : BitVec 8
deriving DecidableEq, Repr

/-- A schedule word with its parity bit and failed mark (R122). -/
structure ParW (w : Nat) where
  data   : BitVec w
  par    : Bool
  failed : Bool
deriving DecidableEq, Repr

/-- The canonical HOLD word (R28). -/
def holdWord : BitVec 80 := BitVec.ofNat 80 0x20000000000000000000
/-- Check byte of the canonical HOLD word under R46: data bit 77 stands at position 85 = 0b1010101. -/
def holdEcc : Ecc 80 := ⟨holdWord, 0xD5⟩
/-- The all-zero WALU word or design memory row, whose check bits are zero (R77). -/
def zeroEcc (w : Nat) : Ecc w := ⟨0, 0⟩
/-- The all-zero schedule word with valid parity (R448). -/
def zeroPar (w : Nat) : ParW w := ⟨0, false, false⟩

/-- Instruction memories, schedules and design memories. An unlisted BP word is the canonical HOLD word, any other unlisted word
is zero (R44, R85, R448, R159). Indexes are those of `Ix`. -/
structure Code where
  bpi  : SMap (Ecc 80)
  wli  : SMap (Ecc 96)
  port : SMap (ParW 16)
  mesh : SMap (ParW 32)
  dmem : SMap (Ecc 96)
deriving DecidableEq, Repr

/-- The tile stores (R32, R61). `nxt` and `nxtW` list the next copies that differ from their current copies. `winGen` and `finGen`
name, for each cluster, the moment from which its result windows and scratch words, and its fabric inputs, are undefined; 0 means that
an unlisted entry is 0. -/
structure Stores where
  win    : SMap Bool
  fin    : SMap Bool
  scr    : SMap W32
  fwi    : SMap W32
  cur    : SMap Bool
  nxt    : SMap Bool
  curW   : SMap W32
  nxtW   : SMap W32
  winGen : SMap Nat
  finGen : SMap Nat
deriving DecidableEq, Repr

/-- A value on the signal fabric (R112): word or bit, its data, and whether its path was too long (R117). -/
structure Sig where
  word  : Bool
  data  : W32
  undef : Bool
deriving DecidableEq, Repr

/-- An outstanding design memory write (R129). -/
structure DWrite where
  m    : Nat
  addr : Nat
  data : Nat
deriving DecidableEq, Repr

/-- Outstanding design memory read data, with the destination its event named (R129, R131). -/
structure DRead where
  m    : Nat
  e    : Nat
  bit  : Bool
  tile : Nat
  dst  : Nat
  w    : Nat
  data : Nat
deriving DecidableEq, Repr

/-- An issued far access (R137 to R140): its HBM address, its bytes, whether HBM has performed it, and the tag of its request while one is
outstanding (R264). -/
structure FarAcc where
  write : Bool
  valid : Bool
  addr  : Nat
  data  : List Byte
  size  : Nat
  done  : Bool
  tag   : Option Nat
deriving DecidableEq, Repr

/-- A word of a message queue with its marks (R281); `behind` are its producer's writes that a fence word still waits for (R276). -/
structure QWord where
  data  : W64
  fin   : Bool
  fence : Bool
  behind : List (Nat × Nat)
deriving DecidableEq, Repr

/-- The parts of a cluster no register shows: held addresses (R49, R78), pending write-backs (R48, R133), design memory accesses in
flight (R129), far accesses (R139), write port credits (R288). -/
structure Clu where
  bpHeld  : List Nat
  wlHeld  : List Nat
  bpBack  : List Nat
  wlBack  : List Nat
  rowBack : List Nat
  dwr     : List DWrite
  drd     : List DRead
  far     : SMap (List FarAcc)
  credits : SMap Nat
deriving DecidableEq, Repr

/-- A run of one segment (R87). -/
structure SegRun where
  seg  : Nat
  step : Nat
  left : Nat
deriving DecidableEq, Repr

/-- An edge set of the pass in progress with the segment runs it still has (R91). -/
structure EsRun where
  es   : Nat
  segs : List SegRun
deriving DecidableEq, Repr

/-- What stops a partition at the boundary it has reached (R93, R96). -/
inductive Due
  | none
  | runLimit
  | stepCycles
  | stepSteps
  | cascade
deriving DecidableEq, Repr

/-- A tap offered in the emulated cycle in progress (R322). -/
structure Tap where
  cluster : Nat
  tile    : Nat
  unit    : Nat
  step    : Nat
  width   : Nat
  data    : Nat
deriving DecidableEq, Repr

/-- A linked partition's hold before executed step `e` (R177): whether this device asked for it, has sent READY, whether GO was given, and
the HOLD and READY messages heard. -/
structure HoldAt where
  e    : Nat
  mine : Bool
  sent : Bool
  go   : Bool
  heard : Nat
  answered : Nat
deriving DecidableEq, Repr

/-- A complete image area (R214): its place in HBM, the frames it holds, and the identity and origin of its image. -/
structure Img where
  base   : Nat
  size   : Nat
  frames : Nat
  id     : Nat
  origin : Nat
deriving DecidableEq, Repr

/-- A partition's sequencer beside its registers (R86 to R102), with what its chapter's other rules make it remember. -/
structure Ptn where
  first   : Bool
  clock   : Nat
  runs    : List EsRun
  idle    : Nat
  rises   : Nat
  falls   : Nat
  sampled : Nat
  samples : Nat
  pend    : List Nat
  cyclesLeft : Option Nat
  stepsLeft  : Option Nat
  settle  : Option Nat
  due     : Due
  exec    : Nat
  cycleSteps : Nat
  passes  : Nat
  esRan   : Nat
  segRan  : Nat
  wasStalled : Bool
  wasHard : Bool
  taps    : List Tap
  linkCmd : List (Nat × Nat)
  holds   : List HoldAt
  freezeAt : List (Nat × Nat × Bool)
  fusedMask : Nat
  quotaBase : Nat
  quotaSize : Nat
  tables  : Option Config.Tables
  stream  : SMap Byte
  recv    : List Nat
  framed  : Nat
  batch   : Nat
  replay  : Bool
  dstop   : Bool
  img     : Option Img
  tagCmd  : Option (Nat × Nat)
  pendMask : Nat
  pendShape : Nat
  retarget : Bool
  resetWait : Bool
deriving DecidableEq, Repr

/-- A message queue (R281 to R298). `copied` counts the head words its read port holds copies of, `reserved` the words its write
ports' credits hold, `inPkt` that the open packet has stored words, `taken` that the consumer has taken part of the head packet. -/
structure Queue where
  en      : Bool
  priv    : Bool
  depth   : Nat
  unit    : Bool
  notify  : Bool
  level   : Nat
  words   : List QWord
  inPkt   : Bool
  taken   : Bool
  discard : Bool
  flags   : Nat
  hwm     : Nat
  copied  : Nat
  reserved : Nat
  pops    : List (Fn × Nat)
  waitPop : List Fn
  waitQrd : List Packet
  waitQwr : List Packet
deriving DecidableEq, Repr

/-- A submitted work item (R299), its list and its acceptance time. -/
structure Work where
  w0   : W64
  w1   : W64
  w2   : W64
  w3   : W64
  list : Nat
  time : Nat
deriving DecidableEq, Repr

/-- A courier (R303): the item in execution with its outcome so far, and its prefetch slot. -/
structure Courier where
  item   : Option Work
  slot   : Option Work
  status : Nat
  pkts   : Nat
  words  : Nat
  since  : Nat
  waitAt : Nat
  buf    : List Byte
deriving DecidableEq, Repr

/-- The dispatcher (R302): ready lists, couriers, round-robin position, held SUBMIT reads, and the completions that wait for them: after how
many, function, address, value (R305). -/
structure Dsp where
  lists    : SMap (List Work)
  couriers : SMap Courier
  next     : Nat
  heldSub  : List (Work × Fn)
  later    : List (Nat × Fn × Nat × Nat)
deriving DecidableEq, Repr

/-- A metadata line of inline encryption (R364): level 0 tag, 1 leaf, 2 node. -/
structure MetaLine where
  level : Nat
  index : Nat
  dirty : Bool
deriving DecidableEq, Repr

/-- Inline encryption (R355 to R371): the master key; the counters of sectors, of leaf lines (in their nodes) and of nodes (the root); by how
much the stored tag of a granule, leaf line or node differs from the one its contents and counter give (XOR; zero where it is right); the cached
lines. State holds the data itself in `Dev.hbm`; what the stacks hold is a function of it (`Dev.cipherGranule`, `Dev.metaByte`). -/
structure Ime where
  key      : Nat
  counters : SMap Nat
  lines    : SMap Nat
  root     : SMap Nat
  tagOff   : SMap Nat
  leafOff  : SMap Nat
  nodeOff  : SMap Nat
  cache    : List MetaLine
  rollAt   : Nat
  cause    : Nat
  ce       : List Nat
  ue       : List Nat
deriving DecidableEq, Repr

/-- The trigger engine beside its registers (R311 to R318): the previous sample of each comparator, the hits of the step, the actions
collected, the levels at the pins, the pins that pulse; the trace streams whose machine has fired, and whose counter has counted hits, in
the step in progress (R340). -/
structure Trg where
  prev   : SMap Nat
  hits   : List (Nat × Nat)
  acts   : List (Nat × Nat)
  pinIn  : Nat
  pulsing : Nat
  fired  : List Nat
  counted : List Nat
deriving DecidableEq, Repr

/-- A run of bytes in a channel's buffer collected together (R332): how many are left, the CYCLE and the time they belong to, and whether taps
of their entry were dropped. -/
structure Part where
  len  : Nat
  cyc  : Nat
  time : Nat
  ovf  : Bool
deriving DecidableEq, Repr

/-- A cut block on its way to HBM (R327): its channel and capture, its address, its capture's directory entry, its bytes. -/
structure CapBlk where
  chan  : Nat
  cap   : Nat
  addr  : Nat
  dir   : Nat
  bytes : List Byte
deriving DecidableEq, Repr

/-- Bytes collected in the step in progress (R328): they join channel `chan`'s buffer after the step's triggers. -/
structure Staged where
  chan  : Nat
  bytes : List Byte
  cyc   : Nat
  ovf   : Bool
deriving DecidableEq, Repr

/-- A capture channel in its present capture (R326 to R333). `cap` numbers its captures, `lines` holds each lane's bits that make no 8-byte
word yet and `dark` the lanes whose data has been missing (R321, R331); `capGap` and `capDisc` are for the capture what `gap` and `discont` are
for the next block, and `lostBase` is `lost` when it began (R333). -/
structure Chan where
  phase   : Nat
  cap     : Nat
  blocks  : Nat
  ready   : List CapBlk
  lost    : Nat
  lostBase : Nat
  gap     : Bool
  capGap  : Bool
  discont : Nat
  capDisc : Bool
  dataErr : Bool
  buf     : List Byte
  parts   : List Part
  lines   : SMap (List Bool)
  dark    : Nat
  trigPos : Option Nat
  trigBlk : Nat
  pre     : Nat
  post    : Nat
  short   : Bool
  trigTime : Nat
  epoch   : Nat
  lastAt  : Nat
  bucket  : Nat
  bucketAt : Nat
  iv      : List Nat
  ivCyc   : Nat
  ivCount : Nat
  zeroing : Bool
  zeroOff : Nat
  zeroPages : Nat
deriving DecidableEq, Repr

/-- The capture engine beside its registers. `blocksOut` holds the CAP_WR packets on their way, `staged` what the step in progress collects,
`charge` what each context's ARM added to SLICE_USED (R325). -/
structure Cap where
  chans : SMap Chan
  blocksOut : List CapBlk
  capNo : SMap Nat
  staged : List Staged
  charge : SMap Nat
deriving DecidableEq, Repr

/-- A trace stream beside its registers (R339 to R347). `ovf` says that the block being filled begins with an OVERFLOW record, whose resumption
was at `ovfAt` (R343). -/
structure Strm where
  recs   : List (List Byte)
  cls    : Nat
  ovf    : Bool
  ovfAt  : Nat
  first  : Nat
  seqNo  : Nat
  fresh  : Bool
  lossN  : Nat
  lossAt : Nat
  out    : List (List Byte)
  pat    : Option (Nat × Nat × Nat × Nat × Nat)
  rep    : Nat
  repCyc : Nat
  repTime : Nat
  stopped : Bool
deriving DecidableEq, Repr

/-- A link beside its registers (R227 to R248): bring-up progress, latency measurements, retry, slots; `tx…` what waits to be sent: control
messages by row, fragments, fields of the packet stream, frames and how many bits of the oldest have gone, and under `half` each lane's bit that
waits for the other of its PAM4 pair; `rx…` what has come: descrambler
registers, data bits of each lane with their marks, fragments, fields, slot frames of the run. -/
structure Link where
  good    : SMap Nat
  ident   : SMap Nat
  skews   : SMap Nat
  farLow  : Nat
  lastStamp : Option (Nat × Nat)
  sent    : List Nat
  meas    : List Nat
  uncPer  : SMap Nat
  txSeq   : Nat
  rxSeq   : Nat
  rxAny   : Bool
  replay  : List (Nat × Nat × BitVec 256)
  nakSeq  : Nat
  nakRun  : Nat
  nakDue  : Bool
  credits : SMap Nat
  slots   : SMap (List W32)
  rxPart  : List (BitVec 256)
  recovered : Nat
  shift   : SMap Nat
  prbs    : SMap (List Bool)
  prbsRun : SMap Nat
  prbsErr : SMap (List Bool)
  gen     : SMap (List Bool)
  inject  : Option (Nat × Nat × Nat × Nat)
  injAt   : SMap Nat
  half    : SMap Bool
  peers   : List (Nat × Nat × Nat)
  txWait  : List (Nat × List (BitVec 256))
  txCtl   : List (Nat × Nat)
  txFrag  : List Nat
  txFields : List W32
  txFrames : List (BitVec 432)
  txOff   : Nat
  rxScr   : SMap Nat
  rxSkip  : SMap Nat
  rxBits  : SMap (List (Bool × Bool))
  rxCtl   : List Nat
  rxFields : List (W32 × Bool)
  rxSlot  : Nat
deriving DecidableEq, Repr

/-- An outstanding request with its reserved response buffer (R264, R265): the function it acts for, whether it writes, the far
device and endpoint its packet names, and whether it was abandoned (R272). -/
structure Outst where
  src  : Nat
  tag  : Nat
  dst  : Nat
  vc   : Nat
  addr : Nat
  fn   : Nat
  write : Bool
  remote : Fin 512 × Fin 256
  abandoned : Bool
deriving DecidableEq, Repr

/-- The packet network beside its registers: route tables, outstanding and quarantined transactions (R261 to R272), and the routers (R263): the
flits at each input and channel, which input holds an output's channel, the clocks until an output may send MGMT, its RSP flits since a REQ
flit, and the inputs and channels that discard up to a packet's end. -/
structure Noc where
  routes : SMap W64
  outst  : List Outst
  quar   : List (Nat × Nat)
  bufs   : SMap (List Flit)
  hold   : SMap Nat
  pace   : SMap Nat
  turn   : SMap Nat
  drop   : List Nat
deriving DecidableEq, Repr

/-- Fuses, their weak places, and the boot loader's staging buffer (R194 to R205). -/
structure Boot where
  staging   : List Byte
  ownerHash : BitVec 384
  ownerProv : Bool
  pm        : BitVec 64
  done      : BitVec 64
  weakPm    : BitVec 64
  weakDone  : BitVec 64
  weakOwner : BitVec 384
  weakProv  : Bool
  burn      : Option Nat
  provTag   : Option (Nat × BitVec 384)
deriving DecidableEq, Repr

/-- The states of the scan port's controller, as IEEE 1149.1 names them (R436, R440). -/
inductive TapState
  | testLogicReset | runTestIdle
  | selectDr | captureDr | shiftDr | exit1Dr | pauseDr | exit2Dr | updateDr
  | selectIr | captureIr | shiftIr | exit1Ir | pauseIr | exit2Ir | updateIr
deriving DecidableEq, Repr

/-- The instructions of the scan port (R440). -/
inductive TapInst
  | bypass | idcode | samplePreload | extest | extestPulse | extestTrain
deriving DecidableEq, Repr

/-- The scan port (R440): its controller, the instruction selected, the bits of the register being shifted, first out first, and what the
boundary register's cells hold for the pins. -/
structure Scan where
  st    : TapState
  inst  : TapInst
  shift : List Bool
  cells : List Bool
deriving DecidableEq, Repr

/-- The power states of R379. -/
inductive Power
  | off
  | standby
  | doze
  | active
deriving DecidableEq, Repr

/-- Supplies, PERST#, the power state, a controlled stop in progress (R377 to R393; `afterStop`: with no PERST# since it began), the scan port,
functions under reset, NumVFs, and the size of BAR2 of the PF and of every VF, 1 GiB at reset (R420, R422). -/
structure Pwr where
  st       : Power
  vaux     : Bool
  vin48    : Bool
  perst    : Bool
  stopping : Bool
  afterStop : Bool
  tap      : Scan
  fnReset  : List Fn
  vfNum    : Nat
  pfBar2   : Nat
  vfBar2   : Nat
deriving DecidableEq, Repr

/-- The String ring interface beside its registers (R394 to R397). -/
structure Ring where
  seqNo  : Nat
  seen   : List (Nat × Nat × Nat)
  repeats : List (Nat × Nat × Nat × List Byte)
deriving DecidableEq, Repr

/-- An entry of the event log (R403). -/
structure LogEntry where
  time : Nat
  num  : Nat
  cls  : Nat
  owner : Nat
  seqNo : Nat
  rep  : Nat
  i0   : Nat
  i1   : Nat
deriving DecidableEq, Repr

/-- The event log ring, the last-gasp entries, and the errors of the log memory's cells (R403 to R407): by word number, four to a ring entry,
what flips in the 64 data bits and the 8 check bits above them. -/
structure LogS where
  ring  : SMap LogEntry
  newest : Option Nat
  count : Nat
  flips : SMap Nat
  gasp  : SMap LogEntry
deriving DecidableEq, Repr

/-- The maintenance arbiter (R408 to R411): holder slots and the requests that wait and retry. -/
structure Mnt where
  slots : SMap Nat
  wait  : List Nat
deriving DecidableEq, Repr

/-- An event on its way to the event bus, the log and the comparators (R402). Class 4 is never logged; owner 16 is the device. -/
structure Ev where
  num  : Nat
  cls  : Nat
  owner : Nat
  i0   : Nat
  i1   : Nat
deriving DecidableEq, Repr

/-- What the device drives outside itself, in the model's own record (newest first). -/
inductive Out
  | completion (fn : Fn) (addr : Nat) (value : Nat)
  | poisoned (fn : Fn) (addr : Nat) (bytes : List Byte)
  | data (fn : Fn) (addr : Nat) (bytes : List Byte)
  | msix (fn : Fn) (vec : Nat) (addr : Nat) (value : Nat)
  | hostWrite (fn : Nat) (addr : Nat) (bytes : List Byte)
  | control (g : Nat) (kind : Nat) (body : Nat)
  | marker (g : Nat) (l : Nat) (bits : BitVec 320)
  | flit (g : Nat) (bits : BitVec 320)
  | frame (g : Nat) (bits : BitVec 432)
  | bridge (g : Nat) (l : Nat) (w : W64)
  | packet (port : Nat) (hdr : BitVec 256)
  | hop (port : Nat) (vc : Nat) (f : Flit)
  | response (src : Nat) (tag : Nat) (status : Nat) (bytes : List Byte)
  | ring (frame : List Byte)
  | pin (j : Nat) (level : Bool)
  | wake (asserted : Bool)
  | lockstep (r : BitVec 128)
  | line (g : Nat) (l : Nat) (levels : List Nat)
  | configRetry (fn : Fn)
deriving DecidableEq, Repr

/-- Links, lockstep and the time base beside their registers. -/
structure Sys where
  seen    : List (Nat × Nat)
  seqNo   : Nat
  heard   : SMap (Nat × Nat)
  inRow   : Nat
  skew    : List (Nat × Nat × Nat)
  mine    : List (Nat × Nat)
  theirs  : List (Nat × Nat)
deriving DecidableEq, Repr

/-- The device: everything but the queue of waiting commands. `heldAns` holds answers that wait for an earlier answer of the same
partition (R163); `ticks` counts steps of 0.5 ns on the unstepped clock, on which `latchAt` is measured. -/
structure Dev where
  fld    : SMap Nat
  pairRd : SMap Nat
  pairWr : SMap Nat
  code   : Code
  st     : Stores
  fab    : SMap Sig
  clu    : SMap Clu
  ptn    : SMap Ptn
  queue  : SMap Queue
  dsp    : Dsp
  hbm    : SMap Byte
  ime    : Ime
  trg    : Trg
  cap    : Cap
  trc    : SMap Strm
  nonce  : Option (BitVec 256)
  link   : SMap Link
  noc    : Noc
  boot   : Boot
  pwr    : Pwr
  ring   : Ring
  log    : LogS
  mnt    : Mnt
  sys    : Sys
  time   : Nat
  slewTo : Int
  ticks  : Nat
  latchAt : Option Nat
  strobeSrc : Option Nat
  raised : List (Nat × WordLoc × Bool)
  rewrites : List (Nat × WordLoc × Bool)
  evq    : List Ev
  bus    : List Nat
  answers : List (List W64)
  heldAns : List (Nat × List W64)
  out    : List Out
  fresh  : Nat
deriving DecidableEq, Repr

/-- The state of the machine: the device and the commands waiting, first in first out. -/
structure State where
  dev     : Dev
  pending : List Instr
deriving DecidableEq, Repr

/-- No command ends in a fault: the type the interface asks for, with the one reason the block could give. -/
inductive Fault
  /-- Raised by no meaning of this model. Safe: a stop allows nothing. -/
  | none
deriving DecidableEq, Repr

/-- Why a command is refused. -/
inductive Refusal
  /-- Raised by an arm of `exec` whose command has no meaning yet. Safe: a stop allows nothing. -/
  | notModelled (mnemonic : String)
deriving DecidableEq, Repr

def Code.reset : Code := ⟨[], [], [], [], []⟩
def Stores.reset : Stores := ⟨[], [], [], [], [], [], [], [], [], []⟩
def Clu.reset : Clu := ⟨[], [], [], [], [], [], [], [], []⟩
def Ptn.reset : Ptn :=
  { first := true, clock := 0, runs := [], idle := 0, rises := 0, falls := 0, sampled := 0, samples := 0, pend := [], cyclesLeft := none, stepsLeft := none,
    settle := none, due := .none, exec := 0, cycleSteps := 0, passes := 0, esRan := 0, segRan := 0, wasStalled := false,
    wasHard := false, taps := [], linkCmd := [], holds := [], freezeAt := [], fusedMask := 0, quotaBase := 0, quotaSize := 0,
    tables := none, stream := [], recv := [], framed := 0, batch := 0, replay := false, dstop := false, img := none, tagCmd := none,
    pendMask := 0, pendShape := 0, retarget := false, resetWait := false }
def Queue.reset : Queue :=
  { en := false, priv := false, depth := 0, unit := false, notify := false, level := 0, words := [], inPkt := false, taken := false,
    discard := false, flags := 0, hwm := 0, copied := 0, reserved := 0, pops := [], waitPop := [], waitQrd := [], waitQwr := [] }
def Courier.reset : Courier := ⟨none, none, 0, 0, 0, 0, 0, []⟩
def Dsp.reset : Dsp := ⟨[], [], 0, [], []⟩
def Ime.reset : Ime := ⟨0, [], [], [], [], [], [], [], 0, 0, [], []⟩
def Trg.reset : Trg := ⟨[], [], [], 0, 0, [], []⟩
def Chan.reset : Chan :=
  { phase := 0, cap := 0, blocks := 0, ready := [], lost := 0, lostBase := 0, gap := false, capGap := false, discont := 0, capDisc := false,
    dataErr := false, buf := [], parts := [], lines := [], dark := 0, trigPos := none, trigBlk := 0, pre := 0, post := 0, short := false,
    trigTime := 0, epoch := 0, lastAt := 0, bucket := 32000, bucketAt := 0, iv := [], ivCyc := 0, ivCount := 0, zeroing := false, zeroOff := 0,
    zeroPages := 0 }
def Cap.reset : Cap := ⟨[], [], [], [], []⟩
def Strm.reset : Strm := ⟨[], 0, false, 0, 0, 0, true, 0, 0, [], none, 0, 0, 0, false⟩
def Link.reset : Link :=
  { good := [], ident := [], skews := [], farLow := 0, lastStamp := none, sent := [], meas := [], uncPer := [], txSeq := 0, rxSeq := 0, rxAny := false,
    replay := [], nakSeq := 0, nakRun := 0, nakDue := false, credits := [], slots := [], rxPart := [], recovered := 0,
    shift := [], prbs := [], prbsRun := [], prbsErr := [], gen := [], inject := none, injAt := [], half := [], peers := [], txWait := [],
    txCtl := [], txFrag := [], txFields := [], txFrames := [], txOff := 0, rxScr := [], rxSkip := [], rxBits := [], rxCtl := [], rxFields := [],
    rxSlot := 0 }
def Noc.reset : Noc := ⟨[], [], [], [], [], [], [], []⟩
def Boot.reset : Boot := ⟨[], 0, false, 0, 0, 0, 0, 0, false, none, none⟩
def Scan.reset : Scan := ⟨.testLogicReset, .idcode, [], []⟩
def Pwr.reset : Pwr := ⟨.doze, true, true, true, false, false, .reset, [], 0, 2 ^ 30, 2 ^ 30⟩
def Ring.reset : Ring := ⟨0, [], []⟩
def LogS.reset : LogS := ⟨[], none, 0, [], []⟩
def Mnt.reset : Mnt := ⟨[], []⟩
def Sys.reset : Sys := ⟨[], 0, [], 0, [], [], []⟩

/-- The device after the POWER reset, in DOZE with VIN48 present and PERST# asserted (R380, R386). -/
def Dev.reset : Dev :=
  { fld := [], pairRd := [], pairWr := [], code := .reset, st := .reset, fab := [], clu := [], ptn := [], queue := [], dsp := .reset,
    hbm := [], ime := .reset, trg := .reset, cap := .reset, trc := [], nonce := none, link := [], noc := .reset, boot := .reset,
    pwr := .reset, ring := .reset, log := .reset, mnt := .reset, sys := .reset, time := 0, slewTo := 0, ticks := 0, latchAt := none,
    strobeSrc := none, raised := [], rewrites := [], evq := [], bus := [], answers := [], heldAns := [], out := [], fresh := 0 }

/-- The machine right after reset, with no command waiting. -/
def State.reset : State := ⟨Dev.reset, []⟩

end Sys2Proof.Machine
end

