-- ==== Sys2Proof/Machine/Ops.lean ====
section
/-! DEFINITION. The named operations every command uses: page addresses (R433), register fields (R7, R12), device time (R190),
interrupts and MSI-X (R426 to R429), events (R402), cluster ownership (R160), per-instance records. -/

namespace Sys2Proof.Machine

/-! Page bases of R433. -/
def pDEV : Nat := 0x0
def pAON : Nat := 0x1000
def pWDN : Nat := 0x2000
def pPMU : Nat := 0x3000
def pCKG : Nat := 0x4000
def pRST : Nat := 0x5000
def pFUS : Nat := 0x6000
def pLOG : Nat := 0x7000
def pEVC : Nat := 0x8000
def pSNP : Nat := 0x9000
def pTSB : Nat := 0xA000
def pMNT : Nat := 0xB000
def pSTR : Nat := 0xC000
def pPUP : Nat := 0xD000
def pLDR : Nat := 0xE000
def pSCR : Nat := 0xF000
def pPCI : Nat := 0x10000
def pNOC : Nat := 0x11000
def pIME : Nat := 0x12000
def pKRE : Nat := 0x13000
def pHMC (q : Nat) : Nat := 0x14000 + q * 0x1000
def pTRG : Nat := 0x18000
def pCAP : Nat := 0x19000
def pTRC : Nat := 0x1A000
def pMQE : Nat := 0x1B000
def pDSP : Nat := 0x1C000
def pCRR : Nat := 0x1D000
def pLNK : Nat := 0x1E000
def pLSC : Nat := 0x1F000
def pLGRP (g : Nat) : Nat := 0x20000 + g * 0x1000
def pPTN (p : Nat) : Nat := 0x30000 + p * 0x1000
def pCLU (n : Nat) : Nat := 0x100000 + n * 0x10000
def pWIN (n w : Nat) : Nat := pCLU n + w * 0x1000
/-- MSI-X tables and PBAs: the PF's stand in its BAR0 (R420), a VF's are kept beyond it. -/
def pMSIX : Fn → Nat
  | .pf => 0x3FF0000
  | .vf p => 0x4000000 + p.val * 0x20000
/-- The capture slice registers of VF p+1 (R423) are kept beyond the PF's BAR0. -/
def pSLC (p : Nat) : Nat := 0x8000000 + p * 0x1000
/-- Histogram bucket `b` of list `l` (R307) is kept beyond the PF's BAR0; the DSP page shows the list HIST_SEL names. -/
def pHIST : Nat := 0x9000000
def HIST (l b : Nat) : Fld := ⟨32 * l + 4 * b, 0, 32, .ro, 0⟩
/-- What configuration space keeps of AER is kept beyond the PF's BAR0 (R419): a Poisoned TLP Egress Blocked has been reported. -/
def pCFG : Nat := 0xA000000
def CFG_AER_EGRESS_BLOCKED : Fld := ⟨0, 0, 1, .rw1c, 0⟩

namespace Dev

/-- The value of a register field. -/
def g (d : Dev) (base : Nat) (f : Fld) : Nat := SMap.get f.rst d.fld (8 * base + f.bit)

/-- A register field set to the low bits of `v`. -/
def p (d : Dev) (base : Nat) (f : Fld) (v : Nat) : Dev :=
  { d with fld := SMap.set f.rst d.fld (8 * base + f.bit) (v % 2 ^ f.w) }

/-- A one-bit field read as a truth value. -/
def b (d : Dev) (base : Nat) (f : Fld) : Bool := d.g base f == 1

/-- A one-bit field set to 1. -/
def on (d : Dev) (base : Nat) (f : Fld) : Dev := d.p base f 1

/-- A field returned to its Reset value (R12). -/
def clr (d : Dev) (base : Nat) (f : Fld) : Dev := d.p base f f.rst

/-- A saturating counter field advanced by `n`. -/
def add (d : Dev) (base : Nat) (f : Fld) (n : Nat) : Dev := d.p base f (satAdd f.w (d.g base f) n)

/-- `f` applied to `d` where `c` holds. -/
def iff (d : Dev) (c : Bool) (f : Dev → Dev) : Dev := if c then f d else d

/-- `f` applied for every member of a list, in order. -/
def each {α : Type} (d : Dev) (xs : List α) (f : Dev → α → Dev) : Dev := xs.foldl f d

/-- Device time in ns, TSB.TIME (R190): `time` counts in units of 2^-16 ns. -/
def now (d : Dev) : Nat := d.time / 65536 % 2 ^ 64

/-- A page's fields returned to their Reset values: every field kept between two byte addresses. -/
def resetRange (d : Dev) (lo hi : Nat) : Dev := { d with fld := SMap.delRange d.fld (8 * lo) (8 * hi) }

/-- Something driven outside. -/
def emit (d : Dev) (o : Out) : Dev := { d with out := o :: d.out }

def cluAt (d : Dev) (n : Nat) : Clu := SMap.get Clu.reset d.clu n
def setClu (d : Dev) (n : Nat) (c : Clu) : Dev := { d with clu := SMap.set Clu.reset d.clu n c }
def ptnAt (d : Dev) (i : Nat) : Ptn := SMap.get Ptn.reset d.ptn i
def setPtn (d : Dev) (i : Nat) (x : Ptn) : Dev := { d with ptn := SMap.set Ptn.reset d.ptn i x }
def modPtn (d : Dev) (i : Nat) (f : Ptn → Ptn) : Dev := d.setPtn i (f (d.ptnAt i))
/-- The hub clock in which partition `i`'s next step runs: after its latest step's, and no earlier than the present one (R19, R326). -/
def hubClock (d : Dev) (i : Nat) : Nat := Nat.max ((d.ptnAt i).clock + 1) d.ticks
def modClu (d : Dev) (n : Nat) (f : Clu → Clu) : Dev := d.setClu n (f (d.cluAt n))
def queueAt (d : Dev) (q : Nat) : Queue := SMap.get Queue.reset d.queue q
def setQueue (d : Dev) (q : Nat) (x : Queue) : Dev := { d with queue := SMap.set Queue.reset d.queue q x }
def modQueue (d : Dev) (q : Nat) (f : Queue → Queue) : Dev := d.setQueue q (f (d.queueAt q))
def linkAt (d : Dev) (i : Nat) : Link := SMap.get Link.reset d.link i
def setLink (d : Dev) (i : Nat) (x : Link) : Dev := { d with link := SMap.set Link.reset d.link i x }
def modLink (d : Dev) (i : Nat) (f : Link → Link) : Dev := d.setLink i (f (d.linkAt i))
def chanAt (d : Dev) (i : Nat) : Chan := SMap.get Chan.reset d.cap.chans i
def setChan (d : Dev) (i : Nat) (x : Chan) : Dev := { d with cap := { d.cap with chans := SMap.set Chan.reset d.cap.chans i x } }
def modChan (d : Dev) (i : Nat) (f : Chan → Chan) : Dev := d.setChan i (f (d.chanAt i))
def strmAt (d : Dev) (i : Nat) : Strm := SMap.get Strm.reset d.trc i
def setStrm (d : Dev) (i : Nat) (x : Strm) : Dev := { d with trc := SMap.set Strm.reset d.trc i x }
def modStrm (d : Dev) (i : Nat) (f : Strm → Strm) : Dev := d.setStrm i (f (d.strmAt i))
def courierAt (d : Dev) (i : Nat) : Courier := SMap.get Courier.reset d.dsp.couriers i
def setCourier (d : Dev) (i : Nat) (x : Courier) : Dev :=
  { d with dsp := { d.dsp with couriers := SMap.set Courier.reset d.dsp.couriers i x } }
def listAt (d : Dev) (l : Nat) : List Work := SMap.get [] d.dsp.lists l
def setList (d : Dev) (l : Nat) (x : List Work) : Dev := { d with dsp := { d.dsp with lists := SMap.set [] d.dsp.lists l x } }

/-- Whether the full function is presented (R194, R195). -/
def full (d : Dev) : Bool := d.b pDEV DEV_STATE_FULL

/-- Whether the main domain runs: the device is in ACTIVE (R379). -/
def active (d : Dev) : Bool := d.pwr.st == .active

/-- Directory STATE of partition `i` (R160). -/
def dirState (d : Dev) (i : Nat) : Nat := d.g pDEV (DEV_DIR_STATE i)
/-- Cluster mask of partition `i` (R160). -/
def mask (d : Dev) (i : Nat) : Nat := d.g pDEV (DEV_DIR_MASK i)
/-- Whether cluster `n` belongs to partition `i`. -/
def owns (d : Dev) (i n : Nat) : Bool := d.dirState i ≠ 0 && (d.mask i).testBit n
/-- The partition that owns cluster `n`, if one does (R14). -/
def ownerOf (d : Dev) (n : Nat) : Option Nat := (List.range 16).find? (fun i => d.owns i n)
/-- The clusters of partition `i` in increasing number. -/
def clustersOf (d : Dev) (i : Nat) : List Nat := (List.range 64).filter (d.owns i)
/-- Power state of cluster `n` (R398): 0 ON, 1 IDLE, 2 OFF. -/
def cluPower (d : Dev) (n : Nat) : Nat := d.g pPMU (PMU_CSTATE_CLU n)
/-- Cluster `n` enters a power state; its quadrant is ON with a cluster ON, OFF with all OFF, else IDLE (R381). -/
def setPower (d : Dev) (n st : Nat) : Dev :=
  let d := d.p pPMU (PMU_CSTATE_CLU n) st
  let ms := (List.range 16).map fun i => d.cluPower (n / 16 * 16 + i)
  d.p pPMU (PMU_QSTATE_Q (n / 16)) (if ms.any (· == 0) then 0 else if ms.all (· == 2) then 2 else 1)
/-- An IDLE cluster comes ON (R382). -/
def wake (d : Dev) (n : Nat) : Dev := if d.cluPower n == 1 then d.setPower n 0 else d
/-- Every IDLE cluster of a partition comes ON (R382). -/
def wakeAll (d : Dev) (i : Nat) : Dev := d.each (d.clustersOf i) fun d n => d.wake n
/-- State of a cluster's network interface (R269): 0 ACTIVE, 1 DRAINING, 2 FENCED. -/
def niState (d : Dev) (n : Nat) : Nat := d.g pNOC (NOC_NI_STATE_CLU n)
/-- Whether cluster `n` is the odd member of a fused pair of its partition (R125). -/
def oddFused (d : Dev) (n : Nat) : Bool :=
  n % 2 == 1 && (match d.ownerOf n with | some i => (d.ptnAt i).fusedMask.testBit (n / 2) | none => false)
/-- Whether cluster `n` is the even member of a fused pair. -/
def evenFused (d : Dev) (n : Nat) : Bool :=
  n % 2 == 0 && (match d.ownerOf n with | some i => (d.ptnAt i).fusedMask.testBit (n / 2) | none => false)
/-- OPEN or READY. -/
def usable (d : Dev) (i : Nat) : Bool := d.dirState i == 1 || d.dirState i == 2
/-- Sequencer STATE of partition `i` (R105): 0 STOPPED, 1 RUNNING, 2 FROZEN, 3 HARD_FROZEN. -/
def seqState (d : Dev) (i : Nat) : Nat := d.g (pPTN i) PTN_SEQ_STATUS_STATE
/-- Whether the clusters of partition `i` are always ON: it is RUNNING or HARD_FROZEN (R382). -/
def keepsOn (d : Dev) (i : Nat) : Bool := d.seqState i == 1 || d.seqState i == 3
/-- Whether cluster `n` is about to join a partition that is resized (R169, R382). -/
def joining (d : Dev) (n : Nat) : Bool := (List.range 16).any fun i => d.dirState i == 3 && (d.ptnAt i).pendMask.testBit n

/-- Whether partition `i` is under a PARTITION reset (R387). -/
def ptnBusy (d : Dev) (i : Nat) : Bool := (d.g pRST RST_PTN_STATUS_BUSY).testBit i

/-- A command of partition `i`'s page: the boot function does not answer it (R194), and writes are ignored during a reset (R387). -/
def atPtn (d : Dev) (i : Nat) (k : Dev → Dev) : Dev := if d.full && !d.ptnBusy i then k d else d

/-- The partition whose VF is bound and enabled (R166). -/
def vfLive (d : Dev) (i : Nat) : Bool := d.dirState i ≠ 0 && d.b pDEV (DEV_DIR_VF i) && i < d.pwr.vfNum

/-! Reads of a page that a held SUBMIT keeps waiting (R305). -/

/-- Where the SUBMIT register of list `l` stands. -/
def submitAt (l : Nat) : Nat := if l == 16 then pDSP + 0x120 else pPTN l + 0x760

/-- How many held SUBMIT reads of a function stand in the page of an address. -/
def heldBefore (d : Dev) (fn : Fn) (a : Nat) : Nat := d.dsp.heldSub.countP fun h => h.2 == fn && submitAt h.1.list / 0x1000 == a / 0x1000

/-- A read completes, after the held SUBMIT reads of its function in its page (R305): its value is that of its arrival. -/
def complete (d : Dev) (fn : Fn) (a v : Nat) : Dev :=
  let n := d.heldBefore fn a
  if n == 0 then d.emit (.completion fn a v) else { d with dsp := { d.dsp with later := d.dsp.later ++ [(n, fn, a, v)] } }

/-- A held SUBMIT read of list `l` completes; the later reads that waited for it alone follow (R305). -/
def completeHeld (d : Dev) (fn : Fn) (l v : Nat) : Dev :=
  let here (e : Nat × Fn × Nat × Nat) : Bool := e.2.1 == fn && submitAt l / 0x1000 == e.2.2.1 / 0x1000
  let d := d.emit (.completion fn (submitAt l) v)
  let now := d.dsp.later.filter fun e => here e && e.1 ≤ 1
  let d := { d with dsp := { d.dsp with later := (d.dsp.later.filter fun e => !(here e && e.1 ≤ 1)).map fun e => if here e then (e.1 - 1, e.2) else e } }
  d.each now fun d e => d.emit (.completion e.2.1 e.2.2.1 e.2.2.2)

/-! Interrupts (R426 to R429). -/

/-- The MSI-X entry of a vector: mask bit, address and data; at reset every vector is masked, as PCI Express has it. -/
def MSIX_ADDR (v : Nat) : Fld := ⟨16 * v, 0, 64, .rw, 0⟩
def MSIX_DATA (v : Nat) : Fld := ⟨16 * v + 8, 0, 32, .rw, 0⟩
def MSIX_MASK (v : Nat) : Fld := ⟨16 * v + 12, 0, 1, .rw, 1⟩
def MSIX_PBA (v : Nat) : Fld := ⟨0x8000 + 8 * (v / 64), v % 64, 1, .ro, 0⟩

/-- A vector of a function sends its message, or sets its PBA bit while masked (R428). -/
def sendVec (d : Dev) (fn : Fn) (v : Nat) : Dev :=
  if d.b (pMSIX fn) (MSIX_MASK v) then d.on (pMSIX fn) (MSIX_PBA v)
  else d.emit (.msix fn v (d.g (pMSIX fn) (MSIX_ADDR v)) (d.g (pMSIX fn) (MSIX_DATA v)))

/-- The byte of DEV.VEC_MAP that serves a page, if the page raises interrupts (R428). -/
def vecByte (base : Nat) : Option Nat :=
  if base < 0x40000 then some (base / 0x1000)
  else if 0x100000 ≤ base && base < 0x500000 && base % 0x10000 == 0 then some (0x40 + (base - 0x100000) / 0x10000)
  else none

/-- The VF vector a page raises: vector 0 for PTNp, vector 1 for a control page of the partition's clusters (R429). -/
def vfVector (d : Dev) (base : Nat) : Option (Fin 16 × Nat) :=
  if 0x30000 ≤ base && base < 0x40000 then
    let i := (base - 0x30000) / 0x1000
    if d.vfLive i then some (Fin.ofNat 16 i, 0) else none
  else if 0x100000 ≤ base && base < 0x500000 then
    match d.ownerOf ((base - 0x100000) / 0x10000) with
    | some i => if d.vfLive i then some (Fin.ofNat 16 i, 1) else none
    | none => none
  else none

/-- A page gains an IRQ_STAT bit: the vectors that serve it are sent (R428, R429). -/
def notifyIrq (d : Dev) (base : Nat) : Dev :=
  let d := match vecByte base with
    | some i =>
      let m := d.g pDEV (DEV_VEC_MAP_MAP i)
      if m.testBit 7 then d.sendVec .pf (m % 32) else d
    | none => d
  match d.vfVector base with
  | some (i, v) => d.sendVec (.vf i) v
  | none => d

/-- IRQ_RAW bit `i` of a page is set (R426). -/
def irq (d : Dev) (base i : Nat) : Dev :=
  let raw := d.g base PG_IRQ_RAW
  if raw.testBit i then d
  else
    let d := d.p base PG_IRQ_RAW (raw ||| 1 <<< i)
    if (d.g base PG_IRQ_EN).testBit i then d.notifyIrq base else d

/-- IRQ_EN of a page is written: bits of IRQ_STAT it uncovers count as gained (R428). -/
def setIrqEn (d : Dev) (base v : Nat) : Dev :=
  let raw := d.g base PG_IRQ_RAW
  let old := raw &&& d.g base PG_IRQ_EN
  let d := d.p base PG_IRQ_EN v
  if (raw &&& v % 2 ^ 32) &&& (old ^^^ 0xFFFFFFFF) ≠ 0 then d.notifyIrq base else d

/-! Events (R402). -/

/-- An event goes to the bus; class 4 is never logged. Owner 16 is the device. -/
def raise (d : Dev) (num cls owner i0 i1 : Nat) : Dev := { d with evq := d.evq ++ [⟨num, cls, owner, i0, i1⟩] }

/-- The partition of cluster `n` as an event owner, else the device. -/
def ownerOrDev (d : Dev) (n : Nat) : Nat := (d.ownerOf n).getD 16

/-- An access error made by a host access (R403, event 0x100). -/
def accessError (d : Dev) (fn : Fn) (bar off : Nat) (write : Bool) : Dev :=
  let w := if write then 1 <<< 40 else 0
  match fn with
  | .pf => d.raise 0x100 2 16 (off % 2 ^ 32 ||| bar <<< 32 ||| w) 0
  | .vf i => d.raise 0x100 1 i.val (off % 2 ^ 32 ||| bar <<< 32 ||| (i.val + 1) <<< 35 ||| w) 0

/-- An access error made inside the device (R449). -/
def innerError (d : Dev) (src part : Nat) (devlvl : Bool) (status : Nat) (write : Bool) (addr : Nat) : Dev :=
  d.raise 0x100 (if devlvl then 2 else 1) (if devlvl then 16 else part)
    (src ||| part <<< 8 ||| (if devlvl then 1 else 0) <<< 12 ||| status <<< 16 ||| 7 <<< 32 ||| (if write then 1 <<< 40 else 0)) addr

/-- A register word of a page as its fields compose it, from a list of the fields it may hold. -/
def word (d : Dev) (base off : Nat) (fs : List Fld) : Nat :=
  (fs.filter (fun f => f.off == off && f.acc != .wo)).foldl (fun a f => a ||| d.g base f <<< f.lo) 0

/-- A number for a free value or a freshly undefined store, never used before. -/
def tick (d : Dev) : Dev := { d with fresh := d.fresh + 1 }

/-- The state stores of every cluster take a new value. -/
def setSt (d : Dev) (s : Stores) : Dev := { d with st := s }

end Dev

end Sys2Proof.Machine
end

