-- ==== Sys2Proof/Machine/Framing.lean ====
section
/-! DEFINITION. The line code of the lanes: PAM4 levels (R224), scrambling and codewords (R227, R228), step frames (R229), link flits
(R240), control messages (R242), and what a link sends in a marker period. -/

namespace Sys2Proof.Machine

/-! Bits on the line. -/

/-- The level of a pair of bits, the first as the most significant (R224). -/
def pam4Level (first second : Bool) : Nat :=
  match first, second with
  | false, false => 0
  | false, true => 1
  | true, true => 2
  | true, false => 3

/-- The PAM4 levels of the pairs of bits. -/
def pam4 : List Bool → List Nat
  | first :: second :: rest => pam4Level first second :: pam4 rest
  | _ => []

/-- What a lane sends for a run of bits at a RATE (R224): PAM4 levels, or at RATE 2 the bits. -/
def lineLevels (rate : Nat) (bits : List Bool) : List Nat := if rate == 2 then bits.map Bool.toNat else pam4 bits

/-- The last bit of a run that no pair took; it begins the next pair. -/
def unpaired (rate : Nat) (bits : List Bool) : Option Bool := if rate == 2 || bits.length % 2 == 0 then none else bits.getLast?

/-- The seed of lane `l`'s scrambler after each marker (R228). -/
def scrambleSeed (l : Nat) : Nat := 0x3FFFFFFFFFFFF00 + l

/-- The additive sequence x^58 + x^39 + 1 (R228): `s` holds its last 58 bits, the newest lowest; each data bit is XORed with the next.
Gives the bits and the register after them. The same function scrambles and descrambles. -/
def scramble : List Bool → Nat → List Bool × Nat
  | [], s => ([], s)
  | b :: bs, s =>
    let o := xor (s.testBit 57) (s.testBit 38)
    let r := scramble bs (s * 2 % 2 ^ 58 + o.toNat)
    (xor b o :: r.1, r.2)

/-- A number from bits, the first lowest. -/
def natOf (bits : List Bool) : Nat := bits.foldr (fun b a => b.toNat + 2 * a) 0

/-- `n` ten-bit symbols from bits, the first bit of each lowest. -/
def symbolsOf : Nat → List Bool → List Nat
  | 0, _ => []
  | n + 1, bits => natOf (bits.take 10) :: symbolsOf n (bits.drop 10)

/-- The bits of symbols, the lowest of each first. -/
def bitsOfSymbols (symbols : List Nat) : List Bool := symbols.flatMap fun s => bitsLsb s 10

/-- The data bits of a marker period: 60 codewords of 132 symbols (R228). -/
def periodData : Nat := 60 * 1320

/-- `n` codewords over a lane's data bits, scrambled from register `s` on (R227, R228). -/
def codewordsOf : Nat → Nat → List Bool → List (List Nat)
  | 0, _, _ => []
  | n + 1, s, bits =>
    let r := scramble (bits.take 1320) s
    rsEncode (symbolsOf 132 r.1) :: codewordsOf n r.2 (bits.drop 1320)

/-! Frames, flits and control messages. -/

/-- A step frame (R229): KIND, the header's bits [15:2], and 13 payload fields. -/
def frameOf (kind header : Nat) (fields : List W32) : BitVec 432 :=
  BitVec.ofNat 432 (kind ||| header % 2 ^ 14 <<< 2 ||| (List.range 13).foldl (fun a k => a ||| (fields.getD k 0).toNat <<< (16 + 32 * k)) 0)

/-- The 54 bits of a frame that lane `l` carries (R229). -/
def frameLane (frame l : Nat) : Nat := bitsAt frame (54 * l) 54

/-- Payload field `k` of a frame. -/
def frameField (frame k : Nat) : W32 := BitVec.ofNat 32 (frame >>> (16 + 32 * k))

/-- A link flit of 320 bits (R240). -/
def flitOf (seqNo vc ack : Nat) (ackV nak : Bool) (kind : Nat) (data : BitVec 256) : BitVec 320 :=
  let v := seqNo % 4096 ||| vc % 4 <<< 12 ||| ack % 4096 <<< 14 ||| ackV.toNat <<< 26 ||| nak.toNat <<< 27 ||| kind % 16 <<< 28 ||| data.toNat <<< 32
  BitVec.ofNat 320 (v ||| crc32c (leBytes 36 v) <<< 288)

/-- The ten 32-bit fields of a link flit, lowest first. -/
def flitFields (flit : BitVec 320) : List W32 := (List.range 10).map fun k => BitVec.ofNat 32 (flit.toNat >>> (32 * k))

/-- The 104 bits of a control message (R242). -/
def controlBits (kind body : Nat) : Nat :=
  let v := kind % 256 ||| body % 2 ^ 88 <<< 8
  v ||| controlCrc v <<< 96

/-- The header bits [15:2] that carry fragment `k` of a message: CSTART and 13 bits (R229, R242). -/
def fragmentOf (msg k : Nat) : Nat := (k == 0).toNat ||| bitsAt msg (13 * k) 13 <<< 1

/-- The row of R242's table in which a message TYPE stands. -/
def controlRow (kind : Nat) : Nat :=
  match kind with
  | 2 => 0
  | 3 => 1
  | 4 => 1
  | 5 => 1
  | 6 => 2
  | 7 => 3
  | 8 => 4
  | _ => 5

namespace Link

/-- A control message waits behind those of its own row and of the rows before it (R242). -/
def pend (x : Link) (kind body : Nat) : Link :=
  let row := controlRow kind
  { x with txCtl := x.txCtl.takeWhile (fun m => m.1 ≤ row) ++ (row, controlBits kind body) :: x.txCtl.dropWhile (fun m => m.1 ≤ row) }

/-- The header bits of the next frame: a fragment of the message being sent, the first of the next one, or none. -/
def nextFragment (x : Link) : Nat × Link :=
  match x.txFrag, x.txCtl with
  | h :: rest, _ => (h, { x with txFrag := rest })
  | [], (_, m) :: rest => (fragmentOf m 0, { x with txFrag := (List.range 7).map fun k => fragmentOf m (k + 1), txCtl := rest })
  | [], [] => (0, x)

/-- A link flit with this end's present acknowledgement (R240, R241). -/
def flit (x : Link) (kind vc seqNo : Nat) (nak : Bool) (data : BitVec 256) : BitVec 320 :=
  flitOf seqNo vc (x.rxSeq + 4095) x.rxAny nak kind data

/-- The next `n` fields of the packet stream, at most 13; null flits fill it where nothing waits (R240). -/
def nextFields (x : Link) (n : Nat) : List W32 × Link :=
  let fill := flitFields (x.flit 0 0 x.txSeq false 0)
  let s := if x.txFields.length < n then x.txFields ++ fill ++ fill else x.txFields
  (s.take n, { x with txFields := s.drop n })

/-- Whether packet traffic or control fragments wait, or null flits must go because the replay buffer is full (R241). -/
def waiting (x : Link) : Bool := !x.txFields.isEmpty || !x.txFrag.isEmpty || !x.txCtl.isEmpty || 512 ≤ x.replay.length

/-- `n` further frames of the period: packet frames while a link that is UP has traffic, else fill frames (R229). -/
def moreFrames (up : Bool) : Nat → Link → Link
  | 0, x => x
  | n + 1, x =>
    if up && x.waiting then
      let h := x.nextFragment
      let f := h.2.nextFields 13
      moreFrames up n { f.2 with txFrames := f.2.txFrames ++ [frameOf 1 h.1 f.1] }
    else moreFrames up n { x with txFrames := x.txFrames ++ [0] }

/-- The frames of a marker period are made up to its capacity; gives lane `l`'s data bits, and the link after it (R228, R229). -/
def period (x : Link) (up : Bool) : (Nat → List Bool) × Link :=
  let x := x.moreFrames up ((x.txOff + periodData + 53) / 54 - x.txFrames.length)
  (fun l => ((x.txFrames.flatMap fun f => bitsLsb (frameLane f.toNat l) 54).drop x.txOff).take periodData,
   { x with txFrames := x.txFrames.drop ((x.txOff + periodData) / 54), txOff := (x.txOff + periodData) % 54 })

/-- Whether injection inverts the bit number `c` since GO (R247): KIND, lanes, burst length, exponent. -/
def inverts (inj : Nat × Nat × Nat × Nat) (c : Nat) : Bool :=
  match inj.1 with
  | 1 => c == 0
  | 2 => decide (c < inj.2.2.1)
  | 3 => (c + 1) % 2 ^ inj.2.2.2 == 0
  | _ => false

/-- A lane's bits with the errors injected into them, and the link that has counted them (R247). -/
def injected (x : Link) (l : Nat) (bits : List Bool) : List Bool × Link :=
  match x.inject with
  | some inj =>
    if inj.2.1.testBit l then
      let c := SMap.get 0 x.injAt l
      (bits.mapIdx fun k b => xor b (inverts inj (c + k)), { x with injAt := SMap.set 0 x.injAt l (c + bits.length) })
    else (bits, x)
  | none => (bits, x)

/-- Received data bits of lane `l` follow those that wait for their frame; the bits before the first frame are skipped. -/
def takeBits (x : Link) (l : Nat) (bits : List Bool) (bad : Bool) : Link :=
  let skip := SMap.get 0 x.rxSkip l
  { x with rxSkip := SMap.set 0 x.rxSkip l (skip - bits.length),
           rxBits := SMap.set [] x.rxBits l (SMap.get [] x.rxBits l ++ (bits.drop skip).map fun b => (b, bad)) }

/-- The next whole frame, once every lane has its 54 bits: the frame, which of its bits an uncorrectable codeword carried, and the link
without it (R229, R238). -/
def nextFrame (x : Link) : Option (Nat × Nat × Link) :=
  let lane (l : Nat) : List (Bool × Bool) := SMap.get [] x.rxBits l
  if (List.range 8).all fun l => 54 ≤ (lane l).length then
    let whole := (List.range 8).flatMap fun l => (lane l).take 54
    some (natOf (whole.map (·.1)), natOf (whole.map (·.2)),
      { x with rxBits := (List.range 8).foldl (fun m l => SMap.set [] m l ((lane l).drop 54)) x.rxBits })
  else none

end Link

namespace Dev

/-- LGRPg.STATUS.STATE (R252). -/
def lgState (d : Dev) (gi : Nat) : Nat := d.g (pLGRP gi) LGRP_STATUS_STATE
/-- MODE and RATE as they act (R224, R252). -/
def lgMode (d : Dev) (gi : Nat) : Nat := d.g (pLGRP gi) LGRP_CFG_MODE % 3
def lgRate (d : Dev) (gi : Nat) : Nat := d.g (pLGRP gi) LGRP_CFG_RATE % 3

/-- A lane sends a run of bits (R224): a bit that no pair took waits for the next run. -/
def lineOut (d : Dev) (gi l : Nat) (bits : List Bool) : Dev :=
  let all := (SMap.get? (d.linkAt gi).half l).toList ++ bits
  let levels := lineLevels (d.lgRate gi) all
  let d := d.modLink gi fun x => { x with half := match unpaired (d.lgRate gi) all with | some b => SMap.put x.half l b | none => SMap.del x.half l }
  if levels.isEmpty then d else d.emit (.line gi l levels)

/-- A link flit joins the packet stream (R240). -/
def sendFlit (d : Dev) (gi : Nat) (flit : BitVec 320) : Dev :=
  (d.modLink gi fun x => { x with txFields := x.txFields ++ flitFields flit }).emit (.flit gi flit)

end Dev

end Sys2Proof.Machine
end

