-- ==== Sys2Proof/Machine/Aes.lean ====
section
/-! DEFINITION. What inline encryption computes with: AES-256, XTS (R358), GMAC (R359, R361), and the derivation of its working keys (R365),
as FIPS 197, IEEE 1619, NIST SP 800-38D, SP 800-38B and SP 800-108 define them. -/

namespace Sys2Proof.Machine

/-! AES-256 over lists of 16 bytes, in the order of the block. -/

/-- A byte times x in AES's field. -/
def aesDouble (b : Byte) : Byte := b <<< 1 ^^^ (if b.msb then 0x1B else 0)

/-- The product of two bytes in AES's field, over the low `n` bits of the second. -/
def aesTimes : Nat → Byte → Byte → Byte
  | 0, _, _ => 0
  | n + 1, a, b => (if b.getLsbD 0 then a else 0) ^^^ aesTimes n (aesDouble a) (b >>> 1)

/-- The S-box at a byte: the affine map of its inverse, which is its power 254. -/
def aesSubOf (b : Byte) : Byte :=
  let sq (x : Byte) : Byte := aesTimes 8 x x
  let p2 := sq b
  let p4 := sq p2
  let p8 := sq p4
  let p16 := sq p8
  let p32 := sq p16
  let p64 := sq p32
  let inv := [p4, p8, p16, p32, p64, sq p64].foldl (aesTimes 8) p2
  inv ^^^ inv.rotateLeft 1 ^^^ inv.rotateLeft 2 ^^^ inv.rotateLeft 3 ^^^ inv.rotateLeft 4 ^^^ 0x63

/-- The S-box as one number of 256 bytes. -/
def aesBox : Nat := (List.range 256).foldl (fun acc k => acc ||| (aesSubOf (BitVec.ofNat 8 k)).toNat <<< (8 * k)) 0
/-- The S-box's value for a byte. -/
def aesSub (b : Byte) : Byte := BitVec.ofNat 8 (aesBox >>> (8 * b.toNat))

/-- One more word of the key schedule of a 256-bit key: `w` holds the words so far, the newest first, `k` is its number. -/
def aesNextWord (k : Nat) (w : List (List Byte)) : List Byte :=
  let prev := w.headD []
  let mixed :=
    if k % 8 == 0 then List.zipWith (· ^^^ ·) ((prev.drop 1 ++ prev.take 1).map aesSub) [(List.range (k / 8 - 1)).foldl (fun r _ => aesDouble r) 1, 0, 0, 0]
    else if k % 8 == 4 then prev.map aesSub
    else prev
  List.zipWith (· ^^^ ·) (w.getD 7 []) mixed

/-- The words of the key schedule, newest first, `n` of them added to the key's eight. -/
def aesSchedule (key : List Byte) : Nat → List (List Byte)
  | 0 => ((List.range 8).map fun i => (key.drop (4 * i)).take 4).reverse
  | n + 1 =>
    let w := aesSchedule key n
    aesNextWord (8 + n) w :: w

/-- Column `c` of a block after its rows are shifted. -/
def aesColumn (s : List Byte) (c : Nat) : List Byte := (List.range 4).map fun r => s.getD (4 * ((c + r) % 4) + r) 0

/-- The mix of one column. -/
def aesMix (col : List Byte) : List Byte :=
  (List.range 4).map fun r =>
    let at' (k : Nat) : Byte := col.getD ((r + k) % 4) 0
    aesDouble (at' 0) ^^^ (aesDouble (at' 1) ^^^ at' 1) ^^^ at' 2 ^^^ at' 3

/-- The rounds over a block: each key but the last mixes the columns. -/
def aesRounds : List (List Byte) → List Byte → List Byte
  | [], s => s
  | [last], s => List.zipWith (· ^^^ ·) last ((List.range 4).flatMap (aesColumn (s.map aesSub)))
  | key :: keys, s => aesRounds keys (List.zipWith (· ^^^ ·) key ((List.range 4).flatMap fun c => aesMix (aesColumn (s.map aesSub) c)))

/-- One block encrypted under a 256-bit key. -/
def aesBlock (key block : List Byte) : List Byte :=
  let w := (aesSchedule key 52).reverse
  let keys := (List.range 15).map fun i => ((w.drop (4 * i)).take 4).flatten
  aesRounds (keys.drop 1) (List.zipWith (· ^^^ ·) (keys.headD []) block)

/-- A block as a number, its first byte the most significant, and back. -/
def ofBlock (n : Nat) : List Byte := (leBytes 16 n).reverse
def aesNumber (key : List Byte) (n : Nat) : Nat := beNat (aesBlock key (ofBlock n))

/-! XTS. -/

/-- The tweak of the next block: the present one, as a little-endian number, times x. -/
def xtsNext (t : Nat) : Nat := t * 2 % 2 ^ 128 ^^^ (if t.testBit 127 then 0x87 else 0)

/-- The tweak of block `j` of a data unit. -/
def xtsTweak (tweakKey : List Byte) (unit : Nat) : Nat → Nat
  | 0 => leNat (aesBlock tweakKey (leBytes 16 unit))
  | j + 1 => xtsNext (xtsTweak tweakKey unit j)

/-- Block `j` of a data unit encrypted. -/
def xtsBlock (dataKey tweakKey : List Byte) (unit j : Nat) (plain : List Byte) : List Byte :=
  let mask := leBytes 16 (xtsTweak tweakKey unit j)
  List.zipWith (· ^^^ ·) (aesBlock dataKey (List.zipWith (· ^^^ ·) plain mask)) mask

/-! GMAC. -/

/-- The product in GMAC's field of a block with what `n` further bits of another select: bit 127 of a number stands for x^0. -/
def gmacTimes : Nat → Nat → Nat → Nat
  | 0, _, _ => 0
  | n + 1, x, v => (if x.testBit n then v else 0) ^^^ gmacTimes n x (v / 2 ^^^ (if v % 2 == 1 then 0xE1 <<< 120 else 0))

/-- Bytes in blocks of 16, the last filled up with zeros, as numbers. -/
def blocksOf (bs : List Byte) : List Nat :=
  (List.range ((bs.length + 15) / 16)).map fun i =>
    let b := (bs.drop (16 * i)).take 16
    beNat (b ++ List.replicate (16 - b.length) 0)

/-- The first 64 bits of GMAC over some bytes, the message empty, under a 96-bit IV. -/
def gmac64 (key : List Byte) (iv : Nat) (bs : List Byte) : Nat :=
  let h := aesNumber key 0
  let sum := (blocksOf bs ++ [(8 * bs.length) <<< 64]).foldl (fun y b => gmacTimes 128 (y ^^^ b) h) 0
  (sum ^^^ aesNumber key (iv <<< 32 ||| 1)) >>> 64

/-! CMAC and the derivation of keys. -/

/-- A block, as a number, times x for CMAC's subkeys. -/
def cmacDouble (n : Nat) : Nat := n * 2 % 2 ^ 128 ^^^ (if n.testBit 127 then 0x87 else 0)

/-- CMAC of some bytes, which are not none. -/
def cmac (key bs : List Byte) : Nat :=
  let k1 := cmacDouble (aesNumber key 0)
  let whole := bs.length % 16 == 0
  let padded := if whole then bs else bs ++ [0x80]
  let blocks := blocksOf padded
  let last := (blocks.getLast?.getD 0) ^^^ (if whole then k1 else cmacDouble k1)
  aesNumber key (((blocks.dropLast).foldl (fun y b => aesNumber key (y ^^^ b)) 0) ^^^ last)

/-- A 256-bit key derived in counter mode: counter, label, zero, context, length, each number most significant byte first. -/
def deriveKey (master label context : List Byte) : List Byte :=
  (List.range 2).flatMap fun i => ofBlock (cmac master ((leBytes 4 (i + 1)).reverse ++ label ++ [0] ++ context ++ (leBytes 4 256).reverse))

/-- The letters of a key's name. -/
def ascii (name : String) : List Byte := name.toList.map fun c => BitVec.ofNat 8 c.toNat

end Sys2Proof.Machine
end

