-- ==== Sys2Proof/Machine/Sample.lean ====
section
/-! DEFINITION. Comparators: taking a sample and making a hit (R312 to R314). What a hit does is in Trigger.lean. -/

namespace Sys2Proof.Machine.Dev

/-- Whether a sample hits under OP (R313); `prev` is the previous masked sample, if one was taken. -/
def opHits (op v c : Nat) (prev : Option Nat) : Bool :=
  match op with
  | 0 => v == c
  | 1 => v ≠ c
  | 2 => c ≤ v
  | 3 => v < c
  | 4 => toSigned 64 c ≤ toSigned 64 v
  | 5 => toSigned 64 v < toSigned 64 c
  | 6 => match prev with | some q => q ≠ v | none => false
  | _ => true

/-- Comparator `k` takes a sample (R313, R314): at most one hit a step, counted in COUNT. -/
def sample (d : Dev) (k x : Nat) : Dev :=
  let m := d.g pTRG (TRG_CMASK_MASK k)
  let v := x % 2 ^ 64 &&& m
  let c := d.g pTRG (TRG_CVALUE_VALUE k) &&& m
  let hit := opHits (d.g pTRG (TRG_CCFG_OP k)) v c (SMap.get? d.trg.prev k)
  let d := { d with trg := { d.trg with prev := SMap.put d.trg.prev k v } }
  if hit && !(d.trg.hits.any (fun h => h.1 == k)) then
    { d with trg := { d.trg with hits := d.trg.hits ++ [(k, x)] } }.add pTRG (TRG_CCOUNT_COUNT k) 1
  else d

/-- A sample is offered to every enabled comparator of a KIND whose source field satisfies `src` (R312). -/
def offer (d : Dev) (kind : Nat) (src : Nat → Bool) (x : Nat) : Dev :=
  d.each (List.range 32) fun d k =>
    if d.b pTRG (TRG_CCFG_EN k) && d.g pTRG (TRG_CCFG_KIND k) == kind && src (d.g pTRG (TRG_CSRC_SRC k)) then d.sample k x else d

/-- A BP tap (KIND 1). -/
def offerBp (d : Dev) (n t b s : Nat) (v : Bool) : Dev :=
  d.offer 1 (fun x => bitsAt x 0 26 == n + t <<< 6 + b <<< 11 + s <<< 17) v.toNat

/-- A WALU tap (KIND 2). -/
def offerWalu (d : Dev) (n t w s v : Nat) : Dev :=
  d.offer 2 (fun x => bitsAt x 0 21 == n + t <<< 6 + w <<< 11 + s <<< 12) v

/-- A lane word or frame (KIND 3). -/
def offerLane (d : Dev) (lane v : Nat) : Dev := d.offer 3 (fun x => bitsAt x 0 7 == lane) v

/-- A queue event (KIND 4): 0 written, 1 read, 2 END written, 3 LEVEL_HIT, 4 OVERRUN. -/
def offerQueue (d : Dev) (q ev v : Nat) : Dev := d.offer 4 (fun x => bitsAt x 0 16 == q + ev <<< 13) v

end Sys2Proof.Machine.Dev
end

