-- ==== Sys2Proof/Machine/Routes.lean ====
section
/-! DEFINITION. Places and routes on the packet network (R115, R255 to R262), headers and data flits (R259, R266, R267), and response buffers
(R264, R265). -/

namespace Sys2Proof.Machine

/-- Column and row of a cluster (R115). -/
def meshX (n : Nat) : Nat := 4 * (n / 16 % 2) + n % 4
def meshY (n : Nat) : Nat := 4 * (n / 32) + n / 4 % 4
/-- The cluster at a column and row. -/
def meshAt (x y : Nat) : Nat := 16 * (x / 4 + 2 * (y / 4)) + x % 4 + 4 * (y % 4)

/-- Controller and port that serve an HBM address (R258). -/
def hbmPort (a : Nat) : Nat × Nat := (a / 4096 % 4, a / 16384 % 20)
/-- The destination ID of that port (R257). -/
def hbmDest (a : Nat) : Nat := 0x40 + 20 * (hbmPort a).1 + (hbmPort a).2

/-- Router and local port of an endpoint (R257). -/
def portAt (id : Nat) : Option (Nat × Nat × Nat) :=
  let hub := Config.hubAt id
  if id < 0x40 then some (meshX id, meshY id, 0)
  else if id < 0x90 then
    let q := (id - 0x40) / 20
    let j := (id - 0x40) % 20
    some (if q % 2 == 0 then 0 else 7, j / 2, 1 + 2 * (q / 2) + j % 2)
  else if id == 0xA0 then some (hub.1 % 8, 9, hub.2.2 % 5)
  else if id < 0xA0 || (0xC0 ≤ id && id < 0xF0) then some (hub.1 % 8, 8 + hub.2.1 % 2, hub.2.2 % 5)
  else none

/-- Whether a local port exists at a router. -/
def portExists (p : Nat × Nat × Nat) : Bool := (List.range 256).any fun id => portAt id == some p

/-- Where a hop list of `n` hops leads from a router, if it obeys R262; `last` is the hop before, 4 none. -/
def walkHops : Nat → Nat → Nat → Nat → Nat → Option (Nat × Nat)
  | 0, _, _, x, y => some (x, y)
  | n + 1, hops, last, x, y =>
    let h := hops % 4
    let turnsBack := last ≠ 4 && h == (last + 2) % 4
    let late := h % 2 == 1 && last ≠ 4 && last % 2 == 0
    if turnsBack || late then none
    else match h with
      | 0 => if y < 9 then walkHops n (hops / 4) h x (y + 1) else none
      | 1 => if x < 7 then walkHops n (hops / 4) h (x + 1) y else none
      | 2 => if 0 < y then walkHops n (hops / 4) h x (y - 1) else none
      | _ => if 0 < x then walkHops n (hops / 4) h (x - 1) y else none

/-- Whether a port accepts a route entry (R262). -/
def routeLegal (port e : Nat) : Bool :=
  match portAt port with
  | none => false
  | some (x, y, _) =>
    let n := bitsAt e 32 5
    if 16 < n then false
    else match walkHops n (bitsAt e 0 32) 4 x y with
      | some (a, b) => portExists (a, b, bitsAt e 37 3)
      | none => false

/-- The header of a packet that travels by a route entry, whose low 40 bits are its ROUTE, HOPS and EXIT (R259, R261). -/
def headerOf (k : Packet) (entry : Nat) : BitVec 256 :=
  let v := entry % 2 ^ 40 ||| k.vc.val <<< 40 ||| k.src.val <<< 42 ||| k.dst.val <<< 50 ||| k.op.val <<< 58 ||| k.len.val <<< 64 ||| k.tag.val <<< 68 |||
    k.part.val <<< 80 ||| k.devlvl.toNat <<< 84 ||| k.fence.toNat <<< 85 ||| k.status.val <<< 86 ||| k.addr.toNat <<< 94 |||
    k.remoteDev.val <<< 158 ||| k.remoteDst.val <<< 167
  BitVec.ofNat 256 (v ||| headerCheck v <<< 247)

/-- The packet that a header's low 247 bits describe, without its data (R259). -/
def headedPacket (v : Nat) : Packet :=
  { vc := Fin.ofNat 4 (bitsAt v 40 2), src := Fin.ofNat 256 (bitsAt v 42 8), dst := Fin.ofNat 256 (bitsAt v 50 8), op := Fin.ofNat 64 (bitsAt v 58 6),
    len := Fin.ofNat 16 (bitsAt v 64 4), tag := Fin.ofNat 4096 (bitsAt v 68 12), part := Fin.ofNat 16 (bitsAt v 80 4), devlvl := v.testBit 84,
    fence := v.testBit 85, status := Fin.ofNat 256 (bitsAt v 86 8), addr := BitVec.ofNat 64 (bitsAt v 94 64),
    remoteDev := Fin.ofNat 512 (bitsAt v 158 9), remoteDst := Fin.ofNat 256 (bitsAt v 167 8), data := [], checks := [] }

/-- Opcodes of R259. -/
def opKnown (op : Nat) : Bool := [0x01, 0x02, 0x08, 0x09, 0x10, 0x11, 0x18, 0x19, 0x20, 0x21].contains op
/-- Whether a request's response carries data (R259). -/
def opReads (op : Nat) : Bool := op == 0x01 || op == 0x09 || op == 0x10

/-- The packet of a response (R259 to R261, R264): it goes back to the request's source on RSP. -/
def rspOf (k : Packet) (status : Nat) (bs : List Byte) : Packet :=
  { k with vc := 1, src := k.dst, dst := k.src, op := if opReads k.op then 0x20 else 0x21, len := Fin.ofNat 16 ((bs.length + 31) / 32),
           status := Fin.ofNat 256 status, data := bs, checks := [] }

/-! Data flits (R267). -/

/-- The flits of a packet's data. -/
def flitsOf (k : Packet) : List Nat := (List.range ((k.data.length + 31) / 32)).map fun i => leAt k.data (32 * i) 32

/-- What the destination finds in a packet's data flits, first to last. -/
def flitChecks (k : Packet) : List Checked := (flitsOf k).mapIdx fun i v => match k.checks[i]? with
  | some c => flitSecded v c.toNat
  | none => .ok

/-- Whether some flit is uncorrectable. -/
def packetBad (k : Packet) : Bool := (flitChecks k).any fun c => match c with | .ue _ => true | _ => false

/-- How many flits have an uncorrectable error. -/
def packetUncorrected (k : Packet) : Nat := (flitChecks k).countP fun c => match c with | .ue _ => true | _ => false

/-- How many flits have a correctable error. -/
def packetCorrected (k : Packet) : Nat := (flitChecks k).countP fun c => match c with | .ce _ _ => true | _ => false

/-- A packet with its correctable flits corrected. -/
def packetFixed (k : Packet) : Packet :=
  { k with data := (List.zipWith (fun c v => match c with | .ce x _ => leBytes 32 x | _ => leBytes 32 v) (flitChecks k) (flitsOf k)).flatten.take k.data.length }

/-- Which sources share response buffers, and how many there are (R265). -/
def buffersOf (src : Nat) : Nat × Nat :=
  if src < 0x40 then (src, 256)
  else if 0x90 ≤ src && src < 0x94 then (0x90, 4096)
  else if 0xC0 ≤ src && src < 0xE0 then (src, 128)
  else if 0xE0 ≤ src && src < 0xF0 then (src, 256)
  else (0x94, 4096)

/-- Who makes a request (R260). -/
structure Req where
  src    : Nat
  part   : Nat
  devlvl : Bool
deriving DecidableEq, Repr

/-- The function a request acts for. -/
def reqFn (r : Req) : Nat := if r.devlvl then 0 else r.part + 1

/-- The cluster whose page an address lies in. -/
def cluOf (a : Nat) : Option Nat := if 0x100000 ≤ a && a < 0x500000 then some ((a - 0x100000) / 0x10000) else none

/-- The endpoint behind which the page at a base stands (R257): a cluster's at its interface, HMCq's at its port 0, LNK's with the device register
block, CRR's at courier 0; none is named for PTNp, nor for what is no page of R433 (DESIGN CHOICE, log entry 53). -/
def pageHome (base : Nat) : Option Nat :=
  match cluOf base with
  | some n => some n
  | none =>
    if 0x30000 ≤ base then none
    else if 0x20000 ≤ base then some (0xE0 + (base - 0x20000) / 0x1000)
    else match base / 0x1000 with
      | 0x10 => some 0x90 | 0x14 => some 0x40 | 0x15 => some 0x54 | 0x16 => some 0x68 | 0x17 => some 0x7C | 0x1B => some 0x94 | 0x1C => some 0x98
      | 0x18 => some 0x99 | 0x19 => some 0x9A | 0x1A => some 0x9B | 0xD => some 0x9C | 0xE => some 0x9D | 0xF => some 0x9E | 0x1F => some 0x9F
      | 0x1D => some 0xC0 | _ => some 0xA0

/-- The queue port that serves a queue for the host (R257; which of the four is not given: DESIGN CHOICE, log entry 53). -/
def queuePort (q : Nat) : Nat := 0x94 + q % 4

namespace Dev

/-- LDR.BOOT_STATUS.STATE. -/
def bootState (d : Dev) : Nat := d.g pLDR LDR_BOOT_STATUS_STATE

/-- The entry of a port's route table in the hub block tables of the bundle that runs (R262). -/
def bundleRoute (d : Dev) (port idx : Nat) : Nat := (Config.hubRoute (d.g pLDR LDR_BUNDLE_VERSION_VERSION) port idx).toNat

/-- The entry of a port's route table for a destination (R261): as written, or as Stage took it from the bundle's hub block tables. -/
def routeEntry (d : Dev) (port idx : Nat) : Nat :=
  match SMap.get? d.noc.routes (port * 256 + idx) with
  | some e => e.toNat
  | none => if 5 ≤ d.bootState && (d.bundleRoute port idx).testBit 63 && routeLegal port (d.bundleRoute port idx) then d.bundleRoute port idx else 0

/-- Whether a port has a valid route to a destination (R262). -/
def routed (d : Dev) (src dst : Nat) : Bool := (d.routeEntry src dst).testBit 63

/-- Whether Stage finds an illegal entry in the bundle's tables when it writes them (R262). -/
def bundleRouteBad (d : Dev) : Bool :=
  (List.range 0x10000).any fun k =>
    (d.bundleRoute (k / 256) (k % 256)).testBit 63 && (portAt (k / 256)).isSome && !routeLegal (k / 256) (d.bundleRoute (k / 256) (k % 256))

/-- The request of a source that has no valid route completes with NO_ROUTE (R262). -/
def noRoute (d : Dev) : Dev := d.add pNOC NOC_NO_ROUTE_COUNT 1

/-- Whether a source may use a tag and holds a free response buffer (R264, R265). -/
def mayReserve (d : Dev) (src tag : Nat) : Bool :=
  let c := buffersOf src
  !(d.noc.outst.any fun o => o.src == src && o.tag == tag) && !d.noc.quar.contains (src, tag) &&
    (d.noc.outst.filter fun o => (buffersOf o.src).1 == c.1).length < c.2

/-- The lowest tag that a source may use. -/
def freeTag (d : Dev) (src : Nat) : Option Nat := (List.range 4096).find? fun t => d.mayReserve src t

/-- A request to which no response comes ends with TIMEOUT: it is counted and raised, and its tag is out of use (R265). -/
def timedOut (d : Dev) (src dst vc a : Nat) : Dev :=
  let t := d.freeTag src
  let d := { d with noc := { d.noc with quar := d.noc.quar ++ (t.map fun t => (src, t)).toList } }
  (d.add pNOC NOC_TIMEOUTS_COUNT 1).raise 0x0B5 2 16 (src ||| dst <<< 8 ||| vc <<< 16 ||| t.getD 0 <<< 18) a

/-- A response buffer is reserved (R264). -/
def addOutst (d : Dev) (o : Outst) : Dev := { d with noc := { d.noc with outst := d.noc.outst ++ [o] } }

/-- The writes among the outstanding requests that `p` holds for, as (source, tag). -/
def unacked (d : Dev) (p : Outst → Bool) : List (Nat × Nat) := (d.noc.outst.filter fun o => o.write && p o).map fun o => (o.src, o.tag)

/-- A target's response (R261, R264): it travels by the table of the target's port; without a valid entry it is not sent. -/
def respond (d : Dev) (k : Packet) (status : Nat) (bs : List Byte) : Dev :=
  let e := d.routeEntry k.dst k.src
  if e.testBit 63 then (d.emit (.packet k.dst (headerOf (rspOf k status bs) e))).emit (.response k.src k.tag status bs) else d

/-- The source of a request completes it itself with a status (R262, R265). -/
def synthesise (d : Dev) (src tag status : Nat) : Dev := d.emit (.response src tag status [])

/-! Accesses of the host: requests of the PCI engine at 0x90 to the endpoint behind which a page or a queue stands (R257, R262, R268). -/

/-- Whether the network carries a host access to an endpoint: not the boot function's, and not one that the PCI block itself answers (DESIGN CHOICE,
log entry 53). -/
def overNoc (d : Dev) (h : Nat) : Bool := d.full && !(0x90 ≤ h && h < 0x94)
/-- Whether the host's request has a route to an endpoint. -/
def asked (d : Dev) (h : Option Nat) : Bool := match h with | some h => !d.overNoc h || d.routed 0x90 h | none => true
/-- Whether the endpoint's response has a route to the host. -/
def heard (d : Dev) (h : Option Nat) : Bool := match h with | some h => !d.overNoc h || d.routed h 0x90 | none => true

/-- A host access to which no response comes is logged (R265, R268). -/
def hostTimeout (d : Dev) (fn : Fn) (h : Option Nat) (bar off : Nat) (write : Bool) : Dev :=
  (d.timedOut 0x90 (h.getD 0) (if bar == 0 then 3 else 0) off).accessError fn bar off write

/-- A host access on its way to an endpoint: `k` where it arrives; `fail` where it has no route, which is logged. A write whose acknowledgement
has no way back has taken effect, and is logged. -/
def viaNoc (d : Dev) (fn : Fn) (h : Option Nat) (bar off : Nat) (write : Bool) (fail k : Dev → Dev) : Dev :=
  if !d.asked h then fail (d.noRoute.accessError fn bar off write)
  else if write && !d.heard h then (k d).hostTimeout fn h bar off true
  else k d

/-- Index of cluster `n` among its partition's clusters. -/
def cluIndex (d : Dev) (i n : Nat) : Nat := ((d.clustersOf i).filter (· < n)).length

/-- BAR0 offset at which a function sees the address `a` of the PF's map (R422, R423). -/
def barOff (d : Dev) (fn : Fn) (a : Nat) : Nat :=
  match fn with
  | .pf => a
  | .vf i => match cluOf a with
    | some n => 0x100000 + d.cluIndex i n * 0x10000 + a % 0x10000
    | none => (if pTRG ≤ a && a < pMQE then a - pTRG + 0x1000 else a % 0x1000)

/-- What a read of the register at `a` by a function completes with: `v`, or all ones where the response has no way back (R265, R268). -/
def answerAt (d : Dev) (fn : Fn) (a ones v : Nat) : Dev × Nat :=
  let h := pageHome (a / 0x1000 * 0x1000)
  if d.heard h then (d, v) else (d.hostTimeout fn h 0 (d.barOff fn a) false, ones)

/-- A register read is answered. -/
def reply (d : Dev) (fn : Fn) (a v : Nat) : Dev := let r := d.answerAt fn a 0xFFFFFFFF v; r.1.complete fn a r.2
/-- A 64-bit register read is answered. -/
def reply64 (d : Dev) (fn : Fn) (a v : Nat) : Dev := let r := d.answerAt fn a (2 ^ 64 - 1) v; r.1.complete fn a r.2

end Dev

end Sys2Proof.Machine
end

