-- ==== Sys2Proof/Machine/Queue.lean ====
section
/-! DEFINITION. Message queues (R281 to R298): storing, dropping, reading, notifying, flushing. -/

namespace Sys2Proof.Machine

/-- Depth in words (R282): 64 B × 2^DEPTH, DEPTH 11 to 15 acting as 10. -/
def Queue.cap (q : Queue) : Nat := 8 * 2 ^ Nat.min q.depth 10
/-- Depth in 64-byte blocks (R282). -/
def Queue.blocks (q : Queue) : Nat := 2 ^ Nat.min q.depth 10
/-- Whole packets waiting (R281). -/
def Queue.pkts (q : Queue) : Nat := (q.words.filter (·.fin)).length
/-- Words another producer than a credit holder may still store (R288). -/
def Queue.free (q : Queue) : Nat := q.cap - (q.words.length + q.reserved)
/-- The count LEVEL is compared with (R293). -/
def Queue.fill (q : Queue) : Nat := if q.unit then q.pkts else q.words.length
/-- A QFLAGS bit set (R298): 0 OVERRUN, 1 TRUNC, 2 HEAD_CUT, 3 LEVEL_HIT, 4 NO_SPACE, 5 BOUND. -/
def Queue.flag (q : Queue) (i : Nat) : Queue := { q with flags := q.flags ||| 1 <<< i }
/-- The END mark set on the last stored word (R285). -/
def Queue.endLast (q : Queue) : Queue :=
  match q.words.reverse with
  | w :: ws => { q with words := (({ w with fin := true } : QWord) :: ws).reverse }
  | [] => q
/-- Whether a write that makes `y` of the queue takes its count from below LEVEL to LEVEL or above (R293). -/
def Queue.crosses (q y : Queue) : Bool := q.level ≠ 0 && q.fill < q.level && q.level ≤ y.fill
/-- A write is dropped (R285): the stored part of its packet is cut, its rest is discarded unless the write ended it; with the KINDs of R294
that this sets. A packet whose stored words have all been taken stays the head packet until its END word comes (R295). -/
def Queue.lose (q : Queue) (fin ovr : Bool) : Queue × List Nat :=
  let cut := q.inPkt || !fin
  let y := if q.inPkt then { q.endLast with inPkt := false, taken := q.taken && !(fin && q.words.isEmpty) } else q
  let hit := q.crosses y
  let y := if hit then y.flag 3 else y
  let y := if ovr then y.flag 0 else y
  let y := if cut then y.flag 1 else y
  ({ y with discard := !fin }, (if ovr then [2] else []) ++ (if cut then [3] else []) ++ (if hit then [1] else []))
/-- Whether a packet's END is still to come (R295): one with stored words, or the head packet of which the consumer took every stored word. -/
def Queue.opened (x : Queue) : Bool := x.inPkt || (x.taken && x.words.isEmpty)

/-- The words its consumer sees: a fence word, and what stands behind it, is hidden until its producer's earlier writes are acknowledged
(R276). -/
def Queue.seen (q : Queue) : List QWord := q.words.takeWhile (·.behind.isEmpty)
/-- A word behind writes of its producer, where it carries the fence bit (R276). -/
def QWord.after (w : QWord) (writes : List (Nat × Nat)) : QWord := if w.fence then { w with behind := writes } else w
/-- The words of the head packet, END included. -/
def headPacket : List QWord → List QWord
  | [] => []
  | w :: ws => if w.fin then [w] else w :: headPacket ws

namespace Dev

/-- The partition whose range holds queue `q` (R160, R283). -/
def queueOwner (d : Dev) (q : Nat) : Option Nat :=
  (List.range 16).find? fun i => d.dirState i ≠ 0 && d.g pDEV (DEV_DIR_QBASE i) ≤ q && q < d.g pDEV (DEV_DIR_QBASE i) + d.g pDEV (DEV_DIR_QCOUNT i)

/-- The partition queue of a relative number, if its range has it. -/
def queueOf (d : Dev) (i rel : Nat) : Option Nat :=
  if rel < d.g pDEV (DEV_DIR_QCOUNT i) then some (d.g pDEV (DEV_DIR_QBASE i) + rel) else none

/-- A write of words is dropped by queue `q` (R284, R285): `fin` says whether it ended its packet, `ovr` whether OVERRUN records it. The
answer lists the KINDs of R294 it sets. -/
def dropWrite (d : Dev) (q : Nat) (fin ovr : Bool) : Dev × List Nat :=
  let y := (d.queueAt q).lose fin ovr
  let d := d.setQueue q y.1
  let d := if ovr then d.offerQueue q 4 0 else d
  let d := if y.2.contains 1 then d.offerQueue q 3 0 else d
  (if ovr && q < 16 then (d.irq pMQE 1).raise 0x0F2 2 16 (y.1.flags ||| y.1.hwm <<< 16) q else d, y.2)

/-- A write reaches queue `q` (R284, R285, R293, R297); `credit` marks a word that takes space a credit reserves (R288). The answer lists
the KINDs of R294 the write sets. -/
def push (d : Dev) (q : Nat) (w : QWord) (credit : Bool) : Dev × List Nat :=
  let x := d.queueAt q
  let credit := credit && 0 < x.reserved
  if x.discard then (d.setQueue q { x with discard := !w.fin, taken := x.taken && !(w.fin && x.words.isEmpty) }, [])
  else if !credit && x.free == 0 then d.dropWrite q w.fin true
  else
    let y := { x with words := x.words ++ [w], inPkt := !w.fin, reserved := if credit then x.reserved - 1 else x.reserved }
    let y := { y with hwm := Nat.max y.hwm y.words.length }
    let y := if x.crosses y then y.flag 3 else y
    let d := (d.setQueue q y).offerQueue q 0 w.data.toNat
    let d := if w.fin then d.offerQueue q 2 w.data.toNat else d
    if x.crosses y then (d.offerQueue q 3 0, [1]) else (d, [])

/-- The head word leaves the queue (R286, R288). -/
def takeHead (d : Dev) (q : Nat) : Option (QWord × Dev) :=
  let x := d.queueAt q
  match x.words with
  | [] => none
  | w :: ws =>
    let d := d.setQueue q { x with words := ws, copied := x.copied - 1, taken := !w.fin }
    some (w, d.offerQueue q 1 w.data.toNat)

/-- Port `x` of cluster `n` names queue `q` and is in use (R289). -/
def portQueue (d : Dev) (n x : Nat) : Option Nat :=
  if !d.b (pCLU n) (CLU_TXP_V x) then none
  else match d.ownerOf n with
    | some i =>
      match d.queueOf i (d.g (pCLU n) (CLU_TXP_QUEUE x)) with
      | some q => if (d.queueAt q).en then some q else none
      | none => none
    | none => none

/-- The read port that is the queue's only consumer: lowest cluster, then lowest port (R286). -/
def boundTo (d : Dev) (q : Nat) : Option (Nat × Nat) :=
  ((List.range 64).flatMap fun n => (List.range 8).map fun x => (n, x)).find? fun e =>
    d.portQueue e.1 e.2 == some q && d.g (pCLU e.1) (CLU_TXP_DIR e.2) == 0

/-- Whether another consumer than a read port finds nothing to take; a bound queue also sets BOUND (R286). -/
def emptyFor (d : Dev) (q : Nat) : Bool := (d.boundTo q).isSome || (d.queueAt q).seen.isEmpty

/-- BOUND set where the queue has a read port (R286). -/
def markBound (d : Dev) (q : Nat) : Dev := if (d.boundTo q).isSome then d.modQueue q (·.flag 5) else d

/-- Up to `m` words of the head packet are taken (R292). -/
def takeUpTo : Nat → Dev → Nat → List QWord × Dev
  | 0, d, _ => ([], d)
  | m + 1, d, q =>
    if (d.queueAt q).seen.isEmpty then ([], d)
    else match d.takeHead q with
    | none => ([], d)
    | some (w, d) =>
      if w.fin then ([w], d)
      else let r := takeUpTo m d q; (w :: r.1, r.2)

/-- The word of a QRD response (R292): count, END, FENCE marks. -/
def qrdWord (ws : List QWord) : Nat :=
  ws.length ||| (if ws.any (·.fin) then 64 else 0) ||| (bitsOf ws 0) <<< 7
where
  /-- FENCE mark of word i in bit i. -/
  bitsOf : List QWord → Nat → Nat
    | [], _ => 0
    | w :: ws, i => (if w.fence then 1 <<< i else 0) ||| bitsOf ws (i + 1)

/-- The answer to a QRD (R292). -/
def answerQrd (d : Dev) (q : Nat) (k : Packet) : Dev :=
  let r := takeUpTo (bitsAt k.addr.toNat 13 6) d q
  r.2.respond k 0 (leBytes 8 (qrdWord r.1) ++ r.1.flatMap (fun w => leBytes 8 w.data.toNat))

/-- The doorbell slot through which a function reaches a queue (R290). -/
def slotOf (d : Dev) (fn : Fn) (q : Nat) : Nat := match fn with | .pf => q | .vf i => q - d.g pDEV (DEV_DIR_QBASE i)

/-- A POP is answered: all ones where the response has no way back to the host (R265, R268). -/
def popReply (d : Dev) (fn : Fn) (q v : Nat) : Dev :=
  if d.heard (some (queuePort q)) then d.emit (.completion fn q v)
  else (d.hostTimeout fn (some (queuePort q)) 4 (64 * d.slotOf fn q) false).emit (.completion fn q (2 ^ 64 - 1))

/-- A doorbell POP is completed with the head word; its marks are kept for POP_STATUS (R290). -/
def completePop (d : Dev) (fn : Fn) (q : Nat) : Dev :=
  match d.takeHead q with
  | none => d
  | some (w, d) =>
    let st := 1 + (if w.fin then 2 else 0) + (if w.fence then 4 else 0)
    (d.modQueue q fun x => { x with pops := (fn, st) :: x.pops.filter (fun e => e.1 ≠ fn) }).popReply fn q w.data.toNat

/-- Held readers of a queue are served while it has words (R286). -/
def serveReaders : Nat → Dev → Nat → Dev
  | 0, d, _ => d
  | fuel + 1, d, q =>
    if d.emptyFor q then d
    else
      let x := d.queueAt q
      match x.waitPop, x.waitQrd with
      | fn :: rest, _ => serveReaders fuel ((d.setQueue q { x with waitPop := rest }).completePop fn q) q
      | [], k :: rest => serveReaders fuel ((d.setQueue q { x with waitQrd := rest }).answerQrd q k) q
      | [], [] => d

/-- Held readers of queue `q` are served where there are any. -/
def wakeReaders (d : Dev) (q : Nat) : Dev :=
  let x := d.queueAt q
  if x.waitPop.isEmpty && x.waitQrd.isEmpty then d else serveReaders (x.waitPop.length + x.waitQrd.length) d q

/-- A notification word of KIND `kind` about queue `q` (R294). -/
def notifyQueue (d : Dev) (q kind : Nat) : Dev :=
  if !(d.queueAt q).notify then d
  else
    let word (i : Nat) : QWord := ⟨BitVec.ofNat 64 (i ||| kind <<< 13 ||| (d.now % 2 ^ 48) <<< 16), true, false, []⟩
    let store (d : Dev) (t i base bit : Nat) : Dev :=
      if t == q || !(d.queueAt t).en then d
      else
        let n := (d.queueAt t).words.length
        let d := (d.push t (word i) false).1
        if n < (d.queueAt t).words.length then (d.irq base bit).wakeReaders t else d
    if q < 16 then store d 3 q pMQE 0
    else match d.queueOwner q with
      | some i =>
        if d.b (pPTN i) PTN_QNOTIFY_EN then
          match d.queueOf i (d.g (pPTN i) PTN_QNOTIFY_QUEUE) with
          | some t => store d t (q - d.g pDEV (DEV_DIR_QBASE i)) (pPTN i) 11
          | none => d
        else d
      | none => d

/-- Notifications for the KINDs a write or command set. -/
def notifyKinds (d : Dev) (q : Nat) (ks : List Nat) : Dev := d.each ks fun d k => d.notifyQueue q k

/-- A word is appended with its notifications, and held readers are served. -/
def append (d : Dev) (q : Nat) (w : QWord) (credit : Bool) : Dev :=
  let r := d.push q w credit
  (r.1.notifyKinds q r.2).wakeReaders q

/-- The far writes that a port has issued and that are not acknowledged (R139). -/
def farWrites (d : Dev) (n f : Nat) : Nat := (SMap.get [] (d.cluAt n).far f).countP (·.write)
/-- How a fence word names the far writes it waits for: port `f` of cluster `n`, with how many of the port's oldest writes. -/
def farFence (n f : Nat) : Nat := 0x100 + 4 * n + f
/-- The writes that cluster `n` has issued on its far ports and that are not acknowledged, for a fence word behind them (R276). -/
def farBehind (d : Dev) (n : Nat) : List (Nat × Nat) :=
  ((List.range 4).map fun f => (farFence n f, d.farWrites n f)).filter fun e => e.2 ≠ 0

/-- The writes of a list that still wait for their acknowledgement. -/
def stillBehind (d : Dev) (es : List (Nat × Nat)) : List (Nat × Nat) :=
  (es.map fun e => if e.1 < 0x100 then e else (e.1, Nat.min e.2 (d.farWrites ((e.1 - 0x100) / 4) (e.1 % 4)))).filter fun e =>
    if e.1 < 0x100 then d.noc.outst.any fun o => o.src == e.1 && o.tag == e.2 else e.2 ≠ 0

/-- What fence words wait for is changed by `f`; those that wait for nothing become visible (R276). -/
def modFences (d : Dev) (f : List (Nat × Nat) → List (Nat × Nat)) : Dev :=
  d.each (d.queue.filter fun e => e.2.words.any fun w => !w.behind.isEmpty) fun d e =>
    (d.modQueue e.1 fun x => { x with words := x.words.map fun w => { w with behind := f w.behind } }).wakeReaders e.1

/-- Fence words whose producers' writes are acknowledged, or abandoned with their buffers freed, become visible (R276). -/
def settleFences (d : Dev) : Dev := d.modFences d.stillBehind

/-- The write that was number `j` among the writes of port `f` of cluster `n`, counted from the oldest, is acknowledged. -/
def farAcked (d : Dev) (n f j : Nat) : Dev :=
  d.modFences fun es => d.stillBehind (es.map fun e => if e.1 == farFence n f && j < e.2 then (e.1, e.2 - 1) else e)

/-- A response buffer is freed. -/
def freeOutst (d : Dev) (src tag : Nat) : Dev :=
  { d with noc := { d.noc with outst := d.noc.outst.filter fun o => !(o.src == src && o.tag == tag) } }.settleFences

/-- Several words appended in order, the last with END and the first with FENCE as given. -/
def appendAll (d : Dev) (q : Nat) (ws : List W64) (endLast fence : Bool) : Dev :=
  match ws with
  | [] => d
  | [w] => d.append q ⟨w, endLast, fence, []⟩ false
  | w :: rest => appendAll (d.append q ⟨w, false, fence, []⟩ false) q rest endLast false

/-- A queue command or reset empties the queue (R295). -/
def flushQueue (d : Dev) (q : Nat) : Dev :=
  let x := d.queueAt q
  let y := if x.opened then { x.flag 1 with discard := true } else x
  let y := if x.taken then y.flag 2 else y
  let d := d.setQueue q { y with words := [], copied := 0, inPkt := false, taken := false }
  d.notifyKinds q ((if x.opened then [3] else []) ++ (if x.taken then [4] else []))

/-- The rest of the head packet is discarded (R296). -/
def dropHeadOf (d : Dev) (q : Nat) : Dev :=
  let x := d.queueAt q
  let head := headPacket x.words
  if x.words.isEmpty && !x.opened then d
  else
    let whole := head.any (·.fin)
    let y := { x with words := x.words.drop head.length, copied := x.copied - head.length, taken := false }
    let y := if whole then y else { y with discard := true, inPkt := false }
    let y := if x.taken then y.flag 2 else y
    (d.setQueue q y).notifyKinds q (if x.taken then [4] else [])

/-- Blocks the enabled queues in a range of numbers use (R282). -/
def blocksUsed (d : Dev) (lo hi : Nat) : Nat :=
  (SMap.range d.queue lo hi).foldl (fun a e => if e.2.en then a + e.2.blocks else a) 0

/-- Free 64-byte blocks of the pool (R298). -/
def poolFree (d : Dev) : Nat := 0x20000 - d.blocksUsed 0 8192

/-- Bridge lanes that use queue `q` are withdrawn (R251). -/
def withdrawBridge (d : Dev) (q : Nat) : Dev :=
  d.each (List.range 16) fun d gi => d.each (List.range 8) fun d l =>
    let b := pLGRP gi
    let tx := d.b b (LGRP_BRIDGE_Q_TX_EN l) && d.g b (LGRP_BRIDGE_Q_TXQ l) == q
    let rx := d.b b (LGRP_BRIDGE_Q_RX_EN l) && d.g b (LGRP_BRIDGE_Q_RXQ l) == q
    if tx || rx then
      ((d.p b (LGRP_BRIDGE_Q_TX_EN l) 0).p b (LGRP_BRIDGE_Q_RX_EN l) 0).p b LGRP_BRIDGE_STATUS_Q_REFUSED
        (d.g b LGRP_BRIDGE_STATUS_Q_REFUSED ||| 1 <<< l)
    else d

/-- QCFG.EN := 1 (R282, R298): the depth is allocated, with nothing stored or reserved in it. -/
def enableQueue (d : Dev) (q : Nat) : Dev :=
  let x := d.queueAt q
  match d.queueOwner q with
  | none => d
  | some i =>
    if x.en then d
    else
      let lo := d.g pDEV (DEV_DIR_QBASE i)
      let n := d.g pDEV (DEV_DIR_QCOUNT i)
      if d.blocksUsed lo (lo + n) + x.blocks ≤ n * 16 then d.setQueue q { x with en := true, words := [], reserved := 0 }
      else d.setQueue q (x.flag 4)

/-- A POP that finds no word returns 0 with VALID 0 (R286). -/
def emptyPop (d : Dev) (fn : Fn) (q : Nat) : Dev :=
  (d.modQueue q fun x => { x with pops := x.pops.filter (fun e => e.1 ≠ fn) }).popReply fn q 0

/-- The requests held at a queue that is given up are answered as at their limit: no words (R264, R284, R286). -/
def answerHeld (d : Dev) (q : Nat) : Dev :=
  let x := d.queueAt q
  let d := d.setQueue q { x with waitPop := [], waitQrd := [], waitQwr := [] }
  let d := d.each x.waitPop fun d fn => d.emptyPop fn q
  d.each (x.waitQrd ++ x.waitQwr) fun d k => d.respond k 0 (leBytes 8 0)

/-- Write ports give up the credits they hold on a queue (R288, R289). -/
def dropCredits (d : Dev) (q : Nat) : Dev :=
  d.each d.clu fun d e => d.modClu e.1 fun c => { c with credits := c.credits.filter (fun x => d.portQueue e.1 x.1 ≠ some q) }

/-- QCFG.EN := 0 (R298). -/
def disableQueue (d : Dev) (q : Nat) : Dev :=
  if !(d.queueAt q).en then d
  else ((((d.dropCredits q).flushQueue q).answerHeld q).modQueue q fun x => { x with en := false, reserved := 0 }).withdrawBridge q

/-- QSTATUS as read (R298). -/
def queueStatus (x : Queue) : Nat :=
  x.words.length ||| x.pkts <<< 16 ||| (if x.discard then 1 <<< 30 else 0) ||| (if x.en && x.free == 0 then 1 <<< 31 else 0)

/-- QCFG as read (R298). -/
def queueCfg (x : Queue) : Nat :=
  (if x.en then 1 else 0) ||| (if x.priv then 2 else 0) ||| x.depth <<< 2 ||| (if x.unit then 64 else 0) |||
    (if x.notify then 128 else 0) ||| x.level <<< 8

/-- The words a QWR carries, with their marks (R292). -/
def qwrWords (k : Packet) : List QWord :=
  let n := bitsAt k.addr.toNat 13 6
  (List.range n).map fun i => ⟨BitVec.ofNat 64 (leAt k.data (8 * i) 8), k.addr.getLsbD 19 && i + 1 == n, k.addr.getLsbD 20 && i == 0, []⟩

/-- A QWR is accepted whole and answered with its word count (R292). -/
def acceptQwr (d : Dev) (q : Nat) (k : Packet) : Dev :=
  let behind := d.unacked fun o => o.src == k.src.val
  let ws := (qwrWords k).map (·.after behind)
  (d.each ws fun d w => d.append q w false).respond k 0 (leBytes 8 ws.length)

/-- Held QWRs are accepted in order while their words fit (R284) or are discarded (R297). -/
def serveWriters : Nat → Dev → Nat → Dev
  | 0, d, _ => d
  | fuel + 1, d, q =>
    let x := d.queueAt q
    match x.waitQwr with
    | [] => d
    | k :: rest => if x.discard || (qwrWords k).length ≤ x.free then serveWriters fuel ((d.setQueue q { x with waitQwr := rest }).acceptQwr q k) q else d

/-- Every queue with held QWRs is served. -/
def serveHeld (d : Dev) : Dev := d.each (d.queue.filter fun e => !e.2.waitQwr.isEmpty) fun d e => serveWriters e.2.waitQwr.length d e.1

/-- Pending answers move into queue 1 while whole answers fit (R431). -/
def sendAnswers : Nat → Dev → Dev
  | 0, d => d
  | fuel + 1, d =>
    match d.answers with
    | [] => d
    | a :: rest =>
      if (d.queueAt 1).en && a.length ≤ (d.queueAt 1).free then sendAnswers fuel ({ d with answers := rest }.appendAll 1 a true false)
      else d

/-- The words of an answer to a service command (R163). -/
def answerWords (op tag status : Nat) (ws : List W64) : List W64 :=
  BitVec.ofNat 64 (op ||| ws.length <<< 8 ||| tag <<< 24 ||| status <<< 32) :: ws
/-- Stage answers a service command (R163, R431). -/
def answer (d : Dev) (op : Nat) (tag : Nat) (status : Nat) (ws : List W64) : Dev :=
  sendAnswers 64 { d with answers := d.answers ++ [answerWords op tag status ws] }

/-- A service command's packet leaves the head of queue 0, where it stands there (R163). -/
def takeService (d : Dev) (op : Nat) (tag : Nat) (arg : Nat) (ws : List W64) : Dev :=
  let hdr := BitVec.ofNat 64 (op ||| ws.length <<< 8 ||| tag <<< 24 ||| arg <<< 32)
  let x := d.queueAt 0
  let head := headPacket x.words
  if head.map (·.data) == hdr :: ws && head.any (·.fin) then
    d.setQueue 0 { x with words := x.words.drop head.length, taken := false }
  else d

end Dev
end Sys2Proof.Machine
end

