-- ==== Sys2Proof/Machine/Faults.lean ====
section
/-! DEFINITION. Event counters (R413), the event log and the last-gasp entries (R403 to R407), the maintenance arbiter (R408 to
R411), and the commands of this chapter over them. -/

namespace Sys2Proof.Machine

/-- The 32 bytes of a log entry as four words (R403). -/
def LogEntry.words (e : LogEntry) : List W64 :=
  [BitVec.ofNat 64 e.time,
   BitVec.ofNat 64 (e.num ||| e.cls <<< 16 ||| (if e.owner < 16 then e.owner <<< 24 else 1 <<< 28) ||| e.seqNo <<< 32 ||| e.rep <<< 48),
   BitVec.ofNat 64 e.i0, BitVec.ofNat 64 e.i1]

namespace Dev

/-- Counter `i` whose registers stand at `sel` and `cnt` advances by one (R413). -/
def countOne (d : Dev) (base : Nat) (cnt ovf : Fld) : Dev :=
  let v := d.g base cnt
  if v + 1 ≥ 2 ^ 48 - 1 then (d.p base cnt (2 ^ 48 - 1)).on base ovf else d.p base cnt (v + 1)

/-- The pages with an enabled counter: (page base, counter index), from the listed EN bits of SELi and SELk. -/
def enabledCounters (d : Dev) : List (Nat × Nat) :=
  d.fld.filterMap fun e =>
    let base := e.1 / 32768 * 4096
    let bit := e.1 % 32768
    if bit / 8 % 4 == 1 && bit % 8 == 2 then
      let off := bit / 8 - 1
      if base < 0x3FF0000 && 0x40 ≤ off && off < 0x50 then some (base, (off - 0x40) / 4)
      else if base == pEVC && 0x100 ≤ off && off < 0x200 then some (base, 4 + (off - 0x100) / 4)
      else none
    else none

/-- Every enabled counter of the event advances, while EVC.CTRL.RUN is 1 (R413). -/
def countEvent (d : Dev) (num : Nat) : Dev :=
  if !d.b pEVC EVC_CTRL_RUN then d
  else d.each d.enabledCounters fun d e =>
    if e.2 < 4 then (if d.g e.1 (PG_SEL_EVENT e.2) == num then d.countOne e.1 (PG_CNT_COUNT e.2) (PG_SEL_OVF e.2) else d)
    else if d.g pEVC (EVC_SEL_EVENT (e.2 - 4)) == num then d.countOne pEVC (EVC_CNT_COUNT (e.2 - 4)) (EVC_SEL_OVF (e.2 - 4)) else d

/-- A last-gasp entry is written (R407). -/
def lastGasp (d : Dev) (num cls owner i0 i1 : Nat) : Dev :=
  let used := d.g pAON AON_LG_STATUS_USED
  let i := Nat.min used 7
  let e : LogEntry := ⟨d.now, num, cls, owner, d.log.count % 65536, 0, i0, i1⟩
  let d := { d with log := { d.log with gasp := SMap.put d.log.gasp i e } }
  if used < 8 then d.p pAON AON_LG_STATUS_USED (used + 1) else d.add pAON AON_LG_STATUS_LOST 1

/-- A log entry goes to queue 2 as one packet of four words (R405). -/
def logToQueue (d : Dev) (e : LogEntry) : Dev :=
  if d.b pLOG LOG_CFG_TO_QUEUE && (d.queueAt 2).en then d.appendAll 2 e.words true false else d

/-- The log memory fails at a ring index (R406). -/
def logFail (d : Dev) (i syn : Nat) : Dev :=
  ((((d.lastGasp 0x102 2 16 i syn).on pLOG LOG_STATUS_AON_ONLY).irq pLOG 1)).raise 0x102 4 16 i syn

/-- What the check of one word of the log memory finds, as R46 builds a code over 64 bits (R403; DESIGN CHOICE, log entry 58). -/
def logWord (d : Dev) (j : Nat) (v : W64) : Checked :=
  match SMap.get? d.log.flips j with
  | some m => secdedCheck 64 71 (v.toNat ^^^ m % 2 ^ 64) (secdedByte 64 v.toNat ^^^ m / 2 ^ 64 % 256)
  | none => .ok

/-- The words of ring entry `i` are read back or read (R406): corrected ones are counted; the syndrome of the first uncorrectable one. -/
def logCheck (d : Dev) (i : Nat) (ws : List W64) : Dev × Option Nat :=
  let found := ws.zipIdx.map fun e => d.logWord (4 * i + e.2) e.1
  (d.add pLOG LOG_SRAM_CE_COUNT (found.filter fun c => match c with | .ce _ _ => true | _ => false).length,
   found.findSome? fun c => match c with | .ue s => some s | _ => none)

/-- An event that finds the log memory failed goes to the last-gasp entries by its class, and to queue 2 (R406); a controlled stop has written
its own entry (R393, R407). -/
def logPast (d : Dev) (e : LogEntry) : Dev :=
  (d.iff (decide (2 ≤ e.cls) && e.num ≠ 0x104) fun d => d.lastGasp e.num e.cls e.owner e.i0 e.i1).logToQueue e

/-- Whether a time lies within 1 ms of another (R404). -/
def within1ms (a b : Nat) : Bool := decide (a ≤ b + 1000000 ∧ b ≤ a + 1000000)

/-- The newest entry, where an event merges into it (R404): its ring index, and the entry with one more repeat. -/
def logMerge (d : Dev) (ev : Ev) : Option (Nat × LogEntry) :=
  match d.log.newest with
  | some i => match SMap.get? d.log.ring i with
    | some o =>
      if o.num = ev.num ∧ o.owner = ev.owner ∧ o.i0 = ev.i0 ∧ within1ms d.now o.time then some (i, { o with rep := Nat.min (o.rep + 1) 0xFFFF }) else none
    | none => none
  | none => none

/-- A new entry stands at ring index `i` (R403, R405, R415). -/
def logPut (d : Dev) (i : Nat) (e : LogEntry) : Dev :=
  let wraps := (SMap.get? d.log.ring i).isSome
  let d := { d with log := { d.log with ring := SMap.put d.log.ring i e, newest := some i, count := d.log.count + 1 } }
  let d := d.iff wraps fun d => d.on pLOG LOG_STATUS_WRAPPED
  let d := (d.p pLOG LOG_STATUS_HEAD (i + 1)).add pLOG LOG_ENTRIES_COUNT 1
  (((d.irq pLOG 0).raise 0x101 4 16 0 0)).logToQueue e

/-- An event is logged (R403 to R406). -/
def logEvent (d : Dev) (ev : Ev) : Dev :=
  if ev.cls = 4 || (ev.cls = 0 && !d.b pLOG LOG_CFG_LOG_CE) then d
  else
    let e : LogEntry := ⟨d.now, ev.num, ev.cls, ev.owner, d.log.count % 65536, 0, ev.i0, ev.i1⟩
    if d.b pLOG LOG_STATUS_AON_ONLY then d.logPast e
    else match d.logMerge ev with
      | some (i, o) =>
        let r := d.logCheck i o.words
        match r.2 with
        | some syn => (r.1.logFail i syn).logPast e
        | none => { r.1 with log := { r.1.log with ring := SMap.put r.1.log.ring i o } }
      | none =>
        let i := d.g pLOG LOG_STATUS_HEAD
        let r := d.logCheck i e.words
        match r.2 with
        | some syn => (r.1.logFail i syn).logPast e
        | none => r.1.logPut i e

/-- A log entry's words, zero where the ring holds none. -/
def logEntryAt (d : Dev) (i : Nat) : List W64 :=
  match SMap.get? d.log.ring i with
  | some e => e.words
  | none => [0, 0, 0, 0]

/-! The maintenance arbiter (R408 to R411). -/

/-- A holder identity (R408). -/
def mntId (code owner inst : Nat) : Nat := code ||| owner <<< 4 ||| inst <<< 9

/-- Whether a requester may run beside a holder (R409); `adds` is the mask of clusters a RESIZE adds, `tests` how many MBIST run. -/
def compatible (req hold adds tests : Nat) : Bool :=
  let a := req % 16
  let b := hold % 16
  let sameOwner := bitsAt req 4 5 == bitsAt hold 4 5
  let sameInst := req >>> 9 == hold >>> 9
  match a, b with
  | 1, 1 | 5, 5 | 1, 6 | 6, 1 | 5, 6 | 6, 5 => !sameOwner
  | 2, 2 | 6, 6 | 7, 7 | 3, 7 | 7, 3 => false
  | 3, 3 => !sameInst && tests < 4
  | 4, 4 => !sameInst
  | 6, 3 => !adds.testBit (hold >>> 9)
  | 3, 6 => !adds.testBit (req >>> 9)
  | _, _ => true

/-- Whether an identity is held. -/
def holds (d : Dev) (id : Nat) : Bool := d.mnt.slots.any (fun e => e.2 == id)

/-- The lowest-numbered conflicting holder, if the request would be refused (R410). -/
def mntConflict (d : Dev) (id adds : Nat) (sparing : Nat) : Option Nat :=
  let tests := (d.mnt.slots.filter (fun e => e.2 % 16 == 3)).length
  let adding := (d.mnt.slots.filter (fun e => e.2 % 16 == 6)).foldl (fun m e => m ||| (d.ptnAt (bitsAt e.2 4 5)).pendMask) adds
  (d.mnt.slots.find? (fun e => e.2 ≠ sparing && !compatible id e.2 adding tests)).map (·.2)

/-- A request to the arbiter (R409, R410); a retry is not recorded again. The answer is the conflicting holder, or none. -/
def mntRequest (d : Dev) (id adds sparing : Nat) (retry : Bool) : Dev × Option Nat :=
  match d.mntConflict id adds sparing with
  | none =>
    let slot := ((List.range 64).find? (fun i => (SMap.get? d.mnt.slots i).isNone)).getD 63
    (({ d with mnt := { slots := SMap.put d.mnt.slots slot id, wait := d.mnt.wait.filter (· ≠ id) } }).add pMNT MNT_GRANTS_COUNT 1, none)
  | some h =>
    if retry then (d, some h)
    else
      let d := (d.p pMNT MNT_LAST_CONFLICT_REQUESTER id).p pMNT MNT_LAST_CONFLICT_HOLDER h
      (((d.add pMNT MNT_CONFLICTS_COUNT 1).irq pMNT 0).raise 0x108 4 16 0 0, some h)

/-- An activity's holder slot is given up. -/
def mntDrop (d : Dev) (id : Nat) : Dev := { d with mnt := { d.mnt with slots := d.mnt.slots.filter (fun e => e.2 ≠ id) } }

/-- HELD.KINDS (R417). -/
def mntKinds (d : Dev) : Nat := d.mnt.slots.foldl (fun m e => m ||| 1 <<< (e.2 % 16 - 1)) 0

end Dev

end Sys2Proof.Machine
end

