-- ==== Sys2Proof/Machine/Hbm.lean ====
section
/-! DEFINITION. HBM behind inline encryption (R258, R355 to R371) and the key roll (R368 to R375). -/

namespace Sys2Proof.Machine

/-- M, the end of the data space: 92.5 GiB (R356). -/
def hbmTop : Nat := 0x1720000000
/-- Metadata cache lines a controller holds: 2 MiB of 64-byte lines (R364). -/
def cacheLines : Nat := 32768

namespace Dev

/-- Stage's, the capture engine's and other hub blocks' requests (R260). -/
def hubReq (src : Nat) : Req := ⟨src, 0, true⟩
/-- A request of partition `i` from cluster interface or hub block `src`. -/
def ptnReq (src i : Nat) : Req := ⟨src, i, false⟩

/-- Whether a request may touch a range: inside the data space, and inside its partition's quota unless DEVLVL (R165, R357). -/
def hbmAllowed (d : Dev) (r : Req) (a n : Nat) : Bool :=
  d.b pIME IME_KEYSTATE_KEY_VALID && a + n ≤ hbmTop &&
    (r.devlvl || ((d.ptnAt r.part).quotaBase ≤ a && a + n ≤ (d.ptnAt r.part).quotaBase + (d.ptnAt r.part).quotaSize))

/-- The data bytes of a range. -/
def hbmBytes (d : Dev) (a n : Nat) : List Byte := (List.range n).map fun i => SMap.get 0 d.hbm (a + i)

/-! What the stacks hold: ciphertext and metadata (R356, R358, R359, R361). -/

/-- The write counter C of a sector (R359, R360). -/
def sectorCtr (d : Dev) (sec : Nat) : Nat := SMap.get 0 d.ime.counters sec
/-- The counter of a leaf line in its node, and of a node in the root (R361). -/
def lineCtr (d : Dev) (line : Nat) : Nat := SMap.get 0 d.ime.lines line
def rootCtr (d : Dev) (node : Nat) : Nat := SMap.get 0 d.ime.root node

/-- The generation a sector, and the tree lines of a node, are under (R368). -/
def sectorGen (d : Dev) (sec : Nat) : Nat :=
  d.g pIME IME_GEN_NEWEST - (d.b pIME IME_KEYSTATE_ROLLING && d.g pKRE KRE_BOUNDARY_SECTOR ≤ sec).toNat
def treeGen (d : Dev) (node : Nat) : Nat := d.sectorGen (256 * node + 255)

/-- A working key of a generation (R365): its name is the label, the generation the context. -/
def workKey (d : Dev) (name : String) (gen : Nat) : List Byte := deriveKey (leBytes 32 d.ime.key).reverse (ascii name) (leBytes 4 gen).reverse

/-- The ciphertext of granule `gr` (R358). -/
def cipherGranule (d : Dev) (gr : Nat) : List Byte :=
  let gen := d.sectorGen (gr / 16)
  (List.range 16).flatMap fun j =>
    xtsBlock (d.workKey "K_XTS1" gen) (d.workKey "K_XTS2" gen) (gr / 16) (16 * (gr % 16) + j) (d.hbmBytes (256 * gr + 16 * j) 16)

/-- GMAC over granule `gr` with its IV: sector, granule, counter (R359). -/
def granuleMac (d : Dev) (gr : Nat) : Nat :=
  gmac64 (d.workKey "K_GMAC" (d.sectorGen (gr / 16))) (d.sectorCtr (gr / 16) ||| (gr % 16) <<< 56 ||| (gr / 16) <<< 64) (d.cipherGranule gr)

/-- GMAC over a leaf line's eight sector counters, and over a node's 32 leaf line counters, each with its level, index and counter (R361). -/
def leafMac (d : Dev) (line : Nat) : Nat :=
  gmac64 (d.workKey "K_TREE" (d.treeGen (line / 32))) (d.lineCtr line ||| line <<< 56 ||| 1 <<< 88)
    ((List.range 8).flatMap fun k => leBytes 7 (d.sectorCtr (8 * line + k)))
def nodeMac (d : Dev) (node : Nat) : Nat :=
  gmac64 (d.workKey "K_TREE" (d.treeGen node)) (d.rootCtr node ||| node <<< 56 ||| 2 <<< 88)
    ((List.range 32).flatMap fun k => leBytes 7 (d.lineCtr (32 * node + k)))

/-- The tags that the metadata region holds (R356). -/
def granuleTag (d : Dev) (gr : Nat) : Nat := d.granuleMac gr ^^^ SMap.get 0 d.ime.tagOff gr
def leafTag (d : Dev) (line : Nat) : Nat := d.leafMac line ^^^ SMap.get 0 d.ime.leafOff line
def nodeTag (d : Dev) (node : Nat) : Nat := d.nodeMac node ^^^ SMap.get 0 d.ime.nodeOff node

/-! The metadata region (R356): a tag of 8 bytes to a granule, then leaf lines of 64 bytes, then nodes of 256; the rest is reserved. -/
def tagAddr (gr : Nat) : Nat := hbmTop + 8 * gr
def leafAddr (line : Nat) : Nat := hbmTop + 0xB9000000 + 64 * line
def nodeAddr (node : Nat) : Nat := hbmTop + 0xC4900000 + 256 * node
def metaReserved : Nat := hbmTop + 0xC6020000

/-- A leaf line: eight counters of 56 bits and its tag. A node: 32 counters, its tag, 24 bytes of zero (R356). -/
def leafBytes (d : Dev) (line : Nat) : List Byte := ((List.range 8).flatMap fun k => leBytes 7 (d.sectorCtr (8 * line + k))) ++ leBytes 8 (d.leafTag line)
def nodeBytes (d : Dev) (node : Nat) : List Byte :=
  ((List.range 32).flatMap fun k => leBytes 7 (d.lineCtr (32 * node + k))) ++ leBytes 8 (d.nodeTag node) ++ List.replicate 24 0

/-- The byte of the metadata region at an address, all cached lines written back (R356); the reserved part is never written. -/
def metaByte (d : Dev) (a : Nat) : Byte :=
  if a < leafAddr 0 then (leBytes 8 (d.granuleTag ((a - hbmTop) / 8))).getD ((a - hbmTop) % 8) 0
  else if a < nodeAddr 0 then (d.leafBytes ((a - leafAddr 0) / 64)).getD ((a - leafAddr 0) % 64) 0
  else if a < metaReserved then (d.nodeBytes ((a - nodeAddr 0) / 256)).getD ((a - nodeAddr 0) % 256) 0
  else 0

/-- Whether a check fails: the stored tag is not the one computed (`granuleBad_iff` and its fellows in Laws/Hbm.lean). -/
def granuleBad (d : Dev) (gr : Nat) : Bool := SMap.get 0 d.ime.tagOff gr ≠ 0
def leafBad (d : Dev) (line : Nat) : Bool := SMap.get 0 d.ime.leafOff line ≠ 0
def nodeBad (d : Dev) (node : Nat) : Bool := SMap.get 0 d.ime.nodeOff node ≠ 0

/-- Whether the cache holds a line: level 0 tag line, 1 leaf line, 2 node (R364). -/
def cached (d : Dev) (level index : Nat) : Bool := d.ime.cache.any fun m => m.level == level && m.index == index

/-- The level of the check that fails for the granule at `a`, if one does: 0 tag, 1 leaf line, 2 node (R361, R363). A cached line is trusted;
data that has not been written has nothing to check (R362), nor has a leaf line or node whose own counter is 0. -/
def failLevel (d : Dev) (a : Nat) : Option Nat :=
  if d.rootCtr (a >>> 20) == 0 then none
  else if !d.cached 1 (a >>> 15) && !d.cached 2 (a >>> 20) && d.nodeBad (a >>> 20) then some 2
  else if !d.cached 1 (a >>> 15) && d.lineCtr (a >>> 15) ≠ 0 && d.leafBad (a >>> 15) then some 1
  else if d.sectorCtr (a >>> 12) ≠ 0 && d.granuleBad (a >>> 8) then some 0
  else none

/-- The first granule of a range that fails, with its level. -/
def firstFail (d : Dev) (a n : Nat) : Option (Nat × Nat) :=
  ((List.range ((a + n + 255) / 256 - a / 256)).map (fun i => (a / 256 + i) * 256)).findSome? fun x =>
    (d.failLevel x).map fun l => (x, l)

/-- A failed check is counted, recorded and logged (R363, R449). -/
def integFail (d : Dev) (r : Req) (a level : Nat) (write : Bool) : Dev :=
  let d := ((d.add pIME IME_INTEG_ERR_COUNT 1).p pIME IME_ERR_ADDR_ADDR a).p pIME IME_ERR_INFO_LEVEL level
  let d := (d.p pIME IME_ERR_INFO_WRITE write.toNat).p pIME IME_ERR_INFO_PART (if r.devlvl then 0 else r.part)
  let d := ((d.p pIME IME_ERR_INFO_DEVLVL r.devlvl.toNat).on pIME IME_ERR_INFO_VALID).irq pIME 0
  d.raise (0x0C0 + a / 4096 % 4) (if r.devlvl then 2 else 1) (if r.devlvl then 16 else r.part) (d.word pIME 0x120 fldsIME) a

/-- A key roll is wanted (R370): LAST_CAUSE 1 THRESHOLD, 2 COMMAND, 3 COUNTER. While one runs, a further one is due. -/
def wantRoll (d : Dev) (cause : Nat) : Dev :=
  let st := d.g pKRE KRE_STATUS_STATE
  if st == 0 then
    { (d.p pKRE KRE_STATUS_STATE 1).p pKRE KRE_STATUS_LAST_CAUSE cause with ime := { d.ime with cause := cause } }
  else if st == 1 then d
  else { d.on pKRE KRE_STATUS_PENDING with ime := { d.ime with cause := cause } }

/-- A waiting roll asks the arbiter for KROLL; it starts when granted (R370). -/
def tryRoll (d : Dev) (retry : Bool) : Dev :=
  if d.g pKRE KRE_STATUS_STATE ≠ 1 then d
  else
    let r := d.mntRequest (mntId 2 16 0) 0 0x10000 retry
    match r.2 with
    | some _ => { r.1 with mnt := { r.1.mnt with wait := if r.1.mnt.wait.contains (mntId 2 16 0) then r.1.mnt.wait else r.1.mnt.wait ++ [mntId 2 16 0] } }
    | none =>
      let d := (r.1.p pKRE KRE_STATUS_STATE 2).p pKRE KRE_BLOCKS_COUNT 0
      let d := ((d.on pIME IME_KEYSTATE_ROLLING).p pIME IME_GEN_NEWEST (d.g pIME IME_GEN_NEWEST + 1)).p pKRE KRE_BOUNDARY_SECTOR 0
      { d with ime := { d.ime with rollAt := d.now } }

/-- A pass over a partition is asked of the arbiter (R219): PASS_STATE 1 while it waits, 2 while it runs. -/
def scrubRequest (d : Dev) (i : Nat) (retry : Bool) : Dev :=
  let id := mntId 1 i 0
  if d.holds id then d
  else
    let r := d.mntRequest id 0 0x10000 retry
    match r.2 with
    | none => r.1.p pSCR SCR_PASS_STATUS_PASS_STATE 2
    | some _ =>
      let d := { r.1 with mnt := { r.1.mnt with wait := if r.1.mnt.wait.contains id then r.1.mnt.wait else r.1.mnt.wait ++ [id] } }
      if d.g pSCR SCR_PASS_STATUS_PASS_STATE == 2 then d else d.p pSCR SCR_PASS_STATUS_PASS_STATE 1

/-- Waiting passes ask again, in ascending partition (R219, R410). -/
def retryPasses (d : Dev) : Dev :=
  d.each (List.range 16) fun d i => if d.mnt.wait.contains (mntId 1 i 0) then d.scrubRequest i true else d

/-- The requests that wait are retried (R410): scrub passes, then the key roll. -/
def retryWaits (d : Dev) : Dev :=
  let d := d.retryPasses
  if d.mnt.wait.contains (mntId 2 16 0) then d.tryRoll true else d

/-- An activity is released, at which the requests that wait retry (R410, R411). -/
def mntFree (d : Dev) (id : Nat) : Dev := if d.holds id then (d.mntDrop id).retryWaits else d

/-- A request for a roll with the arbiter asked at once (R370). -/
def requestRoll (d : Dev) (cause : Nat) : Dev := (d.wantRoll cause).tryRoll false

/-- THRESH_EXP as it acts (R375). -/
def threshExp (d : Dev) : Nat := Nat.max 32 (Nat.min 60 (d.g pKRE KRE_CFG_THRESH_EXP))

/-- How many 16-byte blocks of the granules from `lo` to `hi` are under the newest generation (R368, R370). -/
def newestBlocks (d : Dev) (lo hi : Nat) : Nat :=
  16 * ((List.range (hi - lo)).filter fun k => d.sectorGen ((lo + k) / 16) == d.g pIME IME_GEN_NEWEST).length

/-- Blocks encrypted under the newest generation are counted; the threshold requests a roll (R370). -/
def countBlocks (d : Dev) (n : Nat) : Dev :=
  let before := d.g pKRE KRE_BLOCKS_COUNT
  let d := d.p pKRE KRE_BLOCKS_COUNT (before + n)
  if d.b pKRE KRE_CFG_AUTO && before < 2 ^ d.threshExp && 2 ^ d.threshExp ≤ before + n then d.requestRoll 1 else d

/-! The metadata cache (R361, R364). -/

/-- The controller that caches a line, the cache lines it takes, and its bytes in HBM. -/
def metaHome (level index : Nat) : Nat := (if level == 0 then index / 2 else index) % 4
def metaSize (level : Nat) : Nat := if level == 2 then 4 else 1

/-- A counter reaches the value that asks for a roll (R370). -/
def watchCtr (d : Dev) (c : Nat) : Dev := if c == 2 ^ 56 - 16 then d.requestRoll 3 else d

/-- A line's bytes are moved to or from HBM. -/
def metaMoved (d : Dev) (level index : Nat) : Dev := d.add pIME (IME_META_BYTES_COUNT (metaHome level index)) (64 * metaSize level)

/-- A node is written back (R361): its root counter advances and its tag is computed anew. -/
def writeNode (d : Dev) (node : Nat) : Dev :=
  let d := { d with ime := { d.ime with root := SMap.set 0 d.ime.root node (SMap.get 0 d.ime.root node + 1), nodeOff := SMap.del d.ime.nodeOff node } }
  (((d.add pIME (IME_WRITEBACKS_COUNT (node % 4)) 1).metaMoved 2 node)).watchCtr (d.rootCtr node)

/-- A leaf line is written back (R361): its counter in its node advances and its tag is computed anew. The node becomes dirty where it is
cached; else the node is fetched and verified and written back at once; where its check fails, the line's write-back is lost, and all that the node
covers fails (R363). -/
def writeLeaf (d : Dev) (line : Nat) : Dev :=
  let node := line / 32
  let here := d.cached 2 node
  let d := d.iff (!here) fun d => ((d.add pIME (IME_LOOKUPS_COUNT (node % 4)) 1).add pIME (IME_MISSES_COUNT (node % 4)) 1).metaMoved 2 node
  if !here && d.nodeBad node then d.integFail (hubReq 0x40) (node <<< 20) 2 true
  else
    let d := { d with ime := { d.ime with lines := SMap.set 0 d.ime.lines line (SMap.get 0 d.ime.lines line + 1), leafOff := SMap.del d.ime.leafOff line } }
    let d := (((d.add pIME (IME_WRITEBACKS_COUNT (line % 4)) 1).metaMoved 1 line)).watchCtr (d.lineCtr line)
    if here then { d with ime := { d.ime with cache := d.ime.cache.map fun m => if m.level == 2 && m.index == node then { m with dirty := true } else m } }
    else d.writeNode node

/-- A dirty line leaves the cache (R361, R364). -/
def writeBack (d : Dev) (level index : Nat) : Dev :=
  match level with
  | 0 => (d.add pIME (IME_WRITEBACKS_COUNT (metaHome 0 index)) 1).metaMoved 0 index
  | 1 => d.writeLeaf index
  | _ => d.writeNode index

/-- A full cache gives up a line, written back if dirty; the manual names no rule for which (R364), so the victim is free. -/
def evict (d : Dev) (q : Nat) : Dev :=
  let mine := d.ime.cache.filter fun m => metaHome m.level m.index == q
  if (mine.foldl (fun n m => n + metaSize m.level) 0) ≤ cacheLines then d
  else match mine[Config.cacheVictim d.fresh % mine.length]? with
    | none => d
    | some old =>
      let d := { d.tick with ime := { d.ime with cache := d.ime.cache.erase old } }
      if old.dirty then d.writeBack old.level old.index else d

/-- One metadata line is looked up in its controller's cache, and fetched where it is not there (R364). -/
def cacheLookup (d : Dev) (level index : Nat) (dirty : Bool) : Dev :=
  let q := metaHome level index
  let d := d.add pIME (IME_LOOKUPS_COUNT q) 1
  if d.cached level index then
    if dirty then { d with ime := { d.ime with cache := d.ime.cache.map fun m => if m.level == level && m.index == index then { m with dirty := true } else m } } else d
  else
    let d := (d.add pIME (IME_MISSES_COUNT q) 1).metaMoved level index
    let d := { d with ime := { d.ime with cache := d.ime.cache ++ [(⟨level, index, dirty⟩ : MetaLine)] } }
    let d := d.evict q
    d.iff (level == 2) fun d => ((d.evict q).evict q).evict q

/-- The tag lines that cover some bytes (R364). -/
def tagLines (a n : Nat) : List Nat := (List.range ((a + n + 2047) / 2048 - a / 2048)).map (fun i => a / 2048 + i)

/-- The metadata that an access to `n` bytes at `a`, within one sector, uses (R361, R362, R364): the leaf line, the node where the leaf line is
not cached, the tag lines. Data that was never written needs none; a write changes the sector's counter and so all its tags. A controller whose
cache missed fires its event (R402). -/
def touchMeta (d : Dev) (a n : Nat) (write : Bool) : Dev :=
  let sec := a >>> 12
  if !write && d.rootCtr (a >>> 20) == 0 then d
  else
    let before := (List.range 4).map fun q => d.g pIME (IME_MISSES_COUNT q)
    let d := if d.cached 1 (a >>> 15) then d else d.cacheLookup 2 (a >>> 20) false
    let d := d.cacheLookup 1 (a >>> 15) write
    let d := if write then (d.cacheLookup 0 (2 * sec) true).cacheLookup 0 (2 * sec + 1) true
      else if d.sectorCtr sec == 0 then d
      else d.each (tagLines a n) fun d l => d.cacheLookup 0 l false
    d.each ((List.range 4).filter fun q => before.getD q 0 < d.g pIME (IME_MISSES_COUNT q)) fun d q => d.raise (0x0C4 + q) 4 16 0 0

/-- The sectors a range touches. -/
def sectorsOf (a n : Nat) : List Nat := (List.range ((a + n + 4095) / 4096 - a / 4096)).map (fun i => a / 4096 + i)

/-! The stacks' own error correction (R434): granules whose cells hold a correctable or an uncorrectable error. -/

/-- The granules of a list that an access to a range reads: those of data that has been written (R362). -/
def stackHits (d : Dev) (l : List Nat) (a n : Nat) : List Nat :=
  l.filter fun gr => decide (a / 256 ≤ gr) && decide (gr * 256 < a + n) && d.sectorCtr (gr / 16) ≠ 0

/-- The granules that a write reads: those it covers in part (R358). -/
def mergeHits (d : Dev) (l : List Nat) (a n : Nat) : List Nat :=
  (d.stackHits l a n).filter fun gr => decide (gr * 256 < a) || decide (a + n < gr * 256 + 256)

/-- A read of granules is counted by the controllers that serve them. -/
def stackCount (d : Dev) (ce ue : List Nat) : Dev :=
  let d := d.each ce fun d gr => d.add (pHMC (gr / 16 % 4)) HMC_ECC_CE_COUNT 1
  d.each ue fun d gr => (d.add (pHMC (gr / 16 % 4)) HMC_ECC_UE_COUNT 1).irq (pHMC (gr / 16 % 4)) 0

/-- Granules are written whole: their errors are gone. -/
def stackFresh (d : Dev) (lo hi : Nat) : Dev :=
  let out (gr : Nat) : Bool := decide (gr < lo) || decide (hi ≤ gr)
  { d with ime := { d.ime with ce := d.ime.ce.filter out, ue := d.ime.ue.filter out } }

/-- A sector's counter advances by one write request, its tags following (R360); the first write to a sector, and to a node's data, creates
its counters (R362). -/
def bumpCounter (d : Dev) (sec : Nat) : Dev :=
  let fresh := d.sectorCtr sec == 0
  let d := { d with ime := { d.ime with counters := SMap.set 0 d.ime.counters sec (SMap.get 0 d.ime.counters sec + 1),
                                        root := if d.rootCtr (sec / 256) == 0 then SMap.set 0 d.ime.root (sec / 256) 1 else d.ime.root,
                                        tagOff := if fresh then SMap.delRange d.ime.tagOff (16 * sec) (16 * sec + 16) else d.ime.tagOff } }
  (d.iff fresh fun d => d.stackFresh (16 * sec) (16 * sec + 16)).watchCtr (d.sectorCtr sec)

/-- The part of a range that lies in a sector: its address and length. -/
def partOf (a n sec : Nat) : Nat × Nat :=
  let lo := Nat.max a (sec * 4096)
  (lo, Nat.min (a + n) (sec * 4096 + 4096) - lo)

/-- Bytes put in place. -/
def putBytes (m : SMap Byte) (a : Nat) : List Byte → SMap Byte
  | [] => m
  | b :: bs => putBytes (SMap.set 0 m a b) (a + 1) bs

/-- A refusal by an HBM port (R165, R357, R366): outside the data space, without a key, or, which QUOTA_ERR counts, outside the quota. -/
def hbmRefuse (d : Dev) (r : Req) (a n : Nat) (write : Bool) : Dev :=
  (d.iff (!r.devlvl && d.b pIME IME_KEYSTATE_KEY_VALID && decide (a + n ≤ hbmTop)) fun d => d.add (pHMC (a / 4096 % 4)) HMC_QUOTA_ERR_COUNT 1).innerError
    r.src r.part r.devlvl 5 write a

/-- Whether the requester's port has a route to every controller port that a range lies behind (R258, R262). -/
def hbmRouted (d : Dev) (src a n : Nat) : Bool := (sectorsOf a n).all fun sec => d.routed src (hbmDest (sec * 4096))

/-- An HBM read (R262, R355): status under R264 and the bytes, zero where it fails. -/
def hbmRead (d : Dev) (r : Req) (a n : Nat) : Dev × Nat × List Byte :=
  if n = 0 then (d, 0, [])
  else if !d.hbmRouted r.src a n then (d.noRoute, 2, List.replicate n 0)
  else if !d.hbmAllowed r a n then (d.hbmRefuse r a n false, 5, List.replicate n 0)
  else match d.firstFail a n with
    | some (x, l) => (d.integFail r x l false, 4, List.replicate n 0)
    | none =>
      let ue := d.stackHits d.ime.ue a n
      let q := (d.stackCount (d.stackHits d.ime.ce a n) ue).each (sectorsOf a n) fun d sec => d.touchMeta (partOf a n sec).1 (partOf a n sec).2 false
      if ue.isEmpty then (q, 0, d.hbmBytes a n) else (q, 4, List.replicate n 0)

/-- An HBM write (R262, R358, R360, R363): status under R264. -/
def hbmWrite (d : Dev) (r : Req) (a : Nat) (bs : List Byte) : Dev × Nat :=
  if bs.isEmpty then (d, 0)
  else if !d.hbmRouted r.src a bs.length then (d.noRoute, 2)
  else if !d.hbmAllowed r a bs.length then (d.hbmRefuse r a bs.length true, 5)
  else match d.firstFail a bs.length with
    | some (x, l) => (d.integFail r x l true, 4)
    | none =>
      let ue := d.mergeHits d.ime.ue a bs.length
      let d := d.stackCount (d.mergeHits d.ime.ce a bs.length) ue
      if !ue.isEmpty then (d, 4)
      else
        let d := d.each (sectorsOf a bs.length) fun d sec => (d.touchMeta (sec * 4096) 4096 true).bumpCounter sec
        let d := (d.stackFresh (a / 256) ((a + bs.length + 255) / 256)).countBlocks (d.newestBlocks (a / 256) ((a + bs.length + 255) / 256))
        ({ d with hbm := putBytes d.hbm a bs }, 0)

/-! Requesters that wait for their answer. -/

/-- The response of an HBM port travels by the port's own table (R261); where that has no valid entry, none comes and the requester completes its
request with TIMEOUT (R265): the status it sees. -/
def hbmAnswer (d : Dev) (r : Req) (a status : Nat) : Dev × Nat :=
  if status == 2 || d.routed (hbmDest a) r.src then (d, status)
  else (d.timedOut r.src (hbmDest a) 0 a, 3)

/-- A read by one request, as its requester sees it: zeros with any status but OK (R268). -/
def hbmFetch (d : Dev) (r : Req) (a n : Nat) : Dev × Nat × List Byte :=
  if n = 0 then (d, 0, [])
  else
    let q := d.hbmRead r a n
    let s := q.1.hbmAnswer r a q.2.1
    (s.1, s.2, if s.2 == 0 then q.2.2 else List.replicate n 0)

/-- A write by one request, with the status its requester sees. -/
def hbmSend (d : Dev) (r : Req) (a : Nat) (bs : List Byte) : Dev × Nat :=
  if bs.isEmpty then (d, 0) else let q := d.hbmWrite r a bs; q.1.hbmAnswer r a q.2

/-- The parts of `n` bytes from HBM address `a`, cut at every 256-byte boundary: (offset in the access, length). -/
def partsOf : Nat → Nat → Nat → Nat → List (Nat × Nat)
  | 0, _, _, _ => []
  | fuel + 1, a, o, n =>
    if n == 0 then []
    else let k := Nat.min n (256 - (a + o) % 256); (o, k) :: partsOf fuel a (o + k) (n - k)
def cut256 (a n : Nat) : List (Nat × Nat) := partsOf (n / 256 + 2) a 0 n

/-- A longer read: one request to each part, as a packet carries at most 256 bytes (R259), each performed or refused on its own; a part that
fails reads as zero. The status is that of the first part that fails. -/
def hbmGet (d : Dev) (r : Req) (a n : Nat) : Dev × Nat × List Byte :=
  (cut256 a n).foldl (fun s c => let q := s.1.hbmFetch r (a + c.1) c.2; (q.1, if s.2.1 == 0 then q.2.1 else s.2.1, s.2.2 ++ q.2.2)) (d, 0, ([] : List Byte))

/-- A longer write, likewise. -/
def hbmStore (d : Dev) (r : Req) (a : Nat) (bs : List Byte) : Dev × Nat :=
  (cut256 a bs.length).foldl (fun s c => let q := s.1.hbmSend r (a + c.1) ((bs.drop c.1).take c.2); (q.1, if s.2 == 0 then q.2 else s.2)) (d, 0)

/-- A write whose status its requester does not look at. -/
def hbmPut (d : Dev) (r : Req) (a : Nat) (bs : List Byte) : Dev := (d.hbmStore r a bs).1

/-- A range is overwritten with zeros by ordinary writes (R161, R336, R362). -/
def zeroRange (d : Dev) (r : Req) (a n : Nat) : Dev := d.each (cut256 a n) fun d c => (d.hbmSend r (a + c.1) (List.replicate c.2 0)).1

/-- Whether a sector lies in the snapshot area of a partition whose snapshot runs (R371). -/
def snapPinned (d : Dev) (sec : Nat) : Bool :=
  (List.range 16).any fun i =>
    d.g (pPTN i) PTN_SNAP_STATUS_STATE ≠ 0 && d.g (pPTN i) PTN_SNAP_BASE_ADDR ≤ sec * 4096 &&
      sec * 4096 < d.g (pPTN i) PTN_SNAP_BASE_ADDR + d.g (pPTN i) PTN_SNAP_SIZE_BYTES

/-- Entry to STATE 3 (R375, R376). -/
def pauseRoll (d : Dev) (snap : Bool) : Dev :=
  let d := if snap then d.on pKRE KRE_STATUS_PAUSED_SNAP else d
  if d.g pKRE KRE_STATUS_STATE == 3 then d else (d.p pKRE KRE_STATUS_STATE 3).irq pKRE 1

/-- The tree lines of the nodes whose last sector B has passed, from sector `lo` to `hi`, are under the new generation (R368, R369): rebuilt,
their counters begin again. A failed leaf line or node fails no more once B has passed the sectors it covers. -/
def passTree (d : Dev) (lo hi : Nat) : Dev :=
  let done (node : Nat) : Bool := lo < 256 * (node + 1) && 256 * (node + 1) ≤ hi
  let nodes := (d.ime.root.map (·.1)).filter done
  let lines := (d.ime.lines.map (·.1)).filter fun l => done (l / 32)
  let live (node : Nat) : Bool := d.ime.counters.any fun e => e.1 / 256 == node
  { d with ime := { d.ime with root := nodes.foldl (fun m k => SMap.set 0 m k (live k).toNat) d.ime.root, lines := lines.foldl (fun m l => SMap.set 0 m l 1) d.ime.lines,
                               leafOff := d.ime.leafOff.filter fun e => !(lo < 8 * (e.1 + 1) && 8 * (e.1 + 1) ≤ hi), nodeOff := d.ime.nodeOff.filter fun e => !done e.1 } }

/-- B advances (R369). -/
def setBoundary (d : Dev) (b : Nat) : Dev := (d.passTree (d.g pKRE KRE_BOUNDARY_SECTOR) b).p pKRE KRE_BOUNDARY_SECTOR b

/-- The roll ends (R369): B passes the last sector, the old generation is erased, KROLL is released, and a further roll that is due starts. -/
def endRoll (d : Dev) : Dev :=
  let d := d.setBoundary (hbmTop / 4096)
  let d := ((d.p pIME IME_KEYSTATE_ROLLING 0).add pKRE KRE_ROLLS_COUNT 1).p pKRE KRE_LAST_US_US ((d.now - d.ime.rollAt) / 1000)
  let d := ((d.p pKRE KRE_STATUS_STATE 0).irq pKRE 0).raise 0x0C8 4 16 0 0
  let d := d.mntFree (mntId 2 16 0)
  if d.b pKRE KRE_STATUS_PENDING then (d.p pKRE KRE_STATUS_PENDING 0).requestRoll d.ime.cause else d

/-- A sector's counter is made `c`, its tags following. -/
def setCounter (d : Dev) (sec c : Nat) : Dev :=
  { d with ime := { d.ime with counters := SMap.set 0 d.ime.counters sec c,
                               tagOff := SMap.delRange d.ime.tagOff (16 * sec) (16 * sec + 16) } }

/-- One sector is converted (R369): what fails its check becomes unwritten, the rest has counter 1 under the new generation. -/
def convertSector (d : Dev) (sec : Nat) : Dev :=
  match d.firstFail (sec * 4096) 4096 with
    | some (x, l) =>
      let d := ((d.integFail (hubReq 0x40) x l false).setCounter sec 0).setBoundary (sec + 1)
      { d with hbm := SMap.delRange d.hbm (sec * 4096) (sec * 4096 + 4096) }
    | none =>
      let ue := d.stackHits d.ime.ue (sec * 4096) 4096
      let d := d.stackCount (d.stackHits d.ime.ce (sec * 4096) 4096) ue
      if ue.isEmpty then
        ((((d.touchMeta (sec * 4096) 4096 true).stackFresh (16 * sec) (16 * sec + 16)).setCounter sec 1).setBoundary (sec + 1)).countBlocks 256
      else { (d.setCounter sec 0).setBoundary (sec + 1) with hbm := SMap.delRange d.hbm (sec * 4096) (sec * 4096 + 4096) }

/-- The next sector the roll converts: the first written one at or above B, of the data whose root counter is not 0 (R369). -/
def nextSector (d : Dev) : Option Nat :=
  let b := d.g pKRE KRE_BOUNDARY_SECTOR
  (d.ime.counters.find? (fun e => b ≤ e.1 && d.rootCtr (e.1 / 256) ≠ 0)).map (·.1)

end Dev

end Sys2Proof.Machine
end

