-- ==== Sys2Proof/Machine/Freeze.lean ====
section
/-! DEFINITION. Freeze requests (R97, R100, R102, R178), the system-wide freeze (R179), the String ring's sending side (R395) and
strobes (R155, R156). -/

namespace Sys2Proof.Machine

namespace Dev

/-- The device's system number (R396). -/
def devNum (d : Dev) : Nat := d.g pSTR STR_STATUS_DEVICE
/-- The links that are UP. -/
def upLinks (d : Dev) : List Nat := (List.range 16).filter fun gi => d.g (pLGRP gi) LGRP_STATUS_STATE == 4
/-- A control message waits to be sent on a link (R242). -/
def control (d : Dev) (gi kind body : Nat) : Dev := (d.modLink gi (·.pend kind body)).emit (.control gi kind body)
/-- A control message on every AL2 link that is UP; AL1 links carry FREEZE and BEACON only (R182). -/
def controlAll (d : Dev) (kind body : Nat) : Dev :=
  d.each d.upLinks fun d gi =>
    if d.g (pLGRP gi) LGRP_STATUS_VER == 2 || kind == 2 || kind == 1 || kind == 8 then d.control gi kind body else d

/-- A frame on the ring but its CRC (R395): TYPE, DEST, SRC, SEQ, TTL, LEN, payload. -/
def ringHead (kind dest src n ttl : Nat) (payload : List Byte) : List Byte :=
  leBytes 1 kind ++ leBytes 2 dest ++ leBytes 2 src ++ leBytes 1 n ++ leBytes 2 ttl ++ leBytes 1 payload.length ++ payload

/-- A frame leaves on the ring with its CRC-32C (R395). -/
def ringOut (d : Dev) (kind dest src n ttl : Nat) (payload : List Byte) : Dev :=
  let head := ringHead kind dest src n ttl payload
  d.emit (.ring (head ++ leBytes 4 (crc32c head)))

/-- The payload of a FREEZE frame, which is 16 bytes long (R395): the freeze's origin and number. -/
def freezeBody (origin n : Nat) : List Byte := leBytes 2 origin ++ leBytes 1 n

/-- A frame of the device's own, where it is a member (R394, R395); FREEZE, STROBE and RESET_REQ are due a second time. -/
def ringSend (d : Dev) (kind dest : Nat) (payload : List Byte) : Dev :=
  if d.g pSTR STR_STATUS_STATE ≠ 2 then d
  else
    let n := (d.ring.seqNo + 1) % 256
    let again := if kind == 4 || kind == 5 || kind == 6 then d.ring.repeats ++ [(kind, dest, n, payload)] else d.ring.repeats
    { d with ring := { d.ring with seqNo := n, repeats := again } }.ringOut kind dest d.devNum n 512 payload

/-- The horizon H of a linked partition (R175). -/
def horizon (d : Dev) (i : Nat) : Nat := d.g (pPTN i) PTN_LINK_CFG_HORIZON
/-- Whether partition `i` spans devices (R101). -/
def linked (d : Dev) (i : Nat) : Bool := d.b (pPTN i) PTN_SEQ_CFG_LINKED

/-- The lane groups that carry slots of partition `i` (R173). -/
def slotLinks (d : Dev) (i : Nat) : List Nat :=
  (List.range 16).filter fun gi => d.b pLNK (LNK_BUDGET_SLOTS gi) && d.g pLNK (LNK_BUDGET_OWNER gi) == i
/-- Whether a link is UP at AL2: it carries slots, HOLD, READY, GO, COMMAND, STEPS and lockstep records (R182). -/
def al2 (d : Dev) (gi : Nat) : Bool := d.g (pLGRP gi) LGRP_STATUS_STATE == 4 && d.g (pLGRP gi) LGRP_STATUS_VER == 2
/-- A control message on every AL2 link of a linked partition that is UP (R182, R242). -/
def controlPtn (d : Dev) (i kind body : Nat) : Dev :=
  d.each (d.slotLinks i) fun d gi => if d.al2 gi then d.control gi kind body else d
/-- Body of a COMMAND message: partition, command, STEP_COUNT or executed step, distance travelled (R175, R242). -/
def cmdBody (i cmd count dist : Nat) : Nat := i ||| cmd <<< 4 ||| (count % 2 ^ 32) <<< 8 ||| dist <<< 40

/-- A freeze request reaches the sequencer (R97, R100); in a linked partition it acts H executed steps later (R178), and one of
the same cause that is already pending has no further effect (R49). -/
def freezeReq (d : Dev) (i cause : Nat) : Dev :=
  let x := d.ptnAt i
  let st := d.seqState i
  if st == 1 && x.settle.isNone then
    if d.linked i then
      if x.freezeAt.any (fun f => !f.2.2 && f.2.1 == cause) then d
      else
      let e := x.exec + d.horizon i
      let d := (d.setPtn i { x with freezeAt := x.freezeAt ++ [(e, cause, false)] }).on (pPTN i) PTN_SEQ_STATUS_FREEZE_PENDING
      d.controlPtn i 6 (cmdBody i 3 e 0)
    else (d.setPtn i { x with pend := x.pend ++ [cause] }).on (pPTN i) PTN_SEQ_STATUS_FREEZE_PENDING
  else if st == 3 then (d.setPtn i { x with pend := x.pend ++ [cause] }).on (pPTN i) PTN_SEQ_STATUS_FREEZE_PENDING
  else d

/-- Cause 0x6 is requested in every partition that accepts it (R102, R179). -/
def sysFreezeHere (d : Dev) : Dev :=
  d.each (List.range 16) fun d i => if d.b (pPTN i) PTN_FREEZE_CFG_SYS_EN then d.freezeReq i 6 else d

/-- LNK.SYS_STATUS as the log records it. -/
def sysStatus (d : Dev) : Nat := d.word pLNK 0x284 fldsLNK

/-- A freeze of the system is seen: SEEN, ORIGIN, event 0x105, and the flood over links and ring (R179). -/
def floodFreeze (d : Dev) (origin n : Nat) (toRing : Bool) : Dev :=
  let d := (d.on pLNK LNK_SYS_STATUS_SEEN).p pLNK LNK_SYS_STATUS_ORIGIN origin
  let d := { d with sys := { d.sys with seen := (origin, n) :: d.sys.seen } }
  let d := d.raise 0x105 2 16 d.sysStatus 0
  let d := d.controlAll 2 (origin ||| n <<< 9)
  let d := if toRing then d.ringSend 4 0x1FF (freezeBody origin n) else d
  d.sysFreezeHere

/-- The device raises a system-wide freeze (R179). -/
def raiseSysFreeze (d : Dev) : Dev :=
  let n := (d.sys.seqNo + 1) % 256
  { d with sys := { d.sys with seqNo := n } }.floodFreeze d.devNum n true

/-- A strobe from a source: 1 trigger engine, 2 register, 3 String ring (R155, R156). The 64 ns are 128 steps of the unstepped clock. TX_STRING
forwards a local strobe that is then dropped as MERGED too: R158 does not say (DESIGN CHOICE, log entry 64). -/
def strobeReq (d : Dev) (src : Nat) : Dev :=
  let en := match src with
    | 1 => d.b pSNP SNP_SRC_EN_TRG
    | 2 => d.b pSNP SNP_SRC_EN_REG
    | _ => d.b pSNP SNP_SRC_EN_STRING
  if !en then d
  else
    let d := if src ≠ 3 && d.b pSNP SNP_SRC_EN_TX_STRING then d.ringSend 5 0x1FF [] else d
    match d.latchAt with
    | some t => if d.ticks < t + 128 then d.on pSNP SNP_STATUS_MERGED else { d with strobeSrc := some src }
    | none => { d with strobeSrc := some src }

/-- The link that was the time upstream fails: holdover and a system-wide freeze (R172). -/
def upstreamLoss (d : Dev) (gi : Nat) : Dev :=
  if d.g pTSB TSB_CFG_ROLE == 2 && d.g pTSB TSB_STATUS_UPSTREAM == gi && d.b pLNK LNK_SYS_STATUS_FREQ_LOCK then
    let d := ((d.p pLNK LNK_SYS_STATUS_FREQ_LOCK 0).on pCKG CKG_STATUS_HOLDOVER).add pCKG CKG_HOLDOVERS_COUNT 1
    d.raiseSysFreeze
  else d

/-- Uncorrectable slot data (R181). -/
def slotErr (d : Dev) : Dev := (d.on pLNK LNK_SYS_STATUS_SLOT_ERR).raiseSysFreeze

/-- Whether a link carries slots of a partition that is RUNNING (R238, R242). -/
def slotsRun (d : Dev) (gi : Nat) : Bool := d.b pLNK (LNK_BUDGET_SLOTS gi) && d.seqState (d.g pLNK (LNK_BUDGET_OWNER gi)) == 1

/-- A control message that fails its CRC or is broken is discarded and counted (R242). -/
def ctlBad (d : Dev) (gi : Nat) : Dev :=
  let d := d.add (pLGRP gi) LGRP_CTL_ERR_COUNT 1
  if d.slotsRun gi then d.slotErr else d

end Dev

end Sys2Proof.Machine
end

