-- ==== Sys2Proof/Machine/Capture.lean ====
section
/-! DEFINITION. The capture engine (R320 to R336): channels, blocks, contexts, admission. -/

namespace Sys2Proof.Machine

namespace Dev

/-- The enabled channels of context `c`: those its owner owns (R328). -/
def capChans (d : Dev) (c : Nat) : List Nat :=
  (List.range 64).filter fun ch => d.b pCAP (CAP_CH_CFG_EN ch) && d.g pCAP (CAP_CH_CFG_OWNER ch) == c
/-- TYPE of a channel (R321): 1 LANE, 2 TAP, 3 WORD, 4 EVENT. -/
def capType (d : Dev) (ch : Nat) : Nat := d.g pCAP (CAP_CH_CFG_TYPE ch)
/-- SRC bit field; the layouts number the bits of CH_CFG, so SRC starts at bit 9 (R334). -/
def capSrc (d : Dev) (ch lo w : Nat) : Nat := bitsAt (d.g pCAP (CAP_CH_CFG_SRC ch)) (lo - 9) w
/-- Segments of a channel's region. -/
def capSegs (d : Dev) (c : Nat) : Nat := d.g pCAP (CAP_ARM_SEGMENTS_M1 c) + 1
/-- SEG in blocks (R328). -/
def capSeg (d : Dev) (c ch : Nat) : Nat := d.g pCAP (CAP_CH_PAGES_PAGES ch) * 16 / d.capSegs c
/-- POST in blocks (R328). -/
def capPost (d : Dev) (c ch : Nat) : Nat := Nat.max 1 (d.capSeg c ch * Nat.min 256 (d.g pCAP (CAP_ARM_POST_COUNT c)) / 256)
/-- CYCLE_STEPS and INTERVAL, 0 acting as 1 (R334). -/
def capSteps (d : Dev) (ch : Nat) : Nat := Nat.max 1 (bitsAt (d.g pCAP (CAP_CH_PARAM_PARAM ch)) 0 16)
def capInterval (d : Dev) (ch : Nat) : Nat := Nat.max 1 (bitsAt (d.g pCAP (CAP_CH_PARAM_PARAM ch)) 16 16)

/-- Ones among the low 8 bits. -/
def ones8 (v : Nat) : Nat := ((List.range 8).filter v.testBit).length

/-- A channel's charge in MB/s: ceil(D × 16 ÷ 15) (R324), with D as a fraction of naturals. -/
def capCharge (d : Dev) (ch : Nat) : Nat :=
  let lanes := ones8 (d.capSrc ch 13 8)
  let rate := d.g (pLGRP (d.capSrc ch 9 4)) LGRP_CFG_RATE
  let half := if rate == 1 then 2 else if rate == 2 then 4 else 1
  let div (n m : Nat) : Nat := (n * 16 + m * 15 - 1) / (m * 15)
  match d.capType ch with
  | 1 => if d.capSrc ch 22 1 == 1 then div (lanes * 112500 * 79200) (half * 81920 * 8) else div (lanes * 140625) (10 * half)
  | 2 => div (16000 * (d.capSrc ch 15 5 + 1)) (d.capSteps ch)
  | 3 => if d.capSrc ch 21 1 == 1 then div 64000 (d.capInterval ch * d.capSteps ch) else div 16000 1
  | 4 => div (16 * d.g pCAP (CAP_CH_PAGES_EV_RATE ch)) 1
  | _ => 0

/-- Sum of a context's charges. -/
def capSum (d : Dev) (c : Nat) : Nat := (d.capChans c).foldl (fun a ch => a + d.capCharge ch) 0

/-- Whether an owner may select what a channel's SRC and PARAM name (R311, R321): a partition its own clusters and comparators. -/
def chanAllowed (d : Dev) (owner type src param : Nat) : Bool :=
  if owner == 16 then true
  else if 16 < owner then false
  else match type with
    | 1 => false
    | 2 | 3 => d.owns owner (bitsAt src 0 6)
    | 4 => (List.range 32).all fun k => !param.testBit k || d.g pTRG (TRG_CCFG_OWNER k) == owner
    | _ => true

/-- Whether a channel meets R311 and R320 and its region suffices (R325 check 2). -/
def capRegionOk (d : Dev) (c ch : Nat) : Bool :=
  let off := d.g pCAP (CAP_CH_OFFSET_PAGES ch)
  let n := d.g pCAP (CAP_CH_PAGES_PAGES ch)
  let clear := (List.range 64).all fun o =>
    o == ch || !d.b pCAP (CAP_CH_CFG_EN o) || off + n ≤ d.g pCAP (CAP_CH_OFFSET_PAGES o) ||
      d.g pCAP (CAP_CH_OFFSET_PAGES o) + d.g pCAP (CAP_CH_PAGES_PAGES o) ≤ off
  let own := d.chanAllowed c (d.capType ch) (d.g pCAP (CAP_CH_CFG_SRC ch)) (d.g pCAP (CAP_CH_PARAM_PARAM ch))
  8 ≤ off && off + n ≤ d.g pCAP CAP_PW_SIZE_PAGES && clear && own && d.capSegs c ≤ n && !(d.chanAt ch).zeroing

/-- HBM address of a block position of a channel's segment (R320, R328). -/
def capAddr (d : Dev) (c ch seg pos : Nat) : Nat :=
  d.g pCAP CAP_PW_BASE_ADDR + d.g pCAP (CAP_CH_OFFSET_PAGES ch) * 4096 + (seg * d.capSeg c ch + pos) * 256
/-- HBM address of a directory entry (R333). -/
def dirAddr (d : Dev) (ch seg : Nat) : Nat := d.g pCAP CAP_PW_BASE_ADDR + (16 * ch + seg) * 32

/-- What is left of a buffer's parts once its first `n` bytes are cut. -/
def dropParts : Nat → List Part → List Part
  | _, [] => []
  | n, p :: ps => if n < p.len then { p with len := p.len - n } :: ps else dropParts (n - p.len) ps

/-- Whether taps were dropped in an entry that has a byte among the first `n` (R322, R332). -/
def partsOvf : Nat → List Part → Bool
  | _, [] => false
  | n, p :: ps => n ≠ 0 && (p.ovf || partsOvf (n - p.len) ps)

/-- One block is cut from a channel's buffer and waits to leave (R321, R327, R332). -/
def cutBlock (d : Dev) (ch : Nat) : Dev :=
  let x := d.chanAt ch
  let c := d.g pCAP (CAP_CH_CFG_OWNER ch)
  let n := Nat.min 240 x.buf.length
  if n == 0 then d
  else
    let hasTrig : Bool := match x.trigPos with | some q => decide (q < n) | none => false
    let flags := (if hasTrig then 1 else 0) ||| (if x.gap then 2 else 0) ||| (if x.discont ≠ 0 then 4 ||| x.discont <<< 3 else 0) ||| (if partsOvf n x.parts then 32 else 0)
    let pos := if hasTrig then x.trigPos.getD 0 else 0
    let head : Part := x.parts.headD ⟨0, 0, d.now, false⟩
    let aux := if d.capType ch == 1 || d.capType ch == 4 then x.blocks else head.cyc % 2 ^ 32
    let hdr := leBytes 1 n ++ leBytes 1 ch ++ leBytes 1 flags ++ leBytes 1 pos ++ leBytes 4 aux ++ leBytes 8 head.time
    let block := hdr ++ x.buf.take n ++ List.replicate (240 - n) 0
    let seg := d.g pCAP (CAP_CSTATUS_SEGMENT c)
    let blk : CapBlk := ⟨ch, x.cap, d.capAddr c ch seg (x.blocks % Nat.max 1 (d.capSeg c ch)), d.dirAddr ch seg, block⟩
    d.setChan ch { x with buf := x.buf.drop n, parts := dropParts n x.parts, gap := false, capGap := x.capGap || x.gap, discont := 0,
                          capDisc := x.capDisc || x.discont ≠ 0, blocks := x.blocks + 1, post := if x.phase == 2 then x.post + 1 else x.post,
                          trigPos := if hasTrig then none else x.trigPos.map (· - n), ready := x.ready ++ [blk] }

/-- Whole blocks are cut while the buffer fills them, up to the POST blocks after a trigger (R328). -/
def cutBlocks : Nat → Dev → Nat → Dev
  | 0, d, _ => d
  | fuel + 1, d, ch =>
    let x := d.chanAt ch
    if x.buf.length < 240 || (x.phase == 2 && d.capPost (d.g pCAP (CAP_CH_CFG_OWNER ch)) ch ≤ x.post) then d
    else cutBlocks fuel (d.cutBlock ch) ch

/-- Whether a channel collects: its capture is before or after the trigger and not complete (R329). -/
def collects (x : Chan) : Bool := x.phase == 1 || x.phase == 2

/-- Bytes are collected in the step in progress; `cyc` is the CYCLE they belong to. -/
def capBytes (d : Dev) (ch : Nat) (bs : List Byte) (cyc : Nat) (ovf : Bool) : Dev :=
  if collects (d.chanAt ch) && !bs.isEmpty then { d with cap := { d.cap with staged := d.cap.staged ++ [(⟨ch, bs, cyc, ovf⟩ : Staged)] } } else d

/-- What the step collected joins the buffers, after the triggers that name it their hit step (R328). -/
def capFlush (d : Dev) : Dev :=
  let st := d.cap.staged
  ({ d with cap := { d.cap with staged := [] } } : Dev).each st fun d e =>
    let x := d.chanAt e.chan
    if collects x then
      cutBlocks (e.bytes.length / 240 + 2)
        (d.setChan e.chan { x with buf := x.buf ++ e.bytes, parts := x.parts ++ [(⟨e.bytes.length, e.cyc, d.now, e.ovf⟩ : Part)] }) e.chan
    else d

/-- A dropped entry (R326). -/
def capLost (d : Dev) (ch : Nat) : Dev := d.modChan ch fun x => { x with lost := Nat.min (x.lost + 1) (2 ^ 32 - 1), gap := true }

/-- Whether lane `l` of a group sends bits: always in LINK mode (R232) and on an enabled lane in BRIDGE (R250); in TEST where the generator
is on or the far-end loop sends on what it receives (R246, R248). -/
def laneSends (d : Dev) (gi l : Nat) : Bool :=
  let b := pLGRP gi
  match d.lgState gi with
  | 0 => false
  | 5 => (d.g b LGRP_CFG_LANE_EN).testBit l && (d.b b LGRP_PRBS_CFG_GEN || d.g b LGRP_LOOP_MODE == 3)
  | 6 => (d.g b LGRP_CFG_LANE_EN).testBit l
  | _ => true

/-- Whether the data of lane `l` exists for a LANE channel (R331): DECODED while the group is ALIGNED or UP, RAW while the lane's clock is
recovered and, for what is transmitted, while the lane sends. -/
def laneData (d : Dev) (ch l : Nat) : Bool :=
  let gi := d.capSrc ch 9 4
  if d.capSrc ch 22 1 == 1 then d.lgState gi == 3 || d.lgState gi == 4
  else (d.linkAt gi).recovered.testBit l && (d.capSrc ch 21 1 == 0 || d.laneSends gi l)

/-- The lanes a LANE channel names (R321). -/
def chanLanes (d : Dev) (ch : Nat) : List Nat := (List.range 8).filter (d.capSrc ch 13 8).testBit

/-- Whether a channel is an enabled LANE channel that collects. -/
def laneChan (d : Dev) (ch : Nat) : Bool := d.b pCAP (CAP_CH_CFG_EN ch) && d.capType ch == 1 && collects (d.chanAt ch)

/-- Rows of 8-byte words, one from each named lane that has data, in ascending lane order (R321). -/
def laneRows : Nat → Dev → Nat → Dev
  | 0, d, _ => d
  | fuel + 1, d, ch =>
    let live := (d.chanLanes ch).filter (d.laneData ch)
    let lines := (d.chanAt ch).lines
    if live.isEmpty || live.any (fun l => (SMap.get [] lines l).length < 64) then d
    else
      let row := live.flatMap fun l => leBytes 8 (natOf ((SMap.get [] lines l).take 64))
      let rest := live.foldl (fun m l => SMap.set [] m l ((SMap.get [] m l).drop 64)) lines
      laneRows fuel ((d.modChan ch fun x => { x with lines := rest }).capBytes ch row 0 false) ch

/-- Lane `l` of a group carries further bits in one direction, as they are on the line or decoded (R321, R331): after an interval without
data the next block sets GAP. -/
def capLine (d : Dev) (gi l : Nat) (transmit decoded : Bool) (bits : List Bool) : Dev :=
  d.each (List.range 64) fun d ch =>
    if d.laneChan ch && d.capSrc ch 9 4 == gi && (d.capSrc ch 13 8).testBit l && d.capSrc ch 21 1 == transmit.toNat &&
        d.capSrc ch 22 1 == decoded.toNat && d.laneData ch l then
      laneRows (bits.length / 64 + 2) (d.modChan ch fun x =>
        { x with lines := SMap.set [] x.lines l (SMap.get [] x.lines l ++ bits), gap := x.gap || x.dark.testBit l,
                 dark := x.dark &&& (255 ^^^ 1 <<< l) }) ch
    else d

/-- Lanes whose data does not exist are noted: what they gathered makes no word, and a gap follows (R331). -/
def capDark (d : Dev) : Dev :=
  d.each (d.cap.chans.map (·.1)) fun d ch =>
    if !d.laneChan ch then d
    else
      let out := (d.chanLanes ch).filter fun l => !d.laneData ch l
      if out.isEmpty then d
      else d.modChan ch fun x =>
        { x with lines := out.foldl SMap.del x.lines, dark := out.foldl (fun m l => m ||| 1 <<< l) x.dark }

/-- A channel's directory entry (R333); bit 2 of `fl` is NO_TRIG, bit 1 SHORT_POST. -/
def entryBytes (d : Dev) (c ch fl : Nat) : List Byte :=
  let x := d.chanAt ch
  let seg := Nat.max 1 (d.capSeg c ch)
  let noTrig := fl.testBit 2
  let flags := fl ||| (if x.short && !noTrig then 1 else 0) ||| (if x.capGap || x.gap then 8 else 0) ||| (if x.dataErr then 16 else 0) |||
    (if x.capDisc || x.discont ≠ 0 then 32 else 0)
  let first := if noTrig then (if x.blocks ≤ seg then 0 else x.blocks % seg) else (x.trigBlk - x.pre) % seg
  let z (v : Nat) : Nat := if noTrig then 0 else v
  leBytes 4 (SMap.get 0 d.cap.capNo c % 2 ^ 31 ||| 1 <<< 31) ++ leBytes 2 flags ++ leBytes 2 (z x.epoch) ++
    leBytes 4 first ++ leBytes 4 (z x.trigBlk) ++ leBytes 4 (z x.pre) ++ leBytes 4 (z x.post) ++ leBytes 4 (z (x.lost - x.lostBase)) ++ leBytes 4 (z x.trigTime)

/-- A channel's directory entry is written. -/
def writeEntry (d : Dev) (c ch fl : Nat) : Dev :=
  d.hbmPut (hubReq 0x9A) (d.dirAddr ch (d.g pCAP (CAP_CSTATUS_SEGMENT c))) (d.entryBytes c ch fl)

/-- VALID := 0 in the entries of the segment a capture begins to use (R329). -/
def clearEntries (d : Dev) (c : Nat) : Dev :=
  d.each (d.capChans c) fun d ch =>
    let a := d.dirAddr ch (d.g pCAP (CAP_CSTATUS_SEGMENT c))
    let r := d.hbmGet (hubReq 0x9A) a 4
    r.1.hbmPut (hubReq 0x9A) a (leBytes 4 (leNat r.2.2 % 2 ^ 31))

/-- A capture begins: every channel of the context is in pre-trigger with nothing written (R328). -/
def beginCapture (d : Dev) (c : Nat) : Dev :=
  let d := d.p pCAP (CAP_CSTATUS_SEGMENT c) (SMap.get 0 d.cap.capNo c % d.capSegs c)
  let d := d.each (d.capChans c) fun d ch =>
    let x := d.chanAt ch
    d.setChan ch { Chan.reset with phase := 1, cap := x.cap + 1, lost := x.lost, lostBase := x.lost, discont := x.discont, ready := x.ready, lastAt := x.lastAt,
                                   bucketAt := d.ticks }
  (d.p pCAP (CAP_CSTATUS_STATE c) 1).clearEntries c

/-- An output pin drives NOT INVERT, or INVERT where it is idle; PIN_IN shows the level (R318, R319). -/
def drivePin (d : Dev) (j : Nat) (active : Bool) : Dev :=
  let level := xor active (d.b pTRG (TRG_PIN_INVERT j))
  let pins := if level then d.trg.pinIn ||| 1 <<< j else d.trg.pinIn &&& (255 ^^^ 1 <<< j)
  (({ d with trg := { d.trg with pinIn := pins } }).p pTRG TRG_STATUS_PIN_IN pins).emit (.pin j level)

/-- Pins in LEVEL_MODE follow their owner's context (R318). -/
def levelPins (d : Dev) (c : Nat) : Dev :=
  d.each (List.range 8) fun d j =>
    if d.b pTRG (TRG_PIN_OUT j) && d.b pTRG (TRG_PIN_LEVEL_MODE j) && d.g pTRG (TRG_PIN_OWNER j) == c then
      d.drivePin j (d.g pCAP (CAP_CSTATUS_STATE c) == 2)
    else d

/-- A context returns to IDLE: its charges are released (R329). -/
def capIdle (d : Dev) (c : Nat) : Dev :=
  let st := d.g pCAP (CAP_CSTATUS_STATE c)
  let d := if st == 0 then d else d.p pCAP CAP_SLICE_USED_MBS (d.g pCAP CAP_SLICE_USED_MBS - SMap.get 0 d.cap.charge c)
  let d := d.p pCAP (CAP_CSTATUS_STATE c) 0
  let d := d.each (d.capChans c) fun d ch => d.modChan ch fun x => { x with phase := if x.phase == 3 then 3 else 0, buf := [], parts := [], lines := [] }
  d.levelPins c

/-- A TRIG action reaches context `c` (R329, R330). -/
def trig (d : Dev) (c : Nat) : Dev :=
  match d.g pCAP (CAP_CSTATUS_STATE c) with
  | 1 =>
    let d := d.each (d.capChans c) fun d ch =>
      d.modChan ch fun x =>
        let want := d.capSeg c ch - d.capPost c ch
        { x with phase := 2, trigBlk := x.blocks, trigPos := some x.buf.length, pre := Nat.min want x.blocks, short := x.blocks < want,
                 post := 0, trigTime := d.now % 2 ^ 32, epoch := d.g pTSB TSB_EPOCH_COUNT }
    (d.p pCAP (CAP_CSTATUS_STATE c) 2).levelPins c
  | 2 => d.add pCAP (CAP_MISSED_POST c) 1
  | 3 => d.add pCAP (CAP_MISSED_REARM c) 1
  | _ => d

/-- DONE of a context, with its interrupts (R335). -/
def capDone (d : Dev) (c : Nat) : Dev :=
  let d := ((d.on pCAP (CAP_CSTATUS_DONE c)).add pCAP (CAP_CSTATUS_CAPTURES c) 1).irq pCAP c
  if c < 16 then d.irq (pPTN c) 12 else d

/-- Every channel of a context in POST is complete (R329). -/
def capFinish (d : Dev) (c : Nat) : Dev :=
  if d.g pCAP (CAP_CSTATUS_STATE c) ≠ 2 || (d.capChans c).any (fun ch => (d.chanAt ch).phase ≠ 3) then d
  else
    let n := SMap.get 0 d.cap.capNo c
    let rearm := d.g pCAP (CAP_ARM_REARM c)
    let d := d.capDone c
    if rearm == 2 || (rearm == 1 && n + 1 < d.capSegs c) then
      ({ d with cap := { d.cap with capNo := SMap.set 0 d.cap.capNo c (n + 1) } }.p pCAP (CAP_CSTATUS_STATE c) 3).levelPins c
    else d.capIdle c

/-- A channel completes: its partial block and its directory entry are written (R328). -/
def chanComplete (d : Dev) (ch : Nat) : Dev :=
  let c := d.g pCAP (CAP_CH_CFG_OWNER ch)
  let d := d.cutBlock ch
  let d := (d.modChan ch fun x => { x with phase := 3, buf := [], parts := [], lines := [] }).writeEntry c ch 0
  d.capFinish c

/-- A hit of a comparator makes an entry in each EVENT channel whose mask names it and whose owner may select it (R311, R321, R323). The
bucket counts 2,000ths of an entry, which EV_RATE of them fill in each step of 0.5 ns (R326). -/
def capEvent (d : Dev) (k x : Nat) : Dev :=
  d.each (List.range 64) fun d ch =>
    let owner := d.g pCAP (CAP_CH_CFG_OWNER ch)
    if !(d.b pCAP (CAP_CH_CFG_EN ch) && d.capType ch == 4 && (d.g pCAP (CAP_CH_PARAM_PARAM ch)).testBit k) then d
    else if owner ≠ 16 && d.g pTRG (TRG_CCFG_OWNER k) ≠ owner then d
    else
      let s := d.chanAt ch
      if !collects s then d
      else
        let fill := Nat.min 32000 (s.bucket + (d.ticks - s.bucketAt) * d.g pCAP (CAP_CH_PAGES_EV_RATE ch))
        let d := d.setChan ch { s with bucket := if fill < 2000 then fill else fill - 2000, bucketAt := d.ticks }
        if fill < 2000 then d.capLost ch else d.capBytes ch (leBytes 8 d.now ++ leBytes 1 k ++ leBytes 7 x) 0 false

/-- A value a WALU offers reaches the WORD channels on it (R321, R323). -/
def capWord (d : Dev) (n t w v cyc : Nat) (wide : Bool) : Dev :=
  d.each (List.range 64) fun d ch =>
    if !(d.b pCAP (CAP_CH_CFG_EN ch) && d.capType ch == 3 && d.capSrc ch 9 6 == n && d.capSrc ch 15 5 == t && d.capSrc ch 20 1 == w) then d
    else if d.capSrc ch 21 1 == 0 then d.capBytes ch (leBytes 8 v) cyc false
    else
      let sgn := d.capSrc ch 22 1 == 1
      let v64 := if sgn && !wide then (toSigned 32 v % 2 ^ 64).toNat else v
      d.modChan ch fun x => if !collects x then x else { x with iv := x.iv ++ [v64] }

/-- A time base discontinuity marks each channel's first block after it (R332): 1 forward, 2 backward held, 3 epoch. -/
def capDiscont (d : Dev) (kind : Nat) : Dev := d.each (List.range 64) fun d ch => d.modChan ch fun x => { x with discont := kind }

end Dev

/-- A new OWNER starts the zeroing of the channel's region and entries, and nothing of the old owner's is on its way (R336); ignored while its
context is not IDLE (R334), and where the value names no owner. -/
def Dev.setChanOwner (d : Dev) (ch owner : Nat) : Dev :=
  if 16 < owner || d.g pCAP (CAP_CSTATUS_STATE (Nat.min 16 (d.g pCAP (CAP_CH_CFG_OWNER ch)))) ≠ 0 || d.g pCAP (CAP_CH_CFG_OWNER ch) == owner then d
  else
    let off := d.g pCAP (CAP_CH_OFFSET_PAGES ch)
    let pages := d.g pCAP (CAP_CH_PAGES_PAGES ch)
    let d := (d.p pCAP (CAP_CH_CFG_OWNER ch) owner).modChan ch fun x => { x with ready := [], zeroing := true, zeroOff := off, zeroPages := pages }
    { d with cap := { d.cap with blocksOut := d.cap.blocksOut.filter fun b => b.chan ≠ ch } }

/-- Whether two ranges share a byte. -/
def overlaps (a n b m : Nat) : Bool := n ≠ 0 && m ≠ 0 && a < b + m && b < a + n

/-- Whether the HBM ring of trace stream 16 is in use, and where (R342). -/
def Dev.ring16 (d : Dev) : Nat × Nat :=
  if d.b pTRC (TRC_S_CFG_EN 16) && !d.b pTRC (TRC_S_CFG_SINK 16) then (d.g pTRC (TRC_S_BASE_ADDR 16), d.g pTRC (TRC_S_SIZE_PAGES 16) * 4096) else (0, 0)

/-- Whether the Pinwheel may lie there (R320). -/
def Dev.pinwheelOk (d : Dev) (a n : Nat) : Bool :=
  n == 0 || (n ≤ 16777216 * 4096 && a + n ≤ hbmTop && !overlaps a n d.ring16.1 d.ring16.2 &&
    (List.range 16).all fun i => d.dirState i == 0 || !overlaps a n (d.ptnAt i).quotaBase (d.ptnAt i).quotaSize)

end Sys2Proof.Machine
end

