-- ==== Sys2Proof/Machine/Trace.lean ====
section
/-! DEFINITION. The trace unit (R337 to R349): records, blocks, sinks, the event state machine, rights. -/

namespace Sys2Proof.Machine

namespace Dev

/-- Owner of stream `s` as an event owner: partition s, or the device for stream 16 (R337). -/
def strmEn (d : Dev) (s : Nat) : Bool := d.b pTRC (TRC_S_CFG_EN s)
def strmOn (d : Dev) (s : Nat) : Bool := d.b pTRC (TRC_S_STATUS_ON s)
/-- Ring size in blocks (R342). -/
def ringBlocks (d : Dev) (s : Nat) : Nat := d.g pTRC (TRC_S_SIZE_PAGES s) * 16
/-- Where the ring begins in HBM (R342): a partition's base is an offset in its quota. -/
def ringBase (d : Dev) (s : Nat) : Nat :=
  d.g pTRC (TRC_S_BASE_ADDR s) + (if s < 16 then (d.ptnAt s).quotaBase else 0)
/-- The function a host sink writes as: VF p+1 where partition p has one, else the PF (R342). -/
def strmFn (d : Dev) (s : Nat) : Nat := if s < 16 && d.b pDEV (DEV_DIR_VF s) then s + 1 else 0
/-- CYCLE for a record: the partition's; stream 16 has no cycle, so its bits are free. -/
def strmCycle (d : Dev) (s : Nat) : Nat :=
  if s < 16 then d.g (pPTN s) PTN_CYCLE_COUNT
  else (Config.freeWord d.fresh 0).toNat ||| (Config.freeWord d.fresh 1).toNat <<< 32

/-- The interrupts of a loss or FULL (R354). -/
def traceIrq (d : Dev) (s : Nat) : Dev :=
  let d := d.irq pTRC s
  if s < 16 then d.irq (pPTN s) 13 else d

/-- The probe whose record this is (R277). -/
def recProbe (r : List Byte) : Nat := leAt r 4 1 % 8

/-- A block's loss is recorded: the next block accepted says so (R343). -/
def noteLoss (d : Dev) (s : Nat) : Dev :=
  d.modStrm s fun x => { x with lossN := x.lossN + 1, lossAt := if x.lossN == 0 then d.now else x.lossAt }

/-- A completed block of a class, with these records, is lost whole (R343). -/
def loseBlock (d : Dev) (s cls : Nat) (recs : List (List Byte)) : Dev :=
  let d := if cls == 1 then d.each recs fun d r => d.add pNOC (NOC_DROPPED_COUNT (recProbe r)) 1 else d
  (((d.noteLoss s).add pTRC (TRC_S_LOST_COUNT s) 1).traceIrq s).raise 0x10B 4 16 0 0

/-- Where the next block of a stream goes in its ring, and the place after it; both wrap at the ring's present size (R342). -/
def ringNext (d : Dev) (s : Nat) : Nat × Nat :=
  let n := Nat.max 1 (d.ringBlocks s)
  (d.g pTRC (TRC_S_WR_PTR_BLOCK s) % n, (d.g pTRC (TRC_S_WR_PTR_BLOCK s) + 1) % n)

/-- Whether a host ring is full (R342). -/
def hostFull (d : Dev) (s : Nat) : Bool :=
  d.b pTRC (TRC_S_CFG_SINK s) && d.ringBlocks s ≠ 0 && (d.ringNext s).2 == d.g pTRC (TRC_S_RD_PTR_BLOCK s) % d.ringBlocks s

/-- A completed block joins the stream's buffer; after a loss it carries LOSS (R343, R344). -/
def acceptBlock (d : Dev) (s cls first : Nat) (recs : List (List Byte)) : Dev :=
  let x := d.strmAt s
  if 16 ≤ x.out.length then d.loseBlock s cls recs
  else
    let flags := (if x.fresh then 1 else 0) ||| (if x.lossN ≠ 0 then 2 else 0)
    let block := leBytes 1 recs.length ++ leBytes 1 s ++ leBytes 1 cls ++ leBytes 1 flags ++ leBytes 4 x.seqNo ++ leBytes 8 first ++
      recs.flatten ++ List.replicate (240 - 16 * recs.length) 0
    d.setStrm s { x with fresh := false, lossN := 0, lossAt := 0, seqNo := x.seqNo + 1, out := x.out ++ [block] }

/-- A SYNC record's bytes (R345). -/
def syncRec (d : Dev) (s : Nat) : List Byte :=
  leBytes 2 7 ++ leBytes 2 (d.g pTSB TSB_EPOCH_COUNT) ++ leBytes 4 (d.strmCycle s >>> 32) ++ leBytes 8 d.now

/-- An OVERFLOW record's bytes for what stream `x` has lost (R345). -/
def overflowRec (x : Strm) (resumed : Nat) : List Byte :=
  leBytes 4 8 ++ leBytes 4 (Nat.min x.lossN 0xFFFFFFFF) ++ leBytes 4 x.lossAt ++ leBytes 4 resumed

/-- A REPEAT record's bytes (R345). -/
def repeatRec (x : Strm) : List Byte := leBytes 4 0x0B ++ leBytes 4 x.rep ++ leBytes 4 x.repCyc ++ leBytes 4 x.repTime

/-- What resumes a stream of typed records after a loss: OVERFLOW and SYNC, and the REPEAT count that waits, which is due with the SYNC (R343,
R346, R347). -/
def resumeRecs (d : Dev) (s : Nat) : List (List Byte) :=
  let x := d.strmAt s
  [overflowRec x d.now, d.syncRec s] ++ (if x.rep == 0 then [] else [repeatRec x])

/-- The block being filled is completed: it joins the buffer or is lost. One that would be accepted after a loss begins with OVERFLOW; where
it was begun without, a block of OVERFLOW and SYNC goes before it (R343, R347). -/
def closeBlock (d : Dev) (s : Nat) : Dev :=
  let x := d.strmAt s
  if x.recs.isEmpty then d
  else
    let d := d.setStrm s { x with recs := [], ovf := false }
    if 16 ≤ x.out.length || d.hostFull s then d.loseBlock s x.cls x.recs
    else if x.lossN == 0 then d.acceptBlock s x.cls x.first x.recs
    else if x.ovf then d.acceptBlock s x.cls x.first (overflowRec x x.ovfAt :: x.recs.drop 1)
    else ((d.modStrm s fun y => { y with rep := 0 }).acceptBlock s 0 d.now (d.resumeRecs s)).tick.acceptBlock s x.cls x.first x.recs

/-- One record is put into the block being filled, which holds records of its class (R344). -/
def putRec (d : Dev) (s cls : Nat) (r : List Byte) : Dev :=
  let x := d.strmAt s
  let x := if x.recs.isEmpty then { x with cls := cls, first := d.now } else x
  let d := d.setStrm s { x with recs := x.recs ++ [r] }
  if 15 ≤ x.recs.length + 1 then d.closeBlock s else d

/-- A block of typed records is begun after a loss (R343). -/
def beginAfterLoss (d : Dev) (s : Nat) : Dev :=
  let x := d.strmAt s
  d.tick.setStrm s { x with recs := d.resumeRecs s, cls := 0, first := d.now, ovf := true, ovfAt := d.now, rep := 0 }

/-- A record is written by an enabled stream (R343, R344). A record of the other CLASS closes the open block first, as a block has one CLASS (DESIGN
CHOICE, log entry 66). -/
def addRec (d : Dev) (s cls : Nat) (r : List Byte) : Dev :=
  if !d.strmEn s || (d.strmAt s).stopped then d
  else
    let d := if (d.strmAt s).cls == cls then d else d.closeBlock s
    let x := d.strmAt s
    (if cls == 0 && x.recs.isEmpty && x.lossN ≠ 0 then d.beginAfterLoss s else d).putRec s cls r

/-- The REPEAT count is written where there is one (R346). -/
def flushRepeat (d : Dev) (s : Nat) : Dev :=
  let x := d.strmAt s
  if x.rep == 0 then d
  else (d.setStrm s { x with rep := 0 }).addRec s 0 (repeatRec x)

/-- A SYNC record is written (R347). -/
def addSync (d : Dev) (s : Nat) : Dev := (((d.flushRepeat s).addRec s 0 (d.syncRec s))).tick

/-- ON becomes 0 or 1 (R339, R346). -/
def setOn (d : Dev) (s : Nat) (v : Bool) : Dev :=
  let d := if v then d else d.flushRepeat s
  d.p pTRC (TRC_S_STATUS_ON s) v.toNat

/-- The stream stops: its count and its partial block are written and ON is 0 (R342, R344). -/
def stopStream (d : Dev) (s : Nat) : Dev :=
  let d := (d.setOn s false).closeBlock s
  d.modStrm s fun x => { x with stopped := true }

/-- A MARK record (R345): `how` 0 state machine, 1 register. -/
def addMark (d : Dev) (s how before after v : Nat) : Dev :=
  let bs := leBytes 1 6 ++ leBytes 1 how ++ leBytes 1 before ++ leBytes 1 after ++ leBytes 2 v ++ leBytes 2 0 ++ leBytes 4 (d.strmCycle s) ++ leBytes 4 d.now
  (d.addRec s 0 bs).tick

/-- A comparator's owner is the stream's owner (R340). -/
def compOf (d : Dev) (s k : Nat) : Bool := d.g pTRG (TRG_CCFG_OWNER k) == s

/-- Whether slot `t` of state `j` fires on hits of the listed comparators (R339). -/
def slotFires (d : Dev) (s j t : Nat) (hits : List Nat) : Bool :=
  d.b pTRC (TRC_S_TRANS_V s j t) &&
    (if d.b pTRC (TRC_S_TRANS_COND s j t) then d.g pTRC (TRC_S_CNT_LIMIT_LIMIT s) ≤ d.g pTRC (TRC_S_COUNT_COUNT s)
     else hits.contains (d.g pTRC (TRC_S_TRANS_COMP s j t)) && d.compOf s (d.g pTRC (TRC_S_TRANS_COMP s j t)))

/-- A slot fires (R339). -/
def fireSlot (d : Dev) (s j t : Nat) : Dev :=
  let next := d.g pTRC (TRC_S_TRANS_NEXT s j t)
  let d := (d.p pTRC (TRC_S_STATUS_STATE s) next).p pTRC (TRC_S_COUNT_COUNT s) 0
  match d.g pTRC (TRC_S_TRANS_ACT s j t) with
  | 1 => d.setOn s true
  | 2 => d.setOn s false
  | 3 => d.addMark s 0 j next t
  | _ => d

/-- The counter of unit 2 counts a step in which a comparator it names hit, once (R340). -/
def countHits (d : Dev) (s : Nat) (hits : List Nat) : Dev :=
  if d.g pTRC (TRC_S_CFG_CNT_UNIT s) == 2 && !d.trg.counted.contains s &&
      hits.any (fun k => (d.g pTRC (TRC_S_CNT_MASK_MASK s)).testBit k && d.compOf s k) then
    { d.add pTRC (TRC_S_COUNT_COUNT s) 1 with trg := { d.trg with counted := s :: d.trg.counted } }
  else d

/-- The machine of one stream sees the hits of the step: the counter of unit 2 counts, then at most one transition fires in the step (R340). -/
def runMachine (d : Dev) (s : Nat) (hits : List Nat) : Dev :=
  if !d.strmEn s || (d.strmAt s).stopped || d.trg.fired.contains s then d
  else
    let d := d.countHits s hits
    let j := d.g pTRC (TRC_S_STATUS_STATE s)
    let fire (d : Dev) (t : Nat) : Dev := { d with trg := { d.trg with fired := s :: d.trg.fired } }.fireSlot s j t
    if d.slotFires s j 0 hits then fire d 0
    else if d.slotFires s j 1 hits then fire d 1
    else d

/-- The machines of every stream see the hits that the step has made (R339): at a boundary within it, before the boundary is sampled (R341),
and at its end. -/
def runMachines (d : Dev) : Dev := d.each (List.range 17) fun d s => d.runMachine s (d.trg.hits.map (·.1))

/-- The step ends for the machines. -/
def endMachines (d : Dev) : Dev := { d with trg := { d.trg with fired := [], counted := [] } }

/-- A cycle counts for a stream whose counter counts cycles of partition `i` (R340). -/
def countCycle (d : Dev) (i : Nat) : Dev :=
  let u := d.g pTRC (TRC_S_CFG_CNT_UNIT i)
  if d.strmEn i && (u == 0 || u == 3) then d.add pTRC (TRC_S_COUNT_COUNT i) 1 else d

/-- Taps packed from bit 0 into at most `limit` bits: value, width and whether one was dropped (R322, R338). -/
def packTaps (limit : Nat) : List Tap → Nat × Nat × Bool → Nat × Nat × Bool
  | [], r => r
  | t :: ts, (v, n, ovf) => if n + t.width ≤ limit then packTaps limit ts (v ||| t.data <<< n, n + t.width, ovf) else packTaps limit ts (v, n, true)

/-- DATA records of one cluster's taps in one cycle (R338, R345). -/
def addData (d : Dev) (s n cyc : Nat) (taps : List Tap) : Dev :=
  let r := packTaps 2560 (taps.filter (·.cluster == n)) (0, 0, false)
  let k := (r.2.1 + 79) / 80
  d.each (List.range k) fun d i =>
    let last := i + 1 == k
    let fl := (if last then 1 else 0) ||| (if last && r.2.2 then 2 else 0)
    d.addRec s 0 (leBytes 1 3 ++ leBytes 1 n ++ leBytes 1 i ++ leBytes 1 fl ++ leBytes 2 cyc ++ leBytes 10 (bitsAt r.1 (80 * i) 80))

/-- CYCLE and SEGMENTS, or the count of REPEAT, for a traced cycle (R345, R346). -/
def addCycle (d : Dev) (s passes steps es segs flags cyc etime : Nat) : Dev :=
  let x := d.strmAt s
  let pat := some (passes, steps, es, segs, flags)
  if d.b pTRC (TRC_S_CFG_REPEAT s) && x.pat == pat then
    let d := d.setStrm s { x with rep := x.rep + 1, repCyc := cyc, repTime := etime }
    if 65535 ≤ x.rep + 1 then d.flushRepeat s else d
  else
    let d := (d.flushRepeat s).modStrm s fun x => { x with pat := pat }
    let d := d.addRec s 0 (leBytes 1 1 ++ leBytes 1 passes ++ leBytes 2 steps ++ leBytes 4 cyc ++ leBytes 4 es ++ leBytes 4 flags)
    d.addRec s 0 (leBytes 4 2 ++ leBytes 4 etime ++ leBytes 8 segs)

/-- Whether the unit is in authorised mode (R348). -/
def authMode (d : Dev) : Bool := d.boot.ownerProv && !d.b pTRC TRC_AUTH_DISABLED
/-- AUTH.MODE shows the mode. -/
def setAuthMode (d : Dev) : Dev := d.p pTRC TRC_AUTH_MODE d.authMode.toNat
/-- A right of the valid token (R349). -/
def right (d : Dev) (i : Nat) : Bool := d.authMode && (d.g pTRC TRC_AUTH_RIGHTS).testBit i

/-- Whether a stream's DATA source may name cluster `n` (R338, R349). -/
def dselAllowed (d : Dev) (s n : Nat) : Bool :=
  s < 16 && (d.owns s n || (d.right 4 && (match d.ownerOf n with | some i => (d.g pTRC TRC_AUTH_PARTITIONS).testBit i | none => false)))

/-- The records of a cycle of partition `i` at its boundary: INSTR in stream i, DATA in every stream that names a cluster of its and may do
so (R338, R341). -/
def traceCycle (d : Dev) (i passes steps es segs flags : Nat) (taps : List Tap) : Dev :=
  let cyc := d.g (pPTN i) PTN_CYCLE_COUNT
  let etime := d.g (pPTN i) PTN_ETIME_PS
  let d := if d.strmEn i && d.strmOn i && (d.g pTRC (TRC_S_CFG_SOURCES i)).testBit 0 then d.addCycle i passes steps es segs flags cyc etime else d
  d.each (List.range 16) fun d s =>
    if !(d.strmEn s && d.strmOn s && (d.g pTRC (TRC_S_CFG_SOURCES s)).testBit 1) then d
    else d.each (List.range 4) fun d k =>
      let n := d.g pTRC (TRC_S_DSEL_CLUSTER s k)
      if d.b pTRC (TRC_S_DSEL_V s k) && d.owns i n && d.dselAllowed s n then d.addData s n cyc taps else d

/-- The SOURCES bits a stream may enable (R337, R348, R349). Bit 0 of the field is register bit 1. -/
def srcAllowed (d : Dev) (s : Nat) : Nat :=
  if s < 16 then 3
  else if !d.right 0 then 0
  else 4 ||| (if d.right 2 then 8 else 0) ||| (if d.right 3 then 16 else 0)

/-- Sources and DATA selections that the rights do not permit are disabled; the bit that records it is given (R352, R354). -/
def denySources (d : Dev) (s : Nat) (mark : Fld) : Dev :=
  let src := d.g pTRC (TRC_S_CFG_SOURCES s)
  let ok := src &&& d.srcAllowed s
  let d := if ok == src then d else (d.p pTRC (TRC_S_CFG_SOURCES s) ok).on pTRC mark
  d.each (List.range 4) fun d k =>
    if d.b pTRC (TRC_S_DSEL_V s k) && !d.dselAllowed s (d.g pTRC (TRC_S_DSEL_CLUSTER s k)) then
      (d.p pTRC (TRC_S_DSEL_V s k) 0).on pTRC mark
    else d

/-- The rights have changed: what they no longer permit is disabled, and stream 16 stops as if its ring were full (R352). -/
def applyRights (d : Dev) : Dev :=
  let d := d.setAuthMode.each (List.range 17) fun d s =>
    if d.strmEn s then d.denySources s (TRC_S_STATUS_REVOKED s) else d
  if d.strmEn 16 && !d.right 0 && !(d.strmAt 16).stopped then
    (((d.stopStream 16).on pTRC (TRC_S_STATUS_REVOKED 16)).on pTRC (TRC_S_STATUS_FULL 16)).traceIrq 16
  else d

/-- The token ends (R352). -/
def endToken (d : Dev) : Dev :=
  (((d.p pTRC TRC_AUTH_RIGHTS 0).p pTRC TRC_AUTH_PARTITIONS 0).p pTRC TRC_EXPIRES_NS 0).applyRights

/-- Whether the HBM ring of stream 16 may lie where its registers put it (R342). -/
def ring16Ok (d : Dev) : Bool :=
  let a := d.g pTRC (TRC_S_BASE_ADDR 16)
  let n := d.g pTRC (TRC_S_SIZE_PAGES 16) * 4096
  a + n ≤ hbmTop && !overlaps a n (d.g pCAP CAP_PW_BASE_ADDR) (d.g pCAP CAP_PW_SIZE_PAGES * 4096) &&
    (List.range 16).all fun i => d.dirState i == 0 || !overlaps a n (d.ptnAt i).quotaBase (d.ptnAt i).quotaSize

/-- SCFG.EN := 1 (R339, R342, R347, R354): blocks on their way and a loss not yet reported stay (R343). -/
def enableStream (d : Dev) (s : Nat) : Dev :=
  if d.strmEn s then d
  else if s == 16 && !d.right 0 then d.on pTRC (TRC_S_STATUS_SRC_DENIED 16)
  else if s == 16 && !d.b pTRC (TRC_S_CFG_SINK 16) && !d.ring16Ok then d.on pTRC (TRC_S_STATUS_SINK_REFUSED 16)
  else
    let d := d.denySources s (TRC_S_STATUS_SRC_DENIED s)
    let d := (d.on pTRC (TRC_S_CFG_EN s)).setStrm s { Strm.reset with out := (d.strmAt s).out, lossN := (d.strmAt s).lossN, lossAt := (d.strmAt s).lossAt }
    let d := ((d.p pTRC (TRC_S_STATUS_STATE s) 0).p pTRC (TRC_S_STATUS_ON s) (d.g pTRC (TRC_S_CFG_START_ON s))).p pTRC (TRC_S_COUNT_COUNT s) 0
    d.addSync s

/-- SCFG.EN := 0: the stream stops. -/
def disableStream (d : Dev) (s : Nat) : Dev := if d.strmEn s then (d.stopStream s).p pTRC (TRC_S_CFG_EN s) 0 else d

/-- A WARDEN record, on a state change of the Warden (R337, R345). -/
def traceWarden (d : Dev) : Dev :=
  if d.strmEn 16 && d.strmOn 16 && (d.g pTRC (TRC_S_CFG_SOURCES 16)).testBit 4 then
    d.addRec 16 0 (leBytes 1 0x0A ++ leBytes 1 (d.g pWDN WDN_STATUS_STATE) ++ leBytes 2 0 ++ leBytes 4 (d.g pWDN WDN_HEARTBEAT_COUNT) ++ leBytes 8 d.now)
  else d

/-- A PUP record of core `c` (R337, R345): 0 branch, 1 exception, 2 return. The addresses are free: the firmware is no part of the manual. -/
def tracePup (d : Dev) (c kind : Nat) : Dev :=
  if d.right 2 && d.strmEn 16 && d.strmOn 16 && (d.g pTRC (TRC_S_CFG_SOURCES 16)).testBit 3 then
    (d.addRec 16 0 (leBytes 1 4 ++ leBytes 1 c ++ leBytes 1 kind ++ leBytes 1 0 ++ leBytes 4 (Config.freeWord d.fresh (2 * c)).toNat ++
      leBytes 4 (Config.freeWord d.fresh (2 * c + 1)).toNat ++ leBytes 4 d.now)).tick
  else d

/-- What the running Puppeteer cores do in a step (R337). -/
def pupStep (d : Dev) : Dev :=
  d.each (List.range 8) fun d c =>
    if d.g pPUP (PUP_CORE_STATE_STATE c) == 0 then d
    else match Config.pupFlow d.ticks c with
      | some kind => d.tracePup c kind
      | none => d

/-- A probe record of R277 reaches stream 16 (R337, R349). -/
def traceProbe (d : Dev) (devlvl : Bool) (r : List Byte) : Dev :=
  if d.right (if devlvl then 1 else 0) && d.strmEn 16 && d.strmOn 16 && (d.g pTRC (TRC_S_CFG_SOURCES 16)).testBit 2 then d.addRec 16 1 r else d

/-- A discontinuity of the time base (R192, R332, R347): 1 forward, 2 backward held, 3 epoch. -/
def discont (d : Dev) (kind : Nat) : Dev :=
  let d := d.each (List.range 17) fun d s =>
    if d.strmEn s then
      ((d.flushRepeat s).addRec s 0 (leBytes 1 9 ++ leBytes 1 kind ++ leBytes 2 (d.g pTSB TSB_EPOCH_COUNT) ++ leBytes 4 0 ++ leBytes 8 d.now)).addSync s
    else d
  (d.capDiscont kind).raise 0x107 4 16 0 0

end Dev
end Sys2Proof.Machine
end

