-- ==== Sys2Proof/Machine/Trigger.lean ====
section
/-! DEFINITION. The trigger engine's sequencer and actions (R314 to R318), the settling of a command's events and hits, and the
commands of the trigger engine, the capture engine's contexts and the trace streams. -/

namespace Sys2Proof.Machine

namespace Dev

/-- Actions are collected; identical ones are issued once (R317). -/
def addActs (d : Dev) (owner bits : Nat) : Dev :=
  if bits == 0 || d.trg.acts.contains (owner, bits) then d else { d with trg := { d.trg with acts := d.trg.acts ++ [(owner, bits)] } }

/-- Whether comparator `k` hit, for a sequencer with this owner (R316). -/
def seqHit (d : Dev) (hits : List Nat) (k : Nat) : Bool :=
  hits.contains k && d.g pTRG (TRG_CCFG_OWNER k) == d.g pTRG TRG_SEQ_CTRL_OWNER

/-- The trigger sequencer evaluates its current level for one step (R315). -/
def runSequencer (d : Dev) (hits : List Nat) : Dev :=
  if !d.b pTRG TRG_SEQ_STATUS_ARMED then d
  else
    let l := d.g pTRG TRG_SEQ_STATUS_LEVEL
    let named (m : Nat) : List Nat := (List.range 32).filter m.testBit
    let mask := named (d.g pTRG (TRG_HIT_MASK_MASK l))
    if (named (d.g pTRG (TRG_RESTART_MASK_MASK l))).any (d.seqHit hits) then
      (d.p pTRG TRG_SEQ_STATUS_LEVEL 0).p pTRG TRG_SEQ_STATUS_COUNT 0
    else if !(if d.b pTRG (TRG_LCFG_ALL l) then mask.all (d.seqHit hits) else mask.any (d.seqHit hits)) then d
    else
      let c := d.g pTRG TRG_SEQ_STATUS_COUNT + 1
      if c < d.g pTRG (TRG_LCFG_COUNT_M1 l) + 1 then d.p pTRG TRG_SEQ_STATUS_COUNT c
      else
        let d := (d.addActs (d.g pTRG TRG_SEQ_CTRL_OWNER) (d.g pTRG (TRG_LCFG_ACT l))).p pTRG TRG_SEQ_STATUS_COUNT 0
        if d.b pTRG (TRG_LCFG_STOP l) then ((d.p pTRG TRG_SEQ_STATUS_ARMED 0).on pTRG TRG_SEQ_STATUS_FIRED).irq pTRG 0
        else d.p pTRG TRG_SEQ_STATUS_LEVEL (d.g pTRG (TRG_LCFG_NEXT l))

/-- Pin `j` pulses no longer. -/
def stopPulse (d : Dev) (j : Nat) : Dev := { d with trg := { d.trg with pulsing := d.trg.pulsing &&& (255 ^^^ 1 <<< j) } }

/-- A PIN action of an owner (R317, R318). -/
def pulsePins (d : Dev) (owner : Nat) : Dev :=
  d.each (List.range 8) fun d j =>
    if d.b pTRG (TRG_PIN_OUT j) && !d.b pTRG (TRG_PIN_LEVEL_MODE j) && d.g pTRG (TRG_PIN_OWNER j) == owner then
      ({ d with trg := { d.trg with pulsing := d.trg.pulsing ||| 1 <<< j } }).drivePin j true
    else d

/-- A FREEZE action of an owner (R317, R179). -/
def freezeAction (d : Dev) (owner : Nat) : Dev :=
  let one (d : Dev) (i : Nat) : Dev := if d.b (pPTN i) PTN_FREEZE_CFG_TRG_EN then d.freezeReq i 5 else d
  let d := if owner < 16 then one d owner else d.each (List.range 16) one
  if d.b pLNK LNK_SYS_CTRL_TRG_FWD then d.raiseSysFreeze else d

/-- One kind of action for one owner. -/
def doAct (d : Dev) (owner bit : Nat) : Dev :=
  match bit with
  | 0 => if owner < 17 then d.trig owner else d
  | 1 => d.freezeAction owner
  | 2 => if owner == 16 then d.strobeReq 1 else d
  | _ => d.pulsePins owner

/-- The actions collected in a step are issued, each kind once for each owner (R317). -/
def issueActs (d : Dev) : Dev :=
  let acts := d.trg.acts
  let d := { d with trg := { d.trg with acts := [] } }
  d.each (List.range 32) fun d owner => d.each (List.range 4) fun d bit =>
    if acts.any (fun a => a.1 == owner && a.2.testBit bit) then d.doAct owner bit else d

/-- The events waiting reach the bus, the counters, the comparators and the log (R402). -/
def runEvents : Nat → Dev → Dev
  | 0, d => d
  | fuel + 1, d =>
    match d.evq with
    | [] => d
    | ev :: rest =>
      let d := { d with evq := rest }
      let d := if d.bus.contains ev.num then d
        else (({ d with bus := ev.num :: d.bus }).countEvent ev.num).offer 7 (fun x => bitsAt x 0 10 == ev.num) 1
      runEvents fuel (d.logEvent ev)

/-- The hits of a step: event channels, the comparators' own actions, the sequencer, the trace machines (R314 to R317). -/
def runHits (d : Dev) : Dev :=
  let hits := d.trg.hits
  let d := d.runMachines
  if hits.isEmpty then (if d.b pTRG TRG_SEQ_STATUS_ARMED then (d.runSequencer []).issueActs else d)
  else
    let d := d.each ((List.range 32).filterMap fun k => hits.find? (fun h => h.1 == k)) fun d h => d.capEvent h.1 h.2
    let d := d.each hits fun d h => d.addActs (d.g pTRG (TRG_CCFG_OWNER h.1)) (d.g pTRG (TRG_CCFG_ACT h.1))
    let d := d.runSequencer (hits.map (·.1))
    ({ d with trg := { d.trg with hits := [] } }).issueActs

/-- Events and hits are settled until none is left: those that an action makes belong to the next step (R314). What a step collects follows
its triggers (R328). -/
def settleAll : Nat → Dev → Dev
  | 0, d => d
  | fuel + 1, d =>
    let d := (runEvents 256 d).runHits.capFlush.endMachines
    if d.evq.isEmpty && d.trg.hits.isEmpty then d else settleAll fuel d

/-- A step that is not the last of its command ends: its events and hits are settled (R314, R402). -/
def stepEnd (d : Dev) : Dev := { settleAll 8 d with bus := [] }

/-- What every command ends with: writes and answers held for space are served, its events and hits are settled. Each command has a hub clock of its own on the event bus (DESIGN
CHOICE, log entry 3). -/
def finish (d : Dev) : Dev := { (settleAll 8 (sendAnswers 64 d.serveHeld)).capDark with bus := [] }

end Dev

/-- A command's effect on the device with its events and hits settled. -/
def fin (s : State) (f : Dev → Dev) : Host.Outcome State Fault Refusal := .next { s with dev := (f s.dev).finish }

/-- A command of the main domain: no effect unless the device is ACTIVE (R379). -/
def main (s : State) (f : Dev → Dev) : Host.Outcome State Fault Refusal := fin s fun d => if d.active then f d else d

/-- SEQ_CTRL.ARM (R316): not while a reset of the partition that owns the sequencer is in progress (R319, R387). -/
def Dev.doArm (d : Dev) : Dev :=
  if d.g pTRG TRG_SEQ_CTRL_OWNER < 16 && d.ptnBusy (d.g pTRG TRG_SEQ_CTRL_OWNER) then d
  else ((d.on pTRG TRG_SEQ_STATUS_ARMED).p pTRG TRG_SEQ_STATUS_LEVEL 0).p pTRG TRG_SEQ_STATUS_COUNT 0
/-- Arm: the command over `doArm`. -/
def execArm (s : State) : Host.Outcome State Fault Refusal := main s fun d => if d.full then d.doArm else d

/-- SEQ_CTRL.DISARM (R316). -/
def Dev.doDisarm (d : Dev) : Dev :=
  d.p pTRG TRG_SEQ_STATUS_ARMED 0
/-- Disarm: the command over `doDisarm`. -/
def execDisarm (s : State) : Host.Outcome State Fault Refusal := main s fun d => if d.full then d.doDisarm else d

/-- A level has been current for TIMEOUT µs (R315). -/
def Dev.doTriggerLevelTimeout (d : Dev) : Dev :=
  if d.b pTRG TRG_SEQ_STATUS_ARMED && d.g pTRG (TRG_LTIMEOUT_US (d.g pTRG TRG_SEQ_STATUS_LEVEL)) ≠ 0 then
    (d.p pTRG TRG_SEQ_STATUS_LEVEL 0).p pTRG TRG_SEQ_STATUS_COUNT 0
  else d
/-- TriggerLevelTimeout: the command over `doTriggerLevelTimeout`. -/
def execTriggerLevelTimeout (s : State) : Host.Outcome State Fault Refusal := main s fun d => d.doTriggerLevelTimeout

/-- An edge reaches a trigger pin that is an input (R312, R318). -/
def Dev.doTrigPinEdge (d : Dev) (j : Nat) (rising : Bool) : Dev :=
  if d.b pTRG (TRG_PIN_OUT j) then d
  else
    let lvl := if rising then d.trg.pinIn ||| 1 <<< j else d.trg.pinIn &&& (255 ^^^ 1 <<< j)
    let d := ({ d with trg := { d.trg with pinIn := lvl } }).p pTRG TRG_STATUS_PIN_IN lvl
    d.offer 6 (fun x => bitsAt x 0 3 == j && (bitsAt x 3 2 == 3 || bitsAt x 3 2 == (if rising then 1 else 2))) 1
/-- TrigPinEdge: the command over `doTrigPinEdge`. -/
def execTrigPinEdge (j : Fin 8) (rising : Bool) (s : State) : Host.Outcome State Fault Refusal := main s fun d => d.doTrigPinEdge j.val rising

/-- A pulse ends (R318). -/
def Dev.doPinPulseEnd (d : Dev) (j : Nat) : Dev := if d.trg.pulsing.testBit j then (d.stopPulse j).drivePin j false else d
/-- PinPulseEnd: the command over `doPinPulseEnd`. -/
def execPinPulseEnd (j : Fin 8) (s : State) : Host.Outcome State Fault Refusal := main s fun d => d.doPinPulseEnd j.val

/-- SCFG.EN := 1 (R339, R348). -/
def Dev.doTraceStreamEnable (d : Dev) (t : Nat) : Dev :=
  d.enableStream t
/-- TraceStreamEnable: the command over `doTraceStreamEnable`. -/
def execTraceStreamEnable (t : Fin 17) (s : State) : Host.Outcome State Fault Refusal := main s fun d => if d.full then d.doTraceStreamEnable t.val else d

/-- A stream's counter reaches CNT_LIMIT (R339, R340): its machine sees it in this step. -/
def Dev.doTraceCounterLimit (d : Dev) (t : Nat) : Dev :=
  if d.strmEn t && d.g pTRC (TRC_S_CFG_CNT_UNIT t) == 1 then
    d.p pTRC (TRC_S_COUNT_COUNT t) (Nat.max (d.g pTRC (TRC_S_COUNT_COUNT t)) (d.g pTRC (TRC_S_CNT_LIMIT_LIMIT t)))
  else d
/-- TraceCounterLimit: the command over `doTraceCounterLimit`. -/
def execTraceCounterLimit (t : Fin 17) (s : State) : Host.Outcome State Fault Refusal := main s fun d => d.doTraceCounterLimit t.val

/-- A write of MARK (R354): the stream's machine goes first in its step. -/
def Dev.doMark (d : Dev) (t : Nat) (v : BitVec 16) : Dev :=
  let d := d.runMachine t (d.trg.hits.map (·.1))
  let st := d.g pTRC (TRC_S_STATUS_STATE t)
  d.addMark t 1 st st v.toNat
/-- Mark: the command over `doMark`. -/
def execMark (t : Fin 17) (v : BitVec 16) (s : State) : Host.Outcome State Fault Refusal := main s fun d => if d.full then d.doMark t.val v else d

/-- 10 µs after a block's first record (R344). -/
def Dev.doTraceBlockTimeout (d : Dev) (t : Nat) : Dev :=
  d.closeBlock t
/-- TraceBlockTimeout: the command over `doTraceBlockTimeout`. -/
def execTraceBlockTimeout (t : Fin 17) (s : State) : Host.Outcome State Fault Refusal := main s fun d => d.doTraceBlockTimeout t.val

/-- A periodic SYNC is due (R347). -/
def Dev.doTraceSyncTimer (d : Dev) (t : Nat) : Dev :=
  if d.strmOn t && d.g pTRC (TRC_S_CFG_SYNC_EXP t) ≠ 0 then d.addSync t else d
/-- TraceSyncTimer: the command over `doTraceSyncTimer`. -/
def execTraceSyncTimer (t : Fin 17) (s : State) : Host.Outcome State Fault Refusal := main s fun d => d.doTraceSyncTimer t.val

/-- TOKEN_REVOKE (R351, R352). -/
def Dev.doTokenRevoke (d : Dev) (tag : Byte) : Dev :=
  let d := d.takeService 0x32 tag.toNat 0 []
  if d.authMode then d.endToken.answer 0x32 tag.toNat 0 [] else d.answer 0x32 tag.toNat 0x0E []
/-- TokenRevoke: the command over `doTokenRevoke`. -/
def execTokenRevoke (tag : Byte) (s : State) : Host.Outcome State Fault Refusal := main s fun d => if d.full then d.doTokenRevoke tag else d

/-- A token's LIFETIME ends (R352). -/
def Dev.doTokenExpire (d : Dev) : Dev :=
  if d.g pTRC TRC_EXPIRES_NS ≠ 0 then d.endToken else d
/-- TokenExpire: the command over `doTokenExpire`. -/
def execTokenExpire (s : State) : Host.Outcome State Fault Refusal := main s fun d => d.doTokenExpire

/-- AUTH_CTRL.DISABLE (R352). -/
def Dev.doAuthDisable (d : Dev) : Dev :=
  (d.on pTRC TRC_AUTH_DISABLED).endToken
/-- AuthDisable: the command over `doAuthDisable`. -/
def execAuthDisable (s : State) : Host.Outcome State Fault Refusal := main s fun d => if d.full then d.doAuthDisable else d

/-- TOKEN_CHALLENGE (R351): a new nonce from the random generator. -/
def Dev.doTokenChallenge (d : Dev) (tag : Byte) : Dev :=
  let d := d.takeService 0x30 tag.toNat 0 []
  if d.authMode then
    let n := Config.random d.fresh
    ({ d.tick with nonce := some n }).answer 0x30 tag.toNat 0 ((List.range 4).map fun i => BitVec.ofNat 64 (n.toNat >>> (64 * i)))
  else d.answer 0x30 tag.toNat 0x0E []
/-- TokenChallenge: the command over `doTokenChallenge`. -/
def execTokenChallenge (tag : Byte) (s : State) : Host.Outcome State Fault Refusal := main s fun d => if d.full then d.doTokenChallenge tag else d

end Sys2Proof.Machine
end

