-- ==== Sys2Proof/Machine/Engines.lean ====
section
/-! DEFINITION. The commands of the log and the event counters (R413 to R417), the key roll (R369 to R374), the system-wide freeze and
strobes (R155, R179), and the capture engine (R320 to R336). -/

namespace Sys2Proof.Machine

/-- Ring entries are written with zeros and read back (R406): the first that fails, at which the ring is written no further. Entries whose cells
hold no error read back as they were written. -/
def Dev.zeroEntries (d : Dev) : List Nat → Dev × Option Nat
  | [] => (d, none)
  | i :: is =>
    let r := d.logCheck i [0, 0, 0, 0]
    match r.2 with
    | some syn => (r.1.logFail i syn, some i)
    | none => zeroEntries r.1 is

/-- LOG.CTRL.CLEAR (R406, R415): once AON_ONLY is set the ring is not written. -/
def Dev.doLogClear (d : Dev) : Dev :=
  let d :=
    if d.b pLOG LOG_STATUS_AON_ONLY then d
    else
      let r := d.zeroEntries (d.log.flips.map (·.1 / 4)).eraseDups
      let left (e : Nat × LogEntry) : Bool := match r.2 with | some i => decide (i < e.1) | none => false
      { r.1 with log := { r.1.log with ring := r.1.log.ring.filter left, newest := none } }
  (d.p pLOG LOG_STATUS_HEAD 0).p pLOG LOG_STATUS_WRAPPED 0
/-- LogClear: the command over `doLogClear`. -/
def execLogClear (s : State) : Host.Outcome State Fault Refusal := main s fun d => d.doLogClear

/-- AON.LG_CTRL.CLEAR (R416). -/
def Dev.doLastGaspClear (d : Dev) : Dev :=
  (({ d with log := { d.log with gasp := [] } }).p pAON AON_LG_STATUS_USED 0).p pAON AON_LG_STATUS_LOST 0
/-- LastGaspClear: the command over `doLastGaspClear`. -/
def execLastGaspClear (s : State) : Host.Outcome State Fault Refusal := main s fun d => d.doLastGaspClear

/-- EVC.CTRL.CLEAR_ALL (R417). -/
def Dev.doClearAll (d : Dev) : Dev :=
  d.each (List.range 64) fun d k => d.p pEVC (EVC_CNT_COUNT k) 0
/-- ClearAll: the command over `doClearAll`. -/
def execClearAll (s : State) : Host.Outcome State Fault Refusal := main s fun d => if d.full then d.doClearAll else d

/-- A counter reaches 2^48 - 1 (R413): counter `i` of a page, where the EVC page's 64 counters are those of `EVC`; only an enabled counter
advances, and only while RUN is 1. -/
def Dev.doCounterSaturate (d : Dev) (base : Nat) (i : Nat) : Dev :=
  if !d.b pEVC EVC_CTRL_RUN then d
  else if base == pEVC then
    (if d.b pEVC (EVC_SEL_EN i) then (d.p pEVC (EVC_CNT_COUNT i) (2 ^ 48 - 1)).on pEVC (EVC_SEL_OVF i) else d)
  else if i < 4 && base % 0x1000 == 0 && base < 0x500000 && d.b base (PG_SEL_EN i) then
    (d.p base (PG_CNT_COUNT i) (2 ^ 48 - 1)).on base (PG_SEL_OVF i)
  else d
/-- CounterSaturate: the command over `doCounterSaturate`. -/
def execCounterSaturate (base : Nat) (i : Fin 64) (s : State) : Host.Outcome State Fault Refusal := main s fun d => d.doCounterSaturate base i.val

/-- KRE.CMD.ROLL (R370). -/
def Dev.doRoll (d : Dev) : Dev :=
  d.requestRoll 2
/-- Roll: the command over `doRoll`. -/
def execRoll (s : State) : Host.Outcome State Fault Refusal := main s fun d => if d.full then d.doRoll else d

/-- A waiting roll retries at a release (R370, R410). -/
def Dev.doKeyRollStart (d : Dev) : Dev :=
  d.tryRoll (d.mnt.wait.contains (Dev.mntId 2 16 0))
/-- KeyRollStart: the command over `doKeyRollStart`. -/
def execKeyRollStart (s : State) : Host.Outcome State Fault Refusal := main s fun d => d.doKeyRollStart

/-- The engine converts the next sector, pauses, or ends the roll (R369, R371, R375). -/
def Dev.doKeyRollSector (d : Dev) : Dev :=
  if d.g pKRE KRE_STATUS_STATE < 2 then d
  else if d.g pKRE KRE_CFG_RATE == 0 then d.pauseRoll false
  else match d.nextSector with
    | none => d.endRoll
    | some sec =>
      if d.snapPinned sec then d.pauseRoll true
      else ((d.p pKRE KRE_STATUS_STATE 2).p pKRE KRE_STATUS_PAUSED_SNAP 0).convertSector sec
/-- KeyRollSector: the command over `doKeyRollSector`. -/
def execKeyRollSector (s : State) : Host.Outcome State Fault Refusal := main s fun d => d.doKeyRollSector

/-- IME.CTRL.CLR_COUNTS (R374). -/
def Dev.doImeClrCounts (d : Dev) : Dev :=
  (d.p pIME IME_INTEG_ERR_COUNT 0).each (List.range 4) fun d q =>
    (((d.p pIME (IME_LOOKUPS_COUNT q) 0).p pIME (IME_MISSES_COUNT q) 0).p pIME (IME_WRITEBACKS_COUNT q) 0).p pIME (IME_META_BYTES_COUNT q) 0
/-- ImeClrCounts: the command over `doImeClrCounts`. -/
def execImeClrCounts (s : State) : Host.Outcome State Fault Refusal := main s fun d => if d.full then d.doImeClrCounts else d

/-- LNK.SYS_CTRL.FREEZE (R179). -/
def Dev.doSysFreeze (d : Dev) : Dev :=
  d.raiseSysFreeze
/-- SysFreeze: the command over `doSysFreeze`. -/
def execSysFreeze (s : State) : Host.Outcome State Fault Refusal := main s fun d => if d.full then d.doSysFreeze else d

/-- SNP.STROBE.GO (R155). -/
def Dev.doStrobe (d : Dev) : Dev :=
  d.strobeReq 2
/-- Strobe: the command over `doStrobe`. -/
def execStrobe (s : State) : Host.Outcome State Fault Refusal := main s fun d => if d.full then d.doStrobe else d

/-- ARMc GO (R325, R329). -/
def Dev.doCaptureArm (d : Dev) (c : Nat) : Dev :=
  let i : Nat := c
  let refuse (d : Dev) (r : Nat) : Dev := d.p pCAP (CAP_CSTATUS_REASON i) r
  if d.g pCAP (CAP_CSTATUS_STATE i) ≠ 0 then refuse d 5
  else if (d.capChans i).isEmpty then refuse d 4
  else if (d.capChans i).any (fun ch => !d.capRegionOk i ch) then refuse d 3
  else
    let sum := d.capSum i
    if i ≠ 16 && d.g pCAP (CAP_CHARGE_ALLOW i) * 1000 < sum then refuse d 2
    else if 2000000 < sum + d.g pCAP CAP_SLICE_USED_MBS then refuse d 1
    else
      let d := ((refuse d 0).p pCAP CAP_SLICE_USED_MBS (d.g pCAP CAP_SLICE_USED_MBS + sum))
      let d := ((d.p pCAP (CAP_MISSED_POST i) 0).p pCAP (CAP_MISSED_REARM i) 0).p pCAP (CAP_CSTATUS_CAPTURES i) 0
      let d := { d with cap := { d.cap with capNo := SMap.set 0 d.cap.capNo i 0, charge := SMap.set 0 d.cap.charge i sum } }
      (d.each (d.capChans i) fun d ch => d.modChan ch fun x => { x with lost := 0 }).beginCapture i
/-- CaptureArm: the command over `doCaptureArm`. -/
def execCaptureArm (c : Fin 17) (s : State) : Host.Outcome State Fault Refusal := main s fun d => if d.full then d.doCaptureArm c.val else d

/-- ARMc DISARM (R329). -/
def Dev.doCaptureDisarm (d : Dev) (c : Nat) : Dev :=
  let i : Nat := c
  let st := d.g pCAP (CAP_CSTATUS_STATE i)
  if st == 0 then d
  else
    let d := if st == 3 then d else d.each (d.capChans i) fun d ch =>
      if (d.chanAt ch).phase == 3 then d else (d.cutBlock ch).writeEntry i ch (if st == 1 then 4 else 2)
    d.capIdle i
/-- CaptureDisarm: the command over `doCaptureDisarm`. -/
def execCaptureDisarm (c : Fin 17) (s : State) : Host.Outcome State Fault Refusal := main s fun d => if d.full then d.doCaptureDisarm c.val else d

/-- The oldest filled block leaves as a CAP_WR packet to its HBM address (R327); the last of the POST blocks completes its channel (R328).
No other block is there to leave. -/
def Dev.doCaptureBlockWrite (d : Dev) (ch addr : Nat) : Dev :=
  let x := d.chanAt ch
  match x.ready with
  | [] => d
  | blk :: rest =>
    if blk.addr ≠ addr then d
    else
    let d := d.setChan ch { x with ready := rest }
    let d := { d with cap := { d.cap with blocksOut := d.cap.blocksOut ++ [blk] } }
    if rest.isEmpty && x.phase == 2 && d.capPost (d.g pCAP (CAP_CH_CFG_OWNER ch)) ch ≤ x.post then d.chanComplete ch else d
/-- CaptureBlockWrite: the command over `doCaptureBlockWrite`. -/
def execCaptureBlockWrite (ch : Fin 64) (addr : Nat) (s : State) : Host.Outcome State Fault Refusal := main s fun d => d.doCaptureBlockWrite ch.val addr

/-- POST_LIMIT µs after the trigger (R328). -/
def Dev.doPostLimitExpire (d : Dev) (ch : Nat) : Dev :=
  if (d.chanAt ch).phase == 2 && d.g pCAP (CAP_ARM_POST_LIMIT (d.g pCAP (CAP_CH_CFG_OWNER ch))) ≠ 0 then d.chanComplete ch else d
/-- PostLimitExpire: the command over `doPostLimitExpire`. -/
def execPostLimitExpire (ch : Fin 64) (s : State) : Host.Outcome State Fault Refusal := main s fun d => d.doPostLimitExpire ch.val

/-- 2 µs in REARMING (R329). -/
def Dev.doRearmExpire (d : Dev) (c : Nat) : Dev :=
  if d.g pCAP (CAP_CSTATUS_STATE c) == 3 then d.beginCapture c else d
/-- RearmExpire: the command over `doRearmExpire`. -/
def execRearmExpire (c : Fin 17) (s : State) : Host.Outcome State Fault Refusal := main s fun d => d.doRearmExpire c.val

/-- CH_CFG.OWNER (R336). -/
def Dev.doChannelOwnerWrite (d : Dev) (ch : Nat) (owner : Nat) : Dev :=
  d.setChanOwner ch owner
/-- ChannelOwnerWrite: the command over `doChannelOwnerWrite`. -/
def execChannelOwnerWrite (ch : Fin 64) (owner : Fin 32) (s : State) : Host.Outcome State Fault Refusal := main s fun d => if d.full then d.doChannelOwnerWrite ch.val owner.val else d

/-- The zeroing ends (R336): of the region the channel had, what lies in the Pinwheel is zero, and so are its directory entries. -/
def Dev.doZeroingComplete (d : Dev) (ch : Nat) : Dev :=
  let x := d.chanAt ch
  if x.zeroing then
    let size := d.g pCAP CAP_PW_SIZE_PAGES
    let d := d.zeroRange (hubReq 0x9A) (d.g pCAP CAP_PW_BASE_ADDR + x.zeroOff * 4096) (Nat.min x.zeroPages (size - x.zeroOff) * 4096)
    (d.zeroRange (hubReq 0x9A) (d.dirAddr ch 0) (if size < 8 then 0 else 512)).modChan ch fun x => { x with zeroing := false }
  else d
/-- ZeroingComplete: the command over `doZeroingComplete`. -/
def execZeroingComplete (ch : Fin 64) (s : State) : Host.Outcome State Fault Refusal := main s fun d => d.doZeroingComplete ch.val

/-- PW_BASE or PW_SIZE is written (R320). -/
def Dev.doPinwheelConfigWrite (d : Dev) (size : Bool) (v : W64) : Dev :=
  if (List.range 17).any (fun c => d.g pCAP (CAP_CSTATUS_STATE c) ≠ 0) then d
  else
    let base := if size then d.g pCAP CAP_PW_BASE_ADDR else v.toNat / 4096 * 4096
    let pages := if size then v.toNat % 2 ^ 25 else d.g pCAP CAP_PW_SIZE_PAGES
    if d.pinwheelOk base (pages * 4096) then (d.p pCAP CAP_PW_BASE_ADDR base).p pCAP CAP_PW_SIZE_PAGES pages
    else d.on pCAP CAP_STATUS_PW_REFUSED
/-- PinwheelConfigWrite: the command over `doPinwheelConfigWrite`. -/
def execPinwheelConfigWrite (size : Bool) (v : W64) (s : State) : Host.Outcome State Fault Refusal := main s fun d => if d.full then d.doPinwheelConfigWrite size v else d

end Sys2Proof.Machine
end

