-- ==== Sys2Proof/Machine/Operands.lean ====
section
/-! DEFINITION. The operand forms of a step: reads of the tile signal store and the word store (R24, R27, R32, R56, R61, R66, R75, R447), and
the writes that a step collects and applies in the order of R39, R65 and R446. -/

namespace Sys2Proof.Machine

/-- Index of tile `t` of cluster `n`. -/
def tileIx (n t : Nat) : Nat := n * 32 + t

namespace Dev

/-- A TSS entry as read at the start of a step (R24, R27): the result window, a fabric input entry, or a state entry's current copy. -/
def tss (d : Dev) (n t a : Nat) : Bool :=
  if a < 0x800 then
    let k := tileIx n t * 2048 + a
    let gen := SMap.get 0 d.st.winGen n
    match SMap.get? d.st.win k with
    | some v => v
    | none => gen ≠ 0 && Config.freeBit gen k
  else if a < 0xC00 then
    let k := tileIx n t * 1024 + (a - 0x800)
    let gen := SMap.get 0 d.st.finGen n
    match SMap.get? d.st.fin k with
    | some v => v
    | none => gen ≠ 0 && Config.freeBit gen k
  else SMap.get false d.st.cur (tileIx n t * 1024 + (a - 0xC00))

/-- A WSS word as read at the start of a step (R61, R62): scratch, fabric word input, or a state word's current copy. Addresses wrap
modulo 256 (R447). -/
def wss (d : Dev) (n t a : Nat) : Nat :=
  let a := a % 256
  if a < 0x80 then
    let k := tileIx n t * 128 + a
    let gen := SMap.get 0 d.st.winGen n
    match SMap.get? d.st.scr k with
    | some v => v.toNat
    | none => if gen = 0 then 0 else (Config.freeWord gen k).toNat
  else if a < 0xC0 then
    let k := tileIx n t * 64 + (a - 0x80)
    let gen := SMap.get 0 d.st.finGen n
    match SMap.get? d.st.fwi k with
    | some v => v.toNat
    | none => if gen = 0 then 0 else (Config.freeWord gen k).toNat
  else (SMap.get 0 d.st.curW (tileIx n t * 64 + (a - 0xC0))).toNat

/-- `k` consecutive words from `a`, lowest first (R447). -/
def wssRun (d : Dev) (n t a k : Nat) : Nat := (List.range k).foldl (fun v i => v ||| d.wss n t (a + i) <<< (32 * i)) 0

/-- A source of a paired operation (R75): the even word below, the odd word above. -/
def wssPair (d : Dev) (n t a : Nat) : Nat := d.wss n t (a / 2 * 2) ||| d.wss n t (a / 2 * 2 + 1) <<< 32

/-- `k` TSS entries from `a` as a number, entry `a` in bit 0. -/
def tssRun (d : Dev) (n t a k : Nat) : Nat := (List.range k).foldl (fun v i => if d.tss n t (a + i) then v ||| 1 <<< i else v) 0

/-- The next copy of a state entry. -/
def tssNext (d : Dev) (k : Nat) : Bool := (SMap.get? d.st.nxt k).getD (SMap.get false d.st.cur k)
/-- The next copy of a state word. -/
def wssNext (d : Dev) (k : Nat) : W32 := (SMap.get? d.st.nxtW k).getD (SMap.get 0 d.st.curW k)

end Dev

/-- A write of one step, to one entry or word of a tile. -/
inductive Wr
  | res (n t a : Nat) (v : Bool)
  | bit (n t a : Nat) (v : Bool)
  | imm (n t a : Nat) (v : Bool)
  | word (n t a : Nat) (v : Nat)
deriving DecidableEq, Repr

namespace Stores

/-- A listed bit whose unlisted value is 0 in generation 0 and free in every other. -/
def putGen (m : SMap Bool) (gen k : Nat) (v : Bool) : SMap Bool := if gen = 0 then SMap.set false m k v else SMap.put m k v
/-- The same for words. -/
def putGenW (m : SMap W32) (gen k : Nat) (v : W32) : SMap W32 := if gen = 0 then SMap.set 0 m k v else SMap.put m k v

/-- A next copy is written (R38). -/
def setNext (s : Stores) (k : Nat) (v : Bool) : Stores :=
  { s with nxt := if v = SMap.get false s.cur k then SMap.del s.nxt k else SMap.put s.nxt k v }
/-- A state word's next copy is written (R63). -/
def setNextW (s : Stores) (k : Nat) (v : W32) : Stores :=
  { s with nxtW := if v = SMap.get 0 s.curW k then SMap.del s.nxtW k else SMap.put s.nxtW k v }
/-- The current copy alone of a state entry (R145). -/
def setCur (s : Stores) (k : Nat) (v : Bool) : Stores :=
  let nx := (SMap.get? s.nxt k).getD (SMap.get false s.cur k)
  { s with cur := SMap.set false s.cur k v, nxt := if nx = v then SMap.del s.nxt k else SMap.put s.nxt k nx }
/-- The current copy alone of a state word (R145). -/
def setCurW (s : Stores) (k : Nat) (v : W32) : Stores :=
  let nx := (SMap.get? s.nxtW k).getD (SMap.get 0 s.curW k)
  { s with curW := SMap.set 0 s.curW k v, nxtW := if nx = v then SMap.del s.nxtW k else SMap.put s.nxtW k nx }
/-- Both copies of a state entry (R40, R41, R43). -/
def setBoth (s : Stores) (k : Nat) (v : Bool) : Stores := { s with cur := SMap.set false s.cur k v, nxt := SMap.del s.nxt k }
/-- Both copies of a state word (R84). -/
def setBothW (s : Stores) (k : Nat) (v : W32) : Stores := { s with curW := SMap.set 0 s.curW k v, nxtW := SMap.del s.nxtW k }

/-- One write takes effect: a BP result (R34), a bit under R66, an immediate write (R40), a word under R61 and R63. -/
def apply (s : Stores) : Wr → Stores
  | .res n t a v => { s with win := putGen s.win (SMap.get 0 s.winGen n) (tileIx n t * 2048 + a % 2048) v }
  | .bit n t a v =>
    if a < 0x800 || 0x1000 ≤ a then s
    else if a < 0xC00 then { s with fin := putGen s.fin (SMap.get 0 s.finGen n) (tileIx n t * 1024 + (a - 0x800)) v }
    else s.setNext (tileIx n t * 1024 + (a - 0xC00)) v
  | .imm n t a v => s.setBoth (tileIx n t * 1024 + a % 1024) v
  | .word n t a v =>
    let a := a % 256
    let v := BitVec.ofNat 32 v
    if a < 0x80 then { s with scr := putGenW s.scr (SMap.get 0 s.winGen n) (tileIx n t * 128 + a) v }
    else if a < 0xC0 then { s with fwi := putGenW s.fwi (SMap.get 0 s.finGen n) (tileIx n t * 64 + (a - 0x80)) v }
    else s.setNextW (tileIx n t * 64 + (a - 0xC0)) v

/-- The writes of a step in ascending rank, so that the highest-ranked writer's value is kept (R39, R65, R446). -/
def applyAll (s : Stores) (ws : List Wr) : Stores := ws.foldl apply s

/-- Commit in cluster `n`: current := next for every state entry and state word (R37, R63). -/
def commit (s : Stores) (n : Nat) : Stores :=
  let s := (SMap.range s.nxt (n * 32768) (n * 32768 + 32768)).foldr (fun e s => s.setBoth e.1 e.2) s
  (SMap.range s.nxtW (n * 2048) (n * 2048 + 2048)).foldr (fun e s => s.setBothW e.1 e.2) s

/-- The result windows and scratch words of cluster `n` become undefined as generation `gen` (R35, R64). -/
def forgetWin (s : Stores) (n gen : Nat) : Stores :=
  { s with win := SMap.delRange s.win (n * 65536) (n * 65536 + 65536), scr := SMap.delRange s.scr (n * 4096) (n * 4096 + 4096),
           winGen := SMap.set 0 s.winGen n gen }

/-- The fabric inputs of cluster `n` become undefined as generation `gen` (R36, R64). -/
def forgetFab (s : Stores) (n gen : Nat) : Stores :=
  { s with fin := SMap.delRange s.fin (n * 32768) (n * 32768 + 32768), fwi := SMap.delRange s.fwi (n * 2048) (n * 2048 + 2048),
           finGen := SMap.set 0 s.finGen n gen }

/-- Everything in the tiles of cluster `n` is 0 (R44, R85). -/
def zero (s : Stores) (n : Nat) : Stores :=
  let s := (s.forgetWin n 0).forgetFab n 0
  { s with cur := SMap.delRange s.cur (n * 32768) (n * 32768 + 32768), nxt := SMap.delRange s.nxt (n * 32768) (n * 32768 + 32768),
           curW := SMap.delRange s.curW (n * 2048) (n * 2048 + 2048), nxtW := SMap.delRange s.nxtW (n * 2048) (n * 2048 + 2048) }

end Stores

/-- Writes of a run of words from `a`, lowest first (R447). -/
def wordWrites (n t a k v : Nat) : List Wr := (List.range k).map fun i => .word n t (a + i) (bitsAt v (32 * i) 32)
/-- Writes of a run of bits from `a`. -/
def bitWrites (n t a k v : Nat) : List Wr := (List.range k).map fun i => .bit n t (a + i) (v.testBit i)

end Sys2Proof.Machine
end

