-- ==== Sys2Proof/Machine/Flags.lean ====
section
/-! DEFINITION. Flag computations of the WALU (R68, R70, R75): carry out, signed overflow, comparison results, at a width of 32 or 64 bits. -/

namespace Sys2Proof.Machine

/-- `x + y + ci` at width `w`: the wrapped sum and the carry out of its top bit. -/
def addCarry (w x y : Nat) (ci : Bool) : Nat × Bool :=
  let s := x + y + ci.toNat
  (s % 2 ^ w, decide (2 ^ w ≤ s))

/-- NOT y at width `w`. -/
def notAt (w y : Nat) : Nat := 2 ^ w - 1 - y % 2 ^ w

/-- Signed overflow of ADDV (R70). -/
def overflowAdd (w x y r : Nat) : Bool := x.testBit (w - 1) == y.testBit (w - 1) && r.testBit (w - 1) != x.testBit (w - 1)
/-- Signed overflow of SUBV (R70). -/
def overflowSub (w x y r : Nat) : Bool := x.testBit (w - 1) != y.testBit (w - 1) && r.testBit (w - 1) != x.testBit (w - 1)

/-- A comparison as a word and a flag (R68). -/
def cmp (b : Bool) : Nat × Bool := (b.toNat, b)
/-- A logic result with its flag: 1 if it is not 0 (R68). -/
def logic (v : Nat) : Nat × Bool := (v, v != 0)

end Sys2Proof.Machine
end

