-- ==== Sys2Proof/Machine/Walu.lean ====
section
/-! DEFINITION. What one BP word and one WALU word compute in a step (R26 to R41, R57 to R76). -/

namespace Sys2Proof.Machine

/-- Fields of a BP word (R26). -/
def bpTT (w : Nat) : Nat := bitsAt w 0 16
def bpSrc (w k : Nat) : Nat := bitsAt w (16 + 12 * k) 12
def bpState (w : Nat) : Nat := bitsAt w 64 10
def bpOp (w : Nat) : Nat := bitsAt w 74 2
def bpTap (w : Nat) : Bool := w.testBit 76
def bpHold (w : Nat) : Bool := w.testBit 77

/-- The result of a BP word in tile `t` of cluster `n` (R31). -/
def Dev.bpResult (d : Dev) (n t w : Nat) : Bool :=
  let bit (k : Nat) : Nat := (d.tss n t (bpSrc w k)).toNat
  (bpTT w).testBit (bit 3 * 8 + bit 2 * 4 + bit 1 * 2 + bit 0)

/-- The writes of BP `b` at step `u` (R34, R40). -/
def Dev.bpWrites (d : Dev) (n t b u w : Nat) : List Wr :=
  if bpHold w then []
  else
    let r := d.bpResult n t w
    .res n t ((u % 32) * 64 + b) r ::
      match bpOp w with
      | 1 => [.bit n t (0xC00 + bpState w) r]
      | 2 => if d.tss n t (bpSrc w 3) then [.bit n t (0xC00 + bpState w) r] else []
      | 3 => [.imm n t (bpState w) r]
      | _ => []

/-- Fields of a WALU word (R57). -/
def waOp (w : Nat) : Nat := bitsAt w 0 6
def waX (w : Nat) : Nat := bitsAt w 6 8
def waY (w : Nat) : Nat := bitsAt w 14 8
def waZ (w : Nat) : Nat := bitsAt w 22 8
def waDst (w : Nat) : Nat := bitsAt w 30 8
def waSh (w : Nat) : Nat := bitsAt w 38 5
def waTbit (w : Nat) : Nat := bitsAt w 43 12
def waCi (w : Nat) : Bool := w.testBit 55
def waPair (w : Nat) : Bool := w.testBit 56
def waTap (w : Nat) : Bool := w.testBit 57
def waImm (w : Nat) : Nat := bitsAt w 64 32

/-- What an operation gives: the value for DST, the bit for TBIT, the value UNPACK writes. -/
structure WaOut where
  d   : Option Nat
  f   : Option Bool
  unp : Option Nat
deriving DecidableEq, Repr

/-- The operands of one operation at a width of 32 or 64 bits (R67, R75). `tb` is TSS[TBIT], `pk` the packed group. -/
structure WaIn where
  width : Nat
  x   : Nat
  y   : Nat
  z   : Nat
  imm : Nat
  sh  : Nat
  ci  : Bool
  tb  : Bool
  pk  : Nat
deriving DecidableEq, Repr

/-- A value alone. -/
def onlyD (v : Nat) : WaOut := ⟨some v, none, none⟩
/-- A value and a flag. -/
def bothDF (r : Nat × Bool) : WaOut := ⟨some r.1, some r.2, none⟩

/-- Arithmetic right shift at width `w`. -/
def sraAt (w x n : Nat) : Nat := (x >>> n) ||| (if x.testBit (w - 1) then (2 ^ w - 1) - (2 ^ (w - n) - 1) else 0)
/-- Rotate right at width `w`. -/
def rorAt (w x n : Nat) : Nat := ((x >>> n) ||| (x <<< (w - n))) % 2 ^ w
/-- The high half of the two's-complement product. -/
def mulhs (w x y : Nat) : Nat := ((toSigned w x * toSigned w y / (2 ^ w : Nat)) % (2 ^ w : Nat)).toNat

/-- The operation table (R68 to R73). An OP it does not list acts as NOP (R69). -/
def waEval (op : Nat) (a : WaIn) : WaOut :=
  let w := a.width
  let m := 2 ^ w
  let vy := a.y % w
  match op with
  | 0x01 => bothDF (addCarry w a.x a.y a.ci)
  | 0x02 => let r := (addCarry w a.x a.y a.ci).1; bothDF (r, overflowAdd w a.x a.y r)
  | 0x03 => bothDF (addCarry w a.x (notAt w a.y) a.ci)
  | 0x04 => let r := (addCarry w a.x (notAt w a.y) a.ci).1; bothDF (r, overflowSub w a.x a.y r)
  | 0x05 => bothDF (addCarry w a.x a.imm a.ci)
  | 0x06 => bothDF (addCarry w a.x (notAt w a.imm) a.ci)
  | 0x08 => onlyD (a.x * a.y % m)
  | 0x09 => onlyD (a.x * a.y / m)
  | 0x0A => onlyD (mulhs w a.x a.y)
  | 0x10 => bothDF (cmp (a.x == a.y))
  | 0x11 => bothDF (cmp (a.x < a.y))
  | 0x12 => bothDF (cmp (toSigned w a.x < toSigned w a.y))
  | 0x13 => bothDF (cmp (a.x == a.imm))
  | 0x14 => bothDF (cmp (a.x < a.imm))
  | 0x15 => bothDF (cmp (toSigned w a.x < toSigned w a.imm))
  | 0x18 => bothDF (logic (a.x &&& a.y))
  | 0x19 => bothDF (logic (a.x ||| a.y))
  | 0x1A => bothDF (logic (a.x ^^^ a.y))
  | 0x1B => bothDF (logic (a.x &&& notAt w a.y))
  | 0x1D => bothDF (logic (a.x &&& a.imm))
  | 0x1E => bothDF (logic (a.x ||| a.imm))
  | 0x1F => bothDF (logic (a.x ^^^ a.imm))
  | 0x20 => onlyD (a.x <<< a.sh % m)
  | 0x21 => onlyD (a.x >>> a.sh)
  | 0x22 => onlyD (sraAt w a.x a.sh)
  | 0x23 => onlyD (rorAt w a.x a.sh)
  | 0x24 => onlyD (a.x <<< vy % m)
  | 0x25 => onlyD (a.x >>> vy)
  | 0x26 => onlyD (sraAt w a.x vy)
  | 0x28 => onlyD (if a.tb then a.x else a.y)
  | 0x29 => onlyD ((a.x &&& a.z) ||| (a.y &&& notAt w a.z))
  | 0x30 => onlyD a.pk
  | 0x31 => ⟨none, none, some a.x⟩
  | 0x32 => bothDF (cmp (a.x.testBit a.sh))
  | 0x33 => bothDF (cmp (a.x.testBit vy))
  | 0x34 => onlyD a.x
  | 0x35 => onlyD a.imm
  | _ => ⟨none, none, none⟩

/-- Carry-in of an operation (R67): for the subtractions CI = 0 means 1. -/
def Dev.waCarry (d : Dev) (n t w : Nat) : Bool :=
  if waCi w then d.tss n t (waTbit w) else waOp w == 3 || waOp w == 4 || waOp w == 6

/-- The operands of a WALU word (R57, R67, R73, R75). -/
def Dev.waIn (d : Dev) (n t w : Nat) (pair : Bool) : WaIn :=
  if pair then
    { width := 64, x := d.wssPair n t (waX w), y := d.wssPair n t (waY w), z := d.wssPair n t (waZ w),
      imm := (toSigned 32 (waImm w) % (2 ^ 64 : Nat)).toNat, sh := waImm w % 64, ci := d.waCarry n t w, tb := d.tss n t (waTbit w),
      pk := d.tssRun n t (waTbit w / 64 * 64) 64 }
  else
    { width := 32, x := d.wss n t (waX w), y := d.wss n t (waY w), z := d.wss n t (waZ w), imm := waImm w, sh := waSh w,
      ci := d.waCarry n t w, tb := d.tss n t (waTbit w), pk := d.tssRun n t (waTbit w / 32 * 32) 32 }

/-- The writes of what an operation gave (R66, R68, R73, R75). -/
def waWrites (n t w : Nat) (pair : Bool) (o : WaOut) : List Wr :=
  let group := if pair then 64 else 32
  (match o.d with
   | some v => if pair then [.word n t (waDst w / 2 * 2) (v % 2 ^ 32), .word n t (waDst w / 2 * 2 + 1) (v >>> 32)] else [.word n t (waDst w) v]
   | none => []) ++
  (match o.f with
   | some f => [.bit n t (waTbit w) f]
   | none => []) ++
  (match o.unp with
   | some v => bitWrites n t (waTbit w / group * group) group v
   | none => [])

/-- The value a WALU word offers to the tap network (R76). -/
def waTapValue (w : Nat) (o : WaOut) : Option Nat := if waTap w then (match o.unp with | some v => some v | none => o.d) else none

end Sys2Proof.Machine
end

