-- ==== Sys2Proof/Machine/Fetch.lean ====
section
/-! DEFINITION. Fetching the words of a step with their checks: instruction words (R46 to R54, R77 to R83), schedule words (R122 to R124). -/

namespace Sys2Proof.Machine

/-- Places in the instruction memories and schedules. -/
def ixBp (n t b s : Nat) : Nat := (tileIx n t * 64 + b) * 256 + s
def ixWa (n t w s : Nat) : Nat := (tileIx n t * 2 + w) * 256 + s
def ixPort (n t j s : Nat) : Nat := (tileIx n t * 16 + j) * 256 + s
def ixMesh (n j s : Nat) : Nat := (n * 8 + j) * 256 + s
def ixRow (n m r : Nat) : Nat := (n * 8 + m) * 8192 + r

/-- The parity bit a schedule word should carry (R122). -/
def parOf (w v : Nat) : Bool := xorBits v w
/-- A schedule word with valid parity and no mark. -/
def freshPar (w v : Nat) : ParW w := ⟨BitVec.ofNat w v, parOf w v, false⟩
/-- A stored word with valid check bits (R46, R77). -/
def freshEcc (w v : Nat) : Ecc w := ⟨BitVec.ofNat w v, BitVec.ofNat 8 (secdedByte w v)⟩

namespace Dev

def bpWord (d : Dev) (k : Nat) : Ecc 80 := SMap.get holdEcc d.code.bpi k
def waWord (d : Dev) (k : Nat) : Ecc 96 := SMap.get (zeroEcc 96) d.code.wli k
def portPar (d : Dev) (k : Nat) : ParW 16 := SMap.get (zeroPar 16) d.code.port k
def meshPar (d : Dev) (k : Nat) : ParW 32 := SMap.get (zeroPar 32) d.code.mesh k
def rowEcc (d : Dev) (k : Nat) : Ecc 96 := SMap.get (zeroEcc 96) d.code.dmem k
def setBp (d : Dev) (k : Nat) (v : Ecc 80) : Dev := { d with code := { d.code with bpi := SMap.set holdEcc d.code.bpi k v } }
def setWa (d : Dev) (k : Nat) (v : Ecc 96) : Dev := { d with code := { d.code with wli := SMap.set (zeroEcc 96) d.code.wli k v } }
def setPort (d : Dev) (k : Nat) (v : ParW 16) : Dev := { d with code := { d.code with port := SMap.set (zeroPar 16) d.code.port k v } }
def setMesh (d : Dev) (k : Nat) (v : ParW 32) : Dev := { d with code := { d.code with mesh := SMap.set (zeroPar 32) d.code.mesh k v } }
def setRow (d : Dev) (k : Nat) (v : Ecc 96) : Dev := { d with code := { d.code with dmem := SMap.set (zeroEcc 96) d.code.dmem k v } }

/-- A cluster page raises IRQ_RAW bit `i` with event 0x000 + n (R54, R402, R449); `last` is the last-error register. -/
def cluIrq (d : Dev) (n i last : Nat) : Dev :=
  (d.irq (pCLU n) i).raise n (if i == 0 || i == 2 || i == 5 then 0 else 1) (d.ownerOrDev n) (last ||| i <<< 32) 0

/-- CLUn.BPI_ERR_LAST as read. -/
def bpiLast (d : Dev) (n : Nat) : Nat := d.word (pCLU n) 0x208 fldsCLU
def wliLast (d : Dev) (n : Nat) : Nat := d.word (pCLU n) 0x218 fldsCLU
def fabLast (d : Dev) (n : Nat) : Nat := d.word (pCLU n) 0x224 fldsCLU
def dmemLast (d : Dev) (n : Nat) : Nat := d.word (pCLU n) 0x328 fldsCLU

/-- A BP detection is recorded (R52). -/
def recordBp (d : Dev) (n k syn : Nat) (ue : Bool) : Dev :=
  let b := pCLU n
  let d := ((d.p b CLU_BPI_ERR_LAST_ADDR (k % 256)).p b CLU_BPI_ERR_LAST_BP (k / 256 % 64)).p b CLU_BPI_ERR_LAST_TILE (k / 16384 % 32)
  ((d.p b CLU_BPI_ERR_LAST_UE ue.toNat).p b CLU_BPI_ERR_LAST_SYNDROME syn).on b CLU_BPI_ERR_LAST_VALID
/-- A WALU detection is recorded (R81). -/
def recordWa (d : Dev) (n k syn : Nat) (ue : Bool) : Dev :=
  let b := pCLU n
  let d := ((d.p b CLU_WLI_ERR_LAST_ADDR (k % 256)).p b CLU_WLI_ERR_LAST_WALU (k / 256 % 2)).p b CLU_WLI_ERR_LAST_TILE (k / 512 % 32)
  ((d.p b CLU_WLI_ERR_LAST_UE ue.toNat).p b CLU_WLI_ERR_LAST_SYNDROME syn).on b CLU_WLI_ERR_LAST_VALID

/-- An uncorrectable word is raised to the scrubber (R217, R220): where it is, and whether it was met at fetch. -/
def raiseUpset (d : Dev) (n : Nat) (w : WordLoc) (fetch : Bool) : Dev := { d with raised := d.raised ++ [(n, w, fetch)] }
/-- A held word met at fetch before its rewrite (R217): one the scrubber found and has not classified yet counts as met at fetch, and one
classified non-essential is classified again. -/
def metAgain (d : Dev) (n : Nat) (w : WordLoc) (fetch : Bool) : Dev :=
  if !fetch || d.raised.contains (n, w, true) then d
  else if d.raised.contains (n, w, false) then { d with raised := d.raised.map fun e => if e == (n, w, false) then (n, w, true) else e }
  else if d.rewrites.contains (n, w, false) then d.raiseUpset n w true else d
/-- Places of the words of one cluster. -/
def locBp (k : Nat) : WordLoc := .bp (Fin.ofNat 32 (k / 16384)) (Fin.ofNat 64 (k / 256)) (Fin.ofNat 256 k)
def locWa (k : Nat) : WordLoc := .walu (Fin.ofNat 32 (k / 512)) (Fin.ofNat 2 (k / 256)) (Fin.ofNat 256 k)
def locPort (k : Nat) : WordLoc := .port (Fin.ofNat 32 (k / 4096)) (Fin.ofNat 16 (k / 256)) (Fin.ofNat 256 k)
def locMesh (k : Nat) : WordLoc := .mesh (Fin.ofNat 8 (k / 256)) (Fin.ofNat 256 k)
def locRow (k : Nat) : WordLoc := .dmem (Fin.ofNat 8 (k / 8192)) (Fin.ofNat 8192 k)

/-- The partition of cluster `n` is asked to freeze (R49, R220). -/
def freezeOwner (d : Dev) (n cause : Nat) : Dev := match d.ownerOf n with | some i => d.freezeReq i cause | none => d

/-- A BP instruction word is read and checked; the answer is the word that issues (R47 to R49). -/
def fetchBp (d : Dev) (n k : Nat) (fetch : Bool) : Dev × Nat :=
  let w := d.bpWord k
  let c := d.cluAt n
  if c.bpHeld.contains k then (d.metAgain n (locBp k) fetch, holdWord.toNat)
  else match secdedCheck 80 87 w.data.toNat w.chk.toNat with
    | .ok => (d, w.data.toNat)
    | .ce v syn =>
      let d := d.recordBp n k syn false
      (if c.bpBack.contains k then d else d.modClu n fun c => { c with bpBack := c.bpBack ++ [k] }, v)
    | .ue syn =>
      let d := d.recordBp n k syn true
      if c.bpHeld.length < 8 then
        let d := (d.modClu n fun c => { c with bpHeld := c.bpHeld ++ [k] }).add (pCLU n) CLU_BPI_UE_COUNT_COUNT 1
        ((d.cluIrq n 1 (d.bpiLast n)).raiseUpset n (locBp k) fetch, holdWord.toNat)
      else ((d.on (pCLU n) CLU_BPI_ERR_LAST_OVERFLOW).freezeOwner n 3, holdWord.toNat)

/-- A WALU instruction word is read and checked (R78). -/
def fetchWa (d : Dev) (n k : Nat) (fetch : Bool) : Dev × Nat :=
  let w := d.waWord k
  let c := d.cluAt n
  if c.wlHeld.contains k then (d.metAgain n (locWa k) fetch, 0)
  else match secdedCheck 96 103 w.data.toNat w.chk.toNat with
    | .ok => (d, w.data.toNat)
    | .ce v syn =>
      let d := d.recordWa n k syn false
      (if c.wlBack.contains k then d else d.modClu n fun c => { c with wlBack := c.wlBack ++ [k] }, v)
    | .ue syn =>
      let d := d.recordWa n k syn true
      if c.wlHeld.length < 8 then
        let d := (d.modClu n fun c => { c with wlHeld := c.wlHeld ++ [k] }).add (pCLU n) CLU_WLI_UE_COUNT_COUNT 1
        ((d.cluIrq n 3 (d.wliLast n)).raiseUpset n (locWa k) fetch, 0)
      else ((d.on (pCLU n) CLU_WLI_ERR_LAST_OVERFLOW).freezeOwner n 3, 0)

/-- A parity error of a word not yet marked is counted, recorded and raised (R122 to R124). -/
def parityError (d : Dev) (n addr tile port : Nat) (mesh : Bool) : Dev :=
  let b := pCLU n
  let d := ((d.add b CLU_FAB_PAR_COUNT_COUNT 1).p b CLU_FAB_ERR_LAST_ADDR addr).p b CLU_FAB_ERR_LAST_TILE tile
  let d := ((d.p b CLU_FAB_ERR_LAST_PORT port).p b CLU_FAB_ERR_LAST_MESH mesh.toNat).on b CLU_FAB_ERR_LAST_VALID
  d.cluIrq n 4 (d.fabLast n)

/-- Whether a schedule word fails its parity. -/
def parBad {w : Nat} (x : ParW w) : Bool := x.par != parOf w x.data.toNat

/-- A port control word is checked (R122): a first failure marks it. -/
def checkPort (d : Dev) (n k : Nat) (fetch : Bool) : Dev :=
  let w := d.portPar k
  if w.failed || !parBad w then d
  else ((d.setPort k { w with failed := true }).parityError n (k % 256) (k / 4096 % 32) (k / 256 % 16) false).raiseUpset n (locPort k) fetch

/-- A mesh switch word is checked (R122). -/
def checkMesh (d : Dev) (n k : Nat) (fetch : Bool) : Dev :=
  let w := d.meshPar k
  if w.failed || !parBad w then d
  else ((d.setMesh k { w with failed := true }).parityError n (k % 256) 0 (k / 256 % 8) true).raiseUpset n (locMesh k) fetch

/-- A port control word as a step uses it: none where it acts as idle (R122). -/
def portWord (d : Dev) (k : Nat) : Option Nat := let w := d.portPar k; if w.failed || parBad w then none else some w.data.toNat
/-- A mesh switch word as a step uses it. -/
def meshWord (d : Dev) (k : Nat) : Option Nat := let w := d.meshPar k; if w.failed || parBad w then none else some w.data.toNat

/-- Keys listed in a store for one cluster and one schedule address. -/
def keysAt {α : Type} (m : SMap α) (lo n s : Nat) : List Nat := ((SMap.range m lo (lo + n)).filter (fun e => e.1 % 256 == s)).map (·.1)

/-- Every listed schedule word of cluster `n` at address `s` is fetched and checked. -/
def checkFabric (d : Dev) (n s : Nat) : Dev :=
  let d := d.each (keysAt d.code.port (n * 131072) 131072 s) fun d k => d.checkPort n k true
  d.each (keysAt d.code.mesh (n * 2048) 2048 s) fun d k => d.checkMesh n k true

/-- The cluster and address whose memory serves step index `u` of cluster `n` (R86, R125); none where the cluster idles. -/
def srcOf (d : Dev) (i n u : Nat) : Option (Nat × Nat) :=
  if u < 256 then some (n, u) else if (d.ptnAt i).fusedMask.testBit (n / 2) then some (n + 1, u - 256) else none

/-- The clusters of a partition whose datapaths execute: all but the odd members of fused pairs (R125). -/
def execClusters (d : Dev) (i : Nat) : List Nat :=
  (d.clustersOf i).filter fun n => !(n % 2 == 1 && (d.ptnAt i).fusedMask.testBit (n / 2))

end Dev
end Sys2Proof.Machine
end

