-- ==== Sys2Proof/Machine/Fabric.lean ====
section
/-! DEFINITION. The signal fabric in one step (R112 to R120, R173, R174): crossbars, routers, static transit, link gateways. -/

namespace Sys2Proof.Machine

/-- The neighbour in a direction: 1 N, 2 E, 3 S, 4 W. -/
def neighbour (n dir : Nat) : Option Nat :=
  let x := meshX n
  let y := meshY n
  match dir with
  | 1 => if y < 7 then some (meshAt x (y + 1)) else none
  | 2 => if x < 7 then some (meshAt (x + 1) y) else none
  | 3 => if 0 < y then some (meshAt x (y - 1)) else none
  | 4 => if 0 < x then some (meshAt (x - 1) y) else none
  | _ => none
/-- The opposite direction. -/
def opposite (dir : Nat) : Nat := match dir with | 1 => 3 | 2 => 4 | 3 => 1 | _ => 2
/-- The directions of a transit route code: into the router from, out of it towards (R121). -/
def routeDirs (r : Nat) : Option (Nat × Nat) :=
  [none, some (1, 2), some (1, 3), some (1, 4), some (2, 1), some (2, 3), some (2, 4), some (3, 1), some (3, 2), some (3, 4), some (4, 1),
   some (4, 2), some (4, 3)].getD r none
/-- The lane group and the first slot bit of an outward router port (R118, R173): the higher-numbered port has bits 8 to 15. -/
def gateway (n dir : Nat) : Option (Nat × Nat) :=
  match dir with
  | 1 => if meshY n == 7 then some (8 + meshX n / 2, 8 * (meshX n % 2)) else none
  | 2 => if meshX n == 7 then some (4 + meshY n / 2, 8 * (meshY n % 2)) else none
  | 3 => if meshY n == 0 then some (meshX n / 2, 8 * (meshX n % 2)) else none
  | 4 => if meshX n == 0 then some (12 + meshY n / 2, 8 * (meshY n % 2)) else none
  | _ => none
/-- The outward router ports of a lane group: cluster, direction, first slot bit. -/
def gatewayPorts (gi : Nat) : List (Nat × Nat × Nat) :=
  let k := gi % 4 * 2
  match gi / 4 with
  | 0 => [(meshAt k 0, 3, 0), (meshAt (k + 1) 0, 3, 8)]
  | 1 => [(meshAt 7 k, 2, 0), (meshAt 7 (k + 1), 2, 8)]
  | 2 => [(meshAt k 7, 1, 0), (meshAt (k + 1) 7, 1, 8)]
  | _ => [(meshAt 0 k, 4, 0), (meshAt 0 (k + 1), 4, 8)]

/-- Places of registered values: tile to crossbar, crossbar to router, router output, router to crossbar, gateway. -/
def regTile (n t j : Nat) : Nat := (n * 32 + t) * 8 + j
def regLocal (n j : Nat) : Nat := 0x10000 + n * 8 + j
def regOut (n dir j : Nat) : Nat := 0x20000 + (n * 8 + dir) * 8 + j
def regXbar (n j : Nat) : Nat := 0x30000 + n * 8 + j
def regGate (gi b : Nat) : Nat := 0x40000 + gi * 16 + b

/-- Whether a registered segment belongs to cluster `n`. -/
def regIn (n k : Nat) : Bool :=
  if k < 0x10000 then k / 256 == n
  else if k < 0x20000 then (k - 0x10000) / 8 == n
  else if k < 0x30000 then (k - 0x20000) / 64 == n
  else k < 0x40000 && (k - 0x30000) / 8 == n

namespace Dev

/-- Slot entry of step index `u` of a link that carries slots of partition `i` (R173). -/
def slotEntry (d : Dev) (i gi u : Nat) : Option Nat :=
  if d.b pLNK (LNK_BUDGET_SLOTS gi) && d.g pLNK (LNK_BUDGET_OWNER gi) == i then
    match (d.ptnAt i).tables with
    | some t => (t.links.find? (·.group == gi)).bind fun l => (l.slots.find? (·.1 == u)).map (·.2.toNat)
    | none => none
  else none

/-- How many of the low `n` bits of `m` are set. -/
def onesBelow (m n : Nat) : Nat := ((List.range n).filter m.testBit).length

/-- What a gateway's receive plane carries at executed step `e`, step index `u` (R173, R174). The word-or-bit mark does not travel in the
field; it is free, but the same whenever this image executes this step, so that no stall changes it (R18). -/
def slotIn (d : Dev) (i u e n dir j : Nat) : Option Sig :=
  match gateway n dir with
  | none => none
  | some (gi, b) =>
    match d.slotEntry i gi u with
    | none => none
    | some s =>
      let m := s >>> 16
      if m.testBit (b + j) then
        ((SMap.get [] (d.linkAt gi).slots e)[onesBelow m (b + j)]?).map fun v => ⟨Config.slotIsWord (d.g (pPTN i) PTN_IMAGE_ID_ID) gi u (b + j), v, false⟩
      else none

/-- What a send port of tile `t` with word `w` drives: a word, or a TSS entry as a bit (R113). -/
def driven (d : Dev) (n t w : Nat) : Sig :=
  if w.testBit 1 then ⟨true, BitVec.ofNat 32 (d.wss n t (bitsAt w 2 8)), false⟩ else ⟨false, if d.tss n t (bitsAt w 2 12) then 1 else 0, false⟩

/-- The value at a point of plane `j` in cluster `n` in this step, with the unregistered segments it has crossed (R117, R120), where `far` says
the same of the points it may come from. Points: 0 to 31 the crossbar input of a tile's send port, 32 the router's local output, 41 to 44 the
router inputs N, E, S, W, 45 the LOCAL input. -/
def probeAt (d : Dev) (i u e : Nat) (far : Nat → Nat → Option (Sig × Nat)) (n pt j : Nat) : Option (Sig × Nat) :=
    let next (n pt : Nat) : Option (Sig × Nat) := (far n pt).map fun r => (r.1, r.2 + 1)
    let transit (n : Nat) : Nat := d.g (pCLU n) (CLU_MESH_TRANSIT_ROUTE j)
    let mesh (n : Nat) : Nat := match d.srcOf i n u with | some (m, s) => (d.meshWord (ixMesh m j s)).getD 0 | none => 0
    if pt < 32 then
      match SMap.get? d.fab (regTile n pt j) with
      | some v => some (v, 0)
      | none =>
        let w := match d.srcOf i n u with | some (m, s) => (d.portWord (ixPort m pt j s)).getD 0 | none => 0
        if w.testBit 0 && !w.testBit 14 then
          some (d.driven n pt w, 1)
        else none
    else if pt == 32 then
      match SMap.get? d.fab (regXbar n j) with
      | some v => some (v, 0)
      | none =>
        let o := bitsAt (mesh n) 22 4
        if transit n ≠ 0 || 8 ≤ o || o == 0 || 6 ≤ o then none else next n (40 + o)
    else if pt == 45 then
      match SMap.get? d.fab (regLocal n j) with
      | some v => some (v, 0)
      | none => if (mesh n).testBit 5 then none else next n (bitsAt (mesh n) 0 5)
    else
      let dir := pt - 40
      match neighbour n dir with
      | none => (d.slotIn i u e n dir j).map fun v => (v, 1)
      | some m =>
        let out := opposite dir
        let own := d.owns i m && !(m % 2 == 1 && (d.ptnAt i).fusedMask.testBit (m / 2))
        if transit m ≠ 0 then
          match routeDirs (transit m) with
          | some (din, dout) => if dout == out && d.g (pCLU m) (CLU_MESH_TRANSIT_OWNER j) == i then next m (40 + din) else none
          | none => none
        else if !own then none
        else match SMap.get? d.fab (regOut m out j) with
          | some v => some (v, 0)
          | none =>
            let o := bitsAt (mesh m) (6 + 4 * (out - 1)) 4
            if 8 ≤ o || o == 0 || 6 ≤ o then none else next m (40 + o)

/-- The value at a point, followed back through at most so many segments. -/
def probe (i u e : Nat) (d : Dev) : Nat → Nat → Nat → Nat → Option (Sig × Nat)
  | 0, _, _, _ => none
  | fuel + 1, n, pt, j => d.probeAt i u e (fun n pt => probe i u e d fuel n pt j) n pt j

/-- How deep a chain of segments is followed. -/
def chainFuel : Nat := 80

/-- A value at the end of its step: undefined where it crossed more than 3 unregistered segments (R117). -/
def settleSig (r : Sig × Nat) : Sig := if 3 < r.2 then { r.1 with undef := true } else r.1

/-- The registered segments' values for the next executed step, in cluster `n` (R117). -/
def registersOf (d : Dev) (i u e n : Nat) : List (Nat × Sig) :=
  match d.srcOf i n u with
  | none => []
  | some (m, s) =>
    let look (pt j : Nat) : Option Sig := (probe i u e d chainFuel n pt j).map settleSig
    let tiles := (keysAt d.code.port (m * 131072) 131072 s).filterMap fun k =>
      let j := k / 256 % 16
      let t := k / 4096 % 32
      match d.portWord k with
      | some w =>
        if j < 8 && w.testBit 0 && w.testBit 14 then
          some (regTile n t j, d.driven n t w)
        else none
      | none => none
    let mesh := (keysAt d.code.mesh (m * 2048) 2048 s).flatMap fun k =>
      let j := k / 256 % 8
      match d.meshWord k with
      | none => []
      | some w =>
        let put (key pt : Nat) : List (Nat × Sig) := match look pt j with | some v => [(key, v)] | none => []
        let sel (lo : Nat) : Nat := bitsAt w lo 3
        let reg (lo : Nat) : Bool := w.testBit (lo + 3) && 1 ≤ sel lo && sel lo ≤ 5
        (if w.testBit 5 then put (regLocal n j) (bitsAt w 0 5) else []) ++
        (if d.g (pCLU n) (CLU_MESH_TRANSIT_ROUTE j) ≠ 0 then []
         else ([1, 2, 3, 4].flatMap fun dir =>
            if reg (6 + 4 * (dir - 1)) && (neighbour n dir).isSome then put (regOut n dir j) (40 + sel (6 + 4 * (dir - 1))) else []) ++
          (if reg 22 then put (regXbar n j) (40 + sel 22) else []))
    tiles ++ mesh

/-- What an outward router port drives on plane `j`: its scheduled or transit input (R118, R120). -/
def outward (d : Dev) (i u e n dir j : Nat) : Option Sig :=
  let look (pt : Nat) : Option Sig := (probe i u e d chainFuel n pt j).map settleSig
  let tr := d.g (pCLU n) (CLU_MESH_TRANSIT_ROUTE j)
  if tr ≠ 0 then
    match routeDirs tr with
    | some (din, dout) => if dout == dir && d.g (pCLU n) (CLU_MESH_TRANSIT_OWNER j) == i then look (40 + din) else none
    | none => none
  else if !(d.execClusters i).contains n then none
  else
    let w := match d.srcOf i n u with | some (m, s) => (d.meshWord (ixMesh m j s)).getD 0 | none => 0
    let o := bitsAt w (6 + 4 * (dir - 1)) 3
    if o == 0 || 6 ≤ o then none else look (40 + o)

/-- The gateways' registers for the next executed step (R118). -/
def gatesOf (d : Dev) (i u e : Nat) : List (Nat × Sig) :=
  (d.slotLinks i).flatMap fun gi => (gatewayPorts gi).flatMap fun p => (List.range 8).filterMap fun j =>
    (d.outward i u e p.1 p.2.1 j).map fun v => (regGate gi (p.2.2 + j), v)

/-- The slot frame each AL2 link at 112.5 Gb/s sends at an executed step (R173, R229, R244): the transmit planes' gateway registers in
ascending bit order, packet traffic in the fields that slots leave free; an idle plane's field and an undefined value's data are free. -/
def sendSlots (d : Dev) (i u : Nat) : Dev :=
  d.each (d.slotLinks i) fun d gi =>
    match d.slotEntry i gi u with
    | none => d
    | some s =>
      if d.lgState gi ≠ 4 || d.g (pLGRP gi) LGRP_STATUS_VER ≠ 2 || d.lgRate gi ≠ 0 then d else
      let fill (b : Nat) : W32 := Config.slotFill (d.g (pPTN i) PTN_IMAGE_ID_ID) (d.ptnAt i).exec (regGate gi b)
      let fields := ((List.range 16).filter (s % 65536).testBit).map fun b =>
        match SMap.get? d.fab (regGate gi b) with
        | some v => if v.undef then fill b else v.data
        | none => fill b
      let h := (d.linkAt gi).nextFragment
      let f := h.2.nextFields (13 - fields.length)
      let frame := frameOf 2 h.1 (fields ++ f.1)
      (d.setLink gi { f.2 with txFrames := f.2.txFrames ++ [frame] }).emit (.frame gi frame)

/-- The writes of a cluster's receive ports in this step (R112, R114), in ascending plane order. -/
def arrivals (d : Dev) (i u e n : Nat) : List Wr :=
  match d.srcOf i n u with
  | none => []
  | some (m, s) =>
    if (SMap.range d.code.port (m * 131072) (m * 131072 + 131072)).isEmpty && d.fab.isEmpty then []
    else (List.range 8).flatMap fun j =>
      let zeroSel := probe i u e d chainFuel n 0 j
      (List.range 32).flatMap fun t =>
        match d.portWord (ixPort m t (8 + j) s) with
        | none => []
        | some w =>
          let sel := bitsAt w 0 6
          match if sel == 0 then zeroSel else if sel ≤ 32 then probe i u e d chainFuel n sel j else none with
          | none => []
          | some (v, c) =>
            let dst := bitsAt w 6 10
            let undef := v.undef || 2 < c
            let k := (tileIx n t * 8 + j) + 0x100000
            let data := if undef then Config.freeWord d.fresh k else v.data
            if v.word then [.word n t (0x80 + dst % 64) data.toNat] else [.bit n t (0x800 + dst) (data.getLsbD 0)]

/-- The fabric after a step of partition `i`: what its clusters and links held is replaced. -/
def newFabric (d : Dev) (i u e : Nat) : SMap Sig :=
  let mine (k : Nat) : Bool :=
    if k < 0x10000 then d.owns i (k / 256)
    else if k < 0x20000 then d.owns i ((k - 0x10000) / 8)
    else if k < 0x30000 then d.owns i ((k - 0x20000) / 64)
    else if k < 0x40000 then d.owns i ((k - 0x30000) / 8)
    else (d.slotLinks i).contains ((k - 0x40000) / 16)
  let kept := d.fab.filter fun x => !mine x.1
  ((d.execClusters i).flatMap (d.registersOf i u e) ++ d.gatesOf i u e).foldl (fun f x => SMap.put f x.1 x.2) kept

end Dev
end Sys2Proof.Machine
end

