-- ==== Sys2Proof/Machine/Dmem.lean ====
section
/-! DEFINITION. Design memories (R127 to R136), far memory ports (R137 to R143) and transactor ports (R284 to R289) in one step. -/

namespace Sys2Proof.Machine

namespace Dev

/-- Entries a row of width `w` holds (R127). -/
def perRow (w : Nat) : Nat := if w == 0 || 72 < w then 0 else 96 / w

/-- A design memory row detection is recorded (R133, R136). -/
def recordRow (d : Dev) (n m row : Nat) (ue : Bool) : Dev :=
  let b := pCLU n
  (((d.p b CLU_DMEM_ERR_LAST_ROW row).p b CLU_DMEM_ERR_LAST_BLOCK m).p b CLU_DMEM_ERR_LAST_UE ue.toNat).on b CLU_DMEM_ERR_LAST_VALID

/-- A corrected row is recorded on each detection; it is written back, and counted, within 32 ns (R133, R136). -/
def rowCe (d : Dev) (n k : Nat) : Dev :=
  (d.recordRow n (k / 8192 % 8) (k % 8192) false).modClu n fun c => { c with rowBack := if c.rowBack.contains k then c.rowBack else c.rowBack ++ [k] }
/-- The count, interrupt and event of a row written back (R136). -/
def rowBackDone (d : Dev) (n : Nat) : Dev :=
  let d := d.add (pCLU n) CLU_DMEM_CE_COUNT_COUNT 1
  d.cluIrq n 5 (d.dmemLast n)

/-- An uncorrectable row is counted and raised (R133). -/
def rowUe (d : Dev) (n k : Nat) : Dev :=
  let d := (d.recordRow n (k / 8192 % 8) (k % 8192) true).add (pCLU n) CLU_DMEM_UE_COUNT_COUNT 1
  (d.cluIrq n 6 (d.dmemLast n)).raiseUpset n (locRow k) false

/-- A row is read and checked (R133): its data as delivered, and whether it is uncorrectable. -/
def readRow (d : Dev) (n k : Nat) : Dev × Nat × Bool :=
  let w := d.rowEcc k
  match secdedCheck 96 103 w.data.toNat w.chk.toNat with
  | .ok => (d, w.data.toNat, false)
  | .ce v _ => (d.rowCe n k, v, false)
  | .ue _ => (d.rowUe n k, w.data.toNat, true)

/-- An entry write is merged into its row; an uncorrectable row loses it (R127, R131, R133). -/
def mergeEntry (d : Dev) (n m a v : Nat) : Dev :=
  let w := d.g (pCLU n) (CLU_DMEM_CFG_WIDTH m)
  if 8192 * perRow w ≤ a then d
  else
    let k := ixRow n m (a % 8192)
    let f := a / 8192
    let stored := d.rowEcc k
    match secdedCheck 96 103 stored.data.toNat stored.chk.toNat with
    | .ok => d.setRow k (freshEcc 96 (setBitsAt stored.data.toNat (f * w) w v))
    | .ce x _ =>
      let d := (d.recordRow n m (a % 8192) false).rowBackDone n
      (d.modClu n fun c => { c with rowBack := c.rowBack.filter (· ≠ k) }).setRow k (freshEcc 96 (setBitsAt x (f * w) w v))
    | .ue _ => d.rowUe n k

/-- Outstanding design memory writes of cluster `n` are held by their arrays (R129). -/
def landWrites (d : Dev) (n : Nat) : Dev :=
  let ws := (d.cluAt n).dwr
  if ws.isEmpty then d
  else (d.modClu n fun c => { c with dwr := [] }).each ws fun d w => d.mergeEntry n w.m w.addr w.data

/-- Bits beyond entry 0xFFF have no entry: a write read from them is free (R131). -/
def bitsIn (d : Dev) (n t a w : Nat) : Nat :=
  (List.range w).foldl (fun v i => if (if a + i < 0x1000 then d.tss n t (a + i) else Config.freeBit d.fresh (0x200000 + i)) then v ||| 1 <<< i else v) 0

/-- One event acts: a read captures its entry, a write takes its data (R129, R131). `c` is the cluster whose tiles the event uses, `n` the
one whose block it is. -/
def doEvent (d : Dev) (c n m e : Nat) : Dev :=
  let b := pCLU n
  let w := d.g b (CLU_DMEM_CFG_WIDTH m)
  let t := d.g b (CLU_DMEM_EV_TILE m e)
  let a := d.wss c t (d.g b (CLU_DMEM_EV_ADDR m e)) % 2 ^ 20
  let bit := d.b b (CLU_DMEM_EV_MODE m e)
  let dst := d.g b (CLU_DMEM_EV_DATA m e)
  if d.g b (CLU_DMEM_EV_PORT m e) == 2 then
    if d.b b (CLU_DMEM_EV_CEN m e) && !d.tss c t (d.g b (CLU_DMEM_EV_COND m e)) then d
    else
      let v := if bit then d.bitsIn c t dst w else d.wssRun c t dst ((w + 31) / 32) % 2 ^ w
      d.modClu n fun x => { x with dwr := x.dwr ++ [⟨m, a, v⟩] }
  else
    let r := if 8192 * perRow w ≤ a then (d, 0, false) else d.readRow n (ixRow n m (a % 8192))
    let v := if 8192 * perRow w ≤ a then 0 else bitsAt r.2.1 (a / 8192 * w) w
    r.1.modClu n fun x => { x with drd := x.drd ++ [⟨m, e, bit, t, dst, w, v⟩] }

/-- The events of block `m` of cluster `n` at step `u`: for each port, the lowest-numbered (R132, R135). -/
def eventsAt (d : Dev) (n m u : Nat) : List Nat :=
  let b := pCLU n
  let w := d.g b (CLU_DMEM_CFG_WIDTH m)
  if !d.b b (CLU_DMEM_CFG_EN m) || w == 0 || 72 < w then []
  else
    let at' := (List.range 16).filter fun e => d.b b (CLU_DMEM_EV_V m e) && d.g b (CLU_DMEM_EV_STEP m e) == u && d.g b (CLU_DMEM_EV_PORT m e) ≠ 3
    at'.filter fun e => !(at'.any fun o => o < e && d.g b (CLU_DMEM_EV_PORT m o) == d.g b (CLU_DMEM_EV_PORT m e))

/-- The clusters whose blocks serve cluster `c`: itself and, in a fused pair, its odd member with blocks 8 to 15 (R125). -/
def blockClusters (d : Dev) (i c : Nat) : List Nat := if (d.ptnAt i).fusedMask.testBit (c / 2) && c % 2 == 0 then [c, c + 1] else [c]

/-- Whether cluster `c` of partition `i` runs its ports at step index `u` (R86). -/
def portsRun (d : Dev) (i c u : Nat) : Bool := u < 256 || (d.ptnAt i).fusedMask.testBit (c / 2)

/-- Design memory ports of cluster `c` at step `u`: earlier writes land, and this step's events act (R129). -/
def runDmem (d : Dev) (i c u : Nat) : Dev :=
  let d := d.each (d.blockClusters i c) fun d n => d.landWrites n
  if !d.portsRun i c u then d
  else d.each (d.blockClusters i c) fun d n => d.each (List.range 8) fun d m => d.each (d.eventsAt n m u) fun d e => d.doEvent c n m e

/-- The writes of a delivered read (R131). -/
def readWrites (c : Nat) (r : DRead) : List Wr :=
  if r.bit then bitWrites c r.tile r.dst r.w r.data else wordWrites c r.tile r.dst ((r.w + 31) / 32) r.data

/-- Read data issued at the last executed step, delivered at the end of this one: highest-ranked last (R129, R446). -/
def takeReads (d : Dev) (i c : Nat) : Dev × List Wr :=
  let ns := d.blockClusters i c
  let rank (n : Nat) (r : DRead) : Nat := ((if n == c then r.m else r.m + 8) * 16 + r.e)
  let all := ns.flatMap fun n => (d.cluAt n).drd.map fun r => (rank n r, r)
  let sorted := (List.range 256).flatMap fun k => (all.filter (fun x => x.1 == 255 - k)).map (·.2)
  (d.each ns fun d n => d.modClu n fun x => { x with drd := [] }, sorted.flatMap (readWrites c))

/-! Far memory ports. -/

/-- Bytes of an access (R141). -/
def farBytes (d : Dev) (n f : Nat) : Nat := 4 * 2 ^ d.g (pCLU n) (CLU_FMP_SIZE f)
def farOf (d : Dev) (n f : Nat) : List FarAcc := SMap.get [] (d.cluAt n).far f
def setFar (d : Dev) (n f : Nat) (xs : List FarAcc) : Dev :=
  (d.modClu n fun c => { c with far := SMap.set [] c.far f xs }).p (pCLU n) (CLU_FMP_PENDING f) xs.length

/-- Whether port `f` issues at step `u`: a conditional write only if its condition reads 1 (R137). -/
def farIssues (d : Dev) (n f u : Nat) : Bool :=
  let b := pCLU n
  d.b b (CLU_FMP_V f) && d.g b (CLU_FMP_ISSUE f) == u &&
    !(d.b b (CLU_FMP_DIR f) && d.b b (CLU_FMP_CEN f) && !d.tss n (d.g b (CLU_FMP_TILE f)) (d.g b (CLU_FMP_COND f)))
/-- Whether port `f` consumes at step `u` (R138). -/
def farUses (d : Dev) (n f u : Nat) : Bool :=
  let b := pCLU n
  d.b b (CLU_FMP_V f) && !d.b b (CLU_FMP_DIR f) && d.g b (CLU_FMP_USE f) == u
/-- The oldest read of a port not yet consumed. -/
def oldestRead (xs : List FarAcc) : Option FarAcc := xs.find? (fun a => !a.write)

/-- Whether a far port holds the partition before step `u` (R138, R139). -/
def farBlocks (d : Dev) (n f u : Nat) : Bool :=
  let xs := d.farOf n f
  let waits := match oldestRead xs with | some a => !a.done | none => false
  (d.farUses n f u && waits) || (d.farIssues n f u && 16 ≤ xs.length)

/-- The writes of USE and the port's list without what it consumed (R138). -/
def farUse (d : Dev) (n f u : Nat) : Dev × List Wr :=
  if !d.farUses n f u then (d, [])
  else match oldestRead (d.farOf n f) with
    | none => (d, [])
    | some a =>
      let b := pCLU n
      (d.setFar n f ((d.farOf n f).erase a), wordWrites n (d.g b (CLU_FMP_TILE f)) (d.g b (CLU_FMP_DATA f)) (a.size / 4) (leNat a.data))

/-- Accesses of a port whose requests have not been sent reserve response buffers, oldest first, where they have a route and a tag is free
(R262, R264); an interface that drains or is fenced sends none (R269). -/
def farReserve (d : Dev) (n f : Nat) : Dev :=
  if d.niState n ≠ 0 then d
  else d.each (List.range (d.farOf n f).length) fun d k =>
    match (d.farOf n f)[k]? with
    | none => d
    | some a =>
      if a.tag.isSome || (!a.write && a.done) || !d.hbmRouted n a.addr a.size then d
      else match d.freeTag n with
        | none => d
        | some t =>
          (d.setFar n f ((d.farOf n f).set k { a with tag := some t })).addOutst ⟨n, t, hbmDest a.addr, 0, a.addr, (d.ownerOf n).getD 0 + 1, a.write, (0, 0), false⟩

/-- One access is issued (R137): an invalid region gives zero data and discards writes. -/
def farIssue (d : Dev) (i n f u : Nat) : Dev :=
  if !d.farIssues n f u then d
  else
    let b := pCLU n
    let t := d.g b (CLU_FMP_TILE f)
    let size := d.farBytes n f
    let r := d.g b (CLU_FMP_REGION f)
    let lg := d.g (pPTN i) (PTN_FREGION_LOG2SIZE r)
    let ok := 12 ≤ lg && lg ≤ 36
    let off := (d.wss n t (d.g b (CLU_FMP_ADDR f)) * size) % 2 ^ lg
    let addr := d.g (pPTN i) (PTN_FREGION_BASE r) + off
    if d.b b (CLU_FMP_DIR f) then
      if ok then (d.setFar n f (d.farOf n f ++ [⟨true, true, addr, leBytes size (d.wssRun n t (d.g b (CLU_FMP_DATA f)) (size / 4)), size, false, none⟩])).farReserve n f else d
    else (d.setFar n f (d.farOf n f ++ [⟨false, ok, addr, List.replicate size 0, size, !ok, none⟩])).farReserve n f

/-! Transactor ports. -/

/-- The queue port `x` acts on at step `u`, where it acts (R287, R289). -/
def txpActs (d : Dev) (n x u : Nat) : Option Nat :=
  if d.b (pCLU n) (CLU_TXP_V x) && d.g (pCLU n) (CLU_TXP_STEP x) == u &&
      !(d.b (pCLU n) (CLU_TXP_CEN x) && !d.tss n (d.g (pCLU n) (CLU_TXP_TILE x)) (d.g (pCLU n) (CLU_TXP_COND x))) then d.portQueue n x
  else none
def creditsOf (d : Dev) (n x : Nat) : Nat := SMap.get 0 (d.cluAt n).credits x

/-- Port `x` gives back the space its credits hold, or the copies it holds (R288, R289, R310). -/
def releasePort (d : Dev) (n x : Nat) : Dev :=
  let c := d.creditsOf n x
  let d := match d.portQueue n x with
    | some q =>
      if d.b (pCLU n) (CLU_TXP_DIR x) then d.modQueue q fun y => { y with reserved := y.reserved - c }
      else if d.boundTo q == some (n, x) then d.modQueue q fun y => { y with copied := 0 } else d
    | none => d
  d.modClu n fun y => { y with credits := SMap.del y.credits x }

/-- Every transactor port of a cluster does so. -/
def releasePorts (d : Dev) (n : Nat) : Dev := d.each (List.range 8) fun d x => d.releasePort n x

/-- Why a transactor port holds the partition before step `u`: STALL_SRC bit 0 queue full, bit 1 queue empty (R105, R288); a write port stays
ready while its queue discards (R297). -/
def txpBlocks (d : Dev) (n x u : Nat) : Nat :=
  match d.txpActs n x u with
  | none => 0
  | some q =>
    if d.b (pCLU n) (CLU_TXP_DIR x) then (if (d.queueAt q).priv || (d.queueAt q).discard || 0 < d.creditsOf n x then 0 else 1)
    else if 0 < (d.queueAt q).copied && d.boundTo q == some (n, x) then 0 else 2

/-- A read port takes the head word (R287). -/
def txpRead (d : Dev) (n x u : Nat) : Dev × List Wr :=
  match d.txpActs n x u with
  | none => (d, [])
  | some q =>
    if d.b (pCLU n) (CLU_TXP_DIR x) then (d, [])
    else match d.takeHead q with
      | none => (d, [])
      | some (w, d) =>
        let t := d.g (pCLU n) (CLU_TXP_TILE x)
        (d, wordWrites n t (d.g (pCLU n) (CLU_TXP_DATA x)) 2 w.data.toNat ++ [.bit n t (d.g (pCLU n) (CLU_TXP_MARK x)) w.fin])

/-- A write port's word as read at the start of the step: queue, word, and whether it holds a credit (R287, R288). -/
def txpWord (d : Dev) (n x u : Nat) : Option (Nat × QWord × Bool) :=
  match d.txpActs n x u with
  | none => none
  | some q =>
    if !d.b (pCLU n) (CLU_TXP_DIR x) then none
    else
      let t := d.g (pCLU n) (CLU_TXP_TILE x)
      some (q, ⟨BitVec.ofNat 64 (d.wssRun n t (d.g (pCLU n) (CLU_TXP_DATA x)) 2), d.tss n t (d.g (pCLU n) (CLU_TXP_MARK x)), d.b (pCLU n) (CLU_TXP_FENCE x), []⟩,
            !(d.queueAt q).priv)

/-- The kinds of source still blocking step `u` of partition `i`: STALL_SRC bits 0 to 2 (R99, R105). -/
def blockers (d : Dev) (i u : Nat) : Nat :=
  ((d.execClusters i).filter (fun n => d.portsRun i n u)).foldl (fun m n =>
    let far := (List.range 4).any fun f => d.farBlocks n f u
    let txp := (List.range 8).foldl (fun m x => m ||| d.txpBlocks n x u) 0
    m ||| txp ||| (if far then 4 else 0)) 0

end Dev
end Sys2Proof.Machine
end

