-- ==== Sys2Proof/Machine/Lockstep.lean ====
section
/-! DEFINITION. Lockstep compare (R184 to R189) and the requests for scrub passes it makes (R219). -/

namespace Sys2Proof.Machine

namespace Dev

/-- Whether partition `i` is the one compared. -/
def compared (d : Dev) (i : Nat) : Bool := d.b pLSC LSC_CFG_EN && d.g pLSC LSC_CFG_PARTITION == i
/-- WINDOW as it acts (R189). -/
def lscWindow (d : Dev) : Nat := Nat.max 1 (Nat.min 64 (d.g pLSC LSC_CFG_WINDOW))

/-- The link to the partner: lane group 15, UP at AL2, carrying packets only (R182, R184). -/
def lscLink (d : Dev) : Bool := d.al2 15 && !d.b pLNK (LNK_BUDGET_SLOTS 15)

/-- Signatures kept for the compare are forgotten where partition `i` is the one compared: at START, STOP and a reset, whose cycles begin
anew, at a snapshot's restore, which goes back to earlier cycles, and when CFG is written (R187, R189). -/
def forgetSigs (d : Dev) (i : Nat) : Dev :=
  if d.g pLSC LSC_CFG_PARTITION == i then
    { d.p pLSC LSC_STATUS_LAG_HOLD 0 with sys := { d.sys with mine := [], theirs := [] } }
  else d

/-- A lockstep record leaves for the partner (R186). -/
def lscSend (d : Dev) (sig cyc type diag : Nat) : Dev :=
  d.iff d.lscLink fun d => d.emit (.lockstep (BitVec.ofNat 128 (sig ||| (cyc % 2 ^ 48) <<< 64 ||| d.g pLSC LSC_CFG_PARTITION <<< 112 ||| type <<< 116 ||| diag <<< 120)))

/-- What a mismatch does in MODE 0 (R188): freeze, system-wide freeze, a pass if SCRUB is 1. -/
def lscAct (d : Dev) : Dev :=
  let i := d.g pLSC LSC_CFG_PARTITION
  let d := (d.freezeReq i 7).raiseSysFreeze
  if d.b pLSC LSC_CFG_SCRUB then (d.p pLSC LSC_STATUS_DIAG 1).scrubRequest i false else d

/-- The 64-bit CYCLE whose low 48 bits a record carries: the one at or next below the present count (R189). -/
def wholeCycle (d : Dev) (cyc : Nat) : Nat :=
  let now := d.g (pPTN (d.g pLSC LSC_CFG_PARTITION)) PTN_CYCLE_COUNT
  if cyc ≤ now % 2 ^ 48 then now / 2 ^ 48 * 2 ^ 48 + cyc else (now / 2 ^ 48 - 1) * 2 ^ 48 + cyc

/-- Own and partner's signatures of one cycle differ (R188, R189). -/
def mismatch (d : Dev) (cyc mine theirs : Nat) : Dev :=
  let first := !d.b pLSC LSC_STATUS_MISMATCH
  let d := d.iff first fun d => ((d.p pLSC LSC_MISMATCH_CYCLE_COUNT (d.wholeCycle cyc)).p pLSC LSC_LOCAL_SIG_SIG mine).p pLSC LSC_REMOTE_SIG_SIG theirs
  let d := ((d.on pLSC LSC_STATUS_MISMATCH).add pLSC LSC_MISMATCH_COUNT_COUNT 1).irq pLSC 0
  let d := d.raise 0x106 1 (d.g pLSC LSC_CFG_PARTITION) (d.word pLSC 0x108 fldsLSC) (d.g pLSC LSC_MISMATCH_CYCLE_COUNT)
  if d.b pLSC LSC_CFG_MODE then d else d.lscAct.lscSend mine cyc 2 0

/-- Signatures of the same cycle on both sides are compared and taken (R187). -/
def compareSigs (d : Dev) : Dev :=
  let both := d.sys.mine.filterMap fun m => (d.sys.theirs.find? (fun t => t.1 == m.1)).map fun t => (m.1, m.2, t.2)
  let known (c : Nat) : Bool := both.any (fun x => x.1 == c)
  let d := { d with sys := { d.sys with mine := d.sys.mine.filter (fun m => !known m.1), theirs := d.sys.theirs.filter (fun t => !known t.1) } }
  let d := d.each both fun d x => if x.2.1 == x.2.2 then d else d.mismatch x.1 x.2.1 x.2.2
  if d.sys.mine.length < d.lscWindow then d.p pLSC LSC_STATUS_LAG_HOLD 0 else d

/-- The signature of a cycle over the compare taps in list order (R185). -/
def signature (list : List Config.CompareTap) (taps : List Tap) : Nat :=
  list.foldl (fun crc c =>
    (taps.filter (fun t => t.cluster == c.cluster && t.tile == c.tile && t.unit == c.unit && t.step == c.step)).foldl
      (fun crc t => (bitsMsb t.data t.width).foldl sigBit crc) crc) 0xFFFFFFFFFFFFFFFF

/-- The signature of partition `i`'s cycle is computed, sent and compared (R185 to R187). Its CYCLE is the count after the increment at the
boundary that ends the cycle: R186 leaves open which of the two it is (DESIGN CHOICE, log entry 62). -/
def sign (d : Dev) (i : Nat) (taps : List Tap) : Dev :=
  if !d.compared i then d
  else
    let cyc := d.g (pPTN i) PTN_CYCLE_COUNT % 2 ^ 48
    let list := match (d.ptnAt i).tables with | some t => t.compare | none => []
    let sig := signature list taps
    let d := { d with sys := { d.sys with mine := d.sys.mine ++ [(cyc, sig)] } }
    (d.lscSend sig cyc 1 0).compareSigs

/-- Whether the partition holds at its boundary for the partner (R187). -/
def lagging (d : Dev) (i : Nat) : Bool := d.compared i && !d.b pLSC LSC_STATUS_PARTNER_LOST && d.lscWindow ≤ d.sys.mine.length

end Dev

/-- A record arrives from the partner (R186 to R188): 1 signature, 2 mismatch, 3 diagnosis. -/
def Dev.doLockstepRecord (d : Dev) (r : BitVec 128) : Dev :=
  let v := r.toNat
  if !d.lscLink || !d.b pLSC LSC_CFG_EN || bitsAt v 112 4 ≠ d.g pLSC LSC_CFG_PARTITION then d
  else match bitsAt v 116 4 with
    | 1 => { d with sys := { d.sys with theirs := d.sys.theirs ++ [(bitsAt v 64 48, bitsAt v 0 64)] } }.compareSigs
    | 2 =>
      let d := d.on pLSC LSC_STATUS_REMOTE_MISMATCH
      if d.b pLSC LSC_CFG_MODE then d else d.lscAct
    | _ => d
/-- A lockstep record arrives: the command over `doLockstepRecord`. -/
def execLockstepRecord (r : BitVec 128) (s : State) : Host.Outcome State Fault Refusal := main s fun d => d.doLockstepRecord r

/-- No partner record for TIMEOUT µs (R187). -/
def Dev.doPartnerTimeout (d : Dev) : Dev :=
  if !d.b pLSC LSC_CFG_EN then d
  else
    let d := ((d.on pLSC LSC_STATUS_PARTNER_LOST).p pLSC LSC_STATUS_LAG_HOLD 0).irq pLSC 1
    if d.b pLSC LSC_CFG_LOST_MODE then { d with sys := { d.sys with mine := [] } } else d.freezeReq (d.g pLSC LSC_CFG_PARTITION) 7
/-- The partner is silent: the command over `doPartnerTimeout`. -/
def execPartnerTimeout (s : State) : Host.Outcome State Fault Refusal := main s fun d => d.doPartnerTimeout

end Sys2Proof.Machine
end

