-- ==== Sys2Proof/Machine/Sequencer.lean ====
section
/-! DEFINITION. The schedule sequencer (R86 to R102): instants, passes, commits, boundaries, freezes, system holds. -/

namespace Sys2Proof.Machine

namespace Dev

/-- Entering FROZEN or HARD_FROZEN: the interrupt and the event (R402, R427). -/
def frozenIrq (d : Dev) (i : Nat) : Dev := (d.irq (pPTN i) 0).raise (0x060 + i) 4 i 0 0

/-- Writes still outstanding are completed before the status shows the new state (R129). -/
def landAll (d : Dev) (i : Nat) : Dev := d.each (d.clustersOf i) fun d n => d.landWrites n

/-- The lowest cause of a list, with one more (R102). -/
def lowest (c : Nat) (cs : List Nat) : Nat := cs.foldl Nat.min c

/-- The partition stops at its boundary (R96, R143): STATE shows RUNNING and FREEZE_PENDING 1 until far accesses have settled. -/
def enterFreeze (d : Dev) (i cause : Nat) : Dev :=
  let x := d.ptnAt i
  let c := lowest cause x.pend
  let d := (d.landAll i).modPtn i fun x =>
    { x with pend := [], settle := some c, due := .none, cyclesLeft := none, stepsLeft := none, freezeAt := x.freezeAt.filter (·.2.2) }
  let b := pPTN i
  let d := ((d.p b PTN_SEQ_STATUS_FREEZE_CAUSE c).on b PTN_SEQ_STATUS_FREEZE_PENDING).p b PTN_SEQ_STATUS_STATE 1
  (d.p b PTN_SEQ_STATUS_STALLED 0).p b PTN_SEQ_STATUS_STALL_SRC 0

/-- The partition stops between two steps (R98, R100). -/
def enterHard (d : Dev) (i cause : Nat) : Dev :=
  let b := pPTN i
  let d := (d.landAll i).modPtn i fun x => { x with wasHard := x.wasHard || d.b b PTN_POSITION_IN_CYCLE, cyclesLeft := none, stepsLeft := none, freezeAt := x.freezeAt.filter (!·.2.2) }
  let d := (d.p b PTN_SEQ_STATUS_STATE 3).p b PTN_SEQ_STATUS_FREEZE_CAUSE cause
  ((d.p b PTN_SEQ_STATUS_STALLED 0).p b PTN_SEQ_STATUS_STALL_SRC 0).frozenIrq i

/-- Freeze cause of a count reached (R102). -/
def dueCause : Due → Nat
  | .cascade => 4
  | _ => 2

/-- The clock sources of a type: 1 periodic, 2 derived (R111). -/
def sourcesOf (d : Dev) (i type : Nat) : List Nat := (List.range 32).filter fun k => d.g (pPTN i) (PTN_CLK_TYPE k) == type

/-- Bits set for a list of indexes. -/
def maskOf (ks : List Nat) : Nat := ks.foldl (fun m k => m ||| 1 <<< k) 0

/-- The current copy of a derived source's entry (R92). -/
def derivedValue (d : Dev) (i k : Nat) : Bool :=
  d.tss (d.g (pPTN i) (PTN_CLK_CLUSTER k)) (d.g (pPTN i) (PTN_CLK_TILE k)) (0xC00 + d.g (pPTN i) (PTN_CLK_ENTRY k))

/-- Every derived source is sampled (R92): changes are edges, except on a source's first sample. -/
def sampleClocks (d : Dev) (i : Nat) : Dev :=
  let ks := d.sourcesOf i 2
  let now := maskOf (ks.filter (d.derivedValue i))
  d.modPtn i fun x =>
    let old := maskOf (ks.filter x.sampled.testBit)
    { x with rises := x.rises ||| (now &&& old &&& (now ^^^ x.samples)), falls := x.falls ||| (x.samples &&& old &&& (now ^^^ x.samples)),
             sampled := maskOf ks, samples := now }

/-- A source that is no longer derived loses its sample: derived again, it has none until its next one (R92). -/
def dropSamples (d : Dev) (i : Nat) : Dev := d.modPtn i fun x => { x with sampled := x.sampled &&& maskOf (d.sourcesOf i 2) }

/-- Whether edges of the sources in two masks fire edge set `e` (R89). -/
def fires (d : Dev) (i rises falls e : Nat) : Bool :=
  (d.g (pPTN i) (PTN_ES_RISE e) &&& rises) ||| (d.g (pPTN i) (PTN_ES_FALL e) &&& falls) ≠ 0

/-- The valid segments of an edge set in increasing index (R91). -/
def segsOf (d : Dev) (i e : Nat) : List SegRun :=
  ((List.range 64).filter fun k => d.b (pPTN i) (PTN_SEG_VALID k) && d.g (pPTN i) (PTN_SEG_EDGE_SET k) == e).map fun k =>
    ⟨k, d.g (pPTN i) (PTN_SEG_START k), d.g (pPTN i) (PTN_SEG_LEN_M1 k) + 1⟩

/-- The edge sets that edges fire, in increasing number (R91). -/
def passRuns (d : Dev) (i rises falls : Nat) : List EsRun :=
  ((List.range 32).filter (d.fires i rises falls)).map fun e => ⟨e, d.segsOf i e⟩

/-- The first time at or after `t` of a train of edges at `base`, `base + period`, ... (R88). -/
def nextEdge (base period t : Nat) : Option Nat :=
  if t ≤ base then some base else if period == 0 then none else some (base + (t - base + period - 1) / period * period)

/-- Whether some edge set names an edge of source `k` (R90). -/
def named (d : Dev) (i k : Nat) (fall : Bool) : Bool :=
  (List.range 32).any fun e => (d.g (pPTN i) (if fall then PTN_ES_FALL e else PTN_ES_RISE e)).testBit k

/-- First instant after a reset of emulated time is at 0 or later, every other later than ETIME (R90). -/
def fromTime (d : Dev) (i : Nat) : Nat := if (d.ptnAt i).first then 0 else d.g (pPTN i) PTN_ETIME_PS + 1

/-- Named edges of periodic sources with the first time each has from `t` on: source, falling, time. -/
def namedEdges (d : Dev) (i t : Nat) : List (Nat × Bool × Nat) :=
  (d.sourcesOf i 1).flatMap fun k =>
    let f := d.g (pPTN i) (PTN_CLK_PHASE k)
    let p := d.g (pPTN i) (PTN_CLK_PERIOD k)
    let at' (fall : Bool) (base : Nat) : List (Nat × Bool × Nat) :=
      if d.named i k fall then (match nextEdge base p t with | some x => [(k, fall, x)] | none => []) else []
    at' false f ++ at' true (f + d.g (pPTN i) (PTN_CLK_HIGH k))

/-- The next instant: its time and the rising and falling edges at it (R90). -/
def nextInstant (d : Dev) (i t : Nat) : Option (Nat × Nat × Nat) :=
  let es := d.namedEdges i t
  match es with
  | [] => none
  | e :: rest =>
    let m := rest.foldl (fun m e => Nat.min m e.2.2) e.2.2
    let hit (fall : Bool) : Nat := maskOf ((es.filter (fun e => e.2.2 == m && e.2.1 == fall)).map (·.1))
    some (m, hit false, hit true)

/-- Checks 2 to 4 of START (R96): the CMD_ERR code of the first that fails, else 0. -/
def tableChecks (d : Dev) (i : Nat) : Nat :=
  let b := pPTN i
  let top := if d.b b PTN_SEQ_CFG_EXTENDED then 512 else 256
  let segs := (List.range 64).all fun k => !d.b b (PTN_SEG_VALID k) || d.g b (PTN_SEG_START k) + d.g b (PTN_SEG_LEN_M1 k) + 1 ≤ top
  let periodic := (d.sourcesOf i 1).all fun k =>
    d.g b (PTN_CLK_PHASE k) < d.g b (PTN_CLK_PERIOD k) && 1 ≤ d.g b (PTN_CLK_HIGH k) && d.g b (PTN_CLK_HIGH k) < d.g b (PTN_CLK_PERIOD k)
  let derived := (d.sourcesOf i 2).all fun k => (d.execClusters i).contains (d.g b (PTN_CLK_CLUSTER k))
  if !segs then 3
  else if !(periodic && derived) then 4
  else if (d.sourcesOf i 1).any fun k => d.named i k false || d.named i k true then 0
  else 5

/-- POSITION shows what comes next (R106). -/
def showPosition (d : Dev) (i : Nat) : Dev :=
  let x := d.ptnAt i
  let b := pPTN i
  let (e, s) := match x.runs with
    | r :: _ => (r.es, match r.segs with | g :: _ => g.step | [] => 0)
    | [] => (0, 0)
  ((d.p b PTN_POSITION_STEP s).p b PTN_POSITION_EDGE_SET e).p b PTN_POSITION_PASS x.passes

/-- Entries of TAP and reduced WORD channels at a boundary (R321 to R323); one that comes less than CYCLE_STEPS hub clocks after the
channel's previous entry is lost (R326). -/
def capCycle (d : Dev) (i cyc : Nat) (taps : List Tap) : Dev :=
  let clock := d.hubClock i
  d.each (List.range 64) fun d ch =>
    if !(d.b pCAP (CAP_CH_CFG_EN ch) && d.owns i (d.capSrc ch 9 6)) then d
    else
      let x := d.chanAt ch
      let late (x : Chan) : Bool := x.lastAt == 0 || x.lastAt + d.capSteps ch ≤ clock
      if !collects x then d
      else if d.capType ch == 2 then
        let bytes := (d.capSrc ch 15 5 + 1) * 8
        let r := packTaps (8 * bytes) (taps.filter (·.cluster == d.capSrc ch 9 6)) (0, 0, false)
        if late x then (d.setChan ch { x with lastAt := clock }).capBytes ch (leBytes bytes r.1) cyc r.2.2 else d.capLost ch
      else if d.capType ch == 3 && d.capSrc ch 21 1 == 1 then
        let x := { x with ivCyc := if x.ivCount == 0 then cyc else x.ivCyc, ivCount := x.ivCount + 1 }
        if x.ivCount < d.capInterval ch then d.setChan ch x
        else
          let sgn := d.capSrc ch 22 1 == 1
          let le (a b : Nat) : Bool := if sgn then toSigned 64 a ≤ toSigned 64 b else a ≤ b
          let pick (f : Nat → Nat → Bool) : Nat := match x.iv with | [] => 0 | v :: vs => vs.foldl (fun a b => if f a b then a else b) v
          let entry := leBytes 8 (pick le) ++ leBytes 8 (pick (fun a b => le b a)) ++ leBytes 4 x.iv.length ++ leBytes 4 0 ++ leBytes 8 x.ivCyc
          let y := { x with iv := [], ivCount := 0 }
          if late x then (d.setChan ch { y with lastAt := clock }).capBytes ch entry x.ivCyc false else (d.setChan ch y).capLost ch
      else d

/-- A linked partition's step counts are compared with a neighbour's (R176): `own` under tag p, heard ones under 16 + p. -/
def compareSteps (d : Dev) (i : Nat) : Dev :=
  let bad := d.sys.skew.any fun a => a.1 == i && d.sys.skew.any fun b => b.1 == 16 + i && b.2.1 == a.2.1 && b.2.2 ≠ a.2.2
  let known (c : Nat) : Bool := d.sys.skew.any fun a => a.1 == i && a.2.1 == c
  let d := { d with sys := { d.sys with skew := (d.sys.skew.filter fun b => !(b.1 == 16 + i && known b.2.1)).take 512 } }
  if bad then (d.on pLNK LNK_SYS_STATUS_STEP_SKEW).raiseSysFreeze else d

/-- The count a boundary reached, if one is (R96). A boundary that ends the last of STEP_STEPS' steps counts as the boundary that comes
first, so that the partition goes to FROZEN: R96 does not rank the two (DESIGN CHOICE, log entry 59). -/
def dueAt (x : Ptn) (limit : Bool) : Due :=
  if limit then .runLimit
  else match x.stepsLeft, x.cyclesLeft with
    | some _, _ => .stepSteps
    | none, some 0 => .stepCycles
    | none, some (k + 1) => if k == 0 then .stepCycles else .none
    | none, none => .none

/-- The emulated cycle boundary of partition `i` (R95): counters, trace, capture, signature, and the freezes that wait for it. A count
reached where the cascade limit acts too leaves its code beside the limit's, so that the lowest is recorded (R102). The CYCLE of a STEPS message
is the count after the boundary's increment: R176 does not say which of the two it is (DESIGN CHOICE, log entry 64). -/
def boundary (d : Dev) (i : Nat) (cascade : Bool) : Dev :=
  let b := pPTN i
  let x := d.ptnAt i
  let before := d.g b PTN_CYCLE_COUNT
  let d := (d.p b PTN_CYCLE_COUNT (before + 1)).p b PTN_POSITION_IN_CYCLE 0
  let d := (d.countCycle i).runMachines
  let flags := (if cascade then 1 else 0) ||| (if x.wasStalled then 2 else 0) ||| (if x.wasHard then 4 else 0)
  let d := d.traceCycle i (x.passes + 1) x.cycleSteps x.esRan x.segRan flags x.taps
  let d := (d.capCycle i before x.taps).sign i x.taps
  let d := if d.linked i then
      let c := (before + 1) % 2 ^ 48
      ({ (d.controlPtn i 7 (i ||| c <<< 4 ||| x.cycleSteps <<< 52)) with sys := { d.sys with skew := (i, c, x.cycleSteps) :: d.sys.skew } }).compareSteps i
    else d
  let d := d.raise (0x040 + i) 4 i 0 0
  let y := d.ptnAt i
  let limit := d.g b PTN_RUN_LIMIT_LIMIT
  let count := dueAt y (limit ≠ 0 && limit == (before + 1) % 2 ^ 64)
  let due := if cascade then .cascade else count
  let late := (y.freezeAt.filter (fun f => !f.2.2 && f.1 ≤ y.exec)).map (·.2.1)
  let d := d.setPtn i { y with runs := [], idle := 0, rises := 0, falls := 0, cycleSteps := 0, passes := 0, esRan := 0, segRan := 0, taps := [],
                               wasStalled := false, wasHard := false, due := due,
                               pend := y.pend ++ late ++ (if cascade && count ≠ .none then [2] else []),
                               cyclesLeft := y.cyclesLeft.map (· - 1), freezeAt := y.freezeAt.filter (fun f => f.2.2 || y.exec < f.1) }
  if due ≠ .none then d.on b PTN_SEQ_STATUS_FREEZE_PENDING
  else match y.pend ++ late with
    | [] => d
    | c :: cs => d.enterFreeze i (lowest c cs)

/-- A count that was reached freezes the partition (R96). -/
def dueFreeze (d : Dev) (i : Nat) : Dev := d.enterFreeze i (dueCause (d.ptnAt i).due)

/-- An edge set's commit, with the sample of derived sources after it (R37, R91, R92). -/
def commitSet (d : Dev) (i e : Nat) : Dev :=
  let d := d.setSt ((d.execClusters i).foldl Stores.commit d.st)
  (d.modPtn i fun x => { x with esRan := x.esRan ||| 1 <<< e }).sampleClocks i

/-- Edge sets with no step left commit; a pass that ends is followed by the next pass or by the boundary (R91 to R94). -/
def advance : Nat → Dev → Nat → Dev
  | 0, d, _ => d
  | fuel + 1, d, i =>
    let x := d.ptnAt i
    if x.idle ≠ 0 then d
    else match x.runs with
      | r :: rest =>
        match r.segs with
        | _ :: _ => d
        | [] => advance fuel ((d.modPtn i fun x => { x with runs := rest }).commitSet i r.es) i
      | [] =>
        let next := d.passRuns i x.rises x.falls
        if next.isEmpty then
          if x.cycleSteps == 0 then d.modPtn i fun x => { x with idle := 1, rises := 0, falls := 0 } else d.boundary i false
        else if x.passes == 7 then
          ((d.on (pPTN i) PTN_SEQ_STATUS_CASCADE_LIMIT).irq (pPTN i) 4).boundary i true
        else d.setPtn i { x with passes := x.passes + 1, rises := 0, falls := 0, idle := 2, runs := next }

/-- The next instant begins (R90, R91, R35, R64): ETIME takes its time, pass 0 is formed, the result window and scratch words become
undefined. -/
def beginInstant (d : Dev) (i : Nat) : Dev :=
  match d.nextInstant i (d.fromTime i) with
  | none => d
  | some (t, rises, falls) =>
    let first := (d.ptnAt i).first
    let d := d.tick.setSt ((d.execClusters i).foldl (fun s n => s.forgetWin n (d.fresh + 1)) d.st)
    let d := if first then d.modPtn i fun x => { x with sampled := 0 } else d
    let d := if first then d.sampleClocks i else d
    let d := d.modPtn i fun x => { x with first := false, rises := 0, falls := 0, runs := d.passRuns i rises falls }
    advance 64 ((d.p (pPTN i) PTN_ETIME_PS t).on (pPTN i) PTN_POSITION_IN_CYCLE) i

/-! System holds of a linked partition (R177). -/

/-- The next instant at or after `t` that executes a step: edges that fire no edge set with a valid segment are passed over. -/
def nextBusy (d : Dev) (i t : Nat) : Option (Nat × Nat × Nat) :=
  let busy := (List.range 32).filter fun e => !(d.segsOf i e).isEmpty
  let live (e : Nat × Bool × Nat) : Bool :=
    busy.any fun s => (d.g (pPTN i) (if e.2.1 then PTN_ES_FALL s else PTN_ES_RISE s)).testBit e.1
  match (d.namedEdges i t).filter live with
  | [] => none
  | e :: rest => d.nextInstant i (rest.foldl (fun m e => Nat.min m e.2.2) e.2.2)

/-- Schedule indexes that come next, at most `n`, as the passes and instants now known give them: passes that derived clocks will add are
not known yet (DEDUCED, log entry 59). -/
def upcoming : Nat → Nat → Dev → Nat → Nat → List Nat
  | 0, _, _, _, _ => []
  | fuel + 1, n, d, i, t =>
    let here := ((d.ptnAt i).runs.flatMap fun r => r.segs.flatMap fun g => (List.range g.left).map (g.step + ·))
    if n ≤ here.length then here.take n
    else match d.nextBusy i t with
      | none => here
      | some (t', r, f) => here ++ upcoming fuel (n - here.length) (d.modPtn i fun x => { x with runs := d.passRuns i r f }) i (t' + 1)

/-- This device asks for a hold before executed step `e` (R177). -/
def askHold (d : Dev) (i e : Nat) : Dev :=
  if (d.ptnAt i).holds.any (fun h => h.e == e && h.mine) then d
  else
    let d := d.modPtn i fun x =>
      if x.holds.any (fun h => h.e == e) then { x with holds := x.holds.map fun h => if h.e == e then { h with mine := true, heard := h.heard + 1 } else h }
      else { x with holds := x.holds ++ [⟨e, true, false, false, 1, 0⟩] }
    d.controlPtn i 3 (i ||| e <<< 4)

/-- Whether far port `f` would not be ready at step `u` after the steps `before` it: the read it then uses has not arrived, or as many
accesses are outstanding as it may have (R139, R177). -/
def farWould (d : Dev) (n f : Nat) (before : List Nat) (u : Nat) : Bool :=
  let reads := (d.farOf n f).filter (!·.write)
  let uses := (before.filter (d.farUses n f)).length
  let issues := (before.filter (d.farIssues n f)).length
  let late := match reads[uses]? with | some a => !a.done | none => !d.b (pCLU n) (CLU_FMP_DIR f) && uses < reads.length + issues
  (d.farUses n f u && late) || (d.farIssues n f u && 16 + uses ≤ (d.farOf n f).length)

/-- Whether transactor port `x` would not be ready at step `u` after the steps `before` it: a write port whose credits its writes before `u` will
have spent, or a read port whose queue does not hold a word for each read up to `u` (R177, R288). -/
def txpWould (d : Dev) (n x : Nat) (before : List Nat) (u : Nat) : Bool :=
  match d.txpActs n x u with
  | none => false
  | some q =>
    let earlier := (before.filter fun v => (d.txpActs n x v).isSome).length
    if d.b (pCLU n) (CLU_TXP_DIR x) then !(d.queueAt q).priv && !(d.queueAt q).discard && d.creditsOf n x ≤ earlier
    else (d.queueAt q).words.length ≤ earlier || d.boundTo q ≠ some (n, x)

/-- The early check of executed step E + H, made at executed step E (R177): every port scheduled there is asked whether it would be ready
if nothing more arrived (DEDUCED, log entry 59). -/
def earlyCheck (d : Dev) (i : Nat) : Dev :=
  let h := d.horizon i
  let ahead := upcoming (h + 1) (h + 1) d i (d.g (pPTN i) PTN_ETIME_PS + 1)
  match ahead[h]? with
  | some u =>
    let before := ahead.take h
    let late := ((d.execClusters i).filter fun n => d.portsRun i n u).any fun n =>
      (List.range 4).any (fun f => d.farWould n f before u) || (List.range 8).any (fun x => d.txpWould n x before u)
    if late then d.askHold i ((d.ptnAt i).exec + h) else d
  | none => d

/-- Readiness of a hold: READY is sent, or noted on the lead, which gives GO when every asker is ready (R177). -/
def holdReady (d : Dev) (i e : Nat) : Dev :=
  let lead := d.b (pPTN i) PTN_LINK_CFG_LEAD
  let d := d.modPtn i fun x => { x with holds := x.holds.map fun h => if h.e == e && h.mine && !h.sent then { h with sent := true, answered := if lead then h.answered + 1 else h.answered } else h }
  if lead then d else d.controlPtn i 4 (i ||| e <<< 4)

/-- The lead gives GO for a hold whose askers are all ready (R177). -/
def leadGo (d : Dev) (i e : Nat) : Dev :=
  if d.b (pPTN i) PTN_LINK_CFG_LEAD && (d.ptnAt i).holds.any (fun h => h.e == e && !h.go && 0 < h.heard && h.heard ≤ h.answered) then
    (d.modPtn i fun x => { x with holds := x.holds.map fun h => if h.e == e then { h with go := true } else h }).controlPtn i 5 (i ||| e <<< 4)
  else d

/-- Executed steps up to the first instant that begins `h` steps or more from the boundary reached, as the instants now known give them. -/
def stepsToInstant : Nat → Dev → Nat → Nat → Nat → Nat
  | 0, _, _, _, h => h
  | fuel + 1, d, i, t, h =>
    if h == 0 then 0
    else match d.nextBusy i t with
      | none => h
      | some (t', r, f) =>
        let n := (d.passRuns i r f).foldl (fun a e => e.segs.foldl (fun a g => a + g.left) a) 0
        n + stepsToInstant fuel d i (t' + 1) (h - n)

/-- A linked partition that leads its partner by WINDOW cycles holds as a system hold (R177, R187): HOLD(E) goes out H steps ahead, for the first
boundary that lies so far (DESIGN CHOICE, log entry 60). -/
def askLag (d : Dev) (i : Nat) : Dev :=
  let x := d.ptnAt i
  if x.holds.any (fun h => h.mine && x.exec ≤ h.e) then d
  else d.askHold i (x.exec + stepsToInstant (d.horizon i + 1) d i (d.g (pPTN i) PTN_ETIME_PS + 1) (d.horizon i))

/-- A linked partition's step counts of an earlier run are forgotten (R176): START, STOP, resets and a snapshot's restore begin the cycles anew. -/
def forgetSteps (d : Dev) (i : Nat) : Dev :=
  { d with sys := { d.sys with skew := d.sys.skew.filter fun a => a.1 ≠ i && a.1 ≠ 16 + i } }

/-- A step in which the partition is held (R99, R177): STALL_STEPS counts and the event fires. -/
def holdStep (d : Dev) (i src : Nat) : Dev :=
  let b := pPTN i
  let d := ((d.on b PTN_SEQ_STATUS_STALLED).p b PTN_SEQ_STATUS_STALL_SRC src).add b PTN_STALL_STEPS_COUNT 1
  (d.modPtn i fun x => { x with wasStalled := true, clock := d.hubClock i }).raise (0x050 + i) 4 i 0 0

end Dev
end Sys2Proof.Machine
end

