-- ==== Sys2Proof/Machine/Run.lean ====
section
/-! DEFINITION. The execution of a step (R24 to R143) and the sequencer's commands (R86 to R111, R175 to R178). -/

namespace Sys2Proof.Machine

namespace Dev

/-- A tap is offered in the cycle in progress (R30, R76, R322). -/
def addTap (d : Dev) (i : Nat) (t : Tap) : Dev := d.modPtn i fun x => { x with taps := x.taps ++ [t] }

/-- The BPs of cluster `n` at step `u`: fetches, taps and writes (R26 to R41). Detections of one step are recorded in ascending tile and BP, so
that the last stays in BPI_ERR_LAST and the first takes the last free held place: the spec gives no order (DESIGN CHOICE, log entry 59). -/
def runBps (d : Dev) (i n u : Nat) : Dev × List Wr :=
  match d.srcOf i n u with
  | none => (d, [])
  | some (m, s) =>
    (keysAt d.code.bpi (m * 524288) 524288 s).foldl (fun r k =>
      let t := k / 16384 % 32
      let b := k / 256 % 64
      let f := r.1.fetchBp m k true
      let ws := f.1.bpWrites n t b u f.2
      let d := if bpTap f.2 && !bpHold f.2 then
          let v := f.1.bpResult n t f.2
          (f.1.offerBp n t b u v).addTap i ⟨n, t, b, u, 1, v.toNat⟩
        else f.1
      (d, r.2 ++ ws)) (d, [])

/-- What one WALU word does: its tap and its writes. -/
def runWord (d : Dev) (i n t w u word : Nat) (pair : Bool) : Dev × List Wr :=
  let o := waEval (waOp word) (d.waIn n t word pair)
  let d := match waTapValue word o with
    | some v =>
      let d := (d.offerWalu n t w u v).capWord n t w v (d.g (pPTN i) PTN_CYCLE_COUNT) pair
      d.addTap i ⟨n, t, 64 + w, u, if pair then 64 else 32, v⟩
    | none => d
  (d, waWrites n t word pair o)

/-- The WALUs of cluster `n` at step `u` (R57 to R76): a pair runs WALU 0's word alone (R74). WALU 1's word is fetched and checked at a
paired step too, and detections of one step are recorded in ascending tile, WALU 0 before WALU 1, so that the last is the most recent:
the spec states neither (DESIGN CHOICE, log entry 59). -/
def runWalus (d : Dev) (i n u : Nat) : Dev × List Wr :=
  match d.srcOf i n u with
  | none => (d, [])
  | some (m, s) =>
    let tiles := ((keysAt d.code.wli (m * 16384) 16384 s).map (fun k => k / 512 % 32)).eraseDups
    tiles.foldl (fun r t =>
      let f0 := r.1.fetchWa m (ixWa m t 0 s) true
      let f1 := f0.1.fetchWa m (ixWa m t 1 s) true
      if waPair f0.2 then
        let a := f1.1.runWord i n t 0 u f0.2 true
        (a.1, r.2 ++ a.2)
      else
        let a := f1.1.runWord i n t 0 u f0.2 false
        let b := a.1.runWord i n t 1 u f1.2 false
        (b.1, r.2 ++ a.2 ++ b.2)) (d, [])

/-- Several port actions in order, each with its writes. -/
def runPorts (d : Dev) (ports : List Nat) (f : Dev → Nat → Dev × List Wr) : Dev × List Wr :=
  ports.foldl (fun r x => let a := f r.1 x; (a.1, r.2 ++ a.2)) (d, [])

/-- The writes of one cluster in one step, in ascending rank (R39, R65, R446), with what its ports consumed and offered. -/
def runCluster (d : Dev) (i u n : Nat) : Dev × List Wr :=
  let bp := d.runBps i n u
  let wa := bp.1.runWalus i n u
  let run := d.portsRun i n u
  let tx := if run then wa.1.runPorts [7, 6, 5, 4, 3, 2, 1, 0] (fun d x => d.txpRead n x u) else (wa.1, [])
  let fa := if run then tx.1.runPorts [3, 2, 1, 0] (fun d f => d.farUse n f u) else (tx.1, [])
  let dm := fa.1.takeReads i n
  let d' := dm.1.runDmem i n u
  (d', bp.2 ++ wa.2 ++ tx.2 ++ fa.2 ++ dm.2)

/-- Transactor words enter their queues at the end of the step (R287, R288): a discarded word spends no credit (R297); a fence word waits for
the far writes its cluster has issued (R276). -/
def txpStore (d : Dev) (n x : Nat) (q : Nat) (w : QWord) (credit : Bool) : Dev :=
  let spends := credit && !(d.queueAt q).discard && 0 < d.creditsOf n x
  let w := w.after ((d.unacked fun o => o.src == n) ++ d.farBehind n)
  let d := if spends then d.modClu n fun c => { c with credits := SMap.set 0 c.credits x (SMap.get 0 c.credits x - 1) } else d
  d.append q w spends

/-- Schedule index `u` is executed by every cluster of partition `i` at once (R24, R94, R112). -/
def executeIndex (d : Dev) (i u : Nat) : Dev :=
  let ns := d.execClusters i
  let e := (d.ptnAt i).exec
  let d := d.each ns fun d n => match d.srcOf i n u with | some (m, s) => d.checkFabric m s | none => d
  let arrive := ns.flatMap (d.arrivals i u e)
  let fab := d.newFabric i u e
  let d := d.sendSlots i u
  let txw := ns.flatMap fun n => if d.portsRun i n u then (List.range 8).filterMap fun x => (d.txpWord n x u).map fun w => (n, x, w) else []
  let r := ns.foldl (fun r n => let a := r.1.runCluster i u n; (a.1, r.2 ++ a.2)) (d, [])
  let d := r.1.each ns fun d n => if d.portsRun i n u then d.each (List.range 4) fun d f => d.farIssue i n f u else d
  let d := { d.tick.setSt (d.st.applyAll (r.2 ++ arrive)) with fab := fab }
  let d := d.each txw fun d w => d.txpStore w.1 w.2.1 w.2.2.1 w.2.2.2.1 w.2.2.2.2
  let d := d.each (d.slotLinks i) fun d gi => d.modLink gi fun l => { l with slots := SMap.delRange l.slots 0 (e + 1) }
  d.modPtn i fun x => { x with exec := x.exec + 1 }

/-- The segment in progress moves to its next step (R87). -/
def nextStep : List EsRun → List EsRun
  | r :: rest =>
    match r.segs with
    | g :: gs => (if g.left ≤ 1 then { r with segs := gs } else { r with segs := { g with step := g.step + 1, left := g.left - 1 } :: gs }) :: rest
    | [] => r :: rest
  | [] => []

/-- What an executed step leaves to the sequencer: counts, the next step, and the boundary where it comes (R94, R96). -/
def afterStep (d : Dev) (i seg : Nat) : Dev :=
  let b := pPTN i
  let d := (d.p b PTN_SEQ_STATUS_STALLED 0).p b PTN_SEQ_STATUS_STALL_SRC 0
  let d := d.modPtn i fun x =>
    { x with runs := nextStep x.runs, cycleSteps := x.cycleSteps + 1, clock := d.hubClock i, segRan := x.segRan ||| 1 <<< seg,
             stepsLeft := x.stepsLeft.map (· - 1) }
  let d := advance 64 d i
  if (d.ptnAt i).stepsLeft == some 0 && (d.ptnAt i).due == .none then d.landAll i else d

/-- One step time of a partition that runs (R94, R99, R177): an idle step, a held step, or an executed step. During a system hold STALL_SRC
shows the local ports that still block beside bit 7: R105 does not say whether it does (DESIGN CHOICE, log entry 59). -/
def oneStep (d : Dev) (i : Nat) : Dev :=
  let x := d.ptnAt i
  if x.idle ≠ 0 then
    advance 64 (d.modPtn i fun x => { x with idle := x.idle - 1, cycleSteps := x.cycleSteps + 1, clock := d.hubClock i }) i
  else match x.runs with
    | ⟨_, g :: _⟩ :: _ =>
      let bl := d.blockers i g.step
      if d.linked i then
        if x.holds.any (fun h => h.e == x.exec) then
          let lag := d.lagging i
          let d := d.iff lag fun d => d.on pLSC LSC_STATUS_LAG_HOLD
          let d := if bl == 0 && !lag && x.holds.any (fun h => h.e == x.exec && h.mine && !h.sent) then d.holdReady i x.exec else d
          (d.leadGo i x.exec).holdStep i (8 ||| bl)
        else if bl ≠ 0 then (d.askHold i x.exec).holdStep i (8 ||| bl)
        else ((d.earlyCheck i).executeIndex i g.step).afterStep i g.seg
      else if bl ≠ 0 then d.holdStep i bl
      else (d.executeIndex i g.step).afterStep i g.seg
    | _ => d

/-- EXECUTE_STEP: partition `i` takes one step time (R94), where it runs, or executes counted steps while HARD_FROZEN (R96). -/
def doExecuteStep (d : Dev) (i : Nat) : Dev :=
  let b := pPTN i
  let x := d.ptnAt i
  let st := d.seqState i
  let stepping := match x.stepsLeft with | some (_ + 1) => true | _ => false
  if !((st == 1 && x.settle.isNone) || (st == 3 && stepping)) then d
  else if x.due ≠ .none then d.dueFreeze i
  else if x.freezeAt.any (fun f => f.2.2 && f.1 ≤ x.exec) then d.enterHard i 9
  else
    let inCycle := d.b b PTN_POSITION_IN_CYCLE
    if !inCycle && d.b b PTN_SEQ_STATUS_STALLED && !x.pend.isEmpty then d.enterFreeze i (x.pend.headD 6)
    else if !inCycle && d.lagging i && !d.linked i then (d.on pLSC LSC_STATUS_LAG_HOLD).holdStep i 8
    else
      let d := d.iff (!inCycle && d.lagging i) fun d => d.askLag i
      let d := if inCycle then d else d.beginInstant i
      if !d.b b PTN_POSITION_IN_CYCLE then d
      else
        let d := d.oneStep i
        if d.seqState i == 1 || d.seqState i == 3 then d.showPosition i else d

/-- A command's result (R104, R105, R427). -/
def cmdErr (d : Dev) (i code : Nat) : Dev :=
  let d := d.p (pPTN i) PTN_SEQ_STATUS_CMD_ERR code
  if code == 0 then d else d.irq (pPTN i) 2

/-- Link checks of START, RESUME and STEP_CYCLES in a linked partition (R175, R237): the CMD_ERR code, else 0. -/
def linkChecks (d : Dev) (i : Nat) : Nat :=
  if !d.linked i then 0
  else
    let ls := d.slotLinks i
    if ls.any (fun gi => !d.al2 gi) then 11
    else if d.g pTSB TSB_CFG_ROLE ≠ 1 && !d.b pLNK LNK_SYS_STATUS_FREQ_LOCK then 12
    else if ls.any (fun gi => d.b pLNK (LNK_BUDGET_OVER gi)) then 9
    else 0

/-- START takes effect (R96). Values in registered fabric segments stay, and the links' receive buffers start empty: the spec states neither
(DESIGN CHOICE, log entry 59). -/
def startNow (d : Dev) (i : Nat) : Dev :=
  let b := pPTN i
  let d := (d.forgetSteps i).forgetSigs i
  let d := ((d.p b PTN_CYCLE_COUNT 0).p b PTN_ETIME_PS 0).p b PTN_SEQ_STATUS_STATE 1
  let d := (((d.p b PTN_POSITION_IN_CYCLE 0).p b PTN_POSITION_STEP 0).p b PTN_POSITION_EDGE_SET 0).p b PTN_POSITION_PASS 0
  let d := d.p b PTN_SEQ_STATUS_FREEZE_PENDING 0
  let d := d.each (d.slotLinks i) fun d gi => d.modLink gi fun l => { l with slots := [], rxSlot := 0 }
  d.modPtn i fun x =>
    { x with first := true, runs := [], idle := 0, rises := 0, falls := 0, pend := [], cyclesLeft := none, stepsLeft := none, settle := none,
             due := .none, exec := 0, cycleSteps := 0, passes := 0, esRan := 0, segRan := 0, wasStalled := false, wasHard := false, taps := [],
             holds := [], freezeAt := [] }

/-- RESUME, STEP_CYCLES and STEP_STEPS take effect (R96). A partition that a hard freeze stopped at a boundary whose freeze still settles
goes back to settling. -/
def resumeNow (d : Dev) (i : Nat) (cycles steps : Option Nat) : Dev :=
  let b := pPTN i
  if (d.ptnAt i).settle.isSome then d.p b PTN_SEQ_STATUS_STATE 1
  else
  let d := if steps.isSome then d else d.p b PTN_SEQ_STATUS_STATE 1
  d.modPtn i fun x => { x with cyclesLeft := cycles, stepsLeft := steps }

/-- STOP takes effect (R96, R129). -/
def stopNow (d : Dev) (i : Nat) : Dev :=
  let b := pPTN i
  let d := (d.forgetSteps i).forgetSigs i
  let d := (d.landAll i).each (d.clustersOf i) fun d n => d.modClu n fun c => { c with drd := [] }
  let d := ((d.p b PTN_SEQ_STATUS_STATE 0).p b PTN_SEQ_STATUS_STALLED 0).p b PTN_SEQ_STATUS_STALL_SRC 0
  let d := (((d.p b PTN_POSITION_IN_CYCLE 0).p b PTN_POSITION_STEP 0).p b PTN_POSITION_EDGE_SET 0).p b PTN_POSITION_PASS 0
  let d := (d.p b PTN_SEQ_STATUS_FREEZE_PENDING 0).modPtn i fun x =>
    { x with runs := [], idle := 0, rises := 0, falls := 0, pend := [], cyclesLeft := none, stepsLeft := none, settle := none, due := .none,
             cycleSteps := 0, passes := 0, esRan := 0, segRan := 0, taps := [], wasStalled := false, wasHard := false, holds := [], freezeAt := [] }
  d.irq b 1

/-- A sequencer command by its SEQ_CMD code takes effect now (R104), with the clusters ON (R382). -/
def commandNow (d : Dev) (i cmd count : Nat) : Dev :=
  let d := if cmd == 7 then d else d.wakeAll i
  match cmd with
  | 1 => d.startNow i
  | 2 => d.resumeNow i none none
  | 5 => d.resumeNow i (some count) none
  | 6 => d.resumeNow i none (some count)
  | 7 => d.stopNow i
  | _ => d

/-- A command that passed its checks: at once, or, in a linked partition, H steps after the lead sends it (R175). -/
def issueCommand (d : Dev) (i cmd : Nat) : Dev :=
  let count := d.g (pPTN i) PTN_STEP_COUNT_COUNT
  if d.linked i then
    (d.modPtn i fun x => { x with linkCmd := x.linkCmd ++ [(cmd, count)] }).controlPtn i 6 (cmdBody i cmd count 0)
  else d.commandNow i cmd count

/-- Whether a snapshot of the partition runs (R152). -/
def snapBusy (d : Dev) (i : Nat) : Bool := d.g (pPTN i) PTN_SNAP_STATUS_STATE ≠ 0

/-- Not the lead of a linked partition (R175). -/
def notLead (d : Dev) (i : Nat) : Bool := d.linked i && !d.b (pPTN i) PTN_LINK_CFG_LEAD

/-- Whether a freeze settles at the boundary, so that STATE shows RUNNING but no step executes (R143). -/
def settling (d : Dev) (i : Nat) : Bool := (d.ptnAt i).settle.isSome

/-- The CMD_ERR code with which a command of this device's partition fails its checks, else 0 (R96, R104, R105, R108, R152, R237). -/
def checksOf (d : Dev) (i cmd count : Nat) : Nat :=
  let st := d.seqState i
  match cmd with
    | 1 =>
      if st ≠ 0 then 1
      else if !d.b (pPTN i) PTN_SEQ_STATUS_LOADED then 2
      else if d.tableChecks i ≠ 0 then d.tableChecks i
      else d.linkChecks i
    | 2 | 5 | 6 =>
      if d.snapBusy i then 10
      else if !(st == 3 || (st == 2 && cmd ≠ 6)) then 1
      else if cmd ≠ 2 && count == 0 then 6
      else if st == 2 && d.tableChecks i ≠ 0 then d.tableChecks i
      else if cmd ≠ 6 then d.linkChecks i else 0
    | 3 => if st == 0 then 1 else 0
    | 4 => if st == 1 then 0 else 1
    | 7 => if d.snapBusy i then 10 else if st == 0 then 1 else 0
    | _ => 7

/-- The CMD_ERR code of START on the lead of a linked partition (R175): of the first check, in the rules' order, that fails here, with code
`own`, or on another device. What the lead learns of the others is free. -/
def startCode (d : Dev) (own : Nat) : Nat := ([1, 2, 3, 4, 5, 11, 12, 9].find? fun c => own == c || Config.farChecks d.fresh == c).getD 0

/-- The CMD_ERR code with which a command is refused, else 0: NOT_LEAD comes before every other check, which R152 and R175 leave open
(DESIGN CHOICE, log entry 60). -/
def refusal (d : Dev) (i cmd : Nat) : Nat :=
  if (cmd == 1 || cmd == 2 || cmd == 5 || cmd == 6 || cmd == 7) && d.notLead i then 13
  else
    let own := d.checksOf i cmd (d.g (pPTN i) PTN_STEP_COUNT_COUNT)
    if cmd == 1 && d.linked i then d.startCode own else own

/-- HARD_FREEZE of a partition that runs (R96, R98, R178). At a boundary where a freeze is due or settles, it stops the partition there, and
the freeze stays pending (DEDUCED, log entry 10). -/
def hardReq (d : Dev) (i : Nat) : Dev :=
  let x := d.ptnAt i
  if d.settling i then d.enterHard i 9
  else if x.due ≠ .none then (d.dueFreeze i).enterHard i 9
  else if d.linked i then
    let e := x.exec + d.horizon i
    (d.setPtn i { x with freezeAt := x.freezeAt ++ [(e, 9, true)] }).controlPtn i 6 (cmdBody i 4 e 0)
  else d.enterHard i 9

/-- SEQ_CMD is written (R96, R104). -/
def seqCommand (d : Dev) (i cmd : Nat) : Dev :=
  let code := d.refusal i cmd
  let d := d.iff (cmd == 1 && d.linked i) tick
  if code ≠ 0 then d.cmdErr i code
  else
    let d := d.cmdErr i 0
    match cmd with
    | 3 => d.freezeReq i 1
    | 4 => d.hardReq i
    | _ => d.issueCommand i cmd

/-- A register write to the fields of a list at an offset: RW fields take the bits, RW1C bits written 1 are cleared, others are kept (R7).
Ones written to reserved bits, whose result R3 leaves open, are dropped (DESIGN CHOICE, log entry 63). -/
def writeWord (d : Dev) (base off v : Nat) (fs : List Fld) : Dev :=
  d.each (fs.filter (·.off == off)) fun d f =>
    match f.acc with
    | .rw => d.p base f (bitsAt v f.lo f.w)
    | .rw1c => d.p base f (d.g base f &&& (2 ^ f.w - 1 - bitsAt v f.lo f.w))
    | _ => d

/-- A write to the sequencer's tables (R108). -/
def doSeqTableWrite (d : Dev) (i off : Nat) (v : W32) : Dev :=
  if !(0x200 ≤ off && off < 0x600 && off % 4 == 0) then d
  else if d.seqState i == 0 || d.seqState i == 2 then (d.writeWord (pPTN i) off v.toNat fldsPTN).dropSamples i
  else d.cmdErr i 8

/-- STALL_RELEASE: the held step executes once every port is ready (R99). -/
def doStallRelease (d : Dev) (i : Nat) : Dev :=
  match (d.ptnAt i).runs with
  | ⟨_, g :: _⟩ :: _ => if d.b (pPTN i) PTN_SEQ_STATUS_STALLED && d.blockers i g.step == 0 then d.doExecuteStep i else d
  | _ => d

/-- A count or limit that a boundary reached freezes the partition (R93, R96). -/
def doDue (d : Dev) (i : Nat) (due : Due) : Dev := if d.seqState i ≠ 0 && (d.ptnAt i).due == due then d.dueFreeze i else d

/-- The STEP_STEPS count is reached: the partition stays HARD_FROZEN, or freezes at the boundary that came first (R96). -/
def doStepStepsCountReached (d : Dev) (i : Nat) : Dev :=
  if (d.ptnAt i).stepsLeft == some 0 && (d.ptnAt i).due == .none then d.modPtn i fun x => { x with stepsLeft := none }
  else d.doDue i .stepSteps

/-- TIMEOUT µs with a freeze pending while stalled (R100); a linked partition has no such stall (R101). -/
def doFreezeTimeout (d : Dev) (i : Nat) : Dev :=
  let b := pPTN i
  match (d.ptnAt i).pend with
  | [] => d
  | c :: cs =>
    if d.seqState i == 1 && !d.settling i && !d.linked i && d.b b PTN_SEQ_STATUS_FREEZE_PENDING && d.b b PTN_SEQ_STATUS_STALLED &&
        d.g b PTN_FREEZE_CFG_TIMEOUT ≠ 0 then
      ((d.on b PTN_SEQ_STATUS_ESCALATED).irq b 3).enterHard i (lowest c cs)
    else d

/-! Messages of a linked partition. -/

/-- A message is passed on over the partition's other AL2 links (R182). -/
def passOn (d : Dev) (i gi kind body : Nat) : Dev :=
  d.each ((d.slotLinks i).filter (· ≠ gi)) fun d o => if d.al2 o then d.control o kind body else d

/-- A message of a linked partition comes over a link (R182, R242): one that is broken is counted, an AL1 link carries none. -/
def linkedMsg (d : Dev) (gi i : Nat) (intact : Bool) (k : Dev → Dev) : Dev :=
  if !d.al2 gi then d else if !intact then d.ctlBad gi else if !d.linked i then d else k d

/-- The executed step of which a message carries the low 32 bits, as `exec` steps are executed now; one that has passed acts now (R178). -/
def stepNear (exec count : Nat) : Nat :=
  let k := (count + 2 ^ 32 - exec % 2 ^ 32) % 2 ^ 32
  if k < 2 ^ 31 then exec + k else exec

/-- A freeze, or a hard freeze, of a linked partition is due at executed step `e` (R178), where the partition takes one (R97, R98): a freeze that
waits for its boundary shows as FREEZE_PENDING (R105). -/
def freezeAtStep (d : Dev) (i e : Nat) (hard : Bool) : Dev :=
  if d.settling i || !(d.seqState i == 1 || (!hard && d.seqState i == 3)) then d
  else
    let d := d.modPtn i fun x => { x with freezeAt := x.freezeAt ++ [(e, if hard then 9 else 1, hard)] }
    d.iff (!hard) fun d => d.on (pPTN i) PTN_SEQ_STATUS_FREEZE_PENDING

/-- A COMMAND message arrives (R175, R178). A linked freeze travels as command 3, a hard freeze as command 4, and the receivers record causes
1 and 9: the message has no field for the cause (DESIGN CHOICE, log entry 60). -/
def doLinkedCommand (d : Dev) (gi i cmd : Nat) (count : W32) (dist : Nat) (intact : Bool) : Dev :=
  d.linkedMsg gi i intact fun d =>
    let d := d.passOn i gi 6 (cmdBody i cmd count.toNat (dist + d.g pLNK (LNK_BUDGET_BUDGET gi) + 2))
    if cmd == 3 || cmd == 4 then d.freezeAtStep i (stepNear (d.ptnAt i).exec count.toNat) (cmd == 4)
    else d.modPtn i fun x => { x with linkCmd := x.linkCmd ++ [(cmd, count.toNat)] }

/-- The oldest linked command takes effect, where this device's own checks pass (R152, R175). The lead sends START only where the checks passed on
every device, so that a device whose checks fail now gets none; it does not start. -/
def doLinkedCommandEffect (d : Dev) (i : Nat) : Dev :=
  match (d.ptnAt i).linkCmd with
  | [] => d
  | (cmd, count) :: rest =>
    let d := d.modPtn i fun x => { x with linkCmd := rest }
    let code := d.checksOf i cmd count
    if code ≠ 0 then d.cmdErr i code else d.commandNow i cmd count

/-- HOLD(E) arrives (R177). -/
def doHold (d : Dev) (gi i e : Nat) (intact : Bool) : Dev :=
  d.linkedMsg gi i intact fun d =>
    let d := d.passOn i gi 3 (i ||| e <<< 4)
    if e < (d.ptnAt i).exec then (d.on pLNK LNK_SYS_STATUS_LATE_HOLD).raiseSysFreeze
    else d.modPtn i fun x =>
      if x.holds.any (fun h => h.e == e) then { x with holds := x.holds.map fun h => if h.e == e then { h with heard := h.heard + 1 } else h }
      else { x with holds := x.holds ++ [⟨e, false, false, false, 1, 0⟩] }

/-- READY(E) arrives: the lead gives GO once every asker is ready (R177). -/
def doReady (d : Dev) (gi i e : Nat) (intact : Bool) : Dev :=
  d.linkedMsg gi i intact fun d =>
    let d := d.passOn i gi 4 (i ||| e <<< 4)
    (d.modPtn i fun x => { x with holds := x.holds.map fun h => if h.e == e then { h with answered := h.answered + 1 } else h }).leadGo i e

/-- GO arrives (R177). -/
def doGo (d : Dev) (gi i e : Nat) (intact : Bool) : Dev :=
  d.linkedMsg gi i intact fun d => (d.passOn i gi 5 (i ||| e <<< 4)).modPtn i fun x => { x with holds := x.holds.map fun h => if h.e == e then { h with go := true } else h }

/-- H steps after GO the hold ends (R177). -/
def doSystemHoldRelease (d : Dev) (i : Nat) : Dev :=
  let x := d.ptnAt i
  if x.holds.any (fun h => h.e == x.exec && h.go) then
    let d := d.setPtn i { x with holds := x.holds.filter (fun h => h.e ≠ x.exec) }
    (d.p (pPTN i) PTN_SEQ_STATUS_STALLED 0).p (pPTN i) PTN_SEQ_STATUS_STALL_SRC 0
  else d

/-- A neighbour's step count arrives (R176). -/
def doSteps (d : Dev) (gi i : Nat) (cycle : BitVec 48) (count : Nat) (intact : Bool) : Dev :=
  d.linkedMsg gi i intact fun d => ({ d with sys := { d.sys with skew := (16 + i, cycle.toNat, count) :: d.sys.skew } }).compareSteps i

end Dev

/-- EXECUTE_STEP (R94). -/
def execExecuteStep (p : Fin 16) (s : State) : Host.Outcome State Fault Refusal := main s fun d => d.doExecuteStep p
/-- A cascade that reached its limit freezes the partition at the end of the instant (R93). -/
def execCascadeLimit (p : Fin 16) (s : State) : Host.Outcome State Fault Refusal := main s fun d => d.doDue p .cascade
/-- RUN_LIMIT is reached (R96). -/
def execRunLimitReached (p : Fin 16) (s : State) : Host.Outcome State Fault Refusal := main s fun d => d.doDue p .runLimit
/-- The STEP_CYCLES count is reached (R96). -/
def execStepCyclesCountReached (p : Fin 16) (s : State) : Host.Outcome State Fault Refusal := main s fun d => d.doDue p .stepCycles
/-- The STEP_STEPS count is reached (R96). -/
def execStepStepsCountReached (p : Fin 16) (s : State) : Host.Outcome State Fault Refusal := main s fun d => d.doStepStepsCountReached p
/-- A stall ends (R99). -/
def execStallRelease (p : Fin 16) (s : State) : Host.Outcome State Fault Refusal := main s fun d => d.doStallRelease p
/-- SEQ_CMD START (R96). -/
def execStart (p : Fin 16) (s : State) : Host.Outcome State Fault Refusal := main s fun d => d.atPtn p fun d => d.seqCommand p 1
/-- SEQ_CMD RESUME (R96). -/
def execResume (p : Fin 16) (s : State) : Host.Outcome State Fault Refusal := main s fun d => d.atPtn p fun d => d.seqCommand p 2
/-- SEQ_CMD FREEZE (R96). -/
def execFreeze (p : Fin 16) (s : State) : Host.Outcome State Fault Refusal := main s fun d => d.atPtn p fun d => d.seqCommand p 3
/-- SEQ_CMD HARD_FREEZE (R98). -/
def execHardFreeze (p : Fin 16) (s : State) : Host.Outcome State Fault Refusal := main s fun d => d.atPtn p fun d => d.seqCommand p 4
/-- SEQ_CMD STEP_CYCLES (R96). -/
def execStepCycles (p : Fin 16) (s : State) : Host.Outcome State Fault Refusal := main s fun d => d.atPtn p fun d => d.seqCommand p 5
/-- SEQ_CMD STEP_STEPS (R96). -/
def execStepSteps (p : Fin 16) (s : State) : Host.Outcome State Fault Refusal := main s fun d => d.atPtn p fun d => d.seqCommand p 6
/-- SEQ_CMD STOP (R96). -/
def execStop (p : Fin 16) (s : State) : Host.Outcome State Fault Refusal := main s fun d => d.atPtn p fun d => d.seqCommand p 7
/-- A SEQ_CMD code that is not defined (R104); a defined one is that command. -/
def execSeqCmdInvalid (p : Fin 16) (code : Fin 16) (s : State) : Host.Outcome State Fault Refusal := main s fun d => d.atPtn p fun d => d.seqCommand p code
/-- A pending freeze becomes a hard freeze (R100). -/
def execFreezeTimeout (p : Fin 16) (s : State) : Host.Outcome State Fault Refusal := main s fun d => d.doFreezeTimeout p
/-- A table write (R108). -/
def execSeqTableWrite (p : Fin 16) (off : Nat) (v : W32) (s : State) : Host.Outcome State Fault Refusal := main s fun d => d.atPtn p fun d => d.doSeqTableWrite p off v
/-- A COMMAND message (R175). -/
def execLinkedCommand (g : Fin 16) (p : Fin 16) (cmd : Fin 16) (count : W32) (dist : Nat) (intact : Bool) (s : State) :
    Host.Outcome State Fault Refusal := main s fun d => d.doLinkedCommand g p cmd count dist intact
/-- A linked command takes effect (R175). -/
def execLinkedCommandEffect (p : Fin 16) (s : State) : Host.Outcome State Fault Refusal := main s fun d => d.doLinkedCommandEffect p
/-- A HOLD message (R177). -/
def execHold (g : Fin 16) (p : Fin 16) (e : Nat) (intact : Bool) (s : State) : Host.Outcome State Fault Refusal := main s fun d => d.doHold g p e intact
/-- A READY message (R177). -/
def execReady (g : Fin 16) (p : Fin 16) (e : Nat) (intact : Bool) (s : State) : Host.Outcome State Fault Refusal := main s fun d => d.doReady g p e intact
/-- A GO message (R177). -/
def execGo (g : Fin 16) (p : Fin 16) (e : Nat) (intact : Bool) (s : State) : Host.Outcome State Fault Refusal := main s fun d => d.doGo g p e intact
/-- A hold ends (R177). -/
def execSystemHoldRelease (p : Fin 16) (s : State) : Host.Outcome State Fault Refusal := main s fun d => d.doSystemHoldRelease p
/-- A STEPS message (R176). -/
def execSteps (g : Fin 16) (p : Fin 16) (cycle : BitVec 48) (count : Nat) (intact : Bool) (s : State) : Host.Outcome State Fault Refusal :=
  main s fun d => d.doSteps g p cycle count intact

end Sys2Proof.Machine
end

