-- ==== Sys2Proof/Machine/Access.lean ====
section
/-! DEFINITION. Who reaches what: register pages of a function (R11, R166, R194, R424, R425, R433), cluster pages behind their network
interfaces (R268 to R270), and how an access that fails completes. -/

namespace Sys2Proof.Machine

/-- How an access is received: served, completed without effect during a reset (R425), or at a page base that no page occupies (R11). -/
inductive Reach | yes | hush | no
deriving DecidableEq, Repr

/-- Whether the PF's BAR0 has a page at a base (R433). -/
def pageExists (base : Nat) : Bool :=
  base % 0x1000 == 0 && (base < 0x40000 || (0x100000 ≤ base && base < 0x500000))

namespace Dev

/-- The pages the boot function answers (R194). -/
def bootPage (base : Nat) : Bool := [pDEV, pAON, pWDN, pRST, pFUS, pLOG, pLDR].contains base

/-- How function `fn` reaches the page at `base` of the PF's BAR0. -/
def reach (d : Dev) (fn : Fn) (base : Nat) : Reach :=
  if !d.active || d.pwr.fnReset.contains fn then .hush
  else match fn with
    | .pf => if pageExists base && (d.full || bootPage base) then .yes else .no
    | .vf i =>
      let own := match cluOf base with | some n => d.owns i n | none => base == pPTN i
      if d.vfLive i && own then .yes else .no

/-- A command of a page that only the PF reaches (R11, R425). -/
def atPage (d : Dev) (base : Nat) (k : Dev → Dev) : Dev := if d.reach .pf base == .yes then k d else d

/-- The fence logic answers UNREACHABLE (R269). -/
def unreachable (d : Dev) : Dev := d.add pNOC NOC_UNREACH_COUNT 1

/-- A host access on its way to what stands behind endpoint `h` (R262, R268): the fence logic of a cluster that is not ACTIVE answers UNREACHABLE
(R269), which is an access error. -/
def viaFence (d : Dev) (fn : Fn) (h : Option Nat) (off : Nat) (write : Bool) (fail k : Dev → Dev) : Dev :=
  d.viaNoc fn h 0 off write fail fun d =>
    match h with
    | some n =>
      if n < 0x40 && d.niState n ≠ 0 then
        fail (if d.heard h then d.unreachable.accessError fn 0 off write else if write then d.unreachable else d.unreachable.hostTimeout fn h 0 off false)
      else k d
    | none => k d

/-- An access to a page of cluster `n`: `k` where it is served; a read that is not completes with all ones and a write is discarded. -/
def atCluster (d : Dev) (fn : Fn) (n a : Nat) (write : Bool) (k : Dev → Dev) : Dev :=
  let fail (d : Dev) : Dev := if write then d else d.complete fn a 0xFFFFFFFF
  match d.reach fn (a / 0x1000 * 0x1000) with
  | .hush => fail d
  | .no => fail d
  | .yes => d.viaFence fn (some n) (d.barOff fn a) write fail k

/-- The sequencer state that window and configuration accesses of a cluster depend on (R146): 0 with no partition. -/
def cluSeq (d : Dev) (n : Nat) : Nat := match d.ownerOf n with | some i => d.seqState i | none => 0
/-- Snapshot STATE of a cluster's partition. -/
def cluSnap (d : Dev) (n : Nat) : Nat := match d.ownerOf n with | some i => d.g (pPTN i) PTN_SNAP_STATUS_STATE | none => 0
/-- Whether a cluster's partition is under reset. -/
def cluBusy (d : Dev) (n : Nat) : Bool := match d.ownerOf n with | some i => d.ptnBusy i | none => false

end Dev
end Sys2Proof.Machine
end

