-- ==== Sys2Proof/Machine/Cluster.lean ====
section
/-! DEFINITION. Commands of the cluster pages: write-backs and counts of errors (R48 to R53, R78 to R82, R124, R133, R136), design
memory, far port and transactor port configuration (R134, R141, R289), far accesses (R138 to R140), read copies and write credits (R288). -/

namespace Sys2Proof.Machine

namespace Dev

/-- A corrected instruction word is written back and counted (R48, R78). -/
def doWriteBack (d : Dev) (n : Nat) (walu : Bool) (t unit s : Nat) : Dev :=
  if walu then
    let k := ixWa n t (unit % 2) s
    if !(d.cluAt n).wlBack.contains k then d
    else
      let d := d.modClu n fun c => { c with wlBack := c.wlBack.filter (· ≠ k) }
      match secdedCheck 96 103 (d.waWord k).data.toNat (d.waWord k).chk.toNat with
      | .ce v _ =>
        let d := (d.setWa k (freshEcc 96 v)).add (pCLU n) CLU_WLI_CE_COUNT_COUNT 1
        d.cluIrq n 2 (d.wliLast n)
      | _ => d
  else
    let k := ixBp n t unit s
    if !(d.cluAt n).bpBack.contains k then d
    else
      let d := d.modClu n fun c => { c with bpBack := c.bpBack.filter (· ≠ k) }
      match secdedCheck 80 87 (d.bpWord k).data.toNat (d.bpWord k).chk.toNat with
      | .ce v _ =>
        let d := (d.setBp k (freshEcc 80 v)).add (pCLU n) CLU_BPI_CE_COUNT_COUNT 1
        d.cluIrq n 0 (d.bpiLast n)
      | _ => d

/-- A corrected row is written back (R133). -/
def doRowWriteBack (d : Dev) (n m row : Nat) : Dev :=
  let k := ixRow n m row
  if !(d.cluAt n).rowBack.contains k then d
  else
    let d := d.modClu n fun c => { c with rowBack := c.rowBack.filter (· ≠ k) }
    match secdedCheck 96 103 (d.rowEcc k).data.toNat (d.rowEcc k).chk.toNat with
    | .ce v _ => (d.setRow k (freshEcc 96 v)).rowBackDone n
    | _ => d

/-- BPI_ECC_CTRL.CLR_COUNTS (R53). -/
def doBpiClr (d : Dev) (n : Nat) : Dev := (d.clr (pCLU n) CLU_BPI_CE_COUNT_COUNT).clr (pCLU n) CLU_BPI_UE_COUNT_COUNT
/-- WLI_ECC_CTRL.CLR_COUNTS (R82). -/
def doWliClr (d : Dev) (n : Nat) : Dev := (d.clr (pCLU n) CLU_WLI_CE_COUNT_COUNT).clr (pCLU n) CLU_WLI_UE_COUNT_COUNT
/-- FAB_PAR_CTRL.CLR_COUNT (R124). -/
def doFabClr (d : Dev) (n : Nat) : Dev := d.clr (pCLU n) CLU_FAB_PAR_COUNT_COUNT
/-- DMEM_ECC_CTRL.CLR_COUNTS (R136). -/
def doDmemClr (d : Dev) (n : Nat) : Dev := (d.clr (pCLU n) CLU_DMEM_CE_COUNT_COUNT).clr (pCLU n) CLU_DMEM_UE_COUNT_COUNT

/-- Whether configuration of a cluster may be written: its partition is STOPPED, or it has none (R134, R141, R289). -/
def cfgOpen (d : Dev) (n : Nat) : Bool := d.cluSeq n == 0 && !d.cluBusy n

/-- A write to DMEM_CFGm or an event word (R134, R135). -/
def doDmemCfg (d : Dev) (n off v : Nat) : Dev :=
  if d.cfgOpen n && off % 4 == 0 && ((0x300 ≤ off && off < 0x320) || (0x400 ≤ off && off < 0x800)) then d.writeWord (pCLU n) off v fldsCLU else d
/-- A write to a far memory port register (R141). -/
def doFmpCfg (d : Dev) (n off v : Nat) : Dev :=
  if d.cfgOpen n && off % 4 == 0 && 0x240 ≤ off && off < 0x280 then d.writeWord (pCLU n) off v fldsCLU else d
/-- A write to a transactor port register (R289): read copies and credits of a port that changes are given up. -/
def doTxpCfg (d : Dev) (n off v : Nat) : Dev :=
  if d.cfgOpen n && off % 4 == 0 && 0x280 ≤ off && off < 0x300 then
    (d.releasePort n ((off - 0x280) / 16)).writeWord (pCLU n) off v fldsCLU
  else d

/-! Far accesses. -/

/-- A far access that failed its integrity check (R140): zeros or nothing written, counted, recorded and raised as an upset. The row
and block that DMEM_ERR_LAST shows for it are free. -/
def farUe (d : Dev) (n f addr : Nat) : Dev :=
  let d := (d.tick.recordRow n ((Config.freeWord d.fresh 0).toNat % 8) ((Config.freeWord d.fresh 1).toNat % 8192) true).add (pCLU n) CLU_DMEM_UE_COUNT_COUNT 1
  (d.cluIrq n 6 (d.dmemLast n)).raiseUpset n (.far (Fin.ofNat 4 f) addr) false

/-- A far access completed with a status (R140, R268): any other than OK, but for a refusal with ACCESS, is an upset. -/
def farStatus (d : Dev) (n f addr status : Nat) : Dev := if status == 0 || status == 5 then d else d.farUe n f addr

/-- The requester learns the status of a far access where the HBM port's response has a route to it (R261); else it times out (R265). -/
def farHeard (d : Dev) (n f addr status : Nat) : Dev := d.iff (status == 2 || d.routed (hbmDest addr) n) fun d => d.farStatus n f addr status

/-- HBM performs one access of a port: a read's bytes are fetched, a write's stored. -/
def farPerform (d : Dev) (n f : Nat) (a : FarAcc) : Dev × FarAcc :=
  let r := ptnReq n ((d.ownerOf n).getD 0)
  if a.write then
    if a.done then (d, a)
    else let w := d.hbmWrite r a.addr a.data; (w.1.farHeard n f a.addr w.2, { a with done := true })
  else if a.done || !a.valid then (d, a)
  else let w := d.hbmRead r a.addr a.size; (w.1.farHeard n f a.addr w.2.1, { a with valid := false, data := w.2.2 })

/-- HBM performs the first `k` accesses of a port in issue order (R139). -/
def farPrefix (d : Dev) (n f k : Nat) : Dev :=
  let r := ((d.farOf n f).take k).foldl (fun r a => let x := r.1.farPerform n f a; (x.1, r.2 ++ [x.2])) (d, ([] : List FarAcc))
  r.1.setFar n f (r.2 ++ (d.farOf n f).drop k)

/-- The response buffer of access `k` of a port is freed. -/
def farFree (d : Dev) (n f k : Nat) : Dev :=
  match ((d.farOf n f)[k]?).bind (·.tag) with
  | some t => (d.setFar n f ((d.farOf n f).modify k fun a => { a with tag := none })).freeOutst n t
  | none => d

/-- Access `k` of a port ends: a read's data is in the port, a write is acknowledged. -/
def farEnd (d : Dev) (n f k : Nat) : Dev :=
  let d := d.farFree n f k
  match (d.farOf n f)[k]? with
  | some a =>
    if a.write then (d.setFar n f ((d.farOf n f).eraseIdx k)).farAcked n f (((d.farOf n f).take k).countP (·.write))
    else d.setFar n f ((d.farOf n f).modify k fun a => { a with done := true })
  | none => d

/-- Access `k` of a port is performed and ends; one that still waits for a response buffer, or at an interface that sends no more, is not on its
way (R264, R269), and one whose response has no route does not end so (R261, R265). -/
def farComplete (d : Dev) (n f k : Nat) : Dev :=
  let d := d.farReserve n f
  match (d.farOf n f)[k]? with
  | some a =>
    if a.tag.isNone && (d.niState n ≠ 0 || d.hbmRouted n a.addr a.size) then d
    else (d.farPrefix n f (k + 1)).iff (a.tag.isNone || d.routed (hbmDest a.addr) n) fun d => d.farEnd n f k
  | none => d

/-- Read data arrives at its port (R138). -/
def doFarRead (d : Dev) (n f : Nat) : Dev :=
  match (d.farOf n f).findIdx? (fun a => !a.write && !a.done) with
  | none => d
  | some k => d.farComplete n f k

/-- The oldest far write is acknowledged (R139). -/
def doFarAck (d : Dev) (n f : Nat) : Dev :=
  match (d.farOf n f).findIdx? (fun a => a.write) with
  | none => d
  | some k => d.farComplete n f k

/-- The far port and place of the access of cluster `n` that holds a tag. -/
def farByTag (d : Dev) (n tag : Nat) : Option (Nat × Nat) :=
  (List.range 4).findSome? fun f => ((d.farOf n f).findIdx? fun a => a.tag == some tag).map fun k => (f, k)

/-- Read data or an acknowledgement of access `k` comes in a packet: its bytes where the status is OK, else zeros, or nothing written
(R138 to R140, R268). -/
def farAnswered (d : Dev) (n f k status : Nat) (bs : List Byte) : Dev :=
  match (d.farOf n f)[k]? with
  | none => d
  | some a =>
    let d := if a.write then (if status == 0 then d.farPrefix n f (k + 1) else d.farPrefix n f k)
      else d.setFar n f ((d.farOf n f).set k { a with data := if status == 0 then (bs ++ List.replicate a.size 0).take a.size else List.replicate a.size 0 })
    (d.farStatus n f a.addr status).farEnd n f k

/-- Access `k` of a port times out (R265, R268): zeros for a read; whether a write had reached its target is free. -/
def farTimeout (d : Dev) (n f k : Nat) : Dev :=
  match (d.farOf n f)[k]? with
  | none => d
  | some a =>
    let d := if a.write && Config.freeBit d.fresh 0 then d.tick.farPrefix n f (k + 1) else d.tick
    let d := d.setFar n f ((d.farOf n f).modify k fun a => if a.write then a else { a with data := List.replicate a.size 0 })
    (d.farStatus n f a.addr 3).farEnd n f k

/-- Writes of cluster `n` already in the network complete at their target when their port is reset (R272); where `sure` is false, whether each
had reached it is free. -/
def landFar (d : Dev) (n : Nat) (sure : Bool) : Dev :=
  d.each (List.range 4) fun d f => d.each ((d.farOf n f).filter fun a => a.write && a.tag.isSome) fun d a =>
    if sure || Config.freeBit d.fresh 0 then (d.tick.farPerform n f a).1 else d.tick

/-- Whether every access of a partition's far ports is acknowledged or delivered (R143). -/
def farSettled (d : Dev) (i : Nat) : Bool :=
  (d.clustersOf i).all fun n => (List.range 4).all fun f => (d.farOf n f).all fun a => !a.write && a.done

/-- Every far access of cluster `n` completes (R161, R169). -/
def farDrain (d : Dev) (n : Nat) : Dev :=
  d.each (List.range 4) fun d f =>
    let d := (d.farPrefix n f 32).each ((d.farOf n f).filterMap (·.tag)) fun d t => d.freeOutst n t
    (d.setFar n f (((d.farOf n f).filter (!·.write)).map fun a => { a with done := true, tag := none })).settleFences

/-! Transactor ports (R288). -/

/-- A stored word becomes available in the read port's copy slot. -/
def doCopyFill (d : Dev) (n x : Nat) : Dev :=
  match d.portQueue n x with
  | none => d
  | some q =>
    let y := d.queueAt q
    if d.boundTo q == some (n, x) && y.copied < 4 && y.copied < y.seen.length then d.setQueue q { y with copied := y.copied + 1 } else d

/-- A write port renews a credit. -/
def doCreditRenew (d : Dev) (n x : Nat) : Dev :=
  match d.portQueue n x with
  | none => d
  | some q =>
    let y := d.queueAt q
    if d.b (pCLU n) (CLU_TXP_DIR x) && !y.priv && d.creditsOf n x < 4 && 0 < y.free then
      (d.setQueue q { y with reserved := y.reserved + 1 }).modClu n fun c => { c with credits := SMap.set 0 c.credits x (SMap.get 0 c.credits x + 1) }
    else d

end Dev

/-- CORRECTED_WORD_WRITE_BACK (R48). -/
def execCorrectedWordWriteBack (n : Fin 64) (walu : Bool) (t : Fin 32) (unit : Fin 64) (a : Fin 256) (s : State) : Host.Outcome State Fault Refusal :=
  main s fun d => d.doWriteBack n walu t unit a
/-- DMEM_ROW_WRITE_BACK (R133). -/
def execDmemRowWriteBack (n : Fin 64) (m : Fin 8) (row : Fin 8192) (s : State) : Host.Outcome State Fault Refusal := main s fun d => d.doRowWriteBack n m row
/-- BPI_CLR_COUNTS (R53). -/
def execBpiClrCounts (n : Fin 64) (s : State) : Host.Outcome State Fault Refusal :=
  main s fun d => d.atCluster .pf n (pCLU n + 0x20C) true fun d => d.doBpiClr n
/-- WLI_CLR_COUNTS (R82). -/
def execWliClrCounts (n : Fin 64) (s : State) : Host.Outcome State Fault Refusal :=
  main s fun d => d.atCluster .pf n (pCLU n + 0x21C) true fun d => d.doWliClr n
/-- FAB_CLR_COUNT (R124). -/
def execFabClrCount (n : Fin 64) (s : State) : Host.Outcome State Fault Refusal :=
  main s fun d => d.atCluster .pf n (pCLU n + 0x228) true fun d => d.doFabClr n
/-- DMEM_CLR_COUNTS (R136). -/
def execDmemClrCounts (n : Fin 64) (s : State) : Host.Outcome State Fault Refusal :=
  main s fun d => d.atCluster .pf n (pCLU n + 0x32C) true fun d => d.doDmemClr n
/-- DMEM_CFG_WRITE (R134). -/
def execDmemCfgWrite (n : Fin 64) (off : Nat) (v : W32) (s : State) : Host.Outcome State Fault Refusal :=
  main s fun d => d.atCluster .pf n (pCLU n + off % 4096) true fun d => d.doDmemCfg n off v.toNat
/-- FMP_CONFIG_WRITE (R141). -/
def execFmpConfigWrite (n : Fin 64) (off : Nat) (v : W32) (s : State) : Host.Outcome State Fault Refusal :=
  main s fun d => d.atCluster .pf n (pCLU n + off % 4096) true fun d => d.doFmpCfg n off v.toNat
/-- TXP_CONFIG_WRITE (R289). -/
def execTxpConfigWrite (n : Fin 64) (off : Nat) (v : W32) (s : State) : Host.Outcome State Fault Refusal :=
  main s fun d => d.atCluster .pf n (pCLU n + off % 4096) true fun d => d.doTxpCfg n off v.toNat
/-- FAR_READ_ARRIVAL (R138). -/
def execFarReadArrival (n : Fin 64) (f : Fin 4) (s : State) : Host.Outcome State Fault Refusal := main s fun d => d.doFarRead n f
/-- FAR_WRITE_ACK (R139). -/
def execFarWriteAck (n : Fin 64) (f : Fin 4) (s : State) : Host.Outcome State Fault Refusal := main s fun d => d.doFarAck n f
/-- TXP_COPY_FILL (R288). -/
def execTxpCopyFill (n : Fin 64) (x : Fin 8) (s : State) : Host.Outcome State Fault Refusal := main s fun d => d.doCopyFill n x
/-- TXP_CREDIT_RENEW (R288). -/
def execTxpCreditRenew (n : Fin 64) (x : Fin 8) (s : State) : Host.Outcome State Fault Refusal := main s fun d => d.doCreditRenew n x

end Sys2Proof.Machine
end

