-- ==== Sys2Proof/Machine/Windows.lean ====
section
/-! DEFINITION. Cluster windows (R144 to R146): the layouts of the target classes, which frames share (R208), and the commands. -/

namespace Sys2Proof.Machine

/-- Size in bytes of a target class (R145). -/
def classSize (c : Nat) : Nat :=
  match c with
  | 0 => 0x40000
  | 1 => 0x2000
  | 2 => 0x200
  | 3 => 0x80
  | 4 => 0x400
  | 5 => 0x100
  | 6 => 0x2000
  | 7 => 0x2000
  | 8 => 0x20000
  | _ => 0

/-- Place in its memory of the BP word at byte `o` of class 0 (R145). -/
def bpAt (n t o : Nat) : Nat := ixBp n t (o / 4096 % 64) (o / 16 % 256)
/-- Place of the WALU word at byte `o` of class 1. -/
def waAt (n t o : Nat) : Nat := ixWa n t (o / 4096 % 2) (o / 16 % 256)

/-- Bits of a row that no entry covers read as zero through the window, where the block has entries (R127). -/
def rowMask (w : Nat) : Nat := if w == 0 || 72 < w then 96 else 96 / w * w

namespace Dev

/-- 32 bits of class `c`, tile `t`, block `m` of cluster `n` from byte `o`, a multiple of 4 within the class: what is there (R145). -/
def peek (d : Dev) (n c t m o : Nat) : Nat :=
  let bits (f : Nat → Bool) : Nat := (List.range 32).foldl (fun v i => if f i then v ||| 1 <<< i else v) 0
  match c with
  | 0 => bitsAt (d.bpWord (bpAt n t o)).data.toNat (8 * (o % 16)) 32
  | 1 => bitsAt (d.waWord (waAt n t o)).data.toNat (8 * (o % 16)) 32
  | 2 => bits fun i => d.tss n t (8 * o + i)
  | 3 => bits fun i => d.tssNext (tileIx n t * 1024 + 8 * o + i)
  | 4 => d.wss n t (o / 4)
  | 5 => (d.wssNext (tileIx n t * 64 + o / 4)).toNat
  | 6 =>
    let w (j : Nat) : Nat := (d.portPar (ixPort n t j (o / 32))).data.toNat
    w (o % 32 / 2) ||| w (o % 32 / 2 + 1) <<< 16
  | 7 => (d.meshPar (ixMesh n (o % 32 / 4) (o / 32))).data.toNat
  | 8 => bitsAt ((d.rowEcc (ixRow n m (o / 16))).data.toNat % 2 ^ rowMask (d.g (pCLU n) (CLU_DMEM_CFG_WIDTH m))) (8 * (o % 16)) 32
  | _ => 0

/-- A window read of 32 bits with the check of its class (R145): the value delivered. -/
def classRead (d : Dev) (n c t m o : Nat) : Dev × Nat :=
  match c with
  | 0 =>
    let k := bpAt n t o
    let w := d.bpWord k
    match secdedCheck 80 87 w.data.toNat w.chk.toNat with
    | .ce v _ => ((d.fetchBp n k false).1, if (d.cluAt n).bpHeld.contains k then d.peek n c t m o else bitsAt v (8 * (o % 16)) 32)
    | _ => ((d.fetchBp n k false).1, d.peek n c t m o)
  | 1 =>
    let k := waAt n t o
    let w := d.waWord k
    match secdedCheck 96 103 w.data.toNat w.chk.toNat with
    | .ce v _ => ((d.fetchWa n k false).1, if (d.cluAt n).wlHeld.contains k then d.peek n c t m o else bitsAt v (8 * (o % 16)) 32)
    | _ => ((d.fetchWa n k false).1, d.peek n c t m o)
  | 6 =>
    let j := o % 32 / 2
    (((d.checkPort n (ixPort n t j (o / 32)) false).checkPort n (ixPort n t (j + 1) (o / 32)) false), d.peek n c t m o)
  | 7 => (d.checkMesh n (ixMesh n (o % 32 / 4) (o / 32)) false, d.peek n c t m o)
  | 8 =>
    let r := d.readRow n (ixRow n m (o / 16))
    (r.1, bitsAt (r.2.1 % 2 ^ rowMask (d.g (pCLU n) (CLU_DMEM_CFG_WIDTH m))) (8 * (o % 16)) 32)
  | _ => (d, d.peek n c t m o)

/-- An instruction word is rewritten: its check bits are computed, its write-back has nothing left to do. -/
def rewriteBp (d : Dev) (n k v : Nat) : Dev :=
  (d.setBp k (freshEcc 80 v)).modClu n fun c => { c with bpBack := c.bpBack.filter (· ≠ k) }
def rewriteWa (d : Dev) (n k v : Nat) : Dev :=
  (d.setWa k (freshEcc 96 v)).modClu n fun c => { c with wlBack := c.wlBack.filter (· ≠ k) }
def rewriteRow (d : Dev) (n k v : Nat) : Dev :=
  (d.setRow k (freshEcc 96 v)).modClu n fun c => { c with rowBack := c.rowBack.filter (· ≠ k) }

/-- 32 bits are written to a class at byte `o`: parity and check bits are computed (R145). -/
def classWrite (d : Dev) (n c t m o v : Nat) : Dev :=
  let part (x : Nat) : Nat := setBitsAt x (8 * (o % 16)) 32 v
  let entry (d : Dev) (i : Nat) : Dev :=
    let a := 8 * o + i
    let x := v.testBit i
    d.setSt (if a < 0x800 then d.st.apply (.res n t a x) else if a < 0xC00 then d.st.apply (.bit n t a x)
                   else d.st.setCur (tileIx n t * 1024 + (a - 0xC00)) x)
  match c with
  | 0 => if o % 16 == 12 then d else let k := bpAt n t o; d.rewriteBp n k (part (d.bpWord k).data.toNat % 2 ^ 80)
  | 1 => if o % 16 == 12 then d else let k := waAt n t o; d.rewriteWa n k (part (d.waWord k).data.toNat)
  | 2 => d.each (List.range 32) entry
  | 3 => d.each (List.range 32) fun d i => d.setSt (d.st.setNext (tileIx n t * 1024 + 8 * o + i) (v.testBit i))
  | 4 => if o / 4 < 0xC0 then d.setSt (d.st.apply (.word n t (o / 4) v))
         else d.setSt (d.st.setCurW (tileIx n t * 64 + (o / 4 - 0xC0)) (BitVec.ofNat 32 v))
  | 5 => d.setSt (d.st.setNextW (tileIx n t * 64 + o / 4) (BitVec.ofNat 32 v))
  | 6 =>
    let j := o % 32 / 2
    (d.setPort (ixPort n t j (o / 32)) (freshPar 16 (v % 65536))).setPort (ixPort n t (j + 1) (o / 32)) (freshPar 16 (v / 65536))
  | 7 => d.setMesh (ixMesh n (o % 32 / 4) (o / 32)) (freshPar 32 v)
  | 8 => if o % 16 == 12 then d else let k := ixRow n m (o / 16); d.rewriteRow n k (part (d.rowEcc k).data.toNat)
  | _ => d

/-- Class, tile, block and byte of the target that an aperture offset selects (R144, R145). -/
def winTarget (d : Dev) (n w off : Nat) : Nat × Nat × Nat × Nat :=
  let b := pWIN n w
  (d.g b WIN_WIN_SEL_CLASS, d.g b WIN_WIN_SEL_TILE, d.g b WIN_WIN_SEL_BLOCK, d.g b WIN_WIN_BASE_OFFSET / 1024 * 1024 + (off - 0x400) / 4 * 4)

/-- Whether classes 2 to 5 of this cluster are those of a fused odd member (R145). -/
def winFused (d : Dev) (n c : Nat) : Bool := 2 ≤ c && c ≤ 5 && d.oddFused n
/-- A window access to stores or design memories wakes the cluster (R382). -/
def winWake (d : Dev) (n c : Nat) : Dev := if (2 ≤ c && c ≤ 5) || c == 8 then d.wake n else d
/-- Whether an offset lies in a window's aperture. -/
def inAperture (w off : Nat) : Bool := 1 ≤ w && w ≤ 15 && 0x400 ≤ off && off < 0x800

/-- A window read served by the cluster (R145, R146): the value delivered. All ones during a restore's write pass come before RANGE: R146 does
not rank them (DESIGN CHOICE, log entry 60). -/
def winRead (d : Dev) (n w off : Nat) : Dev × Nat :=
  let (c, t, m, o) := d.winTarget n w off
  let held := (2 ≤ c && c ≤ 5) || c == 8
  if c < 9 && d.cluBusy n then (d, 0xFFFFFFFF)
  else if d.cluSnap n == 3 && held then (d, 0xFFFFFFFF)
  else if classSize c ≤ o then (d.on (pWIN n w) WIN_WIN_STATUS_RANGE, 0)
  else
    let d := d.winWake n c
    if d.winFused n c then (d, 0) else d.classRead n c t m o

/-- WINDOW_READ (R145). -/
def doWindowRead (d : Dev) (fn : Fn) (n w off : Nat) : Dev :=
  if !inAperture w off then d
  else d.atCluster fn n (pWIN n w + off) false fun d => let r := d.winRead n w off; r.1.reply fn (pWIN n w + off) r.2

/-- A window write served by the cluster (R145, R146). DENIED comes before RANGE, which is then not set: R146 does not rank them (DESIGN
CHOICE, log entry 60). -/
def winWrite (d : Dev) (n w off v : Nat) : Dev :=
  let (c, t, m, o) := d.winTarget n w off
  let b := pWIN n w
  if d.cluBusy n then d
  else if d.cluSeq n == 1 || d.cluSnap n ≠ 0 then d.on b WIN_WIN_STATUS_DENIED
  else if classSize c ≤ o then d.on b WIN_WIN_STATUS_RANGE
  else if d.winFused n c then (d.winWake n c).on b WIN_WIN_STATUS_RANGE
  else
    let d := (d.winWake n c).classWrite n c t m o v
    match d.ownerOf n with
    | some i => if d.seqState i == 3 then d.on (pPTN i) PTN_SEQ_STATUS_HOST_MODIFIED else d
    | none => d

/-- WINDOW_WRITE (R146). -/
def doWindowWrite (d : Dev) (fn : Fn) (n w off v : Nat) : Dev :=
  if !inAperture w off then d
  else d.atCluster fn n (pWIN n w + off) true fun d => d.winWrite n w off v

/-- WINDOW_READ_TIMEOUT: a class 8 read of a RUNNING partition found no free slot (R146). -/
def doWindowTimeout (d : Dev) (fn : Fn) (n w off : Nat) : Dev :=
  if !inAperture w off then d
  else d.atCluster fn n (pWIN n w + off) false fun d =>
    if d.cluSeq n == 1 && d.g (pWIN n w) WIN_WIN_SEL_CLASS == 8 then
      (d.on (pWIN n w) WIN_WIN_STATUS_BUSY).reply fn (pWIN n w + off) 0xFFFFFFFF
    else d

/-- Instruction memories, schedules, stores and design memories of cluster `n` are cleared, with held addresses and failed marks (R44,
R49, R85, R122, R159, R448). -/
def clearMemories (d : Dev) (n : Nat) : Dev :=
  { d with
    st := d.st.zero n,
    code := { bpi := SMap.delRange d.code.bpi (ixBp n 0 0 0) (ixBp (n + 1) 0 0 0),
              wli := SMap.delRange d.code.wli (ixWa n 0 0 0) (ixWa (n + 1) 0 0 0),
              port := SMap.delRange d.code.port (ixPort n 0 0 0) (ixPort (n + 1) 0 0 0),
              mesh := SMap.delRange d.code.mesh (ixMesh n 0 0) (ixMesh (n + 1) 0 0),
              dmem := SMap.delRange d.code.dmem (ixRow n 0 0) (ixRow (n + 1) 0 0) },
    fab := d.fab.filter (fun e => !regIn n e.1),
    raised := d.raised.filter (fun e => e.1 ≠ n), rewrites := d.rewrites.filter (fun e => e.1 ≠ n),
    clu := SMap.set Clu.reset d.clu n { Clu.reset with credits := (d.cluAt n).credits, far := (d.cluAt n).far } }

end Dev

/-- WINDOW_READ (R145). -/
def execWindowRead (fn : Fn) (n : Fin 64) (w : Fin 16) (off : Nat) (s : State) : Host.Outcome State Fault Refusal := main s fun d => d.doWindowRead fn n w off
/-- WINDOW_WRITE (R146). -/
def execWindowWrite (fn : Fn) (n : Fin 64) (w : Fin 16) (off : Nat) (v : W32) (s : State) : Host.Outcome State Fault Refusal :=
  main s fun d => d.doWindowWrite fn n w off v.toNat
/-- WINDOW_READ_TIMEOUT (R146). -/
def execWindowReadTimeout (fn : Fn) (n : Fin 64) (w : Fin 16) (off : Nat) (s : State) : Host.Outcome State Fault Refusal :=
  main s fun d => d.doWindowTimeout fn n w off

end Sys2Proof.Machine
end

