-- ==== Sys2Proof/Machine/Snapshot.lean ====
section
/-! DEFINITION. Snapshot save and restore (R147 to R154), the settling of a freeze (R143), and strobe requests' helper on time. -/

namespace Sys2Proof.Machine

/-- Bytes of a header and of a section (R148). -/
def snapHeader : Nat := 4096
def snapSection : Nat := 0xC4000

/-- Bytes of 8 bits each from a bit function. -/
def bitBytes (n : Nat) (f : Nat → Bool) : List Byte :=
  (List.range n).map fun i => BitVec.ofNat 8 ((List.range 8).foldl (fun v j => if f (8 * i + j) then v ||| 1 <<< j else v) 0)

namespace Dev

/-- The valid far regions of a partition in increasing number (R142): address and size. -/
def farRegions (d : Dev) (i : Nat) : List (Nat × Nat) :=
  (List.range 16).filterMap fun r =>
    let lg := d.g (pPTN i) (PTN_FREGION_LOG2SIZE r)
    if 12 ≤ lg && lg ≤ 36 then some (d.g (pPTN i) (PTN_FREGION_BASE r), 2 ^ lg) else none

/-- FUSED_MASK of a partition: bit k for each fused pair (R148). -/
def fusedOf (d : Dev) (i : Nat) : Nat := (d.ptnAt i).fusedMask

/-- Size of a snapshot of a partition (R148). -/
def snapTotal (d : Dev) (i : Nat) (far : Bool) : Nat :=
  snapHeader + (d.clustersOf i).length * snapSection + (if far then (d.farRegions i).foldl (fun a r => a + r.2) 0 else 0)

/-- The 4 KiB header (R148). -/
def snapHead (d : Dev) (i : Nat) (complete : Bool) : List Byte :=
  let b := pPTN i
  let far := d.b b PTN_SNAP_CFG_FAR
  let x := d.ptnAt i
  let body := leBytes 4 0x53505753 ++ leBytes 2 1 ++ leBytes 2 (d.clustersOf i).length ++ leBytes 8 (d.g b PTN_IMAGE_ID_ID) ++
    leBytes 8 (d.g b PTN_CYCLE_COUNT) ++ leBytes 8 (d.g b PTN_ETIME_PS) ++ leBytes 8 d.now ++ leBytes 8 (d.mask i) ++ leBytes 4 (d.fusedOf i) ++
    leBytes 4 ((if far then 1 else 0) ||| (if complete then 2 else 0)) ++ leBytes 8 (d.snapTotal i far) ++ leBytes 4 x.samples ++ List.replicate 184 0
  body ++ leBytes 4 (crc32c body) ++ List.replicate 3840 0

/-- The rows of block `m` of cluster `n`, each checked as a save reads it (R133, R148). -/
def saveRows (d : Dev) (n m : Nat) : Dev × List Byte :=
  let d := d.each (SMap.range d.code.dmem (ixRow n m 0) (ixRow n (m + 1) 0)) fun d e => (d.readRow n e.1).1
  (d, (List.range 8192).flatMap fun r =>
    let w := d.rowEcc (ixRow n m r)
    match secdedCheck 96 103 w.data.toNat w.chk.toNat with
    | .ce v _ => leBytes 12 v
    | _ => leBytes 12 w.data.toNat)

/-- Read data that far port `f` of cluster `n` holds, oldest first: reads that have arrived and are not consumed (R147). -/
def farHeld (d : Dev) (n f : Nat) : List FarAcc := (d.farOf n f).filter fun a => !a.write && a.done

/-- The first 0x3FFC bytes of the section of cluster `n` (R148): the state fields of a fused pair's odd member are zero. -/
def sectionFront (d : Dev) (n : Nat) : List Byte :=
  let odd := d.oddFused n
  let entries := (List.range 32).flatMap fun t => bitBytes 128 fun i => !odd && SMap.get false d.st.cur (tileIx n t * 1024 + i)
  let words := (List.range 32).flatMap fun t => (List.range 64).flatMap fun i => leBytes 4 (if odd then 0 else (SMap.get 0 d.st.curW (tileIx n t * 64 + i)).toNat)
  let ports := (List.range 4).flatMap fun f => (List.range 16).flatMap fun k =>
    match (d.farHeld n f)[k]? with
    | some a => (a.data ++ List.replicate 32 (0 : Byte)).take 32
    | none => List.replicate 32 (0 : Byte)
  let counts := (List.range 4).flatMap fun f => leBytes 4 (d.farHeld n f).length
  entries ++ words ++ ports ++ counts ++ List.replicate 2028 0

/-- A section: its front, the CRC over the rest, and its rows (R148). -/
def sectionBytes (front rows : List Byte) : List Byte := front ++ leBytes 4 (crc32c (front ++ rows)) ++ rows

/-- The rows of the eight blocks of cluster `n`, checked as they are read (R148). -/
def saveBlocks (d : Dev) (n : Nat) : Dev × List Byte :=
  (List.range 8).foldl (fun r m => let x := r.1.saveRows n m; (x.1, r.2 ++ x.2)) (d, ([] : List Byte))

/-- The section of cluster `n` (R148). -/
def saveSection (d : Dev) (n : Nat) : Dev × List Byte :=
  let r := d.saveBlocks n
  (r.1, sectionBytes (d.sectionFront n) r.2)

/-- Bytes written to a partition's area by the snapshot engine (R165). -/
def snapPut (d : Dev) (i a : Nat) (bs : List Byte) : Dev := d.hbmPut (ptnReq 0x9E i) a bs
/-- Bytes read from a partition's area. -/
def snapGet (d : Dev) (i a n : Nat) : Dev × List Byte := let r := d.hbmGet (ptnReq 0x9E i) a n; (r.1, r.2.2)

/-- Bytes that a save was to write when it was cut off: each of its requests was made or not, which is free (R149). -/
def cutPut (d : Dev) (i a : Nat) (bs : List Byte) : Dev :=
  d.tick.each (cut256 a bs.length) fun e c => e.iff (Config.freeBit d.fresh c.1) fun e => e.snapPut i (a + c.1) ((bs.drop c.1).take c.2)

/-- Where section `k` of a partition's area lies. -/
def sectionAt (d : Dev) (i k : Nat) : Nat := d.g (pPTN i) PTN_SNAP_BASE_ADDR + snapHeader + k * snapSection

/-- The far regions are copied between their places and the area (R148): `out` writes them to the area; `cut` says that the save was cut off. -/
def copyRegions (d : Dev) (i : Nat) (out cut : Bool) : Dev :=
  let start := d.sectionAt i (d.clustersOf i).length
  ((d.farRegions i).foldl (fun r x =>
    let g := r.1.snapGet i (if out then x.1 else r.2) x.2
    (if cut then g.1.cutPut i r.2 g.2 else g.1.snapPut i (if out then r.2 else x.1) g.2, r.2 + x.2)) (d, start)).1

/-- An operation ends with RESULT; DONE and its interrupt are set and SNAPSAVE is released (R151, R154, R411). -/
def snapEnd (d : Dev) (i result : Nat) : Dev :=
  let b := pPTN i
  let d := ((d.p b PTN_SNAP_STATUS_STATE 0).p b PTN_SNAP_STATUS_RESULT result).on b PTN_SNAP_STATUS_DONE
  ((d.mntFree (mntId 5 i 0)).modPtn i fun x => { x with retarget := x.retarget && d.dirState i == 3 }).irq b 8

/-- What refuses the start of a save (R147, R148, R154): 0 none. -/
def snapRefusal (d : Dev) (i : Nat) (save : Bool) : Nat :=
  let b := pPTN i
  let st := d.seqState i
  if st ≠ 0 && st ≠ 2 then 2
  else if !d.b b PTN_SEQ_STATUS_LOADED then 9
  else if save && d.g b PTN_SNAP_SIZE_BYTES < d.snapTotal i (d.b b PTN_SNAP_CFG_FAR) then 3
  else 0

/-- SNAPSAVE is asked of the arbiter, and the operation starts in a STATE (R151). -/
def snapBegin (d : Dev) (i st : Nat) : Dev :=
  let r := d.mntRequest (mntId 5 i 0) 0 0x10000 false
  match r.2 with
  | some _ => r.1.snapEnd i 4
  | none => ((r.1.p (pPTN i) PTN_SNAP_STATUS_STATE st).p (pPTN i) PTN_SNAP_STATUS_PROGRESS 0).wakeAll i

/-- A save starts (R147 to R151): the header is written first with COMPLETE = 0. -/
def startSave (d : Dev) (i : Nat) : Dev :=
  let code := d.snapRefusal i true
  if code ≠ 0 then d.snapEnd i code
  else
    let d := d.snapBegin i 1
    if d.g (pPTN i) PTN_SNAP_STATUS_STATE == 1 then d.snapPut i (d.g (pPTN i) PTN_SNAP_BASE_ADDR) (d.snapHead i false) else d

/-- SNAP_CMD SAVE (R147): BUSY while one runs. -/
def doSnapSave (d : Dev) (i : Nat) : Dev := if d.snapBusy i then d.p (pPTN i) PTN_SNAP_STATUS_RESULT 1 else d.startSave i

/-- The sections of a save are written (R149). -/
def saveSections (d : Dev) (i : Nat) : Dev :=
  let ns := d.clustersOf i
  (List.range ns.length).foldl (fun d k =>
    let r := d.saveSection (ns.getD k 0)
    r.1.snapPut i (r.1.sectionAt i k) r.2) d

/-- SNAP_SAVE_COMPLETE: sections, far regions, then the header with COMPLETE = 1 (R149). SNAP_CFG.FAR is read at the start, for the area's size and
the first header, and again here: R148 does not say when it is taken (DESIGN CHOICE, log entry 64). -/
def doSnapSaveComplete (d : Dev) (i : Nat) : Dev :=
  let b := pPTN i
  if d.g b PTN_SNAP_STATUS_STATE ≠ 1 then d
  else
    let d := d.saveSections i
    let d := if d.b b PTN_SNAP_CFG_FAR then d.copyRegions i true false else d
    let d := (d.p b PTN_SNAP_STATUS_PROGRESS (d.clustersOf i).length).snapPut i (d.g b PTN_SNAP_BASE_ADDR) (d.snapHead i true)
    (d.p b PTN_SNAP_CYCLE_COUNT (d.g b PTN_CYCLE_COUNT)).snapEnd i 0

/-- SNAP_CMD RESTORE (R150). -/
def doSnapRestore (d : Dev) (i : Nat) : Dev :=
  if d.snapBusy i then d.p (pPTN i) PTN_SNAP_STATUS_RESULT 1
  else
    let code := d.snapRefusal i false
    if code ≠ 0 then d.snapEnd i code else d.snapBegin i 2

/-- Whether section bytes carry their CRC (R148). -/
def sectionOk (bs : List Byte) : Bool := crc32c (bs.take 0x3FFC ++ bs.drop 0x4000) == leAt bs 0x3FFC 4

/-- The sections of a partition's area are read, and whether every one carries its CRC (R150). -/
def checkSections (d : Dev) (i : Nat) : Dev × Bool :=
  (List.range (d.clustersOf i).length).foldl (fun x k => let y := x.1.snapGet i (d.sectionAt i k) snapSection; (y.1, x.2 && sectionOk y.2)) (d, true)

/-- The RESULT of a check pass (R150), from the header's bytes `h`: `ok` says that every section carries its CRC. -/
def checkResult (d : Dev) (i : Nat) (h : List Byte) (ids : List Nat) (shape ok : Bool) : Nat :=
  if crc32c (h.take 0xFC) ≠ leAt h 0xFC 4 || leAt h 0 4 ≠ 0x53505753 || leAt h 4 2 ≠ 1 then 5
  else if !(leAt h 0x34 4).testBit 1 then 11
  else if !ids.contains (leAt h 8 8) then 6
  else if leAt h 6 2 ≠ (d.clustersOf i).length || (shape && (leAt h 0x28 8 ≠ d.mask i || leAt h 0x30 4 ≠ d.fusedOf i)) then 7
  else if !ok then 8 else 0

/-- What the check pass of a restore finds (R150): a RESULT, 0 where every check passes. `ids` are the identities accepted (R209). -/
def snapCheck (d : Dev) (i : Nat) (ids : List Nat) (shape : Bool) : Dev × Nat :=
  let r := d.snapGet i (d.g (pPTN i) PTN_SNAP_BASE_ADDR) 256
  let s := r.1.checkSections i
  (s.1, d.checkResult i r.2 ids shape s.2)

/-- SNAP_CHECK_COMPLETE: the restore is refused, or its write pass starts (R150). -/
def doSnapCheckComplete (d : Dev) (i : Nat) : Dev :=
  let b := pPTN i
  if d.g b PTN_SNAP_STATUS_STATE ≠ 2 then d
  else
    let due := (d.ptnAt i).retarget
    let r := d.snapCheck i [d.g b PTN_IMAGE_ID_ID, d.g b PTN_ORIGIN_ID] (!due)
    if r.2 ≠ 0 then r.1.snapEnd i r.2 else (r.1.p b PTN_SNAP_STATUS_STATE 3).p b PTN_SNAP_STATUS_PROGRESS 0

/-- The state fields of a section as both copies of a cluster's state (R150). -/
def loadStores (s : Stores) (n : Nat) (bs : List Byte) : Stores :=
  let bit (t i : Nat) : Bool := (bs.getD (128 * t + i / 8) 0).getLsbD (i % 8)
  let s := (List.range 32).foldl (fun s t => (List.range 1024).foldl (fun s i => s.setBoth (tileIx n t * 1024 + i) (bit t i)) s) s
  (List.range 32).foldl (fun s t => (List.range 64).foldl (fun s i => s.setBothW (tileIx n t * 64 + i) (BitVec.ofNat 32 (leAt bs (0x1000 + 256 * t + 4 * i) 4))) s) s

/-- The held far data of a section goes to the ports of cluster `n`, whose accesses in flight complete first (R139, R150). -/
def loadFar (d : Dev) (n : Nat) (bs : List Byte) : Dev :=
  (d.farDrain n).each (List.range 4) fun d f =>
    let size := d.farBytes n f
    d.setFar n f ((List.range (Nat.min 16 (leAt bs (0x3800 + 4 * f) 4))).map fun k => ⟨false, false, 0, (bs.drop (0x3000 + 0x200 * f + 32 * k)).take size, size, true, none⟩)

/-- The rows of block `m` of cluster `n` take their bytes of a section (R150). -/
def loadBlock (d : Dev) (n : Nat) (bs : List Byte) (m : Nat) : Dev :=
  d.each (List.range 8192) fun d r => d.rewriteRow n (ixRow n m r) (leAt bs (0x4000 + m * 0x18000 + 12 * r) 12)

/-- A section is loaded into cluster `n` (R150): both copies of its state, the held far data, its blocks. -/
def loadSection (d : Dev) (n : Nat) (bs : List Byte) : Dev :=
  ((d.setSt (if d.oddFused n then d.st else loadStores d.st n bs)).loadFar n bs).each (List.range 8) fun d m => d.loadBlock n bs m

/-- Section `k` of a partition's area goes to cluster `n` (R150). -/
def restoreSection (d : Dev) (i k n : Nat) : Dev :=
  let y := d.snapGet i (d.sectionAt i k) snapSection
  y.1.loadSection n y.2

/-- The write pass of a restore (R150, R35, R36, R64): the sequencer is left FROZEN with its counters and samples restored. -/
def loadSnapshot (d : Dev) (i : Nat) : Dev :=
  let b := pPTN i
  let ns := d.clustersOf i
  let d := (d.forgetSteps i).forgetSigs i
  let r := d.snapGet i (d.g b PTN_SNAP_BASE_ADDR) 256
  let h := r.2
  let d := (List.range ns.length).foldl (fun d k => d.restoreSection i k (ns.getD k 0)) r.1
  let d := if (leAt h 0x34 4).testBit 0 then d.copyRegions i false false else d
  let d := d.tick.setSt ((d.execClusters i).foldl (fun s n => (s.forgetWin n (d.fresh + 1)).forgetFab n (d.fresh + 1)) d.st)
  let d := ((d.p b PTN_CYCLE_COUNT (leAt h 0x10 8)).p b PTN_ETIME_PS (leAt h 0x18 8)).p b PTN_SEQ_STATUS_STATE 2
  (d.p b PTN_POSITION_IN_CYCLE 0).modPtn i fun x =>
    { x with first := false, samples := leAt h 0x40 4, sampled := maskOf (d.sourcesOf i 2), runs := [], idle := 0, rises := 0, falls := 0, due := .none, settle := none, cycleSteps := 0, passes := 0, esRan := 0, segRan := 0, taps := [] }

/-- SNAP_RESTORE_COMPLETE (R150). -/
def doSnapRestoreComplete (d : Dev) (i : Nat) : Dev :=
  let b := pPTN i
  if d.g b PTN_SNAP_STATUS_STATE ≠ 3 then d
  else
    let was := d.seqState i
    let d := if (d.ptnAt i).retarget then d.p pDEV (DEV_DIR_RESTORE_DUE i) 0 else d
    let d := (d.loadSnapshot i).p b PTN_SNAP_STATUS_PROGRESS (d.clustersOf i).length
    let d := if was == 2 then d else d.frozenIrq i
    let late := (d.ptnAt i).pend
    let d := if late.isEmpty then d else (d.p b PTN_SEQ_STATUS_FREEZE_PENDING 0).modPtn i fun x => { x with pend := [] }
    d.snapEnd i 0

/-- A save that is cut off (R149): sections and far regions. -/
def cutSave (d : Dev) (i : Nat) : Dev :=
  let ns := d.clustersOf i
  let d := (List.range ns.length).foldl (fun d k =>
    let r := d.saveSection (ns.getD k 0)
    r.1.cutPut i (d.sectionAt i k) r.2) d
  d.iff (d.b (pPTN i) PTN_SNAP_CFG_FAR) fun d => d.copyRegions i true true

/-- A cluster's state with every entry, word, result window and registered input free (R152). -/
def scrambleStores (s : Stores) (n gen : Nat) : Stores :=
  let s := (List.range 32768).foldl (fun s k => s.setBoth (n * 32768 + k) (Config.freeBit gen k)) s
  let s := (List.range 2048).foldl (fun s k => s.setBothW (n * 2048 + k) (Config.freeWord gen k)) s
  (s.forgetWin n gen).forgetFab n gen

/-- A free value of a design memory row. -/
def freeRow (gen k : Nat) : Nat :=
  (Config.freeWord gen (4096 + 3 * k)).toNat ||| (Config.freeWord gen (4097 + 3 * k)).toNat <<< 32 ||| (Config.freeWord gen (4098 + 3 * k)).toNat <<< 64

/-- Every row of cluster `n` becomes a free value (R152). -/
def scrambleRows (d : Dev) (n gen : Nat) : Dev := d.each (List.range 65536) fun d k => d.rewriteRow n (n * 65536 + k) (freeRow gen k)

/-- The tile stores of cluster `n` become undefined. -/
def scrambleTiles (d : Dev) (n : Nat) : Dev := d.tick.setSt (scrambleStores d.st n (d.fresh + 1))

/-- The state and the design memories of cluster `n` become undefined (R152). -/
def scrambleCluster (d : Dev) (n : Nat) : Dev := (d.scrambleTiles n).scrambleRows n (d.fresh + 1)

/-- `n` free bytes of a generation. -/
def freeBytes (gen n : Nat) : List Byte := (List.range n).map fun k => (Config.freeWord gen k).setWidth 8

/-- The read data held in the far ports of cluster `n` becomes undefined, in number and in value (R147, R152); accesses in flight
complete first (R139). -/
def scrambleFar (d : Dev) (n : Nat) : Dev :=
  (d.farDrain n).each (List.range 4) fun d f =>
    let d := d.tick
    let size := d.farBytes n f
    d.setFar n f ((List.range ((Config.freeWord d.fresh 0).toNat % 17)).map fun k => ⟨false, false, 0, ((freeBytes d.fresh (32 * 17)).drop (32 * (k + 1))).take size, size, true, none⟩)

/-- The state of a partition becomes undefined (R152): all that a restore loads (R147, R150), the far regions where `far`. -/
def scrambleState (d : Dev) (i : Nat) (far : Bool) : Dev :=
  let b := pPTN i
  let d := d.each (d.clustersOf i) fun d n => (d.scrambleCluster n).scrambleFar n
  let d := d.tick
  let v (k : Nat) : Nat := (Config.freeWord d.fresh k).toNat
  let d := (d.p b PTN_CYCLE_COUNT (v 0 ||| v 1 <<< 32)).p b PTN_ETIME_PS (v 2 ||| v 3 <<< 32)
  let d := d.modPtn i fun x => { x with samples := v 4, sampled := maskOf (d.sourcesOf i 2) }
  if far then d.each (d.farRegions i) fun d r => d.tick.snapPut i r.1 (freeBytes d.fresh r.2) else d

/-- A partition's image is no longer loaded: READY becomes OPEN (R161). -/
def unload (d : Dev) (i : Nat) : Dev :=
  let d := d.p (pPTN i) PTN_SEQ_STATUS_LOADED 0
  if d.dirState i == 2 then d.p pDEV (DEV_DIR_STATE i) 1 else d

/-- SNAP_CMD ABORT (R152). -/
def doSnapAbort (d : Dev) (i : Nat) : Dev :=
  match d.g (pPTN i) PTN_SNAP_STATUS_STATE with
  | 1 => (d.cutSave i).snapEnd i 10
  | 2 => d.snapEnd i 10
  | 3 =>
    let far := (leAt (d.snapGet i (d.g (pPTN i) PTN_SNAP_BASE_ADDR) 256).2 0x34 4).testBit 0
    ((d.scrambleState i far).unload i).snapEnd i 10
  | _ => d

/-- FREEZE_SETTLED (R143): STATE shows FROZEN once every far access is acknowledged or delivered; a selected cause saves a snapshot
(R154). -/
def doFreezeSettled (d : Dev) (i : Nat) : Dev :=
  match (d.ptnAt i).settle with
  | none => d
  | some c =>
    if !d.farSettled i || d.seqState i ≠ 1 then d
    else
      let b := pPTN i
      let d := ((d.p b PTN_SEQ_STATUS_STATE 2).p b PTN_SEQ_STATUS_FREEZE_PENDING 0).modPtn i fun x => { x with settle := none, pend := [] }
      let d := d.p b PTN_SEQ_STATUS_FREEZE_CAUSE c
      let d := d.tick.setSt ((d.execClusters i).foldl (fun s n => s.forgetWin n (d.fresh + 1)) d.st)
      let d := d.frozenIrq i
      if 1 ≤ c && (d.g b PTN_SNAP_CFG_AUTO).testBit (c - 1) then d.doSnapSave i else d

end Dev

/-- FREEZE_SETTLED (R143). -/
def execFreezeSettled (p : Fin 16) (s : State) : Host.Outcome State Fault Refusal := main s fun d => d.doFreezeSettled p
/-- SNAP_SAVE (R147). -/
def execSnapSave (p : Fin 16) (s : State) : Host.Outcome State Fault Refusal := main s fun d => d.atPtn p fun d => d.doSnapSave p
/-- SNAP_SAVE_COMPLETE (R149). -/
def execSnapSaveComplete (p : Fin 16) (s : State) : Host.Outcome State Fault Refusal := main s fun d => d.doSnapSaveComplete p
/-- SNAP_RESTORE (R150). -/
def execSnapRestore (p : Fin 16) (s : State) : Host.Outcome State Fault Refusal := main s fun d => d.atPtn p fun d => d.doSnapRestore p
/-- SNAP_CHECK_COMPLETE (R150). -/
def execSnapCheckComplete (p : Fin 16) (s : State) : Host.Outcome State Fault Refusal := main s fun d => d.doSnapCheckComplete p
/-- SNAP_RESTORE_COMPLETE (R150). -/
def execSnapRestoreComplete (p : Fin 16) (s : State) : Host.Outcome State Fault Refusal := main s fun d => d.doSnapRestoreComplete p
/-- SNAP_ABORT (R152). -/
def execSnapAbort (p : Fin 16) (s : State) : Host.Outcome State Fault Refusal := main s fun d => d.atPtn p fun d => d.doSnapAbort p

end Sys2Proof.Machine
end

