-- ==== Sys2Proof/Machine/Doorbell.lean ====
section
/-! DEFINITION. Host doorbells (R290, R291), holds that expire (R284, R286) and queue commands and registers (R295 to R298). -/

namespace Sys2Proof.Machine

namespace Dev

/-- The queue behind a doorbell slot of a function, if the slot reaches one (R290, R422, R424). -/
def slotQueue (d : Dev) (fn : Fn) (slot : Nat) : Option Nat :=
  match fn with
  | .pf => if d.full then some slot else none
  | .vf i => if d.vfLive i then d.queueOf i slot else none

/-- A BAR4 access that fails is an access error, unless a reset of the function is in progress (R425), the boot function answers (R194)
or the VF has no partition (R424): these follow R11. -/
def bar4Error (d : Dev) (fn : Fn) (off : Nat) (write : Bool) : Dev :=
  let d := if write then d else d.emit (.completion fn off (2 ^ 64 - 1))
  let there := match fn with | .pf => d.full | .vf i => d.vfLive i
  if d.pwr.fnReset.contains fn || !there then d else d.accessError fn 4 off write

/-- A doorbell write reaches its queue, or is dropped and logged (R291). -/
def atSlot (d : Dev) (fn : Fn) (slot off : Nat) (k : Dev → Nat → Dev) : Dev :=
  match d.slotQueue fn slot with
  | some q =>
    if (d.queueAt q).en && !d.pwr.fnReset.contains fn then d.viaNoc fn (some (queuePort q)) 4 off true id fun d => k d q
    else d.bar4Error fn off true
  | none => d.bar4Error fn off true

/-- DOORBELL_APPEND (R290). -/
def doDoorbell (d : Dev) (fn : Fn) (slot : Nat) (fin fence : Bool) (w : W64) : Dev :=
  d.atSlot fn slot (64 * slot + (if fin then 8 else 0) + (if fence then 16 else 0)) fun d q => d.append q (QWord.after ⟨w, fin, fence, []⟩ (d.unacked fun o => 0x90 ≤ o.src && o.src < 0x94 && o.fn == fn.index)) false

/-- DOORBELL_APPEND_MULTI (R290): 1 to 4 words, dropped whole unless all fit. -/
def doDoorbellMulti (d : Dev) (fn : Fn) (slot : Nat) (ws : List W64) : Dev :=
  if ws.isEmpty || 4 < ws.length then d.bar4Error fn (64 * slot + 32) true
  else d.atSlot fn slot (64 * slot + 32) fun d q =>
    let x := d.queueAt q
    if x.discard || ws.length ≤ x.free then d.appendAll q ws true false
    else let r := d.dropWrite q true true; r.1.notifyKinds q r.2

/-- MQE.CFG.POP_WAIT as it acts (R298). -/
def popWait (d : Dev) : Nat := Nat.min 50 (d.g pMQE MQE_CFG_POP_WAIT)

/-- POP (R286, R290, R291). -/
def doPop (d : Dev) (fn : Fn) (slot : Nat) : Dev :=
  match d.slotQueue fn slot with
  | none => d.bar4Error fn (64 * slot) false
  | some q =>
    if !(d.queueAt q).en || d.pwr.fnReset.contains fn then d.bar4Error fn (64 * slot) false
    else d.viaNoc fn (some (queuePort q)) 4 (64 * slot) false (·.emit (.completion fn q (2 ^ 64 - 1))) fun d =>
      let d := d.markBound q
      if !d.emptyFor q && (d.queueAt q).waitPop.isEmpty then d.completePop fn q
      else if d.popWait == 0 then d.emptyPop fn q
      else d.modQueue q fun x => { x with waitPop := x.waitPop ++ [fn] }

/-- POP_STATUS of a function on a queue (R290): VALID, END, FENCE of its latest POP, and BOUND. -/
def popStatus (d : Dev) (fn : Fn) (q : Nat) : Nat :=
  let x := d.queueAt q
  if !x.en then 0 else ((x.pops.find? (fun e => e.1 == fn)).map (·.2)).getD 0 ||| (if x.flags.testBit 5 then 8 else 0)
/-- COUNT of a queue (R290). -/
def countWord (d : Dev) (q : Nat) : Nat :=
  let x := d.queueAt q
  if !x.en then 0 else x.words.length ||| x.pkts <<< 16

/-- POP_WAIT_EXPIRE (R286): the oldest POP of the function held on the queue. -/
def doPopWaitExpire (d : Dev) (fn : Fn) (slot : Nat) : Dev :=
  match d.slotQueue fn slot with
  | none => d
  | some q =>
    let x := d.queueAt q
    if x.waitPop.contains fn then (d.setQueue q { x with waitPop := x.waitPop.erase fn }).emptyPop fn q else d

/-- BAR4_ACCESS_ERROR: an access that R290 does not define (R291). -/
def doBar4Error (d : Dev) (fn : Fn) (off : Nat) (write : Bool) : Dev := d.bar4Error fn off write

/-- QWR_HOLD_EXPIRE (R284): the oldest held QWR is answered with no words accepted. -/
def doQwrExpire (d : Dev) (q : Nat) : Dev :=
  let x := d.queueAt q
  match x.waitQwr with
  | [] => d
  | k :: rest => (d.setQueue q { x with waitQwr := rest }).respond k 0 (leBytes 8 0)

/-- QRD_HOLD_EXPIRE (R286): the oldest held QRD is answered with no words. -/
def doQrdExpire (d : Dev) (q : Nat) : Dev :=
  let x := d.queueAt q
  match x.waitQrd with
  | [] => d
  | k :: rest => (d.setQueue q { x with waitQrd := rest }).respond k 0 (leBytes 8 0)

/-! Queue commands and registers: the PF names queues by absolute number, a VF by index in its range (R298). -/

/-- The queue a function's window selects. -/
def winQueue (d : Dev) (fn : Fn) (q : Nat) : Option Nat :=
  match fn with
  | .pf => if d.full then some q else none
  | .vf i => if d.vfLive i then d.queueOf i q else none

/-- QCMD of queue `q` from the PF's window or a partition's: 1 FLUSH, 2 DROP_HEAD, 3 CLR_HWM. -/
def queueCmd (d : Dev) (q cmd : Nat) : Dev :=
  if q < 16 && !(q == 2 || q == 3) then d
  else match cmd with
    | 1 => d.flushQueue q
    | 2 => d.dropHeadOf q
    | 3 => d.modQueue q fun x => { x with hwm := x.words.length }
    | _ => d

/-- QCFG is written (R298): CLASS and DEPTH only while EN is 0; EN allocates or frees the depth; the PF sets UNIT, NOTIFY and LEVEL of
queues 1 to 3 alone among queues 0 to 15. -/
def writeQcfg (d : Dev) (q v : Nat) : Dev :=
  let marks (x : Queue) : Queue := { x with unit := v.testBit 6, notify := v.testBit 7, level := bitsAt v 8 14 }
  if q < 16 then (if 1 ≤ q && q ≤ 3 then d.modQueue q marks else d)
  else
    let d := d.modQueue q fun x => marks (if x.en then x else { x with priv := v.testBit 1, depth := bitsAt v 2 4 })
    if v.testBit 0 then d.enableQueue q else d.disableQueue q

/-- QCFG.EN alone is written. -/
def setQueueEn (d : Dev) (q : Nat) (en : Bool) : Dev := if q < 16 then d else if en then d.enableQueue q else d.disableQueue q

/-- QFLAGS bits written 1 are cleared. -/
def clearQflags (d : Dev) (q v : Nat) : Dev := d.modQueue q fun x => { x with flags := x.flags &&& (63 - v % 64) }

/-- A command of a function's window on the queue it selects. -/
def atQueue (d : Dev) (fn : Fn) (q : Nat) (k : Dev → Nat → Dev) : Dev :=
  if d.pwr.fnReset.contains fn then d else match d.winQueue fn q with | some a => k d a | none => d

end Dev

/-- DOORBELL_APPEND (R290). -/
def execDoorbellAppend (fn : Fn) (slot : Fin 8192) (fin fence : Bool) (w : W64) (s : State) : Host.Outcome State Fault Refusal :=
  main s fun d => d.doDoorbell fn slot fin fence w
/-- DOORBELL_APPEND_MULTI (R290). -/
def execDoorbellAppendMulti (fn : Fn) (slot : Fin 8192) (ws : Words) (s : State) : Host.Outcome State Fault Refusal := main s fun d => d.doDoorbellMulti fn slot ws
/-- POP (R290). -/
def execPop (fn : Fn) (slot : Fin 8192) (s : State) : Host.Outcome State Fault Refusal := main s fun d => d.doPop fn slot
/-- POP_WAIT_EXPIRE (R286). -/
def execPopWaitExpire (fn : Fn) (slot : Fin 8192) (s : State) : Host.Outcome State Fault Refusal := main s fun d => d.doPopWaitExpire fn slot
/-- BAR4_ACCESS_ERROR (R291). -/
def execBar4AccessError (fn : Fn) (off : Nat) (write : Bool) (s : State) : Host.Outcome State Fault Refusal := main s fun d => d.doBar4Error fn off write
/-- QWR_HOLD_EXPIRE (R284). -/
def execQwrHoldExpire (q : Fin 8192) (s : State) : Host.Outcome State Fault Refusal := main s fun d => d.doQwrExpire q
/-- QRD_HOLD_EXPIRE (R286). -/
def execQrdHoldExpire (q : Fin 8192) (s : State) : Host.Outcome State Fault Refusal := main s fun d => d.doQrdExpire q
/-- FLUSH (R295). -/
def execFlush (fn : Fn) (q : Fin 8192) (s : State) : Host.Outcome State Fault Refusal := main s fun d => d.atQueue fn q fun d q => d.queueCmd q 1
/-- DROP_HEAD (R296). -/
def execDropHead (fn : Fn) (q : Fin 8192) (s : State) : Host.Outcome State Fault Refusal := main s fun d => d.atQueue fn q fun d q => d.queueCmd q 2
/-- CLR_HWM (R298). -/
def execClrHwm (fn : Fn) (q : Fin 8192) (s : State) : Host.Outcome State Fault Refusal := main s fun d => d.atQueue fn q fun d q => d.queueCmd q 3
/-- QUEUE_ENABLE (R298). -/
def execQueueEnable (fn : Fn) (q : Fin 8192) (s : State) : Host.Outcome State Fault Refusal := main s fun d => d.atQueue fn q fun d q => d.setQueueEn q true
/-- QUEUE_DISABLE (R298). -/
def execQueueDisable (fn : Fn) (q : Fin 8192) (s : State) : Host.Outcome State Fault Refusal := main s fun d => d.atQueue fn q fun d q => d.setQueueEn q false

end Sys2Proof.Machine
end

