-- ==== Sys2Proof/Machine/Courier.lean ====
section
/-! DEFINITION. The dispatcher and the couriers (R299 to R309). -/

namespace Sys2Proof.Machine

/-- Fields of a work item (R299). -/
def Work.op (w : Work) : Nat := bitsAt w.w0.toNat 0 8
def Work.cpl (w : Work) : Bool := w.w0.getLsbD 8
def Work.dir (w : Work) : Bool := w.w0.getLsbD 9
def Work.tag (w : Work) : Nat := bitsAt w.w0.toNat 16 16
def Work.queue (w : Work) : Nat := bitsAt w.w0.toNat 32 13
def Work.cq (w : Work) : Nat := bitsAt w.w0.toNat 48 13
def Work.addr (w : Work) : Nat := w.w1.toNat
def Work.length (w : Work) : Nat := bitsAt w.w2.toNat 0 32
def Work.maxPkts (w : Work) : Nat := bitsAt w.w2.toNat 32 16
def Work.queue2 (w : Work) : Nat := bitsAt w.w2.toNat 48 13
/-- Whether a reserved field of an item holds a 1. -/
def Work.reservedSet (w : Work) : Bool :=
  bitsAt w.w0.toNat 10 6 ≠ 0 || bitsAt w.w0.toNat 45 3 ≠ 0 || bitsAt w.w0.toNat 61 3 ≠ 0 || bitsAt w.w2.toNat 61 3 ≠ 0 || (w.op ≠ 4 && w.w3 ≠ 0)

namespace Dev

/-- The enabled queue an item of list `l` names by `q` (R299). -/
def itemQueue (d : Dev) (l q : Nat) : Option Nat :=
  let a := if l == 16 then some q else d.queueOf l q
  a.bind fun a => if (d.queueAt a).en then some a else none

/-- Whether a transactor write port names a queue. -/
def writeBound (d : Dev) (q : Nat) : Bool :=
  (List.range 64).any fun n => (List.range 8).any fun x => d.portQueue n x == some q && d.b (pCLU n) (CLU_TXP_DIR x)

/-- Why an item would be refused as BAD_ITEM (R304). -/
def badItem (d : Dev) (w : Work) : Bool :=
  let q := d.itemQueue w.list w.queue
  let q2 := d.itemQueue w.list w.queue2
  let uses := w.op == 1 || w.op == 2 || w.op == 3
  w.op == 0 || 5 < w.op || w.reservedSet || w.addr % 8 ≠ 0 || w.length % 8 ≠ 0 || (uses && q.isNone) || (w.op == 3 && q2.isNone) ||
    (w.cpl && (d.itemQueue w.list w.cq).isNone) ||
    ((w.op == 1 || w.op == 3) && (match q with | some a => (d.boundTo a).isSome | none => false)) ||
    (w.op == 2 && (match q with | some a => d.writeBound a | none => false)) ||
    (w.op == 3 && (match q2 with | some a => d.writeBound a | none => false))

/-- A ready list takes a new value, with DEPTH and HWM where registers show it (R307). -/
def putList (d : Dev) (l : Nat) (ws : List Work) : Dev :=
  let d := (d.setList l ws).p pDSP (DSP_LIST_DEPTH l) ws.length
  let d := d.p pDSP (DSP_LIST_HWM l) (Nat.max (d.g pDSP (DSP_LIST_HWM l)) ws.length)
  if l < 16 then
    let d := d.p (pPTN l) PTN_LIST_DEPTH ws.length
    d.p (pPTN l) PTN_LIST_HWM (Nat.max (d.g (pPTN l) PTN_LIST_HWM) ws.length)
  else d

/-- The outcome word of a SUBMIT (R304). -/
def submitWord (d : Dev) (l reason : Nat) : Nat := (if reason == 0 then 1 else 0) ||| reason <<< 1 ||| (d.listAt l).length <<< 16

/-- A refused submission (R304, R309). -/
def refuseItem (d : Dev) (l : Nat) : Dev := ((d.add pDSP (DSP_REFUSED_COUNT l) 1).irq pDSP 0).raise 0x0F0 4 l 0 0

/-- REASON of an item's submission (R304), 0 where its list takes it. -/
def itemReason (d : Dev) (w : Work) : Nat :=
  if w.list < 16 && !d.usable w.list then 3 else if d.badItem w then 2 else if 256 ≤ (d.listAt w.list).length then 1 else 0

/-- An item is placed on its list or refused, with the outcome word of its read (R304). -/
def judgeItem (d : Dev) (w : Work) : Dev × Nat :=
  let l := w.list
  let reason := d.itemReason w
  let d := if reason == 0 then d.putList l (d.listAt l ++ [{ w with time := d.now }]) else d.refuseItem l
  (d, d.submitWord l reason)

/-- A SUBMIT read acts and completes (R304). -/
def placeItem (d : Dev) (fn : Fn) (w : Work) : Dev := let r := d.judgeItem w; r.1.reply fn (submitAt w.list) r.2

/-- A held SUBMIT read acts and completes (R305). -/
def placeHeld (d : Dev) (h : Work × Fn) : Dev :=
  let r := { d with dsp := { d.dsp with heldSub := d.dsp.heldSub.erase h } }.judgeItem h.1
  let a := r.1.answerAt h.2 (submitAt h.1.list) 0xFFFFFFFF r.2
  a.1.completeHeld h.2 h.1.list a.2

/-- Every held SUBMIT read of a list acts as its partition now stands (R304 to R306). -/
def placeAllHeld (d : Dev) (l : Nat) : Dev := d.each (d.dsp.heldSub.filter fun h => h.1.list == l) fun d h => d.placeHeld h

/-- Whether a SUBMIT read of an item is held for room on its list (R305). -/
def mustHold (d : Dev) (w : Work) : Bool :=
  256 ≤ (d.listAt w.list).length && (d.g pDSP DSP_CFG_COMPAT).testBit w.list && !(w.list < 16 && !d.usable w.list) && !d.badItem w

/-- The item that list `l`'s staging registers hold (R304). -/
def stagedItem (d : Dev) (l : Nat) : Work :=
  let st (i : Nat) : W64 := BitVec.ofNat 64 (if l == 16 then d.g pDSP (DSP_WI_WORD i) else d.g (pPTN l) (PTN_WI_WORD i))
  ⟨st 0, st 1, st 2, st 3, l, d.now⟩

/-- SUBMIT of list `l` (R304, R305): the staged words as they stand. -/
def submitList (d : Dev) (fn : Fn) (l : Nat) : Dev :=
  let w := d.stagedItem l
  let waits := d.dsp.heldSub.any fun h => h.1.list == l && h.2 == fn
  if waits || d.mustHold w then { d with dsp := { d.dsp with heldSub := d.dsp.heldSub ++ [(w, fn)] } } else d.placeItem fn w

/-- The list whose SUBMIT register a function reads (R304, R422). -/
def submitListOf : Fn → Nat
  | .pf => 16
  | .vf i => i.val

/-- SUBMIT (R304): the PF's own list, or the partition's of a VF; all ones where the function does not reach the register (R11, R424, R425). -/
def doSubmit (d : Dev) (fn : Fn) : Dev :=
  let l := submitListOf fn
  let fail (d : Dev) : Dev := d.complete fn (submitAt l) 0xFFFFFFFF
  if d.reach fn (submitAt l / 0x1000 * 0x1000) == .yes then
    d.viaNoc fn (pageHome (submitAt l / 0x1000 * 0x1000)) 0 (d.barOff fn (submitAt l)) false fail fun d => d.submitList fn l
  else fail d

/-- Held SUBMIT reads of a list are answered while it has room; a function's later ones follow at once where they would not be held (R305). -/
def serveSubmits : Nat → Dev → Nat → Dev
  | 0, d, _ => d
  | fuel + 1, d, l =>
    let first (h : Work × Fn) : Bool := (d.dsp.heldSub.find? fun e => e.1.list == l && e.2 == h.2) == some h
    match d.dsp.heldSub.find? (fun h => h.1.list == l && first h && !d.mustHold h.1) with
    | none => d
    | some h => serveSubmits fuel (d.placeHeld h) l

/-- Every held SUBMIT read of a list that may be answered is. -/
def wakeSubmits (d : Dev) (l : Nat) : Dev := serveSubmits d.dsp.heldSub.length d l

/-- SUBMIT_HOLD_EXPIRE (R305): the oldest held read of a list returns FULL; those behind it follow. -/
def doSubmitExpire (d : Dev) (l : Nat) : Dev :=
  match d.dsp.heldSub.find? (fun h => h.1.list == l) with
  | none => d
  | some h => (d.placeHeld h).wakeSubmits l

/-- Whether some courier holds an item of a list, started or not. -/
def listBusy (d : Dev) (l : Nat) : Bool :=
  d.dsp.couriers.any fun e => (match e.2.item with | some w => w.list == l | none => false) || (match e.2.slot with | some w => w.list == l | none => false)

/-- Whether a write of an item of a list waits for its RSP_ACK (R276). -/
def listWrites (d : Dev) (l : Nat) : Bool :=
  d.noc.outst.any fun o => o.write && !o.abandoned && 0xC0 ≤ o.src && o.src < 0xE0 && o.fn == (if l == 16 then 0 else l + 1)

/-- Whether a list's head may start: a FENCE waits for every earlier item and its writes, and nothing passes a FENCE in execution (R276, R302). -/
def headReady (d : Dev) (l : Nat) : Bool :=
  match d.listAt l with
  | [] => false
  | w :: _ =>
    if w.op == 5 then !d.listBusy l && !d.listWrites l
    else !(d.dsp.couriers.any fun e => match e.2.item, e.2.slot with | some x, _ => x.list == l && x.op == 5 | none, some y => y.list == l && y.op == 5 | none, none => false)

/-- The next list in round-robin order whose head may start (R302). -/
def nextList (d : Dev) : Option Nat := ((List.range 17).map fun k => (d.dsp.next + k) % 17).find? fun l => d.headReady l

/-- The head item of the next list, off its list. -/
def takeItem (d : Dev) : Option (Work × Dev) :=
  match d.nextList with
  | none => none
  | some l =>
    match d.listAt l with
    | [] => none
    | w :: ws =>
      let d := d.putList l ws
      some (w, { d with dsp := { d.dsp with next := (l + 1) % 17 } }.wakeSubmits l)

/-- Whose HBM and host memory an item uses (R260): its partition, or the device. -/
def itemReq (c l : Nat) : Req := if l == 16 then ⟨0xC0 + c, 0, true⟩ else ⟨0xC0 + c, l, false⟩
def itemFn (d : Dev) (l : Nat) : Nat := if l < 16 && d.b pDEV (DEV_DIR_VF l) then l + 1 else 0

/-- A whole packet leaves the head of a queue, if one waits there for a courier (R286, R300). -/
def takePacket (d : Dev) (q : Nat) : Option (List QWord × Dev) :=
  let x := d.queueAt q
  let head := headPacket x.seen
  if (d.boundTo q).isSome || !head.any (·.fin) then none
  else
    let d := d.setQueue q { x with words := x.words.drop head.length, copied := x.copied - head.length, taken := false }
    some (head, d.each head fun d w => d.offerQueue q 1 w.data.toNat)

/-- A packet's words are appended by courier `c` to a queue, whose space is reserved (R303); a fence word waits for the courier's writes (R276). -/
def putPacket (d : Dev) (c q : Nat) (ws : List QWord) : Dev :=
  let behind := d.unacked fun o => o.src == 0xC0 + c
  d.each ws fun d w => d.append q (w.after behind) false

/-- Bytes of a packet in a host buffer (R300). -/
def packetBytes (ws : List QWord) : List Byte :=
  leBytes 8 (ws.length ||| (if ws.any (·.fence) then 1 <<< 32 else 0)) ++ ws.flatMap fun w => leBytes 8 w.data.toNat

/-- Q2H (R300): packets are moved while they fit; a header of 0 ends the buffer where it has room. -/
def runQ2H : Nat → Dev → Work → Nat → Nat → Courier → Dev × Courier
  | 0, d, _, _, _, x => (d, x)
  | fuel + 1, d, w, q, used, x =>
    let stop : Dev × Courier :=
      (if used + 8 ≤ w.length then d.emit (.hostWrite (d.itemFn w.list) (w.addr + used) (leBytes 8 0)) else d, x)
    let head := headPacket (d.queueAt q).words
    let bytes := 8 + 8 * head.length
    if (w.maxPkts ≠ 0 && w.maxPkts ≤ x.pkts) || w.length < used + bytes then stop
    else match d.takePacket q with
      | none => stop
      | some (ws, d) =>
        runQ2H fuel (d.emit (.hostWrite (d.itemFn w.list) (w.addr + used) (packetBytes ws))) w q (used + bytes)
          { x with pkts := x.pkts + 1, words := x.words + ws.length }

/-- H2Q (R300, R303): packets of the buffer enter the queue; STATUS 2 for one longer than the queue's depth, none while space is
awaited. -/
def runH2Q : Nat → Dev → Nat → Work → Nat → Courier → Dev × Courier × Bool
  | 0, d, _, _, _, x => (d, x, true)
  | fuel + 1, d, c, w, q, x =>
    let hdr := leAt x.buf 0 8
    let n := hdr % 2 ^ 32
    let y := d.queueAt q
    if x.buf.length < 8 || n == 0 || (w.maxPkts ≠ 0 && w.maxPkts ≤ x.pkts) then (d, x, true)
    else if y.cap < n then (d, { x with status := 2 }, true)
    else if x.buf.length < 8 + 8 * n then (d, { x with status := 4 }, true)
    else if y.free < n then (d, x, false)
    else
      let ws := (List.range n).map fun i => (⟨BitVec.ofNat 64 (leAt x.buf (8 + 8 * i) 8), i + 1 == n, i == 0 && hdr.testBit 32, []⟩ : QWord)
      runH2Q fuel (d.putPacket c q ws) c w q { x with pkts := x.pkts + 1, words := x.words + n, buf := x.buf.drop (8 + 8 * n) }

/-- Q2Q (R300, R303). -/
def runQ2Q : Nat → Dev → Nat → Work → Nat → Nat → Courier → Dev × Courier × Bool
  | 0, d, _, _, _, _, x => (d, x, true)
  | fuel + 1, d, c, w, q, q2, x =>
    let head := headPacket (d.queueAt q).words
    let y := d.queueAt q2
    if (w.maxPkts ≠ 0 && w.maxPkts ≤ x.pkts) || !head.any (·.fin) || (d.boundTo q).isSome then (d, x, true)
    else if y.cap < head.length then (d, { x with status := 2 }, true)
    else if y.free < head.length then (d, x, false)
    else match d.takePacket q with
      | none => (d, x, true)
      | some (ws, d) => runQ2Q fuel (d.putPacket c q2 ws) c w q q2 { x with pkts := x.pkts + 1, words := x.words + ws.length }

/-- COPY (R300): granule by granule; a transfer that fails stops the item with NOC_ERROR (R301). -/
def runCopy : Nat → Dev → Nat → Work → Nat → Courier → Dev × Courier
  | 0, d, _, _, _, x => (d, x)
  | fuel + 1, d, c, w, k, x =>
    if w.length ≤ k then (d, x)
    else
      let a := (if w.list == 16 then 0 else (d.ptnAt w.list).quotaBase) + w.w3.toNat + k
      let n := Nat.min (w.length - k) (256 - a % 256)
      if w.dir then
        let r := d.hbmFetch (itemReq c w.list) a n
        if r.2.1 ≠ 0 then (r.1, { x with status := 4 })
        else runCopy fuel (r.1.emit (.hostWrite (d.itemFn w.list) (w.addr + k) r.2.2)) c w (k + n) { x with words := (k + n) / 8 }
      else
        let bs := (x.buf.drop k).take n
        if bs.length < n then (d, { x with status := 4 })
        else
          let r := d.hbmSend (itemReq c w.list) a bs
          if r.2 ≠ 0 then (r.1, { x with status := 4 }) else runCopy fuel r.1 c w (k + n) { x with words := (k + n) / 8 }

/-- A courier's item runs as far as it can: the courier afterwards, and whether the item is done. -/
def runItem (d : Dev) (c : Nat) (w : Work) (x : Courier) : Dev × Courier × Bool :=
  let q := d.itemQueue w.list w.queue
  let q2 := d.itemQueue w.list w.queue2
  match w.op, q, q2 with
  | 1, some q, _ => let r := runQ2H 65536 (d.markBound q) w q 0 x; (r.1, r.2, true)
  | 2, some q, _ => runH2Q 65536 d c w q x
  | 3, some q, some q2 => runQ2Q 65536 (d.markBound q) c w q q2 x
  | 4, _, _ => let r := runCopy (w.length / 8 + 2) d c w 0 x; (r.1, r.2, true)
  | 5, _, _ => (d, x, true)
  | _, _, _ => (d, { x with status := 3 }, true)

/-- A courier with its item where it stands: executing, or waiting for space (R303, R308). -/
def keepItem (d : Dev) (c : Nat) (r : Courier × Bool) (was : Nat) : Dev :=
  let d := d.setCourier c { r.1 with waitAt := if r.2 || was == 2 then r.1.waitAt else d.now }
  let d := if was == 2 && r.2 then d.add pCRR (CRR_WAIT_US_COUNT c) ((d.now - r.1.waitAt) / 1000) else d
  d.p pCRR (CRR_CSTATE_STATE c) (if r.2 then 1 else 2)

/-- An item starts on a courier (R302, R307). -/
def startItem (d : Dev) (c : Nat) (w : Work) (data : List Byte) : Dev :=
  let us := (d.now - w.time) / 1000
  let bucket := if us == 0 then 0 else Nat.min 7 (us.log2 + 1)
  let d := (d.add pHIST (HIST w.list bucket) 1).p pCRR (CRR_CSTATE_LIST c) w.list
  let x : Courier := { item := some w, slot := none, status := 0, pkts := 0, words := 0, since := d.now, waitAt := 0, buf := data.take w.length }
  let r := d.runItem c w x
  (r.1.keepItem c r.2 1).p pCRR (CRR_CSTATE_SLOT_FULL c) 0

/-- COURIER_DISPATCH (R302, R303): a free courier starts its prefetched item or the next list's head; a busy one fills its slot. -/
def doDispatch (d : Dev) (c : Nat) (data : List Byte) : Dev :=
  let x := d.courierAt c
  match x.item, x.slot with
  | none, some w => d.startItem c w data
  | none, none => (match d.takeItem with | some (w, d) => d.startItem c w data | none => d)
  | some _, none => (match d.takeItem with | some (w, d) => (d.setCourier c { x with slot := some w }).on pCRR (CRR_CSTATE_SLOT_FULL c) | none => d)
  | some _, some _ => d

/-- The completion word of an item (R301). -/
def completionWord (w : Work) (x : Courier) : Nat := w.tag ||| x.status <<< 16 ||| (x.pkts % 65536) <<< 24 ||| (Nat.min x.words 0xFFFFFF) <<< 40

/-- A completion word goes to its CQ, or is lost (R301, R309). -/
def writeCompletion (d : Dev) (w : Work) (v : Nat) : Dev :=
  if !w.cpl then d
  else
    let cq := if w.list == 16 then some w.cq else d.queueOf w.list w.cq
    let lost (d : Dev) : Dev := ((d.add pDSP DSP_CPL_LOST_COUNT 1).irq pDSP 1).raise 0x0F1 1 w.list v (cq.getD 0)
    match d.itemQueue w.list w.cq with
    | none => lost d
    | some q =>
      let drops := (d.queueAt q).free == 0 && !(d.queueAt q).discard
      let d := d.append q ⟨BitVec.ofNat 64 v, true, false, []⟩ false
      if drops then lost d else d

/-- The µs a courier has had its item are counted, and those it has waited for space (R308). -/
def countBusy (d : Dev) (c : Nat) (x : Courier) : Dev :=
  let d := d.add pCRR (CRR_BUSY_US_COUNT c) ((d.now - x.since) / 1000)
  if d.g pCRR (CRR_CSTATE_STATE c) == 2 then d.add pCRR (CRR_WAIT_US_COUNT c) ((d.now - x.waitAt) / 1000) else d

/-- An item ends (R301, R308). -/
def endItem (d : Dev) (c : Nat) (w : Work) (x : Courier) : Dev :=
  let d := (d.add pCRR (CRR_ITEMS_COUNT c) 1).countBusy c x
  let d := (d.setCourier c { Courier.reset with slot := x.slot }).p pCRR (CRR_CSTATE_STATE c) 0
  (d.writeCompletion w (completionWord w x)).raise (0x0D0 + c) 4 16 0 0

/-- WORK_ITEM_COMPLETE (R301): an item that waits for space tries again first. -/
def doItemComplete (d : Dev) (c : Nat) : Dev :=
  let x := d.courierAt c
  match x.item with
  | none => d
  | some w =>
    if d.g pCRR (CRR_CSTATE_STATE c) == 2 then
      let r := d.runItem c w x
      let d := r.1.keepItem c r.2 2
      if r.2.2 then d.endItem c w (d.courierAt c) else d
    else d.endItem c w x

/-- COURIER_WAIT_LIMIT (R303). -/
def doWaitLimit (d : Dev) (c : Nat) : Dev :=
  let x := d.courierAt c
  match x.item with
  | none => d
  | some w =>
    if d.g pCRR (CRR_CSTATE_STATE c) == 2 then d.endItem c w { x with status := 1 } else d

/-- DSP.CTRL.CLR (R307). -/
def doDspClr (d : Dev) : Dev :=
  let d := d.each (List.range 17) fun d l =>
    let d := (d.p pDSP (DSP_LIST_HWM l) 0).clr pDSP (DSP_REFUSED_COUNT l)
    let d := if l < 16 then d.p (pPTN l) PTN_LIST_HWM 0 else d
    d.each (List.range 8) fun d b => d.clr pHIST (HIST l b)
  let d := (d.clr pDSP DSP_CPL_LOST_COUNT).clr pDSP DSP_DISCARDED_COUNT
  d.each (List.range 32) fun d c => ((d.clr pCRR (CRR_ITEMS_COUNT c)).clr pCRR (CRR_BUSY_US_COUNT c)).clr pCRR (CRR_WAIT_US_COUNT c)

/-- Outstanding requests of an endpoint are marked abandoned (R272). -/
def abandon (d : Dev) (src : Nat) : Dev :=
  { d with noc := { d.noc with outst := d.noc.outst.map fun o => if o.src == src then { o with abandoned := true } else o } }

/-- A reset of partition `i` discards its items, those in execution with their outstanding requests abandoned; its queues are flushed and their
flags cleared, and requests held at them stay held, as over a FLUSH (R297, R306). -/
def resetItems (d : Dev) (i : Nat) : Dev :=
  let n := (d.listAt i).length
  let d := d.putList i []
  let d := d.add pDSP DSP_DISCARDED_COUNT n
  let d := d.each (List.range 32) fun d c =>
    let x := d.courierAt c
    let mine (w : Option Work) : Bool := match w with | some w => w.list == i | none => false
    let d := if mine x.slot then ((d.setCourier c { x with slot := none }).add pDSP DSP_DISCARDED_COUNT 1).p pCRR (CRR_CSTATE_SLOT_FULL c) 0 else d
    let x := d.courierAt c
    if mine x.item then ((((d.countBusy c x).abandon (0xC0 + c)).setCourier c { Courier.reset with slot := x.slot }).add pDSP DSP_DISCARDED_COUNT 1).p pCRR (CRR_CSTATE_STATE c) 0 else d
  let lo := d.g pDEV (DEV_DIR_QBASE i)
  d.each ((SMap.range d.queue lo (lo + d.g pDEV (DEV_DIR_QCOUNT i))).map (·.1)) fun d q =>
    d.modQueue q fun x => { x with words := [], inPkt := false, taken := false, discard := false, flags := 0, copied := 0, reserved := 0 }

end Dev

/-- SUBMIT (R304). -/
def execSubmit (fn : Fn) (s : State) : Host.Outcome State Fault Refusal := main s fun d => d.doSubmit fn
/-- SUBMIT_HOLD_EXPIRE (R305). -/
def execSubmitHoldExpire (list : Fin 17) (s : State) : Host.Outcome State Fault Refusal := main s fun d => d.doSubmitExpire list
/-- COURIER_DISPATCH (R302). -/
def execCourierDispatch (c : Fin 32) (data : List Byte) (s : State) : Host.Outcome State Fault Refusal := main s fun d => d.doDispatch c data
/-- WORK_ITEM_COMPLETE (R301). -/
def execWorkItemComplete (c : Fin 32) (s : State) : Host.Outcome State Fault Refusal := main s fun d => d.doItemComplete c
/-- COURIER_WAIT_LIMIT (R303). -/
def execCourierWaitLimit (c : Fin 32) (s : State) : Host.Outcome State Fault Refusal := main s fun d => d.doWaitLimit c
/-- DSP_CLR (R307). -/
def execDspClr (s : State) : Host.Outcome State Fault Refusal := main s fun d => if d.full then d.doDspClr else d

end Sys2Proof.Machine
end

