-- ==== Sys2Proof/Machine/Reset.lean ====
section
/-! DEFINITION. What returns to its Reset value with a partition or a cluster (R44, R103, R159, R306, R310, R319, R329, R354, R386 to
R388, R450), and the release of what a partition owned (R162). -/

namespace Sys2Proof.Machine

namespace Dev

/-- The interrupt registers and counters of a page return to their Reset values. -/
def resetCommon (d : Dev) (base : Nat) : Dev := (d.resetRange (base + 0x10) (base + 0x20)).resetRange (base + 0x40) (base + 0x70)

/-- Window pages of cluster `n` (R144). -/
def resetWindows (d : Dev) (n : Nat) : Dev :=
  d.each ((List.range 15).map (· + 1)) fun d w => (d.resetCommon (pWIN n w)).resetRange (pWIN n w + 0x100) (pWIN n w + 0x10C)

/-- Configuration registers of cluster `n`: MESH_TRANSIT, FMPf, TXPx, DMEM_CFGm, port events (R121, R134, R135, R141, R289). -/
def resetCluCfg (d : Dev) (n : Nat) : Dev :=
  let b := pCLU n
  ((d.resetRange (b + 0x230) (b + 0x238)).resetRange (b + 0x240) (b + 0x320)).resetRange (b + 0x400) (b + 0x800)

/-- Cluster `n` is cleared with its far data, credits and copies (R44, R85, R141, R159, R310, R448). -/
def clearCluster (d : Dev) (n : Nat) : Dev :=
  let d := ((d.releasePorts n).clearMemories n).each (List.range 4) fun d f => d.p (pCLU n) (CLU_FMP_PENDING f) 0
  { d with clu := SMap.set Clu.reset d.clu n Clu.reset }

/-- Cluster `n` under a PARTITION reset of its owner (R450). -/
def resetCluster (d : Dev) (n : Nat) : Dev := (((d.clearCluster n).resetCommon (pCLU n)).resetCluCfg n).resetWindows n

/-- Cluster `n` leaves its partition (R169 step 7, R450). -/
def releaseCluster (d : Dev) (n : Nat) : Dev := ((d.clearCluster n).resetCommon (pCLU n)).resetWindows n

/-- SNAP_CTRL and the shadow area of a page return to their Reset values (R450). -/
def freshShadow (d : Dev) (base : Nat) : Dev := (d.resetRange (base + 0x20) (base + 0x24)).resetRange (base + 0x800) (base + 0x1000)

/-- Cluster `n` comes back from OFF (R450). -/
def freshCluster (d : Dev) (n : Nat) : Dev :=
  ((d.resetCluster n).freshShadow (pCLU n)).each ((List.range 15).map (· + 1)) fun d w => d.freshShadow (pWIN n w)

/-- Stream `s` returns to its Reset values and its buffered blocks are discarded (R354). -/
def resetStream (d : Dev) (s : Nat) : Dev :=
  (d.resetRange (pTRC + 0x180 + 0x60 * s) (pTRC + 0x1E0 + 0x60 * s)).setStrm s Strm.reset

/-- Comparators of partition `i` are disabled and a sequencer it owns is disarmed (R319). -/
def disarmOwner (d : Dev) (i : Nat) : Dev :=
  let d := d.each (List.range 32) fun d k => if d.g pTRG (TRG_CCFG_OWNER k) == i then d.p pTRG (TRG_CCFG_EN k) 0 else d
  if d.g pTRG TRG_SEQ_CTRL_OWNER == i then d.p pTRG TRG_SEQ_STATUS_ARMED 0 else d

/-- Slot entries, gateway registers and what Stage writes of LNK.BUDGETg are cleared for a partition's links: MEASURED stays (R174). -/
def dropSlots (d : Dev) (i : Nat) : Dev :=
  d.each (d.slotLinks i) fun d gi =>
    let d := { d with fab := d.fab.filter fun e => e.1 / 16 ≠ regGate gi 0 / 16 }
    let d := ((d.p pLNK (LNK_BUDGET_BUDGET gi) 0).p pLNK (LNK_BUDGET_OWNER gi) 0).p pLNK (LNK_BUDGET_SLOTS gi) 0
    (d.p pLNK (LNK_BUDGET_OVER gi) (decide (0 < d.g pLNK (LNK_BUDGET_MEASURED gi))).toNat).modLink gi fun l => { l with slots := [] }

/-- A PARTITION reset returns the whole of LNK.BUDGETg of the partition's links to its Reset values (R174). -/
def resetBudgets (d : Dev) (i : Nat) : Dev :=
  let gs := d.slotLinks i
  (d.dropSlots i).each gs fun d gi => d.resetRange (pLNK + 0x200 + 4 * gi) (pLNK + 0x204 + 4 * gi)

/-- Whether some requested pass holds SCRUB. -/
def scrubHeld (d : Dev) : Bool := d.mnt.slots.any fun e => e.2 % 16 == 1

/-- SCRUB and SNAPSAVE of a partition are released; a save is cut off (R149, R411). -/
def dropActivities (d : Dev) (i : Nat) : Dev :=
  let d := if d.g (pPTN i) PTN_SNAP_STATUS_STATE == 1 then d.cutSave i else d
  let ran := d.holds (mntId 1 i 0)
  let d := (d.mntFree (mntId 1 i 0)).mntFree (mntId 5 i 0)
  if ran && !d.scrubHeld && d.g pSCR SCR_PASS_STATUS_PASS_STATE == 2 then d.p pSCR SCR_PASS_STATUS_PASS_STATE 0 else d

/-- A capture context that a reset ends: nothing that waits to leave is written (R329). -/
def capDrop (d : Dev) (c : Nat) : Dev :=
  (d.each (d.capChans c) fun d ch => d.modChan ch fun x => { x with ready := [] }).capIdle c

/-- A PARTITION reset of partition `i` begins (R103, R161, R387): every register it reaches has its Reset value at once. -/
def ptnResetNow (d : Dev) (i : Nat) : Dev :=
  let b := pPTN i
  let d := (((d.dropActivities i).resetItems i).forgetSteps i).forgetSigs i
  let d := d.p pRST RST_PTN_STATUS_BUSY (d.g pRST RST_PTN_STATUS_BUSY ||| 1 <<< i)
  let d := d.each (d.clustersOf i) fun d n => ((d.landFar n true).resetCluster n).abandon n
  let d := (((d.disarmOwner i).capDrop i).resetStream i).resetBudgets i
  let d := d.resetRange b (b + 0x800)
  let d := (d.p pDEV (DEV_DIR_STATE i) 1).p pDEV (DEV_DIR_RESTORE_DUE i) 0
  let d := d.p pDEV (DEV_DIR_LINKED i) 0
  (d.modPtn i fun x =>
    { Ptn.reset with fusedMask := x.fusedMask, quotaBase := x.quotaBase, quotaSize := x.quotaSize, img := x.img, clock := x.clock }).placeAllHeld i

/-- A PARTITION reset is asked for (R388): merged with one in progress, delayed by a resize, ignored where the partition is closing or
free. -/
def ptnResetReq (d : Dev) (i : Nat) : Dev :=
  if d.ptnBusy i then d
  else match d.dirState i with
    | 1 | 2 => d.ptnResetNow i
    | 3 => d.modPtn i fun x => { x with resetWait := true }
    | _ => d

/-- The reset of partition `i` completes (R387). -/
def ptnResetDone (d : Dev) (i : Nat) : Dev :=
  if d.ptnBusy i then d.p pRST RST_PTN_STATUS_BUSY (d.g pRST RST_PTN_STATUS_BUSY &&& (0xFFFF ^^^ 1 <<< i)) else d

/-! Release of a destroyed partition's trigger, capture, trace and bridge resources (R162). -/

/-- Comparators, sequencer, pins of partition `i` return to the PF. -/
def releaseTrigger (d : Dev) (i : Nat) : Dev :=
  let d := d.each (List.range 32) fun d k =>
    if d.g pTRG (TRG_CCFG_OWNER k) == i then (d.p pTRG (TRG_CCFG_EN k) 0).p pTRG (TRG_CCFG_OWNER k) 16 else d
  let d := if d.g pTRG TRG_SEQ_CTRL_OWNER == i then (d.p pTRG TRG_SEQ_STATUS_ARMED 0).p pTRG TRG_SEQ_CTRL_OWNER 16 else d
  d.each (List.range 8) fun d j =>
    if d.g pTRG (TRG_PIN_OWNER j) == i then ((d.p pTRG (TRG_PIN_OUT j) 0).p pTRG (TRG_PIN_OWNER j) 16).stopPulse j else d

/-- Capture context `i` and its channels are given up; the channels' regions are to be zeroed. -/
def releaseCapture (d : Dev) (i : Nat) : Dev :=
  (d.capDrop i).each (List.range 64) fun d ch =>
    if d.g pCAP (CAP_CH_CFG_OWNER ch) == i then (d.p pCAP (CAP_CH_CFG_EN ch) 0).setChanOwner ch 16 else d

/-- Bridge lanes that act for partition `i` are withdrawn. -/
def releaseBridges (d : Dev) (i : Nat) : Dev :=
  d.each (List.range 16) fun d gi =>
    let b := pLGRP gi
    if d.g b LGRP_BRIDGE_CFG_OWNER == i then
      d.each (List.range 8) fun d l =>
        if d.b b (LGRP_BRIDGE_Q_TX_EN l) || d.b b (LGRP_BRIDGE_Q_RX_EN l) then
          ((d.p b (LGRP_BRIDGE_Q_TX_EN l) 0).p b (LGRP_BRIDGE_Q_RX_EN l) 0).p b LGRP_BRIDGE_STATUS_Q_REFUSED (d.g b LGRP_BRIDGE_STATUS_Q_REFUSED ||| 1 <<< l)
        else d
    else d

/-- Everything R162 names but the zeroing it waits for. -/
def releaseDebug (d : Dev) (i : Nat) : Dev := (((d.releaseTrigger i).releaseCapture i).resetStream i).releaseBridges i

end Dev
end Sys2Proof.Machine
end

