-- ==== Sys2Proof/Machine/Partition.lean ====
section
/-! DEFINITION. The life of a partition (R160 to R170) and its service commands (R163, R164, R432). -/

namespace Sys2Proof.Machine

/-- Bits of a 64-bit mask. -/
def maskList (m : Nat) : List Nat := (List.range 64).filter m.testBit
/-- FUSED, QBASE and QCOUNT of a shape word (R164). -/
def shapeFused (w : Nat) : Nat := bitsAt w 0 32
def shapeQbase (w : Nat) : Nat := bitsAt w 32 13
def shapeQcount (w : Nat) : Nat := bitsAt w 48 13

namespace Dev

/-- A cluster under test answers CLUSTER_UNAVAILABLE (R412). -/
def testing (d : Dev) (n : Nat) : Bool := d.holds (mntId 3 16 n)

/-- Whether a resize in progress will give cluster `n` to partition `o`. -/
def promised (d : Dev) (o n : Nat) : Bool := d.dirState o == 3 && (d.ptnAt o).pendMask.testBit n

/-- Some requested cluster belongs to another partition or is under test. A cluster that an accepted resize of another partition will add
counts as that partition's from its acceptance on, which keeps a fused pair whole (R14); the spec does not say so (DESIGN CHOICE, log
entry 61). -/
def clustersTaken (d : Dev) (i mask : Nat) : Bool :=
  (maskList mask).any fun n => d.testing n || (List.range 16).any fun o => o ≠ i && (d.owns o n || d.promised o n)

/-- An empty mask, or a fused pair not wholly in it (R14). -/
def badShape (mask fused : Nat) : Bool := mask == 0 || (maskList fused).any fun k => !(mask.testBit (2 * k) && mask.testBit (2 * k + 1))

/-- A queue range that cannot be given to partition `i`; the range a resize of another partition will take counts as taken (DESIGN CHOICE, log entry 61). -/
def queuesTaken (d : Dev) (i base count : Nat) : Bool :=
  base < 16 || count == 0 || 8192 < base + count ||
    (List.range 16).any fun o => o ≠ i && d.dirState o ≠ 0 &&
      (overlaps base count (d.g pDEV (DEV_DIR_QBASE o)) (d.g pDEV (DEV_DIR_QCOUNT o)) ||
        d.dirState o == 3 && overlaps base count (shapeQbase (d.ptnAt o).pendShape) (shapeQcount (d.ptnAt o).pendShape))

/-- Ranges of HBM a quota must avoid (R164): the Pinwheel, the ring of stream 16, the other quotas. -/
def hbmTaken (d : Dev) : List (Nat × Nat) :=
  (d.g pCAP CAP_PW_BASE_ADDR, d.g pCAP CAP_PW_SIZE_PAGES * 4096) :: d.ring16 ::
    ((List.range 16).filter (d.dirState · ≠ 0)).map fun o => ((d.ptnAt o).quotaBase, (d.ptnAt o).quotaSize)

/-- Whether a quota may lie at `a`. -/
def quotaFits (d : Dev) (a n : Nat) : Bool := a % 0x100000 == 0 && a + n ≤ hbmTop && d.hbmTaken.all fun r => !overlaps a n r.1 r.2

/-- Where a quota goes: which free range Stage chooses is not specified (R164). A free range exists exactly if one starts at 0 or where
a taken one ends. -/
def placeQuota (d : Dev) (n : Nat) : Option Nat :=
  let free := Config.quotaPlace d.fresh (n / 0x100000) * 0x100000
  if d.quotaFits free n then some free
  else (0 :: d.hbmTaken.map fun r => (r.1 + r.2 + 0xFFFFF) / 0x100000 * 0x100000).find? fun a => d.quotaFits a n

/-- A directory entry takes its values (R160). -/
def setDir (d : Dev) (i st mask qbase qcount : Nat) : Dev :=
  let d := ((d.p pDEV (DEV_DIR_STATE i) st).p pDEV (DEV_DIR_MASK i) mask).p pDEV (DEV_DIR_CLUSTERS i) (maskList mask).length
  (d.p pDEV (DEV_DIR_QBASE i) qbase).p pDEV (DEV_DIR_QCOUNT i) qcount

/-- Queues of a range return to their Reset values. -/
def clearQueues (d : Dev) (lo n : Nat) : Dev :=
  let d := d.each ((SMap.range d.queue lo (lo + n)).map (·.1)) fun d q => d.disableQueue q
  { d with queue := SMap.delRange d.queue lo (lo + n) }

/-- Queues listed in a new range and not in the old one return to their Reset values (R169 step 5, R298). -/
def clearAdded (d : Dev) (lo n lo' n' : Nat) : Dev :=
  let added := ((SMap.range d.queue lo' (lo' + n')).map (·.1)).filter fun q => !(lo ≤ q && q < lo + n)
  let d := d.each added fun d q => d.disableQueue q
  { d with queue := d.queue.filter fun e => !added.contains e.1 }

/-- Stage answers a command that names partition `i`: after the answers to earlier commands that name it (R163). -/
def answerPtn (d : Dev) (i op tag status : Nat) (ws : List W64) : Dev :=
  if (d.ptnAt i).tagCmd.isSome then { d with heldAns := d.heldAns ++ [(i, answerWords op tag status ws)] } else d.answer op tag status ws

/-- The answers held behind the outstanding command of partition `i` go out (R163). -/
def releaseAnswers (d : Dev) (i : Nat) : Dev :=
  let due := (d.heldAns.filter (·.1 == i)).map (·.2)
  sendAnswers 64 { d with answers := d.answers ++ due, heldAns := d.heldAns.filter (·.1 ≠ i) }

/-- A command of Stage firmware is served while its queues exist (R194). -/
def serving (d : Dev) (k : Dev → Dev) : Dev := if d.full then k d else d

/-- Partition `i` is created with its quota of `size` bytes at `a` (R161). -/
def openPtn (d : Dev) (i : Nat) (vf : Bool) (mask shape a size : Nat) : Dev :=
  let d := d.tick.each (maskList mask) clearCluster
  let d := (d.clearQueues (shapeQbase shape) (shapeQcount shape)).setDir i 1 mask (shapeQbase shape) (shapeQcount shape)
  ((d.p pDEV (DEV_DIR_VF i) vf.toNat).p (pPTN i) PTN_SEQ_CFG_EXTENDED (decide (shapeFused shape ≠ 0)).toNat).setPtn i
    { Ptn.reset with fusedMask := shapeFused shape, quotaBase := a, quotaSize := size, clock := (d.ptnAt i).clock }

/-- Bytes of a quota given in MiB (R161). -/
def quotaBytes (quota : Nat) : Nat := quota % 2 ^ 32 * 0x100000

/-- PTN_CREATE (R161, R164). -/
def doPtnCreate (d : Dev) (tag i : Nat) (vf : Bool) (mask shape quota : Nat) : Dev :=
  let d := d.takeService 0x10 tag (i + (if vf then 16 else 0)) [BitVec.ofNat 64 mask, BitVec.ofNat 64 shape, BitVec.ofNat 64 quota]
  if d.dirState i ≠ 0 then d.answerPtn i 0x10 tag 2 []
  else if d.clustersTaken i mask then d.answer 0x10 tag 3 []
  else if badShape mask (shapeFused shape) then d.answer 0x10 tag 4 []
  else if d.queuesTaken i (shapeQbase shape) (shapeQcount shape) then d.answer 0x10 tag 5 []
  else match d.placeQuota (quotaBytes quota) with
    | none => d.answer 0x10 tag 6 []
    | some a => (d.openPtn i vf mask shape a (quotaBytes quota)).answer 0x10 tag 0 [BitVec.ofNat 64 a]

/-- A loader batch or replay of a partition ends after its current frame (R161). -/
def endBatch (d : Dev) (i : Nat) : Dev :=
  let b := pPTN i
  if d.b b PTN_LOAD_STATUS_BUSY then
    (((d.p b PTN_LOAD_STATUS_BUSY 0).on b PTN_LOAD_STATUS_DONE).irq b 9).modPtn i fun x => { x with batch := 0, replay := false, dstop := false }
  else d

/-- Cluster `n`'s network interface drains (R269). -/
def drainNi (d : Dev) (n : Nat) : Dev := if d.niState n == 0 then d.p pNOC (NOC_NI_STATE_CLU n) 1 else d
/-- Cluster `n`'s network interface is FENCED (R269). -/
def fenceNi (d : Dev) (n : Nat) : Dev := d.p pNOC (NOC_NI_STATE_CLU n) 2

/-- PTN_DESTROY (R161): operations end, the sequencer stops, far accesses complete, the interfaces drain. -/
def doPtnDestroy (d : Dev) (tag i : Nat) : Dev :=
  let d := d.takeService 0x11 tag i []
  match d.dirState i with
  | 0 => d.answer 0x11 tag 2 []
  | 3 | 4 => d.answerPtn i 0x11 tag 11 []
  | _ =>
    let d := (d.doSnapAbort i).endBatch i
    let d := if d.seqState i == 0 then d else d.stopNow i
    let d := d.each (d.clustersOf i) fun d n => (d.farDrain n).drainNi n
    ((d.p pDEV (DEV_DIR_STATE i) 4).releaseDebug i).modPtn i fun x => { x with tagCmd := some (0x11, tag) }

/-- Status and words of a work item returned by a resize (R169 step 4, R301): its completion word carries RESIZED. -/
def returnItem (d : Dev) (w : Work) : Dev := d.writeCompletion w (completionWord w { Courier.reset with status := 5 })

/-- Every item of list `i` that has not started and that `moves` names is returned; the count of them. -/
def returnItems (d : Dev) (i : Nat) (moves : Work → Bool) : Dev × Nat :=
  let back := (d.listAt i).filter moves
  let d := (d.putList i ((d.listAt i).filter fun w => !moves w)).each back fun d w => d.returnItem w
  (List.range 32).foldl (fun r c =>
    let x := r.1.courierAt c
    match x.slot with
    | some w =>
      if w.list == i && moves w then
        (((r.1.setCourier c { x with slot := none }).p pCRR (CRR_CSTATE_SLOT_FULL c) 0).returnItem w, r.2 + 1)
      else r
    | none => r) (d, back.length)

/-- Whether a courier carries out an item of list `i` that `which` names. -/
def carrying (d : Dev) (i : Nat) (which : Work → Bool) : Bool :=
  d.dsp.couriers.any fun e => match e.2.item with | some w => w.list == i && which w | none => false

/-- Whether the network interfaces of clusters are FENCED, so that nothing of theirs is on its way (R269, R271). -/
def allFenced (d : Dev) (ns : List Nat) : Bool := ns.all fun n => d.niState n == 2

/-- Whether a work item of the partition's list, or of the device list where `whole`, names a queue whose number a resize from `lo`, `n`
to `lo'`, `n'` changes (R169 step 4): items of the device list name absolute queue numbers. -/
def namesMoved (whole : Bool) (lo n lo' n' : Nat) (w : Work) : Bool :=
  let uses := w.op == 1 || w.op == 2 || w.op == 3
  let hit (q : Nat) : Bool :=
    if whole then lo ≤ q && q < lo + n && (lo ≠ lo' || n' ≤ q - lo) else lo ≠ lo' || n' ≤ q
  (uses && hit w.queue) || (w.op == 3 && hit w.queue2) || (w.cpl && hit w.cq)

/-- PTN_CLOSE_COMPLETE (R161, R162): once its interfaces are FENCED and no courier carries an item of its list or one that names its queues, queues, quota and clusters are cleared, and the partition is FREE; the
fields that R103's resets reach are as after one (DESIGN CHOICE, log entry 61). -/
def doPtnClose (d : Dev) (i : Nat) : Dev :=
  let lo := d.g pDEV (DEV_DIR_QBASE i)
  let n := d.g pDEV (DEV_DIR_QCOUNT i)
  if d.dirState i ≠ 4 || d.carrying i (fun _ => true) || d.carrying 16 (namesMoved true lo n lo 0) || !d.allFenced (d.clustersOf i) then d
  else
    let x := d.ptnAt i
    let d := ((d.returnItems i fun _ => true).1.returnItems 16 (namesMoved true lo n lo 0)).1
    let d := d.placeAllHeld i
    let d := d.each (List.range 64) fun d ch => if d.g pCAP (CAP_CH_CFG_OWNER ch) == 16 then d.doZeroingComplete ch else d
    let d := ((d.clearQueues lo n).unload i).zeroRange (hubReq 0x9C) x.quotaBase x.quotaSize
    let d := d.each (d.clustersOf i) fun d n => d.releaseCluster n
    let d := (d.resetBudgets i).mntFree (mntId 1 i 0)
    let d := (d.setDir i 0 0 0 0).p pDEV (DEV_DIR_VF i) 0
    let d := (d.forgetSteps i).forgetSigs i
    let d := ((d.p pDEV (DEV_DIR_RESTORE_DUE i) 0).p pDEV (DEV_DIR_LINKED i) 0).resetRange (pPTN i) (pPTN i + 0x800)
    let d := d.setPtn i { Ptn.reset with clock := x.clock }
    (match x.tagCmd with | some (op, tag) => d.answer op tag 0 [] | none => d).releaseAnswers i

/-- Whether the sequencer's state forbids a change of partition `i` (R168, R126): a re-target wants it FROZEN with LOADED 1, a change of the
fused pairs STOPPED, fewer clusters or another queue range STOPPED or FROZEN. A re-target, which runs in FROZEN, may exchange fused pairs for as
many others, against R126's STOPPED (DESIGN CHOICE, log entry 64). -/
def seqForbids (d : Dev) (i : Nat) (retarget : Bool) (mask shape : Nat) : Bool :=
  let st := d.seqState i
  let queues := shapeQbase shape ≠ d.g pDEV (DEV_DIR_QBASE i) || shapeQcount shape ≠ d.g pDEV (DEV_DIR_QCOUNT i)
  let fewer := (maskList (d.mask i)).any fun n => !mask.testBit n
  (retarget && !(st == 2 && d.b (pPTN i) PTN_SEQ_STATUS_LOADED)) || (!retarget && shapeFused shape ≠ (d.ptnAt i).fusedMask && st ≠ 0) ||
    ((queues || fewer) && !(st == 0 || st == 2))

/-- A resize's status by the checks of R168 and R164 before the arbiter is asked; 0 none. -/
def resizeRefusal (d : Dev) (i : Nat) (retarget : Bool) (mask shape : Nat) : Nat :=
  let old := d.mask i
  let gone := (maskList old).filter fun n => !mask.testBit n
  let x := d.ptnAt i
  let qb := d.g pDEV (DEV_DIR_QBASE i)
  let qc := d.g pDEV (DEV_DIR_QCOUNT i)
  let queues := shapeQbase shape ≠ qb || shapeQcount shape ≠ qc
  if d.dirState i == 0 then 2
  else if 3 ≤ d.dirState i then 11
  else if d.clustersTaken i mask then 3
  else if badShape mask (shapeFused shape) then 4
  else if retarget && ((maskList mask).length ≠ (maskList old).length || (maskList (shapeFused shape)).length ≠ (maskList x.fusedMask).length) then 4
  else if d.queuesTaken i (shapeQbase shape) (shapeQcount shape) then 5
  else if retarget && d.g (pPTN i) PTN_SNAP_SIZE_BYTES < d.snapTotal i (d.b (pPTN i) PTN_SNAP_CFG_FAR) then 6
  else if d.seqForbids i retarget mask shape then 7
  else if !retarget && gone.any fun n => x.framed.testBit n then 8
  else if queues && ((List.range qc).any (fun k => shapeQcount shape ≤ k && !(d.queueAt (qb + k)).words.isEmpty) ||
      shapeQcount shape * 16 < d.blocksUsed qb (qb + Nat.min qc (shapeQcount shape))) then 9
  else 0

/-- PTN_RESIZE (R168, R169 steps 1 and 3): the clusters to be removed complete their far accesses and drain. -/
def doPtnResize (d : Dev) (tag i : Nat) (retarget : Bool) (mask shape : Nat) : Dev :=
  let d := d.takeService 0x12 tag (i + (if retarget then 16 else 0)) [BitVec.ofNat 64 mask, BitVec.ofNat 64 shape]
  let st := d.resizeRefusal i retarget mask shape
  if st ≠ 0 then (if d.dirState i == 0 then d.answer 0x12 tag st [] else d.answerPtn i 0x12 tag st [])
  else
    let added := maskOf ((maskList mask).filter fun n => !(d.mask i).testBit n)
    let r := d.mntRequest (mntId 6 i 0) added 0x10000 false
    match r.2 with
    | some h => r.1.answer 0x12 tag 10 [BitVec.ofNat 64 h]
    | none =>
      let gone := (maskList (d.mask i)).filter fun n => !mask.testBit n
      let d := r.1.each gone fun d n => (d.farDrain n).drainNi n
      (d.p pDEV (DEV_DIR_STATE i) 3).modPtn i fun x => { x with tagCmd := some (0x12, tag), pendMask := mask, pendShape := shape, retarget := retarget }

/-- The queues of a range move to a new range with their marks and contents; bridge lanes follow (R169 step 5, R251). -/
def moveQueues (d : Dev) (i lo n lo' n' : Nat) : Dev :=
  let d := (if n' < n then d.clearQueues (lo + n') (n - n') else d).clearAdded lo n lo' n'
  let kept := SMap.range d.queue lo (lo + n)
  let q := kept.foldl (fun m e => SMap.set Queue.reset m (e.1 - lo + lo') e.2) (SMap.delRange d.queue lo (lo + n))
  let d := { d with queue := q }
  if lo == lo' then d
  else d.each (List.range 16) fun d gi =>
    let b := pLGRP gi
    if d.g b LGRP_BRIDGE_CFG_OWNER ≠ i then d
    else d.each (List.range 8) fun d l =>
      let one (d : Dev) (q : Fld) : Dev :=
        let v := d.g b q
        if lo ≤ v && v < lo + n then d.p b q (v - lo + lo') else d
      one (one d (LGRP_BRIDGE_Q_TXQ l)) (LGRP_BRIDGE_Q_RXQ l)

/-- Step 6 of a RETARGET (R169): the state is saved, LOADED := 0 and RESTORE_DUE := 1. -/
def retargetSave (d : Dev) (i : Nat) : Dev :=
  let b := pPTN i
  let d := (d.mntRequest (mntId 5 i 0) 0 (mntId 6 i 0) false).1
  let d := d.snapPut i (d.g b PTN_SNAP_BASE_ADDR) (d.snapHead i false)
  let d := d.p b PTN_SNAP_STATUS_STATE 1
  (((d.doSnapSaveComplete i).p b PTN_SEQ_STATUS_LOADED 0).on pDEV (DEV_DIR_RESTORE_DUE i))

/-- What the completion of a resize waits for (R169, R126): a boundary, a sequencer state that permits the change, the couriers' started
items that name a moved queue, the removed clusters' interfaces FENCED, and, in a partition that runs, the added clusters' power (R382). -/
def resizeWaits (d : Dev) (i : Nat) : Bool :=
  let x := d.ptnAt i
  let lo := d.g pDEV (DEV_DIR_QBASE i)
  let n := d.g pDEV (DEV_DIR_QCOUNT i)
  d.b (pPTN i) PTN_POSITION_IN_CYCLE || d.seqForbids i x.retarget x.pendMask x.pendShape || d.carrying i (fun _ => true) ||
    d.carrying 16 (namesMoved true lo n (shapeQbase x.pendShape) (shapeQcount x.pendShape)) ||
    !d.allFenced ((maskList (d.mask i)).filter fun n => !x.pendMask.testBit n) ||
    (d.keepsOn i && (maskList x.pendMask).any fun n => d.cluPower n == 2)

/-- PTN_RESIZE_COMPLETE: steps 2 to 8 of R169, between two emulated cycles; a PARTITION reset that waited then acts (R388). What the stores
of cluster 2k+1 hold once it is unfused has no rule: they are free (log entry 61). -/
def doPtnResizeComplete (d : Dev) (i : Nat) : Dev :=
  if d.dirState i ≠ 3 || d.resizeWaits i then d
  else
    let x := d.ptnAt i
    let old := d.mask i
    let gone := (maskList old).filter fun n => !x.pendMask.testBit n
    let parted := ((maskList x.fusedMask).filter fun k => !(shapeFused x.pendShape).testBit k && x.pendMask.testBit (2 * k + 1)).map (2 * · + 1)
    let added := (maskList x.pendMask).filter fun n => !old.testBit n
    let lo := d.g pDEV (DEV_DIR_QBASE i)
    let n := d.g pDEV (DEV_DIR_QCOUNT i)
    let lo' := shapeQbase x.pendShape
    let n' := shapeQcount x.pendShape
    let r := d.returnItems i (namesMoved false lo n lo' n')
    let s := r.1.returnItems 16 (namesMoved true lo n lo' n')
    let d := (s.1.each gone fun d c => d.releasePorts c).moveQueues i lo n lo' n'
    let d := if x.retarget then d.retargetSave i else d
    let d := ((d.each gone fun d c => d.releaseCluster c).each added fun d c => d.clearCluster c).each parted fun d c => d.scrambleTiles c
    let d := d.setDir i (if d.b (pPTN i) PTN_SEQ_STATUS_LOADED then 2 else 1) x.pendMask lo' n'
    let d := d.iff (d.keepsOn i) fun d => d.wakeAll i
    let d := ((d.mntFree (mntId 6 i 0)).p (pPTN i) PTN_SEQ_CFG_EXTENDED (decide (shapeFused x.pendShape ≠ 0)).toNat).modPtn i fun y =>
      { y with fusedMask := shapeFused x.pendShape, pendMask := 0, pendShape := 0, retarget := false, tagCmd := none, resetWait := false }
    let d := (match x.tagCmd with | some (op, tag) => d.answer op tag 0 [BitVec.ofNat 64 (r.2 + s.2)] | none => d).releaseAnswers i
    if x.resetWait then d.ptnResetReq i else d

/-- A directory word as read. -/
def dirWord (d : Dev) (i k : Nat) : Nat :=
  let lo := d.g pDEV (DEV_DIR_MASK i)
  match k with
  | 0 => d.word pDEV (0x200 + 16 * i) fldsDEV
  | 1 => lo % 2 ^ 32
  | 2 => lo / 2 ^ 32
  | _ => d.word pDEV (0x20C + 16 * i) fldsDEV

/-- PTN_QUERY (R164). -/
def doPtnQuery (d : Dev) (tag i : Nat) : Dev :=
  let d := d.takeService 0x13 tag i []
  let x := d.ptnAt i
  if d.dirState i == 0 then d.answer 0x13 tag 2 []
  else d.answerPtn i 0x13 tag 0 ([d.dirWord i 0 ||| d.dirWord i 1 <<< 32, d.dirWord i 2 ||| d.dirWord i 3 <<< 32,
    x.fusedMask ||| (x.quotaSize / 0x100000) <<< 32, x.quotaBase].map (BitVec.ofNat 64))

/-- PING (R432). -/
def doPing (d : Dev) (tag arg : Nat) : Dev :=
  (d.takeService 0x01 tag arg []).answer 0x01 tag 0 [BitVec.ofNat 64 (d.g pLDR LDR_BUNDLE_VERSION_VERSION ||| arg <<< 32)]

end Dev

/-- PTN_CREATE (R164). -/
def execPtnCreate (tag : Byte) (p : Fin 16) (bindVf : Bool) (mask shape : W64) (quotaMiB : W32) (s : State) : Host.Outcome State Fault Refusal :=
  main s fun d => d.serving fun d => d.doPtnCreate tag.toNat p bindVf mask.toNat shape.toNat quotaMiB.toNat
/-- PTN_DESTROY (R161). -/
def execPtnDestroy (tag : Byte) (p : Fin 16) (s : State) : Host.Outcome State Fault Refusal := main s fun d => d.serving fun d => d.doPtnDestroy tag.toNat p
/-- PTN_CLOSE_COMPLETE (R161). -/
def execPtnCloseComplete (p : Fin 16) (s : State) : Host.Outcome State Fault Refusal := main s fun d => d.doPtnClose p
/-- PTN_RESIZE (R169). -/
def execPtnResize (tag : Byte) (p : Fin 16) (retarget : Bool) (mask shape : W64) (s : State) : Host.Outcome State Fault Refusal :=
  main s fun d => d.serving fun d => d.doPtnResize tag.toNat p retarget mask.toNat shape.toNat
/-- PTN_RESIZE_COMPLETE (R169). -/
def execPtnResizeComplete (p : Fin 16) (s : State) : Host.Outcome State Fault Refusal := main s fun d => d.doPtnResizeComplete p
/-- PTN_QUERY (R164). -/
def execPtnQuery (tag : Byte) (p : Fin 16) (s : State) : Host.Outcome State Fault Refusal := main s fun d => d.serving fun d => d.doPtnQuery tag.toNat p
/-- PING (R432). -/
def execPing (tag : Byte) (arg : W32) (s : State) : Host.Outcome State Fault Refusal := main s fun d => d.serving fun d => d.doPing tag.toNat arg.toNat

end Sys2Proof.Machine
end

