-- ==== Sys2Proof/Machine/Tsb.lean ====
section
/-! DEFINITION. The time base (R190 to R193): beacons, slewing, holds and steps. `time` and offsets count units of 2^-16 ns. -/

namespace Sys2Proof.Machine

/-- One ns, one µs and one s in units of 2^-16 ns. -/
def oneNs : Int := 65536
def oneUs : Int := 65536000
def oneSec : Int := 65536000000000

namespace Dev

/-- Whether this device is a slave of the time base. -/
def isSlave (d : Dev) : Bool := d.g pTSB TSB_CFG_ROLE == 2
/-- One-way latency of a link in units of 2^-16 ns: half of RTT steps of 0.5 ns (R235). -/
def linkLatency (d : Dev) (gi : Nat) : Nat := d.g (pLGRP gi) LGRP_RTT_STEPS * 16384

/-- Body of a BEACON message (R242): master time, FRAC, hop count. -/
def beaconBody (time hops : Nat) : Nat := time / 65536 % 2 ^ 64 ||| (time % 65536) <<< 64 ||| hops <<< 80

/-- A BEACON goes out on a link; an AL1 link carries whole nanoseconds only (R182, R244). -/
def sendBeacon (d : Dev) (gi time hops : Nat) : Dev :=
  d.control gi 1 (beaconBody (if d.g (pLGRP gi) LGRP_STATUS_VER == 2 then time else time / 65536 * 65536) hops)

/-- The counter leaves HOLDING and is set, with a discontinuity (R192). -/
def stepTime (d : Dev) (t kind : Nat) : Dev :=
  let d := { d.p pTSB TSB_STATUS_HOLDING 0 with time := t, slewTo := 0 }
  d.discont kind

/-- The counter starts to hold (R192). -/
def holdTime (d : Dev) (off : Int) : Dev :=
  if d.b pTSB TSB_STATUS_HOLDING then { d with slewTo := off }
  else ({ (d.on pTSB TSB_STATUS_HOLDING).on pTSB TSB_STATUS_BACKSTEP with slewTo := off }).discont 2

/-- Beacons in a row within 1 ns; eight lock the device, a step or hold unlocks it (R192). -/
def lockCount (d : Dev) (off : Int) : Dev :=
  if -oneNs ≤ off && off ≤ oneNs then
    let d := { d with sys := { d.sys with inRow := Nat.min (d.sys.inRow + 1) 8 } }
    if d.sys.inRow == 8 then d.on pTSB TSB_STATUS_LOCKED else d
  else
    let d := { d with sys := { d.sys with inRow := 0 } }
    if -oneUs ≤ off && off ≤ oneUs then d else d.p pTSB TSB_STATUS_LOCKED 0

/-- A slave acts on a beacon whose time at this moment is `t` (R192); `whole` compares whole nanoseconds only (R182). OFFSET shows the offset
rounded down to whole ns: R192 gives no rounding (DESIGN CHOICE, log entry 62). -/
def followTime (d : Dev) (t : Nat) (whole : Bool) : Dev :=
  let off : Int := if whole then (((t / 65536 : Nat) : Int) - ((d.time / 65536 : Nat) : Int)) * oneNs else (t : Int) - (d.time : Int)
  let d := (d.p pTSB TSB_OFFSET_NS ((off / oneNs) % (2 ^ 64 : Int)).toNat).lockCount off
  if -oneUs ≤ off && off ≤ oneUs && !(d.b pTSB TSB_STATUS_HOLDING && off < 0) then
    { d.p pTSB TSB_STATUS_HOLDING 0 with slewTo := off }
  else if oneUs < off then (d.on pTSB TSB_STATUS_FWD_STEP).stepTime t 1
  else if -oneSec ≤ off then d.holdTime off
  else ((d.on pTSB TSB_STATUS_EPOCH_INC).p pTSB TSB_EPOCH_COUNT (d.g pTSB TSB_EPOCH_COUNT + 1)).stepTime t 3

/-- The lowest master heard of over a link that is UP, and the lowest lane group among its beacons with the fewest hops (R191). A link whose
beacons stop while it is UP keeps its latest until BEACON_TIMEOUT (DESIGN CHOICE, log entry 64). -/
def bestUpstream (d : Dev) : Option Nat :=
  let up := d.sys.heard.filter fun x => d.g (pLGRP x.1) LGRP_STATUS_STATE == 4
  match up with
  | [] => none
  | e :: rest =>
    let m := rest.foldl (fun m x => Nat.min m x.2.2) e.2.2
    let of := up.filter (fun x => x.2.2 == m)
    let h := of.foldl (fun h x => Nat.min h x.2.1) 0xFFFF
    (of.find? (fun x => x.2.1 == h)).map (·.1)

/-- BEACON_SEND (R191): the time master, on every link that is UP. -/
def doBeaconSend (d : Dev) : Dev := 
  if d.g pTSB TSB_CFG_ROLE == 1 then d.each d.upLinks fun x gi => x.sendBeacon gi d.time 0 else d

/-- BEACON (R191, R192): adopted where it comes over the best link, and forwarded on the others. -/
def doBeacon (d : Dev) (gi ns frac hops master : Nat) (intact : Bool) : Dev :=
  if d.g (pLGRP gi) LGRP_STATUS_STATE ≠ 4 then d
  else if !intact then d.ctlBad gi
  else if !d.isSlave then d
  else
    let d := { d with sys := { d.sys with heard := SMap.put d.sys.heard gi (hops, master) } }
    let d := if d.sys.heard.any (fun x => x.2.2 ≠ master) then d.on pTSB TSB_STATUS_MULTI_MASTER else d
    if d.bestUpstream ≠ some gi then d
    else
      let t := ns * 65536 + frac + d.linkLatency gi
      let d := ((d.p pTSB TSB_STATUS_UPSTREAM gi).p pTSB TSB_STATUS_ON_STRING 0).on pLNK LNK_SYS_STATUS_FREQ_LOCK
      let d := (d.p pCKG CKG_STATUS_HOLDOVER 0).followTime t (d.g (pLGRP gi) LGRP_STATUS_VER == 1)
      d.each (d.upLinks.filter (· ≠ gi)) fun d o => d.sendBeacon o t (hops + 1)

/-- BEACON_TIMEOUT (R191): no link beacon for 100 µs. -/
def doBeaconTimeout (d : Dev) : Dev :=
  if d.isSlave then
    let d := { d with sys := { d.sys with heard := [], inRow := 0 } }
    if d.b pTSB TSB_CFG_STRING_FB then d.on pTSB TSB_STATUS_ON_STRING else d
  else d

/-- A beacon of the String ring, followed while ON_STRING is 1 (R191). -/
def ringBeacon (d : Dev) (ttl ns frac : Nat) : Dev :=
  if d.isSlave && d.b pTSB TSB_STATUS_ON_STRING then d.followTime (ns * 65536 + frac + Config.ringDelay ttl) false else d

/-- TSB_HOLD_END (R192): the held counter has reached the master's time, having advanced by what was left of the offset. -/
def doHoldEnd (d : Dev) : Dev :=
  if d.b pTSB TSB_STATUS_HOLDING then { d.p pTSB TSB_STATUS_HOLDING 0 with time := d.time + (-d.slewTo).toNat, slewTo := 0 } else d

/-- TSB.SET (R193). -/
def doTsbSet (d : Dev) (v : Nat) : Dev :=
  if d.isSlave then d else d.stepTime (v * 65536 + d.time % 65536) (if d.now ≤ v then 1 else 2)

/-- What one step of 0.5 ns adds to the counter, and what is left of the offset (R192). -/
def stepAdds (d : Dev) : Nat × Int :=
  if d.b pTSB TSB_STATUS_HOLDING then (16384, d.slewTo + 16384)
  else if 32 ≤ d.slewTo then (32768 + 32, d.slewTo - 32)
  else if d.slewTo ≤ -32 then (32768 - 32, d.slewTo + 32)
  else ((32768 + d.slewTo).toNat, 0)

/-- The clock advances by one step: time base, clock-unit trace counters, the Puppeteer cores, and the event of every hub clock (R190, R337,
R402). -/
def clockStep (d : Dev) : Dev :=
  let r := d.stepAdds
  let before := d.time / oneUs.toNat
  let d := { d with time := d.time + r.1, slewTo := r.2, ticks := d.ticks + 1 }
  let d := if d.b pTSB TSB_STATUS_HOLDING && 0 ≤ r.2 then { d.p pTSB TSB_STATUS_HOLDING 0 with slewTo := 0 } else d
  let us := d.time / oneUs.toNat - before
  let d := if us == 0 then d else d.each (List.range 17) fun d s =>
    if d.strmEn s && d.g pTRC (TRC_S_CFG_CNT_UNIT s) == 1 then d.add pTRC (TRC_S_COUNT_COUNT s) us else d
  d.pupStep.raise 0x3FF 4 16 0 0

end Dev

/-- What a step does with no command waiting: one step clock passes in the main domain (DESIGN CHOICE, log entry 2). -/
def idle (s : State) : Host.Outcome State Fault Refusal := main s Dev.clockStep

/-- BEACON_SEND (R191). -/
def execBeaconSend (s : State) : Host.Outcome State Fault Refusal := main s fun d => d.doBeaconSend
/-- BEACON (R192). -/
def execBeacon (g : Fin 16) (ns : W64) (frac : BitVec 16) (hops : Nat) (master : Fin 512) (intact : Bool) (s : State) :
    Host.Outcome State Fault Refusal := main s fun d => d.doBeacon g ns.toNat frac.toNat hops master intact
/-- BEACON_TIMEOUT (R191). -/
def execBeaconTimeout (s : State) : Host.Outcome State Fault Refusal := main s fun d => d.doBeaconTimeout
/-- TSB_HOLD_END (R192). -/
def execTsbHoldEnd (s : State) : Host.Outcome State Fault Refusal := main s fun d => d.doHoldEnd
/-- TSB_SET (R193). -/
def execTsbSet (v : W64) (s : State) : Host.Outcome State Fault Refusal := main s fun d => if d.full then d.doTsbSet v.toNat else d

end Sys2Proof.Machine
end

