-- ==== Sys2Proof/Machine/Boot.lean ====
section
/-! DEFINITION. The boot loader, its fuses and the service commands that read or burn them (R194 to R206, R348 to R352). -/

namespace Sys2Proof.Machine

/-- The highest `k` from 1 to 64 whose bit k - 1 of a fuse map is 1, or 0 (R201). -/
def highFuse (m : Nat) : Nat := ((List.range 64).filter m.testBit).foldl (fun _ k => k + 1) 0
/-- Bits a to b - 1 as a mask: fuses a + 1 to b. -/
def fuseRange (a b : Nat) : Nat := 2 ^ b - 2 ^ Nat.min a b

/-- Entry `i` of a bundle's section table: offset, length, type, and its six zero bytes (R197). -/
def bundleSection (bs : List Byte) (i : Nat) : Nat × Nat × Nat × Nat :=
  let o := 0x40 + 16 * i
  (leAt bs o 4, leAt bs (o + 4) 4, leAt bs (o + 8) 2, leAt bs (o + 10) 6)

/-- MAGIC, FORMAT, BODY_LEN, SECTIONS and the section table obey R197. -/
def bundleFormat (bs : List Byte) : Bool :=
  let body := leAt bs 0x0C 4
  let n := leAt bs 0x10 4
  let secs := (List.range n).map (bundleSection bs)
  let ok (s : Nat × Nat × Nat × Nat) : Bool := s.1 % 64 == 0 && 0x200 ≤ s.1 && s.1 + s.2.1 ≤ body && 1 ≤ s.2.2.1 && s.2.2.1 ≤ 3 && s.2.2.2 == 0
  leAt bs 0 4 == 0x53424457 && leAt bs 4 2 == 1 && body % 64 == 0 && 512 ≤ body && body + 256 == bs.length &&
    1 ≤ n && n ≤ 16 && secs.all ok &&
    (List.range n).all fun j => (List.range j).all fun i =>
      let a := bundleSection bs i
      let b := bundleSection bs j
      !overlaps a.1 a.2.1 b.1 b.2.1

/-- A bundle's KEY and SIG (R197). -/
def bundleKey (bs : List Byte) : List Byte := (bs.drop (leAt bs 0x0C 4)).take 96
def bundleSig (bs : List Byte) : List Byte := (bs.drop (leAt bs 0x0C 4 + 96)).take 96
/-- A bundle's security version and version word. -/
def bundleSvn (bs : List Byte) : Nat := leAt bs 6 2
def bundleVersion (bs : List Byte) : Nat := leAt bs 8 4

/-- The refusal of steps 3 to 6 of R198, in their order; 0 none. -/
def bundleRefusal (bs : List Byte) (count : Nat) : Nat :=
  if !bundleFormat bs then 3
  else if leNat (sha384 (bundleKey bs)) ≠ Config.rootHash.toNat then 4
  else if !ecdsaVerify (bundleKey bs) (bundleSig bs) (bs.take (leAt bs 0x0C 4 + 96)) then 5
  else if 64 < bundleSvn bs then 6
  else if bundleSvn bs < count then 7
  else 0

namespace Dev

def setBoot (d : Dev) (st : Nat) : Dev := d.p pLDR LDR_BOOT_STATUS_STATE st
/-- FUS.SVN.COUNT (R201). -/
def svnCount (d : Dev) : Nat := highFuse d.boot.done.toNat

/-- The staging buffer is emptied. -/
def clearStaging (d : Dev) : Dev := { d with boot := { d.boot with staging := [] } }

/-- A bundle is refused (R199, R200). -/
def refuseBundle (d : Dev) (code : Nat) : Dev :=
  (((d.clearStaging.setBoot 1).p pLDR LDR_BOOT_STATUS_LAST_REFUSAL code).add pLDR LDR_BUNDLE_REFUSED_COUNT 1).irq pLDR 0

/-- BOOT_CMD GO (R198, R200): the length is checked at once. -/
def doBootGo (d : Dev) : Dev :=
  if d.bootState ≠ 1 then d
  else
    let d := d.add pLDR LDR_BUNDLE_ATTEMPTS_COUNT 1
    let n := d.g pLDR LDR_BOOT_LEN_BYTES
    if 768 ≤ n && n ≤ 0x400000 then d.setBoot 2 else d.refuseBundle 1

/-- BOOT_CMD ABORT (R200). -/
def doBootAbort (d : Dev) : Dev := if d.bootState == 2 || d.bootState == 3 then d.refuseBundle 8 else d

/-- The fetch ends (R198 step 2). Data of another length than BOOT_LEN is no completed fetch. -/
def doFetchDone (d : Dev) (data : Option (List Byte)) : Dev :=
  if d.bootState ≠ 2 then d
  else match data with
    | none => d.refuseBundle 2
    | some bs =>
      if bs.length == d.g pLDR LDR_BOOT_LEN_BYTES then { d.setBoot 3 with boot := { d.boot with staging := bs } }
      else d.refuseBundle 2

/-- Verification ends (R198 steps 3 to 7): the Puppeteer cores are released with a good bundle. -/
def doVerifyDone (d : Dev) : Dev :=
  if d.bootState ≠ 3 then d
  else
    let bs := d.boot.staging
    let r := bundleRefusal bs d.svnCount
    if r ≠ 0 then d.refuseBundle r
    else
      let d := ((d.setBoot 4).p pLDR LDR_BOOT_STATUS_RUNNING_SVN (bundleSvn bs)).p pLDR LDR_BUNDLE_VERSION_VERSION (bundleVersion bs)
      d.each (List.range 8) fun d c => d.p pPUP (PUP_CORE_STATE_STATE c) 1

/-- A device-owned queue that Stage enables. -/
def stageQueue (d : Dev) (q depth : Nat) : Dev := d.setQueue q { Queue.reset with en := true, priv := true, depth := depth }

/-- Queues 0 to 3 at the depths of Host Interface and Register Map, and those of 4 to 15 that Stage enables within their 2 KiB (R298). -/
def stageQueues (d : Dev) : Dev :=
  let d := (((d.stageQueue 0 6).stageQueue 1 6).stageQueue 2 6).stageQueue 3 5
  ((List.range 12).foldl (fun (r : Dev × Nat) i =>
    match Config.stageQueue (4 + i) with
    | some depth => if 2 ^ depth.val ≤ r.2 then (r.1.stageQueue (4 + i) depth, r.2 - 2 ^ depth.val) else r
    | none => r) (d, 32)).1

/-- Stage reports ready (R200, R262, R384, R389, R392): the route tables are written, HBM is up, the service queues are enabled, the Warden is
armed. -/
def doStageReady (d : Dev) : Dev :=
  if d.bootState ≠ 4 then d
  else
    let d := (d.setBoot 5).p pLDR LDR_BOOT_STATUS_UNCONFIRMED (decide (d.svnCount < d.g pLDR LDR_BOOT_STATUS_RUNNING_SVN)).toNat
    let d := (d.p pCKG CKG_STATUS_HBM_LOCK 15).each (List.range 4) fun d q => d.on (pHMC q) HMC_STATUS_UP
    let d := d.stageQueues
    let d := if d.bundleRouteBad then (d.on pNOC NOC_RT_CTRL_RT_ERR).irq pNOC 3 else d
    (if d.g pWDN WDN_STATUS_STATE == 0 then d.p pWDN WDN_STATUS_STATE 1 else d).irq pLDR 0

/-- CONFIRM GO (R200, R201, R409). -/
def doConfirm (d : Dev) : Dev :=
  if d.bootState ≠ 5 then d
  else
    let r := d.mntRequest (mntId 7 16 0) 0 0x10000 false
    match r.2 with
    | some _ => (r.1.p pLDR LDR_BOOT_STATUS_CONFIRM_RESULT 2).irq pLDR 1
    | none =>
      let d := r.1.setBoot 6
      { d with boot := { d.boot with burn := some (d.g pLDR LDR_BOOT_STATUS_RUNNING_SVN) } }

/-- The counter burn for target `n` runs to its end (R201). -/
def burnAll (d : Dev) (n : Nat) : Dev :=
  if n ≤ d.svnCount then d
  else { d with boot := { d.boot with pm := d.boot.pm ||| BitVec.ofNat 64 (fuseRange (n - 1) n),
                                      done := d.boot.done ||| BitVec.ofNat 64 (fuseRange d.svnCount n) } }

/-- The counter burn for target `n` stops part of the way (R203): how many fuses are burned and whether the last is weak is free. -/
def burnPart (d : Dev) (n : Nat) : Dev :=
  let c := d.svnCount
  if n ≤ c then d
  else
    let k := (Config.freeWord d.fresh 0).toNat % (n - c + 2)
    let weak := Config.freeBit d.fresh 1
    let d := d.tick
    if k = 0 then d
    else
      let one := BitVec.ofNat 64 (fuseRange (n - 1) n)
      let last := BitVec.ofNat 64 (fuseRange (c + k - 2) (c + k - 1))
      { d with boot := { d.boot with pm := d.boot.pm ||| one, done := d.boot.done ||| BitVec.ofNat 64 (fuseRange c (c + k - 1)),
                                     weakPm := if weak && k == 1 then d.boot.weakPm ||| one else d.boot.weakPm,
                                     weakDone := if weak && k ≠ 1 then d.boot.weakDone ||| last else d.boot.weakDone } }

/-- The counter burn ends (R200, R201), and ACTIVE is entered (R206). -/
def doBurnDone (d : Dev) (fault : Bool) : Dev :=
  match d.boot.burn with
  | none => d
  | some n =>
    let done := !fault || n ≤ d.svnCount
    let d := if done then d.burnAll n else d.burnPart n
    let d := if done then (d.p pLDR LDR_BOOT_STATUS_CONFIRM_RESULT 1).p pLDR LDR_BOOT_STATUS_UNCONFIRMED 0
             else d.p pLDR LDR_BOOT_STATUS_CONFIRM_RESULT 3
    ((({ d with boot := { d.boot with burn := none } }.setBoot 5).mntFree (mntId 7 16 0)).irq pLDR 0).irq pLDR 1

/-- Words as one number, least significant word first. -/
def wordsNat (ws : List W64) : Nat := ws.foldr (fun w a => w.toNat + 2 ^ 64 * a) 0

/-- OWNER_PROVISION (R204): refused at once, or the burn begins. R204 gives its refusals no order: BAD_COMMAND, ALREADY_SET, CONFLICT and the
last in turn (DESIGN CHOICE, log entry 65). -/
def doOwnerProvision (d : Dev) (tag : Nat) (ws : List W64) : Dev :=
  let d := d.takeService 0x20 tag 0 ws
  let hash := BitVec.ofNat 384 (wordsNat ws)
  if ws.length ≠ 6 then d.answer 0x20 tag 1 []
  else if d.boot.ownerProv then d.answer 0x20 tag 0x0C []
  else
    let r := d.mntRequest (mntId 7 16 0) 0 0x10000 false
    match r.2 with
    | some h => r.1.answer 0x20 tag 0x0A [BitVec.ofNat 64 h]
    | none =>
      if d.boot.ownerHash &&& ~~~hash ≠ 0 then (r.1.mntFree (mntId 7 16 0)).answer 0x20 tag 0x0D []
      else { r.1 with boot := { r.1.boot with provTag := some (tag, hash) } }

/-- 384 free bits, from the `k`-th of a generation on. -/
def freeFuses (gen k : Nat) : BitVec 384 :=
  BitVec.ofNat 384 ((List.range 384).foldl (fun m j => if Config.freeBit gen (k + j) then m ||| 1 <<< j else m) 0)

/-- Which hash fuses a burn that stops part of the way leaves burned is free, and, where power is `cut`, which of them are left half
burned; with all of them burned, OWNER_PROV may be half burned too (R202 to R204). -/
def ownerPart (d : Dev) (hash : BitVec 384) (cut : Bool) : Dev :=
  let new := hash &&& freeFuses d.fresh 0 &&& ~~~d.boot.ownerHash
  let full := d.boot.ownerHash ||| new
  let weak := if cut then new &&& freeFuses d.fresh 384 else 0
  let prov := cut && full == hash && weak == 0 && Config.freeBit d.fresh 768
  { d.tick with boot := { d.boot with ownerHash := full, weakOwner := d.boot.weakOwner ||| weak,
                                      ownerProv := d.boot.ownerProv || prov, weakProv := d.boot.weakProv || prov } }

/-- The owner burn ends and its command is answered (R204). -/
def doOwnerBurnDone (d : Dev) (fault : Bool) : Dev :=
  match d.boot.provTag with
  | none => d
  | some (tag, hash) =>
    let d := { d with boot := { d.boot with provTag := none } }
    let d := d.mntFree (mntId 7 16 0)
    if fault then (d.ownerPart hash false).answer 0x20 tag 0x0D []
    else
      let d := { d with boot := { d.boot with ownerHash := hash, ownerProv := true } }
      (d.setAuthMode.p pFUS FUS_STATUS_OWNER_FAULT 0).answer 0x20 tag 0 []

/-- A burn in progress stops with its power or by PERST (R203, R204, R388). -/
def cutBurns (d : Dev) : Dev :=
  let d := match d.boot.burn with | some n => d.burnPart n | none => d
  let d := match d.boot.provTag with | some (_, hash) => d.ownerPart hash true | none => d
  { d with boot := { d.boot with burn := none, provTag := none } }

/-- The ROM at every start (R202 to R204): weak fuses, which count as burned, are burned again, and a pre-marked advance is completed;
COMPLETED_AT_START says that some DONE fuse of it was not yet wholly burned, as in R203's example. -/
def romStart (d : Dev) : Dev :=
  let x := d.boot
  let t := Nat.max (highFuse x.pm.toNat) (highFuse x.done.toNat)
  let all := BitVec.ofNat 64 (fuseRange 0 t)
  let firm := x.done &&& ~~~x.weakDone
  let d := d.p pFUS FUS_SVN_REBURNED (x.weakPm != 0 || x.weakDone != 0 || x.weakOwner != 0 || x.weakProv).toNat
  let d := d.p pFUS FUS_SVN_COMPLETED_AT_START (firm ||| all != firm).toNat
  let d := d.p pFUS FUS_STATUS_OWNER_FAULT (!x.ownerProv && x.ownerHash != 0).toNat
  { d with boot := { d.boot with done := x.done ||| all, weakPm := 0, weakDone := 0, weakOwner := 0, weakProv := false } }

/-! TOKEN_PRESENT (R350, R351). -/

/-- Status of a token's checks in their order. -/
def tokenStatus (d : Dev) (t : List Byte) : Nat :=
  let key := (t.drop 0x30).take 96
  if leAt t 0 4 ≠ 0x4E4B5457 || leAt t 4 2 ≠ 1 || 32 ≤ leAt t 6 2 || leAt t 0x0A 2 ≠ 0 then 0x0F
  else if leNat (sha384 key) ≠ d.boot.ownerHash.toNat then 0x10
  else if !ecdsaVerify key ((t.drop 0x90).take 96) (t.take 0x90) then 0x11
  else if d.nonce ≠ some (BitVec.ofNat 256 (leAt t 0x10 32)) then 0x12
  else 0

/-- TOKEN_PRESENT (R351, R352, R353). -/
def doTokenPresent (d : Dev) (tag : Nat) (ws : List W64) : Dev :=
  let d := d.takeService 0x31 tag 0 ws
  let t := ws.flatMap fun w => leBytes 8 w.toNat
  let st := if ws.length ≠ 30 then 1 else if !d.authMode then 0x0E else d.tokenStatus t
  if st ≠ 0 then ((d.add pTRC TRC_TOKENS_REFUSED_COUNT 1).p pTRC TRC_LAST_REFUSAL_STATUS st).answer 0x31 tag st []
  else
    let life := leAt t 0x0C 4
    let d := ({ d with nonce := none }.p pTRC TRC_AUTH_RIGHTS (leAt t 6 2)).p pTRC TRC_AUTH_PARTITIONS (leAt t 8 2)
    let d := d.p pTRC TRC_EXPIRES_NS (if life = 0 then 0 else d.now + life * 1000000000)
    (d.applyRights.add pTRC TRC_TOKENS_OK_COUNT 1).answer 0x31 tag 0 []

/-! The opcodes of service commands (R163, R432). -/

/-- LENGTH of the command with an opcode of R432; none where the table lacks the opcode. -/
def serviceLength (op : Nat) : Option Nat :=
  match op with
  | 0x01 | 0x11 | 0x13 | 0x30 | 0x32 => some 0
  | 0x10 => some 3
  | 0x12 => some 2
  | 0x20 => some 6
  | 0x31 => some 30
  | _ => none

/-- The bits of a command's argument that its opcode uses (R164, R204, R351, R432). -/
def serviceArg (op arg : Nat) : Nat :=
  match op with
  | 0x01 => arg
  | 0x10 | 0x12 => arg % 32
  | 0x11 | 0x13 => arg % 16
  | _ => 0

/-- The command of an opcode runs, with its tag, argument and words. -/
def runService (d : Dev) (op tag arg : Nat) (ws : List W64) : Dev :=
  let w (i : Nat) : Nat := (ws.getD i 0).toNat
  match op with
  | 0x01 => d.doPing tag arg
  | 0x10 => d.doPtnCreate tag (arg % 16) (arg.testBit 4) (w 0) (w 1) (w 2 % 2 ^ 32)
  | 0x11 => d.doPtnDestroy tag arg
  | 0x12 => d.doPtnResize tag (arg % 16) (arg.testBit 4) (w 0) (w 1)
  | 0x13 => d.doPtnQuery tag arg
  | 0x20 => d.doOwnerProvision tag ws
  | 0x30 => d.doTokenChallenge (BitVec.ofNat 8 tag)
  | 0x31 => d.doTokenPresent tag ws
  | _ => d.doTokenRevoke (BitVec.ofNat 8 tag)

/-- The words that follow a header at the head of queue 0, where a whole packet with that header waits there. -/
def servicePacket (d : Dev) (hdr : W64) : Option (List W64) :=
  match headPacket (d.queueAt 0).words with
  | w :: ws => if w.data == hdr && (w :: ws).any (·.fin) then some (ws.map (·.data)) else none
  | [] => none

/-- Queue 0 with the packet at its head replaced by these words. -/
def swapService (d : Dev) (ws : List W64) : Dev :=
  d.modQueue 0 fun x => { x with words := ws.mapIdx (fun i w => ⟨w, i + 1 == ws.length, false, []⟩) ++ x.words.drop (headPacket x.words).length, taken := false }

/-- A command picked by its header's opcode (R163, R430, R432): one that the table lists, with the LENGTH it needs and all its words, runs; any other
is answered with BAD_COMMAND. -/
def doBadCommand (d : Dev) (hdr : W64) : Dev :=
  let v := hdr.toNat
  let op := bitsAt v 0 8
  let tag := bitsAt v 24 8
  let arg := serviceArg op (bitsAt v 32 32)
  let p := d.servicePacket hdr
  let ws := p.getD []
  if serviceLength op == some (bitsAt v 8 16) && bitsAt v 8 16 == ws.length then
    (d.iff p.isSome fun d => d.swapService (BitVec.ofNat 64 (op ||| ws.length <<< 8 ||| tag <<< 24 ||| arg <<< 32) :: ws)).runService op tag arg ws
  else (d.iff p.isSome fun d => d.swapService []).answer op tag 1 []

end Dev

/-- BOOT_GO (R198). -/
def execBootGo (s : State) : Host.Outcome State Fault Refusal := main s fun d => d.atPage pLDR fun d => d.doBootGo
/-- BOOT_ABORT (R200). -/
def execBootAbort (s : State) : Host.Outcome State Fault Refusal := main s fun d => d.atPage pLDR fun d => d.doBootAbort
/-- BUNDLE_FETCH_COMPLETE (R198). -/
def execBundleFetchComplete (data : Option (List Byte)) (s : State) : Host.Outcome State Fault Refusal := main s fun d => d.doFetchDone data
/-- BUNDLE_VERIFY_COMPLETE (R198). -/
def execBundleVerifyComplete (s : State) : Host.Outcome State Fault Refusal := main s fun d => d.doVerifyDone
/-- STAGE_READY (R200). -/
def execStageReady (s : State) : Host.Outcome State Fault Refusal := main s fun d => d.doStageReady
/-- CONFIRM (R201). -/
def execConfirm (s : State) : Host.Outcome State Fault Refusal := main s fun d => d.atPage pLDR fun d => d.doConfirm
/-- BURN_COMPLETE (R201). -/
def execBurnComplete (fault : Bool) (s : State) : Host.Outcome State Fault Refusal := main s fun d => d.doBurnDone fault
/-- OWNER_PROVISION (R204). -/
def execOwnerProvision (tag : Byte) (hash : Words) (s : State) : Host.Outcome State Fault Refusal :=
  main s fun d => d.serving fun d => d.doOwnerProvision tag.toNat hash
/-- OWNER_BURN_COMPLETE (R204). -/
def execOwnerBurnComplete (fault : Bool) (s : State) : Host.Outcome State Fault Refusal := main s fun d => d.doOwnerBurnDone fault
/-- TOKEN_PRESENT (R351). -/
def execTokenPresent (tag : Byte) (token : Words) (s : State) : Host.Outcome State Fault Refusal :=
  main s fun d => d.serving fun d => d.doTokenPresent tag.toNat token
/-- SERVICE_BAD_COMMAND (R163, R432). -/
def execServiceBadCommand (hdr : W64) (s : State) : Host.Outcome State Fault Refusal := main s fun d => d.serving fun d => d.doBadCommand hdr

end Sys2Proof.Machine
end

