-- ==== Sys2Proof/Machine/Loader.lean ====
section
/-! DEFINITION. Personality frames, the loader channels and the image area (R207 to R216). -/

namespace Sys2Proof.Machine

/-- A frame's header fields (R207) with its payload. -/
structure Frame where
  magicOk : Bool
  crcOk   : Bool
  cls     : Nat
  part    : Nat
  seq     : Nat
  length  : Nat
  first   : Bool
  i       : Nat
  t       : Nat
  off     : Nat
  id      : Nat
  origin  : Nat
  frames  : Nat
  bytes   : List Byte
  payload : List Byte
deriving DecidableEq, Repr

/-- Room one frame takes in the image area: its header and the longest payload. Frame SEQ stands at SEQ times this (R214). -/
def frameSlot : Nat := 4160

/-- A frame read from bytes; none where they do not hold the header and LENGTH payload bytes. -/
def readFrame (bs : List Byte) : Option Frame :=
  let n := leAt bs 0x0C 2
  if bs.length < 64 + n then none
  else
    let hdr := bs.take 60
    let pl := (bs.drop 64).take n
    some { magicOk := leAt bs 0 4 == 0x50465857 && leAt bs 4 2 == 1, crcOk := crc32c (hdr ++ pl) == leAt bs 0x3C 4,
           cls := leAt bs 6 1, part := leAt bs 7 1, seq := leAt bs 8 4, length := n, first := (leAt bs 0x0E 2).testBit 0,
           i := leAt bs 0x17 1, t := leAt bs 0x16 1, off := leAt bs 0x10 6, id := leAt bs 0x18 8, origin := leAt bs 0x20 8,
           frames := leAt bs 0x28 4, bytes := bs.take (64 + n), payload := pl }

/-- Alignment of offset and LENGTH, by class (R208). -/
def frameAlign (c : Nat) : Nat := if c == 3 || c == 4 then 32 else if c == 5 || c == 6 || c == 8 then 4 else 16
/-- Size of what a class's offset may reach; a table stream is bounded by Stage's check alone (R208, R216). -/
def frameSize (c : Nat) : Nat :=
  match c with
  | 1 => 0x40000
  | 2 => 0x2000
  | 3 => 0x2000
  | 4 => 0x2000
  | 5 => 0x600
  | 6 => 0x400
  | 7 => 0x20000
  | 9 => 0x840000
  | _ => 2 ^ 48
/-- Whether TARGET's cluster index counts for a class. -/
def frameNames (c : Nat) : Bool := c ≠ 5 && c ≠ 8
/-- The bound of TARGET's tile field: a tile, a block for class 7, ignored for classes 4, 5 and 8 (R208, R210). -/
def frameTiles (c : Nat) : Nat := if c == 7 then 8 else if c == 4 || c == 5 || c == 8 then 256 else 32

namespace Dev

/-- Cluster of index `i` in a partition's mask (R208). -/
def clusterIx (d : Dev) (i k : Nat) : Nat := (d.clustersOf i).getD k 0

/-- The relative fused mask: bit k where the k-th cluster of the mask is the even member of a fused pair (R208). -/
def relFused (d : Dev) (i : Nat) : Nat :=
  maskOf ((List.range (d.clustersOf i).length).filter fun k =>
    let n := d.clusterIx i k
    n % 2 == 0 && (d.ptnAt i).fusedMask.testBit (n / 2))

/-- A byte range of a partition's quota on 4 KiB boundaries. -/
def inQuota (d : Dev) (i off n : Nat) : Bool := off % 4096 == 0 && off + n ≤ (d.ptnAt i).quotaSize

/-- Stage's check of the tables against the partition (R142, R164, R165, R173, R174, R185, R208). -/
def tablesFit (d : Dev) (i : Nat) (t : Config.Tables) : Bool :=
  t.clusters == (d.clustersOf i).length && t.fused == d.relFused i && t.regions.length ≤ 16 &&
    t.regions.all (fun r => r.2 < 12 || 36 < r.2 || d.inQuota i r.1 (2 ^ r.2)) &&
    d.inQuota i t.snapOff t.snapSize && d.inQuota i t.imgOff t.imgSize && t.compare.length ≤ 4096 &&
    (t.links.all fun l =>
      l.group < 16 && 1 ≤ l.budget && l.budget ≤ 255 && !(d.b pLNK (LNK_BUDGET_SLOTS l.group) && d.g pLNK (LNK_BUDGET_OWNER l.group) ≠ i) &&
        l.slots.all fun s => onesBelow s.2.toNat 16 ≤ 13 && onesBelow (s.2.toNat / 65536) 16 ≤ 13) &&
    t.cfg.all fun c => c.1 < (d.clustersOf i).length && c.2.1 % 4 == 0 &&
      ((0x230 ≤ c.2.1 && c.2.1 < 0x238) || (0x240 ≤ c.2.1 && c.2.1 < 0x320) || (0x400 ≤ c.2.1 && c.2.1 < 0x800))

/-- A register word as Stage writes it: fields the host may only read are written too. -/
def stageWord (d : Dev) (base off v : Nat) (fs : List Fld) : Dev :=
  d.each (fs.filter (·.off == off)) fun d f => d.p base f (bitsAt v f.lo f.w)

/-- Stage writes a partition's registers from its tables (R121, R142, R154, R173 to R175, R208, R289). -/
def applyTables (d : Dev) (i : Nat) (t : Config.Tables) : Dev :=
  let b := pPTN i
  let q := (d.ptnAt i).quotaBase
  let d := d.each (List.range 16) fun d r =>
    match t.regions[r]? with
    | some x => (d.p b (PTN_FREGION_BASE r) (q + x.1)).p b (PTN_FREGION_LOG2SIZE r) x.2
    | none => (d.p b (PTN_FREGION_BASE r) 0).p b (PTN_FREGION_LOG2SIZE r) 0
  let d := (d.p b PTN_SNAP_BASE_ADDR (q + t.snapOff)).p b PTN_SNAP_SIZE_BYTES t.snapSize
  let d := ((d.p b PTN_LINK_CFG_HORIZON t.horizon).p b PTN_LINK_CFG_LEAD t.lead.toNat).p b PTN_SEQ_CFG_LINKED t.linked.toNat
  let d := (d.p b PTN_SEQ_CFG_EXTENDED (t.fused != 0).toNat).p pDEV (DEV_DIR_LINKED i) t.linked.toNat
  let d := d.dropSlots i
  let d := d.each t.links fun d l =>
    let d := ((d.p pLNK (LNK_BUDGET_BUDGET l.group) l.budget).p pLNK (LNK_BUDGET_OWNER l.group) i).on pLNK (LNK_BUDGET_SLOTS l.group)
    d.p pLNK (LNK_BUDGET_OVER l.group) (decide (l.budget < d.g pLNK (LNK_BUDGET_MEASURED l.group))).toNat
  let d := (d.each (d.clustersOf i) fun d n => d.releasePorts n).each t.cfg fun d c => d.stageWord (pCLU (d.clusterIx i c.1)) c.2.1 c.2.2 fldsCLU
  d.modPtn i fun x => { x with tables := some t }

/-- The table stream with a frame's bytes in it; a new image starts an empty one. -/
def streamWith (d : Dev) (i : Nat) (f : Frame) (fresh : Bool) : SMap Byte :=
  ((List.range f.payload.length).zip f.payload).foldl (fun m e => SMap.put m (f.off + e.1) e.2) (if fresh then [] else (d.ptnAt i).stream)

/-- Stage's answer on a table stream of partition `i` (R208, R213). -/
def streamCheck (d : Dev) (i : Nat) (s : SMap Byte) : Config.TableCheck :=
  match Config.checkTables s with
  | .good t => if d.tablesFit i t then .good t else .bad
  | r => r

/-- Whether a frame begins a new image (R212); a replay begins the area's image whichever frame holds FIRST. -/
def beginsImage (d : Dev) (i : Nat) (f : Frame) : Bool :=
  (f.first || (d.ptnAt i).replay) && (d.g (pPTN i) PTN_EXPECTED_FRAMES == 0 || f.id ≠ d.g (pPTN i) PTN_IMAGE_ID_ID)

/-- The image area as an offset in the quota and a size, size 0 where it is absent (R208, R213, R214). -/
def imageArea (d : Dev) (i : Nat) (f : Frame) (fresh : Bool) : Nat × Nat :=
  let x := d.ptnAt i
  if x.replay then match x.img with | some m => (m.base - x.quotaBase, m.size) | none => (0, 0)
  else
    match d.streamCheck i (if f.cls == 8 then d.streamWith i f fresh else if fresh then [] else x.stream) with
    | .good t => (t.imgOff, t.imgSize)
    | .incomplete o n => (o, n)
    | .bad => (0, 0)

/-- The refusal of a frame, its checks in the order of R210; 0 none. -/
def frameRefusal (d : Dev) (i : Nat) (f : Frame) : Nat :=
  let b := pPTN i
  let new := d.beginsImage i f
  let cur := d.g b PTN_EXPECTED_FRAMES
  let st := d.seqState i
  let area := d.imageArea i f new
  if !f.magicOk then 2
  else if !f.crcOk then 3
  else if f.part ≠ i then 4
  else if f.cls == 0 || 9 < f.cls then 5
  else if 4096 < f.length || (f.length == 0 && f.cls ≠ 8) then 6
  else if f.off % frameAlign f.cls ≠ 0 || f.length % frameAlign f.cls ≠ 0 then 7
  else if (frameNames f.cls && (d.clustersOf i).length ≤ f.i) || frameTiles f.cls ≤ f.t || frameSize f.cls < f.off + f.length ||
      (f.cls == 5 && f.off < 0x200) || (f.cls == 6 && d.oddFused (d.clusterIx i f.i)) then 8
  else if f.frames ≤ f.seq || f.frames == 0 || 262144 < f.frames || (!new && cur ≠ 0 && f.frames ≠ cur) then 9
  else if !new && (cur == 0 || f.id ≠ d.g b PTN_IMAGE_ID_ID) then 10
  else if st == 1 || st == 3 || d.snapBusy i || !d.usable i || (new && st ≠ 0) then 11
  else if f.cls == 8 && d.streamCheck i (d.streamWith i f new) == .bad then 12
  else if area.2 < (f.seq + 1) * frameSlot || !d.inQuota i area.1 area.2 then 13
  else 0

/-- A new image begins (R43, R84, R212). -/
def beginImage (d : Dev) (i : Nat) (f : Frame) : Dev :=
  let b := pPTN i
  let d := ((d.unload i).p b PTN_IMAGE_ID_ID f.id).p b PTN_ORIGIN_ID f.origin
  let d := ((d.p b PTN_EXPECTED_FRAMES f.frames).p b PTN_RECEIVED_COUNT 0).p b PTN_LOAD_STATUS_TABLES_MISSING 0
  let d := d.modPtn i fun x => { x with recv := [], stream := [], tables := none, img := if x.replay then x.img else none }
  d.each (d.clustersOf i) fun d n => d.setSt (d.st.zero n)

/-- A word rewritten by the loader or the scrubber is no longer held and no longer due for a rewrite (R49, R78, R212). -/
def releaseWord (d : Dev) (n : Nat) (w : WordLoc) : Dev :=
  let d := { d with rewrites := d.rewrites.filter fun e => !(e.1 == n && e.2.1 == w) }
  match w with
  | .bp t b s => d.modClu n fun c => { c with bpHeld := c.bpHeld.filter (· ≠ ixBp n t b s) }
  | .walu t k s => d.modClu n fun c => { c with wlHeld := c.wlHeld.filter (· ≠ ixWa n t k s) }
  | _ => d

/-- State entries or words that a class 6 frame covers at byte `o`: both copies are set (R43, R84). -/
def setInitial (d : Dev) (n t o v : Nat) : Dev :=
  if 0x180 ≤ o && o < 0x200 then
    d.each (List.range 32) fun d j => d.setSt (d.st.setBoth (tileIx n t * 1024 + (8 * (o - 0x180) + j)) (v.testBit j))
  else if 0x300 ≤ o && o < 0x400 then d.setSt (d.st.setBothW (tileIx n t * 64 + (o - 0x300) / 4) (BitVec.ofNat 32 v))
  else d

/-- The words of a payload, `step` bytes each, are written by `put`, which takes the byte offset and the word's bytes. -/
def eachWord (d : Dev) (f : Frame) (step : Nat) (put : Dev → Nat → List Byte → Dev) : Dev :=
  d.each (List.range (f.length / step)) fun d k => put d (f.off + step * k) ((f.payload.drop (step * k)).take step)

/-- A frame is applied to its target (R208). -/
def applyFrame (d : Dev) (i : Nat) (f : Frame) : Dev :=
  let n := d.clusterIx i f.i
  let d := if f.cls ≤ 7 && f.cls ≠ 5 then d.wake n else d
  let d := if frameNames f.cls then d.modPtn i fun x => { x with framed := x.framed ||| 1 <<< n } else d
  match f.cls with
  | 1 => d.eachWord f 16 fun d o bs => let k := bpAt n f.t o; (d.rewriteBp n k (leAt bs 0 10)).releaseWord n (locBp k)
  | 2 => d.eachWord f 16 fun d o bs => let k := waAt n f.t o; (d.rewriteWa n k (leAt bs 0 12)).releaseWord n (locWa k)
  | 3 => d.eachWord f 2 fun d o bs => let k := ixPort n f.t (o % 32 / 2) (o / 32); (d.setPort k (freshPar 16 (leNat bs))).releaseWord n (locPort k)
  | 4 => d.eachWord f 4 fun d o bs => let k := ixMesh n (o % 32 / 4) (o / 32); (d.setMesh k (freshPar 32 (leNat bs))).releaseWord n (locMesh k)
  | 5 => (d.eachWord f 4 fun d o bs => d.writeWord (pPTN i) o (leNat bs) fldsPTN).dropSamples i
  | 6 => d.eachWord f 4 fun d o bs => d.setInitial n f.t o (leNat bs)
  | 7 => d.eachWord f 16 fun d o bs => d.rewriteRow n (ixRow n f.t (o / 16)) (leAt bs 0 12)
  | 8 =>
    let s := d.streamWith i f false
    let d := d.modPtn i fun x => { x with stream := s }
    match d.streamCheck i s with | .good t => d.applyTables i t | _ => d
  | _ => d

/-- Stage restores a re-targeted partition's state once an image whose PERSONALITY_ID or ORIGIN_ID is the saved identity is complete (R170,
R209). -/
def restoreDue (d : Dev) (i : Nat) : Dev :=
  let b := pPTN i
  let r := d.snapGet i (d.g b PTN_SNAP_BASE_ADDR) 256
  if [d.g b PTN_IMAGE_ID_ID, d.g b PTN_ORIGIN_ID].contains (leAt r.2 8 8) then (r.1.modPtn i fun x => { x with retarget := true }).snapBegin i 2
  else r.1.p b PTN_SNAP_STATUS_RESULT 6

/-- The image in progress is looked at for completion (R213). -/
def completeImage (d : Dev) (i : Nat) (area : Nat × Nat) : Dev :=
  let b := pPTN i
  let x := d.ptnAt i
  if x.recv.length < d.g b PTN_EXPECTED_FRAMES then d
  else match x.tables with
    | none => d.on b PTN_LOAD_STATUS_TABLES_MISSING
    | some _ =>
      let d := d.p b PTN_LOAD_STATUS_TABLES_MISSING 0
      let d := d.modPtn i fun x =>
        { x with img := some ⟨x.quotaBase + area.1, area.2, d.g b PTN_EXPECTED_FRAMES, d.g b PTN_IMAGE_ID_ID, d.g b PTN_ORIGIN_ID⟩ }
      if d.b b PTN_SEQ_STATUS_LOADED then d
      else
        let d := (d.on b PTN_SEQ_STATUS_LOADED).p pDEV (DEV_DIR_STATE i) 2
        if d.b pDEV (DEV_DIR_RESTORE_DUE i) then d.restoreDue i else d

/-- One frame of a batch or replay: refused, or applied, copied to the image area and counted (R210 to R214). The answer says whether it
was applied. A frame that memory did not give has no SEQ, and LOAD_SEQ takes 0; a frame is applied and counted though memory refuses its copy
(DESIGN CHOICE, log entry 65). -/
def takeFrame (d : Dev) (i : Nat) (data : Option (List Byte)) : Dev × Bool :=
  let b := pPTN i
  let refuse (code seq : Nat) : Dev × Bool :=
    (((d.p b PTN_LOAD_STATUS_REASON code).p b PTN_LOAD_SEQ_SEQ seq).add b PTN_FRAMES_REFUSED_COUNT 1, false)
  match data.bind readFrame with
  | none => refuse 1 0
  | some f =>
    let code := d.frameRefusal i f
    if code ≠ 0 then refuse code f.seq
    else
      let new := d.beginsImage i f
      let area := d.imageArea i f new
      let d := if new then d.beginImage i f else d
      let x := d.ptnAt i
      let d := if x.replay then d else d.hbmPut (hubReq 0x9D) (x.quotaBase + area.1 + f.seq * frameSlot) f.bytes
      let d := (d.applyFrame i f).modPtn i fun x => { x with recv := if x.recv.contains f.seq then x.recv else f.seq :: x.recv }
      let d := (d.add b PTN_FRAMES_OK_COUNT 1).p b PTN_RECEIVED_COUNT (d.ptnAt i).recv.length
      (d.completeImage i area, true)

/-- The loader reads `n` bytes of an image area (R214). -/
def imageRead (d : Dev) (a n : Nat) : Dev × Nat × List Byte := d.hbmGet (hubReq 0x9D) a n

/-- The frame at `a` of an image area, whose payload has `n` bytes; none where memory refuses it. -/
def storedFrame (d : Dev) (a n : Nat) : Dev × Option (List Byte) :=
  let r := d.imageRead a (64 + Nat.min 4096 n)
  (r.1, if r.2.1 == 0 then some r.2.2 else none)

/-- The frame a replay takes next, from the image area (R214). -/
def replayBytes (d : Dev) (i : Nat) : Dev × Option (List Byte) :=
  let x := d.ptnAt i
  match x.img with
  | none => (d, none)
  | some m =>
    let a := m.base + (m.frames - x.batch) * frameSlot
    let h := d.imageRead a 64
    h.1.storedFrame a (leAt h.2.2 0x0C 2)

/-- Whether the frame's cluster still is OFF: the frame waits for it (R382). -/
def frameWaits (d : Dev) (i : Nat) (data : Option (List Byte)) : Bool :=
  match data.bind readFrame with
  | some f => frameNames f.cls && f.cls ≠ 9 && f.i < (d.clustersOf i).length && d.cluPower (d.clusterIx i f.i) == 2
  | none => false

/-- FRAME: the next frame of the batch or replay in progress (R210). -/
def doFrame (d : Dev) (i : Nat) (data : Option (List Byte)) : Dev :=
  let b := pPTN i
  if !d.b b PTN_LOAD_STATUS_BUSY then d
  else
    let src := if (d.ptnAt i).replay then d.replayBytes i else (d, data)
    if d.frameWaits i src.2 then d
    else
      let r := src.1.takeFrame i src.2
      if !r.2 then r.1.endBatch i
      else
        let d := (r.1.p b PTN_LOAD_STATUS_INDEX (r.1.g b PTN_LOAD_STATUS_INDEX + 1)).modPtn i fun x => { x with batch := x.batch - 1 }
        if (d.ptnAt i).batch == 0 || (d.ptnAt i).dstop then d.endBatch i else d

/-- A batch of `n` frames, or a replay, begins (R210, R214). -/
def startBatch (d : Dev) (i n : Nat) (replay : Bool) : Dev :=
  ((d.on (pPTN i) PTN_LOAD_STATUS_BUSY).p (pPTN i) PTN_LOAD_STATUS_INDEX 0).modPtn i fun x => { x with batch := n, replay := replay, dstop := false }

/-- LOAD_CMD GO (R210, R215). -/
def doLoadGo (d : Dev) (i : Nat) : Dev :=
  let n := d.g (pPTN i) PTN_LOAD_COUNT_COUNT
  if d.ptnBusy i || d.b (pPTN i) PTN_LOAD_STATUS_BUSY || n == 0 then d else d.startBatch i n false

/-- LOAD_CMD ABORT (R215): the batch ends after its current frame. -/
def doLoadAbort (d : Dev) (i : Nat) : Dev :=
  if d.b (pPTN i) PTN_LOAD_STATUS_BUSY then d.modPtn i fun x => { x with dstop := true } else d

/-- LOAD_CMD REPLAY (R214): refused with STATE without a complete image. -/
def doLoadReplay (d : Dev) (i : Nat) : Dev :=
  let b := pPTN i
  if d.ptnBusy i || d.b b PTN_LOAD_STATUS_BUSY then d
  else match (d.ptnAt i).img with
    | some m => d.startBatch i m.frames true
    | none => (((d.p b PTN_LOAD_STATUS_REASON 11).p b PTN_LOAD_STATUS_INDEX 0).on b PTN_LOAD_STATUS_DONE).irq b 9

/-! The image area read back (R214, R216, R217). -/

/-- The frame of SEQ `q` in a complete image area whose copy passes its CRC. -/
def imageFrame (d : Dev) (m : Img) (q : Nat) : Dev × Option Frame :=
  let a := m.base + q * frameSlot
  let h := d.hbmGet (hubReq 0x9E) a 64
  let r := h.1.hbmGet (hubReq 0x9E) a (64 + Nat.min 4096 (leAt h.2.2 0x0C 2))
  (r.1, (if r.2.1 == 0 then readFrame r.2.2 else none).filter fun f => f.magicOk && f.crcOk)

/-- Whether a frame's header says that it covers byte `o` of a class target. -/
def headCovers (h : List Byte) (c k t o : Nat) : Bool :=
  leAt h 6 1 == c && (k == leAt h 0x17 1) && (c == 4 || c == 9 || t == leAt h 0x16 1) &&
    leAt h 0x10 6 ≤ o && o < leAt h 0x10 6 + leAt h 0x0C 2

/-- The latest frame of the area, by SEQ, that covers byte `o` of a class target: headers are read, the latest first, until one does. -/
def imageSeq (d : Dev) (m : Img) (c k t o : Nat) : Dev × Option Nat :=
  (List.range m.frames).reverse.foldl (fun s q =>
    if s.2.isSome then s
    else
      let h := s.1.hbmGet (hubReq 0x9E) (m.base + q * frameSlot) 64
      (h.1, if headCovers h.2.2 c k t o then some q else none)) (d, (none : Option Nat))

/-- `n` bytes at byte `o` of a class target of the `k`-th cluster as the image area holds them (R217); none without a complete image, where
no frame covers them, or where the copy fails its CRC. -/
def imageBytes (d : Dev) (i c k t o n : Nat) : Dev × Option Nat :=
  match (d.ptnAt i).img with
  | none => (d, none)
  | some m =>
    let f := d.imageSeq m c k t o
    match f.2 with
    | none => (f.1, none)
    | some q =>
      let r := f.1.imageFrame m q
      (r.1, r.2.map fun f => leAt f.payload (o - f.off) n)

end Dev

/-- LOAD_GO (R210). -/
def execLoadGo (p : Fin 16) (s : State) : Host.Outcome State Fault Refusal := main s fun d => d.atPtn p fun d => d.doLoadGo p
/-- LOAD_ABORT (R215). -/
def execLoadAbort (p : Fin 16) (s : State) : Host.Outcome State Fault Refusal := main s fun d => d.atPtn p fun d => d.doLoadAbort p
/-- LOAD_REPLAY (R214). -/
def execLoadReplay (p : Fin 16) (s : State) : Host.Outcome State Fault Refusal := main s fun d => d.atPtn p fun d => d.doLoadReplay p
/-- FRAME (R210). -/
def execFrame (p : Fin 16) (data : Option (List Byte)) (s : State) : Host.Outcome State Fault Refusal := main s fun d => d.doFrame p data

end Sys2Proof.Machine
end

