-- ==== Sys2Proof/Machine/Scrub.lean ====
section
/-! DEFINITION. The scrubber: background walk, requested passes, classification of upsets and their policy (R216 to R222). -/

namespace Sys2Proof.Machine

/-- KIND, tile, step (or row, or HBM address) of a word, as SCR.LAST and R449 give them. -/
def locKind : WordLoc → Nat × Nat × Nat
  | .bp t _ s => (0, t, s)
  | .walu t _ s => (1, t, s)
  | .port t _ s => (2, t, s)
  | .mesh _ s => (3, 0, s)
  | .dmem _ row => (4, 0, row)
  | .far _ a => (5, 0, a)

/-- Class, tile, byte and length of a word's copy in the image area (R208). -/
def locImage : WordLoc → Nat × Nat × Nat × Nat
  | .bp t b s => (1, t, (b * 256 + s) * 16, 10)
  | .walu t w s => (2, t, (w * 256 + s) * 16, 12)
  | .port t j s => (3, t, s * 32 + 2 * j, 2)
  | .mesh j s => (4, 0, s * 32 + 4 * j, 4)
  | .dmem m row => (7, m, row * 16, 12)
  | .far _ _ => (0, 0, 0, 0)

/-- Byte and length of an instruction word's mask in the essential-bit map (R216). -/
def locMask : WordLoc → Option (Nat × Nat)
  | .bp t b s => some (t * 0x40000 + (b * 256 + s) * 16, 10)
  | .walu t w s => some (0x800000 + t * 0x2000 + (w * 256 + s) * 16, 12)
  | _ => none

namespace Dev

/-- The data bits of an instruction word as stored. -/
def storedWord (d : Dev) (n : Nat) : WordLoc → Nat
  | .bp t b s => (d.bpWord (ixBp n t b s)).data.toNat
  | .walu t w s => (d.waWord (ixWa n t w s)).data.toNat
  | _ => 0

/-- A word's copy in its partition's image area. -/
def imageWord (d : Dev) (i n : Nat) (w : WordLoc) : Dev × Option Nat :=
  let x := locImage w
  if x.1 == 0 then (d, none) else d.imageBytes i x.1 (d.cluIndex i n) x.2.1 x.2.2.1 x.2.2.2

/-- Whether an uncorrectable word is essential (R216, R217). -/
def essential (d : Dev) (i n : Nat) (w : WordLoc) (fetch : Bool) : Dev × Bool :=
  match locMask w with
  | none => (d, true)
  | some (o, len) =>
    let m := d.imageBytes i 9 (d.cluIndex i n) 0 o len
    let c := m.1.imageWord i n w
    (c.1, match m.2, c.2 with
      | some mask, some copy => if fetch then mask ≠ 0 else (d.storedWord n w ^^^ copy) &&& mask ≠ 0
      | _, _ => true)

/-- SCR.LAST takes an upset (R222). -/
def scrLast (d : Dev) (n : Nat) (w : WordLoc) (ess fetch : Bool) : Dev :=
  let k := locKind w
  let d := ((d.p pSCR SCR_LAST_CLUSTER n).p pSCR SCR_LAST_TILE k.2.1).p pSCR SCR_LAST_KIND k.1
  ((d.p pSCR SCR_LAST_ESSENTIAL ess.toNat).p pSCR SCR_LAST_FETCH fetch.toNat).on pSCR SCR_LAST_VALID

/-- A rewrite from the image area is due. -/
def dueRewrite (d : Dev) (n : Nat) (w : WordLoc) (reload : Bool) : Dev :=
  { d with rewrites := (d.rewrites.filter fun e => !(e.1 == n && e.2.1 == w)) ++ [(n, w, reload)] }

/-- The partition's policy is applied to an essential upset (R220). -/
def upsetPolicy (d : Dev) (i n : Nat) (w : WordLoc) : Dev :=
  let b := pPTN i
  let kind := (locKind w).1
  let freeze (d : Dev) : Dev := d.freezeReq i (if kind == 2 || kind == 3 then 8 else 3)
  match d.g b PTN_UPSET_POLICY with
  | 1 =>
    if 4 ≤ kind then freeze d
    else
      let c := d.imageWord i n w
      if c.2.isSome then (c.1.on b PTN_UPSET_MARK).dueRewrite n w true else freeze c.1
  | 2 => d.on b PTN_UPSET_MARK
  | _ => freeze d

/-- UPSET: a word raised to the scrubber is classified (R217, R220). -/
def doUpset (d : Dev) (n : Nat) (w : WordLoc) (fetch : Bool) : Dev :=
  if !d.raised.contains (n, w, fetch) then d
  else
    let d := { d with raised := d.raised.erase (n, w, fetch) }
    match d.ownerOf n with
    | none => d
    | some i =>
      let r := d.essential i n w fetch
      let d := r.1.scrLast n w r.2 fetch
      if !r.2 then d.dueRewrite n w false
      else
        let b := pPTN i
        let d := { d with rewrites := d.rewrites.filter fun e => !(e.1 == n && e.2.1 == w) }
        let d := ((d.add b PTN_UPSET_COUNT 1).irq b 10).add pSCR SCR_UE_ESSENTIAL_COUNT 1
        (d.raise (0x070 + i) 1 i (d.word pSCR 0x120 fldsSCR) (locKind w).2.2).upsetPolicy i n w

/-- A word takes its copy's bits: check bits, parity and marks are fresh, a held address is released (R49, R78, R122). -/
def putWord (d : Dev) (n : Nat) (w : WordLoc) (v : Nat) : Dev :=
  let d := match w with
    | .bp t b s => d.rewriteBp n (ixBp n t b s) v
    | .walu t k s => d.rewriteWa n (ixWa n t k s) v
    | .port t j s => d.setPort (ixPort n t j s) (freshPar 16 v)
    | .mesh j s => d.setMesh (ixMesh n j s) (freshPar 32 v)
    | _ => d
  d.releaseWord n w

/-- UPSET_REWRITE: a rewrite that is due is carried out (R217, R220). -/
def doUpsetRewrite (d : Dev) (n : Nat) (w : WordLoc) : Dev :=
  match d.rewrites.find? (fun e => e.1 == n && e.2.1 == w), d.ownerOf n with
  | some e, some i =>
    let c := d.imageWord i n w
    match c.2 with
    | none => c.1
    | some v => (c.1.putWord n w v).add pSCR (if e.2.2 then SCR_RELOADS_COUNT else SCR_UE_NONESSENTIAL_COUNT) 1
  | _, _ => d

/-- One word is read through the scrub port with its check (R218). -/
def scrubRead (d : Dev) (n : Nat) (w : WordLoc) : Dev :=
  match w with
  | .bp t b s => (d.fetchBp n (ixBp n t b s) false).1
  | .walu t k s => (d.fetchWa n (ixWa n t k s) false).1
  | .port t j s => d.checkPort n (ixPort n t j s) false
  | .mesh j s => d.checkMesh n (ixMesh n j s) false
  | .dmem m row => (d.readRow n (ixRow n m row)).1
  | .far _ _ => d

/-- The highest cluster of a loaded personality. -/
def lastWalked (d : Dev) : Option Nat :=
  ((List.range 64).filter fun n => match d.ownerOf n with | some i => d.b (pPTN i) PTN_SEQ_STATUS_LOADED | none => false).getLast?

/-- SCRUB_WALK_READ (R218): a pass of the walk ends with the last mesh switch word of the last cluster that holds a personality. -/
def doWalkRead (d : Dev) (n : Nat) (w : WordLoc) : Dev :=
  let loaded := match d.ownerOf n with | some i => d.b (pPTN i) PTN_SEQ_STATUS_LOADED | none => false
  let row := match w with | .dmem _ _ => true | .far _ _ => true | _ => false
  if !loaded || d.g pSCR SCR_CFG_RATE == 0 || (row && !d.b pSCR SCR_CFG_DMEM) then d
  else
    let last := w == .mesh 7 255 && d.lastWalked == some n
    let d := d.scrubRead n w
    if last then d.add pSCR SCR_WALK_COUNT_COUNT 1 else d

/-- SCR.PASS GO for partition `i` (R219). -/
def doPassRequest (d : Dev) (i : Nat) : Dev := (d.p pSCR SCR_PASS_PARTITION i).scrubRequest i false

/-- Waiting passes ask again (R219, R410). -/
def doPassStart (d : Dev) : Dev := d.retryPasses

/-- Words of a cluster's instruction memories and schedules that may be uncorrectable: the listed ones. -/
def listedWords (d : Dev) (n : Nat) : List WordLoc :=
  (SMap.range d.code.bpi (ixBp n 0 0 0) (ixBp (n + 1) 0 0 0)).map (fun e => locBp e.1) ++
  (SMap.range d.code.wli (ixWa n 0 0 0) (ixWa (n + 1) 0 0 0)).map (fun e => locWa e.1) ++
  (SMap.range d.code.port (ixPort n 0 0 0) (ixPort (n + 1) 0 0 0)).map (fun e => locPort e.1) ++
  (SMap.range d.code.mesh (ixMesh n 0 0) (ixMesh (n + 1) 0 0)).map fun e => locMesh e.1

/-- Whether a word is uncorrectable: held, marked, or failing its check. -/
def badWord (d : Dev) (n : Nat) (w : WordLoc) : Bool :=
  match w with
  | .bp t b s =>
    let k := ixBp n t b s
    (d.cluAt n).bpHeld.contains k || (match secdedCheck 80 87 (d.bpWord k).data.toNat (d.bpWord k).chk.toNat with | .ue _ => true | _ => false)
  | .walu t j s =>
    let k := ixWa n t j s
    (d.cluAt n).wlHeld.contains k || (match secdedCheck 96 103 (d.waWord k).data.toNat (d.waWord k).chk.toNat with | .ue _ => true | _ => false)
  | .port t j s => (d.portWord (ixPort n t j s)).isNone
  | .mesh j s => (d.meshWord (ixMesh n j s)).isNone
  | _ => false

/-- The result of a pass over the compared partition goes to LSC (R188, R219). -/
def passDiag (d : Dev) (i : Nat) (found : Bool) : Dev :=
  if d.g pLSC LSC_STATUS_DIAG ≠ 1 || d.g pLSC LSC_CFG_PARTITION ≠ i then d
  else
    let diag := if found then 2 else 3
    ((d.p pLSC LSC_STATUS_DIAG diag).irq pLSC 2).lscSend (d.g pLSC LSC_LOCAL_SIG_SIG) (d.g pLSC LSC_MISMATCH_CYCLE_COUNT) 3 diag

/-- SCRUB_PASS_COMPLETE: the pass of the lowest-numbered partition that holds SCRUB ends (R219). -/
def doPassComplete (d : Dev) : Dev :=
  match (List.range 16).find? fun i => d.holds (mntId 1 i 0) with
  | none => d
  | some i =>
    let words := (d.clustersOf i).flatMap fun n => (d.listedWords n).map fun w => (n, w)
    let found := words.any fun x => d.badWord x.1 x.2
    let d := d.each words fun d x => d.scrubRead x.1 x.2
    let d := d.mntFree (mntId 1 i 0)
    let d := if d.scrubHeld then d else d.p pSCR SCR_PASS_STATUS_PASS_STATE 3
    (d.p pSCR SCR_PASS_STATUS_UPSET_FOUND found.toNat).passDiag i found

end Dev

/-- SCRUB_WALK_READ (R218). -/
def execScrubWalkRead (n : Fin 64) (w : WordLoc) (s : State) : Host.Outcome State Fault Refusal := main s fun d => d.doWalkRead n w
/-- SCRUB_PASS_REQUEST (R219). -/
def execScrubPassRequest (p : Fin 16) (s : State) : Host.Outcome State Fault Refusal := main s fun d => if d.full then d.doPassRequest p else d
/-- SCRUB_PASS_START (R219). -/
def execScrubPassStart (s : State) : Host.Outcome State Fault Refusal := main s fun d => d.doPassStart
/-- SCRUB_PASS_COMPLETE (R219). -/
def execScrubPassComplete (s : State) : Host.Outcome State Fault Refusal := main s fun d => d.doPassComplete
/-- UPSET (R217, R220). -/
def execUpset (n : Fin 64) (w : WordLoc) (fetch : Bool) (s : State) : Host.Outcome State Fault Refusal := main s fun d => d.doUpset n w fetch
/-- UPSET_REWRITE (R217, R220). -/
def execUpsetRewrite (n : Fin 64) (w : WordLoc) (s : State) : Host.Outcome State Fault Refusal := main s fun d => d.doUpsetRewrite n w

end Sys2Proof.Machine
end

