-- ==== Sys2Proof/Machine/Lanes.lean ====
section
/-! DEFINITION. Lane groups: bring-up, markers, codewords, retry, tests and the speed bridge (R224 to R254), and the FREEZE message (R179). -/

namespace Sys2Proof.Machine

/-- An alignment marker's 320 bits (R230). -/
def markerBits (lane group dev ver : Nat) (aligned : Bool) (stamp echo turn : Nat) : BitVec 320 :=
  let v := 0xC63A59E21D ||| lane <<< 40 ||| group <<< 43 ||| dev <<< 47 ||| ver <<< 56 ||| aligned.toNat <<< 60 |||
    (stamp % 2 ^ 32) <<< 64 ||| (echo % 2 ^ 32) <<< 96 ||| (turn % 2 ^ 32) <<< 128
  BitVec.ofNat 320 (v ||| markerCrc v <<< 304)

/-- Whether a marker is valid (R230). -/
def markerValid (v : Nat) : Bool := bitsAt v 0 40 == 0xC63A59E21D && bitsAt v 304 16 == markerCrc (v % 2 ^ 304)

/-- Step difference modulo 2^32 (R235). -/
def stepDiff (a b : Nat) : Nat := (a + 2 ^ 33 - b) % 2 ^ 32

/-- Order and feedback taps of a PRBS (R246). -/
def prbsTaps (poly : Nat) : List Nat :=
  match poly with
  | 0 => [7, 6]
  | 1 => [13, 12, 2, 1]
  | 2 => [15, 14]
  | _ => [31, 28]

/-- The bit a PRBS gives after a history of bits, newest first. -/
def prbsNext (poly : Nat) (hist : List Bool) : Bool := (prbsTaps poly).foldl (fun a k => xor a (hist.getD (k - 1) false)) false

namespace Dev

/-- LGRPg.STATUS as the log records it (R449). -/
def lgStatus (d : Dev) (gi : Nat) : Nat := d.word (pLGRP gi) 0x104 fldsLGRP
/-- The version a group offers (R243). -/
def offered (d : Dev) (gi : Nat) : Nat := if d.g (pLGRP gi) LGRP_CFG_MAX_VER == 1 then 1 else 2
/-- Whether a lane is enabled in TEST and BRIDGE modes. -/
def laneOn (d : Dev) (gi l : Nat) : Bool := (d.g (pLGRP gi) LGRP_CFG_LANE_EN).testBit l
/-- The local step counter (R230). -/
def steps32 (d : Dev) : Nat := d.ticks % 2 ^ 32

/-- A bit of a field set or cleared. -/
def putBit (d : Dev) (base : Nat) (f : Fld) (k : Nat) (v : Bool) : Dev :=
  let x := d.g base f
  d.p base f (if v then x ||| 1 <<< k else x &&& (2 ^ f.w - 1 - 1 <<< k))

/-- The group searches for markers (R232); its receiver has nothing aligned. -/
def toAcquire (d : Dev) (gi : Nat) : Dev :=
  let b := pLGRP gi
  let d := ((d.p b LGRP_STATUS_STATE 1).p b LGRP_STATUS_LANE_LOCK 0).p b LGRP_STATUS_FAR_ALIGNED 0
  d.modLink gi fun x => { x with good := [], ident := [], skews := [], farLow := 0, meas := [], credits := [], rxSkip := [], rxBits := [], rxCtl := [], rxFields := [] }

/-- A link leaves UP for state `next` (R233): what it held is dropped, outstanding peer requests are answered, lost slots are uncorrectable. -/
def linkDown (d : Dev) (gi cause next : Nat) : Dev :=
  let b := pLGRP gi
  let d := d.p b LGRP_STATUS_STATE next
  let d := if next == 3 then d else (d.p b LGRP_STATUS_LANE_LOCK 0).p b LGRP_STATUS_FAR_ALIGNED 0
  let peers := (d.linkAt gi).peers
  let d := d.modLink gi fun x =>
    { x with replay := [], rxPart := [], peers := [], txSeq := 0, rxSeq := 0, rxAny := false, nakRun := 0, nakDue := false, credits := [], meas := [],
             txCtl := [], txFrag := [], txFields := [], txWait := [], rxCtl := [], rxFields := [] }
  let d := d.each peers fun d r => d.emit (.response r.2.1 r.2.2 1 [])
  let d := { d with sys := { d.sys with heard := SMap.del d.sys.heard gi } }
  let d := (((d.p b LGRP_STATUS_VER 0).on b LGRP_STATUS_DOWN).p b LGRP_STATUS_DOWN_CAUSE cause).add b LGRP_DOWN_COUNT_COUNT 1
  let d := (d.irq b 1).raise (0x0A0 + gi) 2 16 (d.lgStatus gi) 0
  let d := if d.slotsRun gi then d.slotErr else d
  d.upstreamLoss gi

/-- A group leaves whatever it did for another state; a link in UP goes down first. -/
def leaveUp (d : Dev) (gi cause next : Nat) : Dev := if d.lgState gi == 4 then d.linkDown gi cause next else d

/-- A lane is lost (R232, R239). In TEST and BRIDGE no marker is followed, and only its clock goes (R331). -/
def loseLane (d : Dev) (gi l : Nat) : Dev :=
  let st := d.lgState gi
  if st == 0 then d
  else if 4 < st then d.modLink gi fun x => { x with recovered := x.recovered &&& (255 - 1 <<< l) }
  else
    let d := (d.leaveUp gi 1 1).toAcquire gi
    d.modLink gi fun x => { x with recovered := x.recovered &&& (255 - 1 <<< l), uncPer := SMap.del x.uncPer l }

/-! Enabling, disabling and testing a group. -/

/-- LANE_TEST_REQUEST (R245): slots and the upstream link are looked at before the arbiter is asked. -/
def doLaneTest (d : Dev) (gi : Nat) : Dev :=
  let b := pLGRP gi
  if d.lgState gi == 5 then d
  else if d.b pLNK (LNK_BUDGET_SLOTS gi) && d.seqState (d.g pLNK (LNK_BUDGET_OWNER gi)) ≠ 0 then d.p b LGRP_STATUS_TEST_RESULT 3
  else if d.lgState gi == 4 && d.isSlave && d.g pTSB TSB_STATUS_UPSTREAM == gi then d.p b LGRP_STATUS_TEST_RESULT 4
  else
    let r := d.mntRequest (mntId 4 16 gi) 0 0x10000 false
    match r.2 with
    | some _ => r.1.p b LGRP_STATUS_TEST_RESULT 2
    | none =>
      let d := (r.1.p b LGRP_STATUS_TEST_RESULT 1).leaveUp gi 4 5
      let d := (((d.p b LGRP_CFG_MODE 1).on b LGRP_CFG_EN).p b LGRP_STATUS_STATE 5).p b LGRP_STATUS_LANE_LOCK 0
      let d := d.p b LGRP_STATUS_FAR_ALIGNED 0
      (d.putBit pCKG CKG_STATUS_LANE_LOCK gi true).setLink gi Link.reset

/-- LANE_GROUP_ENABLE (R232, R245, R249). -/
def doLaneEnable (d : Dev) (gi : Nat) : Dev :=
  let b := pLGRP gi
  if d.b b LGRP_CFG_EN then d
  else match d.lgMode gi with
    | 1 => d.doLaneTest gi
    | m =>
      let d := (d.on b LGRP_CFG_EN).putBit pCKG CKG_STATUS_LANE_LOCK gi true
      let d := d.setLink gi { Link.reset with recovered := (d.linkAt gi).recovered }
      if m == 2 then d.p b LGRP_STATUS_STATE 6 else d.toAcquire gi

/-- LANE_GROUP_DISABLE (R232, R245, R248). -/
def doLaneDisable (d : Dev) (gi : Nat) : Dev :=
  let b := pLGRP gi
  let d := d.leaveUp gi 4 0
  let d := if d.lgState gi == 5 then d.mntFree (mntId 4 16 gi) else d
  let d := ((d.p b LGRP_CFG_EN 0).p b LGRP_STATUS_STATE 0).p b LGRP_STATUS_LANE_LOCK 0
  let d := (((d.p b LGRP_STATUS_FAR_ALIGNED 0).p b LGRP_PRBS_STATUS_LOCK 0).p b LGRP_LOOP_MODE 0).p b LGRP_BRIDGE_STATUS_ALIGNED 0
  (d.putBit pCKG CKG_STATUS_LANE_LOCK gi false).setLink gi Link.reset

/-! Markers. -/

/-- The levels that lane `l` sends in a marker period: 60 codewords over its data, errors injected, then its marker (R224, R227, R228,
R247). -/
def sendPeriod (d : Dev) (gi l : Nat) (data : List Bool) (marker : BitVec 320) : Dev :=
  let r := (d.linkAt gi).injected l (bitsOfSymbols (codewordsOf 60 (scrambleSeed l) data).flatten)
  let line := r.1 ++ bitsLsb marker.toNat 320
  let d := ((d.setLink gi r.2).capLine gi l true false line).capLine gi l true true data
  (d.lineOut gi l line).emit (.marker gi l marker)

/-- Injection into the coded stream injects nothing while the link's slots are in use (R247). -/
def holdInjection (d : Dev) (gi : Nat) : Dev :=
  if (d.linkAt gi).inject.isSome && (d.slotsRun gi || d.g (pLGRP gi) LGRP_INJ_KIND == 0) then
    (d.iff (d.slotsRun gi) fun d => d.on (pLGRP gi) LGRP_INJ_REFUSED).modLink gi fun x => { x with inject := none }
  else d

/-- MARKER_SEND (R228, R230, R231): a marker period ends: its frames have gone, and a marker follows on each lane. A lane that runs AL1 sends
free bits, whose framing the manual does not give. -/
def doMarkerSend (d : Dev) (gi : Nat) : Dev :=
  let st := d.lgState gi
  if st == 0 || 4 < st then d
  else
    let now := d.steps32
    let (echo, turn) := match (d.linkAt gi).lastStamp with | some s => (s.1, stepDiff now s.2) | none => (0, 0)
    let d := (d.modLink gi fun x => { x with sent := (now :: x.sent).take 64 }).holdInjection gi
    let r := (d.linkAt gi).period (st == 4)
    let old := d.g (pLGRP gi) LGRP_STATUS_VER == 1
    let d := (d.setLink gi r.2).tick
    d.each (List.range 8) fun d l =>
      d.sendPeriod gi l (if old then (List.range periodData).map fun k => Config.al1Bit (d.fresh + l) k else r.1 l)
        (markerBits l gi d.devNum (d.offered gi) (3 ≤ st) now echo turn)

/-- A round trip of `rtt` steps is recorded (R235). -/
def setRtt (d : Dev) (gi rtt : Nat) : Dev :=
  (d.p (pLGRP gi) LGRP_RTT_STEPS (Nat.min rtt 0xFFFF)).modLink gi fun x => { x with meas := (rtt :: x.meas).take 3 }

/-- The latency measured from a marker on lane 0 that names one of the group's own (R235). -/
def measure (d : Dev) (gi v : Nat) : Dev :=
  let echo := bitsAt v 96 32
  if d.lgState gi < 3 || bitsAt v 56 4 < 2 || !(d.linkAt gi).sent.contains echo then d
  else d.setRtt gi (stepDiff (stepDiff d.steps32 echo) (bitsAt v 128 32))

/-- Entry to UP (R232, R235, R244): the credits of each virtual channel are given to the far end (R180, R242). -/
def linkUp (d : Dev) (gi ver : Nat) : Dev :=
  let b := pLGRP gi
  let most := (d.linkAt gi).meas.foldl Nat.max 0
  let m := if ver == 1 || d.lgRate gi ≠ 0 then 255 else Nat.min 255 ((most + 1) / 2 + 1)
  let d := (d.p b LGRP_STATUS_STATE 4).p b LGRP_STATUS_VER ver
  let d := d.p pLNK (LNK_BUDGET_MEASURED gi) m
  let d := d.p pLNK (LNK_BUDGET_OVER gi) (decide (d.g pLNK (LNK_BUDGET_BUDGET gi) < m)).toNat
  let d := (d.modLink gi fun x => { x with txSeq := 0, rxSeq := 0, rxAny := false, replay := [], rxPart := [], nakRun := 0, nakDue := false, farLow := 0 }).irq b 0
  d.each (List.range 3) fun d vc => d.control gi 8 (vc ||| Config.linkBuffers gi vc <<< 2)

/-- An ALIGNED group looks whether it is UP (R232, R243): an AL1 end measures nothing, and never comes UP at 112.5 Gb/s. -/
def tryUp (d : Dev) (gi : Nat) : Dev :=
  let b := pLGRP gi
  let far := d.g b LGRP_FAR_VERSION
  let ver := Nat.min (d.offered gi) (Nat.max 1 far)
  let ms := (d.linkAt gi).meas
  let agree := ms.length == 3 && ms.all fun a => ms.all fun c => a ≤ c + 1
  if !d.b b LGRP_STATUS_FAR_ALIGNED then d
  else if ver == 1 then (if d.lgRate gi == 0 then d else d.linkUp gi 1)
  else if agree then d.linkUp gi ver else d

/-- A marker period in UI: 81,920 bits (R228), two to a UI in PAM4 (R224). -/
def periodUi (d : Dev) (gi : Nat) : Nat := if d.lgRate gi == 2 then 81920 else 40960

/-- A group in DESKEW whose lanes have each shown a marker since (R232, R234): their places are compared within the marker period, and each
lane is delayed to match the latest. -/
def tryDeskew (d : Dev) (gi v : Nat) : Dev :=
  let b := pLGRP gi
  let x := d.linkAt gi
  let period := d.periodUi gi
  let delay (late l : Nat) : Nat := (SMap.get 0 x.skews late + period - SMap.get 0 x.skews l % period) % period
  if !(List.range 8).all (fun l => (SMap.get? x.skews l).isSome) then d
  else match (List.range 8).find? fun late => (List.range 8).all fun l => delay late l ≤ 64 with
    | none => (d.on b LGRP_STATUS_SKEW_ERR).toAcquire gi
    | some late =>
      let d := d.each (List.range 8) fun d l => d.p b (LGRP_SKEW_LANE l) (delay late l)
      let d := (d.p b LGRP_STATUS_STATE 3).p b LGRP_FAR_DEVICE (bitsAt v 47 9)
      let d := (d.p b LGRP_FAR_GROUP (bitsAt v 43 4)).p b LGRP_FAR_VERSION (bitsAt v 56 4)
      d.tick.modLink gi fun x =>
        { x with rxBits := [], rxCtl := [], rxFields := [], rxSkip := (List.range 8).foldl (fun m l => SMap.set 0 m l (Config.frameStart d.fresh)) [] }

/-- A valid marker is taken by its lane: markers in a row, identity, position (R232). -/
def noteMarker (d : Dev) (gi l v ui : Nat) : Dev :=
  let x := d.linkAt gi
  let id := bitsAt v 43 13
  let same := SMap.get? x.ident l == some id
  let run := if bitsAt v 40 3 ≠ l then 0 else if same then SMap.get 0 x.good l + 1 else 1
  let d := d.setLink gi { x with good := SMap.put (SMap.put x.good l run) (8 + l) 0, ident := SMap.put x.ident l id,
                                 skews := SMap.put x.skews l ui, uncPer := SMap.del x.uncPer l }
  if d.lgState gi ≠ 1 then d else d.putBit (pLGRP gi) LGRP_STATUS_LANE_LOCK l (2 ≤ run && x.recovered.testBit l)

/-- The bring-up after a valid marker (R232). -/
def bringUp (d : Dev) (gi l v : Nat) : Dev :=
  let b := pLGRP gi
  let d := if l == 0 then d.p b LGRP_STATUS_FAR_ALIGNED (v.testBit 60).toNat else d
  match d.lgState gi with
  | 1 =>
    let x := d.linkAt gi
    let ready := d.g b LGRP_STATUS_LANE_LOCK == 255 && (List.range 8).all fun k => SMap.get? x.ident k == SMap.get? x.ident 0
    if ready then (d.p b LGRP_STATUS_STATE 2).modLink gi fun x => { x with skews := [] } else d
  | 2 => d.tryDeskew gi v
  | 3 => if l == 0 then (d.measure gi v).tryUp gi else d
  | 4 =>
    if l ≠ 0 then d
    else
      let d := d.measure gi v
      let low := if v.testBit 60 then 0 else (d.linkAt gi).farLow + 1
      let d := d.modLink gi fun x => { x with farLow := low }
      if 2 ≤ low then (d.linkDown gi 2 3).modLink gi fun x => { x with farLow := 0 } else d
  | _ => d

/-- The STAMP of a valid marker on lane 0 is kept for the next ECHO and TURN; an AL1 marker carries none (R230). -/
def noteStamp (d : Dev) (gi v : Nat) : Dev :=
  d.modLink gi fun x => { x with lastStamp := if bitsAt v 56 4 < 2 then none else some (bitsAt v 64 32, d.steps32) }

/-- MARKER (R230, R232, R235, R239): four in a row that are no markers lose the lane. -/
def doMarker (d : Dev) (gi l : Nat) (bits : BitVec 320) (ui : Nat) : Dev :=
  let st := d.lgState gi
  let v := bits.toNat
  if st == 0 || 4 < st then d
  else if markerValid v then
    let d := ((d.capLine gi l false false (bitsLsb v 320)).noteMarker gi l v ui).modLink gi fun x => { x with rxScr := SMap.put x.rxScr l (scrambleSeed l) }
    (d.iff (l == 0) fun d => d.noteStamp gi v).bringUp gi l v
  else
    let miss := SMap.get 0 (d.linkAt gi).good (8 + l) + 1
    let d := (d.capLine gi l false false (bitsLsb v 320)).modLink gi fun x => { x with good := SMap.put (SMap.put x.good l 0) (8 + l) miss, uncPer := SMap.del x.uncPer l, rxScr := SMap.put x.rxScr l (scrambleSeed l) }
    let d := if st == 1 then d.putBit (pLGRP gi) LGRP_STATUS_LANE_LOCK l false else d
    if 4 ≤ miss && 2 ≤ st then d.loseLane gi l else d

/-- ACQ_TIMEOUT (R232). -/
def doAcqTimeout (d : Dev) (gi : Nat) : Dev := if d.lgState gi == 1 then d.on (pLGRP gi) LGRP_STATUS_ACQ_TIMEOUT else d

/-- LANE_CLOCK_RECOVERED (R226, R232, R250, R331). -/
def doLaneRecovered (d : Dev) (gi l : Nat) : Dev :=
  if d.lgState gi == 0 then d else d.modLink gi fun x => { x with recovered := x.recovered ||| 1 <<< l }

/-! Link flits, slot frames, control messages, codewords. -/

/-- A data flit leaves, kept for retry (R241); none where the replay buffer is full, so that null flits go (R240), or the channel has no
credit (R180). -/
def linkSend (d : Dev) (gi vc : Nat) (data : BitVec 256) : Option Dev :=
  let x := d.linkAt gi
  let c := SMap.get 0 x.credits vc
  if 512 ≤ x.replay.length || c == 0 then none
  else
    let d := d.setLink gi { x with txSeq := (x.txSeq + 1) % 4096, replay := x.replay ++ [(x.txSeq, vc, data)], credits := SMap.set 0 x.credits vc (c - 1) }
    some (d.sendFlit gi (x.flit 1 vc x.txSeq false data))

/-- A null flit carries this end's acknowledgement, or a NAK (R240, R241). -/
def sendNull (d : Dev) (gi : Nat) (nak : Bool) : Dev := let x := d.linkAt gi; d.sendFlit gi (x.flit 0 0 x.txSeq nak 0)

/-- Flits of one packet leave on a link together, or none does. -/
def sendFlits (d : Dev) (gi vc : Nat) : List (BitVec 256) → Option Dev
  | [] => some d
  | f :: fs => match d.linkSend gi vc f with | some d => sendFlits d gi vc fs | none => none

/-- Packets that wait at a gateway leave in order, as credits and replay space allow (R180, R264). -/
def sendWaiting (d : Dev) (gi : Nat) : Dev :=
  (d.linkAt gi).txWait.foldl (fun (d : Dev) w =>
    match (d.linkAt gi).txWait with
    | v :: rest => if v == w then (match d.sendFlits gi w.1 w.2 with | some e => e.modLink gi fun x => { x with txWait := rest } | none => d) else d
    | [] => d) d

/-- Acknowledged flits leave the replay buffer: those up to SEQ `ack` (R241). -/
def ackFlits (d : Dev) (gi ack : Nat) : Dev :=
  (d.modLink gi fun x =>
    match x.replay.findIdx? (fun e => e.1 == ack) with
    | some i => { x with replay := x.replay.drop (i + 1) }
    | none => x).sendWaiting gi

/-- A NAK: the flits from the one after ACK on are sent again; the 16th for one SEQ takes the link down (R241). -/
def nakFlits (d : Dev) (gi ack : Nat) : Dev :=
  let b := pLGRP gi
  let first := (ack + 1) % 4096
  let x := d.linkAt gi
  let run := if x.nakSeq == first && x.nakRun ≠ 0 then x.nakRun + 1 else 1
  let d := d.setLink gi { x with nakSeq := first, nakRun := run }
  if 16 ≤ run then (d.linkDown gi 3 1).toAcquire gi
  else
    let again := x.replay.dropWhile fun e => e.1 ≠ first
    let d := (d.add b LGRP_RETRIES_COUNT again.length).each again fun d e => d.sendFlit gi ((d.linkAt gi).flit 1 e.2.1 e.1 false e.2.2)
    if again.isEmpty then d else d.raise (0x090 + gi) 0 16 (d.lgStatus gi) first

/-- A packet's flits are whole: a response frees its peer request, anything else enters the network at the gateway (R181, R241). -/
def deliverFlits (d : Dev) (gi : Nat) : Dev :=
  match (d.linkAt gi).rxPart with
  | [] => d
  | h :: rest =>
    let v := h.toNat
    if rest.length < Nat.min 8 (bitsAt v 64 4) then d
    else
      let d := d.modLink gi fun x => { x with rxPart := [] }
      let op := bitsAt v 58 6
      if op == 0x20 || op == 0x21 then
        let src := bitsAt v 167 8
        let tag := bitsAt v 68 12
        (d.modLink gi fun x => { x with peers := x.peers.eraseP fun r => r.2 == (src, tag) }).emit
          (.response src tag (bitsAt v 86 8) (rest.flatMap fun f => leBytes 32 f.toNat))
      else d.emit (.packet (0xE0 + gi) h)

/-- LINK_FLIT (R238, R240, R241): an accepted data flit returns its credit and is acknowledged. -/
def doLinkFlit (d : Dev) (gi : Nat) (bits : BitVec 320) (bad : Bool) : Dev :=
  if d.lgState gi ≠ 4 then d
  else
    let v := bits.toNat
    let fail := bad || crc32c (leBytes 36 v) ≠ bitsAt v 288 32
    let nak (d : Dev) : Dev :=
      let x := d.linkAt gi
      if x.nakDue then d else (d.setLink gi { x with nakDue := true }).sendNull gi true
    if fail then nak (d.add (pLGRP gi) LGRP_FLIT_CRC_ERR_COUNT 1)
    else
      let d := if v.testBit 26 then d.ackFlits gi (bitsAt v 14 12) else d
      let d := if v.testBit 27 then d.nakFlits gi (bitsAt v 14 12) else d
      if bitsAt v 28 4 ≠ 1 || d.lgState gi ≠ 4 then d
      else if bitsAt v 0 12 ≠ (d.linkAt gi).rxSeq then nak d
      else
        let d := d.modLink gi fun x =>
          { x with rxSeq := (x.rxSeq + 1) % 4096, rxAny := true, nakDue := false, rxPart := x.rxPart ++ [BitVec.ofNat 256 (v >>> 32)] }
        ((d.control gi 8 (bitsAt v 12 2 ||| 1 <<< 2)).sendNull gi false).deliverFlits gi

/-- CREDIT (R180, R242): kept also where the far end came UP first. -/
def doCredit (d : Dev) (gi vc count : Nat) (intact : Bool) : Dev :=
  if d.lgState gi ≠ 4 && d.lgState gi ≠ 3 then d
  else if !intact then d.ctlBad gi
  else (d.modLink gi fun x => { x with credits := SMap.set 0 x.credits vc (SMap.get 0 x.credits vc + count) }).sendWaiting gi

/-- FREEZE_MSG (R179): forwarded once for each origin and sequence number. -/
def doFreezeMsg (d : Dev) (gi origin n : Nat) (intact : Bool) : Dev :=
  if d.lgState gi ≠ 4 then d
  else if !intact then d.ctlBad gi
  else if d.sys.seen.contains (origin, n) then d
  else d.floodFreeze origin n true

/-- A whole control message acts by its TYPE; an unknown one is ignored (R242). Its body holds what the table names, from the lowest bit on
(DESIGN CHOICE, log entry 52). -/
def controlMessage (d : Dev) (gi msg : Nat) : Dev :=
  let body := bitsAt msg 8 88
  let i := body % 16
  match bitsAt msg 0 8 with
  | 1 => d.doBeacon gi (bitsAt body 0 64) (bitsAt body 64 16) (bitsAt body 80 8) (Config.beaconMaster d.fresh) true
  | 2 => d.doFreezeMsg gi (bitsAt body 0 9) (bitsAt body 9 8) true
  | 3 => d.doHold gi i (body / 16) true
  | 4 => d.doReady gi i (body / 16) true
  | 5 => d.doGo gi i (body / 16) true
  | 6 => d.doLinkedCommand gi i (bitsAt body 4 4) (BitVec.ofNat 32 (body / 256)) (body / 2 ^ 40) true
  | 7 => d.doSteps gi i (BitVec.ofNat 48 (body / 16)) (body / 2 ^ 52) true
  | 8 => d.doCredit gi (body % 4) (body / 4) true
  | _ => d

/-- A control fragment arrives in a frame's header bits [15:2] (R238, R242). -/
def takeFragment (d : Dev) (gi header : Nat) (bad : Bool) : Dev :=
  let got := (d.linkAt gi).rxCtl
  let keep (d : Dev) (fs : List Nat) : Dev := d.modLink gi fun x => { x with rxCtl := fs }
  let first := header % 2 == 1
  if !first && got.isEmpty then d
  else if bad then (keep d []).ctlBad gi
  else
    let d := if first && !got.isEmpty then d.ctlBad gi else d
    let fs := if first then [header / 2] else got ++ [header / 2]
    if fs.length < 8 then keep d fs
    else
      let msg := (List.range 8).foldl (fun a k => a ||| fs.getD k 0 <<< (13 * k)) 0
      if controlCrc msg == bitsAt msg 96 8 then (keep d []).controlMessage gi msg else (keep d []).ctlBad gi

/-- Fields of the packet stream arrive and are cut into link flits (R240). -/
def takeFields (d : Dev) (gi : Nat) : Nat → Dev
  | 0 => d
  | fuel + 1 =>
    let fs := (d.linkAt gi).rxFields
    if fs.length < 10 then d
    else
      let bits := BitVec.ofNat 320 ((List.range 10).foldl (fun a k => a ||| (fs.getD k (0, false)).1.toNat <<< (32 * k)) 0)
      takeFields ((d.modLink gi fun x => { x with rxFields := fs.drop 10 }).doLinkFlit gi bits ((fs.take 10).any (·.2))) gi fuel

/-- The packet traffic of a frame's fields from `n` on. -/
def takePackets (d : Dev) (gi frame bad n : Nat) : Dev :=
  let fs := ((List.range 13).drop n).map fun k => (frameField frame k, decide (frameField bad k ≠ 0))
  if d.lgState gi ≠ 4 then d else (d.modLink gi fun x => { x with rxFields := x.rxFields ++ fs }).takeFields gi 2

/-- Every lane's part of a step frame is offered to the comparators (R312). -/
def offerFrame (d : Dev) (gi frame : Nat) : Dev := d.each (List.range 8) fun d l => d.offerLane (8 * gi + l) (frameLane frame l)

/-- Slot fields sent at executed step `k` are released at executed step k + B; those that come later count as uncorrectable (R236). -/
def takeSlots (d : Dev) (gi k : Nat) (fields : List W32) : Dev :=
  let b := pLGRP gi
  let due := k + d.g pLNK (LNK_BUDGET_BUDGET gi)
  let now := (d.ptnAt (d.g pLNK (LNK_BUDGET_OWNER gi))).exec
  if due < now then (d.add b LGRP_SLOT_LATE_COUNT 1).slotErr
  else
    let d := d.p b LGRP_SLACK_MIN (Nat.min (d.g b LGRP_SLACK_MIN) (due - now))
    d.modLink gi fun x => { x with slots := SMap.put x.slots due fields }

/-- SLOT_FRAME (R229, R236, R238, R240): the frame sent at executed step `k`, whose first `n` fields are slots; `bad` marks the bits that an
uncorrectable codeword carried. An ALIGNED group only offers it to the comparators (R312). -/
def doSlotFrame (d : Dev) (gi k frame n bad : Nat) : Dev :=
  if d.lgState gi == 3 then d.offerFrame gi frame
  else if d.lgState gi ≠ 4 || d.g (pLGRP gi) LGRP_STATUS_VER ≠ 2 then d
  else
    let fields := (List.range n).map fun j => frameField frame j
    let d := (d.offerFrame gi frame).takeFragment gi (bitsAt frame 2 14) (bitsAt bad 2 14 ≠ 0)
    let d := if d.b pLNK (LNK_BUDGET_SLOTS gi) then
        (d.takeSlots gi k fields).iff ((List.range n).any fun j => frameField bad j ≠ 0) slotErr
      else d
    d.takePackets gi frame bad n

/-- A step frame has come whole (R229): its KIND says what it carries; one whose KIND an uncorrectable codeword carried is discarded, and
handled as a late slot frame where it may have been one (R238). -/
def doStepFrame (d : Dev) (gi frame bad : Nat) : Dev :=
  if bitsAt bad 0 2 ≠ 0 then
    if d.lgState gi == 4 && d.slotsRun gi then
      ((d.add (pLGRP gi) LGRP_SLOT_LATE_COUNT 1).modLink gi fun x => { x with rxSlot := x.rxSlot + 1 }).slotErr
    else d
  else match bitsAt frame 0 2 with
    | 1 => ((d.offerFrame gi frame).takeFragment gi (bitsAt frame 2 14) (bitsAt bad 2 14 ≠ 0)).takePackets gi frame bad 0
    | 2 =>
      let k := (d.linkAt gi).rxSlot
      (d.modLink gi fun x => { x with rxSlot := k + 1 }).doSlotFrame gi k frame (Nat.min 13 (Config.slotFields gi k)) bad
    | _ => d.offerFrame gi frame

/-- The frames that are whole are taken, each in a step of its own. -/
def takeFrames (d : Dev) (gi : Nat) : Nat → Dev
  | 0 => d
  | fuel + 1 =>
    match (d.linkAt gi).nextFrame with
    | some (frame, bad, x) => takeFrames ((d.setLink gi x).doStepFrame gi frame bad).stepEnd gi fuel
    | none => d

/-- A codeword's data bits are descrambled and, on an aligned AL2 link, join their lane's frames (R228, R229). A lane is descrambled once it
has seen a marker's place. -/
def takeCodeword (d : Dev) (gi l : Nat) (symbols : List Nat) (bad : Bool) : Dev :=
  let x := d.linkAt gi
  match SMap.get? x.rxScr l with
  | none => d
  | some s =>
    let r := scramble (bitsOfSymbols (symbols.take 132)) s
    let x := { x with rxScr := SMap.put x.rxScr l r.2 }
    let d := (d.setLink gi x).capLine gi l false true r.1
    if d.lgState gi < 3 || d.g (pLGRP gi) LGRP_STATUS_VER == 1 then d
    else (d.modLink gi fun x => x.takeBits l r.1 bad).takeFrames gi 25

/-- CODEWORD (R227, R238, R239): counted by how it decodes; its data goes on, corrected or as received, and an error is handled by what of the
frames it affects. -/
def doCodeword (d : Dev) (gi l : Nat) (symbols : List Nat) : Dev :=
  let st := d.lgState gi
  let b := pLGRP gi
  if st == 0 || 4 < st then d
  else
    let d := (d.add b LGRP_CW_TOTAL_COUNT 1).capLine gi l false false (bitsOfSymbols symbols)
    match rsDecode symbols with
    | .clean => d.takeCodeword gi l symbols false
    | .corrected k => ((d.add b LGRP_CW_CORR_COUNT 1).add b LGRP_SYM_CORR_COUNT k).takeCodeword gi l (rsCorrect symbols) false
    | .bad =>
      let d := ((d.add b LGRP_CW_UNCORR_COUNT 1).add b (LGRP_LANE_UNCORR_COUNT l) 1).irq b 4
      let d := d.raise (0x080 + gi) 2 16 (d.lgStatus gi) l
      let n := SMap.get 0 (d.linkAt gi).uncPer l + 1
      let d := (d.modLink gi fun x => { x with uncPer := SMap.put x.uncPer l n }).takeCodeword gi l symbols true
      if 16 < n then d.loseLane gi l else d

/-! Test modes. -/

/-- INJ.GO (R247): RATE_EXP acts as 10 to 40. -/
def doInjGo (d : Dev) (gi : Nat) : Dev :=
  let b := pLGRP gi
  let st := d.lgState gi
  let link := d.b b LGRP_INJ_TARGET
  let fits := if link then 1 ≤ st && st ≤ 4 else st == 5
  if !fits || (link && d.slotsRun gi) then d.on b LGRP_INJ_REFUSED
  else
    let exp := Nat.max 10 (Nat.min 40 (d.g b LGRP_INJ_RATE_EXP))
    d.modLink gi fun x => { x with inject := some (d.g b LGRP_INJ_KIND, d.g b LGRP_INJ_LANES, d.g b LGRP_INJ_BURST_M1 + 1, exp), injAt := [] }

/-- CNT_CTRL.CLR_COUNTS and CLR_SLACK (R252). -/
def doLgrpClr (d : Dev) (gi : Nat) : Dev :=
  let b := pLGRP gi
  (((d.resetRange (b + 0x120) (b + 0x178)).resetRange (b + 0x188) (b + 0x190)).resetRange (b + 0x1C0) (b + 0x200)).resetRange (b + 0x240) (b + 0x260)
def doClrSlack (d : Dev) (gi : Nat) : Dev := d.p (pLGRP gi) LGRP_SLACK_MIN 255

/-- Received bits are gathered for a comparator, 64 at a time, each sample in a step of its own (R312, R314). -/
def testSample (d : Dev) (gi l : Nat) (bit : Bool) : Dev :=
  let x := d.linkAt gi
  let acc := SMap.get 1 x.shift l
  let n := Nat.log2 acc
  let acc := 2 ^ (n + 1) + (acc - 2 ^ n) + (if bit then 2 ^ n else 0)
  if n + 1 < 64 then d.setLink gi { x with shift := SMap.set 1 x.shift l acc }
  else
    let v := acc - 2 ^ 64
    (((d.setLink gi { x with shift := SMap.del x.shift l }).capLine gi l false false (bitsLsb v 64)).offerLane (8 * gi + l) v).stepEnd

/-- One received bit at a checker (R246). -/
def prbsBit (d : Dev) (gi l : Nat) (bit : Bool) : Dev :=
  let b := pLGRP gi
  let poly := d.g b LGRP_PRBS_CFG_POLY
  let bit := xor bit (d.b b LGRP_PRBS_CFG_INV)
  let x := d.linkAt gi
  let hist := SMap.get [] x.prbs l
  let want := prbsNext poly hist
  let order := (prbsTaps poly).headD 7
  if (d.g b LGRP_PRBS_STATUS_LOCK).testBit l then
    let wrong := bit ≠ want
    let errs := ((wrong : Bool) :: SMap.get [] x.prbsErr l).take 1024
    let first := (List.range l).all fun k => !(d.g b LGRP_PRBS_STATUS_LOCK).testBit k
    let d := d.setLink gi { x with prbs := SMap.put x.prbs l ((want :: hist).take 31), prbsErr := SMap.put x.prbsErr l errs }
    let d := if first then d.add b LGRP_PRBS_BITS_COUNT 1 else d
    let d := if wrong then d.add b (LGRP_PRBS_ERR_COUNT l) 1 else d
    if 256 ≤ (errs.filter id).length then
      let d := ((d.putBit b LGRP_PRBS_STATUS_LOCK l false).putBit b LGRP_PRBS_STATUS_LOST l true).irq b 2
      d.modLink gi fun x => { x with prbs := SMap.del x.prbs l, prbsErr := SMap.del x.prbsErr l, prbsRun := SMap.del x.prbsRun l }
    else d
  else
    let run := if order ≤ hist.length && bit == want then SMap.get 0 x.prbsRun l + 1 else 0
    let d := d.setLink gi { x with prbs := SMap.put x.prbs l ((bit :: hist).take 31), prbsRun := SMap.put x.prbsRun l run }
    if 64 ≤ run then d.putBit b LGRP_PRBS_STATUS_LOCK l true else d

/-- `n` bits of a PRBS after a history, newest first, with the history after them. -/
def prbsRunOf (poly : Nat) : Nat → List Bool → List Bool × List Bool
  | 0, hist => ([], hist)
  | n + 1, hist =>
    let bit := prbsNext poly hist
    let r := prbsRunOf poly n ((bit :: hist).take 31)
    (bit :: r.1, r.2)

/-- `n` bits of a lane's generator, with the errors injected into them: it starts from all ones (R246, R247). -/
def generate (d : Dev) (gi l n : Nat) : Dev × List Bool :=
  let b := pLGRP gi
  if !d.b b LGRP_PRBS_CFG_GEN then (d.modLink gi fun x => { x with gen := SMap.del x.gen l }, [])
  else
    let d := if (d.linkAt gi).inject.isSome && d.g b LGRP_INJ_KIND == 0 then d.modLink gi fun x => { x with inject := none } else d
    let x := d.linkAt gi
    let r := prbsRunOf (d.g b LGRP_PRBS_CFG_POLY) n ((SMap.get? x.gen l).getD (List.replicate 31 true))
    let y := { x with gen := SMap.put x.gen l r.2 }.injected l (r.1.map fun bit => xor bit (d.b b LGRP_PRBS_CFG_INV))
    (d.setLink gi y.2, y.1)

/-- PRBS_CHECK (R224, R246, R248, R312): while a lane in TEST receives bits its generator sends as many. A near-end loop gives the receiver
what the lane itself sends, its pins idle; a far-end loop sends on what it receives. -/
def doPrbsCheck (d : Dev) (gi l : Nat) (bits : List Bool) : Dev :=
  if d.lgState gi ≠ 5 || !d.laneOn gi l then d
  else
    let mode := d.g (pLGRP gi) LGRP_LOOP_MODE
    let own := if mode == 3 then (d, bits) else d.generate gi l bits.length
    let d := own.1.capLine gi l true false own.2
    let d := if mode == 1 || mode == 2 then d else d.lineOut gi l own.2
    d.each (if mode == 1 || mode == 2 then own.2 else bits) fun d x =>
      let d := d.testSample gi l x
      if d.b (pLGRP gi) LGRP_PRBS_CFG_CHK then d.prbsBit gi l x else d

/-! Speed bridge. -/

/-- Whether a bridge lane may use queue `q` (R251). -/
def bridgeQueue (d : Dev) (gi q : Nat) : Bool :=
  let i := d.g (pLGRP gi) LGRP_BRIDGE_CFG_OWNER
  d.usable i && d.queueOwner q == some i && (d.queueAt q).en

/-- A write of TX_EN and RX_EN of lane `l` (R250, R251). -/
def doBridgeEnable (d : Dev) (gi l : Nat) (tx rx : Bool) : Dev :=
  let b := pLGRP gi
  let one (d : Dev) (want : Bool) (en q : Fld) : Dev :=
    if !want then d.p b en 0
    else if d.bridgeQueue gi (d.g b q) then d.on b en
    else (d.p b en 0).putBit b LGRP_BRIDGE_STATUS_Q_REFUSED l true
  let was := d.b b (LGRP_BRIDGE_Q_RX_EN l)
  let d := one (one d tx (LGRP_BRIDGE_Q_TX_EN l) (LGRP_BRIDGE_Q_TXQ l)) rx (LGRP_BRIDGE_Q_RX_EN l) (LGRP_BRIDGE_Q_RXQ l)
  if d.b b (LGRP_BRIDGE_Q_RX_EN l) && was then d
  else (d.putBit b LGRP_BRIDGE_STATUS_ALIGNED l false).modLink gi fun x => { x with shift := SMap.del x.shift l, good := SMap.del x.good l }

/-- A received word enters RXQ, its end mark set; a full queue drops it, and a queue that discards a packet's rest takes it with that
(R250, R253, R285). -/
def bridgeStore (d : Dev) (gi l : Nat) (w : W64) : Dev :=
  let b := pLGRP gi
  let q := d.g b (LGRP_BRIDGE_Q_RXQ l)
  let x := d.queueAt q
  if d.b b LGRP_BRIDGE_CFG_DROP_FILL && w.toNat == d.g b LGRP_FILL_WORD then d
  else if !x.discard && 0 < x.free then d.append q ⟨w, true, false, []⟩ false
  else
    let d := if x.discard then d.append q ⟨w, true, false, []⟩ false
      else (d.dropWrite q true false).1.notifyKinds q (d.dropWrite q true false).2
    (if x.free == 0 then d.add b (LGRP_BRIDGE_DROP_COUNT l) 1 else d).irq b 3

/-- BRIDGE_WORD_RECEIVE (R250, R312): 64 further line bits of a lane; ALIGN is searched for at each bit. -/
def doBridgeReceive (d : Dev) (gi l : Nat) (w : W64) : Dev :=
  let b := pLGRP gi
  let x := d.linkAt gi
  if d.lgState gi ≠ 6 || !d.laneOn gi l || !x.recovered.testBit l then d
  else if !d.b b (LGRP_BRIDGE_Q_RX_EN l) then d.capLine gi l false false (bitsLsb w.toNat 64)
  else
    let d := d.capLine gi l false false (bitsLsb w.toNat 64)
    let prev := SMap.get? x.shift l
    let bits := prev.getD 0 ||| w.toNat <<< 64
    let m := d.g b LGRP_ALIGN_MASK_MASK
    let hit (o : Nat) : Bool := bitsAt bits o 64 &&& m == d.g b LGRP_ALIGN_WORD &&& m
    let known := SMap.get? x.good l
    let place :=
      if known.isSome then known
      else if !d.b b LGRP_BRIDGE_CFG_ALIGN_EN then some 64
      else ((List.range 64).map (· + 1)).find? fun o => (o == 64 || prev.isSome) && hit o
    let d := d.setLink gi { x with shift := SMap.put x.shift l w.toNat }
    match place with
    | none => d
    | some o =>
      let word := BitVec.ofNat 64 (bits >>> o)
      let d := (d.putBit b LGRP_BRIDGE_STATUS_ALIGNED l true).modLink gi fun x => { x with good := SMap.put x.good l o }
      (d.offerLane (8 * gi + l) word.toNat).bridgeStore gi l word

/-- A word leaves on a bridge lane (R224, R250, R321). -/
def bridgeOut (d : Dev) (gi l : Nat) (w : W64) : Dev :=
  let bits := bitsLsb w.toNat 64
  ((d.emit (.bridge gi l w)).lineOut gi l bits).capLine gi l true false bits

/-- BRIDGE_WORD_TRANSMIT (R250, R286). -/
def doBridgeTransmit (d : Dev) (gi l : Nat) : Dev :=
  let b := pLGRP gi
  if d.lgState gi ≠ 6 || !d.laneOn gi l then d
  else
    let q := d.g b (LGRP_BRIDGE_Q_TXQ l)
    let fill (d : Dev) : Dev := d.bridgeOut gi l (BitVec.ofNat 64 (d.g b LGRP_FILL_WORD))
    if !d.b b (LGRP_BRIDGE_Q_TX_EN l) then fill d
    else if d.emptyFor q then fill (d.markBound q)
    else match d.takeHead q with
      | some (w, d) => d.bridgeOut gi l w.data
      | none => fill d

end Dev

/-- LANE_GROUP_ENABLE (R232). -/
def execLaneGroupEnable (g : Fin 16) (s : State) : Host.Outcome State Fault Refusal := main s fun d => d.atPage (pLGRP g) fun d => d.doLaneEnable g
/-- LANE_GROUP_DISABLE (R232). -/
def execLaneGroupDisable (g : Fin 16) (s : State) : Host.Outcome State Fault Refusal := main s fun d => d.atPage (pLGRP g) fun d => d.doLaneDisable g
/-- LANE_TEST_REQUEST (R245). -/
def execLaneTestRequest (g : Fin 16) (s : State) : Host.Outcome State Fault Refusal := main s fun d => d.atPage (pLGRP g) fun d => d.doLaneTest g
/-- MARKER_SEND (R228). -/
def execMarkerSend (g : Fin 16) (s : State) : Host.Outcome State Fault Refusal := main s fun d => d.doMarkerSend g
/-- MARKER (R232). -/
def execMarker (g : Fin 16) (l : Fin 8) (bits : BitVec 320) (ui : Nat) (s : State) : Host.Outcome State Fault Refusal := main s fun d => d.doMarker g l bits ui
/-- ACQ_TIMEOUT (R232). -/
def execAcqTimeout (g : Fin 16) (s : State) : Host.Outcome State Fault Refusal := main s fun d => d.doAcqTimeout g
/-- LANE_LOSS (R239). -/
def execLaneLoss (g : Fin 16) (l : Fin 8) (s : State) : Host.Outcome State Fault Refusal := main s fun d => d.loseLane g l
/-- CODEWORD (R238). -/
def execCodeword (g : Fin 16) (l : Fin 8) (data check : List (Fin 1024)) (s : State) : Host.Outcome State Fault Refusal :=
  main s fun d => d.doCodeword g l ((data ++ check).map (·.val))
/-- SLOT_FRAME (R236). -/
def execSlotFrame (g : Fin 16) (k : Nat) (fields : SlotBits) (s : State) : Host.Outcome State Fault Refusal :=
  main s fun d => d.doSlotFrame g k fields.frame.toNat fields.n 0
/-- LINK_FLIT (R241). -/
def execLinkFlit (g : Fin 16) (bits : BitVec 320) (bad : Bool) (s : State) : Host.Outcome State Fault Refusal := main s fun d => d.doLinkFlit g bits bad
/-- CREDIT (R242). -/
def execCredit (g : Fin 16) (vc : Fin 4) (count : Nat) (intact : Bool) (s : State) : Host.Outcome State Fault Refusal := main s fun d => d.doCredit g vc count intact
/-- FREEZE_MSG (R179). -/
def execFreezeMsg (g : Fin 16) (origin : Fin 512) (n : Byte) (intact : Bool) (s : State) : Host.Outcome State Fault Refusal :=
  main s fun d => d.doFreezeMsg g origin n.toNat intact
/-- INJ_GO (R247). -/
def execInjGo (g : Fin 16) (s : State) : Host.Outcome State Fault Refusal := main s fun d => if d.full then d.doInjGo g else d
/-- LGRP_CLR_COUNTS (R252). -/
def execLgrpClrCounts (g : Fin 16) (s : State) : Host.Outcome State Fault Refusal := main s fun d => if d.full then d.doLgrpClr g else d
/-- CLR_SLACK (R252). -/
def execClrSlack (g : Fin 16) (s : State) : Host.Outcome State Fault Refusal := main s fun d => if d.full then d.doClrSlack g else d
/-- BRIDGE_LANE_ENABLE (R251). -/
def execBridgeLaneEnable (g : Fin 16) (l : Fin 8) (tx rx : Bool) (s : State) : Host.Outcome State Fault Refusal := main s fun d => if d.full then d.doBridgeEnable g l tx rx else d
/-- BRIDGE_WORD_RECEIVE (R250). -/
def execBridgeWordReceive (g : Fin 16) (l : Fin 8) (w : W64) (s : State) : Host.Outcome State Fault Refusal := main s fun d => d.doBridgeReceive g l w
/-- BRIDGE_WORD_TRANSMIT (R250). -/
def execBridgeWordTransmit (g : Fin 16) (l : Fin 8) (s : State) : Host.Outcome State Fault Refusal := main s fun d => d.doBridgeTransmit g l
/-- PRBS_CHECK (R246). -/
def execPrbsCheck (g : Fin 16) (l : Fin 8) (bits : List Bool) (s : State) : Host.Outcome State Fault Refusal := main s fun d => d.doPrbsCheck g l bits
/-- LANE_CLOCK_RECOVERED (R250). -/
def execLaneClockRecovered (g : Fin 16) (l : Fin 8) (s : State) : Host.Outcome State Fault Refusal := main s fun d => d.doLaneRecovered g l

end Sys2Proof.Machine
end

