-- ==== Sys2Proof/Machine/Router.lean ====
section
/-! DEFINITION. The routers of the packet network (R255, R263, R266): errors, probes (R277 to R279), the check of a header on arrival, buffers,
arbitration, and the passing of flits. -/

namespace Sys2Proof.Machine

/-- A flit's kind by the majority of its three copies (R259): 0 HEAD, 1 BODY, 2 TAIL, 3 SINGLE (codes: DESIGN CHOICE, log entry 53). -/
def flitSort (f : Flit) : Nat :=
  let a := bitsAt f.kind.toNat 0 2
  let b := bitsAt f.kind.toNat 2 2
  let c := bitsAt f.kind.toNat 4 2
  (a &&& b) ||| (a &&& c) ||| (b &&& c)
/-- Whether a flit begins a packet, and whether it ends one. -/
def flitBegins (f : Flit) : Bool := flitSort f == 0 || flitSort f == 3
def flitEnds (f : Flit) : Bool := flitSort f == 2 || flitSort f == 3

/-- The outputs of a router: mesh ports 0 to 3, local ports 4 to 8; the one a header asks for (R259, R266). -/
def hopOut (v : Nat) : Nat := if bitsAt v 32 5 == 0 then 4 + bitsAt v 37 3 else bitsAt v 0 2

/-- Whether a router has an output (R255). -/
def hasOutput (x y out : Nat) : Bool :=
  match out with
  | 0 => decide (y < 9)
  | 1 => decide (x < 7)
  | 2 => decide (0 < y)
  | 3 => decide (0 < x)
  | n => portExists (x, y, n - 4)

/-- The router and the input that a mesh output leads to. -/
def beyond (x y out : Nat) : Nat × Nat × Nat :=
  match out with
  | 0 => (x, y + 1, 2)
  | 1 => (x + 1, y, 3)
  | 2 => (x, y - 1, 0)
  | _ => (x - 1, y, 1)

/-- The header as it leaves a router by a mesh port (R266): the next hop is used up. -/
def hopped (v : Nat) : Nat := v - bitsAt v 0 37 + (bitsAt v 0 32 >>> 2) + (bitsAt v 32 5 - 1) <<< 32
/-- A header with its check bits. -/
def checkedHeader (v : Nat) : BitVec 256 := BitVec.ofNat 256 (v ||| headerCheck v <<< 247)

/-- Keys of a router's outputs, and of an input's or an output's channel. -/
def outKey (x y out : Nat) : Nat := (y * 8 + x) * 9 + out
def vcKey (x y port vc : Nat) : Nat := outKey x y port * 4 + vc

namespace Dev

/-! Errors and probes. -/

/-- NOC.ERR_LAST (R278). -/
def nocError (d : Dev) (kind src dst vc x y : Nat) : Dev :=
  let d := ((d.p pNOC NOC_ERR_LAST_SRC src).p pNOC NOC_ERR_LAST_DST dst).p pNOC NOC_ERR_LAST_VC vc
  (((d.p pNOC NOC_ERR_LAST_KIND kind).p pNOC NOC_ERR_LAST_X x).p pNOC NOC_ERR_LAST_Y y).on pNOC NOC_ERR_LAST_VALID
/-- NOC.ERR_LAST as the log records it. -/
def nocLast (d : Dev) : Nat := d.word pNOC 0x168 fldsNOC

/-- A header error at router (x, y): discarded or answered elsewhere, counted and logged (R259, R266, R280). -/
def headerError (d : Dev) (v x y : Nat) : Dev :=
  let d := (d.add pNOC NOC_HDR_UE_COUNT 1).nocError 1 (bitsAt v 42 8) (bitsAt v 50 8) (bitsAt v 40 2) x y
  (d.irq pNOC 0).raise 0x0B1 2 16 d.nocLast (bitsAt v 94 64)

/-- A corrected header (R266, R280). -/
def headerFixed (d : Dev) (v x y : Nat) : Dev :=
  let d := (d.add pNOC NOC_HDR_CE_COUNT 1).nocError 0 (bitsAt v 42 8) (bitsAt v 50 8) (bitsAt v 40 2) x y
  d.raise 0x0B0 0 16 d.nocLast (bitsAt v 94 64)

/-- The data flits of a packet are checked at its destination (R267, R278, R280): corrected and uncorrectable flits are counted, an uncorrectable
packet is logged and raised. -/
def checkPayload (d : Dev) (k : Packet) : Dev :=
  let at' := (portAt k.dst.val).getD (0, 0, 0)
  let d := if packetCorrected k == 0 then d
    else
      let d := (d.add pNOC NOC_PAY_CE_COUNT (packetCorrected k)).nocError 2 k.src k.dst k.vc at'.1 at'.2.1
      d.raise 0x0B2 0 16 d.nocLast k.addr.toNat
  if !packetBad k then d
  else
    let d := (d.add pNOC NOC_PAY_UE_COUNT (packetUncorrected k)).nocError 3 k.src k.dst k.vc at'.1 at'.2.1
    (d.irq pNOC 1).raise 0x0B3 2 16 d.nocLast k.addr.toNat

/-- A probe's 128-bit record (R277). -/
def probeRecord (d : Dev) (k v : Nat) : Nat :=
  d.now % 2 ^ 32 ||| k <<< 32 ||| bitsAt v 40 2 <<< 35 ||| bitsAt v 42 8 <<< 37 ||| bitsAt v 50 8 <<< 45 ||| bitsAt v 58 6 <<< 53 |||
    bitsAt v 80 4 <<< 59 ||| bitsAt v 64 4 <<< 63 ||| bitsAt v 68 12 <<< 67 ||| bitsAt v 85 1 <<< 79 ||| bitsAt v 86 8 <<< 80 ||| bitsAt v 94 40 <<< 88

/-- Whether a header matches probe `k` (R277). -/
def probeMatches (d : Dev) (k v : Nat) : Bool :=
  let mask := d.g pNOC (NOC_POP_OP_MASK k)
  (d.g pNOC (NOC_PFILT_VC_MASK k)).testBit (bitsAt v 40 2) &&
    (!d.b pNOC (NOC_PFILT_M_SRC k) || d.g pNOC (NOC_PFILT_SRC k) == bitsAt v 42 8) &&
    (!d.b pNOC (NOC_PFILT_M_DST k) || d.g pNOC (NOC_PFILT_DST k) == bitsAt v 50 8) &&
    (!d.b pNOC (NOC_PFILT_M_PART k) || d.g pNOC (NOC_PFILT_PART k) == bitsAt v 80 4) &&
    (!d.b pNOC (NOC_PFILT_M_OP k) || d.g pNOC (NOC_POP_OP k) &&& mask == bitsAt v 58 6 &&& mask)

/-- One probe examines a header that passes an output (R277, R312). A record that stream 16 does not take because it is stopped or not
enabled is dropped. -/
def runProbe (d : Dev) (k v x y out : Nat) : Dev :=
  if !d.b pNOC (NOC_PCTL_EN k) || d.g pNOC (NOC_PCTL_X k) ≠ x || d.g pNOC (NOC_PCTL_Y k) ≠ y || d.g pNOC (NOC_PCTL_PORT k) ≠ out ||
      !d.probeMatches k v then d
  else
    let d := (d.add pNOC (NOC_PKTS_COUNT k) 1).add pNOC (NOC_FLITS_COUNT k) (1 + bitsAt v 64 4)
    let r := d.probeRecord k v
    let d := d.offer 5 (fun s => bitsAt s 0 3 == k) (bitsAt r 32 64)
    let devlvl := v.testBit 84
    if !d.b pNOC (NOC_PCTL_TRACE k) || !d.right (if devlvl then 1 else 0) then d
    else if !d.strmEn 16 || (d.strmAt 16).stopped then d.add pNOC (NOC_DROPPED_COUNT k) 1
    else d.traceProbe devlvl (leBytes 16 r)

/-- A header passes an output: every probe looks at it. -/
def probeHeader (d : Dev) (v x y out : Nat) : Dev := d.each (List.range 8) fun d k => d.runProbe k v x y out

/-! Buffers and arrival. -/

/-- The flits of an input's channel that wait in router (x, y), oldest first (R263). -/
def flitsAt (d : Dev) (x y inp vc : Nat) : List Flit := SMap.get [] d.noc.bufs (vcKey x y inp vc)
def setFlits (d : Dev) (x y inp vc : Nat) (fs : List Flit) : Dev := { d with noc := { d.noc with bufs := SMap.set [] d.noc.bufs (vcKey x y inp vc) fs } }
/-- The input that holds an output's channel for its packet. -/
def heldBy (d : Dev) (x y out vc : Nat) : Option Nat := SMap.get? d.noc.hold (vcKey x y out vc)
/-- Whether an input's channel has a credit: its buffer holds fewer than 8 flits (R263). -/
def hasCredit (d : Dev) (x y inp vc : Nat) : Bool := (d.flitsAt x y inp vc).length < 8
/-- An input's channel discards flits up to a packet's end (R266), or stops doing so. -/
def setDrop (d : Dev) (x y inp vc : Nat) (on : Bool) : Dev :=
  let key := vcKey x y inp vc
  { d with noc := { d.noc with drop := if on then key :: d.noc.drop.filter (· ≠ key) else d.noc.drop.filter (· ≠ key) } }

/-- A header is checked on arrival (R259, R266): as corrected, if its packet goes on. A request with an unknown OP is answered at its
destination; a header that names an output the router does not have is discarded (DESIGN CHOICE, log entry 53). -/
def checkHeader (d : Dev) (hdr : BitVec 256) (x y : Nat) : Dev × Option Nat :=
  match headerSecded hdr.toNat with
  | .ue _ => (d.headerError (hdr.toNat % 2 ^ 247) x y, none)
  | c =>
    let v := match c with | .ce v _ => v | _ => hdr.toNat % 2 ^ 247
    let d := match c with | .ce _ _ => d.headerFixed v x y | _ => d
    if 8 < bitsAt v 64 4 then (d.headerError v x y, none)
    else if !hasOutput x y (hopOut v) then (d, none)
    else if hopOut v < 4 || opKnown (bitsAt v 58 6) then (d, some v)
    else
      let d := d.headerError v x y
      (if bitsAt v 40 2 == 0 || bitsAt v 40 2 == 3 then d.respond (headedPacket v) 6 [] else d, none)

/-- Whether a packet of an input's channel has begun and not ended: its last flit here, or the output it holds, says so. -/
def packetOpen (d : Dev) (x y inp vc : Nat) : Bool :=
  match (d.flitsAt x y inp vc).getLast? with
  | some f => !flitEnds f
  | none => (List.range 9).any fun out => d.heldBy x y out vc == some inp

/-- A flit arrives at an input of router (x, y) on a channel; without a credit it stays with its sender (R263, R266). A flit of no packet is
discarded. -/
def flitArrives (d : Dev) (x y inp vc : Nat) (f : Flit) : Dev :=
  if d.noc.drop.contains (vcKey x y inp vc) then (if flitEnds f then d.setDrop x y inp vc false else d)
  else if !d.hasCredit x y inp vc then d
  else if flitBegins f then
    let r := d.checkHeader f.data x y
    match r.2 with
    | some v => r.1.setFlits x y inp vc (r.1.flitsAt x y inp vc ++ [{ f with data := checkedHeader v }])
    | none => if flitEnds f then r.1 else r.1.setDrop x y inp vc true
  else if d.packetOpen x y inp vc then d.setFlits x y inp vc (d.flitsAt x y inp vc ++ [f])
  else d

/-! Arbitration and passing. -/

/-- The inputs whose oldest flit wants an output's channel: the one that holds it, or those whose next packet asks for it, capture packets before
others (R263). -/
def wanting (d : Dev) (x y out vc : Nat) : List Nat :=
  match d.heldBy x y out vc with
  | some inp => if (d.flitsAt x y inp vc).isEmpty then [] else [inp]
  | none =>
    let asks := (List.range 9).filter fun inp => match d.flitsAt x y inp vc with
      | f :: _ => flitBegins f && hopOut f.data.toNat == out
      | [] => false
    let capture := asks.filter fun inp => match d.flitsAt x y inp vc with | f :: _ => bitsAt f.data.toNat 58 6 == 0x18 | [] => false
    if vc == 2 && !capture.isEmpty then capture else asks

/-- Whether a flit may go by an output's channel: one waits, and what lies beyond has a credit. -/
def mayGo (d : Dev) (x y out vc : Nat) : Bool :=
  !(d.wanting x y out vc).isEmpty && (4 ≤ out || let b := beyond x y out; d.hasCredit b.1 b.2.1 b.2.2 vc)

/-- The channel an output serves in this hub clock (R263): MGMT, but 1 flit in 16; GUAR; then 2 RSP flits for each REQ flit. -/
def served (d : Dev) (x y out : Nat) : Option Nat :=
  let go := d.mayGo x y out
  if go 3 && SMap.get 0 d.noc.pace (outKey x y out) == 0 then some 3
  else if go 2 then some 2
  else if go 1 && go 0 then (if SMap.get 0 d.noc.turn (outKey x y out) < 2 then some 1 else some 0)
  else if go 1 then some 1
  else if go 0 then some 0
  else none

/-- The counts by which an output chooses, after a hub clock in which it served `vc`. -/
def paced (d : Dev) (x y out : Nat) (vc : Option Nat) : Dev :=
  let k := outKey x y out
  let pace := if vc == some 3 then 15 else SMap.get 0 d.noc.pace k - 1
  let turn := match vc with | some 1 => Nat.min 2 (SMap.get 0 d.noc.turn k + 1) | some 0 => 0 | _ => SMap.get 0 d.noc.turn k
  { d with noc := { d.noc with pace := SMap.set 0 d.noc.pace k pace, turn := SMap.set 0 d.noc.turn k turn } }

/-- The oldest flit of an input's channel passes an output (R263, R266, R277): a header is looked at by the probes and takes the output for its
packet, whose last flit gives it up. -/
def passFlit (d : Dev) (x y out vc inp : Nat) : Dev :=
  match d.flitsAt x y inp vc with
  | [] => d
  | f :: rest =>
    let v := f.data.toNat % 2 ^ 247
    let k := vcKey x y out vc
    let d := d.setFlits x y inp vc rest
    let d := if flitBegins f then d.probeHeader v x y out else d
    let d := { d with noc := { d.noc with hold := if flitEnds f then SMap.del d.noc.hold k else SMap.put d.noc.hold k inp } }
    if 4 ≤ out then d.emit (.hop ((y * 8 + x) * 16 + out) vc f)
    else let b := beyond x y out; d.flitArrives b.1 b.2.1 b.2.2 vc (if flitBegins f then { f with data := checkedHeader (hopped v) } else f)

/-- One hub clock of one output: of several inputs that want the channel it serves, which goes is free (R263 ranks channels alone). -/
def outputClock (d : Dev) (x y out : Nat) : Dev :=
  if !hasOutput x y out then d
  else match d.served x y out with
    | none => d.paced x y out none
    | some vc =>
      let ins := d.wanting x y out vc
      let inp := ins.getD ((Config.freeWord d.fresh out).toNat % ins.length) 0
      (d.passFlit x y out vc inp).paced x y out (some vc)

/-- PACKET_HOP (R263, R266): one hub clock of router (x, y): flits arrive at its inputs, then each output passes one. -/
def doPacketHop (d : Dev) (x y : Nat) (ins : List (Fin 9 × Fin 4 × Flit)) : Dev :=
  let d := d.each ins fun d e => d.flitArrives x y e.1 e.2.1 e.2.2
  d.tick.each (List.range 9) fun d out => d.outputClock x y out

end Dev

/-- PACKET_HOP (R266). -/
def execPacketHop (x : Fin 8) (y : Fin 10) (ins : List (Fin 9 × Fin 4 × Flit)) (s : State) : Host.Outcome State Fault Refusal :=
  main s fun d => d.doPacketHop x y ins

end Sys2Proof.Machine
end

