-- ==== Sys2Proof/Machine/Noc.lean ====
section
/-! DEFINITION. Requests and responses of the packet network (R259 to R280): who sends, who answers, how a request completes; drain and fence. -/

namespace Sys2Proof.Machine

/-- The function of a number (R166). -/
def fnOf (n : Nat) : Fn := if n == 0 then .pf else .vf (Fin.ofNat 16 (n - 1))

namespace Dev

/-- ROUTE_TABLE_WRITE (R262). -/
def doRouteWrite (d : Dev) (port idx : Nat) (e : Nat) : Dev :=
  if (portAt port).isNone then d
  else if routeLegal port e then
    { d with noc := { d.noc with routes := SMap.put d.noc.routes (port * 256 + idx) (BitVec.ofNat 64 (e % 2 ^ 40 ||| e >>> 63 <<< 63)) } }
  else (d.on pNOC NOC_RT_CTRL_RT_ERR).irq pNOC 3

/-! Requests. -/

/-- On whose behalf an endpoint's request travels, if it can send one (R260, R269). -/
def senderOf (d : Dev) (k : Packet) : Option Req :=
  let s := k.src.val
  if s < 0x40 then (if d.niState s == 0 then (d.ownerOf s).map fun i => ptnReq s i else none)
  else if s < 0x90 then none
  else if s < 0x94 then some ⟨s, k.part, k.devlvl⟩
  else if s ≤ 0xA0 || (0xE0 ≤ s && s < 0xF0) then some (hubReq s)
  else if 0xC0 ≤ s && s < 0xE0 then
    (d.courierAt (s - 0xC0)).item.map fun w => if w.list < 16 then ptnReq s w.list else hubReq s
  else none

/-- A courier learns that a transfer of its item failed (R268, R301). -/
def courierFail (d : Dev) (src : Nat) : Dev :=
  if 0xC0 ≤ src && src < 0xE0 then
    let x := d.courierAt (src - 0xC0)
    if x.item.isSome then d.setCourier (src - 0xC0) { x with status := 4 } else d
  else d

/-- The host learns that its request failed (R268): a read returns all ones, a write is discarded, and an access error is logged. -/
def hostFail (d : Dev) (o : Outst) : Dev :=
  let d := d.accessError (fnOf o.fn) (if o.vc == 3 then 0 else 2) o.addr o.write
  if o.write then d else d.emit (.completion (fnOf o.fn) o.addr 0xFFFFFFFF)

/-- A far port learns that its request failed with a status (R140, R268); `k` finds the access, else its port is free. -/
def clusterFail (d : Dev) (o : Outst) (status : Nat) : Dev :=
  match d.farByTag o.src o.tag with
  | some (f, k) => if status == 3 then d.farTimeout o.src f k else d.farAnswered o.src f k status []
  | none => d.tick.farStatus o.src ((Config.freeWord d.fresh 2).toNat % 4) o.addr status

/-- A packet's data as flits. -/
def dataFlits (k : Packet) : List (BitVec 256) := (List.range k.len).map fun i => BitVec.ofNat 256 (leAt k.data (32 * i) 32)

/-- A gateway takes a response for the far requester at once (R264): it goes over the link when the channel has credits (R180). -/
def gatewayTakes (d : Dev) (gi : Nat) (k : Packet) (data : Bool) : Dev :=
  (d.modLink gi fun x => { x with txWait := x.txWait ++ [(1, headerOf k 0 :: (if data then dataFlits k else []))] }).sendWaiting gi

/-- The response that tells a far requester of a failure (R268). -/
def failedPacket (o : Outst) (status : Nat) : Packet :=
  { vc := 1, src := Fin.ofNat 256 o.dst, dst := Fin.ofNat 256 o.src, op := if o.write then 0x21 else 0x20, len := 0, tag := Fin.ofNat 4096 o.tag,
    part := Fin.ofNat 16 (o.fn - 1), devlvl := o.fn == 0, fence := false, status := Fin.ofNat 256 status, addr := BitVec.ofNat 64 o.addr,
    remoteDev := o.remote.1, remoteDst := o.remote.2, data := [], checks := [] }

/-- Whether packets travel over a link (R181, R182). -/
def linkCarries (d : Dev) (gi : Nat) : Bool := d.g (pLGRP gi) LGRP_STATUS_STATE == 4

/-- A request's source completes it with a status other than OK (R262, R265, R268). -/
def failed (d : Dev) (o : Outst) (status : Nat) : Dev :=
  let d := d.synthesise o.src o.tag status
  if 0xE0 ≤ o.src && o.src < 0xF0 && d.linkCarries (o.src - 0xE0) then d.gatewayTakes (o.src - 0xE0) (failedPacket o status) false
  else if o.src < 0x40 then d.clusterFail o status
  else if 0x90 ≤ o.src && o.src < 0x94 then d.hostFail o
  else d.courierFail o.src

/-- A request as its source interface sends it (R260). -/
def asSent (k : Packet) (r : Req) : Packet := { k with part := Fin.ofNat 16 (if r.devlvl then 0 else r.part), devlvl := r.devlvl }

/-- The response buffer of a request. -/
def reserved (k : Packet) (r : Req) (write : Bool) : Outst := ⟨k.src, k.tag, k.dst, k.vc, k.addr.toNat, reqFn r, write, (k.remoteDev, k.remoteDst), false⟩

/-- A request is sent and reaches its target, which `serve` answers (R259 to R264); where it waits at its source, nothing changes. A request
with an OP that the table lacks is answered with DECODE and counted as a header error. -/
def request (d : Dev) (k : Packet) (write : Bool) (serve : Packet → Dev → Req → Dev) : Dev :=
  match d.senderOf k with
  | none => d
  | some r =>
    let k := asSent k r
    if 8 < k.len.val || !d.mayReserve k.src k.tag then d
    else if !d.routed k.src k.dst then d.noRoute.failed (reserved k r write) 2
    else
      let d := (d.addOutst (reserved k r write)).emit (.packet k.src (headerOf k (d.routeEntry k.src k.dst)))
      if opKnown k.op then serve k d r
      else
        let at' := (portAt k.dst.val).getD (0, 0, 0)
        (d.headerError ((headerOf k 0).toNat % 2 ^ 247) at'.1 at'.2.1).respond k 6 []

/-- A target refuses a request that its partition does not own (R260, R449). -/
def refuseAccess (d : Dev) (k : Packet) (r : Req) (write : Bool) : Dev :=
  (d.innerError r.src r.part r.devlvl 5 write k.addr.toNat).respond k 5 []

/-- RD or WR at its target (R165, R258 to R260, R264, R267, R269). `old` is the state in which the request still waits at its source. -/
def serveRw (old : Dev) (write : Bool) (k : Packet) (d : Dev) (r : Req) : Dev :=
  let a := k.addr.toNat
  let t := k.dst.val
  let n := if write then k.data.length else Nat.min (32 * Nat.max 1 (Nat.min 8 (Config.readFlits d.fresh))) (4096 - a % 4096)
  let bad := write && packetBad k
  let d := if write && !(0xE0 ≤ t && t < 0xF0) && !(t < 0x40 && d.niState t ≠ 0) then d.checkPayload k else d
  if t < 0x40 then
    if d.niState t ≠ 0 then d.unreachable.respond k 1 []
    else if !r.devlvl && d.ownerOf t ≠ some r.part then d.refuseAccess k r write
    else d.respond k 6 []
  else if t < 0x90 then
    let q := hbmPort a
    if 0x40 + 20 * q.1 + q.2 ≠ t || 4096 < a % 4096 + n || 256 < n then d.respond k 6 []
    else if bad then d.respond k 4 []
    else if write then let w := d.hbmWrite r a (packetFixed k).data; w.1.respond k w.2 []
    else let w := d.tick.hbmRead r a n; w.1.respond k w.2.1 w.2.2
  else if t < 0x94 then
    if bad then d.respond k 4 []
    else if write then (d.emit (.hostWrite (reqFn r) a (packetFixed k).data)).respond k 0 []
    else d.tick.respond k 0 ((List.range n).map fun i => (Config.freeWord d.fresh i).setWidth 8)
  else if 0xE0 ≤ t && t < 0xF0 then
    let gi := t - 0xE0
    if !d.linkCarries gi then d.respond k 1 []
    else if Nat.max 1 (Nat.min 256 (Config.peerLimit k.remoteDev)) ≤ ((d.linkAt gi).peers.filter (·.1 == k.remoteDev.val)).length then old
    else match d.sendFlits gi k.vc (headerOf k 0 :: (if write then dataFlits k else [])) with
      | some d => d.modLink gi fun x => { x with peers := x.peers ++ [(k.remoteDev.val, k.src.val, k.tag.val)] }
      | none => old
  else d.respond k 6 []

/-- Whether `r` may use queue `q` through a queue port (R260). -/
def queueAllowed (d : Dev) (r : Req) (q : Nat) : Bool := r.devlvl || d.queueOwner q == some r.part

/-- Whether the owner of a cluster or of an HBM address is the request's partition, where a QWR or QRD comes there (R260). -/
def targetAllowed (d : Dev) (r : Req) (t a : Nat) : Bool :=
  if t < 0x40 then r.devlvl || d.ownerOf t == some r.part else if t < 0x90 then d.hbmAllowed r a 1 else true

/-- A QWR or QRD at its target: an MQE queue port (R260, R292). -/
def serveQueue (write : Bool) (act : Packet → Dev → Nat → Dev) (k : Packet) (d : Dev) (r : Req) : Dev :=
  let t := k.dst.val
  let q := bitsAt k.addr.toNat 0 13
  let n := bitsAt k.addr.toNat 13 6
  if t < 0x40 && d.niState t ≠ 0 then d.unreachable.respond k 1 []
  else if !d.targetAllowed r t k.addr.toNat then d.refuseAccess k r write
  else if t < 0x94 || 0x98 ≤ t then d.respond k 6 []
  else if !d.queueAllowed r q then d.refuseAccess k r write
  else if !(d.queueAt q).en || n == 0 || 32 < n then d.respond k 6 []
  else if write && packetBad k then (d.checkPayload k).respond k 4 []
  else act (packetFixed k) (if write then d.checkPayload k else d) q

/-- A QWR that finds a PRIV queue full is dropped whole (R284, R285). -/
def dropQwr (d : Dev) (q : Nat) (k : Packet) : Dev :=
  let r := d.dropWrite q (k.addr.getLsbD 19) true
  (r.1.notifyKinds q r.2).respond k 0 (leBytes 8 0)

/-- QWR at its queue (R284, R292). -/
def doQwr (k : Packet) (d : Dev) (q : Nat) : Dev :=
  let x := d.queueAt q
  if x.waitQwr.isEmpty && (x.discard || bitsAt k.addr.toNat 13 6 ≤ x.free) then d.acceptQwr q k
  else if x.priv then d.dropQwr q k
  else d.setQueue q { x with waitQwr := x.waitQwr ++ [k] }

/-- QRD at its queue (R286, R292). -/
def doQrd (k : Packet) (d : Dev) (q : Nat) : Dev :=
  let d := d.markBound q
  if !d.emptyFor q && (d.queueAt q).waitQrd.isEmpty then d.answerQrd q k
  else if k.addr.getLsbD 19 then d.modQueue q fun x => { x with waitQrd := x.waitQrd ++ [k] }
  else d.respond k 0 (leBytes 8 0)

/-! Capture and trace packets. -/

/-- A block of a capture was written damaged (R327): its entry says so when it is written, or, where it stands already, at once; an entry that
a later capture replaces stays as it is. -/
def markDataErr (d : Dev) (b : CapBlk) : Dev :=
  let x := d.chanAt b.chan
  let c := d.g pCAP (CAP_CH_CFG_OWNER b.chan)
  if x.cap == b.cap && collects x then d.setChan b.chan { x with dataErr := true }
  else if x.cap == b.cap || b.dir ≠ d.dirAddr b.chan (d.g pCAP (CAP_CSTATUS_SEGMENT c)) then
    let r := d.hbmGet (hubReq 0x9A) (b.dir + 4) 1
    r.1.hbmPut (hubReq 0x9A) (b.dir + 4) (leBytes 1 (leNat r.2.2 ||| 16))
  else d

/-- CAP.DATA_ERR counts a block that an error met (R327, R335, R363). -/
def countDataErr (d : Dev) : Dev := (d.add pCAP CAP_DATA_ERR_COUNT 1).irq pCAP 17

/-- CAP_WR (R267, R327, R363): the block is written as received, or dropped where its place fails its check. -/
def doCapWr (d : Dev) (k : Packet) : Dev :=
  match d.cap.blocksOut.find? fun b => b.addr == k.addr.toNat with
  | none => d
  | some b =>
    let d := { d with cap := { d.cap with blocksOut := d.cap.blocksOut.erase b } }
    let d := d.checkPayload k
    if packetBad k then
      ((d.countDataErr.raise 0x10A 2 16 b.chan k.addr.toNat).hbmWrite (hubReq 0x9A) b.addr k.data).1.markDataErr b
    else
      let r := d.hbmWrite (hubReq 0x9A) b.addr b.bytes
      r.1.iff (r.2 == 4) countDataErr

/-- Where stream `s` writes its oldest buffered block: the PCI engine or not, and the address in host memory or in HBM (R342). -/
def trcPlace (d : Dev) (s : Nat) : Bool × Nat :=
  if d.b pTRC (TRC_S_CFG_SINK s) then (true, (d.g pTRC (TRC_S_BASE_ADDR s) + (d.ringNext s).1 * 256) % 2 ^ 64)
  else (false, d.ringBase s + (d.ringNext s).1 * 256)

/-- The records of a block and its class (R344). -/
def blockRecs (block : List Byte) : Nat × List (List Byte) :=
  (leAt block 2 1, (List.range (leAt block 0 1)).map fun k => (block.drop (16 + 16 * k)).take 16)

/-- The oldest block of stream `s` has been written: the ring advances; without WRAP a full HBM ring stops the stream (R342). -/
def blockWritten (d : Dev) (s : Nat) : Dev :=
  let next := (d.ringNext s).2
  let d := (d.p pTRC (TRC_S_WR_PTR_BLOCK s) next).add pTRC (TRC_S_BLOCKS_COUNT s) 1
  if next == 0 && !d.b pTRC (TRC_S_CFG_WRAP s) && !d.b pTRC (TRC_S_CFG_SINK s) then
    (((d.stopStream s).on pTRC (TRC_S_STATUS_FULL s)).traceIrq s).modStrm s fun x => { x with out := [] }
  else d

/-- TRC_WR (R267, R342, R343, R363): the oldest block of the stream whose ring has this place next. A block that finds a host ring full, or
whose place fails its check, is lost. -/
def doTrcWr (d : Dev) (k : Packet) : Dev :=
  let pci : Bool := 0x90 ≤ k.dst.val && k.dst.val ≤ 0x93
  match (List.range 17).find? fun s => !(d.strmAt s).out.isEmpty && d.ringBlocks s ≠ 0 && d.trcPlace s == (pci, k.addr.toNat) with
  | none => d
  | some s =>
    let x := d.strmAt s
    let bad := packetBad k
    let block := if bad then k.data else x.out.headD []
    let d := ((d.checkPayload k).setStrm s { x with out := x.out.drop 1 }).iff bad fun d => d.noteLoss s
    let lost (d : Dev) : Dev := d.loseBlock s (blockRecs (x.out.headD [])).1 (blockRecs (x.out.headD [])).2
    if pci then (if d.hostFull s then lost d else (d.emit (.hostWrite (d.strmFn s) k.addr.toNat block)).blockWritten s)
    else
      let r := d.hbmWrite (if s < 16 then ptnReq 0x9B s else hubReq 0x9B) k.addr.toNat block
      if r.2 == 4 then lost r.1 else r.1.blockWritten s

/-! Responses. -/

/-- A response is discarded (R265, R269, R272). -/
def lateRsp (d : Dev) : Dev := d.add pNOC NOC_LATE_RSP_COUNT 1
/-- A completion TLP that carries failed bytes is marked poisoned, counted, and reported through AER (R267, R419, R421, R434). -/
def poison (d : Dev) (fn : Fn) (a : Nat) (bs : List Byte) : Dev :=
  (((d.emit (.poisoned fn a bs)).on pCFG CFG_AER_EGRESS_BLOCKED).add pPCI PCI_UNCORR_ERR_COUNT 1).irq pPCI 0

/-- A response reaches its requester, whose buffer `o` it was to take (R264, R267, R268); `data` marks RSP_DATA. -/
def deliver (d : Dev) (o : Outst) (k : Packet) (data : Bool) : Dev :=
  let t := k.dst.val
  let bad := data && packetBad k
  let d := if data then d.checkPayload k else d
  let status := if bad then 4 else k.status.val
  if t < 0x40 then
    match d.farByTag t k.tag with
    | some (f, i) => d.farAnswered t f i status (packetFixed k).data
    | none => d.tick.farStatus t ((Config.freeWord d.fresh 2).toNat % 4) k.addr.toNat status
  else if 0x90 ≤ t && t < 0x94 then
    if bad then
      (d.accessError (fnOf o.fn) (if o.vc == 3 then 0 else 2) o.addr false).poison (fnOf o.fn) k.addr.toNat (List.replicate k.data.length 0xFF)
    else if status ≠ 0 then d.hostFail o
    else if data then d.emit (.data (fnOf o.fn) k.addr.toNat (packetFixed k).data)
    else d
  else if status ≠ 0 then d.courierFail t
  else d

/-- RSP_DATA and RSP_ACK (R264, R265, R267, R269, R272): one that finds no reserved buffer has timed out. A gateway passes data on corrected, and
tells its far requester of data that it cannot correct. -/
def doResponse (d : Dev) (k : Packet) (data : Bool) : Dev :=
  let t := k.dst.val
  if t < 0x40 && d.niState t == 2 then d.lateRsp
  else match d.noc.outst.find? fun o => o.src == t && o.tag == k.tag.val with
    | none => d.lateRsp
    | some o =>
      if o.abandoned then (d.freeOutst t k.tag).lateRsp
      else
        let sent := if data && packetBad k then failedPacket o 4 else packetFixed k
        let d := if 0xE0 ≤ t && t < 0xF0 && d.linkCarries (t - 0xE0) then d.gatewayTakes (t - 0xE0) sent (data && !packetBad k) else d
        (d.deliver o k data).freeOutst t k.tag

/-- RSP_TIMEOUT (R265, R268, R272). -/
def doRspTimeout (d : Dev) (src tag : Nat) : Dev :=
  match d.noc.outst.find? fun o => o.src == src && o.tag == tag with
  | none => d
  | some o =>
    if o.abandoned then d.freeOutst src tag
    else
      let d := { d with noc := { d.noc with quar := d.noc.quar ++ [(src, tag)] } }
      let d := (d.add pNOC NOC_TIMEOUTS_COUNT 1).raise 0x0B5 2 16 (src ||| o.dst <<< 8 ||| o.vc <<< 16 ||| tag <<< 18) o.addr
      (d.failed o 3).freeOutst src tag

/-- TAG_QUARANTINE_END (R265). -/
def doQuarantineEnd (d : Dev) (src tag : Nat) : Dev :=
  { d with noc := { d.noc with quar := d.noc.quar.filter fun q => q ≠ (src, tag) } }

/-! Drain and fence (R269). -/

/-- Whether cluster `n` has no request outstanding, its far ports' among them. -/
def drained (d : Dev) (n : Nat) : Bool :=
  !(d.noc.outst.any fun o => o.src == n) && (List.range 4).all fun f => (d.farOf n f).all fun a => !a.write && a.done

/-- DRAIN_COMPLETE. -/
def doDrainComplete (d : Dev) (n : Nat) : Dev := if d.niState n == 1 && d.drained n then d.fenceNi n else d

/-- DRAIN_TIMEOUT (R269, R271): tags and far accesses are abandoned; whether a write had reached its target is free. SRC, DST and VC of a forced
drain are free. -/
def doDrainTimeout (d : Dev) (n : Nat) : Dev :=
  if d.niState n ≠ 1 then d
  else
    let d := (((d.landFar n false).fenceNi n).abandon n).each (List.range 4) fun d p => d.setFar n p ((d.farOf n p).filter fun a => !a.write && a.done)
    let d := d.settleFences
    let f (i : Nat) : Nat := (Config.freeWord d.fresh i).toNat
    let d := (d.add pNOC NOC_DRAIN_FORCED_COUNT 1).tick.nocError 4 (f 0) (f 1) (f 2) (meshX n) (meshY n)
    (d.irq pNOC 2).raise 0x0B4 2 16 d.nocLast n

/-- Whether the memories and the stores of cluster `n` are clear (R44, R85, R159). -/
def memoriesClear (d : Dev) (n : Nat) : Bool :=
  (SMap.range d.code.bpi (ixBp n 0 0 0) (ixBp (n + 1) 0 0 0)).isEmpty && (SMap.range d.code.wli (ixWa n 0 0 0) (ixWa (n + 1) 0 0 0)).isEmpty &&
    (SMap.range d.code.port (ixPort n 0 0 0) (ixPort (n + 1) 0 0 0)).isEmpty && (SMap.range d.code.mesh (ixMesh n 0 0) (ixMesh (n + 1) 0 0)).isEmpty &&
    (SMap.range d.code.dmem (ixRow n 0 0) (ixRow (n + 1) 0 0)).isEmpty && d.st.zero n == d.st

/-- A cluster's interface is ACTIVE with its quarantine cleared and its buffers free. -/
def unfenceNi (d : Dev) (n : Nat) : Dev :=
  { d.p pNOC (NOC_NI_STATE_CLU n) 0 with
    noc := { d.noc with quar := d.noc.quar.filter (fun q => q.1 ≠ n), outst := d.noc.outst.filter (fun o => o.src ≠ n) } }.settleFences

/-- UNFENCE: of a cluster that is not OFF and is clear. -/
def doUnfence (d : Dev) (n : Nat) : Dev := if d.niState n == 2 && d.cluPower n ≠ 2 && d.memoriesClear n then d.unfenceNi n else d

/-- ERR_CTRL.CLR_COUNTS (R278). -/
def doNocClr (d : Dev) : Dev :=
  (d.resetRange (pNOC + 0x140) (pNOC + 0x164)).each (List.range 8) fun d k => d.resetRange (pNOC + 0x210 + 0x20 * k) (pNOC + 0x21C + 0x20 * k)

end Dev

/-- QWR (R292). -/
def execQwr (k : Packet) (s : State) : Host.Outcome State Fault Refusal := main s fun d => d.request k true (Dev.serveQueue true Dev.doQwr)
/-- QRD (R292). -/
def execQrd (k : Packet) (s : State) : Host.Outcome State Fault Refusal := main s fun d => d.request k false (Dev.serveQueue false Dev.doQrd)
/-- CAP_WR (R327). -/
def execCapWr (k : Packet) (s : State) : Host.Outcome State Fault Refusal := main s fun d => d.doCapWr k
/-- TRC_WR (R343). -/
def execTrcWr (k : Packet) (s : State) : Host.Outcome State Fault Refusal := main s fun d => d.doTrcWr k
/-- RSP_DATA (R264). -/
def execRspData (k : Packet) (s : State) : Host.Outcome State Fault Refusal := main s fun d => d.doResponse k true
/-- RSP_ACK (R264). -/
def execRspAck (k : Packet) (s : State) : Host.Outcome State Fault Refusal := main s fun d => d.doResponse k false
/-- RSP_TIMEOUT (R265). -/
def execRspTimeout (src : Fin 256) (tag : Fin 4096) (s : State) : Host.Outcome State Fault Refusal := main s fun d => d.doRspTimeout src tag
/-- TAG_QUARANTINE_END (R265). -/
def execTagQuarantineEnd (src : Fin 256) (tag : Fin 4096) (s : State) : Host.Outcome State Fault Refusal := main s fun d => d.doQuarantineEnd src tag
/-- ROUTE_TABLE_WRITE (R262). -/
def execRouteTableWrite (port idx : Fin 256) (entry : W64) (s : State) : Host.Outcome State Fault Refusal := main s fun d => d.doRouteWrite port idx entry.toNat
/-- DRAIN (R269). -/
def execDrain (n : Fin 64) (s : State) : Host.Outcome State Fault Refusal := main s fun d => d.drainNi n
/-- DRAIN_COMPLETE (R269). -/
def execDrainComplete (n : Fin 64) (s : State) : Host.Outcome State Fault Refusal := main s fun d => d.doDrainComplete n
/-- DRAIN_TIMEOUT (R269). -/
def execDrainTimeout (n : Fin 64) (s : State) : Host.Outcome State Fault Refusal := main s fun d => d.doDrainTimeout n
/-- UNFENCE (R269). -/
def execUnfence (n : Fin 64) (s : State) : Host.Outcome State Fault Refusal := main s fun d => d.doUnfence n
/-- NOC_CLR_COUNTS (R278). -/
def execNocClrCounts (s : State) : Host.Outcome State Fault Refusal := main s fun d => if d.full then d.doNocClr else d

end Sys2Proof.Machine
end

