-- ==== Sys2Proof/Machine/Power.lean ====
section
/-! DEFINITION. Power states, resets, start-up, wake and the Warden (R377 to R393), cluster gating (R381 to R383). -/

namespace Sys2Proof.Machine

namespace Dev

/-- The pages that only POWER reaches: AON, WDN, RST and FUS (R386, R399, R433). -/
def aonKey (k : Nat) : Bool := (32768 ≤ k && k < 98304) || (163840 ≤ k && k < 229376)

/-- What a reset of everything leaves: fuses, pins, the model's own record and its source of free values. -/
def bare (d : Dev) : Dev :=
  { Dev.reset with boot := { d.boot with staging := [], burn := none, provTag := none }, out := d.out, fresh := d.fresh + 1,
                   pwr := { Pwr.reset with st := d.pwr.st, vaux := d.pwr.vaux, vin48 := d.pwr.vin48, perst := d.pwr.perst } }

/-- PERST (R202, R203, R386): everything but the AON domain and the fuses returns to its Reset value; `cause` is RST.CAUSE.LAST. -/
def perst (d : Dev) (cause : Nat) (st : Power) : Dev :=
  let d := d.cutBurns
  let kept := { d.bare with fld := d.fld.filter (fun e => aonKey e.1), log := { LogS.reset with gasp := d.log.gasp } }
  let d := ((kept.p pWDN WDN_STATUS_STATE 0).p pRST RST_PTN_STATUS_BUSY 0).p pRST RST_CAUSE_LAST cause
  { d.add pRST RST_PERST_COUNT_COUNT 1 with pwr := { d.pwr with st := st } }

/-- POWER (R380, R386): everything but the fuses. -/
def powerOn (d : Dev) : Dev :=
  let d := d.bare
  { d with pwr := { d.pwr with vaux := true, st := if d.pwr.vin48 then .doze else .standby } }

/-- VAUX_LOSS (R379, R380, R444): from any state to OFF, where nothing but the fuses is held, and no pin is driven. -/
def doVauxLoss (d : Dev) : Dev :=
  let low := d.b pAON AON_WAKE_CAUSE_ASSERTED
  let d := d.cutBurns.bare
  let d := { d with pwr := { d.pwr with vaux := false, st := .off } }
  d.iff low fun d => d.emit (.wake false)

/-- VIN48_UP (R380). -/
def doVin48Up (d : Dev) : Dev :=
  let d := { d with pwr := { d.pwr with vin48 := true } }
  if d.pwr.st == .standby then { d.on pAON AON_WAKE_CAUSE_VIN48 with pwr := { d.pwr with st := .doze } } else d

/-- VIN48_LOSS (R380, R407). The manual gives this last-gasp entry no event number, class or information: free. -/
def doVin48Loss (d : Dev) : Dev :=
  let d := { d with pwr := { d.pwr with vin48 := false } }
  match d.pwr.st with
  | .active =>
    let f (i : Nat) : Nat := (Config.freeWord d.fresh i).toNat
    (d.tick.lastGasp (f 0 % 1024) (f 1 % 4) 16 (f 2 ||| f 3 <<< 32) (f 4 ||| f 5 <<< 32)).perst 2 .standby
  | .doze => { d with pwr := { d.pwr with st := .standby } }
  | _ => d

/-- PERST_ASSERT (R380, R388, R392): a controlled stop completes in its own order; outside ACTIVE the Warden returns to IDLE. -/
def doPerstAssert (d : Dev) : Dev :=
  let d := { d with pwr := { d.pwr with perst := true, afterStop := false } }
  match d.pwr.st with
  | .active => if d.pwr.stopping then d else d.perst 1 .doze
  | .doze | .standby => d.p pWDN WDN_STATUS_STATE 0
  | .off => d

/-- PERST_DEASSERT (R378): from here the start condition holds where the supplies do. -/
def doPerstDeassert (d : Dev) : Dev := { d with pwr := { d.pwr with perst := false } }

/-- The start condition of R378 and R380. -/
def mayStart (d : Dev) : Bool := d.pwr.st == .doze && d.pwr.vaux && d.pwr.vin48 && !d.pwr.perst && !d.pwr.afterStop

/-- A size that Resizable BAR gives BAR2: 1 GiB to 64 GiB, a power of two (R420, R422); which is the host's choice, and free. -/
def barSize (k : Nat) : Nat := 2 ^ (30 + Config.barChoice k % 7)

/-- The endpoint trains (R418, R434): a rate of 2.5 to 64 GT/s, a width of x1 to x16, FLIT mode always at 64 GT/s, some correctable errors on the
way; the host sizes the PF's BAR2 (R420). Else free. -/
def trainPcie (d : Dev) : Dev :=
  let t := Config.pcieTraining d.fresh
  let speed := 1 + t % 6
  let d := ((d.p pPCI PCI_LINK_SPEED speed).p pPCI PCI_LINK_WIDTH (2 ^ (t / 6 % 5))).p pPCI PCI_LINK_FLIT (if speed == 6 then 1 else t / 30 % 2)
  { d.p pPCI PCI_CORR_ERR_COUNT (Config.linkErrors d.fresh) with pwr := { d.pwr with pfBar2 := barSize d.fresh } }

/-- STARTUP (R195, R202, R365, R366, R389, R390): clocks, fuses, the master key and the boot function. -/
def doStartup (d : Dev) (refclk healthOk : Bool) : Dev :=
  if !d.mayStart then d
  else
    let d := { d with pwr := { d.pwr with st := .active } }
    let d := ((d.on pCKG CKG_STATUS_OSC_OK).on pCKG CKG_STATUS_CORE_LOCK).p pCKG CKG_STATUS_REFCLK refclk.toNat
    let d := (d.romStart.setBoot 1).setAuthMode.trainPcie
    let d := if healthOk then
        { (d.on pIME IME_KEYSTATE_KEY_VALID).tick with ime := { d.ime with key := (Config.random d.fresh).toNat } }
      else (d.irq pIME 1).raise 0x0C9 2 16 (d.word pIME 0x100 fldsIME) 0
    (d.p pAON AON_WAKE_CAUSE_ASSERTED 0).emit (.wake false)

/-- RST.CTRL.DEVICE (R380), ignored while a controlled stop runs. -/
def doDevice (d : Dev) : Dev := if d.pwr.stopping then d else d.perst 5 .doze

/-! FUNCTION and PARTITION resets (R167, R196, R386 to R388, R424). -/

/-- Function state of PCIe: the MSI-X table and pending bits, and copies of register pairs. -/
def resetFn (d : Dev) (fn : Fn) : Dev := d.resetRange (pMSIX fn) (pMSIX fn + 0x9000)

/-- A function is under reset. -/
def beginFnReset (d : Dev) (fn : Fn) : Dev := { d.resetFn fn with pwr := { d.pwr with fnReset := d.pwr.fnReset ++ [fn] } }

/-- Every partition is reset. -/
def resetPtns (d : Dev) (mask : Nat) : Dev := d.each ((List.range 16).filter mask.testBit) fun d i => d.ptnResetReq i

/-- RST.PTN_RESET (R387): ignored for a partition whose VF is under reset, which resets it too (R388). -/
def doPtnReset (d : Dev) (mask : Nat) : Dev :=
  d.each ((List.range 16).filter fun i => mask.testBit i && !(d.vfLive i && d.pwr.fnReset.contains (.vf (Fin.ofNat 16 i)))) fun d i => d.ptnResetReq i

/-- The function state of the VFs whose bound partitions `mask` names goes with VF Enable. -/
def clearVfs (d : Dev) : Dev :=
  let d := d.each (List.range 16) fun d i => d.resetFn (.vf (Fin.ofNat 16 i))
  { d with pwr := { d.pwr with vfNum := 0, fnReset := d.pwr.fnReset.filter (· == .pf) } }

/-- FLR of the PF, hot reset or link down (R196, R386): the boot loader returns to READY, or the full function is presented. -/
def doFlrPf (d : Dev) : Dev :=
  if d.pwr.fnReset.contains .pf then d
  else
    let d := d.clearVfs.beginFnReset .pf
    if 5 ≤ d.bootState then ((d.p pDEV DEV_STATE_BOOT 0).on pDEV DEV_STATE_FULL).resetPtns 0xFFFF
    else if d.bootState == 0 then d
    else
      let d := ((d.clearStaging.setBoot 1).p pLDR LDR_BOOT_STATUS_RUNNING_SVN 0).p pLDR LDR_BUNDLE_VERSION_VERSION 0
      d.each (List.range 8) fun d c => d.p pPUP (PUP_CORE_STATE_STATE c) 0

/-- FLR of VF p+1 (R167, R386): ignored while the PF is under reset, merged with one in progress. -/
def doFlrVf (d : Dev) (p : Fin 16) : Dev :=
  if d.pwr.fnReset.contains .pf || d.pwr.fnReset.contains (.vf p) || d.pwr.vfNum ≤ p.val then d
  else
    let bound := d.vfLive p
    let d := d.beginFnReset (.vf p)
    if bound then d.ptnResetReq p else d

/-- FUNCTION_RESET_COMPLETE (R387). -/
def doFnResetDone (d : Dev) (fn : Fn) : Dev := { d with pwr := { d.pwr with fnReset := d.pwr.fnReset.filter (· ≠ fn) } }

/-- VF_ENABLE_CLEAR (R194, R424): a FUNCTION reset of every VF. -/
def doVfClear (d : Dev) : Dev :=
  if !d.full then d
  else
    let bound := (List.range 16).foldl (fun m i => if d.vfLive i then m ||| 1 <<< i else m) 0
    d.clearVfs.resetPtns bound

/-- VF_ENABLE_SET (R166, R194): the host has sized the VFs' BAR2 (R422). -/
def doVfSet (d : Dev) (num : Nat) : Dev :=
  if d.full && !d.pwr.fnReset.contains .pf && d.pwr.vfNum == 0 then { d.tick with pwr := { d.pwr with vfNum := num, vfBar2 := barSize d.fresh } } else d

/-! Clusters (R382). -/

/-- CLUSTER_WAKE: at most 4 IDLE clusters of partitions come ON. -/
def doClusterWake (d : Dev) (ns : List Nat) : Dev :=
  d.each ((ns.filter fun n => d.cluPower n == 1 && (d.ownerOf n).isSome).take 4) fun d n => d.wake n

/-- CLUSTER_IDLE_DELAY: a partition STOPPED or FROZEN with no loader or snapshot activity. -/
def doIdleDelay (d : Dev) (i : Nat) : Dev :=
  let still := d.seqState i == 0 || d.seqState i == 2
  if still && d.dirState i ≠ 0 && !d.b (pPTN i) PTN_LOAD_STATUS_BUSY && !d.snapBusy i then
    d.each (d.clustersOf i) fun d n => if d.cluPower n == 0 then d.setPower n 1 else d
  else d

/-- CLUSTER_OFF_DELAY (R270, R382, R383): drained, and switched off once FENCED. -/
def doOffDelay (d : Dev) (n : Nat) : Dev :=
  if (d.ownerOf n).isSome || d.joining n || d.testing n || d.cluPower n == 2 then d
  else
    let d := (d.drainNi n).doDrainComplete n
    if d.niState n == 2 then d.setPower n 2 else d

/-- CLUSTER_POWER_ON: a cluster that joins a partition is cleared and unfenced into IDLE; one whose partition runs comes ON (R382). -/
def doPowerOnCluster (d : Dev) (n : Nat) : Dev :=
  if d.cluPower n == 2 && ((d.ownerOf n).isSome || d.joining n) then
    let d := ((d.freshCluster n).setPower n 1).unfenceNi n
    match d.ownerOf n with
    | some i => d.iff (d.keepsOn i) fun d => d.wake n
    | none => d
  else d

/-! Wake (R390). -/

/-- A wake source is recorded and WAKE# asserted. -/
def latchWake (d : Dev) (src : Nat) : Dev :=
  let d := if src < 8 then d.p pAON AON_WAKE_CAUSE_TRIG (d.g pAON AON_WAKE_CAUSE_TRIG ||| 1 <<< src)
    else if src == 8 then d.on pAON AON_WAKE_CAUSE_STRING else d.on pAON AON_WAKE_CAUSE_STOP
  (d.on pAON AON_WAKE_CAUSE_ASSERTED).emit (.wake true)

/-- Whether a wake source is enabled. -/
def wakeEnabled (d : Dev) (src : Nat) : Bool :=
  if src < 8 then (d.g pAON AON_WAKE_CFG_TRIG).testBit src
  else if src == 8 then d.b pAON AON_WAKE_CFG_STRING else d.b pAON AON_WAKE_CFG_ON_STOP

/-- WAKE_SOURCE. -/
def doWake (d : Dev) (src : Nat) : Dev :=
  if (d.pwr.st == .standby || d.pwr.st == .doze) && d.wakeEnabled src then d.latchWake src else d

/-! The Warden (R392, R393). -/

/-- WDN.STATUS.STATE. -/
def wardenState (d : Dev) : Nat := d.g pWDN WDN_STATUS_STATE
def setWarden (d : Dev) (st : Nat) : Dev := (d.p pWDN WDN_STATUS_STATE st).traceWarden

/-- Every Puppeteer core in one state enters another: GRACE interrupts the running cores, an exception of theirs, and they return from it
(R337, R392, R434). -/
def coresFrom (d : Dev) (a b : Nat) : Dev :=
  d.each (List.range 8) fun d c =>
    if d.g pPUP (PUP_CORE_STATE_STATE c) == a then (d.p pPUP (PUP_CORE_STATE_STATE c) b).tracePup c (if b == 2 then 1 else 2) else d

/-- HEARTBEAT: Stage writes the count. -/
def doHeartbeat (d : Dev) (v : Nat) : Dev :=
  let changed := d.g pWDN WDN_HEARTBEAT_COUNT ≠ v
  let d := d.p pWDN WDN_HEARTBEAT_COUNT v
  if changed && d.wardenState == 2 then ((d.coresFrom 2 1).add pWDN WDN_STATUS_GRACE_COUNT 1).setWarden 1 else d

/-- HEARTBEAT_TIMEOUT. -/
def doHeartbeatTimeout (d : Dev) : Dev :=
  if d.wardenState == 1 then
    let d := ((d.setWarden 2).coresFrom 1 2).irq pWDN 0
    d.raise 0x103 2 16 (d.word pWDN 0x104 fldsWDN) (d.g pWDN WDN_HEARTBEAT_COUNT)
  else d

/-- A controlled stop begins: steps 1 to 3 of R393. -/
def controlledStop (d : Dev) (cause : Nat) : Dev :=
  if 2 < d.wardenState then d
  else
    let d := (d.p pWDN WDN_STATUS_STOP_CAUSE cause).setWarden 3
    let d := d.each (List.range 16) fun d i => if d.seqState i == 1 then d.hardReq i else d
    let hb := d.g pWDN WDN_HEARTBEAT_COUNT
    let d := (d.raiseSysFreeze.lastGasp 0x104 3 16 cause hb).raise 0x104 3 16 cause hb
    let d := (d.p pWDN WDN_STOP_TIME_NS d.now).each (List.range 64) fun d n => d.drainNi n
    { d with pwr := { d.pwr with stopping := true, afterStop := !d.pwr.perst } }

/-- GRACE_TIMEOUT. -/
def doGraceTimeout (d : Dev) : Dev := if d.wardenState == 2 then d.controlledStop 1 else d

/-- OVER_TEMPERATURE: the junction temperature of a quadrant, or of the hub (4), with a stop above 110 °C. -/
def doTemperature (d : Dev) (q celsius : Nat) : Dev :=
  let d := if q < 4 then d.p pPMU (PMU_TEMP_Q q) celsius else d.p pPMU PMU_TEMP_HUB_HUB celsius
  if 110 < celsius then d.controlledStop 2 else d

/-- CORE_PLL_LOCK_LOST (R385). -/
def doPllLost (d : Dev) : Dev := (d.p pCKG CKG_STATUS_CORE_LOCK 0).controlledStop 4

/-- STOP_DRAIN_TIMEOUT: 122 µs after DRAIN. -/
def doStopDrain (d : Dev) : Dev := if d.pwr.stopping then d.each (List.range 64) fun d n => d.doDrainTimeout n else d

/-- STOP_COMPLETE: steps 4 to 8, and the reset that ends a controlled stop (R380, R386, R393). Where PERST# was asserted during the stop,
that PERST takes the Warden to IDLE at its end, and DOZE lasts until PERST# is deasserted (R388, R392). -/
def doStopComplete (d : Dev) : Dev :=
  if !d.pwr.stopping then d
  else
    let alone := d.pwr.afterStop
    let d := (d.perst 3 .doze).p pWDN WDN_STATUS_STATE (if alone then 4 else 0)
    let d := { d with pwr := { d.pwr with afterStop := alone } }
    if d.wakeEnabled 9 then d.latchWake 9 else d

end Dev

/-- A command that reaches a function by a configuration request: until the boot function is ready, the request completes with
Configuration Request Retry Status (R195). -/
def config (fn : Fn) (s : State) (f : Dev → Dev) : Host.Outcome State Fault Refusal :=
  fin s fun d => if d.active then f d else if d.mayStart then d.emit (.configRetry fn) else d

/-- VAUX_UP (R380): a POWER reset from OFF. -/
def execVauxUp (s : State) : Host.Outcome State Fault Refusal := fin s fun d => if d.pwr.st == .off then d.powerOn else d
/-- VAUX_LOSS (R380). -/
def execVauxLoss (s : State) : Host.Outcome State Fault Refusal := fin s fun d => d.doVauxLoss
/-- VIN48_UP (R380). -/
def execVin48Up (s : State) : Host.Outcome State Fault Refusal := fin s fun d => d.doVin48Up
/-- VIN48_LOSS (R380). -/
def execVin48Loss (s : State) : Host.Outcome State Fault Refusal := fin s fun d => d.doVin48Loss
/-- PERST_ASSERT (R380). -/
def execPerstAssert (s : State) : Host.Outcome State Fault Refusal := fin s fun d => d.doPerstAssert
/-- PERST_DEASSERT (R378). -/
def execPerstDeassert (s : State) : Host.Outcome State Fault Refusal := fin s fun d => d.doPerstDeassert
/-- STARTUP (R389). -/
def execStartup (refclk healthOk : Bool) (s : State) : Host.Outcome State Fault Refusal := fin s fun d => d.doStartup refclk healthOk
/-- DEVICE (R380). -/
def execDevice (s : State) : Host.Outcome State Fault Refusal := main s fun d => d.atPage pRST fun d => d.doDevice
/-- FLR_PF (R386). -/
def execFlrPf (s : State) : Host.Outcome State Fault Refusal := config .pf s fun d => d.doFlrPf
/-- FLR_VF (R167). -/
def execFlrVf (p : Fin 16) (s : State) : Host.Outcome State Fault Refusal := config (.vf p) s fun d => d.doFlrVf p
/-- FUNCTION_RESET_COMPLETE (R387). -/
def execFunctionResetComplete (fn : Fn) (s : State) : Host.Outcome State Fault Refusal := main s fun d => d.doFnResetDone fn
/-- PTN_RESET (R387). -/
def execPtnReset (mask : BitVec 16) (s : State) : Host.Outcome State Fault Refusal := main s fun d => d.atPage pRST fun d => d.doPtnReset mask.toNat
/-- PARTITION_RESET_COMPLETE (R387). -/
def execPartitionResetComplete (p : Fin 16) (s : State) : Host.Outcome State Fault Refusal := main s fun d => d.ptnResetDone p
/-- VF_ENABLE_CLEAR (R424). -/
def execVfEnableClear (s : State) : Host.Outcome State Fault Refusal := config .pf s fun d => d.doVfClear
/-- VF_ENABLE_SET (R166). -/
def execVfEnableSet (num : Fin 17) (s : State) : Host.Outcome State Fault Refusal := config .pf s fun d => d.doVfSet num
/-- CLUSTER_WAKE (R382). -/
def execClusterWake (ns : List (Fin 64)) (s : State) : Host.Outcome State Fault Refusal := main s fun d => d.doClusterWake (ns.map (·.val))
/-- CLUSTER_IDLE_DELAY (R382). -/
def execClusterIdleDelay (p : Fin 16) (s : State) : Host.Outcome State Fault Refusal := main s fun d => d.doIdleDelay p
/-- CLUSTER_OFF_DELAY (R382). -/
def execClusterOffDelay (n : Fin 64) (s : State) : Host.Outcome State Fault Refusal := main s fun d => d.doOffDelay n
/-- CLUSTER_POWER_ON (R382). -/
def execClusterPowerOn (n : Fin 64) (s : State) : Host.Outcome State Fault Refusal := main s fun d => d.doPowerOnCluster n
/-- CORE_PLL_LOCK_LOST (R385). -/
def execCorePllLockLost (s : State) : Host.Outcome State Fault Refusal := main s fun d => d.doPllLost
/-- WAKE_SOURCE (R390). -/
def execWakeSource (src : Fin 10) (s : State) : Host.Outcome State Fault Refusal := fin s fun d => d.doWake src
/-- HEARTBEAT (R392). -/
def execHeartbeat (v : W32) (s : State) : Host.Outcome State Fault Refusal := main s fun d => d.doHeartbeat v.toNat
/-- HEARTBEAT_TIMEOUT (R392). -/
def execHeartbeatTimeout (s : State) : Host.Outcome State Fault Refusal := main s fun d => d.doHeartbeatTimeout
/-- GRACE_TIMEOUT (R392). -/
def execGraceTimeout (s : State) : Host.Outcome State Fault Refusal := main s fun d => d.doGraceTimeout
/-- OVER_TEMPERATURE (R392). -/
def execOverTemperature (q : Fin 5) (celsius : Byte) (s : State) : Host.Outcome State Fault Refusal := main s fun d => d.doTemperature q celsius.toNat
/-- RAIL_FAULT (R392). -/
def execRailFault (s : State) : Host.Outcome State Fault Refusal := main s fun d => d.controlledStop 3
/-- WARDEN_STOP (R392). -/
def execWardenStop (s : State) : Host.Outcome State Fault Refusal := main s fun d => d.atPage pWDN fun d => d.controlledStop 5
/-- STOP_DRAIN_TIMEOUT (R393). -/
def execStopDrainTimeout (s : State) : Host.Outcome State Fault Refusal := main s fun d => d.doStopDrain
/-- STOP_COMPLETE (R393). -/
def execStopComplete (s : State) : Host.Outcome State Fault Refusal := main s fun d => d.doStopComplete

end Sys2Proof.Machine
end

