-- ==== Sys2Proof/Machine/Ring.lean ====
section
/-! DEFINITION. The String ring (R394 to R397, R400): membership, frames, discovery; and a write of LGRPg.CFG (R252), which Stage also
makes from a MSG frame. -/

namespace Sys2Proof.Machine

namespace Dev

/-- LGRPg.CFG is written (R245, R252): RATE, MODE, MAX_VER and LANE_EN only while EN is 0; TX_PRESET always. -/
def writeLgrpCfg (d : Dev) (gi v : Nat) : Dev :=
  let b := pLGRP gi
  let d := d.p b LGRP_CFG_TX_PRESET (bitsAt v 7 3)
  if d.b b LGRP_CFG_EN then
    if !v.testBit 0 then d.doLaneDisable gi
    else if bitsAt v 1 2 == 1 then d.doLaneTest gi else d
  else
    let d := ((d.p b LGRP_CFG_MODE (bitsAt v 1 2)).p b LGRP_CFG_RATE (bitsAt v 3 2)).p b LGRP_CFG_MAX_VER (bitsAt v 5 2)
    let d := d.p b LGRP_CFG_LANE_EN (bitsAt v 10 8)
    if v.testBit 0 then d.doLaneEnable gi else d

/-- STR.STATUS.STATE. -/
def strState (d : Dev) : Nat := d.g pSTR STR_STATUS_STATE

/-- CFG.EN := 1 (R394): the device waits for a gap. -/
def doStringJoin (d : Dev) : Dev :=
  if d.strState == 0 then (d.on pSTR STR_CFG_EN).p pSTR STR_STATUS_STATE 1 else d
/-- A gap of 10 µs: the switch opens (R394). -/
def doStringOpen (d : Dev) : Dev := if d.strState == 1 then d.p pSTR STR_STATUS_STATE 2 else d
/-- CFG.EN := 0 (R394). -/
def doStringLeave (d : Dev) : Dev :=
  { (d.p pSTR STR_CFG_EN 0).p pSTR STR_STATUS_STATE 0 with ring := { d.ring with repeats := [] } }
/-- No frame for 1 ms (R400). -/
def doStringBroken (d : Dev) : Dev := if d.strState == 2 then (d.p pSTR STR_STATUS_STATE 3).irq pSTR 0 else d

/-- What a frame on the ring carries (R395): TYPE, DEST, SRC, SEQ, TTL, payload, CRC. -/
structure RingFrame where
  kind : Nat
  dest : Nat
  src  : Nat
  n    : Nat
  ttl  : Nat
  body : List Byte
  crc  : W32

/-- Whether a frame's CRC-32C holds (R395). -/
def frameIntact (f : RingFrame) : Bool := f.crc.toNat == crc32c (ringHead f.kind f.dest f.src f.n f.ttl f.body)

/-- A frame arrives (R394, R395): counted, discarded where its CRC fails or its TYPE is none of R395's (no command of the table brings such a
frame), removed by its sender (`back`), else acted on and repeated with
one less TTL and the payload that `act` answers. A broken ring is heard again. -/
def frameIn (d : Dev) (f : RingFrame) (own : Bool) (back : Dev → Dev) (act : Dev → Dev × List Byte) : Dev :=
  if d.strState < 2 then d
  else
    let d := (d.add pSTR STR_RX_FRAMES_COUNT 1).p pSTR STR_STATUS_STATE 2
    if !frameIntact f then d.add pSTR STR_CRC_ERR_COUNT 1
    else if f.kind == 0 || 7 < f.kind then d
    else if own then back d
    else
      let r := act d
      if f.ttl ≤ 1 then r.1 else r.1.ringOut f.kind f.dest f.src f.n (f.ttl - 1) r.2

/-- Whether a frame with this SRC is the device's own: by its number, or, in discovery, as the root. -/
def ownFrame (d : Dev) (src : Nat) : Bool := src == d.devNum && (d.devNum ≠ 0x1FF || d.b pSTR STR_CFG_ROOT)

/-- A received frame is acted on once for each origin and SEQ (R395). -/
def onceFor (d : Dev) (kind src n : Nat) (act : Dev → Dev) : Dev :=
  if d.ring.seen.contains (kind, src, n) then d
  else act { d with ring := { d.ring with seen := (kind, src, n) :: d.ring.seen } }

/-- The device takes a number (R396, R400). -/
def takeNumber (d : Dev) (n : Nat) : Dev := (d.p pSTR STR_STATUS_DEVICE n).irq pSTR 1

/-- The map with the device's own number (R396). -/
def withOwn (d : Dev) (map : Nat) : Nat := if d.devNum == 0x1FF then map else map ||| 1 <<< d.devNum

/-- STR.CFG.DISCOVER (R396). -/
def doDiscover (d : Dev) : Dev := if d.b pSTR STR_CFG_ROOT then d.ringSend 1 0x1FF (leBytes 64 (d.withOwn 0)) else d

/-- COLLECT (R396). -/
def doCollect (d : Dev) (src n ttl map : Nat) (crc : W32) : Dev :=
  d.frameIn ⟨1, 0x1FF, src, n, ttl, leBytes 64 map, crc⟩ (d.ownFrame src && d.b pSTR STR_CFG_ROOT)
    (fun d =>
      let d := if d.devNum == 0x1FF then d.takeNumber 0 else d
      d.ringSend 2 0x1FF (leBytes 64 (d.withOwn map)))
    (fun d => (d, leBytes 64 (d.withOwn map)))

/-- ASSIGN (R396). -/
def doAssign (d : Dev) (src n ttl map : Nat) (crc : W32) : Dev :=
  d.frameIn ⟨2, 0x1FF, src, n, ttl, leBytes 64 map, crc⟩ (d.ownFrame src && d.b pSTR STR_CFG_ROOT)
    (fun d => d.p pSTR STR_STATUS_MEMBERS ((List.range 512).filter map.testBit).length)
    (fun d =>
      if d.devNum ≠ 0x1FF then (d, leBytes 64 map)
      else match (List.range 512).find? fun k => !map.testBit k with
        | some k => (d.takeNumber k, leBytes 64 (map ||| 1 <<< k))
        | none => (d.on pSTR STR_STATUS_OVERFLOW, leBytes 64 map))

/-- The payload of a BEACON frame: whole and fractional nanoseconds (DESIGN CHOICE, log entry 57: R395 gives no layout). -/
def ringTime (ns frac : Nat) : List Byte := leBytes 8 ns ++ leBytes 2 frac

/-- BEACON (R191). -/
def doStringBeacon (d : Dev) (src n ttl ns frac : Nat) (crc : W32) : Dev :=
  d.frameIn ⟨3, 0x1FF, src, n, ttl, ringTime ns frac, crc⟩ (d.ownFrame src) id fun d => (d.ringBeacon ttl ns frac, ringTime ns frac)

/-- A partition freezes at its own next boundary (R179). -/
def freezeOwn (d : Dev) (i : Nat) : Dev :=
  if d.linked i && d.seqState i == 1 && !d.settling i then
    (d.modPtn i fun x => { x with pend := x.pend ++ [6] }).on (pPTN i) PTN_SEQ_STATUS_FREEZE_PENDING
  else d.freezeReq i 6

/-- A freeze that the ring brings before any link (R179): flooded over the links, with UNALIGNED. -/
def ringFreeze (d : Dev) (origin n : Nat) : Dev :=
  let d := ((d.on pLNK LNK_SYS_STATUS_SEEN).on pLNK LNK_SYS_STATUS_UNALIGNED).p pLNK LNK_SYS_STATUS_ORIGIN origin
  let d := { d with sys := { d.sys with seen := (origin, n) :: d.sys.seen } }
  let d := (d.raise 0x105 2 16 d.sysStatus 0).controlAll 2 (origin ||| n <<< 9)
  d.each (List.range 16) fun d i => if d.b (pPTN i) PTN_FREEZE_CFG_SYS_EN then d.freezeOwn i else d

/-- FREEZE (R179, R395): the frame's payload names the freeze by its origin and number, by which it is recognised however it came. -/
def doStringFreeze (d : Dev) (src n ttl origin num : Nat) (crc : W32) : Dev :=
  d.frameIn ⟨4, 0x1FF, src, n, ttl, freezeBody origin num, crc⟩ (d.ownFrame src) id fun d =>
    (d.onceFor 4 src n fun d => if d.sys.seen.contains (origin, num) then d else d.ringFreeze origin num, freezeBody origin num)

/-- STROBE (R155, R395). -/
def doStringStrobe (d : Dev) (src n ttl : Nat) (crc : W32) : Dev :=
  d.frameIn ⟨5, 0x1FF, src, n, ttl, [], crc⟩ (d.ownFrame src) id fun d => (d.onceFor 5 src n fun d => d.strobeReq 3, [])

/-- RESET_REQ (R380, R395, R397): repeated, and then acted on. -/
def doResetReq (d : Dev) (src n dest ttl : Nat) (crc : W32) : Dev :=
  let f : RingFrame := ⟨6, dest, src, n, ttl, [], crc⟩
  let mine := (dest == d.devNum || dest == 0x1FF) && !d.ring.seen.contains (6, src, n) && d.b pSTR STR_CFG_RESET_EN
  let acts := 2 ≤ d.strState && frameIntact f && !d.ownFrame src && mine && !d.pwr.stopping
  let d := d.frameIn f (d.ownFrame src) id fun d => (d.onceFor 6 src n id, [])
  if acts then d.perst 4 .doze else d

/-- MSG (R254, R396): Stage takes its part of the system configuration, as pairs of a lane group and a CFG word (DESIGN CHOICE, log entry 57: the
manual gives the message no layout). -/
def doMsg (d : Dev) (src n dest ttl : Nat) (cfg : List (Nat × Nat)) (crc : W32) : Dev :=
  let payload := cfg.flatMap fun e => leBytes 1 e.1 ++ leBytes 4 e.2
  d.frameIn ⟨7, dest, src, n, ttl, payload, crc⟩ (d.ownFrame src) id fun d =>
    (if (dest == d.devNum || dest == 0x1FF) && 5 ≤ d.bootState then d.each cfg fun d e => d.writeLgrpCfg e.1 e.2 else d, payload)

/-- STR.RESET_REQ.GO (R400). -/
def doResetReqSend (d : Dev) : Dev := d.ringSend 6 (d.g pSTR STR_RESET_REQ_TARGET) []

/-- The second sending of a frame (R395). -/
def doRepeat (d : Dev) : Dev :=
  match d.ring.repeats with
  | [] => d
  | (kind, dest, n, payload) :: rest =>
    let d := { d with ring := { d.ring with repeats := rest } }
    if d.strState == 2 then d.ringOut kind dest d.devNum n 512 payload else d

/-- STRING_BEACON_SEND (R191): the time master, every 1 ms. -/
def doStringBeaconSend (d : Dev) : Dev :=
  if d.g pTSB TSB_CFG_ROLE == 1 then d.ringSend 3 0x1FF (ringTime (d.time / 65536) (d.time % 65536)) else d

end Dev

/-- STRING_JOIN (R394). -/
def execStringJoin (s : State) : Host.Outcome State Fault Refusal := main s fun d => d.atPage pSTR fun d => d.doStringJoin
/-- STRING_OPEN (R394). -/
def execStringOpen (s : State) : Host.Outcome State Fault Refusal := main s fun d => d.doStringOpen
/-- STRING_LEAVE (R394). -/
def execStringLeave (s : State) : Host.Outcome State Fault Refusal := main s fun d => d.atPage pSTR fun d => d.doStringLeave
/-- STRING_BROKEN (R400). -/
def execStringBroken (s : State) : Host.Outcome State Fault Refusal := main s fun d => d.doStringBroken
/-- DISCOVER (R396). -/
def execDiscover (s : State) : Host.Outcome State Fault Refusal := main s fun d => d.atPage pSTR fun d => d.doDiscover
/-- COLLECT (R396). -/
def execCollect (src : Fin 512) (ttl : Nat) (map : BitVec 512) (mark : RingMark) (s : State) : Host.Outcome State Fault Refusal :=
  main s fun d => d.doCollect src mark.seq.toNat ttl map.toNat mark.crc
/-- ASSIGN (R396). -/
def execAssign (src : Fin 512) (ttl : Nat) (map : BitVec 512) (mark : RingMark) (s : State) : Host.Outcome State Fault Refusal :=
  main s fun d => d.doAssign src mark.seq.toNat ttl map.toNat mark.crc
/-- STRING_BEACON (R191). -/
def execStringBeacon (src : Fin 512) (ttl : Nat) (ns : W64) (frac : BitVec 16) (mark : RingMark) (s : State) :
    Host.Outcome State Fault Refusal := main s fun d => d.doStringBeacon src mark.seq.toNat ttl ns.toNat frac.toNat mark.crc
/-- STRING_FREEZE (R179). -/
def execStringFreeze (src : Fin 512) (n : Byte) (ttl : Nat) (tail : FreezeTail) (s : State) : Host.Outcome State Fault Refusal :=
  main s fun d => d.doStringFreeze src n.toNat ttl tail.origin tail.num.toNat tail.crc
/-- STRING_STROBE (R155). -/
def execStringStrobe (src : Fin 512) (n : Byte) (ttl : Nat) (crc : W32) (s : State) : Host.Outcome State Fault Refusal :=
  main s fun d => d.doStringStrobe src n.toNat ttl crc
/-- RESET_REQ (R397). -/
def execResetReq (src : Fin 512) (n : Byte) (dest : Fin 512) (ttl : Nat) (crc : W32) (s : State) : Host.Outcome State Fault Refusal :=
  main s fun d => d.doResetReq src n.toNat dest ttl crc
/-- MSG (R396). -/
def execMsg (src dest : Fin 512) (ttl : Nat) (cfg : List (Fin 16 × W32)) (mark : RingMark) (s : State) :
    Host.Outcome State Fault Refusal := main s fun d => d.doMsg src mark.seq.toNat dest ttl (cfg.map fun e => (e.1.val, e.2.toNat)) mark.crc
/-- RESET_REQ_SEND (R400). -/
def execResetReqSend (s : State) : Host.Outcome State Fault Refusal := main s fun d => d.atPage pSTR fun d => d.doResetReqSend
/-- STRING_FRAME_REPEAT (R395). -/
def execStringFrameRepeat (s : State) : Host.Outcome State Fault Refusal := main s fun d => d.doRepeat
/-- STRING_BEACON_SEND (R191). -/
def execStringBeaconSend (s : State) : Host.Outcome State Fault Refusal := main s fun d => d.doStringBeaconSend

end Sys2Proof.Machine
end

