-- ==== Sys2Proof/Machine/Host.lean ====
section
/-! DEFINITION. The host's access to registers (R7 to R12, R166, R413, R414, R420 to R429, R433, R434): where a function's offset leads,
what a register reads as, what a write does; the common strobe's latch (R155 to R158); the HBM windows (R421, R423); MBIST (R412). -/

namespace Sys2Proof.Machine

/-- The block's own fields of the page at a base (R433). -/
def pageFlds (base : Nat) : List Fld :=
  if base < 0x20000 then
    match base / 0x1000 with
    | 0 => fldsDEV | 1 => fldsAON | 2 => fldsWDN | 3 => fldsPMU | 4 => fldsCKG | 5 => fldsRST | 6 => fldsFUS | 7 => fldsLOG
    | 8 => fldsEVC | 9 => fldsSNP | 10 => fldsTSB | 11 => fldsMNT | 12 => fldsSTR | 13 => fldsPUP | 14 => fldsLDR | 15 => fldsSCR
    | 16 => fldsPCI | 17 => fldsNOC | 18 => fldsIME | 19 => fldsKRE | 24 => fldsTRG | 25 => fldsCAP | 26 => fldsTRC | 27 => fldsMQE
    | 28 => fldsDSP | 29 => fldsCRR | 30 => fldsLNK | 31 => fldsLSC | _ => fldsHMC
  else if base < 0x30000 then fldsLGRP
  else if base < 0x40000 then fldsPTN
  else if base % 0x10000 == 0 then fldsCLU else fldsWIN

/-- ID of the page at a base (R426, R433): TYPE, INSTANCE, SUBPAGE, MARK. -/
def pageId (base : Nat) : Nat :=
  let k := base / 0x1000
  let type := if k < 0x14 then k + 1 else if k < 0x18 then 0x15 else if k < 0x20 then k - 2 else if k < 0x30 then 0x1E else if k < 0x40 then 0x1F else 0x20
  let inst := if 0x14 ≤ k && k < 0x18 then k - 0x14 else if 0x20 ≤ k && k < 0x40 then k % 16 else if 0x100 ≤ k then (k - 0x100) / 16 else 0
  let sub := if 0x100 ≤ k then k % 16 else 0
  type ||| inst <<< 8 ||| sub <<< 16 ||| 0x5A6 <<< 20

/-- The IRQ_RAW bits that the chapters define for the page at a base (R426). -/
def irqBits (base : Nat) : Nat :=
  let k := base / 0x1000
  if 0x100 ≤ k then (if base % 0x10000 == 0 then 0x7F else 0)
  else if 0x30 ≤ k then 0x3F1F
  else if 0x20 ≤ k then 0x1F
  else match k with
    | 2 => 1 | 7 => 3 | 11 => 1 | 12 => 3 | 14 => 3 | 16 => 1 | 17 => 15 | 18 => 3 | 19 => 3 | 20 => 1 | 21 => 1 | 22 => 1 | 23 => 1
    | 24 => 1 | 25 => 0x3FFFF | 26 => 0x1FFFF | 27 => 3 | 28 => 3 | 31 => 7 | _ => 0

/-- Whether a register wider than 32 bits begins at an offset of a page. -/
def pairAt (base off : Nat) : Bool := (pageFlds base ++ fldsPG).any fun f => f.off == off && decide (32 < f.w)

/-- Where an access leads: a page of the PF's map, an offset in it, the partition whose slice it is (R423), whether it is the MSI-X
table and PBA of the function. -/
structure Place where
  base  : Nat
  off   : Nat
  slice : Option Nat
  msix  : Bool
deriving DecidableEq, Repr

/-- The shadow of the word at offset `x` (R155). -/
def SHADOW (x : Nat) : Fld := ⟨0x800 + x, 0, 32, .ro, 0⟩

namespace Dev

/-- Where BAR0 offset `a` of a function leads (R166, R420, R422). -/
def place (d : Dev) (fn : Fn) (a : Nat) : Option Place :=
  let page (base : Nat) : Place := ⟨base, a % 0x1000, none, false⟩
  match fn with
  | .pf =>
    if 0x3FF0000 ≤ a && a < 0x4000000 then some ⟨pMSIX .pf, a - 0x3FF0000, none, true⟩
    else if pageExists (a / 0x1000 * 0x1000) then some (page (a / 0x1000 * 0x1000)) else none
  | .vf i =>
    if 0x7F0000 ≤ a && a < 0x800000 then some ⟨pMSIX (.vf i), a - 0x7F0000, none, true⟩
    else match a / 0x1000 with
      | 0 => some (page (pPTN i))
      | 1 => some { page pTRG with slice := some i }
      | 2 => some { page pCAP with slice := some i }
      | 3 => some { page pTRC with slice := some i }
      | k =>
        if 0x100 ≤ k && k < 0x500 then ((d.clustersOf i)[(k - 0x100) / 16]?).map fun n => page (pCLU n + (k % 16) * 0x1000)
        else none

/-- How a function reaches a place (R11, R194, R424, R425). The MSI-X table and PBA, which R194 does not name, answer under the boot function
(DESIGN CHOICE, log entry 63). -/
def placeReach (d : Dev) (fn : Fn) (pl : Place) : Reach :=
  if pl.slice.isNone && !pl.msix then d.reach fn pl.base
  else if !d.active || d.pwr.fnReset.contains fn then .hush
  else match fn with
    | .pf => .yes
    | .vf i => if d.vfLive i then .yes else .no

/-- A BAR0 access of a function at `a`: `k` where it is served; otherwise a read completes with `ones` and a write is discarded. -/
def reachPlace (d : Dev) (fn : Fn) (a : Nat) (write : Bool) (ones : Nat) (k : Dev → Place → Dev) : Dev :=
  let fail (d : Dev) : Dev := if write then d else d.complete fn a ones
  match d.place fn a with
  | none => fail d
  | some pl =>
    if d.placeReach fn pl != .yes then fail d else d.viaFence fn (pageHome pl.base) a write fail fun d => k d pl

/-- A 32-bit access, or a write, of a function at `a`. -/
def atPlace (d : Dev) (fn : Fn) (a : Nat) (write : Bool) (k : Dev → Place → Dev) : Dev := d.reachPlace fn a write 0xFFFFFFFF k

/-! Reading. -/

/-- The word at an offset as the page's fields compose it; a field wider than 32 bits shows its half (R9). -/
def plainWord (d : Dev) (base off : Nat) (fs : List Fld) : Nat :=
  fs.foldl (fun a f =>
    if f.acc == .wo then a
    else if f.off == off then a ||| (d.g base f <<< f.lo) % 2 ^ 32
    else if decide (32 < f.w) && f.off + 4 == off then a ||| d.g base f / 2 ^ 32
    else a) 0

/-- 32 bits of a list of 64-bit words from byte `o`. -/
def halfOf (ws : List W64) (o : Nat) : Nat := (ws[o / 8]?.getD 0).toNat >>> (o % 8 * 8) % 2 ^ 32

/-- The highest k with bit k - 1 set, 0 if none. -/
def topBit (m : Nat) : Nat := if m == 0 then 0 else Nat.log2 m + 1

/-- 4 bytes of a hash as a register word: byte j of a hash is its bits [8j + 7:8j], so byte 4i stands lowest (R5, R204, R205). -/
def hashWord (h : BitVec 384) (i : Nat) : Nat := h.toNat >>> (32 * i) % 2 ^ 32

/-- The queue window of a page (R298), `k` bytes above QSEL; PTNp's window also shows QNOTIFY. -/
def queueReg (d : Dev) (q k : Nat) : Nat :=
  match k with
  | 4 => queueCfg (d.queueAt q)
  | 8 => queueStatus (d.queueAt q)
  | 12 => (d.queueAt q).flags ||| (d.queueAt q).hwm <<< 16
  | _ => 0

/-- TXPx.HELD (R289): credits of a write port, copied words of a read port. -/
def txpHeld (d : Dev) (n x : Nat) : Nat :=
  if d.b (pCLU n) (CLU_TXP_DIR x) then SMap.get 0 (d.cluAt n).credits x
  else match d.portQueue n x with
    | some q => if d.boundTo q == some (n, x) then (d.queueAt q).copied else 0
    | none => 0

/-- EVC.OVF (R413). -/
def evcOvf (d : Dev) : Nat := (List.range 64).foldl (fun m k => m ||| d.g pEVC (EVC_SEL_OVF k) <<< k) 0

/-- A word of PMU or HMCq with what the device measures at the moment of the read in its place: the input voltage and power, which is
at most 780 W (R23), and the temperature of a trained stack (R398, R434; free). -/
def measured (d : Dev) (base off v : Nat) : Nat :=
  if base == pPMU && off == 0x130 then setBitsAt (Config.reading 0 d.ticks % 2 ^ 32) PMU_VIN_DW.lo 16 (Nat.min 7800 (bitsAt (Config.reading 0 d.ticks) PMU_VIN_DW.lo 16))
  else if base ≠ pPMU && off == 0x100 && d.b base HMC_STATUS_UP then setBitsAt v 8 8 (Config.reading base d.ticks)
  else v

/-- The value a read of the word at an offset of a page returns (R7, R9, R11), without the actions some reads take. -/
def readWord (d : Dev) (base off : Nat) : Nat :=
  let fs := pageFlds base ++ fldsPG
  if 0x800 ≤ off then d.g base ⟨off, 0, 32, .ro, 0⟩
  else match off with
    | 0 => pageId base
    | 4 => 0x100
    | 0x18 => d.g base PG_IRQ_RAW &&& d.g base PG_IRQ_EN
    | 0x24 => 0
    | _ =>
      if base == pDEV && (off == 0x100 || off == 0x104) then Config.uid.toNat >>> (8 * (off - 0x100)) % 2 ^ 32
      else if base == pAON && 0x400 ≤ off && off < 0x500 then
        match SMap.get? d.log.gasp ((off - 0x400) / 32) with
        | some e => halfOf e.words (off % 32)
        | none => 0
      else if base == pFUS then
        if 0x100 ≤ off && off < 0x130 then hashWord Config.rootHash ((off - 0x100) / 4)
        else if 0x140 ≤ off && off < 0x170 then hashWord d.boot.ownerHash ((off - 0x140) / 4)
        else match off with
          | 0x180 => d.plainWord base off [FUS_STATUS_OWNER_FAULT] ||| d.boot.ownerProv.toNat
          | 0x184 =>
            d.plainWord base off [FUS_SVN_COMPLETED_AT_START, FUS_SVN_REBURNED] ||| topBit d.boot.done.toNat ||| topBit d.boot.pm.toNat <<< 8
          | 0x1A0 => d.boot.pm.toNat % 2 ^ 32
          | 0x1A4 => d.boot.pm.toNat / 2 ^ 32
          | 0x1A8 => d.boot.done.toNat % 2 ^ 32
          | 0x1AC => d.boot.done.toNat / 2 ^ 32
          | _ => d.plainWord base off fs
      else if base == pLOG && 0x400 ≤ off then halfOf (d.logEntryAt (32 * d.g pLOG LOG_WIN_BASE + (off - 0x400) / 32)) (off % 32)
      else if base == pEVC && (off == 0x408 || off == 0x40C) then d.evcOvf >>> (8 * (off - 0x408)) % 2 ^ 32
      else if base == pTSB && (off == 0x110 || off == 0x114) then d.now >>> (8 * (off - 0x110)) % 2 ^ 32
      else if base == pTSB && off == 0x118 then d.time % 65536
      else if base == pLSC && off == 0x100 then setBitsAt (d.plainWord base off fs) 8 7 d.lscWindow
      else if base == pMNT && off == 0x100 then d.mntKinds
      else if base == pMNT && 0x200 ≤ off && off < 0x300 then
        match SMap.get? d.mnt.slots ((off - 0x200) / 4) with
        | some id => id ||| 1 <<< 31
        | none => 0
      else if base == pNOC && (off == 0x110 || off == 0x114) then
        d.routeEntry (d.g pNOC NOC_RT_SEL_PORT_ID) (d.g pNOC NOC_RT_SEL_INDEX) >>> (8 * (off - 0x110)) % 2 ^ 32
      else if base == pCAP && 0x140 ≤ off && off < 0x250 && off % 16 == 8 then
        setBitsAt (d.plainWord base off fs) 0 21 (Nat.min (d.capSum ((off - 0x140) / 16)) (2 ^ 21 - 1))
      else if base == pCAP && 0x114 ≤ off && off < 0x120 then
        let x := d.chanAt (d.g pCAP CAP_CH_SEL_CH)
        match off with
        | 0x114 => x.blocks % 2 ^ 32
        | 0x118 => x.lost
        | _ => x.phase ||| x.zeroing.toNat <<< 2
      else if base == pMQE && 0x104 ≤ off && off < 0x114 then d.queueReg (d.g pMQE MQE_QSEL_INDEX) (off - 0x100)
      else if base == pMQE && off == 0x124 then d.poolFree
      else if base == pDSP && 0x244 ≤ off && off < 0x264 then d.g pHIST (HIST (d.g pDSP DSP_HIST_SEL_LIST) ((off - 0x244) / 4))
      else if 0x30000 ≤ base && base < 0x40000 && 0x784 ≤ off && off < 0x798 then
        match d.queueOf ((base - 0x30000) / 0x1000) (d.g base PTN_QSEL_INDEX) with
        | some q => if off == 0x794 then d.plainWord base off fs else d.queueReg q (off - 0x780)
        | none => 0
      else
        let v := d.plainWord base off fs
        match cluOf base with
        | none => if base == pPMU || (0x14000 ≤ base && base < 0x18000) then d.measured base off v else v
        | some n =>
          if base % 0x10000 == 0 && 0x280 ≤ off && off < 0x300 && off % 16 == 12 then v ||| d.txpHeld n ((off - 0x280) / 16) <<< 16 else v

/-- Whether a partition's slice shows the word at an offset of its page (R311, R334, R354, R423). -/
def sliceHas (d : Dev) (i base off : Nat) : Bool :=
  if (0x10 ≤ off && off < 0x21) || 0x800 ≤ off then false
  else if off < 0x10 || off == 0x24 then true
  else if base == pTRG then 0x200 ≤ off && off < 0x600 && d.g pTRG (TRG_CCFG_OWNER ((off - 0x200) / 32)) == i
  else if base == pCAP then
    (0x140 + 16 * i ≤ off && off < 0x150 + 16 * i) || off == 0x7F0 || off == 0x7F4 ||
      (0x300 ≤ off && off < 0x700 && d.g pCAP (CAP_CH_CFG_OWNER ((off - 0x300) / 16)) == i && off % 16 ≠ 4)
  else 0x180 + 0x60 * i ≤ off && off < 0x1E0 + 0x60 * i

/-- A partition's slice reads a word: fields of the PF alone read zero (R423). -/
def readSlice (d : Dev) (i base off : Nat) : Nat :=
  if base == pCAP && (off == 0x7F0 || off == 0x7F4) then d.plainWord (pSLC i) off fldsSLC
  else if !d.sliceHas i base off then 0
  else
    let v := d.readWord base off
    if base == pTRG && 0x200 ≤ off && off < 0x600 && off % 32 == 0 then v &&& 0xFFFFFF07
    else if base == pCAP && off < 0x300 && off % 16 == 8 then v % 2 ^ 21
    else if base == pCAP && 0x300 ≤ off && off % 16 == 0 then v &&& 0xFFFFFE0F
    else if base == pCAP && 0x300 ≤ off && off % 16 == 8 then v / 2 ^ 25 * 2 ^ 25
    else v

/-- The MSI-X table and PBA as registers: the fields of a function's vectors. -/
def msixFlds (fn : Fn) : List Fld :=
  let n := match fn with | .pf => 32 | .vf _ => 2
  (List.range n).flatMap fun v => [MSIX_ADDR v, MSIX_DATA v, MSIX_MASK v, MSIX_PBA v]

/-- What a 32-bit read at a place returns. -/
def readPlace (d : Dev) (fn : Fn) (pl : Place) : Nat :=
  if pl.msix then d.plainWord pl.base pl.off (msixFlds fn)
  else match pl.slice with
    | some i => d.readSlice i pl.base pl.off
    | none => d.readWord pl.base pl.off

/-! Writing. -/

/-- A vector is unmasked: its pending message is sent (R428). -/
def doUnmask (d : Dev) (fn : Fn) (v : Nat) : Dev :=
  let n := match fn with | .pf => 32 | .vf _ => 2
  if n ≤ v then d
  else
    let d := d.p (pMSIX fn) (MSIX_MASK v) 0
    if d.b (pMSIX fn) (MSIX_PBA v) then (d.p (pMSIX fn) (MSIX_PBA v) 0).sendVec fn v else d

/-- A 64-bit value with its low, or its high, 32 bits replaced. -/
def withLow (x v : Nat) : Nat := x / 2 ^ 32 * 2 ^ 32 + v
def withHigh (x v : Nat) : Nat := x % 2 ^ 32 + v * 2 ^ 32

/-- 32 bits are written to the MSI-X table. -/
def writeMsix (d : Dev) (fn : Fn) (off v : Nat) : Dev :=
  let k := off / 16
  let n := match fn with | .pf => 32 | .vf _ => 2
  let b := pMSIX fn
  if n ≤ k then d
  else match off % 16 with
    | 0 => d.p b (MSIX_ADDR k) (withLow (d.g b (MSIX_ADDR k)) v)
    | 4 => d.p b (MSIX_ADDR k) (withHigh (d.g b (MSIX_ADDR k)) v)
    | 8 => d.p b (MSIX_DATA k) v
    | _ => if v.testBit 0 then d.on b (MSIX_MASK k) else d.doUnmask fn k

/-- IRQ_STAT bits written 1 are cleared in IRQ_RAW (R426). -/
def clearIrq (d : Dev) (base v : Nat) : Dev := d.p base PG_IRQ_RAW (d.g base PG_IRQ_RAW &&& (2 ^ 32 - 1 - v % 2 ^ 32))
/-- IRQ_FORCE: the defined bits written 1 are set as if their events occurred (R426). -/
def forceIrq (d : Dev) (base v : Nat) : Dev :=
  d.each ((List.range 32).filter (v &&& irqBits base).testBit) fun d i =>
    let d := d.irq base i
    if base == pTRC && i < 16 then d.irq (pPTN i) 13 else if base == pCAP && i < 16 then d.irq (pPTN i) 12 else d

/-- The partition that owns the events of a number, where the number alone says it (R402); the device is 16. -/
def eventOwner (d : Dev) (num : Nat) : Nat :=
  if num < 0x40 then d.ownerOrDev num
  else if num < 0x80 then num % 16
  else if num == 0x106 then d.g pLSC LSC_CFG_PARTITION
  else 16

/-- SELi of a page is written (R413); through a VF, EN stays 0 for an event that another owns (R414). -/
def writeSel (d : Dev) (fn : Fn) (base i v : Nat) : Dev :=
  let mine := match fn with | .pf => true | .vf p => d.eventOwner (v % 1024) == p
  let d := (d.p base (PG_SEL_EVENT i) v).p base (PG_SEL_EN i) (if mine then bitsAt v 10 1 else 0)
  if v.testBit 31 then d.p base (PG_SEL_OVF i) 0 else d

/-- A write to one of the common registers of a page (R157, R413, R426). -/
def writeCommon (d : Dev) (fn : Fn) (base off v : Nat) : Dev :=
  match off with
  | 0x14 => d.setIrqEn base (v &&& irqBits base)
  | 0x18 => d.clearIrq base v
  | 0x1C => d.forceIrq base v
  | 0x20 => d.writeWord base off v fldsPG
  | _ => if 0x40 ≤ off && off < 0x50 && off % 4 == 0 then d.writeSel fn base ((off - 0x40) / 4) v else d

/-- A register of a queue window is written, `k` bytes above QSEL (R298). -/
def writeQueueReg (d : Dev) (q k v : Nat) : Dev :=
  match k with
  | 4 => d.writeQcfg q v
  | 12 => d.clearQflags q v
  | 16 => d.queueCmd q (v % 4)
  | _ => d

/-- A write to a register of PTNp's own (R104 to R111, R154, R215, R220, R298, R307): ignored while a reset of p is in progress (R387). -/
def writePtn (d : Dev) (i off v : Nat) : Dev :=
  let b := pPTN i
  if d.ptnBusy i then d
  else if off == 0x100 then d.seqCommand i (v % 16)
  else if 0x200 ≤ off && off < 0x600 then d.doSeqTableWrite i off (BitVec.ofNat 32 v)
  else if off == 0x700 then match v % 4 with | 1 => d.doSnapSave i | 2 => d.doSnapRestore i | 3 => d.doSnapAbort i | _ => d
  else if off == 0x18C then match v % 4 with | 1 => d.doLoadGo i | 2 => d.doLoadAbort i | 3 => d.doLoadReplay i | _ => d
  else if 0x784 ≤ off && off < 0x798 then
    match d.queueOf i (d.g b PTN_QSEL_INDEX) with
    | some q => if off == 0x794 then d.writeWord b off v fldsPTN else d.writeQueueReg q (off - 0x780) v
    | none => d
  else d.writeWord b off v fldsPTN

/-- A write to a register of a cluster page's own (R53, R82, R121, R124, R134 to R136, R141, R144, R289). -/
def writeClu (d : Dev) (n base off v : Nat) : Dev :=
  if base % 0x10000 ≠ 0 then
    let w := base % 0x10000 / 0x1000
    if d.cluBusy n then d
    else if inAperture w off then d.winWrite n w off v else d.writeWord base off v fldsWIN
  else match off with
    | 0x20C => d.iff (v.testBit 0) fun d => d.doBpiClr n
    | 0x21C => d.iff (v.testBit 0) fun d => d.doWliClr n
    | 0x228 => d.iff (v.testBit 0) fun d => d.doFabClr n
    | 0x32C => d.iff (v.testBit 0) fun d => d.doDmemClr n
    | _ =>
      if 0x230 ≤ off && off < 0x238 then (if d.cluBusy n then d else d.writeWord base off v fldsCLU)
      else if 0x240 ≤ off && off < 0x280 then d.doFmpCfg n off v
      else if 0x280 ≤ off && off < 0x300 then d.doTxpCfg n off v
      else if (0x300 ≤ off && off < 0x320) || 0x400 ≤ off then d.doDmemCfg n off v
      else d.writeWord base off v fldsCLU

/-- Whether an owner may select a source for a comparator (R311, R312). -/
def trgAllowed (d : Dev) (owner kind src : Nat) : Bool :=
  if owner == 16 || kind == 0 then true
  else if 16 < owner then false
  else match kind with
    | 1 | 2 => d.owns owner (bitsAt src 0 6)
    | 4 => (List.range (d.g pDEV (DEV_DIR_QCOUNT owner))).any fun q => d.queueOf owner q == some (bitsAt src 0 13)
    | _ => false

/-- A refused source: EN := 0 and SRC_DENIED (R311). -/
def denyTrg (d : Dev) (k : Nat) : Dev := (d.p pTRG (TRG_CCFG_EN k) 0).on pTRG TRG_STATUS_SRC_DENIED

/-- A write to comparator `k`, `o` bytes into its registers (R311, R319); `pf` where the PF writes, which alone writes OWNER. EN stays 0 while a
reset of the owner is in progress (R387). -/
def writeComp (d : Dev) (pf : Bool) (k o v : Nat) : Dev :=
  let on := d.b pTRG (TRG_CCFG_EN k)
  let owner := d.g pTRG (TRG_CCFG_OWNER k)
  match o with
  | 0 =>
    if on && v.testBit 8 then d
    else
      let ow := if pf then bitsAt v 3 5 else owner
      if !d.trgAllowed ow (v % 8) (d.g pTRG (TRG_CSRC_SRC k)) then d.denyTrg k
      else
        let d := (((d.p pTRG (TRG_CCFG_KIND k) v).p pTRG (TRG_CCFG_OWNER k) ow).p pTRG (TRG_CCFG_OP k) (bitsAt v 9 3)).p pTRG (TRG_CCFG_ACT k) (bitsAt v 12 4)
        if v.testBit 8 && !(owner < 16 && d.ptnBusy owner) && !(ow < 16 && d.ptnBusy ow) then
          let d := (d.on pTRG (TRG_CCFG_EN k)).p pTRG (TRG_CCOUNT_COUNT k) 0
          { d with trg := { d.trg with prev := SMap.del d.trg.prev k } }
        else d.p pTRG (TRG_CCFG_EN k) 0
  | 4 =>
    if on then d
    else if d.trgAllowed owner (d.g pTRG (TRG_CCFG_KIND k)) v then d.p pTRG (TRG_CSRC_SRC k) v else d.denyTrg k
  | 8 => if on then d else d.p pTRG (TRG_CVALUE_VALUE k) v
  | 16 => if on then d else d.p pTRG (TRG_CMASK_MASK k) v
  | _ => d

/-- A write to a register of TRG's own (R316, R318, R319). -/
def writeTrg (d : Dev) (off v : Nat) : Dev :=
  if off == 0x100 then
    let d := if d.b pTRG TRG_SEQ_STATUS_ARMED then d else d.p pTRG TRG_SEQ_CTRL_OWNER v
    (d.iff (v.testBit 8) Dev.doArm).iff (v.testBit 9) Dev.doDisarm
  else if 0x200 ≤ off && off < 0x600 then d.writeComp true ((off - 0x200) / 32) (off % 32) v
  else
    let d := d.writeWord pTRG off v fldsTRG
    if 0x680 ≤ off && off < 0x6A0 then
      let j := (off - 0x680) / 4
      let o := d.g pTRG (TRG_PIN_OWNER j)
      let level := d.b pTRG (TRG_PIN_LEVEL_MODE j)
      let d := if !d.b pTRG (TRG_PIN_OUT j) || level then d.stopPulse j else d
      if d.b pTRG (TRG_PIN_OUT j) then
        d.drivePin j (if level then o ≤ 16 && d.g pCAP (CAP_CSTATUS_STATE o) == 2 else d.trg.pulsing.testBit j)
      else d
    else d

/-- A write to channel `ch`, `o` bytes into its registers (R311, R334, R336): ignored while the owner's context is not IDLE; a VF writes
neither OWNER nor OFFSET nor PAGES. -/
def writeChan (d : Dev) (pf : Bool) (ch o v : Nat) : Dev :=
  let owner := d.g pCAP (CAP_CH_CFG_OWNER ch)
  if d.g pCAP (CAP_CSTATUS_STATE (Nat.min 16 owner)) ≠ 0 then d
  else match o with
    | 0 =>
      let ow := if pf then bitsAt v 4 5 else owner
      if !d.chanAllowed ow (bitsAt v 1 3) (bitsAt v 9 23) (d.g pCAP (CAP_CH_PARAM_PARAM ch)) then (d.p pCAP (CAP_CH_CFG_EN ch) 0).on pCAP CAP_STATUS_SRC_DENIED
      else
        (((d.setChanOwner ch ow).p pCAP (CAP_CH_CFG_EN ch) v).p pCAP (CAP_CH_CFG_TYPE ch) (bitsAt v 1 3)).p pCAP (CAP_CH_CFG_SRC ch) (bitsAt v 9 23)
    | 4 => if pf then d.p pCAP (CAP_CH_OFFSET_PAGES ch) v else d
    | 8 => (d.iff pf fun d => d.p pCAP (CAP_CH_PAGES_PAGES ch) v).p pCAP (CAP_CH_PAGES_EV_RATE ch) (bitsAt v 25 7)
    | _ =>
      if !d.chanAllowed owner (d.capType ch) (d.g pCAP (CAP_CH_CFG_SRC ch)) v then (d.p pCAP (CAP_CH_CFG_EN ch) 0).on pCAP CAP_STATUS_SRC_DENIED
      else d.p pCAP (CAP_CH_PARAM_PARAM ch) v

/-- A write to a register of CAP's own (R320, R329, R334). -/
def writeCap (d : Dev) (pf : Bool) (off v : Nat) : Dev :=
  if off == 0x100 then d.doPinwheelConfigWrite false (BitVec.ofNat 64 v)
  else if off == 0x108 then d.doPinwheelConfigWrite true (BitVec.ofNat 64 v)
  else if 0x140 ≤ off && off < 0x250 then
    let c := (off - 0x140) / 16
    if c < 16 && d.ptnBusy c then d
    else match off % 16 with
      | 0 =>
        let d := d.writeWord pCAP off v fldsCAP
        (d.iff (v.testBit 30) fun d => d.doCaptureArm c).iff (v.testBit 31) fun d => d.doCaptureDisarm c
      | 8 => if pf then d.writeWord pCAP off v fldsCAP else d
      | _ => d.writeWord pCAP off v fldsCAP
  else if 0x300 ≤ off && off < 0x700 then d.writeChan pf ((off - 0x300) / 16) (off % 16) v
  else d.writeWord pCAP off v fldsCAP

/-- A write to a register of TRC's own (R339, R352 to R354). -/
def writeTrc (d : Dev) (off v : Nat) : Dev :=
  if off == 0x104 then d.iff (v.testBit 0) Dev.doAuthDisable
  else if off < 0x180 || 0x7E0 ≤ off then d
  else
    let s := (off - 0x180) / 0x60
    let o := (off - 0x180) % 0x60
    let en := d.strmEn s
    if s < 16 && d.ptnBusy s then d
    else if o == 0 then
      if en then (if v.testBit 0 then d else d.disableStream s)
      else
        let d := d.writeWord pTRC off (v / 2 * 2) fldsTRC
        if v.testBit 0 then d.doTraceStreamEnable s else d
    else if o == 0x2C then d.doMark s (BitVec.ofNat 16 v)
    else if en && (o == 0x08 || o == 0x10 || o == 0x20) then d
    else if o == 0x08 then d.writeWord pTRC off (v / 4096 * 4096) fldsTRC
    else d.writeWord pTRC off v fldsTRC

/-- A partition's own slice writes TRC: DATA sources outside its partition are the PF's to set (R349), and are refused (R354). -/
def writeTrcSlice (d : Dev) (i off v : Nat) : Dev :=
  let d' := d.writeTrc off v
  if (off - 0x180) % 0x60 ≠ 0x20 || d.strmEn i then d'
  else d'.each (List.range 4) fun d k =>
    if d.b pTRC (TRC_S_DSEL_V i k) && !d.owns i (d.g pTRC (TRC_S_DSEL_CLUSTER i k)) then
      (d.p pTRC (TRC_S_DSEL_V i k) 0).on pTRC (TRC_S_STATUS_SRC_DENIED i)
    else d

/-- A write to a register of LGRPg's own (R245 to R252). -/
def writeLgrp (d : Dev) (gi off v : Nat) : Dev :=
  let b := pLGRP gi
  let anyEn := (List.range 8).any fun l => d.b b (LGRP_BRIDGE_Q_TX_EN l) || d.b b (LGRP_BRIDGE_Q_RX_EN l)
  if off == 0x100 then d.writeLgrpCfg gi v
  else if off == 0x17C then (d.iff (v.testBit 0) fun d => d.doLgrpClr gi).iff (v.testBit 1) fun d => d.doClrSlack gi
  else if off == 0x190 then
    let d := d.writeWord b off v fldsLGRP
    let d := if v % 4 == 0 then d.modLink gi fun x => { x with inject := none } else d
    d.iff (v.testBit 31) fun d => d.doInjGo gi
  else if off == 0x180 then
    let d := d.iff (!d.b b LGRP_PRBS_CFG_GEN) fun d => d.modLink gi fun x => { x with gen := [] }
    d.writeWord b off v fldsLGRP
  else if off == 0x194 then (if d.g b LGRP_STATUS_STATE == 5 then d.writeWord b off v fldsLGRP else d)
  else if 0x200 ≤ off && off < 0x220 then
    let l := (off - 0x200) / 4
    ((d.p b (LGRP_BRIDGE_Q_TXQ l) v).p b (LGRP_BRIDGE_Q_RXQ l) (bitsAt v 16 13)).doBridgeEnable gi l (v.testBit 30) (v.testBit 31)
  else if off == 0x238 && anyEn then (d.p b LGRP_BRIDGE_CFG_DROP_FILL v).p b LGRP_BRIDGE_CFG_ALIGN_EN (bitsAt v 1 1)
  else d.writeWord b off v fldsLGRP

/-- MBIST of cluster `n` is asked for (R409, R412, R417): refused for a cluster of a partition or a conflict. -/
def doMbistGo (d : Dev) (n : Nat) : Dev :=
  let d := d.p pMNT MNT_MBIST_CLUSTER n
  if (d.ownerOf n).isSome then d.on pMNT MNT_MBIST_STATUS_REFUSED
  else
    let r := d.mntRequest (mntId 3 16 n) 0 0 false
    if r.2.isSome then r.1.on pMNT MNT_MBIST_STATUS_REFUSED
    else
      let d := if r.1.cluPower n == 2 then r.1.freshCluster n else r.1
      (d.p pMNT MNT_MBIST_STATUS_STATE 1).setPower n 0

/-- MBIST of cluster `n` ends (R411, R412): the cluster is cleared and returns to what the power policy gives it. -/
def doMbistComplete (d : Dev) (n : Nat) (failed : Option Nat) : Dev :=
  if !d.testing n then d
  else
    let d := (d.mntFree (mntId 3 16 n)).clearMemories n
    let d := if d.niState n == 2 then d.setPower n 2 else d
    match failed with
    | some a => (d.p pMNT MNT_MBIST_STATUS_STATE 3).raise 0x109 2 16 a n
    | none => d.p pMNT MNT_MBIST_STATUS_STATE 2

/-- Waiting requests retry at a release (R410). -/
def doRelease (d : Dev) (id : Nat) : Dev := if d.holds id then d else d.retryWaits

/-- AON.WAKE_CAUSE is written: WAKE# is released with the last cause (R390). -/
def writeWakeCause (d : Dev) (v : Nat) : Dev :=
  let d := d.writeWord pAON 0x104 v fldsAON
  if d.plainWord pAON 0x104 fldsAON % 2 ^ 31 == 0 && d.b pAON AON_WAKE_CAUSE_ASSERTED then
    (d.p pAON AON_WAKE_CAUSE_ASSERTED 0).emit (.wake false)
  else d

/-- A write to a register of a single page's own, but for the two that end ACTIVE. -/
def writeBlock (d : Dev) (base off v : Nat) : Dev :=
  let plain (d : Dev) : Dev := d.writeWord base off v (pageFlds base)
  let go (f : Dev → Dev) : Dev := (plain d).iff (v.testBit 0) f
  match base / 0x1000, off with
  | 0, _ => if 0x400 ≤ off && off < 0x480 then d.writeWord base off (v &&& 0x9F9F9F9F) fldsDEV else d
  | 1, 0x104 => d.writeWakeCause v
  | 1, 0x10C => go Dev.doLastGaspClear
  | 5, 0x10C => d.doPtnReset (v % 65536)
  | 7, 0x114 => go Dev.doLogClear
  | 8, 0x400 => (plain d).iff (v.testBit 1) Dev.doClearAll
  | 8, 0x408 => d.each ((List.range 64).filter v.testBit) fun d k => d.p pEVC (EVC_SEL_OVF k) 0
  | 9, 0x100 => go fun d => d.strobeReq 2
  | 10, 0x120 => d.doTsbSet v
  | 11, 0x110 => (plain d).iff (v.testBit 6) fun d => d.doMbistGo (v % 64)
  | 12, 0x100 =>
    let d' := (d.p pSTR STR_CFG_ROOT (bitsAt v 1 1)).p pSTR STR_CFG_RESET_EN (bitsAt v 2 1)
    (if v.testBit 0 then d'.doStringJoin else d'.doStringLeave).iff (v.testBit 3) Dev.doDiscover
  | 12, 0x110 => (plain d).iff (v.testBit 31) Dev.doResetReqSend
  | 14, 0x114 => match v % 4 with | 1 => d.doBootGo | 2 => d.doBootAbort | _ => d
  | 14, 0x118 => go Dev.doConfirm
  | 15, 0x108 => (plain d).iff (v.testBit 4) fun d => d.doPassRequest (v % 16)
  | 16, 0x108 => d.p pPCI PCI_BAR2_BASE_ADDR (v / 2 ^ 30 * 2 ^ 30)
  | 17, 0x16C => go Dev.doNocClr
  | 18, 0x124 => go Dev.doImeClrCounts
  | 19, 0x104 => go Dev.doRoll
  | 24, _ => d.writeTrg off v
  | 25, _ => d.writeCap true off v
  | 26, _ => d.writeTrc off v
  | 27, _ => if 0x104 ≤ off && off < 0x114 then d.writeQueueReg (d.g pMQE MQE_QSEL_INDEX) (off - 0x100) v else plain d
  | 28, 0x26C => go Dev.doDspClr
  | 30, 0x280 => go Dev.doSysFreeze
  | 31, 0x100 => (plain d).forgetSigs ((plain d).g pLSC LSC_CFG_PARTITION)
  | _, _ => plain d

/-- A write to a register of a single page's own: WDN.STOP_REQ (R392), RST.CTRL (R380), and the others. -/
def writeHub (d : Dev) (base off v : Nat) : Dev :=
  if base == pWDN && off == 0x10C then (d.writeWord base off v fldsWDN).iff (v.testBit 0) fun d => d.controlledStop 5
  else if base == pRST && off == 0x108 then (d.writeWord base off v fldsRST).iff (v.testBit 0) doDevice
  else d.writeBlock base off v

/-- A register of a page is written with its whole value (R7). -/
def writeReg (d : Dev) (fn : Fn) (base off v : Nat) : Dev :=
  if 0x800 ≤ off then d
  else if off < 0x100 then
    let busy := match cluOf base with
      | some n => d.cluBusy n
      | none => 0x30000 ≤ base && base < 0x40000 && d.ptnBusy ((base - 0x30000) / 0x1000)
    if busy && off ≠ 0x20 then d else d.writeCommon fn base off v
  else match cluOf base with
    | some n => d.writeClu n base off v
    | none =>
      if 0x30000 ≤ base then d.writePtn ((base - 0x30000) / 0x1000) off v
      else if 0x20000 ≤ base then d.writeLgrp ((base - 0x20000) / 0x1000) off v
      else d.writeHub base off v

/-- A partition's slice is written (R423). -/
def writeSlice (d : Dev) (i base off v : Nat) : Dev :=
  if d.ptnBusy i || off < 0x100 then d
  else if base == pCAP && (off == 0x7F0 || off == 0x7F4) then d.writeWord (pSLC i) off v fldsSLC
  else if !d.sliceHas i base off then d
  else if base == pTRG then d.writeComp false ((off - 0x200) / 32) (off % 32) v
  else if base == pCAP then d.writeCap false off v
  else d.writeTrcSlice i off v

/-- A place is written with a register's whole value. -/
def writePlace (d : Dev) (fn : Fn) (pl : Place) (v : Nat) : Dev :=
  if pl.msix then d.writeMsix fn pl.off v
  else match pl.slice with
    | some i => d.writeSlice i pl.base pl.off v
    | none => d.writeReg fn pl.base pl.off v

/-- Key of a function's copy of a pair (R9). -/
def pairKey (fn : Fn) (pl : Place) : Nat :=
  (match fn with | .pf => 0 | .vf i => i.val + 1) * 2 ^ 40 + pl.base + pl.off

/-- The lowest-order word of a pair is written: kept for the function (R9). -/
def keepLow (d : Dev) (fn : Fn) (pl : Place) (v : Nat) : Dev := { d with pairWr := SMap.put d.pairWr (pairKey fn pl) (v % 2 ^ 32) }

/-- The higher-order word of a pair is written: the whole register takes it with the copy of the lower word, or with its present lower word
where the function has written none, zero for a WO register (R9). -/
def writeHigh (d : Dev) (fn : Fn) (pl : Place) (v : Nat) : Dev :=
  let lowAt := { pl with off := pl.off - 4 }
  let key := pairKey fn lowAt
  let low := (SMap.get? d.pairWr key).getD (d.readPlace fn lowAt)
  ({ d with pairWr := SMap.del d.pairWr key }).writePlace fn lowAt (v % 2 ^ 32 * 2 ^ 32 + low)

/-- 32 bits are written at a place. -/
def write32 (d : Dev) (fn : Fn) (pl : Place) (v : Nat) : Dev :=
  if pl.msix then d.writePlace fn pl v
  else if pairAt pl.base pl.off then d.keepLow fn pl v
  else if 4 ≤ pl.off && pairAt pl.base (pl.off - 4) then d.writeHigh fn pl v
  else d.writePlace fn pl v

/-- An access of another size or alignment (R10). R10 gives a read 0xFFFF_FFFF; one of another size gives all ones of its own size (DESIGN
CHOICE, log entry 63). -/
def doMisaligned (d : Dev) (fn : Fn) (a size : Nat) (write : Bool) : Dev :=
  if !d.active || d.pwr.fnReset.contains fn then (if write then d else d.complete fn a (2 ^ (8 * size) - 1))
  else (if write then d else d.complete fn a (2 ^ (8 * size) - 1)).accessError fn 0 a write

/-- A register write of 32 or 64 bits (R9, R10): of two registers written together, the second is written unless the first took the device
out of ACTIVE (R379). -/
def doRegisterWrite (d : Dev) (fn : Fn) (a v : Nat) (wide : Bool) : Dev :=
  if a % (if wide then 8 else 4) ≠ 0 then d.doMisaligned fn a (if wide then 8 else 4) true
  else d.atPlace fn a true fun d pl =>
    if !wide then d.write32 fn pl (v % 2 ^ 32)
    else if !pl.msix && pairAt pl.base pl.off then ({ d with pairWr := SMap.del d.pairWr (pairKey fn pl) }).writePlace fn pl (v % 2 ^ 64)
    else
      let d := d.write32 fn pl (v % 2 ^ 32)
      if d.active then d.write32 fn { pl with off := pl.off + 4 } (v / 2 ^ 32 % 2 ^ 32) else d

/-- A read of the log window checks the word it reads (R406). -/
def logWindowRead (d : Dev) (pl : Place) : Dev :=
  if pl.base == pLOG && 0x400 ≤ pl.off && pl.off < 0x800 then
    let i := 32 * d.g pLOG LOG_WIN_BASE + (pl.off - 0x400) / 32
    let w := pl.off % 32 / 8
    match d.logWord (4 * i + w) ((d.logEntryAt i)[w]?.getD 0) with
    | .ok => d
    | .ce _ _ => d.add pLOG LOG_SRAM_CE_COUNT 1
    | .ue syn => d.logFail i syn
  else d

/-- The list whose SUBMIT register stands at a place (R304). -/
def submitHere (pl : Place) : Option Nat :=
  if pl.msix || pl.slice.isSome then none
  else if pl.base == pDSP && pl.off == 0x120 then some 16
  else if 0x30000 ≤ pl.base && pl.base < 0x40000 && pl.off == 0x760 then some ((pl.base - 0x30000) / 0x1000)
  else none

/-- What a 32-bit read at a place gives, and what it does: a window's aperture reads its target (R145); the lower word of a pair latches the next
word for the function, and the next word is read from that copy (R9); the log window checks what it reads (R406). -/
def fetch32 (d : Dev) (fn : Fn) (pl : Place) : Dev × Nat :=
  let w := pl.base % 0x10000 / 0x1000
  match cluOf pl.base, inAperture w pl.off with
  | some n, true => d.winRead n w pl.off
  | _, _ =>
    if pl.msix then (d, d.readPlace fn pl)
    else if pairAt pl.base pl.off then
      let hi := d.readPlace fn { pl with off := pl.off + 4 }
      ({ d with pairRd := SMap.put d.pairRd (pairKey fn { pl with off := pl.off + 4 }) hi }, d.readPlace fn pl)
    else match SMap.get? d.pairRd (pairKey fn pl) with
      | some v => ({ d with pairRd := SMap.del d.pairRd (pairKey fn pl) }, v)
      | none => (d.logWindowRead pl, d.readPlace fn pl)

/-- A 32-bit read of the host at a place: SUBMIT acts (R304). -/
def read32 (d : Dev) (fn : Fn) (pl : Place) : Dev :=
  match submitHere pl with
  | some l => d.submitList fn l
  | none => let r := d.fetch32 fn pl; r.1.reply fn (pl.base + pl.off) r.2

/-- A 32-bit register read (R9 to R11). -/
def doRead32 (d : Dev) (fn : Fn) (a : Nat) : Dev :=
  if a % 4 ≠ 0 then d.doMisaligned fn a 4 false else d.atPlace fn a false fun d pl => d.read32 fn pl

/-- A 64-bit register read (R9, R10): a pair is read whole and its holding copy stays; two other registers are read one after the other,
the lower first (DESIGN CHOICE, log entry 41). -/
def doRead64 (d : Dev) (fn : Fn) (a : Nat) : Dev :=
  if a % 8 ≠ 0 then d.doMisaligned fn a 8 false
  else d.reachPlace fn a false (2 ^ 64 - 1) fun d pl =>
    if !pl.msix && pairAt pl.base pl.off then d.reply64 fn (pl.base + pl.off) (d.readPlace fn pl ||| d.readPlace fn { pl with off := pl.off + 4 } <<< 32)
    else (d.read32 fn pl).read32 fn { pl with off := pl.off + 4 }

/-! Register packets (R257, R259). -/

/-- What a REG_RD at a place gives, and what it does: a SUBMIT is never held, and returns FULL at once (DESIGN CHOICE, log entry 53). -/
def fetchReg (d : Dev) (fn : Fn) (pl : Place) : Dev × Nat :=
  match submitHere pl with
  | some l => d.judgeItem (d.stagedItem l)
  | none => d.fetch32 fn pl

/-- Where a register packet leads at endpoint `t`: a place of the function it acts for, by BAR0 offset, that stands behind `t` (R257, R259). -/
def regPlace (d : Dev) (fn : Fn) (t a : Nat) : Option Place :=
  (d.place fn a).filter fun pl => a % 4 == 0 && !pl.msix && pageHome pl.base == some t

/-- REG_RD or REG_WR at its target (R259, R260, R264, R269): ADDR is a BAR0 offset of the function the request acts for. -/
def serveReg (write : Bool) (k : Packet) (d : Dev) (r : Req) : Dev :=
  let fn := fnOf (reqFn r)
  let t := k.dst.val
  if t < 0x40 && d.niState t ≠ 0 then d.unreachable.respond k 1 []
  else
    let bad := write && packetBad k
    let d := if write then d.checkPayload k else d
    if t < 0x40 && !r.devlvl && d.ownerOf t ≠ some r.part then d.refuseAccess k r write
    else match d.regPlace fn t k.addr.toNat with
      | none => d.respond k 6 []
      | some pl =>
        if d.placeReach fn pl != .yes then d.refuseAccess k r write
        else if bad then d.respond k 4 []
        else if write then (d.write32 fn pl (leAt (packetFixed k).data 0 4)).respond k 0 []
        else let v := d.fetchReg fn pl; v.1.respond k 0 (leBytes 4 v.2)

/-- RD, WR, or under their packets REG_RD and REG_WR, at the target. -/
def serveAccess (old : Dev) (write : Bool) (k : Packet) (d : Dev) (r : Req) : Dev :=
  if k.op.val == 0x10 || k.op.val == 0x11 then serveReg write k d r else serveRw old write k d r

/-- A read of a FENCE register (R275): every earlier write of the function has taken effect, since commands act in order. -/
def doFenceRead (d : Dev) (fn : Fn) (a : Nat) : Dev := d.atPlace fn a false fun d pl => if pl.off == 0x24 then d.reply fn (pl.base + pl.off) 0 else d.read32 fn pl

/-! The common strobe (R155 to R158). -/

/-- Every page base of the PF's map. -/
def allPages : List Nat := (List.range 64).map (· * 0x1000) ++ (List.range 1024).map fun k => 0x100000 + k * 0x1000

/-- What a read of a word would return at a strobe, without what the read does: SUBMIT's is its outcome word (R155, R304). -/
def latchWord (d : Dev) (base off : Nat) : Nat :=
  match submitHere ⟨base, off, none, false⟩ with
  | some l => (d.judgeItem (d.stagedItem l)).2
  | none => d.readWord base off

/-- One page latches what its words read as in `d0`, with SEQ the count of this latch; a window aperture latches as zero. -/
def latchPage (d0 d : Dev) (base n : Nat) : Dev :=
  if !d0.b base PG_SNAP_CTRL_EN then d
  else if d0.b base PG_SNAP_CTRL_KEEP && d0.b base PG_SNAP_CTRL_VALID then d.on base PG_SNAP_CTRL_MISSED
  else
    let win := 0x100000 ≤ base && base % 0x10000 ≠ 0
    let d := d.each ((List.range 512).map (4 * ·)) fun d x => d.p base (SHADOW x) (if win && 0x400 ≤ x then 0 else d0.latchWord base x)
    (d.on base PG_SNAP_CTRL_VALID).p base PG_SNAP_CTRL_SEQ n

/-- STROBE_LATCH: the strobe that waits latches every enabled page at once. -/
def doStrobeLatch (d : Dev) : Dev :=
  match d.strobeSrc with
  | none => d
  | some src =>
    let n := (d.g pSNP SNP_STATUS_SEQ + 1) % 65536
    let d' := allPages.foldl (fun x base => latchPage d x base n) d
    { ((d'.p pSNP SNP_STATUS_SEQ n).p pSNP SNP_STATUS_LAST_SRC src).p pSNP SNP_STAMP_NS d.now with latchAt := some d.ticks, strobeSrc := none }

/-! The HBM windows (R421 to R423). -/

/-- A window read of `n` bytes at BAR offset `x`, which is HBM address `a`; `ok` says which parts the window shows. Each part is answered by a
completion TLP of its own (DESIGN CHOICE, log entry 43); a failed part reads as all ones, is logged, and poisons its TLP. -/
def windowBytes (d : Dev) (fn : Fn) (x a n : Nat) (r : Req) (ok : Nat → Nat → Bool) : Dev :=
  d.each (cut256 a n) fun d c =>
    let q : Dev × Nat × List Byte := if ok c.1 c.2 then d.hbmFetch r (a + c.1) c.2 else (d, 1, [])
    if q.2.1 == 0 then q.1.emit (.data fn (x + c.1) q.2.2)
    else (q.1.accessError fn 2 (x + c.1) false).poison fn (x + c.1) (List.replicate c.2 0xFF)

/-- A window write: each part is performed or discarded on its own. -/
def windowPut (d : Dev) (fn : Fn) (x a : Nat) (bs : List Byte) (r : Req) : Dev :=
  d.each (cut256 a bs.length) fun d c =>
    let q := d.hbmSend r (a + c.1) ((bs.drop c.1).take c.2)
    if q.2 == 0 then q.1 else q.1.accessError fn 2 (x + c.1) true

/-- Whether a function's BAR2 and BAR4 are served (R194, R424, R425). -/
def barServed (d : Dev) (fn : Fn) : Bool :=
  d.active && !d.pwr.fnReset.contains fn && (match fn with | .pf => d.full | .vf i => d.vfLive i)

/-- All ones for a read that nothing serves (R11, R425). -/
def onesRead (d : Dev) (fn : Fn) (x n : Nat) : Dev := d.emit (.data fn x (List.replicate n 0xFF))

/-- CAPTURE_WINDOW_READ (R423): byte `x` of the upper half of the VF's BAR2. -/
def doCaptureRead (d : Dev) (p : Fin 16) (x n : Nat) : Dev :=
  let fn : Fn := .vf p
  let bar := d.pwr.vfBar2 / 2 + x
  if !d.barServed fn || d.pwr.vfBar2 ≤ bar then d.onesRead fn bar n
  else
    let ch := d.g (pSLC p) SLC_CAPWIN_CH
    let own := d.g pCAP (CAP_CH_CFG_OWNER ch) == p
    let pages := d.g (pSLC p) SLC_CAPWIN_OFF_PAGES
    if d.b (pSLC p) SLC_CAPWIN_DIR then d.windowBytes fn bar (d.dirAddr ch 0 + x) n (hubReq 0x9A) fun o k => own && x + o + k ≤ 512
    else
      let a := d.g pCAP CAP_PW_BASE_ADDR + (d.g pCAP (CAP_CH_OFFSET_PAGES ch) + pages) * 4096 + x
      d.windowBytes fn bar a n (hubReq 0x9A) fun o k => own && pages * 4096 + x + o + k ≤ d.g pCAP (CAP_CH_PAGES_PAGES ch) * 4096

/-- The size of a function's BAR2 (R420, R422). -/
def bar2Size (d : Dev) : Fn → Nat
  | .pf => d.pwr.pfBar2
  | .vf _ => d.pwr.vfBar2

/-- BAR2_READ (R421, R422): of what lies in the BAR. -/
def doBar2Read (d : Dev) (fn : Fn) (x n : Nat) : Dev :=
  if !d.barServed fn || d.bar2Size fn ≤ x then d.onesRead fn x n
  else match fn with
    | .pf => d.windowBytes fn x (d.g pPCI PCI_BAR2_BASE_ADDR + x) n (hubReq 0x90) fun _ _ => true
    | .vf i =>
      if d.pwr.vfBar2 / 2 ≤ x then d.doCaptureRead i (x - d.pwr.vfBar2 / 2) n
      else d.windowBytes fn x ((d.ptnAt i).quotaBase + x) n (ptnReq 0x90 i) fun _ _ => true

/-- BAR2_WRITE (R421 to R423). -/
def doBar2Write (d : Dev) (fn : Fn) (x : Nat) (bs : List Byte) : Dev :=
  if !d.barServed fn || d.bar2Size fn ≤ x then d
  else match fn with
    | .pf => d.windowPut fn x (d.g pPCI PCI_BAR2_BASE_ADDR + x) bs (hubReq 0x90)
    | .vf i =>
      if d.pwr.vfBar2 / 2 ≤ x then d.accessError fn 2 x true
      else d.windowPut fn x ((d.ptnAt i).quotaBase + x) bs (ptnReq 0x90 i)

/-! Configuration space (R195, R418 to R420, R422, R424). No command of the table reads it. -/

/-- A capability structure of configuration space (R419); `physicalLayer` names its rate in GT/s. -/
inductive Capability
  | powerManagement
  | pciExpress
  | msix
  | aer
  | ari
  | srIov
  | readinessTime
  | resizableBar
  | vfResizableBar
  | dataLinkFeature
  | physicalLayer (rate : Nat)
deriving DecidableEq, Repr

/-- The capabilities of the PF and of a VF (R419). -/
def capabilitiesOf : Fn → List Capability
  | .pf => [.powerManagement, .pciExpress, .msix, .aer, .ari, .srIov, .readinessTime, .resizableBar, .vfResizableBar, .dataLinkFeature,
      .physicalLayer 16, .physicalLayer 32, .physicalLayer 64]
  | .vf _ => [.pciExpress, .msix, .ari]

/-- What configuration space presents for a function (R195, R419, R420, R422): identity, the interrupt pin, MSI-X vectors, the SR-IOV numbers,
the largest payload, read request and tag, the sizes of BAR0, BAR2 and BAR4 (BAR2 as Resizable BAR sets it), and the times of Readiness Time
Reporting in ms: reset, DL_Up, FLR, VF Enable; the capabilities, and whether AER reports a Poisoned TLP Egress Blocked (R419). -/
structure ConfigSpace where
  vendor : Nat
  device : Nat
  classCode : Nat
  revision : Nat
  intPin : Nat
  vectors : Nat
  totalVfs : Nat
  firstVf : Nat
  vfStride : Nat
  maxPayload : Nat
  maxReadRequest : Nat
  tagBits : Nat
  bar0 : Nat
  bar2 : Nat
  bar4 : Nat
  readyMs : List Nat
  capabilities : List Capability
  aerEgressBlocked : Bool
deriving DecidableEq, Repr

/-- Configuration space as a function presents it; none where it answers with Configuration Request Retry Status (R195) or is not there. VFs
are present while VF Enable is set. -/
def configSpace (d : Dev) (fn : Fn) : Option ConfigSpace :=
  if !d.active then none
  else match fn with
    | .pf => some ⟨Config.vendorId.toNat, 0x0640, 0x120000, Config.revisionId.toNat, 0, 32, 16, 1, 1, 512, 4096, 14, 2 ^ 26, d.pwr.pfBar2, 2 ^ 19, [90, 90, 10, 10], capabilitiesOf fn,
        d.b pCFG CFG_AER_EGRESS_BLOCKED⟩
    | .vf i =>
      if d.pwr.vfNum ≤ i.val then none
      else some ⟨Config.vendorId.toNat, 0x0641, 0x120000, Config.revisionId.toNat, 0, 2, 0, 0, 0, 512, 4096, 14, 2 ^ 23, d.pwr.vfBar2, 2 ^ 19, [90, 90, 10, 10], capabilitiesOf fn, false⟩

end Dev

/-- REGISTER_WRITE (R7, R9). -/
def execRegisterWrite (fn : Fn) (off v : Nat) (wide : Bool) (s : State) : Host.Outcome State Fault Refusal :=
  main s fun d => d.doRegisterWrite fn off v wide
/-- PAIR_LOW_READ (R9): a read of 32 bits, which latches the next word, or of 64 bits, which is atomic. -/
def execPairLowRead (fn : Fn) (place : ReadAt) (s : State) : Host.Outcome State Fault Refusal :=
  main s fun d => if place.wide then d.doRead64 fn place.off else d.doRead32 fn place.off
/-- PAIR_LOW_WRITE (R9): a 32-bit write. -/
def execPairLowWrite (fn : Fn) (off v : Nat) (s : State) : Host.Outcome State Fault Refusal := main s fun d => d.doRegisterWrite fn off v false
/-- PAIR_HIGH_WRITE (R9): a 32-bit write. -/
def execPairHighWrite (fn : Fn) (off v : Nat) (s : State) : Host.Outcome State Fault Refusal := main s fun d => d.doRegisterWrite fn off v false
/-- MISALIGNED_ACCESS (R10). -/
def execMisalignedAccess (fn : Fn) (off size : Nat) (write : Bool) (s : State) : Host.Outcome State Fault Refusal :=
  main s fun d => d.doMisaligned fn off size write
/-- FENCE_READ (R275). -/
def execFenceRead (fn : Fn) (off : Nat) (s : State) : Host.Outcome State Fault Refusal := main s fun d => d.doFenceRead fn off
/-- RD (R259). -/
def execRd (k : Packet) (s : State) : Host.Outcome State Fault Refusal := main s fun d => d.request k false (Dev.serveAccess d false)
/-- WR (R259). -/
def execWr (k : Packet) (s : State) : Host.Outcome State Fault Refusal := main s fun d => d.request k true (Dev.serveAccess d true)
/-- STROBE_LATCH (R155). -/
def execStrobeLatch (s : State) : Host.Outcome State Fault Refusal := main s fun d => d.doStrobeLatch
/-- BAR2_READ (R421). -/
def execBar2Read (fn : Fn) (off len : Nat) (s : State) : Host.Outcome State Fault Refusal := main s fun d => d.doBar2Read fn off len
/-- BAR2_WRITE (R421). -/
def execBar2Write (fn : Fn) (off : Nat) (bytes : List Byte) (s : State) : Host.Outcome State Fault Refusal := main s fun d => d.doBar2Write fn off bytes
/-- CAPTURE_WINDOW_READ (R423). -/
def execCaptureWindowRead (p : Fin 16) (off len : Nat) (s : State) : Host.Outcome State Fault Refusal := main s fun d => d.doCaptureRead p off len
/-- IRQ_STAT_CLEAR (R426), a write of the PF. -/
def execIrqStatClear (base : Nat) (v : W32) (s : State) : Host.Outcome State Fault Refusal :=
  main s fun d => d.atPlace .pf (base / 0x1000 * 0x1000 + 0x18) true fun d pl => d.write32 .pf pl v.toNat
/-- IRQ_FORCE (R426), a write of the PF. -/
def execIrqForce (base : Nat) (v : W32) (s : State) : Host.Outcome State Fault Refusal :=
  main s fun d => d.atPlace .pf (base / 0x1000 * 0x1000 + 0x1C) true fun d pl => d.write32 .pf pl v.toNat
/-- MSIX_UNMASK (R428). -/
def execMsixUnmask (fn : Fn) (v : Fin 32) (s : State) : Host.Outcome State Fault Refusal :=
  main s fun d => if d.placeReach fn ⟨pMSIX fn, 0, none, true⟩ == .yes then d.doUnmask fn v else d
/-- MBIST_GO (R412). -/
def execMbistGo (n : Fin 64) (s : State) : Host.Outcome State Fault Refusal := main s fun d => d.atPage pMNT fun d => d.doMbistGo n
/-- MBIST_COMPLETE (R412). -/
def execMbistComplete (n : Fin 64) (failed : Option (BitVec 64)) (s : State) : Host.Outcome State Fault Refusal :=
  main s fun d => d.doMbistComplete n (failed.map (·.toNat))
/-- MNT_RELEASE (R410, R411). -/
def execMntRelease (code : Fin 8) (owner : Fin 17) (inst : Fin 64) (s : State) : Host.Outcome State Fault Refusal :=
  main s fun d => d.doRelease (Dev.mntId code owner inst)

end Sys2Proof.Machine
end

