-- ==== Sys2Proof/Machine/Pins.lean ====
section
/-! DEFINITION. The scan port (R436, R440) and how the pins behave in each condition (R444). The table has no command for an edge of TCK: what such an
edge does is given here, and BOUNDARY_SCAN_EXTEST is the selection of an instruction. -/

namespace Sys2Proof.Machine

/-- Whether an instruction works on the boundary register (R440). -/
def TapInst.scans : TapInst → Bool
  | .bypass => false
  | .idcode => false
  | _ => true

/-- The controller's next state on a rising edge of TCK, as IEEE 1149.1 has it. -/
def TapState.next : TapState → Bool → TapState
  | .testLogicReset, tms => if tms then .testLogicReset else .runTestIdle
  | .runTestIdle, tms => if tms then .selectDr else .runTestIdle
  | .selectDr, tms => if tms then .selectIr else .captureDr
  | .captureDr, tms => if tms then .exit1Dr else .shiftDr
  | .shiftDr, tms => if tms then .exit1Dr else .shiftDr
  | .exit1Dr, tms => if tms then .updateDr else .pauseDr
  | .pauseDr, tms => if tms then .exit2Dr else .pauseDr
  | .exit2Dr, tms => if tms then .updateDr else .shiftDr
  | .updateDr, tms => if tms then .selectDr else .runTestIdle
  | .selectIr, tms => if tms then .testLogicReset else .captureIr
  | .captureIr, tms => if tms then .exit1Ir else .shiftIr
  | .shiftIr, tms => if tms then .exit1Ir else .shiftIr
  | .exit1Ir, tms => if tms then .updateIr else .pauseIr
  | .pauseIr, tms => if tms then .exit2Ir else .pauseIr
  | .exit2Ir, tms => if tms then .updateIr else .shiftIr
  | .updateIr, tms => if tms then .selectDr else .runTestIdle

/-- The instruction that a decoded number names; any other is BYPASS. -/
def tapInst (n : Nat) : TapInst :=
  match n with
  | 1 => .idcode | 2 => .samplePreload | 3 => .extest | 4 => .extestPulse | 5 => .extestTrain | _ => .bypass

/-- How a pin or a group of pins behaves (R444). -/
inductive PinState
  | highZ | idle | input | output | terminated | low | driven | bypassed | open
deriving DecidableEq, Repr

namespace Dev

/-- Whether the scan port answers (R440). -/
def tapAnswers (d : Dev) : Bool := d.active || d.pwr.st == .doze

/-- The instruction that acts: outside DOZE those of the boundary register act as BYPASS (R440). -/
def tapActs (d : Dev) : TapInst := if d.pwr.tap.inst.scans && d.pwr.st != .doze then .bypass else d.pwr.tap.inst

/-- Whether boundary scan powers the I/O rails (R440). -/
def scanRails (d : Dev) : Bool := d.tapActs.scans

/-- The IDCODE of the scan port, which answers in DOZE and ACTIVE (R440); its version is taken from the silicon revision. -/
def idcode (d : Dev) : Option (BitVec 32) :=
  if d.tapAnswers then some (BitVec.ofNat 32 ((Config.revisionId.toNat % 16) <<< 28 ||| 0x0640 <<< 12 ||| Config.jedecCode.toNat <<< 1 ||| 1)) else none

/-- What the data register that the instruction selects captures: BYPASS a 0, IDCODE the code, the boundary register the levels at the pins. -/
def tapCapture (d : Dev) : List Bool :=
  match d.tapActs with
  | .bypass => [false]
  | .idcode => (List.range 32).map (d.idcode.getD 0).getLsbD
  | _ => Config.pinLevels d.fresh

/-- A rising edge of TCK: the action of the state the controller is in, then its next state. -/
def tck (d : Dev) (tms tdi : Bool) : Dev :=
  if !d.tapAnswers then d
  else
    let x := d.pwr.tap
    let y : Scan := match x.st with
      | .testLogicReset => { x with inst := .idcode }
      | .captureDr => { x with shift := d.tapCapture }
      | .captureIr => { x with shift := Config.irCapture }
      | .shiftDr | .shiftIr => { x with shift := x.shift.drop 1 ++ [tdi] }
      | .updateDr => if d.tapActs.scans then { x with cells := x.shift } else x
      | .updateIr => { x with inst := tapInst (Config.tapDecode x.shift) }
      | _ => x
    { d.tick with pwr := { d.pwr with tap := { y with st := x.st.next tms } } }

/-- TRST# low (R436). -/
def trst (d : Dev) : Dev := { d with pwr := { d.pwr with tap := { d.pwr.tap with st := .testLogicReset, inst := .idcode } } }

/-- TDO: driven in Shift-DR and Shift-IR alone (R436, R444). -/
def tdo (d : Dev) : Option Bool :=
  if d.tapAnswers && (d.pwr.tap.st == .shiftDr || d.pwr.tap.st == .shiftIr) then d.pwr.tap.shift.head? else none

/-- The transmitters and receivers of lane group `gi` (R254, R444). -/
def laneTx (d : Dev) (gi : Nat) : PinState := if !d.active then .highZ else if d.lgState gi == 0 then .idle else .driven
def laneRx (d : Dev) : PinState := if d.active then .terminated else .highZ
/-- The PCIe pairs: idle until the boot ROM trains the link. -/
def pciePins (d : Dev) : PinState := if !d.active then .highZ else if d.g pPCI PCI_LINK_SPEED == 0 then .idle else .driven
/-- STR_IN to STR_OUT: the bypass is closed until R394 opens it. -/
def stringPins (d : Dev) : PinState := if d.active && d.g pSTR STR_STATUS_STATE ≠ 0 then .open else .bypassed
/-- A trigger pin. -/
def trigPin (d : Dev) (j : Nat) : PinState :=
  if d.pwr.st == .off then .highZ else if d.active && d.b pTRG (TRG_PIN_OUT j) then .output else .input
/-- PERST#. -/
def perstPin (d : Dev) : PinState := if d.pwr.st == .off then .highZ else .input
/-- WAKE#, an open drain. -/
def wakePin (d : Dev) : PinState := if d.pwr.st != .off && d.b pAON AON_WAKE_CAUSE_ASSERTED then .low else .highZ
/-- TDO's driver. -/
def tdoPin (d : Dev) : PinState := if d.tdo.isSome then .driven else .highZ

end Dev

/-- BOUNDARY_SCAN_EXTEST (R440): EXTEST is selected, or another instruction, where the scan port answers; outside DOZE it acts as BYPASS. -/
def execBoundaryScanExtest (on : Bool) (s : State) : Host.Outcome State Fault Refusal :=
  fin s fun d => if d.tapAnswers then { d with pwr := { d.pwr with tap := { d.pwr.tap with inst := if on then .extest else .bypass } } } else d

end Sys2Proof.Machine
end

