-- ==== Sys2Proof/Machine/Dispatch.lean ====
section
/-! DEFINITION. The dispatch: each command goes to its meaning. -/

namespace Sys2Proof.Machine

/-- The effect of a command on everything but the queue, which stays as it is. -/
def exec (i : Instr) (s : State) : Host.Outcome State Fault Refusal :=
  match i with
  | .registerWrite fn off v wide => Sys2Proof.Machine.execRegisterWrite fn off v wide s
  | .pairLowRead fn place => Sys2Proof.Machine.execPairLowRead fn place s
  | .pairLowWrite fn off v => Sys2Proof.Machine.execPairLowWrite fn off v s
  | .pairHighWrite fn off v => Sys2Proof.Machine.execPairHighWrite fn off v s
  | .misalignedAccess fn off size write => Sys2Proof.Machine.execMisalignedAccess fn off size write s
  | .fenceRead fn off => Sys2Proof.Machine.execFenceRead fn off s
  | .executeStep p => Sys2Proof.Machine.execExecuteStep p s
  | .correctedWordWriteBack n walu t unit a => Sys2Proof.Machine.execCorrectedWordWriteBack n walu t unit a s
  | .cascadeLimit p => Sys2Proof.Machine.execCascadeLimit p s
  | .runLimitReached p => Sys2Proof.Machine.execRunLimitReached p s
  | .stepCyclesCountReached p => Sys2Proof.Machine.execStepCyclesCountReached p s
  | .stepStepsCountReached p => Sys2Proof.Machine.execStepStepsCountReached p s
  | .stallRelease p => Sys2Proof.Machine.execStallRelease p s
  | .start p => Sys2Proof.Machine.execStart p s
  | .resume p => Sys2Proof.Machine.execResume p s
  | .freeze p => Sys2Proof.Machine.execFreeze p s
  | .hardFreeze p => Sys2Proof.Machine.execHardFreeze p s
  | .stepCycles p => Sys2Proof.Machine.execStepCycles p s
  | .stepSteps p => Sys2Proof.Machine.execStepSteps p s
  | .stop p => Sys2Proof.Machine.execStop p s
  | .seqCmdInvalid p code => Sys2Proof.Machine.execSeqCmdInvalid p code s
  | .freezeSettled p => Sys2Proof.Machine.execFreezeSettled p s
  | .freezeTimeout p => Sys2Proof.Machine.execFreezeTimeout p s
  | .seqTableWrite p off v => Sys2Proof.Machine.execSeqTableWrite p off v s
  | .bpiClrCounts n => Sys2Proof.Machine.execBpiClrCounts n s
  | .wliClrCounts n => Sys2Proof.Machine.execWliClrCounts n s
  | .fabClrCount n => Sys2Proof.Machine.execFabClrCount n s
  | .dmemClrCounts n => Sys2Proof.Machine.execDmemClrCounts n s
  | .dmemRowWriteBack n m row => Sys2Proof.Machine.execDmemRowWriteBack n m row s
  | .dmemCfgWrite n off v => Sys2Proof.Machine.execDmemCfgWrite n off v s
  | .fmpConfigWrite n off v => Sys2Proof.Machine.execFmpConfigWrite n off v s
  | .txpConfigWrite n off v => Sys2Proof.Machine.execTxpConfigWrite n off v s
  | .farReadArrival n f => Sys2Proof.Machine.execFarReadArrival n f s
  | .farWriteAck n f => Sys2Proof.Machine.execFarWriteAck n f s
  | .windowRead fn n w off => Sys2Proof.Machine.execWindowRead fn n w off s
  | .windowWrite fn n w off v => Sys2Proof.Machine.execWindowWrite fn n w off v s
  | .windowReadTimeout fn n w off => Sys2Proof.Machine.execWindowReadTimeout fn n w off s
  | .snapSave p => Sys2Proof.Machine.execSnapSave p s
  | .snapSaveComplete p => Sys2Proof.Machine.execSnapSaveComplete p s
  | .snapRestore p => Sys2Proof.Machine.execSnapRestore p s
  | .snapCheckComplete p => Sys2Proof.Machine.execSnapCheckComplete p s
  | .snapRestoreComplete p => Sys2Proof.Machine.execSnapRestoreComplete p s
  | .snapAbort p => Sys2Proof.Machine.execSnapAbort p s
  | .strobe => Sys2Proof.Machine.execStrobe s
  | .strobeLatch => Sys2Proof.Machine.execStrobeLatch s
  | .ptnCreate tag p bindVf mask shape quotaMiB => Sys2Proof.Machine.execPtnCreate tag p bindVf mask shape quotaMiB s
  | .ptnDestroy tag p => Sys2Proof.Machine.execPtnDestroy tag p s
  | .ptnCloseComplete p => Sys2Proof.Machine.execPtnCloseComplete p s
  | .ptnResize tag p retarget mask shape => Sys2Proof.Machine.execPtnResize tag p retarget mask shape s
  | .ptnResizeComplete p => Sys2Proof.Machine.execPtnResizeComplete p s
  | .ptnQuery tag p => Sys2Proof.Machine.execPtnQuery tag p s
  | .ping tag arg => Sys2Proof.Machine.execPing tag arg s
  | .serviceBadCommand hdr => Sys2Proof.Machine.execServiceBadCommand hdr s
  | .linkedCommand g p cmd count dist intact => Sys2Proof.Machine.execLinkedCommand g p cmd count dist intact s
  | .linkedCommandEffect p => Sys2Proof.Machine.execLinkedCommandEffect p s
  | .hold g p e intact => Sys2Proof.Machine.execHold g p e intact s
  | .ready g p e intact => Sys2Proof.Machine.execReady g p e intact s
  | .go g p e intact => Sys2Proof.Machine.execGo g p e intact s
  | .systemHoldRelease p => Sys2Proof.Machine.execSystemHoldRelease p s
  | .steps g p cycle count intact => Sys2Proof.Machine.execSteps g p cycle count intact s
  | .sysFreeze => Sys2Proof.Machine.execSysFreeze s
  | .freezeMsg g origin seq intact => Sys2Proof.Machine.execFreezeMsg g origin seq intact s
  | .lockstepRecord r => Sys2Proof.Machine.execLockstepRecord r s
  | .partnerTimeout => Sys2Proof.Machine.execPartnerTimeout s
  | .beaconSend => Sys2Proof.Machine.execBeaconSend s
  | .beacon g ns frac hops master intact => Sys2Proof.Machine.execBeacon g ns frac hops master intact s
  | .beaconTimeout => Sys2Proof.Machine.execBeaconTimeout s
  | .tsbHoldEnd => Sys2Proof.Machine.execTsbHoldEnd s
  | .tsbSet v => Sys2Proof.Machine.execTsbSet v s
  | .bootGo => Sys2Proof.Machine.execBootGo s
  | .bootAbort => Sys2Proof.Machine.execBootAbort s
  | .bundleFetchComplete data => Sys2Proof.Machine.execBundleFetchComplete data s
  | .bundleVerifyComplete => Sys2Proof.Machine.execBundleVerifyComplete s
  | .stageReady => Sys2Proof.Machine.execStageReady s
  | .confirm => Sys2Proof.Machine.execConfirm s
  | .burnComplete fault => Sys2Proof.Machine.execBurnComplete fault s
  | .ownerProvision tag hash => Sys2Proof.Machine.execOwnerProvision tag hash s
  | .loadGo p => Sys2Proof.Machine.execLoadGo p s
  | .loadAbort p => Sys2Proof.Machine.execLoadAbort p s
  | .loadReplay p => Sys2Proof.Machine.execLoadReplay p s
  | .frame p data => Sys2Proof.Machine.execFrame p data s
  | .scrubWalkRead n w => Sys2Proof.Machine.execScrubWalkRead n w s
  | .scrubPassRequest p => Sys2Proof.Machine.execScrubPassRequest p s
  | .scrubPassStart => Sys2Proof.Machine.execScrubPassStart s
  | .scrubPassComplete => Sys2Proof.Machine.execScrubPassComplete s
  | .upset n w fetch => Sys2Proof.Machine.execUpset n w fetch s
  | .upsetRewrite n w => Sys2Proof.Machine.execUpsetRewrite n w s
  | .laneGroupEnable g => Sys2Proof.Machine.execLaneGroupEnable g s
  | .laneGroupDisable g => Sys2Proof.Machine.execLaneGroupDisable g s
  | .laneTestRequest g => Sys2Proof.Machine.execLaneTestRequest g s
  | .markerSend g => Sys2Proof.Machine.execMarkerSend g s
  | .marker g l bits ui => Sys2Proof.Machine.execMarker g l bits ui s
  | .acqTimeout g => Sys2Proof.Machine.execAcqTimeout g s
  | .laneLoss g l => Sys2Proof.Machine.execLaneLoss g l s
  | .codeword g l data check => Sys2Proof.Machine.execCodeword g l data check s
  | .slotFrame g k fields => Sys2Proof.Machine.execSlotFrame g k fields s
  | .linkFlit g bits bad => Sys2Proof.Machine.execLinkFlit g bits bad s
  | .credit g vc count intact => Sys2Proof.Machine.execCredit g vc count intact s
  | .injGo g => Sys2Proof.Machine.execInjGo g s
  | .lgrpClrCounts g => Sys2Proof.Machine.execLgrpClrCounts g s
  | .clrSlack g => Sys2Proof.Machine.execClrSlack g s
  | .bridgeLaneEnable g l tx rx => Sys2Proof.Machine.execBridgeLaneEnable g l tx rx s
  | .bridgeWordReceive g l w => Sys2Proof.Machine.execBridgeWordReceive g l w s
  | .bridgeWordTransmit g l => Sys2Proof.Machine.execBridgeWordTransmit g l s
  | .packetHop x y ins => Sys2Proof.Machine.execPacketHop x y ins s
  | .rd k => Sys2Proof.Machine.execRd k s
  | .wr k => Sys2Proof.Machine.execWr k s
  | .qwr k => Sys2Proof.Machine.execQwr k s
  | .qrd k => Sys2Proof.Machine.execQrd k s
  | .capWr k => Sys2Proof.Machine.execCapWr k s
  | .trcWr k => Sys2Proof.Machine.execTrcWr k s
  | .rspData k => Sys2Proof.Machine.execRspData k s
  | .rspAck k => Sys2Proof.Machine.execRspAck k s
  | .rspTimeout src tag => Sys2Proof.Machine.execRspTimeout src tag s
  | .tagQuarantineEnd src tag => Sys2Proof.Machine.execTagQuarantineEnd src tag s
  | .routeTableWrite port idx entry => Sys2Proof.Machine.execRouteTableWrite port idx entry s
  | .drain n => Sys2Proof.Machine.execDrain n s
  | .drainComplete n => Sys2Proof.Machine.execDrainComplete n s
  | .drainTimeout n => Sys2Proof.Machine.execDrainTimeout n s
  | .unfence n => Sys2Proof.Machine.execUnfence n s
  | .nocClrCounts => Sys2Proof.Machine.execNocClrCounts s
  | .txpCopyFill n x => Sys2Proof.Machine.execTxpCopyFill n x s
  | .txpCreditRenew n x => Sys2Proof.Machine.execTxpCreditRenew n x s
  | .doorbellAppend fn slot fin fence w => Sys2Proof.Machine.execDoorbellAppend fn slot fin fence w s
  | .doorbellAppendMulti fn slot ws => Sys2Proof.Machine.execDoorbellAppendMulti fn slot ws s
  | .pop fn slot => Sys2Proof.Machine.execPop fn slot s
  | .popWaitExpire fn slot => Sys2Proof.Machine.execPopWaitExpire fn slot s
  | .bar4AccessError fn off write => Sys2Proof.Machine.execBar4AccessError fn off write s
  | .qwrHoldExpire q => Sys2Proof.Machine.execQwrHoldExpire q s
  | .qrdHoldExpire q => Sys2Proof.Machine.execQrdHoldExpire q s
  | .flush fn q => Sys2Proof.Machine.execFlush fn q s
  | .dropHead fn q => Sys2Proof.Machine.execDropHead fn q s
  | .clrHwm fn q => Sys2Proof.Machine.execClrHwm fn q s
  | .queueEnable fn q => Sys2Proof.Machine.execQueueEnable fn q s
  | .queueDisable fn q => Sys2Proof.Machine.execQueueDisable fn q s
  | .submit fn => Sys2Proof.Machine.execSubmit fn s
  | .submitHoldExpire list => Sys2Proof.Machine.execSubmitHoldExpire list s
  | .courierDispatch c data => Sys2Proof.Machine.execCourierDispatch c data s
  | .workItemComplete c => Sys2Proof.Machine.execWorkItemComplete c s
  | .courierWaitLimit c => Sys2Proof.Machine.execCourierWaitLimit c s
  | .dspClr => Sys2Proof.Machine.execDspClr s
  | .triggerLevelTimeout => Sys2Proof.Machine.execTriggerLevelTimeout s
  | .arm => Sys2Proof.Machine.execArm s
  | .disarm => Sys2Proof.Machine.execDisarm s
  | .trigPinEdge j rising => Sys2Proof.Machine.execTrigPinEdge j rising s
  | .pinPulseEnd j => Sys2Proof.Machine.execPinPulseEnd j s
  | .captureArm c => Sys2Proof.Machine.execCaptureArm c s
  | .captureDisarm c => Sys2Proof.Machine.execCaptureDisarm c s
  | .captureBlockWrite ch addr => Sys2Proof.Machine.execCaptureBlockWrite ch addr s
  | .postLimitExpire ch => Sys2Proof.Machine.execPostLimitExpire ch s
  | .rearmExpire c => Sys2Proof.Machine.execRearmExpire c s
  | .channelOwnerWrite ch owner => Sys2Proof.Machine.execChannelOwnerWrite ch owner s
  | .zeroingComplete ch => Sys2Proof.Machine.execZeroingComplete ch s
  | .pinwheelConfigWrite size v => Sys2Proof.Machine.execPinwheelConfigWrite size v s
  | .traceStreamEnable a => Sys2Proof.Machine.execTraceStreamEnable a s
  | .traceCounterLimit a => Sys2Proof.Machine.execTraceCounterLimit a s
  | .mark a v => Sys2Proof.Machine.execMark a v s
  | .traceBlockTimeout a => Sys2Proof.Machine.execTraceBlockTimeout a s
  | .traceSyncTimer a => Sys2Proof.Machine.execTraceSyncTimer a s
  | .tokenChallenge tag => Sys2Proof.Machine.execTokenChallenge tag s
  | .tokenPresent tag token => Sys2Proof.Machine.execTokenPresent tag token s
  | .tokenRevoke tag => Sys2Proof.Machine.execTokenRevoke tag s
  | .tokenExpire => Sys2Proof.Machine.execTokenExpire s
  | .authDisable => Sys2Proof.Machine.execAuthDisable s
  | .roll => Sys2Proof.Machine.execRoll s
  | .keyRollStart => Sys2Proof.Machine.execKeyRollStart s
  | .keyRollSector => Sys2Proof.Machine.execKeyRollSector s
  | .imeClrCounts => Sys2Proof.Machine.execImeClrCounts s
  | .vauxUp => Sys2Proof.Machine.execVauxUp s
  | .vauxLoss => Sys2Proof.Machine.execVauxLoss s
  | .vin48Up => Sys2Proof.Machine.execVin48Up s
  | .vin48Loss => Sys2Proof.Machine.execVin48Loss s
  | .perstAssert => Sys2Proof.Machine.execPerstAssert s
  | .perstDeassert => Sys2Proof.Machine.execPerstDeassert s
  | .startup refclk healthOk => Sys2Proof.Machine.execStartup refclk healthOk s
  | .device => Sys2Proof.Machine.execDevice s
  | .flrPf => Sys2Proof.Machine.execFlrPf s
  | .flrVf p => Sys2Proof.Machine.execFlrVf p s
  | .functionResetComplete fn => Sys2Proof.Machine.execFunctionResetComplete fn s
  | .ptnReset mask => Sys2Proof.Machine.execPtnReset mask s
  | .partitionResetComplete p => Sys2Proof.Machine.execPartitionResetComplete p s
  | .vfEnableClear => Sys2Proof.Machine.execVfEnableClear s
  | .clusterWake ns => Sys2Proof.Machine.execClusterWake ns s
  | .clusterIdleDelay p => Sys2Proof.Machine.execClusterIdleDelay p s
  | .clusterOffDelay n => Sys2Proof.Machine.execClusterOffDelay n s
  | .clusterPowerOn n => Sys2Proof.Machine.execClusterPowerOn n s
  | .corePllLockLost => Sys2Proof.Machine.execCorePllLockLost s
  | .wakeSource src => Sys2Proof.Machine.execWakeSource src s
  | .heartbeat v => Sys2Proof.Machine.execHeartbeat v s
  | .heartbeatTimeout => Sys2Proof.Machine.execHeartbeatTimeout s
  | .graceTimeout => Sys2Proof.Machine.execGraceTimeout s
  | .overTemperature q celsius => Sys2Proof.Machine.execOverTemperature q celsius s
  | .railFault => Sys2Proof.Machine.execRailFault s
  | .wardenStop => Sys2Proof.Machine.execWardenStop s
  | .stopDrainTimeout => Sys2Proof.Machine.execStopDrainTimeout s
  | .stopComplete => Sys2Proof.Machine.execStopComplete s
  | .stringJoin => Sys2Proof.Machine.execStringJoin s
  | .stringOpen => Sys2Proof.Machine.execStringOpen s
  | .stringLeave => Sys2Proof.Machine.execStringLeave s
  | .discover => Sys2Proof.Machine.execDiscover s
  | .collect src ttl map mark => Sys2Proof.Machine.execCollect src ttl map mark s
  | .assign src ttl map mark => Sys2Proof.Machine.execAssign src ttl map mark s
  | .stringBeacon src ttl ns frac mark => Sys2Proof.Machine.execStringBeacon src ttl ns frac mark s
  | .stringFreeze src seq ttl tail => Sys2Proof.Machine.execStringFreeze src seq ttl tail s
  | .stringStrobe src seq ttl crc => Sys2Proof.Machine.execStringStrobe src seq ttl crc s
  | .resetReq src seq dest ttl crc => Sys2Proof.Machine.execResetReq src seq dest ttl crc s
  | .msg src dest ttl cfg mark => Sys2Proof.Machine.execMsg src dest ttl cfg mark s
  | .resetReqSend => Sys2Proof.Machine.execResetReqSend s
  | .stringBroken => Sys2Proof.Machine.execStringBroken s
  | .logClear => Sys2Proof.Machine.execLogClear s
  | .lastGaspClear => Sys2Proof.Machine.execLastGaspClear s
  | .mntRelease code owner inst => Sys2Proof.Machine.execMntRelease code owner inst s
  | .mbistGo n => Sys2Proof.Machine.execMbistGo n s
  | .mbistComplete n failed => Sys2Proof.Machine.execMbistComplete n failed s
  | .clearAll => Sys2Proof.Machine.execClearAll s
  | .counterSaturate base k => Sys2Proof.Machine.execCounterSaturate base k s
  | .irqStatClear base v => Sys2Proof.Machine.execIrqStatClear base v s
  | .irqForce base v => Sys2Proof.Machine.execIrqForce base v s
  | .msixUnmask fn v => Sys2Proof.Machine.execMsixUnmask fn v s
  | .bar2Read fn off len => Sys2Proof.Machine.execBar2Read fn off len s
  | .bar2Write fn off bytes => Sys2Proof.Machine.execBar2Write fn off bytes s
  | .captureWindowRead p off len => Sys2Proof.Machine.execCaptureWindowRead p off len s
  | .boundaryScanExtest on => Sys2Proof.Machine.execBoundaryScanExtest on s
  | .ownerBurnComplete fault => Sys2Proof.Machine.execOwnerBurnComplete fault s
  | .prbsCheck g l bits => Sys2Proof.Machine.execPrbsCheck g l bits s
  | .laneClockRecovered g l => Sys2Proof.Machine.execLaneClockRecovered g l s
  | .vfEnableSet num => Sys2Proof.Machine.execVfEnableSet num s
  | .stringFrameRepeat => Sys2Proof.Machine.execStringFrameRepeat s
  | .stringBeaconSend => Sys2Proof.Machine.execStringBeaconSend s

end Sys2Proof.Machine
end

