-- ==== Sys2Proof/WellFormed.lean ====
section
/-! DEFINITION. Which commands are well formed: their operands have the sizes and places that the rules of their rows give them. -/

namespace Sys2Proof

/-- A register offset of a 32-bit or 64-bit access (R10) that lies in the function's BAR0 (R420, R422). -/
def okOffset (fn : Fn) (off : Nat) (wide : Bool) : Bool :=
  off % (if wide then 8 else 4) == 0 && off < (match fn with | .pf => 0x4000000 | .vf _ => 0x800000)

/-- A payload of at most 256 bytes (R259, R421). -/
def Packet.ok (k : Packet) : Bool := k.data.length ≤ 256

/-- Whether a command's operands are as its row's rule gives them. -/
def Instr.wellFormed : Instr → Bool
  | .registerWrite fn off v wide => okOffset fn off wide && v < (if wide then 2 ^ 64 else 2 ^ 32)
  | .pairLowRead fn place => okOffset fn place.off place.wide
  | .pairLowWrite fn off v => okOffset fn off false && v < 2 ^ 32
  | .pairHighWrite fn off v => okOffset fn off false && v < 2 ^ 32
  | .misalignedAccess _ off size _ => !((size == 4 && off % 4 == 0) || (size == 8 && off % 8 == 0)) && 0 < size
  | .fenceRead _ off => off % 0x1000 == 0x24
  | .seqCmdInvalid _ code => code.val == 0 || 8 ≤ code.val
  | .seqTableWrite _ off _ => 0x200 ≤ off && off < 0x600 && off % 4 == 0
  | .dmemCfgWrite _ off _ => off % 4 == 0 && ((0x300 ≤ off && off < 0x320) || (0x400 ≤ off && off < 0x800))
  | .fmpConfigWrite _ off _ => off % 4 == 0 && 0x240 ≤ off && off < 0x280
  | .txpConfigWrite _ off _ => off % 4 == 0 && 0x280 ≤ off && off < 0x300
  | .windowRead _ _ w off => 1 ≤ w.val && off % 4 == 0 && 0x400 ≤ off && off < 0x800
  | .windowWrite _ _ w off _ => 1 ≤ w.val && off % 4 == 0 && 0x400 ≤ off && off < 0x800
  | .windowReadTimeout _ _ w off => 1 ≤ w.val && off % 4 == 0 && 0x400 ≤ off && off < 0x800
  | .ownerProvision _ hash => hash.length == 6
  | .tokenPresent _ token => token.length == 30
  | .doorbellAppendMulti _ _ ws => 1 ≤ ws.length && ws.length ≤ 4
  | .rd k => k.ok
  | .wr k => k.ok
  | .qwr k => k.ok
  | .qrd k => k.ok
  | .capWr k => k.ok
  | .trcWr k => k.ok
  | .rspData k => k.ok
  | .rspAck k => k.ok
  | .bar2Read _ _ len => 0 < len && len ≤ 4096
  | .bar2Write _ _ bytes => 0 < bytes.length && bytes.length ≤ 512
  | .captureWindowRead _ _ len => 0 < len && len ≤ 4096
  | .counterSaturate base _ => base % 0x1000 == 0 && base < 0x500000
  | .irqStatClear base _ => base % 0x1000 == 0 && base < 0x500000
  | .irqForce base _ => base % 0x1000 == 0 && base < 0x500000
  | .mntRelease code _ _ => 1 ≤ code.val
  | _ => true

end Sys2Proof
end

