-- ==== Sys2Proof/Safety.lean ====
section
/-! DEFINITION. What the statements call a settled state: between commands no event is left on the bus and every waiting command is
well formed; a quiet device, on which nothing waits to be settled; the conditions under which the device takes its commands. -/

namespace Sys2Proof.Machine

/-- Between two commands: the event bus is empty (R402) and every command in the queue is well formed. -/
def State.Settled (s : State) : Prop := s.dev.bus = [] ∧ ∀ c ∈ s.pending, c.wellFormed = true

/-- Nothing waits to be settled: no event, no hit, no answer of Stage, no write held for space, no bytes for capture; and nothing that acts at
the end of every step does: the trigger sequencer is not armed, no trace stream is enabled, no capture channel is in use. -/
structure Dev.Quiet (d : Dev) : Prop where
  events  : d.evq = []
  hits    : d.trg.hits = []
  answers : d.answers = []
  writers : d.queue.all (fun e => e.2.waitQwr.isEmpty) = true
  armed   : d.b pTRG TRG_SEQ_STATUS_ARMED = false
  streams : (List.range 17).all (fun s => !d.strmEn s) = true
  fired   : d.trg.fired = [] ∧ d.trg.counted = []
  capture : d.cap.chans = [] ∧ d.cap.staged = []

/-- The state after a command whose effect on the device is `x`: its events and hits are settled. -/
def State.settle (s : State) (x : Dev) : State := { s with dev := x.finish }

/-- The power state and what it rests on agree (R377, R378, R380): OFF is the state without Vaux; STANDBY lacks the 48 V supply, DOZE and
ACTIVE have it; a controlled stop runs in ACTIVE alone, and a device held in ACTIVE while PERST# is asserted is finishing one, and so is an
ACTIVE device that only a new PERST# cycle will start again. -/
structure Pwr.Agrees (p : Pwr) : Prop where
  off     : p.st = .off ↔ p.vaux = false
  standby : p.st = .standby → p.vin48 = false
  supply  : p.st = .doze ∨ p.st = .active → p.vin48 = true
  stop    : p.stopping = true → p.st = .active
  perst   : p.st = .active → p.perst = true → p.stopping = true
  after   : p.st = .active → p.afterStop = true → p.stopping = true

/-- The two stores that every access goes through are in their canonical form: the indexes of the register fields rise strictly, and so do
the addresses of HBM, which lists no byte that equals what an unwritten one holds. Equal contents are then equal data. -/
structure Dev.Canonical (d : Dev) : Prop where
  fields : SMap.risingFrom d.fld 0 = true
  memory : SMap.wf 0 d.hbm = true

/-- A queue in use holds no more than its depth: its words and the space that its write ports' credits reserve (R282, R288). -/
def Queue.Fits (q : Queue) : Prop := q.en = false ∨ q.words.length + q.reserved ≤ q.cap

/-- Every queue does; one that is not listed is not in use. -/
structure Dev.QueuesFit (d : Dev) : Prop where
  fits : ∀ e ∈ d.queue, e.2.Fits

/-- Cluster `n` is partition `i`'s by the directory, or a resize in progress will make it so (R160, R168). -/
def Dev.claims (d : Dev) (i n : Nat) : Prop := (d.mask i).testBit n = true ∨ d.promised i n = true

/-- Queue `q` is in partition `i`'s range, or a resize in progress will put it there (R160, R168). -/
def Dev.claimsQueue (d : Dev) (i q : Nat) : Prop :=
  (d.g pDEV (DEV_DIR_QBASE i) ≤ q ∧ q < d.g pDEV (DEV_DIR_QBASE i) + d.g pDEV (DEV_DIR_QCOUNT i)) ∨
    (d.dirState i = 3 ∧ shapeQbase (d.ptnAt i).pendShape ≤ q ∧ q < shapeQbase (d.ptnAt i).pendShape + shapeQcount (d.ptnAt i).pendShape)

/-- Every cluster and every queue has at most one partition (R14, R160, R283): a FREE partition has none of either, and the queues of the
device and those beyond the last belong to none. -/
structure Dev.OneOwner (d : Dev) : Prop where
  free     : ∀ i < 16, d.dirState i = 0 → d.mask i = 0 ∧ d.g pDEV (DEV_DIR_QCOUNT i) = 0
  clusters : ∀ i < 16, ∀ j < 16, ∀ n < 64, d.claims i n → d.claims j n → i = j
  queues   : ∀ i < 16, ∀ j < 16, ∀ q, d.claimsQueue i q → d.claimsQueue j q → i = j
  range    : ∀ i < 16, ∀ q, d.claimsQueue i q → 16 ≤ q ∧ q < 8192

/-- The commands that act outside ACTIVE too: supplies, PERST#, start-up, wake sources and the boundary scan (R377 to R380, R390, R440). -/
def alwaysActs : Instr → Bool
  | .vauxUp | .vauxLoss | .vin48Up | .vin48Loss | .perstAssert | .perstDeassert | .startup .. | .wakeSource _ | .boundaryScanExtest _ => true
  | _ => false

/-- The function a command reaches by a configuration request (R195). -/
def asksConfig : Instr → Option Fn
  | .flrPf | .vfEnableClear | .vfEnableSet _ => some .pf
  | .flrVf p => some (.vf p)
  | _ => none

/-- What a command of the main domain does to a device outside ACTIVE: nothing, but a configuration request is answered with Configuration
Request Retry Status by a device that is about to start (R195, R379). -/
def Dev.idleAnswer (d : Dev) (c : Instr) : Dev :=
  match asksConfig c with
  | some fn => if d.mayStart then d.emit (.configRetry fn) else d
  | none => d

/-- The device runs its main domain and presents the full function. -/
abbrev Dev.Up (d : Dev) : Prop := d.active = true ∧ d.full = true

/-- The PF serves host accesses. -/
abbrev Dev.Host (d : Dev) : Prop := d.Up ∧ d.pwr.fnReset.contains .pf = false

/-- Endpoint `h` is reached by the host's requests, and its responses reach the host (R261, R262); no endpoint is the PCI block's own. -/
abbrev Dev.Linked (d : Dev) (h : Option Nat) : Prop := d.asked h = true ∧ d.heard h = true

/-- Cluster `n` serves its windows: its network interface is ACTIVE (R269), and the network joins it to the host. -/
abbrev Dev.Serves (d : Dev) (n : Nat) : Prop := d.Host ∧ d.niState n = 0 ∧ d.Linked (some n)

/-- Partition `i` takes the commands of its page: no PARTITION reset is in progress (R387). -/
abbrev Dev.Takes (d : Dev) (i : Nat) : Prop := d.Up ∧ d.ptnBusy i = false

/-- A request packet leaves its source on behalf of `r`: its length is legal, its tag is free, its route is valid, and its OP is one
of R259 (R259, R262, R264). -/
abbrev Dev.Sends (d : Dev) (k : Packet) (r : Req) : Prop :=
  d.senderOf k = some r ∧ k.len.val ≤ 8 ∧ d.mayReserve k.src k.tag = true ∧ d.routed k.src k.dst = true ∧
    opKnown k.op = true

/-- The device when a request travels for `r`: its response buffer is reserved, and its header has gone out with the route and the sender's
PART and DEVLVL (R260, R261, R264). -/
def Dev.sent (d : Dev) (k : Packet) (r : Req) (write : Bool) : Dev :=
  (d.addOutst (reserved (asSent k r) r write)).emit (.packet k.src (headerOf (asSent k r) (d.routeEntry k.src k.dst)))

/-- The page at `base` is one the PF reaches now, of the hub, a lane group, or a single block (not of a partition or cluster), and the network
joins its endpoint to the host. -/
abbrev Dev.HubPage (d : Dev) (base : Nat) : Prop :=
  d.active = true ∧ base % 0x1000 = 0 ∧ base < 0x30000 ∧ d.reach .pf base = .yes ∧ d.Linked (pageHome base)

/-- The register place of byte `o` of a page. -/
abbrev Dev.regAt (base o : Nat) : Place := ⟨base, o, none, false⟩

/-- The tile that a write goes to. -/
def Wr.tile : Wr → Nat × Nat
  | .res n t _ _ => (n, t)
  | .bit n t _ _ => (n, t)
  | .imm n t _ _ => (n, t)
  | .word n t _ _ => (n, t)

/-- The value that a write brings to word `a` of a tile: a state word's next copy, any other word itself (R61, R63). -/
def Wr.toWord (n t a : Nat) : Wr → Option W32
  | .word n' t' a' v => if n' = n ∧ t' = t ∧ a' % 256 = a then some (BitVec.ofNat 32 v) else none
  | _ => none

/-- The value that a write brings to a fabric input entry, or to the next copy of a state entry (R39, R40, R66). -/
def Wr.toBit (n t a : Nat) : Wr → Option Bool
  | .bit n' t' a' v => if n' = n ∧ t' = t ∧ a' = a then some v else none
  | .imm n' t' a' v => if n' = n ∧ t' = t ∧ 0xC00 + a' % 1024 = a then some v else none
  | _ => none

/-- The value that an immediate write brings to the current copy of a state entry (R40, R41). -/
def Wr.toCur (n t a : Nat) : Wr → Option Bool
  | .imm n' t' a' v => if n' = n ∧ t' = t ∧ 0xC00 + a' % 1024 = a then some v else none
  | _ => none

/-- What the highest-ranked of the writes that reach a place brings: a step's writes stand in ascending rank. -/
def kept {α : Type} (f : Wr → Option α) (ws : List Wr) : Option α := (ws.filterMap f).getLast?

end Sys2Proof.Machine
end

