-- ==== Sys2Proof/Certificates/Slice0/Obligations.lean ====
section
/-! DEFINITION. The statements about the model: what each command does, what the shared operations do, and what every step keeps. -/

open Sys2Proof Sys2Proof.Machine

/-- A step runs the command at the front of the queue; with none waiting, one step clock passes in ACTIVE.
For every command, queue and device, a step of the state with the command in front of the queue is the command's execution on the device with the rest
of the queue. A step on an empty queue answers a next state with the queue empty: in ACTIVE one step clock passes; outside ACTIVE only what waits to
be settled is settled. That commands act one at a time in the order of their arrival (log entry 3), and that a clock passes in place of a command (log
entry 2), are the model's choices. -/
def Obligations.StepRunsTheFrontCommand : Prop :=
  (∀ (c : Instr) (q : List Instr) (d : Dev), step ⟨d, c :: q⟩ = exec c ⟨d, q⟩) ∧
  (∀ d : Dev, step ⟨d, []⟩ = .next ⟨(if d.active then d.clockStep else d).finish, []⟩)

/-- Every command ends in a next state, with the queue as it was and no event left on the bus.
For every command and every state, execution answers a next state, never a fault or a refusal; the commands that wait are the same ones, and every
event the command made has been logged and counted. That the events of a command are settled within it is the model's choice (log entry 3). -/
def Obligations.EveryCommandAnswersANextState : Prop :=
  ∀ (c : Instr) (s : State), ∃ t : State, exec c s = .next t ∧ t.pending = s.pending ∧ t.dev.bus = []

/-- Between commands no event is on the bus and the waiting commands are well formed: every step keeps this.
If a step from a settled state answers a next state, that state is settled: its event bus is empty and every command in its queue is well formed. The
bus is the model's own record of events not yet logged (log entry 3). -/
def Obligations.SettledStateIsKept : Prop :=
  ∀ s t : State, step s = .next t → s.Settled → t.Settled

/-- The power state agrees with the supplies, PERST# and the controlled stop: every step keeps this.
For every state whose power state agrees with its supplies, and for every command or clock, the state after the step agrees too: OFF is the state
without Vaux, STANDBY lacks the 48 V supply, DOZE and ACTIVE have it, a controlled stop runs in ACTIVE alone, an ACTIVE device whose PERST# is
asserted is finishing such a stop, and so is an ACTIVE device that only a new PERST# cycle will start again. -/
def Obligations.PowerStateAgreesWithSupplies : Prop :=
  ∀ s t : State, step s = .next t → s.dev.pwr.Agrees → t.dev.pwr.Agrees

/-- The register fields and HBM keep their canonical form: every step keeps this.
For every state whose register fields are listed at strictly rising indexes, and whose HBM lists bytes at strictly rising addresses and none that
equals what an unwritten byte holds, and for every command or clock, the state after the step is such a state: equal contents of HBM stay equal data.
That a byte never written holds 0 is the model's choice (log entry 15); the form is the model's own. -/
def Obligations.StoresStayCanonical : Prop :=
  ∀ s t : State, step s = .next t → s.dev.Canonical → t.dev.Canonical

/-- No cluster and no queue belongs to two partitions: every step keeps this.
For every state in which no cluster and no queue belongs to two partitions, by the directory or by what a resize in progress will make of it, in which
a FREE partition has no cluster and no queue, and no partition has a queue below 16 or above 8,191, and for every command or clock, the state after
the step is such a state. That what a resize in progress will add counts as its partition's from its acceptance on is the model's choice (log entry
61). -/
def Obligations.EachClusterAndQueueHasOneOwner : Prop :=
  ∀ s t : State, step s = .next t → s.dev.OneOwner → t.dev.OneOwner

/-- No queue ever holds more than its depth: every step keeps this.
For every state in which each enabled queue holds, with the words for which write ports' credits reserve space, no more than its depth of 64 B x
2^DEPTH, and for every command or clock, the state after the step is such a state: whatever a producer, a courier, a notification or the event log
stores, a word that finds no space is dropped or waits. -/
def Obligations.QueuesStayWithinTheirDepth : Prop :=
  ∀ s t : State, step s = .next t → s.dev.QueuesFit → t.dev.QueuesFit

/-- After reset the invariants hold, nothing waits, and registers and memory hold their reset values.
The state after reset meets the five invariants; its queue and bus are empty; every field of every register reads its Reset value; no byte of HBM is
written. A reset value the manual does not give is the model's choice (log entry 1). -/
def Obligations.ResetMeetsTheInvariants : Prop :=
  State.reset.dev.pwr.Agrees ∧ State.reset.Settled ∧ State.reset.dev.Canonical ∧ State.reset.dev.OneOwner ∧ State.reset.dev.QueuesFit ∧
    State.reset.pending = [] ∧ State.reset.dev.hbm = [] ∧
    ∀ (base : Nat) (f : Fld), State.reset.dev.g base f = f.rst

/-- Outside ACTIVE only supplies, PERST#, start-up, wake sources and the boundary scan change the device.
Where the device is not in ACTIVE, every command but VAUX_UP, VAUX_LOSS, VIN48_UP, VIN48_LOSS, PERST_ASSERT, PERST_DEASSERT, STARTUP, WAKE_SOURCE and
BOUNDARY_SCAN_EXTEST leaves the device as it was, with what waited settled; an FLR or a write of VF Enable, which come by configuration requests, are
answered with Configuration Request Retry Status by a device about to start. That a command which needs the main domain does nothing outside ACTIVE
(log entry 4), the Warden's own causes among them (log entry 35), is the model's choice. -/
def Obligations.MainDomainCommandsNeedActive : Prop :=
  ∀ (c : Instr) (d : Dev) (q : List Instr), alwaysActs c = false → d.active = false → exec c ⟨d, q⟩ = .next ⟨(d.idleAnswer c).finish, q⟩

/-- Only STARTUP takes the device into ACTIVE, from DOZE with both supplies and PERST# deasserted.
If a device that is not in ACTIVE is in ACTIVE after a command, the command was STARTUP, and the device was in DOZE with Vaux and the 48 V supply
present, PERST# deasserted, and not held by a controlled stop that has just ended. -/
def Obligations.OnlyStartupEntersActive : Prop :=
  ∀ (c : Instr) (s t : State), exec c s = .next t → s.dev.active = false → t.dev.active = true →
    (∃ refclk healthOk, c = .startup refclk healthOk) ∧ s.dev.pwr.st = .doze ∧ s.dev.pwr.vaux = true ∧ s.dev.pwr.vin48 = true ∧
      s.dev.pwr.perst = false ∧ s.dev.pwr.afterStop = false

/-- An HBM write changes its own bytes and no other; one that is refused or fails its check changes none.
A write of a non-empty run that the port allows and whose granules pass their checks answers status 0: each byte of the run then reads as written and
every other byte as before. A write without a route answers 2, a refused one 5, one over a failing granule 4, and none of them changes a byte. A read
that is allowed and passes its checks answers status 0 and the bytes as they stand, or 4 and zeros where the stack cannot correct a granule of it; a
write of a part of such a granule answers 4 and changes nothing. The model's choices: status 4 where the stack cannot correct a granule (log entry
58), status 2 without a route (log entry 33), and zero as what a byte that nothing has written reads as (log entry 15). -/
def Obligations.HbmReturnsWhatWasWritten : Prop :=
  (∀ (d : Dev) (r : Req) (a : Nat) (bs : List Byte), bs ≠ [] → d.hbmRouted r.src a bs.length = true → d.hbmAllowed r a bs.length = true → d.mergeHits d.ime.ue a bs.length = [] → d.firstFail a bs.length = none →
    (d.hbmWrite r a bs).2 = 0 ∧ ∀ x, SMap.get 0 (d.hbmWrite r a bs).1.hbm x = if a ≤ x ∧ x < a + bs.length then bs.getD (x - a) 0 else SMap.get 0 d.hbm x) ∧
  (∀ (d : Dev) (r : Req) (a : Nat) (bs : List Byte), bs ≠ [] → d.hbmRouted r.src a bs.length = true → d.hbmAllowed r a bs.length = false → (d.hbmWrite r a bs).2 = 5 ∧ (d.hbmWrite r a bs).1.hbm = d.hbm) ∧
  (∀ (d : Dev) (r : Req) (a : Nat) (bs : List Byte), bs ≠ [] → d.hbmRouted r.src a bs.length = true → d.hbmAllowed r a bs.length = true → d.mergeHits d.ime.ue a bs.length = [] → d.firstFail a bs.length ≠ none →
    (d.hbmWrite r a bs).2 = 4 ∧ (d.hbmWrite r a bs).1.hbm = d.hbm) ∧
  (∀ (d : Dev) (r : Req) (a : Nat) (bs : List Byte), bs ≠ [] → d.hbmRouted r.src a bs.length = false → (d.hbmWrite r a bs).2 = 2 ∧ (d.hbmWrite r a bs).1.hbm = d.hbm) ∧
  (∀ (d : Dev) (r : Req) (a : Nat) (bs : List Byte), bs ≠ [] → d.hbmRouted r.src a bs.length = true → d.hbmAllowed r a bs.length = true → d.firstFail a bs.length = none → d.mergeHits d.ime.ue a bs.length ≠ [] →
    (d.hbmWrite r a bs).2 = 4 ∧ (d.hbmWrite r a bs).1.hbm = d.hbm) ∧
  (∀ (d : Dev) (r : Req) (a n : Nat), 0 < n → d.hbmRouted r.src a n = true → d.hbmAllowed r a n = true → d.stackHits d.ime.ue a n ≠ [] → d.firstFail a n = none →
    (d.hbmRead r a n).2 = (4, List.replicate n 0)) ∧
  (∀ (d : Dev) (r : Req) (a n : Nat), 0 < n → d.hbmRouted r.src a n = true → d.hbmAllowed r a n = true → d.stackHits d.ime.ue a n = [] → d.firstFail a n = none →
    (d.hbmRead r a n).2 = (0, (List.range n).map fun i => SMap.get 0 d.hbm (a + i)))

/-- ADDV and SUBV set V exactly on signed overflow, for either carry-in, and write the wrapped result.
At 32 bits, and at 64 bits in a pair: ADDV of x, y and ci and SUBV as x + NOT y + ci give the sum modulo 2^w; V is 1 exactly where the sign bits of
the operands agree (differ) and that of the result differs from that of x; and that is exactly where the signed sum (difference) does not fit. The
word writes DST and its flag bit, and nothing else, whatever V is; a pair writes the low 32 bits of the result to the even word of DST's pair and the
high 32 bits to the odd one, and its flag bit. -/
def Obligations.OverflowFlagIsSignedOverflow : Prop :=
  (∀ (w x y z imm sh pk n t word : Nat) (ci b : Bool), w = 32 ∨ w = 64 → x < 2 ^ w → y < 2 ^ w →
    let a : WaIn := ⟨w, x, y, z, imm, sh, ci, b, pk⟩
    let r := (x + y + ci.toNat) % 2 ^ w
    let v : Bool := x.testBit (w - 1) == y.testBit (w - 1) && r.testBit (w - 1) != x.testBit (w - 1)
    waEval 2 a = ⟨some r, some v, none⟩ ∧
      (v = true ↔ ¬ (-(2 ^ (w - 1)) ≤ toSigned w x + toSigned w y + ci.toNat ∧ toSigned w x + toSigned w y + ci.toNat < (2 : Int) ^ (w - 1))) ∧
      waWrites n t word (w == 64) (waEval 2 a) =
        (if w = 64 then [.word n t (waDst word / 2 * 2) (r % 2 ^ 32), .word n t (waDst word / 2 * 2 + 1) (r / 2 ^ 32)] else [.word n t (waDst word) r]) ++
          [.bit n t (waTbit word) v]) ∧
  (∀ (w x y z imm sh pk n t word : Nat) (ci b : Bool), w = 32 ∨ w = 64 → x < 2 ^ w → y < 2 ^ w →
    let a : WaIn := ⟨w, x, y, z, imm, sh, ci, b, pk⟩
    let r := (x + (2 ^ w - 1 - y) + ci.toNat) % 2 ^ w
    let v : Bool := x.testBit (w - 1) != y.testBit (w - 1) && r.testBit (w - 1) != x.testBit (w - 1)
    waEval 4 a = ⟨some r, some v, none⟩ ∧
      (v = true ↔ ¬ (-(2 ^ (w - 1)) ≤ toSigned w x - toSigned w y - 1 + ci.toNat ∧ toSigned w x - toSigned w y - 1 + ci.toNat < (2 : Int) ^ (w - 1))) ∧
      waWrites n t word (w == 64) (waEval 4 a) =
        (if w = 64 then [.word n t (waDst word / 2 * 2) (r % 2 ^ 32), .word n t (waDst word / 2 * 2 + 1) (r / 2 ^ 32)] else [.word n t (waDst word) r]) ++
          [.bit n t (waTbit word) v])

/-- MULL gives the low 32 bits of the product, the same for signed and unsigned operands.
For all 32-bit x and y, MULL gives one value that is the product of the unsigned operands, and of the operands as two's-complement numbers, modulo
2^32. With x = 0xFFFF_FFFF and y = 2, MULL gives 0xFFFF_FFFE, MULHU gives 1 and MULHS gives 0xFFFF_FFFF. -/
def Obligations.MullIsTheSameForSignedOperands : Prop :=
  (∀ (x y z imm sh pk : Nat) (ci b : Bool), x < 2 ^ 32 → y < 2 ^ 32 →
    ∃ v : Nat, waEval 8 ⟨32, x, y, z, imm, sh, ci, b, pk⟩ = ⟨some v, none, none⟩ ∧ v = x * y % 2 ^ 32 ∧
      (v : Int) = toSigned 32 x * toSigned 32 y % 2 ^ 32) ∧
  (∀ (z imm sh pk : Nat) (ci b : Bool),
    waEval 8 ⟨32, 0xFFFFFFFF, 2, z, imm, sh, ci, b, pk⟩ = ⟨some 0xFFFFFFFE, none, none⟩ ∧
      waEval 9 ⟨32, 0xFFFFFFFF, 2, z, imm, sh, ci, b, pk⟩ = ⟨some 1, none, none⟩ ∧
      waEval 10 ⟨32, 0xFFFFFFFF, 2, z, imm, sh, ci, b, pk⟩ = ⟨some 0xFFFFFFFF, none, none⟩)

/-- A shift or rotate by 0 returns x, and variable shifts and EXTV use only the low five bits of y.
At 32 bits: a shift or rotate by an immediate amount of 0, and a variable shift by an amount whose low five bits are 0, give x unchanged; a variable
shift and EXTV give the same for y as for y modulo 32, so that a shift by 32 or more is a shift by the amount modulo 32. -/
def Obligations.ShiftAmountsWrapAt32 : Prop :=
  (∀ (op x y z imm pk : Nat) (ci b : Bool), op = 0x20 ∨ op = 0x21 ∨ op = 0x22 ∨ op = 0x23 → x < 2 ^ 32 →
    waEval op ⟨32, x, y, z, imm, 0, ci, b, pk⟩ = ⟨some x, none, none⟩) ∧
  (∀ (op x y z imm sh pk : Nat) (ci b : Bool), op = 0x24 ∨ op = 0x25 ∨ op = 0x26 → x < 2 ^ 32 → y % 32 = 0 →
    waEval op ⟨32, x, y, z, imm, sh, ci, b, pk⟩ = ⟨some x, none, none⟩) ∧
  (∀ (op x y z imm sh pk : Nat) (ci b : Bool), op = 0x24 ∨ op = 0x25 ∨ op = 0x26 ∨ op = 0x33 →
    waEval op ⟨32, x, y, z, imm, sh, ci, b, pk⟩ = waEval op ⟨32, x, y % 32, z, imm, sh, ci, b, pk⟩)

/-- A run of WSS words from a base is read and written at addresses modulo 256.
Word base + i of a tile's WSS is word (base + i) AND 0xFF, read and written: a single word, each word of a run that is read, and each word of a run
that is written, under the rule of the range in which its wrapped address lies. -/
def Obligations.WordRunsWrapModulo256 : Prop :=
  (∀ (d : Dev) (n t a i : Nat), d.wss n t (a + i) = d.wss n t ((a + i) % 256)) ∧
  (∀ (d : Dev) (n t a k i : Nat), i < k → bitsAt (d.wssRun n t a k) (32 * i) 32 = d.wss n t ((a + i) % 256)) ∧
  (∀ (s : Stores) (n t a k v : Nat),
    s.applyAll (wordWrites n t a k v) = s.applyAll ((List.range k).map fun i => .word n t ((a + i) % 256) (bitsAt v (32 * i) 32)))

/-- Commit makes every state entry and word of the cluster take its next copy and leaves other clusters alone.
After the commit of cluster n, the current copy of each of its state entries and state words is what its next copy was, and the next copy equals it;
the copies of every other cluster are unchanged. -/
def Obligations.CommitMovesNextToCurrent : Prop :=
  (∀ (s : Stores) (n k : Nat),
    SMap.get false (s.commit n).cur k =
      (if n * 32768 ≤ k ∧ k < n * 32768 + 32768 then (SMap.get? s.nxt k).getD (SMap.get false s.cur k) else SMap.get false s.cur k) ∧
    SMap.get? (s.commit n).nxt k = if n * 32768 ≤ k ∧ k < n * 32768 + 32768 then none else SMap.get? s.nxt k) ∧
  (∀ (s : Stores) (n k : Nat),
    SMap.get 0 (s.commit n).curW k =
      (if n * 2048 ≤ k ∧ k < n * 2048 + 2048 then (SMap.get? s.nxtW k).getD (SMap.get 0 s.curW k) else SMap.get 0 s.curW k) ∧
    SMap.get? (s.commit n).nxtW k = if n * 2048 ≤ k ∧ k < n * 2048 + 2048 then none else SMap.get? s.nxtW k)

/-- A register write to the power unit's page changes no register of another page and no other state.
On a device with nothing waiting to be settled, a 32-bit write of the PF to a register of the power unit's own changes nothing but fields of that
page: every field that lies outside the page reads as before, and every other part of the device (memories, stores, queues, power state, links, log,
time) is the same. -/
def Obligations.PowerUnitWriteTouchesNothingElse : Prop :=
  ∀ (d : Dev) (q : List Instr) (o v : Nat), d.HubPage pPMU → d.Quiet → o % 4 = 0 → 0x100 ≤ o → o < 0x800 →
      pairAt pPMU o = false → pairAt pPMU (o - 4) = false →
    ∃ t : State, exec (.registerWrite .pf (pPMU + o) v false) ⟨d, q⟩ = .next t ∧ t.pending = q ∧ t.dev = { d with fld := t.dev.fld, bus := [] } ∧
      ∀ (base : Nat) (f : Fld), (base + f.off + 4 ≤ pPMU ∨ pPMU + 0x1000 ≤ base + f.off) → f.lo < 32 → t.dev.g base f = d.g base f

/-- START, RESUME, STEP_CYCLES, STEP_STEPS, STOP, FREEZE and HARD_FREEZE take effect, and the lead of a linked partition sends the first five.
In an unlinked partition whose checks hold, each SEQ_CMD command completes with CMD_ERR 0 and its effect: START begins emulated time anew, RESUME and
the two STEP commands let the partition run on, without a count or with STEP_COUNT as its count, STOP stops it, FREEZE waits for a boundary with cause
1, HARD_FREEZE stops the partition between two steps, or at a boundary where a freeze settles, with cause 9 (what it does there is the model's choice,
log entry 10). START, RESUME and the STEP commands bring the partition's clusters ON first. In a linked partition a START, RESUME, STEP_CYCLES,
STEP_STEPS or STOP that no check refuses sets CMD_ERR to 0, waits on the lead with STEP_COUNT as its count, and goes out as a COMMAND message with
distance 0 on the partition's AL2 links that are UP. That the checks run on the lead before the command is sent is log entry 37, and what the lead
learns of the other devices' checks is free (log entry 60). Completion: exec of start, resume, stepCycles, stepSteps, stop, freeze, hardFreeze answers
the next state written out, for every state and operands that meet the conditions before it. -/
def Obligations.SequencerCommandsTakeEffect : Prop :=
  (∀ (d : Dev) (q : List Instr) (p : Fin 16),
      d.Takes p → d.linked p = false → d.seqState p = 0 → d.b (pPTN p) PTN_SEQ_STATUS_LOADED = true → d.tableChecks p = 0 →
      exec (.start p) ⟨d, q⟩ = .next ⟨(((d.p (pPTN p) PTN_SEQ_STATUS_CMD_ERR 0).wakeAll p).startNow p).finish, q⟩) ∧
  (∀ (d : Dev) (q : List Instr) (p : Fin 16),
      d.Takes p → d.linked p = false → d.snapBusy p = false → d.seqState p = 3 ∨ d.seqState p = 2 ∧ d.tableChecks p = 0 →
      exec (.resume p) ⟨d, q⟩ = .next ⟨(((d.p (pPTN p) PTN_SEQ_STATUS_CMD_ERR 0).wakeAll p).resumeNow p none none).finish, q⟩) ∧
  (∀ (d : Dev) (q : List Instr) (p : Fin 16),
      d.Takes p → d.linked p = false → d.snapBusy p = false → d.seqState p = 3 ∨ d.seqState p = 2 ∧ d.tableChecks p = 0 → d.g (pPTN p) PTN_STEP_COUNT_COUNT ≠ 0 →
      exec (.stepCycles p) ⟨d, q⟩ = .next ⟨(((d.p (pPTN p) PTN_SEQ_STATUS_CMD_ERR 0).wakeAll p).resumeNow p (some (d.g (pPTN p) PTN_STEP_COUNT_COUNT)) none).finish, q⟩) ∧
  (∀ (d : Dev) (q : List Instr) (p : Fin 16),
      d.Takes p → d.linked p = false → d.snapBusy p = false → d.seqState p = 3 → d.g (pPTN p) PTN_STEP_COUNT_COUNT ≠ 0 →
      exec (.stepSteps p) ⟨d, q⟩ = .next ⟨(((d.p (pPTN p) PTN_SEQ_STATUS_CMD_ERR 0).wakeAll p).resumeNow p none (some (d.g (pPTN p) PTN_STEP_COUNT_COUNT))).finish, q⟩) ∧
  (∀ (d : Dev) (q : List Instr) (p : Fin 16),
      d.Takes p → d.linked p = false → d.seqState p ≠ 0 → d.snapBusy p = false →
      exec (.stop p) ⟨d, q⟩ = .next ⟨((d.p (pPTN p) PTN_SEQ_STATUS_CMD_ERR 0).stopNow p).finish, q⟩) ∧
  (∀ (d : Dev) (q : List Instr) (p : Fin 16),
      d.Takes p → d.linked p = false → d.seqState p = 1 ∧ d.settling p = false ∨ d.seqState p = 3 →
      exec (.freeze p) ⟨d, q⟩ = .next ⟨(((d.p (pPTN p) PTN_SEQ_STATUS_CMD_ERR 0).modPtn p fun x => { x with pend := x.pend ++ [1] }).on (pPTN p) PTN_SEQ_STATUS_FREEZE_PENDING).finish, q⟩) ∧
  (∀ (d : Dev) (q : List Instr) (p : Fin 16),
      d.Takes p → d.linked p = false → d.seqState p = 1 → d.settling p = false → (d.ptnAt p).due = .none →
      exec (.hardFreeze p) ⟨d, q⟩ = .next ⟨((d.p (pPTN p) PTN_SEQ_STATUS_CMD_ERR 0).enterHard p 9).finish, q⟩) ∧
  (∀ (d : Dev) (q : List Instr) (p : Fin 16),
      d.Takes p → d.linked p = false → d.seqState p = 1 → d.settling p = true →
      exec (.hardFreeze p) ⟨d, q⟩ = .next ⟨((d.p (pPTN p) PTN_SEQ_STATUS_CMD_ERR 0).enterHard p 9).finish, q⟩) ∧
  (∀ (d : Dev) (q : List Instr) (p : Fin 16),
      d.Takes p → d.linked p = true → d.notLead p = false → d.checksOf p 1 (d.g (pPTN p) PTN_STEP_COUNT_COUNT) = 0 →
      exec (.start p) ⟨d, q⟩ =
        (.next ⟨(if Config.farChecks d.fresh ∈ [1, 2, 3, 4, 5, 11, 12, 9] then
          (d.tick.p (pPTN p) PTN_SEQ_STATUS_CMD_ERR (Config.farChecks d.fresh)).irq (pPTN p) 2
        else ((d.tick.p (pPTN p) PTN_SEQ_STATUS_CMD_ERR 0).modPtn p fun x => { x with linkCmd := x.linkCmd ++ [(1, d.g (pPTN p) PTN_STEP_COUNT_COUNT)] }).controlPtn p 6
          (Dev.cmdBody p 1 (d.g (pPTN p) PTN_STEP_COUNT_COUNT) 0)).finish, q⟩)) ∧
  (∀ (d : Dev) (q : List Instr) (p : Fin 16),
      d.Takes p → d.linked p = true → d.refusal p 2 = 0 →
      exec (.resume p) ⟨d, q⟩ =
        (.next ⟨(((d.p (pPTN p) PTN_SEQ_STATUS_CMD_ERR 0).modPtn p fun x => { x with linkCmd := x.linkCmd ++ [(2, d.g (pPTN p) PTN_STEP_COUNT_COUNT)] }).controlPtn p 6
        (Dev.cmdBody p 2 (d.g (pPTN p) PTN_STEP_COUNT_COUNT) 0)).finish, q⟩)) ∧
  (∀ (d : Dev) (q : List Instr) (p : Fin 16),
      d.Takes p → d.linked p = true → d.refusal p 5 = 0 →
      exec (.stepCycles p) ⟨d, q⟩ =
        (.next ⟨(((d.p (pPTN p) PTN_SEQ_STATUS_CMD_ERR 0).modPtn p fun x => { x with linkCmd := x.linkCmd ++ [(5, d.g (pPTN p) PTN_STEP_COUNT_COUNT)] }).controlPtn p 6
        (Dev.cmdBody p 5 (d.g (pPTN p) PTN_STEP_COUNT_COUNT) 0)).finish, q⟩)) ∧
  (∀ (d : Dev) (q : List Instr) (p : Fin 16),
      d.Takes p → d.linked p = true → d.refusal p 6 = 0 →
      exec (.stepSteps p) ⟨d, q⟩ =
        (.next ⟨(((d.p (pPTN p) PTN_SEQ_STATUS_CMD_ERR 0).modPtn p fun x => { x with linkCmd := x.linkCmd ++ [(6, d.g (pPTN p) PTN_STEP_COUNT_COUNT)] }).controlPtn p 6
        (Dev.cmdBody p 6 (d.g (pPTN p) PTN_STEP_COUNT_COUNT) 0)).finish, q⟩)) ∧
  (∀ (d : Dev) (q : List Instr) (p : Fin 16),
      d.Takes p → d.linked p = true → d.refusal p 7 = 0 →
      exec (.stop p) ⟨d, q⟩ =
        (.next ⟨(((d.p (pPTN p) PTN_SEQ_STATUS_CMD_ERR 0).modPtn p fun x => { x with linkCmd := x.linkCmd ++ [(7, d.g (pPTN p) PTN_STEP_COUNT_COUNT)] }).controlPtn p 6
        (Dev.cmdBody p 7 (d.g (pPTN p) PTN_STEP_COUNT_COUNT) 0)).finish, q⟩))

/-- A sequencer command that a check refuses only sets CMD_ERR and the CMD_ERR interrupt; an undefined code sets CMD_ERR to 7.
A command whose first failing check gives a non-zero CMD_ERR code changes nothing but CMD_ERR and, with IRQ_RAW bit 2, the CMD_ERR interrupt of the
partition's page. A SEQ_CMD code that is not defined is refused with code 7. Completion: exec of start, resume, stepCycles, stepSteps, stop, freeze,
hardFreeze, seqCmdInvalid answers the next state written out, for every state and operands that meet the conditions before it. -/
def Obligations.RefusedSequencerCommandsSetCmdErr : Prop :=
  (∀ (d : Dev) (q : List Instr) (p : Fin 16),
      d.Takes p → d.refusal p 1 ≠ 0 →
      exec (.start p) ⟨d, q⟩ = .next ⟨(((d.iff (d.linked p) Dev.tick).p (pPTN p) PTN_SEQ_STATUS_CMD_ERR (d.refusal p 1)).irq (pPTN p) 2).finish, q⟩) ∧
  (∀ (d : Dev) (q : List Instr) (p : Fin 16),
      d.Takes p → d.refusal p 2 ≠ 0 →
      exec (.resume p) ⟨d, q⟩ = .next ⟨((d.p (pPTN p) PTN_SEQ_STATUS_CMD_ERR (d.refusal p 2)).irq (pPTN p) 2).finish, q⟩) ∧
  (∀ (d : Dev) (q : List Instr) (p : Fin 16),
      d.Takes p → d.refusal p 5 ≠ 0 →
      exec (.stepCycles p) ⟨d, q⟩ = .next ⟨((d.p (pPTN p) PTN_SEQ_STATUS_CMD_ERR (d.refusal p 5)).irq (pPTN p) 2).finish, q⟩) ∧
  (∀ (d : Dev) (q : List Instr) (p : Fin 16),
      d.Takes p → d.refusal p 6 ≠ 0 →
      exec (.stepSteps p) ⟨d, q⟩ = .next ⟨((d.p (pPTN p) PTN_SEQ_STATUS_CMD_ERR (d.refusal p 6)).irq (pPTN p) 2).finish, q⟩) ∧
  (∀ (d : Dev) (q : List Instr) (p : Fin 16),
      d.Takes p → d.refusal p 7 ≠ 0 →
      exec (.stop p) ⟨d, q⟩ = .next ⟨((d.p (pPTN p) PTN_SEQ_STATUS_CMD_ERR (d.refusal p 7)).irq (pPTN p) 2).finish, q⟩) ∧
  (∀ (d : Dev) (q : List Instr) (p : Fin 16),
      d.Takes p → d.refusal p 3 ≠ 0 →
      exec (.freeze p) ⟨d, q⟩ = .next ⟨((d.p (pPTN p) PTN_SEQ_STATUS_CMD_ERR (d.refusal p 3)).irq (pPTN p) 2).finish, q⟩) ∧
  (∀ (d : Dev) (q : List Instr) (p : Fin 16),
      d.Takes p → d.refusal p 4 ≠ 0 →
      exec (.hardFreeze p) ⟨d, q⟩ = .next ⟨((d.p (pPTN p) PTN_SEQ_STATUS_CMD_ERR (d.refusal p 4)).irq (pPTN p) 2).finish, q⟩) ∧
  (∀ (d : Dev) (q : List Instr) (p code : Fin 16),
      d.Takes p → code.val = 0 ∨ 8 ≤ code.val →
      exec (.seqCmdInvalid p code) ⟨d, q⟩ = .next ⟨((d.p (pPTN p) PTN_SEQ_STATUS_CMD_ERR 7).irq (pPTN p) 2).finish, q⟩)

/-- Which CMD_ERR code a sequencer command is refused with, in the order of its checks.
For an unlinked partition: START is refused with 1 outside STOPPED, then 2 without a loaded personality, then with the code of the first table check
that fails; RESUME and the STEP commands with 10 while a snapshot runs, then 1 in a state that does not take them (STEP_STEPS only HARD_FROZEN, the
others FROZEN too), then the STEP commands with 6 for STEP_COUNT 0, and from FROZEN RESUME and STEP_CYCLES with the code of the table check that
fails; STOP with 10 while a snapshot runs, then 1 in STOPPED. With none of these they are refused with 0. FREEZE is refused with 1 only in STOPPED;
HARD_FREEZE with 1 outside RUNNING. In a linked partition that is not the lead's, START, RESUME, the STEP commands and STOP are refused with 13 before
any other check, which is the model's choice (log entry 60). -/
def Obligations.FirstFailingCheckOfACommand : Prop :=
  (∀ (d : Dev) (i cmd : Nat), d.linked i = false →
      d.refusal i 1 = (if d.seqState i ≠ 0 then 1 else if d.b (pPTN i) PTN_SEQ_STATUS_LOADED = false then 2 else d.tableChecks i) ∧
      (cmd ∈ [2, 5, 6] → d.refusal i cmd =
        if d.snapBusy i = true then 10
        else if ¬ (d.seqState i = 3 ∨ d.seqState i = 2 ∧ cmd ≠ 6) then 1
        else if cmd ≠ 2 ∧ d.g (pPTN i) PTN_STEP_COUNT_COUNT = 0 then 6
        else if d.seqState i = 2 then d.tableChecks i else 0) ∧
      d.refusal i 7 = (if d.snapBusy i = true then 10 else if d.seqState i = 0 then 1 else 0)) ∧
  (∀ (d : Dev) (i : Nat), (d.refusal i 3 = 1 ↔ d.seqState i = 0) ∧ (d.refusal i 3 = 0 ↔ d.seqState i ≠ 0) ∧
      (d.refusal i 4 = 0 ↔ d.seqState i = 1) ∧ (d.refusal i 4 = 1 ↔ d.seqState i ≠ 1)) ∧
  (∀ (d : Dev) (i cmd : Nat), d.linked i = true → d.b (pPTN i) PTN_LINK_CFG_LEAD = false → cmd ∈ [1, 2, 5, 6, 7] → d.refusal i cmd = 13)

/-- A count, a limit or a cascade that a boundary reached freezes the partition; a stall ends; a pending freeze escalates.
RUN_LIMIT and the step counts freeze a partition at the boundary that reached them with cause 2, a cascade of 8 passes with cause 4; a STEP_STEPS
count that ends inside a cycle is spent, and the partition stays as it is; a held step executes once no port blocks it; a pending freeze escalates to
a hard freeze after its TIMEOUT while the partition is stalled. That a STEP_STEPS count whose last step ends the cycle freezes at that boundary is the
model's choice (log entry 59). Completion: exec of cascadeLimit, runLimitReached, stepCyclesCountReached, stepStepsCountReached, stallRelease,
freezeTimeout answers the next state written out, for every state and operands that meet the conditions before it. -/
def Obligations.BoundaryEventsFreeze : Prop :=
  (∀ (d : Dev) (q : List Instr) (p : Fin 16),
      d.active = true → d.seqState p ≠ 0 → (d.ptnAt p).due = .cascade →
      exec (.cascadeLimit p) ⟨d, q⟩ = .next ⟨(d.enterFreeze p 4).finish, q⟩) ∧
  (∀ (d : Dev) (q : List Instr) (p : Fin 16),
      d.active = true → d.seqState p ≠ 0 → (d.ptnAt p).due = .runLimit →
      exec (.runLimitReached p) ⟨d, q⟩ = .next ⟨(d.enterFreeze p 2).finish, q⟩) ∧
  (∀ (d : Dev) (q : List Instr) (p : Fin 16),
      d.active = true → d.seqState p ≠ 0 → (d.ptnAt p).due = .stepCycles →
      exec (.stepCyclesCountReached p) ⟨d, q⟩ = .next ⟨(d.enterFreeze p 2).finish, q⟩) ∧
  (∀ (d : Dev) (q : List Instr) (p : Fin 16),
      d.active = true → d.seqState p ≠ 0 → (d.ptnAt p).due = .stepSteps →
      exec (.stepStepsCountReached p) ⟨d, q⟩ = .next ⟨(d.enterFreeze p 2).finish, q⟩) ∧
  (∀ (d : Dev) (q : List Instr) (p : Fin 16),
      d.active = true → (d.ptnAt p).due = .none → (d.ptnAt p).stepsLeft = some 0 →
      exec (.stepStepsCountReached p) ⟨d, q⟩ = .next ⟨(d.modPtn p fun x => { x with stepsLeft := none }).finish, q⟩) ∧
  (∀ (d : Dev) (q : List Instr) (p : Fin 16) (es seg u n : Nat) (segs : List SegRun) (rest : List EsRun),
      d.active = true → (d.ptnAt p).runs = ⟨es, ⟨seg, u, n⟩ :: segs⟩ :: rest → d.b (pPTN p) PTN_SEQ_STATUS_STALLED = true → d.blockers p u = 0 →
      exec (.stallRelease p) ⟨d, q⟩ = .next ⟨(d.doExecuteStep p).finish, q⟩) ∧
  (∀ (d : Dev) (q : List Instr) (p : Fin 16) (c : Nat) (cs : List Nat),
      d.active = true → d.seqState p = 1 → d.settling p = false → d.b (pPTN p) PTN_SEQ_STATUS_FREEZE_PENDING = true → d.b (pPTN p) PTN_SEQ_STATUS_STALLED = true → d.g (pPTN p) PTN_FREEZE_CFG_TIMEOUT ≠ 0 → d.linked p = false → (d.ptnAt p).pend = c :: cs →
      exec (.freezeTimeout p) ⟨d, q⟩ = .next ⟨(((d.on (pPTN p) PTN_SEQ_STATUS_ESCALATED).irq (pPTN p) 3).enterHard p (Dev.lowest c cs)).finish, q⟩)

/-- A BP word's result is the TT bit its four operands select; it goes to the result window and, by STATE_OP, to a state entry.
The result of a BP word is bit 8 d + 4 c + 2 b + a of the word, where a, b, c and d are the bits read through SRC_A to SRC_D. A HOLD word writes
nothing. Any other word of BP b at step s writes its result to window entry ((s mod 32) << 6) | b, and no other window entry, fabric input or word;
STATE_OP 1, 2 where D reads 1, and 3 write the result to the next copy of the named state entry, 3 alone writes its current copy, and every other
entry keeps both copies. -/
def Obligations.BpWordsComputeAndWrite : Prop :=
  (∀ (d : Dev) (n t w : Nat), d.bpResult n t w =
      w.testBit (8 * (d.tss n t (w >>> 52 % 4096)).toNat + 4 * (d.tss n t (w >>> 40 % 4096)).toNat +
        2 * (d.tss n t (w >>> 28 % 4096)).toNat + (d.tss n t (w >>> 16 % 4096)).toNat)) ∧
  (∀ (d : Dev) (n t b u w : Nat), w.testBit 77 = true → d.bpWrites n t b u w = []) ∧
  (∀ (d : Dev) (n t b u w : Nat), w.testBit 77 = false → b < 64 →
      let e := d.setSt (d.st.applyAll (d.bpWrites n t b u w)); let r := d.bpResult n t w
      (∀ a, a < 0xC00 → e.tss n t a = if a = 64 * (u % 32) + b then r else d.tss n t a) ∧
      (∀ a, e.wss n t a = d.wss n t a) ∧
      let op := w >>> 74 % 4; let k := tileIx n t * 1024 + w >>> 64 % 1024
      ∀ j, e.tssNext j = (if j = k ∧ (op = 1 ∨ op = 3 ∨ op = 2 ∧ d.tss n t (w >>> 52 % 4096) = true) then r else d.tssNext j) ∧
        SMap.get false e.st.cur j = if j = k ∧ op = 3 then r else SMap.get false d.st.cur j)

/-- Of several writers to one copy in one step the highest-ranked keeps its value; everything else keeps what it held.
After the writes of a step, in ascending rank, a scratch word, fabric word input or fabric input entry holds what the highest-ranked write to it
brought, else what it held before; a state word or state entry keeps its current copy but for an immediate write, and its next copy is what the
highest-ranked write to it brought. The writes of a cluster stand in the ascending rank of R446: its BPs, its WALUs, its transactor read ports, its
far ports, its design memories; the step puts the fabric arrivals after them. -/
def Obligations.SimultaneousWritersRank : Prop :=
  (∀ (d : Dev) (ws : List Wr) (n t a : Nat), t < 32 → (∀ w ∈ ws, w.tile.2 < 32) →
      (a < 0xC0 → (d.setSt (d.st.applyAll ws)).wss n t a = ((kept (Wr.toWord n t a) ws).map (·.toNat)).getD (d.wss n t a)) ∧
      (0xC0 ≤ a → a < 0x100 → (d.setSt (d.st.applyAll ws)).wss n t a = d.wss n t a ∧
        (d.setSt (d.st.applyAll ws)).wssNext (tileIx n t * 64 + (a - 0xC0)) = (kept (Wr.toWord n t a) ws).getD (d.wssNext (tileIx n t * 64 + (a - 0xC0)))) ∧
      (0x800 ≤ a → a < 0xC00 → (d.setSt (d.st.applyAll ws)).tss n t a = (kept (Wr.toBit n t a) ws).getD (d.tss n t a)) ∧
      (0xC00 ≤ a → a < 0x1000 → (d.setSt (d.st.applyAll ws)).tssNext (tileIx n t * 1024 + (a - 0xC00)) = (kept (Wr.toBit n t a) ws).getD (d.tssNext (tileIx n t * 1024 + (a - 0xC00))) ∧
        (d.setSt (d.st.applyAll ws)).tss n t a = (kept (Wr.toCur n t a) ws).getD (d.tss n t a))) ∧
  (∀ (d : Dev) (i u n : Nat), d.portsRun i n u = true →
      let bp := d.runBps i n u; let wa := bp.1.runWalus i n u
      let tx := wa.1.runPorts [7, 6, 5, 4, 3, 2, 1, 0] (fun d x => d.txpRead n x u)
      let fa := tx.1.runPorts [3, 2, 1, 0] (fun d f => d.farUse n f u)
      (d.runCluster i u n).2 = bp.2 ++ wa.2 ++ tx.2 ++ fa.2 ++ (fa.1.takeReads i n).2)

/-- A commit samples the derived clock sources; a change is an edge except on a first sample; a freeze or resume takes no sample.
Sampling reads the current copy of the entry of every source of TYPE derived: a change from 0 to 1 adds a rising edge, one from 1 to 0 a falling edge,
and a source without a sample gets its first one with no edge; edges of other sources stay. A commit samples the copies it has just committed.
Entering FROZEN or HARD_FROZEN and resuming keep the samples as they were. A source that is no longer derived loses its sample. -/
def Obligations.DerivedClockSamples : Prop :=
  (∀ (d : Dev) (i k : Nat), let x := d.ptnAt i; let y := (d.sampleClocks i).ptnAt i; let src := decide (k < 32 ∧ d.g (pPTN i) (PTN_CLK_TYPE k) = 2); let v := d.derivedValue i k
      y.sampled.testBit k = src ∧ y.samples.testBit k = (src && v) ∧
      y.rises.testBit k = (x.rises.testBit k || (src && x.sampled.testBit k && v && !x.samples.testBit k)) ∧
      y.falls.testBit k = (x.falls.testBit k || (src && x.sampled.testBit k && !v && x.samples.testBit k))) ∧
  (∀ (d : Dev) (i e k : Nat), let s := (d.execClusters i).foldl Stores.commit d.st
      ((d.commitSet i e).ptnAt i).samples.testBit k = (decide (k < 32 ∧ d.g (pPTN i) (PTN_CLK_TYPE k) = 2) &&
        SMap.get false s.cur (tileIx (d.g (pPTN i) (PTN_CLK_CLUSTER k)) (d.g (pPTN i) (PTN_CLK_TILE k)) * 1024 + d.g (pPTN i) (PTN_CLK_ENTRY k)))) ∧
  (∀ (d : Dev) (i c : Nat) (cy st : Option Nat), ∀ e ∈ [d.enterFreeze i c, d.enterHard i c, d.resumeNow i cy st],
      (e.ptnAt i).samples = (d.ptnAt i).samples ∧ (e.ptnAt i).sampled = (d.ptnAt i).sampled) ∧
  (∀ (d : Dev) (i k : Nat), ((d.dropSamples i).ptnAt i).sampled.testBit k = ((d.ptnAt i).sampled.testBit k && decide (k < 32 ∧ d.g (pPTN i) (PTN_CLK_TYPE k) = 2)))

/-- A design memory write reads back from its entry and changes no other; a read captures its entry and is delivered after the next step.
An outstanding write to a sound row lands with valid check bits: its entry reads the data, every other entry of the row and every other row is as
before, and no register changes. A write event takes its address from the word ADDR of its tile and its data from the words or bits at DATA, unless
its condition reads 0; a read event captures its entry, or zero where the address is past the end, which raises nothing. What the reads of an unfused
cluster captured is written to the tile at the end of the next executed step, and nothing else is. A write past the end is discarded. Detections in
unsound rows are R133's, not stated here. -/
def Obligations.DesignMemoryPortEvents : Prop :=
  (∀ (d : Dev) (n m a v : Nat), let w := d.g (pCLU n) (CLU_DMEM_CFG_WIDTH m); let k := ixRow n m (a % 8192); let row := d.rowEcc k
      a < 8192 * Dev.perRow w → (d.cluAt n).dwr = [⟨m, a, v⟩] → secdedCheck 96 103 row.data.toNat row.chk.toNat = .ok →
      let e := d.landWrites n
      bitsAt (e.rowEcc k).data.toNat (a / 8192 * w) w = v % 2 ^ w ∧
      secdedCheck 96 103 (e.rowEcc k).data.toNat (e.rowEcc k).chk.toNat = .ok ∧
      (∀ f, f < Dev.perRow w → f ≠ a / 8192 → bitsAt (e.rowEcc k).data.toNat (f * w) w = bitsAt row.data.toNat (f * w) w) ∧
      (∀ j, j ≠ k → e.rowEcc j = d.rowEcc j) ∧ (e.cluAt n).dwr = [] ∧ e.fld = d.fld) ∧
  (∀ (d : Dev) (n m a v : Nat), 8192 * Dev.perRow (d.g (pCLU n) (CLU_DMEM_CFG_WIDTH m)) ≤ a → d.mergeEntry n m a v = d) ∧
  (∀ (d : Dev) (c n m e : Nat), d.g (pCLU n) (CLU_DMEM_EV_PORT m e) = 2 →
      let w := d.g (pCLU n) (CLU_DMEM_CFG_WIDTH m); let t := d.g (pCLU n) (CLU_DMEM_EV_TILE m e); let dst := d.g (pCLU n) (CLU_DMEM_EV_DATA m e)
      if d.b (pCLU n) (CLU_DMEM_EV_CEN m e) = true ∧ d.tss c t (d.g (pCLU n) (CLU_DMEM_EV_COND m e)) = false then d.doEvent c n m e = d
      else ∃ v, d.doEvent c n m e = (d.modClu n fun x => { x with dwr := x.dwr ++ [⟨m, d.wss c t (d.g (pCLU n) (CLU_DMEM_EV_ADDR m e)) % 2 ^ 20, v⟩] }) ∧
        (d.b (pCLU n) (CLU_DMEM_EV_MODE m e) = false → v = d.wssRun c t dst ((w + 31) / 32) % 2 ^ w) ∧
        (d.b (pCLU n) (CLU_DMEM_EV_MODE m e) = true → dst + w ≤ 0x1000 → ∀ j, j < w → v.testBit j = d.tss c t (dst + j))) ∧
  (∀ (d : Dev) (c n m e : Nat), d.g (pCLU n) (CLU_DMEM_EV_PORT m e) ≠ 2 →
      let w := d.g (pCLU n) (CLU_DMEM_CFG_WIDTH m); let t := d.g (pCLU n) (CLU_DMEM_EV_TILE m e)
      let a := d.wss c t (d.g (pCLU n) (CLU_DMEM_EV_ADDR m e)) % 2 ^ 20; let row := d.rowEcc (ixRow n m (a % 8192))
      (8192 * Dev.perRow w ≤ a ∨ secdedCheck 96 103 row.data.toNat row.chk.toNat = .ok) →
      d.doEvent c n m e = d.modClu n fun x => { x with drd := x.drd ++ [⟨m, e, d.b (pCLU n) (CLU_DMEM_EV_MODE m e), t, d.g (pCLU n) (CLU_DMEM_EV_DATA m e), w,
        if 8192 * Dev.perRow w ≤ a then 0 else bitsAt row.data.toNat (a / 8192 * w) w⟩] }) ∧
  (∀ (d : Dev) (i c : Nat), (d.ptnAt i).fusedMask.testBit (c / 2) = false → (∀ r ∈ (d.cluAt c).drd, r.m < 8 ∧ r.e < 16) →
      (∀ x, x ∈ (d.takeReads i c).2 ↔ ∃ r ∈ (d.cluAt c).drd, x ∈ Dev.readWrites c r) ∧ ((d.takeReads i c).1.cluAt c).drd = [])

/-- A send port drives its source at once or, registered, from the next executed step on; a receive port writes what its selection brings.
A valid send port whose segment is not registered drives its crossbar input in the same step, one segment away: a word, or a bit, as read at the start
of the step. A registered one drives nothing then, and its value is what the segment holds for the next executed step; while a segment holds a value,
that value is on the crossbar input, whatever the schedule sends there. A receive port that selects a send port or the router's local output over at
most 3 unregistered segments writes the word to fabric word input DST[5:0], the bit to fabric input DST, at the end of the step. -/
def Obligations.SignalFabricMovesValues : Prop :=
  (∀ (d : Dev) (i u e n t j m s w fuel : Nat), t < 32 → d.srcOf i n u = some (m, s) → d.portWord (ixPort m t j s) = some w → w.testBit 0 = true →
      SMap.get? d.fab (regTile n t j) = none → Dev.probe i u e d (fuel + 1) n t j = if w.testBit 14 = true then none else some (d.driven n t w, 1)) ∧
  (∀ (d : Dev) (i u e n t j fuel : Nat) (v : Sig), t < 32 → SMap.get? d.fab (regTile n t j) = some v → Dev.probe i u e d (fuel + 1) n t j = some (v, 0)) ∧
  (∀ (d : Dev) (i u e n t j m s w : Nat), n < 64 → t < 32 → j < 8 → s < 256 → n ∈ d.execClusters i → d.srcOf i n u = some (m, s) →
      d.portWord (ixPort m t j s) = some w → w.testBit 0 = true → w.testBit 14 = true → SMap.get? (d.newFabric i u e) (regTile n t j) = some (d.driven n t w)) ∧
  (∀ (d : Dev) (i u e n t j m s w : Nat) (v : Sig) (c : Nat), t < 32 → j < 8 → s < 256 → d.srcOf i n u = some (m, s) →
      d.portWord (ixPort m t (8 + j) s) = some w → w % 64 ≤ 32 → Dev.probe i u e d Dev.chainFuel n (w % 64) j = some (v, c) → c ≤ 2 → v.undef = false →
      (if v.word = true then Wr.word n t (0x80 + w / 64 % 64) v.data.toNat else Wr.bit n t (0x800 + w / 64 % 1024) (v.data.getLsbD 0)) ∈ d.arrivals i u e n)

/-- EXECUTE_STEP of a running, unlinked partition inside a cycle: an executed step, an idle step, a held step.
In a partition that runs, is not linked, and has nothing due: with idle steps left the step is idle and counts; with a scheduled step that no port
blocks, the partition executes that schedule index and moves on; with a blocking port the step is held, STALLED and STALL_SRC are set and STALL_STEPS
counts. POSITION then shows what comes next. A partition with a freeze due at its boundary freezes instead. Completion: exec of executeStep answers
the next state written out, for every state and operands that meet the conditions before it. -/
def Obligations.ExecuteStepTakesOneStep : Prop :=
  (∀ (d : Dev) (q : List Instr) (p : Fin 16),
      d.active = true → d.seqState p = 1 → (d.ptnAt p).settle = none → (d.ptnAt p).due = .none → (d.ptnAt p).freezeAt.any (fun f => f.2.2 && f.1 ≤ (d.ptnAt p).exec) = false → d.b (pPTN p) PTN_POSITION_IN_CYCLE = true → d.linked p = false → (d.ptnAt p).idle ≠ 0 →
      exec (.executeStep p) ⟨d, q⟩ =
        (.next ⟨((fun x : Dev => if x.seqState p == 1 || x.seqState p == 3 then x.showPosition p else x)
          (Dev.advance 64 (d.modPtn p fun x => { x with idle := x.idle - 1, cycleSteps := x.cycleSteps + 1, clock := d.hubClock p }) p)).finish, q⟩)) ∧
  (∀ (d : Dev) (q : List Instr) (p : Fin 16) (es seg u n : Nat) (segs : List SegRun) (rest : List EsRun),
      d.active = true → d.seqState p = 1 → (d.ptnAt p).settle = none → (d.ptnAt p).due = .none → (d.ptnAt p).freezeAt.any (fun f => f.2.2 && f.1 ≤ (d.ptnAt p).exec) = false → d.b (pPTN p) PTN_POSITION_IN_CYCLE = true → d.linked p = false → (d.ptnAt p).idle = 0 → (d.ptnAt p).runs = ⟨es, ⟨seg, u, n⟩ :: segs⟩ :: rest → d.blockers p u = 0 →
      exec (.executeStep p) ⟨d, q⟩ = .next ⟨((fun x : Dev => if x.seqState p == 1 || x.seqState p == 3 then x.showPosition p else x) ((d.executeIndex p u).afterStep p seg)).finish, q⟩) ∧
  (∀ (d : Dev) (q : List Instr) (p : Fin 16) (es seg u n : Nat) (segs : List SegRun) (rest : List EsRun),
      d.active = true → d.seqState p = 1 → (d.ptnAt p).settle = none → (d.ptnAt p).due = .none → (d.ptnAt p).freezeAt.any (fun f => f.2.2 && f.1 ≤ (d.ptnAt p).exec) = false → d.b (pPTN p) PTN_POSITION_IN_CYCLE = true → d.linked p = false → (d.ptnAt p).idle = 0 → (d.ptnAt p).runs = ⟨es, ⟨seg, u, n⟩ :: segs⟩ :: rest → d.blockers p u ≠ 0 →
      exec (.executeStep p) ⟨d, q⟩ = .next ⟨((fun x : Dev => if x.seqState p == 1 || x.seqState p == 3 then x.showPosition p else x) (d.holdStep p (d.blockers p u))).finish, q⟩) ∧
  (∀ (d : Dev) (q : List Instr) (p : Fin 16),
      d.active = true → d.seqState p = 1 → (d.ptnAt p).settle = none → (d.ptnAt p).due ≠ .none →
      exec (.executeStep p) ⟨d, q⟩ = .next ⟨(d.enterFreeze p (Dev.dueCause (d.ptnAt p).due)).finish, q⟩)

/-- A settled freeze shows FROZEN; sequencer tables take writes only while STOPPED or FROZEN; corrected words and rows are written back.
FREEZE_SETTLED shows FROZEN once every far access of the partition has settled, with FREEZE_PENDING 0, its cause, the result windows and scratch words
undefined, its interrupt and event, and the automatic snapshot its cause selects. A table write is stored in STOPPED and FROZEN, where a source that
is no longer derived loses its sample, and otherwise refused with CMD_ERR 8. A pending write-back whose stored word is still correctable stores the
corrected word with fresh check bits, counts and reports it. Completion: exec of freezeSettled, seqTableWrite, correctedWordWriteBack,
dmemRowWriteBack answers the next state written out, for every state and operands that meet the conditions before it. -/
def Obligations.SettlingTablesAndWriteBacks : Prop :=
  (∀ (d : Dev) (q : List Instr) (p : Fin 16) (c : Nat),
      d.active = true → (d.ptnAt p).settle = some c → d.farSettled p = true → d.seqState p = 1 →
      exec (.freezeSettled p) ⟨d, q⟩ =
        (.next ⟨(let f := ((d.p (pPTN p) PTN_SEQ_STATUS_STATE 2).p (pPTN p) PTN_SEQ_STATUS_FREEZE_PENDING 0).modPtn p fun x => { x with settle := none, pend := [] }
        let f := f.p (pPTN p) PTN_SEQ_STATUS_FREEZE_CAUSE c
        let f := ({ f.tick with st := (f.execClusters p).foldl (fun s n => s.forgetWin n (f.fresh + 1)) f.st } : Dev).frozenIrq p
        if 1 ≤ c && (f.g (pPTN p) PTN_SNAP_CFG_AUTO).testBit (c - 1) then f.doSnapSave p else f).finish, q⟩)) ∧
  (∀ (d : Dev) (q : List Instr) (p : Fin 16) (off : Nat) (v : W32),
      d.Takes p → 0x200 ≤ off → off < 0x600 → off % 4 = 0 → d.seqState p = 0 ∨ d.seqState p = 2 →
      exec (.seqTableWrite p off v) ⟨d, q⟩ = .next ⟨((d.writeWord (pPTN p) off v.toNat fldsPTN).dropSamples p).finish, q⟩) ∧
  (∀ (d : Dev) (q : List Instr) (p : Fin 16) (off : Nat) (v : W32),
      d.Takes p → 0x200 ≤ off → off < 0x600 → off % 4 = 0 → d.seqState p = 1 ∨ d.seqState p = 3 →
      exec (.seqTableWrite p off v) ⟨d, q⟩ = .next ⟨((d.p (pPTN p) PTN_SEQ_STATUS_CMD_ERR 8).irq (pPTN p) 2).finish, q⟩) ∧
  (∀ (d : Dev) (q : List Instr) (n : Fin 64) (t : Fin 32) (unit : Fin 64) (a : Fin 256) (v x : Nat),
      d.active = true → (d.cluAt n).bpBack.contains (ixBp n t unit a) = true → secdedCheck 80 87 (d.bpWord (ixBp n t unit a)).data.toNat (d.bpWord (ixBp n t unit a)).chk.toNat = .ce v x →
      exec (.correctedWordWriteBack n false t unit a) ⟨d, q⟩ =
        (.next ⟨(let f := (d.modClu n fun c => { c with bpBack := c.bpBack.filter (· ≠ ixBp n t unit a) }).setBp (ixBp n t unit a) (freshEcc 80 v)
        let f := f.add (pCLU n) CLU_BPI_CE_COUNT_COUNT 1
        f.cluIrq n 0 (f.bpiLast n)).finish, q⟩)) ∧
  (∀ (d : Dev) (q : List Instr) (n : Fin 64) (t : Fin 32) (unit : Fin 64) (a : Fin 256) (v x : Nat),
      d.active = true → (d.cluAt n).wlBack.contains (ixWa n t (unit.val % 2) a) = true → secdedCheck 96 103 (d.waWord (ixWa n t (unit.val % 2) a)).data.toNat (d.waWord (ixWa n t (unit.val % 2) a)).chk.toNat = .ce v x →
      exec (.correctedWordWriteBack n true t unit a) ⟨d, q⟩ =
        (.next ⟨(let f := (d.modClu n fun c => { c with wlBack := c.wlBack.filter (· ≠ ixWa n t (unit.val % 2) a) }).setWa (ixWa n t (unit.val % 2) a) (freshEcc 96 v)
        let f := f.add (pCLU n) CLU_WLI_CE_COUNT_COUNT 1
        f.cluIrq n 2 (f.wliLast n)).finish, q⟩)) ∧
  (∀ (d : Dev) (q : List Instr) (n : Fin 64) (m : Fin 8) (row : Fin 8192) (v x : Nat),
      d.active = true → (d.cluAt n).rowBack.contains (ixRow n m row) = true → secdedCheck 96 103 (d.rowEcc (ixRow n m row)).data.toNat (d.rowEcc (ixRow n m row)).chk.toNat = .ce v x →
      exec (.dmemRowWriteBack n m row) ⟨d, q⟩ = .next ⟨(((d.modClu n fun c => { c with rowBack := c.rowBack.filter (· ≠ ixRow n m row) }).setRow (ixRow n m row) (freshEcc 96 v)).rowBackDone n).finish, q⟩)

/-- Control messages of a linked partition act and are passed on where they are intact, and count where they are not; a hold ends after its GO.
On a link that is UP in AL2, for a linked partition: an intact COMMAND message is passed on with its distance grown by the link's latency and 2, and
waits; a FREEZE or HARD_FREEZE is due at its executed step in a partition that runs, where a freeze shows as FREEZE_PENDING. HOLD(E) is passed on and
recorded, or, where E has passed, sets LATE_HOLD and raises a system-wide freeze; READY(E) and GO(E) mark the hold; STEPS is compared, by the number
the cycle has after its boundary (log entry 64); a hold with GO ends at its step. The oldest waiting command takes effect where the device's own
checks pass, else it only sets CMD_ERR. On an AL1 link, or one that is not UP, such a message changes nothing; one that is not intact, and a broken
BEACON or FREEZE message of a link that is UP, changes nothing but CTL_ERR of its lane group, and on a link that carries slots of a running partition
also sets SLOT_ERR and raises a system-wide freeze. The model's choices (log entry 60): each device checks a command for itself, and a freeze travels
as command 3, a hard freeze as command 4, recorded with causes 1 and 9. Completion: exec of linkedCommand, linkedCommandEffect, hold, ready, go,
systemHoldRelease, steps, beacon, freezeMsg answers the next state written out, for every state and operands that meet the conditions before it. -/
def Obligations.LinkedMessagesArrive : Prop :=
  (∀ (d : Dev) (q : List Instr) (g p : Fin 16) (cmd : Fin 16) (count : W32) (dist : Nat),
      d.active = true → d.al2 g = true → d.linked p = true → cmd ≠ 3 → cmd ≠ 4 →
      exec (.linkedCommand g p cmd count dist true) ⟨d, q⟩ =
        (.next ⟨((d.passOn p g 6 (Dev.cmdBody p cmd count.toNat (dist + d.g pLNK (LNK_BUDGET_BUDGET g) + 2))).modPtn p
          fun x => { x with linkCmd := x.linkCmd ++ [(cmd.val, count.toNat)] }).finish, q⟩)) ∧
  (∀ (d : Dev) (q : List Instr) (g p : Fin 16) (count : W32) (dist : Nat) (f : Dev),
      d.active = true → d.al2 g = true → d.linked p = true → f = d.passOn p g 6 (Dev.cmdBody p 3 count.toNat (dist + d.g pLNK (LNK_BUDGET_BUDGET g) + 2)) → f.settling p = false → f.seqState p = 1 ∨ f.seqState p = 3 →
      exec (.linkedCommand g p 3 count dist true) ⟨d, q⟩ = .next ⟨((f.modPtn p fun x => { x with freezeAt := x.freezeAt ++ [(Dev.stepNear (f.ptnAt p).exec count.toNat, 1, false)] }).on (pPTN p) PTN_SEQ_STATUS_FREEZE_PENDING).finish, q⟩) ∧
  (∀ (d : Dev) (q : List Instr) (g p : Fin 16) (count : W32) (dist : Nat) (f : Dev),
      d.active = true → d.al2 g = true → d.linked p = true → f = d.passOn p g 6 (Dev.cmdBody p 4 count.toNat (dist + d.g pLNK (LNK_BUDGET_BUDGET g) + 2)) → f.settling p = false → f.seqState p = 1 →
      exec (.linkedCommand g p 4 count dist true) ⟨d, q⟩ = .next ⟨(f.modPtn p fun x => { x with freezeAt := x.freezeAt ++ [(Dev.stepNear (f.ptnAt p).exec count.toNat, 9, true)] }).finish, q⟩) ∧
  (∀ (d : Dev) (q : List Instr) (p : Fin 16) (cmd count : Nat) (rest : List (Nat × Nat)),
      d.active = true → (d.ptnAt p).linkCmd = (cmd, count) :: rest → (d.modPtn p fun x => { x with linkCmd := rest }).checksOf p cmd count = 0 →
      exec (.linkedCommandEffect p) ⟨d, q⟩ = .next ⟨((d.modPtn p fun x => { x with linkCmd := rest }).commandNow p cmd count).finish, q⟩) ∧
  (∀ (d : Dev) (q : List Instr) (p : Fin 16) (cmd count k : Nat) (rest : List (Nat × Nat)),
      d.active = true → (d.ptnAt p).linkCmd = (cmd, count) :: rest → (d.modPtn p fun x => { x with linkCmd := rest }).checksOf p cmd count = k → k ≠ 0 →
      exec (.linkedCommandEffect p) ⟨d, q⟩ = .next ⟨(((d.modPtn p fun x => { x with linkCmd := rest }).p (pPTN p) PTN_SEQ_STATUS_CMD_ERR k).irq (pPTN p) 2).finish, q⟩) ∧
  (∀ (d : Dev) (q : List Instr) (g p : Fin 16) (e : Nat) (f : Dev),
      d.active = true → d.al2 g = true → d.linked p = true → f = d.passOn p g 3 (p.val ||| e <<< 4) → (f.ptnAt p).exec ≤ e → (f.ptnAt p).holds.any (fun h => h.e == e) = false →
      exec (.hold g p e true) ⟨d, q⟩ = .next ⟨(f.modPtn p fun x => { x with holds := x.holds ++ [⟨e, false, false, false, 1, 0⟩] }).finish, q⟩) ∧
  (∀ (d : Dev) (q : List Instr) (g p : Fin 16) (e : Nat) (f : Dev),
      d.active = true → d.al2 g = true → d.linked p = true → f = d.passOn p g 3 (p.val ||| e <<< 4) → (f.ptnAt p).exec ≤ e → (f.ptnAt p).holds.any (fun h => h.e == e) = true →
      exec (.hold g p e true) ⟨d, q⟩ = .next ⟨(f.modPtn p fun x => { x with holds := x.holds.map fun h => if h.e == e then { h with heard := h.heard + 1 } else h }).finish, q⟩) ∧
  (∀ (d : Dev) (q : List Instr) (g p : Fin 16) (e : Nat) (f : Dev),
      d.active = true → d.al2 g = true → d.linked p = true → f = d.passOn p g 3 (p.val ||| e <<< 4) → e < (f.ptnAt p).exec →
      exec (.hold g p e true) ⟨d, q⟩ = .next ⟨((f.on pLNK LNK_SYS_STATUS_LATE_HOLD).raiseSysFreeze).finish, q⟩) ∧
  (∀ (d : Dev) (q : List Instr) (g p : Fin 16) (e : Nat),
      d.active = true → d.al2 g = true → d.linked p = true →
      exec (.ready g p e true) ⟨d, q⟩ =
        (.next ⟨(((d.passOn p g 4 (p.val ||| e <<< 4)).modPtn p fun x =>
          { x with holds := x.holds.map fun h => if h.e == e then { h with answered := h.answered + 1 } else h }).leadGo p e).finish, q⟩)) ∧
  (∀ (d : Dev) (q : List Instr) (g p : Fin 16) (e : Nat),
      d.active = true → d.al2 g = true → d.linked p = true →
      exec (.go g p e true) ⟨d, q⟩ = .next ⟨((d.passOn p g 5 (p.val ||| e <<< 4)).modPtn p fun x => { x with holds := x.holds.map fun h => if h.e == e then { h with go := true } else h }).finish, q⟩) ∧
  (∀ (d : Dev) (q : List Instr) (p : Fin 16),
      d.active = true → (d.ptnAt p).holds.any (fun h => h.e == (d.ptnAt p).exec && h.go) = true →
      exec (.systemHoldRelease p) ⟨d, q⟩ =
        (.next ⟨(((d.setPtn p { d.ptnAt p with holds := (d.ptnAt p).holds.filter (fun h => h.e ≠ (d.ptnAt p).exec) }).p (pPTN p) PTN_SEQ_STATUS_STALLED 0).p
          (pPTN p) PTN_SEQ_STATUS_STALL_SRC 0).finish, q⟩)) ∧
  (∀ (d : Dev) (q : List Instr) (g p : Fin 16) (cycle : BitVec 48) (count : Nat),
      d.active = true → d.al2 g = true → d.linked p = true →
      exec (.steps g p cycle count true) ⟨d, q⟩ = .next ⟨(Dev.compareSteps { d with sys := { d.sys with skew := (16 + p.val, cycle.toNat, count) :: d.sys.skew } } p).finish, q⟩) ∧
  (∀ (d : Dev) (q : List Instr) (g p : Fin 16) (e : Nat) (intact : Bool),
      d.active = true → d.al2 g = false →
      exec (.go g p e intact) ⟨d, q⟩ = .next ⟨(d).finish, q⟩) ∧
  (∀ (d : Dev) (q : List Instr) (g p : Fin 16) (e : Nat) (intact : Bool),
      d.active = true → d.al2 g = false →
      exec (.ready g p e intact) ⟨d, q⟩ = .next ⟨(d).finish, q⟩) ∧
  (∀ (d : Dev) (q : List Instr) (g p : Fin 16) (e : Nat) (intact : Bool),
      d.active = true → d.al2 g = false →
      exec (.hold g p e intact) ⟨d, q⟩ = .next ⟨(d).finish, q⟩) ∧
  (∀ (d : Dev) (q : List Instr) (g p : Fin 16) (cycle : BitVec 48) (count : Nat) (intact : Bool),
      d.active = true → d.al2 g = false →
      exec (.steps g p cycle count intact) ⟨d, q⟩ = .next ⟨(d).finish, q⟩) ∧
  (∀ (d : Dev) (q : List Instr) (g p cmd : Fin 16) (count : W32) (dist : Nat) (intact : Bool),
      d.active = true → d.al2 g = false →
      exec (.linkedCommand g p cmd count dist intact) ⟨d, q⟩ = .next ⟨(d).finish, q⟩) ∧
  (∀ (d : Dev) (q : List Instr) (g p cmd : Fin 16) (count : W32) (dist : Nat),
      d.active = true → d.al2 g = true →
      exec (.linkedCommand g p cmd count dist false) ⟨d, q⟩ = .next ⟨(d.add (pLGRP g) LGRP_CTL_ERR_COUNT 1 |> fun x : Dev => if x.slotsRun g then x.slotErr else x).finish, q⟩) ∧
  (∀ (d : Dev) (q : List Instr) (g p : Fin 16) (e : Nat),
      d.active = true → d.al2 g = true →
      exec (.hold g p e false) ⟨d, q⟩ = .next ⟨(d.add (pLGRP g) LGRP_CTL_ERR_COUNT 1 |> fun x : Dev => if x.slotsRun g then x.slotErr else x).finish, q⟩) ∧
  (∀ (d : Dev) (q : List Instr) (g p : Fin 16) (e : Nat),
      d.active = true → d.al2 g = true →
      exec (.ready g p e false) ⟨d, q⟩ = .next ⟨(d.add (pLGRP g) LGRP_CTL_ERR_COUNT 1 |> fun x : Dev => if x.slotsRun g then x.slotErr else x).finish, q⟩) ∧
  (∀ (d : Dev) (q : List Instr) (g p : Fin 16) (e : Nat),
      d.active = true → d.al2 g = true →
      exec (.go g p e false) ⟨d, q⟩ = .next ⟨(d.add (pLGRP g) LGRP_CTL_ERR_COUNT 1 |> fun x : Dev => if x.slotsRun g then x.slotErr else x).finish, q⟩) ∧
  (∀ (d : Dev) (q : List Instr) (g p : Fin 16) (cycle : BitVec 48) (count : Nat),
      d.active = true → d.al2 g = true →
      exec (.steps g p cycle count false) ⟨d, q⟩ = .next ⟨(d.add (pLGRP g) LGRP_CTL_ERR_COUNT 1 |> fun x : Dev => if x.slotsRun g then x.slotErr else x).finish, q⟩) ∧
  (∀ (d : Dev) (q : List Instr) (g : Fin 16) (ns : W64) (frac : BitVec 16) (hops : Nat) (master : Fin 512),
      d.active = true → d.g (pLGRP g) LGRP_STATUS_STATE = 4 →
      exec (.beacon g ns frac hops master false) ⟨d, q⟩ = .next ⟨(d.add (pLGRP g) LGRP_CTL_ERR_COUNT 1 |> fun x : Dev => if x.slotsRun g then x.slotErr else x).finish, q⟩) ∧
  (∀ (d : Dev) (q : List Instr) (g : Fin 16) (origin : Fin 512) (seq : Byte),
      d.active = true → d.g (pLGRP g) LGRP_STATUS_STATE = 4 →
      exec (.freezeMsg g origin seq false) ⟨d, q⟩ = .next ⟨(d.add (pLGRP g) LGRP_CTL_ERR_COUNT 1 |> fun x : Dev => if x.slotsRun g then x.slotErr else x).finish, q⟩)

/-- Lockstep records, a silent partner, beacons, TSB.SET, a system-wide freeze and a strobe take effect.
A signature record of the watched partition is kept and compared; a mismatch record sets REMOTE_MISMATCH, and in stop mode acts as a mismatch; partner
silence sets PARTNER_LOST, ends LAG_HOLD and raises its interrupt. The time master sends beacons on its links; a slave that hears none for 100 us
forgets what it heard, with the String ring as its fallback where enabled; a held counter ends its hold at the master's time; TSB.SET steps a device
that is no slave, with FRAC kept: where TIME goes at the end of a hold and that TSB.SET keeps FRAC are the model's choices of log entry 26.
SYS_CTRL.FREEZE raises a freeze of this device with the next sequence number; an intact FREEZE message on a link that is UP floods it once, a second
with the same origin and number is discarded. SNP.STROBE.GO is accepted, waits to latch, or merges within 64 ns of the last latch; with TX_STRING it
goes to the ring too, a merged one as well (log entry 64), and with SRC_EN.REG 0 it does nothing. A latch without a waiting strobe changes nothing
(the model's choice, log entry 4), and what a page latches follows log entry 47. Completion: exec of lockstepRecord, partnerTimeout, beaconSend,
beacon, beaconTimeout, tsbHoldEnd, tsbSet, sysFreeze, freezeMsg, strobe, strobeLatch answers the next state written out, for every state and operands
that meet the conditions before it. -/
def Obligations.LockstepTimeAndSystemWideCommandsTakeEffect : Prop :=
  (∀ (d : Dev) (q : List Instr) (r : BitVec 128),
      d.active = true → d.lscLink = true → d.b pLSC LSC_CFG_EN = true → bitsAt r.toNat 112 4 = d.g pLSC LSC_CFG_PARTITION → bitsAt r.toNat 116 4 = 1 →
      exec (.lockstepRecord r) ⟨d, q⟩ = .next ⟨(Dev.compareSigs { d with sys := { d.sys with theirs := d.sys.theirs ++ [(bitsAt r.toNat 64 48, bitsAt r.toNat 0 64)] } }).finish, q⟩) ∧
  (∀ (d : Dev) (q : List Instr) (r : BitVec 128),
      d.active = true → d.lscLink = true → d.b pLSC LSC_CFG_EN = true → bitsAt r.toNat 112 4 = d.g pLSC LSC_CFG_PARTITION → bitsAt r.toNat 116 4 = 2 →
      exec (.lockstepRecord r) ⟨d, q⟩ = .next ⟨(d.on pLSC LSC_STATUS_REMOTE_MISMATCH |> fun x : Dev => if x.b pLSC LSC_CFG_MODE then x else x.lscAct).finish, q⟩) ∧
  (∀ (d : Dev) (q : List Instr),
      d.active = true → d.b pLSC LSC_CFG_EN = true →
      exec (.partnerTimeout) ⟨d, q⟩ =
        (.next ⟨(((d.on pLSC LSC_STATUS_PARTNER_LOST).p pLSC LSC_STATUS_LAG_HOLD 0).irq pLSC 1 |> fun x : Dev =>
          if x.b pLSC LSC_CFG_LOST_MODE then { x with sys := { x.sys with mine := [] } } else x.freezeReq (x.g pLSC LSC_CFG_PARTITION) 7).finish, q⟩)) ∧
  (∀ (d : Dev) (q : List Instr),
      d.active = true → d.g pTSB TSB_CFG_ROLE = 1 →
      exec (.beaconSend) ⟨d, q⟩ = .next ⟨(d.each d.upLinks fun x g => x.sendBeacon g d.time 0).finish, q⟩) ∧
  (∀ (d : Dev) (q : List Instr) (g : Fin 16) (ns : W64) (frac : BitVec 16) (hops : Nat) (master : Fin 512) (f h : Dev),
      d.active = true → d.g pTSB TSB_CFG_ROLE = 2 → d.g (pLGRP g) LGRP_STATUS_STATE = 4 → f = { d with sys := { d.sys with heard := SMap.put d.sys.heard g.val (hops, master.val) } } → h = (if f.sys.heard.any (fun x => x.2.2 ≠ master.val) then f.on pTSB TSB_STATUS_MULTI_MASTER else f) → h.bestUpstream = some g.val →
      exec (.beacon g ns frac hops master true) ⟨d, q⟩ =
        (.next ⟨(let t := ns.toNat * 65536 + frac.toNat + h.linkLatency g
        let f := ((h.p pTSB TSB_STATUS_UPSTREAM g).p pTSB TSB_STATUS_ON_STRING 0).on pLNK LNK_SYS_STATUS_FREQ_LOCK
        let f := (f.p pCKG CKG_STATUS_HOLDOVER 0).followTime t (f.g (pLGRP g) LGRP_STATUS_VER == 1)
        f.each (f.upLinks.filter (· ≠ g.val)) fun x o => x.sendBeacon o t (hops + 1)).finish, q⟩)) ∧
  (∀ (d : Dev) (q : List Instr),
      d.active = true → d.g pTSB TSB_CFG_ROLE = 2 →
      exec (.beaconTimeout) ⟨d, q⟩ = .next ⟨(({ d with sys := { d.sys with heard := [], inRow := 0 } } : Dev) |> fun x : Dev => if x.b pTSB TSB_CFG_STRING_FB then x.on pTSB TSB_STATUS_ON_STRING else x).finish, q⟩) ∧
  (∀ (d : Dev) (q : List Instr),
      d.active = true → d.b pTSB TSB_STATUS_HOLDING = true →
      exec (.tsbHoldEnd) ⟨d, q⟩ = .next ⟨({ d.p pTSB TSB_STATUS_HOLDING 0 with time := d.time + (-d.slewTo).toNat, slewTo := 0 }).finish, q⟩) ∧
  (∀ (d : Dev) (q : List Instr) (v : W64),
      d.Up → d.g pTSB TSB_CFG_ROLE ≠ 2 →
      exec (.tsbSet v) ⟨d, q⟩ = .next ⟨(d.stepTime (v.toNat * 65536 + d.time % 65536) (if d.now ≤ v.toNat then 1 else 2)).finish, q⟩) ∧
  (∀ (d : Dev) (q : List Instr),
      d.Up →
      exec (.sysFreeze) ⟨d, q⟩ = .next ⟨(Dev.floodFreeze { d with sys := { d.sys with seqNo := (d.sys.seqNo + 1) % 256 } } d.devNum ((d.sys.seqNo + 1) % 256) true).finish, q⟩) ∧
  (∀ (d : Dev) (q : List Instr) (g : Fin 16) (origin : Fin 512) (seq : Byte),
      d.active = true → d.g (pLGRP g) LGRP_STATUS_STATE = 4 → d.sys.seen.contains (origin.val, seq.toNat) = false →
      exec (.freezeMsg g origin seq true) ⟨d, q⟩ = .next ⟨(d.floodFreeze origin seq.toNat true).finish, q⟩) ∧
  (∀ (d : Dev) (q : List Instr) (g : Fin 16) (origin : Fin 512) (seq : Byte),
      d.active = true → d.sys.seen.contains (origin.val, seq.toNat) = true →
      exec (.freezeMsg g origin seq true) ⟨d, q⟩ = .next ⟨(d).finish, q⟩) ∧
  (∀ (d : Dev) (q : List Instr),
      d.Up → d.b pSNP SNP_SRC_EN_REG = true → d.b pSNP SNP_SRC_EN_TX_STRING = false → d.latchAt = none →
      exec (.strobe) ⟨d, q⟩ = .next ⟨({ d with strobeSrc := some 2 }).finish, q⟩) ∧
  (∀ (d : Dev) (q : List Instr) (t : Nat),
      d.Up → d.b pSNP SNP_SRC_EN_REG = true → d.b pSNP SNP_SRC_EN_TX_STRING = false → d.latchAt = some t → d.ticks < t + 128 →
      exec (.strobe) ⟨d, q⟩ = .next ⟨(d.on pSNP SNP_STATUS_MERGED).finish, q⟩) ∧
  (∀ (d : Dev) (q : List Instr),
      d.Up → d.b pSNP SNP_SRC_EN_REG = true → d.b pSNP SNP_SRC_EN_TX_STRING = true → d.latchAt = none →
      exec (.strobe) ⟨d, q⟩ = .next ⟨({ d.ringSend 5 0x1FF [] with strobeSrc := some 2 }).finish, q⟩) ∧
  (∀ (d : Dev) (q : List Instr), d.Up → d.b pSNP SNP_SRC_EN_REG = false → exec (.strobe) ⟨d, q⟩ = .next ⟨(d).finish, q⟩) ∧
  (∀ (d : Dev) (q : List Instr) (src : Nat),
      d.active = true → d.strobeSrc = some src →
      exec (.strobeLatch) ⟨d, q⟩ =
        (.next ⟨(let f := Dev.allPages.foldl (fun x base => Dev.latchPage d x base ((d.g pSNP SNP_STATUS_SEQ + 1) % 65536)) d
        { ((f.p pSNP SNP_STATUS_SEQ ((d.g pSNP SNP_STATUS_SEQ + 1) % 65536)).p pSNP SNP_STATUS_LAST_SRC src).p pSNP SNP_STAMP_NS d.now with
          latchAt := some d.ticks, strobeSrc := none }).finish, q⟩)) ∧
  (∀ (d : Dev) (q : List Instr), d.strobeSrc = none → exec (.strobeLatch) ⟨d, q⟩ = .next ⟨(d).finish, q⟩)

/-- Count clears and configuration writes of a cluster page, far accesses, read copies and write credits take effect.
Where the PF reaches a cluster whose network interface is ACTIVE, a count clear returns its counters to their Reset values, and a write to a design
memory, far port or transactor port register is stored while the cluster's partition is STOPPED or it has none (the second is the model's choice, log
entry 23); a transactor port that changes gives up its queue's read copies or its write credits. While the partition is not STOPPED the write is
ignored. A far read's data arrives after HBM has performed every earlier access of its port (the model's choice, log entry 17), and its response
buffer is freed; the oldest far write is acknowledged likewise; an access that still waits for a buffer is not on its way, and one whose response has
no route back has been performed but does not end. A stored word fills a copy slot of the read port that its queue is bound to, up to four; a write
port renews a credit, up to four, while its shared queue has a free word. Completion: exec of bpiClrCounts, wliClrCounts, fabClrCount, dmemClrCounts,
dmemCfgWrite, fmpConfigWrite, txpConfigWrite, farReadArrival, farWriteAck, txpCopyFill, txpCreditRenew answers the next state written out, for every
state and operands that meet the conditions before it. -/
def Obligations.ClusterPageFarAndTransactorCommandsTakeEffect : Prop :=
  (∀ (d : Dev) (q : List Instr) (n : Fin 64),
      d.Serves n →
      exec (.bpiClrCounts n) ⟨d, q⟩ = .next ⟨((d.clr (pCLU n) CLU_BPI_CE_COUNT_COUNT).clr (pCLU n) CLU_BPI_UE_COUNT_COUNT).finish, q⟩) ∧
  (∀ (d : Dev) (q : List Instr) (n : Fin 64),
      d.Serves n →
      exec (.wliClrCounts n) ⟨d, q⟩ = .next ⟨((d.clr (pCLU n) CLU_WLI_CE_COUNT_COUNT).clr (pCLU n) CLU_WLI_UE_COUNT_COUNT).finish, q⟩) ∧
  (∀ (d : Dev) (q : List Instr) (n : Fin 64), d.Serves n → exec (.fabClrCount n) ⟨d, q⟩ = .next ⟨(d.clr (pCLU n) CLU_FAB_PAR_COUNT_COUNT).finish, q⟩) ∧
  (∀ (d : Dev) (q : List Instr) (n : Fin 64),
      d.Serves n →
      exec (.dmemClrCounts n) ⟨d, q⟩ = .next ⟨((d.clr (pCLU n) CLU_DMEM_CE_COUNT_COUNT).clr (pCLU n) CLU_DMEM_UE_COUNT_COUNT).finish, q⟩) ∧
  (∀ (d : Dev) (q : List Instr) (n : Fin 64) (off : Nat) (v : W32),
      d.Serves n → d.cfgOpen n = true → off % 4 = 0 → 0x400 ≤ off → off < 0x800 →
      exec (.dmemCfgWrite n off v) ⟨d, q⟩ = .next ⟨(d.writeWord (pCLU n) off v.toNat fldsCLU).finish, q⟩) ∧
  (∀ (d : Dev) (q : List Instr) (n : Fin 64) (off : Nat) (v : W32),
      d.Serves n → d.cfgOpen n = true → off % 4 = 0 → 0x300 ≤ off → off < 0x320 →
      exec (.dmemCfgWrite n off v) ⟨d, q⟩ = .next ⟨(d.writeWord (pCLU n) off v.toNat fldsCLU).finish, q⟩) ∧
  (∀ (d : Dev) (q : List Instr) (n : Fin 64) (off : Nat) (v : W32),
      d.Serves n → d.cfgOpen n = true → off % 4 = 0 → 0x240 ≤ off → off < 0x280 →
      exec (.fmpConfigWrite n off v) ⟨d, q⟩ = .next ⟨(d.writeWord (pCLU n) off v.toNat fldsCLU).finish, q⟩) ∧
  (∀ (d : Dev) (q : List Instr) (n : Fin 64) (off : Nat) (v : W32),
      d.Serves n → d.cfgOpen n = true → off % 4 = 0 → 0x280 ≤ off → off < 0x300 →
      exec (.txpConfigWrite n off v) ⟨d, q⟩ = .next ⟨((d.releasePort n ((off - 0x280) / 16)).writeWord (pCLU n) off v.toNat fldsCLU).finish, q⟩) ∧
  (∀ (d : Dev) (q : List Instr) (n : Fin 64) (off : Nat) (v : W32),
      d.Serves n → d.cfgOpen n = false →
      exec (.dmemCfgWrite n off v) ⟨d, q⟩ = .next ⟨(d).finish, q⟩) ∧
  (∀ (d : Dev) (q : List Instr) (n : Fin 64) (f : Fin 4) (k : Nat) (e : Dev) (a : FarAcc),
      d.active = true → (d.farOf n f).findIdx? (fun a => !a.write && !a.done) = some k → e = d.farReserve n f → (e.farOf n f)[k]? = some a → (a.tag.isNone && (decide (e.niState n ≠ 0) || e.hbmRouted n a.addr a.size)) = false → (a.tag.isNone || e.routed (hbmDest a.addr) n) = true →
      exec (.farReadArrival n f) ⟨d, q⟩ = .next ⟨((e.farPrefix n f (k + 1)).farEnd n f k).finish, q⟩) ∧
  (∀ (d : Dev) (q : List Instr) (n : Fin 64) (f : Fin 4) (k : Nat) (e : Dev) (a : FarAcc),
      d.active = true → (d.farOf n f).findIdx? (fun a => !a.write && !a.done) = some k → e = d.farReserve n f → (e.farOf n f)[k]? = some a → a.tag.isSome = true → e.routed (hbmDest a.addr) n = false →
      exec (.farReadArrival n f) ⟨d, q⟩ = .next ⟨(e.farPrefix n f (k + 1)).finish, q⟩) ∧
  (∀ (d : Dev) (q : List Instr) (n : Fin 64) (f : Fin 4) (k : Nat) (e : Dev) (a : FarAcc),
      d.active = true → (d.farOf n f).findIdx? (fun a => a.write) = some k → e = d.farReserve n f → (e.farOf n f)[k]? = some a → (a.tag.isNone && (decide (e.niState n ≠ 0) || e.hbmRouted n a.addr a.size)) = false → (a.tag.isNone || e.routed (hbmDest a.addr) n) = true →
      exec (.farWriteAck n f) ⟨d, q⟩ = .next ⟨((e.farPrefix n f (k + 1)).farEnd n f k).finish, q⟩) ∧
  (∀ (d : Dev) (q : List Instr) (n : Fin 64) (x : Fin 8) (k : Nat),
      d.active = true → d.portQueue n x = some k → d.boundTo k = some (n.val, x.val) → (d.queueAt k).copied < 4 → (d.queueAt k).copied < (d.queueAt k).seen.length →
      exec (.txpCopyFill n x) ⟨d, q⟩ = .next ⟨(d.setQueue k { d.queueAt k with copied := (d.queueAt k).copied + 1 }).finish, q⟩) ∧
  (∀ (d : Dev) (q : List Instr) (n : Fin 64) (x : Fin 8) (k : Nat),
      d.active = true → d.portQueue n x = some k → d.b (pCLU n) (CLU_TXP_DIR x) = true → (d.queueAt k).priv = false → d.creditsOf n x < 4 → 0 < (d.queueAt k).free →
      exec (.txpCreditRenew n x) ⟨d, q⟩ = .next ⟨((d.setQueue k { d.queueAt k with reserved := (d.queueAt k).reserved + 1 }).modClu n fun c => { c with credits := SMap.set 0 c.credits x (SMap.get 0 c.credits x + 1) }).finish, q⟩)

/-- Cluster window accesses and BAR2 accesses are served where the function reaches them, and end in an error where it does not.
An aperture access of a function that reaches the window page of a cluster that the network joins to the host and whose interface is ACTIVE is served:
the read completes with what the window selects, the write is done as R145 and R146 say. Where the interface is not ACTIVE a read completes with all
ones, a write is discarded, UNREACH counts and the access error is raised. A read of design memory of a running partition that finds no free slot sets
BUSY and completes with all ones. A served BAR2 read of the PF returns the bytes from BAR2_BASE on, a VF's in the lower half of its BAR2 those of its
partition's quota, in the upper half those of its capture window; a served write is performed part by part, and a VF's write to the upper half is
refused with an access error. A read that nothing serves completes with all ones, a write is dropped. Completion: exec of windowRead, windowWrite,
windowReadTimeout, bar2Read, bar2Write, captureWindowRead answers the next state written out, for every state and operands that meet the conditions
before it. -/
def Obligations.WindowAndHbmWindowCommandsTakeEffect : Prop :=
  (∀ (d : Dev) (q : List Instr) (fn : Fn) (n : Fin 64) (w : Fin 16) (off : Nat) (f : Dev × Nat),
      d.active = true → d.reach fn (pWIN n w) = .yes → Dev.inAperture w off = true → d.niState n = 0 → d.Linked (some n) → f = d.winRead n w off → f.1.heard (some n) = true →
      exec (.windowRead fn n w off) ⟨d, q⟩ = .next ⟨(f.1.complete fn (pWIN n w + off) f.2).finish, q⟩) ∧
  (∀ (d : Dev) (q : List Instr) (fn : Fn) (n : Fin 64) (w : Fin 16) (off : Nat) (v : W32),
      d.active = true → d.reach fn (pWIN n w) = .yes → Dev.inAperture w off = true → d.niState n = 0 → d.Linked (some n) →
      exec (.windowWrite fn n w off v) ⟨d, q⟩ = .next ⟨(d.winWrite n w off v.toNat).finish, q⟩) ∧
  (∀ (d : Dev) (q : List Instr) (fn : Fn) (n : Fin 64) (w : Fin 16) (off : Nat),
      d.active = true → d.reach fn (pWIN n w) = .yes → Dev.inAperture w off = true → d.niState n ≠ 0 → d.Linked (some n) →
      exec (.windowRead fn n w off) ⟨d, q⟩ = .next ⟨((d.unreachable.accessError fn 0 (d.barOff fn (pWIN n w + off)) false).complete fn (pWIN n w + off) 0xFFFFFFFF).finish, q⟩) ∧
  (∀ (d : Dev) (q : List Instr) (fn : Fn) (n : Fin 64) (w : Fin 16) (off : Nat) (v : W32),
      d.active = true → d.reach fn (pWIN n w) = .yes → Dev.inAperture w off = true → d.niState n ≠ 0 → d.Linked (some n) →
      exec (.windowWrite fn n w off v) ⟨d, q⟩ = .next ⟨(d.unreachable.accessError fn 0 (d.barOff fn (pWIN n w + off)) true).finish, q⟩) ∧
  (∀ (d : Dev) (q : List Instr) (fn : Fn) (n : Fin 64) (w : Fin 16) (off : Nat) (f : Dev),
      d.active = true → d.reach fn (pWIN n w) = .yes → Dev.inAperture w off = true → d.niState n = 0 → d.Linked (some n) → d.cluSeq n = 1 → d.g (pWIN n w) WIN_WIN_SEL_CLASS = 8 → f = d.on (pWIN n w) WIN_WIN_STATUS_BUSY → f.heard (some n) = true →
      exec (.windowReadTimeout fn n w off) ⟨d, q⟩ = .next ⟨(f.complete fn (pWIN n w + off) 0xFFFFFFFF).finish, q⟩) ∧
  (∀ (d : Dev) (q : List Instr) (off len : Nat),
      d.active = true → d.barServed .pf = true → off < d.pwr.pfBar2 →
      exec (.bar2Read .pf off len) ⟨d, q⟩ = .next ⟨(d.windowBytes .pf off (d.g pPCI PCI_BAR2_BASE_ADDR + off) len (Dev.hubReq 0x90) fun _ _ => true).finish, q⟩) ∧
  (∀ (d : Dev) (q : List Instr) (i : Fin 16) (off len : Nat),
      d.active = true → d.barServed (.vf i) = true → off < d.pwr.vfBar2 / 2 →
      exec (.bar2Read (.vf i) off len) ⟨d, q⟩ = .next ⟨(d.windowBytes (.vf i) off ((d.ptnAt i).quotaBase + off) len (Dev.ptnReq 0x90 i) fun _ _ => true).finish, q⟩) ∧
  (∀ (d : Dev) (q : List Instr) (i : Fin 16) (off len : Nat),
      d.active = true → d.barServed (.vf i) = true → d.pwr.vfBar2 / 2 ≤ off → off < d.pwr.vfBar2 →
      exec (.bar2Read (.vf i) off len) ⟨d, q⟩ = .next ⟨(d.doCaptureRead i (off - d.pwr.vfBar2 / 2) len).finish, q⟩) ∧
  (∀ (d : Dev) (q : List Instr) (fn : Fn) (off len : Nat),
      d.active = true → d.barServed fn = false ∨ d.bar2Size fn ≤ off →
      exec (.bar2Read fn off len) ⟨d, q⟩ = .next ⟨(d.emit (.data fn off (List.replicate len 0xFF))).finish, q⟩) ∧
  (∀ (d : Dev) (q : List Instr) (off : Nat) (bytes : List Byte),
      d.active = true → d.barServed .pf = true → off < d.pwr.pfBar2 →
      exec (.bar2Write .pf off bytes) ⟨d, q⟩ = .next ⟨(d.windowPut .pf off (d.g pPCI PCI_BAR2_BASE_ADDR + off) bytes (Dev.hubReq 0x90)).finish, q⟩) ∧
  (∀ (d : Dev) (q : List Instr) (i : Fin 16) (off : Nat) (bytes : List Byte),
      d.active = true → d.barServed (.vf i) = true → off < d.pwr.vfBar2 / 2 →
      exec (.bar2Write (.vf i) off bytes) ⟨d, q⟩ = .next ⟨(d.windowPut (.vf i) off ((d.ptnAt i).quotaBase + off) bytes (Dev.ptnReq 0x90 i)).finish, q⟩) ∧
  (∀ (d : Dev) (q : List Instr) (i : Fin 16) (off : Nat) (bytes : List Byte),
      d.active = true → d.barServed (.vf i) = true → d.pwr.vfBar2 / 2 ≤ off → off < d.pwr.vfBar2 →
      exec (.bar2Write (.vf i) off bytes) ⟨d, q⟩ = .next ⟨(d.accessError (.vf i) 2 off true).finish, q⟩) ∧
  (∀ (d : Dev) (q : List Instr) (fn : Fn) (off : Nat) (bytes : List Byte),
      d.active = true → d.barServed fn = false ∨ d.bar2Size fn ≤ off →
      exec (.bar2Write fn off bytes) ⟨d, q⟩ = .next ⟨(d).finish, q⟩) ∧
  (∀ (d : Dev) (q : List Instr) (p : Fin 16) (off len : Nat),
      d.active = true → d.barServed (.vf p) = true → d.pwr.vfBar2 / 2 + off < d.pwr.vfBar2 → d.b (pSLC p) SLC_CAPWIN_DIR = true →
      exec (.captureWindowRead p off len) ⟨d, q⟩ =
        (.next ⟨(d.windowBytes (.vf p) (d.pwr.vfBar2 / 2 + off) (d.dirAddr (d.g (pSLC p) SLC_CAPWIN_CH) 0 + off) len (Dev.hubReq 0x9A)
          fun o k => d.g pCAP (CAP_CH_CFG_OWNER (d.g (pSLC p) SLC_CAPWIN_CH)) == p.val && off + o + k ≤ 512).finish, q⟩)) ∧
  (∀ (d : Dev) (q : List Instr) (p : Fin 16) (off len : Nat),
      d.active = true → d.barServed (.vf p) = true → d.pwr.vfBar2 / 2 + off < d.pwr.vfBar2 → d.b (pSLC p) SLC_CAPWIN_DIR = false →
      exec (.captureWindowRead p off len) ⟨d, q⟩ =
        (.next ⟨(let ch := d.g (pSLC p) SLC_CAPWIN_CH
        let pages := d.g (pSLC p) SLC_CAPWIN_OFF_PAGES
        d.windowBytes (.vf p) (d.pwr.vfBar2 / 2 + off) (d.g pCAP CAP_PW_BASE_ADDR + (d.g pCAP (CAP_CH_OFFSET_PAGES ch) + pages) * 4096 + off) len (Dev.hubReq 0x9A)
          fun o k => d.g pCAP (CAP_CH_CFG_OWNER ch) == p.val && pages * 4096 + off + o + k ≤ d.g pCAP (CAP_CH_PAGES_PAGES ch) * 4096).finish, q⟩))

/-- What a window write does: denied while running or under a snapshot, out of range, or stored, marking a hard-frozen partition.
While the cluster's partition runs, or a snapshot of it is under way, a window write only sets DENIED; outside its class's size it only sets RANGE;
the classes of the stores of a fused odd member set RANGE and write nothing; otherwise the selected word is written (how 32 bits meet a wider word is
log entry 19), and HOST_MODIFIED is set where the partition is HARD_FROZEN. A partition under reset takes no write. -/
def Obligations.WindowWriteRules : Prop :=
  ∀ (d : Dev) (n w off v c t m o : Nat), d.winTarget n w off = (c, t, m, o) →
    (d.cluBusy n = true → d.winWrite n w off v = d) ∧
    (d.cluBusy n = false → d.cluSeq n = 1 ∨ d.cluSnap n ≠ 0 → d.winWrite n w off v = d.on (pWIN n w) WIN_WIN_STATUS_DENIED) ∧
    (d.cluBusy n = false → d.cluSeq n ≠ 1 → d.cluSnap n = 0 → classSize c ≤ o → d.winWrite n w off v = d.on (pWIN n w) WIN_WIN_STATUS_RANGE) ∧
    (d.cluBusy n = false → d.cluSeq n ≠ 1 → d.cluSnap n = 0 → o < classSize c → d.winFused n c = true →
      d.winWrite n w off v = (d.winWake n c).on (pWIN n w) WIN_WIN_STATUS_RANGE) ∧
    (d.cluBusy n = false → d.cluSeq n ≠ 1 → d.cluSnap n = 0 → o < classSize c → d.winFused n c = false →
      (∀ i, ((d.winWake n c).classWrite n c t m o v).ownerOf n = some i → ((d.winWake n c).classWrite n c t m o v).seqState i ≠ 3) →
      d.winWrite n w off v = (d.winWake n c).classWrite n c t m o v) ∧
    (∀ i, d.cluBusy n = false → d.cluSeq n ≠ 1 → d.cluSnap n = 0 → o < classSize c → d.winFused n c = false →
      ((d.winWake n c).classWrite n c t m o v).ownerOf n = some i → ((d.winWake n c).classWrite n c t m o v).seqState i = 3 →
      d.winWrite n w off v = ((d.winWake n c).classWrite n c t m o v).on (pPTN i) PTN_SEQ_STATUS_HOST_MODIFIED)

/-- Snapshot saves, restores, their completions and aborts take effect.
A save or restore that nothing refuses and the arbiter grants begins with PROGRESS 0, the clusters ON, a save with its header written first with
COMPLETE 0. A save completes with sections, the far regions selected then (log entry 64), the header with COMPLETE 1 and RESULT 0. The check pass ends
in its RESULT or begins the write pass, which leaves the partition FROZEN. ABORT ends each with RESULT 10; one that interrupts the write pass leaves
the state undefined and the partition unloaded. A command while one runs sets RESULT 1. The order of a SAVE's checks is the model's choice (log entry
20). Completion: exec of snapSave, snapSaveComplete, snapRestore, snapCheckComplete, snapRestoreComplete, snapAbort answers the next state written
out, for every state and operands that meet the conditions before it. -/
def Obligations.SnapshotCommandsTakeEffect : Prop :=
  (∀ (d : Dev) (q : List Instr) (p : Fin 16),
      d.Takes p → d.snapBusy p = false → d.snapRefusal p true = 0 → (d.mntRequest (Dev.mntId 5 p 0) 0 0x10000 false).2 = none →
      exec (.snapSave p) ⟨d, q⟩ =
        (.next ⟨(let f := (((d.mntRequest (Dev.mntId 5 p 0) 0 0x10000 false).1.p (pPTN p) PTN_SNAP_STATUS_STATE 1).p (pPTN p) PTN_SNAP_STATUS_PROGRESS 0).wakeAll p
        f.snapPut p (f.g (pPTN p) PTN_SNAP_BASE_ADDR) (f.snapHead p false)).finish, q⟩)) ∧
  (∀ (d : Dev) (q : List Instr) (p : Fin 16),
      d.Takes p → d.snapBusy p = false → d.snapRefusal p true ≠ 0 →
      exec (.snapSave p) ⟨d, q⟩ = .next ⟨(d.snapEnd p (d.snapRefusal p true)).finish, q⟩) ∧
  (∀ (d : Dev) (q : List Instr) (p : Fin 16),
      d.Takes p → d.snapBusy p = true →
      exec (.snapSave p) ⟨d, q⟩ = .next ⟨(d.p (pPTN p) PTN_SNAP_STATUS_RESULT 1).finish, q⟩) ∧
  (∀ (d : Dev) (q : List Instr) (p : Fin 16),
      d.active = true → d.g (pPTN p) PTN_SNAP_STATUS_STATE = 1 →
      exec (.snapSaveComplete p) ⟨d, q⟩ =
        (.next ⟨(let f := d.saveSections p
        let f := if f.b (pPTN p) PTN_SNAP_CFG_FAR then f.copyRegions p true false else f
        let f := (f.p (pPTN p) PTN_SNAP_STATUS_PROGRESS (f.clustersOf p).length).snapPut p (f.g (pPTN p) PTN_SNAP_BASE_ADDR) (f.snapHead p true)
        (f.p (pPTN p) PTN_SNAP_CYCLE_COUNT (f.g (pPTN p) PTN_CYCLE_COUNT)).snapEnd p 0).finish, q⟩)) ∧
  (∀ (d : Dev) (q : List Instr) (p : Fin 16),
      d.Takes p → d.snapBusy p = false → d.snapRefusal p false = 0 → (d.mntRequest (Dev.mntId 5 p 0) 0 0x10000 false).2 = none →
      exec (.snapRestore p) ⟨d, q⟩ = .next ⟨((((d.mntRequest (Dev.mntId 5 p 0) 0 0x10000 false).1.p (pPTN p) PTN_SNAP_STATUS_STATE 2).p (pPTN p) PTN_SNAP_STATUS_PROGRESS 0).wakeAll p).finish, q⟩) ∧
  (∀ (d : Dev) (q : List Instr) (p : Fin 16),
      d.active = true → d.g (pPTN p) PTN_SNAP_STATUS_STATE = 2 →
      exec (.snapCheckComplete p) ⟨d, q⟩ =
        (.next ⟨(let r := d.snapCheck p [d.g (pPTN p) PTN_IMAGE_ID_ID, d.g (pPTN p) PTN_ORIGIN_ID] (!(d.ptnAt p).retarget)
        if r.2 ≠ 0 then r.1.snapEnd p r.2 else (r.1.p (pPTN p) PTN_SNAP_STATUS_STATE 3).p (pPTN p) PTN_SNAP_STATUS_PROGRESS 0).finish, q⟩)) ∧
  (∀ (d : Dev) (q : List Instr) (p : Fin 16),
      d.active = true → d.g (pPTN p) PTN_SNAP_STATUS_STATE = 3 → (d.ptnAt p).retarget = false → d.seqState p = 2 → ((d.loadSnapshot p).ptnAt p).pend = [] →
      exec (.snapRestoreComplete p) ⟨d, q⟩ = .next ⟨(((d.loadSnapshot p).p (pPTN p) PTN_SNAP_STATUS_PROGRESS (d.clustersOf p).length).snapEnd p 0).finish, q⟩) ∧
  (∀ (d : Dev) (q : List Instr) (p : Fin 16) (f : Dev),
      d.active = true → d.g (pPTN p) PTN_SNAP_STATUS_STATE = 3 → (d.ptnAt p).retarget = false → d.seqState p = 0 → f = ((d.loadSnapshot p).p (pPTN p) PTN_SNAP_STATUS_PROGRESS (d.clustersOf p).length).frozenIrq p → (f.ptnAt p).pend = [] →
      exec (.snapRestoreComplete p) ⟨d, q⟩ = .next ⟨(f.snapEnd p 0).finish, q⟩) ∧
  (∀ (d : Dev) (q : List Instr) (p : Fin 16),
      d.Takes p → d.g (pPTN p) PTN_SNAP_STATUS_STATE = 1 →
      exec (.snapAbort p) ⟨d, q⟩ = .next ⟨((d.cutSave p).snapEnd p 10).finish, q⟩) ∧
  (∀ (d : Dev) (q : List Instr) (p : Fin 16),
      d.Takes p → d.g (pPTN p) PTN_SNAP_STATUS_STATE = 2 →
      exec (.snapAbort p) ⟨d, q⟩ = .next ⟨(d.snapEnd p 10).finish, q⟩) ∧
  (∀ (d : Dev) (q : List Instr) (p : Fin 16),
      d.Takes p → d.g (pPTN p) PTN_SNAP_STATUS_STATE = 3 →
      exec (.snapAbort p) ⟨d, q⟩ = .next ⟨(((d.scrambleState p ((leAt (d.snapGet p (d.g (pPTN p) PTN_SNAP_BASE_ADDR) 256).2 0x34 4).testBit 0)).unload p).snapEnd p 10).finish, q⟩)

/-- PTN_CREATE, PTN_DESTROY, PTN_RESIZE, PTN_QUERY and PING take effect or answer the status of the check that refuses them.
PTN_CREATE of a FREE number with free clusters, a proper shape and a free queue range clears the clusters and queues and gives the partition its
directory entry and quota, answering status 0 and the quota base, or status 6 where no free range holds the quota. PTN_DESTROY ends what runs, stops
the sequencer, drains the clusters and leaves CLOSING (the order of effects within CLOSING is the model's, log entry 24). A resize that nothing
refuses waits in RESIZING, or answers 10 with the conflicting holder. PTN_QUERY and PING answer. A header whose opcode is not listed or whose LENGTH
does not fit is answered with status 1, its packet dropped; that of a PING is answered as the PING it is (log entry 65). PTN_CREATE answers 2 for a
number that is not FREE, then 3 for a cluster that another partition owns or that is under test, then 4 for an improper shape, then 5 for a queue
range that cannot be given. PTN_DESTROY answers 2 for a FREE number and 11 in RESIZING and CLOSING. PTN_QUERY answers 2 for a FREE number. Completion:
exec of ptnCreate, ptnDestroy, ptnResize, ptnQuery, ping, serviceBadCommand answers the next state written out, for every state and operands that meet
the conditions before it. -/
def Obligations.PartitionServiceCommandsTakeEffect : Prop :=
  (∀ (d : Dev) (q : List Instr) (tag : Byte) (p : Fin 16) (vf : Bool) (mask shape : W64) (quota : W32),
      d.Up → d.dirState p = 0 → d.clustersTaken p mask.toNat = false → Dev.badShape mask.toNat (shapeFused shape.toNat) = false → d.queuesTaken p (shapeQbase shape.toNat) (shapeQcount shape.toNat) = false →
      exec (.ptnCreate tag p vf mask shape quota) ⟨d, q⟩ =
        (.next ⟨(match (d.takeService 0x10 tag.toNat (p.val + (if vf then 16 else 0)) [BitVec.ofNat 64 mask.toNat, BitVec.ofNat 64 shape.toNat, BitVec.ofNat 64 quota.toNat]).placeQuota (Dev.quotaBytes quota.toNat) with
        | none => (d.takeService 0x10 tag.toNat (p.val + (if vf then 16 else 0)) [BitVec.ofNat 64 mask.toNat, BitVec.ofNat 64 shape.toNat, BitVec.ofNat 64 quota.toNat]).answer 0x10 tag.toNat 6 []
        | some a =>
          let f := (d.takeService 0x10 tag.toNat (p.val + (if vf then 16 else 0)) [BitVec.ofNat 64 mask.toNat, BitVec.ofNat 64 shape.toNat, BitVec.ofNat 64 quota.toNat]).tick.each (maskList mask.toNat) Dev.clearCluster
          let f := (f.clearQueues (shapeQbase shape.toNat) (shapeQcount shape.toNat)).setDir p 1 mask.toNat (shapeQbase shape.toNat) (shapeQcount shape.toNat)
          let f := ((f.p pDEV (DEV_DIR_VF p) vf.toNat).p (pPTN p) PTN_SEQ_CFG_EXTENDED (decide (shapeFused shape.toNat ≠ 0)).toNat).setPtn p { Ptn.reset with fusedMask := shapeFused shape.toNat, quotaBase := a, quotaSize := Dev.quotaBytes quota.toNat, clock := (f.ptnAt p).clock }
          f.answer 0x10 tag.toNat 0 [BitVec.ofNat 64 a]).finish, q⟩)) ∧
  (∀ (d : Dev) (q : List Instr) (tag : Byte) (p : Fin 16),
      d.Up → d.dirState p = 1 ∨ d.dirState p = 2 →
      exec (.ptnDestroy tag p) ⟨d, q⟩ =
        (.next ⟨(let f := (((d.takeService 0x11 tag.toNat p []).doSnapAbort p).endBatch p)
        let f := if f.seqState p == 0 then f else f.stopNow p
        let f := f.each (f.clustersOf p) fun x n => (x.farDrain n).drainNi n
        ((f.p pDEV (DEV_DIR_STATE p) 4).releaseDebug p).modPtn p fun x => { x with tagCmd := some (0x11, tag.toNat) }).finish, q⟩)) ∧
  (∀ (d : Dev) (q : List Instr) (tag : Byte) (p : Fin 16) (ret : Bool) (mask shape : W64),
      d.Up → (d.takeService 0x12 tag.toNat (p.val + (if ret then 16 else 0)) [BitVec.ofNat 64 mask.toNat, BitVec.ofNat 64 shape.toNat]).resizeRefusal p ret mask.toNat shape.toNat = 0 →
      exec (.ptnResize tag p ret mask shape) ⟨d, q⟩ =
        (.next ⟨(let r := (d.takeService 0x12 tag.toNat (p.val + (if ret then 16 else 0)) [BitVec.ofNat 64 mask.toNat, BitVec.ofNat 64 shape.toNat]).mntRequest (Dev.mntId 6 p 0) (Dev.maskOf ((maskList mask.toNat).filter fun n => !((d.takeService 0x12 tag.toNat (p.val + (if ret then 16 else 0)) [BitVec.ofNat 64 mask.toNat, BitVec.ofNat 64 shape.toNat]).mask p).testBit n)) 0x10000 false
        match r.2 with
        | some h => r.1.answer 0x12 tag.toNat 10 [BitVec.ofNat 64 h]
        | none => ((r.1.each ((maskList ((d.takeService 0x12 tag.toNat (p.val + (if ret then 16 else 0)) [BitVec.ofNat 64 mask.toNat, BitVec.ofNat 64 shape.toNat]).mask p)).filter fun n => !mask.toNat.testBit n) fun x n => (x.farDrain n).drainNi n).p pDEV (DEV_DIR_STATE p) 3).modPtn p fun x =>
            { x with tagCmd := some (0x12, tag.toNat), pendMask := mask.toNat, pendShape := shape.toNat, retarget := ret }).finish, q⟩)) ∧
  (∀ (d : Dev) (q : List Instr) (tag : Byte) (p : Fin 16) (ret : Bool) (mask shape : W64),
      d.Up → (d.takeService 0x12 tag.toNat (p.val + (if ret then 16 else 0)) [BitVec.ofNat 64 mask.toNat, BitVec.ofNat 64 shape.toNat]).resizeRefusal p ret mask.toNat shape.toNat ≠ 0 →
      exec (.ptnResize tag p ret mask shape) ⟨d, q⟩ =
        (.next ⟨(let f := (d.takeService 0x12 tag.toNat (p.val + (if ret then 16 else 0)) [BitVec.ofNat 64 mask.toNat, BitVec.ofNat 64 shape.toNat])
        let st := f.resizeRefusal p ret mask.toNat shape.toNat
        if f.dirState p == 0 then f.answer 0x12 tag.toNat st [] else f.answerPtn p 0x12 tag.toNat st []).finish, q⟩)) ∧
  (∀ (d : Dev) (q : List Instr) (tag : Byte) (p : Fin 16),
      d.Up → d.dirState p ≠ 0 →
      exec (.ptnQuery tag p) ⟨d, q⟩ =
        (.next ⟨(let f := (d.takeService 0x13 tag.toNat p [])
        f.answerPtn p 0x13 tag.toNat 0 ([f.dirWord p 0 ||| f.dirWord p 1 <<< 32, f.dirWord p 2 ||| f.dirWord p 3 <<< 32,
          (f.ptnAt p).fusedMask ||| ((f.ptnAt p).quotaSize / 0x100000) <<< 32, (f.ptnAt p).quotaBase].map (BitVec.ofNat 64))).finish, q⟩)) ∧
  (∀ (d : Dev) (q : List Instr) (tag : Byte) (arg : W32),
      d.Up →
      exec (.ping tag arg) ⟨d, q⟩ =
        (.next ⟨(let f := (d.takeService 0x01 tag.toNat arg.toNat [])
        f.answer 0x01 tag.toNat 0 [BitVec.ofNat 64 (f.g pLDR LDR_BUNDLE_VERSION_VERSION ||| arg.toNat <<< 32)]).finish, q⟩)) ∧
  (∀ (d : Dev) (q : List Instr) (hdr : W64),
      d.Up → d.servicePacket hdr = none → Dev.serviceLength (bitsAt hdr.toNat 0 8) ≠ some (bitsAt hdr.toNat 8 16) ∨ bitsAt hdr.toNat 8 16 ≠ 0 →
      exec (.serviceBadCommand hdr) ⟨d, q⟩ = .next ⟨(d.answer (bitsAt hdr.toNat 0 8) (bitsAt hdr.toNat 24 8) 1 []).finish, q⟩) ∧
  (∀ (d : Dev) (q : List Instr) (hdr : W64) (ws : List W64),
      d.Up → d.servicePacket hdr = some ws → Dev.serviceLength (bitsAt hdr.toNat 0 8) ≠ some (bitsAt hdr.toNat 8 16) ∨ bitsAt hdr.toNat 8 16 ≠ ws.length →
      exec (.serviceBadCommand hdr) ⟨d, q⟩ = .next ⟨((d.modQueue 0 fun x => { x with words := x.words.drop (headPacket x.words).length, taken := false }).answer (bitsAt hdr.toNat 0 8) (bitsAt hdr.toNat 24 8) 1 []).finish, q⟩) ∧
  (∀ (d : Dev) (q : List Instr) (hdr : W64),
      d.Up → d.servicePacket hdr = none → bitsAt hdr.toNat 0 24 = 1 →
      exec (.serviceBadCommand hdr) ⟨d, q⟩ = .next ⟨(d.doPing (bitsAt hdr.toNat 24 8) (bitsAt hdr.toNat 32 32)).finish, q⟩) ∧
  (∀ (d : Dev) (q : List Instr) (tag : Byte) (p : Fin 16) (vf : Bool) (mask shape : W64) (quota : W32),
      d.Up → d.dirState p ≠ 0 →
      exec (.ptnCreate tag p vf mask shape quota) ⟨d, q⟩ = .next ⟨((d.takeService 0x10 tag.toNat (p.val + (if vf then 16 else 0)) [BitVec.ofNat 64 mask.toNat, BitVec.ofNat 64 shape.toNat, BitVec.ofNat 64 quota.toNat]).answerPtn p 0x10 tag.toNat 2 []).finish, q⟩) ∧
  (∀ (d : Dev) (q : List Instr) (tag : Byte) (p : Fin 16) (vf : Bool) (mask shape : W64) (quota : W32),
      d.Up → d.dirState p = 0 → d.clustersTaken p mask.toNat = true →
      exec (.ptnCreate tag p vf mask shape quota) ⟨d, q⟩ = .next ⟨((d.takeService 0x10 tag.toNat (p.val + (if vf then 16 else 0)) [BitVec.ofNat 64 mask.toNat, BitVec.ofNat 64 shape.toNat, BitVec.ofNat 64 quota.toNat]).answer 0x10 tag.toNat 3 []).finish, q⟩) ∧
  (∀ (d : Dev) (q : List Instr) (tag : Byte) (p : Fin 16) (vf : Bool) (mask shape : W64) (quota : W32),
      d.Up → d.dirState p = 0 → d.clustersTaken p mask.toNat = false → Dev.badShape mask.toNat (shapeFused shape.toNat) = true →
      exec (.ptnCreate tag p vf mask shape quota) ⟨d, q⟩ = .next ⟨((d.takeService 0x10 tag.toNat (p.val + (if vf then 16 else 0)) [BitVec.ofNat 64 mask.toNat, BitVec.ofNat 64 shape.toNat, BitVec.ofNat 64 quota.toNat]).answer 0x10 tag.toNat 4 []).finish, q⟩) ∧
  (∀ (d : Dev) (q : List Instr) (tag : Byte) (p : Fin 16) (vf : Bool) (mask shape : W64) (quota : W32),
      d.Up → d.dirState p = 0 → d.clustersTaken p mask.toNat = false → Dev.badShape mask.toNat (shapeFused shape.toNat) = false → d.queuesTaken p (shapeQbase shape.toNat) (shapeQcount shape.toNat) = true →
      exec (.ptnCreate tag p vf mask shape quota) ⟨d, q⟩ = .next ⟨((d.takeService 0x10 tag.toNat (p.val + (if vf then 16 else 0)) [BitVec.ofNat 64 mask.toNat, BitVec.ofNat 64 shape.toNat, BitVec.ofNat 64 quota.toNat]).answer 0x10 tag.toNat 5 []).finish, q⟩) ∧
  (∀ (d : Dev) (q : List Instr) (tag : Byte) (p : Fin 16),
      d.Up → d.dirState p = 0 →
      exec (.ptnDestroy tag p) ⟨d, q⟩ = .next ⟨((d.takeService 0x11 tag.toNat p []).answer 0x11 tag.toNat 2 []).finish, q⟩) ∧
  (∀ (d : Dev) (q : List Instr) (tag : Byte) (p : Fin 16),
      d.Up → d.dirState p = 3 ∨ d.dirState p = 4 →
      exec (.ptnDestroy tag p) ⟨d, q⟩ = .next ⟨((d.takeService 0x11 tag.toNat p []).answerPtn p 0x11 tag.toNat 11 []).finish, q⟩) ∧
  (∀ (d : Dev) (q : List Instr) (tag : Byte) (p : Fin 16),
      d.Up → d.dirState p = 0 →
      exec (.ptnQuery tag p) ⟨d, q⟩ = .next ⟨((d.takeService 0x13 tag.toNat p []).answer 0x13 tag.toNat 2 []).finish, q⟩)

/-- A quota is placed in a free range of HBM wherever one exists.
Where a place for a quota is found it is aligned to 1 MiB, lies within HBM and overlaps no range that R164 names; where none is found, no aligned
place in HBM is free. Which free range is taken is free. -/
def Obligations.QuotaGetsAFreeRange : Prop :=
  (∀ (d : Dev) (n a : Nat), d.placeQuota n = some a → d.quotaFits a n = true) ∧
  (∀ (d : Dev) (n a : Nat), d.placeQuota n = none → d.quotaFits a n = false)

/-- A closing partition becomes FREE, and a resize completes, once their clusters are fenced.
PTN_CLOSE_COMPLETE, once the interfaces of the partition's clusters are FENCED and no item of it is under way, returns its items, answers its held
SUBMITs, empties its queues and quota, clears its clusters, and leaves the number FREE with every field of its entry 0, answering PTN_DESTROY with
status 0 and then the answers held behind it. PTN_RESIZE_COMPLETE, at a cycle boundary, in a sequencer state that permits the change, with no item
under way that names a moved queue and the removed clusters FENCED, returns such items of its own and of the device list, moves queues, clusters and
state to the new shape, leaves RESIZING and answers with the count of returned items (log entry 25); a PARTITION reset that waited then acts. What the
stores of a cluster that leaves a fused pair hold is free (log entry 61). Completion: exec of ptnCloseComplete, ptnResizeComplete answers the next
state written out, for every state and operands that meet the conditions before it. -/
def Obligations.PartitionCompletionsTakeEffect : Prop :=
  (∀ (d : Dev) (q : List Instr) (p : Fin 16),
      d.active = true → d.dirState p = 4 → d.carrying p (fun _ => true) = false → d.carrying 16 (Dev.namesMoved true (d.g pDEV (DEV_DIR_QBASE p)) (d.g pDEV (DEV_DIR_QCOUNT p)) (d.g pDEV (DEV_DIR_QBASE p)) 0) = false → d.allFenced (d.clustersOf p) = true →
      exec (.ptnCloseComplete p) ⟨d, q⟩ =
        (.next ⟨(let lo := d.g pDEV (DEV_DIR_QBASE p)
        let n := d.g pDEV (DEV_DIR_QCOUNT p)
        let f := ((d.returnItems p fun _ => true).1.returnItems 16 (Dev.namesMoved true lo n lo 0)).1
        let f := f.placeAllHeld p
        let f := f.each (List.range 64) fun x ch => if x.g pCAP (CAP_CH_CFG_OWNER ch) == 16 then x.doZeroingComplete ch else x
        let f := ((f.clearQueues lo n).unload p).zeroRange (Dev.hubReq 0x9C) (d.ptnAt p).quotaBase (d.ptnAt p).quotaSize
        let f := f.each (f.clustersOf p) fun x n => x.releaseCluster n
        let f := (((f.resetBudgets p).mntFree (Dev.mntId 1 p 0)).setDir p 0 0 0 0).p pDEV (DEV_DIR_VF p) 0
        let f := (f.forgetSteps p).forgetSigs p
        let f := (((f.p pDEV (DEV_DIR_RESTORE_DUE p) 0).p pDEV (DEV_DIR_LINKED p) 0).resetRange (pPTN p) (pPTN p + 0x800)).setPtn p { Ptn.reset with clock := (d.ptnAt p).clock }
        Dev.releaseAnswers (match (d.ptnAt p).tagCmd with
        | some (op, tag) => f.answer op tag 0 []
        | none => f) p).finish, q⟩)) ∧
  (∀ (d : Dev) (q : List Instr) (p : Fin 16),
      d.active = true → d.dirState p = 3 → d.resizeWaits p = false →
      exec (.ptnResizeComplete p) ⟨d, q⟩ =
        (.next ⟨(let x := d.ptnAt p
        let gone := (maskList (d.mask p)).filter fun n => !x.pendMask.testBit n
        let added := (maskList x.pendMask).filter fun n => !(d.mask p).testBit n
        let lo := d.g pDEV (DEV_DIR_QBASE p)
        let lo' := shapeQbase x.pendShape
        let n' := shapeQcount x.pendShape
        let parted := ((maskList x.fusedMask).filter fun k => !(shapeFused x.pendShape).testBit k && x.pendMask.testBit (2 * k + 1)).map (2 * · + 1)
        let n := d.g pDEV (DEV_DIR_QCOUNT p)
        let r := d.returnItems p (Dev.namesMoved false lo n lo' n')
        let s := r.1.returnItems 16 (Dev.namesMoved true lo n lo' n')
        let f := (s.1.each gone fun f c => f.releasePorts c).moveQueues p lo n lo' n'
        let f := if x.retarget then f.retargetSave p else f
        let f := ((f.each gone fun f c => f.releaseCluster c).each added fun f c => f.clearCluster c).each parted fun f c => f.scrambleTiles c
        let f := f.setDir p (if f.b (pPTN p) PTN_SEQ_STATUS_LOADED then 2 else 1) x.pendMask lo' n'
        let f := f.iff (f.keepsOn p) fun f => f.wakeAll p
        let f := ((f.mntFree (Dev.mntId 6 p 0)).p (pPTN p) PTN_SEQ_CFG_EXTENDED (decide (shapeFused x.pendShape ≠ 0)).toNat).modPtn p fun y =>
          { y with fusedMask := shapeFused x.pendShape, pendMask := 0, pendShape := 0, retarget := false, tagCmd := none, resetWait := false }
        let f := Dev.releaseAnswers (match x.tagCmd with | some (op, tag) => f.answer op tag 0 [BitVec.ofNat 64 (r.2 + s.2)] | none => f) p
        if x.resetWait then f.ptnResetReq p else f).finish, q⟩))

/-- The boot loader takes, fetches, verifies and confirms a bundle, and a burn ends.
Where the loader's page is reached, GO in READY counts the attempt and fetches, or refuses a length outside 768 bytes to 4 MiB with code 1 (that it
does so at GO is the model's choice, log entry 28); ABORT refuses with code 8; a fetch that fails or has another length is refused with code 2, a
complete one is staged; verification (its digest and signature: log entry 51) refuses with the first failing check's code or runs the bundle and
releases the Puppeteer cores; STAGE_READY brings HBM and the service queues up, sets RT_ERR where the bundle's route tables hold an illegal entry, and
arms the Warden; CONFIRM burns where the arbiter grants FUSE; a burn that ends advances the counter. Completion: exec of bootGo, bootAbort,
bundleFetchComplete, bundleVerifyComplete, stageReady, confirm, burnComplete answers the next state written out, for every state and operands that
meet the conditions before it. -/
def Obligations.BootLoaderCommandsTakeEffect : Prop :=
  (∀ (d : Dev) (q : List Instr),
      d.active = true → d.reach .pf pLDR = .yes → d.bootState = 1 → 768 ≤ d.g pLDR LDR_BOOT_LEN_BYTES → d.g pLDR LDR_BOOT_LEN_BYTES ≤ 0x400000 →
      exec (.bootGo) ⟨d, q⟩ = .next ⟨((d.add pLDR LDR_BUNDLE_ATTEMPTS_COUNT 1).setBoot 2).finish, q⟩) ∧
  (∀ (d : Dev) (q : List Instr),
      d.active = true → d.reach .pf pLDR = .yes → d.bootState = 1 → d.g pLDR LDR_BOOT_LEN_BYTES < 768 ∨ 0x400000 < d.g pLDR LDR_BOOT_LEN_BYTES →
      exec (.bootGo) ⟨d, q⟩ = .next ⟨((d.add pLDR LDR_BUNDLE_ATTEMPTS_COUNT 1).refuseBundle 1).finish, q⟩) ∧
  (∀ (d : Dev) (q : List Instr),
      d.active = true → d.reach .pf pLDR = .yes → d.bootState = 2 ∨ d.bootState = 3 →
      exec (.bootAbort) ⟨d, q⟩ = .next ⟨(d.refuseBundle 8).finish, q⟩) ∧
  (∀ (d : Dev) (q : List Instr), d.active = true → d.bootState = 2 → exec (.bundleFetchComplete none) ⟨d, q⟩ = .next ⟨(d.refuseBundle 2).finish, q⟩) ∧
  (∀ (d : Dev) (q : List Instr) (bs : List Byte),
      d.active = true → d.bootState = 2 → bs.length ≠ d.g pLDR LDR_BOOT_LEN_BYTES →
      exec (.bundleFetchComplete (some bs)) ⟨d, q⟩ = .next ⟨(d.refuseBundle 2).finish, q⟩) ∧
  (∀ (d : Dev) (q : List Instr) (bs : List Byte),
      d.active = true → d.bootState = 2 → bs.length = d.g pLDR LDR_BOOT_LEN_BYTES →
      exec (.bundleFetchComplete (some bs)) ⟨d, q⟩ = .next ⟨({ d.setBoot 3 with boot := { d.boot with staging := bs } }).finish, q⟩) ∧
  (∀ (d : Dev) (q : List Instr),
      d.active = true → d.bootState = 3 →
      exec (.bundleVerifyComplete) ⟨d, q⟩ =
        (.next ⟨(let c := bundleRefusal d.boot.staging d.svnCount
        if c ≠ 0 then d.refuseBundle c
        else (((d.setBoot 4).p pLDR LDR_BOOT_STATUS_RUNNING_SVN (bundleSvn d.boot.staging)).p pLDR LDR_BUNDLE_VERSION_VERSION (bundleVersion d.boot.staging)).each
          (List.range 8) fun x k => x.p pPUP (PUP_CORE_STATE_STATE k) 1).finish, q⟩)) ∧
  (∀ (d : Dev) (q : List Instr),
      d.active = true → d.bootState = 4 →
      exec (.stageReady) ⟨d, q⟩ =
        (.next ⟨(let f := (d.setBoot 5).p pLDR LDR_BOOT_STATUS_UNCONFIRMED (decide (d.svnCount < d.g pLDR LDR_BOOT_STATUS_RUNNING_SVN)).toNat
        let f := ((f.p pCKG CKG_STATUS_HBM_LOCK 15).each (List.range 4) fun x k => x.on (pHMC k) HMC_STATUS_UP).stageQueues
        let f := if f.bundleRouteBad then (f.on pNOC NOC_RT_CTRL_RT_ERR).irq pNOC 3 else f
        (if f.g pWDN WDN_STATUS_STATE == 0 then f.p pWDN WDN_STATUS_STATE 1 else f).irq pLDR 0).finish, q⟩)) ∧
  (∀ (d : Dev) (q : List Instr),
      d.active = true → d.reach .pf pLDR = .yes → d.bootState = 5 → (d.mntRequest (Dev.mntId 7 16 0) 0 0x10000 false).2 = none →
      exec (.confirm) ⟨d, q⟩ =
        (.next ⟨(let f := (d.mntRequest (Dev.mntId 7 16 0) 0 0x10000 false).1.setBoot 6
        { f with boot := { f.boot with burn := some (f.g pLDR LDR_BOOT_STATUS_RUNNING_SVN) } }).finish, q⟩)) ∧
  (∀ (d : Dev) (q : List Instr),
      d.active = true → d.reach .pf pLDR = .yes → d.bootState = 5 → (d.mntRequest (Dev.mntId 7 16 0) 0 0x10000 false).2 ≠ none →
      exec (.confirm) ⟨d, q⟩ = .next ⟨(((d.mntRequest (Dev.mntId 7 16 0) 0 0x10000 false).1.p pLDR LDR_BOOT_STATUS_CONFIRM_RESULT 2).irq pLDR 1).finish, q⟩) ∧
  (∀ (d : Dev) (q : List Instr) (n : Nat),
      d.active = true → d.boot.burn = some n →
      exec (.burnComplete false) ⟨d, q⟩ =
        (.next ⟨(let f := ((d.burnAll n).p pLDR LDR_BOOT_STATUS_CONFIRM_RESULT 1).p pLDR LDR_BOOT_STATUS_UNCONFIRMED 0
        ((({ f with boot := { f.boot with burn := none } }.setBoot 5).mntFree (Dev.mntId 7 16 0)).irq pLDR 0).irq pLDR 1).finish, q⟩)) ∧
  (∀ (d : Dev) (q : List Instr) (n : Nat),
      d.active = true → d.boot.burn = some n → d.svnCount < n →
      exec (.burnComplete true) ⟨d, q⟩ =
        (.next ⟨(let f := (d.burnPart n).p pLDR LDR_BOOT_STATUS_CONFIRM_RESULT 3
        ((({ f with boot := { f.boot with burn := none } }.setBoot 5).mntFree (Dev.mntId 7 16 0)).irq pLDR 0).irq pLDR 1).finish, q⟩))

/-- The owner's hash is provisioned, tokens are challenged, presented, revoked and expire, and authentication is disabled.
OWNER_PROVISION of six words begins the burn, or answers 0x01, 0x0C, 0x0A or 0x0D, in this order, which is the model's choice (log entry 65); the end
of the burn provisions the owner. In authentication mode TOKEN_CHALLENGE answers a new nonce and TOKEN_REVOKE ends the token; outside it both answer
0x0E. TOKEN_PRESENT with the first failing check's status counts a refusal, with none it applies the token's rights, partitions and lifetime. A token
expires, and AUTH_CTRL.DISABLE ends the token and authentication. Completion: exec of ownerProvision, ownerBurnComplete, tokenChallenge, tokenPresent,
tokenRevoke, tokenExpire, authDisable answers the next state written out, for every state and operands that meet the conditions before it. -/
def Obligations.OwnerAndTokenCommandsTakeEffect : Prop :=
  (∀ (d : Dev) (q : List Instr) (tag : Byte) (ws : Words),
      d.Up → ws.length = 6 → d.boot.ownerProv = false →
      exec (.ownerProvision tag ws) ⟨d, q⟩ =
        (.next ⟨(let r := ((d.takeService 0x20 tag.toNat 0 ws).mntRequest (Dev.mntId 7 16 0) 0 0x10000 false)
        match r.2 with
        | some h => r.1.answer 0x20 tag.toNat 0x0A [BitVec.ofNat 64 h]
        | none =>
          if d.boot.ownerHash &&& ~~~(BitVec.ofNat 384 (Dev.wordsNat ws)) ≠ 0 then (r.1.mntFree (Dev.mntId 7 16 0)).answer 0x20 tag.toNat 0x0D []
          else { r.1 with boot := { r.1.boot with provTag := some (tag.toNat, BitVec.ofNat 384 (Dev.wordsNat ws)) } }).finish, q⟩)) ∧
  (∀ (d : Dev) (q : List Instr) (tag : Byte) (ws : Words),
      d.Up → ws.length ≠ 6 →
      exec (.ownerProvision tag ws) ⟨d, q⟩ = .next ⟨((d.takeService 0x20 tag.toNat 0 ws).answer 0x20 tag.toNat 1 []).finish, q⟩) ∧
  (∀ (d : Dev) (q : List Instr) (tag : Byte) (ws : Words),
      d.Up → ws.length = 6 → d.boot.ownerProv = true →
      exec (.ownerProvision tag ws) ⟨d, q⟩ = .next ⟨((d.takeService 0x20 tag.toNat 0 ws).answer 0x20 tag.toNat 0x0C []).finish, q⟩) ∧
  (∀ (d : Dev) (q : List Instr) (tag : Nat) (hash : BitVec 384),
      d.active = true → d.boot.provTag = some (tag, hash) →
      exec (.ownerBurnComplete false) ⟨d, q⟩ =
        (.next ⟨(let f := Dev.mntFree { d with boot := { d.boot with provTag := none } } (Dev.mntId 7 16 0)
        let f : Dev := { f with boot := { f.boot with ownerHash := hash, ownerProv := true } }
        (f.setAuthMode.p pFUS FUS_STATUS_OWNER_FAULT 0).answer 0x20 tag 0 []).finish, q⟩)) ∧
  (∀ (d : Dev) (q : List Instr) (tag : Byte),
      d.Up → (d.takeService 0x30 tag.toNat 0 []).authMode = true →
      exec (.tokenChallenge tag) ⟨d, q⟩ =
        (.next ⟨(let f := d.takeService 0x30 tag.toNat 0 []
        ({ f.tick with nonce := some (Config.random f.fresh) }).answer 0x30 tag.toNat 0
          ((List.range 4).map fun i => BitVec.ofNat 64 ((Config.random f.fresh).toNat >>> (64 * i)))).finish, q⟩)) ∧
  (∀ (d : Dev) (q : List Instr) (tag : Byte),
      d.Up → (d.takeService 0x30 tag.toNat 0 []).authMode = false →
      exec (.tokenChallenge tag) ⟨d, q⟩ = .next ⟨((d.takeService 0x30 tag.toNat 0 []).answer 0x30 tag.toNat 0x0E []).finish, q⟩) ∧
  (∀ (d : Dev) (q : List Instr) (tag : Byte) (ws : Words),
      d.Up →
      exec (.tokenPresent tag ws) ⟨d, q⟩ =
        (.next ⟨(let t := ws.flatMap fun w => leBytes 8 w.toNat
        let st := if ws.length ≠ 30 then 1 else if !(d.takeService 0x31 tag.toNat 0 ws).authMode then 0x0E else (d.takeService 0x31 tag.toNat 0 ws).tokenStatus t
        if st ≠ 0 then (((d.takeService 0x31 tag.toNat 0 ws).add pTRC TRC_TOKENS_REFUSED_COUNT 1).p pTRC TRC_LAST_REFUSAL_STATUS st).answer 0x31 tag.toNat st []
        else
          let f := ({ (d.takeService 0x31 tag.toNat 0 ws) with nonce := none }.p pTRC TRC_AUTH_RIGHTS (leAt t 6 2)).p pTRC TRC_AUTH_PARTITIONS (leAt t 8 2)
          let f := f.p pTRC TRC_EXPIRES_NS (if leAt t 0x0C 4 = 0 then 0 else f.now + leAt t 0x0C 4 * 1000000000)
          (f.applyRights.add pTRC TRC_TOKENS_OK_COUNT 1).answer 0x31 tag.toNat 0 []).finish, q⟩)) ∧
  (∀ (d : Dev) (q : List Instr) (tag : Byte),
      d.Up → (d.takeService 0x32 tag.toNat 0 []).authMode = true →
      exec (.tokenRevoke tag) ⟨d, q⟩ = .next ⟨((d.takeService 0x32 tag.toNat 0 []).endToken.answer 0x32 tag.toNat 0 []).finish, q⟩) ∧
  (∀ (d : Dev) (q : List Instr) (tag : Byte),
      d.Up → (d.takeService 0x32 tag.toNat 0 []).authMode = false →
      exec (.tokenRevoke tag) ⟨d, q⟩ = .next ⟨((d.takeService 0x32 tag.toNat 0 []).answer 0x32 tag.toNat 0x0E []).finish, q⟩) ∧
  (∀ (d : Dev) (q : List Instr), d.active = true → d.g pTRC TRC_EXPIRES_NS ≠ 0 → exec (.tokenExpire) ⟨d, q⟩ = .next ⟨(d.endToken).finish, q⟩) ∧
  (∀ (d : Dev) (q : List Instr), d.Up → exec (.authDisable) ⟨d, q⟩ = .next ⟨((d.on pTRC TRC_AUTH_DISABLED).endToken).finish, q⟩)

/-- A batch of frames begins, takes its frames and ends; the scrubber walks, passes, classifies and rewrites.
LOAD GO with a count and no batch under way begins a batch of that many frames, LOAD REPLAY one of the image area's frames; without an image REPLAY
ends at once with REASON STATE (log entry 30). ABORT ends a batch after its current frame. A frame whose bytes could not be read is refused with
REASON 1 (and LOAD_SEQ 0, the model's choice, log entry 65) and ends the batch; another is refused or applied as the checks say, and the batch goes on
until its count or an ABORT. A walk step reads a word of a loaded cluster with its check and counts the walk after the last word of the last cluster;
a requested pass asks the arbiter, waiting passes ask again, a pass that ends reads every listed word of its partition (log entry 31) and tells
whether one was uncorrectable. A word raised to the scrubber is classified: a nonessential one is rewritten, an essential one is counted, logged and
follows the partition's policy. A due rewrite writes the image area's copy. Completion: exec of loadGo, loadAbort, loadReplay, frame, scrubWalkRead,
scrubPassRequest, scrubPassStart, scrubPassComplete, upset, upsetRewrite answers the next state written out, for every state and operands that meet
the conditions before it. -/
def Obligations.LoaderAndScrubberCommandsTakeEffect : Prop :=
  (∀ (d : Dev) (q : List Instr) (p : Fin 16),
      d.Takes p → d.b (pPTN p) PTN_LOAD_STATUS_BUSY = false → d.g (pPTN p) PTN_LOAD_COUNT_COUNT ≠ 0 →
      exec (.loadGo p) ⟨d, q⟩ = .next ⟨(d.startBatch p (d.g (pPTN p) PTN_LOAD_COUNT_COUNT) false).finish, q⟩) ∧
  (∀ (d : Dev) (q : List Instr) (p : Fin 16),
      d.Takes p → d.b (pPTN p) PTN_LOAD_STATUS_BUSY = true →
      exec (.loadAbort p) ⟨d, q⟩ = .next ⟨(d.modPtn p fun x => { x with dstop := true }).finish, q⟩) ∧
  (∀ (d : Dev) (q : List Instr) (p : Fin 16) (m : Img),
      d.Takes p → d.b (pPTN p) PTN_LOAD_STATUS_BUSY = false → (d.ptnAt p).img = some m →
      exec (.loadReplay p) ⟨d, q⟩ = .next ⟨(d.startBatch p m.frames true).finish, q⟩) ∧
  (∀ (d : Dev) (q : List Instr) (p : Fin 16),
      d.Takes p → d.b (pPTN p) PTN_LOAD_STATUS_BUSY = false → (d.ptnAt p).img = none →
      exec (.loadReplay p) ⟨d, q⟩ = .next ⟨((((d.p (pPTN p) PTN_LOAD_STATUS_REASON 11).p (pPTN p) PTN_LOAD_STATUS_INDEX 0).on (pPTN p) PTN_LOAD_STATUS_DONE).irq (pPTN p) 9).finish, q⟩) ∧
  (∀ (d : Dev) (q : List Instr) (p : Fin 16),
      d.active = true → d.b (pPTN p) PTN_LOAD_STATUS_BUSY = true → (d.ptnAt p).replay = false →
      exec (.frame p none) ⟨d, q⟩ = .next ⟨((((d.p (pPTN p) PTN_LOAD_STATUS_REASON 1).p (pPTN p) PTN_LOAD_SEQ_SEQ 0).add (pPTN p) PTN_FRAMES_REFUSED_COUNT 1).endBatch p).finish, q⟩) ∧
  (∀ (d : Dev) (q : List Instr) (p : Fin 16) (data : Option (List Byte)),
      d.active = true → d.b (pPTN p) PTN_LOAD_STATUS_BUSY = true → (d.ptnAt p).replay = false → d.frameWaits p data = false →
      exec (.frame p data) ⟨d, q⟩ =
        (.next ⟨(let r := d.takeFrame p data
        if !r.2 then r.1.endBatch p
        else
          let f := (r.1.p (pPTN p) PTN_LOAD_STATUS_INDEX (r.1.g (pPTN p) PTN_LOAD_STATUS_INDEX + 1)).modPtn p fun x => { x with batch := x.batch - 1 }
          if (f.ptnAt p).batch == 0 || (f.ptnAt p).dstop then f.endBatch p else f).finish, q⟩)) ∧
  (∀ (d : Dev) (q : List Instr) (n : Fin 64) (w : WordLoc) (i : Nat),
      d.active = true → d.ownerOf n = some i → d.b (pPTN i) PTN_SEQ_STATUS_LOADED = true → d.g pSCR SCR_CFG_RATE ≠ 0 → d.b pSCR SCR_CFG_DMEM = true →
      exec (.scrubWalkRead n w) ⟨d, q⟩ =
        (.next ⟨(let f := d.scrubRead n w
        if w == .mesh 7 255 && d.lastWalked == some n.val then f.add pSCR SCR_WALK_COUNT_COUNT 1 else f).finish, q⟩)) ∧
  (∀ (d : Dev) (q : List Instr) (p : Fin 16),
      d.Up →
      exec (.scrubPassRequest p) ⟨d, q⟩ = .next ⟨((d.p pSCR SCR_PASS_PARTITION p).scrubRequest p false).finish, q⟩) ∧
  (∀ (d : Dev) (q : List Instr),
      d.active = true →
      exec (.scrubPassStart) ⟨d, q⟩ = .next ⟨(d.each (List.range 16) fun x i => if x.mnt.wait.contains (Dev.mntId 1 i 0) then x.scrubRequest i true else x).finish, q⟩) ∧
  (∀ (d : Dev) (q : List Instr) (i : Nat),
      d.active = true → (List.range 16).find? (fun i => d.holds (Dev.mntId 1 i 0)) = some i →
      exec (.scrubPassComplete) ⟨d, q⟩ =
        (.next ⟨(let words := (d.clustersOf i).flatMap fun n => (d.listedWords n).map fun w => (n, w)
        let found := words.any fun x => d.badWord x.1 x.2
        let f := (d.each words fun f x => f.scrubRead x.1 x.2).mntFree (Dev.mntId 1 i 0)
        let f := if f.scrubHeld then f else f.p pSCR SCR_PASS_STATUS_PASS_STATE 3
        (f.p pSCR SCR_PASS_STATUS_UPSET_FOUND found.toNat).passDiag i found).finish, q⟩)) ∧
  (∀ (d : Dev) (q : List Instr) (n : Fin 64) (w : WordLoc) (fetch : Bool) (i : Nat),
      d.active = true → d.raised.contains (n.val, w, fetch) = true → d.ownerOf n = some i →
      exec (.upset n w fetch) ⟨d, q⟩ =
        (.next ⟨(let r := Dev.essential { d with raised := d.raised.erase (n.val, w, fetch) } i n w fetch
        let f := r.1.scrLast n w r.2 fetch
        if !r.2 then f.dueRewrite n w false
        else
          let f : Dev := { f with rewrites := f.rewrites.filter fun e => !(e.1 == n.val && e.2.1 == w) }
          let f := ((f.add (pPTN i) PTN_UPSET_COUNT 1).irq (pPTN i) 10).add pSCR SCR_UE_ESSENTIAL_COUNT 1
          (f.raise (0x070 + i) 1 i (f.word pSCR 0x120 fldsSCR) (locKind w).2.2).upsetPolicy i n w).finish, q⟩)) ∧
  (∀ (d : Dev) (q : List Instr) (n : Fin 64) (w : WordLoc) (i : Nat) (e : Nat × WordLoc × Bool),
      d.active = true → d.rewrites.find? (fun e => e.1 == n.val && e.2.1 == w) = some e → d.ownerOf n = some i →
      exec (.upsetRewrite n w) ⟨d, q⟩ =
        (.next ⟨(let c := d.imageWord i n w
        match c.2 with
        | none => c.1
        | some v => (c.1.putWord n w v).add pSCR (if e.2.2 then SCR_RELOADS_COUNT else SCR_UE_NONESSENTIAL_COUNT) 1).finish, q⟩))

/-- Enabling, markers, acquisition, lane loss and disabling move a lane group as R232 gives.
Enabling a disabled group in LINK mode turns its lane clocks on and starts ACQUIRE with nothing aligned; a received clock is recorded on a group that
is not OFF; a valid marker sets LOCK of its lane and moves the group on, an invalid one counts, four in a row of an aligned lane lose it; one
acquisition time without lock sets ACQ_TIMEOUT and changes no state; a lost lane puts the group in ACQUIRE, with the link down first where it was UP,
and in TEST or BRIDGE loses its clock alone; markers leave on all eight lanes, with the codewords of their period (log entry 52); disabling puts the
group in OFF with its clocks gated. Completion: exec of laneGroupEnable, laneGroupDisable, laneClockRecovered, markerSend, marker, acqTimeout,
laneLoss answers the next state written out, for every state and operands that meet the conditions before it. -/
def Obligations.LaneGroupsTrainInOrder : Prop :=
  (∀ (d : Dev) (q : List Instr) (g : Fin 16),
      d.active = true → d.reach .pf (pLGRP g) = .yes → d.b (pLGRP g) LGRP_CFG_EN = false → d.lgMode g = 0 →
      exec (.laneGroupEnable g) ⟨d, q⟩ = .next ⟨((((d.on (pLGRP g) LGRP_CFG_EN).putBit pCKG CKG_STATUS_LANE_LOCK g true).setLink g { Link.reset with recovered := (((d.on (pLGRP g) LGRP_CFG_EN).putBit pCKG CKG_STATUS_LANE_LOCK g true).linkAt g).recovered }).toAcquire g).finish, q⟩) ∧
  (∀ (d : Dev) (q : List Instr) (g : Fin 16),
      d.active = true → d.reach .pf (pLGRP g) = .yes → d.b (pLGRP g) LGRP_CFG_EN = true →
      exec (.laneGroupEnable g) ⟨d, q⟩ = .next ⟨(d).finish, q⟩) ∧
  (∀ (d : Dev) (q : List Instr) (g : Fin 16),
      d.active = true → d.reach .pf (pLGRP g) = .yes → d.g (pLGRP g) LGRP_STATUS_STATE = 3 →
      exec (.laneGroupDisable g) ⟨d, q⟩ =
        (.next ⟨(let f : Dev := ((d.p (pLGRP g) LGRP_CFG_EN 0).p (pLGRP g) LGRP_STATUS_STATE 0).p (pLGRP g) LGRP_STATUS_LANE_LOCK 0
        let f := (((f.p (pLGRP g) LGRP_STATUS_FAR_ALIGNED 0).p (pLGRP g) LGRP_PRBS_STATUS_LOCK 0).p (pLGRP g) LGRP_LOOP_MODE 0).p (pLGRP g) LGRP_BRIDGE_STATUS_ALIGNED 0
        (f.putBit pCKG CKG_STATUS_LANE_LOCK g false).setLink g Link.reset).finish, q⟩)) ∧
  (∀ (d : Dev) (q : List Instr) (g : Fin 16),
      d.active = true → d.reach .pf (pLGRP g) = .yes → d.g (pLGRP g) LGRP_STATUS_STATE = 5 →
      exec (.laneGroupDisable g) ⟨d, q⟩ =
        (.next ⟨(let f : Dev := (((d.mntFree (Dev.mntId 4 16 g)).p (pLGRP g) LGRP_CFG_EN 0).p (pLGRP g) LGRP_STATUS_STATE 0).p (pLGRP g) LGRP_STATUS_LANE_LOCK 0
        let f := (((f.p (pLGRP g) LGRP_STATUS_FAR_ALIGNED 0).p (pLGRP g) LGRP_PRBS_STATUS_LOCK 0).p (pLGRP g) LGRP_LOOP_MODE 0).p (pLGRP g) LGRP_BRIDGE_STATUS_ALIGNED 0
        (f.putBit pCKG CKG_STATUS_LANE_LOCK g false).setLink g Link.reset).finish, q⟩)) ∧
  (∀ (d : Dev) (q : List Instr) (g : Fin 16) (l : Fin 8),
      d.active = true → d.g (pLGRP g) LGRP_STATUS_STATE ≠ 0 →
      exec (.laneClockRecovered g l) ⟨d, q⟩ = .next ⟨(d.modLink g fun x => { x with recovered := x.recovered ||| 1 <<< l.val }).finish, q⟩) ∧
  (∀ (d : Dev) (q : List Instr) (g : Fin 16),
      d.active = true → 1 ≤ d.g (pLGRP g) LGRP_STATUS_STATE → d.g (pLGRP g) LGRP_STATUS_STATE < 3 → (d.linkAt g).lastStamp = none →
      exec (.markerSend g) ⟨d, q⟩ =
        (.next ⟨(let f := (d.modLink g fun x => { x with sent := (d.steps32 :: x.sent).take 64 }).holdInjection g
        let r := (f.linkAt g).period false
        (f.setLink g r.2).tick.each (List.range 8) fun x l =>
          x.sendPeriod g l (if f.g (pLGRP g) LGRP_STATUS_VER == 1 then (List.range periodData).map fun k => Config.al1Bit (x.fresh + l) k else r.1 l)
            (markerBits l g x.devNum (x.offered g) false d.steps32 0 0)).finish, q⟩)) ∧
  (∀ (d : Dev) (q : List Instr) (g : Fin 16) (s : Nat × Nat),
      d.active = true → 3 ≤ d.g (pLGRP g) LGRP_STATUS_STATE → d.g (pLGRP g) LGRP_STATUS_STATE ≤ 4 → (d.linkAt g).lastStamp = some s →
      exec (.markerSend g) ⟨d, q⟩ =
        (.next ⟨(let f := (d.modLink g fun x => { x with sent := (d.steps32 :: x.sent).take 64 }).holdInjection g
        let r := (f.linkAt g).period (d.g (pLGRP g) LGRP_STATUS_STATE == 4)
        (f.setLink g r.2).tick.each (List.range 8) fun x l =>
          x.sendPeriod g l (if f.g (pLGRP g) LGRP_STATUS_VER == 1 then (List.range periodData).map fun k => Config.al1Bit (x.fresh + l) k else r.1 l)
            (markerBits l g x.devNum (x.offered g) true d.steps32 s.1 (stepDiff d.steps32 s.2))).finish, q⟩)) ∧
  (∀ (s : Nat) (bits : List Bool), (scramble (scramble bits s).1 s).1 = bits) ∧
  (∀ (d : Dev) (q : List Instr) (g : Fin 16) (l : Fin 8) (bits : BitVec 320) (ui : Nat),
      d.active = true → d.g (pLGRP g) LGRP_STATUS_STATE ≠ 0 → d.g (pLGRP g) LGRP_STATUS_STATE ≤ 4 → l ≠ 0 → markerValid bits.toNat = true →
      exec (.marker g l bits ui) ⟨d, q⟩ =
        (.next ⟨(let f := ((d.capLine g l false false (bitsLsb bits.toNat 320)).noteMarker g l bits.toNat ui).modLink g fun x => { x with rxScr := SMap.put x.rxScr l (scrambleSeed l) }
        f.bringUp g l bits.toNat).finish, q⟩)) ∧
  (∀ (d : Dev) (q : List Instr) (g : Fin 16) (bits : BitVec 320) (ui : Nat),
      d.active = true → d.g (pLGRP g) LGRP_STATUS_STATE ≠ 0 → d.g (pLGRP g) LGRP_STATUS_STATE ≤ 4 → markerValid bits.toNat = true →
      exec (.marker g 0 bits ui) ⟨d, q⟩ =
        (.next ⟨(let f := ((d.capLine g 0 false false (bitsLsb bits.toNat 320)).noteMarker g 0 bits.toNat ui).modLink g fun x => { x with rxScr := SMap.put x.rxScr 0 (scrambleSeed 0) }
        (f.modLink g fun x => { x with lastStamp := if bitsAt bits.toNat 56 4 < 2 then none else some (bitsAt bits.toNat 64 32, f.steps32) }).bringUp g 0 bits.toNat).finish, q⟩)) ∧
  (∀ (d : Dev) (q : List Instr) (g : Fin 16) (l : Fin 8) (bits : BitVec 320) (ui : Nat),
      d.active = true → 2 ≤ d.g (pLGRP g) LGRP_STATUS_STATE → d.g (pLGRP g) LGRP_STATUS_STATE ≤ 4 → markerValid bits.toNat = false → SMap.get 0 (d.linkAt g).good (8 + l.val) < 3 →
      exec (.marker g l bits ui) ⟨d, q⟩ =
        (.next ⟨((d.capLine g l false false (bitsLsb bits.toNat 320)).modLink g fun x =>
          { x with good := SMap.put (SMap.put x.good l 0) (8 + l.val) (SMap.get 0 (d.linkAt g).good (8 + l.val) + 1), uncPer := SMap.del x.uncPer l, rxScr := SMap.put x.rxScr l (scrambleSeed l) }).finish, q⟩)) ∧
  (∀ (d : Dev) (q : List Instr) (g : Fin 16) (l : Fin 8) (bits : BitVec 320) (ui : Nat),
      d.active = true → 2 ≤ d.g (pLGRP g) LGRP_STATUS_STATE → d.g (pLGRP g) LGRP_STATUS_STATE ≤ 4 → markerValid bits.toNat = false → 3 ≤ SMap.get 0 (d.linkAt g).good (8 + l.val) →
      exec (.marker g l bits ui) ⟨d, q⟩ =
        (.next ⟨(((d.capLine g l false false (bitsLsb bits.toNat 320)).modLink g fun x =>
          { x with good := SMap.put (SMap.put x.good l 0) (8 + l.val) (SMap.get 0 (d.linkAt g).good (8 + l.val) + 1), uncPer := SMap.del x.uncPer l, rxScr := SMap.put x.rxScr l (scrambleSeed l) }).loseLane g l).finish, q⟩)) ∧
  (∀ (d : Dev) (q : List Instr) (g : Fin 16) (l : Fin 8) (bits : BitVec 320) (ui : Nat),
      d.active = true → d.g (pLGRP g) LGRP_STATUS_STATE = 1 → markerValid bits.toNat = false →
      exec (.marker g l bits ui) ⟨d, q⟩ =
        (.next ⟨(((d.capLine g l false false (bitsLsb bits.toNat 320)).modLink g fun x =>
          { x with good := SMap.put (SMap.put x.good l 0) (8 + l.val) (SMap.get 0 (d.linkAt g).good (8 + l.val) + 1), uncPer := SMap.del x.uncPer l, rxScr := SMap.put x.rxScr l (scrambleSeed l) }).putBit (pLGRP g) LGRP_STATUS_LANE_LOCK l false).finish, q⟩)) ∧
  (∀ (d : Dev) (q : List Instr) (g : Fin 16),
      d.active = true → d.g (pLGRP g) LGRP_STATUS_STATE = 1 →
      exec (.acqTimeout g) ⟨d, q⟩ = .next ⟨(d.on (pLGRP g) LGRP_STATUS_ACQ_TIMEOUT).finish, q⟩) ∧
  (∀ (d : Dev) (q : List Instr) (g : Fin 16),
      d.active = true → d.g (pLGRP g) LGRP_STATUS_STATE ≠ 1 →
      exec (.acqTimeout g) ⟨d, q⟩ = .next ⟨(d).finish, q⟩) ∧
  (∀ (d : Dev) (q : List Instr) (g : Fin 16) (l : Fin 8),
      d.active = true → 1 ≤ d.g (pLGRP g) LGRP_STATUS_STATE → d.g (pLGRP g) LGRP_STATUS_STATE ≤ 3 →
      exec (.laneLoss g l) ⟨d, q⟩ = .next ⟨((d.toAcquire g).modLink g fun x => { x with recovered := x.recovered &&& (255 - 1 <<< l.val), uncPer := SMap.del x.uncPer l }).finish, q⟩) ∧
  (∀ (d : Dev) (q : List Instr) (g : Fin 16) (l : Fin 8),
      d.active = true → d.g (pLGRP g) LGRP_STATUS_STATE = 4 →
      exec (.laneLoss g l) ⟨d, q⟩ = .next ⟨(((d.linkDown g 1 1).toAcquire g).modLink g fun x => { x with recovered := x.recovered &&& (255 - 1 <<< l.val), uncPer := SMap.del x.uncPer l }).finish, q⟩) ∧
  (∀ (d : Dev) (q : List Instr) (g : Fin 16) (l : Fin 8),
      d.active = true → 4 < d.g (pLGRP g) LGRP_STATUS_STATE →
      exec (.laneLoss g l) ⟨d, q⟩ = .next ⟨(d.modLink g fun x => { x with recovered := x.recovered &&& (255 - 1 <<< l.val) }).finish, q⟩)

/-- A received codeword is counted by how it decodes; link flits, credits and slot frames act on a link that is UP.
A codeword counts CW_TOTAL and, corrected, CW_CORR and its symbols; an uncorrectable one counts on its lane, raises its interrupt and event, and 17 in
a marker period lose the lane. A link flit that fails its check counts FLIT_CRC_ERR and is answered by one NAK; a whole flit with the awaited number
is taken, its credit returned (by null flits at once: log entries 32 and 52). A broken credit message is counted, an intact one adds its credits. A
slot frame is kept for executed step k + BUDGET, lowering SLACK_MIN; a late one counts SLOT_LATE, sets SLOT_ERR and raises a system-wide freeze; a
group that is ALIGNED only offers it to the comparators. Completion: exec of codeword, linkFlit, credit, slotFrame answers the next state written out,
for every state and operands that meet the conditions before it. -/
def Obligations.CodewordsFlitsAndSlotsAreHandled : Prop :=
  (∀ (d : Dev) (q : List Instr) (g : Fin 16) (l : Fin 8) (data check : List (Fin 1024)) (symbols : List Nat),
      d.active = true → 1 ≤ d.g (pLGRP g) LGRP_STATUS_STATE → d.g (pLGRP g) LGRP_STATUS_STATE ≤ 4 → symbols = (data ++ check).map (·.val) → rsDecode symbols = .clean →
      exec (.codeword g l data check) ⟨d, q⟩ = .next ⟨(((d.add (pLGRP g) LGRP_CW_TOTAL_COUNT 1).capLine g l false false (bitsOfSymbols symbols)).takeCodeword g l symbols false).finish, q⟩) ∧
  (∀ (d : Dev) (q : List Instr) (g : Fin 16) (l : Fin 8) (data check : List (Fin 1024)) (symbols : List Nat) (k : Nat),
      d.active = true → 1 ≤ d.g (pLGRP g) LGRP_STATUS_STATE → d.g (pLGRP g) LGRP_STATUS_STATE ≤ 4 → symbols = (data ++ check).map (·.val) → rsDecode symbols = .corrected k →
      exec (.codeword g l data check) ⟨d, q⟩ = .next ⟨(((((d.add (pLGRP g) LGRP_CW_TOTAL_COUNT 1).capLine g l false false (bitsOfSymbols symbols)).add (pLGRP g) LGRP_CW_CORR_COUNT 1).add (pLGRP g) LGRP_SYM_CORR_COUNT k).takeCodeword g l (rsCorrect symbols) false).finish, q⟩) ∧
  (∀ (d : Dev) (q : List Instr) (g : Fin 16) (l : Fin 8) (data check : List (Fin 1024)) (symbols : List Nat),
      d.active = true → 1 ≤ d.g (pLGRP g) LGRP_STATUS_STATE → d.g (pLGRP g) LGRP_STATUS_STATE ≤ 4 → symbols = (data ++ check).map (·.val) → rsDecode symbols = .bad →
      exec (.codeword g l data check) ⟨d, q⟩ =
        (.next ⟨(let f := (d.add (pLGRP g) LGRP_CW_TOTAL_COUNT 1).capLine g l false false (bitsOfSymbols symbols)
        let f := ((f.add (pLGRP g) LGRP_CW_UNCORR_COUNT 1).add (pLGRP g) (LGRP_LANE_UNCORR_COUNT l) 1).irq (pLGRP g) 4
        let f := f.raise (0x080 + g.val) 2 16 (f.lgStatus g) l
        let h := (f.modLink g fun x => { x with uncPer := SMap.put x.uncPer l (SMap.get 0 (f.linkAt g).uncPer l + 1) }).takeCodeword g l symbols true
        if 16 < SMap.get 0 (f.linkAt g).uncPer l + 1 then h.loseLane g l else h).finish, q⟩)) ∧
  (∀ (d : Dev) (g l : Nat) (symbols : List Nat) (bad : Bool), SMap.get? (d.linkAt g).rxScr l = none → d.takeCodeword g l symbols bad = d) ∧
  (∀ (d : Dev) (q : List Instr) (g : Fin 16) (bits : BitVec 320) (bad : Bool),
      d.active = true → d.g (pLGRP g) LGRP_STATUS_STATE = 4 → bad = true ∨ crc32c (leBytes 36 bits.toNat) ≠ bitsAt bits.toNat 288 32 →
      exec (.linkFlit g bits bad) ⟨d, q⟩ =
        (.next ⟨(let f := d.add (pLGRP g) LGRP_FLIT_CRC_ERR_COUNT 1
        if (f.linkAt g).nakDue then f else (f.setLink g { f.linkAt g with nakDue := true }).sendNull g true).finish, q⟩)) ∧
  (∀ (d : Dev) (q : List Instr) (g : Fin 16) (bits : BitVec 320),
      d.active = true → d.g (pLGRP g) LGRP_STATUS_STATE = 4 → crc32c (leBytes 36 bits.toNat) = bitsAt bits.toNat 288 32 → bits.toNat.testBit 26 = false → bits.toNat.testBit 27 = false → bitsAt bits.toNat 28 4 = 1 → bitsAt bits.toNat 0 12 = (d.linkAt g).rxSeq →
      exec (.linkFlit g bits false) ⟨d, q⟩ = .next ⟨((((d.modLink g fun x => { x with rxSeq := (x.rxSeq + 1) % 4096, rxAny := true, nakDue := false, rxPart := x.rxPart ++ [BitVec.ofNat 256 (bits.toNat >>> 32)] }).control g 8 (bitsAt bits.toNat 12 2 ||| 4)).sendNull g false).deliverFlits g).finish, q⟩) ∧
  (∀ (d : Dev) (q : List Instr) (g : Fin 16) (vc : Fin 4) (count : Nat),
      d.active = true → d.g (pLGRP g) LGRP_STATUS_STATE = 4 →
      exec (.credit g vc count true) ⟨d, q⟩ = .next ⟨((d.modLink g fun x => { x with credits := SMap.set 0 x.credits vc (SMap.get 0 x.credits vc + count) }).sendWaiting g).finish, q⟩) ∧
  (∀ (d : Dev) (q : List Instr) (g : Fin 16) (vc : Fin 4) (count : Nat),
      d.active = true → d.g (pLGRP g) LGRP_STATUS_STATE = 4 →
      exec (.credit g vc count false) ⟨d, q⟩ = .next ⟨(d.ctlBad g).finish, q⟩) ∧
  (∀ (d : Dev) (q : List Instr) (g : Fin 16) (k : Nat) (frame : BitVec 432) (n : Fin 14),
      d.active = true → d.g (pLGRP g) LGRP_STATUS_STATE = 4 → d.g (pLGRP g) LGRP_STATUS_VER = 2 →
      exec (.slotFrame g k ⟨frame, n⟩) ⟨d, q⟩ =
        (.next ⟨(let f := (d.offerFrame g frame.toNat).takeFragment g (bitsAt frame.toNat 2 14) false
        let h := if f.b pLNK (LNK_BUDGET_SLOTS g) then f.takeSlots g k ((List.range n.val).map fun j => frameField frame.toNat j) else f
        h.takePackets g frame.toNat 0 n).finish, q⟩)) ∧
  (∀ (d : Dev) (q : List Instr) (g : Fin 16) (k : Nat) (frame : BitVec 432) (n : Fin 14),
      d.active = true → d.g (pLGRP g) LGRP_STATUS_STATE = 3 →
      exec (.slotFrame g k ⟨frame, n⟩) ⟨d, q⟩ = .next ⟨(d.offerFrame g frame.toNat).finish, q⟩) ∧
  (∀ (d : Dev) (q : List Instr) (g : Fin 16) (k : Nat) (frame : BitVec 432) (n : Fin 14),
      d.active = true → d.g (pLGRP g) LGRP_STATUS_STATE ≠ 3 → d.g (pLGRP g) LGRP_STATUS_STATE ≠ 4 ∨ d.g (pLGRP g) LGRP_STATUS_VER ≠ 2 →
      exec (.slotFrame g k ⟨frame, n⟩) ⟨d, q⟩ = .next ⟨(d).finish, q⟩) ∧
  ((∀ (d : Dev) (g k : Nat) (fields : List W32), (d.ptnAt (d.g pLNK (LNK_BUDGET_OWNER g))).exec ≤ k + d.g pLNK (LNK_BUDGET_BUDGET g) →
      d.takeSlots g k fields = (d.p (pLGRP g) LGRP_SLACK_MIN (Nat.min (d.g (pLGRP g) LGRP_SLACK_MIN) (k + d.g pLNK (LNK_BUDGET_BUDGET g) - (d.ptnAt (d.g pLNK (LNK_BUDGET_OWNER g))).exec))).modLink g
        fun x => { x with slots := SMap.put x.slots (k + d.g pLNK (LNK_BUDGET_BUDGET g)) fields }) ∧
      (∀ (d : Dev) (g k : Nat) (fields : List W32), k + d.g pLNK (LNK_BUDGET_BUDGET g) < (d.ptnAt (d.g pLNK (LNK_BUDGET_OWNER g))).exec →
      d.takeSlots g k fields = (d.add (pLGRP g) LGRP_SLOT_LATE_COUNT 1).slotErr))

/-- Lane tests, injections, PRBS checks and speed-bridge lanes take effect.
A lane test is refused where the slot owner is not STOPPED or the group is the upstream link, and else starts once the arbiter grants it, the link
down first (the order of these tests is the model's, log entry 32). INJ.GO is armed where its target is open, else it sets REFUSED. Checked bits go to
the sampler and, where CHK is 1, to each lane's checker. A bridge lane's enable is stored where the owner has the queue enabled, else Q_REFUSED is
set. A bridge lane sends its fill word while transmit is off; a received word without alignment is searched for ALIGN at each bit and dropped where it
is not found, from the boundary found on words are stored; with receive off it is only captured. The clears return their counters to Reset values.
Completion: exec of laneTestRequest, injGo, lgrpClrCounts, clrSlack, prbsCheck, bridgeLaneEnable, bridgeWordTransmit, bridgeWordReceive answers the
next state written out, for every state and operands that meet the conditions before it. -/
def Obligations.LaneTestAndBridgeCommandsTakeEffect : Prop :=
  (∀ (d : Dev) (q : List Instr) (g : Fin 16),
      d.active = true → d.reach .pf (pLGRP g) = .yes → d.g (pLGRP g) LGRP_STATUS_STATE = 5 →
      exec (.laneTestRequest g) ⟨d, q⟩ = .next ⟨(d).finish, q⟩) ∧
  (∀ (d : Dev) (q : List Instr) (g : Fin 16),
      d.active = true → d.reach .pf (pLGRP g) = .yes → d.g (pLGRP g) LGRP_STATUS_STATE ≠ 5 → d.b pLNK (LNK_BUDGET_SLOTS g) = true → d.seqState (d.g pLNK (LNK_BUDGET_OWNER g)) ≠ 0 →
      exec (.laneTestRequest g) ⟨d, q⟩ = .next ⟨(d.p (pLGRP g) LGRP_STATUS_TEST_RESULT 3).finish, q⟩) ∧
  (∀ (d : Dev) (q : List Instr) (g : Fin 16),
      d.active = true → d.reach .pf (pLGRP g) = .yes → d.g (pLGRP g) LGRP_STATUS_STATE = 4 → d.b pLNK (LNK_BUDGET_SLOTS g) = false → d.isSlave = true → d.g pTSB TSB_STATUS_UPSTREAM = g.val →
      exec (.laneTestRequest g) ⟨d, q⟩ = .next ⟨(d.p (pLGRP g) LGRP_STATUS_TEST_RESULT 4).finish, q⟩) ∧
  (∀ (d : Dev) (q : List Instr) (g : Fin 16) (e : Nat),
      d.active = true → d.reach .pf (pLGRP g) = .yes → d.g (pLGRP g) LGRP_STATUS_STATE ≠ 5 → d.b pLNK (LNK_BUDGET_SLOTS g) = false ∨ d.seqState (d.g pLNK (LNK_BUDGET_OWNER g)) = 0 → ¬ (d.g (pLGRP g) LGRP_STATUS_STATE = 4 ∧ d.isSlave = true ∧ d.g pTSB TSB_STATUS_UPSTREAM = g.val) → (d.mntRequest (Dev.mntId 4 16 g) 0 0x10000 false).2 = some e →
      exec (.laneTestRequest g) ⟨d, q⟩ = .next ⟨((d.mntRequest (Dev.mntId 4 16 g) 0 0x10000 false).1.p (pLGRP g) LGRP_STATUS_TEST_RESULT 2).finish, q⟩) ∧
  (∀ (d : Dev) (q : List Instr) (g : Fin 16),
      d.active = true → d.reach .pf (pLGRP g) = .yes → d.g (pLGRP g) LGRP_STATUS_STATE ≠ 5 → d.b pLNK (LNK_BUDGET_SLOTS g) = false ∨ d.seqState (d.g pLNK (LNK_BUDGET_OWNER g)) = 0 → ¬ (d.g (pLGRP g) LGRP_STATUS_STATE = 4 ∧ d.isSlave = true ∧ d.g pTSB TSB_STATUS_UPSTREAM = g.val) → (d.mntRequest (Dev.mntId 4 16 g) 0 0x10000 false).2 = none →
      exec (.laneTestRequest g) ⟨d, q⟩ =
        (.next ⟨(let f := ((d.mntRequest (Dev.mntId 4 16 g) 0 0x10000 false).1.p (pLGRP g) LGRP_STATUS_TEST_RESULT 1).leaveUp g 4 5
        let f := (((f.p (pLGRP g) LGRP_CFG_MODE 1).on (pLGRP g) LGRP_CFG_EN).p (pLGRP g) LGRP_STATUS_STATE 5).p (pLGRP g) LGRP_STATUS_LANE_LOCK 0
        ((f.p (pLGRP g) LGRP_STATUS_FAR_ALIGNED 0).putBit pCKG CKG_STATUS_LANE_LOCK g true).setLink g Link.reset).finish, q⟩)) ∧
  (∀ (d : Dev) (q : List Instr) (g : Fin 16),
      d.Up → d.b (pLGRP g) LGRP_INJ_TARGET = false → d.g (pLGRP g) LGRP_STATUS_STATE = 5 →
      exec (.injGo g) ⟨d, q⟩ = .next ⟨(d.modLink g fun x => { x with inject := some (d.g (pLGRP g) LGRP_INJ_KIND, d.g (pLGRP g) LGRP_INJ_LANES, d.g (pLGRP g) LGRP_INJ_BURST_M1 + 1, Nat.max 10 (Nat.min 40 (d.g (pLGRP g) LGRP_INJ_RATE_EXP))), injAt := [] }).finish, q⟩) ∧
  (∀ (d : Dev) (q : List Instr) (g : Fin 16),
      d.Up → d.b (pLGRP g) LGRP_INJ_TARGET = false → d.g (pLGRP g) LGRP_STATUS_STATE ≠ 5 →
      exec (.injGo g) ⟨d, q⟩ = .next ⟨(d.on (pLGRP g) LGRP_INJ_REFUSED).finish, q⟩) ∧
  (∀ (d : Dev) (q : List Instr) (g : Fin 16),
      d.Up → d.b (pLGRP g) LGRP_INJ_TARGET = true → 1 ≤ d.g (pLGRP g) LGRP_STATUS_STATE → d.g (pLGRP g) LGRP_STATUS_STATE ≤ 4 → d.slotsRun g = false →
      exec (.injGo g) ⟨d, q⟩ = .next ⟨(d.modLink g fun x => { x with inject := some (d.g (pLGRP g) LGRP_INJ_KIND, d.g (pLGRP g) LGRP_INJ_LANES, d.g (pLGRP g) LGRP_INJ_BURST_M1 + 1, Nat.max 10 (Nat.min 40 (d.g (pLGRP g) LGRP_INJ_RATE_EXP))), injAt := [] }).finish, q⟩) ∧
  (∀ (d : Dev) (q : List Instr) (g : Fin 16),
      d.Up → d.b (pLGRP g) LGRP_INJ_TARGET = true → d.g (pLGRP g) LGRP_STATUS_STATE = 0 ∨ 4 < d.g (pLGRP g) LGRP_STATUS_STATE →
      exec (.injGo g) ⟨d, q⟩ = .next ⟨(d.on (pLGRP g) LGRP_INJ_REFUSED).finish, q⟩) ∧
  (∀ (d : Dev) (q : List Instr) (g : Fin 16),
      d.Up → d.b (pLGRP g) LGRP_INJ_TARGET = true → d.g (pLGRP g) LGRP_STATUS_STATE = 4 → d.slotsRun g = true →
      exec (.injGo g) ⟨d, q⟩ = .next ⟨(d.on (pLGRP g) LGRP_INJ_REFUSED).finish, q⟩) ∧
  (∀ (d : Dev) (q : List Instr) (g : Fin 16),
      d.Up →
      exec (.lgrpClrCounts g) ⟨d, q⟩ = .next ⟨((((d.resetRange (pLGRP g + 0x120) (pLGRP g + 0x178)).resetRange (pLGRP g + 0x188) (pLGRP g + 0x190)).resetRange (pLGRP g + 0x1C0) (pLGRP g + 0x200)).resetRange (pLGRP g + 0x240) (pLGRP g + 0x260)).finish, q⟩) ∧
  (∀ (d : Dev) (q : List Instr) (g : Fin 16), d.Up → exec (.clrSlack g) ⟨d, q⟩ = .next ⟨(d.p (pLGRP g) LGRP_SLACK_MIN 255).finish, q⟩) ∧
  (∀ (d : Dev) (q : List Instr) (g : Fin 16) (l : Fin 8) (bits : List Bool),
      d.active = true → d.g (pLGRP g) LGRP_STATUS_STATE = 5 → d.laneOn g l = true → d.g (pLGRP g) LGRP_LOOP_MODE = 0 →
      exec (.prbsCheck g l bits) ⟨d, q⟩ =
        (.next ⟨(let own := d.generate g l bits.length
        ((own.1.capLine g l true false own.2).lineOut g l own.2).each bits fun x bit => if (x.testSample g l bit).b (pLGRP g) LGRP_PRBS_CFG_CHK then (x.testSample g l bit).prbsBit g l bit else x.testSample g l bit).finish, q⟩)) ∧
  (∀ (d : Dev) (q : List Instr) (g : Fin 16) (l : Fin 8) (bits : List Bool),
      d.active = true → d.g (pLGRP g) LGRP_STATUS_STATE = 5 → d.laneOn g l = true → d.g (pLGRP g) LGRP_LOOP_MODE = 1 ∨ d.g (pLGRP g) LGRP_LOOP_MODE = 2 →
      exec (.prbsCheck g l bits) ⟨d, q⟩ =
        (.next ⟨(let own := d.generate g l bits.length
        (own.1.capLine g l true false own.2).each own.2 fun x bit => if (x.testSample g l bit).b (pLGRP g) LGRP_PRBS_CFG_CHK then (x.testSample g l bit).prbsBit g l bit else x.testSample g l bit).finish, q⟩)) ∧
  (∀ (d : Dev) (q : List Instr) (g : Fin 16) (l : Fin 8),
      d.Up → d.bridgeQueue g (d.g (pLGRP g) (LGRP_BRIDGE_Q_TXQ l)) = false →
      exec (.bridgeLaneEnable g l true false) ⟨d, q⟩ =
        (.next ⟨((((d.p (pLGRP g) (LGRP_BRIDGE_Q_TX_EN l) 0).putBit (pLGRP g) LGRP_BRIDGE_STATUS_Q_REFUSED l true).p (pLGRP g) (LGRP_BRIDGE_Q_RX_EN l) 0) |> fun x : Dev =>
          if x.b (pLGRP g) (LGRP_BRIDGE_Q_RX_EN l) && d.b (pLGRP g) (LGRP_BRIDGE_Q_RX_EN l) then x
          else (x.putBit (pLGRP g) LGRP_BRIDGE_STATUS_ALIGNED l false).modLink g fun y => { y with shift := SMap.del y.shift l, good := SMap.del y.good l }).finish, q⟩)) ∧
  (∀ (d : Dev) (q : List Instr) (g : Fin 16) (l : Fin 8),
      d.Up → d.bridgeQueue g (d.g (pLGRP g) (LGRP_BRIDGE_Q_TXQ l)) = true →
      exec (.bridgeLaneEnable g l true false) ⟨d, q⟩ =
        (.next ⟨(((d.on (pLGRP g) (LGRP_BRIDGE_Q_TX_EN l)).p (pLGRP g) (LGRP_BRIDGE_Q_RX_EN l) 0) |> fun x : Dev =>
          if x.b (pLGRP g) (LGRP_BRIDGE_Q_RX_EN l) && d.b (pLGRP g) (LGRP_BRIDGE_Q_RX_EN l) then x
          else (x.putBit (pLGRP g) LGRP_BRIDGE_STATUS_ALIGNED l false).modLink g fun y => { y with shift := SMap.del y.shift l, good := SMap.del y.good l }).finish, q⟩)) ∧
  (∀ (d : Dev) (q : List Instr) (g : Fin 16) (l : Fin 8) (f : Dev),
      d.Up → f = d.p (pLGRP g) (LGRP_BRIDGE_Q_TX_EN l) 0 → f.bridgeQueue g (f.g (pLGRP g) (LGRP_BRIDGE_Q_RXQ l)) = false →
      exec (.bridgeLaneEnable g l false true) ⟨d, q⟩ =
        (.next ⟨(((f.p (pLGRP g) (LGRP_BRIDGE_Q_RX_EN l) 0).putBit (pLGRP g) LGRP_BRIDGE_STATUS_Q_REFUSED l true) |> fun x : Dev =>
          if x.b (pLGRP g) (LGRP_BRIDGE_Q_RX_EN l) && d.b (pLGRP g) (LGRP_BRIDGE_Q_RX_EN l) then x
          else (x.putBit (pLGRP g) LGRP_BRIDGE_STATUS_ALIGNED l false).modLink g fun y => { y with shift := SMap.del y.shift l, good := SMap.del y.good l }).finish, q⟩)) ∧
  (∀ (d : Dev) (q : List Instr) (g : Fin 16) (l : Fin 8) (f : Dev),
      d.Up → f = d.p (pLGRP g) (LGRP_BRIDGE_Q_TX_EN l) 0 → f.bridgeQueue g (f.g (pLGRP g) (LGRP_BRIDGE_Q_RXQ l)) = true →
      exec (.bridgeLaneEnable g l false true) ⟨d, q⟩ =
        (.next ⟨((f.on (pLGRP g) (LGRP_BRIDGE_Q_RX_EN l)) |> fun x : Dev =>
          if x.b (pLGRP g) (LGRP_BRIDGE_Q_RX_EN l) && d.b (pLGRP g) (LGRP_BRIDGE_Q_RX_EN l) then x
          else (x.putBit (pLGRP g) LGRP_BRIDGE_STATUS_ALIGNED l false).modLink g fun y => { y with shift := SMap.del y.shift l, good := SMap.del y.good l }).finish, q⟩)) ∧
  (∀ (d : Dev) (q : List Instr) (g : Fin 16) (l : Fin 8),
      d.active = true → d.g (pLGRP g) LGRP_STATUS_STATE = 6 → d.laneOn g l = true → d.b (pLGRP g) (LGRP_BRIDGE_Q_TX_EN l) = false →
      exec (.bridgeWordTransmit g l) ⟨d, q⟩ = .next ⟨(d.bridgeOut g l (BitVec.ofNat 64 (d.g (pLGRP g) LGRP_FILL_WORD))).finish, q⟩) ∧
  (∀ (d : Dev) (q : List Instr) (g : Fin 16) (l : Fin 8) (w : QWord) (f : Dev),
      d.active = true → d.g (pLGRP g) LGRP_STATUS_STATE = 6 → d.laneOn g l = true → d.b (pLGRP g) (LGRP_BRIDGE_Q_TX_EN l) = true → d.emptyFor (d.g (pLGRP g) (LGRP_BRIDGE_Q_TXQ l)) = false → d.takeHead (d.g (pLGRP g) (LGRP_BRIDGE_Q_TXQ l)) = some (w, f) →
      exec (.bridgeWordTransmit g l) ⟨d, q⟩ = .next ⟨(f.bridgeOut g l w.data).finish, q⟩) ∧
  (∀ (d : Dev) (q : List Instr) (g : Fin 16) (l : Fin 8),
      d.active = true → d.g (pLGRP g) LGRP_STATUS_STATE = 6 → d.laneOn g l = true → d.b (pLGRP g) (LGRP_BRIDGE_Q_TX_EN l) = true → d.emptyFor (d.g (pLGRP g) (LGRP_BRIDGE_Q_TXQ l)) = true →
      exec (.bridgeWordTransmit g l) ⟨d, q⟩ = .next ⟨((d.markBound (d.g (pLGRP g) (LGRP_BRIDGE_Q_TXQ l))).bridgeOut g l (BitVec.ofNat 64 ((d.markBound (d.g (pLGRP g) (LGRP_BRIDGE_Q_TXQ l))).g (pLGRP g) LGRP_FILL_WORD))).finish, q⟩) ∧
  (∀ (d : Dev) (q : List Instr) (g : Fin 16) (l : Fin 8) (w : W64),
      d.active = true → d.g (pLGRP g) LGRP_STATUS_STATE = 6 → d.laneOn g l = true → (d.linkAt g).recovered.testBit l = true → d.b (pLGRP g) (LGRP_BRIDGE_Q_RX_EN l) = false →
      exec (.bridgeWordReceive g l w) ⟨d, q⟩ = .next ⟨(d.capLine g l false false (bitsLsb w.toNat 64)).finish, q⟩) ∧
  (∀ (d : Dev) (q : List Instr) (g : Fin 16) (l : Fin 8) (w : W64) (f : Dev),
      d.active = true → d.g (pLGRP g) LGRP_STATUS_STATE = 6 → d.laneOn g l = true → (d.linkAt g).recovered.testBit l = true → d.b (pLGRP g) (LGRP_BRIDGE_Q_RX_EN l) = true → SMap.get? (d.linkAt g).good l = none → f = d.capLine g l false false (bitsLsb w.toNat 64) → f.b (pLGRP g) LGRP_BRIDGE_CFG_ALIGN_EN = true → ((List.range 64).map (· + 1)).find? (fun o => (o == 64 || (SMap.get? (d.linkAt g).shift l).isSome) && (bitsAt ((SMap.get? (d.linkAt g).shift l).getD 0 ||| w.toNat <<< 64) o 64 &&& f.g (pLGRP g) LGRP_ALIGN_MASK_MASK == f.g (pLGRP g) LGRP_ALIGN_WORD &&& f.g (pLGRP g) LGRP_ALIGN_MASK_MASK)) = none →
      exec (.bridgeWordReceive g l w) ⟨d, q⟩ = .next ⟨(f.setLink g { d.linkAt g with shift := SMap.put (d.linkAt g).shift l w.toNat }).finish, q⟩) ∧
  (∀ (d : Dev) (q : List Instr) (g : Fin 16) (l : Fin 8) (w : W64) (f : Dev) (o : Nat),
      d.active = true → d.g (pLGRP g) LGRP_STATUS_STATE = 6 → d.laneOn g l = true → (d.linkAt g).recovered.testBit l = true → d.b (pLGRP g) (LGRP_BRIDGE_Q_RX_EN l) = true → SMap.get? (d.linkAt g).good l = none → f = d.capLine g l false false (bitsLsb w.toNat 64) → f.b (pLGRP g) LGRP_BRIDGE_CFG_ALIGN_EN = true → ((List.range 64).map (· + 1)).find? (fun o => (o == 64 || (SMap.get? (d.linkAt g).shift l).isSome) && (bitsAt ((SMap.get? (d.linkAt g).shift l).getD 0 ||| w.toNat <<< 64) o 64 &&& f.g (pLGRP g) LGRP_ALIGN_MASK_MASK == f.g (pLGRP g) LGRP_ALIGN_WORD &&& f.g (pLGRP g) LGRP_ALIGN_MASK_MASK)) = some o →
      exec (.bridgeWordReceive g l w) ⟨d, q⟩ =
        (.next ⟨(let h := ((f.setLink g { d.linkAt g with shift := SMap.put (d.linkAt g).shift l w.toNat }).putBit (pLGRP g) LGRP_BRIDGE_STATUS_ALIGNED l true).modLink g fun x => { x with good := SMap.put x.good l o }
        let v : W64 := BitVec.ofNat 64 (((SMap.get? (d.linkAt g).shift l).getD 0 ||| w.toNat <<< 64) >>> o)
        (h.offerLane (8 * g.val + l.val) v.toNat).bridgeStore g l v).finish, q⟩)) ∧
  (∀ (d : Dev) (q : List Instr) (g : Fin 16) (l : Fin 8) (w : W64) (f : Dev) (o : Nat),
      d.active = true → d.g (pLGRP g) LGRP_STATUS_STATE = 6 → d.laneOn g l = true → (d.linkAt g).recovered.testBit l = true → d.b (pLGRP g) (LGRP_BRIDGE_Q_RX_EN l) = true → SMap.get? (d.linkAt g).good l = some o → f = d.capLine g l false false (bitsLsb w.toNat 64) →
      exec (.bridgeWordReceive g l w) ⟨d, q⟩ =
        (.next ⟨(let h := ((f.setLink g { d.linkAt g with shift := SMap.put (d.linkAt g).shift l w.toNat }).putBit (pLGRP g) LGRP_BRIDGE_STATUS_ALIGNED l true).modLink g fun x => { x with good := SMap.put x.good l o }
        let v : W64 := BitVec.ofNat 64 (((SMap.get? (d.linkAt g).shift l).getD 0 ||| w.toNat <<< 64) >>> o)
        (h.offerLane (8 * g.val + l.val) v.toNat).bridgeStore g l v).finish, q⟩)) ∧
  (∀ (d : Dev) (q : List Instr) (g : Fin 16) (l : Fin 8) (w : W64) (f : Dev),
      d.active = true → d.g (pLGRP g) LGRP_STATUS_STATE = 6 → d.laneOn g l = true → (d.linkAt g).recovered.testBit l = true → d.b (pLGRP g) (LGRP_BRIDGE_Q_RX_EN l) = true → SMap.get? (d.linkAt g).shift l = none → SMap.get? (d.linkAt g).good l = none → f = d.capLine g l false false (bitsLsb w.toNat 64) → f.b (pLGRP g) LGRP_BRIDGE_CFG_ALIGN_EN = false →
      exec (.bridgeWordReceive g l w) ⟨d, q⟩ =
        (.next ⟨(let h := ((f.setLink g { d.linkAt g with shift := SMap.put (d.linkAt g).shift l w.toNat }).putBit (pLGRP g) LGRP_BRIDGE_STATUS_ALIGNED l true).modLink g fun x => { x with good := SMap.put x.good l 64 }
        (h.offerLane (8 * g.val + l.val) w.toNat).bridgeStore g l w).finish, q⟩))

/-- RD and WR reserve a response, reach HBM or the host, and are answered; without a route they get status 2.
A request that its source may send reserves a response buffer and reaches its target: an HBM port reads or writes the addressed bytes on the
requester's behalf and answers with the access's status and data, 4 where a data flit cannot be corrected; a host port writes host memory or answers
with what the host gives. A read or write to a cluster whose interface is not ACTIVE gets status 1, as one to an inactive link does; one with REG_RD
or REG_WR acts at the register its address names. A request without a valid route counts NO_ROUTE and completes at its source with status 2. Nothing
changes where the source can send no request. What host memory holds, and how many flits a read asks for, are free values. Completion: exec of wr, rd
answers the next state written out, for every state and operands that meet the conditions before it. -/
def Obligations.MemoryRequestsAreServed : Prop :=
  (∀ (d : Dev) (q : List Instr) (k : Packet) (r : Req),
      d.active = true → d.Sends k r → 64 ≤ k.dst.val → k.dst.val < 0x90 → 0x40 + 20 * (hbmPort k.addr.toNat).1 + (hbmPort k.addr.toNat).2 = k.dst.val → k.addr.toNat % 4096 + k.data.length ≤ 4096 → k.data.length ≤ 256 → packetBad k = false → k.op.val ≠ 0x10 → k.op.val ≠ 0x11 →
      exec (.wr k) ⟨d, q⟩ =
        (.next ⟨(let w := ((d.sent k r true).checkPayload (Dev.asSent k r)).hbmWrite r k.addr.toNat (packetFixed k).data
        w.1.respond (Dev.asSent k r) w.2 []).finish, q⟩)) ∧
  (∀ (d : Dev) (q : List Instr) (k : Packet) (r : Req),
      d.active = true → d.Sends k r → 64 ≤ k.dst.val → k.dst.val < 0x90 → 0x40 + 20 * (hbmPort k.addr.toNat).1 + (hbmPort k.addr.toNat).2 = k.dst.val → k.addr.toNat % 4096 + k.data.length ≤ 4096 → k.data.length ≤ 256 → packetBad k = true → k.op.val ≠ 0x10 → k.op.val ≠ 0x11 →
      exec (.wr k) ⟨d, q⟩ = .next ⟨(((d.sent k r true).checkPayload (Dev.asSent k r)).respond (Dev.asSent k r) 4 []).finish, q⟩) ∧
  (∀ (d : Dev) (q : List Instr) (k : Packet) (r : Req),
      d.active = true → d.Sends k r → 64 ≤ k.dst.val → k.dst.val < 0x90 → 0x40 + 20 * (hbmPort k.addr.toNat).1 + (hbmPort k.addr.toNat).2 = k.dst.val → k.op.val ≠ 0x10 → k.op.val ≠ 0x11 →
      exec (.rd k) ⟨d, q⟩ =
        (.next ⟨(let n := Nat.min (32 * Nat.max 1 (Nat.min 8 (Config.readFlits d.fresh))) (4096 - k.addr.toNat % 4096)
        let w := (d.sent k r false).tick.hbmRead r k.addr.toNat n
        w.1.respond (Dev.asSent k r) w.2.1 w.2.2).finish, q⟩)) ∧
  (∀ (d : Dev) (q : List Instr) (k : Packet) (r : Req),
      d.active = true → d.Sends k r → 0x90 ≤ k.dst.val → k.dst.val < 0x94 → packetBad k = false → k.op.val ≠ 0x10 → k.op.val ≠ 0x11 →
      exec (.wr k) ⟨d, q⟩ = .next ⟨((((d.sent k r true).checkPayload (Dev.asSent k r)).emit (.hostWrite (reqFn r) k.addr.toNat (packetFixed k).data)).respond (Dev.asSent k r) 0 []).finish, q⟩) ∧
  (∀ (d : Dev) (q : List Instr) (k : Packet) (r : Req),
      d.active = true → d.Sends k r → 0x90 ≤ k.dst.val → k.dst.val < 0x94 → k.op.val ≠ 0x10 → k.op.val ≠ 0x11 →
      exec (.rd k) ⟨d, q⟩ = .next ⟨((d.sent k r false).tick.respond (Dev.asSent k r) 0 ((List.range (Nat.min (32 * Nat.max 1 (Nat.min 8 (Config.readFlits d.fresh))) (4096 - k.addr.toNat % 4096))).map fun i => (Config.freeWord d.fresh i).setWidth 8)).finish, q⟩) ∧
  (∀ (d : Dev) (q : List Instr) (k : Packet) (r : Req),
      d.active = true → d.Sends k r → k.dst.val < 64 → d.niState k.dst ≠ 0 → k.op.val ≠ 0x10 → k.op.val ≠ 0x11 →
      exec (.rd k) ⟨d, q⟩ = .next ⟨((d.sent k r false).unreachable.respond (Dev.asSent k r) 1 []).finish, q⟩) ∧
  (∀ (d : Dev) (q : List Instr) (k : Packet) (r : Req),
      d.active = true → d.Sends k r → 0xE0 ≤ k.dst.val → k.dst.val < 0xF0 → d.g (pLGRP (k.dst.val - 0xE0)) LGRP_STATUS_STATE ≠ 4 → k.op.val ≠ 0x10 → k.op.val ≠ 0x11 →
      exec (.rd k) ⟨d, q⟩ = .next ⟨((d.sent k r false).respond (Dev.asSent k r) 1 []).finish, q⟩) ∧
  (∀ (d : Dev) (q : List Instr) (k : Packet) (r : Req),
      d.active = true → d.Sends k r → k.dst.val < 64 → d.niState k.dst ≠ 0 → k.op.val ≠ 0x10 → k.op.val ≠ 0x11 →
      exec (.wr k) ⟨d, q⟩ = .next ⟨((d.sent k r true).unreachable.respond (Dev.asSent k r) 1 []).finish, q⟩) ∧
  (∀ (d : Dev) (q : List Instr) (k : Packet) (r : Req),
      d.active = true → d.Sends k r → 0xE0 ≤ k.dst.val → k.dst.val < 0xF0 → d.g (pLGRP (k.dst.val - 0xE0)) LGRP_STATUS_STATE ≠ 4 → k.op.val ≠ 0x10 → k.op.val ≠ 0x11 →
      exec (.wr k) ⟨d, q⟩ = .next ⟨((d.sent k r true).respond (Dev.asSent k r) 1 []).finish, q⟩) ∧
  (∀ (d : Dev) (q : List Instr) (k : Packet) (r : Req),
      d.active = true → d.Sends k r → 0x90 ≤ k.dst.val → k.dst.val < 0x94 → packetBad k = true → k.op.val ≠ 0x10 → k.op.val ≠ 0x11 →
      exec (.wr k) ⟨d, q⟩ = .next ⟨(((d.sent k r true).checkPayload (Dev.asSent k r)).respond (Dev.asSent k r) 4 []).finish, q⟩) ∧
  (∀ (d : Dev) (q : List Instr) (k : Packet) (r : Req),
      d.active = true → d.Sends k r → k.op.val = 0x10 →
      exec (.rd k) ⟨d, q⟩ = .next ⟨(Dev.serveReg false (Dev.asSent k r) (d.sent k r false) r).finish, q⟩) ∧
  (∀ (d : Dev) (q : List Instr) (k : Packet) (r : Req),
      d.active = true → d.Sends k r → k.op.val = 0x11 →
      exec (.wr k) ⟨d, q⟩ = .next ⟨(Dev.serveReg true (Dev.asSent k r) (d.sent k r true) r).finish, q⟩) ∧
  (∀ (d : Dev) (q : List Instr) (k : Packet) (r : Req),
      d.active = true → d.senderOf k = some r → k.len.val ≤ 8 → d.mayReserve k.src k.tag = true → d.routed k.src k.dst = false →
      exec (.rd k) ⟨d, q⟩ = .next ⟨((d.add pNOC NOC_NO_ROUTE_COUNT 1).failed (Dev.reserved (Dev.asSent k r) r false) 2).finish, q⟩) ∧
  (∀ (d : Dev) (q : List Instr) (k : Packet) (r : Req),
      d.active = true → d.senderOf k = some r → k.len.val ≤ 8 → d.mayReserve k.src k.tag = true → d.routed k.src k.dst = false →
      exec (.wr k) ⟨d, q⟩ = .next ⟨((d.add pNOC NOC_NO_ROUTE_COUNT 1).failed (Dev.reserved (Dev.asSent k r) r true) 2).finish, q⟩) ∧
  (∀ (d : Dev) (q : List Instr) (k : Packet), d.active = true → d.senderOf k = none → exec (.rd k) ⟨d, q⟩ = .next ⟨(d).finish, q⟩) ∧
  (∀ (d : Dev) (q : List Instr) (k : Packet), d.active = true → d.senderOf k = none → exec (.wr k) ⟨d, q⟩ = .next ⟨(d).finish, q⟩)

/-- QWR and QRD act on the addressed queue: accepted and answered, held while full or empty, or refused.
A QWR of 1 to 32 words to an enabled queue its requester may use is accepted and answered with its count where the words fit or a packet is being
discarded; a full PRIV queue drops it, a full shared queue holds it. A QRD of a queue with words takes up to its count from the head packet and
answers; of an empty queue it is held where bit 19 asks for it and else answered with 0 words. A queue that is not enabled, or a count of 0 or above
32, gets status 6 (the model's choice, log entry 33); a queue of another partition is an access error with status 5. Completion: exec of qwr, qrd
answers the next state written out, for every state and operands that meet the conditions before it. -/
def Obligations.QueuePortsServeQwrAndQrd : Prop :=
  (∀ (d : Dev) (q : List Instr) (k : Packet) (r : Req),
      d.active = true → d.Sends k r → 0x94 ≤ k.dst.val → k.dst.val < 0x98 → d.queueAllowed r (bitsAt k.addr.toNat 0 13) = true → (d.queueAt (bitsAt k.addr.toNat 0 13)).en = true → 1 ≤ bitsAt k.addr.toNat 13 6 → bitsAt k.addr.toNat 13 6 ≤ 32 → packetBad k = false → (d.queueAt (bitsAt k.addr.toNat 0 13)).waitQwr = [] → bitsAt k.addr.toNat 13 6 ≤ (d.queueAt (bitsAt k.addr.toNat 0 13)).free →
      exec (.qwr k) ⟨d, q⟩ = .next ⟨(((d.sent k r true).checkPayload (Dev.asSent k r)).acceptQwr (bitsAt k.addr.toNat 0 13) (packetFixed (Dev.asSent k r))).finish, q⟩) ∧
  (∀ (d : Dev) (q : List Instr) (k : Packet) (r : Req),
      d.active = true → d.Sends k r → 0x94 ≤ k.dst.val → k.dst.val < 0x98 → d.queueAllowed r (bitsAt k.addr.toNat 0 13) = true → (d.queueAt (bitsAt k.addr.toNat 0 13)).en = true → 1 ≤ bitsAt k.addr.toNat 13 6 → bitsAt k.addr.toNat 13 6 ≤ 32 → packetBad k = false → (d.queueAt (bitsAt k.addr.toNat 0 13)).discard = false → (d.queueAt (bitsAt k.addr.toNat 0 13)).free < bitsAt k.addr.toNat 13 6 → (d.queueAt (bitsAt k.addr.toNat 0 13)).priv = false →
      exec (.qwr k) ⟨d, q⟩ = .next ⟨(((d.sent k r true).checkPayload (Dev.asSent k r)).setQueue (bitsAt k.addr.toNat 0 13) { d.queueAt (bitsAt k.addr.toNat 0 13) with waitQwr := (d.queueAt (bitsAt k.addr.toNat 0 13)).waitQwr ++ [packetFixed (Dev.asSent k r)] }).finish, q⟩) ∧
  (∀ (d : Dev) (q : List Instr) (k : Packet) (r : Req),
      d.active = true → d.Sends k r → 0x94 ≤ k.dst.val → k.dst.val < 0x98 → d.queueAllowed r (bitsAt k.addr.toNat 0 13) = true → (d.queueAt (bitsAt k.addr.toNat 0 13)).en = false →
      exec (.qwr k) ⟨d, q⟩ = .next ⟨((d.sent k r true).respond (Dev.asSent k r) 6 []).finish, q⟩) ∧
  (∀ (d : Dev) (q : List Instr) (k : Packet) (r : Req),
      d.active = true → d.Sends k r → 0x94 ≤ k.dst.val → k.dst.val < 0x98 → d.queueAllowed r (bitsAt k.addr.toNat 0 13) = true → (d.queueAt (bitsAt k.addr.toNat 0 13)).en = true → 1 ≤ bitsAt k.addr.toNat 13 6 → bitsAt k.addr.toNat 13 6 ≤ 32 → d.boundTo (bitsAt k.addr.toNat 0 13) = none → (d.queueAt (bitsAt k.addr.toNat 0 13)).seen ≠ [] → (d.queueAt (bitsAt k.addr.toNat 0 13)).waitQrd = [] →
      exec (.qrd k) ⟨d, q⟩ = .next ⟨((d.sent k r false).answerQrd (bitsAt k.addr.toNat 0 13) (packetFixed (Dev.asSent k r))).finish, q⟩) ∧
  (∀ (d : Dev) (q : List Instr) (k : Packet) (r : Req),
      d.active = true → d.Sends k r → 0x94 ≤ k.dst.val → k.dst.val < 0x98 → d.queueAllowed r (bitsAt k.addr.toNat 0 13) = true → (d.queueAt (bitsAt k.addr.toNat 0 13)).en = true → 1 ≤ bitsAt k.addr.toNat 13 6 → bitsAt k.addr.toNat 13 6 ≤ 32 → d.boundTo (bitsAt k.addr.toNat 0 13) = none → (d.queueAt (bitsAt k.addr.toNat 0 13)).seen = [] → k.addr.getLsbD 19 = false →
      exec (.qrd k) ⟨d, q⟩ = .next ⟨((d.sent k r false).respond (Dev.asSent k r) 0 (leBytes 8 0)).finish, q⟩) ∧
  (∀ (d : Dev) (q : List Instr) (k : Packet) (r : Req),
      d.active = true → d.Sends k r → 0x94 ≤ k.dst.val → k.dst.val < 0x98 → d.queueAllowed r (bitsAt k.addr.toNat 0 13) = false →
      exec (.qrd k) ⟨d, q⟩ = .next ⟨(((d.sent k r false).innerError r.src r.part r.devlvl 5 false k.addr.toNat).respond (Dev.asSent k r) 5 []).finish, q⟩) ∧
  (∀ (d : Dev) (q : List Instr) (k : Packet) (r : Req),
      d.active = true → d.Sends k r → 0x94 ≤ k.dst.val → k.dst.val < 0x98 → d.queueAllowed r (bitsAt k.addr.toNat 0 13) = true → (d.queueAt (bitsAt k.addr.toNat 0 13)).en = true → 1 ≤ bitsAt k.addr.toNat 13 6 → bitsAt k.addr.toNat 13 6 ≤ 32 → packetBad k = false → (d.queueAt (bitsAt k.addr.toNat 0 13)).waitQwr = [] → (d.queueAt (bitsAt k.addr.toNat 0 13)).discard = true →
      exec (.qwr k) ⟨d, q⟩ = .next ⟨(((d.sent k r true).checkPayload (Dev.asSent k r)).acceptQwr (bitsAt k.addr.toNat 0 13) (packetFixed (Dev.asSent k r))).finish, q⟩) ∧
  (∀ (d : Dev) (q : List Instr) (k : Packet) (r : Req),
      d.active = true → d.Sends k r → 0x94 ≤ k.dst.val → k.dst.val < 0x98 → d.queueAllowed r (bitsAt k.addr.toNat 0 13) = true → (d.queueAt (bitsAt k.addr.toNat 0 13)).en = true → 1 ≤ bitsAt k.addr.toNat 13 6 → bitsAt k.addr.toNat 13 6 ≤ 32 → packetBad k = false → (d.queueAt (bitsAt k.addr.toNat 0 13)).discard = false → (d.queueAt (bitsAt k.addr.toNat 0 13)).free < bitsAt k.addr.toNat 13 6 → (d.queueAt (bitsAt k.addr.toNat 0 13)).priv = true →
      exec (.qwr k) ⟨d, q⟩ = .next ⟨(((d.sent k r true).checkPayload (Dev.asSent k r)).dropQwr (bitsAt k.addr.toNat 0 13) (packetFixed (Dev.asSent k r))).finish, q⟩) ∧
  (∀ (d : Dev) (q : List Instr) (k : Packet) (r : Req),
      d.active = true → d.Sends k r → 0x94 ≤ k.dst.val → k.dst.val < 0x98 → d.queueAllowed r (bitsAt k.addr.toNat 0 13) = true → (d.queueAt (bitsAt k.addr.toNat 0 13)).en = true → 1 ≤ bitsAt k.addr.toNat 13 6 → bitsAt k.addr.toNat 13 6 ≤ 32 → packetBad k = true →
      exec (.qwr k) ⟨d, q⟩ = .next ⟨(((d.sent k r true).checkPayload (Dev.asSent k r)).respond (Dev.asSent k r) 4 []).finish, q⟩) ∧
  (∀ (d : Dev) (q : List Instr) (k : Packet) (r : Req),
      d.active = true → d.Sends k r → 0x94 ≤ k.dst.val → k.dst.val < 0x98 → d.queueAllowed r (bitsAt k.addr.toNat 0 13) = true → (d.queueAt (bitsAt k.addr.toNat 0 13)).en = true → bitsAt k.addr.toNat 13 6 = 0 ∨ 32 < bitsAt k.addr.toNat 13 6 →
      exec (.qwr k) ⟨d, q⟩ = .next ⟨((d.sent k r true).respond (Dev.asSent k r) 6 []).finish, q⟩) ∧
  (∀ (d : Dev) (q : List Instr) (k : Packet) (r : Req),
      d.active = true → d.Sends k r → 0x94 ≤ k.dst.val → k.dst.val < 0x98 → d.queueAllowed r (bitsAt k.addr.toNat 0 13) = true → (d.queueAt (bitsAt k.addr.toNat 0 13)).en = true → bitsAt k.addr.toNat 13 6 = 0 ∨ 32 < bitsAt k.addr.toNat 13 6 →
      exec (.qrd k) ⟨d, q⟩ = .next ⟨((d.sent k r false).respond (Dev.asSent k r) 6 []).finish, q⟩) ∧
  (∀ (d : Dev) (q : List Instr) (k : Packet) (r : Req),
      d.active = true → d.Sends k r → 0x94 ≤ k.dst.val → k.dst.val < 0x98 → d.queueAllowed r (bitsAt k.addr.toNat 0 13) = false →
      exec (.qwr k) ⟨d, q⟩ = .next ⟨(((d.sent k r true).innerError r.src r.part r.devlvl 5 true k.addr.toNat).respond (Dev.asSent k r) 5 []).finish, q⟩) ∧
  (∀ (d : Dev) (q : List Instr) (k : Packet) (r : Req),
      d.active = true → d.Sends k r → 0x94 ≤ k.dst.val → k.dst.val < 0x98 → d.queueAllowed r (bitsAt k.addr.toNat 0 13) = true → (d.queueAt (bitsAt k.addr.toNat 0 13)).en = false →
      exec (.qrd k) ⟨d, q⟩ = .next ⟨((d.sent k r false).respond (Dev.asSent k r) 6 []).finish, q⟩) ∧
  (∀ (d : Dev) (q : List Instr) (k : Packet) (r : Req),
      d.active = true → d.Sends k r → 0x94 ≤ k.dst.val → k.dst.val < 0x98 → d.queueAllowed r (bitsAt k.addr.toNat 0 13) = true → (d.queueAt (bitsAt k.addr.toNat 0 13)).en = true → 1 ≤ bitsAt k.addr.toNat 13 6 → bitsAt k.addr.toNat 13 6 ≤ 32 → d.boundTo (bitsAt k.addr.toNat 0 13) = none → (d.queueAt (bitsAt k.addr.toNat 0 13)).seen = [] → k.addr.getLsbD 19 = true →
      exec (.qrd k) ⟨d, q⟩ = .next ⟨((d.sent k r false).modQueue (bitsAt k.addr.toNat 0 13) fun x => { x with waitQrd := x.waitQrd ++ [packetFixed (Dev.asSent k r)] }).finish, q⟩)

/-- Responses free their buffers or are discarded late; hops check and pass headers; routes and clears are written.
A response of an outstanding transaction reaches its requester and frees its buffer; one that finds none, or whose transaction was abandoned, counts
LATE_RSP. A missing response counts TIMEOUTS, quarantines the tag and completes the request at its source with status 3; an abandoned one only frees
its buffer; the quarantine ends. In a hub clock of a router its arriving flits take the places of their input buffers, and each output passes one: a
flit that finds no credit waits outside, an uncorrectable header is discarded with its packet and counted, a clean known one is buffered, and a header
that leaves at a local port holds that output until its packet ends. A legal route entry is stored, an illegal one sets RT_ERR. The capture and trace
blocks of CAP_WR and TRC_WR are written to HBM; a capture block that cannot be corrected counts DATA_ERR and marks its entry. Which of several inputs
goes first is free (log entry 53). Completion: exec of rspData, rspAck, rspTimeout, tagQuarantineEnd, routeTableWrite, packetHop, capWr, trcWr,
nocClrCounts answers the next state written out, for every state and operands that meet the conditions before it. -/
def Obligations.ResponsesHopsAndRoutesAreHandled : Prop :=
  (∀ (d : Dev) (q : List Instr) (k : Packet) (o : Outst),
      d.active = true → 64 ≤ k.dst.val → k.dst.val < 0xE0 → d.noc.outst.find? (fun o => o.src == k.dst.val && o.tag == k.tag.val) = some o → o.abandoned = false →
      exec (.rspData k) ⟨d, q⟩ = .next ⟨((d.deliver o k true).freeOutst k.dst k.tag).finish, q⟩) ∧
  (∀ (d : Dev) (q : List Instr) (k : Packet) (o : Outst),
      d.active = true → 64 ≤ k.dst.val → k.dst.val < 0xE0 → d.noc.outst.find? (fun o => o.src == k.dst.val && o.tag == k.tag.val) = some o → o.abandoned = false →
      exec (.rspAck k) ⟨d, q⟩ = .next ⟨((d.deliver o k false).freeOutst k.dst k.tag).finish, q⟩) ∧
  (∀ (d : Dev) (q : List Instr) (k : Packet),
      d.active = true → d.noc.outst.find? (fun o => o.src == k.dst.val && o.tag == k.tag.val) = none →
      exec (.rspData k) ⟨d, q⟩ = .next ⟨(d.add pNOC NOC_LATE_RSP_COUNT 1).finish, q⟩) ∧
  (∀ (d : Dev) (q : List Instr) (k : Packet) (o : Outst),
      d.active = true → 64 ≤ k.dst.val → d.noc.outst.find? (fun o => o.src == k.dst.val && o.tag == k.tag.val) = some o → o.abandoned = true →
      exec (.rspAck k) ⟨d, q⟩ = .next ⟨((d.freeOutst k.dst k.tag).add pNOC NOC_LATE_RSP_COUNT 1).finish, q⟩) ∧
  (∀ (d : Dev) (q : List Instr) (src : Fin 256) (tag : Fin 4096) (o : Outst),
      d.active = true → d.noc.outst.find? (fun o => o.src == src.val && o.tag == tag.val) = some o → o.abandoned = false →
      exec (.rspTimeout src tag) ⟨d, q⟩ =
        (.next ⟨(let f : Dev := { d with noc := { d.noc with quar := d.noc.quar ++ [(src.val, tag.val)] } }
        let f := (f.add pNOC NOC_TIMEOUTS_COUNT 1).raise 0x0B5 2 16 (src.val ||| o.dst <<< 8 ||| o.vc <<< 16 ||| tag.val <<< 18) o.addr
        (f.failed o 3).freeOutst src tag).finish, q⟩)) ∧
  (∀ (d : Dev) (q : List Instr) (src : Fin 256) (tag : Fin 4096) (o : Outst),
      d.active = true → d.noc.outst.find? (fun o => o.src == src.val && o.tag == tag.val) = some o → o.abandoned = true →
      exec (.rspTimeout src tag) ⟨d, q⟩ = .next ⟨(d.freeOutst src tag).finish, q⟩) ∧
  (∀ (d : Dev) (q : List Instr) (src : Fin 256) (tag : Fin 4096),
      d.active = true →
      exec (.tagQuarantineEnd src tag) ⟨d, q⟩ = .next ⟨({ d with noc := { d.noc with quar := d.noc.quar.filter fun e => e ≠ (src.val, tag.val) } }).finish, q⟩) ∧
  (∀ (d : Dev) (q : List Instr) (port idx : Fin 256) (entry : W64),
      d.active = true → portAt port ≠ none → routeLegal port entry.toNat = true →
      exec (.routeTableWrite port idx entry) ⟨d, q⟩ = .next ⟨({ d with noc := { d.noc with routes := SMap.put d.noc.routes (port.val * 256 + idx.val) (BitVec.ofNat 64 (entry.toNat % 2 ^ 40 ||| entry.toNat >>> 63 <<< 63)) } }).finish, q⟩) ∧
  (∀ (d : Dev) (q : List Instr) (port idx : Fin 256) (entry : W64),
      d.active = true → portAt port ≠ none → routeLegal port entry.toNat = false →
      exec (.routeTableWrite port idx entry) ⟨d, q⟩ = .next ⟨((d.on pNOC NOC_RT_CTRL_RT_ERR).irq pNOC 3).finish, q⟩) ∧
  (∀ (d : Dev) (q : List Instr) (x : Fin 8) (y : Fin 10) (ins : List (Fin 9 × Fin 4 × Flit)),
      d.active = true →
      exec (.packetHop x y ins) ⟨d, q⟩ = .next ⟨((d.each ins fun e a => e.flitArrives x y a.1 a.2.1 a.2.2).tick.each (List.range 9) fun e out => e.outputClock x y out).finish, q⟩) ∧
  (∀ (d : Dev) (x y inp vc syn : Nat) (f : Flit), d.noc.drop.contains (vcKey x y inp vc) = false → d.hasCredit x y inp vc = true → flitBegins f = true →
      headerSecded f.data.toNat = .ue syn →
      d.flitArrives x y inp vc f = if flitEnds f then d.headerError (f.data.toNat % 2 ^ 247) x y else (d.headerError (f.data.toNat % 2 ^ 247) x y).setDrop x y inp vc true) ∧
  (∀ (d : Dev) (x y inp vc : Nat) (f : Flit), d.noc.drop.contains (vcKey x y inp vc) = false → d.hasCredit x y inp vc = true → flitBegins f = true →
      headerSecded f.data.toNat = .ok → bitsAt (f.data.toNat % 2 ^ 247) 64 4 ≤ 8 → hasOutput x y (hopOut (f.data.toNat % 2 ^ 247)) = true →
      (hopOut (f.data.toNat % 2 ^ 247) < 4 ∨ opKnown (bitsAt (f.data.toNat % 2 ^ 247) 58 6) = true) →
      d.flitArrives x y inp vc f = d.setFlits x y inp vc (d.flitsAt x y inp vc ++ [{ f with data := checkedHeader (f.data.toNat % 2 ^ 247) }])) ∧
  (∀ (d : Dev) (x y inp vc : Nat) (f : Flit), d.hasCredit x y inp vc = false → d.noc.drop.contains (vcKey x y inp vc) = false → d.flitArrives x y inp vc f = d) ∧
  (∀ (d : Dev) (x y out vc inp : Nat) (f : Flit) (rest : List Flit), d.flitsAt x y inp vc = f :: rest → flitBegins f = true → flitEnds f = false → 4 ≤ out →
      d.passFlit x y out vc inp =
        let e := (d.setFlits x y inp vc rest).probeHeader (f.data.toNat % 2 ^ 247) x y out
        ({ e with noc := { e.noc with hold := SMap.put e.noc.hold (vcKey x y out vc) inp } } : Dev).emit (.hop ((y * 8 + x) * 16 + out) vc f)) ∧
  (∀ (d : Dev) (q : List Instr) (k : Packet) (b : CapBlk),
      d.active = true → d.cap.blocksOut.find? (fun b => b.addr == k.addr.toNat) = some b → packetBad k = false →
      exec (.capWr k) ⟨d, q⟩ =
        (.next ⟨(let w := (({ d with cap := { d.cap with blocksOut := d.cap.blocksOut.erase b } } : Dev).checkPayload k).hbmWrite (Dev.hubReq 0x9A) b.addr b.bytes
        w.1.iff (w.2 == 4) Dev.countDataErr).finish, q⟩)) ∧
  (∀ (d : Dev) (q : List Instr) (k : Packet) (b : CapBlk),
      d.active = true → d.cap.blocksOut.find? (fun b => b.addr == k.addr.toNat) = some b → packetBad k = true →
      exec (.capWr k) ⟨d, q⟩ =
        (.next ⟨(let f := (({ d with cap := { d.cap with blocksOut := d.cap.blocksOut.erase b } } : Dev).checkPayload k).countDataErr
        ((f.raise 0x10A 2 16 b.chan k.addr.toNat).hbmWrite (Dev.hubReq 0x9A) b.addr k.data).1.markDataErr b).finish, q⟩)) ∧
  (∀ (d : Dev) (q : List Instr) (k : Packet),
      d.active = true → (List.range 17).find? (fun s => !(d.strmAt s).out.isEmpty && d.ringBlocks s ≠ 0 && d.trcPlace s == (decide (0x90 ≤ k.dst.val) && decide (k.dst.val ≤ 0x93), k.addr.toNat)) = none →
      exec (.trcWr k) ⟨d, q⟩ = .next ⟨(d).finish, q⟩) ∧
  (∀ (d : Dev) (q : List Instr) (k : Packet) (s : Nat),
      d.active = true → (List.range 17).find? (fun s => !(d.strmAt s).out.isEmpty && d.ringBlocks s ≠ 0 && d.trcPlace s == (false, k.addr.toNat)) = some s → packetBad k = false → k.dst.val < 0x90 → s < 16 →
      exec (.trcWr k) ⟨d, q⟩ =
        (.next ⟨(let x := d.strmAt s
        let w := ((d.checkPayload k).setStrm s { x with out := x.out.drop 1 }).hbmWrite (Dev.ptnReq 0x9B s) k.addr.toNat (x.out.headD [])
        if w.2 == 4 then w.1.loseBlock s (Dev.blockRecs (x.out.headD [])).1 (Dev.blockRecs (x.out.headD [])).2 else w.1.blockWritten s).finish, q⟩)) ∧
  (∀ (d : Dev) (q : List Instr),
      d.Up →
      exec (.nocClrCounts) ⟨d, q⟩ = .next ⟨((d.resetRange (pNOC + 0x140) (pNOC + 0x164)).each (List.range 8) fun e k => e.resetRange (pNOC + 0x210 + 0x20 * k) (pNOC + 0x21C + 0x20 * k)).finish, q⟩)

/-- A network interface drains, fences when drained or after 1 ms, and is unfenced when its cluster is clear.
DRAIN moves an ACTIVE interface to DRAINING. DRAIN_COMPLETE fences it once nothing of it is outstanding. DRAIN_TIMEOUT fences it, abandons what is
outstanding, counts DRAIN_FORCED and raises its interrupt and event. UNFENCE makes a FENCED interface of a powered cluster with clear memories ACTIVE,
its quarantines cleared. In any other state of the interface each changes nothing. Completion: exec of drain, drainComplete, drainTimeout, unfence
answers the next state written out, for every state and operands that meet the conditions before it. -/
def Obligations.NetworkInterfacesDrainAndUnfence : Prop :=
  (∀ (d : Dev) (q : List Instr) (n : Fin 64),
      d.active = true → d.niState n = 0 →
      exec (.drain n) ⟨d, q⟩ = .next ⟨(d.p pNOC (NOC_NI_STATE_CLU n) 1).finish, q⟩) ∧
  (∀ (d : Dev) (q : List Instr) (n : Fin 64), d.active = true → d.niState n ≠ 0 → exec (.drain n) ⟨d, q⟩ = .next ⟨(d).finish, q⟩) ∧
  (∀ (d : Dev) (q : List Instr) (n : Fin 64),
      d.active = true → d.niState n = 1 → d.drained n = true →
      exec (.drainComplete n) ⟨d, q⟩ = .next ⟨(d.p pNOC (NOC_NI_STATE_CLU n) 2).finish, q⟩) ∧
  (∀ (d : Dev) (q : List Instr) (n : Fin 64), d.active = true → d.drained n = false → exec (.drainComplete n) ⟨d, q⟩ = .next ⟨(d).finish, q⟩) ∧
  (∀ (d : Dev) (q : List Instr) (n : Fin 64),
      d.active = true → d.niState n = 1 →
      exec (.drainTimeout n) ⟨d, q⟩ =
        (.next ⟨(let f := ((((d.landFar n false).fenceNi n).abandon n).each (List.range 4) fun e p => e.setFar n p ((e.farOf n p).filter fun a => !a.write && a.done)).settleFences
        let g := (f.add pNOC NOC_DRAIN_FORCED_COUNT 1).tick
        let h := g.nocError 4 (Config.freeWord f.fresh 0).toNat (Config.freeWord f.fresh 1).toNat (Config.freeWord f.fresh 2).toNat (meshX n) (meshY n)
        (h.irq pNOC 2).raise 0x0B4 2 16 h.nocLast n).finish, q⟩)) ∧
  (∀ (d : Dev) (q : List Instr) (n : Fin 64), d.active = true → d.niState n ≠ 1 → exec (.drainTimeout n) ⟨d, q⟩ = .next ⟨(d).finish, q⟩) ∧
  (∀ (d : Dev) (q : List Instr) (n : Fin 64),
      d.active = true → d.niState n = 2 → d.cluPower n ≠ 2 → d.memoriesClear n = true →
      exec (.unfence n) ⟨d, q⟩ = .next ⟨({ d.p pNOC (NOC_NI_STATE_CLU n) 0 with noc := { d.noc with quar := d.noc.quar.filter (fun e => e.1 ≠ n.val), outst := d.noc.outst.filter (fun o => o.src ≠ n.val) } } |> Dev.settleFences).finish, q⟩) ∧
  (∀ (d : Dev) (q : List Instr) (n : Fin 64), d.active = true → d.niState n ≠ 2 → exec (.unfence n) ⟨d, q⟩ = .next ⟨(d).finish, q⟩)

/-- Doorbell writes append words with their marks, POP takes the head word, holds expire, and errors follow R11.
A doorbell write to an enabled queue of its function's slot appends its word with the END and FENCE marks of its offset; a write of 1 to 4 words
appends them all, END on the last, where they fit or a packet is being discarded. POP of a queue with words and no read port completes with the head
word and keeps its marks for POP_STATUS (the completion's number is the model's, log entry 46); of an empty queue it completes at once with 0 where
POP_WAIT is 0 and else is held until a word or its expiry. A slot without an enabled queue is an access error. The oldest held QWR or QRD that expires
is answered with no words. Completion: exec of doorbellAppend, doorbellAppendMulti, pop, popWaitExpire, bar4AccessError, qwrHoldExpire, qrdHoldExpire
answers the next state written out, for every state and operands that meet the conditions before it. -/
def Obligations.DoorbellsAppendAndPop : Prop :=
  (∀ (d : Dev) (q : List Instr) (fn : Fn) (slot : Fin 8192) (e fence : Bool) (w : W64) (k : Nat),
      d.active = true → d.slotQueue fn slot = some k → (d.queueAt k).en = true → d.pwr.fnReset.contains fn = false → d.Linked (some (queuePort k)) →
      exec (.doorbellAppend fn slot e fence w) ⟨d, q⟩ = .next ⟨(d.append k (QWord.after ⟨w, e, fence, []⟩ (d.unacked fun o => 0x90 ≤ o.src && o.src < 0x94 && o.fn == fn.index)) false).finish, q⟩) ∧
  (∀ (d : Dev) (q : List Instr) (fn : Fn) (slot : Fin 8192) (e fence : Bool) (w : W64) (k : Nat),
      d.active = true → d.slotQueue fn slot = some k → (d.queueAt k).en = false →
      exec (.doorbellAppend fn slot e fence w) ⟨d, q⟩ = .next ⟨(d.bar4Error fn (64 * slot.val + (if e then 8 else 0) + (if fence then 16 else 0)) true).finish, q⟩) ∧
  (∀ (d : Dev) (q : List Instr) (fn : Fn) (slot : Fin 8192) (ws : Words) (k : Nat),
      d.active = true → 1 ≤ ws.length → ws.length ≤ 4 → d.slotQueue fn slot = some k → (d.queueAt k).en = true → d.pwr.fnReset.contains fn = false → d.Linked (some (queuePort k)) → (d.queueAt k).discard = true ∨ ws.length ≤ (d.queueAt k).free →
      exec (.doorbellAppendMulti fn slot ws) ⟨d, q⟩ = .next ⟨(d.appendAll k ws true false).finish, q⟩) ∧
  (∀ (d : Dev) (q : List Instr) (fn : Fn) (slot : Fin 8192) (ws : Words),
      d.active = true → 4 < ws.length →
      exec (.doorbellAppendMulti fn slot ws) ⟨d, q⟩ = .next ⟨(d.bar4Error fn (64 * slot.val + 32) true).finish, q⟩) ∧
  (∀ (d : Dev) (q : List Instr) (fn : Fn) (slot : Fin 8192) (k : Nat),
      d.active = true → d.slotQueue fn slot = some k → (d.queueAt k).en = true → d.pwr.fnReset.contains fn = false → d.Linked (some (queuePort k)) → d.boundTo k = none → (d.queueAt k).seen ≠ [] → (d.queueAt k).waitPop = [] →
      exec (.pop fn slot) ⟨d, q⟩ = .next ⟨(d.completePop fn k).finish, q⟩) ∧
  (∀ (d : Dev) (q : List Instr) (fn : Fn) (slot : Fin 8192) (k : Nat),
      d.active = true → d.slotQueue fn slot = some k → (d.queueAt k).en = true → d.pwr.fnReset.contains fn = false → d.Linked (some (queuePort k)) → d.boundTo k = none → (d.queueAt k).seen = [] → d.popWait = 0 →
      exec (.pop fn slot) ⟨d, q⟩ = .next ⟨(d.emptyPop fn k).finish, q⟩) ∧
  (∀ (d : Dev) (q : List Instr) (fn : Fn) (slot : Fin 8192) (k : Nat),
      d.active = true → d.slotQueue fn slot = some k → (d.queueAt k).en = true → d.pwr.fnReset.contains fn = false → d.Linked (some (queuePort k)) → d.boundTo k = none → (d.queueAt k).seen = [] → d.popWait ≠ 0 →
      exec (.pop fn slot) ⟨d, q⟩ = .next ⟨(d.modQueue k fun x => { x with waitPop := x.waitPop ++ [fn] }).finish, q⟩) ∧
  (∀ (d : Dev) (q : List Instr) (fn : Fn) (slot : Fin 8192) (k : Nat),
      d.active = true → d.slotQueue fn slot = some k → (d.queueAt k).waitPop.contains fn = true →
      exec (.popWaitExpire fn slot) ⟨d, q⟩ = .next ⟨((d.setQueue k { d.queueAt k with waitPop := (d.queueAt k).waitPop.erase fn }).emptyPop fn k).finish, q⟩) ∧
  (∀ (d : Dev) (q : List Instr) (fn : Fn) (off : Nat) (write : Bool),
      d.active = true →
      exec (.bar4AccessError fn off write) ⟨d, q⟩ = .next ⟨(d.bar4Error fn off write).finish, q⟩) ∧
  (∀ (d : Dev) (q : List Instr) (k : Fin 8192) (w : Packet) (rest : List Packet),
      d.active = true → (d.queueAt k).waitQwr = w :: rest →
      exec (.qwrHoldExpire k) ⟨d, q⟩ = .next ⟨((d.setQueue k { d.queueAt k with waitQwr := rest }).respond w 0 (leBytes 8 0)).finish, q⟩) ∧
  (∀ (d : Dev) (q : List Instr) (k : Fin 8192) (w : Packet) (rest : List Packet),
      d.active = true → (d.queueAt k).waitQrd = w :: rest →
      exec (.qrdHoldExpire k) ⟨d, q⟩ = .next ⟨((d.setQueue k { d.queueAt k with waitQrd := rest }).respond w 0 (leBytes 8 0)).finish, q⟩)

/-- FLUSH, DROP_HEAD, CLR_HWM and the enable bit act on the queue that the function's window selects.
On a queue the function's window selects, FLUSH empties it and marks a cut packet, DROP_HEAD discards the rest of the head packet, CLR_HWM sets the
high-water mark to the words held; QCFG.EN := 1 enables a queue, empty, whose depth fits the partition's blocks and else sets NO_SPACE, EN := 0
flushes it, drops its credits (the model's choice, log entry 14) and withdraws its bridge lanes. Of queues 0 to 15, 2 and 3 take the three commands
and the others none; none of the sixteen is enabled or disabled. Completion: exec of flush, dropHead, clrHwm, queueEnable, queueDisable answers the
next state written out, for every state and operands that meet the conditions before it. -/
def Obligations.QueueCommandsTakeEffect : Prop :=
  (∀ (d : Dev) (q : List Instr) (fn : Fn) (x : Fin 8192) (k : Nat),
      d.active = true → d.winQueue fn x = some k → d.pwr.fnReset.contains fn = false → 16 ≤ k →
      exec (.flush fn x) ⟨d, q⟩ = .next ⟨(d.flushQueue k).finish, q⟩) ∧
  (∀ (d : Dev) (q : List Instr) (fn : Fn) (x : Fin 8192) (k : Nat),
      d.active = true → d.winQueue fn x = some k → d.pwr.fnReset.contains fn = false → 16 ≤ k →
      exec (.dropHead fn x) ⟨d, q⟩ = .next ⟨(d.dropHeadOf k).finish, q⟩) ∧
  (∀ (d : Dev) (q : List Instr) (fn : Fn) (x : Fin 8192) (k : Nat),
      d.active = true → d.winQueue fn x = some k → d.pwr.fnReset.contains fn = false → 16 ≤ k →
      exec (.clrHwm fn x) ⟨d, q⟩ = .next ⟨(d.modQueue k fun y => { y with hwm := y.words.length }).finish, q⟩) ∧
  (∀ (d : Dev) (q : List Instr) (fn : Fn) (x : Fin 8192) (k : Nat),
      d.active = true → d.winQueue fn x = some k → d.pwr.fnReset.contains fn = false → k = 2 ∨ k = 3 →
      exec (.flush fn x) ⟨d, q⟩ = .next ⟨(d.flushQueue k).finish, q⟩) ∧
  (∀ (d : Dev) (q : List Instr) (fn : Fn) (x : Fin 8192) (k : Nat),
      d.active = true → d.winQueue fn x = some k → d.pwr.fnReset.contains fn = false → k = 2 ∨ k = 3 →
      exec (.dropHead fn x) ⟨d, q⟩ = .next ⟨(d.dropHeadOf k).finish, q⟩) ∧
  (∀ (d : Dev) (q : List Instr) (fn : Fn) (x : Fin 8192) (k : Nat),
      d.active = true → d.winQueue fn x = some k → d.pwr.fnReset.contains fn = false → k = 2 ∨ k = 3 →
      exec (.clrHwm fn x) ⟨d, q⟩ = .next ⟨(d.modQueue k fun y => { y with hwm := y.words.length }).finish, q⟩) ∧
  (∀ (d : Dev) (q : List Instr) (fn : Fn) (x : Fin 8192) (k : Nat),
      d.active = true → d.winQueue fn x = some k → d.pwr.fnReset.contains fn = false → k < 16 → k ≠ 2 → k ≠ 3 →
      exec (.flush fn x) ⟨d, q⟩ = .next ⟨(d).finish, q⟩) ∧
  (∀ (d : Dev) (q : List Instr) (fn : Fn) (x : Fin 8192) (k : Nat),
      d.active = true → d.winQueue fn x = some k → d.pwr.fnReset.contains fn = false → k < 16 → k ≠ 2 → k ≠ 3 →
      exec (.dropHead fn x) ⟨d, q⟩ = .next ⟨(d).finish, q⟩) ∧
  (∀ (d : Dev) (q : List Instr) (fn : Fn) (x : Fin 8192) (k : Nat),
      d.active = true → d.winQueue fn x = some k → d.pwr.fnReset.contains fn = false → k < 16 → k ≠ 2 → k ≠ 3 →
      exec (.clrHwm fn x) ⟨d, q⟩ = .next ⟨(d).finish, q⟩) ∧
  (∀ (d : Dev) (q : List Instr) (fn : Fn) (x : Fin 8192) (k : Nat),
      d.active = true → d.winQueue fn x = some k → d.pwr.fnReset.contains fn = false → k < 16 →
      exec (.queueEnable fn x) ⟨d, q⟩ = .next ⟨(d).finish, q⟩) ∧
  (∀ (d : Dev) (q : List Instr) (fn : Fn) (x : Fin 8192) (k : Nat),
      d.active = true → d.winQueue fn x = some k → d.pwr.fnReset.contains fn = false → k < 16 →
      exec (.queueDisable fn x) ⟨d, q⟩ = .next ⟨(d).finish, q⟩) ∧
  (∀ (d : Dev) (q : List Instr) (fn : Fn) (x : Fin 8192) (k : Nat) (i : Nat),
      d.active = true → d.winQueue fn x = some k → d.pwr.fnReset.contains fn = false → 16 ≤ k → d.queueOwner k = some i → (d.queueAt k).en = false → d.blocksUsed (d.g pDEV (DEV_DIR_QBASE i)) (d.g pDEV (DEV_DIR_QBASE i) + d.g pDEV (DEV_DIR_QCOUNT i)) + (d.queueAt k).blocks ≤ d.g pDEV (DEV_DIR_QCOUNT i) * 16 →
      exec (.queueEnable fn x) ⟨d, q⟩ = .next ⟨(d.setQueue k { d.queueAt k with en := true, words := [], reserved := 0 }).finish, q⟩) ∧
  (∀ (d : Dev) (q : List Instr) (fn : Fn) (x : Fin 8192) (k : Nat) (i : Nat),
      d.active = true → d.winQueue fn x = some k → d.pwr.fnReset.contains fn = false → 16 ≤ k → d.queueOwner k = some i → (d.queueAt k).en = false → d.g pDEV (DEV_DIR_QCOUNT i) * 16 < d.blocksUsed (d.g pDEV (DEV_DIR_QBASE i)) (d.g pDEV (DEV_DIR_QBASE i) + d.g pDEV (DEV_DIR_QCOUNT i)) + (d.queueAt k).blocks →
      exec (.queueEnable fn x) ⟨d, q⟩ = .next ⟨(d.setQueue k ((d.queueAt k).flag 4)).finish, q⟩) ∧
  (∀ (d : Dev) (q : List Instr) (fn : Fn) (x : Fin 8192) (k : Nat),
      d.active = true → d.winQueue fn x = some k → d.pwr.fnReset.contains fn = false → 16 ≤ k → (d.queueAt k).en = true →
      exec (.queueDisable fn x) ⟨d, q⟩ = .next ⟨(((((d.dropCredits k).flushQueue k).answerHeld k).modQueue k fun y => { y with en := false, reserved := 0 }).withdrawBridge k).finish, q⟩) ∧
  (∀ (d : Dev) (q : List Instr) (fn : Fn) (x : Fin 8192) (k : Nat),
      d.active = true → d.winQueue fn x = some k → d.pwr.fnReset.contains fn = false → 16 ≤ k → (d.queueAt k).en = false →
      exec (.queueDisable fn x) ⟨d, q⟩ = .next ⟨(d).finish, q⟩)

/-- SUBMIT places or refuses an item, couriers start heads in round-robin order and end items, holds and waits expire.
A SUBMIT reads its list's staged words: it is held where the list is full, its COMPAT bit is 1 and its item good, or where an earlier read of the
function is held; else the item is placed or refused and the read completes; where the function does not reach the register the read completes with
all ones. A held read that expires is judged as its list then stands, and those behind it follow. A free courier starts its prefetched item or the
next list's head; a busy one prefetches (log entry 21). An executing item ends with its counts, its completion word and its event; one that has waited
its limit ends with STATUS 1. DSP.CTRL.CLR clears the counts. Completion: exec of submit, submitHoldExpire, courierDispatch, workItemComplete,
courierWaitLimit, dspClr answers the next state written out, for every state and operands that meet the conditions before it. -/
def Obligations.CouriersTakeAndEndItems : Prop :=
  (∀ (d : Dev) (q : List Instr),
      d.HubPage pDSP → d.dsp.heldSub = [] → (d.listAt 16).length < 256 →
      exec (.submit .pf) ⟨d, q⟩ = .next ⟨(d.placeItem .pf ⟨BitVec.ofNat 64 (d.g pDSP (DSP_WI_WORD 0)), BitVec.ofNat 64 (d.g pDSP (DSP_WI_WORD 1)), BitVec.ofNat 64 (d.g pDSP (DSP_WI_WORD 2)), BitVec.ofNat 64 (d.g pDSP (DSP_WI_WORD 3)), 16, d.now⟩).finish, q⟩) ∧
  (∀ (d : Dev) (q : List Instr),
      d.HubPage pDSP → d.dsp.heldSub = [] → 256 ≤ (d.listAt 16).length → (d.g pDSP DSP_CFG_COMPAT).testBit 16 = true → d.badItem ⟨BitVec.ofNat 64 (d.g pDSP (DSP_WI_WORD 0)), BitVec.ofNat 64 (d.g pDSP (DSP_WI_WORD 1)), BitVec.ofNat 64 (d.g pDSP (DSP_WI_WORD 2)), BitVec.ofNat 64 (d.g pDSP (DSP_WI_WORD 3)), 16, d.now⟩ = false →
      exec (.submit .pf) ⟨d, q⟩ = .next ⟨({ d with dsp := { d.dsp with heldSub := [(⟨BitVec.ofNat 64 (d.g pDSP (DSP_WI_WORD 0)), BitVec.ofNat 64 (d.g pDSP (DSP_WI_WORD 1)), BitVec.ofNat 64 (d.g pDSP (DSP_WI_WORD 2)), BitVec.ofNat 64 (d.g pDSP (DSP_WI_WORD 3)), 16, d.now⟩, .pf)] } }).finish, q⟩) ∧
  (∀ (d : Dev) (q : List Instr),
      d.HubPage pDSP → d.dsp.heldSub = [] → (d.g pDSP DSP_CFG_COMPAT).testBit 16 = false →
      exec (.submit .pf) ⟨d, q⟩ = .next ⟨(d.placeItem .pf ⟨BitVec.ofNat 64 (d.g pDSP (DSP_WI_WORD 0)), BitVec.ofNat 64 (d.g pDSP (DSP_WI_WORD 1)), BitVec.ofNat 64 (d.g pDSP (DSP_WI_WORD 2)), BitVec.ofNat 64 (d.g pDSP (DSP_WI_WORD 3)), 16, d.now⟩).finish, q⟩) ∧
  (∀ (d : Dev) (q : List Instr),
      d.HubPage pDSP → d.dsp.heldSub.any (fun h => h.1.list == 16 && h.2 == Fn.pf) = true →
      exec (.submit .pf) ⟨d, q⟩ = .next ⟨({ d with dsp := { d.dsp with heldSub := d.dsp.heldSub ++ [((⟨BitVec.ofNat 64 (d.g pDSP (DSP_WI_WORD 0)), BitVec.ofNat 64 (d.g pDSP (DSP_WI_WORD 1)), BitVec.ofNat 64 (d.g pDSP (DSP_WI_WORD 2)), BitVec.ofNat 64 (d.g pDSP (DSP_WI_WORD 3)), 16, d.now⟩ : Work), Fn.pf)] } }).finish, q⟩) ∧
  (∀ (d : Dev) (q : List Instr),
      d.active = true → d.reach .pf pDSP ≠ .yes →
      exec (.submit .pf) ⟨d, q⟩ = .next ⟨(d.complete .pf (pDSP + 0x120) 0xFFFFFFFF).finish, q⟩) ∧
  (∀ (d : Dev) (q : List Instr) (i : Fin 16),
      d.active = true → d.reach (.vf i) (pPTN i) = .yes → d.dsp.heldSub = [] → (d.listAt i).length < 256 →
      exec (.submit (.vf i)) ⟨d, q⟩ = .next ⟨(d.placeItem (.vf i) ⟨BitVec.ofNat 64 (d.g (pPTN i) (PTN_WI_WORD 0)), BitVec.ofNat 64 (d.g (pPTN i) (PTN_WI_WORD 1)), BitVec.ofNat 64 (d.g (pPTN i) (PTN_WI_WORD 2)), BitVec.ofNat 64 (d.g (pPTN i) (PTN_WI_WORD 3)), i.val, d.now⟩).finish, q⟩) ∧
  (∀ (d : Dev) (q : List Instr) (i : Fin 16),
      d.active = true → d.reach (.vf i) (pPTN i) ≠ .yes →
      exec (.submit (.vf i)) ⟨d, q⟩ = .next ⟨(d.complete (.vf i) (pPTN i + 0x760) 0xFFFFFFFF).finish, q⟩) ∧
  (∀ (d : Dev) (q : List Instr) (l : Fin 17) (h : Work × Fn),
      d.active = true → d.dsp.heldSub.find? (fun h => h.1.list == l.val) = some h →
      exec (.submitHoldExpire l) ⟨d, q⟩ = .next ⟨((d.placeHeld h).wakeSubmits l).finish, q⟩) ∧
  (∀ (d : Dev) (q : List Instr) (c : Fin 32) (data : List Byte) (w : Work),
      d.active = true → (d.courierAt c).item = none → (d.courierAt c).slot = some w →
      exec (.courierDispatch c data) ⟨d, q⟩ = .next ⟨(d.startItem c w data).finish, q⟩) ∧
  (∀ (d : Dev) (q : List Instr) (c : Fin 32) (data : List Byte),
      d.active = true → (d.courierAt c).item = none → (d.courierAt c).slot = none → d.nextList = none →
      exec (.courierDispatch c data) ⟨d, q⟩ = .next ⟨(d).finish, q⟩) ∧
  (∀ (d : Dev) (q : List Instr) (c : Fin 32) (data : List Byte) (w : Work) (f : Dev),
      d.active = true → (d.courierAt c).item = none → (d.courierAt c).slot = none → d.takeItem = some (w, f) →
      exec (.courierDispatch c data) ⟨d, q⟩ = .next ⟨(f.startItem c w data).finish, q⟩) ∧
  (∀ (d : Dev) (q : List Instr) (c : Fin 32) (data : List Byte) (v w : Work) (f : Dev),
      d.active = true → (d.courierAt c).item = some v → (d.courierAt c).slot = none → d.takeItem = some (w, f) →
      exec (.courierDispatch c data) ⟨d, q⟩ = .next ⟨((f.setCourier c { d.courierAt c with slot := some w }).on pCRR (CRR_CSTATE_SLOT_FULL c)).finish, q⟩) ∧
  (∀ (d : Dev) (q : List Instr) (c : Fin 32) (w : Work),
      d.active = true → (d.courierAt c).item = some w → d.g pCRR (CRR_CSTATE_STATE c) = 1 →
      exec (.workItemComplete c) ⟨d, q⟩ =
        (.next ⟨(let f := (d.add pCRR (CRR_ITEMS_COUNT c) 1).countBusy c (d.courierAt c)
        let f := (f.setCourier c { Courier.reset with slot := (d.courierAt c).slot }).p pCRR (CRR_CSTATE_STATE c) 0
        (f.writeCompletion w (Dev.completionWord w (d.courierAt c))).raise (0x0D0 + c.val) 4 16 0 0).finish, q⟩)) ∧
  (∀ (d : Dev) (q : List Instr) (c : Fin 32), d.active = true → (d.courierAt c).item = none → exec (.workItemComplete c) ⟨d, q⟩ = .next ⟨(d).finish, q⟩) ∧
  (∀ (d : Dev) (q : List Instr) (c : Fin 32) (w : Work),
      d.active = true → (d.courierAt c).item = some w → d.g pCRR (CRR_CSTATE_STATE c) = 2 →
      exec (.courierWaitLimit c) ⟨d, q⟩ = .next ⟨(d.endItem c w { d.courierAt c with status := 1 }).finish, q⟩) ∧
  (∀ (d : Dev) (c : Nat) (x : Courier), d.countBusy c x =
      if d.g pCRR (CRR_CSTATE_STATE c) = 2 then (d.add pCRR (CRR_BUSY_US_COUNT c) ((d.now - x.since) / 1000)).add pCRR (CRR_WAIT_US_COUNT c) ((d.now - x.waitAt) / 1000)
      else d.add pCRR (CRR_BUSY_US_COUNT c) ((d.now - x.since) / 1000)) ∧
  (∀ (d : Dev) (q : List Instr),
      d.Up →
      exec (.dspClr) ⟨d, q⟩ =
        (.next ⟨(let f := d.each (List.range 17) (fun e l =>
          (if l < 16 then ((e.p pDSP (DSP_LIST_HWM l) 0).clr pDSP (DSP_REFUSED_COUNT l)).p (pPTN l) PTN_LIST_HWM 0
            else (e.p pDSP (DSP_LIST_HWM l) 0).clr pDSP (DSP_REFUSED_COUNT l)).each (List.range 8) fun e b => e.clr pHIST (HIST l b))
        ((f.clr pDSP DSP_CPL_LOST_COUNT).clr pDSP DSP_DISCARDED_COUNT).each (List.range 32) (fun e c => ((e.clr pCRR (CRR_ITEMS_COUNT c)).clr pCRR (CRR_BUSY_US_COUNT c)).clr pCRR (CRR_WAIT_US_COUNT c))).finish, q⟩))

/-- The trigger sequencer arms and disarms, a level times out, pins take edges and end pulses.
SEQ_CTRL.ARM arms the sequencer at level 0 with its count cleared, but not while its partition is reset (R319, R387); DISARM disarms it. A level with
a timeout that ends on an armed sequencer returns it to level 0. An edge at an input pin sets its level in PIN_IN and is offered to the comparators;
at an output pin it changes nothing. A pulse that ends drives the pin inactive. Completion: exec of arm, disarm, triggerLevelTimeout, trigPinEdge,
pinPulseEnd answers the next state written out, for every state and operands that meet the conditions before it. -/
def Obligations.TriggerCommandsTakeEffect : Prop :=
  (∀ (d : Dev) (q : List Instr),
      d.Up → 16 ≤ d.g pTRG TRG_SEQ_CTRL_OWNER ∨ d.ptnBusy (d.g pTRG TRG_SEQ_CTRL_OWNER) = false →
      exec (.arm) ⟨d, q⟩ = .next ⟨(((d.on pTRG TRG_SEQ_STATUS_ARMED).p pTRG TRG_SEQ_STATUS_LEVEL 0).p pTRG TRG_SEQ_STATUS_COUNT 0).finish, q⟩) ∧
  (∀ (d : Dev) (q : List Instr),
      d.Up → d.g pTRG TRG_SEQ_CTRL_OWNER < 16 → d.ptnBusy (d.g pTRG TRG_SEQ_CTRL_OWNER) = true →
      exec (.arm) ⟨d, q⟩ = .next ⟨(d).finish, q⟩) ∧
  (∀ (d : Dev) (q : List Instr), d.Up → exec (.disarm) ⟨d, q⟩ = .next ⟨(d.p pTRG TRG_SEQ_STATUS_ARMED 0).finish, q⟩) ∧
  (∀ (d : Dev) (q : List Instr),
      d.active = true → d.b pTRG TRG_SEQ_STATUS_ARMED = true → d.g pTRG (TRG_LTIMEOUT_US (d.g pTRG TRG_SEQ_STATUS_LEVEL)) ≠ 0 →
      exec (.triggerLevelTimeout) ⟨d, q⟩ = .next ⟨((d.p pTRG TRG_SEQ_STATUS_LEVEL 0).p pTRG TRG_SEQ_STATUS_COUNT 0).finish, q⟩) ∧
  (∀ (d : Dev) (q : List Instr), d.active = true → d.b pTRG TRG_SEQ_STATUS_ARMED = false → exec (.triggerLevelTimeout) ⟨d, q⟩ = .next ⟨(d).finish, q⟩) ∧
  (∀ (d : Dev) (q : List Instr) (j : Fin 8) (e : Bool),
      d.active = true → d.b pTRG (TRG_PIN_OUT j) = true →
      exec (.trigPinEdge j e) ⟨d, q⟩ = .next ⟨(d).finish, q⟩) ∧
  (∀ (d : Dev) (q : List Instr) (j : Fin 8) (e : Bool) (lv : Nat),
      d.active = true → d.b pTRG (TRG_PIN_OUT j) = false → lv = (if e then d.trg.pinIn ||| 1 <<< j.val else d.trg.pinIn &&& (255 ^^^ 1 <<< j.val)) →
      exec (.trigPinEdge j e) ⟨d, q⟩ = .next ⟨((({ d with trg := { d.trg with pinIn := lv } } : Dev).p pTRG TRG_STATUS_PIN_IN lv).offer 6 (fun x => bitsAt x 0 3 == j.val && (bitsAt x 3 2 == 3 || bitsAt x 3 2 == (if e then 1 else 2))) 1).finish, q⟩) ∧
  (∀ (d : Dev) (q : List Instr) (j : Fin 8),
      d.active = true → d.trg.pulsing.testBit j = true →
      exec (.pinPulseEnd j) ⟨d, q⟩ = .next ⟨(({ d with trg := { d.trg with pulsing := d.trg.pulsing &&& (255 ^^^ 1 <<< j.val) } } : Dev).drivePin j false).finish, q⟩) ∧
  (∀ (d : Dev) (q : List Instr) (j : Fin 8), d.active = true → d.trg.pulsing.testBit j = false → exec (.pinPulseEnd j) ⟨d, q⟩ = .next ⟨(d).finish, q⟩)

/-- A capture context arms or is refused with its reason, disarms, and its channels' events take effect.
GO of an IDLE context whose channels have legal regions within its charge and the slice begins a capture, its charge added; else REASON says why: 5
not IDLE, 4 no channel, 3 a region, 2 the context's charge, 1 the slice. DISARM ends the records of a capture in progress, with flag 4 before its
trigger and 2 after it, and returns the context to IDLE. A channel's oldest full block goes out for HBM, and the last one after the trigger completes
the channel, as the limit after the trigger does; 2 us in REARMING begin the next capture, a channel given away is zeroed within the pinwheel, and the
pinwheel moves only while every context is IDLE and its range is legal (that a range beyond R320's limit is refused is the model's choice, log entry
54). Completion: exec of captureArm, captureDisarm, captureBlockWrite, postLimitExpire, rearmExpire, channelOwnerWrite, zeroingComplete,
pinwheelConfigWrite answers the next state written out, for every state and operands that meet the conditions before it. -/
def Obligations.CaptureCommandsTakeEffect : Prop :=
  (∀ (d : Dev) (q : List Instr) (c : Fin 17),
      d.Up → d.g pCAP (CAP_CSTATUS_STATE c) ≠ 0 →
      exec (.captureArm c) ⟨d, q⟩ = .next ⟨(d.p pCAP (CAP_CSTATUS_REASON c) 5).finish, q⟩) ∧
  (∀ (d : Dev) (q : List Instr) (c : Fin 17),
      d.Up → d.g pCAP (CAP_CSTATUS_STATE c) = 0 → d.capChans c = [] →
      exec (.captureArm c) ⟨d, q⟩ = .next ⟨(d.p pCAP (CAP_CSTATUS_REASON c) 4).finish, q⟩) ∧
  (∀ (d : Dev) (q : List Instr) (c : Fin 17),
      d.Up → d.g pCAP (CAP_CSTATUS_STATE c) = 0 → d.capChans c ≠ [] → (d.capChans c).all (fun ch => d.capRegionOk c ch) = true → c = 16 ∨ d.capSum c ≤ d.g pCAP (CAP_CHARGE_ALLOW c) * 1000 → 2000000 < d.capSum c + d.g pCAP CAP_SLICE_USED_MBS →
      exec (.captureArm c) ⟨d, q⟩ = .next ⟨(d.p pCAP (CAP_CSTATUS_REASON c) 1).finish, q⟩) ∧
  (∀ (d : Dev) (q : List Instr) (c : Fin 17),
      d.Up → d.g pCAP (CAP_CSTATUS_STATE c) = 0 → d.capChans c ≠ [] → (d.capChans c).all (fun ch => d.capRegionOk c ch) = true → c = 16 ∨ d.capSum c ≤ d.g pCAP (CAP_CHARGE_ALLOW c) * 1000 → d.capSum c + d.g pCAP CAP_SLICE_USED_MBS ≤ 2000000 →
      exec (.captureArm c) ⟨d, q⟩ =
        (.next ⟨(let f := (d.p pCAP (CAP_CSTATUS_REASON c) 0).p pCAP CAP_SLICE_USED_MBS (d.g pCAP CAP_SLICE_USED_MBS + d.capSum c)
        let f := ((f.p pCAP (CAP_MISSED_POST c) 0).p pCAP (CAP_MISSED_REARM c) 0).p pCAP (CAP_CSTATUS_CAPTURES c) 0
        let f : Dev := { f with cap := { f.cap with capNo := SMap.set 0 f.cap.capNo c 0, charge := SMap.set 0 f.cap.charge c (d.capSum c) } }
        (f.each (f.capChans c) fun e ch => e.modChan ch fun x => { x with lost := 0 }).beginCapture c).finish, q⟩)) ∧
  (∀ (d : Dev) (q : List Instr) (c : Fin 17), d.Up → d.g pCAP (CAP_CSTATUS_STATE c) = 0 → exec (.captureDisarm c) ⟨d, q⟩ = .next ⟨(d).finish, q⟩) ∧
  (∀ (d : Dev) (q : List Instr) (c : Fin 17),
      d.Up → d.g pCAP (CAP_CSTATUS_STATE c) = 0 → d.capChans c ≠ [] → (d.capChans c).any (fun ch => !d.capRegionOk c ch) = true →
      exec (.captureArm c) ⟨d, q⟩ = .next ⟨(d.p pCAP (CAP_CSTATUS_REASON c) 3).finish, q⟩) ∧
  (∀ (d : Dev) (q : List Instr) (c : Fin 17),
      d.Up → d.g pCAP (CAP_CSTATUS_STATE c) = 0 → d.capChans c ≠ [] → (d.capChans c).all (fun ch => d.capRegionOk c ch) = true → c ≠ 16 → d.g pCAP (CAP_CHARGE_ALLOW c) * 1000 < d.capSum c →
      exec (.captureArm c) ⟨d, q⟩ = .next ⟨(d.p pCAP (CAP_CSTATUS_REASON c) 2).finish, q⟩) ∧
  (∀ (d : Dev) (q : List Instr) (c : Fin 17),
      d.Up → d.g pCAP (CAP_CSTATUS_STATE c) = 1 →
      exec (.captureDisarm c) ⟨d, q⟩ = .next ⟨((d.each (d.capChans c) fun e ch => if (e.chanAt ch).phase == 3 then e else (e.cutBlock ch).writeEntry c ch 4).capIdle c).finish, q⟩) ∧
  (∀ (d : Dev) (q : List Instr) (c : Fin 17),
      d.Up → d.g pCAP (CAP_CSTATUS_STATE c) = 2 →
      exec (.captureDisarm c) ⟨d, q⟩ = .next ⟨((d.each (d.capChans c) fun e ch => if (e.chanAt ch).phase == 3 then e else (e.cutBlock ch).writeEntry c ch 2).capIdle c).finish, q⟩) ∧
  (∀ (d : Dev) (q : List Instr) (c : Fin 17),
      d.Up → d.g pCAP (CAP_CSTATUS_STATE c) = 3 →
      exec (.captureDisarm c) ⟨d, q⟩ = .next ⟨(d.capIdle c).finish, q⟩) ∧
  (∀ (d : Dev) (q : List Instr) (ch : Fin 64) (addr : Nat),
      d.active = true → (d.chanAt ch).ready = [] →
      exec (.captureBlockWrite ch addr) ⟨d, q⟩ = .next ⟨(d).finish, q⟩) ∧
  (∀ (d : Dev) (q : List Instr) (ch : Fin 64) (addr : Nat) (b : CapBlk) (rest : List CapBlk),
      d.active = true → (d.chanAt ch).ready = b :: rest → b.addr ≠ addr →
      exec (.captureBlockWrite ch addr) ⟨d, q⟩ = .next ⟨(d).finish, q⟩) ∧
  (∀ (d : Dev) (q : List Instr) (ch : Fin 64) (b : CapBlk) (rest : List CapBlk) (f : Dev),
      d.active = true → (d.chanAt ch).ready = b :: rest → rest ≠ [] ∨ (d.chanAt ch).phase ≠ 2 → f = d.setChan ch { d.chanAt ch with ready := rest } →
      exec (.captureBlockWrite ch b.addr) ⟨d, q⟩ = .next ⟨({ f with cap := { f.cap with blocksOut := f.cap.blocksOut ++ [b] } }).finish, q⟩) ∧
  (∀ (d : Dev) (q : List Instr) (ch : Fin 64) (b : CapBlk) (f : Dev),
      d.active = true → (d.chanAt ch).ready = [b] → (d.chanAt ch).phase = 2 → f = d.setChan ch { d.chanAt ch with ready := [] } → f.capPost (f.g pCAP (CAP_CH_CFG_OWNER ch)) ch ≤ (d.chanAt ch).post →
      exec (.captureBlockWrite ch b.addr) ⟨d, q⟩ = .next ⟨(Dev.chanComplete { f with cap := { f.cap with blocksOut := f.cap.blocksOut ++ [b] } } ch).finish, q⟩) ∧
  (∀ (d : Dev) (q : List Instr) (ch : Fin 64),
      d.active = true → (d.chanAt ch).phase = 2 → d.g pCAP (CAP_ARM_POST_LIMIT (d.g pCAP (CAP_CH_CFG_OWNER ch))) ≠ 0 →
      exec (.postLimitExpire ch) ⟨d, q⟩ = .next ⟨(d.chanComplete ch).finish, q⟩) ∧
  (∀ (d : Dev) (q : List Instr) (ch : Fin 64), d.active = true → (d.chanAt ch).phase ≠ 2 → exec (.postLimitExpire ch) ⟨d, q⟩ = .next ⟨(d).finish, q⟩) ∧
  (∀ (d : Dev) (q : List Instr) (c : Fin 17),
      d.active = true → d.g pCAP (CAP_CSTATUS_STATE c) = 3 →
      exec (.rearmExpire c) ⟨d, q⟩ = .next ⟨(d.beginCapture c).finish, q⟩) ∧
  (∀ (d : Dev) (q : List Instr) (c : Fin 17),
      d.active = true → d.g pCAP (CAP_CSTATUS_STATE c) ≠ 3 →
      exec (.rearmExpire c) ⟨d, q⟩ = .next ⟨(d).finish, q⟩) ∧
  (∀ (d : Dev) (q : List Instr) (ch : Fin 64) (o : Fin 32), d.Up → exec (.channelOwnerWrite ch o) ⟨d, q⟩ = .next ⟨(d.setChanOwner ch o).finish, q⟩) ∧
  (∀ (d : Dev) (q : List Instr) (ch : Fin 64) (x : Chan) (size : Nat),
      d.active = true → x = d.chanAt ch → x.zeroing = true → size = d.g pCAP CAP_PW_SIZE_PAGES →
      exec (.zeroingComplete ch) ⟨d, q⟩ =
        (.next ⟨(let f := d.zeroRange (Dev.hubReq 0x9A) (d.g pCAP CAP_PW_BASE_ADDR + x.zeroOff * 4096) (Nat.min x.zeroPages (size - x.zeroOff) * 4096)
        (f.zeroRange (Dev.hubReq 0x9A) (f.dirAddr ch 0) (if size < 8 then 0 else 512)).modChan ch fun x => { x with zeroing := false }).finish, q⟩)) ∧
  (∀ (d : Dev) (q : List Instr) (ch : Fin 64),
      d.active = true → (d.chanAt ch).zeroing = false →
      exec (.zeroingComplete ch) ⟨d, q⟩ = .next ⟨(d).finish, q⟩) ∧
  (∀ (d : Dev) (q : List Instr) (v : W64),
      d.Up → (∀ c, c < 17 → d.g pCAP (CAP_CSTATUS_STATE c) = 0) → d.pinwheelOk (v.toNat / 4096 * 4096) (d.g pCAP CAP_PW_SIZE_PAGES * 4096) = true →
      exec (.pinwheelConfigWrite false v) ⟨d, q⟩ = .next ⟨((d.p pCAP CAP_PW_BASE_ADDR (v.toNat / 4096 * 4096)).p pCAP CAP_PW_SIZE_PAGES (d.g pCAP CAP_PW_SIZE_PAGES)).finish, q⟩) ∧
  (∀ (d : Dev) (q : List Instr) (v : W64) (c : Fin 17),
      d.Up → d.g pCAP (CAP_CSTATUS_STATE c) ≠ 0 →
      exec (.pinwheelConfigWrite true v) ⟨d, q⟩ = .next ⟨(d).finish, q⟩)

/-- Trace streams enable, mark, close and sync; the key roll starts, pauses, converts sectors and ends.
A stream that may be enabled is; a write of MARK adds a record after the state machine has seen the step's hits; a counter of time at its limit is
raised to it, which the state machine sees in its next evaluation; a block times out and is closed; a periodic SYNC enters a stream that is on. A roll
asked for is tried with the arbiter and again at a release; while none runs, KEY_ROLL_SECTOR changes nothing; with RATE 0 the roll pauses; a pinned
sector pauses it for a snapshot; else it converts the next sector, and ends after the last. The counts clear. Completion: exec of traceStreamEnable,
traceCounterLimit, mark, traceBlockTimeout, traceSyncTimer, roll, keyRollStart, keyRollSector, imeClrCounts answers the next state written out, for
every state and operands that meet the conditions before it. -/
def Obligations.TraceAndKeyRollCommandsTakeEffect : Prop :=
  (∀ (d : Dev) (q : List Instr) (t : Fin 17), d.Up → exec (.traceStreamEnable t) ⟨d, q⟩ = .next ⟨(d.enableStream t).finish, q⟩) ∧
  (∀ (d : Dev) (q : List Instr) (t : Fin 17), d.active = true → d.strmEn t = false → exec (.traceCounterLimit t) ⟨d, q⟩ = .next ⟨(d).finish, q⟩) ∧
  (∀ (d : Dev) (q : List Instr) (t : Fin 17),
      d.active = true → d.strmEn t = true → d.g pTRC (TRC_S_CFG_CNT_UNIT t) = 1 →
      exec (.traceCounterLimit t) ⟨d, q⟩ = .next ⟨(d.p pTRC (TRC_S_COUNT_COUNT t) (Nat.max (d.g pTRC (TRC_S_COUNT_COUNT t)) (d.g pTRC (TRC_S_CNT_LIMIT_LIMIT t)))).finish, q⟩) ∧
  (∀ (d : Dev) (q : List Instr) (t : Fin 17) (v : BitVec 16),
      d.Up →
      exec (.mark t v) ⟨d, q⟩ =
        (.next ⟨(let f := d.runMachine t (d.trg.hits.map (·.1))
        f.addMark t 1 (f.g pTRC (TRC_S_STATUS_STATE t)) (f.g pTRC (TRC_S_STATUS_STATE t)) v.toNat).finish, q⟩)) ∧
  (∀ (d : Dev) (q : List Instr) (t : Fin 17), d.active = true → exec (.traceBlockTimeout t) ⟨d, q⟩ = .next ⟨(d.closeBlock t).finish, q⟩) ∧
  (∀ (d : Dev) (q : List Instr) (t : Fin 17),
      d.active = true → d.strmOn t = true → d.g pTRC (TRC_S_CFG_SYNC_EXP t) ≠ 0 →
      exec (.traceSyncTimer t) ⟨d, q⟩ = .next ⟨(((d.flushRepeat t).addRec t 0 (d.syncRec t)).tick).finish, q⟩) ∧
  (∀ (d : Dev) (q : List Instr) (t : Fin 17), d.active = true → d.strmOn t = false → exec (.traceSyncTimer t) ⟨d, q⟩ = .next ⟨(d).finish, q⟩) ∧
  (∀ (d : Dev) (q : List Instr), d.Up → exec (.roll) ⟨d, q⟩ = .next ⟨(d.requestRoll 2).finish, q⟩) ∧
  (∀ (d : Dev) (q : List Instr), d.active = true → exec (.keyRollStart) ⟨d, q⟩ = .next ⟨(d.tryRoll (d.mnt.wait.contains (Dev.mntId 2 16 0))).finish, q⟩) ∧
  (∀ (d : Dev) (q : List Instr), d.active = true → d.g pKRE KRE_STATUS_STATE < 2 → exec (.keyRollSector) ⟨d, q⟩ = .next ⟨(d).finish, q⟩) ∧
  (∀ (d : Dev) (q : List Instr),
      d.active = true → 2 ≤ d.g pKRE KRE_STATUS_STATE → d.g pKRE KRE_CFG_RATE = 0 →
      exec (.keyRollSector) ⟨d, q⟩ = .next ⟨(d.pauseRoll false).finish, q⟩) ∧
  (∀ (d : Dev) (q : List Instr) (sec : Nat),
      d.active = true → 2 ≤ d.g pKRE KRE_STATUS_STATE → d.g pKRE KRE_CFG_RATE ≠ 0 → d.nextSector = some sec → d.snapPinned sec = false →
      exec (.keyRollSector) ⟨d, q⟩ = .next ⟨(((d.p pKRE KRE_STATUS_STATE 2).p pKRE KRE_STATUS_PAUSED_SNAP 0).convertSector sec).finish, q⟩) ∧
  (∀ (d : Dev) (q : List Instr) (sec : Nat),
      d.active = true → 2 ≤ d.g pKRE KRE_STATUS_STATE → d.g pKRE KRE_CFG_RATE ≠ 0 → d.nextSector = some sec → d.snapPinned sec = true →
      exec (.keyRollSector) ⟨d, q⟩ = .next ⟨(d.pauseRoll true).finish, q⟩) ∧
  (∀ (d : Dev) (q : List Instr),
      d.active = true → 2 ≤ d.g pKRE KRE_STATUS_STATE → d.g pKRE KRE_CFG_RATE ≠ 0 → d.nextSector = none →
      exec (.keyRollSector) ⟨d, q⟩ = .next ⟨(d.endRoll).finish, q⟩) ∧
  (∀ (d : Dev) (q : List Instr),
      d.Up →
      exec (.imeClrCounts) ⟨d, q⟩ =
        (.next ⟨((d.p pIME IME_INTEG_ERR_COUNT 0).each (List.range 4) fun e k =>
          (((e.p pIME (IME_LOOKUPS_COUNT k) 0).p pIME (IME_MISSES_COUNT k) 0).p pIME (IME_WRITEBACKS_COUNT k) 0).p pIME (IME_META_BYTES_COUNT k) 0).finish, q⟩))

/-- Supply and PERST# events move the power state, and a start brings the device from DOZE to ACTIVE.
VAUX_UP in OFF is a POWER reset into STANDBY, or DOZE where 48 V is up; VAUX_LOSS goes to OFF from any state, where nothing but the fuses is held and
WAKE# is released; 48 V moves STANDBY to DOZE and back; its loss in ACTIVE is a last-gasp entry and a reset into STANDBY. PERST# asserted in ACTIVE,
or RST.CTRL.DEVICE, resets everything but the AON domain into DOZE; during a controlled stop neither does (log entry 35). STARTUP acts only in DOZE
with both supplies, PERST# deasserted and no controlled stop before; it locks the clocks, starts the boot loader, draws the master key or reports its
failure, and deasserts WAKE#. Completion: exec of vauxUp, vauxLoss, vin48Up, vin48Loss, perstAssert, perstDeassert, startup, device, wakeSource
answers the next state written out, for every state and operands that meet the conditions before it. -/
def Obligations.SuppliesAndResetPinsTakeEffect : Prop :=
  (∀ (d : Dev) (q : List Instr),
      d.pwr.st = .off →
      exec (.vauxUp) ⟨d, q⟩ = .next ⟨({ d.bare with pwr := { d.bare.pwr with vaux := true, st := if d.pwr.vin48 then .doze else .standby } }).finish, q⟩) ∧
  (∀ (d : Dev) (q : List Instr), d.pwr.st ≠ .off → exec (.vauxUp) ⟨d, q⟩ = .next ⟨(d).finish, q⟩) ∧
  (∀ (d : Dev) (q : List Instr),
      exec (.vauxLoss) ⟨d, q⟩ =
        (.next ⟨(let f := d.cutBurns.bare
        ({ f with pwr := { f.pwr with vaux := false, st := .off } } : Dev).iff (d.b pAON AON_WAKE_CAUSE_ASSERTED) fun e => e.emit (.wake false)).finish, q⟩)) ∧
  (∀ (d : Dev) (q : List Instr),
      d.pwr.st = .standby →
      exec (.vin48Up) ⟨d, q⟩ =
        (.next ⟨(let f : Dev := { d with pwr := { d.pwr with vin48 := true } }
        { f.on pAON AON_WAKE_CAUSE_VIN48 with pwr := { d.pwr with vin48 := true, st := .doze } }).finish, q⟩)) ∧
  (∀ (d : Dev) (q : List Instr), d.pwr.st ≠ .standby → exec (.vin48Up) ⟨d, q⟩ = .next ⟨({ d with pwr := { d.pwr with vin48 := true } }).finish, q⟩) ∧
  (∀ (d : Dev) (q : List Instr),
      d.pwr.st = .doze →
      exec (.vin48Loss) ⟨d, q⟩ = .next ⟨({ d with pwr := { d.pwr with vin48 := false, st := .standby } }).finish, q⟩) ∧
  (∀ (d : Dev) (q : List Instr),
      d.pwr.st = .active →
      exec (.vin48Loss) ⟨d, q⟩ =
        (.next ⟨(let f : Nat → Nat := fun i => (Config.freeWord d.fresh i).toNat
        (({ d with pwr := { d.pwr with vin48 := false } } : Dev).tick.lastGasp (f 0 % 1024) (f 1 % 4) 16 (f 2 ||| f 3 <<< 32) (f 4 ||| f 5 <<< 32)).perst 2 .standby).finish, q⟩)) ∧
  (∀ (d : Dev) (q : List Instr),
      d.pwr.st = .active → d.pwr.stopping = false →
      exec (.perstAssert) ⟨d, q⟩ = .next ⟨(({ d with pwr := { d.pwr with perst := true, afterStop := false } } : Dev).perst 1 .doze).finish, q⟩) ∧
  (∀ (d : Dev) (q : List Instr),
      d.pwr.st = .active → d.pwr.stopping = true →
      exec (.perstAssert) ⟨d, q⟩ = .next ⟨({ d with pwr := { d.pwr with perst := true, afterStop := false } }).finish, q⟩) ∧
  (∀ (d : Dev) (q : List Instr),
      d.pwr.st = .doze →
      exec (.perstAssert) ⟨d, q⟩ = .next ⟨(({ d with pwr := { d.pwr with perst := true, afterStop := false } } : Dev).p pWDN WDN_STATUS_STATE 0).finish, q⟩) ∧
  (∀ (d : Dev) (q : List Instr),
      d.pwr.st = .standby →
      exec (.perstAssert) ⟨d, q⟩ = .next ⟨(({ d with pwr := { d.pwr with perst := true, afterStop := false } } : Dev).p pWDN WDN_STATUS_STATE 0).finish, q⟩) ∧
  (∀ (d : Dev) (q : List Instr),
      d.pwr.st = .off →
      exec (.perstAssert) ⟨d, q⟩ = .next ⟨(({ d with pwr := { d.pwr with perst := true, afterStop := false } } : Dev)).finish, q⟩) ∧
  (∀ (d : Dev) (q : List Instr), exec (.perstDeassert) ⟨d, q⟩ = .next ⟨({ d with pwr := { d.pwr with perst := false } }).finish, q⟩) ∧
  (∀ (d : Dev) (q : List Instr) (refclk healthOk : Bool), d.mayStart = false → exec (.startup refclk healthOk) ⟨d, q⟩ = .next ⟨(d).finish, q⟩) ∧
  (∀ (d : Dev) (q : List Instr) (refclk : Bool),
      d.mayStart = true →
      exec (.startup refclk false) ⟨d, q⟩ =
        (.next ⟨(let f : Dev := { d with pwr := { d.pwr with st := .active } }
        let f := ((f.on pCKG CKG_STATUS_OSC_OK).on pCKG CKG_STATUS_CORE_LOCK).p pCKG CKG_STATUS_REFCLK refclk.toNat
        let f := (f.romStart.setBoot 1).setAuthMode.trainPcie
        let f := (f.irq pIME 1).raise 0x0C9 2 16 (f.word pIME 0x100 fldsIME) 0
        (f.p pAON AON_WAKE_CAUSE_ASSERTED 0).emit (.wake false)).finish, q⟩)) ∧
  (∀ (d : Dev) (q : List Instr) (refclk : Bool),
      d.mayStart = true →
      exec (.startup refclk true) ⟨d, q⟩ =
        (.next ⟨(let f : Dev := { d with pwr := { d.pwr with st := .active } }
        let f := ((f.on pCKG CKG_STATUS_OSC_OK).on pCKG CKG_STATUS_CORE_LOCK).p pCKG CKG_STATUS_REFCLK refclk.toNat
        let f := (f.romStart.setBoot 1).setAuthMode.trainPcie
        let f : Dev := { (f.on pIME IME_KEYSTATE_KEY_VALID).tick with ime := { f.ime with key := (Config.random f.fresh).toNat } }
        (f.p pAON AON_WAKE_CAUSE_ASSERTED 0).emit (.wake false)).finish, q⟩)) ∧
  (∀ (d : Dev) (q : List Instr),
      d.active = true → d.reach .pf pRST = .yes → d.pwr.stopping = false →
      exec (.device) ⟨d, q⟩ = .next ⟨(d.perst 5 .doze).finish, q⟩) ∧
  (∀ (d : Dev) (q : List Instr), d.active = true → d.reach .pf pRST = .yes → d.pwr.stopping = true → exec (.device) ⟨d, q⟩ = .next ⟨(d).finish, q⟩) ∧
  (∀ (d : Dev) (q : List Instr) (src : Fin 10),
      d.pwr.st = .doze → d.wakeEnabled src = true →
      exec (.wakeSource src) ⟨d, q⟩ = .next ⟨(d.latchWake src).finish, q⟩) ∧
  (∀ (d : Dev) (q : List Instr) (src : Fin 10), d.wakeEnabled src = false → exec (.wakeSource src) ⟨d, q⟩ = .next ⟨(d).finish, q⟩)

/-- FLR, partition resets and VF Enable reset what R386 gives, merge, and complete.
An FLR of the PF while one is in progress merges with it; in OPERATE it presents the full function and resets every partition; an FLR of a VF resets
its function state and its bound partition, and is ignored where the VF is not enabled. PTN_RESET asks for the reset of each partition of its mask,
but not of one whose VF is under reset. Each completion clears its busy mark. Clearing VF Enable removes the VFs and resets their partitions; setting
it takes effect from 0. Completion: exec of flrPf, flrVf, functionResetComplete, ptnReset, partitionResetComplete, vfEnableClear, vfEnableSet answers
the next state written out, for every state and operands that meet the conditions before it. -/
def Obligations.FunctionAndPartitionResetsTakeEffect : Prop :=
  (∀ (d : Dev) (q : List Instr), d.active = true → d.pwr.fnReset.contains .pf = true → exec (.flrPf) ⟨d, q⟩ = .next ⟨(d).finish, q⟩) ∧
  (∀ (d : Dev) (q : List Instr) (f : Dev),
      d.active = true → d.pwr.fnReset.contains .pf = false → f = d.clearVfs.beginFnReset .pf → 5 ≤ f.bootState →
      exec (.flrPf) ⟨d, q⟩ = .next ⟨(((f.p pDEV DEV_STATE_BOOT 0).on pDEV DEV_STATE_FULL).resetPtns 0xFFFF).finish, q⟩) ∧
  (∀ (d : Dev) (q : List Instr) (p : Fin 16), d.active = true → d.pwr.vfNum ≤ p.val → exec (.flrVf p) ⟨d, q⟩ = .next ⟨(d).finish, q⟩) ∧
  (∀ (d : Dev) (q : List Instr) (p : Fin 16),
      d.active = true → d.pwr.fnReset.contains .pf = false → d.pwr.fnReset.contains (.vf p) = false → p.val < d.pwr.vfNum → d.vfLive p = true →
      exec (.flrVf p) ⟨d, q⟩ = .next ⟨((d.beginFnReset (.vf p)).ptnResetReq p).finish, q⟩) ∧
  (∀ (d : Dev) (q : List Instr) (p : Fin 16),
      d.active = true → d.pwr.fnReset.contains .pf = false → d.pwr.fnReset.contains (.vf p) = false → p.val < d.pwr.vfNum → d.vfLive p = false →
      exec (.flrVf p) ⟨d, q⟩ = .next ⟨(d.beginFnReset (.vf p)).finish, q⟩) ∧
  (∀ (d : Dev) (q : List Instr) (fn : Fn),
      d.active = true →
      exec (.functionResetComplete fn) ⟨d, q⟩ = .next ⟨({ d with pwr := { d.pwr with fnReset := d.pwr.fnReset.filter (· ≠ fn) } }).finish, q⟩) ∧
  (∀ (d : Dev) (q : List Instr) (mask : BitVec 16),
      d.active = true → d.reach .pf pRST = .yes →
      exec (.ptnReset mask) ⟨d, q⟩ = .next ⟨(d.each ((List.range 16).filter fun i => mask.toNat.testBit i && !(d.vfLive i && d.pwr.fnReset.contains (.vf (Fin.ofNat 16 i)))) fun e i => e.ptnResetReq i).finish, q⟩) ∧
  (∀ (d : Dev) (q : List Instr) (p : Fin 16),
      d.active = true → d.ptnBusy p = true →
      exec (.partitionResetComplete p) ⟨d, q⟩ = .next ⟨(d.p pRST RST_PTN_STATUS_BUSY (d.g pRST RST_PTN_STATUS_BUSY &&& (0xFFFF ^^^ 1 <<< p.val))).finish, q⟩) ∧
  (∀ (d : Dev) (q : List Instr) (p : Fin 16), d.active = true → d.ptnBusy p = false → exec (.partitionResetComplete p) ⟨d, q⟩ = .next ⟨(d).finish, q⟩) ∧
  (∀ (d : Dev) (q : List Instr),
      d.Up →
      exec (.vfEnableClear) ⟨d, q⟩ = .next ⟨(d.clearVfs.resetPtns ((List.range 16).foldl (fun m i => if d.vfLive i then m ||| 1 <<< i else m) 0)).finish, q⟩) ∧
  (∀ (d : Dev) (q : List Instr) (k : Fin 17),
      d.Up → d.pwr.fnReset.contains .pf = false → d.pwr.vfNum = 0 →
      exec (.vfEnableSet k) ⟨d, q⟩ = .next ⟨({ d.tick with pwr := { d.pwr with vfNum := k, vfBar2 := Dev.barSize d.fresh } }).finish, q⟩) ∧
  (∀ (d : Dev) (q : List Instr) (k : Fin 17), d.active = true → d.pwr.vfNum ≠ 0 → exec (.vfEnableSet k) ⟨d, q⟩ = .next ⟨(d).finish, q⟩)

/-- Clusters wake four at a time, idle with their partition, go off when they have none, and come back clear.
CLUSTER_WAKE turns at most four IDLE clusters of partitions ON. After its delay a partition STOPPED or FROZEN, with no loader or snapshot activity,
lets its ON clusters go IDLE. A cluster of no partition drains and, once FENCED, goes OFF. A cluster that is OFF and belongs to a partition, or is
about to join one that is resized, comes back clear and unfenced, IDLE, or ON where its partition runs; one about to join is not switched off (log
entries 22 and 61). Completion: exec of clusterWake, clusterIdleDelay, clusterOffDelay, clusterPowerOn answers the next state written out, for every
state and operands that meet the conditions before it. -/
def Obligations.ClusterPowerFollowsPartitions : Prop :=
  (∀ (d : Dev) (q : List Instr) (ns : List (Fin 64)),
      d.active = true →
      exec (.clusterWake ns) ⟨d, q⟩ = .next ⟨(d.each (((ns.map (·.val)).filter fun n => d.cluPower n == 1 && (d.ownerOf n).isSome).take 4) fun e n => e.wake n).finish, q⟩) ∧
  (∀ (d : Dev) (q : List Instr) (p : Fin 16),
      d.active = true → d.seqState p = 0 ∨ d.seqState p = 2 → d.dirState p ≠ 0 → d.b (pPTN p) PTN_LOAD_STATUS_BUSY = false → d.snapBusy p = false →
      exec (.clusterIdleDelay p) ⟨d, q⟩ = .next ⟨(d.each (d.clustersOf p) fun e n => if e.cluPower n == 0 then e.setPower n 1 else e).finish, q⟩) ∧
  (∀ (d : Dev) (q : List Instr) (p : Fin 16), d.active = true → d.dirState p = 0 → exec (.clusterIdleDelay p) ⟨d, q⟩ = .next ⟨(d).finish, q⟩) ∧
  (∀ (d : Dev) (q : List Instr) (n : Fin 64), d.active = true → (d.ownerOf n).isSome = true → exec (.clusterOffDelay n) ⟨d, q⟩ = .next ⟨(d).finish, q⟩) ∧
  (∀ (d : Dev) (q : List Instr) (n : Fin 64), d.active = true → d.joining n = true → exec (.clusterOffDelay n) ⟨d, q⟩ = .next ⟨(d).finish, q⟩) ∧
  (∀ (d : Dev) (q : List Instr) (n : Fin 64),
      d.active = true → d.joining n = false → d.ownerOf n = none → d.testing n = false → d.cluPower n ≠ 2 → ((d.drainNi n).doDrainComplete n).niState n = 2 →
      exec (.clusterOffDelay n) ⟨d, q⟩ = .next ⟨(((d.drainNi n).doDrainComplete n).setPower n 2).finish, q⟩) ∧
  (∀ (d : Dev) (q : List Instr) (n : Fin 64),
      d.active = true → d.cluPower n = 2 → (d.ownerOf n).isSome = true →
      exec (.clusterPowerOn n) ⟨d, q⟩ =
        (.next ⟨(let f := ((d.freshCluster n).setPower n 1).unfenceNi n
        match f.ownerOf n with
        | some i => f.iff (f.keepsOn i) fun e => e.wake n
        | none => f).finish, q⟩)) ∧
  (∀ (d : Dev) (q : List Instr) (n : Fin 64),
      d.active = true → d.cluPower n = 2 → d.joining n = true →
      exec (.clusterPowerOn n) ⟨d, q⟩ =
        (.next ⟨(let f := ((d.freshCluster n).setPower n 1).unfenceNi n
        match f.ownerOf n with
        | some i => f.iff (f.keepsOn i) fun e => e.wake n
        | none => f).finish, q⟩)) ∧
  (∀ (d : Dev) (q : List Instr) (n : Fin 64),
      d.active = true → d.ownerOf n = none → d.joining n = false →
      exec (.clusterPowerOn n) ⟨d, q⟩ = .next ⟨(d).finish, q⟩) ∧
  (∀ (d : Dev) (q : List Instr) (n : Fin 64), d.active = true → d.cluPower n ≠ 2 → exec (.clusterPowerOn n) ⟨d, q⟩ = .next ⟨(d).finish, q⟩)

/-- The Warden follows the heartbeat, and a stop cause begins one controlled stop that ends in a reset.
A new heartbeat count is stored, and in GRACE returns the Warden to WATCH with its count; a missing one puts WATCH into GRACE with its interrupt and
event. The end of GRACE, a temperature above 110 C, a rail fault, a lost core lock and a Warden stop each begin a controlled stop with their cause,
unless one runs. Draining ends by force; STOP_COMPLETE resets into DOZE with the Warden STOPPED, from where only a new PERST# cycle starts (IDLE where
PERST# was asserted during the stop), and wakes the host where enabled. Without a stop these change nothing. How the Warden and a stop meet PERST# is
the model's choice (log entry 35). Completion: exec of heartbeat, heartbeatTimeout, graceTimeout, overTemperature, railFault, wardenStop,
corePllLockLost, stopDrainTimeout, stopComplete answers the next state written out, for every state and operands that meet the conditions before it. -/
def Obligations.WardenWatchesAndStops : Prop :=
  (∀ (d : Dev) (q : List Instr) (v : W32),
      d.active = true → (d.p pWDN WDN_HEARTBEAT_COUNT v.toNat).wardenState ≠ 2 →
      exec (.heartbeat v) ⟨d, q⟩ = .next ⟨(d.p pWDN WDN_HEARTBEAT_COUNT v.toNat).finish, q⟩) ∧
  (∀ (d : Dev) (q : List Instr) (v : W32),
      d.active = true → d.g pWDN WDN_HEARTBEAT_COUNT ≠ v.toNat → (d.p pWDN WDN_HEARTBEAT_COUNT v.toNat).wardenState = 2 →
      exec (.heartbeat v) ⟨d, q⟩ = .next ⟨((((d.p pWDN WDN_HEARTBEAT_COUNT v.toNat).coresFrom 2 1).add pWDN WDN_STATUS_GRACE_COUNT 1).setWarden 1).finish, q⟩) ∧
  (∀ (d : Dev) (q : List Instr),
      d.active = true → d.wardenState = 1 →
      exec (.heartbeatTimeout) ⟨d, q⟩ =
        (.next ⟨(let f := ((d.setWarden 2).coresFrom 1 2).irq pWDN 0
        f.raise 0x103 2 16 (f.word pWDN 0x104 fldsWDN) (f.g pWDN WDN_HEARTBEAT_COUNT)).finish, q⟩)) ∧
  (∀ (d : Dev) (q : List Instr), d.active = true → d.wardenState ≠ 1 → exec (.heartbeatTimeout) ⟨d, q⟩ = .next ⟨(d).finish, q⟩) ∧
  (∀ (d : Dev) (q : List Instr), d.active = true → d.wardenState = 2 → exec (.graceTimeout) ⟨d, q⟩ = .next ⟨(d.controlledStop 1).finish, q⟩) ∧
  (∀ (d : Dev) (q : List Instr), d.active = true → d.wardenState ≠ 2 → exec (.graceTimeout) ⟨d, q⟩ = .next ⟨(d).finish, q⟩) ∧
  (∀ (d : Dev) (q : List Instr) (x : Fin 5) (celsius : Byte),
      d.active = true → 110 < celsius.toNat → x.val < 4 →
      exec (.overTemperature x celsius) ⟨d, q⟩ = .next ⟨((d.p pPMU (PMU_TEMP_Q x) celsius.toNat).controlledStop 2).finish, q⟩) ∧
  (∀ (d : Dev) (q : List Instr) (x : Fin 5) (celsius : Byte),
      d.active = true → celsius.toNat ≤ 110 → x.val = 4 →
      exec (.overTemperature x celsius) ⟨d, q⟩ = .next ⟨(d.p pPMU PMU_TEMP_HUB_HUB celsius.toNat).finish, q⟩) ∧
  (∀ (d : Dev) (q : List Instr), d.active = true → exec (.railFault) ⟨d, q⟩ = .next ⟨(d.controlledStop 3).finish, q⟩) ∧
  (∀ (d : Dev) (q : List Instr), d.active = true → d.reach .pf pWDN = .yes → exec (.wardenStop) ⟨d, q⟩ = .next ⟨(d.controlledStop 5).finish, q⟩) ∧
  (∀ (d : Dev) (q : List Instr),
      d.active = true →
      exec (.corePllLockLost) ⟨d, q⟩ = .next ⟨((d.p pCKG CKG_STATUS_CORE_LOCK 0).controlledStop 4).finish, q⟩) ∧
  (∀ (d : Dev) (q : List Instr),
      d.active = true → d.pwr.stopping = true →
      exec (.stopDrainTimeout) ⟨d, q⟩ = .next ⟨(d.each (List.range 64) fun e n => e.doDrainTimeout n).finish, q⟩) ∧
  (∀ (d : Dev) (q : List Instr), d.active = true → d.pwr.stopping = false → exec (.stopDrainTimeout) ⟨d, q⟩ = .next ⟨(d).finish, q⟩) ∧
  (∀ (d : Dev) (q : List Instr) (f : Dev),
      d.active = true → d.pwr.stopping = true → f = (d.perst 3 .doze).p pWDN WDN_STATUS_STATE (if d.pwr.afterStop then 4 else 0) →
      exec (.stopComplete) ⟨d, q⟩ =
        (.next ⟨(let h : Dev := { f with pwr := { f.pwr with afterStop := d.pwr.afterStop } }
        if h.wakeEnabled 9 then h.latchWake 9 else h).finish, q⟩)) ∧
  (∀ (d : Dev) (q : List Instr), d.active = true → d.pwr.stopping = false → exec (.stopComplete) ⟨d, q⟩ = .next ⟨(d).finish, q⟩)

/-- The String switch opens in a gap, broken frames are counted, own frames stop, others act and pass on.
STRING_JOIN waits for a gap, which opens the switch; STRING_LEAVE closes it and drops waiting repeats; 1 ms without a frame of an open switch is
BROKEN with its interrupt. Every frame of an open switch counts RX_FRAMES; one whose CRC fails counts CRC_ERR; a device's own frame ends at it, and a
COLLECT at the root goes out as ASSIGN; any other is acted on and passed on with one less TTL, COLLECT with the device's number marked, ASSIGN giving
an unnumbered device the lowest free number, MSG and BROKEN as log entry 36 says, FREEZE and STROBE acting once for each origin and number. A frame
leaves with its CRC-32C. How a BEACON, a FREEZE and a MSG lay out their payloads is the model's choice (log entry 57). Completion: exec of stringJoin,
stringOpen, stringLeave, stringBroken, discover, collect, assign, stringBeacon, stringFreeze, stringStrobe, resetReq, msg, resetReqSend,
stringFrameRepeat, stringBeaconSend answers the next state written out, for every state and operands that meet the conditions before it. -/
def Obligations.StringFramesAndMembershipTakeEffect : Prop :=
  (∀ (d : Dev) (q : List Instr),
      d.active = true → d.reach .pf pSTR = .yes → d.strState = 0 →
      exec (.stringJoin) ⟨d, q⟩ = .next ⟨((d.on pSTR STR_CFG_EN).p pSTR STR_STATUS_STATE 1).finish, q⟩) ∧
  (∀ (d : Dev) (q : List Instr), d.active = true → d.strState = 1 → exec (.stringOpen) ⟨d, q⟩ = .next ⟨(d.p pSTR STR_STATUS_STATE 2).finish, q⟩) ∧
  (∀ (d : Dev) (q : List Instr), d.active = true → d.strState ≠ 1 → exec (.stringOpen) ⟨d, q⟩ = .next ⟨(d).finish, q⟩) ∧
  (∀ (d : Dev) (q : List Instr),
      d.active = true → d.reach .pf pSTR = .yes →
      exec (.stringLeave) ⟨d, q⟩ = .next ⟨({ (d.p pSTR STR_CFG_EN 0).p pSTR STR_STATUS_STATE 0 with ring := { d.ring with repeats := [] } }).finish, q⟩) ∧
  (∀ (d : Dev) (q : List Instr),
      d.active = true → d.strState = 2 →
      exec (.stringBroken) ⟨d, q⟩ = .next ⟨((d.p pSTR STR_STATUS_STATE 3).irq pSTR 0).finish, q⟩) ∧
  (∀ (d : Dev) (q : List Instr), d.active = true → d.strState ≠ 2 → exec (.stringBroken) ⟨d, q⟩ = .next ⟨(d).finish, q⟩) ∧
  (∀ (d : Dev) (q : List Instr),
      d.active = true → d.reach .pf pSTR = .yes → d.b pSTR STR_CFG_ROOT = true →
      exec (.discover) ⟨d, q⟩ = .next ⟨(d.ringSend 1 0x1FF (leBytes 64 (d.withOwn 0))).finish, q⟩) ∧
  (∀ (d : Dev) (q : List Instr) (src : Fin 512) (n : Byte) (ttl : Nat) (map : BitVec 512) (crc : W32),
      d.active = true → 2 ≤ d.strState → Dev.frameIntact ⟨1, 0x1FF, src, n.toNat, ttl, leBytes 64 map.toNat, crc⟩ = false →
      exec (.collect src ttl map ⟨n, crc⟩) ⟨d, q⟩ = .next ⟨(((d.add pSTR STR_RX_FRAMES_COUNT 1).p pSTR STR_STATUS_STATE 2).add pSTR STR_CRC_ERR_COUNT 1).finish, q⟩) ∧
  (∀ (d : Dev) (q : List Instr) (src : Fin 512) (n : Byte) (ttl : Nat) (map : BitVec 512) (crc : W32) (f : Dev),
      d.active = true → 2 ≤ d.strState → 2 ≤ ttl → Dev.frameIntact ⟨1, 0x1FF, src, n.toNat, ttl, leBytes 64 map.toNat, crc⟩ = true → f = (d.add pSTR STR_RX_FRAMES_COUNT 1).p pSTR STR_STATUS_STATE 2 → (d.ownFrame src && d.b pSTR STR_CFG_ROOT) = false →
      exec (.collect src ttl map ⟨n, crc⟩) ⟨d, q⟩ = .next ⟨(f.ringOut 1 0x1FF src n.toNat (ttl - 1) (leBytes 64 (f.withOwn map.toNat))).finish, q⟩) ∧
  (∀ (d : Dev) (q : List Instr) (src : Fin 512) (n : Byte) (ttl : Nat) (map : BitVec 512) (crc : W32) (f : Dev),
      d.active = true → 2 ≤ d.strState → 2 ≤ ttl → Dev.frameIntact ⟨1, 0x1FF, src, n.toNat, ttl, leBytes 64 map.toNat, crc⟩ = true → f = (d.add pSTR STR_RX_FRAMES_COUNT 1).p pSTR STR_STATUS_STATE 2 → d.ownFrame src = true → d.b pSTR STR_CFG_ROOT = true → f.devNum ≠ 0x1FF →
      exec (.collect src ttl map ⟨n, crc⟩) ⟨d, q⟩ = .next ⟨(f.ringSend 2 0x1FF (leBytes 64 (f.withOwn map.toNat))).finish, q⟩) ∧
  (∀ (d : Dev) (q : List Instr) (src : Fin 512) (n : Byte) (ttl : Nat) (map : BitVec 512) (k : Nat) (crc : W32) (f : Dev),
      d.active = true → 2 ≤ d.strState → 2 ≤ ttl → Dev.frameIntact ⟨2, 0x1FF, src, n.toNat, ttl, leBytes 64 map.toNat, crc⟩ = true → f = (d.add pSTR STR_RX_FRAMES_COUNT 1).p pSTR STR_STATUS_STATE 2 → (d.ownFrame src && d.b pSTR STR_CFG_ROOT) = false → f.devNum = 0x1FF → (List.range 512).find? (fun k => !map.toNat.testBit k) = some k →
      exec (.assign src ttl map ⟨n, crc⟩) ⟨d, q⟩ = .next ⟨((f.takeNumber k).ringOut 2 0x1FF src n.toNat (ttl - 1) (leBytes 64 (map.toNat ||| 1 <<< k))).finish, q⟩) ∧
  (∀ (d : Dev) (q : List Instr) (src : Fin 512) (n : Byte) (ttl : Nat) (ns : W64) (frac : BitVec 16) (crc : W32) (f : Dev),
      d.active = true → 2 ≤ d.strState → 2 ≤ ttl → Dev.frameIntact ⟨3, 0x1FF, src, n.toNat, ttl, Dev.ringTime ns.toNat frac.toNat, crc⟩ = true → f = (d.add pSTR STR_RX_FRAMES_COUNT 1).p pSTR STR_STATUS_STATE 2 → d.ownFrame src = false →
      exec (.stringBeacon src ttl ns frac ⟨n, crc⟩) ⟨d, q⟩ = .next ⟨((f.ringBeacon ttl ns.toNat frac.toNat).ringOut 3 0x1FF src n.toNat (ttl - 1) (Dev.ringTime ns.toNat frac.toNat)).finish, q⟩) ∧
  (∀ (d : Dev) (q : List Instr) (src : Fin 512) (n : Byte) (ttl : Nat) (origin : Fin 512) (num : Byte) (crc : W32) (f : Dev),
      d.active = true → 2 ≤ d.strState → 2 ≤ ttl → Dev.frameIntact ⟨4, 0x1FF, src, n.toNat, ttl, Dev.freezeBody origin num.toNat, crc⟩ = true → f = (d.add pSTR STR_RX_FRAMES_COUNT 1).p pSTR STR_STATUS_STATE 2 → d.ownFrame src = false →
      exec (.stringFreeze src n ttl ⟨origin, num, crc⟩) ⟨d, q⟩ = .next ⟨((f.onceFor 4 src n.toNat fun e => if e.sys.seen.contains (origin.val, num.toNat) then e else e.ringFreeze origin num.toNat).ringOut 4 0x1FF src n.toNat (ttl - 1) (Dev.freezeBody origin num.toNat)).finish, q⟩) ∧
  (∀ (d : Dev) (q : List Instr) (src : Fin 512) (n : Byte) (ttl : Nat)  (crc : W32) (f : Dev),
      d.active = true → 2 ≤ d.strState → 2 ≤ ttl → Dev.frameIntact ⟨5, 0x1FF, src, n.toNat, ttl, [], crc⟩ = true → f = (d.add pSTR STR_RX_FRAMES_COUNT 1).p pSTR STR_STATUS_STATE 2 → d.ownFrame src = false →
      exec (.stringStrobe src n ttl crc) ⟨d, q⟩ = .next ⟨((f.onceFor 5 src n.toNat fun e => e.strobeReq 3).ringOut 5 0x1FF src n.toNat (ttl - 1) []).finish, q⟩) ∧
  (∀ (d : Dev) (q : List Instr) (src : Fin 512) (n : Byte) (ttl : Nat) (dest : Fin 512) (crc : W32) (f : Dev),
      d.active = true → 2 ≤ d.strState → 2 ≤ ttl → Dev.frameIntact ⟨6, dest, src, n.toNat, ttl, [], crc⟩ = true → f = (d.add pSTR STR_RX_FRAMES_COUNT 1).p pSTR STR_STATUS_STATE 2 → d.ownFrame src = false → dest.val = d.devNum ∨ dest.val = 0x1FF → d.ring.seen.contains (6, src.val, n.toNat) = false → d.b pSTR STR_CFG_RESET_EN = true → d.pwr.stopping = false →
      exec (.resetReq src n dest ttl crc) ⟨d, q⟩ = .next ⟨(((f.onceFor 6 src n.toNat id).ringOut 6 dest src n.toNat (ttl - 1) []).perst 4 .doze).finish, q⟩) ∧
  (∀ (d : Dev) (q : List Instr) (src : Fin 512) (n : Byte) (ttl : Nat) (dest : Fin 512) (crc : W32) (f : Dev),
      d.active = true → 2 ≤ d.strState → 2 ≤ ttl → Dev.frameIntact ⟨6, dest, src, n.toNat, ttl, [], crc⟩ = true → f = (d.add pSTR STR_RX_FRAMES_COUNT 1).p pSTR STR_STATUS_STATE 2 → d.ownFrame src = false → d.b pSTR STR_CFG_RESET_EN = false →
      exec (.resetReq src n dest ttl crc) ⟨d, q⟩ = .next ⟨((f.onceFor 6 src n.toNat id).ringOut 6 dest src n.toNat (ttl - 1) []).finish, q⟩) ∧
  (∀ (d : Dev) (q : List Instr) (src : Fin 512) (n : Byte) (ttl : Nat) (dest : Fin 512) (cfg : List (Fin 16 × W32)) (l : List (Nat × Nat)) (body : List Byte) (crc : W32) (f : Dev),
      d.active = true → 2 ≤ d.strState → 2 ≤ ttl → Dev.frameIntact ⟨7, dest, src, n.toNat, ttl, body, crc⟩ = true → f = (d.add pSTR STR_RX_FRAMES_COUNT 1).p pSTR STR_STATUS_STATE 2 → l = (cfg.map fun e => (e.1.val, e.2.toNat)) → body = (l.flatMap fun e => leBytes 1 e.1 ++ leBytes 4 e.2) → d.ownFrame src = false → dest.val = f.devNum → 5 ≤ f.bootState →
      exec (.msg src dest ttl cfg ⟨n, crc⟩) ⟨d, q⟩ = .next ⟨((f.each l fun x e => x.writeLgrpCfg e.1 e.2).ringOut 7 dest src n.toNat (ttl - 1) body).finish, q⟩) ∧
  (∀ (d : Dev) (q : List Instr),
      d.active = true → d.reach .pf pSTR = .yes →
      exec (.resetReqSend) ⟨d, q⟩ = .next ⟨(d.ringSend 6 (d.g pSTR STR_RESET_REQ_TARGET) []).finish, q⟩) ∧
  (∀ (d : Dev) (q : List Instr) (kind dest n : Nat) (payload : List Byte) (rest : List (Nat × Nat × Nat × List Byte)),
      d.active = true → d.ring.repeats = (kind, dest, n, payload) :: rest → d.strState = 2 →
      exec (.stringFrameRepeat) ⟨d, q⟩ = .next ⟨(({ d with ring := { d.ring with repeats := rest } } : Dev).ringOut kind dest d.devNum n 512 payload).finish, q⟩) ∧
  (∀ (d : Dev) (q : List Instr),
      d.active = true → d.g pTSB TSB_CFG_ROLE = 1 →
      exec (.stringBeaconSend) ⟨d, q⟩ = .next ⟨(d.ringSend 3 0x1FF (Dev.ringTime (d.time / 65536) (d.time % 65536))).finish, q⟩) ∧
  (∀ (d : Dev) (q : List Instr), d.active = true → d.g pTSB TSB_CFG_ROLE ≠ 1 → exec (.stringBeaconSend) ⟨d, q⟩ = .next ⟨(d).finish, q⟩) ∧
  (∀ (d : Dev) (kind dest src n ttl : Nat) (payload : List Byte), d.ringOut kind dest src n ttl payload =
      d.emit (.ring (Dev.ringHead kind dest src n ttl payload ++ leBytes 4 (crc32c (Dev.ringHead kind dest src n ttl payload)))))

/-- Writes store fields or are kept as low words of pairs, pairs are read and written whole, misaligned accesses are errors.
A 32-bit write to a register of its own of the power unit's page stores its fields (RW sets, RW1C clears, others ignore; ones written to reserved bits
are dropped, the model's choice, log entry 63). The low word of a pair is kept for the function without changing the register; a write of the high
word writes the whole register with the kept low word, or with the present one. A read of a pair's low word latches the next word for the function. An
access of another size or alignment is ignored, reads as all ones (of its own size: the model's choice, log entry 63), and is an access error. A read
of a FENCE register completes with 0. IRQ_STAT clears the bits written 1, IRQ_FORCE raises the defined ones (log entry 38), a partition's bit of TRC
and CAP with bit 13 and 12 of its own page. Completion: exec of registerWrite, pairLowWrite, pairHighWrite, pairLowRead, fenceRead, misalignedAccess,
irqStatClear, irqForce answers the next state written out, for every state and operands that meet the conditions before it. -/
def Obligations.RegisterAccessesTakeEffect : Prop :=
  (∀ (d : Dev) (q : List Instr) (o v : Nat),
      d.HubPage pPMU → o % 4 = 0 → 0x100 ≤ o → o < 0x800 → pairAt pPMU o = false → pairAt pPMU (o - 4) = false →
      exec (.registerWrite .pf (pPMU + o) v false) ⟨d, q⟩ = .next ⟨(d.writeWord pPMU o (v % 2 ^ 32) fldsPMU).finish, q⟩) ∧
  (∀ (d : Dev) (q : List Instr) (base o v : Nat),
      d.HubPage base → base % 0x1000 = 0 → o % 4 = 0 → o < 0x800 → pairAt base o = true →
      exec (.pairLowWrite .pf (base + o) v) ⟨d, q⟩ = .next ⟨({ d with pairWr := SMap.put d.pairWr (Dev.pairKey .pf (Dev.regAt base o)) (v % 2 ^ 32) }).finish, q⟩) ∧
  (∀ (d : Dev) (q : List Instr) (base o v : Nat),
      d.HubPage base → base % 0x1000 = 0 → o % 4 = 0 → o < 0x800 → pairAt base o = true → pairAt base (o + 4) = false →
      exec (.pairHighWrite .pf (base + (o + 4)) v) ⟨d, q⟩ =
        (.next ⟨(let low := (SMap.get? d.pairWr (Dev.pairKey .pf (Dev.regAt base o))).getD (d.readWord base o)
        ({ d with pairWr := SMap.del d.pairWr (Dev.pairKey .pf (Dev.regAt base o)) } : Dev).writeReg .pf base o (v % 2 ^ 32 * 2 ^ 32 + low)).finish, q⟩)) ∧
  (∀ (d : Dev) (q : List Instr) (base o v : Nat),
      d.HubPage base → o % 8 = 0 → o < 0x800 → pairAt base o = true →
      exec (.registerWrite .pf (base + o) v true) ⟨d, q⟩ = .next ⟨(({ d with pairWr := SMap.del d.pairWr (Dev.pairKey .pf (Dev.regAt base o)) } : Dev).writeReg .pf base o (v % 2 ^ 64)).finish, q⟩) ∧
  (∀ (d : Dev) (q : List Instr) (base o : Nat),
      d.HubPage base → base ≠ pDSP → o % 4 = 0 → o < 0x800 → pairAt base o = true →
      exec (.pairLowRead .pf ⟨base + o, false⟩) ⟨d, q⟩ = .next ⟨(({ d with pairRd := SMap.put d.pairRd (Dev.pairKey .pf (Dev.regAt base (o + 4))) (d.readWord base (o + 4)) } : Dev).complete .pf (base + o) (d.readWord base o)).finish, q⟩) ∧
  (∀ (d : Dev) (q : List Instr) (base o : Nat),
      d.HubPage base → o % 8 = 0 → o < 0x800 → pairAt base o = true →
      exec (.pairLowRead .pf ⟨base + o, true⟩) ⟨d, q⟩ = .next ⟨(d.complete .pf (base + o) (d.readWord base o ||| d.readWord base (o + 4) <<< 32)).finish, q⟩) ∧
  (∀ (d : Dev) (q : List Instr) (base : Nat),
      d.HubPage base →
      exec (.fenceRead .pf (base + 0x24)) ⟨d, q⟩ = .next ⟨(d.complete .pf (base + 0x24) 0).finish, q⟩) ∧
  (∀ (d : Dev) (q : List Instr) (fn : Fn) (off size : Nat) (write : Bool),
      d.active = true → d.pwr.fnReset.contains fn = false →
      exec (.misalignedAccess fn off size write) ⟨d, q⟩ = .next ⟨((if write then d else d.complete fn off (2 ^ (8 * size) - 1)).accessError fn 0 off write).finish, q⟩) ∧
  (∀ (d : Dev) (q : List Instr) (fn : Fn) (off size : Nat) (write : Bool),
      d.active = true → d.pwr.fnReset.contains fn = true →
      exec (.misalignedAccess fn off size write) ⟨d, q⟩ = .next ⟨(if write then d else d.complete fn off (2 ^ (8 * size) - 1)).finish, q⟩) ∧
  (∀ (d : Dev) (q : List Instr) (base : Nat) (v : W32),
      d.HubPage base →
      exec (.irqStatClear base v) ⟨d, q⟩ = .next ⟨(d.p base PG_IRQ_RAW (d.g base PG_IRQ_RAW &&& (2 ^ 32 - 1 - v.toNat % 2 ^ 32))).finish, q⟩) ∧
  (∀ (d : Dev) (q : List Instr) (base : Nat) (v : W32),
      d.HubPage base →
      exec (.irqForce base v) ⟨d, q⟩ =
        (.next ⟨(d.each ((List.range 32).filter (v.toNat &&& irqBits base).testBit) fun e i =>
          if base = pTRC ∧ i < 16 then (e.irq base i).irq (pPTN i) 13 else if base = pCAP ∧ i < 16 then (e.irq base i).irq (pPTN i) 12 else e.irq base i).finish, q⟩))

/-- The log, counters, vectors, maintenance arbiter, MBIST and boundary scan take their commands.
LOG.CTRL.CLEAR empties the ring, reading back each entry it zeroes and stopping at one that stays bad, and with AON_ONLY resets the head alone (R406);
LG_CTRL.CLEAR the last-gasp slots, CLEAR_ALL the event counters; an enabled counter that reaches 2^48 - 1 while RUN is 1 stays there with OVF; a
counter disabled or stopped does not move. Unmasking a vector sends its pending message (the mask bit's place is PCI Express's, log entry 7). A
release lets waiting scrub passes and the key roll retry, in this order (the model's choice, log entry 27). MBIST of a cluster of a partition is
refused; of another it runs where the arbiter grants it; its end clears the cluster and reports the failing address with event 0x109. An instruction
is selected where the scan port answers, in DOZE and ACTIVE, and those of the boundary register power the rails in DOZE only (what
BOUNDARY_SCAN_EXTEST with false selects is the model's choice, log entry 50). Completion: exec of logClear, lastGaspClear, clearAll, counterSaturate,
mntRelease, mbistGo, mbistComplete, msixUnmask, boundaryScanExtest answers the next state written out, for every state and operands that meet the
conditions before it. -/
def Obligations.LogCountersAndMaintenanceTakeEffect : Prop :=
  (∀ (d : Dev) (q : List Instr),
      d.active = true → d.b pLOG LOG_STATUS_AON_ONLY = true →
      exec (.logClear) ⟨d, q⟩ = .next ⟨((d.p pLOG LOG_STATUS_HEAD 0).p pLOG LOG_STATUS_WRAPPED 0).finish, q⟩) ∧
  (∀ (d : Dev) (q : List Instr) (f : Dev),
      d.active = true → d.b pLOG LOG_STATUS_AON_ONLY = false → d.zeroEntries (d.log.flips.map (·.1 / 4)).eraseDups = (f, none) →
      exec (.logClear) ⟨d, q⟩ = .next ⟨((({ f with log := { f.log with ring := [], newest := none } } : Dev).p pLOG LOG_STATUS_HEAD 0).p pLOG LOG_STATUS_WRAPPED 0).finish, q⟩) ∧
  (∀ (d : Dev) (q : List Instr) (f : Dev) (i : Nat),
      d.active = true → d.b pLOG LOG_STATUS_AON_ONLY = false → d.zeroEntries (d.log.flips.map (·.1 / 4)).eraseDups = (f, some i) →
      exec (.logClear) ⟨d, q⟩ = .next ⟨((({ f with log := { f.log with ring := f.log.ring.filter fun e => i < e.1, newest := none } } : Dev).p pLOG LOG_STATUS_HEAD 0).p pLOG LOG_STATUS_WRAPPED 0).finish, q⟩) ∧
  (∀ (d : Dev) (q : List Instr),
      d.active = true →
      exec (.lastGaspClear) ⟨d, q⟩ = .next ⟨(({ d with log := { d.log with gasp := [] } } : Dev).p pAON AON_LG_STATUS_USED 0 |>.p pAON AON_LG_STATUS_LOST 0).finish, q⟩) ∧
  (∀ (d : Dev) (q : List Instr), d.Up → exec (.clearAll) ⟨d, q⟩ = .next ⟨(d.each (List.range 64) fun e k => e.p pEVC (EVC_CNT_COUNT k) 0).finish, q⟩) ∧
  (∀ (d : Dev) (q : List Instr) (base : Nat) (i : Fin 64),
      d.active = true → d.b pEVC EVC_CTRL_RUN = false →
      exec (.counterSaturate base i) ⟨d, q⟩ = .next ⟨(d).finish, q⟩) ∧
  (∀ (d : Dev) (q : List Instr) (i : Fin 64),
      d.active = true → d.b pEVC (EVC_SEL_EN i) = false →
      exec (.counterSaturate pEVC i) ⟨d, q⟩ = .next ⟨(d).finish, q⟩) ∧
  (∀ (d : Dev) (q : List Instr) (i : Fin 64),
      d.active = true → d.b pEVC EVC_CTRL_RUN = true → d.b pEVC (EVC_SEL_EN i) = true →
      exec (.counterSaturate pEVC i) ⟨d, q⟩ = .next ⟨((d.p pEVC (EVC_CNT_COUNT i) (2 ^ 48 - 1)).on pEVC (EVC_SEL_OVF i)).finish, q⟩) ∧
  (∀ (d : Dev) (q : List Instr) (base : Nat) (i : Fin 64),
      d.active = true → base ≠ pEVC → i.val < 4 → base % 0x1000 = 0 → base < 0x500000 → d.b pEVC EVC_CTRL_RUN = true → d.b base (PG_SEL_EN i) = true →
      exec (.counterSaturate base i) ⟨d, q⟩ = .next ⟨((d.p base (PG_CNT_COUNT i) (2 ^ 48 - 1)).on base (PG_SEL_OVF i)).finish, q⟩) ∧
  (∀ (d : Dev) (q : List Instr) (code : Fin 8) (owner : Fin 17) (inst : Fin 64),
      d.active = true → d.holds (Dev.mntId code owner inst) = true →
      exec (.mntRelease code owner inst) ⟨d, q⟩ = .next ⟨(d).finish, q⟩) ∧
  (∀ (d : Dev) (q : List Instr) (code : Fin 8) (owner : Fin 17) (inst : Fin 64),
      d.active = true → d.holds (Dev.mntId code owner inst) = false →
      exec (.mntRelease code owner inst) ⟨d, q⟩ =
        (.next ⟨(let f := d.retryPasses
        if f.mnt.wait.contains (Dev.mntId 2 16 0) then f.tryRoll true else f).finish, q⟩)) ∧
  (∀ (d : Dev) (q : List Instr) (n : Fin 64),
      d.active = true → d.reach .pf pMNT = .yes → ((d.p pMNT MNT_MBIST_CLUSTER n).ownerOf n).isSome = true →
      exec (.mbistGo n) ⟨d, q⟩ = .next ⟨((d.p pMNT MNT_MBIST_CLUSTER n).on pMNT MNT_MBIST_STATUS_REFUSED).finish, q⟩) ∧
  (∀ (d : Dev) (q : List Instr) (n : Fin 64) (f : Dev),
      d.active = true → d.reach .pf pMNT = .yes → (d.p pMNT MNT_MBIST_CLUSTER n).ownerOf n = none → (d.p pMNT MNT_MBIST_CLUSTER n).mntRequest (Dev.mntId 3 16 n) 0 0 false = (f, none) →
      exec (.mbistGo n) ⟨d, q⟩ = .next ⟨(((if f.cluPower n == 2 then f.freshCluster n else f).p pMNT MNT_MBIST_STATUS_STATE 1).setPower n 0).finish, q⟩) ∧
  (∀ (d : Dev) (q : List Instr) (n : Fin 64) (x : Option (BitVec 64)),
      d.active = true → d.testing n = false →
      exec (.mbistComplete n x) ⟨d, q⟩ = .next ⟨(d).finish, q⟩) ∧
  (∀ (d : Dev) (q : List Instr) (n : Fin 64) (a : BitVec 64) (f : Dev),
      d.active = true → d.testing n = true → f = (d.mntFree (Dev.mntId 3 16 n)).clearMemories n →
      exec (.mbistComplete n (some a)) ⟨d, q⟩ = .next ⟨(((if f.niState n == 2 then f.setPower n 2 else f).p pMNT MNT_MBIST_STATUS_STATE 3).raise 0x109 2 16 a.toNat n).finish, q⟩) ∧
  (∀ (d : Dev) (q : List Instr) (n : Fin 64) (f : Dev),
      d.active = true → d.testing n = true → f = (d.mntFree (Dev.mntId 3 16 n)).clearMemories n →
      exec (.mbistComplete n none) ⟨d, q⟩ = .next ⟨((if f.niState n == 2 then f.setPower n 2 else f).p pMNT MNT_MBIST_STATUS_STATE 2).finish, q⟩) ∧
  (∀ (d : Dev) (q : List Instr) (fn : Fn) (v : Fin 32),
      d.active = true → d.placeReach fn ⟨pMSIX fn, 0, none, true⟩ = .yes → fn = .pf ∨ v.val < 2 → (d.p (pMSIX fn) (Dev.MSIX_MASK v) 0).b (pMSIX fn) (Dev.MSIX_PBA v) = true →
      exec (.msixUnmask fn v) ⟨d, q⟩ = .next ⟨(((d.p (pMSIX fn) (Dev.MSIX_MASK v) 0).p (pMSIX fn) (Dev.MSIX_PBA v) 0).sendVec fn v).finish, q⟩) ∧
  (∀ (d : Dev) (q : List Instr) (fn : Fn) (v : Fin 32),
      d.active = true → d.placeReach fn ⟨pMSIX fn, 0, none, true⟩ = .yes → fn = .pf ∨ v.val < 2 → (d.p (pMSIX fn) (Dev.MSIX_MASK v) 0).b (pMSIX fn) (Dev.MSIX_PBA v) = false →
      exec (.msixUnmask fn v) ⟨d, q⟩ = .next ⟨(d.p (pMSIX fn) (Dev.MSIX_MASK v) 0).finish, q⟩) ∧
  (∀ (d : Dev) (q : List Instr) (on : Bool),
      d.tapAnswers = true →
      exec (.boundaryScanExtest on) ⟨d, q⟩ = .next ⟨({ d with pwr := { d.pwr with tap := { d.pwr.tap with inst := if on then .extest else .bypass } } }).finish, q⟩) ∧
  (∀ (d : Dev) (q : List Instr) (on : Bool), d.tapAnswers = false → exec (.boundaryScanExtest on) ⟨d, q⟩ = .next ⟨(d).finish, q⟩) ∧
  (∀ d : Dev, (d.tapAnswers = true ↔ d.pwr.st = .active ∨ d.pwr.st = .doze) ∧ (d.scanRails = true ↔ d.pwr.st = .doze ∧ d.pwr.tap.inst.scans = true))
end

