-- ==== Sys2Proof/Laws/Map.lean ====
section
/-! SUPPORT. The laws of sparse stores: what a read gives after a write, and that every update keeps the canonical form. -/

namespace Sys2Proof.Machine
namespace SMap

set_option Elab.async false
variable {α : Type}

theorem get?_put_self (m : SMap α) (k : Nat) (v : α) : get? (put m k v) k = some v := by
  induction m with
  | nil => simp [put, get?]
  | cons e m ih =>
    simp only [put]
    split
    · simp [get?]
    · split
      · simp [get?]
      · simp [get?, *]

theorem get?_put_ne (m : SMap α) (k k' : Nat) (v : α) (h : k' ≠ k) : get? (put m k v) k' = get? m k' := by
  induction m with
  | nil => simp [put, get?, h.symm]
  | cons e m ih =>
    simp only [put]
    split
    · next he => subst he; simp [get?, h.symm]
    · split
      · simp [get?, h.symm]
      · simp [get?, ih]

theorem get?_filter (m : SMap α) (f : Nat → Bool) (k : Nat) :
    get? (m.filter (fun e => f e.1)) k = if f k then get? m k else none := by
  induction m with
  | nil => simp [get?]
  | cons e m ih =>
    by_cases he : e.1 = k
    · subst he
      by_cases hf : f e.1 <;> simp [hf, get?, ih]
    · by_cases hf : f e.1 <;> simp [hf, get?, ih, he]

theorem get?_del (m : SMap α) (k k' : Nat) : get? (del m k) k' = if k' = k then none else get? m k' := by
  have := get?_filter m (fun x => x != k) k'
  simp only [del, this, bne_iff_ne, ne_eq, ite_not]

theorem get?_delRange (m : SMap α) (lo hi k : Nat) :
    get? (delRange m lo hi) k = if k < lo ∨ hi ≤ k then get? m k else none := by
  have := get?_filter m (fun x => x < lo || hi ≤ x) k
  simp only [delRange, this, Bool.or_eq_true, decide_eq_true_eq]

theorem get?_range (m : SMap α) (lo hi k : Nat) :
    get? (range m lo hi) k = if lo ≤ k ∧ k < hi then get? m k else none := by
  have := get?_filter m (fun x => lo ≤ x && x < hi) k
  simp only [range, this, Bool.and_eq_true, decide_eq_true_eq]

variable [DecidableEq α]

/-- A read after a write to the same place gives the value written. -/
theorem get_set_self (dflt : α) (m : SMap α) (k : Nat) (v : α) : get dflt (set dflt m k v) k = v := by
  unfold get set
  split
  · next h => simp [get?_del, h]
  · simp [get?_put_self]

/-- A write leaves every other place alone. -/
theorem get_set_ne (dflt : α) (m : SMap α) (k k' : Nat) (v : α) (h : k' ≠ k) :
    get dflt (set dflt m k v) k' = get dflt m k' := by
  unfold get set
  split
  · simp [get?_del, h]
  · simp [get?_put_ne _ _ _ _ h]

/-! The canonical form. -/

omit [DecidableEq α] in
theorem risingFrom_mono {m : SMap α} {j k : Nat} (h : risingFrom m k = true) (hj : j ≤ k) : risingFrom m j = true := by
  cases m with
  | nil => rfl
  | cons e m =>
    simp only [risingFrom, Bool.and_eq_true, decide_eq_true_eq] at h ⊢
    exact ⟨by omega, h.2⟩

omit [DecidableEq α] in
theorem risingFrom_filter {m : SMap α} {k : Nat} (f : Nat × α → Bool) (h : risingFrom m k = true) :
    risingFrom (m.filter f) k = true := by
  induction m generalizing k with
  | nil => rfl
  | cons e m ih =>
    simp only [risingFrom, Bool.and_eq_true, decide_eq_true_eq] at h
    by_cases hf : f e
    · simp only [List.filter_cons, hf, if_true, risingFrom, Bool.and_eq_true, decide_eq_true_eq]
      exact ⟨h.1, ih h.2⟩
    · simp only [List.filter_cons, hf]
      exact risingFrom_mono (ih h.2) (by omega)

omit [DecidableEq α] in
theorem risingFrom_put {m : SMap α} {k j : Nat} (v : α) (h : risingFrom m j = true) (hj : j ≤ k) :
    risingFrom (put m k v) j = true := by
  induction m generalizing j with
  | nil => simp [put, risingFrom, hj]
  | cons e m ih =>
    simp only [risingFrom, Bool.and_eq_true, decide_eq_true_eq] at h
    simp only [put]
    split
    · next he => subst he; simp [risingFrom, h.1, h.2]
    · split
      · next hlt =>
        simp only [risingFrom, Bool.and_eq_true, decide_eq_true_eq]
        exact ⟨hj, by omega, h.2⟩
      · next hne hlt =>
        simp only [risingFrom, Bool.and_eq_true, decide_eq_true_eq]
        exact ⟨h.1, ih h.2 (by omega)⟩

theorem all_ne_filter {dflt : α} {m : SMap α} (f : Nat × α → Bool) (h : m.all (fun e => e.2 != dflt) = true) :
    (m.filter f).all (fun e => e.2 != dflt) = true := by
  simp only [List.all_eq_true, List.mem_filter] at h ⊢
  exact fun e he => h e he.1

theorem all_ne_put {dflt : α} {m : SMap α} {k : Nat} {v : α} (hv : v ≠ dflt) (h : m.all (fun e => e.2 != dflt) = true) :
    (put m k v).all (fun e => e.2 != dflt) = true := by
  induction m with
  | nil => simp [put, hv]
  | cons e m ih =>
    simp only [List.all_cons, Bool.and_eq_true, bne_iff_ne] at h
    simp only [put]
    split
    · simp only [List.all_cons, Bool.and_eq_true, bne_iff_ne]; exact ⟨hv, h.2⟩
    · split
      · simp only [List.all_cons, Bool.and_eq_true, bne_iff_ne]; exact ⟨hv, h.1, h.2⟩
      · simp only [List.all_cons, Bool.and_eq_true, bne_iff_ne]; exact ⟨h.1, ih h.2⟩

theorem wf_nil (dflt : α) : wf dflt ([] : SMap α) = true := rfl

theorem wf_filter {dflt : α} {m : SMap α} (f : Nat × α → Bool) (h : wf dflt m = true) : wf dflt (m.filter f) = true := by
  simp only [wf, Bool.and_eq_true] at h ⊢
  exact ⟨risingFrom_filter f h.1, all_ne_filter f h.2⟩

theorem wf_set {dflt : α} {m : SMap α} (k : Nat) (v : α) (h : wf dflt m = true) : wf dflt (set dflt m k v) = true := by
  unfold set
  split
  · exact wf_filter _ h
  · next hv =>
    simp only [wf, Bool.and_eq_true] at h ⊢
    exact ⟨risingFrom_put v h.1 (Nat.zero_le k), all_ne_put hv h.2⟩

theorem wf_delRange {dflt : α} {m : SMap α} (lo hi : Nat) (h : wf dflt m = true) : wf dflt (delRange m lo hi) = true := wf_filter _ h

omit [DecidableEq α] in
theorem get?_put (m : SMap α) (k k' : Nat) (v : α) : get? (put m k v) k' = if k' = k then some v else get? m k' := by
  split
  · subst_vars; exact get?_put_self ..
  · exact get?_put_ne _ _ _ _ ‹_›

theorem get?_set (z : α) (m : SMap α) (k k' : Nat) (v : α) : get? (set z m k v) k' = if k' = k then (if v = z then none else some v) else get? m k' := by
  unfold set; split
  · rw [get?_del]
  · rw [get?_put]

theorem get_set (z : α) (m : SMap α) (k k' : Nat) (v : α) : get z (set z m k v) k' = if k' = k then v else get z m k' := by
  unfold get; rw [get?_set]; by_cases h : k' = k <;> simp only [h, if_true, if_false]; by_cases hv : v = z <;> simp [hv]

omit [DecidableEq α] in
theorem foldl_put (xs : List (Nat × α)) (m : SMap α) (k : Nat) (v : α) (hall : ∀ x ∈ xs, x.1 = k → x.2 = v)
    (h : (∃ x ∈ xs, x.1 = k) ∨ get? m k = some v) : get? (xs.foldl (fun f x => put f x.1 x.2) m) k = some v := by
  induction xs generalizing m with
  | nil => simpa using h
  | cons x xs ih =>
    simp only [List.foldl_cons]
    apply ih _ fun y hy => hall y (by simp [hy])
    by_cases hx : x.1 = k
    · right; rw [get?_put, if_pos hx.symm, hall x (by simp) hx]
    · rcases h with ⟨y, hy, hk⟩ | h
      · simp only [List.mem_cons] at hy
        rcases hy with rfl | hy
        · exact absurd hk hx
        · exact .inl ⟨y, hy, hk⟩
      · right; rw [get?_put, if_neg (Ne.symm hx)]; exact h

omit [DecidableEq α] in
theorem mem_of_get? (m : SMap α) (k : Nat) (v : α) (h : get? m k = some v) : (k, v) ∈ m := by
  induction m with
  | nil => simp [get?] at h
  | cons e m ih =>
    unfold get? at h
    split at h
    · cases h; subst_vars; simp
    · exact List.mem_cons_of_mem _ (ih h)

end SMap
end Sys2Proof.Machine
end

