-- ==== Sys2Proof/Laws/State.lean ====
section
/-! SUPPORT. What each update of the device leaves alone: one lemma for every field and update, so that no proof unfolds one. -/

namespace Sys2Proof.Machine.Dev

set_option Elab.async false

@[simp] theorem p_pairRd (d : Dev) (base : Nat) (f : Fld) (v : Nat) : (d.p base f v).pairRd = d.pairRd := rfl
@[simp] theorem p_pairWr (d : Dev) (base : Nat) (f : Fld) (v : Nat) : (d.p base f v).pairWr = d.pairWr := rfl
@[simp] theorem p_code (d : Dev) (base : Nat) (f : Fld) (v : Nat) : (d.p base f v).code = d.code := rfl
@[simp] theorem p_st (d : Dev) (base : Nat) (f : Fld) (v : Nat) : (d.p base f v).st = d.st := rfl
@[simp] theorem p_fab (d : Dev) (base : Nat) (f : Fld) (v : Nat) : (d.p base f v).fab = d.fab := rfl
@[simp] theorem p_clu (d : Dev) (base : Nat) (f : Fld) (v : Nat) : (d.p base f v).clu = d.clu := rfl
@[simp] theorem p_ptn (d : Dev) (base : Nat) (f : Fld) (v : Nat) : (d.p base f v).ptn = d.ptn := rfl
@[simp] theorem p_queue (d : Dev) (base : Nat) (f : Fld) (v : Nat) : (d.p base f v).queue = d.queue := rfl
@[simp] theorem p_dsp (d : Dev) (base : Nat) (f : Fld) (v : Nat) : (d.p base f v).dsp = d.dsp := rfl
@[simp] theorem p_hbm (d : Dev) (base : Nat) (f : Fld) (v : Nat) : (d.p base f v).hbm = d.hbm := rfl
@[simp] theorem p_ime (d : Dev) (base : Nat) (f : Fld) (v : Nat) : (d.p base f v).ime = d.ime := rfl
@[simp] theorem p_trg (d : Dev) (base : Nat) (f : Fld) (v : Nat) : (d.p base f v).trg = d.trg := rfl
@[simp] theorem p_cap (d : Dev) (base : Nat) (f : Fld) (v : Nat) : (d.p base f v).cap = d.cap := rfl
@[simp] theorem p_trc (d : Dev) (base : Nat) (f : Fld) (v : Nat) : (d.p base f v).trc = d.trc := rfl
@[simp] theorem p_nonce (d : Dev) (base : Nat) (f : Fld) (v : Nat) : (d.p base f v).nonce = d.nonce := rfl
@[simp] theorem p_link (d : Dev) (base : Nat) (f : Fld) (v : Nat) : (d.p base f v).link = d.link := rfl
@[simp] theorem p_noc (d : Dev) (base : Nat) (f : Fld) (v : Nat) : (d.p base f v).noc = d.noc := rfl
@[simp] theorem p_boot (d : Dev) (base : Nat) (f : Fld) (v : Nat) : (d.p base f v).boot = d.boot := rfl
@[simp] theorem p_pwr (d : Dev) (base : Nat) (f : Fld) (v : Nat) : (d.p base f v).pwr = d.pwr := rfl
@[simp] theorem p_ring (d : Dev) (base : Nat) (f : Fld) (v : Nat) : (d.p base f v).ring = d.ring := rfl
@[simp] theorem p_log (d : Dev) (base : Nat) (f : Fld) (v : Nat) : (d.p base f v).log = d.log := rfl
@[simp] theorem p_mnt (d : Dev) (base : Nat) (f : Fld) (v : Nat) : (d.p base f v).mnt = d.mnt := rfl
@[simp] theorem p_sys (d : Dev) (base : Nat) (f : Fld) (v : Nat) : (d.p base f v).sys = d.sys := rfl
@[simp] theorem p_time (d : Dev) (base : Nat) (f : Fld) (v : Nat) : (d.p base f v).time = d.time := rfl
@[simp] theorem p_slewTo (d : Dev) (base : Nat) (f : Fld) (v : Nat) : (d.p base f v).slewTo = d.slewTo := rfl
@[simp] theorem p_ticks (d : Dev) (base : Nat) (f : Fld) (v : Nat) : (d.p base f v).ticks = d.ticks := rfl
@[simp] theorem p_latchAt (d : Dev) (base : Nat) (f : Fld) (v : Nat) : (d.p base f v).latchAt = d.latchAt := rfl
@[simp] theorem p_strobeSrc (d : Dev) (base : Nat) (f : Fld) (v : Nat) : (d.p base f v).strobeSrc = d.strobeSrc := rfl
@[simp] theorem p_raised (d : Dev) (base : Nat) (f : Fld) (v : Nat) : (d.p base f v).raised = d.raised := rfl
@[simp] theorem p_rewrites (d : Dev) (base : Nat) (f : Fld) (v : Nat) : (d.p base f v).rewrites = d.rewrites := rfl
@[simp] theorem p_evq (d : Dev) (base : Nat) (f : Fld) (v : Nat) : (d.p base f v).evq = d.evq := rfl
@[simp] theorem p_bus (d : Dev) (base : Nat) (f : Fld) (v : Nat) : (d.p base f v).bus = d.bus := rfl
@[simp] theorem p_answers (d : Dev) (base : Nat) (f : Fld) (v : Nat) : (d.p base f v).answers = d.answers := rfl
@[simp] theorem p_out (d : Dev) (base : Nat) (f : Fld) (v : Nat) : (d.p base f v).out = d.out := rfl
@[simp] theorem p_fresh (d : Dev) (base : Nat) (f : Fld) (v : Nat) : (d.p base f v).fresh = d.fresh := rfl

@[simp] theorem resetRange_pairRd (d : Dev) (lo hi : Nat) : (d.resetRange lo hi).pairRd = d.pairRd := rfl
@[simp] theorem resetRange_pairWr (d : Dev) (lo hi : Nat) : (d.resetRange lo hi).pairWr = d.pairWr := rfl
@[simp] theorem resetRange_code (d : Dev) (lo hi : Nat) : (d.resetRange lo hi).code = d.code := rfl
@[simp] theorem resetRange_st (d : Dev) (lo hi : Nat) : (d.resetRange lo hi).st = d.st := rfl
@[simp] theorem resetRange_fab (d : Dev) (lo hi : Nat) : (d.resetRange lo hi).fab = d.fab := rfl
@[simp] theorem resetRange_clu (d : Dev) (lo hi : Nat) : (d.resetRange lo hi).clu = d.clu := rfl
@[simp] theorem resetRange_ptn (d : Dev) (lo hi : Nat) : (d.resetRange lo hi).ptn = d.ptn := rfl
@[simp] theorem resetRange_queue (d : Dev) (lo hi : Nat) : (d.resetRange lo hi).queue = d.queue := rfl
@[simp] theorem resetRange_dsp (d : Dev) (lo hi : Nat) : (d.resetRange lo hi).dsp = d.dsp := rfl
@[simp] theorem resetRange_hbm (d : Dev) (lo hi : Nat) : (d.resetRange lo hi).hbm = d.hbm := rfl
@[simp] theorem resetRange_ime (d : Dev) (lo hi : Nat) : (d.resetRange lo hi).ime = d.ime := rfl
@[simp] theorem resetRange_trg (d : Dev) (lo hi : Nat) : (d.resetRange lo hi).trg = d.trg := rfl
@[simp] theorem resetRange_cap (d : Dev) (lo hi : Nat) : (d.resetRange lo hi).cap = d.cap := rfl
@[simp] theorem resetRange_trc (d : Dev) (lo hi : Nat) : (d.resetRange lo hi).trc = d.trc := rfl
@[simp] theorem resetRange_nonce (d : Dev) (lo hi : Nat) : (d.resetRange lo hi).nonce = d.nonce := rfl
@[simp] theorem resetRange_link (d : Dev) (lo hi : Nat) : (d.resetRange lo hi).link = d.link := rfl
@[simp] theorem resetRange_noc (d : Dev) (lo hi : Nat) : (d.resetRange lo hi).noc = d.noc := rfl
@[simp] theorem resetRange_boot (d : Dev) (lo hi : Nat) : (d.resetRange lo hi).boot = d.boot := rfl
@[simp] theorem resetRange_pwr (d : Dev) (lo hi : Nat) : (d.resetRange lo hi).pwr = d.pwr := rfl
@[simp] theorem resetRange_ring (d : Dev) (lo hi : Nat) : (d.resetRange lo hi).ring = d.ring := rfl
@[simp] theorem resetRange_log (d : Dev) (lo hi : Nat) : (d.resetRange lo hi).log = d.log := rfl
@[simp] theorem resetRange_mnt (d : Dev) (lo hi : Nat) : (d.resetRange lo hi).mnt = d.mnt := rfl
@[simp] theorem resetRange_sys (d : Dev) (lo hi : Nat) : (d.resetRange lo hi).sys = d.sys := rfl
@[simp] theorem resetRange_time (d : Dev) (lo hi : Nat) : (d.resetRange lo hi).time = d.time := rfl
@[simp] theorem resetRange_slewTo (d : Dev) (lo hi : Nat) : (d.resetRange lo hi).slewTo = d.slewTo := rfl
@[simp] theorem resetRange_ticks (d : Dev) (lo hi : Nat) : (d.resetRange lo hi).ticks = d.ticks := rfl
@[simp] theorem resetRange_latchAt (d : Dev) (lo hi : Nat) : (d.resetRange lo hi).latchAt = d.latchAt := rfl
@[simp] theorem resetRange_strobeSrc (d : Dev) (lo hi : Nat) : (d.resetRange lo hi).strobeSrc = d.strobeSrc := rfl
@[simp] theorem resetRange_raised (d : Dev) (lo hi : Nat) : (d.resetRange lo hi).raised = d.raised := rfl
@[simp] theorem resetRange_rewrites (d : Dev) (lo hi : Nat) : (d.resetRange lo hi).rewrites = d.rewrites := rfl
@[simp] theorem resetRange_evq (d : Dev) (lo hi : Nat) : (d.resetRange lo hi).evq = d.evq := rfl
@[simp] theorem resetRange_bus (d : Dev) (lo hi : Nat) : (d.resetRange lo hi).bus = d.bus := rfl
@[simp] theorem resetRange_answers (d : Dev) (lo hi : Nat) : (d.resetRange lo hi).answers = d.answers := rfl
@[simp] theorem resetRange_out (d : Dev) (lo hi : Nat) : (d.resetRange lo hi).out = d.out := rfl
@[simp] theorem resetRange_fresh (d : Dev) (lo hi : Nat) : (d.resetRange lo hi).fresh = d.fresh := rfl

@[simp] theorem emit_fld (d : Dev) (o : Out) : (d.emit o).fld = d.fld := rfl
@[simp] theorem emit_pairRd (d : Dev) (o : Out) : (d.emit o).pairRd = d.pairRd := rfl
@[simp] theorem emit_pairWr (d : Dev) (o : Out) : (d.emit o).pairWr = d.pairWr := rfl
@[simp] theorem emit_code (d : Dev) (o : Out) : (d.emit o).code = d.code := rfl
@[simp] theorem emit_st (d : Dev) (o : Out) : (d.emit o).st = d.st := rfl
@[simp] theorem emit_fab (d : Dev) (o : Out) : (d.emit o).fab = d.fab := rfl
@[simp] theorem emit_clu (d : Dev) (o : Out) : (d.emit o).clu = d.clu := rfl
@[simp] theorem emit_ptn (d : Dev) (o : Out) : (d.emit o).ptn = d.ptn := rfl
@[simp] theorem emit_queue (d : Dev) (o : Out) : (d.emit o).queue = d.queue := rfl
@[simp] theorem emit_dsp (d : Dev) (o : Out) : (d.emit o).dsp = d.dsp := rfl
@[simp] theorem emit_hbm (d : Dev) (o : Out) : (d.emit o).hbm = d.hbm := rfl
@[simp] theorem emit_ime (d : Dev) (o : Out) : (d.emit o).ime = d.ime := rfl
@[simp] theorem emit_trg (d : Dev) (o : Out) : (d.emit o).trg = d.trg := rfl
@[simp] theorem emit_cap (d : Dev) (o : Out) : (d.emit o).cap = d.cap := rfl
@[simp] theorem emit_trc (d : Dev) (o : Out) : (d.emit o).trc = d.trc := rfl
@[simp] theorem emit_nonce (d : Dev) (o : Out) : (d.emit o).nonce = d.nonce := rfl
@[simp] theorem emit_link (d : Dev) (o : Out) : (d.emit o).link = d.link := rfl
@[simp] theorem emit_noc (d : Dev) (o : Out) : (d.emit o).noc = d.noc := rfl
@[simp] theorem emit_boot (d : Dev) (o : Out) : (d.emit o).boot = d.boot := rfl
@[simp] theorem emit_pwr (d : Dev) (o : Out) : (d.emit o).pwr = d.pwr := rfl
@[simp] theorem emit_ring (d : Dev) (o : Out) : (d.emit o).ring = d.ring := rfl
@[simp] theorem emit_log (d : Dev) (o : Out) : (d.emit o).log = d.log := rfl
@[simp] theorem emit_mnt (d : Dev) (o : Out) : (d.emit o).mnt = d.mnt := rfl
@[simp] theorem emit_sys (d : Dev) (o : Out) : (d.emit o).sys = d.sys := rfl
@[simp] theorem emit_time (d : Dev) (o : Out) : (d.emit o).time = d.time := rfl
@[simp] theorem emit_slewTo (d : Dev) (o : Out) : (d.emit o).slewTo = d.slewTo := rfl
@[simp] theorem emit_ticks (d : Dev) (o : Out) : (d.emit o).ticks = d.ticks := rfl
@[simp] theorem emit_latchAt (d : Dev) (o : Out) : (d.emit o).latchAt = d.latchAt := rfl
@[simp] theorem emit_strobeSrc (d : Dev) (o : Out) : (d.emit o).strobeSrc = d.strobeSrc := rfl
@[simp] theorem emit_raised (d : Dev) (o : Out) : (d.emit o).raised = d.raised := rfl
@[simp] theorem emit_rewrites (d : Dev) (o : Out) : (d.emit o).rewrites = d.rewrites := rfl
@[simp] theorem emit_evq (d : Dev) (o : Out) : (d.emit o).evq = d.evq := rfl
@[simp] theorem emit_bus (d : Dev) (o : Out) : (d.emit o).bus = d.bus := rfl
@[simp] theorem emit_answers (d : Dev) (o : Out) : (d.emit o).answers = d.answers := rfl
@[simp] theorem emit_fresh (d : Dev) (o : Out) : (d.emit o).fresh = d.fresh := rfl

@[simp] theorem setClu_fld (d : Dev) (n : Nat) (x : Clu) : (d.setClu n x).fld = d.fld := rfl
@[simp] theorem setClu_pairRd (d : Dev) (n : Nat) (x : Clu) : (d.setClu n x).pairRd = d.pairRd := rfl
@[simp] theorem setClu_pairWr (d : Dev) (n : Nat) (x : Clu) : (d.setClu n x).pairWr = d.pairWr := rfl
@[simp] theorem setClu_code (d : Dev) (n : Nat) (x : Clu) : (d.setClu n x).code = d.code := rfl
@[simp] theorem setClu_st (d : Dev) (n : Nat) (x : Clu) : (d.setClu n x).st = d.st := rfl
@[simp] theorem setClu_fab (d : Dev) (n : Nat) (x : Clu) : (d.setClu n x).fab = d.fab := rfl
@[simp] theorem setClu_ptn (d : Dev) (n : Nat) (x : Clu) : (d.setClu n x).ptn = d.ptn := rfl
@[simp] theorem setClu_queue (d : Dev) (n : Nat) (x : Clu) : (d.setClu n x).queue = d.queue := rfl
@[simp] theorem setClu_dsp (d : Dev) (n : Nat) (x : Clu) : (d.setClu n x).dsp = d.dsp := rfl
@[simp] theorem setClu_hbm (d : Dev) (n : Nat) (x : Clu) : (d.setClu n x).hbm = d.hbm := rfl
@[simp] theorem setClu_ime (d : Dev) (n : Nat) (x : Clu) : (d.setClu n x).ime = d.ime := rfl
@[simp] theorem setClu_trg (d : Dev) (n : Nat) (x : Clu) : (d.setClu n x).trg = d.trg := rfl
@[simp] theorem setClu_cap (d : Dev) (n : Nat) (x : Clu) : (d.setClu n x).cap = d.cap := rfl
@[simp] theorem setClu_trc (d : Dev) (n : Nat) (x : Clu) : (d.setClu n x).trc = d.trc := rfl
@[simp] theorem setClu_nonce (d : Dev) (n : Nat) (x : Clu) : (d.setClu n x).nonce = d.nonce := rfl
@[simp] theorem setClu_link (d : Dev) (n : Nat) (x : Clu) : (d.setClu n x).link = d.link := rfl
@[simp] theorem setClu_noc (d : Dev) (n : Nat) (x : Clu) : (d.setClu n x).noc = d.noc := rfl
@[simp] theorem setClu_boot (d : Dev) (n : Nat) (x : Clu) : (d.setClu n x).boot = d.boot := rfl
@[simp] theorem setClu_pwr (d : Dev) (n : Nat) (x : Clu) : (d.setClu n x).pwr = d.pwr := rfl
@[simp] theorem setClu_ring (d : Dev) (n : Nat) (x : Clu) : (d.setClu n x).ring = d.ring := rfl
@[simp] theorem setClu_log (d : Dev) (n : Nat) (x : Clu) : (d.setClu n x).log = d.log := rfl
@[simp] theorem setClu_mnt (d : Dev) (n : Nat) (x : Clu) : (d.setClu n x).mnt = d.mnt := rfl
@[simp] theorem setClu_sys (d : Dev) (n : Nat) (x : Clu) : (d.setClu n x).sys = d.sys := rfl
@[simp] theorem setClu_time (d : Dev) (n : Nat) (x : Clu) : (d.setClu n x).time = d.time := rfl
@[simp] theorem setClu_slewTo (d : Dev) (n : Nat) (x : Clu) : (d.setClu n x).slewTo = d.slewTo := rfl
@[simp] theorem setClu_ticks (d : Dev) (n : Nat) (x : Clu) : (d.setClu n x).ticks = d.ticks := rfl
@[simp] theorem setClu_latchAt (d : Dev) (n : Nat) (x : Clu) : (d.setClu n x).latchAt = d.latchAt := rfl
@[simp] theorem setClu_strobeSrc (d : Dev) (n : Nat) (x : Clu) : (d.setClu n x).strobeSrc = d.strobeSrc := rfl
@[simp] theorem setClu_raised (d : Dev) (n : Nat) (x : Clu) : (d.setClu n x).raised = d.raised := rfl
@[simp] theorem setClu_rewrites (d : Dev) (n : Nat) (x : Clu) : (d.setClu n x).rewrites = d.rewrites := rfl
@[simp] theorem setClu_evq (d : Dev) (n : Nat) (x : Clu) : (d.setClu n x).evq = d.evq := rfl
@[simp] theorem setClu_bus (d : Dev) (n : Nat) (x : Clu) : (d.setClu n x).bus = d.bus := rfl
@[simp] theorem setClu_answers (d : Dev) (n : Nat) (x : Clu) : (d.setClu n x).answers = d.answers := rfl
@[simp] theorem setClu_out (d : Dev) (n : Nat) (x : Clu) : (d.setClu n x).out = d.out := rfl
@[simp] theorem setClu_fresh (d : Dev) (n : Nat) (x : Clu) : (d.setClu n x).fresh = d.fresh := rfl

@[simp] theorem setPtn_fld (d : Dev) (i : Nat) (x : Ptn) : (d.setPtn i x).fld = d.fld := rfl
@[simp] theorem setPtn_pairRd (d : Dev) (i : Nat) (x : Ptn) : (d.setPtn i x).pairRd = d.pairRd := rfl
@[simp] theorem setPtn_pairWr (d : Dev) (i : Nat) (x : Ptn) : (d.setPtn i x).pairWr = d.pairWr := rfl
@[simp] theorem setPtn_code (d : Dev) (i : Nat) (x : Ptn) : (d.setPtn i x).code = d.code := rfl
@[simp] theorem setPtn_st (d : Dev) (i : Nat) (x : Ptn) : (d.setPtn i x).st = d.st := rfl
@[simp] theorem setPtn_fab (d : Dev) (i : Nat) (x : Ptn) : (d.setPtn i x).fab = d.fab := rfl
@[simp] theorem setPtn_clu (d : Dev) (i : Nat) (x : Ptn) : (d.setPtn i x).clu = d.clu := rfl
@[simp] theorem setPtn_queue (d : Dev) (i : Nat) (x : Ptn) : (d.setPtn i x).queue = d.queue := rfl
@[simp] theorem setPtn_dsp (d : Dev) (i : Nat) (x : Ptn) : (d.setPtn i x).dsp = d.dsp := rfl
@[simp] theorem setPtn_hbm (d : Dev) (i : Nat) (x : Ptn) : (d.setPtn i x).hbm = d.hbm := rfl
@[simp] theorem setPtn_ime (d : Dev) (i : Nat) (x : Ptn) : (d.setPtn i x).ime = d.ime := rfl
@[simp] theorem setPtn_trg (d : Dev) (i : Nat) (x : Ptn) : (d.setPtn i x).trg = d.trg := rfl
@[simp] theorem setPtn_cap (d : Dev) (i : Nat) (x : Ptn) : (d.setPtn i x).cap = d.cap := rfl
@[simp] theorem setPtn_trc (d : Dev) (i : Nat) (x : Ptn) : (d.setPtn i x).trc = d.trc := rfl
@[simp] theorem setPtn_nonce (d : Dev) (i : Nat) (x : Ptn) : (d.setPtn i x).nonce = d.nonce := rfl
@[simp] theorem setPtn_link (d : Dev) (i : Nat) (x : Ptn) : (d.setPtn i x).link = d.link := rfl
@[simp] theorem setPtn_noc (d : Dev) (i : Nat) (x : Ptn) : (d.setPtn i x).noc = d.noc := rfl
@[simp] theorem setPtn_boot (d : Dev) (i : Nat) (x : Ptn) : (d.setPtn i x).boot = d.boot := rfl
@[simp] theorem setPtn_pwr (d : Dev) (i : Nat) (x : Ptn) : (d.setPtn i x).pwr = d.pwr := rfl
@[simp] theorem setPtn_ring (d : Dev) (i : Nat) (x : Ptn) : (d.setPtn i x).ring = d.ring := rfl
@[simp] theorem setPtn_log (d : Dev) (i : Nat) (x : Ptn) : (d.setPtn i x).log = d.log := rfl
@[simp] theorem setPtn_mnt (d : Dev) (i : Nat) (x : Ptn) : (d.setPtn i x).mnt = d.mnt := rfl
@[simp] theorem setPtn_sys (d : Dev) (i : Nat) (x : Ptn) : (d.setPtn i x).sys = d.sys := rfl
@[simp] theorem setPtn_time (d : Dev) (i : Nat) (x : Ptn) : (d.setPtn i x).time = d.time := rfl
@[simp] theorem setPtn_slewTo (d : Dev) (i : Nat) (x : Ptn) : (d.setPtn i x).slewTo = d.slewTo := rfl
@[simp] theorem setPtn_ticks (d : Dev) (i : Nat) (x : Ptn) : (d.setPtn i x).ticks = d.ticks := rfl
@[simp] theorem setPtn_latchAt (d : Dev) (i : Nat) (x : Ptn) : (d.setPtn i x).latchAt = d.latchAt := rfl
@[simp] theorem setPtn_strobeSrc (d : Dev) (i : Nat) (x : Ptn) : (d.setPtn i x).strobeSrc = d.strobeSrc := rfl
@[simp] theorem setPtn_raised (d : Dev) (i : Nat) (x : Ptn) : (d.setPtn i x).raised = d.raised := rfl
@[simp] theorem setPtn_rewrites (d : Dev) (i : Nat) (x : Ptn) : (d.setPtn i x).rewrites = d.rewrites := rfl
@[simp] theorem setPtn_evq (d : Dev) (i : Nat) (x : Ptn) : (d.setPtn i x).evq = d.evq := rfl
@[simp] theorem setPtn_bus (d : Dev) (i : Nat) (x : Ptn) : (d.setPtn i x).bus = d.bus := rfl
@[simp] theorem setPtn_answers (d : Dev) (i : Nat) (x : Ptn) : (d.setPtn i x).answers = d.answers := rfl
@[simp] theorem setPtn_out (d : Dev) (i : Nat) (x : Ptn) : (d.setPtn i x).out = d.out := rfl
@[simp] theorem setPtn_fresh (d : Dev) (i : Nat) (x : Ptn) : (d.setPtn i x).fresh = d.fresh := rfl

@[simp] theorem setQueue_fld (d : Dev) (i : Nat) (x : Queue) : (d.setQueue i x).fld = d.fld := rfl
@[simp] theorem setQueue_pairRd (d : Dev) (i : Nat) (x : Queue) : (d.setQueue i x).pairRd = d.pairRd := rfl
@[simp] theorem setQueue_pairWr (d : Dev) (i : Nat) (x : Queue) : (d.setQueue i x).pairWr = d.pairWr := rfl
@[simp] theorem setQueue_code (d : Dev) (i : Nat) (x : Queue) : (d.setQueue i x).code = d.code := rfl
@[simp] theorem setQueue_st (d : Dev) (i : Nat) (x : Queue) : (d.setQueue i x).st = d.st := rfl
@[simp] theorem setQueue_fab (d : Dev) (i : Nat) (x : Queue) : (d.setQueue i x).fab = d.fab := rfl
@[simp] theorem setQueue_clu (d : Dev) (i : Nat) (x : Queue) : (d.setQueue i x).clu = d.clu := rfl
@[simp] theorem setQueue_ptn (d : Dev) (i : Nat) (x : Queue) : (d.setQueue i x).ptn = d.ptn := rfl
@[simp] theorem setQueue_dsp (d : Dev) (i : Nat) (x : Queue) : (d.setQueue i x).dsp = d.dsp := rfl
@[simp] theorem setQueue_hbm (d : Dev) (i : Nat) (x : Queue) : (d.setQueue i x).hbm = d.hbm := rfl
@[simp] theorem setQueue_ime (d : Dev) (i : Nat) (x : Queue) : (d.setQueue i x).ime = d.ime := rfl
@[simp] theorem setQueue_trg (d : Dev) (i : Nat) (x : Queue) : (d.setQueue i x).trg = d.trg := rfl
@[simp] theorem setQueue_cap (d : Dev) (i : Nat) (x : Queue) : (d.setQueue i x).cap = d.cap := rfl
@[simp] theorem setQueue_trc (d : Dev) (i : Nat) (x : Queue) : (d.setQueue i x).trc = d.trc := rfl
@[simp] theorem setQueue_nonce (d : Dev) (i : Nat) (x : Queue) : (d.setQueue i x).nonce = d.nonce := rfl
@[simp] theorem setQueue_link (d : Dev) (i : Nat) (x : Queue) : (d.setQueue i x).link = d.link := rfl
@[simp] theorem setQueue_noc (d : Dev) (i : Nat) (x : Queue) : (d.setQueue i x).noc = d.noc := rfl
@[simp] theorem setQueue_boot (d : Dev) (i : Nat) (x : Queue) : (d.setQueue i x).boot = d.boot := rfl
@[simp] theorem setQueue_pwr (d : Dev) (i : Nat) (x : Queue) : (d.setQueue i x).pwr = d.pwr := rfl
@[simp] theorem setQueue_ring (d : Dev) (i : Nat) (x : Queue) : (d.setQueue i x).ring = d.ring := rfl
@[simp] theorem setQueue_log (d : Dev) (i : Nat) (x : Queue) : (d.setQueue i x).log = d.log := rfl
@[simp] theorem setQueue_mnt (d : Dev) (i : Nat) (x : Queue) : (d.setQueue i x).mnt = d.mnt := rfl
@[simp] theorem setQueue_sys (d : Dev) (i : Nat) (x : Queue) : (d.setQueue i x).sys = d.sys := rfl
@[simp] theorem setQueue_time (d : Dev) (i : Nat) (x : Queue) : (d.setQueue i x).time = d.time := rfl
@[simp] theorem setQueue_slewTo (d : Dev) (i : Nat) (x : Queue) : (d.setQueue i x).slewTo = d.slewTo := rfl
@[simp] theorem setQueue_ticks (d : Dev) (i : Nat) (x : Queue) : (d.setQueue i x).ticks = d.ticks := rfl
@[simp] theorem setQueue_latchAt (d : Dev) (i : Nat) (x : Queue) : (d.setQueue i x).latchAt = d.latchAt := rfl
@[simp] theorem setQueue_strobeSrc (d : Dev) (i : Nat) (x : Queue) : (d.setQueue i x).strobeSrc = d.strobeSrc := rfl
@[simp] theorem setQueue_raised (d : Dev) (i : Nat) (x : Queue) : (d.setQueue i x).raised = d.raised := rfl
@[simp] theorem setQueue_rewrites (d : Dev) (i : Nat) (x : Queue) : (d.setQueue i x).rewrites = d.rewrites := rfl
@[simp] theorem setQueue_evq (d : Dev) (i : Nat) (x : Queue) : (d.setQueue i x).evq = d.evq := rfl
@[simp] theorem setQueue_bus (d : Dev) (i : Nat) (x : Queue) : (d.setQueue i x).bus = d.bus := rfl
@[simp] theorem setQueue_answers (d : Dev) (i : Nat) (x : Queue) : (d.setQueue i x).answers = d.answers := rfl
@[simp] theorem setQueue_out (d : Dev) (i : Nat) (x : Queue) : (d.setQueue i x).out = d.out := rfl
@[simp] theorem setQueue_fresh (d : Dev) (i : Nat) (x : Queue) : (d.setQueue i x).fresh = d.fresh := rfl

@[simp] theorem setLink_fld (d : Dev) (i : Nat) (x : Link) : (d.setLink i x).fld = d.fld := rfl
@[simp] theorem setLink_pairRd (d : Dev) (i : Nat) (x : Link) : (d.setLink i x).pairRd = d.pairRd := rfl
@[simp] theorem setLink_pairWr (d : Dev) (i : Nat) (x : Link) : (d.setLink i x).pairWr = d.pairWr := rfl
@[simp] theorem setLink_code (d : Dev) (i : Nat) (x : Link) : (d.setLink i x).code = d.code := rfl
@[simp] theorem setLink_st (d : Dev) (i : Nat) (x : Link) : (d.setLink i x).st = d.st := rfl
@[simp] theorem setLink_fab (d : Dev) (i : Nat) (x : Link) : (d.setLink i x).fab = d.fab := rfl
@[simp] theorem setLink_clu (d : Dev) (i : Nat) (x : Link) : (d.setLink i x).clu = d.clu := rfl
@[simp] theorem setLink_ptn (d : Dev) (i : Nat) (x : Link) : (d.setLink i x).ptn = d.ptn := rfl
@[simp] theorem setLink_queue (d : Dev) (i : Nat) (x : Link) : (d.setLink i x).queue = d.queue := rfl
@[simp] theorem setLink_dsp (d : Dev) (i : Nat) (x : Link) : (d.setLink i x).dsp = d.dsp := rfl
@[simp] theorem setLink_hbm (d : Dev) (i : Nat) (x : Link) : (d.setLink i x).hbm = d.hbm := rfl
@[simp] theorem setLink_ime (d : Dev) (i : Nat) (x : Link) : (d.setLink i x).ime = d.ime := rfl
@[simp] theorem setLink_trg (d : Dev) (i : Nat) (x : Link) : (d.setLink i x).trg = d.trg := rfl
@[simp] theorem setLink_cap (d : Dev) (i : Nat) (x : Link) : (d.setLink i x).cap = d.cap := rfl
@[simp] theorem setLink_trc (d : Dev) (i : Nat) (x : Link) : (d.setLink i x).trc = d.trc := rfl
@[simp] theorem setLink_nonce (d : Dev) (i : Nat) (x : Link) : (d.setLink i x).nonce = d.nonce := rfl
@[simp] theorem setLink_noc (d : Dev) (i : Nat) (x : Link) : (d.setLink i x).noc = d.noc := rfl
@[simp] theorem setLink_boot (d : Dev) (i : Nat) (x : Link) : (d.setLink i x).boot = d.boot := rfl
@[simp] theorem setLink_pwr (d : Dev) (i : Nat) (x : Link) : (d.setLink i x).pwr = d.pwr := rfl
@[simp] theorem setLink_ring (d : Dev) (i : Nat) (x : Link) : (d.setLink i x).ring = d.ring := rfl
@[simp] theorem setLink_log (d : Dev) (i : Nat) (x : Link) : (d.setLink i x).log = d.log := rfl
@[simp] theorem setLink_mnt (d : Dev) (i : Nat) (x : Link) : (d.setLink i x).mnt = d.mnt := rfl
@[simp] theorem setLink_sys (d : Dev) (i : Nat) (x : Link) : (d.setLink i x).sys = d.sys := rfl
@[simp] theorem setLink_time (d : Dev) (i : Nat) (x : Link) : (d.setLink i x).time = d.time := rfl
@[simp] theorem setLink_slewTo (d : Dev) (i : Nat) (x : Link) : (d.setLink i x).slewTo = d.slewTo := rfl
@[simp] theorem setLink_ticks (d : Dev) (i : Nat) (x : Link) : (d.setLink i x).ticks = d.ticks := rfl
@[simp] theorem setLink_latchAt (d : Dev) (i : Nat) (x : Link) : (d.setLink i x).latchAt = d.latchAt := rfl
@[simp] theorem setLink_strobeSrc (d : Dev) (i : Nat) (x : Link) : (d.setLink i x).strobeSrc = d.strobeSrc := rfl
@[simp] theorem setLink_raised (d : Dev) (i : Nat) (x : Link) : (d.setLink i x).raised = d.raised := rfl
@[simp] theorem setLink_rewrites (d : Dev) (i : Nat) (x : Link) : (d.setLink i x).rewrites = d.rewrites := rfl
@[simp] theorem setLink_evq (d : Dev) (i : Nat) (x : Link) : (d.setLink i x).evq = d.evq := rfl
@[simp] theorem setLink_bus (d : Dev) (i : Nat) (x : Link) : (d.setLink i x).bus = d.bus := rfl
@[simp] theorem setLink_answers (d : Dev) (i : Nat) (x : Link) : (d.setLink i x).answers = d.answers := rfl
@[simp] theorem setLink_out (d : Dev) (i : Nat) (x : Link) : (d.setLink i x).out = d.out := rfl
@[simp] theorem setLink_fresh (d : Dev) (i : Nat) (x : Link) : (d.setLink i x).fresh = d.fresh := rfl

@[simp] theorem setChan_fld (d : Dev) (i : Nat) (x : Chan) : (d.setChan i x).fld = d.fld := rfl
@[simp] theorem setChan_pairRd (d : Dev) (i : Nat) (x : Chan) : (d.setChan i x).pairRd = d.pairRd := rfl
@[simp] theorem setChan_pairWr (d : Dev) (i : Nat) (x : Chan) : (d.setChan i x).pairWr = d.pairWr := rfl
@[simp] theorem setChan_code (d : Dev) (i : Nat) (x : Chan) : (d.setChan i x).code = d.code := rfl
@[simp] theorem setChan_st (d : Dev) (i : Nat) (x : Chan) : (d.setChan i x).st = d.st := rfl
@[simp] theorem setChan_fab (d : Dev) (i : Nat) (x : Chan) : (d.setChan i x).fab = d.fab := rfl
@[simp] theorem setChan_clu (d : Dev) (i : Nat) (x : Chan) : (d.setChan i x).clu = d.clu := rfl
@[simp] theorem setChan_ptn (d : Dev) (i : Nat) (x : Chan) : (d.setChan i x).ptn = d.ptn := rfl
@[simp] theorem setChan_queue (d : Dev) (i : Nat) (x : Chan) : (d.setChan i x).queue = d.queue := rfl
@[simp] theorem setChan_dsp (d : Dev) (i : Nat) (x : Chan) : (d.setChan i x).dsp = d.dsp := rfl
@[simp] theorem setChan_hbm (d : Dev) (i : Nat) (x : Chan) : (d.setChan i x).hbm = d.hbm := rfl
@[simp] theorem setChan_ime (d : Dev) (i : Nat) (x : Chan) : (d.setChan i x).ime = d.ime := rfl
@[simp] theorem setChan_trg (d : Dev) (i : Nat) (x : Chan) : (d.setChan i x).trg = d.trg := rfl
@[simp] theorem setChan_trc (d : Dev) (i : Nat) (x : Chan) : (d.setChan i x).trc = d.trc := rfl
@[simp] theorem setChan_nonce (d : Dev) (i : Nat) (x : Chan) : (d.setChan i x).nonce = d.nonce := rfl
@[simp] theorem setChan_link (d : Dev) (i : Nat) (x : Chan) : (d.setChan i x).link = d.link := rfl
@[simp] theorem setChan_noc (d : Dev) (i : Nat) (x : Chan) : (d.setChan i x).noc = d.noc := rfl
@[simp] theorem setChan_boot (d : Dev) (i : Nat) (x : Chan) : (d.setChan i x).boot = d.boot := rfl
@[simp] theorem setChan_pwr (d : Dev) (i : Nat) (x : Chan) : (d.setChan i x).pwr = d.pwr := rfl
@[simp] theorem setChan_ring (d : Dev) (i : Nat) (x : Chan) : (d.setChan i x).ring = d.ring := rfl
@[simp] theorem setChan_log (d : Dev) (i : Nat) (x : Chan) : (d.setChan i x).log = d.log := rfl
@[simp] theorem setChan_mnt (d : Dev) (i : Nat) (x : Chan) : (d.setChan i x).mnt = d.mnt := rfl
@[simp] theorem setChan_sys (d : Dev) (i : Nat) (x : Chan) : (d.setChan i x).sys = d.sys := rfl
@[simp] theorem setChan_time (d : Dev) (i : Nat) (x : Chan) : (d.setChan i x).time = d.time := rfl
@[simp] theorem setChan_slewTo (d : Dev) (i : Nat) (x : Chan) : (d.setChan i x).slewTo = d.slewTo := rfl
@[simp] theorem setChan_ticks (d : Dev) (i : Nat) (x : Chan) : (d.setChan i x).ticks = d.ticks := rfl
@[simp] theorem setChan_latchAt (d : Dev) (i : Nat) (x : Chan) : (d.setChan i x).latchAt = d.latchAt := rfl
@[simp] theorem setChan_strobeSrc (d : Dev) (i : Nat) (x : Chan) : (d.setChan i x).strobeSrc = d.strobeSrc := rfl
@[simp] theorem setChan_raised (d : Dev) (i : Nat) (x : Chan) : (d.setChan i x).raised = d.raised := rfl
@[simp] theorem setChan_rewrites (d : Dev) (i : Nat) (x : Chan) : (d.setChan i x).rewrites = d.rewrites := rfl
@[simp] theorem setChan_evq (d : Dev) (i : Nat) (x : Chan) : (d.setChan i x).evq = d.evq := rfl
@[simp] theorem setChan_bus (d : Dev) (i : Nat) (x : Chan) : (d.setChan i x).bus = d.bus := rfl
@[simp] theorem setChan_answers (d : Dev) (i : Nat) (x : Chan) : (d.setChan i x).answers = d.answers := rfl
@[simp] theorem setChan_out (d : Dev) (i : Nat) (x : Chan) : (d.setChan i x).out = d.out := rfl
@[simp] theorem setChan_fresh (d : Dev) (i : Nat) (x : Chan) : (d.setChan i x).fresh = d.fresh := rfl

@[simp] theorem setStrm_fld (d : Dev) (i : Nat) (x : Strm) : (d.setStrm i x).fld = d.fld := rfl
@[simp] theorem setStrm_pairRd (d : Dev) (i : Nat) (x : Strm) : (d.setStrm i x).pairRd = d.pairRd := rfl
@[simp] theorem setStrm_pairWr (d : Dev) (i : Nat) (x : Strm) : (d.setStrm i x).pairWr = d.pairWr := rfl
@[simp] theorem setStrm_code (d : Dev) (i : Nat) (x : Strm) : (d.setStrm i x).code = d.code := rfl
@[simp] theorem setStrm_st (d : Dev) (i : Nat) (x : Strm) : (d.setStrm i x).st = d.st := rfl
@[simp] theorem setStrm_fab (d : Dev) (i : Nat) (x : Strm) : (d.setStrm i x).fab = d.fab := rfl
@[simp] theorem setStrm_clu (d : Dev) (i : Nat) (x : Strm) : (d.setStrm i x).clu = d.clu := rfl
@[simp] theorem setStrm_ptn (d : Dev) (i : Nat) (x : Strm) : (d.setStrm i x).ptn = d.ptn := rfl
@[simp] theorem setStrm_queue (d : Dev) (i : Nat) (x : Strm) : (d.setStrm i x).queue = d.queue := rfl
@[simp] theorem setStrm_dsp (d : Dev) (i : Nat) (x : Strm) : (d.setStrm i x).dsp = d.dsp := rfl
@[simp] theorem setStrm_hbm (d : Dev) (i : Nat) (x : Strm) : (d.setStrm i x).hbm = d.hbm := rfl
@[simp] theorem setStrm_ime (d : Dev) (i : Nat) (x : Strm) : (d.setStrm i x).ime = d.ime := rfl
@[simp] theorem setStrm_trg (d : Dev) (i : Nat) (x : Strm) : (d.setStrm i x).trg = d.trg := rfl
@[simp] theorem setStrm_cap (d : Dev) (i : Nat) (x : Strm) : (d.setStrm i x).cap = d.cap := rfl
@[simp] theorem setStrm_nonce (d : Dev) (i : Nat) (x : Strm) : (d.setStrm i x).nonce = d.nonce := rfl
@[simp] theorem setStrm_link (d : Dev) (i : Nat) (x : Strm) : (d.setStrm i x).link = d.link := rfl
@[simp] theorem setStrm_noc (d : Dev) (i : Nat) (x : Strm) : (d.setStrm i x).noc = d.noc := rfl
@[simp] theorem setStrm_boot (d : Dev) (i : Nat) (x : Strm) : (d.setStrm i x).boot = d.boot := rfl
@[simp] theorem setStrm_pwr (d : Dev) (i : Nat) (x : Strm) : (d.setStrm i x).pwr = d.pwr := rfl
@[simp] theorem setStrm_ring (d : Dev) (i : Nat) (x : Strm) : (d.setStrm i x).ring = d.ring := rfl
@[simp] theorem setStrm_log (d : Dev) (i : Nat) (x : Strm) : (d.setStrm i x).log = d.log := rfl
@[simp] theorem setStrm_mnt (d : Dev) (i : Nat) (x : Strm) : (d.setStrm i x).mnt = d.mnt := rfl
@[simp] theorem setStrm_sys (d : Dev) (i : Nat) (x : Strm) : (d.setStrm i x).sys = d.sys := rfl
@[simp] theorem setStrm_time (d : Dev) (i : Nat) (x : Strm) : (d.setStrm i x).time = d.time := rfl
@[simp] theorem setStrm_slewTo (d : Dev) (i : Nat) (x : Strm) : (d.setStrm i x).slewTo = d.slewTo := rfl
@[simp] theorem setStrm_ticks (d : Dev) (i : Nat) (x : Strm) : (d.setStrm i x).ticks = d.ticks := rfl
@[simp] theorem setStrm_latchAt (d : Dev) (i : Nat) (x : Strm) : (d.setStrm i x).latchAt = d.latchAt := rfl
@[simp] theorem setStrm_strobeSrc (d : Dev) (i : Nat) (x : Strm) : (d.setStrm i x).strobeSrc = d.strobeSrc := rfl
@[simp] theorem setStrm_raised (d : Dev) (i : Nat) (x : Strm) : (d.setStrm i x).raised = d.raised := rfl
@[simp] theorem setStrm_rewrites (d : Dev) (i : Nat) (x : Strm) : (d.setStrm i x).rewrites = d.rewrites := rfl
@[simp] theorem setStrm_evq (d : Dev) (i : Nat) (x : Strm) : (d.setStrm i x).evq = d.evq := rfl
@[simp] theorem setStrm_bus (d : Dev) (i : Nat) (x : Strm) : (d.setStrm i x).bus = d.bus := rfl
@[simp] theorem setStrm_answers (d : Dev) (i : Nat) (x : Strm) : (d.setStrm i x).answers = d.answers := rfl
@[simp] theorem setStrm_out (d : Dev) (i : Nat) (x : Strm) : (d.setStrm i x).out = d.out := rfl
@[simp] theorem setStrm_fresh (d : Dev) (i : Nat) (x : Strm) : (d.setStrm i x).fresh = d.fresh := rfl

@[simp] theorem setCourier_fld (d : Dev) (i : Nat) (x : Courier) : (d.setCourier i x).fld = d.fld := rfl
@[simp] theorem setCourier_pairRd (d : Dev) (i : Nat) (x : Courier) : (d.setCourier i x).pairRd = d.pairRd := rfl
@[simp] theorem setCourier_pairWr (d : Dev) (i : Nat) (x : Courier) : (d.setCourier i x).pairWr = d.pairWr := rfl
@[simp] theorem setCourier_code (d : Dev) (i : Nat) (x : Courier) : (d.setCourier i x).code = d.code := rfl
@[simp] theorem setCourier_st (d : Dev) (i : Nat) (x : Courier) : (d.setCourier i x).st = d.st := rfl
@[simp] theorem setCourier_fab (d : Dev) (i : Nat) (x : Courier) : (d.setCourier i x).fab = d.fab := rfl
@[simp] theorem setCourier_clu (d : Dev) (i : Nat) (x : Courier) : (d.setCourier i x).clu = d.clu := rfl
@[simp] theorem setCourier_ptn (d : Dev) (i : Nat) (x : Courier) : (d.setCourier i x).ptn = d.ptn := rfl
@[simp] theorem setCourier_queue (d : Dev) (i : Nat) (x : Courier) : (d.setCourier i x).queue = d.queue := rfl
@[simp] theorem setCourier_hbm (d : Dev) (i : Nat) (x : Courier) : (d.setCourier i x).hbm = d.hbm := rfl
@[simp] theorem setCourier_ime (d : Dev) (i : Nat) (x : Courier) : (d.setCourier i x).ime = d.ime := rfl
@[simp] theorem setCourier_trg (d : Dev) (i : Nat) (x : Courier) : (d.setCourier i x).trg = d.trg := rfl
@[simp] theorem setCourier_cap (d : Dev) (i : Nat) (x : Courier) : (d.setCourier i x).cap = d.cap := rfl
@[simp] theorem setCourier_trc (d : Dev) (i : Nat) (x : Courier) : (d.setCourier i x).trc = d.trc := rfl
@[simp] theorem setCourier_nonce (d : Dev) (i : Nat) (x : Courier) : (d.setCourier i x).nonce = d.nonce := rfl
@[simp] theorem setCourier_link (d : Dev) (i : Nat) (x : Courier) : (d.setCourier i x).link = d.link := rfl
@[simp] theorem setCourier_noc (d : Dev) (i : Nat) (x : Courier) : (d.setCourier i x).noc = d.noc := rfl
@[simp] theorem setCourier_boot (d : Dev) (i : Nat) (x : Courier) : (d.setCourier i x).boot = d.boot := rfl
@[simp] theorem setCourier_pwr (d : Dev) (i : Nat) (x : Courier) : (d.setCourier i x).pwr = d.pwr := rfl
@[simp] theorem setCourier_ring (d : Dev) (i : Nat) (x : Courier) : (d.setCourier i x).ring = d.ring := rfl
@[simp] theorem setCourier_log (d : Dev) (i : Nat) (x : Courier) : (d.setCourier i x).log = d.log := rfl
@[simp] theorem setCourier_mnt (d : Dev) (i : Nat) (x : Courier) : (d.setCourier i x).mnt = d.mnt := rfl
@[simp] theorem setCourier_sys (d : Dev) (i : Nat) (x : Courier) : (d.setCourier i x).sys = d.sys := rfl
@[simp] theorem setCourier_time (d : Dev) (i : Nat) (x : Courier) : (d.setCourier i x).time = d.time := rfl
@[simp] theorem setCourier_slewTo (d : Dev) (i : Nat) (x : Courier) : (d.setCourier i x).slewTo = d.slewTo := rfl
@[simp] theorem setCourier_ticks (d : Dev) (i : Nat) (x : Courier) : (d.setCourier i x).ticks = d.ticks := rfl
@[simp] theorem setCourier_latchAt (d : Dev) (i : Nat) (x : Courier) : (d.setCourier i x).latchAt = d.latchAt := rfl
@[simp] theorem setCourier_strobeSrc (d : Dev) (i : Nat) (x : Courier) : (d.setCourier i x).strobeSrc = d.strobeSrc := rfl
@[simp] theorem setCourier_raised (d : Dev) (i : Nat) (x : Courier) : (d.setCourier i x).raised = d.raised := rfl
@[simp] theorem setCourier_rewrites (d : Dev) (i : Nat) (x : Courier) : (d.setCourier i x).rewrites = d.rewrites := rfl
@[simp] theorem setCourier_evq (d : Dev) (i : Nat) (x : Courier) : (d.setCourier i x).evq = d.evq := rfl
@[simp] theorem setCourier_bus (d : Dev) (i : Nat) (x : Courier) : (d.setCourier i x).bus = d.bus := rfl
@[simp] theorem setCourier_answers (d : Dev) (i : Nat) (x : Courier) : (d.setCourier i x).answers = d.answers := rfl
@[simp] theorem setCourier_out (d : Dev) (i : Nat) (x : Courier) : (d.setCourier i x).out = d.out := rfl
@[simp] theorem setCourier_fresh (d : Dev) (i : Nat) (x : Courier) : (d.setCourier i x).fresh = d.fresh := rfl

@[simp] theorem setList_fld (d : Dev) (i : Nat) (x : List Work) : (d.setList i x).fld = d.fld := rfl
@[simp] theorem setList_pairRd (d : Dev) (i : Nat) (x : List Work) : (d.setList i x).pairRd = d.pairRd := rfl
@[simp] theorem setList_pairWr (d : Dev) (i : Nat) (x : List Work) : (d.setList i x).pairWr = d.pairWr := rfl
@[simp] theorem setList_code (d : Dev) (i : Nat) (x : List Work) : (d.setList i x).code = d.code := rfl
@[simp] theorem setList_st (d : Dev) (i : Nat) (x : List Work) : (d.setList i x).st = d.st := rfl
@[simp] theorem setList_fab (d : Dev) (i : Nat) (x : List Work) : (d.setList i x).fab = d.fab := rfl
@[simp] theorem setList_clu (d : Dev) (i : Nat) (x : List Work) : (d.setList i x).clu = d.clu := rfl
@[simp] theorem setList_ptn (d : Dev) (i : Nat) (x : List Work) : (d.setList i x).ptn = d.ptn := rfl
@[simp] theorem setList_queue (d : Dev) (i : Nat) (x : List Work) : (d.setList i x).queue = d.queue := rfl
@[simp] theorem setList_hbm (d : Dev) (i : Nat) (x : List Work) : (d.setList i x).hbm = d.hbm := rfl
@[simp] theorem setList_ime (d : Dev) (i : Nat) (x : List Work) : (d.setList i x).ime = d.ime := rfl
@[simp] theorem setList_trg (d : Dev) (i : Nat) (x : List Work) : (d.setList i x).trg = d.trg := rfl
@[simp] theorem setList_cap (d : Dev) (i : Nat) (x : List Work) : (d.setList i x).cap = d.cap := rfl
@[simp] theorem setList_trc (d : Dev) (i : Nat) (x : List Work) : (d.setList i x).trc = d.trc := rfl
@[simp] theorem setList_nonce (d : Dev) (i : Nat) (x : List Work) : (d.setList i x).nonce = d.nonce := rfl
@[simp] theorem setList_link (d : Dev) (i : Nat) (x : List Work) : (d.setList i x).link = d.link := rfl
@[simp] theorem setList_noc (d : Dev) (i : Nat) (x : List Work) : (d.setList i x).noc = d.noc := rfl
@[simp] theorem setList_boot (d : Dev) (i : Nat) (x : List Work) : (d.setList i x).boot = d.boot := rfl
@[simp] theorem setList_pwr (d : Dev) (i : Nat) (x : List Work) : (d.setList i x).pwr = d.pwr := rfl
@[simp] theorem setList_ring (d : Dev) (i : Nat) (x : List Work) : (d.setList i x).ring = d.ring := rfl
@[simp] theorem setList_log (d : Dev) (i : Nat) (x : List Work) : (d.setList i x).log = d.log := rfl
@[simp] theorem setList_mnt (d : Dev) (i : Nat) (x : List Work) : (d.setList i x).mnt = d.mnt := rfl
@[simp] theorem setList_sys (d : Dev) (i : Nat) (x : List Work) : (d.setList i x).sys = d.sys := rfl
@[simp] theorem setList_time (d : Dev) (i : Nat) (x : List Work) : (d.setList i x).time = d.time := rfl
@[simp] theorem setList_slewTo (d : Dev) (i : Nat) (x : List Work) : (d.setList i x).slewTo = d.slewTo := rfl
@[simp] theorem setList_ticks (d : Dev) (i : Nat) (x : List Work) : (d.setList i x).ticks = d.ticks := rfl
@[simp] theorem setList_latchAt (d : Dev) (i : Nat) (x : List Work) : (d.setList i x).latchAt = d.latchAt := rfl
@[simp] theorem setList_strobeSrc (d : Dev) (i : Nat) (x : List Work) : (d.setList i x).strobeSrc = d.strobeSrc := rfl
@[simp] theorem setList_raised (d : Dev) (i : Nat) (x : List Work) : (d.setList i x).raised = d.raised := rfl
@[simp] theorem setList_rewrites (d : Dev) (i : Nat) (x : List Work) : (d.setList i x).rewrites = d.rewrites := rfl
@[simp] theorem setList_evq (d : Dev) (i : Nat) (x : List Work) : (d.setList i x).evq = d.evq := rfl
@[simp] theorem setList_bus (d : Dev) (i : Nat) (x : List Work) : (d.setList i x).bus = d.bus := rfl
@[simp] theorem setList_answers (d : Dev) (i : Nat) (x : List Work) : (d.setList i x).answers = d.answers := rfl
@[simp] theorem setList_out (d : Dev) (i : Nat) (x : List Work) : (d.setList i x).out = d.out := rfl
@[simp] theorem setList_fresh (d : Dev) (i : Nat) (x : List Work) : (d.setList i x).fresh = d.fresh := rfl

@[simp] theorem raise_fld (d : Dev) (num cls owner i0 i1 : Nat) : (d.raise num cls owner i0 i1).fld = d.fld := rfl
@[simp] theorem raise_pairRd (d : Dev) (num cls owner i0 i1 : Nat) : (d.raise num cls owner i0 i1).pairRd = d.pairRd := rfl
@[simp] theorem raise_pairWr (d : Dev) (num cls owner i0 i1 : Nat) : (d.raise num cls owner i0 i1).pairWr = d.pairWr := rfl
@[simp] theorem raise_code (d : Dev) (num cls owner i0 i1 : Nat) : (d.raise num cls owner i0 i1).code = d.code := rfl
@[simp] theorem raise_st (d : Dev) (num cls owner i0 i1 : Nat) : (d.raise num cls owner i0 i1).st = d.st := rfl
@[simp] theorem raise_fab (d : Dev) (num cls owner i0 i1 : Nat) : (d.raise num cls owner i0 i1).fab = d.fab := rfl
@[simp] theorem raise_clu (d : Dev) (num cls owner i0 i1 : Nat) : (d.raise num cls owner i0 i1).clu = d.clu := rfl
@[simp] theorem raise_ptn (d : Dev) (num cls owner i0 i1 : Nat) : (d.raise num cls owner i0 i1).ptn = d.ptn := rfl
@[simp] theorem raise_queue (d : Dev) (num cls owner i0 i1 : Nat) : (d.raise num cls owner i0 i1).queue = d.queue := rfl
@[simp] theorem raise_dsp (d : Dev) (num cls owner i0 i1 : Nat) : (d.raise num cls owner i0 i1).dsp = d.dsp := rfl
@[simp] theorem raise_hbm (d : Dev) (num cls owner i0 i1 : Nat) : (d.raise num cls owner i0 i1).hbm = d.hbm := rfl
@[simp] theorem raise_ime (d : Dev) (num cls owner i0 i1 : Nat) : (d.raise num cls owner i0 i1).ime = d.ime := rfl
@[simp] theorem raise_trg (d : Dev) (num cls owner i0 i1 : Nat) : (d.raise num cls owner i0 i1).trg = d.trg := rfl
@[simp] theorem raise_cap (d : Dev) (num cls owner i0 i1 : Nat) : (d.raise num cls owner i0 i1).cap = d.cap := rfl
@[simp] theorem raise_trc (d : Dev) (num cls owner i0 i1 : Nat) : (d.raise num cls owner i0 i1).trc = d.trc := rfl
@[simp] theorem raise_nonce (d : Dev) (num cls owner i0 i1 : Nat) : (d.raise num cls owner i0 i1).nonce = d.nonce := rfl
@[simp] theorem raise_link (d : Dev) (num cls owner i0 i1 : Nat) : (d.raise num cls owner i0 i1).link = d.link := rfl
@[simp] theorem raise_noc (d : Dev) (num cls owner i0 i1 : Nat) : (d.raise num cls owner i0 i1).noc = d.noc := rfl
@[simp] theorem raise_boot (d : Dev) (num cls owner i0 i1 : Nat) : (d.raise num cls owner i0 i1).boot = d.boot := rfl
@[simp] theorem raise_pwr (d : Dev) (num cls owner i0 i1 : Nat) : (d.raise num cls owner i0 i1).pwr = d.pwr := rfl
@[simp] theorem raise_ring (d : Dev) (num cls owner i0 i1 : Nat) : (d.raise num cls owner i0 i1).ring = d.ring := rfl
@[simp] theorem raise_log (d : Dev) (num cls owner i0 i1 : Nat) : (d.raise num cls owner i0 i1).log = d.log := rfl
@[simp] theorem raise_mnt (d : Dev) (num cls owner i0 i1 : Nat) : (d.raise num cls owner i0 i1).mnt = d.mnt := rfl
@[simp] theorem raise_sys (d : Dev) (num cls owner i0 i1 : Nat) : (d.raise num cls owner i0 i1).sys = d.sys := rfl
@[simp] theorem raise_time (d : Dev) (num cls owner i0 i1 : Nat) : (d.raise num cls owner i0 i1).time = d.time := rfl
@[simp] theorem raise_slewTo (d : Dev) (num cls owner i0 i1 : Nat) : (d.raise num cls owner i0 i1).slewTo = d.slewTo := rfl
@[simp] theorem raise_ticks (d : Dev) (num cls owner i0 i1 : Nat) : (d.raise num cls owner i0 i1).ticks = d.ticks := rfl
@[simp] theorem raise_latchAt (d : Dev) (num cls owner i0 i1 : Nat) : (d.raise num cls owner i0 i1).latchAt = d.latchAt := rfl
@[simp] theorem raise_strobeSrc (d : Dev) (num cls owner i0 i1 : Nat) : (d.raise num cls owner i0 i1).strobeSrc = d.strobeSrc := rfl
@[simp] theorem raise_raised (d : Dev) (num cls owner i0 i1 : Nat) : (d.raise num cls owner i0 i1).raised = d.raised := rfl
@[simp] theorem raise_rewrites (d : Dev) (num cls owner i0 i1 : Nat) : (d.raise num cls owner i0 i1).rewrites = d.rewrites := rfl
@[simp] theorem raise_bus (d : Dev) (num cls owner i0 i1 : Nat) : (d.raise num cls owner i0 i1).bus = d.bus := rfl
@[simp] theorem raise_answers (d : Dev) (num cls owner i0 i1 : Nat) : (d.raise num cls owner i0 i1).answers = d.answers := rfl
@[simp] theorem raise_out (d : Dev) (num cls owner i0 i1 : Nat) : (d.raise num cls owner i0 i1).out = d.out := rfl
@[simp] theorem raise_fresh (d : Dev) (num cls owner i0 i1 : Nat) : (d.raise num cls owner i0 i1).fresh = d.fresh := rfl

@[simp] theorem tick_fld (d : Dev) : (d.tick).fld = d.fld := rfl
@[simp] theorem tick_pairRd (d : Dev) : (d.tick).pairRd = d.pairRd := rfl
@[simp] theorem tick_pairWr (d : Dev) : (d.tick).pairWr = d.pairWr := rfl
@[simp] theorem tick_code (d : Dev) : (d.tick).code = d.code := rfl
@[simp] theorem tick_st (d : Dev) : (d.tick).st = d.st := rfl
@[simp] theorem tick_fab (d : Dev) : (d.tick).fab = d.fab := rfl
@[simp] theorem tick_clu (d : Dev) : (d.tick).clu = d.clu := rfl
@[simp] theorem tick_ptn (d : Dev) : (d.tick).ptn = d.ptn := rfl
@[simp] theorem tick_queue (d : Dev) : (d.tick).queue = d.queue := rfl
@[simp] theorem tick_dsp (d : Dev) : (d.tick).dsp = d.dsp := rfl
@[simp] theorem tick_hbm (d : Dev) : (d.tick).hbm = d.hbm := rfl
@[simp] theorem tick_ime (d : Dev) : (d.tick).ime = d.ime := rfl
@[simp] theorem tick_trg (d : Dev) : (d.tick).trg = d.trg := rfl
@[simp] theorem tick_cap (d : Dev) : (d.tick).cap = d.cap := rfl
@[simp] theorem tick_trc (d : Dev) : (d.tick).trc = d.trc := rfl
@[simp] theorem tick_nonce (d : Dev) : (d.tick).nonce = d.nonce := rfl
@[simp] theorem tick_link (d : Dev) : (d.tick).link = d.link := rfl
@[simp] theorem tick_noc (d : Dev) : (d.tick).noc = d.noc := rfl
@[simp] theorem tick_boot (d : Dev) : (d.tick).boot = d.boot := rfl
@[simp] theorem tick_pwr (d : Dev) : (d.tick).pwr = d.pwr := rfl
@[simp] theorem tick_ring (d : Dev) : (d.tick).ring = d.ring := rfl
@[simp] theorem tick_log (d : Dev) : (d.tick).log = d.log := rfl
@[simp] theorem tick_mnt (d : Dev) : (d.tick).mnt = d.mnt := rfl
@[simp] theorem tick_sys (d : Dev) : (d.tick).sys = d.sys := rfl
@[simp] theorem tick_time (d : Dev) : (d.tick).time = d.time := rfl
@[simp] theorem tick_slewTo (d : Dev) : (d.tick).slewTo = d.slewTo := rfl
@[simp] theorem tick_ticks (d : Dev) : (d.tick).ticks = d.ticks := rfl
@[simp] theorem tick_latchAt (d : Dev) : (d.tick).latchAt = d.latchAt := rfl
@[simp] theorem tick_strobeSrc (d : Dev) : (d.tick).strobeSrc = d.strobeSrc := rfl
@[simp] theorem tick_raised (d : Dev) : (d.tick).raised = d.raised := rfl
@[simp] theorem tick_rewrites (d : Dev) : (d.tick).rewrites = d.rewrites := rfl
@[simp] theorem tick_evq (d : Dev) : (d.tick).evq = d.evq := rfl
@[simp] theorem tick_bus (d : Dev) : (d.tick).bus = d.bus := rfl
@[simp] theorem tick_answers (d : Dev) : (d.tick).answers = d.answers := rfl
@[simp] theorem tick_out (d : Dev) : (d.tick).out = d.out := rfl

@[simp] theorem setSt_fld (d : Dev) (s : Stores) : (d.setSt s).fld = d.fld := rfl
@[simp] theorem setSt_pairRd (d : Dev) (s : Stores) : (d.setSt s).pairRd = d.pairRd := rfl
@[simp] theorem setSt_pairWr (d : Dev) (s : Stores) : (d.setSt s).pairWr = d.pairWr := rfl
@[simp] theorem setSt_code (d : Dev) (s : Stores) : (d.setSt s).code = d.code := rfl
@[simp] theorem setSt_fab (d : Dev) (s : Stores) : (d.setSt s).fab = d.fab := rfl
@[simp] theorem setSt_clu (d : Dev) (s : Stores) : (d.setSt s).clu = d.clu := rfl
@[simp] theorem setSt_ptn (d : Dev) (s : Stores) : (d.setSt s).ptn = d.ptn := rfl
@[simp] theorem setSt_queue (d : Dev) (s : Stores) : (d.setSt s).queue = d.queue := rfl
@[simp] theorem setSt_dsp (d : Dev) (s : Stores) : (d.setSt s).dsp = d.dsp := rfl
@[simp] theorem setSt_hbm (d : Dev) (s : Stores) : (d.setSt s).hbm = d.hbm := rfl
@[simp] theorem setSt_ime (d : Dev) (s : Stores) : (d.setSt s).ime = d.ime := rfl
@[simp] theorem setSt_trg (d : Dev) (s : Stores) : (d.setSt s).trg = d.trg := rfl
@[simp] theorem setSt_cap (d : Dev) (s : Stores) : (d.setSt s).cap = d.cap := rfl
@[simp] theorem setSt_trc (d : Dev) (s : Stores) : (d.setSt s).trc = d.trc := rfl
@[simp] theorem setSt_nonce (d : Dev) (s : Stores) : (d.setSt s).nonce = d.nonce := rfl
@[simp] theorem setSt_link (d : Dev) (s : Stores) : (d.setSt s).link = d.link := rfl
@[simp] theorem setSt_noc (d : Dev) (s : Stores) : (d.setSt s).noc = d.noc := rfl
@[simp] theorem setSt_boot (d : Dev) (s : Stores) : (d.setSt s).boot = d.boot := rfl
@[simp] theorem setSt_pwr (d : Dev) (s : Stores) : (d.setSt s).pwr = d.pwr := rfl
@[simp] theorem setSt_ring (d : Dev) (s : Stores) : (d.setSt s).ring = d.ring := rfl
@[simp] theorem setSt_log (d : Dev) (s : Stores) : (d.setSt s).log = d.log := rfl
@[simp] theorem setSt_mnt (d : Dev) (s : Stores) : (d.setSt s).mnt = d.mnt := rfl
@[simp] theorem setSt_sys (d : Dev) (s : Stores) : (d.setSt s).sys = d.sys := rfl
@[simp] theorem setSt_time (d : Dev) (s : Stores) : (d.setSt s).time = d.time := rfl
@[simp] theorem setSt_slewTo (d : Dev) (s : Stores) : (d.setSt s).slewTo = d.slewTo := rfl
@[simp] theorem setSt_ticks (d : Dev) (s : Stores) : (d.setSt s).ticks = d.ticks := rfl
@[simp] theorem setSt_latchAt (d : Dev) (s : Stores) : (d.setSt s).latchAt = d.latchAt := rfl
@[simp] theorem setSt_strobeSrc (d : Dev) (s : Stores) : (d.setSt s).strobeSrc = d.strobeSrc := rfl
@[simp] theorem setSt_raised (d : Dev) (s : Stores) : (d.setSt s).raised = d.raised := rfl
@[simp] theorem setSt_rewrites (d : Dev) (s : Stores) : (d.setSt s).rewrites = d.rewrites := rfl
@[simp] theorem setSt_evq (d : Dev) (s : Stores) : (d.setSt s).evq = d.evq := rfl
@[simp] theorem setSt_bus (d : Dev) (s : Stores) : (d.setSt s).bus = d.bus := rfl
@[simp] theorem setSt_answers (d : Dev) (s : Stores) : (d.setSt s).answers = d.answers := rfl
@[simp] theorem setSt_out (d : Dev) (s : Stores) : (d.setSt s).out = d.out := rfl
@[simp] theorem setSt_fresh (d : Dev) (s : Stores) : (d.setSt s).fresh = d.fresh := rfl

@[simp] theorem setSt_st (d : Dev) (s : Stores) : (d.setSt s).st = s := rfl

/-! What each update leaves the readers alone with. -/

@[simp] theorem ptnAt_p (d : Dev) (base : Nat) (f : Fld) (v : Nat) (j : Nat) : (d.p base f v).ptnAt j = d.ptnAt j := rfl
@[simp] theorem cluAt_p (d : Dev) (base : Nat) (f : Fld) (v : Nat) (j : Nat) : (d.p base f v).cluAt j = d.cluAt j := rfl
@[simp] theorem queueAt_p (d : Dev) (base : Nat) (f : Fld) (v : Nat) (j : Nat) : (d.p base f v).queueAt j = d.queueAt j := rfl
@[simp] theorem linkAt_p (d : Dev) (base : Nat) (f : Fld) (v : Nat) (j : Nat) : (d.p base f v).linkAt j = d.linkAt j := rfl
@[simp] theorem chanAt_p (d : Dev) (base : Nat) (f : Fld) (v : Nat) (j : Nat) : (d.p base f v).chanAt j = d.chanAt j := rfl
@[simp] theorem strmAt_p (d : Dev) (base : Nat) (f : Fld) (v : Nat) (j : Nat) : (d.p base f v).strmAt j = d.strmAt j := rfl
@[simp] theorem courierAt_p (d : Dev) (base : Nat) (f : Fld) (v : Nat) (j : Nat) : (d.p base f v).courierAt j = d.courierAt j := rfl
@[simp] theorem listAt_p (d : Dev) (base : Nat) (f : Fld) (v : Nat) (j : Nat) : (d.p base f v).listAt j = d.listAt j := rfl
@[simp] theorem active_p (d : Dev) (base : Nat) (f : Fld) (v : Nat) : (d.p base f v).active = d.active := rfl
@[simp] theorem now_p (d : Dev) (base : Nat) (f : Fld) (v : Nat) : (d.p base f v).now = d.now := rfl

@[simp] theorem ptnAt_resetRange (d : Dev) (lo hi : Nat) (j : Nat) : (d.resetRange lo hi).ptnAt j = d.ptnAt j := rfl
@[simp] theorem cluAt_resetRange (d : Dev) (lo hi : Nat) (j : Nat) : (d.resetRange lo hi).cluAt j = d.cluAt j := rfl
@[simp] theorem queueAt_resetRange (d : Dev) (lo hi : Nat) (j : Nat) : (d.resetRange lo hi).queueAt j = d.queueAt j := rfl
@[simp] theorem linkAt_resetRange (d : Dev) (lo hi : Nat) (j : Nat) : (d.resetRange lo hi).linkAt j = d.linkAt j := rfl
@[simp] theorem chanAt_resetRange (d : Dev) (lo hi : Nat) (j : Nat) : (d.resetRange lo hi).chanAt j = d.chanAt j := rfl
@[simp] theorem strmAt_resetRange (d : Dev) (lo hi : Nat) (j : Nat) : (d.resetRange lo hi).strmAt j = d.strmAt j := rfl
@[simp] theorem courierAt_resetRange (d : Dev) (lo hi : Nat) (j : Nat) : (d.resetRange lo hi).courierAt j = d.courierAt j := rfl
@[simp] theorem listAt_resetRange (d : Dev) (lo hi : Nat) (j : Nat) : (d.resetRange lo hi).listAt j = d.listAt j := rfl
@[simp] theorem active_resetRange (d : Dev) (lo hi : Nat) : (d.resetRange lo hi).active = d.active := rfl
@[simp] theorem now_resetRange (d : Dev) (lo hi : Nat) : (d.resetRange lo hi).now = d.now := rfl

@[simp] theorem g_emit (d : Dev) (o : Out) (b0 : Nat) (f0 : Fld) : (d.emit o).g b0 f0 = d.g b0 f0 := rfl
@[simp] theorem b_emit (d : Dev) (o : Out) (b0 : Nat) (f0 : Fld) : (d.emit o).b b0 f0 = d.b b0 f0 := rfl
@[simp] theorem ptnAt_emit (d : Dev) (o : Out) (j : Nat) : (d.emit o).ptnAt j = d.ptnAt j := rfl
@[simp] theorem cluAt_emit (d : Dev) (o : Out) (j : Nat) : (d.emit o).cluAt j = d.cluAt j := rfl
@[simp] theorem queueAt_emit (d : Dev) (o : Out) (j : Nat) : (d.emit o).queueAt j = d.queueAt j := rfl
@[simp] theorem linkAt_emit (d : Dev) (o : Out) (j : Nat) : (d.emit o).linkAt j = d.linkAt j := rfl
@[simp] theorem chanAt_emit (d : Dev) (o : Out) (j : Nat) : (d.emit o).chanAt j = d.chanAt j := rfl
@[simp] theorem strmAt_emit (d : Dev) (o : Out) (j : Nat) : (d.emit o).strmAt j = d.strmAt j := rfl
@[simp] theorem courierAt_emit (d : Dev) (o : Out) (j : Nat) : (d.emit o).courierAt j = d.courierAt j := rfl
@[simp] theorem listAt_emit (d : Dev) (o : Out) (j : Nat) : (d.emit o).listAt j = d.listAt j := rfl
@[simp] theorem active_emit (d : Dev) (o : Out) : (d.emit o).active = d.active := rfl
@[simp] theorem now_emit (d : Dev) (o : Out) : (d.emit o).now = d.now := rfl

@[simp] theorem g_setClu (d : Dev) (n : Nat) (x : Clu) (b0 : Nat) (f0 : Fld) : (d.setClu n x).g b0 f0 = d.g b0 f0 := rfl
@[simp] theorem b_setClu (d : Dev) (n : Nat) (x : Clu) (b0 : Nat) (f0 : Fld) : (d.setClu n x).b b0 f0 = d.b b0 f0 := rfl
@[simp] theorem ptnAt_setClu (d : Dev) (n : Nat) (x : Clu) (j : Nat) : (d.setClu n x).ptnAt j = d.ptnAt j := rfl
@[simp] theorem queueAt_setClu (d : Dev) (n : Nat) (x : Clu) (j : Nat) : (d.setClu n x).queueAt j = d.queueAt j := rfl
@[simp] theorem linkAt_setClu (d : Dev) (n : Nat) (x : Clu) (j : Nat) : (d.setClu n x).linkAt j = d.linkAt j := rfl
@[simp] theorem chanAt_setClu (d : Dev) (n : Nat) (x : Clu) (j : Nat) : (d.setClu n x).chanAt j = d.chanAt j := rfl
@[simp] theorem strmAt_setClu (d : Dev) (n : Nat) (x : Clu) (j : Nat) : (d.setClu n x).strmAt j = d.strmAt j := rfl
@[simp] theorem courierAt_setClu (d : Dev) (n : Nat) (x : Clu) (j : Nat) : (d.setClu n x).courierAt j = d.courierAt j := rfl
@[simp] theorem listAt_setClu (d : Dev) (n : Nat) (x : Clu) (j : Nat) : (d.setClu n x).listAt j = d.listAt j := rfl
@[simp] theorem active_setClu (d : Dev) (n : Nat) (x : Clu) : (d.setClu n x).active = d.active := rfl
@[simp] theorem now_setClu (d : Dev) (n : Nat) (x : Clu) : (d.setClu n x).now = d.now := rfl

@[simp] theorem g_setPtn (d : Dev) (i : Nat) (x : Ptn) (b0 : Nat) (f0 : Fld) : (d.setPtn i x).g b0 f0 = d.g b0 f0 := rfl
@[simp] theorem b_setPtn (d : Dev) (i : Nat) (x : Ptn) (b0 : Nat) (f0 : Fld) : (d.setPtn i x).b b0 f0 = d.b b0 f0 := rfl
@[simp] theorem cluAt_setPtn (d : Dev) (i : Nat) (x : Ptn) (j : Nat) : (d.setPtn i x).cluAt j = d.cluAt j := rfl
@[simp] theorem queueAt_setPtn (d : Dev) (i : Nat) (x : Ptn) (j : Nat) : (d.setPtn i x).queueAt j = d.queueAt j := rfl
@[simp] theorem linkAt_setPtn (d : Dev) (i : Nat) (x : Ptn) (j : Nat) : (d.setPtn i x).linkAt j = d.linkAt j := rfl
@[simp] theorem chanAt_setPtn (d : Dev) (i : Nat) (x : Ptn) (j : Nat) : (d.setPtn i x).chanAt j = d.chanAt j := rfl
@[simp] theorem strmAt_setPtn (d : Dev) (i : Nat) (x : Ptn) (j : Nat) : (d.setPtn i x).strmAt j = d.strmAt j := rfl
@[simp] theorem courierAt_setPtn (d : Dev) (i : Nat) (x : Ptn) (j : Nat) : (d.setPtn i x).courierAt j = d.courierAt j := rfl
@[simp] theorem listAt_setPtn (d : Dev) (i : Nat) (x : Ptn) (j : Nat) : (d.setPtn i x).listAt j = d.listAt j := rfl
@[simp] theorem active_setPtn (d : Dev) (i : Nat) (x : Ptn) : (d.setPtn i x).active = d.active := rfl
@[simp] theorem now_setPtn (d : Dev) (i : Nat) (x : Ptn) : (d.setPtn i x).now = d.now := rfl

@[simp] theorem g_setQueue (d : Dev) (i : Nat) (x : Queue) (b0 : Nat) (f0 : Fld) : (d.setQueue i x).g b0 f0 = d.g b0 f0 := rfl
@[simp] theorem b_setQueue (d : Dev) (i : Nat) (x : Queue) (b0 : Nat) (f0 : Fld) : (d.setQueue i x).b b0 f0 = d.b b0 f0 := rfl
@[simp] theorem ptnAt_setQueue (d : Dev) (i : Nat) (x : Queue) (j : Nat) : (d.setQueue i x).ptnAt j = d.ptnAt j := rfl
@[simp] theorem cluAt_setQueue (d : Dev) (i : Nat) (x : Queue) (j : Nat) : (d.setQueue i x).cluAt j = d.cluAt j := rfl
@[simp] theorem linkAt_setQueue (d : Dev) (i : Nat) (x : Queue) (j : Nat) : (d.setQueue i x).linkAt j = d.linkAt j := rfl
@[simp] theorem chanAt_setQueue (d : Dev) (i : Nat) (x : Queue) (j : Nat) : (d.setQueue i x).chanAt j = d.chanAt j := rfl
@[simp] theorem strmAt_setQueue (d : Dev) (i : Nat) (x : Queue) (j : Nat) : (d.setQueue i x).strmAt j = d.strmAt j := rfl
@[simp] theorem courierAt_setQueue (d : Dev) (i : Nat) (x : Queue) (j : Nat) : (d.setQueue i x).courierAt j = d.courierAt j := rfl
@[simp] theorem listAt_setQueue (d : Dev) (i : Nat) (x : Queue) (j : Nat) : (d.setQueue i x).listAt j = d.listAt j := rfl
@[simp] theorem active_setQueue (d : Dev) (i : Nat) (x : Queue) : (d.setQueue i x).active = d.active := rfl
@[simp] theorem now_setQueue (d : Dev) (i : Nat) (x : Queue) : (d.setQueue i x).now = d.now := rfl

@[simp] theorem g_setLink (d : Dev) (i : Nat) (x : Link) (b0 : Nat) (f0 : Fld) : (d.setLink i x).g b0 f0 = d.g b0 f0 := rfl
@[simp] theorem b_setLink (d : Dev) (i : Nat) (x : Link) (b0 : Nat) (f0 : Fld) : (d.setLink i x).b b0 f0 = d.b b0 f0 := rfl
@[simp] theorem ptnAt_setLink (d : Dev) (i : Nat) (x : Link) (j : Nat) : (d.setLink i x).ptnAt j = d.ptnAt j := rfl
@[simp] theorem cluAt_setLink (d : Dev) (i : Nat) (x : Link) (j : Nat) : (d.setLink i x).cluAt j = d.cluAt j := rfl
@[simp] theorem queueAt_setLink (d : Dev) (i : Nat) (x : Link) (j : Nat) : (d.setLink i x).queueAt j = d.queueAt j := rfl
@[simp] theorem chanAt_setLink (d : Dev) (i : Nat) (x : Link) (j : Nat) : (d.setLink i x).chanAt j = d.chanAt j := rfl
@[simp] theorem strmAt_setLink (d : Dev) (i : Nat) (x : Link) (j : Nat) : (d.setLink i x).strmAt j = d.strmAt j := rfl
@[simp] theorem courierAt_setLink (d : Dev) (i : Nat) (x : Link) (j : Nat) : (d.setLink i x).courierAt j = d.courierAt j := rfl
@[simp] theorem listAt_setLink (d : Dev) (i : Nat) (x : Link) (j : Nat) : (d.setLink i x).listAt j = d.listAt j := rfl
@[simp] theorem active_setLink (d : Dev) (i : Nat) (x : Link) : (d.setLink i x).active = d.active := rfl
@[simp] theorem now_setLink (d : Dev) (i : Nat) (x : Link) : (d.setLink i x).now = d.now := rfl

@[simp] theorem g_setChan (d : Dev) (i : Nat) (x : Chan) (b0 : Nat) (f0 : Fld) : (d.setChan i x).g b0 f0 = d.g b0 f0 := rfl
@[simp] theorem b_setChan (d : Dev) (i : Nat) (x : Chan) (b0 : Nat) (f0 : Fld) : (d.setChan i x).b b0 f0 = d.b b0 f0 := rfl
@[simp] theorem ptnAt_setChan (d : Dev) (i : Nat) (x : Chan) (j : Nat) : (d.setChan i x).ptnAt j = d.ptnAt j := rfl
@[simp] theorem cluAt_setChan (d : Dev) (i : Nat) (x : Chan) (j : Nat) : (d.setChan i x).cluAt j = d.cluAt j := rfl
@[simp] theorem queueAt_setChan (d : Dev) (i : Nat) (x : Chan) (j : Nat) : (d.setChan i x).queueAt j = d.queueAt j := rfl
@[simp] theorem linkAt_setChan (d : Dev) (i : Nat) (x : Chan) (j : Nat) : (d.setChan i x).linkAt j = d.linkAt j := rfl
@[simp] theorem strmAt_setChan (d : Dev) (i : Nat) (x : Chan) (j : Nat) : (d.setChan i x).strmAt j = d.strmAt j := rfl
@[simp] theorem courierAt_setChan (d : Dev) (i : Nat) (x : Chan) (j : Nat) : (d.setChan i x).courierAt j = d.courierAt j := rfl
@[simp] theorem listAt_setChan (d : Dev) (i : Nat) (x : Chan) (j : Nat) : (d.setChan i x).listAt j = d.listAt j := rfl
@[simp] theorem active_setChan (d : Dev) (i : Nat) (x : Chan) : (d.setChan i x).active = d.active := rfl
@[simp] theorem now_setChan (d : Dev) (i : Nat) (x : Chan) : (d.setChan i x).now = d.now := rfl

@[simp] theorem g_setStrm (d : Dev) (i : Nat) (x : Strm) (b0 : Nat) (f0 : Fld) : (d.setStrm i x).g b0 f0 = d.g b0 f0 := rfl
@[simp] theorem b_setStrm (d : Dev) (i : Nat) (x : Strm) (b0 : Nat) (f0 : Fld) : (d.setStrm i x).b b0 f0 = d.b b0 f0 := rfl
@[simp] theorem ptnAt_setStrm (d : Dev) (i : Nat) (x : Strm) (j : Nat) : (d.setStrm i x).ptnAt j = d.ptnAt j := rfl
@[simp] theorem cluAt_setStrm (d : Dev) (i : Nat) (x : Strm) (j : Nat) : (d.setStrm i x).cluAt j = d.cluAt j := rfl
@[simp] theorem queueAt_setStrm (d : Dev) (i : Nat) (x : Strm) (j : Nat) : (d.setStrm i x).queueAt j = d.queueAt j := rfl
@[simp] theorem linkAt_setStrm (d : Dev) (i : Nat) (x : Strm) (j : Nat) : (d.setStrm i x).linkAt j = d.linkAt j := rfl
@[simp] theorem chanAt_setStrm (d : Dev) (i : Nat) (x : Strm) (j : Nat) : (d.setStrm i x).chanAt j = d.chanAt j := rfl
@[simp] theorem courierAt_setStrm (d : Dev) (i : Nat) (x : Strm) (j : Nat) : (d.setStrm i x).courierAt j = d.courierAt j := rfl
@[simp] theorem listAt_setStrm (d : Dev) (i : Nat) (x : Strm) (j : Nat) : (d.setStrm i x).listAt j = d.listAt j := rfl
@[simp] theorem active_setStrm (d : Dev) (i : Nat) (x : Strm) : (d.setStrm i x).active = d.active := rfl
@[simp] theorem now_setStrm (d : Dev) (i : Nat) (x : Strm) : (d.setStrm i x).now = d.now := rfl

@[simp] theorem g_setCourier (d : Dev) (i : Nat) (x : Courier) (b0 : Nat) (f0 : Fld) : (d.setCourier i x).g b0 f0 = d.g b0 f0 := rfl
@[simp] theorem b_setCourier (d : Dev) (i : Nat) (x : Courier) (b0 : Nat) (f0 : Fld) : (d.setCourier i x).b b0 f0 = d.b b0 f0 := rfl
@[simp] theorem ptnAt_setCourier (d : Dev) (i : Nat) (x : Courier) (j : Nat) : (d.setCourier i x).ptnAt j = d.ptnAt j := rfl
@[simp] theorem cluAt_setCourier (d : Dev) (i : Nat) (x : Courier) (j : Nat) : (d.setCourier i x).cluAt j = d.cluAt j := rfl
@[simp] theorem queueAt_setCourier (d : Dev) (i : Nat) (x : Courier) (j : Nat) : (d.setCourier i x).queueAt j = d.queueAt j := rfl
@[simp] theorem linkAt_setCourier (d : Dev) (i : Nat) (x : Courier) (j : Nat) : (d.setCourier i x).linkAt j = d.linkAt j := rfl
@[simp] theorem chanAt_setCourier (d : Dev) (i : Nat) (x : Courier) (j : Nat) : (d.setCourier i x).chanAt j = d.chanAt j := rfl
@[simp] theorem strmAt_setCourier (d : Dev) (i : Nat) (x : Courier) (j : Nat) : (d.setCourier i x).strmAt j = d.strmAt j := rfl
@[simp] theorem active_setCourier (d : Dev) (i : Nat) (x : Courier) : (d.setCourier i x).active = d.active := rfl
@[simp] theorem now_setCourier (d : Dev) (i : Nat) (x : Courier) : (d.setCourier i x).now = d.now := rfl

@[simp] theorem g_setList (d : Dev) (i : Nat) (x : List Work) (b0 : Nat) (f0 : Fld) : (d.setList i x).g b0 f0 = d.g b0 f0 := rfl
@[simp] theorem b_setList (d : Dev) (i : Nat) (x : List Work) (b0 : Nat) (f0 : Fld) : (d.setList i x).b b0 f0 = d.b b0 f0 := rfl
@[simp] theorem ptnAt_setList (d : Dev) (i : Nat) (x : List Work) (j : Nat) : (d.setList i x).ptnAt j = d.ptnAt j := rfl
@[simp] theorem cluAt_setList (d : Dev) (i : Nat) (x : List Work) (j : Nat) : (d.setList i x).cluAt j = d.cluAt j := rfl
@[simp] theorem queueAt_setList (d : Dev) (i : Nat) (x : List Work) (j : Nat) : (d.setList i x).queueAt j = d.queueAt j := rfl
@[simp] theorem linkAt_setList (d : Dev) (i : Nat) (x : List Work) (j : Nat) : (d.setList i x).linkAt j = d.linkAt j := rfl
@[simp] theorem chanAt_setList (d : Dev) (i : Nat) (x : List Work) (j : Nat) : (d.setList i x).chanAt j = d.chanAt j := rfl
@[simp] theorem strmAt_setList (d : Dev) (i : Nat) (x : List Work) (j : Nat) : (d.setList i x).strmAt j = d.strmAt j := rfl
@[simp] theorem active_setList (d : Dev) (i : Nat) (x : List Work) : (d.setList i x).active = d.active := rfl
@[simp] theorem now_setList (d : Dev) (i : Nat) (x : List Work) : (d.setList i x).now = d.now := rfl

@[simp] theorem g_raise (d : Dev) (num cls owner i0 i1 : Nat) (b0 : Nat) (f0 : Fld) : (d.raise num cls owner i0 i1).g b0 f0 = d.g b0 f0 := rfl
@[simp] theorem b_raise (d : Dev) (num cls owner i0 i1 : Nat) (b0 : Nat) (f0 : Fld) : (d.raise num cls owner i0 i1).b b0 f0 = d.b b0 f0 := rfl
@[simp] theorem ptnAt_raise (d : Dev) (num cls owner i0 i1 : Nat) (j : Nat) : (d.raise num cls owner i0 i1).ptnAt j = d.ptnAt j := rfl
@[simp] theorem cluAt_raise (d : Dev) (num cls owner i0 i1 : Nat) (j : Nat) : (d.raise num cls owner i0 i1).cluAt j = d.cluAt j := rfl
@[simp] theorem queueAt_raise (d : Dev) (num cls owner i0 i1 : Nat) (j : Nat) : (d.raise num cls owner i0 i1).queueAt j = d.queueAt j := rfl
@[simp] theorem linkAt_raise (d : Dev) (num cls owner i0 i1 : Nat) (j : Nat) : (d.raise num cls owner i0 i1).linkAt j = d.linkAt j := rfl
@[simp] theorem chanAt_raise (d : Dev) (num cls owner i0 i1 : Nat) (j : Nat) : (d.raise num cls owner i0 i1).chanAt j = d.chanAt j := rfl
@[simp] theorem strmAt_raise (d : Dev) (num cls owner i0 i1 : Nat) (j : Nat) : (d.raise num cls owner i0 i1).strmAt j = d.strmAt j := rfl
@[simp] theorem courierAt_raise (d : Dev) (num cls owner i0 i1 : Nat) (j : Nat) : (d.raise num cls owner i0 i1).courierAt j = d.courierAt j := rfl
@[simp] theorem listAt_raise (d : Dev) (num cls owner i0 i1 : Nat) (j : Nat) : (d.raise num cls owner i0 i1).listAt j = d.listAt j := rfl
@[simp] theorem active_raise (d : Dev) (num cls owner i0 i1 : Nat) : (d.raise num cls owner i0 i1).active = d.active := rfl
@[simp] theorem now_raise (d : Dev) (num cls owner i0 i1 : Nat) : (d.raise num cls owner i0 i1).now = d.now := rfl

@[simp] theorem g_tick (d : Dev) (b0 : Nat) (f0 : Fld) : (d.tick).g b0 f0 = d.g b0 f0 := rfl
@[simp] theorem b_tick (d : Dev) (b0 : Nat) (f0 : Fld) : (d.tick).b b0 f0 = d.b b0 f0 := rfl
@[simp] theorem ptnAt_tick (d : Dev) (j : Nat) : (d.tick).ptnAt j = d.ptnAt j := rfl
@[simp] theorem cluAt_tick (d : Dev) (j : Nat) : (d.tick).cluAt j = d.cluAt j := rfl
@[simp] theorem queueAt_tick (d : Dev) (j : Nat) : (d.tick).queueAt j = d.queueAt j := rfl
@[simp] theorem linkAt_tick (d : Dev) (j : Nat) : (d.tick).linkAt j = d.linkAt j := rfl
@[simp] theorem chanAt_tick (d : Dev) (j : Nat) : (d.tick).chanAt j = d.chanAt j := rfl
@[simp] theorem strmAt_tick (d : Dev) (j : Nat) : (d.tick).strmAt j = d.strmAt j := rfl
@[simp] theorem courierAt_tick (d : Dev) (j : Nat) : (d.tick).courierAt j = d.courierAt j := rfl
@[simp] theorem listAt_tick (d : Dev) (j : Nat) : (d.tick).listAt j = d.listAt j := rfl
@[simp] theorem active_tick (d : Dev) : (d.tick).active = d.active := rfl
@[simp] theorem now_tick (d : Dev) : (d.tick).now = d.now := rfl

@[simp] theorem g_setSt (d : Dev) (s : Stores) (b0 : Nat) (f0 : Fld) : (d.setSt s).g b0 f0 = d.g b0 f0 := rfl
@[simp] theorem b_setSt (d : Dev) (s : Stores) (b0 : Nat) (f0 : Fld) : (d.setSt s).b b0 f0 = d.b b0 f0 := rfl
@[simp] theorem ptnAt_setSt (d : Dev) (s : Stores) (j : Nat) : (d.setSt s).ptnAt j = d.ptnAt j := rfl
@[simp] theorem cluAt_setSt (d : Dev) (s : Stores) (j : Nat) : (d.setSt s).cluAt j = d.cluAt j := rfl
@[simp] theorem queueAt_setSt (d : Dev) (s : Stores) (j : Nat) : (d.setSt s).queueAt j = d.queueAt j := rfl
@[simp] theorem linkAt_setSt (d : Dev) (s : Stores) (j : Nat) : (d.setSt s).linkAt j = d.linkAt j := rfl
@[simp] theorem chanAt_setSt (d : Dev) (s : Stores) (j : Nat) : (d.setSt s).chanAt j = d.chanAt j := rfl
@[simp] theorem strmAt_setSt (d : Dev) (s : Stores) (j : Nat) : (d.setSt s).strmAt j = d.strmAt j := rfl
@[simp] theorem courierAt_setSt (d : Dev) (s : Stores) (j : Nat) : (d.setSt s).courierAt j = d.courierAt j := rfl
@[simp] theorem listAt_setSt (d : Dev) (s : Stores) (j : Nat) : (d.setSt s).listAt j = d.listAt j := rfl
@[simp] theorem active_setSt (d : Dev) (s : Stores) : (d.setSt s).active = d.active := rfl
@[simp] theorem now_setSt (d : Dev) (s : Stores) : (d.setSt s).now = d.now := rfl

/-! The derived updates are those updates. -/

theorem modPtn_def (d : Dev) (i : Nat) (f : Ptn → Ptn) : d.modPtn i f = d.setPtn i (f (d.ptnAt i)) := rfl
theorem modClu_def (d : Dev) (i : Nat) (f : Clu → Clu) : d.modClu i f = d.setClu i (f (d.cluAt i)) := rfl
theorem modQueue_def (d : Dev) (i : Nat) (f : Queue → Queue) : d.modQueue i f = d.setQueue i (f (d.queueAt i)) := rfl
theorem modLink_def (d : Dev) (i : Nat) (f : Link → Link) : d.modLink i f = d.setLink i (f (d.linkAt i)) := rfl
theorem modChan_def (d : Dev) (i : Nat) (f : Chan → Chan) : d.modChan i f = d.setChan i (f (d.chanAt i)) := rfl
theorem modStrm_def (d : Dev) (i : Nat) (f : Strm → Strm) : d.modStrm i f = d.setStrm i (f (d.strmAt i)) := rfl
@[simp] theorem on_def (d : Dev) (base : Nat) (f : Fld) : d.on base f = d.p base f 1 := rfl
@[simp] theorem clr_def (d : Dev) (base : Nat) (f : Fld) : d.clr base f = d.p base f f.rst := rfl
@[simp] theorem add_def (d : Dev) (base : Nat) (f : Fld) (n : Nat) : d.add base f n = d.p base f (satAdd f.w (d.g base f) n) := rfl
@[simp] theorem each_nil {α : Type} (d : Dev) (f : Dev → α → Dev) : d.each [] f = d := rfl
@[simp] theorem each_cons {α : Type} (d : Dev) (x : α) (xs : List α) (f : Dev → α → Dev) : d.each (x :: xs) f = (f d x).each xs f := rfl
@[simp] theorem iff_true (d : Dev) (f : Dev → Dev) : d.iff true f = f d := rfl
@[simp] theorem iff_false (d : Dev) (f : Dev → Dev) : d.iff false f = d := rfl

end Sys2Proof.Machine.Dev
end

