-- ==== Sys2Proof/Laws/Ops.lean ====
section
/-! SUPPORT. What the shared operations do: register fields, per-number records, the wrappers of the commands. -/

namespace Sys2Proof.Machine
namespace Dev

set_option Elab.async false

/-! A field holds what was written, in its width; fields at other bit addresses keep their values (R7, R12). -/

theorem g_p_self (d : Dev) (base : Nat) (f : Fld) (v : Nat) : (d.p base f v).g base f = v % 2 ^ f.w := by
  simp only [g, p]; exact SMap.get_set_self _ _ _ _

theorem g_p_ne (d : Dev) (base base' : Nat) (f f' : Fld) (v : Nat) (h : 8 * base' + f'.bit ≠ 8 * base + f.bit) :
    (d.p base f v).g base' f' = d.g base' f' := by
  simp only [g, p, SMap.get]
  have := SMap.get_set_ne f.rst d.fld (8 * base + f.bit) (8 * base' + f'.bit) (v % 2 ^ f.w) h
  unfold SMap.set
  split
  · rw [SMap.get?_del]; simp [h]
  · rw [SMap.get?_put_ne _ _ _ _ h]

/-- Fields of one page at different bit addresses: `simp (decide := true) only [g_p_same]` applies it to named fields. -/
theorem g_p_same (d : Dev) (base : Nat) (f f' : Fld) (v : Nat) (h : f'.bit ≠ f.bit) : (d.p base f v).g base f' = d.g base f' :=
  g_p_ne _ _ _ _ _ _ (by omega)

theorem g_congr {d d' : Dev} (h : d'.fld = d.fld) (base : Nat) (f : Fld) : d'.g base f = d.g base f := by simp only [g, h]

/-! Records kept by number. -/

theorem ptnAt_setPtn_self (d : Dev) (i : Nat) (x : Ptn) : (d.setPtn i x).ptnAt i = x := SMap.get_set_self _ _ _ _
theorem ptnAt_setPtn_ne (d : Dev) (i j : Nat) (x : Ptn) (h : j ≠ i) : (d.setPtn i x).ptnAt j = d.ptnAt j := SMap.get_set_ne _ _ _ _ _ h
theorem queueAt_setQueue_self (d : Dev) (i : Nat) (x : Queue) : (d.setQueue i x).queueAt i = x := SMap.get_set_self _ _ _ _
theorem queueAt_setQueue_ne (d : Dev) (i j : Nat) (x : Queue) (h : j ≠ i) : (d.setQueue i x).queueAt j = d.queueAt j := SMap.get_set_ne _ _ _ _ _ h
theorem cluAt_setClu_self (d : Dev) (i : Nat) (x : Clu) : (d.setClu i x).cluAt i = x := SMap.get_set_self _ _ _ _
theorem cluAt_setClu_ne (d : Dev) (i j : Nat) (x : Clu) (h : j ≠ i) : (d.setClu i x).cluAt j = d.cluAt j := SMap.get_set_ne _ _ _ _ _ h
theorem linkAt_setLink_self (d : Dev) (i : Nat) (x : Link) : (d.setLink i x).linkAt i = x := SMap.get_set_self _ _ _ _
theorem linkAt_setLink_ne (d : Dev) (i j : Nat) (x : Link) (h : j ≠ i) : (d.setLink i x).linkAt j = d.linkAt j := SMap.get_set_ne _ _ _ _ _ h
theorem chanAt_setChan_self (d : Dev) (i : Nat) (x : Chan) : (d.setChan i x).chanAt i = x := SMap.get_set_self _ _ _ _
theorem chanAt_setChan_ne (d : Dev) (i j : Nat) (x : Chan) (h : j ≠ i) : (d.setChan i x).chanAt j = d.chanAt j := SMap.get_set_ne _ _ _ _ _ h
theorem strmAt_setStrm_self (d : Dev) (i : Nat) (x : Strm) : (d.setStrm i x).strmAt i = x := SMap.get_set_self _ _ _ _
theorem strmAt_setStrm_ne (d : Dev) (i j : Nat) (x : Strm) (h : j ≠ i) : (d.setStrm i x).strmAt j = d.strmAt j := SMap.get_set_ne _ _ _ _ _ h
theorem listAt_setList_self (d : Dev) (i : Nat) (x : List Work) : (d.setList i x).listAt i = x := SMap.get_set_self _ _ _ _

/-! A property that every member's step keeps is kept by the whole list. -/

theorem each_keeps {α : Type} (P : Dev → Prop) (f : Dev → α → Dev) (h : ∀ d a, P d → P (f d a)) (xs : List α) (d : Dev) (hd : P d) :
    P (d.each xs f) := by
  induction xs generalizing d with
  | nil => exact hd
  | cons a xs ih => exact ih (f d a) (h d a hd)

theorem iff_keeps (P : Dev → Prop) (c : Bool) (f : Dev → Dev) (h : ∀ d, P d → P (f d)) (d : Dev) (hd : P d) : P (d.iff c f) := by
  unfold iff; split
  · exact h d hd
  · exact hd

/-- What every member's step leaves alone, the whole list leaves alone. -/
theorem each_proj {α β : Type} (π : Dev → β) (f : Dev → α → Dev) (h : ∀ d a, π (f d a) = π d) (xs : List α) (d : Dev) :
    π (d.each xs f) = π d := by
  induction xs generalizing d with
  | nil => rfl
  | cons a xs ih => exact (ih (f d a)).trans (h d a)

/-! Control messages go out over the links and change nothing else. -/

theorem controlPtn_proj {β : Type} (π : Dev → β) (h : ∀ d o, π (emit d o) = π d) (hl : ∀ d i x, π (setLink d i x) = π d) (d : Dev)
    (i kind body : Nat) : π (d.controlPtn i kind body) = π d :=
  each_proj π _ (fun d a => by split <;> simp [control, modLink_def, h, hl]) _ _

theorem passOn_proj {β : Type} (π : Dev → β) (h : ∀ d o, π (emit d o) = π d) (hl : ∀ d i x, π (setLink d i x) = π d) (d : Dev)
    (i gi kind body : Nat) : π (d.passOn i gi kind body) = π d :=
  each_proj π _ (fun d a => by split <;> simp [control, modLink_def, h, hl]) _ _

@[simp] theorem ptnAt_controlPtn (d : Dev) (i kind body j : Nat) : (d.controlPtn i kind body).ptnAt j = d.ptnAt j :=
  controlPtn_proj (·.ptnAt j) (fun _ _ => rfl) (fun _ _ _ => rfl) _ _ _ _
@[simp] theorem ptnAt_passOn (d : Dev) (i gi kind body j : Nat) : (d.passOn i gi kind body).ptnAt j = d.ptnAt j :=
  passOn_proj (·.ptnAt j) (fun _ _ => rfl) (fun _ _ _ => rfl) _ _ _ _ _

/-! Taking a service command from queue 0 changes nothing but that queue. -/

theorem takeService_proj {β : Type} (π : Dev → β) (h : ∀ d q x, π (setQueue d q x) = π d) (d : Dev) (op tag arg : Nat) (ws : List W64) :
    π (d.takeService op tag arg ws) = π d := by
  simp only [takeService]; split <;> simp [h]
@[simp] theorem takeService_fld (d : Dev) (op tag arg : Nat) (ws : List W64) : (d.takeService op tag arg ws).fld = d.fld :=
  takeService_proj (·.fld) (fun _ _ _ => rfl) _ _ _ _ _
@[simp] theorem takeService_mnt (d : Dev) (op tag arg : Nat) (ws : List W64) : (d.takeService op tag arg ws).mnt = d.mnt :=
  takeService_proj (·.mnt) (fun _ _ _ => rfl) _ _ _ _ _
@[simp] theorem ptnAt_takeService (d : Dev) (op tag arg : Nat) (ws : List W64) (j : Nat) : (d.takeService op tag arg ws).ptnAt j = d.ptnAt j :=
  takeService_proj (·.ptnAt j) (fun _ _ _ => rfl) _ _ _ _ _
@[simp] theorem g_takeService (d : Dev) (op tag arg : Nat) (ws : List W64) (b : Nat) (f : Fld) : (d.takeService op tag arg ws).g b f = d.g b f :=
  takeService_proj (·.g b f) (fun _ _ _ => rfl) _ _ _ _ _
@[simp] theorem dirState_takeService (d : Dev) (op tag arg : Nat) (ws : List W64) (i : Nat) : (d.takeService op tag arg ws).dirState i = d.dirState i :=
  takeService_proj (·.dirState i) (fun _ _ _ => rfl) _ _ _ _ _
@[simp] theorem clustersTaken_takeService (d : Dev) (op tag arg : Nat) (ws : List W64) (i m : Nat) :
    (d.takeService op tag arg ws).clustersTaken i m = d.clustersTaken i m := takeService_proj (·.clustersTaken i m) (fun _ _ _ => rfl) _ _ _ _ _
@[simp] theorem queuesTaken_takeService (d : Dev) (op tag arg : Nat) (ws : List W64) (i m n : Nat) :
    (d.takeService op tag arg ws).queuesTaken i m n = d.queuesTaken i m n := takeService_proj (·.queuesTaken i m n) (fun _ _ _ => rfl) _ _ _ _ _

/-! Where the PF is served. -/

theorem reach_pf (d : Dev) (h : d.Host) (base : Nat) (hp : pageExists base = true) : d.reach .pf base = .yes := by
  obtain ⟨⟨ha, hf⟩, hr⟩ := h
  unfold reach; rw [ha, hr]; simp [hp, hf]

/-- A host access arrives where the network joins host and endpoint. -/
theorem viaNoc_linked (d : Dev) (fn : Fn) (h : Option Nat) (bar off : Nat) (w : Bool) (fail k : Dev → Dev) (hl : d.Linked h) :
    d.viaNoc fn h bar off w fail k = k d := by
  simp [viaNoc, hl.1, hl.2]

theorem viaFence_linked (d : Dev) (fn : Fn) (h : Option Nat) (off : Nat) (w : Bool) (fail k : Dev → Dev) (hl : d.Linked h)
    (hn : ∀ n, h = some n → n < 0x40 → d.niState n = 0) : d.viaFence fn h off w fail k = k d := by
  rw [viaFence, viaNoc_linked d fn h 0 off w _ _ hl]
  cases h with
  | none => rfl
  | some n =>
    by_cases c : n < 0x40
    · simp [hn n rfl c]
    · simp [c]

/-- The answer to a host access that came over the network as it stands is its value. -/
theorem answerAt_heard (d : Dev) (fn : Fn) (a ones v : Nat) (h : d.heard (pageHome (a / 0x1000 * 0x1000)) = true) : d.answerAt fn a ones v = (d, v) := by
  simp [answerAt, h]

theorem reply_heard (d : Dev) (fn : Fn) (a v : Nat) (h : d.heard (pageHome (a / 0x1000 * 0x1000)) = true) : d.reply fn a v = d.complete fn a v := by
  simp [reply, answerAt_heard d fn a _ v h]

theorem reply64_heard (d : Dev) (fn : Fn) (a v : Nat) (h : d.heard (pageHome (a / 0x1000 * 0x1000)) = true) : d.reply64 fn a v = d.complete fn a v := by
  simp [reply64, answerAt_heard d fn a _ v h]

/-- No page of the hub stands behind a cluster's interface. -/
theorem pageHome_hub (base n : Nat) (hb : base < 0x100000) (h : pageHome base = some n) : 0x40 ≤ n := by
  have e : cluOf base = none := by unfold cluOf; rw [if_neg]; simp; omega
  unfold pageHome at h; rw [e] at h; dsimp only at h
  split at h
  · cases h
  · split at h
    · cases h; omega
    · split at h <;> (cases h; omega)

theorem atCluster_serves (d : Dev) (n a : Nat) (w : Bool) (k : Dev → Dev) (h : d.Serves n) (lo : 0x100000 ≤ a) (hi : a < 0x500000) :
    d.atCluster .pf n a w k = k d := by
  have e : pageExists (a / 0x1000 * 0x1000) = true := by simp [pageExists]; omega
  obtain ⟨hh, hn, ha, hb⟩ := h
  rw [atCluster, reach_pf d hh _ e]
  exact viaFence_linked d .pf (some n) _ w _ k ⟨ha, hb⟩ fun m hm _ => by cases hm; exact hn

theorem atPage_serves (d : Dev) (base : Nat) (k : Dev → Dev) (h : d.Host) (hp : pageExists base = true) : d.atPage base k = k d := by
  simp [atPage, reach_pf d h base hp]

/-! A device on which nothing waits is settled as it is. -/

theorem each_filter_none {α : Type} (xs : List α) (c : α → Bool) (h : xs.all (fun e => !c e) = true) (d : Dev) (f : Dev → α → Dev) :
    d.each (xs.filter c) f = d := by
  have : xs.filter c = [] := by
    simp only [List.filter_eq_nil_iff]
    intro a ha; simp only [List.all_eq_true] at h; simpa using h a ha
  simp [this]

theorem serveHeld_quiet (d : Dev) (h : d.queue.all (fun e => e.2.waitQwr.isEmpty) = true) : d.serveHeld = d := by
  unfold serveHeld
  apply each_filter_none
  simpa using h

theorem sendAnswers_quiet (d : Dev) (n : Nat) (h : d.answers = []) : sendAnswers n d = d := by
  cases n with
  | zero => rfl
  | succ n => simp only [sendAnswers, h]

theorem runMachines_quiet (d : Dev) (h : d.Quiet) : d.runMachines = d := by
  have hs : ∀ s ∈ List.range 17, d.strmEn s = false := by simpa using h.streams
  unfold runMachines
  generalize List.range 17 = xs at hs
  induction xs with
  | nil => rfl
  | cons s xs ih =>
    have e : d.runMachine s (d.trg.hits.map (·.1)) = d := by simp [runMachine, hs s (List.mem_cons_self ..)]
    rw [each_cons, e]; exact ih fun t ht => hs t (List.mem_cons_of_mem _ ht)

theorem settleAll_quiet (d : Dev) (n : Nat) (h : d.Quiet) : settleAll n d = d := by
  cases n with
  | zero => rfl
  | succ n =>
    have e1 : runEvents 256 d = d := by simp only [runEvents, h.events]
    have e2 : d.runHits = d := by simp [runHits, runMachines_quiet d h, h.hits, h.armed]
    have e3 : d.capFlush = d := by
      have := h.capture.2; obtain ⟨fld, _⟩ := d; unfold capFlush; cases ‹Cap›; simp_all
    have e4 : d.endMachines = d := by
      have := h.fired; obtain ⟨fld, _⟩ := d; simp only [endMachines]; congr 1; cases ‹Trg›; simp_all
    simp only [settleAll, e1, e2, e3, e4, h.events, h.hits, List.isEmpty_nil, Bool.and_self, if_true]

/-- A quiet device is settled as it is, but for the bus. -/
theorem finish_quiet (d : Dev) (h : d.Quiet) : d.finish = { d with bus := [] } := by
  have e : d.capDark = d := by simp [capDark, h.capture.1]
  simp only [finish, serveHeld_quiet d h.writers, sendAnswers_quiet d _ h.answers, settleAll_quiet d _ h, e]

end Dev

/-! The wrappers: a command of the main domain acts only while the main domain runs, and settles. -/

theorem fin_mk (d : Dev) (q : List Instr) (f : Dev → Dev) : fin ⟨d, q⟩ f = .next ⟨(f d).finish, q⟩ := rfl
theorem main_active (d : Dev) (q : List Instr) (f : Dev → Dev) (h : d.active = true) : main ⟨d, q⟩ f = .next ⟨(f d).finish, q⟩ := by
  simp [main, fin, h]
theorem main_idle (d : Dev) (q : List Instr) (f : Dev → Dev) (h : d.active = false) : main ⟨d, q⟩ f = .next ⟨d.finish, q⟩ := by
  simp [main, fin, h]

end Sys2Proof.Machine
end

