-- ==== Sys2Proof/Laws/Exec.lean ====
section
/-! SUPPORT. Lemmas about the execution of a step: reads of the tile stores after a write, samples of derived clocks, landing of design memory
writes, check bits, segments of the signal fabric. -/

namespace Sys2Proof.Machine

namespace Dev

set_option Elab.async false

/-! Reads of the tile stores after one write (R24, R35, R36, R39, R61, R63, R65). -/

/-- A word of a store whose unlisted words are 0 in generation 0 and free in every other. -/
def rdW (m : SMap W32) (gen k : Nat) : Nat := ((SMap.get? m k).map (·.toNat)).getD (if gen = 0 then 0 else (Config.freeWord gen k).toNat)
/-- The same for bits. -/
def rdB (m : SMap Bool) (gen k : Nat) : Bool := (SMap.get? m k).getD (gen ≠ 0 && Config.freeBit gen k)

theorem kept_cons {α} (f : Wr → Option α) (ws : List Wr) (w : Wr) : kept f (w :: ws) = (kept f ws).or (f w) := by
  unfold kept; cases h : f w <;> simp only [List.filterMap_cons, h]
  · simp
  · rw [List.getLast?_cons]; cases (ws.filterMap f).getLast? <;> simp

theorem tileIx_inj {n t n' t' : Nat} (h : t < 32) (h' : t' < 32) : tileIx n' t' = tileIx n t ↔ n' = n ∧ t' = t := by unfold tileIx; omega

theorem or_map_getD {α β} (x y : Option α) (g : α → β) (z : β) : ((x.or y).map g).getD z = (x.map g).getD ((y.map g).getD z) := by cases x <;> simp

theorem or_getD {α} (x y : Option α) (z : α) : (x.or y).getD z = x.getD (y.getD z) := by cases x <;> simp

theorem putW (m : SMap W32) (gen k k' : Nat) (v : W32) : rdW (Stores.putGenW m gen k v) gen k' = if k' = k then v.toNat else rdW m gen k' := by
  unfold Stores.putGenW rdW
  by_cases hz : gen = 0 <;> by_cases hh : k' = k
  · subst hh; rw [if_pos hz, SMap.get?_set]; by_cases hv : v = 0#32
    · simp [hz, hv]
    · rw [if_pos rfl, if_pos rfl, if_neg (by simpa using hv)]; rfl
  · rw [if_pos hz, SMap.get?_set, if_neg hh, if_neg hh]
  · subst hh; rw [if_neg hz, SMap.get?_put]; simp
  · rw [if_neg hz, SMap.get?_put, if_neg hh, if_neg hh]

theorem putB (m : SMap Bool) (gen k k' : Nat) (v : Bool) : rdB (Stores.putGen m gen k v) gen k' = if k' = k then v else rdB m gen k' := by
  unfold Stores.putGen rdB
  by_cases hz : gen = 0 <;> by_cases hh : k' = k
  · subst hh; rw [if_pos hz, SMap.get?_set]; cases v <;> simp [hz]
  · rw [if_pos hz, SMap.get?_set, if_neg hh, if_neg hh]
  · subst hh; rw [if_neg hz, SMap.get?_put]; simp
  · rw [if_neg hz, SMap.get?_put, if_neg hh, if_neg hh]
/-- A write under another cluster's generation, to another place. -/

theorem putW_ne (m : SMap W32) (gen gen' k k' : Nat) (v : W32) (h : k' ≠ k) : rdW (Stores.putGenW m gen' k v) gen k' = rdW m gen k' := by
  unfold Stores.putGenW rdW; split
  · rw [SMap.get?_set, if_neg h]
  · rw [SMap.get?_put, if_neg h]

theorem putB_ne (m : SMap Bool) (gen gen' k k' : Nat) (v : Bool) (h : k' ≠ k) : rdB (Stores.putGen m gen' k v) gen k' = rdB m gen k' := by
  unfold Stores.putGen rdB; split
  · rw [SMap.get?_set, if_neg h]
  · rw [SMap.get?_put, if_neg h]

theorem wss_eq (d : Dev) (n t a : Nat) (ha : a < 0x100) : d.wss n t a = if a < 0x80 then rdW d.st.scr (SMap.get 0 d.st.winGen n) (tileIx n t * 128 + a)
    else if a < 0xC0 then rdW d.st.fwi (SMap.get 0 d.st.finGen n) (tileIx n t * 64 + (a - 0x80)) else (SMap.get 0 d.st.curW (tileIx n t * 64 + (a - 0xC0))).toNat := by
  unfold Dev.wss rdW; rw [Nat.mod_eq_of_lt ha]; dsimp only
  by_cases h1 : a < 0x80
  · rw [if_pos h1, if_pos h1]; cases SMap.get? d.st.scr (tileIx n t * 128 + a) <;> rfl
  · rw [if_neg h1, if_neg h1]
    by_cases h2 : a < 0xC0
    · rw [if_pos h2, if_pos h2]; cases SMap.get? d.st.fwi (tileIx n t * 64 + (a - 0x80)) <;> rfl
    · rw [if_neg h2, if_neg h2]

theorem tss_eq (d : Dev) (n t a : Nat) : d.tss n t a = if a < 0x800 then rdB d.st.win (SMap.get 0 d.st.winGen n) (tileIx n t * 2048 + a)
    else if a < 0xC00 then rdB d.st.fin (SMap.get 0 d.st.finGen n) (tileIx n t * 1024 + (a - 0x800)) else SMap.get false d.st.cur (tileIx n t * 1024 + (a - 0xC00)) := by
  unfold Dev.tss rdB; dsimp only
  by_cases h1 : a < 0x800
  · rw [if_pos h1, if_pos h1]; cases SMap.get? d.st.win (tileIx n t * 2048 + a) <;> rfl
  · rw [if_neg h1, if_neg h1]
    by_cases h2 : a < 0xC00
    · rw [if_pos h2, if_pos h2]; cases SMap.get? d.st.fin (tileIx n t * 1024 + (a - 0x800)) <;> rfl
    · rw [if_neg h2, if_neg h2]

theorem nextW (d : Dev) (k k' : Nat) (v : W32) : (d.setSt (d.st.setNextW k v)).wssNext k' = if k' = k then v else d.wssNext k' := by
  simp only [Dev.wssNext, Dev.setSt, Stores.setNextW]
  by_cases hh : k' = k
  · subst hh; split
    · rename_i h; rw [SMap.get?_del]; simp [h]
    · rw [SMap.get?_put]; simp
  · rw [if_neg hh]; split
    · rw [SMap.get?_del, if_neg hh]
    · rw [SMap.get?_put, if_neg hh]

theorem nextB (d : Dev) (k k' : Nat) (v : Bool) : (d.setSt (d.st.setNext k v)).tssNext k' = if k' = k then v else d.tssNext k' := by
  simp only [Dev.tssNext, Dev.setSt, Stores.setNext]
  by_cases hh : k' = k
  · subst hh; split
    · rename_i h; rw [SMap.get?_del]; simp [h]
    · rw [SMap.get?_put]; simp
  · rw [if_neg hh]; split
    · rw [SMap.get?_del, if_neg hh]
    · rw [SMap.get?_put, if_neg hh]

theorem bothB (d : Dev) (k k' : Nat) (v : Bool) : (d.setSt (d.st.setBoth k v)).tssNext k' = if k' = k then v else d.tssNext k' := by
  simp only [Dev.tssNext, Dev.setSt, Stores.setBoth, SMap.get?_del, SMap.get_set]; split <;> simp

theorem map_if_some {α β} (c : Prop) [Decidable c] (x : α) (g : α → β) (z : β) : ((if c then some x else none).map g).getD z = if c then g x else z := by split <;> rfl

theorem if_some_getD {α} (c : Prop) [Decidable c] (x : α) (z : α) : (if c then some x else none).getD z = if c then x else z := by split <;> rfl

theorem wss_apply (d : Dev) (w : Wr) (n t a : Nat) (ht : t < 32) (hw : w.tile.2 < 32) (ha : a < 0x100) :
    (a < 0xC0 → (d.setSt (d.st.apply w)).wss n t a = ((w.toWord n t a).map (·.toNat)).getD (d.wss n t a)) ∧
    (0xC0 ≤ a → (d.setSt (d.st.apply w)).wss n t a = d.wss n t a ∧
      (d.setSt (d.st.apply w)).wssNext (tileIx n t * 64 + (a - 0xC0)) = (w.toWord n t a).getD (d.wssNext (tileIx n t * 64 + (a - 0xC0)))) := by
  cases w with
  | word n' t' a' v =>
    have ha' : a' % 256 < 256 := Nat.mod_lt _ (by omega)
    have hi := @tileIx_inj n t n' t' ht hw
    simp only [Wr.toWord, map_if_some, if_some_getD]
    simp only [wss_eq _ _ _ _ ha, Stores.apply]
    generalize a' % 256 = b at *
    by_cases b1 : b < 0x80
    · simp only [b1, if_true, Dev.setSt]
      refine ⟨fun hl => ?_, fun hl => ⟨?_, ?_⟩⟩
      · by_cases a1 : a < 0x80
        · simp only [a1, if_true]
          by_cases hh : n' = n ∧ t' = t ∧ b = a
          · obtain ⟨rfl, rfl, rfl⟩ := hh; rw [putW]; simp
          · rw [putW_ne _ _ _ _ _ _ (by omega), if_neg hh]
        · rw [if_neg (c := n' = n ∧ _) (by omega)]; simp only [a1, if_false]
      · simp only [show ¬ a < 128 by omega, show ¬ a < 192 by omega, if_false]
      · rw [if_neg (by omega)]; rfl
    · by_cases b2 : b < 0xC0
      · simp only [b1, b2, if_true, if_false, Dev.setSt]
        refine ⟨fun hl => ?_, fun hl => ⟨?_, ?_⟩⟩
        · by_cases a1 : a < 0x80
          · simp only [a1, if_true]; rw [if_neg (by omega)]
          · simp only [a1, if_false, hl, if_true]
            by_cases hh : n' = n ∧ t' = t ∧ b = a
            · obtain ⟨rfl, rfl, rfl⟩ := hh; rw [putW]; simp
            · rw [putW_ne _ _ _ _ _ _ (by omega), if_neg hh]
        · rw [if_neg (by omega), if_neg (by omega)]; simp [show ¬ a < 128 by omega, show ¬ a < 192 by omega]
        · rw [if_neg (by omega)]; rfl
      · simp only [b1, b2, if_false]
        refine ⟨fun hl => ?_, fun hl => ⟨?_, ?_⟩⟩
        · rw [if_neg (c := n' = n ∧ _) (by omega)]; rfl
        · rfl
        · rw [nextW]
          by_cases hh : n' = n ∧ t' = t ∧ b = a
          · rw [if_pos hh, if_pos (by have := hi.2 ⟨hh.1, hh.2.1⟩; omega)]
          · rw [if_neg hh, if_neg (by omega)]
  | bit n' t' a' v =>
    simp only [Wr.toWord, Stores.apply]
    refine ⟨fun _ => ?_, fun _ => ⟨?_, ?_⟩⟩ <;> (simp only [Stores.setNext]; (repeat' split) <;> rfl)
  | res n' t' a' v => exact ⟨fun _ => rfl, fun _ => ⟨rfl, rfl⟩⟩
  | imm n' t' a' v => exact ⟨fun _ => rfl, fun _ => ⟨rfl, rfl⟩⟩

theorem tss_apply (d : Dev) (w : Wr) (n t a : Nat) (ht : t < 32) (hw : w.tile.2 < 32) :
    (0x800 ≤ a → a < 0xC00 → (d.setSt (d.st.apply w)).tss n t a = (w.toBit n t a).getD (d.tss n t a)) ∧
    (0xC00 ≤ a → a < 0x1000 → (d.setSt (d.st.apply w)).tssNext (tileIx n t * 1024 + (a - 0xC00)) = (w.toBit n t a).getD (d.tssNext (tileIx n t * 1024 + (a - 0xC00))) ∧
      (d.setSt (d.st.apply w)).tss n t a = (w.toCur n t a).getD (d.tss n t a)) := by
  cases w with
  | word n' t' a' v =>
    simp only [Wr.toBit, Wr.toCur, Stores.apply]
    refine ⟨fun _ _ => ?_, fun _ _ => ⟨?_, ?_⟩⟩ <;> (simp only [Stores.setNextW]; (repeat' split) <;> rfl)
  | bit n' t' a' v =>
    have hi := @tileIx_inj n t n' t' ht hw
    simp only [Wr.toBit, Wr.toCur, if_some_getD, tss_eq, Stores.apply, Option.getD_none]
    by_cases b0 : a' < 0x800 ∨ 0x1000 ≤ a'
    · have hc : (decide (a' < 2048) || decide (4096 ≤ a')) = true := by simpa using b0
      simp only [hc, if_true]
      refine ⟨fun h1 h2 => ?_, fun h1 h2 => ⟨?_, ?_⟩⟩
      · rw [if_neg (c := n' = n ∧ _) (by omega)]; rfl
      · rw [if_neg (c := n' = n ∧ _) (by omega)]; rfl
      · rfl
    · have hc : (decide (a' < 2048) || decide (4096 ≤ a')) = false := by simpa using b0
      simp only [hc, Bool.false_eq_true, if_false]
      by_cases b1 : a' < 0xC00
      · rw [if_pos b1]; simp only [Dev.setSt]
        refine ⟨fun h1 h2 => ?_, fun h1 h2 => ⟨?_, ?_⟩⟩
        · simp only [show ¬ a < 0x800 by omega, if_false, h2, if_true]
          by_cases hh : n' = n ∧ t' = t ∧ a' = a
          · obtain ⟨rfl, rfl, rfl⟩ := hh; rw [putB]; simp
          · rw [putB_ne _ _ _ _ _ _ (by omega), if_neg hh]
        · rw [if_neg (c := n' = n ∧ _) (by omega)]; rfl
        · simp only [show ¬ a < 0x800 by omega, show ¬ a < 0xC00 by omega, if_false]
      · rw [if_neg b1]
        refine ⟨fun h1 h2 => ?_, fun h1 h2 => ⟨?_, ?_⟩⟩
        · rw [if_neg (c := n' = n ∧ _) (by omega)]; rfl
        · rw [nextB]
          by_cases hh : n' = n ∧ t' = t ∧ a' = a
          · rw [if_pos hh, if_pos (by have := hi.2 ⟨hh.1, hh.2.1⟩; omega)]
          · rw [if_neg hh, if_neg (by omega)]
        · rfl
  | res n' t' a' v =>
    simp only [Wr.toBit, Wr.toCur, tss_eq, Stores.apply, Option.getD_none, Dev.setSt]
    exact ⟨fun h _ => by simp only [show ¬ a < 0x800 by omega, if_false], fun h _ => ⟨rfl, by simp only [show ¬ a < 0x800 by omega, if_false]⟩⟩
  | imm n' t' a' v =>
    have hi := @tileIx_inj n t n' t' ht hw
    have hb : a' % 1024 < 1024 := Nat.mod_lt _ (by omega)
    simp only [Wr.toBit, Wr.toCur, if_some_getD, Stores.apply]
    generalize a' % 1024 = b at *
    refine ⟨fun h1 h2 => ?_, fun h1 h2 => ⟨?_, ?_⟩⟩
    · rw [if_neg (c := n' = n ∧ _) (by omega)]; simp only [tss_eq, Dev.setSt, Stores.setBoth, show ¬ a < 0x800 by omega, if_false, h2, if_true]
    · rw [bothB]
      by_cases hh : n' = n ∧ t' = t ∧ 0xC00 + b = a
      · rw [if_pos hh, if_pos (by have := hi.2 ⟨hh.1, hh.2.1⟩; omega)]
      · rw [if_neg hh, if_neg (by omega)]
    · simp only [tss_eq, Dev.setSt, Stores.setBoth, show ¬ a < 0x800 by omega, show ¬ a < 0xC00 by omega, if_false, SMap.get_set]
      by_cases hh : n' = n ∧ t' = t ∧ 0xC00 + b = a
      · rw [if_pos hh, if_pos (by have := hi.2 ⟨hh.1, hh.2.1⟩; omega)]
      · rw [if_neg hh, if_neg (by omega)]

/-! Derived clock samples (R92). -/

theorem foldl_mask (ks : List Nat) (m k : Nat) : (ks.foldl (fun m k => m ||| 1 <<< k) m).testBit k = (m.testBit k || ks.contains k) := by
  induction ks generalizing m with
  | nil => simp
  | cons x xs ih =>
    simp only [List.foldl_cons, ih, Nat.testBit_or, Nat.testBit_shiftLeft, List.contains_cons]
    by_cases h : k = x
    · subst h; simp
    · have : (k == x) = false := by simpa using h
      simp only [this, Bool.false_or]
      by_cases h2 : x ≤ k
      · have e : Nat.testBit 1 (k - x) = false := by
          have : k - x = (k - x - 1) + 1 := by omega
          rw [this]; simp [Nat.testBit_succ]
        simp [e]
      · simp [h2]

theorem mask_test (ks : List Nat) (k : Nat) : (maskOf ks).testBit k = ks.contains k := by unfold maskOf; rw [foldl_mask]; simp

theorem src_mem (d : Dev) (i t k : Nat) : (d.sourcesOf i t).contains k = decide (k < 32 ∧ d.g (pPTN i) (PTN_CLK_TYPE k) = t) := by
  unfold sourcesOf; rw [Bool.eq_iff_iff]; simp

/-! What the landing of design memory writes leaves alone. -/

theorem ptnAt_on (d : Dev) (b f i) : (d.on b f).ptnAt i = d.ptnAt i := rfl

theorem sendVec_ptn (d : Dev) (f v) : (d.sendVec f v).ptn = d.ptn := by unfold sendVec; (repeat' split) <;> rfl

theorem notify_ptn (d : Dev) (b) : (d.notifyIrq b).ptn = d.ptn := by
  unfold notifyIrq; dsimp only; (repeat' split) <;> (try simp only [sendVec_ptn])

theorem irq_ptn (d : Dev) (b i) : (d.irq b i).ptn = d.ptn := by
  unfold irq; dsimp only; split
  · rfl
  · split
    · exact notify_ptn _ _
    · rfl

theorem cluIrq_ptn (d : Dev) (a b c) : (d.cluIrq a b c).ptn = d.ptn := irq_ptn ..

theorem rowBackDone_ptn (d : Dev) (n) : (d.rowBackDone n).ptn = d.ptn := cluIrq_ptn ..

theorem rowUe_ptn (d : Dev) (n k) : (d.rowUe n k).ptn = d.ptn := by unfold rowUe; exact irq_ptn _ _ _

theorem ptnAt_irq (d : Dev) (b j i) : (d.irq b j).ptnAt i = d.ptnAt i := by simp only [ptnAt, irq_ptn]

theorem mergeEntry_ptn (d : Dev) (n m a v : Nat) : (d.mergeEntry n m a v).ptn = d.ptn := by
  unfold mergeEntry; dsimp only; split
  · rfl
  · split
    · rfl
    · exact rowBackDone_ptn _ _
    · exact rowUe_ptn _ _ _

theorem landAll_ptn (d : Dev) (i : Nat) : (d.landAll i).ptn = d.ptn := by
  unfold landAll; refine each_proj Dev.ptn _ (fun e n => ?_) _ _
  unfold landWrites; dsimp only; split
  · rfl
  · exact each_proj Dev.ptn _ (fun e w => mergeEntry_ptn ..) _ _

theorem ptnAt_of {d e : Dev} (h : d.ptn = e.ptn) (i : Nat) : d.ptnAt i = e.ptnAt i := by simp only [ptnAt, h]

/-! Check bits of a stored word (R46, R47, R133) and fields of a row (R127). -/

theorem hamming_lt (v : Nat) (ps : List Nat) (i : Nat) (h : ∀ p ∈ ps, p < 128) : hammingSum v ps i < 128 := by
  induction ps generalizing i with
  | nil => simp [hammingSum]
  | cons p ps ih =>
    unfold hammingSum
    have h1 := ih (i + 1) fun q hq => h q (by simp [hq])
    have h2 := h p (by simp)
    split
    · exact Nat.xor_lt_two_pow (n := 7) (by omega) (by omega)
    · simpa using h1

theorem xorBits_or (c : Nat) (b : Bool) (n : Nat) (h : n ≤ 7) : xorBits (c ||| (if b then 128 else 0)) n = xorBits c n := by
  induction n with
  | zero => rfl
  | succ n ih =>
    unfold xorBits; rw [ih (by omega)]
    have : (c ||| (if b then 128 else 0)).testBit n = c.testBit n := by
      rw [Nat.testBit_or]; split
      · rw [show (128 : Nat) = 2 ^ 7 from rfl, Nat.testBit_two_pow_of_ne (by omega)]; simp
      · simp
    rw [this]

theorem fresh_ok (v : Nat) (hv : v < 2 ^ 96) : secdedCheck 96 103 (freshEcc 96 v).data.toNat (freshEcc 96 v).chk.toNat = .ok := by
  have hd : (freshEcc 96 v).data.toNat = v := by simp only [freshEcc, BitVec.toNat_ofNat]; exact Nat.mod_eq_of_lt hv
  have hc : hammingSum v (dataPositions (96 + 7) 3) 0 < 128 := hamming_lt _ _ _ (by decide +kernel)
  rw [hd]
  generalize hq : hammingSum v (dataPositions (96 + 7) 3) 0 = c at hc
  have hb : secdedByte 96 v = c ||| (if xor (xorBits v 96) (xorBits c 7) then 128 else 0) := by unfold secdedByte; rw [hq]
  have hl : secdedByte 96 v < 256 := by rw [hb]; exact Nat.or_lt_two_pow (n := 8) (by omega) (by split <;> omega)
  have hk : (freshEcc 96 v).chk.toNat = secdedByte 96 v := by simp [freshEcc, Nat.mod_eq_of_lt hl]
  rw [hk, hb]
  generalize hp : xor (xorBits v 96) (xorBits c 7) = p
  have h1 : (c ||| if p then 128 else 0) % 128 = c := by
    apply Nat.eq_of_testBit_eq; intro j
    rw [show (128 : Nat) = 2 ^ 7 from rfl, Nat.testBit_mod_two_pow, Nat.testBit_or]
    by_cases hj : j < 7
    · cases p <;> simp [hj, Nat.testBit_two_pow_of_ne (show 7 ≠ j by omega)]
    · have : c < 2 ^ j := Nat.lt_of_lt_of_le hc (by rw [show (128:Nat) = 2 ^ 7 from rfl]; exact Nat.pow_le_pow_right (by omega) (by omega))
      simp [hj, Nat.testBit_lt_two_pow this]
  have h2 : xorBits (c ||| if p then 128 else 0) 8 = xor p (xorBits c 7) := by
    show xor ((c ||| if p then 128 else 0).testBit 7) (xorBits _ 7) = _
    rw [xorBits_or _ _ _ (by omega), Nat.testBit_or, Nat.testBit_lt_two_pow (show c < 2 ^ 7 from hc)]
    cases p
    · simp
    · simp [show Nat.testBit 128 7 = true from rfl]
  unfold secdedCheck; dsimp only; rw [h1, h2, hq]
  simp [← hp]

theorem bits_set (v lo w x : Nat) : bitsAt (setBitsAt v lo w x) lo w = x % 2 ^ w := by
  apply Nat.eq_of_testBit_eq; intro j
  simp only [bitsAt, setBitsAt, Nat.testBit_mod_two_pow, Nat.testBit_shiftRight, Nat.testBit_or, Nat.testBit_shiftLeft]
  by_cases hj : j < w
  · simp [hj, show ¬ w ≤ j by omega, Nat.not_lt.mpr (Nat.le_add_right lo j)]
  · simp [hj]

theorem bits_set_ne (v lo lo' w x : Nat) (h : lo' + w ≤ lo ∨ lo + w ≤ lo') : bitsAt (setBitsAt v lo w x) lo' w = bitsAt v lo' w := by
  apply Nat.eq_of_testBit_eq; intro j
  simp only [bitsAt, setBitsAt, Nat.testBit_mod_two_pow, Nat.testBit_shiftRight, Nat.testBit_or, Nat.testBit_shiftLeft]
  by_cases hj : j < w
  · simp only [hj, decide_true, Bool.true_and]
    rcases h with h | h
    · simp [show ¬ lo + w ≤ lo' + j by omega, show ¬ lo ≤ lo' + j by omega, show lo' + j < lo by omega]
    · have e : lo + w + (lo' + j - (lo + w)) = lo' + j := by omega
      simp [show lo + w ≤ lo' + j by omega, show ¬ lo' + j < lo by omega, show ¬ lo' + j - lo < w by omega, e]
  · simp [hj]

theorem fold_bits (p : Nat → Bool) (xs : List Nat) (v j : Nat) : (xs.foldl (fun v i => if p i then v ||| 1 <<< i else v) v).testBit j = (v.testBit j || (xs.contains j && p j)) := by
  induction xs generalizing v with
  | nil => simp
  | cons x xs ih =>
    simp only [List.foldl_cons, ih, List.contains_cons]
    by_cases hx : j = x
    · subst hx; cases hp : p j <;> simp
    · have h1 : (j == x) = false := by simpa using hx
      have h2 : (1 <<< x).testBit j = false := by rw [Nat.one_shiftLeft, Nat.testBit_two_pow_of_ne (Ne.symm hx)]
      split <;> simp [h1, h2]

/-! Words and segments of the signal fabric (R113, R117). -/

theorem listed (d : Dev) (k w : Nat) (h : d.portWord k = some w) (hw : w ≠ 0) : ∃ v, (k, v) ∈ d.code.port := by
  unfold portWord portPar SMap.get at h
  cases hg : SMap.get? d.code.port k with
  | none => simp [hg, zeroPar] at h; omega
  | some v => exact ⟨v, SMap.mem_of_get? _ _ _ hg⟩

theorem mem_keysAt {α} (m : SMap α) (lo n s k : Nat) : k ∈ keysAt m lo n s ↔ (∃ v, (k, v) ∈ m) ∧ lo ≤ k ∧ k < lo + n ∧ k % 256 = s := by
  unfold keysAt SMap.range
  simp only [List.mem_map, List.mem_filter]
  constructor
  · rintro ⟨⟨a, v⟩, ⟨⟨h1, h2⟩, h3⟩, h4⟩
    simp at h2 h3 h4; subst h4; exact ⟨⟨v, h1⟩, h2.1, h2.2, h3⟩
  · rintro ⟨⟨v, h1⟩, h2, h3, h4⟩
    exact ⟨(k, v), ⟨⟨h1, by simp; omega⟩, by simpa using h4⟩, rfl⟩

theorem reg_keys (d : Dev) (i u e n : Nat) (x : Nat × Sig) (hx : x ∈ d.registersOf i u e n) :
    0x10000 ≤ x.1 ∨ ∃ m s t j w, d.srcOf i n u = some (m, s) ∧ t < 32 ∧ j < 8 ∧ d.portWord (ixPort m t j s) = some w ∧ x = (regTile n t j, d.driven n t w) := by
  unfold registersOf at hx
  cases hs : d.srcOf i n u with
  | none => simp [hs] at hx
  | some ms =>
    obtain ⟨m, s⟩ := ms
    simp only [hs, List.mem_append] at hx
    rcases hx with hx | hx
    · right
      simp only [List.mem_filterMap, mem_keysAt] at hx
      obtain ⟨k, ⟨_, h1, h2, h3⟩, h4⟩ := hx
      cases hw : d.portWord k with
      | none => simp [hw] at h4
      | some w =>
        simp only [hw] at h4
        split at h4
        · rename_i hc
          simp only [Bool.and_eq_true, decide_eq_true_eq] at hc
          have hk : ixPort m (k / 4096 % 32) (k / 256 % 16) s = k := by unfold ixPort tileIx; omega
          refine ⟨m, s, k / 4096 % 32, k / 256 % 16, w, rfl, Nat.mod_lt _ (by omega), hc.1.1, by rw [hk]; exact hw, ?_⟩
          simp only [Option.some.injEq] at h4; rw [← h4]
        · simp at h4
    · left
      simp only [List.mem_flatMap] at hx
      obtain ⟨k, _, h4⟩ := hx
      cases hw : d.meshWord k with
      | none => simp [hw] at h4
      | some w =>
        simp only [hw] at h4
        have put_key : ∀ (o : Option Sig) (key : Nat), x ∈ (match o with | some v => [(key, v)] | none => []) → x.1 = key := by
          intro o key h; cases o <;> simp at h; rw [h]
        have big : ∀ a b, 0x10000 ≤ regLocal a b ∧ 0x10000 ≤ regXbar a b ∧ ∀ c, 0x10000 ≤ regOut a c b := by
          intro a b; refine ⟨?_, ?_, fun c => ?_⟩
          · unfold regLocal; omega
          · unfold regXbar; omega
          · unfold regOut; omega
        simp only [List.mem_append] at h4
        rcases h4 with h4 | h4
        · split at h4
          · rw [put_key _ _ h4]; exact (big _ _).1
          · simp at h4
        · split at h4
          · simp at h4
          · simp only [List.mem_append, List.mem_flatMap] at h4
            rcases h4 with ⟨dir, _, h4⟩ | h4
            · split at h4
              · rw [put_key _ _ h4]; exact (big _ _).2.2 _
              · simp at h4
            · split at h4
              · rw [put_key _ _ h4]; exact (big _ _).2.1
              · simp at h4

theorem reg_inj {n t j n' t' j' : Nat} (h2 : t' < 32) (ht : t < 32) (h3 : j' < 8) (hj : j < 8) (h : regTile n' t' j' = regTile n t j) : n' = n ∧ t' = t ∧ j' = j := by
  unfold regTile at h; omega

end Dev

end Sys2Proof.Machine
end

