-- ==== Sys2Proof/Laws/Hbm.lean ====
section
/-! SUPPORT. HBM as memory: what a write of bytes gives to each address, that the bookkeeping of an access leaves the bytes alone, and that
every operation over HBM keeps its canonical form. -/

set_option linter.unusedSimpArgs false

namespace Sys2Proof.Machine.Dev

set_option Elab.async false

/-- HBM of `a` is that of `b`, as a premise that is compared by its name. -/
def KeptHbm (a b : Dev) : Prop := a.hbm = b.hbm
theorem KeptHbm.of {a b : Dev} (h : a.hbm = b.hbm) : KeptHbm a b := h
theorem KeptHbm.same {a b : Dev} (h : KeptHbm a b) : KeptHbm a b := h
theorem KeptHbm.eq {a b : Dev} (h : KeptHbm a b) : a.hbm = b.hbm := h
theorem foldl_hbm {α : Type} {f : Dev → α → Dev} (h : ∀ e a, KeptHbm (f e a) e) (xs : List α) (d : Dev) : (xs.foldl f d).hbm = d.hbm :=
  each_proj (·.hbm) f (fun e a => (h e a).eq) xs d
theorem each_hbm {α : Type} (d : Dev) (xs : List α) (f : Dev → α → Dev) (h : ∀ e a, KeptHbm (f e a) e) : (d.each xs f).hbm = d.hbm :=
  foldl_hbm h xs d
theorem iff_hbm (d : Dev) (c : Bool) (f : Dev → Dev) (h : ∀ e, KeptHbm (f e) e) : (d.iff c f).hbm = d.hbm := by
  unfold iff; split
  · exact (h d).eq
  · rfl
theorem fst_hbm {α β : Type} {f : Dev × β → α → Dev × β} (h : ∀ r a, KeptHbm (f r a).1 r.1) (xs : List α) (r : Dev × β) :
    (xs.foldl f r).1.hbm = r.1.hbm := by
  induction xs generalizing r with
  | nil => rfl
  | cons x xs ih => exact (ih _).trans (h r x).eq

theorem on_hbm (d : Dev) (base : Nat) (f : Fld) : (on d base f).hbm = d.hbm := by
  unfold on
  repeat' first
    | with_reducible rfl
    | simp -implicitDefEqProofs only [p_hbm]
    | split
    | dsimp only
theorem add_hbm (d : Dev) (base : Nat) (f : Fld) (n : Nat) : (add d base f n).hbm = d.hbm := by
  unfold add
  repeat' first
    | with_reducible rfl
    | simp -implicitDefEqProofs only [p_hbm]
    | split
    | dsimp only
theorem sendVec_hbm (d : Dev) (fn : Fn) (v : Nat) : (sendVec d fn v).hbm = d.hbm := by
  unfold sendVec
  repeat' first
    | with_reducible rfl
    | simp -implicitDefEqProofs only [emit_hbm, on_hbm, apply_ite Dev.hbm, apply_ite Prod.fst, ite_self, id_eq]
    | split
    | dsimp only
theorem notifyIrq_hbm (d : Dev) (base : Nat) : (notifyIrq d base).hbm = d.hbm := by
  unfold notifyIrq
  repeat' first
    | with_reducible rfl
    | simp -implicitDefEqProofs only [sendVec_hbm, apply_ite Dev.hbm, apply_ite Prod.fst, ite_self, id_eq]
    | split
    | dsimp only
theorem irq_hbm (d : Dev) (base i : Nat) : (irq d base i).hbm = d.hbm := by
  unfold irq
  repeat' first
    | with_reducible rfl
    | simp -implicitDefEqProofs only [notifyIrq_hbm, p_hbm, apply_ite Dev.hbm, apply_ite Prod.fst, ite_self, id_eq]
    | split
    | dsimp only
theorem innerError_hbm (d : Dev) (src part : Nat) (devlvl : Bool) (status : Nat) (write : Bool) (addr : Nat) : (innerError d src part devlvl status write addr).hbm = d.hbm := by
  unfold innerError
  repeat' first
    | with_reducible rfl
    | simp -implicitDefEqProofs only [raise_hbm, apply_ite Dev.hbm, apply_ite Prod.fst, ite_self, id_eq]
    | split
    | dsimp only
theorem noRoute_hbm (d : Dev) : (noRoute d).hbm = d.hbm := by
  unfold noRoute
  repeat' first
    | with_reducible rfl
    | simp -implicitDefEqProofs only [add_hbm]
    | split
    | dsimp only
theorem timedOut_hbm (d : Dev) (src dst vc a : Nat) : (timedOut d src dst vc a).hbm = d.hbm := by
  unfold timedOut
  repeat' first
    | with_reducible rfl
    | simp -implicitDefEqProofs only [add_hbm, raise_hbm]
    | split
    | dsimp only
theorem mntRequest_hbm (d : Dev) (id adds sparing : Nat) (retry : Bool) : (mntRequest d id adds sparing retry).1.hbm = d.hbm := by
  unfold mntRequest
  repeat' first
    | with_reducible rfl
    | simp -implicitDefEqProofs only [add_hbm, irq_hbm, p_hbm, raise_hbm, apply_ite Dev.hbm, apply_ite Prod.fst, ite_self, id_eq]
    | split
    | dsimp only
theorem mntDrop_hbm (d : Dev) (id : Nat) : (mntDrop d id).hbm = d.hbm := by
  unfold mntDrop
  repeat' first
    | with_reducible rfl
    | simp -implicitDefEqProofs only [apply_ite Dev.hbm, apply_ite Prod.fst, ite_self, id_eq]
    | split
    | dsimp only
theorem integFail_hbm (d : Dev) (r : Req) (a level : Nat) (write : Bool) : (integFail d r a level write).hbm = d.hbm := by
  unfold integFail
  repeat' first
    | with_reducible rfl
    | simp -implicitDefEqProofs only [add_hbm, irq_hbm, on_hbm, p_hbm, raise_hbm, apply_ite Dev.hbm, apply_ite Prod.fst, ite_self, id_eq]
    | split
    | dsimp only
theorem wantRoll_hbm (d : Dev) (cause : Nat) : (wantRoll d cause).hbm = d.hbm := by
  unfold wantRoll
  repeat' first
    | with_reducible rfl
    | simp -implicitDefEqProofs only [on_hbm, p_hbm, apply_ite Dev.hbm, apply_ite Prod.fst, ite_self, id_eq]
    | split
    | dsimp only
theorem tryRoll_hbm (d : Dev) (retry : Bool) : (tryRoll d retry).hbm = d.hbm := by
  unfold tryRoll
  repeat' first
    | with_reducible rfl
    | simp -implicitDefEqProofs only [mntRequest_hbm, on_hbm, p_hbm, apply_ite Dev.hbm, apply_ite Prod.fst, ite_self, id_eq]
    | split
    | dsimp only
theorem scrubRequest_hbm (d : Dev) (i : Nat) (retry : Bool) : (scrubRequest d i retry).hbm = d.hbm := by
  unfold scrubRequest
  repeat' first
    | with_reducible rfl
    | simp -implicitDefEqProofs only [mntRequest_hbm, p_hbm, apply_ite Dev.hbm, apply_ite Prod.fst, ite_self, id_eq]
    | split
    | dsimp only
theorem retryPasses_hbm (d : Dev) : (retryPasses d).hbm = d.hbm := by
  unfold retryPasses
  repeat' first
    | with_reducible rfl
    | intro _
    | exact True.intro
    | (with_reducible refine KeptHbm.same ?_; (try dsimp only); with_reducible refine KeptHbm.of ?_)
    | simp -implicitDefEqProofs only [scrubRequest_hbm, apply_ite Dev.hbm, apply_ite Prod.fst, ite_self, id_eq]
    | rw [each_hbm]
    | split
    | dsimp only
theorem retryWaits_hbm (d : Dev) : (retryWaits d).hbm = d.hbm := by
  unfold retryWaits
  repeat' first
    | with_reducible rfl
    | simp -implicitDefEqProofs only [retryPasses_hbm, tryRoll_hbm, apply_ite Dev.hbm, apply_ite Prod.fst, ite_self, id_eq]
    | split
    | dsimp only
theorem requestRoll_hbm (d : Dev) (cause : Nat) : (requestRoll d cause).hbm = d.hbm := by
  unfold requestRoll
  repeat' first
    | with_reducible rfl
    | simp -implicitDefEqProofs only [tryRoll_hbm, wantRoll_hbm]
    | split
    | dsimp only
theorem countBlocks_hbm (d : Dev) (n : Nat) : (countBlocks d n).hbm = d.hbm := by
  unfold countBlocks
  repeat' first
    | with_reducible rfl
    | simp -implicitDefEqProofs only [p_hbm, requestRoll_hbm, apply_ite Dev.hbm, apply_ite Prod.fst, ite_self, id_eq]
    | split
    | dsimp only
theorem watchCtr_hbm (d : Dev) (c : Nat) : (watchCtr d c).hbm = d.hbm := by
  unfold watchCtr
  repeat' first
    | with_reducible rfl
    | simp -implicitDefEqProofs only [requestRoll_hbm, apply_ite Dev.hbm, apply_ite Prod.fst, ite_self, id_eq]
    | split
    | dsimp only
theorem metaMoved_hbm (d : Dev) (level index : Nat) : (metaMoved d level index).hbm = d.hbm := by
  unfold metaMoved
  repeat' first
    | with_reducible rfl
    | simp -implicitDefEqProofs only [add_hbm]
    | split
    | dsimp only
theorem writeNode_hbm (d : Dev) (node : Nat) : (writeNode d node).hbm = d.hbm := by
  unfold writeNode
  repeat' first
    | with_reducible rfl
    | simp -implicitDefEqProofs only [add_hbm, metaMoved_hbm, watchCtr_hbm]
    | split
    | dsimp only
theorem writeLeaf_hbm (d : Dev) (line : Nat) : (writeLeaf d line).hbm = d.hbm := by
  unfold writeLeaf
  repeat' first
    | with_reducible rfl
    | intro _
    | exact True.intro
    | (with_reducible refine KeptHbm.same ?_; (try dsimp only); with_reducible refine KeptHbm.of ?_)
    | simp -implicitDefEqProofs only [add_hbm, integFail_hbm, metaMoved_hbm, watchCtr_hbm, writeNode_hbm, apply_ite Dev.hbm, apply_ite Prod.fst, ite_self, id_eq]
    | rw [iff_hbm]
    | split
    | dsimp only
theorem writeBack_hbm (d : Dev) (level index : Nat) : (writeBack d level index).hbm = d.hbm := by
  unfold writeBack
  repeat' first
    | with_reducible rfl
    | simp -implicitDefEqProofs only [add_hbm, metaMoved_hbm, writeLeaf_hbm, writeNode_hbm, apply_ite Dev.hbm, apply_ite Prod.fst, ite_self, id_eq]
    | split
    | dsimp only
theorem evict_hbm (d : Dev) (q : Nat) : (evict d q).hbm = d.hbm := by
  unfold evict
  repeat' first
    | with_reducible rfl
    | intro _
    | exact True.intro
    | (with_reducible refine KeptHbm.same ?_; (try dsimp only); with_reducible refine KeptHbm.of ?_)
    | simp -implicitDefEqProofs only [tick_hbm, writeBack_hbm, apply_ite Dev.hbm, apply_ite Prod.fst, ite_self, id_eq]
    | split
    | with_reducible refine (fst_hbm (fun _ _ => ?_) _ _).trans ?_
    | with_reducible refine (foldl_hbm (fun _ _ => ?_) _ _).trans ?_
    | dsimp only
theorem cacheLookup_hbm (d : Dev) (level index : Nat) (dirty : Bool) : (cacheLookup d level index dirty).hbm = d.hbm := by
  unfold cacheLookup
  repeat' first
    | with_reducible rfl
    | intro _
    | exact True.intro
    | (with_reducible refine KeptHbm.same ?_; (try dsimp only); with_reducible refine KeptHbm.of ?_)
    | simp -implicitDefEqProofs only [add_hbm, evict_hbm, metaMoved_hbm, apply_ite Dev.hbm, apply_ite Prod.fst, ite_self, id_eq]
    | rw [iff_hbm]
    | split
    | dsimp only
theorem touchMeta_hbm (d : Dev) (a n : Nat) (write : Bool) : (touchMeta d a n write).hbm = d.hbm := by
  unfold touchMeta
  repeat' first
    | with_reducible rfl
    | intro _
    | exact True.intro
    | (with_reducible refine KeptHbm.same ?_; (try dsimp only); with_reducible refine KeptHbm.of ?_)
    | simp -implicitDefEqProofs only [cacheLookup_hbm, raise_hbm, apply_ite Dev.hbm, apply_ite Prod.fst, ite_self, id_eq]
    | rw [each_hbm]
    | split
    | dsimp only
theorem stackCount_hbm (d : Dev) (ce ue : List Nat) : (stackCount d ce ue).hbm = d.hbm := by
  unfold stackCount
  repeat' first
    | with_reducible rfl
    | intro _
    | exact True.intro
    | (with_reducible refine KeptHbm.same ?_; (try dsimp only); with_reducible refine KeptHbm.of ?_)
    | simp -implicitDefEqProofs only [add_hbm, irq_hbm]
    | rw [each_hbm]
    | split
    | dsimp only
theorem stackFresh_hbm (d : Dev) (lo hi : Nat) : (stackFresh d lo hi).hbm = d.hbm := by
  unfold stackFresh
  repeat' first
    | with_reducible rfl
    | simp -implicitDefEqProofs only [ite_self]
    | split
    | dsimp only
theorem bumpCounter_hbm (d : Dev) (sec : Nat) : (bumpCounter d sec).hbm = d.hbm := by
  unfold bumpCounter
  repeat' first
    | with_reducible rfl
    | intro _
    | exact True.intro
    | (with_reducible refine KeptHbm.same ?_; (try dsimp only); with_reducible refine KeptHbm.of ?_)
    | simp -implicitDefEqProofs only [stackFresh_hbm, watchCtr_hbm, apply_ite Dev.hbm, apply_ite Prod.fst, ite_self, id_eq]
    | rw [iff_hbm]
    | split
    | dsimp only
theorem hbmRefuse_hbm (d : Dev) (r : Req) (a n : Nat) (write : Bool) : (hbmRefuse d r a n write).hbm = d.hbm := by
  unfold hbmRefuse
  repeat' first
    | with_reducible rfl
    | intro _
    | exact True.intro
    | (with_reducible refine KeptHbm.same ?_; (try dsimp only); with_reducible refine KeptHbm.of ?_)
    | simp -implicitDefEqProofs only [add_hbm, innerError_hbm]
    | rw [iff_hbm]
    | split
    | dsimp only
theorem hbmAnswer_hbm (d : Dev) (r : Req) (a status : Nat) : (hbmAnswer d r a status).1.hbm = d.hbm := by
  unfold hbmAnswer
  repeat' first
    | with_reducible rfl
    | simp -implicitDefEqProofs only [timedOut_hbm, apply_ite Dev.hbm, apply_ite Prod.fst, ite_self, id_eq]
    | split
    | dsimp only
theorem passTree_hbm (d : Dev) (lo hi : Nat) : (passTree d lo hi).hbm = d.hbm := by
  unfold passTree
  repeat' first
    | with_reducible rfl
    | intro _
    | exact True.intro
    | (with_reducible refine KeptHbm.same ?_; (try dsimp only); with_reducible refine KeptHbm.of ?_)
    | simp -implicitDefEqProofs only [ite_self]
    | split
    | with_reducible refine (fst_hbm (fun _ _ => ?_) _ _).trans ?_
    | with_reducible refine (foldl_hbm (fun _ _ => ?_) _ _).trans ?_
    | dsimp only
theorem setBoundary_hbm (d : Dev) (b : Nat) : (setBoundary d b).hbm = d.hbm := by
  unfold setBoundary
  repeat' first
    | with_reducible rfl
    | simp -implicitDefEqProofs only [p_hbm, passTree_hbm]
    | split
    | dsimp only
theorem setCounter_hbm (d : Dev) (sec c : Nat) : (setCounter d sec c).hbm = d.hbm := by
  unfold setCounter
  repeat' first
    | with_reducible rfl
    | simp -implicitDefEqProofs only [ite_self]
    | split
    | dsimp only

/-! Bytes put in place. -/

/-- A byte after a run was put at `a`. -/
theorem get_putBytes (m : SMap Byte) (a : Nat) (bs : List Byte) (x : Nat) :
    SMap.get 0 (putBytes m a bs) x = if a ≤ x ∧ x < a + bs.length then bs.getD (x - a) 0 else SMap.get 0 m x := by
  induction bs generalizing m a with
  | nil => simp only [putBytes, List.length_nil]; rw [if_neg (by omega)]
  | cons b bs ih =>
    rw [putBytes, ih, List.length_cons]
    by_cases h : x = a
    · subst h
      rw [if_neg (by omega), if_pos (by omega), SMap.get_set_self]; simp
    · rw [SMap.get_set_ne _ _ _ _ _ h]
      by_cases g : a + 1 ≤ x ∧ x < a + 1 + bs.length
      · have e : x - a = (x - (a + 1)) + 1 := by omega
        rw [if_pos g, if_pos (by omega), e]; simp
      · rw [if_neg g, if_neg (by omega)]

/-! The canonical form of HBM. -/

theorem wf_putBytes {m : SMap Byte} (a : Nat) (bs : List Byte) (h : SMap.wf 0 m = true) : SMap.wf 0 (putBytes m a bs) = true := by
  induction bs generalizing m a with
  | nil => exact h
  | cons b bs ih => exact ih _ (SMap.wf_set _ _ h)

theorem reset_hbm_wf : SMap.wf 0 Dev.reset.hbm = true := rfl

theorem hbmWrite_wf (d : Dev) (r : Req) (a : Nat) (bs : List Byte) (h : SMap.wf 0 d.hbm = true) : SMap.wf 0 (d.hbmWrite r a bs).1.hbm = true := by
  unfold hbmWrite
  split
  · exact h
  · split
    · rw [noRoute_hbm]; exact h
    · split
      · rw [hbmRefuse_hbm]; exact h
      · split
        · rw [integFail_hbm]; exact h
        · dsimp only
          split
          · rw [stackCount_hbm]; exact h
          · refine wf_putBytes _ _ ?_
            rw [countBlocks_hbm, stackFresh_hbm, each_hbm _ _ _ (fun e s => .of (by rw [bumpCounter_hbm, touchMeta_hbm])), stackCount_hbm]
            exact h

theorem hbmAnswer_wf (d : Dev) (r : Req) (a st : Nat) (h : SMap.wf 0 d.hbm = true) : SMap.wf 0 (d.hbmAnswer r a st).1.hbm = true := by
  rw [hbmAnswer_hbm]; exact h

theorem hbmSend_wf (d : Dev) (r : Req) (a : Nat) (bs : List Byte) (h : SMap.wf 0 d.hbm = true) : SMap.wf 0 (d.hbmSend r a bs).1.hbm = true := by
  unfold hbmSend
  split
  · exact h
  · exact hbmAnswer_wf _ _ _ _ (hbmWrite_wf d r a bs h)

/-- What each request of a longer access keeps, the whole access keeps. -/
theorem fold_keeps {α β : Type} (P : Dev → Prop) {f : Dev × β → α → Dev × β} (h : ∀ s c, P s.1 → P (f s c).1) (cs : List α) (s : Dev × β)
    (hs : P s.1) : P (cs.foldl f s).1 := by
  induction cs generalizing s with
  | nil => exact hs
  | cons c cs ih => exact ih _ (h s c hs)

theorem hbmPut_wf (d : Dev) (r : Req) (a : Nat) (bs : List Byte) (h : SMap.wf 0 d.hbm = true) : SMap.wf 0 (d.hbmPut r a bs).hbm = true := by
  unfold hbmPut hbmStore
  exact fold_keeps (fun e => SMap.wf 0 e.hbm = true) (fun s c hs => hbmSend_wf s.1 r (a + c.1) ((bs.drop c.1).take c.2) hs) _ (d, 0) h

theorem hbmRead_hbm (d : Dev) (r : Req) (a n : Nat) : (d.hbmRead r a n).1.hbm = d.hbm := by
  unfold hbmRead
  split
  · rfl
  · split
    · rw [noRoute_hbm]
    · split
      · rw [hbmRefuse_hbm]
      · split
        · rw [integFail_hbm]
        · dsimp only
          split <;> exact (each_hbm _ _ _ (fun e s => .of (touchMeta_hbm _ _ _ _))).trans (stackCount_hbm _ _ _)

theorem hbmFetch_hbm (d : Dev) (r : Req) (a n : Nat) : (d.hbmFetch r a n).1.hbm = d.hbm := by
  unfold hbmFetch
  split
  · rfl
  · exact (hbmAnswer_hbm _ _ _ _).trans (hbmRead_hbm d r a n)

theorem hbmGet_hbm (d : Dev) (r : Req) (a n : Nat) : (d.hbmGet r a n).1.hbm = d.hbm := by
  unfold hbmGet
  exact fst_hbm (f := fun (s : Dev × Nat × List Byte) (c : Nat × Nat) =>
    let q := s.1.hbmFetch r (a + c.1) c.2
    (q.1, if s.2.1 == 0 then q.2.1 else s.2.1, s.2.2 ++ q.2.2)) (fun s c => .of (hbmFetch_hbm s.1 r (a + c.1) c.2)) _ (d, 0, [])

theorem zeroRange_wf (d : Dev) (r : Req) (a n : Nat) (h : SMap.wf 0 d.hbm = true) : SMap.wf 0 (d.zeroRange r a n).hbm = true := by
  unfold zeroRange
  exact each_keeps (fun e => SMap.wf 0 e.hbm = true) _ (fun e (c : Nat × Nat) he => hbmSend_wf e r (a + c.1) (List.replicate c.2 0) he) _ d h

theorem convertSector_wf (d : Dev) (sec : Nat) (h : SMap.wf 0 d.hbm = true) : SMap.wf 0 (d.convertSector sec).hbm = true := by
  unfold convertSector
  split
  · dsimp only
    refine SMap.wf_delRange _ _ ?_
    rw [setBoundary_hbm, setCounter_hbm, integFail_hbm]; exact h
  · dsimp only
    split
    · rw [countBlocks_hbm, setBoundary_hbm, setCounter_hbm, stackFresh_hbm, touchMeta_hbm, stackCount_hbm]; exact h
    · refine SMap.wf_delRange _ _ ?_
      rw [stackCount_hbm]; exact h

/-! A check fails just where the stored tag is not the one computed (R359, R361). -/

theorem xor_eq_left (m x : Nat) : m ^^^ x = m ↔ x = 0 := by
  constructor
  · intro h
    have g : m ^^^ (m ^^^ x) = m ^^^ m := by rw [h]
    rwa [← Nat.xor_assoc, Nat.xor_self, Nat.zero_xor] at g
  · rintro rfl; exact Nat.xor_zero m

theorem granuleBad_iff (d : Dev) (gr : Nat) : d.granuleBad gr = true ↔ d.granuleTag gr ≠ d.granuleMac gr := by
  simp only [granuleBad, granuleTag, ne_eq, xor_eq_left, decide_eq_true_eq]

theorem leafBad_iff (d : Dev) (line : Nat) : d.leafBad line = true ↔ d.leafTag line ≠ d.leafMac line := by
  simp only [leafBad, leafTag, ne_eq, xor_eq_left, decide_eq_true_eq]

theorem nodeBad_iff (d : Dev) (node : Nat) : d.nodeBad node = true ↔ d.nodeTag node ≠ d.nodeMac node := by
  simp only [nodeBad, nodeTag, ne_eq, xor_eq_left, decide_eq_true_eq]

end Sys2Proof.Machine.Dev
end

