-- ==== Sys2Proof/Laws/KeepCanonical1.lean ====
section
/-! SUPPORT. The register fields and HBM stay in their canonical form under the shared operations, registers, queues, HBM, capture, trace and triggers: one lemma for each function. -/

set_option linter.all false

namespace Sys2Proof.Machine.Dev

set_option Elab.async false


theorem Canonical.lit {d : Dev} {pairRd : SMap Nat} {pairWr : SMap Nat} {code : Code} {st : Stores} {fab : SMap Sig} {clu : SMap Clu} {ptn : SMap Ptn} {queue : SMap Queue} {dsp : Dsp} {ime : Ime} {trg : Trg} {cap : Cap} {trc : SMap Strm} {nonce : Option (BitVec 256)} {link : SMap Link} {noc : Noc} {boot : Boot} {pwr : Pwr} {ring : Ring} {log : LogS} {mnt : Mnt} {sys : Sys} {time : Nat} {slewTo : Int} {ticks : Nat} {latchAt : Option Nat} {strobeSrc : Option Nat} {raised : List (Nat × WordLoc × Bool)} {rewrites : List (Nat × WordLoc × Bool)} {evq : List Ev} {bus : List Nat} {answers : List (List W64)} {heldAns : List (Nat × List W64)} {out : List Out} {fresh : Nat} :
    Canonical ⟨d.fld, pairRd, pairWr, code, st, fab, clu, ptn, queue, dsp, d.hbm, ime, trg, cap, trc, nonce, link, noc, boot, pwr, ring, log, mnt, sys, time, slewTo, ticks, latchAt, strobeSrc, raised, rewrites, evq, bus, answers, heldAns, out, fresh⟩ = Canonical d := propext ⟨fun h => ⟨h.1, h.2⟩, fun h => ⟨h.1, h.2⟩⟩

theorem putBytes_wf (m : SMap Byte) (a : Nat) (bs : List Byte) (h : SMap.wf 0 m = true) : SMap.wf 0 (putBytes m a bs) = true := by
  induction bs generalizing m a with
  | nil => exact h
  | cons b bs ih => exact ih _ _ (SMap.wf_set _ _ h)

theorem Canonical.put {d : Dev} {a : Nat} {bs : List Byte} {pairRd : SMap Nat} {pairWr : SMap Nat} {code : Code} {st : Stores} {fab : SMap Sig} {clu : SMap Clu} {ptn : SMap Ptn} {queue : SMap Queue} {dsp : Dsp} {ime : Ime} {trg : Trg} {cap : Cap} {trc : SMap Strm} {nonce : Option (BitVec 256)} {link : SMap Link} {noc : Noc} {boot : Boot} {pwr : Pwr} {ring : Ring} {log : LogS} {mnt : Mnt} {sys : Sys} {time : Nat} {slewTo : Int} {ticks : Nat} {latchAt : Option Nat} {strobeSrc : Option Nat} {raised : List (Nat × WordLoc × Bool)} {rewrites : List (Nat × WordLoc × Bool)} {evq : List Ev} {bus : List Nat} {answers : List (List W64)} {heldAns : List (Nat × List W64)} {out : List Out} {fresh : Nat} (h : Canonical d) :
    Canonical ⟨d.fld, pairRd, pairWr, code, st, fab, clu, ptn, queue, dsp, putBytes d.hbm a bs, ime, trg, cap, trc, nonce, link, noc, boot, pwr, ring, log, mnt, sys, time, slewTo, ticks, latchAt, strobeSrc, raised, rewrites, evq, bus, answers, heldAns, out, fresh⟩ := ⟨h.1, putBytes_wf _ _ _ h.2⟩

theorem Canonical.del {d e : Dev} {lo hi : Nat} {pairRd : SMap Nat} {pairWr : SMap Nat} {code : Code} {st : Stores} {fab : SMap Sig} {clu : SMap Clu} {ptn : SMap Ptn} {queue : SMap Queue} {dsp : Dsp} {ime : Ime} {trg : Trg} {cap : Cap} {trc : SMap Strm} {nonce : Option (BitVec 256)} {link : SMap Link} {noc : Noc} {boot : Boot} {pwr : Pwr} {ring : Ring} {log : LogS} {mnt : Mnt} {sys : Sys} {time : Nat} {slewTo : Int} {ticks : Nat} {latchAt : Option Nat} {strobeSrc : Option Nat} {raised : List (Nat × WordLoc × Bool)} {rewrites : List (Nat × WordLoc × Bool)} {evq : List Ev} {bus : List Nat} {answers : List (List W64)} {heldAns : List (Nat × List W64)} {out : List Out} {fresh : Nat} (h : Canonical d) (he : Canonical e) :
    Canonical ⟨d.fld, pairRd, pairWr, code, st, fab, clu, ptn, queue, dsp, SMap.delRange e.hbm lo hi, ime, trg, cap, trc, nonce, link, noc, boot, pwr, ring, log, mnt, sys, time, slewTo, ticks, latchAt, strobeSrc, raised, rewrites, evq, bus, answers, heldAns, out, fresh⟩ := ⟨h.1, SMap.wf_delRange _ _ he.2⟩

theorem Canonical.filter {d e : Dev} {f : Nat × Nat → Bool} {pairRd : SMap Nat} {pairWr : SMap Nat} {code : Code} {st : Stores} {fab : SMap Sig} {clu : SMap Clu} {ptn : SMap Ptn} {queue : SMap Queue} {dsp : Dsp} {ime : Ime} {trg : Trg} {cap : Cap} {trc : SMap Strm} {nonce : Option (BitVec 256)} {link : SMap Link} {noc : Noc} {boot : Boot} {pwr : Pwr} {ring : Ring} {log : LogS} {mnt : Mnt} {sys : Sys} {time : Nat} {slewTo : Int} {ticks : Nat} {latchAt : Option Nat} {strobeSrc : Option Nat} {raised : List (Nat × WordLoc × Bool)} {rewrites : List (Nat × WordLoc × Bool)} {evq : List Ev} {bus : List Nat} {answers : List (List W64)} {heldAns : List (Nat × List W64)} {out : List Out} {fresh : Nat} (h : Canonical d) (he : Canonical e) :
    Canonical ⟨List.filter f d.fld, pairRd, pairWr, code, st, fab, clu, ptn, queue, dsp, e.hbm, ime, trg, cap, trc, nonce, link, noc, boot, pwr, ring, log, mnt, sys, time, slewTo, ticks, latchAt, strobeSrc, raised, rewrites, evq, bus, answers, heldAns, out, fresh⟩ := ⟨SMap.risingFrom_filter f h.1, he.2⟩

theorem Canonical.of {d e : Dev} (h : Canonical d) (h1 : e.fld = d.fld) (h2 : e.hbm = d.hbm) : Canonical e := ⟨h1 ▸ h.1, h2 ▸ h.2⟩

theorem risingFrom_set {α : Type} [DecidableEq α] {dflt : α} {m : SMap α} (k : Nat) (v : α) (h : SMap.risingFrom m 0 = true) : SMap.risingFrom (SMap.set dflt m k v) 0 = true := by
  unfold SMap.set; split
  · exact SMap.risingFrom_filter _ h
  · exact SMap.risingFrom_put _ h (Nat.zero_le k)

theorem p_canonical (d : Dev) (base : Nat) (f : Fld) (v : Nat) (h : Canonical d) : Canonical (p d base f v) := ⟨risingFrom_set _ _ h.1, h.2⟩

theorem resetRange_canonical (d : Dev) (lo hi : Nat) (h : Canonical d) : Canonical (resetRange d lo hi) := ⟨SMap.risingFrom_filter _ h.1, h.2⟩

theorem emit_canonical (d : Dev) (o : Out) (h : Canonical d) : Canonical (emit d o) := ⟨h.1, h.2⟩

theorem setClu_canonical (d : Dev) (n : Nat) (c : Clu) (h : Canonical d) : Canonical (setClu d n c) := ⟨h.1, h.2⟩

theorem setPtn_canonical (d : Dev) (n : Nat) (c : Ptn) (h : Canonical d) : Canonical (setPtn d n c) := ⟨h.1, h.2⟩

theorem setQueue_canonical (d : Dev) (n : Nat) (c : Queue) (h : Canonical d) : Canonical (setQueue d n c) := ⟨h.1, h.2⟩

theorem setLink_canonical (d : Dev) (n : Nat) (c : Link) (h : Canonical d) : Canonical (setLink d n c) := ⟨h.1, h.2⟩

theorem setChan_canonical (d : Dev) (n : Nat) (c : Chan) (h : Canonical d) : Canonical (setChan d n c) := ⟨h.1, h.2⟩

theorem setStrm_canonical (d : Dev) (n : Nat) (c : Strm) (h : Canonical d) : Canonical (setStrm d n c) := ⟨h.1, h.2⟩

theorem setCourier_canonical (d : Dev) (n : Nat) (c : Courier) (h : Canonical d) : Canonical (setCourier d n c) := ⟨h.1, h.2⟩

theorem setList_canonical (d : Dev) (n : Nat) (c : List Work) (h : Canonical d) : Canonical (setList d n c) := ⟨h.1, h.2⟩

theorem raise_canonical (d : Dev) (num cls owner i0 i1 : Nat) (h : Canonical d) : Canonical (raise d num cls owner i0 i1) := ⟨h.1, h.2⟩

theorem tick_canonical (d : Dev) (h : Canonical d) : Canonical (tick d) := ⟨h.1, h.2⟩

theorem setSt_canonical (d : Dev) (s : Stores) (h : Canonical d) : Canonical (setSt d s) := ⟨h.1, h.2⟩

theorem foldl_canonical {α : Type} (f : Dev → α → Dev) (xs : List α) (d : Dev) (h : Canonical d) (hf : ∀ e a, Canonical e → Canonical (f e a)) : Canonical (xs.foldl f d) := by
  induction xs generalizing d with
  | nil => exact h
  | cons x xs ih => exact ih _ (hf _ _ h)

theorem fold1_canonical {α β : Type} (f : Dev × β → α → Dev × β) (xs : List α) (r : Dev × β) (h : Canonical r.1) (hf : ∀ e a, Canonical e.1 → Canonical (f e a).1) : Canonical (xs.foldl f r).1 := by
  induction xs generalizing r with
  | nil => exact h
  | cons x xs ih => exact ih _ (hf _ _ h)

theorem each_canonical {α : Type} (d : Dev) (xs : List α) (f : Dev → α → Dev) (h : Canonical d) (hf : ∀ e a, Canonical e → Canonical (f e a)) : Canonical (d.each xs f) := foldl_canonical f xs d h hf

theorem iff_canonical (d : Dev) (c : Bool) (f : Dev → Dev) (h : Canonical d) (hf : ∀ e, Canonical e → Canonical (f e)) : Canonical (d.iff c f) := by
  unfold iff; split
  · exact hf d h
  · exact h

theorem id_canonical (d : Dev) (h : Canonical d) : Canonical (id d) := h

theorem reset_canonical : Canonical reset := ⟨rfl, rfl⟩


theorem on_canonical (d : Dev) (base : Nat) (f : Fld) (h0 : Canonical d) : Canonical (on d base f) := by
  unfold on
  repeat' first
    | with_reducible assumption
    | with_reducible apply p_canonical
    | simp -implicitDefEqProofs only [Canonical.lit]
    | split
    | intro _
    | dsimp only

theorem clr_canonical (d : Dev) (base : Nat) (f : Fld) (h0 : Canonical d) : Canonical (clr d base f) := by
  unfold clr
  repeat' first
    | with_reducible assumption
    | with_reducible apply p_canonical
    | simp -implicitDefEqProofs only [Canonical.lit]
    | split
    | intro _
    | dsimp only

theorem add_canonical (d : Dev) (base : Nat) (f : Fld) (n : Nat) (h0 : Canonical d) : Canonical (add d base f n) := by
  unfold add
  repeat' first
    | with_reducible assumption
    | with_reducible apply p_canonical
    | simp -implicitDefEqProofs only [Canonical.lit]
    | split
    | intro _
    | dsimp only

theorem modPtn_canonical (d : Dev) (i : Nat) (f : Ptn → Ptn) (h0 : Canonical d) : Canonical (modPtn d i f) := by
  unfold modPtn
  repeat' first
    | with_reducible assumption
    | with_reducible apply setPtn_canonical
    | simp -implicitDefEqProofs only [Canonical.lit]
    | split
    | intro _
    | dsimp only

theorem modClu_canonical (d : Dev) (n : Nat) (f : Clu → Clu) (h0 : Canonical d) : Canonical (modClu d n f) := by
  unfold modClu
  repeat' first
    | with_reducible assumption
    | with_reducible apply setClu_canonical
    | simp -implicitDefEqProofs only [Canonical.lit]
    | split
    | intro _
    | dsimp only

theorem modQueue_canonical (d : Dev) (q : Nat) (f : Queue → Queue) (h0 : Canonical d) : Canonical (modQueue d q f) := by
  unfold modQueue
  repeat' first
    | with_reducible assumption
    | with_reducible apply setQueue_canonical
    | simp -implicitDefEqProofs only [Canonical.lit]
    | split
    | intro _
    | dsimp only

theorem modLink_canonical (d : Dev) (i : Nat) (f : Link → Link) (h0 : Canonical d) : Canonical (modLink d i f) := by
  unfold modLink
  repeat' first
    | with_reducible assumption
    | with_reducible apply setLink_canonical
    | simp -implicitDefEqProofs only [Canonical.lit]
    | split
    | intro _
    | dsimp only

theorem modChan_canonical (d : Dev) (i : Nat) (f : Chan → Chan) (h0 : Canonical d) : Canonical (modChan d i f) := by
  unfold modChan
  repeat' first
    | with_reducible assumption
    | with_reducible apply setChan_canonical
    | simp -implicitDefEqProofs only [Canonical.lit]
    | split
    | intro _
    | dsimp only

theorem modStrm_canonical (d : Dev) (i : Nat) (f : Strm → Strm) (h0 : Canonical d) : Canonical (modStrm d i f) := by
  unfold modStrm
  repeat' first
    | with_reducible assumption
    | with_reducible apply setStrm_canonical
    | simp -implicitDefEqProofs only [Canonical.lit]
    | split
    | intro _
    | dsimp only

theorem setPower_canonical (d : Dev) (n st : Nat) (h0 : Canonical d) : Canonical (setPower d n st) := by
  unfold setPower
  repeat' first
    | with_reducible assumption
    | with_reducible apply p_canonical
    | simp -implicitDefEqProofs only [Canonical.lit]
    | split
    | intro _
    | dsimp only

theorem wake_canonical (d : Dev) (n : Nat) (h0 : Canonical d) : Canonical (wake d n) := by
  unfold wake
  repeat' first
    | with_reducible assumption
    | with_reducible apply setPower_canonical
    | simp -implicitDefEqProofs only [Canonical.lit]
    | split
    | intro _
    | dsimp only

theorem wakeAll_canonical (d : Dev) (i : Nat) (h0 : Canonical d) : Canonical (wakeAll d i) := by
  unfold wakeAll
  repeat' first
    | with_reducible assumption
    | with_reducible apply each_canonical
    | with_reducible apply wake_canonical
    | simp -implicitDefEqProofs only [Canonical.lit]
    | split
    | intro _
    | dsimp only

theorem atPtn_canonical (d : Dev) (i : Nat) (k : Dev → Dev) (h0 : Canonical d) (hk : ∀ e, Canonical e → Canonical (k e)) : Canonical (atPtn d i k) := by
  unfold atPtn
  repeat' first
    | with_reducible assumption
    | with_reducible apply hk
    | simp -implicitDefEqProofs only [Canonical.lit]
    | split
    | intro _
    | dsimp only

theorem complete_canonical (d : Dev) (fn : Fn) (a v : Nat) (h0 : Canonical d) : Canonical (complete d fn a v) := by
  unfold complete
  repeat' first
    | with_reducible assumption
    | with_reducible apply emit_canonical
    | simp -implicitDefEqProofs only [Canonical.lit]
    | split
    | intro _
    | dsimp only

theorem completeHeld_canonical (d : Dev) (fn : Fn) (l v : Nat) (h0 : Canonical d) : Canonical (completeHeld d fn l v) := by
  unfold completeHeld
  repeat' first
    | with_reducible assumption
    | with_reducible apply each_canonical
    | with_reducible apply emit_canonical
    | simp -implicitDefEqProofs only [Canonical.lit]
    | split
    | intro _
    | dsimp only

theorem sendVec_canonical (d : Dev) (fn : Fn) (v : Nat) (h0 : Canonical d) : Canonical (sendVec d fn v) := by
  unfold sendVec
  repeat' first
    | with_reducible assumption
    | with_reducible apply emit_canonical
    | with_reducible apply on_canonical
    | simp -implicitDefEqProofs only [Canonical.lit]
    | split
    | intro _
    | dsimp only

theorem notifyIrq_canonical (d : Dev) (base : Nat) (h0 : Canonical d) : Canonical (notifyIrq d base) := by
  unfold notifyIrq
  repeat' first
    | with_reducible assumption
    | with_reducible apply sendVec_canonical
    | simp -implicitDefEqProofs only [Canonical.lit]
    | split
    | intro _
    | dsimp only

theorem irq_canonical (d : Dev) (base i : Nat) (h0 : Canonical d) : Canonical (irq d base i) := by
  unfold irq
  repeat' first
    | with_reducible assumption
    | with_reducible apply notifyIrq_canonical
    | with_reducible apply p_canonical
    | simp -implicitDefEqProofs only [Canonical.lit]
    | split
    | intro _
    | dsimp only

theorem setIrqEn_canonical (d : Dev) (base v : Nat) (h0 : Canonical d) : Canonical (setIrqEn d base v) := by
  unfold setIrqEn
  repeat' first
    | with_reducible assumption
    | with_reducible apply notifyIrq_canonical
    | with_reducible apply p_canonical
    | simp -implicitDefEqProofs only [Canonical.lit]
    | split
    | intro _
    | dsimp only

theorem accessError_canonical (d : Dev) (fn : Fn) (bar off : Nat) (write : Bool) (h0 : Canonical d) : Canonical (accessError d fn bar off write) := by
  unfold accessError
  repeat' first
    | with_reducible assumption
    | with_reducible apply raise_canonical
    | simp -implicitDefEqProofs only [Canonical.lit]
    | split
    | intro _
    | dsimp only

theorem innerError_canonical (d : Dev) (src part : Nat) (devlvl : Bool) (status : Nat) (write : Bool) (addr : Nat) (h0 : Canonical d) : Canonical (innerError d src part devlvl status write addr) := by
  unfold innerError
  repeat' first
    | with_reducible assumption
    | with_reducible apply raise_canonical
    | simp -implicitDefEqProofs only [Canonical.lit]
    | split
    | intro _
    | dsimp only

theorem sample_canonical (d : Dev) (k x : Nat) (h0 : Canonical d) : Canonical (sample d k x) := by
  unfold sample
  repeat' first
    | with_reducible assumption
    | with_reducible apply add_canonical
    | simp -implicitDefEqProofs only [Canonical.lit]
    | split
    | intro _
    | dsimp only

theorem offer_canonical (d : Dev) (kind : Nat) (src : Nat → Bool) (x : Nat) (h0 : Canonical d) : Canonical (offer d kind src x) := by
  unfold offer
  repeat' first
    | with_reducible assumption
    | with_reducible apply each_canonical
    | with_reducible apply sample_canonical
    | simp -implicitDefEqProofs only [Canonical.lit]
    | split
    | intro _
    | dsimp only

theorem offerBp_canonical (d : Dev) (n t b s : Nat) (v : Bool) (h0 : Canonical d) : Canonical (offerBp d n t b s v) := by
  unfold offerBp
  repeat' first
    | with_reducible assumption
    | with_reducible apply offer_canonical
    | simp -implicitDefEqProofs only [Canonical.lit]
    | split
    | intro _
    | dsimp only

theorem offerWalu_canonical (d : Dev) (n t w s v : Nat) (h0 : Canonical d) : Canonical (offerWalu d n t w s v) := by
  unfold offerWalu
  repeat' first
    | with_reducible assumption
    | with_reducible apply offer_canonical
    | simp -implicitDefEqProofs only [Canonical.lit]
    | split
    | intro _
    | dsimp only

theorem offerLane_canonical (d : Dev) (lane v : Nat) (h0 : Canonical d) : Canonical (offerLane d lane v) := by
  unfold offerLane
  repeat' first
    | with_reducible assumption
    | with_reducible apply offer_canonical
    | simp -implicitDefEqProofs only [Canonical.lit]
    | split
    | intro _
    | dsimp only

theorem offerQueue_canonical (d : Dev) (q ev v : Nat) (h0 : Canonical d) : Canonical (offerQueue d q ev v) := by
  unfold offerQueue
  repeat' first
    | with_reducible assumption
    | with_reducible apply offer_canonical
    | simp -implicitDefEqProofs only [Canonical.lit]
    | split
    | intro _
    | dsimp only

theorem noRoute_canonical (d : Dev) (h0 : Canonical d) : Canonical (noRoute d) := by
  unfold noRoute
  repeat' first
    | with_reducible assumption
    | with_reducible apply add_canonical
    | simp -implicitDefEqProofs only [Canonical.lit]
    | split
    | intro _
    | dsimp only

theorem timedOut_canonical (d : Dev) (src dst vc a : Nat) (h0 : Canonical d) : Canonical (timedOut d src dst vc a) := by
  unfold timedOut
  repeat' first
    | with_reducible assumption
    | with_reducible apply add_canonical
    | with_reducible apply raise_canonical
    | simp -implicitDefEqProofs only [Canonical.lit]
    | split
    | intro _
    | dsimp only

theorem addOutst_canonical (d : Dev) (o : Outst) (h0 : Canonical d) : Canonical (addOutst d o) := by
  unfold addOutst
  repeat' first
    | with_reducible assumption
    | simp -implicitDefEqProofs only [Canonical.lit]
    | split
    | intro _
    | dsimp only

theorem respond_canonical (d : Dev) (k : Packet) (status : Nat) (bs : List Byte) (h0 : Canonical d) : Canonical (respond d k status bs) := by
  unfold respond
  repeat' first
    | with_reducible assumption
    | with_reducible apply emit_canonical
    | simp -implicitDefEqProofs only [Canonical.lit]
    | split
    | intro _
    | dsimp only

theorem synthesise_canonical (d : Dev) (src tag status : Nat) (h0 : Canonical d) : Canonical (synthesise d src tag status) := by
  unfold synthesise
  repeat' first
    | with_reducible assumption
    | with_reducible apply emit_canonical
    | simp -implicitDefEqProofs only [Canonical.lit]
    | split
    | intro _
    | dsimp only

theorem hostTimeout_canonical (d : Dev) (fn : Fn) (h : Option Nat) (bar off : Nat) (write : Bool) (h0 : Canonical d) : Canonical (hostTimeout d fn h bar off write) := by
  unfold hostTimeout
  repeat' first
    | with_reducible assumption
    | with_reducible apply accessError_canonical
    | with_reducible apply timedOut_canonical
    | simp -implicitDefEqProofs only [Canonical.lit]
    | split
    | intro _
    | dsimp only

theorem viaNoc_canonical (d : Dev) (fn : Fn) (h : Option Nat) (bar off : Nat) (write : Bool) (fail k : Dev → Dev) (h0 : Canonical d) (hf : ∀ e, Canonical e → Canonical (fail e)) (hk : ∀ e, Canonical e → Canonical (k e)) : Canonical (viaNoc d fn h bar off write fail k) := by
  unfold viaNoc
  repeat' first
    | with_reducible assumption
    | with_reducible apply hf
    | with_reducible apply hk
    | with_reducible apply accessError_canonical
    | with_reducible apply noRoute_canonical
    | with_reducible apply hostTimeout_canonical
    | simp -implicitDefEqProofs only [Canonical.lit]
    | split
    | intro _
    | dsimp only

theorem answerAt_canonical (d : Dev) (fn : Fn) (a ones v : Nat) (h0 : Canonical d) : Canonical (answerAt d fn a ones v).1 := by
  unfold answerAt
  repeat' first
    | with_reducible assumption
    | with_reducible apply hostTimeout_canonical
    | simp -implicitDefEqProofs only [Canonical.lit]
    | split
    | intro _
    | dsimp only

theorem reply_canonical (d : Dev) (fn : Fn) (a v : Nat) (h0 : Canonical d) : Canonical (reply d fn a v) := by
  unfold reply
  repeat' first
    | with_reducible assumption
    | with_reducible apply answerAt_canonical
    | with_reducible apply complete_canonical
    | simp -implicitDefEqProofs only [Canonical.lit]
    | split
    | intro _
    | dsimp only

theorem reply64_canonical (d : Dev) (fn : Fn) (a v : Nat) (h0 : Canonical d) : Canonical (reply64 d fn a v) := by
  unfold reply64
  repeat' first
    | with_reducible assumption
    | with_reducible apply answerAt_canonical
    | with_reducible apply complete_canonical
    | simp -implicitDefEqProofs only [Canonical.lit]
    | split
    | intro _
    | dsimp only

theorem dropWrite_canonical (d : Dev) (q : Nat) (fin ovr : Bool) (h0 : Canonical d) : Canonical (dropWrite d q fin ovr).1 := by
  unfold dropWrite
  repeat' first
    | with_reducible assumption
    | with_reducible apply irq_canonical
    | with_reducible apply offerQueue_canonical
    | with_reducible apply raise_canonical
    | with_reducible apply setQueue_canonical
    | simp -implicitDefEqProofs only [Canonical.lit]
    | split
    | intro _
    | dsimp only

theorem push_canonical (d : Dev) (q : Nat) (w : QWord) (credit : Bool) (h0 : Canonical d) : Canonical (push d q w credit).1 := by
  unfold push
  repeat' first
    | with_reducible assumption
    | with_reducible apply dropWrite_canonical
    | with_reducible apply offerQueue_canonical
    | with_reducible apply setQueue_canonical
    | simp -implicitDefEqProofs only [Canonical.lit]
    | split
    | intro _
    | dsimp only

theorem takeHead_canonical {d : Dev} {q : Nat} {w : QWord} {e : Dev} (h : d.takeHead q = some (w, e)) (h0 : Canonical d) : Canonical e := by
  unfold takeHead at h; dsimp only at h; split at h
  · cases h
  · simp only [Option.some.injEq, Prod.mk.injEq] at h; rw [← h.2]; exact offerQueue_canonical _ _ _ _ (setQueue_canonical _ _ _ h0)

theorem markBound_canonical (d : Dev) (q : Nat) (h0 : Canonical d) : Canonical (markBound d q) := by
  unfold markBound
  repeat' first
    | with_reducible assumption
    | with_reducible apply modQueue_canonical
    | simp -implicitDefEqProofs only [Canonical.lit]
    | split
    | intro _
    | dsimp only

theorem takeUpTo_canonical (m : Nat) (d : Dev) (q : Nat) (h0 : Canonical d) : Canonical (takeUpTo m d q).2 := by
  induction m generalizing d with
  | zero => exact h0
  | succ m ih =>
    unfold takeUpTo
    repeat' first
      | with_reducible assumption
      | with_reducible apply ih
      | exact takeHead_canonical (by assumption) h0
      | refine ih _ (takeHead_canonical (by assumption) h0)
      | simp -implicitDefEqProofs only [Canonical.lit]
      | split
      | intro _
      | dsimp only

theorem answerQrd_canonical (d : Dev) (q : Nat) (k : Packet) (h0 : Canonical d) : Canonical (answerQrd d q k) := by
  unfold answerQrd
  repeat' first
    | with_reducible assumption
    | with_reducible apply respond_canonical
    | with_reducible apply takeUpTo_canonical
    | simp -implicitDefEqProofs only [Canonical.lit]
    | split
    | intro _
    | dsimp only

theorem popReply_canonical (d : Dev) (fn : Fn) (q v : Nat) (h0 : Canonical d) : Canonical (popReply d fn q v) := by
  unfold popReply
  repeat' first
    | with_reducible assumption
    | with_reducible apply emit_canonical
    | with_reducible apply hostTimeout_canonical
    | simp -implicitDefEqProofs only [Canonical.lit]
    | split
    | intro _
    | dsimp only

theorem completePop_canonical (d : Dev) (fn : Fn) (q : Nat) (h0 : Canonical d) : Canonical (completePop d fn q) := by
  unfold completePop
  repeat' first
    | with_reducible assumption
    | with_reducible apply modQueue_canonical
    | with_reducible apply popReply_canonical
    | simp -implicitDefEqProofs only [Canonical.lit]
    | split
    | intro _
    | dsimp only
    | with_reducible refine takeHead_canonical (by assumption) ?_

theorem serveReaders_canonical (m : Nat) (d : Dev) (q : Nat) (h0 : Canonical d) : Canonical (serveReaders m d q) := by
  induction m generalizing d with
  | zero => exact h0
  | succ m ih =>
    unfold serveReaders
    repeat' first
      | with_reducible assumption
      | with_reducible apply ih
      | with_reducible apply completePop_canonical
      | with_reducible apply setQueue_canonical
      | with_reducible apply answerQrd_canonical
      | simp -implicitDefEqProofs only [Canonical.lit]
      | split
      | intro _
      | dsimp only

theorem wakeReaders_canonical (d : Dev) (q : Nat) (h0 : Canonical d) : Canonical (wakeReaders d q) := by
  unfold wakeReaders
  repeat' first
    | with_reducible assumption
    | with_reducible apply serveReaders_canonical
    | simp -implicitDefEqProofs only [Canonical.lit]
    | split
    | intro _
    | dsimp only

theorem notifyQueue_canonical (d : Dev) (q kind : Nat) (h0 : Canonical d) : Canonical (notifyQueue d q kind) := by
  unfold notifyQueue
  repeat' first
    | with_reducible assumption
    | with_reducible apply irq_canonical
    | with_reducible apply push_canonical
    | with_reducible apply wakeReaders_canonical
    | simp -implicitDefEqProofs only [Canonical.lit]
    | split
    | intro _
    | dsimp only

theorem notifyKinds_canonical (d : Dev) (q : Nat) (ks : List Nat) (h0 : Canonical d) : Canonical (notifyKinds d q ks) := by
  unfold notifyKinds
  repeat' first
    | with_reducible assumption
    | with_reducible apply each_canonical
    | with_reducible apply notifyQueue_canonical
    | simp -implicitDefEqProofs only [Canonical.lit]
    | split
    | intro _
    | dsimp only

theorem append_canonical (d : Dev) (q : Nat) (w : QWord) (credit : Bool) (h0 : Canonical d) : Canonical (append d q w credit) := by
  unfold append
  repeat' first
    | with_reducible assumption
    | with_reducible apply notifyKinds_canonical
    | with_reducible apply push_canonical
    | with_reducible apply wakeReaders_canonical
    | simp -implicitDefEqProofs only [Canonical.lit]
    | split
    | intro _
    | dsimp only

theorem modFences_canonical (d : Dev) (f : List (Nat × Nat) → List (Nat × Nat)) (h0 : Canonical d) : Canonical (modFences d f) := by
  unfold modFences
  repeat' first
    | with_reducible assumption
    | with_reducible apply each_canonical
    | with_reducible apply modQueue_canonical
    | with_reducible apply wakeReaders_canonical
    | simp -implicitDefEqProofs only [Canonical.lit]
    | split
    | intro _
    | dsimp only

theorem settleFences_canonical (d : Dev) (h0 : Canonical d) : Canonical (settleFences d) := by
  unfold settleFences
  repeat' first
    | with_reducible assumption
    | with_reducible apply modFences_canonical
    | simp -implicitDefEqProofs only [Canonical.lit]
    | split
    | intro _
    | dsimp only

theorem farAcked_canonical (d : Dev) (n f j : Nat) (h0 : Canonical d) : Canonical (farAcked d n f j) := by
  unfold farAcked
  repeat' first
    | with_reducible assumption
    | with_reducible apply modFences_canonical
    | simp -implicitDefEqProofs only [Canonical.lit]
    | split
    | intro _
    | dsimp only

theorem freeOutst_canonical (d : Dev) (src tag : Nat) (h0 : Canonical d) : Canonical (freeOutst d src tag) := by
  unfold freeOutst
  repeat' first
    | with_reducible assumption
    | with_reducible apply settleFences_canonical
    | simp -implicitDefEqProofs only [Canonical.lit]
    | split
    | intro _
    | dsimp only

theorem appendAll_canonical (d : Dev) (q : Nat) (ws : List W64) (endLast fence : Bool) (h0 : Canonical d) : Canonical (d.appendAll q ws endLast fence) := by
  induction ws generalizing d fence with
  | nil => exact h0
  | cons w ws ih =>
    cases ws with
    | nil => exact append_canonical _ _ _ _ h0
    | cons v vs => exact ih _ _ (append_canonical _ _ _ _ h0)

theorem flushQueue_canonical (d : Dev) (q : Nat) (h0 : Canonical d) : Canonical (flushQueue d q) := by
  unfold flushQueue
  repeat' first
    | with_reducible assumption
    | with_reducible apply notifyKinds_canonical
    | with_reducible apply setQueue_canonical
    | simp -implicitDefEqProofs only [Canonical.lit]
    | split
    | intro _
    | dsimp only

theorem dropHeadOf_canonical (d : Dev) (q : Nat) (h0 : Canonical d) : Canonical (dropHeadOf d q) := by
  unfold dropHeadOf
  repeat' first
    | with_reducible assumption
    | with_reducible apply notifyKinds_canonical
    | with_reducible apply setQueue_canonical
    | simp -implicitDefEqProofs only [Canonical.lit]
    | split
    | intro _
    | dsimp only

theorem withdrawBridge_canonical (d : Dev) (q : Nat) (h0 : Canonical d) : Canonical (withdrawBridge d q) := by
  unfold withdrawBridge
  repeat' first
    | with_reducible assumption
    | with_reducible apply each_canonical
    | with_reducible apply p_canonical
    | simp -implicitDefEqProofs only [Canonical.lit]
    | split
    | intro _
    | dsimp only

theorem enableQueue_canonical (d : Dev) (q : Nat) (h0 : Canonical d) : Canonical (enableQueue d q) := by
  unfold enableQueue
  repeat' first
    | with_reducible assumption
    | with_reducible apply setQueue_canonical
    | simp -implicitDefEqProofs only [Canonical.lit]
    | split
    | intro _
    | dsimp only

theorem emptyPop_canonical (d : Dev) (fn : Fn) (q : Nat) (h0 : Canonical d) : Canonical (emptyPop d fn q) := by
  unfold emptyPop
  repeat' first
    | with_reducible assumption
    | with_reducible apply modQueue_canonical
    | with_reducible apply popReply_canonical
    | simp -implicitDefEqProofs only [Canonical.lit]
    | split
    | intro _
    | dsimp only

theorem answerHeld_canonical (d : Dev) (q : Nat) (h0 : Canonical d) : Canonical (answerHeld d q) := by
  unfold answerHeld
  repeat' first
    | with_reducible assumption
    | with_reducible apply each_canonical
    | with_reducible apply emptyPop_canonical
    | with_reducible apply respond_canonical
    | with_reducible apply setQueue_canonical
    | simp -implicitDefEqProofs only [Canonical.lit]
    | split
    | intro _
    | dsimp only

theorem dropCredits_canonical (d : Dev) (q : Nat) (h0 : Canonical d) : Canonical (dropCredits d q) := by
  unfold dropCredits
  repeat' first
    | with_reducible assumption
    | with_reducible apply each_canonical
    | with_reducible apply modClu_canonical
    | simp -implicitDefEqProofs only [Canonical.lit]
    | split
    | intro _
    | dsimp only

theorem disableQueue_canonical (d : Dev) (q : Nat) (h0 : Canonical d) : Canonical (disableQueue d q) := by
  unfold disableQueue
  repeat' first
    | with_reducible assumption
    | with_reducible apply answerHeld_canonical
    | with_reducible apply dropCredits_canonical
    | with_reducible apply flushQueue_canonical
    | with_reducible apply modQueue_canonical
    | with_reducible apply withdrawBridge_canonical
    | simp -implicitDefEqProofs only [Canonical.lit]
    | split
    | intro _
    | dsimp only

theorem acceptQwr_canonical (d : Dev) (q : Nat) (k : Packet) (h0 : Canonical d) : Canonical (acceptQwr d q k) := by
  unfold acceptQwr
  repeat' first
    | with_reducible assumption
    | with_reducible apply append_canonical
    | with_reducible apply each_canonical
    | with_reducible apply respond_canonical
    | simp -implicitDefEqProofs only [Canonical.lit]
    | split
    | intro _
    | dsimp only

theorem serveWriters_canonical (m : Nat) (d : Dev) (q : Nat) (h0 : Canonical d) : Canonical (serveWriters m d q) := by
  induction m generalizing d with
  | zero => exact h0
  | succ m ih =>
    unfold serveWriters
    repeat' first
      | with_reducible assumption
      | with_reducible apply ih
      | with_reducible apply acceptQwr_canonical
      | with_reducible apply setQueue_canonical
      | simp -implicitDefEqProofs only [Canonical.lit]
      | split
      | intro _
      | dsimp only

theorem serveHeld_canonical (d : Dev) (h0 : Canonical d) : Canonical (serveHeld d) := by
  unfold serveHeld
  repeat' first
    | with_reducible assumption
    | with_reducible apply each_canonical
    | with_reducible apply serveWriters_canonical
    | simp -implicitDefEqProofs only [Canonical.lit]
    | split
    | intro _
    | dsimp only

theorem sendAnswers_canonical (m : Nat) (d : Dev) (h0 : Canonical d) : Canonical (sendAnswers m d) := by
  induction m generalizing d with
  | zero => exact h0
  | succ m ih =>
    unfold sendAnswers
    repeat' first
      | with_reducible assumption
      | with_reducible apply ih
      | with_reducible apply appendAll_canonical
      | simp -implicitDefEqProofs only [Canonical.lit]
      | split
      | intro _
      | dsimp only

theorem answer_canonical (d : Dev) (op : Nat) (tag : Nat) (status : Nat) (ws : List W64) (h0 : Canonical d) : Canonical (answer d op tag status ws) := by
  unfold answer
  repeat' first
    | with_reducible assumption
    | with_reducible apply sendAnswers_canonical
    | simp -implicitDefEqProofs only [Canonical.lit]
    | split
    | intro _
    | dsimp only

theorem takeService_canonical (d : Dev) (op : Nat) (tag : Nat) (arg : Nat) (ws : List W64) (h0 : Canonical d) : Canonical (takeService d op tag arg ws) := by
  unfold takeService
  repeat' first
    | with_reducible assumption
    | with_reducible apply setQueue_canonical
    | simp -implicitDefEqProofs only [Canonical.lit]
    | split
    | intro _
    | dsimp only

theorem countOne_canonical (d : Dev) (base : Nat) (cnt ovf : Fld) (h0 : Canonical d) : Canonical (countOne d base cnt ovf) := by
  unfold countOne
  repeat' first
    | with_reducible assumption
    | with_reducible apply on_canonical
    | with_reducible apply p_canonical
    | simp -implicitDefEqProofs only [Canonical.lit]
    | split
    | intro _
    | dsimp only

theorem countEvent_canonical (d : Dev) (num : Nat) (h0 : Canonical d) : Canonical (countEvent d num) := by
  unfold countEvent
  repeat' first
    | with_reducible assumption
    | with_reducible apply countOne_canonical
    | with_reducible apply each_canonical
    | simp -implicitDefEqProofs only [Canonical.lit]
    | split
    | intro _
    | dsimp only

theorem lastGasp_canonical (d : Dev) (num cls owner i0 i1 : Nat) (h0 : Canonical d) : Canonical (lastGasp d num cls owner i0 i1) := by
  unfold lastGasp
  repeat' first
    | with_reducible assumption
    | with_reducible apply add_canonical
    | with_reducible apply p_canonical
    | simp -implicitDefEqProofs only [Canonical.lit]
    | split
    | intro _
    | dsimp only

theorem logToQueue_canonical (d : Dev) (e : LogEntry) (h0 : Canonical d) : Canonical (logToQueue d e) := by
  unfold logToQueue
  repeat' first
    | with_reducible assumption
    | with_reducible apply appendAll_canonical
    | simp -implicitDefEqProofs only [Canonical.lit]
    | split
    | intro _
    | dsimp only

theorem logFail_canonical (d : Dev) (i syn : Nat) (h0 : Canonical d) : Canonical (logFail d i syn) := by
  unfold logFail
  repeat' first
    | with_reducible assumption
    | with_reducible apply irq_canonical
    | with_reducible apply lastGasp_canonical
    | with_reducible apply on_canonical
    | with_reducible apply raise_canonical
    | simp -implicitDefEqProofs only [Canonical.lit]
    | split
    | intro _
    | dsimp only

theorem logCheck_canonical (d : Dev) (i : Nat) (ws : List W64) (h0 : Canonical d) : Canonical (logCheck d i ws).1 := by
  unfold logCheck
  repeat' first
    | with_reducible assumption
    | with_reducible apply add_canonical
    | simp -implicitDefEqProofs only [Canonical.lit]
    | split
    | intro _
    | dsimp only

theorem logPast_canonical (d : Dev) (e : LogEntry) (h0 : Canonical d) : Canonical (logPast d e) := by
  unfold logPast
  repeat' first
    | with_reducible assumption
    | with_reducible apply iff_canonical
    | with_reducible apply lastGasp_canonical
    | with_reducible apply logToQueue_canonical
    | simp -implicitDefEqProofs only [Canonical.lit]
    | split
    | intro _
    | dsimp only

theorem logPut_canonical (d : Dev) (i : Nat) (e : LogEntry) (h0 : Canonical d) : Canonical (logPut d i e) := by
  unfold logPut
  repeat' first
    | with_reducible assumption
    | with_reducible apply add_canonical
    | with_reducible apply iff_canonical
    | with_reducible apply irq_canonical
    | with_reducible apply logToQueue_canonical
    | with_reducible apply on_canonical
    | with_reducible apply p_canonical
    | with_reducible apply raise_canonical
    | simp -implicitDefEqProofs only [Canonical.lit]
    | split
    | intro _
    | dsimp only

theorem logEvent_canonical (d : Dev) (ev : Ev) (h0 : Canonical d) : Canonical (logEvent d ev) := by
  unfold logEvent
  repeat' first
    | with_reducible assumption
    | with_reducible apply logCheck_canonical
    | with_reducible apply logFail_canonical
    | with_reducible apply logPast_canonical
    | with_reducible apply logPut_canonical
    | simp -implicitDefEqProofs only [Canonical.lit]
    | split
    | intro _
    | dsimp only

theorem mntRequest_canonical (d : Dev) (id adds sparing : Nat) (retry : Bool) (h0 : Canonical d) : Canonical (mntRequest d id adds sparing retry).1 := by
  unfold mntRequest
  repeat' first
    | with_reducible assumption
    | with_reducible apply add_canonical
    | with_reducible apply id_canonical
    | with_reducible apply irq_canonical
    | with_reducible apply p_canonical
    | with_reducible apply raise_canonical
    | simp -implicitDefEqProofs only [Canonical.lit]
    | split
    | intro _
    | dsimp only

theorem mntDrop_canonical (d : Dev) (id : Nat) (h0 : Canonical d) : Canonical (mntDrop d id) := by
  unfold mntDrop
  repeat' first
    | with_reducible assumption
    | with_reducible apply id_canonical
    | simp -implicitDefEqProofs only [Canonical.lit]
    | split
    | intro _
    | dsimp only

theorem integFail_canonical (d : Dev) (r : Req) (a level : Nat) (write : Bool) (h0 : Canonical d) : Canonical (integFail d r a level write) := by
  unfold integFail
  repeat' first
    | with_reducible assumption
    | with_reducible apply add_canonical
    | with_reducible apply irq_canonical
    | with_reducible apply on_canonical
    | with_reducible apply p_canonical
    | with_reducible apply raise_canonical
    | simp -implicitDefEqProofs only [Canonical.lit]
    | split
    | intro _
    | dsimp only

theorem wantRoll_canonical (d : Dev) (cause : Nat) (h0 : Canonical d) : Canonical (wantRoll d cause) := by
  unfold wantRoll
  repeat' first
    | with_reducible assumption
    | with_reducible apply on_canonical
    | with_reducible apply p_canonical
    | simp -implicitDefEqProofs only [Canonical.lit]
    | split
    | intro _
    | dsimp only

theorem tryRoll_canonical (d : Dev) (retry : Bool) (h0 : Canonical d) : Canonical (tryRoll d retry) := by
  unfold tryRoll
  repeat' first
    | with_reducible assumption
    | with_reducible apply mntRequest_canonical
    | with_reducible apply on_canonical
    | with_reducible apply p_canonical
    | simp -implicitDefEqProofs only [Canonical.lit]
    | split
    | intro _
    | dsimp only

theorem scrubRequest_canonical (d : Dev) (i : Nat) (retry : Bool) (h0 : Canonical d) : Canonical (scrubRequest d i retry) := by
  unfold scrubRequest
  repeat' first
    | with_reducible assumption
    | with_reducible apply id_canonical
    | with_reducible apply mntRequest_canonical
    | with_reducible apply p_canonical
    | simp -implicitDefEqProofs only [Canonical.lit]
    | split
    | intro _
    | dsimp only

theorem retryPasses_canonical (d : Dev) (h0 : Canonical d) : Canonical (retryPasses d) := by
  unfold retryPasses
  repeat' first
    | with_reducible assumption
    | with_reducible apply each_canonical
    | with_reducible apply scrubRequest_canonical
    | simp -implicitDefEqProofs only [Canonical.lit]
    | split
    | intro _
    | dsimp only

theorem retryWaits_canonical (d : Dev) (h0 : Canonical d) : Canonical (retryWaits d) := by
  unfold retryWaits
  repeat' first
    | with_reducible assumption
    | with_reducible apply retryPasses_canonical
    | with_reducible apply tryRoll_canonical
    | simp -implicitDefEqProofs only [Canonical.lit]
    | split
    | intro _
    | dsimp only

theorem mntFree_canonical (d : Dev) (id : Nat) (h0 : Canonical d) : Canonical (mntFree d id) := by
  unfold mntFree
  repeat' first
    | with_reducible assumption
    | with_reducible apply id_canonical
    | with_reducible apply mntDrop_canonical
    | with_reducible apply retryWaits_canonical
    | simp -implicitDefEqProofs only [Canonical.lit]
    | split
    | intro _
    | dsimp only

theorem requestRoll_canonical (d : Dev) (cause : Nat) (h0 : Canonical d) : Canonical (requestRoll d cause) := by
  unfold requestRoll
  repeat' first
    | with_reducible assumption
    | with_reducible apply tryRoll_canonical
    | with_reducible apply wantRoll_canonical
    | simp -implicitDefEqProofs only [Canonical.lit]
    | split
    | intro _
    | dsimp only

theorem countBlocks_canonical (d : Dev) (n : Nat) (h0 : Canonical d) : Canonical (countBlocks d n) := by
  unfold countBlocks
  repeat' first
    | with_reducible assumption
    | with_reducible apply p_canonical
    | with_reducible apply requestRoll_canonical
    | simp -implicitDefEqProofs only [Canonical.lit]
    | split
    | intro _
    | dsimp only

theorem watchCtr_canonical (d : Dev) (c : Nat) (h0 : Canonical d) : Canonical (watchCtr d c) := by
  unfold watchCtr
  repeat' first
    | with_reducible assumption
    | with_reducible apply requestRoll_canonical
    | simp -implicitDefEqProofs only [Canonical.lit]
    | split
    | intro _
    | dsimp only

theorem metaMoved_canonical (d : Dev) (level index : Nat) (h0 : Canonical d) : Canonical (metaMoved d level index) := by
  unfold metaMoved
  repeat' first
    | with_reducible assumption
    | with_reducible apply add_canonical
    | simp -implicitDefEqProofs only [Canonical.lit]
    | split
    | intro _
    | dsimp only

theorem writeNode_canonical (d : Dev) (node : Nat) (h0 : Canonical d) : Canonical (writeNode d node) := by
  unfold writeNode
  repeat' first
    | with_reducible assumption
    | with_reducible apply add_canonical
    | with_reducible apply metaMoved_canonical
    | with_reducible apply watchCtr_canonical
    | simp -implicitDefEqProofs only [Canonical.lit]
    | split
    | intro _
    | dsimp only

theorem writeLeaf_canonical (d : Dev) (line : Nat) (h0 : Canonical d) : Canonical (writeLeaf d line) := by
  unfold writeLeaf
  repeat' first
    | with_reducible assumption
    | with_reducible apply add_canonical
    | with_reducible apply iff_canonical
    | with_reducible apply integFail_canonical
    | with_reducible apply metaMoved_canonical
    | with_reducible apply watchCtr_canonical
    | with_reducible apply writeNode_canonical
    | simp -implicitDefEqProofs only [Canonical.lit]
    | split
    | intro _
    | dsimp only

theorem writeBack_canonical (d : Dev) (level index : Nat) (h0 : Canonical d) : Canonical (writeBack d level index) := by
  unfold writeBack
  repeat' first
    | with_reducible assumption
    | with_reducible apply add_canonical
    | with_reducible apply metaMoved_canonical
    | with_reducible apply writeLeaf_canonical
    | with_reducible apply writeNode_canonical
    | simp -implicitDefEqProofs only [Canonical.lit]
    | split
    | intro _
    | dsimp only

theorem evict_canonical (d : Dev) (q : Nat) (h0 : Canonical d) : Canonical (evict d q) := by
  unfold evict
  repeat' first
    | with_reducible assumption
    | with_reducible apply tick_canonical
    | with_reducible apply writeBack_canonical
    | with_reducible apply foldl_canonical
    | with_reducible apply fold1_canonical
    | simp -implicitDefEqProofs only [Canonical.lit]
    | split
    | intro _
    | dsimp only

theorem cacheLookup_canonical (d : Dev) (level index : Nat) (dirty : Bool) (h0 : Canonical d) : Canonical (cacheLookup d level index dirty) := by
  unfold cacheLookup
  repeat' first
    | with_reducible assumption
    | with_reducible apply add_canonical
    | with_reducible apply evict_canonical
    | with_reducible apply iff_canonical
    | with_reducible apply metaMoved_canonical
    | simp -implicitDefEqProofs only [Canonical.lit]
    | split
    | intro _
    | dsimp only

theorem touchMeta_canonical (d : Dev) (a n : Nat) (write : Bool) (h0 : Canonical d) : Canonical (touchMeta d a n write) := by
  unfold touchMeta
  repeat' first
    | with_reducible assumption
    | with_reducible apply cacheLookup_canonical
    | with_reducible apply each_canonical
    | with_reducible apply raise_canonical
    | simp -implicitDefEqProofs only [Canonical.lit]
    | split
    | intro _
    | dsimp only

theorem stackCount_canonical (d : Dev) (ce ue : List Nat) (h0 : Canonical d) : Canonical (stackCount d ce ue) := by
  unfold stackCount
  repeat' first
    | with_reducible assumption
    | with_reducible apply add_canonical
    | with_reducible apply each_canonical
    | with_reducible apply irq_canonical
    | simp -implicitDefEqProofs only [Canonical.lit]
    | split
    | intro _
    | dsimp only

theorem stackFresh_canonical (d : Dev) (lo hi : Nat) (h0 : Canonical d) : Canonical (stackFresh d lo hi) := by
  unfold stackFresh
  repeat' first
    | with_reducible assumption
    | simp -implicitDefEqProofs only [Canonical.lit]
    | split
    | intro _
    | dsimp only

theorem bumpCounter_canonical (d : Dev) (sec : Nat) (h0 : Canonical d) : Canonical (bumpCounter d sec) := by
  unfold bumpCounter
  repeat' first
    | with_reducible assumption
    | with_reducible apply iff_canonical
    | with_reducible apply stackFresh_canonical
    | with_reducible apply watchCtr_canonical
    | simp -implicitDefEqProofs only [Canonical.lit]
    | split
    | intro _
    | dsimp only

theorem hbmRefuse_canonical (d : Dev) (r : Req) (a n : Nat) (write : Bool) (h0 : Canonical d) : Canonical (hbmRefuse d r a n write) := by
  unfold hbmRefuse
  repeat' first
    | with_reducible assumption
    | with_reducible apply add_canonical
    | with_reducible apply iff_canonical
    | with_reducible apply innerError_canonical
    | simp -implicitDefEqProofs only [Canonical.lit]
    | split
    | intro _
    | dsimp only

theorem hbmRead_canonical (d : Dev) (r : Req) (a n : Nat) (h0 : Canonical d) : Canonical (hbmRead d r a n).1 := by
  unfold hbmRead
  repeat' first
    | with_reducible assumption
    | with_reducible apply each_canonical
    | with_reducible apply hbmRefuse_canonical
    | with_reducible apply integFail_canonical
    | with_reducible apply noRoute_canonical
    | with_reducible apply stackCount_canonical
    | with_reducible apply touchMeta_canonical
    | simp -implicitDefEqProofs only [Canonical.lit]
    | split
    | intro _
    | dsimp only

theorem hbmWrite_canonical (d : Dev) (r : Req) (a : Nat) (bs : List Byte) (h0 : Canonical d) : Canonical (hbmWrite d r a bs).1 := by
  unfold hbmWrite
  repeat' first
    | with_reducible assumption
    | with_reducible apply Canonical.put
    | with_reducible apply noRoute_canonical
    | with_reducible apply hbmRefuse_canonical
    | with_reducible apply integFail_canonical
    | with_reducible apply stackCount_canonical
    | with_reducible apply each_canonical
    | with_reducible apply touchMeta_canonical
    | with_reducible apply bumpCounter_canonical
    | with_reducible apply stackFresh_canonical
    | with_reducible apply countBlocks_canonical
    | simp -implicitDefEqProofs only [Canonical.lit]
    | split
    | intro _
    | dsimp only

theorem hbmAnswer_canonical (d : Dev) (r : Req) (a status : Nat) (h0 : Canonical d) : Canonical (hbmAnswer d r a status).1 := by
  unfold hbmAnswer
  repeat' first
    | with_reducible assumption
    | with_reducible apply timedOut_canonical
    | simp -implicitDefEqProofs only [Canonical.lit]
    | split
    | intro _
    | dsimp only

theorem hbmFetch_canonical (d : Dev) (r : Req) (a n : Nat) (h0 : Canonical d) : Canonical (hbmFetch d r a n).1 := by
  unfold hbmFetch
  repeat' first
    | with_reducible assumption
    | with_reducible apply hbmAnswer_canonical
    | with_reducible apply hbmRead_canonical
    | simp -implicitDefEqProofs only [Canonical.lit]
    | split
    | intro _
    | dsimp only

theorem hbmSend_canonical (d : Dev) (r : Req) (a : Nat) (bs : List Byte) (h0 : Canonical d) : Canonical (hbmSend d r a bs).1 := by
  unfold hbmSend
  repeat' first
    | with_reducible assumption
    | with_reducible apply hbmAnswer_canonical
    | with_reducible apply hbmWrite_canonical
    | simp -implicitDefEqProofs only [Canonical.lit]
    | split
    | intro _
    | dsimp only

theorem hbmGet_canonical (d : Dev) (r : Req) (a n : Nat) (h0 : Canonical d) : Canonical (hbmGet d r a n).1 := by
  unfold hbmGet
  repeat' first
    | with_reducible assumption
    | with_reducible apply hbmFetch_canonical
    | with_reducible apply foldl_canonical
    | with_reducible apply fold1_canonical
    | simp -implicitDefEqProofs only [Canonical.lit]
    | split
    | intro _
    | dsimp only

theorem hbmStore_canonical (d : Dev) (r : Req) (a : Nat) (bs : List Byte) (h0 : Canonical d) : Canonical (hbmStore d r a bs).1 := by
  unfold hbmStore
  repeat' first
    | with_reducible assumption
    | with_reducible apply hbmSend_canonical
    | with_reducible apply foldl_canonical
    | with_reducible apply fold1_canonical
    | simp -implicitDefEqProofs only [Canonical.lit]
    | split
    | intro _
    | dsimp only

theorem hbmPut_canonical (d : Dev) (r : Req) (a : Nat) (bs : List Byte) (h0 : Canonical d) : Canonical (hbmPut d r a bs) := by
  unfold hbmPut
  repeat' first
    | with_reducible assumption
    | with_reducible apply hbmStore_canonical
    | simp -implicitDefEqProofs only [Canonical.lit]
    | split
    | intro _
    | dsimp only

theorem zeroRange_canonical (d : Dev) (r : Req) (a n : Nat) (h0 : Canonical d) : Canonical (zeroRange d r a n) := by
  unfold zeroRange
  repeat' first
    | with_reducible assumption
    | with_reducible apply each_canonical
    | with_reducible apply hbmSend_canonical
    | simp -implicitDefEqProofs only [Canonical.lit]
    | split
    | intro _
    | dsimp only

theorem pauseRoll_canonical (d : Dev) (snap : Bool) (h0 : Canonical d) : Canonical (pauseRoll d snap) := by
  unfold pauseRoll
  repeat' first
    | with_reducible assumption
    | with_reducible apply irq_canonical
    | with_reducible apply on_canonical
    | with_reducible apply p_canonical
    | simp -implicitDefEqProofs only [Canonical.lit]
    | split
    | intro _
    | dsimp only

theorem passTree_canonical (d : Dev) (lo hi : Nat) (h0 : Canonical d) : Canonical (passTree d lo hi) := by
  unfold passTree
  repeat' first
    | with_reducible assumption
    | with_reducible apply foldl_canonical
    | with_reducible apply fold1_canonical
    | simp -implicitDefEqProofs only [Canonical.lit]
    | split
    | intro _
    | dsimp only

theorem setBoundary_canonical (d : Dev) (b : Nat) (h0 : Canonical d) : Canonical (setBoundary d b) := by
  unfold setBoundary
  repeat' first
    | with_reducible assumption
    | with_reducible apply p_canonical
    | with_reducible apply passTree_canonical
    | simp -implicitDefEqProofs only [Canonical.lit]
    | split
    | intro _
    | dsimp only

theorem endRoll_canonical (d : Dev) (h0 : Canonical d) : Canonical (endRoll d) := by
  unfold endRoll
  repeat' first
    | with_reducible assumption
    | with_reducible apply add_canonical
    | with_reducible apply irq_canonical
    | with_reducible apply mntFree_canonical
    | with_reducible apply p_canonical
    | with_reducible apply raise_canonical
    | with_reducible apply requestRoll_canonical
    | with_reducible apply setBoundary_canonical
    | simp -implicitDefEqProofs only [Canonical.lit]
    | split
    | intro _
    | dsimp only

theorem setCounter_canonical (d : Dev) (sec c : Nat) (h0 : Canonical d) : Canonical (setCounter d sec c) := by
  unfold setCounter
  repeat' first
    | with_reducible assumption
    | simp -implicitDefEqProofs only [Canonical.lit]
    | split
    | intro _
    | dsimp only

theorem convertSector_canonical (d : Dev) (sec : Nat) (h0 : Canonical d) : Canonical (convertSector d sec) := by
  unfold convertSector
  repeat' first
    | with_reducible assumption
    | with_reducible apply Canonical.del
    | with_reducible apply integFail_canonical
    | with_reducible apply stackCount_canonical
    | with_reducible apply setCounter_canonical
    | with_reducible apply setBoundary_canonical
    | with_reducible apply touchMeta_canonical
    | with_reducible apply stackFresh_canonical
    | with_reducible apply countBlocks_canonical
    | simp -implicitDefEqProofs only [Canonical.lit]
    | split
    | intro _
    | dsimp only

theorem lineOut_canonical (d : Dev) (gi l : Nat) (bits : List Bool) (h0 : Canonical d) : Canonical (lineOut d gi l bits) := by
  unfold lineOut
  repeat' first
    | with_reducible assumption
    | with_reducible apply emit_canonical
    | with_reducible apply modLink_canonical
    | simp -implicitDefEqProofs only [Canonical.lit]
    | split
    | intro _
    | dsimp only

theorem sendFlit_canonical (d : Dev) (gi : Nat) (flit : BitVec 320) (h0 : Canonical d) : Canonical (sendFlit d gi flit) := by
  unfold sendFlit
  repeat' first
    | with_reducible assumption
    | with_reducible apply emit_canonical
    | with_reducible apply modLink_canonical
    | simp -implicitDefEqProofs only [Canonical.lit]
    | split
    | intro _
    | dsimp only

theorem control_canonical (d : Dev) (gi kind body : Nat) (h0 : Canonical d) : Canonical (control d gi kind body) := by
  unfold control
  repeat' first
    | with_reducible assumption
    | with_reducible apply emit_canonical
    | with_reducible apply modLink_canonical
    | simp -implicitDefEqProofs only [Canonical.lit]
    | split
    | intro _
    | dsimp only

theorem controlAll_canonical (d : Dev) (kind body : Nat) (h0 : Canonical d) : Canonical (controlAll d kind body) := by
  unfold controlAll
  repeat' first
    | with_reducible assumption
    | with_reducible apply control_canonical
    | with_reducible apply each_canonical
    | simp -implicitDefEqProofs only [Canonical.lit]
    | split
    | intro _
    | dsimp only

theorem ringOut_canonical (d : Dev) (kind dest src n ttl : Nat) (payload : List Byte) (h0 : Canonical d) : Canonical (ringOut d kind dest src n ttl payload) := by
  unfold ringOut
  repeat' first
    | with_reducible assumption
    | with_reducible apply emit_canonical
    | simp -implicitDefEqProofs only [Canonical.lit]
    | split
    | intro _
    | dsimp only

theorem ringSend_canonical (d : Dev) (kind dest : Nat) (payload : List Byte) (h0 : Canonical d) : Canonical (ringSend d kind dest payload) := by
  unfold ringSend
  repeat' first
    | with_reducible assumption
    | with_reducible apply ringOut_canonical
    | simp -implicitDefEqProofs only [Canonical.lit]
    | split
    | intro _
    | dsimp only

theorem controlPtn_canonical (d : Dev) (i kind body : Nat) (h0 : Canonical d) : Canonical (controlPtn d i kind body) := by
  unfold controlPtn
  repeat' first
    | with_reducible assumption
    | with_reducible apply control_canonical
    | with_reducible apply each_canonical
    | simp -implicitDefEqProofs only [Canonical.lit]
    | split
    | intro _
    | dsimp only

theorem freezeReq_canonical (d : Dev) (i cause : Nat) (h0 : Canonical d) : Canonical (freezeReq d i cause) := by
  unfold freezeReq
  repeat' first
    | with_reducible assumption
    | with_reducible apply controlPtn_canonical
    | with_reducible apply on_canonical
    | with_reducible apply setPtn_canonical
    | simp -implicitDefEqProofs only [Canonical.lit]
    | split
    | intro _
    | dsimp only

theorem sysFreezeHere_canonical (d : Dev) (h0 : Canonical d) : Canonical (sysFreezeHere d) := by
  unfold sysFreezeHere
  repeat' first
    | with_reducible assumption
    | with_reducible apply each_canonical
    | with_reducible apply freezeReq_canonical
    | simp -implicitDefEqProofs only [Canonical.lit]
    | split
    | intro _
    | dsimp only

theorem floodFreeze_canonical (d : Dev) (origin n : Nat) (toRing : Bool) (h0 : Canonical d) : Canonical (floodFreeze d origin n toRing) := by
  unfold floodFreeze
  repeat' first
    | with_reducible assumption
    | with_reducible apply controlAll_canonical
    | with_reducible apply on_canonical
    | with_reducible apply p_canonical
    | with_reducible apply raise_canonical
    | with_reducible apply ringSend_canonical
    | with_reducible apply sysFreezeHere_canonical
    | simp -implicitDefEqProofs only [Canonical.lit]
    | split
    | intro _
    | dsimp only

theorem raiseSysFreeze_canonical (d : Dev) (h0 : Canonical d) : Canonical (raiseSysFreeze d) := by
  unfold raiseSysFreeze
  repeat' first
    | with_reducible assumption
    | with_reducible apply floodFreeze_canonical
    | simp -implicitDefEqProofs only [Canonical.lit]
    | split
    | intro _
    | dsimp only

theorem strobeReq_canonical (d : Dev) (src : Nat) (h0 : Canonical d) : Canonical (strobeReq d src) := by
  unfold strobeReq
  repeat' first
    | with_reducible assumption
    | with_reducible apply on_canonical
    | with_reducible apply ringSend_canonical
    | simp -implicitDefEqProofs only [Canonical.lit]
    | split
    | intro _
    | dsimp only

theorem upstreamLoss_canonical (d : Dev) (gi : Nat) (h0 : Canonical d) : Canonical (upstreamLoss d gi) := by
  unfold upstreamLoss
  repeat' first
    | with_reducible assumption
    | with_reducible apply add_canonical
    | with_reducible apply on_canonical
    | with_reducible apply p_canonical
    | with_reducible apply raiseSysFreeze_canonical
    | simp -implicitDefEqProofs only [Canonical.lit]
    | split
    | intro _
    | dsimp only

theorem slotErr_canonical (d : Dev) (h0 : Canonical d) : Canonical (slotErr d) := by
  unfold slotErr
  repeat' first
    | with_reducible assumption
    | with_reducible apply on_canonical
    | with_reducible apply raiseSysFreeze_canonical
    | simp -implicitDefEqProofs only [Canonical.lit]
    | split
    | intro _
    | dsimp only

theorem ctlBad_canonical (d : Dev) (gi : Nat) (h0 : Canonical d) : Canonical (ctlBad d gi) := by
  unfold ctlBad
  repeat' first
    | with_reducible assumption
    | with_reducible apply add_canonical
    | with_reducible apply slotErr_canonical
    | simp -implicitDefEqProofs only [Canonical.lit]
    | split
    | intro _
    | dsimp only

theorem cutBlock_canonical (d : Dev) (ch : Nat) (h0 : Canonical d) : Canonical (cutBlock d ch) := by
  unfold cutBlock
  repeat' first
    | with_reducible assumption
    | with_reducible apply setChan_canonical
    | simp -implicitDefEqProofs only [Canonical.lit]
    | split
    | intro _
    | dsimp only

theorem cutBlocks_canonical (m : Nat) (d : Dev) (ch : Nat) (h0 : Canonical d) : Canonical (cutBlocks m d ch) := by
  induction m generalizing d with
  | zero => exact h0
  | succ m ih =>
    unfold cutBlocks
    repeat' first
      | with_reducible assumption
      | with_reducible apply ih
      | with_reducible apply cutBlock_canonical
      | simp -implicitDefEqProofs only [Canonical.lit]
      | split
      | intro _
      | dsimp only

theorem capBytes_canonical (d : Dev) (ch : Nat) (bs : List Byte) (cyc : Nat) (ovf : Bool) (h0 : Canonical d) : Canonical (capBytes d ch bs cyc ovf) := by
  unfold capBytes
  repeat' first
    | with_reducible assumption
    | simp -implicitDefEqProofs only [Canonical.lit]
    | split
    | intro _
    | dsimp only

theorem capFlush_canonical (d : Dev) (h0 : Canonical d) : Canonical (capFlush d) := by
  unfold capFlush
  repeat' first
    | with_reducible assumption
    | with_reducible apply cutBlocks_canonical
    | with_reducible apply each_canonical
    | with_reducible apply setChan_canonical
    | simp -implicitDefEqProofs only [Canonical.lit]
    | split
    | intro _
    | dsimp only

theorem capLost_canonical (d : Dev) (ch : Nat) (h0 : Canonical d) : Canonical (capLost d ch) := by
  unfold capLost
  repeat' first
    | with_reducible assumption
    | with_reducible apply modChan_canonical
    | simp -implicitDefEqProofs only [Canonical.lit]
    | split
    | intro _
    | dsimp only

theorem laneRows_canonical (m : Nat) (d : Dev) (ch : Nat) (h0 : Canonical d) : Canonical (laneRows m d ch) := by
  induction m generalizing d with
  | zero => exact h0
  | succ m ih =>
    unfold laneRows
    repeat' first
      | with_reducible assumption
      | with_reducible apply ih
      | with_reducible apply capBytes_canonical
      | with_reducible apply modChan_canonical
      | simp -implicitDefEqProofs only [Canonical.lit]
      | split
      | intro _
      | dsimp only

theorem capLine_canonical (d : Dev) (gi l : Nat) (transmit decoded : Bool) (bits : List Bool) (h0 : Canonical d) : Canonical (capLine d gi l transmit decoded bits) := by
  unfold capLine
  repeat' first
    | with_reducible assumption
    | with_reducible apply each_canonical
    | with_reducible apply laneRows_canonical
    | with_reducible apply modChan_canonical
    | simp -implicitDefEqProofs only [Canonical.lit]
    | split
    | intro _
    | dsimp only

theorem capDark_canonical (d : Dev) (h0 : Canonical d) : Canonical (capDark d) := by
  unfold capDark
  repeat' first
    | with_reducible assumption
    | with_reducible apply each_canonical
    | with_reducible apply modChan_canonical
    | with_reducible apply foldl_canonical
    | with_reducible apply fold1_canonical
    | simp -implicitDefEqProofs only [Canonical.lit]
    | split
    | intro _
    | dsimp only

theorem writeEntry_canonical (d : Dev) (c ch fl : Nat) (h0 : Canonical d) : Canonical (writeEntry d c ch fl) := by
  unfold writeEntry
  repeat' first
    | with_reducible assumption
    | with_reducible apply hbmPut_canonical
    | simp -implicitDefEqProofs only [Canonical.lit]
    | split
    | intro _
    | dsimp only

theorem clearEntries_canonical (d : Dev) (c : Nat) (h0 : Canonical d) : Canonical (clearEntries d c) := by
  unfold clearEntries
  repeat' first
    | with_reducible assumption
    | with_reducible apply each_canonical
    | with_reducible apply hbmGet_canonical
    | with_reducible apply hbmPut_canonical
    | simp -implicitDefEqProofs only [Canonical.lit]
    | split
    | intro _
    | dsimp only

theorem beginCapture_canonical (d : Dev) (c : Nat) (h0 : Canonical d) : Canonical (beginCapture d c) := by
  unfold beginCapture
  repeat' first
    | with_reducible assumption
    | with_reducible apply clearEntries_canonical
    | with_reducible apply each_canonical
    | with_reducible apply p_canonical
    | with_reducible apply reset_canonical
    | with_reducible apply setChan_canonical
    | simp -implicitDefEqProofs only [Canonical.lit]
    | split
    | intro _
    | dsimp only

theorem drivePin_canonical (d : Dev) (j : Nat) (active : Bool) (h0 : Canonical d) : Canonical (drivePin d j active) := by
  unfold drivePin
  repeat' first
    | with_reducible assumption
    | with_reducible apply emit_canonical
    | with_reducible apply p_canonical
    | simp -implicitDefEqProofs only [Canonical.lit]
    | split
    | intro _
    | dsimp only

theorem levelPins_canonical (d : Dev) (c : Nat) (h0 : Canonical d) : Canonical (levelPins d c) := by
  unfold levelPins
  repeat' first
    | with_reducible assumption
    | with_reducible apply drivePin_canonical
    | with_reducible apply each_canonical
    | simp -implicitDefEqProofs only [Canonical.lit]
    | split
    | intro _
    | dsimp only

theorem capIdle_canonical (d : Dev) (c : Nat) (h0 : Canonical d) : Canonical (capIdle d c) := by
  unfold capIdle
  repeat' first
    | with_reducible assumption
    | with_reducible apply each_canonical
    | with_reducible apply levelPins_canonical
    | with_reducible apply modChan_canonical
    | with_reducible apply p_canonical
    | simp -implicitDefEqProofs only [Canonical.lit]
    | split
    | intro _
    | dsimp only

theorem trig_canonical (d : Dev) (c : Nat) (h0 : Canonical d) : Canonical (trig d c) := by
  unfold trig
  repeat' first
    | with_reducible assumption
    | with_reducible apply add_canonical
    | with_reducible apply each_canonical
    | with_reducible apply levelPins_canonical
    | with_reducible apply modChan_canonical
    | with_reducible apply p_canonical
    | simp -implicitDefEqProofs only [Canonical.lit]
    | split
    | intro _
    | dsimp only

theorem capDone_canonical (d : Dev) (c : Nat) (h0 : Canonical d) : Canonical (capDone d c) := by
  unfold capDone
  repeat' first
    | with_reducible assumption
    | with_reducible apply add_canonical
    | with_reducible apply irq_canonical
    | with_reducible apply on_canonical
    | simp -implicitDefEqProofs only [Canonical.lit]
    | split
    | intro _
    | dsimp only

theorem capFinish_canonical (d : Dev) (c : Nat) (h0 : Canonical d) : Canonical (capFinish d c) := by
  unfold capFinish
  repeat' first
    | with_reducible assumption
    | with_reducible apply capDone_canonical
    | with_reducible apply capIdle_canonical
    | with_reducible apply levelPins_canonical
    | with_reducible apply p_canonical
    | simp -implicitDefEqProofs only [Canonical.lit]
    | split
    | intro _
    | dsimp only

theorem chanComplete_canonical (d : Dev) (ch : Nat) (h0 : Canonical d) : Canonical (chanComplete d ch) := by
  unfold chanComplete
  repeat' first
    | with_reducible assumption
    | with_reducible apply capFinish_canonical
    | with_reducible apply cutBlock_canonical
    | with_reducible apply modChan_canonical
    | with_reducible apply writeEntry_canonical
    | simp -implicitDefEqProofs only [Canonical.lit]
    | split
    | intro _
    | dsimp only

theorem capEvent_canonical (d : Dev) (k x : Nat) (h0 : Canonical d) : Canonical (capEvent d k x) := by
  unfold capEvent
  repeat' first
    | with_reducible assumption
    | with_reducible apply capBytes_canonical
    | with_reducible apply capLost_canonical
    | with_reducible apply each_canonical
    | with_reducible apply setChan_canonical
    | simp -implicitDefEqProofs only [Canonical.lit]
    | split
    | intro _
    | dsimp only

theorem capWord_canonical (d : Dev) (n t w v cyc : Nat) (wide : Bool) (h0 : Canonical d) : Canonical (capWord d n t w v cyc wide) := by
  unfold capWord
  repeat' first
    | with_reducible assumption
    | with_reducible apply capBytes_canonical
    | with_reducible apply each_canonical
    | with_reducible apply modChan_canonical
    | simp -implicitDefEqProofs only [Canonical.lit]
    | split
    | intro _
    | dsimp only

theorem capDiscont_canonical (d : Dev) (kind : Nat) (h0 : Canonical d) : Canonical (capDiscont d kind) := by
  unfold capDiscont
  repeat' first
    | with_reducible assumption
    | with_reducible apply each_canonical
    | with_reducible apply modChan_canonical
    | simp -implicitDefEqProofs only [Canonical.lit]
    | split
    | intro _
    | dsimp only

theorem setChanOwner_canonical (d : Dev) (ch owner : Nat) (h0 : Canonical d) : Canonical (setChanOwner d ch owner) := by
  unfold setChanOwner
  repeat' first
    | with_reducible assumption
    | with_reducible apply modChan_canonical
    | with_reducible apply p_canonical
    | simp -implicitDefEqProofs only [Canonical.lit]
    | split
    | intro _
    | dsimp only

theorem traceIrq_canonical (d : Dev) (s : Nat) (h0 : Canonical d) : Canonical (traceIrq d s) := by
  unfold traceIrq
  repeat' first
    | with_reducible assumption
    | with_reducible apply irq_canonical
    | simp -implicitDefEqProofs only [Canonical.lit]
    | split
    | intro _
    | dsimp only

theorem noteLoss_canonical (d : Dev) (s : Nat) (h0 : Canonical d) : Canonical (noteLoss d s) := by
  unfold noteLoss
  repeat' first
    | with_reducible assumption
    | with_reducible apply modStrm_canonical
    | simp -implicitDefEqProofs only [Canonical.lit]
    | split
    | intro _
    | dsimp only

theorem loseBlock_canonical (d : Dev) (s cls : Nat) (recs : List (List Byte)) (h0 : Canonical d) : Canonical (loseBlock d s cls recs) := by
  unfold loseBlock
  repeat' first
    | with_reducible assumption
    | with_reducible apply add_canonical
    | with_reducible apply each_canonical
    | with_reducible apply noteLoss_canonical
    | with_reducible apply raise_canonical
    | with_reducible apply traceIrq_canonical
    | simp -implicitDefEqProofs only [Canonical.lit]
    | split
    | intro _
    | dsimp only

theorem acceptBlock_canonical (d : Dev) (s cls first : Nat) (recs : List (List Byte)) (h0 : Canonical d) : Canonical (acceptBlock d s cls first recs) := by
  unfold acceptBlock
  repeat' first
    | with_reducible assumption
    | with_reducible apply loseBlock_canonical
    | with_reducible apply setStrm_canonical
    | simp -implicitDefEqProofs only [Canonical.lit]
    | split
    | intro _
    | dsimp only

theorem closeBlock_canonical (d : Dev) (s : Nat) (h0 : Canonical d) : Canonical (closeBlock d s) := by
  unfold closeBlock
  repeat' first
    | with_reducible assumption
    | with_reducible apply acceptBlock_canonical
    | with_reducible apply loseBlock_canonical
    | with_reducible apply modStrm_canonical
    | with_reducible apply setStrm_canonical
    | with_reducible apply tick_canonical
    | simp -implicitDefEqProofs only [Canonical.lit]
    | split
    | intro _
    | dsimp only

theorem putRec_canonical (d : Dev) (s cls : Nat) (r : List Byte) (h0 : Canonical d) : Canonical (putRec d s cls r) := by
  unfold putRec
  repeat' first
    | with_reducible assumption
    | with_reducible apply closeBlock_canonical
    | with_reducible apply setStrm_canonical
    | simp -implicitDefEqProofs only [Canonical.lit]
    | split
    | intro _
    | dsimp only

theorem beginAfterLoss_canonical (d : Dev) (s : Nat) (h0 : Canonical d) : Canonical (beginAfterLoss d s) := by
  unfold beginAfterLoss
  repeat' first
    | with_reducible assumption
    | with_reducible apply setStrm_canonical
    | with_reducible apply tick_canonical
    | simp -implicitDefEqProofs only [Canonical.lit]
    | split
    | intro _
    | dsimp only

theorem addRec_canonical (d : Dev) (s cls : Nat) (r : List Byte) (h0 : Canonical d) : Canonical (addRec d s cls r) := by
  unfold addRec
  repeat' first
    | with_reducible assumption
    | with_reducible apply beginAfterLoss_canonical
    | with_reducible apply closeBlock_canonical
    | with_reducible apply putRec_canonical
    | simp -implicitDefEqProofs only [Canonical.lit]
    | split
    | intro _
    | dsimp only

theorem flushRepeat_canonical (d : Dev) (s : Nat) (h0 : Canonical d) : Canonical (flushRepeat d s) := by
  unfold flushRepeat
  repeat' first
    | with_reducible assumption
    | with_reducible apply addRec_canonical
    | with_reducible apply setStrm_canonical
    | simp -implicitDefEqProofs only [Canonical.lit]
    | split
    | intro _
    | dsimp only

theorem addSync_canonical (d : Dev) (s : Nat) (h0 : Canonical d) : Canonical (addSync d s) := by
  unfold addSync
  repeat' first
    | with_reducible assumption
    | with_reducible apply addRec_canonical
    | with_reducible apply flushRepeat_canonical
    | with_reducible apply tick_canonical
    | simp -implicitDefEqProofs only [Canonical.lit]
    | split
    | intro _
    | dsimp only

theorem setOn_canonical (d : Dev) (s : Nat) (v : Bool) (h0 : Canonical d) : Canonical (setOn d s v) := by
  unfold setOn
  repeat' first
    | with_reducible assumption
    | with_reducible apply flushRepeat_canonical
    | with_reducible apply p_canonical
    | simp -implicitDefEqProofs only [Canonical.lit]
    | split
    | intro _
    | dsimp only

theorem stopStream_canonical (d : Dev) (s : Nat) (h0 : Canonical d) : Canonical (stopStream d s) := by
  unfold stopStream
  repeat' first
    | with_reducible assumption
    | with_reducible apply closeBlock_canonical
    | with_reducible apply modStrm_canonical
    | with_reducible apply setOn_canonical
    | simp -implicitDefEqProofs only [Canonical.lit]
    | split
    | intro _
    | dsimp only

theorem addMark_canonical (d : Dev) (s how before after v : Nat) (h0 : Canonical d) : Canonical (addMark d s how before after v) := by
  unfold addMark
  repeat' first
    | with_reducible assumption
    | with_reducible apply addRec_canonical
    | with_reducible apply tick_canonical
    | simp -implicitDefEqProofs only [Canonical.lit]
    | split
    | intro _
    | dsimp only

theorem fireSlot_canonical (d : Dev) (s j t : Nat) (h0 : Canonical d) : Canonical (fireSlot d s j t) := by
  unfold fireSlot
  repeat' first
    | with_reducible assumption
    | with_reducible apply addMark_canonical
    | with_reducible apply p_canonical
    | with_reducible apply setOn_canonical
    | simp -implicitDefEqProofs only [Canonical.lit]
    | split
    | intro _
    | dsimp only

theorem countHits_canonical (d : Dev) (s : Nat) (hits : List Nat) (h0 : Canonical d) : Canonical (countHits d s hits) := by
  unfold countHits
  repeat' first
    | with_reducible assumption
    | with_reducible apply add_canonical
    | simp -implicitDefEqProofs only [Canonical.lit]
    | split
    | intro _
    | dsimp only

theorem runMachine_canonical (d : Dev) (s : Nat) (hits : List Nat) (h0 : Canonical d) : Canonical (runMachine d s hits) := by
  unfold runMachine
  repeat' first
    | with_reducible assumption
    | with_reducible apply countHits_canonical
    | with_reducible apply fireSlot_canonical
    | simp -implicitDefEqProofs only [Canonical.lit]
    | split
    | intro _
    | dsimp only

theorem runMachines_canonical (d : Dev) (h0 : Canonical d) : Canonical (runMachines d) := by
  unfold runMachines
  repeat' first
    | with_reducible assumption
    | with_reducible apply each_canonical
    | with_reducible apply runMachine_canonical
    | simp -implicitDefEqProofs only [Canonical.lit]
    | split
    | intro _
    | dsimp only

theorem endMachines_canonical (d : Dev) (h0 : Canonical d) : Canonical (endMachines d) := by
  unfold endMachines
  repeat' first
    | with_reducible assumption
    | simp -implicitDefEqProofs only [Canonical.lit]
    | split
    | intro _
    | dsimp only

theorem countCycle_canonical (d : Dev) (i : Nat) (h0 : Canonical d) : Canonical (countCycle d i) := by
  unfold countCycle
  repeat' first
    | with_reducible assumption
    | with_reducible apply add_canonical
    | simp -implicitDefEqProofs only [Canonical.lit]
    | split
    | intro _
    | dsimp only

theorem addData_canonical (d : Dev) (s n cyc : Nat) (taps : List Tap) (h0 : Canonical d) : Canonical (addData d s n cyc taps) := by
  unfold addData
  repeat' first
    | with_reducible assumption
    | with_reducible apply addRec_canonical
    | with_reducible apply each_canonical
    | simp -implicitDefEqProofs only [Canonical.lit]
    | split
    | intro _
    | dsimp only

theorem addCycle_canonical (d : Dev) (s passes steps es segs flags cyc etime : Nat) (h0 : Canonical d) : Canonical (addCycle d s passes steps es segs flags cyc etime) := by
  unfold addCycle
  repeat' first
    | with_reducible assumption
    | with_reducible apply addRec_canonical
    | with_reducible apply flushRepeat_canonical
    | with_reducible apply modStrm_canonical
    | with_reducible apply setStrm_canonical
    | simp -implicitDefEqProofs only [Canonical.lit]
    | split
    | intro _
    | dsimp only

theorem setAuthMode_canonical (d : Dev) (h0 : Canonical d) : Canonical (setAuthMode d) := by
  unfold setAuthMode
  repeat' first
    | with_reducible assumption
    | with_reducible apply p_canonical
    | simp -implicitDefEqProofs only [Canonical.lit]
    | split
    | intro _
    | dsimp only

theorem traceCycle_canonical (d : Dev) (i passes steps es segs flags : Nat) (taps : List Tap) (h0 : Canonical d) : Canonical (traceCycle d i passes steps es segs flags taps) := by
  unfold traceCycle
  repeat' first
    | with_reducible assumption
    | with_reducible apply addCycle_canonical
    | with_reducible apply addData_canonical
    | with_reducible apply each_canonical
    | simp -implicitDefEqProofs only [Canonical.lit]
    | split
    | intro _
    | dsimp only

theorem denySources_canonical (d : Dev) (s : Nat) (mark : Fld) (h0 : Canonical d) : Canonical (denySources d s mark) := by
  unfold denySources
  repeat' first
    | with_reducible assumption
    | with_reducible apply each_canonical
    | with_reducible apply on_canonical
    | with_reducible apply p_canonical
    | simp -implicitDefEqProofs only [Canonical.lit]
    | split
    | intro _
    | dsimp only

theorem applyRights_canonical (d : Dev) (h0 : Canonical d) : Canonical (applyRights d) := by
  unfold applyRights
  repeat' first
    | with_reducible assumption
    | with_reducible apply denySources_canonical
    | with_reducible apply each_canonical
    | with_reducible apply on_canonical
    | with_reducible apply setAuthMode_canonical
    | with_reducible apply stopStream_canonical
    | with_reducible apply traceIrq_canonical
    | simp -implicitDefEqProofs only [Canonical.lit]
    | split
    | intro _
    | dsimp only

theorem endToken_canonical (d : Dev) (h0 : Canonical d) : Canonical (endToken d) := by
  unfold endToken
  repeat' first
    | with_reducible assumption
    | with_reducible apply applyRights_canonical
    | with_reducible apply p_canonical
    | simp -implicitDefEqProofs only [Canonical.lit]
    | split
    | intro _
    | dsimp only

theorem enableStream_canonical (d : Dev) (s : Nat) (h0 : Canonical d) : Canonical (enableStream d s) := by
  unfold enableStream
  repeat' first
    | with_reducible assumption
    | with_reducible apply addSync_canonical
    | with_reducible apply denySources_canonical
    | with_reducible apply on_canonical
    | with_reducible apply p_canonical
    | with_reducible apply reset_canonical
    | with_reducible apply setStrm_canonical
    | simp -implicitDefEqProofs only [Canonical.lit]
    | split
    | intro _
    | dsimp only

theorem disableStream_canonical (d : Dev) (s : Nat) (h0 : Canonical d) : Canonical (disableStream d s) := by
  unfold disableStream
  repeat' first
    | with_reducible assumption
    | with_reducible apply p_canonical
    | with_reducible apply stopStream_canonical
    | simp -implicitDefEqProofs only [Canonical.lit]
    | split
    | intro _
    | dsimp only

theorem traceWarden_canonical (d : Dev) (h0 : Canonical d) : Canonical (traceWarden d) := by
  unfold traceWarden
  repeat' first
    | with_reducible assumption
    | with_reducible apply addRec_canonical
    | simp -implicitDefEqProofs only [Canonical.lit]
    | split
    | intro _
    | dsimp only

theorem tracePup_canonical (d : Dev) (c kind : Nat) (h0 : Canonical d) : Canonical (tracePup d c kind) := by
  unfold tracePup
  repeat' first
    | with_reducible assumption
    | with_reducible apply addRec_canonical
    | with_reducible apply tick_canonical
    | simp -implicitDefEqProofs only [Canonical.lit]
    | split
    | intro _
    | dsimp only

theorem pupStep_canonical (d : Dev) (h0 : Canonical d) : Canonical (pupStep d) := by
  unfold pupStep
  repeat' first
    | with_reducible assumption
    | with_reducible apply each_canonical
    | with_reducible apply tracePup_canonical
    | simp -implicitDefEqProofs only [Canonical.lit]
    | split
    | intro _
    | dsimp only

theorem traceProbe_canonical (d : Dev) (devlvl : Bool) (r : List Byte) (h0 : Canonical d) : Canonical (traceProbe d devlvl r) := by
  unfold traceProbe
  repeat' first
    | with_reducible assumption
    | with_reducible apply addRec_canonical
    | simp -implicitDefEqProofs only [Canonical.lit]
    | split
    | intro _
    | dsimp only

theorem discont_canonical (d : Dev) (kind : Nat) (h0 : Canonical d) : Canonical (discont d kind) := by
  unfold discont
  repeat' first
    | with_reducible assumption
    | with_reducible apply addRec_canonical
    | with_reducible apply addSync_canonical
    | with_reducible apply capDiscont_canonical
    | with_reducible apply each_canonical
    | with_reducible apply flushRepeat_canonical
    | with_reducible apply raise_canonical
    | simp -implicitDefEqProofs only [Canonical.lit]
    | split
    | intro _
    | dsimp only

theorem addActs_canonical (d : Dev) (owner bits : Nat) (h0 : Canonical d) : Canonical (addActs d owner bits) := by
  unfold addActs
  repeat' first
    | with_reducible assumption
    | simp -implicitDefEqProofs only [Canonical.lit]
    | split
    | intro _
    | dsimp only

theorem runSequencer_canonical (d : Dev) (hits : List Nat) (h0 : Canonical d) : Canonical (runSequencer d hits) := by
  unfold runSequencer
  repeat' first
    | with_reducible assumption
    | with_reducible apply addActs_canonical
    | with_reducible apply irq_canonical
    | with_reducible apply on_canonical
    | with_reducible apply p_canonical
    | simp -implicitDefEqProofs only [Canonical.lit]
    | split
    | intro _
    | dsimp only

theorem stopPulse_canonical (d : Dev) (j : Nat) (h0 : Canonical d) : Canonical (stopPulse d j) := by
  unfold stopPulse
  repeat' first
    | with_reducible assumption
    | simp -implicitDefEqProofs only [Canonical.lit]
    | split
    | intro _
    | dsimp only

theorem pulsePins_canonical (d : Dev) (owner : Nat) (h0 : Canonical d) : Canonical (pulsePins d owner) := by
  unfold pulsePins
  repeat' first
    | with_reducible assumption
    | with_reducible apply drivePin_canonical
    | with_reducible apply each_canonical
    | simp -implicitDefEqProofs only [Canonical.lit]
    | split
    | intro _
    | dsimp only

theorem freezeAction_canonical (d : Dev) (owner : Nat) (h0 : Canonical d) : Canonical (freezeAction d owner) := by
  unfold freezeAction
  repeat' first
    | with_reducible assumption
    | with_reducible apply each_canonical
    | with_reducible apply freezeReq_canonical
    | with_reducible apply raiseSysFreeze_canonical
    | simp -implicitDefEqProofs only [Canonical.lit]
    | split
    | intro _
    | dsimp only

theorem doAct_canonical (d : Dev) (owner bit : Nat) (h0 : Canonical d) : Canonical (doAct d owner bit) := by
  unfold doAct
  repeat' first
    | with_reducible assumption
    | with_reducible apply freezeAction_canonical
    | with_reducible apply pulsePins_canonical
    | with_reducible apply strobeReq_canonical
    | with_reducible apply trig_canonical
    | simp -implicitDefEqProofs only [Canonical.lit]
    | split
    | intro _
    | dsimp only

theorem issueActs_canonical (d : Dev) (h0 : Canonical d) : Canonical (issueActs d) := by
  unfold issueActs
  repeat' first
    | with_reducible assumption
    | with_reducible apply doAct_canonical
    | with_reducible apply each_canonical
    | simp -implicitDefEqProofs only [Canonical.lit]
    | split
    | intro _
    | dsimp only

theorem runEvents_canonical (m : Nat) (d : Dev) (h0 : Canonical d) : Canonical (runEvents m d) := by
  induction m generalizing d with
  | zero => exact h0
  | succ m ih =>
    unfold runEvents
    repeat' first
      | with_reducible assumption
      | with_reducible apply ih
      | with_reducible apply logEvent_canonical
      | with_reducible apply offer_canonical
      | with_reducible apply countEvent_canonical
      | simp -implicitDefEqProofs only [Canonical.lit]
      | split
      | intro _
      | dsimp only

theorem runHits_canonical (d : Dev) (h0 : Canonical d) : Canonical (runHits d) := by
  unfold runHits
  repeat' first
    | with_reducible assumption
    | with_reducible apply addActs_canonical
    | with_reducible apply capEvent_canonical
    | with_reducible apply each_canonical
    | with_reducible apply issueActs_canonical
    | with_reducible apply runMachines_canonical
    | with_reducible apply runSequencer_canonical
    | simp -implicitDefEqProofs only [Canonical.lit]
    | split
    | intro _
    | dsimp only

theorem settleAll_canonical (m : Nat) (d : Dev) (h0 : Canonical d) : Canonical (settleAll m d) := by
  induction m generalizing d with
  | zero => exact h0
  | succ m ih =>
    unfold settleAll
    repeat' first
      | with_reducible assumption
      | with_reducible apply ih
      | with_reducible apply endMachines_canonical
      | with_reducible apply capFlush_canonical
      | with_reducible apply runHits_canonical
      | with_reducible apply runEvents_canonical
      | simp -implicitDefEqProofs only [Canonical.lit]
      | split
      | intro _
      | dsimp only

theorem stepEnd_canonical (d : Dev) (h0 : Canonical d) : Canonical (stepEnd d) := by
  unfold stepEnd
  repeat' first
    | with_reducible assumption
    | with_reducible apply settleAll_canonical
    | simp -implicitDefEqProofs only [Canonical.lit]
    | split
    | intro _
    | dsimp only

theorem finish_canonical (d : Dev) (h0 : Canonical d) : Canonical (finish d) := by
  unfold finish
  repeat' first
    | with_reducible assumption
    | with_reducible apply capDark_canonical
    | with_reducible apply sendAnswers_canonical
    | with_reducible apply serveHeld_canonical
    | with_reducible apply settleAll_canonical
    | simp -implicitDefEqProofs only [Canonical.lit]
    | split
    | intro _
    | dsimp only

theorem doArm_canonical (d : Dev) (h0 : Canonical d) : Canonical (doArm d) := by
  unfold doArm
  repeat' first
    | with_reducible assumption
    | with_reducible apply on_canonical
    | with_reducible apply p_canonical
    | simp -implicitDefEqProofs only [Canonical.lit]
    | split
    | intro _
    | dsimp only

theorem doDisarm_canonical (d : Dev) (h0 : Canonical d) : Canonical (doDisarm d) := by
  unfold doDisarm
  repeat' first
    | with_reducible assumption
    | with_reducible apply p_canonical
    | simp -implicitDefEqProofs only [Canonical.lit]
    | split
    | intro _
    | dsimp only

theorem doTriggerLevelTimeout_canonical (d : Dev) (h0 : Canonical d) : Canonical (doTriggerLevelTimeout d) := by
  unfold doTriggerLevelTimeout
  repeat' first
    | with_reducible assumption
    | with_reducible apply p_canonical
    | simp -implicitDefEqProofs only [Canonical.lit]
    | split
    | intro _
    | dsimp only

theorem doTrigPinEdge_canonical (d : Dev) (j : Nat) (rising : Bool) (h0 : Canonical d) : Canonical (doTrigPinEdge d j rising) := by
  unfold doTrigPinEdge
  repeat' first
    | with_reducible assumption
    | with_reducible apply offer_canonical
    | with_reducible apply p_canonical
    | simp -implicitDefEqProofs only [Canonical.lit]
    | split
    | intro _
    | dsimp only

theorem doPinPulseEnd_canonical (d : Dev) (j : Nat) (h0 : Canonical d) : Canonical (doPinPulseEnd d j) := by
  unfold doPinPulseEnd
  repeat' first
    | with_reducible assumption
    | with_reducible apply drivePin_canonical
    | with_reducible apply stopPulse_canonical
    | simp -implicitDefEqProofs only [Canonical.lit]
    | split
    | intro _
    | dsimp only

theorem doTraceStreamEnable_canonical (d : Dev) (t : Nat) (h0 : Canonical d) : Canonical (doTraceStreamEnable d t) := by
  unfold doTraceStreamEnable
  repeat' first
    | with_reducible assumption
    | with_reducible apply enableStream_canonical
    | simp -implicitDefEqProofs only [Canonical.lit]
    | split
    | intro _
    | dsimp only

theorem doTraceCounterLimit_canonical (d : Dev) (t : Nat) (h0 : Canonical d) : Canonical (doTraceCounterLimit d t) := by
  unfold doTraceCounterLimit
  repeat' first
    | with_reducible assumption
    | with_reducible apply p_canonical
    | simp -implicitDefEqProofs only [Canonical.lit]
    | split
    | intro _
    | dsimp only

theorem doMark_canonical (d : Dev) (t : Nat) (v : BitVec 16) (h0 : Canonical d) : Canonical (doMark d t v) := by
  unfold doMark
  repeat' first
    | with_reducible assumption
    | with_reducible apply addMark_canonical
    | with_reducible apply runMachine_canonical
    | simp -implicitDefEqProofs only [Canonical.lit]
    | split
    | intro _
    | dsimp only

theorem doTraceBlockTimeout_canonical (d : Dev) (t : Nat) (h0 : Canonical d) : Canonical (doTraceBlockTimeout d t) := by
  unfold doTraceBlockTimeout
  repeat' first
    | with_reducible assumption
    | with_reducible apply closeBlock_canonical
    | simp -implicitDefEqProofs only [Canonical.lit]
    | split
    | intro _
    | dsimp only

theorem doTraceSyncTimer_canonical (d : Dev) (t : Nat) (h0 : Canonical d) : Canonical (doTraceSyncTimer d t) := by
  unfold doTraceSyncTimer
  repeat' first
    | with_reducible assumption
    | with_reducible apply addSync_canonical
    | simp -implicitDefEqProofs only [Canonical.lit]
    | split
    | intro _
    | dsimp only

theorem doTokenRevoke_canonical (d : Dev) (tag : Byte) (h0 : Canonical d) : Canonical (doTokenRevoke d tag) := by
  unfold doTokenRevoke
  repeat' first
    | with_reducible assumption
    | with_reducible apply answer_canonical
    | with_reducible apply endToken_canonical
    | with_reducible apply takeService_canonical
    | simp -implicitDefEqProofs only [Canonical.lit]
    | split
    | intro _
    | dsimp only

theorem doTokenExpire_canonical (d : Dev) (h0 : Canonical d) : Canonical (doTokenExpire d) := by
  unfold doTokenExpire
  repeat' first
    | with_reducible assumption
    | with_reducible apply endToken_canonical
    | simp -implicitDefEqProofs only [Canonical.lit]
    | split
    | intro _
    | dsimp only

theorem doAuthDisable_canonical (d : Dev) (h0 : Canonical d) : Canonical (doAuthDisable d) := by
  unfold doAuthDisable
  repeat' first
    | with_reducible assumption
    | with_reducible apply endToken_canonical
    | with_reducible apply on_canonical
    | simp -implicitDefEqProofs only [Canonical.lit]
    | split
    | intro _
    | dsimp only

theorem doTokenChallenge_canonical (d : Dev) (tag : Byte) (h0 : Canonical d) : Canonical (doTokenChallenge d tag) := by
  unfold doTokenChallenge
  repeat' first
    | with_reducible assumption
    | with_reducible apply answer_canonical
    | with_reducible apply takeService_canonical
    | with_reducible apply tick_canonical
    | simp -implicitDefEqProofs only [Canonical.lit]
    | split
    | intro _
    | dsimp only
end Sys2Proof.Machine.Dev
end

