-- ==== Sys2Proof/Laws/KeepCanonical2.lean ====
section
/-! SUPPORT. The register fields and HBM stay in their canonical form under the sequencer and the execution of a step: one lemma for each function. -/

set_option linter.all false

namespace Sys2Proof.Machine.Dev

set_option Elab.async false


theorem setBp_canonical (d : Dev) (k : Nat) (v : Ecc 80) (h0 : Canonical d) : Canonical (setBp d k v) := by
  unfold setBp
  repeat' first
    | with_reducible assumption
    | simp -implicitDefEqProofs only [Canonical.lit]
    | split
    | intro _
    | dsimp only

theorem setWa_canonical (d : Dev) (k : Nat) (v : Ecc 96) (h0 : Canonical d) : Canonical (setWa d k v) := by
  unfold setWa
  repeat' first
    | with_reducible assumption
    | simp -implicitDefEqProofs only [Canonical.lit]
    | split
    | intro _
    | dsimp only

theorem setPort_canonical (d : Dev) (k : Nat) (v : ParW 16) (h0 : Canonical d) : Canonical (setPort d k v) := by
  unfold setPort
  repeat' first
    | with_reducible assumption
    | simp -implicitDefEqProofs only [Canonical.lit]
    | split
    | intro _
    | dsimp only

theorem setMesh_canonical (d : Dev) (k : Nat) (v : ParW 32) (h0 : Canonical d) : Canonical (setMesh d k v) := by
  unfold setMesh
  repeat' first
    | with_reducible assumption
    | simp -implicitDefEqProofs only [Canonical.lit]
    | split
    | intro _
    | dsimp only

theorem setRow_canonical (d : Dev) (k : Nat) (v : Ecc 96) (h0 : Canonical d) : Canonical (setRow d k v) := by
  unfold setRow
  repeat' first
    | with_reducible assumption
    | simp -implicitDefEqProofs only [Canonical.lit]
    | split
    | intro _
    | dsimp only

theorem cluIrq_canonical (d : Dev) (n i last : Nat) (h0 : Canonical d) : Canonical (cluIrq d n i last) := by
  unfold cluIrq
  repeat' first
    | with_reducible assumption
    | with_reducible apply irq_canonical
    | with_reducible apply raise_canonical
    | simp -implicitDefEqProofs only [Canonical.lit]
    | split
    | intro _
    | dsimp only

theorem recordBp_canonical (d : Dev) (n k syn : Nat) (ue : Bool) (h0 : Canonical d) : Canonical (recordBp d n k syn ue) := by
  unfold recordBp
  repeat' first
    | with_reducible assumption
    | with_reducible apply on_canonical
    | with_reducible apply p_canonical
    | simp -implicitDefEqProofs only [Canonical.lit]
    | split
    | intro _
    | dsimp only

theorem recordWa_canonical (d : Dev) (n k syn : Nat) (ue : Bool) (h0 : Canonical d) : Canonical (recordWa d n k syn ue) := by
  unfold recordWa
  repeat' first
    | with_reducible assumption
    | with_reducible apply on_canonical
    | with_reducible apply p_canonical
    | simp -implicitDefEqProofs only [Canonical.lit]
    | split
    | intro _
    | dsimp only

theorem raiseUpset_canonical (d : Dev) (n : Nat) (w : WordLoc) (fetch : Bool) (h0 : Canonical d) : Canonical (raiseUpset d n w fetch) := by
  unfold raiseUpset
  repeat' first
    | with_reducible assumption
    | simp -implicitDefEqProofs only [Canonical.lit]
    | split
    | intro _
    | dsimp only

theorem metAgain_canonical (d : Dev) (n : Nat) (w : WordLoc) (fetch : Bool) (h0 : Canonical d) : Canonical (metAgain d n w fetch) := by
  unfold metAgain
  repeat' first
    | with_reducible assumption
    | with_reducible apply raiseUpset_canonical
    | simp -implicitDefEqProofs only [Canonical.lit]
    | split
    | intro _
    | dsimp only

theorem freezeOwner_canonical (d : Dev) (n cause : Nat) (h0 : Canonical d) : Canonical (freezeOwner d n cause) := by
  unfold freezeOwner
  repeat' first
    | with_reducible assumption
    | with_reducible apply freezeReq_canonical
    | simp -implicitDefEqProofs only [Canonical.lit]
    | split
    | intro _
    | dsimp only

theorem fetchBp_canonical (d : Dev) (n k : Nat) (fetch : Bool) (h0 : Canonical d) : Canonical (fetchBp d n k fetch).1 := by
  unfold fetchBp
  repeat' first
    | with_reducible assumption
    | with_reducible apply add_canonical
    | with_reducible apply cluIrq_canonical
    | with_reducible apply freezeOwner_canonical
    | with_reducible apply metAgain_canonical
    | with_reducible apply modClu_canonical
    | with_reducible apply on_canonical
    | with_reducible apply raiseUpset_canonical
    | with_reducible apply recordBp_canonical
    | simp -implicitDefEqProofs only [Canonical.lit]
    | split
    | intro _
    | dsimp only

theorem fetchWa_canonical (d : Dev) (n k : Nat) (fetch : Bool) (h0 : Canonical d) : Canonical (fetchWa d n k fetch).1 := by
  unfold fetchWa
  repeat' first
    | with_reducible assumption
    | with_reducible apply add_canonical
    | with_reducible apply cluIrq_canonical
    | with_reducible apply freezeOwner_canonical
    | with_reducible apply metAgain_canonical
    | with_reducible apply modClu_canonical
    | with_reducible apply on_canonical
    | with_reducible apply raiseUpset_canonical
    | with_reducible apply recordWa_canonical
    | simp -implicitDefEqProofs only [Canonical.lit]
    | split
    | intro _
    | dsimp only

theorem parityError_canonical (d : Dev) (n addr tile port : Nat) (mesh : Bool) (h0 : Canonical d) : Canonical (parityError d n addr tile port mesh) := by
  unfold parityError
  repeat' first
    | with_reducible assumption
    | with_reducible apply add_canonical
    | with_reducible apply cluIrq_canonical
    | with_reducible apply on_canonical
    | with_reducible apply p_canonical
    | simp -implicitDefEqProofs only [Canonical.lit]
    | split
    | intro _
    | dsimp only

theorem checkPort_canonical (d : Dev) (n k : Nat) (fetch : Bool) (h0 : Canonical d) : Canonical (checkPort d n k fetch) := by
  unfold checkPort
  repeat' first
    | with_reducible assumption
    | with_reducible apply parityError_canonical
    | with_reducible apply raiseUpset_canonical
    | with_reducible apply setPort_canonical
    | simp -implicitDefEqProofs only [Canonical.lit]
    | split
    | intro _
    | dsimp only

theorem checkMesh_canonical (d : Dev) (n k : Nat) (fetch : Bool) (h0 : Canonical d) : Canonical (checkMesh d n k fetch) := by
  unfold checkMesh
  repeat' first
    | with_reducible assumption
    | with_reducible apply parityError_canonical
    | with_reducible apply raiseUpset_canonical
    | with_reducible apply setMesh_canonical
    | simp -implicitDefEqProofs only [Canonical.lit]
    | split
    | intro _
    | dsimp only

theorem checkFabric_canonical (d : Dev) (n s : Nat) (h0 : Canonical d) : Canonical (checkFabric d n s) := by
  unfold checkFabric
  repeat' first
    | with_reducible assumption
    | with_reducible apply checkMesh_canonical
    | with_reducible apply checkPort_canonical
    | with_reducible apply each_canonical
    | simp -implicitDefEqProofs only [Canonical.lit]
    | split
    | intro _
    | dsimp only

theorem sendSlots_canonical (d : Dev) (i u : Nat) (h0 : Canonical d) : Canonical (sendSlots d i u) := by
  unfold sendSlots
  repeat' first
    | with_reducible assumption
    | with_reducible apply each_canonical
    | with_reducible apply emit_canonical
    | with_reducible apply setLink_canonical
    | simp -implicitDefEqProofs only [Canonical.lit]
    | split
    | intro _
    | dsimp only

theorem recordRow_canonical (d : Dev) (n m row : Nat) (ue : Bool) (h0 : Canonical d) : Canonical (recordRow d n m row ue) := by
  unfold recordRow
  repeat' first
    | with_reducible assumption
    | with_reducible apply on_canonical
    | with_reducible apply p_canonical
    | simp -implicitDefEqProofs only [Canonical.lit]
    | split
    | intro _
    | dsimp only

theorem rowCe_canonical (d : Dev) (n k : Nat) (h0 : Canonical d) : Canonical (rowCe d n k) := by
  unfold rowCe
  repeat' first
    | with_reducible assumption
    | with_reducible apply modClu_canonical
    | with_reducible apply recordRow_canonical
    | simp -implicitDefEqProofs only [Canonical.lit]
    | split
    | intro _
    | dsimp only

theorem rowBackDone_canonical (d : Dev) (n : Nat) (h0 : Canonical d) : Canonical (rowBackDone d n) := by
  unfold rowBackDone
  repeat' first
    | with_reducible assumption
    | with_reducible apply add_canonical
    | with_reducible apply cluIrq_canonical
    | simp -implicitDefEqProofs only [Canonical.lit]
    | split
    | intro _
    | dsimp only

theorem rowUe_canonical (d : Dev) (n k : Nat) (h0 : Canonical d) : Canonical (rowUe d n k) := by
  unfold rowUe
  repeat' first
    | with_reducible assumption
    | with_reducible apply add_canonical
    | with_reducible apply cluIrq_canonical
    | with_reducible apply raiseUpset_canonical
    | with_reducible apply recordRow_canonical
    | simp -implicitDefEqProofs only [Canonical.lit]
    | split
    | intro _
    | dsimp only

theorem readRow_canonical (d : Dev) (n k : Nat) (h0 : Canonical d) : Canonical (readRow d n k).1 := by
  unfold readRow
  repeat' first
    | with_reducible assumption
    | with_reducible apply rowCe_canonical
    | with_reducible apply rowUe_canonical
    | simp -implicitDefEqProofs only [Canonical.lit]
    | split
    | intro _
    | dsimp only

theorem mergeEntry_canonical (d : Dev) (n m a v : Nat) (h0 : Canonical d) : Canonical (mergeEntry d n m a v) := by
  unfold mergeEntry
  repeat' first
    | with_reducible assumption
    | with_reducible apply modClu_canonical
    | with_reducible apply recordRow_canonical
    | with_reducible apply rowBackDone_canonical
    | with_reducible apply rowUe_canonical
    | with_reducible apply setRow_canonical
    | simp -implicitDefEqProofs only [Canonical.lit]
    | split
    | intro _
    | dsimp only

theorem landWrites_canonical (d : Dev) (n : Nat) (h0 : Canonical d) : Canonical (landWrites d n) := by
  unfold landWrites
  repeat' first
    | with_reducible assumption
    | with_reducible apply each_canonical
    | with_reducible apply mergeEntry_canonical
    | with_reducible apply modClu_canonical
    | simp -implicitDefEqProofs only [Canonical.lit]
    | split
    | intro _
    | dsimp only

theorem doEvent_canonical (d : Dev) (c n m e : Nat) (h0 : Canonical d) : Canonical (doEvent d c n m e) := by
  unfold doEvent
  repeat' first
    | with_reducible assumption
    | with_reducible apply modClu_canonical
    | with_reducible apply readRow_canonical
    | simp -implicitDefEqProofs only [Canonical.lit]
    | split
    | intro _
    | dsimp only

theorem runDmem_canonical (d : Dev) (i c u : Nat) (h0 : Canonical d) : Canonical (runDmem d i c u) := by
  unfold runDmem
  repeat' first
    | with_reducible assumption
    | with_reducible apply doEvent_canonical
    | with_reducible apply each_canonical
    | with_reducible apply landWrites_canonical
    | simp -implicitDefEqProofs only [Canonical.lit]
    | split
    | intro _
    | dsimp only

theorem takeReads_canonical (d : Dev) (i c : Nat) (h0 : Canonical d) : Canonical (takeReads d i c).1 := by
  unfold takeReads
  repeat' first
    | with_reducible assumption
    | with_reducible apply each_canonical
    | with_reducible apply modClu_canonical
    | simp -implicitDefEqProofs only [Canonical.lit]
    | split
    | intro _
    | dsimp only

theorem setFar_canonical (d : Dev) (n f : Nat) (xs : List FarAcc) (h0 : Canonical d) : Canonical (setFar d n f xs) := by
  unfold setFar
  repeat' first
    | with_reducible assumption
    | with_reducible apply modClu_canonical
    | with_reducible apply p_canonical
    | simp -implicitDefEqProofs only [Canonical.lit]
    | split
    | intro _
    | dsimp only

theorem farUse_canonical (d : Dev) (n f u : Nat) (h0 : Canonical d) : Canonical (farUse d n f u).1 := by
  unfold farUse
  repeat' first
    | with_reducible assumption
    | with_reducible apply setFar_canonical
    | simp -implicitDefEqProofs only [Canonical.lit]
    | split
    | intro _
    | dsimp only

theorem farReserve_canonical (d : Dev) (n f : Nat) (h0 : Canonical d) : Canonical (farReserve d n f) := by
  unfold farReserve
  repeat' first
    | with_reducible assumption
    | with_reducible apply addOutst_canonical
    | with_reducible apply each_canonical
    | with_reducible apply setFar_canonical
    | simp -implicitDefEqProofs only [Canonical.lit]
    | split
    | intro _
    | dsimp only

theorem farIssue_canonical (d : Dev) (i n f u : Nat) (h0 : Canonical d) : Canonical (farIssue d i n f u) := by
  unfold farIssue
  repeat' first
    | with_reducible assumption
    | with_reducible apply farReserve_canonical
    | with_reducible apply setFar_canonical
    | simp -implicitDefEqProofs only [Canonical.lit]
    | split
    | intro _
    | dsimp only

theorem releasePort_canonical (d : Dev) (n x : Nat) (h0 : Canonical d) : Canonical (releasePort d n x) := by
  unfold releasePort
  repeat' first
    | with_reducible assumption
    | with_reducible apply modClu_canonical
    | with_reducible apply modQueue_canonical
    | simp -implicitDefEqProofs only [Canonical.lit]
    | split
    | intro _
    | dsimp only

theorem releasePorts_canonical (d : Dev) (n : Nat) (h0 : Canonical d) : Canonical (releasePorts d n) := by
  unfold releasePorts
  repeat' first
    | with_reducible assumption
    | with_reducible apply each_canonical
    | with_reducible apply releasePort_canonical
    | simp -implicitDefEqProofs only [Canonical.lit]
    | split
    | intro _
    | dsimp only

theorem txpRead_canonical (d : Dev) (n x u : Nat) (h0 : Canonical d) : Canonical (txpRead d n x u).1 := by
  unfold txpRead
  repeat' first
    | with_reducible assumption
    | simp -implicitDefEqProofs only [Canonical.lit]
    | split
    | intro _
    | dsimp only
    | with_reducible refine takeHead_canonical (by assumption) ?_

theorem forgetSigs_canonical (d : Dev) (i : Nat) (h0 : Canonical d) : Canonical (forgetSigs d i) := by
  unfold forgetSigs
  repeat' first
    | with_reducible assumption
    | with_reducible apply p_canonical
    | simp -implicitDefEqProofs only [Canonical.lit]
    | split
    | intro _
    | dsimp only

theorem lscSend_canonical (d : Dev) (sig cyc type diag : Nat) (h0 : Canonical d) : Canonical (lscSend d sig cyc type diag) := by
  unfold lscSend
  repeat' first
    | with_reducible assumption
    | with_reducible apply emit_canonical
    | with_reducible apply iff_canonical
    | simp -implicitDefEqProofs only [Canonical.lit]
    | split
    | intro _
    | dsimp only

theorem lscAct_canonical (d : Dev) (h0 : Canonical d) : Canonical (lscAct d) := by
  unfold lscAct
  repeat' first
    | with_reducible assumption
    | with_reducible apply freezeReq_canonical
    | with_reducible apply p_canonical
    | with_reducible apply raiseSysFreeze_canonical
    | with_reducible apply scrubRequest_canonical
    | simp -implicitDefEqProofs only [Canonical.lit]
    | split
    | intro _
    | dsimp only

theorem mismatch_canonical (d : Dev) (cyc mine theirs : Nat) (h0 : Canonical d) : Canonical (mismatch d cyc mine theirs) := by
  unfold mismatch
  repeat' first
    | with_reducible assumption
    | with_reducible apply add_canonical
    | with_reducible apply iff_canonical
    | with_reducible apply irq_canonical
    | with_reducible apply lscAct_canonical
    | with_reducible apply lscSend_canonical
    | with_reducible apply on_canonical
    | with_reducible apply p_canonical
    | with_reducible apply raise_canonical
    | simp -implicitDefEqProofs only [Canonical.lit]
    | split
    | intro _
    | dsimp only

theorem compareSigs_canonical (d : Dev) (h0 : Canonical d) : Canonical (compareSigs d) := by
  unfold compareSigs
  repeat' first
    | with_reducible assumption
    | with_reducible apply each_canonical
    | with_reducible apply mismatch_canonical
    | with_reducible apply p_canonical
    | simp -implicitDefEqProofs only [Canonical.lit]
    | split
    | intro _
    | dsimp only

theorem sign_canonical (d : Dev) (i : Nat) (taps : List Tap) (h0 : Canonical d) : Canonical (sign d i taps) := by
  unfold sign
  repeat' first
    | with_reducible assumption
    | with_reducible apply compareSigs_canonical
    | with_reducible apply lscSend_canonical
    | simp -implicitDefEqProofs only [Canonical.lit]
    | split
    | intro _
    | dsimp only

theorem doLockstepRecord_canonical (d : Dev) (r : BitVec 128) (h0 : Canonical d) : Canonical (doLockstepRecord d r) := by
  unfold doLockstepRecord
  repeat' first
    | with_reducible assumption
    | with_reducible apply compareSigs_canonical
    | with_reducible apply lscAct_canonical
    | with_reducible apply on_canonical
    | simp -implicitDefEqProofs only [Canonical.lit]
    | split
    | intro _
    | dsimp only

theorem doPartnerTimeout_canonical (d : Dev) (h0 : Canonical d) : Canonical (doPartnerTimeout d) := by
  unfold doPartnerTimeout
  repeat' first
    | with_reducible assumption
    | with_reducible apply freezeReq_canonical
    | with_reducible apply irq_canonical
    | with_reducible apply on_canonical
    | with_reducible apply p_canonical
    | simp -implicitDefEqProofs only [Canonical.lit]
    | split
    | intro _
    | dsimp only

theorem frozenIrq_canonical (d : Dev) (i : Nat) (h0 : Canonical d) : Canonical (frozenIrq d i) := by
  unfold frozenIrq
  repeat' first
    | with_reducible assumption
    | with_reducible apply irq_canonical
    | with_reducible apply raise_canonical
    | simp -implicitDefEqProofs only [Canonical.lit]
    | split
    | intro _
    | dsimp only

theorem landAll_canonical (d : Dev) (i : Nat) (h0 : Canonical d) : Canonical (landAll d i) := by
  unfold landAll
  repeat' first
    | with_reducible assumption
    | with_reducible apply each_canonical
    | with_reducible apply landWrites_canonical
    | simp -implicitDefEqProofs only [Canonical.lit]
    | split
    | intro _
    | dsimp only

theorem enterFreeze_canonical (d : Dev) (i cause : Nat) (h0 : Canonical d) : Canonical (enterFreeze d i cause) := by
  unfold enterFreeze
  repeat' first
    | with_reducible assumption
    | with_reducible apply landAll_canonical
    | with_reducible apply modPtn_canonical
    | with_reducible apply on_canonical
    | with_reducible apply p_canonical
    | simp -implicitDefEqProofs only [Canonical.lit]
    | split
    | intro _
    | dsimp only

theorem enterHard_canonical (d : Dev) (i cause : Nat) (h0 : Canonical d) : Canonical (enterHard d i cause) := by
  unfold enterHard
  repeat' first
    | with_reducible assumption
    | with_reducible apply frozenIrq_canonical
    | with_reducible apply landAll_canonical
    | with_reducible apply modPtn_canonical
    | with_reducible apply p_canonical
    | simp -implicitDefEqProofs only [Canonical.lit]
    | split
    | intro _
    | dsimp only

theorem sampleClocks_canonical (d : Dev) (i : Nat) (h0 : Canonical d) : Canonical (sampleClocks d i) := by
  unfold sampleClocks
  repeat' first
    | with_reducible assumption
    | with_reducible apply modPtn_canonical
    | simp -implicitDefEqProofs only [Canonical.lit]
    | split
    | intro _
    | dsimp only

theorem dropSamples_canonical (d : Dev) (i : Nat) (h0 : Canonical d) : Canonical (dropSamples d i) := by
  unfold dropSamples
  repeat' first
    | with_reducible assumption
    | with_reducible apply modPtn_canonical
    | simp -implicitDefEqProofs only [Canonical.lit]
    | split
    | intro _
    | dsimp only

theorem showPosition_canonical (d : Dev) (i : Nat) (h0 : Canonical d) : Canonical (showPosition d i) := by
  unfold showPosition
  repeat' first
    | with_reducible assumption
    | with_reducible apply p_canonical
    | simp -implicitDefEqProofs only [Canonical.lit]
    | split
    | intro _
    | dsimp only

theorem capCycle_canonical (d : Dev) (i cyc : Nat) (taps : List Tap) (h0 : Canonical d) : Canonical (capCycle d i cyc taps) := by
  unfold capCycle
  repeat' first
    | with_reducible assumption
    | with_reducible apply capBytes_canonical
    | with_reducible apply capLost_canonical
    | with_reducible apply each_canonical
    | with_reducible apply setChan_canonical
    | with_reducible apply foldl_canonical
    | with_reducible apply fold1_canonical
    | simp -implicitDefEqProofs only [Canonical.lit]
    | split
    | intro _
    | dsimp only

theorem compareSteps_canonical (d : Dev) (i : Nat) (h0 : Canonical d) : Canonical (compareSteps d i) := by
  unfold compareSteps
  repeat' first
    | with_reducible assumption
    | with_reducible apply on_canonical
    | with_reducible apply raiseSysFreeze_canonical
    | simp -implicitDefEqProofs only [Canonical.lit]
    | split
    | intro _
    | dsimp only

theorem boundary_canonical (d : Dev) (i : Nat) (cascade : Bool) (h0 : Canonical d) : Canonical (boundary d i cascade) := by
  unfold boundary
  repeat' first
    | with_reducible assumption
    | with_reducible apply capCycle_canonical
    | with_reducible apply compareSteps_canonical
    | with_reducible apply controlPtn_canonical
    | with_reducible apply countCycle_canonical
    | with_reducible apply enterFreeze_canonical
    | with_reducible apply on_canonical
    | with_reducible apply p_canonical
    | with_reducible apply raise_canonical
    | with_reducible apply runMachines_canonical
    | with_reducible apply setPtn_canonical
    | with_reducible apply sign_canonical
    | with_reducible apply traceCycle_canonical
    | simp -implicitDefEqProofs only [Canonical.lit]
    | split
    | intro _
    | dsimp only

theorem dueFreeze_canonical (d : Dev) (i : Nat) (h0 : Canonical d) : Canonical (dueFreeze d i) := by
  unfold dueFreeze
  repeat' first
    | with_reducible assumption
    | with_reducible apply enterFreeze_canonical
    | simp -implicitDefEqProofs only [Canonical.lit]
    | split
    | intro _
    | dsimp only

theorem commitSet_canonical (d : Dev) (i e : Nat) (h0 : Canonical d) : Canonical (commitSet d i e) := by
  unfold commitSet
  repeat' first
    | with_reducible assumption
    | with_reducible apply modPtn_canonical
    | with_reducible apply sampleClocks_canonical
    | with_reducible apply setSt_canonical
    | with_reducible apply foldl_canonical
    | with_reducible apply fold1_canonical
    | simp -implicitDefEqProofs only [Canonical.lit]
    | split
    | intro _
    | dsimp only

theorem advance_canonical (m : Nat) (d : Dev) (i : Nat) (h0 : Canonical d) : Canonical (advance m d i) := by
  induction m generalizing d with
  | zero => exact h0
  | succ m ih =>
    unfold advance
    repeat' first
      | with_reducible assumption
      | with_reducible apply ih
      | with_reducible apply commitSet_canonical
      | with_reducible apply modPtn_canonical
      | with_reducible apply boundary_canonical
      | with_reducible apply on_canonical
      | with_reducible apply irq_canonical
      | with_reducible apply setPtn_canonical
      | with_reducible apply p_canonical
      | simp -implicitDefEqProofs only [Canonical.lit]
      | split
      | intro _
      | dsimp only

theorem beginInstant_canonical (d : Dev) (i : Nat) (h0 : Canonical d) : Canonical (beginInstant d i) := by
  unfold beginInstant
  repeat' first
    | with_reducible assumption
    | with_reducible apply advance_canonical
    | with_reducible apply modPtn_canonical
    | with_reducible apply on_canonical
    | with_reducible apply p_canonical
    | with_reducible apply sampleClocks_canonical
    | with_reducible apply setSt_canonical
    | with_reducible apply tick_canonical
    | with_reducible apply foldl_canonical
    | with_reducible apply fold1_canonical
    | simp -implicitDefEqProofs only [Canonical.lit]
    | split
    | intro _
    | dsimp only

theorem askHold_canonical (d : Dev) (i e : Nat) (h0 : Canonical d) : Canonical (askHold d i e) := by
  unfold askHold
  repeat' first
    | with_reducible assumption
    | with_reducible apply controlPtn_canonical
    | with_reducible apply modPtn_canonical
    | simp -implicitDefEqProofs only [Canonical.lit]
    | split
    | intro _
    | dsimp only

theorem earlyCheck_canonical (d : Dev) (i : Nat) (h0 : Canonical d) : Canonical (earlyCheck d i) := by
  unfold earlyCheck
  repeat' first
    | with_reducible assumption
    | with_reducible apply askHold_canonical
    | simp -implicitDefEqProofs only [Canonical.lit]
    | split
    | intro _
    | dsimp only

theorem holdReady_canonical (d : Dev) (i e : Nat) (h0 : Canonical d) : Canonical (holdReady d i e) := by
  unfold holdReady
  repeat' first
    | with_reducible assumption
    | with_reducible apply controlPtn_canonical
    | with_reducible apply modPtn_canonical
    | simp -implicitDefEqProofs only [Canonical.lit]
    | split
    | intro _
    | dsimp only

theorem leadGo_canonical (d : Dev) (i e : Nat) (h0 : Canonical d) : Canonical (leadGo d i e) := by
  unfold leadGo
  repeat' first
    | with_reducible assumption
    | with_reducible apply controlPtn_canonical
    | with_reducible apply modPtn_canonical
    | simp -implicitDefEqProofs only [Canonical.lit]
    | split
    | intro _
    | dsimp only

theorem askLag_canonical (d : Dev) (i : Nat) (h0 : Canonical d) : Canonical (askLag d i) := by
  unfold askLag
  repeat' first
    | with_reducible assumption
    | with_reducible apply askHold_canonical
    | simp -implicitDefEqProofs only [Canonical.lit]
    | split
    | intro _
    | dsimp only

theorem forgetSteps_canonical (d : Dev) (i : Nat) (h0 : Canonical d) : Canonical (forgetSteps d i) := by
  unfold forgetSteps
  repeat' first
    | with_reducible assumption
    | simp -implicitDefEqProofs only [Canonical.lit]
    | split
    | intro _
    | dsimp only

theorem holdStep_canonical (d : Dev) (i src : Nat) (h0 : Canonical d) : Canonical (holdStep d i src) := by
  unfold holdStep
  repeat' first
    | with_reducible assumption
    | with_reducible apply add_canonical
    | with_reducible apply modPtn_canonical
    | with_reducible apply on_canonical
    | with_reducible apply p_canonical
    | with_reducible apply raise_canonical
    | simp -implicitDefEqProofs only [Canonical.lit]
    | split
    | intro _
    | dsimp only

theorem addTap_canonical (d : Dev) (i : Nat) (t : Tap) (h0 : Canonical d) : Canonical (addTap d i t) := by
  unfold addTap
  repeat' first
    | with_reducible assumption
    | with_reducible apply modPtn_canonical
    | simp -implicitDefEqProofs only [Canonical.lit]
    | split
    | intro _
    | dsimp only

theorem runBps_canonical (d : Dev) (i n u : Nat) (h0 : Canonical d) : Canonical (runBps d i n u).1 := by
  unfold runBps
  repeat' first
    | with_reducible assumption
    | with_reducible apply addTap_canonical
    | with_reducible apply fetchBp_canonical
    | with_reducible apply offerBp_canonical
    | with_reducible apply foldl_canonical
    | with_reducible apply fold1_canonical
    | simp -implicitDefEqProofs only [Canonical.lit]
    | split
    | intro _
    | dsimp only

theorem runWord_canonical (d : Dev) (i n t w u word : Nat) (pair : Bool) (h0 : Canonical d) : Canonical (runWord d i n t w u word pair).1 := by
  unfold runWord
  repeat' first
    | with_reducible assumption
    | with_reducible apply addTap_canonical
    | with_reducible apply capWord_canonical
    | with_reducible apply offerWalu_canonical
    | simp -implicitDefEqProofs only [Canonical.lit]
    | split
    | intro _
    | dsimp only

theorem runWalus_canonical (d : Dev) (i n u : Nat) (h0 : Canonical d) : Canonical (runWalus d i n u).1 := by
  unfold runWalus
  repeat' first
    | with_reducible assumption
    | with_reducible apply fetchWa_canonical
    | with_reducible apply runWord_canonical
    | with_reducible apply foldl_canonical
    | with_reducible apply fold1_canonical
    | simp -implicitDefEqProofs only [Canonical.lit]
    | split
    | intro _
    | dsimp only

theorem runPorts_canonical (d : Dev) (ports : List Nat) (f : Dev → Nat → Dev × List Wr) (h0 : Canonical d) (h : ∀ e a, Canonical e → Canonical (f e a).1) : Canonical (d.runPorts ports f).1 := by
  unfold runPorts
  apply fold1_canonical
  · exact h0
  · intro r a hr; exact h r.1 a hr

theorem runCluster_canonical (d : Dev) (i u n : Nat) (h0 : Canonical d) : Canonical (runCluster d i u n).1 := by
  unfold runCluster
  repeat' first
    | with_reducible assumption
    | with_reducible apply farUse_canonical
    | with_reducible apply runBps_canonical
    | with_reducible apply runDmem_canonical
    | with_reducible apply runPorts_canonical
    | with_reducible apply runWalus_canonical
    | with_reducible apply takeReads_canonical
    | with_reducible apply txpRead_canonical
    | simp -implicitDefEqProofs only [Canonical.lit]
    | split
    | intro _
    | dsimp only

theorem txpStore_canonical (d : Dev) (n x : Nat) (q : Nat) (w : QWord) (credit : Bool) (h0 : Canonical d) : Canonical (txpStore d n x q w credit) := by
  unfold txpStore
  repeat' first
    | with_reducible assumption
    | with_reducible apply append_canonical
    | with_reducible apply modClu_canonical
    | simp -implicitDefEqProofs only [Canonical.lit]
    | split
    | intro _
    | dsimp only

theorem executeIndex_canonical (d : Dev) (i u : Nat) (h0 : Canonical d) : Canonical (executeIndex d i u) := by
  unfold executeIndex
  repeat' first
    | with_reducible assumption
    | with_reducible apply checkFabric_canonical
    | with_reducible apply each_canonical
    | with_reducible apply farIssue_canonical
    | with_reducible apply modLink_canonical
    | with_reducible apply modPtn_canonical
    | with_reducible apply runCluster_canonical
    | with_reducible apply sendSlots_canonical
    | with_reducible apply setSt_canonical
    | with_reducible apply tick_canonical
    | with_reducible apply txpStore_canonical
    | with_reducible apply foldl_canonical
    | with_reducible apply fold1_canonical
    | simp -implicitDefEqProofs only [Canonical.lit]
    | split
    | intro _
    | dsimp only

theorem afterStep_canonical (d : Dev) (i seg : Nat) (h0 : Canonical d) : Canonical (afterStep d i seg) := by
  unfold afterStep
  repeat' first
    | with_reducible assumption
    | with_reducible apply advance_canonical
    | with_reducible apply landAll_canonical
    | with_reducible apply modPtn_canonical
    | with_reducible apply p_canonical
    | simp -implicitDefEqProofs only [Canonical.lit]
    | split
    | intro _
    | dsimp only

theorem oneStep_canonical (d : Dev) (i : Nat) (h0 : Canonical d) : Canonical (oneStep d i) := by
  unfold oneStep
  repeat' first
    | with_reducible assumption
    | with_reducible apply advance_canonical
    | with_reducible apply afterStep_canonical
    | with_reducible apply askHold_canonical
    | with_reducible apply earlyCheck_canonical
    | with_reducible apply executeIndex_canonical
    | with_reducible apply holdReady_canonical
    | with_reducible apply holdStep_canonical
    | with_reducible apply iff_canonical
    | with_reducible apply leadGo_canonical
    | with_reducible apply modPtn_canonical
    | with_reducible apply on_canonical
    | simp -implicitDefEqProofs only [Canonical.lit]
    | split
    | intro _
    | dsimp only

theorem doExecuteStep_canonical (d : Dev) (i : Nat) (h0 : Canonical d) : Canonical (doExecuteStep d i) := by
  unfold doExecuteStep
  repeat' first
    | with_reducible assumption
    | with_reducible apply askLag_canonical
    | with_reducible apply beginInstant_canonical
    | with_reducible apply dueFreeze_canonical
    | with_reducible apply enterFreeze_canonical
    | with_reducible apply enterHard_canonical
    | with_reducible apply holdStep_canonical
    | with_reducible apply iff_canonical
    | with_reducible apply on_canonical
    | with_reducible apply oneStep_canonical
    | with_reducible apply showPosition_canonical
    | simp -implicitDefEqProofs only [Canonical.lit]
    | split
    | intro _
    | dsimp only

theorem cmdErr_canonical (d : Dev) (i code : Nat) (h0 : Canonical d) : Canonical (cmdErr d i code) := by
  unfold cmdErr
  repeat' first
    | with_reducible assumption
    | with_reducible apply irq_canonical
    | with_reducible apply p_canonical
    | simp -implicitDefEqProofs only [Canonical.lit]
    | split
    | intro _
    | dsimp only

theorem startNow_canonical (d : Dev) (i : Nat) (h0 : Canonical d) : Canonical (startNow d i) := by
  unfold startNow
  repeat' first
    | with_reducible assumption
    | with_reducible apply each_canonical
    | with_reducible apply forgetSigs_canonical
    | with_reducible apply forgetSteps_canonical
    | with_reducible apply modLink_canonical
    | with_reducible apply modPtn_canonical
    | with_reducible apply p_canonical
    | simp -implicitDefEqProofs only [Canonical.lit]
    | split
    | intro _
    | dsimp only

theorem resumeNow_canonical (d : Dev) (i : Nat) (cycles steps : Option Nat) (h0 : Canonical d) : Canonical (resumeNow d i cycles steps) := by
  unfold resumeNow
  repeat' first
    | with_reducible assumption
    | with_reducible apply modPtn_canonical
    | with_reducible apply p_canonical
    | simp -implicitDefEqProofs only [Canonical.lit]
    | split
    | intro _
    | dsimp only

theorem stopNow_canonical (d : Dev) (i : Nat) (h0 : Canonical d) : Canonical (stopNow d i) := by
  unfold stopNow
  repeat' first
    | with_reducible assumption
    | with_reducible apply each_canonical
    | with_reducible apply forgetSigs_canonical
    | with_reducible apply forgetSteps_canonical
    | with_reducible apply irq_canonical
    | with_reducible apply landAll_canonical
    | with_reducible apply modClu_canonical
    | with_reducible apply modPtn_canonical
    | with_reducible apply p_canonical
    | simp -implicitDefEqProofs only [Canonical.lit]
    | split
    | intro _
    | dsimp only

theorem commandNow_canonical (d : Dev) (i cmd count : Nat) (h0 : Canonical d) : Canonical (commandNow d i cmd count) := by
  unfold commandNow
  repeat' first
    | with_reducible assumption
    | with_reducible apply resumeNow_canonical
    | with_reducible apply startNow_canonical
    | with_reducible apply stopNow_canonical
    | with_reducible apply wakeAll_canonical
    | simp -implicitDefEqProofs only [Canonical.lit]
    | split
    | intro _
    | dsimp only

theorem issueCommand_canonical (d : Dev) (i cmd : Nat) (h0 : Canonical d) : Canonical (issueCommand d i cmd) := by
  unfold issueCommand
  repeat' first
    | with_reducible assumption
    | with_reducible apply commandNow_canonical
    | with_reducible apply controlPtn_canonical
    | with_reducible apply modPtn_canonical
    | simp -implicitDefEqProofs only [Canonical.lit]
    | split
    | intro _
    | dsimp only

theorem hardReq_canonical (d : Dev) (i : Nat) (h0 : Canonical d) : Canonical (hardReq d i) := by
  unfold hardReq
  repeat' first
    | with_reducible assumption
    | with_reducible apply controlPtn_canonical
    | with_reducible apply dueFreeze_canonical
    | with_reducible apply enterHard_canonical
    | with_reducible apply setPtn_canonical
    | simp -implicitDefEqProofs only [Canonical.lit]
    | split
    | intro _
    | dsimp only

theorem seqCommand_canonical (d : Dev) (i cmd : Nat) (h0 : Canonical d) : Canonical (seqCommand d i cmd) := by
  unfold seqCommand
  repeat' first
    | with_reducible assumption
    | with_reducible apply cmdErr_canonical
    | with_reducible apply freezeReq_canonical
    | with_reducible apply hardReq_canonical
    | with_reducible apply iff_canonical
    | with_reducible apply issueCommand_canonical
    | with_reducible apply tick_canonical
    | simp -implicitDefEqProofs only [Canonical.lit]
    | split
    | intro _
    | dsimp only

theorem writeWord_canonical (d : Dev) (base off v : Nat) (fs : List Fld) (h0 : Canonical d) : Canonical (writeWord d base off v fs) := by
  unfold writeWord
  repeat' first
    | with_reducible assumption
    | with_reducible apply each_canonical
    | with_reducible apply p_canonical
    | simp -implicitDefEqProofs only [Canonical.lit]
    | split
    | intro _
    | dsimp only

theorem doSeqTableWrite_canonical (d : Dev) (i off : Nat) (v : W32) (h0 : Canonical d) : Canonical (doSeqTableWrite d i off v) := by
  unfold doSeqTableWrite
  repeat' first
    | with_reducible assumption
    | with_reducible apply cmdErr_canonical
    | with_reducible apply dropSamples_canonical
    | with_reducible apply writeWord_canonical
    | simp -implicitDefEqProofs only [Canonical.lit]
    | split
    | intro _
    | dsimp only

theorem doStallRelease_canonical (d : Dev) (i : Nat) (h0 : Canonical d) : Canonical (doStallRelease d i) := by
  unfold doStallRelease
  repeat' first
    | with_reducible assumption
    | with_reducible apply doExecuteStep_canonical
    | simp -implicitDefEqProofs only [Canonical.lit]
    | split
    | intro _
    | dsimp only

theorem doDue_canonical (d : Dev) (i : Nat) (due : Due) (h0 : Canonical d) : Canonical (doDue d i due) := by
  unfold doDue
  repeat' first
    | with_reducible assumption
    | with_reducible apply dueFreeze_canonical
    | simp -implicitDefEqProofs only [Canonical.lit]
    | split
    | intro _
    | dsimp only

theorem doStepStepsCountReached_canonical (d : Dev) (i : Nat) (h0 : Canonical d) : Canonical (doStepStepsCountReached d i) := by
  unfold doStepStepsCountReached
  repeat' first
    | with_reducible assumption
    | with_reducible apply doDue_canonical
    | with_reducible apply modPtn_canonical
    | simp -implicitDefEqProofs only [Canonical.lit]
    | split
    | intro _
    | dsimp only

theorem doFreezeTimeout_canonical (d : Dev) (i : Nat) (h0 : Canonical d) : Canonical (doFreezeTimeout d i) := by
  unfold doFreezeTimeout
  repeat' first
    | with_reducible assumption
    | with_reducible apply enterHard_canonical
    | with_reducible apply irq_canonical
    | with_reducible apply on_canonical
    | simp -implicitDefEqProofs only [Canonical.lit]
    | split
    | intro _
    | dsimp only

theorem passOn_canonical (d : Dev) (i gi kind body : Nat) (h0 : Canonical d) : Canonical (passOn d i gi kind body) := by
  unfold passOn
  repeat' first
    | with_reducible assumption
    | with_reducible apply control_canonical
    | with_reducible apply each_canonical
    | simp -implicitDefEqProofs only [Canonical.lit]
    | split
    | intro _
    | dsimp only

theorem linkedMsg_canonical (d : Dev) (gi i : Nat) (intact : Bool) (k : Dev → Dev) (h0 : Canonical d) (hk : ∀ e, Canonical e → Canonical (k e)) : Canonical (linkedMsg d gi i intact k) := by
  unfold linkedMsg
  repeat' first
    | with_reducible assumption
    | with_reducible apply hk
    | with_reducible apply ctlBad_canonical
    | simp -implicitDefEqProofs only [Canonical.lit]
    | split
    | intro _
    | dsimp only

theorem freezeAtStep_canonical (d : Dev) (i e : Nat) (hard : Bool) (h0 : Canonical d) : Canonical (freezeAtStep d i e hard) := by
  unfold freezeAtStep
  repeat' first
    | with_reducible assumption
    | with_reducible apply iff_canonical
    | with_reducible apply modPtn_canonical
    | with_reducible apply on_canonical
    | simp -implicitDefEqProofs only [Canonical.lit]
    | split
    | intro _
    | dsimp only

theorem doLinkedCommand_canonical (d : Dev) (gi i cmd : Nat) (count : W32) (dist : Nat) (intact : Bool) (h0 : Canonical d) : Canonical (doLinkedCommand d gi i cmd count dist intact) := by
  unfold doLinkedCommand
  repeat' first
    | with_reducible assumption
    | with_reducible apply freezeAtStep_canonical
    | with_reducible apply linkedMsg_canonical
    | with_reducible apply modPtn_canonical
    | with_reducible apply passOn_canonical
    | simp -implicitDefEqProofs only [Canonical.lit]
    | split
    | intro _
    | dsimp only

theorem doLinkedCommandEffect_canonical (d : Dev) (i : Nat) (h0 : Canonical d) : Canonical (doLinkedCommandEffect d i) := by
  unfold doLinkedCommandEffect
  repeat' first
    | with_reducible assumption
    | with_reducible apply cmdErr_canonical
    | with_reducible apply commandNow_canonical
    | with_reducible apply modPtn_canonical
    | simp -implicitDefEqProofs only [Canonical.lit]
    | split
    | intro _
    | dsimp only

theorem doHold_canonical (d : Dev) (gi i e : Nat) (intact : Bool) (h0 : Canonical d) : Canonical (doHold d gi i e intact) := by
  unfold doHold
  repeat' first
    | with_reducible assumption
    | with_reducible apply linkedMsg_canonical
    | with_reducible apply modPtn_canonical
    | with_reducible apply on_canonical
    | with_reducible apply passOn_canonical
    | with_reducible apply raiseSysFreeze_canonical
    | simp -implicitDefEqProofs only [Canonical.lit]
    | split
    | intro _
    | dsimp only

theorem doReady_canonical (d : Dev) (gi i e : Nat) (intact : Bool) (h0 : Canonical d) : Canonical (doReady d gi i e intact) := by
  unfold doReady
  repeat' first
    | with_reducible assumption
    | with_reducible apply leadGo_canonical
    | with_reducible apply linkedMsg_canonical
    | with_reducible apply modPtn_canonical
    | with_reducible apply passOn_canonical
    | simp -implicitDefEqProofs only [Canonical.lit]
    | split
    | intro _
    | dsimp only

theorem doGo_canonical (d : Dev) (gi i e : Nat) (intact : Bool) (h0 : Canonical d) : Canonical (doGo d gi i e intact) := by
  unfold doGo
  repeat' first
    | with_reducible assumption
    | with_reducible apply linkedMsg_canonical
    | with_reducible apply modPtn_canonical
    | with_reducible apply passOn_canonical
    | simp -implicitDefEqProofs only [Canonical.lit]
    | split
    | intro _
    | dsimp only

theorem doSystemHoldRelease_canonical (d : Dev) (i : Nat) (h0 : Canonical d) : Canonical (doSystemHoldRelease d i) := by
  unfold doSystemHoldRelease
  repeat' first
    | with_reducible assumption
    | with_reducible apply p_canonical
    | with_reducible apply setPtn_canonical
    | simp -implicitDefEqProofs only [Canonical.lit]
    | split
    | intro _
    | dsimp only

theorem doSteps_canonical (d : Dev) (gi i : Nat) (cycle : BitVec 48) (count : Nat) (intact : Bool) (h0 : Canonical d) : Canonical (doSteps d gi i cycle count intact) := by
  unfold doSteps
  repeat' first
    | with_reducible assumption
    | with_reducible apply compareSteps_canonical
    | with_reducible apply linkedMsg_canonical
    | simp -implicitDefEqProofs only [Canonical.lit]
    | split
    | intro _
    | dsimp only
end Sys2Proof.Machine.Dev
end

