-- ==== Sys2Proof/Laws/KeepCanonical3.lean ====
section
/-! SUPPORT. The register fields and HBM stay in their canonical form under cluster pages, windows, snapshots, doorbells and couriers: one lemma for each function. -/

set_option linter.all false

namespace Sys2Proof.Machine.Dev

set_option Elab.async false


theorem atPage_canonical (d : Dev) (base : Nat) (k : Dev → Dev) (h0 : Canonical d) (hk : ∀ e, Canonical e → Canonical (k e)) : Canonical (atPage d base k) := by
  unfold atPage
  repeat' first
    | with_reducible assumption
    | with_reducible apply hk
    | simp -implicitDefEqProofs only [Canonical.lit]
    | split
    | intro _
    | dsimp only

theorem unreachable_canonical (d : Dev) (h0 : Canonical d) : Canonical (unreachable d) := by
  unfold unreachable
  repeat' first
    | with_reducible assumption
    | with_reducible apply add_canonical
    | simp -implicitDefEqProofs only [Canonical.lit]
    | split
    | intro _
    | dsimp only

theorem viaFence_canonical (d : Dev) (fn : Fn) (h : Option Nat) (off : Nat) (write : Bool) (fail k : Dev → Dev) (h0 : Canonical d) (hf : ∀ e, Canonical e → Canonical (fail e)) (hk : ∀ e, Canonical e → Canonical (k e)) : Canonical (viaFence d fn h off write fail k) := by
  unfold viaFence
  repeat' first
    | with_reducible assumption
    | with_reducible apply hf
    | with_reducible apply hk
    | with_reducible apply viaNoc_canonical
    | with_reducible apply hostTimeout_canonical
    | with_reducible apply accessError_canonical
    | with_reducible apply unreachable_canonical
    | simp -implicitDefEqProofs only [Canonical.lit]
    | split
    | intro _
    | dsimp only

theorem atCluster_canonical (d : Dev) (fn : Fn) (n a : Nat) (write : Bool) (k : Dev → Dev) (h0 : Canonical d) (hk : ∀ e, Canonical e → Canonical (k e)) : Canonical (atCluster d fn n a write k) := by
  unfold atCluster
  repeat' first
    | with_reducible assumption
    | with_reducible apply hk
    | with_reducible apply complete_canonical
    | with_reducible apply viaFence_canonical
    | simp -implicitDefEqProofs only [Canonical.lit]
    | split
    | intro _
    | dsimp only

theorem doWriteBack_canonical (d : Dev) (n : Nat) (walu : Bool) (t unit s : Nat) (h0 : Canonical d) : Canonical (doWriteBack d n walu t unit s) := by
  unfold doWriteBack
  repeat' first
    | with_reducible assumption
    | with_reducible apply add_canonical
    | with_reducible apply cluIrq_canonical
    | with_reducible apply modClu_canonical
    | with_reducible apply setBp_canonical
    | with_reducible apply setWa_canonical
    | simp -implicitDefEqProofs only [Canonical.lit]
    | split
    | intro _
    | dsimp only

theorem doRowWriteBack_canonical (d : Dev) (n m row : Nat) (h0 : Canonical d) : Canonical (doRowWriteBack d n m row) := by
  unfold doRowWriteBack
  repeat' first
    | with_reducible assumption
    | with_reducible apply modClu_canonical
    | with_reducible apply rowBackDone_canonical
    | with_reducible apply setRow_canonical
    | simp -implicitDefEqProofs only [Canonical.lit]
    | split
    | intro _
    | dsimp only

theorem doBpiClr_canonical (d : Dev) (n : Nat) (h0 : Canonical d) : Canonical (doBpiClr d n) := by
  unfold doBpiClr
  repeat' first
    | with_reducible assumption
    | with_reducible apply clr_canonical
    | simp -implicitDefEqProofs only [Canonical.lit]
    | split
    | intro _
    | dsimp only

theorem doWliClr_canonical (d : Dev) (n : Nat) (h0 : Canonical d) : Canonical (doWliClr d n) := by
  unfold doWliClr
  repeat' first
    | with_reducible assumption
    | with_reducible apply clr_canonical
    | simp -implicitDefEqProofs only [Canonical.lit]
    | split
    | intro _
    | dsimp only

theorem doFabClr_canonical (d : Dev) (n : Nat) (h0 : Canonical d) : Canonical (doFabClr d n) := by
  unfold doFabClr
  repeat' first
    | with_reducible assumption
    | with_reducible apply clr_canonical
    | simp -implicitDefEqProofs only [Canonical.lit]
    | split
    | intro _
    | dsimp only

theorem doDmemClr_canonical (d : Dev) (n : Nat) (h0 : Canonical d) : Canonical (doDmemClr d n) := by
  unfold doDmemClr
  repeat' first
    | with_reducible assumption
    | with_reducible apply clr_canonical
    | simp -implicitDefEqProofs only [Canonical.lit]
    | split
    | intro _
    | dsimp only

theorem doDmemCfg_canonical (d : Dev) (n off v : Nat) (h0 : Canonical d) : Canonical (doDmemCfg d n off v) := by
  unfold doDmemCfg
  repeat' first
    | with_reducible assumption
    | with_reducible apply writeWord_canonical
    | simp -implicitDefEqProofs only [Canonical.lit]
    | split
    | intro _
    | dsimp only

theorem doFmpCfg_canonical (d : Dev) (n off v : Nat) (h0 : Canonical d) : Canonical (doFmpCfg d n off v) := by
  unfold doFmpCfg
  repeat' first
    | with_reducible assumption
    | with_reducible apply writeWord_canonical
    | simp -implicitDefEqProofs only [Canonical.lit]
    | split
    | intro _
    | dsimp only

theorem doTxpCfg_canonical (d : Dev) (n off v : Nat) (h0 : Canonical d) : Canonical (doTxpCfg d n off v) := by
  unfold doTxpCfg
  repeat' first
    | with_reducible assumption
    | with_reducible apply releasePort_canonical
    | with_reducible apply writeWord_canonical
    | simp -implicitDefEqProofs only [Canonical.lit]
    | split
    | intro _
    | dsimp only

theorem farUe_canonical (d : Dev) (n f addr : Nat) (h0 : Canonical d) : Canonical (farUe d n f addr) := by
  unfold farUe
  repeat' first
    | with_reducible assumption
    | with_reducible apply add_canonical
    | with_reducible apply cluIrq_canonical
    | with_reducible apply raiseUpset_canonical
    | with_reducible apply recordRow_canonical
    | with_reducible apply tick_canonical
    | simp -implicitDefEqProofs only [Canonical.lit]
    | split
    | intro _
    | dsimp only

theorem farStatus_canonical (d : Dev) (n f addr status : Nat) (h0 : Canonical d) : Canonical (farStatus d n f addr status) := by
  unfold farStatus
  repeat' first
    | with_reducible assumption
    | with_reducible apply farUe_canonical
    | simp -implicitDefEqProofs only [Canonical.lit]
    | split
    | intro _
    | dsimp only

theorem farHeard_canonical (d : Dev) (n f addr status : Nat) (h0 : Canonical d) : Canonical (farHeard d n f addr status) := by
  unfold farHeard
  repeat' first
    | with_reducible assumption
    | with_reducible apply farStatus_canonical
    | with_reducible apply iff_canonical
    | simp -implicitDefEqProofs only [Canonical.lit]
    | split
    | intro _
    | dsimp only

theorem farPerform_canonical (d : Dev) (n f : Nat) (a : FarAcc) (h0 : Canonical d) : Canonical (farPerform d n f a).1 := by
  unfold farPerform
  repeat' first
    | with_reducible assumption
    | with_reducible apply farHeard_canonical
    | with_reducible apply hbmRead_canonical
    | with_reducible apply hbmWrite_canonical
    | simp -implicitDefEqProofs only [Canonical.lit]
    | split
    | intro _
    | dsimp only

theorem farPrefix_canonical (d : Dev) (n f k : Nat) (h0 : Canonical d) : Canonical (farPrefix d n f k) := by
  unfold farPrefix
  repeat' first
    | with_reducible assumption
    | with_reducible apply farPerform_canonical
    | with_reducible apply setFar_canonical
    | with_reducible apply foldl_canonical
    | with_reducible apply fold1_canonical
    | simp -implicitDefEqProofs only [Canonical.lit]
    | split
    | intro _
    | dsimp only

theorem farFree_canonical (d : Dev) (n f k : Nat) (h0 : Canonical d) : Canonical (farFree d n f k) := by
  unfold farFree
  repeat' first
    | with_reducible assumption
    | with_reducible apply freeOutst_canonical
    | with_reducible apply setFar_canonical
    | simp -implicitDefEqProofs only [Canonical.lit]
    | split
    | intro _
    | dsimp only

theorem farEnd_canonical (d : Dev) (n f k : Nat) (h0 : Canonical d) : Canonical (farEnd d n f k) := by
  unfold farEnd
  repeat' first
    | with_reducible assumption
    | with_reducible apply farAcked_canonical
    | with_reducible apply farFree_canonical
    | with_reducible apply setFar_canonical
    | simp -implicitDefEqProofs only [Canonical.lit]
    | split
    | intro _
    | dsimp only

theorem farComplete_canonical (d : Dev) (n f k : Nat) (h0 : Canonical d) : Canonical (farComplete d n f k) := by
  unfold farComplete
  repeat' first
    | with_reducible assumption
    | with_reducible apply farEnd_canonical
    | with_reducible apply farPrefix_canonical
    | with_reducible apply farReserve_canonical
    | with_reducible apply iff_canonical
    | simp -implicitDefEqProofs only [Canonical.lit]
    | split
    | intro _
    | dsimp only

theorem doFarRead_canonical (d : Dev) (n f : Nat) (h0 : Canonical d) : Canonical (doFarRead d n f) := by
  unfold doFarRead
  repeat' first
    | with_reducible assumption
    | with_reducible apply farComplete_canonical
    | simp -implicitDefEqProofs only [Canonical.lit]
    | split
    | intro _
    | dsimp only

theorem doFarAck_canonical (d : Dev) (n f : Nat) (h0 : Canonical d) : Canonical (doFarAck d n f) := by
  unfold doFarAck
  repeat' first
    | with_reducible assumption
    | with_reducible apply farComplete_canonical
    | simp -implicitDefEqProofs only [Canonical.lit]
    | split
    | intro _
    | dsimp only

theorem farAnswered_canonical (d : Dev) (n f k status : Nat) (bs : List Byte) (h0 : Canonical d) : Canonical (farAnswered d n f k status bs) := by
  unfold farAnswered
  repeat' first
    | with_reducible assumption
    | with_reducible apply farEnd_canonical
    | with_reducible apply farPrefix_canonical
    | with_reducible apply farStatus_canonical
    | with_reducible apply setFar_canonical
    | simp -implicitDefEqProofs only [Canonical.lit]
    | split
    | intro _
    | dsimp only

theorem farTimeout_canonical (d : Dev) (n f k : Nat) (h0 : Canonical d) : Canonical (farTimeout d n f k) := by
  unfold farTimeout
  repeat' first
    | with_reducible assumption
    | with_reducible apply farEnd_canonical
    | with_reducible apply farPrefix_canonical
    | with_reducible apply farStatus_canonical
    | with_reducible apply setFar_canonical
    | with_reducible apply tick_canonical
    | simp -implicitDefEqProofs only [Canonical.lit]
    | split
    | intro _
    | dsimp only

theorem landFar_canonical (d : Dev) (n : Nat) (sure : Bool) (h0 : Canonical d) : Canonical (landFar d n sure) := by
  unfold landFar
  repeat' first
    | with_reducible assumption
    | with_reducible apply each_canonical
    | with_reducible apply farPerform_canonical
    | with_reducible apply tick_canonical
    | simp -implicitDefEqProofs only [Canonical.lit]
    | split
    | intro _
    | dsimp only

theorem farDrain_canonical (d : Dev) (n : Nat) (h0 : Canonical d) : Canonical (farDrain d n) := by
  unfold farDrain
  repeat' first
    | with_reducible assumption
    | with_reducible apply each_canonical
    | with_reducible apply farPrefix_canonical
    | with_reducible apply freeOutst_canonical
    | with_reducible apply setFar_canonical
    | with_reducible apply settleFences_canonical
    | simp -implicitDefEqProofs only [Canonical.lit]
    | split
    | intro _
    | dsimp only

theorem doCopyFill_canonical (d : Dev) (n x : Nat) (h0 : Canonical d) : Canonical (doCopyFill d n x) := by
  unfold doCopyFill
  repeat' first
    | with_reducible assumption
    | with_reducible apply setQueue_canonical
    | simp -implicitDefEqProofs only [Canonical.lit]
    | split
    | intro _
    | dsimp only

theorem doCreditRenew_canonical (d : Dev) (n x : Nat) (h0 : Canonical d) : Canonical (doCreditRenew d n x) := by
  unfold doCreditRenew
  repeat' first
    | with_reducible assumption
    | with_reducible apply modClu_canonical
    | with_reducible apply setQueue_canonical
    | simp -implicitDefEqProofs only [Canonical.lit]
    | split
    | intro _
    | dsimp only

theorem classRead_canonical (d : Dev) (n c t m o : Nat) (h0 : Canonical d) : Canonical (classRead d n c t m o).1 := by
  unfold classRead
  repeat' first
    | with_reducible assumption
    | with_reducible apply checkMesh_canonical
    | with_reducible apply checkPort_canonical
    | with_reducible apply fetchBp_canonical
    | with_reducible apply fetchWa_canonical
    | with_reducible apply readRow_canonical
    | simp -implicitDefEqProofs only [Canonical.lit]
    | split
    | intro _
    | dsimp only

theorem rewriteBp_canonical (d : Dev) (n k v : Nat) (h0 : Canonical d) : Canonical (rewriteBp d n k v) := by
  unfold rewriteBp
  repeat' first
    | with_reducible assumption
    | with_reducible apply modClu_canonical
    | with_reducible apply setBp_canonical
    | simp -implicitDefEqProofs only [Canonical.lit]
    | split
    | intro _
    | dsimp only

theorem rewriteWa_canonical (d : Dev) (n k v : Nat) (h0 : Canonical d) : Canonical (rewriteWa d n k v) := by
  unfold rewriteWa
  repeat' first
    | with_reducible assumption
    | with_reducible apply modClu_canonical
    | with_reducible apply setWa_canonical
    | simp -implicitDefEqProofs only [Canonical.lit]
    | split
    | intro _
    | dsimp only

theorem rewriteRow_canonical (d : Dev) (n k v : Nat) (h0 : Canonical d) : Canonical (rewriteRow d n k v) := by
  unfold rewriteRow
  repeat' first
    | with_reducible assumption
    | with_reducible apply modClu_canonical
    | with_reducible apply setRow_canonical
    | simp -implicitDefEqProofs only [Canonical.lit]
    | split
    | intro _
    | dsimp only

theorem classWrite_canonical (d : Dev) (n c t m o v : Nat) (h0 : Canonical d) : Canonical (classWrite d n c t m o v) := by
  unfold classWrite
  repeat' first
    | with_reducible assumption
    | with_reducible apply each_canonical
    | with_reducible apply rewriteBp_canonical
    | with_reducible apply rewriteRow_canonical
    | with_reducible apply rewriteWa_canonical
    | with_reducible apply setMesh_canonical
    | with_reducible apply setPort_canonical
    | with_reducible apply setSt_canonical
    | simp -implicitDefEqProofs only [Canonical.lit]
    | split
    | intro _
    | dsimp only

theorem winWake_canonical (d : Dev) (n c : Nat) (h0 : Canonical d) : Canonical (winWake d n c) := by
  unfold winWake
  repeat' first
    | with_reducible assumption
    | with_reducible apply wake_canonical
    | simp -implicitDefEqProofs only [Canonical.lit]
    | split
    | intro _
    | dsimp only

theorem winRead_canonical (d : Dev) (n w off : Nat) (h0 : Canonical d) : Canonical (winRead d n w off).1 := by
  unfold winRead
  repeat' first
    | with_reducible assumption
    | with_reducible apply classRead_canonical
    | with_reducible apply on_canonical
    | with_reducible apply winWake_canonical
    | simp -implicitDefEqProofs only [Canonical.lit]
    | split
    | intro _
    | dsimp only

theorem doWindowRead_canonical (d : Dev) (fn : Fn) (n w off : Nat) (h0 : Canonical d) : Canonical (doWindowRead d fn n w off) := by
  unfold doWindowRead
  repeat' first
    | with_reducible assumption
    | with_reducible apply atCluster_canonical
    | with_reducible apply reply_canonical
    | with_reducible apply winRead_canonical
    | simp -implicitDefEqProofs only [Canonical.lit]
    | split
    | intro _
    | dsimp only

theorem winWrite_canonical (d : Dev) (n w off v : Nat) (h0 : Canonical d) : Canonical (winWrite d n w off v) := by
  unfold winWrite
  repeat' first
    | with_reducible assumption
    | with_reducible apply classWrite_canonical
    | with_reducible apply on_canonical
    | with_reducible apply winWake_canonical
    | simp -implicitDefEqProofs only [Canonical.lit]
    | split
    | intro _
    | dsimp only

theorem doWindowWrite_canonical (d : Dev) (fn : Fn) (n w off v : Nat) (h0 : Canonical d) : Canonical (doWindowWrite d fn n w off v) := by
  unfold doWindowWrite
  repeat' first
    | with_reducible assumption
    | with_reducible apply atCluster_canonical
    | with_reducible apply winWrite_canonical
    | simp -implicitDefEqProofs only [Canonical.lit]
    | split
    | intro _
    | dsimp only

theorem doWindowTimeout_canonical (d : Dev) (fn : Fn) (n w off : Nat) (h0 : Canonical d) : Canonical (doWindowTimeout d fn n w off) := by
  unfold doWindowTimeout
  repeat' first
    | with_reducible assumption
    | with_reducible apply atCluster_canonical
    | with_reducible apply on_canonical
    | with_reducible apply reply_canonical
    | simp -implicitDefEqProofs only [Canonical.lit]
    | split
    | intro _
    | dsimp only

theorem clearMemories_canonical (d : Dev) (n : Nat) (h0 : Canonical d) : Canonical (clearMemories d n) := by
  unfold clearMemories
  repeat' first
    | with_reducible assumption
    | with_reducible apply reset_canonical
    | simp -implicitDefEqProofs only [Canonical.lit]
    | split
    | intro _
    | dsimp only

theorem saveRows_canonical (d : Dev) (n m : Nat) (h0 : Canonical d) : Canonical (saveRows d n m).1 := by
  unfold saveRows
  repeat' first
    | with_reducible assumption
    | with_reducible apply each_canonical
    | with_reducible apply readRow_canonical
    | simp -implicitDefEqProofs only [Canonical.lit]
    | split
    | intro _
    | dsimp only

theorem saveBlocks_canonical (d : Dev) (n : Nat) (h0 : Canonical d) : Canonical (saveBlocks d n).1 := by
  unfold saveBlocks
  repeat' first
    | with_reducible assumption
    | with_reducible apply saveRows_canonical
    | with_reducible apply foldl_canonical
    | with_reducible apply fold1_canonical
    | simp -implicitDefEqProofs only [Canonical.lit]
    | split
    | intro _
    | dsimp only

theorem saveSection_canonical (d : Dev) (n : Nat) (h0 : Canonical d) : Canonical (saveSection d n).1 := by
  have h := saveBlocks_canonical d n h0
  have e : saveSection d n = ((d.saveBlocks n).1, sectionBytes (d.sectionFront n) (d.saveBlocks n).2) := by unfold saveSection; rfl
  rw [e]
  generalize saveBlocks d n = r at h ⊢
  exact h

theorem snapPut_canonical (d : Dev) (i a : Nat) (bs : List Byte) (h0 : Canonical d) : Canonical (snapPut d i a bs) := by
  unfold snapPut
  repeat' first
    | with_reducible assumption
    | with_reducible apply hbmPut_canonical
    | simp -implicitDefEqProofs only [Canonical.lit]
    | split
    | intro _
    | dsimp only

theorem snapGet_canonical (d : Dev) (i a n : Nat) (h0 : Canonical d) : Canonical (snapGet d i a n).1 := by
  unfold snapGet
  repeat' first
    | with_reducible assumption
    | with_reducible apply hbmGet_canonical
    | simp -implicitDefEqProofs only [Canonical.lit]
    | split
    | intro _
    | dsimp only

theorem cutPut_canonical (d : Dev) (i a : Nat) (bs : List Byte) (h0 : Canonical d) : Canonical (cutPut d i a bs) := by
  unfold cutPut
  repeat' first
    | with_reducible assumption
    | with_reducible apply each_canonical
    | with_reducible apply iff_canonical
    | with_reducible apply snapPut_canonical
    | with_reducible apply tick_canonical
    | simp -implicitDefEqProofs only [Canonical.lit]
    | split
    | intro _
    | dsimp only

theorem copyRegions_canonical (d : Dev) (i : Nat) (out cut : Bool) (h0 : Canonical d) : Canonical (copyRegions d i out cut) := by
  unfold copyRegions
  repeat' first
    | with_reducible assumption
    | with_reducible apply cutPut_canonical
    | with_reducible apply snapGet_canonical
    | with_reducible apply snapPut_canonical
    | with_reducible apply foldl_canonical
    | with_reducible apply fold1_canonical
    | simp -implicitDefEqProofs only [Canonical.lit]
    | split
    | intro _
    | dsimp only

theorem snapEnd_canonical (d : Dev) (i result : Nat) (h0 : Canonical d) : Canonical (snapEnd d i result) := by
  unfold snapEnd
  repeat' first
    | with_reducible assumption
    | with_reducible apply irq_canonical
    | with_reducible apply mntFree_canonical
    | with_reducible apply modPtn_canonical
    | with_reducible apply on_canonical
    | with_reducible apply p_canonical
    | simp -implicitDefEqProofs only [Canonical.lit]
    | split
    | intro _
    | dsimp only

theorem snapBegin_canonical (d : Dev) (i st : Nat) (h0 : Canonical d) : Canonical (snapBegin d i st) := by
  unfold snapBegin
  repeat' first
    | with_reducible assumption
    | with_reducible apply mntRequest_canonical
    | with_reducible apply p_canonical
    | with_reducible apply snapEnd_canonical
    | with_reducible apply wakeAll_canonical
    | simp -implicitDefEqProofs only [Canonical.lit]
    | split
    | intro _
    | dsimp only

theorem startSave_canonical (d : Dev) (i : Nat) (h0 : Canonical d) : Canonical (startSave d i) := by
  unfold startSave
  repeat' first
    | with_reducible assumption
    | with_reducible apply snapBegin_canonical
    | with_reducible apply snapEnd_canonical
    | with_reducible apply snapPut_canonical
    | simp -implicitDefEqProofs only [Canonical.lit]
    | split
    | intro _
    | dsimp only

theorem doSnapSave_canonical (d : Dev) (i : Nat) (h0 : Canonical d) : Canonical (doSnapSave d i) := by
  unfold doSnapSave
  repeat' first
    | with_reducible assumption
    | with_reducible apply p_canonical
    | with_reducible apply startSave_canonical
    | simp -implicitDefEqProofs only [Canonical.lit]
    | split
    | intro _
    | dsimp only

theorem saveSections_canonical (d : Dev) (i : Nat) (h0 : Canonical d) : Canonical (saveSections d i) := by
  unfold saveSections
  repeat' first
    | with_reducible assumption
    | with_reducible apply saveSection_canonical
    | with_reducible apply snapPut_canonical
    | with_reducible apply foldl_canonical
    | with_reducible apply fold1_canonical
    | simp -implicitDefEqProofs only [Canonical.lit]
    | split
    | intro _
    | dsimp only

theorem doSnapSaveComplete_canonical (d : Dev) (i : Nat) (h0 : Canonical d) : Canonical (doSnapSaveComplete d i) := by
  unfold doSnapSaveComplete
  repeat' first
    | with_reducible assumption
    | with_reducible apply copyRegions_canonical
    | with_reducible apply p_canonical
    | with_reducible apply saveSections_canonical
    | with_reducible apply snapEnd_canonical
    | with_reducible apply snapPut_canonical
    | simp -implicitDefEqProofs only [Canonical.lit]
    | split
    | intro _
    | dsimp only

theorem doSnapRestore_canonical (d : Dev) (i : Nat) (h0 : Canonical d) : Canonical (doSnapRestore d i) := by
  unfold doSnapRestore
  repeat' first
    | with_reducible assumption
    | with_reducible apply p_canonical
    | with_reducible apply snapBegin_canonical
    | with_reducible apply snapEnd_canonical
    | simp -implicitDefEqProofs only [Canonical.lit]
    | split
    | intro _
    | dsimp only

theorem checkSections_canonical (d : Dev) (i : Nat) (h0 : Canonical d) : Canonical (checkSections d i).1 := by
  have h (n : Nat) (a : Nat → Nat) (ks : List Nat) (x : Dev × Bool) (hx : Canonical x.1) :
      Canonical (ks.foldl (fun x k => let y := x.1.snapGet i (a k) n; (y.1, x.2 && sectionOk y.2)) x).1 := by
    induction ks generalizing x with
    | nil => exact hx
    | cons k ks ih =>
      rw [List.foldl_cons]
      exact ih _ (snapGet_canonical x.1 i (a k) n hx)
  unfold checkSections
  exact h snapSection (fun k => d.sectionAt i k) _ _ h0

theorem snapCheck_canonical (d : Dev) (i : Nat) (ids : List Nat) (shape : Bool) (h0 : Canonical d) : Canonical (snapCheck d i ids shape).1 := by
  unfold snapCheck
  repeat' first
    | with_reducible assumption
    | with_reducible apply checkSections_canonical
    | with_reducible apply snapGet_canonical
    | simp -implicitDefEqProofs only [Canonical.lit]
    | split
    | intro _
    | dsimp only

theorem doSnapCheckComplete_canonical (d : Dev) (i : Nat) (h0 : Canonical d) : Canonical (doSnapCheckComplete d i) := by
  unfold doSnapCheckComplete
  repeat' first
    | with_reducible assumption
    | with_reducible apply p_canonical
    | with_reducible apply snapCheck_canonical
    | with_reducible apply snapEnd_canonical
    | simp -implicitDefEqProofs only [Canonical.lit]
    | split
    | intro _
    | dsimp only

theorem loadFar_canonical (d : Dev) (n : Nat) (bs : List Byte) (h0 : Canonical d) : Canonical (loadFar d n bs) := by
  unfold loadFar
  repeat' first
    | with_reducible assumption
    | with_reducible apply each_canonical
    | with_reducible apply farDrain_canonical
    | with_reducible apply setFar_canonical
    | simp -implicitDefEqProofs only [Canonical.lit]
    | split
    | intro _
    | dsimp only

theorem loadBlock_canonical (d : Dev) (n : Nat) (bs : List Byte) (m : Nat) (h0 : Canonical d) : Canonical (loadBlock d n bs m) := by
  unfold loadBlock
  repeat' first
    | with_reducible assumption
    | with_reducible apply each_canonical
    | with_reducible apply rewriteRow_canonical
    | simp -implicitDefEqProofs only [Canonical.lit]
    | split
    | intro _
    | dsimp only

theorem loadSection_canonical (d : Dev) (n : Nat) (bs : List Byte) (h0 : Canonical d) : Canonical (loadSection d n bs) := by
  unfold loadSection
  repeat' first
    | with_reducible assumption
    | with_reducible apply each_canonical
    | with_reducible apply loadBlock_canonical
    | with_reducible apply loadFar_canonical
    | with_reducible apply setSt_canonical
    | simp -implicitDefEqProofs only [Canonical.lit]
    | split
    | intro _
    | dsimp only

theorem restoreSection_canonical (d : Dev) (i k n : Nat) (h0 : Canonical d) : Canonical (restoreSection d i k n) := by
  unfold restoreSection
  repeat' first
    | with_reducible assumption
    | with_reducible apply loadSection_canonical
    | with_reducible apply snapGet_canonical
    | simp -implicitDefEqProofs only [Canonical.lit]
    | split
    | intro _
    | dsimp only

theorem loadSnapshot_canonical (d : Dev) (i : Nat) (h0 : Canonical d) : Canonical (loadSnapshot d i) := by
  unfold loadSnapshot
  repeat' first
    | with_reducible assumption
    | with_reducible apply copyRegions_canonical
    | with_reducible apply forgetSigs_canonical
    | with_reducible apply forgetSteps_canonical
    | with_reducible apply modPtn_canonical
    | with_reducible apply p_canonical
    | with_reducible apply restoreSection_canonical
    | with_reducible apply setSt_canonical
    | with_reducible apply snapGet_canonical
    | with_reducible apply tick_canonical
    | with_reducible apply foldl_canonical
    | with_reducible apply fold1_canonical
    | simp -implicitDefEqProofs only [Canonical.lit]
    | split
    | intro _
    | dsimp only

theorem doSnapRestoreComplete_canonical (d : Dev) (i : Nat) (h0 : Canonical d) : Canonical (doSnapRestoreComplete d i) := by
  unfold doSnapRestoreComplete
  repeat' first
    | with_reducible assumption
    | with_reducible apply frozenIrq_canonical
    | with_reducible apply loadSnapshot_canonical
    | with_reducible apply modPtn_canonical
    | with_reducible apply p_canonical
    | with_reducible apply snapEnd_canonical
    | simp -implicitDefEqProofs only [Canonical.lit]
    | split
    | intro _
    | dsimp only

theorem cutSave_canonical (d : Dev) (i : Nat) (h0 : Canonical d) : Canonical (cutSave d i) := by
  unfold cutSave
  repeat' first
    | with_reducible assumption
    | with_reducible apply copyRegions_canonical
    | with_reducible apply cutPut_canonical
    | with_reducible apply iff_canonical
    | with_reducible apply saveSection_canonical
    | with_reducible apply foldl_canonical
    | with_reducible apply fold1_canonical
    | simp -implicitDefEqProofs only [Canonical.lit]
    | split
    | intro _
    | dsimp only

theorem scrambleRows_canonical (d : Dev) (n gen : Nat) (h0 : Canonical d) : Canonical (scrambleRows d n gen) := by
  unfold scrambleRows
  repeat' first
    | with_reducible assumption
    | with_reducible apply each_canonical
    | with_reducible apply rewriteRow_canonical
    | simp -implicitDefEqProofs only [Canonical.lit]
    | split
    | intro _
    | dsimp only

theorem scrambleTiles_canonical (d : Dev) (n : Nat) (h0 : Canonical d) : Canonical (scrambleTiles d n) := by
  unfold scrambleTiles
  repeat' first
    | with_reducible assumption
    | with_reducible apply setSt_canonical
    | with_reducible apply tick_canonical
    | simp -implicitDefEqProofs only [Canonical.lit]
    | split
    | intro _
    | dsimp only

theorem scrambleCluster_canonical (d : Dev) (n : Nat) (h0 : Canonical d) : Canonical (scrambleCluster d n) := by
  unfold scrambleCluster
  repeat' first
    | with_reducible assumption
    | with_reducible apply scrambleRows_canonical
    | with_reducible apply scrambleTiles_canonical
    | simp -implicitDefEqProofs only [Canonical.lit]
    | split
    | intro _
    | dsimp only

theorem scrambleFar_canonical (d : Dev) (n : Nat) (h0 : Canonical d) : Canonical (scrambleFar d n) := by
  unfold scrambleFar
  repeat' first
    | with_reducible assumption
    | with_reducible apply each_canonical
    | with_reducible apply farDrain_canonical
    | with_reducible apply setFar_canonical
    | with_reducible apply tick_canonical
    | simp -implicitDefEqProofs only [Canonical.lit]
    | split
    | intro _
    | dsimp only

theorem scrambleState_canonical (d : Dev) (i : Nat) (far : Bool) (h0 : Canonical d) : Canonical (scrambleState d i far) := by
  unfold scrambleState
  repeat' first
    | with_reducible assumption
    | with_reducible apply each_canonical
    | with_reducible apply modPtn_canonical
    | with_reducible apply p_canonical
    | with_reducible apply scrambleCluster_canonical
    | with_reducible apply scrambleFar_canonical
    | with_reducible apply snapPut_canonical
    | with_reducible apply tick_canonical
    | simp -implicitDefEqProofs only [Canonical.lit]
    | split
    | intro _
    | dsimp only

theorem unload_canonical (d : Dev) (i : Nat) (h0 : Canonical d) : Canonical (unload d i) := by
  unfold unload
  repeat' first
    | with_reducible assumption
    | with_reducible apply p_canonical
    | simp -implicitDefEqProofs only [Canonical.lit]
    | split
    | intro _
    | dsimp only

theorem doSnapAbort_canonical (d : Dev) (i : Nat) (h0 : Canonical d) : Canonical (doSnapAbort d i) := by
  unfold doSnapAbort
  repeat' first
    | with_reducible assumption
    | with_reducible apply cutSave_canonical
    | with_reducible apply scrambleState_canonical
    | with_reducible apply snapEnd_canonical
    | with_reducible apply snapGet_canonical
    | with_reducible apply unload_canonical
    | simp -implicitDefEqProofs only [Canonical.lit]
    | split
    | intro _
    | dsimp only

theorem doFreezeSettled_canonical (d : Dev) (i : Nat) (h0 : Canonical d) : Canonical (doFreezeSettled d i) := by
  unfold doFreezeSettled
  repeat' first
    | with_reducible assumption
    | with_reducible apply doSnapSave_canonical
    | with_reducible apply frozenIrq_canonical
    | with_reducible apply modPtn_canonical
    | with_reducible apply p_canonical
    | with_reducible apply setSt_canonical
    | with_reducible apply tick_canonical
    | with_reducible apply foldl_canonical
    | with_reducible apply fold1_canonical
    | simp -implicitDefEqProofs only [Canonical.lit]
    | split
    | intro _
    | dsimp only

theorem bar4Error_canonical (d : Dev) (fn : Fn) (off : Nat) (write : Bool) (h0 : Canonical d) : Canonical (bar4Error d fn off write) := by
  unfold bar4Error
  repeat' first
    | with_reducible assumption
    | with_reducible apply accessError_canonical
    | with_reducible apply emit_canonical
    | simp -implicitDefEqProofs only [Canonical.lit]
    | split
    | intro _
    | dsimp only

theorem atSlot_canonical (d : Dev) (fn : Fn) (slot off : Nat) (k : Dev → Nat → Dev) (h0 : Canonical d) (hk : ∀ e q, Canonical e → Canonical (k e q)) : Canonical (atSlot d fn slot off k) := by
  unfold atSlot
  repeat' first
    | with_reducible assumption
    | with_reducible apply hk
    | with_reducible apply viaNoc_canonical
    | with_reducible apply bar4Error_canonical
    | with_reducible apply id_canonical
    | simp -implicitDefEqProofs only [Canonical.lit]
    | split
    | intro _
    | dsimp only

theorem doDoorbell_canonical (d : Dev) (fn : Fn) (slot : Nat) (fin fence : Bool) (w : W64) (h0 : Canonical d) : Canonical (doDoorbell d fn slot fin fence w) := by
  unfold doDoorbell
  repeat' first
    | with_reducible assumption
    | with_reducible apply append_canonical
    | with_reducible apply atSlot_canonical
    | simp -implicitDefEqProofs only [Canonical.lit]
    | split
    | intro _
    | dsimp only

theorem doDoorbellMulti_canonical (d : Dev) (fn : Fn) (slot : Nat) (ws : List W64) (h0 : Canonical d) : Canonical (doDoorbellMulti d fn slot ws) := by
  unfold doDoorbellMulti
  repeat' first
    | with_reducible assumption
    | with_reducible apply appendAll_canonical
    | with_reducible apply atSlot_canonical
    | with_reducible apply bar4Error_canonical
    | with_reducible apply dropWrite_canonical
    | with_reducible apply notifyKinds_canonical
    | simp -implicitDefEqProofs only [Canonical.lit]
    | split
    | intro _
    | dsimp only

theorem doPop_canonical (d : Dev) (fn : Fn) (slot : Nat) (h0 : Canonical d) : Canonical (doPop d fn slot) := by
  unfold doPop
  repeat' first
    | with_reducible assumption
    | with_reducible apply bar4Error_canonical
    | with_reducible apply completePop_canonical
    | with_reducible apply emit_canonical
    | with_reducible apply emptyPop_canonical
    | with_reducible apply markBound_canonical
    | with_reducible apply modQueue_canonical
    | with_reducible apply viaNoc_canonical
    | simp -implicitDefEqProofs only [Canonical.lit]
    | split
    | intro _
    | dsimp only

theorem doPopWaitExpire_canonical (d : Dev) (fn : Fn) (slot : Nat) (h0 : Canonical d) : Canonical (doPopWaitExpire d fn slot) := by
  unfold doPopWaitExpire
  repeat' first
    | with_reducible assumption
    | with_reducible apply emptyPop_canonical
    | with_reducible apply setQueue_canonical
    | simp -implicitDefEqProofs only [Canonical.lit]
    | split
    | intro _
    | dsimp only

theorem doBar4Error_canonical (d : Dev) (fn : Fn) (off : Nat) (write : Bool) (h0 : Canonical d) : Canonical (doBar4Error d fn off write) := by
  unfold doBar4Error
  repeat' first
    | with_reducible assumption
    | with_reducible apply bar4Error_canonical
    | simp -implicitDefEqProofs only [Canonical.lit]
    | split
    | intro _
    | dsimp only

theorem doQwrExpire_canonical (d : Dev) (q : Nat) (h0 : Canonical d) : Canonical (doQwrExpire d q) := by
  unfold doQwrExpire
  repeat' first
    | with_reducible assumption
    | with_reducible apply respond_canonical
    | with_reducible apply setQueue_canonical
    | simp -implicitDefEqProofs only [Canonical.lit]
    | split
    | intro _
    | dsimp only

theorem doQrdExpire_canonical (d : Dev) (q : Nat) (h0 : Canonical d) : Canonical (doQrdExpire d q) := by
  unfold doQrdExpire
  repeat' first
    | with_reducible assumption
    | with_reducible apply respond_canonical
    | with_reducible apply setQueue_canonical
    | simp -implicitDefEqProofs only [Canonical.lit]
    | split
    | intro _
    | dsimp only

theorem queueCmd_canonical (d : Dev) (q cmd : Nat) (h0 : Canonical d) : Canonical (queueCmd d q cmd) := by
  unfold queueCmd
  repeat' first
    | with_reducible assumption
    | with_reducible apply dropHeadOf_canonical
    | with_reducible apply flushQueue_canonical
    | with_reducible apply modQueue_canonical
    | simp -implicitDefEqProofs only [Canonical.lit]
    | split
    | intro _
    | dsimp only

theorem writeQcfg_canonical (d : Dev) (q v : Nat) (h0 : Canonical d) : Canonical (writeQcfg d q v) := by
  unfold writeQcfg
  repeat' first
    | with_reducible assumption
    | with_reducible apply disableQueue_canonical
    | with_reducible apply enableQueue_canonical
    | with_reducible apply modQueue_canonical
    | simp -implicitDefEqProofs only [Canonical.lit]
    | split
    | intro _
    | dsimp only

theorem setQueueEn_canonical (d : Dev) (q : Nat) (en : Bool) (h0 : Canonical d) : Canonical (setQueueEn d q en) := by
  unfold setQueueEn
  repeat' first
    | with_reducible assumption
    | with_reducible apply disableQueue_canonical
    | with_reducible apply enableQueue_canonical
    | simp -implicitDefEqProofs only [Canonical.lit]
    | split
    | intro _
    | dsimp only

theorem clearQflags_canonical (d : Dev) (q v : Nat) (h0 : Canonical d) : Canonical (clearQflags d q v) := by
  unfold clearQflags
  repeat' first
    | with_reducible assumption
    | with_reducible apply modQueue_canonical
    | simp -implicitDefEqProofs only [Canonical.lit]
    | split
    | intro _
    | dsimp only

theorem atQueue_canonical (d : Dev) (fn : Fn) (q : Nat) (k : Dev → Nat → Dev) (h0 : Canonical d) (hk : ∀ e q, Canonical e → Canonical (k e q)) : Canonical (atQueue d fn q k) := by
  unfold atQueue
  repeat' first
    | with_reducible assumption
    | with_reducible apply hk
    | simp -implicitDefEqProofs only [Canonical.lit]
    | split
    | intro _
    | dsimp only

theorem putList_canonical (d : Dev) (l : Nat) (ws : List Work) (h0 : Canonical d) : Canonical (putList d l ws) := by
  unfold putList
  repeat' first
    | with_reducible assumption
    | with_reducible apply p_canonical
    | with_reducible apply setList_canonical
    | simp -implicitDefEqProofs only [Canonical.lit]
    | split
    | intro _
    | dsimp only

theorem refuseItem_canonical (d : Dev) (l : Nat) (h0 : Canonical d) : Canonical (refuseItem d l) := by
  unfold refuseItem
  repeat' first
    | with_reducible assumption
    | with_reducible apply add_canonical
    | with_reducible apply irq_canonical
    | with_reducible apply raise_canonical
    | simp -implicitDefEqProofs only [Canonical.lit]
    | split
    | intro _
    | dsimp only

theorem judgeItem_canonical (d : Dev) (w : Work) (h0 : Canonical d) : Canonical (judgeItem d w).1 := by
  unfold judgeItem
  repeat' first
    | with_reducible assumption
    | with_reducible apply putList_canonical
    | with_reducible apply refuseItem_canonical
    | simp -implicitDefEqProofs only [Canonical.lit]
    | split
    | intro _
    | dsimp only

theorem placeItem_canonical (d : Dev) (fn : Fn) (w : Work) (h0 : Canonical d) : Canonical (placeItem d fn w) := by
  unfold placeItem
  repeat' first
    | with_reducible assumption
    | with_reducible apply judgeItem_canonical
    | with_reducible apply reply_canonical
    | simp -implicitDefEqProofs only [Canonical.lit]
    | split
    | intro _
    | dsimp only

theorem placeHeld_canonical (d : Dev) (h : Work × Fn) (h0 : Canonical d) : Canonical (placeHeld d h) := by
  unfold placeHeld
  repeat' first
    | with_reducible assumption
    | with_reducible apply answerAt_canonical
    | with_reducible apply completeHeld_canonical
    | with_reducible apply judgeItem_canonical
    | simp -implicitDefEqProofs only [Canonical.lit]
    | split
    | intro _
    | dsimp only

theorem placeAllHeld_canonical (d : Dev) (l : Nat) (h0 : Canonical d) : Canonical (placeAllHeld d l) := by
  unfold placeAllHeld
  repeat' first
    | with_reducible assumption
    | with_reducible apply each_canonical
    | with_reducible apply placeHeld_canonical
    | simp -implicitDefEqProofs only [Canonical.lit]
    | split
    | intro _
    | dsimp only

theorem submitList_canonical (d : Dev) (fn : Fn) (l : Nat) (h0 : Canonical d) : Canonical (submitList d fn l) := by
  unfold submitList
  repeat' first
    | with_reducible assumption
    | with_reducible apply placeItem_canonical
    | simp -implicitDefEqProofs only [Canonical.lit]
    | split
    | intro _
    | dsimp only

theorem doSubmit_canonical (d : Dev) (fn : Fn) (h0 : Canonical d) : Canonical (doSubmit d fn) := by
  unfold doSubmit
  repeat' first
    | with_reducible assumption
    | with_reducible apply complete_canonical
    | with_reducible apply submitList_canonical
    | with_reducible apply viaNoc_canonical
    | simp -implicitDefEqProofs only [Canonical.lit]
    | split
    | intro _
    | dsimp only

theorem serveSubmits_canonical (m : Nat) (d : Dev) (l : Nat) (h0 : Canonical d) : Canonical (serveSubmits m d l) := by
  induction m generalizing d with
  | zero => exact h0
  | succ m ih =>
    unfold serveSubmits
    repeat' first
      | with_reducible assumption
      | with_reducible apply ih
      | with_reducible apply placeHeld_canonical
      | simp -implicitDefEqProofs only [Canonical.lit]
      | split
      | intro _
      | dsimp only

theorem wakeSubmits_canonical (d : Dev) (l : Nat) (h0 : Canonical d) : Canonical (wakeSubmits d l) := by
  unfold wakeSubmits
  repeat' first
    | with_reducible assumption
    | with_reducible apply serveSubmits_canonical
    | simp -implicitDefEqProofs only [Canonical.lit]
    | split
    | intro _
    | dsimp only

theorem doSubmitExpire_canonical (d : Dev) (l : Nat) (h0 : Canonical d) : Canonical (doSubmitExpire d l) := by
  unfold doSubmitExpire
  repeat' first
    | with_reducible assumption
    | with_reducible apply placeHeld_canonical
    | with_reducible apply wakeSubmits_canonical
    | simp -implicitDefEqProofs only [Canonical.lit]
    | split
    | intro _
    | dsimp only

theorem takeItem_canonical {d : Dev} {w : Work} {e : Dev} (h : d.takeItem = some (w, e)) (h0 : Canonical d) : Canonical e := by
  unfold takeItem at h; dsimp only at h; split at h
  · cases h
  · split at h
    · cases h
    · simp only [Option.some.injEq, Prod.mk.injEq] at h; rw [← h.2]; refine wakeSubmits_canonical _ _ ?_; simp -implicitDefEqProofs only [Canonical.lit]; exact putList_canonical _ _ _ h0

theorem takePacket_canonical {d : Dev} {q : Nat} {w : List QWord} {e : Dev} (h : d.takePacket q = some (w, e)) (h0 : Canonical d) : Canonical e := by
  unfold takePacket at h; dsimp only at h; split at h
  · cases h
  · simp only [Option.some.injEq, Prod.mk.injEq] at h; rw [← h.2]; exact each_canonical _ _ _ (setQueue_canonical _ _ _ h0) fun e a he => offerQueue_canonical e _ _ _ he

theorem putPacket_canonical (d : Dev) (c q : Nat) (ws : List QWord) (h0 : Canonical d) : Canonical (putPacket d c q ws) := by
  unfold putPacket
  repeat' first
    | with_reducible assumption
    | with_reducible apply append_canonical
    | with_reducible apply each_canonical
    | simp -implicitDefEqProofs only [Canonical.lit]
    | split
    | intro _
    | dsimp only

theorem runQ2H_canonical (m : Nat) (d : Dev) (w : Work) (q used : Nat) (x : Courier) (h0 : Canonical d) : Canonical (runQ2H m d w q used x).1 := by
  induction m generalizing d used x with
  | zero => exact h0
  | succ m ih =>
    unfold runQ2H
    repeat' first
      | with_reducible assumption
      | with_reducible apply ih
      | with_reducible refine takePacket_canonical (by assumption) ?_
      | with_reducible apply emit_canonical
      | simp -implicitDefEqProofs only [Canonical.lit]
      | split
      | intro _
      | dsimp only

theorem runH2Q_canonical (m : Nat) (d : Dev) (c : Nat) (w : Work) (q : Nat) (x : Courier) (h0 : Canonical d) : Canonical (runH2Q m d c w q x).1 := by
  induction m generalizing d x with
  | zero => exact h0
  | succ m ih =>
    unfold runH2Q
    repeat' first
      | with_reducible assumption
      | with_reducible apply ih
      | with_reducible apply putPacket_canonical
      | simp -implicitDefEqProofs only [Canonical.lit]
      | split
      | intro _
      | dsimp only

theorem runQ2Q_canonical (m : Nat) (d : Dev) (c : Nat) (w : Work) (q q2 : Nat) (x : Courier) (h0 : Canonical d) : Canonical (runQ2Q m d c w q q2 x).1 := by
  induction m generalizing d x with
  | zero => exact h0
  | succ m ih =>
    unfold runQ2Q
    repeat' first
      | with_reducible assumption
      | with_reducible apply ih
      | with_reducible refine takePacket_canonical (by assumption) ?_
      | with_reducible apply putPacket_canonical
      | simp -implicitDefEqProofs only [Canonical.lit]
      | split
      | intro _
      | dsimp only

theorem runCopy_canonical (m : Nat) (d : Dev) (c : Nat) (w : Work) (k : Nat) (x : Courier) (h0 : Canonical d) : Canonical (runCopy m d c w k x).1 := by
  induction m generalizing d k x with
  | zero => exact h0
  | succ m ih =>
    unfold runCopy
    repeat' first
      | with_reducible assumption
      | with_reducible apply ih
      | with_reducible apply emit_canonical
      | with_reducible apply hbmFetch_canonical
      | with_reducible apply hbmSend_canonical
      | simp -implicitDefEqProofs only [Canonical.lit]
      | split
      | intro _
      | dsimp only

theorem runItem_canonical (d : Dev) (c : Nat) (w : Work) (x : Courier) (h0 : Canonical d) : Canonical (runItem d c w x).1 := by
  unfold runItem
  repeat' first
    | with_reducible assumption
    | with_reducible apply markBound_canonical
    | with_reducible apply runCopy_canonical
    | with_reducible apply runH2Q_canonical
    | with_reducible apply runQ2H_canonical
    | with_reducible apply runQ2Q_canonical
    | simp -implicitDefEqProofs only [Canonical.lit]
    | split
    | intro _
    | dsimp only

theorem keepItem_canonical (d : Dev) (c : Nat) (r : Courier × Bool) (was : Nat) (h0 : Canonical d) : Canonical (keepItem d c r was) := by
  unfold keepItem
  repeat' first
    | with_reducible assumption
    | with_reducible apply add_canonical
    | with_reducible apply p_canonical
    | with_reducible apply setCourier_canonical
    | simp -implicitDefEqProofs only [Canonical.lit]
    | split
    | intro _
    | dsimp only

theorem startItem_canonical (d : Dev) (c : Nat) (w : Work) (data : List Byte) (h0 : Canonical d) : Canonical (startItem d c w data) := by
  unfold startItem
  repeat' first
    | with_reducible assumption
    | with_reducible apply add_canonical
    | with_reducible apply keepItem_canonical
    | with_reducible apply p_canonical
    | with_reducible apply runItem_canonical
    | simp -implicitDefEqProofs only [Canonical.lit]
    | split
    | intro _
    | dsimp only

theorem doDispatch_canonical (d : Dev) (c : Nat) (data : List Byte) (h0 : Canonical d) : Canonical (doDispatch d c data) := by
  unfold doDispatch
  repeat' first
    | with_reducible assumption
    | with_reducible apply on_canonical
    | with_reducible apply setCourier_canonical
    | with_reducible apply startItem_canonical
    | simp -implicitDefEqProofs only [Canonical.lit]
    | split
    | intro _
    | dsimp only
    | with_reducible refine takeItem_canonical (by assumption) ?_

theorem writeCompletion_canonical (d : Dev) (w : Work) (v : Nat) (h0 : Canonical d) : Canonical (writeCompletion d w v) := by
  unfold writeCompletion
  repeat' first
    | with_reducible assumption
    | with_reducible apply add_canonical
    | with_reducible apply append_canonical
    | with_reducible apply irq_canonical
    | with_reducible apply raise_canonical
    | simp -implicitDefEqProofs only [Canonical.lit]
    | split
    | intro _
    | dsimp only

theorem countBusy_canonical (d : Dev) (c : Nat) (x : Courier) (h0 : Canonical d) : Canonical (countBusy d c x) := by
  unfold countBusy
  repeat' first
    | with_reducible assumption
    | with_reducible apply add_canonical
    | simp -implicitDefEqProofs only [Canonical.lit]
    | split
    | intro _
    | dsimp only

theorem endItem_canonical (d : Dev) (c : Nat) (w : Work) (x : Courier) (h0 : Canonical d) : Canonical (endItem d c w x) := by
  unfold endItem
  repeat' first
    | with_reducible assumption
    | with_reducible apply add_canonical
    | with_reducible apply countBusy_canonical
    | with_reducible apply p_canonical
    | with_reducible apply raise_canonical
    | with_reducible apply reset_canonical
    | with_reducible apply setCourier_canonical
    | with_reducible apply writeCompletion_canonical
    | simp -implicitDefEqProofs only [Canonical.lit]
    | split
    | intro _
    | dsimp only

theorem doItemComplete_canonical (d : Dev) (c : Nat) (h0 : Canonical d) : Canonical (doItemComplete d c) := by
  unfold doItemComplete
  repeat' first
    | with_reducible assumption
    | with_reducible apply endItem_canonical
    | with_reducible apply keepItem_canonical
    | with_reducible apply runItem_canonical
    | simp -implicitDefEqProofs only [Canonical.lit]
    | split
    | intro _
    | dsimp only

theorem doWaitLimit_canonical (d : Dev) (c : Nat) (h0 : Canonical d) : Canonical (doWaitLimit d c) := by
  unfold doWaitLimit
  repeat' first
    | with_reducible assumption
    | with_reducible apply endItem_canonical
    | simp -implicitDefEqProofs only [Canonical.lit]
    | split
    | intro _
    | dsimp only

theorem doDspClr_canonical (d : Dev) (h0 : Canonical d) : Canonical (doDspClr d) := by
  unfold doDspClr
  repeat' first
    | with_reducible assumption
    | with_reducible apply clr_canonical
    | with_reducible apply each_canonical
    | with_reducible apply p_canonical
    | simp -implicitDefEqProofs only [Canonical.lit]
    | split
    | intro _
    | dsimp only

theorem abandon_canonical (d : Dev) (src : Nat) (h0 : Canonical d) : Canonical (abandon d src) := by
  unfold abandon
  repeat' first
    | with_reducible assumption
    | simp -implicitDefEqProofs only [Canonical.lit]
    | split
    | intro _
    | dsimp only

theorem resetItems_canonical (d : Dev) (i : Nat) (h0 : Canonical d) : Canonical (resetItems d i) := by
  unfold resetItems
  repeat' first
    | with_reducible assumption
    | with_reducible apply abandon_canonical
    | with_reducible apply add_canonical
    | with_reducible apply countBusy_canonical
    | with_reducible apply each_canonical
    | with_reducible apply modQueue_canonical
    | with_reducible apply p_canonical
    | with_reducible apply putList_canonical
    | with_reducible apply reset_canonical
    | with_reducible apply setCourier_canonical
    | simp -implicitDefEqProofs only [Canonical.lit]
    | split
    | intro _
    | dsimp only
end Sys2Proof.Machine.Dev
end

