-- ==== Sys2Proof/Laws/KeepCanonical4.lean ====
section
/-! SUPPORT. The register fields and HBM stay in their canonical form under resets, engines, partitions and time: one lemma for each function. -/

set_option linter.all false

namespace Sys2Proof.Machine.Dev

set_option Elab.async false


theorem resetCommon_canonical (d : Dev) (base : Nat) (h0 : Canonical d) : Canonical (resetCommon d base) := by
  unfold resetCommon
  repeat' first
    | with_reducible assumption
    | with_reducible apply resetRange_canonical
    | simp -implicitDefEqProofs only [Canonical.lit]
    | split
    | intro _
    | dsimp only

theorem resetWindows_canonical (d : Dev) (n : Nat) (h0 : Canonical d) : Canonical (resetWindows d n) := by
  unfold resetWindows
  repeat' first
    | with_reducible assumption
    | with_reducible apply each_canonical
    | with_reducible apply resetCommon_canonical
    | with_reducible apply resetRange_canonical
    | simp -implicitDefEqProofs only [Canonical.lit]
    | split
    | intro _
    | dsimp only

theorem resetCluCfg_canonical (d : Dev) (n : Nat) (h0 : Canonical d) : Canonical (resetCluCfg d n) := by
  unfold resetCluCfg
  repeat' first
    | with_reducible assumption
    | with_reducible apply resetRange_canonical
    | simp -implicitDefEqProofs only [Canonical.lit]
    | split
    | intro _
    | dsimp only

theorem clearCluster_canonical (d : Dev) (n : Nat) (h0 : Canonical d) : Canonical (clearCluster d n) := by
  unfold clearCluster
  repeat' first
    | with_reducible assumption
    | with_reducible apply clearMemories_canonical
    | with_reducible apply each_canonical
    | with_reducible apply p_canonical
    | with_reducible apply releasePorts_canonical
    | with_reducible apply reset_canonical
    | simp -implicitDefEqProofs only [Canonical.lit]
    | split
    | intro _
    | dsimp only

theorem resetCluster_canonical (d : Dev) (n : Nat) (h0 : Canonical d) : Canonical (resetCluster d n) := by
  unfold resetCluster
  repeat' first
    | with_reducible assumption
    | with_reducible apply clearCluster_canonical
    | with_reducible apply resetCluCfg_canonical
    | with_reducible apply resetCommon_canonical
    | with_reducible apply resetWindows_canonical
    | simp -implicitDefEqProofs only [Canonical.lit]
    | split
    | intro _
    | dsimp only

theorem releaseCluster_canonical (d : Dev) (n : Nat) (h0 : Canonical d) : Canonical (releaseCluster d n) := by
  unfold releaseCluster
  repeat' first
    | with_reducible assumption
    | with_reducible apply clearCluster_canonical
    | with_reducible apply resetCommon_canonical
    | with_reducible apply resetWindows_canonical
    | simp -implicitDefEqProofs only [Canonical.lit]
    | split
    | intro _
    | dsimp only

theorem freshShadow_canonical (d : Dev) (base : Nat) (h0 : Canonical d) : Canonical (freshShadow d base) := by
  unfold freshShadow
  repeat' first
    | with_reducible assumption
    | with_reducible apply resetRange_canonical
    | simp -implicitDefEqProofs only [Canonical.lit]
    | split
    | intro _
    | dsimp only

theorem freshCluster_canonical (d : Dev) (n : Nat) (h0 : Canonical d) : Canonical (freshCluster d n) := by
  unfold freshCluster
  repeat' first
    | with_reducible assumption
    | with_reducible apply each_canonical
    | with_reducible apply freshShadow_canonical
    | with_reducible apply resetCluster_canonical
    | simp -implicitDefEqProofs only [Canonical.lit]
    | split
    | intro _
    | dsimp only

theorem resetStream_canonical (d : Dev) (s : Nat) (h0 : Canonical d) : Canonical (resetStream d s) := by
  unfold resetStream
  repeat' first
    | with_reducible assumption
    | with_reducible apply reset_canonical
    | with_reducible apply resetRange_canonical
    | with_reducible apply setStrm_canonical
    | simp -implicitDefEqProofs only [Canonical.lit]
    | split
    | intro _
    | dsimp only

theorem disarmOwner_canonical (d : Dev) (i : Nat) (h0 : Canonical d) : Canonical (disarmOwner d i) := by
  unfold disarmOwner
  repeat' first
    | with_reducible assumption
    | with_reducible apply each_canonical
    | with_reducible apply p_canonical
    | simp -implicitDefEqProofs only [Canonical.lit]
    | split
    | intro _
    | dsimp only

theorem dropSlots_canonical (d : Dev) (i : Nat) (h0 : Canonical d) : Canonical (dropSlots d i) := by
  unfold dropSlots
  repeat' first
    | with_reducible assumption
    | with_reducible apply each_canonical
    | with_reducible apply modLink_canonical
    | with_reducible apply p_canonical
    | simp -implicitDefEqProofs only [Canonical.lit]
    | split
    | intro _
    | dsimp only

theorem resetBudgets_canonical (d : Dev) (i : Nat) (h0 : Canonical d) : Canonical (resetBudgets d i) := by
  unfold resetBudgets
  repeat' first
    | with_reducible assumption
    | with_reducible apply dropSlots_canonical
    | with_reducible apply each_canonical
    | with_reducible apply resetRange_canonical
    | simp -implicitDefEqProofs only [Canonical.lit]
    | split
    | intro _
    | dsimp only

theorem dropActivities_canonical (d : Dev) (i : Nat) (h0 : Canonical d) : Canonical (dropActivities d i) := by
  unfold dropActivities
  repeat' first
    | with_reducible assumption
    | with_reducible apply cutSave_canonical
    | with_reducible apply mntFree_canonical
    | with_reducible apply p_canonical
    | simp -implicitDefEqProofs only [Canonical.lit]
    | split
    | intro _
    | dsimp only

theorem capDrop_canonical (d : Dev) (c : Nat) (h0 : Canonical d) : Canonical (capDrop d c) := by
  unfold capDrop
  repeat' first
    | with_reducible assumption
    | with_reducible apply capIdle_canonical
    | with_reducible apply each_canonical
    | with_reducible apply modChan_canonical
    | simp -implicitDefEqProofs only [Canonical.lit]
    | split
    | intro _
    | dsimp only

theorem ptnResetNow_canonical (d : Dev) (i : Nat) (h0 : Canonical d) : Canonical (ptnResetNow d i) := by
  unfold ptnResetNow
  repeat' first
    | with_reducible assumption
    | with_reducible apply abandon_canonical
    | with_reducible apply capDrop_canonical
    | with_reducible apply disarmOwner_canonical
    | with_reducible apply dropActivities_canonical
    | with_reducible apply each_canonical
    | with_reducible apply forgetSigs_canonical
    | with_reducible apply forgetSteps_canonical
    | with_reducible apply landFar_canonical
    | with_reducible apply modPtn_canonical
    | with_reducible apply p_canonical
    | with_reducible apply placeAllHeld_canonical
    | with_reducible apply reset_canonical
    | with_reducible apply resetBudgets_canonical
    | with_reducible apply resetCluster_canonical
    | with_reducible apply resetItems_canonical
    | with_reducible apply resetRange_canonical
    | with_reducible apply resetStream_canonical
    | simp -implicitDefEqProofs only [Canonical.lit]
    | split
    | intro _
    | dsimp only

theorem ptnResetReq_canonical (d : Dev) (i : Nat) (h0 : Canonical d) : Canonical (ptnResetReq d i) := by
  unfold ptnResetReq
  repeat' first
    | with_reducible assumption
    | with_reducible apply modPtn_canonical
    | with_reducible apply ptnResetNow_canonical
    | simp -implicitDefEqProofs only [Canonical.lit]
    | split
    | intro _
    | dsimp only

theorem ptnResetDone_canonical (d : Dev) (i : Nat) (h0 : Canonical d) : Canonical (ptnResetDone d i) := by
  unfold ptnResetDone
  repeat' first
    | with_reducible assumption
    | with_reducible apply p_canonical
    | simp -implicitDefEqProofs only [Canonical.lit]
    | split
    | intro _
    | dsimp only

theorem releaseTrigger_canonical (d : Dev) (i : Nat) (h0 : Canonical d) : Canonical (releaseTrigger d i) := by
  unfold releaseTrigger
  repeat' first
    | with_reducible assumption
    | with_reducible apply each_canonical
    | with_reducible apply p_canonical
    | with_reducible apply stopPulse_canonical
    | simp -implicitDefEqProofs only [Canonical.lit]
    | split
    | intro _
    | dsimp only

theorem releaseCapture_canonical (d : Dev) (i : Nat) (h0 : Canonical d) : Canonical (releaseCapture d i) := by
  unfold releaseCapture
  repeat' first
    | with_reducible assumption
    | with_reducible apply capDrop_canonical
    | with_reducible apply each_canonical
    | with_reducible apply p_canonical
    | with_reducible apply setChanOwner_canonical
    | simp -implicitDefEqProofs only [Canonical.lit]
    | split
    | intro _
    | dsimp only

theorem releaseBridges_canonical (d : Dev) (i : Nat) (h0 : Canonical d) : Canonical (releaseBridges d i) := by
  unfold releaseBridges
  repeat' first
    | with_reducible assumption
    | with_reducible apply each_canonical
    | with_reducible apply p_canonical
    | simp -implicitDefEqProofs only [Canonical.lit]
    | split
    | intro _
    | dsimp only

theorem releaseDebug_canonical (d : Dev) (i : Nat) (h0 : Canonical d) : Canonical (releaseDebug d i) := by
  unfold releaseDebug
  repeat' first
    | with_reducible assumption
    | with_reducible apply releaseBridges_canonical
    | with_reducible apply releaseCapture_canonical
    | with_reducible apply releaseTrigger_canonical
    | with_reducible apply resetStream_canonical
    | simp -implicitDefEqProofs only [Canonical.lit]
    | split
    | intro _
    | dsimp only

theorem zeroEntries_canonical (d : Dev) (is : List Nat) (h0 : Canonical d) : Canonical (zeroEntries d is).1 := by
  induction is generalizing d with
  | nil => exact h0
  | cons i is ih =>
    unfold zeroEntries
    repeat' first
      | with_reducible assumption
      | with_reducible apply ih
      | with_reducible apply logFail_canonical
      | with_reducible apply logCheck_canonical
      | with_reducible apply logPut_canonical
      | simp -implicitDefEqProofs only [Canonical.lit]
      | split
      | intro _
      | dsimp only

theorem doLogClear_canonical (d : Dev) (h0 : Canonical d) : Canonical (doLogClear d) := by
  unfold doLogClear
  repeat' first
    | with_reducible assumption
    | with_reducible apply p_canonical
    | with_reducible apply zeroEntries_canonical
    | simp -implicitDefEqProofs only [Canonical.lit]
    | split
    | intro _
    | dsimp only

theorem doLastGaspClear_canonical (d : Dev) (h0 : Canonical d) : Canonical (doLastGaspClear d) := by
  unfold doLastGaspClear
  repeat' first
    | with_reducible assumption
    | with_reducible apply p_canonical
    | simp -implicitDefEqProofs only [Canonical.lit]
    | split
    | intro _
    | dsimp only

theorem doClearAll_canonical (d : Dev) (h0 : Canonical d) : Canonical (doClearAll d) := by
  unfold doClearAll
  repeat' first
    | with_reducible assumption
    | with_reducible apply each_canonical
    | with_reducible apply p_canonical
    | simp -implicitDefEqProofs only [Canonical.lit]
    | split
    | intro _
    | dsimp only

theorem doCounterSaturate_canonical (d : Dev) (base : Nat) (i : Nat) (h0 : Canonical d) : Canonical (doCounterSaturate d base i) := by
  unfold doCounterSaturate
  repeat' first
    | with_reducible assumption
    | with_reducible apply on_canonical
    | with_reducible apply p_canonical
    | simp -implicitDefEqProofs only [Canonical.lit]
    | split
    | intro _
    | dsimp only

theorem doRoll_canonical (d : Dev) (h0 : Canonical d) : Canonical (doRoll d) := by
  unfold doRoll
  repeat' first
    | with_reducible assumption
    | with_reducible apply requestRoll_canonical
    | simp -implicitDefEqProofs only [Canonical.lit]
    | split
    | intro _
    | dsimp only

theorem doKeyRollStart_canonical (d : Dev) (h0 : Canonical d) : Canonical (doKeyRollStart d) := by
  unfold doKeyRollStart
  repeat' first
    | with_reducible assumption
    | with_reducible apply tryRoll_canonical
    | simp -implicitDefEqProofs only [Canonical.lit]
    | split
    | intro _
    | dsimp only

theorem doKeyRollSector_canonical (d : Dev) (h0 : Canonical d) : Canonical (doKeyRollSector d) := by
  unfold doKeyRollSector
  repeat' first
    | with_reducible assumption
    | with_reducible apply convertSector_canonical
    | with_reducible apply endRoll_canonical
    | with_reducible apply p_canonical
    | with_reducible apply pauseRoll_canonical
    | simp -implicitDefEqProofs only [Canonical.lit]
    | split
    | intro _
    | dsimp only

theorem doImeClrCounts_canonical (d : Dev) (h0 : Canonical d) : Canonical (doImeClrCounts d) := by
  unfold doImeClrCounts
  repeat' first
    | with_reducible assumption
    | with_reducible apply each_canonical
    | with_reducible apply p_canonical
    | simp -implicitDefEqProofs only [Canonical.lit]
    | split
    | intro _
    | dsimp only

theorem doSysFreeze_canonical (d : Dev) (h0 : Canonical d) : Canonical (doSysFreeze d) := by
  unfold doSysFreeze
  repeat' first
    | with_reducible assumption
    | with_reducible apply raiseSysFreeze_canonical
    | simp -implicitDefEqProofs only [Canonical.lit]
    | split
    | intro _
    | dsimp only

theorem doStrobe_canonical (d : Dev) (h0 : Canonical d) : Canonical (doStrobe d) := by
  unfold doStrobe
  repeat' first
    | with_reducible assumption
    | with_reducible apply strobeReq_canonical
    | simp -implicitDefEqProofs only [Canonical.lit]
    | split
    | intro _
    | dsimp only

theorem doCaptureArm_canonical (d : Dev) (c : Nat) (h0 : Canonical d) : Canonical (doCaptureArm d c) := by
  unfold doCaptureArm
  repeat' first
    | with_reducible assumption
    | with_reducible apply beginCapture_canonical
    | with_reducible apply each_canonical
    | with_reducible apply modChan_canonical
    | with_reducible apply p_canonical
    | simp -implicitDefEqProofs only [Canonical.lit]
    | split
    | intro _
    | dsimp only

theorem doCaptureDisarm_canonical (d : Dev) (c : Nat) (h0 : Canonical d) : Canonical (doCaptureDisarm d c) := by
  unfold doCaptureDisarm
  repeat' first
    | with_reducible assumption
    | with_reducible apply capIdle_canonical
    | with_reducible apply cutBlock_canonical
    | with_reducible apply each_canonical
    | with_reducible apply writeEntry_canonical
    | simp -implicitDefEqProofs only [Canonical.lit]
    | split
    | intro _
    | dsimp only

theorem doCaptureBlockWrite_canonical (d : Dev) (ch addr : Nat) (h0 : Canonical d) : Canonical (doCaptureBlockWrite d ch addr) := by
  unfold doCaptureBlockWrite
  repeat' first
    | with_reducible assumption
    | with_reducible apply chanComplete_canonical
    | with_reducible apply setChan_canonical
    | simp -implicitDefEqProofs only [Canonical.lit]
    | split
    | intro _
    | dsimp only

theorem doPostLimitExpire_canonical (d : Dev) (ch : Nat) (h0 : Canonical d) : Canonical (doPostLimitExpire d ch) := by
  unfold doPostLimitExpire
  repeat' first
    | with_reducible assumption
    | with_reducible apply chanComplete_canonical
    | simp -implicitDefEqProofs only [Canonical.lit]
    | split
    | intro _
    | dsimp only

theorem doRearmExpire_canonical (d : Dev) (c : Nat) (h0 : Canonical d) : Canonical (doRearmExpire d c) := by
  unfold doRearmExpire
  repeat' first
    | with_reducible assumption
    | with_reducible apply beginCapture_canonical
    | simp -implicitDefEqProofs only [Canonical.lit]
    | split
    | intro _
    | dsimp only

theorem doChannelOwnerWrite_canonical (d : Dev) (ch : Nat) (owner : Nat) (h0 : Canonical d) : Canonical (doChannelOwnerWrite d ch owner) := by
  unfold doChannelOwnerWrite
  repeat' first
    | with_reducible assumption
    | with_reducible apply setChanOwner_canonical
    | simp -implicitDefEqProofs only [Canonical.lit]
    | split
    | intro _
    | dsimp only

theorem doZeroingComplete_canonical (d : Dev) (ch : Nat) (h0 : Canonical d) : Canonical (doZeroingComplete d ch) := by
  unfold doZeroingComplete
  repeat' first
    | with_reducible assumption
    | with_reducible apply modChan_canonical
    | with_reducible apply zeroRange_canonical
    | simp -implicitDefEqProofs only [Canonical.lit]
    | split
    | intro _
    | dsimp only

theorem doPinwheelConfigWrite_canonical (d : Dev) (size : Bool) (v : W64) (h0 : Canonical d) : Canonical (doPinwheelConfigWrite d size v) := by
  unfold doPinwheelConfigWrite
  repeat' first
    | with_reducible assumption
    | with_reducible apply on_canonical
    | with_reducible apply p_canonical
    | simp -implicitDefEqProofs only [Canonical.lit]
    | split
    | intro _
    | dsimp only

theorem setDir_canonical (d : Dev) (i st mask qbase qcount : Nat) (h0 : Canonical d) : Canonical (setDir d i st mask qbase qcount) := by
  unfold setDir
  repeat' first
    | with_reducible assumption
    | with_reducible apply p_canonical
    | simp -implicitDefEqProofs only [Canonical.lit]
    | split
    | intro _
    | dsimp only

theorem clearQueues_canonical (d : Dev) (lo n : Nat) (h0 : Canonical d) : Canonical (clearQueues d lo n) := by
  unfold clearQueues
  repeat' first
    | with_reducible assumption
    | with_reducible apply disableQueue_canonical
    | with_reducible apply each_canonical
    | simp -implicitDefEqProofs only [Canonical.lit]
    | split
    | intro _
    | dsimp only

theorem clearAdded_canonical (d : Dev) (lo n lo' n' : Nat) (h0 : Canonical d) : Canonical (clearAdded d lo n lo' n') := by
  unfold clearAdded
  repeat' first
    | with_reducible assumption
    | with_reducible apply disableQueue_canonical
    | with_reducible apply each_canonical
    | simp -implicitDefEqProofs only [Canonical.lit]
    | split
    | intro _
    | dsimp only

theorem answerPtn_canonical (d : Dev) (i op tag status : Nat) (ws : List W64) (h0 : Canonical d) : Canonical (answerPtn d i op tag status ws) := by
  unfold answerPtn
  repeat' first
    | with_reducible assumption
    | with_reducible apply answer_canonical
    | simp -implicitDefEqProofs only [Canonical.lit]
    | split
    | intro _
    | dsimp only

theorem releaseAnswers_canonical (d : Dev) (i : Nat) (h0 : Canonical d) : Canonical (releaseAnswers d i) := by
  unfold releaseAnswers
  repeat' first
    | with_reducible assumption
    | with_reducible apply sendAnswers_canonical
    | simp -implicitDefEqProofs only [Canonical.lit]
    | split
    | intro _
    | dsimp only

theorem serving_canonical (d : Dev) (k : Dev → Dev) (h0 : Canonical d) (hk : ∀ e, Canonical e → Canonical (k e)) : Canonical (serving d k) := by
  unfold serving
  repeat' first
    | with_reducible assumption
    | with_reducible apply hk
    | simp -implicitDefEqProofs only [Canonical.lit]
    | split
    | intro _
    | dsimp only

theorem openPtn_canonical (d : Dev) (i : Nat) (vf : Bool) (mask shape a size : Nat) (h0 : Canonical d) : Canonical (openPtn d i vf mask shape a size) := by
  unfold openPtn
  repeat' first
    | with_reducible assumption
    | with_reducible apply clearCluster_canonical
    | with_reducible apply clearQueues_canonical
    | with_reducible apply each_canonical
    | with_reducible apply p_canonical
    | with_reducible apply reset_canonical
    | with_reducible apply setDir_canonical
    | with_reducible apply setPtn_canonical
    | with_reducible apply tick_canonical
    | simp -implicitDefEqProofs only [Canonical.lit]
    | split
    | intro _
    | dsimp only

theorem doPtnCreate_canonical (d : Dev) (tag i : Nat) (vf : Bool) (mask shape quota : Nat) (h0 : Canonical d) : Canonical (doPtnCreate d tag i vf mask shape quota) := by
  unfold doPtnCreate
  repeat' first
    | with_reducible assumption
    | with_reducible apply answer_canonical
    | with_reducible apply answerPtn_canonical
    | with_reducible apply openPtn_canonical
    | with_reducible apply takeService_canonical
    | simp -implicitDefEqProofs only [Canonical.lit]
    | split
    | intro _
    | dsimp only

theorem endBatch_canonical (d : Dev) (i : Nat) (h0 : Canonical d) : Canonical (endBatch d i) := by
  unfold endBatch
  repeat' first
    | with_reducible assumption
    | with_reducible apply irq_canonical
    | with_reducible apply modPtn_canonical
    | with_reducible apply on_canonical
    | with_reducible apply p_canonical
    | simp -implicitDefEqProofs only [Canonical.lit]
    | split
    | intro _
    | dsimp only

theorem drainNi_canonical (d : Dev) (n : Nat) (h0 : Canonical d) : Canonical (drainNi d n) := by
  unfold drainNi
  repeat' first
    | with_reducible assumption
    | with_reducible apply p_canonical
    | simp -implicitDefEqProofs only [Canonical.lit]
    | split
    | intro _
    | dsimp only

theorem fenceNi_canonical (d : Dev) (n : Nat) (h0 : Canonical d) : Canonical (fenceNi d n) := by
  unfold fenceNi
  repeat' first
    | with_reducible assumption
    | with_reducible apply p_canonical
    | simp -implicitDefEqProofs only [Canonical.lit]
    | split
    | intro _
    | dsimp only

theorem doPtnDestroy_canonical (d : Dev) (tag i : Nat) (h0 : Canonical d) : Canonical (doPtnDestroy d tag i) := by
  unfold doPtnDestroy
  repeat' first
    | with_reducible assumption
    | with_reducible apply answer_canonical
    | with_reducible apply answerPtn_canonical
    | with_reducible apply doSnapAbort_canonical
    | with_reducible apply drainNi_canonical
    | with_reducible apply each_canonical
    | with_reducible apply endBatch_canonical
    | with_reducible apply farDrain_canonical
    | with_reducible apply modPtn_canonical
    | with_reducible apply p_canonical
    | with_reducible apply releaseDebug_canonical
    | with_reducible apply stopNow_canonical
    | with_reducible apply takeService_canonical
    | simp -implicitDefEqProofs only [Canonical.lit]
    | split
    | intro _
    | dsimp only

theorem returnItem_canonical (d : Dev) (w : Work) (h0 : Canonical d) : Canonical (returnItem d w) := by
  unfold returnItem
  repeat' first
    | with_reducible assumption
    | with_reducible apply reset_canonical
    | with_reducible apply writeCompletion_canonical
    | simp -implicitDefEqProofs only [Canonical.lit]
    | split
    | intro _
    | dsimp only

theorem returnItems_canonical (d : Dev) (i : Nat) (moves : Work → Bool) (h0 : Canonical d) : Canonical (returnItems d i moves).1 := by
  unfold returnItems
  repeat' first
    | with_reducible assumption
    | with_reducible apply each_canonical
    | with_reducible apply p_canonical
    | with_reducible apply putList_canonical
    | with_reducible apply returnItem_canonical
    | with_reducible apply setCourier_canonical
    | with_reducible apply foldl_canonical
    | with_reducible apply fold1_canonical
    | simp -implicitDefEqProofs only [Canonical.lit]
    | split
    | intro _
    | dsimp only

theorem doPtnClose_canonical (d : Dev) (i : Nat) (h0 : Canonical d) : Canonical (doPtnClose d i) := by
  unfold doPtnClose
  repeat' first
    | with_reducible assumption
    | with_reducible apply answer_canonical
    | with_reducible apply clearQueues_canonical
    | with_reducible apply doZeroingComplete_canonical
    | with_reducible apply each_canonical
    | with_reducible apply forgetSigs_canonical
    | with_reducible apply forgetSteps_canonical
    | with_reducible apply mntFree_canonical
    | with_reducible apply p_canonical
    | with_reducible apply placeAllHeld_canonical
    | with_reducible apply releaseAnswers_canonical
    | with_reducible apply releaseCluster_canonical
    | with_reducible apply reset_canonical
    | with_reducible apply resetBudgets_canonical
    | with_reducible apply resetRange_canonical
    | with_reducible apply returnItems_canonical
    | with_reducible apply setDir_canonical
    | with_reducible apply setPtn_canonical
    | with_reducible apply unload_canonical
    | with_reducible apply zeroRange_canonical
    | simp -implicitDefEqProofs only [Canonical.lit]
    | split
    | intro _
    | dsimp only

theorem doPtnResize_canonical (d : Dev) (tag i : Nat) (retarget : Bool) (mask shape : Nat) (h0 : Canonical d) : Canonical (doPtnResize d tag i retarget mask shape) := by
  unfold doPtnResize
  repeat' first
    | with_reducible assumption
    | with_reducible apply answer_canonical
    | with_reducible apply answerPtn_canonical
    | with_reducible apply drainNi_canonical
    | with_reducible apply each_canonical
    | with_reducible apply farDrain_canonical
    | with_reducible apply mntRequest_canonical
    | with_reducible apply modPtn_canonical
    | with_reducible apply p_canonical
    | with_reducible apply takeService_canonical
    | simp -implicitDefEqProofs only [Canonical.lit]
    | split
    | intro _
    | dsimp only

theorem moveQueues_canonical (d : Dev) (i lo n lo' n' : Nat) (h0 : Canonical d) : Canonical (moveQueues d i lo n lo' n') := by
  unfold moveQueues
  repeat' first
    | with_reducible assumption
    | with_reducible apply clearAdded_canonical
    | with_reducible apply clearQueues_canonical
    | with_reducible apply each_canonical
    | with_reducible apply p_canonical
    | with_reducible apply reset_canonical
    | with_reducible apply foldl_canonical
    | with_reducible apply fold1_canonical
    | simp -implicitDefEqProofs only [Canonical.lit]
    | split
    | intro _
    | dsimp only

theorem retargetSave_canonical (d : Dev) (i : Nat) (h0 : Canonical d) : Canonical (retargetSave d i) := by
  unfold retargetSave
  repeat' first
    | with_reducible assumption
    | with_reducible apply doSnapSaveComplete_canonical
    | with_reducible apply mntRequest_canonical
    | with_reducible apply on_canonical
    | with_reducible apply p_canonical
    | with_reducible apply snapPut_canonical
    | simp -implicitDefEqProofs only [Canonical.lit]
    | split
    | intro _
    | dsimp only

theorem doPtnResizeComplete_canonical (d : Dev) (i : Nat) (h0 : Canonical d) : Canonical (doPtnResizeComplete d i) := by
  unfold doPtnResizeComplete
  repeat' first
    | with_reducible assumption
    | with_reducible apply answer_canonical
    | with_reducible apply clearCluster_canonical
    | with_reducible apply each_canonical
    | with_reducible apply iff_canonical
    | with_reducible apply mntFree_canonical
    | with_reducible apply modPtn_canonical
    | with_reducible apply moveQueues_canonical
    | with_reducible apply p_canonical
    | with_reducible apply ptnResetReq_canonical
    | with_reducible apply releaseAnswers_canonical
    | with_reducible apply releaseCluster_canonical
    | with_reducible apply releasePorts_canonical
    | with_reducible apply retargetSave_canonical
    | with_reducible apply returnItems_canonical
    | with_reducible apply scrambleTiles_canonical
    | with_reducible apply setDir_canonical
    | with_reducible apply wakeAll_canonical
    | simp -implicitDefEqProofs only [Canonical.lit]
    | split
    | intro _
    | dsimp only

theorem doPtnQuery_canonical (d : Dev) (tag i : Nat) (h0 : Canonical d) : Canonical (doPtnQuery d tag i) := by
  unfold doPtnQuery
  repeat' first
    | with_reducible assumption
    | with_reducible apply answer_canonical
    | with_reducible apply answerPtn_canonical
    | with_reducible apply takeService_canonical
    | simp -implicitDefEqProofs only [Canonical.lit]
    | split
    | intro _
    | dsimp only

theorem doPing_canonical (d : Dev) (tag arg : Nat) (h0 : Canonical d) : Canonical (doPing d tag arg) := by
  unfold doPing
  repeat' first
    | with_reducible assumption
    | with_reducible apply answer_canonical
    | with_reducible apply takeService_canonical
    | simp -implicitDefEqProofs only [Canonical.lit]
    | split
    | intro _
    | dsimp only

theorem sendBeacon_canonical (d : Dev) (gi time hops : Nat) (h0 : Canonical d) : Canonical (sendBeacon d gi time hops) := by
  unfold sendBeacon
  repeat' first
    | with_reducible assumption
    | with_reducible apply control_canonical
    | simp -implicitDefEqProofs only [Canonical.lit]
    | split
    | intro _
    | dsimp only

theorem stepTime_canonical (d : Dev) (t kind : Nat) (h0 : Canonical d) : Canonical (stepTime d t kind) := by
  unfold stepTime
  repeat' first
    | with_reducible assumption
    | with_reducible apply discont_canonical
    | with_reducible apply p_canonical
    | simp -implicitDefEqProofs only [Canonical.lit]
    | split
    | intro _
    | dsimp only

theorem holdTime_canonical (d : Dev) (off : Int) (h0 : Canonical d) : Canonical (holdTime d off) := by
  unfold holdTime
  repeat' first
    | with_reducible assumption
    | with_reducible apply discont_canonical
    | with_reducible apply on_canonical
    | simp -implicitDefEqProofs only [Canonical.lit]
    | split
    | intro _
    | dsimp only

theorem lockCount_canonical (d : Dev) (off : Int) (h0 : Canonical d) : Canonical (lockCount d off) := by
  unfold lockCount
  repeat' first
    | with_reducible assumption
    | with_reducible apply on_canonical
    | with_reducible apply p_canonical
    | simp -implicitDefEqProofs only [Canonical.lit]
    | split
    | intro _
    | dsimp only

theorem followTime_canonical (d : Dev) (t : Nat) (whole : Bool) (h0 : Canonical d) : Canonical (followTime d t whole) := by
  unfold followTime
  repeat' first
    | with_reducible assumption
    | with_reducible apply holdTime_canonical
    | with_reducible apply lockCount_canonical
    | with_reducible apply on_canonical
    | with_reducible apply p_canonical
    | with_reducible apply stepTime_canonical
    | simp -implicitDefEqProofs only [Canonical.lit]
    | split
    | intro _
    | dsimp only

theorem doBeaconSend_canonical (d : Dev) (h0 : Canonical d) : Canonical (doBeaconSend d) := by
  unfold doBeaconSend
  repeat' first
    | with_reducible assumption
    | with_reducible apply each_canonical
    | with_reducible apply sendBeacon_canonical
    | simp -implicitDefEqProofs only [Canonical.lit]
    | split
    | intro _
    | dsimp only

theorem doBeacon_canonical (d : Dev) (gi ns frac hops master : Nat) (intact : Bool) (h0 : Canonical d) : Canonical (doBeacon d gi ns frac hops master intact) := by
  unfold doBeacon
  repeat' first
    | with_reducible assumption
    | with_reducible apply ctlBad_canonical
    | with_reducible apply each_canonical
    | with_reducible apply followTime_canonical
    | with_reducible apply on_canonical
    | with_reducible apply p_canonical
    | with_reducible apply sendBeacon_canonical
    | simp -implicitDefEqProofs only [Canonical.lit]
    | split
    | intro _
    | dsimp only

theorem doBeaconTimeout_canonical (d : Dev) (h0 : Canonical d) : Canonical (doBeaconTimeout d) := by
  unfold doBeaconTimeout
  repeat' first
    | with_reducible assumption
    | with_reducible apply on_canonical
    | simp -implicitDefEqProofs only [Canonical.lit]
    | split
    | intro _
    | dsimp only

theorem ringBeacon_canonical (d : Dev) (ttl ns frac : Nat) (h0 : Canonical d) : Canonical (ringBeacon d ttl ns frac) := by
  unfold ringBeacon
  repeat' first
    | with_reducible assumption
    | with_reducible apply followTime_canonical
    | simp -implicitDefEqProofs only [Canonical.lit]
    | split
    | intro _
    | dsimp only

theorem doHoldEnd_canonical (d : Dev) (h0 : Canonical d) : Canonical (doHoldEnd d) := by
  unfold doHoldEnd
  repeat' first
    | with_reducible assumption
    | with_reducible apply p_canonical
    | simp -implicitDefEqProofs only [Canonical.lit]
    | split
    | intro _
    | dsimp only

theorem doTsbSet_canonical (d : Dev) (v : Nat) (h0 : Canonical d) : Canonical (doTsbSet d v) := by
  unfold doTsbSet
  repeat' first
    | with_reducible assumption
    | with_reducible apply stepTime_canonical
    | simp -implicitDefEqProofs only [Canonical.lit]
    | split
    | intro _
    | dsimp only

theorem clockStep_canonical (d : Dev) (h0 : Canonical d) : Canonical (clockStep d) := by
  unfold clockStep
  repeat' first
    | with_reducible assumption
    | with_reducible apply add_canonical
    | with_reducible apply each_canonical
    | with_reducible apply p_canonical
    | with_reducible apply pupStep_canonical
    | with_reducible apply raise_canonical
    | simp -implicitDefEqProofs only [Canonical.lit]
    | split
    | intro _
    | dsimp only
end Sys2Proof.Machine.Dev
end

