-- ==== Sys2Proof/Laws/KeepCanonical5.lean ====
section
/-! SUPPORT. The register fields and HBM stay in their canonical form under boot, the loader, scrubbing, lane groups and the network: one lemma for each function. -/

set_option linter.all false

namespace Sys2Proof.Machine.Dev

set_option Elab.async false


theorem setBoot_canonical (d : Dev) (st : Nat) (h0 : Canonical d) : Canonical (setBoot d st) := by
  unfold setBoot
  repeat' first
    | with_reducible assumption
    | with_reducible apply p_canonical
    | simp -implicitDefEqProofs only [Canonical.lit]
    | split
    | intro _
    | dsimp only

theorem clearStaging_canonical (d : Dev) (h0 : Canonical d) : Canonical (clearStaging d) := by
  unfold clearStaging
  repeat' first
    | with_reducible assumption
    | simp -implicitDefEqProofs only [Canonical.lit]
    | split
    | intro _
    | dsimp only

theorem refuseBundle_canonical (d : Dev) (code : Nat) (h0 : Canonical d) : Canonical (refuseBundle d code) := by
  unfold refuseBundle
  repeat' first
    | with_reducible assumption
    | with_reducible apply add_canonical
    | with_reducible apply clearStaging_canonical
    | with_reducible apply irq_canonical
    | with_reducible apply p_canonical
    | with_reducible apply setBoot_canonical
    | simp -implicitDefEqProofs only [Canonical.lit]
    | split
    | intro _
    | dsimp only

theorem doBootGo_canonical (d : Dev) (h0 : Canonical d) : Canonical (doBootGo d) := by
  unfold doBootGo
  repeat' first
    | with_reducible assumption
    | with_reducible apply add_canonical
    | with_reducible apply refuseBundle_canonical
    | with_reducible apply setBoot_canonical
    | simp -implicitDefEqProofs only [Canonical.lit]
    | split
    | intro _
    | dsimp only

theorem doBootAbort_canonical (d : Dev) (h0 : Canonical d) : Canonical (doBootAbort d) := by
  unfold doBootAbort
  repeat' first
    | with_reducible assumption
    | with_reducible apply refuseBundle_canonical
    | simp -implicitDefEqProofs only [Canonical.lit]
    | split
    | intro _
    | dsimp only

theorem doFetchDone_canonical (d : Dev) (data : Option (List Byte)) (h0 : Canonical d) : Canonical (doFetchDone d data) := by
  unfold doFetchDone
  repeat' first
    | with_reducible assumption
    | with_reducible apply refuseBundle_canonical
    | with_reducible apply setBoot_canonical
    | simp -implicitDefEqProofs only [Canonical.lit]
    | split
    | intro _
    | dsimp only

theorem doVerifyDone_canonical (d : Dev) (h0 : Canonical d) : Canonical (doVerifyDone d) := by
  unfold doVerifyDone
  repeat' first
    | with_reducible assumption
    | with_reducible apply each_canonical
    | with_reducible apply p_canonical
    | with_reducible apply refuseBundle_canonical
    | with_reducible apply setBoot_canonical
    | simp -implicitDefEqProofs only [Canonical.lit]
    | split
    | intro _
    | dsimp only

theorem stageQueue_canonical (d : Dev) (q depth : Nat) (h0 : Canonical d) : Canonical (stageQueue d q depth) := by
  unfold stageQueue
  repeat' first
    | with_reducible assumption
    | with_reducible apply reset_canonical
    | with_reducible apply setQueue_canonical
    | simp -implicitDefEqProofs only [Canonical.lit]
    | split
    | intro _
    | dsimp only

theorem stageQueues_canonical (d : Dev) (h0 : Canonical d) : Canonical (stageQueues d) := by
  unfold stageQueues
  repeat' first
    | with_reducible assumption
    | with_reducible apply stageQueue_canonical
    | with_reducible apply foldl_canonical
    | with_reducible apply fold1_canonical
    | simp -implicitDefEqProofs only [Canonical.lit]
    | split
    | intro _
    | dsimp only

theorem doStageReady_canonical (d : Dev) (h0 : Canonical d) : Canonical (doStageReady d) := by
  unfold doStageReady
  repeat' first
    | with_reducible assumption
    | with_reducible apply each_canonical
    | with_reducible apply irq_canonical
    | with_reducible apply on_canonical
    | with_reducible apply p_canonical
    | with_reducible apply setBoot_canonical
    | with_reducible apply stageQueues_canonical
    | simp -implicitDefEqProofs only [Canonical.lit]
    | split
    | intro _
    | dsimp only

theorem doConfirm_canonical (d : Dev) (h0 : Canonical d) : Canonical (doConfirm d) := by
  unfold doConfirm
  repeat' first
    | with_reducible assumption
    | with_reducible apply irq_canonical
    | with_reducible apply mntRequest_canonical
    | with_reducible apply p_canonical
    | with_reducible apply setBoot_canonical
    | simp -implicitDefEqProofs only [Canonical.lit]
    | split
    | intro _
    | dsimp only

theorem burnAll_canonical (d : Dev) (n : Nat) (h0 : Canonical d) : Canonical (burnAll d n) := by
  unfold burnAll
  repeat' first
    | with_reducible assumption
    | simp -implicitDefEqProofs only [Canonical.lit]
    | split
    | intro _
    | dsimp only

theorem burnPart_canonical (d : Dev) (n : Nat) (h0 : Canonical d) : Canonical (burnPart d n) := by
  unfold burnPart
  repeat' first
    | with_reducible assumption
    | with_reducible apply tick_canonical
    | simp -implicitDefEqProofs only [Canonical.lit]
    | split
    | intro _
    | dsimp only

theorem doBurnDone_canonical (d : Dev) (fault : Bool) (h0 : Canonical d) : Canonical (doBurnDone d fault) := by
  unfold doBurnDone
  repeat' first
    | with_reducible assumption
    | with_reducible apply burnAll_canonical
    | with_reducible apply burnPart_canonical
    | with_reducible apply irq_canonical
    | with_reducible apply mntFree_canonical
    | with_reducible apply p_canonical
    | with_reducible apply setBoot_canonical
    | simp -implicitDefEqProofs only [Canonical.lit]
    | split
    | intro _
    | dsimp only

theorem doOwnerProvision_canonical (d : Dev) (tag : Nat) (ws : List W64) (h0 : Canonical d) : Canonical (doOwnerProvision d tag ws) := by
  unfold doOwnerProvision
  repeat' first
    | with_reducible assumption
    | with_reducible apply answer_canonical
    | with_reducible apply mntFree_canonical
    | with_reducible apply mntRequest_canonical
    | with_reducible apply takeService_canonical
    | simp -implicitDefEqProofs only [Canonical.lit]
    | split
    | intro _
    | dsimp only

theorem ownerPart_canonical (d : Dev) (hash : BitVec 384) (cut : Bool) (h0 : Canonical d) : Canonical (ownerPart d hash cut) := by
  unfold ownerPart
  repeat' first
    | with_reducible assumption
    | with_reducible apply tick_canonical
    | simp -implicitDefEqProofs only [Canonical.lit]
    | split
    | intro _
    | dsimp only

theorem doOwnerBurnDone_canonical (d : Dev) (fault : Bool) (h0 : Canonical d) : Canonical (doOwnerBurnDone d fault) := by
  unfold doOwnerBurnDone
  repeat' first
    | with_reducible assumption
    | with_reducible apply answer_canonical
    | with_reducible apply mntFree_canonical
    | with_reducible apply ownerPart_canonical
    | with_reducible apply p_canonical
    | with_reducible apply setAuthMode_canonical
    | simp -implicitDefEqProofs only [Canonical.lit]
    | split
    | intro _
    | dsimp only

theorem cutBurns_canonical (d : Dev) (h0 : Canonical d) : Canonical (cutBurns d) := by
  unfold cutBurns
  repeat' first
    | with_reducible assumption
    | with_reducible apply burnPart_canonical
    | with_reducible apply ownerPart_canonical
    | simp -implicitDefEqProofs only [Canonical.lit]
    | split
    | intro _
    | dsimp only

theorem romStart_canonical (d : Dev) (h0 : Canonical d) : Canonical (romStart d) := by
  unfold romStart
  repeat' first
    | with_reducible assumption
    | with_reducible apply p_canonical
    | simp -implicitDefEqProofs only [Canonical.lit]
    | split
    | intro _
    | dsimp only

theorem doTokenPresent_canonical (d : Dev) (tag : Nat) (ws : List W64) (h0 : Canonical d) : Canonical (doTokenPresent d tag ws) := by
  unfold doTokenPresent
  repeat' first
    | with_reducible assumption
    | with_reducible apply add_canonical
    | with_reducible apply answer_canonical
    | with_reducible apply applyRights_canonical
    | with_reducible apply p_canonical
    | with_reducible apply takeService_canonical
    | simp -implicitDefEqProofs only [Canonical.lit]
    | split
    | intro _
    | dsimp only

theorem runService_canonical (d : Dev) (op tag arg : Nat) (ws : List W64) (h0 : Canonical d) : Canonical (runService d op tag arg ws) := by
  unfold runService
  repeat' first
    | with_reducible assumption
    | with_reducible apply doOwnerProvision_canonical
    | with_reducible apply doPing_canonical
    | with_reducible apply doPtnCreate_canonical
    | with_reducible apply doPtnDestroy_canonical
    | with_reducible apply doPtnQuery_canonical
    | with_reducible apply doPtnResize_canonical
    | with_reducible apply doTokenChallenge_canonical
    | with_reducible apply doTokenPresent_canonical
    | with_reducible apply doTokenRevoke_canonical
    | simp -implicitDefEqProofs only [Canonical.lit]
    | split
    | intro _
    | dsimp only

theorem swapService_canonical (d : Dev) (ws : List W64) (h0 : Canonical d) : Canonical (swapService d ws) := by
  unfold swapService
  repeat' first
    | with_reducible assumption
    | with_reducible apply modQueue_canonical
    | simp -implicitDefEqProofs only [Canonical.lit]
    | split
    | intro _
    | dsimp only

theorem doBadCommand_canonical (d : Dev) (hdr : W64) (h0 : Canonical d) : Canonical (doBadCommand d hdr) := by
  unfold doBadCommand
  repeat' first
    | with_reducible assumption
    | with_reducible apply answer_canonical
    | with_reducible apply iff_canonical
    | with_reducible apply p_canonical
    | with_reducible apply runService_canonical
    | with_reducible apply swapService_canonical
    | simp -implicitDefEqProofs only [Canonical.lit]
    | split
    | intro _
    | dsimp only

theorem stageWord_canonical (d : Dev) (base off v : Nat) (fs : List Fld) (h0 : Canonical d) : Canonical (stageWord d base off v fs) := by
  unfold stageWord
  repeat' first
    | with_reducible assumption
    | with_reducible apply each_canonical
    | with_reducible apply p_canonical
    | simp -implicitDefEqProofs only [Canonical.lit]
    | split
    | intro _
    | dsimp only

theorem applyTables_canonical (d : Dev) (i : Nat) (t : Config.Tables) (h0 : Canonical d) : Canonical (applyTables d i t) := by
  unfold applyTables
  repeat' first
    | with_reducible assumption
    | with_reducible apply dropSlots_canonical
    | with_reducible apply each_canonical
    | with_reducible apply modPtn_canonical
    | with_reducible apply on_canonical
    | with_reducible apply p_canonical
    | with_reducible apply releasePorts_canonical
    | with_reducible apply stageWord_canonical
    | simp -implicitDefEqProofs only [Canonical.lit]
    | split
    | intro _
    | dsimp only

theorem beginImage_canonical (d : Dev) (i : Nat) (f : Frame) (h0 : Canonical d) : Canonical (beginImage d i f) := by
  unfold beginImage
  repeat' first
    | with_reducible assumption
    | with_reducible apply each_canonical
    | with_reducible apply id_canonical
    | with_reducible apply modPtn_canonical
    | with_reducible apply p_canonical
    | with_reducible apply setSt_canonical
    | with_reducible apply unload_canonical
    | simp -implicitDefEqProofs only [Canonical.lit]
    | split
    | intro _
    | dsimp only

theorem releaseWord_canonical (d : Dev) (n : Nat) (w : WordLoc) (h0 : Canonical d) : Canonical (releaseWord d n w) := by
  unfold releaseWord
  repeat' first
    | with_reducible assumption
    | with_reducible apply modClu_canonical
    | simp -implicitDefEqProofs only [Canonical.lit]
    | split
    | intro _
    | dsimp only

theorem setInitial_canonical (d : Dev) (n t o v : Nat) (h0 : Canonical d) : Canonical (setInitial d n t o v) := by
  unfold setInitial
  repeat' first
    | with_reducible assumption
    | with_reducible apply each_canonical
    | with_reducible apply setSt_canonical
    | simp -implicitDefEqProofs only [Canonical.lit]
    | split
    | intro _
    | dsimp only

theorem eachWord_canonical (d : Dev) (f : Frame) (step : Nat) (put : Dev → Nat → List Byte → Dev) (h0 : Canonical d) (hp : ∀ e a bs, Canonical e → Canonical (put e a bs)) : Canonical (eachWord d f step put) := by
  unfold eachWord
  repeat' first
    | with_reducible assumption
    | with_reducible apply hp
    | with_reducible apply each_canonical
    | simp -implicitDefEqProofs only [Canonical.lit]
    | split
    | intro _
    | dsimp only

theorem applyFrame_canonical (d : Dev) (i : Nat) (f : Frame) (h0 : Canonical d) : Canonical (applyFrame d i f) := by
  unfold applyFrame
  repeat' first
    | with_reducible assumption
    | with_reducible apply applyTables_canonical
    | with_reducible apply dropSamples_canonical
    | with_reducible apply eachWord_canonical
    | with_reducible apply modPtn_canonical
    | with_reducible apply releaseWord_canonical
    | with_reducible apply rewriteBp_canonical
    | with_reducible apply rewriteRow_canonical
    | with_reducible apply rewriteWa_canonical
    | with_reducible apply setInitial_canonical
    | with_reducible apply setMesh_canonical
    | with_reducible apply setPort_canonical
    | with_reducible apply wake_canonical
    | with_reducible apply writeWord_canonical
    | simp -implicitDefEqProofs only [Canonical.lit]
    | split
    | intro _
    | dsimp only

theorem restoreDue_canonical (d : Dev) (i : Nat) (h0 : Canonical d) : Canonical (restoreDue d i) := by
  unfold restoreDue
  repeat' first
    | with_reducible assumption
    | with_reducible apply modPtn_canonical
    | with_reducible apply p_canonical
    | with_reducible apply snapBegin_canonical
    | with_reducible apply snapGet_canonical
    | simp -implicitDefEqProofs only [Canonical.lit]
    | split
    | intro _
    | dsimp only

theorem completeImage_canonical (d : Dev) (i : Nat) (area : Nat × Nat) (h0 : Canonical d) : Canonical (completeImage d i area) := by
  unfold completeImage
  repeat' first
    | with_reducible assumption
    | with_reducible apply modPtn_canonical
    | with_reducible apply on_canonical
    | with_reducible apply p_canonical
    | with_reducible apply restoreDue_canonical
    | simp -implicitDefEqProofs only [Canonical.lit]
    | split
    | intro _
    | dsimp only

theorem takeFrame_canonical (d : Dev) (i : Nat) (data : Option (List Byte)) (h0 : Canonical d) : Canonical (takeFrame d i data).1 := by
  unfold takeFrame
  repeat' first
    | with_reducible assumption
    | with_reducible apply add_canonical
    | with_reducible apply applyFrame_canonical
    | with_reducible apply beginImage_canonical
    | with_reducible apply completeImage_canonical
    | with_reducible apply hbmPut_canonical
    | with_reducible apply modPtn_canonical
    | with_reducible apply p_canonical
    | simp -implicitDefEqProofs only [Canonical.lit]
    | split
    | intro _
    | dsimp only

theorem imageRead_canonical (d : Dev) (a n : Nat) (h0 : Canonical d) : Canonical (imageRead d a n).1 := by
  unfold imageRead
  repeat' first
    | with_reducible assumption
    | with_reducible apply hbmGet_canonical
    | simp -implicitDefEqProofs only [Canonical.lit]
    | split
    | intro _
    | dsimp only

theorem storedFrame_canonical (d : Dev) (a n : Nat) (h0 : Canonical d) : Canonical (storedFrame d a n).1 := by
  unfold storedFrame
  repeat' first
    | with_reducible assumption
    | with_reducible apply imageRead_canonical
    | simp -implicitDefEqProofs only [Canonical.lit]
    | split
    | intro _
    | dsimp only

theorem replayBytes_canonical (d : Dev) (i : Nat) (h0 : Canonical d) : Canonical (replayBytes d i).1 := by
  unfold replayBytes
  repeat' first
    | with_reducible assumption
    | with_reducible apply imageRead_canonical
    | with_reducible apply storedFrame_canonical
    | simp -implicitDefEqProofs only [Canonical.lit]
    | split
    | intro _
    | dsimp only

theorem doFrame_canonical (d : Dev) (i : Nat) (data : Option (List Byte)) (h0 : Canonical d) : Canonical (doFrame d i data) := by
  unfold doFrame
  repeat' first
    | with_reducible assumption
    | with_reducible apply endBatch_canonical
    | with_reducible apply modPtn_canonical
    | with_reducible apply p_canonical
    | with_reducible apply replayBytes_canonical
    | with_reducible apply takeFrame_canonical
    | simp -implicitDefEqProofs only [Canonical.lit]
    | split
    | intro _
    | dsimp only

theorem startBatch_canonical (d : Dev) (i n : Nat) (replay : Bool) (h0 : Canonical d) : Canonical (startBatch d i n replay) := by
  unfold startBatch
  repeat' first
    | with_reducible assumption
    | with_reducible apply modPtn_canonical
    | with_reducible apply on_canonical
    | with_reducible apply p_canonical
    | simp -implicitDefEqProofs only [Canonical.lit]
    | split
    | intro _
    | dsimp only

theorem doLoadGo_canonical (d : Dev) (i : Nat) (h0 : Canonical d) : Canonical (doLoadGo d i) := by
  unfold doLoadGo
  repeat' first
    | with_reducible assumption
    | with_reducible apply startBatch_canonical
    | simp -implicitDefEqProofs only [Canonical.lit]
    | split
    | intro _
    | dsimp only

theorem doLoadAbort_canonical (d : Dev) (i : Nat) (h0 : Canonical d) : Canonical (doLoadAbort d i) := by
  unfold doLoadAbort
  repeat' first
    | with_reducible assumption
    | with_reducible apply modPtn_canonical
    | simp -implicitDefEqProofs only [Canonical.lit]
    | split
    | intro _
    | dsimp only

theorem doLoadReplay_canonical (d : Dev) (i : Nat) (h0 : Canonical d) : Canonical (doLoadReplay d i) := by
  unfold doLoadReplay
  repeat' first
    | with_reducible assumption
    | with_reducible apply irq_canonical
    | with_reducible apply on_canonical
    | with_reducible apply p_canonical
    | with_reducible apply startBatch_canonical
    | simp -implicitDefEqProofs only [Canonical.lit]
    | split
    | intro _
    | dsimp only

theorem imageFrame_canonical (d : Dev) (m : Img) (q : Nat) (h0 : Canonical d) : Canonical (imageFrame d m q).1 := by
  unfold imageFrame
  repeat' first
    | with_reducible assumption
    | with_reducible apply hbmGet_canonical
    | simp -implicitDefEqProofs only [Canonical.lit]
    | split
    | intro _
    | dsimp only

theorem imageSeq_canonical (d : Dev) (m : Img) (c k t o : Nat) (h0 : Canonical d) : Canonical (imageSeq d m c k t o).1 := by
  unfold imageSeq
  repeat' first
    | with_reducible assumption
    | with_reducible apply hbmGet_canonical
    | with_reducible apply foldl_canonical
    | with_reducible apply fold1_canonical
    | simp -implicitDefEqProofs only [Canonical.lit]
    | split
    | intro _
    | dsimp only

theorem imageBytes_canonical (d : Dev) (i c k t o n : Nat) (h0 : Canonical d) : Canonical (imageBytes d i c k t o n).1 := by
  unfold imageBytes
  repeat' first
    | with_reducible assumption
    | with_reducible apply imageFrame_canonical
    | with_reducible apply imageSeq_canonical
    | simp -implicitDefEqProofs only [Canonical.lit]
    | split
    | intro _
    | dsimp only

theorem imageWord_canonical (d : Dev) (i n : Nat) (w : WordLoc) (h0 : Canonical d) : Canonical (imageWord d i n w).1 := by
  unfold imageWord
  repeat' first
    | with_reducible assumption
    | with_reducible apply imageBytes_canonical
    | simp -implicitDefEqProofs only [Canonical.lit]
    | split
    | intro _
    | dsimp only

theorem essential_canonical (d : Dev) (i n : Nat) (w : WordLoc) (fetch : Bool) (h0 : Canonical d) : Canonical (essential d i n w fetch).1 := by
  unfold essential
  repeat' first
    | with_reducible assumption
    | with_reducible apply imageBytes_canonical
    | with_reducible apply imageWord_canonical
    | simp -implicitDefEqProofs only [Canonical.lit]
    | split
    | intro _
    | dsimp only

theorem scrLast_canonical (d : Dev) (n : Nat) (w : WordLoc) (ess fetch : Bool) (h0 : Canonical d) : Canonical (scrLast d n w ess fetch) := by
  unfold scrLast
  repeat' first
    | with_reducible assumption
    | with_reducible apply on_canonical
    | with_reducible apply p_canonical
    | simp -implicitDefEqProofs only [Canonical.lit]
    | split
    | intro _
    | dsimp only

theorem dueRewrite_canonical (d : Dev) (n : Nat) (w : WordLoc) (reload : Bool) (h0 : Canonical d) : Canonical (dueRewrite d n w reload) := by
  unfold dueRewrite
  repeat' first
    | with_reducible assumption
    | simp -implicitDefEqProofs only [Canonical.lit]
    | split
    | intro _
    | dsimp only

theorem upsetPolicy_canonical (d : Dev) (i n : Nat) (w : WordLoc) (h0 : Canonical d) : Canonical (upsetPolicy d i n w) := by
  unfold upsetPolicy
  repeat' first
    | with_reducible assumption
    | with_reducible apply dueRewrite_canonical
    | with_reducible apply freezeReq_canonical
    | with_reducible apply imageWord_canonical
    | with_reducible apply on_canonical
    | simp -implicitDefEqProofs only [Canonical.lit]
    | split
    | intro _
    | dsimp only

theorem doUpset_canonical (d : Dev) (n : Nat) (w : WordLoc) (fetch : Bool) (h0 : Canonical d) : Canonical (doUpset d n w fetch) := by
  unfold doUpset
  repeat' first
    | with_reducible assumption
    | with_reducible apply add_canonical
    | with_reducible apply dueRewrite_canonical
    | with_reducible apply essential_canonical
    | with_reducible apply irq_canonical
    | with_reducible apply raise_canonical
    | with_reducible apply scrLast_canonical
    | with_reducible apply upsetPolicy_canonical
    | simp -implicitDefEqProofs only [Canonical.lit]
    | split
    | intro _
    | dsimp only

theorem putWord_canonical (d : Dev) (n : Nat) (w : WordLoc) (v : Nat) (h0 : Canonical d) : Canonical (putWord d n w v) := by
  unfold putWord
  repeat' first
    | with_reducible assumption
    | with_reducible apply releaseWord_canonical
    | with_reducible apply rewriteBp_canonical
    | with_reducible apply rewriteWa_canonical
    | with_reducible apply setMesh_canonical
    | with_reducible apply setPort_canonical
    | simp -implicitDefEqProofs only [Canonical.lit]
    | split
    | intro _
    | dsimp only

theorem doUpsetRewrite_canonical (d : Dev) (n : Nat) (w : WordLoc) (h0 : Canonical d) : Canonical (doUpsetRewrite d n w) := by
  unfold doUpsetRewrite
  repeat' first
    | with_reducible assumption
    | with_reducible apply add_canonical
    | with_reducible apply imageWord_canonical
    | with_reducible apply putWord_canonical
    | simp -implicitDefEqProofs only [Canonical.lit]
    | split
    | intro _
    | dsimp only

theorem scrubRead_canonical (d : Dev) (n : Nat) (w : WordLoc) (h0 : Canonical d) : Canonical (scrubRead d n w) := by
  unfold scrubRead
  repeat' first
    | with_reducible assumption
    | with_reducible apply checkMesh_canonical
    | with_reducible apply checkPort_canonical
    | with_reducible apply fetchBp_canonical
    | with_reducible apply fetchWa_canonical
    | with_reducible apply readRow_canonical
    | simp -implicitDefEqProofs only [Canonical.lit]
    | split
    | intro _
    | dsimp only

theorem doWalkRead_canonical (d : Dev) (n : Nat) (w : WordLoc) (h0 : Canonical d) : Canonical (doWalkRead d n w) := by
  unfold doWalkRead
  repeat' first
    | with_reducible assumption
    | with_reducible apply add_canonical
    | with_reducible apply scrubRead_canonical
    | simp -implicitDefEqProofs only [Canonical.lit]
    | split
    | intro _
    | dsimp only

theorem doPassRequest_canonical (d : Dev) (i : Nat) (h0 : Canonical d) : Canonical (doPassRequest d i) := by
  unfold doPassRequest
  repeat' first
    | with_reducible assumption
    | with_reducible apply p_canonical
    | with_reducible apply scrubRequest_canonical
    | simp -implicitDefEqProofs only [Canonical.lit]
    | split
    | intro _
    | dsimp only

theorem doPassStart_canonical (d : Dev) (h0 : Canonical d) : Canonical (doPassStart d) := by
  unfold doPassStart
  repeat' first
    | with_reducible assumption
    | with_reducible apply retryPasses_canonical
    | simp -implicitDefEqProofs only [Canonical.lit]
    | split
    | intro _
    | dsimp only

theorem passDiag_canonical (d : Dev) (i : Nat) (found : Bool) (h0 : Canonical d) : Canonical (passDiag d i found) := by
  unfold passDiag
  repeat' first
    | with_reducible assumption
    | with_reducible apply irq_canonical
    | with_reducible apply lscSend_canonical
    | with_reducible apply p_canonical
    | simp -implicitDefEqProofs only [Canonical.lit]
    | split
    | intro _
    | dsimp only

theorem doPassComplete_canonical (d : Dev) (h0 : Canonical d) : Canonical (doPassComplete d) := by
  unfold doPassComplete
  repeat' first
    | with_reducible assumption
    | with_reducible apply each_canonical
    | with_reducible apply mntFree_canonical
    | with_reducible apply p_canonical
    | with_reducible apply passDiag_canonical
    | with_reducible apply scrubRead_canonical
    | simp -implicitDefEqProofs only [Canonical.lit]
    | split
    | intro _
    | dsimp only

theorem putBit_canonical (d : Dev) (base : Nat) (f : Fld) (k : Nat) (v : Bool) (h0 : Canonical d) : Canonical (putBit d base f k v) := by
  unfold putBit
  repeat' first
    | with_reducible assumption
    | with_reducible apply p_canonical
    | simp -implicitDefEqProofs only [Canonical.lit]
    | split
    | intro _
    | dsimp only

theorem toAcquire_canonical (d : Dev) (gi : Nat) (h0 : Canonical d) : Canonical (toAcquire d gi) := by
  unfold toAcquire
  repeat' first
    | with_reducible assumption
    | with_reducible apply modLink_canonical
    | with_reducible apply p_canonical
    | simp -implicitDefEqProofs only [Canonical.lit]
    | split
    | intro _
    | dsimp only

theorem linkDown_canonical (d : Dev) (gi cause next : Nat) (h0 : Canonical d) : Canonical (linkDown d gi cause next) := by
  unfold linkDown
  repeat' first
    | with_reducible assumption
    | with_reducible apply add_canonical
    | with_reducible apply each_canonical
    | with_reducible apply emit_canonical
    | with_reducible apply irq_canonical
    | with_reducible apply modLink_canonical
    | with_reducible apply on_canonical
    | with_reducible apply p_canonical
    | with_reducible apply raise_canonical
    | with_reducible apply slotErr_canonical
    | with_reducible apply upstreamLoss_canonical
    | simp -implicitDefEqProofs only [Canonical.lit]
    | split
    | intro _
    | dsimp only

theorem leaveUp_canonical (d : Dev) (gi cause next : Nat) (h0 : Canonical d) : Canonical (leaveUp d gi cause next) := by
  unfold leaveUp
  repeat' first
    | with_reducible assumption
    | with_reducible apply linkDown_canonical
    | simp -implicitDefEqProofs only [Canonical.lit]
    | split
    | intro _
    | dsimp only

theorem loseLane_canonical (d : Dev) (gi l : Nat) (h0 : Canonical d) : Canonical (loseLane d gi l) := by
  unfold loseLane
  repeat' first
    | with_reducible assumption
    | with_reducible apply leaveUp_canonical
    | with_reducible apply modLink_canonical
    | with_reducible apply toAcquire_canonical
    | simp -implicitDefEqProofs only [Canonical.lit]
    | split
    | intro _
    | dsimp only

theorem doLaneTest_canonical (d : Dev) (gi : Nat) (h0 : Canonical d) : Canonical (doLaneTest d gi) := by
  unfold doLaneTest
  repeat' first
    | with_reducible assumption
    | with_reducible apply leaveUp_canonical
    | with_reducible apply mntRequest_canonical
    | with_reducible apply on_canonical
    | with_reducible apply p_canonical
    | with_reducible apply putBit_canonical
    | with_reducible apply reset_canonical
    | with_reducible apply setLink_canonical
    | simp -implicitDefEqProofs only [Canonical.lit]
    | split
    | intro _
    | dsimp only

theorem doLaneEnable_canonical (d : Dev) (gi : Nat) (h0 : Canonical d) : Canonical (doLaneEnable d gi) := by
  unfold doLaneEnable
  repeat' first
    | with_reducible assumption
    | with_reducible apply doLaneTest_canonical
    | with_reducible apply on_canonical
    | with_reducible apply p_canonical
    | with_reducible apply putBit_canonical
    | with_reducible apply reset_canonical
    | with_reducible apply setLink_canonical
    | with_reducible apply toAcquire_canonical
    | simp -implicitDefEqProofs only [Canonical.lit]
    | split
    | intro _
    | dsimp only

theorem doLaneDisable_canonical (d : Dev) (gi : Nat) (h0 : Canonical d) : Canonical (doLaneDisable d gi) := by
  unfold doLaneDisable
  repeat' first
    | with_reducible assumption
    | with_reducible apply leaveUp_canonical
    | with_reducible apply mntFree_canonical
    | with_reducible apply p_canonical
    | with_reducible apply putBit_canonical
    | with_reducible apply reset_canonical
    | with_reducible apply setLink_canonical
    | simp -implicitDefEqProofs only [Canonical.lit]
    | split
    | intro _
    | dsimp only

theorem sendPeriod_canonical (d : Dev) (gi l : Nat) (data : List Bool) (marker : BitVec 320) (h0 : Canonical d) : Canonical (sendPeriod d gi l data marker) := by
  unfold sendPeriod
  repeat' first
    | with_reducible assumption
    | with_reducible apply capLine_canonical
    | with_reducible apply emit_canonical
    | with_reducible apply lineOut_canonical
    | with_reducible apply setLink_canonical
    | simp -implicitDefEqProofs only [Canonical.lit]
    | split
    | intro _
    | dsimp only

theorem holdInjection_canonical (d : Dev) (gi : Nat) (h0 : Canonical d) : Canonical (holdInjection d gi) := by
  unfold holdInjection
  repeat' first
    | with_reducible assumption
    | with_reducible apply iff_canonical
    | with_reducible apply modLink_canonical
    | with_reducible apply on_canonical
    | simp -implicitDefEqProofs only [Canonical.lit]
    | split
    | intro _
    | dsimp only

theorem doMarkerSend_canonical (d : Dev) (gi : Nat) (h0 : Canonical d) : Canonical (doMarkerSend d gi) := by
  unfold doMarkerSend
  repeat' first
    | with_reducible assumption
    | with_reducible apply each_canonical
    | with_reducible apply holdInjection_canonical
    | with_reducible apply modLink_canonical
    | with_reducible apply sendPeriod_canonical
    | with_reducible apply setLink_canonical
    | with_reducible apply tick_canonical
    | simp -implicitDefEqProofs only [Canonical.lit]
    | split
    | intro _
    | dsimp only

theorem setRtt_canonical (d : Dev) (gi rtt : Nat) (h0 : Canonical d) : Canonical (setRtt d gi rtt) := by
  unfold setRtt
  repeat' first
    | with_reducible assumption
    | with_reducible apply modLink_canonical
    | with_reducible apply p_canonical
    | simp -implicitDefEqProofs only [Canonical.lit]
    | split
    | intro _
    | dsimp only

theorem measure_canonical (d : Dev) (gi v : Nat) (h0 : Canonical d) : Canonical (measure d gi v) := by
  unfold measure
  repeat' first
    | with_reducible assumption
    | with_reducible apply setRtt_canonical
    | simp -implicitDefEqProofs only [Canonical.lit]
    | split
    | intro _
    | dsimp only

theorem linkUp_canonical (d : Dev) (gi ver : Nat) (h0 : Canonical d) : Canonical (linkUp d gi ver) := by
  unfold linkUp
  repeat' first
    | with_reducible assumption
    | with_reducible apply control_canonical
    | with_reducible apply each_canonical
    | with_reducible apply irq_canonical
    | with_reducible apply modLink_canonical
    | with_reducible apply p_canonical
    | with_reducible apply foldl_canonical
    | with_reducible apply fold1_canonical
    | simp -implicitDefEqProofs only [Canonical.lit]
    | split
    | intro _
    | dsimp only

theorem tryUp_canonical (d : Dev) (gi : Nat) (h0 : Canonical d) : Canonical (tryUp d gi) := by
  unfold tryUp
  repeat' first
    | with_reducible assumption
    | with_reducible apply linkUp_canonical
    | simp -implicitDefEqProofs only [Canonical.lit]
    | split
    | intro _
    | dsimp only

theorem tryDeskew_canonical (d : Dev) (gi v : Nat) (h0 : Canonical d) : Canonical (tryDeskew d gi v) := by
  unfold tryDeskew
  repeat' first
    | with_reducible assumption
    | with_reducible apply each_canonical
    | with_reducible apply modLink_canonical
    | with_reducible apply on_canonical
    | with_reducible apply p_canonical
    | with_reducible apply tick_canonical
    | with_reducible apply toAcquire_canonical
    | with_reducible apply foldl_canonical
    | with_reducible apply fold1_canonical
    | simp -implicitDefEqProofs only [Canonical.lit]
    | split
    | intro _
    | dsimp only

theorem noteMarker_canonical (d : Dev) (gi l v ui : Nat) (h0 : Canonical d) : Canonical (noteMarker d gi l v ui) := by
  unfold noteMarker
  repeat' first
    | with_reducible assumption
    | with_reducible apply id_canonical
    | with_reducible apply putBit_canonical
    | with_reducible apply setLink_canonical
    | simp -implicitDefEqProofs only [Canonical.lit]
    | split
    | intro _
    | dsimp only

theorem bringUp_canonical (d : Dev) (gi l v : Nat) (h0 : Canonical d) : Canonical (bringUp d gi l v) := by
  unfold bringUp
  repeat' first
    | with_reducible assumption
    | with_reducible apply linkDown_canonical
    | with_reducible apply measure_canonical
    | with_reducible apply modLink_canonical
    | with_reducible apply p_canonical
    | with_reducible apply tryDeskew_canonical
    | with_reducible apply tryUp_canonical
    | simp -implicitDefEqProofs only [Canonical.lit]
    | split
    | intro _
    | dsimp only

theorem noteStamp_canonical (d : Dev) (gi v : Nat) (h0 : Canonical d) : Canonical (noteStamp d gi v) := by
  unfold noteStamp
  repeat' first
    | with_reducible assumption
    | with_reducible apply modLink_canonical
    | simp -implicitDefEqProofs only [Canonical.lit]
    | split
    | intro _
    | dsimp only

theorem doMarker_canonical (d : Dev) (gi l : Nat) (bits : BitVec 320) (ui : Nat) (h0 : Canonical d) : Canonical (doMarker d gi l bits ui) := by
  unfold doMarker
  repeat' first
    | with_reducible assumption
    | with_reducible apply bringUp_canonical
    | with_reducible apply capLine_canonical
    | with_reducible apply iff_canonical
    | with_reducible apply loseLane_canonical
    | with_reducible apply modLink_canonical
    | with_reducible apply noteMarker_canonical
    | with_reducible apply noteStamp_canonical
    | with_reducible apply putBit_canonical
    | simp -implicitDefEqProofs only [Canonical.lit]
    | split
    | intro _
    | dsimp only

theorem doAcqTimeout_canonical (d : Dev) (gi : Nat) (h0 : Canonical d) : Canonical (doAcqTimeout d gi) := by
  unfold doAcqTimeout
  repeat' first
    | with_reducible assumption
    | with_reducible apply on_canonical
    | simp -implicitDefEqProofs only [Canonical.lit]
    | split
    | intro _
    | dsimp only

theorem doLaneRecovered_canonical (d : Dev) (gi l : Nat) (h0 : Canonical d) : Canonical (doLaneRecovered d gi l) := by
  unfold doLaneRecovered
  repeat' first
    | with_reducible assumption
    | with_reducible apply modLink_canonical
    | simp -implicitDefEqProofs only [Canonical.lit]
    | split
    | intro _
    | dsimp only

theorem linkSend_canonical {d : Dev} {gi vc : Nat} {f : BitVec 256} {e : Dev} (h : d.linkSend gi vc f = some e) (h0 : Canonical d) : Canonical e := by
  unfold linkSend at h; dsimp only at h; split at h
  · cases h
  · simp only [Option.some.injEq] at h; rw [← h]; exact sendFlit_canonical _ _ _ (setLink_canonical _ _ _ h0)

theorem sendNull_canonical (d : Dev) (gi : Nat) (nak : Bool) (h0 : Canonical d) : Canonical (sendNull d gi nak) := by
  unfold sendNull
  repeat' first
    | with_reducible assumption
    | with_reducible apply sendFlit_canonical
    | simp -implicitDefEqProofs only [Canonical.lit]
    | split
    | intro _
    | dsimp only

theorem sendFlits_canonical {d : Dev} {gi vc : Nat} {fs : List (BitVec 256)} {e : Dev} (h : d.sendFlits gi vc fs = some e) (h0 : Canonical d) : Canonical e := by
  induction fs generalizing d with
  | nil => simp only [sendFlits, Option.some.injEq] at h; rw [← h]; exact h0
  | cons f fs ih =>
    unfold sendFlits at h; split at h
    · exact ih h (linkSend_canonical (by assumption) h0)
    · cases h

theorem sendWaiting_canonical (d : Dev) (gi : Nat) (h0 : Canonical d) : Canonical (sendWaiting d gi) := by
  unfold sendWaiting
  repeat' first
    | with_reducible assumption
    | with_reducible apply modLink_canonical
    | with_reducible apply foldl_canonical
    | with_reducible apply fold1_canonical
    | simp -implicitDefEqProofs only [Canonical.lit]
    | split
    | intro _
    | dsimp only
    | with_reducible refine sendFlits_canonical (by assumption) ?_

theorem ackFlits_canonical (d : Dev) (gi ack : Nat) (h0 : Canonical d) : Canonical (ackFlits d gi ack) := by
  unfold ackFlits
  repeat' first
    | with_reducible assumption
    | with_reducible apply modLink_canonical
    | with_reducible apply sendWaiting_canonical
    | simp -implicitDefEqProofs only [Canonical.lit]
    | split
    | intro _
    | dsimp only

theorem nakFlits_canonical (d : Dev) (gi ack : Nat) (h0 : Canonical d) : Canonical (nakFlits d gi ack) := by
  unfold nakFlits
  repeat' first
    | with_reducible assumption
    | with_reducible apply add_canonical
    | with_reducible apply each_canonical
    | with_reducible apply linkDown_canonical
    | with_reducible apply raise_canonical
    | with_reducible apply sendFlit_canonical
    | with_reducible apply setLink_canonical
    | with_reducible apply toAcquire_canonical
    | simp -implicitDefEqProofs only [Canonical.lit]
    | split
    | intro _
    | dsimp only

theorem deliverFlits_canonical (d : Dev) (gi : Nat) (h0 : Canonical d) : Canonical (deliverFlits d gi) := by
  unfold deliverFlits
  repeat' first
    | with_reducible assumption
    | with_reducible apply emit_canonical
    | with_reducible apply modLink_canonical
    | simp -implicitDefEqProofs only [Canonical.lit]
    | split
    | intro _
    | dsimp only

theorem doLinkFlit_canonical (d : Dev) (gi : Nat) (bits : BitVec 320) (bad : Bool) (h0 : Canonical d) : Canonical (doLinkFlit d gi bits bad) := by
  unfold doLinkFlit
  repeat' first
    | with_reducible assumption
    | with_reducible apply ackFlits_canonical
    | with_reducible apply add_canonical
    | with_reducible apply control_canonical
    | with_reducible apply deliverFlits_canonical
    | with_reducible apply modLink_canonical
    | with_reducible apply nakFlits_canonical
    | with_reducible apply sendNull_canonical
    | with_reducible apply setLink_canonical
    | simp -implicitDefEqProofs only [Canonical.lit]
    | split
    | intro _
    | dsimp only

theorem doCredit_canonical (d : Dev) (gi vc count : Nat) (intact : Bool) (h0 : Canonical d) : Canonical (doCredit d gi vc count intact) := by
  unfold doCredit
  repeat' first
    | with_reducible assumption
    | with_reducible apply ctlBad_canonical
    | with_reducible apply modLink_canonical
    | with_reducible apply sendWaiting_canonical
    | simp -implicitDefEqProofs only [Canonical.lit]
    | split
    | intro _
    | dsimp only

theorem doFreezeMsg_canonical (d : Dev) (gi origin n : Nat) (intact : Bool) (h0 : Canonical d) : Canonical (doFreezeMsg d gi origin n intact) := by
  unfold doFreezeMsg
  repeat' first
    | with_reducible assumption
    | with_reducible apply ctlBad_canonical
    | with_reducible apply floodFreeze_canonical
    | simp -implicitDefEqProofs only [Canonical.lit]
    | split
    | intro _
    | dsimp only

theorem controlMessage_canonical (d : Dev) (gi msg : Nat) (h0 : Canonical d) : Canonical (controlMessage d gi msg) := by
  unfold controlMessage
  repeat' first
    | with_reducible assumption
    | with_reducible apply doBeacon_canonical
    | with_reducible apply doCredit_canonical
    | with_reducible apply doFreezeMsg_canonical
    | with_reducible apply doGo_canonical
    | with_reducible apply doHold_canonical
    | with_reducible apply doLinkedCommand_canonical
    | with_reducible apply doReady_canonical
    | with_reducible apply doSteps_canonical
    | simp -implicitDefEqProofs only [Canonical.lit]
    | split
    | intro _
    | dsimp only

theorem takeFragment_canonical (d : Dev) (gi header : Nat) (bad : Bool) (h0 : Canonical d) : Canonical (takeFragment d gi header bad) := by
  unfold takeFragment
  repeat' first
    | with_reducible assumption
    | with_reducible apply controlMessage_canonical
    | with_reducible apply ctlBad_canonical
    | with_reducible apply modLink_canonical
    | with_reducible apply foldl_canonical
    | with_reducible apply fold1_canonical
    | simp -implicitDefEqProofs only [Canonical.lit]
    | split
    | intro _
    | dsimp only

theorem takeFields_canonical (d : Dev) (gi m : Nat) (h0 : Canonical d) : Canonical (takeFields d gi m) := by
  induction m generalizing d with
  | zero => exact h0
  | succ m ih =>
    unfold takeFields
    repeat' first
      | with_reducible assumption
      | with_reducible apply ih
      | with_reducible apply doLinkFlit_canonical
      | with_reducible apply modLink_canonical
      | simp -implicitDefEqProofs only [Canonical.lit]
      | split
      | intro _
      | dsimp only

theorem takePackets_canonical (d : Dev) (gi frame bad n : Nat) (h0 : Canonical d) : Canonical (takePackets d gi frame bad n) := by
  unfold takePackets
  repeat' first
    | with_reducible assumption
    | with_reducible apply modLink_canonical
    | with_reducible apply takeFields_canonical
    | simp -implicitDefEqProofs only [Canonical.lit]
    | split
    | intro _
    | dsimp only

theorem offerFrame_canonical (d : Dev) (gi frame : Nat) (h0 : Canonical d) : Canonical (offerFrame d gi frame) := by
  unfold offerFrame
  repeat' first
    | with_reducible assumption
    | with_reducible apply each_canonical
    | with_reducible apply offerLane_canonical
    | simp -implicitDefEqProofs only [Canonical.lit]
    | split
    | intro _
    | dsimp only

theorem takeSlots_canonical (d : Dev) (gi k : Nat) (fields : List W32) (h0 : Canonical d) : Canonical (takeSlots d gi k fields) := by
  unfold takeSlots
  repeat' first
    | with_reducible assumption
    | with_reducible apply add_canonical
    | with_reducible apply modLink_canonical
    | with_reducible apply p_canonical
    | with_reducible apply slotErr_canonical
    | simp -implicitDefEqProofs only [Canonical.lit]
    | split
    | intro _
    | dsimp only

theorem doSlotFrame_canonical (d : Dev) (gi k frame n bad : Nat) (h0 : Canonical d) : Canonical (doSlotFrame d gi k frame n bad) := by
  unfold doSlotFrame
  repeat' first
    | with_reducible assumption
    | with_reducible apply iff_canonical
    | with_reducible apply offerFrame_canonical
    | with_reducible apply slotErr_canonical
    | with_reducible apply takeFragment_canonical
    | with_reducible apply takePackets_canonical
    | with_reducible apply takeSlots_canonical
    | simp -implicitDefEqProofs only [Canonical.lit]
    | split
    | intro _
    | dsimp only

theorem doStepFrame_canonical (d : Dev) (gi frame bad : Nat) (h0 : Canonical d) : Canonical (doStepFrame d gi frame bad) := by
  unfold doStepFrame
  repeat' first
    | with_reducible assumption
    | with_reducible apply add_canonical
    | with_reducible apply doSlotFrame_canonical
    | with_reducible apply modLink_canonical
    | with_reducible apply offerFrame_canonical
    | with_reducible apply slotErr_canonical
    | with_reducible apply takeFragment_canonical
    | with_reducible apply takePackets_canonical
    | simp -implicitDefEqProofs only [Canonical.lit]
    | split
    | intro _
    | dsimp only

theorem takeFrames_canonical (d : Dev) (gi m : Nat) (h0 : Canonical d) : Canonical (takeFrames d gi m) := by
  induction m generalizing d with
  | zero => exact h0
  | succ m ih =>
    unfold takeFrames
    repeat' first
      | with_reducible assumption
      | with_reducible apply ih
      | with_reducible apply stepEnd_canonical
      | with_reducible apply doStepFrame_canonical
      | with_reducible apply setLink_canonical
      | simp -implicitDefEqProofs only [Canonical.lit]
      | split
      | intro _
      | dsimp only

theorem takeCodeword_canonical (d : Dev) (gi l : Nat) (symbols : List Nat) (bad : Bool) (h0 : Canonical d) : Canonical (takeCodeword d gi l symbols bad) := by
  unfold takeCodeword
  repeat' first
    | with_reducible assumption
    | with_reducible apply capLine_canonical
    | with_reducible apply modLink_canonical
    | with_reducible apply setLink_canonical
    | with_reducible apply takeFrames_canonical
    | simp -implicitDefEqProofs only [Canonical.lit]
    | split
    | intro _
    | dsimp only

theorem doCodeword_canonical (d : Dev) (gi l : Nat) (symbols : List Nat) (h0 : Canonical d) : Canonical (doCodeword d gi l symbols) := by
  unfold doCodeword
  repeat' first
    | with_reducible assumption
    | with_reducible apply add_canonical
    | with_reducible apply capLine_canonical
    | with_reducible apply irq_canonical
    | with_reducible apply loseLane_canonical
    | with_reducible apply modLink_canonical
    | with_reducible apply raise_canonical
    | with_reducible apply takeCodeword_canonical
    | simp -implicitDefEqProofs only [Canonical.lit]
    | split
    | intro _
    | dsimp only

theorem doInjGo_canonical (d : Dev) (gi : Nat) (h0 : Canonical d) : Canonical (doInjGo d gi) := by
  unfold doInjGo
  repeat' first
    | with_reducible assumption
    | with_reducible apply modLink_canonical
    | with_reducible apply on_canonical
    | simp -implicitDefEqProofs only [Canonical.lit]
    | split
    | intro _
    | dsimp only

theorem doLgrpClr_canonical (d : Dev) (gi : Nat) (h0 : Canonical d) : Canonical (doLgrpClr d gi) := by
  unfold doLgrpClr
  repeat' first
    | with_reducible assumption
    | with_reducible apply resetRange_canonical
    | simp -implicitDefEqProofs only [Canonical.lit]
    | split
    | intro _
    | dsimp only

theorem doClrSlack_canonical (d : Dev) (gi : Nat) (h0 : Canonical d) : Canonical (doClrSlack d gi) := by
  unfold doClrSlack
  repeat' first
    | with_reducible assumption
    | with_reducible apply p_canonical
    | simp -implicitDefEqProofs only [Canonical.lit]
    | split
    | intro _
    | dsimp only

theorem testSample_canonical (d : Dev) (gi l : Nat) (bit : Bool) (h0 : Canonical d) : Canonical (testSample d gi l bit) := by
  unfold testSample
  repeat' first
    | with_reducible assumption
    | with_reducible apply capLine_canonical
    | with_reducible apply offerLane_canonical
    | with_reducible apply setLink_canonical
    | with_reducible apply stepEnd_canonical
    | simp -implicitDefEqProofs only [Canonical.lit]
    | split
    | intro _
    | dsimp only

theorem prbsBit_canonical (d : Dev) (gi l : Nat) (bit : Bool) (h0 : Canonical d) : Canonical (prbsBit d gi l bit) := by
  unfold prbsBit
  repeat' first
    | with_reducible assumption
    | with_reducible apply add_canonical
    | with_reducible apply id_canonical
    | with_reducible apply irq_canonical
    | with_reducible apply modLink_canonical
    | with_reducible apply putBit_canonical
    | with_reducible apply setLink_canonical
    | simp -implicitDefEqProofs only [Canonical.lit]
    | split
    | intro _
    | dsimp only

theorem generate_canonical (d : Dev) (gi l n : Nat) (h0 : Canonical d) : Canonical (generate d gi l n).1 := by
  unfold generate
  repeat' first
    | with_reducible assumption
    | with_reducible apply modLink_canonical
    | with_reducible apply setLink_canonical
    | simp -implicitDefEqProofs only [Canonical.lit]
    | split
    | intro _
    | dsimp only

theorem doPrbsCheck_canonical (d : Dev) (gi l : Nat) (bits : List Bool) (h0 : Canonical d) : Canonical (doPrbsCheck d gi l bits) := by
  unfold doPrbsCheck
  repeat' first
    | with_reducible assumption
    | with_reducible apply capLine_canonical
    | with_reducible apply each_canonical
    | with_reducible apply generate_canonical
    | with_reducible apply lineOut_canonical
    | with_reducible apply prbsBit_canonical
    | with_reducible apply testSample_canonical
    | simp -implicitDefEqProofs only [Canonical.lit]
    | split
    | intro _
    | dsimp only

theorem doBridgeEnable_canonical (d : Dev) (gi l : Nat) (tx rx : Bool) (h0 : Canonical d) : Canonical (doBridgeEnable d gi l tx rx) := by
  unfold doBridgeEnable
  repeat' first
    | with_reducible assumption
    | with_reducible apply modLink_canonical
    | with_reducible apply on_canonical
    | with_reducible apply p_canonical
    | with_reducible apply putBit_canonical
    | simp -implicitDefEqProofs only [Canonical.lit]
    | split
    | intro _
    | dsimp only

theorem bridgeStore_canonical (d : Dev) (gi l : Nat) (w : W64) (h0 : Canonical d) : Canonical (bridgeStore d gi l w) := by
  unfold bridgeStore
  repeat' first
    | with_reducible assumption
    | with_reducible apply add_canonical
    | with_reducible apply append_canonical
    | with_reducible apply dropWrite_canonical
    | with_reducible apply irq_canonical
    | with_reducible apply notifyKinds_canonical
    | simp -implicitDefEqProofs only [Canonical.lit]
    | split
    | intro _
    | dsimp only

theorem doBridgeReceive_canonical (d : Dev) (gi l : Nat) (w : W64) (h0 : Canonical d) : Canonical (doBridgeReceive d gi l w) := by
  unfold doBridgeReceive
  repeat' first
    | with_reducible assumption
    | with_reducible apply bridgeStore_canonical
    | with_reducible apply capLine_canonical
    | with_reducible apply modLink_canonical
    | with_reducible apply offerLane_canonical
    | with_reducible apply putBit_canonical
    | with_reducible apply setLink_canonical
    | simp -implicitDefEqProofs only [Canonical.lit]
    | split
    | intro _
    | dsimp only

theorem bridgeOut_canonical (d : Dev) (gi l : Nat) (w : W64) (h0 : Canonical d) : Canonical (bridgeOut d gi l w) := by
  unfold bridgeOut
  repeat' first
    | with_reducible assumption
    | with_reducible apply capLine_canonical
    | with_reducible apply emit_canonical
    | with_reducible apply lineOut_canonical
    | simp -implicitDefEqProofs only [Canonical.lit]
    | split
    | intro _
    | dsimp only

theorem doBridgeTransmit_canonical (d : Dev) (gi l : Nat) (h0 : Canonical d) : Canonical (doBridgeTransmit d gi l) := by
  unfold doBridgeTransmit
  repeat' first
    | with_reducible assumption
    | with_reducible apply bridgeOut_canonical
    | with_reducible apply markBound_canonical
    | simp -implicitDefEqProofs only [Canonical.lit]
    | split
    | intro _
    | dsimp only
    | with_reducible refine takeHead_canonical (by assumption) ?_

theorem nocError_canonical (d : Dev) (kind src dst vc x y : Nat) (h0 : Canonical d) : Canonical (nocError d kind src dst vc x y) := by
  unfold nocError
  repeat' first
    | with_reducible assumption
    | with_reducible apply on_canonical
    | with_reducible apply p_canonical
    | simp -implicitDefEqProofs only [Canonical.lit]
    | split
    | intro _
    | dsimp only

theorem headerError_canonical (d : Dev) (v x y : Nat) (h0 : Canonical d) : Canonical (headerError d v x y) := by
  unfold headerError
  repeat' first
    | with_reducible assumption
    | with_reducible apply add_canonical
    | with_reducible apply irq_canonical
    | with_reducible apply nocError_canonical
    | with_reducible apply raise_canonical
    | simp -implicitDefEqProofs only [Canonical.lit]
    | split
    | intro _
    | dsimp only

theorem headerFixed_canonical (d : Dev) (v x y : Nat) (h0 : Canonical d) : Canonical (headerFixed d v x y) := by
  unfold headerFixed
  repeat' first
    | with_reducible assumption
    | with_reducible apply add_canonical
    | with_reducible apply nocError_canonical
    | with_reducible apply raise_canonical
    | simp -implicitDefEqProofs only [Canonical.lit]
    | split
    | intro _
    | dsimp only

theorem checkPayload_canonical (d : Dev) (k : Packet) (h0 : Canonical d) : Canonical (checkPayload d k) := by
  unfold checkPayload
  repeat' first
    | with_reducible assumption
    | with_reducible apply add_canonical
    | with_reducible apply irq_canonical
    | with_reducible apply nocError_canonical
    | with_reducible apply raise_canonical
    | simp -implicitDefEqProofs only [Canonical.lit]
    | split
    | intro _
    | dsimp only

theorem runProbe_canonical (d : Dev) (k v x y out : Nat) (h0 : Canonical d) : Canonical (runProbe d k v x y out) := by
  unfold runProbe
  repeat' first
    | with_reducible assumption
    | with_reducible apply add_canonical
    | with_reducible apply offer_canonical
    | with_reducible apply traceProbe_canonical
    | simp -implicitDefEqProofs only [Canonical.lit]
    | split
    | intro _
    | dsimp only

theorem probeHeader_canonical (d : Dev) (v x y out : Nat) (h0 : Canonical d) : Canonical (probeHeader d v x y out) := by
  unfold probeHeader
  repeat' first
    | with_reducible assumption
    | with_reducible apply each_canonical
    | with_reducible apply runProbe_canonical
    | simp -implicitDefEqProofs only [Canonical.lit]
    | split
    | intro _
    | dsimp only

theorem setFlits_canonical (d : Dev) (x y inp vc : Nat) (fs : List Flit) (h0 : Canonical d) : Canonical (setFlits d x y inp vc fs) := by
  unfold setFlits
  repeat' first
    | with_reducible assumption
    | simp -implicitDefEqProofs only [Canonical.lit]
    | split
    | intro _
    | dsimp only

theorem setDrop_canonical (d : Dev) (x y inp vc : Nat) (on : Bool) (h0 : Canonical d) : Canonical (setDrop d x y inp vc on) := by
  unfold setDrop
  repeat' first
    | with_reducible assumption
    | with_reducible apply on_canonical
    | simp -implicitDefEqProofs only [Canonical.lit]
    | split
    | intro _
    | dsimp only

theorem checkHeader_canonical (d : Dev) (hdr : BitVec 256) (x y : Nat) (h0 : Canonical d) : Canonical (checkHeader d hdr x y).1 := by
  unfold checkHeader
  repeat' first
    | with_reducible assumption
    | with_reducible apply headerError_canonical
    | with_reducible apply headerFixed_canonical
    | with_reducible apply respond_canonical
    | simp -implicitDefEqProofs only [Canonical.lit]
    | split
    | intro _
    | dsimp only

theorem flitArrives_canonical (d : Dev) (x y inp vc : Nat) (f : Flit) (h0 : Canonical d) : Canonical (flitArrives d x y inp vc f) := by
  unfold flitArrives
  repeat' first
    | with_reducible assumption
    | with_reducible apply checkHeader_canonical
    | with_reducible apply setDrop_canonical
    | with_reducible apply setFlits_canonical
    | simp -implicitDefEqProofs only [Canonical.lit]
    | split
    | intro _
    | dsimp only

theorem paced_canonical (d : Dev) (x y out : Nat) (vc : Option Nat) (h0 : Canonical d) : Canonical (paced d x y out vc) := by
  unfold paced
  repeat' first
    | with_reducible assumption
    | simp -implicitDefEqProofs only [Canonical.lit]
    | split
    | intro _
    | dsimp only

theorem passFlit_canonical (d : Dev) (x y out vc inp : Nat) (h0 : Canonical d) : Canonical (passFlit d x y out vc inp) := by
  unfold passFlit
  repeat' first
    | with_reducible assumption
    | with_reducible apply emit_canonical
    | with_reducible apply flitArrives_canonical
    | with_reducible apply probeHeader_canonical
    | with_reducible apply setFlits_canonical
    | simp -implicitDefEqProofs only [Canonical.lit]
    | split
    | intro _
    | dsimp only

theorem outputClock_canonical (d : Dev) (x y out : Nat) (h0 : Canonical d) : Canonical (outputClock d x y out) := by
  unfold outputClock
  repeat' first
    | with_reducible assumption
    | with_reducible apply paced_canonical
    | with_reducible apply passFlit_canonical
    | simp -implicitDefEqProofs only [Canonical.lit]
    | split
    | intro _
    | dsimp only

theorem doPacketHop_canonical (d : Dev) (x y : Nat) (ins : List (Fin 9 × Fin 4 × Flit)) (h0 : Canonical d) : Canonical (doPacketHop d x y ins) := by
  unfold doPacketHop
  repeat' first
    | with_reducible assumption
    | with_reducible apply each_canonical
    | with_reducible apply flitArrives_canonical
    | with_reducible apply outputClock_canonical
    | with_reducible apply tick_canonical
    | simp -implicitDefEqProofs only [Canonical.lit]
    | split
    | intro _
    | dsimp only

theorem doRouteWrite_canonical (d : Dev) (port idx : Nat) (e : Nat) (h0 : Canonical d) : Canonical (doRouteWrite d port idx e) := by
  unfold doRouteWrite
  repeat' first
    | with_reducible assumption
    | with_reducible apply irq_canonical
    | with_reducible apply on_canonical
    | simp -implicitDefEqProofs only [Canonical.lit]
    | split
    | intro _
    | dsimp only

theorem courierFail_canonical (d : Dev) (src : Nat) (h0 : Canonical d) : Canonical (courierFail d src) := by
  unfold courierFail
  repeat' first
    | with_reducible assumption
    | with_reducible apply setCourier_canonical
    | simp -implicitDefEqProofs only [Canonical.lit]
    | split
    | intro _
    | dsimp only

theorem hostFail_canonical (d : Dev) (o : Outst) (h0 : Canonical d) : Canonical (hostFail d o) := by
  unfold hostFail
  repeat' first
    | with_reducible assumption
    | with_reducible apply accessError_canonical
    | with_reducible apply emit_canonical
    | simp -implicitDefEqProofs only [Canonical.lit]
    | split
    | intro _
    | dsimp only

theorem clusterFail_canonical (d : Dev) (o : Outst) (status : Nat) (h0 : Canonical d) : Canonical (clusterFail d o status) := by
  unfold clusterFail
  repeat' first
    | with_reducible assumption
    | with_reducible apply farAnswered_canonical
    | with_reducible apply farStatus_canonical
    | with_reducible apply farTimeout_canonical
    | with_reducible apply tick_canonical
    | simp -implicitDefEqProofs only [Canonical.lit]
    | split
    | intro _
    | dsimp only

theorem gatewayTakes_canonical (d : Dev) (gi : Nat) (k : Packet) (data : Bool) (h0 : Canonical d) : Canonical (gatewayTakes d gi k data) := by
  unfold gatewayTakes
  repeat' first
    | with_reducible assumption
    | with_reducible apply modLink_canonical
    | with_reducible apply sendWaiting_canonical
    | simp -implicitDefEqProofs only [Canonical.lit]
    | split
    | intro _
    | dsimp only

theorem failed_canonical (d : Dev) (o : Outst) (status : Nat) (h0 : Canonical d) : Canonical (failed d o status) := by
  unfold failed
  repeat' first
    | with_reducible assumption
    | with_reducible apply clusterFail_canonical
    | with_reducible apply courierFail_canonical
    | with_reducible apply gatewayTakes_canonical
    | with_reducible apply hostFail_canonical
    | with_reducible apply synthesise_canonical
    | simp -implicitDefEqProofs only [Canonical.lit]
    | split
    | intro _
    | dsimp only

theorem request_canonical (d : Dev) (k : Packet) (write : Bool) (serve : Packet → Dev → Req → Dev) (h0 : Canonical d) (hs : ∀ p e r, Canonical e → Canonical (serve p e r)) : Canonical (request d k write serve) := by
  unfold request
  repeat' first
    | with_reducible assumption
    | with_reducible apply hs
    | with_reducible apply failed_canonical
    | with_reducible apply noRoute_canonical
    | with_reducible apply respond_canonical
    | with_reducible apply headerError_canonical
    | with_reducible apply emit_canonical
    | with_reducible apply addOutst_canonical
    | simp -implicitDefEqProofs only [Canonical.lit]
    | split
    | intro _
    | dsimp only

theorem refuseAccess_canonical (d : Dev) (k : Packet) (r : Req) (write : Bool) (h0 : Canonical d) : Canonical (refuseAccess d k r write) := by
  unfold refuseAccess
  repeat' first
    | with_reducible assumption
    | with_reducible apply innerError_canonical
    | with_reducible apply respond_canonical
    | simp -implicitDefEqProofs only [Canonical.lit]
    | split
    | intro _
    | dsimp only

theorem serveRw_canonical (old : Dev) (write : Bool) (k : Packet) (d : Dev) (r : Req) (h0 : Canonical old) (h1 : Canonical d) : Canonical (serveRw old write k d r) := by
  unfold serveRw
  repeat' first
    | with_reducible assumption
    | with_reducible apply checkPayload_canonical
    | with_reducible apply emit_canonical
    | with_reducible apply hbmRead_canonical
    | with_reducible apply hbmWrite_canonical
    | with_reducible apply modLink_canonical
    | with_reducible apply refuseAccess_canonical
    | with_reducible apply respond_canonical
    | with_reducible apply tick_canonical
    | with_reducible apply unreachable_canonical
    | simp -implicitDefEqProofs only [Canonical.lit]
    | split
    | intro _
    | dsimp only
    | with_reducible refine sendFlits_canonical (by assumption) ?_

theorem serveQueue_canonical (write : Bool) (act : Packet → Dev → Nat → Dev) (k : Packet) (d : Dev) (r : Req) (h0 : Canonical d) (ha : ∀ p e q, Canonical e → Canonical (act p e q)) : Canonical (serveQueue write act k d r) := by
  unfold serveQueue
  repeat' first
    | with_reducible assumption
    | with_reducible apply ha
    | with_reducible apply unreachable_canonical
    | with_reducible apply respond_canonical
    | with_reducible apply refuseAccess_canonical
    | with_reducible apply checkPayload_canonical
    | simp -implicitDefEqProofs only [Canonical.lit]
    | split
    | intro _
    | dsimp only

theorem dropQwr_canonical (d : Dev) (q : Nat) (k : Packet) (h0 : Canonical d) : Canonical (dropQwr d q k) := by
  unfold dropQwr
  repeat' first
    | with_reducible assumption
    | with_reducible apply dropWrite_canonical
    | with_reducible apply notifyKinds_canonical
    | with_reducible apply respond_canonical
    | simp -implicitDefEqProofs only [Canonical.lit]
    | split
    | intro _
    | dsimp only

theorem doQwr_canonical (k : Packet) (d : Dev) (q : Nat) (h0 : Canonical d) : Canonical (doQwr k d q) := by
  unfold doQwr
  repeat' first
    | with_reducible assumption
    | with_reducible apply acceptQwr_canonical
    | with_reducible apply dropQwr_canonical
    | with_reducible apply setQueue_canonical
    | simp -implicitDefEqProofs only [Canonical.lit]
    | split
    | intro _
    | dsimp only

theorem doQrd_canonical (k : Packet) (d : Dev) (q : Nat) (h0 : Canonical d) : Canonical (doQrd k d q) := by
  unfold doQrd
  repeat' first
    | with_reducible assumption
    | with_reducible apply answerQrd_canonical
    | with_reducible apply markBound_canonical
    | with_reducible apply modQueue_canonical
    | with_reducible apply respond_canonical
    | simp -implicitDefEqProofs only [Canonical.lit]
    | split
    | intro _
    | dsimp only

theorem markDataErr_canonical (d : Dev) (b : CapBlk) (h0 : Canonical d) : Canonical (markDataErr d b) := by
  unfold markDataErr
  repeat' first
    | with_reducible assumption
    | with_reducible apply hbmGet_canonical
    | with_reducible apply hbmPut_canonical
    | with_reducible apply setChan_canonical
    | simp -implicitDefEqProofs only [Canonical.lit]
    | split
    | intro _
    | dsimp only

theorem countDataErr_canonical (d : Dev) (h0 : Canonical d) : Canonical (countDataErr d) := by
  unfold countDataErr
  repeat' first
    | with_reducible assumption
    | with_reducible apply add_canonical
    | with_reducible apply irq_canonical
    | simp -implicitDefEqProofs only [Canonical.lit]
    | split
    | intro _
    | dsimp only

theorem doCapWr_canonical (d : Dev) (k : Packet) (h0 : Canonical d) : Canonical (doCapWr d k) := by
  unfold doCapWr
  repeat' first
    | with_reducible assumption
    | with_reducible apply checkPayload_canonical
    | with_reducible apply countDataErr_canonical
    | with_reducible apply hbmWrite_canonical
    | with_reducible apply iff_canonical
    | with_reducible apply markDataErr_canonical
    | with_reducible apply raise_canonical
    | simp -implicitDefEqProofs only [Canonical.lit]
    | split
    | intro _
    | dsimp only

theorem blockWritten_canonical (d : Dev) (s : Nat) (h0 : Canonical d) : Canonical (blockWritten d s) := by
  unfold blockWritten
  repeat' first
    | with_reducible assumption
    | with_reducible apply add_canonical
    | with_reducible apply modStrm_canonical
    | with_reducible apply on_canonical
    | with_reducible apply p_canonical
    | with_reducible apply stopStream_canonical
    | with_reducible apply traceIrq_canonical
    | simp -implicitDefEqProofs only [Canonical.lit]
    | split
    | intro _
    | dsimp only

theorem doTrcWr_canonical (d : Dev) (k : Packet) (h0 : Canonical d) : Canonical (doTrcWr d k) := by
  unfold doTrcWr
  repeat' first
    | with_reducible assumption
    | with_reducible apply blockWritten_canonical
    | with_reducible apply checkPayload_canonical
    | with_reducible apply emit_canonical
    | with_reducible apply hbmWrite_canonical
    | with_reducible apply iff_canonical
    | with_reducible apply loseBlock_canonical
    | with_reducible apply noteLoss_canonical
    | with_reducible apply setStrm_canonical
    | simp -implicitDefEqProofs only [Canonical.lit]
    | split
    | intro _
    | dsimp only

theorem lateRsp_canonical (d : Dev) (h0 : Canonical d) : Canonical (lateRsp d) := by
  unfold lateRsp
  repeat' first
    | with_reducible assumption
    | with_reducible apply add_canonical
    | simp -implicitDefEqProofs only [Canonical.lit]
    | split
    | intro _
    | dsimp only

theorem poison_canonical (d : Dev) (fn : Fn) (a : Nat) (bs : List Byte) (h0 : Canonical d) : Canonical (poison d fn a bs) := by
  unfold poison
  repeat' first
    | with_reducible assumption
    | with_reducible apply add_canonical
    | with_reducible apply emit_canonical
    | with_reducible apply irq_canonical
    | with_reducible apply on_canonical
    | simp -implicitDefEqProofs only [Canonical.lit]
    | split
    | intro _
    | dsimp only

theorem deliver_canonical (d : Dev) (o : Outst) (k : Packet) (data : Bool) (h0 : Canonical d) : Canonical (deliver d o k data) := by
  unfold deliver
  repeat' first
    | with_reducible assumption
    | with_reducible apply accessError_canonical
    | with_reducible apply checkPayload_canonical
    | with_reducible apply courierFail_canonical
    | with_reducible apply emit_canonical
    | with_reducible apply farAnswered_canonical
    | with_reducible apply farStatus_canonical
    | with_reducible apply hostFail_canonical
    | with_reducible apply poison_canonical
    | with_reducible apply tick_canonical
    | simp -implicitDefEqProofs only [Canonical.lit]
    | split
    | intro _
    | dsimp only

theorem doResponse_canonical (d : Dev) (k : Packet) (data : Bool) (h0 : Canonical d) : Canonical (doResponse d k data) := by
  unfold doResponse
  repeat' first
    | with_reducible assumption
    | with_reducible apply deliver_canonical
    | with_reducible apply freeOutst_canonical
    | with_reducible apply gatewayTakes_canonical
    | with_reducible apply lateRsp_canonical
    | simp -implicitDefEqProofs only [Canonical.lit]
    | split
    | intro _
    | dsimp only

theorem doRspTimeout_canonical (d : Dev) (src tag : Nat) (h0 : Canonical d) : Canonical (doRspTimeout d src tag) := by
  unfold doRspTimeout
  repeat' first
    | with_reducible assumption
    | with_reducible apply add_canonical
    | with_reducible apply failed_canonical
    | with_reducible apply freeOutst_canonical
    | with_reducible apply raise_canonical
    | simp -implicitDefEqProofs only [Canonical.lit]
    | split
    | intro _
    | dsimp only

theorem doQuarantineEnd_canonical (d : Dev) (src tag : Nat) (h0 : Canonical d) : Canonical (doQuarantineEnd d src tag) := by
  unfold doQuarantineEnd
  repeat' first
    | with_reducible assumption
    | simp -implicitDefEqProofs only [Canonical.lit]
    | split
    | intro _
    | dsimp only

theorem doDrainComplete_canonical (d : Dev) (n : Nat) (h0 : Canonical d) : Canonical (doDrainComplete d n) := by
  unfold doDrainComplete
  repeat' first
    | with_reducible assumption
    | with_reducible apply fenceNi_canonical
    | simp -implicitDefEqProofs only [Canonical.lit]
    | split
    | intro _
    | dsimp only

theorem doDrainTimeout_canonical (d : Dev) (n : Nat) (h0 : Canonical d) : Canonical (doDrainTimeout d n) := by
  unfold doDrainTimeout
  repeat' first
    | with_reducible assumption
    | with_reducible apply abandon_canonical
    | with_reducible apply add_canonical
    | with_reducible apply each_canonical
    | with_reducible apply fenceNi_canonical
    | with_reducible apply irq_canonical
    | with_reducible apply landFar_canonical
    | with_reducible apply nocError_canonical
    | with_reducible apply p_canonical
    | with_reducible apply raise_canonical
    | with_reducible apply setFar_canonical
    | with_reducible apply settleFences_canonical
    | with_reducible apply tick_canonical
    | simp -implicitDefEqProofs only [Canonical.lit]
    | split
    | intro _
    | dsimp only

theorem unfenceNi_canonical (d : Dev) (n : Nat) (h0 : Canonical d) : Canonical (unfenceNi d n) := by
  unfold unfenceNi
  repeat' first
    | with_reducible assumption
    | with_reducible apply p_canonical
    | with_reducible apply settleFences_canonical
    | simp -implicitDefEqProofs only [Canonical.lit]
    | split
    | intro _
    | dsimp only

theorem doUnfence_canonical (d : Dev) (n : Nat) (h0 : Canonical d) : Canonical (doUnfence d n) := by
  unfold doUnfence
  repeat' first
    | with_reducible assumption
    | with_reducible apply unfenceNi_canonical
    | simp -implicitDefEqProofs only [Canonical.lit]
    | split
    | intro _
    | dsimp only

theorem doNocClr_canonical (d : Dev) (h0 : Canonical d) : Canonical (doNocClr d) := by
  unfold doNocClr
  repeat' first
    | with_reducible assumption
    | with_reducible apply each_canonical
    | with_reducible apply resetRange_canonical
    | simp -implicitDefEqProofs only [Canonical.lit]
    | split
    | intro _
    | dsimp only
end Sys2Proof.Machine.Dev
end

