-- ==== Sys2Proof/Laws/KeepCanonical6.lean ====
section
/-! SUPPORT. The register fields and HBM stay in their canonical form under power, the ring and host accesses: one lemma for each function. -/

set_option linter.all false

namespace Sys2Proof.Machine.Dev

set_option Elab.async false


theorem bare_canonical (d : Dev) (h0 : Canonical d) : Canonical (bare d) := by
  unfold bare
  repeat' first
    | with_reducible assumption
    | with_reducible apply reset_canonical
    | simp -implicitDefEqProofs only [Canonical.lit]
    | split
    | intro _
    | dsimp only

theorem perst_canonical (d : Dev) (cause : Nat) (st : Power) (h0 : Canonical d) : Canonical (perst d cause st) := by
  unfold perst
  repeat' first
    | with_reducible assumption
    | with_reducible apply Canonical.filter
    | with_reducible apply add_canonical
    | with_reducible apply p_canonical
    | with_reducible apply bare_canonical
    | with_reducible apply cutBurns_canonical
    | simp -implicitDefEqProofs only [Canonical.lit]
    | split
    | intro _
    | dsimp only

theorem powerOn_canonical (d : Dev) (h0 : Canonical d) : Canonical (powerOn d) := by
  unfold powerOn
  repeat' first
    | with_reducible assumption
    | with_reducible apply bare_canonical
    | simp -implicitDefEqProofs only [Canonical.lit]
    | split
    | intro _
    | dsimp only

theorem doVauxLoss_canonical (d : Dev) (h0 : Canonical d) : Canonical (doVauxLoss d) := by
  unfold doVauxLoss
  repeat' first
    | with_reducible assumption
    | with_reducible apply bare_canonical
    | with_reducible apply cutBurns_canonical
    | with_reducible apply emit_canonical
    | with_reducible apply iff_canonical
    | with_reducible apply wake_canonical
    | simp -implicitDefEqProofs only [Canonical.lit]
    | split
    | intro _
    | dsimp only

theorem doVin48Up_canonical (d : Dev) (h0 : Canonical d) : Canonical (doVin48Up d) := by
  unfold doVin48Up
  repeat' first
    | with_reducible assumption
    | with_reducible apply on_canonical
    | simp -implicitDefEqProofs only [Canonical.lit]
    | split
    | intro _
    | dsimp only

theorem doVin48Loss_canonical (d : Dev) (h0 : Canonical d) : Canonical (doVin48Loss d) := by
  unfold doVin48Loss
  repeat' first
    | with_reducible assumption
    | with_reducible apply lastGasp_canonical
    | with_reducible apply perst_canonical
    | with_reducible apply tick_canonical
    | simp -implicitDefEqProofs only [Canonical.lit]
    | split
    | intro _
    | dsimp only

theorem doPerstAssert_canonical (d : Dev) (h0 : Canonical d) : Canonical (doPerstAssert d) := by
  unfold doPerstAssert
  repeat' first
    | with_reducible assumption
    | with_reducible apply p_canonical
    | with_reducible apply perst_canonical
    | simp -implicitDefEqProofs only [Canonical.lit]
    | split
    | intro _
    | dsimp only

theorem doPerstDeassert_canonical (d : Dev) (h0 : Canonical d) : Canonical (doPerstDeassert d) := by
  unfold doPerstDeassert
  repeat' first
    | with_reducible assumption
    | with_reducible apply perst_canonical
    | simp -implicitDefEqProofs only [Canonical.lit]
    | split
    | intro _
    | dsimp only

theorem trainPcie_canonical (d : Dev) (h0 : Canonical d) : Canonical (trainPcie d) := by
  unfold trainPcie
  repeat' first
    | with_reducible assumption
    | with_reducible apply p_canonical
    | simp -implicitDefEqProofs only [Canonical.lit]
    | split
    | intro _
    | dsimp only

theorem doStartup_canonical (d : Dev) (refclk healthOk : Bool) (h0 : Canonical d) : Canonical (doStartup d refclk healthOk) := by
  unfold doStartup
  repeat' first
    | with_reducible assumption
    | with_reducible apply emit_canonical
    | with_reducible apply irq_canonical
    | with_reducible apply on_canonical
    | with_reducible apply p_canonical
    | with_reducible apply raise_canonical
    | with_reducible apply romStart_canonical
    | with_reducible apply setAuthMode_canonical
    | with_reducible apply setBoot_canonical
    | with_reducible apply tick_canonical
    | with_reducible apply trainPcie_canonical
    | with_reducible apply wake_canonical
    | simp -implicitDefEqProofs only [Canonical.lit]
    | split
    | intro _
    | dsimp only

theorem doDevice_canonical (d : Dev) (h0 : Canonical d) : Canonical (doDevice d) := by
  unfold doDevice
  repeat' first
    | with_reducible assumption
    | with_reducible apply perst_canonical
    | simp -implicitDefEqProofs only [Canonical.lit]
    | split
    | intro _
    | dsimp only

theorem resetFn_canonical (d : Dev) (fn : Fn) (h0 : Canonical d) : Canonical (resetFn d fn) := by
  unfold resetFn
  repeat' first
    | with_reducible assumption
    | with_reducible apply resetRange_canonical
    | simp -implicitDefEqProofs only [Canonical.lit]
    | split
    | intro _
    | dsimp only

theorem beginFnReset_canonical (d : Dev) (fn : Fn) (h0 : Canonical d) : Canonical (beginFnReset d fn) := by
  unfold beginFnReset
  repeat' first
    | with_reducible assumption
    | with_reducible apply resetFn_canonical
    | simp -implicitDefEqProofs only [Canonical.lit]
    | split
    | intro _
    | dsimp only

theorem resetPtns_canonical (d : Dev) (mask : Nat) (h0 : Canonical d) : Canonical (resetPtns d mask) := by
  unfold resetPtns
  repeat' first
    | with_reducible assumption
    | with_reducible apply each_canonical
    | with_reducible apply ptnResetReq_canonical
    | simp -implicitDefEqProofs only [Canonical.lit]
    | split
    | intro _
    | dsimp only

theorem doPtnReset_canonical (d : Dev) (mask : Nat) (h0 : Canonical d) : Canonical (doPtnReset d mask) := by
  unfold doPtnReset
  repeat' first
    | with_reducible assumption
    | with_reducible apply each_canonical
    | with_reducible apply ptnResetReq_canonical
    | simp -implicitDefEqProofs only [Canonical.lit]
    | split
    | intro _
    | dsimp only

theorem clearVfs_canonical (d : Dev) (h0 : Canonical d) : Canonical (clearVfs d) := by
  unfold clearVfs
  repeat' first
    | with_reducible assumption
    | with_reducible apply each_canonical
    | with_reducible apply resetFn_canonical
    | simp -implicitDefEqProofs only [Canonical.lit]
    | split
    | intro _
    | dsimp only

theorem doFlrPf_canonical (d : Dev) (h0 : Canonical d) : Canonical (doFlrPf d) := by
  unfold doFlrPf
  repeat' first
    | with_reducible assumption
    | with_reducible apply beginFnReset_canonical
    | with_reducible apply clearStaging_canonical
    | with_reducible apply clearVfs_canonical
    | with_reducible apply each_canonical
    | with_reducible apply on_canonical
    | with_reducible apply p_canonical
    | with_reducible apply resetPtns_canonical
    | with_reducible apply setBoot_canonical
    | simp -implicitDefEqProofs only [Canonical.lit]
    | split
    | intro _
    | dsimp only

theorem doFlrVf_canonical (d : Dev) (p : Fin 16) (h0 : Canonical d) : Canonical (doFlrVf d p) := by
  unfold doFlrVf
  repeat' first
    | with_reducible assumption
    | with_reducible apply beginFnReset_canonical
    | with_reducible apply p_canonical
    | with_reducible apply ptnResetReq_canonical
    | simp -implicitDefEqProofs only [Canonical.lit]
    | split
    | intro _
    | dsimp only

theorem doFnResetDone_canonical (d : Dev) (fn : Fn) (h0 : Canonical d) : Canonical (doFnResetDone d fn) := by
  unfold doFnResetDone
  repeat' first
    | with_reducible assumption
    | simp -implicitDefEqProofs only [Canonical.lit]
    | split
    | intro _
    | dsimp only

theorem doVfClear_canonical (d : Dev) (h0 : Canonical d) : Canonical (doVfClear d) := by
  unfold doVfClear
  repeat' first
    | with_reducible assumption
    | with_reducible apply clearVfs_canonical
    | with_reducible apply resetPtns_canonical
    | with_reducible apply foldl_canonical
    | with_reducible apply fold1_canonical
    | simp -implicitDefEqProofs only [Canonical.lit]
    | split
    | intro _
    | dsimp only

theorem doVfSet_canonical (d : Dev) (num : Nat) (h0 : Canonical d) : Canonical (doVfSet d num) := by
  unfold doVfSet
  repeat' first
    | with_reducible assumption
    | with_reducible apply tick_canonical
    | simp -implicitDefEqProofs only [Canonical.lit]
    | split
    | intro _
    | dsimp only

theorem doClusterWake_canonical (d : Dev) (ns : List Nat) (h0 : Canonical d) : Canonical (doClusterWake d ns) := by
  unfold doClusterWake
  repeat' first
    | with_reducible assumption
    | with_reducible apply each_canonical
    | with_reducible apply wake_canonical
    | simp -implicitDefEqProofs only [Canonical.lit]
    | split
    | intro _
    | dsimp only

theorem doIdleDelay_canonical (d : Dev) (i : Nat) (h0 : Canonical d) : Canonical (doIdleDelay d i) := by
  unfold doIdleDelay
  repeat' first
    | with_reducible assumption
    | with_reducible apply each_canonical
    | with_reducible apply setPower_canonical
    | simp -implicitDefEqProofs only [Canonical.lit]
    | split
    | intro _
    | dsimp only

theorem doOffDelay_canonical (d : Dev) (n : Nat) (h0 : Canonical d) : Canonical (doOffDelay d n) := by
  unfold doOffDelay
  repeat' first
    | with_reducible assumption
    | with_reducible apply doDrainComplete_canonical
    | with_reducible apply drainNi_canonical
    | with_reducible apply setPower_canonical
    | simp -implicitDefEqProofs only [Canonical.lit]
    | split
    | intro _
    | dsimp only

theorem doPowerOnCluster_canonical (d : Dev) (n : Nat) (h0 : Canonical d) : Canonical (doPowerOnCluster d n) := by
  unfold doPowerOnCluster
  repeat' first
    | with_reducible assumption
    | with_reducible apply freshCluster_canonical
    | with_reducible apply iff_canonical
    | with_reducible apply setPower_canonical
    | with_reducible apply unfenceNi_canonical
    | with_reducible apply wake_canonical
    | simp -implicitDefEqProofs only [Canonical.lit]
    | split
    | intro _
    | dsimp only

theorem latchWake_canonical (d : Dev) (src : Nat) (h0 : Canonical d) : Canonical (latchWake d src) := by
  unfold latchWake
  repeat' first
    | with_reducible assumption
    | with_reducible apply emit_canonical
    | with_reducible apply on_canonical
    | with_reducible apply p_canonical
    | with_reducible apply wake_canonical
    | simp -implicitDefEqProofs only [Canonical.lit]
    | split
    | intro _
    | dsimp only

theorem doWake_canonical (d : Dev) (src : Nat) (h0 : Canonical d) : Canonical (doWake d src) := by
  unfold doWake
  repeat' first
    | with_reducible assumption
    | with_reducible apply latchWake_canonical
    | simp -implicitDefEqProofs only [Canonical.lit]
    | split
    | intro _
    | dsimp only

theorem setWarden_canonical (d : Dev) (st : Nat) (h0 : Canonical d) : Canonical (setWarden d st) := by
  unfold setWarden
  repeat' first
    | with_reducible assumption
    | with_reducible apply p_canonical
    | with_reducible apply traceWarden_canonical
    | simp -implicitDefEqProofs only [Canonical.lit]
    | split
    | intro _
    | dsimp only

theorem coresFrom_canonical (d : Dev) (a b : Nat) (h0 : Canonical d) : Canonical (coresFrom d a b) := by
  unfold coresFrom
  repeat' first
    | with_reducible assumption
    | with_reducible apply each_canonical
    | with_reducible apply p_canonical
    | with_reducible apply tracePup_canonical
    | simp -implicitDefEqProofs only [Canonical.lit]
    | split
    | intro _
    | dsimp only

theorem doHeartbeat_canonical (d : Dev) (v : Nat) (h0 : Canonical d) : Canonical (doHeartbeat d v) := by
  unfold doHeartbeat
  repeat' first
    | with_reducible assumption
    | with_reducible apply add_canonical
    | with_reducible apply coresFrom_canonical
    | with_reducible apply p_canonical
    | with_reducible apply setWarden_canonical
    | simp -implicitDefEqProofs only [Canonical.lit]
    | split
    | intro _
    | dsimp only

theorem doHeartbeatTimeout_canonical (d : Dev) (h0 : Canonical d) : Canonical (doHeartbeatTimeout d) := by
  unfold doHeartbeatTimeout
  repeat' first
    | with_reducible assumption
    | with_reducible apply coresFrom_canonical
    | with_reducible apply irq_canonical
    | with_reducible apply raise_canonical
    | with_reducible apply setWarden_canonical
    | simp -implicitDefEqProofs only [Canonical.lit]
    | split
    | intro _
    | dsimp only

theorem controlledStop_canonical (d : Dev) (cause : Nat) (h0 : Canonical d) : Canonical (controlledStop d cause) := by
  unfold controlledStop
  repeat' first
    | with_reducible assumption
    | with_reducible apply drainNi_canonical
    | with_reducible apply each_canonical
    | with_reducible apply hardReq_canonical
    | with_reducible apply lastGasp_canonical
    | with_reducible apply p_canonical
    | with_reducible apply perst_canonical
    | with_reducible apply raise_canonical
    | with_reducible apply raiseSysFreeze_canonical
    | with_reducible apply setWarden_canonical
    | simp -implicitDefEqProofs only [Canonical.lit]
    | split
    | intro _
    | dsimp only

theorem doGraceTimeout_canonical (d : Dev) (h0 : Canonical d) : Canonical (doGraceTimeout d) := by
  unfold doGraceTimeout
  repeat' first
    | with_reducible assumption
    | with_reducible apply controlledStop_canonical
    | simp -implicitDefEqProofs only [Canonical.lit]
    | split
    | intro _
    | dsimp only

theorem doTemperature_canonical (d : Dev) (q celsius : Nat) (h0 : Canonical d) : Canonical (doTemperature d q celsius) := by
  unfold doTemperature
  repeat' first
    | with_reducible assumption
    | with_reducible apply controlledStop_canonical
    | with_reducible apply p_canonical
    | simp -implicitDefEqProofs only [Canonical.lit]
    | split
    | intro _
    | dsimp only

theorem doPllLost_canonical (d : Dev) (h0 : Canonical d) : Canonical (doPllLost d) := by
  unfold doPllLost
  repeat' first
    | with_reducible assumption
    | with_reducible apply controlledStop_canonical
    | with_reducible apply p_canonical
    | simp -implicitDefEqProofs only [Canonical.lit]
    | split
    | intro _
    | dsimp only

theorem doStopDrain_canonical (d : Dev) (h0 : Canonical d) : Canonical (doStopDrain d) := by
  unfold doStopDrain
  repeat' first
    | with_reducible assumption
    | with_reducible apply doDrainTimeout_canonical
    | with_reducible apply each_canonical
    | simp -implicitDefEqProofs only [Canonical.lit]
    | split
    | intro _
    | dsimp only

theorem doStopComplete_canonical (d : Dev) (h0 : Canonical d) : Canonical (doStopComplete d) := by
  unfold doStopComplete
  repeat' first
    | with_reducible assumption
    | with_reducible apply latchWake_canonical
    | with_reducible apply p_canonical
    | with_reducible apply perst_canonical
    | simp -implicitDefEqProofs only [Canonical.lit]
    | split
    | intro _
    | dsimp only

theorem writeLgrpCfg_canonical (d : Dev) (gi v : Nat) (h0 : Canonical d) : Canonical (writeLgrpCfg d gi v) := by
  unfold writeLgrpCfg
  repeat' first
    | with_reducible assumption
    | with_reducible apply doLaneDisable_canonical
    | with_reducible apply doLaneEnable_canonical
    | with_reducible apply doLaneTest_canonical
    | with_reducible apply p_canonical
    | simp -implicitDefEqProofs only [Canonical.lit]
    | split
    | intro _
    | dsimp only

theorem doStringJoin_canonical (d : Dev) (h0 : Canonical d) : Canonical (doStringJoin d) := by
  unfold doStringJoin
  repeat' first
    | with_reducible assumption
    | with_reducible apply on_canonical
    | with_reducible apply p_canonical
    | simp -implicitDefEqProofs only [Canonical.lit]
    | split
    | intro _
    | dsimp only

theorem doStringOpen_canonical (d : Dev) (h0 : Canonical d) : Canonical (doStringOpen d) := by
  unfold doStringOpen
  repeat' first
    | with_reducible assumption
    | with_reducible apply p_canonical
    | simp -implicitDefEqProofs only [Canonical.lit]
    | split
    | intro _
    | dsimp only

theorem doStringLeave_canonical (d : Dev) (h0 : Canonical d) : Canonical (doStringLeave d) := by
  unfold doStringLeave
  repeat' first
    | with_reducible assumption
    | with_reducible apply p_canonical
    | simp -implicitDefEqProofs only [Canonical.lit]
    | split
    | intro _
    | dsimp only

theorem doStringBroken_canonical (d : Dev) (h0 : Canonical d) : Canonical (doStringBroken d) := by
  unfold doStringBroken
  repeat' first
    | with_reducible assumption
    | with_reducible apply irq_canonical
    | with_reducible apply p_canonical
    | simp -implicitDefEqProofs only [Canonical.lit]
    | split
    | intro _
    | dsimp only

theorem frameIn_canonical (d : Dev) (f : RingFrame) (own : Bool) (back : Dev → Dev) (act : Dev → Dev × List Byte) (h0 : Canonical d) (hb : ∀ e, Canonical e → Canonical (back e)) (ha : ∀ e, Canonical e → Canonical (act e).1) : Canonical (frameIn d f own back act) := by
  unfold frameIn
  repeat' first
    | with_reducible assumption
    | with_reducible apply hb
    | with_reducible apply ha
    | with_reducible apply add_canonical
    | with_reducible apply p_canonical
    | with_reducible apply ringOut_canonical
    | simp -implicitDefEqProofs only [Canonical.lit]
    | split
    | intro _
    | dsimp only

theorem onceFor_canonical (d : Dev) (kind src n : Nat) (act : Dev → Dev) (h0 : Canonical d) (ha : ∀ e, Canonical e → Canonical (act e)) : Canonical (onceFor d kind src n act) := by
  unfold onceFor
  repeat' first
    | with_reducible assumption
    | with_reducible apply ha
    | simp -implicitDefEqProofs only [Canonical.lit]
    | split
    | intro _
    | dsimp only

theorem takeNumber_canonical (d : Dev) (n : Nat) (h0 : Canonical d) : Canonical (takeNumber d n) := by
  unfold takeNumber
  repeat' first
    | with_reducible assumption
    | with_reducible apply irq_canonical
    | with_reducible apply p_canonical
    | simp -implicitDefEqProofs only [Canonical.lit]
    | split
    | intro _
    | dsimp only

theorem doDiscover_canonical (d : Dev) (h0 : Canonical d) : Canonical (doDiscover d) := by
  unfold doDiscover
  repeat' first
    | with_reducible assumption
    | with_reducible apply ringSend_canonical
    | simp -implicitDefEqProofs only [Canonical.lit]
    | split
    | intro _
    | dsimp only

theorem doCollect_canonical (d : Dev) (src n ttl map : Nat) (crc : W32) (h0 : Canonical d) : Canonical (doCollect d src n ttl map crc) := by
  unfold doCollect
  repeat' first
    | with_reducible assumption
    | with_reducible apply frameIn_canonical
    | with_reducible apply ringSend_canonical
    | with_reducible apply takeNumber_canonical
    | simp -implicitDefEqProofs only [Canonical.lit]
    | split
    | intro _
    | dsimp only

theorem doAssign_canonical (d : Dev) (src n ttl map : Nat) (crc : W32) (h0 : Canonical d) : Canonical (doAssign d src n ttl map crc) := by
  unfold doAssign
  repeat' first
    | with_reducible assumption
    | with_reducible apply frameIn_canonical
    | with_reducible apply on_canonical
    | with_reducible apply p_canonical
    | with_reducible apply takeNumber_canonical
    | simp -implicitDefEqProofs only [Canonical.lit]
    | split
    | intro _
    | dsimp only

theorem doStringBeacon_canonical (d : Dev) (src n ttl ns frac : Nat) (crc : W32) (h0 : Canonical d) : Canonical (doStringBeacon d src n ttl ns frac crc) := by
  unfold doStringBeacon
  repeat' first
    | with_reducible assumption
    | with_reducible apply frameIn_canonical
    | with_reducible apply id_canonical
    | with_reducible apply ringBeacon_canonical
    | simp -implicitDefEqProofs only [Canonical.lit]
    | split
    | intro _
    | dsimp only

theorem freezeOwn_canonical (d : Dev) (i : Nat) (h0 : Canonical d) : Canonical (freezeOwn d i) := by
  unfold freezeOwn
  repeat' first
    | with_reducible assumption
    | with_reducible apply freezeReq_canonical
    | with_reducible apply modPtn_canonical
    | with_reducible apply on_canonical
    | simp -implicitDefEqProofs only [Canonical.lit]
    | split
    | intro _
    | dsimp only

theorem ringFreeze_canonical (d : Dev) (origin n : Nat) (h0 : Canonical d) : Canonical (ringFreeze d origin n) := by
  unfold ringFreeze
  repeat' first
    | with_reducible assumption
    | with_reducible apply controlAll_canonical
    | with_reducible apply each_canonical
    | with_reducible apply freezeOwn_canonical
    | with_reducible apply on_canonical
    | with_reducible apply p_canonical
    | with_reducible apply raise_canonical
    | simp -implicitDefEqProofs only [Canonical.lit]
    | split
    | intro _
    | dsimp only

theorem doStringFreeze_canonical (d : Dev) (src n ttl origin num : Nat) (crc : W32) (h0 : Canonical d) : Canonical (doStringFreeze d src n ttl origin num crc) := by
  unfold doStringFreeze
  repeat' first
    | with_reducible assumption
    | with_reducible apply frameIn_canonical
    | with_reducible apply id_canonical
    | with_reducible apply onceFor_canonical
    | with_reducible apply ringFreeze_canonical
    | simp -implicitDefEqProofs only [Canonical.lit]
    | split
    | intro _
    | dsimp only

theorem doStringStrobe_canonical (d : Dev) (src n ttl : Nat) (crc : W32) (h0 : Canonical d) : Canonical (doStringStrobe d src n ttl crc) := by
  unfold doStringStrobe
  repeat' first
    | with_reducible assumption
    | with_reducible apply frameIn_canonical
    | with_reducible apply id_canonical
    | with_reducible apply onceFor_canonical
    | with_reducible apply strobeReq_canonical
    | simp -implicitDefEqProofs only [Canonical.lit]
    | split
    | intro _
    | dsimp only

theorem doResetReq_canonical (d : Dev) (src n dest ttl : Nat) (crc : W32) (h0 : Canonical d) : Canonical (doResetReq d src n dest ttl crc) := by
  unfold doResetReq
  repeat' first
    | with_reducible assumption
    | with_reducible apply frameIn_canonical
    | with_reducible apply id_canonical
    | with_reducible apply onceFor_canonical
    | with_reducible apply perst_canonical
    | simp -implicitDefEqProofs only [Canonical.lit]
    | split
    | intro _
    | dsimp only

theorem doMsg_canonical (d : Dev) (src n dest ttl : Nat) (cfg : List (Nat × Nat)) (crc : W32) (h0 : Canonical d) : Canonical (doMsg d src n dest ttl cfg crc) := by
  unfold doMsg
  repeat' first
    | with_reducible assumption
    | with_reducible apply each_canonical
    | with_reducible apply frameIn_canonical
    | with_reducible apply id_canonical
    | with_reducible apply writeLgrpCfg_canonical
    | simp -implicitDefEqProofs only [Canonical.lit]
    | split
    | intro _
    | dsimp only

theorem doResetReqSend_canonical (d : Dev) (h0 : Canonical d) : Canonical (doResetReqSend d) := by
  unfold doResetReqSend
  repeat' first
    | with_reducible assumption
    | with_reducible apply ringSend_canonical
    | simp -implicitDefEqProofs only [Canonical.lit]
    | split
    | intro _
    | dsimp only

theorem doRepeat_canonical (d : Dev) (h0 : Canonical d) : Canonical (doRepeat d) := by
  unfold doRepeat
  repeat' first
    | with_reducible assumption
    | with_reducible apply ringOut_canonical
    | simp -implicitDefEqProofs only [Canonical.lit]
    | split
    | intro _
    | dsimp only

theorem doStringBeaconSend_canonical (d : Dev) (h0 : Canonical d) : Canonical (doStringBeaconSend d) := by
  unfold doStringBeaconSend
  repeat' first
    | with_reducible assumption
    | with_reducible apply ringSend_canonical
    | simp -implicitDefEqProofs only [Canonical.lit]
    | split
    | intro _
    | dsimp only

theorem reachPlace_canonical (d : Dev) (fn : Fn) (a : Nat) (write : Bool) (ones : Nat) (k : Dev → Place → Dev) (h0 : Canonical d) (hk : ∀ e pl, Canonical e → Canonical (k e pl)) : Canonical (reachPlace d fn a write ones k) := by
  unfold reachPlace
  repeat' first
    | with_reducible assumption
    | with_reducible apply hk
    | with_reducible apply complete_canonical
    | with_reducible apply viaFence_canonical
    | simp -implicitDefEqProofs only [Canonical.lit]
    | split
    | intro _
    | dsimp only

theorem atPlace_canonical (d : Dev) (fn : Fn) (a : Nat) (write : Bool) (k : Dev → Place → Dev) (h0 : Canonical d) (hk : ∀ e pl, Canonical e → Canonical (k e pl)) : Canonical (atPlace d fn a write k) := by
  unfold atPlace
  repeat' first
    | with_reducible assumption
    | with_reducible apply hk
    | with_reducible apply reachPlace_canonical
    | simp -implicitDefEqProofs only [Canonical.lit]
    | split
    | intro _
    | dsimp only

theorem doUnmask_canonical (d : Dev) (fn : Fn) (v : Nat) (h0 : Canonical d) : Canonical (doUnmask d fn v) := by
  unfold doUnmask
  repeat' first
    | with_reducible assumption
    | with_reducible apply p_canonical
    | with_reducible apply sendVec_canonical
    | simp -implicitDefEqProofs only [Canonical.lit]
    | split
    | intro _
    | dsimp only

theorem writeMsix_canonical (d : Dev) (fn : Fn) (off v : Nat) (h0 : Canonical d) : Canonical (writeMsix d fn off v) := by
  unfold writeMsix
  repeat' first
    | with_reducible assumption
    | with_reducible apply doUnmask_canonical
    | with_reducible apply on_canonical
    | with_reducible apply p_canonical
    | simp -implicitDefEqProofs only [Canonical.lit]
    | split
    | intro _
    | dsimp only

theorem clearIrq_canonical (d : Dev) (base v : Nat) (h0 : Canonical d) : Canonical (clearIrq d base v) := by
  unfold clearIrq
  repeat' first
    | with_reducible assumption
    | with_reducible apply p_canonical
    | simp -implicitDefEqProofs only [Canonical.lit]
    | split
    | intro _
    | dsimp only

theorem forceIrq_canonical (d : Dev) (base v : Nat) (h0 : Canonical d) : Canonical (forceIrq d base v) := by
  unfold forceIrq
  repeat' first
    | with_reducible assumption
    | with_reducible apply each_canonical
    | with_reducible apply irq_canonical
    | simp -implicitDefEqProofs only [Canonical.lit]
    | split
    | intro _
    | dsimp only

theorem writeSel_canonical (d : Dev) (fn : Fn) (base i v : Nat) (h0 : Canonical d) : Canonical (writeSel d fn base i v) := by
  unfold writeSel
  repeat' first
    | with_reducible assumption
    | with_reducible apply p_canonical
    | simp -implicitDefEqProofs only [Canonical.lit]
    | split
    | intro _
    | dsimp only

theorem writeCommon_canonical (d : Dev) (fn : Fn) (base off v : Nat) (h0 : Canonical d) : Canonical (writeCommon d fn base off v) := by
  unfold writeCommon
  repeat' first
    | with_reducible assumption
    | with_reducible apply clearIrq_canonical
    | with_reducible apply forceIrq_canonical
    | with_reducible apply setIrqEn_canonical
    | with_reducible apply writeSel_canonical
    | with_reducible apply writeWord_canonical
    | simp -implicitDefEqProofs only [Canonical.lit]
    | split
    | intro _
    | dsimp only

theorem writeQueueReg_canonical (d : Dev) (q k v : Nat) (h0 : Canonical d) : Canonical (writeQueueReg d q k v) := by
  unfold writeQueueReg
  repeat' first
    | with_reducible assumption
    | with_reducible apply clearQflags_canonical
    | with_reducible apply queueCmd_canonical
    | with_reducible apply writeQcfg_canonical
    | simp -implicitDefEqProofs only [Canonical.lit]
    | split
    | intro _
    | dsimp only

theorem writePtn_canonical (d : Dev) (i off v : Nat) (h0 : Canonical d) : Canonical (writePtn d i off v) := by
  unfold writePtn
  repeat' first
    | with_reducible assumption
    | with_reducible apply doLoadAbort_canonical
    | with_reducible apply doLoadGo_canonical
    | with_reducible apply doLoadReplay_canonical
    | with_reducible apply doSeqTableWrite_canonical
    | with_reducible apply doSnapAbort_canonical
    | with_reducible apply doSnapRestore_canonical
    | with_reducible apply doSnapSave_canonical
    | with_reducible apply seqCommand_canonical
    | with_reducible apply writeQueueReg_canonical
    | with_reducible apply writeWord_canonical
    | simp -implicitDefEqProofs only [Canonical.lit]
    | split
    | intro _
    | dsimp only

theorem writeClu_canonical (d : Dev) (n base off v : Nat) (h0 : Canonical d) : Canonical (writeClu d n base off v) := by
  unfold writeClu
  repeat' first
    | with_reducible assumption
    | with_reducible apply doBpiClr_canonical
    | with_reducible apply doDmemCfg_canonical
    | with_reducible apply doDmemClr_canonical
    | with_reducible apply doFabClr_canonical
    | with_reducible apply doFmpCfg_canonical
    | with_reducible apply doTxpCfg_canonical
    | with_reducible apply doWliClr_canonical
    | with_reducible apply iff_canonical
    | with_reducible apply winWrite_canonical
    | with_reducible apply writeWord_canonical
    | simp -implicitDefEqProofs only [Canonical.lit]
    | split
    | intro _
    | dsimp only

theorem denyTrg_canonical (d : Dev) (k : Nat) (h0 : Canonical d) : Canonical (denyTrg d k) := by
  unfold denyTrg
  repeat' first
    | with_reducible assumption
    | with_reducible apply on_canonical
    | with_reducible apply p_canonical
    | simp -implicitDefEqProofs only [Canonical.lit]
    | split
    | intro _
    | dsimp only

theorem writeComp_canonical (d : Dev) (pf : Bool) (k o v : Nat) (h0 : Canonical d) : Canonical (writeComp d pf k o v) := by
  unfold writeComp
  repeat' first
    | with_reducible assumption
    | with_reducible apply denyTrg_canonical
    | with_reducible apply on_canonical
    | with_reducible apply p_canonical
    | simp -implicitDefEqProofs only [Canonical.lit]
    | split
    | intro _
    | dsimp only

theorem writeTrg_canonical (d : Dev) (off v : Nat) (h0 : Canonical d) : Canonical (writeTrg d off v) := by
  unfold writeTrg
  repeat' first
    | with_reducible assumption
    | with_reducible apply doArm_canonical
    | with_reducible apply doDisarm_canonical
    | with_reducible apply drivePin_canonical
    | with_reducible apply iff_canonical
    | with_reducible apply p_canonical
    | with_reducible apply stopPulse_canonical
    | with_reducible apply writeComp_canonical
    | with_reducible apply writeWord_canonical
    | simp -implicitDefEqProofs only [Canonical.lit]
    | split
    | intro _
    | dsimp only

theorem writeChan_canonical (d : Dev) (pf : Bool) (ch o v : Nat) (h0 : Canonical d) : Canonical (writeChan d pf ch o v) := by
  unfold writeChan
  repeat' first
    | with_reducible assumption
    | with_reducible apply iff_canonical
    | with_reducible apply on_canonical
    | with_reducible apply p_canonical
    | with_reducible apply setChanOwner_canonical
    | simp -implicitDefEqProofs only [Canonical.lit]
    | split
    | intro _
    | dsimp only

theorem writeCap_canonical (d : Dev) (pf : Bool) (off v : Nat) (h0 : Canonical d) : Canonical (writeCap d pf off v) := by
  unfold writeCap
  repeat' first
    | with_reducible assumption
    | with_reducible apply doCaptureArm_canonical
    | with_reducible apply doCaptureDisarm_canonical
    | with_reducible apply doPinwheelConfigWrite_canonical
    | with_reducible apply iff_canonical
    | with_reducible apply writeChan_canonical
    | with_reducible apply writeWord_canonical
    | simp -implicitDefEqProofs only [Canonical.lit]
    | split
    | intro _
    | dsimp only

theorem writeTrc_canonical (d : Dev) (off v : Nat) (h0 : Canonical d) : Canonical (writeTrc d off v) := by
  unfold writeTrc
  repeat' first
    | with_reducible assumption
    | with_reducible apply disableStream_canonical
    | with_reducible apply doAuthDisable_canonical
    | with_reducible apply doMark_canonical
    | with_reducible apply doTraceStreamEnable_canonical
    | with_reducible apply iff_canonical
    | with_reducible apply writeWord_canonical
    | simp -implicitDefEqProofs only [Canonical.lit]
    | split
    | intro _
    | dsimp only

theorem writeTrcSlice_canonical (d : Dev) (i off v : Nat) (h0 : Canonical d) : Canonical (writeTrcSlice d i off v) := by
  unfold writeTrcSlice
  repeat' first
    | with_reducible assumption
    | with_reducible apply each_canonical
    | with_reducible apply on_canonical
    | with_reducible apply p_canonical
    | with_reducible apply writeTrc_canonical
    | simp -implicitDefEqProofs only [Canonical.lit]
    | split
    | intro _
    | dsimp only

theorem writeLgrp_canonical (d : Dev) (gi off v : Nat) (h0 : Canonical d) : Canonical (writeLgrp d gi off v) := by
  unfold writeLgrp
  repeat' first
    | with_reducible assumption
    | with_reducible apply doBridgeEnable_canonical
    | with_reducible apply doClrSlack_canonical
    | with_reducible apply doInjGo_canonical
    | with_reducible apply doLgrpClr_canonical
    | with_reducible apply iff_canonical
    | with_reducible apply modLink_canonical
    | with_reducible apply p_canonical
    | with_reducible apply writeLgrpCfg_canonical
    | with_reducible apply writeWord_canonical
    | simp -implicitDefEqProofs only [Canonical.lit]
    | split
    | intro _
    | dsimp only

theorem doMbistGo_canonical (d : Dev) (n : Nat) (h0 : Canonical d) : Canonical (doMbistGo d n) := by
  unfold doMbistGo
  repeat' first
    | with_reducible assumption
    | with_reducible apply freshCluster_canonical
    | with_reducible apply mntRequest_canonical
    | with_reducible apply on_canonical
    | with_reducible apply p_canonical
    | with_reducible apply setPower_canonical
    | simp -implicitDefEqProofs only [Canonical.lit]
    | split
    | intro _
    | dsimp only

theorem doMbistComplete_canonical (d : Dev) (n : Nat) (failed : Option Nat) (h0 : Canonical d) : Canonical (doMbistComplete d n failed) := by
  unfold doMbistComplete
  repeat' first
    | with_reducible assumption
    | with_reducible apply clearMemories_canonical
    | with_reducible apply failed_canonical
    | with_reducible apply mntFree_canonical
    | with_reducible apply p_canonical
    | with_reducible apply raise_canonical
    | with_reducible apply setPower_canonical
    | simp -implicitDefEqProofs only [Canonical.lit]
    | split
    | intro _
    | dsimp only

theorem doRelease_canonical (d : Dev) (id : Nat) (h0 : Canonical d) : Canonical (doRelease d id) := by
  unfold doRelease
  repeat' first
    | with_reducible assumption
    | with_reducible apply id_canonical
    | with_reducible apply retryWaits_canonical
    | simp -implicitDefEqProofs only [Canonical.lit]
    | split
    | intro _
    | dsimp only

theorem writeWakeCause_canonical (d : Dev) (v : Nat) (h0 : Canonical d) : Canonical (writeWakeCause d v) := by
  unfold writeWakeCause
  repeat' first
    | with_reducible assumption
    | with_reducible apply emit_canonical
    | with_reducible apply p_canonical
    | with_reducible apply wake_canonical
    | with_reducible apply writeWord_canonical
    | simp -implicitDefEqProofs only [Canonical.lit]
    | split
    | intro _
    | dsimp only

theorem writeBlock_canonical (d : Dev) (base off v : Nat) (h0 : Canonical d) : Canonical (writeBlock d base off v) := by
  unfold writeBlock
  repeat' first
    | with_reducible assumption
    | with_reducible apply doBootAbort_canonical
    | with_reducible apply doBootGo_canonical
    | with_reducible apply doClearAll_canonical
    | with_reducible apply doConfirm_canonical
    | with_reducible apply doDiscover_canonical
    | with_reducible apply doDspClr_canonical
    | with_reducible apply doImeClrCounts_canonical
    | with_reducible apply doLastGaspClear_canonical
    | with_reducible apply doLogClear_canonical
    | with_reducible apply doMbistGo_canonical
    | with_reducible apply doNocClr_canonical
    | with_reducible apply doPassRequest_canonical
    | with_reducible apply doPtnReset_canonical
    | with_reducible apply doResetReqSend_canonical
    | with_reducible apply doRoll_canonical
    | with_reducible apply doStringJoin_canonical
    | with_reducible apply doStringLeave_canonical
    | with_reducible apply doSysFreeze_canonical
    | with_reducible apply doTsbSet_canonical
    | with_reducible apply each_canonical
    | with_reducible apply forgetSigs_canonical
    | with_reducible apply iff_canonical
    | with_reducible apply p_canonical
    | with_reducible apply strobeReq_canonical
    | with_reducible apply writeCap_canonical
    | with_reducible apply writeQueueReg_canonical
    | with_reducible apply writeTrc_canonical
    | with_reducible apply writeTrg_canonical
    | with_reducible apply writeWakeCause_canonical
    | with_reducible apply writeWord_canonical
    | simp -implicitDefEqProofs only [Canonical.lit]
    | split
    | intro _
    | dsimp only

theorem writeHub_canonical (d : Dev) (base off v : Nat) (h0 : Canonical d) : Canonical (writeHub d base off v) := by
  unfold writeHub
  repeat' first
    | with_reducible assumption
    | with_reducible apply controlledStop_canonical
    | with_reducible apply doDevice_canonical
    | with_reducible apply iff_canonical
    | with_reducible apply writeBlock_canonical
    | with_reducible apply writeWord_canonical
    | simp -implicitDefEqProofs only [Canonical.lit]
    | split
    | intro _
    | dsimp only

theorem writeReg_canonical (d : Dev) (fn : Fn) (base off v : Nat) (h0 : Canonical d) : Canonical (writeReg d fn base off v) := by
  unfold writeReg
  repeat' first
    | with_reducible assumption
    | with_reducible apply writeClu_canonical
    | with_reducible apply writeCommon_canonical
    | with_reducible apply writeHub_canonical
    | with_reducible apply writeLgrp_canonical
    | with_reducible apply writePtn_canonical
    | simp -implicitDefEqProofs only [Canonical.lit]
    | split
    | intro _
    | dsimp only

theorem writeSlice_canonical (d : Dev) (i base off v : Nat) (h0 : Canonical d) : Canonical (writeSlice d i base off v) := by
  unfold writeSlice
  repeat' first
    | with_reducible assumption
    | with_reducible apply writeCap_canonical
    | with_reducible apply writeComp_canonical
    | with_reducible apply writeTrcSlice_canonical
    | with_reducible apply writeWord_canonical
    | simp -implicitDefEqProofs only [Canonical.lit]
    | split
    | intro _
    | dsimp only

theorem writePlace_canonical (d : Dev) (fn : Fn) (pl : Place) (v : Nat) (h0 : Canonical d) : Canonical (writePlace d fn pl v) := by
  unfold writePlace
  repeat' first
    | with_reducible assumption
    | with_reducible apply writeMsix_canonical
    | with_reducible apply writeReg_canonical
    | with_reducible apply writeSlice_canonical
    | simp -implicitDefEqProofs only [Canonical.lit]
    | split
    | intro _
    | dsimp only

theorem keepLow_canonical (d : Dev) (fn : Fn) (pl : Place) (v : Nat) (h0 : Canonical d) : Canonical (keepLow d fn pl v) := by
  unfold keepLow
  repeat' first
    | with_reducible assumption
    | simp -implicitDefEqProofs only [Canonical.lit]
    | split
    | intro _
    | dsimp only

theorem writeHigh_canonical (d : Dev) (fn : Fn) (pl : Place) (v : Nat) (h0 : Canonical d) : Canonical (writeHigh d fn pl v) := by
  unfold writeHigh
  repeat' first
    | with_reducible assumption
    | with_reducible apply writePlace_canonical
    | simp -implicitDefEqProofs only [Canonical.lit]
    | split
    | intro _
    | dsimp only

theorem write32_canonical (d : Dev) (fn : Fn) (pl : Place) (v : Nat) (h0 : Canonical d) : Canonical (write32 d fn pl v) := by
  unfold write32
  repeat' first
    | with_reducible assumption
    | with_reducible apply keepLow_canonical
    | with_reducible apply writeHigh_canonical
    | with_reducible apply writePlace_canonical
    | simp -implicitDefEqProofs only [Canonical.lit]
    | split
    | intro _
    | dsimp only

theorem doMisaligned_canonical (d : Dev) (fn : Fn) (a size : Nat) (write : Bool) (h0 : Canonical d) : Canonical (doMisaligned d fn a size write) := by
  unfold doMisaligned
  repeat' first
    | with_reducible assumption
    | with_reducible apply accessError_canonical
    | with_reducible apply complete_canonical
    | simp -implicitDefEqProofs only [Canonical.lit]
    | split
    | intro _
    | dsimp only

theorem doRegisterWrite_canonical (d : Dev) (fn : Fn) (a v : Nat) (wide : Bool) (h0 : Canonical d) : Canonical (doRegisterWrite d fn a v wide) := by
  unfold doRegisterWrite
  repeat' first
    | with_reducible assumption
    | with_reducible apply atPlace_canonical
    | with_reducible apply doMisaligned_canonical
    | with_reducible apply write32_canonical
    | with_reducible apply writePlace_canonical
    | simp -implicitDefEqProofs only [Canonical.lit]
    | split
    | intro _
    | dsimp only

theorem logWindowRead_canonical (d : Dev) (pl : Place) (h0 : Canonical d) : Canonical (logWindowRead d pl) := by
  unfold logWindowRead
  repeat' first
    | with_reducible assumption
    | with_reducible apply add_canonical
    | with_reducible apply logFail_canonical
    | simp -implicitDefEqProofs only [Canonical.lit]
    | split
    | intro _
    | dsimp only

theorem fetch32_canonical (d : Dev) (fn : Fn) (pl : Place) (h0 : Canonical d) : Canonical (fetch32 d fn pl).1 := by
  unfold fetch32
  repeat' first
    | with_reducible assumption
    | with_reducible apply logWindowRead_canonical
    | with_reducible apply winRead_canonical
    | simp -implicitDefEqProofs only [Canonical.lit]
    | split
    | intro _
    | dsimp only

theorem read32_canonical (d : Dev) (fn : Fn) (pl : Place) (h0 : Canonical d) : Canonical (read32 d fn pl) := by
  unfold read32
  repeat' first
    | with_reducible assumption
    | with_reducible apply fetch32_canonical
    | with_reducible apply reply_canonical
    | with_reducible apply submitList_canonical
    | simp -implicitDefEqProofs only [Canonical.lit]
    | split
    | intro _
    | dsimp only

theorem doRead32_canonical (d : Dev) (fn : Fn) (a : Nat) (h0 : Canonical d) : Canonical (doRead32 d fn a) := by
  unfold doRead32
  repeat' first
    | with_reducible assumption
    | with_reducible apply atPlace_canonical
    | with_reducible apply doMisaligned_canonical
    | with_reducible apply read32_canonical
    | simp -implicitDefEqProofs only [Canonical.lit]
    | split
    | intro _
    | dsimp only

theorem doRead64_canonical (d : Dev) (fn : Fn) (a : Nat) (h0 : Canonical d) : Canonical (doRead64 d fn a) := by
  unfold doRead64
  repeat' first
    | with_reducible assumption
    | with_reducible apply doMisaligned_canonical
    | with_reducible apply reachPlace_canonical
    | with_reducible apply read32_canonical
    | with_reducible apply reply64_canonical
    | simp -implicitDefEqProofs only [Canonical.lit]
    | split
    | intro _
    | dsimp only

theorem fetchReg_canonical (d : Dev) (fn : Fn) (pl : Place) (h0 : Canonical d) : Canonical (fetchReg d fn pl).1 := by
  unfold fetchReg
  repeat' first
    | with_reducible assumption
    | with_reducible apply fetch32_canonical
    | with_reducible apply judgeItem_canonical
    | simp -implicitDefEqProofs only [Canonical.lit]
    | split
    | intro _
    | dsimp only

theorem serveReg_canonical (write : Bool) (k : Packet) (d : Dev) (r : Req) (h0 : Canonical d) : Canonical (serveReg write k d r) := by
  unfold serveReg
  repeat' first
    | with_reducible assumption
    | with_reducible apply checkPayload_canonical
    | with_reducible apply fetchReg_canonical
    | with_reducible apply refuseAccess_canonical
    | with_reducible apply respond_canonical
    | with_reducible apply unreachable_canonical
    | with_reducible apply write32_canonical
    | simp -implicitDefEqProofs only [Canonical.lit]
    | split
    | intro _
    | dsimp only

theorem serveAccess_canonical (old : Dev) (write : Bool) (k : Packet) (d : Dev) (r : Req) (h0 : Canonical old) (h1 : Canonical d) : Canonical (serveAccess old write k d r) := by
  unfold serveAccess
  repeat' first
    | with_reducible assumption
    | with_reducible apply serveReg_canonical
    | with_reducible apply serveRw_canonical
    | simp -implicitDefEqProofs only [Canonical.lit]
    | split
    | intro _
    | dsimp only

theorem doFenceRead_canonical (d : Dev) (fn : Fn) (a : Nat) (h0 : Canonical d) : Canonical (doFenceRead d fn a) := by
  unfold doFenceRead
  repeat' first
    | with_reducible assumption
    | with_reducible apply atPlace_canonical
    | with_reducible apply read32_canonical
    | with_reducible apply reply_canonical
    | simp -implicitDefEqProofs only [Canonical.lit]
    | split
    | intro _
    | dsimp only

theorem latchPage_canonical (d0 d : Dev) (base n : Nat) (h0 : Canonical d0) (h1 : Canonical d) : Canonical (latchPage d0 d base n) := by
  unfold latchPage
  repeat' first
    | with_reducible assumption
    | with_reducible apply each_canonical
    | with_reducible apply on_canonical
    | with_reducible apply p_canonical
    | simp -implicitDefEqProofs only [Canonical.lit]
    | split
    | intro _
    | dsimp only

theorem doStrobeLatch_canonical (d : Dev) (h0 : Canonical d) : Canonical (doStrobeLatch d) := by
  unfold doStrobeLatch
  repeat' first
    | with_reducible assumption
    | with_reducible apply latchPage_canonical
    | with_reducible apply p_canonical
    | with_reducible apply foldl_canonical
    | with_reducible apply fold1_canonical
    | simp -implicitDefEqProofs only [Canonical.lit]
    | split
    | intro _
    | dsimp only

theorem windowBytes_canonical (d : Dev) (fn : Fn) (x a n : Nat) (r : Req) (ok : Nat → Nat → Bool) (h0 : Canonical d) : Canonical (windowBytes d fn x a n r ok) := by
  unfold windowBytes
  repeat' first
    | with_reducible assumption
    | with_reducible apply accessError_canonical
    | with_reducible apply each_canonical
    | with_reducible apply emit_canonical
    | with_reducible apply hbmFetch_canonical
    | with_reducible apply poison_canonical
    | simp -implicitDefEqProofs only [Canonical.lit]
    | split
    | intro _
    | dsimp only

theorem windowPut_canonical (d : Dev) (fn : Fn) (x a : Nat) (bs : List Byte) (r : Req) (h0 : Canonical d) : Canonical (windowPut d fn x a bs r) := by
  unfold windowPut
  repeat' first
    | with_reducible assumption
    | with_reducible apply accessError_canonical
    | with_reducible apply each_canonical
    | with_reducible apply hbmSend_canonical
    | simp -implicitDefEqProofs only [Canonical.lit]
    | split
    | intro _
    | dsimp only

theorem onesRead_canonical (d : Dev) (fn : Fn) (x n : Nat) (h0 : Canonical d) : Canonical (onesRead d fn x n) := by
  unfold onesRead
  repeat' first
    | with_reducible assumption
    | with_reducible apply emit_canonical
    | simp -implicitDefEqProofs only [Canonical.lit]
    | split
    | intro _
    | dsimp only

theorem doCaptureRead_canonical (d : Dev) (p : Fin 16) (x n : Nat) (h0 : Canonical d) : Canonical (doCaptureRead d p x n) := by
  unfold doCaptureRead
  repeat' first
    | with_reducible assumption
    | with_reducible apply onesRead_canonical
    | with_reducible apply p_canonical
    | with_reducible apply windowBytes_canonical
    | simp -implicitDefEqProofs only [Canonical.lit]
    | split
    | intro _
    | dsimp only

theorem doBar2Read_canonical (d : Dev) (fn : Fn) (x n : Nat) (h0 : Canonical d) : Canonical (doBar2Read d fn x n) := by
  unfold doBar2Read
  repeat' first
    | with_reducible assumption
    | with_reducible apply doCaptureRead_canonical
    | with_reducible apply onesRead_canonical
    | with_reducible apply windowBytes_canonical
    | simp -implicitDefEqProofs only [Canonical.lit]
    | split
    | intro _
    | dsimp only

theorem doBar2Write_canonical (d : Dev) (fn : Fn) (x : Nat) (bs : List Byte) (h0 : Canonical d) : Canonical (doBar2Write d fn x bs) := by
  unfold doBar2Write
  repeat' first
    | with_reducible assumption
    | with_reducible apply accessError_canonical
    | with_reducible apply windowPut_canonical
    | simp -implicitDefEqProofs only [Canonical.lit]
    | split
    | intro _
    | dsimp only

theorem tck_canonical (d : Dev) (tms tdi : Bool) (h0 : Canonical d) : Canonical (tck d tms tdi) := by
  unfold tck
  repeat' first
    | with_reducible assumption
    | with_reducible apply tick_canonical
    | simp -implicitDefEqProofs only [Canonical.lit]
    | split
    | intro _
    | dsimp only

theorem trst_canonical (d : Dev) (h0 : Canonical d) : Canonical (trst d) := by
  unfold trst
  repeat' first
    | with_reducible assumption
    | simp -implicitDefEqProofs only [Canonical.lit]
    | split
    | intro _
    | dsimp only
end Sys2Proof.Machine.Dev
end

