-- ==== Sys2Proof/Laws/KeepCanonical7.lean ====
section
/-! SUPPORT. The register fields and HBM stay in their canonical form under every command: one lemma for each function. -/

set_option linter.all false

namespace Sys2Proof.Machine

set_option Elab.async false

open Dev

theorem fin_canonical {s t : State} {f : Dev → Dev} (h0 : Canonical s.dev) (h : ∀ e, Canonical e → Canonical (f e)) (hx : fin s f = .next t) : Canonical t.dev := by
  unfold fin at hx
  cases hx
  exact finish_canonical _ (h _ h0)

theorem main_canonical {s t : State} {f : Dev → Dev} (h0 : Canonical s.dev) (h : ∀ e, Canonical e → Canonical (f e)) (hx : main s f = .next t) : Canonical t.dev := by
  refine fin_canonical h0 (fun e he => ?_) hx
  split
  · exact h e he
  · exact he

theorem config_canonical {fn : Fn} {s t : State} {f : Dev → Dev} (h0 : Canonical s.dev) (h : ∀ e, Canonical e → Canonical (f e)) (hx : config fn s f = .next t) : Canonical t.dev := by
  refine fin_canonical h0 (fun e he => ?_) hx
  split
  · exact h e he
  · split
    · exact emit_canonical _ _ he
    · exact he

theorem execArm_canonical (s : State) {next : State} (h0 : Canonical s.dev) (h : execArm s = .next next) : Canonical next.dev := by
  refine main_canonical h0 (fun e he => ?_) h
  repeat' first
    | with_reducible assumption
    | with_reducible apply doArm_canonical
    | simp -implicitDefEqProofs only [Canonical.lit]
    | split
    | intro _
    | dsimp only

theorem execDisarm_canonical (s : State) {next : State} (h0 : Canonical s.dev) (h : execDisarm s = .next next) : Canonical next.dev := by
  refine main_canonical h0 (fun e he => ?_) h
  repeat' first
    | with_reducible assumption
    | with_reducible apply doDisarm_canonical
    | simp -implicitDefEqProofs only [Canonical.lit]
    | split
    | intro _
    | dsimp only

theorem execTriggerLevelTimeout_canonical (s : State) {next : State} (h0 : Canonical s.dev) (h : execTriggerLevelTimeout s = .next next) : Canonical next.dev := by
  refine main_canonical h0 (fun e he => ?_) h
  repeat' first
    | with_reducible assumption
    | with_reducible apply doTriggerLevelTimeout_canonical
    | simp -implicitDefEqProofs only [Canonical.lit]
    | split
    | intro _
    | dsimp only

theorem execTrigPinEdge_canonical (j : Fin 8) (rising : Bool) (s : State) {next : State} (h0 : Canonical s.dev) (h : execTrigPinEdge j rising s = .next next) : Canonical next.dev := by
  refine main_canonical h0 (fun e he => ?_) h
  repeat' first
    | with_reducible assumption
    | with_reducible apply doTrigPinEdge_canonical
    | simp -implicitDefEqProofs only [Canonical.lit]
    | split
    | intro _
    | dsimp only

theorem execPinPulseEnd_canonical (j : Fin 8) (s : State) {next : State} (h0 : Canonical s.dev) (h : execPinPulseEnd j s = .next next) : Canonical next.dev := by
  refine main_canonical h0 (fun e he => ?_) h
  repeat' first
    | with_reducible assumption
    | with_reducible apply doPinPulseEnd_canonical
    | simp -implicitDefEqProofs only [Canonical.lit]
    | split
    | intro _
    | dsimp only

theorem execTraceStreamEnable_canonical (t : Fin 17) (s : State) {next : State} (h0 : Canonical s.dev) (h : execTraceStreamEnable t s = .next next) : Canonical next.dev := by
  refine main_canonical h0 (fun e he => ?_) h
  repeat' first
    | with_reducible assumption
    | with_reducible apply doTraceStreamEnable_canonical
    | simp -implicitDefEqProofs only [Canonical.lit]
    | split
    | intro _
    | dsimp only

theorem execTraceCounterLimit_canonical (t : Fin 17) (s : State) {next : State} (h0 : Canonical s.dev) (h : execTraceCounterLimit t s = .next next) : Canonical next.dev := by
  refine main_canonical h0 (fun e he => ?_) h
  repeat' first
    | with_reducible assumption
    | with_reducible apply doTraceCounterLimit_canonical
    | simp -implicitDefEqProofs only [Canonical.lit]
    | split
    | intro _
    | dsimp only

theorem execMark_canonical (t : Fin 17) (v : BitVec 16) (s : State) {next : State} (h0 : Canonical s.dev) (h : execMark t v s = .next next) : Canonical next.dev := by
  refine main_canonical h0 (fun e he => ?_) h
  repeat' first
    | with_reducible assumption
    | with_reducible apply doMark_canonical
    | simp -implicitDefEqProofs only [Canonical.lit]
    | split
    | intro _
    | dsimp only

theorem execTraceBlockTimeout_canonical (t : Fin 17) (s : State) {next : State} (h0 : Canonical s.dev) (h : execTraceBlockTimeout t s = .next next) : Canonical next.dev := by
  refine main_canonical h0 (fun e he => ?_) h
  repeat' first
    | with_reducible assumption
    | with_reducible apply doTraceBlockTimeout_canonical
    | simp -implicitDefEqProofs only [Canonical.lit]
    | split
    | intro _
    | dsimp only

theorem execTraceSyncTimer_canonical (t : Fin 17) (s : State) {next : State} (h0 : Canonical s.dev) (h : execTraceSyncTimer t s = .next next) : Canonical next.dev := by
  refine main_canonical h0 (fun e he => ?_) h
  repeat' first
    | with_reducible assumption
    | with_reducible apply doTraceSyncTimer_canonical
    | simp -implicitDefEqProofs only [Canonical.lit]
    | split
    | intro _
    | dsimp only

theorem execTokenRevoke_canonical (tag : Byte) (s : State) {next : State} (h0 : Canonical s.dev) (h : execTokenRevoke tag s = .next next) : Canonical next.dev := by
  refine main_canonical h0 (fun e he => ?_) h
  repeat' first
    | with_reducible assumption
    | with_reducible apply doTokenRevoke_canonical
    | simp -implicitDefEqProofs only [Canonical.lit]
    | split
    | intro _
    | dsimp only

theorem execTokenExpire_canonical (s : State) {next : State} (h0 : Canonical s.dev) (h : execTokenExpire s = .next next) : Canonical next.dev := by
  refine main_canonical h0 (fun e he => ?_) h
  repeat' first
    | with_reducible assumption
    | with_reducible apply doTokenExpire_canonical
    | simp -implicitDefEqProofs only [Canonical.lit]
    | split
    | intro _
    | dsimp only

theorem execAuthDisable_canonical (s : State) {next : State} (h0 : Canonical s.dev) (h : execAuthDisable s = .next next) : Canonical next.dev := by
  refine main_canonical h0 (fun e he => ?_) h
  repeat' first
    | with_reducible assumption
    | with_reducible apply doAuthDisable_canonical
    | simp -implicitDefEqProofs only [Canonical.lit]
    | split
    | intro _
    | dsimp only

theorem execTokenChallenge_canonical (tag : Byte) (s : State) {next : State} (h0 : Canonical s.dev) (h : execTokenChallenge tag s = .next next) : Canonical next.dev := by
  refine main_canonical h0 (fun e he => ?_) h
  repeat' first
    | with_reducible assumption
    | with_reducible apply doTokenChallenge_canonical
    | simp -implicitDefEqProofs only [Canonical.lit]
    | split
    | intro _
    | dsimp only

theorem execLockstepRecord_canonical (r : BitVec 128) (s : State) {next : State} (h0 : Canonical s.dev) (h : execLockstepRecord r s = .next next) : Canonical next.dev := by
  refine main_canonical h0 (fun e he => ?_) h
  repeat' first
    | with_reducible assumption
    | with_reducible apply doLockstepRecord_canonical
    | simp -implicitDefEqProofs only [Canonical.lit]
    | split
    | intro _
    | dsimp only

theorem execPartnerTimeout_canonical (s : State) {next : State} (h0 : Canonical s.dev) (h : execPartnerTimeout s = .next next) : Canonical next.dev := by
  refine main_canonical h0 (fun e he => ?_) h
  repeat' first
    | with_reducible assumption
    | with_reducible apply doPartnerTimeout_canonical
    | simp -implicitDefEqProofs only [Canonical.lit]
    | split
    | intro _
    | dsimp only

theorem execExecuteStep_canonical (p : Fin 16) (s : State) {next : State} (h0 : Canonical s.dev) (h : execExecuteStep p s = .next next) : Canonical next.dev := by
  refine main_canonical h0 (fun e he => ?_) h
  repeat' first
    | with_reducible assumption
    | with_reducible apply doExecuteStep_canonical
    | with_reducible apply p_canonical
    | simp -implicitDefEqProofs only [Canonical.lit]
    | split
    | intro _
    | dsimp only

theorem execCascadeLimit_canonical (p : Fin 16) (s : State) {next : State} (h0 : Canonical s.dev) (h : execCascadeLimit p s = .next next) : Canonical next.dev := by
  refine main_canonical h0 (fun e he => ?_) h
  repeat' first
    | with_reducible assumption
    | with_reducible apply doDue_canonical
    | with_reducible apply p_canonical
    | simp -implicitDefEqProofs only [Canonical.lit]
    | split
    | intro _
    | dsimp only

theorem execRunLimitReached_canonical (p : Fin 16) (s : State) {next : State} (h0 : Canonical s.dev) (h : execRunLimitReached p s = .next next) : Canonical next.dev := by
  refine main_canonical h0 (fun e he => ?_) h
  repeat' first
    | with_reducible assumption
    | with_reducible apply doDue_canonical
    | with_reducible apply p_canonical
    | simp -implicitDefEqProofs only [Canonical.lit]
    | split
    | intro _
    | dsimp only

theorem execStepCyclesCountReached_canonical (p : Fin 16) (s : State) {next : State} (h0 : Canonical s.dev) (h : execStepCyclesCountReached p s = .next next) : Canonical next.dev := by
  refine main_canonical h0 (fun e he => ?_) h
  repeat' first
    | with_reducible assumption
    | with_reducible apply doDue_canonical
    | with_reducible apply p_canonical
    | simp -implicitDefEqProofs only [Canonical.lit]
    | split
    | intro _
    | dsimp only

theorem execStepStepsCountReached_canonical (p : Fin 16) (s : State) {next : State} (h0 : Canonical s.dev) (h : execStepStepsCountReached p s = .next next) : Canonical next.dev := by
  refine main_canonical h0 (fun e he => ?_) h
  repeat' first
    | with_reducible assumption
    | with_reducible apply doStepStepsCountReached_canonical
    | with_reducible apply p_canonical
    | simp -implicitDefEqProofs only [Canonical.lit]
    | split
    | intro _
    | dsimp only

theorem execStallRelease_canonical (p : Fin 16) (s : State) {next : State} (h0 : Canonical s.dev) (h : execStallRelease p s = .next next) : Canonical next.dev := by
  refine main_canonical h0 (fun e he => ?_) h
  repeat' first
    | with_reducible assumption
    | with_reducible apply doStallRelease_canonical
    | with_reducible apply p_canonical
    | simp -implicitDefEqProofs only [Canonical.lit]
    | split
    | intro _
    | dsimp only

theorem execStart_canonical (p : Fin 16) (s : State) {next : State} (h0 : Canonical s.dev) (h : execStart p s = .next next) : Canonical next.dev := by
  refine main_canonical h0 (fun e he => ?_) h
  repeat' first
    | with_reducible assumption
    | with_reducible apply atPtn_canonical
    | with_reducible apply p_canonical
    | with_reducible apply seqCommand_canonical
    | simp -implicitDefEqProofs only [Canonical.lit]
    | split
    | intro _
    | dsimp only

theorem execResume_canonical (p : Fin 16) (s : State) {next : State} (h0 : Canonical s.dev) (h : execResume p s = .next next) : Canonical next.dev := by
  refine main_canonical h0 (fun e he => ?_) h
  repeat' first
    | with_reducible assumption
    | with_reducible apply atPtn_canonical
    | with_reducible apply p_canonical
    | with_reducible apply seqCommand_canonical
    | simp -implicitDefEqProofs only [Canonical.lit]
    | split
    | intro _
    | dsimp only

theorem execFreeze_canonical (p : Fin 16) (s : State) {next : State} (h0 : Canonical s.dev) (h : execFreeze p s = .next next) : Canonical next.dev := by
  refine main_canonical h0 (fun e he => ?_) h
  repeat' first
    | with_reducible assumption
    | with_reducible apply atPtn_canonical
    | with_reducible apply p_canonical
    | with_reducible apply seqCommand_canonical
    | simp -implicitDefEqProofs only [Canonical.lit]
    | split
    | intro _
    | dsimp only

theorem execHardFreeze_canonical (p : Fin 16) (s : State) {next : State} (h0 : Canonical s.dev) (h : execHardFreeze p s = .next next) : Canonical next.dev := by
  refine main_canonical h0 (fun e he => ?_) h
  repeat' first
    | with_reducible assumption
    | with_reducible apply atPtn_canonical
    | with_reducible apply p_canonical
    | with_reducible apply seqCommand_canonical
    | simp -implicitDefEqProofs only [Canonical.lit]
    | split
    | intro _
    | dsimp only

theorem execStepCycles_canonical (p : Fin 16) (s : State) {next : State} (h0 : Canonical s.dev) (h : execStepCycles p s = .next next) : Canonical next.dev := by
  refine main_canonical h0 (fun e he => ?_) h
  repeat' first
    | with_reducible assumption
    | with_reducible apply atPtn_canonical
    | with_reducible apply p_canonical
    | with_reducible apply seqCommand_canonical
    | simp -implicitDefEqProofs only [Canonical.lit]
    | split
    | intro _
    | dsimp only

theorem execStepSteps_canonical (p : Fin 16) (s : State) {next : State} (h0 : Canonical s.dev) (h : execStepSteps p s = .next next) : Canonical next.dev := by
  refine main_canonical h0 (fun e he => ?_) h
  repeat' first
    | with_reducible assumption
    | with_reducible apply atPtn_canonical
    | with_reducible apply p_canonical
    | with_reducible apply seqCommand_canonical
    | simp -implicitDefEqProofs only [Canonical.lit]
    | split
    | intro _
    | dsimp only

theorem execStop_canonical (p : Fin 16) (s : State) {next : State} (h0 : Canonical s.dev) (h : execStop p s = .next next) : Canonical next.dev := by
  refine main_canonical h0 (fun e he => ?_) h
  repeat' first
    | with_reducible assumption
    | with_reducible apply atPtn_canonical
    | with_reducible apply p_canonical
    | with_reducible apply seqCommand_canonical
    | simp -implicitDefEqProofs only [Canonical.lit]
    | split
    | intro _
    | dsimp only

theorem execSeqCmdInvalid_canonical (p : Fin 16) (code : Fin 16) (s : State) {next : State} (h0 : Canonical s.dev) (h : execSeqCmdInvalid p code s = .next next) : Canonical next.dev := by
  refine main_canonical h0 (fun e he => ?_) h
  repeat' first
    | with_reducible assumption
    | with_reducible apply atPtn_canonical
    | with_reducible apply p_canonical
    | with_reducible apply seqCommand_canonical
    | simp -implicitDefEqProofs only [Canonical.lit]
    | split
    | intro _
    | dsimp only

theorem execFreezeTimeout_canonical (p : Fin 16) (s : State) {next : State} (h0 : Canonical s.dev) (h : execFreezeTimeout p s = .next next) : Canonical next.dev := by
  refine main_canonical h0 (fun e he => ?_) h
  repeat' first
    | with_reducible assumption
    | with_reducible apply doFreezeTimeout_canonical
    | with_reducible apply p_canonical
    | simp -implicitDefEqProofs only [Canonical.lit]
    | split
    | intro _
    | dsimp only

theorem execSeqTableWrite_canonical (p : Fin 16) (off : Nat) (v : W32) (s : State) {next : State} (h0 : Canonical s.dev) (h : execSeqTableWrite p off v s = .next next) : Canonical next.dev := by
  refine main_canonical h0 (fun e he => ?_) h
  repeat' first
    | with_reducible assumption
    | with_reducible apply atPtn_canonical
    | with_reducible apply doSeqTableWrite_canonical
    | with_reducible apply p_canonical
    | simp -implicitDefEqProofs only [Canonical.lit]
    | split
    | intro _
    | dsimp only

theorem execLinkedCommand_canonical (g : Fin 16) (p : Fin 16) (cmd : Fin 16) (count : W32) (dist : Nat) (intact : Bool) (s : State) {next : State} (h0 : Canonical s.dev) (h : execLinkedCommand g p cmd count dist intact s = .next next) : Canonical next.dev := by
  refine main_canonical h0 (fun e he => ?_) h
  repeat' first
    | with_reducible assumption
    | with_reducible apply doLinkedCommand_canonical
    | with_reducible apply p_canonical
    | simp -implicitDefEqProofs only [Canonical.lit]
    | split
    | intro _
    | dsimp only

theorem execLinkedCommandEffect_canonical (p : Fin 16) (s : State) {next : State} (h0 : Canonical s.dev) (h : execLinkedCommandEffect p s = .next next) : Canonical next.dev := by
  refine main_canonical h0 (fun e he => ?_) h
  repeat' first
    | with_reducible assumption
    | with_reducible apply doLinkedCommandEffect_canonical
    | with_reducible apply p_canonical
    | simp -implicitDefEqProofs only [Canonical.lit]
    | split
    | intro _
    | dsimp only

theorem execHold_canonical (g : Fin 16) (p : Fin 16) (e : Nat) (intact : Bool) (s : State) {next : State} (h0 : Canonical s.dev) (h : execHold g p e intact s = .next next) : Canonical next.dev := by
  refine main_canonical h0 (fun e he => ?_) h
  repeat' first
    | with_reducible assumption
    | with_reducible apply doHold_canonical
    | with_reducible apply p_canonical
    | simp -implicitDefEqProofs only [Canonical.lit]
    | split
    | intro _
    | dsimp only

theorem execReady_canonical (g : Fin 16) (p : Fin 16) (e : Nat) (intact : Bool) (s : State) {next : State} (h0 : Canonical s.dev) (h : execReady g p e intact s = .next next) : Canonical next.dev := by
  refine main_canonical h0 (fun e he => ?_) h
  repeat' first
    | with_reducible assumption
    | with_reducible apply doReady_canonical
    | with_reducible apply p_canonical
    | simp -implicitDefEqProofs only [Canonical.lit]
    | split
    | intro _
    | dsimp only

theorem execGo_canonical (g : Fin 16) (p : Fin 16) (e : Nat) (intact : Bool) (s : State) {next : State} (h0 : Canonical s.dev) (h : execGo g p e intact s = .next next) : Canonical next.dev := by
  refine main_canonical h0 (fun e he => ?_) h
  repeat' first
    | with_reducible assumption
    | with_reducible apply doGo_canonical
    | with_reducible apply p_canonical
    | simp -implicitDefEqProofs only [Canonical.lit]
    | split
    | intro _
    | dsimp only

theorem execSystemHoldRelease_canonical (p : Fin 16) (s : State) {next : State} (h0 : Canonical s.dev) (h : execSystemHoldRelease p s = .next next) : Canonical next.dev := by
  refine main_canonical h0 (fun e he => ?_) h
  repeat' first
    | with_reducible assumption
    | with_reducible apply doSystemHoldRelease_canonical
    | with_reducible apply p_canonical
    | simp -implicitDefEqProofs only [Canonical.lit]
    | split
    | intro _
    | dsimp only

theorem execSteps_canonical (g : Fin 16) (p : Fin 16) (cycle : BitVec 48) (count : Nat) (intact : Bool) (s : State) {next : State} (h0 : Canonical s.dev) (h : execSteps g p cycle count intact s = .next next) : Canonical next.dev := by
  refine main_canonical h0 (fun e he => ?_) h
  repeat' first
    | with_reducible assumption
    | with_reducible apply doSteps_canonical
    | with_reducible apply p_canonical
    | simp -implicitDefEqProofs only [Canonical.lit]
    | split
    | intro _
    | dsimp only

theorem execCorrectedWordWriteBack_canonical (n : Fin 64) (walu : Bool) (t : Fin 32) (unit : Fin 64) (a : Fin 256) (s : State) {next : State} (h0 : Canonical s.dev) (h : execCorrectedWordWriteBack n walu t unit a s = .next next) : Canonical next.dev := by
  refine main_canonical h0 (fun e he => ?_) h
  repeat' first
    | with_reducible assumption
    | with_reducible apply doWriteBack_canonical
    | simp -implicitDefEqProofs only [Canonical.lit]
    | split
    | intro _
    | dsimp only

theorem execDmemRowWriteBack_canonical (n : Fin 64) (m : Fin 8) (row : Fin 8192) (s : State) {next : State} (h0 : Canonical s.dev) (h : execDmemRowWriteBack n m row s = .next next) : Canonical next.dev := by
  refine main_canonical h0 (fun e he => ?_) h
  repeat' first
    | with_reducible assumption
    | with_reducible apply doRowWriteBack_canonical
    | simp -implicitDefEqProofs only [Canonical.lit]
    | split
    | intro _
    | dsimp only

theorem execBpiClrCounts_canonical (n : Fin 64) (s : State) {next : State} (h0 : Canonical s.dev) (h : execBpiClrCounts n s = .next next) : Canonical next.dev := by
  refine main_canonical h0 (fun e he => ?_) h
  repeat' first
    | with_reducible assumption
    | with_reducible apply atCluster_canonical
    | with_reducible apply doBpiClr_canonical
    | simp -implicitDefEqProofs only [Canonical.lit]
    | split
    | intro _
    | dsimp only

theorem execWliClrCounts_canonical (n : Fin 64) (s : State) {next : State} (h0 : Canonical s.dev) (h : execWliClrCounts n s = .next next) : Canonical next.dev := by
  refine main_canonical h0 (fun e he => ?_) h
  repeat' first
    | with_reducible assumption
    | with_reducible apply atCluster_canonical
    | with_reducible apply doWliClr_canonical
    | simp -implicitDefEqProofs only [Canonical.lit]
    | split
    | intro _
    | dsimp only

theorem execFabClrCount_canonical (n : Fin 64) (s : State) {next : State} (h0 : Canonical s.dev) (h : execFabClrCount n s = .next next) : Canonical next.dev := by
  refine main_canonical h0 (fun e he => ?_) h
  repeat' first
    | with_reducible assumption
    | with_reducible apply atCluster_canonical
    | with_reducible apply doFabClr_canonical
    | simp -implicitDefEqProofs only [Canonical.lit]
    | split
    | intro _
    | dsimp only

theorem execDmemClrCounts_canonical (n : Fin 64) (s : State) {next : State} (h0 : Canonical s.dev) (h : execDmemClrCounts n s = .next next) : Canonical next.dev := by
  refine main_canonical h0 (fun e he => ?_) h
  repeat' first
    | with_reducible assumption
    | with_reducible apply atCluster_canonical
    | with_reducible apply doDmemClr_canonical
    | simp -implicitDefEqProofs only [Canonical.lit]
    | split
    | intro _
    | dsimp only

theorem execDmemCfgWrite_canonical (n : Fin 64) (off : Nat) (v : W32) (s : State) {next : State} (h0 : Canonical s.dev) (h : execDmemCfgWrite n off v s = .next next) : Canonical next.dev := by
  refine main_canonical h0 (fun e he => ?_) h
  repeat' first
    | with_reducible assumption
    | with_reducible apply atCluster_canonical
    | with_reducible apply doDmemCfg_canonical
    | simp -implicitDefEqProofs only [Canonical.lit]
    | split
    | intro _
    | dsimp only

theorem execFmpConfigWrite_canonical (n : Fin 64) (off : Nat) (v : W32) (s : State) {next : State} (h0 : Canonical s.dev) (h : execFmpConfigWrite n off v s = .next next) : Canonical next.dev := by
  refine main_canonical h0 (fun e he => ?_) h
  repeat' first
    | with_reducible assumption
    | with_reducible apply atCluster_canonical
    | with_reducible apply doFmpCfg_canonical
    | simp -implicitDefEqProofs only [Canonical.lit]
    | split
    | intro _
    | dsimp only

theorem execTxpConfigWrite_canonical (n : Fin 64) (off : Nat) (v : W32) (s : State) {next : State} (h0 : Canonical s.dev) (h : execTxpConfigWrite n off v s = .next next) : Canonical next.dev := by
  refine main_canonical h0 (fun e he => ?_) h
  repeat' first
    | with_reducible assumption
    | with_reducible apply atCluster_canonical
    | with_reducible apply doTxpCfg_canonical
    | simp -implicitDefEqProofs only [Canonical.lit]
    | split
    | intro _
    | dsimp only

theorem execFarReadArrival_canonical (n : Fin 64) (f : Fin 4) (s : State) {next : State} (h0 : Canonical s.dev) (h : execFarReadArrival n f s = .next next) : Canonical next.dev := by
  refine main_canonical h0 (fun e he => ?_) h
  repeat' first
    | with_reducible assumption
    | with_reducible apply doFarRead_canonical
    | simp -implicitDefEqProofs only [Canonical.lit]
    | split
    | intro _
    | dsimp only

theorem execFarWriteAck_canonical (n : Fin 64) (f : Fin 4) (s : State) {next : State} (h0 : Canonical s.dev) (h : execFarWriteAck n f s = .next next) : Canonical next.dev := by
  refine main_canonical h0 (fun e he => ?_) h
  repeat' first
    | with_reducible assumption
    | with_reducible apply doFarAck_canonical
    | simp -implicitDefEqProofs only [Canonical.lit]
    | split
    | intro _
    | dsimp only

theorem execTxpCopyFill_canonical (n : Fin 64) (x : Fin 8) (s : State) {next : State} (h0 : Canonical s.dev) (h : execTxpCopyFill n x s = .next next) : Canonical next.dev := by
  refine main_canonical h0 (fun e he => ?_) h
  repeat' first
    | with_reducible assumption
    | with_reducible apply doCopyFill_canonical
    | simp -implicitDefEqProofs only [Canonical.lit]
    | split
    | intro _
    | dsimp only

theorem execTxpCreditRenew_canonical (n : Fin 64) (x : Fin 8) (s : State) {next : State} (h0 : Canonical s.dev) (h : execTxpCreditRenew n x s = .next next) : Canonical next.dev := by
  refine main_canonical h0 (fun e he => ?_) h
  repeat' first
    | with_reducible assumption
    | with_reducible apply doCreditRenew_canonical
    | simp -implicitDefEqProofs only [Canonical.lit]
    | split
    | intro _
    | dsimp only

theorem execWindowRead_canonical (fn : Fn) (n : Fin 64) (w : Fin 16) (off : Nat) (s : State) {next : State} (h0 : Canonical s.dev) (h : execWindowRead fn n w off s = .next next) : Canonical next.dev := by
  refine main_canonical h0 (fun e he => ?_) h
  repeat' first
    | with_reducible assumption
    | with_reducible apply doWindowRead_canonical
    | simp -implicitDefEqProofs only [Canonical.lit]
    | split
    | intro _
    | dsimp only

theorem execWindowWrite_canonical (fn : Fn) (n : Fin 64) (w : Fin 16) (off : Nat) (v : W32) (s : State) {next : State} (h0 : Canonical s.dev) (h : execWindowWrite fn n w off v s = .next next) : Canonical next.dev := by
  refine main_canonical h0 (fun e he => ?_) h
  repeat' first
    | with_reducible assumption
    | with_reducible apply doWindowWrite_canonical
    | simp -implicitDefEqProofs only [Canonical.lit]
    | split
    | intro _
    | dsimp only

theorem execWindowReadTimeout_canonical (fn : Fn) (n : Fin 64) (w : Fin 16) (off : Nat) (s : State) {next : State} (h0 : Canonical s.dev) (h : execWindowReadTimeout fn n w off s = .next next) : Canonical next.dev := by
  refine main_canonical h0 (fun e he => ?_) h
  repeat' first
    | with_reducible assumption
    | with_reducible apply doWindowTimeout_canonical
    | simp -implicitDefEqProofs only [Canonical.lit]
    | split
    | intro _
    | dsimp only

theorem execFreezeSettled_canonical (p : Fin 16) (s : State) {next : State} (h0 : Canonical s.dev) (h : execFreezeSettled p s = .next next) : Canonical next.dev := by
  refine main_canonical h0 (fun e he => ?_) h
  repeat' first
    | with_reducible assumption
    | with_reducible apply doFreezeSettled_canonical
    | with_reducible apply p_canonical
    | simp -implicitDefEqProofs only [Canonical.lit]
    | split
    | intro _
    | dsimp only

theorem execSnapSave_canonical (p : Fin 16) (s : State) {next : State} (h0 : Canonical s.dev) (h : execSnapSave p s = .next next) : Canonical next.dev := by
  refine main_canonical h0 (fun e he => ?_) h
  repeat' first
    | with_reducible assumption
    | with_reducible apply atPtn_canonical
    | with_reducible apply doSnapSave_canonical
    | with_reducible apply p_canonical
    | simp -implicitDefEqProofs only [Canonical.lit]
    | split
    | intro _
    | dsimp only

theorem execSnapSaveComplete_canonical (p : Fin 16) (s : State) {next : State} (h0 : Canonical s.dev) (h : execSnapSaveComplete p s = .next next) : Canonical next.dev := by
  refine main_canonical h0 (fun e he => ?_) h
  repeat' first
    | with_reducible assumption
    | with_reducible apply doSnapSaveComplete_canonical
    | with_reducible apply p_canonical
    | simp -implicitDefEqProofs only [Canonical.lit]
    | split
    | intro _
    | dsimp only

theorem execSnapRestore_canonical (p : Fin 16) (s : State) {next : State} (h0 : Canonical s.dev) (h : execSnapRestore p s = .next next) : Canonical next.dev := by
  refine main_canonical h0 (fun e he => ?_) h
  repeat' first
    | with_reducible assumption
    | with_reducible apply atPtn_canonical
    | with_reducible apply doSnapRestore_canonical
    | with_reducible apply p_canonical
    | simp -implicitDefEqProofs only [Canonical.lit]
    | split
    | intro _
    | dsimp only

theorem execSnapCheckComplete_canonical (p : Fin 16) (s : State) {next : State} (h0 : Canonical s.dev) (h : execSnapCheckComplete p s = .next next) : Canonical next.dev := by
  refine main_canonical h0 (fun e he => ?_) h
  repeat' first
    | with_reducible assumption
    | with_reducible apply doSnapCheckComplete_canonical
    | with_reducible apply p_canonical
    | simp -implicitDefEqProofs only [Canonical.lit]
    | split
    | intro _
    | dsimp only

theorem execSnapRestoreComplete_canonical (p : Fin 16) (s : State) {next : State} (h0 : Canonical s.dev) (h : execSnapRestoreComplete p s = .next next) : Canonical next.dev := by
  refine main_canonical h0 (fun e he => ?_) h
  repeat' first
    | with_reducible assumption
    | with_reducible apply doSnapRestoreComplete_canonical
    | with_reducible apply p_canonical
    | simp -implicitDefEqProofs only [Canonical.lit]
    | split
    | intro _
    | dsimp only

theorem execSnapAbort_canonical (p : Fin 16) (s : State) {next : State} (h0 : Canonical s.dev) (h : execSnapAbort p s = .next next) : Canonical next.dev := by
  refine main_canonical h0 (fun e he => ?_) h
  repeat' first
    | with_reducible assumption
    | with_reducible apply atPtn_canonical
    | with_reducible apply doSnapAbort_canonical
    | with_reducible apply p_canonical
    | simp -implicitDefEqProofs only [Canonical.lit]
    | split
    | intro _
    | dsimp only

theorem execDoorbellAppend_canonical (fn : Fn) (slot : Fin 8192) (fin fence : Bool) (w : W64) (s : State) {next : State} (h0 : Canonical s.dev) (h : execDoorbellAppend fn slot fin fence w s = .next next) : Canonical next.dev := by
  refine main_canonical h0 (fun e he => ?_) h
  repeat' first
    | with_reducible assumption
    | with_reducible apply doDoorbell_canonical
    | simp -implicitDefEqProofs only [Canonical.lit]
    | split
    | intro _
    | dsimp only

theorem execDoorbellAppendMulti_canonical (fn : Fn) (slot : Fin 8192) (ws : Words) (s : State) {next : State} (h0 : Canonical s.dev) (h : execDoorbellAppendMulti fn slot ws s = .next next) : Canonical next.dev := by
  refine main_canonical h0 (fun e he => ?_) h
  repeat' first
    | with_reducible assumption
    | with_reducible apply doDoorbellMulti_canonical
    | simp -implicitDefEqProofs only [Canonical.lit]
    | split
    | intro _
    | dsimp only

theorem execPop_canonical (fn : Fn) (slot : Fin 8192) (s : State) {next : State} (h0 : Canonical s.dev) (h : execPop fn slot s = .next next) : Canonical next.dev := by
  refine main_canonical h0 (fun e he => ?_) h
  repeat' first
    | with_reducible assumption
    | with_reducible apply doPop_canonical
    | simp -implicitDefEqProofs only [Canonical.lit]
    | split
    | intro _
    | dsimp only

theorem execPopWaitExpire_canonical (fn : Fn) (slot : Fin 8192) (s : State) {next : State} (h0 : Canonical s.dev) (h : execPopWaitExpire fn slot s = .next next) : Canonical next.dev := by
  refine main_canonical h0 (fun e he => ?_) h
  repeat' first
    | with_reducible assumption
    | with_reducible apply doPopWaitExpire_canonical
    | simp -implicitDefEqProofs only [Canonical.lit]
    | split
    | intro _
    | dsimp only

theorem execBar4AccessError_canonical (fn : Fn) (off : Nat) (write : Bool) (s : State) {next : State} (h0 : Canonical s.dev) (h : execBar4AccessError fn off write s = .next next) : Canonical next.dev := by
  refine main_canonical h0 (fun e he => ?_) h
  repeat' first
    | with_reducible assumption
    | with_reducible apply doBar4Error_canonical
    | simp -implicitDefEqProofs only [Canonical.lit]
    | split
    | intro _
    | dsimp only

theorem execQwrHoldExpire_canonical (q : Fin 8192) (s : State) {next : State} (h0 : Canonical s.dev) (h : execQwrHoldExpire q s = .next next) : Canonical next.dev := by
  refine main_canonical h0 (fun e he => ?_) h
  repeat' first
    | with_reducible assumption
    | with_reducible apply doQwrExpire_canonical
    | simp -implicitDefEqProofs only [Canonical.lit]
    | split
    | intro _
    | dsimp only

theorem execQrdHoldExpire_canonical (q : Fin 8192) (s : State) {next : State} (h0 : Canonical s.dev) (h : execQrdHoldExpire q s = .next next) : Canonical next.dev := by
  refine main_canonical h0 (fun e he => ?_) h
  repeat' first
    | with_reducible assumption
    | with_reducible apply doQrdExpire_canonical
    | simp -implicitDefEqProofs only [Canonical.lit]
    | split
    | intro _
    | dsimp only

theorem execFlush_canonical (fn : Fn) (q : Fin 8192) (s : State) {next : State} (h0 : Canonical s.dev) (h : execFlush fn q s = .next next) : Canonical next.dev := by
  refine main_canonical h0 (fun e he => ?_) h
  repeat' first
    | with_reducible assumption
    | with_reducible apply atQueue_canonical
    | with_reducible apply queueCmd_canonical
    | simp -implicitDefEqProofs only [Canonical.lit]
    | split
    | intro _
    | dsimp only

theorem execDropHead_canonical (fn : Fn) (q : Fin 8192) (s : State) {next : State} (h0 : Canonical s.dev) (h : execDropHead fn q s = .next next) : Canonical next.dev := by
  refine main_canonical h0 (fun e he => ?_) h
  repeat' first
    | with_reducible assumption
    | with_reducible apply atQueue_canonical
    | with_reducible apply queueCmd_canonical
    | simp -implicitDefEqProofs only [Canonical.lit]
    | split
    | intro _
    | dsimp only

theorem execClrHwm_canonical (fn : Fn) (q : Fin 8192) (s : State) {next : State} (h0 : Canonical s.dev) (h : execClrHwm fn q s = .next next) : Canonical next.dev := by
  refine main_canonical h0 (fun e he => ?_) h
  repeat' first
    | with_reducible assumption
    | with_reducible apply atQueue_canonical
    | with_reducible apply queueCmd_canonical
    | simp -implicitDefEqProofs only [Canonical.lit]
    | split
    | intro _
    | dsimp only

theorem execQueueEnable_canonical (fn : Fn) (q : Fin 8192) (s : State) {next : State} (h0 : Canonical s.dev) (h : execQueueEnable fn q s = .next next) : Canonical next.dev := by
  refine main_canonical h0 (fun e he => ?_) h
  repeat' first
    | with_reducible assumption
    | with_reducible apply atQueue_canonical
    | with_reducible apply setQueueEn_canonical
    | simp -implicitDefEqProofs only [Canonical.lit]
    | split
    | intro _
    | dsimp only

theorem execQueueDisable_canonical (fn : Fn) (q : Fin 8192) (s : State) {next : State} (h0 : Canonical s.dev) (h : execQueueDisable fn q s = .next next) : Canonical next.dev := by
  refine main_canonical h0 (fun e he => ?_) h
  repeat' first
    | with_reducible assumption
    | with_reducible apply atQueue_canonical
    | with_reducible apply setQueueEn_canonical
    | simp -implicitDefEqProofs only [Canonical.lit]
    | split
    | intro _
    | dsimp only

theorem execSubmit_canonical (fn : Fn) (s : State) {next : State} (h0 : Canonical s.dev) (h : execSubmit fn s = .next next) : Canonical next.dev := by
  refine main_canonical h0 (fun e he => ?_) h
  repeat' first
    | with_reducible assumption
    | with_reducible apply doSubmit_canonical
    | simp -implicitDefEqProofs only [Canonical.lit]
    | split
    | intro _
    | dsimp only

theorem execSubmitHoldExpire_canonical (list : Fin 17) (s : State) {next : State} (h0 : Canonical s.dev) (h : execSubmitHoldExpire list s = .next next) : Canonical next.dev := by
  refine main_canonical h0 (fun e he => ?_) h
  repeat' first
    | with_reducible assumption
    | with_reducible apply doSubmitExpire_canonical
    | simp -implicitDefEqProofs only [Canonical.lit]
    | split
    | intro _
    | dsimp only

theorem execCourierDispatch_canonical (c : Fin 32) (data : List Byte) (s : State) {next : State} (h0 : Canonical s.dev) (h : execCourierDispatch c data s = .next next) : Canonical next.dev := by
  refine main_canonical h0 (fun e he => ?_) h
  repeat' first
    | with_reducible assumption
    | with_reducible apply doDispatch_canonical
    | simp -implicitDefEqProofs only [Canonical.lit]
    | split
    | intro _
    | dsimp only

theorem execWorkItemComplete_canonical (c : Fin 32) (s : State) {next : State} (h0 : Canonical s.dev) (h : execWorkItemComplete c s = .next next) : Canonical next.dev := by
  refine main_canonical h0 (fun e he => ?_) h
  repeat' first
    | with_reducible assumption
    | with_reducible apply doItemComplete_canonical
    | simp -implicitDefEqProofs only [Canonical.lit]
    | split
    | intro _
    | dsimp only

theorem execCourierWaitLimit_canonical (c : Fin 32) (s : State) {next : State} (h0 : Canonical s.dev) (h : execCourierWaitLimit c s = .next next) : Canonical next.dev := by
  refine main_canonical h0 (fun e he => ?_) h
  repeat' first
    | with_reducible assumption
    | with_reducible apply doWaitLimit_canonical
    | simp -implicitDefEqProofs only [Canonical.lit]
    | split
    | intro _
    | dsimp only

theorem execDspClr_canonical (s : State) {next : State} (h0 : Canonical s.dev) (h : execDspClr s = .next next) : Canonical next.dev := by
  refine main_canonical h0 (fun e he => ?_) h
  repeat' first
    | with_reducible assumption
    | with_reducible apply doDspClr_canonical
    | simp -implicitDefEqProofs only [Canonical.lit]
    | split
    | intro _
    | dsimp only

theorem execLogClear_canonical (s : State) {next : State} (h0 : Canonical s.dev) (h : execLogClear s = .next next) : Canonical next.dev := by
  refine main_canonical h0 (fun e he => ?_) h
  repeat' first
    | with_reducible assumption
    | with_reducible apply doLogClear_canonical
    | simp -implicitDefEqProofs only [Canonical.lit]
    | split
    | intro _
    | dsimp only

theorem execLastGaspClear_canonical (s : State) {next : State} (h0 : Canonical s.dev) (h : execLastGaspClear s = .next next) : Canonical next.dev := by
  refine main_canonical h0 (fun e he => ?_) h
  repeat' first
    | with_reducible assumption
    | with_reducible apply doLastGaspClear_canonical
    | simp -implicitDefEqProofs only [Canonical.lit]
    | split
    | intro _
    | dsimp only

theorem execClearAll_canonical (s : State) {next : State} (h0 : Canonical s.dev) (h : execClearAll s = .next next) : Canonical next.dev := by
  refine main_canonical h0 (fun e he => ?_) h
  repeat' first
    | with_reducible assumption
    | with_reducible apply doClearAll_canonical
    | simp -implicitDefEqProofs only [Canonical.lit]
    | split
    | intro _
    | dsimp only

theorem execCounterSaturate_canonical (base : Nat) (i : Fin 64) (s : State) {next : State} (h0 : Canonical s.dev) (h : execCounterSaturate base i s = .next next) : Canonical next.dev := by
  refine main_canonical h0 (fun e he => ?_) h
  repeat' first
    | with_reducible assumption
    | with_reducible apply doCounterSaturate_canonical
    | simp -implicitDefEqProofs only [Canonical.lit]
    | split
    | intro _
    | dsimp only

theorem execRoll_canonical (s : State) {next : State} (h0 : Canonical s.dev) (h : execRoll s = .next next) : Canonical next.dev := by
  refine main_canonical h0 (fun e he => ?_) h
  repeat' first
    | with_reducible assumption
    | with_reducible apply doRoll_canonical
    | simp -implicitDefEqProofs only [Canonical.lit]
    | split
    | intro _
    | dsimp only

theorem execKeyRollStart_canonical (s : State) {next : State} (h0 : Canonical s.dev) (h : execKeyRollStart s = .next next) : Canonical next.dev := by
  refine main_canonical h0 (fun e he => ?_) h
  repeat' first
    | with_reducible assumption
    | with_reducible apply doKeyRollStart_canonical
    | simp -implicitDefEqProofs only [Canonical.lit]
    | split
    | intro _
    | dsimp only

theorem execKeyRollSector_canonical (s : State) {next : State} (h0 : Canonical s.dev) (h : execKeyRollSector s = .next next) : Canonical next.dev := by
  refine main_canonical h0 (fun e he => ?_) h
  repeat' first
    | with_reducible assumption
    | with_reducible apply doKeyRollSector_canonical
    | simp -implicitDefEqProofs only [Canonical.lit]
    | split
    | intro _
    | dsimp only

theorem execImeClrCounts_canonical (s : State) {next : State} (h0 : Canonical s.dev) (h : execImeClrCounts s = .next next) : Canonical next.dev := by
  refine main_canonical h0 (fun e he => ?_) h
  repeat' first
    | with_reducible assumption
    | with_reducible apply doImeClrCounts_canonical
    | simp -implicitDefEqProofs only [Canonical.lit]
    | split
    | intro _
    | dsimp only

theorem execSysFreeze_canonical (s : State) {next : State} (h0 : Canonical s.dev) (h : execSysFreeze s = .next next) : Canonical next.dev := by
  refine main_canonical h0 (fun e he => ?_) h
  repeat' first
    | with_reducible assumption
    | with_reducible apply doSysFreeze_canonical
    | simp -implicitDefEqProofs only [Canonical.lit]
    | split
    | intro _
    | dsimp only

theorem execStrobe_canonical (s : State) {next : State} (h0 : Canonical s.dev) (h : execStrobe s = .next next) : Canonical next.dev := by
  refine main_canonical h0 (fun e he => ?_) h
  repeat' first
    | with_reducible assumption
    | with_reducible apply doStrobe_canonical
    | simp -implicitDefEqProofs only [Canonical.lit]
    | split
    | intro _
    | dsimp only

theorem execCaptureArm_canonical (c : Fin 17) (s : State) {next : State} (h0 : Canonical s.dev) (h : execCaptureArm c s = .next next) : Canonical next.dev := by
  refine main_canonical h0 (fun e he => ?_) h
  repeat' first
    | with_reducible assumption
    | with_reducible apply doCaptureArm_canonical
    | simp -implicitDefEqProofs only [Canonical.lit]
    | split
    | intro _
    | dsimp only

theorem execCaptureDisarm_canonical (c : Fin 17) (s : State) {next : State} (h0 : Canonical s.dev) (h : execCaptureDisarm c s = .next next) : Canonical next.dev := by
  refine main_canonical h0 (fun e he => ?_) h
  repeat' first
    | with_reducible assumption
    | with_reducible apply doCaptureDisarm_canonical
    | simp -implicitDefEqProofs only [Canonical.lit]
    | split
    | intro _
    | dsimp only

theorem execCaptureBlockWrite_canonical (ch : Fin 64) (addr : Nat) (s : State) {next : State} (h0 : Canonical s.dev) (h : execCaptureBlockWrite ch addr s = .next next) : Canonical next.dev := by
  refine main_canonical h0 (fun e he => ?_) h
  repeat' first
    | with_reducible assumption
    | with_reducible apply doCaptureBlockWrite_canonical
    | simp -implicitDefEqProofs only [Canonical.lit]
    | split
    | intro _
    | dsimp only

theorem execPostLimitExpire_canonical (ch : Fin 64) (s : State) {next : State} (h0 : Canonical s.dev) (h : execPostLimitExpire ch s = .next next) : Canonical next.dev := by
  refine main_canonical h0 (fun e he => ?_) h
  repeat' first
    | with_reducible assumption
    | with_reducible apply doPostLimitExpire_canonical
    | simp -implicitDefEqProofs only [Canonical.lit]
    | split
    | intro _
    | dsimp only

theorem execRearmExpire_canonical (c : Fin 17) (s : State) {next : State} (h0 : Canonical s.dev) (h : execRearmExpire c s = .next next) : Canonical next.dev := by
  refine main_canonical h0 (fun e he => ?_) h
  repeat' first
    | with_reducible assumption
    | with_reducible apply doRearmExpire_canonical
    | simp -implicitDefEqProofs only [Canonical.lit]
    | split
    | intro _
    | dsimp only

theorem execChannelOwnerWrite_canonical (ch : Fin 64) (owner : Fin 32) (s : State) {next : State} (h0 : Canonical s.dev) (h : execChannelOwnerWrite ch owner s = .next next) : Canonical next.dev := by
  refine main_canonical h0 (fun e he => ?_) h
  repeat' first
    | with_reducible assumption
    | with_reducible apply doChannelOwnerWrite_canonical
    | simp -implicitDefEqProofs only [Canonical.lit]
    | split
    | intro _
    | dsimp only

theorem execZeroingComplete_canonical (ch : Fin 64) (s : State) {next : State} (h0 : Canonical s.dev) (h : execZeroingComplete ch s = .next next) : Canonical next.dev := by
  refine main_canonical h0 (fun e he => ?_) h
  repeat' first
    | with_reducible assumption
    | with_reducible apply doZeroingComplete_canonical
    | simp -implicitDefEqProofs only [Canonical.lit]
    | split
    | intro _
    | dsimp only

theorem execPinwheelConfigWrite_canonical (size : Bool) (v : W64) (s : State) {next : State} (h0 : Canonical s.dev) (h : execPinwheelConfigWrite size v s = .next next) : Canonical next.dev := by
  refine main_canonical h0 (fun e he => ?_) h
  repeat' first
    | with_reducible assumption
    | with_reducible apply doPinwheelConfigWrite_canonical
    | simp -implicitDefEqProofs only [Canonical.lit]
    | split
    | intro _
    | dsimp only

theorem execPtnCreate_canonical (tag : Byte) (p : Fin 16) (bindVf : Bool) (mask shape : W64) (quotaMiB : W32) (s : State) {next : State} (h0 : Canonical s.dev) (h : execPtnCreate tag p bindVf mask shape quotaMiB s = .next next) : Canonical next.dev := by
  refine main_canonical h0 (fun e he => ?_) h
  repeat' first
    | with_reducible assumption
    | with_reducible apply doPtnCreate_canonical
    | with_reducible apply p_canonical
    | with_reducible apply serving_canonical
    | simp -implicitDefEqProofs only [Canonical.lit]
    | split
    | intro _
    | dsimp only

theorem execPtnDestroy_canonical (tag : Byte) (p : Fin 16) (s : State) {next : State} (h0 : Canonical s.dev) (h : execPtnDestroy tag p s = .next next) : Canonical next.dev := by
  refine main_canonical h0 (fun e he => ?_) h
  repeat' first
    | with_reducible assumption
    | with_reducible apply doPtnDestroy_canonical
    | with_reducible apply p_canonical
    | with_reducible apply serving_canonical
    | simp -implicitDefEqProofs only [Canonical.lit]
    | split
    | intro _
    | dsimp only

theorem execPtnCloseComplete_canonical (p : Fin 16) (s : State) {next : State} (h0 : Canonical s.dev) (h : execPtnCloseComplete p s = .next next) : Canonical next.dev := by
  refine main_canonical h0 (fun e he => ?_) h
  repeat' first
    | with_reducible assumption
    | with_reducible apply doPtnClose_canonical
    | with_reducible apply p_canonical
    | simp -implicitDefEqProofs only [Canonical.lit]
    | split
    | intro _
    | dsimp only

theorem execPtnResize_canonical (tag : Byte) (p : Fin 16) (retarget : Bool) (mask shape : W64) (s : State) {next : State} (h0 : Canonical s.dev) (h : execPtnResize tag p retarget mask shape s = .next next) : Canonical next.dev := by
  refine main_canonical h0 (fun e he => ?_) h
  repeat' first
    | with_reducible assumption
    | with_reducible apply doPtnResize_canonical
    | with_reducible apply p_canonical
    | with_reducible apply serving_canonical
    | simp -implicitDefEqProofs only [Canonical.lit]
    | split
    | intro _
    | dsimp only

theorem execPtnResizeComplete_canonical (p : Fin 16) (s : State) {next : State} (h0 : Canonical s.dev) (h : execPtnResizeComplete p s = .next next) : Canonical next.dev := by
  refine main_canonical h0 (fun e he => ?_) h
  repeat' first
    | with_reducible assumption
    | with_reducible apply doPtnResizeComplete_canonical
    | with_reducible apply p_canonical
    | simp -implicitDefEqProofs only [Canonical.lit]
    | split
    | intro _
    | dsimp only

theorem execPtnQuery_canonical (tag : Byte) (p : Fin 16) (s : State) {next : State} (h0 : Canonical s.dev) (h : execPtnQuery tag p s = .next next) : Canonical next.dev := by
  refine main_canonical h0 (fun e he => ?_) h
  repeat' first
    | with_reducible assumption
    | with_reducible apply doPtnQuery_canonical
    | with_reducible apply p_canonical
    | with_reducible apply serving_canonical
    | simp -implicitDefEqProofs only [Canonical.lit]
    | split
    | intro _
    | dsimp only

theorem execPing_canonical (tag : Byte) (arg : W32) (s : State) {next : State} (h0 : Canonical s.dev) (h : execPing tag arg s = .next next) : Canonical next.dev := by
  refine main_canonical h0 (fun e he => ?_) h
  repeat' first
    | with_reducible assumption
    | with_reducible apply doPing_canonical
    | with_reducible apply serving_canonical
    | simp -implicitDefEqProofs only [Canonical.lit]
    | split
    | intro _
    | dsimp only

theorem execBeaconSend_canonical (s : State) {next : State} (h0 : Canonical s.dev) (h : execBeaconSend s = .next next) : Canonical next.dev := by
  refine main_canonical h0 (fun e he => ?_) h
  repeat' first
    | with_reducible assumption
    | with_reducible apply doBeaconSend_canonical
    | simp -implicitDefEqProofs only [Canonical.lit]
    | split
    | intro _
    | dsimp only

theorem execBeacon_canonical (g : Fin 16) (ns : W64) (frac : BitVec 16) (hops : Nat) (master : Fin 512) (intact : Bool) (s : State) {next : State} (h0 : Canonical s.dev) (h : execBeacon g ns frac hops master intact s = .next next) : Canonical next.dev := by
  refine main_canonical h0 (fun e he => ?_) h
  repeat' first
    | with_reducible assumption
    | with_reducible apply doBeacon_canonical
    | simp -implicitDefEqProofs only [Canonical.lit]
    | split
    | intro _
    | dsimp only

theorem execBeaconTimeout_canonical (s : State) {next : State} (h0 : Canonical s.dev) (h : execBeaconTimeout s = .next next) : Canonical next.dev := by
  refine main_canonical h0 (fun e he => ?_) h
  repeat' first
    | with_reducible assumption
    | with_reducible apply doBeaconTimeout_canonical
    | simp -implicitDefEqProofs only [Canonical.lit]
    | split
    | intro _
    | dsimp only

theorem execTsbHoldEnd_canonical (s : State) {next : State} (h0 : Canonical s.dev) (h : execTsbHoldEnd s = .next next) : Canonical next.dev := by
  refine main_canonical h0 (fun e he => ?_) h
  repeat' first
    | with_reducible assumption
    | with_reducible apply doHoldEnd_canonical
    | simp -implicitDefEqProofs only [Canonical.lit]
    | split
    | intro _
    | dsimp only

theorem execTsbSet_canonical (v : W64) (s : State) {next : State} (h0 : Canonical s.dev) (h : execTsbSet v s = .next next) : Canonical next.dev := by
  refine main_canonical h0 (fun e he => ?_) h
  repeat' first
    | with_reducible assumption
    | with_reducible apply doTsbSet_canonical
    | simp -implicitDefEqProofs only [Canonical.lit]
    | split
    | intro _
    | dsimp only

theorem execBootGo_canonical (s : State) {next : State} (h0 : Canonical s.dev) (h : execBootGo s = .next next) : Canonical next.dev := by
  refine main_canonical h0 (fun e he => ?_) h
  repeat' first
    | with_reducible assumption
    | with_reducible apply atPage_canonical
    | with_reducible apply doBootGo_canonical
    | simp -implicitDefEqProofs only [Canonical.lit]
    | split
    | intro _
    | dsimp only

theorem execBootAbort_canonical (s : State) {next : State} (h0 : Canonical s.dev) (h : execBootAbort s = .next next) : Canonical next.dev := by
  refine main_canonical h0 (fun e he => ?_) h
  repeat' first
    | with_reducible assumption
    | with_reducible apply atPage_canonical
    | with_reducible apply doBootAbort_canonical
    | simp -implicitDefEqProofs only [Canonical.lit]
    | split
    | intro _
    | dsimp only

theorem execBundleFetchComplete_canonical (data : Option (List Byte)) (s : State) {next : State} (h0 : Canonical s.dev) (h : execBundleFetchComplete data s = .next next) : Canonical next.dev := by
  refine main_canonical h0 (fun e he => ?_) h
  repeat' first
    | with_reducible assumption
    | with_reducible apply doFetchDone_canonical
    | simp -implicitDefEqProofs only [Canonical.lit]
    | split
    | intro _
    | dsimp only

theorem execBundleVerifyComplete_canonical (s : State) {next : State} (h0 : Canonical s.dev) (h : execBundleVerifyComplete s = .next next) : Canonical next.dev := by
  refine main_canonical h0 (fun e he => ?_) h
  repeat' first
    | with_reducible assumption
    | with_reducible apply doVerifyDone_canonical
    | simp -implicitDefEqProofs only [Canonical.lit]
    | split
    | intro _
    | dsimp only

theorem execStageReady_canonical (s : State) {next : State} (h0 : Canonical s.dev) (h : execStageReady s = .next next) : Canonical next.dev := by
  refine main_canonical h0 (fun e he => ?_) h
  repeat' first
    | with_reducible assumption
    | with_reducible apply doStageReady_canonical
    | simp -implicitDefEqProofs only [Canonical.lit]
    | split
    | intro _
    | dsimp only

theorem execConfirm_canonical (s : State) {next : State} (h0 : Canonical s.dev) (h : execConfirm s = .next next) : Canonical next.dev := by
  refine main_canonical h0 (fun e he => ?_) h
  repeat' first
    | with_reducible assumption
    | with_reducible apply atPage_canonical
    | with_reducible apply doConfirm_canonical
    | simp -implicitDefEqProofs only [Canonical.lit]
    | split
    | intro _
    | dsimp only

theorem execBurnComplete_canonical (fault : Bool) (s : State) {next : State} (h0 : Canonical s.dev) (h : execBurnComplete fault s = .next next) : Canonical next.dev := by
  refine main_canonical h0 (fun e he => ?_) h
  repeat' first
    | with_reducible assumption
    | with_reducible apply doBurnDone_canonical
    | simp -implicitDefEqProofs only [Canonical.lit]
    | split
    | intro _
    | dsimp only

theorem execOwnerProvision_canonical (tag : Byte) (hash : Words) (s : State) {next : State} (h0 : Canonical s.dev) (h : execOwnerProvision tag hash s = .next next) : Canonical next.dev := by
  refine main_canonical h0 (fun e he => ?_) h
  repeat' first
    | with_reducible assumption
    | with_reducible apply doOwnerProvision_canonical
    | with_reducible apply serving_canonical
    | simp -implicitDefEqProofs only [Canonical.lit]
    | split
    | intro _
    | dsimp only

theorem execOwnerBurnComplete_canonical (fault : Bool) (s : State) {next : State} (h0 : Canonical s.dev) (h : execOwnerBurnComplete fault s = .next next) : Canonical next.dev := by
  refine main_canonical h0 (fun e he => ?_) h
  repeat' first
    | with_reducible assumption
    | with_reducible apply doOwnerBurnDone_canonical
    | simp -implicitDefEqProofs only [Canonical.lit]
    | split
    | intro _
    | dsimp only

theorem execTokenPresent_canonical (tag : Byte) (token : Words) (s : State) {next : State} (h0 : Canonical s.dev) (h : execTokenPresent tag token s = .next next) : Canonical next.dev := by
  refine main_canonical h0 (fun e he => ?_) h
  repeat' first
    | with_reducible assumption
    | with_reducible apply doTokenPresent_canonical
    | with_reducible apply serving_canonical
    | simp -implicitDefEqProofs only [Canonical.lit]
    | split
    | intro _
    | dsimp only

theorem execServiceBadCommand_canonical (hdr : W64) (s : State) {next : State} (h0 : Canonical s.dev) (h : execServiceBadCommand hdr s = .next next) : Canonical next.dev := by
  refine main_canonical h0 (fun e he => ?_) h
  repeat' first
    | with_reducible assumption
    | with_reducible apply doBadCommand_canonical
    | with_reducible apply serving_canonical
    | simp -implicitDefEqProofs only [Canonical.lit]
    | split
    | intro _
    | dsimp only

theorem execLoadGo_canonical (p : Fin 16) (s : State) {next : State} (h0 : Canonical s.dev) (h : execLoadGo p s = .next next) : Canonical next.dev := by
  refine main_canonical h0 (fun e he => ?_) h
  repeat' first
    | with_reducible assumption
    | with_reducible apply atPtn_canonical
    | with_reducible apply doLoadGo_canonical
    | with_reducible apply p_canonical
    | simp -implicitDefEqProofs only [Canonical.lit]
    | split
    | intro _
    | dsimp only

theorem execLoadAbort_canonical (p : Fin 16) (s : State) {next : State} (h0 : Canonical s.dev) (h : execLoadAbort p s = .next next) : Canonical next.dev := by
  refine main_canonical h0 (fun e he => ?_) h
  repeat' first
    | with_reducible assumption
    | with_reducible apply atPtn_canonical
    | with_reducible apply doLoadAbort_canonical
    | with_reducible apply p_canonical
    | simp -implicitDefEqProofs only [Canonical.lit]
    | split
    | intro _
    | dsimp only

theorem execLoadReplay_canonical (p : Fin 16) (s : State) {next : State} (h0 : Canonical s.dev) (h : execLoadReplay p s = .next next) : Canonical next.dev := by
  refine main_canonical h0 (fun e he => ?_) h
  repeat' first
    | with_reducible assumption
    | with_reducible apply atPtn_canonical
    | with_reducible apply doLoadReplay_canonical
    | with_reducible apply p_canonical
    | simp -implicitDefEqProofs only [Canonical.lit]
    | split
    | intro _
    | dsimp only

theorem execFrame_canonical (p : Fin 16) (data : Option (List Byte)) (s : State) {next : State} (h0 : Canonical s.dev) (h : execFrame p data s = .next next) : Canonical next.dev := by
  refine main_canonical h0 (fun e he => ?_) h
  repeat' first
    | with_reducible assumption
    | with_reducible apply doFrame_canonical
    | with_reducible apply p_canonical
    | simp -implicitDefEqProofs only [Canonical.lit]
    | split
    | intro _
    | dsimp only

theorem execScrubWalkRead_canonical (n : Fin 64) (w : WordLoc) (s : State) {next : State} (h0 : Canonical s.dev) (h : execScrubWalkRead n w s = .next next) : Canonical next.dev := by
  refine main_canonical h0 (fun e he => ?_) h
  repeat' first
    | with_reducible assumption
    | with_reducible apply doWalkRead_canonical
    | simp -implicitDefEqProofs only [Canonical.lit]
    | split
    | intro _
    | dsimp only

theorem execScrubPassRequest_canonical (p : Fin 16) (s : State) {next : State} (h0 : Canonical s.dev) (h : execScrubPassRequest p s = .next next) : Canonical next.dev := by
  refine main_canonical h0 (fun e he => ?_) h
  repeat' first
    | with_reducible assumption
    | with_reducible apply doPassRequest_canonical
    | with_reducible apply p_canonical
    | simp -implicitDefEqProofs only [Canonical.lit]
    | split
    | intro _
    | dsimp only

theorem execScrubPassStart_canonical (s : State) {next : State} (h0 : Canonical s.dev) (h : execScrubPassStart s = .next next) : Canonical next.dev := by
  refine main_canonical h0 (fun e he => ?_) h
  repeat' first
    | with_reducible assumption
    | with_reducible apply doPassStart_canonical
    | simp -implicitDefEqProofs only [Canonical.lit]
    | split
    | intro _
    | dsimp only

theorem execScrubPassComplete_canonical (s : State) {next : State} (h0 : Canonical s.dev) (h : execScrubPassComplete s = .next next) : Canonical next.dev := by
  refine main_canonical h0 (fun e he => ?_) h
  repeat' first
    | with_reducible assumption
    | with_reducible apply doPassComplete_canonical
    | simp -implicitDefEqProofs only [Canonical.lit]
    | split
    | intro _
    | dsimp only

theorem execUpset_canonical (n : Fin 64) (w : WordLoc) (fetch : Bool) (s : State) {next : State} (h0 : Canonical s.dev) (h : execUpset n w fetch s = .next next) : Canonical next.dev := by
  refine main_canonical h0 (fun e he => ?_) h
  repeat' first
    | with_reducible assumption
    | with_reducible apply doUpset_canonical
    | simp -implicitDefEqProofs only [Canonical.lit]
    | split
    | intro _
    | dsimp only

theorem execUpsetRewrite_canonical (n : Fin 64) (w : WordLoc) (s : State) {next : State} (h0 : Canonical s.dev) (h : execUpsetRewrite n w s = .next next) : Canonical next.dev := by
  refine main_canonical h0 (fun e he => ?_) h
  repeat' first
    | with_reducible assumption
    | with_reducible apply doUpsetRewrite_canonical
    | simp -implicitDefEqProofs only [Canonical.lit]
    | split
    | intro _
    | dsimp only

theorem execLaneGroupEnable_canonical (g : Fin 16) (s : State) {next : State} (h0 : Canonical s.dev) (h : execLaneGroupEnable g s = .next next) : Canonical next.dev := by
  refine main_canonical h0 (fun e he => ?_) h
  repeat' first
    | with_reducible assumption
    | with_reducible apply atPage_canonical
    | with_reducible apply doLaneEnable_canonical
    | simp -implicitDefEqProofs only [Canonical.lit]
    | split
    | intro _
    | dsimp only

theorem execLaneGroupDisable_canonical (g : Fin 16) (s : State) {next : State} (h0 : Canonical s.dev) (h : execLaneGroupDisable g s = .next next) : Canonical next.dev := by
  refine main_canonical h0 (fun e he => ?_) h
  repeat' first
    | with_reducible assumption
    | with_reducible apply atPage_canonical
    | with_reducible apply doLaneDisable_canonical
    | simp -implicitDefEqProofs only [Canonical.lit]
    | split
    | intro _
    | dsimp only

theorem execLaneTestRequest_canonical (g : Fin 16) (s : State) {next : State} (h0 : Canonical s.dev) (h : execLaneTestRequest g s = .next next) : Canonical next.dev := by
  refine main_canonical h0 (fun e he => ?_) h
  repeat' first
    | with_reducible assumption
    | with_reducible apply atPage_canonical
    | with_reducible apply doLaneTest_canonical
    | simp -implicitDefEqProofs only [Canonical.lit]
    | split
    | intro _
    | dsimp only

theorem execMarkerSend_canonical (g : Fin 16) (s : State) {next : State} (h0 : Canonical s.dev) (h : execMarkerSend g s = .next next) : Canonical next.dev := by
  refine main_canonical h0 (fun e he => ?_) h
  repeat' first
    | with_reducible assumption
    | with_reducible apply doMarkerSend_canonical
    | simp -implicitDefEqProofs only [Canonical.lit]
    | split
    | intro _
    | dsimp only

theorem execMarker_canonical (g : Fin 16) (l : Fin 8) (bits : BitVec 320) (ui : Nat) (s : State) {next : State} (h0 : Canonical s.dev) (h : execMarker g l bits ui s = .next next) : Canonical next.dev := by
  refine main_canonical h0 (fun e he => ?_) h
  repeat' first
    | with_reducible assumption
    | with_reducible apply doMarker_canonical
    | simp -implicitDefEqProofs only [Canonical.lit]
    | split
    | intro _
    | dsimp only

theorem execAcqTimeout_canonical (g : Fin 16) (s : State) {next : State} (h0 : Canonical s.dev) (h : execAcqTimeout g s = .next next) : Canonical next.dev := by
  refine main_canonical h0 (fun e he => ?_) h
  repeat' first
    | with_reducible assumption
    | with_reducible apply doAcqTimeout_canonical
    | simp -implicitDefEqProofs only [Canonical.lit]
    | split
    | intro _
    | dsimp only

theorem execLaneLoss_canonical (g : Fin 16) (l : Fin 8) (s : State) {next : State} (h0 : Canonical s.dev) (h : execLaneLoss g l s = .next next) : Canonical next.dev := by
  refine main_canonical h0 (fun e he => ?_) h
  repeat' first
    | with_reducible assumption
    | with_reducible apply loseLane_canonical
    | simp -implicitDefEqProofs only [Canonical.lit]
    | split
    | intro _
    | dsimp only

theorem execCodeword_canonical (g : Fin 16) (l : Fin 8) (data check : List (Fin 1024)) (s : State) {next : State} (h0 : Canonical s.dev) (h : execCodeword g l data check s = .next next) : Canonical next.dev := by
  refine main_canonical h0 (fun e he => ?_) h
  repeat' first
    | with_reducible assumption
    | with_reducible apply doCodeword_canonical
    | simp -implicitDefEqProofs only [Canonical.lit]
    | split
    | intro _
    | dsimp only

theorem execSlotFrame_canonical (g : Fin 16) (k : Nat) (fields : SlotBits) (s : State) {next : State} (h0 : Canonical s.dev) (h : execSlotFrame g k fields s = .next next) : Canonical next.dev := by
  refine main_canonical h0 (fun e he => ?_) h
  repeat' first
    | with_reducible assumption
    | with_reducible apply doSlotFrame_canonical
    | simp -implicitDefEqProofs only [Canonical.lit]
    | split
    | intro _
    | dsimp only

theorem execLinkFlit_canonical (g : Fin 16) (bits : BitVec 320) (bad : Bool) (s : State) {next : State} (h0 : Canonical s.dev) (h : execLinkFlit g bits bad s = .next next) : Canonical next.dev := by
  refine main_canonical h0 (fun e he => ?_) h
  repeat' first
    | with_reducible assumption
    | with_reducible apply doLinkFlit_canonical
    | simp -implicitDefEqProofs only [Canonical.lit]
    | split
    | intro _
    | dsimp only

theorem execCredit_canonical (g : Fin 16) (vc : Fin 4) (count : Nat) (intact : Bool) (s : State) {next : State} (h0 : Canonical s.dev) (h : execCredit g vc count intact s = .next next) : Canonical next.dev := by
  refine main_canonical h0 (fun e he => ?_) h
  repeat' first
    | with_reducible assumption
    | with_reducible apply doCredit_canonical
    | simp -implicitDefEqProofs only [Canonical.lit]
    | split
    | intro _
    | dsimp only

theorem execFreezeMsg_canonical (g : Fin 16) (origin : Fin 512) (n : Byte) (intact : Bool) (s : State) {next : State} (h0 : Canonical s.dev) (h : execFreezeMsg g origin n intact s = .next next) : Canonical next.dev := by
  refine main_canonical h0 (fun e he => ?_) h
  repeat' first
    | with_reducible assumption
    | with_reducible apply doFreezeMsg_canonical
    | simp -implicitDefEqProofs only [Canonical.lit]
    | split
    | intro _
    | dsimp only

theorem execInjGo_canonical (g : Fin 16) (s : State) {next : State} (h0 : Canonical s.dev) (h : execInjGo g s = .next next) : Canonical next.dev := by
  refine main_canonical h0 (fun e he => ?_) h
  repeat' first
    | with_reducible assumption
    | with_reducible apply doInjGo_canonical
    | simp -implicitDefEqProofs only [Canonical.lit]
    | split
    | intro _
    | dsimp only

theorem execLgrpClrCounts_canonical (g : Fin 16) (s : State) {next : State} (h0 : Canonical s.dev) (h : execLgrpClrCounts g s = .next next) : Canonical next.dev := by
  refine main_canonical h0 (fun e he => ?_) h
  repeat' first
    | with_reducible assumption
    | with_reducible apply doLgrpClr_canonical
    | simp -implicitDefEqProofs only [Canonical.lit]
    | split
    | intro _
    | dsimp only

theorem execClrSlack_canonical (g : Fin 16) (s : State) {next : State} (h0 : Canonical s.dev) (h : execClrSlack g s = .next next) : Canonical next.dev := by
  refine main_canonical h0 (fun e he => ?_) h
  repeat' first
    | with_reducible assumption
    | with_reducible apply doClrSlack_canonical
    | simp -implicitDefEqProofs only [Canonical.lit]
    | split
    | intro _
    | dsimp only

theorem execBridgeLaneEnable_canonical (g : Fin 16) (l : Fin 8) (tx rx : Bool) (s : State) {next : State} (h0 : Canonical s.dev) (h : execBridgeLaneEnable g l tx rx s = .next next) : Canonical next.dev := by
  refine main_canonical h0 (fun e he => ?_) h
  repeat' first
    | with_reducible assumption
    | with_reducible apply doBridgeEnable_canonical
    | simp -implicitDefEqProofs only [Canonical.lit]
    | split
    | intro _
    | dsimp only

theorem execBridgeWordReceive_canonical (g : Fin 16) (l : Fin 8) (w : W64) (s : State) {next : State} (h0 : Canonical s.dev) (h : execBridgeWordReceive g l w s = .next next) : Canonical next.dev := by
  refine main_canonical h0 (fun e he => ?_) h
  repeat' first
    | with_reducible assumption
    | with_reducible apply doBridgeReceive_canonical
    | simp -implicitDefEqProofs only [Canonical.lit]
    | split
    | intro _
    | dsimp only

theorem execBridgeWordTransmit_canonical (g : Fin 16) (l : Fin 8) (s : State) {next : State} (h0 : Canonical s.dev) (h : execBridgeWordTransmit g l s = .next next) : Canonical next.dev := by
  refine main_canonical h0 (fun e he => ?_) h
  repeat' first
    | with_reducible assumption
    | with_reducible apply doBridgeTransmit_canonical
    | simp -implicitDefEqProofs only [Canonical.lit]
    | split
    | intro _
    | dsimp only

theorem execPrbsCheck_canonical (g : Fin 16) (l : Fin 8) (bits : List Bool) (s : State) {next : State} (h0 : Canonical s.dev) (h : execPrbsCheck g l bits s = .next next) : Canonical next.dev := by
  refine main_canonical h0 (fun e he => ?_) h
  repeat' first
    | with_reducible assumption
    | with_reducible apply doPrbsCheck_canonical
    | simp -implicitDefEqProofs only [Canonical.lit]
    | split
    | intro _
    | dsimp only

theorem execLaneClockRecovered_canonical (g : Fin 16) (l : Fin 8) (s : State) {next : State} (h0 : Canonical s.dev) (h : execLaneClockRecovered g l s = .next next) : Canonical next.dev := by
  refine main_canonical h0 (fun e he => ?_) h
  repeat' first
    | with_reducible assumption
    | with_reducible apply doLaneRecovered_canonical
    | simp -implicitDefEqProofs only [Canonical.lit]
    | split
    | intro _
    | dsimp only

theorem execPacketHop_canonical (x : Fin 8) (y : Fin 10) (ins : List (Fin 9 × Fin 4 × Flit)) (s : State) {next : State} (h0 : Canonical s.dev) (h : execPacketHop x y ins s = .next next) : Canonical next.dev := by
  refine main_canonical h0 (fun e he => ?_) h
  repeat' first
    | with_reducible assumption
    | with_reducible apply doPacketHop_canonical
    | simp -implicitDefEqProofs only [Canonical.lit]
    | split
    | intro _
    | dsimp only

theorem execQwr_canonical (k : Packet) (s : State) {next : State} (h0 : Canonical s.dev) (h : execQwr k s = .next next) : Canonical next.dev := by
  refine main_canonical h0 (fun e he => ?_) h
  repeat' first
    | with_reducible assumption
    | with_reducible apply doQwr_canonical
    | with_reducible apply request_canonical
    | with_reducible apply serveQueue_canonical
    | simp -implicitDefEqProofs only [Canonical.lit]
    | split
    | intro _
    | dsimp only

theorem execQrd_canonical (k : Packet) (s : State) {next : State} (h0 : Canonical s.dev) (h : execQrd k s = .next next) : Canonical next.dev := by
  refine main_canonical h0 (fun e he => ?_) h
  repeat' first
    | with_reducible assumption
    | with_reducible apply doQrd_canonical
    | with_reducible apply request_canonical
    | with_reducible apply serveQueue_canonical
    | simp -implicitDefEqProofs only [Canonical.lit]
    | split
    | intro _
    | dsimp only

theorem execCapWr_canonical (k : Packet) (s : State) {next : State} (h0 : Canonical s.dev) (h : execCapWr k s = .next next) : Canonical next.dev := by
  refine main_canonical h0 (fun e he => ?_) h
  repeat' first
    | with_reducible assumption
    | with_reducible apply doCapWr_canonical
    | simp -implicitDefEqProofs only [Canonical.lit]
    | split
    | intro _
    | dsimp only

theorem execTrcWr_canonical (k : Packet) (s : State) {next : State} (h0 : Canonical s.dev) (h : execTrcWr k s = .next next) : Canonical next.dev := by
  refine main_canonical h0 (fun e he => ?_) h
  repeat' first
    | with_reducible assumption
    | with_reducible apply doTrcWr_canonical
    | simp -implicitDefEqProofs only [Canonical.lit]
    | split
    | intro _
    | dsimp only

theorem execRspData_canonical (k : Packet) (s : State) {next : State} (h0 : Canonical s.dev) (h : execRspData k s = .next next) : Canonical next.dev := by
  refine main_canonical h0 (fun e he => ?_) h
  repeat' first
    | with_reducible assumption
    | with_reducible apply doResponse_canonical
    | simp -implicitDefEqProofs only [Canonical.lit]
    | split
    | intro _
    | dsimp only

theorem execRspAck_canonical (k : Packet) (s : State) {next : State} (h0 : Canonical s.dev) (h : execRspAck k s = .next next) : Canonical next.dev := by
  refine main_canonical h0 (fun e he => ?_) h
  repeat' first
    | with_reducible assumption
    | with_reducible apply doResponse_canonical
    | simp -implicitDefEqProofs only [Canonical.lit]
    | split
    | intro _
    | dsimp only

theorem execRspTimeout_canonical (src : Fin 256) (tag : Fin 4096) (s : State) {next : State} (h0 : Canonical s.dev) (h : execRspTimeout src tag s = .next next) : Canonical next.dev := by
  refine main_canonical h0 (fun e he => ?_) h
  repeat' first
    | with_reducible assumption
    | with_reducible apply doRspTimeout_canonical
    | simp -implicitDefEqProofs only [Canonical.lit]
    | split
    | intro _
    | dsimp only

theorem execTagQuarantineEnd_canonical (src : Fin 256) (tag : Fin 4096) (s : State) {next : State} (h0 : Canonical s.dev) (h : execTagQuarantineEnd src tag s = .next next) : Canonical next.dev := by
  refine main_canonical h0 (fun e he => ?_) h
  repeat' first
    | with_reducible assumption
    | with_reducible apply doQuarantineEnd_canonical
    | simp -implicitDefEqProofs only [Canonical.lit]
    | split
    | intro _
    | dsimp only

theorem execRouteTableWrite_canonical (port idx : Fin 256) (entry : W64) (s : State) {next : State} (h0 : Canonical s.dev) (h : execRouteTableWrite port idx entry s = .next next) : Canonical next.dev := by
  refine main_canonical h0 (fun e he => ?_) h
  repeat' first
    | with_reducible assumption
    | with_reducible apply doRouteWrite_canonical
    | simp -implicitDefEqProofs only [Canonical.lit]
    | split
    | intro _
    | dsimp only

theorem execDrain_canonical (n : Fin 64) (s : State) {next : State} (h0 : Canonical s.dev) (h : execDrain n s = .next next) : Canonical next.dev := by
  refine main_canonical h0 (fun e he => ?_) h
  repeat' first
    | with_reducible assumption
    | with_reducible apply drainNi_canonical
    | simp -implicitDefEqProofs only [Canonical.lit]
    | split
    | intro _
    | dsimp only

theorem execDrainComplete_canonical (n : Fin 64) (s : State) {next : State} (h0 : Canonical s.dev) (h : execDrainComplete n s = .next next) : Canonical next.dev := by
  refine main_canonical h0 (fun e he => ?_) h
  repeat' first
    | with_reducible assumption
    | with_reducible apply doDrainComplete_canonical
    | simp -implicitDefEqProofs only [Canonical.lit]
    | split
    | intro _
    | dsimp only

theorem execDrainTimeout_canonical (n : Fin 64) (s : State) {next : State} (h0 : Canonical s.dev) (h : execDrainTimeout n s = .next next) : Canonical next.dev := by
  refine main_canonical h0 (fun e he => ?_) h
  repeat' first
    | with_reducible assumption
    | with_reducible apply doDrainTimeout_canonical
    | simp -implicitDefEqProofs only [Canonical.lit]
    | split
    | intro _
    | dsimp only

theorem execUnfence_canonical (n : Fin 64) (s : State) {next : State} (h0 : Canonical s.dev) (h : execUnfence n s = .next next) : Canonical next.dev := by
  refine main_canonical h0 (fun e he => ?_) h
  repeat' first
    | with_reducible assumption
    | with_reducible apply doUnfence_canonical
    | simp -implicitDefEqProofs only [Canonical.lit]
    | split
    | intro _
    | dsimp only

theorem execNocClrCounts_canonical (s : State) {next : State} (h0 : Canonical s.dev) (h : execNocClrCounts s = .next next) : Canonical next.dev := by
  refine main_canonical h0 (fun e he => ?_) h
  repeat' first
    | with_reducible assumption
    | with_reducible apply doNocClr_canonical
    | simp -implicitDefEqProofs only [Canonical.lit]
    | split
    | intro _
    | dsimp only

theorem execVauxUp_canonical (s : State) {next : State} (h0 : Canonical s.dev) (h : execVauxUp s = .next next) : Canonical next.dev := by
  refine fin_canonical h0 (fun e he => ?_) h
  repeat' first
    | with_reducible assumption
    | with_reducible apply powerOn_canonical
    | simp -implicitDefEqProofs only [Canonical.lit]
    | split
    | intro _
    | dsimp only

theorem execVauxLoss_canonical (s : State) {next : State} (h0 : Canonical s.dev) (h : execVauxLoss s = .next next) : Canonical next.dev := by
  refine fin_canonical h0 (fun e he => ?_) h
  repeat' first
    | with_reducible assumption
    | with_reducible apply doVauxLoss_canonical
    | simp -implicitDefEqProofs only [Canonical.lit]
    | split
    | intro _
    | dsimp only

theorem execVin48Up_canonical (s : State) {next : State} (h0 : Canonical s.dev) (h : execVin48Up s = .next next) : Canonical next.dev := by
  refine fin_canonical h0 (fun e he => ?_) h
  repeat' first
    | with_reducible assumption
    | with_reducible apply doVin48Up_canonical
    | simp -implicitDefEqProofs only [Canonical.lit]
    | split
    | intro _
    | dsimp only

theorem execVin48Loss_canonical (s : State) {next : State} (h0 : Canonical s.dev) (h : execVin48Loss s = .next next) : Canonical next.dev := by
  refine fin_canonical h0 (fun e he => ?_) h
  repeat' first
    | with_reducible assumption
    | with_reducible apply doVin48Loss_canonical
    | simp -implicitDefEqProofs only [Canonical.lit]
    | split
    | intro _
    | dsimp only

theorem execPerstAssert_canonical (s : State) {next : State} (h0 : Canonical s.dev) (h : execPerstAssert s = .next next) : Canonical next.dev := by
  refine fin_canonical h0 (fun e he => ?_) h
  repeat' first
    | with_reducible assumption
    | with_reducible apply doPerstAssert_canonical
    | simp -implicitDefEqProofs only [Canonical.lit]
    | split
    | intro _
    | dsimp only

theorem execPerstDeassert_canonical (s : State) {next : State} (h0 : Canonical s.dev) (h : execPerstDeassert s = .next next) : Canonical next.dev := by
  refine fin_canonical h0 (fun e he => ?_) h
  repeat' first
    | with_reducible assumption
    | with_reducible apply doPerstDeassert_canonical
    | simp -implicitDefEqProofs only [Canonical.lit]
    | split
    | intro _
    | dsimp only

theorem execStartup_canonical (refclk healthOk : Bool) (s : State) {next : State} (h0 : Canonical s.dev) (h : execStartup refclk healthOk s = .next next) : Canonical next.dev := by
  refine fin_canonical h0 (fun e he => ?_) h
  repeat' first
    | with_reducible assumption
    | with_reducible apply doStartup_canonical
    | simp -implicitDefEqProofs only [Canonical.lit]
    | split
    | intro _
    | dsimp only

theorem execDevice_canonical (s : State) {next : State} (h0 : Canonical s.dev) (h : execDevice s = .next next) : Canonical next.dev := by
  refine main_canonical h0 (fun e he => ?_) h
  repeat' first
    | with_reducible assumption
    | with_reducible apply atPage_canonical
    | with_reducible apply doDevice_canonical
    | simp -implicitDefEqProofs only [Canonical.lit]
    | split
    | intro _
    | dsimp only

theorem execFlrPf_canonical (s : State) {next : State} (h0 : Canonical s.dev) (h : execFlrPf s = .next next) : Canonical next.dev := by
  refine config_canonical h0 (fun e he => ?_) h
  repeat' first
    | with_reducible assumption
    | with_reducible apply doFlrPf_canonical
    | simp -implicitDefEqProofs only [Canonical.lit]
    | split
    | intro _
    | dsimp only

theorem execFlrVf_canonical (p : Fin 16) (s : State) {next : State} (h0 : Canonical s.dev) (h : execFlrVf p s = .next next) : Canonical next.dev := by
  refine config_canonical h0 (fun e he => ?_) h
  repeat' first
    | with_reducible assumption
    | with_reducible apply doFlrVf_canonical
    | with_reducible apply p_canonical
    | simp -implicitDefEqProofs only [Canonical.lit]
    | split
    | intro _
    | dsimp only

theorem execFunctionResetComplete_canonical (fn : Fn) (s : State) {next : State} (h0 : Canonical s.dev) (h : execFunctionResetComplete fn s = .next next) : Canonical next.dev := by
  refine main_canonical h0 (fun e he => ?_) h
  repeat' first
    | with_reducible assumption
    | with_reducible apply doFnResetDone_canonical
    | simp -implicitDefEqProofs only [Canonical.lit]
    | split
    | intro _
    | dsimp only

theorem execPtnReset_canonical (mask : BitVec 16) (s : State) {next : State} (h0 : Canonical s.dev) (h : execPtnReset mask s = .next next) : Canonical next.dev := by
  refine main_canonical h0 (fun e he => ?_) h
  repeat' first
    | with_reducible assumption
    | with_reducible apply atPage_canonical
    | with_reducible apply doPtnReset_canonical
    | simp -implicitDefEqProofs only [Canonical.lit]
    | split
    | intro _
    | dsimp only

theorem execPartitionResetComplete_canonical (p : Fin 16) (s : State) {next : State} (h0 : Canonical s.dev) (h : execPartitionResetComplete p s = .next next) : Canonical next.dev := by
  refine main_canonical h0 (fun e he => ?_) h
  repeat' first
    | with_reducible assumption
    | with_reducible apply p_canonical
    | with_reducible apply ptnResetDone_canonical
    | simp -implicitDefEqProofs only [Canonical.lit]
    | split
    | intro _
    | dsimp only

theorem execVfEnableClear_canonical (s : State) {next : State} (h0 : Canonical s.dev) (h : execVfEnableClear s = .next next) : Canonical next.dev := by
  refine config_canonical h0 (fun e he => ?_) h
  repeat' first
    | with_reducible assumption
    | with_reducible apply doVfClear_canonical
    | simp -implicitDefEqProofs only [Canonical.lit]
    | split
    | intro _
    | dsimp only

theorem execVfEnableSet_canonical (num : Fin 17) (s : State) {next : State} (h0 : Canonical s.dev) (h : execVfEnableSet num s = .next next) : Canonical next.dev := by
  refine config_canonical h0 (fun e he => ?_) h
  repeat' first
    | with_reducible assumption
    | with_reducible apply doVfSet_canonical
    | simp -implicitDefEqProofs only [Canonical.lit]
    | split
    | intro _
    | dsimp only

theorem execClusterWake_canonical (ns : List (Fin 64)) (s : State) {next : State} (h0 : Canonical s.dev) (h : execClusterWake ns s = .next next) : Canonical next.dev := by
  refine main_canonical h0 (fun e he => ?_) h
  repeat' first
    | with_reducible assumption
    | with_reducible apply doClusterWake_canonical
    | simp -implicitDefEqProofs only [Canonical.lit]
    | split
    | intro _
    | dsimp only

theorem execClusterIdleDelay_canonical (p : Fin 16) (s : State) {next : State} (h0 : Canonical s.dev) (h : execClusterIdleDelay p s = .next next) : Canonical next.dev := by
  refine main_canonical h0 (fun e he => ?_) h
  repeat' first
    | with_reducible assumption
    | with_reducible apply doIdleDelay_canonical
    | with_reducible apply p_canonical
    | simp -implicitDefEqProofs only [Canonical.lit]
    | split
    | intro _
    | dsimp only

theorem execClusterOffDelay_canonical (n : Fin 64) (s : State) {next : State} (h0 : Canonical s.dev) (h : execClusterOffDelay n s = .next next) : Canonical next.dev := by
  refine main_canonical h0 (fun e he => ?_) h
  repeat' first
    | with_reducible assumption
    | with_reducible apply doOffDelay_canonical
    | simp -implicitDefEqProofs only [Canonical.lit]
    | split
    | intro _
    | dsimp only

theorem execClusterPowerOn_canonical (n : Fin 64) (s : State) {next : State} (h0 : Canonical s.dev) (h : execClusterPowerOn n s = .next next) : Canonical next.dev := by
  refine main_canonical h0 (fun e he => ?_) h
  repeat' first
    | with_reducible assumption
    | with_reducible apply doPowerOnCluster_canonical
    | simp -implicitDefEqProofs only [Canonical.lit]
    | split
    | intro _
    | dsimp only

theorem execCorePllLockLost_canonical (s : State) {next : State} (h0 : Canonical s.dev) (h : execCorePllLockLost s = .next next) : Canonical next.dev := by
  refine main_canonical h0 (fun e he => ?_) h
  repeat' first
    | with_reducible assumption
    | with_reducible apply doPllLost_canonical
    | simp -implicitDefEqProofs only [Canonical.lit]
    | split
    | intro _
    | dsimp only

theorem execWakeSource_canonical (src : Fin 10) (s : State) {next : State} (h0 : Canonical s.dev) (h : execWakeSource src s = .next next) : Canonical next.dev := by
  refine fin_canonical h0 (fun e he => ?_) h
  repeat' first
    | with_reducible assumption
    | with_reducible apply doWake_canonical
    | simp -implicitDefEqProofs only [Canonical.lit]
    | split
    | intro _
    | dsimp only

theorem execHeartbeat_canonical (v : W32) (s : State) {next : State} (h0 : Canonical s.dev) (h : execHeartbeat v s = .next next) : Canonical next.dev := by
  refine main_canonical h0 (fun e he => ?_) h
  repeat' first
    | with_reducible assumption
    | with_reducible apply doHeartbeat_canonical
    | simp -implicitDefEqProofs only [Canonical.lit]
    | split
    | intro _
    | dsimp only

theorem execHeartbeatTimeout_canonical (s : State) {next : State} (h0 : Canonical s.dev) (h : execHeartbeatTimeout s = .next next) : Canonical next.dev := by
  refine main_canonical h0 (fun e he => ?_) h
  repeat' first
    | with_reducible assumption
    | with_reducible apply doHeartbeatTimeout_canonical
    | simp -implicitDefEqProofs only [Canonical.lit]
    | split
    | intro _
    | dsimp only

theorem execGraceTimeout_canonical (s : State) {next : State} (h0 : Canonical s.dev) (h : execGraceTimeout s = .next next) : Canonical next.dev := by
  refine main_canonical h0 (fun e he => ?_) h
  repeat' first
    | with_reducible assumption
    | with_reducible apply doGraceTimeout_canonical
    | simp -implicitDefEqProofs only [Canonical.lit]
    | split
    | intro _
    | dsimp only

theorem execOverTemperature_canonical (q : Fin 5) (celsius : Byte) (s : State) {next : State} (h0 : Canonical s.dev) (h : execOverTemperature q celsius s = .next next) : Canonical next.dev := by
  refine main_canonical h0 (fun e he => ?_) h
  repeat' first
    | with_reducible assumption
    | with_reducible apply doTemperature_canonical
    | simp -implicitDefEqProofs only [Canonical.lit]
    | split
    | intro _
    | dsimp only

theorem execRailFault_canonical (s : State) {next : State} (h0 : Canonical s.dev) (h : execRailFault s = .next next) : Canonical next.dev := by
  refine main_canonical h0 (fun e he => ?_) h
  repeat' first
    | with_reducible assumption
    | with_reducible apply controlledStop_canonical
    | simp -implicitDefEqProofs only [Canonical.lit]
    | split
    | intro _
    | dsimp only

theorem execWardenStop_canonical (s : State) {next : State} (h0 : Canonical s.dev) (h : execWardenStop s = .next next) : Canonical next.dev := by
  refine main_canonical h0 (fun e he => ?_) h
  repeat' first
    | with_reducible assumption
    | with_reducible apply atPage_canonical
    | with_reducible apply controlledStop_canonical
    | simp -implicitDefEqProofs only [Canonical.lit]
    | split
    | intro _
    | dsimp only

theorem execStopDrainTimeout_canonical (s : State) {next : State} (h0 : Canonical s.dev) (h : execStopDrainTimeout s = .next next) : Canonical next.dev := by
  refine main_canonical h0 (fun e he => ?_) h
  repeat' first
    | with_reducible assumption
    | with_reducible apply doStopDrain_canonical
    | simp -implicitDefEqProofs only [Canonical.lit]
    | split
    | intro _
    | dsimp only

theorem execStopComplete_canonical (s : State) {next : State} (h0 : Canonical s.dev) (h : execStopComplete s = .next next) : Canonical next.dev := by
  refine main_canonical h0 (fun e he => ?_) h
  repeat' first
    | with_reducible assumption
    | with_reducible apply doStopComplete_canonical
    | simp -implicitDefEqProofs only [Canonical.lit]
    | split
    | intro _
    | dsimp only

theorem execStringJoin_canonical (s : State) {next : State} (h0 : Canonical s.dev) (h : execStringJoin s = .next next) : Canonical next.dev := by
  refine main_canonical h0 (fun e he => ?_) h
  repeat' first
    | with_reducible assumption
    | with_reducible apply atPage_canonical
    | with_reducible apply doStringJoin_canonical
    | simp -implicitDefEqProofs only [Canonical.lit]
    | split
    | intro _
    | dsimp only

theorem execStringOpen_canonical (s : State) {next : State} (h0 : Canonical s.dev) (h : execStringOpen s = .next next) : Canonical next.dev := by
  refine main_canonical h0 (fun e he => ?_) h
  repeat' first
    | with_reducible assumption
    | with_reducible apply doStringOpen_canonical
    | simp -implicitDefEqProofs only [Canonical.lit]
    | split
    | intro _
    | dsimp only

theorem execStringLeave_canonical (s : State) {next : State} (h0 : Canonical s.dev) (h : execStringLeave s = .next next) : Canonical next.dev := by
  refine main_canonical h0 (fun e he => ?_) h
  repeat' first
    | with_reducible assumption
    | with_reducible apply atPage_canonical
    | with_reducible apply doStringLeave_canonical
    | simp -implicitDefEqProofs only [Canonical.lit]
    | split
    | intro _
    | dsimp only

theorem execStringBroken_canonical (s : State) {next : State} (h0 : Canonical s.dev) (h : execStringBroken s = .next next) : Canonical next.dev := by
  refine main_canonical h0 (fun e he => ?_) h
  repeat' first
    | with_reducible assumption
    | with_reducible apply doStringBroken_canonical
    | simp -implicitDefEqProofs only [Canonical.lit]
    | split
    | intro _
    | dsimp only

theorem execDiscover_canonical (s : State) {next : State} (h0 : Canonical s.dev) (h : execDiscover s = .next next) : Canonical next.dev := by
  refine main_canonical h0 (fun e he => ?_) h
  repeat' first
    | with_reducible assumption
    | with_reducible apply atPage_canonical
    | with_reducible apply doDiscover_canonical
    | simp -implicitDefEqProofs only [Canonical.lit]
    | split
    | intro _
    | dsimp only

theorem execCollect_canonical (src : Fin 512) (ttl : Nat) (map : BitVec 512) (mark : RingMark) (s : State) {next : State} (h0 : Canonical s.dev) (h : execCollect src ttl map mark s = .next next) : Canonical next.dev := by
  refine main_canonical h0 (fun e he => ?_) h
  repeat' first
    | with_reducible assumption
    | with_reducible apply doCollect_canonical
    | simp -implicitDefEqProofs only [Canonical.lit]
    | split
    | intro _
    | dsimp only

theorem execAssign_canonical (src : Fin 512) (ttl : Nat) (map : BitVec 512) (mark : RingMark) (s : State) {next : State} (h0 : Canonical s.dev) (h : execAssign src ttl map mark s = .next next) : Canonical next.dev := by
  refine main_canonical h0 (fun e he => ?_) h
  repeat' first
    | with_reducible assumption
    | with_reducible apply doAssign_canonical
    | simp -implicitDefEqProofs only [Canonical.lit]
    | split
    | intro _
    | dsimp only

theorem execStringBeacon_canonical (src : Fin 512) (ttl : Nat) (ns : W64) (frac : BitVec 16) (mark : RingMark) (s : State) {next : State} (h0 : Canonical s.dev) (h : execStringBeacon src ttl ns frac mark s = .next next) : Canonical next.dev := by
  refine main_canonical h0 (fun e he => ?_) h
  repeat' first
    | with_reducible assumption
    | with_reducible apply doStringBeacon_canonical
    | simp -implicitDefEqProofs only [Canonical.lit]
    | split
    | intro _
    | dsimp only

theorem execStringFreeze_canonical (src : Fin 512) (n : Byte) (ttl : Nat) (tail : FreezeTail) (s : State) {next : State} (h0 : Canonical s.dev) (h : execStringFreeze src n ttl tail s = .next next) : Canonical next.dev := by
  refine main_canonical h0 (fun e he => ?_) h
  repeat' first
    | with_reducible assumption
    | with_reducible apply doStringFreeze_canonical
    | simp -implicitDefEqProofs only [Canonical.lit]
    | split
    | intro _
    | dsimp only

theorem execStringStrobe_canonical (src : Fin 512) (n : Byte) (ttl : Nat) (crc : W32) (s : State) {next : State} (h0 : Canonical s.dev) (h : execStringStrobe src n ttl crc s = .next next) : Canonical next.dev := by
  refine main_canonical h0 (fun e he => ?_) h
  repeat' first
    | with_reducible assumption
    | with_reducible apply doStringStrobe_canonical
    | simp -implicitDefEqProofs only [Canonical.lit]
    | split
    | intro _
    | dsimp only

theorem execResetReq_canonical (src : Fin 512) (n : Byte) (dest : Fin 512) (ttl : Nat) (crc : W32) (s : State) {next : State} (h0 : Canonical s.dev) (h : execResetReq src n dest ttl crc s = .next next) : Canonical next.dev := by
  refine main_canonical h0 (fun e he => ?_) h
  repeat' first
    | with_reducible assumption
    | with_reducible apply doResetReq_canonical
    | simp -implicitDefEqProofs only [Canonical.lit]
    | split
    | intro _
    | dsimp only

theorem execMsg_canonical (src dest : Fin 512) (ttl : Nat) (cfg : List (Fin 16 × W32)) (mark : RingMark) (s : State) {next : State} (h0 : Canonical s.dev) (h : execMsg src dest ttl cfg mark s = .next next) : Canonical next.dev := by
  refine main_canonical h0 (fun e he => ?_) h
  repeat' first
    | with_reducible assumption
    | with_reducible apply doMsg_canonical
    | simp -implicitDefEqProofs only [Canonical.lit]
    | split
    | intro _
    | dsimp only

theorem execResetReqSend_canonical (s : State) {next : State} (h0 : Canonical s.dev) (h : execResetReqSend s = .next next) : Canonical next.dev := by
  refine main_canonical h0 (fun e he => ?_) h
  repeat' first
    | with_reducible assumption
    | with_reducible apply atPage_canonical
    | with_reducible apply doResetReqSend_canonical
    | simp -implicitDefEqProofs only [Canonical.lit]
    | split
    | intro _
    | dsimp only

theorem execStringFrameRepeat_canonical (s : State) {next : State} (h0 : Canonical s.dev) (h : execStringFrameRepeat s = .next next) : Canonical next.dev := by
  refine main_canonical h0 (fun e he => ?_) h
  repeat' first
    | with_reducible assumption
    | with_reducible apply doRepeat_canonical
    | simp -implicitDefEqProofs only [Canonical.lit]
    | split
    | intro _
    | dsimp only

theorem execStringBeaconSend_canonical (s : State) {next : State} (h0 : Canonical s.dev) (h : execStringBeaconSend s = .next next) : Canonical next.dev := by
  refine main_canonical h0 (fun e he => ?_) h
  repeat' first
    | with_reducible assumption
    | with_reducible apply doStringBeaconSend_canonical
    | simp -implicitDefEqProofs only [Canonical.lit]
    | split
    | intro _
    | dsimp only

theorem execRegisterWrite_canonical (fn : Fn) (off v : Nat) (wide : Bool) (s : State) {next : State} (h0 : Canonical s.dev) (h : execRegisterWrite fn off v wide s = .next next) : Canonical next.dev := by
  refine main_canonical h0 (fun e he => ?_) h
  repeat' first
    | with_reducible assumption
    | with_reducible apply doRegisterWrite_canonical
    | simp -implicitDefEqProofs only [Canonical.lit]
    | split
    | intro _
    | dsimp only

theorem execPairLowRead_canonical (fn : Fn) (place : ReadAt) (s : State) {next : State} (h0 : Canonical s.dev) (h : execPairLowRead fn place s = .next next) : Canonical next.dev := by
  refine main_canonical h0 (fun e he => ?_) h
  repeat' first
    | with_reducible assumption
    | with_reducible apply doRead32_canonical
    | with_reducible apply doRead64_canonical
    | simp -implicitDefEqProofs only [Canonical.lit]
    | split
    | intro _
    | dsimp only

theorem execPairLowWrite_canonical (fn : Fn) (off v : Nat) (s : State) {next : State} (h0 : Canonical s.dev) (h : execPairLowWrite fn off v s = .next next) : Canonical next.dev := by
  refine main_canonical h0 (fun e he => ?_) h
  repeat' first
    | with_reducible assumption
    | with_reducible apply doRegisterWrite_canonical
    | simp -implicitDefEqProofs only [Canonical.lit]
    | split
    | intro _
    | dsimp only

theorem execPairHighWrite_canonical (fn : Fn) (off v : Nat) (s : State) {next : State} (h0 : Canonical s.dev) (h : execPairHighWrite fn off v s = .next next) : Canonical next.dev := by
  refine main_canonical h0 (fun e he => ?_) h
  repeat' first
    | with_reducible assumption
    | with_reducible apply doRegisterWrite_canonical
    | simp -implicitDefEqProofs only [Canonical.lit]
    | split
    | intro _
    | dsimp only

theorem execMisalignedAccess_canonical (fn : Fn) (off size : Nat) (write : Bool) (s : State) {next : State} (h0 : Canonical s.dev) (h : execMisalignedAccess fn off size write s = .next next) : Canonical next.dev := by
  refine main_canonical h0 (fun e he => ?_) h
  repeat' first
    | with_reducible assumption
    | with_reducible apply doMisaligned_canonical
    | simp -implicitDefEqProofs only [Canonical.lit]
    | split
    | intro _
    | dsimp only

theorem execFenceRead_canonical (fn : Fn) (off : Nat) (s : State) {next : State} (h0 : Canonical s.dev) (h : execFenceRead fn off s = .next next) : Canonical next.dev := by
  refine main_canonical h0 (fun e he => ?_) h
  repeat' first
    | with_reducible assumption
    | with_reducible apply doFenceRead_canonical
    | simp -implicitDefEqProofs only [Canonical.lit]
    | split
    | intro _
    | dsimp only

theorem execRd_canonical (k : Packet) (s : State) {next : State} (h0 : Canonical s.dev) (h : execRd k s = .next next) : Canonical next.dev := by
  refine main_canonical h0 (fun e he => ?_) h
  repeat' first
    | with_reducible assumption
    | with_reducible apply request_canonical
    | with_reducible apply serveAccess_canonical
    | simp -implicitDefEqProofs only [Canonical.lit]
    | split
    | intro _
    | dsimp only

theorem execWr_canonical (k : Packet) (s : State) {next : State} (h0 : Canonical s.dev) (h : execWr k s = .next next) : Canonical next.dev := by
  refine main_canonical h0 (fun e he => ?_) h
  repeat' first
    | with_reducible assumption
    | with_reducible apply request_canonical
    | with_reducible apply serveAccess_canonical
    | simp -implicitDefEqProofs only [Canonical.lit]
    | split
    | intro _
    | dsimp only

theorem execStrobeLatch_canonical (s : State) {next : State} (h0 : Canonical s.dev) (h : execStrobeLatch s = .next next) : Canonical next.dev := by
  refine main_canonical h0 (fun e he => ?_) h
  repeat' first
    | with_reducible assumption
    | with_reducible apply doStrobeLatch_canonical
    | simp -implicitDefEqProofs only [Canonical.lit]
    | split
    | intro _
    | dsimp only

theorem execBar2Read_canonical (fn : Fn) (off len : Nat) (s : State) {next : State} (h0 : Canonical s.dev) (h : execBar2Read fn off len s = .next next) : Canonical next.dev := by
  refine main_canonical h0 (fun e he => ?_) h
  repeat' first
    | with_reducible assumption
    | with_reducible apply doBar2Read_canonical
    | simp -implicitDefEqProofs only [Canonical.lit]
    | split
    | intro _
    | dsimp only

theorem execBar2Write_canonical (fn : Fn) (off : Nat) (bytes : List Byte) (s : State) {next : State} (h0 : Canonical s.dev) (h : execBar2Write fn off bytes s = .next next) : Canonical next.dev := by
  refine main_canonical h0 (fun e he => ?_) h
  repeat' first
    | with_reducible assumption
    | with_reducible apply doBar2Write_canonical
    | simp -implicitDefEqProofs only [Canonical.lit]
    | split
    | intro _
    | dsimp only

theorem execCaptureWindowRead_canonical (p : Fin 16) (off len : Nat) (s : State) {next : State} (h0 : Canonical s.dev) (h : execCaptureWindowRead p off len s = .next next) : Canonical next.dev := by
  refine main_canonical h0 (fun e he => ?_) h
  repeat' first
    | with_reducible assumption
    | with_reducible apply doCaptureRead_canonical
    | with_reducible apply p_canonical
    | simp -implicitDefEqProofs only [Canonical.lit]
    | split
    | intro _
    | dsimp only

theorem execIrqStatClear_canonical (base : Nat) (v : W32) (s : State) {next : State} (h0 : Canonical s.dev) (h : execIrqStatClear base v s = .next next) : Canonical next.dev := by
  refine main_canonical h0 (fun e he => ?_) h
  repeat' first
    | with_reducible assumption
    | with_reducible apply atPlace_canonical
    | with_reducible apply write32_canonical
    | simp -implicitDefEqProofs only [Canonical.lit]
    | split
    | intro _
    | dsimp only

theorem execIrqForce_canonical (base : Nat) (v : W32) (s : State) {next : State} (h0 : Canonical s.dev) (h : execIrqForce base v s = .next next) : Canonical next.dev := by
  refine main_canonical h0 (fun e he => ?_) h
  repeat' first
    | with_reducible assumption
    | with_reducible apply atPlace_canonical
    | with_reducible apply write32_canonical
    | simp -implicitDefEqProofs only [Canonical.lit]
    | split
    | intro _
    | dsimp only

theorem execMsixUnmask_canonical (fn : Fn) (v : Fin 32) (s : State) {next : State} (h0 : Canonical s.dev) (h : execMsixUnmask fn v s = .next next) : Canonical next.dev := by
  refine main_canonical h0 (fun e he => ?_) h
  repeat' first
    | with_reducible assumption
    | with_reducible apply doUnmask_canonical
    | simp -implicitDefEqProofs only [Canonical.lit]
    | split
    | intro _
    | dsimp only

theorem execMbistGo_canonical (n : Fin 64) (s : State) {next : State} (h0 : Canonical s.dev) (h : execMbistGo n s = .next next) : Canonical next.dev := by
  refine main_canonical h0 (fun e he => ?_) h
  repeat' first
    | with_reducible assumption
    | with_reducible apply atPage_canonical
    | with_reducible apply doMbistGo_canonical
    | simp -implicitDefEqProofs only [Canonical.lit]
    | split
    | intro _
    | dsimp only

theorem execMbistComplete_canonical (n : Fin 64) (failed : Option (BitVec 64)) (s : State) {next : State} (h0 : Canonical s.dev) (h : execMbistComplete n failed s = .next next) : Canonical next.dev := by
  refine main_canonical h0 (fun e he => ?_) h
  repeat' first
    | with_reducible assumption
    | with_reducible apply doMbistComplete_canonical
    | with_reducible apply failed_canonical
    | simp -implicitDefEqProofs only [Canonical.lit]
    | split
    | intro _
    | dsimp only

theorem execMntRelease_canonical (code : Fin 8) (owner : Fin 17) (inst : Fin 64) (s : State) {next : State} (h0 : Canonical s.dev) (h : execMntRelease code owner inst s = .next next) : Canonical next.dev := by
  refine main_canonical h0 (fun e he => ?_) h
  repeat' first
    | with_reducible assumption
    | with_reducible apply doRelease_canonical
    | simp -implicitDefEqProofs only [Canonical.lit]
    | split
    | intro _
    | dsimp only

theorem execBoundaryScanExtest_canonical (on : Bool) (s : State) {next : State} (h0 : Canonical s.dev) (h : execBoundaryScanExtest on s = .next next) : Canonical next.dev := by
  refine fin_canonical h0 (fun e he => ?_) h
  repeat' first
    | with_reducible assumption
    | with_reducible apply on_canonical
    | simp -implicitDefEqProofs only [Canonical.lit]
    | split
    | intro _
    | dsimp only
end Sys2Proof.Machine
end

