-- ==== Sys2Proof/Laws/KeepDirectory1.lean ====
section
/-! SUPPORT. The directory and the resizes in progress are left as they were by the shared operations, registers, queues, HBM, capture, trace and triggers: one lemma for each function that leaves them. -/

set_option linter.all false

namespace Sys2Proof.Machine.Dev

set_option Elab.async false

/-- What the directory says of partition `i`, and what a resize in progress will make of it. -/
def dirOf (d : Dev) (i : Nat) : Nat × Nat × Nat × Nat × Nat × Nat :=
  (d.dirState i, d.mask i, d.g pDEV (DEV_DIR_QBASE i), d.g pDEV (DEV_DIR_QCOUNT i), (d.ptnAt i).pendMask, (d.ptnAt i).pendShape)
/-- The directory and the resizes in progress are those of `z`. -/
structure Dir (z d : Dev) : Prop where
  same : ∀ i < 16, d.dirOf i = z.dirOf i
/-- A page base: the device's page, or one beyond it. -/
def Page (base : Nat) : Prop := base = 0 ∨ 0x1000 ≤ base
/-- A field whose bits lie outside the words of the directory that `dirOf` reads. -/
def Off (base : Nat) (f : Fld) : Prop :=
  0x1000 ≤ base ∨ base = 0 ∧ ∀ i < 16, f.bit ≠ 8 * (0x200 + 16 * i) ∧ f.bit ≠ 8 * (0x204 + 16 * i) ∧ f.bit ≠ 8 * (0x20C + 16 * i) ∧ f.bit ≠ 8 * (0x20C + 16 * i) + 16
variable {z : Dev}
theorem Dir.rfl {d : Dev} : Dir d d := ⟨fun _ _ => Eq.refl _⟩
theorem dirOf_mk (d e : Dev) (i : Nat) (h : e.fld = d.fld) (h' : e.ptn = d.ptn) : e.dirOf i = d.dirOf i := by
  simp only [dirOf, dirState, mask, g, ptnAt, h, h']
theorem Dir.of {d e : Dev} (h : Dir z d) (h1 : e.fld = d.fld) (h2 : e.ptn = d.ptn) : Dir z e := ⟨fun i hi => (dirOf_mk d e i h1 h2).trans (h.same i hi)⟩
theorem Dir.lit {d : Dev} {pairRd : SMap Nat} {pairWr : SMap Nat} {code : Code} {st : Stores} {fab : SMap Sig} {clu : SMap Clu} {queue : SMap Queue} {dsp : Dsp} {ime : Ime} {trg : Trg} {cap : Cap} {trc : SMap Strm} {nonce : Option (BitVec 256)} {link : SMap Link} {noc : Noc} {boot : Boot} {pwr : Pwr} {ring : Ring} {log : LogS} {mnt : Mnt} {sys : Sys} {time : Nat} {slewTo : Int} {ticks : Nat} {latchAt : Option Nat} {strobeSrc : Option Nat} {raised : List (Nat × WordLoc × Bool)} {rewrites : List (Nat × WordLoc × Bool)} {evq : List Ev} {bus : List Nat} {answers : List (List W64)} {heldAns : List (Nat × List W64)} {out : List Out} {fresh : Nat} {hbm : SMap Byte} : Dir z ⟨d.fld, pairRd, pairWr, code, st, fab, clu, d.ptn, queue, dsp, hbm, ime, trg, cap, trc, nonce, link, noc, boot, pwr, ring, log, mnt, sys, time, slewTo, ticks, latchAt, strobeSrc, raised, rewrites, evq, bus, answers, heldAns, out, fresh⟩ = Dir z d :=
  propext ⟨fun h => h.of (Eq.refl _) (Eq.refl _), fun h => h.of (Eq.refl _) (Eq.refl _)⟩
theorem off_key {base : Nat} {f : Fld} (h : Off base f) {i : Nat} (hi : i < 16) :
    8 * base + f.bit ≠ 8 * pDEV + (DEV_DIR_STATE i).bit ∧ 8 * base + f.bit ≠ 8 * pDEV + (DEV_DIR_MASK i).bit ∧
    8 * base + f.bit ≠ 8 * pDEV + (DEV_DIR_QBASE i).bit ∧ 8 * base + f.bit ≠ 8 * pDEV + (DEV_DIR_QCOUNT i).bit := by
  simp only [DEV_DIR_STATE, DEV_DIR_MASK, DEV_DIR_QBASE, DEV_DIR_QCOUNT, Fld.bit, pDEV] at h ⊢
  rcases h with h | ⟨h, h'⟩
  · omega
  · have := h' i hi; simp only [Fld.bit] at this; omega
theorem p_dir (d : Dev) (base : Nat) (f : Fld) (v : Nat) (h : Dir z d) (ho : Off base f) : Dir z (p d base f v) := by
  refine ⟨fun i hi => ?_⟩
  obtain ⟨h1, h2, h3, h4⟩ := off_key ho hi
  rw [← h.same i hi]
  simp only [dirOf, dirState, mask, g, p, ptnAt, SMap.get, SMap.get?_set, if_neg h1.symm, if_neg h2.symm, if_neg h3.symm, if_neg h4.symm]
theorem resetRange_dir (d : Dev) (lo hi : Nat) (h : Dir z d) (ho : hi ≤ 0x200 ∨ 0x300 ≤ lo) : Dir z (resetRange d lo hi) := by
  refine ⟨fun i hi' => ?_⟩
  rw [← h.same i hi']
  have k (f : Fld) (h1 : 0x1000 ≤ f.bit) (h2 : f.bit < 0x1800) : (resetRange d lo hi).g pDEV f = d.g pDEV f := by
    simp only [g, resetRange, SMap.get, SMap.get?_delRange, pDEV]
    split
    · rfl
    · omega
  simp only [dirOf, dirState, mask]
  rw [k, k, k, k]
  · rfl
  all_goals simp only [DEV_DIR_STATE, DEV_DIR_MASK, DEV_DIR_QBASE, DEV_DIR_QCOUNT, Fld.bit]; omega
theorem setPtn_dir (d : Dev) (i : Nat) (c : Ptn) (h : Dir z d) (h1 : c.pendMask = (d.ptnAt i).pendMask) (h2 : c.pendShape = (d.ptnAt i).pendShape) :
    Dir z (setPtn d i c) := by
  refine ⟨fun j hj => ?_⟩
  rw [← h.same j hj]
  show ((d.g _ _, d.g _ _, d.g _ _, d.g _ _, _, _) : Nat × Nat × Nat × Nat × Nat × Nat) = (d.g _ _, d.g _ _, d.g _ _, d.g _ _, _, _)
  by_cases e : j = i
  · subst e; rw [ptnAt_setPtn_self, h1, h2]
  · rw [ptnAt_setPtn_ne _ _ _ _ e]
theorem modPtn_dir (d : Dev) (i : Nat) (f : Ptn → Ptn) (h : Dir z d) (h1 : ∀ x, (f x).pendMask = x.pendMask ∧ (f x).pendShape = x.pendShape) : Dir z (modPtn d i f) := setPtn_dir _ _ _ h (h1 _).1 (h1 _).2
theorem emit_dir (d : Dev) (o : Out) (h : Dir z d) : Dir z (emit d o) := h.of (Eq.refl _) (Eq.refl _)
theorem setClu_dir (d : Dev) (n : Nat) (c : Clu) (h : Dir z d) : Dir z (setClu d n c) := h.of (Eq.refl _) (Eq.refl _)
theorem setQueue_dir (d : Dev) (n : Nat) (c : Queue) (h : Dir z d) : Dir z (setQueue d n c) := h.of (Eq.refl _) (Eq.refl _)
theorem setLink_dir (d : Dev) (n : Nat) (c : Link) (h : Dir z d) : Dir z (setLink d n c) := h.of (Eq.refl _) (Eq.refl _)
theorem setChan_dir (d : Dev) (n : Nat) (c : Chan) (h : Dir z d) : Dir z (setChan d n c) := h.of (Eq.refl _) (Eq.refl _)
theorem setStrm_dir (d : Dev) (n : Nat) (c : Strm) (h : Dir z d) : Dir z (setStrm d n c) := h.of (Eq.refl _) (Eq.refl _)
theorem setCourier_dir (d : Dev) (n : Nat) (c : Courier) (h : Dir z d) : Dir z (setCourier d n c) := h.of (Eq.refl _) (Eq.refl _)
theorem setList_dir (d : Dev) (n : Nat) (c : List Work) (h : Dir z d) : Dir z (setList d n c) := h.of (Eq.refl _) (Eq.refl _)
theorem raise_dir (d : Dev) (num cls owner i0 i1 : Nat) (h : Dir z d) : Dir z (raise d num cls owner i0 i1) := h.of (Eq.refl _) (Eq.refl _)
theorem tick_dir (d : Dev)  (h : Dir z d) : Dir z (tick d ) := h.of (Eq.refl _) (Eq.refl _)
theorem setSt_dir (d : Dev) (s : Stores) (h : Dir z d) : Dir z (setSt d s) := h.of (Eq.refl _) (Eq.refl _)
theorem foldl_dir {α : Type} (f : Dev → α → Dev) (xs : List α) (d : Dev) (h : Dir z d) (hf : ∀ e a, Dir z e → Dir z (f e a)) : Dir z (xs.foldl f d) := by
  induction xs generalizing d with
  | nil => exact h
  | cons x xs ih => exact ih _ (hf _ _ h)
theorem fold1_dir {α β : Type} (f : Dev × β → α → Dev × β) (xs : List α) (r : Dev × β) (h : Dir z r.1) (hf : ∀ e a, Dir z e.1 → Dir z (f e a).1) : Dir z (xs.foldl f r).1 := by
  induction xs generalizing r with
  | nil => exact h
  | cons x xs ih => exact ih _ (hf _ _ h)
theorem each_dir {α : Type} (d : Dev) (xs : List α) (f : Dev → α → Dev) (h : Dir z d) (hf : ∀ e a, Dir z e → Dir z (f e a)) : Dir z (d.each xs f) := foldl_dir f xs d h hf
theorem iff_dir (d : Dev) (c : Bool) (f : Dev → Dev) (h : Dir z d) (hf : ∀ e, Dir z e → Dir z (f e)) : Dir z (d.iff c f) := by
  unfold iff; split
  · exact hf d h
  · exact h
theorem id_dir (d : Dev) (h : Dir z d) : Dir z (id d) := h
theorem ge_pAON : (0x1000 ≤ pAON) = True := eq_true (by decide)
theorem ge_pWDN : (0x1000 ≤ pWDN) = True := eq_true (by decide)
theorem ge_pPMU : (0x1000 ≤ pPMU) = True := eq_true (by decide)
theorem ge_pCKG : (0x1000 ≤ pCKG) = True := eq_true (by decide)
theorem ge_pRST : (0x1000 ≤ pRST) = True := eq_true (by decide)
theorem ge_pFUS : (0x1000 ≤ pFUS) = True := eq_true (by decide)
theorem ge_pLOG : (0x1000 ≤ pLOG) = True := eq_true (by decide)
theorem ge_pEVC : (0x1000 ≤ pEVC) = True := eq_true (by decide)
theorem ge_pSNP : (0x1000 ≤ pSNP) = True := eq_true (by decide)
theorem ge_pTSB : (0x1000 ≤ pTSB) = True := eq_true (by decide)
theorem ge_pMNT : (0x1000 ≤ pMNT) = True := eq_true (by decide)
theorem ge_pSTR : (0x1000 ≤ pSTR) = True := eq_true (by decide)
theorem ge_pPUP : (0x1000 ≤ pPUP) = True := eq_true (by decide)
theorem ge_pLDR : (0x1000 ≤ pLDR) = True := eq_true (by decide)
theorem ge_pSCR : (0x1000 ≤ pSCR) = True := eq_true (by decide)
theorem ge_pPCI : (0x1000 ≤ pPCI) = True := eq_true (by decide)
theorem ge_pNOC : (0x1000 ≤ pNOC) = True := eq_true (by decide)
theorem ge_pIME : (0x1000 ≤ pIME) = True := eq_true (by decide)
theorem ge_pKRE : (0x1000 ≤ pKRE) = True := eq_true (by decide)
theorem ge_pTRG : (0x1000 ≤ pTRG) = True := eq_true (by decide)
theorem ge_pCAP : (0x1000 ≤ pCAP) = True := eq_true (by decide)
theorem ge_pTRC : (0x1000 ≤ pTRC) = True := eq_true (by decide)
theorem ge_pMQE : (0x1000 ≤ pMQE) = True := eq_true (by decide)
theorem ge_pDSP : (0x1000 ≤ pDSP) = True := eq_true (by decide)
theorem ge_pCRR : (0x1000 ≤ pCRR) = True := eq_true (by decide)
theorem ge_pLNK : (0x1000 ≤ pLNK) = True := eq_true (by decide)
theorem ge_pLSC : (0x1000 ≤ pLSC) = True := eq_true (by decide)
theorem ge_pHIST : (0x1000 ≤ pHIST) = True := eq_true (by decide)
theorem ge_pCFG : (0x1000 ≤ pCFG) = True := eq_true (by decide)
theorem ge_pHMC (n : Nat) : (0x1000 ≤ pHMC n) = True := eq_true (by simp only [pHMC]; omega)
theorem ge_pLGRP (n : Nat) : (0x1000 ≤ pLGRP n) = True := eq_true (by simp only [pLGRP]; omega)
theorem ge_pPTN (n : Nat) : (0x1000 ≤ pPTN n) = True := eq_true (by simp only [pPTN]; omega)
theorem ge_pCLU (n : Nat) : (0x1000 ≤ pCLU n) = True := eq_true (by simp only [pCLU]; omega)
theorem ge_pSLC (n : Nat) : (0x1000 ≤ pSLC n) = True := eq_true (by simp only [pSLC]; omega)
theorem ge_pWIN (n w : Nat) : (0x1000 ≤ pWIN n w) = True := eq_true (by simp only [pWIN, pCLU]; omega)
theorem ge_pMSIX (fn : Fn) : (0x1000 ≤ pMSIX fn) = True := eq_true (by cases fn <;> simp only [pMSIX] <;> omega)
theorem off_pAON  (f : Fld) : Off (pAON) f = True := eq_true (Or.inl (of_eq_true (ge_pAON)))
theorem page_pAON  : Page (pAON) = True := eq_true (Or.inr (of_eq_true (ge_pAON)))
theorem off_pWDN  (f : Fld) : Off (pWDN) f = True := eq_true (Or.inl (of_eq_true (ge_pWDN)))
theorem page_pWDN  : Page (pWDN) = True := eq_true (Or.inr (of_eq_true (ge_pWDN)))
theorem off_pPMU  (f : Fld) : Off (pPMU) f = True := eq_true (Or.inl (of_eq_true (ge_pPMU)))
theorem page_pPMU  : Page (pPMU) = True := eq_true (Or.inr (of_eq_true (ge_pPMU)))
theorem off_pCKG  (f : Fld) : Off (pCKG) f = True := eq_true (Or.inl (of_eq_true (ge_pCKG)))
theorem page_pCKG  : Page (pCKG) = True := eq_true (Or.inr (of_eq_true (ge_pCKG)))
theorem off_pRST  (f : Fld) : Off (pRST) f = True := eq_true (Or.inl (of_eq_true (ge_pRST)))
theorem page_pRST  : Page (pRST) = True := eq_true (Or.inr (of_eq_true (ge_pRST)))
theorem off_pFUS  (f : Fld) : Off (pFUS) f = True := eq_true (Or.inl (of_eq_true (ge_pFUS)))
theorem page_pFUS  : Page (pFUS) = True := eq_true (Or.inr (of_eq_true (ge_pFUS)))
theorem off_pLOG  (f : Fld) : Off (pLOG) f = True := eq_true (Or.inl (of_eq_true (ge_pLOG)))
theorem page_pLOG  : Page (pLOG) = True := eq_true (Or.inr (of_eq_true (ge_pLOG)))
theorem off_pEVC  (f : Fld) : Off (pEVC) f = True := eq_true (Or.inl (of_eq_true (ge_pEVC)))
theorem page_pEVC  : Page (pEVC) = True := eq_true (Or.inr (of_eq_true (ge_pEVC)))
theorem off_pSNP  (f : Fld) : Off (pSNP) f = True := eq_true (Or.inl (of_eq_true (ge_pSNP)))
theorem page_pSNP  : Page (pSNP) = True := eq_true (Or.inr (of_eq_true (ge_pSNP)))
theorem off_pTSB  (f : Fld) : Off (pTSB) f = True := eq_true (Or.inl (of_eq_true (ge_pTSB)))
theorem page_pTSB  : Page (pTSB) = True := eq_true (Or.inr (of_eq_true (ge_pTSB)))
theorem off_pMNT  (f : Fld) : Off (pMNT) f = True := eq_true (Or.inl (of_eq_true (ge_pMNT)))
theorem page_pMNT  : Page (pMNT) = True := eq_true (Or.inr (of_eq_true (ge_pMNT)))
theorem off_pSTR  (f : Fld) : Off (pSTR) f = True := eq_true (Or.inl (of_eq_true (ge_pSTR)))
theorem page_pSTR  : Page (pSTR) = True := eq_true (Or.inr (of_eq_true (ge_pSTR)))
theorem off_pPUP  (f : Fld) : Off (pPUP) f = True := eq_true (Or.inl (of_eq_true (ge_pPUP)))
theorem page_pPUP  : Page (pPUP) = True := eq_true (Or.inr (of_eq_true (ge_pPUP)))
theorem off_pLDR  (f : Fld) : Off (pLDR) f = True := eq_true (Or.inl (of_eq_true (ge_pLDR)))
theorem page_pLDR  : Page (pLDR) = True := eq_true (Or.inr (of_eq_true (ge_pLDR)))
theorem off_pSCR  (f : Fld) : Off (pSCR) f = True := eq_true (Or.inl (of_eq_true (ge_pSCR)))
theorem page_pSCR  : Page (pSCR) = True := eq_true (Or.inr (of_eq_true (ge_pSCR)))
theorem off_pPCI  (f : Fld) : Off (pPCI) f = True := eq_true (Or.inl (of_eq_true (ge_pPCI)))
theorem page_pPCI  : Page (pPCI) = True := eq_true (Or.inr (of_eq_true (ge_pPCI)))
theorem off_pNOC  (f : Fld) : Off (pNOC) f = True := eq_true (Or.inl (of_eq_true (ge_pNOC)))
theorem page_pNOC  : Page (pNOC) = True := eq_true (Or.inr (of_eq_true (ge_pNOC)))
theorem off_pIME  (f : Fld) : Off (pIME) f = True := eq_true (Or.inl (of_eq_true (ge_pIME)))
theorem page_pIME  : Page (pIME) = True := eq_true (Or.inr (of_eq_true (ge_pIME)))
theorem off_pKRE  (f : Fld) : Off (pKRE) f = True := eq_true (Or.inl (of_eq_true (ge_pKRE)))
theorem page_pKRE  : Page (pKRE) = True := eq_true (Or.inr (of_eq_true (ge_pKRE)))
theorem off_pTRG  (f : Fld) : Off (pTRG) f = True := eq_true (Or.inl (of_eq_true (ge_pTRG)))
theorem page_pTRG  : Page (pTRG) = True := eq_true (Or.inr (of_eq_true (ge_pTRG)))
theorem off_pCAP  (f : Fld) : Off (pCAP) f = True := eq_true (Or.inl (of_eq_true (ge_pCAP)))
theorem page_pCAP  : Page (pCAP) = True := eq_true (Or.inr (of_eq_true (ge_pCAP)))
theorem off_pTRC  (f : Fld) : Off (pTRC) f = True := eq_true (Or.inl (of_eq_true (ge_pTRC)))
theorem page_pTRC  : Page (pTRC) = True := eq_true (Or.inr (of_eq_true (ge_pTRC)))
theorem off_pMQE  (f : Fld) : Off (pMQE) f = True := eq_true (Or.inl (of_eq_true (ge_pMQE)))
theorem page_pMQE  : Page (pMQE) = True := eq_true (Or.inr (of_eq_true (ge_pMQE)))
theorem off_pDSP  (f : Fld) : Off (pDSP) f = True := eq_true (Or.inl (of_eq_true (ge_pDSP)))
theorem page_pDSP  : Page (pDSP) = True := eq_true (Or.inr (of_eq_true (ge_pDSP)))
theorem off_pCRR  (f : Fld) : Off (pCRR) f = True := eq_true (Or.inl (of_eq_true (ge_pCRR)))
theorem page_pCRR  : Page (pCRR) = True := eq_true (Or.inr (of_eq_true (ge_pCRR)))
theorem off_pLNK  (f : Fld) : Off (pLNK) f = True := eq_true (Or.inl (of_eq_true (ge_pLNK)))
theorem page_pLNK  : Page (pLNK) = True := eq_true (Or.inr (of_eq_true (ge_pLNK)))
theorem off_pLSC  (f : Fld) : Off (pLSC) f = True := eq_true (Or.inl (of_eq_true (ge_pLSC)))
theorem page_pLSC  : Page (pLSC) = True := eq_true (Or.inr (of_eq_true (ge_pLSC)))
theorem off_pHIST  (f : Fld) : Off (pHIST) f = True := eq_true (Or.inl (of_eq_true (ge_pHIST)))
theorem page_pHIST  : Page (pHIST) = True := eq_true (Or.inr (of_eq_true (ge_pHIST)))
theorem off_pCFG  (f : Fld) : Off (pCFG) f = True := eq_true (Or.inl (of_eq_true (ge_pCFG)))
theorem page_pCFG  : Page (pCFG) = True := eq_true (Or.inr (of_eq_true (ge_pCFG)))
theorem off_pHMC (n : Nat) (f : Fld) : Off (pHMC n) f = True := eq_true (Or.inl (of_eq_true (ge_pHMC n)))
theorem page_pHMC (n : Nat) : Page (pHMC n) = True := eq_true (Or.inr (of_eq_true (ge_pHMC n)))
theorem off_pLGRP (n : Nat) (f : Fld) : Off (pLGRP n) f = True := eq_true (Or.inl (of_eq_true (ge_pLGRP n)))
theorem page_pLGRP (n : Nat) : Page (pLGRP n) = True := eq_true (Or.inr (of_eq_true (ge_pLGRP n)))
theorem off_pPTN (n : Nat) (f : Fld) : Off (pPTN n) f = True := eq_true (Or.inl (of_eq_true (ge_pPTN n)))
theorem page_pPTN (n : Nat) : Page (pPTN n) = True := eq_true (Or.inr (of_eq_true (ge_pPTN n)))
theorem off_pCLU (n : Nat) (f : Fld) : Off (pCLU n) f = True := eq_true (Or.inl (of_eq_true (ge_pCLU n)))
theorem page_pCLU (n : Nat) : Page (pCLU n) = True := eq_true (Or.inr (of_eq_true (ge_pCLU n)))
theorem off_pSLC (n : Nat) (f : Fld) : Off (pSLC n) f = True := eq_true (Or.inl (of_eq_true (ge_pSLC n)))
theorem page_pSLC (n : Nat) : Page (pSLC n) = True := eq_true (Or.inr (of_eq_true (ge_pSLC n)))
theorem off_pWIN (n w : Nat) (f : Fld) : Off (pWIN n w) f = True := eq_true (Or.inl (of_eq_true (ge_pWIN n w)))
theorem page_pWIN (n w : Nat) : Page (pWIN n w) = True := eq_true (Or.inr (of_eq_true (ge_pWIN n w)))
theorem off_pMSIX (n : Fn) (f : Fld) : Off (pMSIX n) f = True := eq_true (Or.inl (of_eq_true (ge_pMSIX n)))
theorem page_pMSIX (n : Fn) : Page (pMSIX n) = True := eq_true (Or.inr (of_eq_true (ge_pMSIX n)))
theorem page_pDEV : Page pDEV = True := eq_true (Or.inl (Eq.refl _))
theorem off_DEV_STATE_BOOT : Off pDEV DEV_STATE_BOOT = True := eq_true (Or.inr ⟨Eq.refl _, by decide⟩)
theorem off_DEV_STATE_FULL : Off pDEV DEV_STATE_FULL = True := eq_true (Or.inr ⟨Eq.refl _, by decide⟩)
theorem off_DEV_DIR_RESTORE_DUE (n : Nat) : Off pDEV (DEV_DIR_RESTORE_DUE n) = True := eq_true (Or.inr ⟨Eq.refl _, by intro i hi; simp only [DEV_DIR_RESTORE_DUE, Fld.bit]; omega⟩)
theorem off_DEV_DIR_VF (n : Nat) : Off pDEV (DEV_DIR_VF n) = True := eq_true (Or.inr ⟨Eq.refl _, by intro i hi; simp only [DEV_DIR_VF, Fld.bit]; omega⟩)
theorem off_DEV_DIR_LINKED (n : Nat) : Off pDEV (DEV_DIR_LINKED n) = True := eq_true (Or.inr ⟨Eq.refl _, by intro i hi; simp only [DEV_DIR_LINKED, Fld.bit]; omega⟩)
theorem off_DEV_DIR_CLUSTERS (n : Nat) : Off pDEV (DEV_DIR_CLUSTERS n) = True := eq_true (Or.inr ⟨Eq.refl _, by intro i hi; simp only [DEV_DIR_CLUSTERS, Fld.bit]; omega⟩)
theorem off_PG_SNAP_CTRL_EN {base : Nat} (h : Page base) : Off base PG_SNAP_CTRL_EN := h.elim (fun h => Or.inr ⟨h, by decide⟩) Or.inl
theorem off_PG_SNAP_CTRL_KEEP {base : Nat} (h : Page base) : Off base PG_SNAP_CTRL_KEEP := h.elim (fun h => Or.inr ⟨h, by decide⟩) Or.inl
theorem off_PG_SNAP_CTRL_VALID {base : Nat} (h : Page base) : Off base PG_SNAP_CTRL_VALID := h.elim (fun h => Or.inr ⟨h, by decide⟩) Or.inl
theorem off_PG_SNAP_CTRL_MISSED {base : Nat} (h : Page base) : Off base PG_SNAP_CTRL_MISSED := h.elim (fun h => Or.inr ⟨h, by decide⟩) Or.inl
theorem off_PG_SNAP_CTRL_SEQ {base : Nat} (h : Page base) : Off base PG_SNAP_CTRL_SEQ := h.elim (fun h => Or.inr ⟨h, by decide⟩) Or.inl
theorem off_PG_IRQ_RAW {base : Nat} (h : Page base) : Off base PG_IRQ_RAW := h.elim (fun h => Or.inr ⟨h, by decide⟩) Or.inl
theorem off_PG_IRQ_EN {base : Nat} (h : Page base) : Off base PG_IRQ_EN := h.elim (fun h => Or.inr ⟨h, by decide⟩) Or.inl
theorem off_sel {base : Nat} (h : Page base) {k : Nat} (hk : k < 4) : Off base (PG_SEL_EVENT k) ∧ Off base (PG_SEL_EN k) ∧ Off base (PG_SEL_OVF k) ∧ Off base (PG_CNT_COUNT k) := by
  rcases h with h | h
  · refine ⟨Or.inr ⟨h, ?_⟩, Or.inr ⟨h, ?_⟩, Or.inr ⟨h, ?_⟩, Or.inr ⟨h, ?_⟩⟩ <;> intro i hi <;> simp only [PG_SEL_EVENT, PG_SEL_EN, PG_SEL_OVF, PG_CNT_COUNT, Fld.bit] <;> omega
  · exact ⟨Or.inl h, Or.inl h, Or.inl h, Or.inl h⟩
theorem foldl_mem_dir {α : Type} (f : Dev → α → Dev) (xs : List α) (d : Dev) (h : Dir z d) (hf : ∀ a ∈ xs, ∀ e, Dir z e → Dir z (f e a)) : Dir z (xs.foldl f d) := by
  induction xs generalizing d with
  | nil => exact h
  | cons x xs ih => exact ih _ (hf x (List.mem_cons_self ..) _ h) fun a ha => hf a (List.mem_cons_of_mem _ ha)
theorem far_add {b k hi : Nat} (h : 0x1000 ≤ b) : hi ≤ 0x200 ∨ 0x300 ≤ b + k := Or.inr (by omega)
theorem far_self {b hi : Nat} (h : 0x1000 ≤ b) : hi ≤ 0x200 ∨ 0x300 ≤ b := Or.inr (by omega)
theorem le_far {b k : Nat} (h : 0x1000 ≤ b) : 0x1000 ≤ b + k := by omega
theorem off_low {base : Nat} (h : Page base) {f : Fld} (hf : f.bit < 0x1000 ∨ 0x1900 ≤ f.bit) : Off base f := by
  rcases h with h | h
  · exact Or.inr ⟨h, fun i hi => by omega⟩
  · exact Or.inl h
theorem off_fldsPG {base : Nat} (h : Page base) {f : Fld} (hf : f ∈ fldsPG) : Off base f :=
  off_low h (Or.inl ((by decide : ∀ f ∈ fldsPG, f.bit < 0x1000) f hf))
theorem off_SHADOW {base : Nat} (h : Page base) (x : Nat) : Off base (SHADOW x) := off_low h (Or.inr (by simp only [SHADOW, Fld.bit]; omega))

theorem on_dir (d : Dev) (base : Nat) (f : Fld) (h0 : Dir z d) (ho : Off base f) : Dir z (on d base f) := p_dir _ _ _ _ h0 ho
theorem clr_dir (d : Dev) (base : Nat) (f : Fld) (h0 : Dir z d) (ho : Off base f) : Dir z (clr d base f) := p_dir _ _ _ _ h0 ho
theorem add_dir (d : Dev) (base : Nat) (f : Fld) (n : Nat) (h0 : Dir z d) (ho : Off base f) : Dir z (add d base f n) := p_dir _ _ _ _ h0 ho
theorem modClu_dir (d : Dev) (n : Nat) (f : Clu → Clu) (h0 : Dir z d) : Dir z (modClu d n f) := by
  unfold modClu
  repeat' first
    | with_reducible assumption
    | with_reducible apply setClu_dir
    | simp -implicitDefEqProofs only [Dir.lit]
    | split
    | intro _
    | dsimp only
theorem modQueue_dir (d : Dev) (q : Nat) (f : Queue → Queue) (h0 : Dir z d) : Dir z (modQueue d q f) := by
  unfold modQueue
  repeat' first
    | with_reducible assumption
    | with_reducible apply setQueue_dir
    | simp -implicitDefEqProofs only [Dir.lit]
    | split
    | intro _
    | dsimp only
theorem modLink_dir (d : Dev) (i : Nat) (f : Link → Link) (h0 : Dir z d) : Dir z (modLink d i f) := by
  unfold modLink
  repeat' first
    | with_reducible assumption
    | with_reducible apply setLink_dir
    | simp -implicitDefEqProofs only [Dir.lit]
    | split
    | intro _
    | dsimp only
theorem modChan_dir (d : Dev) (i : Nat) (f : Chan → Chan) (h0 : Dir z d) : Dir z (modChan d i f) := by
  unfold modChan
  repeat' first
    | with_reducible assumption
    | with_reducible apply setChan_dir
    | simp -implicitDefEqProofs only [Dir.lit]
    | split
    | intro _
    | dsimp only
theorem modStrm_dir (d : Dev) (i : Nat) (f : Strm → Strm) (h0 : Dir z d) : Dir z (modStrm d i f) := by
  unfold modStrm
  repeat' first
    | with_reducible assumption
    | with_reducible apply setStrm_dir
    | simp -implicitDefEqProofs only [Dir.lit]
    | split
    | intro _
    | dsimp only
theorem setPower_dir (d : Dev) (n st : Nat) (h0 : Dir z d) : Dir z (setPower d n st) := by
  unfold setPower
  repeat' first
    | with_reducible assumption
    | with_reducible apply p_dir
    | simp -implicitDefEqProofs only [Dir.lit, off_pPMU, page_pPMU, ge_pPMU]
    | split
    | intro _
    | dsimp only
theorem wake_dir (d : Dev) (n : Nat) (h0 : Dir z d) : Dir z (wake d n) := by
  unfold wake
  repeat' first
    | with_reducible assumption
    | with_reducible apply setPower_dir
    | simp -implicitDefEqProofs only [Dir.lit]
    | split
    | intro _
    | dsimp only
theorem wakeAll_dir (d : Dev) (i : Nat) (h0 : Dir z d) : Dir z (wakeAll d i) := by
  unfold wakeAll
  repeat' first
    | with_reducible assumption
    | with_reducible apply each_dir
    | with_reducible apply wake_dir
    | simp -implicitDefEqProofs only [Dir.lit]
    | split
    | intro _
    | dsimp only
theorem atPtn_dir (d : Dev) (i : Nat) (k : Dev → Dev) (h0 : Dir z d) (hk : ∀ e, Dir z e → Dir z (k e)) : Dir z (atPtn d i k) := by
  unfold atPtn
  repeat' first
    | with_reducible assumption
    | with_reducible apply hk
    | exact fun _ => ⟨Eq.refl _, Eq.refl _⟩
    | exact Eq.refl _
    | simp -implicitDefEqProofs only [Dir.lit]
    | split
    | intro _
    | dsimp only
theorem complete_dir (d : Dev) (fn : Fn) (a v : Nat) (h0 : Dir z d) : Dir z (complete d fn a v) := by
  unfold complete
  repeat' first
    | with_reducible assumption
    | with_reducible apply emit_dir
    | simp -implicitDefEqProofs only [Dir.lit]
    | split
    | intro _
    | dsimp only
theorem completeHeld_dir (d : Dev) (fn : Fn) (l v : Nat) (h0 : Dir z d) : Dir z (completeHeld d fn l v) := by
  unfold completeHeld
  repeat' first
    | with_reducible assumption
    | with_reducible apply each_dir
    | with_reducible apply emit_dir
    | simp -implicitDefEqProofs only [Dir.lit]
    | split
    | intro _
    | dsimp only
theorem sendVec_dir (d : Dev) (fn : Fn) (v : Nat) (h0 : Dir z d) : Dir z (sendVec d fn v) := by
  unfold sendVec
  repeat' first
    | with_reducible assumption
    | with_reducible apply emit_dir
    | with_reducible apply on_dir
    | simp -implicitDefEqProofs only [Dir.lit, off_pMSIX, page_pMSIX, ge_pMSIX]
    | split
    | intro _
    | dsimp only
theorem notifyIrq_dir (d : Dev) (base : Nat) (h0 : Dir z d) : Dir z (notifyIrq d base) := by
  unfold notifyIrq
  repeat' first
    | with_reducible assumption
    | with_reducible apply sendVec_dir
    | simp -implicitDefEqProofs only [Dir.lit, page_pDEV]
    | split
    | intro _
    | dsimp only
theorem irq_dir (d : Dev) (base i : Nat) (h0 : Dir z d) (hb : Page base) : Dir z (irq d base i) := by
  unfold irq
  repeat' first
    | with_reducible assumption
    | with_reducible apply off_PG_IRQ_RAW
    | with_reducible apply p_dir
    | with_reducible apply notifyIrq_dir
    | exact fun _ => ⟨Eq.refl _, Eq.refl _⟩
    | exact Eq.refl _
    | simp -implicitDefEqProofs only [Dir.lit]
    | split
    | intro _
    | dsimp only
theorem setIrqEn_dir (d : Dev) (base v : Nat) (h0 : Dir z d) (hb : Page base) : Dir z (setIrqEn d base v) := by
  unfold setIrqEn
  repeat' first
    | with_reducible assumption
    | with_reducible apply off_PG_IRQ_EN
    | with_reducible apply p_dir
    | with_reducible apply notifyIrq_dir
    | exact fun _ => ⟨Eq.refl _, Eq.refl _⟩
    | exact Eq.refl _
    | simp -implicitDefEqProofs only [Dir.lit]
    | split
    | intro _
    | dsimp only
theorem accessError_dir (d : Dev) (fn : Fn) (bar off : Nat) (write : Bool) (h0 : Dir z d) : Dir z (accessError d fn bar off write) := by
  unfold accessError
  repeat' first
    | with_reducible assumption
    | with_reducible apply raise_dir
    | simp -implicitDefEqProofs only [Dir.lit]
    | split
    | intro _
    | dsimp only
theorem innerError_dir (d : Dev) (src part : Nat) (devlvl : Bool) (status : Nat) (write : Bool) (addr : Nat) (h0 : Dir z d) : Dir z (innerError d src part devlvl status write addr) := by
  unfold innerError
  repeat' first
    | with_reducible assumption
    | with_reducible apply raise_dir
    | simp -implicitDefEqProofs only [Dir.lit]
    | split
    | intro _
    | dsimp only
theorem sample_dir (d : Dev) (k x : Nat) (h0 : Dir z d) : Dir z (sample d k x) := by
  unfold sample
  repeat' first
    | with_reducible assumption
    | with_reducible apply add_dir
    | simp -implicitDefEqProofs only [Dir.lit, off_pTRG, page_pTRG, ge_pTRG]
    | split
    | intro _
    | dsimp only
theorem offer_dir (d : Dev) (kind : Nat) (src : Nat → Bool) (x : Nat) (h0 : Dir z d) : Dir z (offer d kind src x) := by
  unfold offer
  repeat' first
    | with_reducible assumption
    | with_reducible apply each_dir
    | with_reducible apply sample_dir
    | simp -implicitDefEqProofs only [Dir.lit, off_pTRG, page_pTRG, ge_pTRG]
    | split
    | intro _
    | dsimp only
theorem offerBp_dir (d : Dev) (n t b s : Nat) (v : Bool) (h0 : Dir z d) : Dir z (offerBp d n t b s v) := by
  unfold offerBp
  repeat' first
    | with_reducible assumption
    | with_reducible apply offer_dir
    | simp -implicitDefEqProofs only [Dir.lit]
    | split
    | intro _
    | dsimp only
theorem offerWalu_dir (d : Dev) (n t w s v : Nat) (h0 : Dir z d) : Dir z (offerWalu d n t w s v) := by
  unfold offerWalu
  repeat' first
    | with_reducible assumption
    | with_reducible apply offer_dir
    | simp -implicitDefEqProofs only [Dir.lit]
    | split
    | intro _
    | dsimp only
theorem offerLane_dir (d : Dev) (lane v : Nat) (h0 : Dir z d) : Dir z (offerLane d lane v) := by
  unfold offerLane
  repeat' first
    | with_reducible assumption
    | with_reducible apply offer_dir
    | simp -implicitDefEqProofs only [Dir.lit]
    | split
    | intro _
    | dsimp only
theorem offerQueue_dir (d : Dev) (q ev v : Nat) (h0 : Dir z d) : Dir z (offerQueue d q ev v) := by
  unfold offerQueue
  repeat' first
    | with_reducible assumption
    | with_reducible apply offer_dir
    | simp -implicitDefEqProofs only [Dir.lit]
    | split
    | intro _
    | dsimp only
theorem noRoute_dir (d : Dev) (h0 : Dir z d) : Dir z (noRoute d) := by
  unfold noRoute
  repeat' first
    | with_reducible assumption
    | with_reducible apply add_dir
    | simp -implicitDefEqProofs only [Dir.lit, off_pNOC, page_pNOC, ge_pNOC]
    | split
    | intro _
    | dsimp only
theorem timedOut_dir (d : Dev) (src dst vc a : Nat) (h0 : Dir z d) : Dir z (timedOut d src dst vc a) := by
  unfold timedOut
  repeat' first
    | with_reducible assumption
    | with_reducible apply add_dir
    | with_reducible apply raise_dir
    | simp -implicitDefEqProofs only [Dir.lit, off_pNOC, page_pNOC, ge_pNOC]
    | split
    | intro _
    | dsimp only
theorem addOutst_dir (d : Dev) (o : Outst) (h0 : Dir z d) : Dir z (addOutst d o) := by
  unfold addOutst
  repeat' first
    | with_reducible assumption
    | simp -implicitDefEqProofs only [Dir.lit]
    | split
    | intro _
    | dsimp only
theorem respond_dir (d : Dev) (k : Packet) (status : Nat) (bs : List Byte) (h0 : Dir z d) : Dir z (respond d k status bs) := by
  unfold respond
  repeat' first
    | with_reducible assumption
    | with_reducible apply emit_dir
    | simp -implicitDefEqProofs only [Dir.lit]
    | split
    | intro _
    | dsimp only
theorem synthesise_dir (d : Dev) (src tag status : Nat) (h0 : Dir z d) : Dir z (synthesise d src tag status) := by
  unfold synthesise
  repeat' first
    | with_reducible assumption
    | with_reducible apply emit_dir
    | simp -implicitDefEqProofs only [Dir.lit]
    | split
    | intro _
    | dsimp only
theorem hostTimeout_dir (d : Dev) (fn : Fn) (h : Option Nat) (bar off : Nat) (write : Bool) (h0 : Dir z d) : Dir z (hostTimeout d fn h bar off write) := by
  unfold hostTimeout
  repeat' first
    | with_reducible assumption
    | with_reducible apply accessError_dir
    | with_reducible apply timedOut_dir
    | simp -implicitDefEqProofs only [Dir.lit]
    | split
    | intro _
    | dsimp only
theorem viaNoc_dir (d : Dev) (fn : Fn) (h : Option Nat) (bar off : Nat) (write : Bool) (fail k : Dev → Dev) (h0 : Dir z d) (hf : ∀ e, Dir z e → Dir z (fail e)) (hk : ∀ e, Dir z e → Dir z (k e)) : Dir z (viaNoc d fn h bar off write fail k) := by
  unfold viaNoc
  repeat' first
    | with_reducible assumption
    | with_reducible apply hf
    | with_reducible apply hk
    | with_reducible apply accessError_dir
    | with_reducible apply noRoute_dir
    | with_reducible apply hostTimeout_dir
    | exact fun _ => ⟨Eq.refl _, Eq.refl _⟩
    | exact Eq.refl _
    | simp -implicitDefEqProofs only [Dir.lit]
    | split
    | intro _
    | dsimp only
theorem answerAt_dir (d : Dev) (fn : Fn) (a ones v : Nat) (h0 : Dir z d) : Dir z (answerAt d fn a ones v).1 := by
  unfold answerAt
  repeat' first
    | with_reducible assumption
    | with_reducible apply hostTimeout_dir
    | simp -implicitDefEqProofs only [Dir.lit]
    | split
    | intro _
    | dsimp only
theorem reply_dir (d : Dev) (fn : Fn) (a v : Nat) (h0 : Dir z d) : Dir z (reply d fn a v) := by
  unfold reply
  repeat' first
    | with_reducible assumption
    | with_reducible apply answerAt_dir
    | with_reducible apply complete_dir
    | simp -implicitDefEqProofs only [Dir.lit]
    | split
    | intro _
    | dsimp only
theorem reply64_dir (d : Dev) (fn : Fn) (a v : Nat) (h0 : Dir z d) : Dir z (reply64 d fn a v) := by
  unfold reply64
  repeat' first
    | with_reducible assumption
    | with_reducible apply answerAt_dir
    | with_reducible apply complete_dir
    | simp -implicitDefEqProofs only [Dir.lit]
    | split
    | intro _
    | dsimp only
theorem dropWrite_dir (d : Dev) (q : Nat) (fin ovr : Bool) (h0 : Dir z d) : Dir z (dropWrite d q fin ovr).1 := by
  unfold dropWrite
  repeat' first
    | with_reducible assumption
    | with_reducible apply irq_dir
    | with_reducible apply offerQueue_dir
    | with_reducible apply raise_dir
    | with_reducible apply setQueue_dir
    | simp -implicitDefEqProofs only [Dir.lit, off_pMQE, page_pMQE, ge_pMQE]
    | split
    | intro _
    | dsimp only
theorem push_dir (d : Dev) (q : Nat) (w : QWord) (credit : Bool) (h0 : Dir z d) : Dir z (push d q w credit).1 := by
  unfold push
  repeat' first
    | with_reducible assumption
    | with_reducible apply dropWrite_dir
    | with_reducible apply offerQueue_dir
    | with_reducible apply setQueue_dir
    | simp -implicitDefEqProofs only [Dir.lit]
    | split
    | intro _
    | dsimp only
theorem takeHead_dir {d : Dev} {q : Nat} {w : QWord} {e : Dev} (h : d.takeHead q = some (w, e)) (h0 : Dir z d) : Dir z e := by
  unfold takeHead at h; dsimp only at h; split at h
  · cases h
  · simp only [Option.some.injEq, Prod.mk.injEq] at h; rw [← h.2]; exact offerQueue_dir _ _ _ _ (setQueue_dir _ _ _ h0)
theorem markBound_dir (d : Dev) (q : Nat) (h0 : Dir z d) : Dir z (markBound d q) := by
  unfold markBound
  repeat' first
    | with_reducible assumption
    | with_reducible apply modQueue_dir
    | simp -implicitDefEqProofs only [Dir.lit]
    | split
    | intro _
    | dsimp only
theorem takeUpTo_dir (m : Nat) (d : Dev) (q : Nat) (h0 : Dir z d) : Dir z (takeUpTo m d q).2 := by
  induction m generalizing d with
  | zero => exact h0
  | succ m ih =>
    unfold takeUpTo
    repeat' first
      | with_reducible assumption
      | with_reducible apply ih
      | exact takeHead_dir (by assumption) h0
      | refine ih _ (takeHead_dir (by assumption) h0)
      | exact fun _ => ⟨Eq.refl _, Eq.refl _⟩
      | exact Eq.refl _
      | simp -implicitDefEqProofs only [Dir.lit]
      | split
      | intro _
      | dsimp only
theorem answerQrd_dir (d : Dev) (q : Nat) (k : Packet) (h0 : Dir z d) : Dir z (answerQrd d q k) := by
  unfold answerQrd
  repeat' first
    | with_reducible assumption
    | with_reducible apply respond_dir
    | with_reducible apply takeUpTo_dir
    | simp -implicitDefEqProofs only [Dir.lit]
    | split
    | intro _
    | dsimp only
theorem popReply_dir (d : Dev) (fn : Fn) (q v : Nat) (h0 : Dir z d) : Dir z (popReply d fn q v) := by
  unfold popReply
  repeat' first
    | with_reducible assumption
    | with_reducible apply emit_dir
    | with_reducible apply hostTimeout_dir
    | simp -implicitDefEqProofs only [Dir.lit]
    | split
    | intro _
    | dsimp only
theorem completePop_dir (d : Dev) (fn : Fn) (q : Nat) (h0 : Dir z d) : Dir z (completePop d fn q) := by
  unfold completePop
  repeat' first
    | with_reducible assumption
    | with_reducible apply modQueue_dir
    | with_reducible apply popReply_dir
    | simp -implicitDefEqProofs only [Dir.lit]
    | split
    | intro _
    | dsimp only
    | with_reducible refine takeHead_dir (by assumption) ?_
theorem serveReaders_dir (m : Nat) (d : Dev) (q : Nat) (h0 : Dir z d) : Dir z (serveReaders m d q) := by
  induction m generalizing d with
  | zero => exact h0
  | succ m ih =>
    unfold serveReaders
    repeat' first
      | with_reducible assumption
      | with_reducible apply ih
      | with_reducible apply completePop_dir
      | with_reducible apply setQueue_dir
      | with_reducible apply answerQrd_dir
      | exact fun _ => ⟨Eq.refl _, Eq.refl _⟩
      | exact Eq.refl _
      | simp -implicitDefEqProofs only [Dir.lit]
      | split
      | intro _
      | dsimp only
theorem wakeReaders_dir (d : Dev) (q : Nat) (h0 : Dir z d) : Dir z (wakeReaders d q) := by
  unfold wakeReaders
  repeat' first
    | with_reducible assumption
    | with_reducible apply serveReaders_dir
    | simp -implicitDefEqProofs only [Dir.lit]
    | split
    | intro _
    | dsimp only
theorem notifyQueue_dir (d : Dev) (q kind : Nat) (h0 : Dir z d) : Dir z (notifyQueue d q kind) := by
  unfold notifyQueue
  repeat' first
    | with_reducible assumption
    | with_reducible apply irq_dir
    | with_reducible apply push_dir
    | with_reducible apply wakeReaders_dir
    | simp -implicitDefEqProofs only [Dir.lit, page_pDEV, off_pMQE, page_pMQE, ge_pMQE, off_pPTN, page_pPTN, ge_pPTN]
    | split
    | intro _
    | dsimp only
theorem notifyKinds_dir (d : Dev) (q : Nat) (ks : List Nat) (h0 : Dir z d) : Dir z (notifyKinds d q ks) := by
  unfold notifyKinds
  repeat' first
    | with_reducible assumption
    | with_reducible apply each_dir
    | with_reducible apply notifyQueue_dir
    | simp -implicitDefEqProofs only [Dir.lit]
    | split
    | intro _
    | dsimp only
theorem append_dir (d : Dev) (q : Nat) (w : QWord) (credit : Bool) (h0 : Dir z d) : Dir z (append d q w credit) := by
  unfold append
  repeat' first
    | with_reducible assumption
    | with_reducible apply notifyKinds_dir
    | with_reducible apply push_dir
    | with_reducible apply wakeReaders_dir
    | simp -implicitDefEqProofs only [Dir.lit]
    | split
    | intro _
    | dsimp only
theorem modFences_dir (d : Dev) (f : List (Nat × Nat) → List (Nat × Nat)) (h0 : Dir z d) : Dir z (modFences d f) := by
  unfold modFences
  repeat' first
    | with_reducible assumption
    | with_reducible apply each_dir
    | with_reducible apply modQueue_dir
    | with_reducible apply wakeReaders_dir
    | simp -implicitDefEqProofs only [Dir.lit]
    | split
    | intro _
    | dsimp only
theorem settleFences_dir (d : Dev) (h0 : Dir z d) : Dir z (settleFences d) := by
  unfold settleFences
  repeat' first
    | with_reducible assumption
    | with_reducible apply modFences_dir
    | simp -implicitDefEqProofs only [Dir.lit]
    | split
    | intro _
    | dsimp only
theorem farAcked_dir (d : Dev) (n f j : Nat) (h0 : Dir z d) : Dir z (farAcked d n f j) := by
  unfold farAcked
  repeat' first
    | with_reducible assumption
    | with_reducible apply modFences_dir
    | simp -implicitDefEqProofs only [Dir.lit]
    | split
    | intro _
    | dsimp only
theorem freeOutst_dir (d : Dev) (src tag : Nat) (h0 : Dir z d) : Dir z (freeOutst d src tag) := by
  unfold freeOutst
  repeat' first
    | with_reducible assumption
    | with_reducible apply settleFences_dir
    | simp -implicitDefEqProofs only [Dir.lit]
    | split
    | intro _
    | dsimp only
theorem appendAll_dir (d : Dev) (q : Nat) (ws : List W64) (endLast fence : Bool) (h0 : Dir z d) : Dir z (d.appendAll q ws endLast fence) := by
  induction ws generalizing d fence with
  | nil => exact h0
  | cons w ws ih =>
    cases ws with
    | nil => exact append_dir _ _ _ _ h0
    | cons v vs => exact ih _ _ (append_dir _ _ _ _ h0)
theorem flushQueue_dir (d : Dev) (q : Nat) (h0 : Dir z d) : Dir z (flushQueue d q) := by
  unfold flushQueue
  repeat' first
    | with_reducible assumption
    | with_reducible apply notifyKinds_dir
    | with_reducible apply setQueue_dir
    | simp -implicitDefEqProofs only [Dir.lit]
    | split
    | intro _
    | dsimp only
theorem dropHeadOf_dir (d : Dev) (q : Nat) (h0 : Dir z d) : Dir z (dropHeadOf d q) := by
  unfold dropHeadOf
  repeat' first
    | with_reducible assumption
    | with_reducible apply notifyKinds_dir
    | with_reducible apply setQueue_dir
    | simp -implicitDefEqProofs only [Dir.lit]
    | split
    | intro _
    | dsimp only
theorem withdrawBridge_dir (d : Dev) (q : Nat) (h0 : Dir z d) : Dir z (withdrawBridge d q) := by
  unfold withdrawBridge
  repeat' first
    | with_reducible assumption
    | with_reducible apply each_dir
    | with_reducible apply p_dir
    | simp -implicitDefEqProofs only [Dir.lit, off_pLGRP, page_pLGRP, ge_pLGRP]
    | split
    | intro _
    | dsimp only
theorem enableQueue_dir (d : Dev) (q : Nat) (h0 : Dir z d) : Dir z (enableQueue d q) := by
  unfold enableQueue
  repeat' first
    | with_reducible assumption
    | with_reducible apply setQueue_dir
    | simp -implicitDefEqProofs only [Dir.lit, page_pDEV]
    | split
    | intro _
    | dsimp only
theorem emptyPop_dir (d : Dev) (fn : Fn) (q : Nat) (h0 : Dir z d) : Dir z (emptyPop d fn q) := by
  unfold emptyPop
  repeat' first
    | with_reducible assumption
    | with_reducible apply modQueue_dir
    | with_reducible apply popReply_dir
    | simp -implicitDefEqProofs only [Dir.lit]
    | split
    | intro _
    | dsimp only
theorem answerHeld_dir (d : Dev) (q : Nat) (h0 : Dir z d) : Dir z (answerHeld d q) := by
  unfold answerHeld
  repeat' first
    | with_reducible assumption
    | with_reducible apply each_dir
    | with_reducible apply emptyPop_dir
    | with_reducible apply respond_dir
    | with_reducible apply setQueue_dir
    | simp -implicitDefEqProofs only [Dir.lit]
    | split
    | intro _
    | dsimp only
theorem dropCredits_dir (d : Dev) (q : Nat) (h0 : Dir z d) : Dir z (dropCredits d q) := by
  unfold dropCredits
  repeat' first
    | with_reducible assumption
    | with_reducible apply each_dir
    | with_reducible apply modClu_dir
    | simp -implicitDefEqProofs only [Dir.lit]
    | split
    | intro _
    | dsimp only
theorem disableQueue_dir (d : Dev) (q : Nat) (h0 : Dir z d) : Dir z (disableQueue d q) := by
  unfold disableQueue
  repeat' first
    | with_reducible assumption
    | with_reducible apply answerHeld_dir
    | with_reducible apply dropCredits_dir
    | with_reducible apply flushQueue_dir
    | with_reducible apply modQueue_dir
    | with_reducible apply withdrawBridge_dir
    | simp -implicitDefEqProofs only [Dir.lit]
    | split
    | intro _
    | dsimp only
theorem acceptQwr_dir (d : Dev) (q : Nat) (k : Packet) (h0 : Dir z d) : Dir z (acceptQwr d q k) := by
  unfold acceptQwr
  repeat' first
    | with_reducible assumption
    | with_reducible apply append_dir
    | with_reducible apply each_dir
    | with_reducible apply respond_dir
    | simp -implicitDefEqProofs only [Dir.lit]
    | split
    | intro _
    | dsimp only
theorem serveWriters_dir (m : Nat) (d : Dev) (q : Nat) (h0 : Dir z d) : Dir z (serveWriters m d q) := by
  induction m generalizing d with
  | zero => exact h0
  | succ m ih =>
    unfold serveWriters
    repeat' first
      | with_reducible assumption
      | with_reducible apply ih
      | with_reducible apply acceptQwr_dir
      | with_reducible apply setQueue_dir
      | exact fun _ => ⟨Eq.refl _, Eq.refl _⟩
      | exact Eq.refl _
      | simp -implicitDefEqProofs only [Dir.lit]
      | split
      | intro _
      | dsimp only
theorem serveHeld_dir (d : Dev) (h0 : Dir z d) : Dir z (serveHeld d) := by
  unfold serveHeld
  repeat' first
    | with_reducible assumption
    | with_reducible apply each_dir
    | with_reducible apply serveWriters_dir
    | simp -implicitDefEqProofs only [Dir.lit]
    | split
    | intro _
    | dsimp only
theorem sendAnswers_dir (m : Nat) (d : Dev) (h0 : Dir z d) : Dir z (sendAnswers m d) := by
  induction m generalizing d with
  | zero => exact h0
  | succ m ih =>
    unfold sendAnswers
    repeat' first
      | with_reducible assumption
      | with_reducible apply ih
      | with_reducible apply appendAll_dir
      | exact fun _ => ⟨Eq.refl _, Eq.refl _⟩
      | exact Eq.refl _
      | simp -implicitDefEqProofs only [Dir.lit]
      | split
      | intro _
      | dsimp only
theorem answer_dir (d : Dev) (op : Nat) (tag : Nat) (status : Nat) (ws : List W64) (h0 : Dir z d) : Dir z (answer d op tag status ws) := by
  unfold answer
  repeat' first
    | with_reducible assumption
    | with_reducible apply sendAnswers_dir
    | simp -implicitDefEqProofs only [Dir.lit]
    | split
    | intro _
    | dsimp only
theorem takeService_dir (d : Dev) (op : Nat) (tag : Nat) (arg : Nat) (ws : List W64) (h0 : Dir z d) : Dir z (takeService d op tag arg ws) := by
  unfold takeService
  repeat' first
    | with_reducible assumption
    | with_reducible apply setQueue_dir
    | simp -implicitDefEqProofs only [Dir.lit]
    | split
    | intro _
    | dsimp only
theorem countOne_dir (d : Dev) (base : Nat) (c o : Fld) (h0 : Dir z d) (h1 : Off base c) (h2 : Off base o) : Dir z (countOne d base c o) := by
  unfold countOne; dsimp only; split
  · exact on_dir _ _ _ (p_dir _ _ _ _ h0 h1) h2
  · exact p_dir _ _ _ _ h0 h1
theorem countEvent_dir (d : Dev) (num : Nat) (h0 : Dir z d) : Dir z (countEvent d num) := by
  unfold countEvent; split
  · exact h0
  · refine foldl_mem_dir _ _ _ h0 fun a ha e he => ?_
    have hp : Page a.1 := by
      simp only [enabledCounters, List.mem_filterMap] at ha
      obtain ⟨k, -, hk⟩ := ha
      split at hk
      · split at hk
        · cases hk; unfold Page; dsimp only; omega
        · split at hk
          · cases hk; unfold Page; dsimp only; omega
          · cases hk
      · cases hk
    split
    · next h4 =>
      have h4 : a.2 < 4 := by simpa using h4
      split
      · exact countOne_dir _ _ _ _ he (off_sel hp h4).2.2.2 (off_sel hp h4).2.2.1
      · exact he
    · split
      · exact countOne_dir _ _ _ _ he (of_eq_true (off_pEVC _)) (of_eq_true (off_pEVC _))
      · exact he
theorem lastGasp_dir (d : Dev) (num cls owner i0 i1 : Nat) (h0 : Dir z d) : Dir z (lastGasp d num cls owner i0 i1) := by
  unfold lastGasp
  repeat' first
    | with_reducible assumption
    | with_reducible apply add_dir
    | with_reducible apply p_dir
    | simp -implicitDefEqProofs only [Dir.lit, off_pAON, page_pAON, ge_pAON]
    | split
    | intro _
    | dsimp only
theorem logToQueue_dir (d : Dev) (e : LogEntry) (h0 : Dir z d) : Dir z (logToQueue d e) := by
  unfold logToQueue
  repeat' first
    | with_reducible assumption
    | with_reducible apply appendAll_dir
    | simp -implicitDefEqProofs only [Dir.lit, off_pLOG, page_pLOG, ge_pLOG]
    | split
    | intro _
    | dsimp only
theorem logFail_dir (d : Dev) (i syn : Nat) (h0 : Dir z d) : Dir z (logFail d i syn) := by
  unfold logFail
  repeat' first
    | with_reducible assumption
    | with_reducible apply irq_dir
    | with_reducible apply lastGasp_dir
    | with_reducible apply on_dir
    | with_reducible apply raise_dir
    | simp -implicitDefEqProofs only [Dir.lit, off_pLOG, page_pLOG, ge_pLOG]
    | split
    | intro _
    | dsimp only
theorem logCheck_dir (d : Dev) (i : Nat) (ws : List W64) (h0 : Dir z d) : Dir z (logCheck d i ws).1 := by
  unfold logCheck
  repeat' first
    | with_reducible assumption
    | with_reducible apply add_dir
    | simp -implicitDefEqProofs only [Dir.lit, off_pLOG, page_pLOG, ge_pLOG]
    | split
    | intro _
    | dsimp only
theorem logPast_dir (d : Dev) (e : LogEntry) (h0 : Dir z d) : Dir z (logPast d e) := by
  unfold logPast
  repeat' first
    | with_reducible assumption
    | with_reducible apply iff_dir
    | with_reducible apply lastGasp_dir
    | with_reducible apply logToQueue_dir
    | simp -implicitDefEqProofs only [Dir.lit]
    | split
    | intro _
    | dsimp only
theorem logPut_dir (d : Dev) (i : Nat) (e : LogEntry) (h0 : Dir z d) : Dir z (logPut d i e) := by
  unfold logPut
  repeat' first
    | with_reducible assumption
    | with_reducible apply add_dir
    | with_reducible apply iff_dir
    | with_reducible apply irq_dir
    | with_reducible apply logToQueue_dir
    | with_reducible apply on_dir
    | with_reducible apply p_dir
    | with_reducible apply raise_dir
    | simp -implicitDefEqProofs only [Dir.lit, off_pLOG, page_pLOG, ge_pLOG]
    | split
    | intro _
    | dsimp only
theorem logEvent_dir (d : Dev) (ev : Ev) (h0 : Dir z d) : Dir z (logEvent d ev) := by
  unfold logEvent
  repeat' first
    | with_reducible assumption
    | with_reducible apply logCheck_dir
    | with_reducible apply logFail_dir
    | with_reducible apply logPast_dir
    | with_reducible apply logPut_dir
    | simp -implicitDefEqProofs only [Dir.lit, off_pLOG, page_pLOG, ge_pLOG]
    | split
    | intro _
    | dsimp only
theorem mntRequest_dir (d : Dev) (id adds sparing : Nat) (retry : Bool) (h0 : Dir z d) : Dir z (mntRequest d id adds sparing retry).1 := by
  unfold mntRequest
  repeat' first
    | with_reducible assumption
    | with_reducible apply add_dir
    | with_reducible apply id_dir
    | with_reducible apply irq_dir
    | with_reducible apply p_dir
    | with_reducible apply raise_dir
    | simp -implicitDefEqProofs only [Dir.lit, off_pMNT, page_pMNT, ge_pMNT]
    | split
    | intro _
    | dsimp only
theorem mntDrop_dir (d : Dev) (id : Nat) (h0 : Dir z d) : Dir z (mntDrop d id) := by
  unfold mntDrop
  repeat' first
    | with_reducible assumption
    | with_reducible apply id_dir
    | simp -implicitDefEqProofs only [Dir.lit]
    | split
    | intro _
    | dsimp only
theorem integFail_dir (d : Dev) (r : Req) (a level : Nat) (write : Bool) (h0 : Dir z d) : Dir z (integFail d r a level write) := by
  unfold integFail
  repeat' first
    | with_reducible assumption
    | with_reducible apply add_dir
    | with_reducible apply irq_dir
    | with_reducible apply on_dir
    | with_reducible apply p_dir
    | with_reducible apply raise_dir
    | simp -implicitDefEqProofs only [Dir.lit, off_pIME, page_pIME, ge_pIME]
    | split
    | intro _
    | dsimp only
theorem wantRoll_dir (d : Dev) (cause : Nat) (h0 : Dir z d) : Dir z (wantRoll d cause) := by
  unfold wantRoll
  repeat' first
    | with_reducible assumption
    | with_reducible apply on_dir
    | with_reducible apply p_dir
    | simp -implicitDefEqProofs only [Dir.lit, off_pKRE, page_pKRE, ge_pKRE]
    | split
    | intro _
    | dsimp only
theorem tryRoll_dir (d : Dev) (retry : Bool) (h0 : Dir z d) : Dir z (tryRoll d retry) := by
  unfold tryRoll
  repeat' first
    | with_reducible assumption
    | with_reducible apply mntRequest_dir
    | with_reducible apply on_dir
    | with_reducible apply p_dir
    | simp -implicitDefEqProofs only [Dir.lit, off_pIME, page_pIME, ge_pIME, off_pKRE, page_pKRE, ge_pKRE]
    | split
    | intro _
    | dsimp only
theorem scrubRequest_dir (d : Dev) (i : Nat) (retry : Bool) (h0 : Dir z d) : Dir z (scrubRequest d i retry) := by
  unfold scrubRequest
  repeat' first
    | with_reducible assumption
    | with_reducible apply id_dir
    | with_reducible apply mntRequest_dir
    | with_reducible apply p_dir
    | simp -implicitDefEqProofs only [Dir.lit, off_pSCR, page_pSCR, ge_pSCR]
    | split
    | intro _
    | dsimp only
theorem retryPasses_dir (d : Dev) (h0 : Dir z d) : Dir z (retryPasses d) := by
  unfold retryPasses
  repeat' first
    | with_reducible assumption
    | with_reducible apply each_dir
    | with_reducible apply scrubRequest_dir
    | simp -implicitDefEqProofs only [Dir.lit]
    | split
    | intro _
    | dsimp only
theorem retryWaits_dir (d : Dev) (h0 : Dir z d) : Dir z (retryWaits d) := by
  unfold retryWaits
  repeat' first
    | with_reducible assumption
    | with_reducible apply retryPasses_dir
    | with_reducible apply tryRoll_dir
    | simp -implicitDefEqProofs only [Dir.lit]
    | split
    | intro _
    | dsimp only
theorem mntFree_dir (d : Dev) (id : Nat) (h0 : Dir z d) : Dir z (mntFree d id) := by
  unfold mntFree
  repeat' first
    | with_reducible assumption
    | with_reducible apply id_dir
    | with_reducible apply mntDrop_dir
    | with_reducible apply retryWaits_dir
    | simp -implicitDefEqProofs only [Dir.lit]
    | split
    | intro _
    | dsimp only
theorem requestRoll_dir (d : Dev) (cause : Nat) (h0 : Dir z d) : Dir z (requestRoll d cause) := by
  unfold requestRoll
  repeat' first
    | with_reducible assumption
    | with_reducible apply tryRoll_dir
    | with_reducible apply wantRoll_dir
    | simp -implicitDefEqProofs only [Dir.lit]
    | split
    | intro _
    | dsimp only
theorem countBlocks_dir (d : Dev) (n : Nat) (h0 : Dir z d) : Dir z (countBlocks d n) := by
  unfold countBlocks
  repeat' first
    | with_reducible assumption
    | with_reducible apply p_dir
    | with_reducible apply requestRoll_dir
    | simp -implicitDefEqProofs only [Dir.lit, off_pKRE, page_pKRE, ge_pKRE]
    | split
    | intro _
    | dsimp only
theorem watchCtr_dir (d : Dev) (c : Nat) (h0 : Dir z d) : Dir z (watchCtr d c) := by
  unfold watchCtr
  repeat' first
    | with_reducible assumption
    | with_reducible apply requestRoll_dir
    | simp -implicitDefEqProofs only [Dir.lit]
    | split
    | intro _
    | dsimp only
theorem metaMoved_dir (d : Dev) (level index : Nat) (h0 : Dir z d) : Dir z (metaMoved d level index) := by
  unfold metaMoved
  repeat' first
    | with_reducible assumption
    | with_reducible apply add_dir
    | simp -implicitDefEqProofs only [Dir.lit, off_pIME, page_pIME, ge_pIME]
    | split
    | intro _
    | dsimp only
theorem writeNode_dir (d : Dev) (node : Nat) (h0 : Dir z d) : Dir z (writeNode d node) := by
  unfold writeNode
  repeat' first
    | with_reducible assumption
    | with_reducible apply add_dir
    | with_reducible apply metaMoved_dir
    | with_reducible apply watchCtr_dir
    | simp -implicitDefEqProofs only [Dir.lit, off_pIME, page_pIME, ge_pIME]
    | split
    | intro _
    | dsimp only
theorem writeLeaf_dir (d : Dev) (line : Nat) (h0 : Dir z d) : Dir z (writeLeaf d line) := by
  unfold writeLeaf
  repeat' first
    | with_reducible assumption
    | with_reducible apply add_dir
    | with_reducible apply iff_dir
    | with_reducible apply integFail_dir
    | with_reducible apply metaMoved_dir
    | with_reducible apply watchCtr_dir
    | with_reducible apply writeNode_dir
    | simp -implicitDefEqProofs only [Dir.lit, off_pIME, page_pIME, ge_pIME]
    | split
    | intro _
    | dsimp only
theorem writeBack_dir (d : Dev) (level index : Nat) (h0 : Dir z d) : Dir z (writeBack d level index) := by
  unfold writeBack
  repeat' first
    | with_reducible assumption
    | with_reducible apply add_dir
    | with_reducible apply metaMoved_dir
    | with_reducible apply writeLeaf_dir
    | with_reducible apply writeNode_dir
    | simp -implicitDefEqProofs only [Dir.lit, off_pIME, page_pIME, ge_pIME]
    | split
    | intro _
    | dsimp only
theorem evict_dir (d : Dev) (q : Nat) (h0 : Dir z d) : Dir z (evict d q) := by
  unfold evict
  repeat' first
    | with_reducible assumption
    | with_reducible apply tick_dir
    | with_reducible apply writeBack_dir
    | with_reducible apply foldl_dir
    | with_reducible apply fold1_dir
    | simp -implicitDefEqProofs only [Dir.lit]
    | split
    | intro _
    | dsimp only
theorem cacheLookup_dir (d : Dev) (level index : Nat) (dirty : Bool) (h0 : Dir z d) : Dir z (cacheLookup d level index dirty) := by
  unfold cacheLookup
  repeat' first
    | with_reducible assumption
    | with_reducible apply add_dir
    | with_reducible apply evict_dir
    | with_reducible apply iff_dir
    | with_reducible apply metaMoved_dir
    | simp -implicitDefEqProofs only [Dir.lit, off_pIME, page_pIME, ge_pIME]
    | split
    | intro _
    | dsimp only
theorem touchMeta_dir (d : Dev) (a n : Nat) (write : Bool) (h0 : Dir z d) : Dir z (touchMeta d a n write) := by
  unfold touchMeta
  repeat' first
    | with_reducible assumption
    | with_reducible apply cacheLookup_dir
    | with_reducible apply each_dir
    | with_reducible apply raise_dir
    | simp -implicitDefEqProofs only [Dir.lit, off_pIME, page_pIME, ge_pIME]
    | split
    | intro _
    | dsimp only
theorem stackCount_dir (d : Dev) (ce ue : List Nat) (h0 : Dir z d) : Dir z (stackCount d ce ue) := by
  unfold stackCount
  repeat' first
    | with_reducible assumption
    | with_reducible apply add_dir
    | with_reducible apply each_dir
    | with_reducible apply irq_dir
    | simp -implicitDefEqProofs only [Dir.lit, off_pHMC, page_pHMC, ge_pHMC]
    | split
    | intro _
    | dsimp only
theorem stackFresh_dir (d : Dev) (lo hi : Nat) (h0 : Dir z d) : Dir z (stackFresh d lo hi) := by
  unfold stackFresh
  repeat' first
    | with_reducible assumption
    | simp -implicitDefEqProofs only [Dir.lit]
    | split
    | intro _
    | dsimp only
theorem bumpCounter_dir (d : Dev) (sec : Nat) (h0 : Dir z d) : Dir z (bumpCounter d sec) := by
  unfold bumpCounter
  repeat' first
    | with_reducible assumption
    | with_reducible apply iff_dir
    | with_reducible apply stackFresh_dir
    | with_reducible apply watchCtr_dir
    | simp -implicitDefEqProofs only [Dir.lit]
    | split
    | intro _
    | dsimp only
theorem hbmRefuse_dir (d : Dev) (r : Req) (a n : Nat) (write : Bool) (h0 : Dir z d) : Dir z (hbmRefuse d r a n write) := by
  unfold hbmRefuse
  repeat' first
    | with_reducible assumption
    | with_reducible apply add_dir
    | with_reducible apply iff_dir
    | with_reducible apply innerError_dir
    | simp -implicitDefEqProofs only [Dir.lit, off_pHMC, page_pHMC, ge_pHMC, off_pIME, page_pIME, ge_pIME]
    | split
    | intro _
    | dsimp only
theorem hbmRead_dir (d : Dev) (r : Req) (a n : Nat) (h0 : Dir z d) : Dir z (hbmRead d r a n).1 := by
  unfold hbmRead
  repeat' first
    | with_reducible assumption
    | with_reducible apply each_dir
    | with_reducible apply hbmRefuse_dir
    | with_reducible apply integFail_dir
    | with_reducible apply noRoute_dir
    | with_reducible apply stackCount_dir
    | with_reducible apply touchMeta_dir
    | simp -implicitDefEqProofs only [Dir.lit]
    | split
    | intro _
    | dsimp only
theorem hbmWrite_dir (d : Dev) (r : Req) (a : Nat) (bs : List Byte) (h0 : Dir z d) : Dir z (hbmWrite d r a bs).1 := by
  unfold hbmWrite
  repeat' first
    | with_reducible assumption
    | with_reducible apply Can.put
    | with_reducible apply noRoute_dir
    | with_reducible apply hbmRefuse_dir
    | with_reducible apply integFail_dir
    | with_reducible apply stackCount_dir
    | with_reducible apply each_dir
    | with_reducible apply touchMeta_dir
    | with_reducible apply bumpCounter_dir
    | with_reducible apply stackFresh_dir
    | with_reducible apply countBlocks_dir
    | exact fun _ => ⟨Eq.refl _, Eq.refl _⟩
    | exact Eq.refl _
    | simp -implicitDefEqProofs only [Dir.lit]
    | split
    | intro _
    | dsimp only
theorem hbmAnswer_dir (d : Dev) (r : Req) (a status : Nat) (h0 : Dir z d) : Dir z (hbmAnswer d r a status).1 := by
  unfold hbmAnswer
  repeat' first
    | with_reducible assumption
    | with_reducible apply timedOut_dir
    | simp -implicitDefEqProofs only [Dir.lit]
    | split
    | intro _
    | dsimp only
theorem hbmFetch_dir (d : Dev) (r : Req) (a n : Nat) (h0 : Dir z d) : Dir z (hbmFetch d r a n).1 := by
  unfold hbmFetch
  repeat' first
    | with_reducible assumption
    | with_reducible apply hbmAnswer_dir
    | with_reducible apply hbmRead_dir
    | simp -implicitDefEqProofs only [Dir.lit]
    | split
    | intro _
    | dsimp only
theorem hbmSend_dir (d : Dev) (r : Req) (a : Nat) (bs : List Byte) (h0 : Dir z d) : Dir z (hbmSend d r a bs).1 := by
  unfold hbmSend
  repeat' first
    | with_reducible assumption
    | with_reducible apply hbmAnswer_dir
    | with_reducible apply hbmWrite_dir
    | simp -implicitDefEqProofs only [Dir.lit]
    | split
    | intro _
    | dsimp only
theorem hbmGet_dir (d : Dev) (r : Req) (a n : Nat) (h0 : Dir z d) : Dir z (hbmGet d r a n).1 := by
  unfold hbmGet
  repeat' first
    | with_reducible assumption
    | with_reducible apply hbmFetch_dir
    | with_reducible apply foldl_dir
    | with_reducible apply fold1_dir
    | simp -implicitDefEqProofs only [Dir.lit]
    | split
    | intro _
    | dsimp only
theorem hbmStore_dir (d : Dev) (r : Req) (a : Nat) (bs : List Byte) (h0 : Dir z d) : Dir z (hbmStore d r a bs).1 := by
  unfold hbmStore
  repeat' first
    | with_reducible assumption
    | with_reducible apply hbmSend_dir
    | with_reducible apply foldl_dir
    | with_reducible apply fold1_dir
    | simp -implicitDefEqProofs only [Dir.lit]
    | split
    | intro _
    | dsimp only
theorem hbmPut_dir (d : Dev) (r : Req) (a : Nat) (bs : List Byte) (h0 : Dir z d) : Dir z (hbmPut d r a bs) := by
  unfold hbmPut
  repeat' first
    | with_reducible assumption
    | with_reducible apply hbmStore_dir
    | simp -implicitDefEqProofs only [Dir.lit]
    | split
    | intro _
    | dsimp only
theorem zeroRange_dir (d : Dev) (r : Req) (a n : Nat) (h0 : Dir z d) : Dir z (zeroRange d r a n) := by
  unfold zeroRange
  repeat' first
    | with_reducible assumption
    | with_reducible apply each_dir
    | with_reducible apply hbmSend_dir
    | simp -implicitDefEqProofs only [Dir.lit]
    | split
    | intro _
    | dsimp only
theorem pauseRoll_dir (d : Dev) (snap : Bool) (h0 : Dir z d) : Dir z (pauseRoll d snap) := by
  unfold pauseRoll
  repeat' first
    | with_reducible assumption
    | with_reducible apply irq_dir
    | with_reducible apply on_dir
    | with_reducible apply p_dir
    | simp -implicitDefEqProofs only [Dir.lit, off_pKRE, page_pKRE, ge_pKRE]
    | split
    | intro _
    | dsimp only
theorem passTree_dir (d : Dev) (lo hi : Nat) (h0 : Dir z d) : Dir z (passTree d lo hi) := by
  unfold passTree
  repeat' first
    | with_reducible assumption
    | with_reducible apply foldl_dir
    | with_reducible apply fold1_dir
    | simp -implicitDefEqProofs only [Dir.lit]
    | split
    | intro _
    | dsimp only
theorem setBoundary_dir (d : Dev) (b : Nat) (h0 : Dir z d) : Dir z (setBoundary d b) := by
  unfold setBoundary
  repeat' first
    | with_reducible assumption
    | with_reducible apply p_dir
    | with_reducible apply passTree_dir
    | simp -implicitDefEqProofs only [Dir.lit, off_pKRE, page_pKRE, ge_pKRE]
    | split
    | intro _
    | dsimp only
theorem endRoll_dir (d : Dev) (h0 : Dir z d) : Dir z (endRoll d) := by
  unfold endRoll
  repeat' first
    | with_reducible assumption
    | with_reducible apply add_dir
    | with_reducible apply irq_dir
    | with_reducible apply mntFree_dir
    | with_reducible apply p_dir
    | with_reducible apply raise_dir
    | with_reducible apply requestRoll_dir
    | with_reducible apply setBoundary_dir
    | simp -implicitDefEqProofs only [Dir.lit, off_pIME, page_pIME, ge_pIME, off_pKRE, page_pKRE, ge_pKRE]
    | split
    | intro _
    | dsimp only
theorem setCounter_dir (d : Dev) (sec c : Nat) (h0 : Dir z d) : Dir z (setCounter d sec c) := by
  unfold setCounter
  repeat' first
    | with_reducible assumption
    | simp -implicitDefEqProofs only [Dir.lit]
    | split
    | intro _
    | dsimp only
theorem convertSector_dir (d : Dev) (sec : Nat) (h0 : Dir z d) : Dir z (convertSector d sec) := by
  unfold convertSector
  repeat' first
    | with_reducible assumption
    | with_reducible apply Can.del
    | with_reducible apply integFail_dir
    | with_reducible apply stackCount_dir
    | with_reducible apply setCounter_dir
    | with_reducible apply setBoundary_dir
    | with_reducible apply touchMeta_dir
    | with_reducible apply stackFresh_dir
    | with_reducible apply countBlocks_dir
    | exact fun _ => ⟨Eq.refl _, Eq.refl _⟩
    | exact Eq.refl _
    | simp -implicitDefEqProofs only [Dir.lit]
    | split
    | intro _
    | dsimp only
theorem lineOut_dir (d : Dev) (gi l : Nat) (bits : List Bool) (h0 : Dir z d) : Dir z (lineOut d gi l bits) := by
  unfold lineOut
  repeat' first
    | with_reducible assumption
    | with_reducible apply emit_dir
    | with_reducible apply modLink_dir
    | simp -implicitDefEqProofs only [Dir.lit]
    | split
    | intro _
    | dsimp only
theorem sendFlit_dir (d : Dev) (gi : Nat) (flit : BitVec 320) (h0 : Dir z d) : Dir z (sendFlit d gi flit) := by
  unfold sendFlit
  repeat' first
    | with_reducible assumption
    | with_reducible apply emit_dir
    | with_reducible apply modLink_dir
    | simp -implicitDefEqProofs only [Dir.lit]
    | split
    | intro _
    | dsimp only
theorem control_dir (d : Dev) (gi kind body : Nat) (h0 : Dir z d) : Dir z (control d gi kind body) := by
  unfold control
  repeat' first
    | with_reducible assumption
    | with_reducible apply emit_dir
    | with_reducible apply modLink_dir
    | simp -implicitDefEqProofs only [Dir.lit]
    | split
    | intro _
    | dsimp only
theorem controlAll_dir (d : Dev) (kind body : Nat) (h0 : Dir z d) : Dir z (controlAll d kind body) := by
  unfold controlAll
  repeat' first
    | with_reducible assumption
    | with_reducible apply control_dir
    | with_reducible apply each_dir
    | simp -implicitDefEqProofs only [Dir.lit, off_pLGRP, page_pLGRP, ge_pLGRP]
    | split
    | intro _
    | dsimp only
theorem ringOut_dir (d : Dev) (kind dest src n ttl : Nat) (payload : List Byte) (h0 : Dir z d) : Dir z (ringOut d kind dest src n ttl payload) := by
  unfold ringOut
  repeat' first
    | with_reducible assumption
    | with_reducible apply emit_dir
    | simp -implicitDefEqProofs only [Dir.lit]
    | split
    | intro _
    | dsimp only
theorem ringSend_dir (d : Dev) (kind dest : Nat) (payload : List Byte) (h0 : Dir z d) : Dir z (ringSend d kind dest payload) := by
  unfold ringSend
  repeat' first
    | with_reducible assumption
    | with_reducible apply ringOut_dir
    | simp -implicitDefEqProofs only [Dir.lit, off_pSTR, page_pSTR, ge_pSTR]
    | split
    | intro _
    | dsimp only
theorem controlPtn_dir (d : Dev) (i kind body : Nat) (h0 : Dir z d) : Dir z (controlPtn d i kind body) := by
  unfold controlPtn
  repeat' first
    | with_reducible assumption
    | with_reducible apply control_dir
    | with_reducible apply each_dir
    | simp -implicitDefEqProofs only [Dir.lit]
    | split
    | intro _
    | dsimp only
theorem freezeReq_dir (d : Dev) (i cause : Nat) (h0 : Dir z d) : Dir z (freezeReq d i cause) := by
  unfold freezeReq
  repeat' first
    | with_reducible assumption
    | with_reducible apply controlPtn_dir
    | with_reducible apply on_dir
    | with_reducible apply setPtn_dir
    | with_reducible exact Eq.refl _
    | simp -implicitDefEqProofs only [Dir.lit, off_pPTN, page_pPTN, ge_pPTN]
    | split
    | intro _
    | dsimp only
theorem sysFreezeHere_dir (d : Dev) (h0 : Dir z d) : Dir z (sysFreezeHere d) := by
  unfold sysFreezeHere
  repeat' first
    | with_reducible assumption
    | with_reducible apply each_dir
    | with_reducible apply freezeReq_dir
    | simp -implicitDefEqProofs only [Dir.lit, off_pPTN, page_pPTN, ge_pPTN]
    | split
    | intro _
    | dsimp only
theorem floodFreeze_dir (d : Dev) (origin n : Nat) (toRing : Bool) (h0 : Dir z d) : Dir z (floodFreeze d origin n toRing) := by
  unfold floodFreeze
  repeat' first
    | with_reducible assumption
    | with_reducible apply controlAll_dir
    | with_reducible apply on_dir
    | with_reducible apply p_dir
    | with_reducible apply raise_dir
    | with_reducible apply ringSend_dir
    | with_reducible apply sysFreezeHere_dir
    | simp -implicitDefEqProofs only [Dir.lit, off_pLNK, page_pLNK, ge_pLNK]
    | split
    | intro _
    | dsimp only
theorem raiseSysFreeze_dir (d : Dev) (h0 : Dir z d) : Dir z (raiseSysFreeze d) := by
  unfold raiseSysFreeze
  repeat' first
    | with_reducible assumption
    | with_reducible apply floodFreeze_dir
    | simp -implicitDefEqProofs only [Dir.lit]
    | split
    | intro _
    | dsimp only
theorem strobeReq_dir (d : Dev) (src : Nat) (h0 : Dir z d) : Dir z (strobeReq d src) := by
  unfold strobeReq
  repeat' first
    | with_reducible assumption
    | with_reducible apply on_dir
    | with_reducible apply ringSend_dir
    | simp -implicitDefEqProofs only [Dir.lit, off_pSNP, page_pSNP, ge_pSNP]
    | split
    | intro _
    | dsimp only
theorem upstreamLoss_dir (d : Dev) (gi : Nat) (h0 : Dir z d) : Dir z (upstreamLoss d gi) := by
  unfold upstreamLoss
  repeat' first
    | with_reducible assumption
    | with_reducible apply add_dir
    | with_reducible apply on_dir
    | with_reducible apply p_dir
    | with_reducible apply raiseSysFreeze_dir
    | simp -implicitDefEqProofs only [Dir.lit, off_pCKG, page_pCKG, ge_pCKG, off_pLNK, page_pLNK, ge_pLNK, off_pTSB, page_pTSB, ge_pTSB]
    | split
    | intro _
    | dsimp only
theorem slotErr_dir (d : Dev) (h0 : Dir z d) : Dir z (slotErr d) := by
  unfold slotErr
  repeat' first
    | with_reducible assumption
    | with_reducible apply on_dir
    | with_reducible apply raiseSysFreeze_dir
    | simp -implicitDefEqProofs only [Dir.lit, off_pLNK, page_pLNK, ge_pLNK]
    | split
    | intro _
    | dsimp only
theorem ctlBad_dir (d : Dev) (gi : Nat) (h0 : Dir z d) : Dir z (ctlBad d gi) := by
  unfold ctlBad
  repeat' first
    | with_reducible assumption
    | with_reducible apply add_dir
    | with_reducible apply slotErr_dir
    | simp -implicitDefEqProofs only [Dir.lit, off_pLGRP, page_pLGRP, ge_pLGRP]
    | split
    | intro _
    | dsimp only
theorem cutBlock_dir (d : Dev) (ch : Nat) (h0 : Dir z d) : Dir z (cutBlock d ch) := by
  unfold cutBlock
  repeat' first
    | with_reducible assumption
    | with_reducible apply setChan_dir
    | simp -implicitDefEqProofs only [Dir.lit, off_pCAP, page_pCAP, ge_pCAP]
    | split
    | intro _
    | dsimp only
theorem cutBlocks_dir (m : Nat) (d : Dev) (ch : Nat) (h0 : Dir z d) : Dir z (cutBlocks m d ch) := by
  induction m generalizing d with
  | zero => exact h0
  | succ m ih =>
    unfold cutBlocks
    repeat' first
      | with_reducible assumption
      | with_reducible apply ih
      | with_reducible apply cutBlock_dir
      | exact fun _ => ⟨Eq.refl _, Eq.refl _⟩
      | exact Eq.refl _
      | simp -implicitDefEqProofs only [Dir.lit, off_pCAP, page_pCAP, ge_pCAP]
      | split
      | intro _
      | dsimp only
theorem capBytes_dir (d : Dev) (ch : Nat) (bs : List Byte) (cyc : Nat) (ovf : Bool) (h0 : Dir z d) : Dir z (capBytes d ch bs cyc ovf) := by
  unfold capBytes
  repeat' first
    | with_reducible assumption
    | simp -implicitDefEqProofs only [Dir.lit]
    | split
    | intro _
    | dsimp only
theorem capFlush_dir (d : Dev) (h0 : Dir z d) : Dir z (capFlush d) := by
  unfold capFlush
  repeat' first
    | with_reducible assumption
    | with_reducible apply cutBlocks_dir
    | with_reducible apply each_dir
    | with_reducible apply setChan_dir
    | simp -implicitDefEqProofs only [Dir.lit]
    | split
    | intro _
    | dsimp only
theorem capLost_dir (d : Dev) (ch : Nat) (h0 : Dir z d) : Dir z (capLost d ch) := by
  unfold capLost
  repeat' first
    | with_reducible assumption
    | with_reducible apply modChan_dir
    | simp -implicitDefEqProofs only [Dir.lit]
    | split
    | intro _
    | dsimp only
theorem laneRows_dir (m : Nat) (d : Dev) (ch : Nat) (h0 : Dir z d) : Dir z (laneRows m d ch) := by
  induction m generalizing d with
  | zero => exact h0
  | succ m ih =>
    unfold laneRows
    repeat' first
      | with_reducible assumption
      | with_reducible apply ih
      | with_reducible apply capBytes_dir
      | with_reducible apply modChan_dir
      | exact fun _ => ⟨Eq.refl _, Eq.refl _⟩
      | exact Eq.refl _
      | simp -implicitDefEqProofs only [Dir.lit]
      | split
      | intro _
      | dsimp only
theorem capLine_dir (d : Dev) (gi l : Nat) (transmit decoded : Bool) (bits : List Bool) (h0 : Dir z d) : Dir z (capLine d gi l transmit decoded bits) := by
  unfold capLine
  repeat' first
    | with_reducible assumption
    | with_reducible apply each_dir
    | with_reducible apply laneRows_dir
    | with_reducible apply modChan_dir
    | simp -implicitDefEqProofs only [Dir.lit]
    | split
    | intro _
    | dsimp only
theorem capDark_dir (d : Dev) (h0 : Dir z d) : Dir z (capDark d) := by
  unfold capDark
  repeat' first
    | with_reducible assumption
    | with_reducible apply each_dir
    | with_reducible apply modChan_dir
    | with_reducible apply foldl_dir
    | with_reducible apply fold1_dir
    | simp -implicitDefEqProofs only [Dir.lit]
    | split
    | intro _
    | dsimp only
theorem writeEntry_dir (d : Dev) (c ch fl : Nat) (h0 : Dir z d) : Dir z (writeEntry d c ch fl) := by
  unfold writeEntry
  repeat' first
    | with_reducible assumption
    | with_reducible apply hbmPut_dir
    | simp -implicitDefEqProofs only [Dir.lit, off_pCAP, page_pCAP, ge_pCAP]
    | split
    | intro _
    | dsimp only
theorem clearEntries_dir (d : Dev) (c : Nat) (h0 : Dir z d) : Dir z (clearEntries d c) := by
  unfold clearEntries
  repeat' first
    | with_reducible assumption
    | with_reducible apply each_dir
    | with_reducible apply hbmGet_dir
    | with_reducible apply hbmPut_dir
    | simp -implicitDefEqProofs only [Dir.lit, off_pCAP, page_pCAP, ge_pCAP]
    | split
    | intro _
    | dsimp only
theorem beginCapture_dir (d : Dev) (c : Nat) (h0 : Dir z d) : Dir z (beginCapture d c) := by
  unfold beginCapture
  repeat' first
    | with_reducible assumption
    | with_reducible apply clearEntries_dir
    | with_reducible apply each_dir
    | with_reducible apply p_dir
    | with_reducible apply setChan_dir
    | simp -implicitDefEqProofs only [Dir.lit, off_pCAP, page_pCAP, ge_pCAP]
    | split
    | intro _
    | dsimp only
theorem drivePin_dir (d : Dev) (j : Nat) (active : Bool) (h0 : Dir z d) : Dir z (drivePin d j active) := by
  unfold drivePin
  repeat' first
    | with_reducible assumption
    | with_reducible apply emit_dir
    | with_reducible apply p_dir
    | simp -implicitDefEqProofs only [Dir.lit, off_pTRG, page_pTRG, ge_pTRG]
    | split
    | intro _
    | dsimp only
theorem levelPins_dir (d : Dev) (c : Nat) (h0 : Dir z d) : Dir z (levelPins d c) := by
  unfold levelPins
  repeat' first
    | with_reducible assumption
    | with_reducible apply drivePin_dir
    | with_reducible apply each_dir
    | simp -implicitDefEqProofs only [Dir.lit, off_pCAP, page_pCAP, ge_pCAP, off_pTRG, page_pTRG, ge_pTRG]
    | split
    | intro _
    | dsimp only
theorem capIdle_dir (d : Dev) (c : Nat) (h0 : Dir z d) : Dir z (capIdle d c) := by
  unfold capIdle
  repeat' first
    | with_reducible assumption
    | with_reducible apply each_dir
    | with_reducible apply levelPins_dir
    | with_reducible apply modChan_dir
    | with_reducible apply p_dir
    | simp -implicitDefEqProofs only [Dir.lit, off_pCAP, page_pCAP, ge_pCAP]
    | split
    | intro _
    | dsimp only
theorem trig_dir (d : Dev) (c : Nat) (h0 : Dir z d) : Dir z (trig d c) := by
  unfold trig
  repeat' first
    | with_reducible assumption
    | with_reducible apply add_dir
    | with_reducible apply each_dir
    | with_reducible apply levelPins_dir
    | with_reducible apply modChan_dir
    | with_reducible apply p_dir
    | simp -implicitDefEqProofs only [Dir.lit, off_pCAP, page_pCAP, ge_pCAP, off_pTSB, page_pTSB, ge_pTSB]
    | split
    | intro _
    | dsimp only
theorem capDone_dir (d : Dev) (c : Nat) (h0 : Dir z d) : Dir z (capDone d c) := by
  unfold capDone
  repeat' first
    | with_reducible assumption
    | with_reducible apply add_dir
    | with_reducible apply irq_dir
    | with_reducible apply on_dir
    | simp -implicitDefEqProofs only [Dir.lit, off_pCAP, page_pCAP, ge_pCAP, off_pPTN, page_pPTN, ge_pPTN]
    | split
    | intro _
    | dsimp only
theorem capFinish_dir (d : Dev) (c : Nat) (h0 : Dir z d) : Dir z (capFinish d c) := by
  unfold capFinish
  repeat' first
    | with_reducible assumption
    | with_reducible apply capDone_dir
    | with_reducible apply capIdle_dir
    | with_reducible apply levelPins_dir
    | with_reducible apply p_dir
    | simp -implicitDefEqProofs only [Dir.lit, off_pCAP, page_pCAP, ge_pCAP]
    | split
    | intro _
    | dsimp only
theorem chanComplete_dir (d : Dev) (ch : Nat) (h0 : Dir z d) : Dir z (chanComplete d ch) := by
  unfold chanComplete
  repeat' first
    | with_reducible assumption
    | with_reducible apply capFinish_dir
    | with_reducible apply cutBlock_dir
    | with_reducible apply modChan_dir
    | with_reducible apply writeEntry_dir
    | simp -implicitDefEqProofs only [Dir.lit, off_pCAP, page_pCAP, ge_pCAP]
    | split
    | intro _
    | dsimp only
theorem capEvent_dir (d : Dev) (k x : Nat) (h0 : Dir z d) : Dir z (capEvent d k x) := by
  unfold capEvent
  repeat' first
    | with_reducible assumption
    | with_reducible apply capBytes_dir
    | with_reducible apply capLost_dir
    | with_reducible apply each_dir
    | with_reducible apply setChan_dir
    | simp -implicitDefEqProofs only [Dir.lit, off_pCAP, page_pCAP, ge_pCAP, off_pTRG, page_pTRG, ge_pTRG]
    | split
    | intro _
    | dsimp only
theorem capWord_dir (d : Dev) (n t w v cyc : Nat) (wide : Bool) (h0 : Dir z d) : Dir z (capWord d n t w v cyc wide) := by
  unfold capWord
  repeat' first
    | with_reducible assumption
    | with_reducible apply capBytes_dir
    | with_reducible apply each_dir
    | with_reducible apply modChan_dir
    | simp -implicitDefEqProofs only [Dir.lit, off_pCAP, page_pCAP, ge_pCAP]
    | split
    | intro _
    | dsimp only
theorem capDiscont_dir (d : Dev) (kind : Nat) (h0 : Dir z d) : Dir z (capDiscont d kind) := by
  unfold capDiscont
  repeat' first
    | with_reducible assumption
    | with_reducible apply each_dir
    | with_reducible apply modChan_dir
    | simp -implicitDefEqProofs only [Dir.lit]
    | split
    | intro _
    | dsimp only
theorem setChanOwner_dir (d : Dev) (ch owner : Nat) (h0 : Dir z d) : Dir z (setChanOwner d ch owner) := by
  unfold setChanOwner
  repeat' first
    | with_reducible assumption
    | with_reducible apply modChan_dir
    | with_reducible apply p_dir
    | simp -implicitDefEqProofs only [Dir.lit, off_pCAP, page_pCAP, ge_pCAP]
    | split
    | intro _
    | dsimp only
theorem traceIrq_dir (d : Dev) (s : Nat) (h0 : Dir z d) : Dir z (traceIrq d s) := by
  unfold traceIrq
  repeat' first
    | with_reducible assumption
    | with_reducible apply irq_dir
    | simp -implicitDefEqProofs only [Dir.lit, off_pPTN, page_pPTN, ge_pPTN, off_pTRC, page_pTRC, ge_pTRC]
    | split
    | intro _
    | dsimp only
theorem noteLoss_dir (d : Dev) (s : Nat) (h0 : Dir z d) : Dir z (noteLoss d s) := by
  unfold noteLoss
  repeat' first
    | with_reducible assumption
    | with_reducible apply modStrm_dir
    | simp -implicitDefEqProofs only [Dir.lit]
    | split
    | intro _
    | dsimp only
theorem loseBlock_dir (d : Dev) (s cls : Nat) (recs : List (List Byte)) (h0 : Dir z d) : Dir z (loseBlock d s cls recs) := by
  unfold loseBlock
  repeat' first
    | with_reducible assumption
    | with_reducible apply add_dir
    | with_reducible apply each_dir
    | with_reducible apply noteLoss_dir
    | with_reducible apply raise_dir
    | with_reducible apply traceIrq_dir
    | simp -implicitDefEqProofs only [Dir.lit, off_pNOC, page_pNOC, ge_pNOC, off_pTRC, page_pTRC, ge_pTRC]
    | split
    | intro _
    | dsimp only
theorem acceptBlock_dir (d : Dev) (s cls first : Nat) (recs : List (List Byte)) (h0 : Dir z d) : Dir z (acceptBlock d s cls first recs) := by
  unfold acceptBlock
  repeat' first
    | with_reducible assumption
    | with_reducible apply loseBlock_dir
    | with_reducible apply setStrm_dir
    | simp -implicitDefEqProofs only [Dir.lit]
    | split
    | intro _
    | dsimp only
theorem closeBlock_dir (d : Dev) (s : Nat) (h0 : Dir z d) : Dir z (closeBlock d s) := by
  unfold closeBlock
  repeat' first
    | with_reducible assumption
    | with_reducible apply acceptBlock_dir
    | with_reducible apply loseBlock_dir
    | with_reducible apply modStrm_dir
    | with_reducible apply setStrm_dir
    | with_reducible apply tick_dir
    | simp -implicitDefEqProofs only [Dir.lit]
    | split
    | intro _
    | dsimp only
theorem putRec_dir (d : Dev) (s cls : Nat) (r : List Byte) (h0 : Dir z d) : Dir z (putRec d s cls r) := by
  unfold putRec
  repeat' first
    | with_reducible assumption
    | with_reducible apply closeBlock_dir
    | with_reducible apply setStrm_dir
    | simp -implicitDefEqProofs only [Dir.lit]
    | split
    | intro _
    | dsimp only
theorem beginAfterLoss_dir (d : Dev) (s : Nat) (h0 : Dir z d) : Dir z (beginAfterLoss d s) := by
  unfold beginAfterLoss
  repeat' first
    | with_reducible assumption
    | with_reducible apply setStrm_dir
    | with_reducible apply tick_dir
    | simp -implicitDefEqProofs only [Dir.lit]
    | split
    | intro _
    | dsimp only
theorem addRec_dir (d : Dev) (s cls : Nat) (r : List Byte) (h0 : Dir z d) : Dir z (addRec d s cls r) := by
  unfold addRec
  repeat' first
    | with_reducible assumption
    | with_reducible apply beginAfterLoss_dir
    | with_reducible apply closeBlock_dir
    | with_reducible apply putRec_dir
    | simp -implicitDefEqProofs only [Dir.lit]
    | split
    | intro _
    | dsimp only
theorem flushRepeat_dir (d : Dev) (s : Nat) (h0 : Dir z d) : Dir z (flushRepeat d s) := by
  unfold flushRepeat
  repeat' first
    | with_reducible assumption
    | with_reducible apply addRec_dir
    | with_reducible apply setStrm_dir
    | simp -implicitDefEqProofs only [Dir.lit]
    | split
    | intro _
    | dsimp only
theorem addSync_dir (d : Dev) (s : Nat) (h0 : Dir z d) : Dir z (addSync d s) := by
  unfold addSync
  repeat' first
    | with_reducible assumption
    | with_reducible apply addRec_dir
    | with_reducible apply flushRepeat_dir
    | with_reducible apply tick_dir
    | simp -implicitDefEqProofs only [Dir.lit]
    | split
    | intro _
    | dsimp only
theorem setOn_dir (d : Dev) (s : Nat) (v : Bool) (h0 : Dir z d) : Dir z (setOn d s v) := by
  unfold setOn
  repeat' first
    | with_reducible assumption
    | with_reducible apply flushRepeat_dir
    | with_reducible apply p_dir
    | simp -implicitDefEqProofs only [Dir.lit, off_pTRC, page_pTRC, ge_pTRC]
    | split
    | intro _
    | dsimp only
theorem stopStream_dir (d : Dev) (s : Nat) (h0 : Dir z d) : Dir z (stopStream d s) := by
  unfold stopStream
  repeat' first
    | with_reducible assumption
    | with_reducible apply closeBlock_dir
    | with_reducible apply modStrm_dir
    | with_reducible apply setOn_dir
    | simp -implicitDefEqProofs only [Dir.lit]
    | split
    | intro _
    | dsimp only
theorem addMark_dir (d : Dev) (s how before after v : Nat) (h0 : Dir z d) : Dir z (addMark d s how before after v) := by
  unfold addMark
  repeat' first
    | with_reducible assumption
    | with_reducible apply addRec_dir
    | with_reducible apply tick_dir
    | simp -implicitDefEqProofs only [Dir.lit]
    | split
    | intro _
    | dsimp only
theorem fireSlot_dir (d : Dev) (s j t : Nat) (h0 : Dir z d) : Dir z (fireSlot d s j t) := by
  unfold fireSlot
  repeat' first
    | with_reducible assumption
    | with_reducible apply addMark_dir
    | with_reducible apply p_dir
    | with_reducible apply setOn_dir
    | simp -implicitDefEqProofs only [Dir.lit, off_pTRC, page_pTRC, ge_pTRC]
    | split
    | intro _
    | dsimp only
theorem countHits_dir (d : Dev) (s : Nat) (hits : List Nat) (h0 : Dir z d) : Dir z (countHits d s hits) := by
  unfold countHits
  repeat' first
    | with_reducible assumption
    | with_reducible apply add_dir
    | simp -implicitDefEqProofs only [Dir.lit, off_pTRC, page_pTRC, ge_pTRC]
    | split
    | intro _
    | dsimp only
theorem runMachine_dir (d : Dev) (s : Nat) (hits : List Nat) (h0 : Dir z d) : Dir z (runMachine d s hits) := by
  unfold runMachine
  repeat' first
    | with_reducible assumption
    | with_reducible apply countHits_dir
    | with_reducible apply fireSlot_dir
    | simp -implicitDefEqProofs only [Dir.lit, off_pTRC, page_pTRC, ge_pTRC]
    | split
    | intro _
    | dsimp only
theorem runMachines_dir (d : Dev) (h0 : Dir z d) : Dir z (runMachines d) := by
  unfold runMachines
  repeat' first
    | with_reducible assumption
    | with_reducible apply each_dir
    | with_reducible apply runMachine_dir
    | simp -implicitDefEqProofs only [Dir.lit]
    | split
    | intro _
    | dsimp only
theorem endMachines_dir (d : Dev) (h0 : Dir z d) : Dir z (endMachines d) := by
  unfold endMachines
  repeat' first
    | with_reducible assumption
    | simp -implicitDefEqProofs only [Dir.lit]
    | split
    | intro _
    | dsimp only
theorem countCycle_dir (d : Dev) (i : Nat) (h0 : Dir z d) : Dir z (countCycle d i) := by
  unfold countCycle
  repeat' first
    | with_reducible assumption
    | with_reducible apply add_dir
    | simp -implicitDefEqProofs only [Dir.lit, off_pTRC, page_pTRC, ge_pTRC]
    | split
    | intro _
    | dsimp only
theorem addData_dir (d : Dev) (s n cyc : Nat) (taps : List Tap) (h0 : Dir z d) : Dir z (addData d s n cyc taps) := by
  unfold addData
  repeat' first
    | with_reducible assumption
    | with_reducible apply addRec_dir
    | with_reducible apply each_dir
    | simp -implicitDefEqProofs only [Dir.lit]
    | split
    | intro _
    | dsimp only
theorem addCycle_dir (d : Dev) (s passes steps es segs flags cyc etime : Nat) (h0 : Dir z d) : Dir z (addCycle d s passes steps es segs flags cyc etime) := by
  unfold addCycle
  repeat' first
    | with_reducible assumption
    | with_reducible apply addRec_dir
    | with_reducible apply flushRepeat_dir
    | with_reducible apply modStrm_dir
    | with_reducible apply setStrm_dir
    | simp -implicitDefEqProofs only [Dir.lit, off_pTRC, page_pTRC, ge_pTRC]
    | split
    | intro _
    | dsimp only
theorem setAuthMode_dir (d : Dev) (h0 : Dir z d) : Dir z (setAuthMode d) := by
  unfold setAuthMode
  repeat' first
    | with_reducible assumption
    | with_reducible apply p_dir
    | simp -implicitDefEqProofs only [Dir.lit, off_pTRC, page_pTRC, ge_pTRC]
    | split
    | intro _
    | dsimp only
theorem traceCycle_dir (d : Dev) (i passes steps es segs flags : Nat) (taps : List Tap) (h0 : Dir z d) : Dir z (traceCycle d i passes steps es segs flags taps) := by
  unfold traceCycle
  repeat' first
    | with_reducible assumption
    | with_reducible apply addCycle_dir
    | with_reducible apply addData_dir
    | with_reducible apply each_dir
    | simp -implicitDefEqProofs only [Dir.lit, off_pPTN, page_pPTN, ge_pPTN, off_pTRC, page_pTRC, ge_pTRC]
    | split
    | intro _
    | dsimp only
theorem denySources_dir (d : Dev) (s : Nat) (mark : Fld) (h0 : Dir z d) : Dir z (denySources d s mark) := by
  unfold denySources
  repeat' first
    | with_reducible assumption
    | with_reducible apply each_dir
    | with_reducible apply on_dir
    | with_reducible apply p_dir
    | simp -implicitDefEqProofs only [Dir.lit, off_pTRC, page_pTRC, ge_pTRC]
    | split
    | intro _
    | dsimp only
theorem applyRights_dir (d : Dev) (h0 : Dir z d) : Dir z (applyRights d) := by
  unfold applyRights
  repeat' first
    | with_reducible assumption
    | with_reducible apply denySources_dir
    | with_reducible apply each_dir
    | with_reducible apply on_dir
    | with_reducible apply setAuthMode_dir
    | with_reducible apply stopStream_dir
    | with_reducible apply traceIrq_dir
    | simp -implicitDefEqProofs only [Dir.lit, off_pTRC, page_pTRC, ge_pTRC]
    | split
    | intro _
    | dsimp only
theorem endToken_dir (d : Dev) (h0 : Dir z d) : Dir z (endToken d) := by
  unfold endToken
  repeat' first
    | with_reducible assumption
    | with_reducible apply applyRights_dir
    | with_reducible apply p_dir
    | simp -implicitDefEqProofs only [Dir.lit, off_pTRC, page_pTRC, ge_pTRC]
    | split
    | intro _
    | dsimp only
theorem enableStream_dir (d : Dev) (s : Nat) (h0 : Dir z d) : Dir z (enableStream d s) := by
  unfold enableStream
  repeat' first
    | with_reducible assumption
    | with_reducible apply addSync_dir
    | with_reducible apply denySources_dir
    | with_reducible apply on_dir
    | with_reducible apply p_dir
    | with_reducible apply setStrm_dir
    | simp -implicitDefEqProofs only [Dir.lit, off_pTRC, page_pTRC, ge_pTRC]
    | split
    | intro _
    | dsimp only
theorem disableStream_dir (d : Dev) (s : Nat) (h0 : Dir z d) : Dir z (disableStream d s) := by
  unfold disableStream
  repeat' first
    | with_reducible assumption
    | with_reducible apply p_dir
    | with_reducible apply stopStream_dir
    | simp -implicitDefEqProofs only [Dir.lit, off_pTRC, page_pTRC, ge_pTRC]
    | split
    | intro _
    | dsimp only
theorem traceWarden_dir (d : Dev) (h0 : Dir z d) : Dir z (traceWarden d) := by
  unfold traceWarden
  repeat' first
    | with_reducible assumption
    | with_reducible apply addRec_dir
    | simp -implicitDefEqProofs only [Dir.lit, off_pTRC, page_pTRC, ge_pTRC, off_pWDN, page_pWDN, ge_pWDN]
    | split
    | intro _
    | dsimp only
theorem tracePup_dir (d : Dev) (c kind : Nat) (h0 : Dir z d) : Dir z (tracePup d c kind) := by
  unfold tracePup
  repeat' first
    | with_reducible assumption
    | with_reducible apply addRec_dir
    | with_reducible apply tick_dir
    | simp -implicitDefEqProofs only [Dir.lit, off_pTRC, page_pTRC, ge_pTRC]
    | split
    | intro _
    | dsimp only
theorem pupStep_dir (d : Dev) (h0 : Dir z d) : Dir z (pupStep d) := by
  unfold pupStep
  repeat' first
    | with_reducible assumption
    | with_reducible apply each_dir
    | with_reducible apply tracePup_dir
    | simp -implicitDefEqProofs only [Dir.lit, off_pPUP, page_pPUP, ge_pPUP]
    | split
    | intro _
    | dsimp only
theorem traceProbe_dir (d : Dev) (devlvl : Bool) (r : List Byte) (h0 : Dir z d) : Dir z (traceProbe d devlvl r) := by
  unfold traceProbe
  repeat' first
    | with_reducible assumption
    | with_reducible apply addRec_dir
    | simp -implicitDefEqProofs only [Dir.lit, off_pTRC, page_pTRC, ge_pTRC]
    | split
    | intro _
    | dsimp only
theorem discont_dir (d : Dev) (kind : Nat) (h0 : Dir z d) : Dir z (discont d kind) := by
  unfold discont
  repeat' first
    | with_reducible assumption
    | with_reducible apply addRec_dir
    | with_reducible apply addSync_dir
    | with_reducible apply capDiscont_dir
    | with_reducible apply each_dir
    | with_reducible apply flushRepeat_dir
    | with_reducible apply raise_dir
    | simp -implicitDefEqProofs only [Dir.lit, off_pTSB, page_pTSB, ge_pTSB]
    | split
    | intro _
    | dsimp only
theorem addActs_dir (d : Dev) (owner bits : Nat) (h0 : Dir z d) : Dir z (addActs d owner bits) := by
  unfold addActs
  repeat' first
    | with_reducible assumption
    | simp -implicitDefEqProofs only [Dir.lit]
    | split
    | intro _
    | dsimp only
theorem runSequencer_dir (d : Dev) (hits : List Nat) (h0 : Dir z d) : Dir z (runSequencer d hits) := by
  unfold runSequencer
  repeat' first
    | with_reducible assumption
    | with_reducible apply addActs_dir
    | with_reducible apply irq_dir
    | with_reducible apply on_dir
    | with_reducible apply p_dir
    | simp -implicitDefEqProofs only [Dir.lit, off_pTRG, page_pTRG, ge_pTRG]
    | split
    | intro _
    | dsimp only
theorem stopPulse_dir (d : Dev) (j : Nat) (h0 : Dir z d) : Dir z (stopPulse d j) := by
  unfold stopPulse
  repeat' first
    | with_reducible assumption
    | simp -implicitDefEqProofs only [Dir.lit]
    | split
    | intro _
    | dsimp only
theorem pulsePins_dir (d : Dev) (owner : Nat) (h0 : Dir z d) : Dir z (pulsePins d owner) := by
  unfold pulsePins
  repeat' first
    | with_reducible assumption
    | with_reducible apply drivePin_dir
    | with_reducible apply each_dir
    | simp -implicitDefEqProofs only [Dir.lit, off_pTRG, page_pTRG, ge_pTRG]
    | split
    | intro _
    | dsimp only
theorem freezeAction_dir (d : Dev) (owner : Nat) (h0 : Dir z d) : Dir z (freezeAction d owner) := by
  unfold freezeAction
  repeat' first
    | with_reducible assumption
    | with_reducible apply each_dir
    | with_reducible apply freezeReq_dir
    | with_reducible apply raiseSysFreeze_dir
    | simp -implicitDefEqProofs only [Dir.lit, off_pLNK, page_pLNK, ge_pLNK, off_pPTN, page_pPTN, ge_pPTN]
    | split
    | intro _
    | dsimp only
theorem doAct_dir (d : Dev) (owner bit : Nat) (h0 : Dir z d) : Dir z (doAct d owner bit) := by
  unfold doAct
  repeat' first
    | with_reducible assumption
    | with_reducible apply freezeAction_dir
    | with_reducible apply pulsePins_dir
    | with_reducible apply strobeReq_dir
    | with_reducible apply trig_dir
    | simp -implicitDefEqProofs only [Dir.lit]
    | split
    | intro _
    | dsimp only
theorem issueActs_dir (d : Dev) (h0 : Dir z d) : Dir z (issueActs d) := by
  unfold issueActs
  repeat' first
    | with_reducible assumption
    | with_reducible apply doAct_dir
    | with_reducible apply each_dir
    | simp -implicitDefEqProofs only [Dir.lit]
    | split
    | intro _
    | dsimp only
theorem runEvents_dir (m : Nat) (d : Dev) (h0 : Dir z d) : Dir z (runEvents m d) := by
  induction m generalizing d with
  | zero => exact h0
  | succ m ih =>
    unfold runEvents
    repeat' first
      | with_reducible assumption
      | with_reducible apply ih
      | with_reducible apply logEvent_dir
      | with_reducible apply offer_dir
      | with_reducible apply countEvent_dir
      | exact fun _ => ⟨Eq.refl _, Eq.refl _⟩
      | exact Eq.refl _
      | simp -implicitDefEqProofs only [Dir.lit]
      | split
      | intro _
      | dsimp only
theorem runHits_dir (d : Dev) (h0 : Dir z d) : Dir z (runHits d) := by
  unfold runHits
  repeat' first
    | with_reducible assumption
    | with_reducible apply addActs_dir
    | with_reducible apply capEvent_dir
    | with_reducible apply each_dir
    | with_reducible apply issueActs_dir
    | with_reducible apply runMachines_dir
    | with_reducible apply runSequencer_dir
    | simp -implicitDefEqProofs only [Dir.lit, off_pTRG, page_pTRG, ge_pTRG]
    | split
    | intro _
    | dsimp only
theorem settleAll_dir (m : Nat) (d : Dev) (h0 : Dir z d) : Dir z (settleAll m d) := by
  induction m generalizing d with
  | zero => exact h0
  | succ m ih =>
    unfold settleAll
    repeat' first
      | with_reducible assumption
      | with_reducible apply ih
      | with_reducible apply endMachines_dir
      | with_reducible apply capFlush_dir
      | with_reducible apply runHits_dir
      | with_reducible apply runEvents_dir
      | exact fun _ => ⟨Eq.refl _, Eq.refl _⟩
      | exact Eq.refl _
      | simp -implicitDefEqProofs only [Dir.lit]
      | split
      | intro _
      | dsimp only
theorem stepEnd_dir (d : Dev) (h0 : Dir z d) : Dir z (stepEnd d) := by
  unfold stepEnd
  repeat' first
    | with_reducible assumption
    | with_reducible apply settleAll_dir
    | simp -implicitDefEqProofs only [Dir.lit]
    | split
    | intro _
    | dsimp only
theorem finish_dir (d : Dev) (h0 : Dir z d) : Dir z (finish d) := by
  unfold finish
  repeat' first
    | with_reducible assumption
    | with_reducible apply capDark_dir
    | with_reducible apply sendAnswers_dir
    | with_reducible apply serveHeld_dir
    | with_reducible apply settleAll_dir
    | simp -implicitDefEqProofs only [Dir.lit]
    | split
    | intro _
    | dsimp only
theorem doArm_dir (d : Dev) (h0 : Dir z d) : Dir z (doArm d) := by
  unfold doArm
  repeat' first
    | with_reducible assumption
    | with_reducible apply on_dir
    | with_reducible apply p_dir
    | simp -implicitDefEqProofs only [Dir.lit, off_pTRG, page_pTRG, ge_pTRG]
    | split
    | intro _
    | dsimp only
theorem doDisarm_dir (d : Dev) (h0 : Dir z d) : Dir z (doDisarm d) := by
  unfold doDisarm
  repeat' first
    | with_reducible assumption
    | with_reducible apply p_dir
    | simp -implicitDefEqProofs only [Dir.lit, off_pTRG, page_pTRG, ge_pTRG]
    | split
    | intro _
    | dsimp only
theorem doTriggerLevelTimeout_dir (d : Dev) (h0 : Dir z d) : Dir z (doTriggerLevelTimeout d) := by
  unfold doTriggerLevelTimeout
  repeat' first
    | with_reducible assumption
    | with_reducible apply p_dir
    | simp -implicitDefEqProofs only [Dir.lit, off_pTRG, page_pTRG, ge_pTRG]
    | split
    | intro _
    | dsimp only
theorem doTrigPinEdge_dir (d : Dev) (j : Nat) (rising : Bool) (h0 : Dir z d) : Dir z (doTrigPinEdge d j rising) := by
  unfold doTrigPinEdge
  repeat' first
    | with_reducible assumption
    | with_reducible apply offer_dir
    | with_reducible apply p_dir
    | simp -implicitDefEqProofs only [Dir.lit, off_pTRG, page_pTRG, ge_pTRG]
    | split
    | intro _
    | dsimp only
theorem doPinPulseEnd_dir (d : Dev) (j : Nat) (h0 : Dir z d) : Dir z (doPinPulseEnd d j) := by
  unfold doPinPulseEnd
  repeat' first
    | with_reducible assumption
    | with_reducible apply drivePin_dir
    | with_reducible apply stopPulse_dir
    | simp -implicitDefEqProofs only [Dir.lit]
    | split
    | intro _
    | dsimp only
theorem doTraceStreamEnable_dir (d : Dev) (t : Nat) (h0 : Dir z d) : Dir z (doTraceStreamEnable d t) := by
  unfold doTraceStreamEnable
  repeat' first
    | with_reducible assumption
    | with_reducible apply enableStream_dir
    | simp -implicitDefEqProofs only [Dir.lit]
    | split
    | intro _
    | dsimp only
theorem doTraceCounterLimit_dir (d : Dev) (t : Nat) (h0 : Dir z d) : Dir z (doTraceCounterLimit d t) := by
  unfold doTraceCounterLimit
  repeat' first
    | with_reducible assumption
    | with_reducible apply p_dir
    | simp -implicitDefEqProofs only [Dir.lit, off_pTRC, page_pTRC, ge_pTRC]
    | split
    | intro _
    | dsimp only
theorem doMark_dir (d : Dev) (t : Nat) (v : BitVec 16) (h0 : Dir z d) : Dir z (doMark d t v) := by
  unfold doMark
  repeat' first
    | with_reducible assumption
    | with_reducible apply addMark_dir
    | with_reducible apply runMachine_dir
    | simp -implicitDefEqProofs only [Dir.lit, off_pTRC, page_pTRC, ge_pTRC]
    | split
    | intro _
    | dsimp only
theorem doTraceBlockTimeout_dir (d : Dev) (t : Nat) (h0 : Dir z d) : Dir z (doTraceBlockTimeout d t) := by
  unfold doTraceBlockTimeout
  repeat' first
    | with_reducible assumption
    | with_reducible apply closeBlock_dir
    | simp -implicitDefEqProofs only [Dir.lit]
    | split
    | intro _
    | dsimp only
theorem doTraceSyncTimer_dir (d : Dev) (t : Nat) (h0 : Dir z d) : Dir z (doTraceSyncTimer d t) := by
  unfold doTraceSyncTimer
  repeat' first
    | with_reducible assumption
    | with_reducible apply addSync_dir
    | simp -implicitDefEqProofs only [Dir.lit, off_pTRC, page_pTRC, ge_pTRC]
    | split
    | intro _
    | dsimp only
theorem doTokenRevoke_dir (d : Dev) (tag : Byte) (h0 : Dir z d) : Dir z (doTokenRevoke d tag) := by
  unfold doTokenRevoke
  repeat' first
    | with_reducible assumption
    | with_reducible apply answer_dir
    | with_reducible apply endToken_dir
    | with_reducible apply takeService_dir
    | simp -implicitDefEqProofs only [Dir.lit]
    | split
    | intro _
    | dsimp only
theorem doTokenExpire_dir (d : Dev) (h0 : Dir z d) : Dir z (doTokenExpire d) := by
  unfold doTokenExpire
  repeat' first
    | with_reducible assumption
    | with_reducible apply endToken_dir
    | simp -implicitDefEqProofs only [Dir.lit, off_pTRC, page_pTRC, ge_pTRC]
    | split
    | intro _
    | dsimp only
theorem doAuthDisable_dir (d : Dev) (h0 : Dir z d) : Dir z (doAuthDisable d) := by
  unfold doAuthDisable
  repeat' first
    | with_reducible assumption
    | with_reducible apply endToken_dir
    | with_reducible apply on_dir
    | simp -implicitDefEqProofs only [Dir.lit, off_pTRC, page_pTRC, ge_pTRC]
    | split
    | intro _
    | dsimp only
theorem doTokenChallenge_dir (d : Dev) (tag : Byte) (h0 : Dir z d) : Dir z (doTokenChallenge d tag) := by
  unfold doTokenChallenge
  repeat' first
    | with_reducible assumption
    | with_reducible apply answer_dir
    | with_reducible apply takeService_dir
    | with_reducible apply tick_dir
    | simp -implicitDefEqProofs only [Dir.lit]
    | split
    | intro _
    | dsimp only
end Sys2Proof.Machine.Dev
end

