-- ==== Sys2Proof/Laws/KeepDirectory2.lean ====
section
/-! SUPPORT. The directory and the resizes in progress are left as they were by the sequencer and the execution of a step: one lemma for each function that leaves them. -/

set_option linter.all false

namespace Sys2Proof.Machine.Dev

set_option Elab.async false

variable {z : Dev}
theorem setBp_dir (d : Dev) (k : Nat) (v : Ecc 80) (h0 : Dir z d) : Dir z (setBp d k v) := by
  unfold setBp
  repeat' first
    | with_reducible assumption
    | simp -implicitDefEqProofs only [Dir.lit]
    | split
    | intro _
    | dsimp only
theorem setWa_dir (d : Dev) (k : Nat) (v : Ecc 96) (h0 : Dir z d) : Dir z (setWa d k v) := by
  unfold setWa
  repeat' first
    | with_reducible assumption
    | simp -implicitDefEqProofs only [Dir.lit]
    | split
    | intro _
    | dsimp only
theorem setPort_dir (d : Dev) (k : Nat) (v : ParW 16) (h0 : Dir z d) : Dir z (setPort d k v) := by
  unfold setPort
  repeat' first
    | with_reducible assumption
    | simp -implicitDefEqProofs only [Dir.lit]
    | split
    | intro _
    | dsimp only
theorem setMesh_dir (d : Dev) (k : Nat) (v : ParW 32) (h0 : Dir z d) : Dir z (setMesh d k v) := by
  unfold setMesh
  repeat' first
    | with_reducible assumption
    | simp -implicitDefEqProofs only [Dir.lit]
    | split
    | intro _
    | dsimp only
theorem setRow_dir (d : Dev) (k : Nat) (v : Ecc 96) (h0 : Dir z d) : Dir z (setRow d k v) := by
  unfold setRow
  repeat' first
    | with_reducible assumption
    | simp -implicitDefEqProofs only [Dir.lit]
    | split
    | intro _
    | dsimp only
theorem cluIrq_dir (d : Dev) (n i last : Nat) (h0 : Dir z d) : Dir z (cluIrq d n i last) := by
  unfold cluIrq
  repeat' first
    | with_reducible assumption
    | with_reducible apply irq_dir
    | with_reducible apply raise_dir
    | simp -implicitDefEqProofs only [Dir.lit, off_pCLU, page_pCLU, ge_pCLU]
    | split
    | intro _
    | dsimp only
theorem recordBp_dir (d : Dev) (n k syn : Nat) (ue : Bool) (h0 : Dir z d) : Dir z (recordBp d n k syn ue) := by
  unfold recordBp
  repeat' first
    | with_reducible assumption
    | with_reducible apply on_dir
    | with_reducible apply p_dir
    | simp -implicitDefEqProofs only [Dir.lit, off_pCLU, page_pCLU, ge_pCLU]
    | split
    | intro _
    | dsimp only
theorem recordWa_dir (d : Dev) (n k syn : Nat) (ue : Bool) (h0 : Dir z d) : Dir z (recordWa d n k syn ue) := by
  unfold recordWa
  repeat' first
    | with_reducible assumption
    | with_reducible apply on_dir
    | with_reducible apply p_dir
    | simp -implicitDefEqProofs only [Dir.lit, off_pCLU, page_pCLU, ge_pCLU]
    | split
    | intro _
    | dsimp only
theorem raiseUpset_dir (d : Dev) (n : Nat) (w : WordLoc) (fetch : Bool) (h0 : Dir z d) : Dir z (raiseUpset d n w fetch) := by
  unfold raiseUpset
  repeat' first
    | with_reducible assumption
    | simp -implicitDefEqProofs only [Dir.lit]
    | split
    | intro _
    | dsimp only
theorem metAgain_dir (d : Dev) (n : Nat) (w : WordLoc) (fetch : Bool) (h0 : Dir z d) : Dir z (metAgain d n w fetch) := by
  unfold metAgain
  repeat' first
    | with_reducible assumption
    | with_reducible apply raiseUpset_dir
    | simp -implicitDefEqProofs only [Dir.lit]
    | split
    | intro _
    | dsimp only
theorem freezeOwner_dir (d : Dev) (n cause : Nat) (h0 : Dir z d) : Dir z (freezeOwner d n cause) := by
  unfold freezeOwner
  repeat' first
    | with_reducible assumption
    | with_reducible apply freezeReq_dir
    | simp -implicitDefEqProofs only [Dir.lit]
    | split
    | intro _
    | dsimp only
theorem fetchBp_dir (d : Dev) (n k : Nat) (fetch : Bool) (h0 : Dir z d) : Dir z (fetchBp d n k fetch).1 := by
  unfold fetchBp
  repeat' first
    | with_reducible assumption
    | with_reducible apply add_dir
    | with_reducible apply cluIrq_dir
    | with_reducible apply freezeOwner_dir
    | with_reducible apply metAgain_dir
    | with_reducible apply modClu_dir
    | with_reducible apply on_dir
    | with_reducible apply raiseUpset_dir
    | with_reducible apply recordBp_dir
    | simp -implicitDefEqProofs only [Dir.lit, off_pCLU, page_pCLU, ge_pCLU]
    | split
    | intro _
    | dsimp only
theorem fetchWa_dir (d : Dev) (n k : Nat) (fetch : Bool) (h0 : Dir z d) : Dir z (fetchWa d n k fetch).1 := by
  unfold fetchWa
  repeat' first
    | with_reducible assumption
    | with_reducible apply add_dir
    | with_reducible apply cluIrq_dir
    | with_reducible apply freezeOwner_dir
    | with_reducible apply metAgain_dir
    | with_reducible apply modClu_dir
    | with_reducible apply on_dir
    | with_reducible apply raiseUpset_dir
    | with_reducible apply recordWa_dir
    | simp -implicitDefEqProofs only [Dir.lit, off_pCLU, page_pCLU, ge_pCLU]
    | split
    | intro _
    | dsimp only
theorem parityError_dir (d : Dev) (n addr tile port : Nat) (mesh : Bool) (h0 : Dir z d) : Dir z (parityError d n addr tile port mesh) := by
  unfold parityError
  repeat' first
    | with_reducible assumption
    | with_reducible apply add_dir
    | with_reducible apply cluIrq_dir
    | with_reducible apply on_dir
    | with_reducible apply p_dir
    | simp -implicitDefEqProofs only [Dir.lit, off_pCLU, page_pCLU, ge_pCLU]
    | split
    | intro _
    | dsimp only
theorem checkPort_dir (d : Dev) (n k : Nat) (fetch : Bool) (h0 : Dir z d) : Dir z (checkPort d n k fetch) := by
  unfold checkPort
  repeat' first
    | with_reducible assumption
    | with_reducible apply parityError_dir
    | with_reducible apply raiseUpset_dir
    | with_reducible apply setPort_dir
    | simp -implicitDefEqProofs only [Dir.lit]
    | split
    | intro _
    | dsimp only
theorem checkMesh_dir (d : Dev) (n k : Nat) (fetch : Bool) (h0 : Dir z d) : Dir z (checkMesh d n k fetch) := by
  unfold checkMesh
  repeat' first
    | with_reducible assumption
    | with_reducible apply parityError_dir
    | with_reducible apply raiseUpset_dir
    | with_reducible apply setMesh_dir
    | simp -implicitDefEqProofs only [Dir.lit]
    | split
    | intro _
    | dsimp only
theorem checkFabric_dir (d : Dev) (n s : Nat) (h0 : Dir z d) : Dir z (checkFabric d n s) := by
  unfold checkFabric
  repeat' first
    | with_reducible assumption
    | with_reducible apply checkMesh_dir
    | with_reducible apply checkPort_dir
    | with_reducible apply each_dir
    | simp -implicitDefEqProofs only [Dir.lit]
    | split
    | intro _
    | dsimp only
theorem sendSlots_dir (d : Dev) (i u : Nat) (h0 : Dir z d) : Dir z (sendSlots d i u) := by
  unfold sendSlots
  repeat' first
    | with_reducible assumption
    | with_reducible apply each_dir
    | with_reducible apply emit_dir
    | with_reducible apply setLink_dir
    | simp -implicitDefEqProofs only [Dir.lit, off_pLGRP, page_pLGRP, ge_pLGRP, off_pPTN, page_pPTN, ge_pPTN]
    | split
    | intro _
    | dsimp only
theorem recordRow_dir (d : Dev) (n m row : Nat) (ue : Bool) (h0 : Dir z d) : Dir z (recordRow d n m row ue) := by
  unfold recordRow
  repeat' first
    | with_reducible assumption
    | with_reducible apply on_dir
    | with_reducible apply p_dir
    | simp -implicitDefEqProofs only [Dir.lit, off_pCLU, page_pCLU, ge_pCLU]
    | split
    | intro _
    | dsimp only
theorem rowCe_dir (d : Dev) (n k : Nat) (h0 : Dir z d) : Dir z (rowCe d n k) := by
  unfold rowCe
  repeat' first
    | with_reducible assumption
    | with_reducible apply modClu_dir
    | with_reducible apply recordRow_dir
    | simp -implicitDefEqProofs only [Dir.lit]
    | split
    | intro _
    | dsimp only
theorem rowBackDone_dir (d : Dev) (n : Nat) (h0 : Dir z d) : Dir z (rowBackDone d n) := by
  unfold rowBackDone
  repeat' first
    | with_reducible assumption
    | with_reducible apply add_dir
    | with_reducible apply cluIrq_dir
    | simp -implicitDefEqProofs only [Dir.lit, off_pCLU, page_pCLU, ge_pCLU]
    | split
    | intro _
    | dsimp only
theorem rowUe_dir (d : Dev) (n k : Nat) (h0 : Dir z d) : Dir z (rowUe d n k) := by
  unfold rowUe
  repeat' first
    | with_reducible assumption
    | with_reducible apply add_dir
    | with_reducible apply cluIrq_dir
    | with_reducible apply raiseUpset_dir
    | with_reducible apply recordRow_dir
    | simp -implicitDefEqProofs only [Dir.lit, off_pCLU, page_pCLU, ge_pCLU]
    | split
    | intro _
    | dsimp only
theorem readRow_dir (d : Dev) (n k : Nat) (h0 : Dir z d) : Dir z (readRow d n k).1 := by
  unfold readRow
  repeat' first
    | with_reducible assumption
    | with_reducible apply rowCe_dir
    | with_reducible apply rowUe_dir
    | simp -implicitDefEqProofs only [Dir.lit]
    | split
    | intro _
    | dsimp only
theorem mergeEntry_dir (d : Dev) (n m a v : Nat) (h0 : Dir z d) : Dir z (mergeEntry d n m a v) := by
  unfold mergeEntry
  repeat' first
    | with_reducible assumption
    | with_reducible apply modClu_dir
    | with_reducible apply recordRow_dir
    | with_reducible apply rowBackDone_dir
    | with_reducible apply rowUe_dir
    | with_reducible apply setRow_dir
    | simp -implicitDefEqProofs only [Dir.lit, off_pCLU, page_pCLU, ge_pCLU]
    | split
    | intro _
    | dsimp only
theorem landWrites_dir (d : Dev) (n : Nat) (h0 : Dir z d) : Dir z (landWrites d n) := by
  unfold landWrites
  repeat' first
    | with_reducible assumption
    | with_reducible apply each_dir
    | with_reducible apply mergeEntry_dir
    | with_reducible apply modClu_dir
    | simp -implicitDefEqProofs only [Dir.lit]
    | split
    | intro _
    | dsimp only
theorem doEvent_dir (d : Dev) (c n m e : Nat) (h0 : Dir z d) : Dir z (doEvent d c n m e) := by
  unfold doEvent
  repeat' first
    | with_reducible assumption
    | with_reducible apply modClu_dir
    | with_reducible apply readRow_dir
    | simp -implicitDefEqProofs only [Dir.lit, off_pCLU, page_pCLU, ge_pCLU]
    | split
    | intro _
    | dsimp only
theorem runDmem_dir (d : Dev) (i c u : Nat) (h0 : Dir z d) : Dir z (runDmem d i c u) := by
  unfold runDmem
  repeat' first
    | with_reducible assumption
    | with_reducible apply doEvent_dir
    | with_reducible apply each_dir
    | with_reducible apply landWrites_dir
    | simp -implicitDefEqProofs only [Dir.lit]
    | split
    | intro _
    | dsimp only
theorem takeReads_dir (d : Dev) (i c : Nat) (h0 : Dir z d) : Dir z (takeReads d i c).1 := by
  unfold takeReads
  repeat' first
    | with_reducible assumption
    | with_reducible apply each_dir
    | with_reducible apply modClu_dir
    | simp -implicitDefEqProofs only [Dir.lit]
    | split
    | intro _
    | dsimp only
theorem setFar_dir (d : Dev) (n f : Nat) (xs : List FarAcc) (h0 : Dir z d) : Dir z (setFar d n f xs) := by
  unfold setFar
  repeat' first
    | with_reducible assumption
    | with_reducible apply modClu_dir
    | with_reducible apply p_dir
    | simp -implicitDefEqProofs only [Dir.lit, off_pCLU, page_pCLU, ge_pCLU]
    | split
    | intro _
    | dsimp only
theorem farUse_dir (d : Dev) (n f u : Nat) (h0 : Dir z d) : Dir z (farUse d n f u).1 := by
  unfold farUse
  repeat' first
    | with_reducible assumption
    | with_reducible apply setFar_dir
    | simp -implicitDefEqProofs only [Dir.lit, off_pCLU, page_pCLU, ge_pCLU]
    | split
    | intro _
    | dsimp only
theorem farReserve_dir (d : Dev) (n f : Nat) (h0 : Dir z d) : Dir z (farReserve d n f) := by
  unfold farReserve
  repeat' first
    | with_reducible assumption
    | with_reducible apply addOutst_dir
    | with_reducible apply each_dir
    | with_reducible apply setFar_dir
    | simp -implicitDefEqProofs only [Dir.lit]
    | split
    | intro _
    | dsimp only
theorem farIssue_dir (d : Dev) (i n f u : Nat) (h0 : Dir z d) : Dir z (farIssue d i n f u) := by
  unfold farIssue
  repeat' first
    | with_reducible assumption
    | with_reducible apply farReserve_dir
    | with_reducible apply setFar_dir
    | simp -implicitDefEqProofs only [Dir.lit, off_pCLU, page_pCLU, ge_pCLU, off_pPTN, page_pPTN, ge_pPTN]
    | split
    | intro _
    | dsimp only
theorem releasePort_dir (d : Dev) (n x : Nat) (h0 : Dir z d) : Dir z (releasePort d n x) := by
  unfold releasePort
  repeat' first
    | with_reducible assumption
    | with_reducible apply modClu_dir
    | with_reducible apply modQueue_dir
    | simp -implicitDefEqProofs only [Dir.lit, off_pCLU, page_pCLU, ge_pCLU]
    | split
    | intro _
    | dsimp only
theorem releasePorts_dir (d : Dev) (n : Nat) (h0 : Dir z d) : Dir z (releasePorts d n) := by
  unfold releasePorts
  repeat' first
    | with_reducible assumption
    | with_reducible apply each_dir
    | with_reducible apply releasePort_dir
    | simp -implicitDefEqProofs only [Dir.lit]
    | split
    | intro _
    | dsimp only
theorem txpRead_dir (d : Dev) (n x u : Nat) (h0 : Dir z d) : Dir z (txpRead d n x u).1 := by
  unfold txpRead
  repeat' first
    | with_reducible assumption
    | simp -implicitDefEqProofs only [Dir.lit, off_pCLU, page_pCLU, ge_pCLU]
    | split
    | intro _
    | dsimp only
    | with_reducible refine takeHead_dir (by assumption) ?_
theorem forgetSigs_dir (d : Dev) (i : Nat) (h0 : Dir z d) : Dir z (forgetSigs d i) := by
  unfold forgetSigs
  repeat' first
    | with_reducible assumption
    | with_reducible apply p_dir
    | simp -implicitDefEqProofs only [Dir.lit, off_pLSC, page_pLSC, ge_pLSC]
    | split
    | intro _
    | dsimp only
theorem lscSend_dir (d : Dev) (sig cyc type diag : Nat) (h0 : Dir z d) : Dir z (lscSend d sig cyc type diag) := by
  unfold lscSend
  repeat' first
    | with_reducible assumption
    | with_reducible apply emit_dir
    | with_reducible apply iff_dir
    | simp -implicitDefEqProofs only [Dir.lit, off_pLSC, page_pLSC, ge_pLSC]
    | split
    | intro _
    | dsimp only
theorem lscAct_dir (d : Dev) (h0 : Dir z d) : Dir z (lscAct d) := by
  unfold lscAct
  repeat' first
    | with_reducible assumption
    | with_reducible apply freezeReq_dir
    | with_reducible apply p_dir
    | with_reducible apply raiseSysFreeze_dir
    | with_reducible apply scrubRequest_dir
    | simp -implicitDefEqProofs only [Dir.lit, off_pLSC, page_pLSC, ge_pLSC]
    | split
    | intro _
    | dsimp only
theorem mismatch_dir (d : Dev) (cyc mine theirs : Nat) (h0 : Dir z d) : Dir z (mismatch d cyc mine theirs) := by
  unfold mismatch
  repeat' first
    | with_reducible assumption
    | with_reducible apply add_dir
    | with_reducible apply iff_dir
    | with_reducible apply irq_dir
    | with_reducible apply lscAct_dir
    | with_reducible apply lscSend_dir
    | with_reducible apply on_dir
    | with_reducible apply p_dir
    | with_reducible apply raise_dir
    | simp -implicitDefEqProofs only [Dir.lit, off_pLSC, page_pLSC, ge_pLSC]
    | split
    | intro _
    | dsimp only
theorem compareSigs_dir (d : Dev) (h0 : Dir z d) : Dir z (compareSigs d) := by
  unfold compareSigs
  repeat' first
    | with_reducible assumption
    | with_reducible apply each_dir
    | with_reducible apply mismatch_dir
    | with_reducible apply p_dir
    | simp -implicitDefEqProofs only [Dir.lit, off_pLSC, page_pLSC, ge_pLSC]
    | split
    | intro _
    | dsimp only
theorem sign_dir (d : Dev) (i : Nat) (taps : List Tap) (h0 : Dir z d) : Dir z (sign d i taps) := by
  unfold sign
  repeat' first
    | with_reducible assumption
    | with_reducible apply compareSigs_dir
    | with_reducible apply lscSend_dir
    | simp -implicitDefEqProofs only [Dir.lit, off_pPTN, page_pPTN, ge_pPTN]
    | split
    | intro _
    | dsimp only
theorem doLockstepRecord_dir (d : Dev) (r : BitVec 128) (h0 : Dir z d) : Dir z (doLockstepRecord d r) := by
  unfold doLockstepRecord
  repeat' first
    | with_reducible assumption
    | with_reducible apply compareSigs_dir
    | with_reducible apply lscAct_dir
    | with_reducible apply on_dir
    | simp -implicitDefEqProofs only [Dir.lit, off_pLSC, page_pLSC, ge_pLSC]
    | split
    | intro _
    | dsimp only
theorem doPartnerTimeout_dir (d : Dev) (h0 : Dir z d) : Dir z (doPartnerTimeout d) := by
  unfold doPartnerTimeout
  repeat' first
    | with_reducible assumption
    | with_reducible apply freezeReq_dir
    | with_reducible apply irq_dir
    | with_reducible apply on_dir
    | with_reducible apply p_dir
    | simp -implicitDefEqProofs only [Dir.lit, off_pLSC, page_pLSC, ge_pLSC]
    | split
    | intro _
    | dsimp only
theorem frozenIrq_dir (d : Dev) (i : Nat) (h0 : Dir z d) : Dir z (frozenIrq d i) := by
  unfold frozenIrq
  repeat' first
    | with_reducible assumption
    | with_reducible apply irq_dir
    | with_reducible apply raise_dir
    | simp -implicitDefEqProofs only [Dir.lit, off_pPTN, page_pPTN, ge_pPTN]
    | split
    | intro _
    | dsimp only
theorem landAll_dir (d : Dev) (i : Nat) (h0 : Dir z d) : Dir z (landAll d i) := by
  unfold landAll
  repeat' first
    | with_reducible assumption
    | with_reducible apply each_dir
    | with_reducible apply landWrites_dir
    | simp -implicitDefEqProofs only [Dir.lit]
    | split
    | intro _
    | dsimp only
theorem enterFreeze_dir (d : Dev) (i cause : Nat) (h0 : Dir z d) : Dir z (enterFreeze d i cause) := by
  unfold enterFreeze
  repeat' first
    | with_reducible assumption
    | with_reducible apply landAll_dir
    | with_reducible apply modPtn_dir
    | with_reducible apply on_dir
    | with_reducible apply p_dir
    | exact fun _ => ⟨Eq.refl _, Eq.refl _⟩
    | exact ⟨trivial, trivial⟩
    | simp -implicitDefEqProofs only [Dir.lit, off_pPTN, page_pPTN, ge_pPTN]
    | split
    | intro _
    | dsimp only
theorem enterHard_dir (d : Dev) (i cause : Nat) (h0 : Dir z d) : Dir z (enterHard d i cause) := by
  unfold enterHard
  repeat' first
    | with_reducible assumption
    | with_reducible apply frozenIrq_dir
    | with_reducible apply landAll_dir
    | with_reducible apply modPtn_dir
    | with_reducible apply p_dir
    | exact fun _ => ⟨Eq.refl _, Eq.refl _⟩
    | exact ⟨trivial, trivial⟩
    | simp -implicitDefEqProofs only [Dir.lit, off_pPTN, page_pPTN, ge_pPTN]
    | split
    | intro _
    | dsimp only
theorem sampleClocks_dir (d : Dev) (i : Nat) (h0 : Dir z d) : Dir z (sampleClocks d i) := by
  unfold sampleClocks
  repeat' first
    | with_reducible assumption
    | with_reducible apply modPtn_dir
    | exact fun _ => ⟨Eq.refl _, Eq.refl _⟩
    | exact ⟨trivial, trivial⟩
    | simp -implicitDefEqProofs only [Dir.lit]
    | split
    | intro _
    | dsimp only
theorem dropSamples_dir (d : Dev) (i : Nat) (h0 : Dir z d) : Dir z (dropSamples d i) := by
  unfold dropSamples
  repeat' first
    | with_reducible assumption
    | with_reducible apply modPtn_dir
    | exact fun _ => ⟨Eq.refl _, Eq.refl _⟩
    | exact ⟨trivial, trivial⟩
    | simp -implicitDefEqProofs only [Dir.lit]
    | split
    | intro _
    | dsimp only
theorem showPosition_dir (d : Dev) (i : Nat) (h0 : Dir z d) : Dir z (showPosition d i) := by
  unfold showPosition
  repeat' first
    | with_reducible assumption
    | with_reducible apply p_dir
    | simp -implicitDefEqProofs only [Dir.lit, off_pPTN, page_pPTN, ge_pPTN]
    | split
    | intro _
    | dsimp only
theorem capCycle_dir (d : Dev) (i cyc : Nat) (taps : List Tap) (h0 : Dir z d) : Dir z (capCycle d i cyc taps) := by
  unfold capCycle
  repeat' first
    | with_reducible assumption
    | with_reducible apply capBytes_dir
    | with_reducible apply capLost_dir
    | with_reducible apply each_dir
    | with_reducible apply setChan_dir
    | with_reducible apply foldl_dir
    | with_reducible apply fold1_dir
    | simp -implicitDefEqProofs only [Dir.lit, off_pCAP, page_pCAP, ge_pCAP]
    | split
    | intro _
    | dsimp only
theorem compareSteps_dir (d : Dev) (i : Nat) (h0 : Dir z d) : Dir z (compareSteps d i) := by
  unfold compareSteps
  repeat' first
    | with_reducible assumption
    | with_reducible apply on_dir
    | with_reducible apply raiseSysFreeze_dir
    | simp -implicitDefEqProofs only [Dir.lit, off_pLNK, page_pLNK, ge_pLNK]
    | split
    | intro _
    | dsimp only
theorem boundary_dir (d : Dev) (i : Nat) (cascade : Bool) (h0 : Dir z d) : Dir z (boundary d i cascade) := by
  unfold boundary
  repeat' first
    | with_reducible assumption
    | with_reducible apply capCycle_dir
    | with_reducible apply compareSteps_dir
    | with_reducible apply controlPtn_dir
    | with_reducible apply countCycle_dir
    | with_reducible apply enterFreeze_dir
    | with_reducible apply on_dir
    | with_reducible apply p_dir
    | with_reducible apply raise_dir
    | with_reducible apply runMachines_dir
    | with_reducible apply setPtn_dir
    | with_reducible apply sign_dir
    | with_reducible apply traceCycle_dir
    | with_reducible exact Eq.refl _
    | simp -implicitDefEqProofs only [Dir.lit, off_pPTN, page_pPTN, ge_pPTN]
    | split
    | intro _
    | dsimp only
theorem dueFreeze_dir (d : Dev) (i : Nat) (h0 : Dir z d) : Dir z (dueFreeze d i) := by
  unfold dueFreeze
  repeat' first
    | with_reducible assumption
    | with_reducible apply enterFreeze_dir
    | simp -implicitDefEqProofs only [Dir.lit]
    | split
    | intro _
    | dsimp only
theorem commitSet_dir (d : Dev) (i e : Nat) (h0 : Dir z d) : Dir z (commitSet d i e) := by
  unfold commitSet
  repeat' first
    | with_reducible assumption
    | with_reducible apply modPtn_dir
    | with_reducible apply sampleClocks_dir
    | with_reducible apply setSt_dir
    | with_reducible apply foldl_dir
    | with_reducible apply fold1_dir
    | exact fun _ => ⟨Eq.refl _, Eq.refl _⟩
    | exact ⟨trivial, trivial⟩
    | simp -implicitDefEqProofs only [Dir.lit]
    | split
    | intro _
    | dsimp only
theorem advance_dir (m : Nat) (d : Dev) (i : Nat) (h0 : Dir z d) : Dir z (advance m d i) := by
  induction m generalizing d with
  | zero => exact h0
  | succ m ih =>
    unfold advance
    repeat' first
      | with_reducible assumption
      | with_reducible apply ih
      | with_reducible apply commitSet_dir
      | with_reducible apply modPtn_dir
      | with_reducible apply boundary_dir
      | with_reducible apply on_dir
      | with_reducible apply irq_dir
      | with_reducible apply setPtn_dir
      | with_reducible apply p_dir
      | exact fun _ => ⟨Eq.refl _, Eq.refl _⟩
      | exact Eq.refl _
      | simp -implicitDefEqProofs only [Dir.lit, off_pPTN, page_pPTN, ge_pPTN]
      | split
      | intro _
      | dsimp only
theorem beginInstant_dir (d : Dev) (i : Nat) (h0 : Dir z d) : Dir z (beginInstant d i) := by
  unfold beginInstant
  repeat' first
    | with_reducible assumption
    | with_reducible apply advance_dir
    | with_reducible apply modPtn_dir
    | with_reducible apply on_dir
    | with_reducible apply p_dir
    | with_reducible apply sampleClocks_dir
    | with_reducible apply setSt_dir
    | with_reducible apply tick_dir
    | with_reducible apply foldl_dir
    | with_reducible apply fold1_dir
    | exact fun _ => ⟨Eq.refl _, Eq.refl _⟩
    | exact ⟨trivial, trivial⟩
    | simp -implicitDefEqProofs only [Dir.lit, off_pPTN, page_pPTN, ge_pPTN]
    | split
    | intro _
    | dsimp only
theorem askHold_dir (d : Dev) (i e : Nat) (h0 : Dir z d) : Dir z (askHold d i e) := by
  unfold askHold
  repeat' first
    | with_reducible assumption
    | with_reducible apply controlPtn_dir
    | with_reducible apply modPtn_dir
    | exact fun _ => ⟨Eq.refl _, Eq.refl _⟩
    | exact ⟨trivial, trivial⟩
    | simp -implicitDefEqProofs only [Dir.lit]
    | split
    | intro _
    | dsimp only
theorem earlyCheck_dir (d : Dev) (i : Nat) (h0 : Dir z d) : Dir z (earlyCheck d i) := by
  unfold earlyCheck
  repeat' first
    | with_reducible assumption
    | with_reducible apply askHold_dir
    | simp -implicitDefEqProofs only [Dir.lit, off_pPTN, page_pPTN, ge_pPTN]
    | split
    | intro _
    | dsimp only
theorem holdReady_dir (d : Dev) (i e : Nat) (h0 : Dir z d) : Dir z (holdReady d i e) := by
  unfold holdReady
  repeat' first
    | with_reducible assumption
    | with_reducible apply controlPtn_dir
    | with_reducible apply modPtn_dir
    | exact fun _ => ⟨Eq.refl _, Eq.refl _⟩
    | exact ⟨trivial, trivial⟩
    | simp -implicitDefEqProofs only [Dir.lit, off_pPTN, page_pPTN, ge_pPTN]
    | split
    | intro _
    | dsimp only
theorem leadGo_dir (d : Dev) (i e : Nat) (h0 : Dir z d) : Dir z (leadGo d i e) := by
  unfold leadGo
  repeat' first
    | with_reducible assumption
    | with_reducible apply controlPtn_dir
    | with_reducible apply modPtn_dir
    | exact fun _ => ⟨Eq.refl _, Eq.refl _⟩
    | exact ⟨trivial, trivial⟩
    | simp -implicitDefEqProofs only [Dir.lit, off_pPTN, page_pPTN, ge_pPTN]
    | split
    | intro _
    | dsimp only
theorem askLag_dir (d : Dev) (i : Nat) (h0 : Dir z d) : Dir z (askLag d i) := by
  unfold askLag
  repeat' first
    | with_reducible assumption
    | with_reducible apply askHold_dir
    | simp -implicitDefEqProofs only [Dir.lit, off_pPTN, page_pPTN, ge_pPTN]
    | split
    | intro _
    | dsimp only
theorem forgetSteps_dir (d : Dev) (i : Nat) (h0 : Dir z d) : Dir z (forgetSteps d i) := by
  unfold forgetSteps
  repeat' first
    | with_reducible assumption
    | simp -implicitDefEqProofs only [Dir.lit]
    | split
    | intro _
    | dsimp only
theorem holdStep_dir (d : Dev) (i src : Nat) (h0 : Dir z d) : Dir z (holdStep d i src) := by
  unfold holdStep
  repeat' first
    | with_reducible assumption
    | with_reducible apply add_dir
    | with_reducible apply modPtn_dir
    | with_reducible apply on_dir
    | with_reducible apply p_dir
    | with_reducible apply raise_dir
    | exact fun _ => ⟨Eq.refl _, Eq.refl _⟩
    | exact ⟨trivial, trivial⟩
    | simp -implicitDefEqProofs only [Dir.lit, off_pPTN, page_pPTN, ge_pPTN]
    | split
    | intro _
    | dsimp only
theorem addTap_dir (d : Dev) (i : Nat) (t : Tap) (h0 : Dir z d) : Dir z (addTap d i t) := by
  unfold addTap
  repeat' first
    | with_reducible assumption
    | with_reducible apply modPtn_dir
    | exact fun _ => ⟨Eq.refl _, Eq.refl _⟩
    | exact ⟨trivial, trivial⟩
    | simp -implicitDefEqProofs only [Dir.lit]
    | split
    | intro _
    | dsimp only
theorem runBps_dir (d : Dev) (i n u : Nat) (h0 : Dir z d) : Dir z (runBps d i n u).1 := by
  unfold runBps
  repeat' first
    | with_reducible assumption
    | with_reducible apply addTap_dir
    | with_reducible apply fetchBp_dir
    | with_reducible apply offerBp_dir
    | with_reducible apply foldl_dir
    | with_reducible apply fold1_dir
    | simp -implicitDefEqProofs only [Dir.lit]
    | split
    | intro _
    | dsimp only
theorem runWord_dir (d : Dev) (i n t w u word : Nat) (pair : Bool) (h0 : Dir z d) : Dir z (runWord d i n t w u word pair).1 := by
  unfold runWord
  repeat' first
    | with_reducible assumption
    | with_reducible apply addTap_dir
    | with_reducible apply capWord_dir
    | with_reducible apply offerWalu_dir
    | simp -implicitDefEqProofs only [Dir.lit, off_pPTN, page_pPTN, ge_pPTN]
    | split
    | intro _
    | dsimp only
theorem runWalus_dir (d : Dev) (i n u : Nat) (h0 : Dir z d) : Dir z (runWalus d i n u).1 := by
  unfold runWalus
  repeat' first
    | with_reducible assumption
    | with_reducible apply fetchWa_dir
    | with_reducible apply runWord_dir
    | with_reducible apply foldl_dir
    | with_reducible apply fold1_dir
    | simp -implicitDefEqProofs only [Dir.lit]
    | split
    | intro _
    | dsimp only
theorem runPorts_dir (d : Dev) (ports : List Nat) (f : Dev → Nat → Dev × List Wr) (h0 : Dir z d) (h : ∀ e a, Dir z e → Dir z (f e a).1) : Dir z (d.runPorts ports f).1 := by
  unfold runPorts
  apply fold1_dir
  · exact h0
  · intro r a hr; exact h r.1 a hr
theorem runCluster_dir (d : Dev) (i u n : Nat) (h0 : Dir z d) : Dir z (runCluster d i u n).1 := by
  unfold runCluster
  repeat' first
    | with_reducible assumption
    | with_reducible apply farUse_dir
    | with_reducible apply runBps_dir
    | with_reducible apply runDmem_dir
    | with_reducible apply runPorts_dir
    | with_reducible apply runWalus_dir
    | with_reducible apply takeReads_dir
    | with_reducible apply txpRead_dir
    | simp -implicitDefEqProofs only [Dir.lit]
    | split
    | intro _
    | dsimp only
theorem txpStore_dir (d : Dev) (n x : Nat) (q : Nat) (w : QWord) (credit : Bool) (h0 : Dir z d) : Dir z (txpStore d n x q w credit) := by
  unfold txpStore
  repeat' first
    | with_reducible assumption
    | with_reducible apply append_dir
    | with_reducible apply modClu_dir
    | simp -implicitDefEqProofs only [Dir.lit]
    | split
    | intro _
    | dsimp only
theorem executeIndex_dir (d : Dev) (i u : Nat) (h0 : Dir z d) : Dir z (executeIndex d i u) := by
  unfold executeIndex
  repeat' first
    | with_reducible assumption
    | with_reducible apply checkFabric_dir
    | with_reducible apply each_dir
    | with_reducible apply farIssue_dir
    | with_reducible apply modLink_dir
    | with_reducible apply modPtn_dir
    | with_reducible apply runCluster_dir
    | with_reducible apply sendSlots_dir
    | with_reducible apply setSt_dir
    | with_reducible apply tick_dir
    | with_reducible apply txpStore_dir
    | with_reducible apply foldl_dir
    | with_reducible apply fold1_dir
    | exact fun _ => ⟨Eq.refl _, Eq.refl _⟩
    | exact ⟨trivial, trivial⟩
    | simp -implicitDefEqProofs only [Dir.lit]
    | split
    | intro _
    | dsimp only
theorem afterStep_dir (d : Dev) (i seg : Nat) (h0 : Dir z d) : Dir z (afterStep d i seg) := by
  unfold afterStep
  repeat' first
    | with_reducible assumption
    | with_reducible apply advance_dir
    | with_reducible apply landAll_dir
    | with_reducible apply modPtn_dir
    | with_reducible apply p_dir
    | exact fun _ => ⟨Eq.refl _, Eq.refl _⟩
    | exact ⟨trivial, trivial⟩
    | simp -implicitDefEqProofs only [Dir.lit, off_pPTN, page_pPTN, ge_pPTN]
    | split
    | intro _
    | dsimp only
theorem oneStep_dir (d : Dev) (i : Nat) (h0 : Dir z d) : Dir z (oneStep d i) := by
  unfold oneStep
  repeat' first
    | with_reducible assumption
    | with_reducible apply advance_dir
    | with_reducible apply afterStep_dir
    | with_reducible apply askHold_dir
    | with_reducible apply earlyCheck_dir
    | with_reducible apply executeIndex_dir
    | with_reducible apply holdReady_dir
    | with_reducible apply holdStep_dir
    | with_reducible apply iff_dir
    | with_reducible apply leadGo_dir
    | with_reducible apply modPtn_dir
    | with_reducible apply on_dir
    | exact fun _ => ⟨Eq.refl _, Eq.refl _⟩
    | exact ⟨trivial, trivial⟩
    | simp -implicitDefEqProofs only [Dir.lit, off_pLSC, page_pLSC, ge_pLSC]
    | split
    | intro _
    | dsimp only
theorem doExecuteStep_dir (d : Dev) (i : Nat) (h0 : Dir z d) : Dir z (doExecuteStep d i) := by
  unfold doExecuteStep
  repeat' first
    | with_reducible assumption
    | with_reducible apply askLag_dir
    | with_reducible apply beginInstant_dir
    | with_reducible apply dueFreeze_dir
    | with_reducible apply enterFreeze_dir
    | with_reducible apply enterHard_dir
    | with_reducible apply holdStep_dir
    | with_reducible apply iff_dir
    | with_reducible apply on_dir
    | with_reducible apply oneStep_dir
    | with_reducible apply showPosition_dir
    | simp -implicitDefEqProofs only [Dir.lit, off_pLSC, page_pLSC, ge_pLSC, off_pPTN, page_pPTN, ge_pPTN]
    | split
    | intro _
    | dsimp only
theorem cmdErr_dir (d : Dev) (i code : Nat) (h0 : Dir z d) : Dir z (cmdErr d i code) := by
  unfold cmdErr
  repeat' first
    | with_reducible assumption
    | with_reducible apply irq_dir
    | with_reducible apply p_dir
    | simp -implicitDefEqProofs only [Dir.lit, off_pPTN, page_pPTN, ge_pPTN]
    | split
    | intro _
    | dsimp only
theorem startNow_dir (d : Dev) (i : Nat) (h0 : Dir z d) : Dir z (startNow d i) := by
  unfold startNow
  repeat' first
    | with_reducible assumption
    | with_reducible apply each_dir
    | with_reducible apply forgetSigs_dir
    | with_reducible apply forgetSteps_dir
    | with_reducible apply modLink_dir
    | with_reducible apply modPtn_dir
    | with_reducible apply p_dir
    | exact fun _ => ⟨Eq.refl _, Eq.refl _⟩
    | exact ⟨trivial, trivial⟩
    | simp -implicitDefEqProofs only [Dir.lit, off_pPTN, page_pPTN, ge_pPTN]
    | split
    | intro _
    | dsimp only
theorem resumeNow_dir (d : Dev) (i : Nat) (cycles steps : Option Nat) (h0 : Dir z d) : Dir z (resumeNow d i cycles steps) := by
  unfold resumeNow
  repeat' first
    | with_reducible assumption
    | with_reducible apply modPtn_dir
    | with_reducible apply p_dir
    | exact fun _ => ⟨Eq.refl _, Eq.refl _⟩
    | exact ⟨trivial, trivial⟩
    | simp -implicitDefEqProofs only [Dir.lit, off_pPTN, page_pPTN, ge_pPTN]
    | split
    | intro _
    | dsimp only
theorem stopNow_dir (d : Dev) (i : Nat) (h0 : Dir z d) : Dir z (stopNow d i) := by
  unfold stopNow
  repeat' first
    | with_reducible assumption
    | with_reducible apply each_dir
    | with_reducible apply forgetSigs_dir
    | with_reducible apply forgetSteps_dir
    | with_reducible apply irq_dir
    | with_reducible apply landAll_dir
    | with_reducible apply modClu_dir
    | with_reducible apply modPtn_dir
    | with_reducible apply p_dir
    | exact fun _ => ⟨Eq.refl _, Eq.refl _⟩
    | exact ⟨trivial, trivial⟩
    | simp -implicitDefEqProofs only [Dir.lit, off_pPTN, page_pPTN, ge_pPTN]
    | split
    | intro _
    | dsimp only
theorem commandNow_dir (d : Dev) (i cmd count : Nat) (h0 : Dir z d) : Dir z (commandNow d i cmd count) := by
  unfold commandNow
  repeat' first
    | with_reducible assumption
    | with_reducible apply resumeNow_dir
    | with_reducible apply startNow_dir
    | with_reducible apply stopNow_dir
    | with_reducible apply wakeAll_dir
    | simp -implicitDefEqProofs only [Dir.lit]
    | split
    | intro _
    | dsimp only
theorem issueCommand_dir (d : Dev) (i cmd : Nat) (h0 : Dir z d) : Dir z (issueCommand d i cmd) := by
  unfold issueCommand
  repeat' first
    | with_reducible assumption
    | with_reducible apply commandNow_dir
    | with_reducible apply controlPtn_dir
    | with_reducible apply modPtn_dir
    | exact fun _ => ⟨Eq.refl _, Eq.refl _⟩
    | exact ⟨trivial, trivial⟩
    | simp -implicitDefEqProofs only [Dir.lit, off_pPTN, page_pPTN, ge_pPTN]
    | split
    | intro _
    | dsimp only
theorem hardReq_dir (d : Dev) (i : Nat) (h0 : Dir z d) : Dir z (hardReq d i) := by
  unfold hardReq
  repeat' first
    | with_reducible assumption
    | with_reducible apply controlPtn_dir
    | with_reducible apply dueFreeze_dir
    | with_reducible apply enterHard_dir
    | with_reducible apply setPtn_dir
    | with_reducible exact Eq.refl _
    | simp -implicitDefEqProofs only [Dir.lit]
    | split
    | intro _
    | dsimp only
theorem seqCommand_dir (d : Dev) (i cmd : Nat) (h0 : Dir z d) : Dir z (seqCommand d i cmd) := by
  unfold seqCommand
  repeat' first
    | with_reducible assumption
    | with_reducible apply cmdErr_dir
    | with_reducible apply freezeReq_dir
    | with_reducible apply hardReq_dir
    | with_reducible apply iff_dir
    | with_reducible apply issueCommand_dir
    | with_reducible apply tick_dir
    | simp -implicitDefEqProofs only [Dir.lit]
    | split
    | intro _
    | dsimp only
theorem writeWord_dir (d : Dev) (base off v : Nat) (fs : List Fld) (h0 : Dir z d) (ho : ∀ f ∈ fs, f.off = off → f.acc = .rw ∨ f.acc = .rw1c → Off base f) : Dir z (writeWord d base off v fs) := by
  unfold writeWord
  refine foldl_mem_dir _ _ _ h0 fun f hf e he => ?_
  simp only [List.mem_filter, beq_iff_eq] at hf
  split
  · next ha => exact p_dir _ _ _ _ he (ho f hf.1 hf.2 (Or.inl ha))
  · next ha => exact p_dir _ _ _ _ he (ho f hf.1 hf.2 (Or.inr ha))
  · exact he
theorem doSeqTableWrite_dir (d : Dev) (i off : Nat) (v : W32) (h0 : Dir z d) : Dir z (doSeqTableWrite d i off v) := by
  unfold doSeqTableWrite
  repeat' first
    | with_reducible assumption
    | with_reducible apply cmdErr_dir
    | with_reducible apply dropSamples_dir
    | with_reducible apply writeWord_dir
    | simp -implicitDefEqProofs only [Dir.lit, off_pPTN, page_pPTN, ge_pPTN]
    | split
    | intro _
    | dsimp only
theorem doStallRelease_dir (d : Dev) (i : Nat) (h0 : Dir z d) : Dir z (doStallRelease d i) := by
  unfold doStallRelease
  repeat' first
    | with_reducible assumption
    | with_reducible apply doExecuteStep_dir
    | simp -implicitDefEqProofs only [Dir.lit, off_pPTN, page_pPTN, ge_pPTN]
    | split
    | intro _
    | dsimp only
theorem doDue_dir (d : Dev) (i : Nat) (due : Due) (h0 : Dir z d) : Dir z (doDue d i due) := by
  unfold doDue
  repeat' first
    | with_reducible assumption
    | with_reducible apply dueFreeze_dir
    | simp -implicitDefEqProofs only [Dir.lit]
    | split
    | intro _
    | dsimp only
theorem doStepStepsCountReached_dir (d : Dev) (i : Nat) (h0 : Dir z d) : Dir z (doStepStepsCountReached d i) := by
  unfold doStepStepsCountReached
  repeat' first
    | with_reducible assumption
    | with_reducible apply doDue_dir
    | with_reducible apply modPtn_dir
    | exact fun _ => ⟨Eq.refl _, Eq.refl _⟩
    | exact ⟨trivial, trivial⟩
    | simp -implicitDefEqProofs only [Dir.lit]
    | split
    | intro _
    | dsimp only
theorem doFreezeTimeout_dir (d : Dev) (i : Nat) (h0 : Dir z d) : Dir z (doFreezeTimeout d i) := by
  unfold doFreezeTimeout
  repeat' first
    | with_reducible assumption
    | with_reducible apply enterHard_dir
    | with_reducible apply irq_dir
    | with_reducible apply on_dir
    | simp -implicitDefEqProofs only [Dir.lit, off_pPTN, page_pPTN, ge_pPTN]
    | split
    | intro _
    | dsimp only
theorem passOn_dir (d : Dev) (i gi kind body : Nat) (h0 : Dir z d) : Dir z (passOn d i gi kind body) := by
  unfold passOn
  repeat' first
    | with_reducible assumption
    | with_reducible apply control_dir
    | with_reducible apply each_dir
    | simp -implicitDefEqProofs only [Dir.lit]
    | split
    | intro _
    | dsimp only
theorem linkedMsg_dir (d : Dev) (gi i : Nat) (intact : Bool) (k : Dev → Dev) (h0 : Dir z d) (hk : ∀ e, Dir z e → Dir z (k e)) : Dir z (linkedMsg d gi i intact k) := by
  unfold linkedMsg
  repeat' first
    | with_reducible assumption
    | with_reducible apply hk
    | with_reducible apply ctlBad_dir
    | exact fun _ => ⟨Eq.refl _, Eq.refl _⟩
    | exact Eq.refl _
    | simp -implicitDefEqProofs only [Dir.lit]
    | split
    | intro _
    | dsimp only
theorem freezeAtStep_dir (d : Dev) (i e : Nat) (hard : Bool) (h0 : Dir z d) : Dir z (freezeAtStep d i e hard) := by
  unfold freezeAtStep
  repeat' first
    | with_reducible assumption
    | with_reducible apply iff_dir
    | with_reducible apply modPtn_dir
    | with_reducible apply on_dir
    | exact fun _ => ⟨Eq.refl _, Eq.refl _⟩
    | exact ⟨trivial, trivial⟩
    | simp -implicitDefEqProofs only [Dir.lit, off_pPTN, page_pPTN, ge_pPTN]
    | split
    | intro _
    | dsimp only
theorem doLinkedCommand_dir (d : Dev) (gi i cmd : Nat) (count : W32) (dist : Nat) (intact : Bool) (h0 : Dir z d) : Dir z (doLinkedCommand d gi i cmd count dist intact) := by
  unfold doLinkedCommand
  repeat' first
    | with_reducible assumption
    | with_reducible apply freezeAtStep_dir
    | with_reducible apply linkedMsg_dir
    | with_reducible apply modPtn_dir
    | with_reducible apply passOn_dir
    | exact fun _ => ⟨Eq.refl _, Eq.refl _⟩
    | exact ⟨trivial, trivial⟩
    | simp -implicitDefEqProofs only [Dir.lit, off_pLNK, page_pLNK, ge_pLNK]
    | split
    | intro _
    | dsimp only
theorem doLinkedCommandEffect_dir (d : Dev) (i : Nat) (h0 : Dir z d) : Dir z (doLinkedCommandEffect d i) := by
  unfold doLinkedCommandEffect
  repeat' first
    | with_reducible assumption
    | with_reducible apply cmdErr_dir
    | with_reducible apply commandNow_dir
    | with_reducible apply modPtn_dir
    | exact fun _ => ⟨Eq.refl _, Eq.refl _⟩
    | exact ⟨trivial, trivial⟩
    | simp -implicitDefEqProofs only [Dir.lit]
    | split
    | intro _
    | dsimp only
theorem doHold_dir (d : Dev) (gi i e : Nat) (intact : Bool) (h0 : Dir z d) : Dir z (doHold d gi i e intact) := by
  unfold doHold
  refine linkedMsg_dir _ _ _ _ _ h0 fun d h => ?_
  dsimp only
  split
  · exact raiseSysFreeze_dir _ (on_dir _ _ _ (passOn_dir _ _ _ _ _ h) (of_eq_true (off_pLNK _)))
  · exact modPtn_dir _ _ _ (passOn_dir _ _ _ _ _ h) fun x => by split <;> exact ⟨Eq.refl _, Eq.refl _⟩
theorem doReady_dir (d : Dev) (gi i e : Nat) (intact : Bool) (h0 : Dir z d) : Dir z (doReady d gi i e intact) := by
  unfold doReady
  repeat' first
    | with_reducible assumption
    | with_reducible apply leadGo_dir
    | with_reducible apply linkedMsg_dir
    | with_reducible apply modPtn_dir
    | with_reducible apply passOn_dir
    | exact fun _ => ⟨Eq.refl _, Eq.refl _⟩
    | exact ⟨trivial, trivial⟩
    | simp -implicitDefEqProofs only [Dir.lit]
    | split
    | intro _
    | dsimp only
theorem doGo_dir (d : Dev) (gi i e : Nat) (intact : Bool) (h0 : Dir z d) : Dir z (doGo d gi i e intact) := by
  unfold doGo
  repeat' first
    | with_reducible assumption
    | with_reducible apply linkedMsg_dir
    | with_reducible apply modPtn_dir
    | with_reducible apply passOn_dir
    | exact fun _ => ⟨Eq.refl _, Eq.refl _⟩
    | exact ⟨trivial, trivial⟩
    | simp -implicitDefEqProofs only [Dir.lit]
    | split
    | intro _
    | dsimp only
theorem doSystemHoldRelease_dir (d : Dev) (i : Nat) (h0 : Dir z d) : Dir z (doSystemHoldRelease d i) := by
  unfold doSystemHoldRelease
  repeat' first
    | with_reducible assumption
    | with_reducible apply p_dir
    | with_reducible apply setPtn_dir
    | with_reducible exact Eq.refl _
    | simp -implicitDefEqProofs only [Dir.lit, off_pPTN, page_pPTN, ge_pPTN]
    | split
    | intro _
    | dsimp only
theorem doSteps_dir (d : Dev) (gi i : Nat) (cycle : BitVec 48) (count : Nat) (intact : Bool) (h0 : Dir z d) : Dir z (doSteps d gi i cycle count intact) := by
  unfold doSteps
  repeat' first
    | with_reducible assumption
    | with_reducible apply compareSteps_dir
    | with_reducible apply linkedMsg_dir
    | simp -implicitDefEqProofs only [Dir.lit]
    | split
    | intro _
    | dsimp only
end Sys2Proof.Machine.Dev
end

