-- ==== Sys2Proof/Laws/KeepDirectory3.lean ====
section
/-! SUPPORT. The directory and the resizes in progress are left as they were by cluster pages, windows, snapshots, doorbells and couriers: one lemma for each function that leaves them. -/

set_option linter.all false

namespace Sys2Proof.Machine.Dev

set_option Elab.async false

variable {z : Dev}
theorem atPage_dir (d : Dev) (base : Nat) (k : Dev → Dev) (h0 : Dir z d) (hk : ∀ e, Dir z e → Dir z (k e)) : Dir z (atPage d base k) := by
  unfold atPage
  repeat' first
    | with_reducible assumption
    | with_reducible apply hk
    | exact fun _ => ⟨Eq.refl _, Eq.refl _⟩
    | exact Eq.refl _
    | simp -implicitDefEqProofs only [Dir.lit]
    | split
    | intro _
    | dsimp only
theorem unreachable_dir (d : Dev) (h0 : Dir z d) : Dir z (unreachable d) := by
  unfold unreachable
  repeat' first
    | with_reducible assumption
    | with_reducible apply add_dir
    | simp -implicitDefEqProofs only [Dir.lit, off_pNOC, page_pNOC, ge_pNOC]
    | split
    | intro _
    | dsimp only
theorem viaFence_dir (d : Dev) (fn : Fn) (h : Option Nat) (off : Nat) (write : Bool) (fail k : Dev → Dev) (h0 : Dir z d) (hf : ∀ e, Dir z e → Dir z (fail e)) (hk : ∀ e, Dir z e → Dir z (k e)) : Dir z (viaFence d fn h off write fail k) := by
  unfold viaFence
  repeat' first
    | with_reducible assumption
    | with_reducible apply hf
    | with_reducible apply hk
    | with_reducible apply viaNoc_dir
    | with_reducible apply hostTimeout_dir
    | with_reducible apply accessError_dir
    | with_reducible apply unreachable_dir
    | exact fun _ => ⟨Eq.refl _, Eq.refl _⟩
    | exact Eq.refl _
    | simp -implicitDefEqProofs only [Dir.lit]
    | split
    | intro _
    | dsimp only
theorem atCluster_dir (d : Dev) (fn : Fn) (n a : Nat) (write : Bool) (k : Dev → Dev) (h0 : Dir z d) (hk : ∀ e, Dir z e → Dir z (k e)) : Dir z (atCluster d fn n a write k) := by
  unfold atCluster
  repeat' first
    | with_reducible assumption
    | with_reducible apply hk
    | with_reducible apply complete_dir
    | with_reducible apply viaFence_dir
    | exact fun _ => ⟨Eq.refl _, Eq.refl _⟩
    | exact Eq.refl _
    | simp -implicitDefEqProofs only [Dir.lit]
    | split
    | intro _
    | dsimp only
theorem doWriteBack_dir (d : Dev) (n : Nat) (walu : Bool) (t unit s : Nat) (h0 : Dir z d) : Dir z (doWriteBack d n walu t unit s) := by
  unfold doWriteBack
  repeat' first
    | with_reducible assumption
    | with_reducible apply add_dir
    | with_reducible apply cluIrq_dir
    | with_reducible apply modClu_dir
    | with_reducible apply setBp_dir
    | with_reducible apply setWa_dir
    | simp -implicitDefEqProofs only [Dir.lit, off_pCLU, page_pCLU, ge_pCLU]
    | split
    | intro _
    | dsimp only
theorem doRowWriteBack_dir (d : Dev) (n m row : Nat) (h0 : Dir z d) : Dir z (doRowWriteBack d n m row) := by
  unfold doRowWriteBack
  repeat' first
    | with_reducible assumption
    | with_reducible apply modClu_dir
    | with_reducible apply rowBackDone_dir
    | with_reducible apply setRow_dir
    | simp -implicitDefEqProofs only [Dir.lit]
    | split
    | intro _
    | dsimp only
theorem doBpiClr_dir (d : Dev) (n : Nat) (h0 : Dir z d) : Dir z (doBpiClr d n) := by
  unfold doBpiClr
  repeat' first
    | with_reducible assumption
    | with_reducible apply clr_dir
    | simp -implicitDefEqProofs only [Dir.lit, off_pCLU, page_pCLU, ge_pCLU]
    | split
    | intro _
    | dsimp only
theorem doWliClr_dir (d : Dev) (n : Nat) (h0 : Dir z d) : Dir z (doWliClr d n) := by
  unfold doWliClr
  repeat' first
    | with_reducible assumption
    | with_reducible apply clr_dir
    | simp -implicitDefEqProofs only [Dir.lit, off_pCLU, page_pCLU, ge_pCLU]
    | split
    | intro _
    | dsimp only
theorem doFabClr_dir (d : Dev) (n : Nat) (h0 : Dir z d) : Dir z (doFabClr d n) := by
  unfold doFabClr
  repeat' first
    | with_reducible assumption
    | with_reducible apply clr_dir
    | simp -implicitDefEqProofs only [Dir.lit, off_pCLU, page_pCLU, ge_pCLU]
    | split
    | intro _
    | dsimp only
theorem doDmemClr_dir (d : Dev) (n : Nat) (h0 : Dir z d) : Dir z (doDmemClr d n) := by
  unfold doDmemClr
  repeat' first
    | with_reducible assumption
    | with_reducible apply clr_dir
    | simp -implicitDefEqProofs only [Dir.lit, off_pCLU, page_pCLU, ge_pCLU]
    | split
    | intro _
    | dsimp only
theorem doDmemCfg_dir (d : Dev) (n off v : Nat) (h0 : Dir z d) : Dir z (doDmemCfg d n off v) := by
  unfold doDmemCfg
  repeat' first
    | with_reducible assumption
    | with_reducible apply writeWord_dir
    | simp -implicitDefEqProofs only [Dir.lit, off_pCLU, page_pCLU, ge_pCLU]
    | split
    | intro _
    | dsimp only
theorem doFmpCfg_dir (d : Dev) (n off v : Nat) (h0 : Dir z d) : Dir z (doFmpCfg d n off v) := by
  unfold doFmpCfg
  repeat' first
    | with_reducible assumption
    | with_reducible apply writeWord_dir
    | simp -implicitDefEqProofs only [Dir.lit, off_pCLU, page_pCLU, ge_pCLU]
    | split
    | intro _
    | dsimp only
theorem doTxpCfg_dir (d : Dev) (n off v : Nat) (h0 : Dir z d) : Dir z (doTxpCfg d n off v) := by
  unfold doTxpCfg
  repeat' first
    | with_reducible assumption
    | with_reducible apply releasePort_dir
    | with_reducible apply writeWord_dir
    | simp -implicitDefEqProofs only [Dir.lit, off_pCLU, page_pCLU, ge_pCLU]
    | split
    | intro _
    | dsimp only
theorem farUe_dir (d : Dev) (n f addr : Nat) (h0 : Dir z d) : Dir z (farUe d n f addr) := by
  unfold farUe
  repeat' first
    | with_reducible assumption
    | with_reducible apply add_dir
    | with_reducible apply cluIrq_dir
    | with_reducible apply raiseUpset_dir
    | with_reducible apply recordRow_dir
    | with_reducible apply tick_dir
    | simp -implicitDefEqProofs only [Dir.lit, off_pCLU, page_pCLU, ge_pCLU]
    | split
    | intro _
    | dsimp only
theorem farStatus_dir (d : Dev) (n f addr status : Nat) (h0 : Dir z d) : Dir z (farStatus d n f addr status) := by
  unfold farStatus
  repeat' first
    | with_reducible assumption
    | with_reducible apply farUe_dir
    | simp -implicitDefEqProofs only [Dir.lit]
    | split
    | intro _
    | dsimp only
theorem farHeard_dir (d : Dev) (n f addr status : Nat) (h0 : Dir z d) : Dir z (farHeard d n f addr status) := by
  unfold farHeard
  repeat' first
    | with_reducible assumption
    | with_reducible apply farStatus_dir
    | with_reducible apply iff_dir
    | simp -implicitDefEqProofs only [Dir.lit]
    | split
    | intro _
    | dsimp only
theorem farPerform_dir (d : Dev) (n f : Nat) (a : FarAcc) (h0 : Dir z d) : Dir z (farPerform d n f a).1 := by
  unfold farPerform
  repeat' first
    | with_reducible assumption
    | with_reducible apply farHeard_dir
    | with_reducible apply hbmRead_dir
    | with_reducible apply hbmWrite_dir
    | simp -implicitDefEqProofs only [Dir.lit]
    | split
    | intro _
    | dsimp only
theorem farPrefix_dir (d : Dev) (n f k : Nat) (h0 : Dir z d) : Dir z (farPrefix d n f k) := by
  unfold farPrefix
  repeat' first
    | with_reducible assumption
    | with_reducible apply farPerform_dir
    | with_reducible apply setFar_dir
    | with_reducible apply foldl_dir
    | with_reducible apply fold1_dir
    | simp -implicitDefEqProofs only [Dir.lit]
    | split
    | intro _
    | dsimp only
theorem farFree_dir (d : Dev) (n f k : Nat) (h0 : Dir z d) : Dir z (farFree d n f k) := by
  unfold farFree
  repeat' first
    | with_reducible assumption
    | with_reducible apply freeOutst_dir
    | with_reducible apply setFar_dir
    | simp -implicitDefEqProofs only [Dir.lit]
    | split
    | intro _
    | dsimp only
theorem farEnd_dir (d : Dev) (n f k : Nat) (h0 : Dir z d) : Dir z (farEnd d n f k) := by
  unfold farEnd
  repeat' first
    | with_reducible assumption
    | with_reducible apply farAcked_dir
    | with_reducible apply farFree_dir
    | with_reducible apply setFar_dir
    | simp -implicitDefEqProofs only [Dir.lit]
    | split
    | intro _
    | dsimp only
theorem farComplete_dir (d : Dev) (n f k : Nat) (h0 : Dir z d) : Dir z (farComplete d n f k) := by
  unfold farComplete
  repeat' first
    | with_reducible assumption
    | with_reducible apply farEnd_dir
    | with_reducible apply farPrefix_dir
    | with_reducible apply farReserve_dir
    | with_reducible apply iff_dir
    | simp -implicitDefEqProofs only [Dir.lit]
    | split
    | intro _
    | dsimp only
theorem doFarRead_dir (d : Dev) (n f : Nat) (h0 : Dir z d) : Dir z (doFarRead d n f) := by
  unfold doFarRead
  repeat' first
    | with_reducible assumption
    | with_reducible apply farComplete_dir
    | simp -implicitDefEqProofs only [Dir.lit]
    | split
    | intro _
    | dsimp only
theorem doFarAck_dir (d : Dev) (n f : Nat) (h0 : Dir z d) : Dir z (doFarAck d n f) := by
  unfold doFarAck
  repeat' first
    | with_reducible assumption
    | with_reducible apply farComplete_dir
    | simp -implicitDefEqProofs only [Dir.lit]
    | split
    | intro _
    | dsimp only
theorem farAnswered_dir (d : Dev) (n f k status : Nat) (bs : List Byte) (h0 : Dir z d) : Dir z (farAnswered d n f k status bs) := by
  unfold farAnswered
  repeat' first
    | with_reducible assumption
    | with_reducible apply farEnd_dir
    | with_reducible apply farPrefix_dir
    | with_reducible apply farStatus_dir
    | with_reducible apply setFar_dir
    | simp -implicitDefEqProofs only [Dir.lit]
    | split
    | intro _
    | dsimp only
theorem farTimeout_dir (d : Dev) (n f k : Nat) (h0 : Dir z d) : Dir z (farTimeout d n f k) := by
  unfold farTimeout
  repeat' first
    | with_reducible assumption
    | with_reducible apply farEnd_dir
    | with_reducible apply farPrefix_dir
    | with_reducible apply farStatus_dir
    | with_reducible apply setFar_dir
    | with_reducible apply tick_dir
    | simp -implicitDefEqProofs only [Dir.lit]
    | split
    | intro _
    | dsimp only
theorem landFar_dir (d : Dev) (n : Nat) (sure : Bool) (h0 : Dir z d) : Dir z (landFar d n sure) := by
  unfold landFar
  repeat' first
    | with_reducible assumption
    | with_reducible apply each_dir
    | with_reducible apply farPerform_dir
    | with_reducible apply tick_dir
    | simp -implicitDefEqProofs only [Dir.lit]
    | split
    | intro _
    | dsimp only
theorem farDrain_dir (d : Dev) (n : Nat) (h0 : Dir z d) : Dir z (farDrain d n) := by
  unfold farDrain
  repeat' first
    | with_reducible assumption
    | with_reducible apply each_dir
    | with_reducible apply farPrefix_dir
    | with_reducible apply freeOutst_dir
    | with_reducible apply setFar_dir
    | with_reducible apply settleFences_dir
    | simp -implicitDefEqProofs only [Dir.lit]
    | split
    | intro _
    | dsimp only
theorem doCopyFill_dir (d : Dev) (n x : Nat) (h0 : Dir z d) : Dir z (doCopyFill d n x) := by
  unfold doCopyFill
  repeat' first
    | with_reducible assumption
    | with_reducible apply setQueue_dir
    | simp -implicitDefEqProofs only [Dir.lit]
    | split
    | intro _
    | dsimp only
theorem doCreditRenew_dir (d : Dev) (n x : Nat) (h0 : Dir z d) : Dir z (doCreditRenew d n x) := by
  unfold doCreditRenew
  repeat' first
    | with_reducible assumption
    | with_reducible apply modClu_dir
    | with_reducible apply setQueue_dir
    | simp -implicitDefEqProofs only [Dir.lit, off_pCLU, page_pCLU, ge_pCLU]
    | split
    | intro _
    | dsimp only
theorem classRead_dir (d : Dev) (n c t m o : Nat) (h0 : Dir z d) : Dir z (classRead d n c t m o).1 := by
  unfold classRead
  repeat' first
    | with_reducible assumption
    | with_reducible apply checkMesh_dir
    | with_reducible apply checkPort_dir
    | with_reducible apply fetchBp_dir
    | with_reducible apply fetchWa_dir
    | with_reducible apply readRow_dir
    | simp -implicitDefEqProofs only [Dir.lit, off_pCLU, page_pCLU, ge_pCLU]
    | split
    | intro _
    | dsimp only
theorem rewriteBp_dir (d : Dev) (n k v : Nat) (h0 : Dir z d) : Dir z (rewriteBp d n k v) := by
  unfold rewriteBp
  repeat' first
    | with_reducible assumption
    | with_reducible apply modClu_dir
    | with_reducible apply setBp_dir
    | simp -implicitDefEqProofs only [Dir.lit]
    | split
    | intro _
    | dsimp only
theorem rewriteWa_dir (d : Dev) (n k v : Nat) (h0 : Dir z d) : Dir z (rewriteWa d n k v) := by
  unfold rewriteWa
  repeat' first
    | with_reducible assumption
    | with_reducible apply modClu_dir
    | with_reducible apply setWa_dir
    | simp -implicitDefEqProofs only [Dir.lit]
    | split
    | intro _
    | dsimp only
theorem rewriteRow_dir (d : Dev) (n k v : Nat) (h0 : Dir z d) : Dir z (rewriteRow d n k v) := by
  unfold rewriteRow
  repeat' first
    | with_reducible assumption
    | with_reducible apply modClu_dir
    | with_reducible apply setRow_dir
    | simp -implicitDefEqProofs only [Dir.lit]
    | split
    | intro _
    | dsimp only
theorem classWrite_dir (d : Dev) (n c t m o v : Nat) (h0 : Dir z d) : Dir z (classWrite d n c t m o v) := by
  unfold classWrite
  repeat' first
    | with_reducible assumption
    | with_reducible apply each_dir
    | with_reducible apply rewriteBp_dir
    | with_reducible apply rewriteRow_dir
    | with_reducible apply rewriteWa_dir
    | with_reducible apply setMesh_dir
    | with_reducible apply setPort_dir
    | with_reducible apply setSt_dir
    | simp -implicitDefEqProofs only [Dir.lit]
    | split
    | intro _
    | dsimp only
theorem winWake_dir (d : Dev) (n c : Nat) (h0 : Dir z d) : Dir z (winWake d n c) := by
  unfold winWake
  repeat' first
    | with_reducible assumption
    | with_reducible apply wake_dir
    | simp -implicitDefEqProofs only [Dir.lit]
    | split
    | intro _
    | dsimp only
theorem winRead_dir (d : Dev) (n w off : Nat) (h0 : Dir z d) : Dir z (winRead d n w off).1 := by
  unfold winRead
  repeat' first
    | with_reducible assumption
    | with_reducible apply classRead_dir
    | with_reducible apply on_dir
    | with_reducible apply winWake_dir
    | simp -implicitDefEqProofs only [Dir.lit, off_pWIN, page_pWIN, ge_pWIN]
    | split
    | intro _
    | dsimp only
theorem doWindowRead_dir (d : Dev) (fn : Fn) (n w off : Nat) (h0 : Dir z d) : Dir z (doWindowRead d fn n w off) := by
  unfold doWindowRead
  repeat' first
    | with_reducible assumption
    | with_reducible apply atCluster_dir
    | with_reducible apply reply_dir
    | with_reducible apply winRead_dir
    | simp -implicitDefEqProofs only [Dir.lit, off_pWIN, page_pWIN, ge_pWIN]
    | split
    | intro _
    | dsimp only
theorem winWrite_dir (d : Dev) (n w off v : Nat) (h0 : Dir z d) : Dir z (winWrite d n w off v) := by
  unfold winWrite
  repeat' first
    | with_reducible assumption
    | with_reducible apply classWrite_dir
    | with_reducible apply on_dir
    | with_reducible apply winWake_dir
    | simp -implicitDefEqProofs only [Dir.lit, off_pPTN, page_pPTN, ge_pPTN, off_pWIN, page_pWIN, ge_pWIN]
    | split
    | intro _
    | dsimp only
theorem doWindowWrite_dir (d : Dev) (fn : Fn) (n w off v : Nat) (h0 : Dir z d) : Dir z (doWindowWrite d fn n w off v) := by
  unfold doWindowWrite
  repeat' first
    | with_reducible assumption
    | with_reducible apply atCluster_dir
    | with_reducible apply winWrite_dir
    | simp -implicitDefEqProofs only [Dir.lit, off_pWIN, page_pWIN, ge_pWIN]
    | split
    | intro _
    | dsimp only
theorem doWindowTimeout_dir (d : Dev) (fn : Fn) (n w off : Nat) (h0 : Dir z d) : Dir z (doWindowTimeout d fn n w off) := by
  unfold doWindowTimeout
  repeat' first
    | with_reducible assumption
    | with_reducible apply atCluster_dir
    | with_reducible apply on_dir
    | with_reducible apply reply_dir
    | simp -implicitDefEqProofs only [Dir.lit, off_pWIN, page_pWIN, ge_pWIN]
    | split
    | intro _
    | dsimp only
theorem clearMemories_dir (d : Dev) (n : Nat) (h0 : Dir z d) : Dir z (clearMemories d n) := by
  unfold clearMemories
  repeat' first
    | with_reducible assumption
    | simp -implicitDefEqProofs only [Dir.lit]
    | split
    | intro _
    | dsimp only
theorem saveRows_dir (d : Dev) (n m : Nat) (h0 : Dir z d) : Dir z (saveRows d n m).1 := by
  unfold saveRows
  repeat' first
    | with_reducible assumption
    | with_reducible apply each_dir
    | with_reducible apply readRow_dir
    | simp -implicitDefEqProofs only [Dir.lit]
    | split
    | intro _
    | dsimp only
theorem saveBlocks_dir (d : Dev) (n : Nat) (h0 : Dir z d) : Dir z (saveBlocks d n).1 := by
  unfold saveBlocks
  repeat' first
    | with_reducible assumption
    | with_reducible apply saveRows_dir
    | with_reducible apply foldl_dir
    | with_reducible apply fold1_dir
    | simp -implicitDefEqProofs only [Dir.lit]
    | split
    | intro _
    | dsimp only
theorem saveSection_dir (d : Dev) (n : Nat) (h0 : Dir z d) : Dir z (saveSection d n).1 := by
  have h := saveBlocks_dir d n h0
  have e : saveSection d n = ((d.saveBlocks n).1, sectionBytes (d.sectionFront n) (d.saveBlocks n).2) := by unfold saveSection; rfl
  rw [e]
  generalize saveBlocks d n = r at h ⊢
  exact h
theorem snapPut_dir (d : Dev) (i a : Nat) (bs : List Byte) (h0 : Dir z d) : Dir z (snapPut d i a bs) := by
  unfold snapPut
  repeat' first
    | with_reducible assumption
    | with_reducible apply hbmPut_dir
    | simp -implicitDefEqProofs only [Dir.lit]
    | split
    | intro _
    | dsimp only
theorem snapGet_dir (d : Dev) (i a n : Nat) (h0 : Dir z d) : Dir z (snapGet d i a n).1 := by
  unfold snapGet
  repeat' first
    | with_reducible assumption
    | with_reducible apply hbmGet_dir
    | simp -implicitDefEqProofs only [Dir.lit]
    | split
    | intro _
    | dsimp only
theorem cutPut_dir (d : Dev) (i a : Nat) (bs : List Byte) (h0 : Dir z d) : Dir z (cutPut d i a bs) := by
  unfold cutPut
  repeat' first
    | with_reducible assumption
    | with_reducible apply each_dir
    | with_reducible apply iff_dir
    | with_reducible apply snapPut_dir
    | with_reducible apply tick_dir
    | simp -implicitDefEqProofs only [Dir.lit]
    | split
    | intro _
    | dsimp only
theorem copyRegions_dir (d : Dev) (i : Nat) (out cut : Bool) (h0 : Dir z d) : Dir z (copyRegions d i out cut) := by
  unfold copyRegions
  repeat' first
    | with_reducible assumption
    | with_reducible apply cutPut_dir
    | with_reducible apply snapGet_dir
    | with_reducible apply snapPut_dir
    | with_reducible apply foldl_dir
    | with_reducible apply fold1_dir
    | simp -implicitDefEqProofs only [Dir.lit]
    | split
    | intro _
    | dsimp only
theorem snapEnd_dir (d : Dev) (i result : Nat) (h0 : Dir z d) : Dir z (snapEnd d i result) := by
  unfold snapEnd
  repeat' first
    | with_reducible assumption
    | with_reducible apply irq_dir
    | with_reducible apply mntFree_dir
    | with_reducible apply modPtn_dir
    | with_reducible apply on_dir
    | with_reducible apply p_dir
    | exact fun _ => ⟨Eq.refl _, Eq.refl _⟩
    | exact ⟨trivial, trivial⟩
    | simp -implicitDefEqProofs only [Dir.lit, off_pPTN, page_pPTN, ge_pPTN]
    | split
    | intro _
    | dsimp only
theorem snapBegin_dir (d : Dev) (i st : Nat) (h0 : Dir z d) : Dir z (snapBegin d i st) := by
  unfold snapBegin
  repeat' first
    | with_reducible assumption
    | with_reducible apply mntRequest_dir
    | with_reducible apply p_dir
    | with_reducible apply snapEnd_dir
    | with_reducible apply wakeAll_dir
    | simp -implicitDefEqProofs only [Dir.lit, off_pPTN, page_pPTN, ge_pPTN]
    | split
    | intro _
    | dsimp only
theorem startSave_dir (d : Dev) (i : Nat) (h0 : Dir z d) : Dir z (startSave d i) := by
  unfold startSave
  repeat' first
    | with_reducible assumption
    | with_reducible apply snapBegin_dir
    | with_reducible apply snapEnd_dir
    | with_reducible apply snapPut_dir
    | simp -implicitDefEqProofs only [Dir.lit, off_pPTN, page_pPTN, ge_pPTN]
    | split
    | intro _
    | dsimp only
theorem doSnapSave_dir (d : Dev) (i : Nat) (h0 : Dir z d) : Dir z (doSnapSave d i) := by
  unfold doSnapSave
  repeat' first
    | with_reducible assumption
    | with_reducible apply p_dir
    | with_reducible apply startSave_dir
    | simp -implicitDefEqProofs only [Dir.lit, off_pPTN, page_pPTN, ge_pPTN]
    | split
    | intro _
    | dsimp only
theorem saveSections_dir (d : Dev) (i : Nat) (h0 : Dir z d) : Dir z (saveSections d i) := by
  unfold saveSections
  repeat' first
    | with_reducible assumption
    | with_reducible apply saveSection_dir
    | with_reducible apply snapPut_dir
    | with_reducible apply foldl_dir
    | with_reducible apply fold1_dir
    | simp -implicitDefEqProofs only [Dir.lit]
    | split
    | intro _
    | dsimp only
theorem doSnapSaveComplete_dir (d : Dev) (i : Nat) (h0 : Dir z d) : Dir z (doSnapSaveComplete d i) := by
  unfold doSnapSaveComplete
  repeat' first
    | with_reducible assumption
    | with_reducible apply copyRegions_dir
    | with_reducible apply p_dir
    | with_reducible apply saveSections_dir
    | with_reducible apply snapEnd_dir
    | with_reducible apply snapPut_dir
    | simp -implicitDefEqProofs only [Dir.lit, off_pPTN, page_pPTN, ge_pPTN]
    | split
    | intro _
    | dsimp only
theorem doSnapRestore_dir (d : Dev) (i : Nat) (h0 : Dir z d) : Dir z (doSnapRestore d i) := by
  unfold doSnapRestore
  repeat' first
    | with_reducible assumption
    | with_reducible apply p_dir
    | with_reducible apply snapBegin_dir
    | with_reducible apply snapEnd_dir
    | simp -implicitDefEqProofs only [Dir.lit, off_pPTN, page_pPTN, ge_pPTN]
    | split
    | intro _
    | dsimp only
theorem checkSections_dir (d : Dev) (i : Nat) (h0 : Dir z d) : Dir z (checkSections d i).1 := by
  have h (n : Nat) (a : Nat → Nat) (ks : List Nat) (x : Dev × Bool) (hx : Dir z x.1) :
      Dir z (ks.foldl (fun x k => let y := x.1.snapGet i (a k) n; (y.1, x.2 && sectionOk y.2)) x).1 := by
    induction ks generalizing x with
    | nil => exact hx
    | cons k ks ih =>
      rw [List.foldl_cons]
      exact ih _ (snapGet_dir x.1 i (a k) n hx)
  unfold checkSections
  exact h snapSection (fun k => d.sectionAt i k) _ _ h0
theorem snapCheck_dir (d : Dev) (i : Nat) (ids : List Nat) (shape : Bool) (h0 : Dir z d) : Dir z (snapCheck d i ids shape).1 := by
  unfold snapCheck
  repeat' first
    | with_reducible assumption
    | with_reducible apply checkSections_dir
    | with_reducible apply snapGet_dir
    | simp -implicitDefEqProofs only [Dir.lit, off_pPTN, page_pPTN, ge_pPTN]
    | split
    | intro _
    | dsimp only
theorem doSnapCheckComplete_dir (d : Dev) (i : Nat) (h0 : Dir z d) : Dir z (doSnapCheckComplete d i) := by
  unfold doSnapCheckComplete
  repeat' first
    | with_reducible assumption
    | with_reducible apply p_dir
    | with_reducible apply snapCheck_dir
    | with_reducible apply snapEnd_dir
    | simp -implicitDefEqProofs only [Dir.lit, off_pPTN, page_pPTN, ge_pPTN]
    | split
    | intro _
    | dsimp only
theorem loadFar_dir (d : Dev) (n : Nat) (bs : List Byte) (h0 : Dir z d) : Dir z (loadFar d n bs) := by
  unfold loadFar
  repeat' first
    | with_reducible assumption
    | with_reducible apply each_dir
    | with_reducible apply farDrain_dir
    | with_reducible apply setFar_dir
    | simp -implicitDefEqProofs only [Dir.lit]
    | split
    | intro _
    | dsimp only
theorem loadBlock_dir (d : Dev) (n : Nat) (bs : List Byte) (m : Nat) (h0 : Dir z d) : Dir z (loadBlock d n bs m) := by
  unfold loadBlock
  repeat' first
    | with_reducible assumption
    | with_reducible apply each_dir
    | with_reducible apply rewriteRow_dir
    | simp -implicitDefEqProofs only [Dir.lit]
    | split
    | intro _
    | dsimp only
theorem loadSection_dir (d : Dev) (n : Nat) (bs : List Byte) (h0 : Dir z d) : Dir z (loadSection d n bs) := by
  unfold loadSection
  repeat' first
    | with_reducible assumption
    | with_reducible apply each_dir
    | with_reducible apply loadBlock_dir
    | with_reducible apply loadFar_dir
    | with_reducible apply setSt_dir
    | simp -implicitDefEqProofs only [Dir.lit]
    | split
    | intro _
    | dsimp only
theorem restoreSection_dir (d : Dev) (i k n : Nat) (h0 : Dir z d) : Dir z (restoreSection d i k n) := by
  unfold restoreSection
  repeat' first
    | with_reducible assumption
    | with_reducible apply loadSection_dir
    | with_reducible apply snapGet_dir
    | simp -implicitDefEqProofs only [Dir.lit]
    | split
    | intro _
    | dsimp only
theorem loadSnapshot_dir (d : Dev) (i : Nat) (h0 : Dir z d) : Dir z (loadSnapshot d i) := by
  unfold loadSnapshot
  repeat' first
    | with_reducible assumption
    | with_reducible apply copyRegions_dir
    | with_reducible apply forgetSigs_dir
    | with_reducible apply forgetSteps_dir
    | with_reducible apply modPtn_dir
    | with_reducible apply p_dir
    | with_reducible apply restoreSection_dir
    | with_reducible apply setSt_dir
    | with_reducible apply snapGet_dir
    | with_reducible apply tick_dir
    | with_reducible apply foldl_dir
    | with_reducible apply fold1_dir
    | exact fun _ => ⟨Eq.refl _, Eq.refl _⟩
    | exact ⟨trivial, trivial⟩
    | simp -implicitDefEqProofs only [Dir.lit, off_pPTN, page_pPTN, ge_pPTN]
    | split
    | intro _
    | dsimp only
theorem doSnapRestoreComplete_dir (d : Dev) (i : Nat) (h0 : Dir z d) : Dir z (doSnapRestoreComplete d i) := by
  unfold doSnapRestoreComplete
  repeat' first
    | with_reducible assumption
    | with_reducible apply frozenIrq_dir
    | with_reducible apply loadSnapshot_dir
    | with_reducible apply modPtn_dir
    | with_reducible apply p_dir
    | with_reducible apply snapEnd_dir
    | exact fun _ => ⟨Eq.refl _, Eq.refl _⟩
    | exact ⟨trivial, trivial⟩
    | simp -implicitDefEqProofs only [Dir.lit, off_DEV_DIR_RESTORE_DUE, page_pDEV, off_pPTN, page_pPTN, ge_pPTN]
    | split
    | intro _
    | dsimp only
theorem cutSave_dir (d : Dev) (i : Nat) (h0 : Dir z d) : Dir z (cutSave d i) := by
  unfold cutSave
  repeat' first
    | with_reducible assumption
    | with_reducible apply copyRegions_dir
    | with_reducible apply cutPut_dir
    | with_reducible apply iff_dir
    | with_reducible apply saveSection_dir
    | with_reducible apply foldl_dir
    | with_reducible apply fold1_dir
    | simp -implicitDefEqProofs only [Dir.lit, off_pPTN, page_pPTN, ge_pPTN]
    | split
    | intro _
    | dsimp only
theorem scrambleRows_dir (d : Dev) (n gen : Nat) (h0 : Dir z d) : Dir z (scrambleRows d n gen) := by
  unfold scrambleRows
  repeat' first
    | with_reducible assumption
    | with_reducible apply each_dir
    | with_reducible apply rewriteRow_dir
    | simp -implicitDefEqProofs only [Dir.lit]
    | split
    | intro _
    | dsimp only
theorem scrambleTiles_dir (d : Dev) (n : Nat) (h0 : Dir z d) : Dir z (scrambleTiles d n) := by
  unfold scrambleTiles
  repeat' first
    | with_reducible assumption
    | with_reducible apply setSt_dir
    | with_reducible apply tick_dir
    | simp -implicitDefEqProofs only [Dir.lit]
    | split
    | intro _
    | dsimp only
theorem scrambleCluster_dir (d : Dev) (n : Nat) (h0 : Dir z d) : Dir z (scrambleCluster d n) := by
  unfold scrambleCluster
  repeat' first
    | with_reducible assumption
    | with_reducible apply scrambleRows_dir
    | with_reducible apply scrambleTiles_dir
    | simp -implicitDefEqProofs only [Dir.lit]
    | split
    | intro _
    | dsimp only
theorem scrambleFar_dir (d : Dev) (n : Nat) (h0 : Dir z d) : Dir z (scrambleFar d n) := by
  unfold scrambleFar
  repeat' first
    | with_reducible assumption
    | with_reducible apply each_dir
    | with_reducible apply farDrain_dir
    | with_reducible apply setFar_dir
    | with_reducible apply tick_dir
    | simp -implicitDefEqProofs only [Dir.lit]
    | split
    | intro _
    | dsimp only
theorem scrambleState_dir (d : Dev) (i : Nat) (far : Bool) (h0 : Dir z d) : Dir z (scrambleState d i far) := by
  unfold scrambleState
  repeat' first
    | with_reducible assumption
    | with_reducible apply each_dir
    | with_reducible apply modPtn_dir
    | with_reducible apply p_dir
    | with_reducible apply scrambleCluster_dir
    | with_reducible apply scrambleFar_dir
    | with_reducible apply snapPut_dir
    | with_reducible apply tick_dir
    | exact fun _ => ⟨Eq.refl _, Eq.refl _⟩
    | exact ⟨trivial, trivial⟩
    | simp -implicitDefEqProofs only [Dir.lit, off_pPTN, page_pPTN, ge_pPTN]
    | split
    | intro _
    | dsimp only
theorem doFreezeSettled_dir (d : Dev) (i : Nat) (h0 : Dir z d) : Dir z (doFreezeSettled d i) := by
  unfold doFreezeSettled
  repeat' first
    | with_reducible assumption
    | with_reducible apply doSnapSave_dir
    | with_reducible apply frozenIrq_dir
    | with_reducible apply modPtn_dir
    | with_reducible apply p_dir
    | with_reducible apply setSt_dir
    | with_reducible apply tick_dir
    | with_reducible apply foldl_dir
    | with_reducible apply fold1_dir
    | exact fun _ => ⟨Eq.refl _, Eq.refl _⟩
    | exact ⟨trivial, trivial⟩
    | simp -implicitDefEqProofs only [Dir.lit, off_pPTN, page_pPTN, ge_pPTN]
    | split
    | intro _
    | dsimp only
theorem bar4Error_dir (d : Dev) (fn : Fn) (off : Nat) (write : Bool) (h0 : Dir z d) : Dir z (bar4Error d fn off write) := by
  unfold bar4Error
  repeat' first
    | with_reducible assumption
    | with_reducible apply accessError_dir
    | with_reducible apply emit_dir
    | simp -implicitDefEqProofs only [Dir.lit]
    | split
    | intro _
    | dsimp only
theorem atSlot_dir (d : Dev) (fn : Fn) (slot off : Nat) (k : Dev → Nat → Dev) (h0 : Dir z d) (hk : ∀ e q, Dir z e → Dir z (k e q)) : Dir z (atSlot d fn slot off k) := by
  unfold atSlot
  repeat' first
    | with_reducible assumption
    | with_reducible apply hk
    | with_reducible apply viaNoc_dir
    | with_reducible apply bar4Error_dir
    | with_reducible apply id_dir
    | exact fun _ => ⟨Eq.refl _, Eq.refl _⟩
    | exact Eq.refl _
    | simp -implicitDefEqProofs only [Dir.lit]
    | split
    | intro _
    | dsimp only
theorem doDoorbell_dir (d : Dev) (fn : Fn) (slot : Nat) (fin fence : Bool) (w : W64) (h0 : Dir z d) : Dir z (doDoorbell d fn slot fin fence w) := by
  unfold doDoorbell
  repeat' first
    | with_reducible assumption
    | with_reducible apply append_dir
    | with_reducible apply atSlot_dir
    | simp -implicitDefEqProofs only [Dir.lit]
    | split
    | intro _
    | dsimp only
theorem doDoorbellMulti_dir (d : Dev) (fn : Fn) (slot : Nat) (ws : List W64) (h0 : Dir z d) : Dir z (doDoorbellMulti d fn slot ws) := by
  unfold doDoorbellMulti
  repeat' first
    | with_reducible assumption
    | with_reducible apply appendAll_dir
    | with_reducible apply atSlot_dir
    | with_reducible apply bar4Error_dir
    | with_reducible apply dropWrite_dir
    | with_reducible apply notifyKinds_dir
    | simp -implicitDefEqProofs only [Dir.lit]
    | split
    | intro _
    | dsimp only
theorem doPop_dir (d : Dev) (fn : Fn) (slot : Nat) (h0 : Dir z d) : Dir z (doPop d fn slot) := by
  unfold doPop
  repeat' first
    | with_reducible assumption
    | with_reducible apply bar4Error_dir
    | with_reducible apply completePop_dir
    | with_reducible apply emit_dir
    | with_reducible apply emptyPop_dir
    | with_reducible apply markBound_dir
    | with_reducible apply modQueue_dir
    | with_reducible apply viaNoc_dir
    | simp -implicitDefEqProofs only [Dir.lit]
    | split
    | intro _
    | dsimp only
theorem doPopWaitExpire_dir (d : Dev) (fn : Fn) (slot : Nat) (h0 : Dir z d) : Dir z (doPopWaitExpire d fn slot) := by
  unfold doPopWaitExpire
  repeat' first
    | with_reducible assumption
    | with_reducible apply emptyPop_dir
    | with_reducible apply setQueue_dir
    | simp -implicitDefEqProofs only [Dir.lit]
    | split
    | intro _
    | dsimp only
theorem doBar4Error_dir (d : Dev) (fn : Fn) (off : Nat) (write : Bool) (h0 : Dir z d) : Dir z (doBar4Error d fn off write) := by
  unfold doBar4Error
  repeat' first
    | with_reducible assumption
    | with_reducible apply bar4Error_dir
    | simp -implicitDefEqProofs only [Dir.lit]
    | split
    | intro _
    | dsimp only
theorem doQwrExpire_dir (d : Dev) (q : Nat) (h0 : Dir z d) : Dir z (doQwrExpire d q) := by
  unfold doQwrExpire
  repeat' first
    | with_reducible assumption
    | with_reducible apply respond_dir
    | with_reducible apply setQueue_dir
    | simp -implicitDefEqProofs only [Dir.lit]
    | split
    | intro _
    | dsimp only
theorem doQrdExpire_dir (d : Dev) (q : Nat) (h0 : Dir z d) : Dir z (doQrdExpire d q) := by
  unfold doQrdExpire
  repeat' first
    | with_reducible assumption
    | with_reducible apply respond_dir
    | with_reducible apply setQueue_dir
    | simp -implicitDefEqProofs only [Dir.lit]
    | split
    | intro _
    | dsimp only
theorem queueCmd_dir (d : Dev) (q cmd : Nat) (h0 : Dir z d) : Dir z (queueCmd d q cmd) := by
  unfold queueCmd
  repeat' first
    | with_reducible assumption
    | with_reducible apply dropHeadOf_dir
    | with_reducible apply flushQueue_dir
    | with_reducible apply modQueue_dir
    | simp -implicitDefEqProofs only [Dir.lit]
    | split
    | intro _
    | dsimp only
theorem writeQcfg_dir (d : Dev) (q v : Nat) (h0 : Dir z d) : Dir z (writeQcfg d q v) := by
  unfold writeQcfg
  repeat' first
    | with_reducible assumption
    | with_reducible apply disableQueue_dir
    | with_reducible apply enableQueue_dir
    | with_reducible apply modQueue_dir
    | simp -implicitDefEqProofs only [Dir.lit]
    | split
    | intro _
    | dsimp only
theorem setQueueEn_dir (d : Dev) (q : Nat) (en : Bool) (h0 : Dir z d) : Dir z (setQueueEn d q en) := by
  unfold setQueueEn
  repeat' first
    | with_reducible assumption
    | with_reducible apply disableQueue_dir
    | with_reducible apply enableQueue_dir
    | simp -implicitDefEqProofs only [Dir.lit]
    | split
    | intro _
    | dsimp only
theorem clearQflags_dir (d : Dev) (q v : Nat) (h0 : Dir z d) : Dir z (clearQflags d q v) := by
  unfold clearQflags
  repeat' first
    | with_reducible assumption
    | with_reducible apply modQueue_dir
    | simp -implicitDefEqProofs only [Dir.lit]
    | split
    | intro _
    | dsimp only
theorem atQueue_dir (d : Dev) (fn : Fn) (q : Nat) (k : Dev → Nat → Dev) (h0 : Dir z d) (hk : ∀ e q, Dir z e → Dir z (k e q)) : Dir z (atQueue d fn q k) := by
  unfold atQueue
  repeat' first
    | with_reducible assumption
    | with_reducible apply hk
    | exact fun _ => ⟨Eq.refl _, Eq.refl _⟩
    | exact Eq.refl _
    | simp -implicitDefEqProofs only [Dir.lit]
    | split
    | intro _
    | dsimp only
theorem putList_dir (d : Dev) (l : Nat) (ws : List Work) (h0 : Dir z d) : Dir z (putList d l ws) := by
  unfold putList
  repeat' first
    | with_reducible assumption
    | with_reducible apply p_dir
    | with_reducible apply setList_dir
    | simp -implicitDefEqProofs only [Dir.lit, off_pDSP, page_pDSP, ge_pDSP, off_pPTN, page_pPTN, ge_pPTN]
    | split
    | intro _
    | dsimp only
theorem refuseItem_dir (d : Dev) (l : Nat) (h0 : Dir z d) : Dir z (refuseItem d l) := by
  unfold refuseItem
  repeat' first
    | with_reducible assumption
    | with_reducible apply add_dir
    | with_reducible apply irq_dir
    | with_reducible apply raise_dir
    | simp -implicitDefEqProofs only [Dir.lit, off_pDSP, page_pDSP, ge_pDSP]
    | split
    | intro _
    | dsimp only
theorem judgeItem_dir (d : Dev) (w : Work) (h0 : Dir z d) : Dir z (judgeItem d w).1 := by
  unfold judgeItem
  repeat' first
    | with_reducible assumption
    | with_reducible apply putList_dir
    | with_reducible apply refuseItem_dir
    | simp -implicitDefEqProofs only [Dir.lit]
    | split
    | intro _
    | dsimp only
theorem placeItem_dir (d : Dev) (fn : Fn) (w : Work) (h0 : Dir z d) : Dir z (placeItem d fn w) := by
  unfold placeItem
  repeat' first
    | with_reducible assumption
    | with_reducible apply judgeItem_dir
    | with_reducible apply reply_dir
    | simp -implicitDefEqProofs only [Dir.lit]
    | split
    | intro _
    | dsimp only
theorem placeHeld_dir (d : Dev) (h : Work × Fn) (h0 : Dir z d) : Dir z (placeHeld d h) := by
  unfold placeHeld
  repeat' first
    | with_reducible assumption
    | with_reducible apply answerAt_dir
    | with_reducible apply completeHeld_dir
    | with_reducible apply judgeItem_dir
    | simp -implicitDefEqProofs only [Dir.lit]
    | split
    | intro _
    | dsimp only
theorem placeAllHeld_dir (d : Dev) (l : Nat) (h0 : Dir z d) : Dir z (placeAllHeld d l) := by
  unfold placeAllHeld
  repeat' first
    | with_reducible assumption
    | with_reducible apply each_dir
    | with_reducible apply placeHeld_dir
    | simp -implicitDefEqProofs only [Dir.lit]
    | split
    | intro _
    | dsimp only
theorem submitList_dir (d : Dev) (fn : Fn) (l : Nat) (h0 : Dir z d) : Dir z (submitList d fn l) := by
  unfold submitList
  repeat' first
    | with_reducible assumption
    | with_reducible apply placeItem_dir
    | simp -implicitDefEqProofs only [Dir.lit]
    | split
    | intro _
    | dsimp only
theorem doSubmit_dir (d : Dev) (fn : Fn) (h0 : Dir z d) : Dir z (doSubmit d fn) := by
  unfold doSubmit
  repeat' first
    | with_reducible assumption
    | with_reducible apply complete_dir
    | with_reducible apply submitList_dir
    | with_reducible apply viaNoc_dir
    | simp -implicitDefEqProofs only [Dir.lit]
    | split
    | intro _
    | dsimp only
theorem serveSubmits_dir (m : Nat) (d : Dev) (l : Nat) (h0 : Dir z d) : Dir z (serveSubmits m d l) := by
  induction m generalizing d with
  | zero => exact h0
  | succ m ih =>
    unfold serveSubmits
    repeat' first
      | with_reducible assumption
      | with_reducible apply ih
      | with_reducible apply placeHeld_dir
      | exact fun _ => ⟨Eq.refl _, Eq.refl _⟩
      | exact Eq.refl _
      | simp -implicitDefEqProofs only [Dir.lit]
      | split
      | intro _
      | dsimp only
theorem wakeSubmits_dir (d : Dev) (l : Nat) (h0 : Dir z d) : Dir z (wakeSubmits d l) := by
  unfold wakeSubmits
  repeat' first
    | with_reducible assumption
    | with_reducible apply serveSubmits_dir
    | simp -implicitDefEqProofs only [Dir.lit]
    | split
    | intro _
    | dsimp only
theorem doSubmitExpire_dir (d : Dev) (l : Nat) (h0 : Dir z d) : Dir z (doSubmitExpire d l) := by
  unfold doSubmitExpire
  repeat' first
    | with_reducible assumption
    | with_reducible apply placeHeld_dir
    | with_reducible apply wakeSubmits_dir
    | simp -implicitDefEqProofs only [Dir.lit]
    | split
    | intro _
    | dsimp only
theorem takeItem_dir {d : Dev} {w : Work} {e : Dev} (h : d.takeItem = some (w, e)) (h0 : Dir z d) : Dir z e := by
  unfold takeItem at h; dsimp only at h; split at h
  · cases h
  · split at h
    · cases h
    · simp only [Option.some.injEq, Prod.mk.injEq] at h; rw [← h.2]; refine wakeSubmits_dir _ _ ?_; simp -implicitDefEqProofs only [Dir.lit]; exact putList_dir _ _ _ h0
theorem takePacket_dir {d : Dev} {q : Nat} {w : List QWord} {e : Dev} (h : d.takePacket q = some (w, e)) (h0 : Dir z d) : Dir z e := by
  unfold takePacket at h; dsimp only at h; split at h
  · cases h
  · simp only [Option.some.injEq, Prod.mk.injEq] at h; rw [← h.2]; exact each_dir _ _ _ (setQueue_dir _ _ _ h0) fun e a he => offerQueue_dir e _ _ _ he
theorem putPacket_dir (d : Dev) (c q : Nat) (ws : List QWord) (h0 : Dir z d) : Dir z (putPacket d c q ws) := by
  unfold putPacket
  repeat' first
    | with_reducible assumption
    | with_reducible apply append_dir
    | with_reducible apply each_dir
    | simp -implicitDefEqProofs only [Dir.lit]
    | split
    | intro _
    | dsimp only
theorem runQ2H_dir (m : Nat) (d : Dev) (w : Work) (q used : Nat) (x : Courier) (h0 : Dir z d) : Dir z (runQ2H m d w q used x).1 := by
  induction m generalizing d used x with
  | zero => exact h0
  | succ m ih =>
    unfold runQ2H
    repeat' first
      | with_reducible assumption
      | with_reducible apply ih
      | with_reducible refine takePacket_dir (by assumption) ?_
      | with_reducible apply emit_dir
      | exact fun _ => ⟨Eq.refl _, Eq.refl _⟩
      | exact Eq.refl _
      | simp -implicitDefEqProofs only [Dir.lit]
      | split
      | intro _
      | dsimp only
theorem runH2Q_dir (m : Nat) (d : Dev) (c : Nat) (w : Work) (q : Nat) (x : Courier) (h0 : Dir z d) : Dir z (runH2Q m d c w q x).1 := by
  induction m generalizing d x with
  | zero => exact h0
  | succ m ih =>
    unfold runH2Q
    repeat' first
      | with_reducible assumption
      | with_reducible apply ih
      | with_reducible apply putPacket_dir
      | exact fun _ => ⟨Eq.refl _, Eq.refl _⟩
      | exact Eq.refl _
      | simp -implicitDefEqProofs only [Dir.lit]
      | split
      | intro _
      | dsimp only
theorem runQ2Q_dir (m : Nat) (d : Dev) (c : Nat) (w : Work) (q q2 : Nat) (x : Courier) (h0 : Dir z d) : Dir z (runQ2Q m d c w q q2 x).1 := by
  induction m generalizing d x with
  | zero => exact h0
  | succ m ih =>
    unfold runQ2Q
    repeat' first
      | with_reducible assumption
      | with_reducible apply ih
      | with_reducible refine takePacket_dir (by assumption) ?_
      | with_reducible apply putPacket_dir
      | exact fun _ => ⟨Eq.refl _, Eq.refl _⟩
      | exact Eq.refl _
      | simp -implicitDefEqProofs only [Dir.lit]
      | split
      | intro _
      | dsimp only
theorem runCopy_dir (m : Nat) (d : Dev) (c : Nat) (w : Work) (k : Nat) (x : Courier) (h0 : Dir z d) : Dir z (runCopy m d c w k x).1 := by
  induction m generalizing d k x with
  | zero => exact h0
  | succ m ih =>
    unfold runCopy
    repeat' first
      | with_reducible assumption
      | with_reducible apply ih
      | with_reducible apply emit_dir
      | with_reducible apply hbmFetch_dir
      | with_reducible apply hbmSend_dir
      | exact fun _ => ⟨Eq.refl _, Eq.refl _⟩
      | exact Eq.refl _
      | simp -implicitDefEqProofs only [Dir.lit]
      | split
      | intro _
      | dsimp only
theorem runItem_dir (d : Dev) (c : Nat) (w : Work) (x : Courier) (h0 : Dir z d) : Dir z (runItem d c w x).1 := by
  unfold runItem
  repeat' first
    | with_reducible assumption
    | with_reducible apply markBound_dir
    | with_reducible apply runCopy_dir
    | with_reducible apply runH2Q_dir
    | with_reducible apply runQ2H_dir
    | with_reducible apply runQ2Q_dir
    | simp -implicitDefEqProofs only [Dir.lit]
    | split
    | intro _
    | dsimp only
theorem keepItem_dir (d : Dev) (c : Nat) (r : Courier × Bool) (was : Nat) (h0 : Dir z d) : Dir z (keepItem d c r was) := by
  unfold keepItem
  repeat' first
    | with_reducible assumption
    | with_reducible apply add_dir
    | with_reducible apply p_dir
    | with_reducible apply setCourier_dir
    | simp -implicitDefEqProofs only [Dir.lit, off_pCRR, page_pCRR, ge_pCRR]
    | split
    | intro _
    | dsimp only
theorem startItem_dir (d : Dev) (c : Nat) (w : Work) (data : List Byte) (h0 : Dir z d) : Dir z (startItem d c w data) := by
  unfold startItem
  repeat' first
    | with_reducible assumption
    | with_reducible apply add_dir
    | with_reducible apply keepItem_dir
    | with_reducible apply p_dir
    | with_reducible apply runItem_dir
    | simp -implicitDefEqProofs only [Dir.lit, off_pCRR, page_pCRR, ge_pCRR, off_pHIST, page_pHIST, ge_pHIST]
    | split
    | intro _
    | dsimp only
theorem doDispatch_dir (d : Dev) (c : Nat) (data : List Byte) (h0 : Dir z d) : Dir z (doDispatch d c data) := by
  unfold doDispatch
  repeat' first
    | with_reducible assumption
    | with_reducible apply on_dir
    | with_reducible apply setCourier_dir
    | with_reducible apply startItem_dir
    | simp -implicitDefEqProofs only [Dir.lit, off_pCRR, page_pCRR, ge_pCRR]
    | split
    | intro _
    | dsimp only
    | with_reducible refine takeItem_dir (by assumption) ?_
theorem writeCompletion_dir (d : Dev) (w : Work) (v : Nat) (h0 : Dir z d) : Dir z (writeCompletion d w v) := by
  unfold writeCompletion
  repeat' first
    | with_reducible assumption
    | with_reducible apply add_dir
    | with_reducible apply append_dir
    | with_reducible apply irq_dir
    | with_reducible apply raise_dir
    | simp -implicitDefEqProofs only [Dir.lit, off_pDSP, page_pDSP, ge_pDSP]
    | split
    | intro _
    | dsimp only
theorem countBusy_dir (d : Dev) (c : Nat) (x : Courier) (h0 : Dir z d) : Dir z (countBusy d c x) := by
  unfold countBusy
  repeat' first
    | with_reducible assumption
    | with_reducible apply add_dir
    | simp -implicitDefEqProofs only [Dir.lit, off_pCRR, page_pCRR, ge_pCRR]
    | split
    | intro _
    | dsimp only
theorem endItem_dir (d : Dev) (c : Nat) (w : Work) (x : Courier) (h0 : Dir z d) : Dir z (endItem d c w x) := by
  unfold endItem
  repeat' first
    | with_reducible assumption
    | with_reducible apply add_dir
    | with_reducible apply countBusy_dir
    | with_reducible apply p_dir
    | with_reducible apply raise_dir
    | with_reducible apply setCourier_dir
    | with_reducible apply writeCompletion_dir
    | simp -implicitDefEqProofs only [Dir.lit, off_pCRR, page_pCRR, ge_pCRR]
    | split
    | intro _
    | dsimp only
theorem doItemComplete_dir (d : Dev) (c : Nat) (h0 : Dir z d) : Dir z (doItemComplete d c) := by
  unfold doItemComplete
  repeat' first
    | with_reducible assumption
    | with_reducible apply endItem_dir
    | with_reducible apply keepItem_dir
    | with_reducible apply runItem_dir
    | simp -implicitDefEqProofs only [Dir.lit, off_pCRR, page_pCRR, ge_pCRR]
    | split
    | intro _
    | dsimp only
theorem doWaitLimit_dir (d : Dev) (c : Nat) (h0 : Dir z d) : Dir z (doWaitLimit d c) := by
  unfold doWaitLimit
  repeat' first
    | with_reducible assumption
    | with_reducible apply endItem_dir
    | simp -implicitDefEqProofs only [Dir.lit, off_pCRR, page_pCRR, ge_pCRR]
    | split
    | intro _
    | dsimp only
theorem doDspClr_dir (d : Dev) (h0 : Dir z d) : Dir z (doDspClr d) := by
  unfold doDspClr
  repeat' first
    | with_reducible assumption
    | with_reducible apply clr_dir
    | with_reducible apply each_dir
    | with_reducible apply p_dir
    | simp -implicitDefEqProofs only [Dir.lit, off_pCRR, page_pCRR, ge_pCRR, off_pDSP, page_pDSP, ge_pDSP, off_pHIST, page_pHIST, ge_pHIST, off_pPTN, page_pPTN, ge_pPTN]
    | split
    | intro _
    | dsimp only
theorem abandon_dir (d : Dev) (src : Nat) (h0 : Dir z d) : Dir z (abandon d src) := by
  unfold abandon
  repeat' first
    | with_reducible assumption
    | simp -implicitDefEqProofs only [Dir.lit]
    | split
    | intro _
    | dsimp only
theorem resetItems_dir (d : Dev) (i : Nat) (h0 : Dir z d) : Dir z (resetItems d i) := by
  unfold resetItems
  repeat' first
    | with_reducible assumption
    | with_reducible apply abandon_dir
    | with_reducible apply add_dir
    | with_reducible apply countBusy_dir
    | with_reducible apply each_dir
    | with_reducible apply modQueue_dir
    | with_reducible apply p_dir
    | with_reducible apply putList_dir
    | with_reducible apply setCourier_dir
    | simp -implicitDefEqProofs only [Dir.lit, off_pCRR, page_pCRR, ge_pCRR, page_pDEV, off_pDSP, page_pDSP, ge_pDSP]
    | split
    | intro _
    | dsimp only
end Sys2Proof.Machine.Dev
end

