-- ==== Sys2Proof/Laws/KeepDirectory4.lean ====
section
/-! SUPPORT. The directory and the resizes in progress are left as they were by resets, engines, partitions and time: one lemma for each function that leaves them. -/

set_option linter.all false

namespace Sys2Proof.Machine.Dev

set_option Elab.async false

variable {z : Dev}
theorem resetCommon_dir (d : Dev) (base : Nat) (h0 : Dir z d) (hb : Page base) : Dir z (resetCommon d base) := by
  unfold resetCommon; unfold Page at hb
  exact resetRange_dir _ _ _ (resetRange_dir _ _ _ h0 (by omega)) (by omega)
theorem resetWindows_dir (d : Dev) (n : Nat) (h0 : Dir z d) : Dir z (resetWindows d n) := by
  unfold resetWindows
  repeat' first
    | with_reducible assumption
    | with_reducible apply each_dir
    | with_reducible apply resetCommon_dir
    | with_reducible apply resetRange_dir
    | with_reducible apply far_add
    | with_reducible apply far_self
    | with_reducible apply le_far
    | simp -implicitDefEqProofs only [Dir.lit, off_pWIN, page_pWIN, ge_pWIN]
    | split
    | intro _
    | dsimp only
theorem resetCluCfg_dir (d : Dev) (n : Nat) (h0 : Dir z d) : Dir z (resetCluCfg d n) := by
  unfold resetCluCfg
  repeat' first
    | with_reducible assumption
    | with_reducible apply resetRange_dir
    | with_reducible apply far_add
    | with_reducible apply far_self
    | with_reducible apply le_far
    | simp -implicitDefEqProofs only [Dir.lit, off_pCLU, page_pCLU, ge_pCLU]
    | split
    | intro _
    | dsimp only
theorem clearCluster_dir (d : Dev) (n : Nat) (h0 : Dir z d) : Dir z (clearCluster d n) := by
  unfold clearCluster
  repeat' first
    | with_reducible assumption
    | with_reducible apply clearMemories_dir
    | with_reducible apply each_dir
    | with_reducible apply p_dir
    | with_reducible apply releasePorts_dir
    | simp -implicitDefEqProofs only [Dir.lit, off_pCLU, page_pCLU, ge_pCLU]
    | split
    | intro _
    | dsimp only
theorem resetCluster_dir (d : Dev) (n : Nat) (h0 : Dir z d) : Dir z (resetCluster d n) := by
  unfold resetCluster
  repeat' first
    | with_reducible assumption
    | with_reducible apply clearCluster_dir
    | with_reducible apply resetCluCfg_dir
    | with_reducible apply resetCommon_dir
    | with_reducible apply resetWindows_dir
    | simp -implicitDefEqProofs only [Dir.lit, off_pCLU, page_pCLU, ge_pCLU]
    | split
    | intro _
    | dsimp only
theorem releaseCluster_dir (d : Dev) (n : Nat) (h0 : Dir z d) : Dir z (releaseCluster d n) := by
  unfold releaseCluster
  repeat' first
    | with_reducible assumption
    | with_reducible apply clearCluster_dir
    | with_reducible apply resetCommon_dir
    | with_reducible apply resetWindows_dir
    | simp -implicitDefEqProofs only [Dir.lit, off_pCLU, page_pCLU, ge_pCLU]
    | split
    | intro _
    | dsimp only
theorem freshShadow_dir (d : Dev) (base : Nat) (h0 : Dir z d) (hb : Page base) : Dir z (freshShadow d base) := by
  unfold freshShadow; unfold Page at hb
  exact resetRange_dir _ _ _ (resetRange_dir _ _ _ h0 (by omega)) (by omega)
theorem freshCluster_dir (d : Dev) (n : Nat) (h0 : Dir z d) : Dir z (freshCluster d n) := by
  unfold freshCluster
  repeat' first
    | with_reducible assumption
    | with_reducible apply each_dir
    | with_reducible apply freshShadow_dir
    | with_reducible apply resetCluster_dir
    | simp -implicitDefEqProofs only [Dir.lit, off_pCLU, page_pCLU, ge_pCLU, off_pWIN, page_pWIN, ge_pWIN]
    | split
    | intro _
    | dsimp only
theorem resetStream_dir (d : Dev) (s : Nat) (h0 : Dir z d) : Dir z (resetStream d s) := by
  unfold resetStream
  repeat' first
    | with_reducible assumption
    | with_reducible apply resetRange_dir
    | with_reducible apply setStrm_dir
    | with_reducible apply far_add
    | with_reducible apply far_self
    | with_reducible apply le_far
    | simp -implicitDefEqProofs only [Dir.lit, off_pTRC, page_pTRC, ge_pTRC]
    | split
    | intro _
    | dsimp only
theorem disarmOwner_dir (d : Dev) (i : Nat) (h0 : Dir z d) : Dir z (disarmOwner d i) := by
  unfold disarmOwner
  repeat' first
    | with_reducible assumption
    | with_reducible apply each_dir
    | with_reducible apply p_dir
    | simp -implicitDefEqProofs only [Dir.lit, off_pTRG, page_pTRG, ge_pTRG]
    | split
    | intro _
    | dsimp only
theorem dropSlots_dir (d : Dev) (i : Nat) (h0 : Dir z d) : Dir z (dropSlots d i) := by
  unfold dropSlots
  repeat' first
    | with_reducible assumption
    | with_reducible apply each_dir
    | with_reducible apply modLink_dir
    | with_reducible apply p_dir
    | simp -implicitDefEqProofs only [Dir.lit, off_pLNK, page_pLNK, ge_pLNK]
    | split
    | intro _
    | dsimp only
theorem resetBudgets_dir (d : Dev) (i : Nat) (h0 : Dir z d) : Dir z (resetBudgets d i) := by
  unfold resetBudgets
  repeat' first
    | with_reducible assumption
    | with_reducible apply dropSlots_dir
    | with_reducible apply each_dir
    | with_reducible apply resetRange_dir
    | with_reducible apply far_add
    | with_reducible apply far_self
    | with_reducible apply le_far
    | simp -implicitDefEqProofs only [Dir.lit, off_pLNK, page_pLNK, ge_pLNK]
    | split
    | intro _
    | dsimp only
theorem dropActivities_dir (d : Dev) (i : Nat) (h0 : Dir z d) : Dir z (dropActivities d i) := by
  unfold dropActivities
  repeat' first
    | with_reducible assumption
    | with_reducible apply cutSave_dir
    | with_reducible apply mntFree_dir
    | with_reducible apply p_dir
    | simp -implicitDefEqProofs only [Dir.lit, off_pPTN, page_pPTN, ge_pPTN, off_pSCR, page_pSCR, ge_pSCR]
    | split
    | intro _
    | dsimp only
theorem capDrop_dir (d : Dev) (c : Nat) (h0 : Dir z d) : Dir z (capDrop d c) := by
  unfold capDrop
  repeat' first
    | with_reducible assumption
    | with_reducible apply capIdle_dir
    | with_reducible apply each_dir
    | with_reducible apply modChan_dir
    | simp -implicitDefEqProofs only [Dir.lit]
    | split
    | intro _
    | dsimp only
theorem ptnResetDone_dir (d : Dev) (i : Nat) (h0 : Dir z d) : Dir z (ptnResetDone d i) := by
  unfold ptnResetDone
  repeat' first
    | with_reducible assumption
    | with_reducible apply p_dir
    | simp -implicitDefEqProofs only [Dir.lit, off_pRST, page_pRST, ge_pRST]
    | split
    | intro _
    | dsimp only
theorem releaseTrigger_dir (d : Dev) (i : Nat) (h0 : Dir z d) : Dir z (releaseTrigger d i) := by
  unfold releaseTrigger
  repeat' first
    | with_reducible assumption
    | with_reducible apply each_dir
    | with_reducible apply p_dir
    | with_reducible apply stopPulse_dir
    | simp -implicitDefEqProofs only [Dir.lit, off_pTRG, page_pTRG, ge_pTRG]
    | split
    | intro _
    | dsimp only
theorem releaseCapture_dir (d : Dev) (i : Nat) (h0 : Dir z d) : Dir z (releaseCapture d i) := by
  unfold releaseCapture
  repeat' first
    | with_reducible assumption
    | with_reducible apply capDrop_dir
    | with_reducible apply each_dir
    | with_reducible apply p_dir
    | with_reducible apply setChanOwner_dir
    | simp -implicitDefEqProofs only [Dir.lit, off_pCAP, page_pCAP, ge_pCAP]
    | split
    | intro _
    | dsimp only
theorem releaseBridges_dir (d : Dev) (i : Nat) (h0 : Dir z d) : Dir z (releaseBridges d i) := by
  unfold releaseBridges
  repeat' first
    | with_reducible assumption
    | with_reducible apply each_dir
    | with_reducible apply p_dir
    | simp -implicitDefEqProofs only [Dir.lit, off_pLGRP, page_pLGRP, ge_pLGRP]
    | split
    | intro _
    | dsimp only
theorem releaseDebug_dir (d : Dev) (i : Nat) (h0 : Dir z d) : Dir z (releaseDebug d i) := by
  unfold releaseDebug
  repeat' first
    | with_reducible assumption
    | with_reducible apply releaseBridges_dir
    | with_reducible apply releaseCapture_dir
    | with_reducible apply releaseTrigger_dir
    | with_reducible apply resetStream_dir
    | simp -implicitDefEqProofs only [Dir.lit]
    | split
    | intro _
    | dsimp only
theorem zeroEntries_dir (d : Dev) (is : List Nat) (h0 : Dir z d) : Dir z (zeroEntries d is).1 := by
  induction is generalizing d with
  | nil => exact h0
  | cons i is ih =>
    unfold zeroEntries
    repeat' first
      | with_reducible assumption
      | with_reducible apply ih
      | with_reducible apply logFail_dir
      | with_reducible apply logCheck_dir
      | with_reducible apply logPut_dir
      | exact fun _ => ⟨Eq.refl _, Eq.refl _⟩
      | exact Eq.refl _
      | simp -implicitDefEqProofs only [Dir.lit]
      | split
      | intro _
      | dsimp only
theorem doLogClear_dir (d : Dev) (h0 : Dir z d) : Dir z (doLogClear d) := by
  unfold doLogClear
  repeat' first
    | with_reducible assumption
    | with_reducible apply p_dir
    | with_reducible apply zeroEntries_dir
    | simp -implicitDefEqProofs only [Dir.lit, off_pLOG, page_pLOG, ge_pLOG]
    | split
    | intro _
    | dsimp only
theorem doLastGaspClear_dir (d : Dev) (h0 : Dir z d) : Dir z (doLastGaspClear d) := by
  unfold doLastGaspClear
  repeat' first
    | with_reducible assumption
    | with_reducible apply p_dir
    | simp -implicitDefEqProofs only [Dir.lit, off_pAON, page_pAON, ge_pAON]
    | split
    | intro _
    | dsimp only
theorem doClearAll_dir (d : Dev) (h0 : Dir z d) : Dir z (doClearAll d) := by
  unfold doClearAll
  repeat' first
    | with_reducible assumption
    | with_reducible apply each_dir
    | with_reducible apply p_dir
    | simp -implicitDefEqProofs only [Dir.lit, off_pEVC, page_pEVC, ge_pEVC]
    | split
    | intro _
    | dsimp only
theorem doCounterSaturate_dir (d : Dev) (base : Nat) (i : Nat) (h0 : Dir z d) : Dir z (doCounterSaturate d base i) := by
  unfold doCounterSaturate
  split
  · exact h0
  · split
    · split
      · exact on_dir _ _ _ (p_dir _ _ _ _ h0 (of_eq_true (off_pEVC _))) (of_eq_true (off_pEVC _))
      · exact h0
    · split
      · next h =>
        simp only [Bool.and_eq_true, decide_eq_true_eq, beq_iff_eq] at h
        have hp : Page base := by unfold Page; omega
        have ho := off_sel hp h.1.1.1
        exact on_dir _ _ _ (p_dir _ _ _ _ h0 ho.2.2.2) ho.2.2.1
      · exact h0
theorem doRoll_dir (d : Dev) (h0 : Dir z d) : Dir z (doRoll d) := by
  unfold doRoll
  repeat' first
    | with_reducible assumption
    | with_reducible apply requestRoll_dir
    | simp -implicitDefEqProofs only [Dir.lit]
    | split
    | intro _
    | dsimp only
theorem doKeyRollStart_dir (d : Dev) (h0 : Dir z d) : Dir z (doKeyRollStart d) := by
  unfold doKeyRollStart
  repeat' first
    | with_reducible assumption
    | with_reducible apply tryRoll_dir
    | simp -implicitDefEqProofs only [Dir.lit]
    | split
    | intro _
    | dsimp only
theorem doKeyRollSector_dir (d : Dev) (h0 : Dir z d) : Dir z (doKeyRollSector d) := by
  unfold doKeyRollSector
  repeat' first
    | with_reducible assumption
    | with_reducible apply convertSector_dir
    | with_reducible apply endRoll_dir
    | with_reducible apply p_dir
    | with_reducible apply pauseRoll_dir
    | simp -implicitDefEqProofs only [Dir.lit, off_pKRE, page_pKRE, ge_pKRE]
    | split
    | intro _
    | dsimp only
theorem doImeClrCounts_dir (d : Dev) (h0 : Dir z d) : Dir z (doImeClrCounts d) := by
  unfold doImeClrCounts
  repeat' first
    | with_reducible assumption
    | with_reducible apply each_dir
    | with_reducible apply p_dir
    | simp -implicitDefEqProofs only [Dir.lit, off_pIME, page_pIME, ge_pIME]
    | split
    | intro _
    | dsimp only
theorem doSysFreeze_dir (d : Dev) (h0 : Dir z d) : Dir z (doSysFreeze d) := by
  unfold doSysFreeze
  repeat' first
    | with_reducible assumption
    | with_reducible apply raiseSysFreeze_dir
    | simp -implicitDefEqProofs only [Dir.lit]
    | split
    | intro _
    | dsimp only
theorem doStrobe_dir (d : Dev) (h0 : Dir z d) : Dir z (doStrobe d) := by
  unfold doStrobe
  repeat' first
    | with_reducible assumption
    | with_reducible apply strobeReq_dir
    | simp -implicitDefEqProofs only [Dir.lit]
    | split
    | intro _
    | dsimp only
theorem doCaptureArm_dir (d : Dev) (c : Nat) (h0 : Dir z d) : Dir z (doCaptureArm d c) := by
  unfold doCaptureArm
  repeat' first
    | with_reducible assumption
    | with_reducible apply beginCapture_dir
    | with_reducible apply each_dir
    | with_reducible apply modChan_dir
    | with_reducible apply p_dir
    | simp -implicitDefEqProofs only [Dir.lit, off_pCAP, page_pCAP, ge_pCAP]
    | split
    | intro _
    | dsimp only
theorem doCaptureDisarm_dir (d : Dev) (c : Nat) (h0 : Dir z d) : Dir z (doCaptureDisarm d c) := by
  unfold doCaptureDisarm
  repeat' first
    | with_reducible assumption
    | with_reducible apply capIdle_dir
    | with_reducible apply cutBlock_dir
    | with_reducible apply each_dir
    | with_reducible apply writeEntry_dir
    | simp -implicitDefEqProofs only [Dir.lit, off_pCAP, page_pCAP, ge_pCAP]
    | split
    | intro _
    | dsimp only
theorem doCaptureBlockWrite_dir (d : Dev) (ch addr : Nat) (h0 : Dir z d) : Dir z (doCaptureBlockWrite d ch addr) := by
  unfold doCaptureBlockWrite
  repeat' first
    | with_reducible assumption
    | with_reducible apply chanComplete_dir
    | with_reducible apply setChan_dir
    | simp -implicitDefEqProofs only [Dir.lit, off_pCAP, page_pCAP, ge_pCAP]
    | split
    | intro _
    | dsimp only
theorem doPostLimitExpire_dir (d : Dev) (ch : Nat) (h0 : Dir z d) : Dir z (doPostLimitExpire d ch) := by
  unfold doPostLimitExpire
  repeat' first
    | with_reducible assumption
    | with_reducible apply chanComplete_dir
    | simp -implicitDefEqProofs only [Dir.lit, off_pCAP, page_pCAP, ge_pCAP]
    | split
    | intro _
    | dsimp only
theorem doRearmExpire_dir (d : Dev) (c : Nat) (h0 : Dir z d) : Dir z (doRearmExpire d c) := by
  unfold doRearmExpire
  repeat' first
    | with_reducible assumption
    | with_reducible apply beginCapture_dir
    | simp -implicitDefEqProofs only [Dir.lit, off_pCAP, page_pCAP, ge_pCAP]
    | split
    | intro _
    | dsimp only
theorem doChannelOwnerWrite_dir (d : Dev) (ch : Nat) (owner : Nat) (h0 : Dir z d) : Dir z (doChannelOwnerWrite d ch owner) := by
  unfold doChannelOwnerWrite
  repeat' first
    | with_reducible assumption
    | with_reducible apply setChanOwner_dir
    | simp -implicitDefEqProofs only [Dir.lit]
    | split
    | intro _
    | dsimp only
theorem doZeroingComplete_dir (d : Dev) (ch : Nat) (h0 : Dir z d) : Dir z (doZeroingComplete d ch) := by
  unfold doZeroingComplete
  repeat' first
    | with_reducible assumption
    | with_reducible apply modChan_dir
    | with_reducible apply zeroRange_dir
    | simp -implicitDefEqProofs only [Dir.lit, off_pCAP, page_pCAP, ge_pCAP]
    | split
    | intro _
    | dsimp only
theorem doPinwheelConfigWrite_dir (d : Dev) (size : Bool) (v : W64) (h0 : Dir z d) : Dir z (doPinwheelConfigWrite d size v) := by
  unfold doPinwheelConfigWrite
  repeat' first
    | with_reducible assumption
    | with_reducible apply on_dir
    | with_reducible apply p_dir
    | simp -implicitDefEqProofs only [Dir.lit, off_pCAP, page_pCAP, ge_pCAP]
    | split
    | intro _
    | dsimp only
theorem clearQueues_dir (d : Dev) (lo n : Nat) (h0 : Dir z d) : Dir z (clearQueues d lo n) := by
  unfold clearQueues
  repeat' first
    | with_reducible assumption
    | with_reducible apply disableQueue_dir
    | with_reducible apply each_dir
    | simp -implicitDefEqProofs only [Dir.lit]
    | split
    | intro _
    | dsimp only
theorem clearAdded_dir (d : Dev) (lo n lo' n' : Nat) (h0 : Dir z d) : Dir z (clearAdded d lo n lo' n') := by
  unfold clearAdded
  repeat' first
    | with_reducible assumption
    | with_reducible apply disableQueue_dir
    | with_reducible apply each_dir
    | simp -implicitDefEqProofs only [Dir.lit]
    | split
    | intro _
    | dsimp only
theorem answerPtn_dir (d : Dev) (i op tag status : Nat) (ws : List W64) (h0 : Dir z d) : Dir z (answerPtn d i op tag status ws) := by
  unfold answerPtn
  repeat' first
    | with_reducible assumption
    | with_reducible apply answer_dir
    | simp -implicitDefEqProofs only [Dir.lit]
    | split
    | intro _
    | dsimp only
theorem releaseAnswers_dir (d : Dev) (i : Nat) (h0 : Dir z d) : Dir z (releaseAnswers d i) := by
  unfold releaseAnswers
  repeat' first
    | with_reducible assumption
    | with_reducible apply sendAnswers_dir
    | simp -implicitDefEqProofs only [Dir.lit]
    | split
    | intro _
    | dsimp only
theorem serving_dir (d : Dev) (k : Dev → Dev) (h0 : Dir z d) (hk : ∀ e, Dir z e → Dir z (k e)) : Dir z (serving d k) := by
  unfold serving
  repeat' first
    | with_reducible assumption
    | with_reducible apply hk
    | exact fun _ => ⟨Eq.refl _, Eq.refl _⟩
    | exact Eq.refl _
    | simp -implicitDefEqProofs only [Dir.lit]
    | split
    | intro _
    | dsimp only
theorem endBatch_dir (d : Dev) (i : Nat) (h0 : Dir z d) : Dir z (endBatch d i) := by
  unfold endBatch
  repeat' first
    | with_reducible assumption
    | with_reducible apply irq_dir
    | with_reducible apply modPtn_dir
    | with_reducible apply on_dir
    | with_reducible apply p_dir
    | exact fun _ => ⟨Eq.refl _, Eq.refl _⟩
    | exact ⟨trivial, trivial⟩
    | simp -implicitDefEqProofs only [Dir.lit, off_pPTN, page_pPTN, ge_pPTN]
    | split
    | intro _
    | dsimp only
theorem drainNi_dir (d : Dev) (n : Nat) (h0 : Dir z d) : Dir z (drainNi d n) := by
  unfold drainNi
  repeat' first
    | with_reducible assumption
    | with_reducible apply p_dir
    | simp -implicitDefEqProofs only [Dir.lit, off_pNOC, page_pNOC, ge_pNOC]
    | split
    | intro _
    | dsimp only
theorem fenceNi_dir (d : Dev) (n : Nat) (h0 : Dir z d) : Dir z (fenceNi d n) := by
  unfold fenceNi
  repeat' first
    | with_reducible assumption
    | with_reducible apply p_dir
    | simp -implicitDefEqProofs only [Dir.lit, off_pNOC, page_pNOC, ge_pNOC]
    | split
    | intro _
    | dsimp only
theorem returnItem_dir (d : Dev) (w : Work) (h0 : Dir z d) : Dir z (returnItem d w) := by
  unfold returnItem
  repeat' first
    | with_reducible assumption
    | with_reducible apply writeCompletion_dir
    | simp -implicitDefEqProofs only [Dir.lit]
    | split
    | intro _
    | dsimp only
theorem returnItems_dir (d : Dev) (i : Nat) (moves : Work → Bool) (h0 : Dir z d) : Dir z (returnItems d i moves).1 := by
  unfold returnItems
  repeat' first
    | with_reducible assumption
    | with_reducible apply each_dir
    | with_reducible apply p_dir
    | with_reducible apply putList_dir
    | with_reducible apply returnItem_dir
    | with_reducible apply setCourier_dir
    | with_reducible apply foldl_dir
    | with_reducible apply fold1_dir
    | simp -implicitDefEqProofs only [Dir.lit, off_pCRR, page_pCRR, ge_pCRR]
    | split
    | intro _
    | dsimp only
theorem moveQueues_dir (d : Dev) (i lo n lo' n' : Nat) (h0 : Dir z d) : Dir z (moveQueues d i lo n lo' n') := by
  unfold moveQueues
  repeat' first
    | with_reducible assumption
    | with_reducible apply clearAdded_dir
    | with_reducible apply clearQueues_dir
    | with_reducible apply each_dir
    | with_reducible apply p_dir
    | with_reducible apply foldl_dir
    | with_reducible apply fold1_dir
    | simp -implicitDefEqProofs only [Dir.lit, off_pLGRP, page_pLGRP, ge_pLGRP]
    | split
    | intro _
    | dsimp only
theorem retargetSave_dir (d : Dev) (i : Nat) (h0 : Dir z d) : Dir z (retargetSave d i) := by
  unfold retargetSave
  repeat' first
    | with_reducible assumption
    | with_reducible apply doSnapSaveComplete_dir
    | with_reducible apply mntRequest_dir
    | with_reducible apply on_dir
    | with_reducible apply p_dir
    | with_reducible apply snapPut_dir
    | simp -implicitDefEqProofs only [Dir.lit, off_DEV_DIR_RESTORE_DUE, page_pDEV, off_pPTN, page_pPTN, ge_pPTN]
    | split
    | intro _
    | dsimp only
theorem doPtnQuery_dir (d : Dev) (tag i : Nat) (h0 : Dir z d) : Dir z (doPtnQuery d tag i) := by
  unfold doPtnQuery
  repeat' first
    | with_reducible assumption
    | with_reducible apply answer_dir
    | with_reducible apply answerPtn_dir
    | with_reducible apply takeService_dir
    | simp -implicitDefEqProofs only [Dir.lit]
    | split
    | intro _
    | dsimp only
theorem doPing_dir (d : Dev) (tag arg : Nat) (h0 : Dir z d) : Dir z (doPing d tag arg) := by
  unfold doPing
  repeat' first
    | with_reducible assumption
    | with_reducible apply answer_dir
    | with_reducible apply takeService_dir
    | simp -implicitDefEqProofs only [Dir.lit, off_pLDR, page_pLDR, ge_pLDR]
    | split
    | intro _
    | dsimp only
theorem sendBeacon_dir (d : Dev) (gi time hops : Nat) (h0 : Dir z d) : Dir z (sendBeacon d gi time hops) := by
  unfold sendBeacon
  repeat' first
    | with_reducible assumption
    | with_reducible apply control_dir
    | simp -implicitDefEqProofs only [Dir.lit, off_pLGRP, page_pLGRP, ge_pLGRP]
    | split
    | intro _
    | dsimp only
theorem stepTime_dir (d : Dev) (t kind : Nat) (h0 : Dir z d) : Dir z (stepTime d t kind) := by
  unfold stepTime
  repeat' first
    | with_reducible assumption
    | with_reducible apply discont_dir
    | with_reducible apply p_dir
    | simp -implicitDefEqProofs only [Dir.lit, off_pTSB, page_pTSB, ge_pTSB]
    | split
    | intro _
    | dsimp only
theorem holdTime_dir (d : Dev) (off : Int) (h0 : Dir z d) : Dir z (holdTime d off) := by
  unfold holdTime
  repeat' first
    | with_reducible assumption
    | with_reducible apply discont_dir
    | with_reducible apply on_dir
    | simp -implicitDefEqProofs only [Dir.lit, off_pTSB, page_pTSB, ge_pTSB]
    | split
    | intro _
    | dsimp only
theorem lockCount_dir (d : Dev) (off : Int) (h0 : Dir z d) : Dir z (lockCount d off) := by
  unfold lockCount
  repeat' first
    | with_reducible assumption
    | with_reducible apply on_dir
    | with_reducible apply p_dir
    | simp -implicitDefEqProofs only [Dir.lit, off_pTSB, page_pTSB, ge_pTSB]
    | split
    | intro _
    | dsimp only
theorem followTime_dir (d : Dev) (t : Nat) (whole : Bool) (h0 : Dir z d) : Dir z (followTime d t whole) := by
  unfold followTime
  repeat' first
    | with_reducible assumption
    | with_reducible apply holdTime_dir
    | with_reducible apply lockCount_dir
    | with_reducible apply on_dir
    | with_reducible apply p_dir
    | with_reducible apply stepTime_dir
    | simp -implicitDefEqProofs only [Dir.lit, off_pTSB, page_pTSB, ge_pTSB]
    | split
    | intro _
    | dsimp only
theorem doBeaconSend_dir (d : Dev) (h0 : Dir z d) : Dir z (doBeaconSend d) := by
  unfold doBeaconSend
  repeat' first
    | with_reducible assumption
    | with_reducible apply each_dir
    | with_reducible apply sendBeacon_dir
    | simp -implicitDefEqProofs only [Dir.lit, off_pTSB, page_pTSB, ge_pTSB]
    | split
    | intro _
    | dsimp only
theorem doBeacon_dir (d : Dev) (gi ns frac hops master : Nat) (intact : Bool) (h0 : Dir z d) : Dir z (doBeacon d gi ns frac hops master intact) := by
  unfold doBeacon
  repeat' first
    | with_reducible assumption
    | with_reducible apply ctlBad_dir
    | with_reducible apply each_dir
    | with_reducible apply followTime_dir
    | with_reducible apply on_dir
    | with_reducible apply p_dir
    | with_reducible apply sendBeacon_dir
    | simp -implicitDefEqProofs only [Dir.lit, off_pCKG, page_pCKG, ge_pCKG, off_pLGRP, page_pLGRP, ge_pLGRP, off_pLNK, page_pLNK, ge_pLNK, off_pTSB, page_pTSB, ge_pTSB]
    | split
    | intro _
    | dsimp only
theorem doBeaconTimeout_dir (d : Dev) (h0 : Dir z d) : Dir z (doBeaconTimeout d) := by
  unfold doBeaconTimeout
  repeat' first
    | with_reducible assumption
    | with_reducible apply on_dir
    | simp -implicitDefEqProofs only [Dir.lit, off_pTSB, page_pTSB, ge_pTSB]
    | split
    | intro _
    | dsimp only
theorem ringBeacon_dir (d : Dev) (ttl ns frac : Nat) (h0 : Dir z d) : Dir z (ringBeacon d ttl ns frac) := by
  unfold ringBeacon
  repeat' first
    | with_reducible assumption
    | with_reducible apply followTime_dir
    | simp -implicitDefEqProofs only [Dir.lit, off_pTSB, page_pTSB, ge_pTSB]
    | split
    | intro _
    | dsimp only
theorem doHoldEnd_dir (d : Dev) (h0 : Dir z d) : Dir z (doHoldEnd d) := by
  unfold doHoldEnd
  repeat' first
    | with_reducible assumption
    | with_reducible apply p_dir
    | simp -implicitDefEqProofs only [Dir.lit, off_pTSB, page_pTSB, ge_pTSB]
    | split
    | intro _
    | dsimp only
theorem doTsbSet_dir (d : Dev) (v : Nat) (h0 : Dir z d) : Dir z (doTsbSet d v) := by
  unfold doTsbSet
  repeat' first
    | with_reducible assumption
    | with_reducible apply stepTime_dir
    | simp -implicitDefEqProofs only [Dir.lit]
    | split
    | intro _
    | dsimp only
theorem clockStep_dir (d : Dev) (h0 : Dir z d) : Dir z (clockStep d) := by
  unfold clockStep
  repeat' first
    | with_reducible assumption
    | with_reducible apply add_dir
    | with_reducible apply each_dir
    | with_reducible apply p_dir
    | with_reducible apply pupStep_dir
    | with_reducible apply raise_dir
    | simp -implicitDefEqProofs only [Dir.lit, off_pTRC, page_pTRC, ge_pTRC, off_pTSB, page_pTSB, ge_pTSB]
    | split
    | intro _
    | dsimp only
end Sys2Proof.Machine.Dev
end

