-- ==== Sys2Proof/Laws/KeepDirectory5.lean ====
section
/-! SUPPORT. The directory and the resizes in progress are left as they were by boot, the loader, scrubbing, lane groups and the network: one lemma for each function that leaves them. -/

set_option linter.all false

namespace Sys2Proof.Machine.Dev

set_option Elab.async false

variable {z : Dev}
theorem setBoot_dir (d : Dev) (st : Nat) (h0 : Dir z d) : Dir z (setBoot d st) := by
  unfold setBoot
  repeat' first
    | with_reducible assumption
    | with_reducible apply p_dir
    | simp -implicitDefEqProofs only [Dir.lit, off_pLDR, page_pLDR, ge_pLDR]
    | split
    | intro _
    | dsimp only
theorem clearStaging_dir (d : Dev) (h0 : Dir z d) : Dir z (clearStaging d) := by
  unfold clearStaging
  repeat' first
    | with_reducible assumption
    | simp -implicitDefEqProofs only [Dir.lit]
    | split
    | intro _
    | dsimp only
theorem refuseBundle_dir (d : Dev) (code : Nat) (h0 : Dir z d) : Dir z (refuseBundle d code) := by
  unfold refuseBundle
  repeat' first
    | with_reducible assumption
    | with_reducible apply add_dir
    | with_reducible apply clearStaging_dir
    | with_reducible apply irq_dir
    | with_reducible apply p_dir
    | with_reducible apply setBoot_dir
    | simp -implicitDefEqProofs only [Dir.lit, off_pLDR, page_pLDR, ge_pLDR]
    | split
    | intro _
    | dsimp only
theorem doBootGo_dir (d : Dev) (h0 : Dir z d) : Dir z (doBootGo d) := by
  unfold doBootGo
  repeat' first
    | with_reducible assumption
    | with_reducible apply add_dir
    | with_reducible apply refuseBundle_dir
    | with_reducible apply setBoot_dir
    | simp -implicitDefEqProofs only [Dir.lit, off_pLDR, page_pLDR, ge_pLDR]
    | split
    | intro _
    | dsimp only
theorem doBootAbort_dir (d : Dev) (h0 : Dir z d) : Dir z (doBootAbort d) := by
  unfold doBootAbort
  repeat' first
    | with_reducible assumption
    | with_reducible apply refuseBundle_dir
    | simp -implicitDefEqProofs only [Dir.lit]
    | split
    | intro _
    | dsimp only
theorem doFetchDone_dir (d : Dev) (data : Option (List Byte)) (h0 : Dir z d) : Dir z (doFetchDone d data) := by
  unfold doFetchDone
  repeat' first
    | with_reducible assumption
    | with_reducible apply refuseBundle_dir
    | with_reducible apply setBoot_dir
    | simp -implicitDefEqProofs only [Dir.lit, off_pLDR, page_pLDR, ge_pLDR]
    | split
    | intro _
    | dsimp only
theorem doVerifyDone_dir (d : Dev) (h0 : Dir z d) : Dir z (doVerifyDone d) := by
  unfold doVerifyDone
  repeat' first
    | with_reducible assumption
    | with_reducible apply each_dir
    | with_reducible apply p_dir
    | with_reducible apply refuseBundle_dir
    | with_reducible apply setBoot_dir
    | simp -implicitDefEqProofs only [Dir.lit, off_pLDR, page_pLDR, ge_pLDR, off_pPUP, page_pPUP, ge_pPUP]
    | split
    | intro _
    | dsimp only
theorem stageQueue_dir (d : Dev) (q depth : Nat) (h0 : Dir z d) : Dir z (stageQueue d q depth) := by
  unfold stageQueue
  repeat' first
    | with_reducible assumption
    | with_reducible apply setQueue_dir
    | simp -implicitDefEqProofs only [Dir.lit]
    | split
    | intro _
    | dsimp only
theorem stageQueues_dir (d : Dev) (h0 : Dir z d) : Dir z (stageQueues d) := by
  unfold stageQueues
  repeat' first
    | with_reducible assumption
    | with_reducible apply stageQueue_dir
    | with_reducible apply foldl_dir
    | with_reducible apply fold1_dir
    | simp -implicitDefEqProofs only [Dir.lit]
    | split
    | intro _
    | dsimp only
theorem doStageReady_dir (d : Dev) (h0 : Dir z d) : Dir z (doStageReady d) := by
  unfold doStageReady
  repeat' first
    | with_reducible assumption
    | with_reducible apply each_dir
    | with_reducible apply irq_dir
    | with_reducible apply on_dir
    | with_reducible apply p_dir
    | with_reducible apply setBoot_dir
    | with_reducible apply stageQueues_dir
    | simp -implicitDefEqProofs only [Dir.lit, off_pCKG, page_pCKG, ge_pCKG, off_pHMC, page_pHMC, ge_pHMC, off_pLDR, page_pLDR, ge_pLDR, off_pNOC, page_pNOC, ge_pNOC, off_pWDN, page_pWDN, ge_pWDN]
    | split
    | intro _
    | dsimp only
theorem doConfirm_dir (d : Dev) (h0 : Dir z d) : Dir z (doConfirm d) := by
  unfold doConfirm
  repeat' first
    | with_reducible assumption
    | with_reducible apply irq_dir
    | with_reducible apply mntRequest_dir
    | with_reducible apply p_dir
    | with_reducible apply setBoot_dir
    | simp -implicitDefEqProofs only [Dir.lit, off_pLDR, page_pLDR, ge_pLDR]
    | split
    | intro _
    | dsimp only
theorem burnAll_dir (d : Dev) (n : Nat) (h0 : Dir z d) : Dir z (burnAll d n) := by
  unfold burnAll
  repeat' first
    | with_reducible assumption
    | simp -implicitDefEqProofs only [Dir.lit]
    | split
    | intro _
    | dsimp only
theorem burnPart_dir (d : Dev) (n : Nat) (h0 : Dir z d) : Dir z (burnPart d n) := by
  unfold burnPart
  repeat' first
    | with_reducible assumption
    | with_reducible apply tick_dir
    | simp -implicitDefEqProofs only [Dir.lit]
    | split
    | intro _
    | dsimp only
theorem doBurnDone_dir (d : Dev) (fault : Bool) (h0 : Dir z d) : Dir z (doBurnDone d fault) := by
  unfold doBurnDone
  repeat' first
    | with_reducible assumption
    | with_reducible apply burnAll_dir
    | with_reducible apply burnPart_dir
    | with_reducible apply irq_dir
    | with_reducible apply mntFree_dir
    | with_reducible apply p_dir
    | with_reducible apply setBoot_dir
    | simp -implicitDefEqProofs only [Dir.lit, off_pLDR, page_pLDR, ge_pLDR]
    | split
    | intro _
    | dsimp only
theorem doOwnerProvision_dir (d : Dev) (tag : Nat) (ws : List W64) (h0 : Dir z d) : Dir z (doOwnerProvision d tag ws) := by
  unfold doOwnerProvision
  repeat' first
    | with_reducible assumption
    | with_reducible apply answer_dir
    | with_reducible apply mntFree_dir
    | with_reducible apply mntRequest_dir
    | with_reducible apply takeService_dir
    | simp -implicitDefEqProofs only [Dir.lit]
    | split
    | intro _
    | dsimp only
theorem ownerPart_dir (d : Dev) (hash : BitVec 384) (cut : Bool) (h0 : Dir z d) : Dir z (ownerPart d hash cut) := by
  unfold ownerPart
  repeat' first
    | with_reducible assumption
    | with_reducible apply tick_dir
    | simp -implicitDefEqProofs only [Dir.lit]
    | split
    | intro _
    | dsimp only
theorem doOwnerBurnDone_dir (d : Dev) (fault : Bool) (h0 : Dir z d) : Dir z (doOwnerBurnDone d fault) := by
  unfold doOwnerBurnDone
  repeat' first
    | with_reducible assumption
    | with_reducible apply answer_dir
    | with_reducible apply mntFree_dir
    | with_reducible apply ownerPart_dir
    | with_reducible apply p_dir
    | with_reducible apply setAuthMode_dir
    | simp -implicitDefEqProofs only [Dir.lit, off_pFUS, page_pFUS, ge_pFUS]
    | split
    | intro _
    | dsimp only
theorem cutBurns_dir (d : Dev) (h0 : Dir z d) : Dir z (cutBurns d) := by
  unfold cutBurns
  repeat' first
    | with_reducible assumption
    | with_reducible apply burnPart_dir
    | with_reducible apply ownerPart_dir
    | simp -implicitDefEqProofs only [Dir.lit]
    | split
    | intro _
    | dsimp only
theorem romStart_dir (d : Dev) (h0 : Dir z d) : Dir z (romStart d) := by
  unfold romStart
  repeat' first
    | with_reducible assumption
    | with_reducible apply p_dir
    | simp -implicitDefEqProofs only [Dir.lit, off_pFUS, page_pFUS, ge_pFUS]
    | split
    | intro _
    | dsimp only
theorem doTokenPresent_dir (d : Dev) (tag : Nat) (ws : List W64) (h0 : Dir z d) : Dir z (doTokenPresent d tag ws) := by
  unfold doTokenPresent
  repeat' first
    | with_reducible assumption
    | with_reducible apply add_dir
    | with_reducible apply answer_dir
    | with_reducible apply applyRights_dir
    | with_reducible apply p_dir
    | with_reducible apply takeService_dir
    | simp -implicitDefEqProofs only [Dir.lit, off_pTRC, page_pTRC, ge_pTRC]
    | split
    | intro _
    | dsimp only
theorem swapService_dir (d : Dev) (ws : List W64) (h0 : Dir z d) : Dir z (swapService d ws) := by
  unfold swapService
  repeat' first
    | with_reducible assumption
    | with_reducible apply modQueue_dir
    | simp -implicitDefEqProofs only [Dir.lit]
    | split
    | intro _
    | dsimp only
theorem stageWord_dir (d : Dev) (base off v : Nat) (fs : List Fld) (h0 : Dir z d) (hb : 0x1000 ≤ base) : Dir z (stageWord d base off v fs) := by
  unfold stageWord
  exact foldl_dir _ _ _ h0 fun e f he => p_dir _ _ _ _ he (Or.inl hb)
theorem applyTables_dir (d : Dev) (i : Nat) (t : Config.Tables) (h0 : Dir z d) : Dir z (applyTables d i t) := by
  unfold applyTables
  repeat' first
    | with_reducible assumption
    | with_reducible apply dropSlots_dir
    | with_reducible apply each_dir
    | with_reducible apply modPtn_dir
    | with_reducible apply on_dir
    | with_reducible apply p_dir
    | with_reducible apply releasePorts_dir
    | with_reducible apply stageWord_dir
    | exact fun _ => ⟨Eq.refl _, Eq.refl _⟩
    | exact ⟨trivial, trivial⟩
    | simp -implicitDefEqProofs only [Dir.lit, off_DEV_DIR_LINKED, off_pCLU, page_pCLU, ge_pCLU, page_pDEV, off_pLNK, page_pLNK, ge_pLNK, off_pPTN, page_pPTN, ge_pPTN]
    | split
    | intro _
    | dsimp only
theorem releaseWord_dir (d : Dev) (n : Nat) (w : WordLoc) (h0 : Dir z d) : Dir z (releaseWord d n w) := by
  unfold releaseWord
  repeat' first
    | with_reducible assumption
    | with_reducible apply modClu_dir
    | simp -implicitDefEqProofs only [Dir.lit]
    | split
    | intro _
    | dsimp only
theorem setInitial_dir (d : Dev) (n t o v : Nat) (h0 : Dir z d) : Dir z (setInitial d n t o v) := by
  unfold setInitial
  repeat' first
    | with_reducible assumption
    | with_reducible apply each_dir
    | with_reducible apply setSt_dir
    | simp -implicitDefEqProofs only [Dir.lit]
    | split
    | intro _
    | dsimp only
theorem eachWord_dir (d : Dev) (f : Frame) (step : Nat) (put : Dev → Nat → List Byte → Dev) (h0 : Dir z d) (hp : ∀ e a bs, Dir z e → Dir z (put e a bs)) : Dir z (eachWord d f step put) := by
  unfold eachWord
  repeat' first
    | with_reducible assumption
    | with_reducible apply hp
    | with_reducible apply each_dir
    | exact fun _ => ⟨Eq.refl _, Eq.refl _⟩
    | exact Eq.refl _
    | simp -implicitDefEqProofs only [Dir.lit]
    | split
    | intro _
    | dsimp only
theorem applyFrame_dir (d : Dev) (i : Nat) (f : Frame) (h0 : Dir z d) : Dir z (applyFrame d i f) := by
  unfold applyFrame
  repeat' first
    | with_reducible assumption
    | with_reducible apply applyTables_dir
    | with_reducible apply dropSamples_dir
    | with_reducible apply eachWord_dir
    | with_reducible apply modPtn_dir
    | with_reducible apply releaseWord_dir
    | with_reducible apply rewriteBp_dir
    | with_reducible apply rewriteRow_dir
    | with_reducible apply rewriteWa_dir
    | with_reducible apply setInitial_dir
    | with_reducible apply setMesh_dir
    | with_reducible apply setPort_dir
    | with_reducible apply wake_dir
    | with_reducible apply writeWord_dir
    | exact fun _ => ⟨Eq.refl _, Eq.refl _⟩
    | exact ⟨trivial, trivial⟩
    | simp -implicitDefEqProofs only [Dir.lit, off_pPTN, page_pPTN, ge_pPTN]
    | split
    | intro _
    | dsimp only
theorem restoreDue_dir (d : Dev) (i : Nat) (h0 : Dir z d) : Dir z (restoreDue d i) := by
  unfold restoreDue
  repeat' first
    | with_reducible assumption
    | with_reducible apply modPtn_dir
    | with_reducible apply p_dir
    | with_reducible apply snapBegin_dir
    | with_reducible apply snapGet_dir
    | exact fun _ => ⟨Eq.refl _, Eq.refl _⟩
    | exact ⟨trivial, trivial⟩
    | simp -implicitDefEqProofs only [Dir.lit, off_pPTN, page_pPTN, ge_pPTN]
    | split
    | intro _
    | dsimp only
theorem imageRead_dir (d : Dev) (a n : Nat) (h0 : Dir z d) : Dir z (imageRead d a n).1 := by
  unfold imageRead
  repeat' first
    | with_reducible assumption
    | with_reducible apply hbmGet_dir
    | simp -implicitDefEqProofs only [Dir.lit]
    | split
    | intro _
    | dsimp only
theorem storedFrame_dir (d : Dev) (a n : Nat) (h0 : Dir z d) : Dir z (storedFrame d a n).1 := by
  unfold storedFrame
  repeat' first
    | with_reducible assumption
    | with_reducible apply imageRead_dir
    | simp -implicitDefEqProofs only [Dir.lit]
    | split
    | intro _
    | dsimp only
theorem replayBytes_dir (d : Dev) (i : Nat) (h0 : Dir z d) : Dir z (replayBytes d i).1 := by
  unfold replayBytes
  repeat' first
    | with_reducible assumption
    | with_reducible apply imageRead_dir
    | with_reducible apply storedFrame_dir
    | simp -implicitDefEqProofs only [Dir.lit]
    | split
    | intro _
    | dsimp only
theorem startBatch_dir (d : Dev) (i n : Nat) (replay : Bool) (h0 : Dir z d) : Dir z (startBatch d i n replay) := by
  unfold startBatch
  repeat' first
    | with_reducible assumption
    | with_reducible apply modPtn_dir
    | with_reducible apply on_dir
    | with_reducible apply p_dir
    | exact fun _ => ⟨Eq.refl _, Eq.refl _⟩
    | exact ⟨trivial, trivial⟩
    | simp -implicitDefEqProofs only [Dir.lit, off_pPTN, page_pPTN, ge_pPTN]
    | split
    | intro _
    | dsimp only
theorem doLoadGo_dir (d : Dev) (i : Nat) (h0 : Dir z d) : Dir z (doLoadGo d i) := by
  unfold doLoadGo
  repeat' first
    | with_reducible assumption
    | with_reducible apply startBatch_dir
    | simp -implicitDefEqProofs only [Dir.lit, off_pPTN, page_pPTN, ge_pPTN]
    | split
    | intro _
    | dsimp only
theorem doLoadAbort_dir (d : Dev) (i : Nat) (h0 : Dir z d) : Dir z (doLoadAbort d i) := by
  unfold doLoadAbort
  repeat' first
    | with_reducible assumption
    | with_reducible apply modPtn_dir
    | exact fun _ => ⟨Eq.refl _, Eq.refl _⟩
    | exact ⟨trivial, trivial⟩
    | simp -implicitDefEqProofs only [Dir.lit, off_pPTN, page_pPTN, ge_pPTN]
    | split
    | intro _
    | dsimp only
theorem doLoadReplay_dir (d : Dev) (i : Nat) (h0 : Dir z d) : Dir z (doLoadReplay d i) := by
  unfold doLoadReplay
  repeat' first
    | with_reducible assumption
    | with_reducible apply irq_dir
    | with_reducible apply on_dir
    | with_reducible apply p_dir
    | with_reducible apply startBatch_dir
    | simp -implicitDefEqProofs only [Dir.lit, off_pPTN, page_pPTN, ge_pPTN]
    | split
    | intro _
    | dsimp only
theorem imageFrame_dir (d : Dev) (m : Img) (q : Nat) (h0 : Dir z d) : Dir z (imageFrame d m q).1 := by
  unfold imageFrame
  repeat' first
    | with_reducible assumption
    | with_reducible apply hbmGet_dir
    | simp -implicitDefEqProofs only [Dir.lit]
    | split
    | intro _
    | dsimp only
theorem imageSeq_dir (d : Dev) (m : Img) (c k t o : Nat) (h0 : Dir z d) : Dir z (imageSeq d m c k t o).1 := by
  unfold imageSeq
  repeat' first
    | with_reducible assumption
    | with_reducible apply hbmGet_dir
    | with_reducible apply foldl_dir
    | with_reducible apply fold1_dir
    | simp -implicitDefEqProofs only [Dir.lit]
    | split
    | intro _
    | dsimp only
theorem imageBytes_dir (d : Dev) (i c k t o n : Nat) (h0 : Dir z d) : Dir z (imageBytes d i c k t o n).1 := by
  unfold imageBytes
  repeat' first
    | with_reducible assumption
    | with_reducible apply imageFrame_dir
    | with_reducible apply imageSeq_dir
    | simp -implicitDefEqProofs only [Dir.lit]
    | split
    | intro _
    | dsimp only
theorem imageWord_dir (d : Dev) (i n : Nat) (w : WordLoc) (h0 : Dir z d) : Dir z (imageWord d i n w).1 := by
  unfold imageWord
  repeat' first
    | with_reducible assumption
    | with_reducible apply imageBytes_dir
    | simp -implicitDefEqProofs only [Dir.lit]
    | split
    | intro _
    | dsimp only
theorem essential_dir (d : Dev) (i n : Nat) (w : WordLoc) (fetch : Bool) (h0 : Dir z d) : Dir z (essential d i n w fetch).1 := by
  unfold essential
  repeat' first
    | with_reducible assumption
    | with_reducible apply imageBytes_dir
    | with_reducible apply imageWord_dir
    | simp -implicitDefEqProofs only [Dir.lit]
    | split
    | intro _
    | dsimp only
theorem scrLast_dir (d : Dev) (n : Nat) (w : WordLoc) (ess fetch : Bool) (h0 : Dir z d) : Dir z (scrLast d n w ess fetch) := by
  unfold scrLast
  repeat' first
    | with_reducible assumption
    | with_reducible apply on_dir
    | with_reducible apply p_dir
    | simp -implicitDefEqProofs only [Dir.lit, off_pSCR, page_pSCR, ge_pSCR]
    | split
    | intro _
    | dsimp only
theorem dueRewrite_dir (d : Dev) (n : Nat) (w : WordLoc) (reload : Bool) (h0 : Dir z d) : Dir z (dueRewrite d n w reload) := by
  unfold dueRewrite
  repeat' first
    | with_reducible assumption
    | simp -implicitDefEqProofs only [Dir.lit]
    | split
    | intro _
    | dsimp only
theorem upsetPolicy_dir (d : Dev) (i n : Nat) (w : WordLoc) (h0 : Dir z d) : Dir z (upsetPolicy d i n w) := by
  unfold upsetPolicy
  repeat' first
    | with_reducible assumption
    | with_reducible apply dueRewrite_dir
    | with_reducible apply freezeReq_dir
    | with_reducible apply imageWord_dir
    | with_reducible apply on_dir
    | simp -implicitDefEqProofs only [Dir.lit, off_pPTN, page_pPTN, ge_pPTN]
    | split
    | intro _
    | dsimp only
theorem doUpset_dir (d : Dev) (n : Nat) (w : WordLoc) (fetch : Bool) (h0 : Dir z d) : Dir z (doUpset d n w fetch) := by
  unfold doUpset
  repeat' first
    | with_reducible assumption
    | with_reducible apply add_dir
    | with_reducible apply dueRewrite_dir
    | with_reducible apply essential_dir
    | with_reducible apply irq_dir
    | with_reducible apply raise_dir
    | with_reducible apply scrLast_dir
    | with_reducible apply upsetPolicy_dir
    | simp -implicitDefEqProofs only [Dir.lit, off_pPTN, page_pPTN, ge_pPTN, off_pSCR, page_pSCR, ge_pSCR]
    | split
    | intro _
    | dsimp only
theorem putWord_dir (d : Dev) (n : Nat) (w : WordLoc) (v : Nat) (h0 : Dir z d) : Dir z (putWord d n w v) := by
  unfold putWord
  repeat' first
    | with_reducible assumption
    | with_reducible apply releaseWord_dir
    | with_reducible apply rewriteBp_dir
    | with_reducible apply rewriteWa_dir
    | with_reducible apply setMesh_dir
    | with_reducible apply setPort_dir
    | simp -implicitDefEqProofs only [Dir.lit]
    | split
    | intro _
    | dsimp only
theorem doUpsetRewrite_dir (d : Dev) (n : Nat) (w : WordLoc) (h0 : Dir z d) : Dir z (doUpsetRewrite d n w) := by
  unfold doUpsetRewrite
  repeat' first
    | with_reducible assumption
    | with_reducible apply add_dir
    | with_reducible apply imageWord_dir
    | with_reducible apply putWord_dir
    | simp -implicitDefEqProofs only [Dir.lit, off_pSCR, page_pSCR, ge_pSCR]
    | split
    | intro _
    | dsimp only
theorem scrubRead_dir (d : Dev) (n : Nat) (w : WordLoc) (h0 : Dir z d) : Dir z (scrubRead d n w) := by
  unfold scrubRead
  repeat' first
    | with_reducible assumption
    | with_reducible apply checkMesh_dir
    | with_reducible apply checkPort_dir
    | with_reducible apply fetchBp_dir
    | with_reducible apply fetchWa_dir
    | with_reducible apply readRow_dir
    | simp -implicitDefEqProofs only [Dir.lit]
    | split
    | intro _
    | dsimp only
theorem doWalkRead_dir (d : Dev) (n : Nat) (w : WordLoc) (h0 : Dir z d) : Dir z (doWalkRead d n w) := by
  unfold doWalkRead
  repeat' first
    | with_reducible assumption
    | with_reducible apply add_dir
    | with_reducible apply scrubRead_dir
    | simp -implicitDefEqProofs only [Dir.lit, off_pPTN, page_pPTN, ge_pPTN, off_pSCR, page_pSCR, ge_pSCR]
    | split
    | intro _
    | dsimp only
theorem doPassRequest_dir (d : Dev) (i : Nat) (h0 : Dir z d) : Dir z (doPassRequest d i) := by
  unfold doPassRequest
  repeat' first
    | with_reducible assumption
    | with_reducible apply p_dir
    | with_reducible apply scrubRequest_dir
    | simp -implicitDefEqProofs only [Dir.lit, off_pSCR, page_pSCR, ge_pSCR]
    | split
    | intro _
    | dsimp only
theorem doPassStart_dir (d : Dev) (h0 : Dir z d) : Dir z (doPassStart d) := by
  unfold doPassStart
  repeat' first
    | with_reducible assumption
    | with_reducible apply retryPasses_dir
    | simp -implicitDefEqProofs only [Dir.lit]
    | split
    | intro _
    | dsimp only
theorem passDiag_dir (d : Dev) (i : Nat) (found : Bool) (h0 : Dir z d) : Dir z (passDiag d i found) := by
  unfold passDiag
  repeat' first
    | with_reducible assumption
    | with_reducible apply irq_dir
    | with_reducible apply lscSend_dir
    | with_reducible apply p_dir
    | simp -implicitDefEqProofs only [Dir.lit, off_pLSC, page_pLSC, ge_pLSC]
    | split
    | intro _
    | dsimp only
theorem doPassComplete_dir (d : Dev) (h0 : Dir z d) : Dir z (doPassComplete d) := by
  unfold doPassComplete
  repeat' first
    | with_reducible assumption
    | with_reducible apply each_dir
    | with_reducible apply mntFree_dir
    | with_reducible apply p_dir
    | with_reducible apply passDiag_dir
    | with_reducible apply scrubRead_dir
    | simp -implicitDefEqProofs only [Dir.lit, off_pSCR, page_pSCR, ge_pSCR]
    | split
    | intro _
    | dsimp only
theorem putBit_dir (d : Dev) (base : Nat) (f : Fld) (k : Nat) (v : Bool) (h0 : Dir z d) (ho : Off base f) : Dir z (putBit d base f k v) := p_dir _ _ _ _ h0 ho
theorem toAcquire_dir (d : Dev) (gi : Nat) (h0 : Dir z d) : Dir z (toAcquire d gi) := by
  unfold toAcquire
  repeat' first
    | with_reducible assumption
    | with_reducible apply modLink_dir
    | with_reducible apply p_dir
    | simp -implicitDefEqProofs only [Dir.lit, off_pLGRP, page_pLGRP, ge_pLGRP]
    | split
    | intro _
    | dsimp only
theorem linkDown_dir (d : Dev) (gi cause next : Nat) (h0 : Dir z d) : Dir z (linkDown d gi cause next) := by
  unfold linkDown
  repeat' first
    | with_reducible assumption
    | with_reducible apply add_dir
    | with_reducible apply each_dir
    | with_reducible apply emit_dir
    | with_reducible apply irq_dir
    | with_reducible apply modLink_dir
    | with_reducible apply on_dir
    | with_reducible apply p_dir
    | with_reducible apply raise_dir
    | with_reducible apply slotErr_dir
    | with_reducible apply upstreamLoss_dir
    | simp -implicitDefEqProofs only [Dir.lit, off_pLGRP, page_pLGRP, ge_pLGRP]
    | split
    | intro _
    | dsimp only
theorem leaveUp_dir (d : Dev) (gi cause next : Nat) (h0 : Dir z d) : Dir z (leaveUp d gi cause next) := by
  unfold leaveUp
  repeat' first
    | with_reducible assumption
    | with_reducible apply linkDown_dir
    | simp -implicitDefEqProofs only [Dir.lit]
    | split
    | intro _
    | dsimp only
theorem loseLane_dir (d : Dev) (gi l : Nat) (h0 : Dir z d) : Dir z (loseLane d gi l) := by
  unfold loseLane
  repeat' first
    | with_reducible assumption
    | with_reducible apply leaveUp_dir
    | with_reducible apply modLink_dir
    | with_reducible apply toAcquire_dir
    | simp -implicitDefEqProofs only [Dir.lit]
    | split
    | intro _
    | dsimp only
theorem doLaneTest_dir (d : Dev) (gi : Nat) (h0 : Dir z d) : Dir z (doLaneTest d gi) := by
  unfold doLaneTest
  repeat' first
    | with_reducible assumption
    | with_reducible apply leaveUp_dir
    | with_reducible apply mntRequest_dir
    | with_reducible apply on_dir
    | with_reducible apply p_dir
    | with_reducible apply putBit_dir
    | with_reducible apply setLink_dir
    | simp -implicitDefEqProofs only [Dir.lit, off_pCKG, page_pCKG, ge_pCKG, off_pLGRP, page_pLGRP, ge_pLGRP, off_pLNK, page_pLNK, ge_pLNK, off_pTSB, page_pTSB, ge_pTSB]
    | split
    | intro _
    | dsimp only
theorem doLaneEnable_dir (d : Dev) (gi : Nat) (h0 : Dir z d) : Dir z (doLaneEnable d gi) := by
  unfold doLaneEnable
  repeat' first
    | with_reducible assumption
    | with_reducible apply doLaneTest_dir
    | with_reducible apply on_dir
    | with_reducible apply p_dir
    | with_reducible apply putBit_dir
    | with_reducible apply setLink_dir
    | with_reducible apply toAcquire_dir
    | simp -implicitDefEqProofs only [Dir.lit, off_pCKG, page_pCKG, ge_pCKG, off_pLGRP, page_pLGRP, ge_pLGRP]
    | split
    | intro _
    | dsimp only
theorem doLaneDisable_dir (d : Dev) (gi : Nat) (h0 : Dir z d) : Dir z (doLaneDisable d gi) := by
  unfold doLaneDisable
  repeat' first
    | with_reducible assumption
    | with_reducible apply leaveUp_dir
    | with_reducible apply mntFree_dir
    | with_reducible apply p_dir
    | with_reducible apply putBit_dir
    | with_reducible apply setLink_dir
    | simp -implicitDefEqProofs only [Dir.lit, off_pCKG, page_pCKG, ge_pCKG, off_pLGRP, page_pLGRP, ge_pLGRP]
    | split
    | intro _
    | dsimp only
theorem sendPeriod_dir (d : Dev) (gi l : Nat) (data : List Bool) (marker : BitVec 320) (h0 : Dir z d) : Dir z (sendPeriod d gi l data marker) := by
  unfold sendPeriod
  repeat' first
    | with_reducible assumption
    | with_reducible apply capLine_dir
    | with_reducible apply emit_dir
    | with_reducible apply lineOut_dir
    | with_reducible apply setLink_dir
    | simp -implicitDefEqProofs only [Dir.lit]
    | split
    | intro _
    | dsimp only
theorem holdInjection_dir (d : Dev) (gi : Nat) (h0 : Dir z d) : Dir z (holdInjection d gi) := by
  unfold holdInjection
  repeat' first
    | with_reducible assumption
    | with_reducible apply iff_dir
    | with_reducible apply modLink_dir
    | with_reducible apply on_dir
    | simp -implicitDefEqProofs only [Dir.lit, off_pLGRP, page_pLGRP, ge_pLGRP]
    | split
    | intro _
    | dsimp only
theorem doMarkerSend_dir (d : Dev) (gi : Nat) (h0 : Dir z d) : Dir z (doMarkerSend d gi) := by
  unfold doMarkerSend
  repeat' first
    | with_reducible assumption
    | with_reducible apply each_dir
    | with_reducible apply holdInjection_dir
    | with_reducible apply modLink_dir
    | with_reducible apply sendPeriod_dir
    | with_reducible apply setLink_dir
    | with_reducible apply tick_dir
    | simp -implicitDefEqProofs only [Dir.lit, off_pLGRP, page_pLGRP, ge_pLGRP]
    | split
    | intro _
    | dsimp only
theorem setRtt_dir (d : Dev) (gi rtt : Nat) (h0 : Dir z d) : Dir z (setRtt d gi rtt) := by
  unfold setRtt
  repeat' first
    | with_reducible assumption
    | with_reducible apply modLink_dir
    | with_reducible apply p_dir
    | simp -implicitDefEqProofs only [Dir.lit, off_pLGRP, page_pLGRP, ge_pLGRP]
    | split
    | intro _
    | dsimp only
theorem measure_dir (d : Dev) (gi v : Nat) (h0 : Dir z d) : Dir z (measure d gi v) := by
  unfold measure
  repeat' first
    | with_reducible assumption
    | with_reducible apply setRtt_dir
    | simp -implicitDefEqProofs only [Dir.lit]
    | split
    | intro _
    | dsimp only
theorem linkUp_dir (d : Dev) (gi ver : Nat) (h0 : Dir z d) : Dir z (linkUp d gi ver) := by
  unfold linkUp
  repeat' first
    | with_reducible assumption
    | with_reducible apply control_dir
    | with_reducible apply each_dir
    | with_reducible apply irq_dir
    | with_reducible apply modLink_dir
    | with_reducible apply p_dir
    | with_reducible apply foldl_dir
    | with_reducible apply fold1_dir
    | simp -implicitDefEqProofs only [Dir.lit, off_pLGRP, page_pLGRP, ge_pLGRP, off_pLNK, page_pLNK, ge_pLNK]
    | split
    | intro _
    | dsimp only
theorem tryUp_dir (d : Dev) (gi : Nat) (h0 : Dir z d) : Dir z (tryUp d gi) := by
  unfold tryUp
  repeat' first
    | with_reducible assumption
    | with_reducible apply linkUp_dir
    | simp -implicitDefEqProofs only [Dir.lit, off_pLGRP, page_pLGRP, ge_pLGRP]
    | split
    | intro _
    | dsimp only
theorem tryDeskew_dir (d : Dev) (gi v : Nat) (h0 : Dir z d) : Dir z (tryDeskew d gi v) := by
  unfold tryDeskew
  repeat' first
    | with_reducible assumption
    | with_reducible apply each_dir
    | with_reducible apply modLink_dir
    | with_reducible apply on_dir
    | with_reducible apply p_dir
    | with_reducible apply tick_dir
    | with_reducible apply toAcquire_dir
    | with_reducible apply foldl_dir
    | with_reducible apply fold1_dir
    | simp -implicitDefEqProofs only [Dir.lit, off_pLGRP, page_pLGRP, ge_pLGRP]
    | split
    | intro _
    | dsimp only
theorem noteMarker_dir (d : Dev) (gi l v ui : Nat) (h0 : Dir z d) : Dir z (noteMarker d gi l v ui) := by
  unfold noteMarker
  repeat' first
    | with_reducible assumption
    | with_reducible apply id_dir
    | with_reducible apply putBit_dir
    | with_reducible apply setLink_dir
    | simp -implicitDefEqProofs only [Dir.lit, off_pLGRP, page_pLGRP, ge_pLGRP]
    | split
    | intro _
    | dsimp only
theorem bringUp_dir (d : Dev) (gi l v : Nat) (h0 : Dir z d) : Dir z (bringUp d gi l v) := by
  unfold bringUp
  repeat' first
    | with_reducible assumption
    | with_reducible apply linkDown_dir
    | with_reducible apply measure_dir
    | with_reducible apply modLink_dir
    | with_reducible apply p_dir
    | with_reducible apply tryDeskew_dir
    | with_reducible apply tryUp_dir
    | simp -implicitDefEqProofs only [Dir.lit, off_pLGRP, page_pLGRP, ge_pLGRP]
    | split
    | intro _
    | dsimp only
theorem noteStamp_dir (d : Dev) (gi v : Nat) (h0 : Dir z d) : Dir z (noteStamp d gi v) := by
  unfold noteStamp
  repeat' first
    | with_reducible assumption
    | with_reducible apply modLink_dir
    | simp -implicitDefEqProofs only [Dir.lit]
    | split
    | intro _
    | dsimp only
theorem doMarker_dir (d : Dev) (gi l : Nat) (bits : BitVec 320) (ui : Nat) (h0 : Dir z d) : Dir z (doMarker d gi l bits ui) := by
  unfold doMarker
  repeat' first
    | with_reducible assumption
    | with_reducible apply bringUp_dir
    | with_reducible apply capLine_dir
    | with_reducible apply iff_dir
    | with_reducible apply loseLane_dir
    | with_reducible apply modLink_dir
    | with_reducible apply noteMarker_dir
    | with_reducible apply noteStamp_dir
    | with_reducible apply putBit_dir
    | simp -implicitDefEqProofs only [Dir.lit, off_pLGRP, page_pLGRP, ge_pLGRP]
    | split
    | intro _
    | dsimp only
theorem doAcqTimeout_dir (d : Dev) (gi : Nat) (h0 : Dir z d) : Dir z (doAcqTimeout d gi) := by
  unfold doAcqTimeout
  repeat' first
    | with_reducible assumption
    | with_reducible apply on_dir
    | simp -implicitDefEqProofs only [Dir.lit, off_pLGRP, page_pLGRP, ge_pLGRP]
    | split
    | intro _
    | dsimp only
theorem doLaneRecovered_dir (d : Dev) (gi l : Nat) (h0 : Dir z d) : Dir z (doLaneRecovered d gi l) := by
  unfold doLaneRecovered
  repeat' first
    | with_reducible assumption
    | with_reducible apply modLink_dir
    | simp -implicitDefEqProofs only [Dir.lit]
    | split
    | intro _
    | dsimp only
theorem linkSend_dir {d : Dev} {gi vc : Nat} {f : BitVec 256} {e : Dev} (h : d.linkSend gi vc f = some e) (h0 : Dir z d) : Dir z e := by
  unfold linkSend at h; dsimp only at h; split at h
  · cases h
  · simp only [Option.some.injEq] at h; rw [← h]; exact sendFlit_dir _ _ _ (setLink_dir _ _ _ h0)
theorem sendNull_dir (d : Dev) (gi : Nat) (nak : Bool) (h0 : Dir z d) : Dir z (sendNull d gi nak) := by
  unfold sendNull
  repeat' first
    | with_reducible assumption
    | with_reducible apply sendFlit_dir
    | simp -implicitDefEqProofs only [Dir.lit]
    | split
    | intro _
    | dsimp only
theorem sendFlits_dir {d : Dev} {gi vc : Nat} {fs : List (BitVec 256)} {e : Dev} (h : d.sendFlits gi vc fs = some e) (h0 : Dir z d) : Dir z e := by
  induction fs generalizing d with
  | nil => simp only [sendFlits, Option.some.injEq] at h; rw [← h]; exact h0
  | cons f fs ih =>
    unfold sendFlits at h; split at h
    · exact ih h (linkSend_dir (by assumption) h0)
    · cases h
theorem sendWaiting_dir (d : Dev) (gi : Nat) (h0 : Dir z d) : Dir z (sendWaiting d gi) := by
  unfold sendWaiting
  repeat' first
    | with_reducible assumption
    | with_reducible apply modLink_dir
    | with_reducible apply foldl_dir
    | with_reducible apply fold1_dir
    | simp -implicitDefEqProofs only [Dir.lit]
    | split
    | intro _
    | dsimp only
    | with_reducible refine sendFlits_dir (by assumption) ?_
theorem ackFlits_dir (d : Dev) (gi ack : Nat) (h0 : Dir z d) : Dir z (ackFlits d gi ack) := by
  unfold ackFlits
  repeat' first
    | with_reducible assumption
    | with_reducible apply modLink_dir
    | with_reducible apply sendWaiting_dir
    | simp -implicitDefEqProofs only [Dir.lit]
    | split
    | intro _
    | dsimp only
theorem nakFlits_dir (d : Dev) (gi ack : Nat) (h0 : Dir z d) : Dir z (nakFlits d gi ack) := by
  unfold nakFlits
  repeat' first
    | with_reducible assumption
    | with_reducible apply add_dir
    | with_reducible apply each_dir
    | with_reducible apply linkDown_dir
    | with_reducible apply raise_dir
    | with_reducible apply sendFlit_dir
    | with_reducible apply setLink_dir
    | with_reducible apply toAcquire_dir
    | simp -implicitDefEqProofs only [Dir.lit, off_pLGRP, page_pLGRP, ge_pLGRP]
    | split
    | intro _
    | dsimp only
theorem deliverFlits_dir (d : Dev) (gi : Nat) (h0 : Dir z d) : Dir z (deliverFlits d gi) := by
  unfold deliverFlits
  repeat' first
    | with_reducible assumption
    | with_reducible apply emit_dir
    | with_reducible apply modLink_dir
    | simp -implicitDefEqProofs only [Dir.lit]
    | split
    | intro _
    | dsimp only
theorem doLinkFlit_dir (d : Dev) (gi : Nat) (bits : BitVec 320) (bad : Bool) (h0 : Dir z d) : Dir z (doLinkFlit d gi bits bad) := by
  unfold doLinkFlit
  repeat' first
    | with_reducible assumption
    | with_reducible apply ackFlits_dir
    | with_reducible apply add_dir
    | with_reducible apply control_dir
    | with_reducible apply deliverFlits_dir
    | with_reducible apply modLink_dir
    | with_reducible apply nakFlits_dir
    | with_reducible apply sendNull_dir
    | with_reducible apply setLink_dir
    | simp -implicitDefEqProofs only [Dir.lit, off_pLGRP, page_pLGRP, ge_pLGRP]
    | split
    | intro _
    | dsimp only
theorem doCredit_dir (d : Dev) (gi vc count : Nat) (intact : Bool) (h0 : Dir z d) : Dir z (doCredit d gi vc count intact) := by
  unfold doCredit
  repeat' first
    | with_reducible assumption
    | with_reducible apply ctlBad_dir
    | with_reducible apply modLink_dir
    | with_reducible apply sendWaiting_dir
    | simp -implicitDefEqProofs only [Dir.lit]
    | split
    | intro _
    | dsimp only
theorem doFreezeMsg_dir (d : Dev) (gi origin n : Nat) (intact : Bool) (h0 : Dir z d) : Dir z (doFreezeMsg d gi origin n intact) := by
  unfold doFreezeMsg
  repeat' first
    | with_reducible assumption
    | with_reducible apply ctlBad_dir
    | with_reducible apply floodFreeze_dir
    | simp -implicitDefEqProofs only [Dir.lit]
    | split
    | intro _
    | dsimp only
theorem controlMessage_dir (d : Dev) (gi msg : Nat) (h0 : Dir z d) : Dir z (controlMessage d gi msg) := by
  unfold controlMessage
  repeat' first
    | with_reducible assumption
    | with_reducible apply doBeacon_dir
    | with_reducible apply doCredit_dir
    | with_reducible apply doFreezeMsg_dir
    | with_reducible apply doGo_dir
    | with_reducible apply doHold_dir
    | with_reducible apply doLinkedCommand_dir
    | with_reducible apply doReady_dir
    | with_reducible apply doSteps_dir
    | simp -implicitDefEqProofs only [Dir.lit]
    | split
    | intro _
    | dsimp only
theorem takeFragment_dir (d : Dev) (gi header : Nat) (bad : Bool) (h0 : Dir z d) : Dir z (takeFragment d gi header bad) := by
  unfold takeFragment
  repeat' first
    | with_reducible assumption
    | with_reducible apply controlMessage_dir
    | with_reducible apply ctlBad_dir
    | with_reducible apply modLink_dir
    | with_reducible apply foldl_dir
    | with_reducible apply fold1_dir
    | simp -implicitDefEqProofs only [Dir.lit]
    | split
    | intro _
    | dsimp only
theorem takeFields_dir (d : Dev) (gi m : Nat) (h0 : Dir z d) : Dir z (takeFields d gi m) := by
  induction m generalizing d with
  | zero => exact h0
  | succ m ih =>
    unfold takeFields
    repeat' first
      | with_reducible assumption
      | with_reducible apply ih
      | with_reducible apply doLinkFlit_dir
      | with_reducible apply modLink_dir
      | exact fun _ => ⟨Eq.refl _, Eq.refl _⟩
      | exact Eq.refl _
      | simp -implicitDefEqProofs only [Dir.lit]
      | split
      | intro _
      | dsimp only
theorem takePackets_dir (d : Dev) (gi frame bad n : Nat) (h0 : Dir z d) : Dir z (takePackets d gi frame bad n) := by
  unfold takePackets
  repeat' first
    | with_reducible assumption
    | with_reducible apply modLink_dir
    | with_reducible apply takeFields_dir
    | simp -implicitDefEqProofs only [Dir.lit]
    | split
    | intro _
    | dsimp only
theorem offerFrame_dir (d : Dev) (gi frame : Nat) (h0 : Dir z d) : Dir z (offerFrame d gi frame) := by
  unfold offerFrame
  repeat' first
    | with_reducible assumption
    | with_reducible apply each_dir
    | with_reducible apply offerLane_dir
    | simp -implicitDefEqProofs only [Dir.lit]
    | split
    | intro _
    | dsimp only
theorem takeSlots_dir (d : Dev) (gi k : Nat) (fields : List W32) (h0 : Dir z d) : Dir z (takeSlots d gi k fields) := by
  unfold takeSlots
  repeat' first
    | with_reducible assumption
    | with_reducible apply add_dir
    | with_reducible apply modLink_dir
    | with_reducible apply p_dir
    | with_reducible apply slotErr_dir
    | simp -implicitDefEqProofs only [Dir.lit, off_pLGRP, page_pLGRP, ge_pLGRP, off_pLNK, page_pLNK, ge_pLNK]
    | split
    | intro _
    | dsimp only
theorem doSlotFrame_dir (d : Dev) (gi k frame n bad : Nat) (h0 : Dir z d) : Dir z (doSlotFrame d gi k frame n bad) := by
  unfold doSlotFrame
  repeat' first
    | with_reducible assumption
    | with_reducible apply iff_dir
    | with_reducible apply offerFrame_dir
    | with_reducible apply slotErr_dir
    | with_reducible apply takeFragment_dir
    | with_reducible apply takePackets_dir
    | with_reducible apply takeSlots_dir
    | simp -implicitDefEqProofs only [Dir.lit, off_pLGRP, page_pLGRP, ge_pLGRP, off_pLNK, page_pLNK, ge_pLNK]
    | split
    | intro _
    | dsimp only
theorem doStepFrame_dir (d : Dev) (gi frame bad : Nat) (h0 : Dir z d) : Dir z (doStepFrame d gi frame bad) := by
  unfold doStepFrame
  repeat' first
    | with_reducible assumption
    | with_reducible apply add_dir
    | with_reducible apply doSlotFrame_dir
    | with_reducible apply modLink_dir
    | with_reducible apply offerFrame_dir
    | with_reducible apply slotErr_dir
    | with_reducible apply takeFragment_dir
    | with_reducible apply takePackets_dir
    | simp -implicitDefEqProofs only [Dir.lit, off_pLGRP, page_pLGRP, ge_pLGRP]
    | split
    | intro _
    | dsimp only
theorem takeFrames_dir (d : Dev) (gi m : Nat) (h0 : Dir z d) : Dir z (takeFrames d gi m) := by
  induction m generalizing d with
  | zero => exact h0
  | succ m ih =>
    unfold takeFrames
    repeat' first
      | with_reducible assumption
      | with_reducible apply ih
      | with_reducible apply stepEnd_dir
      | with_reducible apply doStepFrame_dir
      | with_reducible apply setLink_dir
      | exact fun _ => ⟨Eq.refl _, Eq.refl _⟩
      | exact Eq.refl _
      | simp -implicitDefEqProofs only [Dir.lit]
      | split
      | intro _
      | dsimp only
theorem takeCodeword_dir (d : Dev) (gi l : Nat) (symbols : List Nat) (bad : Bool) (h0 : Dir z d) : Dir z (takeCodeword d gi l symbols bad) := by
  unfold takeCodeword
  repeat' first
    | with_reducible assumption
    | with_reducible apply capLine_dir
    | with_reducible apply modLink_dir
    | with_reducible apply setLink_dir
    | with_reducible apply takeFrames_dir
    | simp -implicitDefEqProofs only [Dir.lit, off_pLGRP, page_pLGRP, ge_pLGRP]
    | split
    | intro _
    | dsimp only
theorem doCodeword_dir (d : Dev) (gi l : Nat) (symbols : List Nat) (h0 : Dir z d) : Dir z (doCodeword d gi l symbols) := by
  unfold doCodeword
  repeat' first
    | with_reducible assumption
    | with_reducible apply add_dir
    | with_reducible apply capLine_dir
    | with_reducible apply irq_dir
    | with_reducible apply loseLane_dir
    | with_reducible apply modLink_dir
    | with_reducible apply raise_dir
    | with_reducible apply takeCodeword_dir
    | simp -implicitDefEqProofs only [Dir.lit, off_pLGRP, page_pLGRP, ge_pLGRP]
    | split
    | intro _
    | dsimp only
theorem doInjGo_dir (d : Dev) (gi : Nat) (h0 : Dir z d) : Dir z (doInjGo d gi) := by
  unfold doInjGo
  repeat' first
    | with_reducible assumption
    | with_reducible apply modLink_dir
    | with_reducible apply on_dir
    | simp -implicitDefEqProofs only [Dir.lit, off_pLGRP, page_pLGRP, ge_pLGRP]
    | split
    | intro _
    | dsimp only
theorem doLgrpClr_dir (d : Dev) (gi : Nat) (h0 : Dir z d) : Dir z (doLgrpClr d gi) := by
  unfold doLgrpClr
  repeat' first
    | with_reducible assumption
    | with_reducible apply resetRange_dir
    | with_reducible apply far_add
    | with_reducible apply far_self
    | with_reducible apply le_far
    | simp -implicitDefEqProofs only [Dir.lit, off_pLGRP, page_pLGRP, ge_pLGRP]
    | split
    | intro _
    | dsimp only
theorem doClrSlack_dir (d : Dev) (gi : Nat) (h0 : Dir z d) : Dir z (doClrSlack d gi) := by
  unfold doClrSlack
  repeat' first
    | with_reducible assumption
    | with_reducible apply p_dir
    | simp -implicitDefEqProofs only [Dir.lit, off_pLGRP, page_pLGRP, ge_pLGRP]
    | split
    | intro _
    | dsimp only
theorem testSample_dir (d : Dev) (gi l : Nat) (bit : Bool) (h0 : Dir z d) : Dir z (testSample d gi l bit) := by
  unfold testSample
  repeat' first
    | with_reducible assumption
    | with_reducible apply capLine_dir
    | with_reducible apply offerLane_dir
    | with_reducible apply setLink_dir
    | with_reducible apply stepEnd_dir
    | simp -implicitDefEqProofs only [Dir.lit]
    | split
    | intro _
    | dsimp only
theorem prbsBit_dir (d : Dev) (gi l : Nat) (bit : Bool) (h0 : Dir z d) : Dir z (prbsBit d gi l bit) := by
  unfold prbsBit
  repeat' first
    | with_reducible assumption
    | with_reducible apply add_dir
    | with_reducible apply id_dir
    | with_reducible apply irq_dir
    | with_reducible apply modLink_dir
    | with_reducible apply putBit_dir
    | with_reducible apply setLink_dir
    | simp -implicitDefEqProofs only [Dir.lit, off_pLGRP, page_pLGRP, ge_pLGRP]
    | split
    | intro _
    | dsimp only
theorem generate_dir (d : Dev) (gi l n : Nat) (h0 : Dir z d) : Dir z (generate d gi l n).1 := by
  unfold generate
  repeat' first
    | with_reducible assumption
    | with_reducible apply modLink_dir
    | with_reducible apply setLink_dir
    | simp -implicitDefEqProofs only [Dir.lit, off_pLGRP, page_pLGRP, ge_pLGRP]
    | split
    | intro _
    | dsimp only
theorem doPrbsCheck_dir (d : Dev) (gi l : Nat) (bits : List Bool) (h0 : Dir z d) : Dir z (doPrbsCheck d gi l bits) := by
  unfold doPrbsCheck
  repeat' first
    | with_reducible assumption
    | with_reducible apply capLine_dir
    | with_reducible apply each_dir
    | with_reducible apply generate_dir
    | with_reducible apply lineOut_dir
    | with_reducible apply prbsBit_dir
    | with_reducible apply testSample_dir
    | simp -implicitDefEqProofs only [Dir.lit, off_pLGRP, page_pLGRP, ge_pLGRP]
    | split
    | intro _
    | dsimp only
theorem doBridgeEnable_dir (d : Dev) (gi l : Nat) (tx rx : Bool) (h0 : Dir z d) : Dir z (doBridgeEnable d gi l tx rx) := by
  unfold doBridgeEnable
  repeat' first
    | with_reducible assumption
    | with_reducible apply modLink_dir
    | with_reducible apply on_dir
    | with_reducible apply p_dir
    | with_reducible apply putBit_dir
    | simp -implicitDefEqProofs only [Dir.lit, off_pLGRP, page_pLGRP, ge_pLGRP]
    | split
    | intro _
    | dsimp only
theorem bridgeStore_dir (d : Dev) (gi l : Nat) (w : W64) (h0 : Dir z d) : Dir z (bridgeStore d gi l w) := by
  unfold bridgeStore
  repeat' first
    | with_reducible assumption
    | with_reducible apply add_dir
    | with_reducible apply append_dir
    | with_reducible apply dropWrite_dir
    | with_reducible apply irq_dir
    | with_reducible apply notifyKinds_dir
    | simp -implicitDefEqProofs only [Dir.lit, off_pLGRP, page_pLGRP, ge_pLGRP]
    | split
    | intro _
    | dsimp only
theorem doBridgeReceive_dir (d : Dev) (gi l : Nat) (w : W64) (h0 : Dir z d) : Dir z (doBridgeReceive d gi l w) := by
  unfold doBridgeReceive
  repeat' first
    | with_reducible assumption
    | with_reducible apply bridgeStore_dir
    | with_reducible apply capLine_dir
    | with_reducible apply modLink_dir
    | with_reducible apply offerLane_dir
    | with_reducible apply putBit_dir
    | with_reducible apply setLink_dir
    | simp -implicitDefEqProofs only [Dir.lit, off_pLGRP, page_pLGRP, ge_pLGRP]
    | split
    | intro _
    | dsimp only
theorem bridgeOut_dir (d : Dev) (gi l : Nat) (w : W64) (h0 : Dir z d) : Dir z (bridgeOut d gi l w) := by
  unfold bridgeOut
  repeat' first
    | with_reducible assumption
    | with_reducible apply capLine_dir
    | with_reducible apply emit_dir
    | with_reducible apply lineOut_dir
    | simp -implicitDefEqProofs only [Dir.lit]
    | split
    | intro _
    | dsimp only
theorem doBridgeTransmit_dir (d : Dev) (gi l : Nat) (h0 : Dir z d) : Dir z (doBridgeTransmit d gi l) := by
  unfold doBridgeTransmit
  repeat' first
    | with_reducible assumption
    | with_reducible apply bridgeOut_dir
    | with_reducible apply markBound_dir
    | simp -implicitDefEqProofs only [Dir.lit, off_pLGRP, page_pLGRP, ge_pLGRP]
    | split
    | intro _
    | dsimp only
    | with_reducible refine takeHead_dir (by assumption) ?_
theorem nocError_dir (d : Dev) (kind src dst vc x y : Nat) (h0 : Dir z d) : Dir z (nocError d kind src dst vc x y) := by
  unfold nocError
  repeat' first
    | with_reducible assumption
    | with_reducible apply on_dir
    | with_reducible apply p_dir
    | simp -implicitDefEqProofs only [Dir.lit, off_pNOC, page_pNOC, ge_pNOC]
    | split
    | intro _
    | dsimp only
theorem headerError_dir (d : Dev) (v x y : Nat) (h0 : Dir z d) : Dir z (headerError d v x y) := by
  unfold headerError
  repeat' first
    | with_reducible assumption
    | with_reducible apply add_dir
    | with_reducible apply irq_dir
    | with_reducible apply nocError_dir
    | with_reducible apply raise_dir
    | simp -implicitDefEqProofs only [Dir.lit, off_pNOC, page_pNOC, ge_pNOC]
    | split
    | intro _
    | dsimp only
theorem headerFixed_dir (d : Dev) (v x y : Nat) (h0 : Dir z d) : Dir z (headerFixed d v x y) := by
  unfold headerFixed
  repeat' first
    | with_reducible assumption
    | with_reducible apply add_dir
    | with_reducible apply nocError_dir
    | with_reducible apply raise_dir
    | simp -implicitDefEqProofs only [Dir.lit, off_pNOC, page_pNOC, ge_pNOC]
    | split
    | intro _
    | dsimp only
theorem checkPayload_dir (d : Dev) (k : Packet) (h0 : Dir z d) : Dir z (checkPayload d k) := by
  unfold checkPayload
  repeat' first
    | with_reducible assumption
    | with_reducible apply add_dir
    | with_reducible apply irq_dir
    | with_reducible apply nocError_dir
    | with_reducible apply raise_dir
    | simp -implicitDefEqProofs only [Dir.lit, off_pNOC, page_pNOC, ge_pNOC]
    | split
    | intro _
    | dsimp only
theorem runProbe_dir (d : Dev) (k v x y out : Nat) (h0 : Dir z d) : Dir z (runProbe d k v x y out) := by
  unfold runProbe
  repeat' first
    | with_reducible assumption
    | with_reducible apply add_dir
    | with_reducible apply offer_dir
    | with_reducible apply traceProbe_dir
    | simp -implicitDefEqProofs only [Dir.lit, off_pNOC, page_pNOC, ge_pNOC]
    | split
    | intro _
    | dsimp only
theorem probeHeader_dir (d : Dev) (v x y out : Nat) (h0 : Dir z d) : Dir z (probeHeader d v x y out) := by
  unfold probeHeader
  repeat' first
    | with_reducible assumption
    | with_reducible apply each_dir
    | with_reducible apply runProbe_dir
    | simp -implicitDefEqProofs only [Dir.lit]
    | split
    | intro _
    | dsimp only
theorem setFlits_dir (d : Dev) (x y inp vc : Nat) (fs : List Flit) (h0 : Dir z d) : Dir z (setFlits d x y inp vc fs) := by
  unfold setFlits
  repeat' first
    | with_reducible assumption
    | simp -implicitDefEqProofs only [Dir.lit]
    | split
    | intro _
    | dsimp only
theorem setDrop_dir (d : Dev) (x y inp vc : Nat) (on : Bool) (h0 : Dir z d) : Dir z (setDrop d x y inp vc on) := by
  unfold setDrop
  repeat' first
    | with_reducible assumption
    | with_reducible apply on_dir
    | simp -implicitDefEqProofs only [Dir.lit]
    | split
    | intro _
    | dsimp only
theorem checkHeader_dir (d : Dev) (hdr : BitVec 256) (x y : Nat) (h0 : Dir z d) : Dir z (checkHeader d hdr x y).1 := by
  unfold checkHeader
  repeat' first
    | with_reducible assumption
    | with_reducible apply headerError_dir
    | with_reducible apply headerFixed_dir
    | with_reducible apply respond_dir
    | simp -implicitDefEqProofs only [Dir.lit]
    | split
    | intro _
    | dsimp only
theorem flitArrives_dir (d : Dev) (x y inp vc : Nat) (f : Flit) (h0 : Dir z d) : Dir z (flitArrives d x y inp vc f) := by
  unfold flitArrives
  repeat' first
    | with_reducible assumption
    | with_reducible apply checkHeader_dir
    | with_reducible apply setDrop_dir
    | with_reducible apply setFlits_dir
    | simp -implicitDefEqProofs only [Dir.lit]
    | split
    | intro _
    | dsimp only
theorem paced_dir (d : Dev) (x y out : Nat) (vc : Option Nat) (h0 : Dir z d) : Dir z (paced d x y out vc) := by
  unfold paced
  repeat' first
    | with_reducible assumption
    | simp -implicitDefEqProofs only [Dir.lit]
    | split
    | intro _
    | dsimp only
theorem passFlit_dir (d : Dev) (x y out vc inp : Nat) (h0 : Dir z d) : Dir z (passFlit d x y out vc inp) := by
  unfold passFlit
  repeat' first
    | with_reducible assumption
    | with_reducible apply emit_dir
    | with_reducible apply flitArrives_dir
    | with_reducible apply probeHeader_dir
    | with_reducible apply setFlits_dir
    | simp -implicitDefEqProofs only [Dir.lit]
    | split
    | intro _
    | dsimp only
theorem outputClock_dir (d : Dev) (x y out : Nat) (h0 : Dir z d) : Dir z (outputClock d x y out) := by
  unfold outputClock
  repeat' first
    | with_reducible assumption
    | with_reducible apply paced_dir
    | with_reducible apply passFlit_dir
    | simp -implicitDefEqProofs only [Dir.lit]
    | split
    | intro _
    | dsimp only
theorem doPacketHop_dir (d : Dev) (x y : Nat) (ins : List (Fin 9 × Fin 4 × Flit)) (h0 : Dir z d) : Dir z (doPacketHop d x y ins) := by
  unfold doPacketHop
  repeat' first
    | with_reducible assumption
    | with_reducible apply each_dir
    | with_reducible apply flitArrives_dir
    | with_reducible apply outputClock_dir
    | with_reducible apply tick_dir
    | simp -implicitDefEqProofs only [Dir.lit]
    | split
    | intro _
    | dsimp only
theorem doRouteWrite_dir (d : Dev) (port idx : Nat) (e : Nat) (h0 : Dir z d) : Dir z (doRouteWrite d port idx e) := by
  unfold doRouteWrite
  repeat' first
    | with_reducible assumption
    | with_reducible apply irq_dir
    | with_reducible apply on_dir
    | simp -implicitDefEqProofs only [Dir.lit, off_pNOC, page_pNOC, ge_pNOC]
    | split
    | intro _
    | dsimp only
theorem courierFail_dir (d : Dev) (src : Nat) (h0 : Dir z d) : Dir z (courierFail d src) := by
  unfold courierFail
  repeat' first
    | with_reducible assumption
    | with_reducible apply setCourier_dir
    | simp -implicitDefEqProofs only [Dir.lit]
    | split
    | intro _
    | dsimp only
theorem hostFail_dir (d : Dev) (o : Outst) (h0 : Dir z d) : Dir z (hostFail d o) := by
  unfold hostFail
  repeat' first
    | with_reducible assumption
    | with_reducible apply accessError_dir
    | with_reducible apply emit_dir
    | simp -implicitDefEqProofs only [Dir.lit]
    | split
    | intro _
    | dsimp only
theorem clusterFail_dir (d : Dev) (o : Outst) (status : Nat) (h0 : Dir z d) : Dir z (clusterFail d o status) := by
  unfold clusterFail
  repeat' first
    | with_reducible assumption
    | with_reducible apply farAnswered_dir
    | with_reducible apply farStatus_dir
    | with_reducible apply farTimeout_dir
    | with_reducible apply tick_dir
    | simp -implicitDefEqProofs only [Dir.lit]
    | split
    | intro _
    | dsimp only
theorem gatewayTakes_dir (d : Dev) (gi : Nat) (k : Packet) (data : Bool) (h0 : Dir z d) : Dir z (gatewayTakes d gi k data) := by
  unfold gatewayTakes
  repeat' first
    | with_reducible assumption
    | with_reducible apply modLink_dir
    | with_reducible apply sendWaiting_dir
    | simp -implicitDefEqProofs only [Dir.lit]
    | split
    | intro _
    | dsimp only
theorem failed_dir (d : Dev) (o : Outst) (status : Nat) (h0 : Dir z d) : Dir z (failed d o status) := by
  unfold failed
  repeat' first
    | with_reducible assumption
    | with_reducible apply clusterFail_dir
    | with_reducible apply courierFail_dir
    | with_reducible apply gatewayTakes_dir
    | with_reducible apply hostFail_dir
    | with_reducible apply synthesise_dir
    | simp -implicitDefEqProofs only [Dir.lit]
    | split
    | intro _
    | dsimp only
theorem request_dir (d : Dev) (k : Packet) (write : Bool) (serve : Packet → Dev → Req → Dev) (h0 : Dir z d) (hs : ∀ p e r, Dir z e → Dir z (serve p e r)) : Dir z (request d k write serve) := by
  unfold request
  repeat' first
    | with_reducible assumption
    | with_reducible apply hs
    | with_reducible apply failed_dir
    | with_reducible apply noRoute_dir
    | with_reducible apply respond_dir
    | with_reducible apply headerError_dir
    | with_reducible apply emit_dir
    | with_reducible apply addOutst_dir
    | exact fun _ => ⟨Eq.refl _, Eq.refl _⟩
    | exact Eq.refl _
    | simp -implicitDefEqProofs only [Dir.lit]
    | split
    | intro _
    | dsimp only
theorem refuseAccess_dir (d : Dev) (k : Packet) (r : Req) (write : Bool) (h0 : Dir z d) : Dir z (refuseAccess d k r write) := by
  unfold refuseAccess
  repeat' first
    | with_reducible assumption
    | with_reducible apply innerError_dir
    | with_reducible apply respond_dir
    | simp -implicitDefEqProofs only [Dir.lit]
    | split
    | intro _
    | dsimp only
theorem serveQueue_dir (write : Bool) (act : Packet → Dev → Nat → Dev) (k : Packet) (d : Dev) (r : Req) (h0 : Dir z d) (ha : ∀ p e q, Dir z e → Dir z (act p e q)) : Dir z (serveQueue write act k d r) := by
  unfold serveQueue
  repeat' first
    | with_reducible assumption
    | with_reducible apply ha
    | with_reducible apply unreachable_dir
    | with_reducible apply respond_dir
    | with_reducible apply refuseAccess_dir
    | with_reducible apply checkPayload_dir
    | exact fun _ => ⟨Eq.refl _, Eq.refl _⟩
    | exact Eq.refl _
    | simp -implicitDefEqProofs only [Dir.lit]
    | split
    | intro _
    | dsimp only
theorem dropQwr_dir (d : Dev) (q : Nat) (k : Packet) (h0 : Dir z d) : Dir z (dropQwr d q k) := by
  unfold dropQwr
  repeat' first
    | with_reducible assumption
    | with_reducible apply dropWrite_dir
    | with_reducible apply notifyKinds_dir
    | with_reducible apply respond_dir
    | simp -implicitDefEqProofs only [Dir.lit]
    | split
    | intro _
    | dsimp only
theorem doQwr_dir (k : Packet) (d : Dev) (q : Nat) (h0 : Dir z d) : Dir z (doQwr k d q) := by
  unfold doQwr
  repeat' first
    | with_reducible assumption
    | with_reducible apply acceptQwr_dir
    | with_reducible apply dropQwr_dir
    | with_reducible apply setQueue_dir
    | simp -implicitDefEqProofs only [Dir.lit]
    | split
    | intro _
    | dsimp only
theorem doQrd_dir (k : Packet) (d : Dev) (q : Nat) (h0 : Dir z d) : Dir z (doQrd k d q) := by
  unfold doQrd
  repeat' first
    | with_reducible assumption
    | with_reducible apply answerQrd_dir
    | with_reducible apply markBound_dir
    | with_reducible apply modQueue_dir
    | with_reducible apply respond_dir
    | simp -implicitDefEqProofs only [Dir.lit]
    | split
    | intro _
    | dsimp only
theorem markDataErr_dir (d : Dev) (b : CapBlk) (h0 : Dir z d) : Dir z (markDataErr d b) := by
  unfold markDataErr
  repeat' first
    | with_reducible assumption
    | with_reducible apply hbmGet_dir
    | with_reducible apply hbmPut_dir
    | with_reducible apply setChan_dir
    | simp -implicitDefEqProofs only [Dir.lit, off_pCAP, page_pCAP, ge_pCAP]
    | split
    | intro _
    | dsimp only
theorem countDataErr_dir (d : Dev) (h0 : Dir z d) : Dir z (countDataErr d) := by
  unfold countDataErr
  repeat' first
    | with_reducible assumption
    | with_reducible apply add_dir
    | with_reducible apply irq_dir
    | simp -implicitDefEqProofs only [Dir.lit, off_pCAP, page_pCAP, ge_pCAP]
    | split
    | intro _
    | dsimp only
theorem doCapWr_dir (d : Dev) (k : Packet) (h0 : Dir z d) : Dir z (doCapWr d k) := by
  unfold doCapWr
  repeat' first
    | with_reducible assumption
    | with_reducible apply checkPayload_dir
    | with_reducible apply countDataErr_dir
    | with_reducible apply hbmWrite_dir
    | with_reducible apply iff_dir
    | with_reducible apply markDataErr_dir
    | with_reducible apply raise_dir
    | simp -implicitDefEqProofs only [Dir.lit]
    | split
    | intro _
    | dsimp only
theorem blockWritten_dir (d : Dev) (s : Nat) (h0 : Dir z d) : Dir z (blockWritten d s) := by
  unfold blockWritten
  repeat' first
    | with_reducible assumption
    | with_reducible apply add_dir
    | with_reducible apply modStrm_dir
    | with_reducible apply on_dir
    | with_reducible apply p_dir
    | with_reducible apply stopStream_dir
    | with_reducible apply traceIrq_dir
    | simp -implicitDefEqProofs only [Dir.lit, off_pTRC, page_pTRC, ge_pTRC]
    | split
    | intro _
    | dsimp only
theorem doTrcWr_dir (d : Dev) (k : Packet) (h0 : Dir z d) : Dir z (doTrcWr d k) := by
  unfold doTrcWr
  repeat' first
    | with_reducible assumption
    | with_reducible apply blockWritten_dir
    | with_reducible apply checkPayload_dir
    | with_reducible apply emit_dir
    | with_reducible apply hbmWrite_dir
    | with_reducible apply iff_dir
    | with_reducible apply loseBlock_dir
    | with_reducible apply noteLoss_dir
    | with_reducible apply setStrm_dir
    | simp -implicitDefEqProofs only [Dir.lit]
    | split
    | intro _
    | dsimp only
theorem lateRsp_dir (d : Dev) (h0 : Dir z d) : Dir z (lateRsp d) := by
  unfold lateRsp
  repeat' first
    | with_reducible assumption
    | with_reducible apply add_dir
    | simp -implicitDefEqProofs only [Dir.lit, off_pNOC, page_pNOC, ge_pNOC]
    | split
    | intro _
    | dsimp only
theorem poison_dir (d : Dev) (fn : Fn) (a : Nat) (bs : List Byte) (h0 : Dir z d) : Dir z (poison d fn a bs) := by
  unfold poison
  repeat' first
    | with_reducible assumption
    | with_reducible apply add_dir
    | with_reducible apply emit_dir
    | with_reducible apply irq_dir
    | with_reducible apply on_dir
    | simp -implicitDefEqProofs only [Dir.lit, off_pCFG, page_pCFG, ge_pCFG, off_pPCI, page_pPCI, ge_pPCI]
    | split
    | intro _
    | dsimp only
theorem deliver_dir (d : Dev) (o : Outst) (k : Packet) (data : Bool) (h0 : Dir z d) : Dir z (deliver d o k data) := by
  unfold deliver
  repeat' first
    | with_reducible assumption
    | with_reducible apply accessError_dir
    | with_reducible apply checkPayload_dir
    | with_reducible apply courierFail_dir
    | with_reducible apply emit_dir
    | with_reducible apply farAnswered_dir
    | with_reducible apply farStatus_dir
    | with_reducible apply hostFail_dir
    | with_reducible apply poison_dir
    | with_reducible apply tick_dir
    | simp -implicitDefEqProofs only [Dir.lit]
    | split
    | intro _
    | dsimp only
theorem doResponse_dir (d : Dev) (k : Packet) (data : Bool) (h0 : Dir z d) : Dir z (doResponse d k data) := by
  unfold doResponse
  repeat' first
    | with_reducible assumption
    | with_reducible apply deliver_dir
    | with_reducible apply freeOutst_dir
    | with_reducible apply gatewayTakes_dir
    | with_reducible apply lateRsp_dir
    | simp -implicitDefEqProofs only [Dir.lit]
    | split
    | intro _
    | dsimp only
theorem doRspTimeout_dir (d : Dev) (src tag : Nat) (h0 : Dir z d) : Dir z (doRspTimeout d src tag) := by
  unfold doRspTimeout
  repeat' first
    | with_reducible assumption
    | with_reducible apply add_dir
    | with_reducible apply failed_dir
    | with_reducible apply freeOutst_dir
    | with_reducible apply raise_dir
    | simp -implicitDefEqProofs only [Dir.lit, off_pNOC, page_pNOC, ge_pNOC]
    | split
    | intro _
    | dsimp only
theorem doQuarantineEnd_dir (d : Dev) (src tag : Nat) (h0 : Dir z d) : Dir z (doQuarantineEnd d src tag) := by
  unfold doQuarantineEnd
  repeat' first
    | with_reducible assumption
    | simp -implicitDefEqProofs only [Dir.lit]
    | split
    | intro _
    | dsimp only
theorem doDrainComplete_dir (d : Dev) (n : Nat) (h0 : Dir z d) : Dir z (doDrainComplete d n) := by
  unfold doDrainComplete
  repeat' first
    | with_reducible assumption
    | with_reducible apply fenceNi_dir
    | simp -implicitDefEqProofs only [Dir.lit]
    | split
    | intro _
    | dsimp only
theorem doDrainTimeout_dir (d : Dev) (n : Nat) (h0 : Dir z d) : Dir z (doDrainTimeout d n) := by
  unfold doDrainTimeout
  repeat' first
    | with_reducible assumption
    | with_reducible apply abandon_dir
    | with_reducible apply add_dir
    | with_reducible apply each_dir
    | with_reducible apply fenceNi_dir
    | with_reducible apply irq_dir
    | with_reducible apply landFar_dir
    | with_reducible apply nocError_dir
    | with_reducible apply p_dir
    | with_reducible apply raise_dir
    | with_reducible apply setFar_dir
    | with_reducible apply settleFences_dir
    | with_reducible apply tick_dir
    | simp -implicitDefEqProofs only [Dir.lit, off_pNOC, page_pNOC, ge_pNOC]
    | split
    | intro _
    | dsimp only
theorem unfenceNi_dir (d : Dev) (n : Nat) (h0 : Dir z d) : Dir z (unfenceNi d n) := by
  unfold unfenceNi
  repeat' first
    | with_reducible assumption
    | with_reducible apply p_dir
    | with_reducible apply settleFences_dir
    | simp -implicitDefEqProofs only [Dir.lit, off_pNOC, page_pNOC, ge_pNOC]
    | split
    | intro _
    | dsimp only
theorem doUnfence_dir (d : Dev) (n : Nat) (h0 : Dir z d) : Dir z (doUnfence d n) := by
  unfold doUnfence
  repeat' first
    | with_reducible assumption
    | with_reducible apply unfenceNi_dir
    | simp -implicitDefEqProofs only [Dir.lit]
    | split
    | intro _
    | dsimp only
theorem doNocClr_dir (d : Dev) (h0 : Dir z d) : Dir z (doNocClr d) := by
  unfold doNocClr
  repeat' first
    | with_reducible assumption
    | with_reducible apply each_dir
    | with_reducible apply resetRange_dir
    | with_reducible apply far_add
    | with_reducible apply far_self
    | with_reducible apply le_far
    | simp -implicitDefEqProofs only [Dir.lit, off_pNOC, page_pNOC, ge_pNOC]
    | split
    | intro _
    | dsimp only
end Sys2Proof.Machine.Dev
end

