-- ==== Sys2Proof/Laws/KeepDirectory6.lean ====
section
/-! SUPPORT. The directory and the resizes in progress are left as they were by power, the ring and host accesses: one lemma for each function that leaves them. -/

set_option linter.all false

namespace Sys2Proof.Machine.Dev

set_option Elab.async false

variable {z : Dev}
theorem doVin48Up_dir (d : Dev) (h0 : Dir z d) : Dir z (doVin48Up d) := by
  unfold doVin48Up
  repeat' first
    | with_reducible assumption
    | with_reducible apply on_dir
    | simp -implicitDefEqProofs only [Dir.lit, off_pAON, page_pAON, ge_pAON]
    | split
    | intro _
    | dsimp only
theorem doPerstDeassert_dir (d : Dev) (h0 : Dir z d) : Dir z (doPerstDeassert d) := by
  unfold doPerstDeassert
  repeat' first
    | with_reducible assumption
    | simp -implicitDefEqProofs only [Dir.lit]
    | split
    | intro _
    | dsimp only
theorem trainPcie_dir (d : Dev) (h0 : Dir z d) : Dir z (trainPcie d) := by
  unfold trainPcie
  repeat' first
    | with_reducible assumption
    | with_reducible apply p_dir
    | simp -implicitDefEqProofs only [Dir.lit, off_pPCI, page_pPCI, ge_pPCI]
    | split
    | intro _
    | dsimp only
theorem doStartup_dir (d : Dev) (refclk healthOk : Bool) (h0 : Dir z d) : Dir z (doStartup d refclk healthOk) := by
  unfold doStartup
  repeat' first
    | with_reducible assumption
    | with_reducible apply emit_dir
    | with_reducible apply irq_dir
    | with_reducible apply on_dir
    | with_reducible apply p_dir
    | with_reducible apply raise_dir
    | with_reducible apply romStart_dir
    | with_reducible apply setAuthMode_dir
    | with_reducible apply setBoot_dir
    | with_reducible apply tick_dir
    | with_reducible apply trainPcie_dir
    | with_reducible apply wake_dir
    | simp -implicitDefEqProofs only [Dir.lit, off_pAON, page_pAON, ge_pAON, off_pCKG, page_pCKG, ge_pCKG, off_pIME, page_pIME, ge_pIME]
    | split
    | intro _
    | dsimp only
theorem resetFn_dir (d : Dev) (fn : Fn) (h0 : Dir z d) : Dir z (resetFn d fn) := by
  unfold resetFn
  repeat' first
    | with_reducible assumption
    | with_reducible apply resetRange_dir
    | with_reducible apply far_add
    | with_reducible apply far_self
    | with_reducible apply le_far
    | simp -implicitDefEqProofs only [Dir.lit, off_pMSIX, page_pMSIX, ge_pMSIX]
    | split
    | intro _
    | dsimp only
theorem beginFnReset_dir (d : Dev) (fn : Fn) (h0 : Dir z d) : Dir z (beginFnReset d fn) := by
  unfold beginFnReset
  repeat' first
    | with_reducible assumption
    | with_reducible apply resetFn_dir
    | simp -implicitDefEqProofs only [Dir.lit]
    | split
    | intro _
    | dsimp only
theorem clearVfs_dir (d : Dev) (h0 : Dir z d) : Dir z (clearVfs d) := by
  unfold clearVfs
  repeat' first
    | with_reducible assumption
    | with_reducible apply each_dir
    | with_reducible apply resetFn_dir
    | simp -implicitDefEqProofs only [Dir.lit]
    | split
    | intro _
    | dsimp only
theorem doFnResetDone_dir (d : Dev) (fn : Fn) (h0 : Dir z d) : Dir z (doFnResetDone d fn) := by
  unfold doFnResetDone
  repeat' first
    | with_reducible assumption
    | simp -implicitDefEqProofs only [Dir.lit]
    | split
    | intro _
    | dsimp only
theorem doVfSet_dir (d : Dev) (num : Nat) (h0 : Dir z d) : Dir z (doVfSet d num) := by
  unfold doVfSet
  repeat' first
    | with_reducible assumption
    | with_reducible apply tick_dir
    | simp -implicitDefEqProofs only [Dir.lit]
    | split
    | intro _
    | dsimp only
theorem doClusterWake_dir (d : Dev) (ns : List Nat) (h0 : Dir z d) : Dir z (doClusterWake d ns) := by
  unfold doClusterWake
  repeat' first
    | with_reducible assumption
    | with_reducible apply each_dir
    | with_reducible apply wake_dir
    | simp -implicitDefEqProofs only [Dir.lit]
    | split
    | intro _
    | dsimp only
theorem doIdleDelay_dir (d : Dev) (i : Nat) (h0 : Dir z d) : Dir z (doIdleDelay d i) := by
  unfold doIdleDelay
  repeat' first
    | with_reducible assumption
    | with_reducible apply each_dir
    | with_reducible apply setPower_dir
    | simp -implicitDefEqProofs only [Dir.lit, off_pPTN, page_pPTN, ge_pPTN]
    | split
    | intro _
    | dsimp only
theorem doOffDelay_dir (d : Dev) (n : Nat) (h0 : Dir z d) : Dir z (doOffDelay d n) := by
  unfold doOffDelay
  repeat' first
    | with_reducible assumption
    | with_reducible apply doDrainComplete_dir
    | with_reducible apply drainNi_dir
    | with_reducible apply setPower_dir
    | simp -implicitDefEqProofs only [Dir.lit]
    | split
    | intro _
    | dsimp only
theorem doPowerOnCluster_dir (d : Dev) (n : Nat) (h0 : Dir z d) : Dir z (doPowerOnCluster d n) := by
  unfold doPowerOnCluster
  repeat' first
    | with_reducible assumption
    | with_reducible apply freshCluster_dir
    | with_reducible apply iff_dir
    | with_reducible apply setPower_dir
    | with_reducible apply unfenceNi_dir
    | with_reducible apply wake_dir
    | simp -implicitDefEqProofs only [Dir.lit]
    | split
    | intro _
    | dsimp only
theorem latchWake_dir (d : Dev) (src : Nat) (h0 : Dir z d) : Dir z (latchWake d src) := by
  unfold latchWake
  repeat' first
    | with_reducible assumption
    | with_reducible apply emit_dir
    | with_reducible apply on_dir
    | with_reducible apply p_dir
    | with_reducible apply wake_dir
    | simp -implicitDefEqProofs only [Dir.lit, off_pAON, page_pAON, ge_pAON]
    | split
    | intro _
    | dsimp only
theorem doWake_dir (d : Dev) (src : Nat) (h0 : Dir z d) : Dir z (doWake d src) := by
  unfold doWake
  repeat' first
    | with_reducible assumption
    | with_reducible apply latchWake_dir
    | simp -implicitDefEqProofs only [Dir.lit]
    | split
    | intro _
    | dsimp only
theorem setWarden_dir (d : Dev) (st : Nat) (h0 : Dir z d) : Dir z (setWarden d st) := by
  unfold setWarden
  repeat' first
    | with_reducible assumption
    | with_reducible apply p_dir
    | with_reducible apply traceWarden_dir
    | simp -implicitDefEqProofs only [Dir.lit, off_pWDN, page_pWDN, ge_pWDN]
    | split
    | intro _
    | dsimp only
theorem coresFrom_dir (d : Dev) (a b : Nat) (h0 : Dir z d) : Dir z (coresFrom d a b) := by
  unfold coresFrom
  repeat' first
    | with_reducible assumption
    | with_reducible apply each_dir
    | with_reducible apply p_dir
    | with_reducible apply tracePup_dir
    | simp -implicitDefEqProofs only [Dir.lit, off_pPUP, page_pPUP, ge_pPUP]
    | split
    | intro _
    | dsimp only
theorem doHeartbeat_dir (d : Dev) (v : Nat) (h0 : Dir z d) : Dir z (doHeartbeat d v) := by
  unfold doHeartbeat
  repeat' first
    | with_reducible assumption
    | with_reducible apply add_dir
    | with_reducible apply coresFrom_dir
    | with_reducible apply p_dir
    | with_reducible apply setWarden_dir
    | simp -implicitDefEqProofs only [Dir.lit, off_pWDN, page_pWDN, ge_pWDN]
    | split
    | intro _
    | dsimp only
theorem doHeartbeatTimeout_dir (d : Dev) (h0 : Dir z d) : Dir z (doHeartbeatTimeout d) := by
  unfold doHeartbeatTimeout
  repeat' first
    | with_reducible assumption
    | with_reducible apply coresFrom_dir
    | with_reducible apply irq_dir
    | with_reducible apply raise_dir
    | with_reducible apply setWarden_dir
    | simp -implicitDefEqProofs only [Dir.lit, off_pWDN, page_pWDN, ge_pWDN]
    | split
    | intro _
    | dsimp only
theorem controlledStop_dir (d : Dev) (cause : Nat) (h0 : Dir z d) : Dir z (controlledStop d cause) := by
  unfold controlledStop
  repeat' first
    | with_reducible assumption
    | with_reducible apply drainNi_dir
    | with_reducible apply each_dir
    | with_reducible apply hardReq_dir
    | with_reducible apply lastGasp_dir
    | with_reducible apply p_dir
    | with_reducible apply raise_dir
    | with_reducible apply raiseSysFreeze_dir
    | with_reducible apply setWarden_dir
    | simp -implicitDefEqProofs only [Dir.lit, off_pWDN, page_pWDN, ge_pWDN]
    | split
    | intro _
    | dsimp only
theorem doGraceTimeout_dir (d : Dev) (h0 : Dir z d) : Dir z (doGraceTimeout d) := by
  unfold doGraceTimeout
  repeat' first
    | with_reducible assumption
    | with_reducible apply controlledStop_dir
    | simp -implicitDefEqProofs only [Dir.lit]
    | split
    | intro _
    | dsimp only
theorem doTemperature_dir (d : Dev) (q celsius : Nat) (h0 : Dir z d) : Dir z (doTemperature d q celsius) := by
  unfold doTemperature
  repeat' first
    | with_reducible assumption
    | with_reducible apply controlledStop_dir
    | with_reducible apply p_dir
    | simp -implicitDefEqProofs only [Dir.lit, off_pPMU, page_pPMU, ge_pPMU]
    | split
    | intro _
    | dsimp only
theorem doPllLost_dir (d : Dev) (h0 : Dir z d) : Dir z (doPllLost d) := by
  unfold doPllLost
  repeat' first
    | with_reducible assumption
    | with_reducible apply controlledStop_dir
    | with_reducible apply p_dir
    | simp -implicitDefEqProofs only [Dir.lit, off_pCKG, page_pCKG, ge_pCKG]
    | split
    | intro _
    | dsimp only
theorem doStopDrain_dir (d : Dev) (h0 : Dir z d) : Dir z (doStopDrain d) := by
  unfold doStopDrain
  repeat' first
    | with_reducible assumption
    | with_reducible apply doDrainTimeout_dir
    | with_reducible apply each_dir
    | simp -implicitDefEqProofs only [Dir.lit]
    | split
    | intro _
    | dsimp only
theorem writeLgrpCfg_dir (d : Dev) (gi v : Nat) (h0 : Dir z d) : Dir z (writeLgrpCfg d gi v) := by
  unfold writeLgrpCfg
  repeat' first
    | with_reducible assumption
    | with_reducible apply doLaneDisable_dir
    | with_reducible apply doLaneEnable_dir
    | with_reducible apply doLaneTest_dir
    | with_reducible apply p_dir
    | simp -implicitDefEqProofs only [Dir.lit, off_pLGRP, page_pLGRP, ge_pLGRP]
    | split
    | intro _
    | dsimp only
theorem doStringJoin_dir (d : Dev) (h0 : Dir z d) : Dir z (doStringJoin d) := by
  unfold doStringJoin
  repeat' first
    | with_reducible assumption
    | with_reducible apply on_dir
    | with_reducible apply p_dir
    | simp -implicitDefEqProofs only [Dir.lit, off_pSTR, page_pSTR, ge_pSTR]
    | split
    | intro _
    | dsimp only
theorem doStringOpen_dir (d : Dev) (h0 : Dir z d) : Dir z (doStringOpen d) := by
  unfold doStringOpen
  repeat' first
    | with_reducible assumption
    | with_reducible apply p_dir
    | simp -implicitDefEqProofs only [Dir.lit, off_pSTR, page_pSTR, ge_pSTR]
    | split
    | intro _
    | dsimp only
theorem doStringLeave_dir (d : Dev) (h0 : Dir z d) : Dir z (doStringLeave d) := by
  unfold doStringLeave
  repeat' first
    | with_reducible assumption
    | with_reducible apply p_dir
    | simp -implicitDefEqProofs only [Dir.lit, off_pSTR, page_pSTR, ge_pSTR]
    | split
    | intro _
    | dsimp only
theorem doStringBroken_dir (d : Dev) (h0 : Dir z d) : Dir z (doStringBroken d) := by
  unfold doStringBroken
  repeat' first
    | with_reducible assumption
    | with_reducible apply irq_dir
    | with_reducible apply p_dir
    | simp -implicitDefEqProofs only [Dir.lit, off_pSTR, page_pSTR, ge_pSTR]
    | split
    | intro _
    | dsimp only
theorem frameIn_dir (d : Dev) (f : RingFrame) (own : Bool) (back : Dev → Dev) (act : Dev → Dev × List Byte) (h0 : Dir z d) (hb : ∀ e, Dir z e → Dir z (back e)) (ha : ∀ e, Dir z e → Dir z (act e).1) : Dir z (frameIn d f own back act) := by
  unfold frameIn
  repeat' first
    | with_reducible assumption
    | with_reducible apply hb
    | with_reducible apply ha
    | with_reducible apply add_dir
    | with_reducible apply p_dir
    | with_reducible apply ringOut_dir
    | exact fun _ => ⟨Eq.refl _, Eq.refl _⟩
    | exact Eq.refl _
    | simp -implicitDefEqProofs only [Dir.lit, off_pSTR, page_pSTR, ge_pSTR]
    | split
    | intro _
    | dsimp only
theorem onceFor_dir (d : Dev) (kind src n : Nat) (act : Dev → Dev) (h0 : Dir z d) (ha : ∀ e, Dir z e → Dir z (act e)) : Dir z (onceFor d kind src n act) := by
  unfold onceFor
  repeat' first
    | with_reducible assumption
    | with_reducible apply ha
    | exact fun _ => ⟨Eq.refl _, Eq.refl _⟩
    | exact Eq.refl _
    | simp -implicitDefEqProofs only [Dir.lit]
    | split
    | intro _
    | dsimp only
theorem takeNumber_dir (d : Dev) (n : Nat) (h0 : Dir z d) : Dir z (takeNumber d n) := by
  unfold takeNumber
  repeat' first
    | with_reducible assumption
    | with_reducible apply irq_dir
    | with_reducible apply p_dir
    | simp -implicitDefEqProofs only [Dir.lit, off_pSTR, page_pSTR, ge_pSTR]
    | split
    | intro _
    | dsimp only
theorem doDiscover_dir (d : Dev) (h0 : Dir z d) : Dir z (doDiscover d) := by
  unfold doDiscover
  repeat' first
    | with_reducible assumption
    | with_reducible apply ringSend_dir
    | simp -implicitDefEqProofs only [Dir.lit, off_pSTR, page_pSTR, ge_pSTR]
    | split
    | intro _
    | dsimp only
theorem doCollect_dir (d : Dev) (src n ttl map : Nat) (crc : W32) (h0 : Dir z d) : Dir z (doCollect d src n ttl map crc) := by
  unfold doCollect
  repeat' first
    | with_reducible assumption
    | with_reducible apply frameIn_dir
    | with_reducible apply ringSend_dir
    | with_reducible apply takeNumber_dir
    | simp -implicitDefEqProofs only [Dir.lit, off_pSTR, page_pSTR, ge_pSTR]
    | split
    | intro _
    | dsimp only
theorem doAssign_dir (d : Dev) (src n ttl map : Nat) (crc : W32) (h0 : Dir z d) : Dir z (doAssign d src n ttl map crc) := by
  unfold doAssign
  repeat' first
    | with_reducible assumption
    | with_reducible apply frameIn_dir
    | with_reducible apply on_dir
    | with_reducible apply p_dir
    | with_reducible apply takeNumber_dir
    | simp -implicitDefEqProofs only [Dir.lit, off_pSTR, page_pSTR, ge_pSTR]
    | split
    | intro _
    | dsimp only
theorem doStringBeacon_dir (d : Dev) (src n ttl ns frac : Nat) (crc : W32) (h0 : Dir z d) : Dir z (doStringBeacon d src n ttl ns frac crc) := by
  unfold doStringBeacon
  repeat' first
    | with_reducible assumption
    | with_reducible apply frameIn_dir
    | with_reducible apply id_dir
    | with_reducible apply ringBeacon_dir
    | simp -implicitDefEqProofs only [Dir.lit]
    | split
    | intro _
    | dsimp only
theorem freezeOwn_dir (d : Dev) (i : Nat) (h0 : Dir z d) : Dir z (freezeOwn d i) := by
  unfold freezeOwn
  repeat' first
    | with_reducible assumption
    | with_reducible apply freezeReq_dir
    | with_reducible apply modPtn_dir
    | with_reducible apply on_dir
    | exact fun _ => ⟨Eq.refl _, Eq.refl _⟩
    | exact ⟨trivial, trivial⟩
    | simp -implicitDefEqProofs only [Dir.lit, off_pPTN, page_pPTN, ge_pPTN]
    | split
    | intro _
    | dsimp only
theorem ringFreeze_dir (d : Dev) (origin n : Nat) (h0 : Dir z d) : Dir z (ringFreeze d origin n) := by
  unfold ringFreeze
  repeat' first
    | with_reducible assumption
    | with_reducible apply controlAll_dir
    | with_reducible apply each_dir
    | with_reducible apply freezeOwn_dir
    | with_reducible apply on_dir
    | with_reducible apply p_dir
    | with_reducible apply raise_dir
    | simp -implicitDefEqProofs only [Dir.lit, off_pLNK, page_pLNK, ge_pLNK, off_pPTN, page_pPTN, ge_pPTN]
    | split
    | intro _
    | dsimp only
theorem doStringFreeze_dir (d : Dev) (src n ttl origin num : Nat) (crc : W32) (h0 : Dir z d) : Dir z (doStringFreeze d src n ttl origin num crc) := by
  unfold doStringFreeze
  repeat' first
    | with_reducible assumption
    | with_reducible apply frameIn_dir
    | with_reducible apply id_dir
    | with_reducible apply onceFor_dir
    | with_reducible apply ringFreeze_dir
    | simp -implicitDefEqProofs only [Dir.lit]
    | split
    | intro _
    | dsimp only
theorem doStringStrobe_dir (d : Dev) (src n ttl : Nat) (crc : W32) (h0 : Dir z d) : Dir z (doStringStrobe d src n ttl crc) := by
  unfold doStringStrobe
  repeat' first
    | with_reducible assumption
    | with_reducible apply frameIn_dir
    | with_reducible apply id_dir
    | with_reducible apply onceFor_dir
    | with_reducible apply strobeReq_dir
    | simp -implicitDefEqProofs only [Dir.lit]
    | split
    | intro _
    | dsimp only
theorem doMsg_dir (d : Dev) (src n dest ttl : Nat) (cfg : List (Nat × Nat)) (crc : W32) (h0 : Dir z d) : Dir z (doMsg d src n dest ttl cfg crc) := by
  unfold doMsg
  repeat' first
    | with_reducible assumption
    | with_reducible apply each_dir
    | with_reducible apply frameIn_dir
    | with_reducible apply id_dir
    | with_reducible apply writeLgrpCfg_dir
    | simp -implicitDefEqProofs only [Dir.lit]
    | split
    | intro _
    | dsimp only
theorem doResetReqSend_dir (d : Dev) (h0 : Dir z d) : Dir z (doResetReqSend d) := by
  unfold doResetReqSend
  repeat' first
    | with_reducible assumption
    | with_reducible apply ringSend_dir
    | simp -implicitDefEqProofs only [Dir.lit, off_pSTR, page_pSTR, ge_pSTR]
    | split
    | intro _
    | dsimp only
theorem doRepeat_dir (d : Dev) (h0 : Dir z d) : Dir z (doRepeat d) := by
  unfold doRepeat
  repeat' first
    | with_reducible assumption
    | with_reducible apply ringOut_dir
    | simp -implicitDefEqProofs only [Dir.lit]
    | split
    | intro _
    | dsimp only
theorem doStringBeaconSend_dir (d : Dev) (h0 : Dir z d) : Dir z (doStringBeaconSend d) := by
  unfold doStringBeaconSend
  repeat' first
    | with_reducible assumption
    | with_reducible apply ringSend_dir
    | simp -implicitDefEqProofs only [Dir.lit, off_pTSB, page_pTSB, ge_pTSB]
    | split
    | intro _
    | dsimp only
theorem reachPlace_dir (d : Dev) (fn : Fn) (a : Nat) (write : Bool) (ones : Nat) (k : Dev → Place → Dev) (h0 : Dir z d) (hk : ∀ e pl, Dir z e → Dir z (k e pl)) : Dir z (reachPlace d fn a write ones k) := by
  unfold reachPlace
  repeat' first
    | with_reducible assumption
    | with_reducible apply hk
    | with_reducible apply complete_dir
    | with_reducible apply viaFence_dir
    | exact fun _ => ⟨Eq.refl _, Eq.refl _⟩
    | exact Eq.refl _
    | simp -implicitDefEqProofs only [Dir.lit]
    | split
    | intro _
    | dsimp only
theorem atPlace_dir (d : Dev) (fn : Fn) (a : Nat) (write : Bool) (k : Dev → Place → Dev) (h0 : Dir z d) (hk : ∀ e pl, Dir z e → Dir z (k e pl)) : Dir z (atPlace d fn a write k) := by
  unfold atPlace
  repeat' first
    | with_reducible assumption
    | with_reducible apply hk
    | with_reducible apply reachPlace_dir
    | exact fun _ => ⟨Eq.refl _, Eq.refl _⟩
    | exact Eq.refl _
    | simp -implicitDefEqProofs only [Dir.lit]
    | split
    | intro _
    | dsimp only
theorem doUnmask_dir (d : Dev) (fn : Fn) (v : Nat) (h0 : Dir z d) : Dir z (doUnmask d fn v) := by
  unfold doUnmask
  repeat' first
    | with_reducible assumption
    | with_reducible apply p_dir
    | with_reducible apply sendVec_dir
    | simp -implicitDefEqProofs only [Dir.lit, off_pMSIX, page_pMSIX, ge_pMSIX]
    | split
    | intro _
    | dsimp only
theorem writeMsix_dir (d : Dev) (fn : Fn) (off v : Nat) (h0 : Dir z d) : Dir z (writeMsix d fn off v) := by
  unfold writeMsix
  repeat' first
    | with_reducible assumption
    | with_reducible apply doUnmask_dir
    | with_reducible apply on_dir
    | with_reducible apply p_dir
    | simp -implicitDefEqProofs only [Dir.lit, off_pMSIX, page_pMSIX, ge_pMSIX]
    | split
    | intro _
    | dsimp only
theorem clearIrq_dir (d : Dev) (base v : Nat) (h0 : Dir z d) (hb : Page base) : Dir z (clearIrq d base v) := by
  unfold clearIrq
  repeat' first
    | with_reducible assumption
    | with_reducible apply off_PG_IRQ_RAW
    | with_reducible apply p_dir
    | exact fun _ => ⟨Eq.refl _, Eq.refl _⟩
    | exact Eq.refl _
    | simp -implicitDefEqProofs only [Dir.lit]
    | split
    | intro _
    | dsimp only
theorem forceIrq_dir (d : Dev) (base v : Nat) (h0 : Dir z d) (hb : Page base) : Dir z (forceIrq d base v) := by
  unfold forceIrq
  repeat' first
    | with_reducible assumption
    | with_reducible apply each_dir
    | with_reducible apply irq_dir
    | exact fun _ => ⟨Eq.refl _, Eq.refl _⟩
    | exact Eq.refl _
    | simp -implicitDefEqProofs only [Dir.lit, off_pCAP, page_pCAP, ge_pCAP, off_pPTN, page_pPTN, ge_pPTN, off_pTRC, page_pTRC, ge_pTRC]
    | split
    | intro _
    | dsimp only
theorem writeSel_dir (d : Dev) (fn : Fn) (base i v : Nat) (h0 : Dir z d) (hb : Page base) (hi : i < 4) : Dir z (writeSel d fn base i v) := by
  unfold writeSel
  dsimp only
  have ho := off_sel hb hi
  have h1 (a b : Nat) : Dir z ((d.p base (PG_SEL_EVENT i) a).p base (PG_SEL_EN i) b) := p_dir _ _ _ _ (p_dir _ _ _ _ h0 ho.1) ho.2.1
  split
  · exact p_dir _ _ _ _ (h1 _ _) ho.2.2.1
  · exact h1 _ _
theorem writeCommon_dir (d : Dev) (fn : Fn) (base off v : Nat) (h0 : Dir z d) (hb : Page base) : Dir z (writeCommon d fn base off v) := by
  unfold writeCommon
  split
  · exact setIrqEn_dir _ _ _ h0 hb
  · exact clearIrq_dir _ _ _ h0 hb
  · exact forceIrq_dir _ _ _ h0 hb
  · exact writeWord_dir _ _ _ _ _ h0 fun f hf _ _ => off_fldsPG hb hf
  · split
    · next h => simp only [Bool.and_eq_true, decide_eq_true_eq] at h; exact writeSel_dir _ _ _ _ _ h0 hb (by omega)
    · exact h0
theorem writeQueueReg_dir (d : Dev) (q k v : Nat) (h0 : Dir z d) : Dir z (writeQueueReg d q k v) := by
  unfold writeQueueReg
  repeat' first
    | with_reducible assumption
    | with_reducible apply clearQflags_dir
    | with_reducible apply queueCmd_dir
    | with_reducible apply writeQcfg_dir
    | simp -implicitDefEqProofs only [Dir.lit]
    | split
    | intro _
    | dsimp only
theorem writeClu_dir (d : Dev) (n base off v : Nat) (h0 : Dir z d) (hb : 0x1000 ≤ base) : Dir z (writeClu d n base off v) := by
  unfold writeClu
  repeat' first
    | with_reducible assumption
    | exact fun _ _ _ _ => Or.inl hb
    | with_reducible apply doBpiClr_dir
    | with_reducible apply doWliClr_dir
    | with_reducible apply doFabClr_dir
    | with_reducible apply doDmemClr_dir
    | with_reducible apply doFmpCfg_dir
    | with_reducible apply doTxpCfg_dir
    | with_reducible apply doDmemCfg_dir
    | with_reducible apply winWrite_dir
    | with_reducible apply iff_dir
    | with_reducible apply writeWord_dir
    | exact fun _ => ⟨Eq.refl _, Eq.refl _⟩
    | exact Eq.refl _
    | simp -implicitDefEqProofs only [Dir.lit]
    | split
    | intro _
    | dsimp only
theorem denyTrg_dir (d : Dev) (k : Nat) (h0 : Dir z d) : Dir z (denyTrg d k) := by
  unfold denyTrg
  repeat' first
    | with_reducible assumption
    | with_reducible apply on_dir
    | with_reducible apply p_dir
    | simp -implicitDefEqProofs only [Dir.lit, off_pTRG, page_pTRG, ge_pTRG]
    | split
    | intro _
    | dsimp only
theorem writeComp_dir (d : Dev) (pf : Bool) (k o v : Nat) (h0 : Dir z d) : Dir z (writeComp d pf k o v) := by
  unfold writeComp
  repeat' first
    | with_reducible assumption
    | with_reducible apply denyTrg_dir
    | with_reducible apply on_dir
    | with_reducible apply p_dir
    | simp -implicitDefEqProofs only [Dir.lit, off_pTRG, page_pTRG, ge_pTRG]
    | split
    | intro _
    | dsimp only
theorem writeTrg_dir (d : Dev) (off v : Nat) (h0 : Dir z d) : Dir z (writeTrg d off v) := by
  unfold writeTrg
  repeat' first
    | with_reducible assumption
    | with_reducible apply doArm_dir
    | with_reducible apply doDisarm_dir
    | with_reducible apply drivePin_dir
    | with_reducible apply iff_dir
    | with_reducible apply p_dir
    | with_reducible apply stopPulse_dir
    | with_reducible apply writeComp_dir
    | with_reducible apply writeWord_dir
    | simp -implicitDefEqProofs only [Dir.lit, off_pCAP, page_pCAP, ge_pCAP, off_pTRG, page_pTRG, ge_pTRG]
    | split
    | intro _
    | dsimp only
theorem writeChan_dir (d : Dev) (pf : Bool) (ch o v : Nat) (h0 : Dir z d) : Dir z (writeChan d pf ch o v) := by
  unfold writeChan
  repeat' first
    | with_reducible assumption
    | with_reducible apply iff_dir
    | with_reducible apply on_dir
    | with_reducible apply p_dir
    | with_reducible apply setChanOwner_dir
    | simp -implicitDefEqProofs only [Dir.lit, off_pCAP, page_pCAP, ge_pCAP]
    | split
    | intro _
    | dsimp only
theorem writeCap_dir (d : Dev) (pf : Bool) (off v : Nat) (h0 : Dir z d) : Dir z (writeCap d pf off v) := by
  unfold writeCap
  repeat' first
    | with_reducible assumption
    | with_reducible apply doCaptureArm_dir
    | with_reducible apply doCaptureDisarm_dir
    | with_reducible apply doPinwheelConfigWrite_dir
    | with_reducible apply iff_dir
    | with_reducible apply writeChan_dir
    | with_reducible apply writeWord_dir
    | simp -implicitDefEqProofs only [Dir.lit, off_pCAP, page_pCAP, ge_pCAP]
    | split
    | intro _
    | dsimp only
theorem writeTrc_dir (d : Dev) (off v : Nat) (h0 : Dir z d) : Dir z (writeTrc d off v) := by
  unfold writeTrc
  repeat' first
    | with_reducible assumption
    | with_reducible apply disableStream_dir
    | with_reducible apply doAuthDisable_dir
    | with_reducible apply doMark_dir
    | with_reducible apply doTraceStreamEnable_dir
    | with_reducible apply iff_dir
    | with_reducible apply writeWord_dir
    | simp -implicitDefEqProofs only [Dir.lit, off_pTRC, page_pTRC, ge_pTRC]
    | split
    | intro _
    | dsimp only
theorem writeTrcSlice_dir (d : Dev) (i off v : Nat) (h0 : Dir z d) : Dir z (writeTrcSlice d i off v) := by
  unfold writeTrcSlice
  repeat' first
    | with_reducible assumption
    | with_reducible apply each_dir
    | with_reducible apply on_dir
    | with_reducible apply p_dir
    | with_reducible apply writeTrc_dir
    | simp -implicitDefEqProofs only [Dir.lit, off_pTRC, page_pTRC, ge_pTRC]
    | split
    | intro _
    | dsimp only
theorem writeLgrp_dir (d : Dev) (gi off v : Nat) (h0 : Dir z d) : Dir z (writeLgrp d gi off v) := by
  unfold writeLgrp
  repeat' first
    | with_reducible assumption
    | with_reducible apply doBridgeEnable_dir
    | with_reducible apply doClrSlack_dir
    | with_reducible apply doInjGo_dir
    | with_reducible apply doLgrpClr_dir
    | with_reducible apply iff_dir
    | with_reducible apply modLink_dir
    | with_reducible apply p_dir
    | with_reducible apply writeLgrpCfg_dir
    | with_reducible apply writeWord_dir
    | simp -implicitDefEqProofs only [Dir.lit, off_pLGRP, page_pLGRP, ge_pLGRP]
    | split
    | intro _
    | dsimp only
theorem doMbistGo_dir (d : Dev) (n : Nat) (h0 : Dir z d) : Dir z (doMbistGo d n) := by
  unfold doMbistGo
  repeat' first
    | with_reducible assumption
    | with_reducible apply freshCluster_dir
    | with_reducible apply mntRequest_dir
    | with_reducible apply on_dir
    | with_reducible apply p_dir
    | with_reducible apply setPower_dir
    | simp -implicitDefEqProofs only [Dir.lit, off_pMNT, page_pMNT, ge_pMNT]
    | split
    | intro _
    | dsimp only
theorem doMbistComplete_dir (d : Dev) (n : Nat) (failed : Option Nat) (h0 : Dir z d) : Dir z (doMbistComplete d n failed) := by
  unfold doMbistComplete
  repeat' first
    | with_reducible assumption
    | with_reducible apply clearMemories_dir
    | with_reducible apply failed_dir
    | with_reducible apply mntFree_dir
    | with_reducible apply p_dir
    | with_reducible apply raise_dir
    | with_reducible apply setPower_dir
    | simp -implicitDefEqProofs only [Dir.lit, off_pMNT, page_pMNT, ge_pMNT]
    | split
    | intro _
    | dsimp only
theorem doRelease_dir (d : Dev) (id : Nat) (h0 : Dir z d) : Dir z (doRelease d id) := by
  unfold doRelease
  repeat' first
    | with_reducible assumption
    | with_reducible apply id_dir
    | with_reducible apply retryWaits_dir
    | simp -implicitDefEqProofs only [Dir.lit]
    | split
    | intro _
    | dsimp only
theorem writeWakeCause_dir (d : Dev) (v : Nat) (h0 : Dir z d) : Dir z (writeWakeCause d v) := by
  unfold writeWakeCause
  repeat' first
    | with_reducible assumption
    | with_reducible apply emit_dir
    | with_reducible apply p_dir
    | with_reducible apply wake_dir
    | with_reducible apply writeWord_dir
    | simp -implicitDefEqProofs only [Dir.lit, off_pAON, page_pAON, ge_pAON]
    | split
    | intro _
    | dsimp only
theorem writeSlice_dir (d : Dev) (i base off v : Nat) (h0 : Dir z d) : Dir z (writeSlice d i base off v) := by
  unfold writeSlice
  repeat' first
    | with_reducible assumption
    | with_reducible apply writeCap_dir
    | with_reducible apply writeComp_dir
    | with_reducible apply writeTrcSlice_dir
    | with_reducible apply writeWord_dir
    | simp -implicitDefEqProofs only [Dir.lit, off_pCAP, page_pCAP, ge_pCAP, off_pSLC, page_pSLC, ge_pSLC, off_pTRG, page_pTRG, ge_pTRG]
    | split
    | intro _
    | dsimp only
theorem keepLow_dir (d : Dev) (fn : Fn) (pl : Place) (v : Nat) (h0 : Dir z d) : Dir z (keepLow d fn pl v) := by
  unfold keepLow
  repeat' first
    | with_reducible assumption
    | simp -implicitDefEqProofs only [Dir.lit]
    | split
    | intro _
    | dsimp only
theorem doMisaligned_dir (d : Dev) (fn : Fn) (a size : Nat) (write : Bool) (h0 : Dir z d) : Dir z (doMisaligned d fn a size write) := by
  unfold doMisaligned
  repeat' first
    | with_reducible assumption
    | with_reducible apply accessError_dir
    | with_reducible apply complete_dir
    | simp -implicitDefEqProofs only [Dir.lit]
    | split
    | intro _
    | dsimp only
theorem logWindowRead_dir (d : Dev) (pl : Place) (h0 : Dir z d) : Dir z (logWindowRead d pl) := by
  unfold logWindowRead
  repeat' first
    | with_reducible assumption
    | with_reducible apply add_dir
    | with_reducible apply logFail_dir
    | simp -implicitDefEqProofs only [Dir.lit, off_pLOG, page_pLOG, ge_pLOG]
    | split
    | intro _
    | dsimp only
theorem fetch32_dir (d : Dev) (fn : Fn) (pl : Place) (h0 : Dir z d) : Dir z (fetch32 d fn pl).1 := by
  unfold fetch32
  repeat' first
    | with_reducible assumption
    | with_reducible apply logWindowRead_dir
    | with_reducible apply winRead_dir
    | simp -implicitDefEqProofs only [Dir.lit]
    | split
    | intro _
    | dsimp only
theorem read32_dir (d : Dev) (fn : Fn) (pl : Place) (h0 : Dir z d) : Dir z (read32 d fn pl) := by
  unfold read32
  repeat' first
    | with_reducible assumption
    | with_reducible apply fetch32_dir
    | with_reducible apply reply_dir
    | with_reducible apply submitList_dir
    | simp -implicitDefEqProofs only [Dir.lit]
    | split
    | intro _
    | dsimp only
theorem doRead32_dir (d : Dev) (fn : Fn) (a : Nat) (h0 : Dir z d) : Dir z (doRead32 d fn a) := by
  unfold doRead32
  repeat' first
    | with_reducible assumption
    | with_reducible apply atPlace_dir
    | with_reducible apply doMisaligned_dir
    | with_reducible apply read32_dir
    | simp -implicitDefEqProofs only [Dir.lit]
    | split
    | intro _
    | dsimp only
theorem doRead64_dir (d : Dev) (fn : Fn) (a : Nat) (h0 : Dir z d) : Dir z (doRead64 d fn a) := by
  unfold doRead64
  repeat' first
    | with_reducible assumption
    | with_reducible apply doMisaligned_dir
    | with_reducible apply reachPlace_dir
    | with_reducible apply read32_dir
    | with_reducible apply reply64_dir
    | simp -implicitDefEqProofs only [Dir.lit]
    | split
    | intro _
    | dsimp only
theorem fetchReg_dir (d : Dev) (fn : Fn) (pl : Place) (h0 : Dir z d) : Dir z (fetchReg d fn pl).1 := by
  unfold fetchReg
  repeat' first
    | with_reducible assumption
    | with_reducible apply fetch32_dir
    | with_reducible apply judgeItem_dir
    | simp -implicitDefEqProofs only [Dir.lit]
    | split
    | intro _
    | dsimp only
theorem doFenceRead_dir (d : Dev) (fn : Fn) (a : Nat) (h0 : Dir z d) : Dir z (doFenceRead d fn a) := by
  unfold doFenceRead
  repeat' first
    | with_reducible assumption
    | with_reducible apply atPlace_dir
    | with_reducible apply read32_dir
    | with_reducible apply reply_dir
    | simp -implicitDefEqProofs only [Dir.lit]
    | split
    | intro _
    | dsimp only
theorem latchPage_dir (d0 d : Dev) (base n : Nat) (h0 : Dir z d) (hb : Page base) : Dir z (latchPage d0 d base n) := by
  unfold latchPage
  split
  · exact h0
  · split
    · exact on_dir _ _ _ h0 (off_PG_SNAP_CTRL_MISSED hb)
    · dsimp only
      refine p_dir _ _ _ _ (on_dir _ _ _ ?_ (off_PG_SNAP_CTRL_VALID hb)) (off_PG_SNAP_CTRL_SEQ hb)
      exact foldl_dir _ _ _ h0 fun e a he => p_dir _ _ _ _ he (off_SHADOW hb _)
theorem doStrobeLatch_dir (d : Dev) (h0 : Dir z d) : Dir z (doStrobeLatch d) := by
  have h (n : Nat) : Dir z (allPages.foldl (fun x base => latchPage d x base n) d) := by
    refine foldl_mem_dir _ _ _ h0 fun a ha e he => latchPage_dir _ _ _ _ he ?_
    simp only [allPages, List.mem_append, List.mem_map, List.mem_range] at ha
    unfold Page; rcases ha with ⟨k, hk, rfl⟩ | ⟨k, hk, rfl⟩ <;> omega
  unfold doStrobeLatch
  split
  · exact h0
  · simp -implicitDefEqProofs only [Dir.lit]
    exact p_dir _ _ _ _ (p_dir _ _ _ _ (p_dir _ _ _ _ (h _) (of_eq_true (off_pSNP _))) (of_eq_true (off_pSNP _))) (of_eq_true (off_pSNP _))
theorem windowBytes_dir (d : Dev) (fn : Fn) (x a n : Nat) (r : Req) (ok : Nat → Nat → Bool) (h0 : Dir z d) : Dir z (windowBytes d fn x a n r ok) := by
  unfold windowBytes
  repeat' first
    | with_reducible assumption
    | with_reducible apply accessError_dir
    | with_reducible apply each_dir
    | with_reducible apply emit_dir
    | with_reducible apply hbmFetch_dir
    | with_reducible apply poison_dir
    | simp -implicitDefEqProofs only [Dir.lit]
    | split
    | intro _
    | dsimp only
theorem windowPut_dir (d : Dev) (fn : Fn) (x a : Nat) (bs : List Byte) (r : Req) (h0 : Dir z d) : Dir z (windowPut d fn x a bs r) := by
  unfold windowPut
  repeat' first
    | with_reducible assumption
    | with_reducible apply accessError_dir
    | with_reducible apply each_dir
    | with_reducible apply hbmSend_dir
    | simp -implicitDefEqProofs only [Dir.lit]
    | split
    | intro _
    | dsimp only
theorem onesRead_dir (d : Dev) (fn : Fn) (x n : Nat) (h0 : Dir z d) : Dir z (onesRead d fn x n) := by
  unfold onesRead
  repeat' first
    | with_reducible assumption
    | with_reducible apply emit_dir
    | simp -implicitDefEqProofs only [Dir.lit]
    | split
    | intro _
    | dsimp only
theorem doCaptureRead_dir (d : Dev) (p : Fin 16) (x n : Nat) (h0 : Dir z d) : Dir z (doCaptureRead d p x n) := by
  unfold doCaptureRead
  repeat' first
    | with_reducible assumption
    | with_reducible apply onesRead_dir
    | with_reducible apply p_dir
    | with_reducible apply windowBytes_dir
    | simp -implicitDefEqProofs only [Dir.lit, off_pCAP, page_pCAP, ge_pCAP, off_pSLC, page_pSLC, ge_pSLC]
    | split
    | intro _
    | dsimp only
theorem doBar2Read_dir (d : Dev) (fn : Fn) (x n : Nat) (h0 : Dir z d) : Dir z (doBar2Read d fn x n) := by
  unfold doBar2Read
  repeat' first
    | with_reducible assumption
    | with_reducible apply doCaptureRead_dir
    | with_reducible apply onesRead_dir
    | with_reducible apply windowBytes_dir
    | simp -implicitDefEqProofs only [Dir.lit, off_pPCI, page_pPCI, ge_pPCI]
    | split
    | intro _
    | dsimp only
theorem doBar2Write_dir (d : Dev) (fn : Fn) (x : Nat) (bs : List Byte) (h0 : Dir z d) : Dir z (doBar2Write d fn x bs) := by
  unfold doBar2Write
  repeat' first
    | with_reducible assumption
    | with_reducible apply accessError_dir
    | with_reducible apply windowPut_dir
    | simp -implicitDefEqProofs only [Dir.lit, off_pPCI, page_pPCI, ge_pPCI]
    | split
    | intro _
    | dsimp only
theorem tck_dir (d : Dev) (tms tdi : Bool) (h0 : Dir z d) : Dir z (tck d tms tdi) := by
  unfold tck
  repeat' first
    | with_reducible assumption
    | with_reducible apply tick_dir
    | simp -implicitDefEqProofs only [Dir.lit]
    | split
    | intro _
    | dsimp only
theorem trst_dir (d : Dev) (h0 : Dir z d) : Dir z (trst d) := by
  unfold trst
  repeat' first
    | with_reducible assumption
    | simp -implicitDefEqProofs only [Dir.lit]
    | split
    | intro _
    | dsimp only
end Sys2Proof.Machine.Dev
end

