-- ==== Sys2Proof/Laws/KeepOwner1.lean ====
section
/-! SUPPORT. Every cluster and every queue keeps at most one partition under the functions that change the directory, and those that lead to them. -/

set_option linter.all false

namespace Sys2Proof.Machine.Dev

set_option Elab.async false

theorem dirOf_eq {d e : Dev} {i : Nat} (h : d.dirOf i = e.dirOf i) :
    d.dirState i = e.dirState i ∧ d.mask i = e.mask i ∧ d.g pDEV (DEV_DIR_QBASE i) = e.g pDEV (DEV_DIR_QBASE i) ∧
    d.g pDEV (DEV_DIR_QCOUNT i) = e.g pDEV (DEV_DIR_QCOUNT i) ∧ (d.ptnAt i).pendMask = (e.ptnAt i).pendMask ∧ (d.ptnAt i).pendShape = (e.ptnAt i).pendShape := by
  simpa only [dirOf, Prod.mk.injEq] using h
theorem claims_eq {d e : Dev} {i n : Nat} (h : d.dirOf i = e.dirOf i) : d.claims i n = e.claims i n := by
  obtain ⟨h1, h2, h3, h4, h5, h6⟩ := dirOf_eq h
  simp only [claims, promised, h1, h2, h5]
theorem claimsQueue_eq {d e : Dev} {i n : Nat} (h : d.dirOf i = e.dirOf i) : d.claimsQueue i n = e.claimsQueue i n := by
  obtain ⟨h1, h2, h3, h4, h5, h6⟩ := dirOf_eq h
  simp only [claimsQueue, h1, h3, h4, h6]
/-- A change of one directory entry. -/
theorem OneOwner.change {d e : Dev} (i : Nat) (h : OneOwner d) (ho : ∀ j < 16, j ≠ i → e.dirOf j = d.dirOf j)
    (hf : i < 16 → e.dirState i = 0 → e.mask i = 0 ∧ e.g pDEV (DEV_DIR_QCOUNT i) = 0)
    (hc : i < 16 → ∀ n < 64, e.claims i n → d.claims i n ∨ ∀ j < 16, j ≠ i → ¬ d.claims j n)
    (hq : i < 16 → ∀ q, e.claimsQueue i q → d.claimsQueue i q ∨ (∀ j < 16, j ≠ i → ¬ d.claimsQueue j q) ∧ 16 ≤ q ∧ q < 8192) : OneOwner e := by
  have cl (a : Nat) (ha : a < 16) (n : Nat) (hn : e.claims a n) (hai : a ≠ i) : d.claims a n := by rwa [claims_eq (ho a ha hai)] at hn
  have qu (a : Nat) (ha : a < 16) (n : Nat) (hn : e.claimsQueue a n) (hai : a ≠ i) : d.claimsQueue a n := by rwa [claimsQueue_eq (ho a ha hai)] at hn
  constructor
  · intro a ha h0
    by_cases hai : a = i
    · subst hai; exact hf ha h0
    · obtain ⟨h1, h2, h3, h4, -, -⟩ := dirOf_eq (ho a ha hai)
      rw [h2, h4]; exact h.free a ha (h1 ▸ h0)
  · intro a ha b hb n hn hx hy
    by_cases hai : a = i <;> by_cases hbi : b = i
    · omega
    · subst hai
      rcases hc ha n hn hx with h1 | h1
      · exact h.clusters a ha b hb n hn h1 (cl b hb n hy hbi)
      · exact absurd (cl b hb n hy hbi) (h1 b hb hbi)
    · subst hbi
      rcases hc hb n hn hy with h1 | h1
      · exact h.clusters a ha b hb n hn (cl a ha n hx hai) h1
      · exact absurd (cl a ha n hx hai) (h1 a ha hai)
    · exact h.clusters a ha b hb n hn (cl a ha n hx hai) (cl b hb n hy hbi)
  · intro a ha b hb n hx hy
    by_cases hai : a = i <;> by_cases hbi : b = i
    · omega
    · subst hai
      rcases hq ha n hx with h1 | h1
      · exact h.queues a ha b hb n h1 (qu b hb n hy hbi)
      · exact absurd (qu b hb n hy hbi) (h1.1 b hb hbi)
    · subst hbi
      rcases hq hb n hy with h1 | h1
      · exact h.queues a ha b hb n (qu a ha n hx hai) h1
      · exact absurd (qu a ha n hx hai) (h1.1 a ha hai)
    · exact h.queues a ha b hb n (qu a ha n hx hai) (qu b hb n hy hbi)
  · intro a ha n hx
    by_cases hai : a = i
    · subst hai
      rcases hq ha n hx with h1 | h1
      · exact h.range a ha n h1
      · exact h1.2
    · exact h.range a ha n (qu a ha n hx hai)
theorem OneOwner.of_dir {z d : Dev} (hd : Dir z d) (h : OneOwner z) : OneOwner d :=
  h.change 16 (fun j hj _ => hd.same j hj) (fun h => by omega) (fun h => by omega) (fun h => by omega)
theorem OneOwner.of {d e : Dev} (h : OneOwner d) (h1 : e.fld = d.fld) (h2 : e.ptn = d.ptn) : OneOwner e := OneOwner.of_dir (Dir.rfl.of h1 h2) h
theorem dirOf_state (d : Dev) (i v j : Nat) : (p d pDEV (DEV_DIR_STATE i) v).dirOf j =
    (if j = i then v % 8 else d.dirState j, d.mask j, d.g pDEV (DEV_DIR_QBASE j), d.g pDEV (DEV_DIR_QCOUNT j), (d.ptnAt j).pendMask, (d.ptnAt j).pendShape) := by
  have e : (p d pDEV (DEV_DIR_STATE i) v).ptnAt j = d.ptnAt j := rfl
  simp only [dirOf, e, Prod.mk.injEq, and_self, and_true]
  refine ⟨?_, ?_, ?_, ?_⟩
  · split
    · next h => subst h; exact g_p_self _ _ _ _
    · exact g_p_ne _ _ _ _ _ _ (by simp only [DEV_DIR_STATE, Fld.bit]; omega)
  all_goals exact g_p_ne _ _ _ _ _ _ (by simp only [DEV_DIR_STATE, DEV_DIR_MASK, DEV_DIR_QBASE, DEV_DIR_QCOUNT, Fld.bit]; omega)
theorem dirOf_setPtn (d : Dev) (i : Nat) (c : Ptn) (j : Nat) : (setPtn d i c).dirOf j =
    (d.dirState j, d.mask j, d.g pDEV (DEV_DIR_QBASE j), d.g pDEV (DEV_DIR_QCOUNT j),
      if j = i then c.pendMask else (d.ptnAt j).pendMask, if j = i then c.pendShape else (d.ptnAt j).pendShape) := by
  by_cases h : j = i
  · subst h; simp only [dirOf, ptnAt_setPtn_self, if_pos]; rfl
  · simp only [dirOf, ptnAt_setPtn_ne _ _ _ _ h, if_neg h]; rfl
theorem dirOf_setDir (d : Dev) (i st m qb qc j : Nat) : (setDir d i st m qb qc).dirOf j =
    (if j = i then st % 8 else d.dirState j, if j = i then m % 2 ^ 64 else d.mask j, if j = i then qb % 2 ^ 13 else d.g pDEV (DEV_DIR_QBASE j),
      if j = i then qc % 2 ^ 13 else d.g pDEV (DEV_DIR_QCOUNT j), (d.ptnAt j).pendMask, (d.ptnAt j).pendShape) := by
  have e : (setDir d i st m qb qc).ptnAt j = d.ptnAt j := rfl
  simp only [dirOf, e, Prod.mk.injEq, and_self, and_true]
  unfold setDir dirState mask
  dsimp only
  by_cases h : j = i
  · subst h
    simp only [if_pos]
    refine ⟨?_, ?_, ?_, ?_⟩ <;>
      ((repeat rw [g_p_ne _ _ _ _ _ _ (by simp only [DEV_DIR_STATE, DEV_DIR_MASK, DEV_DIR_QBASE, DEV_DIR_QCOUNT, DEV_DIR_CLUSTERS, Fld.bit]; omega)]); exact g_p_self _ _ _ _)
  · simp only [if_neg h]
    refine ⟨?_, ?_, ?_, ?_⟩ <;>
      (repeat rw [g_p_ne _ _ _ _ _ _ (by simp only [DEV_DIR_STATE, DEV_DIR_MASK, DEV_DIR_QBASE, DEV_DIR_QCOUNT, DEV_DIR_CLUSTERS, Fld.bit]; omega)])
/-- A partition's state becomes one that is neither FREE nor RESIZING. -/
theorem state_own {d : Dev} (i v : Nat) (h : OneOwner d) (h0 : v % 8 ≠ 0) (h3 : v % 8 ≠ 3) : OneOwner (p d pDEV (DEV_DIR_STATE i) v) := by
  have hi := dirOf_state d i v i
  simp only [dirOf, Prod.mk.injEq, if_pos] at hi
  obtain ⟨e1, e2, e3, e4, e5, e6⟩ := hi
  refine h.change i (fun j _ hj => ?_) (fun _ h' => ?_) (fun _ n _ hn => Or.inl ?_) (fun _ q hq => Or.inl ?_)
  · rw [dirOf_state, if_neg hj]; rfl
  · exact absurd (e1 ▸ h') h0
  · simp only [claims, promised, e1, e2, Bool.and_eq_true, beq_iff_eq] at hn ⊢
    rcases hn with hn | hn
    · exact Or.inl hn
    · exact absurd hn.1 h3
  · simp only [claimsQueue, e1, e3, e4] at hq ⊢
    rcases hq with hn | hn
    · exact Or.inl hn
    · exact absurd hn.1 h3
/-- A partition's resize is forgotten. -/
theorem setPtn_clear_own {d : Dev} (i : Nat) (c : Ptn) (h : OneOwner d) (h1 : c.pendMask = 0) (h2 : c.pendShape = 0) : OneOwner (setPtn d i c) := by
  have hi := dirOf_setPtn d i c i
  simp only [dirOf, Prod.mk.injEq, if_pos] at hi
  obtain ⟨e1, e2, e3, e4, e5, e6⟩ := hi
  refine h.change i (fun j _ hj => ?_) (fun hi h' => ?_) (fun _ n _ hn => Or.inl ?_) (fun _ q hq => Or.inl ?_)
  · rw [dirOf_setPtn, if_neg hj, if_neg hj]; rfl
  · rw [e2, e4]; exact h.free i hi (e1 ▸ h')
  · simp only [claims, promised, e1, e2, e5, h1, Bool.and_eq_true, beq_iff_eq, Nat.zero_testBit, Bool.false_eq_true, and_false, or_false] at hn ⊢
    exact Or.inl hn
  · simp only [claimsQueue, e1, e3, e4, e6, h2, shapeQbase, shapeQcount, bitsAt, Nat.zero_shiftRight, Nat.zero_div, Nat.zero_mod] at hq ⊢
    rcases hq with hn | hn
    · exact Or.inl hn
    · omega
theorem modPtn_clear_own {d : Dev} (i : Nat) (f : Ptn → Ptn) (h : OneOwner d) (h1 : ∀ x, (f x).pendMask = 0 ∧ (f x).pendShape = 0) : OneOwner (modPtn d i f) :=
  setPtn_clear_own _ _ h (h1 _).1 (h1 _).2
/-- A directory entry takes values that no other partition has. -/
theorem setDir_own {d : Dev} (i st m qb qc : Nat) (h : OneOwner d) (h0 : st % 8 = 0 → m = 0 ∧ qc = 0) (h3 : st % 8 ≠ 3)
    (hc : i < 16 → ∀ n < 64, m.testBit n = true → d.claims i n ∨ ∀ j < 16, j ≠ i → ¬ d.claims j n)
    (hl : qb < 8192) (hm : qc < 8192)
    (hq : i < 16 → ∀ q, qb ≤ q → q < qb + qc → d.claimsQueue i q ∨ (∀ j < 16, j ≠ i → ¬ d.claimsQueue j q) ∧ 16 ≤ q ∧ q < 8192) :
    OneOwner (setDir d i st m qb qc) := by
  have hi := dirOf_setDir d i st m qb qc i
  simp only [dirOf, Prod.mk.injEq, if_pos] at hi
  obtain ⟨e1, e2, e3, e4, e5, e6⟩ := hi
  refine h.change i (fun j _ hj => ?_) (fun hi h' => ?_) (fun hi n hn64 hn => ?_) (fun hi q hq' => ?_)
  · rw [dirOf_setDir]; simp only [if_neg hj]; rfl
  · obtain ⟨a, b⟩ := h0 (e1 ▸ h'); rw [e2, e4, a, b]; exact ⟨rfl, rfl⟩
  · simp only [claims, promised, e1, e2, Bool.and_eq_true, beq_iff_eq] at hn
    rcases hn with hn | hn
    · rw [Nat.testBit_mod_two_pow, Bool.and_eq_true, decide_eq_true_eq] at hn
      exact hc hi n hn.1 hn.2
    · exact absurd hn.1 h3
  · simp only [claimsQueue, e1, e3, e4] at hq'
    rcases hq' with hn | hn
    · exact hq hi q (by omega) (by omega)
    · exact absurd hn.1 h3
theorem setDir_free_own {d : Dev} (i : Nat) (h : OneOwner d) : OneOwner (setDir d i 0 0 0 0) :=
  setDir_own i 0 0 0 0 h (fun _ => ⟨rfl, rfl⟩) (by decide) (fun _ n _ hn => by simp at hn) (by omega) (by omega) (fun _ q h1 h2 => by omega)
/-- What the arbiter of PTN_CREATE and PTN_RESIZE finds free, no other partition has. -/
theorem clusters_free {d : Dev} {i mask : Nat} (h : OneOwner d) (hm : d.clustersTaken i mask = false) {n : Nat} (hn : n < 64) (hb : mask.testBit n = true) :
    ∀ j < 16, j ≠ i → ¬ d.claims j n := by
  intro j hj hji hc
  have h1 : n ∈ maskList mask := by simp only [maskList, List.mem_filter, List.mem_range]; exact ⟨hn, hb⟩
  have h2 := List.any_eq_false.1 hm n h1
  simp only [Bool.or_eq_true, not_or, List.any_eq_true, not_exists, not_and, List.mem_range] at h2
  have h3 := h2.2 j hj
  simp only [Bool.and_eq_true, decide_eq_true_eq, Bool.or_eq_true, not_and, not_or] at h3
  have h4 := h3 hji
  rcases hc with hc | hc
  · apply h4.1
    simp only [owns, Bool.and_eq_true, decide_eq_true_eq]
    refine ⟨fun h0 => ?_, hc⟩
    rw [(h.free j hj h0).1] at hc
    simp at hc
  · exact h4.2 hc
theorem queues_free {d : Dev} {i base count : Nat} (h : OneOwner d) (hm : d.queuesTaken i base count = false) :
    base < 8192 ∧ count < 8192 ∧ ∀ q, base ≤ q → q < base + count → (∀ j < 16, j ≠ i → ¬ d.claimsQueue j q) ∧ 16 ≤ q ∧ q < 8192 := by
  simp only [queuesTaken, Bool.or_eq_false_iff, decide_eq_false_iff_not, beq_eq_false_iff_ne] at hm
  obtain ⟨⟨⟨h1, h2⟩, h3⟩, h4⟩ := hm
  refine ⟨by omega, by omega, fun q h5 h6 => ⟨fun j hj hji hc => ?_, by omega, by omega⟩⟩
  have h7 := List.any_eq_false.1 h4 j (List.mem_range.2 hj)
  simp only [Bool.and_eq_true, decide_eq_true_eq, Bool.or_eq_true, not_and, not_or, overlaps, beq_iff_eq] at h7
  rcases hc with hc | hc
  · have h0 : d.dirState j ≠ 0 := fun h0 => by have := (h.free j hj h0).2; omega
    have := (h7 ⟨hji, h0⟩).1
    omega
  · have := (h7 ⟨hji, by omega⟩).2 hc.1
    omega
theorem blank_own {d : Dev} (h : ∀ i < 16, d.dirState i = 0 ∧ d.mask i = 0 ∧ d.g pDEV (DEV_DIR_QCOUNT i) = 0) : OneOwner d := by
  have hc (i : Nat) (hi : i < 16) (n : Nat) : ¬ d.claims i n := by
    obtain ⟨h1, h2, h3⟩ := h i hi
    simp [claims, promised, h1, h2]
  have hq (i : Nat) (hi : i < 16) (n : Nat) : ¬ d.claimsQueue i n := by
    obtain ⟨h1, h2, h3⟩ := h i hi
    simp only [claimsQueue, h1, h3]; omega
  exact ⟨fun i hi _ => (h i hi).2, fun i hi j _ n _ hn _ => absurd hn (hc i hi n), fun i hi j _ n hn _ => absurd hn (hq i hi n), fun i hi n hn => absurd hn (hq i hi n)⟩
theorem reset_own : OneOwner reset := blank_own (fun _ _ => ⟨rfl, rfl, rfl⟩)

variable {z : Dev}
theorem foldl_own {α : Type} (f : Dev → α → Dev) (xs : List α) (d : Dev) (h : OneOwner d) (hf : ∀ e a, OneOwner e → OneOwner (f e a)) : OneOwner (xs.foldl f d) := by
  induction xs generalizing d with
  | nil => exact h
  | cons x xs ih => exact ih _ (hf _ _ h)
theorem fold1_own {α β : Type} (f : Dev × β → α → Dev × β) (xs : List α) (r : Dev × β) (h : OneOwner r.1) (hf : ∀ e a, OneOwner e.1 → OneOwner (f e a).1) : OneOwner (xs.foldl f r).1 := by
  induction xs generalizing r with
  | nil => exact h
  | cons x xs ih => exact ih _ (hf _ _ h)
theorem each_own {α : Type} (d : Dev) (xs : List α) (f : Dev → α → Dev) (h : OneOwner d) (hf : ∀ e a, OneOwner e → OneOwner (f e a)) : OneOwner (d.each xs f) := foldl_own f xs d h hf
theorem iff_own (d : Dev) (c : Bool) (f : Dev → Dev) (h : OneOwner d) (hf : ∀ e, OneOwner e → OneOwner (f e)) : OneOwner (d.iff c f) := by
  unfold iff; split
  · exact hf d h
  · exact h
theorem OneOwner.lit {d : Dev} {pairRd : SMap Nat} {pairWr : SMap Nat} {code : Code} {st : Stores} {fab : SMap Sig} {clu : SMap Clu} {queue : SMap Queue} {dsp : Dsp} {ime : Ime} {trg : Trg} {cap : Cap} {trc : SMap Strm} {nonce : Option (BitVec 256)} {link : SMap Link} {noc : Noc} {boot : Boot} {pwr : Pwr} {ring : Ring} {log : LogS} {mnt : Mnt} {sys : Sys} {time : Nat} {slewTo : Int} {ticks : Nat} {latchAt : Option Nat} {strobeSrc : Option Nat} {raised : List (Nat × WordLoc × Bool)} {rewrites : List (Nat × WordLoc × Bool)} {evq : List Ev} {bus : List Nat} {answers : List (List W64)} {heldAns : List (Nat × List W64)} {out : List Out} {fresh : Nat} {hbm : SMap Byte} : OneOwner ⟨d.fld, pairRd, pairWr, code, st, fab, clu, d.ptn, queue, dsp, hbm, ime, trg, cap, trc, nonce, link, noc, boot, pwr, ring, log, mnt, sys, time, slewTo, ticks, latchAt, strobeSrc, raised, rewrites, evq, bus, answers, heldAns, out, fresh⟩ = OneOwner d :=
  propext ⟨fun h => h.of (Eq.refl _) (Eq.refl _), fun h => h.of (Eq.refl _) (Eq.refl _)⟩
theorem emit_own (d : Dev) (o : Out) (h : OneOwner d) : OneOwner (emit d o) := OneOwner.of_dir (emit_dir d o Dir.rfl) h
theorem tick_own (d : Dev)  (h : OneOwner d) : OneOwner (tick d ) := OneOwner.of_dir (tick_dir d Dir.rfl) h
theorem raise_own (d : Dev) (num cls owner i0 i1 : Nat) (h : OneOwner d) : OneOwner (raise d num cls owner i0 i1) := OneOwner.of_dir (raise_dir d num cls owner i0 i1 Dir.rfl) h
theorem setQueue_own (d : Dev) (n : Nat) (c : Queue) (h : OneOwner d) : OneOwner (setQueue d n c) := OneOwner.of_dir (setQueue_dir d n c Dir.rfl) h
theorem setClu_own (d : Dev) (n : Nat) (c : Clu) (h : OneOwner d) : OneOwner (setClu d n c) := OneOwner.of_dir (setClu_dir d n c Dir.rfl) h
theorem setLink_own (d : Dev) (n : Nat) (c : Link) (h : OneOwner d) : OneOwner (setLink d n c) := OneOwner.of_dir (setLink_dir d n c Dir.rfl) h
theorem p_own (d : Dev) (base : Nat) (f : Fld) (v : Nat) (h : OneOwner d) (ho : Off base f) : OneOwner (p d base f v) := OneOwner.of_dir (p_dir d base f v Dir.rfl ho) h
theorem on_own (d : Dev) (base : Nat) (f : Fld) (h0 : OneOwner d) (ho : Off base f) : OneOwner (on d base f) := OneOwner.of_dir (on_dir d base f Dir.rfl ho) h0
theorem clr_own (d : Dev) (base : Nat) (f : Fld) (h0 : OneOwner d) (ho : Off base f) : OneOwner (clr d base f) := OneOwner.of_dir (clr_dir d base f Dir.rfl ho) h0
theorem add_own (d : Dev) (base : Nat) (f : Fld) (n : Nat) (h0 : OneOwner d) (ho : Off base f) : OneOwner (add d base f n) := OneOwner.of_dir (add_dir d base f n Dir.rfl ho) h0
theorem resetRange_own (d : Dev) (lo hi : Nat) (h : OneOwner d) (ho : hi ≤ 0x200 ∨ 0x300 ≤ lo) : OneOwner (resetRange d lo hi) := OneOwner.of_dir (resetRange_dir d lo hi Dir.rfl ho) h
theorem atPtn_own (d : Dev) (i : Nat) (k : Dev → Dev) (h0 : OneOwner d) (hk : ∀ e, OneOwner e → OneOwner (k e)) : OneOwner (atPtn d i k) := by
  unfold atPtn
  repeat' first
    | with_reducible assumption
    | with_reducible apply hk
    | simp -implicitDefEqProofs only [OneOwner.lit]
    | split
    | intro _
    | dsimp only
theorem accessError_own (d : Dev) (fn : Fn) (bar off : Nat) (write : Bool) (h0 : OneOwner d) : OneOwner (accessError d fn bar off write) := OneOwner.of_dir (accessError_dir d fn bar off write Dir.rfl) h0
theorem hostTimeout_own (d : Dev) (fn : Fn) (h : Option Nat) (bar off : Nat) (write : Bool) (h0 : OneOwner d) : OneOwner (hostTimeout d fn h bar off write) := OneOwner.of_dir (hostTimeout_dir d fn h bar off write Dir.rfl) h0
theorem noRoute_own (d : Dev) (h0 : OneOwner d) : OneOwner (noRoute d) := OneOwner.of_dir (noRoute_dir d Dir.rfl) h0
theorem viaNoc_own (d : Dev) (fn : Fn) (h : Option Nat) (bar off : Nat) (write : Bool) (fail k : Dev → Dev) (h0 : OneOwner d) (hf : ∀ e, OneOwner e → OneOwner (fail e)) (hk : ∀ e, OneOwner e → OneOwner (k e)) : OneOwner (viaNoc d fn h bar off write fail k) := by
  unfold viaNoc
  repeat' first
    | with_reducible assumption
    | with_reducible apply hf
    | with_reducible apply hk
    | with_reducible apply accessError_own
    | with_reducible apply noRoute_own
    | with_reducible apply hostTimeout_own
    | simp -implicitDefEqProofs only [OneOwner.lit]
    | split
    | intro _
    | dsimp only
theorem ctlBad_own (d : Dev) (gi : Nat) (h0 : OneOwner d) : OneOwner (ctlBad d gi) := OneOwner.of_dir (ctlBad_dir d gi Dir.rfl) h0
theorem linkedMsg_own (d : Dev) (gi i : Nat) (intact : Bool) (k : Dev → Dev) (h0 : OneOwner d) (hk : ∀ e, OneOwner e → OneOwner (k e)) : OneOwner (linkedMsg d gi i intact k) := by
  unfold linkedMsg
  repeat' first
    | with_reducible assumption
    | with_reducible apply hk
    | with_reducible apply ctlBad_own
    | simp -implicitDefEqProofs only [OneOwner.lit]
    | split
    | intro _
    | dsimp only
theorem atPage_own (d : Dev) (base : Nat) (k : Dev → Dev) (h0 : OneOwner d) (hk : ∀ e, OneOwner e → OneOwner (k e)) : OneOwner (atPage d base k) := by
  unfold atPage
  repeat' first
    | with_reducible assumption
    | with_reducible apply hk
    | simp -implicitDefEqProofs only [OneOwner.lit]
    | split
    | intro _
    | dsimp only
theorem unreachable_own (d : Dev) (h0 : OneOwner d) : OneOwner (unreachable d) := OneOwner.of_dir (unreachable_dir d Dir.rfl) h0
theorem viaFence_own (d : Dev) (fn : Fn) (h : Option Nat) (off : Nat) (write : Bool) (fail k : Dev → Dev) (h0 : OneOwner d) (hf : ∀ e, OneOwner e → OneOwner (fail e)) (hk : ∀ e, OneOwner e → OneOwner (k e)) : OneOwner (viaFence d fn h off write fail k) := by
  unfold viaFence
  repeat' first
    | with_reducible assumption
    | with_reducible apply hf
    | with_reducible apply hk
    | with_reducible apply viaNoc_own
    | with_reducible apply hostTimeout_own
    | with_reducible apply accessError_own
    | with_reducible apply unreachable_own
    | simp -implicitDefEqProofs only [OneOwner.lit]
    | split
    | intro _
    | dsimp only
theorem complete_own (d : Dev) (fn : Fn) (a v : Nat) (h0 : OneOwner d) : OneOwner (complete d fn a v) := OneOwner.of_dir (complete_dir d fn a v Dir.rfl) h0
theorem atCluster_own (d : Dev) (fn : Fn) (n a : Nat) (write : Bool) (k : Dev → Dev) (h0 : OneOwner d) (hk : ∀ e, OneOwner e → OneOwner (k e)) : OneOwner (atCluster d fn n a write k) := by
  unfold atCluster
  repeat' first
    | with_reducible assumption
    | with_reducible apply hk
    | with_reducible apply complete_own
    | with_reducible apply viaFence_own
    | simp -implicitDefEqProofs only [OneOwner.lit]
    | split
    | intro _
    | dsimp only
theorem unload_own (d : Dev) (i : Nat) (h0 : OneOwner d) : OneOwner (unload d i) := by
  unfold unload
  repeat' first
    | with_reducible assumption
    | decide
    | with_reducible apply state_own
    | with_reducible apply p_own
    | exact fun _ => ⟨Eq.refl _, Eq.refl _⟩
    | simp -implicitDefEqProofs only [OneOwner.lit, off_pPTN, off_pRST, off_DEV_DIR_RESTORE_DUE, off_DEV_DIR_LINKED, off_DEV_DIR_VF, page_pPTN, ge_pPTN]
    | split
    | intro _
    | dsimp only
theorem cutSave_own (d : Dev) (i : Nat) (h0 : OneOwner d) : OneOwner (cutSave d i) := OneOwner.of_dir (cutSave_dir d i Dir.rfl) h0
theorem scrambleState_own (d : Dev) (i : Nat) (far : Bool) (h0 : OneOwner d) : OneOwner (scrambleState d i far) := OneOwner.of_dir (scrambleState_dir d i far Dir.rfl) h0
theorem snapEnd_own (d : Dev) (i result : Nat) (h0 : OneOwner d) : OneOwner (snapEnd d i result) := OneOwner.of_dir (snapEnd_dir d i result Dir.rfl) h0
theorem snapGet_own (d : Dev) (i a n : Nat) (h0 : OneOwner d) : OneOwner (snapGet d i a n).1 := OneOwner.of_dir (snapGet_dir d i a n Dir.rfl) h0
theorem doSnapAbort_own (d : Dev) (i : Nat) (h0 : OneOwner d) : OneOwner (doSnapAbort d i) := by
  unfold doSnapAbort
  repeat' first
    | with_reducible assumption
    | with_reducible apply cutSave_own
    | with_reducible apply scrambleState_own
    | with_reducible apply snapEnd_own
    | with_reducible apply snapGet_own
    | with_reducible apply unload_own
    | simp -implicitDefEqProofs only [OneOwner.lit, off_pPTN, page_pPTN, ge_pPTN]
    | split
    | intro _
    | dsimp only
theorem bar4Error_own (d : Dev) (fn : Fn) (off : Nat) (write : Bool) (h0 : OneOwner d) : OneOwner (bar4Error d fn off write) := OneOwner.of_dir (bar4Error_dir d fn off write Dir.rfl) h0
theorem id_own (d : Dev) (h : OneOwner d) : OneOwner (id d) := OneOwner.of_dir (id_dir d Dir.rfl) h
theorem atSlot_own (d : Dev) (fn : Fn) (slot off : Nat) (k : Dev → Nat → Dev) (h0 : OneOwner d) (hk : ∀ e q, OneOwner e → OneOwner (k e q)) : OneOwner (atSlot d fn slot off k) := by
  unfold atSlot
  repeat' first
    | with_reducible assumption
    | with_reducible apply hk
    | with_reducible apply viaNoc_own
    | with_reducible apply bar4Error_own
    | with_reducible apply id_own
    | simp -implicitDefEqProofs only [OneOwner.lit]
    | split
    | intro _
    | dsimp only
theorem atQueue_own (d : Dev) (fn : Fn) (q : Nat) (k : Dev → Nat → Dev) (h0 : OneOwner d) (hk : ∀ e q, OneOwner e → OneOwner (k e q)) : OneOwner (atQueue d fn q k) := by
  unfold atQueue
  repeat' first
    | with_reducible assumption
    | with_reducible apply hk
    | simp -implicitDefEqProofs only [OneOwner.lit]
    | split
    | intro _
    | dsimp only
theorem abandon_own (d : Dev) (src : Nat) (h0 : OneOwner d) : OneOwner (abandon d src) := OneOwner.of_dir (abandon_dir d src Dir.rfl) h0
theorem capDrop_own (d : Dev) (c : Nat) (h0 : OneOwner d) : OneOwner (capDrop d c) := OneOwner.of_dir (capDrop_dir d c Dir.rfl) h0
theorem disarmOwner_own (d : Dev) (i : Nat) (h0 : OneOwner d) : OneOwner (disarmOwner d i) := OneOwner.of_dir (disarmOwner_dir d i Dir.rfl) h0
theorem dropActivities_own (d : Dev) (i : Nat) (h0 : OneOwner d) : OneOwner (dropActivities d i) := OneOwner.of_dir (dropActivities_dir d i Dir.rfl) h0
theorem forgetSigs_own (d : Dev) (i : Nat) (h0 : OneOwner d) : OneOwner (forgetSigs d i) := OneOwner.of_dir (forgetSigs_dir d i Dir.rfl) h0
theorem forgetSteps_own (d : Dev) (i : Nat) (h0 : OneOwner d) : OneOwner (forgetSteps d i) := OneOwner.of_dir (forgetSteps_dir d i Dir.rfl) h0
theorem landFar_own (d : Dev) (n : Nat) (sure : Bool) (h0 : OneOwner d) : OneOwner (landFar d n sure) := OneOwner.of_dir (landFar_dir d n sure Dir.rfl) h0
theorem modPtn_own (d : Dev) (i : Nat) (f : Ptn → Ptn) (h : OneOwner d) (h1 : ∀ x, (f x).pendMask = x.pendMask ∧ (f x).pendShape = x.pendShape) : OneOwner (modPtn d i f) := OneOwner.of_dir (modPtn_dir d i f Dir.rfl h1) h
theorem placeAllHeld_own (d : Dev) (l : Nat) (h0 : OneOwner d) : OneOwner (placeAllHeld d l) := OneOwner.of_dir (placeAllHeld_dir d l Dir.rfl) h0
theorem resetBudgets_own (d : Dev) (i : Nat) (h0 : OneOwner d) : OneOwner (resetBudgets d i) := OneOwner.of_dir (resetBudgets_dir d i Dir.rfl) h0
theorem resetCluster_own (d : Dev) (n : Nat) (h0 : OneOwner d) : OneOwner (resetCluster d n) := OneOwner.of_dir (resetCluster_dir d n Dir.rfl) h0
theorem resetItems_own (d : Dev) (i : Nat) (h0 : OneOwner d) : OneOwner (resetItems d i) := OneOwner.of_dir (resetItems_dir d i Dir.rfl) h0
theorem resetStream_own (d : Dev) (s : Nat) (h0 : OneOwner d) : OneOwner (resetStream d s) := OneOwner.of_dir (resetStream_dir d s Dir.rfl) h0
theorem ptnResetNow_own (d : Dev) (i : Nat) (h0 : OneOwner d) : OneOwner (ptnResetNow d i) := by
  unfold ptnResetNow
  repeat' first
    | with_reducible assumption
    | decide
    | with_reducible apply state_own
    | with_reducible apply far_add
    | with_reducible apply far_self
    | with_reducible apply placeAllHeld_own
    | with_reducible apply modPtn_clear_own
    | with_reducible apply p_own
    | with_reducible apply dropActivities_own
    | with_reducible apply resetItems_own
    | with_reducible apply forgetSteps_own
    | with_reducible apply forgetSigs_own
    | with_reducible apply each_own
    | with_reducible apply landFar_own
    | with_reducible apply resetCluster_own
    | with_reducible apply abandon_own
    | with_reducible apply disarmOwner_own
    | with_reducible apply capDrop_own
    | with_reducible apply resetStream_own
    | with_reducible apply resetBudgets_own
    | with_reducible apply resetRange_own
    | exact fun _ => ⟨Eq.refl _, Eq.refl _⟩
    | simp -implicitDefEqProofs only [OneOwner.lit, off_pPTN, off_pRST, off_DEV_DIR_RESTORE_DUE, off_DEV_DIR_LINKED, off_DEV_DIR_VF, page_pPTN, ge_pPTN]
    | split
    | intro _
    | dsimp only
theorem ptnResetReq_own (d : Dev) (i : Nat) (h0 : OneOwner d) : OneOwner (ptnResetReq d i) := by
  unfold ptnResetReq
  repeat' first
    | with_reducible assumption
    | with_reducible apply modPtn_own
    | with_reducible apply ptnResetNow_own
    | exact fun _ => ⟨Eq.refl _, Eq.refl _⟩
    | exact ⟨trivial, trivial⟩
    | simp -implicitDefEqProofs only [OneOwner.lit]
    | split
    | intro _
    | dsimp only
theorem serving_own (d : Dev) (k : Dev → Dev) (h0 : OneOwner d) (hk : ∀ e, OneOwner e → OneOwner (k e)) : OneOwner (serving d k) := by
  unfold serving
  repeat' first
    | with_reducible assumption
    | with_reducible apply hk
    | simp -implicitDefEqProofs only [OneOwner.lit]
    | split
    | intro _
    | dsimp only
theorem clearCluster_own (d : Dev) (n : Nat) (h0 : OneOwner d) : OneOwner (clearCluster d n) := OneOwner.of_dir (clearCluster_dir d n Dir.rfl) h0
theorem clearQueues_own (d : Dev) (lo n : Nat) (h0 : OneOwner d) : OneOwner (clearQueues d lo n) := OneOwner.of_dir (clearQueues_dir d lo n Dir.rfl) h0
theorem openPtn_own (d : Dev) (i : Nat) (vf : Bool) (mask shape a size : Nat) (h0 : OneOwner d) (hm : d.clustersTaken i mask = false)
    (hq : d.queuesTaken i (shapeQbase shape) (shapeQcount shape) = false) : OneOwner (openPtn d i vf mask shape a size) := by
  have hd : Dir d ((d.tick.each (maskList mask) clearCluster).clearQueues (shapeQbase shape) (shapeQcount shape)) :=
    clearQueues_dir _ _ _ (each_dir _ _ _ (tick_dir _ Dir.rfl) fun e n he => clearCluster_dir _ _ he)
  have hf := queues_free h0 hq
  unfold openPtn
  dsimp only
  refine setPtn_clear_own _ _ (p_own _ _ _ _ (p_own _ _ _ _ ?_ (of_eq_true (off_DEV_DIR_VF _))) (of_eq_true (off_pPTN _ _))) rfl rfl
  refine setDir_own _ _ _ _ _ (OneOwner.of_dir hd h0) (fun h => absurd h (by decide)) (by decide) (fun hi n hn hb => Or.inr fun j hj hji => ?_) hf.1 hf.2.1 (fun hi q h1 h2 => Or.inr ⟨fun j hj hji => ?_, ?_⟩)
  · rw [claims_eq (hd.same j hj)]; exact clusters_free h0 hm hn hb j hj hji
  · rw [claimsQueue_eq (hd.same j hj)]; exact (hf.2.2 q h1 h2).1 j hj hji
  · exact (hf.2.2 q h1 h2).2
theorem answer_own (d : Dev) (op : Nat) (tag : Nat) (status : Nat) (ws : List W64) (h0 : OneOwner d) : OneOwner (answer d op tag status ws) := OneOwner.of_dir (answer_dir d op tag status ws Dir.rfl) h0
theorem answerPtn_own (d : Dev) (i op tag status : Nat) (ws : List W64) (h0 : OneOwner d) : OneOwner (answerPtn d i op tag status ws) := OneOwner.of_dir (answerPtn_dir d i op tag status ws Dir.rfl) h0
theorem takeService_own (d : Dev) (op : Nat) (tag : Nat) (arg : Nat) (ws : List W64) (h0 : OneOwner d) : OneOwner (takeService d op tag arg ws) := OneOwner.of_dir (takeService_dir d op tag arg ws Dir.rfl) h0
theorem doPtnCreate_own (d : Dev) (tag i : Nat) (vf : Bool) (mask shape quota : Nat) (h0 : OneOwner d) : OneOwner (doPtnCreate d tag i vf mask shape quota) := by
  unfold doPtnCreate
  dsimp only
  have h1 := takeService_own d 0x10 tag (i + (if vf then 16 else 0)) [BitVec.ofNat 64 mask, BitVec.ofNat 64 shape, BitVec.ofNat 64 quota] h0
  generalize d.takeService 0x10 tag (i + (if vf then 16 else 0)) [BitVec.ofNat 64 mask, BitVec.ofNat 64 shape, BitVec.ofNat 64 quota] = e at h1 ⊢
  split
  · exact answerPtn_own _ _ _ _ _ _ h1
  · split
    · exact answer_own _ _ _ _ _ h1
    · next hm =>
      split
      · exact answer_own _ _ _ _ _ h1
      · split
        · exact answer_own _ _ _ _ _ h1
        · next hq =>
          split
          · exact answer_own _ _ _ _ _ h1
          · exact answer_own _ _ _ _ _ (openPtn_own _ _ _ _ _ _ _ h1 (Bool.eq_false_iff.2 hm) (Bool.eq_false_iff.2 hq))
theorem drainNi_own (d : Dev) (n : Nat) (h0 : OneOwner d) : OneOwner (drainNi d n) := OneOwner.of_dir (drainNi_dir d n Dir.rfl) h0
theorem endBatch_own (d : Dev) (i : Nat) (h0 : OneOwner d) : OneOwner (endBatch d i) := OneOwner.of_dir (endBatch_dir d i Dir.rfl) h0
theorem farDrain_own (d : Dev) (n : Nat) (h0 : OneOwner d) : OneOwner (farDrain d n) := OneOwner.of_dir (farDrain_dir d n Dir.rfl) h0
theorem releaseDebug_own (d : Dev) (i : Nat) (h0 : OneOwner d) : OneOwner (releaseDebug d i) := OneOwner.of_dir (releaseDebug_dir d i Dir.rfl) h0
theorem stopNow_own (d : Dev) (i : Nat) (h0 : OneOwner d) : OneOwner (stopNow d i) := OneOwner.of_dir (stopNow_dir d i Dir.rfl) h0
theorem doPtnDestroy_own (d : Dev) (tag i : Nat) (h0 : OneOwner d) : OneOwner (doPtnDestroy d tag i) := by
  unfold doPtnDestroy
  repeat' first
    | with_reducible assumption
    | decide
    | with_reducible apply state_own
    | with_reducible apply takeService_own
    | with_reducible apply answer_own
    | with_reducible apply answerPtn_own
    | with_reducible apply doSnapAbort_own
    | with_reducible apply endBatch_own
    | with_reducible apply stopNow_own
    | with_reducible apply each_own
    | with_reducible apply farDrain_own
    | with_reducible apply drainNi_own
    | with_reducible apply releaseDebug_own
    | with_reducible apply modPtn_own
    | with_reducible apply p_own
    | exact fun _ => ⟨Eq.refl _, Eq.refl _⟩
    | simp -implicitDefEqProofs only [OneOwner.lit, off_pPTN, off_pRST, off_DEV_DIR_RESTORE_DUE, off_DEV_DIR_LINKED, off_DEV_DIR_VF, page_pPTN, ge_pPTN]
    | split
    | intro _
    | dsimp only
theorem doZeroingComplete_own (d : Dev) (ch : Nat) (h0 : OneOwner d) : OneOwner (doZeroingComplete d ch) := OneOwner.of_dir (doZeroingComplete_dir d ch Dir.rfl) h0
theorem mntFree_own (d : Dev) (id : Nat) (h0 : OneOwner d) : OneOwner (mntFree d id) := OneOwner.of_dir (mntFree_dir d id Dir.rfl) h0
theorem releaseAnswers_own (d : Dev) (i : Nat) (h0 : OneOwner d) : OneOwner (releaseAnswers d i) := OneOwner.of_dir (releaseAnswers_dir d i Dir.rfl) h0
theorem releaseCluster_own (d : Dev) (n : Nat) (h0 : OneOwner d) : OneOwner (releaseCluster d n) := OneOwner.of_dir (releaseCluster_dir d n Dir.rfl) h0
theorem returnItems_own (d : Dev) (i : Nat) (moves : Work → Bool) (h0 : OneOwner d) : OneOwner (returnItems d i moves).1 := OneOwner.of_dir (returnItems_dir d i moves Dir.rfl) h0
theorem zeroRange_own (d : Dev) (r : Req) (a n : Nat) (h0 : OneOwner d) : OneOwner (zeroRange d r a n) := OneOwner.of_dir (zeroRange_dir d r a n Dir.rfl) h0
theorem doPtnClose_own (d : Dev) (i : Nat) (h0 : OneOwner d) : OneOwner (doPtnClose d i) := by
  unfold doPtnClose
  repeat' first
    | with_reducible assumption
    | exact Eq.refl _
    | with_reducible apply far_self
    | with_reducible apply setDir_free_own
    | with_reducible apply setPtn_clear_own
    | with_reducible apply returnItems_own
    | with_reducible apply placeAllHeld_own
    | with_reducible apply each_own
    | with_reducible apply doZeroingComplete_own
    | with_reducible apply clearQueues_own
    | with_reducible apply unload_own
    | with_reducible apply zeroRange_own
    | with_reducible apply releaseCluster_own
    | with_reducible apply resetBudgets_own
    | with_reducible apply mntFree_own
    | with_reducible apply forgetSteps_own
    | with_reducible apply forgetSigs_own
    | with_reducible apply p_own
    | with_reducible apply resetRange_own
    | with_reducible apply answer_own
    | with_reducible apply releaseAnswers_own
    | exact fun _ => ⟨Eq.refl _, Eq.refl _⟩
    | simp -implicitDefEqProofs only [OneOwner.lit, off_pPTN, off_pRST, off_DEV_DIR_RESTORE_DUE, off_DEV_DIR_LINKED, off_DEV_DIR_VF, page_pPTN, ge_pPTN]
    | split
    | intro _
    | dsimp only
theorem mntRequest_own (d : Dev) (id adds sparing : Nat) (retry : Bool) (h0 : OneOwner d) : OneOwner (mntRequest d id adds sparing retry).1 := OneOwner.of_dir (mntRequest_dir d id adds sparing retry Dir.rfl) h0
theorem doPtnResize_own (d : Dev) (tag i : Nat) (retarget : Bool) (mask shape : Nat) (h0 : OneOwner d) : OneOwner (doPtnResize d tag i retarget mask shape) := by
  unfold doPtnResize
  dsimp only
  have h1 := takeService_own d 0x12 tag (i + (if retarget then 16 else 0)) [BitVec.ofNat 64 mask, BitVec.ofNat 64 shape] h0
  generalize d.takeService 0x12 tag (i + (if retarget then 16 else 0)) [BitVec.ofNat 64 mask, BitVec.ofNat 64 shape] = e at h1 ⊢
  split
  · split
    · exact answer_own _ _ _ _ _ h1
    · exact answerPtn_own _ _ _ _ _ _ h1
  · next hr =>
    have hr : e.resizeRefusal i retarget mask shape = 0 := by simpa using hr
    have hk : e.clustersTaken i mask = false ∧ e.queuesTaken i (shapeQbase shape) (shapeQcount shape) = false := by
      unfold resizeRefusal at hr
      dsimp only at hr
      constructor
      · cases hc : e.clustersTaken i mask
        · rfl
        · rw [hc] at hr
          repeat' split at hr
          all_goals first | exact absurd hr (by decide) | (exfalso; simp_all; repeat' split at hr) <;> omega
      · cases hc : e.queuesTaken i (shapeQbase shape) (shapeQcount shape)
        · rfl
        · rw [hc] at hr
          repeat' split at hr
          all_goals first | exact absurd hr (by decide) | (exfalso; simp_all; repeat' split at hr) <;> omega
    split
    · exact answer_own _ _ _ _ _ (mntRequest_own _ _ _ _ _ h1)
    · have hd : Dir e ((e.mntRequest (mntId 6 i 0) (maskOf ((maskList mask).filter fun n => !(e.mask i).testBit n)) 0x10000 false).1.each
          ((maskList (e.mask i)).filter fun n => !mask.testBit n) fun d n => (d.farDrain n).drainNi n) :=
        each_dir _ _ _ (mntRequest_dir _ _ _ _ _ Dir.rfl) fun x n hx => drainNi_dir _ _ (farDrain_dir _ _ hx)
      generalize ((e.mntRequest (mntId 6 i 0) (maskOf ((maskList mask).filter fun n => !(e.mask i).testBit n)) 0x10000 false).1.each
          ((maskList (e.mask i)).filter fun n => !mask.testBit n) fun d n => (d.farDrain n).drainNi n) = x at hd ⊢
      have hf := queues_free h1 hk.2
      have hx : ∀ j, ((x.p pDEV (DEV_DIR_STATE i) 3).modPtn i fun y => { y with tagCmd := some (0x12, tag), pendMask := mask, pendShape := shape, retarget := retarget }).dirOf j =
          (if j = i then 3 else x.dirState j, x.mask j, x.g pDEV (DEV_DIR_QBASE j), x.g pDEV (DEV_DIR_QCOUNT j), if j = i then mask else (x.ptnAt j).pendMask, if j = i then shape else (x.ptnAt j).pendShape) := by
        intro j
        unfold modPtn
        rw [dirOf_setPtn]
        have h3 := dirOf_state x i 3 j
        simp only [dirOf, Prod.mk.injEq] at h3
        obtain ⟨e1, e2, e3, e4, -, -⟩ := h3
        rw [e1, e2, e3, e4]; rfl
      have hi := hx i
      simp only [dirOf, Prod.mk.injEq, if_pos] at hi
      obtain ⟨e1, e2, e3, e4, e5, e6⟩ := hi
      refine OneOwner.change i (OneOwner.of_dir hd h1) (fun j _ hj => ?_) (fun hi h' => ?_) (fun hi n hn64 hn => ?_) (fun hi q hq => ?_)
      · rw [hx j]; simp only [if_neg hj]; rfl
      · rw [e1] at h'; exact absurd h' (by decide)
      · simp only [claims, promised, e1, e2, e5, Bool.and_eq_true, beq_iff_eq] at hn
        rcases hn with hn | hn
        · exact Or.inl (Or.inl hn)
        · exact Or.inr fun j hj hji => by rw [claims_eq (hd.same j hj)]; exact clusters_free h1 hk.1 hn64 hn.2 j hj hji
      · simp only [claimsQueue, e1, e3, e4, e6] at hq
        rcases hq with hn | hn
        · exact Or.inl (Or.inl hn)
        · exact Or.inr ⟨fun j hj hji => by rw [claimsQueue_eq (hd.same j hj)]; exact (hf.2.2 q hn.2.1 hn.2.2).1 j hj hji, (hf.2.2 q hn.2.1 hn.2.2).2⟩
theorem moveQueues_own (d : Dev) (i lo n lo' n' : Nat) (h0 : OneOwner d) : OneOwner (moveQueues d i lo n lo' n') := OneOwner.of_dir (moveQueues_dir d i lo n lo' n' Dir.rfl) h0
theorem releasePorts_own (d : Dev) (n : Nat) (h0 : OneOwner d) : OneOwner (releasePorts d n) := OneOwner.of_dir (releasePorts_dir d n Dir.rfl) h0
theorem retargetSave_own (d : Dev) (i : Nat) (h0 : OneOwner d) : OneOwner (retargetSave d i) := OneOwner.of_dir (retargetSave_dir d i Dir.rfl) h0
theorem scrambleTiles_own (d : Dev) (n : Nat) (h0 : OneOwner d) : OneOwner (scrambleTiles d n) := OneOwner.of_dir (scrambleTiles_dir d n Dir.rfl) h0
theorem wakeAll_own (d : Dev) (i : Nat) (h0 : OneOwner d) : OneOwner (wakeAll d i) := OneOwner.of_dir (wakeAll_dir d i Dir.rfl) h0
theorem doPtnResizeComplete_own (d : Dev) (i : Nat) (h0 : OneOwner d) : OneOwner (doPtnResizeComplete d i) := by
  unfold doPtnResizeComplete
  split
  · exact h0
  · next hw =>
    have h3 : d.dirState i = 3 := by
      have := hw; simp only [Bool.or_eq_true, decide_eq_true_eq, not_or] at this; exact Classical.byContradiction fun h => this.1 h
    dsimp only
    have key (e : Dev) (st : Nat) (hd : Dir d e) (hs : st % 8 ≠ 0 ∧ st % 8 ≠ 3) :
        OneOwner (e.setDir i st (d.ptnAt i).pendMask (shapeQbase (d.ptnAt i).pendShape) (shapeQcount (d.ptnAt i).pendShape)) := by
      have hb (m lo : Nat) : bitsAt m lo 13 < 8192 := Nat.mod_lt _ (by decide)
      refine setDir_own _ _ _ _ _ (OneOwner.of_dir hd h0) (fun h => absurd h hs.1) hs.2 (fun hi n hn64 hn => Or.inl ?_) (hb _ _) (hb _ _) (fun hi q h1 h2 => Or.inl ?_)
      · rw [claims_eq (hd.same i hi)]; exact Or.inr (by simp only [promised, h3, hn]; rfl)
      · rw [claimsQueue_eq (hd.same i hi)]; exact Or.inr ⟨h3, h1, h2⟩
    have hst : ∀ b : Bool, (if b then 2 else 1) % 8 ≠ 0 ∧ (if b then 2 else 1) % 8 ≠ 3 := by decide
    suffices h : ∀ e, OneOwner e → OneOwner (if (d.ptnAt i).resetWait = true then e.ptnResetReq i else e) by
      apply h
      apply releaseAnswers_own
      have h : ∀ (e : Dev) (n : Nat), OneOwner e → OneOwner (match (d.ptnAt i).tagCmd with | some (op, tag) => e.answer op tag 0 [BitVec.ofNat 64 n] | none => e) := by
        intro e n he
        split
        · exact answer_own _ _ _ _ _ he
        · exact he
      apply h
      refine modPtn_clear_own _ _ (p_own _ _ _ _ (mntFree_own _ _ ?_) (of_eq_true (off_pPTN _ _))) (fun _ => ⟨rfl, rfl⟩)
      refine iff_own _ _ _ (key _ _ ?_ (hst _)) (fun e he => wakeAll_own _ _ he)
      refine each_dir _ _ _ (each_dir _ _ _ (each_dir _ _ _ ?_ fun e n he => releaseCluster_dir _ _ he) fun e n he => clearCluster_dir _ _ he) fun e n he => scrambleTiles_dir _ _ he
      have hm : Dir d ((((((d.returnItems i (namesMoved false (d.g pDEV (DEV_DIR_QBASE i)) (d.g pDEV (DEV_DIR_QCOUNT i)) (shapeQbase (d.ptnAt i).pendShape) (shapeQcount (d.ptnAt i).pendShape))).1).returnItems 16 (namesMoved true (d.g pDEV (DEV_DIR_QBASE i)) (d.g pDEV (DEV_DIR_QCOUNT i)) (shapeQbase (d.ptnAt i).pendShape) (shapeQcount (d.ptnAt i).pendShape))).1.each
          ((maskList (d.mask i)).filter fun n => !(d.ptnAt i).pendMask.testBit n) fun d c => d.releasePorts c)).moveQueues i (d.g pDEV (DEV_DIR_QBASE i)) (d.g pDEV (DEV_DIR_QCOUNT i)) (shapeQbase (d.ptnAt i).pendShape) (shapeQcount (d.ptnAt i).pendShape)) :=
        moveQueues_dir _ _ _ _ _ _ (each_dir _ _ _ (returnItems_dir _ _ _ (returnItems_dir _ _ _ Dir.rfl)) fun e n he => releasePorts_dir _ _ he)
      split
      · exact retargetSave_dir _ _ hm
      · exact hm
    intro e he
    split
    · exact ptnResetReq_own _ _ he
    · exact he
theorem doOwnerProvision_own (d : Dev) (tag : Nat) (ws : List W64) (h0 : OneOwner d) : OneOwner (doOwnerProvision d tag ws) := OneOwner.of_dir (doOwnerProvision_dir d tag ws Dir.rfl) h0
theorem doPing_own (d : Dev) (tag arg : Nat) (h0 : OneOwner d) : OneOwner (doPing d tag arg) := OneOwner.of_dir (doPing_dir d tag arg Dir.rfl) h0
theorem doPtnQuery_own (d : Dev) (tag i : Nat) (h0 : OneOwner d) : OneOwner (doPtnQuery d tag i) := OneOwner.of_dir (doPtnQuery_dir d tag i Dir.rfl) h0
theorem doTokenChallenge_own (d : Dev) (tag : Byte) (h0 : OneOwner d) : OneOwner (doTokenChallenge d tag) := OneOwner.of_dir (doTokenChallenge_dir d tag Dir.rfl) h0
theorem doTokenPresent_own (d : Dev) (tag : Nat) (ws : List W64) (h0 : OneOwner d) : OneOwner (doTokenPresent d tag ws) := OneOwner.of_dir (doTokenPresent_dir d tag ws Dir.rfl) h0
theorem doTokenRevoke_own (d : Dev) (tag : Byte) (h0 : OneOwner d) : OneOwner (doTokenRevoke d tag) := OneOwner.of_dir (doTokenRevoke_dir d tag Dir.rfl) h0
theorem runService_own (d : Dev) (op tag arg : Nat) (ws : List W64) (h0 : OneOwner d) : OneOwner (runService d op tag arg ws) := by
  unfold runService
  repeat' first
    | with_reducible assumption
    | with_reducible apply doOwnerProvision_own
    | with_reducible apply doPing_own
    | with_reducible apply doPtnCreate_own
    | with_reducible apply doPtnDestroy_own
    | with_reducible apply doPtnQuery_own
    | with_reducible apply doPtnResize_own
    | with_reducible apply doTokenChallenge_own
    | with_reducible apply doTokenPresent_own
    | with_reducible apply doTokenRevoke_own
    | simp -implicitDefEqProofs only [OneOwner.lit]
    | split
    | intro _
    | dsimp only
theorem swapService_own (d : Dev) (ws : List W64) (h0 : OneOwner d) : OneOwner (swapService d ws) := OneOwner.of_dir (swapService_dir d ws Dir.rfl) h0
theorem doBadCommand_own (d : Dev) (hdr : W64) (h0 : OneOwner d) : OneOwner (doBadCommand d hdr) := by
  unfold doBadCommand
  repeat' first
    | with_reducible assumption
    | with_reducible apply answer_own
    | with_reducible apply iff_own
    | with_reducible apply p_own
    | with_reducible apply runService_own
    | with_reducible apply swapService_own
    | simp -implicitDefEqProofs only [OneOwner.lit]
    | split
    | intro _
    | dsimp only
theorem setSt_own (d : Dev) (s : Stores) (h : OneOwner d) : OneOwner (setSt d s) := OneOwner.of_dir (setSt_dir d s Dir.rfl) h
theorem beginImage_own (d : Dev) (i : Nat) (f : Frame) (h0 : OneOwner d) : OneOwner (beginImage d i f) := by
  unfold beginImage
  repeat' first
    | with_reducible assumption
    | with_reducible apply each_own
    | with_reducible apply id_own
    | with_reducible apply modPtn_own
    | with_reducible apply p_own
    | with_reducible apply setSt_own
    | with_reducible apply unload_own
    | exact fun _ => ⟨Eq.refl _, Eq.refl _⟩
    | exact ⟨trivial, trivial⟩
    | simp -implicitDefEqProofs only [OneOwner.lit, off_pPTN, page_pPTN, ge_pPTN]
    | split
    | intro _
    | dsimp only
theorem restoreDue_own (d : Dev) (i : Nat) (h0 : OneOwner d) : OneOwner (restoreDue d i) := OneOwner.of_dir (restoreDue_dir d i Dir.rfl) h0
theorem completeImage_own (d : Dev) (i : Nat) (area : Nat × Nat) (h0 : OneOwner d) : OneOwner (completeImage d i area) := by
  unfold completeImage
  repeat' first
    | with_reducible assumption
    | decide
    | with_reducible apply state_own
    | with_reducible apply on_own
    | with_reducible apply p_own
    | with_reducible apply modPtn_own
    | with_reducible apply restoreDue_own
    | exact fun _ => ⟨Eq.refl _, Eq.refl _⟩
    | simp -implicitDefEqProofs only [OneOwner.lit, off_pPTN, off_pRST, off_DEV_DIR_RESTORE_DUE, off_DEV_DIR_LINKED, off_DEV_DIR_VF, page_pPTN, ge_pPTN]
    | split
    | intro _
    | dsimp only
theorem applyFrame_own (d : Dev) (i : Nat) (f : Frame) (h0 : OneOwner d) : OneOwner (applyFrame d i f) := OneOwner.of_dir (applyFrame_dir d i f Dir.rfl) h0
theorem hbmPut_own (d : Dev) (r : Req) (a : Nat) (bs : List Byte) (h0 : OneOwner d) : OneOwner (hbmPut d r a bs) := OneOwner.of_dir (hbmPut_dir d r a bs Dir.rfl) h0
theorem takeFrame_own (d : Dev) (i : Nat) (data : Option (List Byte)) (h0 : OneOwner d) : OneOwner (takeFrame d i data).1 := by
  unfold takeFrame
  repeat' first
    | with_reducible assumption
    | with_reducible apply add_own
    | with_reducible apply applyFrame_own
    | with_reducible apply beginImage_own
    | with_reducible apply completeImage_own
    | with_reducible apply hbmPut_own
    | with_reducible apply modPtn_own
    | with_reducible apply p_own
    | exact fun _ => ⟨Eq.refl _, Eq.refl _⟩
    | exact ⟨trivial, trivial⟩
    | simp -implicitDefEqProofs only [OneOwner.lit, off_pPTN, page_pPTN, ge_pPTN]
    | split
    | intro _
    | dsimp only
theorem replayBytes_own (d : Dev) (i : Nat) (h0 : OneOwner d) : OneOwner (replayBytes d i).1 := OneOwner.of_dir (replayBytes_dir d i Dir.rfl) h0
theorem doFrame_own (d : Dev) (i : Nat) (data : Option (List Byte)) (h0 : OneOwner d) : OneOwner (doFrame d i data) := by
  unfold doFrame
  repeat' first
    | with_reducible assumption
    | with_reducible apply endBatch_own
    | with_reducible apply modPtn_own
    | with_reducible apply p_own
    | with_reducible apply replayBytes_own
    | with_reducible apply takeFrame_own
    | exact fun _ => ⟨Eq.refl _, Eq.refl _⟩
    | exact ⟨trivial, trivial⟩
    | simp -implicitDefEqProofs only [OneOwner.lit, off_pPTN, page_pPTN, ge_pPTN]
    | split
    | intro _
    | dsimp only
theorem addOutst_own (d : Dev) (o : Outst) (h0 : OneOwner d) : OneOwner (addOutst d o) := OneOwner.of_dir (addOutst_dir d o Dir.rfl) h0
theorem failed_own (d : Dev) (o : Outst) (status : Nat) (h0 : OneOwner d) : OneOwner (failed d o status) := OneOwner.of_dir (failed_dir d o status Dir.rfl) h0
theorem headerError_own (d : Dev) (v x y : Nat) (h0 : OneOwner d) : OneOwner (headerError d v x y) := OneOwner.of_dir (headerError_dir d v x y Dir.rfl) h0
theorem respond_own (d : Dev) (k : Packet) (status : Nat) (bs : List Byte) (h0 : OneOwner d) : OneOwner (respond d k status bs) := OneOwner.of_dir (respond_dir d k status bs Dir.rfl) h0
theorem request_own (d : Dev) (k : Packet) (write : Bool) (serve : Packet → Dev → Req → Dev) (h0 : OneOwner d) (hs : ∀ p e r, OneOwner e → OneOwner (serve p e r)) : OneOwner (request d k write serve) := by
  unfold request
  repeat' first
    | with_reducible assumption
    | with_reducible apply hs
    | with_reducible apply failed_own
    | with_reducible apply noRoute_own
    | with_reducible apply respond_own
    | with_reducible apply headerError_own
    | with_reducible apply emit_own
    | with_reducible apply addOutst_own
    | simp -implicitDefEqProofs only [OneOwner.lit]
    | split
    | intro _
    | dsimp only
theorem checkPayload_own (d : Dev) (k : Packet) (h0 : OneOwner d) : OneOwner (checkPayload d k) := OneOwner.of_dir (checkPayload_dir d k Dir.rfl) h0
theorem hbmRead_own (d : Dev) (r : Req) (a n : Nat) (h0 : OneOwner d) : OneOwner (hbmRead d r a n).1 := OneOwner.of_dir (hbmRead_dir d r a n Dir.rfl) h0
theorem hbmWrite_own (d : Dev) (r : Req) (a : Nat) (bs : List Byte) (h0 : OneOwner d) : OneOwner (hbmWrite d r a bs).1 := OneOwner.of_dir (hbmWrite_dir d r a bs Dir.rfl) h0
theorem modLink_own (d : Dev) (i : Nat) (f : Link → Link) (h0 : OneOwner d) : OneOwner (modLink d i f) := OneOwner.of_dir (modLink_dir d i f Dir.rfl) h0
theorem refuseAccess_own (d : Dev) (k : Packet) (r : Req) (write : Bool) (h0 : OneOwner d) : OneOwner (refuseAccess d k r write) := OneOwner.of_dir (refuseAccess_dir d k r write Dir.rfl) h0
theorem sendFlits_own {d : Dev} {gi vc : Nat} {fs : List (BitVec 256)} {e : Dev} (h : d.sendFlits gi vc fs = some e) (h0 : OneOwner d) : OneOwner e :=
  OneOwner.of_dir (sendFlits_dir h Dir.rfl) h0
theorem serveRw_own (old : Dev) (write : Bool) (k : Packet) (d : Dev) (r : Req) (h0 : OneOwner old) (h1 : OneOwner d) : OneOwner (serveRw old write k d r) := by
  unfold serveRw
  repeat' first
    | with_reducible assumption
    | with_reducible apply checkPayload_own
    | with_reducible apply emit_own
    | with_reducible apply hbmRead_own
    | with_reducible apply hbmWrite_own
    | with_reducible apply modLink_own
    | with_reducible apply refuseAccess_own
    | with_reducible apply respond_own
    | with_reducible apply tick_own
    | with_reducible apply unreachable_own
    | with_reducible refine sendFlits_own (by assumption) ?_
    | simp -implicitDefEqProofs only [OneOwner.lit]
    | split
    | intro _
    | dsimp only
theorem serveQueue_own (write : Bool) (act : Packet → Dev → Nat → Dev) (k : Packet) (d : Dev) (r : Req) (h0 : OneOwner d) (ha : ∀ p e q, OneOwner e → OneOwner (act p e q)) : OneOwner (serveQueue write act k d r) := by
  unfold serveQueue
  repeat' first
    | with_reducible assumption
    | with_reducible apply ha
    | with_reducible apply unreachable_own
    | with_reducible apply respond_own
    | with_reducible apply refuseAccess_own
    | with_reducible apply checkPayload_own
    | simp -implicitDefEqProofs only [OneOwner.lit]
    | split
    | intro _
    | dsimp only
theorem bare_own (d : Dev) : OneOwner (bare d) := blank_own (fun _ _ => ⟨rfl, rfl, rfl⟩)
theorem cutBurns_own (d : Dev) (h0 : OneOwner d) : OneOwner (cutBurns d) := OneOwner.of_dir (cutBurns_dir d Dir.rfl) h0
theorem perst_own (d : Dev) (cause : Nat) (st : Power) : OneOwner (perst d cause st) := by
  unfold perst
  dsimp only
  simp -implicitDefEqProofs only [OneOwner.lit]
  refine add_own _ _ _ _ (p_own _ _ _ _ (p_own _ _ _ _ (p_own _ _ _ _ (blank_own fun i hi => ?_) (of_eq_true (off_pWDN _))) (of_eq_true (off_pRST _))) (of_eq_true (off_pRST _))) (of_eq_true (off_pRST _))
  have k (m : SMap Nat) (x : Nat) (hx : x < 32768) : SMap.get? (m.filter fun e => aonKey e.1) x = none := by
    rw [SMap.get?_filter]; exact if_neg (by simp only [aonKey, Bool.or_eq_true, Bool.and_eq_true, decide_eq_true_eq]; omega)
  simp only [dirState, mask, g, SMap.get]
  rw [k, k, k]
  · exact ⟨rfl, rfl, rfl⟩
  all_goals simp only [DEV_DIR_STATE, DEV_DIR_MASK, DEV_DIR_QCOUNT, Fld.bit, pDEV]; omega
theorem powerOn_own (d : Dev) (h0 : OneOwner d) : OneOwner (powerOn d) := by
  unfold powerOn
  repeat' first
    | with_reducible assumption
    | with_reducible apply bare_own
    | simp -implicitDefEqProofs only [OneOwner.lit]
    | split
    | intro _
    | dsimp only
theorem wake_own (d : Dev) (n : Nat) (h0 : OneOwner d) : OneOwner (wake d n) := OneOwner.of_dir (wake_dir d n Dir.rfl) h0
theorem doVauxLoss_own (d : Dev) (h0 : OneOwner d) : OneOwner (doVauxLoss d) := by
  unfold doVauxLoss
  repeat' first
    | with_reducible assumption
    | with_reducible apply bare_own
    | with_reducible apply cutBurns_own
    | with_reducible apply emit_own
    | with_reducible apply iff_own
    | with_reducible apply wake_own
    | simp -implicitDefEqProofs only [OneOwner.lit, off_pAON, page_pAON, ge_pAON]
    | split
    | intro _
    | dsimp only
theorem lastGasp_own (d : Dev) (num cls owner i0 i1 : Nat) (h0 : OneOwner d) : OneOwner (lastGasp d num cls owner i0 i1) := OneOwner.of_dir (lastGasp_dir d num cls owner i0 i1 Dir.rfl) h0
theorem doVin48Loss_own (d : Dev) (h0 : OneOwner d) : OneOwner (doVin48Loss d) := by
  unfold doVin48Loss
  repeat' first
    | with_reducible assumption
    | with_reducible apply lastGasp_own
    | with_reducible apply perst_own
    | with_reducible apply tick_own
    | simp -implicitDefEqProofs only [OneOwner.lit]
    | split
    | intro _
    | dsimp only
theorem doPerstAssert_own (d : Dev) (h0 : OneOwner d) : OneOwner (doPerstAssert d) := by
  unfold doPerstAssert
  repeat' first
    | with_reducible assumption
    | with_reducible apply p_own
    | with_reducible apply perst_own
    | simp -implicitDefEqProofs only [OneOwner.lit, off_pWDN, page_pWDN, ge_pWDN]
    | split
    | intro _
    | dsimp only
theorem doDevice_own (d : Dev) (h0 : OneOwner d) : OneOwner (doDevice d) := by
  unfold doDevice
  repeat' first
    | with_reducible assumption
    | with_reducible apply perst_own
    | simp -implicitDefEqProofs only [OneOwner.lit]
    | split
    | intro _
    | dsimp only
theorem resetPtns_own (d : Dev) (mask : Nat) (h0 : OneOwner d) : OneOwner (resetPtns d mask) := by
  unfold resetPtns
  repeat' first
    | with_reducible assumption
    | with_reducible apply each_own
    | with_reducible apply ptnResetReq_own
    | simp -implicitDefEqProofs only [OneOwner.lit]
    | split
    | intro _
    | dsimp only
theorem doPtnReset_own (d : Dev) (mask : Nat) (h0 : OneOwner d) : OneOwner (doPtnReset d mask) := by
  unfold doPtnReset
  repeat' first
    | with_reducible assumption
    | with_reducible apply each_own
    | with_reducible apply ptnResetReq_own
    | simp -implicitDefEqProofs only [OneOwner.lit]
    | split
    | intro _
    | dsimp only
theorem beginFnReset_own (d : Dev) (fn : Fn) (h0 : OneOwner d) : OneOwner (beginFnReset d fn) := OneOwner.of_dir (beginFnReset_dir d fn Dir.rfl) h0
theorem clearStaging_own (d : Dev) (h0 : OneOwner d) : OneOwner (clearStaging d) := OneOwner.of_dir (clearStaging_dir d Dir.rfl) h0
theorem clearVfs_own (d : Dev) (h0 : OneOwner d) : OneOwner (clearVfs d) := OneOwner.of_dir (clearVfs_dir d Dir.rfl) h0
theorem setBoot_own (d : Dev) (st : Nat) (h0 : OneOwner d) : OneOwner (setBoot d st) := OneOwner.of_dir (setBoot_dir d st Dir.rfl) h0
theorem doFlrPf_own (d : Dev) (h0 : OneOwner d) : OneOwner (doFlrPf d) := by
  unfold doFlrPf
  repeat' first
    | with_reducible assumption
    | with_reducible apply beginFnReset_own
    | with_reducible apply clearStaging_own
    | with_reducible apply clearVfs_own
    | with_reducible apply each_own
    | with_reducible apply on_own
    | with_reducible apply p_own
    | with_reducible apply resetPtns_own
    | with_reducible apply setBoot_own
    | simp -implicitDefEqProofs only [OneOwner.lit, off_DEV_STATE_BOOT, off_DEV_STATE_FULL, page_pDEV, off_pLDR, page_pLDR, ge_pLDR, off_pPUP, page_pPUP, ge_pPUP]
    | split
    | intro _
    | dsimp only
theorem doFlrVf_own (d : Dev) (p : Fin 16) (h0 : OneOwner d) : OneOwner (doFlrVf d p) := by
  unfold doFlrVf
  repeat' first
    | with_reducible assumption
    | with_reducible apply beginFnReset_own
    | with_reducible apply p_own
    | with_reducible apply ptnResetReq_own
    | simp -implicitDefEqProofs only [OneOwner.lit]
    | split
    | intro _
    | dsimp only
theorem doVfClear_own (d : Dev) (h0 : OneOwner d) : OneOwner (doVfClear d) := by
  unfold doVfClear
  repeat' first
    | with_reducible assumption
    | with_reducible apply clearVfs_own
    | with_reducible apply foldl_own
    | with_reducible apply resetPtns_own
    | with_reducible apply foldl_own
    | with_reducible apply fold1_own
    | simp -implicitDefEqProofs only [OneOwner.lit]
    | split
    | intro _
    | dsimp only
theorem latchWake_own (d : Dev) (src : Nat) (h0 : OneOwner d) : OneOwner (latchWake d src) := OneOwner.of_dir (latchWake_dir d src Dir.rfl) h0
theorem doStopComplete_own (d : Dev) (h0 : OneOwner d) : OneOwner (doStopComplete d) := by
  unfold doStopComplete
  repeat' first
    | with_reducible assumption
    | with_reducible apply latchWake_own
    | with_reducible apply p_own
    | with_reducible apply perst_own
    | simp -implicitDefEqProofs only [OneOwner.lit, off_pWDN, page_pWDN, ge_pWDN]
    | split
    | intro _
    | dsimp only
theorem ringOut_own (d : Dev) (kind dest src n ttl : Nat) (payload : List Byte) (h0 : OneOwner d) : OneOwner (ringOut d kind dest src n ttl payload) := OneOwner.of_dir (ringOut_dir d kind dest src n ttl payload Dir.rfl) h0
theorem frameIn_own (d : Dev) (f : RingFrame) (own : Bool) (back : Dev → Dev) (act : Dev → Dev × List Byte) (h0 : OneOwner d) (hb : ∀ e, OneOwner e → OneOwner (back e)) (ha : ∀ e, OneOwner e → OneOwner (act e).1) : OneOwner (frameIn d f own back act) := by
  unfold frameIn
  repeat' first
    | with_reducible assumption
    | with_reducible apply hb
    | with_reducible apply ha
    | with_reducible apply add_own
    | with_reducible apply p_own
    | with_reducible apply ringOut_own
    | simp -implicitDefEqProofs only [OneOwner.lit, off_pSTR, page_pSTR, ge_pSTR]
    | split
    | intro _
    | dsimp only
theorem onceFor_own (d : Dev) (kind src n : Nat) (act : Dev → Dev) (h0 : OneOwner d) (ha : ∀ e, OneOwner e → OneOwner (act e)) : OneOwner (onceFor d kind src n act) := by
  unfold onceFor
  repeat' first
    | with_reducible assumption
    | with_reducible apply ha
    | simp -implicitDefEqProofs only [OneOwner.lit]
    | split
    | intro _
    | dsimp only
theorem doResetReq_own (d : Dev) (src n dest ttl : Nat) (crc : W32) (h0 : OneOwner d) : OneOwner (doResetReq d src n dest ttl crc) := by
  unfold doResetReq
  repeat' first
    | with_reducible assumption
    | with_reducible apply frameIn_own
    | with_reducible apply id_own
    | with_reducible apply onceFor_own
    | with_reducible apply perst_own
    | simp -implicitDefEqProofs only [OneOwner.lit, off_pSTR, page_pSTR, ge_pSTR]
    | split
    | intro _
    | dsimp only
theorem place_page {d : Dev} {fn : Fn} {a : Nat} {pl : Place} (h : d.place fn a = some pl) : Page pl.base := by
  have hk (k : Nat) : Page (k * 0x1000) := by unfold Page; omega
  unfold place at h
  dsimp only at h
  split at h
  · split at h
    · cases h; exact of_eq_true (page_pMSIX .pf)
    · split at h
      · cases h; exact hk _
      · cases h
  · split at h
    · cases h; exact of_eq_true (page_pMSIX (.vf _))
    · split at h
      · cases h; exact of_eq_true (page_pPTN _)
      · cases h; exact of_eq_true page_pTRG
      · cases h; exact of_eq_true page_pCAP
      · cases h; exact of_eq_true page_pTRC
      · split at h
        · obtain ⟨n, -, rfl⟩ := Option.map_eq_some_iff.1 h
          refine Or.inr ?_
          show 0x1000 ≤ pCLU n + _
          have := of_eq_true (ge_pCLU n); omega
        · cases h
theorem reachPlace_own (d : Dev) (fn : Fn) (a : Nat) (write : Bool) (ones : Nat) (k : Dev → Place → Dev) (h0 : OneOwner d)
    (hk : ∀ e pl, Page pl.base → OneOwner e → OneOwner (k e pl)) : OneOwner (reachPlace d fn a write ones k) := by
  have hf : ∀ e, OneOwner e → OneOwner (if write then e else e.complete fn a ones) := by
    intro e he; split
    · exact he
    · exact complete_own _ _ _ _ he
  unfold reachPlace
  dsimp only
  split
  · exact hf _ h0
  · next pl hp =>
    split
    · exact hf _ h0
    · exact viaFence_own _ _ _ _ _ _ _ h0 hf fun e he => hk e pl (place_page hp) he
theorem atPlace_own (d : Dev) (fn : Fn) (a : Nat) (write : Bool) (k : Dev → Place → Dev) (h0 : OneOwner d)
    (hk : ∀ e pl, Page pl.base → OneOwner e → OneOwner (k e pl)) : OneOwner (atPlace d fn a write k) := reachPlace_own _ _ _ _ _ _ h0 hk
theorem doLoadAbort_own (d : Dev) (i : Nat) (h0 : OneOwner d) : OneOwner (doLoadAbort d i) := OneOwner.of_dir (doLoadAbort_dir d i Dir.rfl) h0
theorem doLoadGo_own (d : Dev) (i : Nat) (h0 : OneOwner d) : OneOwner (doLoadGo d i) := OneOwner.of_dir (doLoadGo_dir d i Dir.rfl) h0
theorem doLoadReplay_own (d : Dev) (i : Nat) (h0 : OneOwner d) : OneOwner (doLoadReplay d i) := OneOwner.of_dir (doLoadReplay_dir d i Dir.rfl) h0
theorem doSeqTableWrite_own (d : Dev) (i off : Nat) (v : W32) (h0 : OneOwner d) : OneOwner (doSeqTableWrite d i off v) := OneOwner.of_dir (doSeqTableWrite_dir d i off v Dir.rfl) h0
theorem doSnapRestore_own (d : Dev) (i : Nat) (h0 : OneOwner d) : OneOwner (doSnapRestore d i) := OneOwner.of_dir (doSnapRestore_dir d i Dir.rfl) h0
theorem doSnapSave_own (d : Dev) (i : Nat) (h0 : OneOwner d) : OneOwner (doSnapSave d i) := OneOwner.of_dir (doSnapSave_dir d i Dir.rfl) h0
theorem seqCommand_own (d : Dev) (i cmd : Nat) (h0 : OneOwner d) : OneOwner (seqCommand d i cmd) := OneOwner.of_dir (seqCommand_dir d i cmd Dir.rfl) h0
theorem writeQueueReg_own (d : Dev) (q k v : Nat) (h0 : OneOwner d) : OneOwner (writeQueueReg d q k v) := OneOwner.of_dir (writeQueueReg_dir d q k v Dir.rfl) h0
theorem writeWord_own (d : Dev) (base off v : Nat) (fs : List Fld) (h0 : OneOwner d) (ho : ∀ f ∈ fs, f.off = off → f.acc = .rw ∨ f.acc = .rw1c → Off base f) : OneOwner (writeWord d base off v fs) := OneOwner.of_dir (writeWord_dir d base off v fs Dir.rfl ho) h0
theorem writePtn_own (d : Dev) (i off v : Nat) (h0 : OneOwner d) : OneOwner (writePtn d i off v) := by
  unfold writePtn
  repeat' first
    | with_reducible assumption
    | with_reducible apply doLoadAbort_own
    | with_reducible apply doLoadGo_own
    | with_reducible apply doLoadReplay_own
    | with_reducible apply doSeqTableWrite_own
    | with_reducible apply doSnapAbort_own
    | with_reducible apply doSnapRestore_own
    | with_reducible apply doSnapSave_own
    | with_reducible apply seqCommand_own
    | with_reducible apply writeQueueReg_own
    | with_reducible apply writeWord_own
    | simp -implicitDefEqProofs only [OneOwner.lit, off_pPTN, page_pPTN, ge_pPTN]
    | split
    | intro _
    | dsimp only
theorem doBootAbort_own (d : Dev) (h0 : OneOwner d) : OneOwner (doBootAbort d) := OneOwner.of_dir (doBootAbort_dir d Dir.rfl) h0
theorem doBootGo_own (d : Dev) (h0 : OneOwner d) : OneOwner (doBootGo d) := OneOwner.of_dir (doBootGo_dir d Dir.rfl) h0
theorem doClearAll_own (d : Dev) (h0 : OneOwner d) : OneOwner (doClearAll d) := OneOwner.of_dir (doClearAll_dir d Dir.rfl) h0
theorem doConfirm_own (d : Dev) (h0 : OneOwner d) : OneOwner (doConfirm d) := OneOwner.of_dir (doConfirm_dir d Dir.rfl) h0
theorem doDiscover_own (d : Dev) (h0 : OneOwner d) : OneOwner (doDiscover d) := OneOwner.of_dir (doDiscover_dir d Dir.rfl) h0
theorem doDspClr_own (d : Dev) (h0 : OneOwner d) : OneOwner (doDspClr d) := OneOwner.of_dir (doDspClr_dir d Dir.rfl) h0
theorem doImeClrCounts_own (d : Dev) (h0 : OneOwner d) : OneOwner (doImeClrCounts d) := OneOwner.of_dir (doImeClrCounts_dir d Dir.rfl) h0
theorem doLastGaspClear_own (d : Dev) (h0 : OneOwner d) : OneOwner (doLastGaspClear d) := OneOwner.of_dir (doLastGaspClear_dir d Dir.rfl) h0
theorem doLogClear_own (d : Dev) (h0 : OneOwner d) : OneOwner (doLogClear d) := OneOwner.of_dir (doLogClear_dir d Dir.rfl) h0
theorem doMbistGo_own (d : Dev) (n : Nat) (h0 : OneOwner d) : OneOwner (doMbistGo d n) := OneOwner.of_dir (doMbistGo_dir d n Dir.rfl) h0
theorem doNocClr_own (d : Dev) (h0 : OneOwner d) : OneOwner (doNocClr d) := OneOwner.of_dir (doNocClr_dir d Dir.rfl) h0
theorem doPassRequest_own (d : Dev) (i : Nat) (h0 : OneOwner d) : OneOwner (doPassRequest d i) := OneOwner.of_dir (doPassRequest_dir d i Dir.rfl) h0
theorem doResetReqSend_own (d : Dev) (h0 : OneOwner d) : OneOwner (doResetReqSend d) := OneOwner.of_dir (doResetReqSend_dir d Dir.rfl) h0
theorem doRoll_own (d : Dev) (h0 : OneOwner d) : OneOwner (doRoll d) := OneOwner.of_dir (doRoll_dir d Dir.rfl) h0
theorem doStringJoin_own (d : Dev) (h0 : OneOwner d) : OneOwner (doStringJoin d) := OneOwner.of_dir (doStringJoin_dir d Dir.rfl) h0
theorem doStringLeave_own (d : Dev) (h0 : OneOwner d) : OneOwner (doStringLeave d) := OneOwner.of_dir (doStringLeave_dir d Dir.rfl) h0
theorem doSysFreeze_own (d : Dev) (h0 : OneOwner d) : OneOwner (doSysFreeze d) := OneOwner.of_dir (doSysFreeze_dir d Dir.rfl) h0
theorem doTsbSet_own (d : Dev) (v : Nat) (h0 : OneOwner d) : OneOwner (doTsbSet d v) := OneOwner.of_dir (doTsbSet_dir d v Dir.rfl) h0
theorem strobeReq_own (d : Dev) (src : Nat) (h0 : OneOwner d) : OneOwner (strobeReq d src) := OneOwner.of_dir (strobeReq_dir d src Dir.rfl) h0
theorem writeCap_own (d : Dev) (pf : Bool) (off v : Nat) (h0 : OneOwner d) : OneOwner (writeCap d pf off v) := OneOwner.of_dir (writeCap_dir d pf off v Dir.rfl) h0
theorem writeTrc_own (d : Dev) (off v : Nat) (h0 : OneOwner d) : OneOwner (writeTrc d off v) := OneOwner.of_dir (writeTrc_dir d off v Dir.rfl) h0
theorem writeTrg_own (d : Dev) (off v : Nat) (h0 : OneOwner d) : OneOwner (writeTrg d off v) := OneOwner.of_dir (writeTrg_dir d off v Dir.rfl) h0
theorem writeWakeCause_own (d : Dev) (v : Nat) (h0 : OneOwner d) : OneOwner (writeWakeCause d v) := OneOwner.of_dir (writeWakeCause_dir d v Dir.rfl) h0
theorem writeBlock_own (d : Dev) (base off v : Nat) (h0 : OneOwner d) (hb : Page base) : OneOwner (writeBlock d base off v) := by
  have hw : base / 4096 ≠ 0 → ∀ f ∈ pageFlds base, f.off = off → f.acc = .rw ∨ f.acc = .rw1c → Off base f := fun h _ _ _ _ => Or.inl (by omega)
  have hv : base / 4096 = 0 → 1024 ≤ off → ∀ f ∈ fldsDEV, f.off = off → f.acc = .rw ∨ f.acc = .rw1c → Off base f := by
    intro h1 h2 f _ h4 _
    refine off_low hb (Or.inr ?_)
    simp only [Fld.bit]; omega
  have hp : base / 4096 ≠ 0 → OneOwner (d.writeWord base off v (pageFlds base)) := fun h => writeWord_own _ _ _ _ _ h0 (hw h)
  have hg (h : base / 4096 ≠ 0) (b : Bool) (f : Dev → Dev) (hf : ∀ e, OneOwner e → OneOwner (f e)) : OneOwner ((d.writeWord base off v (pageFlds base)).iff b f) := iff_own _ _ _ (hp h) hf
  unfold writeBlock
  dsimp only
  split
  case h_1 x1 x2 h =>
    split
    · next hr => simp only [Bool.and_eq_true, decide_eq_true_eq] at hr; exact writeWord_own _ _ _ _ _ h0 (hv (by omega) hr.1)
    · exact h0
  all_goals try (first | with_reducible exact hp (by omega) | with_reducible exact h0)
  all_goals try (with_reducible refine hg (by omega) _ _ fun e he => ?_)
  all_goals
    repeat' first
      | with_reducible assumption
      | with_reducible exact hp (by omega)
      | with_reducible apply writeWakeCause_own
      | with_reducible apply doLastGaspClear_own
      | with_reducible apply doPtnReset_own
      | with_reducible apply doLogClear_own
      | with_reducible apply doClearAll_own
      | with_reducible apply strobeReq_own
      | with_reducible apply doTsbSet_own
      | with_reducible apply doMbistGo_own
      | with_reducible apply doStringJoin_own
      | with_reducible apply doStringLeave_own
      | with_reducible apply doDiscover_own
      | with_reducible apply doResetReqSend_own
      | with_reducible apply doBootGo_own
      | with_reducible apply doBootAbort_own
      | with_reducible apply doConfirm_own
      | with_reducible apply doPassRequest_own
      | with_reducible apply doNocClr_own
      | with_reducible apply doImeClrCounts_own
      | with_reducible apply doRoll_own
      | with_reducible apply writeTrg_own
      | with_reducible apply writeCap_own
      | with_reducible apply writeTrc_own
      | with_reducible apply writeQueueReg_own
      | with_reducible apply doDspClr_own
      | with_reducible apply doSysFreeze_own
      | with_reducible apply forgetSigs_own
      | with_reducible apply each_own
      | with_reducible apply iff_own
      | with_reducible apply p_own
      | exact fun _ => ⟨Eq.refl _, Eq.refl _⟩
      | simp -implicitDefEqProofs only [OneOwner.lit, off_pEVC, off_pPCI, off_pSTR, page_pPTN]
      | split
      | intro _
      | dsimp only
theorem controlledStop_own (d : Dev) (cause : Nat) (h0 : OneOwner d) : OneOwner (controlledStop d cause) := OneOwner.of_dir (controlledStop_dir d cause Dir.rfl) h0
theorem writeHub_own (d : Dev) (base off v : Nat) (h0 : OneOwner d) (hb : Page base) : OneOwner (writeHub d base off v) := by
  unfold writeHub
  split
  · next h =>
    simp only [Bool.and_eq_true, beq_iff_eq] at h
    exact iff_own _ _ _ (writeWord_own _ _ _ _ _ h0 fun _ _ _ _ => h.1 ▸ of_eq_true (off_pWDN _)) fun e he => controlledStop_own _ _ he
  · split
    · next h =>
      simp only [Bool.and_eq_true, beq_iff_eq] at h
      exact iff_own _ _ _ (writeWord_own _ _ _ _ _ h0 fun _ _ _ _ => h.1 ▸ of_eq_true (off_pRST _)) fun e he => doDevice_own _ he
    · exact writeBlock_own _ _ _ _ h0 hb
theorem writeClu_own (d : Dev) (n base off v : Nat) (h0 : OneOwner d) (hb : 0x1000 ≤ base) : OneOwner (writeClu d n base off v) := OneOwner.of_dir (writeClu_dir d n base off v Dir.rfl hb) h0
theorem writeCommon_own (d : Dev) (fn : Fn) (base off v : Nat) (h0 : OneOwner d) (hb : Page base) : OneOwner (writeCommon d fn base off v) := OneOwner.of_dir (writeCommon_dir d fn base off v Dir.rfl hb) h0
theorem writeLgrp_own (d : Dev) (gi off v : Nat) (h0 : OneOwner d) : OneOwner (writeLgrp d gi off v) := OneOwner.of_dir (writeLgrp_dir d gi off v Dir.rfl) h0
theorem cluOf_page {base n : Nat} (h : cluOf base = some n) : 0x1000 ≤ base := by
  unfold cluOf at h
  split at h
  · next h1 => simp only [Bool.and_eq_true, decide_eq_true_eq] at h1; omega
  · cases h
theorem writeReg_own (d : Dev) (fn : Fn) (base off v : Nat) (h0 : OneOwner d) (hb : Page base) : OneOwner (writeReg d fn base off v) := by
  unfold writeReg
  dsimp only
  repeat' split
  all_goals first
    | exact h0
    | exact writeCommon_own _ _ _ _ _ h0 hb
    | exact writePtn_own _ _ _ _ h0
    | exact writeLgrp_own _ _ _ _ h0
    | exact writeHub_own _ _ _ _ h0 hb
    | exact writeClu_own _ _ _ _ _ h0 (cluOf_page (by assumption))
theorem writeMsix_own (d : Dev) (fn : Fn) (off v : Nat) (h0 : OneOwner d) : OneOwner (writeMsix d fn off v) := OneOwner.of_dir (writeMsix_dir d fn off v Dir.rfl) h0
theorem writeSlice_own (d : Dev) (i base off v : Nat) (h0 : OneOwner d) : OneOwner (writeSlice d i base off v) := OneOwner.of_dir (writeSlice_dir d i base off v Dir.rfl) h0
theorem writePlace_own (d : Dev) (fn : Fn) (pl : Place) (v : Nat) (h0 : OneOwner d) (hb : Page pl.base) : OneOwner (writePlace d fn pl v) := by
  unfold writePlace
  split
  · exact writeMsix_own _ _ _ _ h0
  · split
    · exact writeSlice_own _ _ _ _ _ h0
    · exact writeReg_own _ _ _ _ _ h0 hb
theorem writeHigh_own (d : Dev) (fn : Fn) (pl : Place) (v : Nat) (h0 : OneOwner d) (hb : Page pl.base) : OneOwner (writeHigh d fn pl v) := by
  unfold writeHigh
  dsimp only
  exact writePlace_own _ _ _ _ (h0.of rfl rfl) hb
theorem keepLow_own (d : Dev) (fn : Fn) (pl : Place) (v : Nat) (h0 : OneOwner d) : OneOwner (keepLow d fn pl v) := OneOwner.of_dir (keepLow_dir d fn pl v Dir.rfl) h0
theorem write32_own (d : Dev) (fn : Fn) (pl : Place) (v : Nat) (h0 : OneOwner d) (hb : Page pl.base) : OneOwner (write32 d fn pl v) := by
  unfold write32
  split
  · exact writePlace_own _ _ _ _ h0 hb
  · split
    · exact h0.of rfl rfl
    · split
      · exact writeHigh_own _ _ _ _ h0 hb
      · exact writePlace_own _ _ _ _ h0 hb
theorem doMisaligned_own (d : Dev) (fn : Fn) (a size : Nat) (write : Bool) (h0 : OneOwner d) : OneOwner (doMisaligned d fn a size write) := OneOwner.of_dir (doMisaligned_dir d fn a size write Dir.rfl) h0
theorem doRegisterWrite_own (d : Dev) (fn : Fn) (a v : Nat) (wide : Bool) (h0 : OneOwner d) : OneOwner (doRegisterWrite d fn a v wide) := by
  unfold doRegisterWrite
  have hif (c : Prop) [Decidable c] (x y : Dev) (hx : OneOwner x) (hy : OneOwner y) : OneOwner (if c then x else y) := by split <;> assumption
  apply hif
  · exact doMisaligned_own _ _ _ _ _ h0
  · refine atPlace_own _ _ _ _ _ h0 fun e pl hp he => ?_
    dsimp only
    split
    · exact write32_own _ _ _ _ he hp
    · split
      · exact writePlace_own _ _ _ _ (he.of rfl rfl) hp
      · split
        · exact write32_own _ _ _ _ (write32_own _ _ _ _ he hp) hp
        · exact write32_own _ _ _ _ he hp
theorem fetchReg_own (d : Dev) (fn : Fn) (pl : Place) (h0 : OneOwner d) : OneOwner (fetchReg d fn pl).1 := OneOwner.of_dir (fetchReg_dir d fn pl Dir.rfl) h0
theorem serveReg_own (write : Bool) (k : Packet) (d : Dev) (r : Req) (h0 : OneOwner d) : OneOwner (serveReg write k d r) := by
  unfold serveReg
  dsimp only
  have hc : OneOwner (if write = true then d.checkPayload k else d) := by
    split
    · exact checkPayload_own _ _ h0
    · exact h0
  generalize (if write = true then d.checkPayload k else d) = e at hc ⊢
  split
  · exact respond_own _ _ _ _ (unreachable_own _ h0)
  · split
    · exact refuseAccess_own _ _ _ _ hc
    · split
      · exact respond_own _ _ _ _ hc
      · next pl hp =>
        have hb : Page pl.base := by
          unfold regPlace at hp
          exact place_page (Option.filter_eq_some_iff.1 hp).1
        split
        · exact refuseAccess_own _ _ _ _ hc
        · split
          · exact respond_own _ _ _ _ hc
          · split
            · exact respond_own _ _ _ _ (write32_own _ _ _ _ hc hb)
            · exact respond_own _ _ _ _ (fetchReg_own _ _ _ hc)
theorem serveAccess_own (old : Dev) (write : Bool) (k : Packet) (d : Dev) (r : Req) (h0 : OneOwner old) (h1 : OneOwner d) : OneOwner (serveAccess old write k d r) := by
  unfold serveAccess
  repeat' first
    | with_reducible assumption
    | with_reducible apply serveReg_own
    | with_reducible apply serveRw_own
    | simp -implicitDefEqProofs only [OneOwner.lit]
    | split
    | intro _
    | dsimp only
end Sys2Proof.Machine.Dev
end

