-- ==== Sys2Proof/Laws/KeepOwner2.lean ====
section
/-! SUPPORT. Every cluster and every queue keeps at most one partition under every command. -/

set_option linter.all false

namespace Sys2Proof.Machine.Dev

set_option Elab.async false

theorem doArm_own (d : Dev) (h0 : OneOwner d) : OneOwner (doArm d) := OneOwner.of_dir (doArm_dir d Dir.rfl) h0
theorem doDisarm_own (d : Dev) (h0 : OneOwner d) : OneOwner (doDisarm d) := OneOwner.of_dir (doDisarm_dir d Dir.rfl) h0
theorem doTriggerLevelTimeout_own (d : Dev) (h0 : OneOwner d) : OneOwner (doTriggerLevelTimeout d) := OneOwner.of_dir (doTriggerLevelTimeout_dir d Dir.rfl) h0
theorem doTrigPinEdge_own (d : Dev) (j : Nat) (rising : Bool) (h0 : OneOwner d) : OneOwner (doTrigPinEdge d j rising) := OneOwner.of_dir (doTrigPinEdge_dir d j rising Dir.rfl) h0
theorem doPinPulseEnd_own (d : Dev) (j : Nat) (h0 : OneOwner d) : OneOwner (doPinPulseEnd d j) := OneOwner.of_dir (doPinPulseEnd_dir d j Dir.rfl) h0
theorem doTraceStreamEnable_own (d : Dev) (t : Nat) (h0 : OneOwner d) : OneOwner (doTraceStreamEnable d t) := OneOwner.of_dir (doTraceStreamEnable_dir d t Dir.rfl) h0
theorem doTraceCounterLimit_own (d : Dev) (t : Nat) (h0 : OneOwner d) : OneOwner (doTraceCounterLimit d t) := OneOwner.of_dir (doTraceCounterLimit_dir d t Dir.rfl) h0
theorem doMark_own (d : Dev) (t : Nat) (v : BitVec 16) (h0 : OneOwner d) : OneOwner (doMark d t v) := OneOwner.of_dir (doMark_dir d t v Dir.rfl) h0
theorem doTraceBlockTimeout_own (d : Dev) (t : Nat) (h0 : OneOwner d) : OneOwner (doTraceBlockTimeout d t) := OneOwner.of_dir (doTraceBlockTimeout_dir d t Dir.rfl) h0
theorem doTraceSyncTimer_own (d : Dev) (t : Nat) (h0 : OneOwner d) : OneOwner (doTraceSyncTimer d t) := OneOwner.of_dir (doTraceSyncTimer_dir d t Dir.rfl) h0
theorem doTokenExpire_own (d : Dev) (h0 : OneOwner d) : OneOwner (doTokenExpire d) := OneOwner.of_dir (doTokenExpire_dir d Dir.rfl) h0
theorem doAuthDisable_own (d : Dev) (h0 : OneOwner d) : OneOwner (doAuthDisable d) := OneOwner.of_dir (doAuthDisable_dir d Dir.rfl) h0
theorem doLockstepRecord_own (d : Dev) (r : BitVec 128) (h0 : OneOwner d) : OneOwner (doLockstepRecord d r) := OneOwner.of_dir (doLockstepRecord_dir d r Dir.rfl) h0
theorem doPartnerTimeout_own (d : Dev) (h0 : OneOwner d) : OneOwner (doPartnerTimeout d) := OneOwner.of_dir (doPartnerTimeout_dir d Dir.rfl) h0
theorem doExecuteStep_own (d : Dev) (i : Nat) (h0 : OneOwner d) : OneOwner (doExecuteStep d i) := OneOwner.of_dir (doExecuteStep_dir d i Dir.rfl) h0
theorem doDue_own (d : Dev) (i : Nat) (due : Due) (h0 : OneOwner d) : OneOwner (doDue d i due) := OneOwner.of_dir (doDue_dir d i due Dir.rfl) h0
theorem doStepStepsCountReached_own (d : Dev) (i : Nat) (h0 : OneOwner d) : OneOwner (doStepStepsCountReached d i) := OneOwner.of_dir (doStepStepsCountReached_dir d i Dir.rfl) h0
theorem doStallRelease_own (d : Dev) (i : Nat) (h0 : OneOwner d) : OneOwner (doStallRelease d i) := OneOwner.of_dir (doStallRelease_dir d i Dir.rfl) h0
theorem doFreezeTimeout_own (d : Dev) (i : Nat) (h0 : OneOwner d) : OneOwner (doFreezeTimeout d i) := OneOwner.of_dir (doFreezeTimeout_dir d i Dir.rfl) h0
theorem doLinkedCommand_own (d : Dev) (gi i cmd : Nat) (count : W32) (dist : Nat) (intact : Bool) (h0 : OneOwner d) : OneOwner (doLinkedCommand d gi i cmd count dist intact) := OneOwner.of_dir (doLinkedCommand_dir d gi i cmd count dist intact Dir.rfl) h0
theorem doLinkedCommandEffect_own (d : Dev) (i : Nat) (h0 : OneOwner d) : OneOwner (doLinkedCommandEffect d i) := OneOwner.of_dir (doLinkedCommandEffect_dir d i Dir.rfl) h0
theorem doHold_own (d : Dev) (gi i e : Nat) (intact : Bool) (h0 : OneOwner d) : OneOwner (doHold d gi i e intact) := OneOwner.of_dir (doHold_dir d gi i e intact Dir.rfl) h0
theorem doReady_own (d : Dev) (gi i e : Nat) (intact : Bool) (h0 : OneOwner d) : OneOwner (doReady d gi i e intact) := OneOwner.of_dir (doReady_dir d gi i e intact Dir.rfl) h0
theorem doGo_own (d : Dev) (gi i e : Nat) (intact : Bool) (h0 : OneOwner d) : OneOwner (doGo d gi i e intact) := OneOwner.of_dir (doGo_dir d gi i e intact Dir.rfl) h0
theorem doSystemHoldRelease_own (d : Dev) (i : Nat) (h0 : OneOwner d) : OneOwner (doSystemHoldRelease d i) := OneOwner.of_dir (doSystemHoldRelease_dir d i Dir.rfl) h0
theorem doSteps_own (d : Dev) (gi i : Nat) (cycle : BitVec 48) (count : Nat) (intact : Bool) (h0 : OneOwner d) : OneOwner (doSteps d gi i cycle count intact) := OneOwner.of_dir (doSteps_dir d gi i cycle count intact Dir.rfl) h0
theorem doWriteBack_own (d : Dev) (n : Nat) (walu : Bool) (t unit s : Nat) (h0 : OneOwner d) : OneOwner (doWriteBack d n walu t unit s) := OneOwner.of_dir (doWriteBack_dir d n walu t unit s Dir.rfl) h0
theorem doRowWriteBack_own (d : Dev) (n m row : Nat) (h0 : OneOwner d) : OneOwner (doRowWriteBack d n m row) := OneOwner.of_dir (doRowWriteBack_dir d n m row Dir.rfl) h0
theorem doBpiClr_own (d : Dev) (n : Nat) (h0 : OneOwner d) : OneOwner (doBpiClr d n) := OneOwner.of_dir (doBpiClr_dir d n Dir.rfl) h0
theorem doWliClr_own (d : Dev) (n : Nat) (h0 : OneOwner d) : OneOwner (doWliClr d n) := OneOwner.of_dir (doWliClr_dir d n Dir.rfl) h0
theorem doFabClr_own (d : Dev) (n : Nat) (h0 : OneOwner d) : OneOwner (doFabClr d n) := OneOwner.of_dir (doFabClr_dir d n Dir.rfl) h0
theorem doDmemClr_own (d : Dev) (n : Nat) (h0 : OneOwner d) : OneOwner (doDmemClr d n) := OneOwner.of_dir (doDmemClr_dir d n Dir.rfl) h0
theorem doDmemCfg_own (d : Dev) (n off v : Nat) (h0 : OneOwner d) : OneOwner (doDmemCfg d n off v) := OneOwner.of_dir (doDmemCfg_dir d n off v Dir.rfl) h0
theorem doFmpCfg_own (d : Dev) (n off v : Nat) (h0 : OneOwner d) : OneOwner (doFmpCfg d n off v) := OneOwner.of_dir (doFmpCfg_dir d n off v Dir.rfl) h0
theorem doTxpCfg_own (d : Dev) (n off v : Nat) (h0 : OneOwner d) : OneOwner (doTxpCfg d n off v) := OneOwner.of_dir (doTxpCfg_dir d n off v Dir.rfl) h0
theorem doFarRead_own (d : Dev) (n f : Nat) (h0 : OneOwner d) : OneOwner (doFarRead d n f) := OneOwner.of_dir (doFarRead_dir d n f Dir.rfl) h0
theorem doFarAck_own (d : Dev) (n f : Nat) (h0 : OneOwner d) : OneOwner (doFarAck d n f) := OneOwner.of_dir (doFarAck_dir d n f Dir.rfl) h0
theorem doCopyFill_own (d : Dev) (n x : Nat) (h0 : OneOwner d) : OneOwner (doCopyFill d n x) := OneOwner.of_dir (doCopyFill_dir d n x Dir.rfl) h0
theorem doCreditRenew_own (d : Dev) (n x : Nat) (h0 : OneOwner d) : OneOwner (doCreditRenew d n x) := OneOwner.of_dir (doCreditRenew_dir d n x Dir.rfl) h0
theorem doWindowRead_own (d : Dev) (fn : Fn) (n w off : Nat) (h0 : OneOwner d) : OneOwner (doWindowRead d fn n w off) := OneOwner.of_dir (doWindowRead_dir d fn n w off Dir.rfl) h0
theorem doWindowWrite_own (d : Dev) (fn : Fn) (n w off v : Nat) (h0 : OneOwner d) : OneOwner (doWindowWrite d fn n w off v) := OneOwner.of_dir (doWindowWrite_dir d fn n w off v Dir.rfl) h0
theorem doWindowTimeout_own (d : Dev) (fn : Fn) (n w off : Nat) (h0 : OneOwner d) : OneOwner (doWindowTimeout d fn n w off) := OneOwner.of_dir (doWindowTimeout_dir d fn n w off Dir.rfl) h0
theorem doFreezeSettled_own (d : Dev) (i : Nat) (h0 : OneOwner d) : OneOwner (doFreezeSettled d i) := OneOwner.of_dir (doFreezeSettled_dir d i Dir.rfl) h0
theorem doSnapSaveComplete_own (d : Dev) (i : Nat) (h0 : OneOwner d) : OneOwner (doSnapSaveComplete d i) := OneOwner.of_dir (doSnapSaveComplete_dir d i Dir.rfl) h0
theorem doSnapCheckComplete_own (d : Dev) (i : Nat) (h0 : OneOwner d) : OneOwner (doSnapCheckComplete d i) := OneOwner.of_dir (doSnapCheckComplete_dir d i Dir.rfl) h0
theorem doSnapRestoreComplete_own (d : Dev) (i : Nat) (h0 : OneOwner d) : OneOwner (doSnapRestoreComplete d i) := OneOwner.of_dir (doSnapRestoreComplete_dir d i Dir.rfl) h0
theorem doDoorbell_own (d : Dev) (fn : Fn) (slot : Nat) (fin fence : Bool) (w : W64) (h0 : OneOwner d) : OneOwner (doDoorbell d fn slot fin fence w) := OneOwner.of_dir (doDoorbell_dir d fn slot fin fence w Dir.rfl) h0
theorem doDoorbellMulti_own (d : Dev) (fn : Fn) (slot : Nat) (ws : List W64) (h0 : OneOwner d) : OneOwner (doDoorbellMulti d fn slot ws) := OneOwner.of_dir (doDoorbellMulti_dir d fn slot ws Dir.rfl) h0
theorem doPop_own (d : Dev) (fn : Fn) (slot : Nat) (h0 : OneOwner d) : OneOwner (doPop d fn slot) := OneOwner.of_dir (doPop_dir d fn slot Dir.rfl) h0
theorem doPopWaitExpire_own (d : Dev) (fn : Fn) (slot : Nat) (h0 : OneOwner d) : OneOwner (doPopWaitExpire d fn slot) := OneOwner.of_dir (doPopWaitExpire_dir d fn slot Dir.rfl) h0
theorem doBar4Error_own (d : Dev) (fn : Fn) (off : Nat) (write : Bool) (h0 : OneOwner d) : OneOwner (doBar4Error d fn off write) := OneOwner.of_dir (doBar4Error_dir d fn off write Dir.rfl) h0
theorem doQwrExpire_own (d : Dev) (q : Nat) (h0 : OneOwner d) : OneOwner (doQwrExpire d q) := OneOwner.of_dir (doQwrExpire_dir d q Dir.rfl) h0
theorem doQrdExpire_own (d : Dev) (q : Nat) (h0 : OneOwner d) : OneOwner (doQrdExpire d q) := OneOwner.of_dir (doQrdExpire_dir d q Dir.rfl) h0
theorem queueCmd_own (d : Dev) (q cmd : Nat) (h0 : OneOwner d) : OneOwner (queueCmd d q cmd) := OneOwner.of_dir (queueCmd_dir d q cmd Dir.rfl) h0
theorem setQueueEn_own (d : Dev) (q : Nat) (en : Bool) (h0 : OneOwner d) : OneOwner (setQueueEn d q en) := OneOwner.of_dir (setQueueEn_dir d q en Dir.rfl) h0
theorem doSubmit_own (d : Dev) (fn : Fn) (h0 : OneOwner d) : OneOwner (doSubmit d fn) := OneOwner.of_dir (doSubmit_dir d fn Dir.rfl) h0
theorem doSubmitExpire_own (d : Dev) (l : Nat) (h0 : OneOwner d) : OneOwner (doSubmitExpire d l) := OneOwner.of_dir (doSubmitExpire_dir d l Dir.rfl) h0
theorem doDispatch_own (d : Dev) (c : Nat) (data : List Byte) (h0 : OneOwner d) : OneOwner (doDispatch d c data) := OneOwner.of_dir (doDispatch_dir d c data Dir.rfl) h0
theorem doItemComplete_own (d : Dev) (c : Nat) (h0 : OneOwner d) : OneOwner (doItemComplete d c) := OneOwner.of_dir (doItemComplete_dir d c Dir.rfl) h0
theorem doWaitLimit_own (d : Dev) (c : Nat) (h0 : OneOwner d) : OneOwner (doWaitLimit d c) := OneOwner.of_dir (doWaitLimit_dir d c Dir.rfl) h0
theorem doCounterSaturate_own (d : Dev) (base : Nat) (i : Nat) (h0 : OneOwner d) : OneOwner (doCounterSaturate d base i) := OneOwner.of_dir (doCounterSaturate_dir d base i Dir.rfl) h0
theorem doKeyRollStart_own (d : Dev) (h0 : OneOwner d) : OneOwner (doKeyRollStart d) := OneOwner.of_dir (doKeyRollStart_dir d Dir.rfl) h0
theorem doKeyRollSector_own (d : Dev) (h0 : OneOwner d) : OneOwner (doKeyRollSector d) := OneOwner.of_dir (doKeyRollSector_dir d Dir.rfl) h0
theorem doStrobe_own (d : Dev) (h0 : OneOwner d) : OneOwner (doStrobe d) := OneOwner.of_dir (doStrobe_dir d Dir.rfl) h0
theorem doCaptureArm_own (d : Dev) (c : Nat) (h0 : OneOwner d) : OneOwner (doCaptureArm d c) := OneOwner.of_dir (doCaptureArm_dir d c Dir.rfl) h0
theorem doCaptureDisarm_own (d : Dev) (c : Nat) (h0 : OneOwner d) : OneOwner (doCaptureDisarm d c) := OneOwner.of_dir (doCaptureDisarm_dir d c Dir.rfl) h0
theorem doCaptureBlockWrite_own (d : Dev) (ch addr : Nat) (h0 : OneOwner d) : OneOwner (doCaptureBlockWrite d ch addr) := OneOwner.of_dir (doCaptureBlockWrite_dir d ch addr Dir.rfl) h0
theorem doPostLimitExpire_own (d : Dev) (ch : Nat) (h0 : OneOwner d) : OneOwner (doPostLimitExpire d ch) := OneOwner.of_dir (doPostLimitExpire_dir d ch Dir.rfl) h0
theorem doRearmExpire_own (d : Dev) (c : Nat) (h0 : OneOwner d) : OneOwner (doRearmExpire d c) := OneOwner.of_dir (doRearmExpire_dir d c Dir.rfl) h0
theorem doChannelOwnerWrite_own (d : Dev) (ch : Nat) (owner : Nat) (h0 : OneOwner d) : OneOwner (doChannelOwnerWrite d ch owner) := OneOwner.of_dir (doChannelOwnerWrite_dir d ch owner Dir.rfl) h0
theorem doPinwheelConfigWrite_own (d : Dev) (size : Bool) (v : W64) (h0 : OneOwner d) : OneOwner (doPinwheelConfigWrite d size v) := OneOwner.of_dir (doPinwheelConfigWrite_dir d size v Dir.rfl) h0
theorem doBeaconSend_own (d : Dev) (h0 : OneOwner d) : OneOwner (doBeaconSend d) := OneOwner.of_dir (doBeaconSend_dir d Dir.rfl) h0
theorem doBeacon_own (d : Dev) (gi ns frac hops master : Nat) (intact : Bool) (h0 : OneOwner d) : OneOwner (doBeacon d gi ns frac hops master intact) := OneOwner.of_dir (doBeacon_dir d gi ns frac hops master intact Dir.rfl) h0
theorem doBeaconTimeout_own (d : Dev) (h0 : OneOwner d) : OneOwner (doBeaconTimeout d) := OneOwner.of_dir (doBeaconTimeout_dir d Dir.rfl) h0
theorem doHoldEnd_own (d : Dev) (h0 : OneOwner d) : OneOwner (doHoldEnd d) := OneOwner.of_dir (doHoldEnd_dir d Dir.rfl) h0
theorem doFetchDone_own (d : Dev) (data : Option (List Byte)) (h0 : OneOwner d) : OneOwner (doFetchDone d data) := OneOwner.of_dir (doFetchDone_dir d data Dir.rfl) h0
theorem doVerifyDone_own (d : Dev) (h0 : OneOwner d) : OneOwner (doVerifyDone d) := OneOwner.of_dir (doVerifyDone_dir d Dir.rfl) h0
theorem doStageReady_own (d : Dev) (h0 : OneOwner d) : OneOwner (doStageReady d) := OneOwner.of_dir (doStageReady_dir d Dir.rfl) h0
theorem doBurnDone_own (d : Dev) (fault : Bool) (h0 : OneOwner d) : OneOwner (doBurnDone d fault) := OneOwner.of_dir (doBurnDone_dir d fault Dir.rfl) h0
theorem doOwnerBurnDone_own (d : Dev) (fault : Bool) (h0 : OneOwner d) : OneOwner (doOwnerBurnDone d fault) := OneOwner.of_dir (doOwnerBurnDone_dir d fault Dir.rfl) h0
theorem doWalkRead_own (d : Dev) (n : Nat) (w : WordLoc) (h0 : OneOwner d) : OneOwner (doWalkRead d n w) := OneOwner.of_dir (doWalkRead_dir d n w Dir.rfl) h0
theorem doPassStart_own (d : Dev) (h0 : OneOwner d) : OneOwner (doPassStart d) := OneOwner.of_dir (doPassStart_dir d Dir.rfl) h0
theorem doPassComplete_own (d : Dev) (h0 : OneOwner d) : OneOwner (doPassComplete d) := OneOwner.of_dir (doPassComplete_dir d Dir.rfl) h0
theorem doUpset_own (d : Dev) (n : Nat) (w : WordLoc) (fetch : Bool) (h0 : OneOwner d) : OneOwner (doUpset d n w fetch) := OneOwner.of_dir (doUpset_dir d n w fetch Dir.rfl) h0
theorem doUpsetRewrite_own (d : Dev) (n : Nat) (w : WordLoc) (h0 : OneOwner d) : OneOwner (doUpsetRewrite d n w) := OneOwner.of_dir (doUpsetRewrite_dir d n w Dir.rfl) h0
theorem doLaneEnable_own (d : Dev) (gi : Nat) (h0 : OneOwner d) : OneOwner (doLaneEnable d gi) := OneOwner.of_dir (doLaneEnable_dir d gi Dir.rfl) h0
theorem doLaneDisable_own (d : Dev) (gi : Nat) (h0 : OneOwner d) : OneOwner (doLaneDisable d gi) := OneOwner.of_dir (doLaneDisable_dir d gi Dir.rfl) h0
theorem doLaneTest_own (d : Dev) (gi : Nat) (h0 : OneOwner d) : OneOwner (doLaneTest d gi) := OneOwner.of_dir (doLaneTest_dir d gi Dir.rfl) h0
theorem doMarkerSend_own (d : Dev) (gi : Nat) (h0 : OneOwner d) : OneOwner (doMarkerSend d gi) := OneOwner.of_dir (doMarkerSend_dir d gi Dir.rfl) h0
theorem doMarker_own (d : Dev) (gi l : Nat) (bits : BitVec 320) (ui : Nat) (h0 : OneOwner d) : OneOwner (doMarker d gi l bits ui) := OneOwner.of_dir (doMarker_dir d gi l bits ui Dir.rfl) h0
theorem doAcqTimeout_own (d : Dev) (gi : Nat) (h0 : OneOwner d) : OneOwner (doAcqTimeout d gi) := OneOwner.of_dir (doAcqTimeout_dir d gi Dir.rfl) h0
theorem loseLane_own (d : Dev) (gi l : Nat) (h0 : OneOwner d) : OneOwner (loseLane d gi l) := OneOwner.of_dir (loseLane_dir d gi l Dir.rfl) h0
theorem doCodeword_own (d : Dev) (gi l : Nat) (symbols : List Nat) (h0 : OneOwner d) : OneOwner (doCodeword d gi l symbols) := OneOwner.of_dir (doCodeword_dir d gi l symbols Dir.rfl) h0
theorem doSlotFrame_own (d : Dev) (gi k frame n bad : Nat) (h0 : OneOwner d) : OneOwner (doSlotFrame d gi k frame n bad) := OneOwner.of_dir (doSlotFrame_dir d gi k frame n bad Dir.rfl) h0
theorem doLinkFlit_own (d : Dev) (gi : Nat) (bits : BitVec 320) (bad : Bool) (h0 : OneOwner d) : OneOwner (doLinkFlit d gi bits bad) := OneOwner.of_dir (doLinkFlit_dir d gi bits bad Dir.rfl) h0
theorem doCredit_own (d : Dev) (gi vc count : Nat) (intact : Bool) (h0 : OneOwner d) : OneOwner (doCredit d gi vc count intact) := OneOwner.of_dir (doCredit_dir d gi vc count intact Dir.rfl) h0
theorem doFreezeMsg_own (d : Dev) (gi origin n : Nat) (intact : Bool) (h0 : OneOwner d) : OneOwner (doFreezeMsg d gi origin n intact) := OneOwner.of_dir (doFreezeMsg_dir d gi origin n intact Dir.rfl) h0
theorem doInjGo_own (d : Dev) (gi : Nat) (h0 : OneOwner d) : OneOwner (doInjGo d gi) := OneOwner.of_dir (doInjGo_dir d gi Dir.rfl) h0
theorem doLgrpClr_own (d : Dev) (gi : Nat) (h0 : OneOwner d) : OneOwner (doLgrpClr d gi) := OneOwner.of_dir (doLgrpClr_dir d gi Dir.rfl) h0
theorem doClrSlack_own (d : Dev) (gi : Nat) (h0 : OneOwner d) : OneOwner (doClrSlack d gi) := OneOwner.of_dir (doClrSlack_dir d gi Dir.rfl) h0
theorem doBridgeEnable_own (d : Dev) (gi l : Nat) (tx rx : Bool) (h0 : OneOwner d) : OneOwner (doBridgeEnable d gi l tx rx) := OneOwner.of_dir (doBridgeEnable_dir d gi l tx rx Dir.rfl) h0
theorem doBridgeReceive_own (d : Dev) (gi l : Nat) (w : W64) (h0 : OneOwner d) : OneOwner (doBridgeReceive d gi l w) := OneOwner.of_dir (doBridgeReceive_dir d gi l w Dir.rfl) h0
theorem doBridgeTransmit_own (d : Dev) (gi l : Nat) (h0 : OneOwner d) : OneOwner (doBridgeTransmit d gi l) := OneOwner.of_dir (doBridgeTransmit_dir d gi l Dir.rfl) h0
theorem doPrbsCheck_own (d : Dev) (gi l : Nat) (bits : List Bool) (h0 : OneOwner d) : OneOwner (doPrbsCheck d gi l bits) := OneOwner.of_dir (doPrbsCheck_dir d gi l bits Dir.rfl) h0
theorem doLaneRecovered_own (d : Dev) (gi l : Nat) (h0 : OneOwner d) : OneOwner (doLaneRecovered d gi l) := OneOwner.of_dir (doLaneRecovered_dir d gi l Dir.rfl) h0
theorem doPacketHop_own (d : Dev) (x y : Nat) (ins : List (Fin 9 × Fin 4 × Flit)) (h0 : OneOwner d) : OneOwner (doPacketHop d x y ins) := OneOwner.of_dir (doPacketHop_dir d x y ins Dir.rfl) h0
theorem doQwr_own (k : Packet) (d : Dev) (q : Nat) (h0 : OneOwner d) : OneOwner (doQwr k d q) := OneOwner.of_dir (doQwr_dir k d q Dir.rfl) h0
theorem doQrd_own (k : Packet) (d : Dev) (q : Nat) (h0 : OneOwner d) : OneOwner (doQrd k d q) := OneOwner.of_dir (doQrd_dir k d q Dir.rfl) h0
theorem doCapWr_own (d : Dev) (k : Packet) (h0 : OneOwner d) : OneOwner (doCapWr d k) := OneOwner.of_dir (doCapWr_dir d k Dir.rfl) h0
theorem doTrcWr_own (d : Dev) (k : Packet) (h0 : OneOwner d) : OneOwner (doTrcWr d k) := OneOwner.of_dir (doTrcWr_dir d k Dir.rfl) h0
theorem doResponse_own (d : Dev) (k : Packet) (data : Bool) (h0 : OneOwner d) : OneOwner (doResponse d k data) := OneOwner.of_dir (doResponse_dir d k data Dir.rfl) h0
theorem doRspTimeout_own (d : Dev) (src tag : Nat) (h0 : OneOwner d) : OneOwner (doRspTimeout d src tag) := OneOwner.of_dir (doRspTimeout_dir d src tag Dir.rfl) h0
theorem doQuarantineEnd_own (d : Dev) (src tag : Nat) (h0 : OneOwner d) : OneOwner (doQuarantineEnd d src tag) := OneOwner.of_dir (doQuarantineEnd_dir d src tag Dir.rfl) h0
theorem doRouteWrite_own (d : Dev) (port idx : Nat) (e : Nat) (h0 : OneOwner d) : OneOwner (doRouteWrite d port idx e) := OneOwner.of_dir (doRouteWrite_dir d port idx e Dir.rfl) h0
theorem doDrainComplete_own (d : Dev) (n : Nat) (h0 : OneOwner d) : OneOwner (doDrainComplete d n) := OneOwner.of_dir (doDrainComplete_dir d n Dir.rfl) h0
theorem doDrainTimeout_own (d : Dev) (n : Nat) (h0 : OneOwner d) : OneOwner (doDrainTimeout d n) := OneOwner.of_dir (doDrainTimeout_dir d n Dir.rfl) h0
theorem doUnfence_own (d : Dev) (n : Nat) (h0 : OneOwner d) : OneOwner (doUnfence d n) := OneOwner.of_dir (doUnfence_dir d n Dir.rfl) h0
theorem doVin48Up_own (d : Dev) (h0 : OneOwner d) : OneOwner (doVin48Up d) := OneOwner.of_dir (doVin48Up_dir d Dir.rfl) h0
theorem doPerstDeassert_own (d : Dev) (h0 : OneOwner d) : OneOwner (doPerstDeassert d) := OneOwner.of_dir (doPerstDeassert_dir d Dir.rfl) h0
theorem doStartup_own (d : Dev) (refclk healthOk : Bool) (h0 : OneOwner d) : OneOwner (doStartup d refclk healthOk) := OneOwner.of_dir (doStartup_dir d refclk healthOk Dir.rfl) h0
theorem doFnResetDone_own (d : Dev) (fn : Fn) (h0 : OneOwner d) : OneOwner (doFnResetDone d fn) := OneOwner.of_dir (doFnResetDone_dir d fn Dir.rfl) h0
theorem ptnResetDone_own (d : Dev) (i : Nat) (h0 : OneOwner d) : OneOwner (ptnResetDone d i) := OneOwner.of_dir (ptnResetDone_dir d i Dir.rfl) h0
theorem doVfSet_own (d : Dev) (num : Nat) (h0 : OneOwner d) : OneOwner (doVfSet d num) := OneOwner.of_dir (doVfSet_dir d num Dir.rfl) h0
theorem doClusterWake_own (d : Dev) (ns : List Nat) (h0 : OneOwner d) : OneOwner (doClusterWake d ns) := OneOwner.of_dir (doClusterWake_dir d ns Dir.rfl) h0
theorem doIdleDelay_own (d : Dev) (i : Nat) (h0 : OneOwner d) : OneOwner (doIdleDelay d i) := OneOwner.of_dir (doIdleDelay_dir d i Dir.rfl) h0
theorem doOffDelay_own (d : Dev) (n : Nat) (h0 : OneOwner d) : OneOwner (doOffDelay d n) := OneOwner.of_dir (doOffDelay_dir d n Dir.rfl) h0
theorem doPowerOnCluster_own (d : Dev) (n : Nat) (h0 : OneOwner d) : OneOwner (doPowerOnCluster d n) := OneOwner.of_dir (doPowerOnCluster_dir d n Dir.rfl) h0
theorem doPllLost_own (d : Dev) (h0 : OneOwner d) : OneOwner (doPllLost d) := OneOwner.of_dir (doPllLost_dir d Dir.rfl) h0
theorem doWake_own (d : Dev) (src : Nat) (h0 : OneOwner d) : OneOwner (doWake d src) := OneOwner.of_dir (doWake_dir d src Dir.rfl) h0
theorem doHeartbeat_own (d : Dev) (v : Nat) (h0 : OneOwner d) : OneOwner (doHeartbeat d v) := OneOwner.of_dir (doHeartbeat_dir d v Dir.rfl) h0
theorem doHeartbeatTimeout_own (d : Dev) (h0 : OneOwner d) : OneOwner (doHeartbeatTimeout d) := OneOwner.of_dir (doHeartbeatTimeout_dir d Dir.rfl) h0
theorem doGraceTimeout_own (d : Dev) (h0 : OneOwner d) : OneOwner (doGraceTimeout d) := OneOwner.of_dir (doGraceTimeout_dir d Dir.rfl) h0
theorem doTemperature_own (d : Dev) (q celsius : Nat) (h0 : OneOwner d) : OneOwner (doTemperature d q celsius) := OneOwner.of_dir (doTemperature_dir d q celsius Dir.rfl) h0
theorem doStopDrain_own (d : Dev) (h0 : OneOwner d) : OneOwner (doStopDrain d) := OneOwner.of_dir (doStopDrain_dir d Dir.rfl) h0
theorem doStringOpen_own (d : Dev) (h0 : OneOwner d) : OneOwner (doStringOpen d) := OneOwner.of_dir (doStringOpen_dir d Dir.rfl) h0
theorem doStringBroken_own (d : Dev) (h0 : OneOwner d) : OneOwner (doStringBroken d) := OneOwner.of_dir (doStringBroken_dir d Dir.rfl) h0
theorem doCollect_own (d : Dev) (src n ttl map : Nat) (crc : W32) (h0 : OneOwner d) : OneOwner (doCollect d src n ttl map crc) := OneOwner.of_dir (doCollect_dir d src n ttl map crc Dir.rfl) h0
theorem doAssign_own (d : Dev) (src n ttl map : Nat) (crc : W32) (h0 : OneOwner d) : OneOwner (doAssign d src n ttl map crc) := OneOwner.of_dir (doAssign_dir d src n ttl map crc Dir.rfl) h0
theorem doStringBeacon_own (d : Dev) (src n ttl ns frac : Nat) (crc : W32) (h0 : OneOwner d) : OneOwner (doStringBeacon d src n ttl ns frac crc) := OneOwner.of_dir (doStringBeacon_dir d src n ttl ns frac crc Dir.rfl) h0
theorem doStringFreeze_own (d : Dev) (src n ttl origin num : Nat) (crc : W32) (h0 : OneOwner d) : OneOwner (doStringFreeze d src n ttl origin num crc) := OneOwner.of_dir (doStringFreeze_dir d src n ttl origin num crc Dir.rfl) h0
theorem doStringStrobe_own (d : Dev) (src n ttl : Nat) (crc : W32) (h0 : OneOwner d) : OneOwner (doStringStrobe d src n ttl crc) := OneOwner.of_dir (doStringStrobe_dir d src n ttl crc Dir.rfl) h0
theorem doMsg_own (d : Dev) (src n dest ttl : Nat) (cfg : List (Nat × Nat)) (crc : W32) (h0 : OneOwner d) : OneOwner (doMsg d src n dest ttl cfg crc) := OneOwner.of_dir (doMsg_dir d src n dest ttl cfg crc Dir.rfl) h0
theorem doRepeat_own (d : Dev) (h0 : OneOwner d) : OneOwner (doRepeat d) := OneOwner.of_dir (doRepeat_dir d Dir.rfl) h0
theorem doStringBeaconSend_own (d : Dev) (h0 : OneOwner d) : OneOwner (doStringBeaconSend d) := OneOwner.of_dir (doStringBeaconSend_dir d Dir.rfl) h0
theorem doRead32_own (d : Dev) (fn : Fn) (a : Nat) (h0 : OneOwner d) : OneOwner (doRead32 d fn a) := OneOwner.of_dir (doRead32_dir d fn a Dir.rfl) h0
theorem doRead64_own (d : Dev) (fn : Fn) (a : Nat) (h0 : OneOwner d) : OneOwner (doRead64 d fn a) := OneOwner.of_dir (doRead64_dir d fn a Dir.rfl) h0
theorem doFenceRead_own (d : Dev) (fn : Fn) (a : Nat) (h0 : OneOwner d) : OneOwner (doFenceRead d fn a) := OneOwner.of_dir (doFenceRead_dir d fn a Dir.rfl) h0
theorem doStrobeLatch_own (d : Dev) (h0 : OneOwner d) : OneOwner (doStrobeLatch d) := OneOwner.of_dir (doStrobeLatch_dir d Dir.rfl) h0
theorem doBar2Read_own (d : Dev) (fn : Fn) (x n : Nat) (h0 : OneOwner d) : OneOwner (doBar2Read d fn x n) := OneOwner.of_dir (doBar2Read_dir d fn x n Dir.rfl) h0
theorem doBar2Write_own (d : Dev) (fn : Fn) (x : Nat) (bs : List Byte) (h0 : OneOwner d) : OneOwner (doBar2Write d fn x bs) := OneOwner.of_dir (doBar2Write_dir d fn x bs Dir.rfl) h0
theorem doCaptureRead_own (d : Dev) (p : Fin 16) (x n : Nat) (h0 : OneOwner d) : OneOwner (doCaptureRead d p x n) := OneOwner.of_dir (doCaptureRead_dir d p x n Dir.rfl) h0
theorem doUnmask_own (d : Dev) (fn : Fn) (v : Nat) (h0 : OneOwner d) : OneOwner (doUnmask d fn v) := OneOwner.of_dir (doUnmask_dir d fn v Dir.rfl) h0
theorem doMbistComplete_own (d : Dev) (n : Nat) (failed : Option Nat) (h0 : OneOwner d) : OneOwner (doMbistComplete d n failed) := OneOwner.of_dir (doMbistComplete_dir d n failed Dir.rfl) h0
theorem doRelease_own (d : Dev) (id : Nat) (h0 : OneOwner d) : OneOwner (doRelease d id) := OneOwner.of_dir (doRelease_dir d id Dir.rfl) h0
theorem finish_own (d : Dev) (h0 : OneOwner d) : OneOwner (finish d) := OneOwner.of_dir (finish_dir d Dir.rfl) h0
theorem clockStep_own (d : Dev) (h0 : OneOwner d) : OneOwner (clockStep d) := OneOwner.of_dir (clockStep_dir d Dir.rfl) h0
end Sys2Proof.Machine.Dev
namespace Sys2Proof.Machine
open Dev
theorem fin_own {s t : State} {f : Dev → Dev} (h0 : OneOwner s.dev) (h : ∀ e, OneOwner e → OneOwner (f e)) (hx : fin s f = .next t) : OneOwner t.dev := by
  unfold fin at hx
  cases hx
  exact finish_own _ (h _ h0)
theorem main_own {s t : State} {f : Dev → Dev} (h0 : OneOwner s.dev) (h : ∀ e, OneOwner e → OneOwner (f e)) (hx : main s f = .next t) : OneOwner t.dev := by
  refine fin_own h0 (fun e he => ?_) hx
  split
  · exact h e he
  · exact he
theorem config_own {fn : Fn} {s t : State} {f : Dev → Dev} (h0 : OneOwner s.dev) (h : ∀ e, OneOwner e → OneOwner (f e)) (hx : config fn s f = .next t) : OneOwner t.dev := by
  refine fin_own h0 (fun e he => ?_) hx
  split
  · exact h e he
  · split
    · exact emit_own _ _ he
    · exact he
theorem execArm_own (s : State) {next : State} (h0 : OneOwner s.dev) (h : execArm s = .next next) : OneOwner next.dev := by
  refine main_own h0 (fun e he => ?_) h
  repeat' first
    | with_reducible assumption
    | with_reducible apply doArm_own
    | simp -implicitDefEqProofs only [OneOwner.lit]
    | split
    | intro _
    | dsimp only
theorem execDisarm_own (s : State) {next : State} (h0 : OneOwner s.dev) (h : execDisarm s = .next next) : OneOwner next.dev := by
  refine main_own h0 (fun e he => ?_) h
  repeat' first
    | with_reducible assumption
    | with_reducible apply doDisarm_own
    | simp -implicitDefEqProofs only [OneOwner.lit]
    | split
    | intro _
    | dsimp only
theorem execTriggerLevelTimeout_own (s : State) {next : State} (h0 : OneOwner s.dev) (h : execTriggerLevelTimeout s = .next next) : OneOwner next.dev := by
  refine main_own h0 (fun e he => ?_) h
  repeat' first
    | with_reducible assumption
    | with_reducible apply doTriggerLevelTimeout_own
    | simp -implicitDefEqProofs only [OneOwner.lit]
    | split
    | intro _
    | dsimp only
theorem execTrigPinEdge_own (j : Fin 8) (rising : Bool) (s : State) {next : State} (h0 : OneOwner s.dev) (h : execTrigPinEdge j rising s = .next next) : OneOwner next.dev := by
  refine main_own h0 (fun e he => ?_) h
  repeat' first
    | with_reducible assumption
    | with_reducible apply doTrigPinEdge_own
    | simp -implicitDefEqProofs only [OneOwner.lit]
    | split
    | intro _
    | dsimp only
theorem execPinPulseEnd_own (j : Fin 8) (s : State) {next : State} (h0 : OneOwner s.dev) (h : execPinPulseEnd j s = .next next) : OneOwner next.dev := by
  refine main_own h0 (fun e he => ?_) h
  repeat' first
    | with_reducible assumption
    | with_reducible apply doPinPulseEnd_own
    | simp -implicitDefEqProofs only [OneOwner.lit]
    | split
    | intro _
    | dsimp only
theorem execTraceStreamEnable_own (t : Fin 17) (s : State) {next : State} (h0 : OneOwner s.dev) (h : execTraceStreamEnable t s = .next next) : OneOwner next.dev := by
  refine main_own h0 (fun e he => ?_) h
  repeat' first
    | with_reducible assumption
    | with_reducible apply doTraceStreamEnable_own
    | simp -implicitDefEqProofs only [OneOwner.lit]
    | split
    | intro _
    | dsimp only
theorem execTraceCounterLimit_own (t : Fin 17) (s : State) {next : State} (h0 : OneOwner s.dev) (h : execTraceCounterLimit t s = .next next) : OneOwner next.dev := by
  refine main_own h0 (fun e he => ?_) h
  repeat' first
    | with_reducible assumption
    | with_reducible apply doTraceCounterLimit_own
    | simp -implicitDefEqProofs only [OneOwner.lit]
    | split
    | intro _
    | dsimp only
theorem execMark_own (t : Fin 17) (v : BitVec 16) (s : State) {next : State} (h0 : OneOwner s.dev) (h : execMark t v s = .next next) : OneOwner next.dev := by
  refine main_own h0 (fun e he => ?_) h
  repeat' first
    | with_reducible assumption
    | with_reducible apply doMark_own
    | simp -implicitDefEqProofs only [OneOwner.lit]
    | split
    | intro _
    | dsimp only
theorem execTraceBlockTimeout_own (t : Fin 17) (s : State) {next : State} (h0 : OneOwner s.dev) (h : execTraceBlockTimeout t s = .next next) : OneOwner next.dev := by
  refine main_own h0 (fun e he => ?_) h
  repeat' first
    | with_reducible assumption
    | with_reducible apply doTraceBlockTimeout_own
    | simp -implicitDefEqProofs only [OneOwner.lit]
    | split
    | intro _
    | dsimp only
theorem execTraceSyncTimer_own (t : Fin 17) (s : State) {next : State} (h0 : OneOwner s.dev) (h : execTraceSyncTimer t s = .next next) : OneOwner next.dev := by
  refine main_own h0 (fun e he => ?_) h
  repeat' first
    | with_reducible assumption
    | with_reducible apply doTraceSyncTimer_own
    | simp -implicitDefEqProofs only [OneOwner.lit]
    | split
    | intro _
    | dsimp only
theorem execTokenRevoke_own (tag : Byte) (s : State) {next : State} (h0 : OneOwner s.dev) (h : execTokenRevoke tag s = .next next) : OneOwner next.dev := by
  refine main_own h0 (fun e he => ?_) h
  repeat' first
    | with_reducible assumption
    | with_reducible apply doTokenRevoke_own
    | simp -implicitDefEqProofs only [OneOwner.lit]
    | split
    | intro _
    | dsimp only
theorem execTokenExpire_own (s : State) {next : State} (h0 : OneOwner s.dev) (h : execTokenExpire s = .next next) : OneOwner next.dev := by
  refine main_own h0 (fun e he => ?_) h
  repeat' first
    | with_reducible assumption
    | with_reducible apply doTokenExpire_own
    | simp -implicitDefEqProofs only [OneOwner.lit]
    | split
    | intro _
    | dsimp only
theorem execAuthDisable_own (s : State) {next : State} (h0 : OneOwner s.dev) (h : execAuthDisable s = .next next) : OneOwner next.dev := by
  refine main_own h0 (fun e he => ?_) h
  repeat' first
    | with_reducible assumption
    | with_reducible apply doAuthDisable_own
    | simp -implicitDefEqProofs only [OneOwner.lit]
    | split
    | intro _
    | dsimp only
theorem execTokenChallenge_own (tag : Byte) (s : State) {next : State} (h0 : OneOwner s.dev) (h : execTokenChallenge tag s = .next next) : OneOwner next.dev := by
  refine main_own h0 (fun e he => ?_) h
  repeat' first
    | with_reducible assumption
    | with_reducible apply doTokenChallenge_own
    | simp -implicitDefEqProofs only [OneOwner.lit]
    | split
    | intro _
    | dsimp only
theorem execLockstepRecord_own (r : BitVec 128) (s : State) {next : State} (h0 : OneOwner s.dev) (h : execLockstepRecord r s = .next next) : OneOwner next.dev := by
  refine main_own h0 (fun e he => ?_) h
  repeat' first
    | with_reducible assumption
    | with_reducible apply doLockstepRecord_own
    | simp -implicitDefEqProofs only [OneOwner.lit]
    | split
    | intro _
    | dsimp only
theorem execPartnerTimeout_own (s : State) {next : State} (h0 : OneOwner s.dev) (h : execPartnerTimeout s = .next next) : OneOwner next.dev := by
  refine main_own h0 (fun e he => ?_) h
  repeat' first
    | with_reducible assumption
    | with_reducible apply doPartnerTimeout_own
    | simp -implicitDefEqProofs only [OneOwner.lit]
    | split
    | intro _
    | dsimp only
theorem execExecuteStep_own (p : Fin 16) (s : State) {next : State} (h0 : OneOwner s.dev) (h : execExecuteStep p s = .next next) : OneOwner next.dev := by
  refine main_own h0 (fun e he => ?_) h
  repeat' first
    | with_reducible assumption
    | with_reducible apply doExecuteStep_own
    | with_reducible apply p_own
    | simp -implicitDefEqProofs only [OneOwner.lit]
    | split
    | intro _
    | dsimp only
theorem execCascadeLimit_own (p : Fin 16) (s : State) {next : State} (h0 : OneOwner s.dev) (h : execCascadeLimit p s = .next next) : OneOwner next.dev := by
  refine main_own h0 (fun e he => ?_) h
  repeat' first
    | with_reducible assumption
    | with_reducible apply doDue_own
    | with_reducible apply p_own
    | simp -implicitDefEqProofs only [OneOwner.lit]
    | split
    | intro _
    | dsimp only
theorem execRunLimitReached_own (p : Fin 16) (s : State) {next : State} (h0 : OneOwner s.dev) (h : execRunLimitReached p s = .next next) : OneOwner next.dev := by
  refine main_own h0 (fun e he => ?_) h
  repeat' first
    | with_reducible assumption
    | with_reducible apply doDue_own
    | with_reducible apply p_own
    | simp -implicitDefEqProofs only [OneOwner.lit]
    | split
    | intro _
    | dsimp only
theorem execStepCyclesCountReached_own (p : Fin 16) (s : State) {next : State} (h0 : OneOwner s.dev) (h : execStepCyclesCountReached p s = .next next) : OneOwner next.dev := by
  refine main_own h0 (fun e he => ?_) h
  repeat' first
    | with_reducible assumption
    | with_reducible apply doDue_own
    | with_reducible apply p_own
    | simp -implicitDefEqProofs only [OneOwner.lit]
    | split
    | intro _
    | dsimp only
theorem execStepStepsCountReached_own (p : Fin 16) (s : State) {next : State} (h0 : OneOwner s.dev) (h : execStepStepsCountReached p s = .next next) : OneOwner next.dev := by
  refine main_own h0 (fun e he => ?_) h
  repeat' first
    | with_reducible assumption
    | with_reducible apply doStepStepsCountReached_own
    | with_reducible apply p_own
    | simp -implicitDefEqProofs only [OneOwner.lit]
    | split
    | intro _
    | dsimp only
theorem execStallRelease_own (p : Fin 16) (s : State) {next : State} (h0 : OneOwner s.dev) (h : execStallRelease p s = .next next) : OneOwner next.dev := by
  refine main_own h0 (fun e he => ?_) h
  repeat' first
    | with_reducible assumption
    | with_reducible apply doStallRelease_own
    | with_reducible apply p_own
    | simp -implicitDefEqProofs only [OneOwner.lit]
    | split
    | intro _
    | dsimp only
theorem execStart_own (p : Fin 16) (s : State) {next : State} (h0 : OneOwner s.dev) (h : execStart p s = .next next) : OneOwner next.dev := by
  refine main_own h0 (fun e he => ?_) h
  repeat' first
    | with_reducible assumption
    | with_reducible apply atPtn_own
    | with_reducible apply p_own
    | with_reducible apply seqCommand_own
    | simp -implicitDefEqProofs only [OneOwner.lit]
    | split
    | intro _
    | dsimp only
theorem execResume_own (p : Fin 16) (s : State) {next : State} (h0 : OneOwner s.dev) (h : execResume p s = .next next) : OneOwner next.dev := by
  refine main_own h0 (fun e he => ?_) h
  repeat' first
    | with_reducible assumption
    | with_reducible apply atPtn_own
    | with_reducible apply p_own
    | with_reducible apply seqCommand_own
    | simp -implicitDefEqProofs only [OneOwner.lit]
    | split
    | intro _
    | dsimp only
theorem execFreeze_own (p : Fin 16) (s : State) {next : State} (h0 : OneOwner s.dev) (h : execFreeze p s = .next next) : OneOwner next.dev := by
  refine main_own h0 (fun e he => ?_) h
  repeat' first
    | with_reducible assumption
    | with_reducible apply atPtn_own
    | with_reducible apply p_own
    | with_reducible apply seqCommand_own
    | simp -implicitDefEqProofs only [OneOwner.lit]
    | split
    | intro _
    | dsimp only
theorem execHardFreeze_own (p : Fin 16) (s : State) {next : State} (h0 : OneOwner s.dev) (h : execHardFreeze p s = .next next) : OneOwner next.dev := by
  refine main_own h0 (fun e he => ?_) h
  repeat' first
    | with_reducible assumption
    | with_reducible apply atPtn_own
    | with_reducible apply p_own
    | with_reducible apply seqCommand_own
    | simp -implicitDefEqProofs only [OneOwner.lit]
    | split
    | intro _
    | dsimp only
theorem execStepCycles_own (p : Fin 16) (s : State) {next : State} (h0 : OneOwner s.dev) (h : execStepCycles p s = .next next) : OneOwner next.dev := by
  refine main_own h0 (fun e he => ?_) h
  repeat' first
    | with_reducible assumption
    | with_reducible apply atPtn_own
    | with_reducible apply p_own
    | with_reducible apply seqCommand_own
    | simp -implicitDefEqProofs only [OneOwner.lit]
    | split
    | intro _
    | dsimp only
theorem execStepSteps_own (p : Fin 16) (s : State) {next : State} (h0 : OneOwner s.dev) (h : execStepSteps p s = .next next) : OneOwner next.dev := by
  refine main_own h0 (fun e he => ?_) h
  repeat' first
    | with_reducible assumption
    | with_reducible apply atPtn_own
    | with_reducible apply p_own
    | with_reducible apply seqCommand_own
    | simp -implicitDefEqProofs only [OneOwner.lit]
    | split
    | intro _
    | dsimp only
theorem execStop_own (p : Fin 16) (s : State) {next : State} (h0 : OneOwner s.dev) (h : execStop p s = .next next) : OneOwner next.dev := by
  refine main_own h0 (fun e he => ?_) h
  repeat' first
    | with_reducible assumption
    | with_reducible apply atPtn_own
    | with_reducible apply p_own
    | with_reducible apply seqCommand_own
    | simp -implicitDefEqProofs only [OneOwner.lit]
    | split
    | intro _
    | dsimp only
theorem execSeqCmdInvalid_own (p : Fin 16) (code : Fin 16) (s : State) {next : State} (h0 : OneOwner s.dev) (h : execSeqCmdInvalid p code s = .next next) : OneOwner next.dev := by
  refine main_own h0 (fun e he => ?_) h
  repeat' first
    | with_reducible assumption
    | with_reducible apply atPtn_own
    | with_reducible apply p_own
    | with_reducible apply seqCommand_own
    | simp -implicitDefEqProofs only [OneOwner.lit]
    | split
    | intro _
    | dsimp only
theorem execFreezeTimeout_own (p : Fin 16) (s : State) {next : State} (h0 : OneOwner s.dev) (h : execFreezeTimeout p s = .next next) : OneOwner next.dev := by
  refine main_own h0 (fun e he => ?_) h
  repeat' first
    | with_reducible assumption
    | with_reducible apply doFreezeTimeout_own
    | with_reducible apply p_own
    | simp -implicitDefEqProofs only [OneOwner.lit]
    | split
    | intro _
    | dsimp only
theorem execSeqTableWrite_own (p : Fin 16) (off : Nat) (v : W32) (s : State) {next : State} (h0 : OneOwner s.dev) (h : execSeqTableWrite p off v s = .next next) : OneOwner next.dev := by
  refine main_own h0 (fun e he => ?_) h
  repeat' first
    | with_reducible assumption
    | with_reducible apply atPtn_own
    | with_reducible apply doSeqTableWrite_own
    | with_reducible apply p_own
    | simp -implicitDefEqProofs only [OneOwner.lit]
    | split
    | intro _
    | dsimp only
theorem execLinkedCommand_own (g : Fin 16) (p : Fin 16) (cmd : Fin 16) (count : W32) (dist : Nat) (intact : Bool) (s : State) {next : State} (h0 : OneOwner s.dev) (h : execLinkedCommand g p cmd count dist intact s = .next next) : OneOwner next.dev := by
  refine main_own h0 (fun e he => ?_) h
  repeat' first
    | with_reducible assumption
    | with_reducible apply doLinkedCommand_own
    | with_reducible apply p_own
    | simp -implicitDefEqProofs only [OneOwner.lit]
    | split
    | intro _
    | dsimp only
theorem execLinkedCommandEffect_own (p : Fin 16) (s : State) {next : State} (h0 : OneOwner s.dev) (h : execLinkedCommandEffect p s = .next next) : OneOwner next.dev := by
  refine main_own h0 (fun e he => ?_) h
  repeat' first
    | with_reducible assumption
    | with_reducible apply doLinkedCommandEffect_own
    | with_reducible apply p_own
    | simp -implicitDefEqProofs only [OneOwner.lit]
    | split
    | intro _
    | dsimp only
theorem execHold_own (g : Fin 16) (p : Fin 16) (e : Nat) (intact : Bool) (s : State) {next : State} (h0 : OneOwner s.dev) (h : execHold g p e intact s = .next next) : OneOwner next.dev := by
  refine main_own h0 (fun e he => ?_) h
  repeat' first
    | with_reducible assumption
    | with_reducible apply doHold_own
    | with_reducible apply p_own
    | simp -implicitDefEqProofs only [OneOwner.lit]
    | split
    | intro _
    | dsimp only
theorem execReady_own (g : Fin 16) (p : Fin 16) (e : Nat) (intact : Bool) (s : State) {next : State} (h0 : OneOwner s.dev) (h : execReady g p e intact s = .next next) : OneOwner next.dev := by
  refine main_own h0 (fun e he => ?_) h
  repeat' first
    | with_reducible assumption
    | with_reducible apply doReady_own
    | with_reducible apply p_own
    | simp -implicitDefEqProofs only [OneOwner.lit]
    | split
    | intro _
    | dsimp only
theorem execGo_own (g : Fin 16) (p : Fin 16) (e : Nat) (intact : Bool) (s : State) {next : State} (h0 : OneOwner s.dev) (h : execGo g p e intact s = .next next) : OneOwner next.dev := by
  refine main_own h0 (fun e he => ?_) h
  repeat' first
    | with_reducible assumption
    | with_reducible apply doGo_own
    | with_reducible apply p_own
    | simp -implicitDefEqProofs only [OneOwner.lit]
    | split
    | intro _
    | dsimp only
theorem execSystemHoldRelease_own (p : Fin 16) (s : State) {next : State} (h0 : OneOwner s.dev) (h : execSystemHoldRelease p s = .next next) : OneOwner next.dev := by
  refine main_own h0 (fun e he => ?_) h
  repeat' first
    | with_reducible assumption
    | with_reducible apply doSystemHoldRelease_own
    | with_reducible apply p_own
    | simp -implicitDefEqProofs only [OneOwner.lit]
    | split
    | intro _
    | dsimp only
theorem execSteps_own (g : Fin 16) (p : Fin 16) (cycle : BitVec 48) (count : Nat) (intact : Bool) (s : State) {next : State} (h0 : OneOwner s.dev) (h : execSteps g p cycle count intact s = .next next) : OneOwner next.dev := by
  refine main_own h0 (fun e he => ?_) h
  repeat' first
    | with_reducible assumption
    | with_reducible apply doSteps_own
    | with_reducible apply p_own
    | simp -implicitDefEqProofs only [OneOwner.lit]
    | split
    | intro _
    | dsimp only
theorem execCorrectedWordWriteBack_own (n : Fin 64) (walu : Bool) (t : Fin 32) (unit : Fin 64) (a : Fin 256) (s : State) {next : State} (h0 : OneOwner s.dev) (h : execCorrectedWordWriteBack n walu t unit a s = .next next) : OneOwner next.dev := by
  refine main_own h0 (fun e he => ?_) h
  repeat' first
    | with_reducible assumption
    | with_reducible apply doWriteBack_own
    | simp -implicitDefEqProofs only [OneOwner.lit]
    | split
    | intro _
    | dsimp only
theorem execDmemRowWriteBack_own (n : Fin 64) (m : Fin 8) (row : Fin 8192) (s : State) {next : State} (h0 : OneOwner s.dev) (h : execDmemRowWriteBack n m row s = .next next) : OneOwner next.dev := by
  refine main_own h0 (fun e he => ?_) h
  repeat' first
    | with_reducible assumption
    | with_reducible apply doRowWriteBack_own
    | simp -implicitDefEqProofs only [OneOwner.lit]
    | split
    | intro _
    | dsimp only
theorem execBpiClrCounts_own (n : Fin 64) (s : State) {next : State} (h0 : OneOwner s.dev) (h : execBpiClrCounts n s = .next next) : OneOwner next.dev := by
  refine main_own h0 (fun e he => ?_) h
  repeat' first
    | with_reducible assumption
    | with_reducible apply atCluster_own
    | with_reducible apply doBpiClr_own
    | simp -implicitDefEqProofs only [OneOwner.lit, off_pCLU, page_pCLU, ge_pCLU]
    | split
    | intro _
    | dsimp only
theorem execWliClrCounts_own (n : Fin 64) (s : State) {next : State} (h0 : OneOwner s.dev) (h : execWliClrCounts n s = .next next) : OneOwner next.dev := by
  refine main_own h0 (fun e he => ?_) h
  repeat' first
    | with_reducible assumption
    | with_reducible apply atCluster_own
    | with_reducible apply doWliClr_own
    | simp -implicitDefEqProofs only [OneOwner.lit, off_pCLU, page_pCLU, ge_pCLU]
    | split
    | intro _
    | dsimp only
theorem execFabClrCount_own (n : Fin 64) (s : State) {next : State} (h0 : OneOwner s.dev) (h : execFabClrCount n s = .next next) : OneOwner next.dev := by
  refine main_own h0 (fun e he => ?_) h
  repeat' first
    | with_reducible assumption
    | with_reducible apply atCluster_own
    | with_reducible apply doFabClr_own
    | simp -implicitDefEqProofs only [OneOwner.lit, off_pCLU, page_pCLU, ge_pCLU]
    | split
    | intro _
    | dsimp only
theorem execDmemClrCounts_own (n : Fin 64) (s : State) {next : State} (h0 : OneOwner s.dev) (h : execDmemClrCounts n s = .next next) : OneOwner next.dev := by
  refine main_own h0 (fun e he => ?_) h
  repeat' first
    | with_reducible assumption
    | with_reducible apply atCluster_own
    | with_reducible apply doDmemClr_own
    | simp -implicitDefEqProofs only [OneOwner.lit, off_pCLU, page_pCLU, ge_pCLU]
    | split
    | intro _
    | dsimp only
theorem execDmemCfgWrite_own (n : Fin 64) (off : Nat) (v : W32) (s : State) {next : State} (h0 : OneOwner s.dev) (h : execDmemCfgWrite n off v s = .next next) : OneOwner next.dev := by
  refine main_own h0 (fun e he => ?_) h
  repeat' first
    | with_reducible assumption
    | with_reducible apply atCluster_own
    | with_reducible apply doDmemCfg_own
    | simp -implicitDefEqProofs only [OneOwner.lit, off_pCLU, page_pCLU, ge_pCLU]
    | split
    | intro _
    | dsimp only
theorem execFmpConfigWrite_own (n : Fin 64) (off : Nat) (v : W32) (s : State) {next : State} (h0 : OneOwner s.dev) (h : execFmpConfigWrite n off v s = .next next) : OneOwner next.dev := by
  refine main_own h0 (fun e he => ?_) h
  repeat' first
    | with_reducible assumption
    | with_reducible apply atCluster_own
    | with_reducible apply doFmpCfg_own
    | simp -implicitDefEqProofs only [OneOwner.lit, off_pCLU, page_pCLU, ge_pCLU]
    | split
    | intro _
    | dsimp only
theorem execTxpConfigWrite_own (n : Fin 64) (off : Nat) (v : W32) (s : State) {next : State} (h0 : OneOwner s.dev) (h : execTxpConfigWrite n off v s = .next next) : OneOwner next.dev := by
  refine main_own h0 (fun e he => ?_) h
  repeat' first
    | with_reducible assumption
    | with_reducible apply atCluster_own
    | with_reducible apply doTxpCfg_own
    | simp -implicitDefEqProofs only [OneOwner.lit, off_pCLU, page_pCLU, ge_pCLU]
    | split
    | intro _
    | dsimp only
theorem execFarReadArrival_own (n : Fin 64) (f : Fin 4) (s : State) {next : State} (h0 : OneOwner s.dev) (h : execFarReadArrival n f s = .next next) : OneOwner next.dev := by
  refine main_own h0 (fun e he => ?_) h
  repeat' first
    | with_reducible assumption
    | with_reducible apply doFarRead_own
    | simp -implicitDefEqProofs only [OneOwner.lit]
    | split
    | intro _
    | dsimp only
theorem execFarWriteAck_own (n : Fin 64) (f : Fin 4) (s : State) {next : State} (h0 : OneOwner s.dev) (h : execFarWriteAck n f s = .next next) : OneOwner next.dev := by
  refine main_own h0 (fun e he => ?_) h
  repeat' first
    | with_reducible assumption
    | with_reducible apply doFarAck_own
    | simp -implicitDefEqProofs only [OneOwner.lit]
    | split
    | intro _
    | dsimp only
theorem execTxpCopyFill_own (n : Fin 64) (x : Fin 8) (s : State) {next : State} (h0 : OneOwner s.dev) (h : execTxpCopyFill n x s = .next next) : OneOwner next.dev := by
  refine main_own h0 (fun e he => ?_) h
  repeat' first
    | with_reducible assumption
    | with_reducible apply doCopyFill_own
    | simp -implicitDefEqProofs only [OneOwner.lit]
    | split
    | intro _
    | dsimp only
theorem execTxpCreditRenew_own (n : Fin 64) (x : Fin 8) (s : State) {next : State} (h0 : OneOwner s.dev) (h : execTxpCreditRenew n x s = .next next) : OneOwner next.dev := by
  refine main_own h0 (fun e he => ?_) h
  repeat' first
    | with_reducible assumption
    | with_reducible apply doCreditRenew_own
    | simp -implicitDefEqProofs only [OneOwner.lit]
    | split
    | intro _
    | dsimp only
theorem execWindowRead_own (fn : Fn) (n : Fin 64) (w : Fin 16) (off : Nat) (s : State) {next : State} (h0 : OneOwner s.dev) (h : execWindowRead fn n w off s = .next next) : OneOwner next.dev := by
  refine main_own h0 (fun e he => ?_) h
  repeat' first
    | with_reducible assumption
    | with_reducible apply doWindowRead_own
    | simp -implicitDefEqProofs only [OneOwner.lit]
    | split
    | intro _
    | dsimp only
theorem execWindowWrite_own (fn : Fn) (n : Fin 64) (w : Fin 16) (off : Nat) (v : W32) (s : State) {next : State} (h0 : OneOwner s.dev) (h : execWindowWrite fn n w off v s = .next next) : OneOwner next.dev := by
  refine main_own h0 (fun e he => ?_) h
  repeat' first
    | with_reducible assumption
    | with_reducible apply doWindowWrite_own
    | simp -implicitDefEqProofs only [OneOwner.lit]
    | split
    | intro _
    | dsimp only
theorem execWindowReadTimeout_own (fn : Fn) (n : Fin 64) (w : Fin 16) (off : Nat) (s : State) {next : State} (h0 : OneOwner s.dev) (h : execWindowReadTimeout fn n w off s = .next next) : OneOwner next.dev := by
  refine main_own h0 (fun e he => ?_) h
  repeat' first
    | with_reducible assumption
    | with_reducible apply doWindowTimeout_own
    | simp -implicitDefEqProofs only [OneOwner.lit]
    | split
    | intro _
    | dsimp only
theorem execFreezeSettled_own (p : Fin 16) (s : State) {next : State} (h0 : OneOwner s.dev) (h : execFreezeSettled p s = .next next) : OneOwner next.dev := by
  refine main_own h0 (fun e he => ?_) h
  repeat' first
    | with_reducible assumption
    | with_reducible apply doFreezeSettled_own
    | with_reducible apply p_own
    | simp -implicitDefEqProofs only [OneOwner.lit]
    | split
    | intro _
    | dsimp only
theorem execSnapSave_own (p : Fin 16) (s : State) {next : State} (h0 : OneOwner s.dev) (h : execSnapSave p s = .next next) : OneOwner next.dev := by
  refine main_own h0 (fun e he => ?_) h
  repeat' first
    | with_reducible assumption
    | with_reducible apply atPtn_own
    | with_reducible apply doSnapSave_own
    | with_reducible apply p_own
    | simp -implicitDefEqProofs only [OneOwner.lit]
    | split
    | intro _
    | dsimp only
theorem execSnapSaveComplete_own (p : Fin 16) (s : State) {next : State} (h0 : OneOwner s.dev) (h : execSnapSaveComplete p s = .next next) : OneOwner next.dev := by
  refine main_own h0 (fun e he => ?_) h
  repeat' first
    | with_reducible assumption
    | with_reducible apply doSnapSaveComplete_own
    | with_reducible apply p_own
    | simp -implicitDefEqProofs only [OneOwner.lit]
    | split
    | intro _
    | dsimp only
theorem execSnapRestore_own (p : Fin 16) (s : State) {next : State} (h0 : OneOwner s.dev) (h : execSnapRestore p s = .next next) : OneOwner next.dev := by
  refine main_own h0 (fun e he => ?_) h
  repeat' first
    | with_reducible assumption
    | with_reducible apply atPtn_own
    | with_reducible apply doSnapRestore_own
    | with_reducible apply p_own
    | simp -implicitDefEqProofs only [OneOwner.lit]
    | split
    | intro _
    | dsimp only
theorem execSnapCheckComplete_own (p : Fin 16) (s : State) {next : State} (h0 : OneOwner s.dev) (h : execSnapCheckComplete p s = .next next) : OneOwner next.dev := by
  refine main_own h0 (fun e he => ?_) h
  repeat' first
    | with_reducible assumption
    | with_reducible apply doSnapCheckComplete_own
    | with_reducible apply p_own
    | simp -implicitDefEqProofs only [OneOwner.lit]
    | split
    | intro _
    | dsimp only
theorem execSnapRestoreComplete_own (p : Fin 16) (s : State) {next : State} (h0 : OneOwner s.dev) (h : execSnapRestoreComplete p s = .next next) : OneOwner next.dev := by
  refine main_own h0 (fun e he => ?_) h
  repeat' first
    | with_reducible assumption
    | with_reducible apply doSnapRestoreComplete_own
    | with_reducible apply p_own
    | simp -implicitDefEqProofs only [OneOwner.lit]
    | split
    | intro _
    | dsimp only
theorem execSnapAbort_own (p : Fin 16) (s : State) {next : State} (h0 : OneOwner s.dev) (h : execSnapAbort p s = .next next) : OneOwner next.dev := by
  refine main_own h0 (fun e he => ?_) h
  repeat' first
    | with_reducible assumption
    | with_reducible apply atPtn_own
    | with_reducible apply doSnapAbort_own
    | with_reducible apply p_own
    | simp -implicitDefEqProofs only [OneOwner.lit]
    | split
    | intro _
    | dsimp only
theorem execDoorbellAppend_own (fn : Fn) (slot : Fin 8192) (fin fence : Bool) (w : W64) (s : State) {next : State} (h0 : OneOwner s.dev) (h : execDoorbellAppend fn slot fin fence w s = .next next) : OneOwner next.dev := by
  refine main_own h0 (fun e he => ?_) h
  repeat' first
    | with_reducible assumption
    | with_reducible apply doDoorbell_own
    | simp -implicitDefEqProofs only [OneOwner.lit]
    | split
    | intro _
    | dsimp only
theorem execDoorbellAppendMulti_own (fn : Fn) (slot : Fin 8192) (ws : Words) (s : State) {next : State} (h0 : OneOwner s.dev) (h : execDoorbellAppendMulti fn slot ws s = .next next) : OneOwner next.dev := by
  refine main_own h0 (fun e he => ?_) h
  repeat' first
    | with_reducible assumption
    | with_reducible apply doDoorbellMulti_own
    | simp -implicitDefEqProofs only [OneOwner.lit]
    | split
    | intro _
    | dsimp only
theorem execPop_own (fn : Fn) (slot : Fin 8192) (s : State) {next : State} (h0 : OneOwner s.dev) (h : execPop fn slot s = .next next) : OneOwner next.dev := by
  refine main_own h0 (fun e he => ?_) h
  repeat' first
    | with_reducible assumption
    | with_reducible apply doPop_own
    | simp -implicitDefEqProofs only [OneOwner.lit]
    | split
    | intro _
    | dsimp only
theorem execPopWaitExpire_own (fn : Fn) (slot : Fin 8192) (s : State) {next : State} (h0 : OneOwner s.dev) (h : execPopWaitExpire fn slot s = .next next) : OneOwner next.dev := by
  refine main_own h0 (fun e he => ?_) h
  repeat' first
    | with_reducible assumption
    | with_reducible apply doPopWaitExpire_own
    | simp -implicitDefEqProofs only [OneOwner.lit]
    | split
    | intro _
    | dsimp only
theorem execBar4AccessError_own (fn : Fn) (off : Nat) (write : Bool) (s : State) {next : State} (h0 : OneOwner s.dev) (h : execBar4AccessError fn off write s = .next next) : OneOwner next.dev := by
  refine main_own h0 (fun e he => ?_) h
  repeat' first
    | with_reducible assumption
    | with_reducible apply doBar4Error_own
    | simp -implicitDefEqProofs only [OneOwner.lit]
    | split
    | intro _
    | dsimp only
theorem execQwrHoldExpire_own (q : Fin 8192) (s : State) {next : State} (h0 : OneOwner s.dev) (h : execQwrHoldExpire q s = .next next) : OneOwner next.dev := by
  refine main_own h0 (fun e he => ?_) h
  repeat' first
    | with_reducible assumption
    | with_reducible apply doQwrExpire_own
    | simp -implicitDefEqProofs only [OneOwner.lit]
    | split
    | intro _
    | dsimp only
theorem execQrdHoldExpire_own (q : Fin 8192) (s : State) {next : State} (h0 : OneOwner s.dev) (h : execQrdHoldExpire q s = .next next) : OneOwner next.dev := by
  refine main_own h0 (fun e he => ?_) h
  repeat' first
    | with_reducible assumption
    | with_reducible apply doQrdExpire_own
    | simp -implicitDefEqProofs only [OneOwner.lit]
    | split
    | intro _
    | dsimp only
theorem execFlush_own (fn : Fn) (q : Fin 8192) (s : State) {next : State} (h0 : OneOwner s.dev) (h : execFlush fn q s = .next next) : OneOwner next.dev := by
  refine main_own h0 (fun e he => ?_) h
  repeat' first
    | with_reducible assumption
    | with_reducible apply atQueue_own
    | with_reducible apply queueCmd_own
    | simp -implicitDefEqProofs only [OneOwner.lit]
    | split
    | intro _
    | dsimp only
theorem execDropHead_own (fn : Fn) (q : Fin 8192) (s : State) {next : State} (h0 : OneOwner s.dev) (h : execDropHead fn q s = .next next) : OneOwner next.dev := by
  refine main_own h0 (fun e he => ?_) h
  repeat' first
    | with_reducible assumption
    | with_reducible apply atQueue_own
    | with_reducible apply queueCmd_own
    | simp -implicitDefEqProofs only [OneOwner.lit]
    | split
    | intro _
    | dsimp only
theorem execClrHwm_own (fn : Fn) (q : Fin 8192) (s : State) {next : State} (h0 : OneOwner s.dev) (h : execClrHwm fn q s = .next next) : OneOwner next.dev := by
  refine main_own h0 (fun e he => ?_) h
  repeat' first
    | with_reducible assumption
    | with_reducible apply atQueue_own
    | with_reducible apply queueCmd_own
    | simp -implicitDefEqProofs only [OneOwner.lit]
    | split
    | intro _
    | dsimp only
theorem execQueueEnable_own (fn : Fn) (q : Fin 8192) (s : State) {next : State} (h0 : OneOwner s.dev) (h : execQueueEnable fn q s = .next next) : OneOwner next.dev := by
  refine main_own h0 (fun e he => ?_) h
  repeat' first
    | with_reducible assumption
    | with_reducible apply atQueue_own
    | with_reducible apply setQueueEn_own
    | simp -implicitDefEqProofs only [OneOwner.lit]
    | split
    | intro _
    | dsimp only
theorem execQueueDisable_own (fn : Fn) (q : Fin 8192) (s : State) {next : State} (h0 : OneOwner s.dev) (h : execQueueDisable fn q s = .next next) : OneOwner next.dev := by
  refine main_own h0 (fun e he => ?_) h
  repeat' first
    | with_reducible assumption
    | with_reducible apply atQueue_own
    | with_reducible apply setQueueEn_own
    | simp -implicitDefEqProofs only [OneOwner.lit]
    | split
    | intro _
    | dsimp only
theorem execSubmit_own (fn : Fn) (s : State) {next : State} (h0 : OneOwner s.dev) (h : execSubmit fn s = .next next) : OneOwner next.dev := by
  refine main_own h0 (fun e he => ?_) h
  repeat' first
    | with_reducible assumption
    | with_reducible apply doSubmit_own
    | simp -implicitDefEqProofs only [OneOwner.lit]
    | split
    | intro _
    | dsimp only
theorem execSubmitHoldExpire_own (list : Fin 17) (s : State) {next : State} (h0 : OneOwner s.dev) (h : execSubmitHoldExpire list s = .next next) : OneOwner next.dev := by
  refine main_own h0 (fun e he => ?_) h
  repeat' first
    | with_reducible assumption
    | with_reducible apply doSubmitExpire_own
    | simp -implicitDefEqProofs only [OneOwner.lit]
    | split
    | intro _
    | dsimp only
theorem execCourierDispatch_own (c : Fin 32) (data : List Byte) (s : State) {next : State} (h0 : OneOwner s.dev) (h : execCourierDispatch c data s = .next next) : OneOwner next.dev := by
  refine main_own h0 (fun e he => ?_) h
  repeat' first
    | with_reducible assumption
    | with_reducible apply doDispatch_own
    | simp -implicitDefEqProofs only [OneOwner.lit]
    | split
    | intro _
    | dsimp only
theorem execWorkItemComplete_own (c : Fin 32) (s : State) {next : State} (h0 : OneOwner s.dev) (h : execWorkItemComplete c s = .next next) : OneOwner next.dev := by
  refine main_own h0 (fun e he => ?_) h
  repeat' first
    | with_reducible assumption
    | with_reducible apply doItemComplete_own
    | simp -implicitDefEqProofs only [OneOwner.lit]
    | split
    | intro _
    | dsimp only
theorem execCourierWaitLimit_own (c : Fin 32) (s : State) {next : State} (h0 : OneOwner s.dev) (h : execCourierWaitLimit c s = .next next) : OneOwner next.dev := by
  refine main_own h0 (fun e he => ?_) h
  repeat' first
    | with_reducible assumption
    | with_reducible apply doWaitLimit_own
    | simp -implicitDefEqProofs only [OneOwner.lit]
    | split
    | intro _
    | dsimp only
theorem execDspClr_own (s : State) {next : State} (h0 : OneOwner s.dev) (h : execDspClr s = .next next) : OneOwner next.dev := by
  refine main_own h0 (fun e he => ?_) h
  repeat' first
    | with_reducible assumption
    | with_reducible apply doDspClr_own
    | simp -implicitDefEqProofs only [OneOwner.lit]
    | split
    | intro _
    | dsimp only
theorem execLogClear_own (s : State) {next : State} (h0 : OneOwner s.dev) (h : execLogClear s = .next next) : OneOwner next.dev := by
  refine main_own h0 (fun e he => ?_) h
  repeat' first
    | with_reducible assumption
    | with_reducible apply doLogClear_own
    | simp -implicitDefEqProofs only [OneOwner.lit]
    | split
    | intro _
    | dsimp only
theorem execLastGaspClear_own (s : State) {next : State} (h0 : OneOwner s.dev) (h : execLastGaspClear s = .next next) : OneOwner next.dev := by
  refine main_own h0 (fun e he => ?_) h
  repeat' first
    | with_reducible assumption
    | with_reducible apply doLastGaspClear_own
    | simp -implicitDefEqProofs only [OneOwner.lit]
    | split
    | intro _
    | dsimp only
theorem execClearAll_own (s : State) {next : State} (h0 : OneOwner s.dev) (h : execClearAll s = .next next) : OneOwner next.dev := by
  refine main_own h0 (fun e he => ?_) h
  repeat' first
    | with_reducible assumption
    | with_reducible apply doClearAll_own
    | simp -implicitDefEqProofs only [OneOwner.lit]
    | split
    | intro _
    | dsimp only
theorem execCounterSaturate_own (base : Nat) (i : Fin 64) (s : State) {next : State} (h0 : OneOwner s.dev) (h : execCounterSaturate base i s = .next next) : OneOwner next.dev := by
  refine main_own h0 (fun e he => ?_) h
  repeat' first
    | with_reducible assumption
    | with_reducible apply doCounterSaturate_own
    | simp -implicitDefEqProofs only [OneOwner.lit]
    | split
    | intro _
    | dsimp only
theorem execRoll_own (s : State) {next : State} (h0 : OneOwner s.dev) (h : execRoll s = .next next) : OneOwner next.dev := by
  refine main_own h0 (fun e he => ?_) h
  repeat' first
    | with_reducible assumption
    | with_reducible apply doRoll_own
    | simp -implicitDefEqProofs only [OneOwner.lit]
    | split
    | intro _
    | dsimp only
theorem execKeyRollStart_own (s : State) {next : State} (h0 : OneOwner s.dev) (h : execKeyRollStart s = .next next) : OneOwner next.dev := by
  refine main_own h0 (fun e he => ?_) h
  repeat' first
    | with_reducible assumption
    | with_reducible apply doKeyRollStart_own
    | simp -implicitDefEqProofs only [OneOwner.lit]
    | split
    | intro _
    | dsimp only
theorem execKeyRollSector_own (s : State) {next : State} (h0 : OneOwner s.dev) (h : execKeyRollSector s = .next next) : OneOwner next.dev := by
  refine main_own h0 (fun e he => ?_) h
  repeat' first
    | with_reducible assumption
    | with_reducible apply doKeyRollSector_own
    | simp -implicitDefEqProofs only [OneOwner.lit]
    | split
    | intro _
    | dsimp only
theorem execImeClrCounts_own (s : State) {next : State} (h0 : OneOwner s.dev) (h : execImeClrCounts s = .next next) : OneOwner next.dev := by
  refine main_own h0 (fun e he => ?_) h
  repeat' first
    | with_reducible assumption
    | with_reducible apply doImeClrCounts_own
    | simp -implicitDefEqProofs only [OneOwner.lit]
    | split
    | intro _
    | dsimp only
theorem execSysFreeze_own (s : State) {next : State} (h0 : OneOwner s.dev) (h : execSysFreeze s = .next next) : OneOwner next.dev := by
  refine main_own h0 (fun e he => ?_) h
  repeat' first
    | with_reducible assumption
    | with_reducible apply doSysFreeze_own
    | simp -implicitDefEqProofs only [OneOwner.lit]
    | split
    | intro _
    | dsimp only
theorem execStrobe_own (s : State) {next : State} (h0 : OneOwner s.dev) (h : execStrobe s = .next next) : OneOwner next.dev := by
  refine main_own h0 (fun e he => ?_) h
  repeat' first
    | with_reducible assumption
    | with_reducible apply doStrobe_own
    | simp -implicitDefEqProofs only [OneOwner.lit]
    | split
    | intro _
    | dsimp only
theorem execCaptureArm_own (c : Fin 17) (s : State) {next : State} (h0 : OneOwner s.dev) (h : execCaptureArm c s = .next next) : OneOwner next.dev := by
  refine main_own h0 (fun e he => ?_) h
  repeat' first
    | with_reducible assumption
    | with_reducible apply doCaptureArm_own
    | simp -implicitDefEqProofs only [OneOwner.lit]
    | split
    | intro _
    | dsimp only
theorem execCaptureDisarm_own (c : Fin 17) (s : State) {next : State} (h0 : OneOwner s.dev) (h : execCaptureDisarm c s = .next next) : OneOwner next.dev := by
  refine main_own h0 (fun e he => ?_) h
  repeat' first
    | with_reducible assumption
    | with_reducible apply doCaptureDisarm_own
    | simp -implicitDefEqProofs only [OneOwner.lit]
    | split
    | intro _
    | dsimp only
theorem execCaptureBlockWrite_own (ch : Fin 64) (addr : Nat) (s : State) {next : State} (h0 : OneOwner s.dev) (h : execCaptureBlockWrite ch addr s = .next next) : OneOwner next.dev := by
  refine main_own h0 (fun e he => ?_) h
  repeat' first
    | with_reducible assumption
    | with_reducible apply doCaptureBlockWrite_own
    | simp -implicitDefEqProofs only [OneOwner.lit]
    | split
    | intro _
    | dsimp only
theorem execPostLimitExpire_own (ch : Fin 64) (s : State) {next : State} (h0 : OneOwner s.dev) (h : execPostLimitExpire ch s = .next next) : OneOwner next.dev := by
  refine main_own h0 (fun e he => ?_) h
  repeat' first
    | with_reducible assumption
    | with_reducible apply doPostLimitExpire_own
    | simp -implicitDefEqProofs only [OneOwner.lit]
    | split
    | intro _
    | dsimp only
theorem execRearmExpire_own (c : Fin 17) (s : State) {next : State} (h0 : OneOwner s.dev) (h : execRearmExpire c s = .next next) : OneOwner next.dev := by
  refine main_own h0 (fun e he => ?_) h
  repeat' first
    | with_reducible assumption
    | with_reducible apply doRearmExpire_own
    | simp -implicitDefEqProofs only [OneOwner.lit]
    | split
    | intro _
    | dsimp only
theorem execChannelOwnerWrite_own (ch : Fin 64) (owner : Fin 32) (s : State) {next : State} (h0 : OneOwner s.dev) (h : execChannelOwnerWrite ch owner s = .next next) : OneOwner next.dev := by
  refine main_own h0 (fun e he => ?_) h
  repeat' first
    | with_reducible assumption
    | with_reducible apply doChannelOwnerWrite_own
    | simp -implicitDefEqProofs only [OneOwner.lit]
    | split
    | intro _
    | dsimp only
theorem execZeroingComplete_own (ch : Fin 64) (s : State) {next : State} (h0 : OneOwner s.dev) (h : execZeroingComplete ch s = .next next) : OneOwner next.dev := by
  refine main_own h0 (fun e he => ?_) h
  repeat' first
    | with_reducible assumption
    | with_reducible apply doZeroingComplete_own
    | simp -implicitDefEqProofs only [OneOwner.lit]
    | split
    | intro _
    | dsimp only
theorem execPinwheelConfigWrite_own (size : Bool) (v : W64) (s : State) {next : State} (h0 : OneOwner s.dev) (h : execPinwheelConfigWrite size v s = .next next) : OneOwner next.dev := by
  refine main_own h0 (fun e he => ?_) h
  repeat' first
    | with_reducible assumption
    | with_reducible apply doPinwheelConfigWrite_own
    | simp -implicitDefEqProofs only [OneOwner.lit]
    | split
    | intro _
    | dsimp only
theorem execPtnCreate_own (tag : Byte) (p : Fin 16) (bindVf : Bool) (mask shape : W64) (quotaMiB : W32) (s : State) {next : State} (h0 : OneOwner s.dev) (h : execPtnCreate tag p bindVf mask shape quotaMiB s = .next next) : OneOwner next.dev := by
  refine main_own h0 (fun e he => ?_) h
  repeat' first
    | with_reducible assumption
    | with_reducible apply doPtnCreate_own
    | with_reducible apply p_own
    | with_reducible apply serving_own
    | simp -implicitDefEqProofs only [OneOwner.lit]
    | split
    | intro _
    | dsimp only
theorem execPtnDestroy_own (tag : Byte) (p : Fin 16) (s : State) {next : State} (h0 : OneOwner s.dev) (h : execPtnDestroy tag p s = .next next) : OneOwner next.dev := by
  refine main_own h0 (fun e he => ?_) h
  repeat' first
    | with_reducible assumption
    | with_reducible apply doPtnDestroy_own
    | with_reducible apply p_own
    | with_reducible apply serving_own
    | simp -implicitDefEqProofs only [OneOwner.lit]
    | split
    | intro _
    | dsimp only
theorem execPtnCloseComplete_own (p : Fin 16) (s : State) {next : State} (h0 : OneOwner s.dev) (h : execPtnCloseComplete p s = .next next) : OneOwner next.dev := by
  refine main_own h0 (fun e he => ?_) h
  repeat' first
    | with_reducible assumption
    | with_reducible apply doPtnClose_own
    | with_reducible apply p_own
    | simp -implicitDefEqProofs only [OneOwner.lit]
    | split
    | intro _
    | dsimp only
theorem execPtnResize_own (tag : Byte) (p : Fin 16) (retarget : Bool) (mask shape : W64) (s : State) {next : State} (h0 : OneOwner s.dev) (h : execPtnResize tag p retarget mask shape s = .next next) : OneOwner next.dev := by
  refine main_own h0 (fun e he => ?_) h
  repeat' first
    | with_reducible assumption
    | with_reducible apply doPtnResize_own
    | with_reducible apply p_own
    | with_reducible apply serving_own
    | simp -implicitDefEqProofs only [OneOwner.lit]
    | split
    | intro _
    | dsimp only
theorem execPtnResizeComplete_own (p : Fin 16) (s : State) {next : State} (h0 : OneOwner s.dev) (h : execPtnResizeComplete p s = .next next) : OneOwner next.dev := by
  refine main_own h0 (fun e he => ?_) h
  repeat' first
    | with_reducible assumption
    | with_reducible apply doPtnResizeComplete_own
    | with_reducible apply p_own
    | simp -implicitDefEqProofs only [OneOwner.lit]
    | split
    | intro _
    | dsimp only
theorem execPtnQuery_own (tag : Byte) (p : Fin 16) (s : State) {next : State} (h0 : OneOwner s.dev) (h : execPtnQuery tag p s = .next next) : OneOwner next.dev := by
  refine main_own h0 (fun e he => ?_) h
  repeat' first
    | with_reducible assumption
    | with_reducible apply doPtnQuery_own
    | with_reducible apply p_own
    | with_reducible apply serving_own
    | simp -implicitDefEqProofs only [OneOwner.lit]
    | split
    | intro _
    | dsimp only
theorem execPing_own (tag : Byte) (arg : W32) (s : State) {next : State} (h0 : OneOwner s.dev) (h : execPing tag arg s = .next next) : OneOwner next.dev := by
  refine main_own h0 (fun e he => ?_) h
  repeat' first
    | with_reducible assumption
    | with_reducible apply doPing_own
    | with_reducible apply serving_own
    | simp -implicitDefEqProofs only [OneOwner.lit]
    | split
    | intro _
    | dsimp only
theorem execBeaconSend_own (s : State) {next : State} (h0 : OneOwner s.dev) (h : execBeaconSend s = .next next) : OneOwner next.dev := by
  refine main_own h0 (fun e he => ?_) h
  repeat' first
    | with_reducible assumption
    | with_reducible apply doBeaconSend_own
    | simp -implicitDefEqProofs only [OneOwner.lit]
    | split
    | intro _
    | dsimp only
theorem execBeacon_own (g : Fin 16) (ns : W64) (frac : BitVec 16) (hops : Nat) (master : Fin 512) (intact : Bool) (s : State) {next : State} (h0 : OneOwner s.dev) (h : execBeacon g ns frac hops master intact s = .next next) : OneOwner next.dev := by
  refine main_own h0 (fun e he => ?_) h
  repeat' first
    | with_reducible assumption
    | with_reducible apply doBeacon_own
    | simp -implicitDefEqProofs only [OneOwner.lit]
    | split
    | intro _
    | dsimp only
theorem execBeaconTimeout_own (s : State) {next : State} (h0 : OneOwner s.dev) (h : execBeaconTimeout s = .next next) : OneOwner next.dev := by
  refine main_own h0 (fun e he => ?_) h
  repeat' first
    | with_reducible assumption
    | with_reducible apply doBeaconTimeout_own
    | simp -implicitDefEqProofs only [OneOwner.lit]
    | split
    | intro _
    | dsimp only
theorem execTsbHoldEnd_own (s : State) {next : State} (h0 : OneOwner s.dev) (h : execTsbHoldEnd s = .next next) : OneOwner next.dev := by
  refine main_own h0 (fun e he => ?_) h
  repeat' first
    | with_reducible assumption
    | with_reducible apply doHoldEnd_own
    | simp -implicitDefEqProofs only [OneOwner.lit]
    | split
    | intro _
    | dsimp only
theorem execTsbSet_own (v : W64) (s : State) {next : State} (h0 : OneOwner s.dev) (h : execTsbSet v s = .next next) : OneOwner next.dev := by
  refine main_own h0 (fun e he => ?_) h
  repeat' first
    | with_reducible assumption
    | with_reducible apply doTsbSet_own
    | simp -implicitDefEqProofs only [OneOwner.lit]
    | split
    | intro _
    | dsimp only
theorem execBootGo_own (s : State) {next : State} (h0 : OneOwner s.dev) (h : execBootGo s = .next next) : OneOwner next.dev := by
  refine main_own h0 (fun e he => ?_) h
  repeat' first
    | with_reducible assumption
    | with_reducible apply atPage_own
    | with_reducible apply doBootGo_own
    | simp -implicitDefEqProofs only [OneOwner.lit, off_pLDR, page_pLDR, ge_pLDR]
    | split
    | intro _
    | dsimp only
theorem execBootAbort_own (s : State) {next : State} (h0 : OneOwner s.dev) (h : execBootAbort s = .next next) : OneOwner next.dev := by
  refine main_own h0 (fun e he => ?_) h
  repeat' first
    | with_reducible assumption
    | with_reducible apply atPage_own
    | with_reducible apply doBootAbort_own
    | simp -implicitDefEqProofs only [OneOwner.lit, off_pLDR, page_pLDR, ge_pLDR]
    | split
    | intro _
    | dsimp only
theorem execBundleFetchComplete_own (data : Option (List Byte)) (s : State) {next : State} (h0 : OneOwner s.dev) (h : execBundleFetchComplete data s = .next next) : OneOwner next.dev := by
  refine main_own h0 (fun e he => ?_) h
  repeat' first
    | with_reducible assumption
    | with_reducible apply doFetchDone_own
    | simp -implicitDefEqProofs only [OneOwner.lit]
    | split
    | intro _
    | dsimp only
theorem execBundleVerifyComplete_own (s : State) {next : State} (h0 : OneOwner s.dev) (h : execBundleVerifyComplete s = .next next) : OneOwner next.dev := by
  refine main_own h0 (fun e he => ?_) h
  repeat' first
    | with_reducible assumption
    | with_reducible apply doVerifyDone_own
    | simp -implicitDefEqProofs only [OneOwner.lit]
    | split
    | intro _
    | dsimp only
theorem execStageReady_own (s : State) {next : State} (h0 : OneOwner s.dev) (h : execStageReady s = .next next) : OneOwner next.dev := by
  refine main_own h0 (fun e he => ?_) h
  repeat' first
    | with_reducible assumption
    | with_reducible apply doStageReady_own
    | simp -implicitDefEqProofs only [OneOwner.lit]
    | split
    | intro _
    | dsimp only
theorem execConfirm_own (s : State) {next : State} (h0 : OneOwner s.dev) (h : execConfirm s = .next next) : OneOwner next.dev := by
  refine main_own h0 (fun e he => ?_) h
  repeat' first
    | with_reducible assumption
    | with_reducible apply atPage_own
    | with_reducible apply doConfirm_own
    | simp -implicitDefEqProofs only [OneOwner.lit, off_pLDR, page_pLDR, ge_pLDR]
    | split
    | intro _
    | dsimp only
theorem execBurnComplete_own (fault : Bool) (s : State) {next : State} (h0 : OneOwner s.dev) (h : execBurnComplete fault s = .next next) : OneOwner next.dev := by
  refine main_own h0 (fun e he => ?_) h
  repeat' first
    | with_reducible assumption
    | with_reducible apply doBurnDone_own
    | simp -implicitDefEqProofs only [OneOwner.lit]
    | split
    | intro _
    | dsimp only
theorem execOwnerProvision_own (tag : Byte) (hash : Words) (s : State) {next : State} (h0 : OneOwner s.dev) (h : execOwnerProvision tag hash s = .next next) : OneOwner next.dev := by
  refine main_own h0 (fun e he => ?_) h
  repeat' first
    | with_reducible assumption
    | with_reducible apply doOwnerProvision_own
    | with_reducible apply serving_own
    | simp -implicitDefEqProofs only [OneOwner.lit]
    | split
    | intro _
    | dsimp only
theorem execOwnerBurnComplete_own (fault : Bool) (s : State) {next : State} (h0 : OneOwner s.dev) (h : execOwnerBurnComplete fault s = .next next) : OneOwner next.dev := by
  refine main_own h0 (fun e he => ?_) h
  repeat' first
    | with_reducible assumption
    | with_reducible apply doOwnerBurnDone_own
    | simp -implicitDefEqProofs only [OneOwner.lit]
    | split
    | intro _
    | dsimp only
theorem execTokenPresent_own (tag : Byte) (token : Words) (s : State) {next : State} (h0 : OneOwner s.dev) (h : execTokenPresent tag token s = .next next) : OneOwner next.dev := by
  refine main_own h0 (fun e he => ?_) h
  repeat' first
    | with_reducible assumption
    | with_reducible apply doTokenPresent_own
    | with_reducible apply serving_own
    | simp -implicitDefEqProofs only [OneOwner.lit]
    | split
    | intro _
    | dsimp only
theorem execServiceBadCommand_own (hdr : W64) (s : State) {next : State} (h0 : OneOwner s.dev) (h : execServiceBadCommand hdr s = .next next) : OneOwner next.dev := by
  refine main_own h0 (fun e he => ?_) h
  repeat' first
    | with_reducible assumption
    | with_reducible apply doBadCommand_own
    | with_reducible apply serving_own
    | simp -implicitDefEqProofs only [OneOwner.lit]
    | split
    | intro _
    | dsimp only
theorem execLoadGo_own (p : Fin 16) (s : State) {next : State} (h0 : OneOwner s.dev) (h : execLoadGo p s = .next next) : OneOwner next.dev := by
  refine main_own h0 (fun e he => ?_) h
  repeat' first
    | with_reducible assumption
    | with_reducible apply atPtn_own
    | with_reducible apply doLoadGo_own
    | with_reducible apply p_own
    | simp -implicitDefEqProofs only [OneOwner.lit]
    | split
    | intro _
    | dsimp only
theorem execLoadAbort_own (p : Fin 16) (s : State) {next : State} (h0 : OneOwner s.dev) (h : execLoadAbort p s = .next next) : OneOwner next.dev := by
  refine main_own h0 (fun e he => ?_) h
  repeat' first
    | with_reducible assumption
    | with_reducible apply atPtn_own
    | with_reducible apply doLoadAbort_own
    | with_reducible apply p_own
    | simp -implicitDefEqProofs only [OneOwner.lit]
    | split
    | intro _
    | dsimp only
theorem execLoadReplay_own (p : Fin 16) (s : State) {next : State} (h0 : OneOwner s.dev) (h : execLoadReplay p s = .next next) : OneOwner next.dev := by
  refine main_own h0 (fun e he => ?_) h
  repeat' first
    | with_reducible assumption
    | with_reducible apply atPtn_own
    | with_reducible apply doLoadReplay_own
    | with_reducible apply p_own
    | simp -implicitDefEqProofs only [OneOwner.lit]
    | split
    | intro _
    | dsimp only
theorem execFrame_own (p : Fin 16) (data : Option (List Byte)) (s : State) {next : State} (h0 : OneOwner s.dev) (h : execFrame p data s = .next next) : OneOwner next.dev := by
  refine main_own h0 (fun e he => ?_) h
  repeat' first
    | with_reducible assumption
    | with_reducible apply doFrame_own
    | with_reducible apply p_own
    | simp -implicitDefEqProofs only [OneOwner.lit]
    | split
    | intro _
    | dsimp only
theorem execScrubWalkRead_own (n : Fin 64) (w : WordLoc) (s : State) {next : State} (h0 : OneOwner s.dev) (h : execScrubWalkRead n w s = .next next) : OneOwner next.dev := by
  refine main_own h0 (fun e he => ?_) h
  repeat' first
    | with_reducible assumption
    | with_reducible apply doWalkRead_own
    | simp -implicitDefEqProofs only [OneOwner.lit]
    | split
    | intro _
    | dsimp only
theorem execScrubPassRequest_own (p : Fin 16) (s : State) {next : State} (h0 : OneOwner s.dev) (h : execScrubPassRequest p s = .next next) : OneOwner next.dev := by
  refine main_own h0 (fun e he => ?_) h
  repeat' first
    | with_reducible assumption
    | with_reducible apply doPassRequest_own
    | with_reducible apply p_own
    | simp -implicitDefEqProofs only [OneOwner.lit]
    | split
    | intro _
    | dsimp only
theorem execScrubPassStart_own (s : State) {next : State} (h0 : OneOwner s.dev) (h : execScrubPassStart s = .next next) : OneOwner next.dev := by
  refine main_own h0 (fun e he => ?_) h
  repeat' first
    | with_reducible assumption
    | with_reducible apply doPassStart_own
    | simp -implicitDefEqProofs only [OneOwner.lit]
    | split
    | intro _
    | dsimp only
theorem execScrubPassComplete_own (s : State) {next : State} (h0 : OneOwner s.dev) (h : execScrubPassComplete s = .next next) : OneOwner next.dev := by
  refine main_own h0 (fun e he => ?_) h
  repeat' first
    | with_reducible assumption
    | with_reducible apply doPassComplete_own
    | simp -implicitDefEqProofs only [OneOwner.lit]
    | split
    | intro _
    | dsimp only
theorem execUpset_own (n : Fin 64) (w : WordLoc) (fetch : Bool) (s : State) {next : State} (h0 : OneOwner s.dev) (h : execUpset n w fetch s = .next next) : OneOwner next.dev := by
  refine main_own h0 (fun e he => ?_) h
  repeat' first
    | with_reducible assumption
    | with_reducible apply doUpset_own
    | simp -implicitDefEqProofs only [OneOwner.lit]
    | split
    | intro _
    | dsimp only
theorem execUpsetRewrite_own (n : Fin 64) (w : WordLoc) (s : State) {next : State} (h0 : OneOwner s.dev) (h : execUpsetRewrite n w s = .next next) : OneOwner next.dev := by
  refine main_own h0 (fun e he => ?_) h
  repeat' first
    | with_reducible assumption
    | with_reducible apply doUpsetRewrite_own
    | simp -implicitDefEqProofs only [OneOwner.lit]
    | split
    | intro _
    | dsimp only
theorem execLaneGroupEnable_own (g : Fin 16) (s : State) {next : State} (h0 : OneOwner s.dev) (h : execLaneGroupEnable g s = .next next) : OneOwner next.dev := by
  refine main_own h0 (fun e he => ?_) h
  repeat' first
    | with_reducible assumption
    | with_reducible apply atPage_own
    | with_reducible apply doLaneEnable_own
    | simp -implicitDefEqProofs only [OneOwner.lit, off_pLGRP, page_pLGRP, ge_pLGRP]
    | split
    | intro _
    | dsimp only
theorem execLaneGroupDisable_own (g : Fin 16) (s : State) {next : State} (h0 : OneOwner s.dev) (h : execLaneGroupDisable g s = .next next) : OneOwner next.dev := by
  refine main_own h0 (fun e he => ?_) h
  repeat' first
    | with_reducible assumption
    | with_reducible apply atPage_own
    | with_reducible apply doLaneDisable_own
    | simp -implicitDefEqProofs only [OneOwner.lit, off_pLGRP, page_pLGRP, ge_pLGRP]
    | split
    | intro _
    | dsimp only
theorem execLaneTestRequest_own (g : Fin 16) (s : State) {next : State} (h0 : OneOwner s.dev) (h : execLaneTestRequest g s = .next next) : OneOwner next.dev := by
  refine main_own h0 (fun e he => ?_) h
  repeat' first
    | with_reducible assumption
    | with_reducible apply atPage_own
    | with_reducible apply doLaneTest_own
    | simp -implicitDefEqProofs only [OneOwner.lit, off_pLGRP, page_pLGRP, ge_pLGRP]
    | split
    | intro _
    | dsimp only
theorem execMarkerSend_own (g : Fin 16) (s : State) {next : State} (h0 : OneOwner s.dev) (h : execMarkerSend g s = .next next) : OneOwner next.dev := by
  refine main_own h0 (fun e he => ?_) h
  repeat' first
    | with_reducible assumption
    | with_reducible apply doMarkerSend_own
    | simp -implicitDefEqProofs only [OneOwner.lit]
    | split
    | intro _
    | dsimp only
theorem execMarker_own (g : Fin 16) (l : Fin 8) (bits : BitVec 320) (ui : Nat) (s : State) {next : State} (h0 : OneOwner s.dev) (h : execMarker g l bits ui s = .next next) : OneOwner next.dev := by
  refine main_own h0 (fun e he => ?_) h
  repeat' first
    | with_reducible assumption
    | with_reducible apply doMarker_own
    | simp -implicitDefEqProofs only [OneOwner.lit]
    | split
    | intro _
    | dsimp only
theorem execAcqTimeout_own (g : Fin 16) (s : State) {next : State} (h0 : OneOwner s.dev) (h : execAcqTimeout g s = .next next) : OneOwner next.dev := by
  refine main_own h0 (fun e he => ?_) h
  repeat' first
    | with_reducible assumption
    | with_reducible apply doAcqTimeout_own
    | simp -implicitDefEqProofs only [OneOwner.lit]
    | split
    | intro _
    | dsimp only
theorem execLaneLoss_own (g : Fin 16) (l : Fin 8) (s : State) {next : State} (h0 : OneOwner s.dev) (h : execLaneLoss g l s = .next next) : OneOwner next.dev := by
  refine main_own h0 (fun e he => ?_) h
  repeat' first
    | with_reducible assumption
    | with_reducible apply loseLane_own
    | simp -implicitDefEqProofs only [OneOwner.lit]
    | split
    | intro _
    | dsimp only
theorem execCodeword_own (g : Fin 16) (l : Fin 8) (data check : List (Fin 1024)) (s : State) {next : State} (h0 : OneOwner s.dev) (h : execCodeword g l data check s = .next next) : OneOwner next.dev := by
  refine main_own h0 (fun e he => ?_) h
  repeat' first
    | with_reducible assumption
    | with_reducible apply doCodeword_own
    | simp -implicitDefEqProofs only [OneOwner.lit]
    | split
    | intro _
    | dsimp only
theorem execSlotFrame_own (g : Fin 16) (k : Nat) (fields : SlotBits) (s : State) {next : State} (h0 : OneOwner s.dev) (h : execSlotFrame g k fields s = .next next) : OneOwner next.dev := by
  refine main_own h0 (fun e he => ?_) h
  repeat' first
    | with_reducible assumption
    | with_reducible apply doSlotFrame_own
    | simp -implicitDefEqProofs only [OneOwner.lit]
    | split
    | intro _
    | dsimp only
theorem execLinkFlit_own (g : Fin 16) (bits : BitVec 320) (bad : Bool) (s : State) {next : State} (h0 : OneOwner s.dev) (h : execLinkFlit g bits bad s = .next next) : OneOwner next.dev := by
  refine main_own h0 (fun e he => ?_) h
  repeat' first
    | with_reducible assumption
    | with_reducible apply doLinkFlit_own
    | simp -implicitDefEqProofs only [OneOwner.lit]
    | split
    | intro _
    | dsimp only
theorem execCredit_own (g : Fin 16) (vc : Fin 4) (count : Nat) (intact : Bool) (s : State) {next : State} (h0 : OneOwner s.dev) (h : execCredit g vc count intact s = .next next) : OneOwner next.dev := by
  refine main_own h0 (fun e he => ?_) h
  repeat' first
    | with_reducible assumption
    | with_reducible apply doCredit_own
    | simp -implicitDefEqProofs only [OneOwner.lit]
    | split
    | intro _
    | dsimp only
theorem execFreezeMsg_own (g : Fin 16) (origin : Fin 512) (n : Byte) (intact : Bool) (s : State) {next : State} (h0 : OneOwner s.dev) (h : execFreezeMsg g origin n intact s = .next next) : OneOwner next.dev := by
  refine main_own h0 (fun e he => ?_) h
  repeat' first
    | with_reducible assumption
    | with_reducible apply doFreezeMsg_own
    | simp -implicitDefEqProofs only [OneOwner.lit]
    | split
    | intro _
    | dsimp only
theorem execInjGo_own (g : Fin 16) (s : State) {next : State} (h0 : OneOwner s.dev) (h : execInjGo g s = .next next) : OneOwner next.dev := by
  refine main_own h0 (fun e he => ?_) h
  repeat' first
    | with_reducible assumption
    | with_reducible apply doInjGo_own
    | simp -implicitDefEqProofs only [OneOwner.lit]
    | split
    | intro _
    | dsimp only
theorem execLgrpClrCounts_own (g : Fin 16) (s : State) {next : State} (h0 : OneOwner s.dev) (h : execLgrpClrCounts g s = .next next) : OneOwner next.dev := by
  refine main_own h0 (fun e he => ?_) h
  repeat' first
    | with_reducible assumption
    | with_reducible apply doLgrpClr_own
    | simp -implicitDefEqProofs only [OneOwner.lit]
    | split
    | intro _
    | dsimp only
theorem execClrSlack_own (g : Fin 16) (s : State) {next : State} (h0 : OneOwner s.dev) (h : execClrSlack g s = .next next) : OneOwner next.dev := by
  refine main_own h0 (fun e he => ?_) h
  repeat' first
    | with_reducible assumption
    | with_reducible apply doClrSlack_own
    | simp -implicitDefEqProofs only [OneOwner.lit]
    | split
    | intro _
    | dsimp only
theorem execBridgeLaneEnable_own (g : Fin 16) (l : Fin 8) (tx rx : Bool) (s : State) {next : State} (h0 : OneOwner s.dev) (h : execBridgeLaneEnable g l tx rx s = .next next) : OneOwner next.dev := by
  refine main_own h0 (fun e he => ?_) h
  repeat' first
    | with_reducible assumption
    | with_reducible apply doBridgeEnable_own
    | simp -implicitDefEqProofs only [OneOwner.lit]
    | split
    | intro _
    | dsimp only
theorem execBridgeWordReceive_own (g : Fin 16) (l : Fin 8) (w : W64) (s : State) {next : State} (h0 : OneOwner s.dev) (h : execBridgeWordReceive g l w s = .next next) : OneOwner next.dev := by
  refine main_own h0 (fun e he => ?_) h
  repeat' first
    | with_reducible assumption
    | with_reducible apply doBridgeReceive_own
    | simp -implicitDefEqProofs only [OneOwner.lit]
    | split
    | intro _
    | dsimp only
theorem execBridgeWordTransmit_own (g : Fin 16) (l : Fin 8) (s : State) {next : State} (h0 : OneOwner s.dev) (h : execBridgeWordTransmit g l s = .next next) : OneOwner next.dev := by
  refine main_own h0 (fun e he => ?_) h
  repeat' first
    | with_reducible assumption
    | with_reducible apply doBridgeTransmit_own
    | simp -implicitDefEqProofs only [OneOwner.lit]
    | split
    | intro _
    | dsimp only
theorem execPrbsCheck_own (g : Fin 16) (l : Fin 8) (bits : List Bool) (s : State) {next : State} (h0 : OneOwner s.dev) (h : execPrbsCheck g l bits s = .next next) : OneOwner next.dev := by
  refine main_own h0 (fun e he => ?_) h
  repeat' first
    | with_reducible assumption
    | with_reducible apply doPrbsCheck_own
    | simp -implicitDefEqProofs only [OneOwner.lit]
    | split
    | intro _
    | dsimp only
theorem execLaneClockRecovered_own (g : Fin 16) (l : Fin 8) (s : State) {next : State} (h0 : OneOwner s.dev) (h : execLaneClockRecovered g l s = .next next) : OneOwner next.dev := by
  refine main_own h0 (fun e he => ?_) h
  repeat' first
    | with_reducible assumption
    | with_reducible apply doLaneRecovered_own
    | simp -implicitDefEqProofs only [OneOwner.lit]
    | split
    | intro _
    | dsimp only
theorem execPacketHop_own (x : Fin 8) (y : Fin 10) (ins : List (Fin 9 × Fin 4 × Flit)) (s : State) {next : State} (h0 : OneOwner s.dev) (h : execPacketHop x y ins s = .next next) : OneOwner next.dev := by
  refine main_own h0 (fun e he => ?_) h
  repeat' first
    | with_reducible assumption
    | with_reducible apply doPacketHop_own
    | simp -implicitDefEqProofs only [OneOwner.lit]
    | split
    | intro _
    | dsimp only
theorem execQwr_own (k : Packet) (s : State) {next : State} (h0 : OneOwner s.dev) (h : execQwr k s = .next next) : OneOwner next.dev := by
  refine main_own h0 (fun e he => ?_) h
  repeat' first
    | with_reducible assumption
    | with_reducible apply doQwr_own
    | with_reducible apply request_own
    | with_reducible apply serveQueue_own
    | simp -implicitDefEqProofs only [OneOwner.lit]
    | split
    | intro _
    | dsimp only
theorem execQrd_own (k : Packet) (s : State) {next : State} (h0 : OneOwner s.dev) (h : execQrd k s = .next next) : OneOwner next.dev := by
  refine main_own h0 (fun e he => ?_) h
  repeat' first
    | with_reducible assumption
    | with_reducible apply doQrd_own
    | with_reducible apply request_own
    | with_reducible apply serveQueue_own
    | simp -implicitDefEqProofs only [OneOwner.lit]
    | split
    | intro _
    | dsimp only
theorem execCapWr_own (k : Packet) (s : State) {next : State} (h0 : OneOwner s.dev) (h : execCapWr k s = .next next) : OneOwner next.dev := by
  refine main_own h0 (fun e he => ?_) h
  repeat' first
    | with_reducible assumption
    | with_reducible apply doCapWr_own
    | simp -implicitDefEqProofs only [OneOwner.lit]
    | split
    | intro _
    | dsimp only
theorem execTrcWr_own (k : Packet) (s : State) {next : State} (h0 : OneOwner s.dev) (h : execTrcWr k s = .next next) : OneOwner next.dev := by
  refine main_own h0 (fun e he => ?_) h
  repeat' first
    | with_reducible assumption
    | with_reducible apply doTrcWr_own
    | simp -implicitDefEqProofs only [OneOwner.lit]
    | split
    | intro _
    | dsimp only
theorem execRspData_own (k : Packet) (s : State) {next : State} (h0 : OneOwner s.dev) (h : execRspData k s = .next next) : OneOwner next.dev := by
  refine main_own h0 (fun e he => ?_) h
  repeat' first
    | with_reducible assumption
    | with_reducible apply doResponse_own
    | simp -implicitDefEqProofs only [OneOwner.lit]
    | split
    | intro _
    | dsimp only
theorem execRspAck_own (k : Packet) (s : State) {next : State} (h0 : OneOwner s.dev) (h : execRspAck k s = .next next) : OneOwner next.dev := by
  refine main_own h0 (fun e he => ?_) h
  repeat' first
    | with_reducible assumption
    | with_reducible apply doResponse_own
    | simp -implicitDefEqProofs only [OneOwner.lit]
    | split
    | intro _
    | dsimp only
theorem execRspTimeout_own (src : Fin 256) (tag : Fin 4096) (s : State) {next : State} (h0 : OneOwner s.dev) (h : execRspTimeout src tag s = .next next) : OneOwner next.dev := by
  refine main_own h0 (fun e he => ?_) h
  repeat' first
    | with_reducible assumption
    | with_reducible apply doRspTimeout_own
    | simp -implicitDefEqProofs only [OneOwner.lit]
    | split
    | intro _
    | dsimp only
theorem execTagQuarantineEnd_own (src : Fin 256) (tag : Fin 4096) (s : State) {next : State} (h0 : OneOwner s.dev) (h : execTagQuarantineEnd src tag s = .next next) : OneOwner next.dev := by
  refine main_own h0 (fun e he => ?_) h
  repeat' first
    | with_reducible assumption
    | with_reducible apply doQuarantineEnd_own
    | simp -implicitDefEqProofs only [OneOwner.lit]
    | split
    | intro _
    | dsimp only
theorem execRouteTableWrite_own (port idx : Fin 256) (entry : W64) (s : State) {next : State} (h0 : OneOwner s.dev) (h : execRouteTableWrite port idx entry s = .next next) : OneOwner next.dev := by
  refine main_own h0 (fun e he => ?_) h
  repeat' first
    | with_reducible assumption
    | with_reducible apply doRouteWrite_own
    | simp -implicitDefEqProofs only [OneOwner.lit]
    | split
    | intro _
    | dsimp only
theorem execDrain_own (n : Fin 64) (s : State) {next : State} (h0 : OneOwner s.dev) (h : execDrain n s = .next next) : OneOwner next.dev := by
  refine main_own h0 (fun e he => ?_) h
  repeat' first
    | with_reducible assumption
    | with_reducible apply drainNi_own
    | simp -implicitDefEqProofs only [OneOwner.lit]
    | split
    | intro _
    | dsimp only
theorem execDrainComplete_own (n : Fin 64) (s : State) {next : State} (h0 : OneOwner s.dev) (h : execDrainComplete n s = .next next) : OneOwner next.dev := by
  refine main_own h0 (fun e he => ?_) h
  repeat' first
    | with_reducible assumption
    | with_reducible apply doDrainComplete_own
    | simp -implicitDefEqProofs only [OneOwner.lit]
    | split
    | intro _
    | dsimp only
theorem execDrainTimeout_own (n : Fin 64) (s : State) {next : State} (h0 : OneOwner s.dev) (h : execDrainTimeout n s = .next next) : OneOwner next.dev := by
  refine main_own h0 (fun e he => ?_) h
  repeat' first
    | with_reducible assumption
    | with_reducible apply doDrainTimeout_own
    | simp -implicitDefEqProofs only [OneOwner.lit]
    | split
    | intro _
    | dsimp only
theorem execUnfence_own (n : Fin 64) (s : State) {next : State} (h0 : OneOwner s.dev) (h : execUnfence n s = .next next) : OneOwner next.dev := by
  refine main_own h0 (fun e he => ?_) h
  repeat' first
    | with_reducible assumption
    | with_reducible apply doUnfence_own
    | simp -implicitDefEqProofs only [OneOwner.lit]
    | split
    | intro _
    | dsimp only
theorem execNocClrCounts_own (s : State) {next : State} (h0 : OneOwner s.dev) (h : execNocClrCounts s = .next next) : OneOwner next.dev := by
  refine main_own h0 (fun e he => ?_) h
  repeat' first
    | with_reducible assumption
    | with_reducible apply doNocClr_own
    | simp -implicitDefEqProofs only [OneOwner.lit]
    | split
    | intro _
    | dsimp only
theorem execVauxUp_own (s : State) {next : State} (h0 : OneOwner s.dev) (h : execVauxUp s = .next next) : OneOwner next.dev := by
  refine fin_own h0 (fun e he => ?_) h
  repeat' first
    | with_reducible assumption
    | with_reducible apply powerOn_own
    | simp -implicitDefEqProofs only [OneOwner.lit]
    | split
    | intro _
    | dsimp only
theorem execVauxLoss_own (s : State) {next : State} (h0 : OneOwner s.dev) (h : execVauxLoss s = .next next) : OneOwner next.dev := by
  refine fin_own h0 (fun e he => ?_) h
  repeat' first
    | with_reducible assumption
    | with_reducible apply doVauxLoss_own
    | simp -implicitDefEqProofs only [OneOwner.lit]
    | split
    | intro _
    | dsimp only
theorem execVin48Up_own (s : State) {next : State} (h0 : OneOwner s.dev) (h : execVin48Up s = .next next) : OneOwner next.dev := by
  refine fin_own h0 (fun e he => ?_) h
  repeat' first
    | with_reducible assumption
    | with_reducible apply doVin48Up_own
    | simp -implicitDefEqProofs only [OneOwner.lit]
    | split
    | intro _
    | dsimp only
theorem execVin48Loss_own (s : State) {next : State} (h0 : OneOwner s.dev) (h : execVin48Loss s = .next next) : OneOwner next.dev := by
  refine fin_own h0 (fun e he => ?_) h
  repeat' first
    | with_reducible assumption
    | with_reducible apply doVin48Loss_own
    | simp -implicitDefEqProofs only [OneOwner.lit]
    | split
    | intro _
    | dsimp only
theorem execPerstAssert_own (s : State) {next : State} (h0 : OneOwner s.dev) (h : execPerstAssert s = .next next) : OneOwner next.dev := by
  refine fin_own h0 (fun e he => ?_) h
  repeat' first
    | with_reducible assumption
    | with_reducible apply doPerstAssert_own
    | simp -implicitDefEqProofs only [OneOwner.lit]
    | split
    | intro _
    | dsimp only
theorem execPerstDeassert_own (s : State) {next : State} (h0 : OneOwner s.dev) (h : execPerstDeassert s = .next next) : OneOwner next.dev := by
  refine fin_own h0 (fun e he => ?_) h
  repeat' first
    | with_reducible assumption
    | with_reducible apply doPerstDeassert_own
    | simp -implicitDefEqProofs only [OneOwner.lit]
    | split
    | intro _
    | dsimp only
theorem execStartup_own (refclk healthOk : Bool) (s : State) {next : State} (h0 : OneOwner s.dev) (h : execStartup refclk healthOk s = .next next) : OneOwner next.dev := by
  refine fin_own h0 (fun e he => ?_) h
  repeat' first
    | with_reducible assumption
    | with_reducible apply doStartup_own
    | simp -implicitDefEqProofs only [OneOwner.lit]
    | split
    | intro _
    | dsimp only
theorem execDevice_own (s : State) {next : State} (h0 : OneOwner s.dev) (h : execDevice s = .next next) : OneOwner next.dev := by
  refine main_own h0 (fun e he => ?_) h
  repeat' first
    | with_reducible assumption
    | with_reducible apply atPage_own
    | with_reducible apply doDevice_own
    | simp -implicitDefEqProofs only [OneOwner.lit, off_pRST, page_pRST, ge_pRST]
    | split
    | intro _
    | dsimp only
theorem execFlrPf_own (s : State) {next : State} (h0 : OneOwner s.dev) (h : execFlrPf s = .next next) : OneOwner next.dev := by
  refine config_own h0 (fun e he => ?_) h
  repeat' first
    | with_reducible assumption
    | with_reducible apply doFlrPf_own
    | simp -implicitDefEqProofs only [OneOwner.lit]
    | split
    | intro _
    | dsimp only
theorem execFlrVf_own (p : Fin 16) (s : State) {next : State} (h0 : OneOwner s.dev) (h : execFlrVf p s = .next next) : OneOwner next.dev := by
  refine config_own h0 (fun e he => ?_) h
  repeat' first
    | with_reducible assumption
    | with_reducible apply doFlrVf_own
    | with_reducible apply p_own
    | simp -implicitDefEqProofs only [OneOwner.lit]
    | split
    | intro _
    | dsimp only
theorem execFunctionResetComplete_own (fn : Fn) (s : State) {next : State} (h0 : OneOwner s.dev) (h : execFunctionResetComplete fn s = .next next) : OneOwner next.dev := by
  refine main_own h0 (fun e he => ?_) h
  repeat' first
    | with_reducible assumption
    | with_reducible apply doFnResetDone_own
    | simp -implicitDefEqProofs only [OneOwner.lit]
    | split
    | intro _
    | dsimp only
theorem execPtnReset_own (mask : BitVec 16) (s : State) {next : State} (h0 : OneOwner s.dev) (h : execPtnReset mask s = .next next) : OneOwner next.dev := by
  refine main_own h0 (fun e he => ?_) h
  repeat' first
    | with_reducible assumption
    | with_reducible apply atPage_own
    | with_reducible apply doPtnReset_own
    | simp -implicitDefEqProofs only [OneOwner.lit, off_pRST, page_pRST, ge_pRST]
    | split
    | intro _
    | dsimp only
theorem execPartitionResetComplete_own (p : Fin 16) (s : State) {next : State} (h0 : OneOwner s.dev) (h : execPartitionResetComplete p s = .next next) : OneOwner next.dev := by
  refine main_own h0 (fun e he => ?_) h
  repeat' first
    | with_reducible assumption
    | with_reducible apply p_own
    | with_reducible apply ptnResetDone_own
    | simp -implicitDefEqProofs only [OneOwner.lit]
    | split
    | intro _
    | dsimp only
theorem execVfEnableClear_own (s : State) {next : State} (h0 : OneOwner s.dev) (h : execVfEnableClear s = .next next) : OneOwner next.dev := by
  refine config_own h0 (fun e he => ?_) h
  repeat' first
    | with_reducible assumption
    | with_reducible apply doVfClear_own
    | simp -implicitDefEqProofs only [OneOwner.lit]
    | split
    | intro _
    | dsimp only
theorem execVfEnableSet_own (num : Fin 17) (s : State) {next : State} (h0 : OneOwner s.dev) (h : execVfEnableSet num s = .next next) : OneOwner next.dev := by
  refine config_own h0 (fun e he => ?_) h
  repeat' first
    | with_reducible assumption
    | with_reducible apply doVfSet_own
    | simp -implicitDefEqProofs only [OneOwner.lit]
    | split
    | intro _
    | dsimp only
theorem execClusterWake_own (ns : List (Fin 64)) (s : State) {next : State} (h0 : OneOwner s.dev) (h : execClusterWake ns s = .next next) : OneOwner next.dev := by
  refine main_own h0 (fun e he => ?_) h
  repeat' first
    | with_reducible assumption
    | with_reducible apply doClusterWake_own
    | simp -implicitDefEqProofs only [OneOwner.lit]
    | split
    | intro _
    | dsimp only
theorem execClusterIdleDelay_own (p : Fin 16) (s : State) {next : State} (h0 : OneOwner s.dev) (h : execClusterIdleDelay p s = .next next) : OneOwner next.dev := by
  refine main_own h0 (fun e he => ?_) h
  repeat' first
    | with_reducible assumption
    | with_reducible apply doIdleDelay_own
    | with_reducible apply p_own
    | simp -implicitDefEqProofs only [OneOwner.lit]
    | split
    | intro _
    | dsimp only
theorem execClusterOffDelay_own (n : Fin 64) (s : State) {next : State} (h0 : OneOwner s.dev) (h : execClusterOffDelay n s = .next next) : OneOwner next.dev := by
  refine main_own h0 (fun e he => ?_) h
  repeat' first
    | with_reducible assumption
    | with_reducible apply doOffDelay_own
    | simp -implicitDefEqProofs only [OneOwner.lit]
    | split
    | intro _
    | dsimp only
theorem execClusterPowerOn_own (n : Fin 64) (s : State) {next : State} (h0 : OneOwner s.dev) (h : execClusterPowerOn n s = .next next) : OneOwner next.dev := by
  refine main_own h0 (fun e he => ?_) h
  repeat' first
    | with_reducible assumption
    | with_reducible apply doPowerOnCluster_own
    | simp -implicitDefEqProofs only [OneOwner.lit]
    | split
    | intro _
    | dsimp only
theorem execCorePllLockLost_own (s : State) {next : State} (h0 : OneOwner s.dev) (h : execCorePllLockLost s = .next next) : OneOwner next.dev := by
  refine main_own h0 (fun e he => ?_) h
  repeat' first
    | with_reducible assumption
    | with_reducible apply doPllLost_own
    | simp -implicitDefEqProofs only [OneOwner.lit]
    | split
    | intro _
    | dsimp only
theorem execWakeSource_own (src : Fin 10) (s : State) {next : State} (h0 : OneOwner s.dev) (h : execWakeSource src s = .next next) : OneOwner next.dev := by
  refine fin_own h0 (fun e he => ?_) h
  repeat' first
    | with_reducible assumption
    | with_reducible apply doWake_own
    | simp -implicitDefEqProofs only [OneOwner.lit]
    | split
    | intro _
    | dsimp only
theorem execHeartbeat_own (v : W32) (s : State) {next : State} (h0 : OneOwner s.dev) (h : execHeartbeat v s = .next next) : OneOwner next.dev := by
  refine main_own h0 (fun e he => ?_) h
  repeat' first
    | with_reducible assumption
    | with_reducible apply doHeartbeat_own
    | simp -implicitDefEqProofs only [OneOwner.lit]
    | split
    | intro _
    | dsimp only
theorem execHeartbeatTimeout_own (s : State) {next : State} (h0 : OneOwner s.dev) (h : execHeartbeatTimeout s = .next next) : OneOwner next.dev := by
  refine main_own h0 (fun e he => ?_) h
  repeat' first
    | with_reducible assumption
    | with_reducible apply doHeartbeatTimeout_own
    | simp -implicitDefEqProofs only [OneOwner.lit]
    | split
    | intro _
    | dsimp only
theorem execGraceTimeout_own (s : State) {next : State} (h0 : OneOwner s.dev) (h : execGraceTimeout s = .next next) : OneOwner next.dev := by
  refine main_own h0 (fun e he => ?_) h
  repeat' first
    | with_reducible assumption
    | with_reducible apply doGraceTimeout_own
    | simp -implicitDefEqProofs only [OneOwner.lit]
    | split
    | intro _
    | dsimp only
theorem execOverTemperature_own (q : Fin 5) (celsius : Byte) (s : State) {next : State} (h0 : OneOwner s.dev) (h : execOverTemperature q celsius s = .next next) : OneOwner next.dev := by
  refine main_own h0 (fun e he => ?_) h
  repeat' first
    | with_reducible assumption
    | with_reducible apply doTemperature_own
    | simp -implicitDefEqProofs only [OneOwner.lit]
    | split
    | intro _
    | dsimp only
theorem execRailFault_own (s : State) {next : State} (h0 : OneOwner s.dev) (h : execRailFault s = .next next) : OneOwner next.dev := by
  refine main_own h0 (fun e he => ?_) h
  repeat' first
    | with_reducible assumption
    | with_reducible apply controlledStop_own
    | simp -implicitDefEqProofs only [OneOwner.lit]
    | split
    | intro _
    | dsimp only
theorem execWardenStop_own (s : State) {next : State} (h0 : OneOwner s.dev) (h : execWardenStop s = .next next) : OneOwner next.dev := by
  refine main_own h0 (fun e he => ?_) h
  repeat' first
    | with_reducible assumption
    | with_reducible apply atPage_own
    | with_reducible apply controlledStop_own
    | simp -implicitDefEqProofs only [OneOwner.lit, off_pWDN, page_pWDN, ge_pWDN]
    | split
    | intro _
    | dsimp only
theorem execStopDrainTimeout_own (s : State) {next : State} (h0 : OneOwner s.dev) (h : execStopDrainTimeout s = .next next) : OneOwner next.dev := by
  refine main_own h0 (fun e he => ?_) h
  repeat' first
    | with_reducible assumption
    | with_reducible apply doStopDrain_own
    | simp -implicitDefEqProofs only [OneOwner.lit]
    | split
    | intro _
    | dsimp only
theorem execStopComplete_own (s : State) {next : State} (h0 : OneOwner s.dev) (h : execStopComplete s = .next next) : OneOwner next.dev := by
  refine main_own h0 (fun e he => ?_) h
  repeat' first
    | with_reducible assumption
    | with_reducible apply doStopComplete_own
    | simp -implicitDefEqProofs only [OneOwner.lit]
    | split
    | intro _
    | dsimp only
theorem execStringJoin_own (s : State) {next : State} (h0 : OneOwner s.dev) (h : execStringJoin s = .next next) : OneOwner next.dev := by
  refine main_own h0 (fun e he => ?_) h
  repeat' first
    | with_reducible assumption
    | with_reducible apply atPage_own
    | with_reducible apply doStringJoin_own
    | simp -implicitDefEqProofs only [OneOwner.lit, off_pSTR, page_pSTR, ge_pSTR]
    | split
    | intro _
    | dsimp only
theorem execStringOpen_own (s : State) {next : State} (h0 : OneOwner s.dev) (h : execStringOpen s = .next next) : OneOwner next.dev := by
  refine main_own h0 (fun e he => ?_) h
  repeat' first
    | with_reducible assumption
    | with_reducible apply doStringOpen_own
    | simp -implicitDefEqProofs only [OneOwner.lit]
    | split
    | intro _
    | dsimp only
theorem execStringLeave_own (s : State) {next : State} (h0 : OneOwner s.dev) (h : execStringLeave s = .next next) : OneOwner next.dev := by
  refine main_own h0 (fun e he => ?_) h
  repeat' first
    | with_reducible assumption
    | with_reducible apply atPage_own
    | with_reducible apply doStringLeave_own
    | simp -implicitDefEqProofs only [OneOwner.lit, off_pSTR, page_pSTR, ge_pSTR]
    | split
    | intro _
    | dsimp only
theorem execStringBroken_own (s : State) {next : State} (h0 : OneOwner s.dev) (h : execStringBroken s = .next next) : OneOwner next.dev := by
  refine main_own h0 (fun e he => ?_) h
  repeat' first
    | with_reducible assumption
    | with_reducible apply doStringBroken_own
    | simp -implicitDefEqProofs only [OneOwner.lit]
    | split
    | intro _
    | dsimp only
theorem execDiscover_own (s : State) {next : State} (h0 : OneOwner s.dev) (h : execDiscover s = .next next) : OneOwner next.dev := by
  refine main_own h0 (fun e he => ?_) h
  repeat' first
    | with_reducible assumption
    | with_reducible apply atPage_own
    | with_reducible apply doDiscover_own
    | simp -implicitDefEqProofs only [OneOwner.lit, off_pSTR, page_pSTR, ge_pSTR]
    | split
    | intro _
    | dsimp only
theorem execCollect_own (src : Fin 512) (ttl : Nat) (map : BitVec 512) (mark : RingMark) (s : State) {next : State} (h0 : OneOwner s.dev) (h : execCollect src ttl map mark s = .next next) : OneOwner next.dev := by
  refine main_own h0 (fun e he => ?_) h
  repeat' first
    | with_reducible assumption
    | with_reducible apply doCollect_own
    | simp -implicitDefEqProofs only [OneOwner.lit]
    | split
    | intro _
    | dsimp only
theorem execAssign_own (src : Fin 512) (ttl : Nat) (map : BitVec 512) (mark : RingMark) (s : State) {next : State} (h0 : OneOwner s.dev) (h : execAssign src ttl map mark s = .next next) : OneOwner next.dev := by
  refine main_own h0 (fun e he => ?_) h
  repeat' first
    | with_reducible assumption
    | with_reducible apply doAssign_own
    | simp -implicitDefEqProofs only [OneOwner.lit]
    | split
    | intro _
    | dsimp only
theorem execStringBeacon_own (src : Fin 512) (ttl : Nat) (ns : W64) (frac : BitVec 16) (mark : RingMark) (s : State) {next : State} (h0 : OneOwner s.dev) (h : execStringBeacon src ttl ns frac mark s = .next next) : OneOwner next.dev := by
  refine main_own h0 (fun e he => ?_) h
  repeat' first
    | with_reducible assumption
    | with_reducible apply doStringBeacon_own
    | simp -implicitDefEqProofs only [OneOwner.lit]
    | split
    | intro _
    | dsimp only
theorem execStringFreeze_own (src : Fin 512) (n : Byte) (ttl : Nat) (tail : FreezeTail) (s : State) {next : State} (h0 : OneOwner s.dev) (h : execStringFreeze src n ttl tail s = .next next) : OneOwner next.dev := by
  refine main_own h0 (fun e he => ?_) h
  repeat' first
    | with_reducible assumption
    | with_reducible apply doStringFreeze_own
    | simp -implicitDefEqProofs only [OneOwner.lit]
    | split
    | intro _
    | dsimp only
theorem execStringStrobe_own (src : Fin 512) (n : Byte) (ttl : Nat) (crc : W32) (s : State) {next : State} (h0 : OneOwner s.dev) (h : execStringStrobe src n ttl crc s = .next next) : OneOwner next.dev := by
  refine main_own h0 (fun e he => ?_) h
  repeat' first
    | with_reducible assumption
    | with_reducible apply doStringStrobe_own
    | simp -implicitDefEqProofs only [OneOwner.lit]
    | split
    | intro _
    | dsimp only
theorem execResetReq_own (src : Fin 512) (n : Byte) (dest : Fin 512) (ttl : Nat) (crc : W32) (s : State) {next : State} (h0 : OneOwner s.dev) (h : execResetReq src n dest ttl crc s = .next next) : OneOwner next.dev := by
  refine main_own h0 (fun e he => ?_) h
  repeat' first
    | with_reducible assumption
    | with_reducible apply doResetReq_own
    | simp -implicitDefEqProofs only [OneOwner.lit]
    | split
    | intro _
    | dsimp only
theorem execMsg_own (src dest : Fin 512) (ttl : Nat) (cfg : List (Fin 16 × W32)) (mark : RingMark) (s : State) {next : State} (h0 : OneOwner s.dev) (h : execMsg src dest ttl cfg mark s = .next next) : OneOwner next.dev := by
  refine main_own h0 (fun e he => ?_) h
  repeat' first
    | with_reducible assumption
    | with_reducible apply doMsg_own
    | simp -implicitDefEqProofs only [OneOwner.lit]
    | split
    | intro _
    | dsimp only
theorem execResetReqSend_own (s : State) {next : State} (h0 : OneOwner s.dev) (h : execResetReqSend s = .next next) : OneOwner next.dev := by
  refine main_own h0 (fun e he => ?_) h
  repeat' first
    | with_reducible assumption
    | with_reducible apply atPage_own
    | with_reducible apply doResetReqSend_own
    | simp -implicitDefEqProofs only [OneOwner.lit, off_pSTR, page_pSTR, ge_pSTR]
    | split
    | intro _
    | dsimp only
theorem execStringFrameRepeat_own (s : State) {next : State} (h0 : OneOwner s.dev) (h : execStringFrameRepeat s = .next next) : OneOwner next.dev := by
  refine main_own h0 (fun e he => ?_) h
  repeat' first
    | with_reducible assumption
    | with_reducible apply doRepeat_own
    | simp -implicitDefEqProofs only [OneOwner.lit]
    | split
    | intro _
    | dsimp only
theorem execStringBeaconSend_own (s : State) {next : State} (h0 : OneOwner s.dev) (h : execStringBeaconSend s = .next next) : OneOwner next.dev := by
  refine main_own h0 (fun e he => ?_) h
  repeat' first
    | with_reducible assumption
    | with_reducible apply doStringBeaconSend_own
    | simp -implicitDefEqProofs only [OneOwner.lit]
    | split
    | intro _
    | dsimp only
theorem execRegisterWrite_own (fn : Fn) (off v : Nat) (wide : Bool) (s : State) {next : State} (h0 : OneOwner s.dev) (h : execRegisterWrite fn off v wide s = .next next) : OneOwner next.dev := by
  refine main_own h0 (fun e he => ?_) h
  repeat' first
    | with_reducible assumption
    | with_reducible apply doRegisterWrite_own
    | simp -implicitDefEqProofs only [OneOwner.lit]
    | split
    | intro _
    | dsimp only
theorem execPairLowRead_own (fn : Fn) (place : ReadAt) (s : State) {next : State} (h0 : OneOwner s.dev) (h : execPairLowRead fn place s = .next next) : OneOwner next.dev := by
  refine main_own h0 (fun e he => ?_) h
  repeat' first
    | with_reducible assumption
    | with_reducible apply doRead32_own
    | with_reducible apply doRead64_own
    | simp -implicitDefEqProofs only [OneOwner.lit]
    | split
    | intro _
    | dsimp only
theorem execPairLowWrite_own (fn : Fn) (off v : Nat) (s : State) {next : State} (h0 : OneOwner s.dev) (h : execPairLowWrite fn off v s = .next next) : OneOwner next.dev := by
  refine main_own h0 (fun e he => ?_) h
  repeat' first
    | with_reducible assumption
    | with_reducible apply doRegisterWrite_own
    | simp -implicitDefEqProofs only [OneOwner.lit]
    | split
    | intro _
    | dsimp only
theorem execPairHighWrite_own (fn : Fn) (off v : Nat) (s : State) {next : State} (h0 : OneOwner s.dev) (h : execPairHighWrite fn off v s = .next next) : OneOwner next.dev := by
  refine main_own h0 (fun e he => ?_) h
  repeat' first
    | with_reducible assumption
    | with_reducible apply doRegisterWrite_own
    | simp -implicitDefEqProofs only [OneOwner.lit]
    | split
    | intro _
    | dsimp only
theorem execMisalignedAccess_own (fn : Fn) (off size : Nat) (write : Bool) (s : State) {next : State} (h0 : OneOwner s.dev) (h : execMisalignedAccess fn off size write s = .next next) : OneOwner next.dev := by
  refine main_own h0 (fun e he => ?_) h
  repeat' first
    | with_reducible assumption
    | with_reducible apply doMisaligned_own
    | simp -implicitDefEqProofs only [OneOwner.lit]
    | split
    | intro _
    | dsimp only
theorem execFenceRead_own (fn : Fn) (off : Nat) (s : State) {next : State} (h0 : OneOwner s.dev) (h : execFenceRead fn off s = .next next) : OneOwner next.dev := by
  refine main_own h0 (fun e he => ?_) h
  repeat' first
    | with_reducible assumption
    | with_reducible apply doFenceRead_own
    | simp -implicitDefEqProofs only [OneOwner.lit]
    | split
    | intro _
    | dsimp only
theorem execRd_own (k : Packet) (s : State) {next : State} (h0 : OneOwner s.dev) (h : execRd k s = .next next) : OneOwner next.dev := by
  refine main_own h0 (fun e he => ?_) h
  repeat' first
    | with_reducible assumption
    | with_reducible apply request_own
    | with_reducible apply serveAccess_own
    | simp -implicitDefEqProofs only [OneOwner.lit]
    | split
    | intro _
    | dsimp only
theorem execWr_own (k : Packet) (s : State) {next : State} (h0 : OneOwner s.dev) (h : execWr k s = .next next) : OneOwner next.dev := by
  refine main_own h0 (fun e he => ?_) h
  repeat' first
    | with_reducible assumption
    | with_reducible apply request_own
    | with_reducible apply serveAccess_own
    | simp -implicitDefEqProofs only [OneOwner.lit]
    | split
    | intro _
    | dsimp only
theorem execStrobeLatch_own (s : State) {next : State} (h0 : OneOwner s.dev) (h : execStrobeLatch s = .next next) : OneOwner next.dev := by
  refine main_own h0 (fun e he => ?_) h
  repeat' first
    | with_reducible assumption
    | with_reducible apply doStrobeLatch_own
    | simp -implicitDefEqProofs only [OneOwner.lit]
    | split
    | intro _
    | dsimp only
theorem execBar2Read_own (fn : Fn) (off len : Nat) (s : State) {next : State} (h0 : OneOwner s.dev) (h : execBar2Read fn off len s = .next next) : OneOwner next.dev := by
  refine main_own h0 (fun e he => ?_) h
  repeat' first
    | with_reducible assumption
    | with_reducible apply doBar2Read_own
    | simp -implicitDefEqProofs only [OneOwner.lit]
    | split
    | intro _
    | dsimp only
theorem execBar2Write_own (fn : Fn) (off : Nat) (bytes : List Byte) (s : State) {next : State} (h0 : OneOwner s.dev) (h : execBar2Write fn off bytes s = .next next) : OneOwner next.dev := by
  refine main_own h0 (fun e he => ?_) h
  repeat' first
    | with_reducible assumption
    | with_reducible apply doBar2Write_own
    | simp -implicitDefEqProofs only [OneOwner.lit]
    | split
    | intro _
    | dsimp only
theorem execCaptureWindowRead_own (p : Fin 16) (off len : Nat) (s : State) {next : State} (h0 : OneOwner s.dev) (h : execCaptureWindowRead p off len s = .next next) : OneOwner next.dev := by
  refine main_own h0 (fun e he => ?_) h
  repeat' first
    | with_reducible assumption
    | with_reducible apply doCaptureRead_own
    | with_reducible apply p_own
    | simp -implicitDefEqProofs only [OneOwner.lit]
    | split
    | intro _
    | dsimp only
theorem execIrqStatClear_own (base : Nat) (v : W32) (s : State) {next : State} (h0 : OneOwner s.dev) (h : execIrqStatClear base v s = .next next) : OneOwner next.dev := by
  refine main_own h0 (fun e he => ?_) h
  repeat' first
    | with_reducible assumption
    | with_reducible apply atPlace_own
    | with_reducible apply write32_own
    | simp -implicitDefEqProofs only [OneOwner.lit]
    | split
    | intro _
    | dsimp only
theorem execIrqForce_own (base : Nat) (v : W32) (s : State) {next : State} (h0 : OneOwner s.dev) (h : execIrqForce base v s = .next next) : OneOwner next.dev := by
  refine main_own h0 (fun e he => ?_) h
  repeat' first
    | with_reducible assumption
    | with_reducible apply atPlace_own
    | with_reducible apply write32_own
    | simp -implicitDefEqProofs only [OneOwner.lit]
    | split
    | intro _
    | dsimp only
theorem execMsixUnmask_own (fn : Fn) (v : Fin 32) (s : State) {next : State} (h0 : OneOwner s.dev) (h : execMsixUnmask fn v s = .next next) : OneOwner next.dev := by
  refine main_own h0 (fun e he => ?_) h
  repeat' first
    | with_reducible assumption
    | with_reducible apply doUnmask_own
    | simp -implicitDefEqProofs only [OneOwner.lit, off_pMSIX, page_pMSIX, ge_pMSIX]
    | split
    | intro _
    | dsimp only
theorem execMbistGo_own (n : Fin 64) (s : State) {next : State} (h0 : OneOwner s.dev) (h : execMbistGo n s = .next next) : OneOwner next.dev := by
  refine main_own h0 (fun e he => ?_) h
  repeat' first
    | with_reducible assumption
    | with_reducible apply atPage_own
    | with_reducible apply doMbistGo_own
    | simp -implicitDefEqProofs only [OneOwner.lit, off_pMNT, page_pMNT, ge_pMNT]
    | split
    | intro _
    | dsimp only
theorem execMbistComplete_own (n : Fin 64) (failed : Option (BitVec 64)) (s : State) {next : State} (h0 : OneOwner s.dev) (h : execMbistComplete n failed s = .next next) : OneOwner next.dev := by
  refine main_own h0 (fun e he => ?_) h
  repeat' first
    | with_reducible assumption
    | with_reducible apply doMbistComplete_own
    | with_reducible apply failed_own
    | simp -implicitDefEqProofs only [OneOwner.lit]
    | split
    | intro _
    | dsimp only
theorem execMntRelease_own (code : Fin 8) (owner : Fin 17) (inst : Fin 64) (s : State) {next : State} (h0 : OneOwner s.dev) (h : execMntRelease code owner inst s = .next next) : OneOwner next.dev := by
  refine main_own h0 (fun e he => ?_) h
  repeat' first
    | with_reducible assumption
    | with_reducible apply doRelease_own
    | simp -implicitDefEqProofs only [OneOwner.lit]
    | split
    | intro _
    | dsimp only
theorem execBoundaryScanExtest_own (on : Bool) (s : State) {next : State} (h0 : OneOwner s.dev) (h : execBoundaryScanExtest on s = .next next) : OneOwner next.dev := by
  refine fin_own h0 (fun e he => ?_) h
  repeat' first
    | with_reducible assumption
    | with_reducible apply on_own
    | simp -implicitDefEqProofs only [OneOwner.lit]
    | split
    | intro _
    | dsimp only
end Sys2Proof.Machine
end

