-- ==== Sys2Proof/Laws/KeepPower1.lean ====
section
/-! SUPPORT. The power state is left as it was by the shared operations, registers, queues, HBM, capture, trace and triggers: one lemma for each function. -/

set_option linter.all false

namespace Sys2Proof.Machine.Dev

set_option Elab.async false

/-- The power state of `a` is that of `b`, as a premise that is compared by its name. -/
def Kept (a b : Dev) : Prop := a.pwr = b.pwr
theorem Kept.of {a b : Dev} (h : a.pwr = b.pwr) : Kept a b := h
theorem Kept.same {a b : Dev} (h : Kept a b) : Kept a b := h
theorem Kept.eq {a b : Dev} (h : Kept a b) : a.pwr = b.pwr := h
theorem foldl_pwr {α : Type} {f : Dev → α → Dev} (h : ∀ e a, Kept (f e a) e) (xs : List α) (d : Dev) : (xs.foldl f d).pwr = d.pwr :=
  each_proj (·.pwr) f (fun e a => (h e a).eq) xs d
theorem each_pwr {α : Type} (d : Dev) (xs : List α) (f : Dev → α → Dev) (h : ∀ e a, Kept (f e a) e) : (d.each xs f).pwr = d.pwr :=
  foldl_pwr h xs d
theorem iff_pwr (d : Dev) (c : Bool) (f : Dev → Dev) (h : ∀ e, Kept (f e) e) : (d.iff c f).pwr = d.pwr := by
  unfold iff; split
  · exact (h d).eq
  · rfl
theorem fst_pwr {α β : Type} {f : Dev × β → α → Dev × β} (h : ∀ r a, Kept (f r a).1 r.1) (xs : List α) (r : Dev × β) :
    (xs.foldl f r).1.pwr = r.1.pwr := by
  induction xs generalizing r with
  | nil => rfl
  | cons x xs ih => exact (ih _).trans (h r x).eq

theorem on_pwr (d : Dev) (base : Nat) (f : Fld) : (on d base f).pwr = d.pwr := by
  unfold on
  repeat' first
    | with_reducible rfl
    | simp -implicitDefEqProofs only [p_pwr]
    | split
    | dsimp only
theorem clr_pwr (d : Dev) (base : Nat) (f : Fld) : (clr d base f).pwr = d.pwr := by
  unfold clr
  repeat' first
    | with_reducible rfl
    | simp -implicitDefEqProofs only [p_pwr]
    | split
    | dsimp only
theorem add_pwr (d : Dev) (base : Nat) (f : Fld) (n : Nat) : (add d base f n).pwr = d.pwr := by
  unfold add
  repeat' first
    | with_reducible rfl
    | simp -implicitDefEqProofs only [p_pwr]
    | split
    | dsimp only
theorem modPtn_pwr (d : Dev) (i : Nat) (f : Ptn → Ptn) : (modPtn d i f).pwr = d.pwr := by
  unfold modPtn
  repeat' first
    | with_reducible rfl
    | simp -implicitDefEqProofs only [setPtn_pwr]
    | split
    | dsimp only
theorem modClu_pwr (d : Dev) (n : Nat) (f : Clu → Clu) : (modClu d n f).pwr = d.pwr := by
  unfold modClu
  repeat' first
    | with_reducible rfl
    | simp -implicitDefEqProofs only [setClu_pwr]
    | split
    | dsimp only
theorem modQueue_pwr (d : Dev) (q : Nat) (f : Queue → Queue) : (modQueue d q f).pwr = d.pwr := by
  unfold modQueue
  repeat' first
    | with_reducible rfl
    | simp -implicitDefEqProofs only [setQueue_pwr]
    | split
    | dsimp only
theorem modLink_pwr (d : Dev) (i : Nat) (f : Link → Link) : (modLink d i f).pwr = d.pwr := by
  unfold modLink
  repeat' first
    | with_reducible rfl
    | simp -implicitDefEqProofs only [setLink_pwr]
    | split
    | dsimp only
theorem modChan_pwr (d : Dev) (i : Nat) (f : Chan → Chan) : (modChan d i f).pwr = d.pwr := by
  unfold modChan
  repeat' first
    | with_reducible rfl
    | simp -implicitDefEqProofs only [setChan_pwr]
    | split
    | dsimp only
theorem modStrm_pwr (d : Dev) (i : Nat) (f : Strm → Strm) : (modStrm d i f).pwr = d.pwr := by
  unfold modStrm
  repeat' first
    | with_reducible rfl
    | simp -implicitDefEqProofs only [setStrm_pwr]
    | split
    | dsimp only
theorem setPower_pwr (d : Dev) (n st : Nat) : (setPower d n st).pwr = d.pwr := by
  unfold setPower
  repeat' first
    | with_reducible rfl
    | simp -implicitDefEqProofs only [p_pwr, apply_ite Dev.pwr, apply_ite Prod.fst, ite_self, id_eq]
    | split
    | dsimp only
theorem wake_pwr (d : Dev) (n : Nat) : (wake d n).pwr = d.pwr := by
  unfold wake
  repeat' first
    | with_reducible rfl
    | simp -implicitDefEqProofs only [setPower_pwr, apply_ite Dev.pwr, apply_ite Prod.fst, ite_self, id_eq]
    | split
    | dsimp only
theorem wakeAll_pwr (d : Dev) (i : Nat) : (wakeAll d i).pwr = d.pwr := by
  unfold wakeAll
  repeat' first
    | with_reducible rfl
    | intro _
    | exact True.intro
    | (with_reducible refine Kept.same ?_; (try dsimp only); with_reducible refine Kept.of ?_)
    | simp -implicitDefEqProofs only [wake_pwr]
    | rw [each_pwr]
    | split
    | dsimp only
theorem atPtn_pwr (d : Dev) (i : Nat) (k : Dev → Dev) (h : ∀ e, Kept (k e) e) : (d.atPtn i k).pwr = d.pwr := by
  unfold atPtn; split
  · exact (h d).eq
  · rfl
theorem complete_pwr (d : Dev) (fn : Fn) (a v : Nat) : (complete d fn a v).pwr = d.pwr := by
  unfold complete
  repeat' first
    | with_reducible rfl
    | simp -implicitDefEqProofs only [emit_pwr, apply_ite Dev.pwr, apply_ite Prod.fst, ite_self, id_eq]
    | split
    | dsimp only
theorem completeHeld_pwr (d : Dev) (fn : Fn) (l v : Nat) : (completeHeld d fn l v).pwr = d.pwr := by
  unfold completeHeld
  repeat' first
    | with_reducible rfl
    | intro _
    | exact True.intro
    | (with_reducible refine Kept.same ?_; (try dsimp only); with_reducible refine Kept.of ?_)
    | simp -implicitDefEqProofs only [emit_pwr, apply_ite Dev.pwr, apply_ite Prod.fst, ite_self, id_eq]
    | rw [each_pwr]
    | split
    | dsimp only
theorem sendVec_pwr (d : Dev) (fn : Fn) (v : Nat) : (sendVec d fn v).pwr = d.pwr := by
  unfold sendVec
  repeat' first
    | with_reducible rfl
    | simp -implicitDefEqProofs only [emit_pwr, on_pwr, apply_ite Dev.pwr, apply_ite Prod.fst, ite_self, id_eq]
    | split
    | dsimp only
theorem notifyIrq_pwr (d : Dev) (base : Nat) : (notifyIrq d base).pwr = d.pwr := by
  unfold notifyIrq
  repeat' first
    | with_reducible rfl
    | simp -implicitDefEqProofs only [sendVec_pwr, apply_ite Dev.pwr, apply_ite Prod.fst, ite_self, id_eq]
    | split
    | dsimp only
theorem irq_pwr (d : Dev) (base i : Nat) : (irq d base i).pwr = d.pwr := by
  unfold irq
  repeat' first
    | with_reducible rfl
    | simp -implicitDefEqProofs only [notifyIrq_pwr, p_pwr, apply_ite Dev.pwr, apply_ite Prod.fst, ite_self, id_eq]
    | split
    | dsimp only
theorem setIrqEn_pwr (d : Dev) (base v : Nat) : (setIrqEn d base v).pwr = d.pwr := by
  unfold setIrqEn
  repeat' first
    | with_reducible rfl
    | simp -implicitDefEqProofs only [notifyIrq_pwr, p_pwr, apply_ite Dev.pwr, apply_ite Prod.fst, ite_self, id_eq]
    | split
    | dsimp only
theorem accessError_pwr (d : Dev) (fn : Fn) (bar off : Nat) (write : Bool) : (accessError d fn bar off write).pwr = d.pwr := by
  unfold accessError
  repeat' first
    | with_reducible rfl
    | simp -implicitDefEqProofs only [raise_pwr, apply_ite Dev.pwr, apply_ite Prod.fst, ite_self, id_eq]
    | split
    | dsimp only
theorem innerError_pwr (d : Dev) (src part : Nat) (devlvl : Bool) (status : Nat) (write : Bool) (addr : Nat) : (innerError d src part devlvl status write addr).pwr = d.pwr := by
  unfold innerError
  repeat' first
    | with_reducible rfl
    | simp -implicitDefEqProofs only [raise_pwr, apply_ite Dev.pwr, apply_ite Prod.fst, ite_self, id_eq]
    | split
    | dsimp only
theorem sample_pwr (d : Dev) (k x : Nat) : (sample d k x).pwr = d.pwr := by
  unfold sample
  repeat' first
    | with_reducible rfl
    | simp -implicitDefEqProofs only [add_pwr, apply_ite Dev.pwr, apply_ite Prod.fst, ite_self, id_eq]
    | split
    | dsimp only
theorem offer_pwr (d : Dev) (kind : Nat) (src : Nat → Bool) (x : Nat) : (offer d kind src x).pwr = d.pwr := by
  unfold offer
  repeat' first
    | with_reducible rfl
    | intro _
    | exact True.intro
    | (with_reducible refine Kept.same ?_; (try dsimp only); with_reducible refine Kept.of ?_)
    | simp -implicitDefEqProofs only [sample_pwr, apply_ite Dev.pwr, apply_ite Prod.fst, ite_self, id_eq]
    | rw [each_pwr]
    | split
    | dsimp only
theorem offerBp_pwr (d : Dev) (n t b s : Nat) (v : Bool) : (offerBp d n t b s v).pwr = d.pwr := by
  unfold offerBp
  repeat' first
    | with_reducible rfl
    | simp -implicitDefEqProofs only [offer_pwr]
    | split
    | dsimp only
theorem offerWalu_pwr (d : Dev) (n t w s v : Nat) : (offerWalu d n t w s v).pwr = d.pwr := by
  unfold offerWalu
  repeat' first
    | with_reducible rfl
    | simp -implicitDefEqProofs only [offer_pwr]
    | split
    | dsimp only
theorem offerLane_pwr (d : Dev) (lane v : Nat) : (offerLane d lane v).pwr = d.pwr := by
  unfold offerLane
  repeat' first
    | with_reducible rfl
    | simp -implicitDefEqProofs only [offer_pwr]
    | split
    | dsimp only
theorem offerQueue_pwr (d : Dev) (q ev v : Nat) : (offerQueue d q ev v).pwr = d.pwr := by
  unfold offerQueue
  repeat' first
    | with_reducible rfl
    | simp -implicitDefEqProofs only [offer_pwr]
    | split
    | dsimp only
theorem noRoute_pwr (d : Dev) : (noRoute d).pwr = d.pwr := by
  unfold noRoute
  repeat' first
    | with_reducible rfl
    | simp -implicitDefEqProofs only [add_pwr]
    | split
    | dsimp only
theorem timedOut_pwr (d : Dev) (src dst vc a : Nat) : (timedOut d src dst vc a).pwr = d.pwr := by
  unfold timedOut
  repeat' first
    | with_reducible rfl
    | simp -implicitDefEqProofs only [add_pwr, raise_pwr]
    | split
    | dsimp only
theorem addOutst_pwr (d : Dev) (o : Outst) : (addOutst d o).pwr = d.pwr := by
  unfold addOutst
  repeat' first
    | with_reducible rfl
    | simp -implicitDefEqProofs only [ite_self]
    | split
    | dsimp only
theorem respond_pwr (d : Dev) (k : Packet) (status : Nat) (bs : List Byte) : (respond d k status bs).pwr = d.pwr := by
  unfold respond
  repeat' first
    | with_reducible rfl
    | simp -implicitDefEqProofs only [emit_pwr, apply_ite Dev.pwr, apply_ite Prod.fst, ite_self, id_eq]
    | split
    | dsimp only
theorem synthesise_pwr (d : Dev) (src tag status : Nat) : (synthesise d src tag status).pwr = d.pwr := by
  unfold synthesise
  repeat' first
    | with_reducible rfl
    | simp -implicitDefEqProofs only [emit_pwr]
    | split
    | dsimp only
theorem hostTimeout_pwr (d : Dev) (fn : Fn) (h : Option Nat) (bar off : Nat) (write : Bool) : (hostTimeout d fn h bar off write).pwr = d.pwr := by
  unfold hostTimeout
  repeat' first
    | with_reducible rfl
    | simp -implicitDefEqProofs only [accessError_pwr, timedOut_pwr, apply_ite Dev.pwr, apply_ite Prod.fst, ite_self, id_eq]
    | split
    | dsimp only
theorem viaNoc_pwr (d : Dev) (fn : Fn) (h : Option Nat) (bar off : Nat) (write : Bool) (fail k : Dev → Dev) (hf : ∀ e, Kept (fail e) e)
    (hk : ∀ e, Kept (k e) e) : (d.viaNoc fn h bar off write fail k).pwr = d.pwr := by
  unfold viaNoc; split
  · rw [(hf _).eq, accessError_pwr, noRoute_pwr]
  · split
    · rw [hostTimeout_pwr, (hk _).eq]
    · exact (hk d).eq
theorem answerAt_pwr (d : Dev) (fn : Fn) (a ones v : Nat) : (answerAt d fn a ones v).1.pwr = d.pwr := by
  unfold answerAt
  repeat' first
    | with_reducible rfl
    | simp -implicitDefEqProofs only [hostTimeout_pwr, apply_ite Dev.pwr, apply_ite Prod.fst, ite_self, id_eq]
    | split
    | dsimp only
theorem reply_pwr (d : Dev) (fn : Fn) (a v : Nat) : (reply d fn a v).pwr = d.pwr := by
  unfold reply
  repeat' first
    | with_reducible rfl
    | simp -implicitDefEqProofs only [answerAt_pwr, complete_pwr]
    | split
    | dsimp only
theorem reply64_pwr (d : Dev) (fn : Fn) (a v : Nat) : (reply64 d fn a v).pwr = d.pwr := by
  unfold reply64
  repeat' first
    | with_reducible rfl
    | simp -implicitDefEqProofs only [answerAt_pwr, complete_pwr]
    | split
    | dsimp only
theorem dropWrite_pwr (d : Dev) (q : Nat) (fin ovr : Bool) : (dropWrite d q fin ovr).1.pwr = d.pwr := by
  unfold dropWrite
  repeat' first
    | with_reducible rfl
    | simp -implicitDefEqProofs only [irq_pwr, offerQueue_pwr, raise_pwr, setQueue_pwr, apply_ite Dev.pwr, apply_ite Prod.fst, ite_self, id_eq]
    | split
    | dsimp only
theorem push_pwr (d : Dev) (q : Nat) (w : QWord) (credit : Bool) : (push d q w credit).1.pwr = d.pwr := by
  unfold push
  repeat' first
    | with_reducible rfl
    | simp -implicitDefEqProofs only [dropWrite_pwr, offerQueue_pwr, setQueue_pwr, apply_ite Dev.pwr, apply_ite Prod.fst, ite_self, id_eq]
    | split
    | dsimp only
theorem takeHead_pwr {d : Dev} {q : Nat} {w : QWord} {e : Dev} (h : d.takeHead q = some (w, e)) : e.pwr = d.pwr := by
  unfold takeHead at h; dsimp only at h; split at h
  · cases h
  · simp -implicitDefEqProofs only [Option.some.injEq, Prod.mk.injEq] at h; rw [← h.2, offerQueue_pwr, setQueue_pwr]
theorem markBound_pwr (d : Dev) (q : Nat) : (markBound d q).pwr = d.pwr := by
  unfold markBound
  repeat' first
    | with_reducible rfl
    | simp -implicitDefEqProofs only [modQueue_pwr, apply_ite Dev.pwr, apply_ite Prod.fst, ite_self, id_eq]
    | split
    | dsimp only
theorem takeUpTo_pwr (m : Nat) (d : Dev) (q : Nat) : (takeUpTo m d q).2.pwr = d.pwr := by
  induction m generalizing d with
  | zero => rfl
  | succ m ih =>
    unfold takeUpTo
    repeat' first
      | with_reducible rfl
      | exact takeHead_pwr (by assumption)
      | exact (ih _).trans (takeHead_pwr (by assumption))
      | split
theorem answerQrd_pwr (d : Dev) (q : Nat) (k : Packet) : (answerQrd d q k).pwr = d.pwr := by
  unfold answerQrd
  repeat' first
    | with_reducible rfl
    | simp -implicitDefEqProofs only [respond_pwr, takeUpTo_pwr]
    | split
    | dsimp only
theorem popReply_pwr (d : Dev) (fn : Fn) (q v : Nat) : (popReply d fn q v).pwr = d.pwr := by
  unfold popReply
  repeat' first
    | with_reducible rfl
    | simp -implicitDefEqProofs only [emit_pwr, hostTimeout_pwr, apply_ite Dev.pwr, apply_ite Prod.fst, ite_self, id_eq]
    | split
    | dsimp only
theorem completePop_pwr (d : Dev) (fn : Fn) (q : Nat) : (completePop d fn q).pwr = d.pwr := by
  unfold completePop
  repeat' first
    | with_reducible rfl
    | simp -implicitDefEqProofs only [modQueue_pwr, popReply_pwr, apply_ite Dev.pwr, apply_ite Prod.fst, ite_self, id_eq]
    | split
    | refine (takeHead_pwr (by assumption)).trans ?_
    | dsimp only
theorem serveReaders_pwr (m : Nat) (d : Dev) (q : Nat) : (serveReaders m d q).pwr = d.pwr := by
  induction m generalizing d with
  | zero => rfl
  | succ m ih =>
    unfold serveReaders; dsimp only; split
    · rfl
    · split
      · rw [ih, completePop_pwr, setQueue_pwr]
      · rw [ih, answerQrd_pwr, setQueue_pwr]
      · rfl
theorem wakeReaders_pwr (d : Dev) (q : Nat) : (wakeReaders d q).pwr = d.pwr := by
  unfold wakeReaders
  repeat' first
    | with_reducible rfl
    | simp -implicitDefEqProofs only [serveReaders_pwr, apply_ite Dev.pwr, apply_ite Prod.fst, ite_self, id_eq]
    | split
    | dsimp only
theorem notifyQueue_pwr (d : Dev) (q kind : Nat) : (notifyQueue d q kind).pwr = d.pwr := by
  unfold notifyQueue
  repeat' first
    | with_reducible rfl
    | simp -implicitDefEqProofs only [irq_pwr, push_pwr, wakeReaders_pwr, apply_ite Dev.pwr, apply_ite Prod.fst, ite_self, id_eq]
    | split
    | dsimp only
theorem notifyKinds_pwr (d : Dev) (q : Nat) (ks : List Nat) : (notifyKinds d q ks).pwr = d.pwr := by
  unfold notifyKinds
  repeat' first
    | with_reducible rfl
    | intro _
    | exact True.intro
    | (with_reducible refine Kept.same ?_; (try dsimp only); with_reducible refine Kept.of ?_)
    | simp -implicitDefEqProofs only [notifyQueue_pwr]
    | rw [each_pwr]
    | split
    | dsimp only
theorem append_pwr (d : Dev) (q : Nat) (w : QWord) (credit : Bool) : (append d q w credit).pwr = d.pwr := by
  unfold append
  repeat' first
    | with_reducible rfl
    | simp -implicitDefEqProofs only [notifyKinds_pwr, push_pwr, wakeReaders_pwr]
    | split
    | dsimp only
theorem modFences_pwr (d : Dev) (f : List (Nat × Nat) → List (Nat × Nat)) : (modFences d f).pwr = d.pwr := by
  unfold modFences
  repeat' first
    | with_reducible rfl
    | intro _
    | exact True.intro
    | (with_reducible refine Kept.same ?_; (try dsimp only); with_reducible refine Kept.of ?_)
    | simp -implicitDefEqProofs only [modQueue_pwr, wakeReaders_pwr]
    | rw [each_pwr]
    | split
    | dsimp only
theorem settleFences_pwr (d : Dev) : (settleFences d).pwr = d.pwr := by
  unfold settleFences
  repeat' first
    | with_reducible rfl
    | simp -implicitDefEqProofs only [modFences_pwr]
    | split
    | dsimp only
theorem farAcked_pwr (d : Dev) (n f j : Nat) : (farAcked d n f j).pwr = d.pwr := by
  unfold farAcked
  repeat' first
    | with_reducible rfl
    | simp -implicitDefEqProofs only [modFences_pwr, apply_ite Dev.pwr, apply_ite Prod.fst, ite_self, id_eq]
    | split
    | dsimp only
theorem freeOutst_pwr (d : Dev) (src tag : Nat) : (freeOutst d src tag).pwr = d.pwr := by
  unfold freeOutst
  repeat' first
    | with_reducible rfl
    | simp -implicitDefEqProofs only [settleFences_pwr]
    | split
    | dsimp only
theorem appendAll_pwr (d : Dev) (q : Nat) (ws : List W64) (endLast fence : Bool) : (d.appendAll q ws endLast fence).pwr = d.pwr := by
  induction ws generalizing d fence with
  | nil => rfl
  | cons w ws ih =>
    cases ws with
    | nil => exact append_pwr _ _ _ _
    | cons v vs => exact (ih _ _).trans (append_pwr _ _ _ _)
theorem flushQueue_pwr (d : Dev) (q : Nat) : (flushQueue d q).pwr = d.pwr := by
  unfold flushQueue
  repeat' first
    | with_reducible rfl
    | simp -implicitDefEqProofs only [notifyKinds_pwr, setQueue_pwr, apply_ite Dev.pwr, apply_ite Prod.fst, ite_self, id_eq]
    | split
    | dsimp only
theorem dropHeadOf_pwr (d : Dev) (q : Nat) : (dropHeadOf d q).pwr = d.pwr := by
  unfold dropHeadOf
  repeat' first
    | with_reducible rfl
    | simp -implicitDefEqProofs only [notifyKinds_pwr, setQueue_pwr, apply_ite Dev.pwr, apply_ite Prod.fst, ite_self, id_eq]
    | split
    | dsimp only
theorem withdrawBridge_pwr (d : Dev) (q : Nat) : (withdrawBridge d q).pwr = d.pwr := by
  unfold withdrawBridge
  repeat' first
    | with_reducible rfl
    | intro _
    | exact True.intro
    | (with_reducible refine Kept.same ?_; (try dsimp only); with_reducible refine Kept.of ?_)
    | simp -implicitDefEqProofs only [p_pwr, apply_ite Dev.pwr, apply_ite Prod.fst, ite_self, id_eq]
    | rw [each_pwr]
    | split
    | dsimp only
theorem enableQueue_pwr (d : Dev) (q : Nat) : (enableQueue d q).pwr = d.pwr := by
  unfold enableQueue
  repeat' first
    | with_reducible rfl
    | simp -implicitDefEqProofs only [setQueue_pwr, apply_ite Dev.pwr, apply_ite Prod.fst, ite_self, id_eq]
    | split
    | dsimp only
theorem emptyPop_pwr (d : Dev) (fn : Fn) (q : Nat) : (emptyPop d fn q).pwr = d.pwr := by
  unfold emptyPop
  repeat' first
    | with_reducible rfl
    | simp -implicitDefEqProofs only [modQueue_pwr, popReply_pwr]
    | split
    | dsimp only
theorem answerHeld_pwr (d : Dev) (q : Nat) : (answerHeld d q).pwr = d.pwr := by
  unfold answerHeld
  repeat' first
    | with_reducible rfl
    | intro _
    | exact True.intro
    | (with_reducible refine Kept.same ?_; (try dsimp only); with_reducible refine Kept.of ?_)
    | simp -implicitDefEqProofs only [emptyPop_pwr, respond_pwr, setQueue_pwr]
    | rw [each_pwr]
    | split
    | dsimp only
theorem dropCredits_pwr (d : Dev) (q : Nat) : (dropCredits d q).pwr = d.pwr := by
  unfold dropCredits
  repeat' first
    | with_reducible rfl
    | intro _
    | exact True.intro
    | (with_reducible refine Kept.same ?_; (try dsimp only); with_reducible refine Kept.of ?_)
    | simp -implicitDefEqProofs only [modClu_pwr]
    | rw [each_pwr]
    | split
    | dsimp only
theorem disableQueue_pwr (d : Dev) (q : Nat) : (disableQueue d q).pwr = d.pwr := by
  unfold disableQueue
  repeat' first
    | with_reducible rfl
    | simp -implicitDefEqProofs only [answerHeld_pwr, dropCredits_pwr, flushQueue_pwr, modQueue_pwr, withdrawBridge_pwr, apply_ite Dev.pwr, apply_ite Prod.fst, ite_self, id_eq]
    | split
    | dsimp only
theorem acceptQwr_pwr (d : Dev) (q : Nat) (k : Packet) : (acceptQwr d q k).pwr = d.pwr := by
  unfold acceptQwr
  repeat' first
    | with_reducible rfl
    | intro _
    | exact True.intro
    | (with_reducible refine Kept.same ?_; (try dsimp only); with_reducible refine Kept.of ?_)
    | simp -implicitDefEqProofs only [append_pwr, respond_pwr]
    | rw [each_pwr]
    | split
    | dsimp only
theorem serveWriters_pwr (m : Nat) (d : Dev) (q : Nat) : (serveWriters m d q).pwr = d.pwr := by
  induction m generalizing d with
  | zero => rfl
  | succ m ih =>
    unfold serveWriters; dsimp only; split
    · rfl
    · split
      · rw [ih, acceptQwr_pwr, setQueue_pwr]
      · rfl
theorem serveHeld_pwr (d : Dev) : (serveHeld d).pwr = d.pwr := by
  unfold serveHeld
  repeat' first
    | with_reducible rfl
    | intro _
    | exact True.intro
    | (with_reducible refine Kept.same ?_; (try dsimp only); with_reducible refine Kept.of ?_)
    | simp -implicitDefEqProofs only [serveWriters_pwr]
    | rw [each_pwr]
    | split
    | dsimp only
theorem sendAnswers_pwr (m : Nat) (d : Dev) : (sendAnswers m d).pwr = d.pwr := by
  induction m generalizing d with
  | zero => rfl
  | succ m ih =>
    unfold sendAnswers
    repeat' first
      | with_reducible rfl
      | rw [ih, appendAll_pwr]
      | split
theorem answer_pwr (d : Dev) (op : Nat) (tag : Nat) (status : Nat) (ws : List W64) : (answer d op tag status ws).pwr = d.pwr := by
  unfold answer
  repeat' first
    | with_reducible rfl
    | simp -implicitDefEqProofs only [sendAnswers_pwr]
    | split
    | dsimp only
theorem takeService_pwr (d : Dev) (op : Nat) (tag : Nat) (arg : Nat) (ws : List W64) : (takeService d op tag arg ws).pwr = d.pwr := by
  unfold takeService
  repeat' first
    | with_reducible rfl
    | simp -implicitDefEqProofs only [setQueue_pwr, apply_ite Dev.pwr, apply_ite Prod.fst, ite_self, id_eq]
    | split
    | dsimp only
theorem countOne_pwr (d : Dev) (base : Nat) (cnt ovf : Fld) : (countOne d base cnt ovf).pwr = d.pwr := by
  unfold countOne
  repeat' first
    | with_reducible rfl
    | simp -implicitDefEqProofs only [on_pwr, p_pwr, apply_ite Dev.pwr, apply_ite Prod.fst, ite_self, id_eq]
    | split
    | dsimp only
theorem countEvent_pwr (d : Dev) (num : Nat) : (countEvent d num).pwr = d.pwr := by
  unfold countEvent
  repeat' first
    | with_reducible rfl
    | intro _
    | exact True.intro
    | (with_reducible refine Kept.same ?_; (try dsimp only); with_reducible refine Kept.of ?_)
    | simp -implicitDefEqProofs only [countOne_pwr, apply_ite Dev.pwr, apply_ite Prod.fst, ite_self, id_eq]
    | rw [each_pwr]
    | split
    | dsimp only
theorem lastGasp_pwr (d : Dev) (num cls owner i0 i1 : Nat) : (lastGasp d num cls owner i0 i1).pwr = d.pwr := by
  unfold lastGasp
  repeat' first
    | with_reducible rfl
    | simp -implicitDefEqProofs only [add_pwr, p_pwr, apply_ite Dev.pwr, apply_ite Prod.fst, ite_self, id_eq]
    | split
    | dsimp only
theorem logToQueue_pwr (d : Dev) (e : LogEntry) : (logToQueue d e).pwr = d.pwr := by
  unfold logToQueue
  repeat' first
    | with_reducible rfl
    | simp -implicitDefEqProofs only [appendAll_pwr, apply_ite Dev.pwr, apply_ite Prod.fst, ite_self, id_eq]
    | split
    | dsimp only
theorem logFail_pwr (d : Dev) (i syn : Nat) : (logFail d i syn).pwr = d.pwr := by
  unfold logFail
  repeat' first
    | with_reducible rfl
    | simp -implicitDefEqProofs only [irq_pwr, lastGasp_pwr, on_pwr, raise_pwr]
    | split
    | dsimp only
theorem logCheck_pwr (d : Dev) (i : Nat) (ws : List W64) : (logCheck d i ws).1.pwr = d.pwr := by
  unfold logCheck
  repeat' first
    | with_reducible rfl
    | simp -implicitDefEqProofs only [add_pwr, apply_ite Dev.pwr, apply_ite Prod.fst, ite_self, id_eq]
    | split
    | dsimp only
theorem logPast_pwr (d : Dev) (e : LogEntry) : (logPast d e).pwr = d.pwr := by
  unfold logPast
  repeat' first
    | with_reducible rfl
    | intro _
    | exact True.intro
    | (with_reducible refine Kept.same ?_; (try dsimp only); with_reducible refine Kept.of ?_)
    | simp -implicitDefEqProofs only [lastGasp_pwr, logToQueue_pwr]
    | rw [iff_pwr]
    | split
    | dsimp only
theorem logPut_pwr (d : Dev) (i : Nat) (e : LogEntry) : (logPut d i e).pwr = d.pwr := by
  unfold logPut
  repeat' first
    | with_reducible rfl
    | intro _
    | exact True.intro
    | (with_reducible refine Kept.same ?_; (try dsimp only); with_reducible refine Kept.of ?_)
    | simp -implicitDefEqProofs only [add_pwr, irq_pwr, logToQueue_pwr, on_pwr, p_pwr, raise_pwr]
    | rw [iff_pwr]
    | split
    | dsimp only
theorem logEvent_pwr (d : Dev) (ev : Ev) : (logEvent d ev).pwr = d.pwr := by
  unfold logEvent
  repeat' first
    | with_reducible rfl
    | simp -implicitDefEqProofs only [logCheck_pwr, logFail_pwr, logPast_pwr, logPut_pwr, apply_ite Dev.pwr, apply_ite Prod.fst, ite_self, id_eq]
    | split
    | dsimp only
theorem mntRequest_pwr (d : Dev) (id adds sparing : Nat) (retry : Bool) : (mntRequest d id adds sparing retry).1.pwr = d.pwr := by
  unfold mntRequest
  repeat' first
    | with_reducible rfl
    | simp -implicitDefEqProofs only [add_pwr, irq_pwr, p_pwr, raise_pwr, apply_ite Dev.pwr, apply_ite Prod.fst, ite_self, id_eq]
    | split
    | dsimp only
theorem mntDrop_pwr (d : Dev) (id : Nat) : (mntDrop d id).pwr = d.pwr := by
  unfold mntDrop
  repeat' first
    | with_reducible rfl
    | simp -implicitDefEqProofs only [apply_ite Dev.pwr, apply_ite Prod.fst, ite_self, id_eq]
    | split
    | dsimp only
theorem integFail_pwr (d : Dev) (r : Req) (a level : Nat) (write : Bool) : (integFail d r a level write).pwr = d.pwr := by
  unfold integFail
  repeat' first
    | with_reducible rfl
    | simp -implicitDefEqProofs only [add_pwr, irq_pwr, on_pwr, p_pwr, raise_pwr, apply_ite Dev.pwr, apply_ite Prod.fst, ite_self, id_eq]
    | split
    | dsimp only
theorem wantRoll_pwr (d : Dev) (cause : Nat) : (wantRoll d cause).pwr = d.pwr := by
  unfold wantRoll
  repeat' first
    | with_reducible rfl
    | simp -implicitDefEqProofs only [on_pwr, p_pwr, apply_ite Dev.pwr, apply_ite Prod.fst, ite_self, id_eq]
    | split
    | dsimp only
theorem tryRoll_pwr (d : Dev) (retry : Bool) : (tryRoll d retry).pwr = d.pwr := by
  unfold tryRoll
  repeat' first
    | with_reducible rfl
    | simp -implicitDefEqProofs only [mntRequest_pwr, on_pwr, p_pwr, apply_ite Dev.pwr, apply_ite Prod.fst, ite_self, id_eq]
    | split
    | dsimp only
theorem scrubRequest_pwr (d : Dev) (i : Nat) (retry : Bool) : (scrubRequest d i retry).pwr = d.pwr := by
  unfold scrubRequest
  repeat' first
    | with_reducible rfl
    | simp -implicitDefEqProofs only [mntRequest_pwr, p_pwr, apply_ite Dev.pwr, apply_ite Prod.fst, ite_self, id_eq]
    | split
    | dsimp only
theorem retryPasses_pwr (d : Dev) : (retryPasses d).pwr = d.pwr := by
  unfold retryPasses
  repeat' first
    | with_reducible rfl
    | intro _
    | exact True.intro
    | (with_reducible refine Kept.same ?_; (try dsimp only); with_reducible refine Kept.of ?_)
    | simp -implicitDefEqProofs only [scrubRequest_pwr, apply_ite Dev.pwr, apply_ite Prod.fst, ite_self, id_eq]
    | rw [each_pwr]
    | split
    | dsimp only
theorem retryWaits_pwr (d : Dev) : (retryWaits d).pwr = d.pwr := by
  unfold retryWaits
  repeat' first
    | with_reducible rfl
    | simp -implicitDefEqProofs only [retryPasses_pwr, tryRoll_pwr, apply_ite Dev.pwr, apply_ite Prod.fst, ite_self, id_eq]
    | split
    | dsimp only
theorem mntFree_pwr (d : Dev) (id : Nat) : (mntFree d id).pwr = d.pwr := by
  unfold mntFree
  repeat' first
    | with_reducible rfl
    | simp -implicitDefEqProofs only [mntDrop_pwr, retryWaits_pwr, apply_ite Dev.pwr, apply_ite Prod.fst, ite_self, id_eq]
    | split
    | dsimp only
theorem requestRoll_pwr (d : Dev) (cause : Nat) : (requestRoll d cause).pwr = d.pwr := by
  unfold requestRoll
  repeat' first
    | with_reducible rfl
    | simp -implicitDefEqProofs only [tryRoll_pwr, wantRoll_pwr]
    | split
    | dsimp only
theorem countBlocks_pwr (d : Dev) (n : Nat) : (countBlocks d n).pwr = d.pwr := by
  unfold countBlocks
  repeat' first
    | with_reducible rfl
    | simp -implicitDefEqProofs only [p_pwr, requestRoll_pwr, apply_ite Dev.pwr, apply_ite Prod.fst, ite_self, id_eq]
    | split
    | dsimp only
theorem watchCtr_pwr (d : Dev) (c : Nat) : (watchCtr d c).pwr = d.pwr := by
  unfold watchCtr
  repeat' first
    | with_reducible rfl
    | simp -implicitDefEqProofs only [requestRoll_pwr, apply_ite Dev.pwr, apply_ite Prod.fst, ite_self, id_eq]
    | split
    | dsimp only
theorem metaMoved_pwr (d : Dev) (level index : Nat) : (metaMoved d level index).pwr = d.pwr := by
  unfold metaMoved
  repeat' first
    | with_reducible rfl
    | simp -implicitDefEqProofs only [add_pwr]
    | split
    | dsimp only
theorem writeNode_pwr (d : Dev) (node : Nat) : (writeNode d node).pwr = d.pwr := by
  unfold writeNode
  repeat' first
    | with_reducible rfl
    | simp -implicitDefEqProofs only [add_pwr, metaMoved_pwr, watchCtr_pwr]
    | split
    | dsimp only
theorem writeLeaf_pwr (d : Dev) (line : Nat) : (writeLeaf d line).pwr = d.pwr := by
  unfold writeLeaf
  repeat' first
    | with_reducible rfl
    | intro _
    | exact True.intro
    | (with_reducible refine Kept.same ?_; (try dsimp only); with_reducible refine Kept.of ?_)
    | simp -implicitDefEqProofs only [add_pwr, integFail_pwr, metaMoved_pwr, watchCtr_pwr, writeNode_pwr, apply_ite Dev.pwr, apply_ite Prod.fst, ite_self, id_eq]
    | rw [iff_pwr]
    | split
    | dsimp only
theorem writeBack_pwr (d : Dev) (level index : Nat) : (writeBack d level index).pwr = d.pwr := by
  unfold writeBack
  repeat' first
    | with_reducible rfl
    | simp -implicitDefEqProofs only [add_pwr, metaMoved_pwr, writeLeaf_pwr, writeNode_pwr, apply_ite Dev.pwr, apply_ite Prod.fst, ite_self, id_eq]
    | split
    | dsimp only
theorem evict_pwr (d : Dev) (q : Nat) : (evict d q).pwr = d.pwr := by
  unfold evict
  repeat' first
    | with_reducible rfl
    | intro _
    | exact True.intro
    | (with_reducible refine Kept.same ?_; (try dsimp only); with_reducible refine Kept.of ?_)
    | simp -implicitDefEqProofs only [tick_pwr, writeBack_pwr, apply_ite Dev.pwr, apply_ite Prod.fst, ite_self, id_eq]
    | split
    | with_reducible refine (fst_pwr (fun _ _ => ?_) _ _).trans ?_
    | with_reducible refine (foldl_pwr (fun _ _ => ?_) _ _).trans ?_
    | dsimp only
theorem cacheLookup_pwr (d : Dev) (level index : Nat) (dirty : Bool) : (cacheLookup d level index dirty).pwr = d.pwr := by
  unfold cacheLookup
  repeat' first
    | with_reducible rfl
    | intro _
    | exact True.intro
    | (with_reducible refine Kept.same ?_; (try dsimp only); with_reducible refine Kept.of ?_)
    | simp -implicitDefEqProofs only [add_pwr, evict_pwr, metaMoved_pwr, apply_ite Dev.pwr, apply_ite Prod.fst, ite_self, id_eq]
    | rw [iff_pwr]
    | split
    | dsimp only
theorem touchMeta_pwr (d : Dev) (a n : Nat) (write : Bool) : (touchMeta d a n write).pwr = d.pwr := by
  unfold touchMeta
  repeat' first
    | with_reducible rfl
    | intro _
    | exact True.intro
    | (with_reducible refine Kept.same ?_; (try dsimp only); with_reducible refine Kept.of ?_)
    | simp -implicitDefEqProofs only [cacheLookup_pwr, raise_pwr, apply_ite Dev.pwr, apply_ite Prod.fst, ite_self, id_eq]
    | rw [each_pwr]
    | split
    | dsimp only
theorem stackCount_pwr (d : Dev) (ce ue : List Nat) : (stackCount d ce ue).pwr = d.pwr := by
  unfold stackCount
  repeat' first
    | with_reducible rfl
    | intro _
    | exact True.intro
    | (with_reducible refine Kept.same ?_; (try dsimp only); with_reducible refine Kept.of ?_)
    | simp -implicitDefEqProofs only [add_pwr, irq_pwr]
    | rw [each_pwr]
    | split
    | dsimp only
theorem stackFresh_pwr (d : Dev) (lo hi : Nat) : (stackFresh d lo hi).pwr = d.pwr := by
  unfold stackFresh
  repeat' first
    | with_reducible rfl
    | simp -implicitDefEqProofs only [ite_self]
    | split
    | dsimp only
theorem bumpCounter_pwr (d : Dev) (sec : Nat) : (bumpCounter d sec).pwr = d.pwr := by
  unfold bumpCounter
  repeat' first
    | with_reducible rfl
    | intro _
    | exact True.intro
    | (with_reducible refine Kept.same ?_; (try dsimp only); with_reducible refine Kept.of ?_)
    | simp -implicitDefEqProofs only [stackFresh_pwr, watchCtr_pwr, apply_ite Dev.pwr, apply_ite Prod.fst, ite_self, id_eq]
    | rw [iff_pwr]
    | split
    | dsimp only
theorem hbmRefuse_pwr (d : Dev) (r : Req) (a n : Nat) (write : Bool) : (hbmRefuse d r a n write).pwr = d.pwr := by
  unfold hbmRefuse
  repeat' first
    | with_reducible rfl
    | intro _
    | exact True.intro
    | (with_reducible refine Kept.same ?_; (try dsimp only); with_reducible refine Kept.of ?_)
    | simp -implicitDefEqProofs only [add_pwr, innerError_pwr]
    | rw [iff_pwr]
    | split
    | dsimp only
theorem hbmRead_pwr (d : Dev) (r : Req) (a n : Nat) : (hbmRead d r a n).1.pwr = d.pwr := by
  unfold hbmRead
  repeat' first
    | with_reducible rfl
    | intro _
    | exact True.intro
    | (with_reducible refine Kept.same ?_; (try dsimp only); with_reducible refine Kept.of ?_)
    | simp -implicitDefEqProofs only [hbmRefuse_pwr, integFail_pwr, noRoute_pwr, stackCount_pwr, touchMeta_pwr, apply_ite Dev.pwr, apply_ite Prod.fst, ite_self, id_eq]
    | rw [each_pwr]
    | split
    | dsimp only
theorem hbmWrite_pwr (d : Dev) (r : Req) (a : Nat) (bs : List Byte) : (hbmWrite d r a bs).1.pwr = d.pwr := by
  unfold hbmWrite
  repeat' first
    | with_reducible rfl
    | intro _
    | exact True.intro
    | (with_reducible refine Kept.same ?_; (try dsimp only); with_reducible refine Kept.of ?_)
    | simp -implicitDefEqProofs only [bumpCounter_pwr, countBlocks_pwr, hbmRefuse_pwr, integFail_pwr, noRoute_pwr, stackCount_pwr, stackFresh_pwr, touchMeta_pwr, apply_ite Dev.pwr, apply_ite Prod.fst, ite_self, id_eq]
    | rw [each_pwr]
    | split
    | dsimp only
theorem hbmAnswer_pwr (d : Dev) (r : Req) (a status : Nat) : (hbmAnswer d r a status).1.pwr = d.pwr := by
  unfold hbmAnswer
  repeat' first
    | with_reducible rfl
    | simp -implicitDefEqProofs only [timedOut_pwr, apply_ite Dev.pwr, apply_ite Prod.fst, ite_self, id_eq]
    | split
    | dsimp only
theorem hbmFetch_pwr (d : Dev) (r : Req) (a n : Nat) : (hbmFetch d r a n).1.pwr = d.pwr := by
  unfold hbmFetch
  repeat' first
    | with_reducible rfl
    | simp -implicitDefEqProofs only [hbmAnswer_pwr, hbmRead_pwr, apply_ite Dev.pwr, apply_ite Prod.fst, ite_self, id_eq]
    | split
    | dsimp only
theorem hbmSend_pwr (d : Dev) (r : Req) (a : Nat) (bs : List Byte) : (hbmSend d r a bs).1.pwr = d.pwr := by
  unfold hbmSend
  repeat' first
    | with_reducible rfl
    | simp -implicitDefEqProofs only [hbmAnswer_pwr, hbmWrite_pwr, apply_ite Dev.pwr, apply_ite Prod.fst, ite_self, id_eq]
    | split
    | dsimp only
theorem hbmGet_pwr (d : Dev) (r : Req) (a n : Nat) : (hbmGet d r a n).1.pwr = d.pwr := by
  unfold hbmGet
  repeat' first
    | with_reducible rfl
    | intro _
    | exact True.intro
    | (with_reducible refine Kept.same ?_; (try dsimp only); with_reducible refine Kept.of ?_)
    | simp -implicitDefEqProofs only [hbmFetch_pwr, apply_ite Dev.pwr, apply_ite Prod.fst, ite_self, id_eq]
    | split
    | with_reducible refine (fst_pwr (fun _ _ => ?_) _ _).trans ?_
    | with_reducible refine (foldl_pwr (fun _ _ => ?_) _ _).trans ?_
    | dsimp only
theorem hbmStore_pwr (d : Dev) (r : Req) (a : Nat) (bs : List Byte) : (hbmStore d r a bs).1.pwr = d.pwr := by
  unfold hbmStore
  repeat' first
    | with_reducible rfl
    | intro _
    | exact True.intro
    | (with_reducible refine Kept.same ?_; (try dsimp only); with_reducible refine Kept.of ?_)
    | simp -implicitDefEqProofs only [hbmSend_pwr, apply_ite Dev.pwr, apply_ite Prod.fst, ite_self, id_eq]
    | split
    | with_reducible refine (fst_pwr (fun _ _ => ?_) _ _).trans ?_
    | with_reducible refine (foldl_pwr (fun _ _ => ?_) _ _).trans ?_
    | dsimp only
theorem hbmPut_pwr (d : Dev) (r : Req) (a : Nat) (bs : List Byte) : (hbmPut d r a bs).pwr = d.pwr := by
  unfold hbmPut
  repeat' first
    | with_reducible rfl
    | simp -implicitDefEqProofs only [hbmStore_pwr]
    | split
    | dsimp only
theorem zeroRange_pwr (d : Dev) (r : Req) (a n : Nat) : (zeroRange d r a n).pwr = d.pwr := by
  unfold zeroRange
  repeat' first
    | with_reducible rfl
    | intro _
    | exact True.intro
    | (with_reducible refine Kept.same ?_; (try dsimp only); with_reducible refine Kept.of ?_)
    | simp -implicitDefEqProofs only [hbmSend_pwr]
    | rw [each_pwr]
    | split
    | dsimp only
theorem pauseRoll_pwr (d : Dev) (snap : Bool) : (pauseRoll d snap).pwr = d.pwr := by
  unfold pauseRoll
  repeat' first
    | with_reducible rfl
    | simp -implicitDefEqProofs only [irq_pwr, on_pwr, p_pwr, apply_ite Dev.pwr, apply_ite Prod.fst, ite_self, id_eq]
    | split
    | dsimp only
theorem passTree_pwr (d : Dev) (lo hi : Nat) : (passTree d lo hi).pwr = d.pwr := by
  unfold passTree
  repeat' first
    | with_reducible rfl
    | intro _
    | exact True.intro
    | (with_reducible refine Kept.same ?_; (try dsimp only); with_reducible refine Kept.of ?_)
    | simp -implicitDefEqProofs only [ite_self]
    | split
    | with_reducible refine (fst_pwr (fun _ _ => ?_) _ _).trans ?_
    | with_reducible refine (foldl_pwr (fun _ _ => ?_) _ _).trans ?_
    | dsimp only
theorem setBoundary_pwr (d : Dev) (b : Nat) : (setBoundary d b).pwr = d.pwr := by
  unfold setBoundary
  repeat' first
    | with_reducible rfl
    | simp -implicitDefEqProofs only [p_pwr, passTree_pwr]
    | split
    | dsimp only
theorem endRoll_pwr (d : Dev) : (endRoll d).pwr = d.pwr := by
  unfold endRoll
  repeat' first
    | with_reducible rfl
    | simp -implicitDefEqProofs only [add_pwr, irq_pwr, mntFree_pwr, p_pwr, raise_pwr, requestRoll_pwr, setBoundary_pwr, apply_ite Dev.pwr, apply_ite Prod.fst, ite_self, id_eq]
    | split
    | dsimp only
theorem setCounter_pwr (d : Dev) (sec c : Nat) : (setCounter d sec c).pwr = d.pwr := by
  unfold setCounter
  repeat' first
    | with_reducible rfl
    | simp -implicitDefEqProofs only [ite_self]
    | split
    | dsimp only
theorem convertSector_pwr (d : Dev) (sec : Nat) : (convertSector d sec).pwr = d.pwr := by
  unfold convertSector
  repeat' first
    | with_reducible rfl
    | simp -implicitDefEqProofs only [countBlocks_pwr, integFail_pwr, setBoundary_pwr, setCounter_pwr, stackCount_pwr, stackFresh_pwr, touchMeta_pwr, apply_ite Dev.pwr, apply_ite Prod.fst, ite_self, id_eq]
    | split
    | dsimp only
theorem lineOut_pwr (d : Dev) (gi l : Nat) (bits : List Bool) : (lineOut d gi l bits).pwr = d.pwr := by
  unfold lineOut
  repeat' first
    | with_reducible rfl
    | simp -implicitDefEqProofs only [emit_pwr, modLink_pwr, apply_ite Dev.pwr, apply_ite Prod.fst, ite_self, id_eq]
    | split
    | dsimp only
theorem sendFlit_pwr (d : Dev) (gi : Nat) (flit : BitVec 320) : (sendFlit d gi flit).pwr = d.pwr := by
  unfold sendFlit
  repeat' first
    | with_reducible rfl
    | simp -implicitDefEqProofs only [emit_pwr, modLink_pwr]
    | split
    | dsimp only
theorem control_pwr (d : Dev) (gi kind body : Nat) : (control d gi kind body).pwr = d.pwr := by
  unfold control
  repeat' first
    | with_reducible rfl
    | simp -implicitDefEqProofs only [emit_pwr, modLink_pwr]
    | split
    | dsimp only
theorem controlAll_pwr (d : Dev) (kind body : Nat) : (controlAll d kind body).pwr = d.pwr := by
  unfold controlAll
  repeat' first
    | with_reducible rfl
    | intro _
    | exact True.intro
    | (with_reducible refine Kept.same ?_; (try dsimp only); with_reducible refine Kept.of ?_)
    | simp -implicitDefEqProofs only [control_pwr, apply_ite Dev.pwr, apply_ite Prod.fst, ite_self, id_eq]
    | rw [each_pwr]
    | split
    | dsimp only
theorem ringOut_pwr (d : Dev) (kind dest src n ttl : Nat) (payload : List Byte) : (ringOut d kind dest src n ttl payload).pwr = d.pwr := by
  unfold ringOut
  repeat' first
    | with_reducible rfl
    | simp -implicitDefEqProofs only [emit_pwr]
    | split
    | dsimp only
theorem ringSend_pwr (d : Dev) (kind dest : Nat) (payload : List Byte) : (ringSend d kind dest payload).pwr = d.pwr := by
  unfold ringSend
  repeat' first
    | with_reducible rfl
    | simp -implicitDefEqProofs only [ringOut_pwr, apply_ite Dev.pwr, apply_ite Prod.fst, ite_self, id_eq]
    | split
    | dsimp only
theorem controlPtn_pwr (d : Dev) (i kind body : Nat) : (controlPtn d i kind body).pwr = d.pwr := by
  unfold controlPtn
  repeat' first
    | with_reducible rfl
    | intro _
    | exact True.intro
    | (with_reducible refine Kept.same ?_; (try dsimp only); with_reducible refine Kept.of ?_)
    | simp -implicitDefEqProofs only [control_pwr, apply_ite Dev.pwr, apply_ite Prod.fst, ite_self, id_eq]
    | rw [each_pwr]
    | split
    | dsimp only
theorem freezeReq_pwr (d : Dev) (i cause : Nat) : (freezeReq d i cause).pwr = d.pwr := by
  unfold freezeReq
  repeat' first
    | with_reducible rfl
    | simp -implicitDefEqProofs only [controlPtn_pwr, on_pwr, setPtn_pwr, apply_ite Dev.pwr, apply_ite Prod.fst, ite_self, id_eq]
    | split
    | dsimp only
theorem sysFreezeHere_pwr (d : Dev) : (sysFreezeHere d).pwr = d.pwr := by
  unfold sysFreezeHere
  repeat' first
    | with_reducible rfl
    | intro _
    | exact True.intro
    | (with_reducible refine Kept.same ?_; (try dsimp only); with_reducible refine Kept.of ?_)
    | simp -implicitDefEqProofs only [freezeReq_pwr, apply_ite Dev.pwr, apply_ite Prod.fst, ite_self, id_eq]
    | rw [each_pwr]
    | split
    | dsimp only
theorem floodFreeze_pwr (d : Dev) (origin n : Nat) (toRing : Bool) : (floodFreeze d origin n toRing).pwr = d.pwr := by
  unfold floodFreeze
  repeat' first
    | with_reducible rfl
    | simp -implicitDefEqProofs only [controlAll_pwr, on_pwr, p_pwr, raise_pwr, ringSend_pwr, sysFreezeHere_pwr, apply_ite Dev.pwr, apply_ite Prod.fst, ite_self, id_eq]
    | split
    | dsimp only
theorem raiseSysFreeze_pwr (d : Dev) : (raiseSysFreeze d).pwr = d.pwr := by
  unfold raiseSysFreeze
  repeat' first
    | with_reducible rfl
    | simp -implicitDefEqProofs only [floodFreeze_pwr]
    | split
    | dsimp only
theorem strobeReq_pwr (d : Dev) (src : Nat) : (strobeReq d src).pwr = d.pwr := by
  unfold strobeReq
  repeat' first
    | with_reducible rfl
    | simp -implicitDefEqProofs only [on_pwr, ringSend_pwr, apply_ite Dev.pwr, apply_ite Prod.fst, ite_self, id_eq]
    | split
    | dsimp only
theorem upstreamLoss_pwr (d : Dev) (gi : Nat) : (upstreamLoss d gi).pwr = d.pwr := by
  unfold upstreamLoss
  repeat' first
    | with_reducible rfl
    | simp -implicitDefEqProofs only [add_pwr, on_pwr, p_pwr, raiseSysFreeze_pwr, apply_ite Dev.pwr, apply_ite Prod.fst, ite_self, id_eq]
    | split
    | dsimp only
theorem slotErr_pwr (d : Dev) : (slotErr d).pwr = d.pwr := by
  unfold slotErr
  repeat' first
    | with_reducible rfl
    | simp -implicitDefEqProofs only [on_pwr, raiseSysFreeze_pwr]
    | split
    | dsimp only
theorem ctlBad_pwr (d : Dev) (gi : Nat) : (ctlBad d gi).pwr = d.pwr := by
  unfold ctlBad
  repeat' first
    | with_reducible rfl
    | simp -implicitDefEqProofs only [add_pwr, slotErr_pwr, apply_ite Dev.pwr, apply_ite Prod.fst, ite_self, id_eq]
    | split
    | dsimp only
theorem cutBlock_pwr (d : Dev) (ch : Nat) : (cutBlock d ch).pwr = d.pwr := by
  unfold cutBlock
  repeat' first
    | with_reducible rfl
    | simp -implicitDefEqProofs only [setChan_pwr, apply_ite Dev.pwr, apply_ite Prod.fst, ite_self, id_eq]
    | split
    | dsimp only
theorem cutBlocks_pwr (m : Nat) (d : Dev) (ch : Nat) : (cutBlocks m d ch).pwr = d.pwr := by
  induction m generalizing d with
  | zero => rfl
  | succ m ih =>
    unfold cutBlocks; dsimp only; split
    · rfl
    · exact (ih _).trans (cutBlock_pwr _ _)
theorem capBytes_pwr (d : Dev) (ch : Nat) (bs : List Byte) (cyc : Nat) (ovf : Bool) : (capBytes d ch bs cyc ovf).pwr = d.pwr := by
  unfold capBytes
  repeat' first
    | with_reducible rfl
    | simp -implicitDefEqProofs only [apply_ite Dev.pwr, apply_ite Prod.fst, ite_self, id_eq]
    | split
    | dsimp only
theorem capFlush_pwr (d : Dev) : (capFlush d).pwr = d.pwr := by
  unfold capFlush
  repeat' first
    | with_reducible rfl
    | intro _
    | exact True.intro
    | (with_reducible refine Kept.same ?_; (try dsimp only); with_reducible refine Kept.of ?_)
    | simp -implicitDefEqProofs only [cutBlocks_pwr, setChan_pwr, apply_ite Dev.pwr, apply_ite Prod.fst, ite_self, id_eq]
    | rw [each_pwr]
    | split
    | dsimp only
theorem capLost_pwr (d : Dev) (ch : Nat) : (capLost d ch).pwr = d.pwr := by
  unfold capLost
  repeat' first
    | with_reducible rfl
    | simp -implicitDefEqProofs only [modChan_pwr]
    | split
    | dsimp only
theorem laneRows_pwr (m : Nat) (d : Dev) (ch : Nat) : (laneRows m d ch).pwr = d.pwr := by
  induction m generalizing d with
  | zero => rfl
  | succ m ih =>
    unfold laneRows; dsimp only; split
    · rfl
    · rw [ih, capBytes_pwr, modChan_pwr]
theorem capLine_pwr (d : Dev) (gi l : Nat) (transmit decoded : Bool) (bits : List Bool) : (capLine d gi l transmit decoded bits).pwr = d.pwr := by
  unfold capLine
  repeat' first
    | with_reducible rfl
    | intro _
    | exact True.intro
    | (with_reducible refine Kept.same ?_; (try dsimp only); with_reducible refine Kept.of ?_)
    | simp -implicitDefEqProofs only [laneRows_pwr, modChan_pwr, apply_ite Dev.pwr, apply_ite Prod.fst, ite_self, id_eq]
    | rw [each_pwr]
    | split
    | dsimp only
theorem capDark_pwr (d : Dev) : (capDark d).pwr = d.pwr := by
  unfold capDark
  repeat' first
    | with_reducible rfl
    | intro _
    | exact True.intro
    | (with_reducible refine Kept.same ?_; (try dsimp only); with_reducible refine Kept.of ?_)
    | simp -implicitDefEqProofs only [modChan_pwr, apply_ite Dev.pwr, apply_ite Prod.fst, ite_self, id_eq]
    | rw [each_pwr]
    | split
    | with_reducible refine (fst_pwr (fun _ _ => ?_) _ _).trans ?_
    | with_reducible refine (foldl_pwr (fun _ _ => ?_) _ _).trans ?_
    | dsimp only
theorem writeEntry_pwr (d : Dev) (c ch fl : Nat) : (writeEntry d c ch fl).pwr = d.pwr := by
  unfold writeEntry
  repeat' first
    | with_reducible rfl
    | simp -implicitDefEqProofs only [hbmPut_pwr]
    | split
    | dsimp only
theorem clearEntries_pwr (d : Dev) (c : Nat) : (clearEntries d c).pwr = d.pwr := by
  unfold clearEntries
  repeat' first
    | with_reducible rfl
    | intro _
    | exact True.intro
    | (with_reducible refine Kept.same ?_; (try dsimp only); with_reducible refine Kept.of ?_)
    | simp -implicitDefEqProofs only [hbmGet_pwr, hbmPut_pwr]
    | rw [each_pwr]
    | split
    | dsimp only
theorem beginCapture_pwr (d : Dev) (c : Nat) : (beginCapture d c).pwr = d.pwr := by
  unfold beginCapture
  repeat' first
    | with_reducible rfl
    | intro _
    | exact True.intro
    | (with_reducible refine Kept.same ?_; (try dsimp only); with_reducible refine Kept.of ?_)
    | simp -implicitDefEqProofs only [clearEntries_pwr, p_pwr, setChan_pwr]
    | rw [each_pwr]
    | split
    | dsimp only
theorem drivePin_pwr (d : Dev) (j : Nat) (active : Bool) : (drivePin d j active).pwr = d.pwr := by
  unfold drivePin
  repeat' first
    | with_reducible rfl
    | simp -implicitDefEqProofs only [emit_pwr, p_pwr, apply_ite Dev.pwr, apply_ite Prod.fst, ite_self, id_eq]
    | split
    | dsimp only
theorem levelPins_pwr (d : Dev) (c : Nat) : (levelPins d c).pwr = d.pwr := by
  unfold levelPins
  repeat' first
    | with_reducible rfl
    | intro _
    | exact True.intro
    | (with_reducible refine Kept.same ?_; (try dsimp only); with_reducible refine Kept.of ?_)
    | simp -implicitDefEqProofs only [drivePin_pwr, apply_ite Dev.pwr, apply_ite Prod.fst, ite_self, id_eq]
    | rw [each_pwr]
    | split
    | dsimp only
theorem capIdle_pwr (d : Dev) (c : Nat) : (capIdle d c).pwr = d.pwr := by
  unfold capIdle
  repeat' first
    | with_reducible rfl
    | intro _
    | exact True.intro
    | (with_reducible refine Kept.same ?_; (try dsimp only); with_reducible refine Kept.of ?_)
    | simp -implicitDefEqProofs only [levelPins_pwr, modChan_pwr, p_pwr, apply_ite Dev.pwr, apply_ite Prod.fst, ite_self, id_eq]
    | rw [each_pwr]
    | split
    | dsimp only
theorem trig_pwr (d : Dev) (c : Nat) : (trig d c).pwr = d.pwr := by
  unfold trig
  repeat' first
    | with_reducible rfl
    | intro _
    | exact True.intro
    | (with_reducible refine Kept.same ?_; (try dsimp only); with_reducible refine Kept.of ?_)
    | simp -implicitDefEqProofs only [add_pwr, levelPins_pwr, modChan_pwr, p_pwr, apply_ite Dev.pwr, apply_ite Prod.fst, ite_self, id_eq]
    | rw [each_pwr]
    | split
    | dsimp only
theorem capDone_pwr (d : Dev) (c : Nat) : (capDone d c).pwr = d.pwr := by
  unfold capDone
  repeat' first
    | with_reducible rfl
    | simp -implicitDefEqProofs only [add_pwr, irq_pwr, on_pwr, apply_ite Dev.pwr, apply_ite Prod.fst, ite_self, id_eq]
    | split
    | dsimp only
theorem capFinish_pwr (d : Dev) (c : Nat) : (capFinish d c).pwr = d.pwr := by
  unfold capFinish
  repeat' first
    | with_reducible rfl
    | simp -implicitDefEqProofs only [capDone_pwr, capIdle_pwr, levelPins_pwr, p_pwr, apply_ite Dev.pwr, apply_ite Prod.fst, ite_self, id_eq]
    | split
    | dsimp only
theorem chanComplete_pwr (d : Dev) (ch : Nat) : (chanComplete d ch).pwr = d.pwr := by
  simp only [chanComplete, capFinish_pwr, writeEntry_pwr, modChan_pwr, cutBlock_pwr]
theorem capEvent_pwr (d : Dev) (k x : Nat) : (capEvent d k x).pwr = d.pwr := by
  unfold capEvent
  repeat' first
    | with_reducible rfl
    | intro _
    | exact True.intro
    | (with_reducible refine Kept.same ?_; (try dsimp only); with_reducible refine Kept.of ?_)
    | simp -implicitDefEqProofs only [capBytes_pwr, capLost_pwr, setChan_pwr, apply_ite Dev.pwr, apply_ite Prod.fst, ite_self, id_eq]
    | rw [each_pwr]
    | split
    | dsimp only
theorem capWord_pwr (d : Dev) (n t w v cyc : Nat) (wide : Bool) : (capWord d n t w v cyc wide).pwr = d.pwr := by
  unfold capWord
  repeat' first
    | with_reducible rfl
    | intro _
    | exact True.intro
    | (with_reducible refine Kept.same ?_; (try dsimp only); with_reducible refine Kept.of ?_)
    | simp -implicitDefEqProofs only [capBytes_pwr, modChan_pwr, apply_ite Dev.pwr, apply_ite Prod.fst, ite_self, id_eq]
    | rw [each_pwr]
    | split
    | dsimp only
theorem capDiscont_pwr (d : Dev) (kind : Nat) : (capDiscont d kind).pwr = d.pwr := by
  unfold capDiscont
  repeat' first
    | with_reducible rfl
    | intro _
    | exact True.intro
    | (with_reducible refine Kept.same ?_; (try dsimp only); with_reducible refine Kept.of ?_)
    | simp -implicitDefEqProofs only [modChan_pwr]
    | rw [each_pwr]
    | split
    | dsimp only
theorem setChanOwner_pwr (d : Dev) (ch owner : Nat) : (setChanOwner d ch owner).pwr = d.pwr := by
  unfold setChanOwner
  repeat' first
    | with_reducible rfl
    | simp -implicitDefEqProofs only [modChan_pwr, p_pwr, apply_ite Dev.pwr, apply_ite Prod.fst, ite_self, id_eq]
    | split
    | dsimp only
theorem traceIrq_pwr (d : Dev) (s : Nat) : (traceIrq d s).pwr = d.pwr := by
  unfold traceIrq
  repeat' first
    | with_reducible rfl
    | simp -implicitDefEqProofs only [irq_pwr, apply_ite Dev.pwr, apply_ite Prod.fst, ite_self, id_eq]
    | split
    | dsimp only
theorem noteLoss_pwr (d : Dev) (s : Nat) : (noteLoss d s).pwr = d.pwr := by
  unfold noteLoss
  repeat' first
    | with_reducible rfl
    | simp -implicitDefEqProofs only [modStrm_pwr, apply_ite Dev.pwr, apply_ite Prod.fst, ite_self, id_eq]
    | split
    | dsimp only
theorem loseBlock_pwr (d : Dev) (s cls : Nat) (recs : List (List Byte)) : (loseBlock d s cls recs).pwr = d.pwr := by
  unfold loseBlock
  repeat' first
    | with_reducible rfl
    | intro _
    | exact True.intro
    | (with_reducible refine Kept.same ?_; (try dsimp only); with_reducible refine Kept.of ?_)
    | simp -implicitDefEqProofs only [add_pwr, noteLoss_pwr, raise_pwr, traceIrq_pwr, apply_ite Dev.pwr, apply_ite Prod.fst, ite_self, id_eq]
    | rw [each_pwr]
    | split
    | dsimp only
theorem acceptBlock_pwr (d : Dev) (s cls first : Nat) (recs : List (List Byte)) : (acceptBlock d s cls first recs).pwr = d.pwr := by
  unfold acceptBlock
  repeat' first
    | with_reducible rfl
    | simp -implicitDefEqProofs only [loseBlock_pwr, setStrm_pwr, apply_ite Dev.pwr, apply_ite Prod.fst, ite_self, id_eq]
    | split
    | dsimp only
theorem closeBlock_pwr (d : Dev) (s : Nat) : (closeBlock d s).pwr = d.pwr := by
  unfold closeBlock
  repeat' first
    | with_reducible rfl
    | simp -implicitDefEqProofs only [acceptBlock_pwr, loseBlock_pwr, modStrm_pwr, setStrm_pwr, tick_pwr, apply_ite Dev.pwr, apply_ite Prod.fst, ite_self, id_eq]
    | split
    | dsimp only
theorem putRec_pwr (d : Dev) (s cls : Nat) (r : List Byte) : (putRec d s cls r).pwr = d.pwr := by
  unfold putRec
  repeat' first
    | with_reducible rfl
    | simp -implicitDefEqProofs only [closeBlock_pwr, setStrm_pwr, apply_ite Dev.pwr, apply_ite Prod.fst, ite_self, id_eq]
    | split
    | dsimp only
theorem beginAfterLoss_pwr (d : Dev) (s : Nat) : (beginAfterLoss d s).pwr = d.pwr := by
  unfold beginAfterLoss
  repeat' first
    | with_reducible rfl
    | simp -implicitDefEqProofs only [setStrm_pwr, tick_pwr]
    | split
    | dsimp only
theorem addRec_pwr (d : Dev) (s cls : Nat) (r : List Byte) : (addRec d s cls r).pwr = d.pwr := by
  unfold addRec
  repeat' first
    | with_reducible rfl
    | simp -implicitDefEqProofs only [beginAfterLoss_pwr, closeBlock_pwr, putRec_pwr, apply_ite Dev.pwr, apply_ite Prod.fst, ite_self, id_eq]
    | split
    | dsimp only
theorem flushRepeat_pwr (d : Dev) (s : Nat) : (flushRepeat d s).pwr = d.pwr := by
  unfold flushRepeat
  repeat' first
    | with_reducible rfl
    | simp -implicitDefEqProofs only [addRec_pwr, setStrm_pwr, apply_ite Dev.pwr, apply_ite Prod.fst, ite_self, id_eq]
    | split
    | dsimp only
theorem addSync_pwr (d : Dev) (s : Nat) : (addSync d s).pwr = d.pwr := by
  unfold addSync
  repeat' first
    | with_reducible rfl
    | simp -implicitDefEqProofs only [addRec_pwr, flushRepeat_pwr, tick_pwr]
    | split
    | dsimp only
theorem setOn_pwr (d : Dev) (s : Nat) (v : Bool) : (setOn d s v).pwr = d.pwr := by
  unfold setOn
  repeat' first
    | with_reducible rfl
    | simp -implicitDefEqProofs only [flushRepeat_pwr, p_pwr, apply_ite Dev.pwr, apply_ite Prod.fst, ite_self, id_eq]
    | split
    | dsimp only
theorem stopStream_pwr (d : Dev) (s : Nat) : (stopStream d s).pwr = d.pwr := by
  unfold stopStream
  repeat' first
    | with_reducible rfl
    | simp -implicitDefEqProofs only [closeBlock_pwr, modStrm_pwr, setOn_pwr]
    | split
    | dsimp only
theorem addMark_pwr (d : Dev) (s how before after v : Nat) : (addMark d s how before after v).pwr = d.pwr := by
  unfold addMark
  repeat' first
    | with_reducible rfl
    | simp -implicitDefEqProofs only [addRec_pwr, tick_pwr]
    | split
    | dsimp only
theorem fireSlot_pwr (d : Dev) (s j t : Nat) : (fireSlot d s j t).pwr = d.pwr := by
  unfold fireSlot
  repeat' first
    | with_reducible rfl
    | simp -implicitDefEqProofs only [addMark_pwr, p_pwr, setOn_pwr, apply_ite Dev.pwr, apply_ite Prod.fst, ite_self, id_eq]
    | split
    | dsimp only
theorem countHits_pwr (d : Dev) (s : Nat) (hits : List Nat) : (countHits d s hits).pwr = d.pwr := by
  unfold countHits
  repeat' first
    | with_reducible rfl
    | simp -implicitDefEqProofs only [add_pwr, apply_ite Dev.pwr, apply_ite Prod.fst, ite_self, id_eq]
    | split
    | dsimp only
theorem runMachine_pwr (d : Dev) (s : Nat) (hits : List Nat) : (runMachine d s hits).pwr = d.pwr := by
  unfold runMachine
  repeat' first
    | with_reducible rfl
    | simp -implicitDefEqProofs only [countHits_pwr, fireSlot_pwr, apply_ite Dev.pwr, apply_ite Prod.fst, ite_self, id_eq]
    | split
    | dsimp only
theorem runMachines_pwr (d : Dev) : (runMachines d).pwr = d.pwr := by
  unfold runMachines
  repeat' first
    | with_reducible rfl
    | intro _
    | exact True.intro
    | (with_reducible refine Kept.same ?_; (try dsimp only); with_reducible refine Kept.of ?_)
    | simp -implicitDefEqProofs only [runMachine_pwr]
    | rw [each_pwr]
    | split
    | dsimp only
theorem endMachines_pwr (d : Dev) : (endMachines d).pwr = d.pwr := by
  unfold endMachines
  repeat' first
    | with_reducible rfl
    | simp -implicitDefEqProofs only [ite_self]
    | split
    | dsimp only
theorem countCycle_pwr (d : Dev) (i : Nat) : (countCycle d i).pwr = d.pwr := by
  unfold countCycle
  repeat' first
    | with_reducible rfl
    | simp -implicitDefEqProofs only [add_pwr, apply_ite Dev.pwr, apply_ite Prod.fst, ite_self, id_eq]
    | split
    | dsimp only
theorem addData_pwr (d : Dev) (s n cyc : Nat) (taps : List Tap) : (addData d s n cyc taps).pwr = d.pwr := by
  unfold addData
  repeat' first
    | with_reducible rfl
    | intro _
    | exact True.intro
    | (with_reducible refine Kept.same ?_; (try dsimp only); with_reducible refine Kept.of ?_)
    | simp -implicitDefEqProofs only [addRec_pwr, apply_ite Dev.pwr, apply_ite Prod.fst, ite_self, id_eq]
    | rw [each_pwr]
    | split
    | dsimp only
theorem addCycle_pwr (d : Dev) (s passes steps es segs flags cyc etime : Nat) : (addCycle d s passes steps es segs flags cyc etime).pwr = d.pwr := by
  unfold addCycle
  repeat' first
    | with_reducible rfl
    | simp -implicitDefEqProofs only [addRec_pwr, flushRepeat_pwr, modStrm_pwr, setStrm_pwr, apply_ite Dev.pwr, apply_ite Prod.fst, ite_self, id_eq]
    | split
    | dsimp only
theorem setAuthMode_pwr (d : Dev) : (setAuthMode d).pwr = d.pwr := by
  unfold setAuthMode
  repeat' first
    | with_reducible rfl
    | simp -implicitDefEqProofs only [p_pwr]
    | split
    | dsimp only
theorem traceCycle_pwr (d : Dev) (i passes steps es segs flags : Nat) (taps : List Tap) : (traceCycle d i passes steps es segs flags taps).pwr = d.pwr := by
  unfold traceCycle
  repeat' first
    | with_reducible rfl
    | intro _
    | exact True.intro
    | (with_reducible refine Kept.same ?_; (try dsimp only); with_reducible refine Kept.of ?_)
    | simp -implicitDefEqProofs only [addCycle_pwr, addData_pwr, apply_ite Dev.pwr, apply_ite Prod.fst, ite_self, id_eq]
    | rw [each_pwr]
    | split
    | dsimp only
theorem denySources_pwr (d : Dev) (s : Nat) (mark : Fld) : (denySources d s mark).pwr = d.pwr := by
  unfold denySources
  repeat' first
    | with_reducible rfl
    | intro _
    | exact True.intro
    | (with_reducible refine Kept.same ?_; (try dsimp only); with_reducible refine Kept.of ?_)
    | simp -implicitDefEqProofs only [on_pwr, p_pwr, apply_ite Dev.pwr, apply_ite Prod.fst, ite_self, id_eq]
    | rw [each_pwr]
    | split
    | dsimp only
theorem applyRights_pwr (d : Dev) : (applyRights d).pwr = d.pwr := by
  unfold applyRights
  repeat' first
    | with_reducible rfl
    | intro _
    | exact True.intro
    | (with_reducible refine Kept.same ?_; (try dsimp only); with_reducible refine Kept.of ?_)
    | simp -implicitDefEqProofs only [denySources_pwr, on_pwr, setAuthMode_pwr, stopStream_pwr, traceIrq_pwr, apply_ite Dev.pwr, apply_ite Prod.fst, ite_self, id_eq]
    | rw [each_pwr]
    | split
    | dsimp only
theorem endToken_pwr (d : Dev) : (endToken d).pwr = d.pwr := by
  unfold endToken
  repeat' first
    | with_reducible rfl
    | simp -implicitDefEqProofs only [applyRights_pwr, p_pwr]
    | split
    | dsimp only
theorem enableStream_pwr (d : Dev) (s : Nat) : (enableStream d s).pwr = d.pwr := by
  unfold enableStream
  repeat' first
    | with_reducible rfl
    | simp -implicitDefEqProofs only [addSync_pwr, denySources_pwr, on_pwr, p_pwr, setStrm_pwr, apply_ite Dev.pwr, apply_ite Prod.fst, ite_self, id_eq]
    | split
    | dsimp only
theorem disableStream_pwr (d : Dev) (s : Nat) : (disableStream d s).pwr = d.pwr := by
  unfold disableStream
  repeat' first
    | with_reducible rfl
    | simp -implicitDefEqProofs only [p_pwr, stopStream_pwr, apply_ite Dev.pwr, apply_ite Prod.fst, ite_self, id_eq]
    | split
    | dsimp only
theorem traceWarden_pwr (d : Dev) : (traceWarden d).pwr = d.pwr := by
  unfold traceWarden
  repeat' first
    | with_reducible rfl
    | simp -implicitDefEqProofs only [addRec_pwr, apply_ite Dev.pwr, apply_ite Prod.fst, ite_self, id_eq]
    | split
    | dsimp only
theorem tracePup_pwr (d : Dev) (c kind : Nat) : (tracePup d c kind).pwr = d.pwr := by
  unfold tracePup
  repeat' first
    | with_reducible rfl
    | simp -implicitDefEqProofs only [addRec_pwr, tick_pwr, apply_ite Dev.pwr, apply_ite Prod.fst, ite_self, id_eq]
    | split
    | dsimp only
theorem pupStep_pwr (d : Dev) : (pupStep d).pwr = d.pwr := by
  unfold pupStep
  repeat' first
    | with_reducible rfl
    | intro _
    | exact True.intro
    | (with_reducible refine Kept.same ?_; (try dsimp only); with_reducible refine Kept.of ?_)
    | simp -implicitDefEqProofs only [tracePup_pwr, apply_ite Dev.pwr, apply_ite Prod.fst, ite_self, id_eq]
    | rw [each_pwr]
    | split
    | dsimp only
theorem traceProbe_pwr (d : Dev) (devlvl : Bool) (r : List Byte) : (traceProbe d devlvl r).pwr = d.pwr := by
  unfold traceProbe
  repeat' first
    | with_reducible rfl
    | simp -implicitDefEqProofs only [addRec_pwr, apply_ite Dev.pwr, apply_ite Prod.fst, ite_self, id_eq]
    | split
    | dsimp only
theorem discont_pwr (d : Dev) (kind : Nat) : (discont d kind).pwr = d.pwr := by
  unfold discont
  repeat' first
    | with_reducible rfl
    | intro _
    | exact True.intro
    | (with_reducible refine Kept.same ?_; (try dsimp only); with_reducible refine Kept.of ?_)
    | simp -implicitDefEqProofs only [addRec_pwr, addSync_pwr, capDiscont_pwr, flushRepeat_pwr, raise_pwr, apply_ite Dev.pwr, apply_ite Prod.fst, ite_self, id_eq]
    | rw [each_pwr]
    | split
    | dsimp only
theorem addActs_pwr (d : Dev) (owner bits : Nat) : (addActs d owner bits).pwr = d.pwr := by
  unfold addActs
  repeat' first
    | with_reducible rfl
    | simp -implicitDefEqProofs only [apply_ite Dev.pwr, apply_ite Prod.fst, ite_self, id_eq]
    | split
    | dsimp only
theorem runSequencer_pwr (d : Dev) (hits : List Nat) : (runSequencer d hits).pwr = d.pwr := by
  unfold runSequencer
  repeat' first
    | with_reducible rfl
    | simp -implicitDefEqProofs only [addActs_pwr, irq_pwr, on_pwr, p_pwr, apply_ite Dev.pwr, apply_ite Prod.fst, ite_self, id_eq]
    | split
    | dsimp only
theorem stopPulse_pwr (d : Dev) (j : Nat) : (stopPulse d j).pwr = d.pwr := by
  unfold stopPulse
  repeat' first
    | with_reducible rfl
    | simp -implicitDefEqProofs only [ite_self]
    | split
    | dsimp only
theorem pulsePins_pwr (d : Dev) (owner : Nat) : (pulsePins d owner).pwr = d.pwr := by
  unfold pulsePins
  repeat' first
    | with_reducible rfl
    | intro _
    | exact True.intro
    | (with_reducible refine Kept.same ?_; (try dsimp only); with_reducible refine Kept.of ?_)
    | simp -implicitDefEqProofs only [drivePin_pwr, apply_ite Dev.pwr, apply_ite Prod.fst, ite_self, id_eq]
    | rw [each_pwr]
    | split
    | dsimp only
theorem freezeAction_pwr (d : Dev) (owner : Nat) : (freezeAction d owner).pwr = d.pwr := by
  unfold freezeAction
  repeat' first
    | with_reducible rfl
    | intro _
    | exact True.intro
    | (with_reducible refine Kept.same ?_; (try dsimp only); with_reducible refine Kept.of ?_)
    | simp -implicitDefEqProofs only [freezeReq_pwr, raiseSysFreeze_pwr, apply_ite Dev.pwr, apply_ite Prod.fst, ite_self, id_eq]
    | rw [each_pwr]
    | split
    | dsimp only
theorem doAct_pwr (d : Dev) (owner bit : Nat) : (doAct d owner bit).pwr = d.pwr := by
  unfold doAct
  repeat' first
    | with_reducible rfl
    | simp -implicitDefEqProofs only [freezeAction_pwr, pulsePins_pwr, strobeReq_pwr, trig_pwr, apply_ite Dev.pwr, apply_ite Prod.fst, ite_self, id_eq]
    | split
    | dsimp only
theorem issueActs_pwr (d : Dev) : (issueActs d).pwr = d.pwr := by
  unfold issueActs
  repeat' first
    | with_reducible rfl
    | intro _
    | exact True.intro
    | (with_reducible refine Kept.same ?_; (try dsimp only); with_reducible refine Kept.of ?_)
    | simp -implicitDefEqProofs only [doAct_pwr, apply_ite Dev.pwr, apply_ite Prod.fst, ite_self, id_eq]
    | rw [each_pwr]
    | split
    | dsimp only
theorem runEvents_pwr (m : Nat) (d : Dev) : (runEvents m d).pwr = d.pwr := by
  induction m generalizing d with
  | zero => rfl
  | succ m ih =>
    unfold runEvents; dsimp only; split
    · rfl
    · rw [ih, logEvent_pwr]; split
      · rfl
      · rw [offer_pwr, countEvent_pwr]
theorem runHits_pwr (d : Dev) : (runHits d).pwr = d.pwr := by
  unfold runHits
  repeat' first
    | with_reducible rfl
    | intro _
    | exact True.intro
    | (with_reducible refine Kept.same ?_; (try dsimp only); with_reducible refine Kept.of ?_)
    | simp -implicitDefEqProofs only [addActs_pwr, capEvent_pwr, issueActs_pwr, runMachines_pwr, runSequencer_pwr, apply_ite Dev.pwr, apply_ite Prod.fst, ite_self, id_eq]
    | rw [each_pwr]
    | split
    | dsimp only
theorem settleAll_pwr (m : Nat) (d : Dev) : (settleAll m d).pwr = d.pwr := by
  induction m generalizing d with
  | zero => rfl
  | succ m ih =>
    unfold settleAll; dsimp only; split
    · rw [endMachines_pwr, capFlush_pwr, runHits_pwr, runEvents_pwr]
    · rw [ih, endMachines_pwr, capFlush_pwr, runHits_pwr, runEvents_pwr]
theorem stepEnd_pwr (d : Dev) : (stepEnd d).pwr = d.pwr := by
  unfold stepEnd
  repeat' first
    | with_reducible rfl
    | simp -implicitDefEqProofs only [settleAll_pwr]
    | split
    | dsimp only
theorem finish_pwr (d : Dev) : (finish d).pwr = d.pwr := by
  unfold finish
  repeat' first
    | with_reducible rfl
    | simp -implicitDefEqProofs only [capDark_pwr, sendAnswers_pwr, serveHeld_pwr, settleAll_pwr]
    | split
    | dsimp only
theorem doArm_pwr (d : Dev) : (doArm d).pwr = d.pwr := by
  unfold doArm
  repeat' first
    | with_reducible rfl
    | simp -implicitDefEqProofs only [on_pwr, p_pwr, apply_ite Dev.pwr, apply_ite Prod.fst, ite_self, id_eq]
    | split
    | dsimp only
theorem doDisarm_pwr (d : Dev) : (doDisarm d).pwr = d.pwr := by
  unfold doDisarm
  repeat' first
    | with_reducible rfl
    | simp -implicitDefEqProofs only [p_pwr]
    | split
    | dsimp only
theorem doTriggerLevelTimeout_pwr (d : Dev) : (doTriggerLevelTimeout d).pwr = d.pwr := by
  unfold doTriggerLevelTimeout
  repeat' first
    | with_reducible rfl
    | simp -implicitDefEqProofs only [p_pwr, apply_ite Dev.pwr, apply_ite Prod.fst, ite_self, id_eq]
    | split
    | dsimp only
theorem doTrigPinEdge_pwr (d : Dev) (j : Nat) (rising : Bool) : (doTrigPinEdge d j rising).pwr = d.pwr := by
  unfold doTrigPinEdge
  repeat' first
    | with_reducible rfl
    | simp -implicitDefEqProofs only [offer_pwr, p_pwr, apply_ite Dev.pwr, apply_ite Prod.fst, ite_self, id_eq]
    | split
    | dsimp only
theorem doPinPulseEnd_pwr (d : Dev) (j : Nat) : (doPinPulseEnd d j).pwr = d.pwr := by
  unfold doPinPulseEnd
  repeat' first
    | with_reducible rfl
    | simp -implicitDefEqProofs only [drivePin_pwr, stopPulse_pwr, apply_ite Dev.pwr, apply_ite Prod.fst, ite_self, id_eq]
    | split
    | dsimp only
theorem doTraceStreamEnable_pwr (d : Dev) (t : Nat) : (doTraceStreamEnable d t).pwr = d.pwr := by
  unfold doTraceStreamEnable
  repeat' first
    | with_reducible rfl
    | simp -implicitDefEqProofs only [enableStream_pwr]
    | split
    | dsimp only
theorem doTraceCounterLimit_pwr (d : Dev) (t : Nat) : (doTraceCounterLimit d t).pwr = d.pwr := by
  unfold doTraceCounterLimit
  repeat' first
    | with_reducible rfl
    | simp -implicitDefEqProofs only [p_pwr, apply_ite Dev.pwr, apply_ite Prod.fst, ite_self, id_eq]
    | split
    | dsimp only
theorem doMark_pwr (d : Dev) (t : Nat) (v : BitVec 16) : (doMark d t v).pwr = d.pwr := by
  unfold doMark
  repeat' first
    | with_reducible rfl
    | simp -implicitDefEqProofs only [addMark_pwr, runMachine_pwr]
    | split
    | dsimp only
theorem doTraceBlockTimeout_pwr (d : Dev) (t : Nat) : (doTraceBlockTimeout d t).pwr = d.pwr := by
  unfold doTraceBlockTimeout
  repeat' first
    | with_reducible rfl
    | simp -implicitDefEqProofs only [closeBlock_pwr]
    | split
    | dsimp only
theorem doTraceSyncTimer_pwr (d : Dev) (t : Nat) : (doTraceSyncTimer d t).pwr = d.pwr := by
  unfold doTraceSyncTimer
  repeat' first
    | with_reducible rfl
    | simp -implicitDefEqProofs only [addSync_pwr, apply_ite Dev.pwr, apply_ite Prod.fst, ite_self, id_eq]
    | split
    | dsimp only
theorem doTokenRevoke_pwr (d : Dev) (tag : Byte) : (doTokenRevoke d tag).pwr = d.pwr := by
  unfold doTokenRevoke
  repeat' first
    | with_reducible rfl
    | simp -implicitDefEqProofs only [answer_pwr, endToken_pwr, takeService_pwr, apply_ite Dev.pwr, apply_ite Prod.fst, ite_self, id_eq]
    | split
    | dsimp only
theorem doTokenExpire_pwr (d : Dev) : (doTokenExpire d).pwr = d.pwr := by
  unfold doTokenExpire
  repeat' first
    | with_reducible rfl
    | simp -implicitDefEqProofs only [endToken_pwr, apply_ite Dev.pwr, apply_ite Prod.fst, ite_self, id_eq]
    | split
    | dsimp only
theorem doAuthDisable_pwr (d : Dev) : (doAuthDisable d).pwr = d.pwr := by
  unfold doAuthDisable
  repeat' first
    | with_reducible rfl
    | simp -implicitDefEqProofs only [endToken_pwr, on_pwr]
    | split
    | dsimp only
theorem doTokenChallenge_pwr (d : Dev) (tag : Byte) : (doTokenChallenge d tag).pwr = d.pwr := by
  unfold doTokenChallenge
  repeat' first
    | with_reducible rfl
    | simp -implicitDefEqProofs only [answer_pwr, takeService_pwr, tick_pwr, apply_ite Dev.pwr, apply_ite Prod.fst, ite_self, id_eq]
    | split
    | dsimp only
end Sys2Proof.Machine.Dev
end

