-- ==== Sys2Proof/Laws/KeepPower2.lean ====
section
/-! SUPPORT. The power state is left as it was by the sequencer and the execution of a step: one lemma for each function. -/

set_option linter.all false

namespace Sys2Proof.Machine.Dev

set_option Elab.async false

theorem setBp_pwr (d : Dev) (k : Nat) (v : Ecc 80) : (setBp d k v).pwr = d.pwr := by
  unfold setBp
  repeat' first
    | with_reducible rfl
    | simp -implicitDefEqProofs only [ite_self]
    | split
    | dsimp only
theorem setWa_pwr (d : Dev) (k : Nat) (v : Ecc 96) : (setWa d k v).pwr = d.pwr := by
  unfold setWa
  repeat' first
    | with_reducible rfl
    | simp -implicitDefEqProofs only [ite_self]
    | split
    | dsimp only
theorem setPort_pwr (d : Dev) (k : Nat) (v : ParW 16) : (setPort d k v).pwr = d.pwr := by
  unfold setPort
  repeat' first
    | with_reducible rfl
    | simp -implicitDefEqProofs only [ite_self]
    | split
    | dsimp only
theorem setMesh_pwr (d : Dev) (k : Nat) (v : ParW 32) : (setMesh d k v).pwr = d.pwr := by
  unfold setMesh
  repeat' first
    | with_reducible rfl
    | simp -implicitDefEqProofs only [ite_self]
    | split
    | dsimp only
theorem setRow_pwr (d : Dev) (k : Nat) (v : Ecc 96) : (setRow d k v).pwr = d.pwr := by
  unfold setRow
  repeat' first
    | with_reducible rfl
    | simp -implicitDefEqProofs only [ite_self]
    | split
    | dsimp only
theorem cluIrq_pwr (d : Dev) (n i last : Nat) : (cluIrq d n i last).pwr = d.pwr := by
  unfold cluIrq
  repeat' first
    | with_reducible rfl
    | simp -implicitDefEqProofs only [irq_pwr, raise_pwr, apply_ite Dev.pwr, apply_ite Prod.fst, ite_self, id_eq]
    | split
    | dsimp only
theorem recordBp_pwr (d : Dev) (n k syn : Nat) (ue : Bool) : (recordBp d n k syn ue).pwr = d.pwr := by
  unfold recordBp
  repeat' first
    | with_reducible rfl
    | simp -implicitDefEqProofs only [on_pwr, p_pwr]
    | split
    | dsimp only
theorem recordWa_pwr (d : Dev) (n k syn : Nat) (ue : Bool) : (recordWa d n k syn ue).pwr = d.pwr := by
  unfold recordWa
  repeat' first
    | with_reducible rfl
    | simp -implicitDefEqProofs only [on_pwr, p_pwr]
    | split
    | dsimp only
theorem raiseUpset_pwr (d : Dev) (n : Nat) (w : WordLoc) (fetch : Bool) : (raiseUpset d n w fetch).pwr = d.pwr := by
  unfold raiseUpset
  repeat' first
    | with_reducible rfl
    | simp -implicitDefEqProofs only [ite_self]
    | split
    | dsimp only
theorem metAgain_pwr (d : Dev) (n : Nat) (w : WordLoc) (fetch : Bool) : (metAgain d n w fetch).pwr = d.pwr := by
  unfold metAgain
  repeat' first
    | with_reducible rfl
    | simp -implicitDefEqProofs only [raiseUpset_pwr, apply_ite Dev.pwr, apply_ite Prod.fst, ite_self, id_eq]
    | split
    | dsimp only
theorem freezeOwner_pwr (d : Dev) (n cause : Nat) : (freezeOwner d n cause).pwr = d.pwr := by
  unfold freezeOwner
  repeat' first
    | with_reducible rfl
    | simp -implicitDefEqProofs only [freezeReq_pwr, apply_ite Dev.pwr, apply_ite Prod.fst, ite_self, id_eq]
    | split
    | dsimp only
theorem fetchBp_pwr (d : Dev) (n k : Nat) (fetch : Bool) : (fetchBp d n k fetch).1.pwr = d.pwr := by
  unfold fetchBp
  repeat' first
    | with_reducible rfl
    | simp -implicitDefEqProofs only [add_pwr, cluIrq_pwr, freezeOwner_pwr, metAgain_pwr, modClu_pwr, on_pwr, raiseUpset_pwr, recordBp_pwr, apply_ite Dev.pwr, apply_ite Prod.fst, ite_self, id_eq]
    | split
    | dsimp only
theorem fetchWa_pwr (d : Dev) (n k : Nat) (fetch : Bool) : (fetchWa d n k fetch).1.pwr = d.pwr := by
  unfold fetchWa
  repeat' first
    | with_reducible rfl
    | simp -implicitDefEqProofs only [add_pwr, cluIrq_pwr, freezeOwner_pwr, metAgain_pwr, modClu_pwr, on_pwr, raiseUpset_pwr, recordWa_pwr, apply_ite Dev.pwr, apply_ite Prod.fst, ite_self, id_eq]
    | split
    | dsimp only
theorem parityError_pwr (d : Dev) (n addr tile port : Nat) (mesh : Bool) : (parityError d n addr tile port mesh).pwr = d.pwr := by
  unfold parityError
  repeat' first
    | with_reducible rfl
    | simp -implicitDefEqProofs only [add_pwr, cluIrq_pwr, on_pwr, p_pwr]
    | split
    | dsimp only
theorem checkPort_pwr (d : Dev) (n k : Nat) (fetch : Bool) : (checkPort d n k fetch).pwr = d.pwr := by
  unfold checkPort
  repeat' first
    | with_reducible rfl
    | simp -implicitDefEqProofs only [parityError_pwr, raiseUpset_pwr, setPort_pwr, apply_ite Dev.pwr, apply_ite Prod.fst, ite_self, id_eq]
    | split
    | dsimp only
theorem checkMesh_pwr (d : Dev) (n k : Nat) (fetch : Bool) : (checkMesh d n k fetch).pwr = d.pwr := by
  unfold checkMesh
  repeat' first
    | with_reducible rfl
    | simp -implicitDefEqProofs only [parityError_pwr, raiseUpset_pwr, setMesh_pwr, apply_ite Dev.pwr, apply_ite Prod.fst, ite_self, id_eq]
    | split
    | dsimp only
theorem checkFabric_pwr (d : Dev) (n s : Nat) : (checkFabric d n s).pwr = d.pwr := by
  unfold checkFabric
  repeat' first
    | with_reducible rfl
    | intro _
    | exact True.intro
    | (with_reducible refine Kept.same ?_; (try dsimp only); with_reducible refine Kept.of ?_)
    | simp -implicitDefEqProofs only [checkMesh_pwr, checkPort_pwr]
    | rw [each_pwr]
    | split
    | dsimp only
theorem sendSlots_pwr (d : Dev) (i u : Nat) : (sendSlots d i u).pwr = d.pwr := by
  unfold sendSlots
  repeat' first
    | with_reducible rfl
    | intro _
    | exact True.intro
    | (with_reducible refine Kept.same ?_; (try dsimp only); with_reducible refine Kept.of ?_)
    | simp -implicitDefEqProofs only [emit_pwr, setLink_pwr, apply_ite Dev.pwr, apply_ite Prod.fst, ite_self, id_eq]
    | rw [each_pwr]
    | split
    | dsimp only
theorem recordRow_pwr (d : Dev) (n m row : Nat) (ue : Bool) : (recordRow d n m row ue).pwr = d.pwr := by
  unfold recordRow
  repeat' first
    | with_reducible rfl
    | simp -implicitDefEqProofs only [on_pwr, p_pwr]
    | split
    | dsimp only
theorem rowCe_pwr (d : Dev) (n k : Nat) : (rowCe d n k).pwr = d.pwr := by
  unfold rowCe
  repeat' first
    | with_reducible rfl
    | simp -implicitDefEqProofs only [modClu_pwr, recordRow_pwr, apply_ite Dev.pwr, apply_ite Prod.fst, ite_self, id_eq]
    | split
    | dsimp only
theorem rowBackDone_pwr (d : Dev) (n : Nat) : (rowBackDone d n).pwr = d.pwr := by
  unfold rowBackDone
  repeat' first
    | with_reducible rfl
    | simp -implicitDefEqProofs only [add_pwr, cluIrq_pwr]
    | split
    | dsimp only
theorem rowUe_pwr (d : Dev) (n k : Nat) : (rowUe d n k).pwr = d.pwr := by
  unfold rowUe
  repeat' first
    | with_reducible rfl
    | simp -implicitDefEqProofs only [add_pwr, cluIrq_pwr, raiseUpset_pwr, recordRow_pwr]
    | split
    | dsimp only
theorem readRow_pwr (d : Dev) (n k : Nat) : (readRow d n k).1.pwr = d.pwr := by
  unfold readRow
  repeat' first
    | with_reducible rfl
    | simp -implicitDefEqProofs only [rowCe_pwr, rowUe_pwr, apply_ite Dev.pwr, apply_ite Prod.fst, ite_self, id_eq]
    | split
    | dsimp only
theorem mergeEntry_pwr (d : Dev) (n m a v : Nat) : (mergeEntry d n m a v).pwr = d.pwr := by
  unfold mergeEntry
  repeat' first
    | with_reducible rfl
    | simp -implicitDefEqProofs only [modClu_pwr, recordRow_pwr, rowBackDone_pwr, rowUe_pwr, setRow_pwr, apply_ite Dev.pwr, apply_ite Prod.fst, ite_self, id_eq]
    | split
    | dsimp only
theorem landWrites_pwr (d : Dev) (n : Nat) : (landWrites d n).pwr = d.pwr := by
  unfold landWrites
  repeat' first
    | with_reducible rfl
    | intro _
    | exact True.intro
    | (with_reducible refine Kept.same ?_; (try dsimp only); with_reducible refine Kept.of ?_)
    | simp -implicitDefEqProofs only [mergeEntry_pwr, modClu_pwr, apply_ite Dev.pwr, apply_ite Prod.fst, ite_self, id_eq]
    | rw [each_pwr]
    | split
    | dsimp only
theorem doEvent_pwr (d : Dev) (c n m e : Nat) : (doEvent d c n m e).pwr = d.pwr := by
  unfold doEvent
  repeat' first
    | with_reducible rfl
    | simp -implicitDefEqProofs only [modClu_pwr, readRow_pwr, apply_ite Dev.pwr, apply_ite Prod.fst, ite_self, id_eq]
    | split
    | dsimp only
theorem runDmem_pwr (d : Dev) (i c u : Nat) : (runDmem d i c u).pwr = d.pwr := by
  unfold runDmem
  repeat' first
    | with_reducible rfl
    | intro _
    | exact True.intro
    | (with_reducible refine Kept.same ?_; (try dsimp only); with_reducible refine Kept.of ?_)
    | simp -implicitDefEqProofs only [doEvent_pwr, landWrites_pwr, apply_ite Dev.pwr, apply_ite Prod.fst, ite_self, id_eq]
    | rw [each_pwr]
    | split
    | dsimp only
theorem takeReads_pwr (d : Dev) (i c : Nat) : (takeReads d i c).1.pwr = d.pwr := by
  unfold takeReads
  repeat' first
    | with_reducible rfl
    | intro _
    | exact True.intro
    | (with_reducible refine Kept.same ?_; (try dsimp only); with_reducible refine Kept.of ?_)
    | simp -implicitDefEqProofs only [modClu_pwr, apply_ite Dev.pwr, apply_ite Prod.fst, ite_self, id_eq]
    | rw [each_pwr]
    | split
    | dsimp only
theorem setFar_pwr (d : Dev) (n f : Nat) (xs : List FarAcc) : (setFar d n f xs).pwr = d.pwr := by
  unfold setFar
  repeat' first
    | with_reducible rfl
    | simp -implicitDefEqProofs only [modClu_pwr, p_pwr]
    | split
    | dsimp only
theorem farUse_pwr (d : Dev) (n f u : Nat) : (farUse d n f u).1.pwr = d.pwr := by
  unfold farUse
  repeat' first
    | with_reducible rfl
    | simp -implicitDefEqProofs only [setFar_pwr, apply_ite Dev.pwr, apply_ite Prod.fst, ite_self, id_eq]
    | split
    | dsimp only
theorem farReserve_pwr (d : Dev) (n f : Nat) : (farReserve d n f).pwr = d.pwr := by
  unfold farReserve
  repeat' first
    | with_reducible rfl
    | intro _
    | exact True.intro
    | (with_reducible refine Kept.same ?_; (try dsimp only); with_reducible refine Kept.of ?_)
    | simp -implicitDefEqProofs only [addOutst_pwr, setFar_pwr, apply_ite Dev.pwr, apply_ite Prod.fst, ite_self, id_eq]
    | rw [each_pwr]
    | split
    | dsimp only
theorem farIssue_pwr (d : Dev) (i n f u : Nat) : (farIssue d i n f u).pwr = d.pwr := by
  unfold farIssue
  repeat' first
    | with_reducible rfl
    | simp -implicitDefEqProofs only [farReserve_pwr, setFar_pwr, apply_ite Dev.pwr, apply_ite Prod.fst, ite_self, id_eq]
    | split
    | dsimp only
theorem releasePort_pwr (d : Dev) (n x : Nat) : (releasePort d n x).pwr = d.pwr := by
  unfold releasePort
  repeat' first
    | with_reducible rfl
    | simp -implicitDefEqProofs only [modClu_pwr, modQueue_pwr, apply_ite Dev.pwr, apply_ite Prod.fst, ite_self, id_eq]
    | split
    | dsimp only
theorem releasePorts_pwr (d : Dev) (n : Nat) : (releasePorts d n).pwr = d.pwr := by
  unfold releasePorts
  repeat' first
    | with_reducible rfl
    | intro _
    | exact True.intro
    | (with_reducible refine Kept.same ?_; (try dsimp only); with_reducible refine Kept.of ?_)
    | simp -implicitDefEqProofs only [releasePort_pwr]
    | rw [each_pwr]
    | split
    | dsimp only
theorem txpRead_pwr (d : Dev) (n x u : Nat) : (txpRead d n x u).1.pwr = d.pwr := by
  unfold txpRead
  repeat' first
    | with_reducible rfl
    | simp -implicitDefEqProofs only [apply_ite Dev.pwr, apply_ite Prod.fst, ite_self, id_eq]
    | split
    | refine (takeHead_pwr (by assumption)).trans ?_
    | dsimp only
theorem forgetSigs_pwr (d : Dev) (i : Nat) : (forgetSigs d i).pwr = d.pwr := by
  unfold forgetSigs
  repeat' first
    | with_reducible rfl
    | simp -implicitDefEqProofs only [p_pwr, apply_ite Dev.pwr, apply_ite Prod.fst, ite_self, id_eq]
    | split
    | dsimp only
theorem lscSend_pwr (d : Dev) (sig cyc type diag : Nat) : (lscSend d sig cyc type diag).pwr = d.pwr := by
  unfold lscSend
  repeat' first
    | with_reducible rfl
    | intro _
    | exact True.intro
    | (with_reducible refine Kept.same ?_; (try dsimp only); with_reducible refine Kept.of ?_)
    | simp -implicitDefEqProofs only [emit_pwr]
    | rw [iff_pwr]
    | split
    | dsimp only
theorem lscAct_pwr (d : Dev) : (lscAct d).pwr = d.pwr := by
  unfold lscAct
  repeat' first
    | with_reducible rfl
    | simp -implicitDefEqProofs only [freezeReq_pwr, p_pwr, raiseSysFreeze_pwr, scrubRequest_pwr, apply_ite Dev.pwr, apply_ite Prod.fst, ite_self, id_eq]
    | split
    | dsimp only
theorem mismatch_pwr (d : Dev) (cyc mine theirs : Nat) : (mismatch d cyc mine theirs).pwr = d.pwr := by
  unfold mismatch
  repeat' first
    | with_reducible rfl
    | intro _
    | exact True.intro
    | (with_reducible refine Kept.same ?_; (try dsimp only); with_reducible refine Kept.of ?_)
    | simp -implicitDefEqProofs only [add_pwr, irq_pwr, lscAct_pwr, lscSend_pwr, on_pwr, p_pwr, raise_pwr, apply_ite Dev.pwr, apply_ite Prod.fst, ite_self, id_eq]
    | rw [iff_pwr]
    | split
    | dsimp only
theorem compareSigs_pwr (d : Dev) : (compareSigs d).pwr = d.pwr := by
  unfold compareSigs
  repeat' first
    | with_reducible rfl
    | intro _
    | exact True.intro
    | (with_reducible refine Kept.same ?_; (try dsimp only); with_reducible refine Kept.of ?_)
    | simp -implicitDefEqProofs only [mismatch_pwr, p_pwr, apply_ite Dev.pwr, apply_ite Prod.fst, ite_self, id_eq]
    | rw [each_pwr]
    | split
    | dsimp only
theorem sign_pwr (d : Dev) (i : Nat) (taps : List Tap) : (sign d i taps).pwr = d.pwr := by
  unfold sign
  repeat' first
    | with_reducible rfl
    | simp -implicitDefEqProofs only [compareSigs_pwr, lscSend_pwr, apply_ite Dev.pwr, apply_ite Prod.fst, ite_self, id_eq]
    | split
    | dsimp only
theorem doLockstepRecord_pwr (d : Dev) (r : BitVec 128) : (doLockstepRecord d r).pwr = d.pwr := by
  unfold doLockstepRecord
  repeat' first
    | with_reducible rfl
    | simp -implicitDefEqProofs only [compareSigs_pwr, lscAct_pwr, on_pwr, apply_ite Dev.pwr, apply_ite Prod.fst, ite_self, id_eq]
    | split
    | dsimp only
theorem doPartnerTimeout_pwr (d : Dev) : (doPartnerTimeout d).pwr = d.pwr := by
  unfold doPartnerTimeout
  repeat' first
    | with_reducible rfl
    | simp -implicitDefEqProofs only [freezeReq_pwr, irq_pwr, on_pwr, p_pwr, apply_ite Dev.pwr, apply_ite Prod.fst, ite_self, id_eq]
    | split
    | dsimp only
theorem frozenIrq_pwr (d : Dev) (i : Nat) : (frozenIrq d i).pwr = d.pwr := by
  unfold frozenIrq
  repeat' first
    | with_reducible rfl
    | simp -implicitDefEqProofs only [irq_pwr, raise_pwr]
    | split
    | dsimp only
theorem landAll_pwr (d : Dev) (i : Nat) : (landAll d i).pwr = d.pwr := by
  unfold landAll
  repeat' first
    | with_reducible rfl
    | intro _
    | exact True.intro
    | (with_reducible refine Kept.same ?_; (try dsimp only); with_reducible refine Kept.of ?_)
    | simp -implicitDefEqProofs only [landWrites_pwr]
    | rw [each_pwr]
    | split
    | dsimp only
theorem enterFreeze_pwr (d : Dev) (i cause : Nat) : (enterFreeze d i cause).pwr = d.pwr := by
  unfold enterFreeze
  repeat' first
    | with_reducible rfl
    | simp -implicitDefEqProofs only [landAll_pwr, modPtn_pwr, on_pwr, p_pwr]
    | split
    | dsimp only
theorem enterHard_pwr (d : Dev) (i cause : Nat) : (enterHard d i cause).pwr = d.pwr := by
  unfold enterHard
  repeat' first
    | with_reducible rfl
    | simp -implicitDefEqProofs only [frozenIrq_pwr, landAll_pwr, modPtn_pwr, p_pwr]
    | split
    | dsimp only
theorem sampleClocks_pwr (d : Dev) (i : Nat) : (sampleClocks d i).pwr = d.pwr := by
  unfold sampleClocks
  repeat' first
    | with_reducible rfl
    | simp -implicitDefEqProofs only [modPtn_pwr]
    | split
    | dsimp only
theorem dropSamples_pwr (d : Dev) (i : Nat) : (dropSamples d i).pwr = d.pwr := by
  unfold dropSamples
  repeat' first
    | with_reducible rfl
    | simp -implicitDefEqProofs only [modPtn_pwr]
    | split
    | dsimp only
theorem showPosition_pwr (d : Dev) (i : Nat) : (showPosition d i).pwr = d.pwr := by
  unfold showPosition
  repeat' first
    | with_reducible rfl
    | simp -implicitDefEqProofs only [p_pwr, apply_ite Dev.pwr, apply_ite Prod.fst, ite_self, id_eq]
    | split
    | dsimp only
theorem capCycle_pwr (d : Dev) (i cyc : Nat) (taps : List Tap) : (capCycle d i cyc taps).pwr = d.pwr := by
  unfold capCycle
  repeat' first
    | with_reducible rfl
    | intro _
    | exact True.intro
    | (with_reducible refine Kept.same ?_; (try dsimp only); with_reducible refine Kept.of ?_)
    | simp -implicitDefEqProofs only [capBytes_pwr, capLost_pwr, setChan_pwr, apply_ite Dev.pwr, apply_ite Prod.fst, ite_self, id_eq]
    | rw [each_pwr]
    | split
    | with_reducible refine (fst_pwr (fun _ _ => ?_) _ _).trans ?_
    | with_reducible refine (foldl_pwr (fun _ _ => ?_) _ _).trans ?_
    | dsimp only
theorem compareSteps_pwr (d : Dev) (i : Nat) : (compareSteps d i).pwr = d.pwr := by
  unfold compareSteps
  repeat' first
    | with_reducible rfl
    | simp -implicitDefEqProofs only [on_pwr, raiseSysFreeze_pwr, apply_ite Dev.pwr, apply_ite Prod.fst, ite_self, id_eq]
    | split
    | dsimp only
theorem boundary_pwr (d : Dev) (i : Nat) (cascade : Bool) : (d.boundary i cascade).pwr = d.pwr := by
  unfold boundary
  extract_lets b x before d1 d2 flags d3 d4 c e s d5 d6 y limit count due late d7
  have h1 : d1.pwr = d.pwr := by simp -implicitDefEqProofs only [d1, p_pwr]
  have h2 : d2.pwr = d.pwr := by simp -implicitDefEqProofs only [d2, runMachines_pwr, countCycle_pwr, h1]
  have h3 : d3.pwr = d.pwr := (traceCycle_pwr ..).trans h2
  have h4 : d4.pwr = d.pwr := by simp -implicitDefEqProofs only [d4, sign_pwr, capCycle_pwr, h3]
  have he : e.pwr = d.pwr := (controlPtn_pwr ..).trans h4
  clear_value e c
  have h5 : d5.pwr = d.pwr := by
    unfold d5; split
    · rw [compareSteps_pwr]; exact he
    · exact h4
  have h6 : d6.pwr = d.pwr := (raise_pwr ..).trans h5
  have h : d7.pwr = d.pwr := (setPtn_pwr ..).trans h6
  clear_value d7 due late
  split
  · rw [on_pwr, h]
  · split
    · exact h
    · rw [enterFreeze_pwr, h]
theorem dueFreeze_pwr (d : Dev) (i : Nat) : (dueFreeze d i).pwr = d.pwr := by
  unfold dueFreeze
  repeat' first
    | with_reducible rfl
    | simp -implicitDefEqProofs only [enterFreeze_pwr]
    | split
    | dsimp only
theorem commitSet_pwr (d : Dev) (i e : Nat) : (commitSet d i e).pwr = d.pwr := by
  unfold commitSet; dsimp only
  rw [sampleClocks_pwr, modPtn_pwr, setSt_pwr]
theorem advance_pwr (m : Nat) (d : Dev) (i : Nat) : (advance m d i).pwr = d.pwr := by
  induction m generalizing d with
  | zero => rfl
  | succ m ih =>
    unfold advance
    repeat' first
      | with_reducible rfl
      | trivial
      | simp -implicitDefEqProofs only [ih, commitSet_pwr, modPtn_pwr, boundary_pwr, on_pwr, irq_pwr, setPtn_pwr, apply_ite Dev.pwr, ite_self]
      | split
theorem beginInstant_pwr (d : Dev) (i : Nat) : (beginInstant d i).pwr = d.pwr := by
  unfold beginInstant; split
  · rfl
  · dsimp only
    rw [advance_pwr, on_pwr, p_pwr, modPtn_pwr]
    split
    · rw [sampleClocks_pwr, modPtn_pwr, setSt_pwr, tick_pwr]
    · rw [setSt_pwr, tick_pwr]
theorem askHold_pwr (d : Dev) (i e : Nat) : (askHold d i e).pwr = d.pwr := by
  unfold askHold
  repeat' first
    | with_reducible rfl
    | simp -implicitDefEqProofs only [controlPtn_pwr, modPtn_pwr, apply_ite Dev.pwr, apply_ite Prod.fst, ite_self, id_eq]
    | split
    | dsimp only
theorem earlyCheck_pwr (d : Dev) (i : Nat) : (earlyCheck d i).pwr = d.pwr := by
  unfold earlyCheck
  repeat' first
    | with_reducible rfl
    | simp -implicitDefEqProofs only [askHold_pwr, apply_ite Dev.pwr, apply_ite Prod.fst, ite_self, id_eq]
    | split
    | dsimp only
theorem holdReady_pwr (d : Dev) (i e : Nat) : (holdReady d i e).pwr = d.pwr := by
  unfold holdReady
  repeat' first
    | with_reducible rfl
    | simp -implicitDefEqProofs only [controlPtn_pwr, modPtn_pwr, apply_ite Dev.pwr, apply_ite Prod.fst, ite_self, id_eq]
    | split
    | dsimp only
theorem leadGo_pwr (d : Dev) (i e : Nat) : (leadGo d i e).pwr = d.pwr := by
  unfold leadGo
  repeat' first
    | with_reducible rfl
    | simp -implicitDefEqProofs only [controlPtn_pwr, modPtn_pwr, apply_ite Dev.pwr, apply_ite Prod.fst, ite_self, id_eq]
    | split
    | dsimp only
theorem askLag_pwr (d : Dev) (i : Nat) : (askLag d i).pwr = d.pwr := by
  unfold askLag
  repeat' first
    | with_reducible rfl
    | simp -implicitDefEqProofs only [askHold_pwr, apply_ite Dev.pwr, apply_ite Prod.fst, ite_self, id_eq]
    | split
    | dsimp only
theorem forgetSteps_pwr (d : Dev) (i : Nat) : (forgetSteps d i).pwr = d.pwr := by
  unfold forgetSteps
  repeat' first
    | with_reducible rfl
    | simp -implicitDefEqProofs only [ite_self]
    | split
    | dsimp only
theorem holdStep_pwr (d : Dev) (i src : Nat) : (holdStep d i src).pwr = d.pwr := by
  unfold holdStep
  repeat' first
    | with_reducible rfl
    | simp -implicitDefEqProofs only [add_pwr, modPtn_pwr, on_pwr, p_pwr, raise_pwr]
    | split
    | dsimp only
theorem addTap_pwr (d : Dev) (i : Nat) (t : Tap) : (addTap d i t).pwr = d.pwr := by
  unfold addTap
  repeat' first
    | with_reducible rfl
    | simp -implicitDefEqProofs only [modPtn_pwr]
    | split
    | dsimp only
theorem runBps_pwr (d : Dev) (i n u : Nat) : (runBps d i n u).1.pwr = d.pwr := by
  unfold runBps
  repeat' first
    | with_reducible rfl
    | intro _
    | exact True.intro
    | (with_reducible refine Kept.same ?_; (try dsimp only); with_reducible refine Kept.of ?_)
    | simp -implicitDefEqProofs only [addTap_pwr, fetchBp_pwr, offerBp_pwr, apply_ite Dev.pwr, apply_ite Prod.fst, ite_self, id_eq]
    | split
    | with_reducible refine (fst_pwr (fun _ _ => ?_) _ _).trans ?_
    | with_reducible refine (foldl_pwr (fun _ _ => ?_) _ _).trans ?_
    | dsimp only
theorem runWord_pwr (d : Dev) (i n t w u word : Nat) (pair : Bool) : (runWord d i n t w u word pair).1.pwr = d.pwr := by
  unfold runWord
  repeat' first
    | with_reducible rfl
    | simp -implicitDefEqProofs only [addTap_pwr, capWord_pwr, offerWalu_pwr, apply_ite Dev.pwr, apply_ite Prod.fst, ite_self, id_eq]
    | split
    | dsimp only
theorem runWalus_pwr (d : Dev) (i n u : Nat) : (runWalus d i n u).1.pwr = d.pwr := by
  unfold runWalus
  repeat' first
    | with_reducible rfl
    | intro _
    | exact True.intro
    | (with_reducible refine Kept.same ?_; (try dsimp only); with_reducible refine Kept.of ?_)
    | simp -implicitDefEqProofs only [fetchWa_pwr, runWord_pwr, apply_ite Dev.pwr, apply_ite Prod.fst, ite_self, id_eq]
    | split
    | with_reducible refine (fst_pwr (fun _ _ => ?_) _ _).trans ?_
    | with_reducible refine (foldl_pwr (fun _ _ => ?_) _ _).trans ?_
    | dsimp only
theorem runPorts_pwr (d : Dev) (ports : List Nat) (f : Dev → Nat → Dev × List Wr) (h : ∀ e a, Kept (f e a).1 e) :
    (d.runPorts ports f).1.pwr = d.pwr := by
  unfold runPorts
  refine (fst_pwr ?_ ports _).trans rfl
  intro r a; (try dsimp only); exact .of (h r.1 a).eq
theorem runCluster_pwr (d : Dev) (i u n : Nat) : (runCluster d i u n).1.pwr = d.pwr := by
  have h (e : Dev) : (e.runPorts [7, 6, 5, 4, 3, 2, 1, 0] fun d x => d.txpRead n x u).1.pwr = e.pwr := runPorts_pwr _ _ _ fun e a => .of (txpRead_pwr e n a u)
  have g (e : Dev) : (e.runPorts [3, 2, 1, 0] fun d f => d.farUse n f u).1.pwr = e.pwr := runPorts_pwr _ _ _ fun e a => .of (farUse_pwr e n a u)
  unfold runCluster
  repeat' first
    | with_reducible rfl
    | simp -implicitDefEqProofs only [runBps_pwr, runWalus_pwr, takeReads_pwr, runDmem_pwr, h, g]
    | split
theorem txpStore_pwr (d : Dev) (n x : Nat) (q : Nat) (w : QWord) (credit : Bool) : (txpStore d n x q w credit).pwr = d.pwr := by
  unfold txpStore
  repeat' first
    | with_reducible rfl
    | simp -implicitDefEqProofs only [append_pwr, modClu_pwr, apply_ite Dev.pwr, apply_ite Prod.fst, ite_self, id_eq]
    | split
    | dsimp only
theorem executeIndex_pwr (d : Dev) (i u : Nat) : (executeIndex d i u).pwr = d.pwr := by
  have hc (e : Dev) (ns : List Nat) : (e.each ns fun d n => match d.srcOf i n u with | some (m, s) => d.checkFabric m s | none => d).pwr = e.pwr :=
    each_pwr _ _ _ fun e n => .of (by split <;> simp -implicitDefEqProofs only [checkFabric_pwr])
  have hp (e : Dev) (ns : List Nat) : (e.each ns fun d n => if d.portsRun i n u then d.each (List.range 4) fun d f => d.farIssue i n f u else d).pwr = e.pwr :=
    each_pwr _ _ _ fun e n => .of (by
      split
      · exact each_pwr _ _ _ fun e f => .of (farIssue_pwr _ _ _ _ _)
      · rfl)
  have hr (r : Dev × List Wr) (ns : List Nat) : (ns.foldl (fun r n => let a := r.1.runCluster i u n; (a.1, r.2 ++ a.2)) r).1.pwr = r.1.pwr :=
    fst_pwr (f := fun r n => let a := r.1.runCluster i u n; (a.1, r.2 ++ a.2)) (fun r n => .of (runCluster_pwr r.1 i u n)) ns r
  unfold executeIndex
  extract_lets ns e d1 arrive fab d2 txw r d3 e1 d4 d5 d6
  have h1 : d1.pwr = d.pwr := hc _ _
  have h2 : d2.pwr = d.pwr := (sendSlots_pwr _ _ _).trans h1
  have h3 : r.1.pwr = d.pwr := (hr _ _).trans h2
  have h4 : d3.pwr = d.pwr := (hp _ _).trans h3
  have he : e1.pwr = d.pwr := (setSt_pwr _ _).trans ((tick_pwr _).trans h4)
  have h5 : d4.pwr = d.pwr := he
  have h6 : d5.pwr = d.pwr := (each_pwr _ _ _ fun e w => .of (txpStore_pwr _ _ _ _ _ _)).trans h5
  have h7 : d6.pwr = d.pwr := (each_pwr _ _ _ fun e gi => .of (modLink_pwr _ _ _)).trans h6
  exact (modPtn_pwr _ _ _).trans h7
theorem afterStep_pwr (d : Dev) (i seg : Nat) : (afterStep d i seg).pwr = d.pwr := by
  unfold afterStep
  repeat' first
    | with_reducible rfl
    | simp -implicitDefEqProofs only [advance_pwr, landAll_pwr, modPtn_pwr, p_pwr, apply_ite Dev.pwr, apply_ite Prod.fst, ite_self, id_eq]
    | split
    | dsimp only
theorem oneStep_pwr (d : Dev) (i : Nat) : (oneStep d i).pwr = d.pwr := by
  unfold oneStep
  repeat' first
    | with_reducible rfl
    | intro _
    | exact True.intro
    | (with_reducible refine Kept.same ?_; (try dsimp only); with_reducible refine Kept.of ?_)
    | simp -implicitDefEqProofs only [advance_pwr, afterStep_pwr, askHold_pwr, earlyCheck_pwr, executeIndex_pwr, holdReady_pwr, holdStep_pwr, leadGo_pwr, modPtn_pwr, on_pwr, apply_ite Dev.pwr, apply_ite Prod.fst, ite_self, id_eq]
    | rw [iff_pwr]
    | split
    | dsimp only
theorem doExecuteStep_pwr (d : Dev) (i : Nat) : (doExecuteStep d i).pwr = d.pwr := by
  unfold doExecuteStep
  repeat' first
    | with_reducible rfl
    | intro _
    | exact True.intro
    | (with_reducible refine Kept.same ?_; (try dsimp only); with_reducible refine Kept.of ?_)
    | simp -implicitDefEqProofs only [askLag_pwr, beginInstant_pwr, dueFreeze_pwr, enterFreeze_pwr, enterHard_pwr, holdStep_pwr, on_pwr, oneStep_pwr, showPosition_pwr, apply_ite Dev.pwr, apply_ite Prod.fst, ite_self, id_eq]
    | rw [iff_pwr]
    | split
    | dsimp only
theorem cmdErr_pwr (d : Dev) (i code : Nat) : (cmdErr d i code).pwr = d.pwr := by
  unfold cmdErr
  repeat' first
    | with_reducible rfl
    | simp -implicitDefEqProofs only [irq_pwr, p_pwr, apply_ite Dev.pwr, apply_ite Prod.fst, ite_self, id_eq]
    | split
    | dsimp only
theorem startNow_pwr (d : Dev) (i : Nat) : (startNow d i).pwr = d.pwr := by
  unfold startNow
  repeat' first
    | with_reducible rfl
    | intro _
    | exact True.intro
    | (with_reducible refine Kept.same ?_; (try dsimp only); with_reducible refine Kept.of ?_)
    | simp -implicitDefEqProofs only [forgetSigs_pwr, forgetSteps_pwr, modLink_pwr, modPtn_pwr, p_pwr]
    | rw [each_pwr]
    | split
    | dsimp only
theorem resumeNow_pwr (d : Dev) (i : Nat) (cycles steps : Option Nat) : (resumeNow d i cycles steps).pwr = d.pwr := by
  unfold resumeNow
  repeat' first
    | with_reducible rfl
    | simp -implicitDefEqProofs only [modPtn_pwr, p_pwr, apply_ite Dev.pwr, apply_ite Prod.fst, ite_self, id_eq]
    | split
    | dsimp only
theorem stopNow_pwr (d : Dev) (i : Nat) : (stopNow d i).pwr = d.pwr := by
  unfold stopNow
  repeat' first
    | with_reducible rfl
    | intro _
    | exact True.intro
    | (with_reducible refine Kept.same ?_; (try dsimp only); with_reducible refine Kept.of ?_)
    | simp -implicitDefEqProofs only [forgetSigs_pwr, forgetSteps_pwr, irq_pwr, landAll_pwr, modClu_pwr, modPtn_pwr, p_pwr]
    | rw [each_pwr]
    | split
    | dsimp only
theorem commandNow_pwr (d : Dev) (i cmd count : Nat) : (commandNow d i cmd count).pwr = d.pwr := by
  unfold commandNow
  repeat' first
    | with_reducible rfl
    | simp -implicitDefEqProofs only [resumeNow_pwr, startNow_pwr, stopNow_pwr, wakeAll_pwr, apply_ite Dev.pwr, apply_ite Prod.fst, ite_self, id_eq]
    | split
    | dsimp only
theorem issueCommand_pwr (d : Dev) (i cmd : Nat) : (issueCommand d i cmd).pwr = d.pwr := by
  unfold issueCommand
  repeat' first
    | with_reducible rfl
    | simp -implicitDefEqProofs only [commandNow_pwr, controlPtn_pwr, modPtn_pwr, apply_ite Dev.pwr, apply_ite Prod.fst, ite_self, id_eq]
    | split
    | dsimp only
theorem hardReq_pwr (d : Dev) (i : Nat) : (hardReq d i).pwr = d.pwr := by
  unfold hardReq
  repeat' first
    | with_reducible rfl
    | simp -implicitDefEqProofs only [controlPtn_pwr, dueFreeze_pwr, enterHard_pwr, setPtn_pwr, apply_ite Dev.pwr, apply_ite Prod.fst, ite_self, id_eq]
    | split
    | dsimp only
theorem seqCommand_pwr (d : Dev) (i cmd : Nat) : (seqCommand d i cmd).pwr = d.pwr := by
  unfold seqCommand
  repeat' first
    | with_reducible rfl
    | intro _
    | exact True.intro
    | (with_reducible refine Kept.same ?_; (try dsimp only); with_reducible refine Kept.of ?_)
    | simp -implicitDefEqProofs only [cmdErr_pwr, freezeReq_pwr, hardReq_pwr, issueCommand_pwr, tick_pwr, apply_ite Dev.pwr, apply_ite Prod.fst, ite_self, id_eq]
    | rw [iff_pwr]
    | split
    | dsimp only
theorem writeWord_pwr (d : Dev) (base off v : Nat) (fs : List Fld) : (writeWord d base off v fs).pwr = d.pwr := by
  unfold writeWord
  repeat' first
    | with_reducible rfl
    | intro _
    | exact True.intro
    | (with_reducible refine Kept.same ?_; (try dsimp only); with_reducible refine Kept.of ?_)
    | simp -implicitDefEqProofs only [p_pwr, apply_ite Dev.pwr, apply_ite Prod.fst, ite_self, id_eq]
    | rw [each_pwr]
    | split
    | dsimp only
theorem doSeqTableWrite_pwr (d : Dev) (i off : Nat) (v : W32) : (doSeqTableWrite d i off v).pwr = d.pwr := by
  unfold doSeqTableWrite
  repeat' first
    | with_reducible rfl
    | simp -implicitDefEqProofs only [cmdErr_pwr, dropSamples_pwr, writeWord_pwr, apply_ite Dev.pwr, apply_ite Prod.fst, ite_self, id_eq]
    | split
    | dsimp only
theorem doStallRelease_pwr (d : Dev) (i : Nat) : (doStallRelease d i).pwr = d.pwr := by
  unfold doStallRelease
  repeat' first
    | with_reducible rfl
    | simp -implicitDefEqProofs only [doExecuteStep_pwr, apply_ite Dev.pwr, apply_ite Prod.fst, ite_self, id_eq]
    | split
    | dsimp only
theorem doDue_pwr (d : Dev) (i : Nat) (due : Due) : (doDue d i due).pwr = d.pwr := by
  unfold doDue
  repeat' first
    | with_reducible rfl
    | simp -implicitDefEqProofs only [dueFreeze_pwr, apply_ite Dev.pwr, apply_ite Prod.fst, ite_self, id_eq]
    | split
    | dsimp only
theorem doStepStepsCountReached_pwr (d : Dev) (i : Nat) : (doStepStepsCountReached d i).pwr = d.pwr := by
  unfold doStepStepsCountReached
  repeat' first
    | with_reducible rfl
    | simp -implicitDefEqProofs only [doDue_pwr, modPtn_pwr, apply_ite Dev.pwr, apply_ite Prod.fst, ite_self, id_eq]
    | split
    | dsimp only
theorem doFreezeTimeout_pwr (d : Dev) (i : Nat) : (doFreezeTimeout d i).pwr = d.pwr := by
  unfold doFreezeTimeout
  repeat' first
    | with_reducible rfl
    | simp -implicitDefEqProofs only [enterHard_pwr, irq_pwr, on_pwr, apply_ite Dev.pwr, apply_ite Prod.fst, ite_self, id_eq]
    | split
    | dsimp only
theorem passOn_pwr (d : Dev) (i gi kind body : Nat) : (passOn d i gi kind body).pwr = d.pwr := by
  unfold passOn
  repeat' first
    | with_reducible rfl
    | intro _
    | exact True.intro
    | (with_reducible refine Kept.same ?_; (try dsimp only); with_reducible refine Kept.of ?_)
    | simp -implicitDefEqProofs only [control_pwr, apply_ite Dev.pwr, apply_ite Prod.fst, ite_self, id_eq]
    | rw [each_pwr]
    | split
    | dsimp only
theorem linkedMsg_pwr (d : Dev) (gi i : Nat) (intact : Bool) (k : Dev → Dev) (h : ∀ e, Kept (k e) e) : (d.linkedMsg gi i intact k).pwr = d.pwr := by
  unfold linkedMsg
  repeat' first
    | with_reducible rfl
    | exact (h _).eq
    | simp -implicitDefEqProofs only [ctlBad_pwr]
    | split
theorem freezeAtStep_pwr (d : Dev) (i e : Nat) (hard : Bool) : (freezeAtStep d i e hard).pwr = d.pwr := by
  unfold freezeAtStep
  repeat' first
    | with_reducible rfl
    | intro _
    | exact True.intro
    | (with_reducible refine Kept.same ?_; (try dsimp only); with_reducible refine Kept.of ?_)
    | simp -implicitDefEqProofs only [modPtn_pwr, on_pwr, apply_ite Dev.pwr, apply_ite Prod.fst, ite_self, id_eq]
    | rw [iff_pwr]
    | split
    | dsimp only
theorem doLinkedCommand_pwr (d : Dev) (gi i cmd : Nat) (count : W32) (dist : Nat) (intact : Bool) : (doLinkedCommand d gi i cmd count dist intact).pwr = d.pwr := by
  unfold doLinkedCommand
  repeat' first
    | with_reducible rfl
    | intro _
    | exact True.intro
    | (with_reducible refine Kept.same ?_; (try dsimp only); with_reducible refine Kept.of ?_)
    | simp -implicitDefEqProofs only [freezeAtStep_pwr, modPtn_pwr, passOn_pwr, apply_ite Dev.pwr, apply_ite Prod.fst, ite_self, id_eq]
    | split
    | rw [linkedMsg_pwr]
    | dsimp only
theorem doLinkedCommandEffect_pwr (d : Dev) (i : Nat) : (doLinkedCommandEffect d i).pwr = d.pwr := by
  unfold doLinkedCommandEffect
  repeat' first
    | with_reducible rfl
    | simp -implicitDefEqProofs only [cmdErr_pwr, commandNow_pwr, modPtn_pwr, apply_ite Dev.pwr, apply_ite Prod.fst, ite_self, id_eq]
    | split
    | dsimp only
theorem doHold_pwr (d : Dev) (gi i e : Nat) (intact : Bool) : (doHold d gi i e intact).pwr = d.pwr := by
  unfold doHold
  repeat' first
    | with_reducible rfl
    | intro _
    | exact True.intro
    | (with_reducible refine Kept.same ?_; (try dsimp only); with_reducible refine Kept.of ?_)
    | simp -implicitDefEqProofs only [modPtn_pwr, on_pwr, passOn_pwr, raiseSysFreeze_pwr, apply_ite Dev.pwr, apply_ite Prod.fst, ite_self, id_eq]
    | split
    | rw [linkedMsg_pwr]
    | dsimp only
theorem doReady_pwr (d : Dev) (gi i e : Nat) (intact : Bool) : (doReady d gi i e intact).pwr = d.pwr := by
  unfold doReady
  repeat' first
    | with_reducible rfl
    | intro _
    | exact True.intro
    | (with_reducible refine Kept.same ?_; (try dsimp only); with_reducible refine Kept.of ?_)
    | simp -implicitDefEqProofs only [leadGo_pwr, modPtn_pwr, passOn_pwr, apply_ite Dev.pwr, apply_ite Prod.fst, ite_self, id_eq]
    | split
    | rw [linkedMsg_pwr]
    | dsimp only
theorem doGo_pwr (d : Dev) (gi i e : Nat) (intact : Bool) : (doGo d gi i e intact).pwr = d.pwr := by
  unfold doGo
  repeat' first
    | with_reducible rfl
    | intro _
    | exact True.intro
    | (with_reducible refine Kept.same ?_; (try dsimp only); with_reducible refine Kept.of ?_)
    | simp -implicitDefEqProofs only [modPtn_pwr, passOn_pwr, apply_ite Dev.pwr, apply_ite Prod.fst, ite_self, id_eq]
    | split
    | rw [linkedMsg_pwr]
    | dsimp only
theorem doSystemHoldRelease_pwr (d : Dev) (i : Nat) : (doSystemHoldRelease d i).pwr = d.pwr := by
  unfold doSystemHoldRelease
  repeat' first
    | with_reducible rfl
    | simp -implicitDefEqProofs only [p_pwr, setPtn_pwr, apply_ite Dev.pwr, apply_ite Prod.fst, ite_self, id_eq]
    | split
    | dsimp only
theorem doSteps_pwr (d : Dev) (gi i : Nat) (cycle : BitVec 48) (count : Nat) (intact : Bool) : (doSteps d gi i cycle count intact).pwr = d.pwr := by
  unfold doSteps
  repeat' first
    | with_reducible rfl
    | intro _
    | exact True.intro
    | (with_reducible refine Kept.same ?_; (try dsimp only); with_reducible refine Kept.of ?_)
    | simp -implicitDefEqProofs only [compareSteps_pwr]
    | split
    | rw [linkedMsg_pwr]
    | dsimp only
end Sys2Proof.Machine.Dev
end

