-- ==== Sys2Proof/Laws/KeepPower3.lean ====
section
/-! SUPPORT. The power state is left as it was by cluster pages, windows, snapshots, doorbells and couriers: one lemma for each function. -/

set_option linter.all false

namespace Sys2Proof.Machine.Dev

set_option Elab.async false

theorem atPage_pwr (d : Dev) (base : Nat) (k : Dev → Dev) (h : ∀ e, Kept (k e) e) : (d.atPage base k).pwr = d.pwr := by
  unfold atPage; split
  · exact (h d).eq
  · rfl
theorem unreachable_pwr (d : Dev) : (unreachable d).pwr = d.pwr := by
  unfold unreachable
  repeat' first
    | with_reducible rfl
    | simp -implicitDefEqProofs only [add_pwr]
    | split
    | dsimp only
theorem viaFence_pwr (d : Dev) (fn : Fn) (h : Option Nat) (off : Nat) (write : Bool) (fail k : Dev → Dev) (hf : ∀ e, Kept (fail e) e)
    (hk : ∀ e, Kept (k e) e) : (d.viaFence fn h off write fail k).pwr = d.pwr := by
  unfold viaFence
  rw [viaNoc_pwr _ _ _ _ _ _ _ _ hf]
  intro e; refine .of ?_; try dsimp only
  repeat' first
    | with_reducible rfl
    | exact (hk _).eq
    | simp -implicitDefEqProofs only [(hf _).eq, hostTimeout_pwr, accessError_pwr, unreachable_pwr, apply_ite Dev.pwr, ite_self]
    | split
theorem atCluster_pwr (d : Dev) (fn : Fn) (n a : Nat) (write : Bool) (k : Dev → Dev) (h : ∀ e, Kept (k e) e) :
    (d.atCluster fn n a write k).pwr = d.pwr := by
  unfold atCluster
  dsimp only
  repeat' first
    | with_reducible rfl
    | simp -implicitDefEqProofs only [complete_pwr, apply_ite Dev.pwr, ite_self]
    | refine viaFence_pwr _ _ _ _ _ _ _ (fun e => .of ?_) h
    | split
theorem doWriteBack_pwr (d : Dev) (n : Nat) (walu : Bool) (t unit s : Nat) : (doWriteBack d n walu t unit s).pwr = d.pwr := by
  unfold doWriteBack
  repeat' first
    | with_reducible rfl
    | simp -implicitDefEqProofs only [add_pwr, cluIrq_pwr, modClu_pwr, setBp_pwr, setWa_pwr, apply_ite Dev.pwr, apply_ite Prod.fst, ite_self, id_eq]
    | split
    | dsimp only
theorem doRowWriteBack_pwr (d : Dev) (n m row : Nat) : (doRowWriteBack d n m row).pwr = d.pwr := by
  unfold doRowWriteBack
  repeat' first
    | with_reducible rfl
    | simp -implicitDefEqProofs only [modClu_pwr, rowBackDone_pwr, setRow_pwr, apply_ite Dev.pwr, apply_ite Prod.fst, ite_self, id_eq]
    | split
    | dsimp only
theorem doBpiClr_pwr (d : Dev) (n : Nat) : (doBpiClr d n).pwr = d.pwr := by
  unfold doBpiClr
  repeat' first
    | with_reducible rfl
    | simp -implicitDefEqProofs only [clr_pwr]
    | split
    | dsimp only
theorem doWliClr_pwr (d : Dev) (n : Nat) : (doWliClr d n).pwr = d.pwr := by
  unfold doWliClr
  repeat' first
    | with_reducible rfl
    | simp -implicitDefEqProofs only [clr_pwr]
    | split
    | dsimp only
theorem doFabClr_pwr (d : Dev) (n : Nat) : (doFabClr d n).pwr = d.pwr := by
  unfold doFabClr
  repeat' first
    | with_reducible rfl
    | simp -implicitDefEqProofs only [clr_pwr]
    | split
    | dsimp only
theorem doDmemClr_pwr (d : Dev) (n : Nat) : (doDmemClr d n).pwr = d.pwr := by
  unfold doDmemClr
  repeat' first
    | with_reducible rfl
    | simp -implicitDefEqProofs only [clr_pwr]
    | split
    | dsimp only
theorem doDmemCfg_pwr (d : Dev) (n off v : Nat) : (doDmemCfg d n off v).pwr = d.pwr := by
  unfold doDmemCfg
  repeat' first
    | with_reducible rfl
    | simp -implicitDefEqProofs only [writeWord_pwr, apply_ite Dev.pwr, apply_ite Prod.fst, ite_self, id_eq]
    | split
    | dsimp only
theorem doFmpCfg_pwr (d : Dev) (n off v : Nat) : (doFmpCfg d n off v).pwr = d.pwr := by
  unfold doFmpCfg
  repeat' first
    | with_reducible rfl
    | simp -implicitDefEqProofs only [writeWord_pwr, apply_ite Dev.pwr, apply_ite Prod.fst, ite_self, id_eq]
    | split
    | dsimp only
theorem doTxpCfg_pwr (d : Dev) (n off v : Nat) : (doTxpCfg d n off v).pwr = d.pwr := by
  unfold doTxpCfg
  repeat' first
    | with_reducible rfl
    | simp -implicitDefEqProofs only [releasePort_pwr, writeWord_pwr, apply_ite Dev.pwr, apply_ite Prod.fst, ite_self, id_eq]
    | split
    | dsimp only
theorem farUe_pwr (d : Dev) (n f addr : Nat) : (farUe d n f addr).pwr = d.pwr := by
  unfold farUe
  repeat' first
    | with_reducible rfl
    | simp -implicitDefEqProofs only [add_pwr, cluIrq_pwr, raiseUpset_pwr, recordRow_pwr, tick_pwr]
    | split
    | dsimp only
theorem farStatus_pwr (d : Dev) (n f addr status : Nat) : (farStatus d n f addr status).pwr = d.pwr := by
  unfold farStatus
  repeat' first
    | with_reducible rfl
    | simp -implicitDefEqProofs only [farUe_pwr, apply_ite Dev.pwr, apply_ite Prod.fst, ite_self, id_eq]
    | split
    | dsimp only
theorem farHeard_pwr (d : Dev) (n f addr status : Nat) : (farHeard d n f addr status).pwr = d.pwr := by
  unfold farHeard
  repeat' first
    | with_reducible rfl
    | intro _
    | exact True.intro
    | (with_reducible refine Kept.same ?_; (try dsimp only); with_reducible refine Kept.of ?_)
    | simp -implicitDefEqProofs only [farStatus_pwr]
    | rw [iff_pwr]
    | split
    | dsimp only
theorem farPerform_pwr (d : Dev) (n f : Nat) (a : FarAcc) : (farPerform d n f a).1.pwr = d.pwr := by
  unfold farPerform
  repeat' first
    | with_reducible rfl
    | simp -implicitDefEqProofs only [farHeard_pwr, hbmRead_pwr, hbmWrite_pwr, apply_ite Dev.pwr, apply_ite Prod.fst, ite_self, id_eq]
    | split
    | dsimp only
theorem farPrefix_pwr (d : Dev) (n f k : Nat) : (farPrefix d n f k).pwr = d.pwr := by
  unfold farPrefix
  repeat' first
    | with_reducible rfl
    | intro _
    | exact True.intro
    | (with_reducible refine Kept.same ?_; (try dsimp only); with_reducible refine Kept.of ?_)
    | simp -implicitDefEqProofs only [farPerform_pwr, setFar_pwr]
    | split
    | with_reducible refine (fst_pwr (fun _ _ => ?_) _ _).trans ?_
    | with_reducible refine (foldl_pwr (fun _ _ => ?_) _ _).trans ?_
    | dsimp only
theorem farFree_pwr (d : Dev) (n f k : Nat) : (farFree d n f k).pwr = d.pwr := by
  unfold farFree
  repeat' first
    | with_reducible rfl
    | simp -implicitDefEqProofs only [freeOutst_pwr, setFar_pwr, apply_ite Dev.pwr, apply_ite Prod.fst, ite_self, id_eq]
    | split
    | dsimp only
theorem farEnd_pwr (d : Dev) (n f k : Nat) : (farEnd d n f k).pwr = d.pwr := by
  unfold farEnd
  repeat' first
    | with_reducible rfl
    | simp -implicitDefEqProofs only [farAcked_pwr, farFree_pwr, setFar_pwr, apply_ite Dev.pwr, apply_ite Prod.fst, ite_self, id_eq]
    | split
    | dsimp only
theorem farComplete_pwr (d : Dev) (n f k : Nat) : (farComplete d n f k).pwr = d.pwr := by
  unfold farComplete
  repeat' first
    | with_reducible rfl
    | intro _
    | exact True.intro
    | (with_reducible refine Kept.same ?_; (try dsimp only); with_reducible refine Kept.of ?_)
    | simp -implicitDefEqProofs only [farEnd_pwr, farPrefix_pwr, farReserve_pwr, apply_ite Dev.pwr, apply_ite Prod.fst, ite_self, id_eq]
    | rw [iff_pwr]
    | split
    | dsimp only
theorem doFarRead_pwr (d : Dev) (n f : Nat) : (doFarRead d n f).pwr = d.pwr := by
  unfold doFarRead
  repeat' first
    | with_reducible rfl
    | simp -implicitDefEqProofs only [farComplete_pwr, apply_ite Dev.pwr, apply_ite Prod.fst, ite_self, id_eq]
    | split
    | dsimp only
theorem doFarAck_pwr (d : Dev) (n f : Nat) : (doFarAck d n f).pwr = d.pwr := by
  unfold doFarAck
  repeat' first
    | with_reducible rfl
    | simp -implicitDefEqProofs only [farComplete_pwr, apply_ite Dev.pwr, apply_ite Prod.fst, ite_self, id_eq]
    | split
    | dsimp only
theorem farAnswered_pwr (d : Dev) (n f k status : Nat) (bs : List Byte) : (farAnswered d n f k status bs).pwr = d.pwr := by
  unfold farAnswered
  repeat' first
    | with_reducible rfl
    | simp -implicitDefEqProofs only [farEnd_pwr, farPrefix_pwr, farStatus_pwr, setFar_pwr, apply_ite Dev.pwr, apply_ite Prod.fst, ite_self, id_eq]
    | split
    | dsimp only
theorem farTimeout_pwr (d : Dev) (n f k : Nat) : (farTimeout d n f k).pwr = d.pwr := by
  unfold farTimeout
  repeat' first
    | with_reducible rfl
    | simp -implicitDefEqProofs only [farEnd_pwr, farPrefix_pwr, farStatus_pwr, setFar_pwr, tick_pwr, apply_ite Dev.pwr, apply_ite Prod.fst, ite_self, id_eq]
    | split
    | dsimp only
theorem landFar_pwr (d : Dev) (n : Nat) (sure : Bool) : (landFar d n sure).pwr = d.pwr := by
  unfold landFar
  repeat' first
    | with_reducible rfl
    | intro _
    | exact True.intro
    | (with_reducible refine Kept.same ?_; (try dsimp only); with_reducible refine Kept.of ?_)
    | simp -implicitDefEqProofs only [farPerform_pwr, tick_pwr, apply_ite Dev.pwr, apply_ite Prod.fst, ite_self, id_eq]
    | rw [each_pwr]
    | split
    | dsimp only
theorem farDrain_pwr (d : Dev) (n : Nat) : (farDrain d n).pwr = d.pwr := by
  unfold farDrain
  repeat' first
    | with_reducible rfl
    | intro _
    | exact True.intro
    | (with_reducible refine Kept.same ?_; (try dsimp only); with_reducible refine Kept.of ?_)
    | simp -implicitDefEqProofs only [farPrefix_pwr, freeOutst_pwr, setFar_pwr, settleFences_pwr]
    | rw [each_pwr]
    | split
    | dsimp only
theorem doCopyFill_pwr (d : Dev) (n x : Nat) : (doCopyFill d n x).pwr = d.pwr := by
  unfold doCopyFill
  repeat' first
    | with_reducible rfl
    | simp -implicitDefEqProofs only [setQueue_pwr, apply_ite Dev.pwr, apply_ite Prod.fst, ite_self, id_eq]
    | split
    | dsimp only
theorem doCreditRenew_pwr (d : Dev) (n x : Nat) : (doCreditRenew d n x).pwr = d.pwr := by
  unfold doCreditRenew
  repeat' first
    | with_reducible rfl
    | simp -implicitDefEqProofs only [modClu_pwr, setQueue_pwr, apply_ite Dev.pwr, apply_ite Prod.fst, ite_self, id_eq]
    | split
    | dsimp only
theorem classRead_pwr (d : Dev) (n c t m o : Nat) : (classRead d n c t m o).1.pwr = d.pwr := by
  unfold classRead
  repeat' first
    | with_reducible rfl
    | simp -implicitDefEqProofs only [checkMesh_pwr, checkPort_pwr, fetchBp_pwr, fetchWa_pwr, readRow_pwr, apply_ite Dev.pwr, apply_ite Prod.fst, ite_self, id_eq]
    | split
    | dsimp only
theorem rewriteBp_pwr (d : Dev) (n k v : Nat) : (rewriteBp d n k v).pwr = d.pwr := by
  unfold rewriteBp
  repeat' first
    | with_reducible rfl
    | simp -implicitDefEqProofs only [modClu_pwr, setBp_pwr]
    | split
    | dsimp only
theorem rewriteWa_pwr (d : Dev) (n k v : Nat) : (rewriteWa d n k v).pwr = d.pwr := by
  unfold rewriteWa
  repeat' first
    | with_reducible rfl
    | simp -implicitDefEqProofs only [modClu_pwr, setWa_pwr]
    | split
    | dsimp only
theorem rewriteRow_pwr (d : Dev) (n k v : Nat) : (rewriteRow d n k v).pwr = d.pwr := by
  unfold rewriteRow
  repeat' first
    | with_reducible rfl
    | simp -implicitDefEqProofs only [modClu_pwr, setRow_pwr]
    | split
    | dsimp only
theorem classWrite_pwr (d : Dev) (n c t m o v : Nat) : (classWrite d n c t m o v).pwr = d.pwr := by
  unfold classWrite
  repeat' first
    | with_reducible rfl
    | intro _
    | exact True.intro
    | (with_reducible refine Kept.same ?_; (try dsimp only); with_reducible refine Kept.of ?_)
    | simp -implicitDefEqProofs only [rewriteBp_pwr, rewriteRow_pwr, rewriteWa_pwr, setMesh_pwr, setPort_pwr, setSt_pwr, apply_ite Dev.pwr, apply_ite Prod.fst, ite_self, id_eq]
    | rw [each_pwr]
    | split
    | dsimp only
theorem winWake_pwr (d : Dev) (n c : Nat) : (winWake d n c).pwr = d.pwr := by
  unfold winWake
  repeat' first
    | with_reducible rfl
    | simp -implicitDefEqProofs only [wake_pwr, apply_ite Dev.pwr, apply_ite Prod.fst, ite_self, id_eq]
    | split
    | dsimp only
theorem winRead_pwr (d : Dev) (n w off : Nat) : (winRead d n w off).1.pwr = d.pwr := by
  unfold winRead
  repeat' first
    | with_reducible rfl
    | simp -implicitDefEqProofs only [classRead_pwr, on_pwr, winWake_pwr, apply_ite Dev.pwr, apply_ite Prod.fst, ite_self, id_eq]
    | split
    | dsimp only
theorem doWindowRead_pwr (d : Dev) (fn : Fn) (n w off : Nat) : (doWindowRead d fn n w off).pwr = d.pwr := by
  unfold doWindowRead
  repeat' first
    | with_reducible rfl
    | intro _
    | exact True.intro
    | (with_reducible refine Kept.same ?_; (try dsimp only); with_reducible refine Kept.of ?_)
    | simp -implicitDefEqProofs only [reply_pwr, winRead_pwr, apply_ite Dev.pwr, apply_ite Prod.fst, ite_self, id_eq]
    | split
    | rw [atCluster_pwr]
    | dsimp only
theorem winWrite_pwr (d : Dev) (n w off v : Nat) : (winWrite d n w off v).pwr = d.pwr := by
  unfold winWrite
  repeat' first
    | with_reducible rfl
    | simp -implicitDefEqProofs only [classWrite_pwr, on_pwr, winWake_pwr, apply_ite Dev.pwr, apply_ite Prod.fst, ite_self, id_eq]
    | split
    | dsimp only
theorem doWindowWrite_pwr (d : Dev) (fn : Fn) (n w off v : Nat) : (doWindowWrite d fn n w off v).pwr = d.pwr := by
  unfold doWindowWrite
  repeat' first
    | with_reducible rfl
    | intro _
    | exact True.intro
    | (with_reducible refine Kept.same ?_; (try dsimp only); with_reducible refine Kept.of ?_)
    | simp -implicitDefEqProofs only [winWrite_pwr, apply_ite Dev.pwr, apply_ite Prod.fst, ite_self, id_eq]
    | split
    | rw [atCluster_pwr]
    | dsimp only
theorem doWindowTimeout_pwr (d : Dev) (fn : Fn) (n w off : Nat) : (doWindowTimeout d fn n w off).pwr = d.pwr := by
  unfold doWindowTimeout
  repeat' first
    | with_reducible rfl
    | intro _
    | exact True.intro
    | (with_reducible refine Kept.same ?_; (try dsimp only); with_reducible refine Kept.of ?_)
    | simp -implicitDefEqProofs only [on_pwr, reply_pwr, apply_ite Dev.pwr, apply_ite Prod.fst, ite_self, id_eq]
    | split
    | rw [atCluster_pwr]
    | dsimp only
theorem clearMemories_pwr (d : Dev) (n : Nat) : (clearMemories d n).pwr = d.pwr := by
  unfold clearMemories
  repeat' first
    | with_reducible rfl
    | simp -implicitDefEqProofs only [ite_self]
    | split
    | dsimp only
theorem saveRows_pwr (d : Dev) (n m : Nat) : (saveRows d n m).1.pwr = d.pwr := by
  unfold saveRows
  repeat' first
    | with_reducible rfl
    | intro _
    | exact True.intro
    | (with_reducible refine Kept.same ?_; (try dsimp only); with_reducible refine Kept.of ?_)
    | simp -implicitDefEqProofs only [readRow_pwr, apply_ite Dev.pwr, apply_ite Prod.fst, ite_self, id_eq]
    | rw [each_pwr]
    | split
    | dsimp only
theorem saveBlocks_pwr (d : Dev) (n : Nat) : (saveBlocks d n).1.pwr = d.pwr := by
  unfold saveBlocks
  refine fst_pwr ?_ _ _
  intro r m
  (try dsimp only); refine .of ?_
  simp -implicitDefEqProofs only [saveRows_pwr]
theorem saveSection_pwr (d : Dev) (n : Nat) : (saveSection d n).1.pwr = d.pwr := by
  have h := saveBlocks_pwr d n
  have e : saveSection d n = ((d.saveBlocks n).1, sectionBytes (d.sectionFront n) (d.saveBlocks n).2) := by unfold saveSection; rfl
  rw [e]
  generalize saveBlocks d n = r at h ⊢
  exact h
theorem snapPut_pwr (d : Dev) (i a : Nat) (bs : List Byte) : (snapPut d i a bs).pwr = d.pwr := by
  unfold snapPut
  repeat' first
    | with_reducible rfl
    | simp -implicitDefEqProofs only [hbmPut_pwr]
    | split
    | dsimp only
theorem snapGet_pwr (d : Dev) (i a n : Nat) : (snapGet d i a n).1.pwr = d.pwr := by
  unfold snapGet
  repeat' first
    | with_reducible rfl
    | simp -implicitDefEqProofs only [hbmGet_pwr]
    | split
    | dsimp only
theorem cutPut_pwr (d : Dev) (i a : Nat) (bs : List Byte) : (cutPut d i a bs).pwr = d.pwr := by
  unfold cutPut
  repeat' first
    | with_reducible rfl
    | intro _
    | exact True.intro
    | (with_reducible refine Kept.same ?_; (try dsimp only); with_reducible refine Kept.of ?_)
    | simp -implicitDefEqProofs only [snapPut_pwr, tick_pwr]
    | rw [each_pwr]
    | rw [iff_pwr]
    | split
    | dsimp only
theorem copyRegions_pwr (d : Dev) (i : Nat) (out cut : Bool) : (copyRegions d i out cut).pwr = d.pwr := by
  unfold copyRegions
  dsimp only
  exact fst_pwr (fun r x => by
    (try dsimp only); refine .of ?_
    simp -implicitDefEqProofs only [apply_ite Dev.pwr, cutPut_pwr, snapPut_pwr, snapGet_pwr, ite_self]) _ _
theorem snapEnd_pwr (d : Dev) (i result : Nat) : (snapEnd d i result).pwr = d.pwr := by
  unfold snapEnd
  repeat' first
    | with_reducible rfl
    | simp -implicitDefEqProofs only [irq_pwr, mntFree_pwr, modPtn_pwr, on_pwr, p_pwr]
    | split
    | dsimp only
theorem snapBegin_pwr (d : Dev) (i st : Nat) : (snapBegin d i st).pwr = d.pwr := by
  unfold snapBegin
  repeat' first
    | with_reducible rfl
    | simp -implicitDefEqProofs only [mntRequest_pwr, p_pwr, snapEnd_pwr, wakeAll_pwr, apply_ite Dev.pwr, apply_ite Prod.fst, ite_self, id_eq]
    | split
    | dsimp only
theorem startSave_pwr (d : Dev) (i : Nat) : (startSave d i).pwr = d.pwr := by
  unfold startSave
  repeat' first
    | with_reducible rfl
    | simp -implicitDefEqProofs only [snapBegin_pwr, snapEnd_pwr, snapPut_pwr, apply_ite Dev.pwr, apply_ite Prod.fst, ite_self, id_eq]
    | split
    | dsimp only
theorem doSnapSave_pwr (d : Dev) (i : Nat) : (doSnapSave d i).pwr = d.pwr := by
  unfold doSnapSave
  repeat' first
    | with_reducible rfl
    | simp -implicitDefEqProofs only [p_pwr, startSave_pwr, apply_ite Dev.pwr, apply_ite Prod.fst, ite_self, id_eq]
    | split
    | dsimp only
theorem saveSections_pwr (d : Dev) (i : Nat) : (saveSections d i).pwr = d.pwr := by
  unfold saveSections
  dsimp only
  exact foldl_pwr (fun d k => by (try dsimp only); refine .of ?_; simp -implicitDefEqProofs only [snapPut_pwr, saveSection_pwr]) _ _
theorem doSnapSaveComplete_pwr (d : Dev) (i : Nat) : (doSnapSaveComplete d i).pwr = d.pwr := by
  unfold doSnapSaveComplete
  repeat' first
    | with_reducible rfl
    | simp -implicitDefEqProofs only [copyRegions_pwr, p_pwr, saveSections_pwr, snapEnd_pwr, snapPut_pwr, apply_ite Dev.pwr, apply_ite Prod.fst, ite_self, id_eq]
    | split
    | dsimp only
theorem doSnapRestore_pwr (d : Dev) (i : Nat) : (doSnapRestore d i).pwr = d.pwr := by
  unfold doSnapRestore
  repeat' first
    | with_reducible rfl
    | simp -implicitDefEqProofs only [p_pwr, snapBegin_pwr, snapEnd_pwr, apply_ite Dev.pwr, apply_ite Prod.fst, ite_self, id_eq]
    | split
    | dsimp only
theorem checkSections_pwr (d : Dev) (i : Nat) : (checkSections d i).1.pwr = d.pwr := by
  have h (n : Nat) (a : Nat → Nat) (ks : List Nat) (x : Dev × Bool) :
      (ks.foldl (fun x k => let y := x.1.snapGet i (a k) n; (y.1, x.2 && sectionOk y.2)) x).1.pwr = x.1.pwr := by
    induction ks generalizing x with
    | nil => rfl
    | cons k ks ih =>
      rw [List.foldl_cons, ih]
      exact snapGet_pwr x.1 i (a k) n
  unfold checkSections
  exact h snapSection (fun k => d.sectionAt i k) _ _
theorem checkAfter_pwr (r : Dev × List Byte) (i : Nat) (c : Bool → Nat) :
    (let s := r.1.checkSections i; ((s.1, c s.2) : Dev × Nat)).1.pwr = r.1.pwr := by
  exact checkSections_pwr r.1 i
theorem snapCheck_pwr (d : Dev) (i : Nat) (ids : List Nat) (shape : Bool) : (snapCheck d i ids shape).1.pwr = d.pwr := by
  unfold snapCheck
  generalize hr : d.snapGet i (d.g (pPTN i) PTN_SNAP_BASE_ADDR) 256 = r
  have h : r.1.pwr = d.pwr := by rw [← hr]; exact snapGet_pwr d i _ 256
  exact (checkAfter_pwr r i fun ok => d.checkResult i r.2 ids shape ok).trans h
theorem doSnapCheckComplete_pwr (d : Dev) (i : Nat) : (doSnapCheckComplete d i).pwr = d.pwr := by
  unfold doSnapCheckComplete
  repeat' first
    | with_reducible rfl
    | simp -implicitDefEqProofs only [p_pwr, snapCheck_pwr, snapEnd_pwr, apply_ite Dev.pwr, apply_ite Prod.fst, ite_self, id_eq]
    | split
    | dsimp only
theorem loadFar_pwr (d : Dev) (n : Nat) (bs : List Byte) : (loadFar d n bs).pwr = d.pwr := by
  unfold loadFar
  repeat' first
    | with_reducible rfl
    | intro _
    | exact True.intro
    | (with_reducible refine Kept.same ?_; (try dsimp only); with_reducible refine Kept.of ?_)
    | simp -implicitDefEqProofs only [farDrain_pwr, setFar_pwr]
    | rw [each_pwr]
    | split
    | dsimp only
theorem loadBlock_pwr (d : Dev) (n : Nat) (bs : List Byte) (m : Nat) : (loadBlock d n bs m).pwr = d.pwr := by
  unfold loadBlock
  repeat' first
    | with_reducible rfl
    | intro _
    | exact True.intro
    | (with_reducible refine Kept.same ?_; (try dsimp only); with_reducible refine Kept.of ?_)
    | simp -implicitDefEqProofs only [rewriteRow_pwr]
    | rw [each_pwr]
    | split
    | dsimp only
theorem loadSection_pwr (d : Dev) (n : Nat) (bs : List Byte) : (loadSection d n bs).pwr = d.pwr := by
  unfold loadSection
  repeat' first
    | with_reducible rfl
    | intro _
    | exact True.intro
    | (with_reducible refine Kept.same ?_; (try dsimp only); with_reducible refine Kept.of ?_)
    | simp -implicitDefEqProofs only [loadBlock_pwr, loadFar_pwr, setSt_pwr, apply_ite Dev.pwr, apply_ite Prod.fst, ite_self, id_eq]
    | rw [each_pwr]
    | split
    | dsimp only
theorem restoreSection_pwr (d : Dev) (i k n : Nat) : (restoreSection d i k n).pwr = d.pwr := by
  have e : restoreSection d i k n = (d.snapGet i (d.sectionAt i k) snapSection).1.loadSection n (d.snapGet i (d.sectionAt i k) snapSection).2 := by
    delta restoreSection; with_reducible rfl
  rw [e, loadSection_pwr, snapGet_pwr]
theorem loadSnapshot_pwr (d : Dev) (i : Nat) : (loadSnapshot d i).pwr = d.pwr := by
  unfold loadSnapshot
  extract_lets b ns e0 r h e1 e2 e3 e4
  have hd : r.1.pwr = d.pwr := by unfold r e0; rw [snapGet_pwr, forgetSigs_pwr, forgetSteps_pwr]
  clear_value r
  have h1 : e1.pwr = d.pwr := (foldl_pwr (fun d k => .of (restoreSection_pwr d i k _)) _ _).trans hd
  have h2 : e2.pwr = d.pwr := by
    unfold e2; split
    · exact (copyRegions_pwr _ _ _ _).trans h1
    · exact h1
  have h3 : e3.pwr = d.pwr := (setSt_pwr _ _).trans ((tick_pwr _).trans h2)
  have h4 : e4.pwr = d.pwr := by unfold e4; rw [p_pwr, p_pwr, p_pwr, h3]
  clear_value e4
  rw [modPtn_pwr, p_pwr, h4]
theorem doSnapRestoreComplete_pwr (d : Dev) (i : Nat) : (doSnapRestoreComplete d i).pwr = d.pwr := by
  unfold doSnapRestoreComplete
  repeat' first
    | with_reducible rfl
    | simp -implicitDefEqProofs only [frozenIrq_pwr, loadSnapshot_pwr, modPtn_pwr, p_pwr, snapEnd_pwr, apply_ite Dev.pwr, apply_ite Prod.fst, ite_self, id_eq]
    | split
    | dsimp only
theorem cutSave_pwr (d : Dev) (i : Nat) : (cutSave d i).pwr = d.pwr := by
  unfold cutSave
  dsimp only
  rw [iff_pwr _ _ _ fun e => .of (copyRegions_pwr e i true true)]
  exact foldl_pwr (fun d k => by (try dsimp only); refine .of ?_; simp -implicitDefEqProofs only [cutPut_pwr, saveSection_pwr]) _ _
theorem scrambleRows_pwr (d : Dev) (n gen : Nat) : (scrambleRows d n gen).pwr = d.pwr := by
  unfold scrambleRows
  repeat' first
    | with_reducible rfl
    | intro _
    | exact True.intro
    | (with_reducible refine Kept.same ?_; (try dsimp only); with_reducible refine Kept.of ?_)
    | simp -implicitDefEqProofs only [rewriteRow_pwr]
    | rw [each_pwr]
    | split
    | dsimp only
theorem scrambleTiles_pwr (d : Dev) (n : Nat) : (scrambleTiles d n).pwr = d.pwr := by
  unfold scrambleTiles
  repeat' first
    | with_reducible rfl
    | simp -implicitDefEqProofs only [setSt_pwr, tick_pwr]
    | split
    | dsimp only
theorem scrambleCluster_pwr (d : Dev) (n : Nat) : (scrambleCluster d n).pwr = d.pwr := by
  unfold scrambleCluster
  repeat' first
    | with_reducible rfl
    | simp -implicitDefEqProofs only [scrambleRows_pwr, scrambleTiles_pwr]
    | split
    | dsimp only
theorem scrambleFar_pwr (d : Dev) (n : Nat) : (scrambleFar d n).pwr = d.pwr := by
  unfold scrambleFar
  repeat' first
    | with_reducible rfl
    | intro _
    | exact True.intro
    | (with_reducible refine Kept.same ?_; (try dsimp only); with_reducible refine Kept.of ?_)
    | simp -implicitDefEqProofs only [farDrain_pwr, setFar_pwr, tick_pwr]
    | rw [each_pwr]
    | split
    | dsimp only
theorem scrambleState_pwr (d : Dev) (i : Nat) (far : Bool) : (scrambleState d i far).pwr = d.pwr := by
  unfold scrambleState
  repeat' first
    | with_reducible rfl
    | intro _
    | exact True.intro
    | (with_reducible refine Kept.same ?_; (try dsimp only); with_reducible refine Kept.of ?_)
    | simp -implicitDefEqProofs only [modPtn_pwr, p_pwr, scrambleCluster_pwr, scrambleFar_pwr, snapPut_pwr, tick_pwr, apply_ite Dev.pwr, apply_ite Prod.fst, ite_self, id_eq]
    | rw [each_pwr]
    | split
    | dsimp only
theorem unload_pwr (d : Dev) (i : Nat) : (unload d i).pwr = d.pwr := by
  unfold unload
  repeat' first
    | with_reducible rfl
    | simp -implicitDefEqProofs only [p_pwr, apply_ite Dev.pwr, apply_ite Prod.fst, ite_self, id_eq]
    | split
    | dsimp only
theorem doSnapAbort_pwr (d : Dev) (i : Nat) : (doSnapAbort d i).pwr = d.pwr := by
  unfold doSnapAbort
  repeat' first
    | with_reducible rfl
    | simp -implicitDefEqProofs only [cutSave_pwr, scrambleState_pwr, snapEnd_pwr, snapGet_pwr, unload_pwr, apply_ite Dev.pwr, apply_ite Prod.fst, ite_self, id_eq]
    | split
    | dsimp only
theorem doFreezeSettled_pwr (d : Dev) (i : Nat) : (doFreezeSettled d i).pwr = d.pwr := by
  unfold doFreezeSettled
  repeat' first
    | with_reducible rfl
    | intro _
    | exact True.intro
    | (with_reducible refine Kept.same ?_; (try dsimp only); with_reducible refine Kept.of ?_)
    | simp -implicitDefEqProofs only [doSnapSave_pwr, frozenIrq_pwr, modPtn_pwr, p_pwr, setSt_pwr, tick_pwr, apply_ite Dev.pwr, apply_ite Prod.fst, ite_self, id_eq]
    | split
    | with_reducible refine (fst_pwr (fun _ _ => ?_) _ _).trans ?_
    | with_reducible refine (foldl_pwr (fun _ _ => ?_) _ _).trans ?_
    | dsimp only
theorem bar4Error_pwr (d : Dev) (fn : Fn) (off : Nat) (write : Bool) : (bar4Error d fn off write).pwr = d.pwr := by
  unfold bar4Error
  repeat' first
    | with_reducible rfl
    | simp -implicitDefEqProofs only [accessError_pwr, emit_pwr, apply_ite Dev.pwr, apply_ite Prod.fst, ite_self, id_eq]
    | split
    | dsimp only
theorem atSlot_pwr (d : Dev) (fn : Fn) (slot off : Nat) (k : Dev → Nat → Dev) (h : ∀ e q, Kept (k e q) e) : (d.atSlot fn slot off k).pwr = d.pwr := by
  unfold atSlot
  repeat' first
    | with_reducible rfl
    | exact viaNoc_pwr _ _ _ _ _ _ _ _ (fun e => .of rfl) fun e => h e _
    | simp -implicitDefEqProofs only [bar4Error_pwr]
    | split
theorem doDoorbell_pwr (d : Dev) (fn : Fn) (slot : Nat) (fin fence : Bool) (w : W64) : (doDoorbell d fn slot fin fence w).pwr = d.pwr := by
  unfold doDoorbell
  repeat' first
    | with_reducible rfl
    | intro _
    | exact True.intro
    | (with_reducible refine Kept.same ?_; (try dsimp only); with_reducible refine Kept.of ?_)
    | simp -implicitDefEqProofs only [append_pwr, apply_ite Dev.pwr, apply_ite Prod.fst, ite_self, id_eq]
    | split
    | rw [atSlot_pwr]
    | dsimp only
theorem doDoorbellMulti_pwr (d : Dev) (fn : Fn) (slot : Nat) (ws : List W64) : (doDoorbellMulti d fn slot ws).pwr = d.pwr := by
  unfold doDoorbellMulti
  repeat' first
    | with_reducible rfl
    | intro _
    | exact True.intro
    | (with_reducible refine Kept.same ?_; (try dsimp only); with_reducible refine Kept.of ?_)
    | simp -implicitDefEqProofs only [appendAll_pwr, bar4Error_pwr, dropWrite_pwr, notifyKinds_pwr, apply_ite Dev.pwr, apply_ite Prod.fst, ite_self, id_eq]
    | split
    | rw [atSlot_pwr]
    | dsimp only
theorem doPop_pwr (d : Dev) (fn : Fn) (slot : Nat) : (doPop d fn slot).pwr = d.pwr := by
  unfold doPop
  repeat' first
    | with_reducible rfl
    | intro _
    | exact True.intro
    | (with_reducible refine Kept.same ?_; (try dsimp only); with_reducible refine Kept.of ?_)
    | simp -implicitDefEqProofs only [bar4Error_pwr, completePop_pwr, emit_pwr, emptyPop_pwr, markBound_pwr, modQueue_pwr, apply_ite Dev.pwr, apply_ite Prod.fst, ite_self, id_eq]
    | split
    | rw [viaNoc_pwr]
    | dsimp only
theorem doPopWaitExpire_pwr (d : Dev) (fn : Fn) (slot : Nat) : (doPopWaitExpire d fn slot).pwr = d.pwr := by
  unfold doPopWaitExpire
  repeat' first
    | with_reducible rfl
    | simp -implicitDefEqProofs only [emptyPop_pwr, setQueue_pwr, apply_ite Dev.pwr, apply_ite Prod.fst, ite_self, id_eq]
    | split
    | dsimp only
theorem doBar4Error_pwr (d : Dev) (fn : Fn) (off : Nat) (write : Bool) : (doBar4Error d fn off write).pwr = d.pwr := by
  unfold doBar4Error
  repeat' first
    | with_reducible rfl
    | simp -implicitDefEqProofs only [bar4Error_pwr]
    | split
    | dsimp only
theorem doQwrExpire_pwr (d : Dev) (q : Nat) : (doQwrExpire d q).pwr = d.pwr := by
  unfold doQwrExpire
  repeat' first
    | with_reducible rfl
    | simp -implicitDefEqProofs only [respond_pwr, setQueue_pwr, apply_ite Dev.pwr, apply_ite Prod.fst, ite_self, id_eq]
    | split
    | dsimp only
theorem doQrdExpire_pwr (d : Dev) (q : Nat) : (doQrdExpire d q).pwr = d.pwr := by
  unfold doQrdExpire
  repeat' first
    | with_reducible rfl
    | simp -implicitDefEqProofs only [respond_pwr, setQueue_pwr, apply_ite Dev.pwr, apply_ite Prod.fst, ite_self, id_eq]
    | split
    | dsimp only
theorem queueCmd_pwr (d : Dev) (q cmd : Nat) : (queueCmd d q cmd).pwr = d.pwr := by
  unfold queueCmd
  repeat' first
    | with_reducible rfl
    | simp -implicitDefEqProofs only [dropHeadOf_pwr, flushQueue_pwr, modQueue_pwr, apply_ite Dev.pwr, apply_ite Prod.fst, ite_self, id_eq]
    | split
    | dsimp only
theorem writeQcfg_pwr (d : Dev) (q v : Nat) : (writeQcfg d q v).pwr = d.pwr := by
  unfold writeQcfg
  repeat' first
    | with_reducible rfl
    | simp -implicitDefEqProofs only [disableQueue_pwr, enableQueue_pwr, modQueue_pwr, apply_ite Dev.pwr, apply_ite Prod.fst, ite_self, id_eq]
    | split
    | dsimp only
theorem setQueueEn_pwr (d : Dev) (q : Nat) (en : Bool) : (setQueueEn d q en).pwr = d.pwr := by
  unfold setQueueEn
  repeat' first
    | with_reducible rfl
    | simp -implicitDefEqProofs only [disableQueue_pwr, enableQueue_pwr, apply_ite Dev.pwr, apply_ite Prod.fst, ite_self, id_eq]
    | split
    | dsimp only
theorem clearQflags_pwr (d : Dev) (q v : Nat) : (clearQflags d q v).pwr = d.pwr := by
  unfold clearQflags
  repeat' first
    | with_reducible rfl
    | simp -implicitDefEqProofs only [modQueue_pwr]
    | split
    | dsimp only
theorem atQueue_pwr (d : Dev) (fn : Fn) (q : Nat) (k : Dev → Nat → Dev) (h : ∀ e q, Kept (k e q) e) : (d.atQueue fn q k).pwr = d.pwr := by
  unfold atQueue
  repeat' first
    | with_reducible rfl
    | exact (h _ _).eq
    | split
theorem putList_pwr (d : Dev) (l : Nat) (ws : List Work) : (putList d l ws).pwr = d.pwr := by
  unfold putList
  repeat' first
    | with_reducible rfl
    | simp -implicitDefEqProofs only [p_pwr, setList_pwr, apply_ite Dev.pwr, apply_ite Prod.fst, ite_self, id_eq]
    | split
    | dsimp only
theorem refuseItem_pwr (d : Dev) (l : Nat) : (refuseItem d l).pwr = d.pwr := by
  unfold refuseItem
  repeat' first
    | with_reducible rfl
    | simp -implicitDefEqProofs only [add_pwr, irq_pwr, raise_pwr]
    | split
    | dsimp only
theorem judgeItem_pwr (d : Dev) (w : Work) : (judgeItem d w).1.pwr = d.pwr := by
  unfold judgeItem
  repeat' first
    | with_reducible rfl
    | simp -implicitDefEqProofs only [putList_pwr, refuseItem_pwr, apply_ite Dev.pwr, apply_ite Prod.fst, ite_self, id_eq]
    | split
    | dsimp only
theorem placeItem_pwr (d : Dev) (fn : Fn) (w : Work) : (placeItem d fn w).pwr = d.pwr := by
  unfold placeItem
  repeat' first
    | with_reducible rfl
    | simp -implicitDefEqProofs only [judgeItem_pwr, reply_pwr]
    | split
    | dsimp only
theorem placeHeld_pwr (d : Dev) (h : Work × Fn) : (placeHeld d h).pwr = d.pwr := by
  unfold placeHeld
  repeat' first
    | with_reducible rfl
    | simp -implicitDefEqProofs only [answerAt_pwr, completeHeld_pwr, judgeItem_pwr]
    | split
    | dsimp only
theorem placeAllHeld_pwr (d : Dev) (l : Nat) : (placeAllHeld d l).pwr = d.pwr := by
  unfold placeAllHeld
  repeat' first
    | with_reducible rfl
    | intro _
    | exact True.intro
    | (with_reducible refine Kept.same ?_; (try dsimp only); with_reducible refine Kept.of ?_)
    | simp -implicitDefEqProofs only [placeHeld_pwr]
    | rw [each_pwr]
    | split
    | dsimp only
theorem submitList_pwr (d : Dev) (fn : Fn) (l : Nat) : (submitList d fn l).pwr = d.pwr := by
  unfold submitList
  repeat' first
    | with_reducible rfl
    | simp -implicitDefEqProofs only [placeItem_pwr, apply_ite Dev.pwr, apply_ite Prod.fst, ite_self, id_eq]
    | split
    | dsimp only
theorem doSubmit_pwr (d : Dev) (fn : Fn) : (doSubmit d fn).pwr = d.pwr := by
  unfold doSubmit
  repeat' first
    | with_reducible rfl
    | intro _
    | exact True.intro
    | (with_reducible refine Kept.same ?_; (try dsimp only); with_reducible refine Kept.of ?_)
    | simp -implicitDefEqProofs only [complete_pwr, submitList_pwr, apply_ite Dev.pwr, apply_ite Prod.fst, ite_self, id_eq]
    | split
    | rw [viaNoc_pwr]
    | dsimp only
theorem serveSubmits_pwr (m : Nat) (d : Dev) (l : Nat) : (serveSubmits m d l).pwr = d.pwr := by
  induction m generalizing d with
  | zero => rfl
  | succ m ih =>
    unfold serveSubmits
    repeat' first
      | with_reducible rfl
      | exact True.intro
      | simp -implicitDefEqProofs only [ih, placeHeld_pwr, apply_ite Dev.pwr, apply_ite Prod.fst, ite_self]
      | split
theorem wakeSubmits_pwr (d : Dev) (l : Nat) : (wakeSubmits d l).pwr = d.pwr := by
  unfold wakeSubmits
  repeat' first
    | with_reducible rfl
    | simp -implicitDefEqProofs only [serveSubmits_pwr]
    | split
    | dsimp only
theorem doSubmitExpire_pwr (d : Dev) (l : Nat) : (doSubmitExpire d l).pwr = d.pwr := by
  unfold doSubmitExpire
  repeat' first
    | with_reducible rfl
    | simp -implicitDefEqProofs only [placeHeld_pwr, wakeSubmits_pwr, apply_ite Dev.pwr, apply_ite Prod.fst, ite_self, id_eq]
    | split
    | dsimp only
theorem takeItem_pwr {d : Dev} {w : Work} {e : Dev} (h : d.takeItem = some (w, e)) : e.pwr = d.pwr := by
  unfold takeItem at h; dsimp only at h; split at h
  · cases h
  · split at h
    · cases h
    · simp -implicitDefEqProofs only [Option.some.injEq, Prod.mk.injEq] at h; rw [← h.2, wakeSubmits_pwr]; exact putList_pwr _ _ _
theorem takePacket_pwr {d : Dev} {q : Nat} {w : List QWord} {e : Dev} (h : d.takePacket q = some (w, e)) : e.pwr = d.pwr := by
  unfold takePacket at h; dsimp only at h; split at h
  · cases h
  · simp -implicitDefEqProofs only [Option.some.injEq, Prod.mk.injEq] at h; rw [← h.2, each_pwr _ _ _ fun e a => .of (offerQueue_pwr e _ _ _), setQueue_pwr]
theorem putPacket_pwr (d : Dev) (c q : Nat) (ws : List QWord) : (putPacket d c q ws).pwr = d.pwr := by
  unfold putPacket
  repeat' first
    | with_reducible rfl
    | intro _
    | exact True.intro
    | (with_reducible refine Kept.same ?_; (try dsimp only); with_reducible refine Kept.of ?_)
    | simp -implicitDefEqProofs only [append_pwr]
    | rw [each_pwr]
    | split
    | dsimp only
theorem runQ2H_pwr (m : Nat) (d : Dev) (w : Work) (q used : Nat) (x : Courier) : (runQ2H m d w q used x).1.pwr = d.pwr := by
  induction m generalizing d used x with
  | zero => rfl
  | succ m ih =>
    unfold runQ2H
    repeat' first
      | with_reducible rfl
      | exact True.intro
      | simp -implicitDefEqProofs only [ih, emit_pwr, apply_ite Dev.pwr, apply_ite Prod.fst, ite_self]
      | exact takePacket_pwr (by assumption)
      | split
theorem runH2Q_pwr (m : Nat) (d : Dev) (c : Nat) (w : Work) (q : Nat) (x : Courier) : (runH2Q m d c w q x).1.pwr = d.pwr := by
  induction m generalizing d x with
  | zero => rfl
  | succ m ih =>
    unfold runH2Q
    repeat' first
      | with_reducible rfl
      | exact True.intro
      | simp -implicitDefEqProofs only [ih, putPacket_pwr, apply_ite Dev.pwr, apply_ite Prod.fst, ite_self]
      | split
theorem runQ2Q_pwr (m : Nat) (d : Dev) (c : Nat) (w : Work) (q q2 : Nat) (x : Courier) : (runQ2Q m d c w q q2 x).1.pwr = d.pwr := by
  induction m generalizing d x with
  | zero => rfl
  | succ m ih =>
    unfold runQ2Q
    repeat' first
      | with_reducible rfl
      | exact True.intro
      | simp -implicitDefEqProofs only [ih, putPacket_pwr, apply_ite Dev.pwr, apply_ite Prod.fst, ite_self]
      | exact takePacket_pwr (by assumption)
      | split
theorem runCopy_pwr (m : Nat) (d : Dev) (c : Nat) (w : Work) (k : Nat) (x : Courier) : (runCopy m d c w k x).1.pwr = d.pwr := by
  induction m generalizing d k x with
  | zero => rfl
  | succ m ih =>
    unfold runCopy
    repeat' first
      | with_reducible rfl
      | exact True.intro
      | simp -implicitDefEqProofs only [ih, emit_pwr, hbmFetch_pwr, hbmSend_pwr, apply_ite Dev.pwr, apply_ite Prod.fst, ite_self]
      | split
theorem runItem_pwr (d : Dev) (c : Nat) (w : Work) (x : Courier) : (runItem d c w x).1.pwr = d.pwr := by
  unfold runItem
  repeat' first
    | with_reducible rfl
    | simp -implicitDefEqProofs only [markBound_pwr, runCopy_pwr, runH2Q_pwr, runQ2H_pwr, runQ2Q_pwr, apply_ite Dev.pwr, apply_ite Prod.fst, ite_self, id_eq]
    | split
    | dsimp only
theorem keepItem_pwr (d : Dev) (c : Nat) (r : Courier × Bool) (was : Nat) : (keepItem d c r was).pwr = d.pwr := by
  unfold keepItem
  repeat' first
    | with_reducible rfl
    | simp -implicitDefEqProofs only [add_pwr, p_pwr, setCourier_pwr, apply_ite Dev.pwr, apply_ite Prod.fst, ite_self, id_eq]
    | split
    | dsimp only
theorem startItem_pwr (d : Dev) (c : Nat) (w : Work) (data : List Byte) : (startItem d c w data).pwr = d.pwr := by
  unfold startItem
  repeat' first
    | with_reducible rfl
    | simp -implicitDefEqProofs only [add_pwr, keepItem_pwr, p_pwr, runItem_pwr, apply_ite Dev.pwr, apply_ite Prod.fst, ite_self, id_eq]
    | split
    | dsimp only
theorem doDispatch_pwr (d : Dev) (c : Nat) (data : List Byte) : (doDispatch d c data).pwr = d.pwr := by
  unfold doDispatch
  repeat' first
    | with_reducible rfl
    | simp -implicitDefEqProofs only [on_pwr, setCourier_pwr, startItem_pwr, apply_ite Dev.pwr, apply_ite Prod.fst, ite_self, id_eq]
    | split
    | refine (takeItem_pwr (by assumption)).trans ?_
    | dsimp only
theorem writeCompletion_pwr (d : Dev) (w : Work) (v : Nat) : (writeCompletion d w v).pwr = d.pwr := by
  unfold writeCompletion
  repeat' first
    | with_reducible rfl
    | simp -implicitDefEqProofs only [add_pwr, append_pwr, irq_pwr, raise_pwr, apply_ite Dev.pwr, apply_ite Prod.fst, ite_self, id_eq]
    | split
    | dsimp only
theorem countBusy_pwr (d : Dev) (c : Nat) (x : Courier) : (countBusy d c x).pwr = d.pwr := by
  unfold countBusy
  repeat' first
    | with_reducible rfl
    | simp -implicitDefEqProofs only [add_pwr, apply_ite Dev.pwr, apply_ite Prod.fst, ite_self, id_eq]
    | split
    | dsimp only
theorem endItem_pwr (d : Dev) (c : Nat) (w : Work) (x : Courier) : (endItem d c w x).pwr = d.pwr := by
  unfold endItem
  repeat' first
    | with_reducible rfl
    | simp -implicitDefEqProofs only [add_pwr, countBusy_pwr, p_pwr, raise_pwr, setCourier_pwr, writeCompletion_pwr]
    | split
    | dsimp only
theorem doItemComplete_pwr (d : Dev) (c : Nat) : (doItemComplete d c).pwr = d.pwr := by
  unfold doItemComplete
  repeat' first
    | with_reducible rfl
    | simp -implicitDefEqProofs only [endItem_pwr, keepItem_pwr, runItem_pwr, apply_ite Dev.pwr, apply_ite Prod.fst, ite_self, id_eq]
    | split
    | dsimp only
theorem doWaitLimit_pwr (d : Dev) (c : Nat) : (doWaitLimit d c).pwr = d.pwr := by
  unfold doWaitLimit
  repeat' first
    | with_reducible rfl
    | simp -implicitDefEqProofs only [endItem_pwr, apply_ite Dev.pwr, apply_ite Prod.fst, ite_self, id_eq]
    | split
    | dsimp only
theorem doDspClr_pwr (d : Dev) : (doDspClr d).pwr = d.pwr := by
  unfold doDspClr
  repeat' first
    | with_reducible rfl
    | intro _
    | exact True.intro
    | (with_reducible refine Kept.same ?_; (try dsimp only); with_reducible refine Kept.of ?_)
    | simp -implicitDefEqProofs only [clr_pwr, p_pwr, apply_ite Dev.pwr, apply_ite Prod.fst, ite_self, id_eq]
    | rw [each_pwr]
    | split
    | dsimp only
theorem abandon_pwr (d : Dev) (src : Nat) : (abandon d src).pwr = d.pwr := by
  unfold abandon
  repeat' first
    | with_reducible rfl
    | simp -implicitDefEqProofs only [apply_ite Dev.pwr, apply_ite Prod.fst, ite_self, id_eq]
    | split
    | dsimp only
theorem resetItems_pwr (d : Dev) (i : Nat) : (resetItems d i).pwr = d.pwr := by
  unfold resetItems
  repeat' first
    | with_reducible rfl
    | intro _
    | exact True.intro
    | (with_reducible refine Kept.same ?_; (try dsimp only); with_reducible refine Kept.of ?_)
    | simp -implicitDefEqProofs only [abandon_pwr, add_pwr, countBusy_pwr, modQueue_pwr, p_pwr, putList_pwr, setCourier_pwr, apply_ite Dev.pwr, apply_ite Prod.fst, ite_self, id_eq]
    | rw [each_pwr]
    | split
    | dsimp only
end Sys2Proof.Machine.Dev
end

