-- ==== Sys2Proof/Laws/KeepPower4.lean ====
section
/-! SUPPORT. The power state is left as it was by resets, engines, partitions and time: one lemma for each function. -/

set_option linter.all false

namespace Sys2Proof.Machine.Dev

set_option Elab.async false

theorem resetCommon_pwr (d : Dev) (base : Nat) : (resetCommon d base).pwr = d.pwr := by
  unfold resetCommon
  repeat' first
    | with_reducible rfl
    | simp -implicitDefEqProofs only [resetRange_pwr]
    | split
    | dsimp only
theorem resetWindows_pwr (d : Dev) (n : Nat) : (resetWindows d n).pwr = d.pwr := by
  unfold resetWindows
  repeat' first
    | with_reducible rfl
    | intro _
    | exact True.intro
    | (with_reducible refine Kept.same ?_; (try dsimp only); with_reducible refine Kept.of ?_)
    | simp -implicitDefEqProofs only [resetCommon_pwr, resetRange_pwr]
    | rw [each_pwr]
    | split
    | dsimp only
theorem resetCluCfg_pwr (d : Dev) (n : Nat) : (resetCluCfg d n).pwr = d.pwr := by
  unfold resetCluCfg
  repeat' first
    | with_reducible rfl
    | simp -implicitDefEqProofs only [resetRange_pwr]
    | split
    | dsimp only
theorem clearCluster_pwr (d : Dev) (n : Nat) : (clearCluster d n).pwr = d.pwr := by
  unfold clearCluster
  repeat' first
    | with_reducible rfl
    | intro _
    | exact True.intro
    | (with_reducible refine Kept.same ?_; (try dsimp only); with_reducible refine Kept.of ?_)
    | simp -implicitDefEqProofs only [clearMemories_pwr, p_pwr, releasePorts_pwr]
    | rw [each_pwr]
    | split
    | dsimp only
theorem resetCluster_pwr (d : Dev) (n : Nat) : (resetCluster d n).pwr = d.pwr := by
  unfold resetCluster
  repeat' first
    | with_reducible rfl
    | simp -implicitDefEqProofs only [clearCluster_pwr, resetCluCfg_pwr, resetCommon_pwr, resetWindows_pwr]
    | split
    | dsimp only
theorem releaseCluster_pwr (d : Dev) (n : Nat) : (releaseCluster d n).pwr = d.pwr := by
  unfold releaseCluster
  repeat' first
    | with_reducible rfl
    | simp -implicitDefEqProofs only [clearCluster_pwr, resetCommon_pwr, resetWindows_pwr]
    | split
    | dsimp only
theorem freshShadow_pwr (d : Dev) (base : Nat) : (freshShadow d base).pwr = d.pwr := by
  unfold freshShadow
  repeat' first
    | with_reducible rfl
    | simp -implicitDefEqProofs only [resetRange_pwr]
    | split
    | dsimp only
theorem freshCluster_pwr (d : Dev) (n : Nat) : (freshCluster d n).pwr = d.pwr := by
  unfold freshCluster
  repeat' first
    | with_reducible rfl
    | intro _
    | exact True.intro
    | (with_reducible refine Kept.same ?_; (try dsimp only); with_reducible refine Kept.of ?_)
    | simp -implicitDefEqProofs only [freshShadow_pwr, resetCluster_pwr]
    | rw [each_pwr]
    | split
    | dsimp only
theorem resetStream_pwr (d : Dev) (s : Nat) : (resetStream d s).pwr = d.pwr := by
  unfold resetStream
  repeat' first
    | with_reducible rfl
    | simp -implicitDefEqProofs only [resetRange_pwr, setStrm_pwr]
    | split
    | dsimp only
theorem disarmOwner_pwr (d : Dev) (i : Nat) : (disarmOwner d i).pwr = d.pwr := by
  unfold disarmOwner
  repeat' first
    | with_reducible rfl
    | intro _
    | exact True.intro
    | (with_reducible refine Kept.same ?_; (try dsimp only); with_reducible refine Kept.of ?_)
    | simp -implicitDefEqProofs only [p_pwr, apply_ite Dev.pwr, apply_ite Prod.fst, ite_self, id_eq]
    | rw [each_pwr]
    | split
    | dsimp only
theorem dropSlots_pwr (d : Dev) (i : Nat) : (dropSlots d i).pwr = d.pwr := by
  unfold dropSlots
  repeat' first
    | with_reducible rfl
    | intro _
    | exact True.intro
    | (with_reducible refine Kept.same ?_; (try dsimp only); with_reducible refine Kept.of ?_)
    | simp -implicitDefEqProofs only [modLink_pwr, p_pwr]
    | rw [each_pwr]
    | split
    | dsimp only
theorem resetBudgets_pwr (d : Dev) (i : Nat) : (resetBudgets d i).pwr = d.pwr := by
  unfold resetBudgets
  repeat' first
    | with_reducible rfl
    | intro _
    | exact True.intro
    | (with_reducible refine Kept.same ?_; (try dsimp only); with_reducible refine Kept.of ?_)
    | simp -implicitDefEqProofs only [dropSlots_pwr, resetRange_pwr]
    | rw [each_pwr]
    | split
    | dsimp only
theorem dropActivities_pwr (d : Dev) (i : Nat) : (dropActivities d i).pwr = d.pwr := by
  unfold dropActivities
  repeat' first
    | with_reducible rfl
    | simp -implicitDefEqProofs only [cutSave_pwr, mntFree_pwr, p_pwr, apply_ite Dev.pwr, apply_ite Prod.fst, ite_self, id_eq]
    | split
    | dsimp only
theorem capDrop_pwr (d : Dev) (c : Nat) : (capDrop d c).pwr = d.pwr := by
  unfold capDrop
  repeat' first
    | with_reducible rfl
    | intro _
    | exact True.intro
    | (with_reducible refine Kept.same ?_; (try dsimp only); with_reducible refine Kept.of ?_)
    | simp -implicitDefEqProofs only [capIdle_pwr, modChan_pwr]
    | rw [each_pwr]
    | split
    | dsimp only
theorem ptnResetNow_pwr (d : Dev) (i : Nat) : (ptnResetNow d i).pwr = d.pwr := by
  unfold ptnResetNow
  repeat' first
    | with_reducible rfl
    | intro _
    | exact True.intro
    | (with_reducible refine Kept.same ?_; (try dsimp only); with_reducible refine Kept.of ?_)
    | simp -implicitDefEqProofs only [abandon_pwr, capDrop_pwr, disarmOwner_pwr, dropActivities_pwr, forgetSigs_pwr, forgetSteps_pwr, landFar_pwr, modPtn_pwr, p_pwr, placeAllHeld_pwr, resetBudgets_pwr, resetCluster_pwr, resetItems_pwr, resetRange_pwr, resetStream_pwr]
    | rw [each_pwr]
    | split
    | dsimp only
theorem ptnResetReq_pwr (d : Dev) (i : Nat) : (ptnResetReq d i).pwr = d.pwr := by
  unfold ptnResetReq
  repeat' first
    | with_reducible rfl
    | simp -implicitDefEqProofs only [modPtn_pwr, ptnResetNow_pwr, apply_ite Dev.pwr, apply_ite Prod.fst, ite_self, id_eq]
    | split
    | dsimp only
theorem ptnResetDone_pwr (d : Dev) (i : Nat) : (ptnResetDone d i).pwr = d.pwr := by
  unfold ptnResetDone
  repeat' first
    | with_reducible rfl
    | simp -implicitDefEqProofs only [p_pwr, apply_ite Dev.pwr, apply_ite Prod.fst, ite_self, id_eq]
    | split
    | dsimp only
theorem releaseTrigger_pwr (d : Dev) (i : Nat) : (releaseTrigger d i).pwr = d.pwr := by
  unfold releaseTrigger
  repeat' first
    | with_reducible rfl
    | intro _
    | exact True.intro
    | (with_reducible refine Kept.same ?_; (try dsimp only); with_reducible refine Kept.of ?_)
    | simp -implicitDefEqProofs only [p_pwr, stopPulse_pwr, apply_ite Dev.pwr, apply_ite Prod.fst, ite_self, id_eq]
    | rw [each_pwr]
    | split
    | dsimp only
theorem releaseCapture_pwr (d : Dev) (i : Nat) : (releaseCapture d i).pwr = d.pwr := by
  unfold releaseCapture
  repeat' first
    | with_reducible rfl
    | intro _
    | exact True.intro
    | (with_reducible refine Kept.same ?_; (try dsimp only); with_reducible refine Kept.of ?_)
    | simp -implicitDefEqProofs only [capDrop_pwr, p_pwr, setChanOwner_pwr, apply_ite Dev.pwr, apply_ite Prod.fst, ite_self, id_eq]
    | rw [each_pwr]
    | split
    | dsimp only
theorem releaseBridges_pwr (d : Dev) (i : Nat) : (releaseBridges d i).pwr = d.pwr := by
  unfold releaseBridges
  repeat' first
    | with_reducible rfl
    | intro _
    | exact True.intro
    | (with_reducible refine Kept.same ?_; (try dsimp only); with_reducible refine Kept.of ?_)
    | simp -implicitDefEqProofs only [p_pwr, apply_ite Dev.pwr, apply_ite Prod.fst, ite_self, id_eq]
    | rw [each_pwr]
    | split
    | dsimp only
theorem releaseDebug_pwr (d : Dev) (i : Nat) : (releaseDebug d i).pwr = d.pwr := by
  unfold releaseDebug
  repeat' first
    | with_reducible rfl
    | simp -implicitDefEqProofs only [releaseBridges_pwr, releaseCapture_pwr, releaseTrigger_pwr, resetStream_pwr]
    | split
    | dsimp only
theorem zeroEntries_pwr (d : Dev) (is : List Nat) : (zeroEntries d is).1.pwr = d.pwr := by
  induction is generalizing d with
  | nil => rfl
  | cons i is ih =>
    unfold zeroEntries; dsimp only; split
    · exact (logFail_pwr _ _ _).trans (logCheck_pwr _ _ _)
    · exact (ih _).trans (logCheck_pwr _ _ _)
theorem doLogClear_pwr (d : Dev) : (doLogClear d).pwr = d.pwr := by
  unfold doLogClear
  repeat' first
    | with_reducible rfl
    | simp -implicitDefEqProofs only [p_pwr, zeroEntries_pwr, apply_ite Dev.pwr, apply_ite Prod.fst, ite_self, id_eq]
    | split
    | dsimp only
theorem doLastGaspClear_pwr (d : Dev) : (doLastGaspClear d).pwr = d.pwr := by
  unfold doLastGaspClear
  repeat' first
    | with_reducible rfl
    | simp -implicitDefEqProofs only [p_pwr]
    | split
    | dsimp only
theorem doClearAll_pwr (d : Dev) : (doClearAll d).pwr = d.pwr := by
  unfold doClearAll
  repeat' first
    | with_reducible rfl
    | intro _
    | exact True.intro
    | (with_reducible refine Kept.same ?_; (try dsimp only); with_reducible refine Kept.of ?_)
    | simp -implicitDefEqProofs only [p_pwr]
    | rw [each_pwr]
    | split
    | dsimp only
theorem doCounterSaturate_pwr (d : Dev) (base : Nat) (i : Nat) : (doCounterSaturate d base i).pwr = d.pwr := by
  unfold doCounterSaturate
  repeat' first
    | with_reducible rfl
    | simp -implicitDefEqProofs only [on_pwr, p_pwr, apply_ite Dev.pwr, apply_ite Prod.fst, ite_self, id_eq]
    | split
    | dsimp only
theorem doRoll_pwr (d : Dev) : (doRoll d).pwr = d.pwr := by
  unfold doRoll
  repeat' first
    | with_reducible rfl
    | simp -implicitDefEqProofs only [requestRoll_pwr]
    | split
    | dsimp only
theorem doKeyRollStart_pwr (d : Dev) : (doKeyRollStart d).pwr = d.pwr := by
  unfold doKeyRollStart
  repeat' first
    | with_reducible rfl
    | simp -implicitDefEqProofs only [tryRoll_pwr]
    | split
    | dsimp only
theorem doKeyRollSector_pwr (d : Dev) : (doKeyRollSector d).pwr = d.pwr := by
  unfold doKeyRollSector
  repeat' first
    | with_reducible rfl
    | simp -implicitDefEqProofs only [convertSector_pwr, endRoll_pwr, p_pwr, pauseRoll_pwr, apply_ite Dev.pwr, apply_ite Prod.fst, ite_self, id_eq]
    | split
    | dsimp only
theorem doImeClrCounts_pwr (d : Dev) : (doImeClrCounts d).pwr = d.pwr := by
  unfold doImeClrCounts
  repeat' first
    | with_reducible rfl
    | intro _
    | exact True.intro
    | (with_reducible refine Kept.same ?_; (try dsimp only); with_reducible refine Kept.of ?_)
    | simp -implicitDefEqProofs only [p_pwr]
    | rw [each_pwr]
    | split
    | dsimp only
theorem doSysFreeze_pwr (d : Dev) : (doSysFreeze d).pwr = d.pwr := by
  unfold doSysFreeze
  repeat' first
    | with_reducible rfl
    | simp -implicitDefEqProofs only [raiseSysFreeze_pwr]
    | split
    | dsimp only
theorem doStrobe_pwr (d : Dev) : (doStrobe d).pwr = d.pwr := by
  unfold doStrobe
  repeat' first
    | with_reducible rfl
    | simp -implicitDefEqProofs only [strobeReq_pwr]
    | split
    | dsimp only
theorem doCaptureArm_pwr (d : Dev) (c : Nat) : (doCaptureArm d c).pwr = d.pwr := by
  unfold doCaptureArm
  repeat' first
    | with_reducible rfl
    | intro _
    | exact True.intro
    | (with_reducible refine Kept.same ?_; (try dsimp only); with_reducible refine Kept.of ?_)
    | simp -implicitDefEqProofs only [beginCapture_pwr, modChan_pwr, p_pwr, apply_ite Dev.pwr, apply_ite Prod.fst, ite_self, id_eq]
    | rw [each_pwr]
    | split
    | dsimp only
theorem doCaptureDisarm_pwr (d : Dev) (c : Nat) : (doCaptureDisarm d c).pwr = d.pwr := by
  unfold doCaptureDisarm
  repeat' first
    | with_reducible rfl
    | intro _
    | exact True.intro
    | (with_reducible refine Kept.same ?_; (try dsimp only); with_reducible refine Kept.of ?_)
    | simp -implicitDefEqProofs only [capIdle_pwr, cutBlock_pwr, writeEntry_pwr, apply_ite Dev.pwr, apply_ite Prod.fst, ite_self, id_eq]
    | rw [each_pwr]
    | split
    | dsimp only
theorem doCaptureBlockWrite_pwr (d : Dev) (ch addr : Nat) : (doCaptureBlockWrite d ch addr).pwr = d.pwr := by
  unfold doCaptureBlockWrite
  repeat' first
    | with_reducible rfl
    | simp -implicitDefEqProofs only [chanComplete_pwr, setChan_pwr, apply_ite Dev.pwr, apply_ite Prod.fst, ite_self, id_eq]
    | split
    | dsimp only
theorem doPostLimitExpire_pwr (d : Dev) (ch : Nat) : (doPostLimitExpire d ch).pwr = d.pwr := by
  unfold doPostLimitExpire
  repeat' first
    | with_reducible rfl
    | simp -implicitDefEqProofs only [chanComplete_pwr, apply_ite Dev.pwr, apply_ite Prod.fst, ite_self, id_eq]
    | split
    | dsimp only
theorem doRearmExpire_pwr (d : Dev) (c : Nat) : (doRearmExpire d c).pwr = d.pwr := by
  unfold doRearmExpire
  repeat' first
    | with_reducible rfl
    | simp -implicitDefEqProofs only [beginCapture_pwr, apply_ite Dev.pwr, apply_ite Prod.fst, ite_self, id_eq]
    | split
    | dsimp only
theorem doChannelOwnerWrite_pwr (d : Dev) (ch : Nat) (owner : Nat) : (doChannelOwnerWrite d ch owner).pwr = d.pwr := by
  unfold doChannelOwnerWrite
  repeat' first
    | with_reducible rfl
    | simp -implicitDefEqProofs only [setChanOwner_pwr]
    | split
    | dsimp only
theorem doZeroingComplete_pwr (d : Dev) (ch : Nat) : (doZeroingComplete d ch).pwr = d.pwr := by
  unfold doZeroingComplete
  repeat' first
    | with_reducible rfl
    | simp -implicitDefEqProofs only [modChan_pwr, zeroRange_pwr, apply_ite Dev.pwr, apply_ite Prod.fst, ite_self, id_eq]
    | split
    | dsimp only
theorem doPinwheelConfigWrite_pwr (d : Dev) (size : Bool) (v : W64) : (doPinwheelConfigWrite d size v).pwr = d.pwr := by
  unfold doPinwheelConfigWrite
  repeat' first
    | with_reducible rfl
    | simp -implicitDefEqProofs only [on_pwr, p_pwr, apply_ite Dev.pwr, apply_ite Prod.fst, ite_self, id_eq]
    | split
    | dsimp only
theorem setDir_pwr (d : Dev) (i st mask qbase qcount : Nat) : (setDir d i st mask qbase qcount).pwr = d.pwr := by
  unfold setDir
  repeat' first
    | with_reducible rfl
    | simp -implicitDefEqProofs only [p_pwr]
    | split
    | dsimp only
theorem clearQueues_pwr (d : Dev) (lo n : Nat) : (clearQueues d lo n).pwr = d.pwr := by
  unfold clearQueues
  repeat' first
    | with_reducible rfl
    | intro _
    | exact True.intro
    | (with_reducible refine Kept.same ?_; (try dsimp only); with_reducible refine Kept.of ?_)
    | simp -implicitDefEqProofs only [disableQueue_pwr]
    | rw [each_pwr]
    | split
    | dsimp only
theorem clearAdded_pwr (d : Dev) (lo n lo' n' : Nat) : (clearAdded d lo n lo' n').pwr = d.pwr := by
  unfold clearAdded
  repeat' first
    | with_reducible rfl
    | intro _
    | exact True.intro
    | (with_reducible refine Kept.same ?_; (try dsimp only); with_reducible refine Kept.of ?_)
    | simp -implicitDefEqProofs only [disableQueue_pwr]
    | rw [each_pwr]
    | split
    | dsimp only
theorem answerPtn_pwr (d : Dev) (i op tag status : Nat) (ws : List W64) : (answerPtn d i op tag status ws).pwr = d.pwr := by
  unfold answerPtn
  repeat' first
    | with_reducible rfl
    | simp -implicitDefEqProofs only [answer_pwr, apply_ite Dev.pwr, apply_ite Prod.fst, ite_self, id_eq]
    | split
    | dsimp only
theorem releaseAnswers_pwr (d : Dev) (i : Nat) : (releaseAnswers d i).pwr = d.pwr := by
  unfold releaseAnswers
  repeat' first
    | with_reducible rfl
    | simp -implicitDefEqProofs only [sendAnswers_pwr]
    | split
    | dsimp only
theorem serving_pwr (d : Dev) (k : Dev → Dev) (h : ∀ e, Kept (k e) e) : (d.serving k).pwr = d.pwr := by
  unfold serving; split
  · exact (h d).eq
  · rfl
theorem openPtn_pwr (d : Dev) (i : Nat) (vf : Bool) (mask shape a size : Nat) : (openPtn d i vf mask shape a size).pwr = d.pwr := by
  unfold openPtn
  repeat' first
    | with_reducible rfl
    | intro _
    | exact True.intro
    | (with_reducible refine Kept.same ?_; (try dsimp only); with_reducible refine Kept.of ?_)
    | simp -implicitDefEqProofs only [clearCluster_pwr, clearQueues_pwr, p_pwr, setDir_pwr, setPtn_pwr, tick_pwr]
    | rw [each_pwr]
    | split
    | dsimp only
theorem doPtnCreate_pwr (d : Dev) (tag i : Nat) (vf : Bool) (mask shape quota : Nat) : (doPtnCreate d tag i vf mask shape quota).pwr = d.pwr := by
  unfold doPtnCreate
  repeat' first
    | with_reducible rfl
    | simp -implicitDefEqProofs only [answer_pwr, answerPtn_pwr, openPtn_pwr, takeService_pwr, apply_ite Dev.pwr, apply_ite Prod.fst, ite_self, id_eq]
    | split
    | dsimp only
theorem endBatch_pwr (d : Dev) (i : Nat) : (endBatch d i).pwr = d.pwr := by
  unfold endBatch
  repeat' first
    | with_reducible rfl
    | simp -implicitDefEqProofs only [irq_pwr, modPtn_pwr, on_pwr, p_pwr, apply_ite Dev.pwr, apply_ite Prod.fst, ite_self, id_eq]
    | split
    | dsimp only
theorem drainNi_pwr (d : Dev) (n : Nat) : (drainNi d n).pwr = d.pwr := by
  unfold drainNi
  repeat' first
    | with_reducible rfl
    | simp -implicitDefEqProofs only [p_pwr, apply_ite Dev.pwr, apply_ite Prod.fst, ite_self, id_eq]
    | split
    | dsimp only
theorem fenceNi_pwr (d : Dev) (n : Nat) : (fenceNi d n).pwr = d.pwr := by
  unfold fenceNi
  repeat' first
    | with_reducible rfl
    | simp -implicitDefEqProofs only [p_pwr]
    | split
    | dsimp only
theorem doPtnDestroy_pwr (d : Dev) (tag i : Nat) : (doPtnDestroy d tag i).pwr = d.pwr := by
  unfold doPtnDestroy
  repeat' first
    | with_reducible rfl
    | intro _
    | exact True.intro
    | (with_reducible refine Kept.same ?_; (try dsimp only); with_reducible refine Kept.of ?_)
    | simp -implicitDefEqProofs only [answer_pwr, answerPtn_pwr, doSnapAbort_pwr, drainNi_pwr, endBatch_pwr, farDrain_pwr, modPtn_pwr, p_pwr, releaseDebug_pwr, stopNow_pwr, takeService_pwr, apply_ite Dev.pwr, apply_ite Prod.fst, ite_self, id_eq]
    | rw [each_pwr]
    | split
    | dsimp only
theorem returnItem_pwr (d : Dev) (w : Work) : (returnItem d w).pwr = d.pwr := by
  unfold returnItem
  repeat' first
    | with_reducible rfl
    | simp -implicitDefEqProofs only [writeCompletion_pwr]
    | split
    | dsimp only
theorem returnItems_pwr (d : Dev) (i : Nat) (moves : Work → Bool) : (returnItems d i moves).1.pwr = d.pwr := by
  unfold returnItems
  repeat' first
    | with_reducible rfl
    | intro _
    | exact True.intro
    | (with_reducible refine Kept.same ?_; (try dsimp only); with_reducible refine Kept.of ?_)
    | simp -implicitDefEqProofs only [p_pwr, putList_pwr, returnItem_pwr, setCourier_pwr, apply_ite Dev.pwr, apply_ite Prod.fst, ite_self, id_eq]
    | rw [each_pwr]
    | split
    | with_reducible refine (fst_pwr (fun _ _ => ?_) _ _).trans ?_
    | with_reducible refine (foldl_pwr (fun _ _ => ?_) _ _).trans ?_
    | dsimp only
theorem doPtnClose_pwr (d : Dev) (i : Nat) : (doPtnClose d i).pwr = d.pwr := by
  unfold doPtnClose
  repeat' first
    | with_reducible rfl
    | intro _
    | exact True.intro
    | (with_reducible refine Kept.same ?_; (try dsimp only); with_reducible refine Kept.of ?_)
    | simp -implicitDefEqProofs only [answer_pwr, clearQueues_pwr, doZeroingComplete_pwr, forgetSigs_pwr, forgetSteps_pwr, mntFree_pwr, p_pwr, placeAllHeld_pwr, releaseAnswers_pwr, releaseCluster_pwr, resetBudgets_pwr, resetRange_pwr, returnItems_pwr, setDir_pwr, setPtn_pwr, unload_pwr, zeroRange_pwr, apply_ite Dev.pwr, apply_ite Prod.fst, ite_self, id_eq]
    | rw [each_pwr]
    | split
    | dsimp only
theorem doPtnResize_pwr (d : Dev) (tag i : Nat) (retarget : Bool) (mask shape : Nat) : (doPtnResize d tag i retarget mask shape).pwr = d.pwr := by
  unfold doPtnResize
  repeat' first
    | with_reducible rfl
    | intro _
    | exact True.intro
    | (with_reducible refine Kept.same ?_; (try dsimp only); with_reducible refine Kept.of ?_)
    | simp -implicitDefEqProofs only [answer_pwr, answerPtn_pwr, drainNi_pwr, farDrain_pwr, mntRequest_pwr, modPtn_pwr, p_pwr, takeService_pwr, apply_ite Dev.pwr, apply_ite Prod.fst, ite_self, id_eq]
    | rw [each_pwr]
    | split
    | dsimp only
theorem moveQueues_pwr (d : Dev) (i lo n lo' n' : Nat) : (moveQueues d i lo n lo' n').pwr = d.pwr := by
  unfold moveQueues
  repeat' first
    | with_reducible rfl
    | intro _
    | exact True.intro
    | (with_reducible refine Kept.same ?_; (try dsimp only); with_reducible refine Kept.of ?_)
    | simp -implicitDefEqProofs only [clearAdded_pwr, clearQueues_pwr, p_pwr, apply_ite Dev.pwr, apply_ite Prod.fst, ite_self, id_eq]
    | rw [each_pwr]
    | split
    | with_reducible refine (fst_pwr (fun _ _ => ?_) _ _).trans ?_
    | with_reducible refine (foldl_pwr (fun _ _ => ?_) _ _).trans ?_
    | dsimp only
theorem retargetSave_pwr (d : Dev) (i : Nat) : (retargetSave d i).pwr = d.pwr := by
  unfold retargetSave
  repeat' first
    | with_reducible rfl
    | simp -implicitDefEqProofs only [doSnapSaveComplete_pwr, mntRequest_pwr, on_pwr, p_pwr, snapPut_pwr]
    | split
    | dsimp only
theorem doPtnResizeComplete_pwr (d : Dev) (i : Nat) : (doPtnResizeComplete d i).pwr = d.pwr := by
  unfold doPtnResizeComplete
  repeat' first
    | with_reducible rfl
    | intro _
    | exact True.intro
    | (with_reducible refine Kept.same ?_; (try dsimp only); with_reducible refine Kept.of ?_)
    | simp -implicitDefEqProofs only [answer_pwr, clearCluster_pwr, mntFree_pwr, modPtn_pwr, moveQueues_pwr, p_pwr, ptnResetReq_pwr, releaseAnswers_pwr, releaseCluster_pwr, releasePorts_pwr, retargetSave_pwr, returnItems_pwr, scrambleTiles_pwr, setDir_pwr, wakeAll_pwr, apply_ite Dev.pwr, apply_ite Prod.fst, ite_self, id_eq]
    | rw [each_pwr]
    | rw [iff_pwr]
    | split
    | dsimp only
theorem doPtnQuery_pwr (d : Dev) (tag i : Nat) : (doPtnQuery d tag i).pwr = d.pwr := by
  unfold doPtnQuery
  repeat' first
    | with_reducible rfl
    | simp -implicitDefEqProofs only [answer_pwr, answerPtn_pwr, takeService_pwr, apply_ite Dev.pwr, apply_ite Prod.fst, ite_self, id_eq]
    | split
    | dsimp only
theorem doPing_pwr (d : Dev) (tag arg : Nat) : (doPing d tag arg).pwr = d.pwr := by
  unfold doPing
  repeat' first
    | with_reducible rfl
    | simp -implicitDefEqProofs only [answer_pwr, takeService_pwr]
    | split
    | dsimp only
theorem sendBeacon_pwr (d : Dev) (gi time hops : Nat) : (sendBeacon d gi time hops).pwr = d.pwr := by
  unfold sendBeacon
  repeat' first
    | with_reducible rfl
    | simp -implicitDefEqProofs only [control_pwr, apply_ite Dev.pwr, apply_ite Prod.fst, ite_self, id_eq]
    | split
    | dsimp only
theorem stepTime_pwr (d : Dev) (t kind : Nat) : (stepTime d t kind).pwr = d.pwr := by
  unfold stepTime
  repeat' first
    | with_reducible rfl
    | simp -implicitDefEqProofs only [discont_pwr, p_pwr]
    | split
    | dsimp only
theorem holdTime_pwr (d : Dev) (off : Int) : (holdTime d off).pwr = d.pwr := by
  unfold holdTime
  repeat' first
    | with_reducible rfl
    | simp -implicitDefEqProofs only [discont_pwr, on_pwr, apply_ite Dev.pwr, apply_ite Prod.fst, ite_self, id_eq]
    | split
    | dsimp only
theorem lockCount_pwr (d : Dev) (off : Int) : (lockCount d off).pwr = d.pwr := by
  unfold lockCount
  repeat' first
    | with_reducible rfl
    | simp -implicitDefEqProofs only [on_pwr, p_pwr, apply_ite Dev.pwr, apply_ite Prod.fst, ite_self, id_eq]
    | split
    | dsimp only
theorem followTime_pwr (d : Dev) (t : Nat) (whole : Bool) : (followTime d t whole).pwr = d.pwr := by
  unfold followTime
  repeat' first
    | with_reducible rfl
    | simp -implicitDefEqProofs only [holdTime_pwr, lockCount_pwr, on_pwr, p_pwr, stepTime_pwr, apply_ite Dev.pwr, apply_ite Prod.fst, ite_self, id_eq]
    | split
    | dsimp only
theorem doBeaconSend_pwr (d : Dev) : (doBeaconSend d).pwr = d.pwr := by
  unfold doBeaconSend
  repeat' first
    | with_reducible rfl
    | intro _
    | exact True.intro
    | (with_reducible refine Kept.same ?_; (try dsimp only); with_reducible refine Kept.of ?_)
    | simp -implicitDefEqProofs only [sendBeacon_pwr, apply_ite Dev.pwr, apply_ite Prod.fst, ite_self, id_eq]
    | rw [each_pwr]
    | split
    | dsimp only
theorem doBeacon_pwr (d : Dev) (gi ns frac hops master : Nat) (intact : Bool) : (doBeacon d gi ns frac hops master intact).pwr = d.pwr := by
  unfold doBeacon
  repeat' first
    | with_reducible rfl
    | intro _
    | exact True.intro
    | (with_reducible refine Kept.same ?_; (try dsimp only); with_reducible refine Kept.of ?_)
    | simp -implicitDefEqProofs only [ctlBad_pwr, followTime_pwr, on_pwr, p_pwr, sendBeacon_pwr, apply_ite Dev.pwr, apply_ite Prod.fst, ite_self, id_eq]
    | rw [each_pwr]
    | split
    | dsimp only
theorem doBeaconTimeout_pwr (d : Dev) : (doBeaconTimeout d).pwr = d.pwr := by
  unfold doBeaconTimeout
  repeat' first
    | with_reducible rfl
    | simp -implicitDefEqProofs only [on_pwr, apply_ite Dev.pwr, apply_ite Prod.fst, ite_self, id_eq]
    | split
    | dsimp only
theorem ringBeacon_pwr (d : Dev) (ttl ns frac : Nat) : (ringBeacon d ttl ns frac).pwr = d.pwr := by
  unfold ringBeacon
  repeat' first
    | with_reducible rfl
    | simp -implicitDefEqProofs only [followTime_pwr, apply_ite Dev.pwr, apply_ite Prod.fst, ite_self, id_eq]
    | split
    | dsimp only
theorem doHoldEnd_pwr (d : Dev) : (doHoldEnd d).pwr = d.pwr := by
  unfold doHoldEnd
  repeat' first
    | with_reducible rfl
    | simp -implicitDefEqProofs only [p_pwr, apply_ite Dev.pwr, apply_ite Prod.fst, ite_self, id_eq]
    | split
    | dsimp only
theorem doTsbSet_pwr (d : Dev) (v : Nat) : (doTsbSet d v).pwr = d.pwr := by
  unfold doTsbSet
  repeat' first
    | with_reducible rfl
    | simp -implicitDefEqProofs only [stepTime_pwr, apply_ite Dev.pwr, apply_ite Prod.fst, ite_self, id_eq]
    | split
    | dsimp only
theorem clockStep_pwr (d : Dev) : (clockStep d).pwr = d.pwr := by
  unfold clockStep
  repeat' first
    | with_reducible rfl
    | intro _
    | exact True.intro
    | (with_reducible refine Kept.same ?_; (try dsimp only); with_reducible refine Kept.of ?_)
    | simp -implicitDefEqProofs only [add_pwr, p_pwr, pupStep_pwr, raise_pwr, apply_ite Dev.pwr, apply_ite Prod.fst, ite_self, id_eq]
    | rw [each_pwr]
    | split
    | dsimp only
end Sys2Proof.Machine.Dev
end

