-- ==== Sys2Proof/Laws/KeepPower5.lean ====
section
/-! SUPPORT. The power state is left as it was by boot, the loader, scrubbing, lane groups and the network: one lemma for each function. -/

set_option linter.all false

namespace Sys2Proof.Machine.Dev

set_option Elab.async false

theorem setBoot_pwr (d : Dev) (st : Nat) : (setBoot d st).pwr = d.pwr := by
  unfold setBoot
  repeat' first
    | with_reducible rfl
    | simp -implicitDefEqProofs only [p_pwr]
    | split
    | dsimp only
theorem clearStaging_pwr (d : Dev) : (clearStaging d).pwr = d.pwr := by
  unfold clearStaging
  repeat' first
    | with_reducible rfl
    | simp -implicitDefEqProofs only [ite_self]
    | split
    | dsimp only
theorem refuseBundle_pwr (d : Dev) (code : Nat) : (refuseBundle d code).pwr = d.pwr := by
  unfold refuseBundle
  repeat' first
    | with_reducible rfl
    | simp -implicitDefEqProofs only [add_pwr, clearStaging_pwr, irq_pwr, p_pwr, setBoot_pwr]
    | split
    | dsimp only
theorem doBootGo_pwr (d : Dev) : (doBootGo d).pwr = d.pwr := by
  unfold doBootGo
  repeat' first
    | with_reducible rfl
    | simp -implicitDefEqProofs only [add_pwr, refuseBundle_pwr, setBoot_pwr, apply_ite Dev.pwr, apply_ite Prod.fst, ite_self, id_eq]
    | split
    | dsimp only
theorem doBootAbort_pwr (d : Dev) : (doBootAbort d).pwr = d.pwr := by
  unfold doBootAbort
  repeat' first
    | with_reducible rfl
    | simp -implicitDefEqProofs only [refuseBundle_pwr, apply_ite Dev.pwr, apply_ite Prod.fst, ite_self, id_eq]
    | split
    | dsimp only
theorem doFetchDone_pwr (d : Dev) (data : Option (List Byte)) : (doFetchDone d data).pwr = d.pwr := by
  unfold doFetchDone
  repeat' first
    | with_reducible rfl
    | simp -implicitDefEqProofs only [refuseBundle_pwr, setBoot_pwr, apply_ite Dev.pwr, apply_ite Prod.fst, ite_self, id_eq]
    | split
    | dsimp only
theorem doVerifyDone_pwr (d : Dev) : (doVerifyDone d).pwr = d.pwr := by
  unfold doVerifyDone
  repeat' first
    | with_reducible rfl
    | intro _
    | exact True.intro
    | (with_reducible refine Kept.same ?_; (try dsimp only); with_reducible refine Kept.of ?_)
    | simp -implicitDefEqProofs only [p_pwr, refuseBundle_pwr, setBoot_pwr, apply_ite Dev.pwr, apply_ite Prod.fst, ite_self, id_eq]
    | rw [each_pwr]
    | split
    | dsimp only
theorem stageQueue_pwr (d : Dev) (q depth : Nat) : (stageQueue d q depth).pwr = d.pwr := by
  unfold stageQueue
  repeat' first
    | with_reducible rfl
    | simp -implicitDefEqProofs only [setQueue_pwr]
    | split
    | dsimp only
theorem stageQueues_pwr (d : Dev) : (stageQueues d).pwr = d.pwr := by
  unfold stageQueues
  repeat' first
    | with_reducible rfl
    | intro _
    | exact True.intro
    | (with_reducible refine Kept.same ?_; (try dsimp only); with_reducible refine Kept.of ?_)
    | simp -implicitDefEqProofs only [stageQueue_pwr, apply_ite Dev.pwr, apply_ite Prod.fst, ite_self, id_eq]
    | split
    | with_reducible refine (fst_pwr (fun _ _ => ?_) _ _).trans ?_
    | with_reducible refine (foldl_pwr (fun _ _ => ?_) _ _).trans ?_
    | dsimp only
theorem doStageReady_pwr (d : Dev) : (doStageReady d).pwr = d.pwr := by
  unfold doStageReady
  repeat' first
    | with_reducible rfl
    | intro _
    | exact True.intro
    | (with_reducible refine Kept.same ?_; (try dsimp only); with_reducible refine Kept.of ?_)
    | simp -implicitDefEqProofs only [irq_pwr, on_pwr, p_pwr, setBoot_pwr, stageQueues_pwr, apply_ite Dev.pwr, apply_ite Prod.fst, ite_self, id_eq]
    | rw [each_pwr]
    | split
    | dsimp only
theorem doConfirm_pwr (d : Dev) : (doConfirm d).pwr = d.pwr := by
  unfold doConfirm
  repeat' first
    | with_reducible rfl
    | simp -implicitDefEqProofs only [irq_pwr, mntRequest_pwr, p_pwr, setBoot_pwr, apply_ite Dev.pwr, apply_ite Prod.fst, ite_self, id_eq]
    | split
    | dsimp only
theorem burnAll_pwr (d : Dev) (n : Nat) : (burnAll d n).pwr = d.pwr := by
  unfold burnAll
  repeat' first
    | with_reducible rfl
    | simp -implicitDefEqProofs only [apply_ite Dev.pwr, apply_ite Prod.fst, ite_self, id_eq]
    | split
    | dsimp only
theorem burnPart_pwr (d : Dev) (n : Nat) : (burnPart d n).pwr = d.pwr := by
  unfold burnPart
  repeat' first
    | with_reducible rfl
    | simp -implicitDefEqProofs only [tick_pwr, apply_ite Dev.pwr, apply_ite Prod.fst, ite_self, id_eq]
    | split
    | dsimp only
theorem doBurnDone_pwr (d : Dev) (fault : Bool) : (doBurnDone d fault).pwr = d.pwr := by
  unfold doBurnDone
  repeat' first
    | with_reducible rfl
    | simp -implicitDefEqProofs only [burnAll_pwr, burnPart_pwr, irq_pwr, mntFree_pwr, p_pwr, setBoot_pwr, apply_ite Dev.pwr, apply_ite Prod.fst, ite_self, id_eq]
    | split
    | dsimp only
theorem doOwnerProvision_pwr (d : Dev) (tag : Nat) (ws : List W64) : (doOwnerProvision d tag ws).pwr = d.pwr := by
  unfold doOwnerProvision
  repeat' first
    | with_reducible rfl
    | simp -implicitDefEqProofs only [answer_pwr, mntFree_pwr, mntRequest_pwr, takeService_pwr, apply_ite Dev.pwr, apply_ite Prod.fst, ite_self, id_eq]
    | split
    | dsimp only
theorem ownerPart_pwr (d : Dev) (hash : BitVec 384) (cut : Bool) : (ownerPart d hash cut).pwr = d.pwr := by
  unfold ownerPart
  repeat' first
    | with_reducible rfl
    | simp -implicitDefEqProofs only [tick_pwr, apply_ite Dev.pwr, apply_ite Prod.fst, ite_self, id_eq]
    | split
    | dsimp only
theorem doOwnerBurnDone_pwr (d : Dev) (fault : Bool) : (doOwnerBurnDone d fault).pwr = d.pwr := by
  unfold doOwnerBurnDone
  repeat' first
    | with_reducible rfl
    | simp -implicitDefEqProofs only [answer_pwr, mntFree_pwr, ownerPart_pwr, p_pwr, setAuthMode_pwr, apply_ite Dev.pwr, apply_ite Prod.fst, ite_self, id_eq]
    | split
    | dsimp only
theorem cutBurns_pwr (d : Dev) : (cutBurns d).pwr = d.pwr := by
  unfold cutBurns
  repeat' first
    | with_reducible rfl
    | simp -implicitDefEqProofs only [burnPart_pwr, ownerPart_pwr, apply_ite Dev.pwr, apply_ite Prod.fst, ite_self, id_eq]
    | split
    | dsimp only
theorem romStart_pwr (d : Dev) : (romStart d).pwr = d.pwr := by
  unfold romStart
  repeat' first
    | with_reducible rfl
    | simp -implicitDefEqProofs only [p_pwr]
    | split
    | dsimp only
theorem doTokenPresent_pwr (d : Dev) (tag : Nat) (ws : List W64) : (doTokenPresent d tag ws).pwr = d.pwr := by
  unfold doTokenPresent
  repeat' first
    | with_reducible rfl
    | simp -implicitDefEqProofs only [add_pwr, answer_pwr, applyRights_pwr, p_pwr, takeService_pwr, apply_ite Dev.pwr, apply_ite Prod.fst, ite_self, id_eq]
    | split
    | dsimp only
theorem runService_pwr (d : Dev) (op tag arg : Nat) (ws : List W64) : (runService d op tag arg ws).pwr = d.pwr := by
  unfold runService
  repeat' first
    | with_reducible rfl
    | simp -implicitDefEqProofs only [doOwnerProvision_pwr, doPing_pwr, doPtnCreate_pwr, doPtnDestroy_pwr, doPtnQuery_pwr, doPtnResize_pwr, doTokenChallenge_pwr, doTokenPresent_pwr, doTokenRevoke_pwr, apply_ite Dev.pwr, apply_ite Prod.fst, ite_self, id_eq]
    | split
    | dsimp only
theorem swapService_pwr (d : Dev) (ws : List W64) : (swapService d ws).pwr = d.pwr := by
  unfold swapService
  repeat' first
    | with_reducible rfl
    | simp -implicitDefEqProofs only [modQueue_pwr]
    | split
    | dsimp only
theorem doBadCommand_pwr (d : Dev) (hdr : W64) : (doBadCommand d hdr).pwr = d.pwr := by
  unfold doBadCommand
  repeat' first
    | with_reducible rfl
    | intro _
    | exact True.intro
    | (with_reducible refine Kept.same ?_; (try dsimp only); with_reducible refine Kept.of ?_)
    | simp -implicitDefEqProofs only [answer_pwr, p_pwr, runService_pwr, swapService_pwr, apply_ite Dev.pwr, apply_ite Prod.fst, ite_self, id_eq]
    | rw [iff_pwr]
    | split
    | dsimp only
theorem stageWord_pwr (d : Dev) (base off v : Nat) (fs : List Fld) : (stageWord d base off v fs).pwr = d.pwr := by
  unfold stageWord
  repeat' first
    | with_reducible rfl
    | intro _
    | exact True.intro
    | (with_reducible refine Kept.same ?_; (try dsimp only); with_reducible refine Kept.of ?_)
    | simp -implicitDefEqProofs only [p_pwr]
    | rw [each_pwr]
    | split
    | dsimp only
theorem applyTables_pwr (d : Dev) (i : Nat) (t : Config.Tables) : (applyTables d i t).pwr = d.pwr := by
  unfold applyTables
  repeat' first
    | with_reducible rfl
    | intro _
    | exact True.intro
    | (with_reducible refine Kept.same ?_; (try dsimp only); with_reducible refine Kept.of ?_)
    | simp -implicitDefEqProofs only [dropSlots_pwr, modPtn_pwr, on_pwr, p_pwr, releasePorts_pwr, stageWord_pwr, apply_ite Dev.pwr, apply_ite Prod.fst, ite_self, id_eq]
    | rw [each_pwr]
    | split
    | dsimp only
theorem beginImage_pwr (d : Dev) (i : Nat) (f : Frame) : (beginImage d i f).pwr = d.pwr := by
  unfold beginImage
  repeat' first
    | with_reducible rfl
    | intro _
    | exact True.intro
    | (with_reducible refine Kept.same ?_; (try dsimp only); with_reducible refine Kept.of ?_)
    | simp -implicitDefEqProofs only [modPtn_pwr, p_pwr, setSt_pwr, unload_pwr, apply_ite Dev.pwr, apply_ite Prod.fst, ite_self, id_eq]
    | rw [each_pwr]
    | split
    | dsimp only
theorem releaseWord_pwr (d : Dev) (n : Nat) (w : WordLoc) : (releaseWord d n w).pwr = d.pwr := by
  unfold releaseWord
  repeat' first
    | with_reducible rfl
    | simp -implicitDefEqProofs only [modClu_pwr, apply_ite Dev.pwr, apply_ite Prod.fst, ite_self, id_eq]
    | split
    | dsimp only
theorem setInitial_pwr (d : Dev) (n t o v : Nat) : (setInitial d n t o v).pwr = d.pwr := by
  unfold setInitial
  repeat' first
    | with_reducible rfl
    | intro _
    | exact True.intro
    | (with_reducible refine Kept.same ?_; (try dsimp only); with_reducible refine Kept.of ?_)
    | simp -implicitDefEqProofs only [setSt_pwr, apply_ite Dev.pwr, apply_ite Prod.fst, ite_self, id_eq]
    | rw [each_pwr]
    | split
    | dsimp only
theorem eachWord_pwr (d : Dev) (f : Frame) (step : Nat) (put : Dev → Nat → List Byte → Dev) (h : ∀ e a bs, Kept (put e a bs) e) :
    (d.eachWord f step put).pwr = d.pwr := by
  unfold eachWord
  exact each_pwr _ _ _ fun e k => h _ _ _
theorem applyFrame_pwr (d : Dev) (i : Nat) (f : Frame) : (applyFrame d i f).pwr = d.pwr := by
  unfold applyFrame
  repeat' first
    | with_reducible rfl
    | intro _
    | exact True.intro
    | (with_reducible refine Kept.same ?_; (try dsimp only); with_reducible refine Kept.of ?_)
    | simp -implicitDefEqProofs only [applyTables_pwr, dropSamples_pwr, modPtn_pwr, releaseWord_pwr, rewriteBp_pwr, rewriteRow_pwr, rewriteWa_pwr, setInitial_pwr, setMesh_pwr, setPort_pwr, wake_pwr, writeWord_pwr, apply_ite Dev.pwr, apply_ite Prod.fst, ite_self, id_eq]
    | split
    | rw [eachWord_pwr]
    | dsimp only
theorem restoreDue_pwr (d : Dev) (i : Nat) : (restoreDue d i).pwr = d.pwr := by
  unfold restoreDue
  extract_lets b r
  have h : r.1.pwr = d.pwr := snapGet_pwr d i _ 256
  clear_value r
  split
  · rw [snapBegin_pwr, modPtn_pwr, h]
  · rw [p_pwr, h]
theorem completeImage_pwr (d : Dev) (i : Nat) (area : Nat × Nat) : (completeImage d i area).pwr = d.pwr := by
  unfold completeImage
  repeat' first
    | with_reducible rfl
    | simp -implicitDefEqProofs only [modPtn_pwr, on_pwr, p_pwr, restoreDue_pwr, apply_ite Dev.pwr, apply_ite Prod.fst, ite_self, id_eq]
    | split
    | dsimp only
theorem takeFrame_pwr (d : Dev) (i : Nat) (data : Option (List Byte)) : (takeFrame d i data).1.pwr = d.pwr := by
  unfold takeFrame
  repeat' first
    | with_reducible rfl
    | simp -implicitDefEqProofs only [add_pwr, applyFrame_pwr, beginImage_pwr, completeImage_pwr, hbmPut_pwr, modPtn_pwr, p_pwr, apply_ite Dev.pwr, apply_ite Prod.fst, ite_self, id_eq]
    | split
    | dsimp only
theorem imageRead_pwr (d : Dev) (a n : Nat) : (imageRead d a n).1.pwr = d.pwr := by
  unfold imageRead
  repeat' first
    | with_reducible rfl
    | simp -implicitDefEqProofs only [hbmGet_pwr]
    | split
    | dsimp only
theorem storedFrame_pwr (d : Dev) (a n : Nat) : (storedFrame d a n).1.pwr = d.pwr := by
  unfold storedFrame
  repeat' first
    | with_reducible rfl
    | simp -implicitDefEqProofs only [imageRead_pwr, apply_ite Dev.pwr, apply_ite Prod.fst, ite_self, id_eq]
    | split
    | dsimp only
theorem replayBytes_pwr (d : Dev) (i : Nat) : (replayBytes d i).1.pwr = d.pwr := by
  unfold replayBytes
  dsimp only
  split
  · rfl
  · exact (storedFrame_pwr _ _ _).trans (imageRead_pwr _ _ _)
theorem doFrame_pwr (d : Dev) (i : Nat) (data : Option (List Byte)) : (doFrame d i data).pwr = d.pwr := by
  unfold doFrame
  repeat' first
    | with_reducible rfl
    | simp -implicitDefEqProofs only [endBatch_pwr, modPtn_pwr, p_pwr, replayBytes_pwr, takeFrame_pwr, apply_ite Dev.pwr, apply_ite Prod.fst, ite_self, id_eq]
    | split
    | dsimp only
theorem startBatch_pwr (d : Dev) (i n : Nat) (replay : Bool) : (startBatch d i n replay).pwr = d.pwr := by
  unfold startBatch
  repeat' first
    | with_reducible rfl
    | simp -implicitDefEqProofs only [modPtn_pwr, on_pwr, p_pwr]
    | split
    | dsimp only
theorem doLoadGo_pwr (d : Dev) (i : Nat) : (doLoadGo d i).pwr = d.pwr := by
  unfold doLoadGo
  repeat' first
    | with_reducible rfl
    | simp -implicitDefEqProofs only [startBatch_pwr, apply_ite Dev.pwr, apply_ite Prod.fst, ite_self, id_eq]
    | split
    | dsimp only
theorem doLoadAbort_pwr (d : Dev) (i : Nat) : (doLoadAbort d i).pwr = d.pwr := by
  unfold doLoadAbort
  repeat' first
    | with_reducible rfl
    | simp -implicitDefEqProofs only [modPtn_pwr, apply_ite Dev.pwr, apply_ite Prod.fst, ite_self, id_eq]
    | split
    | dsimp only
theorem doLoadReplay_pwr (d : Dev) (i : Nat) : (doLoadReplay d i).pwr = d.pwr := by
  unfold doLoadReplay
  repeat' first
    | with_reducible rfl
    | simp -implicitDefEqProofs only [irq_pwr, on_pwr, p_pwr, startBatch_pwr, apply_ite Dev.pwr, apply_ite Prod.fst, ite_self, id_eq]
    | split
    | dsimp only
theorem imageFrame_pwr (d : Dev) (m : Img) (q : Nat) : (imageFrame d m q).1.pwr = d.pwr := by
  unfold imageFrame
  repeat' first
    | with_reducible rfl
    | simp -implicitDefEqProofs only [hbmGet_pwr, apply_ite Dev.pwr, apply_ite Prod.fst, ite_self, id_eq]
    | split
    | dsimp only
theorem imageSeq_pwr (d : Dev) (m : Img) (c k t o : Nat) : (imageSeq d m c k t o).1.pwr = d.pwr := by
  unfold imageSeq
  repeat' first
    | with_reducible rfl
    | intro _
    | exact True.intro
    | (with_reducible refine Kept.same ?_; (try dsimp only); with_reducible refine Kept.of ?_)
    | simp -implicitDefEqProofs only [hbmGet_pwr, apply_ite Dev.pwr, apply_ite Prod.fst, ite_self, id_eq]
    | split
    | with_reducible refine (fst_pwr (fun _ _ => ?_) _ _).trans ?_
    | with_reducible refine (foldl_pwr (fun _ _ => ?_) _ _).trans ?_
    | dsimp only
theorem imageBytes_pwr (d : Dev) (i c k t o n : Nat) : (imageBytes d i c k t o n).1.pwr = d.pwr := by
  unfold imageBytes
  repeat' first
    | with_reducible rfl
    | simp -implicitDefEqProofs only [imageFrame_pwr, imageSeq_pwr, apply_ite Dev.pwr, apply_ite Prod.fst, ite_self, id_eq]
    | split
    | dsimp only
theorem imageWord_pwr (d : Dev) (i n : Nat) (w : WordLoc) : (imageWord d i n w).1.pwr = d.pwr := by
  unfold imageWord
  repeat' first
    | with_reducible rfl
    | simp -implicitDefEqProofs only [imageBytes_pwr, apply_ite Dev.pwr, apply_ite Prod.fst, ite_self, id_eq]
    | split
    | dsimp only
theorem essential_pwr (d : Dev) (i n : Nat) (w : WordLoc) (fetch : Bool) : (essential d i n w fetch).1.pwr = d.pwr := by
  unfold essential
  repeat' first
    | with_reducible rfl
    | simp -implicitDefEqProofs only [imageBytes_pwr, imageWord_pwr, apply_ite Dev.pwr, apply_ite Prod.fst, ite_self, id_eq]
    | split
    | dsimp only
theorem scrLast_pwr (d : Dev) (n : Nat) (w : WordLoc) (ess fetch : Bool) : (scrLast d n w ess fetch).pwr = d.pwr := by
  unfold scrLast
  repeat' first
    | with_reducible rfl
    | simp -implicitDefEqProofs only [on_pwr, p_pwr]
    | split
    | dsimp only
theorem dueRewrite_pwr (d : Dev) (n : Nat) (w : WordLoc) (reload : Bool) : (dueRewrite d n w reload).pwr = d.pwr := by
  unfold dueRewrite
  repeat' first
    | with_reducible rfl
    | simp -implicitDefEqProofs only [ite_self]
    | split
    | dsimp only
theorem upsetPolicy_pwr (d : Dev) (i n : Nat) (w : WordLoc) : (upsetPolicy d i n w).pwr = d.pwr := by
  unfold upsetPolicy
  repeat' first
    | with_reducible rfl
    | simp -implicitDefEqProofs only [dueRewrite_pwr, freezeReq_pwr, imageWord_pwr, on_pwr, apply_ite Dev.pwr, apply_ite Prod.fst, ite_self, id_eq]
    | split
    | dsimp only
theorem doUpset_pwr (d : Dev) (n : Nat) (w : WordLoc) (fetch : Bool) : (doUpset d n w fetch).pwr = d.pwr := by
  unfold doUpset
  repeat' first
    | with_reducible rfl
    | simp -implicitDefEqProofs only [add_pwr, dueRewrite_pwr, essential_pwr, irq_pwr, raise_pwr, scrLast_pwr, upsetPolicy_pwr, apply_ite Dev.pwr, apply_ite Prod.fst, ite_self, id_eq]
    | split
    | dsimp only
theorem putWord_pwr (d : Dev) (n : Nat) (w : WordLoc) (v : Nat) : (putWord d n w v).pwr = d.pwr := by
  unfold putWord
  repeat' first
    | with_reducible rfl
    | simp -implicitDefEqProofs only [releaseWord_pwr, rewriteBp_pwr, rewriteWa_pwr, setMesh_pwr, setPort_pwr, apply_ite Dev.pwr, apply_ite Prod.fst, ite_self, id_eq]
    | split
    | dsimp only
theorem doUpsetRewrite_pwr (d : Dev) (n : Nat) (w : WordLoc) : (doUpsetRewrite d n w).pwr = d.pwr := by
  unfold doUpsetRewrite
  repeat' first
    | with_reducible rfl
    | simp -implicitDefEqProofs only [add_pwr, imageWord_pwr, putWord_pwr, apply_ite Dev.pwr, apply_ite Prod.fst, ite_self, id_eq]
    | split
    | dsimp only
theorem scrubRead_pwr (d : Dev) (n : Nat) (w : WordLoc) : (scrubRead d n w).pwr = d.pwr := by
  unfold scrubRead
  repeat' first
    | with_reducible rfl
    | simp -implicitDefEqProofs only [checkMesh_pwr, checkPort_pwr, fetchBp_pwr, fetchWa_pwr, readRow_pwr, apply_ite Dev.pwr, apply_ite Prod.fst, ite_self, id_eq]
    | split
    | dsimp only
theorem doWalkRead_pwr (d : Dev) (n : Nat) (w : WordLoc) : (doWalkRead d n w).pwr = d.pwr := by
  unfold doWalkRead
  repeat' first
    | with_reducible rfl
    | simp -implicitDefEqProofs only [add_pwr, scrubRead_pwr, apply_ite Dev.pwr, apply_ite Prod.fst, ite_self, id_eq]
    | split
    | dsimp only
theorem doPassRequest_pwr (d : Dev) (i : Nat) : (doPassRequest d i).pwr = d.pwr := by
  unfold doPassRequest
  repeat' first
    | with_reducible rfl
    | simp -implicitDefEqProofs only [p_pwr, scrubRequest_pwr]
    | split
    | dsimp only
theorem doPassStart_pwr (d : Dev) : (doPassStart d).pwr = d.pwr := by
  unfold doPassStart
  repeat' first
    | with_reducible rfl
    | simp -implicitDefEqProofs only [retryPasses_pwr]
    | split
    | dsimp only
theorem passDiag_pwr (d : Dev) (i : Nat) (found : Bool) : (passDiag d i found).pwr = d.pwr := by
  unfold passDiag
  repeat' first
    | with_reducible rfl
    | simp -implicitDefEqProofs only [irq_pwr, lscSend_pwr, p_pwr, apply_ite Dev.pwr, apply_ite Prod.fst, ite_self, id_eq]
    | split
    | dsimp only
theorem doPassComplete_pwr (d : Dev) : (doPassComplete d).pwr = d.pwr := by
  unfold doPassComplete
  repeat' first
    | with_reducible rfl
    | intro _
    | exact True.intro
    | (with_reducible refine Kept.same ?_; (try dsimp only); with_reducible refine Kept.of ?_)
    | simp -implicitDefEqProofs only [mntFree_pwr, p_pwr, passDiag_pwr, scrubRead_pwr, apply_ite Dev.pwr, apply_ite Prod.fst, ite_self, id_eq]
    | rw [each_pwr]
    | split
    | dsimp only
theorem putBit_pwr (d : Dev) (base : Nat) (f : Fld) (k : Nat) (v : Bool) : (putBit d base f k v).pwr = d.pwr := by
  unfold putBit
  repeat' first
    | with_reducible rfl
    | simp -implicitDefEqProofs only [p_pwr, apply_ite Dev.pwr, apply_ite Prod.fst, ite_self, id_eq]
    | split
    | dsimp only
theorem toAcquire_pwr (d : Dev) (gi : Nat) : (toAcquire d gi).pwr = d.pwr := by
  unfold toAcquire
  repeat' first
    | with_reducible rfl
    | simp -implicitDefEqProofs only [modLink_pwr, p_pwr]
    | split
    | dsimp only
theorem linkDown_pwr (d : Dev) (gi cause next : Nat) : (linkDown d gi cause next).pwr = d.pwr := by
  unfold linkDown
  repeat' first
    | with_reducible rfl
    | intro _
    | exact True.intro
    | (with_reducible refine Kept.same ?_; (try dsimp only); with_reducible refine Kept.of ?_)
    | simp -implicitDefEqProofs only [add_pwr, emit_pwr, irq_pwr, modLink_pwr, on_pwr, p_pwr, raise_pwr, slotErr_pwr, upstreamLoss_pwr, apply_ite Dev.pwr, apply_ite Prod.fst, ite_self, id_eq]
    | rw [each_pwr]
    | split
    | dsimp only
theorem leaveUp_pwr (d : Dev) (gi cause next : Nat) : (leaveUp d gi cause next).pwr = d.pwr := by
  unfold leaveUp
  repeat' first
    | with_reducible rfl
    | simp -implicitDefEqProofs only [linkDown_pwr, apply_ite Dev.pwr, apply_ite Prod.fst, ite_self, id_eq]
    | split
    | dsimp only
theorem loseLane_pwr (d : Dev) (gi l : Nat) : (loseLane d gi l).pwr = d.pwr := by
  unfold loseLane
  repeat' first
    | with_reducible rfl
    | simp -implicitDefEqProofs only [leaveUp_pwr, modLink_pwr, toAcquire_pwr, apply_ite Dev.pwr, apply_ite Prod.fst, ite_self, id_eq]
    | split
    | dsimp only
theorem doLaneTest_pwr (d : Dev) (gi : Nat) : (doLaneTest d gi).pwr = d.pwr := by
  unfold doLaneTest
  repeat' first
    | with_reducible rfl
    | simp -implicitDefEqProofs only [leaveUp_pwr, mntRequest_pwr, on_pwr, p_pwr, putBit_pwr, setLink_pwr, apply_ite Dev.pwr, apply_ite Prod.fst, ite_self, id_eq]
    | split
    | dsimp only
theorem doLaneEnable_pwr (d : Dev) (gi : Nat) : (doLaneEnable d gi).pwr = d.pwr := by
  unfold doLaneEnable
  repeat' first
    | with_reducible rfl
    | simp -implicitDefEqProofs only [doLaneTest_pwr, on_pwr, p_pwr, putBit_pwr, setLink_pwr, toAcquire_pwr, apply_ite Dev.pwr, apply_ite Prod.fst, ite_self, id_eq]
    | split
    | dsimp only
theorem doLaneDisable_pwr (d : Dev) (gi : Nat) : (doLaneDisable d gi).pwr = d.pwr := by
  unfold doLaneDisable
  repeat' first
    | with_reducible rfl
    | simp -implicitDefEqProofs only [leaveUp_pwr, mntFree_pwr, p_pwr, putBit_pwr, setLink_pwr, apply_ite Dev.pwr, apply_ite Prod.fst, ite_self, id_eq]
    | split
    | dsimp only
theorem sendPeriod_pwr (d : Dev) (gi l : Nat) (data : List Bool) (marker : BitVec 320) : (sendPeriod d gi l data marker).pwr = d.pwr := by
  unfold sendPeriod
  repeat' first
    | with_reducible rfl
    | simp -implicitDefEqProofs only [capLine_pwr, emit_pwr, lineOut_pwr, setLink_pwr]
    | split
    | dsimp only
theorem holdInjection_pwr (d : Dev) (gi : Nat) : (holdInjection d gi).pwr = d.pwr := by
  unfold holdInjection
  repeat' first
    | with_reducible rfl
    | intro _
    | exact True.intro
    | (with_reducible refine Kept.same ?_; (try dsimp only); with_reducible refine Kept.of ?_)
    | simp -implicitDefEqProofs only [modLink_pwr, on_pwr, apply_ite Dev.pwr, apply_ite Prod.fst, ite_self, id_eq]
    | rw [iff_pwr]
    | split
    | dsimp only
theorem doMarkerSend_pwr (d : Dev) (gi : Nat) : (doMarkerSend d gi).pwr = d.pwr := by
  unfold doMarkerSend
  repeat' first
    | with_reducible rfl
    | intro _
    | exact True.intro
    | (with_reducible refine Kept.same ?_; (try dsimp only); with_reducible refine Kept.of ?_)
    | simp -implicitDefEqProofs only [holdInjection_pwr, modLink_pwr, sendPeriod_pwr, setLink_pwr, tick_pwr, apply_ite Dev.pwr, apply_ite Prod.fst, ite_self, id_eq]
    | rw [each_pwr]
    | split
    | dsimp only
theorem setRtt_pwr (d : Dev) (gi rtt : Nat) : (setRtt d gi rtt).pwr = d.pwr := by
  unfold setRtt
  repeat' first
    | with_reducible rfl
    | simp -implicitDefEqProofs only [modLink_pwr, p_pwr]
    | split
    | dsimp only
theorem measure_pwr (d : Dev) (gi v : Nat) : (measure d gi v).pwr = d.pwr := by
  unfold measure
  repeat' first
    | with_reducible rfl
    | simp -implicitDefEqProofs only [setRtt_pwr, apply_ite Dev.pwr, apply_ite Prod.fst, ite_self, id_eq]
    | split
    | dsimp only
theorem linkUp_pwr (d : Dev) (gi ver : Nat) : (linkUp d gi ver).pwr = d.pwr := by
  unfold linkUp
  repeat' first
    | with_reducible rfl
    | intro _
    | exact True.intro
    | (with_reducible refine Kept.same ?_; (try dsimp only); with_reducible refine Kept.of ?_)
    | simp -implicitDefEqProofs only [control_pwr, irq_pwr, modLink_pwr, p_pwr, apply_ite Dev.pwr, apply_ite Prod.fst, ite_self, id_eq]
    | rw [each_pwr]
    | split
    | with_reducible refine (fst_pwr (fun _ _ => ?_) _ _).trans ?_
    | with_reducible refine (foldl_pwr (fun _ _ => ?_) _ _).trans ?_
    | dsimp only
theorem tryUp_pwr (d : Dev) (gi : Nat) : (tryUp d gi).pwr = d.pwr := by
  unfold tryUp
  repeat' first
    | with_reducible rfl
    | simp -implicitDefEqProofs only [linkUp_pwr, apply_ite Dev.pwr, apply_ite Prod.fst, ite_self, id_eq]
    | split
    | dsimp only
theorem tryDeskew_pwr (d : Dev) (gi v : Nat) : (tryDeskew d gi v).pwr = d.pwr := by
  unfold tryDeskew
  repeat' first
    | with_reducible rfl
    | intro _
    | exact True.intro
    | (with_reducible refine Kept.same ?_; (try dsimp only); with_reducible refine Kept.of ?_)
    | simp -implicitDefEqProofs only [modLink_pwr, on_pwr, p_pwr, tick_pwr, toAcquire_pwr, apply_ite Dev.pwr, apply_ite Prod.fst, ite_self, id_eq]
    | rw [each_pwr]
    | split
    | with_reducible refine (fst_pwr (fun _ _ => ?_) _ _).trans ?_
    | with_reducible refine (foldl_pwr (fun _ _ => ?_) _ _).trans ?_
    | dsimp only
theorem noteMarker_pwr (d : Dev) (gi l v ui : Nat) : (noteMarker d gi l v ui).pwr = d.pwr := by
  unfold noteMarker
  repeat' first
    | with_reducible rfl
    | simp -implicitDefEqProofs only [putBit_pwr, setLink_pwr, apply_ite Dev.pwr, apply_ite Prod.fst, ite_self, id_eq]
    | split
    | dsimp only
theorem bringUp_pwr (d : Dev) (gi l v : Nat) : (bringUp d gi l v).pwr = d.pwr := by
  unfold bringUp
  repeat' first
    | with_reducible rfl
    | simp -implicitDefEqProofs only [linkDown_pwr, measure_pwr, modLink_pwr, p_pwr, tryDeskew_pwr, tryUp_pwr, apply_ite Dev.pwr, apply_ite Prod.fst, ite_self, id_eq]
    | split
    | dsimp only
theorem noteStamp_pwr (d : Dev) (gi v : Nat) : (noteStamp d gi v).pwr = d.pwr := by
  unfold noteStamp
  repeat' first
    | with_reducible rfl
    | simp -implicitDefEqProofs only [modLink_pwr, apply_ite Dev.pwr, apply_ite Prod.fst, ite_self, id_eq]
    | split
    | dsimp only
theorem doMarker_pwr (d : Dev) (gi l : Nat) (bits : BitVec 320) (ui : Nat) : (doMarker d gi l bits ui).pwr = d.pwr := by
  unfold doMarker
  repeat' first
    | with_reducible rfl
    | intro _
    | exact True.intro
    | (with_reducible refine Kept.same ?_; (try dsimp only); with_reducible refine Kept.of ?_)
    | simp -implicitDefEqProofs only [bringUp_pwr, capLine_pwr, loseLane_pwr, modLink_pwr, noteMarker_pwr, noteStamp_pwr, putBit_pwr, apply_ite Dev.pwr, apply_ite Prod.fst, ite_self, id_eq]
    | rw [iff_pwr]
    | split
    | dsimp only
theorem doAcqTimeout_pwr (d : Dev) (gi : Nat) : (doAcqTimeout d gi).pwr = d.pwr := by
  unfold doAcqTimeout
  repeat' first
    | with_reducible rfl
    | simp -implicitDefEqProofs only [on_pwr, apply_ite Dev.pwr, apply_ite Prod.fst, ite_self, id_eq]
    | split
    | dsimp only
theorem doLaneRecovered_pwr (d : Dev) (gi l : Nat) : (doLaneRecovered d gi l).pwr = d.pwr := by
  unfold doLaneRecovered
  repeat' first
    | with_reducible rfl
    | simp -implicitDefEqProofs only [modLink_pwr, apply_ite Dev.pwr, apply_ite Prod.fst, ite_self, id_eq]
    | split
    | dsimp only
theorem linkSend_pwr {d : Dev} {gi vc : Nat} {f : BitVec 256} {e : Dev} (h : d.linkSend gi vc f = some e) : e.pwr = d.pwr := by
  unfold linkSend at h; dsimp only at h; split at h
  · cases h
  · simp -implicitDefEqProofs only [Option.some.injEq] at h; rw [← h, sendFlit_pwr, setLink_pwr]
theorem sendNull_pwr (d : Dev) (gi : Nat) (nak : Bool) : (sendNull d gi nak).pwr = d.pwr := by
  unfold sendNull
  repeat' first
    | with_reducible rfl
    | simp -implicitDefEqProofs only [sendFlit_pwr]
    | split
    | dsimp only
theorem sendFlits_pwr {d : Dev} {gi vc : Nat} {fs : List (BitVec 256)} {e : Dev} (h : d.sendFlits gi vc fs = some e) : e.pwr = d.pwr := by
  induction fs generalizing d with
  | nil => simp -implicitDefEqProofs only [sendFlits, Option.some.injEq] at h; rw [← h]
  | cons f fs ih =>
    unfold sendFlits at h; split at h
    · exact (ih h).trans (linkSend_pwr (by assumption))
    · cases h
theorem sendWaiting_pwr (d : Dev) (gi : Nat) : (sendWaiting d gi).pwr = d.pwr := by
  unfold sendWaiting
  repeat' first
    | with_reducible rfl
    | intro _
    | exact True.intro
    | (with_reducible refine Kept.same ?_; (try dsimp only); with_reducible refine Kept.of ?_)
    | simp -implicitDefEqProofs only [modLink_pwr, apply_ite Dev.pwr, apply_ite Prod.fst, ite_self, id_eq]
    | split
    | refine (sendFlits_pwr (by assumption)).trans ?_
    | with_reducible refine (fst_pwr (fun _ _ => ?_) _ _).trans ?_
    | with_reducible refine (foldl_pwr (fun _ _ => ?_) _ _).trans ?_
    | dsimp only
theorem ackFlits_pwr (d : Dev) (gi ack : Nat) : (ackFlits d gi ack).pwr = d.pwr := by
  unfold ackFlits
  repeat' first
    | with_reducible rfl
    | simp -implicitDefEqProofs only [modLink_pwr, sendWaiting_pwr, apply_ite Dev.pwr, apply_ite Prod.fst, ite_self, id_eq]
    | split
    | dsimp only
theorem nakFlits_pwr (d : Dev) (gi ack : Nat) : (nakFlits d gi ack).pwr = d.pwr := by
  unfold nakFlits
  repeat' first
    | with_reducible rfl
    | intro _
    | exact True.intro
    | (with_reducible refine Kept.same ?_; (try dsimp only); with_reducible refine Kept.of ?_)
    | simp -implicitDefEqProofs only [add_pwr, linkDown_pwr, raise_pwr, sendFlit_pwr, setLink_pwr, toAcquire_pwr, apply_ite Dev.pwr, apply_ite Prod.fst, ite_self, id_eq]
    | rw [each_pwr]
    | split
    | dsimp only
theorem deliverFlits_pwr (d : Dev) (gi : Nat) : (deliverFlits d gi).pwr = d.pwr := by
  unfold deliverFlits
  repeat' first
    | with_reducible rfl
    | simp -implicitDefEqProofs only [emit_pwr, modLink_pwr, apply_ite Dev.pwr, apply_ite Prod.fst, ite_self, id_eq]
    | split
    | dsimp only
theorem doLinkFlit_pwr (d : Dev) (gi : Nat) (bits : BitVec 320) (bad : Bool) : (doLinkFlit d gi bits bad).pwr = d.pwr := by
  unfold doLinkFlit
  repeat' first
    | with_reducible rfl
    | simp -implicitDefEqProofs only [ackFlits_pwr, add_pwr, control_pwr, deliverFlits_pwr, modLink_pwr, nakFlits_pwr, sendNull_pwr, setLink_pwr, apply_ite Dev.pwr, apply_ite Prod.fst, ite_self, id_eq]
    | split
    | dsimp only
theorem doCredit_pwr (d : Dev) (gi vc count : Nat) (intact : Bool) : (doCredit d gi vc count intact).pwr = d.pwr := by
  unfold doCredit
  repeat' first
    | with_reducible rfl
    | simp -implicitDefEqProofs only [ctlBad_pwr, modLink_pwr, sendWaiting_pwr, apply_ite Dev.pwr, apply_ite Prod.fst, ite_self, id_eq]
    | split
    | dsimp only
theorem doFreezeMsg_pwr (d : Dev) (gi origin n : Nat) (intact : Bool) : (doFreezeMsg d gi origin n intact).pwr = d.pwr := by
  unfold doFreezeMsg
  repeat' first
    | with_reducible rfl
    | simp -implicitDefEqProofs only [ctlBad_pwr, floodFreeze_pwr, apply_ite Dev.pwr, apply_ite Prod.fst, ite_self, id_eq]
    | split
    | dsimp only
theorem controlMessage_pwr (d : Dev) (gi msg : Nat) : (controlMessage d gi msg).pwr = d.pwr := by
  unfold controlMessage
  repeat' first
    | with_reducible rfl
    | simp -implicitDefEqProofs only [doBeacon_pwr, doCredit_pwr, doFreezeMsg_pwr, doGo_pwr, doHold_pwr, doLinkedCommand_pwr, doReady_pwr, doSteps_pwr, apply_ite Dev.pwr, apply_ite Prod.fst, ite_self, id_eq]
    | split
    | dsimp only
theorem takeFragment_pwr (d : Dev) (gi header : Nat) (bad : Bool) : (takeFragment d gi header bad).pwr = d.pwr := by
  unfold takeFragment
  repeat' first
    | with_reducible rfl
    | intro _
    | exact True.intro
    | (with_reducible refine Kept.same ?_; (try dsimp only); with_reducible refine Kept.of ?_)
    | simp -implicitDefEqProofs only [controlMessage_pwr, ctlBad_pwr, modLink_pwr, apply_ite Dev.pwr, apply_ite Prod.fst, ite_self, id_eq]
    | split
    | with_reducible refine (fst_pwr (fun _ _ => ?_) _ _).trans ?_
    | with_reducible refine (foldl_pwr (fun _ _ => ?_) _ _).trans ?_
    | dsimp only
theorem takeFields_pwr (d : Dev) (gi m : Nat) : (takeFields d gi m).pwr = d.pwr := by
  induction m generalizing d with
  | zero => rfl
  | succ m ih =>
    unfold takeFields; dsimp only; split
    · rfl
    · rw [ih, doLinkFlit_pwr, modLink_pwr]
theorem takePackets_pwr (d : Dev) (gi frame bad n : Nat) : (takePackets d gi frame bad n).pwr = d.pwr := by
  unfold takePackets
  repeat' first
    | with_reducible rfl
    | simp -implicitDefEqProofs only [modLink_pwr, takeFields_pwr, apply_ite Dev.pwr, apply_ite Prod.fst, ite_self, id_eq]
    | split
    | dsimp only
theorem offerFrame_pwr (d : Dev) (gi frame : Nat) : (offerFrame d gi frame).pwr = d.pwr := by
  unfold offerFrame
  repeat' first
    | with_reducible rfl
    | intro _
    | exact True.intro
    | (with_reducible refine Kept.same ?_; (try dsimp only); with_reducible refine Kept.of ?_)
    | simp -implicitDefEqProofs only [offerLane_pwr]
    | rw [each_pwr]
    | split
    | dsimp only
theorem takeSlots_pwr (d : Dev) (gi k : Nat) (fields : List W32) : (takeSlots d gi k fields).pwr = d.pwr := by
  unfold takeSlots
  repeat' first
    | with_reducible rfl
    | simp -implicitDefEqProofs only [add_pwr, modLink_pwr, p_pwr, slotErr_pwr, apply_ite Dev.pwr, apply_ite Prod.fst, ite_self, id_eq]
    | split
    | dsimp only
theorem doSlotFrame_pwr (d : Dev) (gi k frame n bad : Nat) : (doSlotFrame d gi k frame n bad).pwr = d.pwr := by
  unfold doSlotFrame
  repeat' first
    | with_reducible rfl
    | intro _
    | exact True.intro
    | (with_reducible refine Kept.same ?_; (try dsimp only); with_reducible refine Kept.of ?_)
    | simp -implicitDefEqProofs only [offerFrame_pwr, slotErr_pwr, takeFragment_pwr, takePackets_pwr, takeSlots_pwr, apply_ite Dev.pwr, apply_ite Prod.fst, ite_self, id_eq]
    | rw [iff_pwr]
    | split
    | dsimp only
theorem doStepFrame_pwr (d : Dev) (gi frame bad : Nat) : (doStepFrame d gi frame bad).pwr = d.pwr := by
  unfold doStepFrame
  repeat' first
    | with_reducible rfl
    | simp -implicitDefEqProofs only [add_pwr, doSlotFrame_pwr, modLink_pwr, offerFrame_pwr, slotErr_pwr, takeFragment_pwr, takePackets_pwr, apply_ite Dev.pwr, apply_ite Prod.fst, ite_self, id_eq]
    | split
    | dsimp only
theorem takeFrames_pwr (d : Dev) (gi m : Nat) : (takeFrames d gi m).pwr = d.pwr := by
  induction m generalizing d with
  | zero => rfl
  | succ m ih =>
    unfold takeFrames; split
    · rw [ih]; simp -implicitDefEqProofs only [stepEnd_pwr, doStepFrame_pwr, setLink_pwr]
    · rfl
theorem takeCodeword_pwr (d : Dev) (gi l : Nat) (symbols : List Nat) (bad : Bool) : (takeCodeword d gi l symbols bad).pwr = d.pwr := by
  unfold takeCodeword
  repeat' first
    | with_reducible rfl
    | simp -implicitDefEqProofs only [capLine_pwr, modLink_pwr, setLink_pwr, takeFrames_pwr, apply_ite Dev.pwr, apply_ite Prod.fst, ite_self, id_eq]
    | split
    | dsimp only
theorem doCodeword_pwr (d : Dev) (gi l : Nat) (symbols : List Nat) : (doCodeword d gi l symbols).pwr = d.pwr := by
  unfold doCodeword
  repeat' first
    | with_reducible rfl
    | simp -implicitDefEqProofs only [add_pwr, capLine_pwr, irq_pwr, loseLane_pwr, modLink_pwr, raise_pwr, takeCodeword_pwr, apply_ite Dev.pwr, apply_ite Prod.fst, ite_self, id_eq]
    | split
    | dsimp only
theorem doInjGo_pwr (d : Dev) (gi : Nat) : (doInjGo d gi).pwr = d.pwr := by
  unfold doInjGo
  repeat' first
    | with_reducible rfl
    | simp -implicitDefEqProofs only [modLink_pwr, on_pwr, apply_ite Dev.pwr, apply_ite Prod.fst, ite_self, id_eq]
    | split
    | dsimp only
theorem doLgrpClr_pwr (d : Dev) (gi : Nat) : (doLgrpClr d gi).pwr = d.pwr := by
  unfold doLgrpClr
  repeat' first
    | with_reducible rfl
    | simp -implicitDefEqProofs only [resetRange_pwr]
    | split
    | dsimp only
theorem doClrSlack_pwr (d : Dev) (gi : Nat) : (doClrSlack d gi).pwr = d.pwr := by
  unfold doClrSlack
  repeat' first
    | with_reducible rfl
    | simp -implicitDefEqProofs only [p_pwr]
    | split
    | dsimp only
theorem testSample_pwr (d : Dev) (gi l : Nat) (bit : Bool) : (testSample d gi l bit).pwr = d.pwr := by
  unfold testSample
  repeat' first
    | with_reducible rfl
    | simp -implicitDefEqProofs only [capLine_pwr, offerLane_pwr, setLink_pwr, stepEnd_pwr, apply_ite Dev.pwr, apply_ite Prod.fst, ite_self, id_eq]
    | split
    | dsimp only
theorem prbsBit_pwr (d : Dev) (gi l : Nat) (bit : Bool) : (prbsBit d gi l bit).pwr = d.pwr := by
  unfold prbsBit
  repeat' first
    | with_reducible rfl
    | simp -implicitDefEqProofs only [add_pwr, irq_pwr, modLink_pwr, putBit_pwr, setLink_pwr, apply_ite Dev.pwr, apply_ite Prod.fst, ite_self, id_eq]
    | split
    | dsimp only
theorem generate_pwr (d : Dev) (gi l n : Nat) : (generate d gi l n).1.pwr = d.pwr := by
  unfold generate
  repeat' first
    | with_reducible rfl
    | simp -implicitDefEqProofs only [modLink_pwr, setLink_pwr, apply_ite Dev.pwr, apply_ite Prod.fst, ite_self, id_eq]
    | split
    | dsimp only
theorem doPrbsCheck_pwr (d : Dev) (gi l : Nat) (bits : List Bool) : (doPrbsCheck d gi l bits).pwr = d.pwr := by
  unfold doPrbsCheck
  repeat' first
    | with_reducible rfl
    | intro _
    | exact True.intro
    | (with_reducible refine Kept.same ?_; (try dsimp only); with_reducible refine Kept.of ?_)
    | simp -implicitDefEqProofs only [capLine_pwr, generate_pwr, lineOut_pwr, prbsBit_pwr, testSample_pwr, apply_ite Dev.pwr, apply_ite Prod.fst, ite_self, id_eq]
    | rw [each_pwr]
    | split
    | dsimp only
theorem doBridgeEnable_pwr (d : Dev) (gi l : Nat) (tx rx : Bool) : (doBridgeEnable d gi l tx rx).pwr = d.pwr := by
  unfold doBridgeEnable
  repeat' first
    | with_reducible rfl
    | simp -implicitDefEqProofs only [modLink_pwr, on_pwr, p_pwr, putBit_pwr, apply_ite Dev.pwr, apply_ite Prod.fst, ite_self, id_eq]
    | split
    | dsimp only
theorem bridgeStore_pwr (d : Dev) (gi l : Nat) (w : W64) : (bridgeStore d gi l w).pwr = d.pwr := by
  unfold bridgeStore
  repeat' first
    | with_reducible rfl
    | simp -implicitDefEqProofs only [add_pwr, append_pwr, dropWrite_pwr, irq_pwr, notifyKinds_pwr, apply_ite Dev.pwr, apply_ite Prod.fst, ite_self, id_eq]
    | split
    | dsimp only
theorem doBridgeReceive_pwr (d : Dev) (gi l : Nat) (w : W64) : (doBridgeReceive d gi l w).pwr = d.pwr := by
  unfold doBridgeReceive
  repeat' first
    | with_reducible rfl
    | simp -implicitDefEqProofs only [bridgeStore_pwr, capLine_pwr, modLink_pwr, offerLane_pwr, putBit_pwr, setLink_pwr, apply_ite Dev.pwr, apply_ite Prod.fst, ite_self, id_eq]
    | split
    | dsimp only
theorem bridgeOut_pwr (d : Dev) (gi l : Nat) (w : W64) : (bridgeOut d gi l w).pwr = d.pwr := by
  unfold bridgeOut
  repeat' first
    | with_reducible rfl
    | simp -implicitDefEqProofs only [capLine_pwr, emit_pwr, lineOut_pwr]
    | split
    | dsimp only
theorem doBridgeTransmit_pwr (d : Dev) (gi l : Nat) : (doBridgeTransmit d gi l).pwr = d.pwr := by
  unfold doBridgeTransmit
  repeat' first
    | with_reducible rfl
    | simp -implicitDefEqProofs only [bridgeOut_pwr, markBound_pwr, apply_ite Dev.pwr, apply_ite Prod.fst, ite_self, id_eq]
    | split
    | refine (takeHead_pwr (by assumption)).trans ?_
    | dsimp only
theorem nocError_pwr (d : Dev) (kind src dst vc x y : Nat) : (nocError d kind src dst vc x y).pwr = d.pwr := by
  unfold nocError
  repeat' first
    | with_reducible rfl
    | simp -implicitDefEqProofs only [on_pwr, p_pwr]
    | split
    | dsimp only
theorem headerError_pwr (d : Dev) (v x y : Nat) : (headerError d v x y).pwr = d.pwr := by
  unfold headerError
  repeat' first
    | with_reducible rfl
    | simp -implicitDefEqProofs only [add_pwr, irq_pwr, nocError_pwr, raise_pwr]
    | split
    | dsimp only
theorem headerFixed_pwr (d : Dev) (v x y : Nat) : (headerFixed d v x y).pwr = d.pwr := by
  unfold headerFixed
  repeat' first
    | with_reducible rfl
    | simp -implicitDefEqProofs only [add_pwr, nocError_pwr, raise_pwr]
    | split
    | dsimp only
theorem checkPayload_pwr (d : Dev) (k : Packet) : (checkPayload d k).pwr = d.pwr := by
  unfold checkPayload
  repeat' first
    | with_reducible rfl
    | simp -implicitDefEqProofs only [add_pwr, irq_pwr, nocError_pwr, raise_pwr, apply_ite Dev.pwr, apply_ite Prod.fst, ite_self, id_eq]
    | split
    | dsimp only
theorem runProbe_pwr (d : Dev) (k v x y out : Nat) : (runProbe d k v x y out).pwr = d.pwr := by
  unfold runProbe
  repeat' first
    | with_reducible rfl
    | simp -implicitDefEqProofs only [add_pwr, offer_pwr, traceProbe_pwr, apply_ite Dev.pwr, apply_ite Prod.fst, ite_self, id_eq]
    | split
    | dsimp only
theorem probeHeader_pwr (d : Dev) (v x y out : Nat) : (probeHeader d v x y out).pwr = d.pwr := by
  unfold probeHeader
  repeat' first
    | with_reducible rfl
    | intro _
    | exact True.intro
    | (with_reducible refine Kept.same ?_; (try dsimp only); with_reducible refine Kept.of ?_)
    | simp -implicitDefEqProofs only [runProbe_pwr]
    | rw [each_pwr]
    | split
    | dsimp only
theorem setFlits_pwr (d : Dev) (x y inp vc : Nat) (fs : List Flit) : (setFlits d x y inp vc fs).pwr = d.pwr := by
  unfold setFlits
  repeat' first
    | with_reducible rfl
    | simp -implicitDefEqProofs only [ite_self]
    | split
    | dsimp only
theorem setDrop_pwr (d : Dev) (x y inp vc : Nat) (on : Bool) : (setDrop d x y inp vc on).pwr = d.pwr := by
  unfold setDrop
  repeat' first
    | with_reducible rfl
    | simp -implicitDefEqProofs only [on_pwr, apply_ite Dev.pwr, apply_ite Prod.fst, ite_self, id_eq]
    | split
    | dsimp only
theorem checkHeader_pwr (d : Dev) (hdr : BitVec 256) (x y : Nat) : (checkHeader d hdr x y).1.pwr = d.pwr := by
  unfold checkHeader
  repeat' first
    | with_reducible rfl
    | simp -implicitDefEqProofs only [headerError_pwr, headerFixed_pwr, respond_pwr, apply_ite Dev.pwr, apply_ite Prod.fst, ite_self, id_eq]
    | split
    | dsimp only
theorem flitArrives_pwr (d : Dev) (x y inp vc : Nat) (f : Flit) : (flitArrives d x y inp vc f).pwr = d.pwr := by
  unfold flitArrives
  repeat' first
    | with_reducible rfl
    | simp -implicitDefEqProofs only [checkHeader_pwr, setDrop_pwr, setFlits_pwr, apply_ite Dev.pwr, apply_ite Prod.fst, ite_self, id_eq]
    | split
    | dsimp only
theorem paced_pwr (d : Dev) (x y out : Nat) (vc : Option Nat) : (paced d x y out vc).pwr = d.pwr := by
  unfold paced
  repeat' first
    | with_reducible rfl
    | simp -implicitDefEqProofs only [apply_ite Dev.pwr, apply_ite Prod.fst, ite_self, id_eq]
    | split
    | dsimp only
theorem passFlit_pwr (d : Dev) (x y out vc inp : Nat) : (passFlit d x y out vc inp).pwr = d.pwr := by
  unfold passFlit
  repeat' first
    | with_reducible rfl
    | simp -implicitDefEqProofs only [emit_pwr, flitArrives_pwr, probeHeader_pwr, setFlits_pwr, apply_ite Dev.pwr, apply_ite Prod.fst, ite_self, id_eq]
    | split
    | dsimp only
theorem outputClock_pwr (d : Dev) (x y out : Nat) : (outputClock d x y out).pwr = d.pwr := by
  unfold outputClock
  repeat' first
    | with_reducible rfl
    | simp -implicitDefEqProofs only [paced_pwr, passFlit_pwr, apply_ite Dev.pwr, apply_ite Prod.fst, ite_self, id_eq]
    | split
    | dsimp only
theorem doPacketHop_pwr (d : Dev) (x y : Nat) (ins : List (Fin 9 × Fin 4 × Flit)) : (doPacketHop d x y ins).pwr = d.pwr := by
  unfold doPacketHop
  repeat' first
    | with_reducible rfl
    | intro _
    | exact True.intro
    | (with_reducible refine Kept.same ?_; (try dsimp only); with_reducible refine Kept.of ?_)
    | simp -implicitDefEqProofs only [flitArrives_pwr, outputClock_pwr, tick_pwr]
    | rw [each_pwr]
    | split
    | dsimp only
theorem doRouteWrite_pwr (d : Dev) (port idx : Nat) (e : Nat) : (doRouteWrite d port idx e).pwr = d.pwr := by
  unfold doRouteWrite
  repeat' first
    | with_reducible rfl
    | simp -implicitDefEqProofs only [irq_pwr, on_pwr, apply_ite Dev.pwr, apply_ite Prod.fst, ite_self, id_eq]
    | split
    | dsimp only
theorem courierFail_pwr (d : Dev) (src : Nat) : (courierFail d src).pwr = d.pwr := by
  unfold courierFail
  repeat' first
    | with_reducible rfl
    | simp -implicitDefEqProofs only [setCourier_pwr, apply_ite Dev.pwr, apply_ite Prod.fst, ite_self, id_eq]
    | split
    | dsimp only
theorem hostFail_pwr (d : Dev) (o : Outst) : (hostFail d o).pwr = d.pwr := by
  unfold hostFail
  repeat' first
    | with_reducible rfl
    | simp -implicitDefEqProofs only [accessError_pwr, emit_pwr, apply_ite Dev.pwr, apply_ite Prod.fst, ite_self, id_eq]
    | split
    | dsimp only
theorem clusterFail_pwr (d : Dev) (o : Outst) (status : Nat) : (clusterFail d o status).pwr = d.pwr := by
  unfold clusterFail
  repeat' first
    | with_reducible rfl
    | simp -implicitDefEqProofs only [farAnswered_pwr, farStatus_pwr, farTimeout_pwr, tick_pwr, apply_ite Dev.pwr, apply_ite Prod.fst, ite_self, id_eq]
    | split
    | dsimp only
theorem gatewayTakes_pwr (d : Dev) (gi : Nat) (k : Packet) (data : Bool) : (gatewayTakes d gi k data).pwr = d.pwr := by
  unfold gatewayTakes
  repeat' first
    | with_reducible rfl
    | simp -implicitDefEqProofs only [modLink_pwr, sendWaiting_pwr, apply_ite Dev.pwr, apply_ite Prod.fst, ite_self, id_eq]
    | split
    | dsimp only
theorem failed_pwr (d : Dev) (o : Outst) (status : Nat) : (failed d o status).pwr = d.pwr := by
  unfold failed
  repeat' first
    | with_reducible rfl
    | simp -implicitDefEqProofs only [clusterFail_pwr, courierFail_pwr, gatewayTakes_pwr, hostFail_pwr, synthesise_pwr, apply_ite Dev.pwr, apply_ite Prod.fst, ite_self, id_eq]
    | split
    | dsimp only
theorem request_pwr (d : Dev) (k : Packet) (write : Bool) (serve : Packet → Dev → Req → Dev) (h : ∀ p e r, e.pwr = d.pwr → Kept (serve p e r) e) :
    (d.request k write serve).pwr = d.pwr := by
  unfold request
  repeat' first
    | with_reducible rfl
    | simp -implicitDefEqProofs only [failed_pwr, noRoute_pwr, respond_pwr, headerError_pwr, emit_pwr, addOutst_pwr]
    | exact (h _ _ _ (by rfl)).eq
    | split
theorem refuseAccess_pwr (d : Dev) (k : Packet) (r : Req) (write : Bool) : (refuseAccess d k r write).pwr = d.pwr := by
  unfold refuseAccess
  repeat' first
    | with_reducible rfl
    | simp -implicitDefEqProofs only [innerError_pwr, respond_pwr]
    | split
    | dsimp only
theorem serveRw_pwr (old : Dev) (write : Bool) (k : Packet) (d : Dev) (r : Req) (h : d.pwr = old.pwr) : (serveRw old write k d r).pwr = d.pwr := by
  unfold serveRw
  repeat' first
    | with_reducible rfl
    | exact h.symm
    | simp -implicitDefEqProofs only [emit_pwr, hbmRead_pwr, hbmWrite_pwr, modLink_pwr, checkPayload_pwr, refuseAccess_pwr, respond_pwr, tick_pwr, unreachable_pwr, apply_ite Dev.pwr, apply_ite Prod.fst, ite_self]
    | split
    | exact (sendFlits_pwr (by assumption)).trans (checkPayload_pwr _ _)
    | exact sendFlits_pwr (by assumption)
theorem serveQueue_pwr (write : Bool) (act : Packet → Dev → Nat → Dev) (k : Packet) (d : Dev) (r : Req) (h : ∀ p e q, Kept (act p e q) e) :
    (serveQueue write act k d r).pwr = d.pwr := by
  unfold serveQueue
  repeat' first
    | with_reducible rfl
    | simp -implicitDefEqProofs only [unreachable_pwr, respond_pwr, refuseAccess_pwr, checkPayload_pwr]
    | refine (h _ _ _).eq.trans ?_
    | split
theorem dropQwr_pwr (d : Dev) (q : Nat) (k : Packet) : (dropQwr d q k).pwr = d.pwr := by
  unfold dropQwr
  repeat' first
    | with_reducible rfl
    | simp -implicitDefEqProofs only [dropWrite_pwr, notifyKinds_pwr, respond_pwr]
    | split
    | dsimp only
theorem doQwr_pwr (k : Packet) (d : Dev) (q : Nat) : (doQwr k d q).pwr = d.pwr := by
  unfold doQwr
  repeat' first
    | with_reducible rfl
    | simp -implicitDefEqProofs only [acceptQwr_pwr, dropQwr_pwr, setQueue_pwr, apply_ite Dev.pwr, apply_ite Prod.fst, ite_self, id_eq]
    | split
    | dsimp only
theorem doQrd_pwr (k : Packet) (d : Dev) (q : Nat) : (doQrd k d q).pwr = d.pwr := by
  unfold doQrd
  repeat' first
    | with_reducible rfl
    | simp -implicitDefEqProofs only [answerQrd_pwr, markBound_pwr, modQueue_pwr, respond_pwr, apply_ite Dev.pwr, apply_ite Prod.fst, ite_self, id_eq]
    | split
    | dsimp only
theorem markDataErr_pwr (d : Dev) (b : CapBlk) : (markDataErr d b).pwr = d.pwr := by
  unfold markDataErr
  repeat' first
    | with_reducible rfl
    | simp -implicitDefEqProofs only [hbmGet_pwr, hbmPut_pwr, setChan_pwr, apply_ite Dev.pwr, apply_ite Prod.fst, ite_self, id_eq]
    | split
    | dsimp only
theorem countDataErr_pwr (d : Dev) : (countDataErr d).pwr = d.pwr := by
  unfold countDataErr
  repeat' first
    | with_reducible rfl
    | simp -implicitDefEqProofs only [add_pwr, irq_pwr]
    | split
    | dsimp only
theorem doCapWr_pwr (d : Dev) (k : Packet) : (doCapWr d k).pwr = d.pwr := by
  unfold doCapWr
  repeat' first
    | with_reducible rfl
    | intro _
    | exact True.intro
    | (with_reducible refine Kept.same ?_; (try dsimp only); with_reducible refine Kept.of ?_)
    | simp -implicitDefEqProofs only [checkPayload_pwr, countDataErr_pwr, hbmWrite_pwr, markDataErr_pwr, raise_pwr, apply_ite Dev.pwr, apply_ite Prod.fst, ite_self, id_eq]
    | rw [iff_pwr]
    | split
    | dsimp only
theorem blockWritten_pwr (d : Dev) (s : Nat) : (blockWritten d s).pwr = d.pwr := by
  unfold blockWritten
  repeat' first
    | with_reducible rfl
    | simp -implicitDefEqProofs only [add_pwr, modStrm_pwr, on_pwr, p_pwr, stopStream_pwr, traceIrq_pwr, apply_ite Dev.pwr, apply_ite Prod.fst, ite_self, id_eq]
    | split
    | dsimp only
theorem doTrcWr_pwr (d : Dev) (k : Packet) : (doTrcWr d k).pwr = d.pwr := by
  unfold doTrcWr
  repeat' first
    | with_reducible rfl
    | intro _
    | exact True.intro
    | (with_reducible refine Kept.same ?_; (try dsimp only); with_reducible refine Kept.of ?_)
    | simp -implicitDefEqProofs only [blockWritten_pwr, checkPayload_pwr, emit_pwr, hbmWrite_pwr, loseBlock_pwr, noteLoss_pwr, setStrm_pwr, apply_ite Dev.pwr, apply_ite Prod.fst, ite_self, id_eq]
    | rw [iff_pwr]
    | split
    | dsimp only
theorem lateRsp_pwr (d : Dev) : (lateRsp d).pwr = d.pwr := by
  unfold lateRsp
  repeat' first
    | with_reducible rfl
    | simp -implicitDefEqProofs only [add_pwr]
    | split
    | dsimp only
theorem poison_pwr (d : Dev) (fn : Fn) (a : Nat) (bs : List Byte) : (poison d fn a bs).pwr = d.pwr := by
  unfold poison
  repeat' first
    | with_reducible rfl
    | simp -implicitDefEqProofs only [add_pwr, emit_pwr, irq_pwr, on_pwr]
    | split
    | dsimp only
theorem deliver_pwr (d : Dev) (o : Outst) (k : Packet) (data : Bool) : (deliver d o k data).pwr = d.pwr := by
  unfold deliver
  repeat' first
    | with_reducible rfl
    | simp -implicitDefEqProofs only [accessError_pwr, checkPayload_pwr, courierFail_pwr, emit_pwr, farAnswered_pwr, farStatus_pwr, hostFail_pwr, poison_pwr, tick_pwr, apply_ite Dev.pwr, apply_ite Prod.fst, ite_self, id_eq]
    | split
    | dsimp only
theorem doResponse_pwr (d : Dev) (k : Packet) (data : Bool) : (doResponse d k data).pwr = d.pwr := by
  unfold doResponse
  repeat' first
    | with_reducible rfl
    | simp -implicitDefEqProofs only [deliver_pwr, freeOutst_pwr, gatewayTakes_pwr, lateRsp_pwr, apply_ite Dev.pwr, apply_ite Prod.fst, ite_self, id_eq]
    | split
    | dsimp only
theorem doRspTimeout_pwr (d : Dev) (src tag : Nat) : (doRspTimeout d src tag).pwr = d.pwr := by
  unfold doRspTimeout
  repeat' first
    | with_reducible rfl
    | simp -implicitDefEqProofs only [add_pwr, failed_pwr, freeOutst_pwr, raise_pwr, apply_ite Dev.pwr, apply_ite Prod.fst, ite_self, id_eq]
    | split
    | dsimp only
theorem doQuarantineEnd_pwr (d : Dev) (src tag : Nat) : (doQuarantineEnd d src tag).pwr = d.pwr := by
  unfold doQuarantineEnd
  repeat' first
    | with_reducible rfl
    | simp -implicitDefEqProofs only [ite_self]
    | split
    | dsimp only
theorem doDrainComplete_pwr (d : Dev) (n : Nat) : (doDrainComplete d n).pwr = d.pwr := by
  unfold doDrainComplete
  repeat' first
    | with_reducible rfl
    | simp -implicitDefEqProofs only [fenceNi_pwr, apply_ite Dev.pwr, apply_ite Prod.fst, ite_self, id_eq]
    | split
    | dsimp only
theorem doDrainTimeout_pwr (d : Dev) (n : Nat) : (doDrainTimeout d n).pwr = d.pwr := by
  unfold doDrainTimeout
  repeat' first
    | with_reducible rfl
    | intro _
    | exact True.intro
    | (with_reducible refine Kept.same ?_; (try dsimp only); with_reducible refine Kept.of ?_)
    | simp -implicitDefEqProofs only [abandon_pwr, add_pwr, fenceNi_pwr, irq_pwr, landFar_pwr, nocError_pwr, p_pwr, raise_pwr, setFar_pwr, settleFences_pwr, tick_pwr, apply_ite Dev.pwr, apply_ite Prod.fst, ite_self, id_eq]
    | rw [each_pwr]
    | split
    | dsimp only
theorem unfenceNi_pwr (d : Dev) (n : Nat) : (unfenceNi d n).pwr = d.pwr := by
  unfold unfenceNi
  repeat' first
    | with_reducible rfl
    | simp -implicitDefEqProofs only [p_pwr, settleFences_pwr]
    | split
    | dsimp only
theorem doUnfence_pwr (d : Dev) (n : Nat) : (doUnfence d n).pwr = d.pwr := by
  unfold doUnfence
  repeat' first
    | with_reducible rfl
    | simp -implicitDefEqProofs only [unfenceNi_pwr, apply_ite Dev.pwr, apply_ite Prod.fst, ite_self, id_eq]
    | split
    | dsimp only
theorem doNocClr_pwr (d : Dev) : (doNocClr d).pwr = d.pwr := by
  unfold doNocClr
  repeat' first
    | with_reducible rfl
    | intro _
    | exact True.intro
    | (with_reducible refine Kept.same ?_; (try dsimp only); with_reducible refine Kept.of ?_)
    | simp -implicitDefEqProofs only [resetRange_pwr]
    | rw [each_pwr]
    | split
    | dsimp only
end Sys2Proof.Machine.Dev
end

