-- ==== Sys2Proof/Laws/KeepPower6.lean ====
section
/-! SUPPORT. The power state is left as it was by power, the ring and host accesses: one lemma for each function. -/

set_option linter.all false

namespace Sys2Proof.Machine.Dev

set_option Elab.async false

theorem resetFn_pwr (d : Dev) (fn : Fn) : (resetFn d fn).pwr = d.pwr := by
  unfold resetFn
  repeat' first
    | with_reducible rfl
    | simp -implicitDefEqProofs only [resetRange_pwr]
    | split
    | dsimp only
theorem resetPtns_pwr (d : Dev) (mask : Nat) : (resetPtns d mask).pwr = d.pwr := by
  unfold resetPtns
  repeat' first
    | with_reducible rfl
    | intro _
    | exact True.intro
    | (with_reducible refine Kept.same ?_; (try dsimp only); with_reducible refine Kept.of ?_)
    | simp -implicitDefEqProofs only [ptnResetReq_pwr]
    | rw [each_pwr]
    | split
    | dsimp only
theorem doPtnReset_pwr (d : Dev) (mask : Nat) : (doPtnReset d mask).pwr = d.pwr := by
  unfold doPtnReset
  repeat' first
    | with_reducible rfl
    | intro _
    | exact True.intro
    | (with_reducible refine Kept.same ?_; (try dsimp only); with_reducible refine Kept.of ?_)
    | simp -implicitDefEqProofs only [ptnResetReq_pwr]
    | rw [each_pwr]
    | split
    | dsimp only
theorem doClusterWake_pwr (d : Dev) (ns : List Nat) : (doClusterWake d ns).pwr = d.pwr := by
  unfold doClusterWake
  repeat' first
    | with_reducible rfl
    | intro _
    | exact True.intro
    | (with_reducible refine Kept.same ?_; (try dsimp only); with_reducible refine Kept.of ?_)
    | simp -implicitDefEqProofs only [wake_pwr]
    | rw [each_pwr]
    | split
    | dsimp only
theorem doIdleDelay_pwr (d : Dev) (i : Nat) : (doIdleDelay d i).pwr = d.pwr := by
  unfold doIdleDelay
  repeat' first
    | with_reducible rfl
    | intro _
    | exact True.intro
    | (with_reducible refine Kept.same ?_; (try dsimp only); with_reducible refine Kept.of ?_)
    | simp -implicitDefEqProofs only [setPower_pwr, apply_ite Dev.pwr, apply_ite Prod.fst, ite_self, id_eq]
    | rw [each_pwr]
    | split
    | dsimp only
theorem doOffDelay_pwr (d : Dev) (n : Nat) : (doOffDelay d n).pwr = d.pwr := by
  unfold doOffDelay
  repeat' first
    | with_reducible rfl
    | simp -implicitDefEqProofs only [doDrainComplete_pwr, drainNi_pwr, setPower_pwr, apply_ite Dev.pwr, apply_ite Prod.fst, ite_self, id_eq]
    | split
    | dsimp only
theorem doPowerOnCluster_pwr (d : Dev) (n : Nat) : (doPowerOnCluster d n).pwr = d.pwr := by
  unfold doPowerOnCluster
  repeat' first
    | with_reducible rfl
    | intro _
    | exact True.intro
    | (with_reducible refine Kept.same ?_; (try dsimp only); with_reducible refine Kept.of ?_)
    | simp -implicitDefEqProofs only [freshCluster_pwr, setPower_pwr, unfenceNi_pwr, wake_pwr, apply_ite Dev.pwr, apply_ite Prod.fst, ite_self, id_eq]
    | rw [iff_pwr]
    | split
    | dsimp only
theorem latchWake_pwr (d : Dev) (src : Nat) : (latchWake d src).pwr = d.pwr := by
  unfold latchWake
  repeat' first
    | with_reducible rfl
    | simp -implicitDefEqProofs only [emit_pwr, on_pwr, p_pwr, wake_pwr, apply_ite Dev.pwr, apply_ite Prod.fst, ite_self, id_eq]
    | split
    | dsimp only
theorem doWake_pwr (d : Dev) (src : Nat) : (doWake d src).pwr = d.pwr := by
  unfold doWake
  repeat' first
    | with_reducible rfl
    | simp -implicitDefEqProofs only [latchWake_pwr, apply_ite Dev.pwr, apply_ite Prod.fst, ite_self, id_eq]
    | split
    | dsimp only
theorem setWarden_pwr (d : Dev) (st : Nat) : (setWarden d st).pwr = d.pwr := by
  unfold setWarden
  repeat' first
    | with_reducible rfl
    | simp -implicitDefEqProofs only [p_pwr, traceWarden_pwr]
    | split
    | dsimp only
theorem coresFrom_pwr (d : Dev) (a b : Nat) : (coresFrom d a b).pwr = d.pwr := by
  unfold coresFrom
  repeat' first
    | with_reducible rfl
    | intro _
    | exact True.intro
    | (with_reducible refine Kept.same ?_; (try dsimp only); with_reducible refine Kept.of ?_)
    | simp -implicitDefEqProofs only [p_pwr, tracePup_pwr, apply_ite Dev.pwr, apply_ite Prod.fst, ite_self, id_eq]
    | rw [each_pwr]
    | split
    | dsimp only
theorem doHeartbeat_pwr (d : Dev) (v : Nat) : (doHeartbeat d v).pwr = d.pwr := by
  unfold doHeartbeat
  repeat' first
    | with_reducible rfl
    | simp -implicitDefEqProofs only [add_pwr, coresFrom_pwr, p_pwr, setWarden_pwr, apply_ite Dev.pwr, apply_ite Prod.fst, ite_self, id_eq]
    | split
    | dsimp only
theorem doHeartbeatTimeout_pwr (d : Dev) : (doHeartbeatTimeout d).pwr = d.pwr := by
  unfold doHeartbeatTimeout
  repeat' first
    | with_reducible rfl
    | simp -implicitDefEqProofs only [coresFrom_pwr, irq_pwr, raise_pwr, setWarden_pwr, apply_ite Dev.pwr, apply_ite Prod.fst, ite_self, id_eq]
    | split
    | dsimp only
theorem doStopDrain_pwr (d : Dev) : (doStopDrain d).pwr = d.pwr := by
  unfold doStopDrain
  repeat' first
    | with_reducible rfl
    | intro _
    | exact True.intro
    | (with_reducible refine Kept.same ?_; (try dsimp only); with_reducible refine Kept.of ?_)
    | simp -implicitDefEqProofs only [doDrainTimeout_pwr, apply_ite Dev.pwr, apply_ite Prod.fst, ite_self, id_eq]
    | rw [each_pwr]
    | split
    | dsimp only
theorem writeLgrpCfg_pwr (d : Dev) (gi v : Nat) : (writeLgrpCfg d gi v).pwr = d.pwr := by
  unfold writeLgrpCfg
  repeat' first
    | with_reducible rfl
    | simp -implicitDefEqProofs only [doLaneDisable_pwr, doLaneEnable_pwr, doLaneTest_pwr, p_pwr, apply_ite Dev.pwr, apply_ite Prod.fst, ite_self, id_eq]
    | split
    | dsimp only
theorem doStringJoin_pwr (d : Dev) : (doStringJoin d).pwr = d.pwr := by
  unfold doStringJoin
  repeat' first
    | with_reducible rfl
    | simp -implicitDefEqProofs only [on_pwr, p_pwr, apply_ite Dev.pwr, apply_ite Prod.fst, ite_self, id_eq]
    | split
    | dsimp only
theorem doStringOpen_pwr (d : Dev) : (doStringOpen d).pwr = d.pwr := by
  unfold doStringOpen
  repeat' first
    | with_reducible rfl
    | simp -implicitDefEqProofs only [p_pwr, apply_ite Dev.pwr, apply_ite Prod.fst, ite_self, id_eq]
    | split
    | dsimp only
theorem doStringLeave_pwr (d : Dev) : (doStringLeave d).pwr = d.pwr := by
  unfold doStringLeave
  repeat' first
    | with_reducible rfl
    | simp -implicitDefEqProofs only [p_pwr]
    | split
    | dsimp only
theorem doStringBroken_pwr (d : Dev) : (doStringBroken d).pwr = d.pwr := by
  unfold doStringBroken
  repeat' first
    | with_reducible rfl
    | simp -implicitDefEqProofs only [irq_pwr, p_pwr, apply_ite Dev.pwr, apply_ite Prod.fst, ite_self, id_eq]
    | split
    | dsimp only
theorem frameIn_pwr (d : Dev) (f : RingFrame) (own : Bool) (back : Dev → Dev) (act : Dev → Dev × List Byte)
    (hb : ∀ e, Kept (back e) e) (ha : ∀ e, Kept (act e).1 e) : (d.frameIn f own back act).pwr = d.pwr := by
  unfold frameIn
  repeat' first
    | with_reducible rfl
    | simp -implicitDefEqProofs only [add_pwr, p_pwr, ringOut_pwr]
    | simp -implicitDefEqProofs only [(hb _).eq, (ha _).eq, ringOut_pwr, add_pwr, p_pwr]
    | split
theorem onceFor_pwr (d : Dev) (kind src n : Nat) (act : Dev → Dev) (h : ∀ e, Kept (act e) e) : (d.onceFor kind src n act).pwr = d.pwr := by
  unfold onceFor
  split
  · rfl
  · exact (h _).eq.trans (by rfl)
theorem takeNumber_pwr (d : Dev) (n : Nat) : (takeNumber d n).pwr = d.pwr := by
  unfold takeNumber
  repeat' first
    | with_reducible rfl
    | simp -implicitDefEqProofs only [irq_pwr, p_pwr]
    | split
    | dsimp only
theorem doDiscover_pwr (d : Dev) : (doDiscover d).pwr = d.pwr := by
  unfold doDiscover
  repeat' first
    | with_reducible rfl
    | simp -implicitDefEqProofs only [ringSend_pwr, apply_ite Dev.pwr, apply_ite Prod.fst, ite_self, id_eq]
    | split
    | dsimp only
theorem doCollect_pwr (d : Dev) (src n ttl map : Nat) (crc : W32) : (doCollect d src n ttl map crc).pwr = d.pwr := by
  unfold doCollect
  repeat' first
    | with_reducible rfl
    | intro _
    | exact True.intro
    | (with_reducible refine Kept.same ?_; (try dsimp only); with_reducible refine Kept.of ?_)
    | simp -implicitDefEqProofs only [ringSend_pwr, takeNumber_pwr, apply_ite Dev.pwr, apply_ite Prod.fst, ite_self, id_eq]
    | split
    | rw [frameIn_pwr]
    | dsimp only
theorem doAssign_pwr (d : Dev) (src n ttl map : Nat) (crc : W32) : (doAssign d src n ttl map crc).pwr = d.pwr := by
  unfold doAssign
  repeat' first
    | with_reducible rfl
    | intro _
    | exact True.intro
    | (with_reducible refine Kept.same ?_; (try dsimp only); with_reducible refine Kept.of ?_)
    | simp -implicitDefEqProofs only [on_pwr, p_pwr, takeNumber_pwr, apply_ite Dev.pwr, apply_ite Prod.fst, ite_self, id_eq]
    | split
    | rw [frameIn_pwr]
    | dsimp only
theorem doStringBeacon_pwr (d : Dev) (src n ttl ns frac : Nat) (crc : W32) : (doStringBeacon d src n ttl ns frac crc).pwr = d.pwr := by
  unfold doStringBeacon
  repeat' first
    | with_reducible rfl
    | intro _
    | exact True.intro
    | (with_reducible refine Kept.same ?_; (try dsimp only); with_reducible refine Kept.of ?_)
    | simp -implicitDefEqProofs only [ringBeacon_pwr, apply_ite Dev.pwr, apply_ite Prod.fst, ite_self, id_eq]
    | split
    | rw [frameIn_pwr]
    | dsimp only
theorem freezeOwn_pwr (d : Dev) (i : Nat) : (freezeOwn d i).pwr = d.pwr := by
  unfold freezeOwn
  repeat' first
    | with_reducible rfl
    | simp -implicitDefEqProofs only [freezeReq_pwr, modPtn_pwr, on_pwr, apply_ite Dev.pwr, apply_ite Prod.fst, ite_self, id_eq]
    | split
    | dsimp only
theorem ringFreeze_pwr (d : Dev) (origin n : Nat) : (ringFreeze d origin n).pwr = d.pwr := by
  unfold ringFreeze
  repeat' first
    | with_reducible rfl
    | intro _
    | exact True.intro
    | (with_reducible refine Kept.same ?_; (try dsimp only); with_reducible refine Kept.of ?_)
    | simp -implicitDefEqProofs only [controlAll_pwr, freezeOwn_pwr, on_pwr, p_pwr, raise_pwr, apply_ite Dev.pwr, apply_ite Prod.fst, ite_self, id_eq]
    | rw [each_pwr]
    | split
    | dsimp only
theorem doStringFreeze_pwr (d : Dev) (src n ttl origin num : Nat) (crc : W32) : (doStringFreeze d src n ttl origin num crc).pwr = d.pwr := by
  unfold doStringFreeze
  repeat' first
    | with_reducible rfl
    | intro _
    | exact True.intro
    | (with_reducible refine Kept.same ?_; (try dsimp only); with_reducible refine Kept.of ?_)
    | simp -implicitDefEqProofs only [ringFreeze_pwr, apply_ite Dev.pwr, apply_ite Prod.fst, ite_self, id_eq]
    | split
    | rw [frameIn_pwr]
    | rw [onceFor_pwr]
    | dsimp only
theorem doStringStrobe_pwr (d : Dev) (src n ttl : Nat) (crc : W32) : (doStringStrobe d src n ttl crc).pwr = d.pwr := by
  unfold doStringStrobe
  repeat' first
    | with_reducible rfl
    | intro _
    | exact True.intro
    | (with_reducible refine Kept.same ?_; (try dsimp only); with_reducible refine Kept.of ?_)
    | simp -implicitDefEqProofs only [strobeReq_pwr, apply_ite Dev.pwr, apply_ite Prod.fst, ite_self, id_eq]
    | split
    | rw [frameIn_pwr]
    | rw [onceFor_pwr]
    | dsimp only
theorem doMsg_pwr (d : Dev) (src n dest ttl : Nat) (cfg : List (Nat × Nat)) (crc : W32) : (doMsg d src n dest ttl cfg crc).pwr = d.pwr := by
  unfold doMsg
  repeat' first
    | with_reducible rfl
    | intro _
    | exact True.intro
    | (with_reducible refine Kept.same ?_; (try dsimp only); with_reducible refine Kept.of ?_)
    | simp -implicitDefEqProofs only [writeLgrpCfg_pwr, apply_ite Dev.pwr, apply_ite Prod.fst, ite_self, id_eq]
    | rw [each_pwr]
    | split
    | rw [frameIn_pwr]
    | dsimp only
theorem doResetReqSend_pwr (d : Dev) : (doResetReqSend d).pwr = d.pwr := by
  unfold doResetReqSend
  repeat' first
    | with_reducible rfl
    | simp -implicitDefEqProofs only [ringSend_pwr]
    | split
    | dsimp only
theorem doRepeat_pwr (d : Dev) : (doRepeat d).pwr = d.pwr := by
  unfold doRepeat
  repeat' first
    | with_reducible rfl
    | simp -implicitDefEqProofs only [ringOut_pwr, apply_ite Dev.pwr, apply_ite Prod.fst, ite_self, id_eq]
    | split
    | dsimp only
theorem doStringBeaconSend_pwr (d : Dev) : (doStringBeaconSend d).pwr = d.pwr := by
  unfold doStringBeaconSend
  repeat' first
    | with_reducible rfl
    | simp -implicitDefEqProofs only [ringSend_pwr, apply_ite Dev.pwr, apply_ite Prod.fst, ite_self, id_eq]
    | split
    | dsimp only
theorem reachPlace_pwr (d : Dev) (fn : Fn) (a : Nat) (write : Bool) (ones : Nat) (k : Dev → Place → Dev) (h : ∀ e pl, Kept (k e pl) e) :
    (d.reachPlace fn a write ones k).pwr = d.pwr := by
  unfold reachPlace
  dsimp only
  repeat' first
    | with_reducible rfl
    | simp -implicitDefEqProofs only [complete_pwr, apply_ite Dev.pwr, ite_self]
    | refine viaFence_pwr _ _ _ _ _ _ _ (fun e => .of ?_) fun e => h e _
    | split
theorem atPlace_pwr (d : Dev) (fn : Fn) (a : Nat) (write : Bool) (k : Dev → Place → Dev) (h : ∀ e pl, Kept (k e pl) e) : (d.atPlace fn a write k).pwr = d.pwr := by
  unfold atPlace
  exact reachPlace_pwr d fn a write _ k h
theorem doUnmask_pwr (d : Dev) (fn : Fn) (v : Nat) : (doUnmask d fn v).pwr = d.pwr := by
  unfold doUnmask
  repeat' first
    | with_reducible rfl
    | simp -implicitDefEqProofs only [p_pwr, sendVec_pwr, apply_ite Dev.pwr, apply_ite Prod.fst, ite_self, id_eq]
    | split
    | dsimp only
theorem writeMsix_pwr (d : Dev) (fn : Fn) (off v : Nat) : (writeMsix d fn off v).pwr = d.pwr := by
  unfold writeMsix
  repeat' first
    | with_reducible rfl
    | simp -implicitDefEqProofs only [doUnmask_pwr, on_pwr, p_pwr, apply_ite Dev.pwr, apply_ite Prod.fst, ite_self, id_eq]
    | split
    | dsimp only
theorem clearIrq_pwr (d : Dev) (base v : Nat) : (clearIrq d base v).pwr = d.pwr := by
  unfold clearIrq
  repeat' first
    | with_reducible rfl
    | simp -implicitDefEqProofs only [p_pwr]
    | split
    | dsimp only
theorem forceIrq_pwr (d : Dev) (base v : Nat) : (forceIrq d base v).pwr = d.pwr := by
  unfold forceIrq
  repeat' first
    | with_reducible rfl
    | intro _
    | exact True.intro
    | (with_reducible refine Kept.same ?_; (try dsimp only); with_reducible refine Kept.of ?_)
    | simp -implicitDefEqProofs only [irq_pwr, apply_ite Dev.pwr, apply_ite Prod.fst, ite_self, id_eq]
    | rw [each_pwr]
    | split
    | dsimp only
theorem writeSel_pwr (d : Dev) (fn : Fn) (base i v : Nat) : (writeSel d fn base i v).pwr = d.pwr := by
  unfold writeSel
  repeat' first
    | with_reducible rfl
    | simp -implicitDefEqProofs only [p_pwr, apply_ite Dev.pwr, apply_ite Prod.fst, ite_self, id_eq]
    | split
    | dsimp only
theorem writeCommon_pwr (d : Dev) (fn : Fn) (base off v : Nat) : (writeCommon d fn base off v).pwr = d.pwr := by
  unfold writeCommon
  repeat' first
    | with_reducible rfl
    | simp -implicitDefEqProofs only [clearIrq_pwr, forceIrq_pwr, setIrqEn_pwr, writeSel_pwr, writeWord_pwr, apply_ite Dev.pwr, apply_ite Prod.fst, ite_self, id_eq]
    | split
    | dsimp only
theorem writeQueueReg_pwr (d : Dev) (q k v : Nat) : (writeQueueReg d q k v).pwr = d.pwr := by
  unfold writeQueueReg
  repeat' first
    | with_reducible rfl
    | simp -implicitDefEqProofs only [clearQflags_pwr, queueCmd_pwr, writeQcfg_pwr, apply_ite Dev.pwr, apply_ite Prod.fst, ite_self, id_eq]
    | split
    | dsimp only
theorem writePtn_pwr (d : Dev) (i off v : Nat) : (writePtn d i off v).pwr = d.pwr := by
  unfold writePtn
  repeat' first
    | with_reducible rfl
    | simp -implicitDefEqProofs only [doLoadAbort_pwr, doLoadGo_pwr, doLoadReplay_pwr, doSeqTableWrite_pwr, doSnapAbort_pwr, doSnapRestore_pwr, doSnapSave_pwr, seqCommand_pwr, writeQueueReg_pwr, writeWord_pwr, apply_ite Dev.pwr, apply_ite Prod.fst, ite_self, id_eq]
    | split
    | dsimp only
theorem writeClu_pwr (d : Dev) (n base off v : Nat) : (writeClu d n base off v).pwr = d.pwr := by
  unfold writeClu
  repeat' first
    | with_reducible rfl
    | intro _
    | exact True.intro
    | (with_reducible refine Kept.same ?_; (try dsimp only); with_reducible refine Kept.of ?_)
    | simp -implicitDefEqProofs only [doBpiClr_pwr, doDmemCfg_pwr, doDmemClr_pwr, doFabClr_pwr, doFmpCfg_pwr, doTxpCfg_pwr, doWliClr_pwr, winWrite_pwr, writeWord_pwr, apply_ite Dev.pwr, apply_ite Prod.fst, ite_self, id_eq]
    | rw [iff_pwr]
    | split
    | dsimp only
theorem denyTrg_pwr (d : Dev) (k : Nat) : (denyTrg d k).pwr = d.pwr := by
  unfold denyTrg
  repeat' first
    | with_reducible rfl
    | simp -implicitDefEqProofs only [on_pwr, p_pwr]
    | split
    | dsimp only
theorem writeComp_pwr (d : Dev) (pf : Bool) (k o v : Nat) : (writeComp d pf k o v).pwr = d.pwr := by
  unfold writeComp
  repeat' first
    | with_reducible rfl
    | simp -implicitDefEqProofs only [denyTrg_pwr, on_pwr, p_pwr, apply_ite Dev.pwr, apply_ite Prod.fst, ite_self, id_eq]
    | split
    | dsimp only
theorem writeTrg_pwr (d : Dev) (off v : Nat) : (writeTrg d off v).pwr = d.pwr := by
  unfold writeTrg
  repeat' first
    | with_reducible rfl
    | intro _
    | exact True.intro
    | (with_reducible refine Kept.same ?_; (try dsimp only); with_reducible refine Kept.of ?_)
    | simp -implicitDefEqProofs only [doArm_pwr, doDisarm_pwr, drivePin_pwr, p_pwr, stopPulse_pwr, writeComp_pwr, writeWord_pwr, apply_ite Dev.pwr, apply_ite Prod.fst, ite_self, id_eq]
    | rw [iff_pwr]
    | split
    | dsimp only
theorem writeChan_pwr (d : Dev) (pf : Bool) (ch o v : Nat) : (writeChan d pf ch o v).pwr = d.pwr := by
  unfold writeChan
  repeat' first
    | with_reducible rfl
    | intro _
    | exact True.intro
    | (with_reducible refine Kept.same ?_; (try dsimp only); with_reducible refine Kept.of ?_)
    | simp -implicitDefEqProofs only [on_pwr, p_pwr, setChanOwner_pwr, apply_ite Dev.pwr, apply_ite Prod.fst, ite_self, id_eq]
    | rw [iff_pwr]
    | split
    | dsimp only
theorem writeCap_pwr (d : Dev) (pf : Bool) (off v : Nat) : (writeCap d pf off v).pwr = d.pwr := by
  unfold writeCap
  repeat' first
    | with_reducible rfl
    | intro _
    | exact True.intro
    | (with_reducible refine Kept.same ?_; (try dsimp only); with_reducible refine Kept.of ?_)
    | simp -implicitDefEqProofs only [doCaptureArm_pwr, doCaptureDisarm_pwr, doPinwheelConfigWrite_pwr, writeChan_pwr, writeWord_pwr, apply_ite Dev.pwr, apply_ite Prod.fst, ite_self, id_eq]
    | rw [iff_pwr]
    | split
    | dsimp only
theorem writeTrc_pwr (d : Dev) (off v : Nat) : (writeTrc d off v).pwr = d.pwr := by
  unfold writeTrc
  repeat' first
    | with_reducible rfl
    | intro _
    | exact True.intro
    | (with_reducible refine Kept.same ?_; (try dsimp only); with_reducible refine Kept.of ?_)
    | simp -implicitDefEqProofs only [disableStream_pwr, doAuthDisable_pwr, doMark_pwr, doTraceStreamEnable_pwr, writeWord_pwr, apply_ite Dev.pwr, apply_ite Prod.fst, ite_self, id_eq]
    | rw [iff_pwr]
    | split
    | dsimp only
theorem writeTrcSlice_pwr (d : Dev) (i off v : Nat) : (writeTrcSlice d i off v).pwr = d.pwr := by
  unfold writeTrcSlice
  repeat' first
    | with_reducible rfl
    | intro _
    | exact True.intro
    | (with_reducible refine Kept.same ?_; (try dsimp only); with_reducible refine Kept.of ?_)
    | simp -implicitDefEqProofs only [on_pwr, p_pwr, writeTrc_pwr, apply_ite Dev.pwr, apply_ite Prod.fst, ite_self, id_eq]
    | rw [each_pwr]
    | split
    | dsimp only
theorem writeLgrp_pwr (d : Dev) (gi off v : Nat) : (writeLgrp d gi off v).pwr = d.pwr := by
  unfold writeLgrp
  repeat' first
    | with_reducible rfl
    | intro _
    | exact True.intro
    | (with_reducible refine Kept.same ?_; (try dsimp only); with_reducible refine Kept.of ?_)
    | simp -implicitDefEqProofs only [doBridgeEnable_pwr, doClrSlack_pwr, doInjGo_pwr, doLgrpClr_pwr, modLink_pwr, p_pwr, writeLgrpCfg_pwr, writeWord_pwr, apply_ite Dev.pwr, apply_ite Prod.fst, ite_self, id_eq]
    | rw [iff_pwr]
    | split
    | dsimp only
theorem doMbistGo_pwr (d : Dev) (n : Nat) : (doMbistGo d n).pwr = d.pwr := by
  unfold doMbistGo
  repeat' first
    | with_reducible rfl
    | simp -implicitDefEqProofs only [freshCluster_pwr, mntRequest_pwr, on_pwr, p_pwr, setPower_pwr, apply_ite Dev.pwr, apply_ite Prod.fst, ite_self, id_eq]
    | split
    | dsimp only
theorem doMbistComplete_pwr (d : Dev) (n : Nat) (failed : Option Nat) : (doMbistComplete d n failed).pwr = d.pwr := by
  unfold doMbistComplete
  repeat' first
    | with_reducible rfl
    | simp -implicitDefEqProofs only [clearMemories_pwr, failed_pwr, mntFree_pwr, p_pwr, raise_pwr, setPower_pwr, apply_ite Dev.pwr, apply_ite Prod.fst, ite_self, id_eq]
    | split
    | dsimp only
theorem doRelease_pwr (d : Dev) (id : Nat) : (doRelease d id).pwr = d.pwr := by
  unfold doRelease
  repeat' first
    | with_reducible rfl
    | simp -implicitDefEqProofs only [retryWaits_pwr, apply_ite Dev.pwr, apply_ite Prod.fst, ite_self, id_eq]
    | split
    | dsimp only
theorem writeWakeCause_pwr (d : Dev) (v : Nat) : (writeWakeCause d v).pwr = d.pwr := by
  unfold writeWakeCause
  repeat' first
    | with_reducible rfl
    | simp -implicitDefEqProofs only [emit_pwr, p_pwr, wake_pwr, writeWord_pwr, apply_ite Dev.pwr, apply_ite Prod.fst, ite_self, id_eq]
    | split
    | dsimp only
theorem writeBlock_pwr (d : Dev) (base off v : Nat) : (writeBlock d base off v).pwr = d.pwr := by
  unfold writeBlock
  repeat' first
    | with_reducible rfl
    | intro _
    | exact True.intro
    | (with_reducible refine Kept.same ?_; (try dsimp only); with_reducible refine Kept.of ?_)
    | simp -implicitDefEqProofs only [doBootAbort_pwr, doBootGo_pwr, doClearAll_pwr, doConfirm_pwr, doDiscover_pwr, doDspClr_pwr, doImeClrCounts_pwr, doLastGaspClear_pwr, doLogClear_pwr, doMbistGo_pwr, doNocClr_pwr, doPassRequest_pwr, doPtnReset_pwr, doResetReqSend_pwr, doRoll_pwr, doStringJoin_pwr, doStringLeave_pwr, doSysFreeze_pwr, doTsbSet_pwr, forgetSigs_pwr, p_pwr, strobeReq_pwr, writeCap_pwr, writeQueueReg_pwr, writeTrc_pwr, writeTrg_pwr, writeWakeCause_pwr, writeWord_pwr, apply_ite Dev.pwr, apply_ite Prod.fst, ite_self, id_eq]
    | rw [each_pwr]
    | rw [iff_pwr]
    | split
    | dsimp only
theorem writeSlice_pwr (d : Dev) (i base off v : Nat) : (writeSlice d i base off v).pwr = d.pwr := by
  unfold writeSlice
  repeat' first
    | with_reducible rfl
    | simp -implicitDefEqProofs only [writeCap_pwr, writeComp_pwr, writeTrcSlice_pwr, writeWord_pwr, apply_ite Dev.pwr, apply_ite Prod.fst, ite_self, id_eq]
    | split
    | dsimp only
theorem keepLow_pwr (d : Dev) (fn : Fn) (pl : Place) (v : Nat) : (keepLow d fn pl v).pwr = d.pwr := by
  unfold keepLow
  repeat' first
    | with_reducible rfl
    | simp -implicitDefEqProofs only [ite_self]
    | split
    | dsimp only
theorem doMisaligned_pwr (d : Dev) (fn : Fn) (a size : Nat) (write : Bool) : (doMisaligned d fn a size write).pwr = d.pwr := by
  unfold doMisaligned
  repeat' first
    | with_reducible rfl
    | simp -implicitDefEqProofs only [accessError_pwr, complete_pwr, apply_ite Dev.pwr, apply_ite Prod.fst, ite_self, id_eq]
    | split
    | dsimp only
theorem logWindowRead_pwr (d : Dev) (pl : Place) : (logWindowRead d pl).pwr = d.pwr := by
  unfold logWindowRead
  repeat' first
    | with_reducible rfl
    | simp -implicitDefEqProofs only [add_pwr, logFail_pwr, apply_ite Dev.pwr, apply_ite Prod.fst, ite_self, id_eq]
    | split
    | dsimp only
theorem fetch32_pwr (d : Dev) (fn : Fn) (pl : Place) : (fetch32 d fn pl).1.pwr = d.pwr := by
  unfold fetch32
  repeat' first
    | with_reducible rfl
    | simp -implicitDefEqProofs only [logWindowRead_pwr, winRead_pwr, apply_ite Dev.pwr, apply_ite Prod.fst, ite_self, id_eq]
    | split
    | dsimp only
theorem read32_pwr (d : Dev) (fn : Fn) (pl : Place) : (read32 d fn pl).pwr = d.pwr := by
  unfold read32
  repeat' first
    | with_reducible rfl
    | simp -implicitDefEqProofs only [fetch32_pwr, reply_pwr, submitList_pwr, apply_ite Dev.pwr, apply_ite Prod.fst, ite_self, id_eq]
    | split
    | dsimp only
theorem doRead32_pwr (d : Dev) (fn : Fn) (a : Nat) : (doRead32 d fn a).pwr = d.pwr := by
  unfold doRead32
  repeat' first
    | with_reducible rfl
    | intro _
    | exact True.intro
    | (with_reducible refine Kept.same ?_; (try dsimp only); with_reducible refine Kept.of ?_)
    | simp -implicitDefEqProofs only [doMisaligned_pwr, read32_pwr, apply_ite Dev.pwr, apply_ite Prod.fst, ite_self, id_eq]
    | split
    | rw [atPlace_pwr]
    | dsimp only
theorem doRead64_pwr (d : Dev) (fn : Fn) (a : Nat) : (doRead64 d fn a).pwr = d.pwr := by
  unfold doRead64
  repeat' first
    | with_reducible rfl
    | intro _
    | exact True.intro
    | (with_reducible refine Kept.same ?_; (try dsimp only); with_reducible refine Kept.of ?_)
    | simp -implicitDefEqProofs only [doMisaligned_pwr, read32_pwr, reply64_pwr, apply_ite Dev.pwr, apply_ite Prod.fst, ite_self, id_eq]
    | split
    | rw [reachPlace_pwr]
    | dsimp only
theorem fetchReg_pwr (d : Dev) (fn : Fn) (pl : Place) : (fetchReg d fn pl).1.pwr = d.pwr := by
  unfold fetchReg
  repeat' first
    | with_reducible rfl
    | simp -implicitDefEqProofs only [fetch32_pwr, judgeItem_pwr, apply_ite Dev.pwr, apply_ite Prod.fst, ite_self, id_eq]
    | split
    | dsimp only
theorem serveReg_pwr (k : Packet) (d : Dev) (r : Req) : (serveReg false k d r).pwr = d.pwr := by
  unfold serveReg
  repeat' first
    | with_reducible rfl
    | simp -implicitDefEqProofs only [Bool.false_eq_true, if_false, Bool.false_and, refuseAccess_pwr, respond_pwr, unreachable_pwr, fetchReg_pwr, apply_ite Dev.pwr, ite_self]
    | split
    | dsimp only
theorem serveAccess_pwr (old : Dev) (k : Packet) (d : Dev) (r : Req) (h : d.pwr = old.pwr) : (serveAccess old false k d r).pwr = d.pwr := by
  unfold serveAccess
  split
  · exact serveReg_pwr _ _ _
  · exact serveRw_pwr _ _ _ _ _ h
theorem doFenceRead_pwr (d : Dev) (fn : Fn) (a : Nat) : (doFenceRead d fn a).pwr = d.pwr := by
  unfold doFenceRead
  repeat' first
    | with_reducible rfl
    | intro _
    | exact True.intro
    | (with_reducible refine Kept.same ?_; (try dsimp only); with_reducible refine Kept.of ?_)
    | simp -implicitDefEqProofs only [read32_pwr, reply_pwr, apply_ite Dev.pwr, apply_ite Prod.fst, ite_self, id_eq]
    | split
    | rw [atPlace_pwr]
    | dsimp only
theorem latchPage_pwr (d0 d : Dev) (base n : Nat) : (latchPage d0 d base n).pwr = d.pwr := by
  unfold latchPage
  repeat' first
    | with_reducible rfl
    | intro _
    | exact True.intro
    | (with_reducible refine Kept.same ?_; (try dsimp only); with_reducible refine Kept.of ?_)
    | simp -implicitDefEqProofs only [on_pwr, p_pwr, apply_ite Dev.pwr, apply_ite Prod.fst, ite_self, id_eq]
    | rw [each_pwr]
    | split
    | dsimp only
theorem doStrobeLatch_pwr (d : Dev) : (doStrobeLatch d).pwr = d.pwr := by
  unfold doStrobeLatch
  repeat' first
    | with_reducible rfl
    | intro _
    | exact True.intro
    | (with_reducible refine Kept.same ?_; (try dsimp only); with_reducible refine Kept.of ?_)
    | simp -implicitDefEqProofs only [latchPage_pwr, p_pwr, apply_ite Dev.pwr, apply_ite Prod.fst, ite_self, id_eq]
    | split
    | with_reducible refine (fst_pwr (fun _ _ => ?_) _ _).trans ?_
    | with_reducible refine (foldl_pwr (fun _ _ => ?_) _ _).trans ?_
    | dsimp only
theorem windowBytes_pwr (d : Dev) (fn : Fn) (x a n : Nat) (r : Req) (ok : Nat → Nat → Bool) : (windowBytes d fn x a n r ok).pwr = d.pwr := by
  unfold windowBytes
  repeat' first
    | with_reducible rfl
    | intro _
    | exact True.intro
    | (with_reducible refine Kept.same ?_; (try dsimp only); with_reducible refine Kept.of ?_)
    | simp -implicitDefEqProofs only [accessError_pwr, emit_pwr, hbmFetch_pwr, poison_pwr, apply_ite Dev.pwr, apply_ite Prod.fst, ite_self, id_eq]
    | rw [each_pwr]
    | split
    | dsimp only
theorem windowPut_pwr (d : Dev) (fn : Fn) (x a : Nat) (bs : List Byte) (r : Req) : (windowPut d fn x a bs r).pwr = d.pwr := by
  unfold windowPut
  repeat' first
    | with_reducible rfl
    | intro _
    | exact True.intro
    | (with_reducible refine Kept.same ?_; (try dsimp only); with_reducible refine Kept.of ?_)
    | simp -implicitDefEqProofs only [accessError_pwr, hbmSend_pwr, apply_ite Dev.pwr, apply_ite Prod.fst, ite_self, id_eq]
    | rw [each_pwr]
    | split
    | dsimp only
theorem onesRead_pwr (d : Dev) (fn : Fn) (x n : Nat) : (onesRead d fn x n).pwr = d.pwr := by
  unfold onesRead
  repeat' first
    | with_reducible rfl
    | simp -implicitDefEqProofs only [emit_pwr]
    | split
    | dsimp only
theorem doCaptureRead_pwr (d : Dev) (p : Fin 16) (x n : Nat) : (doCaptureRead d p x n).pwr = d.pwr := by
  unfold doCaptureRead
  repeat' first
    | with_reducible rfl
    | simp -implicitDefEqProofs only [onesRead_pwr, p_pwr, windowBytes_pwr, apply_ite Dev.pwr, apply_ite Prod.fst, ite_self, id_eq]
    | split
    | dsimp only
theorem doBar2Read_pwr (d : Dev) (fn : Fn) (x n : Nat) : (doBar2Read d fn x n).pwr = d.pwr := by
  unfold doBar2Read
  repeat' first
    | with_reducible rfl
    | simp -implicitDefEqProofs only [doCaptureRead_pwr, onesRead_pwr, windowBytes_pwr, apply_ite Dev.pwr, apply_ite Prod.fst, ite_self, id_eq]
    | split
    | dsimp only
theorem doBar2Write_pwr (d : Dev) (fn : Fn) (x : Nat) (bs : List Byte) : (doBar2Write d fn x bs).pwr = d.pwr := by
  unfold doBar2Write
  repeat' first
    | with_reducible rfl
    | simp -implicitDefEqProofs only [accessError_pwr, windowPut_pwr, apply_ite Dev.pwr, apply_ite Prod.fst, ite_self, id_eq]
    | split
    | dsimp only
/-- PERST and DEVICE keep the supplies and the pin, and end a stop (R386). -/
theorem perst_eq (d : Dev) (c : Nat) (st : Power) :
    (d.perst c st).pwr = { Pwr.reset with st := st, vaux := d.pwr.vaux, vin48 := d.pwr.vin48, perst := d.pwr.perst } := by
  unfold Dev.perst
  extract_lets e g l kept f _ y p
  have hf : f.pwr = { Pwr.reset with st := d.pwr.st, vaux := d.pwr.vaux, vin48 := d.pwr.vin48, perst := d.pwr.perst } := by
    have hk : kept.pwr = { Pwr.reset with st := e.pwr.st, vaux := e.pwr.vaux, vin48 := e.pwr.vin48, perst := e.pwr.perst } := rfl
    have he : e.pwr = d.pwr := cutBurns_pwr d
    rw [he] at hk
    clear_value kept
    simp -implicitDefEqProofs only [f, p_pwr, hk]
  have hy : y = f.pwr := rfl
  rw [hf] at hy
  clear_value y
  rw [hy]
end Sys2Proof.Machine.Dev
end

