-- ==== Sys2Proof/Laws/KeepPower7.lean ====
section
/-! SUPPORT. The power state is left as it was by every command that has no power effect: one lemma for each function. -/

set_option linter.all false

namespace Sys2Proof.Machine

set_option Elab.async false

open Dev
theorem fin_keeps {s t : State} {f : Dev → Dev} (h : ∀ e, Kept (f e) e) (hx : fin s f = .next t) : t.dev.pwr = s.dev.pwr := by
  unfold fin at hx
  cases hx
  exact (finish_pwr _).trans (h _).eq
theorem main_keeps {s t : State} {f : Dev → Dev} (h : ∀ e, Kept (f e) e) (hx : main s f = .next t) : t.dev.pwr = s.dev.pwr := by
  refine fin_keeps (fun e => ?_) hx
  split
  · exact h e
  · exact .of rfl
theorem execArm_pwr (s : State) {next : State} (h : execArm s = .next next) :
    next.dev.pwr = s.dev.pwr := by
  refine main_keeps (fun e => .of ?_) h
  repeat' first
    | with_reducible rfl
    | simp -implicitDefEqProofs only [doArm_pwr, apply_ite Dev.pwr, apply_ite Prod.fst, ite_self, id_eq]
    | split
theorem execDisarm_pwr (s : State) {next : State} (h : execDisarm s = .next next) :
    next.dev.pwr = s.dev.pwr := by
  refine main_keeps (fun e => .of ?_) h
  repeat' first
    | with_reducible rfl
    | simp -implicitDefEqProofs only [doDisarm_pwr, apply_ite Dev.pwr, apply_ite Prod.fst, ite_self, id_eq]
    | split
theorem execTriggerLevelTimeout_pwr (s : State) {next : State} (h : execTriggerLevelTimeout s = .next next) :
    next.dev.pwr = s.dev.pwr := by
  refine main_keeps (fun e => .of ?_) h
  simp -implicitDefEqProofs only [doTriggerLevelTimeout_pwr]
theorem execTrigPinEdge_pwr (j : Fin 8) (rising : Bool) (s : State) {next : State} (h : execTrigPinEdge j rising s = .next next) :
    next.dev.pwr = s.dev.pwr := by
  refine main_keeps (fun e => .of ?_) h
  simp -implicitDefEqProofs only [doTrigPinEdge_pwr]
theorem execPinPulseEnd_pwr (j : Fin 8) (s : State) {next : State} (h : execPinPulseEnd j s = .next next) :
    next.dev.pwr = s.dev.pwr := by
  refine main_keeps (fun e => .of ?_) h
  simp -implicitDefEqProofs only [doPinPulseEnd_pwr]
theorem execTraceStreamEnable_pwr (t : Fin 17) (s : State) {next : State} (h : execTraceStreamEnable t s = .next next) :
    next.dev.pwr = s.dev.pwr := by
  refine main_keeps (fun e => .of ?_) h
  repeat' first
    | with_reducible rfl
    | simp -implicitDefEqProofs only [doTraceStreamEnable_pwr, apply_ite Dev.pwr, apply_ite Prod.fst, ite_self, id_eq]
    | split
theorem execTraceCounterLimit_pwr (t : Fin 17) (s : State) {next : State} (h : execTraceCounterLimit t s = .next next) :
    next.dev.pwr = s.dev.pwr := by
  refine main_keeps (fun e => .of ?_) h
  simp -implicitDefEqProofs only [doTraceCounterLimit_pwr]
theorem execMark_pwr (t : Fin 17) (v : BitVec 16) (s : State) {next : State} (h : execMark t v s = .next next) :
    next.dev.pwr = s.dev.pwr := by
  refine main_keeps (fun e => .of ?_) h
  repeat' first
    | with_reducible rfl
    | simp -implicitDefEqProofs only [doMark_pwr, apply_ite Dev.pwr, apply_ite Prod.fst, ite_self, id_eq]
    | split
theorem execTraceBlockTimeout_pwr (t : Fin 17) (s : State) {next : State} (h : execTraceBlockTimeout t s = .next next) :
    next.dev.pwr = s.dev.pwr := by
  refine main_keeps (fun e => .of ?_) h
  simp -implicitDefEqProofs only [doTraceBlockTimeout_pwr]
theorem execTraceSyncTimer_pwr (t : Fin 17) (s : State) {next : State} (h : execTraceSyncTimer t s = .next next) :
    next.dev.pwr = s.dev.pwr := by
  refine main_keeps (fun e => .of ?_) h
  simp -implicitDefEqProofs only [doTraceSyncTimer_pwr]
theorem execTokenRevoke_pwr (tag : Byte) (s : State) {next : State} (h : execTokenRevoke tag s = .next next) :
    next.dev.pwr = s.dev.pwr := by
  refine main_keeps (fun e => .of ?_) h
  repeat' first
    | with_reducible rfl
    | simp -implicitDefEqProofs only [doTokenRevoke_pwr, apply_ite Dev.pwr, apply_ite Prod.fst, ite_self, id_eq]
    | split
theorem execTokenExpire_pwr (s : State) {next : State} (h : execTokenExpire s = .next next) :
    next.dev.pwr = s.dev.pwr := by
  refine main_keeps (fun e => .of ?_) h
  simp -implicitDefEqProofs only [doTokenExpire_pwr]
theorem execAuthDisable_pwr (s : State) {next : State} (h : execAuthDisable s = .next next) :
    next.dev.pwr = s.dev.pwr := by
  refine main_keeps (fun e => .of ?_) h
  repeat' first
    | with_reducible rfl
    | simp -implicitDefEqProofs only [doAuthDisable_pwr, apply_ite Dev.pwr, apply_ite Prod.fst, ite_self, id_eq]
    | split
theorem execTokenChallenge_pwr (tag : Byte) (s : State) {next : State} (h : execTokenChallenge tag s = .next next) :
    next.dev.pwr = s.dev.pwr := by
  refine main_keeps (fun e => .of ?_) h
  repeat' first
    | with_reducible rfl
    | simp -implicitDefEqProofs only [doTokenChallenge_pwr, apply_ite Dev.pwr, apply_ite Prod.fst, ite_self, id_eq]
    | split
theorem execLockstepRecord_pwr (r : BitVec 128) (s : State) {next : State} (h : execLockstepRecord r s = .next next) :
    next.dev.pwr = s.dev.pwr := by
  refine main_keeps (fun e => .of ?_) h
  simp -implicitDefEqProofs only [doLockstepRecord_pwr]
theorem execPartnerTimeout_pwr (s : State) {next : State} (h : execPartnerTimeout s = .next next) :
    next.dev.pwr = s.dev.pwr := by
  refine main_keeps (fun e => .of ?_) h
  simp -implicitDefEqProofs only [doPartnerTimeout_pwr]
theorem execExecuteStep_pwr (p : Fin 16) (s : State) {next : State} (h : execExecuteStep p s = .next next) :
    next.dev.pwr = s.dev.pwr := by
  refine main_keeps (fun e => .of ?_) h
  simp -implicitDefEqProofs only [doExecuteStep_pwr, p_pwr]
theorem execCascadeLimit_pwr (p : Fin 16) (s : State) {next : State} (h : execCascadeLimit p s = .next next) :
    next.dev.pwr = s.dev.pwr := by
  refine main_keeps (fun e => .of ?_) h
  simp -implicitDefEqProofs only [doDue_pwr, p_pwr]
theorem execRunLimitReached_pwr (p : Fin 16) (s : State) {next : State} (h : execRunLimitReached p s = .next next) :
    next.dev.pwr = s.dev.pwr := by
  refine main_keeps (fun e => .of ?_) h
  simp -implicitDefEqProofs only [doDue_pwr, p_pwr]
theorem execStepCyclesCountReached_pwr (p : Fin 16) (s : State) {next : State} (h : execStepCyclesCountReached p s = .next next) :
    next.dev.pwr = s.dev.pwr := by
  refine main_keeps (fun e => .of ?_) h
  simp -implicitDefEqProofs only [doDue_pwr, p_pwr]
theorem execStepStepsCountReached_pwr (p : Fin 16) (s : State) {next : State} (h : execStepStepsCountReached p s = .next next) :
    next.dev.pwr = s.dev.pwr := by
  refine main_keeps (fun e => .of ?_) h
  simp -implicitDefEqProofs only [doStepStepsCountReached_pwr, p_pwr]
theorem execStallRelease_pwr (p : Fin 16) (s : State) {next : State} (h : execStallRelease p s = .next next) :
    next.dev.pwr = s.dev.pwr := by
  refine main_keeps (fun e => .of ?_) h
  simp -implicitDefEqProofs only [doStallRelease_pwr, p_pwr]
theorem execStart_pwr (p : Fin 16) (s : State) {next : State} (h : execStart p s = .next next) :
    next.dev.pwr = s.dev.pwr := by
  refine main_keeps (fun e => .of ?_) h
  repeat' first
    | with_reducible rfl
    | intro _
    | (with_reducible refine Kept.same ?_; (try dsimp only); with_reducible refine Kept.of ?_)
    | simp -implicitDefEqProofs only [p_pwr, seqCommand_pwr, apply_ite Dev.pwr, apply_ite Prod.fst, ite_self, id_eq]
    | rw [atPtn_pwr]
    | split
theorem execResume_pwr (p : Fin 16) (s : State) {next : State} (h : execResume p s = .next next) :
    next.dev.pwr = s.dev.pwr := by
  refine main_keeps (fun e => .of ?_) h
  repeat' first
    | with_reducible rfl
    | intro _
    | (with_reducible refine Kept.same ?_; (try dsimp only); with_reducible refine Kept.of ?_)
    | simp -implicitDefEqProofs only [p_pwr, seqCommand_pwr, apply_ite Dev.pwr, apply_ite Prod.fst, ite_self, id_eq]
    | rw [atPtn_pwr]
    | split
theorem execFreeze_pwr (p : Fin 16) (s : State) {next : State} (h : execFreeze p s = .next next) :
    next.dev.pwr = s.dev.pwr := by
  refine main_keeps (fun e => .of ?_) h
  repeat' first
    | with_reducible rfl
    | intro _
    | (with_reducible refine Kept.same ?_; (try dsimp only); with_reducible refine Kept.of ?_)
    | simp -implicitDefEqProofs only [p_pwr, seqCommand_pwr, apply_ite Dev.pwr, apply_ite Prod.fst, ite_self, id_eq]
    | rw [atPtn_pwr]
    | split
theorem execHardFreeze_pwr (p : Fin 16) (s : State) {next : State} (h : execHardFreeze p s = .next next) :
    next.dev.pwr = s.dev.pwr := by
  refine main_keeps (fun e => .of ?_) h
  repeat' first
    | with_reducible rfl
    | intro _
    | (with_reducible refine Kept.same ?_; (try dsimp only); with_reducible refine Kept.of ?_)
    | simp -implicitDefEqProofs only [p_pwr, seqCommand_pwr, apply_ite Dev.pwr, apply_ite Prod.fst, ite_self, id_eq]
    | rw [atPtn_pwr]
    | split
theorem execStepCycles_pwr (p : Fin 16) (s : State) {next : State} (h : execStepCycles p s = .next next) :
    next.dev.pwr = s.dev.pwr := by
  refine main_keeps (fun e => .of ?_) h
  repeat' first
    | with_reducible rfl
    | intro _
    | (with_reducible refine Kept.same ?_; (try dsimp only); with_reducible refine Kept.of ?_)
    | simp -implicitDefEqProofs only [p_pwr, seqCommand_pwr, apply_ite Dev.pwr, apply_ite Prod.fst, ite_self, id_eq]
    | rw [atPtn_pwr]
    | split
theorem execStepSteps_pwr (p : Fin 16) (s : State) {next : State} (h : execStepSteps p s = .next next) :
    next.dev.pwr = s.dev.pwr := by
  refine main_keeps (fun e => .of ?_) h
  repeat' first
    | with_reducible rfl
    | intro _
    | (with_reducible refine Kept.same ?_; (try dsimp only); with_reducible refine Kept.of ?_)
    | simp -implicitDefEqProofs only [p_pwr, seqCommand_pwr, apply_ite Dev.pwr, apply_ite Prod.fst, ite_self, id_eq]
    | rw [atPtn_pwr]
    | split
theorem execStop_pwr (p : Fin 16) (s : State) {next : State} (h : execStop p s = .next next) :
    next.dev.pwr = s.dev.pwr := by
  refine main_keeps (fun e => .of ?_) h
  repeat' first
    | with_reducible rfl
    | intro _
    | (with_reducible refine Kept.same ?_; (try dsimp only); with_reducible refine Kept.of ?_)
    | simp -implicitDefEqProofs only [p_pwr, seqCommand_pwr, apply_ite Dev.pwr, apply_ite Prod.fst, ite_self, id_eq]
    | rw [atPtn_pwr]
    | split
theorem execSeqCmdInvalid_pwr (p : Fin 16) (code : Fin 16) (s : State) {next : State} (h : execSeqCmdInvalid p code s = .next next) :
    next.dev.pwr = s.dev.pwr := by
  refine main_keeps (fun e => .of ?_) h
  repeat' first
    | with_reducible rfl
    | intro _
    | (with_reducible refine Kept.same ?_; (try dsimp only); with_reducible refine Kept.of ?_)
    | simp -implicitDefEqProofs only [p_pwr, seqCommand_pwr, apply_ite Dev.pwr, apply_ite Prod.fst, ite_self, id_eq]
    | rw [atPtn_pwr]
    | split
theorem execFreezeTimeout_pwr (p : Fin 16) (s : State) {next : State} (h : execFreezeTimeout p s = .next next) :
    next.dev.pwr = s.dev.pwr := by
  refine main_keeps (fun e => .of ?_) h
  simp -implicitDefEqProofs only [doFreezeTimeout_pwr, p_pwr]
theorem execSeqTableWrite_pwr (p : Fin 16) (off : Nat) (v : W32) (s : State) {next : State} (h : execSeqTableWrite p off v s = .next next) :
    next.dev.pwr = s.dev.pwr := by
  refine main_keeps (fun e => .of ?_) h
  repeat' first
    | with_reducible rfl
    | intro _
    | (with_reducible refine Kept.same ?_; (try dsimp only); with_reducible refine Kept.of ?_)
    | simp -implicitDefEqProofs only [doSeqTableWrite_pwr, p_pwr, apply_ite Dev.pwr, apply_ite Prod.fst, ite_self, id_eq]
    | rw [atPtn_pwr]
    | split
theorem execLinkedCommand_pwr (g : Fin 16) (p : Fin 16) (cmd : Fin 16) (count : W32) (dist : Nat) (intact : Bool) (s : State) {next : State} (h : execLinkedCommand g p cmd count dist intact s = .next next) :
    next.dev.pwr = s.dev.pwr := by
  refine main_keeps (fun e => .of ?_) h
  simp -implicitDefEqProofs only [doLinkedCommand_pwr, p_pwr]
theorem execLinkedCommandEffect_pwr (p : Fin 16) (s : State) {next : State} (h : execLinkedCommandEffect p s = .next next) :
    next.dev.pwr = s.dev.pwr := by
  refine main_keeps (fun e => .of ?_) h
  simp -implicitDefEqProofs only [doLinkedCommandEffect_pwr, p_pwr]
theorem execHold_pwr (g : Fin 16) (p : Fin 16) (e : Nat) (intact : Bool) (s : State) {next : State} (h : execHold g p e intact s = .next next) :
    next.dev.pwr = s.dev.pwr := by
  refine main_keeps (fun e => .of ?_) h
  simp -implicitDefEqProofs only [doHold_pwr, p_pwr]
theorem execReady_pwr (g : Fin 16) (p : Fin 16) (e : Nat) (intact : Bool) (s : State) {next : State} (h : execReady g p e intact s = .next next) :
    next.dev.pwr = s.dev.pwr := by
  refine main_keeps (fun e => .of ?_) h
  simp -implicitDefEqProofs only [doReady_pwr, p_pwr]
theorem execGo_pwr (g : Fin 16) (p : Fin 16) (e : Nat) (intact : Bool) (s : State) {next : State} (h : execGo g p e intact s = .next next) :
    next.dev.pwr = s.dev.pwr := by
  refine main_keeps (fun e => .of ?_) h
  simp -implicitDefEqProofs only [doGo_pwr, p_pwr]
theorem execSystemHoldRelease_pwr (p : Fin 16) (s : State) {next : State} (h : execSystemHoldRelease p s = .next next) :
    next.dev.pwr = s.dev.pwr := by
  refine main_keeps (fun e => .of ?_) h
  simp -implicitDefEqProofs only [doSystemHoldRelease_pwr, p_pwr]
theorem execSteps_pwr (g : Fin 16) (p : Fin 16) (cycle : BitVec 48) (count : Nat) (intact : Bool) (s : State) {next : State} (h : execSteps g p cycle count intact s = .next next) :
    next.dev.pwr = s.dev.pwr := by
  refine main_keeps (fun e => .of ?_) h
  simp -implicitDefEqProofs only [doSteps_pwr, p_pwr]
theorem execCorrectedWordWriteBack_pwr (n : Fin 64) (walu : Bool) (t : Fin 32) (unit : Fin 64) (a : Fin 256) (s : State) {next : State} (h : execCorrectedWordWriteBack n walu t unit a s = .next next) :
    next.dev.pwr = s.dev.pwr := by
  refine main_keeps (fun e => .of ?_) h
  simp -implicitDefEqProofs only [doWriteBack_pwr]
theorem execDmemRowWriteBack_pwr (n : Fin 64) (m : Fin 8) (row : Fin 8192) (s : State) {next : State} (h : execDmemRowWriteBack n m row s = .next next) :
    next.dev.pwr = s.dev.pwr := by
  refine main_keeps (fun e => .of ?_) h
  simp -implicitDefEqProofs only [doRowWriteBack_pwr]
theorem execBpiClrCounts_pwr (n : Fin 64) (s : State) {next : State} (h : execBpiClrCounts n s = .next next) :
    next.dev.pwr = s.dev.pwr := by
  refine main_keeps (fun e => .of ?_) h
  repeat' first
    | with_reducible rfl
    | intro _
    | (with_reducible refine Kept.same ?_; (try dsimp only); with_reducible refine Kept.of ?_)
    | simp -implicitDefEqProofs only [doBpiClr_pwr, apply_ite Dev.pwr, apply_ite Prod.fst, ite_self, id_eq]
    | rw [atCluster_pwr]
    | split
theorem execWliClrCounts_pwr (n : Fin 64) (s : State) {next : State} (h : execWliClrCounts n s = .next next) :
    next.dev.pwr = s.dev.pwr := by
  refine main_keeps (fun e => .of ?_) h
  repeat' first
    | with_reducible rfl
    | intro _
    | (with_reducible refine Kept.same ?_; (try dsimp only); with_reducible refine Kept.of ?_)
    | simp -implicitDefEqProofs only [doWliClr_pwr, apply_ite Dev.pwr, apply_ite Prod.fst, ite_self, id_eq]
    | rw [atCluster_pwr]
    | split
theorem execFabClrCount_pwr (n : Fin 64) (s : State) {next : State} (h : execFabClrCount n s = .next next) :
    next.dev.pwr = s.dev.pwr := by
  refine main_keeps (fun e => .of ?_) h
  repeat' first
    | with_reducible rfl
    | intro _
    | (with_reducible refine Kept.same ?_; (try dsimp only); with_reducible refine Kept.of ?_)
    | simp -implicitDefEqProofs only [doFabClr_pwr, apply_ite Dev.pwr, apply_ite Prod.fst, ite_self, id_eq]
    | rw [atCluster_pwr]
    | split
theorem execDmemClrCounts_pwr (n : Fin 64) (s : State) {next : State} (h : execDmemClrCounts n s = .next next) :
    next.dev.pwr = s.dev.pwr := by
  refine main_keeps (fun e => .of ?_) h
  repeat' first
    | with_reducible rfl
    | intro _
    | (with_reducible refine Kept.same ?_; (try dsimp only); with_reducible refine Kept.of ?_)
    | simp -implicitDefEqProofs only [doDmemClr_pwr, apply_ite Dev.pwr, apply_ite Prod.fst, ite_self, id_eq]
    | rw [atCluster_pwr]
    | split
theorem execDmemCfgWrite_pwr (n : Fin 64) (off : Nat) (v : W32) (s : State) {next : State} (h : execDmemCfgWrite n off v s = .next next) :
    next.dev.pwr = s.dev.pwr := by
  refine main_keeps (fun e => .of ?_) h
  repeat' first
    | with_reducible rfl
    | intro _
    | (with_reducible refine Kept.same ?_; (try dsimp only); with_reducible refine Kept.of ?_)
    | simp -implicitDefEqProofs only [doDmemCfg_pwr, apply_ite Dev.pwr, apply_ite Prod.fst, ite_self, id_eq]
    | rw [atCluster_pwr]
    | split
theorem execFmpConfigWrite_pwr (n : Fin 64) (off : Nat) (v : W32) (s : State) {next : State} (h : execFmpConfigWrite n off v s = .next next) :
    next.dev.pwr = s.dev.pwr := by
  refine main_keeps (fun e => .of ?_) h
  repeat' first
    | with_reducible rfl
    | intro _
    | (with_reducible refine Kept.same ?_; (try dsimp only); with_reducible refine Kept.of ?_)
    | simp -implicitDefEqProofs only [doFmpCfg_pwr, apply_ite Dev.pwr, apply_ite Prod.fst, ite_self, id_eq]
    | rw [atCluster_pwr]
    | split
theorem execTxpConfigWrite_pwr (n : Fin 64) (off : Nat) (v : W32) (s : State) {next : State} (h : execTxpConfigWrite n off v s = .next next) :
    next.dev.pwr = s.dev.pwr := by
  refine main_keeps (fun e => .of ?_) h
  repeat' first
    | with_reducible rfl
    | intro _
    | (with_reducible refine Kept.same ?_; (try dsimp only); with_reducible refine Kept.of ?_)
    | simp -implicitDefEqProofs only [doTxpCfg_pwr, apply_ite Dev.pwr, apply_ite Prod.fst, ite_self, id_eq]
    | rw [atCluster_pwr]
    | split
theorem execFarReadArrival_pwr (n : Fin 64) (f : Fin 4) (s : State) {next : State} (h : execFarReadArrival n f s = .next next) :
    next.dev.pwr = s.dev.pwr := by
  refine main_keeps (fun e => .of ?_) h
  simp -implicitDefEqProofs only [doFarRead_pwr]
theorem execFarWriteAck_pwr (n : Fin 64) (f : Fin 4) (s : State) {next : State} (h : execFarWriteAck n f s = .next next) :
    next.dev.pwr = s.dev.pwr := by
  refine main_keeps (fun e => .of ?_) h
  simp -implicitDefEqProofs only [doFarAck_pwr]
theorem execTxpCopyFill_pwr (n : Fin 64) (x : Fin 8) (s : State) {next : State} (h : execTxpCopyFill n x s = .next next) :
    next.dev.pwr = s.dev.pwr := by
  refine main_keeps (fun e => .of ?_) h
  simp -implicitDefEqProofs only [doCopyFill_pwr]
theorem execTxpCreditRenew_pwr (n : Fin 64) (x : Fin 8) (s : State) {next : State} (h : execTxpCreditRenew n x s = .next next) :
    next.dev.pwr = s.dev.pwr := by
  refine main_keeps (fun e => .of ?_) h
  simp -implicitDefEqProofs only [doCreditRenew_pwr]
theorem execWindowRead_pwr (fn : Fn) (n : Fin 64) (w : Fin 16) (off : Nat) (s : State) {next : State} (h : execWindowRead fn n w off s = .next next) :
    next.dev.pwr = s.dev.pwr := by
  refine main_keeps (fun e => .of ?_) h
  simp -implicitDefEqProofs only [doWindowRead_pwr]
theorem execWindowWrite_pwr (fn : Fn) (n : Fin 64) (w : Fin 16) (off : Nat) (v : W32) (s : State) {next : State} (h : execWindowWrite fn n w off v s = .next next) :
    next.dev.pwr = s.dev.pwr := by
  refine main_keeps (fun e => .of ?_) h
  simp -implicitDefEqProofs only [doWindowWrite_pwr]
theorem execWindowReadTimeout_pwr (fn : Fn) (n : Fin 64) (w : Fin 16) (off : Nat) (s : State) {next : State} (h : execWindowReadTimeout fn n w off s = .next next) :
    next.dev.pwr = s.dev.pwr := by
  refine main_keeps (fun e => .of ?_) h
  simp -implicitDefEqProofs only [doWindowTimeout_pwr]
theorem execFreezeSettled_pwr (p : Fin 16) (s : State) {next : State} (h : execFreezeSettled p s = .next next) :
    next.dev.pwr = s.dev.pwr := by
  refine main_keeps (fun e => .of ?_) h
  simp -implicitDefEqProofs only [doFreezeSettled_pwr, p_pwr]
theorem execSnapSave_pwr (p : Fin 16) (s : State) {next : State} (h : execSnapSave p s = .next next) :
    next.dev.pwr = s.dev.pwr := by
  refine main_keeps (fun e => .of ?_) h
  repeat' first
    | with_reducible rfl
    | intro _
    | (with_reducible refine Kept.same ?_; (try dsimp only); with_reducible refine Kept.of ?_)
    | simp -implicitDefEqProofs only [doSnapSave_pwr, p_pwr, apply_ite Dev.pwr, apply_ite Prod.fst, ite_self, id_eq]
    | rw [atPtn_pwr]
    | split
theorem execSnapSaveComplete_pwr (p : Fin 16) (s : State) {next : State} (h : execSnapSaveComplete p s = .next next) :
    next.dev.pwr = s.dev.pwr := by
  refine main_keeps (fun e => .of ?_) h
  simp -implicitDefEqProofs only [doSnapSaveComplete_pwr, p_pwr]
theorem execSnapRestore_pwr (p : Fin 16) (s : State) {next : State} (h : execSnapRestore p s = .next next) :
    next.dev.pwr = s.dev.pwr := by
  refine main_keeps (fun e => .of ?_) h
  repeat' first
    | with_reducible rfl
    | intro _
    | (with_reducible refine Kept.same ?_; (try dsimp only); with_reducible refine Kept.of ?_)
    | simp -implicitDefEqProofs only [doSnapRestore_pwr, p_pwr, apply_ite Dev.pwr, apply_ite Prod.fst, ite_self, id_eq]
    | rw [atPtn_pwr]
    | split
theorem execSnapCheckComplete_pwr (p : Fin 16) (s : State) {next : State} (h : execSnapCheckComplete p s = .next next) :
    next.dev.pwr = s.dev.pwr := by
  refine main_keeps (fun e => .of ?_) h
  simp -implicitDefEqProofs only [doSnapCheckComplete_pwr, p_pwr]
theorem execSnapRestoreComplete_pwr (p : Fin 16) (s : State) {next : State} (h : execSnapRestoreComplete p s = .next next) :
    next.dev.pwr = s.dev.pwr := by
  refine main_keeps (fun e => .of ?_) h
  simp -implicitDefEqProofs only [doSnapRestoreComplete_pwr, p_pwr]
theorem execSnapAbort_pwr (p : Fin 16) (s : State) {next : State} (h : execSnapAbort p s = .next next) :
    next.dev.pwr = s.dev.pwr := by
  refine main_keeps (fun e => .of ?_) h
  repeat' first
    | with_reducible rfl
    | intro _
    | (with_reducible refine Kept.same ?_; (try dsimp only); with_reducible refine Kept.of ?_)
    | simp -implicitDefEqProofs only [doSnapAbort_pwr, p_pwr, apply_ite Dev.pwr, apply_ite Prod.fst, ite_self, id_eq]
    | rw [atPtn_pwr]
    | split
theorem execDoorbellAppend_pwr (fn : Fn) (slot : Fin 8192) (fin fence : Bool) (w : W64) (s : State) {next : State} (h : execDoorbellAppend fn slot fin fence w s = .next next) :
    next.dev.pwr = s.dev.pwr := by
  refine main_keeps (fun e => .of ?_) h
  simp -implicitDefEqProofs only [doDoorbell_pwr]
theorem execDoorbellAppendMulti_pwr (fn : Fn) (slot : Fin 8192) (ws : Words) (s : State) {next : State} (h : execDoorbellAppendMulti fn slot ws s = .next next) :
    next.dev.pwr = s.dev.pwr := by
  refine main_keeps (fun e => .of ?_) h
  simp -implicitDefEqProofs only [doDoorbellMulti_pwr]
theorem execPop_pwr (fn : Fn) (slot : Fin 8192) (s : State) {next : State} (h : execPop fn slot s = .next next) :
    next.dev.pwr = s.dev.pwr := by
  refine main_keeps (fun e => .of ?_) h
  simp -implicitDefEqProofs only [doPop_pwr]
theorem execPopWaitExpire_pwr (fn : Fn) (slot : Fin 8192) (s : State) {next : State} (h : execPopWaitExpire fn slot s = .next next) :
    next.dev.pwr = s.dev.pwr := by
  refine main_keeps (fun e => .of ?_) h
  simp -implicitDefEqProofs only [doPopWaitExpire_pwr]
theorem execBar4AccessError_pwr (fn : Fn) (off : Nat) (write : Bool) (s : State) {next : State} (h : execBar4AccessError fn off write s = .next next) :
    next.dev.pwr = s.dev.pwr := by
  refine main_keeps (fun e => .of ?_) h
  simp -implicitDefEqProofs only [doBar4Error_pwr]
theorem execQwrHoldExpire_pwr (q : Fin 8192) (s : State) {next : State} (h : execQwrHoldExpire q s = .next next) :
    next.dev.pwr = s.dev.pwr := by
  refine main_keeps (fun e => .of ?_) h
  simp -implicitDefEqProofs only [doQwrExpire_pwr]
theorem execQrdHoldExpire_pwr (q : Fin 8192) (s : State) {next : State} (h : execQrdHoldExpire q s = .next next) :
    next.dev.pwr = s.dev.pwr := by
  refine main_keeps (fun e => .of ?_) h
  simp -implicitDefEqProofs only [doQrdExpire_pwr]
theorem execFlush_pwr (fn : Fn) (q : Fin 8192) (s : State) {next : State} (h : execFlush fn q s = .next next) :
    next.dev.pwr = s.dev.pwr := by
  refine main_keeps (fun e => .of ?_) h
  repeat' first
    | with_reducible rfl
    | intro _
    | (with_reducible refine Kept.same ?_; (try dsimp only); with_reducible refine Kept.of ?_)
    | simp -implicitDefEqProofs only [queueCmd_pwr, apply_ite Dev.pwr, apply_ite Prod.fst, ite_self, id_eq]
    | rw [atQueue_pwr]
    | split
theorem execDropHead_pwr (fn : Fn) (q : Fin 8192) (s : State) {next : State} (h : execDropHead fn q s = .next next) :
    next.dev.pwr = s.dev.pwr := by
  refine main_keeps (fun e => .of ?_) h
  repeat' first
    | with_reducible rfl
    | intro _
    | (with_reducible refine Kept.same ?_; (try dsimp only); with_reducible refine Kept.of ?_)
    | simp -implicitDefEqProofs only [queueCmd_pwr, apply_ite Dev.pwr, apply_ite Prod.fst, ite_self, id_eq]
    | rw [atQueue_pwr]
    | split
theorem execClrHwm_pwr (fn : Fn) (q : Fin 8192) (s : State) {next : State} (h : execClrHwm fn q s = .next next) :
    next.dev.pwr = s.dev.pwr := by
  refine main_keeps (fun e => .of ?_) h
  repeat' first
    | with_reducible rfl
    | intro _
    | (with_reducible refine Kept.same ?_; (try dsimp only); with_reducible refine Kept.of ?_)
    | simp -implicitDefEqProofs only [queueCmd_pwr, apply_ite Dev.pwr, apply_ite Prod.fst, ite_self, id_eq]
    | rw [atQueue_pwr]
    | split
theorem execQueueEnable_pwr (fn : Fn) (q : Fin 8192) (s : State) {next : State} (h : execQueueEnable fn q s = .next next) :
    next.dev.pwr = s.dev.pwr := by
  refine main_keeps (fun e => .of ?_) h
  repeat' first
    | with_reducible rfl
    | intro _
    | (with_reducible refine Kept.same ?_; (try dsimp only); with_reducible refine Kept.of ?_)
    | simp -implicitDefEqProofs only [setQueueEn_pwr, apply_ite Dev.pwr, apply_ite Prod.fst, ite_self, id_eq]
    | rw [atQueue_pwr]
    | split
theorem execQueueDisable_pwr (fn : Fn) (q : Fin 8192) (s : State) {next : State} (h : execQueueDisable fn q s = .next next) :
    next.dev.pwr = s.dev.pwr := by
  refine main_keeps (fun e => .of ?_) h
  repeat' first
    | with_reducible rfl
    | intro _
    | (with_reducible refine Kept.same ?_; (try dsimp only); with_reducible refine Kept.of ?_)
    | simp -implicitDefEqProofs only [setQueueEn_pwr, apply_ite Dev.pwr, apply_ite Prod.fst, ite_self, id_eq]
    | rw [atQueue_pwr]
    | split
theorem execSubmit_pwr (fn : Fn) (s : State) {next : State} (h : execSubmit fn s = .next next) :
    next.dev.pwr = s.dev.pwr := by
  refine main_keeps (fun e => .of ?_) h
  simp -implicitDefEqProofs only [doSubmit_pwr]
theorem execSubmitHoldExpire_pwr (list : Fin 17) (s : State) {next : State} (h : execSubmitHoldExpire list s = .next next) :
    next.dev.pwr = s.dev.pwr := by
  refine main_keeps (fun e => .of ?_) h
  simp -implicitDefEqProofs only [doSubmitExpire_pwr]
theorem execCourierDispatch_pwr (c : Fin 32) (data : List Byte) (s : State) {next : State} (h : execCourierDispatch c data s = .next next) :
    next.dev.pwr = s.dev.pwr := by
  refine main_keeps (fun e => .of ?_) h
  simp -implicitDefEqProofs only [doDispatch_pwr]
theorem execWorkItemComplete_pwr (c : Fin 32) (s : State) {next : State} (h : execWorkItemComplete c s = .next next) :
    next.dev.pwr = s.dev.pwr := by
  refine main_keeps (fun e => .of ?_) h
  simp -implicitDefEqProofs only [doItemComplete_pwr]
theorem execCourierWaitLimit_pwr (c : Fin 32) (s : State) {next : State} (h : execCourierWaitLimit c s = .next next) :
    next.dev.pwr = s.dev.pwr := by
  refine main_keeps (fun e => .of ?_) h
  simp -implicitDefEqProofs only [doWaitLimit_pwr]
theorem execDspClr_pwr (s : State) {next : State} (h : execDspClr s = .next next) :
    next.dev.pwr = s.dev.pwr := by
  refine main_keeps (fun e => .of ?_) h
  repeat' first
    | with_reducible rfl
    | simp -implicitDefEqProofs only [doDspClr_pwr, apply_ite Dev.pwr, apply_ite Prod.fst, ite_self, id_eq]
    | split
theorem execLogClear_pwr (s : State) {next : State} (h : execLogClear s = .next next) :
    next.dev.pwr = s.dev.pwr := by
  refine main_keeps (fun e => .of ?_) h
  simp -implicitDefEqProofs only [doLogClear_pwr]
theorem execLastGaspClear_pwr (s : State) {next : State} (h : execLastGaspClear s = .next next) :
    next.dev.pwr = s.dev.pwr := by
  refine main_keeps (fun e => .of ?_) h
  simp -implicitDefEqProofs only [doLastGaspClear_pwr]
theorem execClearAll_pwr (s : State) {next : State} (h : execClearAll s = .next next) :
    next.dev.pwr = s.dev.pwr := by
  refine main_keeps (fun e => .of ?_) h
  repeat' first
    | with_reducible rfl
    | simp -implicitDefEqProofs only [doClearAll_pwr, apply_ite Dev.pwr, apply_ite Prod.fst, ite_self, id_eq]
    | split
theorem execCounterSaturate_pwr (base : Nat) (i : Fin 64) (s : State) {next : State} (h : execCounterSaturate base i s = .next next) :
    next.dev.pwr = s.dev.pwr := by
  refine main_keeps (fun e => .of ?_) h
  simp -implicitDefEqProofs only [doCounterSaturate_pwr]
theorem execRoll_pwr (s : State) {next : State} (h : execRoll s = .next next) :
    next.dev.pwr = s.dev.pwr := by
  refine main_keeps (fun e => .of ?_) h
  repeat' first
    | with_reducible rfl
    | simp -implicitDefEqProofs only [doRoll_pwr, apply_ite Dev.pwr, apply_ite Prod.fst, ite_self, id_eq]
    | split
theorem execKeyRollStart_pwr (s : State) {next : State} (h : execKeyRollStart s = .next next) :
    next.dev.pwr = s.dev.pwr := by
  refine main_keeps (fun e => .of ?_) h
  simp -implicitDefEqProofs only [doKeyRollStart_pwr]
theorem execKeyRollSector_pwr (s : State) {next : State} (h : execKeyRollSector s = .next next) :
    next.dev.pwr = s.dev.pwr := by
  refine main_keeps (fun e => .of ?_) h
  simp -implicitDefEqProofs only [doKeyRollSector_pwr]
theorem execImeClrCounts_pwr (s : State) {next : State} (h : execImeClrCounts s = .next next) :
    next.dev.pwr = s.dev.pwr := by
  refine main_keeps (fun e => .of ?_) h
  repeat' first
    | with_reducible rfl
    | simp -implicitDefEqProofs only [doImeClrCounts_pwr, apply_ite Dev.pwr, apply_ite Prod.fst, ite_self, id_eq]
    | split
theorem execSysFreeze_pwr (s : State) {next : State} (h : execSysFreeze s = .next next) :
    next.dev.pwr = s.dev.pwr := by
  refine main_keeps (fun e => .of ?_) h
  repeat' first
    | with_reducible rfl
    | simp -implicitDefEqProofs only [doSysFreeze_pwr, apply_ite Dev.pwr, apply_ite Prod.fst, ite_self, id_eq]
    | split
theorem execStrobe_pwr (s : State) {next : State} (h : execStrobe s = .next next) :
    next.dev.pwr = s.dev.pwr := by
  refine main_keeps (fun e => .of ?_) h
  repeat' first
    | with_reducible rfl
    | simp -implicitDefEqProofs only [doStrobe_pwr, apply_ite Dev.pwr, apply_ite Prod.fst, ite_self, id_eq]
    | split
theorem execCaptureArm_pwr (c : Fin 17) (s : State) {next : State} (h : execCaptureArm c s = .next next) :
    next.dev.pwr = s.dev.pwr := by
  refine main_keeps (fun e => .of ?_) h
  repeat' first
    | with_reducible rfl
    | simp -implicitDefEqProofs only [doCaptureArm_pwr, apply_ite Dev.pwr, apply_ite Prod.fst, ite_self, id_eq]
    | split
theorem execCaptureDisarm_pwr (c : Fin 17) (s : State) {next : State} (h : execCaptureDisarm c s = .next next) :
    next.dev.pwr = s.dev.pwr := by
  refine main_keeps (fun e => .of ?_) h
  repeat' first
    | with_reducible rfl
    | simp -implicitDefEqProofs only [doCaptureDisarm_pwr, apply_ite Dev.pwr, apply_ite Prod.fst, ite_self, id_eq]
    | split
theorem execCaptureBlockWrite_pwr (ch : Fin 64) (addr : Nat) (s : State) {next : State} (h : execCaptureBlockWrite ch addr s = .next next) :
    next.dev.pwr = s.dev.pwr := by
  refine main_keeps (fun e => .of ?_) h
  simp -implicitDefEqProofs only [doCaptureBlockWrite_pwr]
theorem execPostLimitExpire_pwr (ch : Fin 64) (s : State) {next : State} (h : execPostLimitExpire ch s = .next next) :
    next.dev.pwr = s.dev.pwr := by
  refine main_keeps (fun e => .of ?_) h
  simp -implicitDefEqProofs only [doPostLimitExpire_pwr]
theorem execRearmExpire_pwr (c : Fin 17) (s : State) {next : State} (h : execRearmExpire c s = .next next) :
    next.dev.pwr = s.dev.pwr := by
  refine main_keeps (fun e => .of ?_) h
  simp -implicitDefEqProofs only [doRearmExpire_pwr]
theorem execChannelOwnerWrite_pwr (ch : Fin 64) (owner : Fin 32) (s : State) {next : State} (h : execChannelOwnerWrite ch owner s = .next next) :
    next.dev.pwr = s.dev.pwr := by
  refine main_keeps (fun e => .of ?_) h
  repeat' first
    | with_reducible rfl
    | simp -implicitDefEqProofs only [doChannelOwnerWrite_pwr, apply_ite Dev.pwr, apply_ite Prod.fst, ite_self, id_eq]
    | split
theorem execZeroingComplete_pwr (ch : Fin 64) (s : State) {next : State} (h : execZeroingComplete ch s = .next next) :
    next.dev.pwr = s.dev.pwr := by
  refine main_keeps (fun e => .of ?_) h
  simp -implicitDefEqProofs only [doZeroingComplete_pwr]
theorem execPinwheelConfigWrite_pwr (size : Bool) (v : W64) (s : State) {next : State} (h : execPinwheelConfigWrite size v s = .next next) :
    next.dev.pwr = s.dev.pwr := by
  refine main_keeps (fun e => .of ?_) h
  repeat' first
    | with_reducible rfl
    | simp -implicitDefEqProofs only [doPinwheelConfigWrite_pwr, apply_ite Dev.pwr, apply_ite Prod.fst, ite_self, id_eq]
    | split
theorem execPtnCreate_pwr (tag : Byte) (p : Fin 16) (bindVf : Bool) (mask shape : W64) (quotaMiB : W32) (s : State) {next : State} (h : execPtnCreate tag p bindVf mask shape quotaMiB s = .next next) :
    next.dev.pwr = s.dev.pwr := by
  refine main_keeps (fun e => .of ?_) h
  repeat' first
    | with_reducible rfl
    | intro _
    | (with_reducible refine Kept.same ?_; (try dsimp only); with_reducible refine Kept.of ?_)
    | simp -implicitDefEqProofs only [doPtnCreate_pwr, p_pwr, apply_ite Dev.pwr, apply_ite Prod.fst, ite_self, id_eq]
    | rw [serving_pwr]
    | split
theorem execPtnDestroy_pwr (tag : Byte) (p : Fin 16) (s : State) {next : State} (h : execPtnDestroy tag p s = .next next) :
    next.dev.pwr = s.dev.pwr := by
  refine main_keeps (fun e => .of ?_) h
  repeat' first
    | with_reducible rfl
    | intro _
    | (with_reducible refine Kept.same ?_; (try dsimp only); with_reducible refine Kept.of ?_)
    | simp -implicitDefEqProofs only [doPtnDestroy_pwr, p_pwr, apply_ite Dev.pwr, apply_ite Prod.fst, ite_self, id_eq]
    | rw [serving_pwr]
    | split
theorem execPtnCloseComplete_pwr (p : Fin 16) (s : State) {next : State} (h : execPtnCloseComplete p s = .next next) :
    next.dev.pwr = s.dev.pwr := by
  refine main_keeps (fun e => .of ?_) h
  simp -implicitDefEqProofs only [doPtnClose_pwr, p_pwr]
theorem execPtnResize_pwr (tag : Byte) (p : Fin 16) (retarget : Bool) (mask shape : W64) (s : State) {next : State} (h : execPtnResize tag p retarget mask shape s = .next next) :
    next.dev.pwr = s.dev.pwr := by
  refine main_keeps (fun e => .of ?_) h
  repeat' first
    | with_reducible rfl
    | intro _
    | (with_reducible refine Kept.same ?_; (try dsimp only); with_reducible refine Kept.of ?_)
    | simp -implicitDefEqProofs only [doPtnResize_pwr, p_pwr, apply_ite Dev.pwr, apply_ite Prod.fst, ite_self, id_eq]
    | rw [serving_pwr]
    | split
theorem execPtnResizeComplete_pwr (p : Fin 16) (s : State) {next : State} (h : execPtnResizeComplete p s = .next next) :
    next.dev.pwr = s.dev.pwr := by
  refine main_keeps (fun e => .of ?_) h
  simp -implicitDefEqProofs only [doPtnResizeComplete_pwr, p_pwr]
theorem execPtnQuery_pwr (tag : Byte) (p : Fin 16) (s : State) {next : State} (h : execPtnQuery tag p s = .next next) :
    next.dev.pwr = s.dev.pwr := by
  refine main_keeps (fun e => .of ?_) h
  repeat' first
    | with_reducible rfl
    | intro _
    | (with_reducible refine Kept.same ?_; (try dsimp only); with_reducible refine Kept.of ?_)
    | simp -implicitDefEqProofs only [doPtnQuery_pwr, p_pwr, apply_ite Dev.pwr, apply_ite Prod.fst, ite_self, id_eq]
    | rw [serving_pwr]
    | split
theorem execPing_pwr (tag : Byte) (arg : W32) (s : State) {next : State} (h : execPing tag arg s = .next next) :
    next.dev.pwr = s.dev.pwr := by
  refine main_keeps (fun e => .of ?_) h
  repeat' first
    | with_reducible rfl
    | intro _
    | (with_reducible refine Kept.same ?_; (try dsimp only); with_reducible refine Kept.of ?_)
    | simp -implicitDefEqProofs only [doPing_pwr, apply_ite Dev.pwr, apply_ite Prod.fst, ite_self, id_eq]
    | rw [serving_pwr]
    | split
theorem execBeaconSend_pwr (s : State) {next : State} (h : execBeaconSend s = .next next) :
    next.dev.pwr = s.dev.pwr := by
  refine main_keeps (fun e => .of ?_) h
  simp -implicitDefEqProofs only [doBeaconSend_pwr]
theorem execBeacon_pwr (g : Fin 16) (ns : W64) (frac : BitVec 16) (hops : Nat) (master : Fin 512) (intact : Bool) (s : State) {next : State} (h : execBeacon g ns frac hops master intact s = .next next) :
    next.dev.pwr = s.dev.pwr := by
  refine main_keeps (fun e => .of ?_) h
  simp -implicitDefEqProofs only [doBeacon_pwr]
theorem execBeaconTimeout_pwr (s : State) {next : State} (h : execBeaconTimeout s = .next next) :
    next.dev.pwr = s.dev.pwr := by
  refine main_keeps (fun e => .of ?_) h
  simp -implicitDefEqProofs only [doBeaconTimeout_pwr]
theorem execTsbHoldEnd_pwr (s : State) {next : State} (h : execTsbHoldEnd s = .next next) :
    next.dev.pwr = s.dev.pwr := by
  refine main_keeps (fun e => .of ?_) h
  simp -implicitDefEqProofs only [doHoldEnd_pwr]
theorem execTsbSet_pwr (v : W64) (s : State) {next : State} (h : execTsbSet v s = .next next) :
    next.dev.pwr = s.dev.pwr := by
  refine main_keeps (fun e => .of ?_) h
  repeat' first
    | with_reducible rfl
    | simp -implicitDefEqProofs only [doTsbSet_pwr, apply_ite Dev.pwr, apply_ite Prod.fst, ite_self, id_eq]
    | split
theorem execBootGo_pwr (s : State) {next : State} (h : execBootGo s = .next next) :
    next.dev.pwr = s.dev.pwr := by
  refine main_keeps (fun e => .of ?_) h
  repeat' first
    | with_reducible rfl
    | intro _
    | (with_reducible refine Kept.same ?_; (try dsimp only); with_reducible refine Kept.of ?_)
    | simp -implicitDefEqProofs only [doBootGo_pwr, apply_ite Dev.pwr, apply_ite Prod.fst, ite_self, id_eq]
    | rw [atPage_pwr]
    | split
theorem execBootAbort_pwr (s : State) {next : State} (h : execBootAbort s = .next next) :
    next.dev.pwr = s.dev.pwr := by
  refine main_keeps (fun e => .of ?_) h
  repeat' first
    | with_reducible rfl
    | intro _
    | (with_reducible refine Kept.same ?_; (try dsimp only); with_reducible refine Kept.of ?_)
    | simp -implicitDefEqProofs only [doBootAbort_pwr, apply_ite Dev.pwr, apply_ite Prod.fst, ite_self, id_eq]
    | rw [atPage_pwr]
    | split
theorem execBundleFetchComplete_pwr (data : Option (List Byte)) (s : State) {next : State} (h : execBundleFetchComplete data s = .next next) :
    next.dev.pwr = s.dev.pwr := by
  refine main_keeps (fun e => .of ?_) h
  simp -implicitDefEqProofs only [doFetchDone_pwr]
theorem execBundleVerifyComplete_pwr (s : State) {next : State} (h : execBundleVerifyComplete s = .next next) :
    next.dev.pwr = s.dev.pwr := by
  refine main_keeps (fun e => .of ?_) h
  simp -implicitDefEqProofs only [doVerifyDone_pwr]
theorem execStageReady_pwr (s : State) {next : State} (h : execStageReady s = .next next) :
    next.dev.pwr = s.dev.pwr := by
  refine main_keeps (fun e => .of ?_) h
  simp -implicitDefEqProofs only [doStageReady_pwr]
theorem execConfirm_pwr (s : State) {next : State} (h : execConfirm s = .next next) :
    next.dev.pwr = s.dev.pwr := by
  refine main_keeps (fun e => .of ?_) h
  repeat' first
    | with_reducible rfl
    | intro _
    | (with_reducible refine Kept.same ?_; (try dsimp only); with_reducible refine Kept.of ?_)
    | simp -implicitDefEqProofs only [doConfirm_pwr, apply_ite Dev.pwr, apply_ite Prod.fst, ite_self, id_eq]
    | rw [atPage_pwr]
    | split
theorem execBurnComplete_pwr (fault : Bool) (s : State) {next : State} (h : execBurnComplete fault s = .next next) :
    next.dev.pwr = s.dev.pwr := by
  refine main_keeps (fun e => .of ?_) h
  simp -implicitDefEqProofs only [doBurnDone_pwr]
theorem execOwnerProvision_pwr (tag : Byte) (hash : Words) (s : State) {next : State} (h : execOwnerProvision tag hash s = .next next) :
    next.dev.pwr = s.dev.pwr := by
  refine main_keeps (fun e => .of ?_) h
  repeat' first
    | with_reducible rfl
    | intro _
    | (with_reducible refine Kept.same ?_; (try dsimp only); with_reducible refine Kept.of ?_)
    | simp -implicitDefEqProofs only [doOwnerProvision_pwr, apply_ite Dev.pwr, apply_ite Prod.fst, ite_self, id_eq]
    | rw [serving_pwr]
    | split
theorem execOwnerBurnComplete_pwr (fault : Bool) (s : State) {next : State} (h : execOwnerBurnComplete fault s = .next next) :
    next.dev.pwr = s.dev.pwr := by
  refine main_keeps (fun e => .of ?_) h
  simp -implicitDefEqProofs only [doOwnerBurnDone_pwr]
theorem execTokenPresent_pwr (tag : Byte) (token : Words) (s : State) {next : State} (h : execTokenPresent tag token s = .next next) :
    next.dev.pwr = s.dev.pwr := by
  refine main_keeps (fun e => .of ?_) h
  repeat' first
    | with_reducible rfl
    | intro _
    | (with_reducible refine Kept.same ?_; (try dsimp only); with_reducible refine Kept.of ?_)
    | simp -implicitDefEqProofs only [doTokenPresent_pwr, apply_ite Dev.pwr, apply_ite Prod.fst, ite_self, id_eq]
    | rw [serving_pwr]
    | split
theorem execServiceBadCommand_pwr (hdr : W64) (s : State) {next : State} (h : execServiceBadCommand hdr s = .next next) :
    next.dev.pwr = s.dev.pwr := by
  refine main_keeps (fun e => .of ?_) h
  repeat' first
    | with_reducible rfl
    | intro _
    | (with_reducible refine Kept.same ?_; (try dsimp only); with_reducible refine Kept.of ?_)
    | simp -implicitDefEqProofs only [doBadCommand_pwr, apply_ite Dev.pwr, apply_ite Prod.fst, ite_self, id_eq]
    | rw [serving_pwr]
    | split
theorem execLoadGo_pwr (p : Fin 16) (s : State) {next : State} (h : execLoadGo p s = .next next) :
    next.dev.pwr = s.dev.pwr := by
  refine main_keeps (fun e => .of ?_) h
  repeat' first
    | with_reducible rfl
    | intro _
    | (with_reducible refine Kept.same ?_; (try dsimp only); with_reducible refine Kept.of ?_)
    | simp -implicitDefEqProofs only [doLoadGo_pwr, p_pwr, apply_ite Dev.pwr, apply_ite Prod.fst, ite_self, id_eq]
    | rw [atPtn_pwr]
    | split
theorem execLoadAbort_pwr (p : Fin 16) (s : State) {next : State} (h : execLoadAbort p s = .next next) :
    next.dev.pwr = s.dev.pwr := by
  refine main_keeps (fun e => .of ?_) h
  repeat' first
    | with_reducible rfl
    | intro _
    | (with_reducible refine Kept.same ?_; (try dsimp only); with_reducible refine Kept.of ?_)
    | simp -implicitDefEqProofs only [doLoadAbort_pwr, p_pwr, apply_ite Dev.pwr, apply_ite Prod.fst, ite_self, id_eq]
    | rw [atPtn_pwr]
    | split
theorem execLoadReplay_pwr (p : Fin 16) (s : State) {next : State} (h : execLoadReplay p s = .next next) :
    next.dev.pwr = s.dev.pwr := by
  refine main_keeps (fun e => .of ?_) h
  repeat' first
    | with_reducible rfl
    | intro _
    | (with_reducible refine Kept.same ?_; (try dsimp only); with_reducible refine Kept.of ?_)
    | simp -implicitDefEqProofs only [doLoadReplay_pwr, p_pwr, apply_ite Dev.pwr, apply_ite Prod.fst, ite_self, id_eq]
    | rw [atPtn_pwr]
    | split
theorem execFrame_pwr (p : Fin 16) (data : Option (List Byte)) (s : State) {next : State} (h : execFrame p data s = .next next) :
    next.dev.pwr = s.dev.pwr := by
  refine main_keeps (fun e => .of ?_) h
  simp -implicitDefEqProofs only [doFrame_pwr, p_pwr]
theorem execScrubWalkRead_pwr (n : Fin 64) (w : WordLoc) (s : State) {next : State} (h : execScrubWalkRead n w s = .next next) :
    next.dev.pwr = s.dev.pwr := by
  refine main_keeps (fun e => .of ?_) h
  simp -implicitDefEqProofs only [doWalkRead_pwr]
theorem execScrubPassRequest_pwr (p : Fin 16) (s : State) {next : State} (h : execScrubPassRequest p s = .next next) :
    next.dev.pwr = s.dev.pwr := by
  refine main_keeps (fun e => .of ?_) h
  repeat' first
    | with_reducible rfl
    | simp -implicitDefEqProofs only [doPassRequest_pwr, p_pwr, apply_ite Dev.pwr, apply_ite Prod.fst, ite_self, id_eq]
    | split
theorem execScrubPassStart_pwr (s : State) {next : State} (h : execScrubPassStart s = .next next) :
    next.dev.pwr = s.dev.pwr := by
  refine main_keeps (fun e => .of ?_) h
  simp -implicitDefEqProofs only [doPassStart_pwr]
theorem execScrubPassComplete_pwr (s : State) {next : State} (h : execScrubPassComplete s = .next next) :
    next.dev.pwr = s.dev.pwr := by
  refine main_keeps (fun e => .of ?_) h
  simp -implicitDefEqProofs only [doPassComplete_pwr]
theorem execUpset_pwr (n : Fin 64) (w : WordLoc) (fetch : Bool) (s : State) {next : State} (h : execUpset n w fetch s = .next next) :
    next.dev.pwr = s.dev.pwr := by
  refine main_keeps (fun e => .of ?_) h
  simp -implicitDefEqProofs only [doUpset_pwr]
theorem execUpsetRewrite_pwr (n : Fin 64) (w : WordLoc) (s : State) {next : State} (h : execUpsetRewrite n w s = .next next) :
    next.dev.pwr = s.dev.pwr := by
  refine main_keeps (fun e => .of ?_) h
  simp -implicitDefEqProofs only [doUpsetRewrite_pwr]
theorem execLaneGroupEnable_pwr (g : Fin 16) (s : State) {next : State} (h : execLaneGroupEnable g s = .next next) :
    next.dev.pwr = s.dev.pwr := by
  refine main_keeps (fun e => .of ?_) h
  repeat' first
    | with_reducible rfl
    | intro _
    | (with_reducible refine Kept.same ?_; (try dsimp only); with_reducible refine Kept.of ?_)
    | simp -implicitDefEqProofs only [doLaneEnable_pwr, apply_ite Dev.pwr, apply_ite Prod.fst, ite_self, id_eq]
    | rw [atPage_pwr]
    | split
theorem execLaneGroupDisable_pwr (g : Fin 16) (s : State) {next : State} (h : execLaneGroupDisable g s = .next next) :
    next.dev.pwr = s.dev.pwr := by
  refine main_keeps (fun e => .of ?_) h
  repeat' first
    | with_reducible rfl
    | intro _
    | (with_reducible refine Kept.same ?_; (try dsimp only); with_reducible refine Kept.of ?_)
    | simp -implicitDefEqProofs only [doLaneDisable_pwr, apply_ite Dev.pwr, apply_ite Prod.fst, ite_self, id_eq]
    | rw [atPage_pwr]
    | split
theorem execLaneTestRequest_pwr (g : Fin 16) (s : State) {next : State} (h : execLaneTestRequest g s = .next next) :
    next.dev.pwr = s.dev.pwr := by
  refine main_keeps (fun e => .of ?_) h
  repeat' first
    | with_reducible rfl
    | intro _
    | (with_reducible refine Kept.same ?_; (try dsimp only); with_reducible refine Kept.of ?_)
    | simp -implicitDefEqProofs only [doLaneTest_pwr, apply_ite Dev.pwr, apply_ite Prod.fst, ite_self, id_eq]
    | rw [atPage_pwr]
    | split
theorem execMarkerSend_pwr (g : Fin 16) (s : State) {next : State} (h : execMarkerSend g s = .next next) :
    next.dev.pwr = s.dev.pwr := by
  refine main_keeps (fun e => .of ?_) h
  simp -implicitDefEqProofs only [doMarkerSend_pwr]
theorem execMarker_pwr (g : Fin 16) (l : Fin 8) (bits : BitVec 320) (ui : Nat) (s : State) {next : State} (h : execMarker g l bits ui s = .next next) :
    next.dev.pwr = s.dev.pwr := by
  refine main_keeps (fun e => .of ?_) h
  simp -implicitDefEqProofs only [doMarker_pwr]
theorem execAcqTimeout_pwr (g : Fin 16) (s : State) {next : State} (h : execAcqTimeout g s = .next next) :
    next.dev.pwr = s.dev.pwr := by
  refine main_keeps (fun e => .of ?_) h
  simp -implicitDefEqProofs only [doAcqTimeout_pwr]
theorem execLaneLoss_pwr (g : Fin 16) (l : Fin 8) (s : State) {next : State} (h : execLaneLoss g l s = .next next) :
    next.dev.pwr = s.dev.pwr := by
  refine main_keeps (fun e => .of ?_) h
  simp -implicitDefEqProofs only [loseLane_pwr]
theorem execCodeword_pwr (g : Fin 16) (l : Fin 8) (data check : List (Fin 1024)) (s : State) {next : State} (h : execCodeword g l data check s = .next next) :
    next.dev.pwr = s.dev.pwr := by
  refine main_keeps (fun e => .of ?_) h
  simp -implicitDefEqProofs only [doCodeword_pwr]
theorem execSlotFrame_pwr (g : Fin 16) (k : Nat) (fields : SlotBits) (s : State) {next : State} (h : execSlotFrame g k fields s = .next next) :
    next.dev.pwr = s.dev.pwr := by
  refine main_keeps (fun e => .of ?_) h
  simp -implicitDefEqProofs only [doSlotFrame_pwr]
theorem execLinkFlit_pwr (g : Fin 16) (bits : BitVec 320) (bad : Bool) (s : State) {next : State} (h : execLinkFlit g bits bad s = .next next) :
    next.dev.pwr = s.dev.pwr := by
  refine main_keeps (fun e => .of ?_) h
  simp -implicitDefEqProofs only [doLinkFlit_pwr]
theorem execCredit_pwr (g : Fin 16) (vc : Fin 4) (count : Nat) (intact : Bool) (s : State) {next : State} (h : execCredit g vc count intact s = .next next) :
    next.dev.pwr = s.dev.pwr := by
  refine main_keeps (fun e => .of ?_) h
  simp -implicitDefEqProofs only [doCredit_pwr]
theorem execFreezeMsg_pwr (g : Fin 16) (origin : Fin 512) (n : Byte) (intact : Bool) (s : State) {next : State} (h : execFreezeMsg g origin n intact s = .next next) :
    next.dev.pwr = s.dev.pwr := by
  refine main_keeps (fun e => .of ?_) h
  simp -implicitDefEqProofs only [doFreezeMsg_pwr]
theorem execInjGo_pwr (g : Fin 16) (s : State) {next : State} (h : execInjGo g s = .next next) :
    next.dev.pwr = s.dev.pwr := by
  refine main_keeps (fun e => .of ?_) h
  repeat' first
    | with_reducible rfl
    | simp -implicitDefEqProofs only [doInjGo_pwr, apply_ite Dev.pwr, apply_ite Prod.fst, ite_self, id_eq]
    | split
theorem execLgrpClrCounts_pwr (g : Fin 16) (s : State) {next : State} (h : execLgrpClrCounts g s = .next next) :
    next.dev.pwr = s.dev.pwr := by
  refine main_keeps (fun e => .of ?_) h
  repeat' first
    | with_reducible rfl
    | simp -implicitDefEqProofs only [doLgrpClr_pwr, apply_ite Dev.pwr, apply_ite Prod.fst, ite_self, id_eq]
    | split
theorem execClrSlack_pwr (g : Fin 16) (s : State) {next : State} (h : execClrSlack g s = .next next) :
    next.dev.pwr = s.dev.pwr := by
  refine main_keeps (fun e => .of ?_) h
  repeat' first
    | with_reducible rfl
    | simp -implicitDefEqProofs only [doClrSlack_pwr, apply_ite Dev.pwr, apply_ite Prod.fst, ite_self, id_eq]
    | split
theorem execBridgeLaneEnable_pwr (g : Fin 16) (l : Fin 8) (tx rx : Bool) (s : State) {next : State} (h : execBridgeLaneEnable g l tx rx s = .next next) :
    next.dev.pwr = s.dev.pwr := by
  refine main_keeps (fun e => .of ?_) h
  repeat' first
    | with_reducible rfl
    | simp -implicitDefEqProofs only [doBridgeEnable_pwr, apply_ite Dev.pwr, apply_ite Prod.fst, ite_self, id_eq]
    | split
theorem execBridgeWordReceive_pwr (g : Fin 16) (l : Fin 8) (w : W64) (s : State) {next : State} (h : execBridgeWordReceive g l w s = .next next) :
    next.dev.pwr = s.dev.pwr := by
  refine main_keeps (fun e => .of ?_) h
  simp -implicitDefEqProofs only [doBridgeReceive_pwr]
theorem execBridgeWordTransmit_pwr (g : Fin 16) (l : Fin 8) (s : State) {next : State} (h : execBridgeWordTransmit g l s = .next next) :
    next.dev.pwr = s.dev.pwr := by
  refine main_keeps (fun e => .of ?_) h
  simp -implicitDefEqProofs only [doBridgeTransmit_pwr]
theorem execPrbsCheck_pwr (g : Fin 16) (l : Fin 8) (bits : List Bool) (s : State) {next : State} (h : execPrbsCheck g l bits s = .next next) :
    next.dev.pwr = s.dev.pwr := by
  refine main_keeps (fun e => .of ?_) h
  simp -implicitDefEqProofs only [doPrbsCheck_pwr]
theorem execLaneClockRecovered_pwr (g : Fin 16) (l : Fin 8) (s : State) {next : State} (h : execLaneClockRecovered g l s = .next next) :
    next.dev.pwr = s.dev.pwr := by
  refine main_keeps (fun e => .of ?_) h
  simp -implicitDefEqProofs only [doLaneRecovered_pwr]
theorem execPacketHop_pwr (x : Fin 8) (y : Fin 10) (ins : List (Fin 9 × Fin 4 × Flit)) (s : State) {next : State} (h : execPacketHop x y ins s = .next next) :
    next.dev.pwr = s.dev.pwr := by
  refine main_keeps (fun e => .of ?_) h
  simp -implicitDefEqProofs only [doPacketHop_pwr]
theorem execQwr_pwr (k : Packet) (s : State) {next : State} (h : execQwr k s = .next next) :
    next.dev.pwr = s.dev.pwr := by
  refine main_keeps (fun e => .of ?_) h
  repeat' first
    | with_reducible rfl
    | intro _
    | (with_reducible refine Kept.same ?_; (try dsimp only); with_reducible refine Kept.of ?_)
    | simp -implicitDefEqProofs only [doQwr_pwr, apply_ite Dev.pwr, apply_ite Prod.fst, ite_self, id_eq]
    | rw [request_pwr]
    | rw [serveQueue_pwr]
    | split
theorem execQrd_pwr (k : Packet) (s : State) {next : State} (h : execQrd k s = .next next) :
    next.dev.pwr = s.dev.pwr := by
  refine main_keeps (fun e => .of ?_) h
  repeat' first
    | with_reducible rfl
    | intro _
    | (with_reducible refine Kept.same ?_; (try dsimp only); with_reducible refine Kept.of ?_)
    | simp -implicitDefEqProofs only [doQrd_pwr, apply_ite Dev.pwr, apply_ite Prod.fst, ite_self, id_eq]
    | rw [request_pwr]
    | rw [serveQueue_pwr]
    | split
theorem execCapWr_pwr (k : Packet) (s : State) {next : State} (h : execCapWr k s = .next next) :
    next.dev.pwr = s.dev.pwr := by
  refine main_keeps (fun e => .of ?_) h
  simp -implicitDefEqProofs only [doCapWr_pwr]
theorem execTrcWr_pwr (k : Packet) (s : State) {next : State} (h : execTrcWr k s = .next next) :
    next.dev.pwr = s.dev.pwr := by
  refine main_keeps (fun e => .of ?_) h
  simp -implicitDefEqProofs only [doTrcWr_pwr]
theorem execRspData_pwr (k : Packet) (s : State) {next : State} (h : execRspData k s = .next next) :
    next.dev.pwr = s.dev.pwr := by
  refine main_keeps (fun e => .of ?_) h
  simp -implicitDefEqProofs only [doResponse_pwr]
theorem execRspAck_pwr (k : Packet) (s : State) {next : State} (h : execRspAck k s = .next next) :
    next.dev.pwr = s.dev.pwr := by
  refine main_keeps (fun e => .of ?_) h
  simp -implicitDefEqProofs only [doResponse_pwr]
theorem execRspTimeout_pwr (src : Fin 256) (tag : Fin 4096) (s : State) {next : State} (h : execRspTimeout src tag s = .next next) :
    next.dev.pwr = s.dev.pwr := by
  refine main_keeps (fun e => .of ?_) h
  simp -implicitDefEqProofs only [doRspTimeout_pwr]
theorem execTagQuarantineEnd_pwr (src : Fin 256) (tag : Fin 4096) (s : State) {next : State} (h : execTagQuarantineEnd src tag s = .next next) :
    next.dev.pwr = s.dev.pwr := by
  refine main_keeps (fun e => .of ?_) h
  simp -implicitDefEqProofs only [doQuarantineEnd_pwr]
theorem execRouteTableWrite_pwr (port idx : Fin 256) (entry : W64) (s : State) {next : State} (h : execRouteTableWrite port idx entry s = .next next) :
    next.dev.pwr = s.dev.pwr := by
  refine main_keeps (fun e => .of ?_) h
  simp -implicitDefEqProofs only [doRouteWrite_pwr]
theorem execDrain_pwr (n : Fin 64) (s : State) {next : State} (h : execDrain n s = .next next) :
    next.dev.pwr = s.dev.pwr := by
  refine main_keeps (fun e => .of ?_) h
  simp -implicitDefEqProofs only [drainNi_pwr]
theorem execDrainComplete_pwr (n : Fin 64) (s : State) {next : State} (h : execDrainComplete n s = .next next) :
    next.dev.pwr = s.dev.pwr := by
  refine main_keeps (fun e => .of ?_) h
  simp -implicitDefEqProofs only [doDrainComplete_pwr]
theorem execDrainTimeout_pwr (n : Fin 64) (s : State) {next : State} (h : execDrainTimeout n s = .next next) :
    next.dev.pwr = s.dev.pwr := by
  refine main_keeps (fun e => .of ?_) h
  simp -implicitDefEqProofs only [doDrainTimeout_pwr]
theorem execUnfence_pwr (n : Fin 64) (s : State) {next : State} (h : execUnfence n s = .next next) :
    next.dev.pwr = s.dev.pwr := by
  refine main_keeps (fun e => .of ?_) h
  simp -implicitDefEqProofs only [doUnfence_pwr]
theorem execNocClrCounts_pwr (s : State) {next : State} (h : execNocClrCounts s = .next next) :
    next.dev.pwr = s.dev.pwr := by
  refine main_keeps (fun e => .of ?_) h
  repeat' first
    | with_reducible rfl
    | simp -implicitDefEqProofs only [doNocClr_pwr, apply_ite Dev.pwr, apply_ite Prod.fst, ite_self, id_eq]
    | split
theorem execPtnReset_pwr (mask : BitVec 16) (s : State) {next : State} (h : execPtnReset mask s = .next next) :
    next.dev.pwr = s.dev.pwr := by
  refine main_keeps (fun e => .of ?_) h
  repeat' first
    | with_reducible rfl
    | intro _
    | (with_reducible refine Kept.same ?_; (try dsimp only); with_reducible refine Kept.of ?_)
    | simp -implicitDefEqProofs only [doPtnReset_pwr, apply_ite Dev.pwr, apply_ite Prod.fst, ite_self, id_eq]
    | rw [atPage_pwr]
    | split
theorem execPartitionResetComplete_pwr (p : Fin 16) (s : State) {next : State} (h : execPartitionResetComplete p s = .next next) :
    next.dev.pwr = s.dev.pwr := by
  refine main_keeps (fun e => .of ?_) h
  simp -implicitDefEqProofs only [p_pwr, ptnResetDone_pwr]
theorem execClusterWake_pwr (ns : List (Fin 64)) (s : State) {next : State} (h : execClusterWake ns s = .next next) :
    next.dev.pwr = s.dev.pwr := by
  refine main_keeps (fun e => .of ?_) h
  simp -implicitDefEqProofs only [doClusterWake_pwr]
theorem execClusterIdleDelay_pwr (p : Fin 16) (s : State) {next : State} (h : execClusterIdleDelay p s = .next next) :
    next.dev.pwr = s.dev.pwr := by
  refine main_keeps (fun e => .of ?_) h
  simp -implicitDefEqProofs only [doIdleDelay_pwr, p_pwr]
theorem execClusterOffDelay_pwr (n : Fin 64) (s : State) {next : State} (h : execClusterOffDelay n s = .next next) :
    next.dev.pwr = s.dev.pwr := by
  refine main_keeps (fun e => .of ?_) h
  simp -implicitDefEqProofs only [doOffDelay_pwr]
theorem execClusterPowerOn_pwr (n : Fin 64) (s : State) {next : State} (h : execClusterPowerOn n s = .next next) :
    next.dev.pwr = s.dev.pwr := by
  refine main_keeps (fun e => .of ?_) h
  simp -implicitDefEqProofs only [doPowerOnCluster_pwr]
theorem execWakeSource_pwr (src : Fin 10) (s : State) {next : State} (h : execWakeSource src s = .next next) :
    next.dev.pwr = s.dev.pwr := by
  refine fin_keeps (fun e => .of ?_) h
  simp -implicitDefEqProofs only [doWake_pwr]
theorem execHeartbeat_pwr (v : W32) (s : State) {next : State} (h : execHeartbeat v s = .next next) :
    next.dev.pwr = s.dev.pwr := by
  refine main_keeps (fun e => .of ?_) h
  simp -implicitDefEqProofs only [doHeartbeat_pwr]
theorem execHeartbeatTimeout_pwr (s : State) {next : State} (h : execHeartbeatTimeout s = .next next) :
    next.dev.pwr = s.dev.pwr := by
  refine main_keeps (fun e => .of ?_) h
  simp -implicitDefEqProofs only [doHeartbeatTimeout_pwr]
theorem execStopDrainTimeout_pwr (s : State) {next : State} (h : execStopDrainTimeout s = .next next) :
    next.dev.pwr = s.dev.pwr := by
  refine main_keeps (fun e => .of ?_) h
  simp -implicitDefEqProofs only [doStopDrain_pwr]
theorem execStringJoin_pwr (s : State) {next : State} (h : execStringJoin s = .next next) :
    next.dev.pwr = s.dev.pwr := by
  refine main_keeps (fun e => .of ?_) h
  repeat' first
    | with_reducible rfl
    | intro _
    | (with_reducible refine Kept.same ?_; (try dsimp only); with_reducible refine Kept.of ?_)
    | simp -implicitDefEqProofs only [doStringJoin_pwr, apply_ite Dev.pwr, apply_ite Prod.fst, ite_self, id_eq]
    | rw [atPage_pwr]
    | split
theorem execStringOpen_pwr (s : State) {next : State} (h : execStringOpen s = .next next) :
    next.dev.pwr = s.dev.pwr := by
  refine main_keeps (fun e => .of ?_) h
  simp -implicitDefEqProofs only [doStringOpen_pwr]
theorem execStringLeave_pwr (s : State) {next : State} (h : execStringLeave s = .next next) :
    next.dev.pwr = s.dev.pwr := by
  refine main_keeps (fun e => .of ?_) h
  repeat' first
    | with_reducible rfl
    | intro _
    | (with_reducible refine Kept.same ?_; (try dsimp only); with_reducible refine Kept.of ?_)
    | simp -implicitDefEqProofs only [doStringLeave_pwr, apply_ite Dev.pwr, apply_ite Prod.fst, ite_self, id_eq]
    | rw [atPage_pwr]
    | split
theorem execStringBroken_pwr (s : State) {next : State} (h : execStringBroken s = .next next) :
    next.dev.pwr = s.dev.pwr := by
  refine main_keeps (fun e => .of ?_) h
  simp -implicitDefEqProofs only [doStringBroken_pwr]
theorem execDiscover_pwr (s : State) {next : State} (h : execDiscover s = .next next) :
    next.dev.pwr = s.dev.pwr := by
  refine main_keeps (fun e => .of ?_) h
  repeat' first
    | with_reducible rfl
    | intro _
    | (with_reducible refine Kept.same ?_; (try dsimp only); with_reducible refine Kept.of ?_)
    | simp -implicitDefEqProofs only [doDiscover_pwr, apply_ite Dev.pwr, apply_ite Prod.fst, ite_self, id_eq]
    | rw [atPage_pwr]
    | split
theorem execCollect_pwr (src : Fin 512) (ttl : Nat) (map : BitVec 512) (mark : RingMark) (s : State) {next : State} (h : execCollect src ttl map mark s = .next next) :
    next.dev.pwr = s.dev.pwr := by
  refine main_keeps (fun e => .of ?_) h
  simp -implicitDefEqProofs only [doCollect_pwr]
theorem execAssign_pwr (src : Fin 512) (ttl : Nat) (map : BitVec 512) (mark : RingMark) (s : State) {next : State} (h : execAssign src ttl map mark s = .next next) :
    next.dev.pwr = s.dev.pwr := by
  refine main_keeps (fun e => .of ?_) h
  simp -implicitDefEqProofs only [doAssign_pwr]
theorem execStringBeacon_pwr (src : Fin 512) (ttl : Nat) (ns : W64) (frac : BitVec 16) (mark : RingMark) (s : State) {next : State} (h : execStringBeacon src ttl ns frac mark s = .next next) :
    next.dev.pwr = s.dev.pwr := by
  refine main_keeps (fun e => .of ?_) h
  simp -implicitDefEqProofs only [doStringBeacon_pwr]
theorem execStringFreeze_pwr (src : Fin 512) (n : Byte) (ttl : Nat) (tail : FreezeTail) (s : State) {next : State} (h : execStringFreeze src n ttl tail s = .next next) :
    next.dev.pwr = s.dev.pwr := by
  refine main_keeps (fun e => .of ?_) h
  simp -implicitDefEqProofs only [doStringFreeze_pwr]
theorem execStringStrobe_pwr (src : Fin 512) (n : Byte) (ttl : Nat) (crc : W32) (s : State) {next : State} (h : execStringStrobe src n ttl crc s = .next next) :
    next.dev.pwr = s.dev.pwr := by
  refine main_keeps (fun e => .of ?_) h
  simp -implicitDefEqProofs only [doStringStrobe_pwr]
theorem execMsg_pwr (src dest : Fin 512) (ttl : Nat) (cfg : List (Fin 16 × W32)) (mark : RingMark) (s : State) {next : State} (h : execMsg src dest ttl cfg mark s = .next next) :
    next.dev.pwr = s.dev.pwr := by
  refine main_keeps (fun e => .of ?_) h
  simp -implicitDefEqProofs only [doMsg_pwr]
theorem execResetReqSend_pwr (s : State) {next : State} (h : execResetReqSend s = .next next) :
    next.dev.pwr = s.dev.pwr := by
  refine main_keeps (fun e => .of ?_) h
  repeat' first
    | with_reducible rfl
    | intro _
    | (with_reducible refine Kept.same ?_; (try dsimp only); with_reducible refine Kept.of ?_)
    | simp -implicitDefEqProofs only [doResetReqSend_pwr, apply_ite Dev.pwr, apply_ite Prod.fst, ite_self, id_eq]
    | rw [atPage_pwr]
    | split
theorem execStringFrameRepeat_pwr (s : State) {next : State} (h : execStringFrameRepeat s = .next next) :
    next.dev.pwr = s.dev.pwr := by
  refine main_keeps (fun e => .of ?_) h
  simp -implicitDefEqProofs only [doRepeat_pwr]
theorem execStringBeaconSend_pwr (s : State) {next : State} (h : execStringBeaconSend s = .next next) :
    next.dev.pwr = s.dev.pwr := by
  refine main_keeps (fun e => .of ?_) h
  simp -implicitDefEqProofs only [doStringBeaconSend_pwr]
theorem execPairLowRead_pwr (fn : Fn) (place : ReadAt) (s : State) {next : State} (h : execPairLowRead fn place s = .next next) :
    next.dev.pwr = s.dev.pwr := by
  refine main_keeps (fun e => .of ?_) h
  repeat' first
    | with_reducible rfl
    | simp -implicitDefEqProofs only [doRead32_pwr, doRead64_pwr, apply_ite Dev.pwr, apply_ite Prod.fst, ite_self, id_eq]
    | split
theorem execMisalignedAccess_pwr (fn : Fn) (off size : Nat) (write : Bool) (s : State) {next : State} (h : execMisalignedAccess fn off size write s = .next next) :
    next.dev.pwr = s.dev.pwr := by
  refine main_keeps (fun e => .of ?_) h
  simp -implicitDefEqProofs only [doMisaligned_pwr]
theorem execFenceRead_pwr (fn : Fn) (off : Nat) (s : State) {next : State} (h : execFenceRead fn off s = .next next) :
    next.dev.pwr = s.dev.pwr := by
  refine main_keeps (fun e => .of ?_) h
  simp -implicitDefEqProofs only [doFenceRead_pwr]
theorem execRd_pwr (k : Packet) (s : State) {next : State} (h : execRd k s = .next next) :
    next.dev.pwr = s.dev.pwr := by
  refine main_keeps (fun e => .of ?_) h
  repeat' first
    | with_reducible rfl
    | intro _
    | (with_reducible refine Kept.same ?_; (try dsimp only); with_reducible refine Kept.of ?_)
    | simp -implicitDefEqProofs only [serveAccess_pwr, apply_ite Dev.pwr, apply_ite Prod.fst, ite_self, id_eq]
    | rw [request_pwr]
    | exact serveAccess_pwr _ _ _ _ (by assumption)
    | split
theorem execStrobeLatch_pwr (s : State) {next : State} (h : execStrobeLatch s = .next next) :
    next.dev.pwr = s.dev.pwr := by
  refine main_keeps (fun e => .of ?_) h
  simp -implicitDefEqProofs only [doStrobeLatch_pwr]
theorem execBar2Read_pwr (fn : Fn) (off len : Nat) (s : State) {next : State} (h : execBar2Read fn off len s = .next next) :
    next.dev.pwr = s.dev.pwr := by
  refine main_keeps (fun e => .of ?_) h
  simp -implicitDefEqProofs only [doBar2Read_pwr]
theorem execBar2Write_pwr (fn : Fn) (off : Nat) (bytes : List Byte) (s : State) {next : State} (h : execBar2Write fn off bytes s = .next next) :
    next.dev.pwr = s.dev.pwr := by
  refine main_keeps (fun e => .of ?_) h
  simp -implicitDefEqProofs only [doBar2Write_pwr]
theorem execCaptureWindowRead_pwr (p : Fin 16) (off len : Nat) (s : State) {next : State} (h : execCaptureWindowRead p off len s = .next next) :
    next.dev.pwr = s.dev.pwr := by
  refine main_keeps (fun e => .of ?_) h
  simp -implicitDefEqProofs only [doCaptureRead_pwr, p_pwr]
theorem execMsixUnmask_pwr (fn : Fn) (v : Fin 32) (s : State) {next : State} (h : execMsixUnmask fn v s = .next next) :
    next.dev.pwr = s.dev.pwr := by
  refine main_keeps (fun e => .of ?_) h
  repeat' first
    | with_reducible rfl
    | simp -implicitDefEqProofs only [doUnmask_pwr, apply_ite Dev.pwr, apply_ite Prod.fst, ite_self, id_eq]
    | split
theorem execMbistGo_pwr (n : Fin 64) (s : State) {next : State} (h : execMbistGo n s = .next next) :
    next.dev.pwr = s.dev.pwr := by
  refine main_keeps (fun e => .of ?_) h
  repeat' first
    | with_reducible rfl
    | intro _
    | (with_reducible refine Kept.same ?_; (try dsimp only); with_reducible refine Kept.of ?_)
    | simp -implicitDefEqProofs only [doMbistGo_pwr, apply_ite Dev.pwr, apply_ite Prod.fst, ite_self, id_eq]
    | rw [atPage_pwr]
    | split
theorem execMbistComplete_pwr (n : Fin 64) (failed : Option (BitVec 64)) (s : State) {next : State} (h : execMbistComplete n failed s = .next next) :
    next.dev.pwr = s.dev.pwr := by
  refine main_keeps (fun e => .of ?_) h
  simp -implicitDefEqProofs only [doMbistComplete_pwr, failed_pwr]
theorem execMntRelease_pwr (code : Fin 8) (owner : Fin 17) (inst : Fin 64) (s : State) {next : State} (h : execMntRelease code owner inst s = .next next) :
    next.dev.pwr = s.dev.pwr := by
  refine main_keeps (fun e => .of ?_) h
  simp -implicitDefEqProofs only [doRelease_pwr]
end Sys2Proof.Machine
end

