-- ==== Sys2Proof/Laws/KeepQueues1.lean ====
section
/-! SUPPORT. No queue comes to hold more than its depth by the shared operations, registers, queues, HBM, capture, trace and triggers. -/

set_option linter.all false

namespace Sys2Proof.Machine.Dev

set_option Elab.async false

theorem Fits.of {x y : Queue} (h : x.Fits) (he : x.en = false → y.en = false) (hw : y.words.length ≤ x.words.length) (hr : y.reserved ≤ x.reserved) (hd : y.depth = x.depth) : y.Fits := by
  rcases h with h | h
  · exact Or.inl (he h)
  · right; unfold Queue.cap at h ⊢; rw [hd]; omega
theorem Fits.same {x y : Queue} (h : x.Fits) (he : y.en = x.en) (hw : y.words.length = x.words.length) (hr : y.reserved = x.reserved) (hd : y.depth = x.depth) : y.Fits :=
  Fits.of h (fun e => he.trans e) (Nat.le_of_eq hw) (Nat.le_of_eq hr) hd
theorem QueuesFit.of {d e : Dev} (h : QueuesFit d) (h1 : e.queue = d.queue) : QueuesFit e := ⟨fun k hk => h.fits k (h1 ▸ hk)⟩
theorem QueuesFit.lit {d : Dev} {fld : SMap Nat} {ptn : SMap Ptn} {pairRd : SMap Nat} {pairWr : SMap Nat} {code : Code} {st : Stores} {fab : SMap Sig} {clu : SMap Clu} {dsp : Dsp} {ime : Ime} {trg : Trg} {cap : Cap} {trc : SMap Strm} {nonce : Option (BitVec 256)} {link : SMap Link} {noc : Noc} {boot : Boot} {pwr : Pwr} {ring : Ring} {log : LogS} {mnt : Mnt} {sys : Sys} {time : Nat} {slewTo : Int} {ticks : Nat} {latchAt : Option Nat} {strobeSrc : Option Nat} {raised : List (Nat × WordLoc × Bool)} {rewrites : List (Nat × WordLoc × Bool)} {evq : List Ev} {bus : List Nat} {answers : List (List W64)} {heldAns : List (Nat × List W64)} {out : List Out} {fresh : Nat} {hbm : SMap Byte} : QueuesFit ⟨fld, pairRd, pairWr, code, st, fab, clu, ptn, d.queue, dsp, hbm, ime, trg, cap, trc, nonce, link, noc, boot, pwr, ring, log, mnt, sys, time, slewTo, ticks, latchAt, strobeSrc, raised, rewrites, evq, bus, answers, heldAns, out, fresh⟩ = QueuesFit d := propext ⟨fun h => h.of (Eq.refl _), fun h => h.of (Eq.refl _)⟩
theorem mem_put {α : Type} {m : SMap α} {k : Nat} {v : α} {e : Nat × α} (h : e ∈ SMap.put m k v) : e ∈ m ∨ e.2 = v := by
  induction m with
  | nil => simp only [SMap.put, List.mem_singleton] at h; exact Or.inr (by rw [h])
  | cons a m ih =>
    simp only [SMap.put] at h
    split at h
    · rcases List.mem_cons.1 h with h | h
      · exact Or.inr (by rw [h])
      · exact Or.inl (List.mem_cons_of_mem _ h)
    · split at h
      · rcases List.mem_cons.1 h with h | h
        · exact Or.inr (by rw [h])
        · exact Or.inl h
      · rcases List.mem_cons.1 h with h | h
        · exact Or.inl (h ▸ List.mem_cons_self ..)
        · rcases ih h with h | h
          · exact Or.inl (List.mem_cons_of_mem _ h)
          · exact Or.inr h
theorem mem_set {α : Type} [DecidableEq α] {z : α} {m : SMap α} {k : Nat} {v : α} {e : Nat × α} (h : e ∈ SMap.set z m k v) : e ∈ m ∨ e.2 = v := by
  unfold SMap.set at h
  split at h
  · exact Or.inl (List.mem_filter.1 h).1
  · exact mem_put h
theorem QueuesFit.queue {d : Dev} (h : QueuesFit d) (q : Nat) : (d.queueAt q).Fits := by
  unfold queueAt SMap.get
  cases hk : SMap.get? d.queue q
  · exact Or.inl rfl
  · next v =>
    exact h.fits _ (SMap.mem_of_get? _ _ _ hk)
theorem setQueue_fit (d : Dev) (q : Nat) (y : Queue) (h : QueuesFit d) (hy : y.Fits) : QueuesFit (setQueue d q y) := by
  refine ⟨fun e he => ?_⟩
  rcases mem_set he with h1 | h1
  · exact h.fits e h1
  · rw [h1]; exact hy
theorem modQueue_fit (d : Dev) (q : Nat) (f : Queue → Queue) (h : QueuesFit d) (hf : ∀ x, x.Fits → (f x).Fits) : QueuesFit (modQueue d q f) := setQueue_fit _ _ _ h (hf _ (h.queue q))
theorem filterQueue_fit {d e : Dev} {f : Nat × Queue → Bool} (h : QueuesFit d) (he : e.queue = d.queue.filter f) : QueuesFit e :=
  ⟨fun x hx => h.fits x (List.mem_filter.1 (he ▸ hx)).1⟩
theorem p_fit (d : Dev) (b : Nat) (f : Fld) (v : Nat) (h : QueuesFit d) : QueuesFit (p d b f v) := h.of (Eq.refl _)
theorem resetRange_fit (d : Dev) (lo hi : Nat) (h : QueuesFit d) : QueuesFit (resetRange d lo hi) := h.of (Eq.refl _)
theorem setPtn_fit (d : Dev) (i : Nat) (c : Ptn) (h : QueuesFit d) : QueuesFit (setPtn d i c) := h.of (Eq.refl _)
theorem emit_fit (d : Dev) (o : Out) (h : QueuesFit d) : QueuesFit (emit d o) := h.of (Eq.refl _)
theorem setClu_fit (d : Dev) (n : Nat) (c : Clu) (h : QueuesFit d) : QueuesFit (setClu d n c) := h.of (Eq.refl _)
theorem setLink_fit (d : Dev) (n : Nat) (c : Link) (h : QueuesFit d) : QueuesFit (setLink d n c) := h.of (Eq.refl _)
theorem setChan_fit (d : Dev) (n : Nat) (c : Chan) (h : QueuesFit d) : QueuesFit (setChan d n c) := h.of (Eq.refl _)
theorem setStrm_fit (d : Dev) (n : Nat) (c : Strm) (h : QueuesFit d) : QueuesFit (setStrm d n c) := h.of (Eq.refl _)
theorem setCourier_fit (d : Dev) (n : Nat) (c : Courier) (h : QueuesFit d) : QueuesFit (setCourier d n c) := h.of (Eq.refl _)
theorem setList_fit (d : Dev) (n : Nat) (c : List Work) (h : QueuesFit d) : QueuesFit (setList d n c) := h.of (Eq.refl _)
theorem raise_fit (d : Dev) (num cls owner i0 i1 : Nat) (h : QueuesFit d) : QueuesFit (raise d num cls owner i0 i1) := h.of (Eq.refl _)
theorem tick_fit (d : Dev)  (h : QueuesFit d) : QueuesFit (tick d ) := h.of (Eq.refl _)
theorem setSt_fit (d : Dev) (s : Stores) (h : QueuesFit d) : QueuesFit (setSt d s) := h.of (Eq.refl _)
theorem foldl_fit {α : Type} (f : Dev → α → Dev) (xs : List α) (d : Dev) (h : QueuesFit d) (hf : ∀ e a, QueuesFit e → QueuesFit (f e a)) : QueuesFit (xs.foldl f d) := by
  induction xs generalizing d with
  | nil => exact h
  | cons x xs ih => exact ih _ (hf _ _ h)
theorem fold1_fit {α β : Type} (f : Dev × β → α → Dev × β) (xs : List α) (r : Dev × β) (h : QueuesFit r.1) (hf : ∀ e a, QueuesFit e.1 → QueuesFit (f e a).1) : QueuesFit (xs.foldl f r).1 := by
  induction xs generalizing r with
  | nil => exact h
  | cons x xs ih => exact ih _ (hf _ _ h)
theorem each_fit {α : Type} (d : Dev) (xs : List α) (f : Dev → α → Dev) (h : QueuesFit d) (hf : ∀ e a, QueuesFit e → QueuesFit (f e a)) : QueuesFit (d.each xs f) := foldl_fit f xs d h hf
theorem iff_fit (d : Dev) (c : Bool) (f : Dev → Dev) (h : QueuesFit d) (hf : ∀ e, QueuesFit e → QueuesFit (f e)) : QueuesFit (d.iff c f) := by
  unfold iff; split
  · exact hf d h
  · exact h
theorem id_fit (d : Dev) (h : QueuesFit d) : QueuesFit (id d) := h
theorem reset_fit : QueuesFit reset := ⟨fun e he => by cases he⟩

theorem on_fit (d : Dev) (base : Nat) (f : Fld) (h0 : QueuesFit d) : QueuesFit (on d base f) := by
  unfold on
  repeat' first
    | with_reducible assumption
    | with_reducible apply p_fit
    | simp -implicitDefEqProofs only [QueuesFit.lit]
    | split
    | intro _
    | dsimp only
theorem clr_fit (d : Dev) (base : Nat) (f : Fld) (h0 : QueuesFit d) : QueuesFit (clr d base f) := by
  unfold clr
  repeat' first
    | with_reducible assumption
    | with_reducible apply p_fit
    | simp -implicitDefEqProofs only [QueuesFit.lit]
    | split
    | intro _
    | dsimp only
theorem add_fit (d : Dev) (base : Nat) (f : Fld) (n : Nat) (h0 : QueuesFit d) : QueuesFit (add d base f n) := by
  unfold add
  repeat' first
    | with_reducible assumption
    | with_reducible apply p_fit
    | simp -implicitDefEqProofs only [QueuesFit.lit]
    | split
    | intro _
    | dsimp only
theorem modPtn_fit (d : Dev) (i : Nat) (f : Ptn → Ptn) (h0 : QueuesFit d) : QueuesFit (modPtn d i f) := by
  unfold modPtn
  repeat' first
    | with_reducible assumption
    | with_reducible apply setPtn_fit
    | simp -implicitDefEqProofs only [QueuesFit.lit]
    | split
    | intro _
    | dsimp only
theorem modClu_fit (d : Dev) (n : Nat) (f : Clu → Clu) (h0 : QueuesFit d) : QueuesFit (modClu d n f) := by
  unfold modClu
  repeat' first
    | with_reducible assumption
    | with_reducible apply setClu_fit
    | simp -implicitDefEqProofs only [QueuesFit.lit]
    | split
    | intro _
    | dsimp only
theorem modLink_fit (d : Dev) (i : Nat) (f : Link → Link) (h0 : QueuesFit d) : QueuesFit (modLink d i f) := by
  unfold modLink
  repeat' first
    | with_reducible assumption
    | with_reducible apply setLink_fit
    | simp -implicitDefEqProofs only [QueuesFit.lit]
    | split
    | intro _
    | dsimp only
theorem modChan_fit (d : Dev) (i : Nat) (f : Chan → Chan) (h0 : QueuesFit d) : QueuesFit (modChan d i f) := by
  unfold modChan
  repeat' first
    | with_reducible assumption
    | with_reducible apply setChan_fit
    | simp -implicitDefEqProofs only [QueuesFit.lit]
    | split
    | intro _
    | dsimp only
theorem modStrm_fit (d : Dev) (i : Nat) (f : Strm → Strm) (h0 : QueuesFit d) : QueuesFit (modStrm d i f) := by
  unfold modStrm
  repeat' first
    | with_reducible assumption
    | with_reducible apply setStrm_fit
    | simp -implicitDefEqProofs only [QueuesFit.lit]
    | split
    | intro _
    | dsimp only
theorem setPower_fit (d : Dev) (n st : Nat) (h0 : QueuesFit d) : QueuesFit (setPower d n st) := by
  unfold setPower
  repeat' first
    | with_reducible assumption
    | with_reducible apply p_fit
    | simp -implicitDefEqProofs only [QueuesFit.lit]
    | split
    | intro _
    | dsimp only
theorem wake_fit (d : Dev) (n : Nat) (h0 : QueuesFit d) : QueuesFit (wake d n) := by
  unfold wake
  repeat' first
    | with_reducible assumption
    | with_reducible apply setPower_fit
    | simp -implicitDefEqProofs only [QueuesFit.lit]
    | split
    | intro _
    | dsimp only
theorem wakeAll_fit (d : Dev) (i : Nat) (h0 : QueuesFit d) : QueuesFit (wakeAll d i) := by
  unfold wakeAll
  repeat' first
    | with_reducible assumption
    | with_reducible apply each_fit
    | with_reducible apply wake_fit
    | simp -implicitDefEqProofs only [QueuesFit.lit]
    | split
    | intro _
    | dsimp only
theorem atPtn_fit (d : Dev) (i : Nat) (k : Dev → Dev) (h0 : QueuesFit d) (hk : ∀ e, QueuesFit e → QueuesFit (k e)) : QueuesFit (atPtn d i k) := by
  unfold atPtn
  repeat' first
    | with_reducible assumption
    | with_reducible apply hk
    | simp -implicitDefEqProofs only [QueuesFit.lit]
    | split
    | intro _
    | dsimp only
theorem complete_fit (d : Dev) (fn : Fn) (a v : Nat) (h0 : QueuesFit d) : QueuesFit (complete d fn a v) := by
  unfold complete
  repeat' first
    | with_reducible assumption
    | with_reducible apply emit_fit
    | simp -implicitDefEqProofs only [QueuesFit.lit]
    | split
    | intro _
    | dsimp only
theorem completeHeld_fit (d : Dev) (fn : Fn) (l v : Nat) (h0 : QueuesFit d) : QueuesFit (completeHeld d fn l v) := by
  unfold completeHeld
  repeat' first
    | with_reducible assumption
    | with_reducible apply each_fit
    | with_reducible apply emit_fit
    | simp -implicitDefEqProofs only [QueuesFit.lit]
    | split
    | intro _
    | dsimp only
theorem sendVec_fit (d : Dev) (fn : Fn) (v : Nat) (h0 : QueuesFit d) : QueuesFit (sendVec d fn v) := by
  unfold sendVec
  repeat' first
    | with_reducible assumption
    | with_reducible apply emit_fit
    | with_reducible apply on_fit
    | simp -implicitDefEqProofs only [QueuesFit.lit]
    | split
    | intro _
    | dsimp only
theorem notifyIrq_fit (d : Dev) (base : Nat) (h0 : QueuesFit d) : QueuesFit (notifyIrq d base) := by
  unfold notifyIrq
  repeat' first
    | with_reducible assumption
    | with_reducible apply sendVec_fit
    | simp -implicitDefEqProofs only [QueuesFit.lit]
    | split
    | intro _
    | dsimp only
theorem irq_fit (d : Dev) (base i : Nat) (h0 : QueuesFit d) : QueuesFit (irq d base i) := by
  unfold irq
  repeat' first
    | with_reducible assumption
    | with_reducible apply notifyIrq_fit
    | with_reducible apply p_fit
    | simp -implicitDefEqProofs only [QueuesFit.lit]
    | split
    | intro _
    | dsimp only
theorem setIrqEn_fit (d : Dev) (base v : Nat) (h0 : QueuesFit d) : QueuesFit (setIrqEn d base v) := by
  unfold setIrqEn
  repeat' first
    | with_reducible assumption
    | with_reducible apply notifyIrq_fit
    | with_reducible apply p_fit
    | simp -implicitDefEqProofs only [QueuesFit.lit]
    | split
    | intro _
    | dsimp only
theorem accessError_fit (d : Dev) (fn : Fn) (bar off : Nat) (write : Bool) (h0 : QueuesFit d) : QueuesFit (accessError d fn bar off write) := by
  unfold accessError
  repeat' first
    | with_reducible assumption
    | with_reducible apply raise_fit
    | simp -implicitDefEqProofs only [QueuesFit.lit]
    | split
    | intro _
    | dsimp only
theorem innerError_fit (d : Dev) (src part : Nat) (devlvl : Bool) (status : Nat) (write : Bool) (addr : Nat) (h0 : QueuesFit d) : QueuesFit (innerError d src part devlvl status write addr) := by
  unfold innerError
  repeat' first
    | with_reducible assumption
    | with_reducible apply raise_fit
    | simp -implicitDefEqProofs only [QueuesFit.lit]
    | split
    | intro _
    | dsimp only
theorem sample_fit (d : Dev) (k x : Nat) (h0 : QueuesFit d) : QueuesFit (sample d k x) := by
  unfold sample
  repeat' first
    | with_reducible assumption
    | with_reducible apply add_fit
    | simp -implicitDefEqProofs only [QueuesFit.lit]
    | split
    | intro _
    | dsimp only
theorem offer_fit (d : Dev) (kind : Nat) (src : Nat → Bool) (x : Nat) (h0 : QueuesFit d) : QueuesFit (offer d kind src x) := by
  unfold offer
  repeat' first
    | with_reducible assumption
    | with_reducible apply each_fit
    | with_reducible apply sample_fit
    | simp -implicitDefEqProofs only [QueuesFit.lit]
    | split
    | intro _
    | dsimp only
theorem offerBp_fit (d : Dev) (n t b s : Nat) (v : Bool) (h0 : QueuesFit d) : QueuesFit (offerBp d n t b s v) := by
  unfold offerBp
  repeat' first
    | with_reducible assumption
    | with_reducible apply offer_fit
    | simp -implicitDefEqProofs only [QueuesFit.lit]
    | split
    | intro _
    | dsimp only
theorem offerWalu_fit (d : Dev) (n t w s v : Nat) (h0 : QueuesFit d) : QueuesFit (offerWalu d n t w s v) := by
  unfold offerWalu
  repeat' first
    | with_reducible assumption
    | with_reducible apply offer_fit
    | simp -implicitDefEqProofs only [QueuesFit.lit]
    | split
    | intro _
    | dsimp only
theorem offerLane_fit (d : Dev) (lane v : Nat) (h0 : QueuesFit d) : QueuesFit (offerLane d lane v) := by
  unfold offerLane
  repeat' first
    | with_reducible assumption
    | with_reducible apply offer_fit
    | simp -implicitDefEqProofs only [QueuesFit.lit]
    | split
    | intro _
    | dsimp only
theorem offerQueue_fit (d : Dev) (q ev v : Nat) (h0 : QueuesFit d) : QueuesFit (offerQueue d q ev v) := by
  unfold offerQueue
  repeat' first
    | with_reducible assumption
    | with_reducible apply offer_fit
    | simp -implicitDefEqProofs only [QueuesFit.lit]
    | split
    | intro _
    | dsimp only
theorem noRoute_fit (d : Dev) (h0 : QueuesFit d) : QueuesFit (noRoute d) := by
  unfold noRoute
  repeat' first
    | with_reducible assumption
    | with_reducible apply add_fit
    | simp -implicitDefEqProofs only [QueuesFit.lit]
    | split
    | intro _
    | dsimp only
theorem timedOut_fit (d : Dev) (src dst vc a : Nat) (h0 : QueuesFit d) : QueuesFit (timedOut d src dst vc a) := by
  unfold timedOut
  repeat' first
    | with_reducible assumption
    | with_reducible apply add_fit
    | with_reducible apply raise_fit
    | simp -implicitDefEqProofs only [QueuesFit.lit]
    | split
    | intro _
    | dsimp only
theorem addOutst_fit (d : Dev) (o : Outst) (h0 : QueuesFit d) : QueuesFit (addOutst d o) := by
  unfold addOutst
  repeat' first
    | with_reducible assumption
    | simp -implicitDefEqProofs only [QueuesFit.lit]
    | split
    | intro _
    | dsimp only
theorem respond_fit (d : Dev) (k : Packet) (status : Nat) (bs : List Byte) (h0 : QueuesFit d) : QueuesFit (respond d k status bs) := by
  unfold respond
  repeat' first
    | with_reducible assumption
    | with_reducible apply emit_fit
    | simp -implicitDefEqProofs only [QueuesFit.lit]
    | split
    | intro _
    | dsimp only
theorem synthesise_fit (d : Dev) (src tag status : Nat) (h0 : QueuesFit d) : QueuesFit (synthesise d src tag status) := by
  unfold synthesise
  repeat' first
    | with_reducible assumption
    | with_reducible apply emit_fit
    | simp -implicitDefEqProofs only [QueuesFit.lit]
    | split
    | intro _
    | dsimp only
theorem hostTimeout_fit (d : Dev) (fn : Fn) (h : Option Nat) (bar off : Nat) (write : Bool) (h0 : QueuesFit d) : QueuesFit (hostTimeout d fn h bar off write) := by
  unfold hostTimeout
  repeat' first
    | with_reducible assumption
    | with_reducible apply accessError_fit
    | with_reducible apply timedOut_fit
    | simp -implicitDefEqProofs only [QueuesFit.lit]
    | split
    | intro _
    | dsimp only
theorem viaNoc_fit (d : Dev) (fn : Fn) (h : Option Nat) (bar off : Nat) (write : Bool) (fail k : Dev → Dev) (h0 : QueuesFit d) (hf : ∀ e, QueuesFit e → QueuesFit (fail e)) (hk : ∀ e, QueuesFit e → QueuesFit (k e)) : QueuesFit (viaNoc d fn h bar off write fail k) := by
  unfold viaNoc
  repeat' first
    | with_reducible assumption
    | with_reducible apply hf
    | with_reducible apply hk
    | with_reducible apply accessError_fit
    | with_reducible apply noRoute_fit
    | with_reducible apply hostTimeout_fit
    | simp -implicitDefEqProofs only [QueuesFit.lit]
    | split
    | intro _
    | dsimp only
theorem answerAt_fit (d : Dev) (fn : Fn) (a ones v : Nat) (h0 : QueuesFit d) : QueuesFit (answerAt d fn a ones v).1 := by
  unfold answerAt
  repeat' first
    | with_reducible assumption
    | with_reducible apply hostTimeout_fit
    | simp -implicitDefEqProofs only [QueuesFit.lit]
    | split
    | intro _
    | dsimp only
theorem reply_fit (d : Dev) (fn : Fn) (a v : Nat) (h0 : QueuesFit d) : QueuesFit (reply d fn a v) := by
  unfold reply
  repeat' first
    | with_reducible assumption
    | with_reducible apply answerAt_fit
    | with_reducible apply complete_fit
    | simp -implicitDefEqProofs only [QueuesFit.lit]
    | split
    | intro _
    | dsimp only
theorem reply64_fit (d : Dev) (fn : Fn) (a v : Nat) (h0 : QueuesFit d) : QueuesFit (reply64 d fn a v) := by
  unfold reply64
  repeat' first
    | with_reducible assumption
    | with_reducible apply answerAt_fit
    | with_reducible apply complete_fit
    | simp -implicitDefEqProofs only [QueuesFit.lit]
    | split
    | intro _
    | dsimp only
theorem endLast_length (q : Queue) : q.endLast.words.length = q.words.length ∧ q.endLast.en = q.en ∧ q.endLast.reserved = q.reserved ∧ q.endLast.depth = q.depth := by
  unfold Queue.endLast
  split
  · next w ws h =>
    refine ⟨?_, rfl, rfl, rfl⟩
    have := congrArg List.length h
    simp only [List.length_reverse, List.length_cons] at this ⊢
    omega
  · exact ⟨rfl, rfl, rfl, rfl⟩
theorem lose_fits {q : Queue} (fin ovr : Bool) (h : q.Fits) : (q.lose fin ovr).1.Fits := by
  have hf (x : Queue) (i : Nat) (b : Bool) (hx : x.Fits) : (if b then x.flag i else x).Fits := by
    split
    · exact Fits.same hx rfl rfl rfl rfl
    · exact hx
  unfold Queue.lose
  dsimp only
  refine Fits.same (hf _ _ _ (hf _ _ _ (hf _ _ _ (?_ : (if q.inPkt then _ else q).Fits)))) rfl rfl rfl rfl
  split
  · obtain ⟨h1, h2, h3, h4⟩ := endLast_length q
    exact Fits.same h h2 h1 h3 h4
  · exact h
theorem dropWrite_fit (d : Dev) (q : Nat) (fin ovr : Bool) (h0 : QueuesFit d) : QueuesFit (dropWrite d q fin ovr).1 := by
  have h1 : QueuesFit (d.setQueue q ((d.queueAt q).lose fin ovr).1) := setQueue_fit _ _ _ h0 (lose_fits _ _ (h0.queue q))
  unfold dropWrite
  repeat' first
    | with_reducible assumption
    | with_reducible apply offerQueue_fit
    | with_reducible apply irq_fit
    | with_reducible apply raise_fit
    | simp -implicitDefEqProofs only [QueuesFit.lit]
    | split
    | intro _
    | dsimp only
theorem push_fits {x : Queue} (w : QWord) (credit : Bool) (h : x.Fits) (hc : (!(credit && decide (0 < x.reserved)) && x.free == 0) = false) :
    ({ x with words := x.words ++ [w], inPkt := !w.fin, reserved := if (credit && decide (0 < x.reserved)) then x.reserved - 1 else x.reserved } : Queue).Fits := by
  rcases h with h | h
  · exact Or.inl h
  · right
    simp only [Queue.cap, Queue.free, List.length_append, List.length_singleton] at h hc ⊢
    cases hk : (credit && decide (0 < x.reserved))
    · simp only [hk, Bool.not_false, Bool.true_and, beq_eq_false_iff_ne, ne_eq] at hc
      simp only [Bool.false_eq_true, if_false]; omega
    · simp only [Bool.and_eq_true, decide_eq_true_eq] at hk
      simp only [if_true]; omega
theorem push_fit (d : Dev) (q : Nat) (w : QWord) (credit : Bool) (h0 : QueuesFit d) : QueuesFit (push d q w credit).1 := by
  unfold push
  dsimp only
  split
  · exact setQueue_fit _ _ _ h0 (Fits.same (h0.queue q) rfl rfl rfl rfl)
  · split
    · exact dropWrite_fit _ _ _ _ h0
    · next hc =>
      have h1 := push_fits w credit (h0.queue q) (Bool.eq_false_iff.2 hc)
      generalize (credit && decide (0 < (d.queueAt q).reserved)) = c at h1 ⊢
      cases c <;> simp only [Bool.false_eq_true, if_false, if_true] at h1 ⊢
      all_goals
        repeat' first
          | with_reducible assumption
          | exact Fits.same h1 (Eq.refl _) (Eq.refl _) (Eq.refl _) (Eq.refl _)
          | with_reducible apply offerQueue_fit
          | with_reducible apply setQueue_fit
          | simp -implicitDefEqProofs only [QueuesFit.lit]
          | split
          | intro _
          | dsimp only
theorem takeHead_fit {d : Dev} {q : Nat} {w : QWord} {e : Dev} (h : d.takeHead q = some (w, e)) (h0 : QueuesFit d) : QueuesFit e := by
  unfold takeHead at h; dsimp only at h; split at h
  · cases h
  · next x xs hx =>
    simp only [Option.some.injEq, Prod.mk.injEq] at h; rw [← h.2]
    exact offerQueue_fit _ _ _ _ (setQueue_fit _ _ _ h0 (Fits.of (h0.queue q) id (by rw [hx]; exact Nat.le_succ _) (Nat.le_refl _) rfl))
theorem markBound_fit (d : Dev) (q : Nat) (h0 : QueuesFit d) : QueuesFit (markBound d q) := by
  unfold markBound
  repeat' first
    | with_reducible assumption
    | with_reducible apply modQueue_fit
    | exact Fits.same (QueuesFit.queue (by assumption) _) (Eq.refl _) (Eq.refl _) (Eq.refl _) (Eq.refl _)
    | exact fun _ h => Fits.same h (Eq.refl _) (Eq.refl _) (Eq.refl _) (Eq.refl _)
    | exact fun x hx => Fits.of hx id (Nat.zero_le _) (Nat.zero_le _) (Eq.refl _)
    | simp -implicitDefEqProofs only [QueuesFit.lit]
    | split
    | intro _
    | dsimp only
theorem takeUpTo_fit (m : Nat) (d : Dev) (q : Nat) (h0 : QueuesFit d) : QueuesFit (takeUpTo m d q).2 := by
  induction m generalizing d with
  | zero => exact h0
  | succ m ih =>
    unfold takeUpTo
    repeat' first
      | with_reducible assumption
      | with_reducible apply ih
      | exact takeHead_fit (by assumption) h0
      | refine ih _ (takeHead_fit (by assumption) h0)
      | simp -implicitDefEqProofs only [QueuesFit.lit]
      | split
      | intro _
      | dsimp only
theorem answerQrd_fit (d : Dev) (q : Nat) (k : Packet) (h0 : QueuesFit d) : QueuesFit (answerQrd d q k) := by
  unfold answerQrd
  repeat' first
    | with_reducible assumption
    | with_reducible apply respond_fit
    | with_reducible apply takeUpTo_fit
    | simp -implicitDefEqProofs only [QueuesFit.lit]
    | split
    | intro _
    | dsimp only
theorem popReply_fit (d : Dev) (fn : Fn) (q v : Nat) (h0 : QueuesFit d) : QueuesFit (popReply d fn q v) := by
  unfold popReply
  repeat' first
    | with_reducible assumption
    | with_reducible apply emit_fit
    | with_reducible apply hostTimeout_fit
    | simp -implicitDefEqProofs only [QueuesFit.lit]
    | split
    | intro _
    | dsimp only
theorem completePop_fit (d : Dev) (fn : Fn) (q : Nat) (h0 : QueuesFit d) : QueuesFit (completePop d fn q) := by
  unfold completePop
  repeat' first
    | with_reducible assumption
    | with_reducible apply modQueue_fit
    | with_reducible apply popReply_fit
    | exact Fits.same (QueuesFit.queue (by assumption) _) (Eq.refl _) (Eq.refl _) (Eq.refl _) (Eq.refl _)
    | exact fun _ h => Fits.same h (Eq.refl _) (Eq.refl _) (Eq.refl _) (Eq.refl _)
    | exact fun x hx => Fits.of hx id (Nat.zero_le _) (Nat.zero_le _) (Eq.refl _)
    | simp -implicitDefEqProofs only [QueuesFit.lit]
    | split
    | intro _
    | dsimp only
    | with_reducible refine takeHead_fit (by assumption) ?_
theorem serveReaders_fit (m : Nat) (d : Dev) (q : Nat) (h0 : QueuesFit d) : QueuesFit (serveReaders m d q) := by
  induction m generalizing d with
  | zero => exact h0
  | succ m ih =>
    unfold serveReaders
    repeat' first
      | with_reducible assumption
      | with_reducible apply ih
      | exact Fits.same (QueuesFit.queue (by assumption) _) (Eq.refl _) (Eq.refl _) (Eq.refl _) (Eq.refl _)
      | with_reducible apply completePop_fit
      | with_reducible apply setQueue_fit
      | with_reducible apply answerQrd_fit
      | simp -implicitDefEqProofs only [QueuesFit.lit]
      | split
      | intro _
      | dsimp only
theorem wakeReaders_fit (d : Dev) (q : Nat) (h0 : QueuesFit d) : QueuesFit (wakeReaders d q) := by
  unfold wakeReaders
  repeat' first
    | with_reducible assumption
    | with_reducible apply serveReaders_fit
    | simp -implicitDefEqProofs only [QueuesFit.lit]
    | split
    | intro _
    | dsimp only
theorem notifyQueue_fit (d : Dev) (q kind : Nat) (h0 : QueuesFit d) : QueuesFit (notifyQueue d q kind) := by
  unfold notifyQueue
  repeat' first
    | with_reducible assumption
    | with_reducible apply irq_fit
    | with_reducible apply push_fit
    | with_reducible apply wakeReaders_fit
    | simp -implicitDefEqProofs only [QueuesFit.lit]
    | split
    | intro _
    | dsimp only
theorem notifyKinds_fit (d : Dev) (q : Nat) (ks : List Nat) (h0 : QueuesFit d) : QueuesFit (notifyKinds d q ks) := by
  unfold notifyKinds
  repeat' first
    | with_reducible assumption
    | with_reducible apply each_fit
    | with_reducible apply notifyQueue_fit
    | simp -implicitDefEqProofs only [QueuesFit.lit]
    | split
    | intro _
    | dsimp only
theorem append_fit (d : Dev) (q : Nat) (w : QWord) (credit : Bool) (h0 : QueuesFit d) : QueuesFit (append d q w credit) := by
  unfold append
  repeat' first
    | with_reducible assumption
    | with_reducible apply notifyKinds_fit
    | with_reducible apply push_fit
    | with_reducible apply wakeReaders_fit
    | simp -implicitDefEqProofs only [QueuesFit.lit]
    | split
    | intro _
    | dsimp only
theorem modFences_fit (d : Dev) (f : List (Nat × Nat) → List (Nat × Nat)) (h0 : QueuesFit d) : QueuesFit (modFences d f) := by
  unfold modFences
  refine each_fit _ _ _ h0 fun e a he => wakeReaders_fit _ _ (modQueue_fit _ _ _ he fun x hx => ?_)
  exact Fits.same hx rfl (List.length_map ..) rfl rfl
theorem settleFences_fit (d : Dev) (h0 : QueuesFit d) : QueuesFit (settleFences d) := by
  unfold settleFences
  repeat' first
    | with_reducible assumption
    | with_reducible apply modFences_fit
    | simp -implicitDefEqProofs only [QueuesFit.lit]
    | split
    | intro _
    | dsimp only
theorem farAcked_fit (d : Dev) (n f j : Nat) (h0 : QueuesFit d) : QueuesFit (farAcked d n f j) := by
  unfold farAcked
  repeat' first
    | with_reducible assumption
    | with_reducible apply modFences_fit
    | simp -implicitDefEqProofs only [QueuesFit.lit]
    | split
    | intro _
    | dsimp only
theorem freeOutst_fit (d : Dev) (src tag : Nat) (h0 : QueuesFit d) : QueuesFit (freeOutst d src tag) := by
  unfold freeOutst
  repeat' first
    | with_reducible assumption
    | with_reducible apply settleFences_fit
    | simp -implicitDefEqProofs only [QueuesFit.lit]
    | split
    | intro _
    | dsimp only
theorem appendAll_fit (d : Dev) (q : Nat) (ws : List W64) (endLast fence : Bool) (h0 : QueuesFit d) : QueuesFit (d.appendAll q ws endLast fence) := by
  induction ws generalizing d fence with
  | nil => exact h0
  | cons w ws ih =>
    cases ws with
    | nil => exact append_fit _ _ _ _ h0
    | cons v vs => exact ih _ _ (append_fit _ _ _ _ h0)
theorem flushQueue_fit (d : Dev) (q : Nat) (h0 : QueuesFit d) : QueuesFit (flushQueue d q) := by
  unfold flushQueue
  dsimp only
  refine notifyKinds_fit _ _ _ (setQueue_fit _ _ _ h0 ?_)
  have h := h0.queue q
  generalize d.queueAt q = x at h ⊢
  have h1 : (if x.opened = true then { x.flag 1 with discard := true } else x : Queue).Fits := by
    split
    · exact Fits.same h rfl rfl rfl rfl
    · exact h
  generalize (if x.opened = true then { x.flag 1 with discard := true } else x : Queue) = y at h1 ⊢
  split
  · exact Fits.of h1 id (Nat.zero_le _) (Nat.le_refl _) rfl
  · exact Fits.of h1 id (Nat.zero_le _) (Nat.le_refl _) rfl
theorem dropHeadOf_fit (d : Dev) (q : Nat) (h0 : QueuesFit d) : QueuesFit (dropHeadOf d q) := by
  unfold dropHeadOf
  dsimp only
  split
  · exact h0
  · refine notifyKinds_fit _ _ _ (setQueue_fit _ _ _ h0 ?_)
    have h := h0.queue q
    generalize d.queueAt q = x at h ⊢
    have h1 (n c : Nat) : ({ x with words := x.words.drop n, copied := c, taken := false } : Queue).Fits :=
      Fits.of h id (by show (x.words.drop n).length ≤ _; rw [List.length_drop]; omega) (Nat.le_refl _) rfl
    repeat' split
    all_goals exact Fits.same (h1 (headPacket x.words).length (x.copied - (headPacket x.words).length)) rfl rfl rfl rfl
theorem withdrawBridge_fit (d : Dev) (q : Nat) (h0 : QueuesFit d) : QueuesFit (withdrawBridge d q) := by
  unfold withdrawBridge
  repeat' first
    | with_reducible assumption
    | with_reducible apply each_fit
    | with_reducible apply p_fit
    | simp -implicitDefEqProofs only [QueuesFit.lit]
    | split
    | intro _
    | dsimp only
theorem cap_pos (x : Queue) : 0 ≤ x.cap := Nat.zero_le _
theorem enableQueue_fit (d : Dev) (q : Nat) (h0 : QueuesFit d) : QueuesFit (enableQueue d q) := by
  unfold enableQueue
  dsimp only
  split
  · exact h0
  · split
    · exact h0
    · split
      · exact setQueue_fit _ _ _ h0 (Or.inr (Nat.zero_le _))
      · exact setQueue_fit _ _ _ h0 (Fits.same (h0.queue q) rfl rfl rfl rfl)
theorem emptyPop_fit (d : Dev) (fn : Fn) (q : Nat) (h0 : QueuesFit d) : QueuesFit (emptyPop d fn q) := by
  unfold emptyPop
  repeat' first
    | with_reducible assumption
    | with_reducible apply modQueue_fit
    | with_reducible apply popReply_fit
    | exact Fits.same (QueuesFit.queue (by assumption) _) (Eq.refl _) (Eq.refl _) (Eq.refl _) (Eq.refl _)
    | exact fun _ h => Fits.same h (Eq.refl _) (Eq.refl _) (Eq.refl _) (Eq.refl _)
    | exact fun x hx => Fits.of hx id (Nat.zero_le _) (Nat.zero_le _) (Eq.refl _)
    | simp -implicitDefEqProofs only [QueuesFit.lit]
    | split
    | intro _
    | dsimp only
theorem answerHeld_fit (d : Dev) (q : Nat) (h0 : QueuesFit d) : QueuesFit (answerHeld d q) := by
  unfold answerHeld
  repeat' first
    | with_reducible assumption
    | with_reducible apply each_fit
    | with_reducible apply emptyPop_fit
    | with_reducible apply respond_fit
    | with_reducible apply setQueue_fit
    | exact Fits.same (QueuesFit.queue (by assumption) _) (Eq.refl _) (Eq.refl _) (Eq.refl _) (Eq.refl _)
    | exact fun _ h => Fits.same h (Eq.refl _) (Eq.refl _) (Eq.refl _) (Eq.refl _)
    | exact fun x hx => Fits.of hx id (Nat.zero_le _) (Nat.zero_le _) (Eq.refl _)
    | simp -implicitDefEqProofs only [QueuesFit.lit]
    | split
    | intro _
    | dsimp only
theorem dropCredits_fit (d : Dev) (q : Nat) (h0 : QueuesFit d) : QueuesFit (dropCredits d q) := by
  unfold dropCredits
  repeat' first
    | with_reducible assumption
    | with_reducible apply each_fit
    | with_reducible apply modClu_fit
    | simp -implicitDefEqProofs only [QueuesFit.lit]
    | split
    | intro _
    | dsimp only
theorem disableQueue_fit (d : Dev) (q : Nat) (h0 : QueuesFit d) : QueuesFit (disableQueue d q) := by
  unfold disableQueue
  split
  · exact h0
  · exact withdrawBridge_fit _ _ (modQueue_fit _ _ _ (answerHeld_fit _ _ (flushQueue_fit _ _ (dropCredits_fit _ _ h0))) fun x _ => Or.inl rfl)
theorem acceptQwr_fit (d : Dev) (q : Nat) (k : Packet) (h0 : QueuesFit d) : QueuesFit (acceptQwr d q k) := by
  unfold acceptQwr
  repeat' first
    | with_reducible assumption
    | with_reducible apply append_fit
    | with_reducible apply each_fit
    | with_reducible apply respond_fit
    | simp -implicitDefEqProofs only [QueuesFit.lit]
    | split
    | intro _
    | dsimp only
theorem serveWriters_fit (m : Nat) (d : Dev) (q : Nat) (h0 : QueuesFit d) : QueuesFit (serveWriters m d q) := by
  induction m generalizing d with
  | zero => exact h0
  | succ m ih =>
    unfold serveWriters
    repeat' first
      | with_reducible assumption
      | with_reducible apply ih
      | exact Fits.same (QueuesFit.queue (by assumption) _) (Eq.refl _) (Eq.refl _) (Eq.refl _) (Eq.refl _)
      | with_reducible apply acceptQwr_fit
      | with_reducible apply setQueue_fit
      | simp -implicitDefEqProofs only [QueuesFit.lit]
      | split
      | intro _
      | dsimp only
theorem serveHeld_fit (d : Dev) (h0 : QueuesFit d) : QueuesFit (serveHeld d) := by
  unfold serveHeld
  repeat' first
    | with_reducible assumption
    | with_reducible apply each_fit
    | with_reducible apply serveWriters_fit
    | simp -implicitDefEqProofs only [QueuesFit.lit]
    | split
    | intro _
    | dsimp only
theorem sendAnswers_fit (m : Nat) (d : Dev) (h0 : QueuesFit d) : QueuesFit (sendAnswers m d) := by
  induction m generalizing d with
  | zero => exact h0
  | succ m ih =>
    unfold sendAnswers
    repeat' first
      | with_reducible assumption
      | with_reducible apply ih
      | with_reducible apply appendAll_fit
      | simp -implicitDefEqProofs only [QueuesFit.lit]
      | split
      | intro _
      | dsimp only
theorem answer_fit (d : Dev) (op : Nat) (tag : Nat) (status : Nat) (ws : List W64) (h0 : QueuesFit d) : QueuesFit (answer d op tag status ws) := by
  unfold answer
  repeat' first
    | with_reducible assumption
    | with_reducible apply sendAnswers_fit
    | simp -implicitDefEqProofs only [QueuesFit.lit]
    | split
    | intro _
    | dsimp only
theorem takeService_fit (d : Dev) (op tag arg : Nat) (ws : List W64) (h0 : QueuesFit d) : QueuesFit (takeService d op tag arg ws) := by
  unfold takeService
  dsimp only
  split
  · exact setQueue_fit _ _ _ h0 (Fits.of (h0.queue 0) id (by show ((d.queueAt 0).words.drop _).length ≤ _; rw [List.length_drop]; omega) (Nat.le_refl _) rfl)
  · exact h0
theorem countOne_fit (d : Dev) (base : Nat) (cnt ovf : Fld) (h0 : QueuesFit d) : QueuesFit (countOne d base cnt ovf) := by
  unfold countOne
  repeat' first
    | with_reducible assumption
    | with_reducible apply on_fit
    | with_reducible apply p_fit
    | simp -implicitDefEqProofs only [QueuesFit.lit]
    | split
    | intro _
    | dsimp only
theorem countEvent_fit (d : Dev) (num : Nat) (h0 : QueuesFit d) : QueuesFit (countEvent d num) := by
  unfold countEvent
  repeat' first
    | with_reducible assumption
    | with_reducible apply countOne_fit
    | with_reducible apply each_fit
    | simp -implicitDefEqProofs only [QueuesFit.lit]
    | split
    | intro _
    | dsimp only
theorem lastGasp_fit (d : Dev) (num cls owner i0 i1 : Nat) (h0 : QueuesFit d) : QueuesFit (lastGasp d num cls owner i0 i1) := by
  unfold lastGasp
  repeat' first
    | with_reducible assumption
    | with_reducible apply add_fit
    | with_reducible apply p_fit
    | simp -implicitDefEqProofs only [QueuesFit.lit]
    | split
    | intro _
    | dsimp only
theorem logToQueue_fit (d : Dev) (e : LogEntry) (h0 : QueuesFit d) : QueuesFit (logToQueue d e) := by
  unfold logToQueue
  repeat' first
    | with_reducible assumption
    | with_reducible apply appendAll_fit
    | simp -implicitDefEqProofs only [QueuesFit.lit]
    | split
    | intro _
    | dsimp only
theorem logFail_fit (d : Dev) (i syn : Nat) (h0 : QueuesFit d) : QueuesFit (logFail d i syn) := by
  unfold logFail
  repeat' first
    | with_reducible assumption
    | with_reducible apply irq_fit
    | with_reducible apply lastGasp_fit
    | with_reducible apply on_fit
    | with_reducible apply raise_fit
    | simp -implicitDefEqProofs only [QueuesFit.lit]
    | split
    | intro _
    | dsimp only
theorem logCheck_fit (d : Dev) (i : Nat) (ws : List W64) (h0 : QueuesFit d) : QueuesFit (logCheck d i ws).1 := by
  unfold logCheck
  repeat' first
    | with_reducible assumption
    | with_reducible apply add_fit
    | simp -implicitDefEqProofs only [QueuesFit.lit]
    | split
    | intro _
    | dsimp only
theorem logPast_fit (d : Dev) (e : LogEntry) (h0 : QueuesFit d) : QueuesFit (logPast d e) := by
  unfold logPast
  repeat' first
    | with_reducible assumption
    | with_reducible apply iff_fit
    | with_reducible apply lastGasp_fit
    | with_reducible apply logToQueue_fit
    | simp -implicitDefEqProofs only [QueuesFit.lit]
    | split
    | intro _
    | dsimp only
theorem logPut_fit (d : Dev) (i : Nat) (e : LogEntry) (h0 : QueuesFit d) : QueuesFit (logPut d i e) := by
  unfold logPut
  repeat' first
    | with_reducible assumption
    | with_reducible apply add_fit
    | with_reducible apply iff_fit
    | with_reducible apply irq_fit
    | with_reducible apply logToQueue_fit
    | with_reducible apply on_fit
    | with_reducible apply p_fit
    | with_reducible apply raise_fit
    | simp -implicitDefEqProofs only [QueuesFit.lit]
    | split
    | intro _
    | dsimp only
theorem logEvent_fit (d : Dev) (ev : Ev) (h0 : QueuesFit d) : QueuesFit (logEvent d ev) := by
  unfold logEvent
  repeat' first
    | with_reducible assumption
    | with_reducible apply logCheck_fit
    | with_reducible apply logFail_fit
    | with_reducible apply logPast_fit
    | with_reducible apply logPut_fit
    | simp -implicitDefEqProofs only [QueuesFit.lit]
    | split
    | intro _
    | dsimp only
theorem mntRequest_fit (d : Dev) (id adds sparing : Nat) (retry : Bool) (h0 : QueuesFit d) : QueuesFit (mntRequest d id adds sparing retry).1 := by
  unfold mntRequest
  repeat' first
    | with_reducible assumption
    | with_reducible apply add_fit
    | with_reducible apply id_fit
    | with_reducible apply irq_fit
    | with_reducible apply p_fit
    | with_reducible apply raise_fit
    | simp -implicitDefEqProofs only [QueuesFit.lit]
    | split
    | intro _
    | dsimp only
theorem mntDrop_fit (d : Dev) (id : Nat) (h0 : QueuesFit d) : QueuesFit (mntDrop d id) := by
  unfold mntDrop
  repeat' first
    | with_reducible assumption
    | with_reducible apply id_fit
    | simp -implicitDefEqProofs only [QueuesFit.lit]
    | split
    | intro _
    | dsimp only
theorem integFail_fit (d : Dev) (r : Req) (a level : Nat) (write : Bool) (h0 : QueuesFit d) : QueuesFit (integFail d r a level write) := by
  unfold integFail
  repeat' first
    | with_reducible assumption
    | with_reducible apply add_fit
    | with_reducible apply irq_fit
    | with_reducible apply on_fit
    | with_reducible apply p_fit
    | with_reducible apply raise_fit
    | simp -implicitDefEqProofs only [QueuesFit.lit]
    | split
    | intro _
    | dsimp only
theorem wantRoll_fit (d : Dev) (cause : Nat) (h0 : QueuesFit d) : QueuesFit (wantRoll d cause) := by
  unfold wantRoll
  repeat' first
    | with_reducible assumption
    | with_reducible apply on_fit
    | with_reducible apply p_fit
    | simp -implicitDefEqProofs only [QueuesFit.lit]
    | split
    | intro _
    | dsimp only
theorem tryRoll_fit (d : Dev) (retry : Bool) (h0 : QueuesFit d) : QueuesFit (tryRoll d retry) := by
  unfold tryRoll
  repeat' first
    | with_reducible assumption
    | with_reducible apply mntRequest_fit
    | with_reducible apply on_fit
    | with_reducible apply p_fit
    | simp -implicitDefEqProofs only [QueuesFit.lit]
    | split
    | intro _
    | dsimp only
theorem scrubRequest_fit (d : Dev) (i : Nat) (retry : Bool) (h0 : QueuesFit d) : QueuesFit (scrubRequest d i retry) := by
  unfold scrubRequest
  repeat' first
    | with_reducible assumption
    | with_reducible apply id_fit
    | with_reducible apply mntRequest_fit
    | with_reducible apply p_fit
    | simp -implicitDefEqProofs only [QueuesFit.lit]
    | split
    | intro _
    | dsimp only
theorem retryPasses_fit (d : Dev) (h0 : QueuesFit d) : QueuesFit (retryPasses d) := by
  unfold retryPasses
  repeat' first
    | with_reducible assumption
    | with_reducible apply each_fit
    | with_reducible apply scrubRequest_fit
    | simp -implicitDefEqProofs only [QueuesFit.lit]
    | split
    | intro _
    | dsimp only
theorem retryWaits_fit (d : Dev) (h0 : QueuesFit d) : QueuesFit (retryWaits d) := by
  unfold retryWaits
  repeat' first
    | with_reducible assumption
    | with_reducible apply retryPasses_fit
    | with_reducible apply tryRoll_fit
    | simp -implicitDefEqProofs only [QueuesFit.lit]
    | split
    | intro _
    | dsimp only
theorem mntFree_fit (d : Dev) (id : Nat) (h0 : QueuesFit d) : QueuesFit (mntFree d id) := by
  unfold mntFree
  repeat' first
    | with_reducible assumption
    | with_reducible apply id_fit
    | with_reducible apply mntDrop_fit
    | with_reducible apply retryWaits_fit
    | simp -implicitDefEqProofs only [QueuesFit.lit]
    | split
    | intro _
    | dsimp only
theorem requestRoll_fit (d : Dev) (cause : Nat) (h0 : QueuesFit d) : QueuesFit (requestRoll d cause) := by
  unfold requestRoll
  repeat' first
    | with_reducible assumption
    | with_reducible apply tryRoll_fit
    | with_reducible apply wantRoll_fit
    | simp -implicitDefEqProofs only [QueuesFit.lit]
    | split
    | intro _
    | dsimp only
theorem countBlocks_fit (d : Dev) (n : Nat) (h0 : QueuesFit d) : QueuesFit (countBlocks d n) := by
  unfold countBlocks
  repeat' first
    | with_reducible assumption
    | with_reducible apply p_fit
    | with_reducible apply requestRoll_fit
    | simp -implicitDefEqProofs only [QueuesFit.lit]
    | split
    | intro _
    | dsimp only
theorem watchCtr_fit (d : Dev) (c : Nat) (h0 : QueuesFit d) : QueuesFit (watchCtr d c) := by
  unfold watchCtr
  repeat' first
    | with_reducible assumption
    | with_reducible apply requestRoll_fit
    | simp -implicitDefEqProofs only [QueuesFit.lit]
    | split
    | intro _
    | dsimp only
theorem metaMoved_fit (d : Dev) (level index : Nat) (h0 : QueuesFit d) : QueuesFit (metaMoved d level index) := by
  unfold metaMoved
  repeat' first
    | with_reducible assumption
    | with_reducible apply add_fit
    | simp -implicitDefEqProofs only [QueuesFit.lit]
    | split
    | intro _
    | dsimp only
theorem writeNode_fit (d : Dev) (node : Nat) (h0 : QueuesFit d) : QueuesFit (writeNode d node) := by
  unfold writeNode
  repeat' first
    | with_reducible assumption
    | with_reducible apply add_fit
    | with_reducible apply metaMoved_fit
    | with_reducible apply watchCtr_fit
    | simp -implicitDefEqProofs only [QueuesFit.lit]
    | split
    | intro _
    | dsimp only
theorem writeLeaf_fit (d : Dev) (line : Nat) (h0 : QueuesFit d) : QueuesFit (writeLeaf d line) := by
  unfold writeLeaf
  repeat' first
    | with_reducible assumption
    | with_reducible apply add_fit
    | with_reducible apply iff_fit
    | with_reducible apply integFail_fit
    | with_reducible apply metaMoved_fit
    | with_reducible apply watchCtr_fit
    | with_reducible apply writeNode_fit
    | simp -implicitDefEqProofs only [QueuesFit.lit]
    | split
    | intro _
    | dsimp only
theorem writeBack_fit (d : Dev) (level index : Nat) (h0 : QueuesFit d) : QueuesFit (writeBack d level index) := by
  unfold writeBack
  repeat' first
    | with_reducible assumption
    | with_reducible apply add_fit
    | with_reducible apply metaMoved_fit
    | with_reducible apply writeLeaf_fit
    | with_reducible apply writeNode_fit
    | simp -implicitDefEqProofs only [QueuesFit.lit]
    | split
    | intro _
    | dsimp only
theorem evict_fit (d : Dev) (q : Nat) (h0 : QueuesFit d) : QueuesFit (evict d q) := by
  unfold evict
  repeat' first
    | with_reducible assumption
    | with_reducible apply tick_fit
    | with_reducible apply writeBack_fit
    | with_reducible apply foldl_fit
    | with_reducible apply fold1_fit
    | simp -implicitDefEqProofs only [QueuesFit.lit]
    | split
    | intro _
    | dsimp only
theorem cacheLookup_fit (d : Dev) (level index : Nat) (dirty : Bool) (h0 : QueuesFit d) : QueuesFit (cacheLookup d level index dirty) := by
  unfold cacheLookup
  repeat' first
    | with_reducible assumption
    | with_reducible apply add_fit
    | with_reducible apply evict_fit
    | with_reducible apply iff_fit
    | with_reducible apply metaMoved_fit
    | simp -implicitDefEqProofs only [QueuesFit.lit]
    | split
    | intro _
    | dsimp only
theorem touchMeta_fit (d : Dev) (a n : Nat) (write : Bool) (h0 : QueuesFit d) : QueuesFit (touchMeta d a n write) := by
  unfold touchMeta
  repeat' first
    | with_reducible assumption
    | with_reducible apply cacheLookup_fit
    | with_reducible apply each_fit
    | with_reducible apply raise_fit
    | simp -implicitDefEqProofs only [QueuesFit.lit]
    | split
    | intro _
    | dsimp only
theorem stackCount_fit (d : Dev) (ce ue : List Nat) (h0 : QueuesFit d) : QueuesFit (stackCount d ce ue) := by
  unfold stackCount
  repeat' first
    | with_reducible assumption
    | with_reducible apply add_fit
    | with_reducible apply each_fit
    | with_reducible apply irq_fit
    | simp -implicitDefEqProofs only [QueuesFit.lit]
    | split
    | intro _
    | dsimp only
theorem stackFresh_fit (d : Dev) (lo hi : Nat) (h0 : QueuesFit d) : QueuesFit (stackFresh d lo hi) := by
  unfold stackFresh
  repeat' first
    | with_reducible assumption
    | simp -implicitDefEqProofs only [QueuesFit.lit]
    | split
    | intro _
    | dsimp only
theorem bumpCounter_fit (d : Dev) (sec : Nat) (h0 : QueuesFit d) : QueuesFit (bumpCounter d sec) := by
  unfold bumpCounter
  repeat' first
    | with_reducible assumption
    | with_reducible apply iff_fit
    | with_reducible apply stackFresh_fit
    | with_reducible apply watchCtr_fit
    | simp -implicitDefEqProofs only [QueuesFit.lit]
    | split
    | intro _
    | dsimp only
theorem hbmRefuse_fit (d : Dev) (r : Req) (a n : Nat) (write : Bool) (h0 : QueuesFit d) : QueuesFit (hbmRefuse d r a n write) := by
  unfold hbmRefuse
  repeat' first
    | with_reducible assumption
    | with_reducible apply add_fit
    | with_reducible apply iff_fit
    | with_reducible apply innerError_fit
    | simp -implicitDefEqProofs only [QueuesFit.lit]
    | split
    | intro _
    | dsimp only
theorem hbmRead_fit (d : Dev) (r : Req) (a n : Nat) (h0 : QueuesFit d) : QueuesFit (hbmRead d r a n).1 := by
  unfold hbmRead
  repeat' first
    | with_reducible assumption
    | with_reducible apply each_fit
    | with_reducible apply hbmRefuse_fit
    | with_reducible apply integFail_fit
    | with_reducible apply noRoute_fit
    | with_reducible apply stackCount_fit
    | with_reducible apply touchMeta_fit
    | simp -implicitDefEqProofs only [QueuesFit.lit]
    | split
    | intro _
    | dsimp only
theorem hbmWrite_fit (d : Dev) (r : Req) (a : Nat) (bs : List Byte) (h0 : QueuesFit d) : QueuesFit (hbmWrite d r a bs).1 := by
  unfold hbmWrite
  repeat' first
    | with_reducible assumption
    | with_reducible apply QueuesFit.put
    | with_reducible apply noRoute_fit
    | with_reducible apply hbmRefuse_fit
    | with_reducible apply integFail_fit
    | with_reducible apply stackCount_fit
    | with_reducible apply each_fit
    | with_reducible apply touchMeta_fit
    | with_reducible apply bumpCounter_fit
    | with_reducible apply stackFresh_fit
    | with_reducible apply countBlocks_fit
    | simp -implicitDefEqProofs only [QueuesFit.lit]
    | split
    | intro _
    | dsimp only
theorem hbmAnswer_fit (d : Dev) (r : Req) (a status : Nat) (h0 : QueuesFit d) : QueuesFit (hbmAnswer d r a status).1 := by
  unfold hbmAnswer
  repeat' first
    | with_reducible assumption
    | with_reducible apply timedOut_fit
    | simp -implicitDefEqProofs only [QueuesFit.lit]
    | split
    | intro _
    | dsimp only
theorem hbmFetch_fit (d : Dev) (r : Req) (a n : Nat) (h0 : QueuesFit d) : QueuesFit (hbmFetch d r a n).1 := by
  unfold hbmFetch
  repeat' first
    | with_reducible assumption
    | with_reducible apply hbmAnswer_fit
    | with_reducible apply hbmRead_fit
    | simp -implicitDefEqProofs only [QueuesFit.lit]
    | split
    | intro _
    | dsimp only
theorem hbmSend_fit (d : Dev) (r : Req) (a : Nat) (bs : List Byte) (h0 : QueuesFit d) : QueuesFit (hbmSend d r a bs).1 := by
  unfold hbmSend
  repeat' first
    | with_reducible assumption
    | with_reducible apply hbmAnswer_fit
    | with_reducible apply hbmWrite_fit
    | simp -implicitDefEqProofs only [QueuesFit.lit]
    | split
    | intro _
    | dsimp only
theorem hbmGet_fit (d : Dev) (r : Req) (a n : Nat) (h0 : QueuesFit d) : QueuesFit (hbmGet d r a n).1 := by
  unfold hbmGet
  repeat' first
    | with_reducible assumption
    | with_reducible apply hbmFetch_fit
    | with_reducible apply foldl_fit
    | with_reducible apply fold1_fit
    | simp -implicitDefEqProofs only [QueuesFit.lit]
    | split
    | intro _
    | dsimp only
theorem hbmStore_fit (d : Dev) (r : Req) (a : Nat) (bs : List Byte) (h0 : QueuesFit d) : QueuesFit (hbmStore d r a bs).1 := by
  unfold hbmStore
  repeat' first
    | with_reducible assumption
    | with_reducible apply hbmSend_fit
    | with_reducible apply foldl_fit
    | with_reducible apply fold1_fit
    | simp -implicitDefEqProofs only [QueuesFit.lit]
    | split
    | intro _
    | dsimp only
theorem hbmPut_fit (d : Dev) (r : Req) (a : Nat) (bs : List Byte) (h0 : QueuesFit d) : QueuesFit (hbmPut d r a bs) := by
  unfold hbmPut
  repeat' first
    | with_reducible assumption
    | with_reducible apply hbmStore_fit
    | simp -implicitDefEqProofs only [QueuesFit.lit]
    | split
    | intro _
    | dsimp only
theorem zeroRange_fit (d : Dev) (r : Req) (a n : Nat) (h0 : QueuesFit d) : QueuesFit (zeroRange d r a n) := by
  unfold zeroRange
  repeat' first
    | with_reducible assumption
    | with_reducible apply each_fit
    | with_reducible apply hbmSend_fit
    | simp -implicitDefEqProofs only [QueuesFit.lit]
    | split
    | intro _
    | dsimp only
theorem pauseRoll_fit (d : Dev) (snap : Bool) (h0 : QueuesFit d) : QueuesFit (pauseRoll d snap) := by
  unfold pauseRoll
  repeat' first
    | with_reducible assumption
    | with_reducible apply irq_fit
    | with_reducible apply on_fit
    | with_reducible apply p_fit
    | simp -implicitDefEqProofs only [QueuesFit.lit]
    | split
    | intro _
    | dsimp only
theorem passTree_fit (d : Dev) (lo hi : Nat) (h0 : QueuesFit d) : QueuesFit (passTree d lo hi) := by
  unfold passTree
  repeat' first
    | with_reducible assumption
    | with_reducible apply foldl_fit
    | with_reducible apply fold1_fit
    | simp -implicitDefEqProofs only [QueuesFit.lit]
    | split
    | intro _
    | dsimp only
theorem setBoundary_fit (d : Dev) (b : Nat) (h0 : QueuesFit d) : QueuesFit (setBoundary d b) := by
  unfold setBoundary
  repeat' first
    | with_reducible assumption
    | with_reducible apply p_fit
    | with_reducible apply passTree_fit
    | simp -implicitDefEqProofs only [QueuesFit.lit]
    | split
    | intro _
    | dsimp only
theorem endRoll_fit (d : Dev) (h0 : QueuesFit d) : QueuesFit (endRoll d) := by
  unfold endRoll
  repeat' first
    | with_reducible assumption
    | with_reducible apply add_fit
    | with_reducible apply irq_fit
    | with_reducible apply mntFree_fit
    | with_reducible apply p_fit
    | with_reducible apply raise_fit
    | with_reducible apply requestRoll_fit
    | with_reducible apply setBoundary_fit
    | simp -implicitDefEqProofs only [QueuesFit.lit]
    | split
    | intro _
    | dsimp only
theorem setCounter_fit (d : Dev) (sec c : Nat) (h0 : QueuesFit d) : QueuesFit (setCounter d sec c) := by
  unfold setCounter
  repeat' first
    | with_reducible assumption
    | simp -implicitDefEqProofs only [QueuesFit.lit]
    | split
    | intro _
    | dsimp only
theorem convertSector_fit (d : Dev) (sec : Nat) (h0 : QueuesFit d) : QueuesFit (convertSector d sec) := by
  unfold convertSector
  repeat' first
    | with_reducible assumption
    | with_reducible apply QueuesFit.del
    | with_reducible apply integFail_fit
    | with_reducible apply stackCount_fit
    | with_reducible apply setCounter_fit
    | with_reducible apply setBoundary_fit
    | with_reducible apply touchMeta_fit
    | with_reducible apply stackFresh_fit
    | with_reducible apply countBlocks_fit
    | simp -implicitDefEqProofs only [QueuesFit.lit]
    | split
    | intro _
    | dsimp only
theorem lineOut_fit (d : Dev) (gi l : Nat) (bits : List Bool) (h0 : QueuesFit d) : QueuesFit (lineOut d gi l bits) := by
  unfold lineOut
  repeat' first
    | with_reducible assumption
    | with_reducible apply emit_fit
    | with_reducible apply modLink_fit
    | simp -implicitDefEqProofs only [QueuesFit.lit]
    | split
    | intro _
    | dsimp only
theorem sendFlit_fit (d : Dev) (gi : Nat) (flit : BitVec 320) (h0 : QueuesFit d) : QueuesFit (sendFlit d gi flit) := by
  unfold sendFlit
  repeat' first
    | with_reducible assumption
    | with_reducible apply emit_fit
    | with_reducible apply modLink_fit
    | simp -implicitDefEqProofs only [QueuesFit.lit]
    | split
    | intro _
    | dsimp only
theorem control_fit (d : Dev) (gi kind body : Nat) (h0 : QueuesFit d) : QueuesFit (control d gi kind body) := by
  unfold control
  repeat' first
    | with_reducible assumption
    | with_reducible apply emit_fit
    | with_reducible apply modLink_fit
    | simp -implicitDefEqProofs only [QueuesFit.lit]
    | split
    | intro _
    | dsimp only
theorem controlAll_fit (d : Dev) (kind body : Nat) (h0 : QueuesFit d) : QueuesFit (controlAll d kind body) := by
  unfold controlAll
  repeat' first
    | with_reducible assumption
    | with_reducible apply control_fit
    | with_reducible apply each_fit
    | simp -implicitDefEqProofs only [QueuesFit.lit]
    | split
    | intro _
    | dsimp only
theorem ringOut_fit (d : Dev) (kind dest src n ttl : Nat) (payload : List Byte) (h0 : QueuesFit d) : QueuesFit (ringOut d kind dest src n ttl payload) := by
  unfold ringOut
  repeat' first
    | with_reducible assumption
    | with_reducible apply emit_fit
    | simp -implicitDefEqProofs only [QueuesFit.lit]
    | split
    | intro _
    | dsimp only
theorem ringSend_fit (d : Dev) (kind dest : Nat) (payload : List Byte) (h0 : QueuesFit d) : QueuesFit (ringSend d kind dest payload) := by
  unfold ringSend
  repeat' first
    | with_reducible assumption
    | with_reducible apply ringOut_fit
    | simp -implicitDefEqProofs only [QueuesFit.lit]
    | split
    | intro _
    | dsimp only
theorem controlPtn_fit (d : Dev) (i kind body : Nat) (h0 : QueuesFit d) : QueuesFit (controlPtn d i kind body) := by
  unfold controlPtn
  repeat' first
    | with_reducible assumption
    | with_reducible apply control_fit
    | with_reducible apply each_fit
    | simp -implicitDefEqProofs only [QueuesFit.lit]
    | split
    | intro _
    | dsimp only
theorem freezeReq_fit (d : Dev) (i cause : Nat) (h0 : QueuesFit d) : QueuesFit (freezeReq d i cause) := by
  unfold freezeReq
  repeat' first
    | with_reducible assumption
    | with_reducible apply controlPtn_fit
    | with_reducible apply on_fit
    | with_reducible apply setPtn_fit
    | simp -implicitDefEqProofs only [QueuesFit.lit]
    | split
    | intro _
    | dsimp only
theorem sysFreezeHere_fit (d : Dev) (h0 : QueuesFit d) : QueuesFit (sysFreezeHere d) := by
  unfold sysFreezeHere
  repeat' first
    | with_reducible assumption
    | with_reducible apply each_fit
    | with_reducible apply freezeReq_fit
    | simp -implicitDefEqProofs only [QueuesFit.lit]
    | split
    | intro _
    | dsimp only
theorem floodFreeze_fit (d : Dev) (origin n : Nat) (toRing : Bool) (h0 : QueuesFit d) : QueuesFit (floodFreeze d origin n toRing) := by
  unfold floodFreeze
  repeat' first
    | with_reducible assumption
    | with_reducible apply controlAll_fit
    | with_reducible apply on_fit
    | with_reducible apply p_fit
    | with_reducible apply raise_fit
    | with_reducible apply ringSend_fit
    | with_reducible apply sysFreezeHere_fit
    | simp -implicitDefEqProofs only [QueuesFit.lit]
    | split
    | intro _
    | dsimp only
theorem raiseSysFreeze_fit (d : Dev) (h0 : QueuesFit d) : QueuesFit (raiseSysFreeze d) := by
  unfold raiseSysFreeze
  repeat' first
    | with_reducible assumption
    | with_reducible apply floodFreeze_fit
    | simp -implicitDefEqProofs only [QueuesFit.lit]
    | split
    | intro _
    | dsimp only
theorem strobeReq_fit (d : Dev) (src : Nat) (h0 : QueuesFit d) : QueuesFit (strobeReq d src) := by
  unfold strobeReq
  repeat' first
    | with_reducible assumption
    | with_reducible apply on_fit
    | with_reducible apply ringSend_fit
    | simp -implicitDefEqProofs only [QueuesFit.lit]
    | split
    | intro _
    | dsimp only
theorem upstreamLoss_fit (d : Dev) (gi : Nat) (h0 : QueuesFit d) : QueuesFit (upstreamLoss d gi) := by
  unfold upstreamLoss
  repeat' first
    | with_reducible assumption
    | with_reducible apply add_fit
    | with_reducible apply on_fit
    | with_reducible apply p_fit
    | with_reducible apply raiseSysFreeze_fit
    | simp -implicitDefEqProofs only [QueuesFit.lit]
    | split
    | intro _
    | dsimp only
theorem slotErr_fit (d : Dev) (h0 : QueuesFit d) : QueuesFit (slotErr d) := by
  unfold slotErr
  repeat' first
    | with_reducible assumption
    | with_reducible apply on_fit
    | with_reducible apply raiseSysFreeze_fit
    | simp -implicitDefEqProofs only [QueuesFit.lit]
    | split
    | intro _
    | dsimp only
theorem ctlBad_fit (d : Dev) (gi : Nat) (h0 : QueuesFit d) : QueuesFit (ctlBad d gi) := by
  unfold ctlBad
  repeat' first
    | with_reducible assumption
    | with_reducible apply add_fit
    | with_reducible apply slotErr_fit
    | simp -implicitDefEqProofs only [QueuesFit.lit]
    | split
    | intro _
    | dsimp only
theorem cutBlock_fit (d : Dev) (ch : Nat) (h0 : QueuesFit d) : QueuesFit (cutBlock d ch) := by
  unfold cutBlock
  repeat' first
    | with_reducible assumption
    | with_reducible apply setChan_fit
    | simp -implicitDefEqProofs only [QueuesFit.lit]
    | split
    | intro _
    | dsimp only
theorem cutBlocks_fit (m : Nat) (d : Dev) (ch : Nat) (h0 : QueuesFit d) : QueuesFit (cutBlocks m d ch) := by
  induction m generalizing d with
  | zero => exact h0
  | succ m ih =>
    unfold cutBlocks
    repeat' first
      | with_reducible assumption
      | with_reducible apply ih
      | with_reducible apply cutBlock_fit
      | simp -implicitDefEqProofs only [QueuesFit.lit]
      | split
      | intro _
      | dsimp only
theorem capBytes_fit (d : Dev) (ch : Nat) (bs : List Byte) (cyc : Nat) (ovf : Bool) (h0 : QueuesFit d) : QueuesFit (capBytes d ch bs cyc ovf) := by
  unfold capBytes
  repeat' first
    | with_reducible assumption
    | simp -implicitDefEqProofs only [QueuesFit.lit]
    | split
    | intro _
    | dsimp only
theorem capFlush_fit (d : Dev) (h0 : QueuesFit d) : QueuesFit (capFlush d) := by
  unfold capFlush
  repeat' first
    | with_reducible assumption
    | with_reducible apply cutBlocks_fit
    | with_reducible apply each_fit
    | with_reducible apply setChan_fit
    | simp -implicitDefEqProofs only [QueuesFit.lit]
    | split
    | intro _
    | dsimp only
theorem capLost_fit (d : Dev) (ch : Nat) (h0 : QueuesFit d) : QueuesFit (capLost d ch) := by
  unfold capLost
  repeat' first
    | with_reducible assumption
    | with_reducible apply modChan_fit
    | simp -implicitDefEqProofs only [QueuesFit.lit]
    | split
    | intro _
    | dsimp only
theorem laneRows_fit (m : Nat) (d : Dev) (ch : Nat) (h0 : QueuesFit d) : QueuesFit (laneRows m d ch) := by
  induction m generalizing d with
  | zero => exact h0
  | succ m ih =>
    unfold laneRows
    repeat' first
      | with_reducible assumption
      | with_reducible apply ih
      | with_reducible apply capBytes_fit
      | with_reducible apply modChan_fit
      | simp -implicitDefEqProofs only [QueuesFit.lit]
      | split
      | intro _
      | dsimp only
theorem capLine_fit (d : Dev) (gi l : Nat) (transmit decoded : Bool) (bits : List Bool) (h0 : QueuesFit d) : QueuesFit (capLine d gi l transmit decoded bits) := by
  unfold capLine
  repeat' first
    | with_reducible assumption
    | with_reducible apply each_fit
    | with_reducible apply laneRows_fit
    | with_reducible apply modChan_fit
    | simp -implicitDefEqProofs only [QueuesFit.lit]
    | split
    | intro _
    | dsimp only
theorem capDark_fit (d : Dev) (h0 : QueuesFit d) : QueuesFit (capDark d) := by
  unfold capDark
  repeat' first
    | with_reducible assumption
    | with_reducible apply each_fit
    | with_reducible apply modChan_fit
    | with_reducible apply foldl_fit
    | with_reducible apply fold1_fit
    | simp -implicitDefEqProofs only [QueuesFit.lit]
    | split
    | intro _
    | dsimp only
theorem writeEntry_fit (d : Dev) (c ch fl : Nat) (h0 : QueuesFit d) : QueuesFit (writeEntry d c ch fl) := by
  unfold writeEntry
  repeat' first
    | with_reducible assumption
    | with_reducible apply hbmPut_fit
    | simp -implicitDefEqProofs only [QueuesFit.lit]
    | split
    | intro _
    | dsimp only
theorem clearEntries_fit (d : Dev) (c : Nat) (h0 : QueuesFit d) : QueuesFit (clearEntries d c) := by
  unfold clearEntries
  repeat' first
    | with_reducible assumption
    | with_reducible apply each_fit
    | with_reducible apply hbmGet_fit
    | with_reducible apply hbmPut_fit
    | simp -implicitDefEqProofs only [QueuesFit.lit]
    | split
    | intro _
    | dsimp only
theorem beginCapture_fit (d : Dev) (c : Nat) (h0 : QueuesFit d) : QueuesFit (beginCapture d c) := by
  unfold beginCapture
  repeat' first
    | with_reducible assumption
    | with_reducible apply clearEntries_fit
    | with_reducible apply each_fit
    | with_reducible apply p_fit
    | with_reducible apply reset_fit
    | with_reducible apply setChan_fit
    | simp -implicitDefEqProofs only [QueuesFit.lit]
    | split
    | intro _
    | dsimp only
theorem drivePin_fit (d : Dev) (j : Nat) (active : Bool) (h0 : QueuesFit d) : QueuesFit (drivePin d j active) := by
  unfold drivePin
  repeat' first
    | with_reducible assumption
    | with_reducible apply emit_fit
    | with_reducible apply p_fit
    | simp -implicitDefEqProofs only [QueuesFit.lit]
    | split
    | intro _
    | dsimp only
theorem levelPins_fit (d : Dev) (c : Nat) (h0 : QueuesFit d) : QueuesFit (levelPins d c) := by
  unfold levelPins
  repeat' first
    | with_reducible assumption
    | with_reducible apply drivePin_fit
    | with_reducible apply each_fit
    | simp -implicitDefEqProofs only [QueuesFit.lit]
    | split
    | intro _
    | dsimp only
theorem capIdle_fit (d : Dev) (c : Nat) (h0 : QueuesFit d) : QueuesFit (capIdle d c) := by
  unfold capIdle
  repeat' first
    | with_reducible assumption
    | with_reducible apply each_fit
    | with_reducible apply levelPins_fit
    | with_reducible apply modChan_fit
    | with_reducible apply p_fit
    | simp -implicitDefEqProofs only [QueuesFit.lit]
    | split
    | intro _
    | dsimp only
theorem trig_fit (d : Dev) (c : Nat) (h0 : QueuesFit d) : QueuesFit (trig d c) := by
  unfold trig
  repeat' first
    | with_reducible assumption
    | with_reducible apply add_fit
    | with_reducible apply each_fit
    | with_reducible apply levelPins_fit
    | with_reducible apply modChan_fit
    | with_reducible apply p_fit
    | simp -implicitDefEqProofs only [QueuesFit.lit]
    | split
    | intro _
    | dsimp only
theorem capDone_fit (d : Dev) (c : Nat) (h0 : QueuesFit d) : QueuesFit (capDone d c) := by
  unfold capDone
  repeat' first
    | with_reducible assumption
    | with_reducible apply add_fit
    | with_reducible apply irq_fit
    | with_reducible apply on_fit
    | simp -implicitDefEqProofs only [QueuesFit.lit]
    | split
    | intro _
    | dsimp only
theorem capFinish_fit (d : Dev) (c : Nat) (h0 : QueuesFit d) : QueuesFit (capFinish d c) := by
  unfold capFinish
  repeat' first
    | with_reducible assumption
    | with_reducible apply capDone_fit
    | with_reducible apply capIdle_fit
    | with_reducible apply levelPins_fit
    | with_reducible apply p_fit
    | simp -implicitDefEqProofs only [QueuesFit.lit]
    | split
    | intro _
    | dsimp only
theorem chanComplete_fit (d : Dev) (ch : Nat) (h0 : QueuesFit d) : QueuesFit (chanComplete d ch) := by
  unfold chanComplete
  repeat' first
    | with_reducible assumption
    | with_reducible apply capFinish_fit
    | with_reducible apply cutBlock_fit
    | with_reducible apply modChan_fit
    | with_reducible apply writeEntry_fit
    | simp -implicitDefEqProofs only [QueuesFit.lit]
    | split
    | intro _
    | dsimp only
theorem capEvent_fit (d : Dev) (k x : Nat) (h0 : QueuesFit d) : QueuesFit (capEvent d k x) := by
  unfold capEvent
  repeat' first
    | with_reducible assumption
    | with_reducible apply capBytes_fit
    | with_reducible apply capLost_fit
    | with_reducible apply each_fit
    | with_reducible apply setChan_fit
    | simp -implicitDefEqProofs only [QueuesFit.lit]
    | split
    | intro _
    | dsimp only
theorem capWord_fit (d : Dev) (n t w v cyc : Nat) (wide : Bool) (h0 : QueuesFit d) : QueuesFit (capWord d n t w v cyc wide) := by
  unfold capWord
  repeat' first
    | with_reducible assumption
    | with_reducible apply capBytes_fit
    | with_reducible apply each_fit
    | with_reducible apply modChan_fit
    | simp -implicitDefEqProofs only [QueuesFit.lit]
    | split
    | intro _
    | dsimp only
theorem capDiscont_fit (d : Dev) (kind : Nat) (h0 : QueuesFit d) : QueuesFit (capDiscont d kind) := by
  unfold capDiscont
  repeat' first
    | with_reducible assumption
    | with_reducible apply each_fit
    | with_reducible apply modChan_fit
    | simp -implicitDefEqProofs only [QueuesFit.lit]
    | split
    | intro _
    | dsimp only
theorem setChanOwner_fit (d : Dev) (ch owner : Nat) (h0 : QueuesFit d) : QueuesFit (setChanOwner d ch owner) := by
  unfold setChanOwner
  repeat' first
    | with_reducible assumption
    | with_reducible apply modChan_fit
    | with_reducible apply p_fit
    | simp -implicitDefEqProofs only [QueuesFit.lit]
    | split
    | intro _
    | dsimp only
theorem traceIrq_fit (d : Dev) (s : Nat) (h0 : QueuesFit d) : QueuesFit (traceIrq d s) := by
  unfold traceIrq
  repeat' first
    | with_reducible assumption
    | with_reducible apply irq_fit
    | simp -implicitDefEqProofs only [QueuesFit.lit]
    | split
    | intro _
    | dsimp only
theorem noteLoss_fit (d : Dev) (s : Nat) (h0 : QueuesFit d) : QueuesFit (noteLoss d s) := by
  unfold noteLoss
  repeat' first
    | with_reducible assumption
    | with_reducible apply modStrm_fit
    | simp -implicitDefEqProofs only [QueuesFit.lit]
    | split
    | intro _
    | dsimp only
theorem loseBlock_fit (d : Dev) (s cls : Nat) (recs : List (List Byte)) (h0 : QueuesFit d) : QueuesFit (loseBlock d s cls recs) := by
  unfold loseBlock
  repeat' first
    | with_reducible assumption
    | with_reducible apply add_fit
    | with_reducible apply each_fit
    | with_reducible apply noteLoss_fit
    | with_reducible apply raise_fit
    | with_reducible apply traceIrq_fit
    | simp -implicitDefEqProofs only [QueuesFit.lit]
    | split
    | intro _
    | dsimp only
theorem acceptBlock_fit (d : Dev) (s cls first : Nat) (recs : List (List Byte)) (h0 : QueuesFit d) : QueuesFit (acceptBlock d s cls first recs) := by
  unfold acceptBlock
  repeat' first
    | with_reducible assumption
    | with_reducible apply loseBlock_fit
    | with_reducible apply setStrm_fit
    | simp -implicitDefEqProofs only [QueuesFit.lit]
    | split
    | intro _
    | dsimp only
theorem closeBlock_fit (d : Dev) (s : Nat) (h0 : QueuesFit d) : QueuesFit (closeBlock d s) := by
  unfold closeBlock
  repeat' first
    | with_reducible assumption
    | with_reducible apply acceptBlock_fit
    | with_reducible apply loseBlock_fit
    | with_reducible apply modStrm_fit
    | with_reducible apply setStrm_fit
    | with_reducible apply tick_fit
    | simp -implicitDefEqProofs only [QueuesFit.lit]
    | split
    | intro _
    | dsimp only
theorem putRec_fit (d : Dev) (s cls : Nat) (r : List Byte) (h0 : QueuesFit d) : QueuesFit (putRec d s cls r) := by
  unfold putRec
  repeat' first
    | with_reducible assumption
    | with_reducible apply closeBlock_fit
    | with_reducible apply setStrm_fit
    | simp -implicitDefEqProofs only [QueuesFit.lit]
    | split
    | intro _
    | dsimp only
theorem beginAfterLoss_fit (d : Dev) (s : Nat) (h0 : QueuesFit d) : QueuesFit (beginAfterLoss d s) := by
  unfold beginAfterLoss
  repeat' first
    | with_reducible assumption
    | with_reducible apply setStrm_fit
    | with_reducible apply tick_fit
    | simp -implicitDefEqProofs only [QueuesFit.lit]
    | split
    | intro _
    | dsimp only
theorem addRec_fit (d : Dev) (s cls : Nat) (r : List Byte) (h0 : QueuesFit d) : QueuesFit (addRec d s cls r) := by
  unfold addRec
  repeat' first
    | with_reducible assumption
    | with_reducible apply beginAfterLoss_fit
    | with_reducible apply closeBlock_fit
    | with_reducible apply putRec_fit
    | simp -implicitDefEqProofs only [QueuesFit.lit]
    | split
    | intro _
    | dsimp only
theorem flushRepeat_fit (d : Dev) (s : Nat) (h0 : QueuesFit d) : QueuesFit (flushRepeat d s) := by
  unfold flushRepeat
  repeat' first
    | with_reducible assumption
    | with_reducible apply addRec_fit
    | with_reducible apply setStrm_fit
    | simp -implicitDefEqProofs only [QueuesFit.lit]
    | split
    | intro _
    | dsimp only
theorem addSync_fit (d : Dev) (s : Nat) (h0 : QueuesFit d) : QueuesFit (addSync d s) := by
  unfold addSync
  repeat' first
    | with_reducible assumption
    | with_reducible apply addRec_fit
    | with_reducible apply flushRepeat_fit
    | with_reducible apply tick_fit
    | simp -implicitDefEqProofs only [QueuesFit.lit]
    | split
    | intro _
    | dsimp only
theorem setOn_fit (d : Dev) (s : Nat) (v : Bool) (h0 : QueuesFit d) : QueuesFit (setOn d s v) := by
  unfold setOn
  repeat' first
    | with_reducible assumption
    | with_reducible apply flushRepeat_fit
    | with_reducible apply p_fit
    | simp -implicitDefEqProofs only [QueuesFit.lit]
    | split
    | intro _
    | dsimp only
theorem stopStream_fit (d : Dev) (s : Nat) (h0 : QueuesFit d) : QueuesFit (stopStream d s) := by
  unfold stopStream
  repeat' first
    | with_reducible assumption
    | with_reducible apply closeBlock_fit
    | with_reducible apply modStrm_fit
    | with_reducible apply setOn_fit
    | simp -implicitDefEqProofs only [QueuesFit.lit]
    | split
    | intro _
    | dsimp only
theorem addMark_fit (d : Dev) (s how before after v : Nat) (h0 : QueuesFit d) : QueuesFit (addMark d s how before after v) := by
  unfold addMark
  repeat' first
    | with_reducible assumption
    | with_reducible apply addRec_fit
    | with_reducible apply tick_fit
    | simp -implicitDefEqProofs only [QueuesFit.lit]
    | split
    | intro _
    | dsimp only
theorem fireSlot_fit (d : Dev) (s j t : Nat) (h0 : QueuesFit d) : QueuesFit (fireSlot d s j t) := by
  unfold fireSlot
  repeat' first
    | with_reducible assumption
    | with_reducible apply addMark_fit
    | with_reducible apply p_fit
    | with_reducible apply setOn_fit
    | simp -implicitDefEqProofs only [QueuesFit.lit]
    | split
    | intro _
    | dsimp only
theorem countHits_fit (d : Dev) (s : Nat) (hits : List Nat) (h0 : QueuesFit d) : QueuesFit (countHits d s hits) := by
  unfold countHits
  repeat' first
    | with_reducible assumption
    | with_reducible apply add_fit
    | simp -implicitDefEqProofs only [QueuesFit.lit]
    | split
    | intro _
    | dsimp only
theorem runMachine_fit (d : Dev) (s : Nat) (hits : List Nat) (h0 : QueuesFit d) : QueuesFit (runMachine d s hits) := by
  unfold runMachine
  repeat' first
    | with_reducible assumption
    | with_reducible apply countHits_fit
    | with_reducible apply fireSlot_fit
    | simp -implicitDefEqProofs only [QueuesFit.lit]
    | split
    | intro _
    | dsimp only
theorem runMachines_fit (d : Dev) (h0 : QueuesFit d) : QueuesFit (runMachines d) := by
  unfold runMachines
  repeat' first
    | with_reducible assumption
    | with_reducible apply each_fit
    | with_reducible apply runMachine_fit
    | simp -implicitDefEqProofs only [QueuesFit.lit]
    | split
    | intro _
    | dsimp only
theorem endMachines_fit (d : Dev) (h0 : QueuesFit d) : QueuesFit (endMachines d) := by
  unfold endMachines
  repeat' first
    | with_reducible assumption
    | simp -implicitDefEqProofs only [QueuesFit.lit]
    | split
    | intro _
    | dsimp only
theorem countCycle_fit (d : Dev) (i : Nat) (h0 : QueuesFit d) : QueuesFit (countCycle d i) := by
  unfold countCycle
  repeat' first
    | with_reducible assumption
    | with_reducible apply add_fit
    | simp -implicitDefEqProofs only [QueuesFit.lit]
    | split
    | intro _
    | dsimp only
theorem addData_fit (d : Dev) (s n cyc : Nat) (taps : List Tap) (h0 : QueuesFit d) : QueuesFit (addData d s n cyc taps) := by
  unfold addData
  repeat' first
    | with_reducible assumption
    | with_reducible apply addRec_fit
    | with_reducible apply each_fit
    | simp -implicitDefEqProofs only [QueuesFit.lit]
    | split
    | intro _
    | dsimp only
theorem addCycle_fit (d : Dev) (s passes steps es segs flags cyc etime : Nat) (h0 : QueuesFit d) : QueuesFit (addCycle d s passes steps es segs flags cyc etime) := by
  unfold addCycle
  repeat' first
    | with_reducible assumption
    | with_reducible apply addRec_fit
    | with_reducible apply flushRepeat_fit
    | with_reducible apply modStrm_fit
    | with_reducible apply setStrm_fit
    | simp -implicitDefEqProofs only [QueuesFit.lit]
    | split
    | intro _
    | dsimp only
theorem setAuthMode_fit (d : Dev) (h0 : QueuesFit d) : QueuesFit (setAuthMode d) := by
  unfold setAuthMode
  repeat' first
    | with_reducible assumption
    | with_reducible apply p_fit
    | simp -implicitDefEqProofs only [QueuesFit.lit]
    | split
    | intro _
    | dsimp only
theorem traceCycle_fit (d : Dev) (i passes steps es segs flags : Nat) (taps : List Tap) (h0 : QueuesFit d) : QueuesFit (traceCycle d i passes steps es segs flags taps) := by
  unfold traceCycle
  repeat' first
    | with_reducible assumption
    | with_reducible apply addCycle_fit
    | with_reducible apply addData_fit
    | with_reducible apply each_fit
    | simp -implicitDefEqProofs only [QueuesFit.lit]
    | split
    | intro _
    | dsimp only
theorem denySources_fit (d : Dev) (s : Nat) (mark : Fld) (h0 : QueuesFit d) : QueuesFit (denySources d s mark) := by
  unfold denySources
  repeat' first
    | with_reducible assumption
    | with_reducible apply each_fit
    | with_reducible apply on_fit
    | with_reducible apply p_fit
    | simp -implicitDefEqProofs only [QueuesFit.lit]
    | split
    | intro _
    | dsimp only
theorem applyRights_fit (d : Dev) (h0 : QueuesFit d) : QueuesFit (applyRights d) := by
  unfold applyRights
  repeat' first
    | with_reducible assumption
    | with_reducible apply denySources_fit
    | with_reducible apply each_fit
    | with_reducible apply on_fit
    | with_reducible apply setAuthMode_fit
    | with_reducible apply stopStream_fit
    | with_reducible apply traceIrq_fit
    | simp -implicitDefEqProofs only [QueuesFit.lit]
    | split
    | intro _
    | dsimp only
theorem endToken_fit (d : Dev) (h0 : QueuesFit d) : QueuesFit (endToken d) := by
  unfold endToken
  repeat' first
    | with_reducible assumption
    | with_reducible apply applyRights_fit
    | with_reducible apply p_fit
    | simp -implicitDefEqProofs only [QueuesFit.lit]
    | split
    | intro _
    | dsimp only
theorem enableStream_fit (d : Dev) (s : Nat) (h0 : QueuesFit d) : QueuesFit (enableStream d s) := by
  unfold enableStream
  repeat' first
    | with_reducible assumption
    | with_reducible apply addSync_fit
    | with_reducible apply denySources_fit
    | with_reducible apply on_fit
    | with_reducible apply p_fit
    | with_reducible apply reset_fit
    | with_reducible apply setStrm_fit
    | simp -implicitDefEqProofs only [QueuesFit.lit]
    | split
    | intro _
    | dsimp only
theorem disableStream_fit (d : Dev) (s : Nat) (h0 : QueuesFit d) : QueuesFit (disableStream d s) := by
  unfold disableStream
  repeat' first
    | with_reducible assumption
    | with_reducible apply p_fit
    | with_reducible apply stopStream_fit
    | simp -implicitDefEqProofs only [QueuesFit.lit]
    | split
    | intro _
    | dsimp only
theorem traceWarden_fit (d : Dev) (h0 : QueuesFit d) : QueuesFit (traceWarden d) := by
  unfold traceWarden
  repeat' first
    | with_reducible assumption
    | with_reducible apply addRec_fit
    | simp -implicitDefEqProofs only [QueuesFit.lit]
    | split
    | intro _
    | dsimp only
theorem tracePup_fit (d : Dev) (c kind : Nat) (h0 : QueuesFit d) : QueuesFit (tracePup d c kind) := by
  unfold tracePup
  repeat' first
    | with_reducible assumption
    | with_reducible apply addRec_fit
    | with_reducible apply tick_fit
    | simp -implicitDefEqProofs only [QueuesFit.lit]
    | split
    | intro _
    | dsimp only
theorem pupStep_fit (d : Dev) (h0 : QueuesFit d) : QueuesFit (pupStep d) := by
  unfold pupStep
  repeat' first
    | with_reducible assumption
    | with_reducible apply each_fit
    | with_reducible apply tracePup_fit
    | simp -implicitDefEqProofs only [QueuesFit.lit]
    | split
    | intro _
    | dsimp only
theorem traceProbe_fit (d : Dev) (devlvl : Bool) (r : List Byte) (h0 : QueuesFit d) : QueuesFit (traceProbe d devlvl r) := by
  unfold traceProbe
  repeat' first
    | with_reducible assumption
    | with_reducible apply addRec_fit
    | simp -implicitDefEqProofs only [QueuesFit.lit]
    | split
    | intro _
    | dsimp only
theorem discont_fit (d : Dev) (kind : Nat) (h0 : QueuesFit d) : QueuesFit (discont d kind) := by
  unfold discont
  repeat' first
    | with_reducible assumption
    | with_reducible apply addRec_fit
    | with_reducible apply addSync_fit
    | with_reducible apply capDiscont_fit
    | with_reducible apply each_fit
    | with_reducible apply flushRepeat_fit
    | with_reducible apply raise_fit
    | simp -implicitDefEqProofs only [QueuesFit.lit]
    | split
    | intro _
    | dsimp only
theorem addActs_fit (d : Dev) (owner bits : Nat) (h0 : QueuesFit d) : QueuesFit (addActs d owner bits) := by
  unfold addActs
  repeat' first
    | with_reducible assumption
    | simp -implicitDefEqProofs only [QueuesFit.lit]
    | split
    | intro _
    | dsimp only
theorem runSequencer_fit (d : Dev) (hits : List Nat) (h0 : QueuesFit d) : QueuesFit (runSequencer d hits) := by
  unfold runSequencer
  repeat' first
    | with_reducible assumption
    | with_reducible apply addActs_fit
    | with_reducible apply irq_fit
    | with_reducible apply on_fit
    | with_reducible apply p_fit
    | simp -implicitDefEqProofs only [QueuesFit.lit]
    | split
    | intro _
    | dsimp only
theorem stopPulse_fit (d : Dev) (j : Nat) (h0 : QueuesFit d) : QueuesFit (stopPulse d j) := by
  unfold stopPulse
  repeat' first
    | with_reducible assumption
    | simp -implicitDefEqProofs only [QueuesFit.lit]
    | split
    | intro _
    | dsimp only
theorem pulsePins_fit (d : Dev) (owner : Nat) (h0 : QueuesFit d) : QueuesFit (pulsePins d owner) := by
  unfold pulsePins
  repeat' first
    | with_reducible assumption
    | with_reducible apply drivePin_fit
    | with_reducible apply each_fit
    | simp -implicitDefEqProofs only [QueuesFit.lit]
    | split
    | intro _
    | dsimp only
theorem freezeAction_fit (d : Dev) (owner : Nat) (h0 : QueuesFit d) : QueuesFit (freezeAction d owner) := by
  unfold freezeAction
  repeat' first
    | with_reducible assumption
    | with_reducible apply each_fit
    | with_reducible apply freezeReq_fit
    | with_reducible apply raiseSysFreeze_fit
    | simp -implicitDefEqProofs only [QueuesFit.lit]
    | split
    | intro _
    | dsimp only
theorem doAct_fit (d : Dev) (owner bit : Nat) (h0 : QueuesFit d) : QueuesFit (doAct d owner bit) := by
  unfold doAct
  repeat' first
    | with_reducible assumption
    | with_reducible apply freezeAction_fit
    | with_reducible apply pulsePins_fit
    | with_reducible apply strobeReq_fit
    | with_reducible apply trig_fit
    | simp -implicitDefEqProofs only [QueuesFit.lit]
    | split
    | intro _
    | dsimp only
theorem issueActs_fit (d : Dev) (h0 : QueuesFit d) : QueuesFit (issueActs d) := by
  unfold issueActs
  repeat' first
    | with_reducible assumption
    | with_reducible apply doAct_fit
    | with_reducible apply each_fit
    | simp -implicitDefEqProofs only [QueuesFit.lit]
    | split
    | intro _
    | dsimp only
theorem runEvents_fit (m : Nat) (d : Dev) (h0 : QueuesFit d) : QueuesFit (runEvents m d) := by
  induction m generalizing d with
  | zero => exact h0
  | succ m ih =>
    unfold runEvents
    repeat' first
      | with_reducible assumption
      | with_reducible apply ih
      | with_reducible apply logEvent_fit
      | with_reducible apply offer_fit
      | with_reducible apply countEvent_fit
      | simp -implicitDefEqProofs only [QueuesFit.lit]
      | split
      | intro _
      | dsimp only
theorem runHits_fit (d : Dev) (h0 : QueuesFit d) : QueuesFit (runHits d) := by
  unfold runHits
  repeat' first
    | with_reducible assumption
    | with_reducible apply addActs_fit
    | with_reducible apply capEvent_fit
    | with_reducible apply each_fit
    | with_reducible apply issueActs_fit
    | with_reducible apply runMachines_fit
    | with_reducible apply runSequencer_fit
    | simp -implicitDefEqProofs only [QueuesFit.lit]
    | split
    | intro _
    | dsimp only
theorem settleAll_fit (m : Nat) (d : Dev) (h0 : QueuesFit d) : QueuesFit (settleAll m d) := by
  induction m generalizing d with
  | zero => exact h0
  | succ m ih =>
    unfold settleAll
    repeat' first
      | with_reducible assumption
      | with_reducible apply ih
      | with_reducible apply endMachines_fit
      | with_reducible apply capFlush_fit
      | with_reducible apply runHits_fit
      | with_reducible apply runEvents_fit
      | simp -implicitDefEqProofs only [QueuesFit.lit]
      | split
      | intro _
      | dsimp only
theorem stepEnd_fit (d : Dev) (h0 : QueuesFit d) : QueuesFit (stepEnd d) := by
  unfold stepEnd
  repeat' first
    | with_reducible assumption
    | with_reducible apply settleAll_fit
    | simp -implicitDefEqProofs only [QueuesFit.lit]
    | split
    | intro _
    | dsimp only
theorem finish_fit (d : Dev) (h0 : QueuesFit d) : QueuesFit (finish d) := by
  unfold finish
  repeat' first
    | with_reducible assumption
    | with_reducible apply capDark_fit
    | with_reducible apply sendAnswers_fit
    | with_reducible apply serveHeld_fit
    | with_reducible apply settleAll_fit
    | simp -implicitDefEqProofs only [QueuesFit.lit]
    | split
    | intro _
    | dsimp only
theorem doArm_fit (d : Dev) (h0 : QueuesFit d) : QueuesFit (doArm d) := by
  unfold doArm
  repeat' first
    | with_reducible assumption
    | with_reducible apply on_fit
    | with_reducible apply p_fit
    | simp -implicitDefEqProofs only [QueuesFit.lit]
    | split
    | intro _
    | dsimp only
theorem doDisarm_fit (d : Dev) (h0 : QueuesFit d) : QueuesFit (doDisarm d) := by
  unfold doDisarm
  repeat' first
    | with_reducible assumption
    | with_reducible apply p_fit
    | simp -implicitDefEqProofs only [QueuesFit.lit]
    | split
    | intro _
    | dsimp only
theorem doTriggerLevelTimeout_fit (d : Dev) (h0 : QueuesFit d) : QueuesFit (doTriggerLevelTimeout d) := by
  unfold doTriggerLevelTimeout
  repeat' first
    | with_reducible assumption
    | with_reducible apply p_fit
    | simp -implicitDefEqProofs only [QueuesFit.lit]
    | split
    | intro _
    | dsimp only
theorem doTrigPinEdge_fit (d : Dev) (j : Nat) (rising : Bool) (h0 : QueuesFit d) : QueuesFit (doTrigPinEdge d j rising) := by
  unfold doTrigPinEdge
  repeat' first
    | with_reducible assumption
    | with_reducible apply offer_fit
    | with_reducible apply p_fit
    | simp -implicitDefEqProofs only [QueuesFit.lit]
    | split
    | intro _
    | dsimp only
theorem doPinPulseEnd_fit (d : Dev) (j : Nat) (h0 : QueuesFit d) : QueuesFit (doPinPulseEnd d j) := by
  unfold doPinPulseEnd
  repeat' first
    | with_reducible assumption
    | with_reducible apply drivePin_fit
    | with_reducible apply stopPulse_fit
    | simp -implicitDefEqProofs only [QueuesFit.lit]
    | split
    | intro _
    | dsimp only
theorem doTraceStreamEnable_fit (d : Dev) (t : Nat) (h0 : QueuesFit d) : QueuesFit (doTraceStreamEnable d t) := by
  unfold doTraceStreamEnable
  repeat' first
    | with_reducible assumption
    | with_reducible apply enableStream_fit
    | simp -implicitDefEqProofs only [QueuesFit.lit]
    | split
    | intro _
    | dsimp only
theorem doTraceCounterLimit_fit (d : Dev) (t : Nat) (h0 : QueuesFit d) : QueuesFit (doTraceCounterLimit d t) := by
  unfold doTraceCounterLimit
  repeat' first
    | with_reducible assumption
    | with_reducible apply p_fit
    | simp -implicitDefEqProofs only [QueuesFit.lit]
    | split
    | intro _
    | dsimp only
theorem doMark_fit (d : Dev) (t : Nat) (v : BitVec 16) (h0 : QueuesFit d) : QueuesFit (doMark d t v) := by
  unfold doMark
  repeat' first
    | with_reducible assumption
    | with_reducible apply addMark_fit
    | with_reducible apply runMachine_fit
    | simp -implicitDefEqProofs only [QueuesFit.lit]
    | split
    | intro _
    | dsimp only
theorem doTraceBlockTimeout_fit (d : Dev) (t : Nat) (h0 : QueuesFit d) : QueuesFit (doTraceBlockTimeout d t) := by
  unfold doTraceBlockTimeout
  repeat' first
    | with_reducible assumption
    | with_reducible apply closeBlock_fit
    | simp -implicitDefEqProofs only [QueuesFit.lit]
    | split
    | intro _
    | dsimp only
theorem doTraceSyncTimer_fit (d : Dev) (t : Nat) (h0 : QueuesFit d) : QueuesFit (doTraceSyncTimer d t) := by
  unfold doTraceSyncTimer
  repeat' first
    | with_reducible assumption
    | with_reducible apply addSync_fit
    | simp -implicitDefEqProofs only [QueuesFit.lit]
    | split
    | intro _
    | dsimp only
theorem doTokenRevoke_fit (d : Dev) (tag : Byte) (h0 : QueuesFit d) : QueuesFit (doTokenRevoke d tag) := by
  unfold doTokenRevoke
  repeat' first
    | with_reducible assumption
    | with_reducible apply answer_fit
    | with_reducible apply endToken_fit
    | with_reducible apply takeService_fit
    | simp -implicitDefEqProofs only [QueuesFit.lit]
    | split
    | intro _
    | dsimp only
theorem doTokenExpire_fit (d : Dev) (h0 : QueuesFit d) : QueuesFit (doTokenExpire d) := by
  unfold doTokenExpire
  repeat' first
    | with_reducible assumption
    | with_reducible apply endToken_fit
    | simp -implicitDefEqProofs only [QueuesFit.lit]
    | split
    | intro _
    | dsimp only
theorem doAuthDisable_fit (d : Dev) (h0 : QueuesFit d) : QueuesFit (doAuthDisable d) := by
  unfold doAuthDisable
  repeat' first
    | with_reducible assumption
    | with_reducible apply endToken_fit
    | with_reducible apply on_fit
    | simp -implicitDefEqProofs only [QueuesFit.lit]
    | split
    | intro _
    | dsimp only
theorem doTokenChallenge_fit (d : Dev) (tag : Byte) (h0 : QueuesFit d) : QueuesFit (doTokenChallenge d tag) := by
  unfold doTokenChallenge
  repeat' first
    | with_reducible assumption
    | with_reducible apply answer_fit
    | with_reducible apply takeService_fit
    | with_reducible apply tick_fit
    | simp -implicitDefEqProofs only [QueuesFit.lit]
    | split
    | intro _
    | dsimp only
end Sys2Proof.Machine.Dev
end

