-- ==== Sys2Proof/Laws/KeepQueues2.lean ====
section
/-! SUPPORT. No queue comes to hold more than its depth by the sequencer and the execution of a step. -/

set_option linter.all false

namespace Sys2Proof.Machine.Dev

set_option Elab.async false

theorem setBp_fit (d : Dev) (k : Nat) (v : Ecc 80) (h0 : QueuesFit d) : QueuesFit (setBp d k v) := by
  unfold setBp
  repeat' first
    | with_reducible assumption
    | simp -implicitDefEqProofs only [QueuesFit.lit]
    | split
    | intro _
    | dsimp only
theorem setWa_fit (d : Dev) (k : Nat) (v : Ecc 96) (h0 : QueuesFit d) : QueuesFit (setWa d k v) := by
  unfold setWa
  repeat' first
    | with_reducible assumption
    | simp -implicitDefEqProofs only [QueuesFit.lit]
    | split
    | intro _
    | dsimp only
theorem setPort_fit (d : Dev) (k : Nat) (v : ParW 16) (h0 : QueuesFit d) : QueuesFit (setPort d k v) := by
  unfold setPort
  repeat' first
    | with_reducible assumption
    | simp -implicitDefEqProofs only [QueuesFit.lit]
    | split
    | intro _
    | dsimp only
theorem setMesh_fit (d : Dev) (k : Nat) (v : ParW 32) (h0 : QueuesFit d) : QueuesFit (setMesh d k v) := by
  unfold setMesh
  repeat' first
    | with_reducible assumption
    | simp -implicitDefEqProofs only [QueuesFit.lit]
    | split
    | intro _
    | dsimp only
theorem setRow_fit (d : Dev) (k : Nat) (v : Ecc 96) (h0 : QueuesFit d) : QueuesFit (setRow d k v) := by
  unfold setRow
  repeat' first
    | with_reducible assumption
    | simp -implicitDefEqProofs only [QueuesFit.lit]
    | split
    | intro _
    | dsimp only
theorem cluIrq_fit (d : Dev) (n i last : Nat) (h0 : QueuesFit d) : QueuesFit (cluIrq d n i last) := by
  unfold cluIrq
  repeat' first
    | with_reducible assumption
    | with_reducible apply irq_fit
    | with_reducible apply raise_fit
    | simp -implicitDefEqProofs only [QueuesFit.lit]
    | split
    | intro _
    | dsimp only
theorem recordBp_fit (d : Dev) (n k syn : Nat) (ue : Bool) (h0 : QueuesFit d) : QueuesFit (recordBp d n k syn ue) := by
  unfold recordBp
  repeat' first
    | with_reducible assumption
    | with_reducible apply on_fit
    | with_reducible apply p_fit
    | simp -implicitDefEqProofs only [QueuesFit.lit]
    | split
    | intro _
    | dsimp only
theorem recordWa_fit (d : Dev) (n k syn : Nat) (ue : Bool) (h0 : QueuesFit d) : QueuesFit (recordWa d n k syn ue) := by
  unfold recordWa
  repeat' first
    | with_reducible assumption
    | with_reducible apply on_fit
    | with_reducible apply p_fit
    | simp -implicitDefEqProofs only [QueuesFit.lit]
    | split
    | intro _
    | dsimp only
theorem raiseUpset_fit (d : Dev) (n : Nat) (w : WordLoc) (fetch : Bool) (h0 : QueuesFit d) : QueuesFit (raiseUpset d n w fetch) := by
  unfold raiseUpset
  repeat' first
    | with_reducible assumption
    | simp -implicitDefEqProofs only [QueuesFit.lit]
    | split
    | intro _
    | dsimp only
theorem metAgain_fit (d : Dev) (n : Nat) (w : WordLoc) (fetch : Bool) (h0 : QueuesFit d) : QueuesFit (metAgain d n w fetch) := by
  unfold metAgain
  repeat' first
    | with_reducible assumption
    | with_reducible apply raiseUpset_fit
    | simp -implicitDefEqProofs only [QueuesFit.lit]
    | split
    | intro _
    | dsimp only
theorem freezeOwner_fit (d : Dev) (n cause : Nat) (h0 : QueuesFit d) : QueuesFit (freezeOwner d n cause) := by
  unfold freezeOwner
  repeat' first
    | with_reducible assumption
    | with_reducible apply freezeReq_fit
    | simp -implicitDefEqProofs only [QueuesFit.lit]
    | split
    | intro _
    | dsimp only
theorem fetchBp_fit (d : Dev) (n k : Nat) (fetch : Bool) (h0 : QueuesFit d) : QueuesFit (fetchBp d n k fetch).1 := by
  unfold fetchBp
  repeat' first
    | with_reducible assumption
    | with_reducible apply add_fit
    | with_reducible apply cluIrq_fit
    | with_reducible apply freezeOwner_fit
    | with_reducible apply metAgain_fit
    | with_reducible apply modClu_fit
    | with_reducible apply on_fit
    | with_reducible apply raiseUpset_fit
    | with_reducible apply recordBp_fit
    | simp -implicitDefEqProofs only [QueuesFit.lit]
    | split
    | intro _
    | dsimp only
theorem fetchWa_fit (d : Dev) (n k : Nat) (fetch : Bool) (h0 : QueuesFit d) : QueuesFit (fetchWa d n k fetch).1 := by
  unfold fetchWa
  repeat' first
    | with_reducible assumption
    | with_reducible apply add_fit
    | with_reducible apply cluIrq_fit
    | with_reducible apply freezeOwner_fit
    | with_reducible apply metAgain_fit
    | with_reducible apply modClu_fit
    | with_reducible apply on_fit
    | with_reducible apply raiseUpset_fit
    | with_reducible apply recordWa_fit
    | simp -implicitDefEqProofs only [QueuesFit.lit]
    | split
    | intro _
    | dsimp only
theorem parityError_fit (d : Dev) (n addr tile port : Nat) (mesh : Bool) (h0 : QueuesFit d) : QueuesFit (parityError d n addr tile port mesh) := by
  unfold parityError
  repeat' first
    | with_reducible assumption
    | with_reducible apply add_fit
    | with_reducible apply cluIrq_fit
    | with_reducible apply on_fit
    | with_reducible apply p_fit
    | simp -implicitDefEqProofs only [QueuesFit.lit]
    | split
    | intro _
    | dsimp only
theorem checkPort_fit (d : Dev) (n k : Nat) (fetch : Bool) (h0 : QueuesFit d) : QueuesFit (checkPort d n k fetch) := by
  unfold checkPort
  repeat' first
    | with_reducible assumption
    | with_reducible apply parityError_fit
    | with_reducible apply raiseUpset_fit
    | with_reducible apply setPort_fit
    | simp -implicitDefEqProofs only [QueuesFit.lit]
    | split
    | intro _
    | dsimp only
theorem checkMesh_fit (d : Dev) (n k : Nat) (fetch : Bool) (h0 : QueuesFit d) : QueuesFit (checkMesh d n k fetch) := by
  unfold checkMesh
  repeat' first
    | with_reducible assumption
    | with_reducible apply parityError_fit
    | with_reducible apply raiseUpset_fit
    | with_reducible apply setMesh_fit
    | simp -implicitDefEqProofs only [QueuesFit.lit]
    | split
    | intro _
    | dsimp only
theorem checkFabric_fit (d : Dev) (n s : Nat) (h0 : QueuesFit d) : QueuesFit (checkFabric d n s) := by
  unfold checkFabric
  repeat' first
    | with_reducible assumption
    | with_reducible apply checkMesh_fit
    | with_reducible apply checkPort_fit
    | with_reducible apply each_fit
    | simp -implicitDefEqProofs only [QueuesFit.lit]
    | split
    | intro _
    | dsimp only
theorem sendSlots_fit (d : Dev) (i u : Nat) (h0 : QueuesFit d) : QueuesFit (sendSlots d i u) := by
  unfold sendSlots
  repeat' first
    | with_reducible assumption
    | with_reducible apply each_fit
    | with_reducible apply emit_fit
    | with_reducible apply setLink_fit
    | simp -implicitDefEqProofs only [QueuesFit.lit]
    | split
    | intro _
    | dsimp only
theorem recordRow_fit (d : Dev) (n m row : Nat) (ue : Bool) (h0 : QueuesFit d) : QueuesFit (recordRow d n m row ue) := by
  unfold recordRow
  repeat' first
    | with_reducible assumption
    | with_reducible apply on_fit
    | with_reducible apply p_fit
    | simp -implicitDefEqProofs only [QueuesFit.lit]
    | split
    | intro _
    | dsimp only
theorem rowCe_fit (d : Dev) (n k : Nat) (h0 : QueuesFit d) : QueuesFit (rowCe d n k) := by
  unfold rowCe
  repeat' first
    | with_reducible assumption
    | with_reducible apply modClu_fit
    | with_reducible apply recordRow_fit
    | simp -implicitDefEqProofs only [QueuesFit.lit]
    | split
    | intro _
    | dsimp only
theorem rowBackDone_fit (d : Dev) (n : Nat) (h0 : QueuesFit d) : QueuesFit (rowBackDone d n) := by
  unfold rowBackDone
  repeat' first
    | with_reducible assumption
    | with_reducible apply add_fit
    | with_reducible apply cluIrq_fit
    | simp -implicitDefEqProofs only [QueuesFit.lit]
    | split
    | intro _
    | dsimp only
theorem rowUe_fit (d : Dev) (n k : Nat) (h0 : QueuesFit d) : QueuesFit (rowUe d n k) := by
  unfold rowUe
  repeat' first
    | with_reducible assumption
    | with_reducible apply add_fit
    | with_reducible apply cluIrq_fit
    | with_reducible apply raiseUpset_fit
    | with_reducible apply recordRow_fit
    | simp -implicitDefEqProofs only [QueuesFit.lit]
    | split
    | intro _
    | dsimp only
theorem readRow_fit (d : Dev) (n k : Nat) (h0 : QueuesFit d) : QueuesFit (readRow d n k).1 := by
  unfold readRow
  repeat' first
    | with_reducible assumption
    | with_reducible apply rowCe_fit
    | with_reducible apply rowUe_fit
    | simp -implicitDefEqProofs only [QueuesFit.lit]
    | split
    | intro _
    | dsimp only
theorem mergeEntry_fit (d : Dev) (n m a v : Nat) (h0 : QueuesFit d) : QueuesFit (mergeEntry d n m a v) := by
  unfold mergeEntry
  repeat' first
    | with_reducible assumption
    | with_reducible apply modClu_fit
    | with_reducible apply recordRow_fit
    | with_reducible apply rowBackDone_fit
    | with_reducible apply rowUe_fit
    | with_reducible apply setRow_fit
    | simp -implicitDefEqProofs only [QueuesFit.lit]
    | split
    | intro _
    | dsimp only
theorem landWrites_fit (d : Dev) (n : Nat) (h0 : QueuesFit d) : QueuesFit (landWrites d n) := by
  unfold landWrites
  repeat' first
    | with_reducible assumption
    | with_reducible apply each_fit
    | with_reducible apply mergeEntry_fit
    | with_reducible apply modClu_fit
    | simp -implicitDefEqProofs only [QueuesFit.lit]
    | split
    | intro _
    | dsimp only
theorem doEvent_fit (d : Dev) (c n m e : Nat) (h0 : QueuesFit d) : QueuesFit (doEvent d c n m e) := by
  unfold doEvent
  repeat' first
    | with_reducible assumption
    | with_reducible apply modClu_fit
    | with_reducible apply readRow_fit
    | simp -implicitDefEqProofs only [QueuesFit.lit]
    | split
    | intro _
    | dsimp only
theorem runDmem_fit (d : Dev) (i c u : Nat) (h0 : QueuesFit d) : QueuesFit (runDmem d i c u) := by
  unfold runDmem
  repeat' first
    | with_reducible assumption
    | with_reducible apply doEvent_fit
    | with_reducible apply each_fit
    | with_reducible apply landWrites_fit
    | simp -implicitDefEqProofs only [QueuesFit.lit]
    | split
    | intro _
    | dsimp only
theorem takeReads_fit (d : Dev) (i c : Nat) (h0 : QueuesFit d) : QueuesFit (takeReads d i c).1 := by
  unfold takeReads
  repeat' first
    | with_reducible assumption
    | with_reducible apply each_fit
    | with_reducible apply modClu_fit
    | simp -implicitDefEqProofs only [QueuesFit.lit]
    | split
    | intro _
    | dsimp only
theorem setFar_fit (d : Dev) (n f : Nat) (xs : List FarAcc) (h0 : QueuesFit d) : QueuesFit (setFar d n f xs) := by
  unfold setFar
  repeat' first
    | with_reducible assumption
    | with_reducible apply modClu_fit
    | with_reducible apply p_fit
    | simp -implicitDefEqProofs only [QueuesFit.lit]
    | split
    | intro _
    | dsimp only
theorem farUse_fit (d : Dev) (n f u : Nat) (h0 : QueuesFit d) : QueuesFit (farUse d n f u).1 := by
  unfold farUse
  repeat' first
    | with_reducible assumption
    | with_reducible apply setFar_fit
    | simp -implicitDefEqProofs only [QueuesFit.lit]
    | split
    | intro _
    | dsimp only
theorem farReserve_fit (d : Dev) (n f : Nat) (h0 : QueuesFit d) : QueuesFit (farReserve d n f) := by
  unfold farReserve
  repeat' first
    | with_reducible assumption
    | with_reducible apply addOutst_fit
    | with_reducible apply each_fit
    | with_reducible apply setFar_fit
    | simp -implicitDefEqProofs only [QueuesFit.lit]
    | split
    | intro _
    | dsimp only
theorem farIssue_fit (d : Dev) (i n f u : Nat) (h0 : QueuesFit d) : QueuesFit (farIssue d i n f u) := by
  unfold farIssue
  repeat' first
    | with_reducible assumption
    | with_reducible apply farReserve_fit
    | with_reducible apply setFar_fit
    | simp -implicitDefEqProofs only [QueuesFit.lit]
    | split
    | intro _
    | dsimp only
theorem releasePort_fit (d : Dev) (n x : Nat) (h0 : QueuesFit d) : QueuesFit (releasePort d n x) := by
  unfold releasePort
  repeat' first
    | with_reducible assumption
    | exact fun _ h => Fits.same h (Eq.refl _) (Eq.refl _) (Eq.refl _) (Eq.refl _)
    | exact fun x hx => Fits.of hx id (Nat.le_refl _) (Nat.sub_le _ _) rfl
    | with_reducible apply modQueue_fit
    | with_reducible apply modClu_fit
    | simp -implicitDefEqProofs only [QueuesFit.lit]
    | split
    | intro _
    | dsimp only
theorem releasePorts_fit (d : Dev) (n : Nat) (h0 : QueuesFit d) : QueuesFit (releasePorts d n) := by
  unfold releasePorts
  repeat' first
    | with_reducible assumption
    | with_reducible apply each_fit
    | with_reducible apply releasePort_fit
    | simp -implicitDefEqProofs only [QueuesFit.lit]
    | split
    | intro _
    | dsimp only
theorem txpRead_fit (d : Dev) (n x u : Nat) (h0 : QueuesFit d) : QueuesFit (txpRead d n x u).1 := by
  unfold txpRead
  repeat' first
    | with_reducible assumption
    | simp -implicitDefEqProofs only [QueuesFit.lit]
    | split
    | intro _
    | dsimp only
    | with_reducible refine takeHead_fit (by assumption) ?_
theorem forgetSigs_fit (d : Dev) (i : Nat) (h0 : QueuesFit d) : QueuesFit (forgetSigs d i) := by
  unfold forgetSigs
  repeat' first
    | with_reducible assumption
    | with_reducible apply p_fit
    | simp -implicitDefEqProofs only [QueuesFit.lit]
    | split
    | intro _
    | dsimp only
theorem lscSend_fit (d : Dev) (sig cyc type diag : Nat) (h0 : QueuesFit d) : QueuesFit (lscSend d sig cyc type diag) := by
  unfold lscSend
  repeat' first
    | with_reducible assumption
    | with_reducible apply emit_fit
    | with_reducible apply iff_fit
    | simp -implicitDefEqProofs only [QueuesFit.lit]
    | split
    | intro _
    | dsimp only
theorem lscAct_fit (d : Dev) (h0 : QueuesFit d) : QueuesFit (lscAct d) := by
  unfold lscAct
  repeat' first
    | with_reducible assumption
    | with_reducible apply freezeReq_fit
    | with_reducible apply p_fit
    | with_reducible apply raiseSysFreeze_fit
    | with_reducible apply scrubRequest_fit
    | simp -implicitDefEqProofs only [QueuesFit.lit]
    | split
    | intro _
    | dsimp only
theorem mismatch_fit (d : Dev) (cyc mine theirs : Nat) (h0 : QueuesFit d) : QueuesFit (mismatch d cyc mine theirs) := by
  unfold mismatch
  repeat' first
    | with_reducible assumption
    | with_reducible apply add_fit
    | with_reducible apply iff_fit
    | with_reducible apply irq_fit
    | with_reducible apply lscAct_fit
    | with_reducible apply lscSend_fit
    | with_reducible apply on_fit
    | with_reducible apply p_fit
    | with_reducible apply raise_fit
    | simp -implicitDefEqProofs only [QueuesFit.lit]
    | split
    | intro _
    | dsimp only
theorem compareSigs_fit (d : Dev) (h0 : QueuesFit d) : QueuesFit (compareSigs d) := by
  unfold compareSigs
  repeat' first
    | with_reducible assumption
    | with_reducible apply each_fit
    | with_reducible apply mismatch_fit
    | with_reducible apply p_fit
    | simp -implicitDefEqProofs only [QueuesFit.lit]
    | split
    | intro _
    | dsimp only
theorem sign_fit (d : Dev) (i : Nat) (taps : List Tap) (h0 : QueuesFit d) : QueuesFit (sign d i taps) := by
  unfold sign
  repeat' first
    | with_reducible assumption
    | with_reducible apply compareSigs_fit
    | with_reducible apply lscSend_fit
    | simp -implicitDefEqProofs only [QueuesFit.lit]
    | split
    | intro _
    | dsimp only
theorem doLockstepRecord_fit (d : Dev) (r : BitVec 128) (h0 : QueuesFit d) : QueuesFit (doLockstepRecord d r) := by
  unfold doLockstepRecord
  repeat' first
    | with_reducible assumption
    | with_reducible apply compareSigs_fit
    | with_reducible apply lscAct_fit
    | with_reducible apply on_fit
    | simp -implicitDefEqProofs only [QueuesFit.lit]
    | split
    | intro _
    | dsimp only
theorem doPartnerTimeout_fit (d : Dev) (h0 : QueuesFit d) : QueuesFit (doPartnerTimeout d) := by
  unfold doPartnerTimeout
  repeat' first
    | with_reducible assumption
    | with_reducible apply freezeReq_fit
    | with_reducible apply irq_fit
    | with_reducible apply on_fit
    | with_reducible apply p_fit
    | simp -implicitDefEqProofs only [QueuesFit.lit]
    | split
    | intro _
    | dsimp only
theorem frozenIrq_fit (d : Dev) (i : Nat) (h0 : QueuesFit d) : QueuesFit (frozenIrq d i) := by
  unfold frozenIrq
  repeat' first
    | with_reducible assumption
    | with_reducible apply irq_fit
    | with_reducible apply raise_fit
    | simp -implicitDefEqProofs only [QueuesFit.lit]
    | split
    | intro _
    | dsimp only
theorem landAll_fit (d : Dev) (i : Nat) (h0 : QueuesFit d) : QueuesFit (landAll d i) := by
  unfold landAll
  repeat' first
    | with_reducible assumption
    | with_reducible apply each_fit
    | with_reducible apply landWrites_fit
    | simp -implicitDefEqProofs only [QueuesFit.lit]
    | split
    | intro _
    | dsimp only
theorem enterFreeze_fit (d : Dev) (i cause : Nat) (h0 : QueuesFit d) : QueuesFit (enterFreeze d i cause) := by
  unfold enterFreeze
  repeat' first
    | with_reducible assumption
    | with_reducible apply landAll_fit
    | with_reducible apply modPtn_fit
    | with_reducible apply on_fit
    | with_reducible apply p_fit
    | simp -implicitDefEqProofs only [QueuesFit.lit]
    | split
    | intro _
    | dsimp only
theorem enterHard_fit (d : Dev) (i cause : Nat) (h0 : QueuesFit d) : QueuesFit (enterHard d i cause) := by
  unfold enterHard
  repeat' first
    | with_reducible assumption
    | with_reducible apply frozenIrq_fit
    | with_reducible apply landAll_fit
    | with_reducible apply modPtn_fit
    | with_reducible apply p_fit
    | simp -implicitDefEqProofs only [QueuesFit.lit]
    | split
    | intro _
    | dsimp only
theorem sampleClocks_fit (d : Dev) (i : Nat) (h0 : QueuesFit d) : QueuesFit (sampleClocks d i) := by
  unfold sampleClocks
  repeat' first
    | with_reducible assumption
    | with_reducible apply modPtn_fit
    | simp -implicitDefEqProofs only [QueuesFit.lit]
    | split
    | intro _
    | dsimp only
theorem dropSamples_fit (d : Dev) (i : Nat) (h0 : QueuesFit d) : QueuesFit (dropSamples d i) := by
  unfold dropSamples
  repeat' first
    | with_reducible assumption
    | with_reducible apply modPtn_fit
    | simp -implicitDefEqProofs only [QueuesFit.lit]
    | split
    | intro _
    | dsimp only
theorem showPosition_fit (d : Dev) (i : Nat) (h0 : QueuesFit d) : QueuesFit (showPosition d i) := by
  unfold showPosition
  repeat' first
    | with_reducible assumption
    | with_reducible apply p_fit
    | simp -implicitDefEqProofs only [QueuesFit.lit]
    | split
    | intro _
    | dsimp only
theorem capCycle_fit (d : Dev) (i cyc : Nat) (taps : List Tap) (h0 : QueuesFit d) : QueuesFit (capCycle d i cyc taps) := by
  unfold capCycle
  repeat' first
    | with_reducible assumption
    | with_reducible apply capBytes_fit
    | with_reducible apply capLost_fit
    | with_reducible apply each_fit
    | with_reducible apply setChan_fit
    | with_reducible apply foldl_fit
    | with_reducible apply fold1_fit
    | simp -implicitDefEqProofs only [QueuesFit.lit]
    | split
    | intro _
    | dsimp only
theorem compareSteps_fit (d : Dev) (i : Nat) (h0 : QueuesFit d) : QueuesFit (compareSteps d i) := by
  unfold compareSteps
  repeat' first
    | with_reducible assumption
    | with_reducible apply on_fit
    | with_reducible apply raiseSysFreeze_fit
    | simp -implicitDefEqProofs only [QueuesFit.lit]
    | split
    | intro _
    | dsimp only
theorem boundary_fit (d : Dev) (i : Nat) (cascade : Bool) (h0 : QueuesFit d) : QueuesFit (boundary d i cascade) := by
  unfold boundary
  repeat' first
    | with_reducible assumption
    | with_reducible apply capCycle_fit
    | with_reducible apply compareSteps_fit
    | with_reducible apply controlPtn_fit
    | with_reducible apply countCycle_fit
    | with_reducible apply enterFreeze_fit
    | with_reducible apply on_fit
    | with_reducible apply p_fit
    | with_reducible apply raise_fit
    | with_reducible apply runMachines_fit
    | with_reducible apply setPtn_fit
    | with_reducible apply sign_fit
    | with_reducible apply traceCycle_fit
    | simp -implicitDefEqProofs only [QueuesFit.lit]
    | split
    | intro _
    | dsimp only
theorem dueFreeze_fit (d : Dev) (i : Nat) (h0 : QueuesFit d) : QueuesFit (dueFreeze d i) := by
  unfold dueFreeze
  repeat' first
    | with_reducible assumption
    | with_reducible apply enterFreeze_fit
    | simp -implicitDefEqProofs only [QueuesFit.lit]
    | split
    | intro _
    | dsimp only
theorem commitSet_fit (d : Dev) (i e : Nat) (h0 : QueuesFit d) : QueuesFit (commitSet d i e) := by
  unfold commitSet
  repeat' first
    | with_reducible assumption
    | with_reducible apply modPtn_fit
    | with_reducible apply sampleClocks_fit
    | with_reducible apply setSt_fit
    | with_reducible apply foldl_fit
    | with_reducible apply fold1_fit
    | simp -implicitDefEqProofs only [QueuesFit.lit]
    | split
    | intro _
    | dsimp only
theorem advance_fit (m : Nat) (d : Dev) (i : Nat) (h0 : QueuesFit d) : QueuesFit (advance m d i) := by
  induction m generalizing d with
  | zero => exact h0
  | succ m ih =>
    unfold advance
    repeat' first
      | with_reducible assumption
      | with_reducible apply ih
      | with_reducible apply commitSet_fit
      | with_reducible apply modPtn_fit
      | with_reducible apply boundary_fit
      | with_reducible apply on_fit
      | with_reducible apply irq_fit
      | with_reducible apply setPtn_fit
      | with_reducible apply p_fit
      | simp -implicitDefEqProofs only [QueuesFit.lit]
      | split
      | intro _
      | dsimp only
theorem beginInstant_fit (d : Dev) (i : Nat) (h0 : QueuesFit d) : QueuesFit (beginInstant d i) := by
  unfold beginInstant
  repeat' first
    | with_reducible assumption
    | with_reducible apply advance_fit
    | with_reducible apply modPtn_fit
    | with_reducible apply on_fit
    | with_reducible apply p_fit
    | with_reducible apply sampleClocks_fit
    | with_reducible apply setSt_fit
    | with_reducible apply tick_fit
    | with_reducible apply foldl_fit
    | with_reducible apply fold1_fit
    | simp -implicitDefEqProofs only [QueuesFit.lit]
    | split
    | intro _
    | dsimp only
theorem askHold_fit (d : Dev) (i e : Nat) (h0 : QueuesFit d) : QueuesFit (askHold d i e) := by
  unfold askHold
  repeat' first
    | with_reducible assumption
    | with_reducible apply controlPtn_fit
    | with_reducible apply modPtn_fit
    | simp -implicitDefEqProofs only [QueuesFit.lit]
    | split
    | intro _
    | dsimp only
theorem earlyCheck_fit (d : Dev) (i : Nat) (h0 : QueuesFit d) : QueuesFit (earlyCheck d i) := by
  unfold earlyCheck
  repeat' first
    | with_reducible assumption
    | with_reducible apply askHold_fit
    | simp -implicitDefEqProofs only [QueuesFit.lit]
    | split
    | intro _
    | dsimp only
theorem holdReady_fit (d : Dev) (i e : Nat) (h0 : QueuesFit d) : QueuesFit (holdReady d i e) := by
  unfold holdReady
  repeat' first
    | with_reducible assumption
    | with_reducible apply controlPtn_fit
    | with_reducible apply modPtn_fit
    | simp -implicitDefEqProofs only [QueuesFit.lit]
    | split
    | intro _
    | dsimp only
theorem leadGo_fit (d : Dev) (i e : Nat) (h0 : QueuesFit d) : QueuesFit (leadGo d i e) := by
  unfold leadGo
  repeat' first
    | with_reducible assumption
    | with_reducible apply controlPtn_fit
    | with_reducible apply modPtn_fit
    | simp -implicitDefEqProofs only [QueuesFit.lit]
    | split
    | intro _
    | dsimp only
theorem askLag_fit (d : Dev) (i : Nat) (h0 : QueuesFit d) : QueuesFit (askLag d i) := by
  unfold askLag
  repeat' first
    | with_reducible assumption
    | with_reducible apply askHold_fit
    | simp -implicitDefEqProofs only [QueuesFit.lit]
    | split
    | intro _
    | dsimp only
theorem forgetSteps_fit (d : Dev) (i : Nat) (h0 : QueuesFit d) : QueuesFit (forgetSteps d i) := by
  unfold forgetSteps
  repeat' first
    | with_reducible assumption
    | simp -implicitDefEqProofs only [QueuesFit.lit]
    | split
    | intro _
    | dsimp only
theorem holdStep_fit (d : Dev) (i src : Nat) (h0 : QueuesFit d) : QueuesFit (holdStep d i src) := by
  unfold holdStep
  repeat' first
    | with_reducible assumption
    | with_reducible apply add_fit
    | with_reducible apply modPtn_fit
    | with_reducible apply on_fit
    | with_reducible apply p_fit
    | with_reducible apply raise_fit
    | simp -implicitDefEqProofs only [QueuesFit.lit]
    | split
    | intro _
    | dsimp only
theorem addTap_fit (d : Dev) (i : Nat) (t : Tap) (h0 : QueuesFit d) : QueuesFit (addTap d i t) := by
  unfold addTap
  repeat' first
    | with_reducible assumption
    | with_reducible apply modPtn_fit
    | simp -implicitDefEqProofs only [QueuesFit.lit]
    | split
    | intro _
    | dsimp only
theorem runBps_fit (d : Dev) (i n u : Nat) (h0 : QueuesFit d) : QueuesFit (runBps d i n u).1 := by
  unfold runBps
  repeat' first
    | with_reducible assumption
    | with_reducible apply addTap_fit
    | with_reducible apply fetchBp_fit
    | with_reducible apply offerBp_fit
    | with_reducible apply foldl_fit
    | with_reducible apply fold1_fit
    | simp -implicitDefEqProofs only [QueuesFit.lit]
    | split
    | intro _
    | dsimp only
theorem runWord_fit (d : Dev) (i n t w u word : Nat) (pair : Bool) (h0 : QueuesFit d) : QueuesFit (runWord d i n t w u word pair).1 := by
  unfold runWord
  repeat' first
    | with_reducible assumption
    | with_reducible apply addTap_fit
    | with_reducible apply capWord_fit
    | with_reducible apply offerWalu_fit
    | simp -implicitDefEqProofs only [QueuesFit.lit]
    | split
    | intro _
    | dsimp only
theorem runWalus_fit (d : Dev) (i n u : Nat) (h0 : QueuesFit d) : QueuesFit (runWalus d i n u).1 := by
  unfold runWalus
  repeat' first
    | with_reducible assumption
    | with_reducible apply fetchWa_fit
    | with_reducible apply runWord_fit
    | with_reducible apply foldl_fit
    | with_reducible apply fold1_fit
    | simp -implicitDefEqProofs only [QueuesFit.lit]
    | split
    | intro _
    | dsimp only
theorem runPorts_fit (d : Dev) (ports : List Nat) (f : Dev → Nat → Dev × List Wr) (h0 : QueuesFit d) (h : ∀ e a, QueuesFit e → QueuesFit (f e a).1) : QueuesFit (d.runPorts ports f).1 := by
  unfold runPorts
  apply fold1_fit
  · exact h0
  · intro r a hr; exact h r.1 a hr
theorem runCluster_fit (d : Dev) (i u n : Nat) (h0 : QueuesFit d) : QueuesFit (runCluster d i u n).1 := by
  unfold runCluster
  repeat' first
    | with_reducible assumption
    | with_reducible apply farUse_fit
    | with_reducible apply runBps_fit
    | with_reducible apply runDmem_fit
    | with_reducible apply runPorts_fit
    | with_reducible apply runWalus_fit
    | with_reducible apply takeReads_fit
    | with_reducible apply txpRead_fit
    | simp -implicitDefEqProofs only [QueuesFit.lit]
    | split
    | intro _
    | dsimp only
theorem txpStore_fit (d : Dev) (n x : Nat) (q : Nat) (w : QWord) (credit : Bool) (h0 : QueuesFit d) : QueuesFit (txpStore d n x q w credit) := by
  unfold txpStore
  repeat' first
    | with_reducible assumption
    | with_reducible apply append_fit
    | with_reducible apply modClu_fit
    | simp -implicitDefEqProofs only [QueuesFit.lit]
    | split
    | intro _
    | dsimp only
theorem executeIndex_fit (d : Dev) (i u : Nat) (h0 : QueuesFit d) : QueuesFit (executeIndex d i u) := by
  unfold executeIndex
  repeat' first
    | with_reducible assumption
    | with_reducible apply checkFabric_fit
    | with_reducible apply each_fit
    | with_reducible apply farIssue_fit
    | with_reducible apply modLink_fit
    | with_reducible apply modPtn_fit
    | with_reducible apply runCluster_fit
    | with_reducible apply sendSlots_fit
    | with_reducible apply setSt_fit
    | with_reducible apply tick_fit
    | with_reducible apply txpStore_fit
    | with_reducible apply foldl_fit
    | with_reducible apply fold1_fit
    | simp -implicitDefEqProofs only [QueuesFit.lit]
    | split
    | intro _
    | dsimp only
theorem afterStep_fit (d : Dev) (i seg : Nat) (h0 : QueuesFit d) : QueuesFit (afterStep d i seg) := by
  unfold afterStep
  repeat' first
    | with_reducible assumption
    | with_reducible apply advance_fit
    | with_reducible apply landAll_fit
    | with_reducible apply modPtn_fit
    | with_reducible apply p_fit
    | simp -implicitDefEqProofs only [QueuesFit.lit]
    | split
    | intro _
    | dsimp only
theorem oneStep_fit (d : Dev) (i : Nat) (h0 : QueuesFit d) : QueuesFit (oneStep d i) := by
  unfold oneStep
  repeat' first
    | with_reducible assumption
    | with_reducible apply advance_fit
    | with_reducible apply afterStep_fit
    | with_reducible apply askHold_fit
    | with_reducible apply earlyCheck_fit
    | with_reducible apply executeIndex_fit
    | with_reducible apply holdReady_fit
    | with_reducible apply holdStep_fit
    | with_reducible apply iff_fit
    | with_reducible apply leadGo_fit
    | with_reducible apply modPtn_fit
    | with_reducible apply on_fit
    | simp -implicitDefEqProofs only [QueuesFit.lit]
    | split
    | intro _
    | dsimp only
theorem doExecuteStep_fit (d : Dev) (i : Nat) (h0 : QueuesFit d) : QueuesFit (doExecuteStep d i) := by
  unfold doExecuteStep
  repeat' first
    | with_reducible assumption
    | with_reducible apply askLag_fit
    | with_reducible apply beginInstant_fit
    | with_reducible apply dueFreeze_fit
    | with_reducible apply enterFreeze_fit
    | with_reducible apply enterHard_fit
    | with_reducible apply holdStep_fit
    | with_reducible apply iff_fit
    | with_reducible apply on_fit
    | with_reducible apply oneStep_fit
    | with_reducible apply showPosition_fit
    | simp -implicitDefEqProofs only [QueuesFit.lit]
    | split
    | intro _
    | dsimp only
theorem cmdErr_fit (d : Dev) (i code : Nat) (h0 : QueuesFit d) : QueuesFit (cmdErr d i code) := by
  unfold cmdErr
  repeat' first
    | with_reducible assumption
    | with_reducible apply irq_fit
    | with_reducible apply p_fit
    | simp -implicitDefEqProofs only [QueuesFit.lit]
    | split
    | intro _
    | dsimp only
theorem startNow_fit (d : Dev) (i : Nat) (h0 : QueuesFit d) : QueuesFit (startNow d i) := by
  unfold startNow
  repeat' first
    | with_reducible assumption
    | with_reducible apply each_fit
    | with_reducible apply forgetSigs_fit
    | with_reducible apply forgetSteps_fit
    | with_reducible apply modLink_fit
    | with_reducible apply modPtn_fit
    | with_reducible apply p_fit
    | simp -implicitDefEqProofs only [QueuesFit.lit]
    | split
    | intro _
    | dsimp only
theorem resumeNow_fit (d : Dev) (i : Nat) (cycles steps : Option Nat) (h0 : QueuesFit d) : QueuesFit (resumeNow d i cycles steps) := by
  unfold resumeNow
  repeat' first
    | with_reducible assumption
    | with_reducible apply modPtn_fit
    | with_reducible apply p_fit
    | simp -implicitDefEqProofs only [QueuesFit.lit]
    | split
    | intro _
    | dsimp only
theorem stopNow_fit (d : Dev) (i : Nat) (h0 : QueuesFit d) : QueuesFit (stopNow d i) := by
  unfold stopNow
  repeat' first
    | with_reducible assumption
    | with_reducible apply each_fit
    | with_reducible apply forgetSigs_fit
    | with_reducible apply forgetSteps_fit
    | with_reducible apply irq_fit
    | with_reducible apply landAll_fit
    | with_reducible apply modClu_fit
    | with_reducible apply modPtn_fit
    | with_reducible apply p_fit
    | simp -implicitDefEqProofs only [QueuesFit.lit]
    | split
    | intro _
    | dsimp only
theorem commandNow_fit (d : Dev) (i cmd count : Nat) (h0 : QueuesFit d) : QueuesFit (commandNow d i cmd count) := by
  unfold commandNow
  repeat' first
    | with_reducible assumption
    | with_reducible apply resumeNow_fit
    | with_reducible apply startNow_fit
    | with_reducible apply stopNow_fit
    | with_reducible apply wakeAll_fit
    | simp -implicitDefEqProofs only [QueuesFit.lit]
    | split
    | intro _
    | dsimp only
theorem issueCommand_fit (d : Dev) (i cmd : Nat) (h0 : QueuesFit d) : QueuesFit (issueCommand d i cmd) := by
  unfold issueCommand
  repeat' first
    | with_reducible assumption
    | with_reducible apply commandNow_fit
    | with_reducible apply controlPtn_fit
    | with_reducible apply modPtn_fit
    | simp -implicitDefEqProofs only [QueuesFit.lit]
    | split
    | intro _
    | dsimp only
theorem hardReq_fit (d : Dev) (i : Nat) (h0 : QueuesFit d) : QueuesFit (hardReq d i) := by
  unfold hardReq
  repeat' first
    | with_reducible assumption
    | with_reducible apply controlPtn_fit
    | with_reducible apply dueFreeze_fit
    | with_reducible apply enterHard_fit
    | with_reducible apply setPtn_fit
    | simp -implicitDefEqProofs only [QueuesFit.lit]
    | split
    | intro _
    | dsimp only
theorem seqCommand_fit (d : Dev) (i cmd : Nat) (h0 : QueuesFit d) : QueuesFit (seqCommand d i cmd) := by
  unfold seqCommand
  repeat' first
    | with_reducible assumption
    | with_reducible apply cmdErr_fit
    | with_reducible apply freezeReq_fit
    | with_reducible apply hardReq_fit
    | with_reducible apply iff_fit
    | with_reducible apply issueCommand_fit
    | with_reducible apply tick_fit
    | simp -implicitDefEqProofs only [QueuesFit.lit]
    | split
    | intro _
    | dsimp only
theorem writeWord_fit (d : Dev) (base off v : Nat) (fs : List Fld) (h0 : QueuesFit d) : QueuesFit (writeWord d base off v fs) := by
  unfold writeWord
  repeat' first
    | with_reducible assumption
    | with_reducible apply each_fit
    | with_reducible apply p_fit
    | simp -implicitDefEqProofs only [QueuesFit.lit]
    | split
    | intro _
    | dsimp only
theorem doSeqTableWrite_fit (d : Dev) (i off : Nat) (v : W32) (h0 : QueuesFit d) : QueuesFit (doSeqTableWrite d i off v) := by
  unfold doSeqTableWrite
  repeat' first
    | with_reducible assumption
    | with_reducible apply cmdErr_fit
    | with_reducible apply dropSamples_fit
    | with_reducible apply writeWord_fit
    | simp -implicitDefEqProofs only [QueuesFit.lit]
    | split
    | intro _
    | dsimp only
theorem doStallRelease_fit (d : Dev) (i : Nat) (h0 : QueuesFit d) : QueuesFit (doStallRelease d i) := by
  unfold doStallRelease
  repeat' first
    | with_reducible assumption
    | with_reducible apply doExecuteStep_fit
    | simp -implicitDefEqProofs only [QueuesFit.lit]
    | split
    | intro _
    | dsimp only
theorem doDue_fit (d : Dev) (i : Nat) (due : Due) (h0 : QueuesFit d) : QueuesFit (doDue d i due) := by
  unfold doDue
  repeat' first
    | with_reducible assumption
    | with_reducible apply dueFreeze_fit
    | simp -implicitDefEqProofs only [QueuesFit.lit]
    | split
    | intro _
    | dsimp only
theorem doStepStepsCountReached_fit (d : Dev) (i : Nat) (h0 : QueuesFit d) : QueuesFit (doStepStepsCountReached d i) := by
  unfold doStepStepsCountReached
  repeat' first
    | with_reducible assumption
    | with_reducible apply doDue_fit
    | with_reducible apply modPtn_fit
    | simp -implicitDefEqProofs only [QueuesFit.lit]
    | split
    | intro _
    | dsimp only
theorem doFreezeTimeout_fit (d : Dev) (i : Nat) (h0 : QueuesFit d) : QueuesFit (doFreezeTimeout d i) := by
  unfold doFreezeTimeout
  repeat' first
    | with_reducible assumption
    | with_reducible apply enterHard_fit
    | with_reducible apply irq_fit
    | with_reducible apply on_fit
    | simp -implicitDefEqProofs only [QueuesFit.lit]
    | split
    | intro _
    | dsimp only
theorem passOn_fit (d : Dev) (i gi kind body : Nat) (h0 : QueuesFit d) : QueuesFit (passOn d i gi kind body) := by
  unfold passOn
  repeat' first
    | with_reducible assumption
    | with_reducible apply control_fit
    | with_reducible apply each_fit
    | simp -implicitDefEqProofs only [QueuesFit.lit]
    | split
    | intro _
    | dsimp only
theorem linkedMsg_fit (d : Dev) (gi i : Nat) (intact : Bool) (k : Dev → Dev) (h0 : QueuesFit d) (hk : ∀ e, QueuesFit e → QueuesFit (k e)) : QueuesFit (linkedMsg d gi i intact k) := by
  unfold linkedMsg
  repeat' first
    | with_reducible assumption
    | with_reducible apply hk
    | with_reducible apply ctlBad_fit
    | simp -implicitDefEqProofs only [QueuesFit.lit]
    | split
    | intro _
    | dsimp only
theorem freezeAtStep_fit (d : Dev) (i e : Nat) (hard : Bool) (h0 : QueuesFit d) : QueuesFit (freezeAtStep d i e hard) := by
  unfold freezeAtStep
  repeat' first
    | with_reducible assumption
    | with_reducible apply iff_fit
    | with_reducible apply modPtn_fit
    | with_reducible apply on_fit
    | simp -implicitDefEqProofs only [QueuesFit.lit]
    | split
    | intro _
    | dsimp only
theorem doLinkedCommand_fit (d : Dev) (gi i cmd : Nat) (count : W32) (dist : Nat) (intact : Bool) (h0 : QueuesFit d) : QueuesFit (doLinkedCommand d gi i cmd count dist intact) := by
  unfold doLinkedCommand
  repeat' first
    | with_reducible assumption
    | with_reducible apply freezeAtStep_fit
    | with_reducible apply linkedMsg_fit
    | with_reducible apply modPtn_fit
    | with_reducible apply passOn_fit
    | simp -implicitDefEqProofs only [QueuesFit.lit]
    | split
    | intro _
    | dsimp only
theorem doLinkedCommandEffect_fit (d : Dev) (i : Nat) (h0 : QueuesFit d) : QueuesFit (doLinkedCommandEffect d i) := by
  unfold doLinkedCommandEffect
  repeat' first
    | with_reducible assumption
    | with_reducible apply cmdErr_fit
    | with_reducible apply commandNow_fit
    | with_reducible apply modPtn_fit
    | simp -implicitDefEqProofs only [QueuesFit.lit]
    | split
    | intro _
    | dsimp only
theorem doHold_fit (d : Dev) (gi i e : Nat) (intact : Bool) (h0 : QueuesFit d) : QueuesFit (doHold d gi i e intact) := by
  unfold doHold
  repeat' first
    | with_reducible assumption
    | with_reducible apply linkedMsg_fit
    | with_reducible apply modPtn_fit
    | with_reducible apply on_fit
    | with_reducible apply passOn_fit
    | with_reducible apply raiseSysFreeze_fit
    | simp -implicitDefEqProofs only [QueuesFit.lit]
    | split
    | intro _
    | dsimp only
theorem doReady_fit (d : Dev) (gi i e : Nat) (intact : Bool) (h0 : QueuesFit d) : QueuesFit (doReady d gi i e intact) := by
  unfold doReady
  repeat' first
    | with_reducible assumption
    | with_reducible apply leadGo_fit
    | with_reducible apply linkedMsg_fit
    | with_reducible apply modPtn_fit
    | with_reducible apply passOn_fit
    | simp -implicitDefEqProofs only [QueuesFit.lit]
    | split
    | intro _
    | dsimp only
theorem doGo_fit (d : Dev) (gi i e : Nat) (intact : Bool) (h0 : QueuesFit d) : QueuesFit (doGo d gi i e intact) := by
  unfold doGo
  repeat' first
    | with_reducible assumption
    | with_reducible apply linkedMsg_fit
    | with_reducible apply modPtn_fit
    | with_reducible apply passOn_fit
    | simp -implicitDefEqProofs only [QueuesFit.lit]
    | split
    | intro _
    | dsimp only
theorem doSystemHoldRelease_fit (d : Dev) (i : Nat) (h0 : QueuesFit d) : QueuesFit (doSystemHoldRelease d i) := by
  unfold doSystemHoldRelease
  repeat' first
    | with_reducible assumption
    | with_reducible apply p_fit
    | with_reducible apply setPtn_fit
    | simp -implicitDefEqProofs only [QueuesFit.lit]
    | split
    | intro _
    | dsimp only
theorem doSteps_fit (d : Dev) (gi i : Nat) (cycle : BitVec 48) (count : Nat) (intact : Bool) (h0 : QueuesFit d) : QueuesFit (doSteps d gi i cycle count intact) := by
  unfold doSteps
  repeat' first
    | with_reducible assumption
    | with_reducible apply compareSteps_fit
    | with_reducible apply linkedMsg_fit
    | simp -implicitDefEqProofs only [QueuesFit.lit]
    | split
    | intro _
    | dsimp only
end Sys2Proof.Machine.Dev
end

