-- ==== Sys2Proof/Laws/KeepQueues3.lean ====
section
/-! SUPPORT. No queue comes to hold more than its depth by cluster pages, windows, snapshots, doorbells and couriers. -/

set_option linter.all false

namespace Sys2Proof.Machine.Dev

set_option Elab.async false

theorem atPage_fit (d : Dev) (base : Nat) (k : Dev → Dev) (h0 : QueuesFit d) (hk : ∀ e, QueuesFit e → QueuesFit (k e)) : QueuesFit (atPage d base k) := by
  unfold atPage
  repeat' first
    | with_reducible assumption
    | with_reducible apply hk
    | simp -implicitDefEqProofs only [QueuesFit.lit]
    | split
    | intro _
    | dsimp only
theorem unreachable_fit (d : Dev) (h0 : QueuesFit d) : QueuesFit (unreachable d) := by
  unfold unreachable
  repeat' first
    | with_reducible assumption
    | with_reducible apply add_fit
    | simp -implicitDefEqProofs only [QueuesFit.lit]
    | split
    | intro _
    | dsimp only
theorem viaFence_fit (d : Dev) (fn : Fn) (h : Option Nat) (off : Nat) (write : Bool) (fail k : Dev → Dev) (h0 : QueuesFit d) (hf : ∀ e, QueuesFit e → QueuesFit (fail e)) (hk : ∀ e, QueuesFit e → QueuesFit (k e)) : QueuesFit (viaFence d fn h off write fail k) := by
  unfold viaFence
  repeat' first
    | with_reducible assumption
    | with_reducible apply hf
    | with_reducible apply hk
    | with_reducible apply viaNoc_fit
    | with_reducible apply hostTimeout_fit
    | with_reducible apply accessError_fit
    | with_reducible apply unreachable_fit
    | simp -implicitDefEqProofs only [QueuesFit.lit]
    | split
    | intro _
    | dsimp only
theorem atCluster_fit (d : Dev) (fn : Fn) (n a : Nat) (write : Bool) (k : Dev → Dev) (h0 : QueuesFit d) (hk : ∀ e, QueuesFit e → QueuesFit (k e)) : QueuesFit (atCluster d fn n a write k) := by
  unfold atCluster
  repeat' first
    | with_reducible assumption
    | with_reducible apply hk
    | with_reducible apply complete_fit
    | with_reducible apply viaFence_fit
    | simp -implicitDefEqProofs only [QueuesFit.lit]
    | split
    | intro _
    | dsimp only
theorem doWriteBack_fit (d : Dev) (n : Nat) (walu : Bool) (t unit s : Nat) (h0 : QueuesFit d) : QueuesFit (doWriteBack d n walu t unit s) := by
  unfold doWriteBack
  repeat' first
    | with_reducible assumption
    | with_reducible apply add_fit
    | with_reducible apply cluIrq_fit
    | with_reducible apply modClu_fit
    | with_reducible apply setBp_fit
    | with_reducible apply setWa_fit
    | simp -implicitDefEqProofs only [QueuesFit.lit]
    | split
    | intro _
    | dsimp only
theorem doRowWriteBack_fit (d : Dev) (n m row : Nat) (h0 : QueuesFit d) : QueuesFit (doRowWriteBack d n m row) := by
  unfold doRowWriteBack
  repeat' first
    | with_reducible assumption
    | with_reducible apply modClu_fit
    | with_reducible apply rowBackDone_fit
    | with_reducible apply setRow_fit
    | simp -implicitDefEqProofs only [QueuesFit.lit]
    | split
    | intro _
    | dsimp only
theorem doBpiClr_fit (d : Dev) (n : Nat) (h0 : QueuesFit d) : QueuesFit (doBpiClr d n) := by
  unfold doBpiClr
  repeat' first
    | with_reducible assumption
    | with_reducible apply clr_fit
    | simp -implicitDefEqProofs only [QueuesFit.lit]
    | split
    | intro _
    | dsimp only
theorem doWliClr_fit (d : Dev) (n : Nat) (h0 : QueuesFit d) : QueuesFit (doWliClr d n) := by
  unfold doWliClr
  repeat' first
    | with_reducible assumption
    | with_reducible apply clr_fit
    | simp -implicitDefEqProofs only [QueuesFit.lit]
    | split
    | intro _
    | dsimp only
theorem doFabClr_fit (d : Dev) (n : Nat) (h0 : QueuesFit d) : QueuesFit (doFabClr d n) := by
  unfold doFabClr
  repeat' first
    | with_reducible assumption
    | with_reducible apply clr_fit
    | simp -implicitDefEqProofs only [QueuesFit.lit]
    | split
    | intro _
    | dsimp only
theorem doDmemClr_fit (d : Dev) (n : Nat) (h0 : QueuesFit d) : QueuesFit (doDmemClr d n) := by
  unfold doDmemClr
  repeat' first
    | with_reducible assumption
    | with_reducible apply clr_fit
    | simp -implicitDefEqProofs only [QueuesFit.lit]
    | split
    | intro _
    | dsimp only
theorem doDmemCfg_fit (d : Dev) (n off v : Nat) (h0 : QueuesFit d) : QueuesFit (doDmemCfg d n off v) := by
  unfold doDmemCfg
  repeat' first
    | with_reducible assumption
    | with_reducible apply writeWord_fit
    | simp -implicitDefEqProofs only [QueuesFit.lit]
    | split
    | intro _
    | dsimp only
theorem doFmpCfg_fit (d : Dev) (n off v : Nat) (h0 : QueuesFit d) : QueuesFit (doFmpCfg d n off v) := by
  unfold doFmpCfg
  repeat' first
    | with_reducible assumption
    | with_reducible apply writeWord_fit
    | simp -implicitDefEqProofs only [QueuesFit.lit]
    | split
    | intro _
    | dsimp only
theorem doTxpCfg_fit (d : Dev) (n off v : Nat) (h0 : QueuesFit d) : QueuesFit (doTxpCfg d n off v) := by
  unfold doTxpCfg
  repeat' first
    | with_reducible assumption
    | with_reducible apply releasePort_fit
    | with_reducible apply writeWord_fit
    | simp -implicitDefEqProofs only [QueuesFit.lit]
    | split
    | intro _
    | dsimp only
theorem farUe_fit (d : Dev) (n f addr : Nat) (h0 : QueuesFit d) : QueuesFit (farUe d n f addr) := by
  unfold farUe
  repeat' first
    | with_reducible assumption
    | with_reducible apply add_fit
    | with_reducible apply cluIrq_fit
    | with_reducible apply raiseUpset_fit
    | with_reducible apply recordRow_fit
    | with_reducible apply tick_fit
    | simp -implicitDefEqProofs only [QueuesFit.lit]
    | split
    | intro _
    | dsimp only
theorem farStatus_fit (d : Dev) (n f addr status : Nat) (h0 : QueuesFit d) : QueuesFit (farStatus d n f addr status) := by
  unfold farStatus
  repeat' first
    | with_reducible assumption
    | with_reducible apply farUe_fit
    | simp -implicitDefEqProofs only [QueuesFit.lit]
    | split
    | intro _
    | dsimp only
theorem farHeard_fit (d : Dev) (n f addr status : Nat) (h0 : QueuesFit d) : QueuesFit (farHeard d n f addr status) := by
  unfold farHeard
  repeat' first
    | with_reducible assumption
    | with_reducible apply farStatus_fit
    | with_reducible apply iff_fit
    | simp -implicitDefEqProofs only [QueuesFit.lit]
    | split
    | intro _
    | dsimp only
theorem farPerform_fit (d : Dev) (n f : Nat) (a : FarAcc) (h0 : QueuesFit d) : QueuesFit (farPerform d n f a).1 := by
  unfold farPerform
  repeat' first
    | with_reducible assumption
    | with_reducible apply farHeard_fit
    | with_reducible apply hbmRead_fit
    | with_reducible apply hbmWrite_fit
    | simp -implicitDefEqProofs only [QueuesFit.lit]
    | split
    | intro _
    | dsimp only
theorem farPrefix_fit (d : Dev) (n f k : Nat) (h0 : QueuesFit d) : QueuesFit (farPrefix d n f k) := by
  unfold farPrefix
  repeat' first
    | with_reducible assumption
    | with_reducible apply farPerform_fit
    | with_reducible apply setFar_fit
    | with_reducible apply foldl_fit
    | with_reducible apply fold1_fit
    | simp -implicitDefEqProofs only [QueuesFit.lit]
    | split
    | intro _
    | dsimp only
theorem farFree_fit (d : Dev) (n f k : Nat) (h0 : QueuesFit d) : QueuesFit (farFree d n f k) := by
  unfold farFree
  repeat' first
    | with_reducible assumption
    | with_reducible apply freeOutst_fit
    | with_reducible apply setFar_fit
    | simp -implicitDefEqProofs only [QueuesFit.lit]
    | split
    | intro _
    | dsimp only
theorem farEnd_fit (d : Dev) (n f k : Nat) (h0 : QueuesFit d) : QueuesFit (farEnd d n f k) := by
  unfold farEnd
  repeat' first
    | with_reducible assumption
    | with_reducible apply farAcked_fit
    | with_reducible apply farFree_fit
    | with_reducible apply setFar_fit
    | simp -implicitDefEqProofs only [QueuesFit.lit]
    | split
    | intro _
    | dsimp only
theorem farComplete_fit (d : Dev) (n f k : Nat) (h0 : QueuesFit d) : QueuesFit (farComplete d n f k) := by
  unfold farComplete
  repeat' first
    | with_reducible assumption
    | with_reducible apply farEnd_fit
    | with_reducible apply farPrefix_fit
    | with_reducible apply farReserve_fit
    | with_reducible apply iff_fit
    | simp -implicitDefEqProofs only [QueuesFit.lit]
    | split
    | intro _
    | dsimp only
theorem doFarRead_fit (d : Dev) (n f : Nat) (h0 : QueuesFit d) : QueuesFit (doFarRead d n f) := by
  unfold doFarRead
  repeat' first
    | with_reducible assumption
    | with_reducible apply farComplete_fit
    | simp -implicitDefEqProofs only [QueuesFit.lit]
    | split
    | intro _
    | dsimp only
theorem doFarAck_fit (d : Dev) (n f : Nat) (h0 : QueuesFit d) : QueuesFit (doFarAck d n f) := by
  unfold doFarAck
  repeat' first
    | with_reducible assumption
    | with_reducible apply farComplete_fit
    | simp -implicitDefEqProofs only [QueuesFit.lit]
    | split
    | intro _
    | dsimp only
theorem farAnswered_fit (d : Dev) (n f k status : Nat) (bs : List Byte) (h0 : QueuesFit d) : QueuesFit (farAnswered d n f k status bs) := by
  unfold farAnswered
  repeat' first
    | with_reducible assumption
    | with_reducible apply farEnd_fit
    | with_reducible apply farPrefix_fit
    | with_reducible apply farStatus_fit
    | with_reducible apply setFar_fit
    | simp -implicitDefEqProofs only [QueuesFit.lit]
    | split
    | intro _
    | dsimp only
theorem farTimeout_fit (d : Dev) (n f k : Nat) (h0 : QueuesFit d) : QueuesFit (farTimeout d n f k) := by
  unfold farTimeout
  repeat' first
    | with_reducible assumption
    | with_reducible apply farEnd_fit
    | with_reducible apply farPrefix_fit
    | with_reducible apply farStatus_fit
    | with_reducible apply setFar_fit
    | with_reducible apply tick_fit
    | simp -implicitDefEqProofs only [QueuesFit.lit]
    | split
    | intro _
    | dsimp only
theorem landFar_fit (d : Dev) (n : Nat) (sure : Bool) (h0 : QueuesFit d) : QueuesFit (landFar d n sure) := by
  unfold landFar
  repeat' first
    | with_reducible assumption
    | with_reducible apply each_fit
    | with_reducible apply farPerform_fit
    | with_reducible apply tick_fit
    | simp -implicitDefEqProofs only [QueuesFit.lit]
    | split
    | intro _
    | dsimp only
theorem farDrain_fit (d : Dev) (n : Nat) (h0 : QueuesFit d) : QueuesFit (farDrain d n) := by
  unfold farDrain
  repeat' first
    | with_reducible assumption
    | with_reducible apply each_fit
    | with_reducible apply farPrefix_fit
    | with_reducible apply freeOutst_fit
    | with_reducible apply setFar_fit
    | with_reducible apply settleFences_fit
    | simp -implicitDefEqProofs only [QueuesFit.lit]
    | split
    | intro _
    | dsimp only
theorem doCopyFill_fit (d : Dev) (n x : Nat) (h0 : QueuesFit d) : QueuesFit (doCopyFill d n x) := by
  unfold doCopyFill
  repeat' first
    | with_reducible assumption
    | with_reducible apply setQueue_fit
    | exact Fits.same (QueuesFit.queue (by assumption) _) (Eq.refl _) (Eq.refl _) (Eq.refl _) (Eq.refl _)
    | exact fun _ h => Fits.same h (Eq.refl _) (Eq.refl _) (Eq.refl _) (Eq.refl _)
    | exact fun x hx => Fits.of hx id (Nat.zero_le _) (Nat.zero_le _) (Eq.refl _)
    | simp -implicitDefEqProofs only [QueuesFit.lit]
    | split
    | intro _
    | dsimp only
theorem doCreditRenew_fit (d : Dev) (n x : Nat) (h0 : QueuesFit d) : QueuesFit (doCreditRenew d n x) := by
  unfold doCreditRenew
  split
  · exact h0
  · next q hq =>
    dsimp only
    split
    · next h =>
      simp only [Bool.and_eq_true, decide_eq_true_eq] at h
      refine modClu_fit _ _ _ (setQueue_fit _ _ _ h0 (Or.inr ?_))
      have := h.2
      simp only [Queue.free, Queue.cap] at this ⊢
      omega
    · exact h0
theorem classRead_fit (d : Dev) (n c t m o : Nat) (h0 : QueuesFit d) : QueuesFit (classRead d n c t m o).1 := by
  unfold classRead
  repeat' first
    | with_reducible assumption
    | with_reducible apply checkMesh_fit
    | with_reducible apply checkPort_fit
    | with_reducible apply fetchBp_fit
    | with_reducible apply fetchWa_fit
    | with_reducible apply readRow_fit
    | simp -implicitDefEqProofs only [QueuesFit.lit]
    | split
    | intro _
    | dsimp only
theorem rewriteBp_fit (d : Dev) (n k v : Nat) (h0 : QueuesFit d) : QueuesFit (rewriteBp d n k v) := by
  unfold rewriteBp
  repeat' first
    | with_reducible assumption
    | with_reducible apply modClu_fit
    | with_reducible apply setBp_fit
    | simp -implicitDefEqProofs only [QueuesFit.lit]
    | split
    | intro _
    | dsimp only
theorem rewriteWa_fit (d : Dev) (n k v : Nat) (h0 : QueuesFit d) : QueuesFit (rewriteWa d n k v) := by
  unfold rewriteWa
  repeat' first
    | with_reducible assumption
    | with_reducible apply modClu_fit
    | with_reducible apply setWa_fit
    | simp -implicitDefEqProofs only [QueuesFit.lit]
    | split
    | intro _
    | dsimp only
theorem rewriteRow_fit (d : Dev) (n k v : Nat) (h0 : QueuesFit d) : QueuesFit (rewriteRow d n k v) := by
  unfold rewriteRow
  repeat' first
    | with_reducible assumption
    | with_reducible apply modClu_fit
    | with_reducible apply setRow_fit
    | simp -implicitDefEqProofs only [QueuesFit.lit]
    | split
    | intro _
    | dsimp only
theorem classWrite_fit (d : Dev) (n c t m o v : Nat) (h0 : QueuesFit d) : QueuesFit (classWrite d n c t m o v) := by
  unfold classWrite
  repeat' first
    | with_reducible assumption
    | with_reducible apply each_fit
    | with_reducible apply rewriteBp_fit
    | with_reducible apply rewriteRow_fit
    | with_reducible apply rewriteWa_fit
    | with_reducible apply setMesh_fit
    | with_reducible apply setPort_fit
    | with_reducible apply setSt_fit
    | simp -implicitDefEqProofs only [QueuesFit.lit]
    | split
    | intro _
    | dsimp only
theorem winWake_fit (d : Dev) (n c : Nat) (h0 : QueuesFit d) : QueuesFit (winWake d n c) := by
  unfold winWake
  repeat' first
    | with_reducible assumption
    | with_reducible apply wake_fit
    | simp -implicitDefEqProofs only [QueuesFit.lit]
    | split
    | intro _
    | dsimp only
theorem winRead_fit (d : Dev) (n w off : Nat) (h0 : QueuesFit d) : QueuesFit (winRead d n w off).1 := by
  unfold winRead
  repeat' first
    | with_reducible assumption
    | with_reducible apply classRead_fit
    | with_reducible apply on_fit
    | with_reducible apply winWake_fit
    | simp -implicitDefEqProofs only [QueuesFit.lit]
    | split
    | intro _
    | dsimp only
theorem doWindowRead_fit (d : Dev) (fn : Fn) (n w off : Nat) (h0 : QueuesFit d) : QueuesFit (doWindowRead d fn n w off) := by
  unfold doWindowRead
  repeat' first
    | with_reducible assumption
    | with_reducible apply atCluster_fit
    | with_reducible apply reply_fit
    | with_reducible apply winRead_fit
    | simp -implicitDefEqProofs only [QueuesFit.lit]
    | split
    | intro _
    | dsimp only
theorem winWrite_fit (d : Dev) (n w off v : Nat) (h0 : QueuesFit d) : QueuesFit (winWrite d n w off v) := by
  unfold winWrite
  repeat' first
    | with_reducible assumption
    | with_reducible apply classWrite_fit
    | with_reducible apply on_fit
    | with_reducible apply winWake_fit
    | simp -implicitDefEqProofs only [QueuesFit.lit]
    | split
    | intro _
    | dsimp only
theorem doWindowWrite_fit (d : Dev) (fn : Fn) (n w off v : Nat) (h0 : QueuesFit d) : QueuesFit (doWindowWrite d fn n w off v) := by
  unfold doWindowWrite
  repeat' first
    | with_reducible assumption
    | with_reducible apply atCluster_fit
    | with_reducible apply winWrite_fit
    | simp -implicitDefEqProofs only [QueuesFit.lit]
    | split
    | intro _
    | dsimp only
theorem doWindowTimeout_fit (d : Dev) (fn : Fn) (n w off : Nat) (h0 : QueuesFit d) : QueuesFit (doWindowTimeout d fn n w off) := by
  unfold doWindowTimeout
  repeat' first
    | with_reducible assumption
    | with_reducible apply atCluster_fit
    | with_reducible apply on_fit
    | with_reducible apply reply_fit
    | simp -implicitDefEqProofs only [QueuesFit.lit]
    | split
    | intro _
    | dsimp only
theorem clearMemories_fit (d : Dev) (n : Nat) (h0 : QueuesFit d) : QueuesFit (clearMemories d n) := by
  unfold clearMemories
  repeat' first
    | with_reducible assumption
    | with_reducible apply reset_fit
    | simp -implicitDefEqProofs only [QueuesFit.lit]
    | split
    | intro _
    | dsimp only
theorem saveRows_fit (d : Dev) (n m : Nat) (h0 : QueuesFit d) : QueuesFit (saveRows d n m).1 := by
  unfold saveRows
  repeat' first
    | with_reducible assumption
    | with_reducible apply each_fit
    | with_reducible apply readRow_fit
    | simp -implicitDefEqProofs only [QueuesFit.lit]
    | split
    | intro _
    | dsimp only
theorem saveBlocks_fit (d : Dev) (n : Nat) (h0 : QueuesFit d) : QueuesFit (saveBlocks d n).1 := by
  unfold saveBlocks
  repeat' first
    | with_reducible assumption
    | with_reducible apply saveRows_fit
    | with_reducible apply foldl_fit
    | with_reducible apply fold1_fit
    | simp -implicitDefEqProofs only [QueuesFit.lit]
    | split
    | intro _
    | dsimp only
theorem saveSection_fit (d : Dev) (n : Nat) (h0 : QueuesFit d) : QueuesFit (saveSection d n).1 := by
  have h := saveBlocks_fit d n h0
  have e : saveSection d n = ((d.saveBlocks n).1, sectionBytes (d.sectionFront n) (d.saveBlocks n).2) := by unfold saveSection; rfl
  rw [e]
  generalize saveBlocks d n = r at h ⊢
  exact h
theorem snapPut_fit (d : Dev) (i a : Nat) (bs : List Byte) (h0 : QueuesFit d) : QueuesFit (snapPut d i a bs) := by
  unfold snapPut
  repeat' first
    | with_reducible assumption
    | with_reducible apply hbmPut_fit
    | simp -implicitDefEqProofs only [QueuesFit.lit]
    | split
    | intro _
    | dsimp only
theorem snapGet_fit (d : Dev) (i a n : Nat) (h0 : QueuesFit d) : QueuesFit (snapGet d i a n).1 := by
  unfold snapGet
  repeat' first
    | with_reducible assumption
    | with_reducible apply hbmGet_fit
    | simp -implicitDefEqProofs only [QueuesFit.lit]
    | split
    | intro _
    | dsimp only
theorem cutPut_fit (d : Dev) (i a : Nat) (bs : List Byte) (h0 : QueuesFit d) : QueuesFit (cutPut d i a bs) := by
  unfold cutPut
  repeat' first
    | with_reducible assumption
    | with_reducible apply each_fit
    | with_reducible apply iff_fit
    | with_reducible apply snapPut_fit
    | with_reducible apply tick_fit
    | simp -implicitDefEqProofs only [QueuesFit.lit]
    | split
    | intro _
    | dsimp only
theorem copyRegions_fit (d : Dev) (i : Nat) (out cut : Bool) (h0 : QueuesFit d) : QueuesFit (copyRegions d i out cut) := by
  unfold copyRegions
  repeat' first
    | with_reducible assumption
    | with_reducible apply cutPut_fit
    | with_reducible apply snapGet_fit
    | with_reducible apply snapPut_fit
    | with_reducible apply foldl_fit
    | with_reducible apply fold1_fit
    | simp -implicitDefEqProofs only [QueuesFit.lit]
    | split
    | intro _
    | dsimp only
theorem snapEnd_fit (d : Dev) (i result : Nat) (h0 : QueuesFit d) : QueuesFit (snapEnd d i result) := by
  unfold snapEnd
  repeat' first
    | with_reducible assumption
    | with_reducible apply irq_fit
    | with_reducible apply mntFree_fit
    | with_reducible apply modPtn_fit
    | with_reducible apply on_fit
    | with_reducible apply p_fit
    | simp -implicitDefEqProofs only [QueuesFit.lit]
    | split
    | intro _
    | dsimp only
theorem snapBegin_fit (d : Dev) (i st : Nat) (h0 : QueuesFit d) : QueuesFit (snapBegin d i st) := by
  unfold snapBegin
  repeat' first
    | with_reducible assumption
    | with_reducible apply mntRequest_fit
    | with_reducible apply p_fit
    | with_reducible apply snapEnd_fit
    | with_reducible apply wakeAll_fit
    | simp -implicitDefEqProofs only [QueuesFit.lit]
    | split
    | intro _
    | dsimp only
theorem startSave_fit (d : Dev) (i : Nat) (h0 : QueuesFit d) : QueuesFit (startSave d i) := by
  unfold startSave
  repeat' first
    | with_reducible assumption
    | with_reducible apply snapBegin_fit
    | with_reducible apply snapEnd_fit
    | with_reducible apply snapPut_fit
    | simp -implicitDefEqProofs only [QueuesFit.lit]
    | split
    | intro _
    | dsimp only
theorem doSnapSave_fit (d : Dev) (i : Nat) (h0 : QueuesFit d) : QueuesFit (doSnapSave d i) := by
  unfold doSnapSave
  repeat' first
    | with_reducible assumption
    | with_reducible apply p_fit
    | with_reducible apply startSave_fit
    | simp -implicitDefEqProofs only [QueuesFit.lit]
    | split
    | intro _
    | dsimp only
theorem saveSections_fit (d : Dev) (i : Nat) (h0 : QueuesFit d) : QueuesFit (saveSections d i) := by
  unfold saveSections
  repeat' first
    | with_reducible assumption
    | with_reducible apply saveSection_fit
    | with_reducible apply snapPut_fit
    | with_reducible apply foldl_fit
    | with_reducible apply fold1_fit
    | simp -implicitDefEqProofs only [QueuesFit.lit]
    | split
    | intro _
    | dsimp only
theorem doSnapSaveComplete_fit (d : Dev) (i : Nat) (h0 : QueuesFit d) : QueuesFit (doSnapSaveComplete d i) := by
  unfold doSnapSaveComplete
  repeat' first
    | with_reducible assumption
    | with_reducible apply copyRegions_fit
    | with_reducible apply p_fit
    | with_reducible apply saveSections_fit
    | with_reducible apply snapEnd_fit
    | with_reducible apply snapPut_fit
    | simp -implicitDefEqProofs only [QueuesFit.lit]
    | split
    | intro _
    | dsimp only
theorem doSnapRestore_fit (d : Dev) (i : Nat) (h0 : QueuesFit d) : QueuesFit (doSnapRestore d i) := by
  unfold doSnapRestore
  repeat' first
    | with_reducible assumption
    | with_reducible apply p_fit
    | with_reducible apply snapBegin_fit
    | with_reducible apply snapEnd_fit
    | simp -implicitDefEqProofs only [QueuesFit.lit]
    | split
    | intro _
    | dsimp only
theorem checkSections_fit (d : Dev) (i : Nat) (h0 : QueuesFit d) : QueuesFit (checkSections d i).1 := by
  have h (n : Nat) (a : Nat → Nat) (ks : List Nat) (x : Dev × Bool) (hx : QueuesFit x.1) :
      QueuesFit (ks.foldl (fun x k => let y := x.1.snapGet i (a k) n; (y.1, x.2 && sectionOk y.2)) x).1 := by
    induction ks generalizing x with
    | nil => exact hx
    | cons k ks ih =>
      rw [List.foldl_cons]
      exact ih _ (snapGet_fit x.1 i (a k) n hx)
  unfold checkSections
  exact h snapSection (fun k => d.sectionAt i k) _ _ h0
theorem snapCheck_fit (d : Dev) (i : Nat) (ids : List Nat) (shape : Bool) (h0 : QueuesFit d) : QueuesFit (snapCheck d i ids shape).1 := by
  unfold snapCheck
  repeat' first
    | with_reducible assumption
    | with_reducible apply checkSections_fit
    | with_reducible apply snapGet_fit
    | simp -implicitDefEqProofs only [QueuesFit.lit]
    | split
    | intro _
    | dsimp only
theorem doSnapCheckComplete_fit (d : Dev) (i : Nat) (h0 : QueuesFit d) : QueuesFit (doSnapCheckComplete d i) := by
  unfold doSnapCheckComplete
  repeat' first
    | with_reducible assumption
    | with_reducible apply p_fit
    | with_reducible apply snapCheck_fit
    | with_reducible apply snapEnd_fit
    | simp -implicitDefEqProofs only [QueuesFit.lit]
    | split
    | intro _
    | dsimp only
theorem loadFar_fit (d : Dev) (n : Nat) (bs : List Byte) (h0 : QueuesFit d) : QueuesFit (loadFar d n bs) := by
  unfold loadFar
  repeat' first
    | with_reducible assumption
    | with_reducible apply each_fit
    | with_reducible apply farDrain_fit
    | with_reducible apply setFar_fit
    | simp -implicitDefEqProofs only [QueuesFit.lit]
    | split
    | intro _
    | dsimp only
theorem loadBlock_fit (d : Dev) (n : Nat) (bs : List Byte) (m : Nat) (h0 : QueuesFit d) : QueuesFit (loadBlock d n bs m) := by
  unfold loadBlock
  repeat' first
    | with_reducible assumption
    | with_reducible apply each_fit
    | with_reducible apply rewriteRow_fit
    | simp -implicitDefEqProofs only [QueuesFit.lit]
    | split
    | intro _
    | dsimp only
theorem loadSection_fit (d : Dev) (n : Nat) (bs : List Byte) (h0 : QueuesFit d) : QueuesFit (loadSection d n bs) := by
  unfold loadSection
  repeat' first
    | with_reducible assumption
    | with_reducible apply each_fit
    | with_reducible apply loadBlock_fit
    | with_reducible apply loadFar_fit
    | with_reducible apply setSt_fit
    | simp -implicitDefEqProofs only [QueuesFit.lit]
    | split
    | intro _
    | dsimp only
theorem restoreSection_fit (d : Dev) (i k n : Nat) (h0 : QueuesFit d) : QueuesFit (restoreSection d i k n) := by
  unfold restoreSection
  repeat' first
    | with_reducible assumption
    | with_reducible apply loadSection_fit
    | with_reducible apply snapGet_fit
    | simp -implicitDefEqProofs only [QueuesFit.lit]
    | split
    | intro _
    | dsimp only
theorem loadSnapshot_fit (d : Dev) (i : Nat) (h0 : QueuesFit d) : QueuesFit (loadSnapshot d i) := by
  unfold loadSnapshot
  repeat' first
    | with_reducible assumption
    | with_reducible apply copyRegions_fit
    | with_reducible apply forgetSigs_fit
    | with_reducible apply forgetSteps_fit
    | with_reducible apply modPtn_fit
    | with_reducible apply p_fit
    | with_reducible apply restoreSection_fit
    | with_reducible apply setSt_fit
    | with_reducible apply snapGet_fit
    | with_reducible apply tick_fit
    | with_reducible apply foldl_fit
    | with_reducible apply fold1_fit
    | simp -implicitDefEqProofs only [QueuesFit.lit]
    | split
    | intro _
    | dsimp only
theorem doSnapRestoreComplete_fit (d : Dev) (i : Nat) (h0 : QueuesFit d) : QueuesFit (doSnapRestoreComplete d i) := by
  unfold doSnapRestoreComplete
  repeat' first
    | with_reducible assumption
    | with_reducible apply frozenIrq_fit
    | with_reducible apply loadSnapshot_fit
    | with_reducible apply modPtn_fit
    | with_reducible apply p_fit
    | with_reducible apply snapEnd_fit
    | simp -implicitDefEqProofs only [QueuesFit.lit]
    | split
    | intro _
    | dsimp only
theorem cutSave_fit (d : Dev) (i : Nat) (h0 : QueuesFit d) : QueuesFit (cutSave d i) := by
  unfold cutSave
  repeat' first
    | with_reducible assumption
    | with_reducible apply copyRegions_fit
    | with_reducible apply cutPut_fit
    | with_reducible apply iff_fit
    | with_reducible apply saveSection_fit
    | with_reducible apply foldl_fit
    | with_reducible apply fold1_fit
    | simp -implicitDefEqProofs only [QueuesFit.lit]
    | split
    | intro _
    | dsimp only
theorem scrambleRows_fit (d : Dev) (n gen : Nat) (h0 : QueuesFit d) : QueuesFit (scrambleRows d n gen) := by
  unfold scrambleRows
  repeat' first
    | with_reducible assumption
    | with_reducible apply each_fit
    | with_reducible apply rewriteRow_fit
    | simp -implicitDefEqProofs only [QueuesFit.lit]
    | split
    | intro _
    | dsimp only
theorem scrambleTiles_fit (d : Dev) (n : Nat) (h0 : QueuesFit d) : QueuesFit (scrambleTiles d n) := by
  unfold scrambleTiles
  repeat' first
    | with_reducible assumption
    | with_reducible apply setSt_fit
    | with_reducible apply tick_fit
    | simp -implicitDefEqProofs only [QueuesFit.lit]
    | split
    | intro _
    | dsimp only
theorem scrambleCluster_fit (d : Dev) (n : Nat) (h0 : QueuesFit d) : QueuesFit (scrambleCluster d n) := by
  unfold scrambleCluster
  repeat' first
    | with_reducible assumption
    | with_reducible apply scrambleRows_fit
    | with_reducible apply scrambleTiles_fit
    | simp -implicitDefEqProofs only [QueuesFit.lit]
    | split
    | intro _
    | dsimp only
theorem scrambleFar_fit (d : Dev) (n : Nat) (h0 : QueuesFit d) : QueuesFit (scrambleFar d n) := by
  unfold scrambleFar
  repeat' first
    | with_reducible assumption
    | with_reducible apply each_fit
    | with_reducible apply farDrain_fit
    | with_reducible apply setFar_fit
    | with_reducible apply tick_fit
    | simp -implicitDefEqProofs only [QueuesFit.lit]
    | split
    | intro _
    | dsimp only
theorem scrambleState_fit (d : Dev) (i : Nat) (far : Bool) (h0 : QueuesFit d) : QueuesFit (scrambleState d i far) := by
  unfold scrambleState
  repeat' first
    | with_reducible assumption
    | with_reducible apply each_fit
    | with_reducible apply modPtn_fit
    | with_reducible apply p_fit
    | with_reducible apply scrambleCluster_fit
    | with_reducible apply scrambleFar_fit
    | with_reducible apply snapPut_fit
    | with_reducible apply tick_fit
    | simp -implicitDefEqProofs only [QueuesFit.lit]
    | split
    | intro _
    | dsimp only
theorem unload_fit (d : Dev) (i : Nat) (h0 : QueuesFit d) : QueuesFit (unload d i) := by
  unfold unload
  repeat' first
    | with_reducible assumption
    | with_reducible apply p_fit
    | simp -implicitDefEqProofs only [QueuesFit.lit]
    | split
    | intro _
    | dsimp only
theorem doSnapAbort_fit (d : Dev) (i : Nat) (h0 : QueuesFit d) : QueuesFit (doSnapAbort d i) := by
  unfold doSnapAbort
  repeat' first
    | with_reducible assumption
    | with_reducible apply cutSave_fit
    | with_reducible apply scrambleState_fit
    | with_reducible apply snapEnd_fit
    | with_reducible apply snapGet_fit
    | with_reducible apply unload_fit
    | simp -implicitDefEqProofs only [QueuesFit.lit]
    | split
    | intro _
    | dsimp only
theorem doFreezeSettled_fit (d : Dev) (i : Nat) (h0 : QueuesFit d) : QueuesFit (doFreezeSettled d i) := by
  unfold doFreezeSettled
  repeat' first
    | with_reducible assumption
    | with_reducible apply doSnapSave_fit
    | with_reducible apply frozenIrq_fit
    | with_reducible apply modPtn_fit
    | with_reducible apply p_fit
    | with_reducible apply setSt_fit
    | with_reducible apply tick_fit
    | with_reducible apply foldl_fit
    | with_reducible apply fold1_fit
    | simp -implicitDefEqProofs only [QueuesFit.lit]
    | split
    | intro _
    | dsimp only
theorem bar4Error_fit (d : Dev) (fn : Fn) (off : Nat) (write : Bool) (h0 : QueuesFit d) : QueuesFit (bar4Error d fn off write) := by
  unfold bar4Error
  repeat' first
    | with_reducible assumption
    | with_reducible apply accessError_fit
    | with_reducible apply emit_fit
    | simp -implicitDefEqProofs only [QueuesFit.lit]
    | split
    | intro _
    | dsimp only
theorem atSlot_fit (d : Dev) (fn : Fn) (slot off : Nat) (k : Dev → Nat → Dev) (h0 : QueuesFit d) (hk : ∀ e q, QueuesFit e → QueuesFit (k e q)) : QueuesFit (atSlot d fn slot off k) := by
  unfold atSlot
  repeat' first
    | with_reducible assumption
    | with_reducible apply hk
    | with_reducible apply viaNoc_fit
    | with_reducible apply bar4Error_fit
    | with_reducible apply id_fit
    | simp -implicitDefEqProofs only [QueuesFit.lit]
    | split
    | intro _
    | dsimp only
theorem doDoorbell_fit (d : Dev) (fn : Fn) (slot : Nat) (fin fence : Bool) (w : W64) (h0 : QueuesFit d) : QueuesFit (doDoorbell d fn slot fin fence w) := by
  unfold doDoorbell
  repeat' first
    | with_reducible assumption
    | with_reducible apply append_fit
    | with_reducible apply atSlot_fit
    | simp -implicitDefEqProofs only [QueuesFit.lit]
    | split
    | intro _
    | dsimp only
theorem doDoorbellMulti_fit (d : Dev) (fn : Fn) (slot : Nat) (ws : List W64) (h0 : QueuesFit d) : QueuesFit (doDoorbellMulti d fn slot ws) := by
  unfold doDoorbellMulti
  repeat' first
    | with_reducible assumption
    | with_reducible apply appendAll_fit
    | with_reducible apply atSlot_fit
    | with_reducible apply bar4Error_fit
    | with_reducible apply dropWrite_fit
    | with_reducible apply notifyKinds_fit
    | simp -implicitDefEqProofs only [QueuesFit.lit]
    | split
    | intro _
    | dsimp only
theorem doPop_fit (d : Dev) (fn : Fn) (slot : Nat) (h0 : QueuesFit d) : QueuesFit (doPop d fn slot) := by
  unfold doPop
  repeat' first
    | with_reducible assumption
    | with_reducible apply bar4Error_fit
    | with_reducible apply completePop_fit
    | with_reducible apply emit_fit
    | with_reducible apply emptyPop_fit
    | with_reducible apply markBound_fit
    | with_reducible apply modQueue_fit
    | with_reducible apply viaNoc_fit
    | exact Fits.same (QueuesFit.queue (by assumption) _) (Eq.refl _) (Eq.refl _) (Eq.refl _) (Eq.refl _)
    | exact fun _ h => Fits.same h (Eq.refl _) (Eq.refl _) (Eq.refl _) (Eq.refl _)
    | exact fun x hx => Fits.of hx id (Nat.zero_le _) (Nat.zero_le _) (Eq.refl _)
    | simp -implicitDefEqProofs only [QueuesFit.lit]
    | split
    | intro _
    | dsimp only
theorem doPopWaitExpire_fit (d : Dev) (fn : Fn) (slot : Nat) (h0 : QueuesFit d) : QueuesFit (doPopWaitExpire d fn slot) := by
  unfold doPopWaitExpire
  repeat' first
    | with_reducible assumption
    | with_reducible apply emptyPop_fit
    | with_reducible apply setQueue_fit
    | exact Fits.same (QueuesFit.queue (by assumption) _) (Eq.refl _) (Eq.refl _) (Eq.refl _) (Eq.refl _)
    | exact fun _ h => Fits.same h (Eq.refl _) (Eq.refl _) (Eq.refl _) (Eq.refl _)
    | exact fun x hx => Fits.of hx id (Nat.zero_le _) (Nat.zero_le _) (Eq.refl _)
    | simp -implicitDefEqProofs only [QueuesFit.lit]
    | split
    | intro _
    | dsimp only
theorem doBar4Error_fit (d : Dev) (fn : Fn) (off : Nat) (write : Bool) (h0 : QueuesFit d) : QueuesFit (doBar4Error d fn off write) := by
  unfold doBar4Error
  repeat' first
    | with_reducible assumption
    | with_reducible apply bar4Error_fit
    | simp -implicitDefEqProofs only [QueuesFit.lit]
    | split
    | intro _
    | dsimp only
theorem doQwrExpire_fit (d : Dev) (q : Nat) (h0 : QueuesFit d) : QueuesFit (doQwrExpire d q) := by
  unfold doQwrExpire
  repeat' first
    | with_reducible assumption
    | with_reducible apply respond_fit
    | with_reducible apply setQueue_fit
    | exact Fits.same (QueuesFit.queue (by assumption) _) (Eq.refl _) (Eq.refl _) (Eq.refl _) (Eq.refl _)
    | exact fun _ h => Fits.same h (Eq.refl _) (Eq.refl _) (Eq.refl _) (Eq.refl _)
    | exact fun x hx => Fits.of hx id (Nat.zero_le _) (Nat.zero_le _) (Eq.refl _)
    | simp -implicitDefEqProofs only [QueuesFit.lit]
    | split
    | intro _
    | dsimp only
theorem doQrdExpire_fit (d : Dev) (q : Nat) (h0 : QueuesFit d) : QueuesFit (doQrdExpire d q) := by
  unfold doQrdExpire
  repeat' first
    | with_reducible assumption
    | with_reducible apply respond_fit
    | with_reducible apply setQueue_fit
    | exact Fits.same (QueuesFit.queue (by assumption) _) (Eq.refl _) (Eq.refl _) (Eq.refl _) (Eq.refl _)
    | exact fun _ h => Fits.same h (Eq.refl _) (Eq.refl _) (Eq.refl _) (Eq.refl _)
    | exact fun x hx => Fits.of hx id (Nat.zero_le _) (Nat.zero_le _) (Eq.refl _)
    | simp -implicitDefEqProofs only [QueuesFit.lit]
    | split
    | intro _
    | dsimp only
theorem queueCmd_fit (d : Dev) (q cmd : Nat) (h0 : QueuesFit d) : QueuesFit (queueCmd d q cmd) := by
  unfold queueCmd
  repeat' first
    | with_reducible assumption
    | with_reducible apply dropHeadOf_fit
    | with_reducible apply flushQueue_fit
    | with_reducible apply modQueue_fit
    | exact Fits.same (QueuesFit.queue (by assumption) _) (Eq.refl _) (Eq.refl _) (Eq.refl _) (Eq.refl _)
    | exact fun _ h => Fits.same h (Eq.refl _) (Eq.refl _) (Eq.refl _) (Eq.refl _)
    | exact fun x hx => Fits.of hx id (Nat.zero_le _) (Nat.zero_le _) (Eq.refl _)
    | simp -implicitDefEqProofs only [QueuesFit.lit]
    | split
    | intro _
    | dsimp only
theorem writeQcfg_fit (d : Dev) (q v : Nat) (h0 : QueuesFit d) : QueuesFit (writeQcfg d q v) := by
  unfold writeQcfg
  dsimp only
  split
  · split
    · exact modQueue_fit _ _ _ h0 fun x hx => Fits.same hx rfl rfl rfl rfl
    · exact h0
  · have h1 (f : Queue → Queue) (hf : ∀ x, x.Fits → (f x).Fits) : QueuesFit (d.modQueue q f) := modQueue_fit _ _ _ h0 hf
    have h2 : ∀ x : Queue, x.Fits → ({ (if x.en then x else { x with priv := v.testBit 1, depth := bitsAt v 2 4 } : Queue) with unit := v.testBit 6, notify := v.testBit 7, level := bitsAt v 8 14 } : Queue).Fits := by
      intro x hx
      cases he : x.en
      · exact Or.inl (by simp [he])
      · exact Fits.same hx rfl rfl rfl rfl
    split
    · exact enableQueue_fit _ _ (h1 _ h2)
    · exact disableQueue_fit _ _ (h1 _ h2)
theorem setQueueEn_fit (d : Dev) (q : Nat) (en : Bool) (h0 : QueuesFit d) : QueuesFit (setQueueEn d q en) := by
  unfold setQueueEn
  repeat' first
    | with_reducible assumption
    | with_reducible apply disableQueue_fit
    | with_reducible apply enableQueue_fit
    | simp -implicitDefEqProofs only [QueuesFit.lit]
    | split
    | intro _
    | dsimp only
theorem clearQflags_fit (d : Dev) (q v : Nat) (h0 : QueuesFit d) : QueuesFit (clearQflags d q v) := by
  unfold clearQflags
  repeat' first
    | with_reducible assumption
    | with_reducible apply modQueue_fit
    | exact Fits.same (QueuesFit.queue (by assumption) _) (Eq.refl _) (Eq.refl _) (Eq.refl _) (Eq.refl _)
    | exact fun _ h => Fits.same h (Eq.refl _) (Eq.refl _) (Eq.refl _) (Eq.refl _)
    | exact fun x hx => Fits.of hx id (Nat.zero_le _) (Nat.zero_le _) (Eq.refl _)
    | simp -implicitDefEqProofs only [QueuesFit.lit]
    | split
    | intro _
    | dsimp only
theorem atQueue_fit (d : Dev) (fn : Fn) (q : Nat) (k : Dev → Nat → Dev) (h0 : QueuesFit d) (hk : ∀ e q, QueuesFit e → QueuesFit (k e q)) : QueuesFit (atQueue d fn q k) := by
  unfold atQueue
  repeat' first
    | with_reducible assumption
    | with_reducible apply hk
    | simp -implicitDefEqProofs only [QueuesFit.lit]
    | split
    | intro _
    | dsimp only
theorem putList_fit (d : Dev) (l : Nat) (ws : List Work) (h0 : QueuesFit d) : QueuesFit (putList d l ws) := by
  unfold putList
  repeat' first
    | with_reducible assumption
    | with_reducible apply p_fit
    | with_reducible apply setList_fit
    | simp -implicitDefEqProofs only [QueuesFit.lit]
    | split
    | intro _
    | dsimp only
theorem refuseItem_fit (d : Dev) (l : Nat) (h0 : QueuesFit d) : QueuesFit (refuseItem d l) := by
  unfold refuseItem
  repeat' first
    | with_reducible assumption
    | with_reducible apply add_fit
    | with_reducible apply irq_fit
    | with_reducible apply raise_fit
    | simp -implicitDefEqProofs only [QueuesFit.lit]
    | split
    | intro _
    | dsimp only
theorem judgeItem_fit (d : Dev) (w : Work) (h0 : QueuesFit d) : QueuesFit (judgeItem d w).1 := by
  unfold judgeItem
  repeat' first
    | with_reducible assumption
    | with_reducible apply putList_fit
    | with_reducible apply refuseItem_fit
    | simp -implicitDefEqProofs only [QueuesFit.lit]
    | split
    | intro _
    | dsimp only
theorem placeItem_fit (d : Dev) (fn : Fn) (w : Work) (h0 : QueuesFit d) : QueuesFit (placeItem d fn w) := by
  unfold placeItem
  repeat' first
    | with_reducible assumption
    | with_reducible apply judgeItem_fit
    | with_reducible apply reply_fit
    | simp -implicitDefEqProofs only [QueuesFit.lit]
    | split
    | intro _
    | dsimp only
theorem placeHeld_fit (d : Dev) (h : Work × Fn) (h0 : QueuesFit d) : QueuesFit (placeHeld d h) := by
  unfold placeHeld
  repeat' first
    | with_reducible assumption
    | with_reducible apply answerAt_fit
    | with_reducible apply completeHeld_fit
    | with_reducible apply judgeItem_fit
    | simp -implicitDefEqProofs only [QueuesFit.lit]
    | split
    | intro _
    | dsimp only
theorem placeAllHeld_fit (d : Dev) (l : Nat) (h0 : QueuesFit d) : QueuesFit (placeAllHeld d l) := by
  unfold placeAllHeld
  repeat' first
    | with_reducible assumption
    | with_reducible apply each_fit
    | with_reducible apply placeHeld_fit
    | simp -implicitDefEqProofs only [QueuesFit.lit]
    | split
    | intro _
    | dsimp only
theorem submitList_fit (d : Dev) (fn : Fn) (l : Nat) (h0 : QueuesFit d) : QueuesFit (submitList d fn l) := by
  unfold submitList
  repeat' first
    | with_reducible assumption
    | with_reducible apply placeItem_fit
    | simp -implicitDefEqProofs only [QueuesFit.lit]
    | split
    | intro _
    | dsimp only
theorem doSubmit_fit (d : Dev) (fn : Fn) (h0 : QueuesFit d) : QueuesFit (doSubmit d fn) := by
  unfold doSubmit
  repeat' first
    | with_reducible assumption
    | with_reducible apply complete_fit
    | with_reducible apply submitList_fit
    | with_reducible apply viaNoc_fit
    | simp -implicitDefEqProofs only [QueuesFit.lit]
    | split
    | intro _
    | dsimp only
theorem serveSubmits_fit (m : Nat) (d : Dev) (l : Nat) (h0 : QueuesFit d) : QueuesFit (serveSubmits m d l) := by
  induction m generalizing d with
  | zero => exact h0
  | succ m ih =>
    unfold serveSubmits
    repeat' first
      | with_reducible assumption
      | with_reducible apply ih
      | with_reducible apply placeHeld_fit
      | simp -implicitDefEqProofs only [QueuesFit.lit]
      | split
      | intro _
      | dsimp only
theorem wakeSubmits_fit (d : Dev) (l : Nat) (h0 : QueuesFit d) : QueuesFit (wakeSubmits d l) := by
  unfold wakeSubmits
  repeat' first
    | with_reducible assumption
    | with_reducible apply serveSubmits_fit
    | simp -implicitDefEqProofs only [QueuesFit.lit]
    | split
    | intro _
    | dsimp only
theorem doSubmitExpire_fit (d : Dev) (l : Nat) (h0 : QueuesFit d) : QueuesFit (doSubmitExpire d l) := by
  unfold doSubmitExpire
  repeat' first
    | with_reducible assumption
    | with_reducible apply placeHeld_fit
    | with_reducible apply wakeSubmits_fit
    | simp -implicitDefEqProofs only [QueuesFit.lit]
    | split
    | intro _
    | dsimp only
theorem takeItem_fit {d : Dev} {w : Work} {e : Dev} (h : d.takeItem = some (w, e)) (h0 : QueuesFit d) : QueuesFit e := by
  unfold takeItem at h; dsimp only at h; split at h
  · cases h
  · split at h
    · cases h
    · simp only [Option.some.injEq, Prod.mk.injEq] at h; rw [← h.2]; refine wakeSubmits_fit _ _ ?_; simp -implicitDefEqProofs only [QueuesFit.lit]; exact putList_fit _ _ _ h0
theorem takePacket_fit {d : Dev} {q : Nat} {w : List QWord} {e : Dev} (h : d.takePacket q = some (w, e)) (h0 : QueuesFit d) : QueuesFit e := by
  unfold takePacket at h; dsimp only at h; split at h
  · cases h
  · simp only [Option.some.injEq, Prod.mk.injEq] at h; rw [← h.2]
    refine each_fit _ _ _ (setQueue_fit _ _ _ h0 (Fits.of (h0.queue q) id ?_ (Nat.le_refl _) rfl)) fun e a he => offerQueue_fit e _ _ _ he
    show ((d.queueAt q).words.drop _).length ≤ _
    rw [List.length_drop]; omega
theorem putPacket_fit (d : Dev) (c q : Nat) (ws : List QWord) (h0 : QueuesFit d) : QueuesFit (putPacket d c q ws) := by
  unfold putPacket
  repeat' first
    | with_reducible assumption
    | with_reducible apply append_fit
    | with_reducible apply each_fit
    | simp -implicitDefEqProofs only [QueuesFit.lit]
    | split
    | intro _
    | dsimp only
theorem runQ2H_fit (m : Nat) (d : Dev) (w : Work) (q used : Nat) (x : Courier) (h0 : QueuesFit d) : QueuesFit (runQ2H m d w q used x).1 := by
  induction m generalizing d used x with
  | zero => exact h0
  | succ m ih =>
    unfold runQ2H
    repeat' first
      | with_reducible assumption
      | with_reducible apply ih
      | with_reducible refine takePacket_fit (by assumption) ?_
      | with_reducible apply emit_fit
      | simp -implicitDefEqProofs only [QueuesFit.lit]
      | split
      | intro _
      | dsimp only
theorem runH2Q_fit (m : Nat) (d : Dev) (c : Nat) (w : Work) (q : Nat) (x : Courier) (h0 : QueuesFit d) : QueuesFit (runH2Q m d c w q x).1 := by
  induction m generalizing d x with
  | zero => exact h0
  | succ m ih =>
    unfold runH2Q
    repeat' first
      | with_reducible assumption
      | with_reducible apply ih
      | with_reducible apply putPacket_fit
      | simp -implicitDefEqProofs only [QueuesFit.lit]
      | split
      | intro _
      | dsimp only
theorem runQ2Q_fit (m : Nat) (d : Dev) (c : Nat) (w : Work) (q q2 : Nat) (x : Courier) (h0 : QueuesFit d) : QueuesFit (runQ2Q m d c w q q2 x).1 := by
  induction m generalizing d x with
  | zero => exact h0
  | succ m ih =>
    unfold runQ2Q
    repeat' first
      | with_reducible assumption
      | with_reducible apply ih
      | with_reducible refine takePacket_fit (by assumption) ?_
      | with_reducible apply putPacket_fit
      | simp -implicitDefEqProofs only [QueuesFit.lit]
      | split
      | intro _
      | dsimp only
theorem runCopy_fit (m : Nat) (d : Dev) (c : Nat) (w : Work) (k : Nat) (x : Courier) (h0 : QueuesFit d) : QueuesFit (runCopy m d c w k x).1 := by
  induction m generalizing d k x with
  | zero => exact h0
  | succ m ih =>
    unfold runCopy
    repeat' first
      | with_reducible assumption
      | with_reducible apply ih
      | with_reducible apply emit_fit
      | with_reducible apply hbmFetch_fit
      | with_reducible apply hbmSend_fit
      | simp -implicitDefEqProofs only [QueuesFit.lit]
      | split
      | intro _
      | dsimp only
theorem runItem_fit (d : Dev) (c : Nat) (w : Work) (x : Courier) (h0 : QueuesFit d) : QueuesFit (runItem d c w x).1 := by
  unfold runItem
  repeat' first
    | with_reducible assumption
    | with_reducible apply markBound_fit
    | with_reducible apply runCopy_fit
    | with_reducible apply runH2Q_fit
    | with_reducible apply runQ2H_fit
    | with_reducible apply runQ2Q_fit
    | simp -implicitDefEqProofs only [QueuesFit.lit]
    | split
    | intro _
    | dsimp only
theorem keepItem_fit (d : Dev) (c : Nat) (r : Courier × Bool) (was : Nat) (h0 : QueuesFit d) : QueuesFit (keepItem d c r was) := by
  unfold keepItem
  repeat' first
    | with_reducible assumption
    | with_reducible apply add_fit
    | with_reducible apply p_fit
    | with_reducible apply setCourier_fit
    | simp -implicitDefEqProofs only [QueuesFit.lit]
    | split
    | intro _
    | dsimp only
theorem startItem_fit (d : Dev) (c : Nat) (w : Work) (data : List Byte) (h0 : QueuesFit d) : QueuesFit (startItem d c w data) := by
  unfold startItem
  repeat' first
    | with_reducible assumption
    | with_reducible apply add_fit
    | with_reducible apply keepItem_fit
    | with_reducible apply p_fit
    | with_reducible apply runItem_fit
    | simp -implicitDefEqProofs only [QueuesFit.lit]
    | split
    | intro _
    | dsimp only
theorem doDispatch_fit (d : Dev) (c : Nat) (data : List Byte) (h0 : QueuesFit d) : QueuesFit (doDispatch d c data) := by
  unfold doDispatch
  repeat' first
    | with_reducible assumption
    | with_reducible apply on_fit
    | with_reducible apply setCourier_fit
    | with_reducible apply startItem_fit
    | simp -implicitDefEqProofs only [QueuesFit.lit]
    | split
    | intro _
    | dsimp only
    | with_reducible refine takeItem_fit (by assumption) ?_
theorem writeCompletion_fit (d : Dev) (w : Work) (v : Nat) (h0 : QueuesFit d) : QueuesFit (writeCompletion d w v) := by
  unfold writeCompletion
  repeat' first
    | with_reducible assumption
    | with_reducible apply add_fit
    | with_reducible apply append_fit
    | with_reducible apply irq_fit
    | with_reducible apply raise_fit
    | simp -implicitDefEqProofs only [QueuesFit.lit]
    | split
    | intro _
    | dsimp only
theorem countBusy_fit (d : Dev) (c : Nat) (x : Courier) (h0 : QueuesFit d) : QueuesFit (countBusy d c x) := by
  unfold countBusy
  repeat' first
    | with_reducible assumption
    | with_reducible apply add_fit
    | simp -implicitDefEqProofs only [QueuesFit.lit]
    | split
    | intro _
    | dsimp only
theorem endItem_fit (d : Dev) (c : Nat) (w : Work) (x : Courier) (h0 : QueuesFit d) : QueuesFit (endItem d c w x) := by
  unfold endItem
  repeat' first
    | with_reducible assumption
    | with_reducible apply add_fit
    | with_reducible apply countBusy_fit
    | with_reducible apply p_fit
    | with_reducible apply raise_fit
    | with_reducible apply reset_fit
    | with_reducible apply setCourier_fit
    | with_reducible apply writeCompletion_fit
    | simp -implicitDefEqProofs only [QueuesFit.lit]
    | split
    | intro _
    | dsimp only
theorem doItemComplete_fit (d : Dev) (c : Nat) (h0 : QueuesFit d) : QueuesFit (doItemComplete d c) := by
  unfold doItemComplete
  repeat' first
    | with_reducible assumption
    | with_reducible apply endItem_fit
    | with_reducible apply keepItem_fit
    | with_reducible apply runItem_fit
    | simp -implicitDefEqProofs only [QueuesFit.lit]
    | split
    | intro _
    | dsimp only
theorem doWaitLimit_fit (d : Dev) (c : Nat) (h0 : QueuesFit d) : QueuesFit (doWaitLimit d c) := by
  unfold doWaitLimit
  repeat' first
    | with_reducible assumption
    | with_reducible apply endItem_fit
    | simp -implicitDefEqProofs only [QueuesFit.lit]
    | split
    | intro _
    | dsimp only
theorem doDspClr_fit (d : Dev) (h0 : QueuesFit d) : QueuesFit (doDspClr d) := by
  unfold doDspClr
  repeat' first
    | with_reducible assumption
    | with_reducible apply clr_fit
    | with_reducible apply each_fit
    | with_reducible apply p_fit
    | simp -implicitDefEqProofs only [QueuesFit.lit]
    | split
    | intro _
    | dsimp only
theorem abandon_fit (d : Dev) (src : Nat) (h0 : QueuesFit d) : QueuesFit (abandon d src) := by
  unfold abandon
  repeat' first
    | with_reducible assumption
    | simp -implicitDefEqProofs only [QueuesFit.lit]
    | split
    | intro _
    | dsimp only
theorem resetItems_fit (d : Dev) (i : Nat) (h0 : QueuesFit d) : QueuesFit (resetItems d i) := by
  unfold resetItems
  repeat' first
    | with_reducible assumption
    | with_reducible apply abandon_fit
    | with_reducible apply add_fit
    | with_reducible apply countBusy_fit
    | with_reducible apply each_fit
    | with_reducible apply modQueue_fit
    | with_reducible apply p_fit
    | with_reducible apply putList_fit
    | with_reducible apply reset_fit
    | with_reducible apply setCourier_fit
    | exact Fits.same (QueuesFit.queue (by assumption) _) (Eq.refl _) (Eq.refl _) (Eq.refl _) (Eq.refl _)
    | exact fun _ h => Fits.same h (Eq.refl _) (Eq.refl _) (Eq.refl _) (Eq.refl _)
    | exact fun x hx => Fits.of hx id (Nat.zero_le _) (Nat.zero_le _) (Eq.refl _)
    | simp -implicitDefEqProofs only [QueuesFit.lit]
    | split
    | intro _
    | dsimp only
end Sys2Proof.Machine.Dev
end

