-- ==== Sys2Proof/Laws/KeepQueues4.lean ====
section
/-! SUPPORT. No queue comes to hold more than its depth by resets, engines, partitions and time. -/

set_option linter.all false

namespace Sys2Proof.Machine.Dev

set_option Elab.async false

theorem resetCommon_fit (d : Dev) (base : Nat) (h0 : QueuesFit d) : QueuesFit (resetCommon d base) := by
  unfold resetCommon
  repeat' first
    | with_reducible assumption
    | with_reducible apply resetRange_fit
    | simp -implicitDefEqProofs only [QueuesFit.lit]
    | split
    | intro _
    | dsimp only
theorem resetWindows_fit (d : Dev) (n : Nat) (h0 : QueuesFit d) : QueuesFit (resetWindows d n) := by
  unfold resetWindows
  repeat' first
    | with_reducible assumption
    | with_reducible apply each_fit
    | with_reducible apply resetCommon_fit
    | with_reducible apply resetRange_fit
    | simp -implicitDefEqProofs only [QueuesFit.lit]
    | split
    | intro _
    | dsimp only
theorem resetCluCfg_fit (d : Dev) (n : Nat) (h0 : QueuesFit d) : QueuesFit (resetCluCfg d n) := by
  unfold resetCluCfg
  repeat' first
    | with_reducible assumption
    | with_reducible apply resetRange_fit
    | simp -implicitDefEqProofs only [QueuesFit.lit]
    | split
    | intro _
    | dsimp only
theorem clearCluster_fit (d : Dev) (n : Nat) (h0 : QueuesFit d) : QueuesFit (clearCluster d n) := by
  unfold clearCluster
  repeat' first
    | with_reducible assumption
    | with_reducible apply clearMemories_fit
    | with_reducible apply each_fit
    | with_reducible apply p_fit
    | with_reducible apply releasePorts_fit
    | with_reducible apply reset_fit
    | simp -implicitDefEqProofs only [QueuesFit.lit]
    | split
    | intro _
    | dsimp only
theorem resetCluster_fit (d : Dev) (n : Nat) (h0 : QueuesFit d) : QueuesFit (resetCluster d n) := by
  unfold resetCluster
  repeat' first
    | with_reducible assumption
    | with_reducible apply clearCluster_fit
    | with_reducible apply resetCluCfg_fit
    | with_reducible apply resetCommon_fit
    | with_reducible apply resetWindows_fit
    | simp -implicitDefEqProofs only [QueuesFit.lit]
    | split
    | intro _
    | dsimp only
theorem releaseCluster_fit (d : Dev) (n : Nat) (h0 : QueuesFit d) : QueuesFit (releaseCluster d n) := by
  unfold releaseCluster
  repeat' first
    | with_reducible assumption
    | with_reducible apply clearCluster_fit
    | with_reducible apply resetCommon_fit
    | with_reducible apply resetWindows_fit
    | simp -implicitDefEqProofs only [QueuesFit.lit]
    | split
    | intro _
    | dsimp only
theorem freshShadow_fit (d : Dev) (base : Nat) (h0 : QueuesFit d) : QueuesFit (freshShadow d base) := by
  unfold freshShadow
  repeat' first
    | with_reducible assumption
    | with_reducible apply resetRange_fit
    | simp -implicitDefEqProofs only [QueuesFit.lit]
    | split
    | intro _
    | dsimp only
theorem freshCluster_fit (d : Dev) (n : Nat) (h0 : QueuesFit d) : QueuesFit (freshCluster d n) := by
  unfold freshCluster
  repeat' first
    | with_reducible assumption
    | with_reducible apply each_fit
    | with_reducible apply freshShadow_fit
    | with_reducible apply resetCluster_fit
    | simp -implicitDefEqProofs only [QueuesFit.lit]
    | split
    | intro _
    | dsimp only
theorem resetStream_fit (d : Dev) (s : Nat) (h0 : QueuesFit d) : QueuesFit (resetStream d s) := by
  unfold resetStream
  repeat' first
    | with_reducible assumption
    | with_reducible apply reset_fit
    | with_reducible apply resetRange_fit
    | with_reducible apply setStrm_fit
    | simp -implicitDefEqProofs only [QueuesFit.lit]
    | split
    | intro _
    | dsimp only
theorem disarmOwner_fit (d : Dev) (i : Nat) (h0 : QueuesFit d) : QueuesFit (disarmOwner d i) := by
  unfold disarmOwner
  repeat' first
    | with_reducible assumption
    | with_reducible apply each_fit
    | with_reducible apply p_fit
    | simp -implicitDefEqProofs only [QueuesFit.lit]
    | split
    | intro _
    | dsimp only
theorem dropSlots_fit (d : Dev) (i : Nat) (h0 : QueuesFit d) : QueuesFit (dropSlots d i) := by
  unfold dropSlots
  repeat' first
    | with_reducible assumption
    | with_reducible apply each_fit
    | with_reducible apply modLink_fit
    | with_reducible apply p_fit
    | simp -implicitDefEqProofs only [QueuesFit.lit]
    | split
    | intro _
    | dsimp only
theorem resetBudgets_fit (d : Dev) (i : Nat) (h0 : QueuesFit d) : QueuesFit (resetBudgets d i) := by
  unfold resetBudgets
  repeat' first
    | with_reducible assumption
    | with_reducible apply dropSlots_fit
    | with_reducible apply each_fit
    | with_reducible apply resetRange_fit
    | simp -implicitDefEqProofs only [QueuesFit.lit]
    | split
    | intro _
    | dsimp only
theorem dropActivities_fit (d : Dev) (i : Nat) (h0 : QueuesFit d) : QueuesFit (dropActivities d i) := by
  unfold dropActivities
  repeat' first
    | with_reducible assumption
    | with_reducible apply cutSave_fit
    | with_reducible apply mntFree_fit
    | with_reducible apply p_fit
    | simp -implicitDefEqProofs only [QueuesFit.lit]
    | split
    | intro _
    | dsimp only
theorem capDrop_fit (d : Dev) (c : Nat) (h0 : QueuesFit d) : QueuesFit (capDrop d c) := by
  unfold capDrop
  repeat' first
    | with_reducible assumption
    | with_reducible apply capIdle_fit
    | with_reducible apply each_fit
    | with_reducible apply modChan_fit
    | simp -implicitDefEqProofs only [QueuesFit.lit]
    | split
    | intro _
    | dsimp only
theorem ptnResetNow_fit (d : Dev) (i : Nat) (h0 : QueuesFit d) : QueuesFit (ptnResetNow d i) := by
  unfold ptnResetNow
  repeat' first
    | with_reducible assumption
    | with_reducible apply abandon_fit
    | with_reducible apply capDrop_fit
    | with_reducible apply disarmOwner_fit
    | with_reducible apply dropActivities_fit
    | with_reducible apply each_fit
    | with_reducible apply forgetSigs_fit
    | with_reducible apply forgetSteps_fit
    | with_reducible apply landFar_fit
    | with_reducible apply modPtn_fit
    | with_reducible apply p_fit
    | with_reducible apply placeAllHeld_fit
    | with_reducible apply reset_fit
    | with_reducible apply resetBudgets_fit
    | with_reducible apply resetCluster_fit
    | with_reducible apply resetItems_fit
    | with_reducible apply resetRange_fit
    | with_reducible apply resetStream_fit
    | simp -implicitDefEqProofs only [QueuesFit.lit]
    | split
    | intro _
    | dsimp only
theorem ptnResetReq_fit (d : Dev) (i : Nat) (h0 : QueuesFit d) : QueuesFit (ptnResetReq d i) := by
  unfold ptnResetReq
  repeat' first
    | with_reducible assumption
    | with_reducible apply modPtn_fit
    | with_reducible apply ptnResetNow_fit
    | simp -implicitDefEqProofs only [QueuesFit.lit]
    | split
    | intro _
    | dsimp only
theorem ptnResetDone_fit (d : Dev) (i : Nat) (h0 : QueuesFit d) : QueuesFit (ptnResetDone d i) := by
  unfold ptnResetDone
  repeat' first
    | with_reducible assumption
    | with_reducible apply p_fit
    | simp -implicitDefEqProofs only [QueuesFit.lit]
    | split
    | intro _
    | dsimp only
theorem releaseTrigger_fit (d : Dev) (i : Nat) (h0 : QueuesFit d) : QueuesFit (releaseTrigger d i) := by
  unfold releaseTrigger
  repeat' first
    | with_reducible assumption
    | with_reducible apply each_fit
    | with_reducible apply p_fit
    | with_reducible apply stopPulse_fit
    | simp -implicitDefEqProofs only [QueuesFit.lit]
    | split
    | intro _
    | dsimp only
theorem releaseCapture_fit (d : Dev) (i : Nat) (h0 : QueuesFit d) : QueuesFit (releaseCapture d i) := by
  unfold releaseCapture
  repeat' first
    | with_reducible assumption
    | with_reducible apply capDrop_fit
    | with_reducible apply each_fit
    | with_reducible apply p_fit
    | with_reducible apply setChanOwner_fit
    | simp -implicitDefEqProofs only [QueuesFit.lit]
    | split
    | intro _
    | dsimp only
theorem releaseBridges_fit (d : Dev) (i : Nat) (h0 : QueuesFit d) : QueuesFit (releaseBridges d i) := by
  unfold releaseBridges
  repeat' first
    | with_reducible assumption
    | with_reducible apply each_fit
    | with_reducible apply p_fit
    | simp -implicitDefEqProofs only [QueuesFit.lit]
    | split
    | intro _
    | dsimp only
theorem releaseDebug_fit (d : Dev) (i : Nat) (h0 : QueuesFit d) : QueuesFit (releaseDebug d i) := by
  unfold releaseDebug
  repeat' first
    | with_reducible assumption
    | with_reducible apply releaseBridges_fit
    | with_reducible apply releaseCapture_fit
    | with_reducible apply releaseTrigger_fit
    | with_reducible apply resetStream_fit
    | simp -implicitDefEqProofs only [QueuesFit.lit]
    | split
    | intro _
    | dsimp only
theorem zeroEntries_fit (d : Dev) (is : List Nat) (h0 : QueuesFit d) : QueuesFit (zeroEntries d is).1 := by
  induction is generalizing d with
  | nil => exact h0
  | cons i is ih =>
    unfold zeroEntries
    repeat' first
      | with_reducible assumption
      | with_reducible apply ih
      | with_reducible apply logFail_fit
      | with_reducible apply logCheck_fit
      | with_reducible apply logPut_fit
      | simp -implicitDefEqProofs only [QueuesFit.lit]
      | split
      | intro _
      | dsimp only
theorem doLogClear_fit (d : Dev) (h0 : QueuesFit d) : QueuesFit (doLogClear d) := by
  unfold doLogClear
  repeat' first
    | with_reducible assumption
    | with_reducible apply p_fit
    | with_reducible apply zeroEntries_fit
    | simp -implicitDefEqProofs only [QueuesFit.lit]
    | split
    | intro _
    | dsimp only
theorem doLastGaspClear_fit (d : Dev) (h0 : QueuesFit d) : QueuesFit (doLastGaspClear d) := by
  unfold doLastGaspClear
  repeat' first
    | with_reducible assumption
    | with_reducible apply p_fit
    | simp -implicitDefEqProofs only [QueuesFit.lit]
    | split
    | intro _
    | dsimp only
theorem doClearAll_fit (d : Dev) (h0 : QueuesFit d) : QueuesFit (doClearAll d) := by
  unfold doClearAll
  repeat' first
    | with_reducible assumption
    | with_reducible apply each_fit
    | with_reducible apply p_fit
    | simp -implicitDefEqProofs only [QueuesFit.lit]
    | split
    | intro _
    | dsimp only
theorem doCounterSaturate_fit (d : Dev) (base : Nat) (i : Nat) (h0 : QueuesFit d) : QueuesFit (doCounterSaturate d base i) := by
  unfold doCounterSaturate
  repeat' first
    | with_reducible assumption
    | with_reducible apply on_fit
    | with_reducible apply p_fit
    | simp -implicitDefEqProofs only [QueuesFit.lit]
    | split
    | intro _
    | dsimp only
theorem doRoll_fit (d : Dev) (h0 : QueuesFit d) : QueuesFit (doRoll d) := by
  unfold doRoll
  repeat' first
    | with_reducible assumption
    | with_reducible apply requestRoll_fit
    | simp -implicitDefEqProofs only [QueuesFit.lit]
    | split
    | intro _
    | dsimp only
theorem doKeyRollStart_fit (d : Dev) (h0 : QueuesFit d) : QueuesFit (doKeyRollStart d) := by
  unfold doKeyRollStart
  repeat' first
    | with_reducible assumption
    | with_reducible apply tryRoll_fit
    | simp -implicitDefEqProofs only [QueuesFit.lit]
    | split
    | intro _
    | dsimp only
theorem doKeyRollSector_fit (d : Dev) (h0 : QueuesFit d) : QueuesFit (doKeyRollSector d) := by
  unfold doKeyRollSector
  repeat' first
    | with_reducible assumption
    | with_reducible apply convertSector_fit
    | with_reducible apply endRoll_fit
    | with_reducible apply p_fit
    | with_reducible apply pauseRoll_fit
    | simp -implicitDefEqProofs only [QueuesFit.lit]
    | split
    | intro _
    | dsimp only
theorem doImeClrCounts_fit (d : Dev) (h0 : QueuesFit d) : QueuesFit (doImeClrCounts d) := by
  unfold doImeClrCounts
  repeat' first
    | with_reducible assumption
    | with_reducible apply each_fit
    | with_reducible apply p_fit
    | simp -implicitDefEqProofs only [QueuesFit.lit]
    | split
    | intro _
    | dsimp only
theorem doSysFreeze_fit (d : Dev) (h0 : QueuesFit d) : QueuesFit (doSysFreeze d) := by
  unfold doSysFreeze
  repeat' first
    | with_reducible assumption
    | with_reducible apply raiseSysFreeze_fit
    | simp -implicitDefEqProofs only [QueuesFit.lit]
    | split
    | intro _
    | dsimp only
theorem doStrobe_fit (d : Dev) (h0 : QueuesFit d) : QueuesFit (doStrobe d) := by
  unfold doStrobe
  repeat' first
    | with_reducible assumption
    | with_reducible apply strobeReq_fit
    | simp -implicitDefEqProofs only [QueuesFit.lit]
    | split
    | intro _
    | dsimp only
theorem doCaptureArm_fit (d : Dev) (c : Nat) (h0 : QueuesFit d) : QueuesFit (doCaptureArm d c) := by
  unfold doCaptureArm
  repeat' first
    | with_reducible assumption
    | with_reducible apply beginCapture_fit
    | with_reducible apply each_fit
    | with_reducible apply modChan_fit
    | with_reducible apply p_fit
    | simp -implicitDefEqProofs only [QueuesFit.lit]
    | split
    | intro _
    | dsimp only
theorem doCaptureDisarm_fit (d : Dev) (c : Nat) (h0 : QueuesFit d) : QueuesFit (doCaptureDisarm d c) := by
  unfold doCaptureDisarm
  repeat' first
    | with_reducible assumption
    | with_reducible apply capIdle_fit
    | with_reducible apply cutBlock_fit
    | with_reducible apply each_fit
    | with_reducible apply writeEntry_fit
    | simp -implicitDefEqProofs only [QueuesFit.lit]
    | split
    | intro _
    | dsimp only
theorem doCaptureBlockWrite_fit (d : Dev) (ch addr : Nat) (h0 : QueuesFit d) : QueuesFit (doCaptureBlockWrite d ch addr) := by
  unfold doCaptureBlockWrite
  repeat' first
    | with_reducible assumption
    | with_reducible apply chanComplete_fit
    | with_reducible apply setChan_fit
    | simp -implicitDefEqProofs only [QueuesFit.lit]
    | split
    | intro _
    | dsimp only
theorem doPostLimitExpire_fit (d : Dev) (ch : Nat) (h0 : QueuesFit d) : QueuesFit (doPostLimitExpire d ch) := by
  unfold doPostLimitExpire
  repeat' first
    | with_reducible assumption
    | with_reducible apply chanComplete_fit
    | simp -implicitDefEqProofs only [QueuesFit.lit]
    | split
    | intro _
    | dsimp only
theorem doRearmExpire_fit (d : Dev) (c : Nat) (h0 : QueuesFit d) : QueuesFit (doRearmExpire d c) := by
  unfold doRearmExpire
  repeat' first
    | with_reducible assumption
    | with_reducible apply beginCapture_fit
    | simp -implicitDefEqProofs only [QueuesFit.lit]
    | split
    | intro _
    | dsimp only
theorem doChannelOwnerWrite_fit (d : Dev) (ch : Nat) (owner : Nat) (h0 : QueuesFit d) : QueuesFit (doChannelOwnerWrite d ch owner) := by
  unfold doChannelOwnerWrite
  repeat' first
    | with_reducible assumption
    | with_reducible apply setChanOwner_fit
    | simp -implicitDefEqProofs only [QueuesFit.lit]
    | split
    | intro _
    | dsimp only
theorem doZeroingComplete_fit (d : Dev) (ch : Nat) (h0 : QueuesFit d) : QueuesFit (doZeroingComplete d ch) := by
  unfold doZeroingComplete
  repeat' first
    | with_reducible assumption
    | with_reducible apply modChan_fit
    | with_reducible apply zeroRange_fit
    | simp -implicitDefEqProofs only [QueuesFit.lit]
    | split
    | intro _
    | dsimp only
theorem doPinwheelConfigWrite_fit (d : Dev) (size : Bool) (v : W64) (h0 : QueuesFit d) : QueuesFit (doPinwheelConfigWrite d size v) := by
  unfold doPinwheelConfigWrite
  repeat' first
    | with_reducible assumption
    | with_reducible apply on_fit
    | with_reducible apply p_fit
    | simp -implicitDefEqProofs only [QueuesFit.lit]
    | split
    | intro _
    | dsimp only
theorem setDir_fit (d : Dev) (i st mask qbase qcount : Nat) (h0 : QueuesFit d) : QueuesFit (setDir d i st mask qbase qcount) := by
  unfold setDir
  repeat' first
    | with_reducible assumption
    | with_reducible apply p_fit
    | simp -implicitDefEqProofs only [QueuesFit.lit]
    | split
    | intro _
    | dsimp only
theorem clearQueues_fit (d : Dev) (lo n : Nat) (h0 : QueuesFit d) : QueuesFit (clearQueues d lo n) := by
  unfold clearQueues
  exact filterQueue_fit (each_fit _ _ _ h0 fun e q he => disableQueue_fit _ _ he) rfl
theorem clearAdded_fit (d : Dev) (lo n lo' n' : Nat) (h0 : QueuesFit d) : QueuesFit (clearAdded d lo n lo' n') := by
  unfold clearAdded
  exact filterQueue_fit (each_fit _ _ _ h0 fun e q he => disableQueue_fit _ _ he) rfl
theorem answerPtn_fit (d : Dev) (i op tag status : Nat) (ws : List W64) (h0 : QueuesFit d) : QueuesFit (answerPtn d i op tag status ws) := by
  unfold answerPtn
  repeat' first
    | with_reducible assumption
    | with_reducible apply answer_fit
    | simp -implicitDefEqProofs only [QueuesFit.lit]
    | split
    | intro _
    | dsimp only
theorem releaseAnswers_fit (d : Dev) (i : Nat) (h0 : QueuesFit d) : QueuesFit (releaseAnswers d i) := by
  unfold releaseAnswers
  repeat' first
    | with_reducible assumption
    | with_reducible apply sendAnswers_fit
    | simp -implicitDefEqProofs only [QueuesFit.lit]
    | split
    | intro _
    | dsimp only
theorem serving_fit (d : Dev) (k : Dev → Dev) (h0 : QueuesFit d) (hk : ∀ e, QueuesFit e → QueuesFit (k e)) : QueuesFit (serving d k) := by
  unfold serving
  repeat' first
    | with_reducible assumption
    | with_reducible apply hk
    | simp -implicitDefEqProofs only [QueuesFit.lit]
    | split
    | intro _
    | dsimp only
theorem openPtn_fit (d : Dev) (i : Nat) (vf : Bool) (mask shape a size : Nat) (h0 : QueuesFit d) : QueuesFit (openPtn d i vf mask shape a size) := by
  unfold openPtn
  repeat' first
    | with_reducible assumption
    | with_reducible apply clearCluster_fit
    | with_reducible apply clearQueues_fit
    | with_reducible apply each_fit
    | with_reducible apply p_fit
    | with_reducible apply reset_fit
    | with_reducible apply setDir_fit
    | with_reducible apply setPtn_fit
    | with_reducible apply tick_fit
    | simp -implicitDefEqProofs only [QueuesFit.lit]
    | split
    | intro _
    | dsimp only
theorem doPtnCreate_fit (d : Dev) (tag i : Nat) (vf : Bool) (mask shape quota : Nat) (h0 : QueuesFit d) : QueuesFit (doPtnCreate d tag i vf mask shape quota) := by
  unfold doPtnCreate
  repeat' first
    | with_reducible assumption
    | with_reducible apply answer_fit
    | with_reducible apply answerPtn_fit
    | with_reducible apply openPtn_fit
    | with_reducible apply takeService_fit
    | simp -implicitDefEqProofs only [QueuesFit.lit]
    | split
    | intro _
    | dsimp only
theorem endBatch_fit (d : Dev) (i : Nat) (h0 : QueuesFit d) : QueuesFit (endBatch d i) := by
  unfold endBatch
  repeat' first
    | with_reducible assumption
    | with_reducible apply irq_fit
    | with_reducible apply modPtn_fit
    | with_reducible apply on_fit
    | with_reducible apply p_fit
    | simp -implicitDefEqProofs only [QueuesFit.lit]
    | split
    | intro _
    | dsimp only
theorem drainNi_fit (d : Dev) (n : Nat) (h0 : QueuesFit d) : QueuesFit (drainNi d n) := by
  unfold drainNi
  repeat' first
    | with_reducible assumption
    | with_reducible apply p_fit
    | simp -implicitDefEqProofs only [QueuesFit.lit]
    | split
    | intro _
    | dsimp only
theorem fenceNi_fit (d : Dev) (n : Nat) (h0 : QueuesFit d) : QueuesFit (fenceNi d n) := by
  unfold fenceNi
  repeat' first
    | with_reducible assumption
    | with_reducible apply p_fit
    | simp -implicitDefEqProofs only [QueuesFit.lit]
    | split
    | intro _
    | dsimp only
theorem doPtnDestroy_fit (d : Dev) (tag i : Nat) (h0 : QueuesFit d) : QueuesFit (doPtnDestroy d tag i) := by
  unfold doPtnDestroy
  repeat' first
    | with_reducible assumption
    | with_reducible apply answer_fit
    | with_reducible apply answerPtn_fit
    | with_reducible apply doSnapAbort_fit
    | with_reducible apply drainNi_fit
    | with_reducible apply each_fit
    | with_reducible apply endBatch_fit
    | with_reducible apply farDrain_fit
    | with_reducible apply modPtn_fit
    | with_reducible apply p_fit
    | with_reducible apply releaseDebug_fit
    | with_reducible apply stopNow_fit
    | with_reducible apply takeService_fit
    | simp -implicitDefEqProofs only [QueuesFit.lit]
    | split
    | intro _
    | dsimp only
theorem returnItem_fit (d : Dev) (w : Work) (h0 : QueuesFit d) : QueuesFit (returnItem d w) := by
  unfold returnItem
  repeat' first
    | with_reducible assumption
    | with_reducible apply reset_fit
    | with_reducible apply writeCompletion_fit
    | simp -implicitDefEqProofs only [QueuesFit.lit]
    | split
    | intro _
    | dsimp only
theorem returnItems_fit (d : Dev) (i : Nat) (moves : Work → Bool) (h0 : QueuesFit d) : QueuesFit (returnItems d i moves).1 := by
  unfold returnItems
  repeat' first
    | with_reducible assumption
    | with_reducible apply each_fit
    | with_reducible apply p_fit
    | with_reducible apply putList_fit
    | with_reducible apply returnItem_fit
    | with_reducible apply setCourier_fit
    | with_reducible apply foldl_fit
    | with_reducible apply fold1_fit
    | simp -implicitDefEqProofs only [QueuesFit.lit]
    | split
    | intro _
    | dsimp only
theorem doPtnClose_fit (d : Dev) (i : Nat) (h0 : QueuesFit d) : QueuesFit (doPtnClose d i) := by
  unfold doPtnClose
  repeat' first
    | with_reducible assumption
    | with_reducible apply answer_fit
    | with_reducible apply clearQueues_fit
    | with_reducible apply doZeroingComplete_fit
    | with_reducible apply each_fit
    | with_reducible apply forgetSigs_fit
    | with_reducible apply forgetSteps_fit
    | with_reducible apply mntFree_fit
    | with_reducible apply p_fit
    | with_reducible apply placeAllHeld_fit
    | with_reducible apply releaseAnswers_fit
    | with_reducible apply releaseCluster_fit
    | with_reducible apply reset_fit
    | with_reducible apply resetBudgets_fit
    | with_reducible apply resetRange_fit
    | with_reducible apply returnItems_fit
    | with_reducible apply setDir_fit
    | with_reducible apply setPtn_fit
    | with_reducible apply unload_fit
    | with_reducible apply zeroRange_fit
    | simp -implicitDefEqProofs only [QueuesFit.lit]
    | split
    | intro _
    | dsimp only
theorem doPtnResize_fit (d : Dev) (tag i : Nat) (retarget : Bool) (mask shape : Nat) (h0 : QueuesFit d) : QueuesFit (doPtnResize d tag i retarget mask shape) := by
  unfold doPtnResize
  repeat' first
    | with_reducible assumption
    | with_reducible apply answer_fit
    | with_reducible apply answerPtn_fit
    | with_reducible apply drainNi_fit
    | with_reducible apply each_fit
    | with_reducible apply farDrain_fit
    | with_reducible apply mntRequest_fit
    | with_reducible apply modPtn_fit
    | with_reducible apply p_fit
    | with_reducible apply takeService_fit
    | simp -implicitDefEqProofs only [QueuesFit.lit]
    | split
    | intro _
    | dsimp only
theorem moveQueues_fit (d : Dev) (i lo n lo' n' : Nat) (h0 : QueuesFit d) : QueuesFit (moveQueues d i lo n lo' n') := by
  have h1 : QueuesFit ((if n' < n then d.clearQueues (lo + n') (n - n') else d).clearAdded lo n lo' n') := by
    refine clearAdded_fit _ _ _ _ _ ?_
    split
    · exact clearQueues_fit _ _ _ h0
    · exact h0
  unfold moveQueues
  dsimp only
  generalize (if n' < n then d.clearQueues (lo + n') (n - n') else d).clearAdded lo n lo' n' = e at h1 ⊢
  have h2 (xs m : SMap Queue) (hx : ∀ a ∈ xs, a.2.Fits) (hm : ∀ a ∈ m, a.2.Fits) :
      ∀ a ∈ xs.foldl (fun m e => SMap.set Queue.reset m (e.1 - lo + lo') e.2) m, a.2.Fits := by
    induction xs generalizing m with
    | nil => exact hm
    | cons x xs ih =>
      refine ih _ (fun a ha => hx a (List.mem_cons_of_mem _ ha)) fun a ha => ?_
      rcases mem_set ha with h | h
      · exact hm a h
      · rw [h]; exact hx x (List.mem_cons_self ..)
  have h3 : QueuesFit { e with queue := (SMap.range e.queue lo (lo + n)).foldl (fun m e => SMap.set Queue.reset m (e.1 - lo + lo') e.2) (SMap.delRange e.queue lo (lo + n)) } :=
    ⟨h2 _ _ (fun a ha => h1.fits a (List.mem_filter.1 ha).1) fun a ha => h1.fits a (List.mem_filter.1 ha).1⟩
  generalize ({ e with queue := (SMap.range e.queue lo (lo + n)).foldl (fun m e => SMap.set Queue.reset m (e.1 - lo + lo') e.2) (SMap.delRange e.queue lo (lo + n)) } : Dev) = x at h3 ⊢
  repeat' first
    | with_reducible assumption
    | with_reducible apply each_fit
    | with_reducible apply p_fit
    | simp -implicitDefEqProofs only [QueuesFit.lit]
    | split
    | intro _
    | dsimp only
theorem retargetSave_fit (d : Dev) (i : Nat) (h0 : QueuesFit d) : QueuesFit (retargetSave d i) := by
  unfold retargetSave
  repeat' first
    | with_reducible assumption
    | with_reducible apply doSnapSaveComplete_fit
    | with_reducible apply mntRequest_fit
    | with_reducible apply on_fit
    | with_reducible apply p_fit
    | with_reducible apply snapPut_fit
    | simp -implicitDefEqProofs only [QueuesFit.lit]
    | split
    | intro _
    | dsimp only
theorem doPtnResizeComplete_fit (d : Dev) (i : Nat) (h0 : QueuesFit d) : QueuesFit (doPtnResizeComplete d i) := by
  unfold doPtnResizeComplete
  repeat' first
    | with_reducible assumption
    | with_reducible apply answer_fit
    | with_reducible apply clearCluster_fit
    | with_reducible apply each_fit
    | with_reducible apply iff_fit
    | with_reducible apply mntFree_fit
    | with_reducible apply modPtn_fit
    | with_reducible apply moveQueues_fit
    | with_reducible apply p_fit
    | with_reducible apply ptnResetReq_fit
    | with_reducible apply releaseAnswers_fit
    | with_reducible apply releaseCluster_fit
    | with_reducible apply releasePorts_fit
    | with_reducible apply retargetSave_fit
    | with_reducible apply returnItems_fit
    | with_reducible apply scrambleTiles_fit
    | with_reducible apply setDir_fit
    | with_reducible apply wakeAll_fit
    | simp -implicitDefEqProofs only [QueuesFit.lit]
    | split
    | intro _
    | dsimp only
theorem doPtnQuery_fit (d : Dev) (tag i : Nat) (h0 : QueuesFit d) : QueuesFit (doPtnQuery d tag i) := by
  unfold doPtnQuery
  repeat' first
    | with_reducible assumption
    | with_reducible apply answer_fit
    | with_reducible apply answerPtn_fit
    | with_reducible apply takeService_fit
    | simp -implicitDefEqProofs only [QueuesFit.lit]
    | split
    | intro _
    | dsimp only
theorem doPing_fit (d : Dev) (tag arg : Nat) (h0 : QueuesFit d) : QueuesFit (doPing d tag arg) := by
  unfold doPing
  repeat' first
    | with_reducible assumption
    | with_reducible apply answer_fit
    | with_reducible apply takeService_fit
    | simp -implicitDefEqProofs only [QueuesFit.lit]
    | split
    | intro _
    | dsimp only
theorem sendBeacon_fit (d : Dev) (gi time hops : Nat) (h0 : QueuesFit d) : QueuesFit (sendBeacon d gi time hops) := by
  unfold sendBeacon
  repeat' first
    | with_reducible assumption
    | with_reducible apply control_fit
    | simp -implicitDefEqProofs only [QueuesFit.lit]
    | split
    | intro _
    | dsimp only
theorem stepTime_fit (d : Dev) (t kind : Nat) (h0 : QueuesFit d) : QueuesFit (stepTime d t kind) := by
  unfold stepTime
  repeat' first
    | with_reducible assumption
    | with_reducible apply discont_fit
    | with_reducible apply p_fit
    | simp -implicitDefEqProofs only [QueuesFit.lit]
    | split
    | intro _
    | dsimp only
theorem holdTime_fit (d : Dev) (off : Int) (h0 : QueuesFit d) : QueuesFit (holdTime d off) := by
  unfold holdTime
  repeat' first
    | with_reducible assumption
    | with_reducible apply discont_fit
    | with_reducible apply on_fit
    | simp -implicitDefEqProofs only [QueuesFit.lit]
    | split
    | intro _
    | dsimp only
theorem lockCount_fit (d : Dev) (off : Int) (h0 : QueuesFit d) : QueuesFit (lockCount d off) := by
  unfold lockCount
  repeat' first
    | with_reducible assumption
    | with_reducible apply on_fit
    | with_reducible apply p_fit
    | simp -implicitDefEqProofs only [QueuesFit.lit]
    | split
    | intro _
    | dsimp only
theorem followTime_fit (d : Dev) (t : Nat) (whole : Bool) (h0 : QueuesFit d) : QueuesFit (followTime d t whole) := by
  unfold followTime
  repeat' first
    | with_reducible assumption
    | with_reducible apply holdTime_fit
    | with_reducible apply lockCount_fit
    | with_reducible apply on_fit
    | with_reducible apply p_fit
    | with_reducible apply stepTime_fit
    | simp -implicitDefEqProofs only [QueuesFit.lit]
    | split
    | intro _
    | dsimp only
theorem doBeaconSend_fit (d : Dev) (h0 : QueuesFit d) : QueuesFit (doBeaconSend d) := by
  unfold doBeaconSend
  repeat' first
    | with_reducible assumption
    | with_reducible apply each_fit
    | with_reducible apply sendBeacon_fit
    | simp -implicitDefEqProofs only [QueuesFit.lit]
    | split
    | intro _
    | dsimp only
theorem doBeacon_fit (d : Dev) (gi ns frac hops master : Nat) (intact : Bool) (h0 : QueuesFit d) : QueuesFit (doBeacon d gi ns frac hops master intact) := by
  unfold doBeacon
  repeat' first
    | with_reducible assumption
    | with_reducible apply ctlBad_fit
    | with_reducible apply each_fit
    | with_reducible apply followTime_fit
    | with_reducible apply on_fit
    | with_reducible apply p_fit
    | with_reducible apply sendBeacon_fit
    | simp -implicitDefEqProofs only [QueuesFit.lit]
    | split
    | intro _
    | dsimp only
theorem doBeaconTimeout_fit (d : Dev) (h0 : QueuesFit d) : QueuesFit (doBeaconTimeout d) := by
  unfold doBeaconTimeout
  repeat' first
    | with_reducible assumption
    | with_reducible apply on_fit
    | simp -implicitDefEqProofs only [QueuesFit.lit]
    | split
    | intro _
    | dsimp only
theorem ringBeacon_fit (d : Dev) (ttl ns frac : Nat) (h0 : QueuesFit d) : QueuesFit (ringBeacon d ttl ns frac) := by
  unfold ringBeacon
  repeat' first
    | with_reducible assumption
    | with_reducible apply followTime_fit
    | simp -implicitDefEqProofs only [QueuesFit.lit]
    | split
    | intro _
    | dsimp only
theorem doHoldEnd_fit (d : Dev) (h0 : QueuesFit d) : QueuesFit (doHoldEnd d) := by
  unfold doHoldEnd
  repeat' first
    | with_reducible assumption
    | with_reducible apply p_fit
    | simp -implicitDefEqProofs only [QueuesFit.lit]
    | split
    | intro _
    | dsimp only
theorem doTsbSet_fit (d : Dev) (v : Nat) (h0 : QueuesFit d) : QueuesFit (doTsbSet d v) := by
  unfold doTsbSet
  repeat' first
    | with_reducible assumption
    | with_reducible apply stepTime_fit
    | simp -implicitDefEqProofs only [QueuesFit.lit]
    | split
    | intro _
    | dsimp only
theorem clockStep_fit (d : Dev) (h0 : QueuesFit d) : QueuesFit (clockStep d) := by
  unfold clockStep
  repeat' first
    | with_reducible assumption
    | with_reducible apply add_fit
    | with_reducible apply each_fit
    | with_reducible apply p_fit
    | with_reducible apply pupStep_fit
    | with_reducible apply raise_fit
    | simp -implicitDefEqProofs only [QueuesFit.lit]
    | split
    | intro _
    | dsimp only
end Sys2Proof.Machine.Dev
end

