-- ==== Sys2Proof/Laws/KeepQueues5.lean ====
section
/-! SUPPORT. No queue comes to hold more than its depth by boot, the loader, scrubbing, lane groups and the network. -/

set_option linter.all false

namespace Sys2Proof.Machine.Dev

set_option Elab.async false

theorem setBoot_fit (d : Dev) (st : Nat) (h0 : QueuesFit d) : QueuesFit (setBoot d st) := by
  unfold setBoot
  repeat' first
    | with_reducible assumption
    | with_reducible apply p_fit
    | simp -implicitDefEqProofs only [QueuesFit.lit]
    | split
    | intro _
    | dsimp only
theorem clearStaging_fit (d : Dev) (h0 : QueuesFit d) : QueuesFit (clearStaging d) := by
  unfold clearStaging
  repeat' first
    | with_reducible assumption
    | simp -implicitDefEqProofs only [QueuesFit.lit]
    | split
    | intro _
    | dsimp only
theorem refuseBundle_fit (d : Dev) (code : Nat) (h0 : QueuesFit d) : QueuesFit (refuseBundle d code) := by
  unfold refuseBundle
  repeat' first
    | with_reducible assumption
    | with_reducible apply add_fit
    | with_reducible apply clearStaging_fit
    | with_reducible apply irq_fit
    | with_reducible apply p_fit
    | with_reducible apply setBoot_fit
    | simp -implicitDefEqProofs only [QueuesFit.lit]
    | split
    | intro _
    | dsimp only
theorem doBootGo_fit (d : Dev) (h0 : QueuesFit d) : QueuesFit (doBootGo d) := by
  unfold doBootGo
  repeat' first
    | with_reducible assumption
    | with_reducible apply add_fit
    | with_reducible apply refuseBundle_fit
    | with_reducible apply setBoot_fit
    | simp -implicitDefEqProofs only [QueuesFit.lit]
    | split
    | intro _
    | dsimp only
theorem doBootAbort_fit (d : Dev) (h0 : QueuesFit d) : QueuesFit (doBootAbort d) := by
  unfold doBootAbort
  repeat' first
    | with_reducible assumption
    | with_reducible apply refuseBundle_fit
    | simp -implicitDefEqProofs only [QueuesFit.lit]
    | split
    | intro _
    | dsimp only
theorem doFetchDone_fit (d : Dev) (data : Option (List Byte)) (h0 : QueuesFit d) : QueuesFit (doFetchDone d data) := by
  unfold doFetchDone
  repeat' first
    | with_reducible assumption
    | with_reducible apply refuseBundle_fit
    | with_reducible apply setBoot_fit
    | simp -implicitDefEqProofs only [QueuesFit.lit]
    | split
    | intro _
    | dsimp only
theorem doVerifyDone_fit (d : Dev) (h0 : QueuesFit d) : QueuesFit (doVerifyDone d) := by
  unfold doVerifyDone
  repeat' first
    | with_reducible assumption
    | with_reducible apply each_fit
    | with_reducible apply p_fit
    | with_reducible apply refuseBundle_fit
    | with_reducible apply setBoot_fit
    | simp -implicitDefEqProofs only [QueuesFit.lit]
    | split
    | intro _
    | dsimp only
theorem stageQueue_fit (d : Dev) (q depth : Nat) (h0 : QueuesFit d) : QueuesFit (stageQueue d q depth) := setQueue_fit _ _ _ h0 (Or.inr (Nat.zero_le _))
theorem stageQueues_fit (d : Dev) (h0 : QueuesFit d) : QueuesFit (stageQueues d) := by
  unfold stageQueues
  repeat' first
    | with_reducible assumption
    | with_reducible apply stageQueue_fit
    | with_reducible apply foldl_fit
    | with_reducible apply fold1_fit
    | simp -implicitDefEqProofs only [QueuesFit.lit]
    | split
    | intro _
    | dsimp only
theorem doStageReady_fit (d : Dev) (h0 : QueuesFit d) : QueuesFit (doStageReady d) := by
  unfold doStageReady
  repeat' first
    | with_reducible assumption
    | with_reducible apply each_fit
    | with_reducible apply irq_fit
    | with_reducible apply on_fit
    | with_reducible apply p_fit
    | with_reducible apply setBoot_fit
    | with_reducible apply stageQueues_fit
    | simp -implicitDefEqProofs only [QueuesFit.lit]
    | split
    | intro _
    | dsimp only
theorem doConfirm_fit (d : Dev) (h0 : QueuesFit d) : QueuesFit (doConfirm d) := by
  unfold doConfirm
  repeat' first
    | with_reducible assumption
    | with_reducible apply irq_fit
    | with_reducible apply mntRequest_fit
    | with_reducible apply p_fit
    | with_reducible apply setBoot_fit
    | simp -implicitDefEqProofs only [QueuesFit.lit]
    | split
    | intro _
    | dsimp only
theorem burnAll_fit (d : Dev) (n : Nat) (h0 : QueuesFit d) : QueuesFit (burnAll d n) := by
  unfold burnAll
  repeat' first
    | with_reducible assumption
    | simp -implicitDefEqProofs only [QueuesFit.lit]
    | split
    | intro _
    | dsimp only
theorem burnPart_fit (d : Dev) (n : Nat) (h0 : QueuesFit d) : QueuesFit (burnPart d n) := by
  unfold burnPart
  repeat' first
    | with_reducible assumption
    | with_reducible apply tick_fit
    | simp -implicitDefEqProofs only [QueuesFit.lit]
    | split
    | intro _
    | dsimp only
theorem doBurnDone_fit (d : Dev) (fault : Bool) (h0 : QueuesFit d) : QueuesFit (doBurnDone d fault) := by
  unfold doBurnDone
  repeat' first
    | with_reducible assumption
    | with_reducible apply burnAll_fit
    | with_reducible apply burnPart_fit
    | with_reducible apply irq_fit
    | with_reducible apply mntFree_fit
    | with_reducible apply p_fit
    | with_reducible apply setBoot_fit
    | simp -implicitDefEqProofs only [QueuesFit.lit]
    | split
    | intro _
    | dsimp only
theorem doOwnerProvision_fit (d : Dev) (tag : Nat) (ws : List W64) (h0 : QueuesFit d) : QueuesFit (doOwnerProvision d tag ws) := by
  unfold doOwnerProvision
  repeat' first
    | with_reducible assumption
    | with_reducible apply answer_fit
    | with_reducible apply mntFree_fit
    | with_reducible apply mntRequest_fit
    | with_reducible apply takeService_fit
    | simp -implicitDefEqProofs only [QueuesFit.lit]
    | split
    | intro _
    | dsimp only
theorem ownerPart_fit (d : Dev) (hash : BitVec 384) (cut : Bool) (h0 : QueuesFit d) : QueuesFit (ownerPart d hash cut) := by
  unfold ownerPart
  repeat' first
    | with_reducible assumption
    | with_reducible apply tick_fit
    | simp -implicitDefEqProofs only [QueuesFit.lit]
    | split
    | intro _
    | dsimp only
theorem doOwnerBurnDone_fit (d : Dev) (fault : Bool) (h0 : QueuesFit d) : QueuesFit (doOwnerBurnDone d fault) := by
  unfold doOwnerBurnDone
  repeat' first
    | with_reducible assumption
    | with_reducible apply answer_fit
    | with_reducible apply mntFree_fit
    | with_reducible apply ownerPart_fit
    | with_reducible apply p_fit
    | with_reducible apply setAuthMode_fit
    | simp -implicitDefEqProofs only [QueuesFit.lit]
    | split
    | intro _
    | dsimp only
theorem cutBurns_fit (d : Dev) (h0 : QueuesFit d) : QueuesFit (cutBurns d) := by
  unfold cutBurns
  repeat' first
    | with_reducible assumption
    | with_reducible apply burnPart_fit
    | with_reducible apply ownerPart_fit
    | simp -implicitDefEqProofs only [QueuesFit.lit]
    | split
    | intro _
    | dsimp only
theorem romStart_fit (d : Dev) (h0 : QueuesFit d) : QueuesFit (romStart d) := by
  unfold romStart
  repeat' first
    | with_reducible assumption
    | with_reducible apply p_fit
    | simp -implicitDefEqProofs only [QueuesFit.lit]
    | split
    | intro _
    | dsimp only
theorem doTokenPresent_fit (d : Dev) (tag : Nat) (ws : List W64) (h0 : QueuesFit d) : QueuesFit (doTokenPresent d tag ws) := by
  unfold doTokenPresent
  repeat' first
    | with_reducible assumption
    | with_reducible apply add_fit
    | with_reducible apply answer_fit
    | with_reducible apply applyRights_fit
    | with_reducible apply p_fit
    | with_reducible apply takeService_fit
    | simp -implicitDefEqProofs only [QueuesFit.lit]
    | split
    | intro _
    | dsimp only
theorem runService_fit (d : Dev) (op tag arg : Nat) (ws : List W64) (h0 : QueuesFit d) : QueuesFit (runService d op tag arg ws) := by
  unfold runService
  repeat' first
    | with_reducible assumption
    | with_reducible apply doOwnerProvision_fit
    | with_reducible apply doPing_fit
    | with_reducible apply doPtnCreate_fit
    | with_reducible apply doPtnDestroy_fit
    | with_reducible apply doPtnQuery_fit
    | with_reducible apply doPtnResize_fit
    | with_reducible apply doTokenChallenge_fit
    | with_reducible apply doTokenPresent_fit
    | with_reducible apply doTokenRevoke_fit
    | simp -implicitDefEqProofs only [QueuesFit.lit]
    | split
    | intro _
    | dsimp only
theorem headPacket_length (ws : List QWord) : (headPacket ws).length ≤ ws.length := by
  induction ws with
  | nil => exact Nat.le_refl _
  | cons w ws ih =>
    unfold headPacket
    split
    · simp
    · simp only [List.length_cons]; omega
theorem swapService_fit (d : Dev) (ws : List W64) (h0 : QueuesFit d) (hl : ws.length ≤ (headPacket (d.queueAt 0).words).length) : QueuesFit (swapService d ws) := by
  unfold swapService modQueue
  refine setQueue_fit _ _ _ h0 (Fits.of (h0.queue 0) id ?_ (Nat.le_refl _) rfl)
  show (ws.mapIdx _ ++ (d.queueAt 0).words.drop _).length ≤ _
  have := headPacket_length (d.queueAt 0).words
  simp only [List.length_append, List.length_mapIdx, List.length_drop]
  omega
theorem servicePacket_length {d : Dev} {hdr : W64} {ws : List W64} (h : d.servicePacket hdr = some ws) : ws.length + 1 = (headPacket (d.queueAt 0).words).length := by
  unfold servicePacket at h
  split at h
  · next w xs hx =>
    split at h
    · simp only [Option.some.injEq] at h; rw [← h, hx]; simp
    · cases h
  · cases h
theorem doBadCommand_fit (d : Dev) (hdr : W64) (h0 : QueuesFit d) : QueuesFit (doBadCommand d hdr) := by
  unfold doBadCommand
  dsimp only
  have h (f : Dev → List W64 → Dev) (hf : ∀ e ws, QueuesFit e → ws.length ≤ (headPacket (e.queueAt 0).words).length → QueuesFit (f e ws)) (a : W64) (b : Bool) :
      QueuesFit (d.iff (d.servicePacket hdr).isSome fun e => f e (if b then a :: (d.servicePacket hdr).getD [] else [])) := by
    cases hp : d.servicePacket hdr with
    | none => exact h0
    | some ws =>
      refine hf d _ h0 ?_
      have := servicePacket_length hp
      cases b
      · exact Nat.zero_le _
      · simp only [if_true, Option.getD_some, List.length_cons]; omega
  split
  · exact runService_fit _ _ _ _ _ (h (fun e ws => e.swapService ws) (fun e ws he hl => swapService_fit _ _ he hl) _ true)
  · exact answer_fit _ _ _ _ _ (h (fun e ws => e.swapService ws) (fun e ws he hl => swapService_fit _ _ he hl) 0 false)
theorem stageWord_fit (d : Dev) (base off v : Nat) (fs : List Fld) (h0 : QueuesFit d) : QueuesFit (stageWord d base off v fs) := by
  unfold stageWord
  repeat' first
    | with_reducible assumption
    | with_reducible apply each_fit
    | with_reducible apply p_fit
    | simp -implicitDefEqProofs only [QueuesFit.lit]
    | split
    | intro _
    | dsimp only
theorem applyTables_fit (d : Dev) (i : Nat) (t : Config.Tables) (h0 : QueuesFit d) : QueuesFit (applyTables d i t) := by
  unfold applyTables
  repeat' first
    | with_reducible assumption
    | with_reducible apply dropSlots_fit
    | with_reducible apply each_fit
    | with_reducible apply modPtn_fit
    | with_reducible apply on_fit
    | with_reducible apply p_fit
    | with_reducible apply releasePorts_fit
    | with_reducible apply stageWord_fit
    | simp -implicitDefEqProofs only [QueuesFit.lit]
    | split
    | intro _
    | dsimp only
theorem beginImage_fit (d : Dev) (i : Nat) (f : Frame) (h0 : QueuesFit d) : QueuesFit (beginImage d i f) := by
  unfold beginImage
  repeat' first
    | with_reducible assumption
    | with_reducible apply each_fit
    | with_reducible apply id_fit
    | with_reducible apply modPtn_fit
    | with_reducible apply p_fit
    | with_reducible apply setSt_fit
    | with_reducible apply unload_fit
    | simp -implicitDefEqProofs only [QueuesFit.lit]
    | split
    | intro _
    | dsimp only
theorem releaseWord_fit (d : Dev) (n : Nat) (w : WordLoc) (h0 : QueuesFit d) : QueuesFit (releaseWord d n w) := by
  unfold releaseWord
  repeat' first
    | with_reducible assumption
    | with_reducible apply modClu_fit
    | simp -implicitDefEqProofs only [QueuesFit.lit]
    | split
    | intro _
    | dsimp only
theorem setInitial_fit (d : Dev) (n t o v : Nat) (h0 : QueuesFit d) : QueuesFit (setInitial d n t o v) := by
  unfold setInitial
  repeat' first
    | with_reducible assumption
    | with_reducible apply each_fit
    | with_reducible apply setSt_fit
    | simp -implicitDefEqProofs only [QueuesFit.lit]
    | split
    | intro _
    | dsimp only
theorem eachWord_fit (d : Dev) (f : Frame) (step : Nat) (put : Dev → Nat → List Byte → Dev) (h0 : QueuesFit d) (hp : ∀ e a bs, QueuesFit e → QueuesFit (put e a bs)) : QueuesFit (eachWord d f step put) := by
  unfold eachWord
  repeat' first
    | with_reducible assumption
    | with_reducible apply hp
    | with_reducible apply each_fit
    | simp -implicitDefEqProofs only [QueuesFit.lit]
    | split
    | intro _
    | dsimp only
theorem applyFrame_fit (d : Dev) (i : Nat) (f : Frame) (h0 : QueuesFit d) : QueuesFit (applyFrame d i f) := by
  unfold applyFrame
  repeat' first
    | with_reducible assumption
    | with_reducible apply applyTables_fit
    | with_reducible apply dropSamples_fit
    | with_reducible apply eachWord_fit
    | with_reducible apply modPtn_fit
    | with_reducible apply releaseWord_fit
    | with_reducible apply rewriteBp_fit
    | with_reducible apply rewriteRow_fit
    | with_reducible apply rewriteWa_fit
    | with_reducible apply setInitial_fit
    | with_reducible apply setMesh_fit
    | with_reducible apply setPort_fit
    | with_reducible apply wake_fit
    | with_reducible apply writeWord_fit
    | simp -implicitDefEqProofs only [QueuesFit.lit]
    | split
    | intro _
    | dsimp only
theorem restoreDue_fit (d : Dev) (i : Nat) (h0 : QueuesFit d) : QueuesFit (restoreDue d i) := by
  unfold restoreDue
  repeat' first
    | with_reducible assumption
    | with_reducible apply modPtn_fit
    | with_reducible apply p_fit
    | with_reducible apply snapBegin_fit
    | with_reducible apply snapGet_fit
    | simp -implicitDefEqProofs only [QueuesFit.lit]
    | split
    | intro _
    | dsimp only
theorem completeImage_fit (d : Dev) (i : Nat) (area : Nat × Nat) (h0 : QueuesFit d) : QueuesFit (completeImage d i area) := by
  unfold completeImage
  repeat' first
    | with_reducible assumption
    | with_reducible apply modPtn_fit
    | with_reducible apply on_fit
    | with_reducible apply p_fit
    | with_reducible apply restoreDue_fit
    | simp -implicitDefEqProofs only [QueuesFit.lit]
    | split
    | intro _
    | dsimp only
theorem takeFrame_fit (d : Dev) (i : Nat) (data : Option (List Byte)) (h0 : QueuesFit d) : QueuesFit (takeFrame d i data).1 := by
  unfold takeFrame
  repeat' first
    | with_reducible assumption
    | with_reducible apply add_fit
    | with_reducible apply applyFrame_fit
    | with_reducible apply beginImage_fit
    | with_reducible apply completeImage_fit
    | with_reducible apply hbmPut_fit
    | with_reducible apply modPtn_fit
    | with_reducible apply p_fit
    | simp -implicitDefEqProofs only [QueuesFit.lit]
    | split
    | intro _
    | dsimp only
theorem imageRead_fit (d : Dev) (a n : Nat) (h0 : QueuesFit d) : QueuesFit (imageRead d a n).1 := by
  unfold imageRead
  repeat' first
    | with_reducible assumption
    | with_reducible apply hbmGet_fit
    | simp -implicitDefEqProofs only [QueuesFit.lit]
    | split
    | intro _
    | dsimp only
theorem storedFrame_fit (d : Dev) (a n : Nat) (h0 : QueuesFit d) : QueuesFit (storedFrame d a n).1 := by
  unfold storedFrame
  repeat' first
    | with_reducible assumption
    | with_reducible apply imageRead_fit
    | simp -implicitDefEqProofs only [QueuesFit.lit]
    | split
    | intro _
    | dsimp only
theorem replayBytes_fit (d : Dev) (i : Nat) (h0 : QueuesFit d) : QueuesFit (replayBytes d i).1 := by
  unfold replayBytes
  repeat' first
    | with_reducible assumption
    | with_reducible apply imageRead_fit
    | with_reducible apply storedFrame_fit
    | simp -implicitDefEqProofs only [QueuesFit.lit]
    | split
    | intro _
    | dsimp only
theorem doFrame_fit (d : Dev) (i : Nat) (data : Option (List Byte)) (h0 : QueuesFit d) : QueuesFit (doFrame d i data) := by
  unfold doFrame
  repeat' first
    | with_reducible assumption
    | with_reducible apply endBatch_fit
    | with_reducible apply modPtn_fit
    | with_reducible apply p_fit
    | with_reducible apply replayBytes_fit
    | with_reducible apply takeFrame_fit
    | simp -implicitDefEqProofs only [QueuesFit.lit]
    | split
    | intro _
    | dsimp only
theorem startBatch_fit (d : Dev) (i n : Nat) (replay : Bool) (h0 : QueuesFit d) : QueuesFit (startBatch d i n replay) := by
  unfold startBatch
  repeat' first
    | with_reducible assumption
    | with_reducible apply modPtn_fit
    | with_reducible apply on_fit
    | with_reducible apply p_fit
    | simp -implicitDefEqProofs only [QueuesFit.lit]
    | split
    | intro _
    | dsimp only
theorem doLoadGo_fit (d : Dev) (i : Nat) (h0 : QueuesFit d) : QueuesFit (doLoadGo d i) := by
  unfold doLoadGo
  repeat' first
    | with_reducible assumption
    | with_reducible apply startBatch_fit
    | simp -implicitDefEqProofs only [QueuesFit.lit]
    | split
    | intro _
    | dsimp only
theorem doLoadAbort_fit (d : Dev) (i : Nat) (h0 : QueuesFit d) : QueuesFit (doLoadAbort d i) := by
  unfold doLoadAbort
  repeat' first
    | with_reducible assumption
    | with_reducible apply modPtn_fit
    | simp -implicitDefEqProofs only [QueuesFit.lit]
    | split
    | intro _
    | dsimp only
theorem doLoadReplay_fit (d : Dev) (i : Nat) (h0 : QueuesFit d) : QueuesFit (doLoadReplay d i) := by
  unfold doLoadReplay
  repeat' first
    | with_reducible assumption
    | with_reducible apply irq_fit
    | with_reducible apply on_fit
    | with_reducible apply p_fit
    | with_reducible apply startBatch_fit
    | simp -implicitDefEqProofs only [QueuesFit.lit]
    | split
    | intro _
    | dsimp only
theorem imageFrame_fit (d : Dev) (m : Img) (q : Nat) (h0 : QueuesFit d) : QueuesFit (imageFrame d m q).1 := by
  unfold imageFrame
  repeat' first
    | with_reducible assumption
    | with_reducible apply hbmGet_fit
    | simp -implicitDefEqProofs only [QueuesFit.lit]
    | split
    | intro _
    | dsimp only
theorem imageSeq_fit (d : Dev) (m : Img) (c k t o : Nat) (h0 : QueuesFit d) : QueuesFit (imageSeq d m c k t o).1 := by
  unfold imageSeq
  repeat' first
    | with_reducible assumption
    | with_reducible apply hbmGet_fit
    | with_reducible apply foldl_fit
    | with_reducible apply fold1_fit
    | simp -implicitDefEqProofs only [QueuesFit.lit]
    | split
    | intro _
    | dsimp only
theorem imageBytes_fit (d : Dev) (i c k t o n : Nat) (h0 : QueuesFit d) : QueuesFit (imageBytes d i c k t o n).1 := by
  unfold imageBytes
  repeat' first
    | with_reducible assumption
    | with_reducible apply imageFrame_fit
    | with_reducible apply imageSeq_fit
    | simp -implicitDefEqProofs only [QueuesFit.lit]
    | split
    | intro _
    | dsimp only
theorem imageWord_fit (d : Dev) (i n : Nat) (w : WordLoc) (h0 : QueuesFit d) : QueuesFit (imageWord d i n w).1 := by
  unfold imageWord
  repeat' first
    | with_reducible assumption
    | with_reducible apply imageBytes_fit
    | simp -implicitDefEqProofs only [QueuesFit.lit]
    | split
    | intro _
    | dsimp only
theorem essential_fit (d : Dev) (i n : Nat) (w : WordLoc) (fetch : Bool) (h0 : QueuesFit d) : QueuesFit (essential d i n w fetch).1 := by
  unfold essential
  repeat' first
    | with_reducible assumption
    | with_reducible apply imageBytes_fit
    | with_reducible apply imageWord_fit
    | simp -implicitDefEqProofs only [QueuesFit.lit]
    | split
    | intro _
    | dsimp only
theorem scrLast_fit (d : Dev) (n : Nat) (w : WordLoc) (ess fetch : Bool) (h0 : QueuesFit d) : QueuesFit (scrLast d n w ess fetch) := by
  unfold scrLast
  repeat' first
    | with_reducible assumption
    | with_reducible apply on_fit
    | with_reducible apply p_fit
    | simp -implicitDefEqProofs only [QueuesFit.lit]
    | split
    | intro _
    | dsimp only
theorem dueRewrite_fit (d : Dev) (n : Nat) (w : WordLoc) (reload : Bool) (h0 : QueuesFit d) : QueuesFit (dueRewrite d n w reload) := by
  unfold dueRewrite
  repeat' first
    | with_reducible assumption
    | simp -implicitDefEqProofs only [QueuesFit.lit]
    | split
    | intro _
    | dsimp only
theorem upsetPolicy_fit (d : Dev) (i n : Nat) (w : WordLoc) (h0 : QueuesFit d) : QueuesFit (upsetPolicy d i n w) := by
  unfold upsetPolicy
  repeat' first
    | with_reducible assumption
    | with_reducible apply dueRewrite_fit
    | with_reducible apply freezeReq_fit
    | with_reducible apply imageWord_fit
    | with_reducible apply on_fit
    | simp -implicitDefEqProofs only [QueuesFit.lit]
    | split
    | intro _
    | dsimp only
theorem doUpset_fit (d : Dev) (n : Nat) (w : WordLoc) (fetch : Bool) (h0 : QueuesFit d) : QueuesFit (doUpset d n w fetch) := by
  unfold doUpset
  repeat' first
    | with_reducible assumption
    | with_reducible apply add_fit
    | with_reducible apply dueRewrite_fit
    | with_reducible apply essential_fit
    | with_reducible apply irq_fit
    | with_reducible apply raise_fit
    | with_reducible apply scrLast_fit
    | with_reducible apply upsetPolicy_fit
    | simp -implicitDefEqProofs only [QueuesFit.lit]
    | split
    | intro _
    | dsimp only
theorem putWord_fit (d : Dev) (n : Nat) (w : WordLoc) (v : Nat) (h0 : QueuesFit d) : QueuesFit (putWord d n w v) := by
  unfold putWord
  repeat' first
    | with_reducible assumption
    | with_reducible apply releaseWord_fit
    | with_reducible apply rewriteBp_fit
    | with_reducible apply rewriteWa_fit
    | with_reducible apply setMesh_fit
    | with_reducible apply setPort_fit
    | simp -implicitDefEqProofs only [QueuesFit.lit]
    | split
    | intro _
    | dsimp only
theorem doUpsetRewrite_fit (d : Dev) (n : Nat) (w : WordLoc) (h0 : QueuesFit d) : QueuesFit (doUpsetRewrite d n w) := by
  unfold doUpsetRewrite
  repeat' first
    | with_reducible assumption
    | with_reducible apply add_fit
    | with_reducible apply imageWord_fit
    | with_reducible apply putWord_fit
    | simp -implicitDefEqProofs only [QueuesFit.lit]
    | split
    | intro _
    | dsimp only
theorem scrubRead_fit (d : Dev) (n : Nat) (w : WordLoc) (h0 : QueuesFit d) : QueuesFit (scrubRead d n w) := by
  unfold scrubRead
  repeat' first
    | with_reducible assumption
    | with_reducible apply checkMesh_fit
    | with_reducible apply checkPort_fit
    | with_reducible apply fetchBp_fit
    | with_reducible apply fetchWa_fit
    | with_reducible apply readRow_fit
    | simp -implicitDefEqProofs only [QueuesFit.lit]
    | split
    | intro _
    | dsimp only
theorem doWalkRead_fit (d : Dev) (n : Nat) (w : WordLoc) (h0 : QueuesFit d) : QueuesFit (doWalkRead d n w) := by
  unfold doWalkRead
  repeat' first
    | with_reducible assumption
    | with_reducible apply add_fit
    | with_reducible apply scrubRead_fit
    | simp -implicitDefEqProofs only [QueuesFit.lit]
    | split
    | intro _
    | dsimp only
theorem doPassRequest_fit (d : Dev) (i : Nat) (h0 : QueuesFit d) : QueuesFit (doPassRequest d i) := by
  unfold doPassRequest
  repeat' first
    | with_reducible assumption
    | with_reducible apply p_fit
    | with_reducible apply scrubRequest_fit
    | simp -implicitDefEqProofs only [QueuesFit.lit]
    | split
    | intro _
    | dsimp only
theorem doPassStart_fit (d : Dev) (h0 : QueuesFit d) : QueuesFit (doPassStart d) := by
  unfold doPassStart
  repeat' first
    | with_reducible assumption
    | with_reducible apply retryPasses_fit
    | simp -implicitDefEqProofs only [QueuesFit.lit]
    | split
    | intro _
    | dsimp only
theorem passDiag_fit (d : Dev) (i : Nat) (found : Bool) (h0 : QueuesFit d) : QueuesFit (passDiag d i found) := by
  unfold passDiag
  repeat' first
    | with_reducible assumption
    | with_reducible apply irq_fit
    | with_reducible apply lscSend_fit
    | with_reducible apply p_fit
    | simp -implicitDefEqProofs only [QueuesFit.lit]
    | split
    | intro _
    | dsimp only
theorem doPassComplete_fit (d : Dev) (h0 : QueuesFit d) : QueuesFit (doPassComplete d) := by
  unfold doPassComplete
  repeat' first
    | with_reducible assumption
    | with_reducible apply each_fit
    | with_reducible apply mntFree_fit
    | with_reducible apply p_fit
    | with_reducible apply passDiag_fit
    | with_reducible apply scrubRead_fit
    | simp -implicitDefEqProofs only [QueuesFit.lit]
    | split
    | intro _
    | dsimp only
theorem putBit_fit (d : Dev) (base : Nat) (f : Fld) (k : Nat) (v : Bool) (h0 : QueuesFit d) : QueuesFit (putBit d base f k v) := by
  unfold putBit
  repeat' first
    | with_reducible assumption
    | with_reducible apply p_fit
    | simp -implicitDefEqProofs only [QueuesFit.lit]
    | split
    | intro _
    | dsimp only
theorem toAcquire_fit (d : Dev) (gi : Nat) (h0 : QueuesFit d) : QueuesFit (toAcquire d gi) := by
  unfold toAcquire
  repeat' first
    | with_reducible assumption
    | with_reducible apply modLink_fit
    | with_reducible apply p_fit
    | simp -implicitDefEqProofs only [QueuesFit.lit]
    | split
    | intro _
    | dsimp only
theorem linkDown_fit (d : Dev) (gi cause next : Nat) (h0 : QueuesFit d) : QueuesFit (linkDown d gi cause next) := by
  unfold linkDown
  repeat' first
    | with_reducible assumption
    | with_reducible apply add_fit
    | with_reducible apply each_fit
    | with_reducible apply emit_fit
    | with_reducible apply irq_fit
    | with_reducible apply modLink_fit
    | with_reducible apply on_fit
    | with_reducible apply p_fit
    | with_reducible apply raise_fit
    | with_reducible apply slotErr_fit
    | with_reducible apply upstreamLoss_fit
    | simp -implicitDefEqProofs only [QueuesFit.lit]
    | split
    | intro _
    | dsimp only
theorem leaveUp_fit (d : Dev) (gi cause next : Nat) (h0 : QueuesFit d) : QueuesFit (leaveUp d gi cause next) := by
  unfold leaveUp
  repeat' first
    | with_reducible assumption
    | with_reducible apply linkDown_fit
    | simp -implicitDefEqProofs only [QueuesFit.lit]
    | split
    | intro _
    | dsimp only
theorem loseLane_fit (d : Dev) (gi l : Nat) (h0 : QueuesFit d) : QueuesFit (loseLane d gi l) := by
  unfold loseLane
  repeat' first
    | with_reducible assumption
    | with_reducible apply leaveUp_fit
    | with_reducible apply modLink_fit
    | with_reducible apply toAcquire_fit
    | simp -implicitDefEqProofs only [QueuesFit.lit]
    | split
    | intro _
    | dsimp only
theorem doLaneTest_fit (d : Dev) (gi : Nat) (h0 : QueuesFit d) : QueuesFit (doLaneTest d gi) := by
  unfold doLaneTest
  repeat' first
    | with_reducible assumption
    | with_reducible apply leaveUp_fit
    | with_reducible apply mntRequest_fit
    | with_reducible apply on_fit
    | with_reducible apply p_fit
    | with_reducible apply putBit_fit
    | with_reducible apply reset_fit
    | with_reducible apply setLink_fit
    | simp -implicitDefEqProofs only [QueuesFit.lit]
    | split
    | intro _
    | dsimp only
theorem doLaneEnable_fit (d : Dev) (gi : Nat) (h0 : QueuesFit d) : QueuesFit (doLaneEnable d gi) := by
  unfold doLaneEnable
  repeat' first
    | with_reducible assumption
    | with_reducible apply doLaneTest_fit
    | with_reducible apply on_fit
    | with_reducible apply p_fit
    | with_reducible apply putBit_fit
    | with_reducible apply reset_fit
    | with_reducible apply setLink_fit
    | with_reducible apply toAcquire_fit
    | simp -implicitDefEqProofs only [QueuesFit.lit]
    | split
    | intro _
    | dsimp only
theorem doLaneDisable_fit (d : Dev) (gi : Nat) (h0 : QueuesFit d) : QueuesFit (doLaneDisable d gi) := by
  unfold doLaneDisable
  repeat' first
    | with_reducible assumption
    | with_reducible apply leaveUp_fit
    | with_reducible apply mntFree_fit
    | with_reducible apply p_fit
    | with_reducible apply putBit_fit
    | with_reducible apply reset_fit
    | with_reducible apply setLink_fit
    | simp -implicitDefEqProofs only [QueuesFit.lit]
    | split
    | intro _
    | dsimp only
theorem sendPeriod_fit (d : Dev) (gi l : Nat) (data : List Bool) (marker : BitVec 320) (h0 : QueuesFit d) : QueuesFit (sendPeriod d gi l data marker) := by
  unfold sendPeriod
  repeat' first
    | with_reducible assumption
    | with_reducible apply capLine_fit
    | with_reducible apply emit_fit
    | with_reducible apply lineOut_fit
    | with_reducible apply setLink_fit
    | simp -implicitDefEqProofs only [QueuesFit.lit]
    | split
    | intro _
    | dsimp only
theorem holdInjection_fit (d : Dev) (gi : Nat) (h0 : QueuesFit d) : QueuesFit (holdInjection d gi) := by
  unfold holdInjection
  repeat' first
    | with_reducible assumption
    | with_reducible apply iff_fit
    | with_reducible apply modLink_fit
    | with_reducible apply on_fit
    | simp -implicitDefEqProofs only [QueuesFit.lit]
    | split
    | intro _
    | dsimp only
theorem doMarkerSend_fit (d : Dev) (gi : Nat) (h0 : QueuesFit d) : QueuesFit (doMarkerSend d gi) := by
  unfold doMarkerSend
  repeat' first
    | with_reducible assumption
    | with_reducible apply each_fit
    | with_reducible apply holdInjection_fit
    | with_reducible apply modLink_fit
    | with_reducible apply sendPeriod_fit
    | with_reducible apply setLink_fit
    | with_reducible apply tick_fit
    | simp -implicitDefEqProofs only [QueuesFit.lit]
    | split
    | intro _
    | dsimp only
theorem setRtt_fit (d : Dev) (gi rtt : Nat) (h0 : QueuesFit d) : QueuesFit (setRtt d gi rtt) := by
  unfold setRtt
  repeat' first
    | with_reducible assumption
    | with_reducible apply modLink_fit
    | with_reducible apply p_fit
    | simp -implicitDefEqProofs only [QueuesFit.lit]
    | split
    | intro _
    | dsimp only
theorem measure_fit (d : Dev) (gi v : Nat) (h0 : QueuesFit d) : QueuesFit (measure d gi v) := by
  unfold measure
  repeat' first
    | with_reducible assumption
    | with_reducible apply setRtt_fit
    | simp -implicitDefEqProofs only [QueuesFit.lit]
    | split
    | intro _
    | dsimp only
theorem linkUp_fit (d : Dev) (gi ver : Nat) (h0 : QueuesFit d) : QueuesFit (linkUp d gi ver) := by
  unfold linkUp
  repeat' first
    | with_reducible assumption
    | with_reducible apply control_fit
    | with_reducible apply each_fit
    | with_reducible apply irq_fit
    | with_reducible apply modLink_fit
    | with_reducible apply p_fit
    | with_reducible apply foldl_fit
    | with_reducible apply fold1_fit
    | simp -implicitDefEqProofs only [QueuesFit.lit]
    | split
    | intro _
    | dsimp only
theorem tryUp_fit (d : Dev) (gi : Nat) (h0 : QueuesFit d) : QueuesFit (tryUp d gi) := by
  unfold tryUp
  repeat' first
    | with_reducible assumption
    | with_reducible apply linkUp_fit
    | simp -implicitDefEqProofs only [QueuesFit.lit]
    | split
    | intro _
    | dsimp only
theorem tryDeskew_fit (d : Dev) (gi v : Nat) (h0 : QueuesFit d) : QueuesFit (tryDeskew d gi v) := by
  unfold tryDeskew
  repeat' first
    | with_reducible assumption
    | with_reducible apply each_fit
    | with_reducible apply modLink_fit
    | with_reducible apply on_fit
    | with_reducible apply p_fit
    | with_reducible apply tick_fit
    | with_reducible apply toAcquire_fit
    | with_reducible apply foldl_fit
    | with_reducible apply fold1_fit
    | simp -implicitDefEqProofs only [QueuesFit.lit]
    | split
    | intro _
    | dsimp only
theorem noteMarker_fit (d : Dev) (gi l v ui : Nat) (h0 : QueuesFit d) : QueuesFit (noteMarker d gi l v ui) := by
  unfold noteMarker
  repeat' first
    | with_reducible assumption
    | with_reducible apply id_fit
    | with_reducible apply putBit_fit
    | with_reducible apply setLink_fit
    | simp -implicitDefEqProofs only [QueuesFit.lit]
    | split
    | intro _
    | dsimp only
theorem bringUp_fit (d : Dev) (gi l v : Nat) (h0 : QueuesFit d) : QueuesFit (bringUp d gi l v) := by
  unfold bringUp
  repeat' first
    | with_reducible assumption
    | with_reducible apply linkDown_fit
    | with_reducible apply measure_fit
    | with_reducible apply modLink_fit
    | with_reducible apply p_fit
    | with_reducible apply tryDeskew_fit
    | with_reducible apply tryUp_fit
    | simp -implicitDefEqProofs only [QueuesFit.lit]
    | split
    | intro _
    | dsimp only
theorem noteStamp_fit (d : Dev) (gi v : Nat) (h0 : QueuesFit d) : QueuesFit (noteStamp d gi v) := by
  unfold noteStamp
  repeat' first
    | with_reducible assumption
    | with_reducible apply modLink_fit
    | simp -implicitDefEqProofs only [QueuesFit.lit]
    | split
    | intro _
    | dsimp only
theorem doMarker_fit (d : Dev) (gi l : Nat) (bits : BitVec 320) (ui : Nat) (h0 : QueuesFit d) : QueuesFit (doMarker d gi l bits ui) := by
  unfold doMarker
  repeat' first
    | with_reducible assumption
    | with_reducible apply bringUp_fit
    | with_reducible apply capLine_fit
    | with_reducible apply iff_fit
    | with_reducible apply loseLane_fit
    | with_reducible apply modLink_fit
    | with_reducible apply noteMarker_fit
    | with_reducible apply noteStamp_fit
    | with_reducible apply putBit_fit
    | simp -implicitDefEqProofs only [QueuesFit.lit]
    | split
    | intro _
    | dsimp only
theorem doAcqTimeout_fit (d : Dev) (gi : Nat) (h0 : QueuesFit d) : QueuesFit (doAcqTimeout d gi) := by
  unfold doAcqTimeout
  repeat' first
    | with_reducible assumption
    | with_reducible apply on_fit
    | simp -implicitDefEqProofs only [QueuesFit.lit]
    | split
    | intro _
    | dsimp only
theorem doLaneRecovered_fit (d : Dev) (gi l : Nat) (h0 : QueuesFit d) : QueuesFit (doLaneRecovered d gi l) := by
  unfold doLaneRecovered
  repeat' first
    | with_reducible assumption
    | with_reducible apply modLink_fit
    | simp -implicitDefEqProofs only [QueuesFit.lit]
    | split
    | intro _
    | dsimp only
theorem linkSend_fit {d : Dev} {gi vc : Nat} {f : BitVec 256} {e : Dev} (h : d.linkSend gi vc f = some e) (h0 : QueuesFit d) : QueuesFit e := by
  unfold linkSend at h; dsimp only at h; split at h
  · cases h
  · simp only [Option.some.injEq] at h; rw [← h]; exact sendFlit_fit _ _ _ (setLink_fit _ _ _ h0)
theorem sendNull_fit (d : Dev) (gi : Nat) (nak : Bool) (h0 : QueuesFit d) : QueuesFit (sendNull d gi nak) := by
  unfold sendNull
  repeat' first
    | with_reducible assumption
    | with_reducible apply sendFlit_fit
    | simp -implicitDefEqProofs only [QueuesFit.lit]
    | split
    | intro _
    | dsimp only
theorem sendFlits_fit {d : Dev} {gi vc : Nat} {fs : List (BitVec 256)} {e : Dev} (h : d.sendFlits gi vc fs = some e) (h0 : QueuesFit d) : QueuesFit e := by
  induction fs generalizing d with
  | nil => simp only [sendFlits, Option.some.injEq] at h; rw [← h]; exact h0
  | cons f fs ih =>
    unfold sendFlits at h; split at h
    · exact ih h (linkSend_fit (by assumption) h0)
    · cases h
theorem sendWaiting_fit (d : Dev) (gi : Nat) (h0 : QueuesFit d) : QueuesFit (sendWaiting d gi) := by
  unfold sendWaiting
  repeat' first
    | with_reducible assumption
    | with_reducible apply modLink_fit
    | with_reducible apply foldl_fit
    | with_reducible apply fold1_fit
    | simp -implicitDefEqProofs only [QueuesFit.lit]
    | split
    | intro _
    | dsimp only
    | with_reducible refine sendFlits_fit (by assumption) ?_
theorem ackFlits_fit (d : Dev) (gi ack : Nat) (h0 : QueuesFit d) : QueuesFit (ackFlits d gi ack) := by
  unfold ackFlits
  repeat' first
    | with_reducible assumption
    | with_reducible apply modLink_fit
    | with_reducible apply sendWaiting_fit
    | simp -implicitDefEqProofs only [QueuesFit.lit]
    | split
    | intro _
    | dsimp only
theorem nakFlits_fit (d : Dev) (gi ack : Nat) (h0 : QueuesFit d) : QueuesFit (nakFlits d gi ack) := by
  unfold nakFlits
  repeat' first
    | with_reducible assumption
    | with_reducible apply add_fit
    | with_reducible apply each_fit
    | with_reducible apply linkDown_fit
    | with_reducible apply raise_fit
    | with_reducible apply sendFlit_fit
    | with_reducible apply setLink_fit
    | with_reducible apply toAcquire_fit
    | simp -implicitDefEqProofs only [QueuesFit.lit]
    | split
    | intro _
    | dsimp only
theorem deliverFlits_fit (d : Dev) (gi : Nat) (h0 : QueuesFit d) : QueuesFit (deliverFlits d gi) := by
  unfold deliverFlits
  repeat' first
    | with_reducible assumption
    | with_reducible apply emit_fit
    | with_reducible apply modLink_fit
    | simp -implicitDefEqProofs only [QueuesFit.lit]
    | split
    | intro _
    | dsimp only
theorem doLinkFlit_fit (d : Dev) (gi : Nat) (bits : BitVec 320) (bad : Bool) (h0 : QueuesFit d) : QueuesFit (doLinkFlit d gi bits bad) := by
  unfold doLinkFlit
  repeat' first
    | with_reducible assumption
    | with_reducible apply ackFlits_fit
    | with_reducible apply add_fit
    | with_reducible apply control_fit
    | with_reducible apply deliverFlits_fit
    | with_reducible apply modLink_fit
    | with_reducible apply nakFlits_fit
    | with_reducible apply sendNull_fit
    | with_reducible apply setLink_fit
    | simp -implicitDefEqProofs only [QueuesFit.lit]
    | split
    | intro _
    | dsimp only
theorem doCredit_fit (d : Dev) (gi vc count : Nat) (intact : Bool) (h0 : QueuesFit d) : QueuesFit (doCredit d gi vc count intact) := by
  unfold doCredit
  repeat' first
    | with_reducible assumption
    | with_reducible apply ctlBad_fit
    | with_reducible apply modLink_fit
    | with_reducible apply sendWaiting_fit
    | simp -implicitDefEqProofs only [QueuesFit.lit]
    | split
    | intro _
    | dsimp only
theorem doFreezeMsg_fit (d : Dev) (gi origin n : Nat) (intact : Bool) (h0 : QueuesFit d) : QueuesFit (doFreezeMsg d gi origin n intact) := by
  unfold doFreezeMsg
  repeat' first
    | with_reducible assumption
    | with_reducible apply ctlBad_fit
    | with_reducible apply floodFreeze_fit
    | simp -implicitDefEqProofs only [QueuesFit.lit]
    | split
    | intro _
    | dsimp only
theorem controlMessage_fit (d : Dev) (gi msg : Nat) (h0 : QueuesFit d) : QueuesFit (controlMessage d gi msg) := by
  unfold controlMessage
  repeat' first
    | with_reducible assumption
    | with_reducible apply doBeacon_fit
    | with_reducible apply doCredit_fit
    | with_reducible apply doFreezeMsg_fit
    | with_reducible apply doGo_fit
    | with_reducible apply doHold_fit
    | with_reducible apply doLinkedCommand_fit
    | with_reducible apply doReady_fit
    | with_reducible apply doSteps_fit
    | simp -implicitDefEqProofs only [QueuesFit.lit]
    | split
    | intro _
    | dsimp only
theorem takeFragment_fit (d : Dev) (gi header : Nat) (bad : Bool) (h0 : QueuesFit d) : QueuesFit (takeFragment d gi header bad) := by
  unfold takeFragment
  repeat' first
    | with_reducible assumption
    | with_reducible apply controlMessage_fit
    | with_reducible apply ctlBad_fit
    | with_reducible apply modLink_fit
    | with_reducible apply foldl_fit
    | with_reducible apply fold1_fit
    | simp -implicitDefEqProofs only [QueuesFit.lit]
    | split
    | intro _
    | dsimp only
theorem takeFields_fit (d : Dev) (gi m : Nat) (h0 : QueuesFit d) : QueuesFit (takeFields d gi m) := by
  induction m generalizing d with
  | zero => exact h0
  | succ m ih =>
    unfold takeFields
    repeat' first
      | with_reducible assumption
      | with_reducible apply ih
      | with_reducible apply doLinkFlit_fit
      | with_reducible apply modLink_fit
      | simp -implicitDefEqProofs only [QueuesFit.lit]
      | split
      | intro _
      | dsimp only
theorem takePackets_fit (d : Dev) (gi frame bad n : Nat) (h0 : QueuesFit d) : QueuesFit (takePackets d gi frame bad n) := by
  unfold takePackets
  repeat' first
    | with_reducible assumption
    | with_reducible apply modLink_fit
    | with_reducible apply takeFields_fit
    | simp -implicitDefEqProofs only [QueuesFit.lit]
    | split
    | intro _
    | dsimp only
theorem offerFrame_fit (d : Dev) (gi frame : Nat) (h0 : QueuesFit d) : QueuesFit (offerFrame d gi frame) := by
  unfold offerFrame
  repeat' first
    | with_reducible assumption
    | with_reducible apply each_fit
    | with_reducible apply offerLane_fit
    | simp -implicitDefEqProofs only [QueuesFit.lit]
    | split
    | intro _
    | dsimp only
theorem takeSlots_fit (d : Dev) (gi k : Nat) (fields : List W32) (h0 : QueuesFit d) : QueuesFit (takeSlots d gi k fields) := by
  unfold takeSlots
  repeat' first
    | with_reducible assumption
    | with_reducible apply add_fit
    | with_reducible apply modLink_fit
    | with_reducible apply p_fit
    | with_reducible apply slotErr_fit
    | simp -implicitDefEqProofs only [QueuesFit.lit]
    | split
    | intro _
    | dsimp only
theorem doSlotFrame_fit (d : Dev) (gi k frame n bad : Nat) (h0 : QueuesFit d) : QueuesFit (doSlotFrame d gi k frame n bad) := by
  unfold doSlotFrame
  repeat' first
    | with_reducible assumption
    | with_reducible apply iff_fit
    | with_reducible apply offerFrame_fit
    | with_reducible apply slotErr_fit
    | with_reducible apply takeFragment_fit
    | with_reducible apply takePackets_fit
    | with_reducible apply takeSlots_fit
    | simp -implicitDefEqProofs only [QueuesFit.lit]
    | split
    | intro _
    | dsimp only
theorem doStepFrame_fit (d : Dev) (gi frame bad : Nat) (h0 : QueuesFit d) : QueuesFit (doStepFrame d gi frame bad) := by
  unfold doStepFrame
  repeat' first
    | with_reducible assumption
    | with_reducible apply add_fit
    | with_reducible apply doSlotFrame_fit
    | with_reducible apply modLink_fit
    | with_reducible apply offerFrame_fit
    | with_reducible apply slotErr_fit
    | with_reducible apply takeFragment_fit
    | with_reducible apply takePackets_fit
    | simp -implicitDefEqProofs only [QueuesFit.lit]
    | split
    | intro _
    | dsimp only
theorem takeFrames_fit (d : Dev) (gi m : Nat) (h0 : QueuesFit d) : QueuesFit (takeFrames d gi m) := by
  induction m generalizing d with
  | zero => exact h0
  | succ m ih =>
    unfold takeFrames
    repeat' first
      | with_reducible assumption
      | with_reducible apply ih
      | with_reducible apply stepEnd_fit
      | with_reducible apply doStepFrame_fit
      | with_reducible apply setLink_fit
      | simp -implicitDefEqProofs only [QueuesFit.lit]
      | split
      | intro _
      | dsimp only
theorem takeCodeword_fit (d : Dev) (gi l : Nat) (symbols : List Nat) (bad : Bool) (h0 : QueuesFit d) : QueuesFit (takeCodeword d gi l symbols bad) := by
  unfold takeCodeword
  repeat' first
    | with_reducible assumption
    | with_reducible apply capLine_fit
    | with_reducible apply modLink_fit
    | with_reducible apply setLink_fit
    | with_reducible apply takeFrames_fit
    | simp -implicitDefEqProofs only [QueuesFit.lit]
    | split
    | intro _
    | dsimp only
theorem doCodeword_fit (d : Dev) (gi l : Nat) (symbols : List Nat) (h0 : QueuesFit d) : QueuesFit (doCodeword d gi l symbols) := by
  unfold doCodeword
  repeat' first
    | with_reducible assumption
    | with_reducible apply add_fit
    | with_reducible apply capLine_fit
    | with_reducible apply irq_fit
    | with_reducible apply loseLane_fit
    | with_reducible apply modLink_fit
    | with_reducible apply raise_fit
    | with_reducible apply takeCodeword_fit
    | simp -implicitDefEqProofs only [QueuesFit.lit]
    | split
    | intro _
    | dsimp only
theorem doInjGo_fit (d : Dev) (gi : Nat) (h0 : QueuesFit d) : QueuesFit (doInjGo d gi) := by
  unfold doInjGo
  repeat' first
    | with_reducible assumption
    | with_reducible apply modLink_fit
    | with_reducible apply on_fit
    | simp -implicitDefEqProofs only [QueuesFit.lit]
    | split
    | intro _
    | dsimp only
theorem doLgrpClr_fit (d : Dev) (gi : Nat) (h0 : QueuesFit d) : QueuesFit (doLgrpClr d gi) := by
  unfold doLgrpClr
  repeat' first
    | with_reducible assumption
    | with_reducible apply resetRange_fit
    | simp -implicitDefEqProofs only [QueuesFit.lit]
    | split
    | intro _
    | dsimp only
theorem doClrSlack_fit (d : Dev) (gi : Nat) (h0 : QueuesFit d) : QueuesFit (doClrSlack d gi) := by
  unfold doClrSlack
  repeat' first
    | with_reducible assumption
    | with_reducible apply p_fit
    | simp -implicitDefEqProofs only [QueuesFit.lit]
    | split
    | intro _
    | dsimp only
theorem testSample_fit (d : Dev) (gi l : Nat) (bit : Bool) (h0 : QueuesFit d) : QueuesFit (testSample d gi l bit) := by
  unfold testSample
  repeat' first
    | with_reducible assumption
    | with_reducible apply capLine_fit
    | with_reducible apply offerLane_fit
    | with_reducible apply setLink_fit
    | with_reducible apply stepEnd_fit
    | simp -implicitDefEqProofs only [QueuesFit.lit]
    | split
    | intro _
    | dsimp only
theorem prbsBit_fit (d : Dev) (gi l : Nat) (bit : Bool) (h0 : QueuesFit d) : QueuesFit (prbsBit d gi l bit) := by
  unfold prbsBit
  repeat' first
    | with_reducible assumption
    | with_reducible apply add_fit
    | with_reducible apply id_fit
    | with_reducible apply irq_fit
    | with_reducible apply modLink_fit
    | with_reducible apply putBit_fit
    | with_reducible apply setLink_fit
    | simp -implicitDefEqProofs only [QueuesFit.lit]
    | split
    | intro _
    | dsimp only
theorem generate_fit (d : Dev) (gi l n : Nat) (h0 : QueuesFit d) : QueuesFit (generate d gi l n).1 := by
  unfold generate
  repeat' first
    | with_reducible assumption
    | with_reducible apply modLink_fit
    | with_reducible apply setLink_fit
    | simp -implicitDefEqProofs only [QueuesFit.lit]
    | split
    | intro _
    | dsimp only
theorem doPrbsCheck_fit (d : Dev) (gi l : Nat) (bits : List Bool) (h0 : QueuesFit d) : QueuesFit (doPrbsCheck d gi l bits) := by
  unfold doPrbsCheck
  repeat' first
    | with_reducible assumption
    | with_reducible apply capLine_fit
    | with_reducible apply each_fit
    | with_reducible apply generate_fit
    | with_reducible apply lineOut_fit
    | with_reducible apply prbsBit_fit
    | with_reducible apply testSample_fit
    | simp -implicitDefEqProofs only [QueuesFit.lit]
    | split
    | intro _
    | dsimp only
theorem doBridgeEnable_fit (d : Dev) (gi l : Nat) (tx rx : Bool) (h0 : QueuesFit d) : QueuesFit (doBridgeEnable d gi l tx rx) := by
  unfold doBridgeEnable
  repeat' first
    | with_reducible assumption
    | with_reducible apply modLink_fit
    | with_reducible apply on_fit
    | with_reducible apply p_fit
    | with_reducible apply putBit_fit
    | simp -implicitDefEqProofs only [QueuesFit.lit]
    | split
    | intro _
    | dsimp only
theorem bridgeStore_fit (d : Dev) (gi l : Nat) (w : W64) (h0 : QueuesFit d) : QueuesFit (bridgeStore d gi l w) := by
  unfold bridgeStore
  repeat' first
    | with_reducible assumption
    | with_reducible apply add_fit
    | with_reducible apply append_fit
    | with_reducible apply dropWrite_fit
    | with_reducible apply irq_fit
    | with_reducible apply notifyKinds_fit
    | simp -implicitDefEqProofs only [QueuesFit.lit]
    | split
    | intro _
    | dsimp only
theorem doBridgeReceive_fit (d : Dev) (gi l : Nat) (w : W64) (h0 : QueuesFit d) : QueuesFit (doBridgeReceive d gi l w) := by
  unfold doBridgeReceive
  repeat' first
    | with_reducible assumption
    | with_reducible apply bridgeStore_fit
    | with_reducible apply capLine_fit
    | with_reducible apply modLink_fit
    | with_reducible apply offerLane_fit
    | with_reducible apply putBit_fit
    | with_reducible apply setLink_fit
    | simp -implicitDefEqProofs only [QueuesFit.lit]
    | split
    | intro _
    | dsimp only
theorem bridgeOut_fit (d : Dev) (gi l : Nat) (w : W64) (h0 : QueuesFit d) : QueuesFit (bridgeOut d gi l w) := by
  unfold bridgeOut
  repeat' first
    | with_reducible assumption
    | with_reducible apply capLine_fit
    | with_reducible apply emit_fit
    | with_reducible apply lineOut_fit
    | simp -implicitDefEqProofs only [QueuesFit.lit]
    | split
    | intro _
    | dsimp only
theorem doBridgeTransmit_fit (d : Dev) (gi l : Nat) (h0 : QueuesFit d) : QueuesFit (doBridgeTransmit d gi l) := by
  unfold doBridgeTransmit
  repeat' first
    | with_reducible assumption
    | with_reducible apply bridgeOut_fit
    | with_reducible apply markBound_fit
    | simp -implicitDefEqProofs only [QueuesFit.lit]
    | split
    | intro _
    | dsimp only
    | with_reducible refine takeHead_fit (by assumption) ?_
theorem nocError_fit (d : Dev) (kind src dst vc x y : Nat) (h0 : QueuesFit d) : QueuesFit (nocError d kind src dst vc x y) := by
  unfold nocError
  repeat' first
    | with_reducible assumption
    | with_reducible apply on_fit
    | with_reducible apply p_fit
    | simp -implicitDefEqProofs only [QueuesFit.lit]
    | split
    | intro _
    | dsimp only
theorem headerError_fit (d : Dev) (v x y : Nat) (h0 : QueuesFit d) : QueuesFit (headerError d v x y) := by
  unfold headerError
  repeat' first
    | with_reducible assumption
    | with_reducible apply add_fit
    | with_reducible apply irq_fit
    | with_reducible apply nocError_fit
    | with_reducible apply raise_fit
    | simp -implicitDefEqProofs only [QueuesFit.lit]
    | split
    | intro _
    | dsimp only
theorem headerFixed_fit (d : Dev) (v x y : Nat) (h0 : QueuesFit d) : QueuesFit (headerFixed d v x y) := by
  unfold headerFixed
  repeat' first
    | with_reducible assumption
    | with_reducible apply add_fit
    | with_reducible apply nocError_fit
    | with_reducible apply raise_fit
    | simp -implicitDefEqProofs only [QueuesFit.lit]
    | split
    | intro _
    | dsimp only
theorem checkPayload_fit (d : Dev) (k : Packet) (h0 : QueuesFit d) : QueuesFit (checkPayload d k) := by
  unfold checkPayload
  repeat' first
    | with_reducible assumption
    | with_reducible apply add_fit
    | with_reducible apply irq_fit
    | with_reducible apply nocError_fit
    | with_reducible apply raise_fit
    | simp -implicitDefEqProofs only [QueuesFit.lit]
    | split
    | intro _
    | dsimp only
theorem runProbe_fit (d : Dev) (k v x y out : Nat) (h0 : QueuesFit d) : QueuesFit (runProbe d k v x y out) := by
  unfold runProbe
  repeat' first
    | with_reducible assumption
    | with_reducible apply add_fit
    | with_reducible apply offer_fit
    | with_reducible apply traceProbe_fit
    | simp -implicitDefEqProofs only [QueuesFit.lit]
    | split
    | intro _
    | dsimp only
theorem probeHeader_fit (d : Dev) (v x y out : Nat) (h0 : QueuesFit d) : QueuesFit (probeHeader d v x y out) := by
  unfold probeHeader
  repeat' first
    | with_reducible assumption
    | with_reducible apply each_fit
    | with_reducible apply runProbe_fit
    | simp -implicitDefEqProofs only [QueuesFit.lit]
    | split
    | intro _
    | dsimp only
theorem setFlits_fit (d : Dev) (x y inp vc : Nat) (fs : List Flit) (h0 : QueuesFit d) : QueuesFit (setFlits d x y inp vc fs) := by
  unfold setFlits
  repeat' first
    | with_reducible assumption
    | simp -implicitDefEqProofs only [QueuesFit.lit]
    | split
    | intro _
    | dsimp only
theorem setDrop_fit (d : Dev) (x y inp vc : Nat) (on : Bool) (h0 : QueuesFit d) : QueuesFit (setDrop d x y inp vc on) := by
  unfold setDrop
  repeat' first
    | with_reducible assumption
    | with_reducible apply on_fit
    | simp -implicitDefEqProofs only [QueuesFit.lit]
    | split
    | intro _
    | dsimp only
theorem checkHeader_fit (d : Dev) (hdr : BitVec 256) (x y : Nat) (h0 : QueuesFit d) : QueuesFit (checkHeader d hdr x y).1 := by
  unfold checkHeader
  repeat' first
    | with_reducible assumption
    | with_reducible apply headerError_fit
    | with_reducible apply headerFixed_fit
    | with_reducible apply respond_fit
    | simp -implicitDefEqProofs only [QueuesFit.lit]
    | split
    | intro _
    | dsimp only
theorem flitArrives_fit (d : Dev) (x y inp vc : Nat) (f : Flit) (h0 : QueuesFit d) : QueuesFit (flitArrives d x y inp vc f) := by
  unfold flitArrives
  repeat' first
    | with_reducible assumption
    | with_reducible apply checkHeader_fit
    | with_reducible apply setDrop_fit
    | with_reducible apply setFlits_fit
    | simp -implicitDefEqProofs only [QueuesFit.lit]
    | split
    | intro _
    | dsimp only
theorem paced_fit (d : Dev) (x y out : Nat) (vc : Option Nat) (h0 : QueuesFit d) : QueuesFit (paced d x y out vc) := by
  unfold paced
  repeat' first
    | with_reducible assumption
    | simp -implicitDefEqProofs only [QueuesFit.lit]
    | split
    | intro _
    | dsimp only
theorem passFlit_fit (d : Dev) (x y out vc inp : Nat) (h0 : QueuesFit d) : QueuesFit (passFlit d x y out vc inp) := by
  unfold passFlit
  repeat' first
    | with_reducible assumption
    | with_reducible apply emit_fit
    | with_reducible apply flitArrives_fit
    | with_reducible apply probeHeader_fit
    | with_reducible apply setFlits_fit
    | simp -implicitDefEqProofs only [QueuesFit.lit]
    | split
    | intro _
    | dsimp only
theorem outputClock_fit (d : Dev) (x y out : Nat) (h0 : QueuesFit d) : QueuesFit (outputClock d x y out) := by
  unfold outputClock
  repeat' first
    | with_reducible assumption
    | with_reducible apply paced_fit
    | with_reducible apply passFlit_fit
    | simp -implicitDefEqProofs only [QueuesFit.lit]
    | split
    | intro _
    | dsimp only
theorem doPacketHop_fit (d : Dev) (x y : Nat) (ins : List (Fin 9 × Fin 4 × Flit)) (h0 : QueuesFit d) : QueuesFit (doPacketHop d x y ins) := by
  unfold doPacketHop
  repeat' first
    | with_reducible assumption
    | with_reducible apply each_fit
    | with_reducible apply flitArrives_fit
    | with_reducible apply outputClock_fit
    | with_reducible apply tick_fit
    | simp -implicitDefEqProofs only [QueuesFit.lit]
    | split
    | intro _
    | dsimp only
theorem doRouteWrite_fit (d : Dev) (port idx : Nat) (e : Nat) (h0 : QueuesFit d) : QueuesFit (doRouteWrite d port idx e) := by
  unfold doRouteWrite
  repeat' first
    | with_reducible assumption
    | with_reducible apply irq_fit
    | with_reducible apply on_fit
    | simp -implicitDefEqProofs only [QueuesFit.lit]
    | split
    | intro _
    | dsimp only
theorem courierFail_fit (d : Dev) (src : Nat) (h0 : QueuesFit d) : QueuesFit (courierFail d src) := by
  unfold courierFail
  repeat' first
    | with_reducible assumption
    | with_reducible apply setCourier_fit
    | simp -implicitDefEqProofs only [QueuesFit.lit]
    | split
    | intro _
    | dsimp only
theorem hostFail_fit (d : Dev) (o : Outst) (h0 : QueuesFit d) : QueuesFit (hostFail d o) := by
  unfold hostFail
  repeat' first
    | with_reducible assumption
    | with_reducible apply accessError_fit
    | with_reducible apply emit_fit
    | simp -implicitDefEqProofs only [QueuesFit.lit]
    | split
    | intro _
    | dsimp only
theorem clusterFail_fit (d : Dev) (o : Outst) (status : Nat) (h0 : QueuesFit d) : QueuesFit (clusterFail d o status) := by
  unfold clusterFail
  repeat' first
    | with_reducible assumption
    | with_reducible apply farAnswered_fit
    | with_reducible apply farStatus_fit
    | with_reducible apply farTimeout_fit
    | with_reducible apply tick_fit
    | simp -implicitDefEqProofs only [QueuesFit.lit]
    | split
    | intro _
    | dsimp only
theorem gatewayTakes_fit (d : Dev) (gi : Nat) (k : Packet) (data : Bool) (h0 : QueuesFit d) : QueuesFit (gatewayTakes d gi k data) := by
  unfold gatewayTakes
  repeat' first
    | with_reducible assumption
    | with_reducible apply modLink_fit
    | with_reducible apply sendWaiting_fit
    | simp -implicitDefEqProofs only [QueuesFit.lit]
    | split
    | intro _
    | dsimp only
theorem failed_fit (d : Dev) (o : Outst) (status : Nat) (h0 : QueuesFit d) : QueuesFit (failed d o status) := by
  unfold failed
  repeat' first
    | with_reducible assumption
    | with_reducible apply clusterFail_fit
    | with_reducible apply courierFail_fit
    | with_reducible apply gatewayTakes_fit
    | with_reducible apply hostFail_fit
    | with_reducible apply synthesise_fit
    | simp -implicitDefEqProofs only [QueuesFit.lit]
    | split
    | intro _
    | dsimp only
theorem request_fit (d : Dev) (k : Packet) (write : Bool) (serve : Packet → Dev → Req → Dev) (h0 : QueuesFit d) (hs : ∀ p e r, QueuesFit e → QueuesFit (serve p e r)) : QueuesFit (request d k write serve) := by
  unfold request
  repeat' first
    | with_reducible assumption
    | with_reducible apply hs
    | with_reducible apply failed_fit
    | with_reducible apply noRoute_fit
    | with_reducible apply respond_fit
    | with_reducible apply headerError_fit
    | with_reducible apply emit_fit
    | with_reducible apply addOutst_fit
    | simp -implicitDefEqProofs only [QueuesFit.lit]
    | split
    | intro _
    | dsimp only
theorem refuseAccess_fit (d : Dev) (k : Packet) (r : Req) (write : Bool) (h0 : QueuesFit d) : QueuesFit (refuseAccess d k r write) := by
  unfold refuseAccess
  repeat' first
    | with_reducible assumption
    | with_reducible apply innerError_fit
    | with_reducible apply respond_fit
    | simp -implicitDefEqProofs only [QueuesFit.lit]
    | split
    | intro _
    | dsimp only
theorem serveRw_fit (old : Dev) (write : Bool) (k : Packet) (d : Dev) (r : Req) (h0 : QueuesFit old) (h1 : QueuesFit d) : QueuesFit (serveRw old write k d r) := by
  unfold serveRw
  repeat' first
    | with_reducible assumption
    | with_reducible apply checkPayload_fit
    | with_reducible apply emit_fit
    | with_reducible apply hbmRead_fit
    | with_reducible apply hbmWrite_fit
    | with_reducible apply modLink_fit
    | with_reducible apply refuseAccess_fit
    | with_reducible apply respond_fit
    | with_reducible apply tick_fit
    | with_reducible apply unreachable_fit
    | simp -implicitDefEqProofs only [QueuesFit.lit]
    | split
    | intro _
    | dsimp only
    | with_reducible refine sendFlits_fit (by assumption) ?_
theorem serveQueue_fit (write : Bool) (act : Packet → Dev → Nat → Dev) (k : Packet) (d : Dev) (r : Req) (h0 : QueuesFit d) (ha : ∀ p e q, QueuesFit e → QueuesFit (act p e q)) : QueuesFit (serveQueue write act k d r) := by
  unfold serveQueue
  repeat' first
    | with_reducible assumption
    | with_reducible apply ha
    | with_reducible apply unreachable_fit
    | with_reducible apply respond_fit
    | with_reducible apply refuseAccess_fit
    | with_reducible apply checkPayload_fit
    | simp -implicitDefEqProofs only [QueuesFit.lit]
    | split
    | intro _
    | dsimp only
theorem dropQwr_fit (d : Dev) (q : Nat) (k : Packet) (h0 : QueuesFit d) : QueuesFit (dropQwr d q k) := by
  unfold dropQwr
  repeat' first
    | with_reducible assumption
    | with_reducible apply dropWrite_fit
    | with_reducible apply notifyKinds_fit
    | with_reducible apply respond_fit
    | simp -implicitDefEqProofs only [QueuesFit.lit]
    | split
    | intro _
    | dsimp only
theorem doQwr_fit (k : Packet) (d : Dev) (q : Nat) (h0 : QueuesFit d) : QueuesFit (doQwr k d q) := by
  unfold doQwr
  repeat' first
    | with_reducible assumption
    | with_reducible apply acceptQwr_fit
    | with_reducible apply dropQwr_fit
    | with_reducible apply setQueue_fit
    | exact Fits.same (QueuesFit.queue (by assumption) _) (Eq.refl _) (Eq.refl _) (Eq.refl _) (Eq.refl _)
    | exact fun _ h => Fits.same h (Eq.refl _) (Eq.refl _) (Eq.refl _) (Eq.refl _)
    | exact fun x hx => Fits.of hx id (Nat.zero_le _) (Nat.zero_le _) (Eq.refl _)
    | simp -implicitDefEqProofs only [QueuesFit.lit]
    | split
    | intro _
    | dsimp only
theorem doQrd_fit (k : Packet) (d : Dev) (q : Nat) (h0 : QueuesFit d) : QueuesFit (doQrd k d q) := by
  unfold doQrd
  repeat' first
    | with_reducible assumption
    | with_reducible apply answerQrd_fit
    | with_reducible apply markBound_fit
    | with_reducible apply modQueue_fit
    | with_reducible apply respond_fit
    | exact Fits.same (QueuesFit.queue (by assumption) _) (Eq.refl _) (Eq.refl _) (Eq.refl _) (Eq.refl _)
    | exact fun _ h => Fits.same h (Eq.refl _) (Eq.refl _) (Eq.refl _) (Eq.refl _)
    | exact fun x hx => Fits.of hx id (Nat.zero_le _) (Nat.zero_le _) (Eq.refl _)
    | simp -implicitDefEqProofs only [QueuesFit.lit]
    | split
    | intro _
    | dsimp only
theorem markDataErr_fit (d : Dev) (b : CapBlk) (h0 : QueuesFit d) : QueuesFit (markDataErr d b) := by
  unfold markDataErr
  repeat' first
    | with_reducible assumption
    | with_reducible apply hbmGet_fit
    | with_reducible apply hbmPut_fit
    | with_reducible apply setChan_fit
    | simp -implicitDefEqProofs only [QueuesFit.lit]
    | split
    | intro _
    | dsimp only
theorem countDataErr_fit (d : Dev) (h0 : QueuesFit d) : QueuesFit (countDataErr d) := by
  unfold countDataErr
  repeat' first
    | with_reducible assumption
    | with_reducible apply add_fit
    | with_reducible apply irq_fit
    | simp -implicitDefEqProofs only [QueuesFit.lit]
    | split
    | intro _
    | dsimp only
theorem doCapWr_fit (d : Dev) (k : Packet) (h0 : QueuesFit d) : QueuesFit (doCapWr d k) := by
  unfold doCapWr
  repeat' first
    | with_reducible assumption
    | with_reducible apply checkPayload_fit
    | with_reducible apply countDataErr_fit
    | with_reducible apply hbmWrite_fit
    | with_reducible apply iff_fit
    | with_reducible apply markDataErr_fit
    | with_reducible apply raise_fit
    | simp -implicitDefEqProofs only [QueuesFit.lit]
    | split
    | intro _
    | dsimp only
theorem blockWritten_fit (d : Dev) (s : Nat) (h0 : QueuesFit d) : QueuesFit (blockWritten d s) := by
  unfold blockWritten
  repeat' first
    | with_reducible assumption
    | with_reducible apply add_fit
    | with_reducible apply modStrm_fit
    | with_reducible apply on_fit
    | with_reducible apply p_fit
    | with_reducible apply stopStream_fit
    | with_reducible apply traceIrq_fit
    | simp -implicitDefEqProofs only [QueuesFit.lit]
    | split
    | intro _
    | dsimp only
theorem doTrcWr_fit (d : Dev) (k : Packet) (h0 : QueuesFit d) : QueuesFit (doTrcWr d k) := by
  unfold doTrcWr
  repeat' first
    | with_reducible assumption
    | with_reducible apply blockWritten_fit
    | with_reducible apply checkPayload_fit
    | with_reducible apply emit_fit
    | with_reducible apply hbmWrite_fit
    | with_reducible apply iff_fit
    | with_reducible apply loseBlock_fit
    | with_reducible apply noteLoss_fit
    | with_reducible apply setStrm_fit
    | simp -implicitDefEqProofs only [QueuesFit.lit]
    | split
    | intro _
    | dsimp only
theorem lateRsp_fit (d : Dev) (h0 : QueuesFit d) : QueuesFit (lateRsp d) := by
  unfold lateRsp
  repeat' first
    | with_reducible assumption
    | with_reducible apply add_fit
    | simp -implicitDefEqProofs only [QueuesFit.lit]
    | split
    | intro _
    | dsimp only
theorem poison_fit (d : Dev) (fn : Fn) (a : Nat) (bs : List Byte) (h0 : QueuesFit d) : QueuesFit (poison d fn a bs) := by
  unfold poison
  repeat' first
    | with_reducible assumption
    | with_reducible apply add_fit
    | with_reducible apply emit_fit
    | with_reducible apply irq_fit
    | with_reducible apply on_fit
    | simp -implicitDefEqProofs only [QueuesFit.lit]
    | split
    | intro _
    | dsimp only
theorem deliver_fit (d : Dev) (o : Outst) (k : Packet) (data : Bool) (h0 : QueuesFit d) : QueuesFit (deliver d o k data) := by
  unfold deliver
  repeat' first
    | with_reducible assumption
    | with_reducible apply accessError_fit
    | with_reducible apply checkPayload_fit
    | with_reducible apply courierFail_fit
    | with_reducible apply emit_fit
    | with_reducible apply farAnswered_fit
    | with_reducible apply farStatus_fit
    | with_reducible apply hostFail_fit
    | with_reducible apply poison_fit
    | with_reducible apply tick_fit
    | simp -implicitDefEqProofs only [QueuesFit.lit]
    | split
    | intro _
    | dsimp only
theorem doResponse_fit (d : Dev) (k : Packet) (data : Bool) (h0 : QueuesFit d) : QueuesFit (doResponse d k data) := by
  unfold doResponse
  repeat' first
    | with_reducible assumption
    | with_reducible apply deliver_fit
    | with_reducible apply freeOutst_fit
    | with_reducible apply gatewayTakes_fit
    | with_reducible apply lateRsp_fit
    | simp -implicitDefEqProofs only [QueuesFit.lit]
    | split
    | intro _
    | dsimp only
theorem doRspTimeout_fit (d : Dev) (src tag : Nat) (h0 : QueuesFit d) : QueuesFit (doRspTimeout d src tag) := by
  unfold doRspTimeout
  repeat' first
    | with_reducible assumption
    | with_reducible apply add_fit
    | with_reducible apply failed_fit
    | with_reducible apply freeOutst_fit
    | with_reducible apply raise_fit
    | simp -implicitDefEqProofs only [QueuesFit.lit]
    | split
    | intro _
    | dsimp only
theorem doQuarantineEnd_fit (d : Dev) (src tag : Nat) (h0 : QueuesFit d) : QueuesFit (doQuarantineEnd d src tag) := by
  unfold doQuarantineEnd
  repeat' first
    | with_reducible assumption
    | simp -implicitDefEqProofs only [QueuesFit.lit]
    | split
    | intro _
    | dsimp only
theorem doDrainComplete_fit (d : Dev) (n : Nat) (h0 : QueuesFit d) : QueuesFit (doDrainComplete d n) := by
  unfold doDrainComplete
  repeat' first
    | with_reducible assumption
    | with_reducible apply fenceNi_fit
    | simp -implicitDefEqProofs only [QueuesFit.lit]
    | split
    | intro _
    | dsimp only
theorem doDrainTimeout_fit (d : Dev) (n : Nat) (h0 : QueuesFit d) : QueuesFit (doDrainTimeout d n) := by
  unfold doDrainTimeout
  repeat' first
    | with_reducible assumption
    | with_reducible apply abandon_fit
    | with_reducible apply add_fit
    | with_reducible apply each_fit
    | with_reducible apply fenceNi_fit
    | with_reducible apply irq_fit
    | with_reducible apply landFar_fit
    | with_reducible apply nocError_fit
    | with_reducible apply p_fit
    | with_reducible apply raise_fit
    | with_reducible apply setFar_fit
    | with_reducible apply settleFences_fit
    | with_reducible apply tick_fit
    | simp -implicitDefEqProofs only [QueuesFit.lit]
    | split
    | intro _
    | dsimp only
theorem unfenceNi_fit (d : Dev) (n : Nat) (h0 : QueuesFit d) : QueuesFit (unfenceNi d n) := by
  unfold unfenceNi
  repeat' first
    | with_reducible assumption
    | with_reducible apply p_fit
    | with_reducible apply settleFences_fit
    | simp -implicitDefEqProofs only [QueuesFit.lit]
    | split
    | intro _
    | dsimp only
theorem doUnfence_fit (d : Dev) (n : Nat) (h0 : QueuesFit d) : QueuesFit (doUnfence d n) := by
  unfold doUnfence
  repeat' first
    | with_reducible assumption
    | with_reducible apply unfenceNi_fit
    | simp -implicitDefEqProofs only [QueuesFit.lit]
    | split
    | intro _
    | dsimp only
theorem doNocClr_fit (d : Dev) (h0 : QueuesFit d) : QueuesFit (doNocClr d) := by
  unfold doNocClr
  repeat' first
    | with_reducible assumption
    | with_reducible apply each_fit
    | with_reducible apply resetRange_fit
    | simp -implicitDefEqProofs only [QueuesFit.lit]
    | split
    | intro _
    | dsimp only
end Sys2Proof.Machine.Dev
end

