-- ==== Sys2Proof/Laws/KeepQueues6.lean ====
section
/-! SUPPORT. No queue comes to hold more than its depth by power, the ring and host accesses. -/

set_option linter.all false

namespace Sys2Proof.Machine.Dev

set_option Elab.async false

theorem bare_fit (d : Dev) (h0 : QueuesFit d) : QueuesFit (bare d) := by
  unfold bare
  repeat' first
    | with_reducible assumption
    | with_reducible apply reset_fit
    | simp -implicitDefEqProofs only [QueuesFit.lit]
    | split
    | intro _
    | dsimp only
theorem perst_fit (d : Dev) (cause : Nat) (st : Power) (h0 : QueuesFit d) : QueuesFit (perst d cause st) := by
  unfold perst
  repeat' first
    | with_reducible assumption
    | with_reducible apply QueuesFit.filter
    | with_reducible apply add_fit
    | with_reducible apply p_fit
    | with_reducible apply bare_fit
    | with_reducible apply cutBurns_fit
    | simp -implicitDefEqProofs only [QueuesFit.lit]
    | split
    | intro _
    | dsimp only
theorem powerOn_fit (d : Dev) (h0 : QueuesFit d) : QueuesFit (powerOn d) := by
  unfold powerOn
  repeat' first
    | with_reducible assumption
    | with_reducible apply bare_fit
    | simp -implicitDefEqProofs only [QueuesFit.lit]
    | split
    | intro _
    | dsimp only
theorem doVauxLoss_fit (d : Dev) (h0 : QueuesFit d) : QueuesFit (doVauxLoss d) := by
  unfold doVauxLoss
  repeat' first
    | with_reducible assumption
    | with_reducible apply bare_fit
    | with_reducible apply cutBurns_fit
    | with_reducible apply emit_fit
    | with_reducible apply iff_fit
    | with_reducible apply wake_fit
    | simp -implicitDefEqProofs only [QueuesFit.lit]
    | split
    | intro _
    | dsimp only
theorem doVin48Up_fit (d : Dev) (h0 : QueuesFit d) : QueuesFit (doVin48Up d) := by
  unfold doVin48Up
  repeat' first
    | with_reducible assumption
    | with_reducible apply on_fit
    | simp -implicitDefEqProofs only [QueuesFit.lit]
    | split
    | intro _
    | dsimp only
theorem doVin48Loss_fit (d : Dev) (h0 : QueuesFit d) : QueuesFit (doVin48Loss d) := by
  unfold doVin48Loss
  repeat' first
    | with_reducible assumption
    | with_reducible apply lastGasp_fit
    | with_reducible apply perst_fit
    | with_reducible apply tick_fit
    | simp -implicitDefEqProofs only [QueuesFit.lit]
    | split
    | intro _
    | dsimp only
theorem doPerstAssert_fit (d : Dev) (h0 : QueuesFit d) : QueuesFit (doPerstAssert d) := by
  unfold doPerstAssert
  repeat' first
    | with_reducible assumption
    | with_reducible apply p_fit
    | with_reducible apply perst_fit
    | simp -implicitDefEqProofs only [QueuesFit.lit]
    | split
    | intro _
    | dsimp only
theorem doPerstDeassert_fit (d : Dev) (h0 : QueuesFit d) : QueuesFit (doPerstDeassert d) := by
  unfold doPerstDeassert
  repeat' first
    | with_reducible assumption
    | with_reducible apply perst_fit
    | simp -implicitDefEqProofs only [QueuesFit.lit]
    | split
    | intro _
    | dsimp only
theorem trainPcie_fit (d : Dev) (h0 : QueuesFit d) : QueuesFit (trainPcie d) := by
  unfold trainPcie
  repeat' first
    | with_reducible assumption
    | with_reducible apply p_fit
    | simp -implicitDefEqProofs only [QueuesFit.lit]
    | split
    | intro _
    | dsimp only
theorem doStartup_fit (d : Dev) (refclk healthOk : Bool) (h0 : QueuesFit d) : QueuesFit (doStartup d refclk healthOk) := by
  unfold doStartup
  repeat' first
    | with_reducible assumption
    | with_reducible apply emit_fit
    | with_reducible apply irq_fit
    | with_reducible apply on_fit
    | with_reducible apply p_fit
    | with_reducible apply raise_fit
    | with_reducible apply romStart_fit
    | with_reducible apply setAuthMode_fit
    | with_reducible apply setBoot_fit
    | with_reducible apply tick_fit
    | with_reducible apply trainPcie_fit
    | with_reducible apply wake_fit
    | simp -implicitDefEqProofs only [QueuesFit.lit]
    | split
    | intro _
    | dsimp only
theorem doDevice_fit (d : Dev) (h0 : QueuesFit d) : QueuesFit (doDevice d) := by
  unfold doDevice
  repeat' first
    | with_reducible assumption
    | with_reducible apply perst_fit
    | simp -implicitDefEqProofs only [QueuesFit.lit]
    | split
    | intro _
    | dsimp only
theorem resetFn_fit (d : Dev) (fn : Fn) (h0 : QueuesFit d) : QueuesFit (resetFn d fn) := by
  unfold resetFn
  repeat' first
    | with_reducible assumption
    | with_reducible apply resetRange_fit
    | simp -implicitDefEqProofs only [QueuesFit.lit]
    | split
    | intro _
    | dsimp only
theorem beginFnReset_fit (d : Dev) (fn : Fn) (h0 : QueuesFit d) : QueuesFit (beginFnReset d fn) := by
  unfold beginFnReset
  repeat' first
    | with_reducible assumption
    | with_reducible apply resetFn_fit
    | simp -implicitDefEqProofs only [QueuesFit.lit]
    | split
    | intro _
    | dsimp only
theorem resetPtns_fit (d : Dev) (mask : Nat) (h0 : QueuesFit d) : QueuesFit (resetPtns d mask) := by
  unfold resetPtns
  repeat' first
    | with_reducible assumption
    | with_reducible apply each_fit
    | with_reducible apply ptnResetReq_fit
    | simp -implicitDefEqProofs only [QueuesFit.lit]
    | split
    | intro _
    | dsimp only
theorem doPtnReset_fit (d : Dev) (mask : Nat) (h0 : QueuesFit d) : QueuesFit (doPtnReset d mask) := by
  unfold doPtnReset
  repeat' first
    | with_reducible assumption
    | with_reducible apply each_fit
    | with_reducible apply ptnResetReq_fit
    | simp -implicitDefEqProofs only [QueuesFit.lit]
    | split
    | intro _
    | dsimp only
theorem clearVfs_fit (d : Dev) (h0 : QueuesFit d) : QueuesFit (clearVfs d) := by
  unfold clearVfs
  repeat' first
    | with_reducible assumption
    | with_reducible apply each_fit
    | with_reducible apply resetFn_fit
    | simp -implicitDefEqProofs only [QueuesFit.lit]
    | split
    | intro _
    | dsimp only
theorem doFlrPf_fit (d : Dev) (h0 : QueuesFit d) : QueuesFit (doFlrPf d) := by
  unfold doFlrPf
  repeat' first
    | with_reducible assumption
    | with_reducible apply beginFnReset_fit
    | with_reducible apply clearStaging_fit
    | with_reducible apply clearVfs_fit
    | with_reducible apply each_fit
    | with_reducible apply on_fit
    | with_reducible apply p_fit
    | with_reducible apply resetPtns_fit
    | with_reducible apply setBoot_fit
    | simp -implicitDefEqProofs only [QueuesFit.lit]
    | split
    | intro _
    | dsimp only
theorem doFlrVf_fit (d : Dev) (p : Fin 16) (h0 : QueuesFit d) : QueuesFit (doFlrVf d p) := by
  unfold doFlrVf
  repeat' first
    | with_reducible assumption
    | with_reducible apply beginFnReset_fit
    | with_reducible apply p_fit
    | with_reducible apply ptnResetReq_fit
    | simp -implicitDefEqProofs only [QueuesFit.lit]
    | split
    | intro _
    | dsimp only
theorem doFnResetDone_fit (d : Dev) (fn : Fn) (h0 : QueuesFit d) : QueuesFit (doFnResetDone d fn) := by
  unfold doFnResetDone
  repeat' first
    | with_reducible assumption
    | simp -implicitDefEqProofs only [QueuesFit.lit]
    | split
    | intro _
    | dsimp only
theorem doVfClear_fit (d : Dev) (h0 : QueuesFit d) : QueuesFit (doVfClear d) := by
  unfold doVfClear
  repeat' first
    | with_reducible assumption
    | with_reducible apply clearVfs_fit
    | with_reducible apply resetPtns_fit
    | with_reducible apply foldl_fit
    | with_reducible apply fold1_fit
    | simp -implicitDefEqProofs only [QueuesFit.lit]
    | split
    | intro _
    | dsimp only
theorem doVfSet_fit (d : Dev) (num : Nat) (h0 : QueuesFit d) : QueuesFit (doVfSet d num) := by
  unfold doVfSet
  repeat' first
    | with_reducible assumption
    | with_reducible apply tick_fit
    | simp -implicitDefEqProofs only [QueuesFit.lit]
    | split
    | intro _
    | dsimp only
theorem doClusterWake_fit (d : Dev) (ns : List Nat) (h0 : QueuesFit d) : QueuesFit (doClusterWake d ns) := by
  unfold doClusterWake
  repeat' first
    | with_reducible assumption
    | with_reducible apply each_fit
    | with_reducible apply wake_fit
    | simp -implicitDefEqProofs only [QueuesFit.lit]
    | split
    | intro _
    | dsimp only
theorem doIdleDelay_fit (d : Dev) (i : Nat) (h0 : QueuesFit d) : QueuesFit (doIdleDelay d i) := by
  unfold doIdleDelay
  repeat' first
    | with_reducible assumption
    | with_reducible apply each_fit
    | with_reducible apply setPower_fit
    | simp -implicitDefEqProofs only [QueuesFit.lit]
    | split
    | intro _
    | dsimp only
theorem doOffDelay_fit (d : Dev) (n : Nat) (h0 : QueuesFit d) : QueuesFit (doOffDelay d n) := by
  unfold doOffDelay
  repeat' first
    | with_reducible assumption
    | with_reducible apply doDrainComplete_fit
    | with_reducible apply drainNi_fit
    | with_reducible apply setPower_fit
    | simp -implicitDefEqProofs only [QueuesFit.lit]
    | split
    | intro _
    | dsimp only
theorem doPowerOnCluster_fit (d : Dev) (n : Nat) (h0 : QueuesFit d) : QueuesFit (doPowerOnCluster d n) := by
  unfold doPowerOnCluster
  repeat' first
    | with_reducible assumption
    | with_reducible apply freshCluster_fit
    | with_reducible apply iff_fit
    | with_reducible apply setPower_fit
    | with_reducible apply unfenceNi_fit
    | with_reducible apply wake_fit
    | simp -implicitDefEqProofs only [QueuesFit.lit]
    | split
    | intro _
    | dsimp only
theorem latchWake_fit (d : Dev) (src : Nat) (h0 : QueuesFit d) : QueuesFit (latchWake d src) := by
  unfold latchWake
  repeat' first
    | with_reducible assumption
    | with_reducible apply emit_fit
    | with_reducible apply on_fit
    | with_reducible apply p_fit
    | with_reducible apply wake_fit
    | simp -implicitDefEqProofs only [QueuesFit.lit]
    | split
    | intro _
    | dsimp only
theorem doWake_fit (d : Dev) (src : Nat) (h0 : QueuesFit d) : QueuesFit (doWake d src) := by
  unfold doWake
  repeat' first
    | with_reducible assumption
    | with_reducible apply latchWake_fit
    | simp -implicitDefEqProofs only [QueuesFit.lit]
    | split
    | intro _
    | dsimp only
theorem setWarden_fit (d : Dev) (st : Nat) (h0 : QueuesFit d) : QueuesFit (setWarden d st) := by
  unfold setWarden
  repeat' first
    | with_reducible assumption
    | with_reducible apply p_fit
    | with_reducible apply traceWarden_fit
    | simp -implicitDefEqProofs only [QueuesFit.lit]
    | split
    | intro _
    | dsimp only
theorem coresFrom_fit (d : Dev) (a b : Nat) (h0 : QueuesFit d) : QueuesFit (coresFrom d a b) := by
  unfold coresFrom
  repeat' first
    | with_reducible assumption
    | with_reducible apply each_fit
    | with_reducible apply p_fit
    | with_reducible apply tracePup_fit
    | simp -implicitDefEqProofs only [QueuesFit.lit]
    | split
    | intro _
    | dsimp only
theorem doHeartbeat_fit (d : Dev) (v : Nat) (h0 : QueuesFit d) : QueuesFit (doHeartbeat d v) := by
  unfold doHeartbeat
  repeat' first
    | with_reducible assumption
    | with_reducible apply add_fit
    | with_reducible apply coresFrom_fit
    | with_reducible apply p_fit
    | with_reducible apply setWarden_fit
    | simp -implicitDefEqProofs only [QueuesFit.lit]
    | split
    | intro _
    | dsimp only
theorem doHeartbeatTimeout_fit (d : Dev) (h0 : QueuesFit d) : QueuesFit (doHeartbeatTimeout d) := by
  unfold doHeartbeatTimeout
  repeat' first
    | with_reducible assumption
    | with_reducible apply coresFrom_fit
    | with_reducible apply irq_fit
    | with_reducible apply raise_fit
    | with_reducible apply setWarden_fit
    | simp -implicitDefEqProofs only [QueuesFit.lit]
    | split
    | intro _
    | dsimp only
theorem controlledStop_fit (d : Dev) (cause : Nat) (h0 : QueuesFit d) : QueuesFit (controlledStop d cause) := by
  unfold controlledStop
  repeat' first
    | with_reducible assumption
    | with_reducible apply drainNi_fit
    | with_reducible apply each_fit
    | with_reducible apply hardReq_fit
    | with_reducible apply lastGasp_fit
    | with_reducible apply p_fit
    | with_reducible apply perst_fit
    | with_reducible apply raise_fit
    | with_reducible apply raiseSysFreeze_fit
    | with_reducible apply setWarden_fit
    | simp -implicitDefEqProofs only [QueuesFit.lit]
    | split
    | intro _
    | dsimp only
theorem doGraceTimeout_fit (d : Dev) (h0 : QueuesFit d) : QueuesFit (doGraceTimeout d) := by
  unfold doGraceTimeout
  repeat' first
    | with_reducible assumption
    | with_reducible apply controlledStop_fit
    | simp -implicitDefEqProofs only [QueuesFit.lit]
    | split
    | intro _
    | dsimp only
theorem doTemperature_fit (d : Dev) (q celsius : Nat) (h0 : QueuesFit d) : QueuesFit (doTemperature d q celsius) := by
  unfold doTemperature
  repeat' first
    | with_reducible assumption
    | with_reducible apply controlledStop_fit
    | with_reducible apply p_fit
    | simp -implicitDefEqProofs only [QueuesFit.lit]
    | split
    | intro _
    | dsimp only
theorem doPllLost_fit (d : Dev) (h0 : QueuesFit d) : QueuesFit (doPllLost d) := by
  unfold doPllLost
  repeat' first
    | with_reducible assumption
    | with_reducible apply controlledStop_fit
    | with_reducible apply p_fit
    | simp -implicitDefEqProofs only [QueuesFit.lit]
    | split
    | intro _
    | dsimp only
theorem doStopDrain_fit (d : Dev) (h0 : QueuesFit d) : QueuesFit (doStopDrain d) := by
  unfold doStopDrain
  repeat' first
    | with_reducible assumption
    | with_reducible apply doDrainTimeout_fit
    | with_reducible apply each_fit
    | simp -implicitDefEqProofs only [QueuesFit.lit]
    | split
    | intro _
    | dsimp only
theorem doStopComplete_fit (d : Dev) (h0 : QueuesFit d) : QueuesFit (doStopComplete d) := by
  unfold doStopComplete
  repeat' first
    | with_reducible assumption
    | with_reducible apply latchWake_fit
    | with_reducible apply p_fit
    | with_reducible apply perst_fit
    | simp -implicitDefEqProofs only [QueuesFit.lit]
    | split
    | intro _
    | dsimp only
theorem writeLgrpCfg_fit (d : Dev) (gi v : Nat) (h0 : QueuesFit d) : QueuesFit (writeLgrpCfg d gi v) := by
  unfold writeLgrpCfg
  repeat' first
    | with_reducible assumption
    | with_reducible apply doLaneDisable_fit
    | with_reducible apply doLaneEnable_fit
    | with_reducible apply doLaneTest_fit
    | with_reducible apply p_fit
    | simp -implicitDefEqProofs only [QueuesFit.lit]
    | split
    | intro _
    | dsimp only
theorem doStringJoin_fit (d : Dev) (h0 : QueuesFit d) : QueuesFit (doStringJoin d) := by
  unfold doStringJoin
  repeat' first
    | with_reducible assumption
    | with_reducible apply on_fit
    | with_reducible apply p_fit
    | simp -implicitDefEqProofs only [QueuesFit.lit]
    | split
    | intro _
    | dsimp only
theorem doStringOpen_fit (d : Dev) (h0 : QueuesFit d) : QueuesFit (doStringOpen d) := by
  unfold doStringOpen
  repeat' first
    | with_reducible assumption
    | with_reducible apply p_fit
    | simp -implicitDefEqProofs only [QueuesFit.lit]
    | split
    | intro _
    | dsimp only
theorem doStringLeave_fit (d : Dev) (h0 : QueuesFit d) : QueuesFit (doStringLeave d) := by
  unfold doStringLeave
  repeat' first
    | with_reducible assumption
    | with_reducible apply p_fit
    | simp -implicitDefEqProofs only [QueuesFit.lit]
    | split
    | intro _
    | dsimp only
theorem doStringBroken_fit (d : Dev) (h0 : QueuesFit d) : QueuesFit (doStringBroken d) := by
  unfold doStringBroken
  repeat' first
    | with_reducible assumption
    | with_reducible apply irq_fit
    | with_reducible apply p_fit
    | simp -implicitDefEqProofs only [QueuesFit.lit]
    | split
    | intro _
    | dsimp only
theorem frameIn_fit (d : Dev) (f : RingFrame) (own : Bool) (back : Dev → Dev) (act : Dev → Dev × List Byte) (h0 : QueuesFit d) (hb : ∀ e, QueuesFit e → QueuesFit (back e)) (ha : ∀ e, QueuesFit e → QueuesFit (act e).1) : QueuesFit (frameIn d f own back act) := by
  unfold frameIn
  repeat' first
    | with_reducible assumption
    | with_reducible apply hb
    | with_reducible apply ha
    | with_reducible apply add_fit
    | with_reducible apply p_fit
    | with_reducible apply ringOut_fit
    | simp -implicitDefEqProofs only [QueuesFit.lit]
    | split
    | intro _
    | dsimp only
theorem onceFor_fit (d : Dev) (kind src n : Nat) (act : Dev → Dev) (h0 : QueuesFit d) (ha : ∀ e, QueuesFit e → QueuesFit (act e)) : QueuesFit (onceFor d kind src n act) := by
  unfold onceFor
  repeat' first
    | with_reducible assumption
    | with_reducible apply ha
    | simp -implicitDefEqProofs only [QueuesFit.lit]
    | split
    | intro _
    | dsimp only
theorem takeNumber_fit (d : Dev) (n : Nat) (h0 : QueuesFit d) : QueuesFit (takeNumber d n) := by
  unfold takeNumber
  repeat' first
    | with_reducible assumption
    | with_reducible apply irq_fit
    | with_reducible apply p_fit
    | simp -implicitDefEqProofs only [QueuesFit.lit]
    | split
    | intro _
    | dsimp only
theorem doDiscover_fit (d : Dev) (h0 : QueuesFit d) : QueuesFit (doDiscover d) := by
  unfold doDiscover
  repeat' first
    | with_reducible assumption
    | with_reducible apply ringSend_fit
    | simp -implicitDefEqProofs only [QueuesFit.lit]
    | split
    | intro _
    | dsimp only
theorem doCollect_fit (d : Dev) (src n ttl map : Nat) (crc : W32) (h0 : QueuesFit d) : QueuesFit (doCollect d src n ttl map crc) := by
  unfold doCollect
  repeat' first
    | with_reducible assumption
    | with_reducible apply frameIn_fit
    | with_reducible apply ringSend_fit
    | with_reducible apply takeNumber_fit
    | simp -implicitDefEqProofs only [QueuesFit.lit]
    | split
    | intro _
    | dsimp only
theorem doAssign_fit (d : Dev) (src n ttl map : Nat) (crc : W32) (h0 : QueuesFit d) : QueuesFit (doAssign d src n ttl map crc) := by
  unfold doAssign
  repeat' first
    | with_reducible assumption
    | with_reducible apply frameIn_fit
    | with_reducible apply on_fit
    | with_reducible apply p_fit
    | with_reducible apply takeNumber_fit
    | simp -implicitDefEqProofs only [QueuesFit.lit]
    | split
    | intro _
    | dsimp only
theorem doStringBeacon_fit (d : Dev) (src n ttl ns frac : Nat) (crc : W32) (h0 : QueuesFit d) : QueuesFit (doStringBeacon d src n ttl ns frac crc) := by
  unfold doStringBeacon
  repeat' first
    | with_reducible assumption
    | with_reducible apply frameIn_fit
    | with_reducible apply id_fit
    | with_reducible apply ringBeacon_fit
    | simp -implicitDefEqProofs only [QueuesFit.lit]
    | split
    | intro _
    | dsimp only
theorem freezeOwn_fit (d : Dev) (i : Nat) (h0 : QueuesFit d) : QueuesFit (freezeOwn d i) := by
  unfold freezeOwn
  repeat' first
    | with_reducible assumption
    | with_reducible apply freezeReq_fit
    | with_reducible apply modPtn_fit
    | with_reducible apply on_fit
    | simp -implicitDefEqProofs only [QueuesFit.lit]
    | split
    | intro _
    | dsimp only
theorem ringFreeze_fit (d : Dev) (origin n : Nat) (h0 : QueuesFit d) : QueuesFit (ringFreeze d origin n) := by
  unfold ringFreeze
  repeat' first
    | with_reducible assumption
    | with_reducible apply controlAll_fit
    | with_reducible apply each_fit
    | with_reducible apply freezeOwn_fit
    | with_reducible apply on_fit
    | with_reducible apply p_fit
    | with_reducible apply raise_fit
    | simp -implicitDefEqProofs only [QueuesFit.lit]
    | split
    | intro _
    | dsimp only
theorem doStringFreeze_fit (d : Dev) (src n ttl origin num : Nat) (crc : W32) (h0 : QueuesFit d) : QueuesFit (doStringFreeze d src n ttl origin num crc) := by
  unfold doStringFreeze
  repeat' first
    | with_reducible assumption
    | with_reducible apply frameIn_fit
    | with_reducible apply id_fit
    | with_reducible apply onceFor_fit
    | with_reducible apply ringFreeze_fit
    | simp -implicitDefEqProofs only [QueuesFit.lit]
    | split
    | intro _
    | dsimp only
theorem doStringStrobe_fit (d : Dev) (src n ttl : Nat) (crc : W32) (h0 : QueuesFit d) : QueuesFit (doStringStrobe d src n ttl crc) := by
  unfold doStringStrobe
  repeat' first
    | with_reducible assumption
    | with_reducible apply frameIn_fit
    | with_reducible apply id_fit
    | with_reducible apply onceFor_fit
    | with_reducible apply strobeReq_fit
    | simp -implicitDefEqProofs only [QueuesFit.lit]
    | split
    | intro _
    | dsimp only
theorem doResetReq_fit (d : Dev) (src n dest ttl : Nat) (crc : W32) (h0 : QueuesFit d) : QueuesFit (doResetReq d src n dest ttl crc) := by
  unfold doResetReq
  repeat' first
    | with_reducible assumption
    | with_reducible apply frameIn_fit
    | with_reducible apply id_fit
    | with_reducible apply onceFor_fit
    | with_reducible apply perst_fit
    | simp -implicitDefEqProofs only [QueuesFit.lit]
    | split
    | intro _
    | dsimp only
theorem doMsg_fit (d : Dev) (src n dest ttl : Nat) (cfg : List (Nat × Nat)) (crc : W32) (h0 : QueuesFit d) : QueuesFit (doMsg d src n dest ttl cfg crc) := by
  unfold doMsg
  repeat' first
    | with_reducible assumption
    | with_reducible apply each_fit
    | with_reducible apply frameIn_fit
    | with_reducible apply id_fit
    | with_reducible apply writeLgrpCfg_fit
    | simp -implicitDefEqProofs only [QueuesFit.lit]
    | split
    | intro _
    | dsimp only
theorem doResetReqSend_fit (d : Dev) (h0 : QueuesFit d) : QueuesFit (doResetReqSend d) := by
  unfold doResetReqSend
  repeat' first
    | with_reducible assumption
    | with_reducible apply ringSend_fit
    | simp -implicitDefEqProofs only [QueuesFit.lit]
    | split
    | intro _
    | dsimp only
theorem doRepeat_fit (d : Dev) (h0 : QueuesFit d) : QueuesFit (doRepeat d) := by
  unfold doRepeat
  repeat' first
    | with_reducible assumption
    | with_reducible apply ringOut_fit
    | simp -implicitDefEqProofs only [QueuesFit.lit]
    | split
    | intro _
    | dsimp only
theorem doStringBeaconSend_fit (d : Dev) (h0 : QueuesFit d) : QueuesFit (doStringBeaconSend d) := by
  unfold doStringBeaconSend
  repeat' first
    | with_reducible assumption
    | with_reducible apply ringSend_fit
    | simp -implicitDefEqProofs only [QueuesFit.lit]
    | split
    | intro _
    | dsimp only
theorem reachPlace_fit (d : Dev) (fn : Fn) (a : Nat) (write : Bool) (ones : Nat) (k : Dev → Place → Dev) (h0 : QueuesFit d) (hk : ∀ e pl, QueuesFit e → QueuesFit (k e pl)) : QueuesFit (reachPlace d fn a write ones k) := by
  unfold reachPlace
  repeat' first
    | with_reducible assumption
    | with_reducible apply hk
    | with_reducible apply complete_fit
    | with_reducible apply viaFence_fit
    | simp -implicitDefEqProofs only [QueuesFit.lit]
    | split
    | intro _
    | dsimp only
theorem atPlace_fit (d : Dev) (fn : Fn) (a : Nat) (write : Bool) (k : Dev → Place → Dev) (h0 : QueuesFit d) (hk : ∀ e pl, QueuesFit e → QueuesFit (k e pl)) : QueuesFit (atPlace d fn a write k) := by
  unfold atPlace
  repeat' first
    | with_reducible assumption
    | with_reducible apply hk
    | with_reducible apply reachPlace_fit
    | simp -implicitDefEqProofs only [QueuesFit.lit]
    | split
    | intro _
    | dsimp only
theorem doUnmask_fit (d : Dev) (fn : Fn) (v : Nat) (h0 : QueuesFit d) : QueuesFit (doUnmask d fn v) := by
  unfold doUnmask
  repeat' first
    | with_reducible assumption
    | with_reducible apply p_fit
    | with_reducible apply sendVec_fit
    | simp -implicitDefEqProofs only [QueuesFit.lit]
    | split
    | intro _
    | dsimp only
theorem writeMsix_fit (d : Dev) (fn : Fn) (off v : Nat) (h0 : QueuesFit d) : QueuesFit (writeMsix d fn off v) := by
  unfold writeMsix
  repeat' first
    | with_reducible assumption
    | with_reducible apply doUnmask_fit
    | with_reducible apply on_fit
    | with_reducible apply p_fit
    | simp -implicitDefEqProofs only [QueuesFit.lit]
    | split
    | intro _
    | dsimp only
theorem clearIrq_fit (d : Dev) (base v : Nat) (h0 : QueuesFit d) : QueuesFit (clearIrq d base v) := by
  unfold clearIrq
  repeat' first
    | with_reducible assumption
    | with_reducible apply p_fit
    | simp -implicitDefEqProofs only [QueuesFit.lit]
    | split
    | intro _
    | dsimp only
theorem forceIrq_fit (d : Dev) (base v : Nat) (h0 : QueuesFit d) : QueuesFit (forceIrq d base v) := by
  unfold forceIrq
  repeat' first
    | with_reducible assumption
    | with_reducible apply each_fit
    | with_reducible apply irq_fit
    | simp -implicitDefEqProofs only [QueuesFit.lit]
    | split
    | intro _
    | dsimp only
theorem writeSel_fit (d : Dev) (fn : Fn) (base i v : Nat) (h0 : QueuesFit d) : QueuesFit (writeSel d fn base i v) := by
  unfold writeSel
  repeat' first
    | with_reducible assumption
    | with_reducible apply p_fit
    | simp -implicitDefEqProofs only [QueuesFit.lit]
    | split
    | intro _
    | dsimp only
theorem writeCommon_fit (d : Dev) (fn : Fn) (base off v : Nat) (h0 : QueuesFit d) : QueuesFit (writeCommon d fn base off v) := by
  unfold writeCommon
  repeat' first
    | with_reducible assumption
    | with_reducible apply clearIrq_fit
    | with_reducible apply forceIrq_fit
    | with_reducible apply setIrqEn_fit
    | with_reducible apply writeSel_fit
    | with_reducible apply writeWord_fit
    | simp -implicitDefEqProofs only [QueuesFit.lit]
    | split
    | intro _
    | dsimp only
theorem writeQueueReg_fit (d : Dev) (q k v : Nat) (h0 : QueuesFit d) : QueuesFit (writeQueueReg d q k v) := by
  unfold writeQueueReg
  repeat' first
    | with_reducible assumption
    | with_reducible apply clearQflags_fit
    | with_reducible apply queueCmd_fit
    | with_reducible apply writeQcfg_fit
    | simp -implicitDefEqProofs only [QueuesFit.lit]
    | split
    | intro _
    | dsimp only
theorem writePtn_fit (d : Dev) (i off v : Nat) (h0 : QueuesFit d) : QueuesFit (writePtn d i off v) := by
  unfold writePtn
  repeat' first
    | with_reducible assumption
    | with_reducible apply doLoadAbort_fit
    | with_reducible apply doLoadGo_fit
    | with_reducible apply doLoadReplay_fit
    | with_reducible apply doSeqTableWrite_fit
    | with_reducible apply doSnapAbort_fit
    | with_reducible apply doSnapRestore_fit
    | with_reducible apply doSnapSave_fit
    | with_reducible apply seqCommand_fit
    | with_reducible apply writeQueueReg_fit
    | with_reducible apply writeWord_fit
    | simp -implicitDefEqProofs only [QueuesFit.lit]
    | split
    | intro _
    | dsimp only
theorem writeClu_fit (d : Dev) (n base off v : Nat) (h0 : QueuesFit d) : QueuesFit (writeClu d n base off v) := by
  unfold writeClu
  repeat' first
    | with_reducible assumption
    | with_reducible apply doBpiClr_fit
    | with_reducible apply doDmemCfg_fit
    | with_reducible apply doDmemClr_fit
    | with_reducible apply doFabClr_fit
    | with_reducible apply doFmpCfg_fit
    | with_reducible apply doTxpCfg_fit
    | with_reducible apply doWliClr_fit
    | with_reducible apply iff_fit
    | with_reducible apply winWrite_fit
    | with_reducible apply writeWord_fit
    | simp -implicitDefEqProofs only [QueuesFit.lit]
    | split
    | intro _
    | dsimp only
theorem denyTrg_fit (d : Dev) (k : Nat) (h0 : QueuesFit d) : QueuesFit (denyTrg d k) := by
  unfold denyTrg
  repeat' first
    | with_reducible assumption
    | with_reducible apply on_fit
    | with_reducible apply p_fit
    | simp -implicitDefEqProofs only [QueuesFit.lit]
    | split
    | intro _
    | dsimp only
theorem writeComp_fit (d : Dev) (pf : Bool) (k o v : Nat) (h0 : QueuesFit d) : QueuesFit (writeComp d pf k o v) := by
  unfold writeComp
  repeat' first
    | with_reducible assumption
    | with_reducible apply denyTrg_fit
    | with_reducible apply on_fit
    | with_reducible apply p_fit
    | simp -implicitDefEqProofs only [QueuesFit.lit]
    | split
    | intro _
    | dsimp only
theorem writeTrg_fit (d : Dev) (off v : Nat) (h0 : QueuesFit d) : QueuesFit (writeTrg d off v) := by
  unfold writeTrg
  repeat' first
    | with_reducible assumption
    | with_reducible apply doArm_fit
    | with_reducible apply doDisarm_fit
    | with_reducible apply drivePin_fit
    | with_reducible apply iff_fit
    | with_reducible apply p_fit
    | with_reducible apply stopPulse_fit
    | with_reducible apply writeComp_fit
    | with_reducible apply writeWord_fit
    | simp -implicitDefEqProofs only [QueuesFit.lit]
    | split
    | intro _
    | dsimp only
theorem writeChan_fit (d : Dev) (pf : Bool) (ch o v : Nat) (h0 : QueuesFit d) : QueuesFit (writeChan d pf ch o v) := by
  unfold writeChan
  repeat' first
    | with_reducible assumption
    | with_reducible apply iff_fit
    | with_reducible apply on_fit
    | with_reducible apply p_fit
    | with_reducible apply setChanOwner_fit
    | simp -implicitDefEqProofs only [QueuesFit.lit]
    | split
    | intro _
    | dsimp only
theorem writeCap_fit (d : Dev) (pf : Bool) (off v : Nat) (h0 : QueuesFit d) : QueuesFit (writeCap d pf off v) := by
  unfold writeCap
  repeat' first
    | with_reducible assumption
    | with_reducible apply doCaptureArm_fit
    | with_reducible apply doCaptureDisarm_fit
    | with_reducible apply doPinwheelConfigWrite_fit
    | with_reducible apply iff_fit
    | with_reducible apply writeChan_fit
    | with_reducible apply writeWord_fit
    | simp -implicitDefEqProofs only [QueuesFit.lit]
    | split
    | intro _
    | dsimp only
theorem writeTrc_fit (d : Dev) (off v : Nat) (h0 : QueuesFit d) : QueuesFit (writeTrc d off v) := by
  unfold writeTrc
  repeat' first
    | with_reducible assumption
    | with_reducible apply disableStream_fit
    | with_reducible apply doAuthDisable_fit
    | with_reducible apply doMark_fit
    | with_reducible apply doTraceStreamEnable_fit
    | with_reducible apply iff_fit
    | with_reducible apply writeWord_fit
    | simp -implicitDefEqProofs only [QueuesFit.lit]
    | split
    | intro _
    | dsimp only
theorem writeTrcSlice_fit (d : Dev) (i off v : Nat) (h0 : QueuesFit d) : QueuesFit (writeTrcSlice d i off v) := by
  unfold writeTrcSlice
  repeat' first
    | with_reducible assumption
    | with_reducible apply each_fit
    | with_reducible apply on_fit
    | with_reducible apply p_fit
    | with_reducible apply writeTrc_fit
    | simp -implicitDefEqProofs only [QueuesFit.lit]
    | split
    | intro _
    | dsimp only
theorem writeLgrp_fit (d : Dev) (gi off v : Nat) (h0 : QueuesFit d) : QueuesFit (writeLgrp d gi off v) := by
  unfold writeLgrp
  repeat' first
    | with_reducible assumption
    | with_reducible apply doBridgeEnable_fit
    | with_reducible apply doClrSlack_fit
    | with_reducible apply doInjGo_fit
    | with_reducible apply doLgrpClr_fit
    | with_reducible apply iff_fit
    | with_reducible apply modLink_fit
    | with_reducible apply p_fit
    | with_reducible apply writeLgrpCfg_fit
    | with_reducible apply writeWord_fit
    | simp -implicitDefEqProofs only [QueuesFit.lit]
    | split
    | intro _
    | dsimp only
theorem doMbistGo_fit (d : Dev) (n : Nat) (h0 : QueuesFit d) : QueuesFit (doMbistGo d n) := by
  unfold doMbistGo
  repeat' first
    | with_reducible assumption
    | with_reducible apply freshCluster_fit
    | with_reducible apply mntRequest_fit
    | with_reducible apply on_fit
    | with_reducible apply p_fit
    | with_reducible apply setPower_fit
    | simp -implicitDefEqProofs only [QueuesFit.lit]
    | split
    | intro _
    | dsimp only
theorem doMbistComplete_fit (d : Dev) (n : Nat) (failed : Option Nat) (h0 : QueuesFit d) : QueuesFit (doMbistComplete d n failed) := by
  unfold doMbistComplete
  repeat' first
    | with_reducible assumption
    | with_reducible apply clearMemories_fit
    | with_reducible apply failed_fit
    | with_reducible apply mntFree_fit
    | with_reducible apply p_fit
    | with_reducible apply raise_fit
    | with_reducible apply setPower_fit
    | simp -implicitDefEqProofs only [QueuesFit.lit]
    | split
    | intro _
    | dsimp only
theorem doRelease_fit (d : Dev) (id : Nat) (h0 : QueuesFit d) : QueuesFit (doRelease d id) := by
  unfold doRelease
  repeat' first
    | with_reducible assumption
    | with_reducible apply id_fit
    | with_reducible apply retryWaits_fit
    | simp -implicitDefEqProofs only [QueuesFit.lit]
    | split
    | intro _
    | dsimp only
theorem writeWakeCause_fit (d : Dev) (v : Nat) (h0 : QueuesFit d) : QueuesFit (writeWakeCause d v) := by
  unfold writeWakeCause
  repeat' first
    | with_reducible assumption
    | with_reducible apply emit_fit
    | with_reducible apply p_fit
    | with_reducible apply wake_fit
    | with_reducible apply writeWord_fit
    | simp -implicitDefEqProofs only [QueuesFit.lit]
    | split
    | intro _
    | dsimp only
theorem writeBlock_fit (d : Dev) (base off v : Nat) (h0 : QueuesFit d) : QueuesFit (writeBlock d base off v) := by
  unfold writeBlock
  repeat' first
    | with_reducible assumption
    | with_reducible apply doBootAbort_fit
    | with_reducible apply doBootGo_fit
    | with_reducible apply doClearAll_fit
    | with_reducible apply doConfirm_fit
    | with_reducible apply doDiscover_fit
    | with_reducible apply doDspClr_fit
    | with_reducible apply doImeClrCounts_fit
    | with_reducible apply doLastGaspClear_fit
    | with_reducible apply doLogClear_fit
    | with_reducible apply doMbistGo_fit
    | with_reducible apply doNocClr_fit
    | with_reducible apply doPassRequest_fit
    | with_reducible apply doPtnReset_fit
    | with_reducible apply doResetReqSend_fit
    | with_reducible apply doRoll_fit
    | with_reducible apply doStringJoin_fit
    | with_reducible apply doStringLeave_fit
    | with_reducible apply doSysFreeze_fit
    | with_reducible apply doTsbSet_fit
    | with_reducible apply each_fit
    | with_reducible apply forgetSigs_fit
    | with_reducible apply iff_fit
    | with_reducible apply p_fit
    | with_reducible apply strobeReq_fit
    | with_reducible apply writeCap_fit
    | with_reducible apply writeQueueReg_fit
    | with_reducible apply writeTrc_fit
    | with_reducible apply writeTrg_fit
    | with_reducible apply writeWakeCause_fit
    | with_reducible apply writeWord_fit
    | simp -implicitDefEqProofs only [QueuesFit.lit]
    | split
    | intro _
    | dsimp only
theorem writeHub_fit (d : Dev) (base off v : Nat) (h0 : QueuesFit d) : QueuesFit (writeHub d base off v) := by
  unfold writeHub
  repeat' first
    | with_reducible assumption
    | with_reducible apply controlledStop_fit
    | with_reducible apply doDevice_fit
    | with_reducible apply iff_fit
    | with_reducible apply writeBlock_fit
    | with_reducible apply writeWord_fit
    | simp -implicitDefEqProofs only [QueuesFit.lit]
    | split
    | intro _
    | dsimp only
theorem writeReg_fit (d : Dev) (fn : Fn) (base off v : Nat) (h0 : QueuesFit d) : QueuesFit (writeReg d fn base off v) := by
  unfold writeReg
  repeat' first
    | with_reducible assumption
    | with_reducible apply writeClu_fit
    | with_reducible apply writeCommon_fit
    | with_reducible apply writeHub_fit
    | with_reducible apply writeLgrp_fit
    | with_reducible apply writePtn_fit
    | simp -implicitDefEqProofs only [QueuesFit.lit]
    | split
    | intro _
    | dsimp only
theorem writeSlice_fit (d : Dev) (i base off v : Nat) (h0 : QueuesFit d) : QueuesFit (writeSlice d i base off v) := by
  unfold writeSlice
  repeat' first
    | with_reducible assumption
    | with_reducible apply writeCap_fit
    | with_reducible apply writeComp_fit
    | with_reducible apply writeTrcSlice_fit
    | with_reducible apply writeWord_fit
    | simp -implicitDefEqProofs only [QueuesFit.lit]
    | split
    | intro _
    | dsimp only
theorem writePlace_fit (d : Dev) (fn : Fn) (pl : Place) (v : Nat) (h0 : QueuesFit d) : QueuesFit (writePlace d fn pl v) := by
  unfold writePlace
  repeat' first
    | with_reducible assumption
    | with_reducible apply writeMsix_fit
    | with_reducible apply writeReg_fit
    | with_reducible apply writeSlice_fit
    | simp -implicitDefEqProofs only [QueuesFit.lit]
    | split
    | intro _
    | dsimp only
theorem keepLow_fit (d : Dev) (fn : Fn) (pl : Place) (v : Nat) (h0 : QueuesFit d) : QueuesFit (keepLow d fn pl v) := by
  unfold keepLow
  repeat' first
    | with_reducible assumption
    | simp -implicitDefEqProofs only [QueuesFit.lit]
    | split
    | intro _
    | dsimp only
theorem writeHigh_fit (d : Dev) (fn : Fn) (pl : Place) (v : Nat) (h0 : QueuesFit d) : QueuesFit (writeHigh d fn pl v) := by
  unfold writeHigh
  repeat' first
    | with_reducible assumption
    | with_reducible apply writePlace_fit
    | simp -implicitDefEqProofs only [QueuesFit.lit]
    | split
    | intro _
    | dsimp only
theorem write32_fit (d : Dev) (fn : Fn) (pl : Place) (v : Nat) (h0 : QueuesFit d) : QueuesFit (write32 d fn pl v) := by
  unfold write32
  repeat' first
    | with_reducible assumption
    | with_reducible apply keepLow_fit
    | with_reducible apply writeHigh_fit
    | with_reducible apply writePlace_fit
    | simp -implicitDefEqProofs only [QueuesFit.lit]
    | split
    | intro _
    | dsimp only
theorem doMisaligned_fit (d : Dev) (fn : Fn) (a size : Nat) (write : Bool) (h0 : QueuesFit d) : QueuesFit (doMisaligned d fn a size write) := by
  unfold doMisaligned
  repeat' first
    | with_reducible assumption
    | with_reducible apply accessError_fit
    | with_reducible apply complete_fit
    | simp -implicitDefEqProofs only [QueuesFit.lit]
    | split
    | intro _
    | dsimp only
theorem doRegisterWrite_fit (d : Dev) (fn : Fn) (a v : Nat) (wide : Bool) (h0 : QueuesFit d) : QueuesFit (doRegisterWrite d fn a v wide) := by
  unfold doRegisterWrite
  repeat' first
    | with_reducible assumption
    | with_reducible apply atPlace_fit
    | with_reducible apply doMisaligned_fit
    | with_reducible apply write32_fit
    | with_reducible apply writePlace_fit
    | simp -implicitDefEqProofs only [QueuesFit.lit]
    | split
    | intro _
    | dsimp only
theorem logWindowRead_fit (d : Dev) (pl : Place) (h0 : QueuesFit d) : QueuesFit (logWindowRead d pl) := by
  unfold logWindowRead
  repeat' first
    | with_reducible assumption
    | with_reducible apply add_fit
    | with_reducible apply logFail_fit
    | simp -implicitDefEqProofs only [QueuesFit.lit]
    | split
    | intro _
    | dsimp only
theorem fetch32_fit (d : Dev) (fn : Fn) (pl : Place) (h0 : QueuesFit d) : QueuesFit (fetch32 d fn pl).1 := by
  unfold fetch32
  repeat' first
    | with_reducible assumption
    | with_reducible apply logWindowRead_fit
    | with_reducible apply winRead_fit
    | simp -implicitDefEqProofs only [QueuesFit.lit]
    | split
    | intro _
    | dsimp only
theorem read32_fit (d : Dev) (fn : Fn) (pl : Place) (h0 : QueuesFit d) : QueuesFit (read32 d fn pl) := by
  unfold read32
  repeat' first
    | with_reducible assumption
    | with_reducible apply fetch32_fit
    | with_reducible apply reply_fit
    | with_reducible apply submitList_fit
    | simp -implicitDefEqProofs only [QueuesFit.lit]
    | split
    | intro _
    | dsimp only
theorem doRead32_fit (d : Dev) (fn : Fn) (a : Nat) (h0 : QueuesFit d) : QueuesFit (doRead32 d fn a) := by
  unfold doRead32
  repeat' first
    | with_reducible assumption
    | with_reducible apply atPlace_fit
    | with_reducible apply doMisaligned_fit
    | with_reducible apply read32_fit
    | simp -implicitDefEqProofs only [QueuesFit.lit]
    | split
    | intro _
    | dsimp only
theorem doRead64_fit (d : Dev) (fn : Fn) (a : Nat) (h0 : QueuesFit d) : QueuesFit (doRead64 d fn a) := by
  unfold doRead64
  repeat' first
    | with_reducible assumption
    | with_reducible apply doMisaligned_fit
    | with_reducible apply reachPlace_fit
    | with_reducible apply read32_fit
    | with_reducible apply reply64_fit
    | simp -implicitDefEqProofs only [QueuesFit.lit]
    | split
    | intro _
    | dsimp only
theorem fetchReg_fit (d : Dev) (fn : Fn) (pl : Place) (h0 : QueuesFit d) : QueuesFit (fetchReg d fn pl).1 := by
  unfold fetchReg
  repeat' first
    | with_reducible assumption
    | with_reducible apply fetch32_fit
    | with_reducible apply judgeItem_fit
    | simp -implicitDefEqProofs only [QueuesFit.lit]
    | split
    | intro _
    | dsimp only
theorem serveReg_fit (write : Bool) (k : Packet) (d : Dev) (r : Req) (h0 : QueuesFit d) : QueuesFit (serveReg write k d r) := by
  unfold serveReg
  repeat' first
    | with_reducible assumption
    | with_reducible apply checkPayload_fit
    | with_reducible apply fetchReg_fit
    | with_reducible apply refuseAccess_fit
    | with_reducible apply respond_fit
    | with_reducible apply unreachable_fit
    | with_reducible apply write32_fit
    | simp -implicitDefEqProofs only [QueuesFit.lit]
    | split
    | intro _
    | dsimp only
theorem serveAccess_fit (old : Dev) (write : Bool) (k : Packet) (d : Dev) (r : Req) (h0 : QueuesFit old) (h1 : QueuesFit d) : QueuesFit (serveAccess old write k d r) := by
  unfold serveAccess
  repeat' first
    | with_reducible assumption
    | with_reducible apply serveReg_fit
    | with_reducible apply serveRw_fit
    | simp -implicitDefEqProofs only [QueuesFit.lit]
    | split
    | intro _
    | dsimp only
theorem doFenceRead_fit (d : Dev) (fn : Fn) (a : Nat) (h0 : QueuesFit d) : QueuesFit (doFenceRead d fn a) := by
  unfold doFenceRead
  repeat' first
    | with_reducible assumption
    | with_reducible apply atPlace_fit
    | with_reducible apply read32_fit
    | with_reducible apply reply_fit
    | simp -implicitDefEqProofs only [QueuesFit.lit]
    | split
    | intro _
    | dsimp only
theorem latchPage_fit (d0 d : Dev) (base n : Nat) (h0 : QueuesFit d0) (h1 : QueuesFit d) : QueuesFit (latchPage d0 d base n) := by
  unfold latchPage
  repeat' first
    | with_reducible assumption
    | with_reducible apply each_fit
    | with_reducible apply on_fit
    | with_reducible apply p_fit
    | simp -implicitDefEqProofs only [QueuesFit.lit]
    | split
    | intro _
    | dsimp only
theorem doStrobeLatch_fit (d : Dev) (h0 : QueuesFit d) : QueuesFit (doStrobeLatch d) := by
  unfold doStrobeLatch
  repeat' first
    | with_reducible assumption
    | with_reducible apply latchPage_fit
    | with_reducible apply p_fit
    | with_reducible apply foldl_fit
    | with_reducible apply fold1_fit
    | simp -implicitDefEqProofs only [QueuesFit.lit]
    | split
    | intro _
    | dsimp only
theorem windowBytes_fit (d : Dev) (fn : Fn) (x a n : Nat) (r : Req) (ok : Nat → Nat → Bool) (h0 : QueuesFit d) : QueuesFit (windowBytes d fn x a n r ok) := by
  unfold windowBytes
  repeat' first
    | with_reducible assumption
    | with_reducible apply accessError_fit
    | with_reducible apply each_fit
    | with_reducible apply emit_fit
    | with_reducible apply hbmFetch_fit
    | with_reducible apply poison_fit
    | simp -implicitDefEqProofs only [QueuesFit.lit]
    | split
    | intro _
    | dsimp only
theorem windowPut_fit (d : Dev) (fn : Fn) (x a : Nat) (bs : List Byte) (r : Req) (h0 : QueuesFit d) : QueuesFit (windowPut d fn x a bs r) := by
  unfold windowPut
  repeat' first
    | with_reducible assumption
    | with_reducible apply accessError_fit
    | with_reducible apply each_fit
    | with_reducible apply hbmSend_fit
    | simp -implicitDefEqProofs only [QueuesFit.lit]
    | split
    | intro _
    | dsimp only
theorem onesRead_fit (d : Dev) (fn : Fn) (x n : Nat) (h0 : QueuesFit d) : QueuesFit (onesRead d fn x n) := by
  unfold onesRead
  repeat' first
    | with_reducible assumption
    | with_reducible apply emit_fit
    | simp -implicitDefEqProofs only [QueuesFit.lit]
    | split
    | intro _
    | dsimp only
theorem doCaptureRead_fit (d : Dev) (p : Fin 16) (x n : Nat) (h0 : QueuesFit d) : QueuesFit (doCaptureRead d p x n) := by
  unfold doCaptureRead
  repeat' first
    | with_reducible assumption
    | with_reducible apply onesRead_fit
    | with_reducible apply p_fit
    | with_reducible apply windowBytes_fit
    | simp -implicitDefEqProofs only [QueuesFit.lit]
    | split
    | intro _
    | dsimp only
theorem doBar2Read_fit (d : Dev) (fn : Fn) (x n : Nat) (h0 : QueuesFit d) : QueuesFit (doBar2Read d fn x n) := by
  unfold doBar2Read
  repeat' first
    | with_reducible assumption
    | with_reducible apply doCaptureRead_fit
    | with_reducible apply onesRead_fit
    | with_reducible apply windowBytes_fit
    | simp -implicitDefEqProofs only [QueuesFit.lit]
    | split
    | intro _
    | dsimp only
theorem doBar2Write_fit (d : Dev) (fn : Fn) (x : Nat) (bs : List Byte) (h0 : QueuesFit d) : QueuesFit (doBar2Write d fn x bs) := by
  unfold doBar2Write
  repeat' first
    | with_reducible assumption
    | with_reducible apply accessError_fit
    | with_reducible apply windowPut_fit
    | simp -implicitDefEqProofs only [QueuesFit.lit]
    | split
    | intro _
    | dsimp only
theorem tck_fit (d : Dev) (tms tdi : Bool) (h0 : QueuesFit d) : QueuesFit (tck d tms tdi) := by
  unfold tck
  repeat' first
    | with_reducible assumption
    | with_reducible apply tick_fit
    | simp -implicitDefEqProofs only [QueuesFit.lit]
    | split
    | intro _
    | dsimp only
theorem trst_fit (d : Dev) (h0 : QueuesFit d) : QueuesFit (trst d) := by
  unfold trst
  repeat' first
    | with_reducible assumption
    | simp -implicitDefEqProofs only [QueuesFit.lit]
    | split
    | intro _
    | dsimp only
end Sys2Proof.Machine.Dev
end

