-- ==== Sys2Proof/Laws/KeepQueues7.lean ====
section
/-! SUPPORT. No queue comes to hold more than its depth by every command. -/

set_option linter.all false

namespace Sys2Proof.Machine

set_option Elab.async false

open Dev
theorem fin_fit {s t : State} {f : Dev → Dev} (h0 : QueuesFit s.dev) (h : ∀ e, QueuesFit e → QueuesFit (f e)) (hx : fin s f = .next t) : QueuesFit t.dev := by
  unfold fin at hx
  cases hx
  exact finish_fit _ (h _ h0)
theorem main_fit {s t : State} {f : Dev → Dev} (h0 : QueuesFit s.dev) (h : ∀ e, QueuesFit e → QueuesFit (f e)) (hx : main s f = .next t) : QueuesFit t.dev := by
  refine fin_fit h0 (fun e he => ?_) hx
  split
  · exact h e he
  · exact he
theorem config_fit {fn : Fn} {s t : State} {f : Dev → Dev} (h0 : QueuesFit s.dev) (h : ∀ e, QueuesFit e → QueuesFit (f e)) (hx : config fn s f = .next t) : QueuesFit t.dev := by
  refine fin_fit h0 (fun e he => ?_) hx
  split
  · exact h e he
  · split
    · exact emit_fit _ _ he
    · exact he
theorem execArm_fit (s : State) {next : State} (h0 : QueuesFit s.dev) (h : execArm s = .next next) : QueuesFit next.dev := by
  refine main_fit h0 (fun e he => ?_) h
  repeat' first
    | with_reducible assumption
    | with_reducible apply doArm_fit
    | simp -implicitDefEqProofs only [QueuesFit.lit]
    | split
    | intro _
    | dsimp only
theorem execDisarm_fit (s : State) {next : State} (h0 : QueuesFit s.dev) (h : execDisarm s = .next next) : QueuesFit next.dev := by
  refine main_fit h0 (fun e he => ?_) h
  repeat' first
    | with_reducible assumption
    | with_reducible apply doDisarm_fit
    | simp -implicitDefEqProofs only [QueuesFit.lit]
    | split
    | intro _
    | dsimp only
theorem execTriggerLevelTimeout_fit (s : State) {next : State} (h0 : QueuesFit s.dev) (h : execTriggerLevelTimeout s = .next next) : QueuesFit next.dev := by
  refine main_fit h0 (fun e he => ?_) h
  repeat' first
    | with_reducible assumption
    | with_reducible apply doTriggerLevelTimeout_fit
    | simp -implicitDefEqProofs only [QueuesFit.lit]
    | split
    | intro _
    | dsimp only
theorem execTrigPinEdge_fit (j : Fin 8) (rising : Bool) (s : State) {next : State} (h0 : QueuesFit s.dev) (h : execTrigPinEdge j rising s = .next next) : QueuesFit next.dev := by
  refine main_fit h0 (fun e he => ?_) h
  repeat' first
    | with_reducible assumption
    | with_reducible apply doTrigPinEdge_fit
    | simp -implicitDefEqProofs only [QueuesFit.lit]
    | split
    | intro _
    | dsimp only
theorem execPinPulseEnd_fit (j : Fin 8) (s : State) {next : State} (h0 : QueuesFit s.dev) (h : execPinPulseEnd j s = .next next) : QueuesFit next.dev := by
  refine main_fit h0 (fun e he => ?_) h
  repeat' first
    | with_reducible assumption
    | with_reducible apply doPinPulseEnd_fit
    | simp -implicitDefEqProofs only [QueuesFit.lit]
    | split
    | intro _
    | dsimp only
theorem execTraceStreamEnable_fit (t : Fin 17) (s : State) {next : State} (h0 : QueuesFit s.dev) (h : execTraceStreamEnable t s = .next next) : QueuesFit next.dev := by
  refine main_fit h0 (fun e he => ?_) h
  repeat' first
    | with_reducible assumption
    | with_reducible apply doTraceStreamEnable_fit
    | simp -implicitDefEqProofs only [QueuesFit.lit]
    | split
    | intro _
    | dsimp only
theorem execTraceCounterLimit_fit (t : Fin 17) (s : State) {next : State} (h0 : QueuesFit s.dev) (h : execTraceCounterLimit t s = .next next) : QueuesFit next.dev := by
  refine main_fit h0 (fun e he => ?_) h
  repeat' first
    | with_reducible assumption
    | with_reducible apply doTraceCounterLimit_fit
    | simp -implicitDefEqProofs only [QueuesFit.lit]
    | split
    | intro _
    | dsimp only
theorem execMark_fit (t : Fin 17) (v : BitVec 16) (s : State) {next : State} (h0 : QueuesFit s.dev) (h : execMark t v s = .next next) : QueuesFit next.dev := by
  refine main_fit h0 (fun e he => ?_) h
  repeat' first
    | with_reducible assumption
    | with_reducible apply doMark_fit
    | simp -implicitDefEqProofs only [QueuesFit.lit]
    | split
    | intro _
    | dsimp only
theorem execTraceBlockTimeout_fit (t : Fin 17) (s : State) {next : State} (h0 : QueuesFit s.dev) (h : execTraceBlockTimeout t s = .next next) : QueuesFit next.dev := by
  refine main_fit h0 (fun e he => ?_) h
  repeat' first
    | with_reducible assumption
    | with_reducible apply doTraceBlockTimeout_fit
    | simp -implicitDefEqProofs only [QueuesFit.lit]
    | split
    | intro _
    | dsimp only
theorem execTraceSyncTimer_fit (t : Fin 17) (s : State) {next : State} (h0 : QueuesFit s.dev) (h : execTraceSyncTimer t s = .next next) : QueuesFit next.dev := by
  refine main_fit h0 (fun e he => ?_) h
  repeat' first
    | with_reducible assumption
    | with_reducible apply doTraceSyncTimer_fit
    | simp -implicitDefEqProofs only [QueuesFit.lit]
    | split
    | intro _
    | dsimp only
theorem execTokenRevoke_fit (tag : Byte) (s : State) {next : State} (h0 : QueuesFit s.dev) (h : execTokenRevoke tag s = .next next) : QueuesFit next.dev := by
  refine main_fit h0 (fun e he => ?_) h
  repeat' first
    | with_reducible assumption
    | with_reducible apply doTokenRevoke_fit
    | simp -implicitDefEqProofs only [QueuesFit.lit]
    | split
    | intro _
    | dsimp only
theorem execTokenExpire_fit (s : State) {next : State} (h0 : QueuesFit s.dev) (h : execTokenExpire s = .next next) : QueuesFit next.dev := by
  refine main_fit h0 (fun e he => ?_) h
  repeat' first
    | with_reducible assumption
    | with_reducible apply doTokenExpire_fit
    | simp -implicitDefEqProofs only [QueuesFit.lit]
    | split
    | intro _
    | dsimp only
theorem execAuthDisable_fit (s : State) {next : State} (h0 : QueuesFit s.dev) (h : execAuthDisable s = .next next) : QueuesFit next.dev := by
  refine main_fit h0 (fun e he => ?_) h
  repeat' first
    | with_reducible assumption
    | with_reducible apply doAuthDisable_fit
    | simp -implicitDefEqProofs only [QueuesFit.lit]
    | split
    | intro _
    | dsimp only
theorem execTokenChallenge_fit (tag : Byte) (s : State) {next : State} (h0 : QueuesFit s.dev) (h : execTokenChallenge tag s = .next next) : QueuesFit next.dev := by
  refine main_fit h0 (fun e he => ?_) h
  repeat' first
    | with_reducible assumption
    | with_reducible apply doTokenChallenge_fit
    | simp -implicitDefEqProofs only [QueuesFit.lit]
    | split
    | intro _
    | dsimp only
theorem execLockstepRecord_fit (r : BitVec 128) (s : State) {next : State} (h0 : QueuesFit s.dev) (h : execLockstepRecord r s = .next next) : QueuesFit next.dev := by
  refine main_fit h0 (fun e he => ?_) h
  repeat' first
    | with_reducible assumption
    | with_reducible apply doLockstepRecord_fit
    | simp -implicitDefEqProofs only [QueuesFit.lit]
    | split
    | intro _
    | dsimp only
theorem execPartnerTimeout_fit (s : State) {next : State} (h0 : QueuesFit s.dev) (h : execPartnerTimeout s = .next next) : QueuesFit next.dev := by
  refine main_fit h0 (fun e he => ?_) h
  repeat' first
    | with_reducible assumption
    | with_reducible apply doPartnerTimeout_fit
    | simp -implicitDefEqProofs only [QueuesFit.lit]
    | split
    | intro _
    | dsimp only
theorem execExecuteStep_fit (p : Fin 16) (s : State) {next : State} (h0 : QueuesFit s.dev) (h : execExecuteStep p s = .next next) : QueuesFit next.dev := by
  refine main_fit h0 (fun e he => ?_) h
  repeat' first
    | with_reducible assumption
    | with_reducible apply doExecuteStep_fit
    | with_reducible apply p_fit
    | simp -implicitDefEqProofs only [QueuesFit.lit]
    | split
    | intro _
    | dsimp only
theorem execCascadeLimit_fit (p : Fin 16) (s : State) {next : State} (h0 : QueuesFit s.dev) (h : execCascadeLimit p s = .next next) : QueuesFit next.dev := by
  refine main_fit h0 (fun e he => ?_) h
  repeat' first
    | with_reducible assumption
    | with_reducible apply doDue_fit
    | with_reducible apply p_fit
    | simp -implicitDefEqProofs only [QueuesFit.lit]
    | split
    | intro _
    | dsimp only
theorem execRunLimitReached_fit (p : Fin 16) (s : State) {next : State} (h0 : QueuesFit s.dev) (h : execRunLimitReached p s = .next next) : QueuesFit next.dev := by
  refine main_fit h0 (fun e he => ?_) h
  repeat' first
    | with_reducible assumption
    | with_reducible apply doDue_fit
    | with_reducible apply p_fit
    | simp -implicitDefEqProofs only [QueuesFit.lit]
    | split
    | intro _
    | dsimp only
theorem execStepCyclesCountReached_fit (p : Fin 16) (s : State) {next : State} (h0 : QueuesFit s.dev) (h : execStepCyclesCountReached p s = .next next) : QueuesFit next.dev := by
  refine main_fit h0 (fun e he => ?_) h
  repeat' first
    | with_reducible assumption
    | with_reducible apply doDue_fit
    | with_reducible apply p_fit
    | simp -implicitDefEqProofs only [QueuesFit.lit]
    | split
    | intro _
    | dsimp only
theorem execStepStepsCountReached_fit (p : Fin 16) (s : State) {next : State} (h0 : QueuesFit s.dev) (h : execStepStepsCountReached p s = .next next) : QueuesFit next.dev := by
  refine main_fit h0 (fun e he => ?_) h
  repeat' first
    | with_reducible assumption
    | with_reducible apply doStepStepsCountReached_fit
    | with_reducible apply p_fit
    | simp -implicitDefEqProofs only [QueuesFit.lit]
    | split
    | intro _
    | dsimp only
theorem execStallRelease_fit (p : Fin 16) (s : State) {next : State} (h0 : QueuesFit s.dev) (h : execStallRelease p s = .next next) : QueuesFit next.dev := by
  refine main_fit h0 (fun e he => ?_) h
  repeat' first
    | with_reducible assumption
    | with_reducible apply doStallRelease_fit
    | with_reducible apply p_fit
    | simp -implicitDefEqProofs only [QueuesFit.lit]
    | split
    | intro _
    | dsimp only
theorem execStart_fit (p : Fin 16) (s : State) {next : State} (h0 : QueuesFit s.dev) (h : execStart p s = .next next) : QueuesFit next.dev := by
  refine main_fit h0 (fun e he => ?_) h
  repeat' first
    | with_reducible assumption
    | with_reducible apply atPtn_fit
    | with_reducible apply p_fit
    | with_reducible apply seqCommand_fit
    | simp -implicitDefEqProofs only [QueuesFit.lit]
    | split
    | intro _
    | dsimp only
theorem execResume_fit (p : Fin 16) (s : State) {next : State} (h0 : QueuesFit s.dev) (h : execResume p s = .next next) : QueuesFit next.dev := by
  refine main_fit h0 (fun e he => ?_) h
  repeat' first
    | with_reducible assumption
    | with_reducible apply atPtn_fit
    | with_reducible apply p_fit
    | with_reducible apply seqCommand_fit
    | simp -implicitDefEqProofs only [QueuesFit.lit]
    | split
    | intro _
    | dsimp only
theorem execFreeze_fit (p : Fin 16) (s : State) {next : State} (h0 : QueuesFit s.dev) (h : execFreeze p s = .next next) : QueuesFit next.dev := by
  refine main_fit h0 (fun e he => ?_) h
  repeat' first
    | with_reducible assumption
    | with_reducible apply atPtn_fit
    | with_reducible apply p_fit
    | with_reducible apply seqCommand_fit
    | simp -implicitDefEqProofs only [QueuesFit.lit]
    | split
    | intro _
    | dsimp only
theorem execHardFreeze_fit (p : Fin 16) (s : State) {next : State} (h0 : QueuesFit s.dev) (h : execHardFreeze p s = .next next) : QueuesFit next.dev := by
  refine main_fit h0 (fun e he => ?_) h
  repeat' first
    | with_reducible assumption
    | with_reducible apply atPtn_fit
    | with_reducible apply p_fit
    | with_reducible apply seqCommand_fit
    | simp -implicitDefEqProofs only [QueuesFit.lit]
    | split
    | intro _
    | dsimp only
theorem execStepCycles_fit (p : Fin 16) (s : State) {next : State} (h0 : QueuesFit s.dev) (h : execStepCycles p s = .next next) : QueuesFit next.dev := by
  refine main_fit h0 (fun e he => ?_) h
  repeat' first
    | with_reducible assumption
    | with_reducible apply atPtn_fit
    | with_reducible apply p_fit
    | with_reducible apply seqCommand_fit
    | simp -implicitDefEqProofs only [QueuesFit.lit]
    | split
    | intro _
    | dsimp only
theorem execStepSteps_fit (p : Fin 16) (s : State) {next : State} (h0 : QueuesFit s.dev) (h : execStepSteps p s = .next next) : QueuesFit next.dev := by
  refine main_fit h0 (fun e he => ?_) h
  repeat' first
    | with_reducible assumption
    | with_reducible apply atPtn_fit
    | with_reducible apply p_fit
    | with_reducible apply seqCommand_fit
    | simp -implicitDefEqProofs only [QueuesFit.lit]
    | split
    | intro _
    | dsimp only
theorem execStop_fit (p : Fin 16) (s : State) {next : State} (h0 : QueuesFit s.dev) (h : execStop p s = .next next) : QueuesFit next.dev := by
  refine main_fit h0 (fun e he => ?_) h
  repeat' first
    | with_reducible assumption
    | with_reducible apply atPtn_fit
    | with_reducible apply p_fit
    | with_reducible apply seqCommand_fit
    | simp -implicitDefEqProofs only [QueuesFit.lit]
    | split
    | intro _
    | dsimp only
theorem execSeqCmdInvalid_fit (p : Fin 16) (code : Fin 16) (s : State) {next : State} (h0 : QueuesFit s.dev) (h : execSeqCmdInvalid p code s = .next next) : QueuesFit next.dev := by
  refine main_fit h0 (fun e he => ?_) h
  repeat' first
    | with_reducible assumption
    | with_reducible apply atPtn_fit
    | with_reducible apply p_fit
    | with_reducible apply seqCommand_fit
    | simp -implicitDefEqProofs only [QueuesFit.lit]
    | split
    | intro _
    | dsimp only
theorem execFreezeTimeout_fit (p : Fin 16) (s : State) {next : State} (h0 : QueuesFit s.dev) (h : execFreezeTimeout p s = .next next) : QueuesFit next.dev := by
  refine main_fit h0 (fun e he => ?_) h
  repeat' first
    | with_reducible assumption
    | with_reducible apply doFreezeTimeout_fit
    | with_reducible apply p_fit
    | simp -implicitDefEqProofs only [QueuesFit.lit]
    | split
    | intro _
    | dsimp only
theorem execSeqTableWrite_fit (p : Fin 16) (off : Nat) (v : W32) (s : State) {next : State} (h0 : QueuesFit s.dev) (h : execSeqTableWrite p off v s = .next next) : QueuesFit next.dev := by
  refine main_fit h0 (fun e he => ?_) h
  repeat' first
    | with_reducible assumption
    | with_reducible apply atPtn_fit
    | with_reducible apply doSeqTableWrite_fit
    | with_reducible apply p_fit
    | simp -implicitDefEqProofs only [QueuesFit.lit]
    | split
    | intro _
    | dsimp only
theorem execLinkedCommand_fit (g : Fin 16) (p : Fin 16) (cmd : Fin 16) (count : W32) (dist : Nat) (intact : Bool) (s : State) {next : State} (h0 : QueuesFit s.dev) (h : execLinkedCommand g p cmd count dist intact s = .next next) : QueuesFit next.dev := by
  refine main_fit h0 (fun e he => ?_) h
  repeat' first
    | with_reducible assumption
    | with_reducible apply doLinkedCommand_fit
    | with_reducible apply p_fit
    | simp -implicitDefEqProofs only [QueuesFit.lit]
    | split
    | intro _
    | dsimp only
theorem execLinkedCommandEffect_fit (p : Fin 16) (s : State) {next : State} (h0 : QueuesFit s.dev) (h : execLinkedCommandEffect p s = .next next) : QueuesFit next.dev := by
  refine main_fit h0 (fun e he => ?_) h
  repeat' first
    | with_reducible assumption
    | with_reducible apply doLinkedCommandEffect_fit
    | with_reducible apply p_fit
    | simp -implicitDefEqProofs only [QueuesFit.lit]
    | split
    | intro _
    | dsimp only
theorem execHold_fit (g : Fin 16) (p : Fin 16) (e : Nat) (intact : Bool) (s : State) {next : State} (h0 : QueuesFit s.dev) (h : execHold g p e intact s = .next next) : QueuesFit next.dev := by
  refine main_fit h0 (fun e he => ?_) h
  repeat' first
    | with_reducible assumption
    | with_reducible apply doHold_fit
    | with_reducible apply p_fit
    | simp -implicitDefEqProofs only [QueuesFit.lit]
    | split
    | intro _
    | dsimp only
theorem execReady_fit (g : Fin 16) (p : Fin 16) (e : Nat) (intact : Bool) (s : State) {next : State} (h0 : QueuesFit s.dev) (h : execReady g p e intact s = .next next) : QueuesFit next.dev := by
  refine main_fit h0 (fun e he => ?_) h
  repeat' first
    | with_reducible assumption
    | with_reducible apply doReady_fit
    | with_reducible apply p_fit
    | simp -implicitDefEqProofs only [QueuesFit.lit]
    | split
    | intro _
    | dsimp only
theorem execGo_fit (g : Fin 16) (p : Fin 16) (e : Nat) (intact : Bool) (s : State) {next : State} (h0 : QueuesFit s.dev) (h : execGo g p e intact s = .next next) : QueuesFit next.dev := by
  refine main_fit h0 (fun e he => ?_) h
  repeat' first
    | with_reducible assumption
    | with_reducible apply doGo_fit
    | with_reducible apply p_fit
    | simp -implicitDefEqProofs only [QueuesFit.lit]
    | split
    | intro _
    | dsimp only
theorem execSystemHoldRelease_fit (p : Fin 16) (s : State) {next : State} (h0 : QueuesFit s.dev) (h : execSystemHoldRelease p s = .next next) : QueuesFit next.dev := by
  refine main_fit h0 (fun e he => ?_) h
  repeat' first
    | with_reducible assumption
    | with_reducible apply doSystemHoldRelease_fit
    | with_reducible apply p_fit
    | simp -implicitDefEqProofs only [QueuesFit.lit]
    | split
    | intro _
    | dsimp only
theorem execSteps_fit (g : Fin 16) (p : Fin 16) (cycle : BitVec 48) (count : Nat) (intact : Bool) (s : State) {next : State} (h0 : QueuesFit s.dev) (h : execSteps g p cycle count intact s = .next next) : QueuesFit next.dev := by
  refine main_fit h0 (fun e he => ?_) h
  repeat' first
    | with_reducible assumption
    | with_reducible apply doSteps_fit
    | with_reducible apply p_fit
    | simp -implicitDefEqProofs only [QueuesFit.lit]
    | split
    | intro _
    | dsimp only
theorem execCorrectedWordWriteBack_fit (n : Fin 64) (walu : Bool) (t : Fin 32) (unit : Fin 64) (a : Fin 256) (s : State) {next : State} (h0 : QueuesFit s.dev) (h : execCorrectedWordWriteBack n walu t unit a s = .next next) : QueuesFit next.dev := by
  refine main_fit h0 (fun e he => ?_) h
  repeat' first
    | with_reducible assumption
    | with_reducible apply doWriteBack_fit
    | simp -implicitDefEqProofs only [QueuesFit.lit]
    | split
    | intro _
    | dsimp only
theorem execDmemRowWriteBack_fit (n : Fin 64) (m : Fin 8) (row : Fin 8192) (s : State) {next : State} (h0 : QueuesFit s.dev) (h : execDmemRowWriteBack n m row s = .next next) : QueuesFit next.dev := by
  refine main_fit h0 (fun e he => ?_) h
  repeat' first
    | with_reducible assumption
    | with_reducible apply doRowWriteBack_fit
    | simp -implicitDefEqProofs only [QueuesFit.lit]
    | split
    | intro _
    | dsimp only
theorem execBpiClrCounts_fit (n : Fin 64) (s : State) {next : State} (h0 : QueuesFit s.dev) (h : execBpiClrCounts n s = .next next) : QueuesFit next.dev := by
  refine main_fit h0 (fun e he => ?_) h
  repeat' first
    | with_reducible assumption
    | with_reducible apply atCluster_fit
    | with_reducible apply doBpiClr_fit
    | simp -implicitDefEqProofs only [QueuesFit.lit]
    | split
    | intro _
    | dsimp only
theorem execWliClrCounts_fit (n : Fin 64) (s : State) {next : State} (h0 : QueuesFit s.dev) (h : execWliClrCounts n s = .next next) : QueuesFit next.dev := by
  refine main_fit h0 (fun e he => ?_) h
  repeat' first
    | with_reducible assumption
    | with_reducible apply atCluster_fit
    | with_reducible apply doWliClr_fit
    | simp -implicitDefEqProofs only [QueuesFit.lit]
    | split
    | intro _
    | dsimp only
theorem execFabClrCount_fit (n : Fin 64) (s : State) {next : State} (h0 : QueuesFit s.dev) (h : execFabClrCount n s = .next next) : QueuesFit next.dev := by
  refine main_fit h0 (fun e he => ?_) h
  repeat' first
    | with_reducible assumption
    | with_reducible apply atCluster_fit
    | with_reducible apply doFabClr_fit
    | simp -implicitDefEqProofs only [QueuesFit.lit]
    | split
    | intro _
    | dsimp only
theorem execDmemClrCounts_fit (n : Fin 64) (s : State) {next : State} (h0 : QueuesFit s.dev) (h : execDmemClrCounts n s = .next next) : QueuesFit next.dev := by
  refine main_fit h0 (fun e he => ?_) h
  repeat' first
    | with_reducible assumption
    | with_reducible apply atCluster_fit
    | with_reducible apply doDmemClr_fit
    | simp -implicitDefEqProofs only [QueuesFit.lit]
    | split
    | intro _
    | dsimp only
theorem execDmemCfgWrite_fit (n : Fin 64) (off : Nat) (v : W32) (s : State) {next : State} (h0 : QueuesFit s.dev) (h : execDmemCfgWrite n off v s = .next next) : QueuesFit next.dev := by
  refine main_fit h0 (fun e he => ?_) h
  repeat' first
    | with_reducible assumption
    | with_reducible apply atCluster_fit
    | with_reducible apply doDmemCfg_fit
    | simp -implicitDefEqProofs only [QueuesFit.lit]
    | split
    | intro _
    | dsimp only
theorem execFmpConfigWrite_fit (n : Fin 64) (off : Nat) (v : W32) (s : State) {next : State} (h0 : QueuesFit s.dev) (h : execFmpConfigWrite n off v s = .next next) : QueuesFit next.dev := by
  refine main_fit h0 (fun e he => ?_) h
  repeat' first
    | with_reducible assumption
    | with_reducible apply atCluster_fit
    | with_reducible apply doFmpCfg_fit
    | simp -implicitDefEqProofs only [QueuesFit.lit]
    | split
    | intro _
    | dsimp only
theorem execTxpConfigWrite_fit (n : Fin 64) (off : Nat) (v : W32) (s : State) {next : State} (h0 : QueuesFit s.dev) (h : execTxpConfigWrite n off v s = .next next) : QueuesFit next.dev := by
  refine main_fit h0 (fun e he => ?_) h
  repeat' first
    | with_reducible assumption
    | with_reducible apply atCluster_fit
    | with_reducible apply doTxpCfg_fit
    | simp -implicitDefEqProofs only [QueuesFit.lit]
    | split
    | intro _
    | dsimp only
theorem execFarReadArrival_fit (n : Fin 64) (f : Fin 4) (s : State) {next : State} (h0 : QueuesFit s.dev) (h : execFarReadArrival n f s = .next next) : QueuesFit next.dev := by
  refine main_fit h0 (fun e he => ?_) h
  repeat' first
    | with_reducible assumption
    | with_reducible apply doFarRead_fit
    | simp -implicitDefEqProofs only [QueuesFit.lit]
    | split
    | intro _
    | dsimp only
theorem execFarWriteAck_fit (n : Fin 64) (f : Fin 4) (s : State) {next : State} (h0 : QueuesFit s.dev) (h : execFarWriteAck n f s = .next next) : QueuesFit next.dev := by
  refine main_fit h0 (fun e he => ?_) h
  repeat' first
    | with_reducible assumption
    | with_reducible apply doFarAck_fit
    | simp -implicitDefEqProofs only [QueuesFit.lit]
    | split
    | intro _
    | dsimp only
theorem execTxpCopyFill_fit (n : Fin 64) (x : Fin 8) (s : State) {next : State} (h0 : QueuesFit s.dev) (h : execTxpCopyFill n x s = .next next) : QueuesFit next.dev := by
  refine main_fit h0 (fun e he => ?_) h
  repeat' first
    | with_reducible assumption
    | with_reducible apply doCopyFill_fit
    | simp -implicitDefEqProofs only [QueuesFit.lit]
    | split
    | intro _
    | dsimp only
theorem execTxpCreditRenew_fit (n : Fin 64) (x : Fin 8) (s : State) {next : State} (h0 : QueuesFit s.dev) (h : execTxpCreditRenew n x s = .next next) : QueuesFit next.dev := by
  refine main_fit h0 (fun e he => ?_) h
  repeat' first
    | with_reducible assumption
    | with_reducible apply doCreditRenew_fit
    | simp -implicitDefEqProofs only [QueuesFit.lit]
    | split
    | intro _
    | dsimp only
theorem execWindowRead_fit (fn : Fn) (n : Fin 64) (w : Fin 16) (off : Nat) (s : State) {next : State} (h0 : QueuesFit s.dev) (h : execWindowRead fn n w off s = .next next) : QueuesFit next.dev := by
  refine main_fit h0 (fun e he => ?_) h
  repeat' first
    | with_reducible assumption
    | with_reducible apply doWindowRead_fit
    | simp -implicitDefEqProofs only [QueuesFit.lit]
    | split
    | intro _
    | dsimp only
theorem execWindowWrite_fit (fn : Fn) (n : Fin 64) (w : Fin 16) (off : Nat) (v : W32) (s : State) {next : State} (h0 : QueuesFit s.dev) (h : execWindowWrite fn n w off v s = .next next) : QueuesFit next.dev := by
  refine main_fit h0 (fun e he => ?_) h
  repeat' first
    | with_reducible assumption
    | with_reducible apply doWindowWrite_fit
    | simp -implicitDefEqProofs only [QueuesFit.lit]
    | split
    | intro _
    | dsimp only
theorem execWindowReadTimeout_fit (fn : Fn) (n : Fin 64) (w : Fin 16) (off : Nat) (s : State) {next : State} (h0 : QueuesFit s.dev) (h : execWindowReadTimeout fn n w off s = .next next) : QueuesFit next.dev := by
  refine main_fit h0 (fun e he => ?_) h
  repeat' first
    | with_reducible assumption
    | with_reducible apply doWindowTimeout_fit
    | simp -implicitDefEqProofs only [QueuesFit.lit]
    | split
    | intro _
    | dsimp only
theorem execFreezeSettled_fit (p : Fin 16) (s : State) {next : State} (h0 : QueuesFit s.dev) (h : execFreezeSettled p s = .next next) : QueuesFit next.dev := by
  refine main_fit h0 (fun e he => ?_) h
  repeat' first
    | with_reducible assumption
    | with_reducible apply doFreezeSettled_fit
    | with_reducible apply p_fit
    | simp -implicitDefEqProofs only [QueuesFit.lit]
    | split
    | intro _
    | dsimp only
theorem execSnapSave_fit (p : Fin 16) (s : State) {next : State} (h0 : QueuesFit s.dev) (h : execSnapSave p s = .next next) : QueuesFit next.dev := by
  refine main_fit h0 (fun e he => ?_) h
  repeat' first
    | with_reducible assumption
    | with_reducible apply atPtn_fit
    | with_reducible apply doSnapSave_fit
    | with_reducible apply p_fit
    | simp -implicitDefEqProofs only [QueuesFit.lit]
    | split
    | intro _
    | dsimp only
theorem execSnapSaveComplete_fit (p : Fin 16) (s : State) {next : State} (h0 : QueuesFit s.dev) (h : execSnapSaveComplete p s = .next next) : QueuesFit next.dev := by
  refine main_fit h0 (fun e he => ?_) h
  repeat' first
    | with_reducible assumption
    | with_reducible apply doSnapSaveComplete_fit
    | with_reducible apply p_fit
    | simp -implicitDefEqProofs only [QueuesFit.lit]
    | split
    | intro _
    | dsimp only
theorem execSnapRestore_fit (p : Fin 16) (s : State) {next : State} (h0 : QueuesFit s.dev) (h : execSnapRestore p s = .next next) : QueuesFit next.dev := by
  refine main_fit h0 (fun e he => ?_) h
  repeat' first
    | with_reducible assumption
    | with_reducible apply atPtn_fit
    | with_reducible apply doSnapRestore_fit
    | with_reducible apply p_fit
    | simp -implicitDefEqProofs only [QueuesFit.lit]
    | split
    | intro _
    | dsimp only
theorem execSnapCheckComplete_fit (p : Fin 16) (s : State) {next : State} (h0 : QueuesFit s.dev) (h : execSnapCheckComplete p s = .next next) : QueuesFit next.dev := by
  refine main_fit h0 (fun e he => ?_) h
  repeat' first
    | with_reducible assumption
    | with_reducible apply doSnapCheckComplete_fit
    | with_reducible apply p_fit
    | simp -implicitDefEqProofs only [QueuesFit.lit]
    | split
    | intro _
    | dsimp only
theorem execSnapRestoreComplete_fit (p : Fin 16) (s : State) {next : State} (h0 : QueuesFit s.dev) (h : execSnapRestoreComplete p s = .next next) : QueuesFit next.dev := by
  refine main_fit h0 (fun e he => ?_) h
  repeat' first
    | with_reducible assumption
    | with_reducible apply doSnapRestoreComplete_fit
    | with_reducible apply p_fit
    | simp -implicitDefEqProofs only [QueuesFit.lit]
    | split
    | intro _
    | dsimp only
theorem execSnapAbort_fit (p : Fin 16) (s : State) {next : State} (h0 : QueuesFit s.dev) (h : execSnapAbort p s = .next next) : QueuesFit next.dev := by
  refine main_fit h0 (fun e he => ?_) h
  repeat' first
    | with_reducible assumption
    | with_reducible apply atPtn_fit
    | with_reducible apply doSnapAbort_fit
    | with_reducible apply p_fit
    | simp -implicitDefEqProofs only [QueuesFit.lit]
    | split
    | intro _
    | dsimp only
theorem execDoorbellAppend_fit (fn : Fn) (slot : Fin 8192) (fin fence : Bool) (w : W64) (s : State) {next : State} (h0 : QueuesFit s.dev) (h : execDoorbellAppend fn slot fin fence w s = .next next) : QueuesFit next.dev := by
  refine main_fit h0 (fun e he => ?_) h
  repeat' first
    | with_reducible assumption
    | with_reducible apply doDoorbell_fit
    | simp -implicitDefEqProofs only [QueuesFit.lit]
    | split
    | intro _
    | dsimp only
theorem execDoorbellAppendMulti_fit (fn : Fn) (slot : Fin 8192) (ws : Words) (s : State) {next : State} (h0 : QueuesFit s.dev) (h : execDoorbellAppendMulti fn slot ws s = .next next) : QueuesFit next.dev := by
  refine main_fit h0 (fun e he => ?_) h
  repeat' first
    | with_reducible assumption
    | with_reducible apply doDoorbellMulti_fit
    | simp -implicitDefEqProofs only [QueuesFit.lit]
    | split
    | intro _
    | dsimp only
theorem execPop_fit (fn : Fn) (slot : Fin 8192) (s : State) {next : State} (h0 : QueuesFit s.dev) (h : execPop fn slot s = .next next) : QueuesFit next.dev := by
  refine main_fit h0 (fun e he => ?_) h
  repeat' first
    | with_reducible assumption
    | with_reducible apply doPop_fit
    | simp -implicitDefEqProofs only [QueuesFit.lit]
    | split
    | intro _
    | dsimp only
theorem execPopWaitExpire_fit (fn : Fn) (slot : Fin 8192) (s : State) {next : State} (h0 : QueuesFit s.dev) (h : execPopWaitExpire fn slot s = .next next) : QueuesFit next.dev := by
  refine main_fit h0 (fun e he => ?_) h
  repeat' first
    | with_reducible assumption
    | with_reducible apply doPopWaitExpire_fit
    | simp -implicitDefEqProofs only [QueuesFit.lit]
    | split
    | intro _
    | dsimp only
theorem execBar4AccessError_fit (fn : Fn) (off : Nat) (write : Bool) (s : State) {next : State} (h0 : QueuesFit s.dev) (h : execBar4AccessError fn off write s = .next next) : QueuesFit next.dev := by
  refine main_fit h0 (fun e he => ?_) h
  repeat' first
    | with_reducible assumption
    | with_reducible apply doBar4Error_fit
    | simp -implicitDefEqProofs only [QueuesFit.lit]
    | split
    | intro _
    | dsimp only
theorem execQwrHoldExpire_fit (q : Fin 8192) (s : State) {next : State} (h0 : QueuesFit s.dev) (h : execQwrHoldExpire q s = .next next) : QueuesFit next.dev := by
  refine main_fit h0 (fun e he => ?_) h
  repeat' first
    | with_reducible assumption
    | with_reducible apply doQwrExpire_fit
    | simp -implicitDefEqProofs only [QueuesFit.lit]
    | split
    | intro _
    | dsimp only
theorem execQrdHoldExpire_fit (q : Fin 8192) (s : State) {next : State} (h0 : QueuesFit s.dev) (h : execQrdHoldExpire q s = .next next) : QueuesFit next.dev := by
  refine main_fit h0 (fun e he => ?_) h
  repeat' first
    | with_reducible assumption
    | with_reducible apply doQrdExpire_fit
    | simp -implicitDefEqProofs only [QueuesFit.lit]
    | split
    | intro _
    | dsimp only
theorem execFlush_fit (fn : Fn) (q : Fin 8192) (s : State) {next : State} (h0 : QueuesFit s.dev) (h : execFlush fn q s = .next next) : QueuesFit next.dev := by
  refine main_fit h0 (fun e he => ?_) h
  repeat' first
    | with_reducible assumption
    | with_reducible apply atQueue_fit
    | with_reducible apply queueCmd_fit
    | simp -implicitDefEqProofs only [QueuesFit.lit]
    | split
    | intro _
    | dsimp only
theorem execDropHead_fit (fn : Fn) (q : Fin 8192) (s : State) {next : State} (h0 : QueuesFit s.dev) (h : execDropHead fn q s = .next next) : QueuesFit next.dev := by
  refine main_fit h0 (fun e he => ?_) h
  repeat' first
    | with_reducible assumption
    | with_reducible apply atQueue_fit
    | with_reducible apply queueCmd_fit
    | simp -implicitDefEqProofs only [QueuesFit.lit]
    | split
    | intro _
    | dsimp only
theorem execClrHwm_fit (fn : Fn) (q : Fin 8192) (s : State) {next : State} (h0 : QueuesFit s.dev) (h : execClrHwm fn q s = .next next) : QueuesFit next.dev := by
  refine main_fit h0 (fun e he => ?_) h
  repeat' first
    | with_reducible assumption
    | with_reducible apply atQueue_fit
    | with_reducible apply queueCmd_fit
    | simp -implicitDefEqProofs only [QueuesFit.lit]
    | split
    | intro _
    | dsimp only
theorem execQueueEnable_fit (fn : Fn) (q : Fin 8192) (s : State) {next : State} (h0 : QueuesFit s.dev) (h : execQueueEnable fn q s = .next next) : QueuesFit next.dev := by
  refine main_fit h0 (fun e he => ?_) h
  repeat' first
    | with_reducible assumption
    | with_reducible apply atQueue_fit
    | with_reducible apply setQueueEn_fit
    | simp -implicitDefEqProofs only [QueuesFit.lit]
    | split
    | intro _
    | dsimp only
theorem execQueueDisable_fit (fn : Fn) (q : Fin 8192) (s : State) {next : State} (h0 : QueuesFit s.dev) (h : execQueueDisable fn q s = .next next) : QueuesFit next.dev := by
  refine main_fit h0 (fun e he => ?_) h
  repeat' first
    | with_reducible assumption
    | with_reducible apply atQueue_fit
    | with_reducible apply setQueueEn_fit
    | simp -implicitDefEqProofs only [QueuesFit.lit]
    | split
    | intro _
    | dsimp only
theorem execSubmit_fit (fn : Fn) (s : State) {next : State} (h0 : QueuesFit s.dev) (h : execSubmit fn s = .next next) : QueuesFit next.dev := by
  refine main_fit h0 (fun e he => ?_) h
  repeat' first
    | with_reducible assumption
    | with_reducible apply doSubmit_fit
    | simp -implicitDefEqProofs only [QueuesFit.lit]
    | split
    | intro _
    | dsimp only
theorem execSubmitHoldExpire_fit (list : Fin 17) (s : State) {next : State} (h0 : QueuesFit s.dev) (h : execSubmitHoldExpire list s = .next next) : QueuesFit next.dev := by
  refine main_fit h0 (fun e he => ?_) h
  repeat' first
    | with_reducible assumption
    | with_reducible apply doSubmitExpire_fit
    | simp -implicitDefEqProofs only [QueuesFit.lit]
    | split
    | intro _
    | dsimp only
theorem execCourierDispatch_fit (c : Fin 32) (data : List Byte) (s : State) {next : State} (h0 : QueuesFit s.dev) (h : execCourierDispatch c data s = .next next) : QueuesFit next.dev := by
  refine main_fit h0 (fun e he => ?_) h
  repeat' first
    | with_reducible assumption
    | with_reducible apply doDispatch_fit
    | simp -implicitDefEqProofs only [QueuesFit.lit]
    | split
    | intro _
    | dsimp only
theorem execWorkItemComplete_fit (c : Fin 32) (s : State) {next : State} (h0 : QueuesFit s.dev) (h : execWorkItemComplete c s = .next next) : QueuesFit next.dev := by
  refine main_fit h0 (fun e he => ?_) h
  repeat' first
    | with_reducible assumption
    | with_reducible apply doItemComplete_fit
    | simp -implicitDefEqProofs only [QueuesFit.lit]
    | split
    | intro _
    | dsimp only
theorem execCourierWaitLimit_fit (c : Fin 32) (s : State) {next : State} (h0 : QueuesFit s.dev) (h : execCourierWaitLimit c s = .next next) : QueuesFit next.dev := by
  refine main_fit h0 (fun e he => ?_) h
  repeat' first
    | with_reducible assumption
    | with_reducible apply doWaitLimit_fit
    | simp -implicitDefEqProofs only [QueuesFit.lit]
    | split
    | intro _
    | dsimp only
theorem execDspClr_fit (s : State) {next : State} (h0 : QueuesFit s.dev) (h : execDspClr s = .next next) : QueuesFit next.dev := by
  refine main_fit h0 (fun e he => ?_) h
  repeat' first
    | with_reducible assumption
    | with_reducible apply doDspClr_fit
    | simp -implicitDefEqProofs only [QueuesFit.lit]
    | split
    | intro _
    | dsimp only
theorem execLogClear_fit (s : State) {next : State} (h0 : QueuesFit s.dev) (h : execLogClear s = .next next) : QueuesFit next.dev := by
  refine main_fit h0 (fun e he => ?_) h
  repeat' first
    | with_reducible assumption
    | with_reducible apply doLogClear_fit
    | simp -implicitDefEqProofs only [QueuesFit.lit]
    | split
    | intro _
    | dsimp only
theorem execLastGaspClear_fit (s : State) {next : State} (h0 : QueuesFit s.dev) (h : execLastGaspClear s = .next next) : QueuesFit next.dev := by
  refine main_fit h0 (fun e he => ?_) h
  repeat' first
    | with_reducible assumption
    | with_reducible apply doLastGaspClear_fit
    | simp -implicitDefEqProofs only [QueuesFit.lit]
    | split
    | intro _
    | dsimp only
theorem execClearAll_fit (s : State) {next : State} (h0 : QueuesFit s.dev) (h : execClearAll s = .next next) : QueuesFit next.dev := by
  refine main_fit h0 (fun e he => ?_) h
  repeat' first
    | with_reducible assumption
    | with_reducible apply doClearAll_fit
    | simp -implicitDefEqProofs only [QueuesFit.lit]
    | split
    | intro _
    | dsimp only
theorem execCounterSaturate_fit (base : Nat) (i : Fin 64) (s : State) {next : State} (h0 : QueuesFit s.dev) (h : execCounterSaturate base i s = .next next) : QueuesFit next.dev := by
  refine main_fit h0 (fun e he => ?_) h
  repeat' first
    | with_reducible assumption
    | with_reducible apply doCounterSaturate_fit
    | simp -implicitDefEqProofs only [QueuesFit.lit]
    | split
    | intro _
    | dsimp only
theorem execRoll_fit (s : State) {next : State} (h0 : QueuesFit s.dev) (h : execRoll s = .next next) : QueuesFit next.dev := by
  refine main_fit h0 (fun e he => ?_) h
  repeat' first
    | with_reducible assumption
    | with_reducible apply doRoll_fit
    | simp -implicitDefEqProofs only [QueuesFit.lit]
    | split
    | intro _
    | dsimp only
theorem execKeyRollStart_fit (s : State) {next : State} (h0 : QueuesFit s.dev) (h : execKeyRollStart s = .next next) : QueuesFit next.dev := by
  refine main_fit h0 (fun e he => ?_) h
  repeat' first
    | with_reducible assumption
    | with_reducible apply doKeyRollStart_fit
    | simp -implicitDefEqProofs only [QueuesFit.lit]
    | split
    | intro _
    | dsimp only
theorem execKeyRollSector_fit (s : State) {next : State} (h0 : QueuesFit s.dev) (h : execKeyRollSector s = .next next) : QueuesFit next.dev := by
  refine main_fit h0 (fun e he => ?_) h
  repeat' first
    | with_reducible assumption
    | with_reducible apply doKeyRollSector_fit
    | simp -implicitDefEqProofs only [QueuesFit.lit]
    | split
    | intro _
    | dsimp only
theorem execImeClrCounts_fit (s : State) {next : State} (h0 : QueuesFit s.dev) (h : execImeClrCounts s = .next next) : QueuesFit next.dev := by
  refine main_fit h0 (fun e he => ?_) h
  repeat' first
    | with_reducible assumption
    | with_reducible apply doImeClrCounts_fit
    | simp -implicitDefEqProofs only [QueuesFit.lit]
    | split
    | intro _
    | dsimp only
theorem execSysFreeze_fit (s : State) {next : State} (h0 : QueuesFit s.dev) (h : execSysFreeze s = .next next) : QueuesFit next.dev := by
  refine main_fit h0 (fun e he => ?_) h
  repeat' first
    | with_reducible assumption
    | with_reducible apply doSysFreeze_fit
    | simp -implicitDefEqProofs only [QueuesFit.lit]
    | split
    | intro _
    | dsimp only
theorem execStrobe_fit (s : State) {next : State} (h0 : QueuesFit s.dev) (h : execStrobe s = .next next) : QueuesFit next.dev := by
  refine main_fit h0 (fun e he => ?_) h
  repeat' first
    | with_reducible assumption
    | with_reducible apply doStrobe_fit
    | simp -implicitDefEqProofs only [QueuesFit.lit]
    | split
    | intro _
    | dsimp only
theorem execCaptureArm_fit (c : Fin 17) (s : State) {next : State} (h0 : QueuesFit s.dev) (h : execCaptureArm c s = .next next) : QueuesFit next.dev := by
  refine main_fit h0 (fun e he => ?_) h
  repeat' first
    | with_reducible assumption
    | with_reducible apply doCaptureArm_fit
    | simp -implicitDefEqProofs only [QueuesFit.lit]
    | split
    | intro _
    | dsimp only
theorem execCaptureDisarm_fit (c : Fin 17) (s : State) {next : State} (h0 : QueuesFit s.dev) (h : execCaptureDisarm c s = .next next) : QueuesFit next.dev := by
  refine main_fit h0 (fun e he => ?_) h
  repeat' first
    | with_reducible assumption
    | with_reducible apply doCaptureDisarm_fit
    | simp -implicitDefEqProofs only [QueuesFit.lit]
    | split
    | intro _
    | dsimp only
theorem execCaptureBlockWrite_fit (ch : Fin 64) (addr : Nat) (s : State) {next : State} (h0 : QueuesFit s.dev) (h : execCaptureBlockWrite ch addr s = .next next) : QueuesFit next.dev := by
  refine main_fit h0 (fun e he => ?_) h
  repeat' first
    | with_reducible assumption
    | with_reducible apply doCaptureBlockWrite_fit
    | simp -implicitDefEqProofs only [QueuesFit.lit]
    | split
    | intro _
    | dsimp only
theorem execPostLimitExpire_fit (ch : Fin 64) (s : State) {next : State} (h0 : QueuesFit s.dev) (h : execPostLimitExpire ch s = .next next) : QueuesFit next.dev := by
  refine main_fit h0 (fun e he => ?_) h
  repeat' first
    | with_reducible assumption
    | with_reducible apply doPostLimitExpire_fit
    | simp -implicitDefEqProofs only [QueuesFit.lit]
    | split
    | intro _
    | dsimp only
theorem execRearmExpire_fit (c : Fin 17) (s : State) {next : State} (h0 : QueuesFit s.dev) (h : execRearmExpire c s = .next next) : QueuesFit next.dev := by
  refine main_fit h0 (fun e he => ?_) h
  repeat' first
    | with_reducible assumption
    | with_reducible apply doRearmExpire_fit
    | simp -implicitDefEqProofs only [QueuesFit.lit]
    | split
    | intro _
    | dsimp only
theorem execChannelOwnerWrite_fit (ch : Fin 64) (owner : Fin 32) (s : State) {next : State} (h0 : QueuesFit s.dev) (h : execChannelOwnerWrite ch owner s = .next next) : QueuesFit next.dev := by
  refine main_fit h0 (fun e he => ?_) h
  repeat' first
    | with_reducible assumption
    | with_reducible apply doChannelOwnerWrite_fit
    | simp -implicitDefEqProofs only [QueuesFit.lit]
    | split
    | intro _
    | dsimp only
theorem execZeroingComplete_fit (ch : Fin 64) (s : State) {next : State} (h0 : QueuesFit s.dev) (h : execZeroingComplete ch s = .next next) : QueuesFit next.dev := by
  refine main_fit h0 (fun e he => ?_) h
  repeat' first
    | with_reducible assumption
    | with_reducible apply doZeroingComplete_fit
    | simp -implicitDefEqProofs only [QueuesFit.lit]
    | split
    | intro _
    | dsimp only
theorem execPinwheelConfigWrite_fit (size : Bool) (v : W64) (s : State) {next : State} (h0 : QueuesFit s.dev) (h : execPinwheelConfigWrite size v s = .next next) : QueuesFit next.dev := by
  refine main_fit h0 (fun e he => ?_) h
  repeat' first
    | with_reducible assumption
    | with_reducible apply doPinwheelConfigWrite_fit
    | simp -implicitDefEqProofs only [QueuesFit.lit]
    | split
    | intro _
    | dsimp only
theorem execPtnCreate_fit (tag : Byte) (p : Fin 16) (bindVf : Bool) (mask shape : W64) (quotaMiB : W32) (s : State) {next : State} (h0 : QueuesFit s.dev) (h : execPtnCreate tag p bindVf mask shape quotaMiB s = .next next) : QueuesFit next.dev := by
  refine main_fit h0 (fun e he => ?_) h
  repeat' first
    | with_reducible assumption
    | with_reducible apply doPtnCreate_fit
    | with_reducible apply p_fit
    | with_reducible apply serving_fit
    | simp -implicitDefEqProofs only [QueuesFit.lit]
    | split
    | intro _
    | dsimp only
theorem execPtnDestroy_fit (tag : Byte) (p : Fin 16) (s : State) {next : State} (h0 : QueuesFit s.dev) (h : execPtnDestroy tag p s = .next next) : QueuesFit next.dev := by
  refine main_fit h0 (fun e he => ?_) h
  repeat' first
    | with_reducible assumption
    | with_reducible apply doPtnDestroy_fit
    | with_reducible apply p_fit
    | with_reducible apply serving_fit
    | simp -implicitDefEqProofs only [QueuesFit.lit]
    | split
    | intro _
    | dsimp only
theorem execPtnCloseComplete_fit (p : Fin 16) (s : State) {next : State} (h0 : QueuesFit s.dev) (h : execPtnCloseComplete p s = .next next) : QueuesFit next.dev := by
  refine main_fit h0 (fun e he => ?_) h
  repeat' first
    | with_reducible assumption
    | with_reducible apply doPtnClose_fit
    | with_reducible apply p_fit
    | simp -implicitDefEqProofs only [QueuesFit.lit]
    | split
    | intro _
    | dsimp only
theorem execPtnResize_fit (tag : Byte) (p : Fin 16) (retarget : Bool) (mask shape : W64) (s : State) {next : State} (h0 : QueuesFit s.dev) (h : execPtnResize tag p retarget mask shape s = .next next) : QueuesFit next.dev := by
  refine main_fit h0 (fun e he => ?_) h
  repeat' first
    | with_reducible assumption
    | with_reducible apply doPtnResize_fit
    | with_reducible apply p_fit
    | with_reducible apply serving_fit
    | simp -implicitDefEqProofs only [QueuesFit.lit]
    | split
    | intro _
    | dsimp only
theorem execPtnResizeComplete_fit (p : Fin 16) (s : State) {next : State} (h0 : QueuesFit s.dev) (h : execPtnResizeComplete p s = .next next) : QueuesFit next.dev := by
  refine main_fit h0 (fun e he => ?_) h
  repeat' first
    | with_reducible assumption
    | with_reducible apply doPtnResizeComplete_fit
    | with_reducible apply p_fit
    | simp -implicitDefEqProofs only [QueuesFit.lit]
    | split
    | intro _
    | dsimp only
theorem execPtnQuery_fit (tag : Byte) (p : Fin 16) (s : State) {next : State} (h0 : QueuesFit s.dev) (h : execPtnQuery tag p s = .next next) : QueuesFit next.dev := by
  refine main_fit h0 (fun e he => ?_) h
  repeat' first
    | with_reducible assumption
    | with_reducible apply doPtnQuery_fit
    | with_reducible apply p_fit
    | with_reducible apply serving_fit
    | simp -implicitDefEqProofs only [QueuesFit.lit]
    | split
    | intro _
    | dsimp only
theorem execPing_fit (tag : Byte) (arg : W32) (s : State) {next : State} (h0 : QueuesFit s.dev) (h : execPing tag arg s = .next next) : QueuesFit next.dev := by
  refine main_fit h0 (fun e he => ?_) h
  repeat' first
    | with_reducible assumption
    | with_reducible apply doPing_fit
    | with_reducible apply serving_fit
    | simp -implicitDefEqProofs only [QueuesFit.lit]
    | split
    | intro _
    | dsimp only
theorem execBeaconSend_fit (s : State) {next : State} (h0 : QueuesFit s.dev) (h : execBeaconSend s = .next next) : QueuesFit next.dev := by
  refine main_fit h0 (fun e he => ?_) h
  repeat' first
    | with_reducible assumption
    | with_reducible apply doBeaconSend_fit
    | simp -implicitDefEqProofs only [QueuesFit.lit]
    | split
    | intro _
    | dsimp only
theorem execBeacon_fit (g : Fin 16) (ns : W64) (frac : BitVec 16) (hops : Nat) (master : Fin 512) (intact : Bool) (s : State) {next : State} (h0 : QueuesFit s.dev) (h : execBeacon g ns frac hops master intact s = .next next) : QueuesFit next.dev := by
  refine main_fit h0 (fun e he => ?_) h
  repeat' first
    | with_reducible assumption
    | with_reducible apply doBeacon_fit
    | simp -implicitDefEqProofs only [QueuesFit.lit]
    | split
    | intro _
    | dsimp only
theorem execBeaconTimeout_fit (s : State) {next : State} (h0 : QueuesFit s.dev) (h : execBeaconTimeout s = .next next) : QueuesFit next.dev := by
  refine main_fit h0 (fun e he => ?_) h
  repeat' first
    | with_reducible assumption
    | with_reducible apply doBeaconTimeout_fit
    | simp -implicitDefEqProofs only [QueuesFit.lit]
    | split
    | intro _
    | dsimp only
theorem execTsbHoldEnd_fit (s : State) {next : State} (h0 : QueuesFit s.dev) (h : execTsbHoldEnd s = .next next) : QueuesFit next.dev := by
  refine main_fit h0 (fun e he => ?_) h
  repeat' first
    | with_reducible assumption
    | with_reducible apply doHoldEnd_fit
    | simp -implicitDefEqProofs only [QueuesFit.lit]
    | split
    | intro _
    | dsimp only
theorem execTsbSet_fit (v : W64) (s : State) {next : State} (h0 : QueuesFit s.dev) (h : execTsbSet v s = .next next) : QueuesFit next.dev := by
  refine main_fit h0 (fun e he => ?_) h
  repeat' first
    | with_reducible assumption
    | with_reducible apply doTsbSet_fit
    | simp -implicitDefEqProofs only [QueuesFit.lit]
    | split
    | intro _
    | dsimp only
theorem execBootGo_fit (s : State) {next : State} (h0 : QueuesFit s.dev) (h : execBootGo s = .next next) : QueuesFit next.dev := by
  refine main_fit h0 (fun e he => ?_) h
  repeat' first
    | with_reducible assumption
    | with_reducible apply atPage_fit
    | with_reducible apply doBootGo_fit
    | simp -implicitDefEqProofs only [QueuesFit.lit]
    | split
    | intro _
    | dsimp only
theorem execBootAbort_fit (s : State) {next : State} (h0 : QueuesFit s.dev) (h : execBootAbort s = .next next) : QueuesFit next.dev := by
  refine main_fit h0 (fun e he => ?_) h
  repeat' first
    | with_reducible assumption
    | with_reducible apply atPage_fit
    | with_reducible apply doBootAbort_fit
    | simp -implicitDefEqProofs only [QueuesFit.lit]
    | split
    | intro _
    | dsimp only
theorem execBundleFetchComplete_fit (data : Option (List Byte)) (s : State) {next : State} (h0 : QueuesFit s.dev) (h : execBundleFetchComplete data s = .next next) : QueuesFit next.dev := by
  refine main_fit h0 (fun e he => ?_) h
  repeat' first
    | with_reducible assumption
    | with_reducible apply doFetchDone_fit
    | simp -implicitDefEqProofs only [QueuesFit.lit]
    | split
    | intro _
    | dsimp only
theorem execBundleVerifyComplete_fit (s : State) {next : State} (h0 : QueuesFit s.dev) (h : execBundleVerifyComplete s = .next next) : QueuesFit next.dev := by
  refine main_fit h0 (fun e he => ?_) h
  repeat' first
    | with_reducible assumption
    | with_reducible apply doVerifyDone_fit
    | simp -implicitDefEqProofs only [QueuesFit.lit]
    | split
    | intro _
    | dsimp only
theorem execStageReady_fit (s : State) {next : State} (h0 : QueuesFit s.dev) (h : execStageReady s = .next next) : QueuesFit next.dev := by
  refine main_fit h0 (fun e he => ?_) h
  repeat' first
    | with_reducible assumption
    | with_reducible apply doStageReady_fit
    | simp -implicitDefEqProofs only [QueuesFit.lit]
    | split
    | intro _
    | dsimp only
theorem execConfirm_fit (s : State) {next : State} (h0 : QueuesFit s.dev) (h : execConfirm s = .next next) : QueuesFit next.dev := by
  refine main_fit h0 (fun e he => ?_) h
  repeat' first
    | with_reducible assumption
    | with_reducible apply atPage_fit
    | with_reducible apply doConfirm_fit
    | simp -implicitDefEqProofs only [QueuesFit.lit]
    | split
    | intro _
    | dsimp only
theorem execBurnComplete_fit (fault : Bool) (s : State) {next : State} (h0 : QueuesFit s.dev) (h : execBurnComplete fault s = .next next) : QueuesFit next.dev := by
  refine main_fit h0 (fun e he => ?_) h
  repeat' first
    | with_reducible assumption
    | with_reducible apply doBurnDone_fit
    | simp -implicitDefEqProofs only [QueuesFit.lit]
    | split
    | intro _
    | dsimp only
theorem execOwnerProvision_fit (tag : Byte) (hash : Words) (s : State) {next : State} (h0 : QueuesFit s.dev) (h : execOwnerProvision tag hash s = .next next) : QueuesFit next.dev := by
  refine main_fit h0 (fun e he => ?_) h
  repeat' first
    | with_reducible assumption
    | with_reducible apply doOwnerProvision_fit
    | with_reducible apply serving_fit
    | simp -implicitDefEqProofs only [QueuesFit.lit]
    | split
    | intro _
    | dsimp only
theorem execOwnerBurnComplete_fit (fault : Bool) (s : State) {next : State} (h0 : QueuesFit s.dev) (h : execOwnerBurnComplete fault s = .next next) : QueuesFit next.dev := by
  refine main_fit h0 (fun e he => ?_) h
  repeat' first
    | with_reducible assumption
    | with_reducible apply doOwnerBurnDone_fit
    | simp -implicitDefEqProofs only [QueuesFit.lit]
    | split
    | intro _
    | dsimp only
theorem execTokenPresent_fit (tag : Byte) (token : Words) (s : State) {next : State} (h0 : QueuesFit s.dev) (h : execTokenPresent tag token s = .next next) : QueuesFit next.dev := by
  refine main_fit h0 (fun e he => ?_) h
  repeat' first
    | with_reducible assumption
    | with_reducible apply doTokenPresent_fit
    | with_reducible apply serving_fit
    | simp -implicitDefEqProofs only [QueuesFit.lit]
    | split
    | intro _
    | dsimp only
theorem execServiceBadCommand_fit (hdr : W64) (s : State) {next : State} (h0 : QueuesFit s.dev) (h : execServiceBadCommand hdr s = .next next) : QueuesFit next.dev := by
  refine main_fit h0 (fun e he => ?_) h
  repeat' first
    | with_reducible assumption
    | with_reducible apply doBadCommand_fit
    | with_reducible apply serving_fit
    | simp -implicitDefEqProofs only [QueuesFit.lit]
    | split
    | intro _
    | dsimp only
theorem execLoadGo_fit (p : Fin 16) (s : State) {next : State} (h0 : QueuesFit s.dev) (h : execLoadGo p s = .next next) : QueuesFit next.dev := by
  refine main_fit h0 (fun e he => ?_) h
  repeat' first
    | with_reducible assumption
    | with_reducible apply atPtn_fit
    | with_reducible apply doLoadGo_fit
    | with_reducible apply p_fit
    | simp -implicitDefEqProofs only [QueuesFit.lit]
    | split
    | intro _
    | dsimp only
theorem execLoadAbort_fit (p : Fin 16) (s : State) {next : State} (h0 : QueuesFit s.dev) (h : execLoadAbort p s = .next next) : QueuesFit next.dev := by
  refine main_fit h0 (fun e he => ?_) h
  repeat' first
    | with_reducible assumption
    | with_reducible apply atPtn_fit
    | with_reducible apply doLoadAbort_fit
    | with_reducible apply p_fit
    | simp -implicitDefEqProofs only [QueuesFit.lit]
    | split
    | intro _
    | dsimp only
theorem execLoadReplay_fit (p : Fin 16) (s : State) {next : State} (h0 : QueuesFit s.dev) (h : execLoadReplay p s = .next next) : QueuesFit next.dev := by
  refine main_fit h0 (fun e he => ?_) h
  repeat' first
    | with_reducible assumption
    | with_reducible apply atPtn_fit
    | with_reducible apply doLoadReplay_fit
    | with_reducible apply p_fit
    | simp -implicitDefEqProofs only [QueuesFit.lit]
    | split
    | intro _
    | dsimp only
theorem execFrame_fit (p : Fin 16) (data : Option (List Byte)) (s : State) {next : State} (h0 : QueuesFit s.dev) (h : execFrame p data s = .next next) : QueuesFit next.dev := by
  refine main_fit h0 (fun e he => ?_) h
  repeat' first
    | with_reducible assumption
    | with_reducible apply doFrame_fit
    | with_reducible apply p_fit
    | simp -implicitDefEqProofs only [QueuesFit.lit]
    | split
    | intro _
    | dsimp only
theorem execScrubWalkRead_fit (n : Fin 64) (w : WordLoc) (s : State) {next : State} (h0 : QueuesFit s.dev) (h : execScrubWalkRead n w s = .next next) : QueuesFit next.dev := by
  refine main_fit h0 (fun e he => ?_) h
  repeat' first
    | with_reducible assumption
    | with_reducible apply doWalkRead_fit
    | simp -implicitDefEqProofs only [QueuesFit.lit]
    | split
    | intro _
    | dsimp only
theorem execScrubPassRequest_fit (p : Fin 16) (s : State) {next : State} (h0 : QueuesFit s.dev) (h : execScrubPassRequest p s = .next next) : QueuesFit next.dev := by
  refine main_fit h0 (fun e he => ?_) h
  repeat' first
    | with_reducible assumption
    | with_reducible apply doPassRequest_fit
    | with_reducible apply p_fit
    | simp -implicitDefEqProofs only [QueuesFit.lit]
    | split
    | intro _
    | dsimp only
theorem execScrubPassStart_fit (s : State) {next : State} (h0 : QueuesFit s.dev) (h : execScrubPassStart s = .next next) : QueuesFit next.dev := by
  refine main_fit h0 (fun e he => ?_) h
  repeat' first
    | with_reducible assumption
    | with_reducible apply doPassStart_fit
    | simp -implicitDefEqProofs only [QueuesFit.lit]
    | split
    | intro _
    | dsimp only
theorem execScrubPassComplete_fit (s : State) {next : State} (h0 : QueuesFit s.dev) (h : execScrubPassComplete s = .next next) : QueuesFit next.dev := by
  refine main_fit h0 (fun e he => ?_) h
  repeat' first
    | with_reducible assumption
    | with_reducible apply doPassComplete_fit
    | simp -implicitDefEqProofs only [QueuesFit.lit]
    | split
    | intro _
    | dsimp only
theorem execUpset_fit (n : Fin 64) (w : WordLoc) (fetch : Bool) (s : State) {next : State} (h0 : QueuesFit s.dev) (h : execUpset n w fetch s = .next next) : QueuesFit next.dev := by
  refine main_fit h0 (fun e he => ?_) h
  repeat' first
    | with_reducible assumption
    | with_reducible apply doUpset_fit
    | simp -implicitDefEqProofs only [QueuesFit.lit]
    | split
    | intro _
    | dsimp only
theorem execUpsetRewrite_fit (n : Fin 64) (w : WordLoc) (s : State) {next : State} (h0 : QueuesFit s.dev) (h : execUpsetRewrite n w s = .next next) : QueuesFit next.dev := by
  refine main_fit h0 (fun e he => ?_) h
  repeat' first
    | with_reducible assumption
    | with_reducible apply doUpsetRewrite_fit
    | simp -implicitDefEqProofs only [QueuesFit.lit]
    | split
    | intro _
    | dsimp only
theorem execLaneGroupEnable_fit (g : Fin 16) (s : State) {next : State} (h0 : QueuesFit s.dev) (h : execLaneGroupEnable g s = .next next) : QueuesFit next.dev := by
  refine main_fit h0 (fun e he => ?_) h
  repeat' first
    | with_reducible assumption
    | with_reducible apply atPage_fit
    | with_reducible apply doLaneEnable_fit
    | simp -implicitDefEqProofs only [QueuesFit.lit]
    | split
    | intro _
    | dsimp only
theorem execLaneGroupDisable_fit (g : Fin 16) (s : State) {next : State} (h0 : QueuesFit s.dev) (h : execLaneGroupDisable g s = .next next) : QueuesFit next.dev := by
  refine main_fit h0 (fun e he => ?_) h
  repeat' first
    | with_reducible assumption
    | with_reducible apply atPage_fit
    | with_reducible apply doLaneDisable_fit
    | simp -implicitDefEqProofs only [QueuesFit.lit]
    | split
    | intro _
    | dsimp only
theorem execLaneTestRequest_fit (g : Fin 16) (s : State) {next : State} (h0 : QueuesFit s.dev) (h : execLaneTestRequest g s = .next next) : QueuesFit next.dev := by
  refine main_fit h0 (fun e he => ?_) h
  repeat' first
    | with_reducible assumption
    | with_reducible apply atPage_fit
    | with_reducible apply doLaneTest_fit
    | simp -implicitDefEqProofs only [QueuesFit.lit]
    | split
    | intro _
    | dsimp only
theorem execMarkerSend_fit (g : Fin 16) (s : State) {next : State} (h0 : QueuesFit s.dev) (h : execMarkerSend g s = .next next) : QueuesFit next.dev := by
  refine main_fit h0 (fun e he => ?_) h
  repeat' first
    | with_reducible assumption
    | with_reducible apply doMarkerSend_fit
    | simp -implicitDefEqProofs only [QueuesFit.lit]
    | split
    | intro _
    | dsimp only
theorem execMarker_fit (g : Fin 16) (l : Fin 8) (bits : BitVec 320) (ui : Nat) (s : State) {next : State} (h0 : QueuesFit s.dev) (h : execMarker g l bits ui s = .next next) : QueuesFit next.dev := by
  refine main_fit h0 (fun e he => ?_) h
  repeat' first
    | with_reducible assumption
    | with_reducible apply doMarker_fit
    | simp -implicitDefEqProofs only [QueuesFit.lit]
    | split
    | intro _
    | dsimp only
theorem execAcqTimeout_fit (g : Fin 16) (s : State) {next : State} (h0 : QueuesFit s.dev) (h : execAcqTimeout g s = .next next) : QueuesFit next.dev := by
  refine main_fit h0 (fun e he => ?_) h
  repeat' first
    | with_reducible assumption
    | with_reducible apply doAcqTimeout_fit
    | simp -implicitDefEqProofs only [QueuesFit.lit]
    | split
    | intro _
    | dsimp only
theorem execLaneLoss_fit (g : Fin 16) (l : Fin 8) (s : State) {next : State} (h0 : QueuesFit s.dev) (h : execLaneLoss g l s = .next next) : QueuesFit next.dev := by
  refine main_fit h0 (fun e he => ?_) h
  repeat' first
    | with_reducible assumption
    | with_reducible apply loseLane_fit
    | simp -implicitDefEqProofs only [QueuesFit.lit]
    | split
    | intro _
    | dsimp only
theorem execCodeword_fit (g : Fin 16) (l : Fin 8) (data check : List (Fin 1024)) (s : State) {next : State} (h0 : QueuesFit s.dev) (h : execCodeword g l data check s = .next next) : QueuesFit next.dev := by
  refine main_fit h0 (fun e he => ?_) h
  repeat' first
    | with_reducible assumption
    | with_reducible apply doCodeword_fit
    | simp -implicitDefEqProofs only [QueuesFit.lit]
    | split
    | intro _
    | dsimp only
theorem execSlotFrame_fit (g : Fin 16) (k : Nat) (fields : SlotBits) (s : State) {next : State} (h0 : QueuesFit s.dev) (h : execSlotFrame g k fields s = .next next) : QueuesFit next.dev := by
  refine main_fit h0 (fun e he => ?_) h
  repeat' first
    | with_reducible assumption
    | with_reducible apply doSlotFrame_fit
    | simp -implicitDefEqProofs only [QueuesFit.lit]
    | split
    | intro _
    | dsimp only
theorem execLinkFlit_fit (g : Fin 16) (bits : BitVec 320) (bad : Bool) (s : State) {next : State} (h0 : QueuesFit s.dev) (h : execLinkFlit g bits bad s = .next next) : QueuesFit next.dev := by
  refine main_fit h0 (fun e he => ?_) h
  repeat' first
    | with_reducible assumption
    | with_reducible apply doLinkFlit_fit
    | simp -implicitDefEqProofs only [QueuesFit.lit]
    | split
    | intro _
    | dsimp only
theorem execCredit_fit (g : Fin 16) (vc : Fin 4) (count : Nat) (intact : Bool) (s : State) {next : State} (h0 : QueuesFit s.dev) (h : execCredit g vc count intact s = .next next) : QueuesFit next.dev := by
  refine main_fit h0 (fun e he => ?_) h
  repeat' first
    | with_reducible assumption
    | with_reducible apply doCredit_fit
    | simp -implicitDefEqProofs only [QueuesFit.lit]
    | split
    | intro _
    | dsimp only
theorem execFreezeMsg_fit (g : Fin 16) (origin : Fin 512) (n : Byte) (intact : Bool) (s : State) {next : State} (h0 : QueuesFit s.dev) (h : execFreezeMsg g origin n intact s = .next next) : QueuesFit next.dev := by
  refine main_fit h0 (fun e he => ?_) h
  repeat' first
    | with_reducible assumption
    | with_reducible apply doFreezeMsg_fit
    | simp -implicitDefEqProofs only [QueuesFit.lit]
    | split
    | intro _
    | dsimp only
theorem execInjGo_fit (g : Fin 16) (s : State) {next : State} (h0 : QueuesFit s.dev) (h : execInjGo g s = .next next) : QueuesFit next.dev := by
  refine main_fit h0 (fun e he => ?_) h
  repeat' first
    | with_reducible assumption
    | with_reducible apply doInjGo_fit
    | simp -implicitDefEqProofs only [QueuesFit.lit]
    | split
    | intro _
    | dsimp only
theorem execLgrpClrCounts_fit (g : Fin 16) (s : State) {next : State} (h0 : QueuesFit s.dev) (h : execLgrpClrCounts g s = .next next) : QueuesFit next.dev := by
  refine main_fit h0 (fun e he => ?_) h
  repeat' first
    | with_reducible assumption
    | with_reducible apply doLgrpClr_fit
    | simp -implicitDefEqProofs only [QueuesFit.lit]
    | split
    | intro _
    | dsimp only
theorem execClrSlack_fit (g : Fin 16) (s : State) {next : State} (h0 : QueuesFit s.dev) (h : execClrSlack g s = .next next) : QueuesFit next.dev := by
  refine main_fit h0 (fun e he => ?_) h
  repeat' first
    | with_reducible assumption
    | with_reducible apply doClrSlack_fit
    | simp -implicitDefEqProofs only [QueuesFit.lit]
    | split
    | intro _
    | dsimp only
theorem execBridgeLaneEnable_fit (g : Fin 16) (l : Fin 8) (tx rx : Bool) (s : State) {next : State} (h0 : QueuesFit s.dev) (h : execBridgeLaneEnable g l tx rx s = .next next) : QueuesFit next.dev := by
  refine main_fit h0 (fun e he => ?_) h
  repeat' first
    | with_reducible assumption
    | with_reducible apply doBridgeEnable_fit
    | simp -implicitDefEqProofs only [QueuesFit.lit]
    | split
    | intro _
    | dsimp only
theorem execBridgeWordReceive_fit (g : Fin 16) (l : Fin 8) (w : W64) (s : State) {next : State} (h0 : QueuesFit s.dev) (h : execBridgeWordReceive g l w s = .next next) : QueuesFit next.dev := by
  refine main_fit h0 (fun e he => ?_) h
  repeat' first
    | with_reducible assumption
    | with_reducible apply doBridgeReceive_fit
    | simp -implicitDefEqProofs only [QueuesFit.lit]
    | split
    | intro _
    | dsimp only
theorem execBridgeWordTransmit_fit (g : Fin 16) (l : Fin 8) (s : State) {next : State} (h0 : QueuesFit s.dev) (h : execBridgeWordTransmit g l s = .next next) : QueuesFit next.dev := by
  refine main_fit h0 (fun e he => ?_) h
  repeat' first
    | with_reducible assumption
    | with_reducible apply doBridgeTransmit_fit
    | simp -implicitDefEqProofs only [QueuesFit.lit]
    | split
    | intro _
    | dsimp only
theorem execPrbsCheck_fit (g : Fin 16) (l : Fin 8) (bits : List Bool) (s : State) {next : State} (h0 : QueuesFit s.dev) (h : execPrbsCheck g l bits s = .next next) : QueuesFit next.dev := by
  refine main_fit h0 (fun e he => ?_) h
  repeat' first
    | with_reducible assumption
    | with_reducible apply doPrbsCheck_fit
    | simp -implicitDefEqProofs only [QueuesFit.lit]
    | split
    | intro _
    | dsimp only
theorem execLaneClockRecovered_fit (g : Fin 16) (l : Fin 8) (s : State) {next : State} (h0 : QueuesFit s.dev) (h : execLaneClockRecovered g l s = .next next) : QueuesFit next.dev := by
  refine main_fit h0 (fun e he => ?_) h
  repeat' first
    | with_reducible assumption
    | with_reducible apply doLaneRecovered_fit
    | simp -implicitDefEqProofs only [QueuesFit.lit]
    | split
    | intro _
    | dsimp only
theorem execPacketHop_fit (x : Fin 8) (y : Fin 10) (ins : List (Fin 9 × Fin 4 × Flit)) (s : State) {next : State} (h0 : QueuesFit s.dev) (h : execPacketHop x y ins s = .next next) : QueuesFit next.dev := by
  refine main_fit h0 (fun e he => ?_) h
  repeat' first
    | with_reducible assumption
    | with_reducible apply doPacketHop_fit
    | simp -implicitDefEqProofs only [QueuesFit.lit]
    | split
    | intro _
    | dsimp only
theorem execQwr_fit (k : Packet) (s : State) {next : State} (h0 : QueuesFit s.dev) (h : execQwr k s = .next next) : QueuesFit next.dev := by
  refine main_fit h0 (fun e he => ?_) h
  repeat' first
    | with_reducible assumption
    | with_reducible apply doQwr_fit
    | with_reducible apply request_fit
    | with_reducible apply serveQueue_fit
    | simp -implicitDefEqProofs only [QueuesFit.lit]
    | split
    | intro _
    | dsimp only
theorem execQrd_fit (k : Packet) (s : State) {next : State} (h0 : QueuesFit s.dev) (h : execQrd k s = .next next) : QueuesFit next.dev := by
  refine main_fit h0 (fun e he => ?_) h
  repeat' first
    | with_reducible assumption
    | with_reducible apply doQrd_fit
    | with_reducible apply request_fit
    | with_reducible apply serveQueue_fit
    | simp -implicitDefEqProofs only [QueuesFit.lit]
    | split
    | intro _
    | dsimp only
theorem execCapWr_fit (k : Packet) (s : State) {next : State} (h0 : QueuesFit s.dev) (h : execCapWr k s = .next next) : QueuesFit next.dev := by
  refine main_fit h0 (fun e he => ?_) h
  repeat' first
    | with_reducible assumption
    | with_reducible apply doCapWr_fit
    | simp -implicitDefEqProofs only [QueuesFit.lit]
    | split
    | intro _
    | dsimp only
theorem execTrcWr_fit (k : Packet) (s : State) {next : State} (h0 : QueuesFit s.dev) (h : execTrcWr k s = .next next) : QueuesFit next.dev := by
  refine main_fit h0 (fun e he => ?_) h
  repeat' first
    | with_reducible assumption
    | with_reducible apply doTrcWr_fit
    | simp -implicitDefEqProofs only [QueuesFit.lit]
    | split
    | intro _
    | dsimp only
theorem execRspData_fit (k : Packet) (s : State) {next : State} (h0 : QueuesFit s.dev) (h : execRspData k s = .next next) : QueuesFit next.dev := by
  refine main_fit h0 (fun e he => ?_) h
  repeat' first
    | with_reducible assumption
    | with_reducible apply doResponse_fit
    | simp -implicitDefEqProofs only [QueuesFit.lit]
    | split
    | intro _
    | dsimp only
theorem execRspAck_fit (k : Packet) (s : State) {next : State} (h0 : QueuesFit s.dev) (h : execRspAck k s = .next next) : QueuesFit next.dev := by
  refine main_fit h0 (fun e he => ?_) h
  repeat' first
    | with_reducible assumption
    | with_reducible apply doResponse_fit
    | simp -implicitDefEqProofs only [QueuesFit.lit]
    | split
    | intro _
    | dsimp only
theorem execRspTimeout_fit (src : Fin 256) (tag : Fin 4096) (s : State) {next : State} (h0 : QueuesFit s.dev) (h : execRspTimeout src tag s = .next next) : QueuesFit next.dev := by
  refine main_fit h0 (fun e he => ?_) h
  repeat' first
    | with_reducible assumption
    | with_reducible apply doRspTimeout_fit
    | simp -implicitDefEqProofs only [QueuesFit.lit]
    | split
    | intro _
    | dsimp only
theorem execTagQuarantineEnd_fit (src : Fin 256) (tag : Fin 4096) (s : State) {next : State} (h0 : QueuesFit s.dev) (h : execTagQuarantineEnd src tag s = .next next) : QueuesFit next.dev := by
  refine main_fit h0 (fun e he => ?_) h
  repeat' first
    | with_reducible assumption
    | with_reducible apply doQuarantineEnd_fit
    | simp -implicitDefEqProofs only [QueuesFit.lit]
    | split
    | intro _
    | dsimp only
theorem execRouteTableWrite_fit (port idx : Fin 256) (entry : W64) (s : State) {next : State} (h0 : QueuesFit s.dev) (h : execRouteTableWrite port idx entry s = .next next) : QueuesFit next.dev := by
  refine main_fit h0 (fun e he => ?_) h
  repeat' first
    | with_reducible assumption
    | with_reducible apply doRouteWrite_fit
    | simp -implicitDefEqProofs only [QueuesFit.lit]
    | split
    | intro _
    | dsimp only
theorem execDrain_fit (n : Fin 64) (s : State) {next : State} (h0 : QueuesFit s.dev) (h : execDrain n s = .next next) : QueuesFit next.dev := by
  refine main_fit h0 (fun e he => ?_) h
  repeat' first
    | with_reducible assumption
    | with_reducible apply drainNi_fit
    | simp -implicitDefEqProofs only [QueuesFit.lit]
    | split
    | intro _
    | dsimp only
theorem execDrainComplete_fit (n : Fin 64) (s : State) {next : State} (h0 : QueuesFit s.dev) (h : execDrainComplete n s = .next next) : QueuesFit next.dev := by
  refine main_fit h0 (fun e he => ?_) h
  repeat' first
    | with_reducible assumption
    | with_reducible apply doDrainComplete_fit
    | simp -implicitDefEqProofs only [QueuesFit.lit]
    | split
    | intro _
    | dsimp only
theorem execDrainTimeout_fit (n : Fin 64) (s : State) {next : State} (h0 : QueuesFit s.dev) (h : execDrainTimeout n s = .next next) : QueuesFit next.dev := by
  refine main_fit h0 (fun e he => ?_) h
  repeat' first
    | with_reducible assumption
    | with_reducible apply doDrainTimeout_fit
    | simp -implicitDefEqProofs only [QueuesFit.lit]
    | split
    | intro _
    | dsimp only
theorem execUnfence_fit (n : Fin 64) (s : State) {next : State} (h0 : QueuesFit s.dev) (h : execUnfence n s = .next next) : QueuesFit next.dev := by
  refine main_fit h0 (fun e he => ?_) h
  repeat' first
    | with_reducible assumption
    | with_reducible apply doUnfence_fit
    | simp -implicitDefEqProofs only [QueuesFit.lit]
    | split
    | intro _
    | dsimp only
theorem execNocClrCounts_fit (s : State) {next : State} (h0 : QueuesFit s.dev) (h : execNocClrCounts s = .next next) : QueuesFit next.dev := by
  refine main_fit h0 (fun e he => ?_) h
  repeat' first
    | with_reducible assumption
    | with_reducible apply doNocClr_fit
    | simp -implicitDefEqProofs only [QueuesFit.lit]
    | split
    | intro _
    | dsimp only
theorem execVauxUp_fit (s : State) {next : State} (h0 : QueuesFit s.dev) (h : execVauxUp s = .next next) : QueuesFit next.dev := by
  refine fin_fit h0 (fun e he => ?_) h
  repeat' first
    | with_reducible assumption
    | with_reducible apply powerOn_fit
    | simp -implicitDefEqProofs only [QueuesFit.lit]
    | split
    | intro _
    | dsimp only
theorem execVauxLoss_fit (s : State) {next : State} (h0 : QueuesFit s.dev) (h : execVauxLoss s = .next next) : QueuesFit next.dev := by
  refine fin_fit h0 (fun e he => ?_) h
  repeat' first
    | with_reducible assumption
    | with_reducible apply doVauxLoss_fit
    | simp -implicitDefEqProofs only [QueuesFit.lit]
    | split
    | intro _
    | dsimp only
theorem execVin48Up_fit (s : State) {next : State} (h0 : QueuesFit s.dev) (h : execVin48Up s = .next next) : QueuesFit next.dev := by
  refine fin_fit h0 (fun e he => ?_) h
  repeat' first
    | with_reducible assumption
    | with_reducible apply doVin48Up_fit
    | simp -implicitDefEqProofs only [QueuesFit.lit]
    | split
    | intro _
    | dsimp only
theorem execVin48Loss_fit (s : State) {next : State} (h0 : QueuesFit s.dev) (h : execVin48Loss s = .next next) : QueuesFit next.dev := by
  refine fin_fit h0 (fun e he => ?_) h
  repeat' first
    | with_reducible assumption
    | with_reducible apply doVin48Loss_fit
    | simp -implicitDefEqProofs only [QueuesFit.lit]
    | split
    | intro _
    | dsimp only
theorem execPerstAssert_fit (s : State) {next : State} (h0 : QueuesFit s.dev) (h : execPerstAssert s = .next next) : QueuesFit next.dev := by
  refine fin_fit h0 (fun e he => ?_) h
  repeat' first
    | with_reducible assumption
    | with_reducible apply doPerstAssert_fit
    | simp -implicitDefEqProofs only [QueuesFit.lit]
    | split
    | intro _
    | dsimp only
theorem execPerstDeassert_fit (s : State) {next : State} (h0 : QueuesFit s.dev) (h : execPerstDeassert s = .next next) : QueuesFit next.dev := by
  refine fin_fit h0 (fun e he => ?_) h
  repeat' first
    | with_reducible assumption
    | with_reducible apply doPerstDeassert_fit
    | simp -implicitDefEqProofs only [QueuesFit.lit]
    | split
    | intro _
    | dsimp only
theorem execStartup_fit (refclk healthOk : Bool) (s : State) {next : State} (h0 : QueuesFit s.dev) (h : execStartup refclk healthOk s = .next next) : QueuesFit next.dev := by
  refine fin_fit h0 (fun e he => ?_) h
  repeat' first
    | with_reducible assumption
    | with_reducible apply doStartup_fit
    | simp -implicitDefEqProofs only [QueuesFit.lit]
    | split
    | intro _
    | dsimp only
theorem execDevice_fit (s : State) {next : State} (h0 : QueuesFit s.dev) (h : execDevice s = .next next) : QueuesFit next.dev := by
  refine main_fit h0 (fun e he => ?_) h
  repeat' first
    | with_reducible assumption
    | with_reducible apply atPage_fit
    | with_reducible apply doDevice_fit
    | simp -implicitDefEqProofs only [QueuesFit.lit]
    | split
    | intro _
    | dsimp only
theorem execFlrPf_fit (s : State) {next : State} (h0 : QueuesFit s.dev) (h : execFlrPf s = .next next) : QueuesFit next.dev := by
  refine config_fit h0 (fun e he => ?_) h
  repeat' first
    | with_reducible assumption
    | with_reducible apply doFlrPf_fit
    | simp -implicitDefEqProofs only [QueuesFit.lit]
    | split
    | intro _
    | dsimp only
theorem execFlrVf_fit (p : Fin 16) (s : State) {next : State} (h0 : QueuesFit s.dev) (h : execFlrVf p s = .next next) : QueuesFit next.dev := by
  refine config_fit h0 (fun e he => ?_) h
  repeat' first
    | with_reducible assumption
    | with_reducible apply doFlrVf_fit
    | with_reducible apply p_fit
    | simp -implicitDefEqProofs only [QueuesFit.lit]
    | split
    | intro _
    | dsimp only
theorem execFunctionResetComplete_fit (fn : Fn) (s : State) {next : State} (h0 : QueuesFit s.dev) (h : execFunctionResetComplete fn s = .next next) : QueuesFit next.dev := by
  refine main_fit h0 (fun e he => ?_) h
  repeat' first
    | with_reducible assumption
    | with_reducible apply doFnResetDone_fit
    | simp -implicitDefEqProofs only [QueuesFit.lit]
    | split
    | intro _
    | dsimp only
theorem execPtnReset_fit (mask : BitVec 16) (s : State) {next : State} (h0 : QueuesFit s.dev) (h : execPtnReset mask s = .next next) : QueuesFit next.dev := by
  refine main_fit h0 (fun e he => ?_) h
  repeat' first
    | with_reducible assumption
    | with_reducible apply atPage_fit
    | with_reducible apply doPtnReset_fit
    | simp -implicitDefEqProofs only [QueuesFit.lit]
    | split
    | intro _
    | dsimp only
theorem execPartitionResetComplete_fit (p : Fin 16) (s : State) {next : State} (h0 : QueuesFit s.dev) (h : execPartitionResetComplete p s = .next next) : QueuesFit next.dev := by
  refine main_fit h0 (fun e he => ?_) h
  repeat' first
    | with_reducible assumption
    | with_reducible apply p_fit
    | with_reducible apply ptnResetDone_fit
    | simp -implicitDefEqProofs only [QueuesFit.lit]
    | split
    | intro _
    | dsimp only
theorem execVfEnableClear_fit (s : State) {next : State} (h0 : QueuesFit s.dev) (h : execVfEnableClear s = .next next) : QueuesFit next.dev := by
  refine config_fit h0 (fun e he => ?_) h
  repeat' first
    | with_reducible assumption
    | with_reducible apply doVfClear_fit
    | simp -implicitDefEqProofs only [QueuesFit.lit]
    | split
    | intro _
    | dsimp only
theorem execVfEnableSet_fit (num : Fin 17) (s : State) {next : State} (h0 : QueuesFit s.dev) (h : execVfEnableSet num s = .next next) : QueuesFit next.dev := by
  refine config_fit h0 (fun e he => ?_) h
  repeat' first
    | with_reducible assumption
    | with_reducible apply doVfSet_fit
    | simp -implicitDefEqProofs only [QueuesFit.lit]
    | split
    | intro _
    | dsimp only
theorem execClusterWake_fit (ns : List (Fin 64)) (s : State) {next : State} (h0 : QueuesFit s.dev) (h : execClusterWake ns s = .next next) : QueuesFit next.dev := by
  refine main_fit h0 (fun e he => ?_) h
  repeat' first
    | with_reducible assumption
    | with_reducible apply doClusterWake_fit
    | simp -implicitDefEqProofs only [QueuesFit.lit]
    | split
    | intro _
    | dsimp only
theorem execClusterIdleDelay_fit (p : Fin 16) (s : State) {next : State} (h0 : QueuesFit s.dev) (h : execClusterIdleDelay p s = .next next) : QueuesFit next.dev := by
  refine main_fit h0 (fun e he => ?_) h
  repeat' first
    | with_reducible assumption
    | with_reducible apply doIdleDelay_fit
    | with_reducible apply p_fit
    | simp -implicitDefEqProofs only [QueuesFit.lit]
    | split
    | intro _
    | dsimp only
theorem execClusterOffDelay_fit (n : Fin 64) (s : State) {next : State} (h0 : QueuesFit s.dev) (h : execClusterOffDelay n s = .next next) : QueuesFit next.dev := by
  refine main_fit h0 (fun e he => ?_) h
  repeat' first
    | with_reducible assumption
    | with_reducible apply doOffDelay_fit
    | simp -implicitDefEqProofs only [QueuesFit.lit]
    | split
    | intro _
    | dsimp only
theorem execClusterPowerOn_fit (n : Fin 64) (s : State) {next : State} (h0 : QueuesFit s.dev) (h : execClusterPowerOn n s = .next next) : QueuesFit next.dev := by
  refine main_fit h0 (fun e he => ?_) h
  repeat' first
    | with_reducible assumption
    | with_reducible apply doPowerOnCluster_fit
    | simp -implicitDefEqProofs only [QueuesFit.lit]
    | split
    | intro _
    | dsimp only
theorem execCorePllLockLost_fit (s : State) {next : State} (h0 : QueuesFit s.dev) (h : execCorePllLockLost s = .next next) : QueuesFit next.dev := by
  refine main_fit h0 (fun e he => ?_) h
  repeat' first
    | with_reducible assumption
    | with_reducible apply doPllLost_fit
    | simp -implicitDefEqProofs only [QueuesFit.lit]
    | split
    | intro _
    | dsimp only
theorem execWakeSource_fit (src : Fin 10) (s : State) {next : State} (h0 : QueuesFit s.dev) (h : execWakeSource src s = .next next) : QueuesFit next.dev := by
  refine fin_fit h0 (fun e he => ?_) h
  repeat' first
    | with_reducible assumption
    | with_reducible apply doWake_fit
    | simp -implicitDefEqProofs only [QueuesFit.lit]
    | split
    | intro _
    | dsimp only
theorem execHeartbeat_fit (v : W32) (s : State) {next : State} (h0 : QueuesFit s.dev) (h : execHeartbeat v s = .next next) : QueuesFit next.dev := by
  refine main_fit h0 (fun e he => ?_) h
  repeat' first
    | with_reducible assumption
    | with_reducible apply doHeartbeat_fit
    | simp -implicitDefEqProofs only [QueuesFit.lit]
    | split
    | intro _
    | dsimp only
theorem execHeartbeatTimeout_fit (s : State) {next : State} (h0 : QueuesFit s.dev) (h : execHeartbeatTimeout s = .next next) : QueuesFit next.dev := by
  refine main_fit h0 (fun e he => ?_) h
  repeat' first
    | with_reducible assumption
    | with_reducible apply doHeartbeatTimeout_fit
    | simp -implicitDefEqProofs only [QueuesFit.lit]
    | split
    | intro _
    | dsimp only
theorem execGraceTimeout_fit (s : State) {next : State} (h0 : QueuesFit s.dev) (h : execGraceTimeout s = .next next) : QueuesFit next.dev := by
  refine main_fit h0 (fun e he => ?_) h
  repeat' first
    | with_reducible assumption
    | with_reducible apply doGraceTimeout_fit
    | simp -implicitDefEqProofs only [QueuesFit.lit]
    | split
    | intro _
    | dsimp only
theorem execOverTemperature_fit (q : Fin 5) (celsius : Byte) (s : State) {next : State} (h0 : QueuesFit s.dev) (h : execOverTemperature q celsius s = .next next) : QueuesFit next.dev := by
  refine main_fit h0 (fun e he => ?_) h
  repeat' first
    | with_reducible assumption
    | with_reducible apply doTemperature_fit
    | simp -implicitDefEqProofs only [QueuesFit.lit]
    | split
    | intro _
    | dsimp only
theorem execRailFault_fit (s : State) {next : State} (h0 : QueuesFit s.dev) (h : execRailFault s = .next next) : QueuesFit next.dev := by
  refine main_fit h0 (fun e he => ?_) h
  repeat' first
    | with_reducible assumption
    | with_reducible apply controlledStop_fit
    | simp -implicitDefEqProofs only [QueuesFit.lit]
    | split
    | intro _
    | dsimp only
theorem execWardenStop_fit (s : State) {next : State} (h0 : QueuesFit s.dev) (h : execWardenStop s = .next next) : QueuesFit next.dev := by
  refine main_fit h0 (fun e he => ?_) h
  repeat' first
    | with_reducible assumption
    | with_reducible apply atPage_fit
    | with_reducible apply controlledStop_fit
    | simp -implicitDefEqProofs only [QueuesFit.lit]
    | split
    | intro _
    | dsimp only
theorem execStopDrainTimeout_fit (s : State) {next : State} (h0 : QueuesFit s.dev) (h : execStopDrainTimeout s = .next next) : QueuesFit next.dev := by
  refine main_fit h0 (fun e he => ?_) h
  repeat' first
    | with_reducible assumption
    | with_reducible apply doStopDrain_fit
    | simp -implicitDefEqProofs only [QueuesFit.lit]
    | split
    | intro _
    | dsimp only
theorem execStopComplete_fit (s : State) {next : State} (h0 : QueuesFit s.dev) (h : execStopComplete s = .next next) : QueuesFit next.dev := by
  refine main_fit h0 (fun e he => ?_) h
  repeat' first
    | with_reducible assumption
    | with_reducible apply doStopComplete_fit
    | simp -implicitDefEqProofs only [QueuesFit.lit]
    | split
    | intro _
    | dsimp only
theorem execStringJoin_fit (s : State) {next : State} (h0 : QueuesFit s.dev) (h : execStringJoin s = .next next) : QueuesFit next.dev := by
  refine main_fit h0 (fun e he => ?_) h
  repeat' first
    | with_reducible assumption
    | with_reducible apply atPage_fit
    | with_reducible apply doStringJoin_fit
    | simp -implicitDefEqProofs only [QueuesFit.lit]
    | split
    | intro _
    | dsimp only
theorem execStringOpen_fit (s : State) {next : State} (h0 : QueuesFit s.dev) (h : execStringOpen s = .next next) : QueuesFit next.dev := by
  refine main_fit h0 (fun e he => ?_) h
  repeat' first
    | with_reducible assumption
    | with_reducible apply doStringOpen_fit
    | simp -implicitDefEqProofs only [QueuesFit.lit]
    | split
    | intro _
    | dsimp only
theorem execStringLeave_fit (s : State) {next : State} (h0 : QueuesFit s.dev) (h : execStringLeave s = .next next) : QueuesFit next.dev := by
  refine main_fit h0 (fun e he => ?_) h
  repeat' first
    | with_reducible assumption
    | with_reducible apply atPage_fit
    | with_reducible apply doStringLeave_fit
    | simp -implicitDefEqProofs only [QueuesFit.lit]
    | split
    | intro _
    | dsimp only
theorem execStringBroken_fit (s : State) {next : State} (h0 : QueuesFit s.dev) (h : execStringBroken s = .next next) : QueuesFit next.dev := by
  refine main_fit h0 (fun e he => ?_) h
  repeat' first
    | with_reducible assumption
    | with_reducible apply doStringBroken_fit
    | simp -implicitDefEqProofs only [QueuesFit.lit]
    | split
    | intro _
    | dsimp only
theorem execDiscover_fit (s : State) {next : State} (h0 : QueuesFit s.dev) (h : execDiscover s = .next next) : QueuesFit next.dev := by
  refine main_fit h0 (fun e he => ?_) h
  repeat' first
    | with_reducible assumption
    | with_reducible apply atPage_fit
    | with_reducible apply doDiscover_fit
    | simp -implicitDefEqProofs only [QueuesFit.lit]
    | split
    | intro _
    | dsimp only
theorem execCollect_fit (src : Fin 512) (ttl : Nat) (map : BitVec 512) (mark : RingMark) (s : State) {next : State} (h0 : QueuesFit s.dev) (h : execCollect src ttl map mark s = .next next) : QueuesFit next.dev := by
  refine main_fit h0 (fun e he => ?_) h
  repeat' first
    | with_reducible assumption
    | with_reducible apply doCollect_fit
    | simp -implicitDefEqProofs only [QueuesFit.lit]
    | split
    | intro _
    | dsimp only
theorem execAssign_fit (src : Fin 512) (ttl : Nat) (map : BitVec 512) (mark : RingMark) (s : State) {next : State} (h0 : QueuesFit s.dev) (h : execAssign src ttl map mark s = .next next) : QueuesFit next.dev := by
  refine main_fit h0 (fun e he => ?_) h
  repeat' first
    | with_reducible assumption
    | with_reducible apply doAssign_fit
    | simp -implicitDefEqProofs only [QueuesFit.lit]
    | split
    | intro _
    | dsimp only
theorem execStringBeacon_fit (src : Fin 512) (ttl : Nat) (ns : W64) (frac : BitVec 16) (mark : RingMark) (s : State) {next : State} (h0 : QueuesFit s.dev) (h : execStringBeacon src ttl ns frac mark s = .next next) : QueuesFit next.dev := by
  refine main_fit h0 (fun e he => ?_) h
  repeat' first
    | with_reducible assumption
    | with_reducible apply doStringBeacon_fit
    | simp -implicitDefEqProofs only [QueuesFit.lit]
    | split
    | intro _
    | dsimp only
theorem execStringFreeze_fit (src : Fin 512) (n : Byte) (ttl : Nat) (tail : FreezeTail) (s : State) {next : State} (h0 : QueuesFit s.dev) (h : execStringFreeze src n ttl tail s = .next next) : QueuesFit next.dev := by
  refine main_fit h0 (fun e he => ?_) h
  repeat' first
    | with_reducible assumption
    | with_reducible apply doStringFreeze_fit
    | simp -implicitDefEqProofs only [QueuesFit.lit]
    | split
    | intro _
    | dsimp only
theorem execStringStrobe_fit (src : Fin 512) (n : Byte) (ttl : Nat) (crc : W32) (s : State) {next : State} (h0 : QueuesFit s.dev) (h : execStringStrobe src n ttl crc s = .next next) : QueuesFit next.dev := by
  refine main_fit h0 (fun e he => ?_) h
  repeat' first
    | with_reducible assumption
    | with_reducible apply doStringStrobe_fit
    | simp -implicitDefEqProofs only [QueuesFit.lit]
    | split
    | intro _
    | dsimp only
theorem execResetReq_fit (src : Fin 512) (n : Byte) (dest : Fin 512) (ttl : Nat) (crc : W32) (s : State) {next : State} (h0 : QueuesFit s.dev) (h : execResetReq src n dest ttl crc s = .next next) : QueuesFit next.dev := by
  refine main_fit h0 (fun e he => ?_) h
  repeat' first
    | with_reducible assumption
    | with_reducible apply doResetReq_fit
    | simp -implicitDefEqProofs only [QueuesFit.lit]
    | split
    | intro _
    | dsimp only
theorem execMsg_fit (src dest : Fin 512) (ttl : Nat) (cfg : List (Fin 16 × W32)) (mark : RingMark) (s : State) {next : State} (h0 : QueuesFit s.dev) (h : execMsg src dest ttl cfg mark s = .next next) : QueuesFit next.dev := by
  refine main_fit h0 (fun e he => ?_) h
  repeat' first
    | with_reducible assumption
    | with_reducible apply doMsg_fit
    | simp -implicitDefEqProofs only [QueuesFit.lit]
    | split
    | intro _
    | dsimp only
theorem execResetReqSend_fit (s : State) {next : State} (h0 : QueuesFit s.dev) (h : execResetReqSend s = .next next) : QueuesFit next.dev := by
  refine main_fit h0 (fun e he => ?_) h
  repeat' first
    | with_reducible assumption
    | with_reducible apply atPage_fit
    | with_reducible apply doResetReqSend_fit
    | simp -implicitDefEqProofs only [QueuesFit.lit]
    | split
    | intro _
    | dsimp only
theorem execStringFrameRepeat_fit (s : State) {next : State} (h0 : QueuesFit s.dev) (h : execStringFrameRepeat s = .next next) : QueuesFit next.dev := by
  refine main_fit h0 (fun e he => ?_) h
  repeat' first
    | with_reducible assumption
    | with_reducible apply doRepeat_fit
    | simp -implicitDefEqProofs only [QueuesFit.lit]
    | split
    | intro _
    | dsimp only
theorem execStringBeaconSend_fit (s : State) {next : State} (h0 : QueuesFit s.dev) (h : execStringBeaconSend s = .next next) : QueuesFit next.dev := by
  refine main_fit h0 (fun e he => ?_) h
  repeat' first
    | with_reducible assumption
    | with_reducible apply doStringBeaconSend_fit
    | simp -implicitDefEqProofs only [QueuesFit.lit]
    | split
    | intro _
    | dsimp only
theorem execRegisterWrite_fit (fn : Fn) (off v : Nat) (wide : Bool) (s : State) {next : State} (h0 : QueuesFit s.dev) (h : execRegisterWrite fn off v wide s = .next next) : QueuesFit next.dev := by
  refine main_fit h0 (fun e he => ?_) h
  repeat' first
    | with_reducible assumption
    | with_reducible apply doRegisterWrite_fit
    | simp -implicitDefEqProofs only [QueuesFit.lit]
    | split
    | intro _
    | dsimp only
theorem execPairLowRead_fit (fn : Fn) (place : ReadAt) (s : State) {next : State} (h0 : QueuesFit s.dev) (h : execPairLowRead fn place s = .next next) : QueuesFit next.dev := by
  refine main_fit h0 (fun e he => ?_) h
  repeat' first
    | with_reducible assumption
    | with_reducible apply doRead32_fit
    | with_reducible apply doRead64_fit
    | simp -implicitDefEqProofs only [QueuesFit.lit]
    | split
    | intro _
    | dsimp only
theorem execPairLowWrite_fit (fn : Fn) (off v : Nat) (s : State) {next : State} (h0 : QueuesFit s.dev) (h : execPairLowWrite fn off v s = .next next) : QueuesFit next.dev := by
  refine main_fit h0 (fun e he => ?_) h
  repeat' first
    | with_reducible assumption
    | with_reducible apply doRegisterWrite_fit
    | simp -implicitDefEqProofs only [QueuesFit.lit]
    | split
    | intro _
    | dsimp only
theorem execPairHighWrite_fit (fn : Fn) (off v : Nat) (s : State) {next : State} (h0 : QueuesFit s.dev) (h : execPairHighWrite fn off v s = .next next) : QueuesFit next.dev := by
  refine main_fit h0 (fun e he => ?_) h
  repeat' first
    | with_reducible assumption
    | with_reducible apply doRegisterWrite_fit
    | simp -implicitDefEqProofs only [QueuesFit.lit]
    | split
    | intro _
    | dsimp only
theorem execMisalignedAccess_fit (fn : Fn) (off size : Nat) (write : Bool) (s : State) {next : State} (h0 : QueuesFit s.dev) (h : execMisalignedAccess fn off size write s = .next next) : QueuesFit next.dev := by
  refine main_fit h0 (fun e he => ?_) h
  repeat' first
    | with_reducible assumption
    | with_reducible apply doMisaligned_fit
    | simp -implicitDefEqProofs only [QueuesFit.lit]
    | split
    | intro _
    | dsimp only
theorem execFenceRead_fit (fn : Fn) (off : Nat) (s : State) {next : State} (h0 : QueuesFit s.dev) (h : execFenceRead fn off s = .next next) : QueuesFit next.dev := by
  refine main_fit h0 (fun e he => ?_) h
  repeat' first
    | with_reducible assumption
    | with_reducible apply doFenceRead_fit
    | simp -implicitDefEqProofs only [QueuesFit.lit]
    | split
    | intro _
    | dsimp only
theorem execRd_fit (k : Packet) (s : State) {next : State} (h0 : QueuesFit s.dev) (h : execRd k s = .next next) : QueuesFit next.dev := by
  refine main_fit h0 (fun e he => ?_) h
  repeat' first
    | with_reducible assumption
    | with_reducible apply request_fit
    | with_reducible apply serveAccess_fit
    | simp -implicitDefEqProofs only [QueuesFit.lit]
    | split
    | intro _
    | dsimp only
theorem execWr_fit (k : Packet) (s : State) {next : State} (h0 : QueuesFit s.dev) (h : execWr k s = .next next) : QueuesFit next.dev := by
  refine main_fit h0 (fun e he => ?_) h
  repeat' first
    | with_reducible assumption
    | with_reducible apply request_fit
    | with_reducible apply serveAccess_fit
    | simp -implicitDefEqProofs only [QueuesFit.lit]
    | split
    | intro _
    | dsimp only
theorem execStrobeLatch_fit (s : State) {next : State} (h0 : QueuesFit s.dev) (h : execStrobeLatch s = .next next) : QueuesFit next.dev := by
  refine main_fit h0 (fun e he => ?_) h
  repeat' first
    | with_reducible assumption
    | with_reducible apply doStrobeLatch_fit
    | simp -implicitDefEqProofs only [QueuesFit.lit]
    | split
    | intro _
    | dsimp only
theorem execBar2Read_fit (fn : Fn) (off len : Nat) (s : State) {next : State} (h0 : QueuesFit s.dev) (h : execBar2Read fn off len s = .next next) : QueuesFit next.dev := by
  refine main_fit h0 (fun e he => ?_) h
  repeat' first
    | with_reducible assumption
    | with_reducible apply doBar2Read_fit
    | simp -implicitDefEqProofs only [QueuesFit.lit]
    | split
    | intro _
    | dsimp only
theorem execBar2Write_fit (fn : Fn) (off : Nat) (bytes : List Byte) (s : State) {next : State} (h0 : QueuesFit s.dev) (h : execBar2Write fn off bytes s = .next next) : QueuesFit next.dev := by
  refine main_fit h0 (fun e he => ?_) h
  repeat' first
    | with_reducible assumption
    | with_reducible apply doBar2Write_fit
    | simp -implicitDefEqProofs only [QueuesFit.lit]
    | split
    | intro _
    | dsimp only
theorem execCaptureWindowRead_fit (p : Fin 16) (off len : Nat) (s : State) {next : State} (h0 : QueuesFit s.dev) (h : execCaptureWindowRead p off len s = .next next) : QueuesFit next.dev := by
  refine main_fit h0 (fun e he => ?_) h
  repeat' first
    | with_reducible assumption
    | with_reducible apply doCaptureRead_fit
    | with_reducible apply p_fit
    | simp -implicitDefEqProofs only [QueuesFit.lit]
    | split
    | intro _
    | dsimp only
theorem execIrqStatClear_fit (base : Nat) (v : W32) (s : State) {next : State} (h0 : QueuesFit s.dev) (h : execIrqStatClear base v s = .next next) : QueuesFit next.dev := by
  refine main_fit h0 (fun e he => ?_) h
  repeat' first
    | with_reducible assumption
    | with_reducible apply atPlace_fit
    | with_reducible apply write32_fit
    | simp -implicitDefEqProofs only [QueuesFit.lit]
    | split
    | intro _
    | dsimp only
theorem execIrqForce_fit (base : Nat) (v : W32) (s : State) {next : State} (h0 : QueuesFit s.dev) (h : execIrqForce base v s = .next next) : QueuesFit next.dev := by
  refine main_fit h0 (fun e he => ?_) h
  repeat' first
    | with_reducible assumption
    | with_reducible apply atPlace_fit
    | with_reducible apply write32_fit
    | simp -implicitDefEqProofs only [QueuesFit.lit]
    | split
    | intro _
    | dsimp only
theorem execMsixUnmask_fit (fn : Fn) (v : Fin 32) (s : State) {next : State} (h0 : QueuesFit s.dev) (h : execMsixUnmask fn v s = .next next) : QueuesFit next.dev := by
  refine main_fit h0 (fun e he => ?_) h
  repeat' first
    | with_reducible assumption
    | with_reducible apply doUnmask_fit
    | simp -implicitDefEqProofs only [QueuesFit.lit]
    | split
    | intro _
    | dsimp only
theorem execMbistGo_fit (n : Fin 64) (s : State) {next : State} (h0 : QueuesFit s.dev) (h : execMbistGo n s = .next next) : QueuesFit next.dev := by
  refine main_fit h0 (fun e he => ?_) h
  repeat' first
    | with_reducible assumption
    | with_reducible apply atPage_fit
    | with_reducible apply doMbistGo_fit
    | simp -implicitDefEqProofs only [QueuesFit.lit]
    | split
    | intro _
    | dsimp only
theorem execMbistComplete_fit (n : Fin 64) (failed : Option (BitVec 64)) (s : State) {next : State} (h0 : QueuesFit s.dev) (h : execMbistComplete n failed s = .next next) : QueuesFit next.dev := by
  refine main_fit h0 (fun e he => ?_) h
  repeat' first
    | with_reducible assumption
    | with_reducible apply doMbistComplete_fit
    | with_reducible apply failed_fit
    | simp -implicitDefEqProofs only [QueuesFit.lit]
    | split
    | intro _
    | dsimp only
theorem execMntRelease_fit (code : Fin 8) (owner : Fin 17) (inst : Fin 64) (s : State) {next : State} (h0 : QueuesFit s.dev) (h : execMntRelease code owner inst s = .next next) : QueuesFit next.dev := by
  refine main_fit h0 (fun e he => ?_) h
  repeat' first
    | with_reducible assumption
    | with_reducible apply doRelease_fit
    | simp -implicitDefEqProofs only [QueuesFit.lit]
    | split
    | intro _
    | dsimp only
theorem execBoundaryScanExtest_fit (on : Bool) (s : State) {next : State} (h0 : QueuesFit s.dev) (h : execBoundaryScanExtest on s = .next next) : QueuesFit next.dev := by
  refine fin_fit h0 (fun e he => ?_) h
  repeat' first
    | with_reducible assumption
    | with_reducible apply on_fit
    | simp -implicitDefEqProofs only [QueuesFit.lit]
    | split
    | intro _
    | dsimp only
end Sys2Proof.Machine
end

