-- ==== Sys2Proof/Tests/Slice0.lean ====
section
/-! SUPPORT. Tests: ill-formed commands are refused by the check, the manual's worked examples, one step of a small device, and for every
statement with hypotheses a state that meets them all. -/

set_option linter.unusedVariables false

namespace Sys2Proof.Tests

set_option Elab.async false

open Sys2Proof Sys2Proof.Machine

/-- A device in ACTIVE that presents its full function. -/
def upAlone : Dev := Dev.on { Dev.reset with pwr := { Pwr.reset with st := .active, perst := false } } pDEV DEV_STATE_FULL
/-- The same, with routes between the host's port and cluster 2, the queue port of queue 20, the list block and the hub's pages. -/
def up : Dev := { upAlone with noc := { upAlone.noc with routes := [0x0290, 0x9002, 0x9094, 0x9098, 0x90A0, 0x9490, 0x9890, 0xA090].map fun k => (k, 1 <<< 63) } }
/-- A BP word whose bit 0 has flipped, with its write-back pending. -/
def bpFlip : Dev := (up.setBp (ixBp 2 3 5 9) ⟨holdWord ^^^ 1, 0xD5⟩).modClu 2 fun c => { c with bpBack := [ixBp 2 3 5 9] }
/-- A WALU word whose bit 0 has flipped, with its write-back pending. -/
def waFlip : Dev := (up.setWa (ixWa 2 3 1 9) ⟨1, 0⟩).modClu 2 fun c => { c with wlBack := [ixWa 2 3 1 9] }
/-- A design memory row whose bit 0 has flipped, with its write-back pending. -/
def rowFlip : Dev := (up.setRow (ixRow 2 3 5) ⟨1, 0⟩).modClu 2 fun c => { c with rowBack := [ixRow 2 3 5] }
/-- Partition 3 with cluster 2 and one queue, number 20 absolute, enabled. -/
def ptn3 : Dev :=
  ((((up.p pDEV (DEV_DIR_STATE 3) 2).p pDEV (DEV_DIR_MASK 3) 4).p pDEV (DEV_DIR_QCOUNT 3) 1).p pDEV (DEV_DIR_QBASE 3) 20).setQueue 20
    { Queue.reset with en := true, depth := 0, words := [⟨7, false, false, []⟩] }
/-- A transactor read port on that queue, and a write port. -/
def tport : Dev := ptn3.on (pCLU 2) (CLU_TXP_V 1)
def tportW : Dev := tport.on (pCLU 2) (CLU_TXP_DIR 1)
/-- With cluster 2 on the network. -/
def upn : Dev := up.p pNOC (NOC_NI_STATE_CLU 2) 0
/-- With VF 4 bound to partition 3 and enabled. -/
def upvf : Dev := { ((up.p pDEV (DEV_DIR_STATE 3) 2).on pDEV (DEV_DIR_VF 3)) with pwr := { Pwr.reset with st := .active, perst := false, vfNum := 16 } }
/-- An outstanding read of the host, tag 7, at an HBM port. -/
def outst0 : Outst := ⟨0x90, 7, 0x40, 0, 0x40, 0, false, (0, 0), false⟩
/-- A packet of endpoint `src` to `dst` on behalf of the device, 16 bytes from address `a`. -/
def pk (src dst : Fin 256) (op : Fin 64) (a : BitVec 64) : Packet := ⟨0, src, dst, op, 1, 7, 0, true, false, 0, a, 0, 0, [1, 2, 3, 4], []⟩
/-- The same with check bits that leave its flit uncorrectable. -/
def badPk (src dst : Fin 256) (op : Fin 64) (a : BitVec 64) : Packet := { pk src dst op a with data := List.replicate 32 0, checks := [3] }
/-- A flit of one packet alone, with a header. -/
def hopFlit (h : BitVec 256) : Flit := ⟨63, h, 0⟩
/-- A block of channel 1 on its way to HBM. -/
def capBlk : CapBlk := { chan := 1, cap := 1, dir := 0, addr := 0x1000, bytes := [1, 2] }
/-- A valid route for it. -/
def routed (d : Dev) (src dst : Fin 256) : Dev := { d with noc := { d.noc with routes := [(src.val * 256 + dst.val, 1 <<< 63)] } }
/-- Its transaction outstanding. -/
def waiting (src dst : Nat) : Dev := { up with noc := { up.noc with outst := [{ outst0 with src := src, dst := dst }] } }
/-- A device in DOZE that may start. -/
def dozing : Dev := { Dev.reset with pwr := { Pwr.reset with st := .doze, vaux := true, vin48 := true, perst := false } }
/-- A device whose memory is encrypted, with a route from a host port to an HBM port. -/
def hbmUp : Dev := (routed up 0x90 0x40).on pIME IME_KEYSTATE_KEY_VALID
/-- The same with a node of its tree that fails its check. -/
def hbmBad : Dev := { hbmUp with ime := { hbmUp.ime with root := [(0, 1)], nodeOff := [(0, 1)] } }
theorem startup_active : (dozing.doStartup true true).finish.active = true := by
  unfold Dev.active; rw [Dev.finish_pwr]; decide +kernel
/-- Partition 3 with a send port word at step 7: tile 5 of cluster 2, plane 1. -/
def fabDev (w : Nat) : Dev := ptn3.setPort (ixPort 2 5 1 7) (freshPar 16 w)
/-- Queue 20 enabled at 8 words and full. -/
def fullQueue : Dev := Dev.reset.setQueue 20 { Queue.reset with en := true, depth := 0, words := List.replicate 8 ⟨7, false, false, []⟩ }
/-- Partition 0 with cluster 0 and queues 16 to 19, partition 1 with cluster 1 and queues 20 to 23. -/
def twoPtns : Dev := (Dev.reset.setDir 0 1 1 16 4).setDir 1 1 2 20 4
theorem twoPtns_owned : twoPtns.OneOwner := by
  have h : ∀ i < 16, (twoPtns.dirState i = if i < 2 then 1 else 0) ∧ (twoPtns.mask i = if i = 0 then 1 else if i = 1 then 2 else 0) ∧
      (twoPtns.g pDEV (DEV_DIR_QBASE i) = if i = 0 then 16 else if i = 1 then 20 else 0) ∧ (twoPtns.g pDEV (DEV_DIR_QCOUNT i) = if i < 2 then 4 else 0) := by
    decide +kernel
  have h1 : ∀ n < 64, Nat.testBit 1 n = true → n = 0 := by decide
  have h2 : ∀ n < 64, Nat.testBit 2 n = true → n = 1 := by decide
  have hc (i : Nat) (hi : i < 16) (n : Nat) (hn : n < 64) (hx : twoPtns.claims i n) : i = n := by
    obtain ⟨a, b, -, -⟩ := h i hi
    simp only [Dev.claims, Dev.promised, a, b] at hx
    by_cases e : i = 0
    · subst e; exact (h1 n hn (by simpa using hx)).symm
    · by_cases e' : i = 1
      · subst e'; exact (h2 n hn (by simpa using hx)).symm
      · exfalso; simp [e, e', show ¬ i < 2 by omega] at hx
  have hq (i : Nat) (hi : i < 16) (q : Nat) (hx : twoPtns.claimsQueue i q) : i < 2 ∧ 16 + 4 * i ≤ q ∧ q < 20 + 4 * i := by
    obtain ⟨a, -, c, d⟩ := h i hi
    simp only [Dev.claimsQueue, a, c, d] at hx
    rcases hx with hx | hx
    · repeat' split at hx
      all_goals omega
    · repeat' split at hx
      all_goals omega
  constructor
  · intro i hi h0; obtain ⟨a, b, -, d⟩ := h i hi; rw [a] at h0; split at h0
    · omega
    · rw [b, d, if_neg (by omega), if_neg (by omega), if_neg (by omega)]; exact ⟨rfl, rfl⟩
  · intro i hi j hj n hn hx hy; exact (hc i hi n hn hx).trans (hc j hj n hn hy).symm
  · intro i hi j hj q hx hy; have := hq i hi q hx; have := hq j hj q hy; omega
  · intro i hi q hx; have := hq i hi q hx; omega

/-! Commands that are not well formed, one for each check. -/

theorem test_ill_formed_register_write_place : (.registerWrite .pf 0x102 0 false : Instr).wellFormed = false := by decide +kernel
theorem test_ill_formed_register_write_value : (.registerWrite .pf 0x100 (2 ^ 32) false : Instr).wellFormed = false := by decide +kernel
theorem test_ill_formed_wide_write_place : (.registerWrite .pf 0x104 0 true : Instr).wellFormed = false := by decide +kernel
theorem test_ill_formed_register_write_beyond_bar : (.registerWrite (.vf 3) 0x800000 0 false : Instr).wellFormed = false := by decide +kernel
theorem test_ill_formed_pair_low_read : (.pairLowRead .pf ⟨0x101, false⟩ : Instr).wellFormed = false := by decide +kernel
theorem test_ill_formed_pair_low_write : (.pairLowWrite .pf 0x100 (2 ^ 32) : Instr).wellFormed = false := by decide +kernel
theorem test_ill_formed_pair_high_write : (.pairHighWrite .pf 0x106 0 : Instr).wellFormed = false := by decide +kernel
theorem test_ill_formed_misaligned_that_is_aligned : (.misalignedAccess .pf 0x100 4 true : Instr).wellFormed = false := by decide +kernel
theorem test_ill_formed_misaligned_of_no_size : (.misalignedAccess .pf 0x100 0 true : Instr).wellFormed = false := by decide +kernel
theorem test_ill_formed_fence_read : (.fenceRead .pf 0x20 : Instr).wellFormed = false := by decide +kernel
theorem test_ill_formed_valid_sequencer_command : (.seqCmdInvalid 0 7 : Instr).wellFormed = false := by decide +kernel
theorem test_ill_formed_sequencer_table_low : (.seqTableWrite 0 0x1FC 0 : Instr).wellFormed = false := by decide +kernel
theorem test_ill_formed_sequencer_table_high : (.seqTableWrite 0 0x600 0 : Instr).wellFormed = false := by decide +kernel
theorem test_ill_formed_dmem_cfg : (.dmemCfgWrite 0 0x320 0 : Instr).wellFormed = false := by decide +kernel
theorem test_ill_formed_fmp_config : (.fmpConfigWrite 0 0x280 0 : Instr).wellFormed = false := by decide +kernel
theorem test_ill_formed_txp_config : (.txpConfigWrite 0 0x27C 0 : Instr).wellFormed = false := by decide +kernel
theorem test_ill_formed_window_read : (.windowRead .pf 0 0 0x400 : Instr).wellFormed = false := by decide +kernel
theorem test_ill_formed_window_write : (.windowWrite .pf 0 1 0x3FC 0 : Instr).wellFormed = false := by decide +kernel
theorem test_ill_formed_window_read_timeout : (.windowReadTimeout .pf 0 1 0x800 : Instr).wellFormed = false := by decide +kernel
theorem test_ill_formed_owner_provision : (.ownerProvision 0 [0, 0, 0, 0, 0] : Instr).wellFormed = false := by decide +kernel
theorem test_ill_formed_token_present : (.tokenPresent 0 [] : Instr).wellFormed = false := by decide +kernel
theorem test_ill_formed_append_multi_none : (.doorbellAppendMulti .pf 0 [] : Instr).wellFormed = false := by decide +kernel
theorem test_ill_formed_append_multi_five : (.doorbellAppendMulti .pf 0 [0, 0, 0, 0, 0] : Instr).wellFormed = false := by decide +kernel
theorem test_ill_formed_payload : (.wr ⟨0, 0, 0, 0, 0, 0, 0, false, false, 0, 0, 0, 0, List.replicate 257 0, []⟩ : Instr).wellFormed = false := by decide +kernel
theorem test_ill_formed_bar2_read : (.bar2Read .pf 0 4097 : Instr).wellFormed = false := by decide +kernel
theorem test_ill_formed_bar2_write : (.bar2Write .pf 0 [] : Instr).wellFormed = false := by decide +kernel
theorem test_ill_formed_capture_window_read : (.captureWindowRead 0 0 0 : Instr).wellFormed = false := by decide +kernel
theorem test_ill_formed_counter_saturate : (.counterSaturate 0x8004 0 : Instr).wellFormed = false := by decide +kernel
theorem test_ill_formed_irq_stat_clear : (.irqStatClear 0x500000 0 : Instr).wellFormed = false := by decide +kernel
theorem test_ill_formed_irq_force : (.irqForce 0x8004 0 : Instr).wellFormed = false := by decide +kernel
theorem test_ill_formed_mnt_release : (.mntRelease 0 0 0 : Instr).wellFormed = false := by decide +kernel
theorem test_well_formed_edges :
    (.registerWrite .pf 0x3FFFFF8 (2 ^ 64 - 1) true : Instr).wellFormed = true ∧ (.seqTableWrite 15 0x5FC 0 : Instr).wellFormed = true ∧
      (.seqCmdInvalid 0 8 : Instr).wellFormed = true ∧ (.misalignedAccess .pf 0x104 8 false : Instr).wellFormed = true ∧
      (.bar2Read .pf 0 4096 : Instr).wellFormed = true := by decide +kernel

/-! The manual's worked examples. -/

/-- Fields of BP 2's word in the 4-bit counter (02_boolean_processors.md, the example; R26). -/
theorem test_bp_word_fields :
    let w := 0x0802800C01C00C026A6A
    bpTT w = 0x6A6A ∧ bpSrc w 0 = 0xC02 ∧ bpSrc w 1 = 0xC00 ∧ bpSrc w 2 = 0xC01 ∧ bpSrc w 3 = 0x800 ∧ bpState w = 2 ∧ bpOp w = 2 ∧
      bpTap w = false ∧ bpHold w = false := by decide +kernel

/-- Tile 0 of cluster 0 with the counter at `q` and its enable at `en`. -/
def counter (q : Nat) (en : Bool) : Dev :=
  { up with st := { up.st with cur := (List.range 4).foldl (fun m k => SMap.set false m k (q.testBit k)) up.st.cur,
                               fin := SMap.set false up.st.fin 0 en } }

/-- q = 7 with en = 1 (the example's first cycle): q2 XOR (q0 AND q1) is 0, written to the window at slot 0 and to the next copy of state 2. -/
theorem test_bp_counts_from_7 :
    (counter 7 true).bpWrites 0 0 2 0 0x0802800C01C00C026A6A = [.res 0 0 2 false, .bit 0 0 0xC02 false] := by decide +kernel
/-- With en = 0 the state write is suppressed and the result still enters the window. -/
theorem test_bp_holds_without_enable :
    (counter 7 false).bpWrites 0 0 2 0 0x0802800C01C00C026A6A = [.res 0 0 2 false] := by decide +kernel
/-- Result entry of BP 5 at step 37 (R34's example): 0x145. -/
theorem test_bp_result_slot : (counter 7 true).bpWrites 0 0 5 37 0 = [.res 0 0 0x145 false] := by decide +kernel

/-- The 32-bit adder's word (03_word_alus.md, the example; R57). -/
theorem test_walu_add_wraps :
    let w := 0x000000000042003000206001
    waOp w = 1 ∧ waX w = 0x80 ∧ waY w = 0x81 ∧
      waWrites 0 4 w false (waEval 1 ⟨32, 0xFFFFFFF0, 0x20, 0, 0, 0, false, false, 0⟩) = [.word 0 4 0xC0 0x10, .bit 0 4 0x840 true] := by
  decide +kernel
/-- The comparator: -16 < 32 signed, and not unsigned. -/
theorem test_walu_compares :
    waEval 0x12 ⟨32, 0xFFFFFFF0, 0x20, 0, 0, 0, false, false, 0⟩ = ⟨some 1, some true, none⟩ ∧
      waEval 0x11 ⟨32, 0xFFFFFFF0, 0x20, 0, 0, 0, false, false, 0⟩ = ⟨some 0, some false, none⟩ := by decide +kernel
/-- The 64-bit version on a pair: 0x1_FFFF_FFFF + 1 with no carry out of bit 63. -/
theorem test_walu_pair_add :
    waWrites 0 4 (0xC2 <<< 30 ||| 0x840 <<< 43) true (waEval 1 ⟨64, 0x1FFFFFFFF, 1, 0, 0, 0, false, false, 0⟩) =
      [.word 0 4 0xC2 0, .word 0 4 0xC3 2, .bit 0 4 0x840 false] := by decide +kernel
/-- The all-zero WALU word has valid check bits and does nothing (R60). -/
theorem test_walu_nop : secdedCheck 96 104 0 0 = .ok ∧ waWrites 0 4 0 false (waEval 0 ⟨32, 5, 6, 7, 0, 0, true, true, 0⟩) = [] := by decide +kernel
/-- Segment 1 of the two-clock schedule (04_schedule_and_signal_fabric.md, the example): 0x8004_765A. -/
theorem test_segment_entry :
    let d := up.writeWord (pPTN 3) (PTN_SEG_VALID 1).off 0x8004765A fldsPTN
    d.g (pPTN 3) (PTN_SEG_START 1) = 90 ∧ d.g (pPTN 3) (PTN_SEG_LEN_M1 1) = 59 ∧ d.g (pPTN 3) (PTN_SEG_EDGE_SET 1) = 1 ∧
      d.b (pPTN 3) (PTN_SEG_VALID 1) = true := by decide +kernel
/-- The route of cluster 5 to endpoint 0x7C (09_packet_network.md, the example; R262), and the same with a turn back. -/
theorem test_route_entry : routeLegal 5 0x8000006700002555 = true ∧ routeLegal 5 0x8000006700002557 = false := by decide +kernel
/-- The far read's port (R257, R258). -/
theorem test_far_port : portAt 5 = some (1, 1, 0) ∧ portAt 0x7C = some (7, 0, 3) := by decide +kernel
/-- Where the tag, the leaf line and the node of the read at 0x0005_31A0 lie (13_memory_encryption.md, the example; R356, R372). -/
theorem test_metadata_places :
    Dev.tagAddr (0x531A0 / 256) = 0x1720002988 ∧ Dev.leafAddr (0x531A0 / 0x8000) = 0x17D9000280 ∧ Dev.nodeAddr (0x531A0 / 0x100000) = 0x17E4900000 := by decide +kernel
/-- The holder and requester words of the maintenance example (15_faults_and_maintenance.md; R411). -/
theorem test_maintenance_words : Dev.mntId 3 16 40 = 0x5103 ∧ Dev.mntId 7 16 0 = 0x0107 := by decide +kernel
/-- Partition 2 with clusters 8, 9 and 40, bound to VF 3, which the model names by its partition (16_host_interface_and_registers.md, the example; R423). -/
theorem test_vf_reaches_its_third_cluster :
    ((up.p pDEV (DEV_DIR_STATE 2) 2).p pDEV (DEV_DIR_MASK 2) (2 ^ 8 + 2 ^ 9 + 2 ^ 40)).place (.vf 2) 0x0123100 = some ⟨pCLU 40 + 0x3000, 0x100, none, false⟩ ∧
      up.place .pf 0x0383100 = some ⟨pCLU 40 + 0x3000, 0x100, none, false⟩ := by decide +kernel
/-- Entries in a row by width (05_state_memory_and_snapshot.md, the table of R126): 16, 32, 36, 48, 64 and 72 bits. -/
theorem test_entries_per_row : [16, 32, 36, 48, 64, 72].map Dev.perRow = [6, 3, 2, 2, 1, 1] := by decide +kernel
/-- The round trips of the latency example (08_apcor_lanes.md; R235): 120 and 140 steps give 61 and 71. -/
theorem test_round_trips :
    ((up.setLink 3 { (up.linkAt 3) with meas := [120, 120, 118] }).linkUp 3 2).g pLNK (LNK_BUDGET_MEASURED 3) = 61 ∧
      ((up.setLink 3 { (up.linkAt 3) with meas := [140] }).linkUp 3 2).g pLNK (LNK_BUDGET_MEASURED 3) = 71 := by decide +kernel

/-- The check value of CRC-32C (Castagnoli) over "123456789" (R240). -/
theorem test_crc32c : crc32c (ascii "123456789") = 0xE3069283 := by decide +kernel
/-- AES-256 on the example vector of FIPS 197, C.3 (R356). -/
theorem test_aes256 :
    aesBlock ((List.range 32).map (BitVec.ofNat 8)) ((List.range 16).map fun k => BitVec.ofNat 8 (17 * k)) =
      [0x8E, 0xA2, 0xB7, 0xCA, 0x51, 0x67, 0x45, 0xBF, 0xEA, 0xFC, 0x49, 0x90, 0x4B, 0x49, 0x60, 0x89] := by decide +kernel
/-! Steps. -/

/-- The command at the front of the queue acts, and the one behind it waits. -/
theorem test_step_takes_the_front :
    (match step ⟨up, [.sysFreeze, .vin48Loss]⟩ with | .next t => t.pending | _ => []) = [.vin48Loss] := by decide +kernel
/-- From DOZE the loss of the 48 V supply leads to STANDBY (R378). -/
theorem test_supply_loss :
    (match step ⟨Dev.reset, [.vin48Loss]⟩ with | .next t => t.dev.pwr.st | _ => .off) = .standby := by decide +kernel
/-- The start-up sequence leads to ACTIVE (R380). -/
theorem test_startup : ∃ t : State, step ⟨dozing, [.startup true true]⟩ = .next t ∧ t.dev.active = true := ⟨_, rfl, startup_active⟩
/-- No row gives bits, so that no word spells a command. -/
theorem test_no_word_is_a_command : decodeTableWord 8 0xFF = none ∧ State.reset.withFetchWord 8 0xFF = State.reset := by decide +kernel

/-! A state that meets the hypotheses of each statement that has any. -/

theorem test_settled_state_is_kept_met : ∃ s t : State, step s = .next t ∧ s.Settled :=
  ⟨State.reset, _, rfl, rfl, by decide⟩

theorem test_power_state_agrees_with_supplies_met : ∃ s t : State, step s = .next t ∧ s.dev.pwr.Agrees :=
  ⟨State.reset, _, rfl, by constructor <;> decide⟩

theorem test_stores_stay_canonical_met : ∃ s t : State, step s = .next t ∧ s.dev.Canonical :=
  ⟨State.reset, _, rfl, ⟨rfl, rfl⟩⟩

theorem test_each_cluster_and_queue_has_one_owner_met : ∃ s t : State, step s = .next t ∧ s.dev.OneOwner ∧ (∃ n, s.dev.claims 0 n) ∧ ∃ n, s.dev.claims 1 n :=
  ⟨⟨twoPtns, []⟩, _, rfl, twoPtns_owned, ⟨0, Or.inl (by decide +kernel)⟩, ⟨1, Or.inl (by decide +kernel)⟩⟩

theorem test_queues_stay_within_their_depth_met : ∃ s t : State, step s = .next t ∧ s.dev.QueuesFit ∧ ∃ q, (s.dev.queueAt q).en = true ∧ (s.dev.queueAt q).free = 0 :=
  ⟨⟨fullQueue, []⟩, _, rfl, ⟨fun e he => (by decide +kernel : ∀ e ∈ fullQueue.queue, e.2.en = false ∨ e.2.words.length + e.2.reserved ≤ e.2.cap) e he⟩, 20, by decide +kernel, by decide +kernel⟩

theorem test_main_domain_commands_need_active_met : ∃ (c : Instr) (d : Dev), alwaysActs c = false ∧ d.active = false :=
  ⟨.device, Dev.reset, by decide +kernel⟩

theorem test_only_startup_enters_active_met : ∃ (c : Instr) (s t : State), exec c s = .next t ∧ s.dev.active = false ∧ t.dev.active = true :=
  ⟨.startup true true, ⟨dozing, []⟩, _, rfl, by decide +kernel, startup_active⟩

theorem test_hbm_returns_what_was_written_met :
    (∃ (d : Dev) (r : Req) (a : Nat) (bs : List Byte), bs ≠ [] ∧ d.hbmRouted r.src a bs.length = true ∧ d.hbmAllowed r a bs.length = true ∧ d.mergeHits d.ime.ue a bs.length = [] ∧ d.firstFail a bs.length = none) ∧
    (∃ (d : Dev) (r : Req) (a : Nat) (bs : List Byte), bs ≠ [] ∧ d.hbmRouted r.src a bs.length = true ∧ d.hbmAllowed r a bs.length = false) ∧
    (∃ (d : Dev) (r : Req) (a : Nat) (bs : List Byte), bs ≠ [] ∧ d.hbmRouted r.src a bs.length = true ∧ d.hbmAllowed r a bs.length = true ∧ d.mergeHits d.ime.ue a bs.length = [] ∧ d.firstFail a bs.length ≠ none) ∧
    (∃ (d : Dev) (r : Req) (a : Nat) (bs : List Byte), bs ≠ [] ∧ d.hbmRouted r.src a bs.length = false) ∧
    (∃ (d : Dev) (r : Req) (a : Nat) (bs : List Byte), bs ≠ [] ∧ d.hbmRouted r.src a bs.length = true ∧ d.hbmAllowed r a bs.length = true ∧ d.firstFail a bs.length = none ∧ d.mergeHits d.ime.ue a bs.length ≠ []) ∧
    (∃ (d : Dev) (r : Req) (a n : Nat), 0 < n ∧ d.hbmRouted r.src a n = true ∧ d.hbmAllowed r a n = true ∧ d.stackHits d.ime.ue a n ≠ [] ∧ d.firstFail a n = none) ∧
    (∃ (d : Dev) (r : Req) (a n : Nat), 0 < n ∧ d.hbmRouted r.src a n = true ∧ d.hbmAllowed r a n = true ∧ d.stackHits d.ime.ue a n = [] ∧ d.firstFail a n = none) :=
  ⟨⟨hbmUp, ⟨0x90, 0, true⟩, 0x40, [1], by decide +kernel⟩,
   ⟨routed up 0x90 0x40, ⟨0x90, 0, true⟩, 0x40, [1], by decide +kernel⟩,
   ⟨hbmBad, ⟨0x90, 0, true⟩, 0x40, [1], by decide +kernel⟩,
   ⟨{ up with noc := { up.noc with routes := [(0x90 * 256 + 0x40, 0)] } }, ⟨0x90, 0, true⟩, 0x40, [1], by decide +kernel⟩,
   ⟨{ hbmUp with ime := { hbmUp.ime with ue := [0], counters := [(0, 1)], root := [(0, 1)] } }, ⟨0x90, 0, true⟩, 0x40, [1], by decide +kernel⟩,
   ⟨{ hbmUp with ime := { hbmUp.ime with ue := [0], counters := [(0, 1)], root := [(0, 1)] } }, ⟨0x90, 0, true⟩, 0x40, 4, by decide +kernel⟩,
   ⟨hbmUp, ⟨0x90, 0, true⟩, 0x40, 4, by decide +kernel⟩⟩

theorem test_overflow_flag_is_signed_overflow_met :
    (∃ (w x y : Nat), (w = 32 ∨ w = 64) ∧ x < 2 ^ w ∧ y < 2 ^ w) ∧
    (∃ (w x y : Nat), (w = 32 ∨ w = 64) ∧ x < 2 ^ w ∧ y < 2 ^ w) :=
  ⟨⟨32, 5, 7, by decide +kernel⟩,
   ⟨64, 5, 7, by decide +kernel⟩⟩

theorem test_mull_is_the_same_for_signed_operands_met : ∃ (x y : Nat), x < 2 ^ 32 ∧ y < 2 ^ 32 :=
  ⟨0xFFFFFFFF, 2, by decide +kernel⟩

theorem test_shift_amounts_wrap_at32_met :
    (∃ (op x : Nat), (op = 0x20 ∨ op = 0x21 ∨ op = 0x22 ∨ op = 0x23) ∧ x < 2 ^ 32) ∧
    (∃ (op x y : Nat), (op = 0x24 ∨ op = 0x25 ∨ op = 0x26) ∧ x < 2 ^ 32 ∧ y % 32 = 0) ∧
    (∃ op : Nat, op = 0x24 ∨ op = 0x25 ∨ op = 0x26 ∨ op = 0x33) :=
  ⟨⟨0x22, 0xFFFFFFFF, by decide +kernel⟩,
   ⟨0x26, 0x80000000, 32, by decide +kernel⟩,
   ⟨0x33, by decide +kernel⟩⟩

theorem test_word_runs_wrap_modulo256_met : ∃ k i : Nat, i < k :=
  ⟨2, 1, by decide⟩

theorem test_power_unit_write_touches_nothing_else_met : ∃ (d : Dev) (o : Nat), d.HubPage pPMU ∧ d.Quiet ∧ o % 4 = 0 ∧ 0x100 ≤ o ∧ o < 0x800 ∧ pairAt pPMU o = false ∧ pairAt pPMU (o - 4) = false :=
  ⟨up, 0x100, by decide +kernel, by constructor <;> decide +kernel, by decide +kernel⟩

theorem test_sequencer_commands_take_effect_met :
    (∃ (d : Dev) (p : Fin 16), d.Takes p ∧ d.linked p = false ∧ d.seqState p = 0 ∧ d.b (pPTN p) PTN_SEQ_STATUS_LOADED = true ∧ d.tableChecks p = 0) ∧
    (∃ (d : Dev) (p : Fin 16), d.Takes p ∧ d.linked p = false ∧ d.snapBusy p = false ∧ (d.seqState p = 3 ∨ d.seqState p = 2 ∧ d.tableChecks p = 0)) ∧
    (∃ (d : Dev) (p : Fin 16), d.Takes p ∧ d.linked p = false ∧ d.snapBusy p = false ∧ (d.seqState p = 3 ∨ d.seqState p = 2 ∧ d.tableChecks p = 0) ∧ d.g (pPTN p) PTN_STEP_COUNT_COUNT ≠ 0) ∧
    (∃ (d : Dev) (p : Fin 16), d.Takes p ∧ d.linked p = false ∧ d.snapBusy p = false ∧ d.seqState p = 3 ∧ d.g (pPTN p) PTN_STEP_COUNT_COUNT ≠ 0) ∧
    (∃ (d : Dev) (p : Fin 16), d.Takes p ∧ d.linked p = false ∧ d.seqState p ≠ 0 ∧ d.snapBusy p = false) ∧
    (∃ (d : Dev) (p : Fin 16), d.Takes p ∧ d.linked p = false ∧ (d.seqState p = 1 ∧ d.settling p = false ∨ d.seqState p = 3)) ∧
    (∃ (d : Dev) (p : Fin 16), d.Takes p ∧ d.linked p = false ∧ d.seqState p = 1 ∧ d.settling p = false ∧ (d.ptnAt p).due = .none) ∧
    (∃ (d : Dev) (p : Fin 16), d.Takes p ∧ d.linked p = false ∧ d.seqState p = 1 ∧ d.settling p = true) ∧
    (∃ (d : Dev) (p : Fin 16), d.Takes p ∧ d.linked p = true ∧ d.notLead p = false ∧ d.checksOf p 1 (d.g (pPTN p) PTN_STEP_COUNT_COUNT) = 0) ∧
    (∃ (d : Dev) (p : Fin 16), d.Takes p ∧ d.linked p = true ∧ d.refusal p 2 = 0) ∧
    (∃ (d : Dev) (p : Fin 16), d.Takes p ∧ d.linked p = true ∧ d.refusal p 5 = 0) ∧
    (∃ (d : Dev) (p : Fin 16), d.Takes p ∧ d.linked p = true ∧ d.refusal p 6 = 0) ∧
    (∃ (d : Dev) (p : Fin 16), d.Takes p ∧ d.linked p = true ∧ d.refusal p 7 = 0) :=
  ⟨⟨((((up.on (pPTN 3) PTN_SEQ_STATUS_LOADED).p (pPTN 3) (PTN_CLK_TYPE 0) 1).p (pPTN 3) (PTN_CLK_PERIOD 0) 4).p (pPTN 3) (PTN_CLK_HIGH 0) 2).p (pPTN 3) (PTN_ES_RISE 0) 1, 3, by decide +kernel⟩,
   ⟨up.p (pPTN 3) PTN_SEQ_STATUS_STATE 3, 3, by decide +kernel⟩,
   ⟨(up.p (pPTN 3) PTN_SEQ_STATUS_STATE 3).p (pPTN 3) PTN_STEP_COUNT_COUNT 5, 3, by decide +kernel⟩,
   ⟨(up.p (pPTN 3) PTN_SEQ_STATUS_STATE 3).p (pPTN 3) PTN_STEP_COUNT_COUNT 5, 3, by decide +kernel⟩,
   ⟨up.p (pPTN 3) PTN_SEQ_STATUS_STATE 2, 3, by decide +kernel⟩,
   ⟨up.p (pPTN 3) PTN_SEQ_STATUS_STATE 1, 3, by decide +kernel⟩,
   ⟨up.p (pPTN 3) PTN_SEQ_STATUS_STATE 1, 3, by decide +kernel⟩,
   ⟨(up.p (pPTN 3) PTN_SEQ_STATUS_STATE 1).modPtn 3 fun x => { x with settle := some 1 }, 3, by decide +kernel⟩,
   ⟨(((((((((up.on (pPTN 3) PTN_SEQ_CFG_LINKED).on (pPTN 3) PTN_LINK_CFG_LEAD).on pLNK LNK_SYS_STATUS_FREQ_LOCK)).on (pPTN 3) PTN_SEQ_STATUS_LOADED).p (pPTN 3) (PTN_CLK_TYPE 0) 1).p (pPTN 3) (PTN_CLK_PERIOD 0) 4).p (pPTN 3) (PTN_CLK_HIGH 0) 2).p (pPTN 3) (PTN_ES_RISE 0) 1), 3, by decide +kernel⟩,
   ⟨(((up.on (pPTN 3) PTN_SEQ_CFG_LINKED).on (pPTN 3) PTN_LINK_CFG_LEAD).on pLNK LNK_SYS_STATUS_FREQ_LOCK).p (pPTN 3) PTN_SEQ_STATUS_STATE 3, 3, by decide +kernel⟩,
   ⟨((((up.on (pPTN 3) PTN_SEQ_CFG_LINKED).on (pPTN 3) PTN_LINK_CFG_LEAD).on pLNK LNK_SYS_STATUS_FREQ_LOCK).p (pPTN 3) PTN_SEQ_STATUS_STATE 3).p (pPTN 3) PTN_STEP_COUNT_COUNT 5, 3, by decide +kernel⟩,
   ⟨((((up.on (pPTN 3) PTN_SEQ_CFG_LINKED).on (pPTN 3) PTN_LINK_CFG_LEAD).on pLNK LNK_SYS_STATUS_FREQ_LOCK).p (pPTN 3) PTN_SEQ_STATUS_STATE 3).p (pPTN 3) PTN_STEP_COUNT_COUNT 5, 3, by decide +kernel⟩,
   ⟨(((up.on (pPTN 3) PTN_SEQ_CFG_LINKED).on (pPTN 3) PTN_LINK_CFG_LEAD).on pLNK LNK_SYS_STATUS_FREQ_LOCK).p (pPTN 3) PTN_SEQ_STATUS_STATE 2, 3, by decide +kernel⟩⟩

theorem test_refused_sequencer_commands_set_cmd_err_met :
    (∃ (d : Dev) (p : Fin 16), d.Takes p ∧ d.refusal p 1 ≠ 0) ∧
    (∃ (d : Dev) (p : Fin 16), d.Takes p ∧ d.refusal p 2 ≠ 0) ∧
    (∃ (d : Dev) (p : Fin 16), d.Takes p ∧ d.refusal p 5 ≠ 0) ∧
    (∃ (d : Dev) (p : Fin 16), d.Takes p ∧ d.refusal p 6 ≠ 0) ∧
    (∃ (d : Dev) (p : Fin 16), d.Takes p ∧ d.refusal p 7 ≠ 0) ∧
    (∃ (d : Dev) (p : Fin 16), d.Takes p ∧ d.refusal p 3 ≠ 0) ∧
    (∃ (d : Dev) (p : Fin 16), d.Takes p ∧ d.refusal p 4 ≠ 0) ∧
    (∃ (d : Dev) (p code : Fin 16), d.Takes p ∧ (code.val = 0 ∨ 8 ≤ code.val)) :=
  ⟨⟨up, 3, by decide +kernel⟩,
   ⟨up, 3, by decide +kernel⟩,
   ⟨up, 3, by decide +kernel⟩,
   ⟨up, 3, by decide +kernel⟩,
   ⟨up, 3, by decide +kernel⟩,
   ⟨up, 3, by decide +kernel⟩,
   ⟨up, 3, by decide +kernel⟩,
   ⟨up, 3, 9, by decide +kernel⟩⟩

theorem test_first_failing_check_of_a_command_met :
    (∃ (d : Dev) (i cmd : Nat), d.linked i = false ∧ cmd ∈ [2, 5, 6]) ∧
    (∃ (d : Dev) (i cmd : Nat), d.linked i = true ∧ d.b (pPTN i) PTN_LINK_CFG_LEAD = false ∧ cmd ∈ [1, 2, 5, 6, 7]) :=
  ⟨⟨up, 3, 5, by decide⟩,
   ⟨up.on (pPTN 3) PTN_SEQ_CFG_LINKED, 3, 5, by decide⟩⟩

theorem test_boundary_events_freeze_met :
    (∃ (d : Dev) (p : Fin 16), d.active = true ∧ d.seqState p ≠ 0 ∧ (d.ptnAt p).due = .cascade) ∧
    (∃ (d : Dev) (p : Fin 16), d.active = true ∧ d.seqState p ≠ 0 ∧ (d.ptnAt p).due = .runLimit) ∧
    (∃ (d : Dev) (p : Fin 16), d.active = true ∧ d.seqState p ≠ 0 ∧ (d.ptnAt p).due = .stepCycles) ∧
    (∃ (d : Dev) (p : Fin 16), d.active = true ∧ d.seqState p ≠ 0 ∧ (d.ptnAt p).due = .stepSteps) ∧
    (∃ (d : Dev) (p : Fin 16), d.active = true ∧ (d.ptnAt p).due = .none ∧ (d.ptnAt p).stepsLeft = some 0) ∧
    (∃ (d : Dev) (p : Fin 16) (es seg u n : Nat) (segs : List SegRun) (rest : List EsRun), d.active = true ∧ (d.ptnAt p).runs = ⟨es, ⟨seg, u, n⟩ :: segs⟩ :: rest ∧ d.b (pPTN p) PTN_SEQ_STATUS_STALLED = true ∧ d.blockers p u = 0) ∧
    (∃ (d : Dev) (p : Fin 16) (c : Nat) (cs : List Nat), d.active = true ∧ d.seqState p = 1 ∧ d.settling p = false ∧ d.b (pPTN p) PTN_SEQ_STATUS_FREEZE_PENDING = true ∧ d.b (pPTN p) PTN_SEQ_STATUS_STALLED = true ∧ d.g (pPTN p) PTN_FREEZE_CFG_TIMEOUT ≠ 0 ∧ d.linked p = false ∧ (d.ptnAt p).pend = c :: cs) :=
  ⟨⟨(up.p (pPTN 3) PTN_SEQ_STATUS_STATE 1).modPtn 3 fun x => { x with due := .cascade }, 3, by decide +kernel⟩,
   ⟨(up.p (pPTN 3) PTN_SEQ_STATUS_STATE 1).modPtn 3 fun x => { x with due := .runLimit }, 3, by decide +kernel⟩,
   ⟨(up.p (pPTN 3) PTN_SEQ_STATUS_STATE 1).modPtn 3 fun x => { x with due := .stepCycles }, 3, by decide +kernel⟩,
   ⟨(up.p (pPTN 3) PTN_SEQ_STATUS_STATE 1).modPtn 3 fun x => { x with due := .stepSteps }, 3, by decide +kernel⟩,
   ⟨up.modPtn 3 fun x => { x with stepsLeft := some 0 }, 3, by decide +kernel⟩,
   ⟨((up.p (pPTN 3) PTN_SEQ_STATUS_STATE 1).on (pPTN 3) PTN_SEQ_STATUS_STALLED).modPtn 3 fun x => { x with runs := [⟨0, [⟨0, 2, 1⟩]⟩] }, 3, 0, 0, 2, 1, [], [], by decide +kernel⟩,
   ⟨(((up.p (pPTN 3) PTN_SEQ_STATUS_STATE 1).on (pPTN 3) PTN_SEQ_STATUS_STALLED).on (pPTN 3) PTN_SEQ_STATUS_FREEZE_PENDING).p (pPTN 3) PTN_FREEZE_CFG_TIMEOUT 7 |>.modPtn 3 fun x => { x with pend := [1] }, 3, 1, [], by decide +kernel⟩⟩

theorem test_bp_words_compute_and_write_met :
    (∃ w : Nat, w.testBit 77 = true) ∧
    (∃ (b w : Nat), w.testBit 77 = false ∧ b < 64) :=
  ⟨⟨2 ^ 77, by decide⟩,
   ⟨3, 0, by decide⟩⟩

theorem test_simultaneous_writers_rank_met :
    (∃ (t : Nat) (ws : List Wr), t < 32 ∧ ws ≠ [] ∧ ∀ w ∈ ws, w.tile.2 < 32) ∧
    (∃ (d : Dev) (i u n : Nat), d.portsRun i n u = true) :=
  ⟨⟨3, [.word 2 3 0x10 5, .word 2 3 0x10 6], by decide⟩,
   ⟨up, 3, 7, 2, by decide⟩⟩

theorem test_design_memory_port_events_met :
    (∃ (d : Dev) (n m a : Nat), a < 8192 * Dev.perRow (d.g (pCLU n) (CLU_DMEM_CFG_WIDTH m)) ∧ (d.cluAt n).dwr = [⟨m, a, 5⟩] ∧ secdedCheck 96 103 (d.rowEcc (ixRow n m (a % 8192))).data.toNat (d.rowEcc (ixRow n m (a % 8192))).chk.toNat = .ok) ∧
    (∃ (d : Dev) (a : Nat), 8192 * Dev.perRow (d.g (pCLU 2) (CLU_DMEM_CFG_WIDTH 1)) ≤ a) ∧
    (∃ d : Dev, d.g (pCLU 2) (CLU_DMEM_EV_PORT 1 3) = 2) ∧
    (∃ d : Dev, d.g (pCLU 2) (CLU_DMEM_EV_PORT 1 3) ≠ 2 ∧ (8192 * Dev.perRow (d.g (pCLU 2) (CLU_DMEM_CFG_WIDTH 1)) ≤ d.wss 2 0 0 % 2 ^ 20)) ∧
    (∃ d : Dev, (d.ptnAt 3).fusedMask.testBit 1 = false ∧ ((d.cluAt 2).drd ≠ []) ∧ (∀ r ∈ (d.cluAt 2).drd, r.m < 8 ∧ r.e < 16)) :=
  ⟨⟨(up.p (pCLU 2) (CLU_DMEM_CFG_WIDTH 1) 16).modClu 2 fun c => { c with dwr := [⟨1, 8195, 5⟩] }, 2, 1, 8195, by decide +kernel⟩,
   ⟨up, 0, by decide⟩,
   ⟨up.p (pCLU 2) (CLU_DMEM_EV_PORT 1 3) 2, by decide⟩,
   ⟨up.p (pCLU 2) (CLU_DMEM_EV_PORT 1 3) 1, by decide⟩,
   ⟨up.modClu 2 fun c => { c with drd := [⟨1, 3, false, 0, 0, 16, 5⟩] }, by decide⟩⟩

theorem test_signal_fabric_moves_values_met :
    (∃ (d : Dev) (w : Nat), d.srcOf 3 2 7 = some (2, 7) ∧ d.portWord (ixPort 2 5 1 7) = some w ∧ w.testBit 0 = true ∧ SMap.get? d.fab (regTile 2 5 1) = none) ∧
    (∃ (d : Dev) (v : Sig), SMap.get? d.fab (regTile 2 5 1) = some v) ∧
    (∃ (d : Dev) (w : Nat), 2 ∈ d.execClusters 3 ∧ d.srcOf 3 2 7 = some (2, 7) ∧ d.portWord (ixPort 2 5 1 7) = some w ∧ w.testBit 0 = true ∧ w.testBit 14 = true) ∧
    (∃ (d : Dev) (w : Nat) (v : Sig), d.srcOf 3 2 7 = some (2, 7) ∧ d.portWord (ixPort 2 6 (8 + 1) 7) = some w ∧ w % 64 ≤ 32 ∧ Dev.probe 3 7 0 d Dev.chainFuel 2 (w % 64) 1 = some (v, 1) ∧ v.undef = false) :=
  ⟨⟨fabDev 3, 3, by decide +kernel⟩,
   ⟨{ up with fab := [(regTile 2 5 1, ⟨true, 9, false⟩)] }, ⟨true, 9, false⟩, by decide⟩,
   ⟨fabDev 0x4003, 0x4003, by decide +kernel⟩,
   ⟨(fabDev 3).setPort (ixPort 2 6 9 7) (freshPar 16 (5 + 64 * 4)), 5 + 64 * 4, ⟨true, 0, false⟩, by decide +kernel⟩⟩

theorem test_execute_step_takes_one_step_met :
    (∃ (d : Dev) (p : Fin 16), d.active = true ∧ d.seqState p = 1 ∧ (d.ptnAt p).settle = none ∧ (d.ptnAt p).due = .none ∧ (d.ptnAt p).freezeAt.any (fun f => f.2.2 && f.1 ≤ (d.ptnAt p).exec) = false ∧ d.b (pPTN p) PTN_POSITION_IN_CYCLE = true ∧ d.linked p = false ∧ (d.ptnAt p).idle ≠ 0) ∧
    (∃ (d : Dev) (p : Fin 16) (es seg u n : Nat) (segs : List SegRun) (rest : List EsRun), d.active = true ∧ d.seqState p = 1 ∧ (d.ptnAt p).settle = none ∧ (d.ptnAt p).due = .none ∧ (d.ptnAt p).freezeAt.any (fun f => f.2.2 && f.1 ≤ (d.ptnAt p).exec) = false ∧ d.b (pPTN p) PTN_POSITION_IN_CYCLE = true ∧ d.linked p = false ∧ (d.ptnAt p).idle = 0 ∧ (d.ptnAt p).runs = ⟨es, ⟨seg, u, n⟩ :: segs⟩ :: rest ∧ d.blockers p u = 0) ∧
    (∃ (d : Dev) (p : Fin 16) (es seg u n : Nat) (segs : List SegRun) (rest : List EsRun), d.active = true ∧ d.seqState p = 1 ∧ (d.ptnAt p).settle = none ∧ (d.ptnAt p).due = .none ∧ (d.ptnAt p).freezeAt.any (fun f => f.2.2 && f.1 ≤ (d.ptnAt p).exec) = false ∧ d.b (pPTN p) PTN_POSITION_IN_CYCLE = true ∧ d.linked p = false ∧ (d.ptnAt p).idle = 0 ∧ (d.ptnAt p).runs = ⟨es, ⟨seg, u, n⟩ :: segs⟩ :: rest ∧ d.blockers p u ≠ 0) ∧
    (∃ (d : Dev) (p : Fin 16), d.active = true ∧ d.seqState p = 1 ∧ (d.ptnAt p).settle = none ∧ (d.ptnAt p).due ≠ .none) :=
  ⟨⟨((up.p (pPTN 3) PTN_SEQ_STATUS_STATE 1).on (pPTN 3) PTN_POSITION_IN_CYCLE).modPtn 3 fun x => { x with idle := 2 }, 3, by decide +kernel⟩,
   ⟨((up.p (pPTN 3) PTN_SEQ_STATUS_STATE 1).on (pPTN 3) PTN_POSITION_IN_CYCLE).modPtn 3 fun x => { x with runs := [⟨0, [⟨0, 2, 1⟩]⟩] }, 3, 0, 0, 2, 1, [], [], by decide +kernel⟩,
   ⟨(((((((up.p (pPTN 3) PTN_SEQ_STATUS_STATE 1).on (pPTN 3) PTN_POSITION_IN_CYCLE).p pDEV (DEV_DIR_STATE 3) 1).p pDEV (DEV_DIR_MASK 3) 1).on (pCLU 0) (CLU_FMP_V 0)).p (pCLU 0) (CLU_FMP_USE 0) 2).setFar 0 0 [⟨false, true, 0, [], 4, false, none⟩]).modPtn 3 fun x => { x with runs := [⟨0, [⟨0, 2, 1⟩]⟩] }, 3, 0, 0, 2, 1, [], [], by decide +kernel⟩,
   ⟨(up.p (pPTN 3) PTN_SEQ_STATUS_STATE 1).modPtn 3 fun x => { x with due := .runLimit }, 3, by decide +kernel⟩⟩

theorem test_settling_tables_and_write_backs_met :
    (∃ (d : Dev) (p : Fin 16) (c : Nat), d.active = true ∧ (d.ptnAt p).settle = some c ∧ d.farSettled p = true ∧ d.seqState p = 1) ∧
    (∃ (d : Dev) (p : Fin 16) (off : Nat) (v : W32), d.Takes p ∧ 0x200 ≤ off ∧ off < 0x600 ∧ off % 4 = 0 ∧ (d.seqState p = 0 ∨ d.seqState p = 2)) ∧
    (∃ (d : Dev) (p : Fin 16) (off : Nat) (v : W32), d.Takes p ∧ 0x200 ≤ off ∧ off < 0x600 ∧ off % 4 = 0 ∧ (d.seqState p = 1 ∨ d.seqState p = 3)) ∧
    (∃ (d : Dev) (n : Fin 64) (t : Fin 32) (unit : Fin 64) (a : Fin 256) (v x : Nat), d.active = true ∧ (d.cluAt n).bpBack.contains (ixBp n t unit a) = true ∧ secdedCheck 80 87 (d.bpWord (ixBp n t unit a)).data.toNat (d.bpWord (ixBp n t unit a)).chk.toNat = .ce v x) ∧
    (∃ (d : Dev) (n : Fin 64) (t : Fin 32) (unit : Fin 64) (a : Fin 256) (v x : Nat), d.active = true ∧ (d.cluAt n).wlBack.contains (ixWa n t (unit.val % 2) a) = true ∧ secdedCheck 96 103 (d.waWord (ixWa n t (unit.val % 2) a)).data.toNat (d.waWord (ixWa n t (unit.val % 2) a)).chk.toNat = .ce v x) ∧
    (∃ (d : Dev) (n : Fin 64) (m : Fin 8) (row : Fin 8192) (v x : Nat), d.active = true ∧ (d.cluAt n).rowBack.contains (ixRow n m row) = true ∧ secdedCheck 96 103 (d.rowEcc (ixRow n m row)).data.toNat (d.rowEcc (ixRow n m row)).chk.toNat = .ce v x) :=
  ⟨⟨(up.p (pPTN 3) PTN_SEQ_STATUS_STATE 1).modPtn 3 fun x => { x with settle := some 2 }, 3, 2, by decide +kernel⟩,
   ⟨up, 3, 0x204, 7, by decide +kernel⟩,
   ⟨up.p (pPTN 3) PTN_SEQ_STATUS_STATE 1, 3, 0x204, 7, by decide +kernel⟩,
   ⟨bpFlip, 2, 3, 5, 9, holdWord.toNat, 131, by decide +kernel⟩,
   ⟨waFlip, 2, 3, 1, 9, 0, 131, by decide +kernel⟩,
   ⟨rowFlip, 2, 3, 5, 0, 131, by decide +kernel⟩⟩

theorem test_linked_messages_arrive_met :
    (∃ (d : Dev) (g p : Fin 16) (cmd : Fin 16) (count : W32) (dist : Nat), d.active = true ∧ d.al2 g = true ∧ d.linked p = true ∧ cmd ≠ 3 ∧ cmd ≠ 4) ∧
    (∃ (d : Dev) (g p : Fin 16) (count : W32) (dist : Nat) (f : Dev), d.active = true ∧ d.al2 g = true ∧ d.linked p = true ∧ f = d.passOn p g 6 (Dev.cmdBody p 3 count.toNat (dist + d.g pLNK (LNK_BUDGET_BUDGET g) + 2)) ∧ f.settling p = false ∧ (f.seqState p = 1 ∨ f.seqState p = 3)) ∧
    (∃ (d : Dev) (g p : Fin 16) (count : W32) (dist : Nat) (f : Dev), d.active = true ∧ d.al2 g = true ∧ d.linked p = true ∧ f = d.passOn p g 6 (Dev.cmdBody p 4 count.toNat (dist + d.g pLNK (LNK_BUDGET_BUDGET g) + 2)) ∧ f.settling p = false ∧ f.seqState p = 1) ∧
    (∃ (d : Dev) (p : Fin 16) (cmd count : Nat) (rest : List (Nat × Nat)), d.active = true ∧ (d.ptnAt p).linkCmd = (cmd, count) :: rest ∧ (d.modPtn p fun x => { x with linkCmd := rest }).checksOf p cmd count = 0) ∧
    (∃ (d : Dev) (p : Fin 16) (cmd count k : Nat) (rest : List (Nat × Nat)), d.active = true ∧ (d.ptnAt p).linkCmd = (cmd, count) :: rest ∧ (d.modPtn p fun x => { x with linkCmd := rest }).checksOf p cmd count = k ∧ k ≠ 0) ∧
    (∃ (d : Dev) (g p : Fin 16) (e : Nat) (f : Dev), d.active = true ∧ d.al2 g = true ∧ d.linked p = true ∧ f = d.passOn p g 3 (p.val ||| e <<< 4) ∧ (f.ptnAt p).exec ≤ e ∧ (f.ptnAt p).holds.any (fun h => h.e == e) = false) ∧
    (∃ (d : Dev) (g p : Fin 16) (e : Nat) (f : Dev), d.active = true ∧ d.al2 g = true ∧ d.linked p = true ∧ f = d.passOn p g 3 (p.val ||| e <<< 4) ∧ (f.ptnAt p).exec ≤ e ∧ (f.ptnAt p).holds.any (fun h => h.e == e) = true) ∧
    (∃ (d : Dev) (g p : Fin 16) (e : Nat) (f : Dev), d.active = true ∧ d.al2 g = true ∧ d.linked p = true ∧ f = d.passOn p g 3 (p.val ||| e <<< 4) ∧ e < (f.ptnAt p).exec) ∧
    (∃ (d : Dev) (g p : Fin 16) (e : Nat), d.active = true ∧ d.al2 g = true ∧ d.linked p = true) ∧
    (∃ (d : Dev) (g p : Fin 16) (e : Nat), d.active = true ∧ d.al2 g = true ∧ d.linked p = true) ∧
    (∃ (d : Dev) (p : Fin 16), d.active = true ∧ (d.ptnAt p).holds.any (fun h => h.e == (d.ptnAt p).exec && h.go) = true) ∧
    (∃ (d : Dev) (g p : Fin 16) (cycle : BitVec 48) (count : Nat), d.active = true ∧ d.al2 g = true ∧ d.linked p = true) ∧
    (∃ (d : Dev) (g p : Fin 16) (e : Nat) (intact : Bool), d.active = true ∧ d.al2 g = false) ∧
    (∃ (d : Dev) (g p : Fin 16) (e : Nat) (intact : Bool), d.active = true ∧ d.al2 g = false) ∧
    (∃ (d : Dev) (g p : Fin 16) (e : Nat) (intact : Bool), d.active = true ∧ d.al2 g = false) ∧
    (∃ (d : Dev) (g p : Fin 16) (cycle : BitVec 48) (count : Nat) (intact : Bool), d.active = true ∧ d.al2 g = false) ∧
    (∃ (d : Dev) (g p cmd : Fin 16) (count : W32) (dist : Nat) (intact : Bool), d.active = true ∧ d.al2 g = false) ∧
    (∃ (d : Dev) (g p cmd : Fin 16) (count : W32) (dist : Nat), d.active = true ∧ d.al2 g = true) ∧
    (∃ (d : Dev) (g p : Fin 16) (e : Nat), d.active = true ∧ d.al2 g = true) ∧
    (∃ (d : Dev) (g p : Fin 16) (e : Nat), d.active = true ∧ d.al2 g = true) ∧
    (∃ (d : Dev) (g p : Fin 16) (e : Nat), d.active = true ∧ d.al2 g = true) ∧
    (∃ (d : Dev) (g p : Fin 16) (cycle : BitVec 48) (count : Nat), d.active = true ∧ d.al2 g = true) ∧
    (∃ (d : Dev) (g : Fin 16) (ns : W64) (frac : BitVec 16) (hops : Nat) (master : Fin 512), d.active = true ∧ d.g (pLGRP g) LGRP_STATUS_STATE = 4) ∧
    (∃ (d : Dev) (g : Fin 16) (origin : Fin 512) (seq : Byte), d.active = true ∧ d.g (pLGRP g) LGRP_STATUS_STATE = 4) :=
  ⟨⟨(((up.on (pPTN 3) PTN_SEQ_CFG_LINKED).on (pPTN 3) PTN_LINK_CFG_LEAD).p (pLGRP 1) LGRP_STATUS_STATE 4).p (pLGRP 1) LGRP_STATUS_VER 2, 1, 3, 2, 7, 4, by decide +kernel⟩,
   ⟨((((up.on (pPTN 3) PTN_SEQ_CFG_LINKED).on (pPTN 3) PTN_LINK_CFG_LEAD).p (pLGRP 1) LGRP_STATUS_STATE 4).p (pLGRP 1) LGRP_STATUS_VER 2).p (pPTN 3) PTN_SEQ_STATUS_STATE 1, 1, 3, 7, 4, (((((up.on (pPTN 3) PTN_SEQ_CFG_LINKED).on (pPTN 3) PTN_LINK_CFG_LEAD).p (pLGRP 1) LGRP_STATUS_STATE 4).p (pLGRP 1) LGRP_STATUS_VER 2).p (pPTN 3) PTN_SEQ_STATUS_STATE 1).passOn 3 1 6 (Dev.cmdBody 3 3 7 (4 + (((((up.on (pPTN 3) PTN_SEQ_CFG_LINKED).on (pPTN 3) PTN_LINK_CFG_LEAD).p (pLGRP 1) LGRP_STATUS_STATE 4).p (pLGRP 1) LGRP_STATUS_VER 2).p (pPTN 3) PTN_SEQ_STATUS_STATE 1).g pLNK (LNK_BUDGET_BUDGET 1) + 2)), by decide +kernel⟩,
   ⟨((((up.on (pPTN 3) PTN_SEQ_CFG_LINKED).on (pPTN 3) PTN_LINK_CFG_LEAD).p (pLGRP 1) LGRP_STATUS_STATE 4).p (pLGRP 1) LGRP_STATUS_VER 2).p (pPTN 3) PTN_SEQ_STATUS_STATE 1, 1, 3, 7, 4, (((((up.on (pPTN 3) PTN_SEQ_CFG_LINKED).on (pPTN 3) PTN_LINK_CFG_LEAD).p (pLGRP 1) LGRP_STATUS_STATE 4).p (pLGRP 1) LGRP_STATUS_VER 2).p (pPTN 3) PTN_SEQ_STATUS_STATE 1).passOn 3 1 6 (Dev.cmdBody 3 4 7 (4 + (((((up.on (pPTN 3) PTN_SEQ_CFG_LINKED).on (pPTN 3) PTN_LINK_CFG_LEAD).p (pLGRP 1) LGRP_STATUS_STATE 4).p (pLGRP 1) LGRP_STATUS_VER 2).p (pPTN 3) PTN_SEQ_STATUS_STATE 1).g pLNK (LNK_BUDGET_BUDGET 1) + 2)), by decide +kernel⟩,
   ⟨((up.p (pPTN 3) PTN_SEQ_STATUS_STATE 1).modPtn 3 fun x => { x with linkCmd := [(7, 0)] }), 3, 7, 0, [], by decide +kernel⟩,
   ⟨(up.modPtn 3 fun x => { x with linkCmd := [(7, 0)] }), 3, 7, 0, 1, [], by decide +kernel⟩,
   ⟨(((up.on (pPTN 3) PTN_SEQ_CFG_LINKED).on (pPTN 3) PTN_LINK_CFG_LEAD).p (pLGRP 1) LGRP_STATUS_STATE 4).p (pLGRP 1) LGRP_STATUS_VER 2, 1, 3, 5, ((((up.on (pPTN 3) PTN_SEQ_CFG_LINKED).on (pPTN 3) PTN_LINK_CFG_LEAD).p (pLGRP 1) LGRP_STATUS_STATE 4).p (pLGRP 1) LGRP_STATUS_VER 2).passOn 3 1 3 (3 ||| 5 <<< 4), by decide +kernel⟩,
   ⟨((((up.on (pPTN 3) PTN_SEQ_CFG_LINKED).on (pPTN 3) PTN_LINK_CFG_LEAD).p (pLGRP 1) LGRP_STATUS_STATE 4).p (pLGRP 1) LGRP_STATUS_VER 2).modPtn 3 fun x => { x with holds := [⟨5, false, false, false, 1, 0⟩] }, 1, 3, 5, ((((((up.on (pPTN 3) PTN_SEQ_CFG_LINKED).on (pPTN 3) PTN_LINK_CFG_LEAD).p (pLGRP 1) LGRP_STATUS_STATE 4).p (pLGRP 1) LGRP_STATUS_VER 2).modPtn 3 fun x => { x with holds := [⟨5, false, false, false, 1, 0⟩] })).passOn 3 1 3 (3 ||| 5 <<< 4), by decide +kernel⟩,
   ⟨((((up.on (pPTN 3) PTN_SEQ_CFG_LINKED).on (pPTN 3) PTN_LINK_CFG_LEAD).p (pLGRP 1) LGRP_STATUS_STATE 4).p (pLGRP 1) LGRP_STATUS_VER 2).modPtn 3 fun x => { x with exec := 9 }, 1, 3, 5, ((((((up.on (pPTN 3) PTN_SEQ_CFG_LINKED).on (pPTN 3) PTN_LINK_CFG_LEAD).p (pLGRP 1) LGRP_STATUS_STATE 4).p (pLGRP 1) LGRP_STATUS_VER 2).modPtn 3 fun x => { x with exec := 9 })).passOn 3 1 3 (3 ||| 5 <<< 4), by decide +kernel⟩,
   ⟨(((up.on (pPTN 3) PTN_SEQ_CFG_LINKED).on (pPTN 3) PTN_LINK_CFG_LEAD).p (pLGRP 1) LGRP_STATUS_STATE 4).p (pLGRP 1) LGRP_STATUS_VER 2, 1, 3, 5, by decide +kernel⟩,
   ⟨(((up.on (pPTN 3) PTN_SEQ_CFG_LINKED).on (pPTN 3) PTN_LINK_CFG_LEAD).p (pLGRP 1) LGRP_STATUS_STATE 4).p (pLGRP 1) LGRP_STATUS_VER 2, 1, 3, 5, by decide +kernel⟩,
   ⟨up.modPtn 3 fun x => { x with holds := [⟨0, true, true, true, 1, 1⟩] }, 3, by decide +kernel⟩,
   ⟨(((up.on (pPTN 3) PTN_SEQ_CFG_LINKED).on (pPTN 3) PTN_LINK_CFG_LEAD).p (pLGRP 1) LGRP_STATUS_STATE 4).p (pLGRP 1) LGRP_STATUS_VER 2, 1, 3, 5, 7, by decide +kernel⟩,
   ⟨(up.on (pPTN 3) PTN_SEQ_CFG_LINKED).on (pPTN 3) PTN_LINK_CFG_LEAD, 1, 3, 5, true, by decide +kernel⟩,
   ⟨(up.on (pPTN 3) PTN_SEQ_CFG_LINKED).on (pPTN 3) PTN_LINK_CFG_LEAD, 1, 3, 5, true, by decide +kernel⟩,
   ⟨(up.on (pPTN 3) PTN_SEQ_CFG_LINKED).on (pPTN 3) PTN_LINK_CFG_LEAD, 1, 3, 5, true, by decide +kernel⟩,
   ⟨(up.on (pPTN 3) PTN_SEQ_CFG_LINKED).on (pPTN 3) PTN_LINK_CFG_LEAD, 1, 3, 5, 7, true, by decide +kernel⟩,
   ⟨(up.on (pPTN 3) PTN_SEQ_CFG_LINKED).on (pPTN 3) PTN_LINK_CFG_LEAD, 1, 3, 2, 7, 4, true, by decide +kernel⟩,
   ⟨(((up.on (pPTN 3) PTN_SEQ_CFG_LINKED).on (pPTN 3) PTN_LINK_CFG_LEAD).p (pLGRP 1) LGRP_STATUS_STATE 4).p (pLGRP 1) LGRP_STATUS_VER 2, 1, 3, 2, 7, 4, by decide +kernel⟩,
   ⟨(((up.on (pPTN 3) PTN_SEQ_CFG_LINKED).on (pPTN 3) PTN_LINK_CFG_LEAD).p (pLGRP 1) LGRP_STATUS_STATE 4).p (pLGRP 1) LGRP_STATUS_VER 2, 1, 3, 5, by decide +kernel⟩,
   ⟨(((up.on (pPTN 3) PTN_SEQ_CFG_LINKED).on (pPTN 3) PTN_LINK_CFG_LEAD).p (pLGRP 1) LGRP_STATUS_STATE 4).p (pLGRP 1) LGRP_STATUS_VER 2, 1, 3, 5, by decide +kernel⟩,
   ⟨(((up.on (pPTN 3) PTN_SEQ_CFG_LINKED).on (pPTN 3) PTN_LINK_CFG_LEAD).p (pLGRP 1) LGRP_STATUS_STATE 4).p (pLGRP 1) LGRP_STATUS_VER 2, 1, 3, 5, by decide +kernel⟩,
   ⟨(((up.on (pPTN 3) PTN_SEQ_CFG_LINKED).on (pPTN 3) PTN_LINK_CFG_LEAD).p (pLGRP 1) LGRP_STATUS_STATE 4).p (pLGRP 1) LGRP_STATUS_VER 2, 1, 3, 5, 7, by decide +kernel⟩,
   ⟨(((up.on (pPTN 3) PTN_SEQ_CFG_LINKED).on (pPTN 3) PTN_LINK_CFG_LEAD).p (pLGRP 1) LGRP_STATUS_STATE 4).p (pLGRP 1) LGRP_STATUS_VER 2, 1, 0, 0, 0, 0, by decide +kernel⟩,
   ⟨(((up.on (pPTN 3) PTN_SEQ_CFG_LINKED).on (pPTN 3) PTN_LINK_CFG_LEAD).p (pLGRP 1) LGRP_STATUS_STATE 4).p (pLGRP 1) LGRP_STATUS_VER 2, 1, 0, 0, by decide +kernel⟩⟩

theorem test_lockstep_time_and_system_wide_commands_take_effect_met :
    (∃ (d : Dev) (r : BitVec 128), d.active = true ∧ d.lscLink = true ∧ d.b pLSC LSC_CFG_EN = true ∧ bitsAt r.toNat 112 4 = d.g pLSC LSC_CFG_PARTITION ∧ bitsAt r.toNat 116 4 = 1) ∧
    (∃ (d : Dev) (r : BitVec 128), d.active = true ∧ d.lscLink = true ∧ d.b pLSC LSC_CFG_EN = true ∧ bitsAt r.toNat 112 4 = d.g pLSC LSC_CFG_PARTITION ∧ bitsAt r.toNat 116 4 = 2) ∧
    (∃ (d : Dev), d.active = true ∧ d.b pLSC LSC_CFG_EN = true) ∧
    (∃ (d : Dev), d.active = true ∧ d.g pTSB TSB_CFG_ROLE = 1) ∧
    (∃ (d : Dev) (g : Fin 16) (ns : W64) (frac : BitVec 16) (hops : Nat) (master : Fin 512) (f h : Dev), d.active = true ∧ d.g pTSB TSB_CFG_ROLE = 2 ∧ d.g (pLGRP g) LGRP_STATUS_STATE = 4 ∧ f = { d with sys := { d.sys with heard := SMap.put d.sys.heard g.val (hops, master.val) } } ∧ h = (if f.sys.heard.any (fun x => x.2.2 ≠ master.val) then f.on pTSB TSB_STATUS_MULTI_MASTER else f) ∧ h.bestUpstream = some g.val) ∧
    (∃ (d : Dev), d.active = true ∧ d.g pTSB TSB_CFG_ROLE = 2) ∧
    (∃ (d : Dev), d.active = true ∧ d.b pTSB TSB_STATUS_HOLDING = true) ∧
    (∃ (d : Dev) (v : W64), d.Up ∧ d.g pTSB TSB_CFG_ROLE ≠ 2) ∧
    (∃ (d : Dev), d.Up) ∧
    (∃ (d : Dev) (g : Fin 16) (origin : Fin 512) (seq : Byte), d.active = true ∧ d.g (pLGRP g) LGRP_STATUS_STATE = 4 ∧ d.sys.seen.contains (origin.val, seq.toNat) = false) ∧
    (∃ (d : Dev) (g : Fin 16) (origin : Fin 512) (seq : Byte), d.active = true ∧ d.sys.seen.contains (origin.val, seq.toNat) = true) ∧
    (∃ (d : Dev), d.Up ∧ d.b pSNP SNP_SRC_EN_REG = true ∧ d.b pSNP SNP_SRC_EN_TX_STRING = false ∧ d.latchAt = none) ∧
    (∃ (d : Dev) (t : Nat), d.Up ∧ d.b pSNP SNP_SRC_EN_REG = true ∧ d.b pSNP SNP_SRC_EN_TX_STRING = false ∧ d.latchAt = some t ∧ d.ticks < t + 128) ∧
    (∃ (d : Dev), d.Up ∧ d.b pSNP SNP_SRC_EN_REG = true ∧ d.b pSNP SNP_SRC_EN_TX_STRING = true ∧ d.latchAt = none) ∧
    (∃ (d : Dev), d.Up ∧ d.b pSNP SNP_SRC_EN_REG = false) ∧
    (∃ (d : Dev) (src : Nat), d.active = true ∧ d.strobeSrc = some src) ∧
    (∃ (d : Dev), d.strobeSrc = none) :=
  ⟨⟨((((up.p (pLGRP 15) LGRP_STATUS_STATE 4).p (pLGRP 15) LGRP_STATUS_VER 2)).on pLSC LSC_CFG_EN).p pLSC LSC_CFG_PARTITION 3, BitVec.ofNat 128 (3 <<< 112 ||| 1 <<< 116), by decide +kernel⟩,
   ⟨((((up.p (pLGRP 15) LGRP_STATUS_STATE 4).p (pLGRP 15) LGRP_STATUS_VER 2)).on pLSC LSC_CFG_EN).p pLSC LSC_CFG_PARTITION 3, BitVec.ofNat 128 (3 <<< 112 ||| 2 <<< 116), by decide +kernel⟩,
   ⟨(up.on pLSC LSC_CFG_EN).p pLSC LSC_CFG_PARTITION 3, by decide +kernel⟩,
   ⟨up.p pTSB TSB_CFG_ROLE 1, by decide +kernel⟩,
   ⟨(up.p pTSB TSB_CFG_ROLE 2).p (pLGRP 1) LGRP_STATUS_STATE 4, 1, 5, 0, 0, 0, { ((up.p pTSB TSB_CFG_ROLE 2).p (pLGRP 1) LGRP_STATUS_STATE 4) with sys := { up.sys with heard := [(1, 0, 0)] } }, { ((up.p pTSB TSB_CFG_ROLE 2).p (pLGRP 1) LGRP_STATUS_STATE 4) with sys := { up.sys with heard := [(1, 0, 0)] } }, by decide +kernel⟩,
   ⟨up.p pTSB TSB_CFG_ROLE 2, by decide +kernel⟩,
   ⟨up.on pTSB TSB_STATUS_HOLDING, by decide +kernel⟩,
   ⟨up, 5, by decide +kernel⟩,
   ⟨up, by decide +kernel⟩,
   ⟨up.p (pLGRP 1) LGRP_STATUS_STATE 4, 1, 0, 0, by decide +kernel⟩,
   ⟨{ up with sys := { Sys.reset with seen := [(0, 0)] } }, 1, 0, 0, by decide +kernel⟩,
   ⟨up.on pSNP SNP_SRC_EN_REG, by decide +kernel⟩,
   ⟨{ up.on pSNP SNP_SRC_EN_REG with latchAt := some 0 }, 0, by decide +kernel⟩,
   ⟨((up.on pSNP SNP_SRC_EN_REG).on pSNP SNP_SRC_EN_TX_STRING), by decide +kernel⟩,
   ⟨up.p pSNP SNP_SRC_EN_REG 0, by decide +kernel⟩,
   ⟨{ up with strobeSrc := some 2 }, 2, by decide +kernel⟩,
   ⟨up, by decide +kernel⟩⟩

theorem test_cluster_page_far_and_transactor_commands_take_effect_met :
    (∃ (d : Dev) (n : Fin 64), d.Serves n) ∧
    (∃ (d : Dev) (n : Fin 64), d.Serves n) ∧
    (∃ (d : Dev) (n : Fin 64), d.Serves n) ∧
    (∃ (d : Dev) (n : Fin 64), d.Serves n) ∧
    (∃ (d : Dev) (n : Fin 64) (off : Nat) (v : W32), d.Serves n ∧ d.cfgOpen n = true ∧ off % 4 = 0 ∧ 0x400 ≤ off ∧ off < 0x800) ∧
    (∃ (d : Dev) (n : Fin 64) (off : Nat) (v : W32), d.Serves n ∧ d.cfgOpen n = true ∧ off % 4 = 0 ∧ 0x300 ≤ off ∧ off < 0x320) ∧
    (∃ (d : Dev) (n : Fin 64) (off : Nat) (v : W32), d.Serves n ∧ d.cfgOpen n = true ∧ off % 4 = 0 ∧ 0x240 ≤ off ∧ off < 0x280) ∧
    (∃ (d : Dev) (n : Fin 64) (off : Nat) (v : W32), d.Serves n ∧ d.cfgOpen n = true ∧ off % 4 = 0 ∧ 0x280 ≤ off ∧ off < 0x300) ∧
    (∃ (d : Dev) (n : Fin 64) (off : Nat) (v : W32), d.Serves n ∧ d.cfgOpen n = false) ∧
    (∃ (d : Dev) (n : Fin 64) (f : Fin 4) (k : Nat) (e : Dev) (a : FarAcc), d.active = true ∧ (d.farOf n f).findIdx? (fun a => !a.write && !a.done) = some k ∧ e = d.farReserve n f ∧ (e.farOf n f)[k]? = some a ∧ (a.tag.isNone && (decide (e.niState n ≠ 0) || e.hbmRouted n a.addr a.size)) = false ∧ (a.tag.isNone || e.routed (hbmDest a.addr) n) = true) ∧
    (∃ (d : Dev) (n : Fin 64) (f : Fin 4) (k : Nat) (e : Dev) (a : FarAcc), d.active = true ∧ (d.farOf n f).findIdx? (fun a => !a.write && !a.done) = some k ∧ e = d.farReserve n f ∧ (e.farOf n f)[k]? = some a ∧ a.tag.isSome = true ∧ e.routed (hbmDest a.addr) n = false) ∧
    (∃ (d : Dev) (n : Fin 64) (f : Fin 4) (k : Nat) (e : Dev) (a : FarAcc), d.active = true ∧ (d.farOf n f).findIdx? (fun a => a.write) = some k ∧ e = d.farReserve n f ∧ (e.farOf n f)[k]? = some a ∧ (a.tag.isNone && (decide (e.niState n ≠ 0) || e.hbmRouted n a.addr a.size)) = false ∧ (a.tag.isNone || e.routed (hbmDest a.addr) n) = true) ∧
    (∃ (d : Dev) (n : Fin 64) (x : Fin 8) (k : Nat), d.active = true ∧ d.portQueue n x = some k ∧ d.boundTo k = some (n.val, x.val) ∧ (d.queueAt k).copied < 4 ∧ (d.queueAt k).copied < (d.queueAt k).seen.length) ∧
    (∃ (d : Dev) (n : Fin 64) (x : Fin 8) (k : Nat), d.active = true ∧ d.portQueue n x = some k ∧ d.b (pCLU n) (CLU_TXP_DIR x) = true ∧ (d.queueAt k).priv = false ∧ d.creditsOf n x < 4 ∧ 0 < (d.queueAt k).free) :=
  ⟨⟨upn, 2, by decide +kernel⟩,
   ⟨upn, 2, by decide +kernel⟩,
   ⟨upn, 2, by decide +kernel⟩,
   ⟨upn, 2, by decide +kernel⟩,
   ⟨upn, 2, 0x400, 1, by decide +kernel⟩,
   ⟨upn, 2, 0x300, 1, by decide +kernel⟩,
   ⟨upn, 2, 0x240, 1, by decide +kernel⟩,
   ⟨upn, 2, 0x280, 1, by decide +kernel⟩,
   ⟨((upn.p pDEV (DEV_DIR_STATE 3) 1).p pDEV (DEV_DIR_MASK 3) 4).p (pPTN 3) PTN_SEQ_STATUS_STATE 1, 2, 0x400, 1, by decide +kernel⟩,
   ⟨(routed up 0x40 2).setFar 2 1 [{ write := false, valid := true, addr := 0, data := [], size := 4, done := false, tag := some 7 }], 2, 1, 0, (routed up 0x40 2).setFar 2 1 [{ write := false, valid := true, addr := 0, data := [], size := 4, done := false, tag := some 7 }], { write := false, valid := true, addr := 0, data := [], size := 4, done := false, tag := some 7 }, by decide +kernel⟩,
   ⟨(({ up with noc := { up.noc with routes := [(0x40 * 256 + 2, 0)] } } : Dev).setFar 2 1 [{ write := false, valid := true, addr := 0, data := [], size := 4, done := false, tag := some 7 }]), 2, 1, 0, (({ up with noc := { up.noc with routes := [(0x40 * 256 + 2, 0)] } } : Dev).setFar 2 1 [{ write := false, valid := true, addr := 0, data := [], size := 4, done := false, tag := some 7 }]), { write := false, valid := true, addr := 0, data := [], size := 4, done := false, tag := some 7 }, by decide +kernel⟩,
   ⟨(routed up 0x40 2).setFar 2 1 [{ write := true, valid := true, addr := 0, data := [1, 2], size := 2, done := false, tag := some 7 }], 2, 1, 0, (routed up 0x40 2).setFar 2 1 [{ write := true, valid := true, addr := 0, data := [1, 2], size := 2, done := false, tag := some 7 }], { write := true, valid := true, addr := 0, data := [1, 2], size := 2, done := false, tag := some 7 }, by decide +kernel⟩,
   ⟨tport, 2, 1, 20, by decide +kernel⟩,
   ⟨tportW, 2, 1, 20, by decide +kernel⟩⟩

theorem test_window_and_hbm_window_commands_take_effect_met :
    (∃ (d : Dev) (fn : Fn) (n : Fin 64) (w : Fin 16) (off : Nat) (f : Dev × Nat), d.active = true ∧ d.reach fn (pWIN n w) = .yes ∧ Dev.inAperture w off = true ∧ d.niState n = 0 ∧ d.Linked (some n) ∧ f = d.winRead n w off ∧ f.1.heard (some n) = true) ∧
    (∃ (d : Dev) (fn : Fn) (n : Fin 64) (w : Fin 16) (off : Nat) (v : W32), d.active = true ∧ d.reach fn (pWIN n w) = .yes ∧ Dev.inAperture w off = true ∧ d.niState n = 0 ∧ d.Linked (some n)) ∧
    (∃ (d : Dev) (fn : Fn) (n : Fin 64) (w : Fin 16) (off : Nat), d.active = true ∧ d.reach fn (pWIN n w) = .yes ∧ Dev.inAperture w off = true ∧ d.niState n ≠ 0 ∧ d.Linked (some n)) ∧
    (∃ (d : Dev) (fn : Fn) (n : Fin 64) (w : Fin 16) (off : Nat) (v : W32), d.active = true ∧ d.reach fn (pWIN n w) = .yes ∧ Dev.inAperture w off = true ∧ d.niState n ≠ 0 ∧ d.Linked (some n)) ∧
    (∃ (d : Dev) (fn : Fn) (n : Fin 64) (w : Fin 16) (off : Nat) (f : Dev), d.active = true ∧ d.reach fn (pWIN n w) = .yes ∧ Dev.inAperture w off = true ∧ d.niState n = 0 ∧ d.Linked (some n) ∧ d.cluSeq n = 1 ∧ d.g (pWIN n w) WIN_WIN_SEL_CLASS = 8 ∧ f = d.on (pWIN n w) WIN_WIN_STATUS_BUSY ∧ f.heard (some n) = true) ∧
    (∃ (d : Dev) (off len : Nat), d.active = true ∧ d.barServed .pf = true ∧ off < d.pwr.pfBar2) ∧
    (∃ (d : Dev) (i : Fin 16) (off len : Nat), d.active = true ∧ d.barServed (.vf i) = true ∧ off < d.pwr.vfBar2 / 2) ∧
    (∃ (d : Dev) (i : Fin 16) (off len : Nat), d.active = true ∧ d.barServed (.vf i) = true ∧ d.pwr.vfBar2 / 2 ≤ off ∧ off < d.pwr.vfBar2) ∧
    (∃ (d : Dev) (fn : Fn) (off len : Nat), d.active = true ∧ (d.barServed fn = false ∨ d.bar2Size fn ≤ off)) ∧
    (∃ (d : Dev) (off : Nat) (bytes : List Byte), d.active = true ∧ d.barServed .pf = true ∧ off < d.pwr.pfBar2) ∧
    (∃ (d : Dev) (i : Fin 16) (off : Nat) (bytes : List Byte), d.active = true ∧ d.barServed (.vf i) = true ∧ off < d.pwr.vfBar2 / 2) ∧
    (∃ (d : Dev) (i : Fin 16) (off : Nat) (bytes : List Byte), d.active = true ∧ d.barServed (.vf i) = true ∧ d.pwr.vfBar2 / 2 ≤ off ∧ off < d.pwr.vfBar2) ∧
    (∃ (d : Dev) (fn : Fn) (off : Nat) (bytes : List Byte), d.active = true ∧ (d.barServed fn = false ∨ d.bar2Size fn ≤ off)) ∧
    (∃ (d : Dev) (p : Fin 16) (off len : Nat), d.active = true ∧ d.barServed (.vf p) = true ∧ d.pwr.vfBar2 / 2 + off < d.pwr.vfBar2 ∧ d.b (pSLC p) SLC_CAPWIN_DIR = true) ∧
    (∃ (d : Dev) (p : Fin 16) (off len : Nat), d.active = true ∧ d.barServed (.vf p) = true ∧ d.pwr.vfBar2 / 2 + off < d.pwr.vfBar2 ∧ d.b (pSLC p) SLC_CAPWIN_DIR = false) :=
  ⟨⟨upn, .pf, 2, 1, 0x400, upn.winRead 2 1 0x400, by decide +kernel⟩,
   ⟨upn, .pf, 2, 1, 0x400, 5, by decide +kernel⟩,
   ⟨up, .pf, 2, 1, 0x400, by decide +kernel⟩,
   ⟨up, .pf, 2, 1, 0x400, 5, by decide +kernel⟩,
   ⟨(((upn.p pDEV (DEV_DIR_STATE 3) 1).p pDEV (DEV_DIR_MASK 3) 4).p (pPTN 3) PTN_SEQ_STATUS_STATE 1).p (pWIN 2 1) WIN_WIN_SEL_CLASS 8, .pf, 2, 1, 0x400, ((((upn.p pDEV (DEV_DIR_STATE 3) 1).p pDEV (DEV_DIR_MASK 3) 4).p (pPTN 3) PTN_SEQ_STATUS_STATE 1).p (pWIN 2 1) WIN_WIN_SEL_CLASS 8).on (pWIN 2 1) WIN_WIN_STATUS_BUSY, by decide +kernel⟩,
   ⟨up, 0, 4, by decide +kernel⟩,
   ⟨upvf, 3, 0, 4, by decide +kernel⟩,
   ⟨upvf, 3, 2 ^ 29, 4, by decide +kernel⟩,
   ⟨up, .vf 3, 0, 4, by decide +kernel⟩,
   ⟨up, 0, [1, 2], by decide +kernel⟩,
   ⟨upvf, 3, 0, [1, 2], by decide +kernel⟩,
   ⟨upvf, 3, 2 ^ 29, [1, 2], by decide +kernel⟩,
   ⟨up, .vf 3, 0, [1, 2], by decide +kernel⟩,
   ⟨upvf.on (pSLC 3) SLC_CAPWIN_DIR, 3, 0, 4, by decide +kernel⟩,
   ⟨upvf, 3, 0, 4, by decide +kernel⟩⟩

theorem test_window_write_rules_met : ∃ (d : Dev) (n w off c t m o : Nat), d.winTarget n w off = (c, t, m, o) :=
  ⟨up, 2, 1, 0x400, 0, 0, 0, 0, by decide +kernel⟩

theorem test_snapshot_commands_take_effect_met :
    (∃ (d : Dev) (p : Fin 16), d.Takes p ∧ d.snapBusy p = false ∧ d.snapRefusal p true = 0 ∧ (d.mntRequest (Dev.mntId 5 p 0) 0 0x10000 false).2 = none) ∧
    (∃ (d : Dev) (p : Fin 16), d.Takes p ∧ d.snapBusy p = false ∧ d.snapRefusal p true ≠ 0) ∧
    (∃ (d : Dev) (p : Fin 16), d.Takes p ∧ d.snapBusy p = true) ∧
    (∃ (d : Dev) (p : Fin 16), d.active = true ∧ d.g (pPTN p) PTN_SNAP_STATUS_STATE = 1) ∧
    (∃ (d : Dev) (p : Fin 16), d.Takes p ∧ d.snapBusy p = false ∧ d.snapRefusal p false = 0 ∧ (d.mntRequest (Dev.mntId 5 p 0) 0 0x10000 false).2 = none) ∧
    (∃ (d : Dev) (p : Fin 16), d.active = true ∧ d.g (pPTN p) PTN_SNAP_STATUS_STATE = 2) ∧
    (∃ (d : Dev) (p : Fin 16), d.active = true ∧ d.g (pPTN p) PTN_SNAP_STATUS_STATE = 3 ∧ (d.ptnAt p).retarget = false ∧ d.seqState p = 2 ∧ ((d.loadSnapshot p).ptnAt p).pend = []) ∧
    (∃ (d : Dev) (p : Fin 16) (f : Dev), d.active = true ∧ d.g (pPTN p) PTN_SNAP_STATUS_STATE = 3 ∧ (d.ptnAt p).retarget = false ∧ d.seqState p = 0 ∧ f = ((d.loadSnapshot p).p (pPTN p) PTN_SNAP_STATUS_PROGRESS (d.clustersOf p).length).frozenIrq p ∧ (f.ptnAt p).pend = []) ∧
    (∃ (d : Dev) (p : Fin 16), d.Takes p ∧ d.g (pPTN p) PTN_SNAP_STATUS_STATE = 1) ∧
    (∃ (d : Dev) (p : Fin 16), d.Takes p ∧ d.g (pPTN p) PTN_SNAP_STATUS_STATE = 2) ∧
    (∃ (d : Dev) (p : Fin 16), d.Takes p ∧ d.g (pPTN p) PTN_SNAP_STATUS_STATE = 3) :=
  ⟨⟨(up.on (pPTN 3) PTN_SEQ_STATUS_LOADED).p (pPTN 3) PTN_SNAP_SIZE_BYTES 8192, 3, by decide +kernel⟩,
   ⟨up, 3, by decide +kernel⟩,
   ⟨up.p (pPTN 3) PTN_SNAP_STATUS_STATE 1, 3, by decide +kernel⟩,
   ⟨up.p (pPTN 3) PTN_SNAP_STATUS_STATE 1, 3, by decide +kernel⟩,
   ⟨up.on (pPTN 3) PTN_SEQ_STATUS_LOADED, 3, by decide +kernel⟩,
   ⟨up.p (pPTN 3) PTN_SNAP_STATUS_STATE 2, 3, by decide +kernel⟩,
   ⟨(up.p (pPTN 3) PTN_SNAP_STATUS_STATE 3).p (pPTN 3) PTN_SEQ_STATUS_STATE 2, 3, by decide +kernel⟩,
   ⟨(up.p (pPTN 3) PTN_SNAP_STATUS_STATE 3), 3, ((((up.p (pPTN 3) PTN_SNAP_STATUS_STATE 3)).loadSnapshot 3).p (pPTN 3) PTN_SNAP_STATUS_PROGRESS ((up.p (pPTN 3) PTN_SNAP_STATUS_STATE 3).clustersOf 3).length).frozenIrq 3, by decide +kernel⟩,
   ⟨up.p (pPTN 3) PTN_SNAP_STATUS_STATE 1, 3, by decide +kernel⟩,
   ⟨up.p (pPTN 3) PTN_SNAP_STATUS_STATE 2, 3, by decide +kernel⟩,
   ⟨up.p (pPTN 3) PTN_SNAP_STATUS_STATE 3, 3, by decide +kernel⟩⟩

theorem test_partition_service_commands_take_effect_met :
    (∃ (d : Dev) (tag : Byte) (p : Fin 16) (vf : Bool) (mask shape : W64) (quota : W32), d.Up ∧ d.dirState p = 0 ∧ d.clustersTaken p mask.toNat = false ∧ Dev.badShape mask.toNat (shapeFused shape.toNat) = false ∧ d.queuesTaken p (shapeQbase shape.toNat) (shapeQcount shape.toNat) = false) ∧
    (∃ (d : Dev) (tag : Byte) (p : Fin 16), d.Up ∧ (d.dirState p = 1 ∨ d.dirState p = 2)) ∧
    (∃ (d : Dev) (tag : Byte) (p : Fin 16) (ret : Bool) (mask shape : W64), d.Up ∧ (d.takeService 0x12 tag.toNat (p.val + (if ret then 16 else 0)) [BitVec.ofNat 64 mask.toNat, BitVec.ofNat 64 shape.toNat]).resizeRefusal p ret mask.toNat shape.toNat = 0) ∧
    (∃ (d : Dev) (tag : Byte) (p : Fin 16) (ret : Bool) (mask shape : W64), d.Up ∧ (d.takeService 0x12 tag.toNat (p.val + (if ret then 16 else 0)) [BitVec.ofNat 64 mask.toNat, BitVec.ofNat 64 shape.toNat]).resizeRefusal p ret mask.toNat shape.toNat ≠ 0) ∧
    (∃ (d : Dev) (tag : Byte) (p : Fin 16), d.Up ∧ d.dirState p ≠ 0) ∧
    (∃ (d : Dev) (tag : Byte) (arg : W32), d.Up) ∧
    (∃ (d : Dev) (hdr : W64), d.Up ∧ d.servicePacket hdr = none ∧ (Dev.serviceLength (bitsAt hdr.toNat 0 8) ≠ some (bitsAt hdr.toNat 8 16) ∨ bitsAt hdr.toNat 8 16 ≠ 0)) ∧
    (∃ (d : Dev) (hdr : W64) (ws : List W64), d.Up ∧ d.servicePacket hdr = some ws ∧ (Dev.serviceLength (bitsAt hdr.toNat 0 8) ≠ some (bitsAt hdr.toNat 8 16) ∨ bitsAt hdr.toNat 8 16 ≠ ws.length)) ∧
    (∃ (d : Dev) (hdr : W64), d.Up ∧ d.servicePacket hdr = none ∧ bitsAt hdr.toNat 0 24 = 1) ∧
    (∃ (d : Dev) (tag : Byte) (p : Fin 16) (vf : Bool) (mask shape : W64) (quota : W32), d.Up ∧ d.dirState p ≠ 0) ∧
    (∃ (d : Dev) (tag : Byte) (p : Fin 16) (vf : Bool) (mask shape : W64) (quota : W32), d.Up ∧ d.dirState p = 0 ∧ d.clustersTaken p mask.toNat = true) ∧
    (∃ (d : Dev) (tag : Byte) (p : Fin 16) (vf : Bool) (mask shape : W64) (quota : W32), d.Up ∧ d.dirState p = 0 ∧ d.clustersTaken p mask.toNat = false ∧ Dev.badShape mask.toNat (shapeFused shape.toNat) = true) ∧
    (∃ (d : Dev) (tag : Byte) (p : Fin 16) (vf : Bool) (mask shape : W64) (quota : W32), d.Up ∧ d.dirState p = 0 ∧ d.clustersTaken p mask.toNat = false ∧ Dev.badShape mask.toNat (shapeFused shape.toNat) = false ∧ d.queuesTaken p (shapeQbase shape.toNat) (shapeQcount shape.toNat) = true) ∧
    (∃ (d : Dev) (tag : Byte) (p : Fin 16), d.Up ∧ d.dirState p = 0) ∧
    (∃ (d : Dev) (tag : Byte) (p : Fin 16), d.Up ∧ (d.dirState p = 3 ∨ d.dirState p = 4)) ∧
    (∃ (d : Dev) (tag : Byte) (p : Fin 16), d.Up ∧ d.dirState p = 0) :=
  ⟨⟨up, 7, 3, true, 4, 0x0001001400000000, 1, by decide +kernel⟩,
   ⟨ptn3, 7, 3, by decide +kernel⟩,
   ⟨ptn3, 7, 3, false, 12, 0x0001001400000000, by decide +kernel⟩,
   ⟨up, 7, 3, false, 12, 0, by decide +kernel⟩,
   ⟨ptn3, 7, 3, by decide +kernel⟩,
   ⟨up, 7, 5, by decide +kernel⟩,
   ⟨up, 0x99, by decide +kernel⟩,
   ⟨up.setQueue 0 { Queue.reset with en := true, words := [⟨0x99, true, false, []⟩] }, 0x99, [], by decide +kernel⟩,
   ⟨up, 1, by decide +kernel⟩,
   ⟨ptn3, 7, 3, true, 4, 0, 1, by decide +kernel⟩,
   ⟨ptn3, 7, 4, true, 4, 0, 1, by decide +kernel⟩,
   ⟨up, 7, 3, true, 0, 0, 1, by decide +kernel⟩,
   ⟨up, 7, 3, true, 4, 0, 1, by decide +kernel⟩,
   ⟨up, 7, 3, by decide +kernel⟩,
   ⟨up.p pDEV (DEV_DIR_STATE 3) 4, 7, 3, by decide +kernel⟩,
   ⟨up, 7, 3, by decide +kernel⟩⟩

theorem test_quota_gets_a_free_range_met : ∃ (d : Dev) (n a : Nat), d.placeQuota n ≠ none ∨ d.quotaFits a n = true :=
  ⟨up, 0x100000, 0, Or.inr (by decide +kernel)⟩

theorem test_partition_completions_take_effect_met :
    (∃ (d : Dev) (p : Fin 16), d.active = true ∧ d.dirState p = 4 ∧ d.carrying p (fun _ => true) = false ∧ d.carrying 16 (Dev.namesMoved true (d.g pDEV (DEV_DIR_QBASE p)) (d.g pDEV (DEV_DIR_QCOUNT p)) (d.g pDEV (DEV_DIR_QBASE p)) 0) = false ∧ d.allFenced (d.clustersOf p) = true) ∧
    (∃ (d : Dev) (p : Fin 16), d.active = true ∧ d.dirState p = 3 ∧ d.resizeWaits p = false) :=
  ⟨⟨up.p pDEV (DEV_DIR_STATE 3) 4, 3, by decide +kernel⟩,
   ⟨up.p pDEV (DEV_DIR_STATE 3) 3, 3, by decide +kernel⟩⟩

theorem test_boot_loader_commands_take_effect_met :
    (∃ (d : Dev), d.active = true ∧ d.reach .pf pLDR = .yes ∧ d.bootState = 1 ∧ 768 ≤ d.g pLDR LDR_BOOT_LEN_BYTES ∧ d.g pLDR LDR_BOOT_LEN_BYTES ≤ 0x400000) ∧
    (∃ (d : Dev), d.active = true ∧ d.reach .pf pLDR = .yes ∧ d.bootState = 1 ∧ (d.g pLDR LDR_BOOT_LEN_BYTES < 768 ∨ 0x400000 < d.g pLDR LDR_BOOT_LEN_BYTES)) ∧
    (∃ (d : Dev), d.active = true ∧ d.reach .pf pLDR = .yes ∧ (d.bootState = 2 ∨ d.bootState = 3)) ∧
    (∃ (d : Dev), d.active = true ∧ d.bootState = 2) ∧
    (∃ (d : Dev) (bs : List Byte), d.active = true ∧ d.bootState = 2 ∧ bs.length ≠ d.g pLDR LDR_BOOT_LEN_BYTES) ∧
    (∃ (d : Dev) (bs : List Byte), d.active = true ∧ d.bootState = 2 ∧ bs.length = d.g pLDR LDR_BOOT_LEN_BYTES) ∧
    (∃ (d : Dev), d.active = true ∧ d.bootState = 3) ∧
    (∃ (d : Dev), d.active = true ∧ d.bootState = 4) ∧
    (∃ (d : Dev), d.active = true ∧ d.reach .pf pLDR = .yes ∧ d.bootState = 5 ∧ (d.mntRequest (Dev.mntId 7 16 0) 0 0x10000 false).2 = none) ∧
    (∃ (d : Dev), d.active = true ∧ d.reach .pf pLDR = .yes ∧ d.bootState = 5 ∧ (d.mntRequest (Dev.mntId 7 16 0) 0 0x10000 false).2 ≠ none) ∧
    (∃ (d : Dev) (n : Nat), d.active = true ∧ d.boot.burn = some n) ∧
    (∃ (d : Dev) (n : Nat), d.active = true ∧ d.boot.burn = some n ∧ d.svnCount < n) :=
  ⟨⟨(up.p pLDR LDR_BOOT_STATUS_STATE 1).p pLDR LDR_BOOT_LEN_BYTES 1024, by decide +kernel⟩,
   ⟨up.p pLDR LDR_BOOT_STATUS_STATE 1, by decide +kernel⟩,
   ⟨up.p pLDR LDR_BOOT_STATUS_STATE 2, by decide +kernel⟩,
   ⟨up.p pLDR LDR_BOOT_STATUS_STATE 2, by decide +kernel⟩,
   ⟨up.p pLDR LDR_BOOT_STATUS_STATE 2, [1], by decide +kernel⟩,
   ⟨up.p pLDR LDR_BOOT_STATUS_STATE 2, [], by decide +kernel⟩,
   ⟨up.p pLDR LDR_BOOT_STATUS_STATE 3, by decide +kernel⟩,
   ⟨up.p pLDR LDR_BOOT_STATUS_STATE 4, by decide +kernel⟩,
   ⟨up.p pLDR LDR_BOOT_STATUS_STATE 5, by decide +kernel⟩,
   ⟨{ up.p pLDR LDR_BOOT_STATUS_STATE 5 with mnt := { slots := [(0, Dev.mntId 7 16 0)], wait := [] } }, by decide +kernel⟩,
   ⟨{ up with boot := { Boot.reset with burn := some 2 } }, 2, by decide +kernel⟩,
   ⟨{ up with boot := { Boot.reset with burn := some 2 } }, 2, by decide +kernel⟩⟩

theorem test_owner_and_token_commands_take_effect_met :
    (∃ (d : Dev) (tag : Byte) (ws : Words), d.Up ∧ ws.length = 6 ∧ d.boot.ownerProv = false) ∧
    (∃ (d : Dev) (tag : Byte) (ws : Words), d.Up ∧ ws.length ≠ 6) ∧
    (∃ (d : Dev) (tag : Byte) (ws : Words), d.Up ∧ ws.length = 6 ∧ d.boot.ownerProv = true) ∧
    (∃ (d : Dev) (tag : Nat) (hash : BitVec 384), d.active = true ∧ d.boot.provTag = some (tag, hash)) ∧
    (∃ (d : Dev) (tag : Byte), d.Up ∧ (d.takeService 0x30 tag.toNat 0 []).authMode = true) ∧
    (∃ (d : Dev) (tag : Byte), d.Up ∧ (d.takeService 0x30 tag.toNat 0 []).authMode = false) ∧
    (∃ (d : Dev) (tag : Byte) (ws : Words), d.Up) ∧
    (∃ (d : Dev) (tag : Byte), d.Up ∧ (d.takeService 0x32 tag.toNat 0 []).authMode = true) ∧
    (∃ (d : Dev) (tag : Byte), d.Up ∧ (d.takeService 0x32 tag.toNat 0 []).authMode = false) ∧
    (∃ (d : Dev), d.active = true ∧ d.g pTRC TRC_EXPIRES_NS ≠ 0) ∧
    (∃ (d : Dev), d.Up) :=
  ⟨⟨up, 7, [1, 2, 3, 4, 5, 6], by decide +kernel⟩,
   ⟨up, 7, [1], by decide +kernel⟩,
   ⟨{ up with boot := { Boot.reset with ownerProv := true } }, 7, [1, 2, 3, 4, 5, 6], by decide +kernel⟩,
   ⟨{ up with boot := { Boot.reset with provTag := some (7, 5) } }, 7, 5, by decide +kernel⟩,
   ⟨{ up with boot := { Boot.reset with ownerProv := true } }, 7, by decide +kernel⟩,
   ⟨up, 7, by decide +kernel⟩,
   ⟨up, 7, [], by decide +kernel⟩,
   ⟨{ up with boot := { Boot.reset with ownerProv := true } }, 7, by decide +kernel⟩,
   ⟨up, 7, by decide +kernel⟩,
   ⟨up.p pTRC TRC_EXPIRES_NS 9, by decide +kernel⟩,
   ⟨up, by decide +kernel⟩⟩

theorem test_loader_and_scrubber_commands_take_effect_met :
    (∃ (d : Dev) (p : Fin 16), d.Takes p ∧ d.b (pPTN p) PTN_LOAD_STATUS_BUSY = false ∧ d.g (pPTN p) PTN_LOAD_COUNT_COUNT ≠ 0) ∧
    (∃ (d : Dev) (p : Fin 16), d.Takes p ∧ d.b (pPTN p) PTN_LOAD_STATUS_BUSY = true) ∧
    (∃ (d : Dev) (p : Fin 16) (m : Img), d.Takes p ∧ d.b (pPTN p) PTN_LOAD_STATUS_BUSY = false ∧ (d.ptnAt p).img = some m) ∧
    (∃ (d : Dev) (p : Fin 16), d.Takes p ∧ d.b (pPTN p) PTN_LOAD_STATUS_BUSY = false ∧ (d.ptnAt p).img = none) ∧
    (∃ (d : Dev) (p : Fin 16), d.active = true ∧ d.b (pPTN p) PTN_LOAD_STATUS_BUSY = true ∧ (d.ptnAt p).replay = false) ∧
    (∃ (d : Dev) (p : Fin 16) (data : Option (List Byte)), d.active = true ∧ d.b (pPTN p) PTN_LOAD_STATUS_BUSY = true ∧ (d.ptnAt p).replay = false ∧ d.frameWaits p data = false) ∧
    (∃ (d : Dev) (n : Fin 64) (w : WordLoc) (i : Nat), d.active = true ∧ d.ownerOf n = some i ∧ d.b (pPTN i) PTN_SEQ_STATUS_LOADED = true ∧ d.g pSCR SCR_CFG_RATE ≠ 0 ∧ d.b pSCR SCR_CFG_DMEM = true) ∧
    (∃ (d : Dev) (p : Fin 16), d.Up) ∧
    (∃ (d : Dev), d.active = true) ∧
    (∃ (d : Dev) (i : Nat), d.active = true ∧ (List.range 16).find? (fun i => d.holds (Dev.mntId 1 i 0)) = some i) ∧
    (∃ (d : Dev) (n : Fin 64) (w : WordLoc) (fetch : Bool) (i : Nat), d.active = true ∧ d.raised.contains (n.val, w, fetch) = true ∧ d.ownerOf n = some i) ∧
    (∃ (d : Dev) (n : Fin 64) (w : WordLoc) (i : Nat) (e : Nat × WordLoc × Bool), d.active = true ∧ d.rewrites.find? (fun e => e.1 == n.val && e.2.1 == w) = some e ∧ d.ownerOf n = some i) :=
  ⟨⟨up.p (pPTN 3) PTN_LOAD_COUNT_COUNT 4, 3, by decide +kernel⟩,
   ⟨up.on (pPTN 3) PTN_LOAD_STATUS_BUSY, 3, by decide +kernel⟩,
   ⟨up.modPtn 3 fun x => { x with img := some ⟨0, 0, 4, 0, 0⟩ }, 3, ⟨0, 0, 4, 0, 0⟩, by decide +kernel⟩,
   ⟨up, 3, by decide +kernel⟩,
   ⟨up.on (pPTN 3) PTN_LOAD_STATUS_BUSY, 3, by decide +kernel⟩,
   ⟨up.on (pPTN 3) PTN_LOAD_STATUS_BUSY, 3, none, by decide +kernel⟩,
   ⟨((ptn3.on (pPTN 3) PTN_SEQ_STATUS_LOADED).p pSCR SCR_CFG_RATE 3).on pSCR SCR_CFG_DMEM, 2, .bp 1 2 3, 3, by decide +kernel⟩,
   ⟨up, 3, by decide +kernel⟩,
   ⟨up, by decide +kernel⟩,
   ⟨{ up with mnt := { slots := [(0, Dev.mntId 1 3 0)], wait := [] } }, 3, by decide +kernel⟩,
   ⟨{ ptn3 with raised := [(2, .bp 1 2 3, true)] }, 2, .bp 1 2 3, true, 3, by decide +kernel⟩,
   ⟨{ ptn3 with rewrites := [(2, .bp 1 2 3, true)] }, 2, .bp 1 2 3, 3, (2, .bp 1 2 3, true), by decide +kernel⟩⟩

theorem test_lane_groups_train_in_order_met :
    (∃ (d : Dev) (g : Fin 16), d.active = true ∧ d.reach .pf (pLGRP g) = .yes ∧ d.b (pLGRP g) LGRP_CFG_EN = false ∧ d.lgMode g = 0) ∧
    (∃ (d : Dev) (g : Fin 16), d.active = true ∧ d.reach .pf (pLGRP g) = .yes ∧ d.b (pLGRP g) LGRP_CFG_EN = true) ∧
    (∃ (d : Dev) (g : Fin 16), d.active = true ∧ d.reach .pf (pLGRP g) = .yes ∧ d.g (pLGRP g) LGRP_STATUS_STATE = 3) ∧
    (∃ (d : Dev) (g : Fin 16), d.active = true ∧ d.reach .pf (pLGRP g) = .yes ∧ d.g (pLGRP g) LGRP_STATUS_STATE = 5) ∧
    (∃ (d : Dev) (g : Fin 16) (l : Fin 8), d.active = true ∧ d.g (pLGRP g) LGRP_STATUS_STATE ≠ 0) ∧
    (∃ (d : Dev) (g : Fin 16), d.active = true ∧ 1 ≤ d.g (pLGRP g) LGRP_STATUS_STATE ∧ d.g (pLGRP g) LGRP_STATUS_STATE < 3 ∧ (d.linkAt g).lastStamp = none) ∧
    (∃ (d : Dev) (g : Fin 16) (s : Nat × Nat), d.active = true ∧ 3 ≤ d.g (pLGRP g) LGRP_STATUS_STATE ∧ d.g (pLGRP g) LGRP_STATUS_STATE ≤ 4 ∧ (d.linkAt g).lastStamp = some s) ∧
    (∃ (d : Dev) (g : Fin 16) (l : Fin 8) (bits : BitVec 320) (ui : Nat), d.active = true ∧ d.g (pLGRP g) LGRP_STATUS_STATE ≠ 0 ∧ d.g (pLGRP g) LGRP_STATUS_STATE ≤ 4 ∧ l ≠ 0 ∧ markerValid bits.toNat = true) ∧
    (∃ (d : Dev) (g : Fin 16) (bits : BitVec 320) (ui : Nat), d.active = true ∧ d.g (pLGRP g) LGRP_STATUS_STATE ≠ 0 ∧ d.g (pLGRP g) LGRP_STATUS_STATE ≤ 4 ∧ markerValid bits.toNat = true) ∧
    (∃ (d : Dev) (g : Fin 16) (l : Fin 8) (bits : BitVec 320) (ui : Nat), d.active = true ∧ 2 ≤ d.g (pLGRP g) LGRP_STATUS_STATE ∧ d.g (pLGRP g) LGRP_STATUS_STATE ≤ 4 ∧ markerValid bits.toNat = false ∧ SMap.get 0 (d.linkAt g).good (8 + l.val) < 3) ∧
    (∃ (d : Dev) (g : Fin 16) (l : Fin 8) (bits : BitVec 320) (ui : Nat), d.active = true ∧ 2 ≤ d.g (pLGRP g) LGRP_STATUS_STATE ∧ d.g (pLGRP g) LGRP_STATUS_STATE ≤ 4 ∧ markerValid bits.toNat = false ∧ 3 ≤ SMap.get 0 (d.linkAt g).good (8 + l.val)) ∧
    (∃ (d : Dev) (g : Fin 16) (l : Fin 8) (bits : BitVec 320) (ui : Nat), d.active = true ∧ d.g (pLGRP g) LGRP_STATUS_STATE = 1 ∧ markerValid bits.toNat = false) ∧
    (∃ (d : Dev) (g : Fin 16), d.active = true ∧ d.g (pLGRP g) LGRP_STATUS_STATE = 1) ∧
    (∃ (d : Dev) (g : Fin 16), d.active = true ∧ d.g (pLGRP g) LGRP_STATUS_STATE ≠ 1) ∧
    (∃ (d : Dev) (g : Fin 16) (l : Fin 8), d.active = true ∧ 1 ≤ d.g (pLGRP g) LGRP_STATUS_STATE ∧ d.g (pLGRP g) LGRP_STATUS_STATE ≤ 3) ∧
    (∃ (d : Dev) (g : Fin 16) (l : Fin 8), d.active = true ∧ d.g (pLGRP g) LGRP_STATUS_STATE = 4) ∧
    (∃ (d : Dev) (g : Fin 16) (l : Fin 8), d.active = true ∧ 4 < d.g (pLGRP g) LGRP_STATUS_STATE) :=
  ⟨⟨up, 1, by decide +kernel⟩,
   ⟨up.on (pLGRP 1) LGRP_CFG_EN, 1, by decide +kernel⟩,
   ⟨up.p (pLGRP 1) LGRP_STATUS_STATE 3, 1, by decide +kernel⟩,
   ⟨up.p (pLGRP 1) LGRP_STATUS_STATE 5, 1, by decide +kernel⟩,
   ⟨up.p (pLGRP 1) LGRP_STATUS_STATE 3, 1, 2, by decide +kernel⟩,
   ⟨up.p (pLGRP 1) LGRP_STATUS_STATE 1, 1, by decide +kernel⟩,
   ⟨(up.p (pLGRP 1) LGRP_STATUS_STATE 3).setLink 1 { Link.reset with lastStamp := some (3, 4) }, 1, (3, 4), by decide +kernel⟩,
   ⟨up.p (pLGRP 1) LGRP_STATUS_STATE 2, 1, 5, markerBits 5 1 0 2 false 0 0 0, 3, by decide +kernel⟩,
   ⟨up.p (pLGRP 1) LGRP_STATUS_STATE 2, 1, markerBits 0 1 0 2 false 0 0 0, 3, by decide +kernel⟩,
   ⟨up.p (pLGRP 1) LGRP_STATUS_STATE 2, 1, 5, 0, 3, by decide +kernel⟩,
   ⟨(up.p (pLGRP 1) LGRP_STATUS_STATE 2).setLink 1 { Link.reset with good := [(13, 3)] }, 1, 5, 0, 3, by decide +kernel⟩,
   ⟨up.p (pLGRP 1) LGRP_STATUS_STATE 1, 1, 5, 0, 3, by decide +kernel⟩,
   ⟨up.p (pLGRP 1) LGRP_STATUS_STATE 1, 1, by decide +kernel⟩,
   ⟨up.p (pLGRP 1) LGRP_STATUS_STATE 2, 1, by decide +kernel⟩,
   ⟨up.p (pLGRP 1) LGRP_STATUS_STATE 2, 1, 5, by decide +kernel⟩,
   ⟨up.p (pLGRP 1) LGRP_STATUS_STATE 4, 1, 5, by decide +kernel⟩,
   ⟨up.p (pLGRP 1) LGRP_STATUS_STATE 6, 1, 5, by decide +kernel⟩⟩

theorem test_codewords_flits_and_slots_are_handled_met :
    (∃ (d : Dev) (g : Fin 16) (l : Fin 8) (data check : List (Fin 1024)) (symbols : List Nat), d.active = true ∧ 1 ≤ d.g (pLGRP g) LGRP_STATUS_STATE ∧ d.g (pLGRP g) LGRP_STATUS_STATE ≤ 4 ∧ symbols = (data ++ check).map (·.val) ∧ rsDecode symbols = .clean) ∧
    (∃ (d : Dev) (g : Fin 16) (l : Fin 8) (data check : List (Fin 1024)) (symbols : List Nat) (k : Nat), d.active = true ∧ 1 ≤ d.g (pLGRP g) LGRP_STATUS_STATE ∧ d.g (pLGRP g) LGRP_STATUS_STATE ≤ 4 ∧ symbols = (data ++ check).map (·.val) ∧ rsDecode symbols = .corrected k) ∧
    (∃ (d : Dev) (g : Fin 16) (l : Fin 8) (data check : List (Fin 1024)) (symbols : List Nat), d.active = true ∧ 1 ≤ d.g (pLGRP g) LGRP_STATUS_STATE ∧ d.g (pLGRP g) LGRP_STATUS_STATE ≤ 4 ∧ symbols = (data ++ check).map (·.val) ∧ rsDecode symbols = .bad) ∧
    (∃ (d : Dev) (g l : Nat), SMap.get? (d.linkAt g).rxScr l = none) ∧
    (∃ (d : Dev) (g : Fin 16) (bits : BitVec 320) (bad : Bool), d.active = true ∧ d.g (pLGRP g) LGRP_STATUS_STATE = 4 ∧ (bad = true ∨ crc32c (leBytes 36 bits.toNat) ≠ bitsAt bits.toNat 288 32)) ∧
    (∃ (d : Dev) (g : Fin 16) (bits : BitVec 320), d.active = true ∧ d.g (pLGRP g) LGRP_STATUS_STATE = 4 ∧ crc32c (leBytes 36 bits.toNat) = bitsAt bits.toNat 288 32 ∧ bits.toNat.testBit 26 = false ∧ bits.toNat.testBit 27 = false ∧ bitsAt bits.toNat 28 4 = 1 ∧ bitsAt bits.toNat 0 12 = (d.linkAt g).rxSeq) ∧
    (∃ (d : Dev) (g : Fin 16) (vc : Fin 4) (count : Nat), d.active = true ∧ d.g (pLGRP g) LGRP_STATUS_STATE = 4) ∧
    (∃ (d : Dev) (g : Fin 16) (vc : Fin 4) (count : Nat), d.active = true ∧ d.g (pLGRP g) LGRP_STATUS_STATE = 4) ∧
    (∃ (d : Dev) (g : Fin 16) (k : Nat) (frame : BitVec 432) (n : Fin 14), d.active = true ∧ d.g (pLGRP g) LGRP_STATUS_STATE = 4 ∧ d.g (pLGRP g) LGRP_STATUS_VER = 2) ∧
    (∃ (d : Dev) (g : Fin 16) (k : Nat) (frame : BitVec 432) (n : Fin 14), d.active = true ∧ d.g (pLGRP g) LGRP_STATUS_STATE = 3) ∧
    (∃ (d : Dev) (g : Fin 16) (k : Nat) (frame : BitVec 432) (n : Fin 14), d.active = true ∧ d.g (pLGRP g) LGRP_STATUS_STATE ≠ 3 ∧ (d.g (pLGRP g) LGRP_STATUS_STATE ≠ 4 ∨ d.g (pLGRP g) LGRP_STATUS_VER ≠ 2)) ∧
    (∃ (d : Dev) (g k : Nat), (d.ptnAt (d.g pLNK (LNK_BUDGET_OWNER g))).exec ≤ k + d.g pLNK (LNK_BUDGET_BUDGET g)) :=
  ⟨⟨up.p (pLGRP 1) LGRP_STATUS_STATE 2, 1, 5, List.replicate 132 0, List.replicate 4 0, List.replicate 136 0, by decide +kernel⟩,
   ⟨up.p (pLGRP 1) LGRP_STATUS_STATE 2, 1, 5, 7 :: List.replicate 131 0, List.replicate 4 0, 7 :: List.replicate 135 0, 1, by decide +kernel⟩,
   ⟨up.p (pLGRP 1) LGRP_STATUS_STATE 2, 1, 5, List.replicate 132 0, [0, 1, 3, 2], List.replicate 133 0 ++ [1, 3, 2], by decide +kernel⟩,
   ⟨up, 1, 5, by decide +kernel⟩,
   ⟨up.p (pLGRP 1) LGRP_STATUS_STATE 4, 1, 0, true, by decide +kernel⟩,
   ⟨up.p (pLGRP 1) LGRP_STATUS_STATE 4, 1, BitVec.ofNat 320 (1 <<< 28 ||| crc32c (leBytes 36 (1 <<< 28)) <<< 288), by decide +kernel⟩,
   ⟨up.p (pLGRP 1) LGRP_STATUS_STATE 4, 1, 2, 5, by decide +kernel⟩,
   ⟨up.p (pLGRP 1) LGRP_STATUS_STATE 4, 1, 2, 5, by decide +kernel⟩,
   ⟨(up.p (pLGRP 1) LGRP_STATUS_STATE 4).p (pLGRP 1) LGRP_STATUS_VER 2, 1, 3, 2, 0, by decide +kernel⟩,
   ⟨up.p (pLGRP 1) LGRP_STATUS_STATE 3, 1, 3, 2, 0, by decide +kernel⟩,
   ⟨up.p (pLGRP 1) LGRP_STATUS_STATE 2, 1, 3, 2, 0, by decide +kernel⟩,
   ⟨up, 1, 0, by decide +kernel⟩⟩

theorem test_lane_test_and_bridge_commands_take_effect_met :
    (∃ (d : Dev) (g : Fin 16), d.active = true ∧ d.reach .pf (pLGRP g) = .yes ∧ d.g (pLGRP g) LGRP_STATUS_STATE = 5) ∧
    (∃ (d : Dev) (g : Fin 16), d.active = true ∧ d.reach .pf (pLGRP g) = .yes ∧ d.g (pLGRP g) LGRP_STATUS_STATE ≠ 5 ∧ d.b pLNK (LNK_BUDGET_SLOTS g) = true ∧ d.seqState (d.g pLNK (LNK_BUDGET_OWNER g)) ≠ 0) ∧
    (∃ (d : Dev) (g : Fin 16), d.active = true ∧ d.reach .pf (pLGRP g) = .yes ∧ d.g (pLGRP g) LGRP_STATUS_STATE = 4 ∧ d.b pLNK (LNK_BUDGET_SLOTS g) = false ∧ d.isSlave = true ∧ d.g pTSB TSB_STATUS_UPSTREAM = g.val) ∧
    (∃ (d : Dev) (g : Fin 16) (e : Nat), d.active = true ∧ d.reach .pf (pLGRP g) = .yes ∧ d.g (pLGRP g) LGRP_STATUS_STATE ≠ 5 ∧ (d.b pLNK (LNK_BUDGET_SLOTS g) = false ∨ d.seqState (d.g pLNK (LNK_BUDGET_OWNER g)) = 0) ∧ ¬ (d.g (pLGRP g) LGRP_STATUS_STATE = 4 ∧ d.isSlave = true ∧ d.g pTSB TSB_STATUS_UPSTREAM = g.val) ∧ (d.mntRequest (Dev.mntId 4 16 g) 0 0x10000 false).2 = some e) ∧
    (∃ (d : Dev) (g : Fin 16), d.active = true ∧ d.reach .pf (pLGRP g) = .yes ∧ d.g (pLGRP g) LGRP_STATUS_STATE ≠ 5 ∧ (d.b pLNK (LNK_BUDGET_SLOTS g) = false ∨ d.seqState (d.g pLNK (LNK_BUDGET_OWNER g)) = 0) ∧ ¬ (d.g (pLGRP g) LGRP_STATUS_STATE = 4 ∧ d.isSlave = true ∧ d.g pTSB TSB_STATUS_UPSTREAM = g.val) ∧ (d.mntRequest (Dev.mntId 4 16 g) 0 0x10000 false).2 = none) ∧
    (∃ (d : Dev) (g : Fin 16), d.Up ∧ d.b (pLGRP g) LGRP_INJ_TARGET = false ∧ d.g (pLGRP g) LGRP_STATUS_STATE = 5) ∧
    (∃ (d : Dev) (g : Fin 16), d.Up ∧ d.b (pLGRP g) LGRP_INJ_TARGET = false ∧ d.g (pLGRP g) LGRP_STATUS_STATE ≠ 5) ∧
    (∃ (d : Dev) (g : Fin 16), d.Up ∧ d.b (pLGRP g) LGRP_INJ_TARGET = true ∧ 1 ≤ d.g (pLGRP g) LGRP_STATUS_STATE ∧ d.g (pLGRP g) LGRP_STATUS_STATE ≤ 4 ∧ d.slotsRun g = false) ∧
    (∃ (d : Dev) (g : Fin 16), d.Up ∧ d.b (pLGRP g) LGRP_INJ_TARGET = true ∧ (d.g (pLGRP g) LGRP_STATUS_STATE = 0 ∨ 4 < d.g (pLGRP g) LGRP_STATUS_STATE)) ∧
    (∃ (d : Dev) (g : Fin 16), d.Up ∧ d.b (pLGRP g) LGRP_INJ_TARGET = true ∧ d.g (pLGRP g) LGRP_STATUS_STATE = 4 ∧ d.slotsRun g = true) ∧
    (∃ (d : Dev) (g : Fin 16), d.Up) ∧
    (∃ (d : Dev) (g : Fin 16), d.Up) ∧
    (∃ (d : Dev) (g : Fin 16) (l : Fin 8) (bits : List Bool), d.active = true ∧ d.g (pLGRP g) LGRP_STATUS_STATE = 5 ∧ d.laneOn g l = true ∧ d.g (pLGRP g) LGRP_LOOP_MODE = 0) ∧
    (∃ (d : Dev) (g : Fin 16) (l : Fin 8) (bits : List Bool), d.active = true ∧ d.g (pLGRP g) LGRP_STATUS_STATE = 5 ∧ d.laneOn g l = true ∧ (d.g (pLGRP g) LGRP_LOOP_MODE = 1 ∨ d.g (pLGRP g) LGRP_LOOP_MODE = 2)) ∧
    (∃ (d : Dev) (g : Fin 16) (l : Fin 8), d.Up ∧ d.bridgeQueue g (d.g (pLGRP g) (LGRP_BRIDGE_Q_TXQ l)) = false) ∧
    (∃ (d : Dev) (g : Fin 16) (l : Fin 8), d.Up ∧ d.bridgeQueue g (d.g (pLGRP g) (LGRP_BRIDGE_Q_TXQ l)) = true) ∧
    (∃ (d : Dev) (g : Fin 16) (l : Fin 8) (f : Dev), d.Up ∧ f = d.p (pLGRP g) (LGRP_BRIDGE_Q_TX_EN l) 0 ∧ f.bridgeQueue g (f.g (pLGRP g) (LGRP_BRIDGE_Q_RXQ l)) = false) ∧
    (∃ (d : Dev) (g : Fin 16) (l : Fin 8) (f : Dev), d.Up ∧ f = d.p (pLGRP g) (LGRP_BRIDGE_Q_TX_EN l) 0 ∧ f.bridgeQueue g (f.g (pLGRP g) (LGRP_BRIDGE_Q_RXQ l)) = true) ∧
    (∃ (d : Dev) (g : Fin 16) (l : Fin 8), d.active = true ∧ d.g (pLGRP g) LGRP_STATUS_STATE = 6 ∧ d.laneOn g l = true ∧ d.b (pLGRP g) (LGRP_BRIDGE_Q_TX_EN l) = false) ∧
    (∃ (d : Dev) (g : Fin 16) (l : Fin 8) (w : QWord) (f : Dev), d.active = true ∧ d.g (pLGRP g) LGRP_STATUS_STATE = 6 ∧ d.laneOn g l = true ∧ d.b (pLGRP g) (LGRP_BRIDGE_Q_TX_EN l) = true ∧ d.emptyFor (d.g (pLGRP g) (LGRP_BRIDGE_Q_TXQ l)) = false ∧ d.takeHead (d.g (pLGRP g) (LGRP_BRIDGE_Q_TXQ l)) = some (w, f)) ∧
    (∃ (d : Dev) (g : Fin 16) (l : Fin 8), d.active = true ∧ d.g (pLGRP g) LGRP_STATUS_STATE = 6 ∧ d.laneOn g l = true ∧ d.b (pLGRP g) (LGRP_BRIDGE_Q_TX_EN l) = true ∧ d.emptyFor (d.g (pLGRP g) (LGRP_BRIDGE_Q_TXQ l)) = true) ∧
    (∃ (d : Dev) (g : Fin 16) (l : Fin 8) (w : W64), d.active = true ∧ d.g (pLGRP g) LGRP_STATUS_STATE = 6 ∧ d.laneOn g l = true ∧ (d.linkAt g).recovered.testBit l = true ∧ d.b (pLGRP g) (LGRP_BRIDGE_Q_RX_EN l) = false) ∧
    (∃ (d : Dev) (g : Fin 16) (l : Fin 8) (w : W64) (f : Dev), d.active = true ∧ d.g (pLGRP g) LGRP_STATUS_STATE = 6 ∧ d.laneOn g l = true ∧ (d.linkAt g).recovered.testBit l = true ∧ d.b (pLGRP g) (LGRP_BRIDGE_Q_RX_EN l) = true ∧ SMap.get? (d.linkAt g).good l = none ∧ f = d.capLine g l false false (bitsLsb w.toNat 64) ∧ f.b (pLGRP g) LGRP_BRIDGE_CFG_ALIGN_EN = true ∧ ((List.range 64).map (· + 1)).find? (fun o => (o == 64 || (SMap.get? (d.linkAt g).shift l).isSome) && (bitsAt ((SMap.get? (d.linkAt g).shift l).getD 0 ||| w.toNat <<< 64) o 64 &&& f.g (pLGRP g) LGRP_ALIGN_MASK_MASK == f.g (pLGRP g) LGRP_ALIGN_WORD &&& f.g (pLGRP g) LGRP_ALIGN_MASK_MASK)) = none) ∧
    (∃ (d : Dev) (g : Fin 16) (l : Fin 8) (w : W64) (f : Dev) (o : Nat), d.active = true ∧ d.g (pLGRP g) LGRP_STATUS_STATE = 6 ∧ d.laneOn g l = true ∧ (d.linkAt g).recovered.testBit l = true ∧ d.b (pLGRP g) (LGRP_BRIDGE_Q_RX_EN l) = true ∧ SMap.get? (d.linkAt g).good l = none ∧ f = d.capLine g l false false (bitsLsb w.toNat 64) ∧ f.b (pLGRP g) LGRP_BRIDGE_CFG_ALIGN_EN = true ∧ ((List.range 64).map (· + 1)).find? (fun o => (o == 64 || (SMap.get? (d.linkAt g).shift l).isSome) && (bitsAt ((SMap.get? (d.linkAt g).shift l).getD 0 ||| w.toNat <<< 64) o 64 &&& f.g (pLGRP g) LGRP_ALIGN_MASK_MASK == f.g (pLGRP g) LGRP_ALIGN_WORD &&& f.g (pLGRP g) LGRP_ALIGN_MASK_MASK)) = some o) ∧
    (∃ (d : Dev) (g : Fin 16) (l : Fin 8) (w : W64) (f : Dev) (o : Nat), d.active = true ∧ d.g (pLGRP g) LGRP_STATUS_STATE = 6 ∧ d.laneOn g l = true ∧ (d.linkAt g).recovered.testBit l = true ∧ d.b (pLGRP g) (LGRP_BRIDGE_Q_RX_EN l) = true ∧ SMap.get? (d.linkAt g).good l = some o ∧ f = d.capLine g l false false (bitsLsb w.toNat 64)) ∧
    (∃ (d : Dev) (g : Fin 16) (l : Fin 8) (w : W64) (f : Dev), d.active = true ∧ d.g (pLGRP g) LGRP_STATUS_STATE = 6 ∧ d.laneOn g l = true ∧ (d.linkAt g).recovered.testBit l = true ∧ d.b (pLGRP g) (LGRP_BRIDGE_Q_RX_EN l) = true ∧ SMap.get? (d.linkAt g).shift l = none ∧ SMap.get? (d.linkAt g).good l = none ∧ f = d.capLine g l false false (bitsLsb w.toNat 64) ∧ f.b (pLGRP g) LGRP_BRIDGE_CFG_ALIGN_EN = false) :=
  ⟨⟨up.p (pLGRP 1) LGRP_STATUS_STATE 5, 1, by decide +kernel⟩,
   ⟨(up.on pLNK (LNK_BUDGET_SLOTS 1)).p (pPTN 0) PTN_SEQ_STATUS_STATE 1, 1, by decide +kernel⟩,
   ⟨((up.p (pLGRP 1) LGRP_STATUS_STATE 4).p pTSB TSB_CFG_ROLE 2).p pTSB TSB_STATUS_UPSTREAM 1, 1, by decide +kernel⟩,
   ⟨(up.mntRequest (Dev.mntId 4 16 1) 0 0x10000 false).1, 1, 772, by decide +kernel⟩,
   ⟨up.p (pLGRP 1) LGRP_STATUS_STATE 4, 1, by decide +kernel⟩,
   ⟨up.p (pLGRP 1) LGRP_STATUS_STATE 5, 1, by decide +kernel⟩,
   ⟨up.p (pLGRP 1) LGRP_STATUS_STATE 4, 1, by decide +kernel⟩,
   ⟨(up.p (pLGRP 1) LGRP_STATUS_STATE 3).on (pLGRP 1) LGRP_INJ_TARGET, 1, by decide +kernel⟩,
   ⟨(up.p (pLGRP 1) LGRP_STATUS_STATE 5).on (pLGRP 1) LGRP_INJ_TARGET, 1, by decide +kernel⟩,
   ⟨(((up.p (pLGRP 1) LGRP_STATUS_STATE 4).on (pLGRP 1) LGRP_INJ_TARGET).on pLNK (LNK_BUDGET_SLOTS 1)).p (pPTN 0) PTN_SEQ_STATUS_STATE 1, 1, by decide +kernel⟩,
   ⟨up, 1, by decide +kernel⟩,
   ⟨up, 1, by decide +kernel⟩,
   ⟨(up.p (pLGRP 1) LGRP_STATUS_STATE 5).p (pLGRP 1) LGRP_CFG_LANE_EN 255, 1, 5, [true], by decide +kernel⟩,
   ⟨((up.p (pLGRP 1) LGRP_STATUS_STATE 5).p (pLGRP 1) LGRP_CFG_LANE_EN 255).p (pLGRP 1) LGRP_LOOP_MODE 1, 1, 5, [true], by decide +kernel⟩,
   ⟨up, 1, 5, by decide +kernel⟩,
   ⟨((ptn3.p (pLGRP 1) LGRP_BRIDGE_CFG_OWNER 3).p (pLGRP 1) (LGRP_BRIDGE_Q_TXQ 5) 20), 1, 5, by decide +kernel⟩,
   ⟨up, 1, 5, up.p (pLGRP 1) (LGRP_BRIDGE_Q_TX_EN 5) 0, by decide +kernel⟩,
   ⟨((ptn3.p (pLGRP 1) LGRP_BRIDGE_CFG_OWNER 3).p (pLGRP 1) (LGRP_BRIDGE_Q_RXQ 5) 20), 1, 5, ((ptn3.p (pLGRP 1) LGRP_BRIDGE_CFG_OWNER 3).p (pLGRP 1) (LGRP_BRIDGE_Q_RXQ 5) 20).p (pLGRP 1) (LGRP_BRIDGE_Q_TX_EN 5) 0, by decide +kernel⟩,
   ⟨(up.p (pLGRP 1) LGRP_STATUS_STATE 6).p (pLGRP 1) LGRP_CFG_LANE_EN 255, 1, 5, by decide +kernel⟩,
   ⟨(((ptn3.p (pLGRP 1) LGRP_STATUS_STATE 6).p (pLGRP 1) LGRP_CFG_LANE_EN 255).on (pLGRP 1) (LGRP_BRIDGE_Q_TX_EN 5)).p (pLGRP 1) (LGRP_BRIDGE_Q_TXQ 5) 20, 1, 5, ⟨7, false, false, []⟩, ((((((ptn3.p (pLGRP 1) LGRP_STATUS_STATE 6).p (pLGRP 1) LGRP_CFG_LANE_EN 255).on (pLGRP 1) (LGRP_BRIDGE_Q_TX_EN 5)).p (pLGRP 1) (LGRP_BRIDGE_Q_TXQ 5) 20).takeHead 20).getD (⟨0, false, false, []⟩, up)).2, by decide +kernel⟩,
   ⟨(((up.p (pLGRP 1) LGRP_STATUS_STATE 6).p (pLGRP 1) LGRP_CFG_LANE_EN 255).on (pLGRP 1) (LGRP_BRIDGE_Q_TX_EN 5)).p (pLGRP 1) (LGRP_BRIDGE_Q_TXQ 5) 21, 1, 5, by decide +kernel⟩,
   ⟨(((up.p (pLGRP 1) LGRP_STATUS_STATE 6).p (pLGRP 1) LGRP_CFG_LANE_EN 255).setLink 1 { Link.reset with recovered := 255 }), 1, 5, 9, by decide +kernel⟩,
   ⟨((((((up.p (pLGRP 1) LGRP_STATUS_STATE 6).p (pLGRP 1) LGRP_CFG_LANE_EN 255).on (pLGRP 1) (LGRP_BRIDGE_Q_RX_EN 5)).on (pLGRP 1) LGRP_BRIDGE_CFG_ALIGN_EN).p (pLGRP 1) LGRP_ALIGN_WORD 9 |>.p (pLGRP 1) LGRP_ALIGN_MASK_MASK 255).setLink 1 { Link.reset with recovered := 255 }), 1, 5, 5, Dev.capLine (((((((up.p (pLGRP 1) LGRP_STATUS_STATE 6).p (pLGRP 1) LGRP_CFG_LANE_EN 255).on (pLGRP 1) (LGRP_BRIDGE_Q_RX_EN 5)).on (pLGRP 1) LGRP_BRIDGE_CFG_ALIGN_EN).p (pLGRP 1) LGRP_ALIGN_WORD 9 |>.p (pLGRP 1) LGRP_ALIGN_MASK_MASK 255).setLink 1 { Link.reset with recovered := 255 })) 1 5 false false (bitsLsb 5 64), by decide +kernel⟩,
   ⟨((((((up.p (pLGRP 1) LGRP_STATUS_STATE 6).p (pLGRP 1) LGRP_CFG_LANE_EN 255).on (pLGRP 1) (LGRP_BRIDGE_Q_RX_EN 5)).on (pLGRP 1) LGRP_BRIDGE_CFG_ALIGN_EN).p (pLGRP 1) LGRP_ALIGN_WORD 9 |>.p (pLGRP 1) LGRP_ALIGN_MASK_MASK 255).setLink 1 { Link.reset with recovered := 255, shift := [(5, 1152)] }), 1, 5, 2, Dev.capLine (((((((up.p (pLGRP 1) LGRP_STATUS_STATE 6).p (pLGRP 1) LGRP_CFG_LANE_EN 255).on (pLGRP 1) (LGRP_BRIDGE_Q_RX_EN 5)).on (pLGRP 1) LGRP_BRIDGE_CFG_ALIGN_EN).p (pLGRP 1) LGRP_ALIGN_WORD 9 |>.p (pLGRP 1) LGRP_ALIGN_MASK_MASK 255).setLink 1 { Link.reset with recovered := 255, shift := [(5, 1152)] })) 1 5 false false (bitsLsb 2 64), 7, by decide +kernel⟩,
   ⟨((((((up.p (pLGRP 1) LGRP_STATUS_STATE 6).p (pLGRP 1) LGRP_CFG_LANE_EN 255).on (pLGRP 1) (LGRP_BRIDGE_Q_RX_EN 5)).on (pLGRP 1) LGRP_BRIDGE_CFG_ALIGN_EN).p (pLGRP 1) LGRP_ALIGN_WORD 9 |>.p (pLGRP 1) LGRP_ALIGN_MASK_MASK 255).setLink 1 { Link.reset with recovered := 255, good := [(5, 7)] }), 1, 5, 2, Dev.capLine (((((((up.p (pLGRP 1) LGRP_STATUS_STATE 6).p (pLGRP 1) LGRP_CFG_LANE_EN 255).on (pLGRP 1) (LGRP_BRIDGE_Q_RX_EN 5)).on (pLGRP 1) LGRP_BRIDGE_CFG_ALIGN_EN).p (pLGRP 1) LGRP_ALIGN_WORD 9 |>.p (pLGRP 1) LGRP_ALIGN_MASK_MASK 255).setLink 1 { Link.reset with recovered := 255, good := [(5, 7)] })) 1 5 false false (bitsLsb 2 64), 7, by decide +kernel⟩,
   ⟨((((up.p (pLGRP 1) LGRP_STATUS_STATE 6).p (pLGRP 1) LGRP_CFG_LANE_EN 255).on (pLGRP 1) (LGRP_BRIDGE_Q_RX_EN 5)).setLink 1 { Link.reset with recovered := 255 }), 1, 5, 9, Dev.capLine (((((up.p (pLGRP 1) LGRP_STATUS_STATE 6).p (pLGRP 1) LGRP_CFG_LANE_EN 255).on (pLGRP 1) (LGRP_BRIDGE_Q_RX_EN 5)).setLink 1 { Link.reset with recovered := 255 })) 1 5 false false (bitsLsb 9 64), by decide +kernel⟩⟩

theorem test_memory_requests_are_served_met :
    (∃ (d : Dev) (k : Packet) (r : Req), d.active = true ∧ d.Sends k r ∧ 64 ≤ k.dst.val ∧ k.dst.val < 0x90 ∧ 0x40 + 20 * (hbmPort k.addr.toNat).1 + (hbmPort k.addr.toNat).2 = k.dst.val ∧ k.addr.toNat % 4096 + k.data.length ≤ 4096 ∧ k.data.length ≤ 256 ∧ packetBad k = false ∧ k.op.val ≠ 0x10 ∧ k.op.val ≠ 0x11) ∧
    (∃ (d : Dev) (k : Packet) (r : Req), d.active = true ∧ d.Sends k r ∧ 64 ≤ k.dst.val ∧ k.dst.val < 0x90 ∧ 0x40 + 20 * (hbmPort k.addr.toNat).1 + (hbmPort k.addr.toNat).2 = k.dst.val ∧ k.addr.toNat % 4096 + k.data.length ≤ 4096 ∧ k.data.length ≤ 256 ∧ packetBad k = true ∧ k.op.val ≠ 0x10 ∧ k.op.val ≠ 0x11) ∧
    (∃ (d : Dev) (k : Packet) (r : Req), d.active = true ∧ d.Sends k r ∧ 64 ≤ k.dst.val ∧ k.dst.val < 0x90 ∧ 0x40 + 20 * (hbmPort k.addr.toNat).1 + (hbmPort k.addr.toNat).2 = k.dst.val ∧ k.op.val ≠ 0x10 ∧ k.op.val ≠ 0x11) ∧
    (∃ (d : Dev) (k : Packet) (r : Req), d.active = true ∧ d.Sends k r ∧ 0x90 ≤ k.dst.val ∧ k.dst.val < 0x94 ∧ packetBad k = false ∧ k.op.val ≠ 0x10 ∧ k.op.val ≠ 0x11) ∧
    (∃ (d : Dev) (k : Packet) (r : Req), d.active = true ∧ d.Sends k r ∧ 0x90 ≤ k.dst.val ∧ k.dst.val < 0x94 ∧ k.op.val ≠ 0x10 ∧ k.op.val ≠ 0x11) ∧
    (∃ (d : Dev) (k : Packet) (r : Req), d.active = true ∧ d.Sends k r ∧ k.dst.val < 64 ∧ d.niState k.dst ≠ 0 ∧ k.op.val ≠ 0x10 ∧ k.op.val ≠ 0x11) ∧
    (∃ (d : Dev) (k : Packet) (r : Req), d.active = true ∧ d.Sends k r ∧ 0xE0 ≤ k.dst.val ∧ k.dst.val < 0xF0 ∧ d.g (pLGRP (k.dst.val - 0xE0)) LGRP_STATUS_STATE ≠ 4 ∧ k.op.val ≠ 0x10 ∧ k.op.val ≠ 0x11) ∧
    (∃ (d : Dev) (k : Packet) (r : Req), d.active = true ∧ d.Sends k r ∧ k.dst.val < 64 ∧ d.niState k.dst ≠ 0 ∧ k.op.val ≠ 0x10 ∧ k.op.val ≠ 0x11) ∧
    (∃ (d : Dev) (k : Packet) (r : Req), d.active = true ∧ d.Sends k r ∧ 0xE0 ≤ k.dst.val ∧ k.dst.val < 0xF0 ∧ d.g (pLGRP (k.dst.val - 0xE0)) LGRP_STATUS_STATE ≠ 4 ∧ k.op.val ≠ 0x10 ∧ k.op.val ≠ 0x11) ∧
    (∃ (d : Dev) (k : Packet) (r : Req), d.active = true ∧ d.Sends k r ∧ 0x90 ≤ k.dst.val ∧ k.dst.val < 0x94 ∧ packetBad k = true ∧ k.op.val ≠ 0x10 ∧ k.op.val ≠ 0x11) ∧
    (∃ (d : Dev) (k : Packet) (r : Req), d.active = true ∧ d.Sends k r ∧ k.op.val = 0x10) ∧
    (∃ (d : Dev) (k : Packet) (r : Req), d.active = true ∧ d.Sends k r ∧ k.op.val = 0x11) ∧
    (∃ (d : Dev) (k : Packet) (r : Req), d.active = true ∧ d.senderOf k = some r ∧ k.len.val ≤ 8 ∧ d.mayReserve k.src k.tag = true ∧ d.routed k.src k.dst = false) ∧
    (∃ (d : Dev) (k : Packet) (r : Req), d.active = true ∧ d.senderOf k = some r ∧ k.len.val ≤ 8 ∧ d.mayReserve k.src k.tag = true ∧ d.routed k.src k.dst = false) ∧
    (∃ (d : Dev) (k : Packet), d.active = true ∧ d.senderOf k = none) ∧
    (∃ (d : Dev) (k : Packet), d.active = true ∧ d.senderOf k = none) :=
  ⟨⟨(routed up 0x90 0x40), pk 0x90 0x40 2 0, ⟨0x90, 0, true⟩, by decide +kernel⟩,
   ⟨(routed up 0x90 0x40), badPk 0x90 0x40 2 0, ⟨0x90, 0, true⟩, by decide +kernel⟩,
   ⟨(routed up 0x90 0x40), pk 0x90 0x40 1 0, ⟨0x90, 0, true⟩, by decide +kernel⟩,
   ⟨(routed up 0x94 0x90), pk 0x94 0x90 2 0, ⟨0x94, 0, true⟩, by decide +kernel⟩,
   ⟨(routed up 0x94 0x90), pk 0x94 0x90 1 0, ⟨0x94, 0, true⟩, by decide +kernel⟩,
   ⟨(routed up 0x94 5), pk 0x94 5 1 0, ⟨0x94, 0, true⟩, by decide +kernel⟩,
   ⟨(routed up 0x94 0xE1), pk 0x94 0xE1 1 0, ⟨0x94, 0, true⟩, by decide +kernel⟩,
   ⟨(routed up 0x94 5), pk 0x94 5 2 0, ⟨0x94, 0, true⟩, by decide +kernel⟩,
   ⟨(routed up 0x94 0xE1), pk 0x94 0xE1 2 0, ⟨0x94, 0, true⟩, by decide +kernel⟩,
   ⟨(routed up 0x94 0x90), badPk 0x94 0x90 2 0, ⟨0x94, 0, true⟩, by decide +kernel⟩,
   ⟨(routed up 0x90 0xA0), pk 0x90 0xA0 0x10 0, ⟨0x90, 0, true⟩, by decide +kernel⟩,
   ⟨(routed up 0x90 0xA0), pk 0x90 0xA0 0x11 0, ⟨0x90, 0, true⟩, by decide +kernel⟩,
   ⟨{ up with noc := { up.noc with routes := [(0x94 * 256 + 0x40, 0)] } }, pk 0x94 0x40 1 0, ⟨0x94, 0, true⟩, by decide +kernel⟩,
   ⟨{ up with noc := { up.noc with routes := [(0x94 * 256 + 0x40, 0)] } }, pk 0x94 0x40 2 0, ⟨0x94, 0, true⟩, by decide +kernel⟩,
   ⟨up, pk 0x50 0x40 1 0, by decide +kernel⟩,
   ⟨up, pk 0x50 0x40 2 0, by decide +kernel⟩⟩

theorem test_queue_ports_serve_qwr_and_qrd_met :
    (∃ (d : Dev) (k : Packet) (r : Req), d.active = true ∧ d.Sends k r ∧ 0x94 ≤ k.dst.val ∧ k.dst.val < 0x98 ∧ d.queueAllowed r (bitsAt k.addr.toNat 0 13) = true ∧ (d.queueAt (bitsAt k.addr.toNat 0 13)).en = true ∧ 1 ≤ bitsAt k.addr.toNat 13 6 ∧ bitsAt k.addr.toNat 13 6 ≤ 32 ∧ packetBad k = false ∧ (d.queueAt (bitsAt k.addr.toNat 0 13)).waitQwr = [] ∧ bitsAt k.addr.toNat 13 6 ≤ (d.queueAt (bitsAt k.addr.toNat 0 13)).free) ∧
    (∃ (d : Dev) (k : Packet) (r : Req), d.active = true ∧ d.Sends k r ∧ 0x94 ≤ k.dst.val ∧ k.dst.val < 0x98 ∧ d.queueAllowed r (bitsAt k.addr.toNat 0 13) = true ∧ (d.queueAt (bitsAt k.addr.toNat 0 13)).en = true ∧ 1 ≤ bitsAt k.addr.toNat 13 6 ∧ bitsAt k.addr.toNat 13 6 ≤ 32 ∧ packetBad k = false ∧ (d.queueAt (bitsAt k.addr.toNat 0 13)).discard = false ∧ (d.queueAt (bitsAt k.addr.toNat 0 13)).free < bitsAt k.addr.toNat 13 6 ∧ (d.queueAt (bitsAt k.addr.toNat 0 13)).priv = false) ∧
    (∃ (d : Dev) (k : Packet) (r : Req), d.active = true ∧ d.Sends k r ∧ 0x94 ≤ k.dst.val ∧ k.dst.val < 0x98 ∧ d.queueAllowed r (bitsAt k.addr.toNat 0 13) = true ∧ (d.queueAt (bitsAt k.addr.toNat 0 13)).en = false) ∧
    (∃ (d : Dev) (k : Packet) (r : Req), d.active = true ∧ d.Sends k r ∧ 0x94 ≤ k.dst.val ∧ k.dst.val < 0x98 ∧ d.queueAllowed r (bitsAt k.addr.toNat 0 13) = true ∧ (d.queueAt (bitsAt k.addr.toNat 0 13)).en = true ∧ 1 ≤ bitsAt k.addr.toNat 13 6 ∧ bitsAt k.addr.toNat 13 6 ≤ 32 ∧ d.boundTo (bitsAt k.addr.toNat 0 13) = none ∧ (d.queueAt (bitsAt k.addr.toNat 0 13)).seen ≠ [] ∧ (d.queueAt (bitsAt k.addr.toNat 0 13)).waitQrd = []) ∧
    (∃ (d : Dev) (k : Packet) (r : Req), d.active = true ∧ d.Sends k r ∧ 0x94 ≤ k.dst.val ∧ k.dst.val < 0x98 ∧ d.queueAllowed r (bitsAt k.addr.toNat 0 13) = true ∧ (d.queueAt (bitsAt k.addr.toNat 0 13)).en = true ∧ 1 ≤ bitsAt k.addr.toNat 13 6 ∧ bitsAt k.addr.toNat 13 6 ≤ 32 ∧ d.boundTo (bitsAt k.addr.toNat 0 13) = none ∧ (d.queueAt (bitsAt k.addr.toNat 0 13)).seen = [] ∧ k.addr.getLsbD 19 = false) ∧
    (∃ (d : Dev) (k : Packet) (r : Req), d.active = true ∧ d.Sends k r ∧ 0x94 ≤ k.dst.val ∧ k.dst.val < 0x98 ∧ d.queueAllowed r (bitsAt k.addr.toNat 0 13) = false) ∧
    (∃ (d : Dev) (k : Packet) (r : Req), d.active = true ∧ d.Sends k r ∧ 0x94 ≤ k.dst.val ∧ k.dst.val < 0x98 ∧ d.queueAllowed r (bitsAt k.addr.toNat 0 13) = true ∧ (d.queueAt (bitsAt k.addr.toNat 0 13)).en = true ∧ 1 ≤ bitsAt k.addr.toNat 13 6 ∧ bitsAt k.addr.toNat 13 6 ≤ 32 ∧ packetBad k = false ∧ (d.queueAt (bitsAt k.addr.toNat 0 13)).waitQwr = [] ∧ (d.queueAt (bitsAt k.addr.toNat 0 13)).discard = true) ∧
    (∃ (d : Dev) (k : Packet) (r : Req), d.active = true ∧ d.Sends k r ∧ 0x94 ≤ k.dst.val ∧ k.dst.val < 0x98 ∧ d.queueAllowed r (bitsAt k.addr.toNat 0 13) = true ∧ (d.queueAt (bitsAt k.addr.toNat 0 13)).en = true ∧ 1 ≤ bitsAt k.addr.toNat 13 6 ∧ bitsAt k.addr.toNat 13 6 ≤ 32 ∧ packetBad k = false ∧ (d.queueAt (bitsAt k.addr.toNat 0 13)).discard = false ∧ (d.queueAt (bitsAt k.addr.toNat 0 13)).free < bitsAt k.addr.toNat 13 6 ∧ (d.queueAt (bitsAt k.addr.toNat 0 13)).priv = true) ∧
    (∃ (d : Dev) (k : Packet) (r : Req), d.active = true ∧ d.Sends k r ∧ 0x94 ≤ k.dst.val ∧ k.dst.val < 0x98 ∧ d.queueAllowed r (bitsAt k.addr.toNat 0 13) = true ∧ (d.queueAt (bitsAt k.addr.toNat 0 13)).en = true ∧ 1 ≤ bitsAt k.addr.toNat 13 6 ∧ bitsAt k.addr.toNat 13 6 ≤ 32 ∧ packetBad k = true) ∧
    (∃ (d : Dev) (k : Packet) (r : Req), d.active = true ∧ d.Sends k r ∧ 0x94 ≤ k.dst.val ∧ k.dst.val < 0x98 ∧ d.queueAllowed r (bitsAt k.addr.toNat 0 13) = true ∧ (d.queueAt (bitsAt k.addr.toNat 0 13)).en = true ∧ (bitsAt k.addr.toNat 13 6 = 0 ∨ 32 < bitsAt k.addr.toNat 13 6)) ∧
    (∃ (d : Dev) (k : Packet) (r : Req), d.active = true ∧ d.Sends k r ∧ 0x94 ≤ k.dst.val ∧ k.dst.val < 0x98 ∧ d.queueAllowed r (bitsAt k.addr.toNat 0 13) = true ∧ (d.queueAt (bitsAt k.addr.toNat 0 13)).en = true ∧ (bitsAt k.addr.toNat 13 6 = 0 ∨ 32 < bitsAt k.addr.toNat 13 6)) ∧
    (∃ (d : Dev) (k : Packet) (r : Req), d.active = true ∧ d.Sends k r ∧ 0x94 ≤ k.dst.val ∧ k.dst.val < 0x98 ∧ d.queueAllowed r (bitsAt k.addr.toNat 0 13) = false) ∧
    (∃ (d : Dev) (k : Packet) (r : Req), d.active = true ∧ d.Sends k r ∧ 0x94 ≤ k.dst.val ∧ k.dst.val < 0x98 ∧ d.queueAllowed r (bitsAt k.addr.toNat 0 13) = true ∧ (d.queueAt (bitsAt k.addr.toNat 0 13)).en = false) ∧
    (∃ (d : Dev) (k : Packet) (r : Req), d.active = true ∧ d.Sends k r ∧ 0x94 ≤ k.dst.val ∧ k.dst.val < 0x98 ∧ d.queueAllowed r (bitsAt k.addr.toNat 0 13) = true ∧ (d.queueAt (bitsAt k.addr.toNat 0 13)).en = true ∧ 1 ≤ bitsAt k.addr.toNat 13 6 ∧ bitsAt k.addr.toNat 13 6 ≤ 32 ∧ d.boundTo (bitsAt k.addr.toNat 0 13) = none ∧ (d.queueAt (bitsAt k.addr.toNat 0 13)).seen = [] ∧ k.addr.getLsbD 19 = true) :=
  ⟨⟨(routed ((up.setQueue 20 { Queue.reset with en := true, words := [⟨7, true, false, []⟩] })) 0x90 0x94), pk 0x90 0x94 8 (20 + (1 <<< 13)), ⟨0x90, 0, true⟩, by decide +kernel⟩,
   ⟨(routed ((up.setQueue 20 { Queue.reset with en := true, words := [⟨7, true, false, []⟩] })) 0x90 0x94), pk 0x90 0x94 8 (20 + (9 <<< 13)), ⟨0x90, 0, true⟩, by decide +kernel⟩,
   ⟨(routed up 0x90 0x94), pk 0x90 0x94 8 (20 + (1 <<< 13)), ⟨0x90, 0, true⟩, by decide +kernel⟩,
   ⟨(routed ((up.setQueue 20 { Queue.reset with en := true, words := [⟨7, true, false, []⟩] })) 0x90 0x94), pk 0x90 0x94 9 (20 + (1 <<< 13)), ⟨0x90, 0, true⟩, by decide +kernel⟩,
   ⟨(routed (up.setQueue 20 { Queue.reset with en := true }) 0x90 0x94), pk 0x90 0x94 9 (20 + (1 <<< 13)), ⟨0x90, 0, true⟩, by decide +kernel⟩,
   ⟨(routed (ptn3.p pNOC (NOC_NI_STATE_CLU 2) 0) 2 0x94), pk 2 0x94 9 (30 + (1 <<< 13)), Dev.ptnReq 2 3, by decide +kernel⟩,
   ⟨(routed (up.setQueue 20 { Queue.reset with en := true, discard := true }) 0x90 0x94), pk 0x90 0x94 8 (20 + (9 <<< 13)), ⟨0x90, 0, true⟩, by decide +kernel⟩,
   ⟨(routed (up.setQueue 20 { Queue.reset with en := true, priv := true, words := [⟨7, true, false, []⟩] }) 0x90 0x94), pk 0x90 0x94 8 (20 + (32 <<< 13)), ⟨0x90, 0, true⟩, by decide +kernel⟩,
   ⟨(routed ((up.setQueue 20 { Queue.reset with en := true, words := [⟨7, true, false, []⟩] })) 0x90 0x94), badPk 0x90 0x94 8 (20 + (1 <<< 13)), ⟨0x90, 0, true⟩, by decide +kernel⟩,
   ⟨(routed ((up.setQueue 20 { Queue.reset with en := true, words := [⟨7, true, false, []⟩] })) 0x90 0x94), pk 0x90 0x94 8 20, ⟨0x90, 0, true⟩, by decide +kernel⟩,
   ⟨(routed ((up.setQueue 20 { Queue.reset with en := true, words := [⟨7, true, false, []⟩] })) 0x90 0x94), pk 0x90 0x94 9 (20 + (33 <<< 13)), ⟨0x90, 0, true⟩, by decide +kernel⟩,
   ⟨(routed (ptn3.p pNOC (NOC_NI_STATE_CLU 2) 0) 2 0x94), pk 2 0x94 8 (30 + (1 <<< 13)), Dev.ptnReq 2 3, by decide +kernel⟩,
   ⟨(routed up 0x90 0x94), pk 0x90 0x94 9 (20 + (1 <<< 13)), ⟨0x90, 0, true⟩, by decide +kernel⟩,
   ⟨(routed (up.setQueue 20 { Queue.reset with en := true }) 0x90 0x94), pk 0x90 0x94 9 (20 + (1 <<< 13) + (1 <<< 19)), ⟨0x90, 0, true⟩, by decide +kernel⟩⟩

theorem test_responses_hops_and_routes_are_handled_met :
    (∃ (d : Dev) (k : Packet) (o : Outst), d.active = true ∧ 64 ≤ k.dst.val ∧ k.dst.val < 0xE0 ∧ d.noc.outst.find? (fun o => o.src == k.dst.val && o.tag == k.tag.val) = some o ∧ o.abandoned = false) ∧
    (∃ (d : Dev) (k : Packet) (o : Outst), d.active = true ∧ 64 ≤ k.dst.val ∧ k.dst.val < 0xE0 ∧ d.noc.outst.find? (fun o => o.src == k.dst.val && o.tag == k.tag.val) = some o ∧ o.abandoned = false) ∧
    (∃ (d : Dev) (k : Packet), d.active = true ∧ d.noc.outst.find? (fun o => o.src == k.dst.val && o.tag == k.tag.val) = none) ∧
    (∃ (d : Dev) (k : Packet) (o : Outst), d.active = true ∧ 64 ≤ k.dst.val ∧ d.noc.outst.find? (fun o => o.src == k.dst.val && o.tag == k.tag.val) = some o ∧ o.abandoned = true) ∧
    (∃ (d : Dev) (src : Fin 256) (tag : Fin 4096) (o : Outst), d.active = true ∧ d.noc.outst.find? (fun o => o.src == src.val && o.tag == tag.val) = some o ∧ o.abandoned = false) ∧
    (∃ (d : Dev) (src : Fin 256) (tag : Fin 4096) (o : Outst), d.active = true ∧ d.noc.outst.find? (fun o => o.src == src.val && o.tag == tag.val) = some o ∧ o.abandoned = true) ∧
    (∃ (d : Dev) (src : Fin 256) (tag : Fin 4096), d.active = true) ∧
    (∃ (d : Dev) (port idx : Fin 256) (entry : W64), d.active = true ∧ portAt port ≠ none ∧ routeLegal port entry.toNat = true) ∧
    (∃ (d : Dev) (port idx : Fin 256) (entry : W64), d.active = true ∧ portAt port ≠ none ∧ routeLegal port entry.toNat = false) ∧
    (∃ (d : Dev) (x : Fin 8) (y : Fin 10) (ins : List (Fin 9 × Fin 4 × Flit)), d.active = true) ∧
    (∃ (d : Dev) (x y inp vc syn : Nat) (f : Flit), d.noc.drop.contains (vcKey x y inp vc) = false ∧ d.hasCredit x y inp vc = true ∧ flitBegins f = true ∧ headerSecded f.data.toNat = .ue syn) ∧
    (∃ (d : Dev) (x y inp vc : Nat) (f : Flit), d.noc.drop.contains (vcKey x y inp vc) = false ∧ d.hasCredit x y inp vc = true ∧ flitBegins f = true ∧ headerSecded f.data.toNat = .ok ∧ bitsAt (f.data.toNat % 2 ^ 247) 64 4 ≤ 8 ∧ hasOutput x y (hopOut (f.data.toNat % 2 ^ 247)) = true ∧ (hopOut (f.data.toNat % 2 ^ 247) < 4 ∨ opKnown (bitsAt (f.data.toNat % 2 ^ 247) 58 6) = true)) ∧
    (∃ (d : Dev) (x y inp vc : Nat), d.hasCredit x y inp vc = false ∧ d.noc.drop.contains (vcKey x y inp vc) = false) ∧
    (∃ (d : Dev) (x y out vc inp : Nat) (f : Flit) (rest : List Flit), d.flitsAt x y inp vc = f :: rest ∧ flitBegins f = true ∧ flitEnds f = false ∧ 4 ≤ out) ∧
    (∃ (d : Dev) (k : Packet) (b : CapBlk), d.active = true ∧ d.cap.blocksOut.find? (fun b => b.addr == k.addr.toNat) = some b ∧ packetBad k = false) ∧
    (∃ (d : Dev) (k : Packet) (b : CapBlk), d.active = true ∧ d.cap.blocksOut.find? (fun b => b.addr == k.addr.toNat) = some b ∧ packetBad k = true) ∧
    (∃ (d : Dev) (k : Packet), d.active = true ∧ (List.range 17).find? (fun s => !(d.strmAt s).out.isEmpty && d.ringBlocks s ≠ 0 && d.trcPlace s == (decide (0x90 ≤ k.dst.val) && decide (k.dst.val ≤ 0x93), k.addr.toNat)) = none) ∧
    (∃ (d : Dev) (k : Packet) (s : Nat), d.active = true ∧ (List.range 17).find? (fun s => !(d.strmAt s).out.isEmpty && d.ringBlocks s ≠ 0 && d.trcPlace s == (false, k.addr.toNat)) = some s ∧ packetBad k = false ∧ k.dst.val < 0x90 ∧ s < 16) ∧
    (∃ (d : Dev), d.Up) :=
  ⟨⟨waiting 0x90 0x40, pk 0x40 0x90 0x20 0, outst0, by decide +kernel⟩,
   ⟨waiting 0x90 0x40, pk 0x40 0x90 0x21 0, outst0, by decide +kernel⟩,
   ⟨{ up with noc := { up.noc with quar := [(0x90, 7)] } }, pk 0x40 0x90 0x20 0, by decide +kernel⟩,
   ⟨{ up with noc := { up.noc with outst := [{ outst0 with abandoned := true }] } }, pk 0x40 0x90 0x21 0, { outst0 with abandoned := true }, by decide +kernel⟩,
   ⟨waiting 0x90 0x40, 0x90, 7, outst0, by decide +kernel⟩,
   ⟨{ up with noc := { up.noc with outst := [{ outst0 with abandoned := true }] } }, 0x90, 7, { outst0 with abandoned := true }, by decide +kernel⟩,
   ⟨up, 0x90, 7, by decide +kernel⟩,
   ⟨up, 9, 10, (1 <<< 63) ||| (1 <<< 32) ||| 1, by decide +kernel⟩,
   ⟨up, 9, 10, (1 <<< 63) ||| (17 <<< 32), by decide +kernel⟩,
   ⟨up, 3, 4, [], by decide +kernel⟩,
   ⟨up, 3, 4, 0, 0, (match headerSecded (headerOf (pk 0x40 0x90 1 0) 0 ^^^ 3).toNat with | .ue s => s | _ => 0), hopFlit (headerOf (pk 0x40 0x90 1 0) 0 ^^^ 3), by decide +kernel⟩,
   ⟨up, 3, 4, 0, 0, hopFlit (headerOf (pk 0x40 0x90 1 0) 0), by decide +kernel⟩,
   ⟨Dev.setFlits up 3 4 0 0 (List.replicate 8 (hopFlit 0)), 3, 4, 0, 0, by decide +kernel⟩,
   ⟨Dev.setFlits up 3 4 0 0 [⟨0, 0, 0⟩], 3, 4, 4, 0, 0, ⟨0, 0, 0⟩, [], by decide +kernel⟩,
   ⟨{ up with cap := { up.cap with blocksOut := [capBlk] } }, pk 0x9A 0x40 2 0x1000, capBlk, by decide +kernel⟩,
   ⟨{ up with cap := { up.cap with blocksOut := [capBlk] } }, badPk 0x9A 0x40 2 0x1000, capBlk, by decide +kernel⟩,
   ⟨up, pk 0x9B 0x40 2 0x1000, by decide +kernel⟩,
   ⟨((up.p pTRC (TRC_S_SIZE_PAGES 2) 1).setStrm 2 { up.strmAt 2 with out := [[1, 2]] }), pk 0x9B 0x40 2 0, 2, by decide +kernel⟩,
   ⟨up, by decide +kernel⟩⟩

theorem test_network_interfaces_drain_and_unfence_met :
    (∃ (d : Dev) (n : Fin 64), d.active = true ∧ d.niState n = 0) ∧
    (∃ (d : Dev) (n : Fin 64), d.active = true ∧ d.niState n ≠ 0) ∧
    (∃ (d : Dev) (n : Fin 64), d.active = true ∧ d.niState n = 1 ∧ d.drained n = true) ∧
    (∃ (d : Dev) (n : Fin 64), d.active = true ∧ d.drained n = false) ∧
    (∃ (d : Dev) (n : Fin 64), d.active = true ∧ d.niState n = 1) ∧
    (∃ (d : Dev) (n : Fin 64), d.active = true ∧ d.niState n ≠ 1) ∧
    (∃ (d : Dev) (n : Fin 64), d.active = true ∧ d.niState n = 2 ∧ d.cluPower n ≠ 2 ∧ d.memoriesClear n = true) ∧
    (∃ (d : Dev) (n : Fin 64), d.active = true ∧ d.niState n ≠ 2) :=
  ⟨⟨upn, 2, by decide +kernel⟩,
   ⟨up, 2, by decide +kernel⟩,
   ⟨up.p pNOC (NOC_NI_STATE_CLU 2) 1, 2, by decide +kernel⟩,
   ⟨(waiting 2 0x40), 2, by decide +kernel⟩,
   ⟨up.p pNOC (NOC_NI_STATE_CLU 2) 1, 2, by decide +kernel⟩,
   ⟨up, 2, by decide +kernel⟩,
   ⟨(up.p pNOC (NOC_NI_STATE_CLU 2) 2).p pPMU (PMU_CSTATE_CLU 2) 0, 2, by decide +kernel⟩,
   ⟨upn, 2, by decide +kernel⟩⟩

theorem test_doorbells_append_and_pop_met :
    (∃ (d : Dev) (fn : Fn) (slot : Fin 8192) (e fence : Bool) (w : W64) (k : Nat), d.active = true ∧ d.slotQueue fn slot = some k ∧ (d.queueAt k).en = true ∧ d.pwr.fnReset.contains fn = false ∧ d.Linked (some (queuePort k))) ∧
    (∃ (d : Dev) (fn : Fn) (slot : Fin 8192) (e fence : Bool) (w : W64) (k : Nat), d.active = true ∧ d.slotQueue fn slot = some k ∧ (d.queueAt k).en = false) ∧
    (∃ (d : Dev) (fn : Fn) (slot : Fin 8192) (ws : Words) (k : Nat), d.active = true ∧ 1 ≤ ws.length ∧ ws.length ≤ 4 ∧ d.slotQueue fn slot = some k ∧ (d.queueAt k).en = true ∧ d.pwr.fnReset.contains fn = false ∧ d.Linked (some (queuePort k)) ∧ ((d.queueAt k).discard = true ∨ ws.length ≤ (d.queueAt k).free)) ∧
    (∃ (d : Dev) (fn : Fn) (slot : Fin 8192) (ws : Words), d.active = true ∧ 4 < ws.length) ∧
    (∃ (d : Dev) (fn : Fn) (slot : Fin 8192) (k : Nat), d.active = true ∧ d.slotQueue fn slot = some k ∧ (d.queueAt k).en = true ∧ d.pwr.fnReset.contains fn = false ∧ d.Linked (some (queuePort k)) ∧ d.boundTo k = none ∧ (d.queueAt k).seen ≠ [] ∧ (d.queueAt k).waitPop = []) ∧
    (∃ (d : Dev) (fn : Fn) (slot : Fin 8192) (k : Nat), d.active = true ∧ d.slotQueue fn slot = some k ∧ (d.queueAt k).en = true ∧ d.pwr.fnReset.contains fn = false ∧ d.Linked (some (queuePort k)) ∧ d.boundTo k = none ∧ (d.queueAt k).seen = [] ∧ d.popWait = 0) ∧
    (∃ (d : Dev) (fn : Fn) (slot : Fin 8192) (k : Nat), d.active = true ∧ d.slotQueue fn slot = some k ∧ (d.queueAt k).en = true ∧ d.pwr.fnReset.contains fn = false ∧ d.Linked (some (queuePort k)) ∧ d.boundTo k = none ∧ (d.queueAt k).seen = [] ∧ d.popWait ≠ 0) ∧
    (∃ (d : Dev) (fn : Fn) (slot : Fin 8192) (k : Nat), d.active = true ∧ d.slotQueue fn slot = some k ∧ (d.queueAt k).waitPop.contains fn = true) ∧
    (∃ (d : Dev) (fn : Fn) (off : Nat) (write : Bool), d.active = true) ∧
    (∃ (d : Dev) (k : Fin 8192) (w : Packet) (rest : List Packet), d.active = true ∧ (d.queueAt k).waitQwr = w :: rest) ∧
    (∃ (d : Dev) (k : Fin 8192) (w : Packet) (rest : List Packet), d.active = true ∧ (d.queueAt k).waitQrd = w :: rest) :=
  ⟨⟨(up.setQueue 20 { Queue.reset with en := true }), .pf, 20, true, false, 5, 20, by decide +kernel⟩,
   ⟨up, .pf, 20, true, false, 5, 20, by decide +kernel⟩,
   ⟨(up.setQueue 20 { Queue.reset with en := true }), .pf, 20, [1, 2], 20, by decide +kernel⟩,
   ⟨up, .pf, 20, [1, 2, 3, 4, 5], by decide +kernel⟩,
   ⟨(up.setQueue 20 { Queue.reset with en := true, words := [⟨7, true, false, []⟩] }), .pf, 20, 20, by decide +kernel⟩,
   ⟨((up.setQueue 20 { Queue.reset with en := true }).p pMQE MQE_CFG_POP_WAIT 0), .pf, 20, 20, by decide +kernel⟩,
   ⟨((up.setQueue 20 { Queue.reset with en := true }).p pMQE MQE_CFG_POP_WAIT 5), .pf, 20, 20, by decide +kernel⟩,
   ⟨(up.setQueue 20 { Queue.reset with en := true, waitPop := [.pf] }), .pf, 20, 20, by decide +kernel⟩,
   ⟨up, .pf, 24, true, by decide +kernel⟩,
   ⟨(up.setQueue 20 { Queue.reset with en := true, waitQwr := [pk 0x90 0x94 8 20] }), 20, pk 0x90 0x94 8 20, [], by decide +kernel⟩,
   ⟨(up.setQueue 20 { Queue.reset with en := true, waitQrd := [pk 0x90 0x94 9 20] }), 20, pk 0x90 0x94 9 20, [], by decide +kernel⟩⟩

theorem test_queue_commands_take_effect_met :
    (∃ (d : Dev) (fn : Fn) (x : Fin 8192) (k : Nat), d.active = true ∧ d.winQueue fn x = some k ∧ d.pwr.fnReset.contains fn = false ∧ 16 ≤ k) ∧
    (∃ (d : Dev) (fn : Fn) (x : Fin 8192) (k : Nat), d.active = true ∧ d.winQueue fn x = some k ∧ d.pwr.fnReset.contains fn = false ∧ 16 ≤ k) ∧
    (∃ (d : Dev) (fn : Fn) (x : Fin 8192) (k : Nat), d.active = true ∧ d.winQueue fn x = some k ∧ d.pwr.fnReset.contains fn = false ∧ 16 ≤ k) ∧
    (∃ (d : Dev) (fn : Fn) (x : Fin 8192) (k : Nat), d.active = true ∧ d.winQueue fn x = some k ∧ d.pwr.fnReset.contains fn = false ∧ (k = 2 ∨ k = 3)) ∧
    (∃ (d : Dev) (fn : Fn) (x : Fin 8192) (k : Nat), d.active = true ∧ d.winQueue fn x = some k ∧ d.pwr.fnReset.contains fn = false ∧ (k = 2 ∨ k = 3)) ∧
    (∃ (d : Dev) (fn : Fn) (x : Fin 8192) (k : Nat), d.active = true ∧ d.winQueue fn x = some k ∧ d.pwr.fnReset.contains fn = false ∧ (k = 2 ∨ k = 3)) ∧
    (∃ (d : Dev) (fn : Fn) (x : Fin 8192) (k : Nat), d.active = true ∧ d.winQueue fn x = some k ∧ d.pwr.fnReset.contains fn = false ∧ k < 16 ∧ k ≠ 2 ∧ k ≠ 3) ∧
    (∃ (d : Dev) (fn : Fn) (x : Fin 8192) (k : Nat), d.active = true ∧ d.winQueue fn x = some k ∧ d.pwr.fnReset.contains fn = false ∧ k < 16 ∧ k ≠ 2 ∧ k ≠ 3) ∧
    (∃ (d : Dev) (fn : Fn) (x : Fin 8192) (k : Nat), d.active = true ∧ d.winQueue fn x = some k ∧ d.pwr.fnReset.contains fn = false ∧ k < 16 ∧ k ≠ 2 ∧ k ≠ 3) ∧
    (∃ (d : Dev) (fn : Fn) (x : Fin 8192) (k : Nat), d.active = true ∧ d.winQueue fn x = some k ∧ d.pwr.fnReset.contains fn = false ∧ k < 16) ∧
    (∃ (d : Dev) (fn : Fn) (x : Fin 8192) (k : Nat), d.active = true ∧ d.winQueue fn x = some k ∧ d.pwr.fnReset.contains fn = false ∧ k < 16) ∧
    (∃ (d : Dev) (fn : Fn) (x : Fin 8192) (k : Nat) (i : Nat), d.active = true ∧ d.winQueue fn x = some k ∧ d.pwr.fnReset.contains fn = false ∧ 16 ≤ k ∧ d.queueOwner k = some i ∧ (d.queueAt k).en = false ∧ d.blocksUsed (d.g pDEV (DEV_DIR_QBASE i)) (d.g pDEV (DEV_DIR_QBASE i) + d.g pDEV (DEV_DIR_QCOUNT i)) + (d.queueAt k).blocks ≤ d.g pDEV (DEV_DIR_QCOUNT i) * 16) ∧
    (∃ (d : Dev) (fn : Fn) (x : Fin 8192) (k : Nat) (i : Nat), d.active = true ∧ d.winQueue fn x = some k ∧ d.pwr.fnReset.contains fn = false ∧ 16 ≤ k ∧ d.queueOwner k = some i ∧ (d.queueAt k).en = false ∧ d.g pDEV (DEV_DIR_QCOUNT i) * 16 < d.blocksUsed (d.g pDEV (DEV_DIR_QBASE i)) (d.g pDEV (DEV_DIR_QBASE i) + d.g pDEV (DEV_DIR_QCOUNT i)) + (d.queueAt k).blocks) ∧
    (∃ (d : Dev) (fn : Fn) (x : Fin 8192) (k : Nat), d.active = true ∧ d.winQueue fn x = some k ∧ d.pwr.fnReset.contains fn = false ∧ 16 ≤ k ∧ (d.queueAt k).en = true) ∧
    (∃ (d : Dev) (fn : Fn) (x : Fin 8192) (k : Nat), d.active = true ∧ d.winQueue fn x = some k ∧ d.pwr.fnReset.contains fn = false ∧ 16 ≤ k ∧ (d.queueAt k).en = false) :=
  ⟨⟨(up.setQueue 20 { Queue.reset with en := true, words := [⟨7, true, false, []⟩] }), .pf, 20, 20, by decide +kernel⟩,
   ⟨(up.setQueue 20 { Queue.reset with en := true, words := [⟨7, true, false, []⟩] }), .pf, 20, 20, by decide +kernel⟩,
   ⟨(up.setQueue 20 { Queue.reset with en := true, words := [⟨7, true, false, []⟩] }), .pf, 20, 20, by decide +kernel⟩,
   ⟨up, .pf, 2, 2, by decide +kernel⟩,
   ⟨up, .pf, 3, 3, by decide +kernel⟩,
   ⟨up, .pf, 2, 2, by decide +kernel⟩,
   ⟨up, .pf, 5, 5, by decide +kernel⟩,
   ⟨up, .pf, 0, 0, by decide +kernel⟩,
   ⟨up, .pf, 1, 1, by decide +kernel⟩,
   ⟨up, .pf, 2, 2, by decide +kernel⟩,
   ⟨up, .pf, 15, 15, by decide +kernel⟩,
   ⟨(ptn3.setQueue 20 Queue.reset), .pf, 20, 20, 3, by decide +kernel⟩,
   ⟨(ptn3.setQueue 20 { Queue.reset with depth := 10 }), .pf, 20, 20, 3, by decide +kernel⟩,
   ⟨(up.setQueue 20 { Queue.reset with en := true, words := [⟨7, true, false, []⟩] }), .pf, 20, 20, by decide +kernel⟩,
   ⟨up, .pf, 20, 20, by decide +kernel⟩⟩

theorem test_couriers_take_and_end_items_met :
    (∃ (d : Dev), d.HubPage pDSP ∧ d.dsp.heldSub = [] ∧ (d.listAt 16).length < 256) ∧
    (∃ (d : Dev), d.HubPage pDSP ∧ d.dsp.heldSub = [] ∧ 256 ≤ (d.listAt 16).length ∧ (d.g pDSP DSP_CFG_COMPAT).testBit 16 = true ∧ d.badItem ⟨BitVec.ofNat 64 (d.g pDSP (DSP_WI_WORD 0)), BitVec.ofNat 64 (d.g pDSP (DSP_WI_WORD 1)), BitVec.ofNat 64 (d.g pDSP (DSP_WI_WORD 2)), BitVec.ofNat 64 (d.g pDSP (DSP_WI_WORD 3)), 16, d.now⟩ = false) ∧
    (∃ (d : Dev), d.HubPage pDSP ∧ d.dsp.heldSub = [] ∧ (d.g pDSP DSP_CFG_COMPAT).testBit 16 = false) ∧
    (∃ (d : Dev), d.HubPage pDSP ∧ d.dsp.heldSub.any (fun h => h.1.list == 16 && h.2 == Fn.pf) = true) ∧
    (∃ (d : Dev), d.active = true ∧ d.reach .pf pDSP ≠ .yes) ∧
    (∃ (d : Dev) (i : Fin 16), d.active = true ∧ d.reach (.vf i) (pPTN i) = .yes ∧ d.dsp.heldSub = [] ∧ (d.listAt i).length < 256) ∧
    (∃ (d : Dev) (i : Fin 16), d.active = true ∧ d.reach (.vf i) (pPTN i) ≠ .yes) ∧
    (∃ (d : Dev) (l : Fin 17) (h : Work × Fn), d.active = true ∧ d.dsp.heldSub.find? (fun h => h.1.list == l.val) = some h) ∧
    (∃ (d : Dev) (c : Fin 32) (data : List Byte) (w : Work), d.active = true ∧ (d.courierAt c).item = none ∧ (d.courierAt c).slot = some w) ∧
    (∃ (d : Dev) (c : Fin 32) (data : List Byte), d.active = true ∧ (d.courierAt c).item = none ∧ (d.courierAt c).slot = none ∧ d.nextList = none) ∧
    (∃ (d : Dev) (c : Fin 32) (data : List Byte) (w : Work) (f : Dev), d.active = true ∧ (d.courierAt c).item = none ∧ (d.courierAt c).slot = none ∧ d.takeItem = some (w, f)) ∧
    (∃ (d : Dev) (c : Fin 32) (data : List Byte) (v w : Work) (f : Dev), d.active = true ∧ (d.courierAt c).item = some v ∧ (d.courierAt c).slot = none ∧ d.takeItem = some (w, f)) ∧
    (∃ (d : Dev) (c : Fin 32) (w : Work), d.active = true ∧ (d.courierAt c).item = some w ∧ d.g pCRR (CRR_CSTATE_STATE c) = 1) ∧
    (∃ (d : Dev) (c : Fin 32), d.active = true ∧ (d.courierAt c).item = none) ∧
    (∃ (d : Dev) (c : Fin 32) (w : Work), d.active = true ∧ (d.courierAt c).item = some w ∧ d.g pCRR (CRR_CSTATE_STATE c) = 2) ∧
    (∃ (d : Dev), d.Up) :=
  ⟨⟨up, by decide +kernel⟩,
   ⟨((up.p pDSP (DSP_WI_WORD 0) 4).setList 16 (List.replicate 256 ⟨5, 0, 0, 0, 16, 0⟩)).p pDSP DSP_CFG_COMPAT (1 <<< 16), by decide +kernel⟩,
   ⟨(((up.p pDSP (DSP_WI_WORD 0) 4).setList 16 (List.replicate 256 ⟨5, 0, 0, 0, 16, 0⟩)).p pDSP DSP_CFG_COMPAT 0), by decide +kernel⟩,
   ⟨{ up with dsp := { up.dsp with heldSub := [(⟨5, 0, 0, 0, 16, 0⟩, .pf)] } }, by decide +kernel⟩,
   ⟨{ up with pwr := { up.pwr with fnReset := [.pf] } }, by decide +kernel⟩,
   ⟨upvf, 3, by decide +kernel⟩,
   ⟨up, 4, by decide +kernel⟩,
   ⟨{ up with dsp := { up.dsp with heldSub := [(⟨5, 0, 0, 0, 16, 0⟩, .pf)] } }, 16, (⟨5, 0, 0, 0, 16, 0⟩, .pf), by decide +kernel⟩,
   ⟨up.setCourier 4 { Courier.reset with slot := some ⟨5, 0, 0, 0, 16, 0⟩ }, 4, [], ⟨5, 0, 0, 0, 16, 0⟩, by decide +kernel⟩,
   ⟨up, 4, [], by decide +kernel⟩,
   ⟨up.setList 16 [⟨5, 0, 0, 0, 16, 0⟩], 4, [], ⟨5, 0, 0, 0, 16, 0⟩, ((up.setList 16 [⟨5, 0, 0, 0, 16, 0⟩]).takeItem.getD (⟨5, 0, 0, 0, 16, 0⟩, up)).2, by decide +kernel⟩,
   ⟨(up.setList 3 [⟨4, 0, 0, 0, 3, 0⟩]).setCourier 4 { Courier.reset with item := some ⟨5, 0, 0, 0, 16, 0⟩ }, 4, [], ⟨5, 0, 0, 0, 16, 0⟩, ⟨4, 0, 0, 0, 3, 0⟩, (((up.setList 3 [⟨4, 0, 0, 0, 3, 0⟩]).setCourier 4 { Courier.reset with item := some ⟨5, 0, 0, 0, 16, 0⟩ }).takeItem.getD (⟨5, 0, 0, 0, 16, 0⟩, up)).2, by decide +kernel⟩,
   ⟨(up.setCourier 4 { Courier.reset with item := some ⟨5, 0, 0, 0, 16, 0⟩ }).p pCRR (CRR_CSTATE_STATE 4) 1, 4, ⟨5, 0, 0, 0, 16, 0⟩, by decide +kernel⟩,
   ⟨up, 4, by decide +kernel⟩,
   ⟨(up.setCourier 4 { Courier.reset with item := some ⟨5, 0, 0, 0, 16, 0⟩ }).p pCRR (CRR_CSTATE_STATE 4) 2, 4, ⟨5, 0, 0, 0, 16, 0⟩, by decide +kernel⟩,
   ⟨up, by decide +kernel⟩⟩

theorem test_trigger_commands_take_effect_met :
    (∃ (d : Dev), d.Up ∧ (16 ≤ d.g pTRG TRG_SEQ_CTRL_OWNER ∨ d.ptnBusy (d.g pTRG TRG_SEQ_CTRL_OWNER) = false)) ∧
    (∃ (d : Dev), d.Up ∧ d.g pTRG TRG_SEQ_CTRL_OWNER < 16 ∧ d.ptnBusy (d.g pTRG TRG_SEQ_CTRL_OWNER) = true) ∧
    (∃ (d : Dev), d.Up) ∧
    (∃ (d : Dev), d.active = true ∧ d.b pTRG TRG_SEQ_STATUS_ARMED = true ∧ d.g pTRG (TRG_LTIMEOUT_US (d.g pTRG TRG_SEQ_STATUS_LEVEL)) ≠ 0) ∧
    (∃ (d : Dev), d.active = true ∧ d.b pTRG TRG_SEQ_STATUS_ARMED = false) ∧
    (∃ (d : Dev) (j : Fin 8) (e : Bool), d.active = true ∧ d.b pTRG (TRG_PIN_OUT j) = true) ∧
    (∃ (d : Dev) (j : Fin 8) (e : Bool) (lv : Nat), d.active = true ∧ d.b pTRG (TRG_PIN_OUT j) = false ∧ lv = (if e then d.trg.pinIn ||| 1 <<< j.val else d.trg.pinIn &&& (255 ^^^ 1 <<< j.val))) ∧
    (∃ (d : Dev) (j : Fin 8), d.active = true ∧ d.trg.pulsing.testBit j = true) ∧
    (∃ (d : Dev) (j : Fin 8), d.active = true ∧ d.trg.pulsing.testBit j = false) :=
  ⟨⟨up.p pTRG TRG_SEQ_CTRL_OWNER 3, by decide +kernel⟩,
   ⟨(up.p pTRG TRG_SEQ_CTRL_OWNER 3).p pRST RST_PTN_STATUS_BUSY 8, by decide +kernel⟩,
   ⟨up, by decide +kernel⟩,
   ⟨(up.on pTRG TRG_SEQ_STATUS_ARMED).p pTRG (TRG_LTIMEOUT_US 0) 5, by decide +kernel⟩,
   ⟨up, by decide +kernel⟩,
   ⟨up.on pTRG (TRG_PIN_OUT 3), 3, true, by decide +kernel⟩,
   ⟨up, 3, true, 8, by decide +kernel⟩,
   ⟨{ up with trg := { up.trg with pulsing := 8 } }, 3, by decide +kernel⟩,
   ⟨up, 3, by decide +kernel⟩⟩

theorem test_capture_commands_take_effect_met :
    (∃ (d : Dev) (c : Fin 17), d.Up ∧ d.g pCAP (CAP_CSTATUS_STATE c) ≠ 0) ∧
    (∃ (d : Dev) (c : Fin 17), d.Up ∧ d.g pCAP (CAP_CSTATUS_STATE c) = 0 ∧ d.capChans c = []) ∧
    (∃ (d : Dev) (c : Fin 17), d.Up ∧ d.g pCAP (CAP_CSTATUS_STATE c) = 0 ∧ d.capChans c ≠ [] ∧ (d.capChans c).all (fun ch => d.capRegionOk c ch) = true ∧ (c = 16 ∨ d.capSum c ≤ d.g pCAP (CAP_CHARGE_ALLOW c) * 1000) ∧ 2000000 < d.capSum c + d.g pCAP CAP_SLICE_USED_MBS) ∧
    (∃ (d : Dev) (c : Fin 17), d.Up ∧ d.g pCAP (CAP_CSTATUS_STATE c) = 0 ∧ d.capChans c ≠ [] ∧ (d.capChans c).all (fun ch => d.capRegionOk c ch) = true ∧ (c = 16 ∨ d.capSum c ≤ d.g pCAP (CAP_CHARGE_ALLOW c) * 1000) ∧ d.capSum c + d.g pCAP CAP_SLICE_USED_MBS ≤ 2000000) ∧
    (∃ (d : Dev) (c : Fin 17), d.Up ∧ d.g pCAP (CAP_CSTATUS_STATE c) = 0) ∧
    (∃ (d : Dev) (c : Fin 17), d.Up ∧ d.g pCAP (CAP_CSTATUS_STATE c) = 0 ∧ d.capChans c ≠ [] ∧ (d.capChans c).any (fun ch => !d.capRegionOk c ch) = true) ∧
    (∃ (d : Dev) (c : Fin 17), d.Up ∧ d.g pCAP (CAP_CSTATUS_STATE c) = 0 ∧ d.capChans c ≠ [] ∧ (d.capChans c).all (fun ch => d.capRegionOk c ch) = true ∧ c ≠ 16 ∧ d.g pCAP (CAP_CHARGE_ALLOW c) * 1000 < d.capSum c) ∧
    (∃ (d : Dev) (c : Fin 17), d.Up ∧ d.g pCAP (CAP_CSTATUS_STATE c) = 1) ∧
    (∃ (d : Dev) (c : Fin 17), d.Up ∧ d.g pCAP (CAP_CSTATUS_STATE c) = 2) ∧
    (∃ (d : Dev) (c : Fin 17), d.Up ∧ d.g pCAP (CAP_CSTATUS_STATE c) = 3) ∧
    (∃ (d : Dev) (ch : Fin 64) (addr : Nat), d.active = true ∧ (d.chanAt ch).ready = []) ∧
    (∃ (d : Dev) (ch : Fin 64) (addr : Nat) (b : CapBlk) (rest : List CapBlk), d.active = true ∧ (d.chanAt ch).ready = b :: rest ∧ b.addr ≠ addr) ∧
    (∃ (d : Dev) (ch : Fin 64) (b : CapBlk) (rest : List CapBlk) (f : Dev), d.active = true ∧ (d.chanAt ch).ready = b :: rest ∧ (rest ≠ [] ∨ (d.chanAt ch).phase ≠ 2) ∧ f = d.setChan ch { d.chanAt ch with ready := rest }) ∧
    (∃ (d : Dev) (ch : Fin 64) (b : CapBlk) (f : Dev), d.active = true ∧ (d.chanAt ch).ready = [b] ∧ (d.chanAt ch).phase = 2 ∧ f = d.setChan ch { d.chanAt ch with ready := [] } ∧ f.capPost (f.g pCAP (CAP_CH_CFG_OWNER ch)) ch ≤ (d.chanAt ch).post) ∧
    (∃ (d : Dev) (ch : Fin 64), d.active = true ∧ (d.chanAt ch).phase = 2 ∧ d.g pCAP (CAP_ARM_POST_LIMIT (d.g pCAP (CAP_CH_CFG_OWNER ch))) ≠ 0) ∧
    (∃ (d : Dev) (ch : Fin 64), d.active = true ∧ (d.chanAt ch).phase ≠ 2) ∧
    (∃ (d : Dev) (c : Fin 17), d.active = true ∧ d.g pCAP (CAP_CSTATUS_STATE c) = 3) ∧
    (∃ (d : Dev) (c : Fin 17), d.active = true ∧ d.g pCAP (CAP_CSTATUS_STATE c) ≠ 3) ∧
    (∃ (d : Dev) (ch : Fin 64) (o : Fin 32), d.Up) ∧
    (∃ (d : Dev) (ch : Fin 64) (x : Chan) (size : Nat), d.active = true ∧ x = d.chanAt ch ∧ x.zeroing = true ∧ size = d.g pCAP CAP_PW_SIZE_PAGES) ∧
    (∃ (d : Dev) (ch : Fin 64), d.active = true ∧ (d.chanAt ch).zeroing = false) ∧
    (∃ (d : Dev) (v : W64), d.Up ∧ (∀ c, c < 17 → d.g pCAP (CAP_CSTATUS_STATE c) = 0) ∧ d.pinwheelOk (v.toNat / 4096 * 4096) (d.g pCAP CAP_PW_SIZE_PAGES * 4096) = true) ∧
    (∃ (d : Dev) (v : W64) (c : Fin 17), d.Up ∧ d.g pCAP (CAP_CSTATUS_STATE c) ≠ 0) :=
  ⟨⟨up.p pCAP (CAP_CSTATUS_STATE 3) 1, 3, by decide +kernel⟩,
   ⟨up, 3, by decide +kernel⟩,
   ⟨(((((up.p pCAP CAP_SLICE_USED_MBS 0x1FFFFF).on pCAP (CAP_CH_CFG_EN 2)).p pCAP (CAP_CH_CFG_OWNER 2) 16).p pCAP (CAP_CH_PAGES_PAGES 2) 16).p pCAP (CAP_CH_OFFSET_PAGES 2) 8).p pCAP CAP_PW_SIZE_PAGES 64, 16, by decide +kernel⟩,
   ⟨((((up.on pCAP (CAP_CH_CFG_EN 2)).p pCAP (CAP_CH_CFG_OWNER 2) 16).p pCAP (CAP_CH_PAGES_PAGES 2) 16).p pCAP (CAP_CH_OFFSET_PAGES 2) 8).p pCAP CAP_PW_SIZE_PAGES 64, 16, by decide +kernel⟩,
   ⟨up, 3, by decide +kernel⟩,
   ⟨(up.on pCAP (CAP_CH_CFG_EN 2)).p pCAP (CAP_CH_CFG_OWNER 2) 16, 16, by decide +kernel⟩,
   ⟨(((((((up.p pCAP (CAP_CHARGE_ALLOW 3) 0).p pCAP (CAP_CH_CFG_TYPE 2) 4).p pCAP (CAP_CH_PAGES_EV_RATE 2) 5).on pCAP (CAP_CH_CFG_EN 2)).p pCAP (CAP_CH_CFG_OWNER 2) 3).p pCAP (CAP_CH_PAGES_PAGES 2) 16).p pCAP (CAP_CH_OFFSET_PAGES 2) 8).p pCAP CAP_PW_SIZE_PAGES 64, 3, by decide +kernel⟩,
   ⟨up.p pCAP (CAP_CSTATUS_STATE 3) 1, 3, by decide +kernel⟩,
   ⟨up.p pCAP (CAP_CSTATUS_STATE 3) 2, 3, by decide +kernel⟩,
   ⟨up.p pCAP (CAP_CSTATUS_STATE 3) 3, 3, by decide +kernel⟩,
   ⟨up, 3, 0, by decide +kernel⟩,
   ⟨up.setChan 3 { Chan.reset with ready := [capBlk] }, 3, 0, capBlk, [], by decide +kernel⟩,
   ⟨up.setChan 3 { Chan.reset with ready := [capBlk, capBlk] }, 3, capBlk, [capBlk], (up.setChan 3 { Chan.reset with ready := [capBlk, capBlk] }).setChan 3 { (up.setChan 3 { Chan.reset with ready := [capBlk, capBlk] }).chanAt 3 with ready := [capBlk] }, by decide +kernel⟩,
   ⟨up.setChan 3 { Chan.reset with ready := [capBlk], phase := 2, post := 1 }, 3, capBlk, (up.setChan 3 { Chan.reset with ready := [capBlk], phase := 2, post := 1 }).setChan 3 { (up.setChan 3 { Chan.reset with ready := [capBlk], phase := 2, post := 1 }).chanAt 3 with ready := [] }, by decide +kernel⟩,
   ⟨(up.setChan 3 { Chan.reset with phase := 2 }).p pCAP (CAP_ARM_POST_LIMIT 16) 5 |>.p pCAP (CAP_CH_CFG_OWNER 3) 16, 3, by decide +kernel⟩,
   ⟨up, 3, by decide +kernel⟩,
   ⟨up.p pCAP (CAP_CSTATUS_STATE 3) 3, 3, by decide +kernel⟩,
   ⟨up, 3, by decide +kernel⟩,
   ⟨up, 3, 5, by decide +kernel⟩,
   ⟨up.setChan 3 { Chan.reset with zeroing := true }, 3, { Chan.reset with zeroing := true }, 0, by decide +kernel⟩,
   ⟨up, 3, by decide +kernel⟩,
   ⟨up, 0, by decide +kernel⟩,
   ⟨up.p pCAP (CAP_CSTATUS_STATE 3) 1, 0, 3, by decide +kernel⟩⟩

theorem test_trace_and_key_roll_commands_take_effect_met :
    (∃ (d : Dev) (t : Fin 17), d.Up) ∧
    (∃ (d : Dev) (t : Fin 17), d.active = true ∧ d.strmEn t = false) ∧
    (∃ (d : Dev) (t : Fin 17), d.active = true ∧ d.strmEn t = true ∧ d.g pTRC (TRC_S_CFG_CNT_UNIT t) = 1) ∧
    (∃ (d : Dev) (t : Fin 17) (v : BitVec 16), d.Up) ∧
    (∃ (d : Dev) (t : Fin 17), d.active = true) ∧
    (∃ (d : Dev) (t : Fin 17), d.active = true ∧ d.strmOn t = true ∧ d.g pTRC (TRC_S_CFG_SYNC_EXP t) ≠ 0) ∧
    (∃ (d : Dev) (t : Fin 17), d.active = true ∧ d.strmOn t = false) ∧
    (∃ (d : Dev), d.Up) ∧
    (∃ (d : Dev), d.active = true) ∧
    (∃ (d : Dev), d.active = true ∧ d.g pKRE KRE_STATUS_STATE < 2) ∧
    (∃ (d : Dev), d.active = true ∧ 2 ≤ d.g pKRE KRE_STATUS_STATE ∧ d.g pKRE KRE_CFG_RATE = 0) ∧
    (∃ (d : Dev) (sec : Nat), d.active = true ∧ 2 ≤ d.g pKRE KRE_STATUS_STATE ∧ d.g pKRE KRE_CFG_RATE ≠ 0 ∧ d.nextSector = some sec ∧ d.snapPinned sec = false) ∧
    (∃ (d : Dev) (sec : Nat), d.active = true ∧ 2 ≤ d.g pKRE KRE_STATUS_STATE ∧ d.g pKRE KRE_CFG_RATE ≠ 0 ∧ d.nextSector = some sec ∧ d.snapPinned sec = true) ∧
    (∃ (d : Dev), d.active = true ∧ 2 ≤ d.g pKRE KRE_STATUS_STATE ∧ d.g pKRE KRE_CFG_RATE ≠ 0 ∧ d.nextSector = none) ∧
    (∃ (d : Dev), d.Up) :=
  ⟨⟨up, 3, by decide +kernel⟩,
   ⟨up, 3, by decide +kernel⟩,
   ⟨(up.on pTRC (TRC_S_CFG_EN 3)).p pTRC (TRC_S_CFG_CNT_UNIT 3) 1, 3, by decide +kernel⟩,
   ⟨up, 3, 5, by decide +kernel⟩,
   ⟨up, 3, by decide +kernel⟩,
   ⟨(up.on pTRC (TRC_S_STATUS_ON 3)).p pTRC (TRC_S_CFG_SYNC_EXP 3) 10, 3, by decide +kernel⟩,
   ⟨up, 3, by decide +kernel⟩,
   ⟨up, by decide +kernel⟩,
   ⟨up, by decide +kernel⟩,
   ⟨up, by decide +kernel⟩,
   ⟨(up.p pKRE KRE_STATUS_STATE 2).p pKRE KRE_CFG_RATE 0, by decide +kernel⟩,
   ⟨{ ((up.p pKRE KRE_STATUS_STATE 2).p pKRE KRE_CFG_RATE 4) with ime := { up.ime with counters := [(5, 1)], root := [(0, 1)] } }, 5, by decide +kernel⟩,
   ⟨((({ ((up.p pKRE KRE_STATUS_STATE 2).p pKRE KRE_CFG_RATE 4) with ime := { up.ime with counters := [(5, 1)], root := [(0, 1)] } } : Dev).p (pPTN 3) PTN_SNAP_STATUS_STATE 1).p (pPTN 3) PTN_SNAP_BASE_ADDR 0).p (pPTN 3) PTN_SNAP_SIZE_BYTES 65536, 5, by decide +kernel⟩,
   ⟨(up.p pKRE KRE_STATUS_STATE 2).p pKRE KRE_CFG_RATE 4, by decide +kernel⟩,
   ⟨up, by decide +kernel⟩⟩

theorem test_supplies_and_reset_pins_take_effect_met :
    (∃ (d : Dev), d.pwr.st = .off) ∧
    (∃ (d : Dev), d.pwr.st ≠ .off) ∧
    (∃ (d : Dev), d.pwr.st = .standby) ∧
    (∃ (d : Dev), d.pwr.st ≠ .standby) ∧
    (∃ (d : Dev), d.pwr.st = .doze) ∧
    (∃ (d : Dev), d.pwr.st = .active) ∧
    (∃ (d : Dev), d.pwr.st = .active ∧ d.pwr.stopping = false) ∧
    (∃ (d : Dev), d.pwr.st = .active ∧ d.pwr.stopping = true) ∧
    (∃ (d : Dev), d.pwr.st = .doze) ∧
    (∃ (d : Dev), d.pwr.st = .standby) ∧
    (∃ (d : Dev), d.pwr.st = .off) ∧
    (∃ (d : Dev) (refclk healthOk : Bool), d.mayStart = false) ∧
    (∃ (d : Dev) (refclk : Bool), d.mayStart = true) ∧
    (∃ (d : Dev) (refclk : Bool), d.mayStart = true) ∧
    (∃ (d : Dev), d.active = true ∧ d.reach .pf pRST = .yes ∧ d.pwr.stopping = false) ∧
    (∃ (d : Dev), d.active = true ∧ d.reach .pf pRST = .yes ∧ d.pwr.stopping = true) ∧
    (∃ (d : Dev) (src : Fin 10), d.pwr.st = .doze ∧ d.wakeEnabled src = true) ∧
    (∃ (d : Dev) (src : Fin 10), d.wakeEnabled src = false) :=
  ⟨⟨{ up with pwr := { Pwr.reset with st := .off } }, by decide +kernel⟩,
   ⟨up, by decide +kernel⟩,
   ⟨{ up with pwr := { Pwr.reset with st := .standby } }, by decide +kernel⟩,
   ⟨up, by decide +kernel⟩,
   ⟨{ up with pwr := { Pwr.reset with st := .doze } }, by decide +kernel⟩,
   ⟨up, by decide +kernel⟩,
   ⟨up, by decide +kernel⟩,
   ⟨{ up with pwr := { Pwr.reset with st := .active, stopping := true } }, by decide +kernel⟩,
   ⟨{ up with pwr := { Pwr.reset with st := .doze } }, by decide +kernel⟩,
   ⟨{ up with pwr := { Pwr.reset with st := .standby } }, by decide +kernel⟩,
   ⟨{ up with pwr := { Pwr.reset with st := .off } }, by decide +kernel⟩,
   ⟨up, true, true, by decide +kernel⟩,
   ⟨{ up with pwr := { Pwr.reset with st := .doze, vaux := true, vin48 := true, perst := false } }, true, by decide +kernel⟩,
   ⟨{ up with pwr := { Pwr.reset with st := .doze, vaux := true, vin48 := true, perst := false } }, true, by decide +kernel⟩,
   ⟨up, by decide +kernel⟩,
   ⟨{ up with pwr := { Pwr.reset with st := .active, stopping := true } }, by decide +kernel⟩,
   ⟨({ up with pwr := { Pwr.reset with st := .doze } } : Dev).on pAON AON_WAKE_CFG_STRING, 8, by decide +kernel⟩,
   ⟨up, 8, by decide +kernel⟩⟩

theorem test_function_and_partition_resets_take_effect_met :
    (∃ (d : Dev), d.active = true ∧ d.pwr.fnReset.contains .pf = true) ∧
    (∃ (d : Dev) (f : Dev), d.active = true ∧ d.pwr.fnReset.contains .pf = false ∧ f = d.clearVfs.beginFnReset .pf ∧ 5 ≤ f.bootState) ∧
    (∃ (d : Dev) (p : Fin 16), d.active = true ∧ d.pwr.vfNum ≤ p.val) ∧
    (∃ (d : Dev) (p : Fin 16), d.active = true ∧ d.pwr.fnReset.contains .pf = false ∧ d.pwr.fnReset.contains (.vf p) = false ∧ p.val < d.pwr.vfNum ∧ d.vfLive p = true) ∧
    (∃ (d : Dev) (p : Fin 16), d.active = true ∧ d.pwr.fnReset.contains .pf = false ∧ d.pwr.fnReset.contains (.vf p) = false ∧ p.val < d.pwr.vfNum ∧ d.vfLive p = false) ∧
    (∃ (d : Dev) (fn : Fn), d.active = true) ∧
    (∃ (d : Dev) (mask : BitVec 16), d.active = true ∧ d.reach .pf pRST = .yes) ∧
    (∃ (d : Dev) (p : Fin 16), d.active = true ∧ d.ptnBusy p = true) ∧
    (∃ (d : Dev) (p : Fin 16), d.active = true ∧ d.ptnBusy p = false) ∧
    (∃ (d : Dev), d.Up) ∧
    (∃ (d : Dev) (k : Fin 17), d.Up ∧ d.pwr.fnReset.contains .pf = false ∧ d.pwr.vfNum = 0) ∧
    (∃ (d : Dev) (k : Fin 17), d.active = true ∧ d.pwr.vfNum ≠ 0) :=
  ⟨⟨{ up with pwr := { Pwr.reset with st := .active, fnReset := [.pf] } }, by decide +kernel⟩,
   ⟨(up.setBoot 5), ((up.setBoot 5).clearVfs.beginFnReset .pf), by decide +kernel⟩,
   ⟨up, 4, by decide +kernel⟩,
   ⟨upvf, 3, by decide +kernel⟩,
   ⟨upvf, 4, by decide +kernel⟩,
   ⟨up, .pf, by decide +kernel⟩,
   ⟨up, 9, by decide +kernel⟩,
   ⟨up.p pRST RST_PTN_STATUS_BUSY 8, 3, by decide +kernel⟩,
   ⟨up, 3, by decide +kernel⟩,
   ⟨upvf, by decide +kernel⟩,
   ⟨up, 16, by decide +kernel⟩,
   ⟨upvf, 16, by decide +kernel⟩⟩

theorem test_cluster_power_follows_partitions_met :
    (∃ (d : Dev) (ns : List (Fin 64)), d.active = true) ∧
    (∃ (d : Dev) (p : Fin 16), d.active = true ∧ (d.seqState p = 0 ∨ d.seqState p = 2) ∧ d.dirState p ≠ 0 ∧ d.b (pPTN p) PTN_LOAD_STATUS_BUSY = false ∧ d.snapBusy p = false) ∧
    (∃ (d : Dev) (p : Fin 16), d.active = true ∧ d.dirState p = 0) ∧
    (∃ (d : Dev) (n : Fin 64), d.active = true ∧ (d.ownerOf n).isSome = true) ∧
    (∃ (d : Dev) (n : Fin 64), d.active = true ∧ d.joining n = true) ∧
    (∃ (d : Dev) (n : Fin 64), d.active = true ∧ d.joining n = false ∧ d.ownerOf n = none ∧ d.testing n = false ∧ d.cluPower n ≠ 2 ∧ ((d.drainNi n).doDrainComplete n).niState n = 2) ∧
    (∃ (d : Dev) (n : Fin 64), d.active = true ∧ d.cluPower n = 2 ∧ (d.ownerOf n).isSome = true) ∧
    (∃ (d : Dev) (n : Fin 64), d.active = true ∧ d.cluPower n = 2 ∧ d.joining n = true) ∧
    (∃ (d : Dev) (n : Fin 64), d.active = true ∧ d.ownerOf n = none ∧ d.joining n = false) ∧
    (∃ (d : Dev) (n : Fin 64), d.active = true ∧ d.cluPower n ≠ 2) :=
  ⟨⟨up, [2], by decide +kernel⟩,
   ⟨ptn3, 3, by decide +kernel⟩,
   ⟨up, 3, by decide +kernel⟩,
   ⟨ptn3, 2, by decide +kernel⟩,
   ⟨(up.p pDEV (DEV_DIR_STATE 3) 3).modPtn 3 fun x => { x with pendMask := 4 }, 2, by decide +kernel⟩,
   ⟨(upn.p pPMU (PMU_CSTATE_CLU 2) 0), 2, by decide +kernel⟩,
   ⟨ptn3.p pPMU (PMU_CSTATE_CLU 2) 2, 2, by decide +kernel⟩,
   ⟨((up.p pDEV (DEV_DIR_STATE 3) 3).modPtn 3 fun x => { x with pendMask := 4 }).p pPMU (PMU_CSTATE_CLU 2) 2, 2, by decide +kernel⟩,
   ⟨up, 2, by decide +kernel⟩,
   ⟨ptn3.p pPMU (PMU_CSTATE_CLU 2) 1, 2, by decide +kernel⟩⟩

theorem test_warden_watches_and_stops_met :
    (∃ (d : Dev) (v : W32), d.active = true ∧ (d.p pWDN WDN_HEARTBEAT_COUNT v.toNat).wardenState ≠ 2) ∧
    (∃ (d : Dev) (v : W32), d.active = true ∧ d.g pWDN WDN_HEARTBEAT_COUNT ≠ v.toNat ∧ (d.p pWDN WDN_HEARTBEAT_COUNT v.toNat).wardenState = 2) ∧
    (∃ (d : Dev), d.active = true ∧ d.wardenState = 1) ∧
    (∃ (d : Dev), d.active = true ∧ d.wardenState ≠ 1) ∧
    (∃ (d : Dev), d.active = true ∧ d.wardenState = 2) ∧
    (∃ (d : Dev), d.active = true ∧ d.wardenState ≠ 2) ∧
    (∃ (d : Dev) (x : Fin 5) (celsius : Byte), d.active = true ∧ 110 < celsius.toNat ∧ x.val < 4) ∧
    (∃ (d : Dev) (x : Fin 5) (celsius : Byte), d.active = true ∧ celsius.toNat ≤ 110 ∧ x.val = 4) ∧
    (∃ (d : Dev), d.active = true) ∧
    (∃ (d : Dev), d.active = true ∧ d.reach .pf pWDN = .yes) ∧
    (∃ (d : Dev), d.active = true) ∧
    (∃ (d : Dev), d.active = true ∧ d.pwr.stopping = true) ∧
    (∃ (d : Dev), d.active = true ∧ d.pwr.stopping = false) ∧
    (∃ (d : Dev) (f : Dev), d.active = true ∧ d.pwr.stopping = true ∧ f = (d.perst 3 .doze).p pWDN WDN_STATUS_STATE (if d.pwr.afterStop then 4 else 0)) ∧
    (∃ (d : Dev), d.active = true ∧ d.pwr.stopping = false) :=
  ⟨⟨up, 5, by decide +kernel⟩,
   ⟨up.p pWDN WDN_STATUS_STATE 2, 5, by decide +kernel⟩,
   ⟨up.p pWDN WDN_STATUS_STATE 1, by decide +kernel⟩,
   ⟨up, by decide +kernel⟩,
   ⟨up.p pWDN WDN_STATUS_STATE 2, by decide +kernel⟩,
   ⟨up, by decide +kernel⟩,
   ⟨up, 2, 120, by decide +kernel⟩,
   ⟨up, 4, 100, by decide +kernel⟩,
   ⟨up, by decide +kernel⟩,
   ⟨up, by decide +kernel⟩,
   ⟨up, by decide +kernel⟩,
   ⟨{ up with pwr := { Pwr.reset with st := .active, stopping := true } }, by decide +kernel⟩,
   ⟨up, by decide +kernel⟩,
   ⟨{ up with pwr := { Pwr.reset with st := .active, stopping := true } }, (({ up with pwr := { Pwr.reset with st := .active, stopping := true } } : Dev).perst 3 .doze).p pWDN WDN_STATUS_STATE 0, by decide +kernel⟩,
   ⟨up, by decide +kernel⟩⟩

theorem test_string_frames_and_membership_take_effect_met :
    (∃ (d : Dev), d.active = true ∧ d.reach .pf pSTR = .yes ∧ d.strState = 0) ∧
    (∃ (d : Dev), d.active = true ∧ d.strState = 1) ∧
    (∃ (d : Dev), d.active = true ∧ d.strState ≠ 1) ∧
    (∃ (d : Dev), d.active = true ∧ d.reach .pf pSTR = .yes) ∧
    (∃ (d : Dev), d.active = true ∧ d.strState = 2) ∧
    (∃ (d : Dev), d.active = true ∧ d.strState ≠ 2) ∧
    (∃ (d : Dev), d.active = true ∧ d.reach .pf pSTR = .yes ∧ d.b pSTR STR_CFG_ROOT = true) ∧
    (∃ (d : Dev) (src : Fin 512) (n : Byte) (ttl : Nat) (map : BitVec 512) (crc : W32), d.active = true ∧ 2 ≤ d.strState ∧ Dev.frameIntact ⟨1, 0x1FF, src, n.toNat, ttl, leBytes 64 map.toNat, crc⟩ = false) ∧
    (∃ (d : Dev) (src : Fin 512) (n : Byte) (ttl : Nat) (map : BitVec 512) (crc : W32) (f : Dev), d.active = true ∧ 2 ≤ d.strState ∧ 2 ≤ ttl ∧ Dev.frameIntact ⟨1, 0x1FF, src, n.toNat, ttl, leBytes 64 map.toNat, crc⟩ = true ∧ f = (d.add pSTR STR_RX_FRAMES_COUNT 1).p pSTR STR_STATUS_STATE 2 ∧ (d.ownFrame src && d.b pSTR STR_CFG_ROOT) = false) ∧
    (∃ (d : Dev) (src : Fin 512) (n : Byte) (ttl : Nat) (map : BitVec 512) (crc : W32) (f : Dev), d.active = true ∧ 2 ≤ d.strState ∧ 2 ≤ ttl ∧ Dev.frameIntact ⟨1, 0x1FF, src, n.toNat, ttl, leBytes 64 map.toNat, crc⟩ = true ∧ f = (d.add pSTR STR_RX_FRAMES_COUNT 1).p pSTR STR_STATUS_STATE 2 ∧ d.ownFrame src = true ∧ d.b pSTR STR_CFG_ROOT = true ∧ f.devNum ≠ 0x1FF) ∧
    (∃ (d : Dev) (src : Fin 512) (n : Byte) (ttl : Nat) (map : BitVec 512) (k : Nat) (crc : W32) (f : Dev), d.active = true ∧ 2 ≤ d.strState ∧ 2 ≤ ttl ∧ Dev.frameIntact ⟨2, 0x1FF, src, n.toNat, ttl, leBytes 64 map.toNat, crc⟩ = true ∧ f = (d.add pSTR STR_RX_FRAMES_COUNT 1).p pSTR STR_STATUS_STATE 2 ∧ (d.ownFrame src && d.b pSTR STR_CFG_ROOT) = false ∧ f.devNum = 0x1FF ∧ (List.range 512).find? (fun k => !map.toNat.testBit k) = some k) ∧
    (∃ (d : Dev) (src : Fin 512) (n : Byte) (ttl : Nat) (ns : W64) (frac : BitVec 16) (crc : W32) (f : Dev), d.active = true ∧ 2 ≤ d.strState ∧ 2 ≤ ttl ∧ Dev.frameIntact ⟨3, 0x1FF, src, n.toNat, ttl, Dev.ringTime ns.toNat frac.toNat, crc⟩ = true ∧ f = (d.add pSTR STR_RX_FRAMES_COUNT 1).p pSTR STR_STATUS_STATE 2 ∧ d.ownFrame src = false) ∧
    (∃ (d : Dev) (src : Fin 512) (n : Byte) (ttl : Nat) (origin : Fin 512) (num : Byte) (crc : W32) (f : Dev), d.active = true ∧ 2 ≤ d.strState ∧ 2 ≤ ttl ∧ Dev.frameIntact ⟨4, 0x1FF, src, n.toNat, ttl, Dev.freezeBody origin num.toNat, crc⟩ = true ∧ f = (d.add pSTR STR_RX_FRAMES_COUNT 1).p pSTR STR_STATUS_STATE 2 ∧ d.ownFrame src = false) ∧
    (∃ (d : Dev) (src : Fin 512) (n : Byte) (ttl : Nat)  (crc : W32) (f : Dev), d.active = true ∧ 2 ≤ d.strState ∧ 2 ≤ ttl ∧ Dev.frameIntact ⟨5, 0x1FF, src, n.toNat, ttl, [], crc⟩ = true ∧ f = (d.add pSTR STR_RX_FRAMES_COUNT 1).p pSTR STR_STATUS_STATE 2 ∧ d.ownFrame src = false) ∧
    (∃ (d : Dev) (src : Fin 512) (n : Byte) (ttl : Nat) (dest : Fin 512) (crc : W32) (f : Dev), d.active = true ∧ 2 ≤ d.strState ∧ 2 ≤ ttl ∧ Dev.frameIntact ⟨6, dest, src, n.toNat, ttl, [], crc⟩ = true ∧ f = (d.add pSTR STR_RX_FRAMES_COUNT 1).p pSTR STR_STATUS_STATE 2 ∧ d.ownFrame src = false ∧ (dest.val = d.devNum ∨ dest.val = 0x1FF) ∧ d.ring.seen.contains (6, src.val, n.toNat) = false ∧ d.b pSTR STR_CFG_RESET_EN = true ∧ d.pwr.stopping = false) ∧
    (∃ (d : Dev) (src : Fin 512) (n : Byte) (ttl : Nat) (dest : Fin 512) (crc : W32) (f : Dev), d.active = true ∧ 2 ≤ d.strState ∧ 2 ≤ ttl ∧ Dev.frameIntact ⟨6, dest, src, n.toNat, ttl, [], crc⟩ = true ∧ f = (d.add pSTR STR_RX_FRAMES_COUNT 1).p pSTR STR_STATUS_STATE 2 ∧ d.ownFrame src = false ∧ d.b pSTR STR_CFG_RESET_EN = false) ∧
    (∃ (d : Dev) (src : Fin 512) (n : Byte) (ttl : Nat) (dest : Fin 512) (cfg : List (Fin 16 × W32)) (l : List (Nat × Nat)) (body : List Byte) (crc : W32) (f : Dev), d.active = true ∧ 2 ≤ d.strState ∧ 2 ≤ ttl ∧ Dev.frameIntact ⟨7, dest, src, n.toNat, ttl, body, crc⟩ = true ∧ f = (d.add pSTR STR_RX_FRAMES_COUNT 1).p pSTR STR_STATUS_STATE 2 ∧ l = (cfg.map fun e => (e.1.val, e.2.toNat)) ∧ body = (l.flatMap fun e => leBytes 1 e.1 ++ leBytes 4 e.2) ∧ d.ownFrame src = false ∧ dest.val = f.devNum ∧ 5 ≤ f.bootState) ∧
    (∃ (d : Dev), d.active = true ∧ d.reach .pf pSTR = .yes) ∧
    (∃ (d : Dev) (kind dest n : Nat) (payload : List Byte) (rest : List (Nat × Nat × Nat × List Byte)), d.active = true ∧ d.ring.repeats = (kind, dest, n, payload) :: rest ∧ d.strState = 2) ∧
    (∃ (d : Dev), d.active = true ∧ d.g pTSB TSB_CFG_ROLE = 1) ∧
    (∃ (d : Dev), d.active = true ∧ d.g pTSB TSB_CFG_ROLE ≠ 1) :=
  ⟨⟨up, by decide +kernel⟩,
   ⟨up.p pSTR STR_STATUS_STATE 1, by decide +kernel⟩,
   ⟨up, by decide +kernel⟩,
   ⟨up, by decide +kernel⟩,
   ⟨(up.p pSTR STR_STATUS_STATE 2), by decide +kernel⟩,
   ⟨up, by decide +kernel⟩,
   ⟨up.on pSTR STR_CFG_ROOT, by decide +kernel⟩,
   ⟨(up.p pSTR STR_STATUS_STATE 2), 3, 1, 5, 0, 0, by decide +kernel⟩,
   ⟨(up.p pSTR STR_STATUS_STATE 2), 3, 1, 5, 0, BitVec.ofNat 32 (crc32c (Dev.ringHead 1 0x1FF 3 1 5 (leBytes 64 (0 : BitVec 512).toNat))), (((up.p pSTR STR_STATUS_STATE 2)).add pSTR STR_RX_FRAMES_COUNT 1).p pSTR STR_STATUS_STATE 2, by decide +kernel⟩,
   ⟨((up.p pSTR STR_STATUS_STATE 2).on pSTR STR_CFG_ROOT).p pSTR STR_STATUS_DEVICE 3, 3, 1, 5, 0, BitVec.ofNat 32 (crc32c (Dev.ringHead 1 0x1FF 3 1 5 (leBytes 64 (0 : BitVec 512).toNat))), ((((up.p pSTR STR_STATUS_STATE 2).on pSTR STR_CFG_ROOT).p pSTR STR_STATUS_DEVICE 3).add pSTR STR_RX_FRAMES_COUNT 1).p pSTR STR_STATUS_STATE 2, by decide +kernel⟩,
   ⟨(up.p pSTR STR_STATUS_STATE 2).p pSTR STR_STATUS_DEVICE 0x1FF, 3, 1, 5, 1, 1, BitVec.ofNat 32 (crc32c (Dev.ringHead 2 0x1FF 3 1 5 (leBytes 64 (1 : BitVec 512).toNat))), (((up.p pSTR STR_STATUS_STATE 2).p pSTR STR_STATUS_DEVICE 0x1FF).add pSTR STR_RX_FRAMES_COUNT 1).p pSTR STR_STATUS_STATE 2, by decide +kernel⟩,
   ⟨(up.p pSTR STR_STATUS_STATE 2), 3, 1, 5, 0, 0, BitVec.ofNat 32 (crc32c (Dev.ringHead 3 0x1FF 3 1 5 (Dev.ringTime (0 : W64).toNat (0 : BitVec 16).toNat))), (((up.p pSTR STR_STATUS_STATE 2)).add pSTR STR_RX_FRAMES_COUNT 1).p pSTR STR_STATUS_STATE 2, by decide +kernel⟩,
   ⟨(up.p pSTR STR_STATUS_STATE 2), 3, 1, 5, 5, 6, BitVec.ofNat 32 (crc32c (Dev.ringHead 4 0x1FF 3 1 5 (Dev.freezeBody (5 : Fin 512) (6 : Byte).toNat))), (((up.p pSTR STR_STATUS_STATE 2)).add pSTR STR_RX_FRAMES_COUNT 1).p pSTR STR_STATUS_STATE 2, by decide +kernel⟩,
   ⟨(up.p pSTR STR_STATUS_STATE 2), 3, 1, 5, BitVec.ofNat 32 (crc32c (Dev.ringHead 5 0x1FF 3 1 5 ([]))), (((up.p pSTR STR_STATUS_STATE 2)).add pSTR STR_RX_FRAMES_COUNT 1).p pSTR STR_STATUS_STATE 2, by decide +kernel⟩,
   ⟨(up.p pSTR STR_STATUS_STATE 2).on pSTR STR_CFG_RESET_EN, 3, 1, 5, 511, BitVec.ofNat 32 (crc32c (Dev.ringHead 6 511 3 1 5 ([]))), (((up.p pSTR STR_STATUS_STATE 2).on pSTR STR_CFG_RESET_EN).add pSTR STR_RX_FRAMES_COUNT 1).p pSTR STR_STATUS_STATE 2, by decide +kernel⟩,
   ⟨(up.p pSTR STR_STATUS_STATE 2).p pSTR STR_CFG_RESET_EN 0, 3, 1, 5, 511, BitVec.ofNat 32 (crc32c (Dev.ringHead 6 511 3 1 5 ([]))), (((up.p pSTR STR_STATUS_STATE 2).p pSTR STR_CFG_RESET_EN 0).add pSTR STR_RX_FRAMES_COUNT 1).p pSTR STR_STATUS_STATE 2, by decide +kernel⟩,
   ⟨(up.p pSTR STR_STATUS_STATE 2).setBoot 5 |>.p pSTR STR_STATUS_DEVICE 9, 3, 1, 5, 9, [], [], [], BitVec.ofNat 32 (crc32c (Dev.ringHead 7 9 3 1 5 (([] : List Byte)))), (((up.p pSTR STR_STATUS_STATE 2).setBoot 5 |>.p pSTR STR_STATUS_DEVICE 9).add pSTR STR_RX_FRAMES_COUNT 1).p pSTR STR_STATUS_STATE 2, by decide +kernel⟩,
   ⟨up, by decide +kernel⟩,
   ⟨{ (up.p pSTR STR_STATUS_STATE 2) with ring := { up.ring with repeats := [(1, 2, 3, [4])] } }, 1, 2, 3, [4], [], by decide +kernel⟩,
   ⟨up.p pTSB TSB_CFG_ROLE 1, by decide +kernel⟩,
   ⟨up, by decide +kernel⟩⟩

theorem test_register_accesses_take_effect_met :
    (∃ (d : Dev) (o v : Nat), d.HubPage pPMU ∧ o % 4 = 0 ∧ 0x100 ≤ o ∧ o < 0x800 ∧ pairAt pPMU o = false ∧ pairAt pPMU (o - 4) = false) ∧
    (∃ (d : Dev) (base o v : Nat), d.HubPage base ∧ base % 0x1000 = 0 ∧ o % 4 = 0 ∧ o < 0x800 ∧ pairAt base o = true) ∧
    (∃ (d : Dev) (base o v : Nat), d.HubPage base ∧ base % 0x1000 = 0 ∧ o % 4 = 0 ∧ o < 0x800 ∧ pairAt base o = true ∧ pairAt base (o + 4) = false) ∧
    (∃ (d : Dev) (base o v : Nat), d.HubPage base ∧ o % 8 = 0 ∧ o < 0x800 ∧ pairAt base o = true) ∧
    (∃ (d : Dev) (base o : Nat), d.HubPage base ∧ base ≠ pDSP ∧ o % 4 = 0 ∧ o < 0x800 ∧ pairAt base o = true) ∧
    (∃ (d : Dev) (base o : Nat), d.HubPage base ∧ o % 8 = 0 ∧ o < 0x800 ∧ pairAt base o = true) ∧
    (∃ (d : Dev) (base : Nat), d.HubPage base) ∧
    (∃ (d : Dev) (fn : Fn) (off size : Nat) (write : Bool), d.active = true ∧ d.pwr.fnReset.contains fn = false) ∧
    (∃ (d : Dev) (fn : Fn) (off size : Nat) (write : Bool), d.active = true ∧ d.pwr.fnReset.contains fn = true) ∧
    (∃ (d : Dev) (base : Nat) (v : W32), d.HubPage base) ∧
    (∃ (d : Dev) (base : Nat) (v : W32), d.HubPage base) :=
  ⟨⟨up, 0x100, 5, by decide +kernel⟩,
   ⟨up, pTSB, 0x120, 5, by decide +kernel⟩,
   ⟨up, pTSB, 0x120, 5, by decide +kernel⟩,
   ⟨up, pTSB, 0x120, 5, by decide +kernel⟩,
   ⟨up, pTSB, 0x120, by decide +kernel⟩,
   ⟨up, pTSB, 0x120, by decide +kernel⟩,
   ⟨up, pTSB, by decide +kernel⟩,
   ⟨up, .pf, 6, 4, true, by decide +kernel⟩,
   ⟨{ up with pwr := { Pwr.reset with st := .active, fnReset := [.pf] } }, .pf, 6, 4, true, by decide +kernel⟩,
   ⟨up, pTSB, 1, by decide +kernel⟩,
   ⟨up, pTSB, 1, by decide +kernel⟩⟩

theorem test_log_counters_and_maintenance_take_effect_met :
    (∃ (d : Dev), d.active = true ∧ d.b pLOG LOG_STATUS_AON_ONLY = true) ∧
    (∃ (d : Dev) (f : Dev), d.active = true ∧ d.b pLOG LOG_STATUS_AON_ONLY = false ∧ d.zeroEntries (d.log.flips.map (·.1 / 4)).eraseDups = (f, none)) ∧
    (∃ (d : Dev) (f : Dev) (i : Nat), d.active = true ∧ d.b pLOG LOG_STATUS_AON_ONLY = false ∧ d.zeroEntries (d.log.flips.map (·.1 / 4)).eraseDups = (f, some i)) ∧
    (∃ (d : Dev), d.active = true) ∧
    (∃ (d : Dev), d.Up) ∧
    (∃ (d : Dev) (base : Nat) (i : Fin 64), d.active = true ∧ d.b pEVC EVC_CTRL_RUN = false) ∧
    (∃ (d : Dev) (i : Fin 64), d.active = true ∧ d.b pEVC (EVC_SEL_EN i) = false) ∧
    (∃ (d : Dev) (i : Fin 64), d.active = true ∧ d.b pEVC EVC_CTRL_RUN = true ∧ d.b pEVC (EVC_SEL_EN i) = true) ∧
    (∃ (d : Dev) (base : Nat) (i : Fin 64), d.active = true ∧ base ≠ pEVC ∧ i.val < 4 ∧ base % 0x1000 = 0 ∧ base < 0x500000 ∧ d.b pEVC EVC_CTRL_RUN = true ∧ d.b base (PG_SEL_EN i) = true) ∧
    (∃ (d : Dev) (code : Fin 8) (owner : Fin 17) (inst : Fin 64), d.active = true ∧ d.holds (Dev.mntId code owner inst) = true) ∧
    (∃ (d : Dev) (code : Fin 8) (owner : Fin 17) (inst : Fin 64), d.active = true ∧ d.holds (Dev.mntId code owner inst) = false) ∧
    (∃ (d : Dev) (n : Fin 64), d.active = true ∧ d.reach .pf pMNT = .yes ∧ ((d.p pMNT MNT_MBIST_CLUSTER n).ownerOf n).isSome = true) ∧
    (∃ (d : Dev) (n : Fin 64) (f : Dev), d.active = true ∧ d.reach .pf pMNT = .yes ∧ (d.p pMNT MNT_MBIST_CLUSTER n).ownerOf n = none ∧ (d.p pMNT MNT_MBIST_CLUSTER n).mntRequest (Dev.mntId 3 16 n) 0 0 false = (f, none)) ∧
    (∃ (d : Dev) (n : Fin 64) (x : Option (BitVec 64)), d.active = true ∧ d.testing n = false) ∧
    (∃ (d : Dev) (n : Fin 64) (a : BitVec 64) (f : Dev), d.active = true ∧ d.testing n = true ∧ f = (d.mntFree (Dev.mntId 3 16 n)).clearMemories n) ∧
    (∃ (d : Dev) (n : Fin 64) (f : Dev), d.active = true ∧ d.testing n = true ∧ f = (d.mntFree (Dev.mntId 3 16 n)).clearMemories n) ∧
    (∃ (d : Dev) (fn : Fn) (v : Fin 32), d.active = true ∧ d.placeReach fn ⟨pMSIX fn, 0, none, true⟩ = .yes ∧ (fn = .pf ∨ v.val < 2) ∧ (d.p (pMSIX fn) (Dev.MSIX_MASK v) 0).b (pMSIX fn) (Dev.MSIX_PBA v) = true) ∧
    (∃ (d : Dev) (fn : Fn) (v : Fin 32), d.active = true ∧ d.placeReach fn ⟨pMSIX fn, 0, none, true⟩ = .yes ∧ (fn = .pf ∨ v.val < 2) ∧ (d.p (pMSIX fn) (Dev.MSIX_MASK v) 0).b (pMSIX fn) (Dev.MSIX_PBA v) = false) ∧
    (∃ (d : Dev) (on : Bool), d.tapAnswers = true) ∧
    (∃ (d : Dev) (on : Bool), d.tapAnswers = false) :=
  ⟨⟨up.on pLOG LOG_STATUS_AON_ONLY, by decide +kernel⟩,
   ⟨{ up with log := { up.log with flips := [(5, 1)] } }, (({ up with log := { up.log with flips := [(5, 1)] } } : Dev).zeroEntries [1]).1, by decide +kernel⟩,
   ⟨{ up with log := { up.log with flips := [(5, 3)] } }, (({ up with log := { up.log with flips := [(5, 3)] } } : Dev).zeroEntries [1]).1, 1, by decide +kernel⟩,
   ⟨up, by decide +kernel⟩,
   ⟨up, by decide +kernel⟩,
   ⟨up.p pEVC EVC_CTRL_RUN 0, pTSB, 3, by decide +kernel⟩,
   ⟨up.p pEVC (EVC_SEL_EN 3) 0, 3, by decide +kernel⟩,
   ⟨(up.on pEVC EVC_CTRL_RUN).on pEVC (EVC_SEL_EN 3), 3, by decide +kernel⟩,
   ⟨(up.on pEVC EVC_CTRL_RUN).on pTSB (PG_SEL_EN 3), pTSB, 3, by decide +kernel⟩,
   ⟨(up.mntRequest (Dev.mntId 4 16 1) 0 0x10000 false).1, 4, 16, 1, by decide +kernel⟩,
   ⟨up, 4, 16, 1, by decide +kernel⟩,
   ⟨ptn3, 2, by decide +kernel⟩,
   ⟨up, 2, ((up.p pMNT MNT_MBIST_CLUSTER 2).mntRequest (Dev.mntId 3 16 2) 0 0 false).1, by decide +kernel⟩,
   ⟨up, 2, none, by decide +kernel⟩,
   ⟨(up.mntRequest (Dev.mntId 3 16 2) 0 0 false).1, 2, 7, (((up.mntRequest (Dev.mntId 3 16 2) 0 0 false).1.mntFree (Dev.mntId 3 16 2)).clearMemories 2), by decide +kernel⟩,
   ⟨(up.mntRequest (Dev.mntId 3 16 2) 0 0 false).1, 2, (((up.mntRequest (Dev.mntId 3 16 2) 0 0 false).1.mntFree (Dev.mntId 3 16 2)).clearMemories 2), by decide +kernel⟩,
   ⟨up.on (pMSIX .pf) (Dev.MSIX_PBA 3), .pf, 3, by decide +kernel⟩,
   ⟨up, .pf, 3, by decide +kernel⟩,
   ⟨{ up with pwr := { Pwr.reset with st := .doze } }, true, by decide +kernel⟩,
   ⟨{ up with pwr := { Pwr.reset with st := .standby } }, true, by decide +kernel⟩⟩

end Sys2Proof.Tests
end

namespace Sys2Proof.Machine

/-! How a host access of the PF reaches a register of a hub page (R420, R425, R433), and what a write does there (R7, R9). -/

namespace Dev

/-! What it means that the PF reaches a page of the hub, part by part. -/

theorem HubPage.isActive {d : Dev} {base : Nat} (h : d.HubPage base) : d.active = true := h.1
theorem HubPage.aligned {d : Dev} {base : Nat} (h : d.HubPage base) : base % 0x1000 = 0 := h.2.1
theorem HubPage.below {d : Dev} {base : Nat} (h : d.HubPage base) : base < 0x30000 := h.2.2.1
theorem HubPage.reached {d : Dev} {base : Nat} (h : d.HubPage base) : d.reach .pf base = .yes := h.2.2.2.1
theorem HubPage.linked {d : Dev} {base : Nat} (h : d.HubPage base) : d.Linked (pageHome base) := h.2.2.2.2

theorem cluOf_hub {base : Nat} (hb : base < 0x100000) : cluOf base = none := by
  unfold cluOf
  rw [if_neg]
  simp only [Bool.and_eq_true, decide_eq_true_eq]
  omega

/-- An offset within a page of the hub leads to that page (R433). -/
theorem place_hub (d : Dev) {base o : Nat} (hp : base % 0x1000 = 0) (hb : base < 0x30000) (ho : o < 0x1000) :
    d.place .pf (base + o) = some (regAt base o) := by
  have hbase : (base + o) / 0x1000 * 0x1000 = base := by omega
  have hoff : (base + o) % 0x1000 = o := by omega
  have hmsix : ¬ 0x3FF0000 ≤ base + o := by omega
  have hex : pageExists base = true := by simp [pageExists, hp]; omega
  simp [place, hbase, hoff, hmsix, hex]

theorem placeReach_regAt (d : Dev) (fn : Fn) (base o : Nat) : d.placeReach fn (regAt base o) = d.reach fn base := by
  simp [placeReach]

/-- An access of the PF to a hub page that it reaches is served at its register. -/
theorem reachPlace_hub (d : Dev) {base o : Nat} (write : Bool) (ones : Nat) (k : Dev → Place → Dev) (h : d.HubPage base) (ho : o < 0x1000) :
    d.reachPlace .pf (base + o) write ones k = k d (regAt base o) := by
  have hb := h.below
  have hfence (fail) : d.viaFence .pf (pageHome base) (base + o) write fail (fun e => k e (regAt base o)) = k d (regAt base o) :=
    viaFence_linked d .pf _ _ write _ _ h.linked fun n hn hlt => by
      have := pageHome_hub base n (by omega) hn
      omega
  simp [reachPlace, place_hub d h.aligned hb ho, placeReach_regAt, h.reached, hfence]

theorem atPlace_hub (d : Dev) {base o : Nat} (write : Bool) (k : Dev → Place → Dev) (h : d.HubPage base) (ho : o < 0x1000) :
    d.atPlace .pf (base + o) write k = k d (regAt base o) :=
  reachPlace_hub d write _ k h ho

/-- A 32-bit write of the PF to a hub page is one write at its register. -/
theorem doRegisterWrite_hub (d : Dev) {base o : Nat} (v : Nat) (h : d.HubPage base) (hal : o % 4 = 0) (ho : o < 0x1000) :
    d.doRegisterWrite .pf (base + o) v false = d.write32 .pf (regAt base o) (v % 2 ^ 32) := by
  have hp := h.aligned
  have : (base + o) % 4 = 0 := by omega
  simp [doRegisterWrite, this, atPlace_hub d true _ h ho]

/-- A 64-bit write of the PF to a pair of a hub page writes the register whole, and drops the low word kept for it (R9). -/
theorem doRegisterWrite_wide_hub (d : Dev) {base o : Nat} (v : Nat) (h : d.HubPage base) (hal : o % 8 = 0) (ho : o < 0x1000)
    (hpair : pairAt base o = true) :
    d.doRegisterWrite .pf (base + o) v true =
      ({ d with pairWr := SMap.del d.pairWr (pairKey .pf (regAt base o)) } : Dev).writeReg .pf base o (v % 2 ^ 64) := by
  have hp := h.aligned
  have : (base + o) % 8 = 0 := by omega
  simp [doRegisterWrite, this, atPlace_hub d true _ h ho, hpair, writePlace]

/-! What 32 bits written at a register's place do: a pair's low word, its high word, a register of its own (R9). -/

theorem write32_pairLow (d : Dev) (fn : Fn) {base o : Nat} (v : Nat) (hpair : pairAt base o = true) :
    d.write32 fn (regAt base o) v = { d with pairWr := SMap.put d.pairWr (pairKey fn (regAt base o)) (v % 2 ^ 32) } := by
  simp [write32, hpair, keepLow]

theorem write32_pairHigh (d : Dev) (fn : Fn) {base o : Nat} (v : Nat) (hpair : pairAt base o = true) (hown : pairAt base (o + 4) = false) :
    d.write32 fn (regAt base (o + 4)) v =
      ({ d with pairWr := SMap.del d.pairWr (pairKey fn (regAt base o)) } : Dev).writeReg fn base o
        (v % 2 ^ 32 * 2 ^ 32 + (SMap.get? d.pairWr (pairKey fn (regAt base o))).getD (d.readWord base o)) := by
  simp [write32, hpair, hown, writeHigh, writePlace, readPlace]

theorem write32_single (d : Dev) (fn : Fn) {base o : Nat} (v : Nat) (hown : pairAt base o = false) (hbelow : pairAt base (o - 4) = false) :
    d.write32 fn (regAt base o) v = d.writeReg fn base o v := by
  simp [write32, hown, hbelow, writePlace]

/-! What a whole register written on a hub page does: one of the page's own, one of the common registers (R426, R433). -/

theorem writeReg_hub_own (d : Dev) (fn : Fn) {base o : Nat} (v : Nat) (hb : base < 0x20000) (hlo : 0x100 ≤ o) (hhi : o < 0x800) :
    d.writeReg fn base o v = d.writeHub base o v := by
  have h1 : ¬ 0x800 ≤ o := by omega
  have h2 : ¬ o < 0x100 := by omega
  have h3 : ¬ 0x30000 ≤ base := by omega
  have h4 : ¬ 0x20000 ≤ base := by omega
  have hc : cluOf base = none := cluOf_hub (by omega)
  simp [writeReg, h1, h2, h3, h4, hc]

theorem writeReg_hub_common (d : Dev) (fn : Fn) {base o : Nat} (v : Nat) (hb : base < 0x30000) (ho : o < 0x100) :
    d.writeReg fn base o v = d.writeCommon fn base o v := by
  have h1 : ¬ 0x800 ≤ o := by omega
  have h3 : ¬ 0x30000 ≤ base := by omega
  have hc : cluOf base = none := cluOf_hub (by omega)
  simp [writeReg, h1, h3, ho, hc]

/-- The power unit's registers have no action beside their fields. -/
theorem writeHub_pmu (d : Dev) (o v : Nat) : d.writeHub pPMU o v = d.writeWord pPMU o v fldsPMU := by
  simp [writeHub, writeBlock, pPMU, pWDN, pRST, pageFlds]

/-- No pair has a word at IRQ_STAT or IRQ_FORCE, or at the words below them, on any page of the hub or of a lane group (R426). -/
theorem pairAt_irq_table : ∀ k < 0x30,
    pairAt (k * 0x1000) 0x14 = false ∧ pairAt (k * 0x1000) 0x18 = false ∧ pairAt (k * 0x1000) 0x1C = false := by
  decide +kernel

theorem pairAt_irq {base : Nat} (hp : base % 0x1000 = 0) (hb : base < 0x30000) :
    pairAt base 0x14 = false ∧ pairAt base 0x18 = false ∧ pairAt base 0x1C = false := by
  have hk : base / 0x1000 * 0x1000 = base := by omega
  exact hk ▸ pairAt_irq_table (base / 0x1000) (by omega)

/-! Reads of a hub page (R9, R275). -/

theorem submitHere_hub {base o : Nat} (hb : base < 0x30000) (hd : base ≠ pDSP) : submitHere (regAt base o) = none := by
  have : ¬ 0x30000 ≤ base := by omega
  simp [submitHere, hd, this]

/-- A read of a pair's low word latches the next word for the function (R9). -/
theorem fetch32_pairLow (d : Dev) (fn : Fn) {base o : Nat} (hb : base < 0x30000) (hpair : pairAt base o = true) :
    d.fetch32 fn (regAt base o) =
      ({ d with pairRd := SMap.put d.pairRd (pairKey fn (regAt base (o + 4))) (d.readWord base (o + 4)) }, d.readWord base o) := by
  have hc : cluOf base = none := cluOf_hub (by omega)
  simp [fetch32, hc, hpair, readPlace]

/-- The answer to a read of a page that the network joins to the host is the value read. -/
theorem reply_hub (d : Dev) (fn : Fn) {base o : Nat} (v : Nat) (hp : base % 0x1000 = 0) (hl : d.heard (pageHome base) = true) (ho : o < 0x1000) :
    d.reply fn (base + o) v = d.complete fn (base + o) v :=
  reply_heard d fn _ v (by rwa [show (base + o) / 0x1000 * 0x1000 = base by omega])

theorem reply64_hub (d : Dev) (fn : Fn) {base o : Nat} (v : Nat) (hp : base % 0x1000 = 0) (hl : d.heard (pageHome base) = true) (ho : o < 0x1000) :
    d.reply64 fn (base + o) v = d.complete fn (base + o) v :=
  reply64_heard d fn _ v (by rwa [show (base + o) / 0x1000 * 0x1000 = base by omega])

theorem doRead32_pairLow (d : Dev) {base o : Nat} (h : d.HubPage base) (hd : base ≠ pDSP) (hal : o % 4 = 0) (ho : o < 0x1000)
    (hpair : pairAt base o = true) :
    d.doRead32 .pf (base + o) =
      ({ d with pairRd := SMap.put d.pairRd (pairKey .pf (regAt base (o + 4))) (d.readWord base (o + 4)) } : Dev).complete .pf (base + o)
        (d.readWord base o) := by
  have hp := h.aligned
  rw [doRead32, if_neg (by omega), atPlace_hub d false _ h ho, read32, submitHere_hub h.below hd]
  dsimp only
  rw [fetch32_pairLow d .pf h.below hpair]
  exact reply_hub _ .pf _ hp h.linked.2 ho

theorem doRead64_pair (d : Dev) {base o : Nat} (h : d.HubPage base) (hal : o % 8 = 0) (ho : o < 0x1000) (hpair : pairAt base o = true) :
    d.doRead64 .pf (base + o) = d.complete .pf (base + o) (d.readWord base o ||| d.readWord base (o + 4) <<< 32) := by
  have hp := h.aligned
  rw [doRead64, if_neg (by omega), reachPlace_hub d false _ _ h ho]
  simpa [hpair, readPlace] using reply64_hub d .pf _ hp h.linked.2 ho

theorem doFenceRead_hub (d : Dev) {base : Nat} (h : d.HubPage base) : d.doFenceRead .pf (base + 0x24) = d.complete .pf (base + 0x24) 0 := by
  rw [doFenceRead, atPlace_hub d false _ h (by omega)]
  simpa using reply_hub d .pf 0 h.aligned h.linked.2 (by omega : 0x24 < 0x1000)

/-! An access of another size or alignment: an access error where the function is served, none while it is under reset (R10, R425). -/

theorem doMisaligned_served (d : Dev) (fn : Fn) (a size : Nat) (write : Bool) (ha : d.active = true) (hr : d.pwr.fnReset.contains fn = false) :
    d.doMisaligned fn a size write = (if write then d else d.complete fn a (2 ^ (8 * size) - 1)).accessError fn 0 a write := by
  rw [doMisaligned, ha, hr]
  rfl

theorem doMisaligned_reset (d : Dev) (fn : Fn) (a size : Nat) (write : Bool) (hr : d.pwr.fnReset.contains fn = true) :
    d.doMisaligned fn a size write = if write then d else d.complete fn a (2 ^ (8 * size) - 1) := by
  rw [doMisaligned, hr, Bool.or_true]
  rfl

/-! A write of one word of a register: only fields of that word change (R7). -/

theorem writeWord_keeps (P : Dev → Prop) {base off v : Nat} {fs : List Fld}
    (hp : ∀ (e : Dev) (f : Fld) (x : Nat), f ∈ fs → f.off = off → P e → P (e.p base f x)) (d : Dev) (hd : P d) : P (d.writeWord base off v fs) := by
  have hin : ∀ f ∈ fs.filter (·.off == off), f ∈ fs ∧ f.off = off := by simp
  unfold writeWord
  generalize fs.filter (·.off == off) = gs at hin
  induction gs generalizing d with
  | nil => exact hd
  | cons f gs ih =>
    obtain ⟨hf, ho⟩ := hin f (List.mem_cons_self ..)
    rw [each_cons]
    refine ih _ ?_ fun f' hf' => hin f' (List.mem_cons_of_mem _ hf')
    split
    · exact hp _ _ _ hf ho hd
    · exact hp _ _ _ hf ho hd
    · exact hd

/-- Nothing but the register file changes. -/
theorem writeWord_eq (d : Dev) (base off v : Nat) (fs : List Fld) : d.writeWord base off v fs = { d with fld := (d.writeWord base off v fs).fld } :=
  writeWord_keeps (fun e => e = { d with fld := e.fld }) (fun e f x _ _ he => by rw [he]; rfl) d rfl

/-- A field at another bit address than those of the word's fields reads as before. -/
theorem g_writeWord_ne (d : Dev) {base off v base' : Nat} {fs : List Fld} {f' : Fld}
    (hne : ∀ f ∈ fs, f.off = off → 8 * base' + f'.bit ≠ 8 * base + f.bit) : (d.writeWord base off v fs).g base' f' = d.g base' f' :=
  writeWord_keeps (fun e => e.g base' f' = d.g base' f') (fun e f x hf ho he => (g_p_ne e base base' f f' x (hne f hf ho)).trans he) d rfl

theorem lo_fldsPMU : ∀ f ∈ fldsPMU, f.lo < 32 := by decide +kernel

/-- A field that lies outside the power unit's page reads as before a write to that page. -/
theorem g_writeWord_pmu (d : Dev) {o v base : Nat} {f : Fld} (ho : o < 0x800) (hout : base + f.off + 4 ≤ pPMU ∨ pPMU + 0x1000 ≤ base + f.off)
    (hlo : f.lo < 32) : (d.writeWord pPMU o v fldsPMU).g base f = d.g base f :=
  g_writeWord_ne d fun f' hf hoff => by
    have := lo_fldsPMU f' hf
    simp only [Fld.bit, hoff, pPMU] at hout ⊢
    omega

/-- A device that differs from a quiet one in the register file alone is quiet where the trigger sequencer and the trace streams stand as they did. -/
theorem Quiet.of_fld {d e : Dev} (h : d.Quiet) (he : e = { d with fld := e.fld }) (harm : e.b pTRG TRG_SEQ_STATUS_ARMED = d.b pTRG TRG_SEQ_STATUS_ARMED)
    (hen : ∀ s, e.strmEn s = d.strmEn s) : e.Quiet where
  events := by rw [he]; exact h.events
  hits := by rw [he]; exact h.hits
  answers := by rw [he]; exact h.answers
  writers := by rw [he]; exact h.writers
  armed := harm.trans h.armed
  streams := by simp only [hen]; exact h.streams
  fired := by rw [he]; exact h.fired
  capture := by rw [he]; exact h.capture

theorem quiet_writeWord_pmu (d : Dev) {o v : Nat} (ho : o < 0x800) (h : d.Quiet) : (d.writeWord pPMU o v fldsPMU).Quiet := by
  refine h.of_fld (writeWord_eq ..) ?_ fun s => ?_
  · rw [b, g_writeWord_pmu d ho (by decide) (by decide), b]
  · rw [strmEn, b, g_writeWord_pmu d ho (Or.inr ?_) (by simp [TRC_S_CFG_EN]), strmEn, b]
    simp only [pPMU, pTRC]
    omega

end Dev

/-! The register accesses as commands of the main domain. -/

theorem exec_registerWrite (fn : Fn) (off v : Nat) (wide : Bool) (s : State) :
    exec (.registerWrite fn off v wide) s = main s fun d => d.doRegisterWrite fn off v wide := rfl
theorem exec_pairLowWrite (fn : Fn) (off v : Nat) (s : State) : exec (.pairLowWrite fn off v) s = main s fun d => d.doRegisterWrite fn off v false := rfl
theorem exec_pairHighWrite (fn : Fn) (off v : Nat) (s : State) : exec (.pairHighWrite fn off v) s = main s fun d => d.doRegisterWrite fn off v false := rfl
theorem exec_pairLowRead (fn : Fn) (off : Nat) (s : State) : exec (.pairLowRead fn ⟨off, false⟩) s = main s fun d => d.doRead32 fn off := rfl
theorem exec_pairRead (fn : Fn) (off : Nat) (s : State) : exec (.pairLowRead fn ⟨off, true⟩) s = main s fun d => d.doRead64 fn off := rfl
theorem exec_fenceRead (fn : Fn) (off : Nat) (s : State) : exec (.fenceRead fn off) s = main s fun d => d.doFenceRead fn off := rfl
theorem exec_misalignedAccess (fn : Fn) (off size : Nat) (write : Bool) (s : State) :
    exec (.misalignedAccess fn off size write) s = main s fun d => d.doMisaligned fn off size write := rfl
theorem exec_irqStatClear (base : Nat) (v : W32) (s : State) : exec (.irqStatClear base v) s =
    main s fun d => d.atPlace .pf (base / 0x1000 * 0x1000 + 0x18) true fun d pl => d.write32 .pf pl v.toNat := rfl
theorem exec_irqForce (base : Nat) (v : W32) (s : State) : exec (.irqForce base v) s =
    main s fun d => d.atPlace .pf (base / 0x1000 * 0x1000 + 0x1C) true fun d pl => d.write32 .pf pl v.toNat := rfl

/-- A 32-bit write of the PF to a register of the power unit's own stores its fields, and settles. -/
theorem exec_registerWrite_pmu (d : Dev) (q : List Instr) {o : Nat} (v : Nat) (h : d.HubPage pPMU) (hal : o % 4 = 0) (hlo : 0x100 ≤ o)
    (hhi : o < 0x800) (hown : pairAt pPMU o = false) (hbelow : pairAt pPMU (o - 4) = false) :
    exec (.registerWrite .pf (pPMU + o) v false) ⟨d, q⟩ = .next ⟨(d.writeWord pPMU o (v % 2 ^ 32) fldsPMU).finish, q⟩ := by
  rw [exec_registerWrite, main_active d q _ h.isActive, d.doRegisterWrite_hub v h hal (by omega), Dev.write32_single d .pf _ hown hbelow,
    Dev.writeReg_hub_own d .pf _ (by decide) hlo hhi, Dev.writeHub_pmu]

/-- A write to one of the common registers of a hub page acts, and settles. -/
theorem main_atPlace_common (d : Dev) (q : List Instr) {base o v : Nat} (h : d.HubPage base) (ho : o < 0x100) (hown : pairAt base o = false)
    (hbelow : pairAt base (o - 4) = false) :
    main ⟨d, q⟩ (fun d => d.atPlace .pf (base / 0x1000 * 0x1000 + o) true fun d pl => d.write32 .pf pl v) =
      .next ⟨(d.writeCommon .pf base o v).finish, q⟩ := by
  have hp := h.aligned
  rw [main_active d q _ h.isActive, show base / 0x1000 * 0x1000 = base by omega, Dev.atPlace_hub d true _ h (by omega),
    Dev.write32_single d .pf v hown hbelow, Dev.writeReg_hub_common d .pf v h.below ho]

theorem forceIrq_eq (d : Dev) (base v : Nat) : d.forceIrq base v =
    d.each ((List.range 32).filter (v &&& irqBits base).testBit) fun e i =>
      if base = pTRC ∧ i < 16 then (e.irq base i).irq (pPTN i) 13 else if base = pCAP ∧ i < 16 then (e.irq base i).irq (pPTN i) 12 else e.irq base i := by
  simp [Dev.forceIrq]

/-! The state after reset (R7, R362, R379, R380): every sparse store is empty, so every field reads its Reset value, and no partition has
a cluster or a queue. -/

theorem reset_agrees : State.reset.dev.pwr.Agrees where
  off := by decide
  standby := by decide
  supply := by decide
  stop := by decide
  perst := by decide
  after := by decide

theorem not_claims_reset (i n : Nat) : ¬ State.reset.dev.claims i n := by
  rintro (hmask | hprom)
  · exact Bool.noConfusion ((Nat.zero_testBit n).symm.trans hmask)
  · exact Bool.noConfusion (hprom : (false && _) = true)

theorem not_claimsQueue_reset (i q : Nat) : ¬ State.reset.dev.claimsQueue i q := by
  rintro (⟨hlo, hhi⟩ | ⟨hst, -⟩)
  · exact absurd hhi (Nat.not_lt.2 hlo)
  · exact Nat.noConfusion (hst : 0 = 3)

theorem reset_oneOwner : State.reset.dev.OneOwner where
  free _ _ _ := ⟨rfl, rfl⟩
  clusters i _ _ _ n _ hi _ := absurd hi (not_claims_reset i n)
  queues i _ _ _ q hi _ := absurd hi (not_claimsQueue_reset i q)
  range i _ q hi := absurd hi (not_claimsQueue_reset i q)

/-- Settles O8: the reset state's stores are empty lists, so fields read their Reset values and nothing is owned, queued or written. -/
theorem resetMeetsTheInvariants : Obligations.ResetMeetsTheInvariants :=
  ⟨reset_agrees, ⟨rfl, nofun⟩, ⟨rfl, rfl⟩, reset_oneOwner, ⟨nofun⟩, rfl, rfl, fun _ _ => rfl⟩

/-- Settles O17: the write stores fields of one word of the page alone, which leaves the device quiet, so settling changes the bus alone. -/
theorem powerUnitWriteTouchesNothingElse : Obligations.PowerUnitWriteTouchesNothingElse := by
  intro d q o v hpage hquiet hal hlo hhi hown hbelow
  have hfin := Dev.finish_quiet _ (Dev.quiet_writeWord_pmu d (v := v % 2 ^ 32) hhi hquiet)
  refine ⟨_, exec_registerWrite_pmu d q v hpage hal hlo hhi hown hbelow, rfl, ?_, fun base f hout hf => ?_⟩
  · rw [hfin, Dev.writeWord_eq d]
  · rw [hfin]
    exact Dev.g_writeWord_pmu d hhi hout hf

/-- Settles O59: each access of the PF is served at its register's place, where it does what R9, R10, R275 or R426 says. -/
theorem registerAccessesTakeEffect : Obligations.RegisterAccessesTakeEffect := by
  refine ⟨?own, ?pairLow, ?pairHigh, ?wide, ?read, ?readWide, ?fence, ?misaligned, ?misalignedReset, ?irqStat, ?irqForce⟩
  case own => exact fun d q o v => exec_registerWrite_pmu d q v
  case pairLow =>
    intro d q base o v hpage _ hal ho hpair
    rw [exec_pairLowWrite, main_active d q _ hpage.isActive, d.doRegisterWrite_hub v hpage hal (by omega),
      Dev.write32_pairLow d .pf _ hpair, Nat.mod_mod]
  case pairHigh =>
    intro d q base o v hpage _ hal ho hpair hown
    rw [exec_pairHighWrite, main_active d q _ hpage.isActive, d.doRegisterWrite_hub v hpage (by omega) (by omega),
      Dev.write32_pairHigh d .pf _ hpair hown, Nat.mod_mod]
  case wide =>
    intro d q base o v hpage hal ho hpair
    rw [exec_registerWrite, main_active d q _ hpage.isActive, d.doRegisterWrite_wide_hub v hpage hal (by omega) hpair]
  case read =>
    intro d q base o hpage hd hal ho hpair
    rw [exec_pairLowRead, main_active d q _ hpage.isActive, d.doRead32_pairLow hpage hd hal (by omega) hpair]
  case readWide =>
    intro d q base o hpage hal ho hpair
    rw [exec_pairRead, main_active d q _ hpage.isActive, d.doRead64_pair hpage hal (by omega) hpair]
  case fence =>
    intro d q base hpage
    rw [exec_fenceRead, main_active d q _ hpage.isActive, d.doFenceRead_hub hpage]
  case misaligned =>
    intro d q fn off size write ha hr
    rw [exec_misalignedAccess, main_active d q _ ha, d.doMisaligned_served fn off size write ha hr]
  case misalignedReset =>
    intro d q fn off size write ha hr
    rw [exec_misalignedAccess, main_active d q _ ha, d.doMisaligned_reset fn off size write hr]
  case irqStat =>
    intro d q base v hpage
    obtain ⟨hbelow, hown, -⟩ := Dev.pairAt_irq hpage.aligned hpage.below
    rw [exec_irqStatClear]
    exact main_atPlace_common d q hpage (by decide) hown hbelow
  case irqForce =>
    intro d q base v hpage
    obtain ⟨-, hbelow, hown⟩ := Dev.pairAt_irq hpage.aligned hpage.below
    rw [exec_irqForce, main_atPlace_common d q hpage (by decide) hown hbelow, ← forceIrq_eq]
    rfl

end Sys2Proof.Machine

namespace Sys2Proof.Machine

/-! What a command and a step come to, whatever they are (R18, R379, R402): an effect on the device, settled. -/

/-- Every command answers the state with some effect on the device settled: its meaning is one in any power state (`fin`), in the main domain alone
(`main`), or by a configuration request (`config`), and the last two are the first with a condition on the effect. -/
theorem exec_settles (c : Instr) (s : State) : ∃ d : Dev, exec c s = .next (s.settle d) := by
  cases c <;> exact ⟨_, rfl⟩

theorem pending_settle (s : State) (d : Dev) : (s.settle d).pending = s.pending := rfl
theorem bus_settle (s : State) (d : Dev) : (s.settle d).dev.bus = [] := rfl

theorem step_cons (c : Instr) (q : List Instr) (d : Dev) : step ⟨d, c :: q⟩ = exec c ⟨d, q⟩ := rfl

/-- With nothing waiting a step is the clock's command of the main domain. -/
theorem step_nil (d : Dev) : step ⟨d, []⟩ = main ⟨d, []⟩ Dev.clockStep := rfl

/-- Settles O1: the first command leaves the queue and runs on the rest; the clock of an empty queue acts only in ACTIVE. -/
theorem stepRunsTheFrontCommand : Obligations.StepRunsTheFrontCommand := by
  refine ⟨step_cons, fun d => ?_⟩
  rw [step_nil]
  cases hact : d.active with
  | true => exact main_active d [] _ hact
  | false => exact main_idle d [] _ hact

/-- Settles O2: whatever effect a command has, settling it leaves the queue alone and empties the bus. -/
theorem everyCommandAnswersANextState : Obligations.EveryCommandAnswersANextState := by
  intro c s
  obtain ⟨d, hd⟩ := exec_settles c s
  exact ⟨s.settle d, hd, pending_settle s d, bus_settle s d⟩

/-! Every command and every step keeps at most one owner of each cluster and queue (R14, R160, R283): a command by the law of its own meaning,
a step because it is a command's or the clock's. -/

theorem exec_own {s t : State} (h0 : s.dev.OneOwner) : ∀ c : Instr, exec c s = .next t → t.dev.OneOwner
  | .registerWrite .., h => execRegisterWrite_own _ _ _ _ _ h0 h
  | .pairLowRead .., h => execPairLowRead_own _ _ _ h0 h
  | .pairLowWrite .., h => execPairLowWrite_own _ _ _ _ h0 h
  | .pairHighWrite .., h => execPairHighWrite_own _ _ _ _ h0 h
  | .misalignedAccess .., h => execMisalignedAccess_own _ _ _ _ _ h0 h
  | .fenceRead .., h => execFenceRead_own _ _ _ h0 h
  | .executeStep .., h => execExecuteStep_own _ _ h0 h
  | .correctedWordWriteBack .., h => execCorrectedWordWriteBack_own _ _ _ _ _ _ h0 h
  | .cascadeLimit .., h => execCascadeLimit_own _ _ h0 h
  | .runLimitReached .., h => execRunLimitReached_own _ _ h0 h
  | .stepCyclesCountReached .., h => execStepCyclesCountReached_own _ _ h0 h
  | .stepStepsCountReached .., h => execStepStepsCountReached_own _ _ h0 h
  | .stallRelease .., h => execStallRelease_own _ _ h0 h
  | .start .., h => execStart_own _ _ h0 h
  | .resume .., h => execResume_own _ _ h0 h
  | .freeze .., h => execFreeze_own _ _ h0 h
  | .hardFreeze .., h => execHardFreeze_own _ _ h0 h
  | .stepCycles .., h => execStepCycles_own _ _ h0 h
  | .stepSteps .., h => execStepSteps_own _ _ h0 h
  | .stop .., h => execStop_own _ _ h0 h
  | .seqCmdInvalid .., h => execSeqCmdInvalid_own _ _ _ h0 h
  | .freezeSettled .., h => execFreezeSettled_own _ _ h0 h
  | .freezeTimeout .., h => execFreezeTimeout_own _ _ h0 h
  | .seqTableWrite .., h => execSeqTableWrite_own _ _ _ _ h0 h
  | .bpiClrCounts .., h => execBpiClrCounts_own _ _ h0 h
  | .wliClrCounts .., h => execWliClrCounts_own _ _ h0 h
  | .fabClrCount .., h => execFabClrCount_own _ _ h0 h
  | .dmemClrCounts .., h => execDmemClrCounts_own _ _ h0 h
  | .dmemRowWriteBack .., h => execDmemRowWriteBack_own _ _ _ _ h0 h
  | .dmemCfgWrite .., h => execDmemCfgWrite_own _ _ _ _ h0 h
  | .fmpConfigWrite .., h => execFmpConfigWrite_own _ _ _ _ h0 h
  | .txpConfigWrite .., h => execTxpConfigWrite_own _ _ _ _ h0 h
  | .farReadArrival .., h => execFarReadArrival_own _ _ _ h0 h
  | .farWriteAck .., h => execFarWriteAck_own _ _ _ h0 h
  | .windowRead .., h => execWindowRead_own _ _ _ _ _ h0 h
  | .windowWrite .., h => execWindowWrite_own _ _ _ _ _ _ h0 h
  | .windowReadTimeout .., h => execWindowReadTimeout_own _ _ _ _ _ h0 h
  | .snapSave .., h => execSnapSave_own _ _ h0 h
  | .snapSaveComplete .., h => execSnapSaveComplete_own _ _ h0 h
  | .snapRestore .., h => execSnapRestore_own _ _ h0 h
  | .snapCheckComplete .., h => execSnapCheckComplete_own _ _ h0 h
  | .snapRestoreComplete .., h => execSnapRestoreComplete_own _ _ h0 h
  | .snapAbort .., h => execSnapAbort_own _ _ h0 h
  | .strobe, h => execStrobe_own _ h0 h
  | .strobeLatch, h => execStrobeLatch_own _ h0 h
  | .ptnCreate .., h => execPtnCreate_own _ _ _ _ _ _ _ h0 h
  | .ptnDestroy .., h => execPtnDestroy_own _ _ _ h0 h
  | .ptnCloseComplete .., h => execPtnCloseComplete_own _ _ h0 h
  | .ptnResize .., h => execPtnResize_own _ _ _ _ _ _ h0 h
  | .ptnResizeComplete .., h => execPtnResizeComplete_own _ _ h0 h
  | .ptnQuery .., h => execPtnQuery_own _ _ _ h0 h
  | .ping .., h => execPing_own _ _ _ h0 h
  | .serviceBadCommand .., h => execServiceBadCommand_own _ _ h0 h
  | .linkedCommand .., h => execLinkedCommand_own _ _ _ _ _ _ _ h0 h
  | .linkedCommandEffect .., h => execLinkedCommandEffect_own _ _ h0 h
  | .hold .., h => execHold_own _ _ _ _ _ h0 h
  | .ready .., h => execReady_own _ _ _ _ _ h0 h
  | .go .., h => execGo_own _ _ _ _ _ h0 h
  | .systemHoldRelease .., h => execSystemHoldRelease_own _ _ h0 h
  | .steps .., h => execSteps_own _ _ _ _ _ _ h0 h
  | .sysFreeze, h => execSysFreeze_own _ h0 h
  | .freezeMsg .., h => execFreezeMsg_own _ _ _ _ _ h0 h
  | .lockstepRecord .., h => execLockstepRecord_own _ _ h0 h
  | .partnerTimeout, h => execPartnerTimeout_own _ h0 h
  | .beaconSend, h => execBeaconSend_own _ h0 h
  | .beacon .., h => execBeacon_own _ _ _ _ _ _ _ h0 h
  | .beaconTimeout, h => execBeaconTimeout_own _ h0 h
  | .tsbHoldEnd, h => execTsbHoldEnd_own _ h0 h
  | .tsbSet .., h => execTsbSet_own _ _ h0 h
  | .bootGo, h => execBootGo_own _ h0 h
  | .bootAbort, h => execBootAbort_own _ h0 h
  | .bundleFetchComplete .., h => execBundleFetchComplete_own _ _ h0 h
  | .bundleVerifyComplete, h => execBundleVerifyComplete_own _ h0 h
  | .stageReady, h => execStageReady_own _ h0 h
  | .confirm, h => execConfirm_own _ h0 h
  | .burnComplete .., h => execBurnComplete_own _ _ h0 h
  | .ownerProvision .., h => execOwnerProvision_own _ _ _ h0 h
  | .loadGo .., h => execLoadGo_own _ _ h0 h
  | .loadAbort .., h => execLoadAbort_own _ _ h0 h
  | .loadReplay .., h => execLoadReplay_own _ _ h0 h
  | .frame .., h => execFrame_own _ _ _ h0 h
  | .scrubWalkRead .., h => execScrubWalkRead_own _ _ _ h0 h
  | .scrubPassRequest .., h => execScrubPassRequest_own _ _ h0 h
  | .scrubPassStart, h => execScrubPassStart_own _ h0 h
  | .scrubPassComplete, h => execScrubPassComplete_own _ h0 h
  | .upset .., h => execUpset_own _ _ _ _ h0 h
  | .upsetRewrite .., h => execUpsetRewrite_own _ _ _ h0 h
  | .laneGroupEnable .., h => execLaneGroupEnable_own _ _ h0 h
  | .laneGroupDisable .., h => execLaneGroupDisable_own _ _ h0 h
  | .laneTestRequest .., h => execLaneTestRequest_own _ _ h0 h
  | .markerSend .., h => execMarkerSend_own _ _ h0 h
  | .marker .., h => execMarker_own _ _ _ _ _ h0 h
  | .acqTimeout .., h => execAcqTimeout_own _ _ h0 h
  | .laneLoss .., h => execLaneLoss_own _ _ _ h0 h
  | .codeword .., h => execCodeword_own _ _ _ _ _ h0 h
  | .slotFrame .., h => execSlotFrame_own _ _ _ _ h0 h
  | .linkFlit .., h => execLinkFlit_own _ _ _ _ h0 h
  | .credit .., h => execCredit_own _ _ _ _ _ h0 h
  | .injGo .., h => execInjGo_own _ _ h0 h
  | .lgrpClrCounts .., h => execLgrpClrCounts_own _ _ h0 h
  | .clrSlack .., h => execClrSlack_own _ _ h0 h
  | .bridgeLaneEnable .., h => execBridgeLaneEnable_own _ _ _ _ _ h0 h
  | .bridgeWordReceive .., h => execBridgeWordReceive_own _ _ _ _ h0 h
  | .bridgeWordTransmit .., h => execBridgeWordTransmit_own _ _ _ h0 h
  | .packetHop .., h => execPacketHop_own _ _ _ _ h0 h
  | .rd .., h => execRd_own _ _ h0 h
  | .wr .., h => execWr_own _ _ h0 h
  | .qwr .., h => execQwr_own _ _ h0 h
  | .qrd .., h => execQrd_own _ _ h0 h
  | .capWr .., h => execCapWr_own _ _ h0 h
  | .trcWr .., h => execTrcWr_own _ _ h0 h
  | .rspData .., h => execRspData_own _ _ h0 h
  | .rspAck .., h => execRspAck_own _ _ h0 h
  | .rspTimeout .., h => execRspTimeout_own _ _ _ h0 h
  | .tagQuarantineEnd .., h => execTagQuarantineEnd_own _ _ _ h0 h
  | .routeTableWrite .., h => execRouteTableWrite_own _ _ _ _ h0 h
  | .drain .., h => execDrain_own _ _ h0 h
  | .drainComplete .., h => execDrainComplete_own _ _ h0 h
  | .drainTimeout .., h => execDrainTimeout_own _ _ h0 h
  | .unfence .., h => execUnfence_own _ _ h0 h
  | .nocClrCounts, h => execNocClrCounts_own _ h0 h
  | .txpCopyFill .., h => execTxpCopyFill_own _ _ _ h0 h
  | .txpCreditRenew .., h => execTxpCreditRenew_own _ _ _ h0 h
  | .doorbellAppend .., h => execDoorbellAppend_own _ _ _ _ _ _ h0 h
  | .doorbellAppendMulti .., h => execDoorbellAppendMulti_own _ _ _ _ h0 h
  | .pop .., h => execPop_own _ _ _ h0 h
  | .popWaitExpire .., h => execPopWaitExpire_own _ _ _ h0 h
  | .bar4AccessError .., h => execBar4AccessError_own _ _ _ _ h0 h
  | .qwrHoldExpire .., h => execQwrHoldExpire_own _ _ h0 h
  | .qrdHoldExpire .., h => execQrdHoldExpire_own _ _ h0 h
  | .flush .., h => execFlush_own _ _ _ h0 h
  | .dropHead .., h => execDropHead_own _ _ _ h0 h
  | .clrHwm .., h => execClrHwm_own _ _ _ h0 h
  | .queueEnable .., h => execQueueEnable_own _ _ _ h0 h
  | .queueDisable .., h => execQueueDisable_own _ _ _ h0 h
  | .submit .., h => execSubmit_own _ _ h0 h
  | .submitHoldExpire .., h => execSubmitHoldExpire_own _ _ h0 h
  | .courierDispatch .., h => execCourierDispatch_own _ _ _ h0 h
  | .workItemComplete .., h => execWorkItemComplete_own _ _ h0 h
  | .courierWaitLimit .., h => execCourierWaitLimit_own _ _ h0 h
  | .dspClr, h => execDspClr_own _ h0 h
  | .triggerLevelTimeout, h => execTriggerLevelTimeout_own _ h0 h
  | .arm, h => execArm_own _ h0 h
  | .disarm, h => execDisarm_own _ h0 h
  | .trigPinEdge .., h => execTrigPinEdge_own _ _ _ h0 h
  | .pinPulseEnd .., h => execPinPulseEnd_own _ _ h0 h
  | .captureArm .., h => execCaptureArm_own _ _ h0 h
  | .captureDisarm .., h => execCaptureDisarm_own _ _ h0 h
  | .captureBlockWrite .., h => execCaptureBlockWrite_own _ _ _ h0 h
  | .postLimitExpire .., h => execPostLimitExpire_own _ _ h0 h
  | .rearmExpire .., h => execRearmExpire_own _ _ h0 h
  | .channelOwnerWrite .., h => execChannelOwnerWrite_own _ _ _ h0 h
  | .zeroingComplete .., h => execZeroingComplete_own _ _ h0 h
  | .pinwheelConfigWrite .., h => execPinwheelConfigWrite_own _ _ _ h0 h
  | .traceStreamEnable .., h => execTraceStreamEnable_own _ _ h0 h
  | .traceCounterLimit .., h => execTraceCounterLimit_own _ _ h0 h
  | .mark .., h => execMark_own _ _ _ h0 h
  | .traceBlockTimeout .., h => execTraceBlockTimeout_own _ _ h0 h
  | .traceSyncTimer .., h => execTraceSyncTimer_own _ _ h0 h
  | .tokenChallenge .., h => execTokenChallenge_own _ _ h0 h
  | .tokenPresent .., h => execTokenPresent_own _ _ _ h0 h
  | .tokenRevoke .., h => execTokenRevoke_own _ _ h0 h
  | .tokenExpire, h => execTokenExpire_own _ h0 h
  | .authDisable, h => execAuthDisable_own _ h0 h
  | .roll, h => execRoll_own _ h0 h
  | .keyRollStart, h => execKeyRollStart_own _ h0 h
  | .keyRollSector, h => execKeyRollSector_own _ h0 h
  | .imeClrCounts, h => execImeClrCounts_own _ h0 h
  | .vauxUp, h => execVauxUp_own _ h0 h
  | .vauxLoss, h => execVauxLoss_own _ h0 h
  | .vin48Up, h => execVin48Up_own _ h0 h
  | .vin48Loss, h => execVin48Loss_own _ h0 h
  | .perstAssert, h => execPerstAssert_own _ h0 h
  | .perstDeassert, h => execPerstDeassert_own _ h0 h
  | .startup .., h => execStartup_own _ _ _ h0 h
  | .device, h => execDevice_own _ h0 h
  | .flrPf, h => execFlrPf_own _ h0 h
  | .flrVf .., h => execFlrVf_own _ _ h0 h
  | .functionResetComplete .., h => execFunctionResetComplete_own _ _ h0 h
  | .ptnReset .., h => execPtnReset_own _ _ h0 h
  | .partitionResetComplete .., h => execPartitionResetComplete_own _ _ h0 h
  | .vfEnableClear, h => execVfEnableClear_own _ h0 h
  | .clusterWake .., h => execClusterWake_own _ _ h0 h
  | .clusterIdleDelay .., h => execClusterIdleDelay_own _ _ h0 h
  | .clusterOffDelay .., h => execClusterOffDelay_own _ _ h0 h
  | .clusterPowerOn .., h => execClusterPowerOn_own _ _ h0 h
  | .corePllLockLost, h => execCorePllLockLost_own _ h0 h
  | .wakeSource .., h => execWakeSource_own _ _ h0 h
  | .heartbeat .., h => execHeartbeat_own _ _ h0 h
  | .heartbeatTimeout, h => execHeartbeatTimeout_own _ h0 h
  | .graceTimeout, h => execGraceTimeout_own _ h0 h
  | .overTemperature .., h => execOverTemperature_own _ _ _ h0 h
  | .railFault, h => execRailFault_own _ h0 h
  | .wardenStop, h => execWardenStop_own _ h0 h
  | .stopDrainTimeout, h => execStopDrainTimeout_own _ h0 h
  | .stopComplete, h => execStopComplete_own _ h0 h
  | .stringJoin, h => execStringJoin_own _ h0 h
  | .stringOpen, h => execStringOpen_own _ h0 h
  | .stringLeave, h => execStringLeave_own _ h0 h
  | .discover, h => execDiscover_own _ h0 h
  | .collect .., h => execCollect_own _ _ _ _ _ h0 h
  | .assign .., h => execAssign_own _ _ _ _ _ h0 h
  | .stringBeacon .., h => execStringBeacon_own _ _ _ _ _ _ h0 h
  | .stringFreeze .., h => execStringFreeze_own _ _ _ _ _ h0 h
  | .stringStrobe .., h => execStringStrobe_own _ _ _ _ _ h0 h
  | .resetReq .., h => execResetReq_own _ _ _ _ _ _ h0 h
  | .msg .., h => execMsg_own _ _ _ _ _ _ h0 h
  | .resetReqSend, h => execResetReqSend_own _ h0 h
  | .stringBroken, h => execStringBroken_own _ h0 h
  | .logClear, h => execLogClear_own _ h0 h
  | .lastGaspClear, h => execLastGaspClear_own _ h0 h
  | .mntRelease .., h => execMntRelease_own _ _ _ _ h0 h
  | .mbistGo .., h => execMbistGo_own _ _ h0 h
  | .mbistComplete .., h => execMbistComplete_own _ _ _ h0 h
  | .clearAll, h => execClearAll_own _ h0 h
  | .counterSaturate .., h => execCounterSaturate_own _ _ _ h0 h
  | .irqStatClear .., h => execIrqStatClear_own _ _ _ h0 h
  | .irqForce .., h => execIrqForce_own _ _ _ h0 h
  | .msixUnmask .., h => execMsixUnmask_own _ _ _ h0 h
  | .bar2Read .., h => execBar2Read_own _ _ _ _ h0 h
  | .bar2Write .., h => execBar2Write_own _ _ _ _ h0 h
  | .captureWindowRead .., h => execCaptureWindowRead_own _ _ _ _ h0 h
  | .boundaryScanExtest .., h => execBoundaryScanExtest_own _ _ h0 h
  | .ownerBurnComplete .., h => execOwnerBurnComplete_own _ _ h0 h
  | .prbsCheck .., h => execPrbsCheck_own _ _ _ _ h0 h
  | .laneClockRecovered .., h => execLaneClockRecovered_own _ _ _ h0 h
  | .vfEnableSet .., h => execVfEnableSet_own _ _ h0 h
  | .stringFrameRepeat, h => execStringFrameRepeat_own _ h0 h
  | .stringBeaconSend, h => execStringBeaconSend_own _ h0 h

theorem step_own {s t : State} (h : step s = .next t) (h0 : s.dev.OneOwner) : t.dev.OneOwner := by
  obtain ⟨d, pending⟩ := s
  cases pending with
  | nil =>
    rw [step_nil] at h
    exact main_own h0 Dev.clockStep_own h
  | cons c rest =>
    rw [step_cons] at h
    exact exec_own (s := ⟨d, rest⟩) h0 c h

/-- Settles O6: a step is a command's effect or the clock's, and each of these keeps the directory's owners apart. -/
theorem eachClusterAndQueueHasOneOwner : Obligations.EachClusterAndQueueHasOneOwner :=
  fun _ _ => step_own

end Sys2Proof.Machine

namespace Sys2Proof.Machine

/-! Commit (R37, R38, R63): each listed next copy becomes both copies. Entries land last to first, so that the first one listed for a place, which is
the one a read finds, is the one that stays. -/

namespace SMap
variable {α : Type} [DecidableEq α]

/-- `c` with every place that `m` lists reading as `m` lists it. -/
def setAll (dflt : α) (m c : SMap α) : SMap α := m.foldr (fun e c => set dflt c e.1 e.2) c

omit [DecidableEq α] in
/-- `c` without the places that `m` lists. -/
def delAll (m c : SMap α) : SMap α := m.foldr (fun e c => del c e.1) c

theorem get_setAll (dflt : α) (m c : SMap α) (k : Nat) : get dflt (setAll dflt m c) k = (get? m k).getD (get dflt c k) := by
  induction m with
  | nil => rfl
  | cons e m ih =>
    rw [show setAll dflt (e :: m) c = set dflt (setAll dflt m c) e.1 e.2 from rfl, get_set, ih, get?]
    by_cases h : k = e.1
    · simp [h]
    · simp [h, Ne.symm h]

omit [DecidableEq α] in
theorem get?_delAll (m c : SMap α) (k : Nat) : get? (delAll m c) k = if (get? m k).isSome then none else get? c k := by
  induction m with
  | nil => rfl
  | cons e m ih =>
    rw [show delAll (e :: m) c = del (delAll m c) e.1 from rfl, get?_del, ih, get?]
    by_cases h : k = e.1
    · simp [h]
    · simp [h, Ne.symm h]

theorem get_setAll_range (dflt : α) (m c : SMap α) (lo hi k : Nat) :
    get dflt (setAll dflt (range m lo hi) c) k = if lo ≤ k ∧ k < hi then (get? m k).getD (get dflt c k) else get dflt c k := by
  rw [get_setAll, get?_range]
  split <;> rfl

omit [DecidableEq α] in
/-- Taking away every entry of a range leaves none there. -/
theorem get?_delAll_range (m : SMap α) (lo hi k : Nat) :
    get? (delAll (range m lo hi) m) k = if lo ≤ k ∧ k < hi then none else get? m k := by
  rw [get?_delAll, get?_range]
  by_cases h : lo ≤ k ∧ k < hi
  · cases hk : get? m k <;> simp [h]
  · simp [h]

end SMap

theorem Stores.foldr_setBoth (m : SMap Bool) (s : Stores) :
    m.foldr (fun e s => s.setBoth e.1 e.2) s = { s with cur := SMap.setAll false m s.cur, nxt := SMap.delAll m s.nxt } := by
  induction m with
  | nil => rfl
  | cons e m ih => rw [List.foldr_cons, ih]; rfl

theorem Stores.foldr_setBothW (m : SMap W32) (s : Stores) :
    m.foldr (fun e s => s.setBothW e.1 e.2) s = { s with curW := SMap.setAll 0 m s.curW, nxtW := SMap.delAll m s.nxtW } := by
  induction m with
  | nil => rfl
  | cons e m ih => rw [List.foldr_cons, ih]; rfl

/-- A commit moves the listed next copies of the cluster's state entries and state words, and no other store. -/
theorem Stores.commit_eq (s : Stores) (n : Nat) :
    s.commit n = { s with
      cur := SMap.setAll false (SMap.range s.nxt (n * 32768) (n * 32768 + 32768)) s.cur
      nxt := SMap.delAll (SMap.range s.nxt (n * 32768) (n * 32768 + 32768)) s.nxt
      curW := SMap.setAll 0 (SMap.range s.nxtW (n * 2048) (n * 2048 + 2048)) s.curW
      nxtW := SMap.delAll (SMap.range s.nxtW (n * 2048) (n * 2048 + 2048)) s.nxtW } := by
  rw [Stores.commit, foldr_setBoth, foldr_setBothW]

/-- Settles O16: a commit lands the listed next copies of the cluster's ranges and unlists them; a place outside the ranges is not among them. -/
theorem commitMovesNextToCurrent : Obligations.CommitMovesNextToCurrent := by
  refine ⟨fun s n k => ?bits, fun s n k => ?words⟩
  case bits =>
    rw [Stores.commit_eq]
    exact ⟨SMap.get_setAll_range .., SMap.get?_delAll_range ..⟩
  case words =>
    rw [Stores.commit_eq]
    exact ⟨SMap.get_setAll_range .., SMap.get?_delAll_range ..⟩

/-! The BP words (R28, R31, R34, R40, R41). -/

namespace Dev

theorem bpResult_eq (d : Dev) (n t w : Nat) :
    d.bpResult n t w = w.testBit (8 * (d.tss n t (bpSrc w 3)).toNat + 4 * (d.tss n t (bpSrc w 2)).toNat +
      2 * (d.tss n t (bpSrc w 1)).toNat + (d.tss n t (bpSrc w 0)).toNat) := by
  have bit_le (k : Nat) : (d.tss n t (bpSrc w k)).toNat ≤ 1 := Bool.toNat_le _
  have h0 := bit_le 0
  have h1 := bit_le 1
  have h2 := bit_le 2
  have h3 := bit_le 3
  rw [bpResult, bpTT, bitsAt, Nat.testBit_mod_two_pow, Nat.shiftRight_zero]
  simp only [Nat.mul_comm _ 8, Nat.mul_comm _ 4, Nat.mul_comm _ 2]
  rw [decide_eq_true (by omega), Bool.true_and]

theorem bpWrites_hold (d : Dev) (n t b u : Nat) {w : Nat} (h : w.testBit 77 = true) : d.bpWrites n t b u w = [] := if_pos h

/-! What a word that does not HOLD writes, by its STATE_OP. -/

theorem bpWrites_window (d : Dev) (n t b u : Nat) {w : Nat} (h : w.testBit 77 = false)
    (hop : ¬ (bpOp w = 1 ∨ bpOp w = 3 ∨ bpOp w = 2 ∧ d.tss n t (bpSrc w 3) = true)) :
    d.bpWrites n t b u w = [.res n t (u % 32 * 64 + b) (d.bpResult n t w)] := by
  have hlt : bpOp w < 4 := Nat.mod_lt _ (by decide)
  obtain ⟨h1, h3, h2⟩ : bpOp w ≠ 1 ∧ bpOp w ≠ 3 ∧ ¬ (bpOp w = 2 ∧ d.tss n t (bpSrc w 3) = true) := by simpa only [not_or] using hop
  by_cases hop2 : bpOp w = 2
  · have hd : ¬ d.tss n t (bpSrc w 3) = true := fun hd => h2 ⟨hop2, hd⟩
    simp [bpWrites, bpHold, h, hop2, hd]
  · simp [bpWrites, bpHold, h, show bpOp w = 0 by omega]

theorem bpWrites_next (d : Dev) (n t b u : Nat) {w : Nat} (h : w.testBit 77 = false)
    (hop : bpOp w = 1 ∨ bpOp w = 2 ∧ d.tss n t (bpSrc w 3) = true) :
    d.bpWrites n t b u w = [.res n t (u % 32 * 64 + b) (d.bpResult n t w), .bit n t (0xC00 + bpState w) (d.bpResult n t w)] := by
  obtain h1 | ⟨h2, hd⟩ := hop
  · simp [bpWrites, bpHold, h, h1]
  · simp [bpWrites, bpHold, h, h2, hd]

theorem bpWrites_both (d : Dev) (n t b u : Nat) {w : Nat} (h : w.testBit 77 = false) (hop : bpOp w = 3) :
    d.bpWrites n t b u w = [.res n t (u % 32 * 64 + b) (d.bpResult n t w), .imm n t (bpState w) (d.bpResult n t w)] := by
  simp [bpWrites, bpHold, h, hop]

/-! What one write of a BP changes: the result its own window entry, the state write its own state entry. -/

theorem tss_apply_res (d : Dev) (n t : Nat) (v : Bool) {i a : Nat} (hi : i < 2048) (ha : a < 0xC00) :
    (d.setSt (d.st.apply (.res n t i v))).tss n t a = if a = i then v else d.tss n t a := by
  simp only [tss_eq, Stores.apply, setSt_st, Nat.mod_eq_of_lt hi]
  by_cases hw : a < 0x800
  · simp only [hw, if_true, putB, Nat.add_left_cancel_iff]
  · simp only [hw, if_false, ha, if_true, show a ≠ i by omega]

theorem tss_setBoth (d : Dev) (n t k : Nat) (v : Bool) {a : Nat} (ha : a < 0xC00) :
    (d.setSt (d.st.setBoth k v)).tss n t a = d.tss n t a := by
  simp only [tss_eq, ha, if_true]
  rfl

end Dev

theorem Stores.apply_bit_state (s : Stores) (n t : Nat) (v : Bool) {i : Nat} (hi : i < 1024) :
    s.apply (.bit n t (0xC00 + i) v) = s.setNext (tileIx n t * 1024 + i) v := by
  have hin : (decide (0xC00 + i < 0x800) || decide (0x1000 ≤ 0xC00 + i)) = false := by
    simp only [Bool.or_eq_false_iff, decide_eq_false_iff_not]
    omega
  rw [Stores.apply, hin, if_neg Bool.false_ne_true, if_neg (by omega), Nat.add_sub_cancel_left]

theorem Stores.apply_imm_state (s : Stores) (n t : Nat) (v : Bool) {i : Nat} (hi : i < 1024) :
    s.apply (.imm n t i v) = s.setBoth (tileIx n t * 1024 + i) v := by
  rw [Stores.apply, Nat.mod_eq_of_lt hi]

theorem bpState_lt (w : Nat) : bpState w < 1024 := Nat.mod_lt _ (by decide)

/-- What an issued word of a BP changes, in the names of its fields (R34, R40, R41): its window entry, and by STATE_OP its state entry's next copy alone
or both copies. -/
theorem Dev.applyAll_bpWrites (d : Dev) (n t b u : Nat) {w : Nat} (hgo : w.testBit 77 = false) (hb : b < 64) :
    let e := d.setSt (d.st.applyAll (d.bpWrites n t b u w)); let r := d.bpResult n t w; let k := tileIx n t * 1024 + bpState w
    (∀ a, a < 0xC00 → e.tss n t a = if a = 64 * (u % 32) + b then r else d.tss n t a) ∧
    (∀ a, e.wss n t a = d.wss n t a) ∧
    ∀ j, e.tssNext j = (if j = k ∧ (bpOp w = 1 ∨ bpOp w = 3 ∨ bpOp w = 2 ∧ d.tss n t (bpSrc w 3) = true) then r else d.tssNext j) ∧
      SMap.get false e.st.cur j = if j = k ∧ bpOp w = 3 then r else SMap.get false d.st.cur j := by
  intro e r k
  let f := d.setSt (d.st.apply (.res n t (u % 32 * 64 + b) r))
  have hf (a : Nat) (ha : a < 0xC00) : f.tss n t a = if a = 64 * (u % 32) + b then r else d.tss n t a := by
    rw [Nat.mul_comm 64]
    exact d.tss_apply_res n t r (by omega) ha
  have hwrites {ws : List Wr} (h : d.bpWrites n t b u w = ws) : e = d.setSt (d.st.applyAll ws) := by rw [← h]
  by_cases hop : bpOp w = 1 ∨ bpOp w = 3 ∨ bpOp w = 2 ∧ d.tss n t (bpSrc w 3) = true
  · simp only [hop, and_true]
    by_cases h3 : bpOp w = 3
    · have he : e = f.setSt (f.st.setBoth k r) := by
        rw [hwrites (d.bpWrites_both n t b u hgo h3), ← f.st.apply_imm_state n t r (bpState_lt w)]
        rfl
      simp only [he, h3, and_true]
      exact ⟨fun a ha => (f.tss_setBoth n t k r ha).trans (hf a ha), fun _ => rfl, fun j => ⟨f.bothB k j r, SMap.get_set ..⟩⟩
    · have he : e = f.setSt (f.st.setNext k r) := by
        have hnext : bpOp w = 1 ∨ bpOp w = 2 ∧ d.tss n t (bpSrc w 3) = true := hop.imp_right (Or.resolve_left · h3)
        rw [hwrites (d.bpWrites_next n t b u hgo hnext), ← f.st.apply_bit_state n t r (bpState_lt w)]
        rfl
      simp only [he, h3, and_false, if_false]
      exact ⟨hf, fun _ => rfl, fun j => ⟨f.nextB k j r, rfl⟩⟩
  · have he : e = f := hwrites (d.bpWrites_window n t b u hgo hop)
    have h3 : bpOp w ≠ 3 := fun h => hop (.inr (.inl h))
    rw [he]
    exact ⟨hf, fun _ => rfl, fun j => ⟨(if_neg fun h => hop h.2).symm, (if_neg fun h => h3 h.2).symm⟩⟩

/-- Settles O22: the TT index lies below 16, so its bit is the word's own; a HOLD word has no write, and any other its two by STATE_OP. -/
theorem bpWordsComputeAndWrite : Obligations.BpWordsComputeAndWrite :=
  ⟨Dev.bpResult_eq, fun d n t b u _ => d.bpWrites_hold n t b u, fun d n t b u _ => d.applyAll_bpWrites n t b u⟩

/-! Writes in ascending rank (R38, R39, R65, R446): a place holds what the last write that reaches it brought. -/

theorem kept_map {α β : Type} (f : Wr → Option α) (g : α → β) (ws : List Wr) : kept (fun w => (f w).map g) ws = (kept f ws).map g := by
  rw [kept, kept, ← List.getLast?_map, List.map_filterMap]

theorem kept_none {α : Type} (ws : List Wr) : kept (fun _ => (none : Option α)) ws = none := by simp [kept]

/-- If each single write leaves at a place what it brings there, or else what was there, the writes of a step leave what the last one brings. -/
theorem read_applyAll {α : Type} (read : Dev → α) (brings : Wr → Option α) (ws : List Wr)
    (h : ∀ (d : Dev), ∀ w ∈ ws, read (d.setSt (d.st.apply w)) = (brings w).getD (read d)) (d : Dev) :
    read (d.setSt (d.st.applyAll ws)) = (kept brings ws).getD (read d) := by
  induction ws generalizing d with
  | nil => rfl
  | cons w ws ih =>
    calc read (d.setSt (d.st.applyAll (w :: ws)))
      _ = (kept brings ws).getD (read (d.setSt (d.st.apply w))) := ih (fun d w hw => h d w (List.mem_cons_of_mem _ hw)) (d.setSt (d.st.apply w))
      _ = (kept brings (w :: ws)).getD (read d) := by rw [h d w List.mem_cons_self, Dev.kept_cons, Dev.or_getD]

/-- Where a cluster runs its ports, its writes of a step stand by rank: BPs, WALUs, transactor read ports, far ports, design memories. -/
theorem Dev.runCluster_writes (d : Dev) (i u n : Nat) (h : d.portsRun i n u = true) :
    let bp := d.runBps i n u
    let wa := bp.1.runWalus i n u
    let tx := wa.1.runPorts [7, 6, 5, 4, 3, 2, 1, 0] (fun d x => d.txpRead n x u)
    let fa := tx.1.runPorts [3, 2, 1, 0] (fun d f => d.farUse n f u)
    (d.runCluster i u n).2 = bp.2 ++ wa.2 ++ tx.2 ++ fa.2 ++ (fa.1.takeReads i n).2 := by
  simp only [runCluster, h, if_true]

/-- Settles O23: each kind of copy is one reading of the stores, so the law of a single write passes to all the writes of a step. -/
theorem simultaneousWritersRank : Obligations.SimultaneousWritersRank := by
  refine ⟨fun d ws n t a ht hws => ⟨?word, ?stateWord, ?input, ?stateEntry⟩, fun d i u n => d.runCluster_writes i u n⟩
  case word =>
    intro ha
    rw [← kept_map]
    exact read_applyAll (·.wss n t a) _ ws (fun d w hw => (d.wss_apply w n t a ht (hws w hw) (by omega)).1 ha) d
  case stateWord =>
    intro hlo hhi
    have hone (d : Dev) (w : Wr) (hw : w ∈ ws) := (d.wss_apply w n t a ht (hws w hw) hhi).2 hlo
    constructor
    · have h := read_applyAll (·.wss n t a) (fun _ => none) ws (fun d w hw => (hone d w hw).1) d
      rwa [kept_none] at h
    · exact read_applyAll (·.wssNext (tileIx n t * 64 + (a - 0xC0))) _ ws (fun d w hw => (hone d w hw).2) d
  case input =>
    intro hlo hhi
    exact read_applyAll (·.tss n t a) _ ws (fun d w hw => (d.tss_apply w n t a ht (hws w hw)).1 hlo hhi) d
  case stateEntry =>
    intro hlo hhi
    have hone (d : Dev) (w : Wr) (hw : w ∈ ws) := (d.tss_apply w n t a ht (hws w hw)).2 hlo hhi
    constructor
    · exact read_applyAll (·.tssNext (tileIx n t * 1024 + (a - 0xC00))) _ ws (fun d w hw => (hone d w hw).1) d
    · exact read_applyAll (·.tss n t a) _ ws (fun d w hw => (hone d w hw).2) d

/-! Commands of the cluster pages, far ports and transactor ports (R53, R82, R124, R134 to R141, R288, R289). -/

theorem exec_bpiClrCounts (n : Fin 64) (s : State) :
    exec (.bpiClrCounts n) s = main s fun d => d.atCluster .pf n (pCLU n + 0x20C) true fun d => d.doBpiClr n := rfl
theorem exec_wliClrCounts (n : Fin 64) (s : State) :
    exec (.wliClrCounts n) s = main s fun d => d.atCluster .pf n (pCLU n + 0x21C) true fun d => d.doWliClr n := rfl
theorem exec_fabClrCount (n : Fin 64) (s : State) :
    exec (.fabClrCount n) s = main s fun d => d.atCluster .pf n (pCLU n + 0x228) true fun d => d.doFabClr n := rfl
theorem exec_dmemClrCounts (n : Fin 64) (s : State) :
    exec (.dmemClrCounts n) s = main s fun d => d.atCluster .pf n (pCLU n + 0x32C) true fun d => d.doDmemClr n := rfl
theorem exec_dmemCfgWrite (n : Fin 64) (off : Nat) (v : W32) (s : State) :
    exec (.dmemCfgWrite n off v) s = main s fun d => d.atCluster .pf n (pCLU n + off % 4096) true fun d => d.doDmemCfg n off v.toNat := rfl
theorem exec_fmpConfigWrite (n : Fin 64) (off : Nat) (v : W32) (s : State) :
    exec (.fmpConfigWrite n off v) s = main s fun d => d.atCluster .pf n (pCLU n + off % 4096) true fun d => d.doFmpCfg n off v.toNat := rfl
theorem exec_txpConfigWrite (n : Fin 64) (off : Nat) (v : W32) (s : State) :
    exec (.txpConfigWrite n off v) s = main s fun d => d.atCluster .pf n (pCLU n + off % 4096) true fun d => d.doTxpCfg n off v.toNat := rfl
theorem exec_farReadArrival (n : Fin 64) (f : Fin 4) (s : State) : exec (.farReadArrival n f) s = main s fun d => d.doFarRead n f := rfl
theorem exec_farWriteAck (n : Fin 64) (f : Fin 4) (s : State) : exec (.farWriteAck n f) s = main s fun d => d.doFarAck n f := rfl
theorem exec_txpCopyFill (n : Fin 64) (x : Fin 8) (s : State) : exec (.txpCopyFill n x) s = main s fun d => d.doCopyFill n x := rfl
theorem exec_txpCreditRenew (n : Fin 64) (x : Fin 8) (s : State) : exec (.txpCreditRenew n x) s = main s fun d => d.doCreditRenew n x := rfl

/-- An access of the PF to the page of a cluster that serves it acts, and settles. -/
theorem main_atCluster_serves (d : Dev) (q : List Instr) (n : Fin 64) {o : Nat} (k : Dev → Dev) (h : d.Serves n) (ho : o < 0x1000) :
    main ⟨d, q⟩ (fun d => d.atCluster .pf n (pCLU n + o) true k) = .next ⟨(k d).finish, q⟩ := by
  have hn := n.isLt
  rw [main_active d q _ h.1.1.1, d.atCluster_serves n _ true k h] <;> (unfold pCLU; omega)

namespace Dev

/-! A configuration write is stored where the cluster's configuration is open, at a register of its own kind. -/

theorem doDmemCfg_stored (d : Dev) {n off : Nat} (v : Nat) (h : d.cfgOpen n = true) (hal : off % 4 = 0)
    (hreg : (0x300 ≤ off ∧ off < 0x320) ∨ (0x400 ≤ off ∧ off < 0x800)) : d.doDmemCfg n off v = d.writeWord (pCLU n) off v fldsCLU :=
  if_pos (by simp [h, hal, hreg])

theorem doDmemCfg_closed (d : Dev) {n : Nat} (off v : Nat) (h : d.cfgOpen n = false) : d.doDmemCfg n off v = d := if_neg (by simp [h])

theorem doFmpCfg_stored (d : Dev) {n off : Nat} (v : Nat) (h : d.cfgOpen n = true) (hal : off % 4 = 0) (hlo : 0x240 ≤ off) (hhi : off < 0x280) :
    d.doFmpCfg n off v = d.writeWord (pCLU n) off v fldsCLU := if_pos (by simp [h, hal, hlo, hhi])

theorem doTxpCfg_stored (d : Dev) {n off : Nat} (v : Nat) (h : d.cfgOpen n = true) (hal : off % 4 = 0) (hlo : 0x280 ≤ off) (hhi : off < 0x300) :
    d.doTxpCfg n off v = (d.releasePort n ((off - 0x280) / 16)).writeWord (pCLU n) off v fldsCLU := if_pos (by simp [h, hal, hlo, hhi])

/-! A far access that is on its way is performed after every earlier one of its port; it ends where its response has a way back. -/

theorem farComplete_ends (d : Dev) {n f k : Nat} {a : FarAcc} (hat : ((d.farReserve n f).farOf n f)[k]? = some a)
    (hway : (a.tag.isNone && (decide ((d.farReserve n f).niState n ≠ 0) || (d.farReserve n f).hbmRouted n a.addr a.size)) = false)
    (hback : (a.tag.isNone || (d.farReserve n f).routed (hbmDest a.addr) n) = true) :
    d.farComplete n f k = ((d.farReserve n f).farPrefix n f (k + 1)).farEnd n f k := by
  simp only [farComplete, hat, hway, hback, Bool.false_eq_true, if_false, Dev.iff_true]

theorem farComplete_lost (d : Dev) {n f k : Nat} {a : FarAcc} (hat : ((d.farReserve n f).farOf n f)[k]? = some a)
    (htag : a.tag.isSome = true) (hback : (d.farReserve n f).routed (hbmDest a.addr) n = false) :
    d.farComplete n f k = (d.farReserve n f).farPrefix n f (k + 1) := by
  have hnone : a.tag.isNone = false := by simpa using htag
  simp only [farComplete, hat, hnone, hback, Bool.false_and, Bool.or_self, Bool.false_eq_true, if_false, Dev.iff_false]

theorem doFarRead_first (d : Dev) {n f k : Nat} (h : (d.farOf n f).findIdx? (fun a => !a.write && !a.done) = some k) :
    d.doFarRead n f = d.farComplete n f k := by
  rw [doFarRead, h]

theorem doFarAck_first (d : Dev) {n f k : Nat} (h : (d.farOf n f).findIdx? (fun a => a.write) = some k) : d.doFarAck n f = d.farComplete n f k := by
  rw [doFarAck, h]

/-! A copy slot is filled and a credit renewed up to four, while the queue has a word, or space, for it. -/

theorem doCopyFill_fills (d : Dev) {n x k : Nat} (hq : d.portQueue n x = some k) (hb : d.boundTo k = some (n, x)) (h4 : (d.queueAt k).copied < 4)
    (hw : (d.queueAt k).copied < (d.queueAt k).seen.length) :
    d.doCopyFill n x = d.setQueue k { d.queueAt k with copied := (d.queueAt k).copied + 1 } := by
  simp only [doCopyFill, hq]
  exact if_pos (by simp [hb, h4, hw])

theorem doCreditRenew_renews (d : Dev) {n x k : Nat} (hq : d.portQueue n x = some k) (hdir : d.b (pCLU n) (CLU_TXP_DIR x) = true)
    (hpriv : (d.queueAt k).priv = false) (h4 : d.creditsOf n x < 4) (hfree : 0 < (d.queueAt k).free) :
    d.doCreditRenew n x = (d.setQueue k { d.queueAt k with reserved := (d.queueAt k).reserved + 1 }).modClu n
      fun c => { c with credits := SMap.set 0 c.credits x (SMap.get 0 c.credits x + 1) } := by
  simp only [doCreditRenew, hq]
  exact if_pos (by simp [hdir, hpriv, h4, hfree])

end Dev

/-- Settles O31: a command of the page is served by a cluster that serves the PF, a far access by its port's place in issue order, and a
copy or credit by the queue of its port. -/
theorem clusterPageFarAndTransactorCommandsTakeEffect : Obligations.ClusterPageFarAndTransactorCommandsTakeEffect := by
  refine ⟨?bpi, ?wli, ?fab, ?dmem, ?events, ?blocks, ?far, ?txp, ?closed, ?arrival, ?lost, ?ack, ?copy, ?credit⟩
  case bpi => exact fun d q n hs => (exec_bpiClrCounts ..).trans (main_atCluster_serves d q n _ hs (by decide))
  case wli => exact fun d q n hs => (exec_wliClrCounts ..).trans (main_atCluster_serves d q n _ hs (by decide))
  case fab => exact fun d q n hs => (exec_fabClrCount ..).trans (main_atCluster_serves d q n _ hs (by decide))
  case dmem => exact fun d q n hs => (exec_dmemClrCounts ..).trans (main_atCluster_serves d q n _ hs (by decide))
  case events =>
    intro d q n off v hs ho hal hlo hhi
    rw [exec_dmemCfgWrite, main_atCluster_serves d q n _ hs (Nat.mod_lt _ (by decide)), d.doDmemCfg_stored _ ho hal (.inr ⟨hlo, hhi⟩)]
  case blocks =>
    intro d q n off v hs ho hal hlo hhi
    rw [exec_dmemCfgWrite, main_atCluster_serves d q n _ hs (Nat.mod_lt _ (by decide)), d.doDmemCfg_stored _ ho hal (.inl ⟨hlo, hhi⟩)]
  case far =>
    intro d q n off v hs ho hal hlo hhi
    rw [exec_fmpConfigWrite, main_atCluster_serves d q n _ hs (Nat.mod_lt _ (by decide)), d.doFmpCfg_stored _ ho hal hlo hhi]
  case txp =>
    intro d q n off v hs ho hal hlo hhi
    rw [exec_txpConfigWrite, main_atCluster_serves d q n _ hs (Nat.mod_lt _ (by decide)), d.doTxpCfg_stored _ ho hal hlo hhi]
  case closed =>
    intro d q n off v hs ho
    rw [exec_dmemCfgWrite, main_atCluster_serves d q n _ hs (Nat.mod_lt _ (by decide)), d.doDmemCfg_closed off _ ho]
  case arrival =>
    rintro d q n f k e a hact hfind rfl hat hway hback
    rw [exec_farReadArrival, main_active d q _ hact, d.doFarRead_first hfind, d.farComplete_ends hat hway hback]
  case lost =>
    rintro d q n f k e a hact hfind rfl hat htag hback
    rw [exec_farReadArrival, main_active d q _ hact, d.doFarRead_first hfind, d.farComplete_lost hat htag hback]
  case ack =>
    rintro d q n f k e a hact hfind rfl hat hway hback
    rw [exec_farWriteAck, main_active d q _ hact, d.doFarAck_first hfind, d.farComplete_ends hat hway hback]
  case copy =>
    intro d q n x k hact hq hb h4 hw
    rw [exec_txpCopyFill, main_active d q _ hact, d.doCopyFill_fills hq hb h4 hw]
  case credit =>
    intro d q n x k hact hq hdir hpriv h4 hfree
    rw [exec_txpCreditRenew, main_active d q _ hact, d.doCreditRenew_renews hq hdir hpriv h4 hfree]

end Sys2Proof.Machine

namespace Sys2Proof.Machine

/-! Two's complement at a width (R70, R71, R75): the sign bit is the upper half of the range, and a signed reading differs from the unsigned one by a
multiple of the modulus. -/

theorem testBit_sign {w x : Nat} (hw : 0 < w) (hx : x < 2 ^ w) : x.testBit (w - 1) = decide (2 ^ (w - 1) ≤ x) := by
  by_cases h : 2 ^ (w - 1) ≤ x
  · rw [decide_eq_true h]
    exact Nat.testBit_of_two_pow_le_and_two_pow_add_one_gt h (by rwa [Nat.sub_add_cancel hw])
  · rw [decide_eq_false h]
    exact Nat.testBit_lt_two_pow (Nat.not_le.1 h)

theorem toSigned_eq_toInt (w x : Nat) : toSigned w x = (BitVec.ofNat w x).toInt := by
  rw [toSigned, BitVec.toInt_eq_toNat_cond, BitVec.toNat_ofNat]

theorem toSigned_emod (w x : Nat) : toSigned w x % 2 ^ w = (x : Int) % 2 ^ w := by
  have hcast : (2 : Int) ^ w = (2 ^ w : Nat) := (Int.natCast_pow 2 w).symm
  rw [toSigned_eq_toInt, BitVec.toInt_eq_toNat_bmod, BitVec.toNat_ofNat, hcast, Int.bmod_emod, Int.natCast_emod, Int.emod_emod]

theorem toSigned_of_lt {w x : Nat} (hw : 0 < w) (hx : x < 2 ^ w) :
    toSigned w x = if 2 ^ (w - 1) ≤ x then (x : Int) - (2 ^ w : Nat) else x := by
  have hhalf := Nat.two_pow_pred_mul_two hw
  rw [toSigned, Nat.mod_eq_of_lt hx]
  split <;> split <;> omega

theorem notAt_of_lt {w y : Nat} (hy : y < 2 ^ w) : notAt w y = 2 ^ w - 1 - y := by rw [notAt, Nat.mod_eq_of_lt hy]

theorem notAt_lt (w y : Nat) : notAt w y < 2 ^ w := by
  have hpos := Nat.two_pow_pos w
  unfold notAt
  omega

theorem testBit_notAt {w i : Nat} (y : Nat) (hi : i < w) : (notAt w y).testBit i = !y.testBit i := by
  rw [notAt, Nat.sub_sub, Nat.add_comm 1, Nat.testBit_two_pow_sub_succ (Nat.mod_lt _ (Nat.two_pow_pos w)), Nat.testBit_mod_two_pow]
  simp [hi]

theorem toSigned_notAt {w y : Nat} (hw : 0 < w) (hy : y < 2 ^ w) : toSigned w (notAt w y) = -toSigned w y - 1 := by
  have hhalf := Nat.two_pow_pred_mul_two hw
  rw [toSigned_of_lt hw (notAt_lt w y), toSigned_of_lt hw hy, notAt_of_lt hy]
  split <;> split <;> omega

/-! Signed overflow (R70), at any width. -/

theorem mod_of_lt_two_mul {s m : Nat} (h : s < 2 * m) : s % m = if s < m then s else s - m := by
  split
  · exact Nat.mod_eq_of_lt ‹_›
  · rw [Nat.mod_eq_sub_mod (by omega), Nat.mod_eq_of_lt (by omega)]

/-- The sign of the wrapped sum is wrong just where the sum of the signed readings leaves the range. -/
theorem overflowAdd_iff {w x y : Nat} (ci : Bool) (hw : 0 < w) (hx : x < 2 ^ w) (hy : y < 2 ^ w) :
    overflowAdd w x y ((x + y + ci.toNat) % 2 ^ w) = true ↔
      ¬ (-(2 ^ (w - 1)) ≤ toSigned w x + toSigned w y + ci.toNat ∧ toSigned w x + toSigned w y + ci.toNat < (2 : Int) ^ (w - 1)) := by
  have hhalf := Nat.two_pow_pred_mul_two hw
  have hci := Bool.toNat_le ci
  have hcast : (2 : Int) ^ (w - 1) = (2 ^ (w - 1) : Nat) := (Int.natCast_pow 2 (w - 1)).symm
  rw [overflowAdd, testBit_sign hw hx, testBit_sign hw hy, testBit_sign hw (Nat.mod_lt _ (Nat.two_pow_pos w)), toSigned_of_lt hw hx,
    toSigned_of_lt hw hy, mod_of_lt_two_mul (by omega), hcast]
  generalize 2 ^ (w - 1) = h at *
  generalize 2 ^ w = m at *
  simp only [Bool.and_eq_true, beq_iff_eq, bne_iff_ne, ne_eq, decide_eq_decide]
  split <;> split <;> split <;> omega

/-- A subtraction overflows as the addition of the complement does. -/
theorem overflowSub_eq {w : Nat} (x y r : Nat) (hw : 0 < w) : overflowSub w x y r = overflowAdd w x (notAt w y) r := by
  rw [overflowSub, overflowAdd, testBit_notAt y (by omega)]
  cases x.testBit (w - 1) <;> cases y.testBit (w - 1) <;> rfl

theorem overflowSub_iff {w x y : Nat} (ci : Bool) (hw : 0 < w) (hx : x < 2 ^ w) (hy : y < 2 ^ w) :
    overflowSub w x y ((x + (2 ^ w - 1 - y) + ci.toNat) % 2 ^ w) = true ↔
      ¬ (-(2 ^ (w - 1)) ≤ toSigned w x - toSigned w y - 1 + ci.toNat ∧ toSigned w x - toSigned w y - 1 + ci.toNat < (2 : Int) ^ (w - 1)) := by
  have hsum : toSigned w x - toSigned w y - 1 = toSigned w x + toSigned w (notAt w y) := by
    rw [toSigned_notAt hw hy]
    omega
  rw [overflowSub_eq _ _ _ hw, ← notAt_of_lt hy, hsum]
  exact overflowAdd_iff ci hw hx (notAt_lt w y)

/-! The operations of a WALU (R68, R70, R71, R72). -/

section
variable (w x y z imm sh : Nat) (ci tb : Bool) (pk : Nat)

theorem waEval_addv : waEval 0x02 ⟨w, x, y, z, imm, sh, ci, tb, pk⟩ =
    ⟨some ((x + y + ci.toNat) % 2 ^ w), some (overflowAdd w x y ((x + y + ci.toNat) % 2 ^ w)), none⟩ := rfl
theorem waEval_subv : waEval 0x04 ⟨w, x, y, z, imm, sh, ci, tb, pk⟩ =
    ⟨some ((x + notAt w y + ci.toNat) % 2 ^ w), some (overflowSub w x y ((x + notAt w y + ci.toNat) % 2 ^ w)), none⟩ := rfl
theorem waEval_mull : waEval 0x08 ⟨w, x, y, z, imm, sh, ci, tb, pk⟩ = ⟨some (x * y % 2 ^ w), none, none⟩ := rfl
theorem waEval_mulhu : waEval 0x09 ⟨w, x, y, z, imm, sh, ci, tb, pk⟩ = ⟨some (x * y / 2 ^ w), none, none⟩ := rfl
theorem waEval_mulhs : waEval 0x0A ⟨w, x, y, z, imm, sh, ci, tb, pk⟩ = ⟨some (mulhs w x y), none, none⟩ := rfl
theorem waEval_sll : waEval 0x20 ⟨w, x, y, z, imm, sh, ci, tb, pk⟩ = ⟨some (x <<< sh % 2 ^ w), none, none⟩ := rfl
theorem waEval_srl : waEval 0x21 ⟨w, x, y, z, imm, sh, ci, tb, pk⟩ = ⟨some (x >>> sh), none, none⟩ := rfl
theorem waEval_sra : waEval 0x22 ⟨w, x, y, z, imm, sh, ci, tb, pk⟩ = ⟨some (sraAt w x sh), none, none⟩ := rfl
theorem waEval_ror : waEval 0x23 ⟨w, x, y, z, imm, sh, ci, tb, pk⟩ = ⟨some (rorAt w x sh), none, none⟩ := rfl
theorem waEval_sllv : waEval 0x24 ⟨w, x, y, z, imm, sh, ci, tb, pk⟩ = ⟨some (x <<< (y % w) % 2 ^ w), none, none⟩ := rfl
theorem waEval_srlv : waEval 0x25 ⟨w, x, y, z, imm, sh, ci, tb, pk⟩ = ⟨some (x >>> (y % w)), none, none⟩ := rfl
theorem waEval_srav : waEval 0x26 ⟨w, x, y, z, imm, sh, ci, tb, pk⟩ = ⟨some (sraAt w x (y % w)), none, none⟩ := rfl
theorem waEval_extv : waEval 0x33 ⟨w, x, y, z, imm, sh, ci, tb, pk⟩ =
    ⟨some (x.testBit (y % w)).toNat, some (x.testBit (y % w)), none⟩ := rfl

end

/-- What a value and its flag write (R66, R75): one word or the two words of a pair, and the flag's entry. -/
theorem waWrites_flagged (n t word v : Nat) (f : Bool) {w : Nat} (hw : w = 32 ∨ w = 64) :
    waWrites n t word (w == 64) ⟨some v, some f, none⟩ =
      (if w = 64 then [.word n t (waDst word / 2 * 2) (v % 2 ^ 32), .word n t (waDst word / 2 * 2 + 1) (v / 2 ^ 32)] else [.word n t (waDst word) v]) ++
        [.bit n t (waTbit word) f] := by
  obtain rfl | rfl := hw
  · rfl
  · simp [waWrites, Nat.shiftRight_eq_div_pow]

/-- Settles O12: an addition's V is wrong-sign detection at any width, and a subtraction is the addition of the complement. -/
theorem overflowFlagIsSignedOverflow : Obligations.OverflowFlagIsSignedOverflow := by
  refine ⟨fun w x y z imm sh pk n t word ci b hw hx hy => ?add, fun w x y z imm sh pk n t word ci b hw hx hy => ?sub⟩
  all_goals have hpos : 0 < w := by omega
  case add =>
    intro a r v
    have heval : waEval 2 a = ⟨some r, some v, none⟩ := waEval_addv ..
    exact ⟨heval, overflowAdd_iff ci hpos hx hy, heval ▸ waWrites_flagged n t word r v hw⟩
  case sub =>
    intro a r v
    have heval : waEval 4 a = ⟨some r, some v, none⟩ := by rw [waEval_subv, notAt_of_lt hy]; rfl
    exact ⟨heval, overflowSub_iff ci hpos hx hy, heval ▸ waWrites_flagged n t word r v hw⟩

/-- Settles O13: each signed reading is the operand modulo the modulus, so the low halves of the two products agree. -/
theorem mullIsTheSameForSignedOperands : Obligations.MullIsTheSameForSignedOperands := by
  refine ⟨fun x y z imm sh pk ci b _ _ => ⟨_, waEval_mull .., rfl, ?low⟩, fun z imm sh pk ci b => ⟨?mull, ?mulhu, ?mulhs⟩⟩
  case low =>
    rw [Int.mul_emod (toSigned 32 x), toSigned_emod, toSigned_emod, ← Int.mul_emod]
    rfl
  case mull =>
    have hlow : 0xFFFFFFFF * 2 % 2 ^ 32 = 0xFFFFFFFE := by decide
    rw [waEval_mull, hlow]
  case mulhu =>
    have hhigh : 0xFFFFFFFF * 2 / 2 ^ 32 = 1 := by decide
    rw [waEval_mulhu, hhigh]
  case mulhs =>
    have hsigned : mulhs 32 0xFFFFFFFF 2 = 0xFFFFFFFF := by decide
    rw [waEval_mulhs, hsigned]

theorem sraAt_zero (w x : Nat) : sraAt w x 0 = x := by simp [sraAt]

theorem rorAt_zero {w x : Nat} (hx : x < 2 ^ w) : rorAt w x 0 = x := by
  rw [rorAt, Nat.shiftRight_zero, Nat.sub_zero, Nat.or_mod_two_pow, Nat.shiftLeft_eq, Nat.mul_mod_left, Nat.or_zero, Nat.mod_eq_of_lt hx]

/-- Settles O14: an amount of 0 moves no bit, and a variable amount is reduced modulo the width before its use. -/
theorem shiftAmountsWrapAt32 : Obligations.ShiftAmountsWrapAt32 := by
  refine ⟨?immediate, ?amount, ?wrap⟩
  case immediate =>
    rintro op x y z imm pk ci b (rfl | rfl | rfl | rfl) hx
    · rw [waEval_sll, Nat.shiftLeft_zero, Nat.mod_eq_of_lt hx]
    · rw [waEval_srl, Nat.shiftRight_zero]
    · rw [waEval_sra, sraAt_zero]
    · rw [waEval_ror, rorAt_zero hx]
  case amount =>
    rintro op x y z imm sh pk ci b (rfl | rfl | rfl) hx hy
    · rw [waEval_sllv, hy, Nat.shiftLeft_zero, Nat.mod_eq_of_lt hx]
    · rw [waEval_srlv, hy, Nat.shiftRight_zero]
    · rw [waEval_srav, hy, sraAt_zero]
  case wrap =>
    rintro op x y z imm sh pk ci b (rfl | rfl | rfl | rfl)
    · simp only [waEval_sllv, Nat.mod_mod]
    · simp only [waEval_srlv, Nat.mod_mod]
    · simp only [waEval_srav, Nat.mod_mod]
    · simp only [waEval_extv, Nat.mod_mod]

/-! Runs of words (R61, R447): word i of a run stands in bits 32 i to 32 i + 31. -/

/-- A word put above `lo` bits leaves the fields below it. -/
theorem bitsAt_or_below (u v : Nat) {i w lo : Nat} (h : i + w ≤ lo) : bitsAt (u ||| v <<< lo) i w = bitsAt u i w := by
  apply Nat.eq_of_testBit_eq
  intro j
  simp only [bitsAt, Nat.testBit_mod_two_pow, Nat.testBit_shiftRight, Nat.testBit_or, Nat.testBit_shiftLeft]
  by_cases hj : j < w
  · simp [show ¬ lo ≤ i + j by omega]
  · simp [hj]

/-- A word put above all the bits there are is read back at its place. -/
theorem bitsAt_or_top {u v w lo : Nat} (hu : u < 2 ^ lo) (hv : v < 2 ^ w) : bitsAt (u ||| v <<< lo) lo w = v := by
  rw [bitsAt, Nat.shiftRight_or_distrib, Nat.shiftRight_eq_zero _ _ hu, Nat.zero_or, Nat.shiftLeft_shiftRight, Nat.mod_eq_of_lt hv]

namespace Dev

theorem wss_mod (d : Dev) (n t a : Nat) : d.wss n t (a % 256) = d.wss n t a := by simp only [wss, Nat.mod_mod]

theorem rdW_lt (m : SMap W32) (gen k : Nat) : rdW m gen k < 2 ^ 32 := by
  rw [rdW]
  cases SMap.get? m k with
  | some v => exact v.isLt
  | none =>
    by_cases h : gen = 0
    · simp [h]
    · simpa [h] using (Config.freeWord gen k).isLt

theorem wss_lt (d : Dev) (n t a : Nat) : d.wss n t a < 2 ^ 32 := by
  rw [← wss_mod, wss_eq _ _ _ _ (Nat.mod_lt _ (by decide))]
  split
  · exact rdW_lt ..
  · split
    · exact rdW_lt ..
    · exact BitVec.isLt _

theorem wssRun_succ (d : Dev) (n t a k : Nat) : d.wssRun n t a (k + 1) = d.wssRun n t a k ||| d.wss n t (a + k) <<< (32 * k) := by
  simp [wssRun, List.range_succ]

theorem wssRun_lt (d : Dev) (n t a k : Nat) : d.wssRun n t a k < 2 ^ (32 * k) := by
  induction k with
  | zero => exact Nat.one_pos
  | succ k ih =>
    have hword : d.wss n t (a + k) <<< (32 * k) < 2 ^ (32 + 32 * k) := by
      rw [Nat.shiftLeft_eq, Nat.pow_add]
      exact Nat.mul_lt_mul_of_pos_right (d.wss_lt n t (a + k)) (Nat.two_pow_pos _)
    rw [wssRun_succ, Nat.mul_succ, Nat.add_comm (32 * k)]
    exact Nat.or_lt_two_pow (Nat.lt_of_lt_of_le ih (Nat.pow_le_pow_right (by decide) (by omega))) hword

theorem bitsAt_wssRun (d : Dev) (n t a : Nat) {k i : Nat} (hi : i < k) : bitsAt (d.wssRun n t a k) (32 * i) 32 = d.wss n t (a + i) := by
  induction k with
  | zero => exact absurd hi (Nat.not_lt_zero i)
  | succ k ih =>
    rw [wssRun_succ]
    obtain hlt | rfl := Nat.lt_succ_iff_lt_or_eq.1 hi
    · rw [bitsAt_or_below _ _ (by omega), ih hlt]
    · exact bitsAt_or_top (d.wssRun_lt n t a i) (d.wss_lt n t (a + i))

end Dev

theorem Stores.apply_word_mod (s : Stores) (n t a v : Nat) : s.apply (.word n t (a % 256) v) = s.apply (.word n t a v) := by
  simp only [Stores.apply, Nat.mod_mod]

/-- Settles O15: a read and a write of one word reduce its address, and a run is read and written word by word. -/
theorem wordRunsWrapModulo256 : Obligations.WordRunsWrapModulo256 := by
  refine ⟨fun d n t a i => (d.wss_mod n t (a + i)).symm, fun d n t a k i hi => ?read, fun s n t a k v => ?written⟩
  case read => rw [d.bitsAt_wssRun n t a hi, d.wss_mod]
  case written => simp only [Stores.applyAll, wordWrites, List.foldl_map, Stores.apply_word_mod]

end Sys2Proof.Machine

namespace Sys2Proof.Machine

/-! The checks of the sequencer's commands (R96, R104, R105, R108, R152, R175). -/

namespace Dev

/-- A partition of one device has no links to check. -/
theorem linkChecks_unlinked {d : Dev} {i : Nat} (h : d.linked i = false) : d.linkChecks i = 0 := by simp [linkChecks, h]

theorem checksOf_start {d : Dev} {i : Nat} (count : Nat) (h : d.linked i = false) :
    d.checksOf i 1 count = if d.seqState i ≠ 0 then 1 else if d.b (pPTN i) PTN_SEQ_STATUS_LOADED = false then 2 else d.tableChecks i := by
  by_cases ht : d.tableChecks i = 0 <;> simp [checksOf, linkChecks_unlinked h, ht]

theorem checksOf_run {d : Dev} {i cmd : Nat} (count : Nat) (h : d.linked i = false) (hc : cmd ∈ [2, 5, 6]) :
    d.checksOf i cmd count = if d.snapBusy i = true then 10 else if ¬ (d.seqState i = 3 ∨ d.seqState i = 2 ∧ cmd ≠ 6) then 1
      else if cmd ≠ 2 ∧ count = 0 then 6 else if d.seqState i = 2 then d.tableChecks i else 0 := by
  have hlink := linkChecks_unlinked h
  simp only [List.mem_cons, List.not_mem_nil, or_false] at hc
  obtain rfl | rfl | rfl := hc
  · by_cases ht : d.tableChecks i = 0 <;> simp [checksOf, hlink, ht]
  · by_cases ht : d.tableChecks i = 0 <;> simp [checksOf, hlink, ht]
  · by_cases ht : d.tableChecks i = 0 <;> simp [checksOf, ht]

theorem checksOf_stop (d : Dev) (i count : Nat) : d.checksOf i 7 count = if d.snapBusy i = true then 10 else if d.seqState i = 0 then 1 else 0 := by
  simp [checksOf]

theorem checksOf_freeze (d : Dev) (i count : Nat) : d.checksOf i 3 count = if d.seqState i = 0 then 1 else 0 := by simp [checksOf]

theorem checksOf_hardFreeze (d : Dev) (i count : Nat) : d.checksOf i 4 count = if d.seqState i = 1 then 0 else 1 := by simp [checksOf]

/-- Codes 0 and 8 to 15 of SEQ_CMD name no command (R104). -/
theorem checksOf_undefined (d : Dev) (i count : Nat) {cmd : Nat} (h : cmd = 0 ∨ 8 ≤ cmd) : d.checksOf i cmd count = 7 := by
  unfold checksOf
  dsimp only
  split <;> omega

/-! The code of a refusal: the checks' own where the partition is not linked, or the command is none that a lead sends. -/

theorem refusal_unlinked {d : Dev} {i : Nat} (cmd : Nat) (h : d.linked i = false) :
    d.refusal i cmd = d.checksOf i cmd (d.g (pPTN i) PTN_STEP_COUNT_COUNT) := by
  simp [refusal, notLead, h]

theorem refusal_unsent (d : Dev) (i : Nat) {cmd : Nat} (h : cmd ∉ [1, 2, 5, 6, 7]) :
    d.refusal i cmd = d.checksOf i cmd (d.g (pPTN i) PTN_STEP_COUNT_COUNT) := by
  simp only [List.mem_cons, List.not_mem_nil, or_false, not_or] at h
  simp [refusal, h]

theorem refusal_notLead {d : Dev} {i cmd : Nat} (h : d.notLead i = true) (hc : cmd ∈ [1, 2, 5, 6, 7]) : d.refusal i cmd = 13 := by
  simp only [List.mem_cons, List.not_mem_nil, or_false] at hc
  exact if_pos (by simpa [h, or_assoc] using hc)

/-- START on the lead: the first code that fails here or on another device (R175). -/
theorem refusal_start_lead {d : Dev} {i : Nat} (hl : d.linked i = true) (h : d.notLead i = false) :
    d.refusal i 1 = d.startCode (d.checksOf i 1 (d.g (pPTN i) PTN_STEP_COUNT_COUNT)) := by
  simp [refusal, h, hl]

/-- With no failing check of its own, the lead refuses START with what it learns of the others' checks, if that is a code of one. -/
theorem startCode_zero (d : Dev) :
    d.startCode 0 = if Config.farChecks d.fresh ∈ [1, 2, 3, 4, 5, 11, 12, 9] then Config.farChecks d.fresh else 0 := by
  generalize hf : Config.farChecks d.fresh = c
  unfold startCode
  rw [hf]
  by_cases h : c ∈ [1, 2, 3, 4, 5, 11, 12, 9]
  · rw [if_pos h]
    simp only [List.mem_cons, List.not_mem_nil, or_false] at h
    obtain rfl | rfl | rfl | rfl | rfl | rfl | rfl | rfl := h <;> rfl
  · rw [if_neg h, List.find?_eq_none.2]
    · rfl
    · rintro x hx hc
      have hx0 : x ≠ 0 := by rintro rfl; revert hx; decide
      have : c = x := by simpa [hx0.symm] using hc
      exact h (this ▸ hx)

end Dev

/-- Settles O20: the checks of a command stand in their order, and NOT_LEAD before them all. -/
theorem firstFailingCheckOfACommand : Obligations.FirstFailingCheckOfACommand := by
  refine ⟨fun d i cmd hl => ⟨?start, fun hc => ?run, ?stop⟩, fun d i => ?freezes, fun d i cmd hl hlead hc => ?notLead⟩
  case start => rw [Dev.refusal_unlinked _ hl, Dev.checksOf_start _ hl]
  case run => rw [Dev.refusal_unlinked _ hl, Dev.checksOf_run _ hl hc]
  case stop => rw [Dev.refusal_unlinked _ hl, Dev.checksOf_stop]
  case freezes =>
    rw [Dev.refusal_unsent d i (cmd := 3) (by decide), Dev.refusal_unsent d i (cmd := 4) (by decide), Dev.checksOf_freeze, Dev.checksOf_hardFreeze]
    by_cases h0 : d.seqState i = 0 <;> by_cases h1 : d.seqState i = 1 <;> simp [h0, h1]
  case notLead => exact Dev.refusal_notLead (by simp [Dev.notLead, hl, hlead]) hc

/-! What a write of SEQ_CMD does, refused and taken (R96, R98, R104, R105). -/

namespace Dev

/-! CMD_ERR is a field of its own: what the sequencer's commands read stands in others. -/

theorem g_p_cmdErr (d : Dev) (i v : Nat) {f : Fld} (h : f.bit ≠ PTN_SEQ_STATUS_CMD_ERR.bit) :
    (d.p (pPTN i) PTN_SEQ_STATUS_CMD_ERR v).g (pPTN i) f = d.g (pPTN i) f :=
  g_p_same d _ _ _ _ h

@[simp] theorem linked_p_cmdErr (d : Dev) (i v : Nat) : (d.p (pPTN i) PTN_SEQ_STATUS_CMD_ERR v).linked i = d.linked i := by
  rw [linked, b, g_p_cmdErr d i v (by decide), linked, b]

@[simp] theorem seqState_p_cmdErr (d : Dev) (i v : Nat) : (d.p (pPTN i) PTN_SEQ_STATUS_CMD_ERR v).seqState i = d.seqState i :=
  g_p_cmdErr d i v (by decide)

@[simp] theorem stepCount_p_cmdErr (d : Dev) (i v : Nat) :
    (d.p (pPTN i) PTN_SEQ_STATUS_CMD_ERR v).g (pPTN i) PTN_STEP_COUNT_COUNT = d.g (pPTN i) PTN_STEP_COUNT_COUNT :=
  g_p_cmdErr d i v (by decide)

@[simp] theorem settling_p (d : Dev) (base : Nat) (f : Fld) (v i : Nat) : (d.p base f v).settling i = d.settling i := rfl

/-- A refused command shows its code, and START on the lead has asked the other devices first (R105, R175). -/
theorem seqCommand_refused {d : Dev} {i cmd : Nat} (h : d.refusal i cmd ≠ 0) :
    d.seqCommand i cmd = ((d.iff (cmd == 1 && d.linked i) tick).p (pPTN i) PTN_SEQ_STATUS_CMD_ERR (d.refusal i cmd)).irq (pPTN i) 2 := by
  simp [seqCommand, cmdErr, h]

theorem seqCommand_issued {d : Dev} {i cmd : Nat} (h : d.refusal i cmd = 0) (h3 : cmd ≠ 3) (h4 : cmd ≠ 4) :
    d.seqCommand i cmd = ((d.iff (cmd == 1 && d.linked i) tick).p (pPTN i) PTN_SEQ_STATUS_CMD_ERR 0).issueCommand i cmd := by
  simp [seqCommand, cmdErr, h]

theorem seqCommand_freeze {d : Dev} {i : Nat} (h : d.refusal i 3 = 0) :
    d.seqCommand i 3 = (d.p (pPTN i) PTN_SEQ_STATUS_CMD_ERR 0).freezeReq i 1 := by
  simp [seqCommand, cmdErr, h]

theorem seqCommand_hardFreeze {d : Dev} {i : Nat} (h : d.refusal i 4 = 0) :
    d.seqCommand i 4 = (d.p (pPTN i) PTN_SEQ_STATUS_CMD_ERR 0).hardReq i := by
  simp [seqCommand, cmdErr, h]

theorem issueCommand_unlinked {d : Dev} {i : Nat} (cmd : Nat) (h : d.linked i = false) :
    d.issueCommand i cmd = d.commandNow i cmd (d.g (pPTN i) PTN_STEP_COUNT_COUNT) := by
  simp [issueCommand, h]

/-- A command waits on the lead and goes out over the partition's links (R175, R242). -/
def sendCommand (d : Dev) (i cmd count : Nat) : Dev :=
  (d.modPtn i fun x => { x with linkCmd := x.linkCmd ++ [(cmd, count)] }).controlPtn i 6 (cmdBody i cmd count 0)

theorem issueCommand_linked {d : Dev} {i : Nat} (cmd : Nat) (h : d.linked i = true) :
    d.issueCommand i cmd = d.sendCommand i cmd (d.g (pPTN i) PTN_STEP_COUNT_COUNT) := by
  simp [issueCommand, sendCommand, h]

/-- A command that an unlinked partition takes acts at once, with STEP_COUNT as it stands (R96). -/
theorem seqCommand_now {d : Dev} {i cmd : Nat} (hl : d.linked i = false) (h : d.refusal i cmd = 0) (h3 : cmd ≠ 3) (h4 : cmd ≠ 4) :
    d.seqCommand i cmd = (d.p (pPTN i) PTN_SEQ_STATUS_CMD_ERR 0).commandNow i cmd (d.g (pPTN i) PTN_STEP_COUNT_COUNT) := by
  rw [seqCommand_issued h h3 h4, hl, Bool.and_false, Dev.iff_false, issueCommand_unlinked _ (by rw [linked_p_cmdErr, hl]),
    stepCount_p_cmdErr]

theorem seqCommand_sent {d : Dev} {i cmd : Nat} (hl : d.linked i = true) (h : d.refusal i cmd = 0) (h1 : cmd ≠ 1) (h3 : cmd ≠ 3)
    (h4 : cmd ≠ 4) :
    d.seqCommand i cmd = (d.p (pPTN i) PTN_SEQ_STATUS_CMD_ERR 0).sendCommand i cmd (d.g (pPTN i) PTN_STEP_COUNT_COUNT) := by
  rw [seqCommand_issued h h3 h4, beq_false_of_ne h1, Bool.false_and, Dev.iff_false, issueCommand_linked _ (by rw [linked_p_cmdErr, hl]),
    stepCount_p_cmdErr]

/-- START on the lead, whose own checks pass: it is refused with a code of another device's, or goes out (R175). -/
theorem seqCommand_start_lead {d : Dev} {i : Nat} (hl : d.linked i = true) (hlead : d.notLead i = false)
    (h : d.checksOf i 1 (d.g (pPTN i) PTN_STEP_COUNT_COUNT) = 0) :
    d.seqCommand i 1 = if Config.farChecks d.fresh ∈ [1, 2, 3, 4, 5, 11, 12, 9] then
        (d.tick.p (pPTN i) PTN_SEQ_STATUS_CMD_ERR (Config.farChecks d.fresh)).irq (pPTN i) 2
      else (d.tick.p (pPTN i) PTN_SEQ_STATUS_CMD_ERR 0).sendCommand i 1 (d.g (pPTN i) PTN_STEP_COUNT_COUNT) := by
  have hcode : d.refusal i 1 = if Config.farChecks d.fresh ∈ [1, 2, 3, 4, 5, 11, 12, 9] then Config.farChecks d.fresh else 0 := by
    rw [refusal_start_lead hl hlead, h, startCode_zero]
  have htick : d.iff ((1 : Nat) == 1 && d.linked i) tick = d.tick := by rw [hl]; rfl
  split
  case isTrue hfar =>
    rw [if_pos hfar] at hcode
    have hne : d.refusal i 1 ≠ 0 := by
      rw [hcode]
      intro h0
      rw [h0] at hfar
      exact absurd hfar (by decide)
    rw [seqCommand_refused hne, hcode, htick]
  case isFalse hfar =>
    rw [if_neg hfar] at hcode
    have hsame : d.tick.linked i = true := hl
    rw [seqCommand_issued hcode (by decide) (by decide), htick, issueCommand_linked _ (by rw [linked_p_cmdErr, hsame]), stepCount_p_cmdErr]
    rfl

/-! A freeze and a hard freeze of an unlinked partition (R96, R97, R98). -/

theorem freezeReq_unlinked {d : Dev} {i : Nat} (cause : Nat) (hl : d.linked i = false)
    (h : d.seqState i = 1 ∧ d.settling i = false ∨ d.seqState i = 3) :
    d.freezeReq i cause = (d.modPtn i fun x => { x with pend := x.pend ++ [cause] }).on (pPTN i) PTN_SEQ_STATUS_FREEZE_PENDING := by
  obtain ⟨h1, hset⟩ | h3 := h
  · have hnone : (d.ptnAt i).settle = none := by simpa [settling] using hset
    simp [freezeReq, h1, hl, hnone, modPtn_def]
  · simp [freezeReq, h3, modPtn_def]

theorem hardReq_stops {d : Dev} {i : Nat} (h : d.settling i = true ∨ d.linked i = false ∧ (d.ptnAt i).due = .none) :
    d.hardReq i = d.enterHard i 9 := by
  obtain hset | ⟨hl, hdue⟩ := h
  · simp [hardReq, hset]
  · simp [hardReq, hl, hdue]

end Dev

/-- A command of partition `p`'s page acts where the partition takes it, and settles (R194, R387). -/
theorem main_atPtn_takes {d : Dev} {i : Nat} (q : List Instr) (k : Dev → Dev) (h : d.Takes i) :
    main ⟨d, q⟩ (fun d => d.atPtn i k) = .next ⟨(k d).finish, q⟩ := by
  obtain ⟨⟨hact, hfull⟩, hfree⟩ := h
  rw [main_active d q _ hact, Dev.atPtn, hfull, hfree]
  rfl

/-! The commands of SEQ_CMD are writes of their codes (R104). -/

section
variable (p : Fin 16) (s : State)

theorem exec_start : exec (.start p) s = main s fun d => d.atPtn p fun d => d.seqCommand p 1 := rfl
theorem exec_resume : exec (.resume p) s = main s fun d => d.atPtn p fun d => d.seqCommand p 2 := rfl
theorem exec_freeze : exec (.freeze p) s = main s fun d => d.atPtn p fun d => d.seqCommand p 3 := rfl
theorem exec_hardFreeze : exec (.hardFreeze p) s = main s fun d => d.atPtn p fun d => d.seqCommand p 4 := rfl
theorem exec_stepCycles : exec (.stepCycles p) s = main s fun d => d.atPtn p fun d => d.seqCommand p 5 := rfl
theorem exec_stepSteps : exec (.stepSteps p) s = main s fun d => d.atPtn p fun d => d.seqCommand p 6 := rfl
theorem exec_stop : exec (.stop p) s = main s fun d => d.atPtn p fun d => d.seqCommand p 7 := rfl
theorem exec_seqCmdInvalid (code : Fin 16) : exec (.seqCmdInvalid p code) s = main s fun d => d.atPtn p fun d => d.seqCommand p code := rfl

end

/-- A refused command settles with its code alone. -/
theorem main_seqCommand_refused {d : Dev} {i cmd : Nat} (q : List Instr) (hd : d.Takes i) (h : d.refusal i cmd ≠ 0) :
    main ⟨d, q⟩ (fun d => d.atPtn i fun d => d.seqCommand i cmd) =
      .next ⟨(((d.iff (cmd == 1 && d.linked i) Dev.tick).p (pPTN i) PTN_SEQ_STATUS_CMD_ERR (d.refusal i cmd)).irq (pPTN i) 2).finish, q⟩ := by
  rw [main_atPtn_takes q _ hd, Dev.seqCommand_refused h]

/-- Settles O19: a command with a failing check shows its code and does nothing more; a code that names no command fails with 7. -/
theorem refusedSequencerCommandsSetCmdErr : Obligations.RefusedSequencerCommandsSetCmdErr := by
  refine ⟨?start, ?resume, ?stepCycles, ?stepSteps, ?stop, ?freeze, ?hardFreeze, ?undefined⟩
  case start => exact fun d q p hd h => (exec_start ..).trans (main_seqCommand_refused q hd h)
  case resume => exact fun d q p hd h => (exec_resume ..).trans (main_seqCommand_refused q hd h)
  case stepCycles => exact fun d q p hd h => (exec_stepCycles ..).trans (main_seqCommand_refused q hd h)
  case stepSteps => exact fun d q p hd h => (exec_stepSteps ..).trans (main_seqCommand_refused q hd h)
  case stop => exact fun d q p hd h => (exec_stop ..).trans (main_seqCommand_refused q hd h)
  case freeze => exact fun d q p hd h => (exec_freeze ..).trans (main_seqCommand_refused q hd h)
  case hardFreeze => exact fun d q p hd h => (exec_hardFreeze ..).trans (main_seqCommand_refused q hd h)
  case undefined =>
    intro d q p code hd h
    have hcode : d.refusal p code = 7 := by
      rw [Dev.refusal_unsent d p (by simp; omega), Dev.checksOf_undefined d p _ h]
    have hone : ((code : Nat) == 1) = false := beq_false_of_ne (by omega)
    rw [exec_seqCmdInvalid, main_seqCommand_refused q hd (by rw [hcode]; decide), hcode, hone]
    rfl

/-! A command that passes its checks (R96, R98, R175). -/

namespace Dev

theorem refusal_run_zero {d : Dev} {i cmd : Nat} (hl : d.linked i = false) (hsnap : d.snapBusy i = false) (hc : cmd ∈ [2, 5, 6])
    (hst : d.seqState i = 3 ∨ cmd ≠ 6 ∧ d.seqState i = 2 ∧ d.tableChecks i = 0)
    (hcount : cmd ≠ 2 → d.g (pPTN i) PTN_STEP_COUNT_COUNT ≠ 0) :
    d.refusal i cmd = 0 := by
  have htakes : d.seqState i = 3 ∨ d.seqState i = 2 ∧ cmd ≠ 6 := hst.imp_right fun ⟨h6, h2, _⟩ => ⟨h2, h6⟩
  rw [refusal_unlinked _ hl, checksOf_run _ hl hc, hsnap, if_neg Bool.false_ne_true, if_neg (not_not_intro htakes), if_neg fun h => hcount h.1 h.2]
  split
  · omega
  · rfl

end Dev

theorem main_seqCommand_now {d : Dev} {i cmd : Nat} (q : List Instr) (hd : d.Takes i) (hl : d.linked i = false) (h : d.refusal i cmd = 0)
    (h3 : cmd ≠ 3) (h4 : cmd ≠ 4) :
    main ⟨d, q⟩ (fun d => d.atPtn i fun d => d.seqCommand i cmd) =
      .next ⟨((d.p (pPTN i) PTN_SEQ_STATUS_CMD_ERR 0).commandNow i cmd (d.g (pPTN i) PTN_STEP_COUNT_COUNT)).finish, q⟩ := by
  rw [main_atPtn_takes q _ hd, Dev.seqCommand_now hl h h3 h4]

theorem main_seqCommand_sent {d : Dev} {i cmd : Nat} (q : List Instr) (hd : d.Takes i) (hl : d.linked i = true) (h : d.refusal i cmd = 0)
    (h1 : cmd ≠ 1) (h3 : cmd ≠ 3) (h4 : cmd ≠ 4) :
    main ⟨d, q⟩ (fun d => d.atPtn i fun d => d.seqCommand i cmd) =
      .next ⟨((d.p (pPTN i) PTN_SEQ_STATUS_CMD_ERR 0).sendCommand i cmd (d.g (pPTN i) PTN_STEP_COUNT_COUNT)).finish, q⟩ := by
  rw [main_atPtn_takes q _ hd, Dev.seqCommand_sent hl h h1 h3 h4]

theorem main_hardFreeze_stops {d : Dev} {i : Nat} (q : List Instr) (hd : d.Takes i) (hst : d.seqState i = 1)
    (h : d.settling i = true ∨ d.linked i = false ∧ (d.ptnAt i).due = .none) :
    main ⟨d, q⟩ (fun d => d.atPtn i fun d => d.seqCommand i 4) =
      .next ⟨((d.p (pPTN i) PTN_SEQ_STATUS_CMD_ERR 0).enterHard i 9).finish, q⟩ := by
  have hcode : d.refusal i 4 = 0 := by rw [Dev.refusal_unsent d i (by decide), Dev.checksOf_hardFreeze, if_pos hst]
  rw [main_atPtn_takes q _ hd, Dev.seqCommand_hardFreeze hcode, Dev.hardReq_stops (by simpa using h)]

/-- Settles O18: a command that no check refuses acts at once in an unlinked partition, and goes out from the lead of a linked one. -/
theorem sequencerCommandsTakeEffect : Obligations.SequencerCommandsTakeEffect := by
  refine ⟨?start, ?resume, ?stepCycles, ?stepSteps, ?stop, ?freeze, ?hardFreeze, ?hardFreezeSettling,
    ?linkedStart, ?linkedResume, ?linkedStepCycles, ?linkedStepSteps, ?linkedStop⟩
  case start =>
    intro d q p hd hl hst hload htab
    have h : d.refusal p 1 = 0 := by rw [Dev.refusal_unlinked _ hl, Dev.checksOf_start _ hl]; simp [hst, hload, htab]
    rw [exec_start, main_seqCommand_now q hd hl h (by decide) (by decide)]
    rfl
  case resume =>
    intro d q p hd hl hsnap hst
    have h := Dev.refusal_run_zero (cmd := 2) hl hsnap (by decide) (hst.imp_right fun h => ⟨by decide, h⟩) (absurd rfl)
    rw [exec_resume, main_seqCommand_now q hd hl h (by decide) (by decide)]
    rfl
  case stepCycles =>
    intro d q p hd hl hsnap hst hcount
    have h := Dev.refusal_run_zero (cmd := 5) hl hsnap (by decide) (hst.imp_right fun h => ⟨by decide, h⟩) (fun _ => hcount)
    rw [exec_stepCycles, main_seqCommand_now q hd hl h (by decide) (by decide)]
    rfl
  case stepSteps =>
    intro d q p hd hl hsnap hst hcount
    have h := Dev.refusal_run_zero (cmd := 6) hl hsnap (by decide) (.inl hst) (fun _ => hcount)
    rw [exec_stepSteps, main_seqCommand_now q hd hl h (by decide) (by decide)]
    rfl
  case stop =>
    intro d q p hd hl hst hsnap
    have h : d.refusal p 7 = 0 := by rw [Dev.refusal_unlinked _ hl, Dev.checksOf_stop]; simp [hsnap, hst]
    rw [exec_stop, main_seqCommand_now q hd hl h (by decide) (by decide)]
    rfl
  case freeze =>
    intro d q p hd hl hst
    have h : d.refusal p 3 = 0 := by rw [Dev.refusal_unlinked _ hl, Dev.checksOf_freeze, if_neg]; omega
    rw [exec_freeze, main_atPtn_takes q _ hd, Dev.seqCommand_freeze h, Dev.freezeReq_unlinked _ (by simpa using hl) (by simpa using hst)]
  case hardFreeze =>
    intro d q p hd hl hst _ hdue
    exact (exec_hardFreeze ..).trans (main_hardFreeze_stops q hd hst (.inr ⟨hl, hdue⟩))
  case hardFreezeSettling =>
    intro d q p hd _ hst hset
    exact (exec_hardFreeze ..).trans (main_hardFreeze_stops q hd hst (.inl hset))
  case linkedStart =>
    intro d q p hd hl hlead h
    rw [exec_start, main_atPtn_takes q _ hd, Dev.seqCommand_start_lead hl hlead h]
    rfl
  case linkedResume => exact fun d q p hd hl h => (exec_resume ..).trans (main_seqCommand_sent q hd hl h (by decide) (by decide) (by decide))
  case linkedStepCycles => exact fun d q p hd hl h => (exec_stepCycles ..).trans (main_seqCommand_sent q hd hl h (by decide) (by decide) (by decide))
  case linkedStepSteps => exact fun d q p hd hl h => (exec_stepSteps ..).trans (main_seqCommand_sent q hd hl h (by decide) (by decide) (by decide))
  case linkedStop => exact fun d q p hd hl h => (exec_stop ..).trans (main_seqCommand_sent q hd hl h (by decide) (by decide) (by decide))

/-! Counts, limits and cascades at a boundary, stalls, and freezes that wait (R93, R96, R99, R100). -/

section
variable (p : Fin 16) (s : State)

theorem exec_executeStep : exec (.executeStep p) s = main s fun d => d.doExecuteStep p := rfl
theorem exec_cascadeLimit : exec (.cascadeLimit p) s = main s fun d => d.doDue p .cascade := rfl
theorem exec_runLimitReached : exec (.runLimitReached p) s = main s fun d => d.doDue p .runLimit := rfl
theorem exec_stepCyclesCountReached : exec (.stepCyclesCountReached p) s = main s fun d => d.doDue p .stepCycles := rfl
theorem exec_stepStepsCountReached : exec (.stepStepsCountReached p) s = main s fun d => d.doStepStepsCountReached p := rfl
theorem exec_stallRelease : exec (.stallRelease p) s = main s fun d => d.doStallRelease p := rfl
theorem exec_freezeTimeout : exec (.freezeTimeout p) s = main s fun d => d.doFreezeTimeout p := rfl

end

namespace Dev

/-- What is due where a boundary reached it freezes the partition with its own cause (R102). -/
theorem doDue_freezes {d : Dev} {i : Nat} {due : Due} (hst : d.seqState i ≠ 0) (h : (d.ptnAt i).due = due) :
    d.doDue i due = d.enterFreeze i (dueCause due) := by
  simp [doDue, dueFreeze, hst, h]

/-- A count of steps that ended within a cycle is spent (R96). -/
theorem doStepStepsCountReached_spent {d : Dev} {i : Nat} (hdue : (d.ptnAt i).due = .none) (h : (d.ptnAt i).stepsLeft = some 0) :
    d.doStepStepsCountReached i = d.modPtn i fun x => { x with stepsLeft := none } := by
  simp [doStepStepsCountReached, hdue, h]

theorem doStepStepsCountReached_due {d : Dev} {i : Nat} (h : (d.ptnAt i).due ≠ .none) : d.doStepStepsCountReached i = d.doDue i .stepSteps := by
  simp [doStepStepsCountReached, h]

theorem doStallRelease_executes {d : Dev} {i es : Nat} {g : SegRun} {segs : List SegRun} {rest : List EsRun}
    (hruns : (d.ptnAt i).runs = ⟨es, g :: segs⟩ :: rest) (hstall : d.b (pPTN i) PTN_SEQ_STATUS_STALLED = true) (h : d.blockers i g.step = 0) :
    d.doStallRelease i = d.doExecuteStep i := by
  simp [doStallRelease, hruns, hstall, h]

/-- The lowest cause that waits becomes the hard freeze's (R100, R102). -/
theorem doFreezeTimeout_escalates {d : Dev} {i c : Nat} {cs : List Nat} (hst : d.seqState i = 1) (hset : d.settling i = false)
    (hl : d.linked i = false) (hpend : d.b (pPTN i) PTN_SEQ_STATUS_FREEZE_PENDING = true) (hstall : d.b (pPTN i) PTN_SEQ_STATUS_STALLED = true)
    (htime : d.g (pPTN i) PTN_FREEZE_CFG_TIMEOUT ≠ 0) (h : (d.ptnAt i).pend = c :: cs) :
    d.doFreezeTimeout i = ((d.on (pPTN i) PTN_SEQ_STATUS_ESCALATED).irq (pPTN i) 3).enterHard i (lowest c cs) := by
  simp [doFreezeTimeout, h, hst, hset, hl, hpend, hstall, htime]

end Dev

theorem main_doDue {d : Dev} {i : Nat} {due : Due} (q : List Instr) (hact : d.active = true) (hst : d.seqState i ≠ 0) (h : (d.ptnAt i).due = due) :
    main ⟨d, q⟩ (fun d => d.doDue i due) = .next ⟨(d.enterFreeze i (Dev.dueCause due)).finish, q⟩ := by
  rw [main_active d q _ hact, Dev.doDue_freezes hst h]

/-- Settles O21: each limit freezes with the cause of what is due, a stall's end is an executed step, and a timeout takes the lowest cause waiting. -/
theorem boundaryEventsFreeze : Obligations.BoundaryEventsFreeze := by
  refine ⟨?cascade, ?runLimit, ?cycles, ?steps, ?spent, ?stall, ?timeout⟩
  case cascade => exact fun d q p hact hst hdue => (exec_cascadeLimit ..).trans (main_doDue q hact hst hdue)
  case runLimit => exact fun d q p hact hst hdue => (exec_runLimitReached ..).trans (main_doDue q hact hst hdue)
  case cycles => exact fun d q p hact hst hdue => (exec_stepCyclesCountReached ..).trans (main_doDue q hact hst hdue)
  case steps =>
    intro d q p hact hst hdue
    have hne : (d.ptnAt p).due ≠ .none := by rw [hdue]; decide
    rw [exec_stepStepsCountReached, main_active d q _ hact, Dev.doStepStepsCountReached_due hne, Dev.doDue_freezes hst hdue]
    rfl
  case spent =>
    intro d q p hact hdue hleft
    rw [exec_stepStepsCountReached, main_active d q _ hact, Dev.doStepStepsCountReached_spent hdue hleft]
  case stall =>
    intro d q p es seg u n segs rest hact hruns hstall hfree
    rw [exec_stallRelease, main_active d q _ hact, Dev.doStallRelease_executes hruns hstall hfree]
  case timeout =>
    intro d q p c cs hact hst hset hpending hstall htime hl hpend
    rw [exec_freezeTimeout, main_active d q _ hact, Dev.doFreezeTimeout_escalates hst hset hl hpending hstall htime hpend]

/-! One step time of a partition (R94, R99, R106). -/

namespace Dev

/-- A running partition with something due freezes in place of a step. -/
theorem doExecuteStep_due {d : Dev} {i : Nat} (hst : d.seqState i = 1) (hset : (d.ptnAt i).settle = none) (hdue : (d.ptnAt i).due ≠ .none) :
    d.doExecuteStep i = d.enterFreeze i (dueCause (d.ptnAt i).due) := by
  simp [doExecuteStep, dueFreeze, hst, hset, hdue]

/-- Inside a cycle a running partition with nothing due takes one step, and POSITION shows what comes next. -/
theorem doExecuteStep_inCycle {d : Dev} {i : Nat} (hst : d.seqState i = 1) (hset : (d.ptnAt i).settle = none) (hdue : (d.ptnAt i).due = .none)
    (hfree : (d.ptnAt i).freezeAt.any (fun f => f.2.2 && f.1 ≤ (d.ptnAt i).exec) = false) (hin : d.b (pPTN i) PTN_POSITION_IN_CYCLE = true) :
    d.doExecuteStep i = if (d.oneStep i).seqState i == 1 || (d.oneStep i).seqState i == 3 then (d.oneStep i).showPosition i else d.oneStep i := by
  simp only [doExecuteStep, hst, hset, hdue, hfree, hin, beq_self_eq_true, Option.isNone_none, Bool.and_self, Bool.true_or, Bool.not_true,
    Bool.false_and, Bool.false_eq_true, if_false, if_true, ne_eq, not_true_eq_false, Dev.iff_false]

theorem oneStep_idle {d : Dev} {i : Nat} (h : (d.ptnAt i).idle ≠ 0) :
    d.oneStep i = advance 64 (d.modPtn i fun x => { x with idle := x.idle - 1, cycleSteps := x.cycleSteps + 1, clock := d.hubClock i }) i := by
  simp only [oneStep, h, if_true, ne_eq, not_false_iff]

section
variable {d : Dev} {i es : Nat} {g : SegRun} {segs : List SegRun} {rest : List EsRun}

theorem oneStep_executes (hl : d.linked i = false) (hidle : (d.ptnAt i).idle = 0) (hruns : (d.ptnAt i).runs = ⟨es, g :: segs⟩ :: rest)
    (h : d.blockers i g.step = 0) : d.oneStep i = (d.executeIndex i g.step).afterStep i g.seg := by
  simp [oneStep, hl, hidle, hruns, h]

theorem oneStep_held (hl : d.linked i = false) (hidle : (d.ptnAt i).idle = 0) (hruns : (d.ptnAt i).runs = ⟨es, g :: segs⟩ :: rest)
    (h : d.blockers i g.step ≠ 0) : d.oneStep i = d.holdStep i (d.blockers i g.step) := by
  simp [oneStep, hl, hidle, hruns, h]

end

end Dev

/-- Settles O27: with nothing due the step is `Dev.oneStep`'s, by what the partition has left and what its ports block. -/
theorem executeStepTakesOneStep : Obligations.ExecuteStepTakesOneStep := by
  refine ⟨?idle, ?executed, ?held, ?due⟩
  case idle =>
    intro d q p hact hst hset hdue hfree hin hl hidle
    rw [exec_executeStep, main_active d q _ hact, Dev.doExecuteStep_inCycle hst hset hdue hfree hin, Dev.oneStep_idle hidle]
  case executed =>
    intro d q p es seg u n segs rest hact hst hset hdue hfree hin hl hidle hruns hports
    rw [exec_executeStep, main_active d q _ hact, Dev.doExecuteStep_inCycle hst hset hdue hfree hin, Dev.oneStep_executes hl hidle hruns hports]
  case held =>
    intro d q p es seg u n segs rest hact hst hset hdue hfree hin hl hidle hruns hports
    rw [exec_executeStep, main_active d q _ hact, Dev.doExecuteStep_inCycle hst hset hdue hfree hin, Dev.oneStep_held hl hidle hruns hports]
  case due =>
    intro d q p hact hst hset hdue
    rw [exec_executeStep, main_active d q _ hact, Dev.doExecuteStep_due hst hset hdue]

/-! Samples of the derived clock sources (R92). -/

namespace Dev

theorem ptnAt_modPtn_self (d : Dev) (i : Nat) (f : Ptn → Ptn) : (d.modPtn i f).ptnAt i = f (d.ptnAt i) := ptnAt_setPtn_self ..

/-- The sources of a type that meet a condition, as bits. -/
theorem testBit_sources (d : Dev) (i type k : Nat) (p : Nat → Bool) :
    (maskOf ((d.sourcesOf i type).filter p)).testBit k = (decide (k < 32 ∧ d.g (pPTN i) (PTN_CLK_TYPE k) = type) && p k) := by
  rw [mask_test, ← src_mem, Bool.eq_iff_iff]
  simp

theorem testBit_derivedSources (d : Dev) (i k : Nat) :
    (maskOf (d.sourcesOf i 2)).testBit k = decide (k < 32 ∧ d.g (pPTN i) (PTN_CLK_TYPE k) = 2) := by
  rw [mask_test, src_mem]

/-- Of a source that is sampled and has a sample `o`, an edge is a value `v` that differs from it. -/
theorem edge_eq (src s v o : Bool) : (src && v && (src && s) && (src && v ^^ o)) = (src && s && v && !o) ∧
    (o && (src && s) && (src && v ^^ o)) = (src && s && !v && o) := by
  decide +revert

/-- Sampling, source by source. -/
theorem sampleClocks_testBit (d : Dev) (i k : Nat) :
    let x := d.ptnAt i; let y := (d.sampleClocks i).ptnAt i
    let src := decide (k < 32 ∧ d.g (pPTN i) (PTN_CLK_TYPE k) = 2); let v := d.derivedValue i k
    y.sampled.testBit k = src ∧ y.samples.testBit k = (src && v) ∧
    y.rises.testBit k = (x.rises.testBit k || (src && x.sampled.testBit k && v && !x.samples.testBit k)) ∧
    y.falls.testBit k = (x.falls.testBit k || (src && x.sampled.testBit k && !v && x.samples.testBit k)) := by
  intro x y src v
  have hedge := edge_eq src (x.sampled.testBit k) v (x.samples.testBit k)
  have hy : y = _ := ptnAt_modPtn_self ..
  rw [hy, ← hedge.1, ← hedge.2]
  simp only [Nat.testBit_or, Nat.testBit_and, Nat.testBit_xor, testBit_sources, testBit_derivedSources]
  exact ⟨rfl, rfl, rfl, rfl⟩

/-- The entry that a derived source names is a state entry's current copy. -/
theorem derivedValue_eq (d : Dev) (i k : Nat) : d.derivedValue i k =
    SMap.get false d.st.cur (tileIx (d.g (pPTN i) (PTN_CLK_CLUSTER k)) (d.g (pPTN i) (PTN_CLK_TILE k)) * 1024 + d.g (pPTN i) (PTN_CLK_ENTRY k)) := by
  rw [derivedValue, tss, if_neg (by omega), if_neg (by omega), Nat.add_sub_cancel_left]

/-! Stopping and resuming take no sample. -/

theorem samples_enterFreeze (d : Dev) (i c : Nat) :
    ((d.enterFreeze i c).ptnAt i).samples = (d.ptnAt i).samples ∧ ((d.enterFreeze i c).ptnAt i).sampled = (d.ptnAt i).sampled := by
  simp [enterFreeze, modPtn_def, ptnAt_setPtn_self, ptnAt_of (landAll_ptn d i)]

theorem samples_enterHard (d : Dev) (i c : Nat) :
    ((d.enterHard i c).ptnAt i).samples = (d.ptnAt i).samples ∧ ((d.enterHard i c).ptnAt i).sampled = (d.ptnAt i).sampled := by
  simp [enterHard, frozenIrq, ptnAt_irq, modPtn_def, ptnAt_setPtn_self, ptnAt_of (landAll_ptn d i)]

theorem samples_resumeNow (d : Dev) (i : Nat) (cycles steps : Option Nat) :
    ((d.resumeNow i cycles steps).ptnAt i).samples = (d.ptnAt i).samples ∧
      ((d.resumeNow i cycles steps).ptnAt i).sampled = (d.ptnAt i).sampled := by
  unfold resumeNow
  split
  · exact ⟨rfl, rfl⟩
  · dsimp only
    rw [ptnAt_modPtn_self]
    split <;> exact ⟨rfl, rfl⟩

end Dev

/-- Settles O24: sampling is settled source by source; a commit samples the stores it has committed; a stop and a resume change other fields of the
partition's record. -/
theorem derivedClockSamples : Obligations.DerivedClockSamples := by
  refine ⟨Dev.sampleClocks_testBit, fun d i e k => ?commit, fun d i c cy st => ?stops, fun d i k => ?drop⟩
  case commit =>
    rw [Dev.commitSet, (Dev.sampleClocks_testBit _ i k).2.1, Dev.derivedValue_eq]
    rfl
  case stops =>
    simp only [List.mem_cons, List.not_mem_nil, or_false, forall_eq_or_imp, forall_eq]
    exact ⟨Dev.samples_enterFreeze .., Dev.samples_enterHard .., Dev.samples_resumeNow ..⟩
  case drop => rw [Dev.dropSamples, Dev.ptnAt_modPtn_self, Nat.testBit_and, Dev.testBit_derivedSources]

/-! The signal fabric (R112, R113, R114, R117). -/

namespace Dev

/-! The crossbar input of a tile's send port: what its segment holds, else what the port drives in this step unless the segment is registered. -/

theorem probe_held {d : Dev} (i u e fuel n : Nat) {t j : Nat} {v : Sig} (ht : t < 32) (h : SMap.get? d.fab (regTile n t j) = some v) :
    probe i u e d (fuel + 1) n t j = some (v, 0) := by
  simp [probe, probeAt, ht, h]

theorem probe_driven {d : Dev} {i u n m s : Nat} (e fuel : Nat) {t j : Nat} (ht : t < 32) (h : SMap.get? d.fab (regTile n t j) = none)
    (hs : d.srcOf i n u = some (m, s)) :
    probe i u e d (fuel + 1) n t j = let w := (d.portWord (ixPort m t j s)).getD 0
      if w.testBit 0 && !w.testBit 14 then some (d.driven n t w, 1) else none := by
  simp [probe, probeAt, ht, h, hs]

/-! Schedule words that are not zero are listed, and listed words are the only ones that a step walks over. -/

theorem ixPort_mem_keysAt {d : Dev} {m t j s w : Nat} (ht : t < 32) (hj : j < 16) (hs : s < 256) (h : d.portWord (ixPort m t j s) = some w)
    (hw : w ≠ 0) : ixPort m t j s ∈ keysAt d.code.port (m * 131072) 131072 s := by
  rw [mem_keysAt]
  refine ⟨d.listed _ _ h hw, ?_, ?_, ?_⟩ <;> (unfold ixPort tileIx; omega)

theorem ne_zero_of_testBit {w k : Nat} (h : w.testBit k = true) : w ≠ 0 := by
  rintro rfl
  simp at h

/-- A valid send port with a registered segment is among the values for the next executed step. -/
theorem mem_registersOf {d : Dev} {i u n m s : Nat} (e : Nat) {t j w : Nat} (ht : t < 32) (hj : j < 8) (hs : s < 256)
    (hsrc : d.srcOf i n u = some (m, s)) (h : d.portWord (ixPort m t j s) = some w) (hvalid : w.testBit 0 = true) (hreg : w.testBit 14 = true) :
    (regTile n t j, d.driven n t w) ∈ d.registersOf i u e n := by
  have hkey := ixPort_mem_keysAt ht (by omega) hs h (ne_zero_of_testBit hvalid)
  have hplane : ixPort m t j s / 256 % 16 = j := by unfold ixPort tileIx; omega
  have htile : ixPort m t j s / 4096 % 32 = t := by unfold ixPort tileIx; omega
  simp only [registersOf, hsrc, List.mem_append, List.mem_filterMap]
  exact .inl ⟨_, hkey, by simp [h, hplane, htile, hj, hvalid, hreg]⟩

theorem gatesOf_key {d : Dev} {i u e : Nat} {x : Nat × Sig} (h : x ∈ d.gatesOf i u e) : 0x40000 ≤ x.1 := by
  simp only [gatesOf, List.mem_flatMap, List.mem_filterMap, Option.map_eq_some_iff] at h
  obtain ⟨g, -, p, -, j, -, v, -, rfl⟩ := h
  simp only [regGate]
  omega

/-- Only the port at a tile's segment gives that segment a value. -/
theorem registersOf_regTile {d : Dev} {i u e n n' m s t j w : Nat} {x : Nat × Sig} (hn : n < 64) (ht : t < 32) (hj : j < 8)
    (hsrc : d.srcOf i n u = some (m, s)) (h : d.portWord (ixPort m t j s) = some w) (hx : x ∈ d.registersOf i u e n')
    (hk : x.1 = regTile n t j) : x.2 = d.driven n t w := by
  have hlow : regTile n t j < 0x10000 := by unfold regTile; omega
  obtain hhigh | ⟨m', s', t', j', w', hsrc', ht', hj', hw', rfl⟩ := d.reg_keys i u e n' x hx
  · omega
  · obtain ⟨rfl, rfl, rfl⟩ := reg_inj ht' ht hj' hj hk
    obtain ⟨rfl, rfl⟩ : m = m' ∧ s = s' := by simpa [hsrc] using hsrc'
    obtain rfl : w = w' := by simpa [h] using hw'
    rfl

/-- The value of a registered send port is what its segment holds for the next executed step. -/
theorem get?_newFabric {d : Dev} {i u n m s t j w : Nat} (e : Nat) (hn : n < 64) (ht : t < 32) (hj : j < 8) (hs : s < 256)
    (hmem : n ∈ d.execClusters i) (hsrc : d.srcOf i n u = some (m, s)) (h : d.portWord (ixPort m t j s) = some w) (hvalid : w.testBit 0 = true)
    (hreg : w.testBit 14 = true) : SMap.get? (d.newFabric i u e) (regTile n t j) = some (d.driven n t w) := by
  refine SMap.foldl_put _ _ _ _ (fun x hx hk => ?_) (.inl ⟨(regTile n t j, d.driven n t w), ?_, rfl⟩)
  · obtain hx | hx := List.mem_append.1 hx
    · obtain ⟨n', -, hx⟩ := List.mem_flatMap.1 hx
      exact registersOf_regTile hn ht hj hsrc h hx hk
    · have := gatesOf_key hx
      unfold regTile at hk
      omega
  · exact List.mem_append_left _ (List.mem_flatMap.2 ⟨n, hmem, mem_registersOf e ht hj hs hsrc h hvalid hreg⟩)

/-- A step passes over the arrivals of cluster `m`'s schedule: no port word is listed there and no segment holds a value. -/
def skipsArrivals (d : Dev) (m : Nat) : Bool := (SMap.range d.code.port (m * 131072) (m * 131072 + 131072)).isEmpty && d.fab.isEmpty

theorem skipsArrivals_iff (d : Dev) (m : Nat) :
    d.skipsArrivals m = true ↔ SMap.range d.code.port (m * 131072) (m * 131072 + 131072) = [] ∧ d.fab = [] := by
  simp [skipsArrivals]

theorem portWord_of_skips {d : Dev} {m s t j w : Nat} (hskip : d.skipsArrivals m = true) (ht : t < 32) (hj : j < 16) (hs : s < 256)
    (h : d.portWord (ixPort m t j s) = some w) : w = 0 := by
  refine Decidable.byContradiction fun hne => ?_
  have hkey := ixPort_mem_keysAt ht hj hs h hne
  simp [keysAt, ((d.skipsArrivals_iff m).1 hskip).1] at hkey

/-- There no send port drives its crossbar either. -/
theorem probe_of_skips {d : Dev} {i u n m s t j : Nat} (e fuel : Nat) (hskip : d.skipsArrivals m = true) (ht : t < 32) (hj : j < 16) (hs : s < 256)
    (hsrc : d.srcOf i n u = some (m, s)) : probe i u e d (fuel + 1) n t j = none := by
  have hzero : (d.portWord (ixPort m t j s)).getD 0 = 0 := by
    cases hw : d.portWord (ixPort m t j s) with
    | none => rfl
    | some w => exact portWord_of_skips hskip ht hj hs hw
  rw [probe_driven e fuel ht (by rw [((d.skipsArrivals_iff m).1 hskip).2]; rfl) hsrc, hzero]
  rfl

/-- A receive port with a value on its selection keeps the step's arrivals from being passed over. -/
theorem skipsArrivals_eq_false {d : Dev} {i u e n m s t j w : Nat} {r : Sig × Nat} (ht : t < 32) (hj : j < 8) (hs : s < 256)
    (hsrc : d.srcOf i n u = some (m, s)) (h : d.portWord (ixPort m t (8 + j) s) = some w)
    (hv : probe i u e d chainFuel n (w % 64) j = some r) : d.skipsArrivals m = false := by
  refine Bool.eq_false_iff.2 fun hskip => ?_
  rw [portWord_of_skips hskip ht (by omega) hs h, Nat.zero_mod, chainFuel, probe_of_skips e 79 hskip (by omega) (by omega) hs hsrc] at hv
  cases hv

/-- A receive port writes the defined value that its selection brings to the tile's fabric inputs. -/
theorem mem_arrivals {d : Dev} {i u e n m s t j w c : Nat} {v : Sig} (ht : t < 32) (hj : j < 8) (hs : s < 256)
    (hsrc : d.srcOf i n u = some (m, s)) (h : d.portWord (ixPort m t (8 + j) s) = some w) (hsel : w % 64 ≤ 32)
    (hv : probe i u e d chainFuel n (w % 64) j = some (v, c)) (hc : c ≤ 2) (hdef : v.undef = false) :
    (if v.word = true then Wr.word n t (0x80 + w / 64 % 64) v.data.toNat
      else Wr.bit n t (0x800 + w / 64 % 1024) (v.data.getLsbD 0)) ∈ d.arrivals i u e n := by
  have hlow : bitsAt w 0 6 = w % 64 := rfl
  have hdst : bitsAt w 6 10 = w / 64 % 1024 := congrArg (· % 1024) (Nat.shiftRight_eq_div_pow w 6)
  have hword : w / 64 % 1024 % 64 = w / 64 % 64 := Nat.mod_mod_of_dvd _ (by decide)
  have hpick : (if (w % 64 == 0) = true then probe i u e d chainFuel n 0 j
      else if w % 64 ≤ 32 then probe i u e d chainFuel n (w % 64) j else none) = some (v, c) := by
    by_cases h0 : w % 64 = 0
    · rw [h0] at hv ⊢
      exact hv
    · simpa [h0, hsel] using hv
  have hskip := skipsArrivals_eq_false ht hj hs hsrc h hv
  rw [skipsArrivals] at hskip
  simp only [arrivals, hsrc, hskip, Bool.false_eq_true, if_false, List.mem_flatMap, List.mem_range]
  refine ⟨j, hj, t, ht, ?_⟩
  simp only [h, hlow, hpick, hdst, hword, hdef, Bool.false_or, decide_eq_false (Nat.not_lt.2 hc), Bool.false_eq_true, if_false]
  split <;> exact List.mem_singleton_self _

end Dev

/-- Settles O26: a port's segment is one step of the walk back through the crossbar, and a port word that is not zero is one that a step reads. -/
theorem signalFabricMovesValues : Obligations.SignalFabricMovesValues := by
  refine ⟨?sent, ?held, ?registered, ?received⟩
  case sent =>
    intro d i u e n t j m s w fuel ht hsrc hw hvalid hfab
    rw [Dev.probe_driven e fuel ht hfab hsrc, hw, Option.getD_some]
    cases hreg : w.testBit 14 <;> simp [hvalid, hreg]
  case held => exact fun d i u e n t j fuel v ht hv => Dev.probe_held i u e fuel n ht hv
  case registered =>
    exact fun d i u e n t j m s w hn ht hj hs hmem hsrc hw hvalid hreg => Dev.get?_newFabric e hn ht hj hs hmem hsrc hw hvalid hreg
  case received =>
    exact fun d i u e n t j m s w v c ht hj hs hsrc hw hsel hv hc hdef => Dev.mem_arrivals ht hj hs hsrc hw hsel hv hc hdef

end Sys2Proof.Machine

namespace Sys2Proof.Machine

/-! Every command and every step keeps the register fields and HBM in their canonical form (R137, R259, R362): a command by the law of its own
meaning, a step because it is a command's or the clock's. -/

theorem exec_canonical {s t : State} (h0 : s.dev.Canonical) : ∀ c : Instr, exec c s = .next t → t.dev.Canonical
  | .registerWrite .., h => execRegisterWrite_canonical _ _ _ _ _ h0 h
  | .pairLowRead .., h => execPairLowRead_canonical _ _ _ h0 h
  | .pairLowWrite .., h => execPairLowWrite_canonical _ _ _ _ h0 h
  | .pairHighWrite .., h => execPairHighWrite_canonical _ _ _ _ h0 h
  | .misalignedAccess .., h => execMisalignedAccess_canonical _ _ _ _ _ h0 h
  | .fenceRead .., h => execFenceRead_canonical _ _ _ h0 h
  | .executeStep .., h => execExecuteStep_canonical _ _ h0 h
  | .correctedWordWriteBack .., h => execCorrectedWordWriteBack_canonical _ _ _ _ _ _ h0 h
  | .cascadeLimit .., h => execCascadeLimit_canonical _ _ h0 h
  | .runLimitReached .., h => execRunLimitReached_canonical _ _ h0 h
  | .stepCyclesCountReached .., h => execStepCyclesCountReached_canonical _ _ h0 h
  | .stepStepsCountReached .., h => execStepStepsCountReached_canonical _ _ h0 h
  | .stallRelease .., h => execStallRelease_canonical _ _ h0 h
  | .start .., h => execStart_canonical _ _ h0 h
  | .resume .., h => execResume_canonical _ _ h0 h
  | .freeze .., h => execFreeze_canonical _ _ h0 h
  | .hardFreeze .., h => execHardFreeze_canonical _ _ h0 h
  | .stepCycles .., h => execStepCycles_canonical _ _ h0 h
  | .stepSteps .., h => execStepSteps_canonical _ _ h0 h
  | .stop .., h => execStop_canonical _ _ h0 h
  | .seqCmdInvalid .., h => execSeqCmdInvalid_canonical _ _ _ h0 h
  | .freezeSettled .., h => execFreezeSettled_canonical _ _ h0 h
  | .freezeTimeout .., h => execFreezeTimeout_canonical _ _ h0 h
  | .seqTableWrite .., h => execSeqTableWrite_canonical _ _ _ _ h0 h
  | .bpiClrCounts .., h => execBpiClrCounts_canonical _ _ h0 h
  | .wliClrCounts .., h => execWliClrCounts_canonical _ _ h0 h
  | .fabClrCount .., h => execFabClrCount_canonical _ _ h0 h
  | .dmemClrCounts .., h => execDmemClrCounts_canonical _ _ h0 h
  | .dmemRowWriteBack .., h => execDmemRowWriteBack_canonical _ _ _ _ h0 h
  | .dmemCfgWrite .., h => execDmemCfgWrite_canonical _ _ _ _ h0 h
  | .fmpConfigWrite .., h => execFmpConfigWrite_canonical _ _ _ _ h0 h
  | .txpConfigWrite .., h => execTxpConfigWrite_canonical _ _ _ _ h0 h
  | .farReadArrival .., h => execFarReadArrival_canonical _ _ _ h0 h
  | .farWriteAck .., h => execFarWriteAck_canonical _ _ _ h0 h
  | .windowRead .., h => execWindowRead_canonical _ _ _ _ _ h0 h
  | .windowWrite .., h => execWindowWrite_canonical _ _ _ _ _ _ h0 h
  | .windowReadTimeout .., h => execWindowReadTimeout_canonical _ _ _ _ _ h0 h
  | .snapSave .., h => execSnapSave_canonical _ _ h0 h
  | .snapSaveComplete .., h => execSnapSaveComplete_canonical _ _ h0 h
  | .snapRestore .., h => execSnapRestore_canonical _ _ h0 h
  | .snapCheckComplete .., h => execSnapCheckComplete_canonical _ _ h0 h
  | .snapRestoreComplete .., h => execSnapRestoreComplete_canonical _ _ h0 h
  | .snapAbort .., h => execSnapAbort_canonical _ _ h0 h
  | .strobe, h => execStrobe_canonical _ h0 h
  | .strobeLatch, h => execStrobeLatch_canonical _ h0 h
  | .ptnCreate .., h => execPtnCreate_canonical _ _ _ _ _ _ _ h0 h
  | .ptnDestroy .., h => execPtnDestroy_canonical _ _ _ h0 h
  | .ptnCloseComplete .., h => execPtnCloseComplete_canonical _ _ h0 h
  | .ptnResize .., h => execPtnResize_canonical _ _ _ _ _ _ h0 h
  | .ptnResizeComplete .., h => execPtnResizeComplete_canonical _ _ h0 h
  | .ptnQuery .., h => execPtnQuery_canonical _ _ _ h0 h
  | .ping .., h => execPing_canonical _ _ _ h0 h
  | .serviceBadCommand .., h => execServiceBadCommand_canonical _ _ h0 h
  | .linkedCommand .., h => execLinkedCommand_canonical _ _ _ _ _ _ _ h0 h
  | .linkedCommandEffect .., h => execLinkedCommandEffect_canonical _ _ h0 h
  | .hold .., h => execHold_canonical _ _ _ _ _ h0 h
  | .ready .., h => execReady_canonical _ _ _ _ _ h0 h
  | .go .., h => execGo_canonical _ _ _ _ _ h0 h
  | .systemHoldRelease .., h => execSystemHoldRelease_canonical _ _ h0 h
  | .steps .., h => execSteps_canonical _ _ _ _ _ _ h0 h
  | .sysFreeze, h => execSysFreeze_canonical _ h0 h
  | .freezeMsg .., h => execFreezeMsg_canonical _ _ _ _ _ h0 h
  | .lockstepRecord .., h => execLockstepRecord_canonical _ _ h0 h
  | .partnerTimeout, h => execPartnerTimeout_canonical _ h0 h
  | .beaconSend, h => execBeaconSend_canonical _ h0 h
  | .beacon .., h => execBeacon_canonical _ _ _ _ _ _ _ h0 h
  | .beaconTimeout, h => execBeaconTimeout_canonical _ h0 h
  | .tsbHoldEnd, h => execTsbHoldEnd_canonical _ h0 h
  | .tsbSet .., h => execTsbSet_canonical _ _ h0 h
  | .bootGo, h => execBootGo_canonical _ h0 h
  | .bootAbort, h => execBootAbort_canonical _ h0 h
  | .bundleFetchComplete .., h => execBundleFetchComplete_canonical _ _ h0 h
  | .bundleVerifyComplete, h => execBundleVerifyComplete_canonical _ h0 h
  | .stageReady, h => execStageReady_canonical _ h0 h
  | .confirm, h => execConfirm_canonical _ h0 h
  | .burnComplete .., h => execBurnComplete_canonical _ _ h0 h
  | .ownerProvision .., h => execOwnerProvision_canonical _ _ _ h0 h
  | .loadGo .., h => execLoadGo_canonical _ _ h0 h
  | .loadAbort .., h => execLoadAbort_canonical _ _ h0 h
  | .loadReplay .., h => execLoadReplay_canonical _ _ h0 h
  | .frame .., h => execFrame_canonical _ _ _ h0 h
  | .scrubWalkRead .., h => execScrubWalkRead_canonical _ _ _ h0 h
  | .scrubPassRequest .., h => execScrubPassRequest_canonical _ _ h0 h
  | .scrubPassStart, h => execScrubPassStart_canonical _ h0 h
  | .scrubPassComplete, h => execScrubPassComplete_canonical _ h0 h
  | .upset .., h => execUpset_canonical _ _ _ _ h0 h
  | .upsetRewrite .., h => execUpsetRewrite_canonical _ _ _ h0 h
  | .laneGroupEnable .., h => execLaneGroupEnable_canonical _ _ h0 h
  | .laneGroupDisable .., h => execLaneGroupDisable_canonical _ _ h0 h
  | .laneTestRequest .., h => execLaneTestRequest_canonical _ _ h0 h
  | .markerSend .., h => execMarkerSend_canonical _ _ h0 h
  | .marker .., h => execMarker_canonical _ _ _ _ _ h0 h
  | .acqTimeout .., h => execAcqTimeout_canonical _ _ h0 h
  | .laneLoss .., h => execLaneLoss_canonical _ _ _ h0 h
  | .codeword .., h => execCodeword_canonical _ _ _ _ _ h0 h
  | .slotFrame .., h => execSlotFrame_canonical _ _ _ _ h0 h
  | .linkFlit .., h => execLinkFlit_canonical _ _ _ _ h0 h
  | .credit .., h => execCredit_canonical _ _ _ _ _ h0 h
  | .injGo .., h => execInjGo_canonical _ _ h0 h
  | .lgrpClrCounts .., h => execLgrpClrCounts_canonical _ _ h0 h
  | .clrSlack .., h => execClrSlack_canonical _ _ h0 h
  | .bridgeLaneEnable .., h => execBridgeLaneEnable_canonical _ _ _ _ _ h0 h
  | .bridgeWordReceive .., h => execBridgeWordReceive_canonical _ _ _ _ h0 h
  | .bridgeWordTransmit .., h => execBridgeWordTransmit_canonical _ _ _ h0 h
  | .packetHop .., h => execPacketHop_canonical _ _ _ _ h0 h
  | .rd .., h => execRd_canonical _ _ h0 h
  | .wr .., h => execWr_canonical _ _ h0 h
  | .qwr .., h => execQwr_canonical _ _ h0 h
  | .qrd .., h => execQrd_canonical _ _ h0 h
  | .capWr .., h => execCapWr_canonical _ _ h0 h
  | .trcWr .., h => execTrcWr_canonical _ _ h0 h
  | .rspData .., h => execRspData_canonical _ _ h0 h
  | .rspAck .., h => execRspAck_canonical _ _ h0 h
  | .rspTimeout .., h => execRspTimeout_canonical _ _ _ h0 h
  | .tagQuarantineEnd .., h => execTagQuarantineEnd_canonical _ _ _ h0 h
  | .routeTableWrite .., h => execRouteTableWrite_canonical _ _ _ _ h0 h
  | .drain .., h => execDrain_canonical _ _ h0 h
  | .drainComplete .., h => execDrainComplete_canonical _ _ h0 h
  | .drainTimeout .., h => execDrainTimeout_canonical _ _ h0 h
  | .unfence .., h => execUnfence_canonical _ _ h0 h
  | .nocClrCounts, h => execNocClrCounts_canonical _ h0 h
  | .txpCopyFill .., h => execTxpCopyFill_canonical _ _ _ h0 h
  | .txpCreditRenew .., h => execTxpCreditRenew_canonical _ _ _ h0 h
  | .doorbellAppend .., h => execDoorbellAppend_canonical _ _ _ _ _ _ h0 h
  | .doorbellAppendMulti .., h => execDoorbellAppendMulti_canonical _ _ _ _ h0 h
  | .pop .., h => execPop_canonical _ _ _ h0 h
  | .popWaitExpire .., h => execPopWaitExpire_canonical _ _ _ h0 h
  | .bar4AccessError .., h => execBar4AccessError_canonical _ _ _ _ h0 h
  | .qwrHoldExpire .., h => execQwrHoldExpire_canonical _ _ h0 h
  | .qrdHoldExpire .., h => execQrdHoldExpire_canonical _ _ h0 h
  | .flush .., h => execFlush_canonical _ _ _ h0 h
  | .dropHead .., h => execDropHead_canonical _ _ _ h0 h
  | .clrHwm .., h => execClrHwm_canonical _ _ _ h0 h
  | .queueEnable .., h => execQueueEnable_canonical _ _ _ h0 h
  | .queueDisable .., h => execQueueDisable_canonical _ _ _ h0 h
  | .submit .., h => execSubmit_canonical _ _ h0 h
  | .submitHoldExpire .., h => execSubmitHoldExpire_canonical _ _ h0 h
  | .courierDispatch .., h => execCourierDispatch_canonical _ _ _ h0 h
  | .workItemComplete .., h => execWorkItemComplete_canonical _ _ h0 h
  | .courierWaitLimit .., h => execCourierWaitLimit_canonical _ _ h0 h
  | .dspClr, h => execDspClr_canonical _ h0 h
  | .triggerLevelTimeout, h => execTriggerLevelTimeout_canonical _ h0 h
  | .arm, h => execArm_canonical _ h0 h
  | .disarm, h => execDisarm_canonical _ h0 h
  | .trigPinEdge .., h => execTrigPinEdge_canonical _ _ _ h0 h
  | .pinPulseEnd .., h => execPinPulseEnd_canonical _ _ h0 h
  | .captureArm .., h => execCaptureArm_canonical _ _ h0 h
  | .captureDisarm .., h => execCaptureDisarm_canonical _ _ h0 h
  | .captureBlockWrite .., h => execCaptureBlockWrite_canonical _ _ _ h0 h
  | .postLimitExpire .., h => execPostLimitExpire_canonical _ _ h0 h
  | .rearmExpire .., h => execRearmExpire_canonical _ _ h0 h
  | .channelOwnerWrite .., h => execChannelOwnerWrite_canonical _ _ _ h0 h
  | .zeroingComplete .., h => execZeroingComplete_canonical _ _ h0 h
  | .pinwheelConfigWrite .., h => execPinwheelConfigWrite_canonical _ _ _ h0 h
  | .traceStreamEnable .., h => execTraceStreamEnable_canonical _ _ h0 h
  | .traceCounterLimit .., h => execTraceCounterLimit_canonical _ _ h0 h
  | .mark .., h => execMark_canonical _ _ _ h0 h
  | .traceBlockTimeout .., h => execTraceBlockTimeout_canonical _ _ h0 h
  | .traceSyncTimer .., h => execTraceSyncTimer_canonical _ _ h0 h
  | .tokenChallenge .., h => execTokenChallenge_canonical _ _ h0 h
  | .tokenPresent .., h => execTokenPresent_canonical _ _ _ h0 h
  | .tokenRevoke .., h => execTokenRevoke_canonical _ _ h0 h
  | .tokenExpire, h => execTokenExpire_canonical _ h0 h
  | .authDisable, h => execAuthDisable_canonical _ h0 h
  | .roll, h => execRoll_canonical _ h0 h
  | .keyRollStart, h => execKeyRollStart_canonical _ h0 h
  | .keyRollSector, h => execKeyRollSector_canonical _ h0 h
  | .imeClrCounts, h => execImeClrCounts_canonical _ h0 h
  | .vauxUp, h => execVauxUp_canonical _ h0 h
  | .vauxLoss, h => execVauxLoss_canonical _ h0 h
  | .vin48Up, h => execVin48Up_canonical _ h0 h
  | .vin48Loss, h => execVin48Loss_canonical _ h0 h
  | .perstAssert, h => execPerstAssert_canonical _ h0 h
  | .perstDeassert, h => execPerstDeassert_canonical _ h0 h
  | .startup .., h => execStartup_canonical _ _ _ h0 h
  | .device, h => execDevice_canonical _ h0 h
  | .flrPf, h => execFlrPf_canonical _ h0 h
  | .flrVf .., h => execFlrVf_canonical _ _ h0 h
  | .functionResetComplete .., h => execFunctionResetComplete_canonical _ _ h0 h
  | .ptnReset .., h => execPtnReset_canonical _ _ h0 h
  | .partitionResetComplete .., h => execPartitionResetComplete_canonical _ _ h0 h
  | .vfEnableClear, h => execVfEnableClear_canonical _ h0 h
  | .clusterWake .., h => execClusterWake_canonical _ _ h0 h
  | .clusterIdleDelay .., h => execClusterIdleDelay_canonical _ _ h0 h
  | .clusterOffDelay .., h => execClusterOffDelay_canonical _ _ h0 h
  | .clusterPowerOn .., h => execClusterPowerOn_canonical _ _ h0 h
  | .corePllLockLost, h => execCorePllLockLost_canonical _ h0 h
  | .wakeSource .., h => execWakeSource_canonical _ _ h0 h
  | .heartbeat .., h => execHeartbeat_canonical _ _ h0 h
  | .heartbeatTimeout, h => execHeartbeatTimeout_canonical _ h0 h
  | .graceTimeout, h => execGraceTimeout_canonical _ h0 h
  | .overTemperature .., h => execOverTemperature_canonical _ _ _ h0 h
  | .railFault, h => execRailFault_canonical _ h0 h
  | .wardenStop, h => execWardenStop_canonical _ h0 h
  | .stopDrainTimeout, h => execStopDrainTimeout_canonical _ h0 h
  | .stopComplete, h => execStopComplete_canonical _ h0 h
  | .stringJoin, h => execStringJoin_canonical _ h0 h
  | .stringOpen, h => execStringOpen_canonical _ h0 h
  | .stringLeave, h => execStringLeave_canonical _ h0 h
  | .discover, h => execDiscover_canonical _ h0 h
  | .collect .., h => execCollect_canonical _ _ _ _ _ h0 h
  | .assign .., h => execAssign_canonical _ _ _ _ _ h0 h
  | .stringBeacon .., h => execStringBeacon_canonical _ _ _ _ _ _ h0 h
  | .stringFreeze .., h => execStringFreeze_canonical _ _ _ _ _ h0 h
  | .stringStrobe .., h => execStringStrobe_canonical _ _ _ _ _ h0 h
  | .resetReq .., h => execResetReq_canonical _ _ _ _ _ _ h0 h
  | .msg .., h => execMsg_canonical _ _ _ _ _ _ h0 h
  | .resetReqSend, h => execResetReqSend_canonical _ h0 h
  | .stringBroken, h => execStringBroken_canonical _ h0 h
  | .logClear, h => execLogClear_canonical _ h0 h
  | .lastGaspClear, h => execLastGaspClear_canonical _ h0 h
  | .mntRelease .., h => execMntRelease_canonical _ _ _ _ h0 h
  | .mbistGo .., h => execMbistGo_canonical _ _ h0 h
  | .mbistComplete .., h => execMbistComplete_canonical _ _ _ h0 h
  | .clearAll, h => execClearAll_canonical _ h0 h
  | .counterSaturate .., h => execCounterSaturate_canonical _ _ _ h0 h
  | .irqStatClear .., h => execIrqStatClear_canonical _ _ _ h0 h
  | .irqForce .., h => execIrqForce_canonical _ _ _ h0 h
  | .msixUnmask .., h => execMsixUnmask_canonical _ _ _ h0 h
  | .bar2Read .., h => execBar2Read_canonical _ _ _ _ h0 h
  | .bar2Write .., h => execBar2Write_canonical _ _ _ _ h0 h
  | .captureWindowRead .., h => execCaptureWindowRead_canonical _ _ _ _ h0 h
  | .boundaryScanExtest .., h => execBoundaryScanExtest_canonical _ _ h0 h
  | .ownerBurnComplete .., h => execOwnerBurnComplete_canonical _ _ h0 h
  | .prbsCheck .., h => execPrbsCheck_canonical _ _ _ _ h0 h
  | .laneClockRecovered .., h => execLaneClockRecovered_canonical _ _ _ h0 h
  | .vfEnableSet .., h => execVfEnableSet_canonical _ _ h0 h
  | .stringFrameRepeat, h => execStringFrameRepeat_canonical _ h0 h
  | .stringBeaconSend, h => execStringBeaconSend_canonical _ h0 h

theorem step_canonical {s t : State} (h : step s = .next t) (h0 : s.dev.Canonical) : t.dev.Canonical := by
  obtain ⟨d, pending⟩ := s
  cases pending with
  | nil =>
    rw [step_nil] at h
    exact main_canonical h0 Dev.clockStep_canonical h
  | cons c rest =>
    rw [step_cons] at h
    exact exec_canonical (s := ⟨d, rest⟩) h0 c h

/-- Settles O5: a step is a command's effect or the clock's, and each of these keeps the two stores canonical. -/
theorem storesStayCanonical : Obligations.StoresStayCanonical :=
  fun _ _ => step_canonical

end Sys2Proof.Machine

namespace Sys2Proof.Machine

/-! What a window write does, case by case in the order that it checks (R145, R146). -/

namespace Dev

theorem winWrite_busy {d : Dev} {n : Nat} (w off v : Nat) (hbusy : d.cluBusy n = true) : d.winWrite n w off v = d := by
  simp [winWrite, hbusy]

theorem winWrite_denied {d : Dev} {n : Nat} (w off v : Nat) (hfree : d.cluBusy n = false) (hdeny : d.cluSeq n = 1 ∨ d.cluSnap n ≠ 0) :
    d.winWrite n w off v = d.on (pWIN n w) WIN_WIN_STATUS_DENIED := by
  simp only [winWrite, hfree, Bool.false_eq_true, if_false]
  exact if_pos (by simpa using hdeny)

section
variable {d : Dev} {n w off c t m o : Nat} (v : Nat) (h : d.winTarget n w off = (c, t, m, o))
  (hfree : d.cluBusy n = false) (hseq : d.cluSeq n ≠ 1) (hsnap : d.cluSnap n = 0)
include h hfree hseq hsnap

theorem winWrite_outside (ho : classSize c ≤ o) : d.winWrite n w off v = d.on (pWIN n w) WIN_WIN_STATUS_RANGE := by
  simp [winWrite, h, hfree, hseq, hsnap, ho]

variable (ho : o < classSize c)
include ho

theorem winWrite_fused (hfused : d.winFused n c = true) :
    d.winWrite n w off v = (d.winWake n c).on (pWIN n w) WIN_WIN_STATUS_RANGE := by
  simp [winWrite, h, hfree, hseq, hsnap, Nat.not_le.2 ho, hfused]

theorem winWrite_unmarked (hfused : d.winFused n c = false)
    (hst : ∀ i, ((d.winWake n c).classWrite n c t m o v).ownerOf n = some i → ((d.winWake n c).classWrite n c t m o v).seqState i ≠ 3) :
    d.winWrite n w off v = (d.winWake n c).classWrite n c t m o v := by
  cases howner : ((d.winWake n c).classWrite n c t m o v).ownerOf n with
  | none => simp [winWrite, h, hfree, hseq, hsnap, Nat.not_le.2 ho, hfused, howner]
  | some i => simp [winWrite, h, hfree, hseq, hsnap, Nat.not_le.2 ho, hfused, howner, hst i howner]

/-- A word stored for an owner that is HARD_FROZEN marks it (R98). -/
theorem winWrite_marked (hfused : d.winFused n c = false) {i : Nat} (howner : ((d.winWake n c).classWrite n c t m o v).ownerOf n = some i)
    (hst : ((d.winWake n c).classWrite n c t m o v).seqState i = 3) :
    d.winWrite n w off v = ((d.winWake n c).classWrite n c t m o v).on (pPTN i) PTN_SEQ_STATUS_HOST_MODIFIED := by
  simp [winWrite, h, hfree, hseq, hsnap, Nat.not_le.2 ho, hfused, howner, hst]

end

end Dev

/-- Settles O33: the checks of a window write exclude one another, and the first that holds decides. -/
theorem windowWriteRules : Obligations.WindowWriteRules := by
  intro d n w off v c t m o h
  exact ⟨Dev.winWrite_busy w off v, Dev.winWrite_denied w off v, Dev.winWrite_outside v h, Dev.winWrite_fused v h, Dev.winWrite_unmarked v h,
    fun i hfree hseq hsnap ho hfused => Dev.winWrite_marked v h hfree hseq hsnap ho hfused⟩

end Sys2Proof.Machine

namespace Sys2Proof.Machine

/-! Design memory ports (R127, R129, R131): a write lands in its entry, a read is captured with its event and delivered once. -/

theorem setBitsAt_lt {v lo w x k : Nat} (hv : v < 2 ^ k) (h : lo + w ≤ k) : setBitsAt v lo w x < 2 ^ k := by
  refine Nat.lt_pow_two_of_testBit _ fun j hj => ?_
  have hjv : v.testBit j = false := Nat.testBit_lt_two_pow (Nat.lt_of_lt_of_le hv (Nat.pow_le_pow_right (by decide) hj))
  simp [setBitsAt, Nat.testBit_or, Nat.testBit_shiftLeft, Nat.testBit_shiftRight, Nat.testBit_mod_two_pow, show lo + w ≤ j by omega, hjv,
    show lo + w + (j - (lo + w)) = j by omega, show ¬ j < lo by omega, show ¬ j - lo < w by omega]

theorem toNat_freshEcc {w v : Nat} (h : v < 2 ^ w) : (freshEcc w v).data.toNat = v := by
  simp [freshEcc, Nat.mod_eq_of_lt h]

namespace Dev

/-- An entry within a row's size lies within its 96 bits. -/
theorem entry_in_row {w f : Nat} (h : f < perRow w) : f * w + w ≤ 96 := by
  unfold perRow at h
  split at h
  · omega
  · calc f * w + w = (f + 1) * w := (Nat.succ_mul f w).symm
      _ ≤ 96 / w * w := Nat.mul_le_mul_right w h
      _ ≤ 96 := Nat.div_mul_le_self 96 w

theorem rowEcc_setRow_self (d : Dev) (k : Nat) (v : Ecc 96) : (d.setRow k v).rowEcc k = v := SMap.get_set_self ..
theorem rowEcc_setRow_ne (d : Dev) {k j : Nat} (v : Ecc 96) (h : j ≠ k) : (d.setRow k v).rowEcc j = d.rowEcc j := SMap.get_set_ne _ _ _ _ _ h

theorem mergeEntry_outside (d : Dev) (n m a v : Nat) (h : 8192 * perRow (d.g (pCLU n) (CLU_DMEM_CFG_WIDTH m)) ≤ a) : d.mergeEntry n m a v = d :=
  if_pos h

theorem mergeEntry_sound (d : Dev) {n m a : Nat} (v : Nat) (ha : a < 8192 * perRow (d.g (pCLU n) (CLU_DMEM_CFG_WIDTH m)))
    (h : secdedCheck 96 103 (d.rowEcc (ixRow n m (a % 8192))).data.toNat (d.rowEcc (ixRow n m (a % 8192))).chk.toNat = .ok) :
    d.mergeEntry n m a v = d.setRow (ixRow n m (a % 8192)) (freshEcc 96 (setBitsAt (d.rowEcc (ixRow n m (a % 8192))).data.toNat
      (a / 8192 * d.g (pCLU n) (CLU_DMEM_CFG_WIDTH m)) (d.g (pCLU n) (CLU_DMEM_CFG_WIDTH m)) v)) := by
  simp only [mergeEntry, if_neg (Nat.not_le.2 ha), h]

theorem landWrites_one {d : Dev} {n m a v : Nat} (h : (d.cluAt n).dwr = [⟨m, a, v⟩]) :
    d.landWrites n = (d.modClu n fun c => { c with dwr := [] }).mergeEntry n m a v := by
  simp [landWrites, h]

/-- One outstanding write to a sound row lands there, with fresh check bits (R129). -/
theorem landWrites_sound {d : Dev} {n m a v : Nat} (hw : (d.cluAt n).dwr = [⟨m, a, v⟩])
    (ha : a < 8192 * perRow (d.g (pCLU n) (CLU_DMEM_CFG_WIDTH m)))
    (h : secdedCheck 96 103 (d.rowEcc (ixRow n m (a % 8192))).data.toNat (d.rowEcc (ixRow n m (a % 8192))).chk.toNat = .ok) :
    d.landWrites n = (d.modClu n fun c => { c with dwr := [] }).setRow (ixRow n m (a % 8192))
      (freshEcc 96 (setBitsAt (d.rowEcc (ixRow n m (a % 8192))).data.toNat
        (a / 8192 * d.g (pCLU n) (CLU_DMEM_CFG_WIDTH m)) (d.g (pCLU n) (CLU_DMEM_CFG_WIDTH m)) v)) :=
  (landWrites_one hw).trans (mergeEntry_sound (d.modClu n fun c => { c with dwr := [] }) v ha h)

theorem cluAt_modClu_self (d : Dev) (n : Nat) (f : Clu → Clu) : (d.modClu n f).cluAt n = f (d.cluAt n) := cluAt_setClu_self ..

theorem testBit_bitsIn (d : Dev) {n t a w j : Nat} (ha : a + w ≤ 0x1000) (hj : j < w) : (d.bitsIn n t a w).testBit j = d.tss n t (a + j) := by
  have hin : a + j < 0x1000 := by omega
  rw [bitsIn, fold_bits]
  simp [hj, hin]

theorem readRow_ok {d : Dev} {k : Nat} (n : Nat) (h : secdedCheck 96 103 (d.rowEcc k).data.toNat (d.rowEcc k).chk.toNat = .ok) :
    d.readRow n k = (d, (d.rowEcc k).data.toNat, false) := by
  simp only [readRow, h]

/-! A write event. -/

section
variable {d : Dev} {c n m e : Nat} (hport : d.g (pCLU n) (CLU_DMEM_EV_PORT m e) = 2)
include hport

theorem doEvent_write_skipped (h : d.b (pCLU n) (CLU_DMEM_EV_CEN m e) = true ∧
      d.tss c (d.g (pCLU n) (CLU_DMEM_EV_TILE m e)) (d.g (pCLU n) (CLU_DMEM_EV_COND m e)) = false) : d.doEvent c n m e = d := by
  simp [doEvent, hport, h]

theorem doEvent_write (h : ¬ (d.b (pCLU n) (CLU_DMEM_EV_CEN m e) = true ∧
      d.tss c (d.g (pCLU n) (CLU_DMEM_EV_TILE m e)) (d.g (pCLU n) (CLU_DMEM_EV_COND m e)) = false)) :
    let w := d.g (pCLU n) (CLU_DMEM_CFG_WIDTH m); let t := d.g (pCLU n) (CLU_DMEM_EV_TILE m e); let dst := d.g (pCLU n) (CLU_DMEM_EV_DATA m e)
    d.doEvent c n m e = d.modClu n fun x => { x with dwr := x.dwr ++ [⟨m, d.wss c t (d.g (pCLU n) (CLU_DMEM_EV_ADDR m e)) % 2 ^ 20,
      if d.b (pCLU n) (CLU_DMEM_EV_MODE m e) = true then d.bitsIn c t dst w else d.wssRun c t dst ((w + 31) / 32) % 2 ^ w⟩] } := by
  intro w t dst
  simp only [doEvent, hport, beq_self_eq_true, if_true, Bool.and_eq_true, Bool.not_eq_true', h, if_false]
  rfl

end

/-- A read event captures its entry, or zero past the end (R129, R131). -/
theorem doEvent_read {d : Dev} {c n m e : Nat} (hport : d.g (pCLU n) (CLU_DMEM_EV_PORT m e) ≠ 2) :
    let w := d.g (pCLU n) (CLU_DMEM_CFG_WIDTH m); let t := d.g (pCLU n) (CLU_DMEM_EV_TILE m e)
    let a := d.wss c t (d.g (pCLU n) (CLU_DMEM_EV_ADDR m e)) % 2 ^ 20; let row := d.rowEcc (ixRow n m (a % 8192))
    (8192 * perRow w ≤ a ∨ secdedCheck 96 103 row.data.toNat row.chk.toNat = .ok) →
    d.doEvent c n m e = d.modClu n fun x => { x with drd := x.drd ++ [⟨m, e, d.b (pCLU n) (CLU_DMEM_EV_MODE m e), t, d.g (pCLU n) (CLU_DMEM_EV_DATA m e), w,
      if 8192 * perRow w ≤ a then 0 else bitsAt row.data.toNat (a / 8192 * w) w⟩] } := by
  intro w t a row h
  simp only [doEvent, beq_false_of_ne hport, Bool.false_eq_true, if_false]
  by_cases hout : 8192 * perRow w ≤ a
  · simp only [w, t, a] at hout
    simp only [hout, if_true, w, t, a]
  · have hok := readRow_ok n (h.resolve_left hout)
    simp only [w, t, a] at hout hok
    simp only [hout, if_false, hok, w, t, a, row]

theorem blockClusters_unfused {d : Dev} {i c : Nat} (h : (d.ptnAt i).fusedMask.testBit (c / 2) = false) : d.blockClusters i c = [c] := by
  simp [blockClusters, h]

/-- The reads of an unfused cluster are delivered to its tile, each once, by rank, and no longer outstanding (R129). -/
theorem takeReads_unfused {d : Dev} {i c : Nat} (h : (d.ptnAt i).fusedMask.testBit (c / 2) = false) (hr : ∀ r ∈ (d.cluAt c).drd, r.m < 8 ∧ r.e < 16) :
    (∀ x, x ∈ (d.takeReads i c).2 ↔ ∃ r ∈ (d.cluAt c).drd, x ∈ readWrites c r) ∧ ((d.takeReads i c).1.cluAt c).drd = [] := by
  have hns := blockClusters_unfused h
  refine ⟨fun x => ?_, ?_⟩
  · simp only [takeReads, hns, List.flatMap_cons, List.flatMap_nil, List.append_nil, beq_self_eq_true, if_true, List.mem_flatMap, List.mem_map,
      List.mem_filter, List.mem_range]
    constructor
    · rintro ⟨r, ⟨k, -, y, ⟨⟨s, hs, rfl⟩, -⟩, rfl⟩, hx⟩
      exact ⟨_, hs, hx⟩
    · rintro ⟨r, hmem, hx⟩
      obtain ⟨hm, he⟩ := hr r hmem
      exact ⟨r, ⟨255 - (r.m * 16 + r.e), by omega, (r.m * 16 + r.e, r), ⟨⟨r, hmem, rfl⟩, by simp; omega⟩, rfl⟩, hx⟩
  · simp only [takeReads, hns, each_cons, each_nil, cluAt_modClu_self]

end Dev

/-- Settles O25: a row with valid check bits is rewritten with the entry alone changed, and the fresh check bits are valid. -/
theorem designMemoryPortEvents : Obligations.DesignMemoryPortEvents := by
  refine ⟨fun d n m a v => ?landed, Dev.mergeEntry_outside, fun d c n m e hport => ?write, fun d c n m e => Dev.doEvent_read,
    fun d i c => Dev.takeReads_unfused⟩
  case landed =>
    intro w k row ha hdwr hok e
    have hfit : a / 8192 * w + w ≤ 96 := Dev.entry_in_row (Nat.div_lt_of_lt_mul ha)
    have hlt : setBitsAt row.data.toNat (a / 8192 * w) w v < 2 ^ 96 := setBitsAt_lt row.data.isLt hfit
    have he : e = (d.modClu n fun c => { c with dwr := [] }).setRow k (freshEcc 96 (setBitsAt row.data.toNat (a / 8192 * w) w v)) :=
      Dev.landWrites_sound hdwr ha hok
    have hrow : e.rowEcc k = freshEcc 96 (setBitsAt row.data.toNat (a / 8192 * w) w v) := by rw [he, Dev.rowEcc_setRow_self]
    have hdata : (e.rowEcc k).data.toNat = setBitsAt row.data.toNat (a / 8192 * w) w v := by rw [hrow, toNat_freshEcc hlt]
    rw [hdata]
    refine ⟨Dev.bits_set .., ?_, fun f _ hne => Dev.bits_set_ne _ _ _ _ _ ?_, fun j hj => ?_, ?_, ?_⟩
    · rw [← hdata, hrow]
      exact Dev.fresh_ok _ hlt
    · obtain hlt | hgt := Nat.lt_or_gt_of_ne hne
      · exact .inl (Nat.succ_mul f w ▸ Nat.mul_le_mul_right w hlt)
      · exact .inr (Nat.succ_mul (a / 8192) w ▸ Nat.mul_le_mul_right w hgt)
    · rw [he, Dev.rowEcc_setRow_ne _ _ hj]
      rfl
    · rw [he]
      exact congrArg Clu.dwr (d.cluAt_modClu_self n fun c => { c with dwr := [] })
    · rw [he]
      rfl
  case write =>
    intro w t dst
    split
    case isTrue h => exact Dev.doEvent_write_skipped hport h
    case isFalse h =>
      refine ⟨_, Dev.doEvent_write hport h, fun hword => if_neg (by simp [hword]), fun hbit hdst j hj => ?_⟩
      rw [if_pos hbit, Dev.testBit_bitsIn d hdst hj]

end Sys2Proof.Machine

namespace Sys2Proof.Machine

/-! Settled freezes, table writes and write-backs (R48, R78, R108, R133, R143). -/

section
variable (p : Fin 16) (n : Fin 64) (s : State)

theorem exec_freezeSettled : exec (.freezeSettled p) s = main s fun d => d.doFreezeSettled p := rfl
theorem exec_seqTableWrite (off : Nat) (v : W32) :
    exec (.seqTableWrite p off v) s = main s fun d => d.atPtn p fun d => d.doSeqTableWrite p off v := rfl
theorem exec_correctedWordWriteBack (walu : Bool) (t : Fin 32) (unit : Fin 64) (a : Fin 256) :
    exec (.correctedWordWriteBack n walu t unit a) s = main s fun d => d.doWriteBack n walu t unit a := rfl
theorem exec_dmemRowWriteBack (m : Fin 8) (row : Fin 8192) :
    exec (.dmemRowWriteBack n m row) s = main s fun d => d.doRowWriteBack n m row := rfl

end

namespace Dev

/-- A freeze whose far accesses have settled shows as FROZEN with its cause; the windows are forgotten, and a selected cause saves (R143, R154). -/
theorem doFreezeSettled_settled {d : Dev} {i c : Nat} (hset : (d.ptnAt i).settle = some c) (hfar : d.farSettled i = true) (hst : d.seqState i = 1) :
    d.doFreezeSettled i =
      let e := ((d.p (pPTN i) PTN_SEQ_STATUS_STATE 2).p (pPTN i) PTN_SEQ_STATUS_FREEZE_PENDING 0).modPtn i fun x => { x with settle := none, pend := [] }
      let e := e.p (pPTN i) PTN_SEQ_STATUS_FREEZE_CAUSE c
      let e := ({ e.tick with st := (e.execClusters i).foldl (fun s n => s.forgetWin n (e.fresh + 1)) e.st } : Dev).frozenIrq i
      if 1 ≤ c && (e.g (pPTN i) PTN_SNAP_CFG_AUTO).testBit (c - 1) then e.doSnapSave i else e := by
  simp only [doFreezeSettled, hset, hfar, hst, Bool.not_true, ne_eq, not_true_eq_false, decide_false, Bool.or_self, Bool.false_eq_true, if_false]
  rfl

/-! A write to an offset of the tables. -/

section
variable {d : Dev} {i off : Nat} (v : W32) (hlo : 0x200 ≤ off) (hhi : off < 0x600) (hal : off % 4 = 0)
include hlo hhi hal

theorem doSeqTableWrite_stored (hst : d.seqState i = 0 ∨ d.seqState i = 2) :
    d.doSeqTableWrite i off v = (d.writeWord (pPTN i) off v.toNat fldsPTN).dropSamples i := by
  have hopen : (d.seqState i == 0 || d.seqState i == 2) = true := by simpa using hst
  simp [doSeqTableWrite, hlo, hhi, hal, hopen]

theorem doSeqTableWrite_refused (hst : d.seqState i = 1 ∨ d.seqState i = 3) :
    d.doSeqTableWrite i off v = (d.p (pPTN i) PTN_SEQ_STATUS_CMD_ERR 8).irq (pPTN i) 2 := by
  have hclosed : (d.seqState i == 0 || d.seqState i == 2) = false := by
    obtain h | h := hst <;> simp [h]
  simp [doSeqTableWrite, hlo, hhi, hal, hclosed, cmdErr]

end

/-! A corrected word or row that is still correctable is stored anew. -/

theorem doWriteBack_bp {d : Dev} {n t unit a v x : Nat} (h : (d.cluAt n).bpBack.contains (ixBp n t unit a) = true)
    (hce : secdedCheck 80 87 (d.bpWord (ixBp n t unit a)).data.toNat (d.bpWord (ixBp n t unit a)).chk.toNat = .ce v x) :
    d.doWriteBack n false t unit a =
      let e := (d.modClu n fun c => { c with bpBack := c.bpBack.filter (· ≠ ixBp n t unit a) }).setBp (ixBp n t unit a) (freshEcc 80 v)
      let e := e.add (pCLU n) CLU_BPI_CE_COUNT_COUNT 1
      e.cluIrq n 0 (e.bpiLast n) := by
  have hword (f : Clu → Clu) (k : Nat) : (d.modClu n f).bpWord k = d.bpWord k := rfl
  simp only [doWriteBack, h, hword, hce, Bool.not_true, Bool.false_eq_true, if_false]

theorem doWriteBack_walu {d : Dev} {n t unit a v x : Nat} (h : (d.cluAt n).wlBack.contains (ixWa n t (unit % 2) a) = true)
    (hce : secdedCheck 96 103 (d.waWord (ixWa n t (unit % 2) a)).data.toNat (d.waWord (ixWa n t (unit % 2) a)).chk.toNat = .ce v x) :
    d.doWriteBack n true t unit a =
      let e := (d.modClu n fun c => { c with wlBack := c.wlBack.filter (· ≠ ixWa n t (unit % 2) a) }).setWa (ixWa n t (unit % 2) a) (freshEcc 96 v)
      let e := e.add (pCLU n) CLU_WLI_CE_COUNT_COUNT 1
      e.cluIrq n 2 (e.wliLast n) := by
  have hword (f : Clu → Clu) (k : Nat) : (d.modClu n f).waWord k = d.waWord k := rfl
  simp only [doWriteBack, h, hword, hce, Bool.not_true, Bool.false_eq_true, if_false, if_true]

theorem doRowWriteBack_corrected {d : Dev} {n m row v x : Nat} (h : (d.cluAt n).rowBack.contains (ixRow n m row) = true)
    (hce : secdedCheck 96 103 (d.rowEcc (ixRow n m row)).data.toNat (d.rowEcc (ixRow n m row)).chk.toNat = .ce v x) :
    d.doRowWriteBack n m row =
      ((d.modClu n fun c => { c with rowBack := c.rowBack.filter (· ≠ ixRow n m row) }).setRow (ixRow n m row) (freshEcc 96 v)).rowBackDone n := by
  have hrow (f : Clu → Clu) (k : Nat) : (d.modClu n f).rowEcc k = d.rowEcc k := rfl
  simp only [doRowWriteBack, h, hrow, hce, Bool.not_true, Bool.false_eq_true, if_false]

end Dev

/-- Settles O28: each command passes its one guard, and the meaning behind it is the state written out. -/
theorem settlingTablesAndWriteBacks : Obligations.SettlingTablesAndWriteBacks := by
  refine ⟨?settled, ?stored, ?refused, ?bp, ?walu, ?row⟩
  case settled =>
    intro d q p c hact hset hfar hst
    rw [exec_freezeSettled, main_active d q _ hact, Dev.doFreezeSettled_settled hset hfar hst]
  case stored =>
    intro d q p off v hd hlo hhi hal hst
    rw [exec_seqTableWrite, main_atPtn_takes q _ hd, Dev.doSeqTableWrite_stored v hlo hhi hal hst]
  case refused =>
    intro d q p off v hd hlo hhi hal hst
    rw [exec_seqTableWrite, main_atPtn_takes q _ hd, Dev.doSeqTableWrite_refused v hlo hhi hal hst]
  case bp =>
    intro d q n t unit a v x hact h hce
    rw [exec_correctedWordWriteBack, main_active d q _ hact, Dev.doWriteBack_bp h hce]
  case walu =>
    intro d q n t unit a v x hact h hce
    rw [exec_correctedWordWriteBack, main_active d q _ hact, Dev.doWriteBack_walu h hce]
  case row =>
    intro d q n m row v x hact h hce
    rw [exec_dmemRowWriteBack, main_active d q _ hact, Dev.doRowWriteBack_corrected h hce]

end Sys2Proof.Machine

namespace Sys2Proof.Machine

/-! Snapshot commands (R147 to R154). -/

section
variable (p : Fin 16) (s : State)

theorem exec_snapSave : exec (.snapSave p) s = main s fun d => d.atPtn p fun d => d.doSnapSave p := rfl
theorem exec_snapSaveComplete : exec (.snapSaveComplete p) s = main s fun d => d.doSnapSaveComplete p := rfl
theorem exec_snapRestore : exec (.snapRestore p) s = main s fun d => d.atPtn p fun d => d.doSnapRestore p := rfl
theorem exec_snapCheckComplete : exec (.snapCheckComplete p) s = main s fun d => d.doSnapCheckComplete p := rfl
theorem exec_snapRestoreComplete : exec (.snapRestoreComplete p) s = main s fun d => d.doSnapRestoreComplete p := rfl
theorem exec_snapAbort : exec (.snapAbort p) s = main s fun d => d.atPtn p fun d => d.doSnapAbort p := rfl

end

namespace Dev

/-! Waking clusters writes fields of the power unit's page alone (R381, R382). -/

theorem g_setPower (d : Dev) {n base : Nat} (st : Nat) (f : Fld) (hn : n < 64) (hb : 0x30000 ≤ base) : (d.setPower n st).g base f = d.g base f := by
  unfold setPower
  rw [g_p_ne _ _ _ _ _ _ (by simp only [Fld.bit, PMU_QSTATE_Q, pPMU]; omega), g_p_ne _ _ _ _ _ _ (by simp only [Fld.bit, PMU_CSTATE_CLU, pPMU]; omega)]

theorem g_wake (d : Dev) {n base : Nat} (f : Fld) (hn : n < 64) (hb : 0x30000 ≤ base) : (d.wake n).g base f = d.g base f := by
  unfold wake
  split
  · exact d.g_setPower 0 f hn hb
  · rfl

theorem lt_of_mem_clustersOf {d : Dev} {i n : Nat} (h : n ∈ d.clustersOf i) : n < 64 := List.mem_range.1 (List.mem_filter.1 h).1

theorem g_wakeAll (d : Dev) (i : Nat) {base : Nat} (f : Fld) (hb : 0x30000 ≤ base) : (d.wakeAll i).g base f = d.g base f := by
  have hlt : ∀ n ∈ d.clustersOf i, n < 64 := fun n => lt_of_mem_clustersOf
  unfold wakeAll
  generalize d.clustersOf i = ns at hlt
  induction ns generalizing d with
  | nil => rfl
  | cons n ns ih =>
    rw [each_cons, ih _ fun m hm => hlt m (List.mem_cons_of_mem _ hm), d.g_wake f (hlt n List.mem_cons_self) hb]

/-- An operation that the arbiter grants starts in its STATE with PROGRESS 0, the clusters ON (R151). -/
theorem snapBegin_granted {d : Dev} {i : Nat} (st : Nat) (h : (d.mntRequest (mntId 5 i 0) 0 0x10000 false).2 = none) :
    d.snapBegin i st =
      (((d.mntRequest (mntId 5 i 0) 0 0x10000 false).1.p (pPTN i) PTN_SNAP_STATUS_STATE st).p (pPTN i) PTN_SNAP_STATUS_PROGRESS 0).wakeAll i := by
  simp only [snapBegin, h]

theorem snapState_snapBegin {d : Dev} {i st : Nat} (h : (d.mntRequest (mntId 5 i 0) 0 0x10000 false).2 = none) (hst : st < 4) :
    (d.snapBegin i st).g (pPTN i) PTN_SNAP_STATUS_STATE = st := by
  have hp : 0x30000 ≤ pPTN i := Nat.le_add_right ..
  rw [snapBegin_granted st h, g_wakeAll _ _ _ hp, g_p_same _ _ _ _ _ (by decide), g_p_self]
  exact Nat.mod_eq_of_lt hst

/-! SAVE and RESTORE. -/

theorem doSnapSave_busy {d : Dev} {i : Nat} (h : d.snapBusy i = true) : d.doSnapSave i = d.p (pPTN i) PTN_SNAP_STATUS_RESULT 1 := if_pos h

section
variable {d : Dev} {i : Nat} (hfree : d.snapBusy i = false)
include hfree

theorem doSnapSave_refused (h : d.snapRefusal i true ≠ 0) : d.doSnapSave i = d.snapEnd i (d.snapRefusal i true) := by
  simp [doSnapSave, startSave, hfree, h]

/-- A save that starts writes its header first, with COMPLETE 0 (R149). -/
theorem doSnapSave_starts (h : d.snapRefusal i true = 0) (hgrant : (d.mntRequest (mntId 5 i 0) 0 0x10000 false).2 = none) :
    d.doSnapSave i = (d.snapBegin i 1).snapPut i ((d.snapBegin i 1).g (pPTN i) PTN_SNAP_BASE_ADDR) ((d.snapBegin i 1).snapHead i false) := by
  simp [doSnapSave, startSave, hfree, h, snapState_snapBegin hgrant]

theorem doSnapRestore_starts (h : d.snapRefusal i false = 0) : d.doSnapRestore i = d.snapBegin i 2 := by
  simp [doSnapRestore, hfree, h]

end

/-! The completions act in the STATE of their own operation. -/

theorem doSnapSaveComplete_saving {d : Dev} {i : Nat} (h : d.g (pPTN i) PTN_SNAP_STATUS_STATE = 1) :
    d.doSnapSaveComplete i =
      let e := d.saveSections i
      let e := if e.b (pPTN i) PTN_SNAP_CFG_FAR then e.copyRegions i true false else e
      let e := (e.p (pPTN i) PTN_SNAP_STATUS_PROGRESS (e.clustersOf i).length).snapPut i (e.g (pPTN i) PTN_SNAP_BASE_ADDR) (e.snapHead i true)
      (e.p (pPTN i) PTN_SNAP_CYCLE_COUNT (e.g (pPTN i) PTN_CYCLE_COUNT)).snapEnd i 0 :=
  if_neg (not_not_intro h)

theorem doSnapCheckComplete_checking {d : Dev} {i : Nat} (h : d.g (pPTN i) PTN_SNAP_STATUS_STATE = 2) :
    d.doSnapCheckComplete i =
      let r := d.snapCheck i [d.g (pPTN i) PTN_IMAGE_ID_ID, d.g (pPTN i) PTN_ORIGIN_ID] (!(d.ptnAt i).retarget)
      if r.2 ≠ 0 then r.1.snapEnd i r.2 else (r.1.p (pPTN i) PTN_SNAP_STATUS_STATE 3).p (pPTN i) PTN_SNAP_STATUS_PROGRESS 0 :=
  if_neg (not_not_intro h)

section
variable {d : Dev} {i : Nat} (h : d.g (pPTN i) PTN_SNAP_STATUS_STATE = 3) (hret : (d.ptnAt i).retarget = false)
include h hret

/-- The write pass of a partition that was FROZEN, where no freeze came late, leaves it so and ends. -/
theorem doSnapRestoreComplete_frozen (hst : d.seqState i = 2) (hpend : ((d.loadSnapshot i).ptnAt i).pend = []) :
    d.doSnapRestoreComplete i = ((d.loadSnapshot i).p (pPTN i) PTN_SNAP_STATUS_PROGRESS (d.clustersOf i).length).snapEnd i 0 := by
  simp [doSnapRestoreComplete, h, hret, hst, hpend]

/-- That of a partition that was STOPPED shows that it is FROZEN now. -/
theorem doSnapRestoreComplete_stopped (hst : d.seqState i = 0)
    (hpend : ((((d.loadSnapshot i).p (pPTN i) PTN_SNAP_STATUS_PROGRESS (d.clustersOf i).length).frozenIrq i).ptnAt i).pend = []) :
    d.doSnapRestoreComplete i = (((d.loadSnapshot i).p (pPTN i) PTN_SNAP_STATUS_PROGRESS (d.clustersOf i).length).frozenIrq i).snapEnd i 0 := by
  simp [doSnapRestoreComplete, h, hret, hst, hpend]

end

/-! ABORT ends what runs, by its STATE (R152). -/

theorem doSnapAbort_saving {d : Dev} {i : Nat} (h : d.g (pPTN i) PTN_SNAP_STATUS_STATE = 1) : d.doSnapAbort i = (d.cutSave i).snapEnd i 10 := by
  simp only [doSnapAbort, h]

theorem doSnapAbort_checking {d : Dev} {i : Nat} (h : d.g (pPTN i) PTN_SNAP_STATUS_STATE = 2) : d.doSnapAbort i = d.snapEnd i 10 := by
  simp only [doSnapAbort, h]

theorem doSnapAbort_writing {d : Dev} {i : Nat} (h : d.g (pPTN i) PTN_SNAP_STATUS_STATE = 3) :
    d.doSnapAbort i =
      ((d.scrambleState i ((leAt (d.snapGet i (d.g (pPTN i) PTN_SNAP_BASE_ADDR) 256).2 0x34 4).testBit 0)).unload i).snapEnd i 10 := by
  simp only [doSnapAbort, h]

end Dev

/-- Settles O34: waking the clusters keeps the STATE that a granted operation starts in, and every later command acts by that STATE. -/
theorem snapshotCommandsTakeEffect : Obligations.SnapshotCommandsTakeEffect := by
  refine ⟨?save, ?saveRefused, ?saveBusy, ?saveComplete, ?restore, ?checkComplete, ?restoreFrozen, ?restoreStopped,
    ?abortSave, ?abortCheck, ?abortWrite⟩
  case save =>
    intro d q p hd hfree h hgrant
    rw [exec_snapSave, main_atPtn_takes q _ hd, Dev.doSnapSave_starts hfree h hgrant, Dev.snapBegin_granted 1 hgrant]
  case saveRefused =>
    intro d q p hd hfree h
    rw [exec_snapSave, main_atPtn_takes q _ hd, Dev.doSnapSave_refused hfree h]
  case saveBusy =>
    intro d q p hd hbusy
    rw [exec_snapSave, main_atPtn_takes q _ hd, Dev.doSnapSave_busy hbusy]
  case saveComplete =>
    intro d q p hact h
    rw [exec_snapSaveComplete, main_active d q _ hact, Dev.doSnapSaveComplete_saving h]
  case restore =>
    intro d q p hd hfree h hgrant
    rw [exec_snapRestore, main_atPtn_takes q _ hd, Dev.doSnapRestore_starts hfree h, Dev.snapBegin_granted 2 hgrant]
  case checkComplete =>
    intro d q p hact h
    rw [exec_snapCheckComplete, main_active d q _ hact, Dev.doSnapCheckComplete_checking h]
  case restoreFrozen =>
    intro d q p hact h hret hst hpend
    rw [exec_snapRestoreComplete, main_active d q _ hact, Dev.doSnapRestoreComplete_frozen h hret hst hpend]
  case restoreStopped =>
    rintro d q p _ hact h hret hst rfl hpend
    rw [exec_snapRestoreComplete, main_active d q _ hact, Dev.doSnapRestoreComplete_stopped h hret hst hpend]
  case abortSave =>
    intro d q p hd h
    rw [exec_snapAbort, main_atPtn_takes q _ hd, Dev.doSnapAbort_saving h]
  case abortCheck =>
    intro d q p hd h
    rw [exec_snapAbort, main_atPtn_takes q _ hd, Dev.doSnapAbort_checking h]
  case abortWrite =>
    intro d q p hd h
    rw [exec_snapAbort, main_atPtn_takes q _ hd, Dev.doSnapAbort_writing h]

end Sys2Proof.Machine

namespace Sys2Proof.Machine

/-! Lockstep records, the time base, the system-wide freeze and the common strobe (R155 to R158, R179, R186 to R193). -/

section
variable (s : State)

theorem exec_lockstepRecord (r : BitVec 128) : exec (.lockstepRecord r) s = main s fun d => d.doLockstepRecord r := rfl
theorem exec_partnerTimeout : exec .partnerTimeout s = main s fun d => d.doPartnerTimeout := rfl
theorem exec_beaconSend : exec .beaconSend s = main s fun d => d.doBeaconSend := rfl
theorem exec_beacon (g : Fin 16) (ns : W64) (frac : BitVec 16) (hops : Nat) (master : Fin 512) (intact : Bool) :
    exec (.beacon g ns frac hops master intact) s = main s fun d => d.doBeacon g ns.toNat frac.toNat hops master intact := rfl
theorem exec_beaconTimeout : exec .beaconTimeout s = main s fun d => d.doBeaconTimeout := rfl
theorem exec_tsbHoldEnd : exec .tsbHoldEnd s = main s fun d => d.doHoldEnd := rfl
theorem exec_tsbSet (v : W64) : exec (.tsbSet v) s = main s fun d => if d.full then d.doTsbSet v.toNat else d := rfl
theorem exec_sysFreeze : exec .sysFreeze s = main s fun d => if d.full then d.raiseSysFreeze else d := rfl
theorem exec_freezeMsg (g : Fin 16) (origin : Fin 512) (seq : Byte) (intact : Bool) :
    exec (.freezeMsg g origin seq intact) s = main s fun d => d.doFreezeMsg g origin seq.toNat intact := rfl
theorem exec_strobe : exec .strobe s = main s fun d => if d.full then d.strobeReq 2 else d := rfl
theorem exec_strobeLatch : exec .strobeLatch s = main s fun d => d.doStrobeLatch := rfl

end

/-- A command that only the full function answers acts where it is presented, and settles (R194). -/
theorem main_full {d : Dev} (q : List Instr) (f : Dev → Dev) (h : d.Up) : main ⟨d, q⟩ (fun d => if d.full then f d else d) = .next ⟨(f d).finish, q⟩ := by
  rw [main_active d q _ h.1, if_pos h.2]

/-- A command with no effect on the device only settles, whether the main domain runs or not. -/
theorem main_unchanged {d : Dev} (q : List Instr) {f : Dev → Dev} (h : f d = d) : main ⟨d, q⟩ f = .next ⟨d.finish, q⟩ := by
  cases hact : d.active with
  | true => rw [main_active d q _ hact, h]
  | false => exact main_idle d q _ hact

namespace Dev

/-! Records of the watched partition and a silent partner (R186 to R188). -/

section
variable {d : Dev} {r : BitVec 128} (hlink : d.lscLink = true) (hen : d.b pLSC LSC_CFG_EN = true)
  (hptn : bitsAt r.toNat 112 4 = d.g pLSC LSC_CFG_PARTITION)
include hlink hen hptn

theorem doLockstepRecord_signature (htype : bitsAt r.toNat 116 4 = 1) :
    d.doLockstepRecord r = compareSigs { d with sys := { d.sys with theirs := d.sys.theirs ++ [(bitsAt r.toNat 64 48, bitsAt r.toNat 0 64)] } } := by
  simp [doLockstepRecord, hlink, hen, hptn, htype]

theorem doLockstepRecord_mismatch (htype : bitsAt r.toNat 116 4 = 2) :
    d.doLockstepRecord r =
      if (d.on pLSC LSC_STATUS_REMOTE_MISMATCH).b pLSC LSC_CFG_MODE then d.on pLSC LSC_STATUS_REMOTE_MISMATCH
      else (d.on pLSC LSC_STATUS_REMOTE_MISMATCH).lscAct := by
  simp [doLockstepRecord, hlink, hen, hptn, htype]

end

theorem doPartnerTimeout_lost {d : Dev} (hen : d.b pLSC LSC_CFG_EN = true) :
    d.doPartnerTimeout =
      let e := ((d.on pLSC LSC_STATUS_PARTNER_LOST).p pLSC LSC_STATUS_LAG_HOLD 0).irq pLSC 1
      if e.b pLSC LSC_CFG_LOST_MODE then { e with sys := { e.sys with mine := [] } } else e.freezeReq (e.g pLSC LSC_CFG_PARTITION) 7 :=
  if_neg (by simp [hen])

/-! The time base: the master's beacons, a slave's upstream, the end of a hold, TSB.SET (R191 to R193). -/

theorem isSlave_iff (d : Dev) : d.isSlave = true ↔ d.g pTSB TSB_CFG_ROLE = 2 := beq_iff_eq

theorem doBeaconSend_master {d : Dev} (h : d.g pTSB TSB_CFG_ROLE = 1) : d.doBeaconSend = d.each d.upLinks fun x g => x.sendBeacon g d.time 0 :=
  if_pos (beq_iff_eq.2 h)

/-- A slave notes the beacon of a link (R191). -/
def hearBeacon (d : Dev) (gi hops master : Nat) : Dev :=
  let d := { d with sys := { d.sys with heard := SMap.put d.sys.heard gi (hops, master) } }
  if d.sys.heard.any (fun x => x.2.2 ≠ master) then d.on pTSB TSB_STATUS_MULTI_MASTER else d

/-- A slave follows the beacon of its best link, and passes it on over the others (R191, R192). -/
theorem doBeacon_followed {d : Dev} {gi hops master : Nat} (ns frac : Nat) (hrole : d.g pTSB TSB_CFG_ROLE = 2)
    (hup : d.g (pLGRP gi) LGRP_STATUS_STATE = 4) (hbest : (d.hearBeacon gi hops master).bestUpstream = some gi) :
    d.doBeacon gi ns frac hops master true =
      let e := d.hearBeacon gi hops master
      let t := ns * 65536 + frac + e.linkLatency gi
      let e := ((e.p pTSB TSB_STATUS_UPSTREAM gi).p pTSB TSB_STATUS_ON_STRING 0).on pLNK LNK_SYS_STATUS_FREQ_LOCK
      let e := (e.p pCKG CKG_STATUS_HOLDOVER 0).followTime t (e.g (pLGRP gi) LGRP_STATUS_VER == 1)
      e.each (e.upLinks.filter (· ≠ gi)) fun x o => x.sendBeacon o t (hops + 1) := by
  rw [doBeacon, if_neg (not_not_intro hup), if_neg (by decide), if_neg (by simp [isSlave, hrole])]
  exact if_neg (not_not_intro hbest)

theorem doBeaconTimeout_slave {d : Dev} (h : d.g pTSB TSB_CFG_ROLE = 2) :
    d.doBeaconTimeout =
      let e : Dev := { d with sys := { d.sys with heard := [], inRow := 0 } }
      if e.b pTSB TSB_CFG_STRING_FB then e.on pTSB TSB_STATUS_ON_STRING else e :=
  if_pos (d.isSlave_iff.2 h)

theorem doHoldEnd_holding {d : Dev} (h : d.b pTSB TSB_STATUS_HOLDING = true) :
    d.doHoldEnd = { d.p pTSB TSB_STATUS_HOLDING 0 with time := d.time + (-d.slewTo).toNat, slewTo := 0 } := if_pos h

theorem doTsbSet_steps {d : Dev} (v : Nat) (h : d.g pTSB TSB_CFG_ROLE ≠ 2) :
    d.doTsbSet v = d.stepTime (v * 65536 + d.time % 65536) (if d.now ≤ v then 1 else 2) := if_neg fun hs => h (d.isSlave_iff.1 hs)

/-! A FREEZE message floods once (R179). -/

theorem doFreezeMsg_floods {d : Dev} {gi origin n : Nat} (hup : d.g (pLGRP gi) LGRP_STATUS_STATE = 4) (hnew : d.sys.seen.contains (origin, n) = false) :
    d.doFreezeMsg gi origin n true = d.floodFreeze origin n true := by
  have hstate : d.lgState gi = 4 := hup
  rw [doFreezeMsg, if_neg (not_not_intro hstate), if_neg (by decide), if_neg (Bool.eq_false_iff.1 hnew)]

theorem doFreezeMsg_seen {d : Dev} {origin n : Nat} (gi : Nat) (h : d.sys.seen.contains (origin, n) = true) : d.doFreezeMsg gi origin n true = d := by
  rw [doFreezeMsg, if_neg (show ¬ (!true) = true by decide), if_pos h, ite_self]

/-! SNP.STROBE.GO: where it is enabled it goes to the ring as TX_STRING says, and then waits to latch or merges with the last latch (R155, R158). -/

theorem strobeReq_off {d : Dev} (h : d.b pSNP SNP_SRC_EN_REG = false) : d.strobeReq 2 = d := by simp [strobeReq, h]

theorem strobeReq_local {d : Dev} (h : d.b pSNP SNP_SRC_EN_REG = true) (htx : d.b pSNP SNP_SRC_EN_TX_STRING = false) (hnone : d.latchAt = none) :
    d.strobeReq 2 = { d with strobeSrc := some 2 } := by
  simp [strobeReq, h, htx, hnone]

theorem strobeReq_merged {d : Dev} {t : Nat} (h : d.b pSNP SNP_SRC_EN_REG = true) (htx : d.b pSNP SNP_SRC_EN_TX_STRING = false)
    (hlast : d.latchAt = some t) (hnear : d.ticks < t + 128) : d.strobeReq 2 = d.on pSNP SNP_STATUS_MERGED := by
  simp [strobeReq, h, htx, hlast, hnear]

theorem latchAt_ringSend (d : Dev) (type addr : Nat) (bs : List Byte) : (d.ringSend type addr bs).latchAt = d.latchAt := by
  unfold ringSend
  split <;> rfl

theorem strobeReq_string {d : Dev} (h : d.b pSNP SNP_SRC_EN_REG = true) (htx : d.b pSNP SNP_SRC_EN_TX_STRING = true) (hnone : d.latchAt = none) :
    d.strobeReq 2 = { d.ringSend 5 0x1FF [] with strobeSrc := some 2 } := by
  simp [strobeReq, h, htx, latchAt_ringSend, hnone]

/-- The strobe that waits latches every page, and is the last latch (R155, R157). -/
theorem doStrobeLatch_latches {d : Dev} {src : Nat} (h : d.strobeSrc = some src) :
    d.doStrobeLatch =
      let e := allPages.foldl (fun x base => latchPage d x base ((d.g pSNP SNP_STATUS_SEQ + 1) % 65536)) d
      { ((e.p pSNP SNP_STATUS_SEQ ((d.g pSNP SNP_STATUS_SEQ + 1) % 65536)).p pSNP SNP_STATUS_LAST_SRC src).p pSNP SNP_STAMP_NS d.now with
        latchAt := some d.ticks, strobeSrc := none } := by
  simp only [doStrobeLatch, h]

theorem doStrobeLatch_none {d : Dev} (h : d.strobeSrc = none) : d.doStrobeLatch = d := by simp only [doStrobeLatch, h]

end Dev

/-- Settles O30: each command passes its guards, and its meaning is then the state written out; one that changes nothing settles as it is. -/
theorem lockstepTimeAndSystemWideCommandsTakeEffect : Obligations.LockstepTimeAndSystemWideCommandsTakeEffect := by
  refine ⟨?signature, ?mismatch, ?silent, ?beaconSend, ?beacon, ?beaconTimeout, ?holdEnd, ?set, ?sysFreeze, ?freezeMsg, ?freezeSeen,
    ?strobe, ?strobeMerged, ?strobeString, ?strobeOff, ?latch, ?latchNone⟩
  case signature =>
    intro d q r hact hlink hen hptn htype
    rw [exec_lockstepRecord, main_active d q _ hact, Dev.doLockstepRecord_signature hlink hen hptn htype]
  case mismatch =>
    intro d q r hact hlink hen hptn htype
    rw [exec_lockstepRecord, main_active d q _ hact, Dev.doLockstepRecord_mismatch hlink hen hptn htype]
  case silent =>
    intro d q hact hen
    rw [exec_partnerTimeout, main_active d q _ hact, Dev.doPartnerTimeout_lost hen]
  case beaconSend =>
    intro d q hact h
    rw [exec_beaconSend, main_active d q _ hact, Dev.doBeaconSend_master h]
  case beacon =>
    rintro d q g ns frac hops master f h hact hrole hup rfl rfl hbest
    rw [exec_beacon, main_active d q _ hact, Dev.doBeacon_followed ns.toNat frac.toNat hrole hup hbest]
    rfl
  case beaconTimeout =>
    intro d q hact h
    rw [exec_beaconTimeout, main_active d q _ hact, Dev.doBeaconTimeout_slave h]
  case holdEnd =>
    intro d q hact h
    rw [exec_tsbHoldEnd, main_active d q _ hact, Dev.doHoldEnd_holding h]
  case set =>
    intro d q v hd h
    rw [exec_tsbSet, main_full q _ hd, Dev.doTsbSet_steps _ h]
  case sysFreeze =>
    intro d q hd
    rw [exec_sysFreeze, main_full q _ hd]
    rfl
  case freezeMsg =>
    intro d q g origin seq hact hup hnew
    rw [exec_freezeMsg, main_active d q _ hact, Dev.doFreezeMsg_floods hup hnew]
  case freezeSeen =>
    intro d q g origin seq _ h
    exact (exec_freezeMsg ..).trans (main_unchanged q (Dev.doFreezeMsg_seen _ h))
  case strobe =>
    intro d q hd h htx hnone
    rw [exec_strobe, main_full q _ hd, Dev.strobeReq_local h htx hnone]
  case strobeMerged =>
    intro d q t hd h htx hlast hnear
    rw [exec_strobe, main_full q _ hd, Dev.strobeReq_merged h htx hlast hnear]
  case strobeString =>
    intro d q hd h htx hnone
    rw [exec_strobe, main_full q _ hd, Dev.strobeReq_string h htx hnone]
  case strobeOff =>
    intro d q hd h
    rw [exec_strobe, main_full q _ hd, Dev.strobeReq_off h]
  case latch =>
    intro d q src hact h
    rw [exec_strobeLatch, main_active d q _ hact, Dev.doStrobeLatch_latches h]
  case latchNone => exact fun d q h => (exec_strobeLatch ..).trans (main_unchanged q (Dev.doStrobeLatch_none h))

end Sys2Proof.Machine

namespace Sys2Proof.Machine

/-! Accesses of the cluster windows and of the HBM windows (R145, R268, R269, R421 to R425). -/

section
variable (fn : Fn) (n : Fin 64) (w : Fin 16) (off : Nat) (s : State)

theorem exec_windowRead : exec (.windowRead fn n w off) s = main s fun d => d.doWindowRead fn n w off := rfl
theorem exec_windowWrite (v : W32) : exec (.windowWrite fn n w off v) s = main s fun d => d.doWindowWrite fn n w off v.toNat := rfl
theorem exec_windowReadTimeout : exec (.windowReadTimeout fn n w off) s = main s fun d => d.doWindowTimeout fn n w off := rfl
theorem exec_bar2Read (len : Nat) : exec (.bar2Read fn off len) s = main s fun d => d.doBar2Read fn off len := rfl
theorem exec_bar2Write (bytes : List Byte) : exec (.bar2Write fn off bytes) s = main s fun d => d.doBar2Write fn off bytes := rfl
theorem exec_captureWindowRead (p : Fin 16) (len : Nat) : exec (.captureWindowRead p off len) s = main s fun d => d.doCaptureRead p off len := rfl

end

/-- A byte of a window's aperture stands on the window's page. -/
theorem page_of_aperture (n : Nat) {w off : Nat} (h : Dev.inAperture w off = true) : (pWIN n w + off) / 0x1000 * 0x1000 = pWIN n w := by
  simp only [Dev.inAperture, Bool.and_eq_true, decide_eq_true_eq] at h
  unfold pWIN pCLU
  omega

theorem pageHome_window {n w : Nat} (hn : n < 64) (hw : w < 16) : pageHome (pWIN n w) = some n := by
  have hpage : cluOf (pWIN n w) = some n := by
    unfold cluOf pWIN pCLU
    rw [if_pos (by simp; omega)]
    congr 1
    omega
  simp [pageHome, hpage]

namespace Dev

/-- The fence logic of a cluster that is not ACTIVE refuses an access that the network brings (R269). -/
theorem viaFence_fenced {d : Dev} {n : Nat} (fn : Fn) (off : Nat) (write : Bool) (fail k : Dev → Dev) (hl : d.Linked (some n)) (hn : n < 0x40)
    (hni : d.niState n ≠ 0) : d.viaFence fn (some n) off write fail k = fail (d.unreachable.accessError fn 0 off write) := by
  simp [viaFence, viaNoc_linked d fn _ 0 off write _ _ hl, hn, hni, hl.2]

section
variable {d : Dev} {fn : Fn} {n : Fin 64} {w : Fin 16} {off : Nat} (hap : inAperture w off = true) (hr : d.reach fn (pWIN n w) = .yes)
  (hl : d.Linked (some n)) (write : Bool) (k : Dev → Dev)
include hap hr hl

/-- An access to a window page that the function reaches is served where the cluster's interface is ACTIVE. -/
theorem atCluster_window (hni : d.niState n = 0) : d.atCluster fn n (pWIN n w + off) write k = k d := by
  rw [atCluster, page_of_aperture n hap, hr]
  exact viaFence_linked d fn _ _ write _ k hl fun m hm _ => by cases hm; exact hni

theorem atCluster_window_fenced (hni : d.niState n ≠ 0) :
    d.atCluster fn n (pWIN n w + off) write k =
      let e := d.unreachable.accessError fn 0 (d.barOff fn (pWIN n w + off)) write
      if write then e else e.complete fn (pWIN n w + off) 0xFFFFFFFF := by
  rw [atCluster, page_of_aperture n hap, hr]
  exact viaFence_fenced fn _ write _ k hl n.isLt hni

end

/-- The answer from a window completes where the cluster's responses reach the host. -/
theorem reply_window {d : Dev} {n : Fin 64} {w : Fin 16} {off : Nat} (fn : Fn) (v : Nat) (hap : inAperture w off = true)
    (hh : d.heard (some n) = true) : d.reply fn (pWIN n w + off) v = d.complete fn (pWIN n w + off) v :=
  reply_heard d fn _ v (by rwa [page_of_aperture n hap, pageHome_window n.isLt w.isLt])

theorem doWindowRead_aperture (d : Dev) (fn : Fn) (n : Nat) {w off : Nat} (hap : inAperture w off = true) :
    d.doWindowRead fn n w off =
      d.atCluster fn n (pWIN n w + off) false fun d => (d.winRead n w off).1.reply fn (pWIN n w + off) (d.winRead n w off).2 :=
  if_neg (by simp [hap])

theorem doWindowWrite_aperture (d : Dev) (fn : Fn) (n : Nat) {w off : Nat} (v : Nat) (hap : inAperture w off = true) :
    d.doWindowWrite fn n w off v = d.atCluster fn n (pWIN n w + off) true fun d => d.winWrite n w off v := if_neg (by simp [hap])

/-- A read of design memory of a running partition that found no free slot (R146). -/
theorem doWindowTimeout_busy {d : Dev} {fn : Fn} {n : Fin 64} {w : Fin 16} {off : Nat} (hap : inAperture w off = true)
    (hr : d.reach fn (pWIN n w) = .yes) (hni : d.niState n = 0) (hl : d.Linked (some n)) (hseq : d.cluSeq n = 1)
    (hclass : d.g (pWIN n w) WIN_WIN_SEL_CLASS = 8) :
    d.doWindowTimeout fn n w off = (d.on (pWIN n w) WIN_WIN_STATUS_BUSY).reply fn (pWIN n w + off) 0xFFFFFFFF := by
  rw [doWindowTimeout, if_neg (by simp [hap]), atCluster_window hap hr hl false _ hni]
  exact if_pos (by simp [hseq, hclass])

/-! The HBM windows: what the PF's BAR2 shows, the lower half of a VF's, and the upper half (R421 to R423). -/

theorem doBar2Read_unserved {d : Dev} {fn : Fn} {x : Nat} (n : Nat) (h : d.barServed fn = false ∨ d.bar2Size fn ≤ x) :
    d.doBar2Read fn x n = d.emit (.data fn x (List.replicate n 0xFF)) := if_pos (by simpa using h)

theorem doBar2Write_unserved {d : Dev} {fn : Fn} {x : Nat} (bs : List Byte) (h : d.barServed fn = false ∨ d.bar2Size fn ≤ x) :
    d.doBar2Write fn x bs = d := if_pos (by simpa using h)

theorem bar2_serves {d : Dev} {fn : Fn} {x : Nat} (hs : d.barServed fn = true) (hx : x < d.bar2Size fn) :
    ¬ (!d.barServed fn || decide (d.bar2Size fn ≤ x)) = true := by
  simp [hs, hx]

section
variable {d : Dev} {x : Nat} (hs : d.barServed .pf = true) (hx : x < d.pwr.pfBar2)
include hs hx

theorem doBar2Read_pf (n : Nat) :
    d.doBar2Read .pf x n = d.windowBytes .pf x (d.g pPCI PCI_BAR2_BASE_ADDR + x) n (hubReq 0x90) fun _ _ => true :=
  if_neg (bar2_serves hs hx)

theorem doBar2Write_pf (bs : List Byte) :
    d.doBar2Write .pf x bs = d.windowPut .pf x (d.g pPCI PCI_BAR2_BASE_ADDR + x) bs (hubReq 0x90) :=
  if_neg (bar2_serves hs hx)

end

section
variable {d : Dev} {i : Fin 16} {x : Nat} (hs : d.barServed (.vf i) = true)
include hs

theorem doBar2Read_vf (n : Nat) (hx : x < d.pwr.vfBar2) :
    d.doBar2Read (.vf i) x n = if d.pwr.vfBar2 / 2 ≤ x then d.doCaptureRead i (x - d.pwr.vfBar2 / 2) n
      else d.windowBytes (.vf i) x ((d.ptnAt i).quotaBase + x) n (ptnReq 0x90 i) fun _ _ => true :=
  if_neg (bar2_serves hs hx)

theorem doBar2Write_vf (bs : List Byte) (hx : x < d.pwr.vfBar2) :
    d.doBar2Write (.vf i) x bs = if d.pwr.vfBar2 / 2 ≤ x then d.accessError (.vf i) 2 x true
      else d.windowPut (.vf i) x ((d.ptnAt i).quotaBase + x) bs (ptnReq 0x90 i) :=
  if_neg (bar2_serves hs hx)

theorem doCaptureRead_direct (n : Nat) (hx : d.pwr.vfBar2 / 2 + x < d.pwr.vfBar2) (hdir : d.b (pSLC i) SLC_CAPWIN_DIR = true) :
    d.doCaptureRead i x n =
      d.windowBytes (.vf i) (d.pwr.vfBar2 / 2 + x) (d.dirAddr (d.g (pSLC i) SLC_CAPWIN_CH) 0 + x) n (hubReq 0x9A)
        fun o k => d.g pCAP (CAP_CH_CFG_OWNER (d.g (pSLC i) SLC_CAPWIN_CH)) == i.val && x + o + k ≤ 512 := by
  simp only [doCaptureRead, hs, hdir, Nat.not_le.2 hx, Bool.not_true, decide_false, Bool.or_self, Bool.false_eq_true, if_false, if_true]

theorem doCaptureRead_pages (n : Nat) (hx : d.pwr.vfBar2 / 2 + x < d.pwr.vfBar2) (hdir : d.b (pSLC i) SLC_CAPWIN_DIR = false) :
    d.doCaptureRead i x n =
      let ch := d.g (pSLC i) SLC_CAPWIN_CH
      let pages := d.g (pSLC i) SLC_CAPWIN_OFF_PAGES
      d.windowBytes (.vf i) (d.pwr.vfBar2 / 2 + x) (d.g pCAP CAP_PW_BASE_ADDR + (d.g pCAP (CAP_CH_OFFSET_PAGES ch) + pages) * 4096 + x) n (hubReq 0x9A)
        fun o k => d.g pCAP (CAP_CH_CFG_OWNER ch) == i.val && pages * 4096 + x + o + k ≤ d.g pCAP (CAP_CH_PAGES_PAGES ch) * 4096 := by
  simp only [doCaptureRead, hs, hdir, Nat.not_le.2 hx, Bool.not_true, decide_false, Bool.or_self, Bool.false_eq_true, if_false]

end

end Dev

/-- Settles O32: a window page leads to its cluster's interface, which serves or refuses, and an offset of BAR2 to one of its windows. -/
theorem windowAndHbmWindowCommandsTakeEffect : Obligations.WindowAndHbmWindowCommandsTakeEffect := by
  refine ⟨?read, ?write, ?readFenced, ?writeFenced, ?timeout, ?pfRead, ?vfRead, ?vfReadUpper, ?readUnserved,
    ?pfWrite, ?vfWrite, ?vfWriteUpper, ?writeUnserved, ?captureDirect, ?capturePages⟩
  case read =>
    rintro d q fn n w off _ hact hr hap hni hl rfl hh
    rw [exec_windowRead, main_active d q _ hact, d.doWindowRead_aperture fn n hap, Dev.atCluster_window hap hr hl false _ hni,
      Dev.reply_window fn _ hap hh]
  case write =>
    intro d q fn n w off v hact hr hap hni hl
    rw [exec_windowWrite, main_active d q _ hact, d.doWindowWrite_aperture fn n _ hap, Dev.atCluster_window hap hr hl true _ hni]
  case readFenced =>
    intro d q fn n w off hact hr hap hni hl
    rw [exec_windowRead, main_active d q _ hact, d.doWindowRead_aperture fn n hap, Dev.atCluster_window_fenced hap hr hl false _ hni]
    rfl
  case writeFenced =>
    intro d q fn n w off v hact hr hap hni hl
    rw [exec_windowWrite, main_active d q _ hact, d.doWindowWrite_aperture fn n _ hap, Dev.atCluster_window_fenced hap hr hl true _ hni]
    rfl
  case timeout =>
    rintro d q fn n w off _ hact hr hap hni hl hseq hclass rfl hh
    rw [exec_windowReadTimeout, main_active d q _ hact, Dev.doWindowTimeout_busy hap hr hni hl hseq hclass, Dev.reply_window fn _ hap hh]
  case pfRead =>
    intro d q off len hact hs hx
    rw [exec_bar2Read, main_active d q _ hact, Dev.doBar2Read_pf hs hx]
  case vfRead =>
    intro d q i off len hact hs hx
    rw [exec_bar2Read, main_active d q _ hact, Dev.doBar2Read_vf hs _ (by omega), if_neg (Nat.not_le.2 hx)]
  case vfReadUpper =>
    intro d q i off len hact hs hlo hx
    rw [exec_bar2Read, main_active d q _ hact, Dev.doBar2Read_vf hs _ hx, if_pos hlo]
  case readUnserved =>
    intro d q fn off len hact h
    rw [exec_bar2Read, main_active d q _ hact, Dev.doBar2Read_unserved _ h]
  case pfWrite =>
    intro d q off bytes hact hs hx
    rw [exec_bar2Write, main_active d q _ hact, Dev.doBar2Write_pf hs hx]
  case vfWrite =>
    intro d q i off bytes hact hs hx
    rw [exec_bar2Write, main_active d q _ hact, Dev.doBar2Write_vf hs _ (by omega), if_neg (Nat.not_le.2 hx)]
  case vfWriteUpper =>
    intro d q i off bytes hact hs hlo hx
    rw [exec_bar2Write, main_active d q _ hact, Dev.doBar2Write_vf hs _ hx, if_pos hlo]
  case writeUnserved =>
    intro d q fn off bytes hact h
    rw [exec_bar2Write, main_active d q _ hact, Dev.doBar2Write_unserved _ h]
  case captureDirect =>
    intro d q p off len hact hs hx hdir
    rw [exec_captureWindowRead, main_active d q _ hact, Dev.doCaptureRead_direct hs _ hx hdir]
  case capturePages =>
    intro d q p off len hact hs hx hdir
    rw [exec_captureWindowRead, main_active d q _ hact, Dev.doCaptureRead_pages hs _ hx hdir]

end Sys2Proof.Machine

namespace Sys2Proof.Machine

/-! Where a quota goes (R164). -/

namespace Dev

theorem overlaps_iff (a n b m : Nat) : overlaps a n b m = true ↔ n ≠ 0 ∧ m ≠ 0 ∧ a < b + m ∧ b < a + n := by
  simp [overlaps, and_assoc]

theorem quotaFits_iff (d : Dev) (a n : Nat) :
    d.quotaFits a n = true ↔ a % 0x100000 = 0 ∧ a + n ≤ hbmTop ∧ ∀ r ∈ d.hbmTaken, ¬ (n ≠ 0 ∧ r.2 ≠ 0 ∧ a < r.1 + r.2 ∧ r.1 < a + n) := by
  simp only [quotaFits, Bool.and_eq_true, beq_iff_eq, decide_eq_true_eq, List.all_eq_true, Bool.not_eq_true', ← Bool.not_eq_true,
    overlaps_iff, and_assoc]

/-- The places that Stage can try: the start of HBM, and the first aligned address after each taken range. -/
def quotaStarts (d : Dev) : List Nat := 0 :: d.hbmTaken.map fun r => (r.1 + r.2 + 0xFFFFF) / 0x100000 * 0x100000

theorem placeQuota_eq (d : Dev) (n : Nat) :
    d.placeQuota n =
      if d.quotaFits (Config.quotaPlace d.fresh (n / 0x100000) * 0x100000) n then some (Config.quotaPlace d.fresh (n / 0x100000) * 0x100000)
      else d.quotaStarts.find? fun a => d.quotaFits a n := rfl

theorem aligned_of_mem_quotaStarts {d : Dev} {c : Nat} (h : c ∈ d.quotaStarts) : c % 0x100000 = 0 := by
  obtain rfl | ⟨r, _, rfl⟩ := by simpa only [quotaStarts, List.mem_cons, List.mem_map] using h
  · rfl
  · exact Nat.mul_mod_left ..

/-- The last of the places at or below an address: the start of HBM is one. -/
theorem exists_last_quotaStart (d : Dev) (a : Nat) : ∃ c ∈ d.quotaStarts, c ≤ a ∧ ∀ c' ∈ d.quotaStarts, c' ≤ a → c' ≤ c := by
  have hzero : 0 ∈ d.quotaStarts.filter (· ≤ a) := List.mem_filter.2 ⟨List.mem_cons_self .., decide_eq_true (Nat.zero_le a)⟩
  have hne := List.ne_nil_of_mem hzero
  obtain ⟨hc, hca⟩ := List.mem_filter.1 (List.max_mem hne)
  exact ⟨_, hc, of_decide_eq_true hca, fun c' hc' hle => List.le_max_of_mem (List.mem_filter.2 ⟨hc', decide_eq_true hle⟩)⟩

/-- A quota that fits somewhere fits at the last start at or below it: a range that it met there would end at a later start. -/
theorem exists_quotaStart_fits {d : Dev} {a n : Nat} (h : d.quotaFits a n = true) : ∃ c ∈ d.quotaStarts, d.quotaFits c n = true := by
  obtain ⟨hal, htop, hfree⟩ := (d.quotaFits_iff a n).1 h
  obtain ⟨c, hc, hca, hlast⟩ := d.exists_last_quotaStart a
  refine ⟨c, hc, (d.quotaFits_iff c n).2 ⟨aligned_of_mem_quotaStarts hc, by omega, ?_⟩⟩
  rintro r hr ⟨hn, hm, hlo, hhi⟩
  have hbelow : r.1 + r.2 ≤ a := Nat.le_of_not_lt fun hend => hfree r hr ⟨hn, hm, hend, by omega⟩
  have := hlast _ (List.mem_cons_of_mem _ (List.mem_map_of_mem hr)) (by omega)
  omega

end Dev

/-- Settles O36: a place found has passed the check, and where some place passes it, a start that Stage tries does too. -/
theorem quotaGetsAFreeRange : Obligations.QuotaGetsAFreeRange := by
  refine ⟨fun d n a h => ?found, fun d n a h => ?none⟩
  case found =>
    rw [Dev.placeQuota_eq] at h
    split at h
    case isTrue hfits => exact Option.some.inj h ▸ hfits
    case isFalse => exact List.find?_some (p := fun a => d.quotaFits a n) h
  case none =>
    rw [Dev.placeQuota_eq] at h
    split at h
    case isTrue => cases h
    case isFalse =>
      rw [← Bool.not_eq_true]
      intro hfits
      obtain ⟨c, hc, hcfits⟩ := Dev.exists_quotaStart_fits hfits
      exact List.find?_eq_none.1 h c hc hcfits

end Sys2Proof.Machine

namespace Sys2Proof.Machine

/-! What a write of HBM, and a read, come to in each case that the port tells apart (R262, R264, R358, R363, R434). -/

namespace Dev

section
variable {d : Dev} {r : Req} {a : Nat} {bs : List Byte} (hne : bs ≠ [])
include hne

theorem hbmWrite_unrouted (hroute : d.hbmRouted r.src a bs.length = false) : d.hbmWrite r a bs = (d.noRoute, 2) := by
  simp [hbmWrite, hne, hroute]

variable (hroute : d.hbmRouted r.src a bs.length = true)
include hroute

theorem hbmWrite_refused (hall : d.hbmAllowed r a bs.length = false) : d.hbmWrite r a bs = (d.hbmRefuse r a bs.length true, 5) := by
  simp [hbmWrite, hne, hroute, hall]

variable (hall : d.hbmAllowed r a bs.length = true)
include hall

theorem hbmWrite_failing {x l : Nat} (hfail : d.firstFail a bs.length = some (x, l)) : d.hbmWrite r a bs = (d.integFail r x l true, 4) := by
  simp [hbmWrite, hne, hroute, hall, hfail]

variable (hpass : d.firstFail a bs.length = none)
include hpass

/-- A write of a part of a granule that the stack cannot correct counts what it read, and ends (R434). -/
theorem hbmWrite_uncorrectable (hue : d.mergeHits d.ime.ue a bs.length ≠ []) :
    d.hbmWrite r a bs = (d.stackCount (d.mergeHits d.ime.ce a bs.length) (d.mergeHits d.ime.ue a bs.length), 4) := by
  simp [hbmWrite, hne, hroute, hall, hpass, hue]

/-- A write that passes answers OK and puts its bytes in place; its bookkeeping moves no byte. -/
theorem hbmWrite_stores (hue : d.mergeHits d.ime.ue a bs.length = []) :
    (d.hbmWrite r a bs).2 = 0 ∧ (d.hbmWrite r a bs).1.hbm = putBytes d.hbm a bs := by
  have hsectors (e : Dev) : (e.each (sectorsOf a bs.length) fun d sec => (d.touchMeta (sec * 4096) 4096 true).bumpCounter sec).hbm = e.hbm :=
    each_hbm _ _ _ fun e sec => .of (by rw [bumpCounter_hbm, touchMeta_hbm])
  simp [hbmWrite, hne, hroute, hall, hpass, hue, countBlocks_hbm, stackFresh_hbm, hsectors, stackCount_hbm]

end

section
variable {d : Dev} {r : Req} {a n : Nat} (hn : 0 < n) (hroute : d.hbmRouted r.src a n = true) (hall : d.hbmAllowed r a n = true)
  (hpass : d.firstFail a n = none)
include hn hroute hall hpass

theorem hbmRead_uncorrectable (hue : d.stackHits d.ime.ue a n ≠ []) : (d.hbmRead r a n).2 = (4, List.replicate n 0) := by
  simp [hbmRead, Nat.ne_of_gt hn, hroute, hall, hpass, hue]

theorem hbmRead_returns (hue : d.stackHits d.ime.ue a n = []) : (d.hbmRead r a n).2 = (0, d.hbmBytes a n) := by
  simp [hbmRead, Nat.ne_of_gt hn, hroute, hall, hpass, hue]

end

end Dev

/-- Settles O11: only a write that passes every check puts bytes, its own, and each case answers its own status. -/
theorem hbmReturnsWhatWasWritten : Obligations.HbmReturnsWhatWasWritten := by
  refine ⟨?stores, ?refused, ?failing, ?unrouted, ?uncorrectable, ?readUncorrectable, ?readReturns⟩
  case stores =>
    intro d r a bs hne hroute hall hue hpass
    obtain ⟨hst, hbytes⟩ := Dev.hbmWrite_stores hne hroute hall hpass hue
    exact ⟨hst, fun x => by rw [hbytes, Dev.get_putBytes]⟩
  case refused =>
    intro d r a bs hne hroute hall
    rw [Dev.hbmWrite_refused hne hroute hall]
    exact ⟨rfl, Dev.hbmRefuse_hbm ..⟩
  case failing =>
    intro d r a bs hne hroute hall _ hfail
    obtain ⟨⟨x, l⟩, hfail⟩ := Option.ne_none_iff_exists'.1 hfail
    rw [Dev.hbmWrite_failing hne hroute hall hfail]
    exact ⟨rfl, Dev.integFail_hbm ..⟩
  case unrouted =>
    intro d r a bs hne hroute
    rw [Dev.hbmWrite_unrouted hne hroute]
    exact ⟨rfl, Dev.noRoute_hbm _⟩
  case uncorrectable =>
    intro d r a bs hne hroute hall hpass hue
    rw [Dev.hbmWrite_uncorrectable hne hroute hall hpass hue]
    exact ⟨rfl, Dev.stackCount_hbm ..⟩
  case readUncorrectable => exact fun d r a n hn hroute hall hue hpass => Dev.hbmRead_uncorrectable hn hroute hall hpass hue
  case readReturns => exact fun d r a n hn hroute hall hue hpass => Dev.hbmRead_returns hn hroute hall hpass hue

end Sys2Proof.Machine

namespace Sys2Proof.Machine

/-! Messages of a linked partition, and the commands and holds that they bring (R175 to R178, R182, R242). -/

section
variable (g p : Fin 16) (e : Nat) (intact : Bool) (s : State)

theorem exec_linkedCommand (cmd : Fin 16) (count : W32) (dist : Nat) :
    exec (.linkedCommand g p cmd count dist intact) s = main s fun d => d.doLinkedCommand g p cmd count dist intact := rfl
/-- A freeze travels as COMMAND 3, and a hard freeze as COMMAND 4 (R178). -/
theorem exec_linkedFreeze (count : W32) (dist : Nat) :
    exec (.linkedCommand g p 3 count dist intact) s = main s fun d => d.doLinkedCommand g p 3 count dist intact := rfl
theorem exec_linkedHardFreeze (count : W32) (dist : Nat) :
    exec (.linkedCommand g p 4 count dist intact) s = main s fun d => d.doLinkedCommand g p 4 count dist intact := rfl
theorem exec_linkedCommandEffect : exec (.linkedCommandEffect p) s = main s fun d => d.doLinkedCommandEffect p := rfl
theorem exec_hold : exec (.hold g p e intact) s = main s fun d => d.doHold g p e intact := rfl
theorem exec_ready : exec (.ready g p e intact) s = main s fun d => d.doReady g p e intact := rfl
theorem exec_go : exec (.go g p e intact) s = main s fun d => d.doGo g p e intact := rfl
theorem exec_systemHoldRelease : exec (.systemHoldRelease p) s = main s fun d => d.doSystemHoldRelease p := rfl
theorem exec_steps (cycle : BitVec 48) (count : Nat) : exec (.steps g p cycle count intact) s = main s fun d => d.doSteps g p cycle count intact := rfl

end

namespace Dev

/-! A message acts where it is intact and comes over an AL2 link that is UP; it is counted where it is broken, and an AL1 link carries none. -/

section
variable {d : Dev} {gi i : Nat}

theorem linkedMsg_intact (k : Dev → Dev) (hal : d.al2 gi = true) (hl : d.linked i = true) : d.linkedMsg gi i true k = k d := by
  simp [linkedMsg, hal, hl]

theorem linkedMsg_broken (i : Nat) (k : Dev → Dev) (hal : d.al2 gi = true) : d.linkedMsg gi i false k = d.ctlBad gi := by
  simp [linkedMsg, hal]

theorem linkedMsg_dropped (i : Nat) (intact : Bool) (k : Dev → Dev) (hal : d.al2 gi = false) : d.linkedMsg gi i intact k = d := by
  simp [linkedMsg, hal]

theorem doBeacon_broken (ns frac hops master : Nat) (hup : d.g (pLGRP gi) LGRP_STATUS_STATE = 4) :
    d.doBeacon gi ns frac hops master false = d.ctlBad gi := by
  simp [doBeacon, hup]

theorem doFreezeMsg_broken (origin n : Nat) (hup : d.g (pLGRP gi) LGRP_STATUS_STATE = 4) : d.doFreezeMsg gi origin n false = d.ctlBad gi := by
  simp [doFreezeMsg, lgState, hup]

end

/-! A freeze is due at its executed step in a partition that takes one (R97, R98, R178). -/

theorem freezeAtStep_freeze {d : Dev} {i : Nat} (e : Nat) (hset : d.settling i = false) (hst : d.seqState i = 1 ∨ d.seqState i = 3) :
    d.freezeAtStep i e false =
      (d.modPtn i fun x => { x with freezeAt := x.freezeAt ++ [(e, 1, false)] }).on (pPTN i) PTN_SEQ_STATUS_FREEZE_PENDING :=
  if_neg (by obtain h | h := hst <;> simp [hset, h])

theorem freezeAtStep_hard {d : Dev} {i : Nat} (e : Nat) (hset : d.settling i = false) (hst : d.seqState i = 1) :
    d.freezeAtStep i e true = d.modPtn i fun x => { x with freezeAt := x.freezeAt ++ [(e, 9, true)] } := by
  simp [freezeAtStep, hset, hst]

/-- HOLD(E) is recorded, or is late (R177). -/
def noteHold (d : Dev) (i e : Nat) : Dev :=
  if e < (d.ptnAt i).exec then (d.on pLNK LNK_SYS_STATUS_LATE_HOLD).raiseSysFreeze
  else d.modPtn i fun x =>
    if x.holds.any (fun h => h.e == e) then { x with holds := x.holds.map fun h => if h.e == e then { h with heard := h.heard + 1 } else h }
    else { x with holds := x.holds ++ [⟨e, false, false, false, 1, 0⟩] }

section
variable {d : Dev} {i e : Nat}

theorem noteHold_late (h : e < (d.ptnAt i).exec) : d.noteHold i e = (d.on pLNK LNK_SYS_STATUS_LATE_HOLD).raiseSysFreeze := if_pos h

variable (h : (d.ptnAt i).exec ≤ e)
include h

theorem noteHold_again (hknown : (d.ptnAt i).holds.any (fun h => h.e == e) = true) :
    d.noteHold i e = d.modPtn i fun x => { x with holds := x.holds.map fun h => if h.e == e then { h with heard := h.heard + 1 } else h } := by
  rw [noteHold, if_neg (Nat.not_lt.2 h), modPtn_def, if_pos hknown, modPtn_def]

theorem noteHold_new (hknown : (d.ptnAt i).holds.any (fun h => h.e == e) = false) :
    d.noteHold i e = d.modPtn i fun x => { x with holds := x.holds ++ [⟨e, false, false, false, 1, 0⟩] } := by
  rw [noteHold, if_neg (Nat.not_lt.2 h), modPtn_def, if_neg (Bool.eq_false_iff.1 hknown), modPtn_def]

end

/-! What each intact message does. -/

/-- The device when a COMMAND message has been passed on, its distance grown (R175). -/
def commandPassed (d : Dev) (gi i cmd : Nat) (count : W32) (dist : Nat) : Dev :=
  d.passOn i gi 6 (cmdBody i cmd count.toNat (dist + d.g pLNK (LNK_BUDGET_BUDGET gi) + 2))

section
variable {d : Dev} {gi i : Nat} (hal : d.al2 gi = true) (hl : d.linked i = true)
include hal hl

theorem doLinkedCommand_waits {cmd : Nat} (count : W32) (dist : Nat) (h3 : cmd ≠ 3) (h4 : cmd ≠ 4) :
    d.doLinkedCommand gi i cmd count dist true =
      (d.commandPassed gi i cmd count dist).modPtn i fun x => { x with linkCmd := x.linkCmd ++ [(cmd, count.toNat)] } := by
  rw [doLinkedCommand, linkedMsg_intact _ hal hl]
  exact if_neg (by simp [h3, h4])

theorem doLinkedCommand_freeze (count : W32) (dist : Nat) :
    d.doLinkedCommand gi i 3 count dist true =
      let e := d.commandPassed gi i 3 count dist
      e.freezeAtStep i (stepNear (e.ptnAt i).exec count.toNat) false :=
  linkedMsg_intact _ hal hl

theorem doLinkedCommand_hardFreeze (count : W32) (dist : Nat) :
    d.doLinkedCommand gi i 4 count dist true =
      let e := d.commandPassed gi i 4 count dist
      e.freezeAtStep i (stepNear (e.ptnAt i).exec count.toNat) true :=
  linkedMsg_intact _ hal hl

theorem doHold_intact (e : Nat) : d.doHold gi i e true = (d.passOn i gi 3 (i ||| e <<< 4)).noteHold i e := linkedMsg_intact _ hal hl

end

/-! The oldest command that waits acts where this device's checks pass, else it shows their code (R152, R175). -/

section
variable {d : Dev} {i cmd count : Nat} {rest : List (Nat × Nat)} (hcmd : (d.ptnAt i).linkCmd = (cmd, count) :: rest)
include hcmd

theorem doLinkedCommandEffect_acts (h : (d.modPtn i fun x => { x with linkCmd := rest }).checksOf i cmd count = 0) :
    d.doLinkedCommandEffect i = (d.modPtn i fun x => { x with linkCmd := rest }).commandNow i cmd count := by
  simp [doLinkedCommandEffect, hcmd, h]

theorem doLinkedCommandEffect_refused (h : (d.modPtn i fun x => { x with linkCmd := rest }).checksOf i cmd count ≠ 0) :
    d.doLinkedCommandEffect i =
      let e := d.modPtn i fun x => { x with linkCmd := rest }
      (e.p (pPTN i) PTN_SEQ_STATUS_CMD_ERR (e.checksOf i cmd count)).irq (pPTN i) 2 := by
  simp [doLinkedCommandEffect, hcmd, cmdErr, h]

end

end Dev

/-- A command of the main domain settles the device that its effect comes to. -/
theorem main_eq {d e : Dev} (q : List Instr) {f : Dev → Dev} (hact : d.active = true) (h : f d = e) : main ⟨d, q⟩ f = .next ⟨e.finish, q⟩ :=
  h ▸ main_active d q f hact

/-! A message as a command of the main domain: the three ways it can go. -/

section
variable {d : Dev} {gi : Nat} (q : List Instr) (i : Nat) (k : Dev → Dev) (hact : d.active = true)
include hact

theorem main_linkedMsg_dropped (intact : Bool) (hal : d.al2 gi = false) :
    main ⟨d, q⟩ (fun d => d.linkedMsg gi i intact k) = .next ⟨d.finish, q⟩ := main_eq q hact (Dev.linkedMsg_dropped i intact k hal)

theorem main_linkedMsg_broken (hal : d.al2 gi = true) :
    main ⟨d, q⟩ (fun d => d.linkedMsg gi i false k) = .next ⟨(d.ctlBad gi).finish, q⟩ := main_eq q hact (Dev.linkedMsg_broken i k hal)

theorem main_linkedMsg_intact {i : Nat} (hal : d.al2 gi = true) (hl : d.linked i = true) :
    main ⟨d, q⟩ (fun d => d.linkedMsg gi i true k) = .next ⟨(k d).finish, q⟩ := main_eq q hact (Dev.linkedMsg_intact k hal hl)

end

/-- Settles O29: a message goes one of three ways by its link and its check, and an intact one acts by its type and the partition's state. -/
theorem linkedMessagesArrive : Obligations.LinkedMessagesArrive := by
  refine ⟨?command, ?freeze, ?hardFreeze, ?effect, ?effectRefused, ?holdNew, ?holdAgain, ?holdLate, ?ready, ?go, ?release, ?steps,
    ?goDropped, ?readyDropped, ?holdDropped, ?stepsDropped, ?commandDropped,
    ?commandBroken, ?holdBroken, ?readyBroken, ?goBroken, ?stepsBroken, ?beaconBroken, ?freezeMsgBroken⟩
  case command =>
    intro d q g p cmd count dist hact hal hl h3 h4
    exact (exec_linkedCommand ..).trans
      (main_eq q hact (Dev.doLinkedCommand_waits hal hl count dist (fun h => h3 (Fin.ext h)) fun h => h4 (Fin.ext h)))
  case freeze =>
    rintro d q g p count dist _ hact hal hl rfl hset hst
    exact (exec_linkedFreeze ..).trans
      (main_eq q hact ((Dev.doLinkedCommand_freeze hal hl count dist).trans (Dev.freezeAtStep_freeze _ hset hst)))
  case hardFreeze =>
    rintro d q g p count dist _ hact hal hl rfl hset hst
    exact (exec_linkedHardFreeze ..).trans
      (main_eq q hact ((Dev.doLinkedCommand_hardFreeze hal hl count dist).trans (Dev.freezeAtStep_hard _ hset hst)))
  case effect =>
    intro d q p cmd count rest hact hcmd h
    rw [exec_linkedCommandEffect, main_active d q _ hact, Dev.doLinkedCommandEffect_acts hcmd h]
  case effectRefused =>
    rintro d q p cmd count _ rest hact hcmd rfl h
    rw [exec_linkedCommandEffect, main_active d q _ hact, Dev.doLinkedCommandEffect_refused hcmd h]
  case holdNew =>
    rintro d q g p e _ hact hal hl rfl he hknown
    rw [exec_hold, main_active d q _ hact, Dev.doHold_intact hal hl, Dev.noteHold_new he hknown]
  case holdAgain =>
    rintro d q g p e _ hact hal hl rfl he hknown
    rw [exec_hold, main_active d q _ hact, Dev.doHold_intact hal hl, Dev.noteHold_again he hknown]
  case holdLate =>
    rintro d q g p e _ hact hal hl rfl he
    rw [exec_hold, main_active d q _ hact, Dev.doHold_intact hal hl, Dev.noteHold_late he]
  case ready => exact fun d q g p e hact hal hl => (exec_ready ..).trans (main_linkedMsg_intact q _ hact hal hl)
  case go => exact fun d q g p e hact hal hl => (exec_go ..).trans (main_linkedMsg_intact q _ hact hal hl)
  case release => exact fun d q p hact h => (exec_systemHoldRelease ..).trans (main_eq q hact (if_pos h))
  case steps => exact fun d q g p cycle count hact hal hl => (exec_steps ..).trans (main_linkedMsg_intact q _ hact hal hl)
  case goDropped => exact fun d q g p e intact hact hal => (exec_go ..).trans (main_linkedMsg_dropped q p _ hact intact hal)
  case readyDropped => exact fun d q g p e intact hact hal => (exec_ready ..).trans (main_linkedMsg_dropped q p _ hact intact hal)
  case holdDropped => exact fun d q g p e intact hact hal => (exec_hold ..).trans (main_linkedMsg_dropped q p _ hact intact hal)
  case stepsDropped => exact fun d q g p cycle count intact hact hal => (exec_steps ..).trans (main_linkedMsg_dropped q p _ hact intact hal)
  case commandDropped =>
    exact fun d q g p cmd count dist intact hact hal => (exec_linkedCommand ..).trans (main_linkedMsg_dropped q p _ hact intact hal)
  case commandBroken => exact fun d q g p cmd count dist hact hal => (exec_linkedCommand ..).trans (main_linkedMsg_broken q p _ hact hal)
  case holdBroken => exact fun d q g p e hact hal => (exec_hold ..).trans (main_linkedMsg_broken q p _ hact hal)
  case readyBroken => exact fun d q g p e hact hal => (exec_ready ..).trans (main_linkedMsg_broken q p _ hact hal)
  case goBroken => exact fun d q g p e hact hal => (exec_go ..).trans (main_linkedMsg_broken q p _ hact hal)
  case stepsBroken => exact fun d q g p cycle count hact hal => (exec_steps ..).trans (main_linkedMsg_broken q p _ hact hal)
  case beaconBroken =>
    exact fun d q g ns frac hops master hact hup => (exec_beacon ..).trans (main_eq q hact (Dev.doBeacon_broken _ _ _ _ hup))
  case freezeMsgBroken => exact fun d q g origin seq hact hup => (exec_freezeMsg ..).trans (main_eq q hact (Dev.doFreezeMsg_broken _ _ hup))

end Sys2Proof.Machine

namespace Sys2Proof.Machine

/-! The service commands over partitions (R161 to R164, R168, R432), and the completions of PTN_DESTROY and PTN_RESIZE (R161, R169). -/

section
variable (tag : Byte) (p : Fin 16) (mask shape : W64) (s : State)

theorem exec_ptnCreate (vf : Bool) (quota : W32) : exec (.ptnCreate tag p vf mask shape quota) s =
    main s fun d => d.serving fun d => d.doPtnCreate tag.toNat p vf mask.toNat shape.toNat quota.toNat := rfl
theorem exec_ptnDestroy : exec (.ptnDestroy tag p) s = main s fun d => d.serving fun d => d.doPtnDestroy tag.toNat p := rfl
theorem exec_ptnResize (ret : Bool) : exec (.ptnResize tag p ret mask shape) s =
    main s fun d => d.serving fun d => d.doPtnResize tag.toNat p ret mask.toNat shape.toNat := rfl
theorem exec_ptnQuery : exec (.ptnQuery tag p) s = main s fun d => d.serving fun d => d.doPtnQuery tag.toNat p := rfl
theorem exec_ping (arg : W32) : exec (.ping tag arg) s = main s fun d => d.serving fun d => d.doPing tag.toNat arg.toNat := rfl
theorem exec_serviceBadCommand (hdr : W64) : exec (.serviceBadCommand hdr) s = main s fun d => d.serving fun d => d.doBadCommand hdr := rfl
theorem exec_ptnCloseComplete : exec (.ptnCloseComplete p) s = main s fun d => d.doPtnClose p := rfl
theorem exec_ptnResizeComplete : exec (.ptnResizeComplete p) s = main s fun d => d.doPtnResizeComplete p := rfl

end

/-- A command of Stage firmware acts where its queues exist, and settles (R194). -/
theorem main_serving {d : Dev} (q : List Instr) (k : Dev → Dev) (h : d.Up) : main ⟨d, q⟩ (fun d => d.serving k) = .next ⟨(k d).finish, q⟩ :=
  main_full q k h

theorem main_serving_eq {d e : Dev} (q : List Instr) {k : Dev → Dev} (hd : d.Up) (h : k d = e) :
    main ⟨d, q⟩ (fun d => d.serving k) = .next ⟨e.finish, q⟩ := h ▸ main_serving q k hd

namespace Dev

/-! PTN_CREATE: its checks in their order, then a quota is placed (R161, R164). -/

/-- The device when the packet of a PTN_CREATE has left queue 0 (R163). -/
abbrev createTaken (d : Dev) (tag i : Nat) (vf : Bool) (mask shape quota : Nat) : Dev :=
  d.takeService 0x10 tag (i + (if vf then 16 else 0)) [BitVec.ofNat 64 mask, BitVec.ofNat 64 shape, BitVec.ofNat 64 quota]

/-- The partition opens with its quota at the place found; where there is none, status 6 (R164). -/
def createAt (d : Dev) (tag i : Nat) (vf : Bool) (mask shape quota : Nat) : Option Nat → Dev
  | none => d.answer 0x10 tag 6 []
  | some a => (d.openPtn i vf mask shape a (quotaBytes quota)).answer 0x10 tag 0 [BitVec.ofNat 64 a]

section
variable {d : Dev} {tag i : Nat} {vf : Bool} {mask shape quota : Nat}

theorem doPtnCreate_notFree (h : d.dirState i ≠ 0) :
    d.doPtnCreate tag i vf mask shape quota = (d.createTaken tag i vf mask shape quota).answerPtn i 0x10 tag 2 [] := by
  simp [doPtnCreate, h]

variable (hfree : d.dirState i = 0)
include hfree

theorem doPtnCreate_clustersTaken (h : d.clustersTaken i mask = true) :
    d.doPtnCreate tag i vf mask shape quota = (d.createTaken tag i vf mask shape quota).answer 0x10 tag 3 [] := by
  simp [doPtnCreate, hfree, h]

variable (hclus : d.clustersTaken i mask = false)
include hclus

theorem doPtnCreate_badShape (h : badShape mask (shapeFused shape) = true) :
    d.doPtnCreate tag i vf mask shape quota = (d.createTaken tag i vf mask shape quota).answer 0x10 tag 4 [] := by
  simp [doPtnCreate, hfree, hclus, h]

variable (hshape : badShape mask (shapeFused shape) = false)
include hshape

theorem doPtnCreate_queuesTaken (h : d.queuesTaken i (shapeQbase shape) (shapeQcount shape) = true) :
    d.doPtnCreate tag i vf mask shape quota = (d.createTaken tag i vf mask shape quota).answer 0x10 tag 5 [] := by
  simp [doPtnCreate, hfree, hclus, hshape, h]

variable (hqueues : d.queuesTaken i (shapeQbase shape) (shapeQcount shape) = false)
include hqueues

/-- Past its checks the partition opens at the place found for its quota, if there is one. -/
theorem doPtnCreate_places {place : Option Nat} (h : (d.createTaken tag i vf mask shape quota).placeQuota (quotaBytes quota) = place) :
    d.doPtnCreate tag i vf mask shape quota = (d.createTaken tag i vf mask shape quota).createAt tag i vf mask shape quota place := by
  rw [createTaken] at h
  simp only [doPtnCreate, dirState_takeService, clustersTaken_takeService, queuesTaken_takeService, hfree, hclus, hshape, hqueues, h, ne_eq,
    not_true_eq_false, Bool.false_eq_true, if_false]
  cases place <;> rfl

end

/-! PTN_DESTROY by the partition's state (R161), PTN_QUERY, PING. -/

section
variable {d : Dev} (tag : Nat) {i : Nat}

theorem doPtnDestroy_free (h : d.dirState i = 0) : d.doPtnDestroy tag i = (d.takeService 0x11 tag i []).answer 0x11 tag 2 [] := by
  simp [doPtnDestroy, h]

theorem doPtnDestroy_busy (h : d.dirState i = 3 ∨ d.dirState i = 4) :
    d.doPtnDestroy tag i = (d.takeService 0x11 tag i []).answerPtn i 0x11 tag 11 [] := by
  obtain h | h := h <;> simp [doPtnDestroy, h]

/-- What runs ends, the sequencer stops, the clusters drain, and the partition is CLOSING (R161). -/
theorem doPtnDestroy_closes (h : d.dirState i = 1 ∨ d.dirState i = 2) :
    d.doPtnDestroy tag i =
      let e := ((d.takeService 0x11 tag i []).doSnapAbort i).endBatch i
      let e := if e.seqState i == 0 then e else e.stopNow i
      let e := e.each (e.clustersOf i) fun d n => (d.farDrain n).drainNi n
      ((e.p pDEV (DEV_DIR_STATE i) 4).releaseDebug i).modPtn i fun x => { x with tagCmd := some (0x11, tag) } := by
  obtain h | h := h <;> simp only [doPtnDestroy, dirState_takeService, h]

theorem doPtnQuery_free (h : d.dirState i = 0) : d.doPtnQuery tag i = (d.takeService 0x13 tag i []).answer 0x13 tag 2 [] := by
  simp [doPtnQuery, h]

end

/-! A header that names no command, or another LENGTH than the command needs (R163, R432). -/

theorem not_runs_of_mismatch {length : Option Nat} {stated sent : Nat} (h : length ≠ some stated ∨ stated ≠ sent) :
    ¬ (length == some stated && stated == sent) = true := by
  rw [Bool.and_eq_true, beq_iff_eq, beq_iff_eq]
  rintro ⟨hlength, hsent⟩
  exact h.elim (absurd hlength) (absurd hsent)

section
variable {d : Dev} {hdr : W64}

theorem doBadCommand_noPacket (hnone : d.servicePacket hdr = none)
    (h : serviceLength (bitsAt hdr.toNat 0 8) ≠ some (bitsAt hdr.toNat 8 16) ∨ bitsAt hdr.toNat 8 16 ≠ 0) :
    d.doBadCommand hdr = d.answer (bitsAt hdr.toNat 0 8) (bitsAt hdr.toNat 24 8) 1 [] := by
  rw [doBadCommand, hnone]
  exact if_neg (not_runs_of_mismatch h)

theorem doBadCommand_drops {ws : List W64} (hsome : d.servicePacket hdr = some ws)
    (h : serviceLength (bitsAt hdr.toNat 0 8) ≠ some (bitsAt hdr.toNat 8 16) ∨ bitsAt hdr.toNat 8 16 ≠ ws.length) :
    d.doBadCommand hdr = (d.swapService []).answer (bitsAt hdr.toNat 0 8) (bitsAt hdr.toNat 24 8) 1 [] := by
  rw [doBadCommand, hsome]
  exact if_neg (not_runs_of_mismatch h)

/-- The low 24 bits of a PING's header are its opcode 1, LENGTH 0. -/
theorem opcode_of_ping {v : Nat} (h : bitsAt v 0 24 = 1) : bitsAt v 0 8 = 1 ∧ bitsAt v 8 16 = 0 := by
  simp only [bitsAt, Nat.shiftRight_eq_div_pow] at h ⊢
  omega

theorem doBadCommand_ping (hnone : d.servicePacket hdr = none) (h : bitsAt hdr.toNat 0 24 = 1) :
    d.doBadCommand hdr = d.doPing (bitsAt hdr.toNat 24 8) (bitsAt hdr.toNat 32 32) := by
  obtain ⟨hop, hlen⟩ := opcode_of_ping h
  simp [doBadCommand, hnone, hop, hlen, serviceLength, runService, serviceArg]

end

end Dev

/-- Settles O35: each command passes or fails its checks in their order, and one that takes effect gives the state written out. -/
theorem partitionServiceCommandsTakeEffect : Obligations.PartitionServiceCommandsTakeEffect := by
  refine ⟨?create, ?destroy, ?resize, ?resizeRefused, ?query, ?ping, ?badNoPacket, ?badPacket, ?badPing, ?createNotFree, ?createClusters,
    ?createShape, ?createQueues, ?destroyFree, ?destroyBusy, ?queryFree⟩
  case create =>
    intro d q tag p vf mask shape quota hd hfree hclus hshape hqueues
    rw [exec_ptnCreate, main_serving q _ hd]
    cases hplace : (d.createTaken tag.toNat p vf mask.toNat shape.toNat quota.toNat).placeQuota (Dev.quotaBytes quota.toNat) with
    | none =>
      rw [Dev.doPtnCreate_places hfree hclus hshape hqueues hplace]
      rfl
    | some a =>
      rw [Dev.doPtnCreate_places hfree hclus hshape hqueues hplace]
      rfl
  case destroy =>
    intro d q tag p hd h
    rw [exec_ptnDestroy, main_serving q _ hd, Dev.doPtnDestroy_closes _ h]
  case resize =>
    intro d q tag p ret mask shape hd h
    exact (exec_ptnResize ..).trans (main_serving_eq q hd (if_neg (not_not_intro h)))
  case resizeRefused =>
    intro d q tag p ret mask shape hd h
    rw [exec_ptnResize, main_serving q _ hd, Dev.doPtnResize, if_pos h]
  case query =>
    intro d q tag p hd h
    rw [exec_ptnQuery, main_serving q _ hd, Dev.doPtnQuery, if_neg (by simpa using h)]
  case ping =>
    intro d q tag arg hd
    rw [exec_ping, main_serving q _ hd, Dev.doPing]
    simp only [Dev.g_takeService]
  case badNoPacket =>
    intro d q hdr hd hnone h
    rw [exec_serviceBadCommand, main_serving q _ hd, Dev.doBadCommand_noPacket hnone h]
  case badPacket =>
    intro d q hdr ws hd hsome h
    rw [exec_serviceBadCommand, main_serving q _ hd, Dev.doBadCommand_drops hsome h]
    rfl
  case badPing =>
    intro d q hdr hd hnone h
    rw [exec_serviceBadCommand, main_serving q _ hd, Dev.doBadCommand_ping hnone h]
  case createNotFree =>
    intro d q tag p vf mask shape quota hd h
    rw [exec_ptnCreate, main_serving q _ hd, Dev.doPtnCreate_notFree h]
  case createClusters =>
    intro d q tag p vf mask shape quota hd hfree h
    rw [exec_ptnCreate, main_serving q _ hd, Dev.doPtnCreate_clustersTaken hfree h]
  case createShape =>
    intro d q tag p vf mask shape quota hd hfree hclus h
    rw [exec_ptnCreate, main_serving q _ hd, Dev.doPtnCreate_badShape hfree hclus h]
  case createQueues =>
    intro d q tag p vf mask shape quota hd hfree hclus hshape h
    rw [exec_ptnCreate, main_serving q _ hd, Dev.doPtnCreate_queuesTaken hfree hclus hshape h]
  case destroyFree =>
    intro d q tag p hd h
    rw [exec_ptnDestroy, main_serving q _ hd, Dev.doPtnDestroy_free _ h]
  case destroyBusy =>
    intro d q tag p hd h
    rw [exec_ptnDestroy, main_serving q _ hd, Dev.doPtnDestroy_busy _ h]
  case queryFree =>
    intro d q tag p hd h
    rw [exec_ptnQuery, main_serving q _ hd, Dev.doPtnQuery_free _ h]

/-- Settles O37: the guard of each completion is what it waits for, and past it the state is the one written out. -/
theorem partitionCompletionsTakeEffect : Obligations.PartitionCompletionsTakeEffect := by
  refine ⟨?close, ?resize⟩
  case close =>
    intro d q p hact hst hown hdevice hfenced
    exact (exec_ptnCloseComplete ..).trans (main_eq q hact (if_neg (by simp [hst, hown, hdevice, hfenced])))
  case resize =>
    intro d q p hact hst hready
    exact (exec_ptnResizeComplete ..).trans (main_eq q hact (if_neg (by simp [hst, hready])))

end Sys2Proof.Machine

namespace Sys2Proof.Machine

/-! FUNCTION and PARTITION resets, and VF Enable (R166, R167, R194, R196, R386 to R388, R424). -/

section
variable (p : Fin 16) (s : State)

theorem exec_flrPf : exec .flrPf s = config .pf s fun d => d.doFlrPf := rfl
theorem exec_flrVf : exec (.flrVf p) s = config (.vf p) s fun d => d.doFlrVf p := rfl
theorem exec_functionResetComplete (fn : Fn) : exec (.functionResetComplete fn) s = main s fun d => d.doFnResetDone fn := rfl
theorem exec_ptnReset (mask : BitVec 16) : exec (.ptnReset mask) s = main s fun d => d.atPage pRST fun d => d.doPtnReset mask.toNat := rfl
theorem exec_partitionResetComplete : exec (.partitionResetComplete p) s = main s fun d => d.ptnResetDone p := rfl
theorem exec_vfEnableClear : exec .vfEnableClear s = config .pf s fun d => d.doVfClear := rfl
theorem exec_vfEnableSet (k : Fin 17) : exec (.vfEnableSet k) s = config .pf s fun d => d.doVfSet k := rfl

end

/-- A configuration request reaches its function in ACTIVE, and settles (R195). -/
theorem config_active {d : Dev} (fn : Fn) (q : List Instr) (f : Dev → Dev) (h : d.active = true) : config fn ⟨d, q⟩ f = .next ⟨(f d).finish, q⟩ := by
  simp [config, fin, h]

/-- A command of a hub page that the PF reaches acts, and settles (R11, R425). -/
theorem main_atPage_reached {d : Dev} {base : Nat} (q : List Instr) (k : Dev → Dev) (hact : d.active = true) (hr : d.reach .pf base = .yes) :
    main ⟨d, q⟩ (fun d => d.atPage base k) = .next ⟨(k d).finish, q⟩ :=
  main_eq q hact (if_pos (beq_iff_eq.2 hr))

namespace Dev

theorem doFlrPf_merges {d : Dev} (h : d.pwr.fnReset.contains .pf = true) : d.doFlrPf = d := if_pos h

/-- In OPERATE the boot loader keeps its bundle: the full function is presented (R196). -/
theorem doFlrPf_operates {d : Dev} (h : d.pwr.fnReset.contains .pf = false) (hboot : 5 ≤ (d.clearVfs.beginFnReset .pf).bootState) :
    d.doFlrPf = (((d.clearVfs.beginFnReset .pf).p pDEV DEV_STATE_BOOT 0).on pDEV DEV_STATE_FULL).resetPtns 0xFFFF :=
  (if_neg (Bool.eq_false_iff.1 h)).trans (if_pos hboot)

theorem doFlrVf_notEnabled {d : Dev} {p : Fin 16} (h : d.pwr.vfNum ≤ p.val) : d.doFlrVf p = d := by
  simp [doFlrVf, h]

/-- A VF that is enabled, neither it nor the PF under reset, is reset, and so is its bound partition (R167, R386). -/
theorem doFlrVf_resets {d : Dev} {p : Fin 16} (hpf : d.pwr.fnReset.contains .pf = false) (hvf : d.pwr.fnReset.contains (.vf p) = false)
    (hen : p.val < d.pwr.vfNum) :
    d.doFlrVf p = if d.vfLive p then (d.beginFnReset (.vf p)).ptnResetReq p else d.beginFnReset (.vf p) := by
  rw [doFlrVf, hpf, hvf]
  exact if_neg (by simpa using hen)

theorem doVfSet_enables {d : Dev} (num : Nat) (hfull : d.full = true) (hpf : d.pwr.fnReset.contains .pf = false) (h : d.pwr.vfNum = 0) :
    d.doVfSet num = { d.tick with pwr := { d.pwr with vfNum := num, vfBar2 := barSize d.fresh } } := by
  rw [doVfSet, hfull, hpf, h]
  rfl

theorem doVfSet_enabled {d : Dev} (num : Nat) (h : d.pwr.vfNum ≠ 0) : d.doVfSet num = d := if_neg (by simp [h])

end Dev

/-- Settles O55: each reset and each change of VF Enable passes its guards, and its meaning is then the state written out. -/
theorem functionAndPartitionResetsTakeEffect : Obligations.FunctionAndPartitionResetsTakeEffect := by
  refine ⟨?flrPfMerged, ?flrPf, ?flrVfOff, ?flrVfBound, ?flrVfUnbound, ?functionDone, ?ptnReset, ?partitionDone, ?partitionIdle,
    ?vfClear, ?vfSet, ?vfSetTwice⟩
  case flrPfMerged =>
    intro d q hact h
    rw [exec_flrPf, config_active _ q _ hact, Dev.doFlrPf_merges h]
  case flrPf =>
    rintro d q _ hact h rfl hboot
    rw [exec_flrPf, config_active _ q _ hact, Dev.doFlrPf_operates h hboot]
  case flrVfOff =>
    intro d q p hact h
    rw [exec_flrVf, config_active _ q _ hact, Dev.doFlrVf_notEnabled h]
  case flrVfBound =>
    intro d q p hact hpf hvf hen hlive
    rw [exec_flrVf, config_active _ q _ hact, Dev.doFlrVf_resets hpf hvf hen, if_pos hlive]
  case flrVfUnbound =>
    intro d q p hact hpf hvf hen hlive
    rw [exec_flrVf, config_active _ q _ hact, Dev.doFlrVf_resets hpf hvf hen, if_neg (Bool.eq_false_iff.1 hlive)]
  case functionDone => exact fun d q fn hact => (exec_functionResetComplete ..).trans (main_active d q _ hact)
  case ptnReset => exact fun d q mask hact hr => (exec_ptnReset ..).trans (main_atPage_reached q _ hact hr)
  case partitionDone => exact fun d q p hact h => (exec_partitionResetComplete ..).trans (main_eq q hact (if_pos h))
  case partitionIdle => exact fun d q p hact h => (exec_partitionResetComplete ..).trans (main_eq q hact (if_neg (Bool.eq_false_iff.1 h)))
  case vfClear =>
    rintro d q ⟨hact, hfull⟩
    rw [exec_vfEnableClear, config_active _ q _ hact, Dev.doVfClear, hfull]
    rfl
  case vfSet =>
    rintro d q k ⟨hact, hfull⟩ hpf h
    rw [exec_vfEnableSet, config_active _ q _ hact, Dev.doVfSet_enables _ hfull hpf h]
  case vfSetTwice =>
    intro d q k hact h
    rw [exec_vfEnableSet, config_active _ q _ hact, Dev.doVfSet_enabled _ h]

end Sys2Proof.Machine

namespace Sys2Proof.Machine

/-! Outside ACTIVE (R195, R379): a command acts in any power state, or comes by a configuration request, or belongs to the main domain. -/

/-- A command that does not act in every power state settles some effect in ACTIVE, and elsewhere what `idleAnswer` gives: its meaning is one of the
main domain (`main`) or a configuration request (`config`). -/
theorem exec_inActive (c : Instr) (s : State) :
    alwaysActs c = true ∨ ∃ e : Dev, exec c s = .next (s.settle (if s.dev.active then e else s.dev.idleAnswer c)) := by
  cases c
  case vauxUp | vauxLoss | vin48Up | vin48Loss | perstAssert | perstDeassert | startup | wakeSource | boundaryScanExtest => exact .inl rfl
  all_goals exact .inr ⟨_, rfl⟩

/-- Settles O9: of a command that is not one of the nine, only the answer outside ACTIVE is left there. -/
theorem mainDomainCommandsNeedActive : Obligations.MainDomainCommandsNeedActive := by
  intro c d q hacts hidle
  obtain hnine | ⟨e, he⟩ := exec_inActive c ⟨d, q⟩
  · exact absurd hnine (Bool.eq_false_iff.1 hacts)
  · rw [he, if_neg (Bool.eq_false_iff.1 hidle)]
    rfl

end Sys2Proof.Machine

namespace Sys2Proof.Machine

/-! The boot loader (R198 to R203). -/

section
variable (s : State)

theorem exec_bootGo : exec .bootGo s = main s fun d => d.atPage pLDR fun d => d.doBootGo := rfl
theorem exec_bootAbort : exec .bootAbort s = main s fun d => d.atPage pLDR fun d => d.doBootAbort := rfl
theorem exec_bundleFetchComplete (data : Option (List Byte)) : exec (.bundleFetchComplete data) s = main s fun d => d.doFetchDone data := rfl
theorem exec_bundleVerifyComplete : exec .bundleVerifyComplete s = main s fun d => d.doVerifyDone := rfl
theorem exec_stageReady : exec .stageReady s = main s fun d => d.doStageReady := rfl
theorem exec_confirm : exec .confirm s = main s fun d => d.atPage pLDR fun d => d.doConfirm := rfl
theorem exec_burnComplete (fault : Bool) : exec (.burnComplete fault) s = main s fun d => d.doBurnDone fault := rfl

end

theorem main_atPage_eq {d e : Dev} {base : Nat} (q : List Instr) {k : Dev → Dev} (hact : d.active = true) (hr : d.reach .pf base = .yes) (h : k d = e) :
    main ⟨d, q⟩ (fun d => d.atPage base k) = .next ⟨e.finish, q⟩ := h ▸ main_atPage_reached q k hact hr

namespace Dev

section
variable {d : Dev}

/-- Counting an attempt leaves BOOT_LEN alone. -/
theorem bootLen_countAttempt : (d.add pLDR LDR_BUNDLE_ATTEMPTS_COUNT 1).g pLDR LDR_BOOT_LEN_BYTES = d.g pLDR LDR_BOOT_LEN_BYTES :=
  g_p_same _ _ _ _ _ (by decide)

/-- GO in READY counts the attempt and looks at the length (R198, R200). -/
theorem doBootGo_ready (h : d.bootState = 1) :
    d.doBootGo =
      if 768 ≤ d.g pLDR LDR_BOOT_LEN_BYTES ∧ d.g pLDR LDR_BOOT_LEN_BYTES ≤ 0x400000 then (d.add pLDR LDR_BUNDLE_ATTEMPTS_COUNT 1).setBoot 2
      else (d.add pLDR LDR_BUNDLE_ATTEMPTS_COUNT 1).refuseBundle 1 := by
  simp only [doBootGo, h, ne_eq, not_true_eq_false, if_false, bootLen_countAttempt, Bool.and_eq_true, decide_eq_true_eq]

theorem doBootAbort_loading (h : d.bootState = 2 ∨ d.bootState = 3) : d.doBootAbort = d.refuseBundle 8 :=
  if_pos (by simpa using h)

/-- A fetch that ends is looked at in FETCH alone (R198). -/
theorem doFetchDone_fetching (data : Option (List Byte)) (h : d.bootState = 2) :
    d.doFetchDone data =
      match data with
      | none => d.refuseBundle 2
      | some bs => if bs.length = d.g pLDR LDR_BOOT_LEN_BYTES then { d.setBoot 3 with boot := { d.boot with staging := bs } } else d.refuseBundle 2 := by
  cases data <;> simp [doFetchDone, h]

/-- CONFIRM in OPERATE asks the arbiter for FUSE (R201, R409). -/
theorem doConfirm_granted (h : d.bootState = 5) (hgrant : (d.mntRequest (mntId 7 16 0) 0 0x10000 false).2 = none) :
    d.doConfirm =
      let f := (d.mntRequest (mntId 7 16 0) 0 0x10000 false).1.setBoot 6
      { f with boot := { f.boot with burn := some (f.g pLDR LDR_BOOT_STATUS_RUNNING_SVN) } } := by
  rw [doConfirm, if_neg (not_not_intro h)]
  dsimp only
  rw [hgrant]

theorem doConfirm_conflict (h : d.bootState = 5) (hconflict : (d.mntRequest (mntId 7 16 0) 0 0x10000 false).2 ≠ none) :
    d.doConfirm = ((d.mntRequest (mntId 7 16 0) 0 0x10000 false).1.p pLDR LDR_BOOT_STATUS_CONFIRM_RESULT 2).irq pLDR 1 := by
  obtain ⟨holder, hholder⟩ := Option.ne_none_iff_exists'.1 hconflict
  rw [doConfirm, if_neg (not_not_intro h)]
  dsimp only
  rw [hholder]

/-- The end of a burn, whatever of it was burned: ACTIVE is entered again and FUSE given up (R200, R206). -/
theorem doBurnDone_burning (fault : Bool) {n : Nat} (h : d.boot.burn = some n) :
    d.doBurnDone fault =
      let f := if (!fault || n ≤ d.svnCount) = true then ((d.burnAll n).p pLDR LDR_BOOT_STATUS_CONFIRM_RESULT 1).p pLDR LDR_BOOT_STATUS_UNCONFIRMED 0
        else (d.burnPart n).p pLDR LDR_BOOT_STATUS_CONFIRM_RESULT 3
      ((({ f with boot := { f.boot with burn := none } }.setBoot 5).mntFree (mntId 7 16 0)).irq pLDR 0).irq pLDR 1 := by
  rw [doBurnDone, h]
  dsimp only
  split <;> rfl

end

end Dev

/-- Settles O38: each command passes the loader's state that it needs, and its meaning is then the state written out. -/
theorem bootLoaderCommandsTakeEffect : Obligations.BootLoaderCommandsTakeEffect := by
  refine ⟨?go, ?goLength, ?abort, ?fetchFailed, ?fetchLength, ?fetched, ?verified, ?ready, ?confirmed, ?conflict, ?burned, ?burnFault⟩
  case go =>
    intro d q hact hr hst hlo hhi
    exact (exec_bootGo ..).trans (main_atPage_eq q hact hr ((Dev.doBootGo_ready hst).trans (if_pos ⟨hlo, hhi⟩)))
  case goLength =>
    intro d q hact hr hst hlen
    exact (exec_bootGo ..).trans (main_atPage_eq q hact hr ((Dev.doBootGo_ready hst).trans (if_neg (by omega))))
  case abort =>
    intro d q hact hr hst
    exact (exec_bootAbort ..).trans (main_atPage_eq q hact hr (Dev.doBootAbort_loading hst))
  case fetchFailed =>
    intro d q hact hst
    exact (exec_bundleFetchComplete ..).trans (main_eq q hact (Dev.doFetchDone_fetching none hst))
  case fetchLength =>
    intro d q bs hact hst hlen
    exact (exec_bundleFetchComplete ..).trans (main_eq q hact ((Dev.doFetchDone_fetching (some bs) hst).trans (if_neg hlen)))
  case fetched =>
    intro d q bs hact hst hlen
    exact (exec_bundleFetchComplete ..).trans (main_eq q hact ((Dev.doFetchDone_fetching (some bs) hst).trans (if_pos hlen)))
  case verified =>
    intro d q hact hst
    exact (exec_bundleVerifyComplete ..).trans (main_eq q hact (if_neg (not_not_intro hst)))
  case ready =>
    intro d q hact hst
    exact (exec_stageReady ..).trans (main_eq q hact (if_neg (not_not_intro hst)))
  case confirmed =>
    intro d q hact hr hst hgrant
    exact (exec_confirm ..).trans (main_atPage_eq q hact hr (Dev.doConfirm_granted hst hgrant))
  case conflict =>
    intro d q hact hr hst hconflict
    exact (exec_confirm ..).trans (main_atPage_eq q hact hr (Dev.doConfirm_conflict hst hconflict))
  case burned =>
    intro d q n hact hburn
    rw [exec_burnComplete, main_active d q _ hact, Dev.doBurnDone_burning false hburn]
    rfl
  case burnFault =>
    intro d q n hact hburn hn
    rw [exec_burnComplete, main_active d q _ hact, Dev.doBurnDone_burning true hburn, if_neg (by simpa using hn)]

end Sys2Proof.Machine

namespace Sys2Proof.Machine

/-! Owner provisioning and trace authentication (R204, R348 to R353). -/

section
variable (tag : Byte) (ws : Words) (s : State)

theorem exec_ownerProvision : exec (.ownerProvision tag ws) s = main s fun d => d.serving fun d => d.doOwnerProvision tag.toNat ws := rfl
theorem exec_ownerBurnComplete (fault : Bool) : exec (.ownerBurnComplete fault) s = main s fun d => d.doOwnerBurnDone fault := rfl
theorem exec_tokenChallenge : exec (.tokenChallenge tag) s = main s fun d => if d.full then d.doTokenChallenge tag else d := rfl
theorem exec_tokenPresent : exec (.tokenPresent tag ws) s = main s fun d => d.serving fun d => d.doTokenPresent tag.toNat ws := rfl
theorem exec_tokenRevoke : exec (.tokenRevoke tag) s = main s fun d => if d.full then d.doTokenRevoke tag else d := rfl
theorem exec_tokenExpire : exec .tokenExpire s = main s fun d => d.doTokenExpire := rfl
theorem exec_authDisable : exec .authDisable s = main s fun d => if d.full then d.doAuthDisable else d := rfl

end

theorem main_full_eq {d e : Dev} (q : List Instr) {f : Dev → Dev} (hd : d.Up) (h : f d = e) :
    main ⟨d, q⟩ (fun d => if d.full then f d else d) = .next ⟨e.finish, q⟩ := h ▸ main_full q f hd

namespace Dev

theorem takeService_boot (d : Dev) (op tag arg : Nat) (ws : List W64) : (d.takeService op tag arg ws).boot = d.boot :=
  takeService_proj (·.boot) (fun _ _ _ => rfl) _ _ _ _ _

section
variable {d : Dev} {tag : Nat} {ws : List W64}

theorem doOwnerProvision_badLength (h : ws.length ≠ 6) : d.doOwnerProvision tag ws = (d.takeService 0x20 tag 0 ws).answer 0x20 tag 1 [] := if_pos h

theorem doOwnerProvision_alreadySet (h : ws.length = 6) (hprov : d.boot.ownerProv = true) :
    d.doOwnerProvision tag ws = (d.takeService 0x20 tag 0 ws).answer 0x20 tag 0x0C [] :=
  (if_neg (not_not_intro h)).trans (if_pos ((congrArg Boot.ownerProv (takeService_boot ..)).trans hprov))

/-- With six words and no owner the arbiter is asked for FUSE, and then a fuse that the hash would have to clear refuses it (R204, R409). -/
theorem doOwnerProvision_asks (h : ws.length = 6) (hprov : d.boot.ownerProv = false) :
    d.doOwnerProvision tag ws =
      let r := (d.takeService 0x20 tag 0 ws).mntRequest (mntId 7 16 0) 0 0x10000 false
      match r.2 with
      | some holder => r.1.answer 0x20 tag 0x0A [BitVec.ofNat 64 holder]
      | none =>
        if d.boot.ownerHash &&& ~~~(BitVec.ofNat 384 (wordsNat ws)) ≠ 0 then (r.1.mntFree (mntId 7 16 0)).answer 0x20 tag 0x0D []
        else { r.1 with boot := { r.1.boot with provTag := some (tag, BitVec.ofNat 384 (wordsNat ws)) } } := by
  rw [doOwnerProvision, if_neg (not_not_intro h)]
  cases hheld : ((d.takeService 0x20 tag 0 ws).mntRequest (mntId 7 16 0) 0 0x10000 false).2 with
  | none => simp only [takeService_boot, hprov, hheld, Bool.false_eq_true, if_false]
  | some holder => simp only [takeService_boot, hprov, hheld, Bool.false_eq_true, if_false]

end

end Dev

/-- Settles O39: the checks of each command in their order, and past them the state written out. -/
theorem ownerAndTokenCommandsTakeEffect : Obligations.OwnerAndTokenCommandsTakeEffect := by
  refine ⟨?provision, ?badLength, ?alreadySet, ?burned, ?challenge, ?challengeOff, ?present, ?revoke, ?revokeOff, ?expire, ?disable⟩
  case provision =>
    intro d q tag ws hd hlen hprov
    exact (exec_ownerProvision ..).trans (main_serving_eq q hd (Dev.doOwnerProvision_asks hlen hprov))
  case badLength =>
    intro d q tag ws hd hlen
    exact (exec_ownerProvision ..).trans (main_serving_eq q hd (Dev.doOwnerProvision_badLength hlen))
  case alreadySet =>
    intro d q tag ws hd hlen hprov
    exact (exec_ownerProvision ..).trans (main_serving_eq q hd (Dev.doOwnerProvision_alreadySet hlen hprov))
  case burned =>
    intro d q tag hash hact h
    rw [exec_ownerBurnComplete, main_active d q _ hact, Dev.doOwnerBurnDone, h]
    rfl
  case challenge => exact fun d q tag hd h => (exec_tokenChallenge ..).trans (main_full_eq q hd (if_pos h))
  case challengeOff => exact fun d q tag hd h => (exec_tokenChallenge ..).trans (main_full_eq q hd (if_neg (Bool.eq_false_iff.1 h)))
  case present => exact fun d q tag ws hd => (exec_tokenPresent ..).trans (main_serving q _ hd)
  case revoke => exact fun d q tag hd h => (exec_tokenRevoke ..).trans (main_full_eq q hd (if_pos h))
  case revokeOff => exact fun d q tag hd h => (exec_tokenRevoke ..).trans (main_full_eq q hd (if_neg (Bool.eq_false_iff.1 h)))
  case expire => exact fun d q hact h => (exec_tokenExpire ..).trans (main_eq q hact (if_pos h))
  case disable => exact fun d q hd => (exec_authDisable ..).trans (main_full q _ hd)

end Sys2Proof.Machine

namespace Sys2Proof.Machine

/-! The loader's batches (R210 to R215) and the scrubber (R217 to R222). -/

section
variable (p : Fin 16) (n : Fin 64) (w : WordLoc) (s : State)

theorem exec_loadGo : exec (.loadGo p) s = main s fun d => d.atPtn p fun d => d.doLoadGo p := rfl
theorem exec_loadAbort : exec (.loadAbort p) s = main s fun d => d.atPtn p fun d => d.doLoadAbort p := rfl
theorem exec_loadReplay : exec (.loadReplay p) s = main s fun d => d.atPtn p fun d => d.doLoadReplay p := rfl
theorem exec_frame (data : Option (List Byte)) : exec (.frame p data) s = main s fun d => d.doFrame p data := rfl
theorem exec_scrubWalkRead : exec (.scrubWalkRead n w) s = main s fun d => d.doWalkRead n w := rfl
theorem exec_scrubPassRequest : exec (.scrubPassRequest p) s = main s fun d => if d.full then d.doPassRequest p else d := rfl
theorem exec_scrubPassStart : exec .scrubPassStart s = main s fun d => d.doPassStart := rfl
theorem exec_scrubPassComplete : exec .scrubPassComplete s = main s fun d => d.doPassComplete := rfl
theorem exec_upset (fetch : Bool) : exec (.upset n w fetch) s = main s fun d => d.doUpset n w fetch := rfl
theorem exec_upsetRewrite : exec (.upsetRewrite n w) s = main s fun d => d.doUpsetRewrite n w := rfl

end

theorem main_atPtn_eq {d e : Dev} {i : Nat} (q : List Instr) {k : Dev → Dev} (hd : d.Takes i) (h : k d = e) :
    main ⟨d, q⟩ (fun d => d.atPtn i k) = .next ⟨e.finish, q⟩ := h ▸ main_atPtn_takes q k hd

namespace Dev

section
variable {d : Dev} {i : Nat}

theorem doLoadGo_begins (hfree : d.ptnBusy i = false) (hidle : d.b (pPTN i) PTN_LOAD_STATUS_BUSY = false) (hcount : d.g (pPTN i) PTN_LOAD_COUNT_COUNT ≠ 0) :
    d.doLoadGo i = d.startBatch i (d.g (pPTN i) PTN_LOAD_COUNT_COUNT) false :=
  if_neg (by simp [hfree, hidle, hcount])

theorem doLoadReplay_idle (hfree : d.ptnBusy i = false) (hidle : d.b (pPTN i) PTN_LOAD_STATUS_BUSY = false) :
    d.doLoadReplay i =
      match (d.ptnAt i).img with
      | some m => d.startBatch i m.frames true
      | none => (((d.p (pPTN i) PTN_LOAD_STATUS_REASON 11).p (pPTN i) PTN_LOAD_STATUS_INDEX 0).on (pPTN i) PTN_LOAD_STATUS_DONE).irq (pPTN i) 9 := by
  cases himg : (d.ptnAt i).img with
  | none => simp only [doLoadReplay, hfree, hidle, himg, Bool.or_self, Bool.false_eq_true, if_false]
  | some m => simp only [doLoadReplay, hfree, hidle, himg, Bool.or_self, Bool.false_eq_true, if_false]

/-- A batch takes the frame it is given, once the frame's cluster is on (R210, R382). -/
theorem doFrame_takes (data : Option (List Byte)) (hbusy : d.b (pPTN i) PTN_LOAD_STATUS_BUSY = true) (hload : (d.ptnAt i).replay = false)
    (hready : d.frameWaits i data = false) :
    d.doFrame i data =
      let r := d.takeFrame i data
      if !r.2 then r.1.endBatch i
      else
        let f := (r.1.p (pPTN i) PTN_LOAD_STATUS_INDEX (r.1.g (pPTN i) PTN_LOAD_STATUS_INDEX + 1)).modPtn i fun x => { x with batch := x.batch - 1 }
        if (f.ptnAt i).batch == 0 || (f.ptnAt i).dstop then f.endBatch i else f := by
  simp only [doFrame, hbusy, hload, hready, Bool.not_true, Bool.false_eq_true, if_false]

/-- A walk step of a word of a loaded cluster (R218). -/
theorem doWalkRead_loaded {n : Nat} (w : WordLoc) (hown : d.ownerOf n = some i) (hloaded : d.b (pPTN i) PTN_SEQ_STATUS_LOADED = true)
    (hrate : d.g pSCR SCR_CFG_RATE ≠ 0) (hrows : d.b pSCR SCR_CFG_DMEM = true) :
    d.doWalkRead n w =
      let f := d.scrubRead n w
      if w == .mesh 7 255 && d.lastWalked == some n then f.add pSCR SCR_WALK_COUNT_COUNT 1 else f :=
  if_neg (by simp [hown, hloaded, hrate, hrows])

/-- A due rewrite takes the image area's copy, where there is one (R217, R220). -/
theorem doUpsetRewrite_due {n : Nat} {w : WordLoc} {e : Nat × WordLoc × Bool} (hdue : d.rewrites.find? (fun e => e.1 == n && e.2.1 == w) = some e)
    (hown : d.ownerOf n = some i) :
    d.doUpsetRewrite n w =
      match (d.imageWord i n w).2 with
      | none => (d.imageWord i n w).1
      | some v => ((d.imageWord i n w).1.putWord n w v).add pSCR (if e.2.2 then SCR_RELOADS_COUNT else SCR_UE_NONESSENTIAL_COUNT) 1 := by
  cases hcopy : (d.imageWord i n w).2 with
  | none => simp only [doUpsetRewrite, hdue, hown, hcopy]
  | some v => simp only [doUpsetRewrite, hdue, hown, hcopy]

end

end Dev

/-- Settles O40: each command passes its guards, and its meaning is then the state written out. -/
theorem loaderAndScrubberCommandsTakeEffect : Obligations.LoaderAndScrubberCommandsTakeEffect := by
  refine ⟨?go, ?abort, ?replay, ?noImage, ?frameLost, ?frame, ?walk, ?passRequest, ?passStart, ?passComplete, ?upset, ?rewrite⟩
  case go =>
    intro d q p hd hidle hcount
    exact (exec_loadGo ..).trans (main_atPtn_eq q hd (Dev.doLoadGo_begins hd.2 hidle hcount))
  case abort => exact fun d q p hd hbusy => (exec_loadAbort ..).trans (main_atPtn_eq q hd (if_pos hbusy))
  case replay =>
    intro d q p m hd hidle himg
    rw [exec_loadReplay, main_atPtn_takes q _ hd, Dev.doLoadReplay_idle hd.2 hidle, himg]
  case noImage =>
    intro d q p hd hidle himg
    rw [exec_loadReplay, main_atPtn_takes q _ hd, Dev.doLoadReplay_idle hd.2 hidle, himg]
  case frameLost =>
    intro d q p hact hbusy hload
    exact (exec_frame ..).trans (main_eq q hact (Dev.doFrame_takes none hbusy hload rfl))
  case frame =>
    intro d q p data hact hbusy hload hready
    exact (exec_frame ..).trans (main_eq q hact (Dev.doFrame_takes data hbusy hload hready))
  case walk =>
    intro d q n w i hact hown hloaded hrate hrows
    exact (exec_scrubWalkRead ..).trans (main_eq q hact (Dev.doWalkRead_loaded w hown hloaded hrate hrows))
  case passRequest => exact fun d q p hd => (exec_scrubPassRequest ..).trans (main_full q _ hd)
  case passStart => exact fun d q hact => (exec_scrubPassStart ..).trans (main_active d q _ hact)
  case passComplete =>
    intro d q i hact hholds
    rw [exec_scrubPassComplete, main_active d q _ hact, Dev.doPassComplete, hholds]
  case upset =>
    intro d q n w fetch i hact hraised hown
    have hown' : Dev.ownerOf { d with raised := d.raised.erase (n.val, w, fetch) } n = some i := hown
    rw [exec_upset, main_active d q _ hact, Dev.doUpset, if_neg (by simp only [hraised, Bool.not_true, Bool.false_eq_true, not_false_iff])]
    dsimp only
    rw [hown']
  case rewrite =>
    intro d q n w i e hact hdue hown
    exact (exec_upsetRewrite ..).trans (main_eq q hact (Dev.doUpsetRewrite_due hdue hown))

end Sys2Proof.Machine

namespace Sys2Proof.Machine

/-! Supplies, PERST#, start-up and wake sources (R377 to R390). -/

section
variable (s : State)

theorem exec_vauxUp : exec .vauxUp s = fin s fun d => if d.pwr.st == .off then d.powerOn else d := rfl
theorem exec_vauxLoss : exec .vauxLoss s = fin s fun d => d.doVauxLoss := rfl
theorem exec_vin48Up : exec .vin48Up s = fin s fun d => d.doVin48Up := rfl
theorem exec_vin48Loss : exec .vin48Loss s = fin s fun d => d.doVin48Loss := rfl
theorem exec_perstAssert : exec .perstAssert s = fin s fun d => d.doPerstAssert := rfl
theorem exec_perstDeassert : exec .perstDeassert s = fin s fun d => d.doPerstDeassert := rfl
theorem exec_startup (refclk healthOk : Bool) : exec (.startup refclk healthOk) s = fin s fun d => d.doStartup refclk healthOk := rfl
theorem exec_device : exec .device s = main s fun d => d.atPage pRST fun d => d.doDevice := rfl
theorem exec_wakeSource (src : Fin 10) : exec (.wakeSource src) s = fin s fun d => d.doWake src := rfl

end

/-- A command that acts in every power state settles the device that its effect comes to. -/
theorem fin_eq {d e : Dev} (q : List Instr) {f : Dev → Dev} (h : f d = e) : fin ⟨d, q⟩ f = .next ⟨e.finish, q⟩ := h ▸ fin_mk d q f

namespace Dev

section
variable {d : Dev}

theorem doVin48Up_standby (h : d.pwr.st = .standby) :
    d.doVin48Up =
      let f : Dev := { d with pwr := { d.pwr with vin48 := true } }
      { f.on pAON AON_WAKE_CAUSE_VIN48 with pwr := { d.pwr with vin48 := true, st := .doze } } := if_pos (beq_iff_eq.2 h)

theorem doVin48Up_other (h : d.pwr.st ≠ .standby) : d.doVin48Up = { d with pwr := { d.pwr with vin48 := true } } := if_neg (mt beq_iff_eq.1 h)

/-- 48 V lost: ACTIVE ends with a last-gasp entry, DOZE becomes STANDBY, and the other states stay (R380, R407). -/
theorem doVin48Loss_eq (d : Dev) :
    d.doVin48Loss =
      match d.pwr.st with
      | .active =>
        let f : Nat → Nat := fun i => (Config.freeWord d.fresh i).toNat
        (({ d with pwr := { d.pwr with vin48 := false } } : Dev).tick.lastGasp (f 0 % 1024) (f 1 % 4) 16 (f 2 ||| f 3 <<< 32) (f 4 ||| f 5 <<< 32)).perst 2 .standby
      | .doze => { d with pwr := { d.pwr with vin48 := false, st := .standby } }
      | _ => { d with pwr := { d.pwr with vin48 := false } } := rfl

/-- PERST# asserted: ACTIVE ends unless a controlled stop runs, and in DOZE and STANDBY the Warden returns to IDLE (R380, R388, R392). -/
theorem doPerstAssert_eq (d : Dev) :
    d.doPerstAssert =
      match d.pwr.st with
      | .active =>
        if d.pwr.stopping then { d with pwr := { d.pwr with perst := true, afterStop := false } }
        else ({ d with pwr := { d.pwr with perst := true, afterStop := false } } : Dev).perst 1 .doze
      | .doze | .standby => ({ d with pwr := { d.pwr with perst := true, afterStop := false } } : Dev).p pWDN WDN_STATUS_STATE 0
      | .off => { d with pwr := { d.pwr with perst := true, afterStop := false } } := rfl

theorem doStartup_idle (refclk healthOk : Bool) (h : d.mayStart = false) : d.doStartup refclk healthOk = d := by
  simp only [doStartup, h, Bool.not_false, if_true]

theorem doWake_latches (src : Nat) (hst : d.pwr.st = .doze) (hen : d.wakeEnabled src = true) : d.doWake src = d.latchWake src :=
  if_pos (by simp [hst, hen])

theorem doWake_disabled (src : Nat) (hen : d.wakeEnabled src = false) : d.doWake src = d := if_neg (by simp [hen])

end

end Dev

/-- Settles O54: each event acts by the power state it finds, and the state it comes to is the one written out. -/
theorem suppliesAndResetPinsTakeEffect : Obligations.SuppliesAndResetPinsTakeEffect := by
  refine ⟨?vauxUp, ?vauxUpAgain, ?vauxLoss, ?vinUp, ?vinUpOther, ?vinLossDoze, ?vinLossActive, ?perst, ?perstStopping, ?perstDoze, ?perstStandby,
    ?perstOff, ?deassert, ?noStart, ?startKeyless, ?start, ?device, ?deviceStopping, ?wake, ?wakeDisabled⟩
  case vauxUp => exact fun d q hst => (exec_vauxUp ..).trans (fin_eq q (if_pos (beq_iff_eq.2 hst)))
  case vauxUpAgain => exact fun d q hst => (exec_vauxUp ..).trans (fin_eq q (if_neg (mt beq_iff_eq.1 hst)))
  case vauxLoss => exact fun d q => (exec_vauxLoss ..).trans (fin_mk d q _)
  case vinUp => exact fun d q hst => (exec_vin48Up ..).trans (fin_eq q (Dev.doVin48Up_standby hst))
  case vinUpOther => exact fun d q hst => (exec_vin48Up ..).trans (fin_eq q (Dev.doVin48Up_other hst))
  case vinLossDoze => exact fun d q hst => (exec_vin48Loss ..).trans (fin_eq q (by rw [Dev.doVin48Loss_eq, hst]))
  case vinLossActive => exact fun d q hst => (exec_vin48Loss ..).trans (fin_eq q (by rw [Dev.doVin48Loss_eq, hst]))
  case perst =>
    exact fun d q hst hstop => (exec_perstAssert ..).trans (fin_eq q (by rw [Dev.doPerstAssert_eq, hst, hstop]; rfl))
  case perstStopping => exact fun d q hst hstop => (exec_perstAssert ..).trans (fin_eq q (by rw [Dev.doPerstAssert_eq, hst, hstop]; rfl))
  case perstDoze => exact fun d q hst => (exec_perstAssert ..).trans (fin_eq q (by rw [Dev.doPerstAssert_eq, hst]))
  case perstStandby => exact fun d q hst => (exec_perstAssert ..).trans (fin_eq q (by rw [Dev.doPerstAssert_eq, hst]))
  case perstOff => exact fun d q hst => (exec_perstAssert ..).trans (fin_eq q (by rw [Dev.doPerstAssert_eq, hst]))
  case deassert => exact fun d q => (exec_perstDeassert ..).trans (fin_mk d q _)
  case noStart => exact fun d q refclk healthOk h => (exec_startup ..).trans (fin_eq q (Dev.doStartup_idle refclk healthOk h))
  case startKeyless =>
    intro d q refclk h
    rw [exec_startup, fin_mk, Dev.doStartup, h]
    rfl
  case start =>
    intro d q refclk h
    rw [exec_startup, fin_mk, Dev.doStartup, h]
    rfl
  case device =>
    exact fun d q hact hr hstop => (exec_device ..).trans (main_atPage_eq q hact hr (if_neg (Bool.eq_false_iff.1 hstop)))
  case deviceStopping => exact fun d q hact hr hstop => (exec_device ..).trans (main_atPage_eq q hact hr (if_pos hstop))
  case wake => exact fun d q src hst hen => (exec_wakeSource ..).trans (fin_eq q (Dev.doWake_latches src hst hen))
  case wakeDisabled => exact fun d q src hen => (exec_wakeSource ..).trans (fin_eq q (Dev.doWake_disabled src hen))

end Sys2Proof.Machine

namespace Sys2Proof.Machine

/-! Lane groups: enabling, markers, acquisition, lane loss and disabling (R228 to R232, R239). -/

section
variable (g : Fin 16) (l : Fin 8) (s : State)

theorem exec_laneGroupEnable : exec (.laneGroupEnable g) s = main s fun d => d.atPage (pLGRP g) fun d => d.doLaneEnable g := rfl
theorem exec_laneGroupDisable : exec (.laneGroupDisable g) s = main s fun d => d.atPage (pLGRP g) fun d => d.doLaneDisable g := rfl
theorem exec_laneClockRecovered : exec (.laneClockRecovered g l) s = main s fun d => d.doLaneRecovered g l := rfl
theorem exec_markerSend : exec (.markerSend g) s = main s fun d => d.doMarkerSend g := rfl
theorem exec_marker (bits : BitVec 320) (ui : Nat) : exec (.marker g l bits ui) s = main s fun d => d.doMarker g l bits ui := rfl
theorem exec_acqTimeout : exec (.acqTimeout g) s = main s fun d => d.doAcqTimeout g := rfl
theorem exec_laneLoss : exec (.laneLoss g l) s = main s fun d => d.loseLane g l := rfl

end

/-- Scrambling twice from one register gives the bits back (R228): the register does not depend on the data. -/
theorem scramble_scramble (s : Nat) (bits : List Bool) : (scramble (scramble bits s).1 s).1 = bits := by
  induction bits generalizing s with
  | nil => rfl
  | cons b bs ih => simp only [scramble, Bool.xor_assoc, Bool.xor_self, Bool.xor_false, ih]

namespace Dev

section
variable {d : Dev} {gi l : Nat}

/-- The guard of what acts in the states from ACQUIRE to UP alone. -/
theorem lgState_linkMode (h0 : d.lgState gi ≠ 0) (h4 : d.lgState gi ≤ 4) : ¬ (d.lgState gi == 0 || decide (4 < d.lgState gi)) = true := by
  simp only [Bool.or_eq_true, beq_iff_eq, h0, decide_eq_true_eq, false_or, Nat.not_lt, h4]

theorem leaveUp_up (cause next : Nat) (h : d.lgState gi = 4) : d.leaveUp gi cause next = d.linkDown gi cause next := if_pos (beq_iff_eq.2 h)

theorem leaveUp_notUp (cause next : Nat) (h : d.lgState gi ≠ 4) : d.leaveUp gi cause next = d := if_neg (mt beq_iff_eq.1 h)

theorem doLaneEnable_disabled (hen : d.b (pLGRP gi) LGRP_CFG_EN = false) (hmode : d.lgMode gi = 0) :
    d.doLaneEnable gi =
      let e := (d.on (pLGRP gi) LGRP_CFG_EN).putBit pCKG CKG_STATUS_LANE_LOCK gi true
      (e.setLink gi { Link.reset with recovered := (e.linkAt gi).recovered }).toAcquire gi := by
  rw [doLaneEnable, hen, hmode]
  rfl

/-- A group that is not UP is disabled at once, its arbiter entry freed where it is in TEST (R232, R245). -/
theorem doLaneDisable_notUp (h : d.lgState gi ≠ 4) :
    d.doLaneDisable gi =
      let e := if d.lgState gi == 5 then d.mntFree (mntId 4 16 gi) else d
      let e := ((e.p (pLGRP gi) LGRP_CFG_EN 0).p (pLGRP gi) LGRP_STATUS_STATE 0).p (pLGRP gi) LGRP_STATUS_LANE_LOCK 0
      let e := (((e.p (pLGRP gi) LGRP_STATUS_FAR_ALIGNED 0).p (pLGRP gi) LGRP_PRBS_STATUS_LOCK 0).p (pLGRP gi) LGRP_LOOP_MODE 0).p (pLGRP gi)
        LGRP_BRIDGE_STATUS_ALIGNED 0
      (e.putBit pCKG CKG_STATUS_LANE_LOCK gi false).setLink gi Link.reset := by
  rw [doLaneDisable, leaveUp_notUp 4 0 h]

/-- The markers of a period and the codewords before them leave on all eight lanes (R228, R230). -/
def sendMarkers (d : Dev) (gi : Nat) (up aligned : Bool) (echo turn : Nat) : Dev :=
  let f := (d.modLink gi fun x => { x with sent := (d.steps32 :: x.sent).take 64 }).holdInjection gi
  let r := (f.linkAt gi).period up
  (f.setLink gi r.2).tick.each (List.range 8) fun x l =>
    x.sendPeriod gi l (if f.g (pLGRP gi) LGRP_STATUS_VER == 1 then (List.range periodData).map fun k => Config.al1Bit (x.fresh + l) k else r.1 l)
      (markerBits l gi x.devNum (x.offered gi) aligned d.steps32 echo turn)

/-- Before ALIGNED, and with no marker heard, markers say so and echo nothing (R230). -/
theorem doMarkerSend_unheard (h1 : 1 ≤ d.lgState gi) (h3 : d.lgState gi < 3) (hstamp : (d.linkAt gi).lastStamp = none) :
    d.doMarkerSend gi = d.sendMarkers gi false false 0 0 := by
  have hup : (d.lgState gi == 4) = false := beq_eq_false_iff_ne.2 (by omega)
  have haligned : decide (3 ≤ d.lgState gi) = false := decide_eq_false (by omega)
  rw [doMarkerSend, if_neg (lgState_linkMode (by omega) (by omega)), hstamp, hup, haligned]
  rfl

/-- From ALIGNED on, markers echo the last stamp heard and tell how long ago that was (R230, R235). -/
theorem doMarkerSend_heard {s : Nat × Nat} (h3 : 3 ≤ d.lgState gi) (h4 : d.lgState gi ≤ 4) (hstamp : (d.linkAt gi).lastStamp = some s) :
    d.doMarkerSend gi = d.sendMarkers gi (d.lgState gi == 4) true s.1 (stepDiff d.steps32 s.2) := by
  rw [doMarkerSend, if_neg (lgState_linkMode (by omega) h4), hstamp, decide_eq_true h3]
  rfl

section
variable {bits : BitVec 320} (ui : Nat)

/-- A valid marker is noted by its lane, its stamp kept where that is lane 0, and the group may move on (R230, R232). -/
theorem doMarker_valid (h0 : d.lgState gi ≠ 0) (h4 : d.lgState gi ≤ 4) (hv : markerValid bits.toNat = true) :
    d.doMarker gi l bits ui =
      ((((d.capLine gi l false false (bitsLsb bits.toNat 320)).noteMarker gi l bits.toNat ui).modLink gi fun x =>
        { x with rxScr := SMap.put x.rxScr l (scrambleSeed l) }).iff (l == 0) fun e => e.noteStamp gi bits.toNat).bringUp gi l bits.toNat := by
  rw [doMarker, if_neg (lgState_linkMode h0 h4), if_pos hv]

/-- An invalid marker ends a run of valid ones, and counts (R232, R239). -/
def missMarker (d : Dev) (gi l v : Nat) : Dev :=
  (d.capLine gi l false false (bitsLsb v 320)).modLink gi fun x =>
    { x with good := SMap.put (SMap.put x.good l 0) (8 + l) (SMap.get 0 (d.linkAt gi).good (8 + l) + 1), uncPer := SMap.del x.uncPer l,
             rxScr := SMap.put x.rxScr l (scrambleSeed l) }

theorem doMarker_invalid (h0 : d.lgState gi ≠ 0) (h4 : d.lgState gi ≤ 4) (hv : markerValid bits.toNat = false) :
    d.doMarker gi l bits ui =
      let e := d.missMarker gi l bits.toNat
      let e := if d.lgState gi == 1 then e.putBit (pLGRP gi) LGRP_STATUS_LANE_LOCK l false else e
      if 4 ≤ SMap.get 0 (d.linkAt gi).good (8 + l) + 1 ∧ 2 ≤ d.lgState gi then e.loseLane gi l else e := by
  rw [doMarker, if_neg (lgState_linkMode h0 h4), if_neg (Bool.eq_false_iff.1 hv)]
  simp only [Bool.and_eq_true, decide_eq_true_eq]
  rfl

/-- An aligned lane bears three invalid markers in a row (R239). -/
theorem doMarker_missed (h2 : 2 ≤ d.lgState gi) (h4 : d.lgState gi ≤ 4) (hv : markerValid bits.toNat = false)
    (hfew : SMap.get 0 (d.linkAt gi).good (8 + l) < 3) : d.doMarker gi l bits ui = d.missMarker gi l bits.toNat := by
  rw [doMarker_invalid ui (by omega) h4 hv]
  dsimp only
  rw [if_neg (mt beq_iff_eq.1 (show d.lgState gi ≠ 1 by omega)), if_neg (by omega)]

/-- The fourth in a row loses it (R239). -/
theorem doMarker_lost (h2 : 2 ≤ d.lgState gi) (h4 : d.lgState gi ≤ 4) (hv : markerValid bits.toNat = false)
    (hmany : 3 ≤ SMap.get 0 (d.linkAt gi).good (8 + l)) : d.doMarker gi l bits ui = (d.missMarker gi l bits.toNat).loseLane gi l := by
  rw [doMarker_invalid ui (by omega) h4 hv]
  dsimp only
  rw [if_neg (mt beq_iff_eq.1 (show d.lgState gi ≠ 1 by omega)), if_pos ⟨by omega, h2⟩]

/-- In ACQUIRE a lane only loses its LOCK (R232). -/
theorem doMarker_unlocked (h1 : d.lgState gi = 1) (hv : markerValid bits.toNat = false) :
    d.doMarker gi l bits ui = (d.missMarker gi l bits.toNat).putBit (pLGRP gi) LGRP_STATUS_LANE_LOCK l false := by
  have h0 : d.lgState gi ≠ 0 := by omega
  have h4 : d.lgState gi ≤ 4 := by omega
  rw [doMarker_invalid ui h0 h4 hv]
  dsimp only
  rw [if_pos (beq_iff_eq.2 h1), if_neg (by omega)]

end

/-- In LINK mode a lost lane takes the group to ACQUIRE, the link down first (R232, R239). -/
theorem loseLane_linkMode (h0 : d.lgState gi ≠ 0) (h4 : d.lgState gi ≤ 4) :
    d.loseLane gi l =
      ((d.leaveUp gi 1 1).toAcquire gi).modLink gi fun x => { x with recovered := x.recovered &&& (255 - 1 <<< l), uncPer := SMap.del x.uncPer l } :=
  (if_neg (mt beq_iff_eq.1 h0)).trans (if_neg (by omega))

/-- In TEST and BRIDGE only its clock goes (R331). -/
theorem loseLane_otherMode (h4 : 4 < d.lgState gi) :
    d.loseLane gi l = d.modLink gi fun x => { x with recovered := x.recovered &&& (255 - 1 <<< l) } :=
  (if_neg (mt beq_iff_eq.1 (by omega))).trans (if_pos h4)

end

end Dev

/-- Settles O41: each event passes its guards by the group's state, and the group it comes to is the one written out; descrambling undoes scrambling. -/
theorem laneGroupsTrainInOrder : Obligations.LaneGroupsTrainInOrder := by
  refine ⟨?enable, ?enabled, ?disable, ?disableTest, ?recovered, ?sendUnheard, ?sendHeard, scramble_scramble, ?marker, ?markerLane0,
    ?missed, ?missedLost, ?missedAcquire, ?timeout, ?timeoutIdle, ?loss, ?lossUp, ?lossOther⟩
  case enable =>
    exact fun d q g hact hr hen hmode => (exec_laneGroupEnable ..).trans (main_atPage_eq q hact hr (Dev.doLaneEnable_disabled hen hmode))
  case enabled => exact fun d q g hact hr hen => (exec_laneGroupEnable ..).trans (main_atPage_eq q hact hr (if_pos hen))
  case disable =>
    intro d q g hact hr hst
    have hstate : d.lgState g = 3 := hst
    rw [exec_laneGroupDisable, main_atPage_reached q _ hact hr, Dev.doLaneDisable_notUp (by omega), hstate]
    rfl
  case disableTest =>
    intro d q g hact hr hst
    have hstate : d.lgState g = 5 := hst
    rw [exec_laneGroupDisable, main_atPage_reached q _ hact hr, Dev.doLaneDisable_notUp (by omega), hstate]
    rfl
  case recovered => exact fun d q g l hact hst => (exec_laneClockRecovered ..).trans (main_eq q hact (if_neg (mt beq_iff_eq.1 hst)))
  case sendUnheard =>
    exact fun d q g hact h1 h3 hstamp => (exec_markerSend ..).trans (main_eq q hact (Dev.doMarkerSend_unheard h1 h3 hstamp))
  case sendHeard =>
    exact fun d q g s hact h3 h4 hstamp => (exec_markerSend ..).trans (main_eq q hact (Dev.doMarkerSend_heard h3 h4 hstamp))
  case marker =>
    intro d q g l bits ui hact h0 h4 hl hv
    have hlane : (l.val == 0) = false := beq_eq_false_iff_ne.2 (Fin.val_ne_zero_iff.2 hl)
    rw [exec_marker, main_active d q _ hact, Dev.doMarker_valid ui h0 h4 hv, hlane, Dev.iff_false]
  case markerLane0 => exact fun d q g bits ui hact h0 h4 hv => (exec_marker ..).trans (main_eq q hact (Dev.doMarker_valid ui h0 h4 hv))
  case missed => exact fun d q g l bits ui hact h2 h4 hv hfew => (exec_marker ..).trans (main_eq q hact (Dev.doMarker_missed ui h2 h4 hv hfew))
  case missedLost => exact fun d q g l bits ui hact h2 h4 hv hmany => (exec_marker ..).trans (main_eq q hact (Dev.doMarker_lost ui h2 h4 hv hmany))
  case missedAcquire => exact fun d q g l bits ui hact h1 hv => (exec_marker ..).trans (main_eq q hact (Dev.doMarker_unlocked ui h1 hv))
  case timeout => exact fun d q g hact hst => (exec_acqTimeout ..).trans (main_eq q hact (if_pos (beq_iff_eq.2 hst)))
  case timeoutIdle => exact fun d q g hact hst => (exec_acqTimeout ..).trans (main_eq q hact (if_neg (mt beq_iff_eq.1 hst)))
  case loss =>
    intro d q g l hact h1 h3
    have hstate : 1 ≤ d.lgState g ∧ d.lgState g ≤ 3 := ⟨h1, h3⟩
    rw [exec_laneLoss, main_active d q _ hact, Dev.loseLane_linkMode (by omega) (by omega), Dev.leaveUp_notUp 1 1 (by omega)]
  case lossUp =>
    intro d q g l hact hst
    have hstate : d.lgState g = 4 := hst
    rw [exec_laneLoss, main_active d q _ hact, Dev.loseLane_linkMode (by omega) (by omega), Dev.leaveUp_up 1 1 hstate]
  case lossOther => exact fun d q g l hact h4 => (exec_laneLoss ..).trans (main_eq q hact (Dev.loseLane_otherMode h4))

end Sys2Proof.Machine

namespace Sys2Proof.Machine

/-! Codewords, link flits, credits and slot frames (R236 to R242). -/

section
variable (g : Fin 16) (s : State)

theorem exec_codeword (l : Fin 8) (data check : List (Fin 1024)) :
    exec (.codeword g l data check) s = main s fun d => d.doCodeword g l ((data ++ check).map (·.val)) := rfl
theorem exec_linkFlit (bits : BitVec 320) (bad : Bool) : exec (.linkFlit g bits bad) s = main s fun d => d.doLinkFlit g bits bad := rfl
theorem exec_credit (vc : Fin 4) (count : Nat) (intact : Bool) : exec (.credit g vc count intact) s = main s fun d => d.doCredit g vc count intact := rfl
theorem exec_slotFrame (k : Nat) (fields : SlotBits) :
    exec (.slotFrame g k fields) s = main s fun d => d.doSlotFrame g k fields.frame.toNat fields.n 0 := rfl

end

theorem frameField_zero (k : Nat) : frameField 0 k = 0 := by simp only [frameField, Nat.zero_shiftRight, BitVec.ofNat_eq_ofNat]

namespace Dev

section
variable {d : Dev} {gi l : Nat}

section
variable {symbols : List Nat} (h0 : d.lgState gi ≠ 0) (h4 : d.lgState gi ≤ 4)
include h0 h4

theorem doCodeword_clean (hdec : rsDecode symbols = .clean) :
    d.doCodeword gi l symbols =
      ((d.add (pLGRP gi) LGRP_CW_TOTAL_COUNT 1).capLine gi l false false (bitsOfSymbols symbols)).takeCodeword gi l symbols false := by
  rw [doCodeword, if_neg (lgState_linkMode h0 h4), hdec]

theorem doCodeword_corrected {k : Nat} (hdec : rsDecode symbols = .corrected k) :
    d.doCodeword gi l symbols =
      ((((d.add (pLGRP gi) LGRP_CW_TOTAL_COUNT 1).capLine gi l false false (bitsOfSymbols symbols)).add (pLGRP gi) LGRP_CW_CORR_COUNT 1).add (pLGRP gi)
        LGRP_SYM_CORR_COUNT k).takeCodeword gi l (rsCorrect symbols) false := by
  rw [doCodeword, if_neg (lgState_linkMode h0 h4), hdec]

/-- An uncorrectable codeword is counted, on its lane too, and raised; the 17th in a marker period loses the lane (R238, R239). -/
theorem doCodeword_bad (hdec : rsDecode symbols = .bad) :
    d.doCodeword gi l symbols =
      let e := (d.add (pLGRP gi) LGRP_CW_TOTAL_COUNT 1).capLine gi l false false (bitsOfSymbols symbols)
      let e := ((e.add (pLGRP gi) LGRP_CW_UNCORR_COUNT 1).add (pLGRP gi) (LGRP_LANE_UNCORR_COUNT l) 1).irq (pLGRP gi) 4
      let e := e.raise (0x080 + gi) 2 16 (e.lgStatus gi) l
      let n := SMap.get 0 (e.linkAt gi).uncPer l + 1
      let h := (e.modLink gi fun x => { x with uncPer := SMap.put x.uncPer l n }).takeCodeword gi l symbols true
      if 16 < n then h.loseLane gi l else h := by
  rw [doCodeword, if_neg (lgState_linkMode h0 h4), hdec]

end

/-- A lane that has seen no marker's place is not descrambled (R228). -/
theorem takeCodeword_unplaced (symbols : List Nat) (bad : Bool) (h : SMap.get? (d.linkAt gi).rxScr l = none) : d.takeCodeword gi l symbols bad = d := by
  rw [takeCodeword, h]

section
variable {bits : BitVec 320} (hup : d.lgState gi = 4)
include hup

/-- A flit that fails its check is counted, and answered by a NAK unless one is due already (R238, R241). -/
theorem doLinkFlit_fails {bad : Bool} (hfail : bad = true ∨ crc32c (leBytes 36 bits.toNat) ≠ bitsAt bits.toNat 288 32) :
    d.doLinkFlit gi bits bad =
      let e := d.add (pLGRP gi) LGRP_FLIT_CRC_ERR_COUNT 1
      if (e.linkAt gi).nakDue then e else (e.setLink gi { e.linkAt gi with nakDue := true }).sendNull gi true := by
  have hcheck : (bad || decide (crc32c (leBytes 36 bits.toNat) ≠ bitsAt bits.toNat 288 32)) = true :=
    Bool.or_eq_true_iff.2 (hfail.imp_right decide_eq_true)
  rw [doLinkFlit, if_neg (not_not_intro hup), if_pos hcheck]

/-- A whole data flit with the awaited number, without an acknowledgement: it is taken, its credit returned and it is acknowledged (R240, R241). -/
theorem doLinkFlit_taken (hcrc : crc32c (leBytes 36 bits.toNat) = bitsAt bits.toNat 288 32) (hack : bits.toNat.testBit 26 = false)
    (hnak : bits.toNat.testBit 27 = false) (hdata : bitsAt bits.toNat 28 4 = 1) (hseq : bitsAt bits.toNat 0 12 = (d.linkAt gi).rxSeq) :
    d.doLinkFlit gi bits false =
      ((((d.modLink gi fun x =>
        { x with rxSeq := (x.rxSeq + 1) % 4096, rxAny := true, nakDue := false, rxPart := x.rxPart ++ [BitVec.ofNat 256 (bits.toNat >>> 32)] }).control gi 8
          (bitsAt bits.toNat 12 2 ||| 4)).sendNull gi false).deliverFlits gi) := by
  rw [doLinkFlit, if_neg (not_not_intro hup), if_neg (by simp only [hcrc, ne_eq, not_true_eq_false, decide_false, Bool.or_self, Bool.false_eq_true, not_false_eq_true])]
  simp only [hack, hnak, hdata, hup, hseq, ne_eq, not_true_eq_false, decide_false, Bool.or_self, Bool.false_eq_true, if_false,
    Nat.reduceShiftLeft]

end

/-- On a link that is UP a credit message acts where it is intact, and is counted where it is broken (R242). -/
theorem doCredit_up (vc count : Nat) (intact : Bool) (hup : d.lgState gi = 4) :
    d.doCredit gi vc count intact =
      if !intact then d.ctlBad gi
      else (d.modLink gi fun x => { x with credits := SMap.set 0 x.credits vc (SMap.get 0 x.credits vc + count) }).sendWaiting gi :=
  if_neg (by simp only [hup, ne_eq, not_true_eq_false, decide_false, Bool.false_and, Bool.false_eq_true, not_false_eq_true])

section
variable (k frame n bad : Nat)

theorem doSlotFrame_aligned (h : d.lgState gi = 3) : d.doSlotFrame gi k frame n bad = d.offerFrame gi frame := if_pos (beq_iff_eq.2 h)

theorem doSlotFrame_dropped (h3 : d.lgState gi ≠ 3) (h : d.lgState gi ≠ 4 ∨ d.g (pLGRP gi) LGRP_STATUS_VER ≠ 2) : d.doSlotFrame gi k frame n bad = d :=
  (if_neg (mt beq_iff_eq.1 h3)).trans (if_pos (Bool.or_eq_true_iff.2 (h.imp decide_eq_true decide_eq_true)))

/-- A frame whose every bit came in good codewords: its control fragment, its slots where the link carries slots, and its packet fields (R229, R236). -/
theorem doSlotFrame_up (hup : d.lgState gi = 4) (hver : d.g (pLGRP gi) LGRP_STATUS_VER = 2) :
    d.doSlotFrame gi k frame n 0 =
      let e := (d.offerFrame gi frame).takeFragment gi (bitsAt frame 2 14) false
      let h := if e.b pLNK (LNK_BUDGET_SLOTS gi) then e.takeSlots gi k ((List.range n).map fun j => frameField frame j) else e
      h.takePackets gi frame 0 n := by
  have hfragment : decide (bitsAt 0 2 14 ≠ 0) = false := by decide
  have hslots : ((List.range n).any fun j => decide (frameField 0 j ≠ 0)) = false := by
    simp only [frameField_zero, BitVec.ofNat_eq_ofNat, ne_eq, not_true_eq_false, decide_false, List.any_eq_false, Bool.false_eq_true, not_false_eq_true,
      implies_true]
  have hal2 : ¬ (decide (d.lgState gi ≠ 4) || decide (d.g (pLGRP gi) LGRP_STATUS_VER ≠ 2)) = true := by
    simp only [hup, hver, ne_eq, not_true_eq_false, decide_false, Bool.or_self, Bool.false_eq_true, not_false_eq_true]
  rw [doSlotFrame, if_neg (mt beq_iff_eq.1 (by omega)), if_neg hal2, hfragment]
  dsimp only
  rw [hslots]
  rfl

/-- Slots that come in time wait for their executed step, and may lower the slack recorded (R236). -/
theorem takeSlots_inTime {fields : List W32}
    (h : (d.ptnAt (d.g pLNK (LNK_BUDGET_OWNER gi))).exec ≤ k + d.g pLNK (LNK_BUDGET_BUDGET gi)) :
    d.takeSlots gi k fields =
      (d.p (pLGRP gi) LGRP_SLACK_MIN (Nat.min (d.g (pLGRP gi) LGRP_SLACK_MIN)
        (k + d.g pLNK (LNK_BUDGET_BUDGET gi) - (d.ptnAt (d.g pLNK (LNK_BUDGET_OWNER gi))).exec))).modLink gi
          fun x => { x with slots := SMap.put x.slots (k + d.g pLNK (LNK_BUDGET_BUDGET gi)) fields } := if_neg (Nat.not_lt.2 h)

theorem takeSlots_late {fields : List W32}
    (h : k + d.g pLNK (LNK_BUDGET_BUDGET gi) < (d.ptnAt (d.g pLNK (LNK_BUDGET_OWNER gi))).exec) :
    d.takeSlots gi k fields = (d.add (pLGRP gi) LGRP_SLOT_LATE_COUNT 1).slotErr := if_pos h

end

end

end Dev

/-- Settles O42: each arrival passes its guards by the group's state, and the group it comes to is the one written out. -/
theorem codewordsFlitsAndSlotsAreHandled : Obligations.CodewordsFlitsAndSlotsAreHandled := by
  refine ⟨?clean, ?corrected, ?bad, ?unplaced, ?flitFails, ?flit, ?credit, ?creditBroken, ?slots, ?slotsAligned, ?slotsDropped, ?inTime, ?late⟩
  case clean =>
    rintro d q g l data check _ hact h1 h4 rfl hdec
    exact (exec_codeword ..).trans (main_eq q hact (Dev.doCodeword_clean (Nat.one_le_iff_ne_zero.1 h1) h4 hdec))
  case corrected =>
    rintro d q g l data check _ k hact h1 h4 rfl hdec
    exact (exec_codeword ..).trans (main_eq q hact (Dev.doCodeword_corrected (Nat.one_le_iff_ne_zero.1 h1) h4 hdec))
  case bad =>
    rintro d q g l data check _ hact h1 h4 rfl hdec
    exact (exec_codeword ..).trans (main_eq q hact (Dev.doCodeword_bad (Nat.one_le_iff_ne_zero.1 h1) h4 hdec))
  case unplaced => exact fun d g l symbols bad h => Dev.takeCodeword_unplaced symbols bad h
  case flitFails => exact fun d q g bits bad hact hup hfail => (exec_linkFlit ..).trans (main_eq q hact (Dev.doLinkFlit_fails hup hfail))
  case flit =>
    exact fun d q g bits hact hup hcrc hack hnak hdata hseq =>
      (exec_linkFlit ..).trans (main_eq q hact (Dev.doLinkFlit_taken hup hcrc hack hnak hdata hseq))
  case credit => exact fun d q g vc count hact hup => (exec_credit ..).trans (main_eq q hact (Dev.doCredit_up vc count true hup))
  case creditBroken => exact fun d q g vc count hact hup => (exec_credit ..).trans (main_eq q hact (Dev.doCredit_up vc count false hup))
  case slots => exact fun d q g k frame n hact hup hver => (exec_slotFrame ..).trans (main_eq q hact (Dev.doSlotFrame_up k _ n hup hver))
  case slotsAligned => exact fun d q g k frame n hact hst => (exec_slotFrame ..).trans (main_eq q hact (Dev.doSlotFrame_aligned k _ n 0 hst))
  case slotsDropped => exact fun d q g k frame n hact h3 h => (exec_slotFrame ..).trans (main_eq q hact (Dev.doSlotFrame_dropped k _ n 0 h3 h))
  case inTime => exact fun d g k fields h => Dev.takeSlots_inTime k h
  case late => exact fun d g k fields h => Dev.takeSlots_late k h

end Sys2Proof.Machine

namespace Sys2Proof.Machine

/-! Lane tests, error injection, PRBS checks and the speed bridge (R245 to R253, R312). -/

section
variable (g : Fin 16) (l : Fin 8) (s : State)

theorem exec_laneTestRequest : exec (.laneTestRequest g) s = main s fun d => d.atPage (pLGRP g) fun d => d.doLaneTest g := rfl
theorem exec_injGo : exec (.injGo g) s = main s fun d => if d.full then d.doInjGo g else d := rfl
theorem exec_lgrpClrCounts : exec (.lgrpClrCounts g) s = main s fun d => if d.full then d.doLgrpClr g else d := rfl
theorem exec_clrSlack : exec (.clrSlack g) s = main s fun d => if d.full then d.doClrSlack g else d := rfl
theorem exec_prbsCheck (bits : List Bool) : exec (.prbsCheck g l bits) s = main s fun d => d.doPrbsCheck g l bits := rfl
theorem exec_bridgeLaneEnable (tx rx : Bool) :
    exec (.bridgeLaneEnable g l tx rx) s = main s fun d => if d.full then d.doBridgeEnable g l tx rx else d := rfl
theorem exec_bridgeWordTransmit : exec (.bridgeWordTransmit g l) s = main s fun d => d.doBridgeTransmit g l := rfl
theorem exec_bridgeWordReceive (w : W64) : exec (.bridgeWordReceive g l w) s = main s fun d => d.doBridgeReceive g l w := rfl

end

namespace Dev

section
variable {d : Dev} {gi l : Nat}

/-- The guard of what acts on an enabled lane of a group in one state alone. -/
theorem laneOn_inState {st : Nat} (hst : d.lgState gi = st) (hon : d.laneOn gi l = true) : ¬ (decide (d.lgState gi ≠ st) || !d.laneOn gi l) = true := by
  simp only [hst, hon, ne_eq, not_true_eq_false, decide_false, Bool.not_true, Bool.or_self, Bool.false_eq_true, not_false_eq_true]

/-! LANE_TEST_REQUEST in the order of its checks (R245). -/

theorem doLaneTest_owned (h5 : d.lgState gi ≠ 5) (hslots : d.b pLNK (LNK_BUDGET_SLOTS gi) = true)
    (hrun : d.seqState (d.g pLNK (LNK_BUDGET_OWNER gi)) ≠ 0) : d.doLaneTest gi = d.p (pLGRP gi) LGRP_STATUS_TEST_RESULT 3 :=
  (if_neg (mt beq_iff_eq.1 h5)).trans (if_pos (Bool.and_eq_true_iff.2 ⟨hslots, decide_eq_true hrun⟩))

theorem doLaneTest_upstream (h4 : d.lgState gi = 4) (hslots : d.b pLNK (LNK_BUDGET_SLOTS gi) = false) (hslave : d.isSlave = true)
    (hlink : d.g pTSB TSB_STATUS_UPSTREAM = gi) : d.doLaneTest gi = d.p (pLGRP gi) LGRP_STATUS_TEST_RESULT 4 := by
  have howner : ¬ (d.b pLNK (LNK_BUDGET_SLOTS gi) && decide (d.seqState (d.g pLNK (LNK_BUDGET_OWNER gi)) ≠ 0)) = true := by
    simp only [hslots, Bool.false_and, Bool.false_eq_true, not_false_eq_true]
  have hupstream : (d.lgState gi == 4 && d.isSlave && d.g pTSB TSB_STATUS_UPSTREAM == gi) = true := by
    simp only [h4, hslave, hlink, BEq.rfl, Bool.and_self]
  rw [doLaneTest, if_neg (mt beq_iff_eq.1 (by omega)), if_neg howner, if_pos hupstream]

/-- A lane test starts: a link that is UP goes down, and the group is in TEST with nothing aligned and its clocks on (R245). -/
def startLaneTest (d : Dev) (gi : Nat) : Dev :=
  let e := (d.p (pLGRP gi) LGRP_STATUS_TEST_RESULT 1).leaveUp gi 4 5
  let e := (((e.p (pLGRP gi) LGRP_CFG_MODE 1).on (pLGRP gi) LGRP_CFG_EN).p (pLGRP gi) LGRP_STATUS_STATE 5).p (pLGRP gi) LGRP_STATUS_LANE_LOCK 0
  ((e.p (pLGRP gi) LGRP_STATUS_FAR_ALIGNED 0).putBit pCKG CKG_STATUS_LANE_LOCK gi true).setLink gi Link.reset

/-- Past the checks the arbiter decides (R245). -/
theorem doLaneTest_asks (h5 : d.lgState gi ≠ 5) (hslots : d.b pLNK (LNK_BUDGET_SLOTS gi) = false ∨ d.seqState (d.g pLNK (LNK_BUDGET_OWNER gi)) = 0)
    (hlink : ¬ (d.lgState gi = 4 ∧ d.isSlave = true ∧ d.g pTSB TSB_STATUS_UPSTREAM = gi)) :
    d.doLaneTest gi =
      if (d.mntRequest (mntId 4 16 gi) 0 0x10000 false).2.isSome then
        (d.mntRequest (mntId 4 16 gi) 0 0x10000 false).1.p (pLGRP gi) LGRP_STATUS_TEST_RESULT 2
      else (d.mntRequest (mntId 4 16 gi) 0 0x10000 false).1.startLaneTest gi := by
  have howner : ¬ (d.b pLNK (LNK_BUDGET_SLOTS gi) && decide (d.seqState (d.g pLNK (LNK_BUDGET_OWNER gi)) ≠ 0)) = true := by
    obtain h | h := hslots <;> simp only [h, ne_eq, not_true_eq_false, decide_false, Bool.false_and, Bool.and_false, Bool.false_eq_true, not_false_eq_true]
  have hupstream : ¬ (d.lgState gi == 4 && d.isSlave && d.g pTSB TSB_STATUS_UPSTREAM == gi) = true := by
    simpa only [Bool.and_eq_true, beq_iff_eq, and_assoc] using hlink
  rw [doLaneTest, if_neg (mt beq_iff_eq.1 h5), if_neg howner, if_neg hupstream]
  dsimp only
  cases (d.mntRequest (mntId 4 16 gi) 0 0x10000 false).2 <;> rfl

/-! INJ.GO (R247): the lanes in TEST are one target, a link and its coded stream the other. -/

/-- The injection that INJ describes, from the next bit on. -/
def armInjection (d : Dev) (gi : Nat) : Dev :=
  d.modLink gi fun x =>
    { x with inject := some (d.g (pLGRP gi) LGRP_INJ_KIND, d.g (pLGRP gi) LGRP_INJ_LANES, d.g (pLGRP gi) LGRP_INJ_BURST_M1 + 1,
                             Nat.max 10 (Nat.min 40 (d.g (pLGRP gi) LGRP_INJ_RATE_EXP))), injAt := [] }

theorem doInjGo_lanes (ht : d.b (pLGRP gi) LGRP_INJ_TARGET = false) :
    d.doInjGo gi = if d.lgState gi = 5 then d.armInjection gi else d.on (pLGRP gi) LGRP_INJ_REFUSED := by
  by_cases h5 : d.lgState gi = 5
  · simp only [doInjGo, armInjection, ht, h5, BEq.rfl, Bool.not_true, Bool.false_and, Bool.or_self, Bool.false_eq_true, if_true, if_false]
  · simp only [doInjGo, ht, h5, beq_false_of_ne h5, Bool.not_false, Bool.true_or, Bool.false_eq_true, if_true, if_false]

theorem doInjGo_link (ht : d.b (pLGRP gi) LGRP_INJ_TARGET = true) :
    d.doInjGo gi =
      if (1 ≤ d.lgState gi ∧ d.lgState gi ≤ 4) ∧ d.slotsRun gi = false then d.armInjection gi else d.on (pLGRP gi) LGRP_INJ_REFUSED := by
  cases hrun : d.slotsRun gi with
  | true => simp only [doInjGo, ht, hrun, Bool.and_self, Bool.or_true, Bool.true_eq_false, and_false, if_true, if_false]
  | false =>
    by_cases hclosed : d.lgState gi = 0 ∨ 4 < d.lgState gi
    · have hfits : (decide (1 ≤ d.lgState gi) && decide (d.lgState gi ≤ 4)) = false := by
        simp only [Bool.and_eq_false_iff, decide_eq_false_iff_not]
        omega
      have hrange : ¬ (1 ≤ d.lgState gi ∧ d.lgState gi ≤ 4) := by omega
      simp only [doInjGo, ht, hfits, hrange, Bool.not_false, Bool.true_or, false_and, if_true, if_false]
    · have hopen : 1 ≤ d.lgState gi ∧ d.lgState gi ≤ 4 := by omega
      simp only [doInjGo, armInjection, ht, hrun, hopen, decide_true, Bool.and_self, Bool.not_true, Bool.and_false, Bool.or_self, Bool.false_eq_true, and_self,
        if_true, if_false]

/-! PRBS checks (R246, R248): without a loop what is checked arrives, in a near-end loop it is what the lane itself sends. -/

/-- One received bit in TEST goes to the sampler and, where CHK is 1, to the lane's checker (R246, R312). -/
def checkBit (gi l : Nat) (d : Dev) (bit : Bool) : Dev :=
  if (d.testSample gi l bit).b (pLGRP gi) LGRP_PRBS_CFG_CHK then (d.testSample gi l bit).prbsBit gi l bit else d.testSample gi l bit

section
variable (bits : List Bool) (hst : d.lgState gi = 5) (hon : d.laneOn gi l = true)
include hst hon

theorem doPrbsCheck_noLoop (hloop : d.g (pLGRP gi) LGRP_LOOP_MODE = 0) :
    d.doPrbsCheck gi l bits =
      let own := d.generate gi l bits.length
      ((own.1.capLine gi l true false own.2).lineOut gi l own.2).each bits (checkBit gi l) := by
  rw [doPrbsCheck, if_neg (laneOn_inState hst hon), hloop]
  simp only [Nat.reduceBEq, Bool.or_self, Bool.false_eq_true, if_false]
  rfl

theorem doPrbsCheck_nearLoop (hloop : d.g (pLGRP gi) LGRP_LOOP_MODE = 1 ∨ d.g (pLGRP gi) LGRP_LOOP_MODE = 2) :
    d.doPrbsCheck gi l bits =
      let own := d.generate gi l bits.length
      (own.1.capLine gi l true false own.2).each own.2 (checkBit gi l) := by
  rw [doPrbsCheck, if_neg (laneOn_inState hst hon)]
  obtain hmode | hmode := hloop <;> rw [hmode] <;> rfl

end

/-! Bridge lanes (R250, R251, R253). -/

/-- One direction of a lane is enabled where its queue may be used; a refusal is recorded (R251). -/
def enableBridge (d : Dev) (gi l : Nat) (want : Bool) (en q : Fld) : Dev :=
  if !want then d.p (pLGRP gi) en 0
  else if d.bridgeQueue gi (d.g (pLGRP gi) q) then d.on (pLGRP gi) en
  else (d.p (pLGRP gi) en 0).putBit (pLGRP gi) LGRP_BRIDGE_STATUS_Q_REFUSED l true

theorem enableBridge_off (en q : Fld) : d.enableBridge gi l false en q = d.p (pLGRP gi) en 0 := rfl

theorem enableBridge_usable {q : Fld} (en : Fld) (h : d.bridgeQueue gi (d.g (pLGRP gi) q) = true) :
    d.enableBridge gi l true en q = d.on (pLGRP gi) en := if_pos h

theorem enableBridge_refused {q : Fld} (en : Fld) (h : d.bridgeQueue gi (d.g (pLGRP gi) q) = false) :
    d.enableBridge gi l true en q = (d.p (pLGRP gi) en 0).putBit (pLGRP gi) LGRP_BRIDGE_STATUS_Q_REFUSED l true := if_neg (Bool.eq_false_iff.1 h)

/-- Transmit is enabled before receive; alignment is lost unless the lane received before and still does (R250, R251). -/
theorem doBridgeEnable_eq (d : Dev) (gi l : Nat) (tx rx : Bool) :
    d.doBridgeEnable gi l tx rx =
      let e := (d.enableBridge gi l tx (LGRP_BRIDGE_Q_TX_EN l) (LGRP_BRIDGE_Q_TXQ l)).enableBridge gi l rx (LGRP_BRIDGE_Q_RX_EN l) (LGRP_BRIDGE_Q_RXQ l)
      if e.b (pLGRP gi) (LGRP_BRIDGE_Q_RX_EN l) && d.b (pLGRP gi) (LGRP_BRIDGE_Q_RX_EN l) then e
      else (e.putBit (pLGRP gi) LGRP_BRIDGE_STATUS_ALIGNED l false).modLink gi fun x => { x with shift := SMap.del x.shift l, good := SMap.del x.good l } :=
  rfl

/-! What leaves on a lane of a group in BRIDGE: the fill word while transmit is off or no queued word may go, else that word (R250, R286). -/

section
variable (hst : d.lgState gi = 6) (hon : d.laneOn gi l = true)
include hst hon

theorem doBridgeTransmit_off (htx : d.b (pLGRP gi) (LGRP_BRIDGE_Q_TX_EN l) = false) :
    d.doBridgeTransmit gi l = d.bridgeOut gi l (BitVec.ofNat 64 (d.g (pLGRP gi) LGRP_FILL_WORD)) := by
  rw [doBridgeTransmit, if_neg (laneOn_inState hst hon)]
  simp only [htx, Bool.not_false, if_true]

theorem doBridgeTransmit_queued {w : QWord} {f : Dev} (htx : d.b (pLGRP gi) (LGRP_BRIDGE_Q_TX_EN l) = true)
    (hword : d.emptyFor (d.g (pLGRP gi) (LGRP_BRIDGE_Q_TXQ l)) = false)
    (hhead : d.takeHead (d.g (pLGRP gi) (LGRP_BRIDGE_Q_TXQ l)) = some (w, f)) : d.doBridgeTransmit gi l = f.bridgeOut gi l w.data := by
  rw [doBridgeTransmit, if_neg (laneOn_inState hst hon)]
  simp only [htx, hword, hhead, Bool.not_true, Bool.false_eq_true, if_false]

theorem doBridgeTransmit_empty (htx : d.b (pLGRP gi) (LGRP_BRIDGE_Q_TX_EN l) = true)
    (hempty : d.emptyFor (d.g (pLGRP gi) (LGRP_BRIDGE_Q_TXQ l)) = true) :
    d.doBridgeTransmit gi l =
      let e := d.markBound (d.g (pLGRP gi) (LGRP_BRIDGE_Q_TXQ l))
      e.bridgeOut gi l (BitVec.ofNat 64 (e.g (pLGRP gi) LGRP_FILL_WORD)) := by
  rw [doBridgeTransmit, if_neg (laneOn_inState hst hon)]
  simp only [htx, hempty, Bool.not_true, Bool.false_eq_true, if_false, if_true]

end

/-- Where a received word's boundary lies among the last 128 bits of a lane: where it is known, at the word's own end where ALIGN is not searched for,
else where ALIGN is found (R250). -/
def bridgePlace (d : Dev) (gi l : Nat) (w : W64) (x : Link) : Option Nat :=
  if (SMap.get? x.good l).isSome then SMap.get? x.good l
  else if !d.b (pLGRP gi) LGRP_BRIDGE_CFG_ALIGN_EN then some 64
  else ((List.range 64).map (· + 1)).find? fun o => (o == 64 || (SMap.get? x.shift l).isSome) &&
    (bitsAt ((SMap.get? x.shift l).getD 0 ||| w.toNat <<< 64) o 64 &&& d.g (pLGRP gi) LGRP_ALIGN_MASK_MASK
      == d.g (pLGRP gi) LGRP_ALIGN_WORD &&& d.g (pLGRP gi) LGRP_ALIGN_MASK_MASK)

/-- A word from boundary `o` on is aligned, offered to the comparators and stored (R250, R253, R312); `x` is the lane group before its bits came. -/
def bridgeTake (d : Dev) (gi l : Nat) (w : W64) (x : Link) (o : Nat) : Dev :=
  let h := ((d.setLink gi { x with shift := SMap.put x.shift l w.toNat }).putBit (pLGRP gi) LGRP_BRIDGE_STATUS_ALIGNED l true).modLink gi fun y =>
    { y with good := SMap.put y.good l o }
  let v : W64 := BitVec.ofNat 64 (((SMap.get? x.shift l).getD 0 ||| w.toNat <<< 64) >>> o)
  (h.offerLane (8 * gi + l) v.toNat).bridgeStore gi l v

section
variable {w : W64} (hst : d.lgState gi = 6) (hon : d.laneOn gi l = true) (hclock : (d.linkAt gi).recovered.testBit l = true)
include hst hon hclock

theorem laneClocked_inState : ¬ (decide (d.lgState gi ≠ 6) || !d.laneOn gi l || !(d.linkAt gi).recovered.testBit l) = true := by
  simp only [hst, hon, hclock, ne_eq, not_true_eq_false, decide_false, Bool.not_true, Bool.or_self, Bool.false_eq_true, not_false_eq_true]

theorem doBridgeReceive_off (hrx : d.b (pLGRP gi) (LGRP_BRIDGE_Q_RX_EN l) = false) :
    d.doBridgeReceive gi l w = d.capLine gi l false false (bitsLsb w.toNat 64) := by
  rw [doBridgeReceive, if_neg (laneClocked_inState hst hon hclock), hrx]
  rfl

variable (hrx : d.b (pLGRP gi) (LGRP_BRIDGE_Q_RX_EN l) = true)
include hrx

theorem doBridgeReceive_unaligned (hplace : (d.capLine gi l false false (bitsLsb w.toNat 64)).bridgePlace gi l w (d.linkAt gi) = none) :
    d.doBridgeReceive gi l w =
      (d.capLine gi l false false (bitsLsb w.toNat 64)).setLink gi { d.linkAt gi with shift := SMap.put (d.linkAt gi).shift l w.toNat } := by
  rw [bridgePlace] at hplace
  rw [doBridgeReceive, if_neg (laneClocked_inState hst hon hclock), if_neg (by rw [hrx]; exact Bool.false_ne_true)]
  dsimp only
  rw [hplace]

theorem doBridgeReceive_aligned {o : Nat} (hplace : (d.capLine gi l false false (bitsLsb w.toNat 64)).bridgePlace gi l w (d.linkAt gi) = some o) :
    d.doBridgeReceive gi l w = (d.capLine gi l false false (bitsLsb w.toNat 64)).bridgeTake gi l w (d.linkAt gi) o := by
  rw [bridgePlace] at hplace
  rw [doBridgeReceive, if_neg (laneClocked_inState hst hon hclock), if_neg (by rw [hrx]; exact Bool.false_ne_true)]
  dsimp only
  rw [hplace]
  rfl

end

theorem bridgePlace_known {w : W64} {x : Link} {o : Nat} (h : SMap.get? x.good l = some o) : d.bridgePlace gi l w x = some o := by
  simp only [bridgePlace, h, Option.isSome_some, if_true]

theorem bridgePlace_noSearch {w : W64} {x : Link} (h : SMap.get? x.good l = none) (hen : d.b (pLGRP gi) LGRP_BRIDGE_CFG_ALIGN_EN = false) :
    d.bridgePlace gi l w x = some 64 := by
  simp only [bridgePlace, h, hen, Option.isSome_none, Bool.not_false, Bool.false_eq_true, if_true, if_false]

theorem bridgePlace_searched {w : W64} {x : Link} (h : SMap.get? x.good l = none) (hen : d.b (pLGRP gi) LGRP_BRIDGE_CFG_ALIGN_EN = true) :
    d.bridgePlace gi l w x =
      ((List.range 64).map (· + 1)).find? fun o => (o == 64 || (SMap.get? x.shift l).isSome) &&
        (bitsAt ((SMap.get? x.shift l).getD 0 ||| w.toNat <<< 64) o 64 &&& d.g (pLGRP gi) LGRP_ALIGN_MASK_MASK
          == d.g (pLGRP gi) LGRP_ALIGN_WORD &&& d.g (pLGRP gi) LGRP_ALIGN_MASK_MASK) := by
  simp only [bridgePlace, h, hen, Option.isSome_none, Bool.not_true, Bool.false_eq_true, if_false]

/-- A first word that is not searched for ALIGN is taken as it came (R250). -/
theorem bridgeTake_first {w : W64} {x : Link} (h : SMap.get? x.shift l = none) :
    d.bridgeTake gi l w x 64 =
      ((((d.setLink gi { x with shift := SMap.put x.shift l w.toNat }).putBit (pLGRP gi) LGRP_BRIDGE_STATUS_ALIGNED l true).modLink gi fun y =>
        { y with good := SMap.put y.good l 64 }).offerLane (8 * gi + l) w.toNat).bridgeStore gi l w := by
  simp only [bridgeTake, h, Option.getD_none, Nat.zero_or, Nat.shiftLeft_shiftRight, BitVec.ofNat_toNat, BitVec.setWidth_eq]

end

end Dev

/-- Settles O43: each command passes its guards, and its meaning is then the state written out. -/
theorem laneTestAndBridgeCommandsTakeEffect : Obligations.LaneTestAndBridgeCommandsTakeEffect := by
  refine ⟨?testAgain, ?testOwned, ?testUpstream, ?testConflict, ?test, ?injLanes, ?injLanesRefused, ?injLink, ?injLinkRefused, ?injSlots,
    ?clrCounts, ?clrSlack, ?prbs, ?prbsLoop, ?txRefused, ?tx, ?rxRefused, ?rx, ?sendOff, ?send, ?sendEmpty,
    ?receiveOff, ?unaligned, ?found, ?aligned, ?noSearch⟩
  case testAgain => exact fun d q g hact hr hst => (exec_laneTestRequest ..).trans (main_atPage_eq q hact hr (if_pos (beq_iff_eq.2 hst)))
  case testOwned =>
    exact fun d q g hact hr hst hslots hrun => (exec_laneTestRequest ..).trans (main_atPage_eq q hact hr (Dev.doLaneTest_owned hst hslots hrun))
  case testUpstream =>
    exact fun d q g hact hr hst hslots hslave hlink =>
      (exec_laneTestRequest ..).trans (main_atPage_eq q hact hr (Dev.doLaneTest_upstream hst hslots hslave hlink))
  case testConflict =>
    intro d q g e hact hr hst hslots hlink hconflict
    rw [exec_laneTestRequest, main_atPage_reached q _ hact hr, Dev.doLaneTest_asks hst hslots hlink, hconflict]
    rfl
  case test =>
    intro d q g hact hr hst hslots hlink hfree
    rw [exec_laneTestRequest, main_atPage_reached q _ hact hr, Dev.doLaneTest_asks hst hslots hlink, hfree]
    rfl
  case injLanes => exact fun d q g hd ht hst => (exec_injGo ..).trans (main_full_eq q hd ((Dev.doInjGo_lanes ht).trans (if_pos hst)))
  case injLanesRefused => exact fun d q g hd ht hst => (exec_injGo ..).trans (main_full_eq q hd ((Dev.doInjGo_lanes ht).trans (if_neg hst)))
  case injLink =>
    exact fun d q g hd ht h1 h4 hrun => (exec_injGo ..).trans (main_full_eq q hd ((Dev.doInjGo_link ht).trans (if_pos ⟨⟨h1, h4⟩, hrun⟩)))
  case injLinkRefused =>
    intro d q g hd ht hst
    have hstate : d.lgState g = 0 ∨ 4 < d.lgState g := hst
    exact (exec_injGo ..).trans (main_full_eq q hd ((Dev.doInjGo_link ht).trans (if_neg (by omega))))
  case injSlots =>
    intro d q g hd ht _ hrun
    have hclosed : ¬ ((1 ≤ d.lgState g ∧ d.lgState g ≤ 4) ∧ d.slotsRun g = false) := fun h => absurd (hrun.symm.trans h.2) (by decide)
    exact (exec_injGo ..).trans (main_full_eq q hd ((Dev.doInjGo_link ht).trans (if_neg hclosed)))
  case clrCounts => exact fun d q g hd => (exec_lgrpClrCounts ..).trans (main_full q _ hd)
  case clrSlack => exact fun d q g hd => (exec_clrSlack ..).trans (main_full q _ hd)
  case prbs =>
    exact fun d q g l bits hact hst hon hloop => (exec_prbsCheck ..).trans (main_eq q hact (Dev.doPrbsCheck_noLoop bits hst hon hloop))
  case prbsLoop =>
    exact fun d q g l bits hact hst hon hloop => (exec_prbsCheck ..).trans (main_eq q hact (Dev.doPrbsCheck_nearLoop bits hst hon hloop))
  case txRefused =>
    intro d q g l hd hq
    rw [exec_bridgeLaneEnable, main_full q _ hd, Dev.doBridgeEnable_eq, Dev.enableBridge_refused _ hq, Dev.enableBridge_off]
  case tx =>
    intro d q g l hd hq
    rw [exec_bridgeLaneEnable, main_full q _ hd, Dev.doBridgeEnable_eq, Dev.enableBridge_usable _ hq, Dev.enableBridge_off]
  case rxRefused =>
    rintro d q g l _ hd rfl hq
    rw [exec_bridgeLaneEnable, main_full q _ hd, Dev.doBridgeEnable_eq, Dev.enableBridge_off, Dev.enableBridge_refused _ hq]
  case rx =>
    rintro d q g l _ hd rfl hq
    rw [exec_bridgeLaneEnable, main_full q _ hd, Dev.doBridgeEnable_eq, Dev.enableBridge_off, Dev.enableBridge_usable _ hq]
  case sendOff =>
    exact fun d q g l hact hst hon htx => (exec_bridgeWordTransmit ..).trans (main_eq q hact (Dev.doBridgeTransmit_off hst hon htx))
  case send =>
    exact fun d q g l w f hact hst hon htx hword hhead =>
      (exec_bridgeWordTransmit ..).trans (main_eq q hact (Dev.doBridgeTransmit_queued hst hon htx hword hhead))
  case sendEmpty =>
    exact fun d q g l hact hst hon htx hempty =>
      (exec_bridgeWordTransmit ..).trans (main_eq q hact (Dev.doBridgeTransmit_empty hst hon htx hempty))
  case receiveOff =>
    exact fun d q g l w hact hst hon hclock hrx =>
      (exec_bridgeWordReceive ..).trans (main_eq q hact (Dev.doBridgeReceive_off hst hon hclock hrx))
  case unaligned =>
    intro d q g l w f hact hst hon hclock hrx hgood hf hen hplace
    rw [hf] at hen hplace ⊢
    exact (exec_bridgeWordReceive ..).trans
      (main_eq q hact (Dev.doBridgeReceive_unaligned hst hon hclock hrx ((Dev.bridgePlace_searched hgood hen).trans hplace)))
  case found =>
    intro d q g l w f o hact hst hon hclock hrx hgood hf hen hplace
    rw [hf] at hen hplace ⊢
    rw [exec_bridgeWordReceive, main_active d q _ hact,
      Dev.doBridgeReceive_aligned hst hon hclock hrx ((Dev.bridgePlace_searched hgood hen).trans hplace)]
    rfl
  case aligned =>
    intro d q g l w f o hact hst hon hclock hrx hgood hf
    rw [hf, exec_bridgeWordReceive, main_active d q _ hact, Dev.doBridgeReceive_aligned hst hon hclock hrx (Dev.bridgePlace_known hgood)]
    rfl
  case noSearch =>
    intro d q g l w f hact hst hon hclock hrx hshift hgood hf hen
    rw [hf] at hen ⊢
    rw [exec_bridgeWordReceive, main_active d q _ hact, Dev.doBridgeReceive_aligned hst hon hclock hrx (Dev.bridgePlace_noSearch hgood hen),
      Dev.bridgeTake_first hshift]

end Sys2Proof.Machine

namespace Sys2Proof.Machine

/-! The interface of a cluster drains, is fenced and is unfenced (R269, R271). -/

section
variable (n : Fin 64) (s : State)

theorem exec_drain : exec (.drain n) s = main s fun d => d.drainNi n := rfl
theorem exec_drainComplete : exec (.drainComplete n) s = main s fun d => d.doDrainComplete n := rfl
theorem exec_drainTimeout : exec (.drainTimeout n) s = main s fun d => d.doDrainTimeout n := rfl
theorem exec_unfence : exec (.unfence n) s = main s fun d => d.doUnfence n := rfl

end

namespace Dev

section
variable {d : Dev} {n : Nat}

theorem drainNi_active (h : d.niState n = 0) : d.drainNi n = d.p pNOC (NOC_NI_STATE_CLU n) 1 := if_pos (beq_iff_eq.2 h)

theorem drainNi_inactive (h : d.niState n ≠ 0) : d.drainNi n = d := if_neg (mt beq_iff_eq.1 h)

theorem doDrainComplete_drained (hst : d.niState n = 1) (h : d.drained n = true) : d.doDrainComplete n = d.fenceNi n :=
  if_pos (Bool.and_eq_true_iff.2 ⟨beq_iff_eq.2 hst, h⟩)

theorem doDrainComplete_outstanding (h : d.drained n = false) : d.doDrainComplete n = d :=
  if_neg fun hboth => Bool.eq_false_iff.1 h (Bool.and_eq_true_iff.1 hboth).2

/-- A forced fence: what is outstanding is abandoned, tags and far accesses alike (R269). -/
def forceFence (d : Dev) (n : Nat) : Dev :=
  ((((d.landFar n false).fenceNi n).abandon n).each (List.range 4) fun e p =>
    e.setFar n p ((e.farOf n p).filter fun a => !a.write && a.done)).settleFences

theorem doDrainTimeout_draining (h : d.niState n = 1) :
    d.doDrainTimeout n =
      let f := d.forceFence n
      let g := ((f.add pNOC NOC_DRAIN_FORCED_COUNT 1).tick).nocError 4 (Config.freeWord f.fresh 0).toNat (Config.freeWord f.fresh 1).toNat
        (Config.freeWord f.fresh 2).toNat (meshX n) (meshY n)
      (g.irq pNOC 2).raise 0x0B4 2 16 g.nocLast n := if_neg (not_not.2 h)

theorem doDrainTimeout_notDraining (h : d.niState n ≠ 1) : d.doDrainTimeout n = d := if_pos h

theorem doUnfence_clear (hst : d.niState n = 2) (hp : d.cluPower n ≠ 2) (hclear : d.memoriesClear n = true) : d.doUnfence n = d.unfenceNi n :=
  if_pos (Bool.and_eq_true_iff.2 ⟨Bool.and_eq_true_iff.2 ⟨beq_iff_eq.2 hst, decide_eq_true hp⟩, hclear⟩)

theorem doUnfence_notFenced (h : d.niState n ≠ 2) : d.doUnfence n = d :=
  if_neg fun hall => h (beq_iff_eq.1 (Bool.and_eq_true_iff.1 (Bool.and_eq_true_iff.1 hall).1).1)

end

end Dev

/-- Settles O47: each event acts in the one interface state that it needs, and what it comes to there is the state written out. -/
theorem networkInterfacesDrainAndUnfence : Obligations.NetworkInterfacesDrainAndUnfence := by
  refine ⟨?drain, ?drainNot, ?complete, ?completeNot, ?timeout, ?timeoutNot, ?unfence, ?unfenceNot⟩
  case drain => exact fun d q n hact h => (exec_drain ..).trans (main_eq q hact (Dev.drainNi_active h))
  case drainNot => exact fun d q n _ h => (exec_drain ..).trans (main_unchanged q (Dev.drainNi_inactive h))
  case complete => exact fun d q n hact hst h => (exec_drainComplete ..).trans (main_eq q hact (Dev.doDrainComplete_drained hst h))
  case completeNot => exact fun d q n _ h => (exec_drainComplete ..).trans (main_unchanged q (Dev.doDrainComplete_outstanding h))
  case timeout => exact fun d q n hact h => (exec_drainTimeout ..).trans (main_eq q hact (Dev.doDrainTimeout_draining h))
  case timeoutNot => exact fun d q n _ h => (exec_drainTimeout ..).trans (main_unchanged q (Dev.doDrainTimeout_notDraining h))
  case unfence => exact fun d q n hact hst hp hclear => (exec_unfence ..).trans (main_eq q hact (Dev.doUnfence_clear hst hp hclear))
  case unfenceNot => exact fun d q n _ h => (exec_unfence ..).trans (main_unchanged q (Dev.doUnfence_notFenced h))

end Sys2Proof.Machine

namespace Sys2Proof.Machine

/-! Requests of the packet network on their way to a target, and RD and WR there (R259 to R269). -/

section
variable (k : Packet) (s : State)

theorem exec_rd : exec (.rd k) s = main s fun d => d.request k false (Dev.serveAccess d false) := rfl
theorem exec_wr : exec (.wr k) s = main s fun d => d.request k true (Dev.serveAccess d true) := rfl

end

namespace Dev

/-! A request leaves its source, completes there without a route, or waits (R260 to R264). -/

section
variable {d : Dev} {k : Packet} {r : Req} (write : Bool) (serve : Packet → Dev → Req → Dev)

theorem not_waiting (hlen : k.len.val ≤ 8) (hfree : d.mayReserve k.src k.tag = true) :
    ¬ (decide (8 < (asSent k r).len.val) || !d.mayReserve (asSent k r).src (asSent k r).tag) = true := by
  simp [asSent, Nat.not_lt.2 hlen, hfree]

theorem request_sent (h : d.Sends k r) : d.request k write serve = serve (asSent k r) (d.sent k r write) r := by
  obtain ⟨hsender, hlen, hfree, hroute, hop⟩ := h
  have hrouted : ¬ (!d.routed (asSent k r).src (asSent k r).dst) = true := by simp [asSent, hroute]
  rw [request, hsender]
  dsimp only
  rw [if_neg (not_waiting hlen hfree), if_neg hrouted]
  exact if_pos hop

theorem request_unrouted (hsender : d.senderOf k = some r) (hlen : k.len.val ≤ 8) (hfree : d.mayReserve k.src k.tag = true)
    (hroute : d.routed k.src k.dst = false) : d.request k write serve = d.noRoute.failed (reserved (asSent k r) r write) 2 := by
  have hunrouted : (!d.routed (asSent k r).src (asSent k r).dst) = true := by simp [asSent, hroute]
  rw [request, hsender]
  dsimp only
  rw [if_neg (not_waiting hlen hfree), if_pos hunrouted]

theorem request_noSender (h : d.senderOf k = none) : d.request k write serve = d := by rw [request, h]

end

/-! An access with a register OP acts at the register; any other is a read or a write of its target (R259). -/

section
variable {old d : Dev} {k : Packet} {r : Req} (write : Bool)

theorem serveAccess_register (h : k.op.val = 0x10 ∨ k.op.val = 0x11) : serveAccess old write k d r = serveReg write k d r :=
  if_pos (by simpa using h)

theorem serveAccess_memory (h10 : k.op.val ≠ 0x10) (h11 : k.op.val ≠ 0x11) : serveAccess old write k d r = serveRw old write k d r :=
  if_neg (by simp [h10, h11])

/-! RD and WR by target: a cluster's interface, an HBM port, the host, a gateway. -/

theorem serveRw_fencedCluster (ht : k.dst.val < 64) (hni : d.niState k.dst ≠ 0) : serveRw old write k d r = d.unreachable.respond k 1 [] := by
  simp [serveRw, ht, hni]

theorem serveRw_linkDown (hlo : 0xE0 ≤ k.dst.val) (hhi : k.dst.val < 0xF0) (hst : d.g (pLGRP (k.dst.val - 0xE0)) LGRP_STATUS_STATE ≠ 4) :
    serveRw old write k d r = d.respond k 1 [] := by
  have h40 : ¬ k.dst.val < 0x40 := by omega
  have h90 : ¬ k.dst.val < 0x90 := by omega
  have h94 : ¬ k.dst.val < 0x94 := by omega
  simp [serveRw, linkCarries, h40, h90, h94, hlo, hhi, hst]

end

/-- How many bytes a read at `a` asks for: whole flits, up to the end of its page (R259). -/
def readLen (d : Dev) (a : Nat) : Nat := Nat.min (32 * Nat.max 1 (Nat.min 8 (Config.readFlits d.fresh))) (4096 - a % 4096)

theorem readLen_le (d : Dev) (a : Nat) : d.readLen a ≤ 256 :=
  (Nat.min_le_left ..).trans (Nat.mul_le_mul_left 32 (Nat.max_le.2 ⟨by decide, Nat.min_le_left ..⟩))

theorem readLen_inPage (d : Dev) (a : Nat) : a % 4096 + d.readLen a ≤ 4096 := by
  have : d.readLen a ≤ 4096 - a % 4096 := Nat.min_le_right ..
  omega

section
variable {old d : Dev} {k : Packet} {r : Req}

section
variable (hlo : 64 ≤ k.dst.val) (hhi : k.dst.val < 0x90) (hport : 0x40 + 20 * (hbmPort k.addr.toNat).1 + (hbmPort k.addr.toNat).2 = k.dst.val)
include hlo hhi hport

theorem serveRw_hbmRead :
    serveRw old false k d r =
      let w := d.tick.hbmRead r k.addr.toNat (d.readLen k.addr.toNat)
      w.1.respond k w.2.1 w.2.2 := by
  have hfits : ¬ (decide (0x40 + 20 * (hbmPort k.addr.toNat).1 + (hbmPort k.addr.toNat).2 ≠ k.dst.val) ||
      decide (4096 < k.addr.toNat % 4096 + d.readLen k.addr.toNat) || decide (256 < d.readLen k.addr.toNat)) = true := by
    simp [hport, d.readLen_le, d.readLen_inPage]
  rw [serveRw]
  dsimp only
  rw [if_neg (by omega), if_pos hhi]
  exact if_neg hfits

variable (hpage : k.addr.toNat % 4096 + k.data.length ≤ 4096) (hlen : k.data.length ≤ 256)
include hpage hlen

theorem serveRw_hbmWrite :
    serveRw old true k d r =
      if packetBad k then (d.checkPayload k).respond k 4 []
      else
        let w := (d.checkPayload k).hbmWrite r k.addr.toNat (packetFixed k).data
        w.1.respond k w.2 [] := by
  have h40 : ¬ k.dst.val < 0x40 := by omega
  have hE0 : ¬ 0xE0 ≤ k.dst.val := by omega
  simp [serveRw, h40, hE0, hhi, hport, hpage, hlen]

theorem serveRw_hbmWrite_intact (hok : packetBad k = false) :
    serveRw old true k d r =
      let w := (d.checkPayload k).hbmWrite r k.addr.toNat (packetFixed k).data
      w.1.respond k w.2 [] :=
  (serveRw_hbmWrite hlo hhi hport hpage hlen).trans (if_neg (Bool.eq_false_iff.1 hok))

theorem serveRw_hbmWrite_bad (hbad : packetBad k = true) : serveRw old true k d r = (d.checkPayload k).respond k 4 [] :=
  (serveRw_hbmWrite hlo hhi hport hpage hlen).trans (if_pos hbad)

end

section
variable (hlo : 0x90 ≤ k.dst.val) (hhi : k.dst.val < 0x94)
include hlo hhi

theorem serveRw_hostRead :
    serveRw old false k d r = d.tick.respond k 0 ((List.range (d.readLen k.addr.toNat)).map fun i => (Config.freeWord d.fresh i).setWidth 8) := by
  have h40 : ¬ k.dst.val < 0x40 := by omega
  have h90 : ¬ k.dst.val < 0x90 := by omega
  simp [serveRw, readLen, h40, h90, hhi]

theorem serveRw_hostWrite :
    serveRw old true k d r =
      if packetBad k then (d.checkPayload k).respond k 4 []
      else ((d.checkPayload k).emit (.hostWrite (reqFn r) k.addr.toNat (packetFixed k).data)).respond k 0 [] := by
  have h40 : ¬ k.dst.val < 0x40 := by omega
  have h90 : ¬ k.dst.val < 0x90 := by omega
  have hE0 : ¬ 0xE0 ≤ k.dst.val := by omega
  simp [serveRw, h40, h90, hE0, hhi]

theorem serveRw_hostWrite_intact (hok : packetBad k = false) :
    serveRw old true k d r = ((d.checkPayload k).emit (.hostWrite (reqFn r) k.addr.toNat (packetFixed k).data)).respond k 0 [] :=
  (serveRw_hostWrite hlo hhi).trans (if_neg (Bool.eq_false_iff.1 hok))

theorem serveRw_hostWrite_bad (hbad : packetBad k = true) : serveRw old true k d r = (d.checkPayload k).respond k 4 [] :=
  (serveRw_hostWrite hlo hhi).trans (if_pos hbad)

end

end

end Dev

/-! RD and WR as commands: the request is sent, and its target serves it. -/

section
variable {d e : Dev} {k : Packet} {r : Req} (q : List Instr) (hact : d.active = true)
include hact

theorem exec_rd_atRegister (hs : d.Sends k r) (h : k.op.val = 0x10) :
    exec (.rd k) ⟨d, q⟩ = .next ⟨(Dev.serveReg false (Dev.asSent k r) (d.sent k r false) r).finish, q⟩ :=
  (exec_rd ..).trans (main_eq q hact ((Dev.request_sent _ _ hs).trans (Dev.serveAccess_register _ (.inl h))))

theorem exec_wr_atRegister (hs : d.Sends k r) (h : k.op.val = 0x11) :
    exec (.wr k) ⟨d, q⟩ = .next ⟨(Dev.serveReg true (Dev.asSent k r) (d.sent k r true) r).finish, q⟩ :=
  (exec_wr ..).trans (main_eq q hact ((Dev.request_sent _ _ hs).trans (Dev.serveAccess_register _ (.inr h))))

section
variable (hs : d.Sends k r) (h10 : k.op.val ≠ 0x10) (h11 : k.op.val ≠ 0x11)
include hs h10 h11

theorem exec_rd_served (h : Dev.serveRw d false (Dev.asSent k r) (d.sent k r false) r = e) : exec (.rd k) ⟨d, q⟩ = .next ⟨e.finish, q⟩ :=
  (exec_rd ..).trans (main_eq q hact ((Dev.request_sent _ _ hs).trans ((Dev.serveAccess_memory (k := Dev.asSent k r) _ h10 h11).trans h)))

theorem exec_wr_served (h : Dev.serveRw d true (Dev.asSent k r) (d.sent k r true) r = e) : exec (.wr k) ⟨d, q⟩ = .next ⟨e.finish, q⟩ :=
  (exec_wr ..).trans (main_eq q hact ((Dev.request_sent _ _ hs).trans ((Dev.serveAccess_memory (k := Dev.asSent k r) _ h10 h11).trans h)))

end

end

/-- Settles O44: a request that is sent reaches its target, which is served by its place among the endpoints. -/
theorem memoryRequestsAreServed : Obligations.MemoryRequestsAreServed := by
  refine ⟨?hbmWrite, ?hbmWriteBad, ?hbmRead, ?hostWrite, ?hostRead, ?fencedRead, ?linkRead, ?fencedWrite, ?linkWrite, ?hostWriteBad,
    ?registerRead, ?registerWrite, ?unroutedRead, ?unroutedWrite, ?unsentRead, ?unsentWrite⟩
  case hbmWrite =>
    exact fun d q k r hact hs hlo hhi hport hpage hlen hok h10 h11 =>
      exec_wr_served q hact hs h10 h11 (Dev.serveRw_hbmWrite_intact hlo hhi hport hpage hlen hok)
  case hbmWriteBad =>
    exact fun d q k r hact hs hlo hhi hport hpage hlen hbad h10 h11 =>
      exec_wr_served q hact hs h10 h11 (Dev.serveRw_hbmWrite_bad hlo hhi hport hpage hlen hbad)
  case hbmRead =>
    exact fun d q k r hact hs hlo hhi hport h10 h11 => exec_rd_served q hact hs h10 h11 (Dev.serveRw_hbmRead hlo hhi hport)
  case hostWrite =>
    exact fun d q k r hact hs hlo hhi hok h10 h11 => exec_wr_served q hact hs h10 h11 (Dev.serveRw_hostWrite_intact hlo hhi hok)
  case hostRead => exact fun d q k r hact hs hlo hhi h10 h11 => exec_rd_served q hact hs h10 h11 (Dev.serveRw_hostRead hlo hhi)
  case fencedRead => exact fun d q k r hact hs ht hni h10 h11 => exec_rd_served q hact hs h10 h11 (Dev.serveRw_fencedCluster _ ht hni)
  case linkRead => exact fun d q k r hact hs hlo hhi hst h10 h11 => exec_rd_served q hact hs h10 h11 (Dev.serveRw_linkDown _ hlo hhi hst)
  case fencedWrite => exact fun d q k r hact hs ht hni h10 h11 => exec_wr_served q hact hs h10 h11 (Dev.serveRw_fencedCluster _ ht hni)
  case linkWrite => exact fun d q k r hact hs hlo hhi hst h10 h11 => exec_wr_served q hact hs h10 h11 (Dev.serveRw_linkDown _ hlo hhi hst)
  case hostWriteBad =>
    exact fun d q k r hact hs hlo hhi hbad h10 h11 => exec_wr_served q hact hs h10 h11 (Dev.serveRw_hostWrite_bad hlo hhi hbad)
  case registerRead => exact fun d q k r hact hs h => exec_rd_atRegister q hact hs h
  case registerWrite => exact fun d q k r hact hs h => exec_wr_atRegister q hact hs h
  case unroutedRead =>
    exact fun d q k r hact hsender hlen hfree hroute =>
      (exec_rd ..).trans (main_eq q hact (Dev.request_unrouted _ _ hsender hlen hfree hroute))
  case unroutedWrite =>
    exact fun d q k r hact hsender hlen hfree hroute =>
      (exec_wr ..).trans (main_eq q hact (Dev.request_unrouted _ _ hsender hlen hfree hroute))
  case unsentRead => exact fun d q k _ h => (exec_rd ..).trans (main_unchanged q (Dev.request_noSender _ _ h))
  case unsentWrite => exact fun d q k _ h => (exec_wr ..).trans (main_unchanged q (Dev.request_noSender _ _ h))

end Sys2Proof.Machine

namespace Sys2Proof.Machine

/-! QWR and QRD at the queue ports (R260, R284 to R286, R292). -/

section
variable (k : Packet) (s : State)

theorem exec_qwr : exec (.qwr k) s = main s fun d => d.request k true (Dev.serveQueue true Dev.doQwr) := rfl
theorem exec_qrd : exec (.qrd k) s = main s fun d => d.request k false (Dev.serveQueue false Dev.doQrd) := rfl

end

namespace Dev

/-! The check of a packet's data touches no queue. -/

theorem sendVec_queue (d : Dev) (fn : Fn) (v : Nat) : (d.sendVec fn v).queue = d.queue := by
  unfold sendVec
  split <;> rfl

theorem notifyIrq_queue (d : Dev) (base : Nat) : (d.notifyIrq base).queue = d.queue := by
  unfold notifyIrq
  dsimp only
  (repeat' split) <;> simp only [sendVec_queue]

theorem irq_queue (d : Dev) (base i : Nat) : (d.irq base i).queue = d.queue := by
  unfold irq
  dsimp only
  (repeat' split) <;> simp only [notifyIrq_queue, p_queue]

theorem nocError_queue (d : Dev) (kind src dst vc x y : Nat) : (d.nocError kind src dst vc x y).queue = d.queue := rfl

theorem checkPayload_queue (d : Dev) (k : Packet) : (d.checkPayload k).queue = d.queue := by
  unfold checkPayload
  dsimp only
  (repeat' split) <;> simp only [raise_queue, irq_queue, nocError_queue, add_def, p_queue]

theorem queueAt_checkPayload (d : Dev) (k : Packet) (a : Nat) : (d.checkPayload k).queueAt a = d.queueAt a := by
  simp only [queueAt, checkPayload_queue]

/-- A queue stands at its port as it stood when the request was sent. -/
theorem queueAt_arrived (d : Dev) (k : Packet) (r : Req) (a : Nat) : ((d.sent k r true).checkPayload (asSent k r)).queueAt a = d.queueAt a :=
  queueAt_checkPayload ..

/-! What a queue port does with a request, in the order of its checks. -/

section
variable {d : Dev} {k : Packet} {r : Req} (write : Bool) (act : Packet → Dev → Nat → Dev) (hlo : 0x94 ≤ k.dst.val) (hhi : k.dst.val < 0x98)
include hlo hhi

theorem serveQueue_port :
    serveQueue write act k d r =
      let x := d.queueAt (bitsAt k.addr.toNat 0 13)
      if !d.queueAllowed r (bitsAt k.addr.toNat 0 13) then d.refuseAccess k r write
      else if !x.en || bitsAt k.addr.toNat 13 6 == 0 || 32 < bitsAt k.addr.toNat 13 6 then d.respond k 6 []
      else if write && packetBad k then (d.checkPayload k).respond k 4 []
      else act (packetFixed k) (if write then d.checkPayload k else d) (bitsAt k.addr.toNat 0 13) := by
  have h40 : ¬ k.dst.val < 0x40 := by omega
  have h90 : ¬ k.dst.val < 0x90 := by omega
  have hport : ¬ (decide (k.dst.val < 0x94) || decide (0x98 ≤ k.dst.val)) = true := by
    simp only [Bool.or_eq_true, decide_eq_true_eq]
    omega
  simp only [serveQueue, targetAllowed, h40, h90, hport, decide_false, Bool.false_and, Bool.not_true, Bool.false_eq_true, if_false]

theorem serveQueue_foreign (hown : d.queueAllowed r (bitsAt k.addr.toNat 0 13) = false) : serveQueue write act k d r = d.refuseAccess k r write := by
  rw [serveQueue_port write act hlo hhi, hown]
  rfl

variable (hown : d.queueAllowed r (bitsAt k.addr.toNat 0 13) = true)
include hown

theorem serveQueue_disabled (hen : (d.queueAt (bitsAt k.addr.toNat 0 13)).en = false) : serveQueue write act k d r = d.respond k 6 [] := by
  rw [serveQueue_port write act hlo hhi, hown]
  simp only [hen, Bool.not_true, Bool.not_false, Bool.true_or, Bool.false_eq_true, if_false, if_true]

theorem serveQueue_badCount (h : bitsAt k.addr.toNat 13 6 = 0 ∨ 32 < bitsAt k.addr.toNat 13 6) : serveQueue write act k d r = d.respond k 6 [] := by
  have hcount : (!(d.queueAt (bitsAt k.addr.toNat 0 13)).en || bitsAt k.addr.toNat 13 6 == 0 || 32 < bitsAt k.addr.toNat 13 6) = true := by
    obtain h | h := h <;> simp [h]
  rw [serveQueue_port write act hlo hhi, hown]
  exact if_pos hcount

variable (hen : (d.queueAt (bitsAt k.addr.toNat 0 13)).en = true) (h1 : 1 ≤ bitsAt k.addr.toNat 13 6) (h32 : bitsAt k.addr.toNat 13 6 ≤ 32)
include hen h1 h32

theorem serveQueue_checked :
    serveQueue write act k d r =
      if write && packetBad k then (d.checkPayload k).respond k 4 []
      else act (packetFixed k) (if write then d.checkPayload k else d) (bitsAt k.addr.toNat 0 13) := by
  have hcount : ¬ (!(d.queueAt (bitsAt k.addr.toNat 0 13)).en || bitsAt k.addr.toNat 13 6 == 0 || 32 < bitsAt k.addr.toNat 13 6) = true := by
    simp [hen, h32, Nat.ne_of_gt h1]
  rw [serveQueue_port write act hlo hhi, hown]
  exact if_neg hcount

theorem serveQueue_bad (hbad : packetBad k = true) : serveQueue true act k d r = (d.checkPayload k).respond k 4 [] := by
  rw [serveQueue_checked true act hlo hhi hown hen h1 h32, hbad]
  rfl

theorem serveQueue_write (hok : packetBad k = false) :
    serveQueue true act k d r = act (packetFixed k) (d.checkPayload k) (bitsAt k.addr.toNat 0 13) := by
  rw [serveQueue_checked true act hlo hhi hown hen h1 h32, hok]
  rfl

theorem serveQueue_read : serveQueue false act k d r = act (packetFixed k) d (bitsAt k.addr.toNat 0 13) :=
  serveQueue_checked false act hlo hhi hown hen h1 h32

end

/-! A QWR at a queue that holds `x` is accepted, dropped or held (R284, R285, R297). -/

section
variable {d : Dev} {k : Packet} {a : Nat} {x : Queue} (hx : d.queueAt a = x)
include hx

theorem doQwr_eq :
    doQwr k d a =
      if x.waitQwr.isEmpty && (x.discard || bitsAt k.addr.toNat 13 6 ≤ x.free) then d.acceptQwr a k
      else if x.priv then d.dropQwr a k
      else d.setQueue a { x with waitQwr := x.waitQwr ++ [k] } := by
  subst hx
  rfl

theorem doQwr_accepted (hwait : x.waitQwr = []) (h : x.discard = true ∨ bitsAt k.addr.toNat 13 6 ≤ x.free) : doQwr k d a = d.acceptQwr a k :=
  (doQwr_eq hx).trans (if_pos (by simpa [hwait] using h))

variable (hdiscard : x.discard = false) (hfull : x.free < bitsAt k.addr.toNat 13 6)
include hdiscard hfull

theorem doQwr_full : doQwr k d a = if x.priv then d.dropQwr a k else d.setQueue a { x with waitQwr := x.waitQwr ++ [k] } :=
  (doQwr_eq hx).trans (if_neg (by simp [hdiscard, hfull]))

theorem doQwr_dropped (hpriv : x.priv = true) : doQwr k d a = d.dropQwr a k := (doQwr_full hx hdiscard hfull).trans (if_pos hpriv)

theorem doQwr_held (hpriv : x.priv = false) : doQwr k d a = d.setQueue a { x with waitQwr := x.waitQwr ++ [k] } :=
  (doQwr_full hx hdiscard hfull).trans (if_neg (Bool.eq_false_iff.1 hpriv))

end

/-! A QRD at a queue without a read port is answered with words, held, or answered with none (R286). -/

section
variable {d : Dev} {k : Packet} {a : Nat} (hfree : d.boundTo a = none)
include hfree

theorem markBound_free : d.markBound a = d := if_neg (by simp [hfree])

theorem emptyFor_free : d.emptyFor a = (d.queueAt a).seen.isEmpty := by simp [emptyFor, hfree]

theorem doQrd_answered (hseen : (d.queueAt a).seen ≠ []) (hwait : (d.queueAt a).waitQrd = []) : doQrd k d a = d.answerQrd a k := by
  simp [doQrd, markBound_free hfree, emptyFor_free hfree, hseen, hwait]

theorem doQrd_held (hseen : (d.queueAt a).seen = []) (hbit : k.addr.getLsbD 19 = true) :
    doQrd k d a = d.modQueue a fun x => { x with waitQrd := x.waitQrd ++ [k] } := by
  simp only [doQrd, markBound_free hfree, emptyFor_free hfree, hseen, hbit, List.isEmpty_nil, Bool.not_true, Bool.false_and, Bool.false_eq_true,
    if_false, if_true]

theorem doQrd_none (hseen : (d.queueAt a).seen = []) (hbit : k.addr.getLsbD 19 = false) : doQrd k d a = d.respond k 0 (leBytes 8 0) := by
  simp only [doQrd, markBound_free hfree, emptyFor_free hfree, hseen, hbit, List.isEmpty_nil, Bool.not_true, Bool.false_and, Bool.false_eq_true,
    if_false]

end

end Dev

section
variable {d e : Dev} {k : Packet} {r : Req} (q : List Instr) (hact : d.active = true) (hs : d.Sends k r)
include hact hs

theorem exec_qwr_served (h : Dev.serveQueue true Dev.doQwr (Dev.asSent k r) (d.sent k r true) r = e) : exec (.qwr k) ⟨d, q⟩ = .next ⟨e.finish, q⟩ :=
  (exec_qwr ..).trans (main_eq q hact ((Dev.request_sent _ _ hs).trans h))

theorem exec_qrd_served (h : Dev.serveQueue false Dev.doQrd (Dev.asSent k r) (d.sent k r false) r = e) : exec (.qrd k) ⟨d, q⟩ = .next ⟨e.finish, q⟩ :=
  (exec_qrd ..).trans (main_eq q hact ((Dev.request_sent _ _ hs).trans h))

variable (hlo : 0x94 ≤ k.dst.val) (hhi : k.dst.val < 0x98) (hown : d.queueAllowed r (bitsAt k.addr.toNat 0 13) = true)
  (hen : (d.queueAt (bitsAt k.addr.toNat 0 13)).en = true) (h1 : 1 ≤ bitsAt k.addr.toNat 13 6) (h32 : bitsAt k.addr.toNat 13 6 ≤ 32)
include hlo hhi hown hen h1 h32

theorem exec_qwr_atQueue (hok : packetBad k = false)
    (h : Dev.doQwr (packetFixed (Dev.asSent k r)) ((d.sent k r true).checkPayload (Dev.asSent k r)) (bitsAt k.addr.toNat 0 13) = e) :
    exec (.qwr k) ⟨d, q⟩ = .next ⟨e.finish, q⟩ :=
  exec_qwr_served q hact hs ((Dev.serveQueue_write (k := Dev.asSent k r) (d := d.sent k r true) _ hlo hhi hown hen h1 h32 hok).trans h)

theorem exec_qrd_atQueue (h : Dev.doQrd (packetFixed (Dev.asSent k r)) (d.sent k r false) (bitsAt k.addr.toNat 0 13) = e) :
    exec (.qrd k) ⟨d, q⟩ = .next ⟨e.finish, q⟩ :=
  exec_qrd_served q hact hs ((Dev.serveQueue_read (k := Dev.asSent k r) (d := d.sent k r false) _ hlo hhi hown hen h1 h32).trans h)

end

/-- Settles O45: a port checks owner, queue and count in their order, and the queue then takes, holds, drops or answers by what it holds. -/
theorem queuePortsServeQwrAndQrd : Obligations.QueuePortsServeQwrAndQrd := by
  refine ⟨?accepted, ?held, ?writeDisabled, ?answered, ?readNone, ?readForeign, ?discarded, ?dropped, ?bad, ?writeCount, ?readCount, ?writeForeign,
    ?readDisabled, ?readHeld⟩
  case accepted =>
    exact fun d q k r hact hs hlo hhi hown hen h1 h32 hok hwait hfits =>
      exec_qwr_atQueue q hact hs hlo hhi hown hen h1 h32 hok (Dev.doQwr_accepted (Dev.queueAt_arrived ..) hwait (.inr hfits))
  case discarded =>
    exact fun d q k r hact hs hlo hhi hown hen h1 h32 hok hwait hdiscard =>
      exec_qwr_atQueue q hact hs hlo hhi hown hen h1 h32 hok (Dev.doQwr_accepted (Dev.queueAt_arrived ..) hwait (.inl hdiscard))
  case held =>
    exact fun d q k r hact hs hlo hhi hown hen h1 h32 hok hdiscard hfull hpriv =>
      exec_qwr_atQueue q hact hs hlo hhi hown hen h1 h32 hok (Dev.doQwr_held (Dev.queueAt_arrived ..) hdiscard hfull hpriv)
  case dropped =>
    exact fun d q k r hact hs hlo hhi hown hen h1 h32 hok hdiscard hfull hpriv =>
      exec_qwr_atQueue q hact hs hlo hhi hown hen h1 h32 hok (Dev.doQwr_dropped (Dev.queueAt_arrived ..) hdiscard hfull hpriv)
  case bad =>
    exact fun d q k r hact hs hlo hhi hown hen h1 h32 hbad => exec_qwr_served q hact hs (Dev.serveQueue_bad _ hlo hhi hown hen h1 h32 hbad)
  case writeDisabled => exact fun d q k r hact hs hlo hhi hown hen => exec_qwr_served q hact hs (Dev.serveQueue_disabled _ _ hlo hhi hown hen)
  case writeCount => exact fun d q k r hact hs hlo hhi hown _ h => exec_qwr_served q hact hs (Dev.serveQueue_badCount _ _ hlo hhi hown h)
  case writeForeign => exact fun d q k r hact hs hlo hhi hown => exec_qwr_served q hact hs (Dev.serveQueue_foreign _ _ hlo hhi hown)
  case readDisabled => exact fun d q k r hact hs hlo hhi hown hen => exec_qrd_served q hact hs (Dev.serveQueue_disabled _ _ hlo hhi hown hen)
  case readCount => exact fun d q k r hact hs hlo hhi hown _ h => exec_qrd_served q hact hs (Dev.serveQueue_badCount _ _ hlo hhi hown h)
  case readForeign => exact fun d q k r hact hs hlo hhi hown => exec_qrd_served q hact hs (Dev.serveQueue_foreign _ _ hlo hhi hown)
  case answered =>
    exact fun d q k r hact hs hlo hhi hown hen h1 h32 hfree hseen hwait =>
      exec_qrd_atQueue q hact hs hlo hhi hown hen h1 h32 (Dev.doQrd_answered hfree hseen hwait)
  case readHeld =>
    exact fun d q k r hact hs hlo hhi hown hen h1 h32 hfree hseen hbit =>
      exec_qrd_atQueue q hact hs hlo hhi hown hen h1 h32 (Dev.doQrd_held hfree hseen hbit)
  case readNone =>
    exact fun d q k r hact hs hlo hhi hown hen h1 h32 hfree hseen hbit =>
      exec_qrd_atQueue q hact hs hlo hhi hown hen h1 h32 (Dev.doQrd_none hfree hseen hbit)

end Sys2Proof.Machine

namespace Sys2Proof.Machine

/-! Responses, router clocks, routes, and the writes of capture and trace blocks (R259, R262 to R267, R277, R278, R327, R343). -/

section
variable (s : State)

theorem exec_rspData (k : Packet) : exec (.rspData k) s = main s fun d => d.doResponse k true := rfl
theorem exec_rspAck (k : Packet) : exec (.rspAck k) s = main s fun d => d.doResponse k false := rfl
theorem exec_rspTimeout (src : Fin 256) (tag : Fin 4096) : exec (.rspTimeout src tag) s = main s fun d => d.doRspTimeout src tag := rfl
theorem exec_tagQuarantineEnd (src : Fin 256) (tag : Fin 4096) :
    exec (.tagQuarantineEnd src tag) s = main s fun d => d.doQuarantineEnd src tag := rfl
theorem exec_routeTableWrite (port idx : Fin 256) (entry : W64) :
    exec (.routeTableWrite port idx entry) s = main s fun d => d.doRouteWrite port idx entry.toNat := rfl
theorem exec_packetHop (x : Fin 8) (y : Fin 10) (ins : List (Fin 9 × Fin 4 × Flit)) :
    exec (.packetHop x y ins) s = main s fun d => d.doPacketHop x y ins := rfl
theorem exec_capWr (k : Packet) : exec (.capWr k) s = main s fun d => d.doCapWr k := rfl
theorem exec_trcWr (k : Packet) : exec (.trcWr k) s = main s fun d => d.doTrcWr k := rfl
theorem exec_nocClrCounts : exec .nocClrCounts s = main s fun d => if d.full then d.doNocClr else d := rfl

end

namespace Dev

/-! A response takes the buffer that its request reserved, or comes too late (R264, R265). -/

section
variable {d : Dev} {k : Packet} (data : Bool)

theorem doResponse_unawaited (h : d.noc.outst.find? (fun o => o.src == k.dst.val && o.tag == k.tag.val) = none) :
    d.doResponse k data = d.lateRsp := by
  rw [doResponse, h]
  exact ite_self _

variable {o : Outst} (hlo : 64 ≤ k.dst.val) (h : d.noc.outst.find? (fun o => o.src == k.dst.val && o.tag == k.tag.val) = some o)
include hlo h

theorem doResponse_abandoned (hab : o.abandoned = true) : d.doResponse k data = (d.freeOutst k.dst k.tag).lateRsp := by
  have hcluster : ¬ k.dst.val < 0x40 := by omega
  simp only [doResponse, hcluster, h, hab, decide_false, Bool.false_and, Bool.false_eq_true, if_false, if_true]

theorem doResponse_delivered (hhi : k.dst.val < 0xE0) (hab : o.abandoned = false) :
    d.doResponse k data = (d.deliver o k data).freeOutst k.dst k.tag := by
  have hcluster : ¬ k.dst.val < 0x40 := by omega
  have hgateway : ¬ 0xE0 ≤ k.dst.val := by omega
  simp only [doResponse, hcluster, hgateway, h, hab, decide_false, Bool.false_and, Bool.false_eq_true, if_false]

end

/-! A response that does not come (R265). -/

section
variable {d : Dev} {src tag : Nat} {o : Outst} (h : d.noc.outst.find? (fun o => o.src == src && o.tag == tag) = some o)
include h

theorem doRspTimeout_abandoned (hab : o.abandoned = true) : d.doRspTimeout src tag = d.freeOutst src tag := by
  simp only [doRspTimeout, h, hab, if_true]

theorem doRspTimeout_awaited (hab : o.abandoned = false) :
    d.doRspTimeout src tag =
      let f : Dev := { d with noc := { d.noc with quar := d.noc.quar ++ [(src, tag)] } }
      let f := (f.add pNOC NOC_TIMEOUTS_COUNT 1).raise 0x0B5 2 16 (src ||| o.dst <<< 8 ||| o.vc <<< 16 ||| tag <<< 18) o.addr
      (f.failed o 3).freeOutst src tag := by
  simp only [doRspTimeout, h, hab, Bool.false_eq_true, if_false]

end

/-! An entry of a port's route table is stored where it is legal (R262). -/

section
variable {d : Dev} {port idx e : Nat} (hport : portAt port ≠ none)
include hport

theorem doRouteWrite_legal (h : routeLegal port e = true) :
    d.doRouteWrite port idx e =
      { d with noc := { d.noc with routes := SMap.put d.noc.routes (port * 256 + idx) (BitVec.ofNat 64 (e % 2 ^ 40 ||| e >>> 63 <<< 63)) } } :=
  (if_neg (mt Option.isNone_iff_eq_none.1 hport)).trans (if_pos h)

theorem doRouteWrite_illegal (h : routeLegal port e = false) : d.doRouteWrite port idx e = (d.on pNOC NOC_RT_CTRL_RT_ERR).irq pNOC 3 :=
  (if_neg (mt Option.isNone_iff_eq_none.1 hport)).trans (if_neg (Bool.eq_false_iff.1 h))

end

/-! A header is checked as it arrives at a router (R259, R266). -/

theorem checkHeader_uncorrectable {d : Dev} {hdr : BitVec 256} {x y syn : Nat} (h : headerSecded hdr.toNat = .ue syn) :
    d.checkHeader hdr x y = (d.headerError (hdr.toNat % 2 ^ 247) x y, none) := by
  rw [checkHeader, h]

theorem checkHeader_clean {d : Dev} {hdr : BitVec 256} {x y : Nat} (h : headerSecded hdr.toNat = .ok)
    (hlen : bitsAt (hdr.toNat % 2 ^ 247) 64 4 ≤ 8) (hout : hasOutput x y (hopOut (hdr.toNat % 2 ^ 247)) = true)
    (hop : hopOut (hdr.toNat % 2 ^ 247) < 4 ∨ opKnown (bitsAt (hdr.toNat % 2 ^ 247) 58 6) = true) :
    d.checkHeader hdr x y = (d, some (hdr.toNat % 2 ^ 247)) := by
  have hknown : (decide (hopOut (hdr.toNat % 2 ^ 247) < 4) || opKnown (bitsAt (hdr.toNat % 2 ^ 247) 58 6)) = true := by
    simpa only [Bool.or_eq_true, decide_eq_true_eq] using hop
  simp only [checkHeader, h, Nat.not_lt.2 hlen, hout, hknown, Bool.not_true, Bool.false_eq_true, if_false, if_true]

section
variable {d e : Dev} {x y inp vc : Nat} {f : Flit} (hdrop : d.noc.drop.contains (vcKey x y inp vc) = false)
include hdrop

/-- Without a credit a flit stays with its sender (R263). -/
theorem flitArrives_noCredit (hcredit : d.hasCredit x y inp vc = false) : d.flitArrives x y inp vc f = d := by
  simp only [flitArrives, hdrop, hcredit, Bool.not_false, Bool.false_eq_true, if_false, if_true]

variable (hcredit : d.hasCredit x y inp vc = true) (hbegins : flitBegins f = true)
include hcredit hbegins

theorem flitArrives_discarded (h : d.checkHeader f.data x y = (e, none)) :
    d.flitArrives x y inp vc f = if flitEnds f then e else e.setDrop x y inp vc true := by
  simp only [flitArrives, hdrop, hcredit, hbegins, h, Bool.not_true, Bool.false_eq_true, if_false, if_true]

theorem flitArrives_buffered {v : Nat} (h : d.checkHeader f.data x y = (e, some v)) :
    d.flitArrives x y inp vc f = e.setFlits x y inp vc (e.flitsAt x y inp vc ++ [{ f with data := checkedHeader v }]) := by
  simp only [flitArrives, hdrop, hcredit, hbegins, h, Bool.not_true, Bool.false_eq_true, if_false, if_true]

end

/-- A header that leaves at a local port with more to come holds that output's channel for its packet (R263). -/
theorem passFlit_opens {d : Dev} {x y out vc inp : Nat} {f : Flit} {rest : List Flit} (h : d.flitsAt x y inp vc = f :: rest)
    (hbegins : flitBegins f = true) (hends : flitEnds f = false) (hout : 4 ≤ out) :
    d.passFlit x y out vc inp =
      let e := (d.setFlits x y inp vc rest).probeHeader (f.data.toNat % 2 ^ 247) x y out
      ({ e with noc := { e.noc with hold := SMap.put e.noc.hold (vcKey x y out vc) inp } } : Dev).emit (.hop ((y * 8 + x) * 16 + out) vc f) := by
  simp only [passFlit, h, hbegins, hends, hout, Bool.false_eq_true, if_false, if_true]

/-! A block of a capture is written where it was to go (R327, R363). -/

section
variable {d : Dev} {k : Packet} {blk : CapBlk} (h : d.cap.blocksOut.find? (fun b => b.addr == k.addr.toNat) = some blk)
include h

theorem doCapWr_intact (hok : packetBad k = false) :
    d.doCapWr k =
      let w := (({ d with cap := { d.cap with blocksOut := d.cap.blocksOut.erase blk } } : Dev).checkPayload k).hbmWrite (hubReq 0x9A) blk.addr blk.bytes
      w.1.iff (w.2 == 4) countDataErr := by
  simp only [doCapWr, h, hok, Bool.false_eq_true, if_false]

theorem doCapWr_damaged (hbad : packetBad k = true) :
    d.doCapWr k =
      let f := (({ d with cap := { d.cap with blocksOut := d.cap.blocksOut.erase blk } } : Dev).checkPayload k).countDataErr
      ((f.raise 0x10A 2 16 blk.chan k.addr.toNat).hbmWrite (hubReq 0x9A) blk.addr k.data).1.markDataErr blk := by
  simp only [doCapWr, h, hbad, if_true]

end

/-! A block of a trace is written where a stream's ring has its next place (R342, R343). -/

/-- The stream whose oldest block is to go to this place next. -/
def traceAt (d : Dev) (pci : Bool) (a : Nat) : Option Nat :=
  (List.range 17).find? fun s => !(d.strmAt s).out.isEmpty && d.ringBlocks s ≠ 0 && d.trcPlace s == (pci, a)

theorem doTrcWr_unplaced {d : Dev} {k : Packet} (h : d.traceAt (decide (0x90 ≤ k.dst.val) && decide (k.dst.val ≤ 0x93)) k.addr.toNat = none) :
    d.doTrcWr k = d := by
  rw [traceAt] at h
  simp only [doTrcWr, h]

theorem doTrcWr_intact {d : Dev} {k : Packet} {s : Nat} (h : d.traceAt false k.addr.toNat = some s) (hok : packetBad k = false)
    (hdst : k.dst.val < 0x90) (hs : s < 16) :
    d.doTrcWr k =
      let x := d.strmAt s
      let w := ((d.checkPayload k).setStrm s { x with out := x.out.drop 1 }).hbmWrite (ptnReq 0x9B s) k.addr.toNat (x.out.headD [])
      if w.2 == 4 then w.1.loseBlock s (blockRecs (x.out.headD [])).1 (blockRecs (x.out.headD [])).2 else w.1.blockWritten s := by
  have hhbm : ¬ 0x90 ≤ k.dst.val := by omega
  rw [traceAt] at h
  simp only [doTrcWr, hhbm, decide_false, Bool.false_and, h, hok, hs, iff_false, Bool.false_eq_true, if_false, if_true]

end Dev

/-- Settles O46: a response meets its buffer or none, a router checks what arrives, and each entry and block goes where its check lets it. -/
theorem responsesHopsAndRoutesAreHandled : Obligations.ResponsesHopsAndRoutesAreHandled := by
  refine ⟨?data, ?ack, ?late, ?lateAbandoned, ?timeout, ?timeoutAbandoned, ?quarantineEnd, ?legal, ?illegal, ?hop, ?uncorrectable, ?clean,
    ?noCredit, ?pass, ?capture, ?captureBad, ?traceNone, ?trace, ?clear⟩
  case data => exact fun d q k o hact hlo hhi h hab => (exec_rspData ..).trans (main_eq q hact (Dev.doResponse_delivered true hlo h hhi hab))
  case ack => exact fun d q k o hact hlo hhi h hab => (exec_rspAck ..).trans (main_eq q hact (Dev.doResponse_delivered false hlo h hhi hab))
  case late => exact fun d q k hact h => (exec_rspData ..).trans (main_eq q hact (Dev.doResponse_unawaited true h))
  case lateAbandoned => exact fun d q k o hact hlo h hab => (exec_rspAck ..).trans (main_eq q hact (Dev.doResponse_abandoned false hlo h hab))
  case timeout => exact fun d q src tag o hact h hab => (exec_rspTimeout ..).trans (main_eq q hact (Dev.doRspTimeout_awaited h hab))
  case timeoutAbandoned => exact fun d q src tag o hact h hab => (exec_rspTimeout ..).trans (main_eq q hact (Dev.doRspTimeout_abandoned h hab))
  case quarantineEnd => exact fun d q src tag hact => (exec_tagQuarantineEnd ..).trans (main_active d q _ hact)
  case legal => exact fun d q port idx entry hact hport h => (exec_routeTableWrite ..).trans (main_eq q hact (Dev.doRouteWrite_legal hport h))
  case illegal => exact fun d q port idx entry hact hport h => (exec_routeTableWrite ..).trans (main_eq q hact (Dev.doRouteWrite_illegal hport h))
  case hop => exact fun d q x y ins hact => (exec_packetHop ..).trans (main_active d q _ hact)
  case uncorrectable =>
    exact fun d x y inp vc syn f hdrop hcredit hbegins h => Dev.flitArrives_discarded hdrop hcredit hbegins (Dev.checkHeader_uncorrectable h)
  case clean =>
    exact fun d x y inp vc f hdrop hcredit hbegins h hlen hout hop =>
      Dev.flitArrives_buffered hdrop hcredit hbegins (Dev.checkHeader_clean h hlen hout hop)
  case noCredit => exact fun d x y inp vc f hcredit hdrop => Dev.flitArrives_noCredit hdrop hcredit
  case pass => exact fun d x y out vc inp f rest h hbegins hends hout => Dev.passFlit_opens h hbegins hends hout
  case capture => exact fun d q k blk hact h hok => (exec_capWr ..).trans (main_eq q hact (Dev.doCapWr_intact h hok))
  case captureBad => exact fun d q k blk hact h hbad => (exec_capWr ..).trans (main_eq q hact (Dev.doCapWr_damaged h hbad))
  case traceNone => exact fun d q k _ h => (exec_trcWr ..).trans (main_unchanged q (Dev.doTrcWr_unplaced h))
  case trace => exact fun d q k s hact h hok hdst hs => (exec_trcWr ..).trans (main_eq q hact (Dev.doTrcWr_intact h hok hdst hs))
  case clear => exact fun d q hd => (exec_nocClrCounts ..).trans (main_full q _ hd)

end Sys2Proof.Machine

namespace Sys2Proof.Machine

/-! Every command and every step keeps each enabled queue within its depth (R282, R284, R288): a command by the law of its own meaning, a step
because it is a command's or the clock's. -/

theorem exec_fit {s t : State} (h0 : s.dev.QueuesFit) : ∀ c : Instr, exec c s = .next t → t.dev.QueuesFit
  | .registerWrite .., h => execRegisterWrite_fit _ _ _ _ _ h0 h
  | .pairLowRead .., h => execPairLowRead_fit _ _ _ h0 h
  | .pairLowWrite .., h => execPairLowWrite_fit _ _ _ _ h0 h
  | .pairHighWrite .., h => execPairHighWrite_fit _ _ _ _ h0 h
  | .misalignedAccess .., h => execMisalignedAccess_fit _ _ _ _ _ h0 h
  | .fenceRead .., h => execFenceRead_fit _ _ _ h0 h
  | .executeStep .., h => execExecuteStep_fit _ _ h0 h
  | .correctedWordWriteBack .., h => execCorrectedWordWriteBack_fit _ _ _ _ _ _ h0 h
  | .cascadeLimit .., h => execCascadeLimit_fit _ _ h0 h
  | .runLimitReached .., h => execRunLimitReached_fit _ _ h0 h
  | .stepCyclesCountReached .., h => execStepCyclesCountReached_fit _ _ h0 h
  | .stepStepsCountReached .., h => execStepStepsCountReached_fit _ _ h0 h
  | .stallRelease .., h => execStallRelease_fit _ _ h0 h
  | .start .., h => execStart_fit _ _ h0 h
  | .resume .., h => execResume_fit _ _ h0 h
  | .freeze .., h => execFreeze_fit _ _ h0 h
  | .hardFreeze .., h => execHardFreeze_fit _ _ h0 h
  | .stepCycles .., h => execStepCycles_fit _ _ h0 h
  | .stepSteps .., h => execStepSteps_fit _ _ h0 h
  | .stop .., h => execStop_fit _ _ h0 h
  | .seqCmdInvalid .., h => execSeqCmdInvalid_fit _ _ _ h0 h
  | .freezeSettled .., h => execFreezeSettled_fit _ _ h0 h
  | .freezeTimeout .., h => execFreezeTimeout_fit _ _ h0 h
  | .seqTableWrite .., h => execSeqTableWrite_fit _ _ _ _ h0 h
  | .bpiClrCounts .., h => execBpiClrCounts_fit _ _ h0 h
  | .wliClrCounts .., h => execWliClrCounts_fit _ _ h0 h
  | .fabClrCount .., h => execFabClrCount_fit _ _ h0 h
  | .dmemClrCounts .., h => execDmemClrCounts_fit _ _ h0 h
  | .dmemRowWriteBack .., h => execDmemRowWriteBack_fit _ _ _ _ h0 h
  | .dmemCfgWrite .., h => execDmemCfgWrite_fit _ _ _ _ h0 h
  | .fmpConfigWrite .., h => execFmpConfigWrite_fit _ _ _ _ h0 h
  | .txpConfigWrite .., h => execTxpConfigWrite_fit _ _ _ _ h0 h
  | .farReadArrival .., h => execFarReadArrival_fit _ _ _ h0 h
  | .farWriteAck .., h => execFarWriteAck_fit _ _ _ h0 h
  | .windowRead .., h => execWindowRead_fit _ _ _ _ _ h0 h
  | .windowWrite .., h => execWindowWrite_fit _ _ _ _ _ _ h0 h
  | .windowReadTimeout .., h => execWindowReadTimeout_fit _ _ _ _ _ h0 h
  | .snapSave .., h => execSnapSave_fit _ _ h0 h
  | .snapSaveComplete .., h => execSnapSaveComplete_fit _ _ h0 h
  | .snapRestore .., h => execSnapRestore_fit _ _ h0 h
  | .snapCheckComplete .., h => execSnapCheckComplete_fit _ _ h0 h
  | .snapRestoreComplete .., h => execSnapRestoreComplete_fit _ _ h0 h
  | .snapAbort .., h => execSnapAbort_fit _ _ h0 h
  | .strobe, h => execStrobe_fit _ h0 h
  | .strobeLatch, h => execStrobeLatch_fit _ h0 h
  | .ptnCreate .., h => execPtnCreate_fit _ _ _ _ _ _ _ h0 h
  | .ptnDestroy .., h => execPtnDestroy_fit _ _ _ h0 h
  | .ptnCloseComplete .., h => execPtnCloseComplete_fit _ _ h0 h
  | .ptnResize .., h => execPtnResize_fit _ _ _ _ _ _ h0 h
  | .ptnResizeComplete .., h => execPtnResizeComplete_fit _ _ h0 h
  | .ptnQuery .., h => execPtnQuery_fit _ _ _ h0 h
  | .ping .., h => execPing_fit _ _ _ h0 h
  | .serviceBadCommand .., h => execServiceBadCommand_fit _ _ h0 h
  | .linkedCommand .., h => execLinkedCommand_fit _ _ _ _ _ _ _ h0 h
  | .linkedCommandEffect .., h => execLinkedCommandEffect_fit _ _ h0 h
  | .hold .., h => execHold_fit _ _ _ _ _ h0 h
  | .ready .., h => execReady_fit _ _ _ _ _ h0 h
  | .go .., h => execGo_fit _ _ _ _ _ h0 h
  | .systemHoldRelease .., h => execSystemHoldRelease_fit _ _ h0 h
  | .steps .., h => execSteps_fit _ _ _ _ _ _ h0 h
  | .sysFreeze, h => execSysFreeze_fit _ h0 h
  | .freezeMsg .., h => execFreezeMsg_fit _ _ _ _ _ h0 h
  | .lockstepRecord .., h => execLockstepRecord_fit _ _ h0 h
  | .partnerTimeout, h => execPartnerTimeout_fit _ h0 h
  | .beaconSend, h => execBeaconSend_fit _ h0 h
  | .beacon .., h => execBeacon_fit _ _ _ _ _ _ _ h0 h
  | .beaconTimeout, h => execBeaconTimeout_fit _ h0 h
  | .tsbHoldEnd, h => execTsbHoldEnd_fit _ h0 h
  | .tsbSet .., h => execTsbSet_fit _ _ h0 h
  | .bootGo, h => execBootGo_fit _ h0 h
  | .bootAbort, h => execBootAbort_fit _ h0 h
  | .bundleFetchComplete .., h => execBundleFetchComplete_fit _ _ h0 h
  | .bundleVerifyComplete, h => execBundleVerifyComplete_fit _ h0 h
  | .stageReady, h => execStageReady_fit _ h0 h
  | .confirm, h => execConfirm_fit _ h0 h
  | .burnComplete .., h => execBurnComplete_fit _ _ h0 h
  | .ownerProvision .., h => execOwnerProvision_fit _ _ _ h0 h
  | .loadGo .., h => execLoadGo_fit _ _ h0 h
  | .loadAbort .., h => execLoadAbort_fit _ _ h0 h
  | .loadReplay .., h => execLoadReplay_fit _ _ h0 h
  | .frame .., h => execFrame_fit _ _ _ h0 h
  | .scrubWalkRead .., h => execScrubWalkRead_fit _ _ _ h0 h
  | .scrubPassRequest .., h => execScrubPassRequest_fit _ _ h0 h
  | .scrubPassStart, h => execScrubPassStart_fit _ h0 h
  | .scrubPassComplete, h => execScrubPassComplete_fit _ h0 h
  | .upset .., h => execUpset_fit _ _ _ _ h0 h
  | .upsetRewrite .., h => execUpsetRewrite_fit _ _ _ h0 h
  | .laneGroupEnable .., h => execLaneGroupEnable_fit _ _ h0 h
  | .laneGroupDisable .., h => execLaneGroupDisable_fit _ _ h0 h
  | .laneTestRequest .., h => execLaneTestRequest_fit _ _ h0 h
  | .markerSend .., h => execMarkerSend_fit _ _ h0 h
  | .marker .., h => execMarker_fit _ _ _ _ _ h0 h
  | .acqTimeout .., h => execAcqTimeout_fit _ _ h0 h
  | .laneLoss .., h => execLaneLoss_fit _ _ _ h0 h
  | .codeword .., h => execCodeword_fit _ _ _ _ _ h0 h
  | .slotFrame .., h => execSlotFrame_fit _ _ _ _ h0 h
  | .linkFlit .., h => execLinkFlit_fit _ _ _ _ h0 h
  | .credit .., h => execCredit_fit _ _ _ _ _ h0 h
  | .injGo .., h => execInjGo_fit _ _ h0 h
  | .lgrpClrCounts .., h => execLgrpClrCounts_fit _ _ h0 h
  | .clrSlack .., h => execClrSlack_fit _ _ h0 h
  | .bridgeLaneEnable .., h => execBridgeLaneEnable_fit _ _ _ _ _ h0 h
  | .bridgeWordReceive .., h => execBridgeWordReceive_fit _ _ _ _ h0 h
  | .bridgeWordTransmit .., h => execBridgeWordTransmit_fit _ _ _ h0 h
  | .packetHop .., h => execPacketHop_fit _ _ _ _ h0 h
  | .rd .., h => execRd_fit _ _ h0 h
  | .wr .., h => execWr_fit _ _ h0 h
  | .qwr .., h => execQwr_fit _ _ h0 h
  | .qrd .., h => execQrd_fit _ _ h0 h
  | .capWr .., h => execCapWr_fit _ _ h0 h
  | .trcWr .., h => execTrcWr_fit _ _ h0 h
  | .rspData .., h => execRspData_fit _ _ h0 h
  | .rspAck .., h => execRspAck_fit _ _ h0 h
  | .rspTimeout .., h => execRspTimeout_fit _ _ _ h0 h
  | .tagQuarantineEnd .., h => execTagQuarantineEnd_fit _ _ _ h0 h
  | .routeTableWrite .., h => execRouteTableWrite_fit _ _ _ _ h0 h
  | .drain .., h => execDrain_fit _ _ h0 h
  | .drainComplete .., h => execDrainComplete_fit _ _ h0 h
  | .drainTimeout .., h => execDrainTimeout_fit _ _ h0 h
  | .unfence .., h => execUnfence_fit _ _ h0 h
  | .nocClrCounts, h => execNocClrCounts_fit _ h0 h
  | .txpCopyFill .., h => execTxpCopyFill_fit _ _ _ h0 h
  | .txpCreditRenew .., h => execTxpCreditRenew_fit _ _ _ h0 h
  | .doorbellAppend .., h => execDoorbellAppend_fit _ _ _ _ _ _ h0 h
  | .doorbellAppendMulti .., h => execDoorbellAppendMulti_fit _ _ _ _ h0 h
  | .pop .., h => execPop_fit _ _ _ h0 h
  | .popWaitExpire .., h => execPopWaitExpire_fit _ _ _ h0 h
  | .bar4AccessError .., h => execBar4AccessError_fit _ _ _ _ h0 h
  | .qwrHoldExpire .., h => execQwrHoldExpire_fit _ _ h0 h
  | .qrdHoldExpire .., h => execQrdHoldExpire_fit _ _ h0 h
  | .flush .., h => execFlush_fit _ _ _ h0 h
  | .dropHead .., h => execDropHead_fit _ _ _ h0 h
  | .clrHwm .., h => execClrHwm_fit _ _ _ h0 h
  | .queueEnable .., h => execQueueEnable_fit _ _ _ h0 h
  | .queueDisable .., h => execQueueDisable_fit _ _ _ h0 h
  | .submit .., h => execSubmit_fit _ _ h0 h
  | .submitHoldExpire .., h => execSubmitHoldExpire_fit _ _ h0 h
  | .courierDispatch .., h => execCourierDispatch_fit _ _ _ h0 h
  | .workItemComplete .., h => execWorkItemComplete_fit _ _ h0 h
  | .courierWaitLimit .., h => execCourierWaitLimit_fit _ _ h0 h
  | .dspClr, h => execDspClr_fit _ h0 h
  | .triggerLevelTimeout, h => execTriggerLevelTimeout_fit _ h0 h
  | .arm, h => execArm_fit _ h0 h
  | .disarm, h => execDisarm_fit _ h0 h
  | .trigPinEdge .., h => execTrigPinEdge_fit _ _ _ h0 h
  | .pinPulseEnd .., h => execPinPulseEnd_fit _ _ h0 h
  | .captureArm .., h => execCaptureArm_fit _ _ h0 h
  | .captureDisarm .., h => execCaptureDisarm_fit _ _ h0 h
  | .captureBlockWrite .., h => execCaptureBlockWrite_fit _ _ _ h0 h
  | .postLimitExpire .., h => execPostLimitExpire_fit _ _ h0 h
  | .rearmExpire .., h => execRearmExpire_fit _ _ h0 h
  | .channelOwnerWrite .., h => execChannelOwnerWrite_fit _ _ _ h0 h
  | .zeroingComplete .., h => execZeroingComplete_fit _ _ h0 h
  | .pinwheelConfigWrite .., h => execPinwheelConfigWrite_fit _ _ _ h0 h
  | .traceStreamEnable .., h => execTraceStreamEnable_fit _ _ h0 h
  | .traceCounterLimit .., h => execTraceCounterLimit_fit _ _ h0 h
  | .mark .., h => execMark_fit _ _ _ h0 h
  | .traceBlockTimeout .., h => execTraceBlockTimeout_fit _ _ h0 h
  | .traceSyncTimer .., h => execTraceSyncTimer_fit _ _ h0 h
  | .tokenChallenge .., h => execTokenChallenge_fit _ _ h0 h
  | .tokenPresent .., h => execTokenPresent_fit _ _ _ h0 h
  | .tokenRevoke .., h => execTokenRevoke_fit _ _ h0 h
  | .tokenExpire, h => execTokenExpire_fit _ h0 h
  | .authDisable, h => execAuthDisable_fit _ h0 h
  | .roll, h => execRoll_fit _ h0 h
  | .keyRollStart, h => execKeyRollStart_fit _ h0 h
  | .keyRollSector, h => execKeyRollSector_fit _ h0 h
  | .imeClrCounts, h => execImeClrCounts_fit _ h0 h
  | .vauxUp, h => execVauxUp_fit _ h0 h
  | .vauxLoss, h => execVauxLoss_fit _ h0 h
  | .vin48Up, h => execVin48Up_fit _ h0 h
  | .vin48Loss, h => execVin48Loss_fit _ h0 h
  | .perstAssert, h => execPerstAssert_fit _ h0 h
  | .perstDeassert, h => execPerstDeassert_fit _ h0 h
  | .startup .., h => execStartup_fit _ _ _ h0 h
  | .device, h => execDevice_fit _ h0 h
  | .flrPf, h => execFlrPf_fit _ h0 h
  | .flrVf .., h => execFlrVf_fit _ _ h0 h
  | .functionResetComplete .., h => execFunctionResetComplete_fit _ _ h0 h
  | .ptnReset .., h => execPtnReset_fit _ _ h0 h
  | .partitionResetComplete .., h => execPartitionResetComplete_fit _ _ h0 h
  | .vfEnableClear, h => execVfEnableClear_fit _ h0 h
  | .clusterWake .., h => execClusterWake_fit _ _ h0 h
  | .clusterIdleDelay .., h => execClusterIdleDelay_fit _ _ h0 h
  | .clusterOffDelay .., h => execClusterOffDelay_fit _ _ h0 h
  | .clusterPowerOn .., h => execClusterPowerOn_fit _ _ h0 h
  | .corePllLockLost, h => execCorePllLockLost_fit _ h0 h
  | .wakeSource .., h => execWakeSource_fit _ _ h0 h
  | .heartbeat .., h => execHeartbeat_fit _ _ h0 h
  | .heartbeatTimeout, h => execHeartbeatTimeout_fit _ h0 h
  | .graceTimeout, h => execGraceTimeout_fit _ h0 h
  | .overTemperature .., h => execOverTemperature_fit _ _ _ h0 h
  | .railFault, h => execRailFault_fit _ h0 h
  | .wardenStop, h => execWardenStop_fit _ h0 h
  | .stopDrainTimeout, h => execStopDrainTimeout_fit _ h0 h
  | .stopComplete, h => execStopComplete_fit _ h0 h
  | .stringJoin, h => execStringJoin_fit _ h0 h
  | .stringOpen, h => execStringOpen_fit _ h0 h
  | .stringLeave, h => execStringLeave_fit _ h0 h
  | .discover, h => execDiscover_fit _ h0 h
  | .collect .., h => execCollect_fit _ _ _ _ _ h0 h
  | .assign .., h => execAssign_fit _ _ _ _ _ h0 h
  | .stringBeacon .., h => execStringBeacon_fit _ _ _ _ _ _ h0 h
  | .stringFreeze .., h => execStringFreeze_fit _ _ _ _ _ h0 h
  | .stringStrobe .., h => execStringStrobe_fit _ _ _ _ _ h0 h
  | .resetReq .., h => execResetReq_fit _ _ _ _ _ _ h0 h
  | .msg .., h => execMsg_fit _ _ _ _ _ _ h0 h
  | .resetReqSend, h => execResetReqSend_fit _ h0 h
  | .stringBroken, h => execStringBroken_fit _ h0 h
  | .logClear, h => execLogClear_fit _ h0 h
  | .lastGaspClear, h => execLastGaspClear_fit _ h0 h
  | .mntRelease .., h => execMntRelease_fit _ _ _ _ h0 h
  | .mbistGo .., h => execMbistGo_fit _ _ h0 h
  | .mbistComplete .., h => execMbistComplete_fit _ _ _ h0 h
  | .clearAll, h => execClearAll_fit _ h0 h
  | .counterSaturate .., h => execCounterSaturate_fit _ _ _ h0 h
  | .irqStatClear .., h => execIrqStatClear_fit _ _ _ h0 h
  | .irqForce .., h => execIrqForce_fit _ _ _ h0 h
  | .msixUnmask .., h => execMsixUnmask_fit _ _ _ h0 h
  | .bar2Read .., h => execBar2Read_fit _ _ _ _ h0 h
  | .bar2Write .., h => execBar2Write_fit _ _ _ _ h0 h
  | .captureWindowRead .., h => execCaptureWindowRead_fit _ _ _ _ h0 h
  | .boundaryScanExtest .., h => execBoundaryScanExtest_fit _ _ h0 h
  | .ownerBurnComplete .., h => execOwnerBurnComplete_fit _ _ h0 h
  | .prbsCheck .., h => execPrbsCheck_fit _ _ _ _ h0 h
  | .laneClockRecovered .., h => execLaneClockRecovered_fit _ _ _ h0 h
  | .vfEnableSet .., h => execVfEnableSet_fit _ _ h0 h
  | .stringFrameRepeat, h => execStringFrameRepeat_fit _ h0 h
  | .stringBeaconSend, h => execStringBeaconSend_fit _ h0 h

/-- A step is a command's effect, or the clock's where none waits: what both keep, a step keeps. -/
theorem step_keeps {P : Dev → Prop} (hexec : ∀ {s t : State}, P s.dev → ∀ c : Instr, exec c s = .next t → P t.dev)
    (hclock : ∀ {s t : State}, P s.dev → main s Dev.clockStep = .next t → P t.dev) {s t : State} (h : step s = .next t) (h0 : P s.dev) :
    P t.dev := by
  obtain ⟨d, pending⟩ := s
  cases pending with
  | nil => exact hclock h0 ((step_nil d).symm.trans h)
  | cons c rest => exact hexec (s := ⟨d, rest⟩) h0 c ((step_cons c rest d).symm.trans h)

/-- Settles O7: a step is a command's effect or the clock's, and each of these leaves every enabled queue within its depth. -/
theorem queuesStayWithinTheirDepth : Obligations.QueuesStayWithinTheirDepth :=
  fun _ _ => step_keeps exec_fit fun h0 => main_fit h0 Dev.clockStep_fit

end Sys2Proof.Machine

namespace Sys2Proof.Machine

/-! Doorbells, POP and the holds that expire (R284, R286, R290, R291). -/

section
variable (fn : Fn) (slot k : Fin 8192) (s : State)

theorem exec_doorbellAppend (fin fence : Bool) (w : W64) :
    exec (.doorbellAppend fn slot fin fence w) s = main s fun d => d.doDoorbell fn slot fin fence w := rfl
theorem exec_doorbellAppendMulti (ws : Words) : exec (.doorbellAppendMulti fn slot ws) s = main s fun d => d.doDoorbellMulti fn slot ws := rfl
theorem exec_pop : exec (.pop fn slot) s = main s fun d => d.doPop fn slot := rfl
theorem exec_popWaitExpire : exec (.popWaitExpire fn slot) s = main s fun d => d.doPopWaitExpire fn slot := rfl
theorem exec_bar4AccessError (off : Nat) (write : Bool) : exec (.bar4AccessError fn off write) s = main s fun d => d.doBar4Error fn off write := rfl
theorem exec_qwrHoldExpire : exec (.qwrHoldExpire k) s = main s fun d => d.doQwrExpire k := rfl
theorem exec_qrdHoldExpire : exec (.qrdHoldExpire k) s = main s fun d => d.doQrdExpire k := rfl

end

namespace Dev

/-! A doorbell slot whose number selects queue `a` (R290, R291, R424). -/

section
variable {d : Dev} {fn : Fn} {slot a : Nat} (hslot : d.slotQueue fn slot = some a)
include hslot

theorem atSlot_disabled (off : Nat) (k : Dev → Nat → Dev) (hen : (d.queueAt a).en = false) :
    d.atSlot fn slot off k = d.bar4Error fn off true := by
  simp [atSlot, hslot, hen]

theorem doPopWaitExpire_held (hheld : (d.queueAt a).waitPop.contains fn = true) :
    d.doPopWaitExpire fn slot = (d.setQueue a { d.queueAt a with waitPop := (d.queueAt a).waitPop.erase fn }).emptyPop fn a := by
  simp only [doPopWaitExpire, hslot]
  exact if_pos hheld

variable (hen : (d.queueAt a).en = true) (hreset : d.pwr.fnReset.contains fn = false) (hl : d.Linked (some (queuePort a)))
include hen hreset hl

theorem atSlot_enabled (off : Nat) (k : Dev → Nat → Dev) : d.atSlot fn slot off k = k d a := by
  simp only [atSlot, hslot, hen, hreset, Bool.not_false, Bool.and_self, if_true]
  exact viaNoc_linked d fn _ 4 off true _ _ hl

/-- A POP of a queue without a read port takes the head word, answers at once, or is held, by what the queue holds and by POP_WAIT. -/
theorem doPop_free (hfree : d.boundTo a = none) :
    d.doPop fn slot =
      if !(d.queueAt a).seen.isEmpty && (d.queueAt a).waitPop.isEmpty then d.completePop fn a
      else if d.popWait == 0 then d.emptyPop fn a
      else d.modQueue a fun x => { x with waitPop := x.waitPop ++ [fn] } := by
  simp only [doPop, hslot, hen, hreset, Bool.not_true, Bool.or_self, Bool.false_eq_true, if_false]
  rw [viaNoc_linked d fn _ 4 _ false _ _ hl, markBound_free hfree, emptyFor_free hfree]

variable (hfree : d.boundTo a = none)
include hfree

theorem doPop_taken (hseen : (d.queueAt a).seen ≠ []) (hwait : (d.queueAt a).waitPop = []) : d.doPop fn slot = d.completePop fn a :=
  (doPop_free hslot hen hreset hl hfree).trans (if_pos (by simp [hseen, hwait]))

variable (hseen : (d.queueAt a).seen = [])
include hseen

theorem doPop_empty : d.doPop fn slot = if d.popWait == 0 then d.emptyPop fn a else d.modQueue a fun x => { x with waitPop := x.waitPop ++ [fn] } :=
  (doPop_free hslot hen hreset hl hfree).trans (if_neg (by simp [hseen]))

theorem doPop_answered (hnow : d.popWait = 0) : d.doPop fn slot = d.emptyPop fn a :=
  (doPop_empty hslot hen hreset hl hfree hseen).trans (if_pos (by simp [hnow]))

theorem doPop_held (hlater : d.popWait ≠ 0) : d.doPop fn slot = d.modQueue a fun x => { x with waitPop := x.waitPop ++ [fn] } :=
  (doPop_empty hslot hen hreset hl hfree hseen).trans (if_neg (by simp [hlater]))

end

/-! A doorbell write of several words is of 1 to 4, and is stored whole or not at all (R290). -/

section
variable {d : Dev} {fn : Fn} {slot a : Nat} {ws : List W64}

theorem doDoorbellMulti_long (h : 4 < ws.length) : d.doDoorbellMulti fn slot ws = d.bar4Error fn (64 * slot + 32) true :=
  if_pos (by simp [h])

theorem doDoorbellMulti_atSlot (h1 : 1 ≤ ws.length) (h4 : ws.length ≤ 4) :
    d.doDoorbellMulti fn slot ws =
      d.atSlot fn slot (64 * slot + 32) fun d a =>
        if (d.queueAt a).discard || ws.length ≤ (d.queueAt a).free then d.appendAll a ws true false
        else (d.dropWrite a true true).1.notifyKinds a (d.dropWrite a true true).2 :=
  if_neg (by simp [List.length_pos_iff.1 h1, h4])

theorem doDoorbellMulti_stored (h1 : 1 ≤ ws.length) (h4 : ws.length ≤ 4) (hslot : d.slotQueue fn slot = some a) (hen : (d.queueAt a).en = true)
    (hreset : d.pwr.fnReset.contains fn = false) (hl : d.Linked (some (queuePort a)))
    (hfits : (d.queueAt a).discard = true ∨ ws.length ≤ (d.queueAt a).free) : d.doDoorbellMulti fn slot ws = d.appendAll a ws true false := by
  rw [doDoorbellMulti_atSlot h1 h4, atSlot_enabled hslot hen hreset hl]
  exact if_pos (by simpa using hfits)

end

/-! The oldest request that a queue holds expires with no words (R284, R286). -/

theorem doQwrExpire_held {d : Dev} {a : Nat} {w : Packet} {rest : List Packet} (h : (d.queueAt a).waitQwr = w :: rest) :
    d.doQwrExpire a = (d.setQueue a { d.queueAt a with waitQwr := rest }).respond w 0 (leBytes 8 0) := by
  simp only [doQwrExpire, h]

theorem doQrdExpire_held {d : Dev} {a : Nat} {w : Packet} {rest : List Packet} (h : (d.queueAt a).waitQrd = w :: rest) :
    d.doQrdExpire a = (d.setQueue a { d.queueAt a with waitQrd := rest }).respond w 0 (leBytes 8 0) := by
  simp only [doQrdExpire, h]

end Dev

/-- Settles O48: a slot leads to its queue or to an access error, and what the queue holds decides whether it takes, answers or keeps the access. -/
theorem doorbellsAppendAndPop : Obligations.DoorbellsAppendAndPop := by
  refine ⟨?append, ?appendDisabled, ?appendMulti, ?tooLong, ?popTaken, ?popAnswered, ?popHeld, ?popExpires, ?error, ?qwrExpires, ?qrdExpires⟩
  case append =>
    exact fun d q fn slot e fence w k hact hslot hen hreset hl =>
      (exec_doorbellAppend ..).trans (main_eq q hact (Dev.atSlot_enabled hslot hen hreset hl ..))
  case appendDisabled =>
    exact fun d q fn slot e fence w k hact hslot hen => (exec_doorbellAppend ..).trans (main_eq q hact (Dev.atSlot_disabled hslot _ _ hen))
  case appendMulti =>
    exact fun d q fn slot ws k hact h1 h4 hslot hen hreset hl hfits =>
      (exec_doorbellAppendMulti ..).trans (main_eq q hact (Dev.doDoorbellMulti_stored h1 h4 hslot hen hreset hl hfits))
  case tooLong => exact fun d q fn slot ws hact h => (exec_doorbellAppendMulti ..).trans (main_eq q hact (Dev.doDoorbellMulti_long h))
  case popTaken =>
    exact fun d q fn slot k hact hslot hen hreset hl hfree hseen hwait =>
      (exec_pop ..).trans (main_eq q hact (Dev.doPop_taken hslot hen hreset hl hfree hseen hwait))
  case popAnswered =>
    exact fun d q fn slot k hact hslot hen hreset hl hfree hseen hnow =>
      (exec_pop ..).trans (main_eq q hact (Dev.doPop_answered hslot hen hreset hl hfree hseen hnow))
  case popHeld =>
    exact fun d q fn slot k hact hslot hen hreset hl hfree hseen hlater =>
      (exec_pop ..).trans (main_eq q hact (Dev.doPop_held hslot hen hreset hl hfree hseen hlater))
  case popExpires =>
    exact fun d q fn slot k hact hslot hheld => (exec_popWaitExpire ..).trans (main_eq q hact (Dev.doPopWaitExpire_held hslot hheld))
  case error => exact fun d q fn off write hact => (exec_bar4AccessError ..).trans (main_active d q _ hact)
  case qwrExpires => exact fun d q k w rest hact h => (exec_qwrHoldExpire ..).trans (main_eq q hact (Dev.doQwrExpire_held h))
  case qrdExpires => exact fun d q k w rest hact h => (exec_qrdHoldExpire ..).trans (main_eq q hact (Dev.doQrdExpire_held h))

end Sys2Proof.Machine

namespace Sys2Proof.Machine

/-! Commands of the queue that a function's window selects (R282, R295, R296, R298). -/

section
variable (fn : Fn) (x : Fin 8192) (s : State)

theorem exec_flush : exec (.flush fn x) s = main s fun d => d.atQueue fn x fun d a => d.queueCmd a 1 := rfl
theorem exec_dropHead : exec (.dropHead fn x) s = main s fun d => d.atQueue fn x fun d a => d.queueCmd a 2 := rfl
theorem exec_clrHwm : exec (.clrHwm fn x) s = main s fun d => d.atQueue fn x fun d a => d.queueCmd a 3 := rfl
theorem exec_queueEnable : exec (.queueEnable fn x) s = main s fun d => d.atQueue fn x fun d a => d.setQueueEn a true := rfl
theorem exec_queueDisable : exec (.queueDisable fn x) s = main s fun d => d.atQueue fn x fun d a => d.setQueueEn a false := rfl

end

namespace Dev

theorem atQueue_selected {d : Dev} {fn : Fn} {x a : Nat} (k : Dev → Nat → Dev) (hwin : d.winQueue fn x = some a)
    (hreset : d.pwr.fnReset.contains fn = false) : d.atQueue fn x k = k d a := by
  simp only [atQueue, hwin, hreset, Bool.false_eq_true, if_false]

/-! Of queues 0 to 15 only 2 and 3 take the three commands (R298). -/

section
variable {a : Nat} (d : Dev)

theorem queueCmd_refused (cmd : Nat) (ha : a < 16) (h2 : a ≠ 2) (h3 : a ≠ 3) : d.queueCmd a cmd = d := if_pos (by simp [ha, h2, h3])

variable (ha : 16 ≤ a ∨ a = 2 ∨ a = 3)
include ha

theorem not_queueCmd_refused : ¬ (a < 16 && !(a == 2 || a == 3)) = true := by
  obtain h | rfl | rfl := ha
  · simp [Nat.not_lt.2 h]
  · decide
  · decide

theorem queueCmd_flush : d.queueCmd a 1 = d.flushQueue a := if_neg (not_queueCmd_refused ha)
theorem queueCmd_dropHead : d.queueCmd a 2 = d.dropHeadOf a := if_neg (not_queueCmd_refused ha)
theorem queueCmd_clrHwm : d.queueCmd a 3 = d.modQueue a fun y => { y with hwm := y.words.length } := if_neg (not_queueCmd_refused ha)

end

/-! QCFG.EN: a queue of a partition is enabled where its depth fits the partition's blocks, and given up whole (R282, R298). -/

theorem setQueueEn_device {a : Nat} (d : Dev) (en : Bool) (ha : a < 16) : d.setQueueEn a en = d := if_pos ha

section
variable {d : Dev} {a : Nat} (ha : 16 ≤ a)
include ha

theorem setQueueEn_enable : d.setQueueEn a true = d.enableQueue a := if_neg (Nat.not_lt.2 ha)
theorem setQueueEn_disable : d.setQueueEn a false = d.disableQueue a := if_neg (Nat.not_lt.2 ha)

theorem setQueueEn_disable_off (hen : (d.queueAt a).en = false) : d.setQueueEn a false = d :=
  (setQueueEn_disable ha).trans (if_pos (by simp [hen]))

theorem setQueueEn_disable_on (hen : (d.queueAt a).en = true) :
    d.setQueueEn a false =
      ((((d.dropCredits a).flushQueue a).answerHeld a).modQueue a fun y => { y with en := false, reserved := 0 }).withdrawBridge a :=
  (setQueueEn_disable ha).trans (if_neg (by simp [hen]))

variable {i : Nat} (hown : d.queueOwner a = some i) (hen : (d.queueAt a).en = false)
include hown hen

theorem setQueueEn_enable_owned :
    d.setQueueEn a true =
      if d.blocksUsed (d.g pDEV (DEV_DIR_QBASE i)) (d.g pDEV (DEV_DIR_QBASE i) + d.g pDEV (DEV_DIR_QCOUNT i)) + (d.queueAt a).blocks ≤
        d.g pDEV (DEV_DIR_QCOUNT i) * 16 then d.setQueue a { d.queueAt a with en := true, words := [], reserved := 0 }
      else d.setQueue a ((d.queueAt a).flag 4) := by
  simp only [setQueueEn_enable ha, enableQueue, hown, hen, Bool.false_eq_true, if_false]

end

end Dev

/-- A command of a function's window acts on the queue that the window selects, and settles. -/
theorem main_atQueue_eq {d e : Dev} (q : List Instr) {fn : Fn} {x a : Nat} {k : Dev → Nat → Dev} (hact : d.active = true)
    (hwin : d.winQueue fn x = some a) (hreset : d.pwr.fnReset.contains fn = false) (h : k d a = e) :
    main ⟨d, q⟩ (fun d => d.atQueue fn x k) = .next ⟨e.finish, q⟩ :=
  main_eq q hact ((Dev.atQueue_selected k hwin hreset).trans h)

/-- Settles O49: the window selects the queue, whose number says which commands it takes, and whose blocks say whether it can be enabled. -/
theorem queueCommandsTakeEffect : Obligations.QueueCommandsTakeEffect := by
  refine ⟨?flush, ?dropHead, ?clrHwm, ?flushDevice, ?dropHeadDevice, ?clrHwmDevice, ?flushRefused, ?dropHeadRefused, ?clrHwmRefused, ?enableDevice,
    ?disableDevice, ?enable, ?noSpace, ?disable, ?disabled⟩
  case flush =>
    exact fun d q fn x k hact hwin hreset hk =>
      (exec_flush ..).trans (main_atQueue_eq q hact hwin hreset (d.queueCmd_flush (.inl hk)))
  case dropHead =>
    exact fun d q fn x k hact hwin hreset hk =>
      (exec_dropHead ..).trans (main_atQueue_eq q hact hwin hreset (d.queueCmd_dropHead (.inl hk)))
  case clrHwm =>
    exact fun d q fn x k hact hwin hreset hk =>
      (exec_clrHwm ..).trans (main_atQueue_eq q hact hwin hreset (d.queueCmd_clrHwm (.inl hk)))
  case flushDevice =>
    exact fun d q fn x k hact hwin hreset hk =>
      (exec_flush ..).trans (main_atQueue_eq q hact hwin hreset (d.queueCmd_flush (.inr hk)))
  case dropHeadDevice =>
    exact fun d q fn x k hact hwin hreset hk =>
      (exec_dropHead ..).trans (main_atQueue_eq q hact hwin hreset (d.queueCmd_dropHead (.inr hk)))
  case clrHwmDevice =>
    exact fun d q fn x k hact hwin hreset hk =>
      (exec_clrHwm ..).trans (main_atQueue_eq q hact hwin hreset (d.queueCmd_clrHwm (.inr hk)))
  case flushRefused =>
    exact fun d q fn x k hact hwin hreset hk h2 h3 =>
      (exec_flush ..).trans (main_atQueue_eq q hact hwin hreset (d.queueCmd_refused _ hk h2 h3))
  case dropHeadRefused =>
    exact fun d q fn x k hact hwin hreset hk h2 h3 =>
      (exec_dropHead ..).trans (main_atQueue_eq q hact hwin hreset (d.queueCmd_refused _ hk h2 h3))
  case clrHwmRefused =>
    exact fun d q fn x k hact hwin hreset hk h2 h3 =>
      (exec_clrHwm ..).trans (main_atQueue_eq q hact hwin hreset (d.queueCmd_refused _ hk h2 h3))
  case enableDevice =>
    exact fun d q fn x k hact hwin hreset hk =>
      (exec_queueEnable ..).trans (main_atQueue_eq q hact hwin hreset (d.setQueueEn_device _ hk))
  case disableDevice =>
    exact fun d q fn x k hact hwin hreset hk =>
      (exec_queueDisable ..).trans (main_atQueue_eq q hact hwin hreset (d.setQueueEn_device _ hk))
  case enable =>
    exact fun d q fn x k i hact hwin hreset hk hown hen hfits =>
      (exec_queueEnable ..).trans
        (main_atQueue_eq q hact hwin hreset ((Dev.setQueueEn_enable_owned hk hown hen).trans (if_pos hfits)))
  case noSpace =>
    exact fun d q fn x k i hact hwin hreset hk hown hen hfull =>
      (exec_queueEnable ..).trans
        (main_atQueue_eq q hact hwin hreset ((Dev.setQueueEn_enable_owned hk hown hen).trans (if_neg (Nat.not_le.2 hfull))))
  case disable =>
    exact fun d q fn x k hact hwin hreset hk hen =>
      (exec_queueDisable ..).trans (main_atQueue_eq q hact hwin hreset (Dev.setQueueEn_disable_on hk hen))
  case disabled =>
    exact fun d q fn x k hact hwin hreset hk hen =>
      (exec_queueDisable ..).trans (main_atQueue_eq q hact hwin hreset (Dev.setQueueEn_disable_off hk hen))

end Sys2Proof.Machine

namespace Sys2Proof.Machine

/-! The dispatcher and the couriers (R299 to R309). -/

section
variable (s : State) (c : Fin 32)

theorem exec_submit (fn : Fn) : exec (.submit fn) s = main s fun d => d.doSubmit fn := rfl
theorem exec_submitHoldExpire (l : Fin 17) : exec (.submitHoldExpire l) s = main s fun d => d.doSubmitExpire l := rfl
theorem exec_courierDispatch (data : List Byte) : exec (.courierDispatch c data) s = main s fun d => d.doDispatch c data := rfl
theorem exec_workItemComplete : exec (.workItemComplete c) s = main s fun d => d.doItemComplete c := rfl
theorem exec_courierWaitLimit : exec (.courierWaitLimit c) s = main s fun d => d.doWaitLimit c := rfl
theorem exec_dspClr : exec .dspClr s = main s fun d => if d.full then d.doDspClr else d := rfl

end

namespace Dev

/-! Where the SUBMIT registers stand: the PF's on the dispatcher's page, a partition's on its own, behind no endpoint (R304, R433). -/

theorem submitAt_partition (i : Fin 16) : submitAt i = pPTN i + 0x760 := if_neg (by simp; omega)

theorem submitPage_partition (i : Fin 16) : submitAt i / 0x1000 * 0x1000 = pPTN i := by
  rw [submitAt_partition, pPTN]
  omega

theorem linked_partition (d : Dev) (i : Fin 16) : d.Linked (pageHome (pPTN i)) := by
  have hno : cluOf (pPTN i) = none := cluOf_hub (by simp only [pPTN]; omega)
  have hhome : pageHome (pPTN i) = none := by
    simp only [pageHome, hno]
    exact if_pos (by simp only [pPTN]; omega)
  rw [hhome]
  exact ⟨rfl, rfl⟩

theorem stagedItem_pf (d : Dev) :
    d.stagedItem 16 = ⟨BitVec.ofNat 64 (d.g pDSP (DSP_WI_WORD 0)), BitVec.ofNat 64 (d.g pDSP (DSP_WI_WORD 1)),
      BitVec.ofNat 64 (d.g pDSP (DSP_WI_WORD 2)), BitVec.ofNat 64 (d.g pDSP (DSP_WI_WORD 3)), 16, d.now⟩ := rfl

theorem stagedItem_partition (d : Dev) (i : Fin 16) :
    d.stagedItem i = ⟨BitVec.ofNat 64 (d.g (pPTN i) (PTN_WI_WORD 0)), BitVec.ofNat 64 (d.g (pPTN i) (PTN_WI_WORD 1)),
      BitVec.ofNat 64 (d.g (pPTN i) (PTN_WI_WORD 2)), BitVec.ofNat 64 (d.g (pPTN i) (PTN_WI_WORD 3)), i, d.now⟩ := by
  have hi : (i.val == 16) = false := beq_false_of_ne (by omega)
  simp only [stagedItem, hi, Bool.false_eq_true, if_false]

/-! A SUBMIT read reaches its list or completes with all ones (R11, R304). -/

section
variable {d : Dev} {fn : Fn} {base : Nat} (hbase : submitAt (submitListOf fn) / 0x1000 * 0x1000 = base)
include hbase

theorem doSubmit_reached (hreach : d.reach fn base = .yes) (hl : d.Linked (pageHome base)) :
    d.doSubmit fn = d.submitList fn (submitListOf fn) := by
  subst hbase
  simp only [doSubmit, hreach, beq_self_eq_true, if_true]
  exact viaNoc_linked d fn _ 0 _ false _ _ hl

theorem doSubmit_unreached (hreach : d.reach fn base ≠ .yes) : d.doSubmit fn = d.complete fn (submitAt (submitListOf fn)) 0xFFFFFFFF := by
  subst hbase
  exact if_neg (by simpa using hreach)

end

/-! What a list does with a SUBMIT read: it is held behind an earlier one of its function or for room, or its item is judged (R304, R305). -/

section
variable {d : Dev}

theorem mustHold_room {w : Work} (h : (d.listAt w.list).length < 256) : d.mustHold w = false := by
  simp [mustHold, Nat.not_le.2 h]

theorem mustHold_plain {w : Work} (h : (d.g pDSP DSP_CFG_COMPAT).testBit w.list = false) : d.mustHold w = false := by
  simp [mustHold, h]

theorem mustHold_full {w : Work} (hlist : w.list = 16) (hfull : 256 ≤ (d.listAt 16).length)
    (hcompat : (d.g pDSP DSP_CFG_COMPAT).testBit 16 = true) (hgood : d.badItem w = false) : d.mustHold w = true := by
  simp [mustHold, hlist, hfull, hcompat, hgood]

variable {fn : Fn} {l : Nat}

theorem submitList_behind (h : d.dsp.heldSub.any (fun h => h.1.list == l && h.2 == fn) = true) :
    d.submitList fn l = { d with dsp := { d.dsp with heldSub := d.dsp.heldSub ++ [(d.stagedItem l, fn)] } } :=
  if_pos (by rw [h]; rfl)

variable (hnone : d.dsp.heldSub = [])
include hnone

theorem submitList_held (h : d.mustHold (d.stagedItem l) = true) :
    d.submitList fn l = { d with dsp := { d.dsp with heldSub := [(d.stagedItem l, fn)] } } := by
  simp [submitList, hnone, h]

theorem submitList_placed (h : d.mustHold (d.stagedItem l) = false) : d.submitList fn l = d.placeItem fn (d.stagedItem l) := by
  simp [submitList, hnone, h]

end

theorem doSubmitExpire_held {d : Dev} {l : Nat} {h : Work × Fn} (hheld : d.dsp.heldSub.find? (fun h => h.1.list == l) = some h) :
    d.doSubmitExpire l = (d.placeHeld h).wakeSubmits l := by
  simp only [doSubmitExpire, hheld]

/-! What a courier does next, by the item it executes and the one it has prefetched (R302). -/

theorem takeItem_none {d : Dev} (h : d.nextList = none) : d.takeItem = none := by simp only [takeItem, h]

section
variable {d : Dev} {c : Nat} (data : List Byte)

theorem doDispatch_prefetched {w : Work} (hitem : (d.courierAt c).item = none) (hslot : (d.courierAt c).slot = some w) :
    d.doDispatch c data = d.startItem c w data := by
  simp only [doDispatch, hitem, hslot]

theorem doDispatch_idle (hitem : (d.courierAt c).item = none) (hslot : (d.courierAt c).slot = none) (hnext : d.nextList = none) :
    d.doDispatch c data = d := by
  simp only [doDispatch, hitem, hslot, takeItem_none hnext]

theorem doDispatch_starts {w : Work} {f : Dev} (hitem : (d.courierAt c).item = none) (hslot : (d.courierAt c).slot = none)
    (hnext : d.takeItem = some (w, f)) : d.doDispatch c data = f.startItem c w data := by
  simp only [doDispatch, hitem, hslot, hnext]

theorem doDispatch_prefetches {v w : Work} {f : Dev} (hitem : (d.courierAt c).item = some v) (hslot : (d.courierAt c).slot = none)
    (hnext : d.takeItem = some (w, f)) :
    d.doDispatch c data = (f.setCourier c { d.courierAt c with slot := some w }).on pCRR (CRR_CSTATE_SLOT_FULL c) := by
  simp only [doDispatch, hitem, hslot, hnext]

end

/-! How an item ends (R301, R303, R308): STATE 1 is an item in execution, 2 one that waits for space. -/

section
variable {d : Dev} {c : Nat}

theorem doItemComplete_free (h : (d.courierAt c).item = none) : d.doItemComplete c = d := by simp only [doItemComplete, h]

theorem doItemComplete_executing {w : Work} (h : (d.courierAt c).item = some w) (hst : d.g pCRR (CRR_CSTATE_STATE c) = 1) :
    d.doItemComplete c = d.endItem c w (d.courierAt c) := by
  simp only [doItemComplete, h, hst, Nat.reduceBEq, Bool.false_eq_true, if_false]

theorem doWaitLimit_waiting {w : Work} (h : (d.courierAt c).item = some w) (hst : d.g pCRR (CRR_CSTATE_STATE c) = 2) :
    d.doWaitLimit c = d.endItem c w { d.courierAt c with status := 1 } := by
  simp only [doWaitLimit, h, hst, beq_self_eq_true, if_true]

/-- The count of busy time leaves the courier's STATE as it stood. -/
theorem countBusy_eq (d : Dev) (c : Nat) (x : Courier) :
    d.countBusy c x =
      if d.g pCRR (CRR_CSTATE_STATE c) = 2 then
        (d.add pCRR (CRR_BUSY_US_COUNT c) ((d.now - x.since) / 1000)).add pCRR (CRR_WAIT_US_COUNT c) ((d.now - x.waitAt) / 1000)
      else d.add pCRR (CRR_BUSY_US_COUNT c) ((d.now - x.since) / 1000) := by
  have hstate : (d.add pCRR (CRR_BUSY_US_COUNT c) ((d.now - x.since) / 1000)).g pCRR (CRR_CSTATE_STATE c) = d.g pCRR (CRR_CSTATE_STATE c) :=
    g_p_same d _ _ _ _ (by simp only [Fld.bit, CRR_CSTATE_STATE, CRR_BUSY_US_COUNT]; omega)
  simp only [countBusy, hstate, beq_iff_eq]
  rfl

end

end Dev

/-! A SUBMIT as a command of the main domain: the PF's list is 16, a VF's its partition's. -/

theorem exec_submit_pf {d e : Dev} (q : List Instr) (h : d.HubPage pDSP) (he : d.submitList .pf 16 = e) :
    exec (.submit .pf) ⟨d, q⟩ = .next ⟨e.finish, q⟩ :=
  (exec_submit ..).trans (main_eq q h.isActive ((Dev.doSubmit_reached (fn := .pf) rfl h.reached h.linked).trans he))

theorem exec_submit_vf {d e : Dev} (q : List Instr) {i : Fin 16} (hact : d.active = true) (hreach : d.reach (.vf i) (pPTN i) = .yes)
    (he : d.submitList (.vf i) i = e) : exec (.submit (.vf i)) ⟨d, q⟩ = .next ⟨e.finish, q⟩ :=
  (exec_submit ..).trans
    (main_eq q hact ((Dev.doSubmit_reached (fn := .vf i) (Dev.submitPage_partition i) hreach (d.linked_partition i)).trans he))

/-- Settles O50: a SUBMIT is judged or held by its list, a courier acts by what it has, and an item ends by its STATE. -/
theorem couriersTakeAndEndItems : Obligations.CouriersTakeAndEndItems := by
  refine ⟨?room, ?full, ?plain, ?behind, ?unreached, ?vfRoom, ?vfUnreached, ?expires, ?prefetched, ?idle, ?starts, ?prefetches, ?ends, ?free,
    ?limit, ?busy, ?clear⟩
  case room =>
    exact fun d q hpage hnone hroom => exec_submit_pf q hpage (Dev.submitList_placed hnone (Dev.mustHold_room hroom))
  case full =>
    exact fun d q hpage hnone hfull hcompat hgood =>
      exec_submit_pf q hpage (Dev.submitList_held hnone (Dev.mustHold_full rfl hfull hcompat hgood))
  case plain =>
    exact fun d q hpage hnone hplain => exec_submit_pf q hpage (Dev.submitList_placed hnone (Dev.mustHold_plain hplain))
  case behind => exact fun d q hpage hheld => exec_submit_pf q hpage (Dev.submitList_behind hheld)
  case unreached =>
    exact fun d q hact hreach => (exec_submit ..).trans (main_eq q hact (Dev.doSubmit_unreached (fn := .pf) rfl hreach))
  case vfRoom =>
    intro d q i hact hreach hnone hroom
    rw [← Dev.stagedItem_partition]
    exact exec_submit_vf q hact hreach (Dev.submitList_placed hnone (Dev.mustHold_room hroom))
  case vfUnreached =>
    intro d q i hact hreach
    rw [← Dev.submitAt_partition]
    exact (exec_submit ..).trans (main_eq q hact (Dev.doSubmit_unreached (fn := .vf i) (Dev.submitPage_partition i) hreach))
  case expires => exact fun d q l h hact hheld => (exec_submitHoldExpire ..).trans (main_eq q hact (Dev.doSubmitExpire_held hheld))
  case prefetched =>
    exact fun d q c data w hact hitem hslot => (exec_courierDispatch ..).trans (main_eq q hact (Dev.doDispatch_prefetched data hitem hslot))
  case idle =>
    exact fun d q c data hact hitem hslot hnext => (exec_courierDispatch ..).trans (main_eq q hact (Dev.doDispatch_idle data hitem hslot hnext))
  case starts =>
    exact fun d q c data w f hact hitem hslot hnext =>
      (exec_courierDispatch ..).trans (main_eq q hact (Dev.doDispatch_starts data hitem hslot hnext))
  case prefetches =>
    exact fun d q c data v w f hact hitem hslot hnext =>
      (exec_courierDispatch ..).trans (main_eq q hact (Dev.doDispatch_prefetches data hitem hslot hnext))
  case ends =>
    exact fun d q c w hact hitem hst => (exec_workItemComplete ..).trans (main_eq q hact (Dev.doItemComplete_executing hitem hst))
  case free => exact fun d q c hact hitem => (exec_workItemComplete ..).trans (main_eq q hact (Dev.doItemComplete_free hitem))
  case limit =>
    exact fun d q c w hact hitem hst => (exec_courierWaitLimit ..).trans (main_eq q hact (Dev.doWaitLimit_waiting hitem hst))
  case busy => exact Dev.countBusy_eq
  case clear => exact fun d q hd => (exec_dspClr ..).trans (main_full q _ hd)

end Sys2Proof.Machine

namespace Sys2Proof.Machine

/-! A step leaves no event on the bus and adds no command to the queue (R402). -/

theorem Settled.of_settle {s : State} (d : Dev) (h : ∀ c ∈ s.pending, c.wellFormed = true) : (s.settle d).Settled :=
  ⟨bus_settle s d, h⟩

/-- Settles O3: a step settles some effect on the device, with the rest of the queue as it was. -/
theorem settledStateIsKept : Obligations.SettledStateIsKept := by
  rintro ⟨d, pending⟩ t hstep ⟨-, hwf⟩
  cases pending with
  | nil =>
    cases (step_nil d).symm.trans hstep
    exact Settled.of_settle (s := ⟨d, []⟩) _ hwf
  | cons c rest =>
    rw [step_cons] at hstep
    obtain ⟨e, he⟩ := exec_settles c ⟨d, rest⟩
    cases he.symm.trans hstep
    exact Settled.of_settle e fun x hx => hwf x (List.mem_cons_of_mem c hx)

end Sys2Proof.Machine

namespace Sys2Proof.Machine

/-! The trigger sequencer and the trigger pins (R312, R315, R316, R318, R319). -/

section
variable (s : State) (j : Fin 8)

theorem exec_arm : exec .arm s = main s fun d => if d.full then d.doArm else d := rfl
theorem exec_disarm : exec .disarm s = main s fun d => if d.full then d.doDisarm else d := rfl
theorem exec_triggerLevelTimeout : exec .triggerLevelTimeout s = main s fun d => d.doTriggerLevelTimeout := rfl
theorem exec_trigPinEdge (rising : Bool) : exec (.trigPinEdge j rising) s = main s fun d => d.doTrigPinEdge j rising := rfl
theorem exec_pinPulseEnd : exec (.pinPulseEnd j) s = main s fun d => d.doPinPulseEnd j := rfl

end

namespace Dev

section
variable {d : Dev}

theorem doArm_free (h : 16 ≤ d.g pTRG TRG_SEQ_CTRL_OWNER ∨ d.ptnBusy (d.g pTRG TRG_SEQ_CTRL_OWNER) = false) :
    d.doArm = ((d.on pTRG TRG_SEQ_STATUS_ARMED).p pTRG TRG_SEQ_STATUS_LEVEL 0).p pTRG TRG_SEQ_STATUS_COUNT 0 :=
  if_neg (by simpa only [Bool.and_eq_true, decide_eq_true_eq, not_and_or, Nat.not_lt, Bool.not_eq_true] using h)

theorem doArm_ownerBusy (hlt : d.g pTRG TRG_SEQ_CTRL_OWNER < 16) (hbusy : d.ptnBusy (d.g pTRG TRG_SEQ_CTRL_OWNER) = true) : d.doArm = d :=
  if_pos (by simp only [hlt, hbusy, decide_true, Bool.and_self])

theorem doTriggerLevelTimeout_armed (harmed : d.b pTRG TRG_SEQ_STATUS_ARMED = true)
    (htimed : d.g pTRG (TRG_LTIMEOUT_US (d.g pTRG TRG_SEQ_STATUS_LEVEL)) ≠ 0) :
    d.doTriggerLevelTimeout = (d.p pTRG TRG_SEQ_STATUS_LEVEL 0).p pTRG TRG_SEQ_STATUS_COUNT 0 :=
  if_pos (by simp only [harmed, htimed, ne_eq, not_false_eq_true, decide_true, Bool.and_self])

theorem doTriggerLevelTimeout_disarmed (harmed : d.b pTRG TRG_SEQ_STATUS_ARMED = false) : d.doTriggerLevelTimeout = d :=
  if_neg (by simp [harmed])

/-- An edge reaches the comparators where the pin is an input (R312, R318). -/
theorem doTrigPinEdge_input {j : Nat} (rising : Bool) (hin : d.b pTRG (TRG_PIN_OUT j) = false) :
    d.doTrigPinEdge j rising =
      let lv := if rising then d.trg.pinIn ||| 1 <<< j else d.trg.pinIn &&& (255 ^^^ 1 <<< j)
      (({ d with trg := { d.trg with pinIn := lv } } : Dev).p pTRG TRG_STATUS_PIN_IN lv).offer 6
        (fun x => bitsAt x 0 3 == j && (bitsAt x 3 2 == 3 || bitsAt x 3 2 == (if rising then 1 else 2))) 1 :=
  if_neg (Bool.eq_false_iff.1 hin)

end

end Dev

/-- Settles O51: what decides each command is the sequencer's owner, its armed level, or the pin's direction and pulse. -/
theorem triggerCommandsTakeEffect : Obligations.TriggerCommandsTakeEffect := by
  refine ⟨?arm, ?armBusy, ?disarm, ?timeout, ?timeoutDisarmed, ?edgeOut, ?edgeIn, ?pulseEnd, ?pulseNone⟩
  case arm => exact fun d q hd hfree => (exec_arm ..).trans (main_full_eq q hd (Dev.doArm_free hfree))
  case armBusy => exact fun d q hd hlt hbusy => (exec_arm ..).trans (main_full_eq q hd (Dev.doArm_ownerBusy hlt hbusy))
  case disarm => exact fun d q hd => (exec_disarm ..).trans (main_full q _ hd)
  case timeout =>
    exact fun d q hact harmed htimed => (exec_triggerLevelTimeout ..).trans (main_eq q hact (Dev.doTriggerLevelTimeout_armed harmed htimed))
  case timeoutDisarmed =>
    exact fun d q hact harmed => (exec_triggerLevelTimeout ..).trans (main_eq q hact (Dev.doTriggerLevelTimeout_disarmed harmed))
  case edgeOut => exact fun d q j e hact hout => (exec_trigPinEdge ..).trans (main_eq q hact (if_pos hout))
  case edgeIn =>
    rintro d q j e _ hact hin rfl
    exact (exec_trigPinEdge ..).trans (main_eq q hact (Dev.doTrigPinEdge_input e hin))
  case pulseEnd => exact fun d q j hact hpulse => (exec_pinPulseEnd ..).trans (main_eq q hact (if_pos hpulse))
  case pulseNone => exact fun d q j hact hpulse => (exec_pinPulseEnd ..).trans (main_eq q hact (if_neg (Bool.eq_false_iff.1 hpulse)))

end Sys2Proof.Machine

namespace Sys2Proof.Machine

/-! Capture contexts and their channels (R320, R325 to R329, R336). -/

section
variable (c : Fin 17) (ch : Fin 64) (s : State)

theorem exec_captureArm : exec (.captureArm c) s = main s fun d => if d.full then d.doCaptureArm c else d := rfl
theorem exec_captureDisarm : exec (.captureDisarm c) s = main s fun d => if d.full then d.doCaptureDisarm c else d := rfl
theorem exec_captureBlockWrite (addr : Nat) : exec (.captureBlockWrite ch addr) s = main s fun d => d.doCaptureBlockWrite ch addr := rfl
theorem exec_postLimitExpire : exec (.postLimitExpire ch) s = main s fun d => d.doPostLimitExpire ch := rfl
theorem exec_rearmExpire : exec (.rearmExpire c) s = main s fun d => d.doRearmExpire c := rfl
theorem exec_channelOwnerWrite (o : Fin 32) :
    exec (.channelOwnerWrite ch o) s = main s fun d => if d.full then d.doChannelOwnerWrite ch o else d := rfl
theorem exec_zeroingComplete : exec (.zeroingComplete ch) s = main s fun d => d.doZeroingComplete ch := rfl
theorem exec_pinwheelConfigWrite (size : Bool) (v : W64) :
    exec (.pinwheelConfigWrite size v) s = main s fun d => if d.full then d.doPinwheelConfigWrite size v else d := rfl

end

namespace Dev

/-- A context whose checks all pass: its charge joins the slice's, its counts are cleared, and a capture begins (R325, R329). -/
def armContext (d : Dev) (c : Nat) : Dev :=
  let f := (d.p pCAP (CAP_CSTATUS_REASON c) 0).p pCAP CAP_SLICE_USED_MBS (d.g pCAP CAP_SLICE_USED_MBS + d.capSum c)
  let f := ((f.p pCAP (CAP_MISSED_POST c) 0).p pCAP (CAP_MISSED_REARM c) 0).p pCAP (CAP_CSTATUS_CAPTURES c) 0
  let f : Dev := { f with cap := { f.cap with capNo := SMap.set 0 f.cap.capNo c 0, charge := SMap.set 0 f.cap.charge c (d.capSum c) } }
  (f.each (f.capChans c) fun e ch => e.modChan ch fun x => { x with lost := 0 }).beginCapture c

section
variable {d : Dev} {c : Nat}

/-! GO: the first check that fails gives its reason (R325). -/

theorem doCaptureArm_notIdle (hst : d.g pCAP (CAP_CSTATUS_STATE c) ≠ 0) : d.doCaptureArm c = d.p pCAP (CAP_CSTATUS_REASON c) 5 := if_pos hst

section
variable (hst : d.g pCAP (CAP_CSTATUS_STATE c) = 0)
include hst

theorem doCaptureArm_noChannel (hchans : d.capChans c = []) : d.doCaptureArm c = d.p pCAP (CAP_CSTATUS_REASON c) 4 :=
  (if_neg (not_not.2 hst)).trans (if_pos (List.isEmpty_iff.2 hchans))

variable (hchans : d.capChans c ≠ [])
include hchans

theorem doCaptureArm_region (hbad : (d.capChans c).any (fun ch => !d.capRegionOk c ch) = true) :
    d.doCaptureArm c = d.p pCAP (CAP_CSTATUS_REASON c) 3 :=
  (if_neg (not_not.2 hst)).trans ((if_neg (mt List.isEmpty_iff.1 hchans)).trans (if_pos hbad))

/-- With legal regions only the two charges are left to check. -/
theorem doCaptureArm_legal (hok : (d.capChans c).all (fun ch => d.capRegionOk c ch) = true) :
    d.doCaptureArm c =
      if c ≠ 16 ∧ d.g pCAP (CAP_CHARGE_ALLOW c) * 1000 < d.capSum c then d.p pCAP (CAP_CSTATUS_REASON c) 2
      else if 2000000 < d.capSum c + d.g pCAP CAP_SLICE_USED_MBS then d.p pCAP (CAP_CSTATUS_REASON c) 1 else d.armContext c := by
  have hbad : ¬ (d.capChans c).any (fun ch => !d.capRegionOk c ch) = true := by simpa using hok
  refine (if_neg (not_not.2 hst)).trans ((if_neg (mt List.isEmpty_iff.1 hchans)).trans ((if_neg hbad).trans ?_))
  simp only [Bool.and_eq_true, decide_eq_true_eq]
  rfl

end

/-! DISARM (R329). -/

theorem doCaptureDisarm_idle (hst : d.g pCAP (CAP_CSTATUS_STATE c) = 0) : d.doCaptureDisarm c = d := if_pos (beq_iff_eq.2 hst)

theorem doCaptureDisarm_rearming (hst : d.g pCAP (CAP_CSTATUS_STATE c) = 3) : d.doCaptureDisarm c = d.capIdle c := by
  simp only [doCaptureDisarm, hst]
  rfl

/-- The records of a capture in progress end with an entry whose flag says whether the trigger has come. -/
theorem doCaptureDisarm_ends {st flag : Nat} (hst : d.g pCAP (CAP_CSTATUS_STATE c) = st) (hflag : st = 1 ∧ flag = 4 ∨ st = 2 ∧ flag = 2) :
    d.doCaptureDisarm c =
      (d.each (d.capChans c) fun e ch => if (e.chanAt ch).phase == 3 then e else (e.cutBlock ch).writeEntry c ch flag).capIdle c := by
  simp only [doCaptureDisarm, hst]
  obtain ⟨rfl, rfl⟩ | ⟨rfl, rfl⟩ := hflag <;> rfl

/-! A channel's events (R327, R328, R336). -/

theorem doCaptureBlockWrite_none {ch : Nat} (addr : Nat) (h : (d.chanAt ch).ready = []) : d.doCaptureBlockWrite ch addr = d := by
  simp only [doCaptureBlockWrite, h]

section
variable {ch : Nat} {b : CapBlk} {rest : List CapBlk} (h : (d.chanAt ch).ready = b :: rest)
include h

theorem doCaptureBlockWrite_other {addr : Nat} (haddr : b.addr ≠ addr) : d.doCaptureBlockWrite ch addr = d := by
  simp only [doCaptureBlockWrite, h]
  exact if_pos haddr

/-- The oldest block goes out; the last of those after the trigger completes the channel. -/
theorem doCaptureBlockWrite_out :
    d.doCaptureBlockWrite ch b.addr =
      let f := d.setChan ch { d.chanAt ch with ready := rest }
      let out : Dev := { f with cap := { f.cap with blocksOut := f.cap.blocksOut ++ [b] } }
      if rest = [] ∧ (d.chanAt ch).phase = 2 ∧ f.capPost (f.g pCAP (CAP_CH_CFG_OWNER ch)) ch ≤ (d.chanAt ch).post then out.chanComplete ch
      else out := by
  simp only [doCaptureBlockWrite, h]
  refine (if_neg (not_not.2 rfl)).trans ?_
  simp only [Bool.and_eq_true, decide_eq_true_eq, List.isEmpty_iff, beq_iff_eq, and_assoc]
  rfl

end

theorem doPostLimitExpire_after {ch : Nat} (hphase : (d.chanAt ch).phase = 2)
    (hlimit : d.g pCAP (CAP_ARM_POST_LIMIT (d.g pCAP (CAP_CH_CFG_OWNER ch))) ≠ 0) : d.doPostLimitExpire ch = d.chanComplete ch :=
  if_pos (by simp [hphase, hlimit])

theorem doPostLimitExpire_otherPhase {ch : Nat} (hphase : (d.chanAt ch).phase ≠ 2) : d.doPostLimitExpire ch = d := if_neg (by simp [hphase])

/-! The Pinwheel moves while every context is IDLE (R320). -/

theorem doPinwheelConfigWrite_base (v : W64) (hidle : ∀ c, c < 17 → d.g pCAP (CAP_CSTATUS_STATE c) = 0)
    (hok : d.pinwheelOk (v.toNat / 4096 * 4096) (d.g pCAP CAP_PW_SIZE_PAGES * 4096) = true) :
    d.doPinwheelConfigWrite false v =
      (d.p pCAP CAP_PW_BASE_ADDR (v.toNat / 4096 * 4096)).p pCAP CAP_PW_SIZE_PAGES (d.g pCAP CAP_PW_SIZE_PAGES) := by
  have hnone : ¬ (List.range 17).any (fun c => d.g pCAP (CAP_CSTATUS_STATE c) ≠ 0) = true := by simpa using hidle
  exact (if_neg hnone).trans (if_pos hok)

theorem doPinwheelConfigWrite_armed (size : Bool) (v : W64) (hlt : c < 17) (hst : d.g pCAP (CAP_CSTATUS_STATE c) ≠ 0) :
    d.doPinwheelConfigWrite size v = d :=
  if_pos (List.any_eq_true.2 ⟨c, List.mem_range.2 hlt, decide_eq_true hst⟩)

end

end Dev

/-- Settles O52: a command meets the first check that its context or channel fails, or does what the state it finds calls for. -/
theorem captureCommandsTakeEffect : Obligations.CaptureCommandsTakeEffect := by
  refine ⟨?notIdle, ?noChannel, ?slice, ?begins, ?disarmIdle, ?region, ?charge, ?disarmBefore, ?disarmAfter, ?disarmRearming, ?noBlock,
    ?otherBlock, ?block, ?lastBlock, ?limit, ?limitOther, ?rearm, ?rearmOther, ?owner, ?zeroed, ?notZeroing, ?pinwheel, ?pinwheelArmed⟩
  case notIdle => exact fun d q c hd hst => (exec_captureArm ..).trans (main_full_eq q hd (Dev.doCaptureArm_notIdle hst))
  case noChannel =>
    exact fun d q c hd hst hchans => (exec_captureArm ..).trans (main_full_eq q hd (Dev.doCaptureArm_noChannel hst hchans))
  case slice =>
    intro d q c hd hst hchans hok hcharge hslice
    have hfits := not_and_or.2 (hcharge.imp (fun h => not_not.2 (congrArg Fin.val h)) Nat.not_lt.2)
    exact (exec_captureArm ..).trans
      (main_full_eq q hd ((Dev.doCaptureArm_legal hst hchans hok).trans ((if_neg hfits).trans (if_pos hslice))))
  case begins =>
    intro d q c hd hst hchans hok hcharge hslice
    have hfits := not_and_or.2 (hcharge.imp (fun h => not_not.2 (congrArg Fin.val h)) Nat.not_lt.2)
    exact (exec_captureArm ..).trans
      (main_full_eq q hd ((Dev.doCaptureArm_legal hst hchans hok).trans ((if_neg hfits).trans (if_neg (Nat.not_lt.2 hslice)))))
  case disarmIdle => exact fun d q c hd hst => (exec_captureDisarm ..).trans (main_full_eq q hd (Dev.doCaptureDisarm_idle hst))
  case region =>
    exact fun d q c hd hst hchans hbad => (exec_captureArm ..).trans (main_full_eq q hd (Dev.doCaptureArm_region hst hchans hbad))
  case charge =>
    exact fun d q c hd hst hchans hok hc hover =>
      (exec_captureArm ..).trans
        (main_full_eq q hd ((Dev.doCaptureArm_legal hst hchans hok).trans (if_pos ⟨fun h => hc (Fin.ext h), hover⟩)))
  case disarmBefore =>
    exact fun d q c hd hst => (exec_captureDisarm ..).trans (main_full_eq q hd (Dev.doCaptureDisarm_ends hst (.inl ⟨rfl, rfl⟩)))
  case disarmAfter =>
    exact fun d q c hd hst => (exec_captureDisarm ..).trans (main_full_eq q hd (Dev.doCaptureDisarm_ends hst (.inr ⟨rfl, rfl⟩)))
  case disarmRearming => exact fun d q c hd hst => (exec_captureDisarm ..).trans (main_full_eq q hd (Dev.doCaptureDisarm_rearming hst))
  case noBlock => exact fun d q ch addr hact h => (exec_captureBlockWrite ..).trans (main_eq q hact (Dev.doCaptureBlockWrite_none addr h))
  case otherBlock =>
    exact fun d q ch addr b rest hact h haddr => (exec_captureBlockWrite ..).trans (main_eq q hact (Dev.doCaptureBlockWrite_other h haddr))
  case block =>
    rintro d q ch b rest _ hact h hmore rfl
    exact (exec_captureBlockWrite ..).trans
      (main_eq q hact ((Dev.doCaptureBlockWrite_out h).trans (if_neg fun hlast => hmore.elim (· hlast.1) (· hlast.2.1))))
  case lastBlock =>
    rintro d q ch b _ hact h hphase rfl hpost
    exact (exec_captureBlockWrite ..).trans (main_eq q hact ((Dev.doCaptureBlockWrite_out h).trans (if_pos ⟨rfl, hphase, hpost⟩)))
  case limit =>
    exact fun d q ch hact hphase hlimit => (exec_postLimitExpire ..).trans (main_eq q hact (Dev.doPostLimitExpire_after hphase hlimit))
  case limitOther => exact fun d q ch hact hphase => (exec_postLimitExpire ..).trans (main_eq q hact (Dev.doPostLimitExpire_otherPhase hphase))
  case rearm => exact fun d q c hact hst => (exec_rearmExpire ..).trans (main_eq q hact (if_pos (beq_iff_eq.2 hst)))
  case rearmOther => exact fun d q c hact hst => (exec_rearmExpire ..).trans (main_eq q hact (if_neg (mt beq_iff_eq.1 hst)))
  case owner => exact fun d q ch o hd => (exec_channelOwnerWrite ..).trans (main_full q _ hd)
  case zeroed =>
    rintro d q ch _ _ hact rfl hz rfl
    exact (exec_zeroingComplete ..).trans (main_eq q hact (if_pos hz))
  case notZeroing => exact fun d q ch hact hz => (exec_zeroingComplete ..).trans (main_eq q hact (if_neg (Bool.eq_false_iff.1 hz)))
  case pinwheel =>
    exact fun d q v hd hidle hok => (exec_pinwheelConfigWrite ..).trans (main_full_eq q hd (Dev.doPinwheelConfigWrite_base v hidle hok))
  case pinwheelArmed =>
    exact fun d q v c hd hst => (exec_pinwheelConfigWrite ..).trans (main_full_eq q hd (Dev.doPinwheelConfigWrite_armed true v c.isLt hst))

end Sys2Proof.Machine

namespace Sys2Proof.Machine

/-! Trace streams and the key roll (R339 to R347, R369 to R375). -/

section
variable (t : Fin 17) (s : State)

theorem exec_traceStreamEnable : exec (.traceStreamEnable t) s = main s fun d => if d.full then d.doTraceStreamEnable t else d := rfl
theorem exec_traceCounterLimit : exec (.traceCounterLimit t) s = main s fun d => d.doTraceCounterLimit t := rfl
theorem exec_mark (v : BitVec 16) : exec (.mark t v) s = main s fun d => if d.full then d.doMark t v else d := rfl
theorem exec_traceBlockTimeout : exec (.traceBlockTimeout t) s = main s fun d => d.doTraceBlockTimeout t := rfl
theorem exec_traceSyncTimer : exec (.traceSyncTimer t) s = main s fun d => d.doTraceSyncTimer t := rfl
theorem exec_roll : exec .roll s = main s fun d => if d.full then d.doRoll else d := rfl
theorem exec_keyRollStart : exec .keyRollStart s = main s fun d => d.doKeyRollStart := rfl
theorem exec_keyRollSector : exec .keyRollSector s = main s fun d => d.doKeyRollSector := rfl
theorem exec_imeClrCounts : exec .imeClrCounts s = main s fun d => if d.full then d.doImeClrCounts else d := rfl

end

namespace Dev

section
variable {d : Dev} {t : Nat}

theorem doTraceCounterLimit_off (hen : d.strmEn t = false) : d.doTraceCounterLimit t = d := if_neg (by simp [hen])

theorem doTraceCounterLimit_time (hen : d.strmEn t = true) (hunit : d.g pTRC (TRC_S_CFG_CNT_UNIT t) = 1) :
    d.doTraceCounterLimit t =
      d.p pTRC (TRC_S_COUNT_COUNT t) (Nat.max (d.g pTRC (TRC_S_COUNT_COUNT t)) (d.g pTRC (TRC_S_CNT_LIMIT_LIMIT t))) :=
  if_pos (by simp [hen, hunit])

theorem doTraceSyncTimer_on (hon : d.strmOn t = true) (hexp : d.g pTRC (TRC_S_CFG_SYNC_EXP t) ≠ 0) : d.doTraceSyncTimer t = d.addSync t :=
  if_pos (by simp [hon, hexp])

theorem doTraceSyncTimer_off (hon : d.strmOn t = false) : d.doTraceSyncTimer t = d := if_neg (by simp [hon])

/-! KEY_ROLL_SECTOR acts while a roll runs, and then pauses, converts the next sector, or ends the roll (R369, R371, R375). -/

theorem doKeyRollSector_none (hst : d.g pKRE KRE_STATUS_STATE < 2) : d.doKeyRollSector = d := if_pos hst

section
variable (hst : 2 ≤ d.g pKRE KRE_STATUS_STATE)
include hst

theorem doKeyRollSector_paused (hrate : d.g pKRE KRE_CFG_RATE = 0) : d.doKeyRollSector = d.pauseRoll false :=
  (if_neg (Nat.not_lt.2 hst)).trans (if_pos (beq_iff_eq.2 hrate))

variable (hrate : d.g pKRE KRE_CFG_RATE ≠ 0)
include hrate

theorem doKeyRollSector_rolls :
    d.doKeyRollSector =
      match d.nextSector with
      | none => d.endRoll
      | some sec =>
        if d.snapPinned sec then d.pauseRoll true
        else ((d.p pKRE KRE_STATUS_STATE 2).p pKRE KRE_STATUS_PAUSED_SNAP 0).convertSector sec :=
  (if_neg (Nat.not_lt.2 hst)).trans (if_neg (mt beq_iff_eq.1 hrate))

theorem doKeyRollSector_ends (hnext : d.nextSector = none) : d.doKeyRollSector = d.endRoll := by
  rw [doKeyRollSector_rolls hst hrate, hnext]

variable {sec : Nat} (hnext : d.nextSector = some sec)
include hnext

theorem doKeyRollSector_pinned (hpin : d.snapPinned sec = true) : d.doKeyRollSector = d.pauseRoll true := by
  rw [doKeyRollSector_rolls hst hrate, hnext]
  exact if_pos hpin

theorem doKeyRollSector_converts (hpin : d.snapPinned sec = false) :
    d.doKeyRollSector = ((d.p pKRE KRE_STATUS_STATE 2).p pKRE KRE_STATUS_PAUSED_SNAP 0).convertSector sec := by
  rw [doKeyRollSector_rolls hst hrate, hnext]
  exact if_neg (Bool.eq_false_iff.1 hpin)

end

end

end Dev

/-- Settles O53: a stream's command acts by whether the stream is enabled or on, and the key roll's by the roll's state, rate and next sector. -/
theorem traceAndKeyRollCommandsTakeEffect : Obligations.TraceAndKeyRollCommandsTakeEffect := by
  refine ⟨?enable, ?limitOff, ?limit, ?mark, ?timeout, ?sync, ?syncOff, ?roll, ?start, ?noRoll, ?noRate, ?converts, ?pinned, ?ends, ?clear⟩
  case enable => exact fun d q t hd => (exec_traceStreamEnable ..).trans (main_full q _ hd)
  case limitOff => exact fun d q t hact hen => (exec_traceCounterLimit ..).trans (main_eq q hact (Dev.doTraceCounterLimit_off hen))
  case limit => exact fun d q t hact hen hunit => (exec_traceCounterLimit ..).trans (main_eq q hact (Dev.doTraceCounterLimit_time hen hunit))
  case mark => exact fun d q t v hd => (exec_mark ..).trans (main_full q _ hd)
  case timeout => exact fun d q t hact => (exec_traceBlockTimeout ..).trans (main_active d q _ hact)
  case sync => exact fun d q t hact hon hexp => (exec_traceSyncTimer ..).trans (main_eq q hact (Dev.doTraceSyncTimer_on hon hexp))
  case syncOff => exact fun d q t hact hon => (exec_traceSyncTimer ..).trans (main_eq q hact (Dev.doTraceSyncTimer_off hon))
  case roll => exact fun d q hd => (exec_roll ..).trans (main_full q _ hd)
  case start => exact fun d q hact => (exec_keyRollStart ..).trans (main_active d q _ hact)
  case noRoll => exact fun d q hact hst => (exec_keyRollSector ..).trans (main_eq q hact (Dev.doKeyRollSector_none hst))
  case noRate => exact fun d q hact hst hrate => (exec_keyRollSector ..).trans (main_eq q hact (Dev.doKeyRollSector_paused hst hrate))
  case converts =>
    exact fun d q sec hact hst hrate hnext hpin =>
      (exec_keyRollSector ..).trans (main_eq q hact (Dev.doKeyRollSector_converts hst hrate hnext hpin))
  case pinned =>
    exact fun d q sec hact hst hrate hnext hpin =>
      (exec_keyRollSector ..).trans (main_eq q hact (Dev.doKeyRollSector_pinned hst hrate hnext hpin))
  case ends => exact fun d q hact hst hrate hnext => (exec_keyRollSector ..).trans (main_eq q hact (Dev.doKeyRollSector_ends hst hrate hnext))
  case clear => exact fun d q hd => (exec_imeClrCounts ..).trans (main_full q _ hd)

end Sys2Proof.Machine

namespace Sys2Proof.Machine

/-! The power of clusters (R381 to R383, R450). -/

section
variable (n : Fin 64) (s : State)

theorem exec_clusterWake (ns : List (Fin 64)) : exec (.clusterWake ns) s = main s fun d => d.doClusterWake (ns.map (·.val)) := rfl
theorem exec_clusterIdleDelay (p : Fin 16) : exec (.clusterIdleDelay p) s = main s fun d => d.doIdleDelay p := rfl
theorem exec_clusterOffDelay : exec (.clusterOffDelay n) s = main s fun d => d.doOffDelay n := rfl
theorem exec_clusterPowerOn : exec (.clusterPowerOn n) s = main s fun d => d.doPowerOnCluster n := rfl

end

namespace Dev

section
variable {d : Dev} {n : Nat}

theorem doIdleDelay_still {i : Nat} (hst : d.seqState i = 0 ∨ d.seqState i = 2) (hdir : d.dirState i ≠ 0)
    (hload : d.b (pPTN i) PTN_LOAD_STATUS_BUSY = false) (hsnap : d.snapBusy i = false) :
    d.doIdleDelay i = d.each (d.clustersOf i) fun e n => if e.cluPower n == 0 then e.setPower n 1 else e :=
  if_pos (by simp [hst, hdir, hload, hsnap])

theorem doIdleDelay_noPartition {i : Nat} (hdir : d.dirState i = 0) : d.doIdleDelay i = d := if_neg (by simp [hdir])

theorem doOffDelay_owned (h : (d.ownerOf n).isSome = true) : d.doOffDelay n = d := if_pos (by simp [h])

theorem doOffDelay_joining (h : d.joining n = true) : d.doOffDelay n = d := if_pos (by simp [h])

/-- A cluster of no partition drains, and goes OFF where that leaves it FENCED (R270, R382). -/
theorem doOffDelay_free (hjoin : d.joining n = false) (hown : d.ownerOf n = none) (htest : d.testing n = false) (hon : d.cluPower n ≠ 2) :
    d.doOffDelay n =
      if ((d.drainNi n).doDrainComplete n).niState n = 2 then ((d.drainNi n).doDrainComplete n).setPower n 2
      else (d.drainNi n).doDrainComplete n := by
  rw [doOffDelay, if_neg (by simp [hjoin, hown, htest, hon])]
  simp only [beq_iff_eq]

/-! A cluster that is OFF comes back clear for the partition that has it, or is about to, and ON where that partition runs (R382). -/

section
variable {f : Dev} (hoff : d.cluPower n = 2) (h : (d.ownerOf n).isSome = true ∨ d.joining n = true)
    (hf : ((d.freshCluster n).setPower n 1).unfenceNi n = f)
include hoff h hf

theorem doPowerOnCluster_owned {i : Nat} (hown : f.ownerOf n = some i) : d.doPowerOnCluster n = f.iff (f.keepsOn i) fun e => e.wake n := by
  rw [doPowerOnCluster, if_pos (by simp [hoff, h]), hf]
  simp only [hown]

theorem doPowerOnCluster_unowned (hown : f.ownerOf n = none) : d.doPowerOnCluster n = f := by
  rw [doPowerOnCluster, if_pos (by simp [hoff, h]), hf]
  simp only [hown]

end

theorem doPowerOnCluster_free (hown : d.ownerOf n = none) (hjoin : d.joining n = false) : d.doPowerOnCluster n = d :=
  if_neg (by simp [hown, hjoin])

theorem doPowerOnCluster_on (hon : d.cluPower n ≠ 2) : d.doPowerOnCluster n = d := if_neg (by simp [hon])

end

end Dev

/-- Settles O56: whose the cluster is, or is about to be, and its present power decide what each command does. -/
theorem clusterPowerFollowsPartitions : Obligations.ClusterPowerFollowsPartitions := by
  refine ⟨?wake, ?idle, ?idleNone, ?offOwned, ?offJoining, ?off, ?backOwned, ?backJoining, ?backFree, ?backOn⟩
  case wake => exact fun d q ns hact => (exec_clusterWake ..).trans (main_active d q _ hact)
  case idle =>
    exact fun d q p hact hst hdir hload hsnap =>
      (exec_clusterIdleDelay ..).trans (main_eq q hact (Dev.doIdleDelay_still hst hdir hload hsnap))
  case idleNone => exact fun d q p hact hdir => (exec_clusterIdleDelay ..).trans (main_eq q hact (Dev.doIdleDelay_noPartition hdir))
  case offOwned => exact fun d q n hact h => (exec_clusterOffDelay ..).trans (main_eq q hact (Dev.doOffDelay_owned h))
  case offJoining => exact fun d q n hact h => (exec_clusterOffDelay ..).trans (main_eq q hact (Dev.doOffDelay_joining h))
  case off =>
    exact fun d q n hact hjoin hown htest hon hfenced =>
      (exec_clusterOffDelay ..).trans (main_eq q hact ((Dev.doOffDelay_free hjoin hown htest hon).trans (if_pos hfenced)))
  case backOwned | backJoining =>
    intro d q n hact hoff h
    have hback : (d.ownerOf n).isSome = true ∨ d.joining n = true := by simp only [h, true_or, or_true]
    obtain ⟨f, hf⟩ : ∃ f, ((d.freshCluster n).setPower n 1).unfenceNi n = f := ⟨_, rfl⟩
    rw [exec_clusterPowerOn, main_active d q _ hact, hf]
    cases hown : f.ownerOf n with
    | some i => simp only [Dev.doPowerOnCluster_owned hoff hback hf hown, hown]
    | none => simp only [Dev.doPowerOnCluster_unowned hoff hback hf hown, hown]
  case backFree =>
    exact fun d q n hact hown hjoin => (exec_clusterPowerOn ..).trans (main_eq q hact (Dev.doPowerOnCluster_free hown hjoin))
  case backOn => exact fun d q n hact hon => (exec_clusterPowerOn ..).trans (main_eq q hact (Dev.doPowerOnCluster_on hon))

end Sys2Proof.Machine

namespace Sys2Proof.Machine

/-! The Warden and the controlled stop (R384 to R386, R392, R393). -/

section
variable (s : State)

theorem exec_heartbeat (v : W32) : exec (.heartbeat v) s = main s fun d => d.doHeartbeat v.toNat := rfl
theorem exec_heartbeatTimeout : exec .heartbeatTimeout s = main s fun d => d.doHeartbeatTimeout := rfl
theorem exec_graceTimeout : exec .graceTimeout s = main s fun d => d.doGraceTimeout := rfl
theorem exec_overTemperature (x : Fin 5) (celsius : Byte) :
    exec (.overTemperature x celsius) s = main s fun d => d.doTemperature x celsius.toNat := rfl
theorem exec_railFault : exec .railFault s = main s fun d => d.controlledStop 3 := rfl
theorem exec_wardenStop : exec .wardenStop s = main s fun d => d.atPage pWDN fun d => d.controlledStop 5 := rfl
theorem exec_corePllLockLost : exec .corePllLockLost s = main s fun d => d.doPllLost := rfl
theorem exec_stopDrainTimeout : exec .stopDrainTimeout s = main s fun d => d.doStopDrain := rfl
theorem exec_stopComplete : exec .stopComplete s = main s fun d => d.doStopComplete := rfl

end

namespace Dev

section
variable {d : Dev} {v : Nat}

/-! A heartbeat is stored, and a new one ends GRACE (R392). -/

theorem doHeartbeat_stored (h : (d.p pWDN WDN_HEARTBEAT_COUNT v).wardenState ≠ 2) : d.doHeartbeat v = d.p pWDN WDN_HEARTBEAT_COUNT v :=
  if_neg (by simp [h])

theorem doHeartbeat_endsGrace (hnew : d.g pWDN WDN_HEARTBEAT_COUNT ≠ v) (h : (d.p pWDN WDN_HEARTBEAT_COUNT v).wardenState = 2) :
    d.doHeartbeat v = (((d.p pWDN WDN_HEARTBEAT_COUNT v).coresFrom 2 1).add pWDN WDN_STATUS_GRACE_COUNT 1).setWarden 1 :=
  if_pos (by simp [h, hnew])

/-! A temperature is stored where it was measured, and above 110 °C begins a stop (R392). -/

theorem doTemperature_quadrant_hot {q celsius : Nat} (hq : q < 4) (hhot : 110 < celsius) :
    d.doTemperature q celsius = (d.p pPMU (PMU_TEMP_Q q) celsius).controlledStop 2 := by
  rw [doTemperature, if_pos hq]
  exact if_pos hhot

theorem doTemperature_hub_cool {q celsius : Nat} (hq : ¬ q < 4) (hcool : celsius ≤ 110) :
    d.doTemperature q celsius = d.p pPMU PMU_TEMP_HUB_HUB celsius := by
  rw [doTemperature, if_neg hq]
  exact if_neg (Nat.not_lt.2 hcool)

/-- A controlled stop ends in a reset into DOZE, with the Warden STOPPED unless PERST# came during it, and may wake the host (R390, R393). -/
theorem doStopComplete_ends (hstop : d.pwr.stopping = true) :
    d.doStopComplete =
      let f := (d.perst 3 .doze).p pWDN WDN_STATUS_STATE (if d.pwr.afterStop then 4 else 0)
      let h : Dev := { f with pwr := { f.pwr with afterStop := d.pwr.afterStop } }
      if h.wakeEnabled 9 then h.latchWake 9 else h :=
  if_neg (by simp [hstop])

theorem doStopComplete_noStop (hstop : d.pwr.stopping = false) : d.doStopComplete = d := if_pos (by simp [hstop])

end

end Dev

/-- Settles O57: the Warden's state decides what a heartbeat and its absence do, and whether a stop runs decides the rest. -/
theorem wardenWatchesAndStops : Obligations.WardenWatchesAndStops := by
  refine ⟨?heartbeat, ?endsGrace, ?missing, ?missingOther, ?graceEnds, ?graceOther, ?hot, ?cool, ?rail, ?stop, ?lock, ?drain, ?drainNone,
    ?complete, ?completeNone⟩
  case heartbeat => exact fun d q v hact h => (exec_heartbeat ..).trans (main_eq q hact (Dev.doHeartbeat_stored h))
  case endsGrace => exact fun d q v hact hnew h => (exec_heartbeat ..).trans (main_eq q hact (Dev.doHeartbeat_endsGrace hnew h))
  case missing => exact fun d q hact h => (exec_heartbeatTimeout ..).trans (main_eq q hact (if_pos (beq_iff_eq.2 h)))
  case missingOther => exact fun d q hact h => (exec_heartbeatTimeout ..).trans (main_eq q hact (if_neg (mt beq_iff_eq.1 h)))
  case graceEnds => exact fun d q hact h => (exec_graceTimeout ..).trans (main_eq q hact (if_pos (beq_iff_eq.2 h)))
  case graceOther => exact fun d q hact h => (exec_graceTimeout ..).trans (main_eq q hact (if_neg (mt beq_iff_eq.1 h)))
  case hot =>
    exact fun d q x celsius hact hhot hx => (exec_overTemperature ..).trans (main_eq q hact (Dev.doTemperature_quadrant_hot hx hhot))
  case cool =>
    exact fun d q x celsius hact hcool hx => (exec_overTemperature ..).trans (main_eq q hact (Dev.doTemperature_hub_cool (by omega) hcool))
  case rail => exact fun d q hact => (exec_railFault ..).trans (main_active d q _ hact)
  case stop => exact fun d q hact hr => (exec_wardenStop ..).trans (main_atPage_reached q _ hact hr)
  case lock => exact fun d q hact => (exec_corePllLockLost ..).trans (main_active d q _ hact)
  case drain => exact fun d q hact h => (exec_stopDrainTimeout ..).trans (main_eq q hact (if_pos h))
  case drainNone => exact fun d q hact h => (exec_stopDrainTimeout ..).trans (main_eq q hact (if_neg (Bool.eq_false_iff.1 h)))
  case complete =>
    rintro d q _ hact hstop rfl
    exact (exec_stopComplete ..).trans (main_eq q hact (Dev.doStopComplete_ends hstop))
  case completeNone => exact fun d q hact h => (exec_stopComplete ..).trans (main_eq q hact (Dev.doStopComplete_noStop h))

end Sys2Proof.Machine

namespace Sys2Proof.Machine

/-! The log, the counters, the arbiter, MBIST, MSI-X and the scan port (R406, R410 to R417, R428, R440). -/

/-- The scan port takes an instruction where it answers (R440). -/
def Dev.selectScan (d : Dev) (on : Bool) : Dev :=
  if d.tapAnswers then { d with pwr := { d.pwr with tap := { d.pwr.tap with inst := if on then .extest else .bypass } } } else d

section
variable (n : Fin 64) (s : State)

theorem exec_logClear : exec .logClear s = main s fun d => d.doLogClear := rfl
theorem exec_lastGaspClear : exec .lastGaspClear s = main s fun d => d.doLastGaspClear := rfl
theorem exec_clearAll : exec .clearAll s = main s fun d => if d.full then d.doClearAll else d := rfl
theorem exec_counterSaturate (base : Nat) : exec (.counterSaturate base n) s = main s fun d => d.doCounterSaturate base n := rfl
theorem exec_mntRelease (code : Fin 8) (owner : Fin 17) :
    exec (.mntRelease code owner n) s = main s fun d => d.doRelease (Dev.mntId code owner n) := rfl
theorem exec_mbistGo : exec (.mbistGo n) s = main s fun d => d.atPage pMNT fun d => d.doMbistGo n := rfl
theorem exec_mbistComplete (failed : Option (BitVec 64)) :
    exec (.mbistComplete n failed) s = main s fun d => d.doMbistComplete n (failed.map (·.toNat)) := rfl
theorem exec_msixUnmask (fn : Fn) (v : Fin 32) :
    exec (.msixUnmask fn v) s = main s fun d => if d.placeReach fn ⟨pMSIX fn, 0, none, true⟩ == .yes then d.doUnmask fn v else d := rfl
theorem exec_boundaryScanExtest (on : Bool) : exec (.boundaryScanExtest on) s = fin s fun d => d.selectScan on := rfl

end

namespace Dev

section
variable {d : Dev}

/-! LOG.CTRL.CLEAR (R406): the ring is emptied up to an entry that stays bad, unless AON_ONLY is set. -/

theorem doLogClear_aonOnly (h : d.b pLOG LOG_STATUS_AON_ONLY = true) :
    d.doLogClear = (d.p pLOG LOG_STATUS_HEAD 0).p pLOG LOG_STATUS_WRAPPED 0 := by
  rw [doLogClear, if_pos h]

section
variable {f : Dev} (h : d.b pLOG LOG_STATUS_AON_ONLY = false)
include h

theorem doLogClear_all (hz : d.zeroEntries (d.log.flips.map (·.1 / 4)).eraseDups = (f, none)) :
    d.doLogClear =
      (({ f with log := { f.log with ring := [], newest := none } } : Dev).p pLOG LOG_STATUS_HEAD 0).p pLOG LOG_STATUS_WRAPPED 0 := by
  simp only [doLogClear, h, hz, Bool.false_eq_true, if_false, List.filter_false]

theorem doLogClear_bad {i : Nat} (hz : d.zeroEntries (d.log.flips.map (·.1 / 4)).eraseDups = (f, some i)) :
    d.doLogClear =
      (({ f with log := { f.log with ring := f.log.ring.filter fun e => i < e.1, newest := none } } : Dev).p pLOG LOG_STATUS_HEAD 0).p pLOG
        LOG_STATUS_WRAPPED 0 := by
  simp only [doLogClear, h, hz, Bool.false_eq_true, if_false]

end

/-! A counter advances only while RUN is 1 and it is enabled (R413). -/

theorem doCounterSaturate_stopped (base i : Nat) (hrun : d.b pEVC EVC_CTRL_RUN = false) : d.doCounterSaturate base i = d :=
  if_pos (by simp [hrun])

theorem doCounterSaturate_evc {i : Nat} (hrun : d.b pEVC EVC_CTRL_RUN = true) :
    d.doCounterSaturate pEVC i =
      if d.b pEVC (EVC_SEL_EN i) then (d.p pEVC (EVC_CNT_COUNT i) (2 ^ 48 - 1)).on pEVC (EVC_SEL_OVF i) else d :=
  (if_neg (by simp [hrun])).trans (if_pos rfl)

theorem doCounterSaturate_disabled {i : Nat} (hen : d.b pEVC (EVC_SEL_EN i) = false) : d.doCounterSaturate pEVC i = d := by
  cases hrun : d.b pEVC EVC_CTRL_RUN with
  | false => exact doCounterSaturate_stopped _ _ hrun
  | true => exact (doCounterSaturate_evc hrun).trans (if_neg (Bool.eq_false_iff.1 hen))

theorem doCounterSaturate_page {base i : Nat} (hevc : base ≠ pEVC) (hi : i < 4) (hal : base % 0x1000 = 0) (hbase : base < 0x500000)
    (hrun : d.b pEVC EVC_CTRL_RUN = true) (hen : d.b base (PG_SEL_EN i) = true) :
    d.doCounterSaturate base i = (d.p base (PG_CNT_COUNT i) (2 ^ 48 - 1)).on base (PG_SEL_OVF i) :=
  (if_neg (by simp [hrun])).trans ((if_neg (mt beq_iff_eq.1 hevc)).trans (if_pos (by simp [hi, hal, hbase, hen])))

/-! MBIST is refused for a cluster of a partition, and runs where the arbiter grants it (R412, R417). -/

theorem doMbistGo_owned {n : Nat} (h : ((d.p pMNT MNT_MBIST_CLUSTER n).ownerOf n).isSome = true) :
    d.doMbistGo n = (d.p pMNT MNT_MBIST_CLUSTER n).on pMNT MNT_MBIST_STATUS_REFUSED := if_pos h

theorem doMbistGo_granted {n : Nat} {f : Dev} (hown : (d.p pMNT MNT_MBIST_CLUSTER n).ownerOf n = none)
    (hgrant : (d.p pMNT MNT_MBIST_CLUSTER n).mntRequest (mntId 3 16 n) 0 0 false = (f, none)) :
    d.doMbistGo n = ((if f.cluPower n == 2 then f.freshCluster n else f).p pMNT MNT_MBIST_STATUS_STATE 1).setPower n 0 := by
  simp only [doMbistGo, hown, hgrant]
  rfl

theorem doMbistComplete_idle {n : Nat} (failed : Option Nat) (h : d.testing n = false) : d.doMbistComplete n failed = d := if_pos (by simp [h])

/-! The cluster is cleared, returns to its power, and a failing address is reported (R411, R412). -/

section
variable {n : Nat} {f : Dev} (h : d.testing n = true) (hf : f = (d.mntFree (mntId 3 16 n)).clearMemories n)
include h hf

theorem doMbistComplete_fails (a : Nat) :
    d.doMbistComplete n (some a) =
      ((if f.niState n == 2 then f.setPower n 2 else f).p pMNT MNT_MBIST_STATUS_STATE 3).raise 0x109 2 16 a n := by
  rw [doMbistComplete, if_neg (by simp [h]), ← hf]

theorem doMbistComplete_passes :
    d.doMbistComplete n none = (if f.niState n == 2 then f.setPower n 2 else f).p pMNT MNT_MBIST_STATUS_STATE 2 := by
  rw [doMbistComplete, if_neg (by simp [h]), ← hf]

end

/-- Unmasking a vector that the function has sends its pending message (R428). -/
theorem doUnmask_has {fn : Fn} {v : Nat} (hv : fn = .pf ∧ v < 32 ∨ v < 2) :
    d.doUnmask fn v =
      let e := d.p (pMSIX fn) (MSIX_MASK v) 0
      if e.b (pMSIX fn) (MSIX_PBA v) then (e.p (pMSIX fn) (MSIX_PBA v) 0).sendVec fn v else e := by
  cases fn with
  | pf => exact if_neg (Nat.not_le.2 (show v < 32 by omega))
  | vf i => exact if_neg (Nat.not_le.2 (by simpa using hv))

/-! The scan port (R440). -/

theorem tapAnswers_iff : d.tapAnswers = true ↔ d.pwr.st = .active ∨ d.pwr.st = .doze := by
  simp [tapAnswers, active]

/-- Outside DOZE an instruction of the boundary register acts as BYPASS, which powers no rail. -/
theorem scanRails_iff : d.scanRails = true ↔ d.pwr.st = .doze ∧ d.pwr.tap.inst.scans = true := by
  unfold scanRails tapActs
  split
  case isTrue h => simp_all [TapInst.scans]
  case isFalse h => simp_all

end

end Dev

/-- Settles O60: each command finds the condition that its rule names, and writes what the rule gives for it. -/
theorem logCountersAndMaintenanceTakeEffect : Obligations.LogCountersAndMaintenanceTakeEffect := by
  refine ⟨?logAon, ?log, ?logBad, ?gasp, ?clearAll, ?stopped, ?disabled, ?evc, ?page, ?held, ?release, ?mbistOwned, ?mbist, ?mbistNone,
    ?mbistFails, ?mbistPasses, ?unmaskSends, ?unmask, ?scan, ?scanOff, ?port⟩
  case logAon => exact fun d q hact h => (exec_logClear ..).trans (main_eq q hact (Dev.doLogClear_aonOnly h))
  case log => exact fun d q f hact h hz => (exec_logClear ..).trans (main_eq q hact (Dev.doLogClear_all h hz))
  case logBad => exact fun d q f i hact h hz => (exec_logClear ..).trans (main_eq q hact (Dev.doLogClear_bad h hz))
  case gasp => exact fun d q hact => (exec_lastGaspClear ..).trans (main_active d q _ hact)
  case clearAll => exact fun d q hd => (exec_clearAll ..).trans (main_full q _ hd)
  case stopped => exact fun d q base i hact hrun => (exec_counterSaturate ..).trans (main_eq q hact (Dev.doCounterSaturate_stopped _ _ hrun))
  case disabled => exact fun d q i hact hen => (exec_counterSaturate ..).trans (main_eq q hact (Dev.doCounterSaturate_disabled hen))
  case evc =>
    exact fun d q i hact hrun hen => (exec_counterSaturate ..).trans (main_eq q hact ((Dev.doCounterSaturate_evc hrun).trans (if_pos hen)))
  case page =>
    exact fun d q base i hact hevc hi hal hbase hrun hen =>
      (exec_counterSaturate ..).trans (main_eq q hact (Dev.doCounterSaturate_page hevc hi hal hbase hrun hen))
  case held => exact fun d q code owner inst hact h => (exec_mntRelease ..).trans (main_eq q hact (if_pos h))
  case release =>
    exact fun d q code owner inst hact h => (exec_mntRelease ..).trans (main_eq q hact (if_neg (Bool.eq_false_iff.1 h)))
  case mbistOwned => exact fun d q n hact hr h => (exec_mbistGo ..).trans (main_atPage_eq q hact hr (Dev.doMbistGo_owned h))
  case mbist =>
    exact fun d q n f hact hr hown hgrant => (exec_mbistGo ..).trans (main_atPage_eq q hact hr (Dev.doMbistGo_granted hown hgrant))
  case mbistNone => exact fun d q n x hact h => (exec_mbistComplete ..).trans (main_eq q hact (Dev.doMbistComplete_idle _ h))
  case mbistFails =>
    exact fun d q n a f hact h hf => (exec_mbistComplete ..).trans (main_eq q hact (Dev.doMbistComplete_fails h hf a.toNat))
  case mbistPasses =>
    exact fun d q n f hact h hf => (exec_mbistComplete ..).trans (main_eq q hact (Dev.doMbistComplete_passes h hf))
  case unmaskSends =>
    intro d q fn v hact hreach hv hpend
    have hhas := hv.imp_left fun h => And.intro h v.isLt
    exact (exec_msixUnmask ..).trans
      (main_eq q hact ((if_pos (beq_iff_eq.2 hreach)).trans ((Dev.doUnmask_has hhas).trans (if_pos hpend))))
  case unmask =>
    intro d q fn v hact hreach hv hpend
    have hhas := hv.imp_left fun h => And.intro h v.isLt
    exact (exec_msixUnmask ..).trans
      (main_eq q hact ((if_pos (beq_iff_eq.2 hreach)).trans ((Dev.doUnmask_has hhas).trans (if_neg (Bool.eq_false_iff.1 hpend)))))
  case scan => exact fun d q on h => (exec_boundaryScanExtest ..).trans (fin_eq q (if_pos h))
  case scanOff => exact fun d q on h => (exec_boundaryScanExtest ..).trans (fin_eq q (if_neg (Bool.eq_false_iff.1 h)))
  case port => exact fun d => ⟨Dev.tapAnswers_iff, Dev.scanRails_iff⟩

end Sys2Proof.Machine

namespace Sys2Proof.Machine

/-! How the power state moves (R377 to R380, R393): the events of supplies, PERST# and start-up move it in any state; what the main domain does
leaves it, begins a controlled stop, or ends in a reset to DOZE. -/

namespace Pwr

/-- The part of the power state that its agreement rests on: not the scan port, the functions under reset, VF Enable and the sizes of BAR2. -/
def line (p : Pwr) : Power × Bool × Bool × Bool × Bool × Bool := (p.st, p.vaux, p.vin48, p.perst, p.stopping, p.afterStop)

theorem Agrees.of_eq {p q : Pwr} (h : p.Agrees) (hq : q = p) : q.Agrees := hq ▸ h

theorem Agrees.of_line {p q : Pwr} (h : p.Agrees) (hl : q.line = p.line) : q.Agrees := by
  cases p
  cases q
  simp only [line, Prod.mk.injEq] at hl
  obtain ⟨rfl, rfl, rfl, rfl, rfl, rfl⟩ := hl
  exact ⟨h.off, h.standby, h.supply, h.stop, h.perst, h.after⟩

/-- Outside ACTIVE only the supplies and the absence of a stop matter. -/
theorem Agrees.of_idle {p : Pwr} (hact : p.st ≠ .active) (hoff : p.st = .off ↔ p.vaux = false) (hstandby : p.st = .standby → p.vin48 = false)
    (hdoze : p.st = .doze → p.vin48 = true) (hstop : p.stopping = false) : p.Agrees where
  off := hoff
  standby := hstandby
  supply h := h.elim hdoze (absurd · hact)
  stop h := absurd (hstop.symm.trans h) Bool.false_ne_true
  perst h := absurd h hact
  after h := absurd h hact

/-- In STANDBY without the 48 V supply, and in DOZE with it. -/
theorem Agrees.of_powered {p : Pwr} (hvaux : p.vaux = true) (hst : p.st = .standby ∧ p.vin48 = false ∨ p.st = .doze ∧ p.vin48 = true)
    (hstop : p.stopping = false) : p.Agrees := by
  obtain ⟨hst, hvin⟩ | ⟨hst, hvin⟩ := hst
  all_goals exact .of_idle (by simp [hst]) (by simp [hst, hvaux]) (by simp [hst, hvin]) (by simp [hst, hvin]) hstop

/-- Outside ACTIVE no stop runs. -/
theorem Agrees.not_stopping {p : Pwr} (h : p.Agrees) (hact : p.st ≠ .active) : p.stopping = false :=
  Bool.eq_false_iff.2 (mt h.stop hact)

theorem Agrees.vaux_on {p : Pwr} (h : p.Agrees) (hoff : p.st ≠ .off) : p.vaux = true :=
  Bool.eq_true_of_not_eq_false (mt h.off.2 hoff)

/-- What an effect of the main domain does to the power state of an ACTIVE device. -/
inductive Moves (p : Pwr) : Pwr → Prop
  | keeps {q : Pwr} : q.line = p.line → Moves p q
  | stops : Moves p { p with stopping := true, afterStop := !p.perst }
  | resets (held : Bool) : Moves p { Pwr.reset with st := .doze, vaux := p.vaux, vin48 := p.vin48, perst := p.perst, afterStop := held }

theorem Moves.of_eq {p q : Pwr} (h : q = p) : Moves p q := .keeps (congrArg line h)

theorem Moves.trans_eq {p q r : Pwr} (h : Moves p q) (hr : r = q) : Moves p r := hr ▸ h

/-- The effect of what starts from the same power state is an effect from it. -/
theorem Moves.from_eq {p p' q : Pwr} (h : Moves p' q) (hp : p' = p) : Moves p q := hp ▸ h

theorem Moves.agrees {p q : Pwr} (h : Moves p q) (hact : p.st = .active) (ha : p.Agrees) : q.Agrees := by
  cases h with
  | keeps hl => exact ha.of_line hl
  | stops => exact ⟨ha.off, ha.standby, ha.supply, fun _ => hact, fun _ _ => rfl, fun _ _ => rfl⟩
  | resets held => exact .of_powered (ha.vaux_on (by simp [hact])) (.inr ⟨rfl, ha.supply (.inr hact)⟩) rfl

end Pwr

namespace Dev

theorem active_iff {d : Dev} : d.active = true ↔ d.pwr.st = .active := beq_iff_eq

/-! The effects that end or begin to end ACTIVE. -/

theorem perst_moves (d : Dev) (cause : Nat) : d.pwr.Moves (d.perst cause .doze).pwr := by
  rw [perst_eq]
  exact .resets false

theorem controlledStop_moves (d : Dev) (cause : Nat) : d.pwr.Moves (d.controlledStop cause).pwr := by
  unfold controlledStop
  extract_lets w x hb y z
  split
  · exact .of_eq rfl
  · have hx : x.pwr = d.pwr := (each_pwr _ _ _ fun e i => .of (by split <;> simp only [hardReq_pwr])).trans (setWarden_pwr ..)
    have hz : z.pwr = d.pwr := by
      refine (each_pwr _ _ _ fun e n => .of (drainNi_pwr e n)).trans ?_
      rw [p_pwr, raise_pwr, lastGasp_pwr, raiseSysFreeze_pwr, hx]
    exact Pwr.Moves.stops.from_eq hz

theorem doGraceTimeout_moves (d : Dev) : d.pwr.Moves d.doGraceTimeout.pwr := by
  unfold doGraceTimeout
  split
  · exact controlledStop_moves ..
  · exact .of_eq rfl

theorem doTemperature_moves (d : Dev) (q celsius : Nat) : d.pwr.Moves (d.doTemperature q celsius).pwr := by
  unfold doTemperature
  extract_lets e
  have he : e.pwr = d.pwr := by simp only [e, apply_ite Dev.pwr, p_pwr, ite_self]
  split
  · exact (controlledStop_moves ..).from_eq he
  · exact .of_eq he

theorem doPllLost_moves (d : Dev) : d.pwr.Moves d.doPllLost.pwr := controlledStop_moves (d.p ..) 4

theorem doDevice_moves (d : Dev) : d.pwr.Moves d.doDevice.pwr := by
  unfold doDevice
  split
  · exact .of_eq rfl
  · exact perst_moves ..

theorem doStopComplete_moves (d : Dev) : d.pwr.Moves d.doStopComplete.pwr := by
  have hreset (st : Nat) : ((d.perst 3 .doze).p pWDN WDN_STATUS_STATE st).pwr =
      { Pwr.reset with st := .doze, vaux := d.pwr.vaux, vin48 := d.pwr.vin48, perst := d.pwr.perst } := (p_pwr ..).trans (perst_eq d 3 .doze)
  cases hstop : d.pwr.stopping with
  | false => exact .of_eq (congrArg Dev.pwr (doStopComplete_noStop hstop))
  | true =>
    simp only [doStopComplete_ends hstop, apply_ite Dev.pwr, latchWake_pwr, ite_self, hreset]
    exact .resets _

theorem doResetReq_moves (d : Dev) (src n dest ttl : Nat) (crc : W32) : d.pwr.Moves (d.doResetReq src n dest ttl crc).pwr := by
  unfold doResetReq
  extract_lets f mine acts e
  have he : e.pwr = d.pwr := frameIn_pwr _ _ _ _ _ (fun _ => .of rfl) fun e => .of (onceFor_pwr e 6 src n id fun _ => .of rfl)
  split
  · exact (perst_moves ..).from_eq he
  · exact .of_eq he

/-! Resets of functions and VF Enable touch the power unit's own record of functions alone. -/

theorem clearVfs_line (d : Dev) : d.clearVfs.pwr.line = d.pwr.line := by
  have h : (d.each (List.range 16) fun d i => d.resetFn (.vf (Fin.ofNat 16 i))).pwr = d.pwr := each_pwr _ _ _ fun e i => .of (resetFn_pwr ..)
  simp only [clearVfs, Pwr.line, h]

theorem beginFnReset_line (d : Dev) (fn : Fn) : (d.beginFnReset fn).pwr.line = d.pwr.line := by
  simp only [beginFnReset, Pwr.line]

theorem doFlrPf_line (d : Dev) : d.doFlrPf.pwr.line = d.pwr.line := by
  have hbegun := (beginFnReset_line d.clearVfs .pf).trans (clearVfs_line d)
  unfold doFlrPf
  split
  · rfl
  · dsimp only
    split
    · simp only [resetPtns_pwr, on_pwr, p_pwr, hbegun]
    · split
      · exact hbegun
      · rw [each_pwr _ _ _ fun e c => .of (p_pwr ..)]
        simp only [p_pwr, setBoot_pwr, clearStaging_pwr, hbegun]

theorem doFlrVf_line (d : Dev) (p : Fin 16) : (d.doFlrVf p).pwr.line = d.pwr.line := by
  have hbegun := beginFnReset_line d (.vf p)
  unfold doFlrVf
  split
  · rfl
  · dsimp only
    split
    · rw [ptnResetReq_pwr, hbegun]
    · exact hbegun

theorem doFnResetDone_line (d : Dev) (fn : Fn) : (d.doFnResetDone fn).pwr.line = d.pwr.line := rfl

theorem doVfClear_line (d : Dev) : d.doVfClear.pwr.line = d.pwr.line := by
  unfold doVfClear
  split
  · rfl
  · dsimp only
    rw [resetPtns_pwr, clearVfs_line]

theorem doVfSet_line (d : Dev) (num : Nat) : (d.doVfSet num).pwr.line = d.pwr.line := by
  unfold doVfSet
  split <;> rfl

/-! A register written: only WDN.STOP_REQ and RST.CTRL move the power state (R380, R392). -/

theorem writeHub_moves (d : Dev) (base off v : Nat) : d.pwr.Moves (d.writeHub base off v).pwr := by
  have hword (fs : List Fld) : (d.writeWord base off v fs).pwr = d.pwr := writeWord_pwr ..
  have hgo (fs : List Fld) (f : Dev → Dev) (h : ∀ e : Dev, e.pwr.Moves (f e).pwr) :
      d.pwr.Moves ((d.writeWord base off v fs).iff (v.testBit 0) f).pwr := by
    unfold Dev.iff
    split
    · exact (h _).from_eq (hword fs)
    · exact .of_eq (hword fs)
  unfold writeHub
  split
  · exact hgo _ _ fun e => controlledStop_moves e 5
  · split
    · exact hgo _ _ doDevice_moves
    · exact .of_eq (writeBlock_pwr ..)

theorem writeReg_moves (d : Dev) (fn : Fn) (base off v : Nat) : d.pwr.Moves (d.writeReg fn base off v).pwr := by
  unfold writeReg
  split
  · exact .of_eq rfl
  · split
    · exact .of_eq (by simp only [apply_ite Dev.pwr, writeCommon_pwr, ite_self])
    · split
      · exact .of_eq (writeClu_pwr ..)
      · split
        · exact .of_eq (writePtn_pwr ..)
        · split
          · exact .of_eq (writeLgrp_pwr ..)
          · exact writeHub_moves ..

theorem writePlace_moves (d : Dev) (fn : Fn) (pl : Place) (v : Nat) : d.pwr.Moves (d.writePlace fn pl v).pwr := by
  unfold writePlace
  split
  · exact .of_eq (writeMsix_pwr ..)
  · split
    · exact .of_eq (writeSlice_pwr ..)
    · exact writeReg_moves ..

theorem write32_moves (d : Dev) (fn : Fn) (pl : Place) (v : Nat) : d.pwr.Moves (d.write32 fn pl v).pwr := by
  unfold write32
  split
  · exact writePlace_moves ..
  · split
    · exact .of_eq (keepLow_pwr ..)
    · split
      · exact (writePlace_moves ..).from_eq rfl
      · exact writePlace_moves ..

/-! A host write reaches one place, or leaves the power state as it was; so does a packet that reaches its target. -/

section
variable {P : Pwr → Prop} {d : Dev} (hd : P d.pwr)
include hd

theorem viaNoc_reaches {fn : Fn} {h : Option Nat} {bar off : Nat} {write : Bool} {fail k : Dev → Dev} (hf : ∀ e, Kept (fail e) e)
    (hk : P (k d).pwr) : P (d.viaNoc fn h bar off write fail k).pwr := by
  unfold viaNoc
  split
  · rwa [(hf _).eq, accessError_pwr, noRoute_pwr]
  · split
    · rwa [hostTimeout_pwr]
    · exact hk

theorem viaFence_reaches {fn : Fn} {h : Option Nat} {off : Nat} {write : Bool} {fail k : Dev → Dev} (hf : ∀ e, Kept (fail e) e)
    (hk : P (k d).pwr) : P (d.viaFence fn h off write fail k).pwr := by
  refine viaNoc_reaches hd hf ?_
  cases h with
  | none => exact hk
  | some n =>
    dsimp only
    split
    · rw [(hf _).eq]
      simpa only [apply_ite Dev.pwr, accessError_pwr, hostTimeout_pwr, unreachable_pwr, ite_self] using hd
    · exact hk

theorem atPlace_write_reaches {fn : Fn} {a : Nat} {k : Dev → Place → Dev} (hk : ∀ pl, P (k d pl).pwr) : P (d.atPlace fn a true k).pwr := by
  unfold atPlace reachPlace
  dsimp only
  split
  · exact hd
  · split
    · exact hd
    · exact viaFence_reaches hd (fun _ => .of rfl) (hk _)

theorem request_reaches {k : Packet} {write : Bool} {serve : Packet → Dev → Req → Dev} (hs : ∀ p e r, e.pwr = d.pwr → P (serve p e r).pwr) :
    P (d.request k write serve).pwr := by
  unfold request
  split
  · exact hd
  · dsimp only
    split
    · exact hd
    · split
      · rwa [failed_pwr, noRoute_pwr]
      · split
        · exact hs _ _ _ rfl
        · rwa [respond_pwr, headerError_pwr]

end

theorem doRegisterWrite_agrees {d : Dev} (hact : d.active = true) (h0 : d.pwr.Agrees) (fn : Fn) (a v : Nat) (wide : Bool) :
    (d.doRegisterWrite fn a v wide).pwr.Agrees := by
  have hword (e : Dev) (pl : Place) (w : Nat) (he : e.active = true) (ha : e.pwr.Agrees) : (e.write32 fn pl w).pwr.Agrees :=
    (write32_moves e fn pl w).agrees (active_iff.1 he) ha
  by_cases hal : a % (if wide then 8 else 4) ≠ 0
  · rwa [doRegisterWrite, if_pos hal, doMisaligned_pwr]
  · rw [doRegisterWrite, if_neg hal]
    refine atPlace_write_reaches h0 fun pl => ?_
    split
    · exact hword d pl _ hact h0
    · split
      · exact (writePlace_moves ..).agrees (active_iff.1 hact) h0
      · dsimp only
        split
        · exact hword _ _ _ ‹_› (hword d pl _ hact h0)
        · exact hword d pl _ hact h0

theorem serveReg_moves (k : Packet) (d : Dev) (r : Req) : d.pwr.Moves (serveReg true k d r).pwr := by
  have hrefuse : (d.checkPayload k).pwr = d.pwr := checkPayload_pwr ..
  simp only [serveReg, Bool.true_and, if_true]
  split
  · exact .of_eq ((respond_pwr ..).trans (unreachable_pwr d))
  · split
    · exact .of_eq ((refuseAccess_pwr ..).trans hrefuse)
    · split
      · exact .of_eq ((respond_pwr ..).trans hrefuse)
      · split
        · exact .of_eq ((refuseAccess_pwr ..).trans hrefuse)
        · split
          · exact .of_eq ((respond_pwr ..).trans hrefuse)
          · exact ((write32_moves ..).from_eq hrefuse).trans_eq (respond_pwr ..)

theorem serveAccess_moves (old : Dev) (k : Packet) (d : Dev) (r : Req) (h : d.pwr = old.pwr) : d.pwr.Moves (serveAccess old true k d r).pwr := by
  unfold serveAccess
  split
  · exact serveReg_moves ..
  · exact .of_eq (serveRw_pwr _ _ _ _ _ h)

/-! The events that move the power state from any state (R378, R380). -/

theorem mayStart_iff {d : Dev} :
    d.mayStart = true ↔ d.pwr.st = .doze ∧ d.pwr.vaux = true ∧ d.pwr.vin48 = true ∧ d.pwr.perst = false ∧ d.pwr.afterStop = false := by
  simp [mayStart, and_assoc]

theorem trainPcie_line (d : Dev) : d.trainPcie.pwr.line = d.pwr.line := rfl

/-- A start takes the device into ACTIVE and touches no supply (R389). -/
theorem doStartup_line {d : Dev} (h : d.mayStart = true) (refclk healthOk : Bool) :
    (d.doStartup refclk healthOk).pwr.line = { d.pwr with st := .active }.line := by
  unfold doStartup
  extract_lets p a b c x y e
  have hc : c.pwr.line = a.pwr.line := by
    simp only [c, b, trainPcie_line, setAuthMode_pwr, setBoot_pwr, romStart_pwr, p_pwr, on_pwr]
  have he : e.pwr = c.pwr := by
    cases healthOk with
    | true => exact on_pwr c pIME IME_KEYSTATE_KEY_VALID
    | false => exact (raise_pwr ..).trans (irq_pwr ..)
  rw [h]
  exact (congrArg Pwr.line he).trans hc

theorem powerOn_agrees (d : Dev) : d.powerOn.pwr.Agrees := by
  change Pwr.Agrees { Pwr.reset with st := if d.pwr.vin48 then .doze else .standby, vaux := true, vin48 := d.pwr.vin48, perst := d.pwr.perst }
  cases d.pwr.vin48 with
  | true => exact .of_powered rfl (.inr ⟨rfl, rfl⟩) rfl
  | false => exact .of_powered rfl (.inl ⟨rfl, rfl⟩) rfl

theorem doVauxLoss_pwr (d : Dev) :
    d.doVauxLoss.pwr = { Pwr.reset with st := .off, vaux := false, vin48 := d.pwr.vin48, perst := d.pwr.perst } := by
  refine (iff_pwr _ _ _ fun e => .of (emit_pwr e _)).trans ?_
  change { Pwr.reset with st := .off, vaux := false, vin48 := d.cutBurns.pwr.vin48, perst := d.cutBurns.pwr.perst } = _
  rw [cutBurns_pwr]

theorem doVauxLoss_agrees (d : Dev) : d.doVauxLoss.pwr.Agrees := by
  rw [doVauxLoss_pwr]
  exact .of_idle nofun ⟨fun _ => rfl, fun _ => rfl⟩ nofun nofun rfl

section
variable {d : Dev} (h0 : d.pwr.Agrees)
include h0

theorem doVin48Up_agrees : d.doVin48Up.pwr.Agrees := by
  by_cases hst : d.pwr.st = .standby
  · rw [doVin48Up_standby hst]
    exact .of_powered (h0.vaux_on (by simp [hst])) (.inr ⟨rfl, rfl⟩) (h0.not_stopping (by simp [hst]))
  · rw [doVin48Up_other hst]
    exact ⟨h0.off, fun h => absurd h hst, fun _ => rfl, h0.stop, h0.perst, h0.after⟩

theorem doVin48Loss_agrees : d.doVin48Loss.pwr.Agrees := by
  rw [doVin48Loss_eq]
  cases hst : d.pwr.st with
  | active =>
    dsimp only
    rw [perst_eq, lastGasp_pwr]
    exact .of_powered (h0.vaux_on (by simp [hst])) (.inl ⟨rfl, rfl⟩) rfl
  | doze => exact .of_powered (h0.vaux_on (by simp [hst])) (.inl ⟨rfl, rfl⟩) (h0.not_stopping (by simp [hst]))
  | standby => exact ⟨h0.off, fun _ => rfl, fun h => by simp [hst] at h, h0.stop, h0.perst, h0.after⟩
  | off => exact ⟨h0.off, fun _ => rfl, fun h => by simp [hst] at h, h0.stop, h0.perst, h0.after⟩

theorem doPerstAssert_agrees : d.doPerstAssert.pwr.Agrees := by
  rw [doPerstAssert_eq]
  cases hst : d.pwr.st with
  | active =>
    dsimp only
    split
    · exact ⟨h0.off, h0.standby, h0.supply, h0.stop, fun _ _ => ‹_›, nofun⟩
    · rw [perst_eq]
      exact .of_powered (h0.vaux_on (by simp [hst])) (.inr ⟨rfl, h0.supply (.inr hst)⟩) rfl
  | doze | standby | off => exact .of_idle (by simp [hst]) h0.off h0.standby (fun h => h0.supply (.inl h)) (h0.not_stopping (by simp [hst]))

theorem doPerstDeassert_agrees : d.doPerstDeassert.pwr.Agrees :=
  ⟨h0.off, h0.standby, h0.supply, h0.stop, nofun, h0.after⟩

theorem doStartup_agrees (refclk healthOk : Bool) : (d.doStartup refclk healthOk).pwr.Agrees := by
  cases hmay : d.mayStart with
  | false => rwa [doStartup_idle refclk healthOk hmay]
  | true =>
    obtain ⟨-, hvaux, hvin, hperst, hafter⟩ := mayStart_iff.1 hmay
    refine Pwr.Agrees.of_line ?_ (doStartup_line hmay refclk healthOk)
    exact ⟨⟨nofun, fun h => absurd (hvaux.symm.trans h) nofun⟩, nofun, fun _ => hvin, fun _ => rfl, fun _ h => absurd (hperst.symm.trans h) nofun,
      fun _ h => absurd (hafter.symm.trans h) nofun⟩

theorem vauxUp_agrees : (if d.pwr.st == .off then d.powerOn else d).pwr.Agrees := by
  split
  · exact powerOn_agrees d
  · exact h0

end

theorem atPage_moves {d : Dev} {base : Nat} {k : Dev → Dev} (hk : ∀ e : Dev, e.pwr.Moves (k e).pwr) : d.pwr.Moves (d.atPage base k).pwr := by
  unfold atPage
  split
  · exact hk d
  · exact .of_eq rfl

theorem selectScan_line (d : Dev) (on : Bool) : (d.selectScan on).pwr.line = d.pwr.line := by
  unfold selectScan
  split <;> rfl

end Dev

/-! A command in any power state, of the main domain, or by a configuration request. -/

section
variable {s t : State} {f : Dev → Dev}

theorem fin_agrees (h : (f s.dev).pwr.Agrees) (hx : fin s f = .next t) : t.dev.pwr.Agrees := by
  cases hx
  exact h.of_eq (Dev.finish_pwr _)

variable (h0 : s.dev.pwr.Agrees)
include h0

theorem main_agrees (h : ∀ e : Dev, e.active = true → e.pwr.Agrees → (f e).pwr.Agrees) (hx : main s f = .next t) : t.dev.pwr.Agrees := by
  refine fin_agrees ?_ hx
  split
  · exact h _ ‹_› h0
  · exact h0

theorem main_moves (h : ∀ e : Dev, e.pwr.Moves (f e).pwr) (hx : main s f = .next t) : t.dev.pwr.Agrees :=
  main_agrees h0 (fun e ha => (h e).agrees (Dev.active_iff.1 ha)) hx

theorem config_agrees {fn : Fn} (h : ∀ e : Dev, (f e).pwr.line = e.pwr.line) (hx : config fn s f = .next t) : t.dev.pwr.Agrees := by
  refine fin_agrees (h0.of_line ?_) hx
  split
  · exact h _
  · split <;> rfl

end

section
open Dev

/-! The commands that can move the power state. -/

section
variable {s t : State}

theorem execVauxLoss_agrees (h : execVauxLoss s = .next t) : t.dev.pwr.Agrees :=
  fin_agrees (doVauxLoss_agrees _) h

variable (h0 : s.dev.pwr.Agrees)
include h0

theorem execRegisterWrite_agrees {fn : Fn} {off v : Nat} {wide : Bool} (h : execRegisterWrite fn off v wide s = .next t) : t.dev.pwr.Agrees :=
  main_agrees h0 (fun _ ha he => doRegisterWrite_agrees ha he ..) h

theorem execPairLowWrite_agrees {fn : Fn} {off v : Nat} (h : execPairLowWrite fn off v s = .next t) : t.dev.pwr.Agrees :=
  main_agrees h0 (fun _ ha he => doRegisterWrite_agrees ha he ..) h

theorem execPairHighWrite_agrees {fn : Fn} {off v : Nat} (h : execPairHighWrite fn off v s = .next t) : t.dev.pwr.Agrees :=
  main_agrees h0 (fun _ ha he => doRegisterWrite_agrees ha he ..) h

theorem execWr_agrees {k : Packet} (h : execWr k s = .next t) : t.dev.pwr.Agrees :=
  main_moves h0 (fun d => request_reaches (.of_eq rfl) fun k e r he => (serveAccess_moves d k e r he).from_eq he) h

theorem execVauxUp_agrees (h : execVauxUp s = .next t) : t.dev.pwr.Agrees :=
  fin_agrees (vauxUp_agrees h0) h

theorem execVin48Up_agrees (h : execVin48Up s = .next t) : t.dev.pwr.Agrees :=
  fin_agrees (doVin48Up_agrees h0) h

theorem execVin48Loss_agrees (h : execVin48Loss s = .next t) : t.dev.pwr.Agrees :=
  fin_agrees (doVin48Loss_agrees h0) h

theorem execPerstAssert_agrees (h : execPerstAssert s = .next t) : t.dev.pwr.Agrees :=
  fin_agrees (doPerstAssert_agrees h0) h

theorem execPerstDeassert_agrees (h : execPerstDeassert s = .next t) : t.dev.pwr.Agrees :=
  fin_agrees (doPerstDeassert_agrees h0) h

theorem execStartup_agrees {refclk healthOk : Bool} (h : execStartup refclk healthOk s = .next t) : t.dev.pwr.Agrees :=
  fin_agrees (doStartup_agrees h0 ..) h

theorem execDevice_agrees (h : execDevice s = .next t) : t.dev.pwr.Agrees :=
  main_moves h0 (fun _ => atPage_moves fun e => doDevice_moves e) h

theorem execFlrPf_agrees (h : execFlrPf s = .next t) : t.dev.pwr.Agrees :=
  config_agrees h0 doFlrPf_line h

theorem execFlrVf_agrees {p : Fin 16} (h : execFlrVf p s = .next t) : t.dev.pwr.Agrees :=
  config_agrees h0 (fun e => doFlrVf_line e _) h

theorem execFunctionResetComplete_agrees {fn : Fn} (h : execFunctionResetComplete fn s = .next t) : t.dev.pwr.Agrees :=
  main_moves h0 (fun e => .keeps (doFnResetDone_line e fn)) h

theorem execVfEnableClear_agrees (h : execVfEnableClear s = .next t) : t.dev.pwr.Agrees :=
  config_agrees h0 doVfClear_line h

theorem execCorePllLockLost_agrees (h : execCorePllLockLost s = .next t) : t.dev.pwr.Agrees :=
  main_moves h0 doPllLost_moves h

theorem execGraceTimeout_agrees (h : execGraceTimeout s = .next t) : t.dev.pwr.Agrees :=
  main_moves h0 doGraceTimeout_moves h

theorem execOverTemperature_agrees {q : Fin 5} {celsius : Byte} (h : execOverTemperature q celsius s = .next t) : t.dev.pwr.Agrees :=
  main_moves h0 (fun e => doTemperature_moves e ..) h

theorem execRailFault_agrees (h : execRailFault s = .next t) : t.dev.pwr.Agrees :=
  main_moves h0 (fun e => controlledStop_moves e 3) h

theorem execWardenStop_agrees (h : execWardenStop s = .next t) : t.dev.pwr.Agrees :=
  main_moves h0 (fun _ => atPage_moves fun e => controlledStop_moves e 5) h

theorem execStopComplete_agrees (h : execStopComplete s = .next t) : t.dev.pwr.Agrees :=
  main_moves h0 doStopComplete_moves h

theorem execResetReq_agrees {src : Fin 512} {n : Byte} {dest : Fin 512} {ttl : Nat} {crc : W32}
    (h : execResetReq src n dest ttl crc s = .next t) : t.dev.pwr.Agrees :=
  main_moves h0 (fun _ => doResetReq_moves ..) h

theorem execIrqStatClear_agrees {base : Nat} {v : W32} (h : execIrqStatClear base v s = .next t) : t.dev.pwr.Agrees :=
  main_moves h0 (fun _ => atPlace_write_reaches (.of_eq rfl) fun _ => write32_moves ..) h

theorem execIrqForce_agrees {base : Nat} {v : W32} (h : execIrqForce base v s = .next t) : t.dev.pwr.Agrees :=
  main_moves h0 (fun _ => atPlace_write_reaches (.of_eq rfl) fun _ => write32_moves ..) h

theorem execBoundaryScanExtest_agrees {on : Bool} (h : execBoundaryScanExtest on s = .next t) : t.dev.pwr.Agrees :=
  fin_agrees (h0.of_line (selectScan_line ..)) h

theorem execVfEnableSet_agrees {num : Fin 17} (h : execVfEnableSet num s = .next t) : t.dev.pwr.Agrees :=
  config_agrees h0 (fun e => doVfSet_line e _) h

end

/-- Every command keeps the agreement: most leave the power state as it was, each by the law of its own meaning. -/
theorem exec_agrees {s t : State} (h0 : s.dev.pwr.Agrees) : ∀ c : Instr, exec c s = .next t → t.dev.pwr.Agrees
  | .registerWrite .., h => execRegisterWrite_agrees h0 h
  | .pairLowRead .., h => h0.of_eq (execPairLowRead_pwr _ _ _ h)
  | .pairLowWrite .., h => execPairLowWrite_agrees h0 h
  | .pairHighWrite .., h => execPairHighWrite_agrees h0 h
  | .misalignedAccess .., h => h0.of_eq (execMisalignedAccess_pwr _ _ _ _ _ h)
  | .fenceRead .., h => h0.of_eq (execFenceRead_pwr _ _ _ h)
  | .executeStep .., h => h0.of_eq (execExecuteStep_pwr _ _ h)
  | .correctedWordWriteBack .., h => h0.of_eq (execCorrectedWordWriteBack_pwr _ _ _ _ _ _ h)
  | .cascadeLimit .., h => h0.of_eq (execCascadeLimit_pwr _ _ h)
  | .runLimitReached .., h => h0.of_eq (execRunLimitReached_pwr _ _ h)
  | .stepCyclesCountReached .., h => h0.of_eq (execStepCyclesCountReached_pwr _ _ h)
  | .stepStepsCountReached .., h => h0.of_eq (execStepStepsCountReached_pwr _ _ h)
  | .stallRelease .., h => h0.of_eq (execStallRelease_pwr _ _ h)
  | .start .., h => h0.of_eq (execStart_pwr _ _ h)
  | .resume .., h => h0.of_eq (execResume_pwr _ _ h)
  | .freeze .., h => h0.of_eq (execFreeze_pwr _ _ h)
  | .hardFreeze .., h => h0.of_eq (execHardFreeze_pwr _ _ h)
  | .stepCycles .., h => h0.of_eq (execStepCycles_pwr _ _ h)
  | .stepSteps .., h => h0.of_eq (execStepSteps_pwr _ _ h)
  | .stop .., h => h0.of_eq (execStop_pwr _ _ h)
  | .seqCmdInvalid .., h => h0.of_eq (execSeqCmdInvalid_pwr _ _ _ h)
  | .freezeSettled .., h => h0.of_eq (execFreezeSettled_pwr _ _ h)
  | .freezeTimeout .., h => h0.of_eq (execFreezeTimeout_pwr _ _ h)
  | .seqTableWrite .., h => h0.of_eq (execSeqTableWrite_pwr _ _ _ _ h)
  | .bpiClrCounts .., h => h0.of_eq (execBpiClrCounts_pwr _ _ h)
  | .wliClrCounts .., h => h0.of_eq (execWliClrCounts_pwr _ _ h)
  | .fabClrCount .., h => h0.of_eq (execFabClrCount_pwr _ _ h)
  | .dmemClrCounts .., h => h0.of_eq (execDmemClrCounts_pwr _ _ h)
  | .dmemRowWriteBack .., h => h0.of_eq (execDmemRowWriteBack_pwr _ _ _ _ h)
  | .dmemCfgWrite .., h => h0.of_eq (execDmemCfgWrite_pwr _ _ _ _ h)
  | .fmpConfigWrite .., h => h0.of_eq (execFmpConfigWrite_pwr _ _ _ _ h)
  | .txpConfigWrite .., h => h0.of_eq (execTxpConfigWrite_pwr _ _ _ _ h)
  | .farReadArrival .., h => h0.of_eq (execFarReadArrival_pwr _ _ _ h)
  | .farWriteAck .., h => h0.of_eq (execFarWriteAck_pwr _ _ _ h)
  | .windowRead .., h => h0.of_eq (execWindowRead_pwr _ _ _ _ _ h)
  | .windowWrite .., h => h0.of_eq (execWindowWrite_pwr _ _ _ _ _ _ h)
  | .windowReadTimeout .., h => h0.of_eq (execWindowReadTimeout_pwr _ _ _ _ _ h)
  | .snapSave .., h => h0.of_eq (execSnapSave_pwr _ _ h)
  | .snapSaveComplete .., h => h0.of_eq (execSnapSaveComplete_pwr _ _ h)
  | .snapRestore .., h => h0.of_eq (execSnapRestore_pwr _ _ h)
  | .snapCheckComplete .., h => h0.of_eq (execSnapCheckComplete_pwr _ _ h)
  | .snapRestoreComplete .., h => h0.of_eq (execSnapRestoreComplete_pwr _ _ h)
  | .snapAbort .., h => h0.of_eq (execSnapAbort_pwr _ _ h)
  | .strobe, h => h0.of_eq (execStrobe_pwr _ h)
  | .strobeLatch, h => h0.of_eq (execStrobeLatch_pwr _ h)
  | .ptnCreate .., h => h0.of_eq (execPtnCreate_pwr _ _ _ _ _ _ _ h)
  | .ptnDestroy .., h => h0.of_eq (execPtnDestroy_pwr _ _ _ h)
  | .ptnCloseComplete .., h => h0.of_eq (execPtnCloseComplete_pwr _ _ h)
  | .ptnResize .., h => h0.of_eq (execPtnResize_pwr _ _ _ _ _ _ h)
  | .ptnResizeComplete .., h => h0.of_eq (execPtnResizeComplete_pwr _ _ h)
  | .ptnQuery .., h => h0.of_eq (execPtnQuery_pwr _ _ _ h)
  | .ping .., h => h0.of_eq (execPing_pwr _ _ _ h)
  | .serviceBadCommand .., h => h0.of_eq (execServiceBadCommand_pwr _ _ h)
  | .linkedCommand .., h => h0.of_eq (execLinkedCommand_pwr _ _ _ _ _ _ _ h)
  | .linkedCommandEffect .., h => h0.of_eq (execLinkedCommandEffect_pwr _ _ h)
  | .hold .., h => h0.of_eq (execHold_pwr _ _ _ _ _ h)
  | .ready .., h => h0.of_eq (execReady_pwr _ _ _ _ _ h)
  | .go .., h => h0.of_eq (execGo_pwr _ _ _ _ _ h)
  | .systemHoldRelease .., h => h0.of_eq (execSystemHoldRelease_pwr _ _ h)
  | .steps .., h => h0.of_eq (execSteps_pwr _ _ _ _ _ _ h)
  | .sysFreeze, h => h0.of_eq (execSysFreeze_pwr _ h)
  | .freezeMsg .., h => h0.of_eq (execFreezeMsg_pwr _ _ _ _ _ h)
  | .lockstepRecord .., h => h0.of_eq (execLockstepRecord_pwr _ _ h)
  | .partnerTimeout, h => h0.of_eq (execPartnerTimeout_pwr _ h)
  | .beaconSend, h => h0.of_eq (execBeaconSend_pwr _ h)
  | .beacon .., h => h0.of_eq (execBeacon_pwr _ _ _ _ _ _ _ h)
  | .beaconTimeout, h => h0.of_eq (execBeaconTimeout_pwr _ h)
  | .tsbHoldEnd, h => h0.of_eq (execTsbHoldEnd_pwr _ h)
  | .tsbSet .., h => h0.of_eq (execTsbSet_pwr _ _ h)
  | .bootGo, h => h0.of_eq (execBootGo_pwr _ h)
  | .bootAbort, h => h0.of_eq (execBootAbort_pwr _ h)
  | .bundleFetchComplete .., h => h0.of_eq (execBundleFetchComplete_pwr _ _ h)
  | .bundleVerifyComplete, h => h0.of_eq (execBundleVerifyComplete_pwr _ h)
  | .stageReady, h => h0.of_eq (execStageReady_pwr _ h)
  | .confirm, h => h0.of_eq (execConfirm_pwr _ h)
  | .burnComplete .., h => h0.of_eq (execBurnComplete_pwr _ _ h)
  | .ownerProvision .., h => h0.of_eq (execOwnerProvision_pwr _ _ _ h)
  | .loadGo .., h => h0.of_eq (execLoadGo_pwr _ _ h)
  | .loadAbort .., h => h0.of_eq (execLoadAbort_pwr _ _ h)
  | .loadReplay .., h => h0.of_eq (execLoadReplay_pwr _ _ h)
  | .frame .., h => h0.of_eq (execFrame_pwr _ _ _ h)
  | .scrubWalkRead .., h => h0.of_eq (execScrubWalkRead_pwr _ _ _ h)
  | .scrubPassRequest .., h => h0.of_eq (execScrubPassRequest_pwr _ _ h)
  | .scrubPassStart, h => h0.of_eq (execScrubPassStart_pwr _ h)
  | .scrubPassComplete, h => h0.of_eq (execScrubPassComplete_pwr _ h)
  | .upset .., h => h0.of_eq (execUpset_pwr _ _ _ _ h)
  | .upsetRewrite .., h => h0.of_eq (execUpsetRewrite_pwr _ _ _ h)
  | .laneGroupEnable .., h => h0.of_eq (execLaneGroupEnable_pwr _ _ h)
  | .laneGroupDisable .., h => h0.of_eq (execLaneGroupDisable_pwr _ _ h)
  | .laneTestRequest .., h => h0.of_eq (execLaneTestRequest_pwr _ _ h)
  | .markerSend .., h => h0.of_eq (execMarkerSend_pwr _ _ h)
  | .marker .., h => h0.of_eq (execMarker_pwr _ _ _ _ _ h)
  | .acqTimeout .., h => h0.of_eq (execAcqTimeout_pwr _ _ h)
  | .laneLoss .., h => h0.of_eq (execLaneLoss_pwr _ _ _ h)
  | .codeword .., h => h0.of_eq (execCodeword_pwr _ _ _ _ _ h)
  | .slotFrame .., h => h0.of_eq (execSlotFrame_pwr _ _ _ _ h)
  | .linkFlit .., h => h0.of_eq (execLinkFlit_pwr _ _ _ _ h)
  | .credit .., h => h0.of_eq (execCredit_pwr _ _ _ _ _ h)
  | .injGo .., h => h0.of_eq (execInjGo_pwr _ _ h)
  | .lgrpClrCounts .., h => h0.of_eq (execLgrpClrCounts_pwr _ _ h)
  | .clrSlack .., h => h0.of_eq (execClrSlack_pwr _ _ h)
  | .bridgeLaneEnable .., h => h0.of_eq (execBridgeLaneEnable_pwr _ _ _ _ _ h)
  | .bridgeWordReceive .., h => h0.of_eq (execBridgeWordReceive_pwr _ _ _ _ h)
  | .bridgeWordTransmit .., h => h0.of_eq (execBridgeWordTransmit_pwr _ _ _ h)
  | .packetHop .., h => h0.of_eq (execPacketHop_pwr _ _ _ _ h)
  | .rd .., h => h0.of_eq (execRd_pwr _ _ h)
  | .wr .., h => execWr_agrees h0 h
  | .qwr .., h => h0.of_eq (execQwr_pwr _ _ h)
  | .qrd .., h => h0.of_eq (execQrd_pwr _ _ h)
  | .capWr .., h => h0.of_eq (execCapWr_pwr _ _ h)
  | .trcWr .., h => h0.of_eq (execTrcWr_pwr _ _ h)
  | .rspData .., h => h0.of_eq (execRspData_pwr _ _ h)
  | .rspAck .., h => h0.of_eq (execRspAck_pwr _ _ h)
  | .rspTimeout .., h => h0.of_eq (execRspTimeout_pwr _ _ _ h)
  | .tagQuarantineEnd .., h => h0.of_eq (execTagQuarantineEnd_pwr _ _ _ h)
  | .routeTableWrite .., h => h0.of_eq (execRouteTableWrite_pwr _ _ _ _ h)
  | .drain .., h => h0.of_eq (execDrain_pwr _ _ h)
  | .drainComplete .., h => h0.of_eq (execDrainComplete_pwr _ _ h)
  | .drainTimeout .., h => h0.of_eq (execDrainTimeout_pwr _ _ h)
  | .unfence .., h => h0.of_eq (execUnfence_pwr _ _ h)
  | .nocClrCounts, h => h0.of_eq (execNocClrCounts_pwr _ h)
  | .txpCopyFill .., h => h0.of_eq (execTxpCopyFill_pwr _ _ _ h)
  | .txpCreditRenew .., h => h0.of_eq (execTxpCreditRenew_pwr _ _ _ h)
  | .doorbellAppend .., h => h0.of_eq (execDoorbellAppend_pwr _ _ _ _ _ _ h)
  | .doorbellAppendMulti .., h => h0.of_eq (execDoorbellAppendMulti_pwr _ _ _ _ h)
  | .pop .., h => h0.of_eq (execPop_pwr _ _ _ h)
  | .popWaitExpire .., h => h0.of_eq (execPopWaitExpire_pwr _ _ _ h)
  | .bar4AccessError .., h => h0.of_eq (execBar4AccessError_pwr _ _ _ _ h)
  | .qwrHoldExpire .., h => h0.of_eq (execQwrHoldExpire_pwr _ _ h)
  | .qrdHoldExpire .., h => h0.of_eq (execQrdHoldExpire_pwr _ _ h)
  | .flush .., h => h0.of_eq (execFlush_pwr _ _ _ h)
  | .dropHead .., h => h0.of_eq (execDropHead_pwr _ _ _ h)
  | .clrHwm .., h => h0.of_eq (execClrHwm_pwr _ _ _ h)
  | .queueEnable .., h => h0.of_eq (execQueueEnable_pwr _ _ _ h)
  | .queueDisable .., h => h0.of_eq (execQueueDisable_pwr _ _ _ h)
  | .submit .., h => h0.of_eq (execSubmit_pwr _ _ h)
  | .submitHoldExpire .., h => h0.of_eq (execSubmitHoldExpire_pwr _ _ h)
  | .courierDispatch .., h => h0.of_eq (execCourierDispatch_pwr _ _ _ h)
  | .workItemComplete .., h => h0.of_eq (execWorkItemComplete_pwr _ _ h)
  | .courierWaitLimit .., h => h0.of_eq (execCourierWaitLimit_pwr _ _ h)
  | .dspClr, h => h0.of_eq (execDspClr_pwr _ h)
  | .triggerLevelTimeout, h => h0.of_eq (execTriggerLevelTimeout_pwr _ h)
  | .arm, h => h0.of_eq (execArm_pwr _ h)
  | .disarm, h => h0.of_eq (execDisarm_pwr _ h)
  | .trigPinEdge .., h => h0.of_eq (execTrigPinEdge_pwr _ _ _ h)
  | .pinPulseEnd .., h => h0.of_eq (execPinPulseEnd_pwr _ _ h)
  | .captureArm .., h => h0.of_eq (execCaptureArm_pwr _ _ h)
  | .captureDisarm .., h => h0.of_eq (execCaptureDisarm_pwr _ _ h)
  | .captureBlockWrite .., h => h0.of_eq (execCaptureBlockWrite_pwr _ _ _ h)
  | .postLimitExpire .., h => h0.of_eq (execPostLimitExpire_pwr _ _ h)
  | .rearmExpire .., h => h0.of_eq (execRearmExpire_pwr _ _ h)
  | .channelOwnerWrite .., h => h0.of_eq (execChannelOwnerWrite_pwr _ _ _ h)
  | .zeroingComplete .., h => h0.of_eq (execZeroingComplete_pwr _ _ h)
  | .pinwheelConfigWrite .., h => h0.of_eq (execPinwheelConfigWrite_pwr _ _ _ h)
  | .traceStreamEnable .., h => h0.of_eq (execTraceStreamEnable_pwr _ _ h)
  | .traceCounterLimit .., h => h0.of_eq (execTraceCounterLimit_pwr _ _ h)
  | .mark .., h => h0.of_eq (execMark_pwr _ _ _ h)
  | .traceBlockTimeout .., h => h0.of_eq (execTraceBlockTimeout_pwr _ _ h)
  | .traceSyncTimer .., h => h0.of_eq (execTraceSyncTimer_pwr _ _ h)
  | .tokenChallenge .., h => h0.of_eq (execTokenChallenge_pwr _ _ h)
  | .tokenPresent .., h => h0.of_eq (execTokenPresent_pwr _ _ _ h)
  | .tokenRevoke .., h => h0.of_eq (execTokenRevoke_pwr _ _ h)
  | .tokenExpire, h => h0.of_eq (execTokenExpire_pwr _ h)
  | .authDisable, h => h0.of_eq (execAuthDisable_pwr _ h)
  | .roll, h => h0.of_eq (execRoll_pwr _ h)
  | .keyRollStart, h => h0.of_eq (execKeyRollStart_pwr _ h)
  | .keyRollSector, h => h0.of_eq (execKeyRollSector_pwr _ h)
  | .imeClrCounts, h => h0.of_eq (execImeClrCounts_pwr _ h)
  | .vauxUp, h => execVauxUp_agrees h0 h
  | .vauxLoss, h => execVauxLoss_agrees h
  | .vin48Up, h => execVin48Up_agrees h0 h
  | .vin48Loss, h => execVin48Loss_agrees h0 h
  | .perstAssert, h => execPerstAssert_agrees h0 h
  | .perstDeassert, h => execPerstDeassert_agrees h0 h
  | .startup .., h => execStartup_agrees h0 h
  | .device, h => execDevice_agrees h0 h
  | .flrPf, h => execFlrPf_agrees h0 h
  | .flrVf .., h => execFlrVf_agrees h0 h
  | .functionResetComplete .., h => execFunctionResetComplete_agrees h0 h
  | .ptnReset .., h => h0.of_eq (execPtnReset_pwr _ _ h)
  | .partitionResetComplete .., h => h0.of_eq (execPartitionResetComplete_pwr _ _ h)
  | .vfEnableClear, h => execVfEnableClear_agrees h0 h
  | .clusterWake .., h => h0.of_eq (execClusterWake_pwr _ _ h)
  | .clusterIdleDelay .., h => h0.of_eq (execClusterIdleDelay_pwr _ _ h)
  | .clusterOffDelay .., h => h0.of_eq (execClusterOffDelay_pwr _ _ h)
  | .clusterPowerOn .., h => h0.of_eq (execClusterPowerOn_pwr _ _ h)
  | .corePllLockLost, h => execCorePllLockLost_agrees h0 h
  | .wakeSource .., h => h0.of_eq (execWakeSource_pwr _ _ h)
  | .heartbeat .., h => h0.of_eq (execHeartbeat_pwr _ _ h)
  | .heartbeatTimeout, h => h0.of_eq (execHeartbeatTimeout_pwr _ h)
  | .graceTimeout, h => execGraceTimeout_agrees h0 h
  | .overTemperature .., h => execOverTemperature_agrees h0 h
  | .railFault, h => execRailFault_agrees h0 h
  | .wardenStop, h => execWardenStop_agrees h0 h
  | .stopDrainTimeout, h => h0.of_eq (execStopDrainTimeout_pwr _ h)
  | .stopComplete, h => execStopComplete_agrees h0 h
  | .stringJoin, h => h0.of_eq (execStringJoin_pwr _ h)
  | .stringOpen, h => h0.of_eq (execStringOpen_pwr _ h)
  | .stringLeave, h => h0.of_eq (execStringLeave_pwr _ h)
  | .discover, h => h0.of_eq (execDiscover_pwr _ h)
  | .collect .., h => h0.of_eq (execCollect_pwr _ _ _ _ _ h)
  | .assign .., h => h0.of_eq (execAssign_pwr _ _ _ _ _ h)
  | .stringBeacon .., h => h0.of_eq (execStringBeacon_pwr _ _ _ _ _ _ h)
  | .stringFreeze .., h => h0.of_eq (execStringFreeze_pwr _ _ _ _ _ h)
  | .stringStrobe .., h => h0.of_eq (execStringStrobe_pwr _ _ _ _ _ h)
  | .resetReq .., h => execResetReq_agrees h0 h
  | .msg .., h => h0.of_eq (execMsg_pwr _ _ _ _ _ _ h)
  | .resetReqSend, h => h0.of_eq (execResetReqSend_pwr _ h)
  | .stringBroken, h => h0.of_eq (execStringBroken_pwr _ h)
  | .logClear, h => h0.of_eq (execLogClear_pwr _ h)
  | .lastGaspClear, h => h0.of_eq (execLastGaspClear_pwr _ h)
  | .mntRelease .., h => h0.of_eq (execMntRelease_pwr _ _ _ _ h)
  | .mbistGo .., h => h0.of_eq (execMbistGo_pwr _ _ h)
  | .mbistComplete .., h => h0.of_eq (execMbistComplete_pwr _ _ _ h)
  | .clearAll, h => h0.of_eq (execClearAll_pwr _ h)
  | .counterSaturate .., h => h0.of_eq (execCounterSaturate_pwr _ _ _ h)
  | .irqStatClear .., h => execIrqStatClear_agrees h0 h
  | .irqForce .., h => execIrqForce_agrees h0 h
  | .msixUnmask .., h => h0.of_eq (execMsixUnmask_pwr _ _ _ h)
  | .bar2Read .., h => h0.of_eq (execBar2Read_pwr _ _ _ _ h)
  | .bar2Write .., h => h0.of_eq (execBar2Write_pwr _ _ _ _ h)
  | .captureWindowRead .., h => h0.of_eq (execCaptureWindowRead_pwr _ _ _ _ h)
  | .boundaryScanExtest .., h => execBoundaryScanExtest_agrees h0 h
  | .ownerBurnComplete .., h => h0.of_eq (execOwnerBurnComplete_pwr _ _ h)
  | .prbsCheck .., h => h0.of_eq (execPrbsCheck_pwr _ _ _ _ h)
  | .laneClockRecovered .., h => h0.of_eq (execLaneClockRecovered_pwr _ _ _ h)
  | .vfEnableSet .., h => execVfEnableSet_agrees h0 h
  | .stringFrameRepeat, h => h0.of_eq (execStringFrameRepeat_pwr _ h)
  | .stringBeaconSend, h => h0.of_eq (execStringBeaconSend_pwr _ h)

end

theorem step_agrees {s t : State} (h : step s = .next t) (h0 : s.dev.pwr.Agrees) : t.dev.pwr.Agrees := by
  obtain ⟨d, pending⟩ := s
  cases pending with
  | nil =>
    rw [step_nil] at h
    exact h0.of_eq (main_keeps (fun e => .of e.clockStep_pwr) h)
  | cons c rest =>
    rw [step_cons] at h
    exact exec_agrees (s := ⟨d, rest⟩) h0 c h

/-- Settles O4: a step is a command's effect or the clock's; the events of R380 reach states that agree, and the main domain can only begin a stop,
end in DOZE, or leave the power state. -/
theorem powerStateAgreesWithSupplies : Obligations.PowerStateAgreesWithSupplies :=
  fun _ _ => step_agrees

/-! Only STARTUP enters ACTIVE (R378, R380, R389). -/

namespace Dev

theorem idleAnswer_pwr (d : Dev) (c : Instr) : (d.idleAnswer c).pwr = d.pwr := by
  unfold idleAnswer
  split
  · split <;> rfl
  · rfl

section
variable {d : Dev} (hidle : d.pwr.st ≠ .active)
include hidle

theorem vauxUp_idle : (if d.pwr.st == .off then d.powerOn else d).pwr.st ≠ .active := by
  split
  · change (if d.pwr.vin48 then Power.doze else .standby) ≠ .active
    split <;> nofun
  · exact hidle

theorem doVin48Up_idle : d.doVin48Up.pwr.st ≠ .active := by
  by_cases hst : d.pwr.st = .standby
  · rw [doVin48Up_standby hst]
    exact nofun
  · rwa [doVin48Up_other hst]

theorem doVin48Loss_idle : d.doVin48Loss.pwr.st ≠ .active := by
  rw [doVin48Loss_eq]
  split
  · exact absurd ‹_› hidle
  · exact nofun
  · exact hidle

theorem doPerstAssert_idle : d.doPerstAssert.pwr.st ≠ .active := by
  rw [doPerstAssert_eq]
  split
  · exact absurd ‹_› hidle
  all_goals exact hidle

theorem doStartup_stays_idle {refclk healthOk : Bool} (h : d.mayStart = false) : (d.doStartup refclk healthOk).pwr.st ≠ .active := by
  rwa [doStartup_idle refclk healthOk h]

theorem doWake_idle (src : Nat) : (d.doWake src).pwr.st ≠ .active := by
  rwa [doWake_pwr]

theorem selectScan_idle (on : Bool) : (d.selectScan on).pwr.st ≠ .active := by
  unfold selectScan
  split <;> exact hidle

end

theorem doVauxLoss_idle (d : Dev) : d.doVauxLoss.pwr.st ≠ .active := by
  rw [doVauxLoss_pwr]
  exact nofun

end Dev

theorem fin_idle {s t : State} {f : Dev → Dev} (h : (f s.dev).pwr.st ≠ .active) (hx : fin s f = .next t) : t.dev.pwr.st ≠ .active := by
  cases hx
  rwa [Dev.finish_pwr]

/-- Of the commands that act outside ACTIVE, those that do not start the device leave it outside ACTIVE, and STARTUP does without its condition. -/
theorem exec_alwaysActs_idle {s t : State} (hidle : s.dev.pwr.st ≠ .active) :
    ∀ c : Instr, alwaysActs c = true → ((∃ refclk healthOk, c = .startup refclk healthOk) → s.dev.mayStart = false) → exec c s = .next t →
      t.dev.pwr.st ≠ .active := by
  intro c hacts hstart hx
  cases c
  case vauxUp => exact fin_idle (Dev.vauxUp_idle hidle) ((exec_vauxUp s).symm.trans hx)
  case vauxLoss => exact fin_idle (Dev.doVauxLoss_idle _) ((exec_vauxLoss s).symm.trans hx)
  case vin48Up => exact fin_idle (Dev.doVin48Up_idle hidle) ((exec_vin48Up s).symm.trans hx)
  case vin48Loss => exact fin_idle (Dev.doVin48Loss_idle hidle) ((exec_vin48Loss s).symm.trans hx)
  case perstAssert => exact fin_idle (Dev.doPerstAssert_idle hidle) ((exec_perstAssert s).symm.trans hx)
  case perstDeassert => exact fin_idle (f := Dev.doPerstDeassert) hidle ((exec_perstDeassert s).symm.trans hx)
  case startup refclk healthOk =>
    exact fin_idle (Dev.doStartup_stays_idle hidle (hstart ⟨refclk, healthOk, rfl⟩)) ((exec_startup s refclk healthOk).symm.trans hx)
  case wakeSource src => exact fin_idle (Dev.doWake_idle hidle src) ((exec_wakeSource s src).symm.trans hx)
  case boundaryScanExtest on => exact fin_idle (Dev.selectScan_idle hidle on) ((exec_boundaryScanExtest s on).symm.trans hx)
  all_goals exact absurd hacts nofun

/-- Settles O10: outside ACTIVE every other command leaves the power state outside it, and STARTUP acts under the start condition alone. -/
theorem onlyStartupEntersActive : Obligations.OnlyStartupEntersActive := by
  rintro c ⟨d, q⟩ t hx hidle hact
  have hst : d.pwr.st ≠ .active := mt Dev.active_iff.2 (Bool.eq_false_iff.1 hidle)
  cases hacts : alwaysActs c with
  | false =>
    cases (mainDomainCommandsNeedActive c d q hacts hidle).symm.trans hx
    exact absurd (Dev.active_iff.1 hact) (by rwa [Dev.finish_pwr, Dev.idleAnswer_pwr])
  | true =>
    by_cases hstart : (∃ refclk healthOk, c = .startup refclk healthOk) ∧ d.mayStart = true
    · exact ⟨hstart.1, Dev.mayStart_iff.1 hstart.2⟩
    · refine absurd (Dev.active_iff.1 hact) (exec_alwaysActs_idle (s := ⟨d, q⟩) hst c hacts (fun hc => ?_) hx)
      exact Bool.eq_false_iff.2 fun hmay => hstart ⟨hc, hmay⟩

end Sys2Proof.Machine
